-- ==== Sys2Proof/Word.lean ====
section
/-! DEFINITION. Words, bytes and the sparse-map type that the state is built from. -/

namespace Sys2Proof

/-- A 32-bit register word (R31). -/
abbrev Word := BitVec 32

abbrev Byte := BitVec 8

/-- A sparse map from a numeric key to a value: a list sorted by strictly rising key.
The operations that keep it in that form are in `Sys2Proof.Machine.Maps`. -/
abbrev AMap (α : Type) := List (Nat × α)

/-- The keys of a sparse map rise strictly. -/
def AMap.sorted {α : Type} : AMap α → Bool
  | [] => true
  | [_] => true
  | a :: b :: rest => decide (a.1 < b.1) && AMap.sorted (b :: rest)

end Sys2Proof
end

