-- ==== Sys2Proof/Config.lean ====
section
/-! DEFINITION. The ordering-code variants and the free values: results the spec leaves open.
A free value is an opaque constant, so no proof can see what it is (assumption log 2). -/

namespace Sys2Proof

/-- The four ordering codes (R3, R4). -/
inductive Variant where
  | q4c4 | q4c0 | q2c2 | q2c0
  deriving DecidableEq, Repr

/-- Varrin dies fitted (R4). -/
def Variant.dies : Variant → Nat
  | .q4c4 => 4 | .q4c0 => 4 | .q2c2 => 2 | .q2c0 => 2

/-- Codec engines enabled (R3, R4). -/
def Variant.codecs : Variant → Nat
  | .q4c4 => 4 | .q4c0 => 0 | .q2c2 => 2 | .q2c0 => 0

namespace Config

/-- A value the spec leaves open, numbered by the state's counter of free values (assumption log 2). -/
opaque freeNat : Nat → Nat

/-- The signed distance in ulps between a vector function's result and the correctly rounded one, by function
number and operand bits (R130 bounds it and gives no value; assumption log 12). -/
opaque vfnUlp : Nat → Nat → Int

/-- The 32-bit word that draw `n` takes from the DRBG of a context's `k`-th key generation (R131, R405). -/
opaque drbg : Nat → Nat → Nat → Nat

/-- A digest or authentication tag over a list of numbers: the cryptographic functions are uninterpreted
(assumption log 14). First argument: which function. -/
opaque digest : Nat → List Nat → Nat

/-- The 64 bytes, as one number, that decrypting a line gives under a key other than the one it was written with: key, writer's key plus 1
(0: raw zeros), line number, plaintext (R197, R199; assumption log 14). -/
opaque xts : Nat → Nat → Nat → Nat → Nat

/-- `PAGE_VER` of a page, and `PAGE_ID.INST` of a page above BAR0: fixed numbers that the spec does not give (R37). -/
opaque pageVer : Nat → Nat
opaque pageInst : Nat → Nat

end Config

end Sys2Proof
end

