-- ==== Sys2Proof/Syntax.lean ====
section
/-! DEFINITION. The commands of the block: one constructor for each row of the table of operations and events, with the row's operands. -/

namespace Sys2Proof

/-- A host access to a register: the issuing function, whether it goes to the function's BAR2 window or to BAR0,
and the byte offset within that BAR (R31, R44, R50). -/
structure RegAcc where
  fn : Fin 32
  bar2 : Bool
  off : Nat
  deriving DecidableEq, Repr

/-- A host access to a register that a row fixes, on the page at `page` (offset / 4096) of BAR0 or of the window. -/
structure PageAcc where
  fn : Fin 32
  bar2 : Bool
  page : Nat
  deriving DecidableEq, Repr

/-- A physical vat: die, floor and physical number. -/
structure VatId where
  die : Fin 4
  floor : Fin 12
  vat : Fin 9
  deriving DecidableEq, Repr

/-- A floor of a die. -/
structure FloorId where
  die : Fin 4
  floor : Fin 12
  deriving DecidableEq, Repr

/-- A kernel descriptor, by its fields (R96). -/
structure Desc where
  kid : Nat := 0
  valid : Bool := true
  preempt : Bool := false
  partitioned : Bool := false
  class0 : Bool := false
  entry : Nat := 0
  length : Nat := 1
  saveBase : Nat := 0
  bankMask : Nat := 0
  maxClk : Nat := 0
  startSpile : Nat := 0
  doneSpile : Nat := 0
  startThresh : Nat := 0
  params : List Nat := []
  imageId : Nat := 0
  deriving DecidableEq, Repr

/-- A load command of the floor loader (R98): the image, the logical vats, and what the image holds for the slots and the
code words it covers. -/
structure LoadJob where
  image : Nat
  vats : Nat
  slots : List (Nat × Desc)
  code : List (Nat × Nat)
  deriving DecidableEq, Repr

/-- An arming of a dispatch entry (R101): the floor and logical vat, the entry, and what the entry takes. -/
structure ArmReq where
  die : Fin 4
  floor : Fin 12
  logical : Fin 8
  entry : Fin 8
  slot : Fin 64
  cls : Fin 4
  ctx : Fin 1024
  spile : Nat
  thresh : Nat
  words : List Nat
  step : Nat
  deriving DecidableEq, Repr


/-- A request to the Tap (R181): the port, the requester, the beats of its burst, its context, whether a class-0 kernel makes it, and
whether its burst moves no beat. -/
structure TapReq where
  port : Nat
  req : Nat
  beats : Nat
  ctx : Nat
  class0 : Bool
  stuck : Bool
  deriving DecidableEq, Repr


/-- What the memory does physically on a line access: the first and second read mismatch, the mirror copy is bad too, the cached CRC line
has a parity error (R194, R195, R201). -/
structure LineOut where
  fail1 : Bool := false
  fail2 : Bool := false
  mirrorBad : Bool := false
  cacheParity : Bool := false
  deriving DecidableEq, Repr

/-- A run of frames of one die. -/
structure FrameRun where
  die : Nat
  first : Nat
  count : Nat
  deriving DecidableEq, Repr

/-- A key as a row of an attention layer meets it (R223, R226): its position, its node for a step key, its score, and its value row in
`KV_FMT` codes. -/
structure AttKey where
  pos : Nat
  node : Option Nat
  score : Nat
  value : List Nat
  deriving DecidableEq, Repr

/-- A query row of a layer (R224): the member of the step, the step's query token (in step order) and its node, and the tiles of each vat of
`VAT_MASK` in ascending order, the step keys last; `out` and `lse` are the byte offsets of its output row and log-sum-exp. -/
structure AttRow where
  member : Nat
  token : Nat
  node : Nat
  parts : List (List (List AttKey))
  out : Nat
  lse : Nat
  deriving DecidableEq, Repr

/-- What a step's kernels leave for one member at the step's join: the logits of each node, the root first (R238). -/
structure MemberOut where
  logits : List (List Nat)
  deriving DecidableEq, Repr


/-- A descriptor of a Mill job's list: its kind (0 layer, 1 pre-processing, 2 head) and its VA (R335). -/
structure MillDesc where
  kind : Nat
  va : Nat
  deriving DecidableEq, Repr

/-- A Mill job: context, class, one to four descriptors, done spile (R335). -/
structure MillList where
  ctx : Nat
  cls : Nat
  descs : List MillDesc
  spile : Nat
  deriving DecidableEq, Repr


/-- A sequence header: inside R345 apart from its level; above the level limit; picture size; DPB need (R361); 10-bit. -/
structure SeqHeader where
  ok : Bool := true
  above : Bool := false
  w : Nat := 64
  h : Nat := 64
  dpb : Nat := 1
  ten : Bool := false
  deriving DecidableEq, Repr

/-- What the engine finds in a decoder's access unit (the bitstream syntax is the standards', assumption log 31): a sequence header with
its checks (R346) and DPB need (R361), the picture's kind and size in coded units, and references that are missing (R363). -/
structure PicSyntax where
  header : Option SeqHeader := none
  key : Bool := false
  cra : Bool := false
  rasl : Bool := false
  ptype : Nat := 1
  w : Nat := 64
  h : Nat := 64
  missing : Bool := false
  grain : Bool := false
  shown : Bool := true
  /-- its place in the standard's output order -/
  order : Nat := 0
  deriving DecidableEq, Repr

/-- How a picture ends: an engine detection; a line at a VA that reads bad; a syntax error; the samples or the bitstream; for each buffer its
mark as the standard orders it and the buffers output, in order; an encoder's bits of each block row and the picture's SATD total; average QP of a
decoded picture. -/
structure PicOut where
  detect : Bool := false
  badVa : Option Nat := none
  synErr : Bool := false
  data : List Byte := []
  marks : List Nat := []
  outs : List Nat := []
  rows : List Nat := []
  satd : Nat := 0
  qp : Nat := 0
  deriving DecidableEq, Repr


/-- The header numbers of a firmware image (R447): security version, epochs, release number, and its measurement digest. -/
structure Image where
  svn : Nat := 0
  epoch : Nat := 0
  accMin : Nat := 0
  accMax : Nat := 0
  version : Nat := 0
  digest : Nat := 0
  deriving DecidableEq, Repr

/-- What the Gauger finds in an owner command (R439): both signatures of the owner verify, it names this module or all, its OWNER_SEQ. -/
structure OwnerBlob where
  sigOk : Bool
  forUs : Bool
  seq : Word
  deriving DecidableEq, Repr

/-- The settings that an owner POLICY changes (R439, R537). -/
inductive PolicyItem where
  | lmsBudget | hbS | ramp | cap | orphanCap | alertCap | shed | throttleC | hbRequired | hbLimit
  deriving DecidableEq, Repr

/-- Where a section of a cask goes (R442): pages from a VA, floor-store segments, or the code region. -/
inductive CaskDest where
  | weight (va pages : Nat)
  | segs (die floor mask : Nat)
  | code
  deriving DecidableEq, Repr

/-- A CASK_LOAD as the Gauger reads it (R440, R442): the context, the host address, the publisher's key, what the signatures, the binding table
and the format checks give, MIN_SVN, SEALED_ONLY and the destinations of the sections. -/
structure CaskIn where
  ctx : Fin 1024
  host : Nat
  pubKey : Nat
  sigOk : Bool
  bound : Bool
  minSvn : List Nat
  sealedOnly : Bool
  formatOk : Bool
  sects : List CaskDest
  deriving DecidableEq, Repr

/-- A unit that self-test tests in service (R461): a vat, a floor's logic, a free segment, a fabric's plane (die 0–3, 4 the hub), a Mill
pipe (0 ARRAY, 1 PRE), a codec engine, a standby Cellarmaster. -/
inductive BistUnit where
  | vat (v : VatId)
  | floor (f : FloorId)
  | seg (f : FloorId) (g : Fin 32)
  | plane (k : Fin 5)
  | pipe (p : Fin 2)
  | codec (k : Fin 4)
  | cm (u : Fin 2)
  deriving DecidableEq, Repr

/-- What a failing sub-signature locates (R467, R469): a column of a quadrant, a line or a bit column of a vat-store bank, or logic without a spare. -/
inductive BistSub where
  | column (q : Fin 4) (c : Fin 17)
  | line (b : Fin 16)
  | bitCol (b : Fin 16)
  | logic
  deriving DecidableEq, Repr

/-- A clock domain (R22), by the unit that it serves: die-fabric and translation domains by their die. -/
inductive ClkDomain where
  | vat (v : VatId)
  | floor (f : FloorId)
  | dieFabric (n : Fin 4)
  | lpddr (n : Fin 4) (g : Fin 4)
  | keg (l : Fin 8)
  | coll (n : Fin 4)
  | xlat (n : Fin 4)
  | codec (k : Fin 4)
  | mill
  | gauger
  | cm (u : Fin 2)
  | timeBase
  | hubFabric
  | hub
  deriving DecidableEq, Repr


/-- What the read of one intake entry's prompt meets (R488): the ring (context × 8 + number) and the entry's index, whether the host read
fails, and for a sealed context the tokens of each record whose tag verifies, in order, up to the first that does not (R437). -/
structure EntryIn where
  ring : Nat
  pos : Nat
  fails : Bool := false
  records : List (List Nat) := []
  deriving DecidableEq, Repr

/-- What a read of the intake rings meets: the rings whose host read fails (R486), and what the prompts of their entries hold. -/
structure IntakeIn where
  failed : List Nat := []
  entries : List EntryIn := []
  deriving DecidableEq, Repr


/-- The numeric sensors of PLDM (R535). -/
inductive NumSensor where
  | voltage | current | power | hottest | inlet | outlet
  deriving DecidableEq, Repr

/-- The state sensors of PLDM (R535). -/
inductive StateSensor where
  | grade | throttle | bootCause | mate
  deriving DecidableEq, Repr


/-- The sources of a HOST reset (R538). -/
inductive HostCause where
  | perst | hotReset | pfFlr
  deriving DecidableEq, Repr

/-- What the phase of the start-up that ends has found (R541): a hub unit of phase ROM failed, or the Gauger; the register pages of units that failed
self-test; the time-base receivers that failed their loop-back (bit 0 line A, bit 1 line B); channels that failed training, as die and channel; system frames
and those of them free for tables, by die; the resident library kernels. -/
structure PhaseOut where
  hubFail : Bool := false
  failed : List Nat := []
  lines : Nat := 0
  channels : List (Nat × Nat) := []
  sysFrames : List (Nat × Nat) := []
  loads : List (FloorId × LoadJob) := []
  deriving DecidableEq, Repr



/-- How the training of a keg link ends (R504): the lanes that trained, whether the peer's signatures verify, and what the peer reports. -/
structure KegPeer where
  lanes : Fin 16
  sigOk : Bool
  owner : Option Nat
  hash : Nat
  cab : Fin 64
  link : Fin 8
  deriving DecidableEq, Repr

/-- What comes back from a remote module for an access (R517): a fault code (0: none), the line's bytes, whether it came marked bad. -/
structure RemoteOut where
  code : Nat := 0
  data : List Byte := []
  bad : Bool := false
  deriving DecidableEq, Repr

/-- A record of a collective operation on a keg link (R502, R508): where it comes from and goes, its hop count, the job, operation and die,
whether it carries partial sums (0), results (1) or merge records (2), its chunk or origin position, its byte offset, its lanes (32-bit words
for partial sums, bytes otherwise). -/
structure CollRec where
  src : Nat
  dst : Nat
  hops : Nat
  job : Nat
  seq : Nat
  die : Nat
  phase : Nat
  chunk : Nat := 0
  off : Nat := 0
  words : List Nat := []
  /-- merge records: heads, head dimension, and whether the outputs are fp32 -/
  heads : Nat := 1
  dim : Nat := 0
  wide : Bool := true
  deriving DecidableEq, Repr


/-- A group of the period plan (R27, R149, R302): start slot and length, class, model, context set, token capacity, and the step that it starts:
its number, start posts, join spile and threshold, LOCAL groups, Mill jobs that it includes (R335), and collective operations armed with it: die and VA of each descriptor (R507). -/
structure GroupPlan where
  start : Nat
  len : Nat
  cls : Nat
  model : Nat
  ctxs : List Nat
  cap : Nat
  step : Nat
  posts : List (Nat × Nat) := []
  join : Nat := 0
  thresh : Nat := 0
  locals : List Nat := []
  mills : List MillList := []
  colls : List (Nat × Nat) := []
  deriving DecidableEq, Repr


/-- A command of a Cellarmaster to an output stage (R383): a plan for the issue gate, a completion for the completion writer, a word to the
slot-table switcher. -/
inductive StageCmd where
  | plan (groups : List GroupPlan)
  | completion
  | switcher
  deriving DecidableEq, Repr


/-- The commands and events that move the module: one constructor per row of spec/opcode_table.json. -/
inductive Instr where
  /-- `REGISTER_WRITE` (R31): A register write to a field with no behaviour of its own takes effect under the access rules, or is ignored when malformed. -/
  | registerWrite (a : RegAcc) (be : Fin 16) (v : Word)
  /-- `COUNTER_LO_READ` (R34): A read of a counter's LO half copies its HI half into the page shadow and assigns the shadow to that counter. -/
  | counterLoRead (a : RegAcc)
  /-- `COUNTER_HI_READ` (R34): A read of a counter's HI half returns the shadow and releases it if the counter holds the shadow, and the live upper half otherwise. -/
  | counterHiRead (a : RegAcc)
  /-- `EVT_PEND_CLEAR` (R38): A W1C write to EVT_PEND clears the written bits in EVT_RAW; an event in the same clock stays set. -/
  | evtPendClear (p : PageAcc) (v : Word)
  /-- `EVT_EN_WRITE` (R38): A write to EVT_EN sets the enables, and any enabled bit already raw becomes pending at once. -/
  | evtEnWrite (p : PageAcc) (v : Word)
  /-- `FAULT_CAPT_REARM` (R37): Writing 0 to FAULT_CAPT.VALID clears VALID and MORE and re-arms fault capture. -/
  | faultCaptRearm (p : PageAcc)
  /-- `LOCK_SET` (R43): Writing 1 to LOCK.LOCKED locks the page's RWL fields until a re-initialising reset. -/
  | lockSet (p : PageAcc)
  /-- `OWNER_WRITE` (R42): A PF write to a page's OWNER field changes its owner and pass-through mapping, or is refused with ACCESS_ERR. -/
  | ownerWrite (p : PageAcc) (v : Word)
  /-- `EVT_REARM` (R48): Writing EVT.REARM re-evaluates the root interrupt condition and resends the PF event message if events are pending. -/
  | evtRearm (fn : Fin 32)
  /-- `SNAP_ARM` (R52): Writing SNAP.ARM arms the snap against the target tick, or sets SNAP.MISSED when the target is not ahead. -/
  | snapArm (fn : Fin 32)
  /-- `SNAP_NOW` (R54): Writing SNAP.NOW fires a snap at once with the current interpolated tick, sets FORCED and disarms any target. -/
  | snapNow (fn : Fin 32)
  /-- `SNAP_CANCEL` (R55): Writing SNAP.CANCEL disarms an armed snap unless its strobe has already left. -/
  | snapCancel (fn : Fin 32)
  /-- `SNAP_FIRE` (R53): When the interpolated tick reaches the armed target, the module increments LAST_SEQ and sends the snap strobe. -/
  | snapFire (missing : List Nat)
  /-- `SNAP_DONE_TIMEOUT` (R53): At all acknowledgements, or 1 µs after firing, SNAP.DONE is set and units not acknowledging are counted with INCOMPLETE. -/
  | snapDoneTimeout
  /-- `TB_FRAME_RECEIVE` (R58): A time-base frame received on an enabled line is checked, counted and accepted or counted as lost. -/
  | tbFrameReceive (lineB : Bool) (codeErr : Bool) (bytes : List Byte)
  /-- `TB_WINDOW_END` (R59): At the end of each 1 µs window the receiver selects the frame to use or counts a missing window, and corrects the interpolated tick. -/
  | tbWindowEnd
  /-- `STALL_DETECT` (R76): No tick advance for 4 slot lengths while frames arrive, or a frame with STALL, puts the time base in STALLED. -/
  | stallDetect
  /-- `STALL_GUARD_EXPIRE` (R76): When a stall has lasted STALL_GUARD_US, the state becomes STALL_FLY and flywheel periods begin for the flywheel classes. -/
  | stallGuardExpire
  /-- `HOLDOVER_ENTRY` (R78): After 16 consecutive missing windows the state goes to HOLDOVER and the tick runs on the last measured period. -/
  | holdoverEntry
  /-- `FLYWHEEL_MARK` (R76): A period mark generated by the flywheel performs the R27 actions for the classes it drives. -/
  | flywheelMark (plan : List GroupPlan) (inp : IntakeIn)
  /-- `FREE_RUN_ENTRY` (R78): At the fourth flywheel or substitute mark the state becomes FREE_RUN and BOUND_OK falls to 0. -/
  | freeRunEntry
  /-- `MARK_LOST` (R66): In MARK mode, no mark within 2 × PERIOD_CLK places a substitute mark, raises MARK_LOST and performs the period-mark actions. -/
  | markLost (plan : List GroupPlan) (inp : IntakeIn)
  /-- `PERIOD_MARK` (R27): At each period mark the switcher, state copy, plan issue, ring reads and slot-0 token posts are performed in fixed order. -/
  | periodMark (plan : List GroupPlan) (inp : IntakeIn)
  /-- `SLOT_EDGE` (R28): At a slot edge the class-0 rings are read and the slot's step-start tokens are posted. -/
  | slotEdge (inp : IntakeIn)
  /-- `TBASE_ENABLE` (R80): Setting TBASE.CFG.ENABLE starts ACQUIRING and loads the interpolated tick from the first valid frame. -/
  | tbaseEnable (fn : Fin 32) (v : Word)
  /-- `TBASE_DISABLE` (R80): Clearing TBASE.CFG.ENABLE returns the time base to IDLE, holds the tick and disarms any snap. -/
  | tbaseDisable (fn : Fin 32) (v : Word)
  /-- `SLOT_TABLE_WRITE` (R69): A write to a slot-table entry sets it in the inactive copy, or is ignored with ACTIVE_WRITE for the active or pending copy. -/
  | slotTableWrite (fn : Fin 32) (copyB : Bool) (slot : Fin 64) (v : Word)
  /-- `SLOT_SW_REQ` (R69): Writing SLOT_SW.REQ checks the inactive copy and sets PEND, or refuses with SWITCH_REJECT. -/
  | slotSwReq (fn : Fin 32)
  /-- `SLOT_SW_CANCEL` (R70): Writing SLOT_SW.CANCEL withdraws a pending switch if it arrives before the mark. -/
  | slotSwCancel (fn : Fin 32)
  /-- `NOP` (R86): The NOP instruction does nothing. -/
  | nop (v : VatId)
  /-- `END` (R86): END waits until every unit and DMA of the kernel has completed, posts the done spile and ends the kernel. -/
  | endKernel (v : VatId)
  /-- `BR` (R94): BR branches by a sign-extended offset when its condition holds. -/
  | br (v : VatId)
  /-- `LOOP` (R94): LOOP repeats the following body a counted number of times. -/
  | loop (v : VatId)
  /-- `SYNC` (R86): SYNC waits until the named units have completed every earlier instruction. -/
  | sync (v : VatId)
  /-- `SPWAIT` (R145): SPWAIT sends a wait on a spile and holds issue until the release arrives. -/
  | spwait (v : VatId)
  /-- `SPPOST` (R144): SPPOST posts an amount to a spile after every earlier store of the kernel has taken effect. -/
  | sppost (v : VatId)
  /-- `SPTAKE` (R145): SPTAKE sends a take on a spile and holds issue until the release arrives. -/
  | sptake (v : VatId)
  /-- `TRAP` (R86): TRAP ends the kernel and completes its step with FAULT and a code in the context event page. -/
  | trap (v : VatId)
  /-- `ADD` (R86): ADD writes the sum of two scalar registers. -/
  | add (v : VatId)
  /-- `SUB` (R86): SUB writes the difference of two scalar registers. -/
  | sub (v : VatId)
  /-- `ADDI` (R86): ADDI writes a scalar register plus the immediate. -/
  | addi (v : VatId)
  /-- `MUL` (R86): MUL writes the low 32 bits of a scalar product. -/
  | mul (v : VatId)
  /-- `AND` (R86): AND writes the bitwise AND of two scalar registers. -/
  | and (v : VatId)
  /-- `OR` (R86): OR writes the bitwise OR of two scalar registers. -/
  | or (v : VatId)
  /-- `XOR` (R86): XOR writes the bitwise XOR of two scalar registers. -/
  | xor (v : VatId)
  /-- `SHL` (R86): SHL shifts a scalar left. -/
  | shl (v : VatId)
  /-- `SHR` (R86): SHR shifts a scalar right logically. -/
  | shr (v : VatId)
  /-- `SRA` (R86): SRA shifts a scalar right arithmetically. -/
  | sra (v : VatId)
  /-- `MIN` (R86): MIN writes the signed minimum of two scalars. -/
  | min (v : VatId)
  /-- `MAX` (R86): MAX writes the signed maximum of two scalars. -/
  | max (v : VatId)
  /-- `SLT` (R86): SLT writes 1 if one scalar is less than the other, signed. -/
  | slt (v : VatId)
  /-- `SEQ` (R86): SEQ writes 1 if two scalars are equal. -/
  | seq (v : VatId)
  /-- `LI` (R86): LI loads the immediate into a scalar register. -/
  | li (v : VatId)
  /-- `LDV` (R86): LDV loads 256 B from the vat store into a vector register. -/
  | ldv (v : VatId)
  /-- `STV` (R86): STV stores a vector register's active lanes to the vat store. -/
  | stv (v : VatId)
  /-- `LDVC` (R126): LDVC loads 64 elements of a narrow format and widens them to 32-bit lanes. -/
  | ldvc (v : VatId)
  /-- `STVC` (R126): STVC narrows a vector register to a format and stores it, deriving MX scales where needed. -/
  | stvc (v : VatId)
  /-- `LDS` (R86): LDS loads a 32-bit scalar from the vat store. -/
  | lds (v : VatId)
  /-- `STS` (R86): STS stores a 32-bit scalar to the vat store. -/
  | sts (v : VatId)
  /-- `DMAIN` (R93): DMAIN starts a copy from context space or the floor store into the vat store. -/
  | dmain (v : VatId)
  /-- `DMAOUT` (R93): DMAOUT starts a copy from the vat store to context space or the floor store. -/
  | dmaout (v : VatId)
  /-- `ATADD` (R171): ATADD performs an atomic int32 or fp32 add at the bank and returns the old value. -/
  | atadd (v : VatId)
  /-- `ATSWP` (R171): ATSWP performs an atomic swap at the bank and returns the old value. -/
  | atswp (v : VatId)
  /-- `MMA` (R89): MMA accumulates a matrix product of A and B operands into an accumulator set. -/
  | mma (v : VatId) (err : Option (Fin 64))
  /-- `ACCZ` (R123): ACCZ zeroes an accumulator set and sets its kind. -/
  | accz (v : VatId)
  /-- `ACCST` (R124): ACCST scales, converts and stores an accumulator set. -/
  | accst (v : VatId) (err : Bool)
  /-- `ACCV` (R86): ACCV copies two accumulator rows into a vector register. -/
  | accv (v : VatId)
  /-- `ACCLD` (R123): ACCLD loads an accumulator set from the vat store and sets its kind. -/
  | accld (v : VatId)
  /-- `VADD` (R127): VADD adds vectors lane-wise. -/
  | vadd (v : VatId) (err : Bool)
  /-- `VSUB` (R127): VSUB subtracts vectors lane-wise. -/
  | vsub (v : VatId) (err : Bool)
  /-- `VMUL` (R127): VMUL multiplies vectors lane-wise. -/
  | vmul (v : VatId) (err : Bool)
  /-- `VFMA` (R127): VFMA computes a fused multiply-add lane-wise. -/
  | vfma (v : VatId) (err : Bool)
  /-- `VMIN` (R128): VMIN takes the lane-wise minimum. -/
  | vmin (v : VatId)
  /-- `VMAX` (R128): VMAX takes the lane-wise maximum. -/
  | vmax (v : VatId)
  /-- `VABS` (R127): VABS takes the lane-wise absolute value. -/
  | vabs (v : VatId)
  /-- `VNEG` (R127): VNEG negates lane-wise. -/
  | vneg (v : VatId)
  /-- `VAND` (R86): VAND computes a lane-wise bitwise AND. -/
  | vand (v : VatId)
  /-- `VOR` (R86): VOR computes a lane-wise bitwise OR. -/
  | vor (v : VatId)
  /-- `VXOR` (R86): VXOR computes a lane-wise bitwise XOR. -/
  | vxor (v : VatId)
  /-- `VSHL` (R86): VSHL shifts lanes left. -/
  | vshl (v : VatId)
  /-- `VSHR` (R86): VSHR shifts lanes right, logically or arithmetically. -/
  | vshr (v : VatId)
  /-- `VCMP` (R128): VCMP compares lanes and writes a predicate. -/
  | vcmp (v : VatId)
  /-- `VSEL` (R87): VSEL selects lanes from two vectors by a predicate. -/
  | vsel (v : VatId)
  /-- `VBCAST` (R86): VBCAST broadcasts a scalar to every lane. -/
  | vbcast (v : VatId)
  /-- `VCVT` (R125): VCVT converts lanes between fp32, int32 and bf16 precision. -/
  | vcvt (v : VatId)
  /-- `VEXP2` (R130): VEXP2 computes 2^x per lane. -/
  | vexp2 (v : VatId)
  /-- `VLOG2` (R130): VLOG2 computes log2 per lane. -/
  | vlog2 (v : VatId)
  /-- `VRCP` (R130): VRCP computes the reciprocal per lane. -/
  | vrcp (v : VatId)
  /-- `VRSQRT` (R130): VRSQRT computes the reciprocal square root per lane. -/
  | vrsqrt (v : VatId)
  /-- `VTANH` (R130): VTANH computes tanh per lane. -/
  | vtanh (v : VatId)
  /-- `VSIGM` (R130): VSIGM computes the sigmoid per lane. -/
  | vsigm (v : VatId)
  /-- `VERF` (R130): VERF computes erf per lane. -/
  | verf (v : VatId)
  /-- `VREDSUM` (R129): VREDSUM sums active lanes in a fixed tree into a scalar. -/
  | vredsum (v : VatId)
  /-- `VREDMAX` (R129): VREDMAX reduces active lanes to their maximum. -/
  | vredmax (v : VatId)
  /-- `VREDMIN` (R129): VREDMIN reduces active lanes to their minimum. -/
  | vredmin (v : VatId)
  /-- `VARGMAX` (R128): VARGMAX writes the lowest lane index holding the maximum. -/
  | vargmax (v : VatId)
  /-- `VPERM` (R86): VPERM permutes lanes by an index vector. -/
  | vperm (v : VatId)
  /-- `VROT` (R86): VROT rotates lanes up by a scalar amount. -/
  | vrot (v : VatId)
  /-- `VSCAN` (R129): VSCAN computes an inclusive prefix sum over lanes. -/
  | vscan (v : VatId)
  /-- `VTOPK` (R86): VTOPK merges a vector into a sorted top-k list with indices. -/
  | vtopk (v : VatId)
  /-- `VRAND` (R131): VRAND draws a uniform fp32 per active lane from the context's DRBG. -/
  | vrand (v : VatId)
  /-- `VCNTP` (R86): VCNTP counts the ones in a predicate. -/
  | vcntp (v : VatId)
  /-- `ILLEGAL_INSTRUCTION` (R88): An unlisted opcode or illegal field ends the kernel before issue, completes the step with FAULT and raises ILLEGAL_OP. -/
  | illegalInstruction (v : VatId)
  /-- `INSTR_PARITY_ERROR` (R100): A fetched instruction or descriptor word with a parity error drains the vat, reloads the slot and recomputes the step. -/
  | instrParityError (v : VatId)
  /-- `INSTR_COMPLETE` (R92): A unit instruction completes and clears its pending-write marks, releasing waiting instructions. -/
  | instrComplete (v : VatId) (u : Fin 3)
  /-- `DMA_COMPLETE` (R93): A DMA's last write takes effect and its completion spile is posted if named. -/
  | dmaComplete (v : VatId) (src : Fin 3) (index : Nat) (lines : List (Nat × LineOut)) (remote : List (Nat × List Byte))
  /-- `SPILE_RELEASE_ARRIVE` (R145): A spile release reaches the vat and the held front end or dispatch entry proceeds. -/
  | spileReleaseArrive (pg : Nat) (class0 : Bool) (entry : Option (Fin 8))
  /-- `KERNEL_WDOG` (R95): A kernel reaching its MAX_CLK limit is ended, its step completes with FAULT and KERNEL_WDOG is raised. -/
  | kernelWdog (v : VatId)
  /-- `DISPATCH_ARM` (R101): The active Cellarmaster arms a dispatch entry with slot, class, context, start spile and per-step words. -/
  | dispatchArm (a : ArmReq)
  /-- `DISPATCH_DISARM` (R148): An armed entry is disarmed and a withdrawal of its take is sent to the home engine. -/
  | dispatchDisarm (v : VatId) (e : Fin 8)
  /-- `DISPATCH_READY` (R148): An entry's start take is satisfied and the entry becomes ready. -/
  | dispatchReady (v : VatId) (e : Fin 8)
  /-- `KERNEL_START` (R101): A free vat starts the highest-precedence ready entry, initialising registers per R84. -/
  | kernelStart (v : VatId)
  /-- `LOAD_COMMAND` (R98): A load command from the active Cellarmaster is queued at the floor loader. -/
  | loadCommand (f : FloorId) (job : LoadJob)
  /-- `LOAD_START` (R99): A queued load begins once no conflicting kernel is running, suspended or armed. -/
  | loadStart (f : FloorId)
  /-- `LOAD_DONE` (R98): A load finishes writing, each vat checks CODE_CRC, and a mismatch rewrites once or completes with FAULT. -/
  | loadDone (f : FloorId) (bad1 bad2 : Fin 256)
  /-- `ROT_REQ` (R109): A PF write of FLOOR.ROT_REQ requests a rotation of the floor. -/
  | rotReq (fn : Fin 32) (f : FloorId) (v : Word)
  /-- `ROTATION_START` (R109): A waiting rotation request starts its sweep once rotations are enabled and none is in progress. -/
  | rotationStart (f : FloorId)
  /-- `SWEEP_DONE` (R108): The migration sweep completes and the rotation enters its wait phase. -/
  | sweepDone (f : FloorId)
  /-- `ROTATION_SWAP` (R108): At a step boundary of the outgoing vat the engine moves tags and entries and remaps the logical vat. -/
  | rotationSwap (f : FloorId)
  /-- `ROTATION_CLEAR_DONE` (R108): The outgoing vat's zero fill ends, it passes to self-test and ROT_DONE is raised. -/
  | rotationClearDone (f : FloorId)
  /-- `ROT_LIMIT_EXPIRE` (R110): A rotation not swapped within ROT_LIMIT_CLK is abandoned with ROT_DEFER. -/
  | rotLimitExpire (f : FloorId)
  /-- `STEP_RECOMPUTE` (R154): After the vats drain, held posts are discarded, takes posted back and the step is rearmed and restarted. -/
  | stepRecompute (step : Nat)
  /-- `SPILE_POST` (R137): A post at the home engine adds to the count, saturating, and releases waiters in registration order. -/
  | spilePost (port : Nat) (parity : Bool)
  /-- `SPILE_WAIT` (R136): A wait at the home engine releases at once or registers a waiter. -/
  | spileWait (port : Nat) (parity : Bool)
  /-- `SPILE_TAKE` (R138): A take at the home engine subtracts and releases, or registers in take order. -/
  | spileTake (port : Nat) (parity : Bool)
  /-- `SPILE_WITHDRAW` (R148): A withdrawal removes a registered wait or take, or posts back a take already satisfied. -/
  | spileWithdraw (port : Nat)
  /-- `SPL_POST` (R156): A host write to SPL.POST posts an amount to a virtual spile through the hub port. -/
  | splPost (fn : Fin 32) (slot : Fin 64) (v : Word)
  /-- `SPL_SET` (R158): Writing SPL.CMD.SET sets a spile's count and preset and clears OVF, or is refused with SET_REFUSED. -/
  | splSet (fn : Fin 32) (slot : Fin 64)
  /-- `STEP_JOIN_RELEASE` (R149): The step join's threshold is reached and its release marks the step complete at the hub. -/
  | stepJoinRelease (step : Nat) (outs : List MemberOut)
  /-- `SPILE_MAP` (R483): Command that maps a context's virtual spile group to a free physical group. -/
  | spileMap (fn : Fin 32) (tag : Nat) (ctx : Fin 1024) (vgroup die : Nat) (isLocal : Bool)
  /-- `SPILE_UNMAP` (R142): Command that unmaps a virtual spile group once no operation is in flight through it. -/
  | spileUnmap (fn : Fin 32) (tag : Nat) (ctx : Fin 1024) (vgroup : Nat)
  /-- `BANK_ASSIGN` (R174): Command that assigns vat-store banks to a context, clearing them first when needed. -/
  | bankAssign (fn : Fin 32) (tag : Nat) (ctx : Fin 1024) (die floor vat : Nat) (pinned : Bool) (mask : Fin 65536)
  /-- `BANK_RELEASE` (R483): Command that releases vat-store banks of a context after a clearing fill. -/
  | bankRelease (fn : Fin 32) (tag : Nat) (ctx : Fin 1024) (die floor vat : Nat) (mask : Fin 65536)
  /-- `BANK_CLEAR_DONE` (R174): A bank's zero fill ends, its tag changes and the waiting command may complete. -/
  | bankClearDone (v : VatId) (b : Fin 16)
  /-- `SEG_ASSIGN` (R179): Command that assigns floor-store segments to a context, clearing them first when needed. -/
  | segAssign (fn : Fin 32) (tag : Nat) (ctx : Fin 1024) (die floor : Nat) (pinned : Bool) (mask : Word)
  /-- `SEG_RELEASE` (R483): Command that releases floor-store segments of a context after a clearing fill. -/
  | segRelease (fn : Fin 32) (tag : Nat) (ctx : Fin 1024) (die floor : Nat) (mask : Word)
  /-- `SEG_CLEAR_DONE` (R179): A segment's zero fill ends and its tag changes. -/
  | segClearDone (f : FloorId) (g : Fin 32)
  /-- `SEG_RETIRE` (R180): A physical segment with 2 detections in 24 hours is replaced by a spare and its owner receives SEG_LOST. -/
  | segRetire (f : FloorId) (g : Fin 32) (data : Option (List Byte))
  /-- `TAP_REQUEST` (R183): A requester presents a Tap request for a port, which is granted or queued. -/
  | tapRequest (f : FloorId) (r : TapReq)
  /-- `TAP_WDOG` (R186): A burst that moves no beat for TAP_WDOG clocks is ended and its holder fenced. -/
  | tapWdog (f : FloorId) (port : Fin 4)
  /-- `TAP_PRIO_WRITE` (R184): A write to a Tap priority register takes effect in the next clock for every contest. -/
  | tapPrioWrite (fn : Fin 32) (f : FloorId) (second : Bool) (v : Word)
  /-- `LPDDR_READ` (R195): A line read checks its CRC, re-reads on mismatch and delivers the line decrypted or marked bad. -/
  | lpddrRead (die : Fin 4) (ctx : Fin 1024) (va : Nat) (step : Option Nat) (o : LineOut)
  /-- `LPDDR_WRITE` (R196): A line write encrypts and stores a line with its CRC, merging partial writes after a read. -/
  | lpddrWrite (die : Fin 4) (ctx : Fin 1024) (va : Nat) (data : List Byte) (srcBad : Bool) (step : Option Nat) (o : LineOut)
  /-- `FRAME_RECOVERY_DONE` (R209): Recovery of a detected frame by kind completes and the waiting readers resume or re-run. -/
  | frameRecoveryDone (die : Fin 4) (frame : Nat) (data : Option (List Byte))
  /-- `FRAME_ASSIGN` (R207): Command that gives free frames an owner and kind after clearing. -/
  | frameAssign (fn : Fin 32) (tag : Nat) (isDomain : Bool) (owner kind : Nat) (r : FrameRun)
  /-- `FRAME_RELEASE` (R207): Command that frees or retires an owner's frames after clearing. -/
  | frameRelease (fn : Fin 32) (tag : Nat) (isDomain : Bool) (owner : Nat) (r : FrameRun)
  /-- `XMAP` (R207): Command that writes a translation leaf for a context. -/
  | xmap (fn : Fin 32) (tag : Nat) (ctx : Fin 1024) (va pa : Nat) (big w h : Bool)
  /-- `XUNMAP` (R207): Command that clears a translation leaf once accesses through it complete. -/
  | xunmap (fn : Fin 32) (tag : Nat) (ctx : Fin 1024) (va : Nat)
  /-- `PATROL_READ` (R211): The patrol reads a data line raw and checks its CRC, recovering by kind on failure. -/
  | patrolRead (die : Fin 4) (group : Fin 4) (ch : Fin 8) (fail1 fail2 replaced : Bool)
  /-- `PATROL_PASS_END` (R212): A patrol pass ends, clearing DETECT fields and restarting the channel detection counts. -/
  | patrolPassEnd (die : Fin 4) (group : Fin 4)
  /-- `CHANNEL_RETIRE` (R215): A channel reaching its retirement cause stops accepting accesses and is appended to the retired list. -/
  | channelRetire
  /-- `RETIRE_PASS_DONE` (R215): The background pass marking a retired channel's frames completes and owners receive MEM_LOST. -/
  | retirePassDone
  /-- `LAYER_START` (R220): An attention kernel posts a layer start; the block latches and checks descriptors and hands pages to vats. -/
  | layerStart (v : VatId) (desc : Nat) (rows : List AttRow) (skimmed sumBad : Nat) (bufParity : Bool)
  /-- `LKP_DRAFT_START` (R237): The lookup drafter starts searching the token log when the previous step delivers the pending token. -/
  | lkpDraftStart (rq : Fin 8192)
  /-- `LKP_DRAFT_DONE` (R237): The lookup drafter finishes and offers candidate branches for the next latch. -/
  | lkpDraftDone (rq : Fin 8192)
  /-- `DIE_RING_TRANSFER` (R249): A gather or reduce transfer between dies of the set arrives at the next die. -/
  | dieRingTransfer (src : Fin 4) (set step va : Nat) (reduce : Bool) (data : List Byte) (lost : Bool)
  /-- `PL_PUBLISH` (R261): A request's staging copy is published under a new generation in a free generation slot. -/
  | plPublish (head : Nat)
  /-- `FREE_QUEUE_RELEASE` (R263): Removed pages and blocks return to their pools once no older generation has a reader. -/
  | freeQueueRelease (head : Nat)
  /-- `KV_WINDOW_ACCESS` (R268): An access through a request's KV window resolves against the published or staging page list. -/
  | kvWindowAccess (die : Fin 4) (ctx : Fin 1024) (va : Nat) (data : Option (List Byte)) (host : Bool) (step : Option Nat) (o : LineOut)
  /-- `PL_TRUNCATE` (R272): Command that requests truncation of a request's committed length. -/
  | plTruncate (fn : Fin 32) (tag : Nat) (rq : Fin 8192) (len : Nat)
  /-- `TRUNCATE_APPLY` (R272): A pending truncation is applied at the request's next step boundary. -/
  | truncateApply (rq : Fin 8192)
  /-- `REBUILD_CHUNK` (R274): A recompute chunk rebuilds a lost KV page from the token log and publishes it. -/
  | rebuildChunk (rq : Fin 8192) (o : LineOut)
  /-- `SPILL_START` (R285): A pool below its low watermark starts spilling held requests' pages to the cellar tier. -/
  | spillStart (pool : Nat)
  /-- `SPILL_PAGE_DONE` (R285): A page spill completes and its staging entry becomes CELLAR. -/
  | spillPageDone
  /-- `FETCH_START` (R287): The Cellarmaster starts fetching a held request's cellar pages ahead of its planned period. -/
  | fetchStart (rq : Fin 8192)
  /-- `FETCH_PAGE_DONE` (R286): A fetched page's tag is verified and the page written, re-fetched or rebuilt. -/
  | fetchPageDone (ok1 ok2 : Bool)
  /-- `KVPOOL_CREATE` (R288): Command that creates a KV pool on a die. -/
  | kvpoolCreate (fn : Fin 32) (tag pool die : Nat) (isDomain : Bool) (owner bytes low high : Nat)
  /-- `KVPOOL_ADD` (R288): Command that adds frame runs to a KV pool. -/
  | kvpoolAdd (fn : Fin 32) (tag pool : Nat) (sums : Bool) (r : FrameRun)
  /-- `KVPOOL_REMOVE` (R288): Command that removes free pages from a KV pool. -/
  | kvpoolRemove (fn : Fin 32) (tag pool : Nat) (r : FrameRun)
  /-- `PL_CREATE` (R288): Command that creates a list head and claims its window granules. -/
  | plCreate (fn : Fin 32) (tag : Nat) (rq : Fin 8192) (headVa : Nat)
  /-- `PL_DESTROY` (R288): Command that releases every page, record and granule of a list head. -/
  | plDestroy (fn : Fin 32) (tag : Nat) (rq : Fin 8192)
  /-- `DOMAIN_CREATE` (R288): Command that creates a sharing domain and its prefix-table region. -/
  | domainCreate (fn : Fin 32) (tag size : Nat)
  /-- `DOMAIN_END` (R288): Command that ends a sharing domain and clears its region. -/
  | domainEnd (fn : Fin 32) (tag dom : Nat)
  /-- `CELLAR_ADD` (R498): Command that gives host memory ranges to the cellar tier. -/
  | cellarAdd (fn : Fin 32) (tag addr len : Nat)
  /-- `CELLAR_REMOVE` (R283): Command that removes a cellar range holding no named slot. -/
  | cellarRemove (fn : Fin 32) (tag addr len : Nat)
  /-- `ADMISSION` (R306): The active Cellarmaster runs the admission tests on a new entry and admits or refuses it. -/
  | admission (rq : Fin 8192)
  /-- `HELD_RESUME` (R287): A held request with resident pages and extended room returns to its previous state. -/
  | heldResume (rq : Fin 8192)
  /-- `RQ_CANCEL` (R298): Command that enters a cancel for a request into the ordering point. -/
  | rqCancel (fn : Fin 32) (tag : Nat) (rq : Fin 8192)
  /-- `RQT_CANCEL` (R319): A PF write of RQT.CANCEL.GO enters a cancel for an entry into the ordering point. -/
  | rqtCancel (fn : Fin 32) (v : Word)
  /-- `RQ_RELEASE` (R295): Command that destroys a finished request's list head and returns its entry to FREE. -/
  | rqRelease (fn : Fin 32) (tag : Nat) (rq : Fin 8192)
  /-- `RES_CREATE` (R310): Command that creates a class-0 reservation for a context. -/
  | resCreate (fn : Fin 32) (tag : Nat) (ctx : Fin 1024) (start g : Nat) (vats : List (Nat × Nat × Nat)) (banks : List (Nat × Nat × Nat × Nat)) (segs : List (Nat × Nat × Nat)) (entries positions chunk model : Nat)
  /-- `RES_END` (R310): Command that ends a class-0 reservation once its requests are terminal. -/
  | resEnd (fn : Fin 32) (tag : Nat) (ctx : Fin 1024)
  /-- `MODEL_COST` (R310): Command that sets a model's cost record for a class. -/
  | modelCost (fn : Fin 32) (tag model : Nat) (cls : Fin 4) (fix tok key : Word)
  /-- `RQT_LATCH` (R319): Writing RQT.LATCH_IDX.GO copies a whole table entry atomically into RQT.LATCH. -/
  | rqtLatch (fn : Fin 32) (v : Word)
  /-- `VAT_RELEASE_REQ` (R314): A floor without a spare asks the Cellarmaster to release logical vat 7 for self-test. -/
  | vatReleaseReq (f : FloorId)
  /-- `VAT_RELEASE_BANKS` (R314): At a step boundary of vat 7 its banks are cleared and it becomes the floor's spare. -/
  | vatReleaseBanks (f : FloorId)
  /-- `MILL_SUBMIT` (R335): Command that queues a Mill job. -/
  | millSubmit (fn : Fin 32) (tag : Nat) (list : MillList)
  /-- `MILL_CHAIN` (R335): Command that binds a codec stream to a Mill job list. -/
  | millChain (fn : Fin 32) (tag stream : Nat) (list : MillList)
  /-- `MILL_UNCHAIN` (R335): Command that removes a Mill chain. -/
  | millUnchain (fn : Fin 32) (tag stream : Nat)
  /-- `MILL_CANCEL` (R335): Command that cancels a context's queued Mill jobs. -/
  | millCancel (fn : Fin 32) (tag : Nat) (ctx : Fin 1024)
  /-- `MILL_JOB_START` (R336): A Mill pipe starts the oldest job of the lowest class, clearing buffers on a context change. -/
  | millJobStart (pre : Bool)
  /-- `MILL_TILE_END` (R336): A Mill tile ends, where the pipe may suspend or switch jobs. -/
  | millTileEnd (pre last : Bool) (det : Fin 3) (badVa : Option Nat)
  /-- `MILL_JOB_END` (R337): A Mill job ends, writing outputs and RESULT words, then posting its done spile. -/
  | millJobEnd (job : Nat)
  /-- `CODEC_OPEN` (R351): Command that opens a codec stream from its descriptor. -/
  | codecOpen (fn : Fin 32) (tag : Nat) (ctx : Fin 1024) (desc : Nat)
  /-- `CODEC_CLOSE` (R352): Command that closes a codec stream after its picture in progress. -/
  | codecClose (fn : Fin 32) (tag stream : Nat)
  /-- `CODEC_FLUSH` (R351): Command that processes every submitted entry of a stream and writes FLUSH_DONE. -/
  | codecFlush (fn : Fin 32) (tag stream : Nat)
  /-- `CODEC_KEYREQ` (R376): Command that requests a key picture from an encoder stream. -/
  | codecKeyreq (fn : Fin 32) (tag stream : Nat)
  /-- `CODEC_RC_SET` (R351): Command that replaces an encoder's rate-control settings from the next picture. -/
  | codecRcSet (fn : Fin 32) (tag stream desc : Nat)
  /-- `CODEC_RING_POLL` (R353): The scheduler reads a stream's ring indexes on its poll interval. -/
  | codecRingPoll (stream : Nat)
  /-- `PICTURE_START` (R356): A free engine starts the next ready picture and takes a free buffer. -/
  | pictureStart (eng : Fin 4) (syn : PicSyntax)
  /-- `PICTURE_DONE` (R354): A picture completes: planes or bitstream written, record written, done spile posted, chain queued. -/
  | pictureDone (eng : Fin 4) (out : PicOut)
  /-- `OVERLOAD_ENTER` (R356): A picture ready too long puts the scheduler into overload mode. -/
  | overloadEnter
  /-- `OVERLOAD_EXIT` (R356): After OVL_EXIT_MS without long waits the scheduler returns to main mode. -/
  | overloadExit
  /-- `STAGE_COMMAND` (R383): A Cellarmaster command reaches an output stage and is accepted only from the higher claim. -/
  | stageCommand (unit : Fin 2) (cmd : StageCmd)
  /-- `CLAIM_OUTVOTE` (R382): A claim keeper clears its unit's claim when the other unit is higher. -/
  | claimOutvote (unit : Fin 2)
  /-- `CM_HEARTBEAT` (R387): The active core writes its heartbeat to its claim keeper. -/
  | cmHeartbeat (unit : Fin 2)
  /-- `HB_MISS` (R387): No heartbeat for CM.HB_US drops the unit's claim with HB_MISS. -/
  | hbMiss (unit : Fin 2)
  /-- `DIAG_PASS` (R387): After action 4 the active unit runs its diagnostic pass and drops control on a fault. -/
  | diagPass (unit : Fin 2) (ok sramOk : Bool)
  /-- `DIAG_LATE` (R387): A diagnostic pass not complete at the next mark drops the claim. -/
  | diagLate (unit : Fin 2)
  /-- `CM_HW_DROP` (R387): SRAM parity, clock window or lockup detected by the claim keeper drops the claim. -/
  | cmHwDrop (unit : Fin 2) (cause : Fin 3)
  /-- `CM_RELOAD_DONE` (R388): A dropped unit's self-test and reload finish, leaving it SYNC or retired. -/
  | cmReloadDone (unit : Fin 2) (ok : Bool)
  /-- `COPY_RECEIVE` (R386): The standby receives a copy image and judges it valid or raises COPY_BAD. -/
  | copyReceive (valid passOk : Bool)
  /-- `CM_SELFTEST_SLICE` (R392): The standby runs a logic self-test slice when enough time remains before the mark. -/
  | cmSelftestSlice (unit : Fin 2) (result : Option Bool)
  /-- `TAKEOVER_TIMEOUT` (R389): With no mark within 2 × PERIOD_CLK of a drop, the standby takes control at once. -/
  | takeoverTimeout (plan : List GroupPlan)
  /-- `CM_YIELD` (R393): Writing CM.YIELD requests a planned handover or is refused with YIELD_REFUSED. -/
  | cmYield (fn : Fin 32) (unit : Fin 2)
  /-- `CTX_OPEN` (R400): Command that opens the lowest FREE context and installs its keys. -/
  | ctxOpen (fn : Fin 32) (tag : Nat) (isSealed : Bool)
  /-- `CTX_CLAIM` (R435): Vendor-defined SPDM message that claims an OPENED sealed context and returns a signed receipt. -/
  | ctxClaim (fn : Fin 32) (sess : Nat) (ctx : Fin 1024)
  /-- `CTX_END` (R408): Command that takes a context to ENDING and quiesces it. -/
  | ctxEnd (fn : Fin 32) (tag : Nat) (ctx : Fin 1024)
  /-- `SPDM_CTX_END` (R430): Vendor-defined SPDM message by which a tenant ends its own context. -/
  | spdmCtxEnd (fn : Fin 32) (sess : Nat) (ctx : Fin 1024)
  /-- `DOMAIN_JOIN` (R404): Command that joins an unsealed context to a sharing domain. -/
  | domainJoin (fn : Fin 32) (tag : Nat) (ctx : Fin 1024) (dom : Nat) (share : Bool)
  /-- `SPDM_DOMAIN_JOIN` (R404): Vendor-defined SPDM message by which a tenant joins its sealed context to a domain. -/
  | spdmDomainJoin (fn : Fin 32) (sess : Nat) (ctx : Fin 1024) (dom : Nat) (share : Bool)
  /-- `FLOOR_RESERVE` (R418): Command that reserves floors of one die for a context. -/
  | floorReserve (fn : Fin 32) (tag : Nat) (ctx : Fin 1024) (die mask : Nat)
  /-- `FLOOR_RELEASE` (R418): Command that ends a floor reservation. -/
  | floorRelease (fn : Fin 32) (tag : Nat) (ctx : Fin 1024)
  /-- `CTX_QUIESCED` (R409): When an ending context has quiesced, its rinse begins. -/
  | ctxQuiesced (ctx : Fin 1024)
  /-- `RINSE_FILL_END` (R410): The last line of a context's rinse fill is written. -/
  | rinseFillEnd
  /-- `RINSE_DONE` (R410): One ramp length after the end of its fill the context becomes FREE and RINSE_DONE is raised. -/
  | rinseDone
  /-- `STRUCT_RECOPY` (R401): After a die holding a structure copy is retired, the Cellarmaster copies the structures to another die. -/
  | structRecopy
  /-- `DRBG_RESEED` (R405): The Gauger reseeds a context's DRBG every 2^20 requests. -/
  | drbgReseed (ctx : Fin 1024)
  /-- `DOE_OBJECT_DISCARD` (R429): A DOE object of an unsupported type is discarded and the DOE Error bit set. -/
  | doeObjectDiscard (fn : Fin 32) (type : Nat)
  /-- `SPDM_GET_VERSION` (R429): SPDM GET_VERSION returns the supported versions. -/
  | spdmGetVersion (fn : Fin 32)
  /-- `SPDM_GET_CAPABILITIES` (R429): SPDM GET_CAPABILITIES returns the responder's capabilities. -/
  | spdmGetCapabilities (fn : Fin 32) (version : Nat)
  /-- `SPDM_NEGOTIATE_ALGORITHMS` (R429): SPDM NEGOTIATE_ALGORITHMS selects the supported algorithms or returns InvalidRequest. -/
  | spdmNegotiateAlgorithms (fn : Fin 32) (offered : Bool)
  /-- `SPDM_GET_DIGESTS` (R429): SPDM GET_DIGESTS returns the digest of certificate slot 0. -/
  | spdmGetDigests (fn : Fin 32)
  /-- `SPDM_GET_CERTIFICATE` (R429): SPDM GET_CERTIFICATE returns the ECDSA certificate chain. -/
  | spdmGetCertificate (fn : Fin 32) (slot off len : Nat)
  /-- `SPDM_CHALLENGE` (R429): SPDM CHALLENGE returns a signed CHALLENGE_AUTH. -/
  | spdmChallenge (fn : Fin 32) (slot : Nat)
  /-- `SPDM_GET_MEASUREMENTS` (R434): SPDM GET_MEASUREMENTS returns signed measurement blocks. -/
  | spdmGetMeasurements (fn : Fin 32) (isSigned : Bool)
  /-- `SPDM_KEY_EXCHANGE` (R432): SPDM KEY_EXCHANGE starts a hybrid session using the held ML-KEM secret. -/
  | spdmKeyExchange (fn : Fin 32) (hashOk : Bool)
  /-- `SPDM_FINISH` (R432): SPDM FINISH completes session establishment. -/
  | spdmFinish (fn : Fin 32) (ok events : Bool)
  /-- `SPDM_HEARTBEAT` (R433): SPDM HEARTBEAT keeps a session alive. -/
  | spdmHeartbeat (fn : Fin 32) (sess : Nat)
  /-- `SPDM_KEY_UPDATE` (R429): SPDM KEY_UPDATE updates a session's keys. -/
  | spdmKeyUpdate (fn : Fin 32) (sess : Nat)
  /-- `SPDM_END_SESSION` (R433): SPDM END_SESSION ends a session and the sealed contexts claimed through it. -/
  | spdmEndSession (fn : Fin 32) (sess : Nat)
  /-- `GET_KEM_KEY` (R432): Vendor message that returns a fresh ML-KEM-1024 encapsulation key. -/
  | getKemKey (fn : Fin 32)
  /-- `KEM_CT` (R432): Vendor message whose ML-KEM ciphertext is decapsulated and its secret held. -/
  | kemCt (fn : Fin 32)
  /-- `GET_LMS_SIG` (R431): Vendor message that returns the LMS signature of the last signed response. -/
  | getLmsSig (fn : Fin 32)
  /-- `GET_LMS_CERTS` (R430): Vendor message that returns the LMS members of the certificate chain. -/
  | getLmsCerts (fn : Fin 32) (off len : Nat)
  /-- `SESSION_HB_EXPIRE` (R433): A session missing heartbeats for 2 × GAU.HB_S ends. -/
  | sessionHbExpire (sess : Nat)
  /-- `LMS_SIG_EXPIRE` (R431): A kept LMS signature is discarded after 10 s. -/
  | lmsSigExpire (fn : Fin 32)
  /-- `BOTTOM_TREE_SWITCH` (R426): When the last bottom leaf is spent the Gauger switches to the next bottom tree and Alias. -/
  | bottomTreeSwitch
  /-- `OWNER_SET` (R439): Owner command that installs the owner key. -/
  | ownerSet (o : OwnerBlob) (key : Nat)
  /-- `OWNER_TRANSFER` (R439): Owner command that replaces the owner key. -/
  | ownerTransfer (o : OwnerBlob) (key : Nat)
  /-- `OWNER_RELEASE` (R439): Owner command that removes the owner and every publisher. -/
  | ownerRelease (o : OwnerBlob)
  /-- `PUB_ENROL` (R439): Owner command that enrols a publisher in a slot. -/
  | pubEnrol (o : OwnerBlob) (slot : Fin 32) (key : Nat)
  /-- `PUB_REVOKE` (R439): Owner command that removes a publisher. -/
  | pubRevoke (o : OwnerBlob) (slot : Fin 32)
  /-- `POLICY` (R439): Owner command that sets LMS budget, heartbeat period and power caps. -/
  | policy (o : OwnerBlob) (items : List (PolicyItem × Nat))
  /-- `DEBUG_TOKEN` (R398): Owner command that opens JTAG once every context has been rinsed. -/
  | debugToken (o : OwnerBlob) (vendor counter : Bool)
  /-- `CASK_LOAD` (R442): Command that verifies a cask, unwraps its key and writes its sections. -/
  | caskLoad (k : CaskIn)
  /-- `CASK_UNLOAD` (R442): Command that frees a cask slot and destroys its content key. -/
  | caskUnload (ctx : Fin 1024) (slot : Fin 256)
  /-- `FW_STAGE` (R449): Command that accepts an image for background staging into the inactive slot. -/
  | fwStage (comp : Nat) (img : Image) (sigOk : Bool) (kib : Nat)
  /-- `FW_STAGE_DONE` (R450): Staging ends, the slot is checked and PEND set or FW_STAGE_FAIL raised. -/
  | fwStageDone (readOk : Bool)
  /-- `FW_DISCARD` (R449): Command that clears PEND of a component. -/
  | fwDiscard (comp : Nat)
  /-- `ACTIVATE` (R451): Command that checks and announces a firmware activation. -/
  | activate (comp : Nat) (lead : Nat) (force : Bool)
  /-- `ACTIVATION_BEGIN` (R454): At the activation mark, or LEAD ms when unlocked, the component switches to its new image. -/
  | activationBegin
  /-- `ACTIVATION_COMPLETE` (R455): The slot record and fuses are updated and ACT_DONE raised. -/
  | activationComplete (loads : List (FloorId × LoadJob))
  /-- `ACTIVATION_FAIL` (R456): A new image that does not start falls back to the old image and raises ACT_FAIL. -/
  | activationFail (loads : List (FloorId × LoadJob))
  /-- `RECOVERY_WRITE` (R459): Writing REC.GO copies, checks and writes an image into a flash slot in recovery. -/
  | recoveryWrite (img : Image) (sigOk startOk stored : Bool)
  /-- `BIST_SCHEDULE` (R464): The self-test scheduler issues slices and rotation requests at even spacing over the pass. -/
  | bistSchedule (unit : BistUnit)
  /-- `BIST_REQ` (R466): A PF write of BIST.REQ queues one slice of the named unit. -/
  | bistReq (fn : Fin 32) (v : Word)
  /-- `BIST_SLICE_START` (R465): A slice starts when its unit's conditions and window checks allow. -/
  | bistSliceStart (unit : BistUnit) (inWindow : Bool)
  /-- `BIST_SLICE_STOP` (R463): A slice whose unit leaves its clock or voltage window stops without verdict and is deferred. -/
  | bistSliceStop (unit : BistUnit)
  /-- `BIST_DEFER_EXPIRE` (R463): After BIST.DEFER_MS a deferred slice is tried again. -/
  | bistDeferExpire (unit : BistUnit)
  /-- `BIST_SLICE_END` (R467): A slice ends; matching signatures pass, a repeat mismatch proves a fault for repair or retirement. -/
  | bistSliceEnd (unit : BistUnit) (mismatch : Option BistSub)
  /-- `REPAIR_STORED` (R470): A repair entry is stored in both flash copies and the unit returns from test. -/
  | repairStored
  /-- `LPDDR_PHY_CHECK` (R468): A periodic loop-back and reference check of a channel's PHY. -/
  | lpddrPhyCheck (die : Fin 4) (ch : Fin 32) (ok : Bool)
  /-- `KEG_EYE_CHECK` (R468): A periodic eye-margin check of each keg lane. -/
  | kegEyeCheck (link : Fin 8) (ok : Bool)
  /-- `PCIE_EYE_CHECK` (R468): A periodic eye-margin check of each PCIe lane. -/
  | pcieEyeCheck (lane : Fin 8) (ok : Bool)
  /-- `PLL_CHECK` (R468): A periodic frequency count and lock check of every clock domain. -/
  | pllCheck (dom : ClkDomain) (ok : Bool)
  /-- `PLL_RELOCK` (R468): A PLL relock completes or fails, retiring the units it clocks on failure. -/
  | pllRelock (dom : ClkDomain) (ok : Bool)
  /-- `TB_LOOPBACK_CHECK` (R468): A loop-back check of a disabled time-base line's receiver. -/
  | tbLoopbackCheck (lineB : Bool) (ok : Bool)
  /-- `TB_SPAN_END` (R468): At each one-second span end a line's error rate is judged and TB_SUSPECT raised. -/
  | tbSpanEnd
  /-- `PCIE_LINK_UP` (R477): The PCIe data link comes up and held DMA resumes in order. -/
  | pcieLinkUp (speed : Fin 5)
  /-- `PCIE_LINK_DOWN` (R477): The PCIe data link goes down and DMA stops. -/
  | pcieLinkDown
  /-- `D3HOT_ENTRY` (R477): The PF entering D3hot stops DMA as a link-down does. -/
  | d3hotEntry
  /-- `ATS_TRANSLATION_REQUEST` (R475): An ATS Translation Request completes with Unsupported Request. -/
  | atsTranslationRequest (fn : Fin 32)
  /-- `VF_FLR` (R480): An FLR of a VF stops its rings, cancels its requests, ends its sealed contexts and unbinds others. -/
  | vfFlr (fn : Fin 32)
  /-- `CMD_RING_POLL` (R481): The intake engine reads a function's command-ring PROD every HOST.POLL_US and takes commands. -/
  | cmdRingPoll (fn : Fin 32) (ok : Bool)
  /-- `COMMAND_RESPONSE` (R484): A completed command's response is written to the response ring. -/
  | commandResponse (fn : Fin 32)
  /-- `CTX_BIND` (R478): Command that binds a context to a function's window slot. -/
  | ctxBind (fn : Fin 32) (tag : Nat) (ctx : Fin 1024) (func slot : Nat)
  /-- `CTX_UNBIND` (R478): Command that unbinds a context from its window slot. -/
  | ctxUnbind (fn : Fin 32) (tag : Nat) (ctx : Fin 1024)
  /-- `RING_CREATE` (R485): Command that creates an intake or completion ring for a bound context. -/
  | ringCreate (fn : Fin 32) (tag : Nat) (ctx : Fin 1024) (num addr log2 cq vec ithresh itimeUs : Nat)
  /-- `RING_DESTROY` (R485): Command that destroys a ring. -/
  | ringDestroy (fn : Fin 32) (tag : Nat) (ctx : Fin 1024) (num : Nat)
  /-- `INTAKE_POLL` (R486): While the time base is IDLE or ACQUIRING, intake rings are read every HOST.POLL_US. -/
  | intakePoll (inp : IntakeIn)
  /-- `COMPLETION_WRITE` (R491): The completion writer writes tokens, the completion entry, PROD and any MSI-X message. -/
  | completionWrite
  /-- `CQ_CONS_POLL` (R492): A writer blocked on a full completion ring rereads its CONS every HOST.POLL_US. -/
  | cqConsPoll (ring : Nat)
  /-- `MSIX_ITIME_EXPIRE` (R494): A completion ring's coalescing time expires and a message is sent. -/
  | msixItimeExpire (ring : Nat)
  /-- `MSIX_UNMASK` (R493): Unmasking a vector with its pending bit set sends the message. -/
  | msixUnmask (fn : Fin 32) (vec : Nat)
  /-- `WIN_REARM` (R493): Writing WIN.REARM resends vector 0 while context events are pending. -/
  | winRearm (fn : Fin 32)
  /-- `HOST_WINDOW_READ` (R496): A host read through a BAR4 aperture reads context memory through translation. -/
  | hostWindowRead (fn : Fin 32) (off len : Nat) (o : LineOut)
  /-- `HOST_WINDOW_WRITE` (R496): A host write through a BAR4 aperture writes context memory through translation. -/
  | hostWindowWrite (fn : Fin 32) (off : Nat) (data : List (Option Byte)) (o : LineOut)
  /-- `KEG_FLIT_RECEIVE` (R503): A keg flit is received, checked and replayed on CRC failure or drops the link. -/
  | kegFlitReceive (link : Fin 8) (ok : Bool)
  /-- `KEG_LOSS_TIMEOUT` (R503): No valid flit for KEG.LOSS_US takes the link DOWN. -/
  | kegLossTimeout (link : Fin 8)
  /-- `KEG_TRAIN_START` (R504): A DOWN link starts retraining every second. -/
  | kegTrainStart (link : Fin 8)
  /-- `KEG_TRAIN_DONE` (R504): Training and peer authentication end with the link UP or REFUSED. -/
  | kegTrainDone (link : Fin 8) (peer : Option KegPeer)
  /-- `KEG_RETRAIN` (R504): Command that forces a link to retrain. -/
  | kegRetrain (fn : Fin 32) (tag link : Nat)
  /-- `BEACON_SEND` (R506): Every 100 µs a beacon with the epoch record and reachable set is sent on each UP link. -/
  | beaconSend
  /-- `BEACON_RECEIVE` (R506): A received beacon updates the reachable set and offers its epoch record. -/
  | beaconReceive (link : Fin 8) (authOk : Bool) (epoch : Word) (members reach : BitVec 64)
  /-- `REACH_EXPIRE` (R506): An index unconfirmed for 800 µs leaves the reachable set, aborting its jobs. -/
  | reachExpire (idx : Fin 64)
  /-- `FENCE_SELF` (R512): A module below quorum at three consecutive marks fences itself. -/
  | fenceSelf
  /-- `KEG_EPOCH` (R511): Command that offers an epoch record for acceptance. -/
  | kegEpoch (fn : Fin 32) (tag : Nat) (epoch : Word) (members : BitVec 64)
  /-- `ROUTE_SET` (R505): Command that fixes the outgoing link for a cabinet index. -/
  | routeSet (fn : Fin 32) (tag idx : Nat) (link : Option Nat)
  /-- `JOB_CREATE` (R510): Command that creates a collective job for a context. -/
  | jobCreate (fn : Fin 32) (tag : Nat) (ctx : Fin 1024) (job : Word) (epoch : Word) (members : BitVec 64) (dieSet tableVa : Nat)
  /-- `JOB_END` (R510): Command that ends a job and destroys its keys. -/
  | jobEnd (fn : Fin 32) (tag : Nat) (job : Word)
  /-- `RWIN_BIND` (R517): Command that lets a context reach its job members' contexts through the cabinet space. -/
  | rwinBind (fn : Fin 32) (tag : Nat) (ctx : Fin 1024) (job : Word)
  /-- `RWIN_UNBIND` (R517): Command that removes a remote-window binding. -/
  | rwinUnbind (fn : Fin 32) (tag : Nat) (ctx : Fin 1024) (job : Word)
  /-- `REMOTE_ACCESS` (R517): An access with a remote module index is routed and translated at the target member. -/
  | remoteAccess (incoming : Bool) (job : Nat) (ctx : Fin 1024) (va : Nat) (data : Option (List Byte)) (step : Option Nat) (back : RemoteOut) (o : LineOut)
  /-- `CAB_INDEX_WRITE` (R517): A write of the cabinet index sets it until the first link trains. -/
  | cabIndexWrite (fn : Fin 32) (v : Word)
  /-- `COLL_OP_START` (R507): A collective engine starts an armed operation when its start take is satisfied. -/
  | collOpStart (op heads dim : Nat) (wide : Bool)
  /-- `COLL_RECORD_RECEIVE` (R508): A collective record arrives and is combined or forwarded in SEQ order. -/
  | collRecordReceive (link : Fin 8) (tagOk bad : Bool) (r : CollRec)
  /-- `COLL_OP_DONE` (R507): A collective operation's result is written and its done spile posted. -/
  | collOpDone (op : Nat)
  /-- `RERUN_RECEIVE` (R509): A RERUN message makes every member re-run the step, or aborts the job on a second one. -/
  | rerunReceive (link : Fin 8) (job seq : Nat)
  /-- `ABORT_RECEIVE` (R515): An ABORT message from a member aborts the job locally. -/
  | abortReceive (link : Fin 8) (job : Nat)
  /-- `PULL` (R536): MATE_EARLY_N going high stops DMA, destroys keys, aborts jobs and idles the module. -/
  | pull
  /-- `MATE_EARLY_RETURN` (R536): MATE_EARLY_N returning low while mated leads after 50 ms to a MODULE reset. -/
  | mateEarlyReturn
  /-- `MATE_LATE_BREAK` (R536): MATE_LATE_N breaking switches off the main regulators within 100 µs. -/
  | mateLateBreak
  /-- `REGULATOR_START` (R525): After both mate contacts and 12 V have been valid for 50 ms the main regulators start. -/
  | regulatorStart (recover : Bool)
  /-- `SUPPLY_SAMPLE` (R524): The input is sampled and low, high or out-of-range voltage acted on. -/
  | supplySample (mv ma : Nat)
  /-- `PWR_WARN_LOW` (R530): PWR_WARN_N low for 10 µs starts a shed bypassing the governor. -/
  | pwrWarnLow
  /-- `SHED_END` (R530): 10 ms after PWR_WARN_N returns high the shed ends and draw ramps up. -/
  | shedEnd
  /-- `POWER_INTERVAL` (R527): At each 100 µs interval the governor adjusts idle clocks and ballast against the ramp and ceiling. -/
  | powerInterval
  /-- `THERMAL_SAMPLE` (R531): Every 100 µs the sensors are read and the thermal loop adjusts its idle fraction. -/
  | thermalSample (junctions : List Int) (inlet outlet : Int)
  /-- `THERMAL_TRIP` (R532): A junction at 115 °C in two samples destroys keys, aborts keg routes and switches off the regulators. -/
  | thermalTrip
  /-- `COOLANT_ALARM` (R533): A coolant inlet out of range for 1 s raises COOLANT_HIGH or COOLANT_LOW. -/
  | coolantAlarm
  /-- `THERM_ALERT_LOW` (R533): THERM_ALERT_N low for 10 µs puts the alert cap into the ceiling. -/
  | thermAlertLow
  /-- `THERM_ALERT_CLEAR` (R533): THERM_ALERT_N high for 1 s removes the alert cap. -/
  | thermAlertClear
  /-- `ORPHAN_TIMEOUT` (R534): No heartbeat for HB_LIMIT_S makes the module orphaned and applies the orphan cap. -/
  | orphanTimeout
  /-- `MCTP_SET_ENDPOINT_ID` (R535): MCTP control message that sets the endpoint ID. -/
  | mctpSetEndpointId (eid : Byte)
  /-- `MCTP_GET_ENDPOINT_ID` (R535): MCTP control message that returns the endpoint ID. -/
  | mctpGetEndpointId
  /-- `MCTP_GET_VERSION_SUPPORT` (R535): MCTP control message that returns supported versions. -/
  | mctpGetVersionSupport (type : Nat)
  /-- `MCTP_GET_MESSAGE_TYPE_SUPPORT` (R535): MCTP control message that returns supported message types. -/
  | mctpGetMessageTypeSupport
  /-- `MCTP_DROP` (R535): An MCTP message of an unsupported type is dropped and counted. -/
  | mctpDrop (type : Nat)
  /-- `PLDM_GET_TID` (R535): PLDM GetTID returns the terminus ID. -/
  | pldmGetTid
  /-- `PLDM_GET_PLDM_VERSION` (R535): PLDM GetPLDMVersion returns supported versions. -/
  | pldmGetPldmVersion (type : Nat)
  /-- `PLDM_GET_PLDM_TYPES` (R535): PLDM GetPLDMTypes returns supported types. -/
  | pldmGetPldmTypes
  /-- `PLDM_GET_PLDM_COMMANDS` (R535): PLDM GetPLDMCommands returns supported commands. -/
  | pldmGetPldmCommands (type : Nat)
  /-- `PLDM_GET_PDR` (R535): PLDM GetPDR returns a platform descriptor record. -/
  | pldmGetPdr (handle : Nat)
  /-- `PLDM_GET_SENSOR_READING` (R535): PLDM GetSensorReading returns a numeric sensor value. -/
  | pldmGetSensorReading (sensor : NumSensor)
  /-- `PLDM_GET_STATE_SENSOR_READINGS` (R535): PLDM GetStateSensorReadings returns state sensor values. -/
  | pldmGetStateSensorReadings (sensor : StateSensor)
  /-- `PLDM_SET_NUMERIC_EFFECTER_VALUE` (R535): PLDM SetNumericEffecterValue sets the cabinet index or is refused once locked. -/
  | pldmSetNumericEffecterValue (v : Word)
  /-- `PLDM_SET_STATE_EFFECTER_STATES` (R535): PLDM SetStateEffecterStates writes a state effecter such as the heartbeat. -/
  | pldmSetStateEffecterStates
  /-- `PLDM_POLL_PLATFORM_EVENT` (R535): PLDM PollForPlatformEventMessage returns a pending platform event. -/
  | pldmPollPlatformEvent
  /-- `PLDM_GET_FRU_RECORD_TABLE` (R535): PLDM GetFRURecordTable returns part number, variant and serial number. -/
  | pldmGetFruRecordTable
  /-- `PLDM_UNSUPPORTED` (R535): An unsupported PLDM command completes with ERROR_UNSUPPORTED_PLDM_CMD. -/
  | pldmUnsupported (type cmd : Nat)
  /-- `POWER_ON_RESET` (R538): 12 V applied or returning starts a POWER-ON reset and start-up sequence. -/
  | powerOnReset
  /-- `MODULE_RESET` (R538): MOD_RESET_N low for 10 µs destroys keys, aborts jobs and restarts the start-up sequence. -/
  | moduleReset (mateReturn recover : Bool)
  /-- `HOST_RESET` (R545): PERST_N, hot reset or a PF FLR runs the HOST sequence with fast rinse and Cellarmaster reload. -/
  | hostReset (cause : HostCause)
  /-- `HOST_FILL_DONE` (R545): The HOST sequence's full-rate fill ends, contexts become FREE and the module enters READY. -/
  | hostFillDone
  /-- `STARTUP_PHASE_END` (R541): A start-up phase completes and the next begins, ending with START_DONE. -/
  | startupPhaseEnd (out : PhaseOut)
  /-- `START_LATE` (R544): A start-up phase overrunning its bound raises START_LATE. -/
  | startLate
  /-- `PERST_DEASSERT` (R542): PERST_N going high starts PCIe link training within 20 ms. -/
  | perstDeassert
  /-- `CONFIG_REQUEST` (R542): A configuration request completes with CRS before the FIRMWARE phase or normally afterwards. -/
  | configRequest (fn : Fin 32)
  /-- `LINK_DECLARED_FAILED` (R19): A flit on a ring link or hub link fails its CRC on 8 consecutive attempts; the link is declared failed, its transfers complete with FAULT, and traffic reroutes or the die is retired. -/
  | linkDeclaredFailed (die : Fin 4) (far : Option (Fin 4)) (steps : List Nat)
  /-- `MOD_RESET_N_RISE` (R541): MOD_RESET_N rising begins the start-up sequence after a MODULE reset or ends a trip. -/
  | modResetNRise (recover : Bool)
  /-- `STANDBY_CORE_RESTART` (R392): The standby core finishes its 150 µs restart after its self-test slice was abandoned, and is able to take control again. -/
  | standbyCoreRestart (unit : Fin 2)
  /-- `FRAME_CLEAR_DONE` (R199): The clearing fill of frames named by FRAME_ASSIGN or FRAME_RELEASE ends, the frames take their new owner or become free, and the command completes. -/
  | frameClearDone (die : Fin 4) (first : Nat)
  /-- `CASK_LOAD_DONE` (R442): The last chunk of a cask is read, verified and written, and the load completes with its slot and IMAGE_IDs, or fails. -/
  | caskLoadDone (data : Option (List (List Byte))) (again : Nat)
  /-- `PASS_POSITION_STORE` (R471): Once per hour the self-test controller stores the pass position in the persistent-state region. -/
  | passPositionStore
  /-- `STRUCTURE_COPY_DONE` (R401): The copy of the context descriptors, L2 tables and prefix table to a new die ends; the second copy is restored and waiting CTX_OPEN, DOMAIN_CREATE and DOMAIN_END proceed. -/
  | structureCopyDone
  deriving DecidableEq, Repr

end Sys2Proof
end

