-- ==== Sys2Proof/Machine/Maps.lean ====
section
/-! DEFINITION. Reading and writing the sparse maps of the state, each write keeping the keys strictly rising. -/

namespace Sys2Proof.Machine

/-- The entry at `k`, if the map lists one. -/
def mget {α : Type} : AMap α → Nat → Option α
  | [], _ => none
  | (k', v) :: rest, k => if k' = k then some v else mget rest k

/-- The map with `v` at `k`. -/
def mput {α : Type} : AMap α → Nat → α → AMap α
  | [], k, v => [(k, v)]
  | (k', v') :: rest, k, v =>
    if k < k' then (k, v) :: (k', v') :: rest
    else if k = k' then (k, v) :: rest
    else (k', v') :: mput rest k v

/-- The map with nothing at `k`. -/
def mdel {α : Type} : AMap α → Nat → AMap α
  | [], _ => []
  | (k', v') :: rest, k => if k' = k then mdel rest k else (k', v') :: mdel rest k

/-- The number at `k`; an unlisted key reads `d`. -/
def ngetD (d : Nat) (m : AMap Nat) (k : Nat) : Nat := (mget m k).getD d

/-- The map with number `v` at `k`, where an unlisted key reads `d`: writing `d` removes the entry. -/
def nputD (d : Nat) (m : AMap Nat) (k v : Nat) : AMap Nat := if v = d then mdel m k else mput m k v

abbrev nget (m : AMap Nat) (k : Nat) : Nat := ngetD 0 m k
abbrev nput (m : AMap Nat) (k v : Nat) : AMap Nat := nputD 0 m k v
def nadd (m : AMap Nat) (k d : Nat) : AMap Nat := nput m k (nget m k + d)

/-- A byte store whose unlisted addresses read 0. -/
def bget (m : AMap Byte) (a : Nat) : Byte := (mget m a).getD 0
def bput (m : AMap Byte) (a : Nat) (b : Byte) : AMap Byte := if b = 0 then mdel m a else mput m a b

/-- `n` bytes from address `a` up, as a little-endian number (R31, R166). -/
def bgetLE (m : AMap Byte) (a : Nat) : Nat → Nat
  | 0 => 0
  | n + 1 => (bget m a).toNat + 256 * bgetLE m (a + 1) n

/-- Store the low `n` bytes of `v` from address `a` up, little-endian. -/
def bputLE (m : AMap Byte) (a v : Nat) : Nat → AMap Byte
  | 0 => m
  | n + 1 => bputLE (bput m a (BitVec.ofNat 8 v)) (a + 1) (v / 256) n

def bgetList (m : AMap Byte) (a n : Nat) : List Byte := (List.range n).map fun i => bget m (a + i)

def bputList (m : AMap Byte) (a : Nat) : List Byte → AMap Byte
  | [] => m
  | b :: bs => bputList (bput m a b) (a + 1) bs

/-- The canonical form of a byte store: keys strictly rising, and no entry equal to the 0 that an unlisted address reads as. -/
def Memory.wf (m : AMap Byte) : Bool := AMap.sorted m && m.all fun e => e.2 != 0

/-- Drop every entry whose key satisfies `p`. -/
def mfilterOut {α : Type} (p : Nat → Bool) (m : AMap α) : AMap α := m.filter fun e => !p e.1

/-- `n` successive addresses from `a` zeroed: a zero fill of a range. -/
def bzero (m : AMap Byte) (a n : Nat) : AMap Byte := mfilterOut (fun k => decide (a ≤ k ∧ k < a + n)) m

/-- The map with `v` at each of `n` successive keys from `lo`. -/
def mfill {α : Type} (m : AMap α) (lo n : Nat) (v : α) : AMap α :=
  m.filter (fun e => decide (e.1 < lo)) ++ (List.range n).map (fun i => (lo + i, v)) ++ m.filter (fun e => decide (lo + n ≤ e.1))

/-- Update the entry at `k` if listed. -/
def mmod {α : Type} (m : AMap α) (k : Nat) (f : α → α) : AMap α :=
  match mget m k with
  | some v => mput m k (f v)
  | none => m

/-- Bits `[lo+w-1:lo]` of a number. -/
def bits (v lo w : Nat) : Nat := v / 2 ^ lo % 2 ^ w

/-- Bit `i` of a number. -/
def nbit (v i : Nat) : Bool := v / 2 ^ i % 2 == 1

def setBit (v i : Nat) : Nat := v ||| 2 ^ i
def clrBit (v i : Nat) : Nat := if nbit v i then v - 2 ^ i else v

/-- Sign-extend the low `w` bits. -/
def sext (v w : Nat) : Int := if v % 2 ^ w < 2 ^ (w - 1) then (v % 2 ^ w : Nat) else ((v % 2 ^ w : Nat) : Int) - (2 ^ w : Nat)

def ceilDiv (a b : Nat) : Nat := if b = 0 then 0 else (a + b - 1) / b

def boolNat (b : Bool) : Nat := if b then 1 else 0

/-- Number of ones among bits `[n-1:0]`. -/
def popcount (v : Nat) : Nat → Nat
  | 0 => 0
  | n + 1 => boolNat (nbit v n) + popcount v n

/-- The numbers below `n` whose bit is set in `v`. -/
def bitsSet (v n : Nat) : List Nat := (List.range n).filter (nbit v)

end Sys2Proof.Machine
end

