-- ==== Sys2Proof/Machine/Float.lean ====
section
/-! DEFINITION. Number formats and arithmetic (R115–R131): exact values, one rounding, the element formats, MX block
scales and the vector functions. A value is exact until `pack` rounds it once, to nearest, ties to even. -/

namespace Sys2Proof.Machine

/-- The exact value of a code: (−1)^neg × m × 2^e, an infinity, or a NaN. -/
inductive FVal where
  | nan
  | inf (neg : Bool)
  | fin (neg : Bool) (m : Nat) (e : Int)
  deriving DecidableEq, Repr

/-- What a format does with codes at the top of its range, and with values above it (R116, R125). -/
inductive Top where
  /-- infinities and NaNs as IEEE -/
  | ieee
  /-- the all-ones code is a NaN, there is no infinity (E4M3) -/
  | e4m3
  /-- every code is a finite number (FP6, FP4) -/
  | finite
  deriving DecidableEq, Repr

/-- A floating-point element format: exponent bits, fraction bits, bias. -/
structure FFmt where
  eb : Nat
  mb : Nat
  bias : Nat
  top : Top
  deriving DecidableEq, Repr

/-! The floating-point formats of R116 -/
def fE4M3 : FFmt := { eb := 4, mb := 3, bias := 7, top := .e4m3 }
def fE5M2 : FFmt := { eb := 5, mb := 2, bias := 15, top := .ieee }
def fE2M3 : FFmt := { eb := 2, mb := 3, bias := 1, top := .finite }
def fE3M2 : FFmt := { eb := 3, mb := 2, bias := 3, top := .finite }
def fE2M1 : FFmt := { eb := 2, mb := 1, bias := 1, top := .finite }
def fBf16 : FFmt := { eb := 8, mb := 7, bias := 127, top := .ieee }
def fFp16 : FFmt := { eb := 5, mb := 10, bias := 15, top := .ieee }
def fFp32 : FFmt := { eb := 8, mb := 23, bias := 127, top := .ieee }

/-- The exact value of a code (R116). -/
def FFmt.decode (f : FFmt) (c : Nat) : FVal :=
  let m := bits c 0 f.mb
  let e := bits c f.mb f.eb
  let neg := nbit c (f.eb + f.mb)
  if f.top = .ieee ∧ e = 2 ^ f.eb - 1 then (if m = 0 then .inf neg else .nan)
  else if f.top = .e4m3 ∧ e = 15 ∧ m = 7 then .nan
  else if e = 0 then .fin neg m (1 - (f.bias : Int) - f.mb)
  else .fin neg (2 ^ f.mb + m) ((e : Int) - f.bias - f.mb)

/-- The largest finite code, without sign. -/
def FFmt.maxCode (f : FFmt) : Nat :=
  match f.top with
  | .ieee => (2 ^ f.eb - 1) * 2 ^ f.mb - 1
  | .e4m3 => 0x7E
  | .finite => 2 ^ (f.eb + f.mb) - 1

def FFmt.signBit (f : FFmt) (neg : Bool) : Nat := if neg then 2 ^ (f.eb + f.mb) else 0

/-- The code of an infinity and of the canonical NaN in an IEEE format. -/
def FFmt.infCode (f : FFmt) : Nat := (2 ^ f.eb - 1) * 2 ^ f.mb
def FFmt.nanCode (f : FFmt) : Nat := if f.top = .e4m3 then 0x7F else f.infCode + 2 ^ (f.mb - 1)

/-- m × 2^e rounded to a multiple of 2^q, to nearest, ties to even: the multiple. -/
def rneTo (m : Nat) (e q : Int) : Nat :=
  if q ≤ e then m * 2 ^ (e - q).toNat
  else
    let sh := (q - e).toNat
    let n := m / 2 ^ sh
    let r := m % 2 ^ sh
    let half := 2 ^ (sh - 1)
    if half < r ∨ (r = half ∧ n % 2 = 1) then n + 1 else n

/-- The exponent of the leading one of m × 2^e. -/
def topExp (m : Nat) (e : Int) : Int := (Nat.log2 m : Int) + e

/-- Round m × 2^e once into the format, without sign; `sat` says what a value above the range becomes: the largest finite
code, or infinity. -/
def FFmt.packMag (f : FFmt) (sat : Bool) (m : Nat) (e : Int) : Nat :=
  if m = 0 then 0
  else
    let emin : Int := 1 - (f.bias : Int) - f.mb
    let q := max (topExp m e - f.mb) emin
    let n := rneTo m e q
    -- n < 2^mb is subnormal at q = emin; otherwise the exponent field follows from q
    let code := if n < 2 ^ f.mb then n else ((q - emin).toNat + 1) * 2 ^ f.mb + (n - 2 ^ f.mb)
    if f.maxCode < code then (if sat then f.maxCode else f.infCode) else code

/-- Round a value into a floating-point format under R125: E4M3 saturates and keeps NaN, E5M2 saturates finite values and keeps
infinities, the others overflow to infinity. -/
def FFmt.pack (f : FFmt) (v : FVal) : Nat :=
  match v with
  | .nan => f.nanCode
  | .inf neg => f.signBit neg + (if f.top = .ieee then f.infCode else f.maxCode)
  | .fin neg m e => f.signBit neg + f.packMag (decide (f = fE4M3 ∨ f = fE5M2 ∨ f.top = .finite)) m e

/-- fp32: the value of a lane, and the lane of a value; every NaN produced is canonical (R122, R127). -/
def f32 (w : Nat) : FVal := fFp32.decode (w % 2 ^ 32)
def toF32 (v : FVal) : Nat := fFp32.pack v

/-! Exact arithmetic -/

/-- The signed mantissa of a finite value at exponent `e0`, `e0` being at most its own exponent. -/
def alignTo (neg : Bool) (m : Nat) (e e0 : Int) : Int :=
  let v : Int := (m * 2 ^ (e - e0).toNat : Nat)
  if neg then -v else v

/-- A finite value from a signed mantissa; an exact zero has the sign given. -/
def ofInt (zeroNeg : Bool) (i : Int) (e : Int) : FVal :=
  if i = 0 then .fin zeroNeg 0 e else .fin (decide (i < 0)) i.natAbs e

/-- Exact sum: an exact zero is +0 unless both are −0 (R121). -/
def fadd (a b : FVal) : FVal :=
  match a, b with
  | .nan, _ => .nan
  | _, .nan => .nan
  | .inf x, .inf y => if x = y then .inf x else .nan
  | .inf x, _ => .inf x
  | _, .inf y => .inf y
  | .fin na ma ea, .fin nb mb eb =>
    let e0 := min ea eb
    ofInt (na && nb && ma == 0 && mb == 0) (alignTo na ma ea e0 + alignTo nb mb eb e0) e0

def fneg : FVal → FVal
  | .nan => .nan
  | .inf n => .inf (!n)
  | .fin n m e => .fin (!n) m e

def fabs : FVal → FVal
  | .nan => .nan
  | .inf _ => .inf false
  | .fin _ m e => .fin false m e

/-- Exact product; infinity × 0 is a NaN (R122). -/
def fmul (a b : FVal) : FVal :=
  match a, b with
  | .nan, _ => .nan
  | _, .nan => .nan
  | .inf x, .inf y => .inf (x != y)
  | .inf x, .fin n m _ => if m = 0 then .nan else .inf (x != n)
  | .fin n m _, .inf y => if m = 0 then .nan else .inf (n != y)
  | .fin na ma ea, .fin nb mb eb => .fin (na != nb) (ma * mb) (ea + eb)

/-- Multiply by a power of two, exactly. -/
def fscale (v : FVal) (k : Int) : FVal :=
  match v with
  | .fin n m e => .fin n m (e + k)
  | v => v

/-- Compare two values that are not NaN. -/
def fcmp (a b : FVal) : Ordering :=
  match a, b with
  | .inf x, .inf y => if x = y then .eq else if x then .lt else .gt
  | .inf x, _ => if x then .lt else .gt
  | _, .inf y => if y then .gt else .lt
  | .fin na ma ea, .fin nb mb eb =>
    let e0 := min ea eb
    compare (alignTo na ma ea e0) (alignTo nb mb eb e0)
  | _, _ => .eq

def isNan : FVal → Bool
  | .nan => true
  | _ => false

def isZero : FVal → Bool
  | .fin _ 0 _ => true
  | _ => false

/-! Integers -/

/-- A 32-bit lane as a signed integer, and back. -/
def i32 (w : Nat) : Int := sext w 32
def ofI32 (i : Int) : Nat := (i % (2 ^ 32 : Int)).toNat

/-- Saturate a signed integer to `w` bits (R120, R125). -/
def satInt (w : Nat) (i : Int) : Int := max (-(2 ^ (w - 1) : Int)) (min (2 ^ (w - 1) - 1) i)

/-- An integer as an exact value. -/
def fOfInt (i : Int) : FVal := .fin (decide (i < 0)) i.natAbs 0

/-- A value as an integer of `w` bits, saturating; NaN gives 0 (R125). `trunc`: toward zero, else to nearest, ties to even. -/
def toIntSat (w : Nat) (trunc : Bool) (v : FVal) : Int :=
  match v with
  | .nan => 0
  | .inf neg => if neg then -(2 ^ (w - 1) : Int) else 2 ^ (w - 1) - 1
  | .fin neg m e =>
    let mag : Nat := if trunc then (if 0 ≤ e then m * 2 ^ e.toNat else m / 2 ^ (-e).toNat) else rneTo m e 0
    satInt w (if neg then -(mag : Int) else mag)

/-! Element formats by code (R81, R116) -/

/-- The formats of R81 by code. -/
def fmtReserved (c : Nat) : Bool := 0xD ≤ c

def fmtIsInt (c : Nat) : Bool := c ≤ 1

/-- An MX format carries block scales (R117). -/
def fmtIsMx (c : Nat) : Bool := 4 ≤ c && c ≤ 0xA

/-- Element bits (R81). -/
def fmtBits (c : Nat) : Nat :=
  match c with
  | 1 => 4 | 7 => 6 | 8 => 6 | 9 => 4 | 0xA => 4 | 0xB => 16 | 0xC => 16 | _ => 8

/-- `k` per step of an operand's own format (R81). -/
def fmtK (c : Nat) : Nat := if fmtBits c = 4 then 8 else 4

/-- The floating-point format of a code, if it is one. -/
def fmtFloat (c : Nat) : Option FFmt :=
  match c with
  | 2 => some fE4M3 | 3 => some fE5M2 | 5 => some fE4M3 | 6 => some fE5M2 | 7 => some fE2M3 | 8 => some fE3M2 | 9 => some fE2M1
  | 0xB => some fBf16 | 0xC => some fFp16 | _ => none

/-- The exact value of an element code, before any block scale: integers, and MXINT elements with their 2^−6 or 2^−2 (R116). -/
def elemVal (c code : Nat) : FVal :=
  match fmtFloat c with
  | some f => f.decode code
  | none =>
    let i := sext code (fmtBits c)
    match c with
    | 4 => .fin (decide (i < 0)) i.natAbs (-6)
    | 0xA => .fin (decide (i < 0)) i.natAbs (-2)
    | _ => fOfInt i

/-- An element under its block's scale byte; 0xFF is a NaN block (R117). -/
def scaled (v : FVal) (x : Nat) : FVal := if x = 0xFF then .nan else fscale v ((x : Int) - 127)

/-- `e`max of R119. -/
def mxEmax (c : Nat) : Int :=
  match c with
  | 5 => 8 | 6 => 15 | 7 => 2 | 8 => 4 | 9 => 2 | _ => 0

/-- The largest magnitude among finite values, as (mantissa, exponent); zero mantissa when all are zero. -/
def maxMag : List FVal → Nat × Int
  | [] => (0, 0)
  | v :: vs =>
    let (m, e) := maxMag vs
    match v with
    | .fin _ m' e' => if m' ≠ 0 ∧ (m = 0 ∨ fcmp (.fin false m e) (.fin false m' e') = .lt) then (m', e') else (m, e)
    | _ => (m, e)

/-- The scale byte derived for a block (R119 steps 1–3). -/
def mxScale (c : Nat) (vs : List FVal) : Nat :=
  if vs.any fun v => match v with | .fin _ _ _ => false | _ => true then 0xFF
  else
    let (m, e) := maxMag vs
    if m = 0 then 127 else (max 0 (min 254 (topExp m e - mxEmax c + 127))).toNat

/-- An element code of a value under scale `x` (R119 step 4). -/
def mxElem (c x : Nat) (v : FVal) : Nat :=
  if x = 0xFF then 0
  else match v with
    | .fin neg m e =>
      let e' := e - ((x : Int) - 127)
      match fmtFloat c with
      | some f => f.signBit neg + f.packMag true m e'
      | none =>
        -- MXINT8, MXINT4: codes are multiples of 2^−6 or 2^−2, saturating symmetrically
        let w := fmtBits c
        let n := min (rneTo m e' (if c = 4 then -6 else -2)) (2 ^ (w - 1) - 1)
        if neg ∧ n ≠ 0 then 2 ^ w - n else n
    | _ => 0

/-- A lane narrowed to a format that is not MX (R125, R126): int8 and int4 from int32 lanes, the others from fp32. -/
def narrow (c lane : Nat) : Nat :=
  match fmtFloat c with
  | some f => f.pack (f32 lane)
  | none => (satInt (fmtBits c) (i32 lane) % (2 ^ fmtBits c : Int)).toNat

/-- An element widened to a lane (R125, R126): int8 and int4 to int32, the others to fp32. -/
def widen (c code x : Nat) : Nat :=
  if fmtIsInt c then ofI32 (sext code (fmtBits c))
  else toF32 (if fmtIsMx c then scaled (elemVal c code) x else elemVal c code)

/-! fp32 lane operations (R127) -/

def f32Add (a b : Nat) : Nat := toF32 (fadd (f32 a) (f32 b))
def f32Sub (a b : Nat) : Nat := toF32 (fadd (f32 a) (fneg (f32 b)))
def f32Mul (a b : Nat) : Nat := toF32 (fmul (f32 a) (f32 b))
/-- a × b + c with one rounding. -/
def f32Fma (a b c : Nat) : Nat := toF32 (fadd (fmul (f32 a) (f32 b)) (f32 c))
def i32Add (a b : Nat) : Nat := (a + b) % 2 ^ 32
def i32Sub (a b : Nat) : Nat := (a + 2 ^ 32 - b % 2 ^ 32) % 2 ^ 32
def i32Mul (a b : Nat) : Nat := a * b % 2 ^ 32

/-! The vector functions (R130): the correctly rounded value by fixed-point series of 160 bits, then an offset of at most the
bound that the spec leaves open (assumption log 12). -/

abbrev fxBits : Nat := 160
abbrev fxOne : Nat := 2 ^ fxBits

/-- Σ y^k / k!, y a fixed-point number: e^y. -/
def fxExp (y : Int) : Int :=
  ((List.range 60).foldl (fun (acc : Int × Int) (k : Nat) =>
    (acc.1 + acc.2, acc.2 * y / ((fxOne * (k + 1) : Nat) : Int))) (0, (fxOne : Int))).1

/-- ln 2 = Σ 1 / (k 2^k). -/
def fxLn2 : Int := ((List.range 170).foldl (fun (a : Nat) (k : Nat) => a + fxOne / ((k + 1) * 2 ^ (k + 1))) 0 : Nat)

/-- 2 atanh z = ln ((1 + z) / (1 − z)), z a fixed-point number with |z| ≤ 1/3. -/
def fxTwoAtanh (z : Int) : Int :=
  2 * ((List.range 55).foldl (fun (acc : Int × Int) (k : Nat) =>
    (acc.1 + acc.2 / ((2 * k + 1 : Nat) : Int), acc.2 * z / fxOne * z / fxOne)) (0, z)).1

/-- 2/√π in 160-bit fixed point. -/
def fxTwoOverSqrtPi : Int := 1649128000240172121335468122222580532118151184855

/-- erf x by its Maclaurin series, |x| < 4. -/
def fxErf (x : Int) : Int :=
  let sum := ((List.range 120).foldl (fun (acc : Int × Int) (k : Nat) =>
    (acc.1 + acc.2 / ((2 * k + 1 : Nat) : Int), -(acc.2 * x / fxOne * x / ((fxOne * (k + 1) : Nat) : Int)))) (0, x)).1
  sum * fxTwoOverSqrtPi / fxOne

/-- A finite value as fixed point, truncated. -/
def toFx (neg : Bool) (m : Nat) (e : Int) : Int :=
  let k := e + fxBits
  let v : Nat := if 0 ≤ k then m * 2 ^ k.toNat else m / 2 ^ (-k).toNat
  if neg then -(v : Int) else v

/-- A fixed-point number times 2^k as an exact value. -/
def ofFx (v : Int) (k : Int) : FVal := .fin (decide (v < 0)) v.natAbs (k - fxBits)

/-- a / b to 200 quotient bits with a sticky bit: enough for one correct rounding. -/
def divVal (neg : Bool) (ma : Nat) (ea : Int) (mb : Nat) (eb : Int) : FVal :=
  let q := ma * 2 ^ 200 / mb
  let r := if ma * 2 ^ 200 % mb = 0 then 0 else 1
  .fin neg (2 * q + r) (ea - eb - 201)

/-- Integer square root by bits. -/
def isqrtBits (n : Nat) : Nat → Nat → Nat
  | 0, r => r
  | k + 1, r => if (r + 2 ^ k) * (r + 2 ^ k) ≤ n then isqrtBits n k (r + 2 ^ k) else isqrtBits n k r

def isqrt (n : Nat) : Nat := isqrtBits n (Nat.log2 n / 2 + 1) 0

/-- 1/√(m × 2^e), with a sticky bit. -/
def rsqrtVal (m : Nat) (e : Int) : FVal :=
  let (m, e) := if e % 2 = 0 then (m, e) else (2 * m, e - 1)
  -- √(2^400 / m) with remainder
  let n := 2 ^ 400 / m
  let r := isqrt n
  .fin false (2 * r + (if r * r = n ∧ 2 ^ 400 % m = 0 then 0 else 1)) (-(e / 2) - 201)

/-- The seven vector functions (R86). -/
inductive VFn where
  | exp2 | log2 | rcp | rsqrt | tanh | sigm | erf
  deriving DecidableEq, Repr

def vfnBound : VFn → Int
  | .exp2 => 2 | .log2 => 2 | .rcp => 1 | .rsqrt => 2 | .tanh => 4 | .sigm => 4 | .erf => 4

def vfnCode : VFn → Nat
  | .exp2 => 0 | .log2 => 1 | .rcp => 2 | .rsqrt => 3 | .tanh => 4 | .sigm => 5 | .erf => 6

/-- Is m × 2^e a power of two? -/
def isPow2 (m : Nat) : Bool := m == 2 ^ Nat.log2 m

/-- Is a finite value an integer? -/
def isInteger (m : Nat) (e : Int) : Bool := decide (0 ≤ e) || m % 2 ^ (-e).toNat == 0

/-- |m × 2^e| < 2^k. -/
def magBelow (m : Nat) (e k : Int) : Bool := m == 0 || decide (topExp m e < k)

/-- Exact e^y for a value y ≤ 0 as fixed point, |y| < 128. -/
def expNeg (y : Int) : Int :=
  -- e^y = (e^(y/256))^256
  (List.range 8).foldl (fun a _ => a * a / fxOne) (fxExp (y / 256))

/-- The special and exact results of R130: `some` code where the table fixes the result, with the input's subnormals already
zero of their sign. -/
def vfnSpecial (f : VFn) (v : FVal) : Option Nat :=
  match f, v with
  | _, .nan => some 0x7FC00000
  | .exp2, .inf neg => some (if neg then 0 else 0x7F800000)
  | .exp2, .fin neg m e =>
    if m = 0 then some 0x3F800000
    else if !neg && !magBelow m e 7 then some 0x7F800000
    else if neg && fcmp v (.fin true 126 0) = .lt then some 0
    else if isInteger m e then
      let mag : Nat := if 0 ≤ e then m * 2 ^ e.toNat else m / 2 ^ (-e).toNat
      some (toF32 (.fin false 1 (if neg then -(mag : Int) else mag)))
    else none
  | .log2, .inf neg => some (if neg then 0x7FC00000 else 0x7F800000)
  | .log2, .fin neg m e =>
    if m = 0 then some 0xFF800000
    else if neg then some 0x7FC00000
    else if isPow2 m then some (toF32 (fOfInt (topExp m e)))
    else none
  | .rcp, .inf neg => some (fFp32.signBit neg)
  | .rcp, .fin neg m e =>
    if m = 0 then some (fFp32.signBit neg + 0x7F800000)
    else if fcmp (.fin false (2 ^ 126) 0) (.fin false m e) = .lt then some (fFp32.signBit neg)
    else none
  | .rsqrt, .inf neg => some (if neg then 0x7FC00000 else 0)
  | .rsqrt, .fin neg m _ => if m = 0 then some 0x7F800000 else if neg then some 0x7FC00000 else none
  | .tanh, .inf neg => some (fFp32.signBit neg + 0x3F800000)
  | .tanh, .fin neg m e => if magBelow m e (-12) then some (toF32 (.fin neg m e)) else none
  | .sigm, .inf neg => some (if neg then 0 else 0x3F800000)
  | .sigm, .fin neg m e => if !neg && fcmp (.fin false 17 0) (.fin neg m e) ≠ .gt then some 0x3F800000 else none
  | .erf, .inf neg => some (fFp32.signBit neg + 0x3F800000)
  | .erf, .fin neg m e =>
    if !magBelow m e 2 then some (fFp32.signBit neg + 0x3F800000) else if m = 0 then some (fFp32.signBit neg) else none

/-- The function's value, to at least 100 correct bits. -/
def vfnExact (f : VFn) (neg : Bool) (m : Nat) (e : Int) : FVal :=
  let x := toFx neg m e
  match f with
  | .exp2 =>
    let i := x / fxOne
    ofFx (fxExp ((x - i * fxOne) * fxLn2 / fxOne)) i
  | .log2 =>
    -- m × 2^e = (1 + t) × 2^k, 0 ≤ t < 1
    let k := topExp m e
    let u := toFx false m (e - k)
    let z := (u - fxOne) * fxOne / (u + fxOne)
    ofFx (k * fxOne + fxTwoAtanh z * fxOne / fxLn2) 0
  | .rcp => divVal neg 1 0 m e
  | .rsqrt => rsqrtVal m e
  | .tanh =>
    -- (1 − e^(−2|x|)) / (1 + e^(−2|x|))
    let a := if magBelow m e 6 then expNeg (-(2 * toFx false m e)) else 0
    let r := ((fxOne : Int) - a) * fxOne / (fxOne + a)
    ofFx (if neg then -r else r) 0
  | .sigm =>
    let a := if magBelow m e 7 then expNeg (-(toFx false m e)) else 0
    -- 1 / (1 + e^(−|x|)), or a / (1 + a) for negative x
    ofFx (if neg then a * fxOne / (fxOne + a) else (fxOne : Int) * fxOne / (fxOne + a)) 0
  | .erf => ofFx (fxErf x) 0

/-- fp32 codes in the order of the numbers, to step by ulps; back again. -/
def ordOf (w : Nat) : Int := if 2 ^ 31 ≤ w then -((w - 2 ^ 31 : Nat) : Int) else w
def ofOrd (i : Int) : Nat := if i < 0 then 2 ^ 31 + i.natAbs else i.toNat

/-- A vector function of one lane (R130): subnormal inputs as zero of their sign, the fixed results where the table gives
them, otherwise a value within the bound; a result below 2^−126 is a zero of its sign. -/
def vfn (f : VFn) (w : Nat) : Nat :=
  let v := match f32 w with
    | .fin neg m e => if m < 2 ^ 23 then FVal.fin neg 0 e else .fin neg m e
    | v => v
  match vfnSpecial f v with
  | some r => r
  | none =>
    match v with
    | .fin neg m e =>
      let r := toF32 (vfnExact f neg m e)
      let d := max (-(vfnBound f)) (min (vfnBound f) (Config.vfnUlp (vfnCode f) w))
      let r' := ofOrd (ordOf r + d)
      if r' % 2 ^ 31 < 2 ^ 23 then r' / 2 ^ 31 * 2 ^ 31 else r'
    | _ => 0x7FC00000

end Sys2Proof.Machine
end

