-- ==== Sys2Proof/Machine/Flags.lean ====
section
/-! DEFINITION. The comparisons that the block computes: the conditions of VCMP, the minima and maxima, and the ranking of lanes (R87, R128). The
hardware has no status flags; its comparisons write predicates and lanes. -/

namespace Sys2Proof.Machine

/-- VCMP conditions on fp32 lanes (R86, R128): EQ, NE, LT, LE, GT, GE, UNORD. -/
def cmpF32 (cond a b : Nat) : Bool :=
  let x := f32 a
  let y := f32 b
  let un := isNan x || isNan y
  let o := fcmp x y
  match cond with
  | 0 => !un && o == .eq
  | 1 => un || o != .eq
  | 2 => !un && o == .lt
  | 3 => !un && o != .gt
  | 4 => !un && o == .gt
  | 5 => !un && o != .lt
  | _ => un

/-- VCMP conditions on int32 lanes; UNORD never holds. -/
def cmpI32 (cond a b : Nat) : Bool :=
  let x := i32 a
  let y := i32 b
  match cond with
  | 0 => decide (x = y)
  | 1 => decide (x ≠ y)
  | 2 => decide (x < y)
  | 3 => decide (x ≤ y)
  | 4 => decide (y < x)
  | 5 => decide (y ≤ x)
  | _ => false

/-- VMIN and VMAX on fp32: a NaN in either gives NaN, and −0 ranks below +0 (R128). -/
def f32MinMax (max : Bool) (a b : Nat) : Nat :=
  let x := f32 a
  let y := f32 b
  if isNan x || isNan y then 0x7FC00000
  else match fcmp x y with
    | .lt => if max then b else a
    | .gt => if max then a else b
    | .eq => if max then (if nbit a 31 then b else a) else (if nbit a 31 then a else b)

def i32MinMax (max : Bool) (a b : Nat) : Nat :=
  if i32 a < i32 b then (if max then b else a) else (if max then a else b)

/-- Does `a` rank strictly above `b`? NaN ranks above every number, +0 and −0 are equal (R128). -/
def rankAbove (int : Bool) (a b : Nat) : Bool :=
  if int then decide (i32 b < i32 a)
  else
    let x := f32 a
    let y := f32 b
    if isNan y then false else if isNan x then true else fcmp x y == .gt

end Sys2Proof.Machine
end

