-- ==== Sys2Proof/Machine/Regs.lean ====
section
/-! DEFINITION. The register fields of every page, from the register tables of the spec: offset, bit range, access code and reset value (R37, and the block tables of each chapter). -/

namespace Sys2Proof.Machine

/-- The access codes of chapter 2, with `act` for a field whose write is a command of its own. -/
inductive Access where
  | rw | ro | wo | w1c | w1s | rws | rwl | act
  deriving DecidableEq, Repr

/-- One register field, or an array of `count` of them at `stride` bytes. `rst` is the reset value of a Q4
variant, `rst2` that of a Q2 variant; entry `i` of an array resets to `rst + rstStep * i`. -/
structure Field where
  off : Nat
  lo : Nat
  width : Nat
  acc : Access
  rst : Nat := 0
  rst2 : Nat := rst
  stride : Nat := 0
  count : Nat := 1
  rstStep : Nat := 0
  /-- the field resets to 0 on a variant without codec engines -/
  codec : Bool := false
  deriving DecidableEq, Repr

/-- The kinds of register page (R37, block type codes). -/
inductive PageKind where
  | mod | snap | evt | ctxs | bist | cab | tbase | cm | rqt | host | intake | gau | codec | sched | mill
  | mgmt | power | thermal | die | lpg | keg | col | xlt | kvw | att | floor | vat | win | spl | cnt | cev | recovery
  deriving DecidableEq, Repr

namespace F

/-! header (R37) -/
def PAGE_ID_TYPE : Field := { off := 0x0, lo := 24, width := 8, acc := .ro }
def PAGE_ID_DIE : Field := { off := 0x0, lo := 20, width := 4, acc := .ro }
def PAGE_ID_INST : Field := { off := 0x0, lo := 0, width := 20, acc := .ro }
def PAGE_VER_MAJOR : Field := { off := 0x4, lo := 16, width := 16, acc := .ro }
def PAGE_VER_MINOR : Field := { off := 0x4, lo := 0, width := 16, acc := .ro }
def CAPS : Field := { off := 0x8, lo := 0, width := 32, acc := .ro }
def CTRL : Field := { off := 0x10, lo := 0, width := 32, acc := .ro }
def STATUS_BLOCK : Field := { off := 0x14, lo := 16, width := 16, acc := .ro }
def STATUS_LOCKED : Field := { off := 0x14, lo := 2, width := 1, acc := .ro }
def STATUS_SVC : Field := { off := 0x14, lo := 0, width := 2, acc := .ro }
def EVT_EN : Field := { off := 0x24, lo := 0, width := 32, acc := .act }
def EVT_PEND : Field := { off := 0x28, lo := 0, width := 32, acc := .act }
def FAULT_CAPT_VALID : Field := { off := 0x30, lo := 31, width := 1, acc := .act }
def FAULT_CAPT_MORE : Field := { off := 0x30, lo := 30, width := 1, acc := .rws }
def FAULT_CAPT_CTX : Field := { off := 0x30, lo := 20, width := 10, acc := .rws }
def FAULT_CAPT_CTX_VALID : Field := { off := 0x30, lo := 19, width := 1, acc := .rws }
def FAULT_CAPT_CODE : Field := { off := 0x30, lo := 0, width := 16, acc := .rws }
def FAULT_LOC : Field := { off := 0x34, lo := 0, width := 32, acc := .rws }
def FAULT_TICK_LO : Field := { off := 0x38, lo := 0, width := 32, acc := .rws }
def FAULT_TICK_HI : Field := { off := 0x3c, lo := 0, width := 16, acc := .rws }
def SNAP_SEQ : Field := { off := 0x40, lo := 0, width := 32, acc := .ro }
def SNAP_TICK_LO : Field := { off := 0x44, lo := 0, width := 32, acc := .ro }
def SNAP_TICK_HI_FREE_RUN : Field := { off := 0x48, lo := 17, width := 1, acc := .ro }
def SNAP_TICK_HI_FORCED : Field := { off := 0x48, lo := 16, width := 1, acc := .ro }
def SNAP_TICK_HI_TICK : Field := { off := 0x48, lo := 0, width := 16, acc := .ro }
def OWNER_CTX_VALID : Field := { off := 0x80, lo := 26, width := 1, acc := .act }
def OWNER_CTX : Field := { off := 0x80, lo := 16, width := 10, acc := .act }
def OWNER_PT_SLOT : Field := { off := 0x80, lo := 10, width := 6, acc := .act }
def OWNER_FUNC : Field := { off := 0x80, lo := 0, width := 5, acc := .act }
def CHILD_SUM : Field := { off := 0xe0, lo := 0, width := 32, acc := .ro }
def LOCK_GAUGER_LOCKED : Field := { off := 0xf0, lo := 1, width := 1, acc := .ro }
def LOCK_LOCKED : Field := { off := 0xf0, lo := 0, width := 1, acc := .act }
def EVT_RAW : Field := { off := 0x20, lo := 0, width := 32, acc := .ro }
def SNAP_CTR : Field := { off := 0x4c, lo := 0, width := 32, acc := .ro, stride := 4, count := 13 }

/-! mod (R45, R548) -/
def MOD_DIE_SVC : Field := { off := 0x100, lo := 4, width := 4, acc := .ro, rst := 15, rst2 := 3 }
def MOD_DIE_PRESENT : Field := { off := 0x100, lo := 0, width := 4, acc := .ro, rst := 15, rst2 := 3 }
def MOD_STREAM_CTX : Field := { off := 0x104, lo := 8, width := 8, acc := .ro, rst := 128, codec := true }
def MOD_CODEC_SVC : Field := { off := 0x104, lo := 4, width := 4, acc := .ro, rst := 15, rst2 := 3, codec := true }
def MOD_CODEC_PRESENT : Field := { off := 0x104, lo := 0, width := 4, acc := .ro, rst := 15, rst2 := 3, codec := true }
def MOD_KEG_SVC : Field := { off := 0x108, lo := 8, width := 8, acc := .ro, rst := 255, rst2 := 15 }
def MOD_KEG_PRESENT : Field := { off := 0x108, lo := 0, width := 8, acc := .ro, rst := 255, rst2 := 15 }
def MOD_VATS_PHYS : Field := { off := 0x10c, lo := 16, width := 16, acc := .ro, rst := 432, rst2 := 216 }
def MOD_VATS_SVC : Field := { off := 0x10c, lo := 0, width := 16, acc := .ro, rst := 384, rst2 := 192 }
def MOD_TUNS_SVC : Field := { off := 0x110, lo := 0, width := 32, acc := .ro, rst := 24576, rst2 := 12288 }
def MOD_FLOORS_PHYS : Field := { off := 0x114, lo := 8, width := 8, acc := .ro, rst := 48, rst2 := 24 }
def MOD_FLOORS_SVC : Field := { off := 0x114, lo := 0, width := 8, acc := .ro, rst := 48, rst2 := 24 }
def MOD_LPDDR_CH_SVC : Field := { off := 0x118, lo := 0, width := 16, acc := .ro, rst := 128, rst2 := 64 }
def MOD_MEM_USABLE_MIB : Field := { off := 0x11c, lo := 0, width := 32, acc := .ro, rst := 507904, rst2 := 253952 }
def MOD_FLOOR_STORE_MIB : Field := { off := 0x120, lo := 16, width := 16, acc := .ro, rst := 384, rst2 := 192 }
def MOD_VAT_STORE_MIB : Field := { off := 0x120, lo := 0, width := 16, acc := .ro, rst := 768, rst2 := 384 }
def MOD_GRADE : Field := { off := 0x124, lo := 0, width := 2, acc := .ro }
def MOD_FIXED_SVC : Field := { off := 0x128, lo := 0, width := 6, acc := .ro, rst := 63 }
def MOD_RQT_ENTRIES : Field := { off := 0x12c, lo := 16, width := 16, acc := .ro, rst := 8192 }
def MOD_CONTEXTS : Field := { off := 0x12c, lo := 0, width := 16, acc := .ro, rst := 1024 }
def MOD_SPILES : Field := { off := 0x130, lo := 0, width := 16, acc := .ro, rst := 16384, rst2 := 8192 }
def MOD_ACC_ERR_VALID : Field := { off := 0x134, lo := 31, width := 1, acc := .w1c }
def MOD_ACC_ERR_ADDR : Field := { off := 0x134, lo := 0, width := 27, acc := .ro }
def MOD_ACC_ERR_BAR2 : Field := { off := 0x140, lo := 5, width := 1, acc := .ro }
def MOD_ACC_ERR_FUNC : Field := { off := 0x140, lo := 0, width := 5, acc := .ro }
def MOD_RESET_CAUSE : Field := { off := 0x138, lo := 0, width := 4, acc := .ro }
def MOD_START_MS : Field := { off := 0x13c, lo := 16, width := 16, acc := .ro }
def MOD_START_PHASE : Field := { off := 0x13c, lo := 0, width := 3, acc := .ro, rst := 1 }

/-! evt (R549) -/
def EVT_ROOT_EN : Field := { off := 0x100, lo := 0, width := 32, acc := .rw }
def EVT_REARM : Field := { off := 0x104, lo := 0, width := 1, acc := .act }

/-! win (R50, R500) -/
def WIN_EVT_SUM_LO : Field := { off := 0x100, lo := 0, width := 32, acc := .ro }
def WIN_EVT_SUM_HI : Field := { off := 0x104, lo := 0, width := 32, acc := .ro }
def WIN_SLOT_VALID : Field := { off := 0x200, lo := 31, width := 1, acc := .ro, stride := 4, count := 64 }
def WIN_SLOT_CTX : Field := { off := 0x200, lo := 0, width := 10, acc := .ro, stride := 4, count := 64 }
def WIN_REARM : Field := { off := 0x108, lo := 0, width := 1, acc := .act }
def WIN_CMDQ_ADDR_LO : Field := { off := 0x300, lo := 0, width := 32, acc := .rw }
def WIN_CMDQ_ADDR_HI : Field := { off := 0x304, lo := 0, width := 32, acc := .rw }
def WIN_CMDQ_EN : Field := { off := 0x308, lo := 31, width := 1, acc := .rw }
def WIN_CMDQ_LOG2 : Field := { off := 0x308, lo := 16, width := 4, acc := .rw, rst := 6 }
def WIN_CMDQ_VEC : Field := { off := 0x308, lo := 0, width := 11, acc := .rw }
def WIN_AP_VALID : Field := { off := 0x400, lo := 31, width := 1, acc := .rw, stride := 16, count := 16 }
def WIN_AP_RO : Field := { off := 0x400, lo := 30, width := 1, acc := .rw, stride := 16, count := 16 }
def WIN_AP_SLOT : Field := { off := 0x400, lo := 0, width := 6, acc := .rw, stride := 16, count := 16 }
def WIN_AP_VA_LO : Field := { off := 0x404, lo := 22, width := 10, acc := .rw, stride := 16, count := 16 }
def WIN_AP_VA_HI : Field := { off := 0x408, lo := 0, width := 10, acc := .rw, stride := 16, count := 16 }

/-! snap (R51) -/
def SNAP_TGT_LO : Field := { off := 0x100, lo := 0, width := 32, acc := .rw }
def SNAP_TGT_HI : Field := { off := 0x104, lo := 0, width := 16, acc := .rw }
def SNAP_CANCEL : Field := { off := 0x108, lo := 2, width := 1, acc := .act }
def SNAP_NOW : Field := { off := 0x108, lo := 1, width := 1, acc := .act }
def SNAP_ARM : Field := { off := 0x108, lo := 0, width := 1, acc := .act }
def SNAP_INCOMPLETE : Field := { off := 0x10c, lo := 3, width := 1, acc := .w1c }
def SNAP_MISSED : Field := { off := 0x10c, lo := 2, width := 1, acc := .w1c }
def SNAP_DONE : Field := { off := 0x10c, lo := 1, width := 1, acc := .w1c }
def SNAP_ARMED : Field := { off := 0x10c, lo := 0, width := 1, acc := .ro }
def SNAP_LAST_SEQ : Field := { off := 0x110, lo := 0, width := 32, acc := .rws }
def SNAP_MISS_UNITS : Field := { off := 0x114, lo := 0, width := 16, acc := .ro }

/-! tbase (R67, R80) -/
def TBASE_CFG_LINE_B_EN : Field := { off := 0x100, lo := 5, width := 1, acc := .rwl, rst := 1 }
def TBASE_CFG_LINE_A_EN : Field := { off := 0x100, lo := 4, width := 1, acc := .rwl, rst := 1 }
def TBASE_CFG_SRC_CHECK : Field := { off := 0x100, lo := 3, width := 1, acc := .rwl, rst := 1 }
def TBASE_CFG_PRIMARY : Field := { off := 0x100, lo := 2, width := 1, acc := .rwl }
def TBASE_CFG_PERIOD_MODE : Field := { off := 0x100, lo := 1, width := 1, acc := .rwl }
def TBASE_CFG_ENABLE : Field := { off := 0x100, lo := 0, width := 1, acc := .act }
def TBASE_PERIOD_TICKS : Field := { off := 0x104, lo := 0, width := 24, acc := .rwl }
def TBASE_PHASE_LO : Field := { off := 0x108, lo := 0, width := 32, acc := .rwl }
def TBASE_PHASE_HI : Field := { off := 0x10c, lo := 0, width := 16, acc := .rwl }
def TBASE_SRC_ID : Field := { off := 0x110, lo := 0, width := 16, acc := .rwl }
def TBASE_STALL_GUARD_US : Field := { off := 0x114, lo := 0, width := 20, acc := .rw, rst := 50000 }
def TBASE_RATE_TOL : Field := { off := 0x118, lo := 8, width := 8, acc := .rw, rst := 64 }
def TBASE_LOCK_PERIODS : Field := { off := 0x118, lo := 0, width := 4, acc := .rw, rst := 2 }
def TBASE_FLY_CLASSES : Field := { off := 0x11c, lo := 0, width := 4, acc := .rw, rst := 12 }
def TBASE_LAG_WARN : Field := { off := 0x120, lo := 0, width := 8, acc := .rw, rst := 16 }
def TBASE_TICK_LO : Field := { off := 0x144, lo := 0, width := 32, acc := .ro }
def TBASE_TICK_HI : Field := { off := 0x148, lo := 0, width := 16, acc := .ro }
def TBASE_PERIOD_IDX : Field := { off := 0x14c, lo := 0, width := 24, acc := .ro }
def TBASE_SLOT : Field := { off := 0x150, lo := 0, width := 6, acc := .ro }
def TBASE_PERIOD_CLK : Field := { off := 0x154, lo := 0, width := 23, acc := .ro }
def TBASE_SLOT_CLK : Field := { off := 0x158, lo := 0, width := 17, acc := .ro }
def TBASE_LAG : Field := { off := 0x15c, lo := 0, width := 8, acc := .ro }
def TBASE_MISS_PERIODS : Field := { off := 0x160, lo := 0, width := 3, acc := .ro }
def TBASE_SRC_SEEN : Field := { off := 0x164, lo := 0, width := 16, acc := .ro }
def TBASE_LINE_OK : Field := { off := 0x164, lo := 16, width := 2, acc := .ro }
def TBASE_SLOT_TBL_SEL_PEND : Field := { off := 0x180, lo := 1, width := 1, acc := .ro }
def TBASE_SLOT_TBL_SEL_ACTIVE : Field := { off := 0x180, lo := 0, width := 1, acc := .ro }
def TBASE_SLOT_SW_CANCEL : Field := { off := 0x184, lo := 1, width := 1, acc := .act }
def TBASE_SLOT_SW_REQ : Field := { off := 0x184, lo := 0, width := 1, acc := .act }
def SLOT_TBL : Field := { off := 0x400, lo := 0, width := 32, acc := .act, stride := 4, count := 128 }

/-! vat (R113, R188) -/
def VAT_STORE_MODE : Field := { off := 0x100, lo := 0, width := 1, acc := .ro }
def VAT_RUN_CLK_HOLD : Field := { off := 0x104, lo := 26, width := 1, acc := .ro }
def VAT_RUN_SUSPENDED : Field := { off := 0x104, lo := 25, width := 1, acc := .ro }
def VAT_RUN_ACTIVE : Field := { off := 0x104, lo := 24, width := 1, acc := .ro }
def VAT_RUN_SLOT : Field := { off := 0x104, lo := 16, width := 6, acc := .ro }
def VAT_RUN_KID : Field := { off := 0x104, lo := 0, width := 16, acc := .ro }
def VAT_LOGICAL : Field := { off := 0x108, lo := 0, width := 4, acc := .ro }
def VAT_TUN_MAP_Q3 : Field := { off := 0x10c, lo := 24, width := 5, acc := .ro, rst := 31 }
def VAT_TUN_MAP_Q2 : Field := { off := 0x10c, lo := 16, width := 5, acc := .ro, rst := 31 }
def VAT_TUN_MAP_Q1 : Field := { off := 0x10c, lo := 8, width := 5, acc := .ro, rst := 31 }
def VAT_TUN_MAP_Q0 : Field := { off := 0x10c, lo := 0, width := 5, acc := .ro, rst := 31 }
def VAT_KSTORE_SLOTS : Field := { off := 0x110, lo := 24, width := 6, acc := .ro }
def VAT_KSTORE_WORDS : Field := { off := 0x110, lo := 0, width := 14, acc := .ro }
def VAT_DISPATCH_ARMED : Field := { off := 0x114, lo := 0, width := 8, acc := .ro }
def VAT_C0_RES : Field := { off := 0x118, lo := 0, width := 1, acc := .ro }
def VAT_BANK_OWNER_VALID : Field := { off := 0x200, lo := 31, width := 1, acc := .ro, stride := 4, count := 16 }
def VAT_BANK_OWNER_PINNED : Field := { off := 0x200, lo := 30, width := 1, acc := .ro, stride := 4, count := 16 }
def VAT_BANK_OWNER_CLEARING : Field := { off := 0x200, lo := 29, width := 1, acc := .ro, stride := 4, count := 16 }
def VAT_BANK_OWNER_RETIRED : Field := { off := 0x200, lo := 28, width := 1, acc := .ro, stride := 4, count := 16 }
def VAT_BANK_OWNER_CTX : Field := { off := 0x200, lo := 0, width := 10, acc := .ro, stride := 4, count := 16 }
def VAT_BANKS_SVC : Field := { off := 0x240, lo := 0, width := 5, acc := .ro, rst := 16 }

/-! floor (R114, R189) -/
def FLOOR_VAT_MAP : Field := { off := 0x100, lo := 0, width := 32, acc := .ro, rst := 1985229328 }
def FLOOR_IN_SVC : Field := { off := 0x104, lo := 12, width := 4, acc := .ro, rst := 8 }
def FLOOR_USABLE : Field := { off := 0x104, lo := 8, width := 4, acc := .ro, rst := 9 }
def FLOOR_SPARE : Field := { off := 0x104, lo := 0, width := 4, acc := .ro, rst := 8 }
def FLOOR_CFG_KEEP_TEST : Field := { off := 0x108, lo := 1, width := 1, acc := .rw }
def FLOOR_CFG_ROT_EN : Field := { off := 0x108, lo := 0, width := 1, acc := .rw, rst := 1 }
def FLOOR_ROT_LIMIT_CLK : Field := { off := 0x10c, lo := 0, width := 32, acc := .rw, rst := 3200000 }
def FLOOR_ROT_REQ_GO : Field := { off := 0x110, lo := 4, width := 1, acc := .act }
def FLOOR_ROT_REQ_VAT : Field := { off := 0x110, lo := 0, width := 4, acc := .act }
def FLOOR_ROT_STATUS_KIB : Field := { off := 0x114, lo := 12, width := 12, acc := .ro }
def FLOOR_ROT_STATUS_IN : Field := { off := 0x114, lo := 8, width := 4, acc := .ro, rst := 15 }
def FLOOR_ROT_STATUS_OUT : Field := { off := 0x114, lo := 4, width := 4, acc := .ro, rst := 15 }
def FLOOR_ROT_STATUS_PHASE : Field := { off := 0x114, lo := 0, width := 2, acc := .ro }
def FLOOR_LOAD_STATUS_BUSY : Field := { off := 0x118, lo := 8, width := 1, acc := .ro }
def FLOOR_LOAD_STATUS_QUEUED : Field := { off := 0x118, lo := 0, width := 8, acc := .ro }
def FLOOR_TAP_PRIO0 : Field := { off := 0x200, lo := 0, width := 32, acc := .act, rst := 1145324612 }
def FLOOR_TAP_PRIO1_FAB_OUT : Field := { off := 0x204, lo := 8, width := 4, acc := .act, rst := 8 }
def FLOOR_TAP_PRIO1_FAB_IN : Field := { off := 0x204, lo := 4, width := 4, acc := .act, rst := 8 }
def FLOOR_TAP_PRIO1_MAINT : Field := { off := 0x204, lo := 0, width := 4, acc := .act, rst := 2 }
def FLOOR_TAP_WDOG : Field := { off := 0x208, lo := 0, width := 16, acc := .rw, rst := 4096 }
def FLOOR_TAP_FENCED : Field := { off := 0x20c, lo := 0, width := 11, acc := .ro }
def FLOOR_SEG_SPARES : Field := { off := 0x210, lo := 0, width := 2, acc := .ro, rst := 2 }
def FLOOR_SEG_PHYS : Field := { off := 0x280, lo := 0, width := 6, acc := .ro, stride := 4, count := 32, rstStep := 1 }
def FLOOR_SEG_OWNER_VALID : Field := { off := 0x300, lo := 31, width := 1, acc := .ro, stride := 4, count := 32 }
def FLOOR_SEG_OWNER_PINNED : Field := { off := 0x300, lo := 30, width := 1, acc := .ro, stride := 4, count := 32 }
def FLOOR_SEG_OWNER_CLEARING : Field := { off := 0x300, lo := 29, width := 1, acc := .ro, stride := 4, count := 32 }
def FLOOR_SEG_OWNER_CTX : Field := { off := 0x300, lo := 0, width := 10, acc := .ro, stride := 4, count := 32 }

/-! spl (R156) -/
def SPL_SEL : Field := { off := 0x100, lo := 0, width := 9, acc := .rw }
def SPL_VALUE : Field := { off := 0x104, lo := 0, width := 32, acc := .rw }
def SPL_CMD_SET : Field := { off := 0x108, lo := 0, width := 1, acc := .act }
def SPL_SEL_STATUS_MAPPED : Field := { off := 0x10c, lo := 31, width := 1, acc := .ro }
def SPL_SEL_STATUS_LOCAL : Field := { off := 0x10c, lo := 30, width := 1, acc := .ro }
def SPL_SEL_STATUS_OVF : Field := { off := 0x10c, lo := 29, width := 1, acc := .ro }
def SPL_SEL_STATUS_POISON : Field := { off := 0x10c, lo := 28, width := 1, acc := .ro }
def SPL_SEL_STATUS_WAITERS : Field := { off := 0x10c, lo := 0, width := 16, acc := .ro }
def SPL_SEL_PRESET : Field := { off := 0x110, lo := 0, width := 32, acc := .ro }
def SPL_POST_SPILE : Field := { off := 0x114, lo := 16, width := 9, acc := .act }
def SPL_POST_AMOUNT : Field := { off := 0x114, lo := 0, width := 16, acc := .act }
def SPL_MAP_VALID : Field := { off := 0x200, lo := 31, width := 1, acc := .ro, stride := 4, count := 32 }
def SPL_MAP_LOCAL : Field := { off := 0x200, lo := 30, width := 1, acc := .ro, stride := 4, count := 32 }
def SPL_MAP_DIE : Field := { off := 0x200, lo := 24, width := 2, acc := .ro, stride := 4, count := 32 }
def SPL_COUNT : Field := { off := 0x800, lo := 0, width := 32, acc := .ro, stride := 4, count := 512 }

/-! lpg (R218) -/
def LPG_CH_SVC : Field := { off := 0x100, lo := 0, width := 8, acc := .ro, rst := 255 }
def LPG_CH_RETIRED : Field := { off := 0x104, lo := 0, width := 8, acc := .ro }
def LPG_RETIRE_THRESH : Field := { off := 0x108, lo := 0, width := 8, acc := .rw, rst := 64 }
def LPG_PATROL_HOURS : Field := { off := 0x10c, lo := 0, width := 8, acc := .rw, rst := 24 }
def LPG_PATROL_EN : Field := { off := 0x110, lo := 0, width := 1, acc := .rw, rst := 1 }
def LPG_PATROL_POS : Field := { off := 0x114, lo := 0, width := 27, acc := .ro }
def LPG_PATROL_PASSES : Field := { off := 0x118, lo := 0, width := 16, acc := .ro }
def LPG_KEYS_INSTALLED : Field := { off := 0x11c, lo := 0, width := 11, acc := .ro }

/-! xlt (R219) -/
def XLT_LAB_ENTRIES : Field := { off := 0x100, lo := 0, width := 12, acc := .ro, rst := 2048 }
def XLT_RSET_NOW : Field := { off := 0x104, lo := 0, width := 3, acc := .ro }
def XLT_RET_LIST_VALID : Field := { off := 0x108, lo := 31, width := 1, acc := .ro, stride := 4, count := 7 }
def XLT_RET_LIST_CH : Field := { off := 0x108, lo := 0, width := 5, acc := .ro, stride := 4, count := 7 }
def XLT_SYS_FRAMES : Field := { off := 0x130, lo := 0, width := 25, acc := .ro }
def XLT_SYS_FREE : Field := { off := 0x134, lo := 0, width := 25, acc := .ro }
def XLT_RETIRED_FRAMES : Field := { off := 0x138, lo := 0, width := 25, acc := .ro }

/-! att (R252) -/
def ATT_CFG_CAND_PERMIT : Field := { off := 0x100, lo := 2, width := 1, acc := .rw, rst := 1 }
def ATT_CFG_LKP_PERMIT : Field := { off := 0x100, lo := 1, width := 1, acc := .rw, rst := 1 }
def ATT_CFG_SKIM_PERMIT : Field := { off := 0x100, lo := 0, width := 1, acc := .rw, rst := 1 }
def ATT_LKP_WINDOW : Field := { off := 0x104, lo := 0, width := 17, acc := .rw, rst := 16384 }
def ATT_JOBS_ACTIVE : Field := { off := 0x108, lo := 0, width := 8, acc := .ro }
def ATT_VATS_AVAIL : Field := { off := 0x10c, lo := 0, width := 7, acc := .ro, rst := 96 }

/-! kvw (R289) -/
def KVW_LAB_ENTRIES : Field := { off := 0x100, lo := 0, width := 10, acc := .ro, rst := 512 }
def KVW_PREFETCH_DEPTH : Field := { off := 0x104, lo := 0, width := 7, acc := .rw, rst := 8 }
def KVW_POOLS : Field := { off := 0x108, lo := 0, width := 16, acc := .ro }
def KVW_PAGES_FREE : Field := { off := 0x10c, lo := 0, width := 25, acc := .ro }
def KVW_PAGES_CELLAR : Field := { off := 0x110, lo := 0, width := 25, acc := .ro }
def KVW_PFX_HOME : Field := { off := 0x114, lo := 0, width := 1, acc := .ro }
def KVW_PFX_USED : Field := { off := 0x118, lo := 0, width := 19, acc := .ro }
def KVW_PFX_ENTRIES : Field := { off := 0x11c, lo := 0, width := 19, acc := .ro, rst := 262144 }

/-! rqt (R319) -/
def RQT_CFG_C0_UNBOUND : Field := { off := 0x100, lo := 16, width := 1, acc := .rw }
def RQT_CFG_CHUNK_DEFAULT : Field := { off := 0x100, lo := 0, width := 16, acc := .rw, rst := 256 }
def RQT_LATCH_IDX_GO : Field := { off := 0x104, lo := 31, width := 1, acc := .act }
def RQT_LATCH_IDX_DONE : Field := { off := 0x104, lo := 30, width := 1, acc := .ro }
def RQT_LATCH_IDX_IDX : Field := { off := 0x104, lo := 0, width := 13, acc := .rw }
def RQT_CANCEL_GO : Field := { off := 0x108, lo := 31, width := 1, acc := .act }
def RQT_CANCEL_IDX : Field := { off := 0x108, lo := 0, width := 13, acc := .rw }
def RQT_FREE : Field := { off := 0x10c, lo := 0, width := 14, acc := .ro, rst := 8192 }
def RQT_C0_HELD_ENTRIES : Field := { off := 0x110, lo := 0, width := 14, acc := .ro }
def RQT_STATE_CNT : Field := { off := 0x180, lo := 0, width := 14, acc := .ro, stride := 4, count := 9 }
def RQT_RES_VALID : Field := { off := 0x200, lo := 31, width := 1, acc := .ro, stride := 16, count := 16 }
def RQT_RES_SUSPENDED : Field := { off := 0x200, lo := 30, width := 1, acc := .ro, stride := 16, count := 16 }
def RQT_RES_START : Field := { off := 0x200, lo := 16, width := 6, acc := .ro, stride := 16, count := 16 }
def RQT_RES_G : Field := { off := 0x200, lo := 10, width := 6, acc := .ro, stride := 16, count := 16 }
def RQT_RES_CTX : Field := { off := 0x200, lo := 0, width := 10, acc := .ro, stride := 16, count := 16 }
def RQT_RES_BSTEP : Field := { off := 0x204, lo := 0, width := 24, acc := .ro, stride := 16, count := 16 }
def RQT_RES_BOUND_CLK : Field := { off := 0x208, lo := 0, width := 24, acc := .ro, stride := 16, count := 16 }
def RQT_RES_ENTRIES : Field := { off := 0x20c, lo := 0, width := 7, acc := .ro, stride := 16, count := 16 }
def RQT_LATCH : Field := { off := 0x140, lo := 0, width := 32, acc := .ro, stride := 4, count := 16 }

/-! mill (R344) -/
def MILL_QUEUED_C3 : Field := { off := 0x100, lo := 24, width := 8, acc := .ro }
def MILL_QUEUED_C2 : Field := { off := 0x100, lo := 16, width := 8, acc := .ro }
def MILL_QUEUED_C1 : Field := { off := 0x100, lo := 8, width := 8, acc := .ro }
def MILL_QUEUED_C0 : Field := { off := 0x100, lo := 0, width := 8, acc := .ro }
def MILL_SUSP_PRE : Field := { off := 0x104, lo := 4, width := 4, acc := .ro }
def MILL_SUSP_ARRAY : Field := { off := 0x104, lo := 0, width := 4, acc := .ro }
def MILL_PRE_BUSY : Field := { off := 0x108, lo := 17, width := 1, acc := .ro }
def MILL_ARRAY_BUSY : Field := { off := 0x108, lo := 16, width := 1, acc := .ro }
def MILL_ARRAY_CTX : Field := { off := 0x108, lo := 0, width := 10, acc := .ro }
def MILL_PRE_CTX : Field := { off := 0x10c, lo := 0, width := 10, acc := .ro }
def MILL_CHAINS : Field := { off := 0x110, lo := 0, width := 8, acc := .ro }
def MILL_TILE_CLK : Field := { off := 0x114, lo := 0, width := 13, acc := .ro, rst := 4096 }

/-! codec (R377) -/
def ENG_BUSY : Field := { off := 0x100, lo := 31, width := 1, acc := .ro }
def ENG_MODE : Field := { off := 0x100, lo := 8, width := 3, acc := .ro }
def ENG_STREAM : Field := { off := 0x100, lo := 0, width := 7, acc := .ro }
def ENG_CHARGE_CLK : Field := { off := 0x104, lo := 0, width := 24, acc := .ro }
def ENG_LAST_STREAM : Field := { off := 0x108, lo := 0, width := 7, acc := .ro }

/-! sched (R378) -/
def SCH_MODE : Field := { off := 0x100, lo := 0, width := 1, acc := .ro }
def SCH_STREAMS_OPEN : Field := { off := 0x104, lo := 0, width := 8, acc := .ro }
def SCH_POLL_US : Field := { off := 0x108, lo := 0, width := 14, acc := .rw, rst := 100 }
def SCH_OVL_ENTER_US : Field := { off := 0x10c, lo := 0, width := 20, acc := .rw, rst := 4000 }
def SCH_OVL_EXIT_MS : Field := { off := 0x110, lo := 0, width := 14, acc := .rw, rst := 100 }
def SCH_READY : Field := { off := 0x114, lo := 0, width := 8, acc := .ro }
def SCH_OLDEST_WAIT_US : Field := { off := 0x118, lo := 0, width := 32, acc := .ro }
def SCH_ENG_SVC : Field := { off := 0x11c, lo := 0, width := 4, acc := .ro, rst := 15, rst2 := 3, codec := true }

/-! cm (R395) -/
def CM_CLAIM_LAST : Field := { off := 0x100, lo := 8, width := 8, acc := .ro }
def CM_CLAIM : Field := { off := 0x100, lo := 0, width := 8, acc := .ro }
def CM_DROPS_24H : Field := { off := 0x104, lo := 16, width := 4, acc := .ro }
def CM_DROP_CAUSE : Field := { off := 0x104, lo := 8, width := 8, acc := .ro }
def CM_ROLE : Field := { off := 0x104, lo := 0, width := 3, acc := .ro }
def CM_HEALTH_GOOD_COPIES : Field := { off := 0x108, lo := 8, width := 8, acc := .ro }
def CM_HEALTH_SRAM_OK : Field := { off := 0x108, lo := 4, width := 1, acc := .ro }
def CM_HEALTH_CLK_OK : Field := { off := 0x108, lo := 3, width := 1, acc := .ro }
def CM_HEALTH_FW_MATCH : Field := { off := 0x108, lo := 2, width := 1, acc := .ro }
def CM_HEALTH_DIAG_OK : Field := { off := 0x108, lo := 1, width := 1, acc := .ro }
def CM_HEALTH_BIST_OK : Field := { off := 0x108, lo := 0, width := 1, acc := .ro }
def CM_COPY_PIDX : Field := { off := 0x10c, lo := 0, width := 24, acc := .ro }
def CM_HB_US : Field := { off := 0x110, lo := 0, width := 10, acc := .rw, rst := 100 }
def CM_TAKEBACK_PERIODS : Field := { off := 0x114, lo := 8, width := 8, acc := .rw, rst := 16 }
def CM_TAKEBACK_EN : Field := { off := 0x114, lo := 0, width := 1, acc := .rw, rst := 1 }
def CM_PLANNED : Field := { off := 0x118, lo := 1, width := 1, acc := .ro }
def CM_YIELD : Field := { off := 0x118, lo := 0, width := 1, acc := .act }

/-! cnt (R414) -/
def CNT_STREAM_PICS : Field := { off := 0x400, lo := 0, width := 32, acc := .ro, stride := 16, count := 128 }
def CNT_STREAM_CONCEALED : Field := { off := 0x404, lo := 0, width := 32, acc := .ro, stride := 16, count := 128 }
def CNT_STREAM_KBITS : Field := { off := 0x408, lo := 0, width := 32, acc := .ro, stride := 16, count := 128 }

/-! ctxs (R419) -/
def CTXS_OPEN : Field := { off := 0x100, lo := 0, width := 11, acc := .ro }
def CTXS_RINSING : Field := { off := 0x104, lo := 0, width := 11, acc := .ro }
def CTXS_RINSE_LOAD_W : Field := { off := 0x108, lo := 0, width := 8, acc := .ro, rst := 12, rst2 := 6 }
def CTXS_RINSE_LINE_CLK : Field := { off := 0x10c, lo := 0, width := 4, acc := .ro, rst := 10 }
def CTXS_KEY_SLOTS_FREE : Field := { off := 0x110, lo := 0, width := 12, acc := .ro, rst := 1280 }
def CTXS_ENTRY_STATE : Field := { off := 0x800, lo := 28, width := 4, acc := .ro, stride := 4, count := 512 }
def CTXS_ENTRY_SEALED : Field := { off := 0x800, lo := 27, width := 1, acc := .ro, stride := 4, count := 512 }
def CTXS_ENTRY_FLOORS : Field := { off := 0x800, lo := 26, width := 1, acc := .ro, stride := 4, count := 512 }
def CTXS_ENTRY_C0_RES : Field := { off := 0x800, lo := 25, width := 1, acc := .ro, stride := 4, count := 512 }
def CTXS_ENTRY_DOM_VALID : Field := { off := 0x800, lo := 24, width := 1, acc := .ro, stride := 4, count := 512 }
def CTXS_ENTRY_DOMAIN : Field := { off := 0x800, lo := 16, width := 8, acc := .ro, stride := 4, count := 512 }
def CTXS_ENTRY_FUNC : Field := { off := 0x800, lo := 11, width := 5, acc := .ro, stride := 4, count := 512 }
def CTXS_ENTRY_BATCH_SHARE : Field := { off := 0x800, lo := 10, width := 1, acc := .ro, stride := 4, count := 512 }
def CTXS_ENTRY_RINSE_PROG : Field := { off := 0x800, lo := 6, width := 4, acc := .ro, stride := 4, count := 512 }

/-! gau (R444, R460) -/
def MBX_CMD_ADDR_LO : Field := { off := 0x100, lo := 0, width := 32, acc := .rw }
def MBX_CMD_ADDR_HI : Field := { off := 0x104, lo := 0, width := 32, acc := .rw }
def MBX_CMD_LEN : Field := { off := 0x108, lo := 0, width := 21, acc := .rw }
def MBX_RESP_ADDR_LO : Field := { off := 0x10c, lo := 0, width := 32, acc := .rw }
def MBX_RESP_ADDR_HI : Field := { off := 0x110, lo := 0, width := 32, acc := .rw }
def MBX_RESP_CAP : Field := { off := 0x114, lo := 0, width := 21, acc := .rw }
def MBX_GO : Field := { off := 0x118, lo := 0, width := 1, acc := .w1s }
def MBX_STAT_BUSY : Field := { off := 0x11c, lo := 31, width := 1, acc := .ro }
def MBX_STAT_DONE : Field := { off := 0x11c, lo := 30, width := 1, acc := .w1c }
def MBX_STAT_ACC_ERR : Field := { off := 0x11c, lo := 29, width := 1, acc := .w1c }
def MBX_STAT_STATUS : Field := { off := 0x11c, lo := 16, width := 8, acc := .ro }
def MBX_STAT_DETAIL : Field := { off := 0x11c, lo := 0, width := 16, acc := .ro }
def MBX_RESP_LEN : Field := { off := 0x120, lo := 0, width := 21, acc := .ro }
def GAU_HSS_TOP_END : Field := { off := 0x124, lo := 0, width := 16, acc := .ro }
def GAU_HSS_BOTTOM_USED : Field := { off := 0x128, lo := 0, width := 11, acc := .ro }
def GAU_LMS_BUDGET : Field := { off := 0x12c, lo := 0, width := 16, acc := .ro, rst := 360 }
def GAU_HB_S : Field := { off := 0x130, lo := 0, width := 8, acc := .ro, rst := 30 }
def GAU_SESSIONS : Field := { off := 0x134, lo := 0, width := 8, acc := .ro }
def GAU_CASK_SLOTS_FREE : Field := { off := 0x138, lo := 0, width := 9, acc := .ro, rst := 256 }
def GAU_PUBLISHERS : Field := { off := 0x13c, lo := 0, width := 6, acc := .ro }
def GAU_DEBUG_OPEN : Field := { off := 0x140, lo := 1, width := 1, acc := .ro }
def GAU_OWNER_SET : Field := { off := 0x140, lo := 0, width := 1, acc := .ro }
def FW_COMP_RUN_SLOT : Field := { off := 0x200, lo := 31, width := 1, acc := .ro, stride := 4, count := 7 }
def FW_COMP_STATE_A : Field := { off := 0x200, lo := 29, width := 2, acc := .ro, stride := 4, count := 7 }
def FW_COMP_STATE_B : Field := { off := 0x200, lo := 27, width := 2, acc := .ro, stride := 4, count := 7 }
def FW_COMP_PEND : Field := { off := 0x200, lo := 26, width := 1, acc := .ro, stride := 4, count := 7 }
def FW_COMP_STAGING : Field := { off := 0x200, lo := 25, width := 1, acc := .ro, stride := 4, count := 7 }
def FW_COMP_FUSED_SVN : Field := { off := 0x200, lo := 16, width := 6, acc := .ro, stride := 4, count := 7 }
def FW_COMP_EPOCH : Field := { off := 0x200, lo := 0, width := 16, acc := .ro, stride := 4, count := 7 }
def FW_ROM_SVN : Field := { off := 0x21c, lo := 0, width := 6, acc := .ro }
def FW_ACT_BUSY : Field := { off := 0x240, lo := 31, width := 1, acc := .ro }
def FW_ACT_COMP : Field := { off := 0x240, lo := 28, width := 3, acc := .ro }
def FW_ACT_PHASE : Field := { off := 0x240, lo := 24, width := 2, acc := .ro }
def FW_ACT_PIDX : Field := { off := 0x240, lo := 0, width := 24, acc := .ro }
def FW_STAGE_KIB : Field := { off := 0x244, lo := 0, width := 17, acc := .ro }
def FW_LAST_BOOT_FALLBACK : Field := { off := 0x248, lo := 1, width := 1, acc := .ro }
def FW_LAST_BOOT_RECOVERY : Field := { off := 0x248, lo := 0, width := 1, acc := .ro }

/-! recovery (R459) -/
def REC_ADDR_LO : Field := { off := 0x100, lo := 0, width := 32, acc := .rw }
def REC_ADDR_HI : Field := { off := 0x104, lo := 0, width := 32, acc := .rw }
def REC_LEN : Field := { off := 0x108, lo := 0, width := 26, acc := .rw }
def REC_SLOT : Field := { off := 0x10c, lo := 3, width := 1, acc := .rw }
def REC_COMP : Field := { off := 0x10c, lo := 0, width := 3, acc := .rw }
def REC_GO : Field := { off := 0x110, lo := 0, width := 1, acc := .act }
def REC_STAT_BUSY : Field := { off := 0x114, lo := 31, width := 1, acc := .ro }
def REC_STAT_DONE : Field := { off := 0x114, lo := 30, width := 1, acc := .w1c }
def REC_STAT_STATUS : Field := { off := 0x114, lo := 16, width := 8, acc := .ro }
def REC_CAUSE_STRAP : Field := { off := 0x118, lo := 7, width := 1, acc := .ro }
def REC_CAUSE_NO_VALID : Field := { off := 0x118, lo := 0, width := 7, acc := .ro }

/-! bist (R474) -/
def BIST_CFG_ANALOG_EN : Field := { off := 0x100, lo := 1, width := 1, acc := .rw, rst := 1 }
def BIST_CFG_EN : Field := { off := 0x100, lo := 0, width := 1, acc := .rw, rst := 1 }
def BIST_PASS_HOURS : Field := { off := 0x104, lo := 0, width := 8, acc := .rw, rst := 24 }
def BIST_DEFER_MS : Field := { off := 0x108, lo := 0, width := 10, acc := .rw, rst := 10 }
def BIST_PASS_POS : Field := { off := 0x10c, lo := 0, width := 24, acc := .rws }
def BIST_PASS_SLICES : Field := { off := 0x110, lo := 0, width := 24, acc := .ro }
def BIST_PASSES : Field := { off := 0x114, lo := 0, width := 16, acc := .rws }
def BIST_LAST_FAIL_TYPE : Field := { off := 0x118, lo := 24, width := 8, acc := .ro }
def BIST_LAST_FAIL_DIE : Field := { off := 0x118, lo := 20, width := 4, acc := .ro }
def BIST_LAST_FAIL_INST : Field := { off := 0x118, lo := 0, width := 20, acc := .ro }
def BIST_REQ_GO : Field := { off := 0x11c, lo := 31, width := 1, acc := .act }
def BIST_REQ_TYPE : Field := { off := 0x11c, lo := 23, width := 8, acc := .act }
def BIST_REQ_DIE : Field := { off := 0x11c, lo := 20, width := 3, acc := .act }
def BIST_REQ_INST : Field := { off := 0x11c, lo := 0, width := 20, acc := .act }
def BIST_COMPUTE : Field := { off := 0x120, lo := 0, width := 14, acc := .ro, rst := 10000 }
def BIST_MEMORY : Field := { off := 0x124, lo := 0, width := 14, acc := .ro, rst := 10000 }
def BIST_RECORD_FREE : Field := { off := 0x128, lo := 0, width := 14, acc := .ro, rst := 8192 }
def BIST_SUSPECT : Field := { off := 0x12c, lo := 0, width := 16, acc := .ro }

/-! host (R499) -/
def HOST_LINK_UP : Field := { off := 0x100, lo := 8, width := 1, acc := .ro }
def HOST_LINK_SPEED : Field := { off := 0x100, lo := 4, width := 4, acc := .ro }
def HOST_LINK_WIDTH : Field := { off := 0x100, lo := 0, width := 4, acc := .ro }
def HOST_LANE_EXCL : Field := { off := 0x104, lo := 0, width := 8, acc := .ro }
def HOST_VFS_EN : Field := { off := 0x108, lo := 0, width := 5, acc := .ro }
def HOST_POLL_US : Field := { off := 0x10c, lo := 0, width := 10, acc := .rw, rst := 50 }
def HOST_DMA_W_CASK : Field := { off := 0x110, lo := 8, width := 4, acc := .rw, rst := 4 }
def HOST_DMA_W_CELLAR : Field := { off := 0x110, lo := 4, width := 4, acc := .rw, rst := 4 }
def HOST_DMA_W_DATA : Field := { off := 0x110, lo := 0, width := 4, acc := .rw, rst := 8 }
def HOST_CELLAR_RANGES : Field := { off := 0x114, lo := 0, width := 7, acc := .ro }
def HOST_CELLAR_BLOCKS_FREE : Field := { off := 0x118, lo := 0, width := 24, acc := .ro }

/-! intake (R500) -/
def INTAKE_MAX : Field := { off := 0x100, lo := 0, width := 9, acc := .rw, rst := 256 }
def INTAKE_RINGS : Field := { off := 0x104, lo := 0, width := 13, acc := .ro }
def INTAKE_CQ_RINGS : Field := { off := 0x108, lo := 0, width := 13, acc := .ro }
def INTAKE_CQ_BLOCKED : Field := { off := 0x10c, lo := 0, width := 13, acc := .ro }

/-! keg (R519) -/
def KEG_STATE : Field := { off := 0x100, lo := 0, width := 3, acc := .ro }
def KEG_PEER_CAB : Field := { off := 0x114, lo := 8, width := 6, acc := .ro }
def KEG_PEER_LINK : Field := { off := 0x114, lo := 0, width := 3, acc := .ro }
def KEG_LOSS_US : Field := { off := 0x118, lo := 0, width := 7, acc := .rw, rst := 20 }
def KEG_LANES_OK : Field := { off := 0x11c, lo := 0, width := 4, acc := .ro }
def KEG_SUSPECT : Field := { off := 0x120, lo := 0, width := 16, acc := .rws }
def KEG_PROVEN : Field := { off := 0x124, lo := 0, width := 16, acc := .rws }
def KEG_JOBS : Field := { off := 0x128, lo := 0, width := 7, acc := .ro }
def KEG_PEER_HASH : Field := { off := 0x104, lo := 0, width := 32, acc := .ro, stride := 4, count := 4 }

/-! col (R520) -/
def COL_JOBS : Field := { off := 0x100, lo := 0, width := 7, acc := .ro }
def COL_OPS_ARMED : Field := { off := 0x104, lo := 0, width := 8, acc := .ro }

/-! cab (R521) -/
def CAB_INDEX_VALID : Field := { off := 0x100, lo := 31, width := 1, acc := .act }
def CAB_INDEX : Field := { off := 0x100, lo := 0, width := 6, acc := .act }
def CAB_EPOCH : Field := { off := 0x104, lo := 0, width := 32, acc := .ro }
def CAB_QUORUM : Field := { off := 0x110, lo := 9, width := 1, acc := .ro }
def CAB_FENCED : Field := { off := 0x110, lo := 8, width := 1, acc := .ro }
def CAB_ANCHOR : Field := { off := 0x110, lo := 0, width := 6, acc := .ro }
def CAB_ROUTE_VALID : Field := { off := 0x200, lo := 31, width := 1, acc := .ro, stride := 4, count := 64 }
def CAB_ROUTE_FIXED : Field := { off := 0x200, lo := 30, width := 1, acc := .ro, stride := 4, count := 64 }
def CAB_ROUTE_LINK : Field := { off := 0x200, lo := 0, width := 3, acc := .ro, stride := 4, count := 64 }
def CAB_MEMBERS : Field := { off := 0x108, lo := 0, width := 32, acc := .ro, stride := 4, count := 2 }
def CAB_REACH : Field := { off := 0x114, lo := 0, width := 32, acc := .ro, stride := 4, count := 2 }

/-! power (R537) -/
def PWR_VIN_MV : Field := { off := 0x100, lo := 0, width := 16, acc := .ro }
def PWR_IIN_MA : Field := { off := 0x104, lo := 0, width := 17, acc := .ro }
def PWR_PIN_W : Field := { off := 0x108, lo := 0, width := 10, acc := .ro }
def PWR_RAMP_W_PER_MS : Field := { off := 0x10c, lo := 0, width := 8, acc := .ro, rst := 20 }
def PWR_CAP_W : Field := { off := 0x110, lo := 0, width := 10, acc := .ro, rst := 640, rst2 := 360 }
def PWR_ORPHAN_CAP_W : Field := { off := 0x114, lo := 0, width := 10, acc := .ro, rst := 320, rst2 := 180 }
def PWR_ALERT_CAP_W : Field := { off := 0x118, lo := 0, width := 10, acc := .ro, rst := 240, rst2 := 135 }
def PWR_SHED_W : Field := { off := 0x11c, lo := 0, width := 10, acc := .ro, rst := 160, rst2 := 90 }
def PWR_C0_STANDING_W : Field := { off := 0x120, lo := 0, width := 10, acc := .rw }
def PWR_CEILING_W : Field := { off := 0x124, lo := 0, width := 10, acc := .ro, rst := 640, rst2 := 360 }
def PWR_STATUS_C0_OK : Field := { off := 0x128, lo := 6, width := 1, acc := .ro }
def PWR_STATUS_C0_THROTTLED : Field := { off := 0x128, lo := 5, width := 1, acc := .ro }
def PWR_STATUS_SHED : Field := { off := 0x128, lo := 4, width := 1, acc := .ro }
def PWR_STATUS_ORPHAN : Field := { off := 0x128, lo := 3, width := 1, acc := .ro }
def PWR_STATUS_ALERT_CAP : Field := { off := 0x128, lo := 2, width := 1, acc := .ro }
def PWR_STATUS_RAMP_LIMIT : Field := { off := 0x128, lo := 1, width := 1, acc := .ro }
def PWR_STATUS_PULL : Field := { off := 0x128, lo := 0, width := 1, acc := .ro }
def PWR_IDLE_64 : Field := { off := 0x12c, lo := 0, width := 6, acc := .ro }

/-! thermal (R537) -/
def THM_HOT_C : Field := { off := 0x100, lo := 0, width := 8, acc := .ro }
def THM_HOT_SENSOR : Field := { off := 0x104, lo := 0, width := 8, acc := .ro }
def THM_INLET_C : Field := { off := 0x108, lo := 0, width := 8, acc := .ro }
def THM_OUTLET_C : Field := { off := 0x10c, lo := 0, width := 8, acc := .ro }
def THM_THROTTLE_C : Field := { off := 0x110, lo := 0, width := 8, acc := .ro, rst := 105 }
def THM_IDLE_64 : Field := { off := 0x114, lo := 0, width := 6, acc := .ro }
def THM_STATUS_TRIP_LAST : Field := { off := 0x118, lo := 3, width := 1, acc := .ro }
def THM_STATUS_ALERT_IN : Field := { off := 0x118, lo := 2, width := 1, acc := .ro }
def THM_STATUS_COOLANT_OK : Field := { off := 0x118, lo := 1, width := 1, acc := .ro }
def THM_STATUS_THROTTLING : Field := { off := 0x118, lo := 0, width := 1, acc := .ro }
def THM_SENSOR_C : Field := { off := 0x200, lo := 0, width := 8, acc := .ro, stride := 4, count := 56 }

/-! mgmt (R537) -/
def MGMT_SMB_ADDR : Field := { off := 0x100, lo := 0, width := 7, acc := .ro, rst := 96 }
def MGMT_HB_REQUIRED : Field := { off := 0x104, lo := 8, width := 1, acc := .ro, rst := 1 }
def MGMT_HB_LIMIT_S : Field := { off := 0x104, lo := 0, width := 8, acc := .ro, rst := 5 }
def MGMT_HB_AGE_MS : Field := { off := 0x108, lo := 0, width := 32, acc := .ro }
def MGMT_MATE : Field := { off := 0x10c, lo := 0, width := 2, acc := .ro }

/-! cev (R415) -/
def CEV_REC_WR : Field := { off := 0x100, lo := 0, width := 32, acc := .ro }
def CEV_REC_RD : Field := { off := 0x104, lo := 0, width := 32, acc := .rw }
def CEV_REC : Field := { off := 0x400, lo := 0, width := 32, acc := .ro, stride := 4, count := 256 }

/-! The live 64-bit counters of the counter page: the offset of the LO half (R34, R414). -/
def CNT_STEPS : Nat := 0x100
def CNT_TOKENS : Nat := 0x108
def CNT_PROMPT : Nat := 0x110
def CNT_RECOMP : Nat := 0x118
def CNT_DETECT : Nat := 0x120
def CNT_LATE : Nat := 0x128
def CNT_NUM_SAT : Nat := 0x130
def CNT_EMPTY_ROWS : Nat := 0x138
def CNT_NAN_ROWS : Nat := 0x140
def CNT_SKIMMED : Nat := 0x148
def CNT_SPILLED : Nat := 0x150
def CNT_FETCHED : Nat := 0x158
def CNT_MILL_JOBS : Nat := 0x160

end F

/-- The common header of every page (R37). -/
def headerFields : List Field :=
  [F.PAGE_ID_TYPE, F.PAGE_ID_DIE, F.PAGE_ID_INST, F.PAGE_VER_MAJOR, F.PAGE_VER_MINOR, F.CAPS, F.CTRL, F.STATUS_BLOCK, F.STATUS_LOCKED, F.STATUS_SVC, F.EVT_EN, F.EVT_PEND, F.FAULT_CAPT_VALID, F.FAULT_CAPT_MORE, F.FAULT_CAPT_CTX, F.FAULT_CAPT_CTX_VALID, F.FAULT_CAPT_CODE, F.FAULT_LOC, F.FAULT_TICK_LO, F.FAULT_TICK_HI, F.SNAP_SEQ, F.SNAP_TICK_LO, F.SNAP_TICK_HI_FREE_RUN, F.SNAP_TICK_HI_FORCED, F.SNAP_TICK_HI_TICK, F.OWNER_CTX_VALID, F.OWNER_CTX, F.OWNER_PT_SLOT, F.OWNER_FUNC, F.CHILD_SUM, F.LOCK_GAUGER_LOCKED, F.LOCK_LOCKED, F.EVT_RAW, F.SNAP_CTR]

/-- The block registers of a page kind. -/
def blockFields : PageKind → List Field
  | .mod => [F.MOD_DIE_SVC, F.MOD_DIE_PRESENT, F.MOD_STREAM_CTX, F.MOD_CODEC_SVC, F.MOD_CODEC_PRESENT, F.MOD_KEG_SVC, F.MOD_KEG_PRESENT, F.MOD_VATS_PHYS, F.MOD_VATS_SVC, F.MOD_TUNS_SVC, F.MOD_FLOORS_PHYS, F.MOD_FLOORS_SVC, F.MOD_LPDDR_CH_SVC, F.MOD_MEM_USABLE_MIB, F.MOD_FLOOR_STORE_MIB, F.MOD_VAT_STORE_MIB, F.MOD_GRADE, F.MOD_FIXED_SVC, F.MOD_RQT_ENTRIES, F.MOD_CONTEXTS, F.MOD_SPILES, F.MOD_ACC_ERR_VALID, F.MOD_ACC_ERR_ADDR, F.MOD_ACC_ERR_BAR2, F.MOD_ACC_ERR_FUNC, F.MOD_RESET_CAUSE, F.MOD_START_MS, F.MOD_START_PHASE]
  | .snap => [F.SNAP_TGT_LO, F.SNAP_TGT_HI, F.SNAP_CANCEL, F.SNAP_NOW, F.SNAP_ARM, F.SNAP_INCOMPLETE, F.SNAP_MISSED, F.SNAP_DONE, F.SNAP_ARMED, F.SNAP_LAST_SEQ, F.SNAP_MISS_UNITS]
  | .evt => [F.EVT_ROOT_EN, F.EVT_REARM]
  | .ctxs => [F.CTXS_OPEN, F.CTXS_RINSING, F.CTXS_RINSE_LOAD_W, F.CTXS_RINSE_LINE_CLK, F.CTXS_KEY_SLOTS_FREE, F.CTXS_ENTRY_STATE, F.CTXS_ENTRY_SEALED, F.CTXS_ENTRY_FLOORS, F.CTXS_ENTRY_C0_RES, F.CTXS_ENTRY_DOM_VALID, F.CTXS_ENTRY_DOMAIN, F.CTXS_ENTRY_FUNC, F.CTXS_ENTRY_BATCH_SHARE, F.CTXS_ENTRY_RINSE_PROG]
  | .bist => [F.BIST_CFG_ANALOG_EN, F.BIST_CFG_EN, F.BIST_PASS_HOURS, F.BIST_DEFER_MS, F.BIST_PASS_POS, F.BIST_PASS_SLICES, F.BIST_PASSES, F.BIST_LAST_FAIL_TYPE, F.BIST_LAST_FAIL_DIE, F.BIST_LAST_FAIL_INST, F.BIST_REQ_GO, F.BIST_REQ_TYPE, F.BIST_REQ_DIE, F.BIST_REQ_INST, F.BIST_COMPUTE, F.BIST_MEMORY, F.BIST_RECORD_FREE, F.BIST_SUSPECT]
  | .cab => [F.CAB_INDEX_VALID, F.CAB_INDEX, F.CAB_EPOCH, F.CAB_QUORUM, F.CAB_FENCED, F.CAB_ANCHOR, F.CAB_ROUTE_VALID, F.CAB_ROUTE_FIXED, F.CAB_ROUTE_LINK, F.CAB_MEMBERS, F.CAB_REACH]
  | .tbase => [F.TBASE_CFG_LINE_B_EN, F.TBASE_CFG_LINE_A_EN, F.TBASE_CFG_SRC_CHECK, F.TBASE_CFG_PRIMARY, F.TBASE_CFG_PERIOD_MODE, F.TBASE_CFG_ENABLE, F.TBASE_PERIOD_TICKS, F.TBASE_PHASE_LO, F.TBASE_PHASE_HI, F.TBASE_SRC_ID, F.TBASE_STALL_GUARD_US, F.TBASE_RATE_TOL, F.TBASE_LOCK_PERIODS, F.TBASE_FLY_CLASSES, F.TBASE_LAG_WARN, F.TBASE_TICK_LO, F.TBASE_TICK_HI, F.TBASE_PERIOD_IDX, F.TBASE_SLOT, F.TBASE_PERIOD_CLK, F.TBASE_SLOT_CLK, F.TBASE_LAG, F.TBASE_MISS_PERIODS, F.TBASE_SRC_SEEN, F.TBASE_LINE_OK, F.TBASE_SLOT_TBL_SEL_PEND, F.TBASE_SLOT_TBL_SEL_ACTIVE, F.TBASE_SLOT_SW_CANCEL, F.TBASE_SLOT_SW_REQ, F.SLOT_TBL]
  | .cm => [F.CM_CLAIM_LAST, F.CM_CLAIM, F.CM_DROPS_24H, F.CM_DROP_CAUSE, F.CM_ROLE, F.CM_HEALTH_GOOD_COPIES, F.CM_HEALTH_SRAM_OK, F.CM_HEALTH_CLK_OK, F.CM_HEALTH_FW_MATCH, F.CM_HEALTH_DIAG_OK, F.CM_HEALTH_BIST_OK, F.CM_COPY_PIDX, F.CM_HB_US, F.CM_TAKEBACK_PERIODS, F.CM_TAKEBACK_EN, F.CM_PLANNED, F.CM_YIELD]
  | .rqt => [F.RQT_CFG_C0_UNBOUND, F.RQT_CFG_CHUNK_DEFAULT, F.RQT_LATCH_IDX_GO, F.RQT_LATCH_IDX_DONE, F.RQT_LATCH_IDX_IDX, F.RQT_CANCEL_GO, F.RQT_CANCEL_IDX, F.RQT_FREE, F.RQT_C0_HELD_ENTRIES, F.RQT_STATE_CNT, F.RQT_RES_VALID, F.RQT_RES_SUSPENDED, F.RQT_RES_START, F.RQT_RES_G, F.RQT_RES_CTX, F.RQT_RES_BSTEP, F.RQT_RES_BOUND_CLK, F.RQT_RES_ENTRIES, F.RQT_LATCH]
  | .host => [F.HOST_LINK_UP, F.HOST_LINK_SPEED, F.HOST_LINK_WIDTH, F.HOST_LANE_EXCL, F.HOST_VFS_EN, F.HOST_POLL_US, F.HOST_DMA_W_CASK, F.HOST_DMA_W_CELLAR, F.HOST_DMA_W_DATA, F.HOST_CELLAR_RANGES, F.HOST_CELLAR_BLOCKS_FREE]
  | .intake => [F.INTAKE_MAX, F.INTAKE_RINGS, F.INTAKE_CQ_RINGS, F.INTAKE_CQ_BLOCKED]
  | .gau => [F.MBX_CMD_ADDR_LO, F.MBX_CMD_ADDR_HI, F.MBX_CMD_LEN, F.MBX_RESP_ADDR_LO, F.MBX_RESP_ADDR_HI, F.MBX_RESP_CAP, F.MBX_GO, F.MBX_STAT_BUSY, F.MBX_STAT_DONE, F.MBX_STAT_ACC_ERR, F.MBX_STAT_STATUS, F.MBX_STAT_DETAIL, F.MBX_RESP_LEN, F.GAU_HSS_TOP_END, F.GAU_HSS_BOTTOM_USED, F.GAU_LMS_BUDGET, F.GAU_HB_S, F.GAU_SESSIONS, F.GAU_CASK_SLOTS_FREE, F.GAU_PUBLISHERS, F.GAU_DEBUG_OPEN, F.GAU_OWNER_SET, F.FW_COMP_RUN_SLOT, F.FW_COMP_STATE_A, F.FW_COMP_STATE_B, F.FW_COMP_PEND, F.FW_COMP_STAGING, F.FW_COMP_FUSED_SVN, F.FW_COMP_EPOCH, F.FW_ROM_SVN, F.FW_ACT_BUSY, F.FW_ACT_COMP, F.FW_ACT_PHASE, F.FW_ACT_PIDX, F.FW_STAGE_KIB, F.FW_LAST_BOOT_FALLBACK, F.FW_LAST_BOOT_RECOVERY]
  | .codec => [F.ENG_BUSY, F.ENG_MODE, F.ENG_STREAM, F.ENG_CHARGE_CLK, F.ENG_LAST_STREAM]
  | .sched => [F.SCH_MODE, F.SCH_STREAMS_OPEN, F.SCH_POLL_US, F.SCH_OVL_ENTER_US, F.SCH_OVL_EXIT_MS, F.SCH_READY, F.SCH_OLDEST_WAIT_US, F.SCH_ENG_SVC]
  | .mill => [F.MILL_QUEUED_C3, F.MILL_QUEUED_C2, F.MILL_QUEUED_C1, F.MILL_QUEUED_C0, F.MILL_SUSP_PRE, F.MILL_SUSP_ARRAY, F.MILL_PRE_BUSY, F.MILL_ARRAY_BUSY, F.MILL_ARRAY_CTX, F.MILL_PRE_CTX, F.MILL_CHAINS, F.MILL_TILE_CLK]
  | .mgmt => [F.MGMT_SMB_ADDR, F.MGMT_HB_REQUIRED, F.MGMT_HB_LIMIT_S, F.MGMT_HB_AGE_MS, F.MGMT_MATE]
  | .power => [F.PWR_VIN_MV, F.PWR_IIN_MA, F.PWR_PIN_W, F.PWR_RAMP_W_PER_MS, F.PWR_CAP_W, F.PWR_ORPHAN_CAP_W, F.PWR_ALERT_CAP_W, F.PWR_SHED_W, F.PWR_C0_STANDING_W, F.PWR_CEILING_W, F.PWR_STATUS_C0_OK, F.PWR_STATUS_C0_THROTTLED, F.PWR_STATUS_SHED, F.PWR_STATUS_ORPHAN, F.PWR_STATUS_ALERT_CAP, F.PWR_STATUS_RAMP_LIMIT, F.PWR_STATUS_PULL, F.PWR_IDLE_64]
  | .thermal => [F.THM_HOT_C, F.THM_HOT_SENSOR, F.THM_INLET_C, F.THM_OUTLET_C, F.THM_THROTTLE_C, F.THM_IDLE_64, F.THM_STATUS_TRIP_LAST, F.THM_STATUS_ALERT_IN, F.THM_STATUS_COOLANT_OK, F.THM_STATUS_THROTTLING, F.THM_SENSOR_C]
  | .die => []
  | .lpg => [F.LPG_CH_SVC, F.LPG_CH_RETIRED, F.LPG_RETIRE_THRESH, F.LPG_PATROL_HOURS, F.LPG_PATROL_EN, F.LPG_PATROL_POS, F.LPG_PATROL_PASSES, F.LPG_KEYS_INSTALLED]
  | .keg => [F.KEG_STATE, F.KEG_PEER_CAB, F.KEG_PEER_LINK, F.KEG_LOSS_US, F.KEG_LANES_OK, F.KEG_SUSPECT, F.KEG_PROVEN, F.KEG_JOBS, F.KEG_PEER_HASH]
  | .col => [F.COL_JOBS, F.COL_OPS_ARMED]
  | .xlt => [F.XLT_LAB_ENTRIES, F.XLT_RSET_NOW, F.XLT_RET_LIST_VALID, F.XLT_RET_LIST_CH, F.XLT_SYS_FRAMES, F.XLT_SYS_FREE, F.XLT_RETIRED_FRAMES]
  | .kvw => [F.KVW_LAB_ENTRIES, F.KVW_PREFETCH_DEPTH, F.KVW_POOLS, F.KVW_PAGES_FREE, F.KVW_PAGES_CELLAR, F.KVW_PFX_HOME, F.KVW_PFX_USED, F.KVW_PFX_ENTRIES]
  | .att => [F.ATT_CFG_CAND_PERMIT, F.ATT_CFG_LKP_PERMIT, F.ATT_CFG_SKIM_PERMIT, F.ATT_LKP_WINDOW, F.ATT_JOBS_ACTIVE, F.ATT_VATS_AVAIL]
  | .floor => [F.FLOOR_VAT_MAP, F.FLOOR_IN_SVC, F.FLOOR_USABLE, F.FLOOR_SPARE, F.FLOOR_CFG_KEEP_TEST, F.FLOOR_CFG_ROT_EN, F.FLOOR_ROT_LIMIT_CLK, F.FLOOR_ROT_REQ_GO, F.FLOOR_ROT_REQ_VAT, F.FLOOR_ROT_STATUS_KIB, F.FLOOR_ROT_STATUS_IN, F.FLOOR_ROT_STATUS_OUT, F.FLOOR_ROT_STATUS_PHASE, F.FLOOR_LOAD_STATUS_BUSY, F.FLOOR_LOAD_STATUS_QUEUED, F.FLOOR_TAP_PRIO0, F.FLOOR_TAP_PRIO1_FAB_OUT, F.FLOOR_TAP_PRIO1_FAB_IN, F.FLOOR_TAP_PRIO1_MAINT, F.FLOOR_TAP_WDOG, F.FLOOR_TAP_FENCED, F.FLOOR_SEG_SPARES, F.FLOOR_SEG_PHYS, F.FLOOR_SEG_OWNER_VALID, F.FLOOR_SEG_OWNER_PINNED, F.FLOOR_SEG_OWNER_CLEARING, F.FLOOR_SEG_OWNER_CTX]
  | .vat => [F.VAT_STORE_MODE, F.VAT_RUN_CLK_HOLD, F.VAT_RUN_SUSPENDED, F.VAT_RUN_ACTIVE, F.VAT_RUN_SLOT, F.VAT_RUN_KID, F.VAT_LOGICAL, F.VAT_TUN_MAP_Q3, F.VAT_TUN_MAP_Q2, F.VAT_TUN_MAP_Q1, F.VAT_TUN_MAP_Q0, F.VAT_KSTORE_SLOTS, F.VAT_KSTORE_WORDS, F.VAT_DISPATCH_ARMED, F.VAT_C0_RES, F.VAT_BANK_OWNER_VALID, F.VAT_BANK_OWNER_PINNED, F.VAT_BANK_OWNER_CLEARING, F.VAT_BANK_OWNER_RETIRED, F.VAT_BANK_OWNER_CTX, F.VAT_BANKS_SVC]
  | .win => [F.WIN_EVT_SUM_LO, F.WIN_EVT_SUM_HI, F.WIN_SLOT_VALID, F.WIN_SLOT_CTX, F.WIN_REARM, F.WIN_CMDQ_ADDR_LO, F.WIN_CMDQ_ADDR_HI, F.WIN_CMDQ_EN, F.WIN_CMDQ_LOG2, F.WIN_CMDQ_VEC, F.WIN_AP_VALID, F.WIN_AP_RO, F.WIN_AP_SLOT, F.WIN_AP_VA_LO, F.WIN_AP_VA_HI]
  | .spl => [F.SPL_SEL, F.SPL_VALUE, F.SPL_CMD_SET, F.SPL_SEL_STATUS_MAPPED, F.SPL_SEL_STATUS_LOCAL, F.SPL_SEL_STATUS_OVF, F.SPL_SEL_STATUS_POISON, F.SPL_SEL_STATUS_WAITERS, F.SPL_SEL_PRESET, F.SPL_POST_SPILE, F.SPL_POST_AMOUNT, F.SPL_MAP_VALID, F.SPL_MAP_LOCAL, F.SPL_MAP_DIE, F.SPL_COUNT]
  | .cnt => [F.CNT_STREAM_PICS, F.CNT_STREAM_CONCEALED, F.CNT_STREAM_KBITS]
  | .cev => [F.CEV_REC_WR, F.CEV_REC_RD, F.CEV_REC]
  | .recovery => [F.REC_ADDR_LO, F.REC_ADDR_HI, F.REC_LEN, F.REC_SLOT, F.REC_COMP, F.REC_GO, F.REC_STAT_BUSY, F.REC_STAT_DONE, F.REC_STAT_STATUS, F.REC_CAUSE_STRAP, F.REC_CAUSE_NO_VALID]

end Sys2Proof.Machine
end

