-- ==== Sys2Proof/Machine/Pages.lean ====
section
/-! DEFINITION. The module map: page numbers, the kind and presence of each page, and where an access lands
(R6, R42, R44, R50). A page is numbered by its BAR0 offset / 4096; window, context and recovery pages are numbered
above BAR0 (assumption log 3). -/

namespace Sys2Proof.Machine

abbrev pgMOD : Nat := 0
abbrev pgSNAP : Nat := 1
abbrev pgEVT : Nat := 2
abbrev pgCTXS0 : Nat := 3
abbrev pgCTXS1 : Nat := 4
abbrev pgBIST : Nat := 5
abbrev pgCAB : Nat := 6
abbrev pgTBASE : Nat := 0x100
/-- The Cellarmaster page of unit A (0) or B (1). -/
abbrev pgCM (u : Nat) : Nat := 0x200 + 0x10 * u
abbrev pgRQT : Nat := 0x380
abbrev pgHOST : Nat := 0x400
abbrev pgINTAKE : Nat := 0x410
abbrev pgGAU : Nat := 0x500
abbrev pgCODEC (k : Nat) : Nat := 0x600 + 0x40 * k
abbrev pgSCHED : Nat := 0x601
abbrev pgMILL : Nat := 0x700
abbrev pgMGMT : Nat := 0x800
abbrev pgPOWER : Nat := 0x810
abbrev pgTHERMAL : Nat := 0x820
abbrev pgDIE (n : Nat) : Nat := 0x1000 + 0x1000 * n
abbrev pgLPG (n g : Nat) : Nat := pgDIE n + 0x10 + g
/-- Keg link `l`, on die l / 2 (R3). -/
abbrev pgKEG (l : Nat) : Nat := pgDIE (l / 2) + 0x20 + l % 2
abbrev pgCOL (n : Nat) : Nat := pgDIE n + 0x30
abbrev pgXLT (n : Nat) : Nat := pgDIE n + 0x40
abbrev pgKVW (n : Nat) : Nat := pgDIE n + 0x50
abbrev pgATT (n : Nat) : Nat := pgDIE n + 0x60
abbrev pgFLOOR (n f : Nat) : Nat := pgDIE n + 0x100 + 0x20 * f
/-- The page of PHYSICAL vat `v` of floor `f` of die `n`. -/
abbrev pgVAT (n f v : Nat) : Nat := pgFLOOR n f + 1 + v
abbrev pgWIN (fn : Nat) : Nat := 0x10000 + fn
abbrev pgSPL (c : Nat) : Nat := 0x20000 + 4 * c
abbrev pgCNT (c : Nat) : Nat := 0x20001 + 4 * c
abbrev pgCEV (c : Nat) : Nat := 0x20002 + 4 * c
abbrev pgREC : Nat := 0x30000

/-- The kind of page `p` of a Varrin die, by its offset from the die's first page (R44). -/
def diePageKind (o : Nat) : Option PageKind :=
  if o = 0 then some .die
  else if 0x10 ≤ o ∧ o < 0x14 then some .lpg
  else if 0x20 ≤ o ∧ o < 0x22 then some .keg
  else if o = 0x30 then some .col
  else if o = 0x40 then some .xlt
  else if o = 0x50 then some .kvw
  else if o = 0x60 then some .att
  else if 0x100 ≤ o ∧ o < 0x100 + 0x20 * 12 then
    if o % 0x20 = 0 then some .floor else if o % 0x20 ≤ 9 then some .vat else none
  else none

/-- The kind of the page numbered `p`, if the map names one there (R44, R395, R377, R378, R499, R537). -/
def pageKind (p : Nat) : Option PageKind :=
  if p = pgMOD then some .mod
  else if p = pgSNAP then some .snap
  else if p = pgEVT then some .evt
  else if p = pgCTXS0 ∨ p = pgCTXS1 then some .ctxs
  else if p = pgBIST then some .bist
  else if p = pgCAB then some .cab
  else if p = pgTBASE then some .tbase
  else if p = pgCM 0 ∨ p = pgCM 1 then some .cm
  else if p = pgRQT then some .rqt
  else if p = pgHOST then some .host
  else if p = pgINTAKE then some .intake
  else if p = pgGAU then some .gau
  else if p = pgSCHED then some .sched
  else if p = pgCODEC 0 ∨ p = pgCODEC 1 ∨ p = pgCODEC 2 ∨ p = pgCODEC 3 then some .codec
  else if p = pgMILL then some .mill
  else if p = pgMGMT then some .mgmt
  else if p = pgPOWER then some .power
  else if p = pgTHERMAL then some .thermal
  else if 0x1000 ≤ p ∧ p < 0x5000 then diePageKind (p % 0x1000)
  else if 0x10000 ≤ p ∧ p < 0x10020 then some .win
  else if 0x20000 ≤ p ∧ p < 0x21000 then
    (if p % 4 = 0 then some .spl else if p % 4 = 1 then some .cnt else if p % 4 = 2 then some .cev else none)
  else if p = pgREC then some .recovery
  else none

/-- Is the unit behind page `p` fitted on variant `v` (R3, R6)? -/
def pagePresent (v : Variant) (p : Nat) : Bool :=
  if 0x1000 ≤ p ∧ p < 0x5000 then decide ((p - 0x1000) / 0x1000 < v.dies)
  else if p = pgSCHED then decide (0 < v.codecs)
  else if 0x600 ≤ p ∧ p < 0x700 then decide ((p - 0x600) / 0x40 < v.codecs)
  else true

/-- Every page of BAR0 that variant `v` has, in rising order. -/
def bar0Pages (v : Variant) : List Nat :=
  [pgMOD, pgSNAP, pgEVT, pgCTXS0, pgCTXS1, pgBIST, pgCAB, pgTBASE, pgCM 0, pgCM 1, pgRQT, pgHOST, pgINTAKE, pgGAU]
    ++ (if v.codecs = 0 then [] else pgCODEC 0 :: pgSCHED :: ((List.range (v.codecs - 1)).map fun k => pgCODEC (k + 1)))
    ++ [pgMILL, pgMGMT, pgPOWER, pgTHERMAL]
    ++ (List.range v.dies).flatMap fun n =>
        pgDIE n :: ((List.range 0x280).map fun o => pgDIE n + o + 1).filter fun p => (diePageKind (p % 0x1000)).isSome

/-- The block type code of a page (R37). -/
def typeCode (p : Nat) : Nat :=
  match pageKind p with
  | none => 0
  | some k =>
    match k with
    | .mod => 0x01 | .snap => 0x02 | .evt => 0x03 | .ctxs => 0x04 | .recovery => 0x05 | .bist => 0x06 | .cab => 0x07
    | .tbase => 0x10 | .cm => if p = pgCM 0 then 0x11 else 0x12
    | .rqt => 0x13 | .host => 0x14 | .intake => 0x15 | .gau => 0x16 | .codec => 0x17 | .sched => 0x17 | .mgmt => 0x18
    | .power => 0x19 | .thermal => 0x1A | .mill => 0x1B
    | .die => 0x20 | .lpg => 0x21 | .keg => 0x22 | .col => 0x23 | .xlt => 0x24 | .kvw => 0x25 | .att => 0x26
    | .floor => 0x27 | .vat => 0x28 | .win => 0x30 | .spl => 0x31 | .cnt => 0x32 | .cev => 0x33

/-- `PAGE_ID.DIE`: the Varrin die, or 0xF for hub and BAR2 pages (R37). -/
def pageDie (p : Nat) : Nat := if 0x1000 ≤ p ∧ p < 0x5000 then (p - 0x1000) / 0x1000 else 0xF

/-- Where an access lands. -/
inductive Target where
  /-- a register page: page number, kind, offset within the page, and whether through a pass-through mapping -/
  | reg (pg : Nat) (k : PageKind) (off : Nat) (passThrough : Bool)
  /-- the request-table window: byte offset within it -/
  | rqtWin (off : Nat)
  /-- a page of an absent unit or unbound slot: reads zeros, ignores writes, raises nothing (R6) -/
  | absent
  /-- no page: reads zeros, ignores writes, raises ACCESS_ERR (R33) -/
  | unassigned
  deriving DecidableEq, Repr

/-- Where a PF access to BAR0 lands (R44). -/
def bar0Target (v : Variant) (off : Nat) : Target :=
  if 0x300 ≤ off / 4096 ∧ off / 4096 < 0x380 then .rqtWin (off - 0x300000)
  else if 0x10000 ≤ off / 4096 then .unassigned
  else match pageKind (off / 4096) with
    | none => .unassigned
    | some k => if pagePresent v (off / 4096) then .reg (off / 4096) k (off % 4096) false else .absent

end Sys2Proof.Machine
end

