-- ==== Sys2Proof/Machine/State.lean ====
section
/-! DEFINITION. The state of the module as plain data, and the state after power-on reset. -/

namespace Sys2Proof.Machine

/-- The snap machinery behind the SNAP page (R52, R53): the tick at arming, the units whose acknowledgement
is missing, whether a fired snap is not yet done, and the clock it fired at. -/
structure SnapSt where
  armT : Nat := 0
  unacked : Nat := 0
  busy : Bool := false
  fireClk : Nat := 0
  deriving DecidableEq, Repr

/-- A message the block has sent: what another party sees of it. -/
inductive Msg where
  /-- an MSI-X message of a function's vector (R493) -/
  | msix (fn vec : Nat)
  /-- a response to a host, SMBus, MCTP, PLDM, DOE or SPDM request: kind and payload words -/
  | reply (kind : Nat) (words : List Nat)
  /-- a message sent on a keg link: link, kind and payload words -/
  | keg (link kind : Nat) (words : List Nat)
  deriving DecidableEq, Repr

/-- The states of the time base (R61), `TBASE.STATUS.BLOCK` [18:16]. -/
inductive TbState where
  | idle | acquiring | locked | stalled | stallFly | holdover | freeRun
  deriving DecidableEq, Repr

/-- What the receiver keeps of a valid time-base frame (R57). -/
structure TbFrame where
  tick : Nat
  pidx : Nat
  pmark : Bool
  stall : Bool
  degraded : Bool
  src : Nat
  markOfs : Nat
  clk : Nat
  deriving DecidableEq, Repr

/-- The time-base receiver and tick tracking (R58–R79). `tickFx` is the interpolated tick with 16 fraction bits;
a rate `(n, d)` advances it by `n / d` fraction units a clock, `rem` being the remainder carried. -/
structure TimeBase where
  st : TbState := .idle
  tickFx : Nat := 0
  rem : Nat := 0
  loaded : Bool := false
  hold : Bool := false
  /-- the rate of the last measured period, in fraction units over clocks; none while d = 0 -/
  rate : Nat × Nat := (0, 0)
  /-- the rate that the last two used frames show -/
  frRate : Nat × Nat := (0, 0)
  /-- the rate adjustment of R79 in force until the next mark -/
  adj : Nat × Nat := (0, 0)
  lastA : Option Nat := none
  lastB : Option Nat := none
  winA : Option TbFrame := none
  winB : Option TbFrame := none
  lastUsed : Option TbFrame := none
  missRun : Nat := 0
  longMiss : Bool := false
  degraded : Bool := false
  /-- tick and clock of the current period's mark, its length in ticks, and the tick of the next mark -/
  markTick : Nat := 0
  markClk : Option Nat := none
  perTicks : Nat := 0
  nextMark : Nat := 0
  /-- a mark that a frame has signalled (MARK mode): its tick, the clock the tick passed it, its PIDX -/
  signalled : Option (Nat × Nat × Nat) := none
  lockRun : Nat := 0
  prevPeriod : Nat := 0
  /-- clocks at which the interpolated tick passed the tick values of the last frame interval (R61) -/
  hist : List (Nat × Nat) := []
  advClk : Nat := 0
  stallClk : Nat := 0
  /-- the clock from which a lost mark is waited for (R66), and the clock of the last mark of any kind -/
  markWait : Nat := 0
  lastMark : Nat := 0
  /-- the flywheel of STALL_FLY: the clock of its next mark and of its last, its slot -/
  flyNext : Nat := 0
  flyMark : Nat := 0
  flySlot : Nat := 0
  subMarks : Nat := 0
  /-- the second count of R79: its tick, the mark it last placed, and whether the lock condition has held -/
  frTick : Nat := 0
  frMarkClk : Option Nat := none
  frNextMark : Nat := 0
  frLockRun : Nat := 0
  frPrev : Nat := 0
  frLock : Bool := false
  deriving DecidableEq, Repr

/-! The vats and floors (R83–R112), and the steps they run -/

/-- A LOOP in progress (R86, R94): the first and last word of its body and the repeats left, this one included. -/
structure Loop where
  start : Nat
  last : Nat
  left : Nat
  deriving DecidableEq, Repr

/-- What an issued unit instruction marks until it completes (R92). -/
inductive Mark where
  | x (r : Nat)
  | v (r : Nat)
  | p (r : Nat)
  | acc (a : Nat)
  deriving DecidableEq, Repr

/-- An outstanding DMA (R86, R93): its direction, whether the other side is the floor store, the vat-store address, the other
address, the length and the virtual spile it posts. -/
structure Dma where
  out : Bool
  floorStore : Bool
  vatAddr : Nat
  ext : Nat
  bytes : Nat
  post : Option Nat
  deriving DecidableEq, Repr

/-- A wait or take that holds a front end (R145). -/
structure Hold where
  take : Bool
  v : Nat
  n : Nat
  deriving DecidableEq, Repr

/-- A kernel in a vat (R83, R84, R91–R95, R102). Unlisted registers and accumulators read 0. -/
structure Kernel where
  slot : Nat
  ctx : Nat
  cls : Nat
  step : Nat
  desc : Desc
  pc : Nat
  /-- scalar registers by number -/
  x : AMap Nat := []
  /-- vector lanes by 64 × register + lane -/
  v : AMap Nat := []
  /-- predicates by number -/
  p : AMap Nat := []
  /-- accumulator elements by 1,024 × set + 32 × row + column, and the kind of each set: true is INT (R123) -/
  acc : AMap Nat := []
  int0 : Bool := false
  int1 : Bool := false
  /-- loops in progress, innermost first -/
  loops : List Loop := []
  /-- clocks run before the last start or restore, and the clock of that -/
  ran : Nat := 0
  since : Nat := 0
  /-- the unit queues: the marks of each issued instruction, oldest first (R91, R92) -/
  tunQ : List (List Mark) := []
  vecQ : List (List Mark) := []
  lseQ : List (List Mark) := []
  dmas : List Dma := []
  hold : Option Hold := none
  /-- posts to non-LOCAL spiles, held until END (R153): virtual spile and amount -/
  heldPosts : List (Nat × Nat) := []
  /-- a release that arrived while the kernel was suspended, or whose take was satisfied before its withdrawal (R151) -/
  released : Bool := false
  deriving DecidableEq, Repr

/-- An armed dispatch entry (R101, R148): `arrived` once the release of its take has reached the vat. -/
structure Entry where
  slot : Nat
  cls : Nat
  ctx : Nat
  spile : Nat
  thresh : Nat
  words : List Nat
  step : Nat
  arrived : Bool := false
  ready : Bool := false
  deriving DecidableEq, Repr

/-- A physical vat: its kernel store, its dispatch entries, its kernels. Code words and descriptors not listed read 0. -/
structure Vat where
  code : AMap Nat := []
  descs : AMap Desc := []
  entries : AMap Entry := []
  kern : Option Kernel := none
  susp : Option Kernel := none
  suspClk : Nat := 0
  /-- kernels that were ended early, their DMAs still draining (R134) -/
  drain : List Kernel := []
  /-- issue held under R23, by a shed or by a power step -/
  clkHold : Bool := false
  /-- detections by quadrant × 17 + tun column, and by 128 + bank, with their clocks (R107, R176) -/
  dets : List (Nat × Nat) := []
  /-- bank fills in progress: bank, the owner to come (none: release), PINNED to come -/
  fills : List (Nat × Option Nat × Bool) := []
  /-- the fill of the whole store after a swap, a failed rotation or a passed slice, in progress -/
  zeroing : Bool := false
  deriving DecidableEq, Repr

/-- A floor's loader, rotation and Tap (R98, R99, R108–R112, R181–R187). -/
structure FloorSt where
  loads : List LoadJob := []
  cur : Option LoadJob := none
  curRetried : Bool := false
  /-- armings that wait for a load of their slot, oldest first (R99) -/
  arms : List ArmReq := []
  /-- rotation requests that wait: the outgoing vat, 0xF for the next in order; early ones apart -/
  reqs : List Nat := []
  early : List Nat := []
  rotClk : Nat := 0
  rotEarly : Bool := false
  /-- segment fills in progress, as for banks -/
  fills : List (Nat × Option Nat × Bool) := []
  /-- detections by physical segment with their clocks -/
  dets : List (Nat × Nat) := []
  /-- Tap: each port's last granted burst and the clock of its grant, and the pending entries, oldest first -/
  bursts : AMap (TapReq × Nat) := []
  tapQ : List TapReq := []
  /-- clock at which a port last granted a requester, by port × 16 + requester -/
  granted : AMap Nat := []
  /-- floor release for self-test under R314: 0 none, 1 asked, 2 proceeding -/
  release : Nat := 0
  deriving DecidableEq, Repr

/-- What a step does for one request of the table (R302): its index; the prompt tokens of its chunk, 0 for a decode; the page a recompute
chunk rebuilds (die slot, layer, position); the generation slot it reads; what it latched (R220, R293): options word, candidates as
TOKEN, PARENT and Q, and the 64 bytes of the parameter block, none where they did not translate; and, once it left the step, the status
that the request ends with when the step's join is released. -/
structure Member where
  idx : Nat
  chunk : Nat := 0
  rebuild : Option (Nat × Nat × Nat) := none
  slot : Nat := 0
  opt : Nat := 0
  tree : List (Nat × Nat × Nat) := []
  params : List Nat := []
  /-- the explicit mask descriptor (R232): EXPL_VA, base, length, stride, outside; and that it was outside its limits -/
  expl : List Nat := []
  explBad : Bool := false
  out : Option Nat := none
  deriving DecidableEq, Repr

/-- A step (R149, R153, R154, R302): what the Cellarmaster arms and plans for it and how far it is. -/
structure Step where
  ctx : Nat := 0
  cls : Nat := 0
  model : Nat := 0
  start : Nat := 0
  glen : Nat := 0
  /-- start posts: virtual spile and amount -/
  posts : List (Nat × Nat) := []
  join : Nat := 0
  thresh : Nat := 0
  locals : List Nat := []
  arms : List ArmReq := []
  started : Bool := false
  startClk : Nat := 0
  /-- clock at which the last edge of the step's group fired (R73) -/
  edgeClk : Option Nat := none
  joined : Bool := false
  status : Nat := 0
  code : Nat := 0
  denied : Bool := false
  detections : Nat := 0
  recomputed : Bool := false
  draining : Bool := false
  /-- takes from non-LOCAL spiles in this run: virtual spile and amount (R153) -/
  takes : List (Nat × Nat) := []
  members : List Member := []
  /-- the members have latched options and candidates at the first layer start (R220) -/
  latched : Bool := false
  /-- the job whose collectives the step takes part in, the RERUNs of the step, and the detections that have been told to the members (R509) -/
  job : Option Nat := none
  reruns : Nat := 0
  announced : Nat := 0
  /-- the step was selected at a group's edge: reservation it runs against -/
  resv : Option Nat := none
  deriving DecidableEq, Repr


/-! Spiles (R136–R161) -/

/-- Who holds a waiter record or receives a release (R140). -/
inductive Who where
  | front (pg : Nat) (class0 : Bool)
  | entry (pg e : Nat)
  | join (step : Nat)
  | coll (n op : Nat)
  | att (n k : Nat)
  deriving DecidableEq, Repr

/-- An operation on its way to a home engine (R136, R148). A withdrawal names the amount of its take, which goes back to the spile
if the take was satisfied already and `back` is set. -/
inductive SpOp where
  | post (n : Nat)
  | wait (n : Nat) (w : Who)
  | take (n : Nat) (w : Who)
  | withdraw (n : Nat) (w : Who) (back : Bool)
  deriving DecidableEq, Repr

/-- A spile message: the port it comes from (a vat page; 0 the issue gate; 1 + die a collective engine; 5 + die an attention
block), the context and virtual number, and the physical spile its requester's map gave. -/
structure SpMsg where
  port : Nat
  ctx : Nat
  v : Nat
  phys : Nat
  op : SpOp
  deriving DecidableEq, Repr

/-- A physical spile (R136, R137). -/
structure Spile where
  count : Nat := 0
  preset : Nat := 0
  ovf : Bool := false
  deriving DecidableEq, Repr

/-- A registered wait or take (R137). -/
structure Waiter where
  phys : Nat
  ctx : Nat
  w : Who
  take : Bool
  n : Nat
  deriving DecidableEq, Repr

/-- An entry of a context's spile map (R141): home die, physical group, LOCAL. -/
structure SpMap where
  die : Nat
  group : Nat
  isLocal : Bool
  deriving DecidableEq, Repr

/-- The spile engines. Physical spiles are numbered die × 4,096 + group × 16 + offset; map entries context × 32 + group. -/
structure SplSt where
  spiles : AMap Spile := []
  maps : AMap SpMap := []
  /-- poisoned physical groups: the spiles of each not yet set again (R155), by die × 256 + group -/
  poison : AMap Nat := []
  /-- registered waiters, oldest first -/
  waiters : List Waiter := []
  /-- messages on their way to the engines, oldest first -/
  flight : List SpMsg := []
  /-- releases on their way to their waiters: the waiter, the physical spile, the amount taken -/
  rels : List (Who × Nat × Nat) := []
  deriving DecidableEq, Repr


/-! Main memory (R190–R219) -/

/-- A frame-table entry (R200); an unlisted frame is free. -/
structure Frame where
  otype : Nat
  owner : Nat
  kind : Nat
  pinned : Bool := false
  clearing : Bool := false
  detect : Nat := 0
  maps : Nat := 0
  pend : Bool := false
  va : Nat := 0
  deriving DecidableEq, Repr

/-- A translation leaf (R203): PA[38:12], W, H, RSET. -/
structure Leaf where
  pa : Nat
  w : Bool
  h : Bool
  rset : Nat := 0
  deriving DecidableEq, Repr

/-- A frame whose recovery is in progress (R209): the context and VA of its reader, and the steps that wait for it. -/
structure Recov where
  kind : Nat
  owners : List Nat
  va : Nat
  steps : List Nat
  deriving DecidableEq, Repr

/-- A clearing fill of frames in progress: the owner to come (2^11 × type + number), none for a release. -/
structure Clear where
  run : FrameRun
  owner : Option Nat
  kind : Nat
  deriving DecidableEq, Repr

/-- Frames numbered die × 2^25 + die frame, lines by PA / 64, bytes by PA. Key slots: contexts 0–1,023, domains at 1,024, the system at
1,280; `keys` gives each installed slot its key. Leaves by context × 2^31 + VA[41:12], or + 2^30 + VA[41:21] for 2 MiB. -/
structure LpSt where
  /-- the plaintext of each line as its writer gave it, and the key it was written under plus 1 (unlisted: raw zeros) -/
  mem : AMap Byte := []
  tag : AMap Nat := []
  /-- lines stored marked bad (1) or with a check that fails (2) -/
  bad : AMap Nat := []
  keys : AMap Nat := []
  keyNext : Nat := 1
  frames : AMap Frame := []
  leaves : AMap Leaf := []
  /-- L1 tables by context × 2^23 + VA[41:30], L0 tables by context × 2^23 + 2^22 + VA[41:21]: 1 + their die -/
  tabs : AMap Nat := []
  /-- look-aside buffers: die × 2^42 + the key of the leaf -/
  lab : List Nat := []
  /-- CRC caches: group page × 2^28 + channel × 2^25 + CRC line, and whether it is dirty -/
  crcc : AMap Bool := []
  recov : AMap Recov := []
  clears : List Clear := []
  /-- confirmed detections of each channel in the present pass, by 32 × die + channel -/
  chDet : AMap Nat := []
  /-- channels that have a cause to be retired, and the passes that set OTYPE = 3 in progress -/
  chDue : List Nat := []
  passes : List Nat := []
  /-- patrol: lines read of each channel, start of each group's pass, groups found late -/
  patPos : AMap Nat := []
  patClk : AMap Nat := []
  patLate : AMap Nat := []
  /-- the last line delivered, and how: 0 good, 1 POISON, 2 DETECT, 3 not delivered -/
  line : List Nat := []
  lineHow : Nat := 0
  deriving DecidableEq, Repr

/-! KV pages, page lists, the prefix tree, the cellar tier (R253–R289) -/

/-- A page-list entry (R259). `state`: 0 EMPTY, 1 RESIDENT, 2 PINNED, 3 CELLAR, 4 MOVING, 5 LOST. `loc` as R259 gives it for the state. -/
structure PEnt where
  state : Nat
  shared : Bool := false
  /-- bytes of its summary slot; 0: no summary -/
  sum : Nat := 0
  fill : Nat := 0
  loc : Nat := 0
  pfx : Nat := 0
  deriving DecidableEq, Repr

/-- The geometry that a list head and its template name (R258). `pools` gives the pool of each die slot. -/
structure Geom where
  kvVa : Nat := 0
  model : Nat := 0
  layers : Nat := 1
  dieSet : Nat := 1
  fmt : Nat := 2
  share : Bool := false
  h : Bool := false
  kvh : Nat := 1
  headDim : Nat := 32
  units : Nat := 1
  pagesMax : Nat := 1
  logVa : Nat := 0
  base : Nat := 0
  pools : List Nat := []
  deriving DecidableEq, Repr

/-- A page or other thing that an edit removed, with the generation at which it was (R263): what is freed is a page of a pool, a reference
to a prefix entry, or a cellar record. -/
structure Freed where
  gen : Nat
  pool : Nat
  ent : PEnt
  deriving DecidableEq, Repr

/-- A list head (R258–R263). Page-list entries by (die slot × 256 + layer) × 2^18 + position. -/
structure Head where
  ctx : Nat
  die : Nat
  frame : Nat
  geom : Geom
  gen : Nat := 0
  cur : Nat := 0
  length : Nat := 0
  slotGen : List Nat := [0, 0, 0, 0]
  /-- readers of each generation slot, all dies -/
  readers : List Nat := [0, 0, 0, 0]
  slots : List (AMap PEnt) := [[], [], [], []]
  staging : AMap PEnt := []
  stagedLen : Nat := 0
  edited : Bool := false
  waiting : Bool := false
  freed : List Freed := []
  /-- prefix entries attached, in position order -/
  chain : List Nat := []
  /-- the token log from STRETCH_BASE through the pending token (R273) -/
  log : List Nat := []
  logLost : Bool := false
  /-- system frames held on each die for the head, its directories, block indexes and blocks -/
  charge : List Nat := []
  deriving DecidableEq, Repr

/-- A KV pool (R256): its die, owner and page size in frames; free pages as LOC values; summary
frames and the bytes of them in use. A pinned pool (R257) names its reservation and takes the page size of the first head that names it. -/
structure KvPool where
  die : Nat
  isDomain : Bool
  owner : Nat
  units : Nat
  low : Nat
  high : Nat
  free : List Nat := []
  total : Nat := 0
  reserved : Nat := 0
  sums : Nat := 0
  sumUsed : Nat := 0
  pinned : Option Nat := none
  spilling : Bool := false
  deriving DecidableEq, Repr

/-- A cellar record (R284): the host slot, whose page it holds and the plaintext that its ciphertext and tag stand for. -/
structure CellarRec where
  slot : Nat
  pool : Nat
  bytes : Nat
  head : Nat
  key : Nat
  iv : Nat
  data : List Byte
  deriving DecidableEq, Repr

/-- A sharing domain (R276, R278): its region of the prefix table, its hash key's number, and whether it has been ended. -/
structure Dom where
  base : Nat
  size : Nat
  hashKey : Nat
  ended : Bool := false
  deriving DecidableEq, Repr

/-- A prefix-table entry (R278); `pages` is the page set: one page-list entry per die slot and layer. -/
structure Pfx where
  key : Nat
  parent : Option Nat
  pos : Nat
  refs : Nat
  dom : Nat
  model : Nat
  children : Nat := 0
  /-- by die slot × 256 + layer -/
  pages : AMap PEnt := []
  pools : List Nat := []
  lastTick : Nat := 0
  rebuilding : Bool := false
  deriving DecidableEq, Repr

/-- A page on its way to or from the cellar tier: head, page key, record. -/
structure Move where
  head : Nat
  key : Nat
  record : Nat
  pool : Nat
  deriving DecidableEq, Repr

structure KvSt where
  heads : AMap Head := []
  headNext : Nat := 1
  pools : AMap KvPool := []
  domains : AMap Dom := []
  pfx : AMap Pfx := []
  /-- host ranges of the cellar tier: address and length -/
  ranges : List (Nat × Nat) := []
  recs : AMap CellarRec := []
  spillCtr : AMap Nat := []
  spills : List Move := []
  fetches : List Move := []
  /-- window granules: context × 4,096 + VA[41:30] ↦ head -/
  granules : AMap Nat := []
  /-- look-aside lines of the walkers, by die × 2^48 + tag -/
  lab : List Nat := []
  /-- dies that hold the two copies of the module-wide structures (R401), and the die that a copy in progress goes to -/
  homes : List Nat := []
  copyTo : Option Nat := none
  deriving DecidableEq, Repr

/-! The request table, reservations and admission (R290–R319) -/

/-- A class-0 reservation (R310): its context, group, logical vats, pinned banks and segments, and sizes. -/
structure Resv where
  ctx : Nat
  start : Nat
  g : Nat
  /-- logical vats: die, floor, logical number -/
  vats : List (Nat × Nat × Nat)
  /-- pinned banks: die, floor, logical vat, mask -/
  banks : List (Nat × Nat × Nat × Nat)
  /-- pinned segments: die, floor, mask -/
  segs : List (Nat × Nat × Nat)
  entries : Nat
  positions : Nat
  chunk : Nat
  bstep : Nat
  suspended : Bool := false
  ending : Bool := false
  deriving DecidableEq, Repr

/-- A request-table entry (R291), and what the hardware keeps beside it. -/
structure Rq where
  state : Nat := 0
  ending : Nat := 0
  dlValid : Bool := false
  res : Bool := false
  ctx : Nat := 0
  prio : Nat := 0
  latePol : Nat := 0
  cls : Nat := 0
  dl : Nat := 0
  chunk : Nat := 0
  promptLen : Nat := 0
  promptDone : Nat := 0
  genCount : Nat := 0
  genMax : Nat := 0
  intake : Bool := false
  head : Option Nat := none
  plGen : Nat := 0
  candVa : Nat := 0
  candSeq : Nat := 0
  attOpt : Nat := 0
  paramVa : Nat := 0
  cookie : Nat := 0
  cntLate : Nat := 0
  cntRecomp : Nat := 0
  cntSteps : Nat := 0
  cntHolds : Nat := 0
  resTokens : Nat := 0
  /-- template, output area and completion ring of the intake entry (R486), the prompt as read (R488) -/
  headVa : Nat := 0
  outAddr : Nat := 0
  outCap : Nat := 0
  cq : Nat := 0
  prompt : List Nat := []
  /-- refused, waiting for its completion to be written -/
  refused : Bool := false
  /-- number of the next delivery -/
  deliv : Nat := 0
  /-- state before HELD, and the tick of the entry into it -/
  before : Nat := 0
  heldTick : Nat := 0
  step : Option Nat := none
  /-- positions of page room reserved in each pool, per layer (R307) -/
  room : Nat := 0
  /-- pages that wait for a recompute chunk: die slot, layer, position -/
  rebuilds : List (Nat × Nat × Nat) := []
  recomputed : Bool := false
  /-- a truncation that waits for the step's boundary (R272) -/
  trunc : Option Nat := none
  /-- the lookup drafter: the clock of its start, and the candidates it found (R237) -/
  draftClk : Option Nat := none
  draftDone : Bool := false
  /-- the status of a fault decided while a step was in progress -/
  faultSt : Nat := 0
  draft : List (Nat × Nat × Nat) := []
  /-- an FLR freed its function: the entry returns to FREE by itself (R480) -/
  auto : Bool := false
  deriving DecidableEq, Repr

/-- A completion of the ordering point, waiting for the completion writer (R491). `idx`: the table entry it names. -/
structure Compl where
  ring : Nat
  status : Nat
  kind : Nat
  ending : Nat
  cookie : Nat
  idx : Option Nat
  genCount : Nat
  hint : Nat
  deliv : Nat
  tokens : List Nat
  outAddr : Nat := 0
  sealed : Bool := false
  /-- the deadline, when the flags LATE and the late policy are still to be decided at the write -/
  dl : Option Nat := none
  deriving DecidableEq, Repr

/-- A model's cost record for a class (R304). -/
structure Cost where
  fix : Nat
  tok : Nat
  key : Nat
  deriving DecidableEq, Repr

structure RqtSt where
  /-- entries that are not FREE, or FREE with INTAKE = 1 -/
  entries : AMap Rq := []
  /-- completions that wait for the writer, oldest first -/
  outQ : List Compl := []
  /-- cost records by model × 4 + class; models that have had a list-head template -/
  costs : AMap Cost := []
  models : List Nat := []
  /-- vat 7 releases (R314) by floor page: 1 asked or waiting, 2 proceeding -/
  releases : AMap Nat := []
  deriving DecidableEq, Repr

/-! The Mill (R333–R344) -/

/-- Where a Mill job is: queued for the pipe of its next descriptor, in one of the pipes, suspended there, or run and waiting for its end. -/
inductive MillAt where
  | queued | running (pipe : Nat) | suspended (pipe : Nat) | ended (status : Nat)
  deriving DecidableEq, Repr

/-- A Mill job. `done` descriptors have run, with their `RESULT` words; `desc` is the one in progress; `tileDet`: its tile has been run again;
`chain` and `pic` name the stream and buffer of a chained job, `src` the planes that replace its first source. -/
structure MillJob where
  list : MillList
  loc : MillAt := .queued
  done : Nat := 0
  results : List Nat := []
  desc : List Nat := []
  tileDet : Bool := false
  recomputed : Bool := false
  started : Bool := false
  chain : Option Nat := none
  pic : Nat := 0
  src : Option (Nat × Nat) := none
  concealed : Bool := false
  deriving DecidableEq, Repr

/-- The Mill: its jobs by order of arrival, and the job list of each chained stream. -/
structure MillSt where
  jobs : AMap MillJob := []
  next : Nat := 0
  chains : AMap MillList := []
  /-- a pipe has been used: its last context is the one that the page shows -/
  used : List Nat := []
  deriving DecidableEq, Repr


/-! The video codec engines (R345–R378) -/

/-- A buffer of a stream's pool (R358): mark 0 UNUSED, 1 SHORT, 2 LONG; its holds; the record of the picture in it that waits for output. -/
structure CBuf where
  mark : Nat := 0
  writing : Bool := false
  output : Bool := false
  consumer : Bool := false
  chain : Nat := 0
  subst : Bool := false
  pend : List Nat := []
  order : Nat := 0
  deriving DecidableEq, Repr

/-- The picture of a stream in progress. `eng` is none while it waits to run again after its engine was retired. -/
structure CPic where
  eng : Option Nat
  idx : Nat
  entry : List Nat
  buf : Nat
  syn : PicSyntax
  key : Bool
  ltr : Bool := false
  budget : Int := 0
  charge : Nat := 0
  clk : Nat
  dets : Nat := 0
  recomputed : Bool := false
  deriving DecidableEq, Repr

/-- What rate control keeps of the last picture of a type (R373, R374): its bits, its rows' bits, its average QP and its SATD total. -/
structure RcPrev where
  bits : Nat
  rows : List Nat
  qp : Nat
  satd : Nat
  deriving DecidableEq, Repr

/-- A stream context (R350–R376): the descriptor in force, settings that CODEC_RC_SET left for the next picture, and the six ring indexes. -/
structure Stream where
  ctx : Nat
  sd : List Nat
  rc : Option (List Nat) := none
  subProd : Nat := 0
  subCons : Nat := 0
  outProd : Nat := 0
  outCons : Nat := 0
  relProd : Nat := 0
  relCons : Nat := 0
  faulted : Bool := false
  bufs : List CBuf := []
  pic : Option CPic := none
  /-- records that wait for a free entry of the output ring -/
  recs : List (List Nat) := []
  ten : Bool := false
  pollClk : Nat := 0
  readyClk : Option Nat := none
  poolWait : Bool := false
  /-- decoder: the cause under which the present sequence is refused; a concealment episode and the pictures concealed in it; decoding
  started at a CRA, whose RASL pictures are skipped; nothing decoded yet -/
  seqCause : Nat := 0
  episode : Bool := false
  concealed : Nat := 0
  skipRasl : Bool := false
  fresh : Bool := true
  /-- encoder: a key picture is requested; pictures since the last key picture; P pictures since; carry; what rate control keeps of
  key and P pictures; the total of complexity and pictures -/
  keyReq : Bool := false
  sinceKey : Option Nat := none
  sinceLtr : Nat := 0
  carry : Int := 0
  prevKey : Option RcPrev := none
  prevP : Option RcPrev := none
  satdSum : Nat := 0
  satdNum : Nat := 0
  /-- CODEC_FLUSH up to a submission index, CODEC_CLOSE -/
  flushTo : Option Nat := none
  closing : Bool := false
  deriving DecidableEq, Repr

structure CodecSt where
  streams : AMap Stream := []
  /-- stream of each engine's previous picture -/
  last : AMap Nat := []
  /-- remainders of counters in units of 1,024, by counter key -/
  rest : AMap Nat := []
  /-- clock at which a picture was last ready for more than a quarter of `SCH.OVL_ENTER_US`, or overload was entered -/
  longClk : Nat := 0
  deriving DecidableEq, Repr


/-! The Cellarmaster pair (R379–R395) -/

/-- What a Cellarmaster and its claim keeper keep beside its page. -/
structure CmUnit where
  /-- clock of the last heartbeat write -/
  hbClk : Nat := 0
  /-- the diagnostic pass of the period: 0 none, 1 in progress, 2 passed, 3 not complete at the next mark -/
  diag : Nat := 0
  /-- clock at which the self-test slice in progress began, and whether one is deferred to the copy after the next mark -/
  slice : Option Nat := none
  deferred : Bool := false
  /-- clock at which the core's restart after an abandoned slice began -/
  restart : Option Nat := none
  /-- consecutive marks in READY -/
  readyMarks : Nat := 0
  /-- clocks of the drops counted for retirement -/
  drops : List Nat := []
  /-- version of the firmware image it runs -/
  fw : Nat := 0
  deriving DecidableEq, Repr

structure CmSt where
  a : CmUnit := {}
  b : CmUnit := {}
  /-- a yield is requested; a takeback or yield is announced; the handover copy is latched, and whether it is valid at the incoming unit -/
  yieldReq : Bool := false
  announced : Bool := false
  handover : Option Bool := none
  /-- clock of the drop that left no unit in control -/
  dropClk : Option Nat := none
  /-- the copy image on its way: its period index, and whether it is a handover copy -/
  copy : Option (Nat × Bool) := none
  deriving DecidableEq, Repr



/-! Contexts (R399–R418) -/

/-- A context in the rinse fill (R410): the writes that the channel with most of its lines needs, its lines, the writes made when its fill began
(in units of 1 / (256 × RINSE_LINE_CLK)), and whether it began in a ramp-in. -/
structure Rinse where
  ctx : Nat
  need : Nat
  lines : Nat
  base : Nat := 0
  inRamp : Bool := false
  deriving DecidableEq, Repr

structure CtxSt where
  /-- contexts in ENDING whose last ring read is still to come (R408) -/
  finals : List Nat := []
  /-- floor reservations: context, die, floor mask (R418) -/
  floors : List (Nat × Nat × Nat) := []
  /-- the fill: contexts in order, the first one being filled; the clock at which the present ramp-in began; the clock at which the last ramp-out
  began; contexts whose fill has ended, with the clock -/
  queue : List Rinse := []
  rampIn : Option Nat := none
  rampOut : Option Nat := none
  filled : List (Nat × Nat) := []
  /-- lines and pad writes beyond whole units of 1,024 -/
  restLines : Nat := 0
  restPads : Nat := 0
  /-- contexts that the HOST sequence clears at full rate (R545) -/
  fast : List Nat := []
  deriving DecidableEq, Repr


/-! The Gauger (R420–R444) -/

/-- A loaded cask (R442, R443): its context, host address, destinations in floor segments (die, floor, mask) and frames (die, first, count),
and the image numbers of its KERNEL sections. `loading`: the chunks are still being written. -/
structure Cask where
  ctx : Nat
  host : Nat := 0
  segs : List (Nat × Nat × Nat) := []
  frames : List (Nat × Nat × Nat) := []
  images : List Nat := []
  loading : Bool := false
  dests : List CaskDest := []
  deriving DecidableEq, Repr

/-- The SPDM connection of a function (R429–R432): how far it is negotiated (0 nothing, 1 version, 2 capabilities, 3 algorithms), its
version, and the hybrid exchange in progress. -/
structure Conn where
  phase : Nat := 0
  version : Nat := 0
  /-- 0 none, 1 a key pair generated, 2 a secret held -/
  kem : Nat := 0
  /-- hash of the held ciphertext -/
  ctHash : Nat := 0
  /-- session set up by KEY_EXCHANGE and not finished, and whether its LMS signature has been taken -/
  pending : Option Nat := none
  lmsTaken : Bool := false
  /-- clock of the last signed response whose LMS signature is kept, and its leaf -/
  lastSigned : Option (Nat × Nat) := none
  doeError : Bool := false
  deriving DecidableEq, Repr

/-- An established session (R433): its function, the clock of its last heartbeat, and a 1.3 event subscription (R434). -/
structure Session where
  fn : Nat
  hbClk : Nat
  events : Bool := false
  keyGen : Nat := 0
  deriving DecidableEq, Repr

structure GauSt where
  ownerKey : Option Nat := none
  ownerSeq : Nat := 0
  publishers : AMap Nat := []
  bootCount : Nat := 0
  /-- next top leaf, number of the current bottom tree, whether the next tree is generated -/
  topNext : Nat := 0
  bottomTree : Nat := 0
  treeReady : Bool := false
  /-- clocks of the LMS reports of the last hour (R428) -/
  reports : List Nat := []
  conns : AMap Conn := []
  sessions : AMap Session := []
  /-- session through which each sealed context was claimed (R435) -/
  claimed : AMap Nat := []
  /-- expected SEQ of each context and direction, by 2 × context + direction (R437) -/
  seqs : AMap Nat := []
  /-- 300 ms pause of a Gauger activation in progress (R433) -/
  paused : Bool := false
  /-- next free image number for KERNEL sections -/
  nextImage : Nat := 0
  /-- the cask slot that is being loaded: its mailbox command is running -/
  loading : Option Nat := none
  /-- a mailbox command was waiting when the Gauger's restart began (R444) -/
  heldBusy : Bool := false
  /-- the values that the last mailbox response carried -/
  resp : List Nat := []
  /-- the fuse read path is blocked until the next power-on (R422) -/
  uidBlocked : Bool := false
  deriving DecidableEq, Repr


/-! Firmware (R445–R459) -/

/-- What a slot holds: state 0 EMPTY, 1 VALID, 2 STALE, 3 INVALID, the image, and whether its signatures pass (R448). -/
structure FwSlot where
  state : Nat := 0
  sigOk : Bool := false
  img : Image := {}
  deriving DecidableEq, Repr

/-- An image being staged (R449): component, slot, what it will hold, its length in KiB. -/
structure Staging where
  comp : Nat
  slot : Nat
  img : Image
  kib : Nat
  deriving DecidableEq, Repr

/-- An activation (R453–R456): component, slot, FORCE, the period at whose mark it begins, the clock at which it begins without a lock; whether
it has begun; a Cellarmaster reload that failed once, and one that failed for good. -/
structure Activation where
  comp : Nat
  slot : Nat
  force : Bool
  pidx : Nat
  atClk : Nat
  begun : Bool := false
  retried : Bool := false
  failed : Bool := false
  deriving DecidableEq, Repr

structure FwSt where
  /-- slots by 2 × component + slot; unlisted: slot A holds a VALID image whose numbers are all 0, slot B is EMPTY (assumption log 50) -/
  slots : AMap FwSlot := []
  /-- the slot record: the active slot of each component -/
  active : AMap Nat := []
  /-- the images that run, where they differ from the one of slot A in its first state -/
  run : AMap Image := []
  /-- fused security versions by component, 7 the ROM -/
  fused : AMap Nat := []
  staging : Option Staging := none
  act : Option Activation := none
  /-- an activation that a MODULE or POWER-ON reset undid: ACT_FAIL is raised at READY (R546) -/
  undone : Bool := false
  /-- the component activated most recently, and the boot log: causes, newest first -/
  lastAct : Option Nat := none
  bootLog : List Nat := []
  /-- the ROM runs recovery (R458); the last start-up did -/
  recovery : Bool := false
  deriving DecidableEq, Repr

/-! Self-test (R461–R474) -/

/-- A running slice: its unit, its start, the mismatching sub-signature of its first run (R467), and whether it was asked for
besides the schedule. -/
structure Slice where
  unit : BistUnit
  clk : Nat
  first : Option BistSub := none
  asked : Bool := false
  deriving DecidableEq, Repr

structure BistSt where
  /-- slices requested by fences, by `BIST.REQ` and by the schedule, oldest first (R466) -/
  due : List BistUnit := []
  reqs : List BistUnit := []
  sched : List BistUnit := []
  running : List Slice := []
  /-- deferred slices and the clock of the deferral (R463) -/
  deferred : List (BistUnit × Nat) := []
  /-- repairs whose record entries are being stored (R470): the unit, and the resource that it takes -/
  stores : List (BistUnit × BistSub) := []
  seq : Nat := 0
  passClk : Nat := 0
  /-- tests issued and completed in the present pass, by unit number -/
  issuedOf : AMap Nat := []
  doneOf : AMap Nat := []
  late : Bool := false
  /-- pass position and passes in the persistent-state region (R471) -/
  savedPos : Nat := 0
  savedPasses : Nat := 0
  storeClk : Nat := 0
  /-- planes that failed, by fabric: die 0–3, hub 4; units whose NO_SPARE_TEST has been raised -/
  planesBad : AMap Nat := []
  noSpare : List Nat := []
  /-- lines and columns repaired in each bank, by vat page × 32 + 2 × bank (lines) and + 1 (columns) -/
  bankFix : AMap Nat := []
  /-- consecutive failed checks: channels 32 × die + channel, keg links at 128 -/
  checkFail : AMap Nat := []
  /-- domains outside their window, relocking (R23, R468) -/
  relock : List ClkDomain := []
  /-- ring links declared failed, by the die at each end: 4 × die + die -/
  ringBad : List Nat := []
  /-- time-base lines: windows and windows with errors of the span (2 and 3: the present window has one), suspect lines, start of the span -/
  tbWin : AMap Nat := []
  tbErr : AMap Nat := []
  tbSuspect : AMap Nat := []
  tbClk : Nat := 0
  deriving DecidableEq, Repr

/-- A response of a command that waits to be written into its function's response ring (R484). -/
structure Resp where
  fn : Nat
  tag : Nat
  status : Nat
  result : Nat
  deriving DecidableEq, Repr

/-- An intake or completion ring (R485). `idx` is CONS of an intake ring and PROD of a completion ring, `peer` the other
index as last read; `cq` names the completion ring of an intake ring. -/
structure Ring where
  fn : Nat
  addr : Nat
  log2 : Nat
  cq : Nat := 0
  vec : Nat := 0
  ithresh : Nat := 0
  itimeUs : Nat := 0
  idx : Nat := 0
  peer : Nat := 0
  faulted : Bool := false
  stopped : Bool := false
  readFails : Nat := 0
  /-- entries written since the last message, and the clock of the first of them (R494) -/
  cnt : Nat := 0
  cntClk : Nat := 0
  blocked : Bool := false
  deriving DecidableEq, Repr

/-- What a command that holds its function waits for (R484). -/
inductive WaitOn where
  /-- a context to become FREE (R408) -/
  | ctxFree (c : Nat)
  /-- clearing fills of banks of a vat page (R174) -/
  | banks (pg mask : Nat)
  /-- clearing fills of segments of a floor page (R179) -/
  | segs (pg mask : Nat)
  /-- the clearing fill of a run of frames of a die (R199) -/
  | frames (die first count : Nat)
  /-- the structure copy to end (R401), before the command `op` proceeds -/
  | structCopy (op : Nat)
  /-- a translation leaf's accesses, a spile group's operations, or another transfer in flight to complete -/
  | drain (kind a b : Nat)
  deriving DecidableEq, Repr

/-- A command being performed that has not completed: it holds its function's later commands (R484). -/
structure Wait where
  fn : Nat
  tag : Nat
  on : WaitOn
  result : Nat := 0
  deriving DecidableEq, Repr

/-- The host attachment (R475–R500): the host's memory, the rings, the MSI-X table, the link. -/
structure HostSt where
  mem : AMap Byte := []
  /-- CONS and PROD of each function's command ring, PROD of its response ring, and whether it is FAULTED -/
  cmdCons : AMap Nat := []
  cmdProd : AMap Nat := []
  respProd : AMap Nat := []
  cmdFault : AMap Nat := []
  /-- commands taken and not yet performed: function, tag and opcode, oldest first -/
  taken : List (Nat × Nat × Nat) := []
  resps : List Resp := []
  waits : List Wait := []
  /-- rings by context * 8 + ring number -/
  rings : AMap Ring := []
  /-- MSI-X vectors unmasked, and pending, by function * 2048 + vector (R493) -/
  msixOpen : AMap Nat := []
  msixPend : AMap Nat := []
  /-- address and data of the MSI-X table, by function * 32768 + byte offset (R493, R495) -/
  msixTab : AMap Byte := []
  d3hot : Bool := false
  perstHigh : Bool := false
  /-- completions held back while the link is down or a ring is full are in the completion writer's queue of `RqtSt`;
  messages held while the link is down, oldest first -/
  heldMsgs : List (Nat × Nat) := []
  /-- data of the last host-window read -/
  winData : List Nat := []
  winPoison : Bool := false
  /-- clock of each ring poll last made, by function (command rings) -/
  pollClk : AMap Nat := []
  /-- bytes moved, by the offset of the HOST counter that counts them in MiB -/
  dmaBytes : AMap Nat := []
  deriving DecidableEq, Repr


/-! Keg links, collectives, the cabinet (R501–R521) -/

/-- What a keg link's receiver keeps: the clock of the last valid flit, failed attempts of the present flit, the clock at which it went DOWN, the
reachable set of its peer's last beacon, and the number of the link secret. -/
structure KegLink where
  lastFlit : Nat := 0
  fails : Nat := 0
  downClk : Nat := 0
  reach : Nat := 0
  secret : Nat := 0
  deriving DecidableEq, Repr

/-- An entry of a stretch table (R510). -/
structure Stretch where
  mem : Nat
  tail : Bool
  base : Nat
  len : Nat
  deriving DecidableEq, Repr

/-- A collective job (R510): `seqs` are the numbers of the next operations by die, `early` records that came before their operation started. -/
structure Job where
  ctx : Nat
  epoch : Nat
  members : List Nat
  dieSet : Nat
  table : List Stretch
  seqs : List Nat := [0, 0, 0, 0]
  aborted : Bool := false
  keys : Option Nat := none
  early : List CollRec := []
  deriving DecidableEq, Repr

/-- An armed collective operation (R507). `phase`: 0 armed, 1 running, 2 its result written; `have` counts bytes of the result, `got` merge records
taken in, `acc` the merge so far. -/
structure CollOp where
  step : Nat
  ctx : Nat
  die : Nat
  op : Nat
  fmt : Nat
  inStore : Bool
  root : Nat
  job : Nat
  seq : Nat
  bytes : Nat
  src : Nat
  dst : Nat
  start : Nat
  done : Nat
  thresh : Nat
  bad : Bool
  phase : Nat := 0
  got : Nat := 0
  filled : Nat := 0
  acc : List Nat := []
  deriving DecidableEq, Repr

structure KegSt where
  links : AMap KegLink := []
  jobs : AMap Job := []
  ops : AMap CollOp := []
  opNext : Nat := 0
  /-- remote windows: context and job (R517) -/
  windows : List (Nat × Nat) := []
  /-- clock at which each cabinet index was last confirmed (R506) -/
  conf : AMap Nat := []
  beaconClk : Nat := 0
  /-- marks below quorum in a row (R512) -/
  below : Nat := 0
  /-- the first link has trained: the cabinet index is locked (R517) -/
  indexLocked : Bool := false
  secretNext : Nat := 1
  /-- transmission has stopped (R515, R536) -/
  silent : Bool := false
  /-- bytes sent and received by die, beyond whole MiB -/
  rest : AMap Nat := []
  deriving DecidableEq, Repr


/-! Edge connector, power, thermal, management (R522–R537) -/

/-- What the power and thermal control and the management interface keep beside their pages. Levels are the debounced ones; clocks are those at which a
condition began to hold. -/
structure PwrSt where
  /-- the main and the standby regulators are off; MATE_EARLY_N and MATE_LATE_N are high; PWR_WARN_N is low -/
  mainOff : Bool := false
  standbyOff : Bool := false
  earlyHigh : Bool := false
  lateHigh : Bool := false
  warnLow : Bool := false
  /-- the reset cause that the last switching-off leads to: 3 supply loss, 4 trip; 0 when nothing has been lost since the last reset -/
  off : Nat := 0
  /-- both mate contacts low with 12 V in range since; MATE_EARLY_N low again since -/
  contactClk : Nat := 0
  earlyClk : Option Nat := none
  /-- the last voltage sample in mV; below 10.8 V, above 13.2 V, outside 9.6–14.5 V, at 11.0 V or more since -/
  vin : Nat := 12000
  lowClk : Option Nat := none
  highClk : Option Nat := none
  outClk : Option Nat := none
  okClk : Option Nat := none
  /-- SUPPLY_LOW and SUPPLY_HIGH have been raised for the present excursion -/
  lowTold : Bool := false
  highTold : Bool := false
  /-- the shed in force was started by the supply (R524) -/
  supShed : Bool := false
  /-- sum of the power samples of the interval in µW, their number; the last two averages in µW; energy beyond whole joules in 10^-10 J -/
  sum : Nat := 0
  n : Nat := 0
  avg : Nat := 0
  energy : Nat := 0
  ballastEnergy : Nat := 0
  ballast : Bool := false
  /-- junction sensors at 115 °C or more in the last sample; one was in two samples in a row -/
  hot : List Nat := []
  tripDue : Bool := false
  /-- every junction sensor read 95 °C or less in the last sample -/
  cool : Bool := true
  /-- a trip that nothing has ended yet; the last shutdown was a trip -/
  tripped : Bool := false
  lastTrip : Bool := false
  /-- junction sensors that fail -/
  failing : List Nat := []
  /-- coolant inlet above 45 °C and below 15 °C since, and whether that has been reported -/
  warmClk : Option Nat := none
  coldClk : Option Nat := none
  warmTold : Bool := false
  coldTold : Bool := false
  /-- clock of the last heartbeat write, or of the start-up's completion -/
  hbClk : Nat := 0
  /-- MCTP endpoint ID; the state-sensor values that the last platform events told -/
  eid : Nat := 0
  told : List Nat := []
  deriving DecidableEq, Repr


/-! Reset and start-up (R538–R548) -/

/-- The reset sequence: its kind (0 none, 1 POWER-ON, 2 MODULE, 3 HOST), the clocks of the start of its phase and of its own, whether the phase has raised
START_LATE; MOD_RESET_N low; no PCIe function is presented (R544); RECOVER_N as sampled at the start; system frames free
for tables as the start-up left them, by die. -/
structure StartSt where
  kind : Nat := 1
  phaseClk : Nat := 0
  startClk : Nat := 0
  late : Bool := false
  modLow : Bool := false
  noPcie : Bool := false
  recover : Bool := false
  sysFree : List (Nat × Nat) := []
  deriving DecidableEq, Repr


/-- The issue gate: the period plan of the Cellarmaster in control, and the slots that R74 removed from each group, by step. -/
structure GateSt where
  plan : List GroupPlan := []
  trimmed : AMap Nat := []
  deriving DecidableEq, Repr



/-- The reasons a command could stop the machine. No command of this model raises one: the spec gives every command
of its table an effect (assumption log 1). -/
inductive Fault where
  /-- raised by nothing -/
  | stopped
  deriving DecidableEq, Repr

/-- The reasons a command could be refused. -/
inductive Refusal where
  /-- a command that the model gives no meaning: raised by an arm of `exec` only; safe, since no state results -/
  | notModelled (mnemonic : String)
  deriving DecidableEq, Repr

/-- The whole state of the module. -/
structure State where
  /-- the commands that are waiting, first in, first out -/
  pending : List Instr := []
  variant : Variant := .q4c4
  /-- arithmetic clocks since power-on (R13) -/
  now : Nat := 0
  /-- the counter of free values (assumption log 2); the model's own -/
  freeIdx : Nat := 0
  /-- register fields by page, offset and low bit; an unlisted field holds its reset value -/
  regs : AMap Nat := []
  /-- live counters by page and register offset; unlisted counters are 0 -/
  ctrs : AMap Nat := []
  /-- the one shadow of each page (R34): LO offset of the counter that holds it, and the HI half -/
  shadow : AMap (Nat × Nat) := []
  /-- the data of the last register read -/
  rdata : Nat := 0
  /-- messages sent, newest first -/
  msgs : List Msg := []
  /-- pages of retired units (R8), and of units under self-test (R39) -/
  retired : AMap Nat := []
  underTest : AMap Nat := []
  snap : SnapSt := {}
  tb : TimeBase := {}
  host : HostSt := {}
  /-- vats and floors by page number -/
  vats : AMap Vat := []
  floors : AMap FloorSt := []
  steps : AMap Step := []
  spl : SplSt := {}
  /-- main memory, translation, the frame table -/
  lp : LpSt := {}
  kv : KvSt := {}
  rqt : RqtSt := {}
  gate : GateSt := {}
  cm : CmSt := {}
  mill : MillSt := {}
  codec : CodecSt := {}
  keg : KegSt := {}
  ctxs : CtxSt := {}
  /-- loaded casks by slot 0–255 -/
  casks : AMap Cask := []
  gau : GauSt := {}
  fw : FwSt := {}
  bist : BistSt := {}
  pwr : PwrSt := {}
  start : StartSt := {}
  /-- reservations by number 0–15 -/
  resv : AMap Resv := []
  /-- the DRBG of each context: its instantiation or reseed number, and the words drawn since (R131, R405) -/
  drbg : AMap (Nat × Nat) := []
  /-- vat stores by page × 2^21 + partitioned address, floor stores by page × 2^23 + address; the words of each that read
  with a parity error, by byte key / 4 -/
  vstore : AMap Byte := []
  vbad : AMap Nat := []
  fstore : AMap Byte := []
  fbad : AMap Nat := []
  deriving DecidableEq, Repr

/-- The state right after a power-on reset of variant `v` (R538, R546). -/
def State.resetOf (v : Variant) : State := { variant := v }

/-- The state right after a power-on reset; the variant is KX9-Q4-C4 (DESIGN CHOICE, assumption log 4). -/
def State.reset : State := State.resetOf .q4c4

end Sys2Proof.Machine
end

