-- ==== Sys2Proof/Machine/Ops.lean ====
section
/-! DEFINITION. The named operations over the state that every family shares: register fields, counters, events,
fault capture, context events, MSI-X messages, command responses and access errors. -/

namespace Sys2Proof.Machine

abbrev Result := Host.Outcome State Fault Refusal

/-! Register fields -/

/-- The key of entry `i` of field `F` on page `pg`. -/
def fkey (pg : Nat) (F : Field) (i : Nat) : Nat := pg * 131072 + (F.off + F.stride * i) * 32 + F.lo

/-- The reset value of entry `i` of field `F` on variant `v`. -/
def frst (v : Variant) (F : Field) (i : Nat) : Nat :=
  if F.codec ∧ v.codecs = 0 then 0 else (if v.dies = 2 then F.rst2 else F.rst) + F.rstStep * i

/-- Entry `i` of field `F` on page `pg`. -/
def State.rdi (s : State) (pg : Nat) (F : Field) (i : Nat) : Nat := ngetD (frst s.variant F i) s.regs (fkey pg F i)

/-- Set entry `i` of field `F` on page `pg` to the low bits of `v`. -/
def State.wri (s : State) (pg : Nat) (F : Field) (i v : Nat) : State :=
  { s with regs := nputD (frst s.variant F i) s.regs (fkey pg F i) (v % 2 ^ F.width) }

abbrev State.rd (s : State) (pg : Nat) (F : Field) : Nat := s.rdi pg F 0
abbrev State.wr (s : State) (pg : Nat) (F : Field) (v : Nat) : State := s.wri pg F 0 v

/-- A one-bit field as a truth value. -/
abbrev State.on (s : State) (pg : Nat) (F : Field) : Bool := s.rdi pg F 0 != 0

/-- Add to a field, saturating at its largest value. -/
def State.bump (s : State) (pg : Nat) (F : Field) (d : Nat) : State := s.wr pg F (min (s.rd pg F + d) (2 ^ F.width - 1))

/-! Counters -/

/-- Add `n` to the live counter at register offset `off` of page `pg`. -/
def State.count (s : State) (pg off n : Nat) : State := { s with ctrs := nadd s.ctrs (pg * 4096 + off) n }

def State.ctr (s : State) (pg off : Nat) : Nat := nget s.ctrs (pg * 4096 + off)

/-! Time -/

/-- The integer interpolated tick (R60). -/
def State.tick (s : State) : Nat := s.tb.tickFx / 65536

/-- How far tick `a` is ahead of tick `b`, modulo 2^48 (R52, R58, R71). -/
def ahead (a b : Nat) : Nat := (a % 2 ^ 48 + 2 ^ 48 - b % 2 ^ 48) % 2 ^ 48

/-- Clocks of the 320 MHz arithmetic clock in a microsecond and a millisecond (R13). -/
abbrev clkUs : Nat := 320
abbrev clkMs : Nat := 320000

/-! Service state of units (R8, R37, R39, R541) -/

/-- A page of a die, floor or vat is out with its die or floor. -/
def State.isRetired (s : State) (pg : Nat) : Bool :=
  nget s.retired pg != 0 || (decide (0x1000 ≤ pg ∧ pg < 0x5000) && (nget s.retired (pg - pg % 0x1000) != 0 ||
    (decide (0x100 ≤ pg % 0x1000) && nget s.retired (pg - pg % 0x20) != 0)))

/-- The module has reached READY (R541). -/
def State.ready (s : State) : Bool := s.rd pgMOD F.MOD_START_PHASE == 6

/-- A unit is there to take commands: fitted, and not retired (R7, R8). -/
def State.hasUnit (s : State) (pg : Nat) : Bool := pagePresent s.variant pg && !s.isRetired pg

/-- `STATUS.SVC` of a page (R37, R39, R543). A unit that a start-up left without firmware (2 in `retired`) is not in service (R457). -/
def State.svc (s : State) (pg : Nat) : Nat :=
  if nget s.retired pg = 2 then 0 else if s.isRetired pg then 2 else if nget s.underTest pg != 0 then 3 else if s.ready then 1 else 0

/-! What stops work (R454, R530, R536) -/

def State.pulled (s : State) : Bool := s.on pgPOWER F.PWR_STATUS_PULL
def State.shedding (s : State) : Bool := s.on pgPOWER F.PWR_STATUS_SHED

/-- The activation of a component is running (R454). -/
def State.activating (s : State) (comp : Nat) : Bool := s.fw.act.any fun a => a.begun && a.comp == comp

/-- The Mill starts no job, and its pipes stop at their next tile boundary (R454, R530). -/
def State.millStopped (s : State) : Bool := s.shedding || s.pulled || s.activating 3

/-- The codec engines start no picture (R370, R530). -/
def State.codecStopped (s : State) : Bool := s.shedding || s.pulled || s.activating 4

/-- A self-test slice of the unit is running (R465). -/
def State.testing (s : State) (u : BistUnit) : Bool := s.bist.running.any fun x => x.unit == u

/-- Fewer than 16 top leaves are unreserved (R428). -/
def State.hssExhausted (s : State) : Bool := decide (32768 < s.rd pgGAU F.GAU_HSS_TOP_END + 16)

/-! Contexts and functions -/

/-- The window slot of function `fn` that has context `c` bound (R50). -/
def State.slotOf (s : State) (fn c : Nat) : Option Nat :=
  (List.range 64).find? fun k => s.rdi (pgWIN fn) F.WIN_SLOT_VALID k == 1 && s.rdi (pgWIN fn) F.WIN_SLOT_CTX k == c

def State.boundTo (s : State) (fn c : Nat) : Bool := (s.slotOf fn c).isSome

/-- The CTXS page and entry index of a context (R419). -/
def ctxsPage (c : Nat) : Nat := if c < 512 then pgCTXS0 else pgCTXS1

def State.ctxField (s : State) (F : Field) (c : Nat) : Nat := s.rdi (ctxsPage c) F (c % 512)
def State.setCtxField (s : State) (F : Field) (c v : Nat) : State := s.wri (ctxsPage c) F (c % 512) v

/-- Context state codes (R399). -/
abbrev ctxFREE : Nat := 0
abbrev ctxOPENED : Nat := 1
abbrev ctxLIVE : Nat := 2
abbrev ctxENDING : Nat := 3
abbrev ctxRINSING : Nat := 4

def State.ctxState (s : State) (c : Nat) : Nat := s.ctxField F.CTXS_ENTRY_STATE c

/-- OPENED or LIVE: the states in which resources are assigned (R407). -/
def State.ctxOpen (s : State) (c : Nat) : Bool := s.ctxState c == ctxOPENED || s.ctxState c == ctxLIVE

/-- The function a context is bound to, if it is bound. -/
def State.ctxFn (s : State) (c : Nat) : Option Nat :=
  if s.boundTo (s.ctxField F.CTXS_ENTRY_FUNC c) c then some (s.ctxField F.CTXS_ENTRY_FUNC c) else none

/-! Events (R37, R38, R47, R48, R493) -/

/-- Pages whose `EVT_PEND` is not zero. -/
def State.pendingPages (s : State) : List Nat :=
  s.regs.filterMap fun e =>
    if e.1 % 131072 = 0x20 * 32 then
      (if e.2 &&& s.rd (e.1 / 131072) F.EVT_EN = 0 then none else some (e.1 / 131072))
    else none

/-- The bit of the EVT root's `CHILD_SUM` that a page's events reach (R47). -/
def rootBit (p : Nat) : Option Nat :=
  if p = pgMOD then some 0
  else if p = pgSNAP then some 1
  else if p = pgTBASE then some 2
  else if p = pgCM 0 then some 3
  else if p = pgCM 1 then some 4
  else if p = pgRQT then some 5
  else if p = pgHOST then some 6
  else if p = pgINTAKE then some 7
  else if p = pgGAU then some 8
  else if p = pgSCHED then some 21
  else if 0x600 ≤ p ∧ p < 0x700 then some (9 + (p - 0x600) / 0x40)
  else if p = pgMILL then some 13
  else if p = pgMGMT then some 14
  else if p = pgPOWER then some 15
  else if p = pgTHERMAL then some 16
  else if p = pgCTXS0 then some 17
  else if p = pgCTXS1 then some 18
  else if p = pgBIST then some 19
  else if p = pgCAB then some 20
  else if 0x1000 ≤ p ∧ p < 0x5000 then some (24 + (p - 0x1000) / 0x1000)
  else none

/-- The EVT root's `CHILD_SUM` (R47). -/
def State.rootSum (s : State) : Nat :=
  s.pendingPages.foldl (fun a p => match rootBit p with | some b => setBit a b | none => a) 0

/-- `CHILD_SUM` of a die global page (R47). -/
def State.dieSum (s : State) (n : Nat) : Nat :=
  s.pendingPages.foldl (fun a p =>
    if 0x1000 ≤ p ∧ p < 0x5000 ∧ (p - 0x1000) / 0x1000 = n then
      let o := p % 0x1000
      if o = 0 then a
      else if o < 0x20 then setBit a (o - 0x10)
      else if o < 0x30 then setBit a (4 + o - 0x20)
      else if o = 0x30 then setBit a 6
      else if o = 0x40 then setBit a 7
      else if o = 0x50 then setBit a 8
      else if o = 0x60 then setBit a 9
      else setBit a (16 + (o - 0x100) / 0x20)
    else a) 0

/-- `CHILD_SUM` of a floor page (R47). -/
def State.floorSum (s : State) (n f : Nat) : Nat :=
  s.pendingPages.foldl (fun a p => if pgFLOOR n f < p ∧ p ≤ pgFLOOR n f + 9 then setBit a (p - pgFLOOR n f - 1) else a) 0

/-- The events of function `fn`'s window: bit `k` for slot `k` (R50, R493). -/
def State.winSum (s : State) (fn : Nat) : Nat :=
  s.pendingPages.foldl (fun a p =>
    if 0x20000 ≤ p ∧ p < 0x21000 ∧ p % 4 = 2 then
      match s.slotOf fn ((p - 0x20000) / 4) with
      | some k => setBit a k
      | none => a
    else a) 0

/-- The module's messages wait while the link is down or the PF is in D3hot (R477). -/
def State.linkUp (s : State) : Bool := s.on pgHOST F.HOST_LINK_UP && !s.host.d3hot && !s.on pgPOWER F.PWR_STATUS_PULL

/-- Send the MSI-X message of a vector: a masked vector sets its pending bit (R493). -/
def State.msix (s : State) (fn vec : Nat) : State :=
  if nget s.host.msixOpen (fn * 2048 + vec) = 0 then
    { s with host := { s.host with msixPend := nput s.host.msixPend (fn * 2048 + vec) 1 } }
  else if s.linkUp then
    ({ s with msgs := .msix fn vec :: s.msgs }).count pgINTAKE 0x064 1
  else { s with host := { s.host with heldMsgs := s.host.heldMsgs ++ [(fn, vec)] } }

/-- The interrupt edges between two states: the PF's event message when the enabled root sum leaves zero (R48),
and vector 0 of a function whose window sum leaves zero (R493). -/
def State.edges (s0 s : State) : State :=
  let s1 :=
    if s0.rootSum &&& s0.rd pgEVT F.EVT_ROOT_EN = 0 ∧ s.rootSum &&& s.rd pgEVT F.EVT_ROOT_EN ≠ 0 then s.msix 0 1 else s
  (List.range 32).foldl (fun a fn => if s0.winSum fn = 0 ∧ s.winSum fn ≠ 0 then a.msix fn 0 else a) s1

/-- Latch event `bit` of page `pg` in `EVT_RAW`, whatever `EVT_EN` holds (R37). -/
def State.raise (s : State) (pg bit : Nat) : State :=
  s.edges (s.wr pg F.EVT_RAW (s.rd pg F.EVT_RAW ||| 2 ^ bit))

/-- Capture a fault in a page's header: the first is kept, a further one sets MORE (R37). -/
def State.capture (s : State) (pg code loc : Nat) (ctx : Option Nat) : State :=
  if s.on pg F.FAULT_CAPT_VALID then s.wr pg F.FAULT_CAPT_MORE 1
  else
    ((((((((s.wr pg F.FAULT_CAPT_VALID 1).wr pg F.FAULT_CAPT_CODE code).wr pg F.FAULT_LOC loc).wr pg F.FAULT_CAPT_CTX
      (ctx.getD 0)).wr pg F.FAULT_CAPT_CTX_VALID (boolNat ctx.isSome)).wr pg F.FAULT_TICK_LO (s.tick % 2 ^ 32)).wr pg
      F.FAULT_TICK_HI (s.tick / 2 ^ 32)).raise pg 31)

/-! Context events (R49, R415) -/

/-- Raise event `bit` in context `c`'s event page and write its record: status, code and qualifier. -/
def State.ctxEvent (s : State) (c bit status code qual : Nat) : State :=
  let pg := pgCEV c
  let wrI := s.rd pg F.CEV_REC_WR
  if (wrI + 2 ^ 32 - s.rd pg F.CEV_REC_RD) % 2 ^ 32 = 64 then
    ((s.raise pg bit).raise pg 25).count pg 0x04C 1
  else
    let i := 4 * (wrI % 64)
    (((((s.wri pg F.CEV_REC i (bit + 256 * status + 65536 * code)).wri pg F.CEV_REC (i + 1) qual).wri pg F.CEV_REC (i + 2)
      (qual / 2 ^ 32)).wri pg F.CEV_REC (i + 3) s.tick).wr pg F.CEV_REC_WR (wrI + 1)).raise pg bit

/-- Status codes (R11). -/
abbrev stCOMPLETE : Nat := 0x00
abbrev stLATE : Nat := 0x01
abbrev stCANCELLED : Nat := 0x02
abbrev stPARTIAL : Nat := 0x08
abbrev stREFUSED_MEM : Nat := 0x10
abbrev stREFUSED_TIME : Nat := 0x11
abbrev stHELD : Nat := 0x12
abbrev stRECOMPUTED : Nat := 0x20
abbrev stNOUNIT : Nat := 0x30
abbrev stFAULT : Nat := 0x40
abbrev stABORTED : Nat := 0x41
abbrev stFENCED : Nat := 0x42
abbrev stDENIED : Nat := 0x50

/-! Commands and responses (R481–R484) -/

/-- A command completes: its response waits for the completion writer (R484). -/
def State.respond (s : State) (fn tag status result : Nat) : State :=
  { s with host := { s.host with resps := s.host.resps ++ [{ fn := fn, tag := tag, status := status, result := result }] } }

/-- A command that must wait holds its function (R484). -/
def State.hold (s : State) (fn tag : Nat) (on : WaitOn) (result : Nat) : State :=
  { s with host := { s.host with waits := s.host.waits ++ [{ fn := fn, tag := tag, on := on, result := result }] } }

def State.hostRead (s : State) (a n : Nat) : Nat := bgetLE s.host.mem a n
def State.hostWrite (s : State) (a v n : Nat) : State := { s with host := { s.host with mem := bputLE s.host.mem a v n } }

/-- A function's command ring (R481): its control block, its entries, and the control block of its response ring, which stands after the
response entries (assumption log 11). -/
def State.cmdBase (s : State) (fn : Nat) : Nat := (s.rd (pgWIN fn) F.WIN_CMDQ_ADDR_LO + 2 ^ 32 * s.rd (pgWIN fn) F.WIN_CMDQ_ADDR_HI) / 64 * 64
def State.cmdSize (s : State) (fn : Nat) : Nat := 2 ^ s.rd (pgWIN fn) F.WIN_CMDQ_LOG2
def State.respBase (s : State) (fn : Nat) : Nat := s.cmdBase fn + 64 + 96 * s.cmdSize fn

/-- A response ring that has no free entry (R484). -/
def State.respFull (s : State) (fn : Nat) : Bool :=
  s.on (pgWIN fn) F.WIN_CMDQ_EN &&
    decide (s.cmdSize fn ≤ (nget s.host.respProd fn + 2 ^ 32 - s.hostRead (s.respBase fn + 32) 4) % 2 ^ 32)

/-- Is a command of the function still being performed, or its response ring full? -/
def State.holding (s : State) (fn : Nat) : Bool := (s.host.waits.any fun w => w.fn == fn) || s.respFull fn

/-- Commands whose wait has ended complete (R484). -/
def State.wake (s : State) (done : WaitOn → Bool) (status : Nat) : State :=
  let ready := s.host.waits.filter fun w => done w.on
  ready.foldl (fun t w => t.respond w.fn w.tag status w.result)
    { s with host := { s.host with waits := s.host.waits.filter fun w => !done w.on } }

/-- The commands a VF may issue, by opcode (R482). -/
def vfMay (op : Nat) : Bool :=
  [0x24, 0x25, 0x33, 0x34, 0x38, 0x39, 0x40, 0x41, 0x42, 0x43, 0x48, 0x49, 0x4A, 0x4B, 0x4C].contains op

/-! Who is in control (R381, R383) -/

/-- The claim numbers of A and B, and which unit is higher: 0 is A, 1 is B. -/
def higherClaim (a b : Nat) : Option Nat :=
  if a = 0 ∧ b = 0 then none
  else if b = 0 then some 0
  else if a = 0 then some 1
  else
    let d := (a + 256 - b) % 256
    if d = 0 ∨ d = 128 ∨ d < 128 then some 0 else some 1

/-- The unit that is higher in this clock. -/
def State.higher (s : State) : Option Nat := higherClaim (s.rd (pgCM 0) F.CM_CLAIM) (s.rd (pgCM 1) F.CM_CLAIM)

/-- A unit is in control and takes decisions: after the latch of a handover copy the outgoing unit takes none (R393). -/
def State.inControl (s : State) : Bool := s.higher.isSome && s.cm.handover.isNone

/-- A retired unit of the Cellarmaster pair (R388). -/
def State.cmRetired (s : State) (u : Nat) : Bool := s.isRetired (pgCM u)

/-- The commands that the active Cellarmaster performs (R174, R207, R288, R310, R483), by opcode. -/
def cmOp (op : Nat) : Bool := op == 5 || op == 6 || (0x10 ≤ op && op ≤ 0x34)

/-- Perform command `op` of function `fn`: nothing happens before READY (R543) or while an earlier command of the function
holds it (R484), and a command that a VF may not issue completes with DENIED (R482). `vf` overrides the table of R482 for
the opcodes that chapter 20 rules on. A command of the active Cellarmaster waits while no unit is in control, and completes with NOUNIT while
both are retired (R8, R388). The command leaves the list of commands taken. -/
def State.command (s : State) (fn tag op : Nat) (body : State → State) (vf : Bool := vfMay op) : State :=
  if !s.ready || s.holding fn then s
  else
    let s1 := { s with host := { s.host with taken := s.host.taken.erase (fn, tag, op) } }
    if fn ≠ 0 ∧ vf = false then s1.respond fn tag stDENIED 0
    else if cmOp op && s.cmRetired 0 && s.cmRetired 1 then s1.respond fn tag stNOUNIT 0
    else if cmOp op && !s.inControl then s
    else body s1

/-! Access errors (R31, R33, R46) -/

/-- Latch a refused or malformed access in the MOD page, or count it while an earlier one is latched. -/
def State.accessErr (s : State) (a : RegAcc) : State :=
  if s.on pgMOD F.MOD_ACC_ERR_VALID then (s.count pgMOD 0x04C 1).raise pgMOD 0
  else
    ((((s.wr pgMOD F.MOD_ACC_ERR_VALID 1).wr pgMOD F.MOD_ACC_ERR_ADDR
      (if a.bar2 then a.off % 2 ^ 20 else a.off)).wr pgMOD F.MOD_ACC_ERR_BAR2 (boolNat a.bar2)).wr pgMOD F.MOD_ACC_ERR_FUNC
      a.fn.val).raise pgMOD 0

/-- The page that holds pass-through slot `p` of function `fn` (R42). -/
def State.passThrough (s : State) (fn p : Nat) : Option Nat :=
  s.regs.findSome? fun e =>
    if e.1 % 131072 = 0x80 * 32 ∧ e.2 = fn ∧ s.rd (e.1 / 131072) F.OWNER_PT_SLOT = p then some (e.1 / 131072) else none

/-- Where a host access lands (R42, R44, R50, R51); in recovery the one function shows the recovery page alone (R458). Nothing
answers without the main regulators or while MOD_RESET_N is low. -/
def State.target (s : State) (a : RegAcc) : Target :=
  if s.pwr.mainOff || s.start.modLow then .absent
  else if s.fw.recovery then (if a.bar2 || a.fn != 0 then .absent else if a.off < 4096 then .reg pgREC .recovery a.off false else .unassigned)
  else if !a.bar2 then bar0Target s.variant a.off
  else
    let p := a.off / 4096 % 256
    let o := a.off % 4096
    if p = 0 then .reg (pgWIN a.fn.val) .win o false
    else if p < 4 then .unassigned
    else if p < 0xC4 then
      let k := (p - 4) / 3
      if s.rdi (pgWIN a.fn.val) F.WIN_SLOT_VALID k = 1 then
        let c := s.rdi (pgWIN a.fn.val) F.WIN_SLOT_CTX k
        match (p - 4) % 3 with
        | 0 => .reg (pgSPL c) .spl o false
        | 1 => .reg (pgCNT c) .cnt o false
        | _ => .reg (pgCEV c) .cev o false
      else .absent
    else if a.fn.val = 0 then .absent
    else match s.passThrough a.fn.val (p - 0xC4) with
      | none => .absent
      | some pg => match pageKind pg with
        | none => .absent
        | some k => if pagePresent s.variant pg then .reg pg k o true else .absent

/-- The byte offset of a register of page `page`, as a host access. -/
def pageReg (p : PageAcc) (o : Nat) : RegAcc := { fn := p.fn, bar2 := p.bar2, off := p.page * 4096 + o }

/-- May function `fn` write the block registers of page `pg` (R41)? A BAR2 page belongs to its own function. -/
def State.mayWriteBlock (s : State) (pg fn : Nat) : Bool :=
  if 0x10000 ≤ pg then true
  else s.rd pg F.OWNER_FUNC == fn &&
    (!s.on pg F.OWNER_CTX_VALID || s.boundTo fn (s.rd pg F.OWNER_CTX))

/-- May this access write the header of the page it reached (R41)? -/
def mayWriteHeader (pg fn : Nat) (passThrough : Bool) : Bool := 0x10000 ≤ pg || (fn == 0 && !passThrough)

/-- The page is locked for RWL fields (R43). -/
def State.locked (s : State) (pg : Nat) : Bool := s.on pg F.LOCK_LOCKED || s.on pg F.LOCK_GAUGER_LOCKED

/-- A block-register action of function `fn` on a page of BAR0: performed when R41 allows it, else refused with ACCESS_ERR. -/
def State.blockAction (s : State) (pg fn off : Nat) (body : State → State) : State :=
  if s.mayWriteBlock pg fn then body s
  else s.accessErr { fn := ⟨fn % 32, Nat.mod_lt _ (by decide)⟩, bar2 := fn != 0, off := if fn = 0 then pg * 4096 + off else
    (0xC4 + s.rd pg F.OWNER_PT_SLOT) * 4096 + off }

/-! Free values -/

/-- A fresh free value of `w` bits (assumption log 2): the state with its counter advanced, and the value. -/
def State.fresh (s : State) (w : Nat) : State × Nat :=
  ({ s with freeIdx := s.freeIdx + 1 }, Config.freeNat s.freeIdx % 2 ^ w)

end Sys2Proof.Machine
end

