-- ==== Sys2Proof/Machine/Operands.lean ====
section
/-! DEFINITION. The kernel instruction word and its operand forms: fields, registers, addresses, packed elements, and the
checks that precede issue (R81–R90, R94, R115–R118, R164). -/

namespace Sys2Proof.Machine

/-- The fields of an instruction word (R85). -/
structure IW where
  op : Nat
  dst : Nat
  sa : Nat
  sb : Nat
  pred : Nat
  fmt : Nat
  imm : Nat
  deriving DecidableEq, Repr

def iwOf (w : Nat) : IW :=
  { op := bits w 56 8, dst := bits w 51 5, sa := bits w 46 5, sb := bits w 41 5, pred := bits w 38 3, fmt := bits w 32 6,
    imm := bits w 0 32 }

/-- The units of R86. -/
inductive Unit3 where
  | front | tun | vec | lse
  deriving DecidableEq, Repr

/-- The unit of a listed opcode (R86). -/
def opUnit (op : Nat) : Option Unit3 :=
  if op ≤ 0x08 then some .front
  else if 0x10 ≤ op ∧ op ≤ 0x1E then some .front
  else if 0x20 ≤ op ∧ op ≤ 0x29 then some .lse
  else if 0x30 ≤ op ∧ op ≤ 0x34 then some .tun
  else if 0x40 ≤ op ∧ op ≤ 0x61 then some .vec
  else none

/-! Registers (R83, R84) -/

/-- `x0` reads 0 and discards writes. -/
def Kernel.xr (k : Kernel) (r : Nat) : Nat := if r = 0 then 0 else nget k.x r
def Kernel.xw (k : Kernel) (r v : Nat) : Kernel := if r = 0 then k else { k with x := nput k.x r (v % 2 ^ 32) }

def Kernel.vr (k : Kernel) (r l : Nat) : Nat := nget k.v (64 * r + l)
def Kernel.vw (k : Kernel) (r l val : Nat) : Kernel := { k with v := nput k.v (64 * r + l) (val % 2 ^ 32) }

/-- `p0` reads all ones and discards writes; a predicate number is the low three bits of its field (assumption log 20). -/
def Kernel.pr (k : Kernel) (r : Nat) : Nat := if r % 8 = 0 then 2 ^ 64 - 1 else nget k.p (r % 8)
def Kernel.pw (k : Kernel) (r v : Nat) : Kernel := if r % 8 = 0 then k else { k with p := nput k.p (r % 8) (v % 2 ^ 64) }

def Kernel.ar (k : Kernel) (set row col : Nat) : Nat := nget k.acc (1024 * set + 32 * row + col)
def Kernel.aw (k : Kernel) (set row col val : Nat) : Kernel :=
  { k with acc := nput k.acc (1024 * set + 32 * row + col) (val % 2 ^ 32) }

/-- The kind of an accumulator set: true is INT (R123). -/
def Kernel.isInt (k : Kernel) (set : Nat) : Bool := if set = 0 then k.int0 else k.int1
def Kernel.setInt (k : Kernel) (set : Nat) (b : Bool) : Kernel := if set = 0 then { k with int0 := b } else { k with int1 := b }

/-- Is lane `l` active under the instruction's predicate? -/
def Kernel.active (k : Kernel) (w : IW) (l : Nat) : Bool := nbit (k.pr w.pred) l

/-- The lanes 0–63. -/
def lanes : List Nat := List.range 64

/-- Write lanes of a vector register: those that `p` selects take the value that `f` gives. -/
def Kernel.vset (k : Kernel) (r : Nat) (p : Nat → Bool) (f : Nat → Nat) : Kernel :=
  lanes.foldl (fun t l => if p l then t.vw r l (f l) else t) k

/-- `xSA` + `IMM`. -/
def Kernel.addr (k : Kernel) (w : IW) : Nat := (k.xr w.sa + w.imm) % 2 ^ 32

/-- The 64-bit source or target `xSA`:`xSA`+1 of a DMA. -/
def Kernel.xPair (k : Kernel) (r : Nat) : Nat := k.xr r + 2 ^ 32 * k.xr (r + 1)

/-! Vat-store addresses (R164) -/

/-- The partitioned address of a kernel's vat-store address: bank × 2^17 + line × 64 + byte; none for an address that names
no bank. -/
def mapAddr (partitioned : Bool) (a : Nat) : Option Nat :=
  if 2 ^ 21 ≤ a then none
  else if partitioned then some a
  else some (bits a 6 4 * 131072 + bits a 10 11 * 64 + bits a 0 6)

/-! Marks (R92) -/

def Kernel.marks (k : Kernel) : List Mark := (k.tunQ ++ k.vecQ ++ k.lseQ).flatten

def Kernel.marked (k : Kernel) (m : Mark) : Bool := k.marks.contains m

/-- No scalar register of the list is marked; `x0` never is. -/
def Kernel.xFree (k : Kernel) (rs : List Nat) : Bool := rs.all fun r => r == 0 || !k.marked (.x r)

def Kernel.queue (k : Kernel) : Unit3 → List (List Mark)
  | .tun => k.tunQ
  | .vec => k.vecQ
  | .lse => k.lseQ
  | .front => []

/-- Entries a unit's queue holds (R91). -/
def queueCap : Unit3 → Nat
  | .lse => 16
  | _ => 8

def Kernel.push (k : Kernel) (u : Unit3) (ms : List Mark) : Kernel :=
  match u with
  | .tun => { k with tunQ := k.tunQ ++ [ms] }
  | .vec => { k with vecQ := k.vecQ ++ [ms] }
  | .lse => { k with lseQ := k.lseQ ++ [ms] }
  | .front => k

/-! The program counter (R94) -/

/-- The next word after `pc`: at the last word of the innermost loop body the body repeats or the loop ends. -/
def nextPc : Nat → List Loop → Nat × List Loop
  | pc, [] => (pc + 1, [])
  | pc, l :: ls =>
    if pc = l.last then
      (if 1 < l.left then (l.start, { l with left := l.left - 1 } :: ls) else nextPc pc ls)
    else (pc + 1, l :: ls)

def Kernel.advance (k : Kernel) : Kernel :=
  let (pc, ls) := nextPc k.pc k.loops
  { k with pc := pc, loops := ls }

/-- The word that a taken branch reaches; negative targets are none. -/
def branchTarget (pc : Nat) (w : IW) : Option Nat :=
  let t : Int := (pc : Int) + sext w.imm 32
  if t < 0 then none else some t.toNat

def descHolds (d : Desc) (a : Nat) : Bool := d.entry ≤ a && a < d.entry + d.length

def Kernel.taken (k : Kernel) (w : IW) : Bool := nbit w.fmt 0 || k.xr w.sa != 0

def Loop.holds (l : Loop) (a : Nat) : Bool := l.start ≤ a && a ≤ l.last

/-- The repeats of a LOOP instruction (R86). -/
def Kernel.loopCount (k : Kernel) (w : IW) : Nat := if w.sa = 0 then bits w.imm 16 16 else k.xr w.sa

/-! Formats (R81, R82, R89, R124) -/

/-- Does R82 accept the pair? -/
def pairOk (a b : Nat) : Bool := !fmtReserved a && !fmtReserved b && (fmtIsInt a == fmtIsInt b)

/-- `k` of the step of a pair: 8 when both are 4-bit formats, else 4 (R81, R82). -/
def pairK (a b : Nat) : Nat := if fmtBits a = 4 ∧ fmtBits b = 4 then 8 else 4

def mmaA (w : IW) : Nat := bits w.imm 28 4
def mmaB (w : IW) : Nat := bits w.imm 24 4
def mmaDiag (w : IW) : Bool := nbit w.imm 23
def mmaZero (w : IW) : Bool := nbit w.imm 22
def mmaK (w : IW) : Nat := bits w.imm 0 16

/-- R89's rules for *K*. -/
def mmaKOk (a b k : Nat) : Bool :=
  k % 4 == 0 && ((fmtBits a != 4 && fmtBits b != 4) || k % 8 == 0) && ((!fmtIsMx a && !fmtIsMx b) || k % 32 == 0) &&
    decide (k ≤ 16384)

/-- Output format codes of ACCST (R124). -/
def accFmtOk (c : Nat) : Bool := c ≤ 0xC || c == 0x10 || c == 0x11

/-! Packed elements (R115, R118) -/

/-- Bytes of 64 elements of a format: where LDVC and STVC find the scales (R118). -/
def vecBytes (c : Nat) : Nat := 8 * fmtBits c

/-- Element `i` of the bit stream of width `w` that begins where `byte 0` reads. -/
def streamElem (byte : Nat → Nat) (w i : Nat) : Nat :=
  (byte (w * i / 8) + 256 * byte (w * i / 8 + 1)) / 2 ^ (w * i % 8) % 2 ^ w

/-- Bytes of one run of an MMA operand (R118). -/
def runBytes (c : Nat) : Nat := if fmtBits c = 16 then 256 else 128

/-- Element (`r`, `kk`) of a packed MMA operand whose bytes `byte` reads (R118). -/
def operandElem (byte : Nat → Nat) (c r kk : Nat) : Nat :=
  streamElem (fun j => byte (kk / fmtK c * runBytes c + j)) (fmtBits c) (r * fmtK c + kk % fmtK c)

/-- The scale byte of row or column `r` in block `b`; an operand that is not MX counts as carrying 127 (R118, R121). -/
def operandScale (byte : Nat → Nat) (c K r b : Nat) : Nat :=
  if fmtIsMx c then byte (K / fmtK c * runBytes c + 32 * b + r) else 127

/-- Bytes of an MMA operand with its scales. -/
def operandBytes (c K : Nat) : Nat := K / fmtK c * runBytes c + (if fmtIsMx c then K / 32 * 32 else 0)

/-! The checks before issue (R82, R88, R89, R94, R123) -/

/-- Must the vat-store address be 64-byte aligned, 4-byte aligned, or neither? -/
def addrAlign (op : Nat) : Nat :=
  if op = 0x20 ∨ op = 0x21 ∨ op = 0x22 ∨ op = 0x23 ∨ op = 0x32 ∨ op = 0x34 then 64
  else if op = 0x24 ∨ op = 0x25 ∨ op = 0x28 ∨ op = 0x29 then 4
  else 1

/-- Does the front end end the kernel before this word issues? Beside the list of R88 and the rules that refer to it (R82, R89,
R94, R123, R124), a VCMP condition of 7 and a VTOPK of more than 64 entries or with DST = 31 are refused (DEDUCED, log 21). -/
def Kernel.illegal (k : Kernel) (w : IW) : Bool :=
  !descHolds k.desc k.pc ||
  (match opUnit w.op with
    | none => true
    | some .front => w.pred != 0
    | _ => false) ||
  (w.op == 0x02 && k.taken w &&
    (match branchTarget k.pc w with
      | none => true
      | some t => !descHolds k.desc t ||
          (match k.loops with
            | [] => false
            | l :: _ => k.pc != l.last && !l.holds t))) ||
  (w.op == 0x03 && (decide (4 ≤ k.loops.length) || decide (k.desc.entry + k.desc.length < k.pc + 1 + bits w.imm 0 16))) ||
  (k.addr w % addrAlign w.op != 0) ||
  ((w.op == 0x22 || w.op == 0x23) && fmtReserved (bits w.fmt 0 4)) ||
  ((w.op == 0x26 || w.op == 0x27) && w.sa % 2 == 1) ||
  (w.op == 0x30 && (!pairOk (mmaA w) (mmaB w) || !mmaKOk (mmaA w) (mmaB w) (mmaK w) ||
    (!mmaZero w && fmtIsInt (mmaA w) != k.isInt (bits w.fmt 0 1)))) ||
  (w.op == 0x32 && !accFmtOk (bits w.fmt 0 5)) ||
  (w.op == 0x4D && bits w.fmt 1 3 == 7) ||
  (w.op == 0x5F && (decide (64 < bits w.imm 0 7) || w.dst == 31))

end Sys2Proof.Machine
end

