-- ==== Sys2Proof/Machine/Vat.lean ====
section
/-! DEFINITION. Shared operations on vats, floors, steps and spile messages: vat-store access, ending a kernel, detections, and the frame of
every kernel instruction (R26, R84, R88, R91, R102, R134, R141, R164, R173). -/

namespace Sys2Proof.Machine

def vatPg (v : VatId) : Nat := pgVAT v.die.val v.floor.val v.vat.val
def floorPgOf (f : FloorId) : Nat := pgFLOOR f.die.val f.floor.val

/-- The floor page of a vat page, and the physical number of the vat. -/
def floorOfVat (pg : Nat) : Nat := pg - pg % 0x20
def physOfVat (pg : Nat) : Nat := pg % 0x20 - 1
def floorNo (pg : Nat) : Nat := (pg % 0x1000 - 0x100) / 0x20

def State.vat (s : State) (pg : Nat) : Vat := (mget s.vats pg).getD {}
def State.setVat (s : State) (pg : Nat) (v : Vat) : State := { s with vats := mput s.vats pg v }
def State.kern (s : State) (pg : Nat) : Option Kernel := (s.vat pg).kern
def State.setKern (s : State) (pg : Nat) (k : Option Kernel) : State := s.setVat pg { s.vat pg with kern := k }
def State.floor (s : State) (pg : Nat) : FloorSt := (mget s.floors pg).getD {}
def State.setFloor (s : State) (pg : Nat) (f : FloorSt) : State := { s with floors := mput s.floors pg f }
def State.step1 (s : State) (id : Nat) : Option Step := mget s.steps id
def State.setStep (s : State) (id : Nat) (st : Step) : State := { s with steps := mput s.steps id st }
def State.modStep (s : State) (id : Nat) (f : Step → Step) : State := { s with steps := mmod s.steps id f }

/-- The physical vat page that carries logical number `L` of a floor (R105). -/
def State.vatOf (s : State) (floorPg L : Nat) : Option Nat :=
  let p := bits (s.rd floorPg F.FLOOR_VAT_MAP) (4 * L) 4
  if p < 9 then some (floorPg + 1 + p) else none

/-- The logical number that a physical vat carries; 0xF when spare or retired (R113). -/
def State.logicalOf (s : State) (pg : Nat) : Nat :=
  ((List.range 8).find? fun L => s.vatOf (floorOfVat pg) L == some pg).getD 0xF

/-- The context that holds a reservation of a floor (R418). -/
def State.floorFor (s : State) (fp : Nat) : Option Nat :=
  (s.ctxs.floors.find? fun r => pgDIE r.2.1 == fp / 0x1000 * 0x1000 && (List.range 12).any fun f => nbit r.2.2 f && pgFLOOR r.2.1 f == fp).map (·.1)

/-- May context `c` use the floor? -/
def State.floorOpen (s : State) (fp c : Nat) : Bool := (s.floorFor fp).all fun r => r == c

/-! Context records whose status, code or qualifier the spec does not give: those are free values (assumption log 2) -/

/-- A context event of which the rule gives the status and the code. -/
def State.ctxCode (s : State) (c bit st code : Nat) : State :=
  let (s, q) := s.fresh 64
  s.ctxEvent c bit st code q

/-- A context event of which the rule gives only the event. -/
def State.ctxNote (s : State) (c bit : Nat) : State :=
  let (s, st) := s.fresh 8
  let (s, code) := s.fresh 16
  s.ctxCode c bit st code

/-- A context event of which the rule gives the event and the qualifier. -/
def State.ctxNoteQ (s : State) (c bit q : Nat) : State :=
  let (s, st) := s.fresh 8
  let (s, code) := s.fresh 16
  s.ctxEvent c bit st code q

/-! Steps that fail (R88, R134) -/

/-- The step will complete with this status; the first failure is kept. -/
def State.failStep (s : State) (id status code : Nat) : State :=
  s.modStep id fun st => if st.status = 0 then { st with status := status, code := code } else st

/-- A failed ownership check of a vat store: ACCESS_DENIED, and the step completes with DENIED (R26, R88). -/
def State.denyVat (s : State) (k : Kernel) : State :=
  (s.modStep k.step fun st => { st with denied := true }).ctxCode k.ctx 12 stDENIED 1

/-! Spile messages (R141, R143) -/

/-- A virtual spile of a context as its map translates it: the physical spile and LOCAL. -/
def State.spMap (s : State) (c v : Nat) : Option (Nat × Bool) :=
  if 512 ≤ v then none
  else match mget s.spl.maps (c * 32 + v / 16) with
    | some m => some (m.die * 4096 + m.group * 16 + v % 16, m.isLocal)
    | none => none

def State.send (s : State) (m : SpMsg) : State := { s with spl := { s.spl with flight := s.spl.flight ++ [m] } }

/-- Send an operation for context `c` on virtual spile `v`; one whose number does not translate raises SPILE_RANGE and is
discarded (R143, R158). -/
def State.spSend (s : State) (port c v : Nat) (op : SpOp) : State :=
  match s.spMap c v with
  | some (phys, _) => s.send { port := port, ctx := c, v := v, phys := phys, op := op }
  | none => (s.ctxNoteQ c 5 v).count (pgSPL c) 0x068 1

/-! Vat-store access (R164, R166, R173, R175) -/

/-- May context `c` reach bank `b` of a vat (R173)? -/
def State.bankOwned (s : State) (pg c b : Nat) : Bool :=
  s.rdi pg F.VAT_BANK_OWNER_VALID b == 1 && s.rdi pg F.VAT_BANK_OWNER_CTX b == c &&
  s.rdi pg F.VAT_BANK_OWNER_CLEARING b == 0 && s.rdi pg F.VAT_BANK_OWNER_RETIRED b == 0

/-- The store key of a kernel's address, when the kernel may reach it. -/
def State.kkey (s : State) (pg : Nat) (k : Kernel) (a : Nat) : Option Nat :=
  match mapAddr k.desc.partitioned a with
  | some p => if nbit k.desc.bankMask (p / 131072) && s.bankOwned pg k.ctx (p / 131072) then some (pg * 2 ^ 21 + p) else none
  | none => none

/-- A byte as the kernel reads it: zero where the check fails. -/
def State.kbyte (s : State) (pg : Nat) (k : Kernel) (a : Nat) : Nat :=
  match s.kkey pg k a with
  | some key => (bget s.vstore key).toNat
  | none => 0

/-- A little-endian number of `n` bytes as the kernel reads it. -/
def State.kread (s : State) (pg : Nat) (k : Kernel) (a : Nat) : Nat → Nat
  | 0 => 0
  | n + 1 => s.kbyte pg k a + 256 * s.kread pg k (a + 1) n

/-- The lines that `n` bytes from `a` touch, by the address of each. -/
def linesOf (a n : Nat) : List Nat := if n = 0 then [] else (List.range ((a + n - 1) / 64 - a / 64 + 1)).map fun i => (a / 64 + i) * 64

/-- Does the check fail for some line of the range? -/
def State.kdenied (s : State) (pg : Nat) (k : Kernel) (a n : Nat) : Bool := (linesOf a n).any fun l => (s.kkey pg k l).isNone

/-- Does some word of the range, that the kernel may reach, read with a parity error? -/
def State.kbad (s : State) (pg : Nat) (k : Kernel) (a n : Nat) : Bool :=
  (List.range ((a + n + 3) / 4 - a / 4)).any fun i =>
    match s.kkey pg k ((a / 4 + i) * 4) with
    | some key => mget s.vbad (key / 4) != none
    | none => false

/-- Write bytes at kernel addresses: only where the check passes; a word written whole is no longer bad (R175). -/
def State.kput (s : State) (pg : Nat) (k : Kernel) (ws : List (Nat × Nat)) : State :=
  ws.foldl (fun t w =>
    match s.kkey pg k w.1 with
    | some key =>
      let t := { t with vstore := bput t.vstore key (BitVec.ofNat 8 w.2) }
      if (List.range 4).all fun j => ws.any fun u => u.1 == w.1 / 4 * 4 + j then { t with vbad := mdel t.vbad (key / 4) } else t
    | none => t) s

/-- Is some word of the writes bad and not written whole? Such a write reads first and finds the error (R169, R175). -/
def State.kputBad (s : State) (pg : Nat) (k : Kernel) (ws : List (Nat × Nat)) : Bool :=
  ws.any fun w => s.kbad pg k (w.1 / 4 * 4) 4 && !((List.range 4).all fun j => ws.any fun u => u.1 == w.1 / 4 * 4 + j)

/-- The bytes of a little-endian number at an address. -/
def leBytes (a v : Nat) : Nat → List (Nat × Nat)
  | 0 => []
  | n + 1 => (a, v % 256) :: leBytes (a + 1) (v / 256) n

/-! Early rotations (R107, R111, R176) -/

/-- An early request for a vat: EARLY_ROT is raised when it is made. -/
def State.earlyRot (s : State) (pg : Nat) : State :=
  let fp := floorOfVat pg
  ((s.setFloor fp { s.floor fp with early := (s.floor fp).early ++ [physOfVat pg] }).count fp 0x060 1).raise fp 6

/-- Clocks in 24 hours. -/
abbrev clkDay : Nat := 27648000000000

/-- Record a detection of part `i` of a vat; the second within 24 hours requests an early rotation (R107, R176). -/
def State.noteDet (s : State) (pg i : Nat) : State :=
  let v := s.vat pg
  let recent := v.dets.filter fun d => decide (s.now < d.2 + clkDay)
  let s1 := s.setVat pg { v with dets := recent ++ [(i, s.now)] }
  if recent.any fun d => d.1 == i then s1.earlyRot pg else s1

/-! Ending kernels (R86, R88, R102, R134) -/

/-- The clocks a kernel has run, without the time it was suspended (R95). -/
def Kernel.clk (k : Kernel) (s : State) : Nat := k.ran + (s.now - k.since)

/-- The running kernel's registers of the vat page (R113). -/
def State.showRun (s : State) (pg : Nat) : State :=
  match s.kern pg with
  | some k => (((s.wr pg F.VAT_RUN_ACTIVE 1).wr pg F.VAT_RUN_SLOT k.slot).wr pg F.VAT_RUN_KID k.desc.kid).wr pg F.VAT_STORE_MODE
      (boolNat k.desc.partitioned)
  | none => ((s.wr pg F.VAT_RUN_ACTIVE 0).wr pg F.VAT_RUN_SLOT 0).wr pg F.VAT_RUN_KID 0

/-- Is the message a wait or take, or a withdrawal, of this waiter? -/
def SpMsg.isFor (m : SpMsg) (w : Who) : Bool :=
  match m.op with
  | .wait _ x => x == w
  | .take _ x => x == w
  | .withdraw _ x _ => x == w
  | .post _ => false

/-- Is a class-0 entry ready in the vat? -/
def Vat.c0Ready (v : Vat) : Bool := v.entries.any fun e => e.2.cls == 0 && e.2.ready

/-- R102, R151: a free vat restores its suspended kernel unless a further class-0 entry is ready. A wait that was withdrawn is registered
again, one still on its way keeps its place, and a take satisfied in the meantime stays satisfied. -/
def State.restore (s : State) (pg : Nat) : State :=
  let v := s.vat pg
  match v.kern, v.susp with
  | none, some k =>
    if v.c0Ready || !v.drain.isEmpty then s
    else
      let who := Who.front pg false
      let k1 := { k with since := s.now }
      let (k2, msg) : Kernel × Option SpOp :=
        match k.hold with
        | none => (k1, none)
        | some h =>
          if k.released then ({ k1 with hold := none, released := false }, none)
          else if s.spl.rels.any (fun r => r.1 == who) || s.spl.flight.any (fun m => m.isFor who) then (k1, none)
          else (k1, some (if h.take then .take h.n who else .wait h.n who))
      let s0 := { s with spl := { s.spl with flight := s.spl.flight.filter fun m =>
        match m.op with
        | .withdraw _ x false => x != who
        | _ => true } }
      let s1 := ((s0.setVat pg { v with kern := some k2, susp := none }).wr pg F.VAT_RUN_SUSPENDED 0).showRun pg
      let dur := s.now - v.suspClk
      let s2 := if s1.ctr pg 0x064 < dur then { s1 with ctrs := nput s1.ctrs (pg * 4096 + 0x064) dur } else s1
      match msg, k.hold with
      | some op, some h => s2.spSend pg k.ctx h.v op
      | _, _ => s2
  | _, _ => s

/-- What is left of a kernel that ends: its outstanding DMAs drain (R134). -/
def Kernel.left (k : Kernel) : List Kernel := if k.dmas.isEmpty then [] else [k]

/-- The kernel of a vat ends: no register value stays, the vat counts its clocks, and a suspended kernel resumes. A wait or take still
held is withdrawn, its amount going back. -/
def State.endKernel (s : State) (pg : Nat) : State :=
  match s.kern pg with
  | none => s
  | some k =>
    let v := s.vat pg
    let s1 := (s.count pg 0x04C (k.clk s)).setVat pg { v with kern := none, drain := v.drain ++ k.left }
    let s2 := match k.hold with
      | some h => s1.spSend pg k.ctx h.v (.withdraw (if h.take then h.n else 0) (.front pg (k.cls == 0)) true)
      | none => s1
    (s2.showRun pg).restore pg

/-- End every kernel of a step, running or suspended, without posting (R134, R154). -/
def State.endStepKernels (s : State) (id : Nat) : State :=
  s.vats.foldl (fun t e =>
    let t1 := match (t.vat e.1).susp with
      | some k => if k.step = id then (t.setVat e.1 { t.vat e.1 with susp := none, drain := (t.vat e.1).drain ++ k.left }).wr e.1 F.VAT_RUN_SUSPENDED 0 else t
      | none => t
    match t1.kern e.1 with
    | some k => if k.step = id then t1.endKernel e.1 else t1
    | none => t1) s

/-- R134: the run of a step ends on a detection in a vat: the step is run again, or ends with FAULT and an early rotation at the second. -/
def State.detectStep (s : State) (pg id : Nat) : State :=
  match s.step1 id with
  | none => s
  | some st =>
    let s1 := (s.endStepKernels id).setStep id { st with detections := st.detections + 1, draining := decide (st.detections = 0) }
    if st.detections = 0 then s1 else (s1.failStep id stFAULT 0).earlyRot pg

/-- A detection in the vat that runs kernel `k`: the vat's event and counter, the context's record, the end of the run. -/
def State.detect (s : State) (pg : Nat) (k : Kernel) (event counter : Nat) : State :=
  ((((s.raise pg event).count pg counter 1).ctxNote k.ctx 3).count (pgCNT k.ctx) F.CNT_DETECT 1).detectStep pg k.step

/-- R175: a read of a bad word by the kernel. -/
def State.storeParity (s : State) (pg : Nat) (k : Kernel) (a : Nat) : State :=
  let b := match mapAddr k.desc.partitioned a with
    | some p => p / 131072
    | none => 0
  (s.detect pg k 7 0x07C).noteDet pg (128 + b)

/-- R88: the kernel ends before the instruction issues, ILLEGAL_OP in both pages, the step with FAULT. -/
def State.illegalEnd (s : State) (pg : Nat) (k : Kernel) : State :=
  (((s.endKernel pg).failStep k.step stFAULT 0).raise pg 0).ctxNote k.ctx 0

/-! The frame of every kernel instruction (R91, R92, R94) -/

/-- The running kernel and the word at its program counter, when the front end may act: the kernel is not held by a spile and the vat
issues. -/
def State.fetch (s : State) (pg : Nat) : Option (Kernel × IW) :=
  let v := s.vat pg
  match v.kern with
  | some k => if k.hold.isNone && !v.clkHold then some (k, iwOf (nget v.code k.pc)) else none
  | none => none

/-- A front-end instruction with opcode `op`: it executes when it is the legal word at the program counter and the scalar registers it
names are not marked; otherwise nothing happens. `body` gives the kernel after it, the program counter not yet advanced. -/
def State.frontStep (s : State) (v : VatId) (op : Nat) (rs : IW → List Nat) (body : Kernel → IW → Kernel) : State :=
  match s.fetch (vatPg v) with
  | some (k, w) =>
    if w.op = op ∧ k.illegal w = false ∧ k.xFree (rs w) = true then s.setKern (vatPg v) (some (body k w).advance) else s
  | none => s

/-- An instruction of a unit with opcode `op`: it issues when it is the legal word at the program counter and the unit's queue has room;
its registers carry its marks until it completes. `body` gives the state after its effect, the kernel it is given having already advanced
and queued. -/
def State.unitStep (s : State) (v : VatId) (op : Nat) (u : Unit3) (ms : IW → List Mark) (body : State → Nat → Kernel → IW → State) :
    State :=
  match s.fetch (vatPg v) with
  | some (k, w) =>
    if w.op = op ∧ k.illegal w = false ∧ (k.queue u).length < queueCap u then
      let k1 := (k.advance).push u (ms w)
      let s1 := if u = .vec then s.count (vatPg v) 0x054 1 else if u = .lse then s.count (vatPg v) 0x058 1 else s
      body (s1.setKern (vatPg v) (some k1)) (vatPg v) k1 w
    else s
  | none => s

/-- A unit instruction that writes registers only. -/
def State.regStep (s : State) (v : VatId) (op : Nat) (u : Unit3) (ms : IW → List Mark) (body : Kernel → IW → Kernel) : State :=
  s.unitStep v op u ms fun t pg k w => t.setKern pg (some (body k w))

end Sys2Proof.Machine
end

