-- ==== Sys2Proof/Machine/Spile.lean ====
section
/-! DEFINITION. The spile engines, the spile page and the spile-map commands (R136–R161, R483). -/

namespace Sys2Proof.Machine

def State.spile (s : State) (phys : Nat) : Spile := (mget s.spl.spiles phys).getD {}
def State.setSpile (s : State) (phys : Nat) (x : Spile) : State :=
  { s with spl := { s.spl with spiles := if x = {} then mdel s.spl.spiles phys else mput s.spl.spiles phys x } }

/-- The physical group of a physical spile. -/
def physGroup (phys : Nat) : Nat := phys / 16

def State.poisoned (s : State) (phys : Nat) : Bool := nget s.spl.poison (physGroup phys) != 0

/-- A release leaves for its waiter. -/
def State.release (s : State) (c : Nat) (w : Who) (phys taken : Nat) (isTake : Bool) : State :=
  ({ s with spl := { s.spl with rels := s.spl.rels ++ [(w, phys, taken)] } }).count (pgSPL c) (if isTake then 0x050 else 0x054) 1

/-- R137: release the waiters of a spile in registration order; a take that cannot be satisfied stops further takes. -/
def releaseScan (phys : Nat) : List Waiter → Nat → Bool → List Waiter × Nat × List Waiter
  | [], n, _ => ([], n, [])
  | x :: xs, n, blocked =>
    let keep := fun (b : Bool) =>
      let (ks, n', rs) := releaseScan phys xs n b
      (x :: ks, n', rs)
    if x.phys ≠ phys then keep blocked
    else if x.take then
      (if blocked then keep true
       else if x.n ≤ n then
         let (ks, n', rs) := releaseScan phys xs (n - x.n) false
         (ks, n', x :: rs)
       else keep true)
    else if x.n ≤ n then
      let (ks, n', rs) := releaseScan phys xs n blocked
      (ks, n', x :: rs)
    else keep blocked

def State.releaseWaiters (s : State) (phys : Nat) : State :=
  let x := s.spile phys
  let (ws, n, rs) := releaseScan phys s.spl.waiters x.count false
  let s1 := ({ s with spl := { s.spl with waiters := ws } }).setSpile phys { x with count := n }
  rs.foldl (fun t r => t.release r.ctx r.w phys (if r.take then r.n else 0) r.take) s1

/-- R137: a post at the home engine. -/
def State.enginePost (s : State) (c v phys n : Nat) : State :=
  let x := s.spile phys
  let past := decide (2 ^ 32 ≤ x.count + n)
  let s1 := (s.setSpile phys { x with count := min (x.count + n) (2 ^ 32 - 1), ovf := x.ovf || past }).count (pgSPL c) 0x04C 1
  let s2 := if past then s1.ctxNoteQ c 4 v else s1
  s2.releaseWaiters phys

def State.register (s : State) (x : Waiter) : State :=
  ({ s with spl := { s.spl with waiters := s.spl.waiters ++ [x] } }).count (pgSPL x.ctx) 0x058 1

/-- R136: a wait at the home engine. -/
def State.engineWait (s : State) (c phys n : Nat) (w : Who) : State :=
  if n ≤ (s.spile phys).count then s.release c w phys 0 false
  else s.register { phys := phys, ctx := c, w := w, take := false, n := n }

/-- R138: a take at the home engine; a registered take holds it back. A take of 0 is satisfied on arrival (R136). -/
def State.engineTake (s : State) (c phys n : Nat) (w : Who) : State :=
  let x := s.spile phys
  if n = 0 then s.release c w phys 0 true
  else if n ≤ x.count ∧ (s.spl.waiters.any fun y => y.phys == phys && y.take) = false then
    (s.setSpile phys { x with count := x.count - n }).release c w phys n true
  else s.register { phys := phys, ctx := c, w := w, take := true, n := n }

/-- R148, R151: a withdrawal removes a registered wait or take; a take satisfied before goes back when the withdrawal says so, and
its release, if still on its way, is discarded. -/
def State.engineWithdraw (s : State) (c v phys n : Nat) (w : Who) (back : Bool) : State :=
  if s.spl.waiters.any fun y => y.phys == phys && y.w == w then
    { s with spl := { s.spl with waiters := s.spl.waiters.filter fun y => !(y.phys == phys && y.w == w) } }
  else if back then
    let s1 := { s with spl := { s.spl with rels := s.spl.rels.filter fun r => !(r.1 == w && r.2.1 == phys) } }
    if n = 0 then s1 else s1.enginePost c v phys n
  else s

/-! Messages reach an engine (R142, R146, R155) -/

/-- The oldest message of a port and the rest of the messages. -/
def takeMsg (port : Nat) : List SpMsg → Option (SpMsg × List SpMsg)
  | [] => none
  | m :: ms => if m.port = port then some (m, ms) else (takeMsg port ms).map fun r => (r.1, m :: r.2)

/-- The step that an operation belongs to. -/
def State.stepOfMsg (s : State) (m : SpMsg) : Option Nat :=
  let ofVat := fun pg => (s.kern pg).map fun k => k.step
  let ofWho := fun w => match w with
    | Who.front pg _ => ofVat pg
    | .entry pg e => (mget (s.vat pg).entries e).map fun x => x.step
    | .join id => some id
    | .coll _ op => (mget s.keg.ops op).map fun x => x.step
    | .att _ _ => none
  match m.op with
  | .post _ => if m.port < 0x1000 then none else ofVat m.port
  | .wait _ w => ofWho w
  | .take _ w => ofWho w
  | .withdraw _ w _ => ofWho w

/-- A step's run ends because of a parity error in a LOCAL group: the step is run again, or ends with FAULT at the second detection. -/
def State.spileDetect (s : State) (id : Nat) : State :=
  match s.step1 id with
  | none => s
  | some st =>
    let s1 := (s.endStepKernels id).setStep id { st with detections := st.detections + 1, draining := decide (st.detections = 0) }
    if st.detections = 0 then s1 else s1.failStep id stFAULT 0

/-- R155: a parity error in a group: the die page captures it; the steps on a LOCAL group are recomputed, another group is poisoned. -/
def State.spileParity (s : State) (m : SpMsg) (isLocal : Bool) : State :=
  let n := m.phys / 4096
  let g := m.phys / 16 % 256
  let s1 := (((s.raise (pgDIE n) 0).capture (pgDIE n) 1 g none).count (pgDIE n) 0x04C 1)
  if isLocal then
    let waiting := (s1.spl.waiters.filter fun x => physGroup x.phys == physGroup m.phys).filterMap fun x =>
      s1.stepOfMsg { m with op := .wait 0 x.w }
    let ids := (waiting ++ (s1.stepOfMsg m).toList).eraseDups
    ids.foldl (fun t id => t.spileDetect id) s1
  else
    { s1 with spl := { s1.spl with poison := nput s1.spl.poison (physGroup m.phys) 65535 } }

/-- An unmap whose last operation has reached the engine completes (R142). -/
def State.spileSettled (s : State) : State :=
  s.wake (fun w => match w with
    | .drain 0 g _ => !s.spl.flight.any fun m => physGroup m.phys == g
    | _ => false) stCOMPLETE

/-- A message of the kind asked for, oldest of its port, is performed at the home engine; one translated through a map entry that is
gone is discarded (R142, R161). -/
def State.deliver (s : State) (port : Nat) (parity : Bool) (kind : SpOp → Bool) : State :=
  match takeMsg port s.spl.flight with
  | none => s
  | some (m, rest) =>
    if !kind m.op then s
    else
      let s1 := { s with spl := { s.spl with flight := rest } }
      let s2 := match s1.spMap m.ctx m.v with
        | some (phys, isLocal) =>
          if phys ≠ m.phys then (s1.ctxNoteQ m.ctx 5 m.v).count (pgSPL m.ctx) 0x068 1
          else
            let s2 := if parity then s1.spileParity m isLocal else s1
            if s2.poisoned phys then
              let s3 := match s2.stepOfMsg m with
                | some id => s2.failStep id stFAULT 0
                | none => s2
              s3.ctxNoteQ m.ctx 6 m.v
            else if parity then s2
            else match m.op with
              | .post n => s2.enginePost m.ctx m.v phys n
              | .wait n w => s2.engineWait m.ctx phys n w
              | .take n w => s2.engineTake m.ctx phys n w
              | .withdraw n w back => s2.engineWithdraw m.ctx m.v phys n w back
        | none =>
          if s1.ctxState m.ctx = ctxRINSING ∨ s1.ctxState m.ctx = ctxFREE then s1
          else (s1.ctxNoteQ m.ctx 5 m.v).count (pgSPL m.ctx) 0x068 1
      s2.spileSettled

/-- R137. `port` is the source whose oldest message arrives; `parity`: the engine finds a parity error in the group. -/
def execSpilePost (port : Nat) (parity : Bool) (s : State) : Result :=
  .next (s.deliver port parity fun op => match op with
    | .post _ => true
    | _ => false)

def execSpileWait (port : Nat) (parity : Bool) (s : State) : Result :=
  .next (s.deliver port parity fun op => match op with
    | .wait _ _ => true
    | _ => false)

def execSpileTake (port : Nat) (parity : Bool) (s : State) : Result :=
  .next (s.deliver port parity fun op => match op with
    | .take _ _ => true
    | _ => false)

def execSpileWithdraw (port : Nat) (s : State) : Result :=
  .next (s.deliver port false fun op => match op with
    | .withdraw _ _ _ => true
    | _ => false)

/-! Releases at the vats (R145, R148) -/

/-- R145: a release reaches the vat: the held front end proceeds, or the entry's take is known to be satisfied. A release for a kernel that
is suspended is kept (R151). -/
def execSpileReleaseArrive (pg : Nat) (class0 : Bool) (entry : Option (Fin 8)) (s : State) : Result :=
  .next (
    let who := match entry with
      | some e => Who.entry pg e.val
      | none => Who.front pg class0
    match s.spl.rels.find? fun r => r.1 == who with
    | none => s
    | some r =>
      let s1 := { s with spl := { s.spl with rels := s.spl.rels.erase r } }
      match entry with
      | some e =>
        let v := s1.vat pg
        s1.setVat pg { v with entries := mmod v.entries e.val fun x => { x with arrived := true } }
      | none =>
        let v := s1.vat pg
        let note := fun (k : Kernel) => match k.hold with
          | some h => if h.take ∧ (s1.spMap k.ctx h.v).any (fun (m : Nat × Bool) => !m.2) then
              s1.modStep k.step fun st => { st with takes := st.takes ++ [(h.v, h.n)] }
            else s1
          | none => s1
        match v.kern, v.susp with
        | some k, su =>
          if (k.cls == 0) = class0 then
            let s2 := note k
            s2.setVat pg { s2.vat pg with kern := some { k with hold := none } }
          else match su with
            | some k2 => if (k2.cls == 0) = class0 then
                let s2 := note k2
                s2.setVat pg { s2.vat pg with susp := some { k2 with released := true } }
              else s1
            | none => s1
        | none, some k2 => if (k2.cls == 0) = class0 then
              let s2 := note k2
              s2.setVat pg { s2.vat pg with susp := some { k2 with released := true } }
            else s1
        | none, none => s1)

/-! The spile page (R156–R159) -/

/-- The context bound in a slot of a function's window. -/
def State.slotCtx (s : State) (fn k : Nat) : Option Nat :=
  if s.rdi (pgWIN fn) F.WIN_SLOT_VALID k = 1 then some (s.rdi (pgWIN fn) F.WIN_SLOT_CTX k) else none

/-- R156: a host post, in the hub's host port. -/
def execSplPost (fn : Fin 32) (slot : Fin 64) (v : Word) (s : State) : Result :=
  .next (match s.slotCtx fn.val slot.val with
  | none => s
  | some c =>
    let n := bits v.toNat 16 9
    let s1 := s.count (pgSPL c) 0x064 1
    match s1.spMap c n with
    | none => (s1.ctxNoteQ c 5 n).count (pgSPL c) 0x068 1
    | some (phys, _) =>
      if s1.poisoned phys then s1.ctxNoteQ c 6 n else s1.enginePost c n phys (bits v.toNat 0 16))

/-- Is LOCAL group `g` of context `c` named by a step that has started and not completed (R158)? -/
def State.localInUse (s : State) (c g : Nat) : Bool :=
  s.steps.any fun e => e.2.ctx == c && e.2.started && e.2.locals.contains g

/-- R158: a set, or SET_REFUSED. A set clears the spile's share of its group's poison (R155). -/
def execSplSet (fn : Fin 32) (slot : Fin 64) (s : State) : Result :=
  .next (match s.slotCtx fn.val slot.val with
  | none => s
  | some c =>
    let n := s.rd (pgSPL c) F.SPL_SEL
    let val := s.rd (pgSPL c) F.SPL_VALUE
    let s1 := s.count (pgSPL c) 0x064 1
    match s1.spMap c n with
    | none => s1.ctxNoteQ c 5 n
    | some (phys, isLocal) =>
      if (s1.spl.waiters.any fun x => x.phys == phys) || (isLocal && s1.localInUse c (n / 16)) then s1.ctxNoteQ c 7 n
      else
        let s2 := s1.setSpile phys { count := val, preset := val, ovf := false }
        let left := clrBit (nget s2.spl.poison (physGroup phys)) (phys % 16)
        { s2 with spl := { s2.spl with poison := nput s2.spl.poison (physGroup phys) left } })

/-! The map commands (R141, R142, R483) -/

/-- The lowest physical group of a die that no context maps and no message still names. -/
def State.freeGroup (s : State) (die : Nat) : Option Nat :=
  (List.range 256).find? fun g => !(s.spl.maps.any fun m => m.2.die == die && m.2.group == g) &&
    !(s.spl.flight.any fun m => physGroup m.phys == die * 256 + g)

def execSpileMap (fn : Fin 32) (tag : Nat) (ctx : Fin 1024) (vgroup die : Nat) (isLocal : Bool) (s : State) : Result :=
  .next (s.command fn.val tag 0x18 fun t =>
    let c := ctx.val
    if !(decide (die < 4) && t.hasUnit (pgDIE die)) then t.respond fn.val tag stNOUNIT 0
    else if !t.ctxOpen c then t.respond fn.val tag stDENIED 0
    else if 32 ≤ vgroup ∨ (mget t.spl.maps (c * 32 + vgroup)).isSome then t.respond fn.val tag stFAULT 0
    else match t.freeGroup die with
      | none => t.respond fn.val tag stREFUSED_MEM 0
      | some g =>
        let t1 := { t with spl := { t.spl with
          maps := mput t.spl.maps (c * 32 + vgroup) { die := die, group := g, isLocal := isLocal }
          spiles := mfilterOut (fun k => k / 16 == die * 256 + g) t.spl.spiles
          poison := mdel t.spl.poison (die * 256 + g) } }
        t1.respond fn.val tag stCOMPLETE 0)

/-- Does an arming, in force or in progress, name the group (R483)? -/
def State.groupNamed (s : State) (c vg : Nat) : Bool :=
  (s.vats.any fun e => (e.2.entries.any fun x => x.2.ctx == c && x.2.spile / 16 == vg) ||
    ([e.2.kern, e.2.susp].any fun k => match k with
      | some k => k.ctx == c && k.desc.doneSpile / 16 == vg
      | none => false)) ||
  (s.steps.any fun e => e.2.ctx == c &&
    (e.2.locals.contains vg || e.2.join / 16 == vg || e.2.posts.any fun p => p.1 / 16 == vg)) ||
  (s.keg.ops.any fun e => e.2.ctx == c && (e.2.start / 16 == vg || e.2.done / 16 == vg)) ||
  s.mill.jobs.any fun e => e.2.list.ctx == c && e.2.list.spile / 16 == vg

def execSpileUnmap (fn : Fin 32) (tag : Nat) (ctx : Fin 1024) (vgroup : Nat) (s : State) : Result :=
  .next (s.command fn.val tag 0x19 fun t =>
    let c := ctx.val
    match mget t.spl.maps (c * 32 + vgroup) with
    | none => t.respond fn.val tag stFAULT 0
    | some m =>
      let g := m.die * 256 + m.group
      if 32 ≤ vgroup ∨ (t.spl.waiters.any fun x => physGroup x.phys == g) = true ∨ t.groupNamed c vgroup = true then
        t.respond fn.val tag stFAULT 0
      else
        let t1 := { t with spl := { t.spl with maps := mdel t.spl.maps (c * 32 + vgroup), poison := mdel t.spl.poison g } }
        if t1.spl.flight.any fun x => physGroup x.phys == g then t1.hold fn.val tag (.drain 0 g 0) 0
        else t1.respond fn.val tag stCOMPLETE 0)

end Sys2Proof.Machine
end

