-- ==== Sys2Proof/Machine/Sched.lean ====
section
/-! DEFINITION. Dispatch entries, kernel starts, suspension and the floor loader (R84, R96–R104, R148, R150, R153, R154). -/

namespace Sys2Proof.Machine

/-! Arming (R99, R101, R105, R143, R148, R150, R176) -/

def State.showArmed (s : State) (pg : Nat) : State :=
  s.wr pg F.VAT_DISPATCH_ARMED ((s.vat pg).entries.foldl (fun a e => setBit a e.1) 0)

def armFloor (a : ArmReq) : Nat := pgFLOOR a.die.val a.floor.val


/-- A load of the slot is queued or in progress (R99). -/
def State.loadPending (s : State) (floorPg L n : Nat) : Bool :=
  let f := s.floor floorPg
  (f.loads.any fun j => loadTouches j L n) || (match f.cur with
    | some j => loadTouches j L n
    | none => false)
where loadTouches (j : LoadJob) (L n : Nat) : Bool := nbit j.vats L && j.slots.any fun d => d.1 == n

/-- The spile and threshold of an arming: its own when not zero, else the descriptor's (R101). -/
def armSpile (a : ArmReq) (d : Desc) : Nat × Nat :=
  (if a.spile = 0 then d.startSpile else a.spile, if a.thresh = 0 then d.startThresh else a.thresh)

/-- Arm an entry: refused with NOUNIT for a vat that is not there or whose named bank is retired, with FAULT for a slot that holds no
kernel, a start spile that does not translate, or a class-0 start spile on another die. -/
def State.armEntry (s : State) (a : ArmReq) : State :=
  let fp := armFloor a
  match (if s.hasUnit (pgDIE a.die.val) && s.hasUnit fp then s.vatOf fp a.logical.val else none) with
  | none => s.failStep a.step stNOUNIT 0
  | some pg =>
    let v := s.vat pg
    match mget v.descs a.slot.val with
    | none => s.failStep a.step stFAULT 0
    | some d =>
      if !d.valid then s.failStep a.step stFAULT 0
      else if (bitsSet d.bankMask 16).any fun b => s.rdi pg F.VAT_BANK_OWNER_RETIRED b == 1 then s.failStep a.step stNOUNIT 0
      else if (mget v.entries a.entry.val).isSome then s
      else
        let (sp, th) := armSpile a d
        match s.spMap a.ctx.val sp with
        | none => (s.failStep a.step stFAULT 0).ctxNoteQ a.ctx.val 5 sp
        | some (phys, _) =>
          if a.cls.val = 0 ∧ phys / 4096 ≠ a.die.val then s.failStep a.step stFAULT 0
          else
            let e : Entry :=
              { slot := a.slot.val, cls := a.cls.val, ctx := a.ctx.val, spile := sp, thresh := th, words := a.words,
                step := a.step, arrived := th == 0 }
            let s1 := (s.setVat pg { v with entries := mput v.entries a.entry.val e }).showArmed pg
            if th = 0 then s1 else s1.spSend pg a.ctx.val sp (.take th (.entry pg a.entry.val))

/-- An arming waits for a load of its slot that entered the queue before it (R99). -/
def State.armOrWait (s : State) (a : ArmReq) : State :=
  if s.loadPending (armFloor a) a.logical.val a.slot.val then
    s.setFloor (armFloor a) { s.floor (armFloor a) with arms := (s.floor (armFloor a)).arms ++ [a] }
  else s.armEntry a

/-- R101: accepted while a Cellarmaster is in control; the arming belongs to its step. A floor reserved for another context takes none (R418), nor
does the logical vat that a floor releases for self-test (R314). -/
def execDispatchArm (a : ArmReq) (s : State) : Result :=
  .next (if !s.inControl || !s.floorOpen (armFloor a) a.ctx.val || (nget s.rqt.releases (armFloor a) == 2 && a.logical.val == 7) then s
  else
    let st := (s.step1 a.step).getD { ctx := a.ctx.val, cls := a.cls.val }
    (s.setStep a.step { st with arms := st.arms ++ [a] }).armOrWait a)

/-- R148: the entry is disarmed and a withdrawal of its take leaves. -/
def execDispatchDisarm (v : VatId) (e : Fin 8) (s : State) : Result :=
  .next (
    let pg := vatPg v
    match mget (s.vat pg).entries e.val with
    | none => s
    | some x =>
      let s1 := (s.setVat pg { s.vat pg with entries := mdel (s.vat pg).entries e.val }).showArmed pg
      if x.thresh = 0 then s1 else s1.spSend pg x.ctx x.spile (.withdraw x.thresh (.entry pg e.val) true))

/-! Suspension (R102, R103, R151) -/

/-- The save area takes contents that are private to the module: free values (R103). -/
def State.writeSaveArea (s : State) (pg : Nat) (k : Kernel) : State :=
  let s1 := s.kput pg k ((List.range 17408).map fun i => (k.desc.saveBase * 1024 + i, Config.freeNat (s.freeIdx + i) % 256))
  { s1 with freeIdx := s1.freeIdx + 17408 }

/-- The running kernel is suspended; a wait or take it is held in is withdrawn (R151). -/
def State.suspend (s : State) (pg : Nat) (k : Kernel) : State :=
  let k1 := { k with ran := k.clk s }
  let s1 := s.writeSaveArea pg k
  let s2 := ((s1.setVat pg { s1.vat pg with kern := none, susp := some k1, suspClk := s.now }).wr pg F.VAT_RUN_SUSPENDED 1).count pg 0x060 1
  let s3 := match k.hold with
    | some h => s2.spSend pg k.ctx h.v (.withdraw (if h.take then h.n else 0) (.front pg false) false)
    | none => s2
  s3.showRun pg

/-- R148: an entry whose take is satisfied becomes ready; a ready class-0 entry suspends a running preemptible kernel of class 1–3 (R102). -/
def execDispatchReady (v : VatId) (e : Fin 8) (s : State) : Result :=
  .next (
    let pg := vatPg v
    match mget (s.vat pg).entries e.val with
    | none => s
    | some x =>
      if !x.arrived || x.ready then s
      else
        let s1 := s.setVat pg { s.vat pg with entries := mput (s.vat pg).entries e.val { x with ready := true } }
        match s1.kern pg with
        | some k => if x.cls = 0 ∧ k.cls ≠ 0 ∧ k.desc.preempt = true ∧ (s1.vat pg).susp.isNone then s1.suspend pg k else s1
        | none => s1)

/-! Starting (R84, R95, R101, R104) -/

/-- The entry that a free vat starts next: the ready class-0 entry with the lowest index, else the ready entry with the lowest index. -/
def Vat.nextEntry (v : Vat) : Option (Nat × Entry) :=
  (v.entries.find? fun e => e.2.ready && e.2.cls == 0).orElse fun _ =>
    if v.susp.isSome then none else v.entries.find? fun e => e.2.ready

/-- The registers of R84: the parameter words, with the per-step words in place of the last four, and the placement. -/
def startRegs (d : Desc) (words : List Nat) (logical floor die : Nat) : AMap Nat :=
  let ps := (List.range 8).map fun i => if 4 ≤ i then words.getD (i - 4) 0 else d.params.getD i 0
  let x0 : AMap Nat := ps.zipIdx.foldl (fun m e => nput m (e.2 + 1) (e.1 % 2 ^ 32)) []
  nput x0 9 (logical % 8 + 16 * (floor % 16) + 256 * (die % 4))

/-- The kernel that starts. -/
def startKernel (e : Entry) (d : Desc) (logical floor die now : Nat) : Kernel :=
  { slot := e.slot, ctx := e.ctx, cls := e.cls, step := e.step, desc := d, pc := d.entry,
    x := startRegs d e.words logical floor die, since := now }

def execKernelStart (v : VatId) (s : State) : Result :=
  .next (
    let pg := vatPg v
    let vt := s.vat pg
    if vt.kern.isSome || !vt.drain.isEmpty || vt.clkHold || s.logicalOf pg == 0xF then s
    else match vt.nextEntry with
      | none => s
      | some (i, e) =>
        let s1 := (s.setVat pg { vt with entries := mdel vt.entries i }).showArmed pg
        match mget vt.descs e.slot with
        | none => s1.failStep e.step stFAULT 0
        | some d =>
          if s.on pg F.VAT_C0_RES && e.cls != 0 && !d.preempt then
            ((s1.failStep e.step stFAULT 0).raise pg 3).ctxNote e.ctx 1
          else
            let k := startKernel e d (s.logicalOf pg) v.floor.val v.die.val s.now
            ((s1.setVat pg { s1.vat pg with kern := some k }).count pg 0x05C 1).showRun pg)

/-! Running a step again (R153, R154) -/

/-- Every spile of the LOCAL groups named takes its preset. -/
def State.presetLocals (s : State) (c : Nat) (gs : List Nat) : State :=
  gs.foldl (fun t g =>
    match mget t.spl.maps (c * 32 + g) with
    | some m =>
      if m.isLocal then (List.range 16).foldl (fun t i =>
        let phys := m.die * 4096 + m.group * 16 + i
        t.setSpile phys { t.spile phys with count := (t.spile phys).preset }) t
      else t
    | none => t) s

/-- The issue gate's posts of a step leave the hub (R149). -/
def State.gatePosts (s : State) (c : Nat) (posts : List (Nat × Nat)) : State :=
  posts.foldl (fun t p => t.spSend 0 c p.1 (.post p.2)) s

/-- Entries of a step that are still armed are taken down with their takes. -/
def State.dropEntries (s : State) (id : Nat) : State :=
  s.vats.foldl (fun t e =>
    (t.vat e.1).entries.foldl (fun t x =>
      if x.2.step = id then
        let who := Who.entry e.1 x.1
        let t1 := t.setVat e.1 { t.vat e.1 with entries := mdel (t.vat e.1).entries x.1 }
        { t1 with spl := { t1.spl with
          waiters := t1.spl.waiters.filter fun y => y.w != who
          rels := t1.spl.rels.filter fun r => r.1 != who
          flight := t1.spl.flight.filter fun m => !m.isFor who } } |>.showArmed e.1
      else t) t) s

/-- R154: recorded takes go back, the entries are armed again, the LOCAL groups take their presets, and the start amounts are posted
again. The join stays registered. -/
def State.rerunStep (s : State) (id : Nat) : State :=
  match s.step1 id with
  | none => s
  | some st =>
    let s1 := st.takes.foldl (fun t p => (t.spSend 0 st.ctx p.1 (.post p.2)).count (pgSPL st.ctx) 0x060 1) s
    let s2 := (s1.dropEntries id).setStep id { st with takes := [], draining := false, recomputed := true }
    let s3 := st.arms.foldl (fun t a => t.armOrWait a) s2
    let s4 := (s3.presetLocals st.ctx st.locals).count (pgCNT st.ctx) F.CNT_RECOMP 1
    s4.gatePosts st.ctx st.posts

/-! The floor loader (R98, R99) -/

def State.showLoads (s : State) (fp : Nat) : State :=
  (s.wr fp F.FLOOR_LOAD_STATUS_BUSY (boolNat (s.floor fp).cur.isSome)).wr fp F.FLOOR_LOAD_STATUS_QUEUED
    (min 255 (s.floor fp).loads.length)

/-- R98: a load command of the Cellarmaster in control is queued; logical vats that no physical vat carries are left out (R105). -/
def execLoadCommand (f : FloorId) (job : LoadJob) (s : State) : Result :=
  .next (
    let fp := floorPgOf f
    let vats := ((bitsSet job.vats 8).filter fun L => (s.vatOf fp L).isSome).foldl setBit 0
    if !s.inControl || !s.hasUnit (pgDIE f.die.val) || !s.hasUnit fp || vats == 0 then s
    else (s.setFloor fp { s.floor fp with loads := (s.floor fp).loads ++ [{ job with vats := vats }] }).showLoads fp)

/-- Does a kernel use a descriptor slot or a code word that the load writes? -/
def loadHits (j : LoadJob) (slot : Nat) (d : Desc) : Bool :=
  (j.slots.any fun x => x.1 == slot) || j.code.any fun w => descHolds d w.1

/-- A load waits while a kernel it touches is running, suspended or armed (R99). -/
def State.loadBlocked (s : State) (fp : Nat) (j : LoadJob) : Bool :=
  (bitsSet j.vats 8).any fun L =>
    match s.vatOf fp L with
    | none => false
    | some pg =>
      let v := s.vat pg
      let hit := fun (k : Option Kernel) => match k with
        | some k => loadHits j k.slot k.desc
        | none => false
      hit v.kern || hit v.susp || v.entries.any fun e => loadHits j e.2.slot ((mget v.descs e.2.slot).getD {})

/-- The first queued load that no kernel and no earlier load of the same vats holds back, and the others. -/
def pickLoad (blocked : LoadJob → Bool) : List LoadJob → Nat → Option (LoadJob × List LoadJob)
  | [], _ => none
  | j :: js, mask =>
    if blocked j || j.vats &&& mask != 0 then (pickLoad blocked js (mask ||| j.vats)).map fun r => (r.1, j :: r.2)
    else some (j, js)

def execLoadStart (f : FloorId) (s : State) : Result :=
  .next (
    let fp := floorPgOf f
    if (s.floor fp).cur.isSome || s.testing (.floor f) then s
    else match pickLoad (s.loadBlocked fp) (s.floor fp).loads 0 with
      | none => s
      | some (j, rest) => (s.setFloor fp { s.floor fp with loads := rest, cur := some j }).showLoads fp)

/-- Code and descriptors of a load written to one vat; `bad`: the second check failed, and the slots read VALID = 0. -/
def State.writeLoad (s : State) (pg : Nat) (j : LoadJob) (bad : Bool) : State :=
  let v := s.vat pg
  let code := j.code.foldl (fun m w => nput m (w.1 % 8192) (w.2 % 2 ^ 64)) v.code
  let descs := j.slots.foldl (fun m d => mput m (d.1 % 64) (if bad then { d.2 with valid := false } else d.2)) v.descs
  let words := j.code.foldl (fun n w => max n (w.1 % 8192 + 1)) (s.rd pg F.VAT_KSTORE_WORDS)
  ((s.setVat pg { v with code := code, descs := descs }).wr pg F.VAT_KSTORE_WORDS words).wr pg F.VAT_KSTORE_SLOTS
    (descs.filter fun d => d.2.valid).length

/-- R98: the load ends. `bad1` and `bad2` are the logical vats whose CODE_CRC mismatches at the first check and, written again, at the second. -/
def execLoadDone (f : FloorId) (bad1 bad2 : Fin 256) (s : State) : Result :=
  .next (
    let fp := floorPgOf f
    match (s.floor fp).cur with
    | none => s
    | some j =>
      let again := (bitsSet j.vats 8).filter (nbit bad1.val)
      let failed := again.filter (nbit bad2.val)
      let s1 := (bitsSet j.vats 8).foldl (fun t L =>
        match t.vatOf fp L with
        | some pg => t.writeLoad pg j (failed.contains L)
        | none => t) s
      let s2 := ((s1.setFloor fp { s1.floor fp with cur := none }).count fp 0x058 1).count fp 0x05C again.length
      let s3 := if failed.isEmpty then s2 else s2.raise fp 4
      -- armings that waited for this load proceed, in order
      let arms := (s3.floor fp).arms
      let s4 := (s3.setFloor fp { s3.floor fp with arms := [] }).showLoads fp
      arms.foldl (fun t a => t.armOrWait a) s4)

end Sys2Proof.Machine
end

