-- ==== Sys2Proof/Machine/Rotation.lean ====
section
/-! DEFINITION. The rotating spare of a floor, and the replacement of a vat that is retired in service (R105–R112, R550). -/

namespace Sys2Proof.Machine

/-- Is the physical vat in service: it carries a logical number (R105)? -/
def State.inService (s : State) (pg : Nat) : Bool := s.logicalOf pg != 0xF

/-- Everything the vat store of a page holds, moved to nothing: a fill with zeros. -/
def State.zeroStore (s : State) (pg : Nat) : State :=
  { s with vstore := mfilterOut (fun k => k / 2 ^ 21 == pg) s.vstore, vbad := mfilterOut (fun k => k / 2 ^ 19 == pg) s.vbad }

/-- The store of vat `a` copied to vat `b`, bad words included (R108, R110). -/
def State.copyStore (s : State) (a b : Nat) : State :=
  let s1 := s.zeroStore b
  let mv := fun (n : Nat) (k : Nat) => k - a * n + b * n
  { s1 with
    vstore := (s.vstore.filter fun e => e.1 / 2 ^ 21 == a).foldl (fun m e => mput m (mv (2 ^ 21) e.1) e.2) s1.vstore
    vbad := (s.vbad.filter fun e => e.1 / 2 ^ 19 == a).foldl (fun m e => mput m (mv (2 ^ 19) e.1) e.2) s1.vbad }

/-- The bank owner tags of a vat read "none". -/
def State.clearTags (s : State) (pg : Nat) : State :=
  (List.range 16).foldl (fun t b =>
    (((t.wri pg F.VAT_BANK_OWNER_VALID b 0).wri pg F.VAT_BANK_OWNER_PINNED b 0).wri pg F.VAT_BANK_OWNER_CLEARING b 0).wri pg
      F.VAT_BANK_OWNER_CTX b 0) s

/-- The bank owner tags of vat `a` given to vat `b`. -/
def State.moveTags (s : State) (a b : Nat) : State :=
  let s1 := (List.range 16).foldl (fun t i =>
    (((t.wri b F.VAT_BANK_OWNER_VALID i (t.rdi a F.VAT_BANK_OWNER_VALID i)).wri b F.VAT_BANK_OWNER_PINNED i
      (t.rdi a F.VAT_BANK_OWNER_PINNED i)).wri b F.VAT_BANK_OWNER_CLEARING i (t.rdi a F.VAT_BANK_OWNER_CLEARING i)).wri b
      F.VAT_BANK_OWNER_CTX i (t.rdi a F.VAT_BANK_OWNER_CTX i)) s
  s1.clearTags a

/-- A waiter's vat page renamed. -/
def moveWho (a b : Nat) : Who → Who
  | .front pg c => .front (if pg = a then b else pg) c
  | .entry pg e => .entry (if pg = a then b else pg) e
  | w => w

def moveOp (a b : Nat) : SpOp → SpOp
  | .post n => .post n
  | .wait n w => .wait n (moveWho a b w)
  | .take n w => .take n (moveWho a b w)
  | .withdraw n w back => .withdraw n (moveWho a b w) back

/-- Waits, messages and releases of vat `a` belong to vat `b` from now on: tokens are delivered to the vat that the map names (R105). -/
def State.moveSpiles (s : State) (a b : Nat) : State :=
  { s with spl := { s.spl with
      waiters := s.spl.waiters.map fun x => { x with w := moveWho a b x.w }
      flight := s.spl.flight.map fun m => { m with port := if m.port = a then b else m.port, op := moveOp a b m.op }
      rels := s.spl.rels.map fun r => (moveWho a b r.1, r.2) } }

/-- `FLOOR.VAT_MAP` with logical number `L` carried by physical vat `p`. -/
def mapWith (m L p : Nat) : Nat := m - bits m (4 * L) 4 * 16 ^ L + p * 16 ^ L

/-- `ROT_STATUS`. -/
def State.showRot (s : State) (fp phase out inc kib : Nat) : State :=
  (((s.wr fp F.FLOOR_ROT_STATUS_PHASE phase).wr fp F.FLOOR_ROT_STATUS_OUT out).wr fp F.FLOOR_ROT_STATUS_IN inc).wr fp
    F.FLOOR_ROT_STATUS_KIB kib

/-- R109: a write of `FLOOR.ROT_REQ` with GO. -/
def execRotReq (fn : Fin 32) (f : FloorId) (v : Word) (s : State) : Result :=
  .next (s.blockAction (floorPgOf f) fn.val 0x110 fun t =>
    if nbit v.toNat 4 then t.setFloor (floorPgOf f) { t.floor (floorPgOf f) with reqs := (t.floor (floorPgOf f)).reqs ++ [bits v.toNat 0 4] }
    else t)

/-- R109: the in-service vat with the next physical number after the spare, cyclically, skipping retired vats. -/
def State.nextOut (s : State) (fp : Nat) : Option Nat :=
  let sp := s.rd fp F.FLOOR_SPARE
  ((List.range 8).map fun i => (sp + 1 + i) % 9).find? fun p => s.inService (fp + 1 + p) && !s.isRetired (fp + 1 + p)

/-- A waiting request starts its sweep: early ones first (R111); a named vat that is not in service starts nothing. -/
def execRotationStart (f : FloorId) (s : State) : Result :=
  .next (
    let fp := floorPgOf f
    let sp := s.rd fp F.FLOOR_SPARE
    let fs := s.floor fp
    if !s.on fp F.FLOOR_CFG_ROT_EN || s.rd fp F.FLOOR_ROT_STATUS_OUT != 0xF || !decide (sp < 9) || (s.vat (fp + 1 + sp)).zeroing ||
        nget s.underTest (fp + 1 + sp) != 0 then s
    else
      let pick : Option (Nat × FloorSt × Bool) :=
        match fs.early, fs.reqs with
        | p :: ps, _ => some (p, { fs with early := ps }, true)
        | [], p :: ps => some (p, { fs with reqs := ps }, false)
        | [], [] => none
      match pick with
      | none => s
      | some (p, fs1, early) =>
        let out := if p = 0xF then s.nextOut fp else if s.inService (fp + 1 + p) then some p else none
        match out with
        | none => s.setFloor fp fs1
        | some o => (s.setFloor fp { fs1 with rotClk := s.now, rotEarly := early }).showRot fp 1 o sp 0)

/-- Kibibytes of a sweep: store, code, descriptors and dispatch entries. -/
abbrev sweepKib : Nat := 2116

def execSweepDone (f : FloorId) (s : State) : Result :=
  .next (
    let fp := floorPgOf f
    if s.rd fp F.FLOOR_ROT_STATUS_PHASE = 1 then
      ((s.wr fp F.FLOOR_ROT_STATUS_PHASE 2).wr fp F.FLOOR_ROT_STATUS_KIB sweepKib).count fp 0x054 sweepKib
    else s)

/-- A step boundary of a vat (R108): no kernel runs, is suspended or is starting, and no DMA is outstanding. -/
def Vat.atBoundary (v : Vat) : Bool := v.kern.isNone && v.susp.isNone && v.drain.isEmpty

/-- Kernel store, dispatch entries and bank fills of vat `a` as vat `b` holds them after a swap. -/
def State.moveVat (s : State) (a b : Nat) : State :=
  let va := s.vat a
  let vb := s.vat b
  let s1 := s.setVat b { vb with code := va.code, descs := va.descs, entries := va.entries, fills := va.fills }
  let s2 := s1.setVat a { va with entries := [], fills := [] }
  let s3 := [F.VAT_KSTORE_SLOTS, F.VAT_KSTORE_WORDS, F.VAT_C0_RES, F.VAT_STORE_MODE].foldl (fun t fd => t.wr b fd (t.rd a fd)) s2
  let s4 := (s3.wr a F.VAT_C0_RES 0).moveTags a b
  { ((s4.showArmed a).showArmed b).moveSpiles a b with
    host := { s4.host with waits := s4.host.waits.map fun w =>
      match w.on with
      | .banks pg m => { w with on := .banks (if pg = a then b else pg) m }
      | _ => w } }

/-- R108 phase 3: at a step boundary the outgoing vat's logical number, tags and armed entries go to the incoming vat in one write; a
fence of the logical number ends (R187). The outgoing store's zero fill begins. -/
def execRotationSwap (f : FloorId) (s : State) : Result :=
  .next (
    let fp := floorPgOf f
    let o := s.rd fp F.FLOOR_ROT_STATUS_OUT
    let i := s.rd fp F.FLOOR_ROT_STATUS_IN
    let po := fp + 1 + o
    let pi := fp + 1 + i
    if s.rd fp F.FLOOR_ROT_STATUS_PHASE = 2 ∧ (s.vat po).atBoundary = true then
      let L := s.logicalOf po
      let s1 := (s.copyStore po pi).moveVat po pi
      let s2 := (s1.wr fp F.FLOOR_VAT_MAP (mapWith (s1.rd fp F.FLOOR_VAT_MAP) L i)).wr fp F.FLOOR_SPARE o
      let s3 := s2.wr fp F.FLOOR_TAP_FENCED (clrBit (s2.rd fp F.FLOOR_TAP_FENCED) L)
      (s3.setVat po { s3.vat po with zeroing := true }).wr fp F.FLOOR_ROT_STATUS_PHASE 0
    else s)

/-- R108 phase 0: the fill ends; the outgoing vat passes to self-test. -/
def execRotationClearDone (f : FloorId) (s : State) : Result :=
  .next (
    let fp := floorPgOf f
    let o := s.rd fp F.FLOOR_ROT_STATUS_OUT
    let po := fp + 1 + o
    if s.rd fp F.FLOOR_ROT_STATUS_PHASE = 0 ∧ o < 9 ∧ (s.vat po).zeroing = true then
      let s1 := (s.zeroStore po).setVat po { s.vat po with zeroing := false }
      let s2 := { s1 with underTest := nput s1.underTest po 1 }
      (((s2.wr fp F.FLOOR_ROT_STATUS_OUT 0xF).wr fp F.FLOOR_ROT_STATUS_IN 0xF).count fp 0x04C 1).raise fp 0
    else s)

/-- R110: a rotation is abandoned before its swap: mirroring stops, the incoming vat is filled with zeros, the request goes back to the
self-test scheduler. -/
def State.abandonRotation (s : State) (fp : Nat) : State :=
  if s.rd fp F.FLOOR_ROT_STATUS_PHASE = 1 ∨ s.rd fp F.FLOOR_ROT_STATUS_PHASE = 2 then
    (((s.zeroStore (fp + 1 + s.rd fp F.FLOOR_ROT_STATUS_IN)).showRot fp 0 0xF 0xF 0).count fp 0x050 1).raise fp 1
  else s

def execRotLimitExpire (f : FloorId) (s : State) : Result :=
  .next (
    let fp := floorPgOf f
    if (s.floor fp).rotClk + s.rd fp F.FLOOR_ROT_LIMIT_CLK ≤ s.now then s.abandonRotation fp else s)

/-! Lost contents (R551) -/

def lostQual (die floor vat item : Nat) : Nat := die + 4 * floor + 64 * vat + 512 * item

/-- SEG_LOST for a bank (code 1) or a segment (code 0) of context `c`. -/
def State.segLost (s : State) (c code die floor vat item : Nat) : State :=
  s.ctxEvent c 9 stFAULT code (lostQual die floor vat item)

def dieOf (pg : Nat) : Nat := (pg - 0x1000) / 0x1000

/-- SEG_LOST to the owner of each bank of a vat among `banks`, under logical number `L`. -/
def State.banksLost (s : State) (pg L : Nat) (banks : List Nat) : State :=
  banks.foldl (fun t b =>
    if t.rdi pg F.VAT_BANK_OWNER_VALID b = 1 then
      t.segLost (t.rdi pg F.VAT_BANK_OWNER_CTX b) 1 (dieOf pg) (floorNo pg) (L % 8) b
    else t) s

/-- Steps in progress or armed on a vat complete with FAULT (R9, R550). -/
def State.failVatSteps (s : State) (pg : Nat) : State :=
  let v := s.vat pg
  let ids := (v.entries.map fun e => e.2.step) ++ (v.kern.map fun k => k.step).toList ++ (v.susp.map fun k => k.step).toList
  let s1 := ids.foldl (fun t id => t.failStep id stFAULT 0) s
  let s2 := (s1.setVat pg { v with susp := none, entries := [] }).endKernel pg
  (s2.wr pg F.VAT_RUN_SUSPENDED 0).showArmed pg

/-- The usable-vat count and VAT_RETIRED of a floor after a vat is retired (R107, R114). -/
def State.markVatRetired (s : State) (pg : Nat) : State :=
  let fp := floorOfVat pg
  ({ s with retired := nput s.retired pg 1, underTest := mdel s.underTest pg }.wr fp F.FLOOR_USABLE (s.rd fp F.FLOOR_USABLE - 1)).raise fp 2

/-- R107, R111, R550: a vat is retired. A spare leaves the floor without one; a vat in service is replaced at once by the spare, whose banks
hold zeros, or leaves its logical number without a vat. -/
def State.retireVat (s : State) (pg : Nat) : State :=
  let fp := floorOfVat pg
  let p := physOfVat pg
  if s.isRetired pg then s
  else
    -- a rotation that involves the vat is abandoned (R110)
    let s0 := if s.rd fp F.FLOOR_ROT_STATUS_OUT = p ∨ s.rd fp F.FLOOR_ROT_STATUS_IN = p then s.abandonRotation fp else s
    let L := s0.logicalOf pg
    let s1 := s0.markVatRetired pg
    if L = 0xF then
      let s2 := if s1.rd fp F.FLOOR_SPARE = p then s1.wr fp F.FLOOR_SPARE 0xF else s1
      if s2.on fp F.FLOOR_CFG_KEEP_TEST then s2 else s2.raise fp 3
    else
      let s2 := (s1.failVatSteps pg).banksLost pg L (List.range 16)
      let sp := s2.rd fp F.FLOOR_SPARE
      if sp < 9 then
        let b := fp + 1 + sp
        -- clearing fills of the outgoing vat count as done: the tags take their new owners
        let s3 := (s2.vat pg).fills.foldl (fun t e =>
          let t1 := (t.wri pg F.VAT_BANK_OWNER_VALID e.1 (boolNat e.2.1.isSome)).wri pg F.VAT_BANK_OWNER_CTX e.1 (e.2.1.getD 0)
          (t1.wri pg F.VAT_BANK_OWNER_PINNED e.1 (boolNat e.2.2)).wri pg F.VAT_BANK_OWNER_CLEARING e.1 0) s2
        let s4 := (s3.setVat pg { s3.vat pg with fills := [] }).wake (fun w => match w with
          | .banks q _ => q == pg
          | _ => false) stCOMPLETE
        let s5 := ({ s4 with underTest := mdel s4.underTest b }.zeroStore b).zeroStore pg
        let s6 := (s5.setVat b { s5.vat b with zeroing := false, code := [], descs := [] }).moveTags pg b
        let s7 := (s6.wr b F.VAT_C0_RES (s6.rd pg F.VAT_C0_RES)).wr pg F.VAT_C0_RES 0
        let s8 := (s7.wr fp F.FLOOR_VAT_MAP (mapWith (s7.rd fp F.FLOOR_VAT_MAP) L sp)).wr fp F.FLOOR_SPARE 0xF
        -- a bank retired in the incoming vat cannot take its tag
        (List.range 16).foldl (fun t i =>
          if t.rdi b F.VAT_BANK_OWNER_RETIRED i = 1 ∧ t.rdi b F.VAT_BANK_OWNER_VALID i = 1 then
            (t.segLost (t.rdi b F.VAT_BANK_OWNER_CTX i) 1 (dieOf b) (floorNo b) L i).wri b F.VAT_BANK_OWNER_VALID i 0
          else t) s8
      else
        let s3 := (s2.clearTags pg).wr fp F.FLOOR_VAT_MAP (mapWith (s2.rd fp F.FLOOR_VAT_MAP) L 0xF)
        (s3.wr fp F.FLOOR_IN_SVC (s3.rd fp F.FLOOR_IN_SVC - 1)).zeroStore pg

end Sys2Proof.Machine
end

