-- ==== Sys2Proof/Machine/Counts.lean ====
section
/-! DEFINITION. What is in service: the capability fields of the MOD page, the two fractions and the grade (R5, R45, R177, R472, R473). -/

namespace Sys2Proof.Machine

def State.dieList (s : State) : List Nat := List.range s.variant.dies

/-- Dies in service. -/
def State.diesUp (s : State) : List Nat := s.dieList.filter fun n => !s.isRetired (pgDIE n)

/-- Floors in service, as pages. -/
def State.floorsUp (s : State) : List Nat :=
  s.diesUp.flatMap fun n => ((List.range 12).map fun f => pgFLOOR n f).filter fun p => !s.isRetired p

def sumBy {α : Type} (f : α → Nat) (l : List α) : Nat := l.foldl (fun a x => a + f x) 0

/-- Channels in service of a die. -/
def State.channelsUp (s : State) (n : Nat) : Nat := sumBy (fun g => popcount (s.rd (pgLPG n g) F.LPG_CH_SVC) 8) (List.range 4)

/-- Frames retired one by one, on channels in service, of all dies in service. -/
def State.framesRetired (s : State) : Nat :=
  (s.lp.frames.filter fun e => e.2.otype == 3 && !s.isRetired (pgDIE (e.1 / 2 ^ 25)) &&
    nbit (s.rd (pgLPG (e.1 / 2 ^ 25) (e.1 % 32 / 8)) F.LPG_CH_SVC) (e.1 % 8)).length

/-- Vats in service of a floor: the physical vats that carry a logical number. -/
def State.vatsUp (s : State) (fp : Nat) : List Nat := ((List.range 9).map fun p => fp + 1 + p).filter fun pg => s.inService pg

/-- Banks in service, of 128 KiB. -/
def State.banksUp (s : State) : Nat :=
  sumBy (fun fp => sumBy (fun pg => 16 - sumBy (fun b => s.rdi pg F.VAT_BANK_OWNER_RETIRED b) (List.range 16)) (s.vatsUp fp)) s.floorsUp

/-- Logical segments with a physical segment, of 256 KiB. -/
def State.segsUp (s : State) : Nat :=
  sumBy (fun fp => sumBy (fun g => boolNat (s.rdi fp F.FLOOR_SEG_PHYS g != 0x3F)) (List.range 32)) s.floorsUp

/-- A bit mask of the numbers below `n` that satisfy `p`. -/
def maskOf (n : Nat) (p : Nat → Bool) : Nat := ((List.range n).filter p).foldl setBit 0

/-- The in-service fields of the MOD page as they follow from the units in service: field and value. The time-base bits of FIXED_SVC
are kept. -/
def State.capabilities (s : State) : List (Field × Nat) :=
  let fls := s.floorsUp
  let vats := sumBy (fun fp => (s.vatsUp fp).length) fls
  let chs := sumBy s.channelsUp s.diesUp
  let codecs := maskOf s.variant.codecs fun k => !s.isRetired (pgCODEC k)
  [(F.MOD_DIE_SVC, maskOf s.variant.dies fun n => !s.isRetired (pgDIE n)),
   (F.MOD_CODEC_SVC, codecs),
   (F.MOD_STREAM_CTX, if codecs = 0 then 0 else 128),
   (F.MOD_KEG_SVC, maskOf (2 * s.variant.dies) fun l => !s.isRetired (pgKEG l) && !s.isRetired (pgDIE (l / 2))),
   (F.MOD_VATS_SVC, vats),
   (F.MOD_TUNS_SVC, 64 * vats),
   (F.MOD_FLOORS_SVC, fls.length),
   (F.MOD_LPDDR_CH_SVC, chs),
   (F.MOD_MEM_USABLE_MIB, (chs * 3968 * 256 - s.framesRetired) / 256),
   (F.MOD_FLOOR_STORE_MIB, s.segsUp * 256 / 1024),
   (F.MOD_VAT_STORE_MIB, s.banksUp * 128 / 1024),
   (F.MOD_FIXED_SVC, boolNat (!s.isRetired pgMILL) + 2 * boolNat (!s.isRetired pgGAU) + 4 * boolNat (!s.isRetired (pgCM 0)) +
      8 * boolNat (!s.isRetired (pgCM 1)) + 16 * bits (s.rd pgMOD F.MOD_FIXED_SVC) 4 2),
   (F.MOD_SPILES, 4096 * s.diesUp.length)]

/-- The two fractions of R472, from the capability fields. -/
def State.compute (s : State) : Nat := s.rd pgMOD F.MOD_TUNS_SVC * 10000 / (6144 * s.variant.dies)

def State.memFraction (s : State) : Nat :=
  let d := s.variant.dies
  min (s.rd pgMOD F.MOD_MEM_USABLE_MIB * 10000 / (126976 * d))
    (min (s.rd pgMOD F.MOD_VAT_STORE_MIB * 10000 / (192 * d)) (s.rd pgMOD F.MOD_FLOOR_STORE_MIB * 10000 / (96 * d)))

/-- Every unit that the variant has is in service: no unit, bank, segment or channel is retired and no time-base line is out (R473). -/
def State.whole (s : State) : Bool :=
  s.retired.isEmpty && s.rd pgMOD F.MOD_FIXED_SVC == 0x3F && sumBy s.channelsUp s.dieList == 32 * s.variant.dies &&
    s.banksUp == 16 * 96 * s.variant.dies && s.segsUp == 32 * 12 * s.variant.dies

/-- The hub fabric has lost a plane with no spare left. -/
def State.hubLost (s : State) : Bool := decide (2 ≤ nget s.bist.planesBad 4)

/-- The grade: 0 A, 1 B, 2 C (R473). -/
def State.grade (s : State) : Nat :=
  let fx := s.rd pgMOD F.MOD_FIXED_SVC
  if 20 * s.compute < 19 * 10000 ∨ 20 * s.memFraction < 19 * 10000 ∨ bits fx 2 2 = 0 ∨ bits fx 4 2 = 0 ∨ nbit fx 1 = false ∨
      s.hubLost = true then 2
  else if s.whole then 0
  else 1

/-- R45, R473: the MOD page, the fractions and the grade follow what is in service; CAPS_CHANGED and GRADE_CHANGE tell of a change. -/
def State.recount (s : State) : State :=
  let caps := s.capabilities
  let changed := caps.any fun c => s.rd pgMOD c.1 != c.2
  let s1 := caps.foldl (fun t c => t.wr pgMOD c.1 c.2) s
  let s2 := (s1.wr pgBIST F.BIST_COMPUTE s1.compute).wr pgBIST F.BIST_MEMORY s1.memFraction
  let g := max s2.grade (s2.rd pgMOD F.MOD_GRADE)
  let s3 := if g = s2.rd pgMOD F.MOD_GRADE then s2 else (s2.wr pgMOD F.MOD_GRADE g).raise pgBIST 3
  if changed || g != s2.rd pgMOD F.MOD_GRADE then s3.raise pgMOD 1 else s3

end Sys2Proof.Machine
end

