-- ==== Sys2Proof/Machine/Banks.lean ====
section
/-! DEFINITION. Owners of vat-store banks and floor-store segments: assignment, release, clearing fills and segment retirement
(R173, R174, R179, R180, R483, R551). -/

namespace Sys2Proof.Machine

/-! What is in use (R174, R179) -/

def maskHas (m b : Nat) : Bool := nbit m b

/-- Does a DMA's vat-store range touch bank `b`? -/
def dmaBank (k : Kernel) (d : Dma) (b : Nat) : Bool :=
  (linesOf d.vatAddr d.bytes).any fun a => match mapAddr k.desc.partitioned a with
    | some p => p / 131072 == b
    | none => false

/-- Is bank `b` of a vat in use: in the mask of a running, suspended or armed kernel, or the source or target of a DMA? -/
def State.bankBusy (s : State) (pg b : Nat) : Bool :=
  let v := s.vat pg
  let inK := fun (k : Option Kernel) => match k with
    | some k => maskHas k.desc.bankMask b || k.dmas.any fun d => dmaBank k d b
    | none => false
  inK v.kern || inK v.susp || (v.drain.any fun k => k.dmas.any fun d => dmaBank k d b) ||
    v.entries.any fun e => match mget v.descs e.2.slot with
      | some d => maskHas d.bankMask b
      | none => false

/-- A DMA of any vat of the floor, or a Tap request, names segment `g`. -/
def State.segBusy (s : State) (fp g : Nat) : Bool :=
  let dmaSeg := fun (k : Option Kernel) => match k with
    | some k => k.dmas.any fun d => d.floorStore && decide (d.ext / 262144 ≤ g ∧ g * 262144 < d.ext + d.bytes)
    | none => false
  (s.vats.any fun e => floorOfVat e.1 == fp && (dmaSeg e.2.kern || dmaSeg e.2.susp || e.2.drain.any fun k => dmaSeg (some k)))

/-- Does a reservation of the context use the bank, or the segment (R174, R310)? -/
def State.resBank (s : State) (c die floor L b : Nat) : Bool :=
  s.resv.any fun r => r.2.ctx == c && r.2.banks.any fun x => x.1 == die && x.2.1 == floor && x.2.2.1 == L && maskHas x.2.2.2 b

def State.resSeg (s : State) (c die floor g : Nat) : Bool :=
  s.resv.any fun r => r.2.ctx == c && r.2.segs.any fun x => x.1 == die && x.2.1 == floor && maskHas x.2.2 g

/-! Owner tags -/

def State.bankOwner (s : State) (pg b : Nat) : Option Nat :=
  if s.rdi pg F.VAT_BANK_OWNER_VALID b = 1 then some (s.rdi pg F.VAT_BANK_OWNER_CTX b) else none

def State.segOwner (s : State) (fp g : Nat) : Option Nat :=
  if s.rdi fp F.FLOOR_SEG_OWNER_VALID g = 1 then some (s.rdi fp F.FLOOR_SEG_OWNER_CTX g) else none

def State.setBankTag (s : State) (pg b : Nat) (owner : Option Nat) (pinned : Bool) : State :=
  (((s.wri pg F.VAT_BANK_OWNER_VALID b (boolNat owner.isSome)).wri pg F.VAT_BANK_OWNER_CTX b (owner.getD 0)).wri pg
    F.VAT_BANK_OWNER_PINNED b (boolNat (pinned && owner.isSome))).wri pg F.VAT_BANK_OWNER_CLEARING b 0

def State.setSegTag (s : State) (fp g : Nat) (owner : Option Nat) (pinned : Bool) : State :=
  (((s.wri fp F.FLOOR_SEG_OWNER_VALID g (boolNat owner.isSome)).wri fp F.FLOOR_SEG_OWNER_CTX g (owner.getD 0)).wri fp
    F.FLOOR_SEG_OWNER_PINNED g (boolNat (pinned && owner.isSome))).wri fp F.FLOOR_SEG_OWNER_CLEARING g 0

/-- A clearing fill of a bank begins; the tag changes when it ends (R174). -/
def State.fillBank (s : State) (pg b : Nat) (owner : Option Nat) (pinned : Bool) : State :=
  (s.setVat pg { s.vat pg with fills := (s.vat pg).fills ++ [(b, owner, pinned)] }).wri pg F.VAT_BANK_OWNER_CLEARING b 1

def State.fillSeg (s : State) (fp g : Nat) (owner : Option Nat) (pinned : Bool) : State :=
  (s.setFloor fp { s.floor fp with fills := (s.floor fp).fills ++ [(g, owner, pinned)] }).wri fp F.FLOOR_SEG_OWNER_CLEARING g 1

/-- R174: assign bank `b` to context `c`: at once when nobody or the context owns it, else after a fill. -/
def State.assignBank (s : State) (pg c : Nat) (pinned : Bool) (b : Nat) : State :=
  match s.bankOwner pg b with
  | none => s.setBankTag pg b (some c) pinned
  | some o => if o = c then (if pinned then s.wri pg F.VAT_BANK_OWNER_PINNED b 1 else s) else s.fillBank pg b (some c) pinned

def State.assignSeg (s : State) (fp c : Nat) (pinned : Bool) (g : Nat) : State :=
  match s.segOwner fp g with
  | none => s.setSegTag fp g (some c) pinned
  | some o => if o = c then (if pinned then s.wri fp F.FLOOR_SEG_OWNER_PINNED g 1 else s) else s.fillSeg fp g (some c) pinned

/-! The bank commands (R174, R483) -/

/-- The physical vat page that a bank command names, when it is there. -/
def State.cmdVat (s : State) (die floor vat : Nat) : Option Nat :=
  if die < 4 ∧ floor < 12 ∧ vat < 8 ∧ s.hasUnit (pgDIE die) = true ∧ s.hasUnit (pgFLOOR die floor) = true then
    s.vatOf (pgFLOOR die floor) vat
  else none

def State.cmdFloor (s : State) (die floor : Nat) : Option Nat :=
  if die < 4 ∧ floor < 12 ∧ s.hasUnit (pgDIE die) = true ∧ s.hasUnit (pgFLOOR die floor) = true then some (pgFLOOR die floor) else none

/-- A command completes at once, or when the fills it started have ended. -/
def State.doneOrFill (s : State) (fn tag : Nat) (on : WaitOn) (filling : Bool) : State :=
  if filling then s.hold fn tag on 0 else s.respond fn tag stCOMPLETE 0

def State.bankClearing (s : State) (pg b : Nat) : Bool := s.rdi pg F.VAT_BANK_OWNER_CLEARING b == 1
def State.segClearing (s : State) (fp g : Nat) : Bool := s.rdi fp F.FLOOR_SEG_OWNER_CLEARING g == 1

/-- The refusal of BANK_ASSIGN, if any: NOUNIT, DENIED, then FAULT (R483). -/
def State.bankAssignRefused (s : State) (pg c : Nat) (bs : List Nat) : Option Nat :=
  if bs.any fun b => s.rdi pg F.VAT_BANK_OWNER_RETIRED b == 1 then some stNOUNIT
  else if !s.ctxOpen c || (bs.any fun b => s.rdi pg F.VAT_BANK_OWNER_PINNED b == 1 && s.bankOwner pg b != some c) then some stDENIED
  else if bs.isEmpty then some stFAULT
  else none

def State.bankReleaseRefused (s : State) (pg c die floor vat : Nat) (bs : List Nat) : Option Nat :=
  if bs.any fun b => s.rdi pg F.VAT_BANK_OWNER_RETIRED b == 1 then some stNOUNIT
  else if bs.any fun b => s.bankOwner pg b != some c || (s.rdi pg F.VAT_BANK_OWNER_PINNED b == 1 && s.resBank c die floor vat b) then
    some stDENIED
  else none

/-- A command of the PF that must wait has not been performed yet: nothing changes. -/
def State.commandUnless (s : State) (wait : Bool) (fn tag op : Nat) (body : State → State) : State :=
  if fn = 0 ∧ wait = true then s else s.command fn tag op body

def execBankAssign (fn : Fin 32) (tag : Nat) (ctx : Fin 1024) (die floor vat : Nat) (pinned : Bool) (mask : Fin 65536) (s : State) : Result :=
  .next (
    let bs := bitsSet mask.val 16
    match s.cmdVat die floor vat with
    | none => s.command fn.val tag 0x14 fun t => t.respond fn.val tag stNOUNIT 0
    | some pg =>
      let refusal := s.bankAssignRefused pg ctx.val bs
      let wait := (bs.any fun b => s.bankClearing pg b) ||
        (refusal.isNone && bs.any fun b => s.bankOwner pg b != some ctx.val && s.bankBusy pg b)
      s.commandUnless wait fn.val tag 0x14 fun t =>
        match refusal with
        | some st => t.respond fn.val tag st 0
        | none =>
          let t1 := bs.foldl (fun u b => u.assignBank pg ctx.val pinned b) t
          t1.doneOrFill fn.val tag (.banks pg mask.val) (bs.any fun b => t1.bankClearing pg b))

def execBankRelease (fn : Fin 32) (tag : Nat) (ctx : Fin 1024) (die floor vat : Nat) (mask : Fin 65536) (s : State) : Result :=
  .next (
    let bs := bitsSet mask.val 16
    match s.cmdVat die floor vat with
    | none => s.command fn.val tag 0x15 fun t => t.respond fn.val tag stNOUNIT 0
    | some pg =>
      let refusal := s.bankReleaseRefused pg ctx.val die floor vat bs
      let wait := (bs.any fun b => s.bankClearing pg b) || (refusal.isNone && bs.any fun b => s.bankBusy pg b)
      s.commandUnless wait fn.val tag 0x15 fun t =>
        match refusal with
        | some st => t.respond fn.val tag st 0
        | none => (bs.foldl (fun u b => u.fillBank pg b none false) t).doneOrFill fn.val tag (.banks pg mask.val) (!bs.isEmpty))

/-- Bytes of one bank zeroed. -/
def State.zeroBank (s : State) (pg b : Nat) : State :=
  { s with
    vstore := mfilterOut (fun k => k / 131072 == pg * 16 + b) s.vstore
    vbad := mfilterOut (fun k => k / 32768 == pg * 16 + b) s.vbad }

/-- A bank's fill ends: zeros, the new tag, and the commands that waited for it (R174). -/
def State.endBankFill (s : State) (pg b : Nat) : State :=
  match (s.vat pg).fills.find? fun e => e.1 == b with
  | none => s
  | some (_, owner, pinned) =>
    let s1 := ((s.zeroBank pg b).setVat pg { s.vat pg with fills := (s.vat pg).fills.filter fun e => e.1 != b }).setBankTag pg b owner pinned
    s1.wake (fun w => match w with
      | .banks q m => q == pg && !((s1.vat pg).fills.any fun e => maskHas m e.1)
      | _ => false) stCOMPLETE

def execBankClearDone (v : VatId) (b : Fin 16) (s : State) : Result := .next (s.endBankFill (vatPg v) b.val)

/-! The segment commands (R179, R483) -/

def segNone (s : State) (fp g : Nat) : Bool := s.rdi fp F.FLOOR_SEG_PHYS g == 0x3F

/-- Does a loaded cask map the segment (R442)? -/
def State.caskSeg (s : State) (die floor g : Nat) : Bool :=
  s.casks.any fun e => e.2.segs.any fun x => x.1 == die && x.2.1 == floor && maskHas x.2.2 g

def State.segAssignRefused (s : State) (fp c : Nat) (gs : List Nat) : Option Nat :=
  if gs.any fun g => segNone s fp g then some stNOUNIT
  else if !s.ctxOpen c || (gs.any fun g => s.rdi fp F.FLOOR_SEG_OWNER_PINNED g == 1 && s.segOwner fp g != some c) then some stDENIED
  else if gs.isEmpty then some stFAULT
  else none

def State.segReleaseRefused (s : State) (fp c die floor : Nat) (gs : List Nat) : Option Nat :=
  if gs.any fun g => segNone s fp g then some stNOUNIT
  else if gs.any fun g => s.segOwner fp g != some c || (s.rdi fp F.FLOOR_SEG_OWNER_PINNED g == 1 &&
      (s.resSeg c die floor g || s.caskSeg die floor g)) then some stDENIED
  else none

/-- The march of a free segment is running (R465). -/
def State.segMarch (s : State) (fp g : Nat) : Bool := s.bist.running.any fun x => match x.unit with
  | .seg f k => floorPgOf f == fp && k.val == g
  | _ => false

def execSegAssign (fn : Fin 32) (tag : Nat) (ctx : Fin 1024) (die floor : Nat) (pinned : Bool) (mask : Word) (s : State) : Result :=
  .next (
    let gs := bitsSet mask.toNat 32
    match s.cmdFloor die floor with
    | none => s.command fn.val tag 0x16 fun t => t.respond fn.val tag stNOUNIT 0
    | some fp =>
      let refusal := s.segAssignRefused fp ctx.val gs
      let wait := (gs.any fun g => s.segClearing fp g || s.segMarch fp g) ||
        (refusal.isNone && gs.any fun g => s.segOwner fp g != some ctx.val && (s.segBusy fp g || s.caskSeg die floor g))
      s.commandUnless wait fn.val tag 0x16 fun t =>
        match refusal with
        | some st => t.respond fn.val tag st 0
        | none =>
          let t1 := gs.foldl (fun u g => u.assignSeg fp ctx.val pinned g) t
          t1.doneOrFill fn.val tag (.segs fp mask.toNat) (gs.any fun g => t1.segClearing fp g))

def execSegRelease (fn : Fin 32) (tag : Nat) (ctx : Fin 1024) (die floor : Nat) (mask : Word) (s : State) : Result :=
  .next (
    let gs := bitsSet mask.toNat 32
    match s.cmdFloor die floor with
    | none => s.command fn.val tag 0x17 fun t => t.respond fn.val tag stNOUNIT 0
    | some fp =>
      let refusal := s.segReleaseRefused fp ctx.val die floor gs
      let wait := (gs.any fun g => s.segClearing fp g) ||
        (refusal.isNone && gs.any fun g => s.segBusy fp g || s.caskSeg die floor g)
      s.commandUnless wait fn.val tag 0x17 fun t =>
        match refusal with
        | some st => t.respond fn.val tag st 0
        | none => (gs.foldl (fun u g => u.fillSeg fp g none false) t).doneOrFill fn.val tag (.segs fp mask.toNat) (!gs.isEmpty))

def State.zeroSeg (s : State) (fp g : Nat) : State :=
  { s with
    fstore := mfilterOut (fun k => k / 262144 == fp * 32 + g) s.fstore
    fbad := mfilterOut (fun k => k / 65536 == fp * 32 + g) s.fbad }

def State.endSegFill (s : State) (fp g : Nat) : State :=
  match (s.floor fp).fills.find? fun e => e.1 == g with
  | none => s
  | some (_, owner, pinned) =>
    let s1 := ((s.zeroSeg fp g).setFloor fp { s.floor fp with fills := (s.floor fp).fills.filter fun e => e.1 != g }).setSegTag fp g owner
      pinned
    s1.wake (fun w => match w with
      | .segs q m => q == fp && !((s1.floor fp).fills.any fun e => maskHas m e.1)
      | _ => false) stCOMPLETE

def execSegClearDone (f : FloorId) (g : Fin 32) (s : State) : Result := .next (s.endSegFill (floorPgOf f) g.val)

/-! Segment retirement (R180, R551) -/

/-- The spare that takes over a logical segment: 32 first, then 33. -/
def nextSpare (left : Nat) : Nat := 34 - left

/-- Every word of a logical segment reads with a parity error until it is written. -/
def State.poisonSeg (s : State) (fp g : Nat) : State :=
  let s1 := s.zeroSeg fp g
  { s1 with fbad := mfill s1.fbad ((fp * 32 + g) * 65536) 65536 1 }

/-- Bytes written into a segment: the words they touch read well again. -/
def State.putSeg (s : State) (fp g off : Nat) (bs : List Byte) : State :=
  let lo := (fp * 32 + g) * 65536 + off / 4
  let hi := (fp * 32 + g) * 65536 + ceilDiv (off + bs.length) 4
  { s with
    fstore := bputList s.fstore ((fp * 32 + g) * 262144 + off) bs
    fbad := mfilterOut (fun k => decide (lo ≤ k ∧ k < hi)) s.fbad }

/-- R180: a physical segment with 2 detections in 24 hours is retired: a spare takes its place, or none is left. What a cask had loaded there is read
again: `data` is its verified contents, none where a tag fails twice (R443). -/
def execSegRetire (f : FloorId) (g : Fin 32) (data : Option (List Byte)) (s : State) : Result :=
  .next (
    let fp := floorPgOf f
    let phys := s.rdi fp F.FLOOR_SEG_PHYS g.val
    let recent := (s.floor fp).dets.filter fun d => d.1 == phys && decide (s.now < d.2 + clkDay)
    if recent.length < 2 ∨ phys = 0x3F then s
    else
      let left := s.rd fp F.FLOOR_SEG_SPARES
      let s1 := s.setFloor fp { s.floor fp with dets := (s.floor fp).dets.filter fun d => d.1 != phys }
      let s2 :=
        if left = 0 then ((s1.wri fp F.FLOOR_SEG_PHYS g.val 0x3F).zeroSeg fp g.val).raise fp 9
        else ((((s1.wri fp F.FLOOR_SEG_PHYS g.val (nextSpare left)).wr fp F.FLOOR_SEG_SPARES (left - 1)).poisonSeg fp g.val).raise fp 8)
      let s3 := if s.caskSeg f.die.val f.floor.val g.val = false ∨ left = 0 then s2 else match data with
        | some bs => (s2.count pgGAU 0x068 (ceilDiv bs.length 4096)).putSeg fp g.val 0 (bs.take 262144)
        | none => s2.count pgGAU 0x06C 2
      (match s3.segOwner fp g.val with
      | some c => s3.segLost c 0 f.die.val f.floor.val 0 g.val
      | none => s3).recount)

end Sys2Proof.Machine
end

