-- ==== Sys2Proof/Machine/RegAccess.lean ====
section
/-! DEFINITION. Register accesses and the module global pages: what a register write does under the access rules,
counter reads, event pages, ownership, locking and the snap (R31–R55). -/

namespace Sys2Proof.Machine

/-! The access rules -/

/-- Why a field takes no write of a value: its chapter's range rule (the page and bit of CFG_ERR), or a state of its block
in which the write is an access error. -/
inductive Refuse where
  | cfgErr (pg bit : Nat)
  | accErr
  deriving DecidableEq, Repr

def outside (v lo hi : Nat) : Bool := v < lo || hi < v

/-- The time-base registers that are fixed while the time base runs (R80). -/
def tbFixed (fd : Field) : Bool :=
  fd = F.TBASE_PERIOD_TICKS || fd = F.TBASE_PHASE_LO || fd = F.TBASE_PHASE_HI || fd = F.TBASE_SRC_ID ||
  fd = F.TBASE_CFG_LINE_A_EN || fd = F.TBASE_CFG_LINE_B_EN || fd = F.TBASE_CFG_SRC_CHECK || fd = F.TBASE_CFG_PRIMARY ||
  fd = F.TBASE_CFG_PERIOD_MODE

/-- Does entry `i` of field `fd` of page `pg` refuse the value `v` that the word `w` carries for it? (R52, R80, R114, R189, R218, R252, R289, R317, R378, R395,
R444, R474, R499, R500, R519, R537.) -/
def State.fieldRefuses (s : State) (pg : Nat) (k : PageKind) (fd : Field) (i v w : Nat) : Option Refuse :=
  match k with
  | .snap =>
    if (fd = F.SNAP_TGT_LO || fd = F.SNAP_TGT_HI) && s.on pg F.SNAP_ARMED then some .accErr else none
  | .tbase =>
    if tbFixed fd && s.on pg F.TBASE_CFG_ENABLE then some (.cfgErr pg 19)
    else if fd = F.TBASE_PERIOD_TICKS && (outside v 64 16777152 || v % 64 != 0) then some (.cfgErr pg 19)
    else if fd = F.TBASE_STALL_GUARD_US && outside v 1000 1000000 then some (.cfgErr pg 19)
    else if (fd = F.TBASE_RATE_TOL || fd = F.TBASE_LOCK_PERIODS) && v == 0 then some (.cfgErr pg 19)
    else none
  | .floor =>
    if fd = F.FLOOR_ROT_LIMIT_CLK && outside v 100000 32000000 then some (.cfgErr pg 5)
    else if fd = F.FLOOR_TAP_WDOG && outside v 64 65535 then some (.cfgErr pg 5)
    else none
  | .lpg =>
    if (fd = F.LPG_RETIRE_THRESH && v == 0) || (fd = F.LPG_PATROL_HOURS && outside v 1 168) then some (.cfgErr pg 8) else none
  | .att => if fd = F.ATT_LKP_WINDOW && outside v 1024 65536 then some (.cfgErr pg 4) else none
  | .kvw => if fd = F.KVW_PREFETCH_DEPTH && outside v 1 64 then some (.cfgErr pg 4) else none
  | .rqt => if fd = F.RQT_CFG_CHUNK_DEFAULT && (outside v 16 4096 || v % 16 != 0) then some (.cfgErr pg 4) else none
  | .sched =>
    if (fd = F.SCH_POLL_US && outside v 10 10000) || (fd = F.SCH_OVL_ENTER_US && outside v 500 1000000) ||
      (fd = F.SCH_OVL_EXIT_MS && outside v 1 10000) then some (.cfgErr pg 2) else none
  | .cm =>
    if (fd = F.CM_HB_US && outside v 20 1000) || (fd = F.CM_TAKEBACK_PERIODS && v == 0) then some (.cfgErr pg 10) else none
  | .bist =>
    if (fd = F.BIST_PASS_HOURS && outside v 1 168) || (fd = F.BIST_DEFER_MS && outside v 1 1000) then some (.cfgErr pg 9) else none
  | .host =>
    if (fd = F.HOST_POLL_US && outside v 10 1000) ||
      ((fd = F.HOST_DMA_W_CASK || fd = F.HOST_DMA_W_CELLAR || fd = F.HOST_DMA_W_DATA) && v == 0) then some (.cfgErr pg 4) else none
  | .intake => if fd = F.INTAKE_MAX && outside v 1 256 then some (.cfgErr pg 2) else none
  | .win =>
    if (fd = F.WIN_CMDQ_ADDR_LO || fd = F.WIN_CMDQ_ADDR_HI) && s.on pg F.WIN_CMDQ_EN then some .accErr
    else if (fd = F.WIN_CMDQ_LOG2 || fd = F.WIN_CMDQ_VEC) && s.on pg F.WIN_CMDQ_EN && s.rdi pg fd i != v then some .accErr
    else if (fd = F.WIN_AP_VALID || fd = F.WIN_AP_RO || fd = F.WIN_AP_SLOT) && s.rdi pg F.WIN_AP_VALID i == 1 && nbit w 31 then
      some .accErr
    else if (fd = F.WIN_AP_VA_LO || fd = F.WIN_AP_VA_HI) && s.rdi pg F.WIN_AP_VALID i == 1 then some .accErr
    else none
  | .keg => if fd = F.KEG_LOSS_US && outside v 5 100 then some (.cfgErr pg 5) else none
  | .power => if fd = F.PWR_C0_STANDING_W && s.rd pg F.PWR_CEILING_W < v then some (.cfgErr pg 8) else none
  | _ => none

/-- A refusal is reported: CFG_ERR in its page, or ACCESS_ERR in the MOD page. -/
def State.refuse (s : State) (a : RegAcc) : Refuse → State
  | .cfgErr pg bit => s.raise pg bit
  | .accErr => s.accessErr a

/-- Apply a written word to entry `i` of one field under its access code (R34 to R43); `s0` is the state before the write. -/
def State.writeField (s0 s : State) (a : RegAcc) (pg : Nat) (k : PageKind) (fd : Field) (i : Nat) (w : Nat) : State :=
  let v := bits w fd.lo fd.width
  match fd.acc with
  | .ro | .wo | .act => s
  | .w1c => s.wri pg fd i (s.rdi pg fd i &&& (2 ^ fd.width - 1 - v))
  | .w1s => s.wri pg fd i (s.rdi pg fd i ||| v)
  | .rw | .rws | .rwl =>
    if fd.acc = .rwl && s.locked pg then s.accessErr a
    else match s0.fieldRefuses pg k fd i v w with
      | some r => s.refuse a r
      | none =>
        let v' := if fd = F.TBASE_FLY_CLASSES then v / 2 * 2
          else if fd = F.CM_TAKEBACK_EN ∧ pg = pgCM 1 then 0 else v
        s.wri pg fd i v'

/-- The entry of field `fd` that lies at offset `off`, if any. -/
def Field.entryAt (fd : Field) (off : Nat) : Option Nat :=
  if fd.stride = 0 then (if off = fd.off then some 0 else none)
  else if fd.off ≤ off ∧ (off - fd.off) % fd.stride = 0 ∧ (off - fd.off) / fd.stride < fd.count then some ((off - fd.off) / fd.stride)
  else none

/-- The fields at an offset of a page kind, with the entry each has there. -/
def fieldsAt (k : PageKind) (off : Nat) : List (Field × Nat) :=
  (headerFields ++ blockFields k).filterMap fun fd => (fd.entryAt off).map fun i => (fd, i)

/-- Offsets of the 64-bit counters of the counter page (R414). -/
def cntOffset (off : Nat) : Bool := 0x100 ≤ off && off < 0x168

/-- Does a page lay out a register at this offset? CTXS1 has no block registers below 0x800 (R419); reserved offsets of the
common header are named (R33). -/
def named (pg : Nat) (k : PageKind) (off : Nat) : Bool :=
  decide (off < 0x100) || (k = .cnt && cntOffset off) ||
  (!(pg == pgCTXS1 && decide (off < 0x800)) && !(fieldsAt k off).isEmpty)

/-- The effects on a block that a plain register write has beyond its fields: a line's frame history is forgotten when its
enable bit is set (R58); a command ring starts at the indexes its control blocks hold (R481, assumption log 11); a mailbox
command is left to the Gauger (R444). -/
def State.afterWrite (s0 s : State) (pg off w : Nat) : State :=
  if pg = pgTBASE ∧ off = 0x100 then
    let tb := s.tb
    let tb := if s.on pg F.TBASE_CFG_LINE_A_EN ∧ ¬ s0.on pg F.TBASE_CFG_LINE_A_EN then { tb with lastA := none } else tb
    let tb := if s.on pg F.TBASE_CFG_LINE_B_EN ∧ ¬ s0.on pg F.TBASE_CFG_LINE_B_EN then { tb with lastB := none } else tb
    { s with tb := tb }
  else if 0x10000 ≤ pg ∧ pg < 0x10020 ∧ off = 0x308 ∧ s.on pg F.WIN_CMDQ_EN ∧ ¬ s0.on pg F.WIN_CMDQ_EN then
    let fn := pg - 0x10000
    { s with host := { s.host with
        cmdCons := nput s.host.cmdCons fn (s.hostRead (s.cmdBase fn + 32) 4)
        cmdProd := nput s.host.cmdProd fn (s.hostRead (s.cmdBase fn + 32) 4)
        respProd := nput s.host.respProd fn (s.hostRead (s.respBase fn) 4)
        cmdFault := nput s.host.cmdFault fn 0 } }
  else if pg = pgGAU ∧ off = 0x118 ∧ nbit w 0 then
    -- R444: MBX.GO starts the command; a GO with a bad length is ignored
    if outside (s0.rd pg F.MBX_CMD_LEN) 16 1048576 then s0.wr pg F.MBX_STAT_ACC_ERR 1
    else ((s.wr pg F.MBX_GO 0).wr pg F.MBX_STAT_BUSY 1).wr pg F.MBX_STAT_DONE 0
  else s

/-- `MBX.STAT.BUSY` as it reads: 1 before READY and while the Gauger restarts, too (R444, R543). -/
def State.mbxBusy (s : State) : Bool := s.on pgGAU F.MBX_STAT_BUSY || !s.ready || s.gau.paused

/-- A write of a whole register that reached a page: the block's or the header's right to write first (R41), then every field at
the offset under its access code. -/
def State.writeReg (s : State) (a : RegAcc) (pg : Nat) (k : PageKind) (off : Nat) (pt : Bool) (w : Nat) : State :=
  if !named pg k off then s.accessErr a
  else if off < 0x100 then
    if mayWriteHeader pg a.fn.val pt then
      (fieldsAt k off).foldl (fun t e => s.writeField t a pg k e.1 e.2 w) s
    else s.accessErr a
  else if !s.mayWriteBlock pg a.fn.val then s.accessErr a
  else if k = .snap ∧ off = 0x108 then
    -- R52: more than one of CANCEL, NOW and ARM
    if popcount w 3 > 1 then s.accessErr a else s
  else if k = .tbase ∧ off = 0x100 ∧ s.on pg F.TBASE_CFG_ENABLE ≠ nbit w 0 then s
  else if k = .gau ∧ off ≤ 0x118 ∧ s.mbxBusy = true then s.wr pg F.MBX_STAT_ACC_ERR 1
  else
    s.afterWrite ((fieldsAt k off).foldl (fun t e => s.writeField t a pg k e.1 e.2 w) s) pg off w

/-- R31: byte enables all set and the address a multiple of 4. -/
def wellShaped (a : RegAcc) (be : Nat) : Bool := be == 15 && a.off % 4 == 0

/-- R31–R46: a register write to a field with no behaviour of its own. A malformed access of the mailbox page is reported
there (R46). -/
def execRegisterWrite (a : RegAcc) (be : Fin 16) (v : Word) (s : State) : Result :=
  match s.target a with
  | .absent => .next s
  | .unassigned => .next (s.accessErr a)
  | .rqtWin _ => .next (s.accessErr a)
  | .reg pg k off pt =>
    if wellShaped a be then .next (s.writeReg a pg k off pt v.toNat)
    else if pg = pgGAU then .next (s.wr pgGAU F.MBX_STAT_ACC_ERR 1)
    else .next (s.accessErr a)

/-! Counter reads (R34) -/

/-- The 64-bit counter whose LO half lies at an offset of a page kind: its value now. `TBASE.TICK` follows the same rule
(R80). -/
def State.counter64 (s : State) (pg : Nat) (k : PageKind) (off : Nat) : Option Nat :=
  if k = .cnt ∧ cntOffset off ∧ off % 8 = 0 then some (s.ctr pg off)
  else if k = .tbase ∧ off = 0x144 then some s.tick
  else none

/-- Read the LO half of a counter: the page's shadow takes the HI half and belongs to this counter. -/
def State.readLo (s : State) (pg off val : Nat) : State :=
  { s with rdata := val % 2 ^ 32, shadow := mput s.shadow pg (off, val / 2 ^ 32 % 2 ^ 32) }

/-- Read the HI half: the shadow when this counter holds it, released by the read, and the live half otherwise. -/
def State.readHi (s : State) (pg off val : Nat) : State :=
  match mget s.shadow pg with
  | some (o, h) => if o = off then { s with rdata := h, shadow := mdel s.shadow pg } else { s with rdata := val / 2 ^ 32 % 2 ^ 32 }
  | none => { s with rdata := val / 2 ^ 32 % 2 ^ 32 }

/-! Event registers, capture, locking and ownership -/

/-- A write to a header register of the page that an access reaches, allowed by R41. -/
def State.headerAction (s : State) (p : PageAcc) (o : Nat) (body : Nat → State) : State :=
  match s.target (pageReg p o) with
  | .reg pg _ _ pt => if mayWriteHeader pg p.fn.val pt then body pg else s.accessErr (pageReg p o)
  | .unassigned => s.accessErr (pageReg p o)
  | .rqtWin _ => s
  | .absent => s

/-- R37, R38: a 1 written to `EVT_PEND` clears the bit in `EVT_RAW`; bits not enabled read 0 there but clear too. -/
def execEvtPendClear (p : PageAcc) (v : Word) (s : State) : Result :=
  .next (s.headerAction p 0x028 fun pg => s.wr pg F.EVT_RAW (s.rd pg F.EVT_RAW &&& (2 ^ 32 - 1 - v.toNat)))

/-- R38: enabling a bit already latched makes the event pending at once. -/
def execEvtEnWrite (p : PageAcc) (v : Word) (s : State) : Result :=
  .next (s.headerAction p 0x024 fun pg => s.edges (s.wr pg F.EVT_EN v.toNat))

/-- R37: writing 0 to `FAULT_CAPT.VALID` clears it with MORE. -/
def execFaultCaptRearm (p : PageAcc) (s : State) : Result :=
  .next (s.headerAction p 0x030 fun pg => (s.wr pg F.FAULT_CAPT_VALID 0).wr pg F.FAULT_CAPT_MORE 0)

/-- R43: `LOCK.LOCKED` stays set until a re-initialising reset. -/
def execLockSet (p : PageAcc) (s : State) : Result :=
  .next (s.headerAction p 0x0F0 fun pg => s.wr pg F.LOCK_LOCKED 1)

/-- Does another page hold this function's pass-through slot (R42)? -/
def State.slotTaken (s : State) (pg fn slot : Nat) : Bool :=
  match s.passThrough fn slot with
  | some q => q != pg
  | none => false

/-- R42: the `OWNER` writes that are ignored with ACCESS_ERR, the RWL lock of R43 among them. -/
def State.ownerRefused (s : State) (pg v : Nat) : Bool :=
  let fn := bits v 0 5
  let slot := bits v 10 6
  let ctx := bits v 16 10
  let cv := bits v 26 1
  s.locked pg || decide (60 ≤ slot) || (fn != 0 && s.slotTaken pg fn slot) ||
  (s.on pg F.OWNER_CTX_VALID && s.ctxState (s.rd pg F.OWNER_CTX) != ctxFREE &&
    !(fn == s.rd pg F.OWNER_FUNC && cv == s.rd pg F.OWNER_CTX_VALID && ctx == s.rd pg F.OWNER_CTX))

def execOwnerWrite (p : PageAcc) (v : Word) (s : State) : Result :=
  .next (s.headerAction p 0x080 fun pg =>
    if s.ownerRefused pg v.toNat then s.accessErr (pageReg p 0x080)
    else (((s.wr pg F.OWNER_FUNC (bits v.toNat 0 5)).wr pg F.OWNER_PT_SLOT (bits v.toNat 10 6)).wr pg F.OWNER_CTX
      (bits v.toNat 16 10)).wr pg F.OWNER_CTX_VALID (bits v.toNat 26 1))

/-- R48: re-evaluate the root condition: the PF's message is sent again while the enabled sum is not zero. -/
def execEvtRearm (fn : Fin 32) (s : State) : Result :=
  .next (s.blockAction pgEVT fn.val 0x104 fun t =>
    if t.rootSum &&& t.rd pgEVT F.EVT_ROOT_EN = 0 then t else t.msix 0 1)

/-! Snap marks (R52–R55) -/

/-- The snap target. -/
def State.snapTarget (s : State) : Nat := s.rd pgSNAP F.SNAP_TGT_LO + 2 ^ 32 * s.rd pgSNAP F.SNAP_TGT_HI

/-- Disarm and set MISSED (R52, R80). -/
def State.snapMissed (s : State) : State := (s.wr pgSNAP F.SNAP_MISSED 1).raise pgSNAP 1

/-- R52: arm against the target, or set MISSED when the target is not ahead; armed already, it is an access error. -/
def execSnapArm (fn : Fin 32) (s : State) : Result :=
  .next (s.blockAction pgSNAP fn.val 0x108 fun t =>
    if t.on pgSNAP F.SNAP_ARMED then
      t.accessErr { fn := fn, bar2 := fn.val != 0, off := if fn.val = 0 then 0x1108 else
        (0xC4 + t.rd pgSNAP F.OWNER_PT_SLOT) * 4096 + 0x108 }
    else if 1 ≤ ahead t.snapTarget t.tick ∧ ahead t.snapTarget t.tick < 2 ^ 47 then
      { (t.wr pgSNAP F.SNAP_ARMED 1) with snap := { t.snap with armT := t.tick } }
    else t.snapMissed)

/-- The pages that latch at a snap: every unit in service or under self-test, and the pages of every bound slot (R39, R53). -/
def State.snapPages (s : State) : List Nat :=
  (bar0Pages s.variant).filter (fun p => !s.isRetired p) ++
  (List.range 32).flatMap fun fn => (List.range 64).flatMap fun k =>
    if s.rdi (pgWIN fn) F.WIN_SLOT_VALID k = 1 then
      let c := s.rdi (pgWIN fn) F.WIN_SLOT_CTX k
      [pgSPL c, pgCNT c, pgCEV c]
    else []

/-- The live counter that snapshot register `i` of a page latches: on the counter page, bits [31:0] of its 64-bit counters
(R414). -/
def State.snapSource (s : State) (pg i : Nat) : Nat :=
  if pageKind pg = some .cnt then s.ctr pg (0x100 + 8 * i) else s.ctr pg (0x4C + 4 * i)

/-- One page latches its counters and stamps the snap (R53, R54). -/
def State.latchPage (s : State) (seq : Nat) (forced : Bool) (pg : Nat) : State :=
  let s := ((((s.wr pg F.SNAP_SEQ seq).wr pg F.SNAP_TICK_LO s.tick).wr pg F.SNAP_TICK_HI_TICK (s.tick / 2 ^ 32)).wr pg
    F.SNAP_TICK_HI_FORCED (boolNat forced)).wr pg F.SNAP_TICK_HI_FREE_RUN (boolNat (s.tb.st == .freeRun))
  (List.range 13).foldl (fun t i => t.wri pg F.SNAP_CTR i (t.snapSource pg i)) s

/-- Fire a snap: the next sequence number, never 0; one strobe, latched by every unit but those in `missing`; any armed target
is disarmed. The highest-value counters restart (R80, R537): lag, input power, hottest junction. -/
def State.fireSnap (s : State) (forced : Bool) (missing : List Nat) : State :=
  let seq := if s.rd pgSNAP F.SNAP_LAST_SEQ = 2 ^ 32 - 1 then 1 else s.rd pgSNAP F.SNAP_LAST_SEQ + 1
  let pages := s.snapPages
  let s1 := (s.wr pgSNAP F.SNAP_LAST_SEQ seq).wr pgSNAP F.SNAP_ARMED 0
  let s2 := (pages.filter fun p => !missing.contains p).foldl (fun t p => t.latchPage seq forced p) s1
  { s2 with
    ctrs := nput (nput (nput s2.ctrs (pgTBASE * 4096 + 0x07C) (s2.rd pgTBASE F.TBASE_LAG)) (pgPOWER * 4096 + 0x060) (s2.rd pgPOWER F.PWR_PIN_W))
      (pgTHERMAL * 4096 + 0x050) (s2.rd pgTHERMAL F.THM_HOT_C)
    snap := { s2.snap with unacked := (pages.filter fun p => missing.contains p).length, busy := true, fireClk := s2.now } }

/-- Has the armed target been reached: the tick has advanced by as much as the target was ahead at arming (R53)? -/
def State.snapDue (s : State) : Bool :=
  s.on pgSNAP F.SNAP_ARMED && decide (ahead s.snapTarget s.snap.armT ≤ ahead s.tick s.snap.armT)

/-- R53: the armed snap fires at its target; `missing` are the pages of the units that do not acknowledge. -/
def execSnapFire (missing : List Nat) (s : State) : Result :=
  .next (if s.snapDue then s.fireSnap false missing else s)

/-- R54: a snap at once, forced; every unit latches. -/
def execSnapNow (fn : Fin 32) (s : State) : Result :=
  .next (s.blockAction pgSNAP fn.val 0x108 fun t => t.fireSnap true [])

/-- R55: a cancel disarms; after the strobe it has no effect. -/
def execSnapCancel (fn : Fin 32) (s : State) : Result :=
  .next (s.blockAction pgSNAP fn.val 0x108 fun t => t.wr pgSNAP F.SNAP_ARMED 0)

/-- R53: DONE at the last acknowledgement, or 1 µs after firing with the missing units counted. -/
def execSnapDoneTimeout (s : State) : Result :=
  .next (if s.snap.busy ∧ (s.snap.unacked = 0 ∨ s.snap.fireClk + clkUs ≤ s.now) then
    let s1 := (s.wr pgSNAP F.SNAP_DONE 1).wr pgSNAP F.SNAP_MISS_UNITS s.snap.unacked
    let s2 := if s.snap.unacked = 0 then s1 else s1.wr pgSNAP F.SNAP_INCOMPLETE 1
    ({ s2 with snap := { s2.snap with busy := false } }).raise pgSNAP 0
  else s)

end Sys2Proof.Machine
end

