-- ==== Sys2Proof/Machine/TimeBase.lean ====
section
/-! DEFINITION. The time base: frames and windows, the interpolated tick, locking, stalls and holdover, and the slot tables
(R56–R80, R552). The period marks themselves are in `Mark.lean`. -/

namespace Sys2Proof.Machine

/-! Codes and events -/

/-- The code of a time-base state (R61). -/
def tbCode : TbState → Nat
  | .idle => 0 | .acquiring => 1 | .locked => 2 | .stalled => 3 | .stallFly => 4 | .holdover => 5 | .freeRun => 6

/-- BOUND_OK of the state table (R61, R62). -/
def boundOk : TbState → Bool
  | .locked | .stalled | .stallFly | .holdover => true
  | .idle | .acquiring | .freeRun => false

/-- Enter a state and raise the events that R552 names for the change. -/
def State.tbEnter (s : State) (st : TbState) (events : List Nat) : State :=
  events.foldl (fun t e => t.raise pgTBASE e) { s with tb := { s.tb with st := st } }

def State.tbFlag (s : State) (fd : Field) : Bool := s.on pgTBASE fd
def State.markMode (s : State) : Bool := s.on pgTBASE F.TBASE_CFG_PERIOD_MODE
def State.periodClk (s : State) : Nat := s.rd pgTBASE F.TBASE_PERIOD_CLK
def State.slotClk (s : State) : Nat := s.rd pgTBASE F.TBASE_SLOT_CLK
def State.phase (s : State) : Nat := s.rd pgTBASE F.TBASE_PHASE_LO + 2 ^ 32 * s.rd pgTBASE F.TBASE_PHASE_HI

/-! The interpolated tick (R60) -/

/-- The rate in force: a rate adjustment of R79, else the last measured period, else what the last two frames show. -/
def TimeBase.curRate (tb : TimeBase) : Nat × Nat :=
  if tb.adj.2 ≠ 0 then tb.adj else if tb.rate.2 ≠ 0 then tb.rate else tb.frRate

/-- The cap of R60 on the interpolated value, in force in LOCKED: last valid TICK + 640 × T / P + 1. -/
def TimeBase.capFx (tb : TimeBase) : Option Nat :=
  match tb.lastUsed with
  | some f => if tb.st = .locked ∧ tb.rate.2 ≠ 0 then some (f.tick * 65536 + 640 * tb.rate.1 / tb.rate.2 + 65536) else none
  | none => none

/-- Does the tick advance by itself in this state? -/
def TimeBase.advancing (tb : TimeBase) : Bool :=
  tb.loaded && !tb.hold && (tb.st = .acquiring || tb.st = .locked || tb.st = .holdover || tb.st = .freeRun)

/-- How far an interpolated value is ahead of another, modulo the 48-bit count. -/
def aheadFx (a b : Nat) : Nat := (a % 2 ^ 64 + 2 ^ 64 - b % 2 ^ 64) % 2 ^ 64

/-- Move the interpolated value to `fx` at clock `clk`, remembering the clock at which each new tick was passed (R61). -/
def TimeBase.moveTo (tb : TimeBase) (fx clk : Nat) : TimeBase :=
  let fx := fx % 2 ^ 64
  if fx / 65536 = tb.tickFx / 65536 then { tb with tickFx := fx }
  else { tb with tickFx := fx, hist := tb.hist ++ [(fx / 65536, clk)] }

/-- One clock of the interpolated tick. -/
def TimeBase.clock (tb : TimeBase) (clk : Nat) : TimeBase :=
  if !tb.advancing then tb
  else
    let (n, d) := tb.curRate
    if d = 0 then tb
    else
      let fx := tb.tickFx + (tb.rem + n) / d
      let tb := { tb with rem := (tb.rem + n) % d }
      match tb.capFx with
      | some c =>
        if aheadFx c tb.tickFx < 2 ^ 63 ∧ aheadFx c tb.tickFx < fx - tb.tickFx then tb.moveTo c clk
        else if 2 ^ 63 ≤ aheadFx c tb.tickFx then tb
        else tb.moveTo fx clk
      | none => tb.moveTo fx clk

/-- One arithmetic clock passes: what `step` does on an empty queue (assumption log 5). -/
def State.clockTick (s : State) : State :=
  { s with now := s.now + 1, tb := s.tb.clock (s.now + 1) }

/-- The clock at which the tick reached `t`, from the history of the last frame interval; the present clock otherwise (R61). -/
def TimeBase.clkOf (tb : TimeBase) (t dflt : Nat) : Nat :=
  match tb.hist.find? fun e => ahead e.1 t < 2 ^ 47 with
  | some e => e.2
  | none => dflt

/-! Marks in COUNT mode (R63) -/

/-- Is the tick count past or at `m`? -/
def reached (t m : Nat) : Bool := ahead t m < 2 ^ 47

/-- The first counted mark at or after tick `t`. -/
def State.nextCounted (s : State) (t : Nat) : Nat :=
  let pt := s.rd pgTBASE F.TBASE_PERIOD_TICKS
  if pt = 0 then t
  else
    let r := ahead t s.phase % pt
    if r = 0 then t else (t + (pt - r)) % 2 ^ 48

/-- The period index of a counted mark (R63). -/
def State.countedIdx (s : State) (t : Nat) : Nat :=
  let pt := s.rd pgTBASE F.TBASE_PERIOD_TICKS
  if pt = 0 then 0 else ahead t s.phase / pt % 2 ^ 24

/-! Frames (R57, R58) -/

/-- One bit of CRC-16, polynomial 0x1021, not reflected. -/
def crc16Bit (c : Nat) : Nat := if c < 0x8000 then 2 * c else (2 * c % 65536) ^^^ 0x1021

/-- CRC-16 with initial value 0xFFFF over a list of bytes (R57). -/
def crc16 (bs : List Byte) : Nat :=
  bs.foldl (fun c b => (List.range 8).foldl (fun c _ => crc16Bit c) (c ^^^ (b.toNat * 256))) 0xFFFF

/-- A number sent most significant byte first. -/
def beNat (bs : List Byte) : Nat := bs.foldl (fun a b => a * 256 + b.toNat) 0

/-- Why a frame is not accepted. -/
inductive FrameVerdict where
  | valid | crc | version | source | back
  deriving DecidableEq, Repr

/-- The fields of bytes 1–24 of a frame (R57). -/
def frameOf (bs : List Byte) (clk : Nat) : TbFrame :=
  let flags := beNat ((bs.drop 10).take 2)
  { tick := beNat ((bs.drop 1).take 6), pidx := beNat ((bs.drop 7).take 3), pmark := nbit flags 0, stall := nbit flags 1,
    degraded := nbit flags 2, src := beNat ((bs.drop 12).take 2), markOfs := beNat ((bs.drop 14).take 2), clk := clk }

/-- The acceptance test of R58 on bytes 1–24 of a frame. -/
def State.frameVerdict (s : State) (lineB codeErr : Bool) (bs : List Byte) : FrameVerdict :=
  let f := frameOf bs s.now
  if codeErr || crc16 (bs.take 22) != beNat ((bs.drop 22).take 2) then .crc
  else if (bs.headD 0).toNat ≠ 1 then .version
  else if s.tbFlag F.TBASE_CFG_SRC_CHECK && f.src != s.rd pgTBASE F.TBASE_SRC_ID then .source
  else match (if lineB then s.tb.lastB else s.tb.lastA) with
    | some t => if ahead f.tick t < 2 ^ 47 then .valid else .back
    | none => .valid

/-- R58: a frame on a line in use is judged, counted and reported in every state. A line whose receiver failed its loop-back is not used (R468). -/
def execTbFrameReceive (lineB codeErr : Bool) (bytes : List Byte) (s : State) : Result :=
  .next (
    if !(if lineB then s.tbFlag F.TBASE_CFG_LINE_B_EN else s.tbFlag F.TBASE_CFG_LINE_A_EN) || !nbit (s.rd pgMOD F.MOD_FIXED_SVC) (4 + boolNat lineB) then s
    else match s.frameVerdict lineB codeErr bytes with
      | .crc =>
        let s1 := (s.count pgTBASE (if lineB then 0x058 else 0x054) 1).raise pgTBASE 7
        { s1 with bist := { s1.bist with tbErr := nput s1.bist.tbErr (2 + boolNat lineB) 1 } }
      | .version => s
      | .source => s.raise pgTBASE 8
      | .back => s.raise pgTBASE 18
      | .valid =>
        let f := frameOf bytes s.now
        let s1 := (s.count pgTBASE (if lineB then 0x050 else 0x04C) 1).wr pgTBASE F.TBASE_SRC_SEEN f.src
        if lineB then { s1 with tb := { s1.tb with lastB := some f.tick, winB := some f } }
        else { s1 with tb := { s1.tb with lastA := some f.tick, winA := some f } })

/-! The window (R59, R60, R77, R79) -/

/-- The frame that R59 uses: the primary line's if valid, else the other's. -/
def State.usedFrame (s : State) : Option TbFrame :=
  let (p, o) := if s.tbFlag F.TBASE_CFG_PRIMARY then (s.tb.winB, s.tb.winA) else (s.tb.winA, s.tb.winB)
  p.orElse fun _ => o

/-- The clock distance of `n` ticks at the last measured rate. -/
def TimeBase.ticksToClk (tb : TimeBase) (n : Nat) : Nat := if tb.rate.1 = 0 then 0 else n * 65536 * tb.rate.2 / tb.rate.1

/-- R79: the tick is compared with the first valid frame after a stall, a holdover or a free run. Within one slot the rate is
adjusted to the next mark; more than one slot ahead the tick steps, skipping whole periods; more than one slot behind it holds. -/
def State.meetFrame (s : State) (f : TbFrame) : State :=
  let tb := s.tb
  let slotFx := tb.perTicks * 1024
  let up := aheadFx (f.tick * 65536) tb.tickFx
  let down := aheadFx tb.tickFx (f.tick * 65536)
  if up ≤ slotFx ∨ down ≤ slotFx then
    let toMark := ahead tb.nextMark f.tick
    let c := f.clk + tb.ticksToClk toMark - s.now
    let r := aheadFx (tb.nextMark * 65536) tb.tickFx
    { s with tb := { tb with adj := if c = 0 ∨ 2 ^ 63 ≤ r then (0, 0) else (r, c), rem := 0, hold := false } }
  else if up < 2 ^ 63 then
    let skipped := if reached f.tick tb.nextMark ∧ tb.perTicks ≠ 0 then ahead f.tick tb.nextMark / tb.perTicks else 0
    let tb1 := { (tb.moveTo (f.tick * 65536) s.now) with
      adj := (0, 0), rem := 0, hold := false, nextMark := (tb.nextMark + skipped * tb.perTicks) % 2 ^ 48 }
    let s1 := ({ s with tb := tb1 }).count pgTBASE 0x078 skipped
    let s2 := if s.markMode then s1.wr pgTBASE F.TBASE_PERIOD_IDX (s1.rd pgTBASE F.TBASE_PERIOD_IDX + skipped) else s1
    s2.raise pgTBASE 17
  else { s with tb := { tb with hold := true } }

/-- R60: the interpolated tick follows a used frame. -/
def TimeBase.follow (tb : TimeBase) (f : TbFrame) (clk : Nat) : TimeBase :=
  let d := ahead f.tick (tb.tickFx / 65536)
  if d = 0 then tb
  else if d < 2 ^ 47 then { (tb.moveTo (f.tick * 65536) clk) with hold := false, rem := 0 }
  else { tb with hold := true }

/-- R63, R66: a frame's PMARK: in MARK mode it signals the mark, in COUNT mode one that disagrees by more than 1 tk is reported. -/
def State.takePmark (s : State) (f : TbFrame) : State :=
  if !f.pmark then s
  else
    let m := ahead f.tick f.markOfs
    if s.markMode then
      { s with tb := { s.tb with signalled := some (m, s.tb.clkOf m s.now, f.pidx) } }
    else
      let pt := s.rd pgTBASE F.TBASE_PERIOD_TICKS
      let r := if pt = 0 then 0 else ahead m s.phase % pt
      if pt = 0 ∨ r ≤ 1 ∨ r = pt - 1 then s else s.raise pgTBASE 10

/-- R61 judged on a measured period: within 80,000–6,400,000 clocks. -/
def periodInRange (p : Nat) : Bool := 80000 ≤ p && p ≤ 6400000

/-- Does a period differ from the one before by no more than the tolerance (R61)? -/
def State.withinTol (s : State) (p prev : Nat) : Bool :=
  (if prev ≤ p then p - prev else prev - p) * 1024 ≤ s.rd pgTBASE F.TBASE_RATE_TOL * prev

/-- R79: in FREE_RUN the receiver's second count follows the frames, places marks on it and judges the lock condition. -/
def State.secondCount (s : State) (f : TbFrame) : State :=
  let tb := s.tb
  let mk : Option Nat :=
    if s.markMode then (if f.pmark then some (ahead f.tick f.markOfs) else none)
    else if reached f.tick tb.frNextMark then some tb.frNextMark else none
  match mk with
  | none => { s with tb := { tb with frTick := f.tick } }
  | some m =>
    let clk := f.clk - (if tb.frRate.1 = 0 then 0 else ahead f.tick m * 65536 * tb.frRate.2 / tb.frRate.1)
    let tb1 := { tb with
      frTick := f.tick, frMarkClk := some clk, longMiss := false,
      frNextMark := if s.markMode then m else s.nextCounted ((f.tick + 1) % 2 ^ 48) }
    match tb.frMarkClk with
    | none => { s with tb := tb1 }
    | some c0 =>
      let p := clk - c0
      let run := if !periodInRange p || tb.longMiss then 0
        else if tb.frLockRun = 0 then 1 else if s.withinTol p tb.frPrev then tb.frLockRun + 1 else 1
      { s with tb := { tb1 with
        frPrev := p, frLockRun := run, frLock := tb.frLock || decide (s.rd pgTBASE F.TBASE_LOCK_PERIODS ≤ run) } }

/-- The rate that two successive used frames show (R60). -/
def TimeBase.noteFrame (tb : TimeBase) (f : TbFrame) (clk : Nat) : TimeBase :=
  let fr := match tb.lastUsed with
    | some p => if p.clk < f.clk then (ahead f.tick p.tick * 65536, f.clk - p.clk) else tb.frRate
    | none => tb.frRate
  let adv := match tb.lastUsed with
    | some p => ahead f.tick p.tick != 0
    | none => true
  { tb with lastUsed := some f, frRate := fr, advClk := if adv then clk else tb.advClk,
            hist := tb.hist.filter fun e => clk < e.2 + 640 }

/-- The last edge of their groups fires now for the running steps that satisfy `p` and have not had it (R73). -/
def State.edgeNow (s : State) (p : Step → Bool) : State :=
  { s with steps := s.steps.map fun e => if e.2.started && e.2.edgeClk.isNone && p e.2 then (e.1, { e.2 with edgeClk := some s.now }) else e }

/-- A step that the flywheel of a stall started (R76). -/
def State.flyStep (s : State) (st : Step) : Bool := nbit (s.rd pgTBASE F.TBASE_FLY_CLASSES) st.cls && decide (s.tb.stallClk ≤ st.startClk)

/-- R77: flywheel steps still running count as lag of the resumed period. -/
def State.endFly (s : State) : State := if s.tb.st = .stallFly then s.edgeNow s.flyStep else s

/-- What a used frame does to the tick in each state. -/
def State.applyFrame (s : State) (f : TbFrame) : State :=
  let prev := s.tb.lastUsed
  let s1 := { s with tb := s.tb.noteFrame f s.now }
  match s.tb.st with
  | .idle => s1
  | .acquiring | .locked =>
    if !s.tb.loaded then
      -- R80: the first frame after ENABLE loads the tick
      { s1 with tb := { (s1.tb.moveTo (f.tick * 65536) s.now) with
          loaded := true, hold := false, rem := 0, nextMark := s1.nextCounted f.tick } }.takePmark f
    else ({ s1 with tb := s1.tb.follow f s.now }).takePmark f
  | .stalled | .stallFly =>
    let advanced := match prev with
      | some p => ahead f.tick p.tick != 0
      | none => true
    if f.stall || !advanced then s1
    else (({ s1.endFly with tb := { s1.tb with markClk := none, markWait := s.now } }).meetFrame f).tbEnter .locked [0] |>.takePmark f
  | .holdover => (({ s1 with tb := { s1.tb with markClk := none, markWait := s.now } }).meetFrame f).tbEnter .locked [0] |>.takePmark f
  | .freeRun => s1.secondCount f

/-- R468: the window enters the span's counts of each enabled line. -/
def State.spanWindow (s : State) : State :=
  [0, 1].foldl (fun (t : State) l =>
    if t.tbFlag (if l = 0 then F.TBASE_CFG_LINE_A_EN else F.TBASE_CFG_LINE_B_EN) then
      { t with bist := { t.bist with
          tbWin := nadd t.bist.tbWin l 1
          tbErr := nput (nadd t.bist.tbErr l (nget t.bist.tbErr (2 + l))) (2 + l) 0 } }
    else t) s

/-- R59: at the end of a 1 µs window a frame is used, or the window is missing. -/
def execTbWindowEnd (s : State) : Result :=
  .next (
    let a := s.tb.winA
    let b := s.tb.winB
    let s1 := s.spanWindow.wr pgTBASE F.TBASE_LINE_OK (boolNat a.isSome + 2 * boolNat b.isSome)
    let used := s.usedFrame
    let s2 := { s1 with tb := { s1.tb with winA := none, winB := none } }
    match used with
    | none =>
      let run := s2.tb.missRun + 1
      ({ s2 with tb := { s2.tb with missRun := run, longMiss := s2.tb.longMiss || decide (16 < run) } }).count pgTBASE 0x05C 1
    | some f =>
      let s3 := s2.wr pgTBASE F.TBASE_SRC_SEEN f.src
      let s4 := match a, b with
        | some x, some y => if ahead x.tick y.tick ≤ 1 ∨ ahead y.tick x.tick ≤ 1 then s3 else s3.raise pgTBASE 9
        | _, _ => s3
      let s5 := if f.degraded && !s4.tb.degraded then s4.raise pgTBASE 21 else s4
      let s6 := { s5 with tb := { s5.tb with missRun := 0, degraded := f.degraded } }
      let s7 := if s6.tb.subMarks = 0 then s6.wr pgTBASE F.TBASE_MISS_PERIODS 0 else s6
      s7.applyFrame f)

/-! Stalls, holdover (R76, R78) -/

/-- R76: a used frame carries STALL, or no valid frame has advanced the tick for 4 slots while frames keep arriving. -/
def State.stalledNow (s : State) : Bool :=
  match s.tb.lastUsed with
  | some f => s.tb.missRun == 0 && (f.stall || (s.slotClk != 0 && decide (s.tb.advClk + 4 * s.slotClk ≤ s.now)))
  | none => false

def execStallDetect (s : State) : Result :=
  .next (if s.tb.st = .locked ∧ s.stalledNow then
    (({ s with tb := { s.tb with stallClk := s.now } }).tbEnter .stalled [2]).count pgTBASE 0x074 1
  else s)

/-- R76: the guard passes; the first flywheel period begins at this clock. -/
def execStallGuardExpire (s : State) : Result :=
  .next (if s.tb.st = .stalled ∧ s.tb.stallClk + clkUs * s.rd pgTBASE F.TBASE_STALL_GUARD_US ≤ s.now then
    ({ s with tb := { s.tb with flyNext := s.now } }).tbEnter .stallFly [3]
  else s)

/-- R78: 16 consecutive missing windows. Substitute marks already placed count towards the four flywheel marks (R66). -/
def execHoldoverEntry (s : State) : Result :=
  .next (if 16 ≤ s.tb.missRun ∧ (s.tb.st = .locked ∨ s.tb.st = .stalled ∨ s.tb.st = .stallFly) then
    (({ s with tb := { s.tb with hold := false } }).wr pgTBASE F.TBASE_MISS_PERIODS s.tb.subMarks).tbEnter .holdover [4]
  else s)

/-! Enabling (R80) -/

/-- The time-base configuration that a word of `TBASE.CFG` carries besides ENABLE. -/
def State.setTbCfg (s : State) (v : Nat) : State :=
  ((((s.wr pgTBASE F.TBASE_CFG_LINE_B_EN (bits v 5 1)).wr pgTBASE F.TBASE_CFG_LINE_A_EN (bits v 4 1)).wr pgTBASE
    F.TBASE_CFG_SRC_CHECK (bits v 3 1)).wr pgTBASE F.TBASE_CFG_PRIMARY (bits v 2 1)).wr pgTBASE F.TBASE_CFG_PERIOD_MODE (bits v 1 1)

/-- A line whose enable bit goes from 0 to 1 forgets its history (R58). -/
def State.forgetLines (s0 s : State) : State :=
  { s with tb := { s.tb with
      lastA := if s.tbFlag F.TBASE_CFG_LINE_A_EN && !s0.tbFlag F.TBASE_CFG_LINE_A_EN then none else s.tb.lastA
      lastB := if s.tbFlag F.TBASE_CFG_LINE_B_EN && !s0.tbFlag F.TBASE_CFG_LINE_B_EN then none else s.tb.lastB } }

/-- A write of `TBASE.CFG` on a locked page changes nothing and is an access error (R43). -/
def State.tbCfgAction (s : State) (fn : Fin 32) (body : State → State) : State :=
  s.blockAction pgTBASE fn.val 0x100 fun t =>
    if t.locked pgTBASE then t.accessErr { fn := fn, bar2 := fn.val != 0, off := if fn.val = 0 then 0x100100 else
      (0xC4 + t.rd pgTBASE F.OWNER_PT_SLOT) * 4096 + 0x100 }
    else body t

/-- R80: a write that sets ENABLE, its other fields taking the written values. -/
def execTbaseEnable (fn : Fin 32) (v : Word) (s : State) : Result :=
  .next (s.tbCfgAction fn fun t =>
    if t.tbFlag F.TBASE_CFG_ENABLE then t.raise pgTBASE 19
    else
      let t1 := t.forgetLines ((t.setTbCfg v.toNat).wr pgTBASE F.TBASE_CFG_ENABLE 1)
      let t2 := { t1 with tb := { t1.tb with
        st := .acquiring, loaded := false, hold := false, rem := 0, rate := (0, 0), frRate := (0, 0), adj := (0, 0),
        lastUsed := none, missRun := 0, longMiss := false, markClk := none, lockRun := 0, signalled := none,
        subMarks := 0, frLock := false, frLockRun := 0, frMarkClk := none,
        perTicks := if t1.markMode then 0 else t1.rd pgTBASE F.TBASE_PERIOD_TICKS } }
      t2.wr pgTBASE F.TBASE_MISS_PERIODS 0)

/-- R80: a write that clears ENABLE: the state returns to IDLE, the tick holds, the line histories are forgotten (R58) and an
armed snap is disarmed as missed. -/
def execTbaseDisable (fn : Fin 32) (v : Word) (s : State) : Result :=
  .next (s.tbCfgAction fn fun t =>
    if !t.tbFlag F.TBASE_CFG_ENABLE then t.forgetLines (t.setTbCfg v.toNat)
    else
      let t1 := (t.setTbCfg v.toNat).wr pgTBASE F.TBASE_CFG_ENABLE 0
      let t2 := { t1 with tb := { t1.tb with st := .idle, lastA := none, lastB := none, adj := (0, 0) } }
      if t2.on pgSNAP F.SNAP_ARMED then (t2.wr pgSNAP F.SNAP_ARMED 0).snapMissed else t2)

/-! The slot tables (R67–R70) -/

/-- Entry `k` of copy A (0) or B (1). -/
def State.slotEntry (s : State) (copy k : Nat) : Nat := s.rdi pgTBASE F.SLOT_TBL (64 * copy + k)

def slotClassMask (e : Nat) : Nat := bits e 28 4
def slotGroupStart (e : Nat) : Bool := nbit e 27
def slotResValid (e : Nat) : Bool := nbit e 26
def slotResCtx (e : Nat) : Nat := bits e 16 10

def State.activeCopy (s : State) : Nat := s.rd pgTBASE F.TBASE_SLOT_TBL_SEL_ACTIVE

/-- R69: a write to the active copy, or to either copy while a switch is pending, is ignored. The low half is reserved. -/
def execSlotTableWrite (fn : Fin 32) (copyB : Bool) (slot : Fin 64) (v : Word) (s : State) : Result :=
  .next (s.blockAction pgTBASE fn.val (0x400 + 256 * boolNat copyB + 4 * slot.val) fun t =>
    if t.activeCopy = boolNat copyB ∨ t.tbFlag F.TBASE_SLOT_TBL_SEL_PEND then t.raise pgTBASE 13
    else t.wri pgTBASE F.SLOT_TBL (64 * boolNat copyB + slot.val) (v.toNat / 65536 * 65536))

/-- Slots of a copy are grouped from each GROUP_START: the start of the group that slot `k` belongs to. -/
def State.groupStartOf (s : State) (copy k : Nat) : Nat :=
  ((List.range (k + 1)).filter fun j => slotGroupStart (s.slotEntry copy j)).getLastD 0

/-- Do the RES_VALID slots of every group name one context only? -/
def State.oneResPerGroup (s : State) (copy : Nat) : Bool :=
  (List.range 64).all fun k => (List.range 64).all fun j =>
    !(s.groupStartOf copy k == s.groupStartOf copy j && slotResValid (s.slotEntry copy k) && slotResValid (s.slotEntry copy j)) ||
      slotResCtx (s.slotEntry copy k) == slotResCtx (s.slotEntry copy j)

/-- R69: the check of the inactive copy at a switch request. -/
def State.switchOk (s : State) (copy : Nat) : Bool :=
  slotGroupStart (s.slotEntry copy 0) &&
  ((List.range 64).all fun k => !nbit (s.slotEntry copy k) 28 || slotResValid (s.slotEntry copy k)) &&
  s.oneResPerGroup copy

def execSlotSwReq (fn : Fin 32) (s : State) : Result :=
  .next (s.blockAction pgTBASE fn.val 0x184 fun t =>
    if t.switchOk (1 - t.activeCopy) then t.wr pgTBASE F.TBASE_SLOT_TBL_SEL_PEND 1 else t.raise pgTBASE 15)

/-- R70: a cancel that reaches the page before the mark. -/
def execSlotSwCancel (fn : Fin 32) (s : State) : Result :=
  .next (s.blockAction pgTBASE fn.val 0x184 fun t => t.wr pgTBASE F.TBASE_SLOT_TBL_SEL_PEND 0)

/-- R70: action 2 of a mark: a pending switch takes effect. -/
def State.switchTables (s : State) : State :=
  if s.tbFlag F.TBASE_SLOT_TBL_SEL_PEND then
    ((s.wr pgTBASE F.TBASE_SLOT_TBL_SEL_ACTIVE (1 - s.activeCopy)).wr pgTBASE F.TBASE_SLOT_TBL_SEL_PEND 0).raise pgTBASE 14
  else s

/-! Lag (R73, R74) -/

/-- The slots of a group of the plan that R74 leaves it. -/
def State.groupLen (s : State) (g : GroupPlan) : Nat := g.len - nget s.gate.trimmed g.step

/-- R73: add lag slots, saturating at 255; LAG_WARN each time it rises past the threshold. -/
def State.addLag (s : State) (n : Nat) : State :=
  let old := s.rd pgTBASE F.TBASE_LAG
  let new := min 255 (old + n)
  let s1 := (s.wr pgTBASE F.TBASE_LAG new).count pgTBASE 0x064 n
  let s2 := if s1.ctr pgTBASE 0x07C < new then { s1 with ctrs := nput s1.ctrs (pgTBASE * 4096 + 0x07C) new } else s1
  let w := s.rd pgTBASE F.TBASE_LAG_WARN
  if old ≤ w ∧ w < new then s2.raise pgTBASE 16 else s2

/-- R73: the lag of a step that completed `overrun` clocks after its group's last edge. -/
def State.lagOfOverrun (s : State) (overrun : Nat) : State :=
  if s.slotClk = 0 ∨ overrun = 0 then s else s.addLag (ceilDiv overrun s.slotClk)

end Sys2Proof.Machine
end

