-- ==== Sys2Proof/Machine/Cellarmaster.lean ====
section
/-! DEFINITION. The Cellarmaster pair: claims, drops, takeover, state copy, self-test of the standby, takeback and yield (R379–R395). -/

namespace Sys2Proof.Machine

def State.cmUnit (s : State) (u : Nat) : CmUnit := if u = 0 then s.cm.a else s.cm.b
def State.setUnit (s : State) (u : Nat) (x : CmUnit) : State :=
  { s with cm := if u = 0 then { s.cm with a := x } else { s.cm with b := x } }
def State.modUnit (s : State) (u : Nat) (f : CmUnit → CmUnit) : State := s.setUnit u (f (s.cmUnit u))

/-- Role codes (R379). -/
abbrev roleReset : Nat := 0
abbrev roleSelftest : Nat := 1
abbrev roleSync : Nat := 2
abbrev roleReady : Nat := 3
abbrev roleActive : Nat := 4
abbrev roleRetired : Nat := 5

def State.role (s : State) (u : Nat) : Nat := s.rd (pgCM u) F.CM_ROLE
def State.claim (s : State) (u : Nat) : Nat := s.rd (pgCM u) F.CM_CLAIM

/-- next(x) (R380). -/
def nextClaim (x : Nat) : Nat := if (x + 1) % 256 = 0 then 1 else (x + 1) % 256

/-- A unit takes control: it writes next(`CM.CLAIM_LAST`) and becomes ACTIVE. -/
def State.takeClaim (s : State) (u : Nat) : State :=
  let c := nextClaim (s.rd (pgCM 0) F.CM_CLAIM_LAST)
  let s1 := ((((s.wr (pgCM u) F.CM_CLAIM c).wr (pgCM 0) F.CM_CLAIM_LAST c).wr (pgCM 1) F.CM_CLAIM_LAST c).wr (pgCM u) F.CM_ROLE roleActive).modUnit u
    fun x => { x with hbClk := s.now, diag := 0, readyMarks := 0, slice := none }
  { s1 with cm := { s1.cm with dropClk := none } }

/-- A planned changeover is cancelled: the outgoing unit keeps control (R393). -/
def State.cancelPlanned (s : State) (outgoing : Nat) : State :=
  if s.cm.announced then
    ({ s with cm := { s.cm with announced := false, handover := none } }.wr (pgCM outgoing) F.CM_PLANNED 0).raise (pgCM outgoing) 4
  else s

/-- A unit is retired (R388): it leaves `MOD.FIXED_SVC`. -/
def State.cmRetire (s : State) (u : Nat) : State :=
  let s1 := ((s.wr (pgCM u) F.CM_CLAIM 0).wr (pgCM u) F.CM_ROLE roleRetired).raise (pgCM u) 8
  { s1 with retired := nput s1.retired (pgCM u) 1 }.recount

/-- Drops counted for retirement in the last 24 hours. -/
def State.recentDrops (s : State) (u : Nat) : List Nat := (s.cmUnit u).drops.filter fun c => decide (s.now < c + clkDay)

/-- The standby of an active unit that drops abandons a slice in progress and restarts its core (R392). -/
def State.abandonSlice (s : State) (u : Nat) : State :=
  if (s.cmUnit u).slice.isSome then (s.modUnit u fun x => { x with slice := none, restart := some s.now }).count (pgCM u) 0x074 1 else s

/-- The version of the Cellarmaster image that slot `k` of component 1 holds. -/
def State.cmImage (s : State) (k : Nat) : Nat := ((mget s.fw.slots (2 + k)).map fun x => x.img.version).getD 0

/-- A running activation of component 1: the slot of the new image (R454). -/
def State.cmActivation (s : State) : Option Activation := s.fw.act.filter fun a => a.begun && a.comp == 1

/-- The unit is to reload the new image as soon as it has given up control. -/
def State.reloadDue (s : State) (u : Nat) : Bool := s.cmActivation.any fun a => (s.cmUnit u).fw != s.cmImage a.slot

/-- The unit reloads the new image: SELFTEST, no valid copy. -/
def State.reloadCm (s : State) (u : Nat) : State :=
  match s.cmActivation with
  | some a => ((s.wr (pgCM u) F.CM_ROLE roleSelftest).wr (pgCM u) F.CM_HEALTH_GOOD_COPIES 0).modUnit u fun x => { x with fw := s.cmImage a.slot, slice := none }
  | none => s

/-- A unit drops its claim, or leaves SYNC or READY after a failed test, for a cause of R387. YIELD and OUTVOTE lead to SYNC and do not count; the
others lead to SELFTEST, and to retirement at the third in 24 hours (R388). -/
def State.drop (s : State) (u cause : Nat) : State :=
  let held := s.claim u != 0
  let planned := cause == 2 || cause == 8
  let s1 := (((s.wr (pgCM u) F.CM_CLAIM 0).wr (pgCM u) F.CM_DROP_CAUSE cause).wr (pgCM u) F.CM_HEALTH_GOOD_COPIES 0).raise (pgCM u) 0
  let s2 := if cause = 4 then s1.count (pgCM u) 0x06C 1 else s1
  let s3 := (s2.modUnit u fun x => { x with diag := 0, slice := none, restart := none, readyMarks := 0 }).wr (pgCM u) F.CM_ROLE
    (if planned then roleSync else roleSelftest)
  let s4 := if planned then (if s3.reloadDue u then s3.reloadCm u else s3) else
    let ds := s.now :: s.recentDrops u
    ((s3.modUnit u fun x => { x with drops := ds }).wr (pgCM u) F.CM_DROPS_24H (min ds.length 15)).count (pgCM u) 0x060 1
  let s5 := if held then s4.abandonSlice (1 - u) else s4
  let alone := s5.claim 0 == 0 && s5.claim 1 == 0
  let s6 := if held && alone then { s5 with cm := { s5.cm with dropClk := some s.now, yieldReq := false, copy := none } } else s5
  -- an announced changeover whose outgoing unit dropped is void; one whose incoming unit failed is cancelled
  let s7 :=
    if planned then s6
    else if held then { s6 with cm := { s6.cm with announced := false, handover := none } }.wr (pgCM u) F.CM_PLANNED 0
    else s6.cancelPlanned (1 - u)
  if !planned && decide (3 ≤ (s7.cmUnit u).drops.length) then s7.cmRetire u else s7

/-! Commands and monitors -/

/-- STAGE_COMMAND: accepted from the unit that is higher in this clock; any other is discarded and counted (R383). What an accepted completion or
switch does stands in the row of the decision that it carries. -/
def execStageCommand (unit : Fin 2) (cmd : StageCmd) (s : State) : Result :=
  .next (if s.higher = some unit.val then
    (match cmd with
      | .plan gs => { s with gate := { s.gate with plan := gs, trimmed := [] } }
      | .completion => s
      | .switcher => s)
  else s.count (pgCM unit.val) 0x078 1)

/-- CLAIM_OUTVOTE (R382). -/
def execClaimOutvote (unit : Fin 2) (s : State) : Result :=
  .next (if s.claim unit.val ≠ 0 ∧ s.higher = some (1 - unit.val) then s.drop unit.val 8 else s)

/-- CM_HEARTBEAT. -/
def execCmHeartbeat (unit : Fin 2) (s : State) : Result :=
  .next (if s.claim unit.val = 0 then s else s.modUnit unit.val fun x => { x with hbClk := s.now })

/-- HB_MISS: `CM.HB_US` without a heartbeat. -/
def execHbMiss (unit : Fin 2) (s : State) : Result :=
  .next (if s.claim unit.val ≠ 0 ∧ (s.cmUnit unit.val).hbClk + s.rd (pgCM unit.val) F.CM_HB_US * clkUs ≤ s.now then s.drop unit.val 4 else s)

/-- DIAG_PASS: the diagnostic pass of the active unit ends (R387). -/
def execDiagPass (unit : Fin 2) (ok sramOk : Bool) (s : State) : Result :=
  .next (let u := unit.val
  if s.claim u = 0 ∨ (s.cmUnit u).diag ≠ 1 then s
  else
    let s1 := ((s.count (pgCM u) 0x05C 1).wr (pgCM u) F.CM_HEALTH_DIAG_OK (boolNat (ok && sramOk))).wr (pgCM u) F.CM_HEALTH_SRAM_OK (boolNat sramOk)
    if ok && sramOk then s1.modUnit u fun x => { x with diag := 2 } else s1.drop u 1)

/-- DIAG_LATE: the pass had not completed at the next mark. -/
def execDiagLate (unit : Fin 2) (s : State) : Result :=
  .next (if s.claim unit.val ≠ 0 ∧ (s.cmUnit unit.val).diag = 3 then s.drop unit.val 3 else s)

/-- CM_HW_DROP: SRAM_PARITY, CLK_WINDOW or LOCKUP. -/
def execCmHwDrop (unit : Fin 2) (cause : Fin 3) (s : State) : Result :=
  .next (if s.claim unit.val = 0 then s
  else
    let s1 := if cause.val = 1 then s.wr (pgCM unit.val) F.CM_HEALTH_CLK_OK 0 else if cause.val = 0 then s.wr (pgCM unit.val) F.CM_HEALTH_SRAM_OK 0 else s
    s1.drop unit.val (5 + cause.val))

/-- CM_RELOAD_DONE (R388). During an activation of component 1 a unit that fails while the other does not run the new image yet reloads the old one, and
the activation fails; one that fails while the new image holds control reloads once more, and is retired at the second failure (R456). -/
def execCmReloadDone (unit : Fin 2) (ok : Bool) (s : State) : Result :=
  .next (let u := unit.val
  if s.role u ≠ roleSelftest then s
  else if ok then
    (((s.wr (pgCM u) F.CM_ROLE roleSync).wr (pgCM u) F.CM_HEALTH_BIST_OK 1).wr (pgCM u) F.CM_HEALTH_CLK_OK 1).wr (pgCM u) F.CM_HEALTH_GOOD_COPIES 0
  else match s.cmActivation with
    | some a =>
      if (s.cmUnit u).fw ≠ s.cmImage a.slot then s.cmRetire u
      else if (s.cmUnit (1 - u)).fw = s.cmImage a.slot ∧ s.role (1 - u) = roleActive then
        (if a.retried then s.cmRetire u else { s with fw := { s.fw with act := some { a with retried := true } } })
      else
        { s.modUnit u (fun x => { x with fw := s.cmImage (1 - a.slot) }) with fw := { s.fw with act := some { a with failed := true } } }
    | none => s.cmRetire u)

/-! The copy and the standby (R385, R386, R392) -/

/-- A standby with two valid copies, a passed diagnostic pass and a passed slice becomes READY. -/
def State.checkReady (s : State) (u : Nat) : State :=
  let pg := pgCM u
  if s.role u = roleSync ∧ 2 ≤ s.rd pg F.CM_HEALTH_GOOD_COPIES ∧ s.on pg F.CM_HEALTH_DIAG_OK = true ∧ s.on pg F.CM_HEALTH_BIST_OK = true then
    (s.wr pg F.CM_ROLE roleReady).raise pg 7
  else s

/-- COPY_RECEIVE: the copy on its way reaches the standby. `valid`: all 96 blocks pass; `passOk`: the standby's own diagnostic pass after it. -/
def execCopyReceive (valid passOk : Bool) (s : State) : Result :=
  .next (match s.cm.copy, s.higher with
  | some (pidx, ho), some act =>
    let u := 1 - act
    let pg := pgCM u
    let s1 := { s with cm := { s.cm with copy := none } }
    if s.role u ≠ roleSync ∧ s.role u ≠ roleReady then s1
    else
      let s2 := s1.modUnit u fun x => { x with deferred := false }
      let s3 :=
        if valid then ((s2.count pg 0x054 1).wr pg F.CM_HEALTH_GOOD_COPIES (min 255 (s2.rd pg F.CM_HEALTH_GOOD_COPIES + 1))).wr pg F.CM_COPY_PIDX pidx
        else (((s2.raise pg 6).count pg 0x058 1).wr pg F.CM_HEALTH_GOOD_COPIES 0).wr pg F.CM_ROLE roleSync
      let s4 := if ho then (if valid then { s3 with cm := { s3.cm with handover := some true } } else s3.cancelPlanned act) else s3
      let s5 := (((s4.count pg 0x05C 1).wr pg F.CM_HEALTH_DIAG_OK (boolNat passOk)).wr pg F.CM_HEALTH_SRAM_OK (boolNat passOk)).wr pg
        F.CM_HEALTH_FW_MATCH (boolNat (s.cm.a.fw == s.cm.b.fw))
      if passOk then s5.checkReady u else s5.drop u 1
  | _, _ => s)

/-- Clocks left to the predicted mark. -/
def State.toMark (s : State) : Nat := s.tb.lastMark + s.periodClk - s.now

/-- CM_SELFTEST_SLICE (R392): a slice of the standby starts (`none`) where 200 µs remain, else it is deferred; or the one in progress ends. -/
def State.cmSlice (s : State) (u : Nat) (result : Option Bool) : State :=
  let x := s.cmUnit u
  if s.role u ≠ roleSync ∧ s.role u ≠ roleReady then s
  else match result, x.slice with
  | none, none =>
    if x.deferred || x.restart.isSome then s
    else if s.toMark < 200 * clkUs then s.setUnit u { x with deferred := true }
    else (s.setUnit u { x with slice := some s.now }).count (pgCM u) 0x070 1
  | some ok, some _ =>
    let s1 := (s.setUnit u { x with slice := none }).wr (pgCM u) F.CM_HEALTH_BIST_OK (boolNat ok)
    if ok then s1.checkReady u else s1.drop u 1
  | _, _ => s

def execCmSelftestSlice (unit : Fin 2) (result : Option Bool) (s : State) : Result := .next (s.cmSlice unit.val result)

/-- STANDBY_CORE_RESTART: 150 µs after the slice was abandoned. -/
def execStandbyCoreRestart (unit : Fin 2) (s : State) : Result :=
  .next (match (s.cmUnit unit.val).restart with
  | some c => if c + 150 * clkUs ≤ s.now then s.modUnit unit.val fun x => { x with restart := none } else s
  | none => s)

/-! Takeover, takeback and yield (R389, R393) -/

/-- The standby that can take control: READY, its core not restarting. -/
def State.standby (s : State) : Option Nat :=
  [0, 1].find? fun u => s.role u == roleReady && (s.cmUnit u).restart.isNone && (s.cmUnit u).slice.isNone

/-- A standby takes control after a drop. -/
def State.takeover (s : State) (u : Nat) : State := ((s.takeClaim u).raise (pgCM u) 1).count (pgCM u) 0x064 1

/-- TAKEOVER_TIMEOUT: no mark within 2 × `TBASE.PERIOD_CLK` of the drop. The groups whose starting edges have passed do not run. -/
def execTakeoverTimeout (plan : List GroupPlan) (s : State) : Result :=
  .next (match s.cm.dropClk, s.standby with
  | some c, some u =>
    if s.now < c + 2 * s.periodClk ∨ c < s.tb.lastMark then s
    else
      let s1 := s.takeover u
      { s1 with gate := { s1.gate with plan := plan.filter fun (g : GroupPlan) => decide (s.rd pgTBASE F.TBASE_SLOT < g.start), trimmed := [] } }
  | _, _ => s)

/-- CM_YIELD: a write of 1 to `CM.YIELD`. -/
def execCmYield (fn : Fin 32) (unit : Fin 2) (s : State) : Result :=
  .next (let u := unit.val
  s.blockAction (pgCM u) fn.val 0x118 fun t =>
    if t.role u = roleActive ∧ t.role (1 - u) = roleReady ∧ t.cm.yieldReq = false ∧ t.cm.announced = false then
      { t with cm := { t.cm with yieldReq := true } }
    else t.raise (pgCM u) 9)

/-- The claim change of a mark, between actions 2 and 3 of R27: a planned changeover whose handover copy is valid, or is cancelled; a takeover. -/
def State.claimChange (s : State) : State :=
  match s.higher with
  | some act =>
    let inc := 1 - act
    match s.cm.announced, s.cm.handover with
    | true, some valid =>
      if valid && s.role inc == roleReady && (s.cmUnit inc).restart.isNone then
        let s1 := (s.wr (pgCM act) F.CM_PLANNED 0).abandonSlice inc
        let s2 := { s1 with cm := { s1.cm with announced := false, handover := none, copy := none } }
        (((s2.takeClaim inc).modUnit inc fun x => { x with restart := none }).raise (pgCM inc) 3).count (pgCM inc) 0x068 1
      else s.cancelPlanned act
    | _, _ => s
  | none => match s.standby with
    | some u => s.takeover u
    | none => s

/-- The announcement at a mark, and the count of A's marks in READY. -/
def State.announce (s : State) : State :=
  let s1 := [0, 1].foldl (fun (t : State) u => t.modUnit u fun x => { x with readyMarks := if s.role u = roleReady then x.readyMarks + 1 else 0 }) s
  match s1.higher with
  | none => { s1 with cm := { s1.cm with yieldReq := false } }
  | some act =>
    let other := 1 - act
    let declare := fun (t : State) => ({ t with cm := { t.cm with announced := true, yieldReq := false } }.raise (pgCM act) 2).wr (pgCM act) F.CM_PLANNED 1
    let forImage := s1.reloadDue act && !s1.reloadDue other
    if s1.cm.announced then s1
    else if forImage && s1.role other == roleReady then declare s1
    else if s1.cm.yieldReq then
      (if s1.role other = roleReady then declare s1 else { s1 with cm := { s1.cm with yieldReq := false } }.raise (pgCM act) 9)
    else if act = 1 ∧ s1.role 0 = roleReady ∧ s1.on (pgCM 0) F.CM_TAKEBACK_EN = true ∧
        s1.rd (pgCM 0) F.CM_TAKEBACK_PERIODS ≤ s1.cm.a.readyMarks then declare s1
    else s1

/-- Action 3 of R27: the unit in control latches its copy image for a standby in SYNC or READY; its diagnostic pass follows action 4. -/
def State.latchCopy (s : State) : State :=
  match s.higher with
  | none => (s.raise (pgCM 0) 5).raise (pgCM 1) 5
  | some act =>
    let other := 1 - act
    let s1 := (s.count (pgCM act) 0x04C 1).modUnit act fun x => { x with diag := if x.diag = 1 then 3 else 1 }
    if s1.role other = roleSync ∨ s1.role other = roleReady then
      let p := s1.rd pgTBASE F.TBASE_PERIOD_IDX
      ({ s1 with cm := { s1.cm with copy := some (p, false) } }.count (pgCM act) 0x050 1).wr (pgCM act) F.CM_COPY_PIDX p
    else s1

/-- The slot-63 edge of the announced period: the handover copy (R393). -/
def State.latchHandover (s : State) : State :=
  match s.cm.announced, s.cm.handover, s.higher with
  | true, none, some act =>
    let p := s.rd pgTBASE F.TBASE_PERIOD_IDX
    ({ s with cm := { s.cm with handover := some false, copy := some (p, true) } }.count (pgCM act) 0x050 1).wr (pgCM act) F.CM_COPY_PIDX p
  | _, _, _ => s

/-- Both units reload: A claims control, B starts in SYNC (R541, R545). Retired units stay so. -/
def State.startCm (s : State) : State :=
  let s1 := { s with cm := { a := { drops := s.cm.a.drops, fw := s.cm.a.fw }, b := { drops := s.cm.b.drops, fw := s.cm.b.fw } } }
  let load := fun (t : State) u =>
    if t.cmRetired u then t
    else (((((t.wr (pgCM u) F.CM_CLAIM 0).wr (pgCM u) F.CM_ROLE roleSync).wr (pgCM u) F.CM_HEALTH_BIST_OK 1).wr (pgCM u) F.CM_HEALTH_CLK_OK 1).wr (pgCM u)
      F.CM_HEALTH_GOOD_COPIES 0).wr (pgCM u) F.CM_PLANNED 0
  let s2 := load (load s1 0) 1
  if !s2.cmRetired 0 then s2.takeClaim 0 else if !s2.cmRetired 1 then s2.takeClaim 1 else s2

end Sys2Proof.Machine
end

