-- ==== Sys2Proof/Machine/LoadStore.lean ====
section
/-! DEFINITION. The load/store engine's instructions (R86–R88, R93, R115–R119, R126, R171–R175). -/

namespace Sys2Proof.Machine

/-- A load of `n` bytes at `xSA` + `IMM`: a bad word ends the run; a failed check reads zeros and marks the step DENIED; the registers
take what `body` gives from the bytes as the kernel reads them. -/
def State.load (s : State) (pg : Nat) (k : Kernel) (w : IW) (n : Nat) (body : (Nat → Nat) → Kernel) : State :=
  let a := k.addr w
  if s.kbad pg k a n then s.storeParity pg k a
  else
    let s1 := if s.kdenied pg k a n then s.denyVat k else s
    s1.setKern pg (some (body fun j => s.kbyte pg k (a + j)))

/-- A store: a partly written bad word ends the run; lines that fail the check are not written and mark the step DENIED. `dk` is
the denied test's extent in bytes from `xSA` + `IMM`. -/
def State.store (s : State) (pg : Nat) (k : Kernel) (w : IW) (n : Nat) (ws : List (Nat × Nat)) : State :=
  let a := k.addr w
  if s.kputBad pg k ws then s.storeParity pg k a
  else
    let s1 := s.kput pg k ws
    if s.kdenied pg k a n then s1.denyVat k else s1

/-- Four bytes as a number. -/
def word4 (b : Nat → Nat) (j : Nat) : Nat := b j + 256 * b (j + 1) + 65536 * b (j + 2) + 16777216 * b (j + 3)

def execLdv (v : VatId) (s : State) : Result :=
  .next (s.unitStep v 0x20 .lse (fun w => [.v w.dst]) fun t pg k w =>
    t.load pg k w 256 fun b => k.vset w.dst (k.active w) fun l => word4 b (4 * l))

def execStv (v : VatId) (s : State) : Result :=
  .next (s.unitStep v 0x21 .lse (fun _ => []) fun t pg k w =>
    t.store pg k w 256 ((lanes.filter (k.active w)).flatMap fun l => leBytes (k.addr w + 4 * l) (k.vr w.sb l) 4))

/-- Bytes that LDVC and STVC reach: the elements and, for MX, two scale bytes (R118). -/
def vecSpan (c : Nat) : Nat := vecBytes c + (if fmtIsMx c then 2 else 0)

/-- LDVC: 64 elements widened to lanes; MX elements under the scale of their block (R117, R118, R126). -/
def execLdvc (v : VatId) (s : State) : Result :=
  .next (s.unitStep v 0x22 .lse (fun w => [.v w.dst]) fun t pg k w =>
    let c := bits w.fmt 0 4
    t.load pg k w (vecSpan c) fun b =>
      k.vset w.dst (k.active w) fun l => widen c (streamElem b (fmtBits c) l) (b (vecBytes c + l / 32)))

/-- The element codes and scale of one block of an MX store: the scale from the active lanes alone, disabled lanes code 0; a block
with no active lane gets scale 0x7F (R126). -/
def mxBlock (c : Nat) (act : Nat → Bool) (val : Nat → FVal) (ls : List Nat) : Nat × List Nat :=
  let live := ls.filter act
  if live.isEmpty then (0x7F, ls.map fun _ => 0)
  else
    let x := mxScale c (live.map val)
    (x, ls.map fun l => if act l then mxElem c x (val l) else 0)

/-- Elements of width `w` packed as a bit stream, as bytes (R115). -/
def packStream (w : Nat) (elems : List Nat) : List Nat :=
  let total := elems.foldr (fun e acc => e % 2 ^ w + 2 ^ w * acc) 0
  (List.range (w * elems.length / 8)).map fun i => total / 256 ^ i % 256

/-- A list of bytes at an address. -/
def bytesAt (a : Nat) (bs : List Nat) : List (Nat × Nat) := bs.zipIdx.map fun e => (a + e.2, e.1)

/-- What STVC writes (R126): whole elements of active lanes, a nibble at a time for 4-bit formats, or all elements and both scales for
an MX format. `old` reads the bytes that stand in the store. -/
def stvcWrites (c : Nat) (act : Nat → Bool) (lane : Nat → Nat) (old : Nat → Nat) (a : Nat) : List (Nat × Nat) :=
  if fmtIsMx c then
    let (x0, e0) := mxBlock c act (fun l => f32 (lane l)) (List.range 32)
    let (x1, e1) := mxBlock c act (fun l => f32 (lane l)) ((List.range 32).map fun i => i + 32)
    bytesAt a (packStream (fmtBits c) (e0 ++ e1)) ++ [(a + vecBytes c, x0), (a + vecBytes c + 1, x1)]
  else if fmtBits c = 4 then
    (List.range 32).filterMap fun i =>
      let lo := if act (2 * i) then narrow c (lane (2 * i)) else bits (old i) 0 4
      let hi := if act (2 * i + 1) then narrow c (lane (2 * i + 1)) else bits (old i) 4 4
      if act (2 * i) || act (2 * i + 1) then some (a + i, lo + 16 * hi) else none
  else (lanes.filter act).flatMap fun l => leBytes (a + fmtBits c / 8 * l) (narrow c (lane l)) (fmtBits c / 8)

def execStvc (v : VatId) (s : State) : Result :=
  .next (s.unitStep v 0x23 .lse (fun _ => []) fun t pg k w =>
    let c := bits w.fmt 0 4
    let a := k.addr w
    t.store pg k w (vecSpan c) (stvcWrites c (k.active w) (k.vr w.sb) (fun j => t.kbyte pg k (a + j)) a))

def execLds (v : VatId) (s : State) : Result :=
  .next (s.unitStep v 0x24 .lse (fun w => [.x w.dst]) fun t pg k w => t.load pg k w 4 fun b => k.xw w.dst (word4 b 0))

/-- STS: the word stored is `xSB` (DEDUCED, assumption log 22). -/
def execSts (v : VatId) (s : State) : Result :=
  .next (s.unitStep v 0x25 .lse (fun _ => []) fun t pg k w => t.store pg k w 4 (leBytes (k.addr w) (k.xr w.sb) 4))

/-- The DMA that an instruction starts. -/
def dmaOf (k : Kernel) (w : IW) (out : Bool) : Dma :=
  { out := out, floorStore := nbit w.fmt 0, vatAddr := k.xr w.dst, ext := k.xPair w.sa, bytes := k.xr w.sb,
    post := if nbit w.imm 12 then some (bits w.imm 0 12) else none }

def execDmain (v : VatId) (s : State) : Result :=
  .next (s.unitStep v 0x26 .lse (fun _ => []) fun t pg k w => t.setKern pg (some { k with dmas := k.dmas ++ [dmaOf k w false] }))

def execDmaout (v : VatId) (s : State) : Result :=
  .next (s.unitStep v 0x27 .lse (fun _ => []) fun t pg k w => t.setKern pg (some { k with dmas := k.dmas ++ [dmaOf k w true] }))

/-- An atomic at the bank: the old word to `xDST`, the new one written; a bad word writes nothing (R171, R172). -/
def State.atomic (s : State) (pg : Nat) (k : Kernel) (w : IW) (f : Nat → Nat) : State :=
  let a := k.addr w
  if s.kbad pg k a 4 then s.storeParity pg k a
  else
    let old := s.kread pg k a 4
    let s1 := s.kput pg k (leBytes a (f old) 4)
    let s2 := if s.kdenied pg k a 4 then s1.denyVat k else s1
    s2.setKern pg (some (k.xw w.dst old))

def execAtadd (v : VatId) (s : State) : Result :=
  .next (s.unitStep v 0x28 .lse (fun w => [.x w.dst]) fun t pg k w =>
    t.atomic pg k w fun old => if nbit w.fmt 0 then f32Add old (k.xr w.sb) else i32Add old (k.xr w.sb))

def execAtswp (v : VatId) (s : State) : Result :=
  .next (s.unitStep v 0x29 .lse (fun w => [.x w.dst]) fun t pg k w => t.atomic pg k w fun _ => k.xr w.sb)

end Sys2Proof.Machine
end

