-- ==== Sys2Proof/Machine/Tun.lean ====
section
/-! DEFINITION. The tun array's instructions: MMA and the accumulator sets (R81–R83, R89, R90, R117–R124, R132–R134, R328). -/

namespace Sys2Proof.Machine

/-! The matrix product -/

/-- The terms of one accumulator element in the order of *K*: A element and B element of each `kk` in a range that the element takes; with DIAG
only the `kk` on the diagonal of its column (R90, R328). -/
def mmaTerms (diag : Bool) (kp col lo n : Nat) : List Nat :=
  ((List.range n).map fun i => lo + i).filter fun kk => !diag || kk % kp == col % 4

/-- An int8 or int4 element: step by step exact sums, saturating; the new value and the saturations (R120). -/
def mmaInt (a b : Nat → Int) (terms : Nat → List Nat) (steps : Nat) (acc0 : Int) : Int × Nat :=
  (List.range steps).foldl (fun (r : Int × Nat) i =>
    let sum := (terms i).foldl (fun t kk => t + a kk * b kk) r.1
    let v := satInt 32 sum
    (v, r.2 + (if v = sum then 0 else 1))) (acc0, 0)

/-- A floating-point element: the products of a step or block exactly, scaled, then one rounding (R121, R122). -/
def mmaFp (a b : Nat → FVal) (terms : Nat → List Nat) (scale : Nat → Option Int) (steps : Nat) (acc0 : Nat) : Nat :=
  (List.range steps).foldl (fun acc i =>
    let sum := (terms i).foldl (fun t kk => fadd t (fmul (a kk) (b kk))) (.fin true 0 0)
    let v := match scale i with
      | none => FVal.nan
      | some e => fscale sum e
    toF32 (fadd v (f32 acc))) acc0

/-- The combined scale of block `i`: a scale byte 0xFF makes the block NaN (R117, R121). -/
def pairScale (xa xb : Nat) : Option Int := if xa = 0xFF ∨ xb = 0xFF then none else some ((xa : Int) + xb - 254)

/-- One accumulator element of an MMA, `byteA` and `byteB` reading the operands: new value and saturations. -/
def mmaElem (ca cb K : Nat) (diag : Bool) (byteA byteB : Nat → Nat) (row col acc0 : Nat) : Nat × Nat :=
  let ea := fun kk => elemVal ca (operandElem byteA ca row kk)
  let eb := fun kk => elemVal cb (operandElem byteB cb col kk)
  let kp := pairK ca cb
  if fmtIsInt ca then
    let ia := fun kk => sext (operandElem byteA ca row kk) (fmtBits ca)
    let ib := fun kk => sext (operandElem byteB cb col kk) (fmtBits cb)
    let (r, n) := mmaInt ia ib (fun i => mmaTerms diag kp col (i * kp) kp) (K / kp) (i32 acc0)
    (ofI32 r, n)
  else if fmtIsMx ca || fmtIsMx cb then
    (mmaFp ea eb (fun i => mmaTerms diag kp col (i * 32) 32)
      (fun i => pairScale (operandScale byteA ca K row i) (operandScale byteB cb K col i)) (K / 32) acc0, 0)
  else
    (mmaFp ea eb (fun i => mmaTerms diag kp col (i * kp) kp) (fun _ => some 0) (K / kp) acc0, 0)

/-- All 32 × 32 elements. -/
def mmaSet (k : Kernel) (w : IW) (byteA byteB : Nat → Nat) : Kernel × Nat :=
  let set := bits w.fmt 0 1
  (List.range 1024).foldl (fun (r : Kernel × Nat) i =>
    let acc0 := if mmaZero w then 0 else k.ar set (i / 32) (i % 32)
    let (x, n) := mmaElem (mmaA w) (mmaB w) (mmaK w) (mmaDiag w) byteA byteB (i / 32) (i % 32) acc0
    (r.1.aw set (i / 32) (i % 32) x, r.2 + n)) (k.setInt set (fmtIsInt (mmaA w)), 0)

/-! Residue detections (R107, R134) -/

/-- The physical column, over the vat's four quadrants of 17, of tun number `8 i + j` (R83, R106). -/
def State.tunColumn (s : State) (pg t : Nat) : Nat :=
  let q := t / 8 / 2
  let c := t / 8 % 2 * 8 + t % 8
  let failed := s.rd pg (match q with
    | 0 => F.VAT_TUN_MAP_Q0
    | 1 => F.VAT_TUN_MAP_Q1
    | 2 => F.VAT_TUN_MAP_Q2
    | _ => F.VAT_TUN_MAP_Q3)
  17 * q + (if c < failed then c else c + 1)

/-- A residue or parity mismatch: RESIDUE, the vat's counter 0x06C, and the tun column when a tun found it. -/
def State.residue (s : State) (pg : Nat) (k : Kernel) (tun : Option Nat) : State :=
  let s1 := s.detect pg k 4 0x06C
  match tun with
  | some t => s1.noteDet pg (s.tunColumn pg t)
  | none => s1

/-- MMA. `err` names a tun whose residue check fails; nothing is then written (R132, R134). -/
def execMma (v : VatId) (err : Option (Fin 64)) (s : State) : Result :=
  .next (s.unitStep v 0x30 .tun (fun w => [.acc (bits w.fmt 0 1)]) fun t pg k w =>
    let aA := k.xr w.sa
    let aB := k.xr w.sb
    let nA := operandBytes (mmaA w) (mmaK w)
    let nB := operandBytes (mmaB w) (mmaK w)
    if t.kbad pg k aA nA then t.storeParity pg k aA
    else if t.kbad pg k aB nB then t.storeParity pg k aB
    else match err with
      | some e => t.residue pg k (some e.val)
      | none =>
        let t1 := if t.kdenied pg k aA nA || t.kdenied pg k aB nB then t.denyVat k else t
        let (k1, sat) := mmaSet k w (fun j => t.kbyte pg k (aA + j)) (fun j => t.kbyte pg k (aB + j))
        (t1.setKern pg (some k1)).count (pgCNT k.ctx) F.CNT_NUM_SAT sat)

/-! The accumulator sets (R123, R124) -/

def execAccz (v : VatId) (s : State) : Result :=
  .next (s.regStep v 0x31 .tun (fun w => [.acc (bits w.fmt 0 1)]) fun k w =>
    let set := bits w.fmt 0 1
    { (k.setInt set (nbit w.fmt 1)) with acc := mfilterOut (fun i => i / 1024 == set) k.acc })

/-- The value that ACCST forms of an accumulator element, one rounding (R124 stage 1). -/
def accValue (int : Bool) (acc scale : Nat) : Nat :=
  f32Mul (if int then toF32 (fOfInt (i32 acc)) else acc) scale

/-- One accumulator element in an output format that is not MX, as the code stored (R124 stage 2). -/
def accCode (int : Bool) (c acc scale : Nat) : Nat :=
  if c = 0x11 ∧ int = true ∧ scale = 0x3F800000 then acc
  else
    let v := accValue int acc scale
    if c = 0x10 then v
    else if c = 0x11 then ofI32 (toIntSat 32 false (f32 v))
    else match fmtFloat c with
      | some f => f.pack (f32 v)
      | none => (toIntSat (fmtBits c) false (f32 v) % (2 ^ fmtBits c : Int)).toNat

/-- Output bits of an element of ACCST. -/
def accBits (c : Nat) : Nat := if c = 0x10 ∨ c = 0x11 then 32 else fmtBits c

/-- The bytes of an ACCST: the tile row by row, then for MX one scale byte a row (R118, R119). -/
def accBytes (k : Kernel) (set c scale : Nat) : List Nat :=
  if fmtIsMx c then
    let rows := (List.range 32).map fun r =>
      mxBlock c (fun _ => true) (fun col => f32 (accValue (k.isInt set) (k.ar set r col) scale)) (List.range 32)
    rows.flatMap (fun r => packStream (fmtBits c) r.2) ++ rows.map fun r => r.1
  else
    packStream (accBits c) ((List.range 1024).map fun i => accCode (k.isInt set) c (k.ar set (i / 32) (i % 32)) scale)

/-- ACCST. `err`: the accumulator set reads with a parity error (R134). -/
def execAccst (v : VatId) (err : Bool) (s : State) : Result :=
  .next (s.unitStep v 0x32 .tun (fun w => [.acc (bits w.fmt 5 1)]) fun t pg k w =>
    if err then t.residue pg k none
    else
      let bs := accBytes k (bits w.fmt 5 1) (bits w.fmt 0 5) (k.xr w.sb)
      t.store pg k w bs.length (bytesAt (k.addr w) bs))

/-- ACCV: rows 2 r and 2 r + 1 to the 64 lanes, without conversion. -/
def execAccv (v : VatId) (s : State) : Result :=
  .next (s.regStep v 0x33 .tun (fun w => [.v w.dst, .acc (bits w.fmt 0 1)]) fun k w =>
    k.vset w.dst (k.active w) fun l => k.ar (bits w.fmt 0 1) (2 * bits w.imm 0 4 + l / 32) (l % 32))

/-- ACCLD: 4 KiB row by row; `FMT`[1] gives the kind. -/
def execAccld (v : VatId) (s : State) : Result :=
  .next (s.unitStep v 0x34 .tun (fun w => [.acc (bits w.fmt 0 1)]) fun t pg k w =>
    t.load pg k w 4096 fun b =>
      (List.range 1024).foldl (fun r i => r.aw (bits w.fmt 0 1) (i / 32) (i % 32) (word4 b (4 * i)))
        (k.setInt (bits w.fmt 0 1) (nbit w.fmt 1)))

end Sys2Proof.Machine
end

