-- ==== Sys2Proof/Machine/Vector.lean ====
section
/-! DEFINITION. The vector unit's instructions (R86, R87, R125, R127–R132). -/

namespace Sys2Proof.Machine

/-- int32 lanes when `FMT`[0] = 1 (R87). -/
def IW.int (w : IW) : Bool := nbit w.fmt 0

/-- A lane-wise operation: active lanes of `vDST` take f(`vSA`, `vSB`) of the lane. -/
def State.lanewise (s : State) (v : VatId) (op : Nat) (f : IW → Nat → Nat → Nat) : State :=
  s.regStep v op .vec (fun w => [.v w.dst]) fun k w => k.vset w.dst (k.active w) fun l => f w (k.vr w.sa l) (k.vr w.sb l)

/-- A lane-wise operation under the residue check: `err` says that the check fails (R132, R134). -/
def State.checked (s : State) (v : VatId) (op : Nat) (err : Bool) (f : Kernel → IW → Nat → Nat) : State :=
  s.unitStep v op .vec (fun w => [.v w.dst]) fun t pg k w =>
    if err then t.residue pg k none else t.setKern pg (some (k.vset w.dst (k.active w) fun l => f k w l))

def execVadd (v : VatId) (err : Bool) (s : State) : Result :=
  .next (s.checked v 0x40 err fun k w l => (if w.int then i32Add else f32Add) (k.vr w.sa l) (k.vr w.sb l))

def execVsub (v : VatId) (err : Bool) (s : State) : Result :=
  .next (s.checked v 0x41 err fun k w l => (if w.int then i32Sub else f32Sub) (k.vr w.sa l) (k.vr w.sb l))

def execVmul (v : VatId) (err : Bool) (s : State) : Result :=
  .next (s.checked v 0x42 err fun k w l => (if w.int then i32Mul else f32Mul) (k.vr w.sa l) (k.vr w.sb l))

/-- VFMA: `vDST` = `vSA` × `vSB` + `vDST`, rounded once. -/
def execVfma (v : VatId) (err : Bool) (s : State) : Result :=
  .next (s.checked v 0x43 err fun k w l =>
    if w.int then i32Add (i32Mul (k.vr w.sa l) (k.vr w.sb l)) (k.vr w.dst l)
    else f32Fma (k.vr w.sa l) (k.vr w.sb l) (k.vr w.dst l))

def execVmin (v : VatId) (s : State) : Result :=
  .next (s.lanewise v 0x44 fun w => (if w.int then i32MinMax false else f32MinMax false))

def execVmax (v : VatId) (s : State) : Result :=
  .next (s.lanewise v 0x45 fun w => (if w.int then i32MinMax true else f32MinMax true))

/-- VABS and VNEG of −2^31 give −2^31; a NaN gives the canonical NaN (R127). -/
def execVabs (v : VatId) (s : State) : Result :=
  .next (s.lanewise v 0x46 fun w a _ => if w.int then (if i32 a < 0 then i32Sub 0 a else a) else toF32 (fabs (f32 a)))

def execVneg (v : VatId) (s : State) : Result :=
  .next (s.lanewise v 0x47 fun w a _ => if w.int then i32Sub 0 a else toF32 (fneg (f32 a)))

def execVand (v : VatId) (s : State) : Result := .next (s.lanewise v 0x48 fun _ a b => a &&& b)
def execVor (v : VatId) (s : State) : Result := .next (s.lanewise v 0x49 fun _ a b => a ||| b)
def execVxor (v : VatId) (s : State) : Result := .next (s.lanewise v 0x4A fun _ a b => a ^^^ b)

/-- Vector shifts take the low five bits of the amount (DEDUCED, assumption log 23). -/
def execVshl (v : VatId) (s : State) : Result := .next (s.lanewise v 0x4B fun _ a b => a * 2 ^ (b % 32))

/-- VSHR: arithmetic when `FMT`[1] = 1. -/
def execVshr (v : VatId) (s : State) : Result :=
  .next (s.lanewise v 0x4C fun w a b => if nbit w.fmt 1 then ofI32 (i32 a / 2 ^ (b % 32)) else a / 2 ^ (b % 32))

/-- A predicate value from one bit a lane. -/
def packPred (f : Nat → Bool) : Nat := lanes.foldl (fun a l => if f l then setBit a l else a) 0

/-- VCMP writes 0 into disabled lanes (R87). -/
def execVcmp (v : VatId) (s : State) : Result :=
  .next (s.regStep v 0x4D .vec (fun w => [.p (w.dst % 8)]) fun k w =>
    k.pw w.dst (packPred fun l => k.active w l &&
      (if w.int then cmpI32 (bits w.fmt 1 3) (k.vr w.sa l) (k.vr w.sb l) else cmpF32 (bits w.fmt 1 3) (k.vr w.sa l) (k.vr w.sb l))))

/-- VSEL: the predicate selects and disables nothing (R87). -/
def execVsel (v : VatId) (s : State) : Result :=
  .next (s.regStep v 0x4E .vec (fun w => [.v w.dst]) fun k w =>
    k.vset w.dst (fun _ => true) fun l => if k.active w l then k.vr w.sa l else k.vr w.sb l)

def execVbcast (v : VatId) (s : State) : Result :=
  .next (s.regStep v 0x4F .vec (fun w => [.v w.dst]) fun k w => k.vset w.dst (k.active w) fun _ => k.xr w.sa)

/-- VCVT by `FMT`[1:0] (R86, R125). -/
def execVcvt (v : VatId) (s : State) : Result :=
  .next (s.lanewise v 0x50 fun w a _ =>
    match bits w.fmt 0 2 with
    | 0 => ofI32 (toIntSat 32 false (f32 a))
    | 1 => ofI32 (toIntSat 32 true (f32 a))
    | 2 => toF32 (fOfInt (i32 a))
    | _ => fBf16.pack (f32 a) * 65536)

/-- The function operations work on fp32 lanes (R130). -/
def execVexp2 (v : VatId) (s : State) : Result := .next (s.lanewise v 0x51 fun _ a _ => vfn .exp2 a)
def execVlog2 (v : VatId) (s : State) : Result := .next (s.lanewise v 0x52 fun _ a _ => vfn .log2 a)
def execVrcp (v : VatId) (s : State) : Result := .next (s.lanewise v 0x53 fun _ a _ => vfn .rcp a)
def execVrsqrt (v : VatId) (s : State) : Result := .next (s.lanewise v 0x54 fun _ a _ => vfn .rsqrt a)
def execVtanh (v : VatId) (s : State) : Result := .next (s.lanewise v 0x55 fun _ a _ => vfn .tanh a)
def execVsigm (v : VatId) (s : State) : Result := .next (s.lanewise v 0x56 fun _ a _ => vfn .sigm a)
def execVerf (v : VatId) (s : State) : Result := .next (s.lanewise v 0x57 fun _ a _ => vfn .erf a)

/-! Reductions and lane movement (R128, R129) -/

/-- One level of the pairwise tree: adjacent results added. -/
def pairSum (add : Nat → Nat → Nat) : List Nat → List Nat
  | a :: b :: rest => add a b :: pairSum add rest
  | l => l

/-- A reduction of the active lanes to `xDST`. -/
def State.reduce (s : State) (v : VatId) (op : Nat) (f : Kernel → IW → Nat) : State :=
  s.regStep v op .vec (fun w => [.x w.dst]) fun k w => k.xw w.dst (f k w)

/-- The value a disabled lane enters a sum as: −0, or 0 in int32 mode. -/
def sumNeutral (w : IW) : Nat := if w.int then 0 else 0x80000000

/-- VREDSUM: a tree of six levels. -/
def redSum (k : Kernel) (w : IW) : Nat :=
  let leaf := lanes.map fun l => if k.active w l then k.vr w.sa l else sumNeutral w
  ((List.range 6).foldl (fun xs _ => pairSum (if w.int then i32Add else f32Add) xs) leaf).headD 0

def execVredsum (v : VatId) (s : State) : Result := .next (s.reduce v 0x58 redSum)

/-- The values of the active lanes. -/
def Kernel.activeVals (k : Kernel) (w : IW) : List Nat := (lanes.filter (k.active w)).map fun l => k.vr w.sa l

/-- VREDMAX and VREDMIN: the neutral of R129 with no active lane. -/
def redMax (k : Kernel) (w : IW) : Nat :=
  (k.activeVals w).foldl (if w.int then i32MinMax true else f32MinMax true) (if w.int then 0x80000000 else 0xFF800000)

def redMin (k : Kernel) (w : IW) : Nat :=
  (k.activeVals w).foldl (if w.int then i32MinMax false else f32MinMax false) (if w.int then 0x7FFFFFFF else 0x7F800000)

def execVredmax (v : VatId) (s : State) : Result := .next (s.reduce v 0x59 redMax)
def execVredmin (v : VatId) (s : State) : Result := .next (s.reduce v 0x5A redMin)

/-- The lowest active lane that no other active lane ranks above; 0xFFFF_FFFF with none. -/
def argMax (k : Kernel) (w : IW) : Nat :=
  let ls := lanes.filter (k.active w)
  match ls.find? fun l => ls.all fun m => !rankAbove w.int (k.vr w.sa m) (k.vr w.sa l) with
  | some l => l
  | none => 0xFFFFFFFF

def execVargmax (v : VatId) (s : State) : Result := .next (s.reduce v 0x5B argMax)

def execVperm (v : VatId) (s : State) : Result :=
  .next (s.regStep v 0x5C .vec (fun w => [.v w.dst]) fun k w =>
    k.vset w.dst (k.active w) fun l => k.vr w.sa (k.vr w.sb l % 64))

/-- VROT: lane l + n takes lane l (DEDUCED: "up" is towards higher lanes, assumption log 23). -/
def execVrot (v : VatId) (s : State) : Result :=
  .next (s.regStep v 0x5D .vec (fun w => [.v w.dst]) fun k w =>
    k.vset w.dst (k.active w) fun l => k.vr w.sa ((l + 64 - k.xr w.sb % 64) % 64))

/-- One stage of VSCAN. -/
def scanStage (add : Nat → Nat → Nat) (xs : List Nat) (d : Nat) : List Nat :=
  (List.range 64).map fun l => if d ≤ l then add (xs.getD l 0) (xs.getD (l - d) 0) else xs.getD l 0

def scanLanes (k : Kernel) (w : IW) : List Nat :=
  let leaf := lanes.map fun l => if k.active w l then k.vr w.sa l else sumNeutral w
  (List.range 6).foldl (fun xs st => scanStage (if w.int then i32Add else f32Add) xs (2 ^ st)) leaf

def execVscan (v : VatId) (s : State) : Result :=
  .next (s.regStep v 0x5E .vec (fun w => [.v w.dst]) fun k w =>
    let r := scanLanes k w
    k.vset w.dst (k.active w) fun l => r.getD l 0)

/-- Does candidate `a` (value, index) come before `b` in VTOPK's list? Ties keep the lower index. -/
def topBefore (int : Bool) (a b : Nat × Nat) : Bool :=
  rankAbove int a.1 b.1 || (!rankAbove int b.1 a.1 && decide (a.2 < b.2))

/-- Insert into a list sorted by `topBefore`. -/
def topInsert (int : Bool) (x : Nat × Nat) : List (Nat × Nat) → List (Nat × Nat)
  | [] => [x]
  | y :: ys => if topBefore int x y then x :: y :: ys else y :: topInsert int x ys

/-- VTOPK: the sorted list in `vDST` and `vDST` + 1 merged with the active lanes of `vSA`, whose indices are `xSB` + lane. -/
def topMerge (k : Kernel) (w : IW) : List (Nat × Nat) :=
  let n := bits w.imm 0 7
  let held := (List.range n).map fun l => (k.vr w.dst l, k.vr (w.dst + 1) l)
  let new := (lanes.filter (k.active w)).map fun l => (k.vr w.sa l, (k.xr w.sb + l) % 2 ^ 32)
  (new.foldl (fun xs x => topInsert w.int x xs) held).take n

def execVtopk (v : VatId) (s : State) : Result :=
  .next (s.regStep v 0x5F .vec (fun w => [.v w.dst, .v (w.dst + 1)]) fun k w =>
    (topMerge k w).zipIdx.foldl (fun r e => (r.vw w.dst e.2 e.1.1).vw (w.dst + 1) e.2 e.1.2) k)

/-- The exact fp32 r × 2^−24. -/
def randF32 (r : Nat) : Nat := toF32 (.fin false (r % 2 ^ 24) (-24))

/-- VRAND: a draw from the context's DRBG for each active lane (R131). -/
def execVrand (v : VatId) (s : State) : Result :=
  .next (s.unitStep v 0x60 .vec (fun w => [.v w.dst]) fun t pg k w =>
    let ls := lanes.filter (k.active w)
    let n0 := (mget t.drbg k.ctx).getD (0, 0)
    let k1 := ls.zipIdx.foldl (fun r e => r.vw w.dst e.1 (randF32 (Config.drbg k.ctx n0.1 (n0.2 + e.2)))) k
    { (t.setKern pg (some k1)) with drbg := mput t.drbg k.ctx (n0.1, n0.2 + ls.length) })

def execVcntp (v : VatId) (s : State) : Result := .next (s.reduce v 0x61 fun k w => popcount (k.pr w.sa) 64)

end Sys2Proof.Machine
end

