-- ==== Sys2Proof/Machine/Attention.lean ====
section
/-! DEFINITION. The arithmetic of the attention engine: the online softmax, the combine of partials, visibility, candidate trees, the lookup
drafter, sampling and the acceptance walk (R225–R243, R305). All values are fp32 codes. -/

namespace Sys2Proof.Machine

/-! Softmax partials (R226–R229, R243) -/

abbrev f32NegInf : Nat := 0xFF800000
abbrev f32NaN : Nat := 0x7FC00000

/-- a / b, correctly rounded. -/
def f32Div (a b : Nat) : Nat :=
  match f32 a, f32 b with
  | .nan, _ => f32NaN
  | _, .nan => f32NaN
  | .inf _, .inf _ => f32NaN
  | .inf x, .fin n _ _ => toF32 (.inf (x != n))
  | .fin n _ _, .inf y => toF32 (.fin (n != y) 0 0)
  | .fin na ma ea, .fin nb mb eb =>
    if mb = 0 then (if ma = 0 then f32NaN else toF32 (.inf (na != nb))) else toF32 (divVal (na != nb) ma ea mb eb)

def f32IsNan (a : Nat) : Bool := isNan (f32 a)

/-- An output row and its log-sum-exp. -/
abbrev Partial := List Nat × Nat

/-- R243: two partials of one row and head. -/
def combine (x y : Partial) : Partial :=
  if f32IsNan x.2 || f32IsNan y.2 then (x.1.map fun _ => f32NaN, f32NaN)
  else if x.2 = f32NegInf then y
  else if y.2 = f32NegInf then x
  else
    let m := f32MinMax true x.2 y.2
    let a := vfn .exp2 (f32Sub x.2 m)
    let b := vfn .exp2 (f32Sub y.2 m)
    let S := f32Add a b
    (x.1.zipWith (fun o1 o2 => f32Div (f32Add (f32Mul a o1) (f32Mul b o2)) S) y.1, f32Add m (vfn .log2 S))

/-- A key of a tile as one row meets it: its score, −infinity where the row does not see it, and its value row in `KV_FMT` codes. -/
abbrev Seen := Nat × List Nat

/-- The state of the online softmax: m, l, o, bad (R226). -/
structure Soft where
  m : Nat := f32NegInf
  l : Nat := 0
  o : List Nat
  bad : Bool := false
  deriving DecidableEq, Repr

/-- The tree sum of at most 64 terms (R129). -/
def treeSum (xs : List Nat) : Nat :=
  ((List.range 6).foldl (fun ys _ => pairSum f32Add ys) (xs ++ List.replicate (64 - xs.length) 0x80000000)).headD 0

/-- One tile of R226. `pf` is the value-product format of the weights, `vf` that of the values. -/
def softTile (d pf vf : Nat) (s : Soft) (keys : List Seen) : Soft :=
  let bad := s.bad || keys.any fun k => f32IsNan k.1 || k.1 == 0x7F800000
  let t := keys.foldl (fun a k => f32MinMax true a k.1) s.m
  if t = f32NegInf then { s with bad := bad }
  else
    let a := if s.m = f32NegInf then 0 else vfn .exp2 (f32Sub s.m t)
    let codes := keys.map fun k => if k.1 = f32NegInf then 0 else narrow pf (vfn .exp2 (f32Sub k.1 t))
    let p := codes.map fun c => widen pf c 127
    let pv := fun i => mmaFp (fun kk => elemVal pf (codes.getD kk 0)) (fun kk => elemVal vf ((keys.getD kk (0, [])).2.getD i 0))
      (fun st => mmaTerms false 4 0 (4 * st) 4) (fun _ => some 0) 16 (f32Mul a (s.o.getD i 0))
    { m := t, l := f32Add (f32Mul a s.l) (treeSum p), o := (List.range d).map pv, bad := bad }

/-- R226–R228: a row over its tiles; an empty row gives zeros and the empty sentinel. -/
def softRow (d pf vf : Nat) (tiles : List (List Seen)) : Partial :=
  let r := tiles.foldl (softTile d pf vf) { o := List.replicate d 0 }
  if r.bad then (List.replicate d f32NaN, f32NaN)
  else if r.m = f32NegInf then (List.replicate d 0, f32NegInf)
  else (r.o.map fun x => f32Div x r.l, f32Add r.m (vfn .log2 r.l))

/-! Candidate trees (R234, R235) -/

def le32At (b : List Nat) (i : Nat) : Nat := word4 (fun j => b.getD j 0) i

/-- Candidate `i` (0-based) of a descriptor: TOKEN, PARENT, Q. -/
def candAt (b : List Nat) (i : Nat) : Nat × Nat × Nat := (le32At b (0x40 + 12 * i), b.getD (0x44 + 12 * i) 0, le32At b (0x48 + 12 * i))

/-- The parent of node `n` (1-based nodes; node 0 is the root). -/
def nodeParent (tree : List (Nat × Nat × Nat)) (n : Nat) : Nat := (tree.getD (n - 1) (0, 0, 0)).2.1

/-- The parent links from a node to the root, at most `fuel`. -/
def nodeDepth (tree : List (Nat × Nat × Nat)) : Nat → Nat → Nat
  | 0, _ => 0
  | fuel + 1, n => if n = 0 then 0 else 1 + nodeDepth tree fuel (nodeParent tree n)

/-- The nodes that a node's query sees: itself and its ancestors (R231). -/
def nodeSees (tree : List (Nat × Nat × Nat)) : Nat → Nat → Nat → Bool
  | 0, q, k => q == k
  | fuel + 1, q, k => q == k || (q != 0 && nodeSees tree fuel (nodeParent tree q) k)

/-- The candidates of a descriptor's 1,024 bytes, when N, the parents and the depths are legal (R235). -/
def candTree (b : List Nat) : Option (List (Nat × Nat × Nat)) :=
  let n := le32At b 0
  if 64 < n % 256 ∨ 64 < n then none
  else
    let t := (List.range n).map (candAt b)
    if (List.range n).all fun i => decide ((candAt b i).2.1 < i + 1) && decide (nodeDepth t 65 (i + 1) ≤ 16) then some t else none

/-! Visibility (R230–R232) -/

/-- What decides whether a query token sees a key: the layer's window, the mask mode, the position of query and key, the nodes of a decode
step's query and of a step key, and the explicit bit of the pair. -/
def visible (window mode : Nat) (tree : List (Nat × Nat × Nat)) (decode : Bool) (qpos qnode kpos : Nat) (knode : Option Nat)
    (explicit : Bool) : Bool :=
  let structural := match knode with
    | none => true
    | some n => if decode then nodeSees tree 17 qnode n else decide (kpos ≤ qpos)
  (window == 0 || decide (qpos < kpos + window)) &&
    (if mode = 2 then explicit else structural && (mode != 1 || explicit))

/-! The lookup drafter (R237) -/

/-- The ends `e` at which the last three tokens of the log stand earlier, most recent first. -/
def draftMatches (log : List Nat) (window : Nat) : List Nat :=
  let L := log.length - 1
  let at3 := fun e => [log.getD (e - 2) 0, log.getD (e - 1) 0, log.getD e 0]
  ((List.range L).reverse.filter fun e => decide (2 ≤ e) && decide (L ≤ e + window) && at3 e == at3 L)

/-- A branch as a chain hanging from the root, its nodes numbered from `next`. -/
def chainOf (next : Nat) (tokens : List Nat) : List (Nat × Nat × Nat) :=
  tokens.zipIdx.map fun e => (e.1, if e.2 = 0 then 0 else next + e.2 - 1, 0)

/-- R237 steps 1–5: the candidates of a log. -/
def draftCands (log : List Nat) (window depth branches : Nat) : List (Nat × Nat × Nat) :=
  if log.length < 4 then []
  else
    ((draftMatches log window).foldl (fun (r : List (Nat × Nat × Nat) × List Nat) e =>
      let toks := (log.drop (e + 1)).take depth
      match toks with
      | [] => r
      | t :: _ => if branches ≤ r.2.length ∨ r.2.contains t = true then r
        else (r.1 ++ chainOf (r.1.length + 1) toks, r.2 ++ [t])) ([], [])).1

/-! Sampling (R305) -/

/-- A request's sampling settings, from the parameter block (R293); `none` for a block that did not translate: greedy, no stop tokens. -/
structure Params where
  temp : Nat
  topP : Nat
  topK : Nat
  vocab : Nat
  stops : List Nat
  deriving DecidableEq, Repr

def paramsOf (b : List Nat) : Option Params :=
  if b.isEmpty then none
  else some { temp := le32At b 0, topP := le32At b 4, topK := min 64 (b.getD 8 0 % 128), vocab := le32At b 12,
              stops := ((List.range 8).map fun i => le32At b (0x10 + 4 * i)).filter fun t => t != 0xFFFFFFFF }

/-- Positive and finite. -/
def f32PosFinite (a : Nat) : Bool :=
  match f32 a with
  | .fin false m _ => m != 0
  | _ => false

/-- The token of highest logit, the lowest index on a tie (R128). -/
def argMaxTok (logits : List Nat) : Nat :=
  (logits.zipIdx.foldl (fun (b : Option (Nat × Nat)) e => match b with
    | none => some e
    | some x => if rankAbove false e.1 x.1 then some e else some x) none).elim 0 fun e => e.2

/-- Running sums in set order: VSCAN over tiles of 64, each tile on the sum of those before (DEDUCED, assumption log 30). -/
def runSums (fuel base : Nat) (xs : List Nat) : List Nat :=
  match fuel with
  | 0 => []
  | n + 1 =>
    if xs.isEmpty then []
    else
      let tile := xs.take 64
      let sc := ((List.range 6).foldl (fun ys st => scanStage f32Add ys (2 ^ st))
        (tile ++ List.replicate (64 - tile.length) 0x80000000)).take tile.length
      let out := sc.map fun x => f32Add base x
      out ++ runSums n (out.getLastD base) (xs.drop 64)

def f32Le (a b : Nat) : Bool := cmpF32 3 a b

/-- The set of tokens and their weights p, in set order (R305). -/
def sampleSet (p : Params) (logits : List Nat) : List (Nat × Nat) :=
  let ls := logits.take p.vocab
  let z := ls.zipIdx.map fun e => (f32Mul (f32Mul e.1 (vfn .rcp p.temp)) 0x3FB8AA3B, e.2)
  let pOn := f32PosFinite p.topP && cmpF32 2 p.topP 0x3F800000
  let top := fun n => (z.foldl (fun xs x => (topInsert false x xs).take n) [])
  let set := if 0 < p.topK then top p.topK else if pOn then top 64 else z
  let mx := set.foldl (fun a e => f32MinMax true a e.1) f32NegInf
  let ps := set.map fun e => (vfn .exp2 (f32Sub e.1 mx), e.2)
  if pOn then
    let sums := runSums (ps.length + 1) 0 (ps.map fun e => e.1)
    let need := f32Mul p.topP (sums.getLastD 0)
    ps.take ((sums.takeWhile fun x => !f32Le need x).length + 1)
  else ps

/-- The first token in set order whose running sum reaches u × the sum, or the last of the set. -/
def pick (ps : List (Nat × Nat)) (u : Nat) : Nat :=
  let sums := runSums (ps.length + 1) 0 (ps.map fun e => e.1)
  let need := f32Mul u (sums.getLastD 0)
  match (ps.zip sums).find? fun e => f32Le need e.2 with
  | some e => e.1.2
  | none => (ps.getLastD (0, 0)).2

/-- Does the request sample (TEMP positive and finite)? -/
def samples (p : Option Params) : Bool := p.any fun x => f32PosFinite x.temp

/-- The distribution at a node for probabilistic acceptance, summing to 1 (R305; DEDUCED, assumption log 30). -/
def nodeDist (p : Option Params) (logits : List Nat) : List (Nat × Nat) :=
  match p with
  | some x =>
    if f32PosFinite x.temp then
      let ps := sampleSet x logits
      let sum := (runSums (ps.length + 1) 0 (ps.map fun e => e.1)).getLastD 0
      ps.map fun e => (f32Div e.1 sum, e.2)
    else [(0x3F800000, argMaxTok logits)]
  | none => [(0x3F800000, argMaxTok logits)]

/-! The acceptance walk (R239, R240, R242) -/

/-- What a walk yields: the accepted nodes in path order, the tokens emitted, the draws taken. -/
structure Walk where
  nodes : List Nat := []
  tokens : List Nat := []
  draws : Nat := 0
  deriving DecidableEq, Repr

def childrenOf (tree : List (Nat × Nat × Nat)) (node : Nat) : List Nat :=
  ((List.range tree.length).map fun i => i + 1).filter fun n => nodeParent tree n == node

/-- One node's children examined under probabilistic acceptance: the accepted child, the distribution left, the draws taken. -/
def examine (draw : Nat → Nat) (tree : List (Nat × Nat × Nat)) : List Nat → List (Nat × Nat) → Nat → Option Nat × List (Nat × Nat) × Nat
  | [], p, k => (none, p, k)
  | c :: cs, p, k =>
    let (tok, _, q0) := tree.getD (c - 1) (0, 0, 0)
    let u := draw k
    let q := if f32PosFinite q0 && cmpF32 3 q0 0x3F800000 then q0 else 0x3F800000
    let w := ((p.find? fun e => e.2 == tok).map fun e => e.1).getD 0
    if cmpF32 2 (f32Mul u q) w then (some c, p, k + 1)
    else
      let p1 := p.map fun e => if e.2 = tok then (0, e.2) else e
      let sum := (runSums (p1.length + 1) 0 (p1.map fun e => e.1)).getLastD 0
      examine draw tree cs (if sum % 2 ^ 31 = 0 then p1 else p1.map fun e => (f32Div e.1 sum, e.2)) (k + 1)

/-- The walk from `node` at depth `17 - fuel`. `room` is how many tokens the generated-length limit still allows. -/
def walkFrom (prob : Bool) (par : Option Params) (tree : List (Nat × Nat × Nat)) (logits : Nat → List Nat) (draw : Nat → Nat) (room : Nat) :
    Nat → Nat → Walk → Walk
  | 0, node, w => bonus node (nodeDist par (logits node)) w
  | fuel + 1, node, w =>
    if prob then
      let (hit, p, k) := examine draw tree (childrenOf tree node) (nodeDist par (logits node)) w.draws
      match hit with
      | some c => accept fuel c { w with draws := k }
      | none => bonus node p { w with draws := k }
    else
      let best := argMaxTok (logits node)
      match (childrenOf tree node).find? fun c => (tree.getD (c - 1) (0, 0, 0)).1 == best with
      | some c => accept fuel c w
      | none => { w with tokens := w.tokens ++ [best] }
where
  /-- The bonus token, by one draw when the walk is probabilistic. -/
  bonus (node : Nat) (p : List (Nat × Nat)) (w : Walk) : Walk :=
    if room ≤ w.tokens.length then w
    else if prob then
      let sum := (runSums (p.length + 1) 0 (p.map fun e => e.1)).getLastD 0
      let tok := if sum % 2 ^ 31 = 0 then argMaxTok (logits node) else pick p (draw w.draws)
      { w with tokens := w.tokens ++ [tok], draws := w.draws + 1 }
    else { w with tokens := w.tokens ++ [argMaxTok (logits node)] }
  /-- A child is accepted: its token is emitted, and the early ends of R242 are tested. -/
  accept (fuel c : Nat) (w : Walk) : Walk :=
    let tok := (tree.getD (c - 1) (0, 0, 0)).1
    let w1 := { w with nodes := w.nodes ++ [c], tokens := w.tokens ++ [tok] }
    if (par.any fun x => x.stops.contains tok) || decide (room ≤ w1.tokens.length) then w1
    else walkFrom prob par tree logits draw room fuel c w1

/-- The walk of a decode step. A greedy walk of a request that samples draws its token by R305 when the tree is empty or it accepts greedily:
greedy acceptance draws nothing (R239). -/
def acceptWalk (prob : Bool) (par : Option Params) (tree : List (Nat × Nat × Nat)) (logits : Nat → List Nat) (draw : Nat → Nat)
    (room : Nat) : Walk := walkFrom prob par tree logits draw room 16 0 {}

/-- The token a finished prompt samples (R305): one draw when it samples. -/
def sampleToken (par : Option Params) (logits : List Nat) (draw : Nat → Nat) : Walk :=
  match par with
  | some x => if f32PosFinite x.temp then { tokens := [pick (sampleSet x logits) (draw 0)], draws := 1 }
    else { tokens := [argMaxTok logits] }
  | none => { tokens := [argMaxTok logits] }

end Sys2Proof.Machine
end

