-- ==== Sys2Proof/Machine/MillNum.lean ====
section
/-! DEFINITION. The arithmetic of sliding-window layers, pre-processing and heads as the Mill performs it (R320–R325, R331–R334, R339–R342). A
tensor is read through a function from a VA to a byte. -/

namespace Sys2Proof.Machine

def at16 (b : List Nat) (i : Nat) : Nat := b.getD i 0 + 256 * b.getD (i + 1) 0
def at64 (b : List Nat) (i : Nat) : Nat := le32At b i + 2 ^ 32 * le32At b (i + 4)

/-! Layer descriptors (R320–R323) -/

structure MillLayer where
  inW : Nat
  inH : Nat
  cIn : Nat
  cOut : Nat
  kw : Nat
  kh : Nat
  sx : Nat
  sy : Nat
  dx : Nat
  dy : Nat
  padL : Nat
  padR : Nat
  padT : Nat
  padB : Nat
  groups : Nat
  inFmt : Nat
  wFmt : Nat
  outFmt : Nat
  act : Nat
  op : Nat
  cip : Bool
  glob : Bool
  mill : Bool
  inVa : Nat
  wVa : Nat
  outVa : Nat
  biasVa : Nat
  scale : Nat
  deriving DecidableEq, Repr

def millLayerOf (b : List Nat) : MillLayer :=
  let g := fun i => b.getD i 0
  { inW := at16 b 0, inH := at16 b 2, cIn := at16 b 4, cOut := at16 b 6, kw := g 8, kh := g 9, sx := g 10 % 16, sy := g 10 / 16,
    dx := g 11 % 16, dy := g 11 / 16, padL := g 12, padR := g 13, padT := g 14, padB := g 15, groups := at16 b 16,
    inFmt := g 18 % 16, wFmt := g 18 / 16, outFmt := g 19 % 32, act := g 19 / 32, op := g 20 % 4, cip := nbit (g 20) 2,
    glob := nbit (g 20) 3, mill := nbit (g 20) 4, inVa := at64 b 24, wVa := at64 b 32, outVa := at64 b 40, biasVa := at64 b 48,
    scale := le32At b 56 }

def within (v lo hi : Nat) : Bool := decide (lo ≤ v ∧ v ≤ hi)

/-- R321 with the limits of R334. A zero extent is not outside the table: such a layer is empty (R325). -/
def millLayerOk (b : List Nat) : Bool :=
  let d := millLayerOf b
  d.inW ≤ 4096 && d.inH ≤ 4096 && within d.cIn 1 16384 && within d.cOut 1 16384 && (d.op == 0 || d.cOut == d.cIn) &&
  within d.kw 1 7 && within d.kh 1 7 && within d.sx 1 4 && within d.sy 1 4 && within d.dx 1 4 && within d.dy 1 4 &&
  within d.groups 1 d.cIn && d.cIn % d.groups == 0 && d.cOut % d.groups == 0 &&
  (decide (d.cIn / d.groups ≤ 8) || decide (d.cOut / d.groups ≤ 16)) &&
  ((d.inFmt == 0 && d.wFmt == 0) || (d.inFmt == 0xC && d.wFmt == 0xC)) &&
  [0x00, 0x02, 0x0B, 0x0C, 0x10].contains d.outFmt && d.act ≤ 5 && d.op != 3 && d.mill &&
  b.getD 20 0 / 32 == 0 && b.getD 21 0 == 0 && b.getD 22 0 == 0 && b.getD 23 0 == 0

/-- GLOBAL: the window is the whole input at stride 1 without padding or dilation (R323). -/
def MillLayer.act1 (d : MillLayer) : MillLayer :=
  if d.glob then { d with kw := d.inW, kh := d.inH, sx := 1, sy := 1, dx := 1, dy := 1, padL := 0, padR := 0, padT := 0, padB := 0 } else d

/-- An output extent (R323). -/
def extent (n p q d k s : Nat) : Nat :=
  if n = 0 ∨ n + p + q < d * (k - 1) + 1 then 0 else (n + p + q - d * (k - 1) - 1) / s + 1

def MillLayer.outW (d : MillLayer) : Nat := extent d.inW d.padL d.padR d.dx d.kw d.sx
def MillLayer.outH (d : MillLayer) : Nat := extent d.inH d.padT d.padB d.dy d.kh d.sy
def MillLayer.empty (d : MillLayer) : Bool := d.outW == 0 || d.outH == 0

/-- The input position of a tap along one axis, none for a padding tap (R323, R324). -/
def tapPos (n o s t d p : Nat) : Option Nat := if o * s + t * d < p ∨ n ≤ o * s + t * d - p then none else some (o * s + t * d - p)

/-- The taps of an output position in raster order: tap number, and input pixel or none. -/
def MillLayer.taps (d : MillLayer) (ox oy : Nat) : List (Nat × Option (Nat × Nat)) :=
  (List.range d.kh).flatMap fun ty => (List.range d.kw).map fun tx =>
    (ty * d.kw + tx, match tapPos d.inW ox d.sx tx d.dx d.padL, tapPos d.inH oy d.sy ty d.dy d.padT with
      | some x, some y => some (x, y)
      | _, _ => none)

/-- The columns, and the rows, that some window covers (R325). -/
def covered (n out s k d p : Nat) : List Nat :=
  (List.range n).filter fun x => (List.range out).any fun o => (List.range k).any fun t => tapPos n o s t d p == some x

def MillLayer.cols (d : MillLayer) : List Nat := covered d.inW d.outW d.sx d.kw d.dx d.padL
def MillLayer.rows (d : MillLayer) : List Nat := covered d.inH d.outH d.sy d.kh d.dy d.padT
def MillLayer.unread (d : MillLayer) : Bool := decide (d.cols.length < d.inW ∨ d.rows.length < d.inH)

/-- Bytes of an element in an output format. -/
def millBytes (c : Nat) : Nat := accBits c / 8

/-! Values (R120, R121, R322, R331, R332, R334) -/

/-- R322 step 3. -/
def millAct (a v : Nat) : Nat :=
  match a with
  | 1 => f32MinMax true v 0
  | 2 => f32MinMax false (f32MinMax true v 0) 0x40C00000
  | 3 => f32Mul v (vfn .sigm v)
  | 4 => f32Mul (f32Mul 0x3F000000 v) (f32Add 0x3F800000 (vfn .erf (f32Mul v 0x3F3504F3)))
  | 5 => vfn .tanh v
  | _ => v

/-- An element of a tensor. -/
def tensorElem (byte : Nat → Nat) (fmt va i : Nat) : Nat :=
  if fmt = 0 then byte (va + i) else byte (va + 2 * i) + 256 * byte (va + 2 * i + 1)

/-- Weight (group, output channel of the group, `kk` in K order) in the packed layout of R326: 32 output channels a block, K padded to a
multiple of 4 in each tap. -/
def millWeight (byte : Nat → Nat) (d : MillLayer) (grp oc tap ch : Nat) : Nat :=
  let w := d.cIn / d.groups
  let wp := (w + 3) / 4 * 4
  let K := d.kw * d.kh * wp
  let blocks := (d.cOut / d.groups + 31) / 32
  let base := d.wVa + (grp * blocks + oc / 32) * operandBytes d.wFmt K
  operandElem (fun j => byte (base + j)) d.wFmt (oc % 32) (tap * wp + ch)

/-- Where a padding tap meets a weight that is not finite, the spec leaves open whether the output is affected (R324): `pad` says so. -/
def padTerm (pad : Bool) (w acc : Nat) : Nat :=
  match fFp16.decode w with
  | .fin .. => acc
  | _ => if pad then 0x7FC00000 else acc

/-- The accumulator of an output as fp32 (R334): int8 exactly, saturating as the sum grows; fp16 one rounding an exact product. -/
def millConv (byte : Nat → Nat) (d : MillLayer) (pad : Bool) (ox oy o : Nat) : Nat :=
  let w := d.cIn / d.groups
  let m := d.cOut / d.groups
  let grp := o / m
  let terms := (d.taps ox oy).flatMap fun t => (List.range w).map fun c => (t.1, t.2, c)
  let inp := fun (p : Nat × Nat) c => tensorElem byte d.inFmt d.inVa ((p.2 * d.inW + p.1) * d.cIn + grp * w + c)
  let wt := fun t c => millWeight byte d grp (o % m) t c
  if d.inFmt = 0 then
    let a := terms.foldl (fun (acc : Int) (t : Nat × Option (Nat × Nat) × Nat) => match t.2.1 with
      | some p => satInt 32 (acc + sext (inp p t.2.2) 8 * sext (wt t.1 t.2.2) 8)
      | none => acc) 0
    toF32 (fOfInt a)
  else
    terms.foldl (fun acc (t : Nat × Option (Nat × Nat) × Nat) => match t.2.1 with
      | some p => toF32 (fadd (fmul (fFp16.decode (inp p t.2.2)) (fFp16.decode (wt t.1 t.2.2))) (f32 acc))
      | none => padTerm pad (wt t.1 t.2.2) acc) 0

/-- The int8 saturations of an output (R120). -/
def millSats (byte : Nat → Nat) (d : MillLayer) (ox oy o : Nat) : Nat :=
  let w := d.cIn / d.groups
  let m := d.cOut / d.groups
  let terms := (d.taps ox oy).flatMap fun t => (List.range w).map fun c => (t.1, t.2, c)
  if d.op = 0 ∧ d.inFmt = 0 then
    (terms.foldl (fun (r : Int × Nat) (t : Nat × Option (Nat × Nat) × Nat) => match t.2.1 with
      | some p =>
        let sum := r.1 + sext (tensorElem byte 0 d.inVa ((p.2 * d.inW + p.1) * d.cIn + o / m * w + t.2.2)) 8 *
          sext (millWeight byte d (o / m) (o % m) t.1 t.2.2) 8
        (satInt 32 sum, r.2 + (if satInt 32 sum = sum then 0 else 1))
      | none => r) (0, 0)).2
  else 0

/-- The pooled value of a channel as fp32 (R331, R332). -/
def millPool (byte : Nat → Nat) (d : MillLayer) (ox oy ch : Nat) : Nat :=
  let ins := (d.taps ox oy).filterMap fun t => t.2
  let val := fun (p : Nat × Nat) => widen d.inFmt (tensorElem byte d.inFmt d.inVa ((p.2 * d.inW + p.1) * d.cIn + ch)) 127
  let v32 := fun p => if d.inFmt = 0 then toF32 (fOfInt (i32 (val p))) else val p
  match ins with
  | [] => 0
  | p :: ps =>
    if d.op = 1 then ps.foldl (fun a q => f32MinMax true a (v32 q)) (f32MinMax true (v32 p) (v32 p))
    else
      let n := if d.glob then d.inW * d.inH else if d.cip then d.kw * d.kh else ins.length
      f32Mul (ins.foldl (fun a q => f32Add a (v32 q)) 0) (toF32 (divVal false 1 0 n 0))

/-- One output value as its code (R322). -/
def millOut (byte : Nat → Nat) (d : MillLayer) (pad : Bool) (ox oy o : Nat) : Nat :=
  let bias := if d.biasVa = 0 then 0 else word4 (fun j => byte (d.biasVa + 4 * o + j)) 0
  let v := if d.op = 0 then f32Fma (millConv byte d pad ox oy o) d.scale bias else millPool byte d ox oy o
  accCode false d.outFmt (millAct d.act v) 0x3F800000

/-- A window without a tap inside the input (R332). -/
def MillLayer.allPad (d : MillLayer) : Bool :=
  d.op != 0 && (List.range d.outH).any fun oy => (List.range d.outW).any fun ox => (d.taps ox oy).all fun t => t.2.isNone

/-- A number's low bytes. -/
def lowBytes (n v : Nat) : List Nat := (List.range n).map fun i => v / 256 ^ i % 256

/-- The output tensor in NHWC order; output `i` takes its open choice from `free i`. -/
def millLayerBytes (byte : Nat → Nat) (free : Nat → Nat) (d : MillLayer) : List Nat :=
  (List.range (d.outW * d.outH * d.cOut)).flatMap fun i =>
    lowBytes (millBytes d.outFmt) (millOut byte d (nbit (free i) 0) (i / d.cOut % d.outW) (i / d.cOut / d.outW) (i % d.cOut))

/-- Spans of memory that a layer reads: input pixels that windows cover, weights, bias (R325). -/
def MillLayer.reads (d : MillLayer) : List (Nat × Nat) :=
  let e := if d.inFmt = 0 then 1 else 2
  let wp := (d.cIn / d.groups + 3) / 4 * 4
  (d.rows.flatMap fun y => d.cols.map fun x => (d.inVa + (y * d.inW + x) * d.cIn * e, d.cIn * e)) ++
    (if d.op = 0 then [(d.wVa, d.groups * ((d.cOut / d.groups + 31) / 32) * operandBytes d.wFmt (d.kw * d.kh * wp))] ++
      (if d.biasVa = 0 then [] else [(d.biasVa, 4 * d.cOut)]) else [])

/-- Clocks of the array (R334). -/
def MillLayer.clk (d : MillLayer) : Nat :=
  let pos := ceilDiv (d.outW * d.outH) 128
  if d.op = 0 then 256 + d.groups * ceilDiv (d.cOut / d.groups) 16 * pos * d.kw * d.kh * (d.cIn / d.groups) * (if d.inFmt = 0 then 1 else 2)
  else 256 + ceilDiv d.cIn 16 * pos * d.kw * d.kh

/-! Pre-processing (R339, R340) -/

structure MillPre where
  srcVa : Nat
  dstVa : Nat
  srcW : Nat
  srcH : Nat
  pitch : Nat
  srcFmt : Nat
  matrix : Nat
  dstFmt : Nat
  nchw : Bool
  bgr : Bool
  cropX : Nat
  cropY : Nat
  cropW : Nat
  cropH : Nat
  dstW : Nat
  dstH : Nat
  mean : List Nat
  mul : List Nat
  deriving DecidableEq, Repr

def millPreOf (b : List Nat) (src : Option (Nat × Nat)) : MillPre :=
  let g := fun i => b.getD i 0
  { srcVa := (src.map (·.1)).getD (at64 b 0), dstVa := at64 b 8, srcW := at16 b 16, srcH := at16 b 18, pitch := (src.map (·.2)).getD (at16 b 20),
    srcFmt := g 22 % 4, matrix := g 22 / 4 % 8, dstFmt := g 23 % 16, nchw := nbit (g 23) 4, bgr := nbit (g 23) 5, cropX := at16 b 24,
    cropY := at16 b 26, cropW := at16 b 28, cropH := at16 b 30, dstW := at16 b 32, dstH := at16 b 34,
    mean := [le32At b 36, le32At b 40, le32At b 44], mul := [le32At b 48, le32At b 52, le32At b 56] }

def millPreOk (b : List Nat) (src : Option (Nat × Nat)) : Bool :=
  let d := millPreOf b src
  let even := fun n => n % 2 == 0
  within d.srcW 2 4096 && within d.srcH 2 2304 && even d.srcW && even d.srcH && d.pitch % 64 == 0 && d.pitch ≤ 16384 && d.srcFmt ≤ 1 && d.matrix ≤ 5 &&
  d.dstFmt ≤ 3 && even d.cropX && even d.cropY && even d.cropW && even d.cropH && decide (0 < d.cropW) && decide (0 < d.cropH) &&
  d.cropX + d.cropW ≤ d.srcW && d.cropY + d.cropH ≤ d.srcH && within d.dstW 1 4096 && within d.dstH 1 4096 &&
  d.dstW ≤ 8 * d.cropW && d.cropW ≤ 8 * d.dstW && d.dstH ≤ 8 * d.cropH && d.cropH ≤ 8 * d.dstH &&
  b.getD 22 0 / 32 == 0 && b.getD 23 0 / 64 == 0

abbrev f32Half : Nat := 0x3F000000
def f32OfNat (n : Nat) : Nat := toF32 (fOfInt n)
def f32Ratio (p q : Nat) : Nat := toF32 (divVal false p 0 q 0)
def f32Clamp (lo hi v : Nat) : Nat := f32MinMax false (f32MinMax true v lo) hi

/-- The whole part of a finite number that is not negative. -/
def f32Floor (a : Nat) : Nat := (toIntSat 32 true (f32 a)).toNat

/-- R340 step 1 along one axis. -/
def srcPos (crop len dst i : Nat) : Nat :=
  let p := f32Div (f32Mul (f32Add (f32OfNat i) f32Half) (f32OfNat len)) (f32OfNat dst)
  f32Clamp (f32OfNat crop) (f32OfNat (crop + len - 1)) (f32Sub (f32Add (f32OfNat crop) p) f32Half)

/-- Two neighbours along an axis and the weight of the second. A neighbour past the end takes the last. -/
def neighbours (pos hi : Nat) : Nat × Nat × Nat :=
  let i := f32Floor pos
  (i, min (i + 1) hi, f32Sub pos (f32OfNat i))

/-- a + (b − a) × f, each operation rounded once. -/
def f32Lerp (a b f : Nat) : Nat := f32Add a (f32Mul (f32Sub b a) f)

/-- A plane's sample: NV12 one byte, P010 bits [15:6] of two. -/
def sampleAt (byte : Nat → Nat) (fmt va : Nat) : Nat := if fmt = 0 then byte va else (byte va + 256 * byte (va + 1)) / 64

/-- The neighbours' positions of a destination pixel: luma x, y and chroma x, y, each with its weight. -/
def MillPre.pos (d : MillPre) (x y : Nat) : (Nat × Nat × Nat) × (Nat × Nat × Nat) × (Nat × Nat × Nat) × (Nat × Nat × Nat) :=
  let sx := srcPos d.cropX d.cropW d.dstW x
  let sy := srcPos d.cropY d.cropH d.dstH y
  let cx := f32Clamp (f32OfNat (d.cropX / 2)) (f32OfNat (d.cropX / 2 + d.cropW / 2 - 1)) (f32Mul sx f32Half)
  let cy := f32Clamp (f32OfNat (d.cropY / 2)) (f32OfNat (d.cropY / 2 + d.cropH / 2 - 1)) (f32Mul (f32Sub sy f32Half) f32Half)
  (neighbours sx (d.cropX + d.cropW - 1), neighbours sy (d.cropY + d.cropH - 1),
    neighbours cx (d.cropX / 2 + d.cropW / 2 - 1), neighbours cy (d.cropY / 2 + d.cropH / 2 - 1))

def MillPre.sampleBytes (d : MillPre) : Nat := d.srcFmt + 1
def MillPre.lumaVa (d : MillPre) (x y : Nat) : Nat := d.srcVa + d.pitch * y + x * d.sampleBytes
/-- Cb (0) or Cr (1) of a chroma position: interleaved pairs. -/
def MillPre.chromaVa (d : MillPre) (k x y : Nat) : Nat := d.srcVa + d.pitch * (d.srcH + y) + (2 * x + k) * d.sampleBytes

/-- R340 steps 2 and 3: a sample interpolated along x, then along y. -/
def bilinear (at' : Nat → Nat → Nat) (px py : Nat × Nat × Nat) : Nat :=
  let v := fun x y => f32OfNat (at' x y)
  f32Lerp (f32Lerp (v px.1 py.1) (v px.2.1 py.1) px.2.2) (f32Lerp (v px.1 py.2.1) (v px.2.1 py.2.1) px.2.2) py.2.2

/-- Kr and Kb of the matrix in ten-thousandths (the ITU-R Recommendations that R339 names). -/
def lumaCoef (m : Nat) : Nat × Nat := match m / 2 with
  | 0 => (2990, 1140)
  | 1 => (2126, 722)
  | _ => (2627, 593)

/-- R340 step 4: R, G, B in 0–1. -/
def toRgb (matrix fmt y cb cr : Nat) : List Nat :=
  let k := if fmt = 0 then 1 else 4
  let full := matrix % 2 = 1
  let (y0, ys, c0, cs) := if full then (0, if fmt = 0 then 255 else 1023, 128 * k, if fmt = 0 then 255 else 1023) else (16 * k, 219 * k, 128 * k, 224 * k)
  let Y := f32Div (f32Sub y (f32OfNat y0)) (f32OfNat ys)
  let B := f32Div (f32Sub cb (f32OfNat c0)) (f32OfNat cs)
  let R := f32Div (f32Sub cr (f32OfNat c0)) (f32OfNat cs)
  let (kr, kb) := lumaCoef matrix
  let kg := 10000 - kr - kb
  let r := f32Add Y (f32Mul (f32Ratio (2 * (10000 - kr)) 10000) R)
  let g := f32Sub (f32Sub Y (f32Mul (f32Ratio (2 * kb * (10000 - kb)) (kg * 10000)) B)) (f32Mul (f32Ratio (2 * kr * (10000 - kr)) (kg * 10000)) R)
  let b := f32Add Y (f32Mul (f32Ratio (2 * (10000 - kb)) 10000) B)
  [r, g, b].map fun v => f32Clamp 0 0x3F800000 v

def preFmt (c : Nat) : Nat := match c with
  | 0 => 0x00
  | 1 => 0x0C
  | 2 => 0x0B
  | _ => 0x02

/-- The three codes of a destination pixel in R, G, B order. -/
def MillPre.pixel (byte : Nat → Nat) (d : MillPre) (x y : Nat) : List Nat :=
  let (lx, ly, cx, cy) := d.pos x y
  let Y := bilinear (fun x y => sampleAt byte d.srcFmt (d.lumaVa x y)) lx ly
  let C := fun k => bilinear (fun x y => sampleAt byte d.srcFmt (d.chromaVa k x y)) cx cy
  (toRgb d.matrix d.srcFmt Y (C 0) (C 1)).zipIdx.map fun e =>
    accCode false (preFmt d.dstFmt) (f32Mul (f32Sub e.1 (d.mean.getD e.2 0)) (d.mul.getD e.2 0)) 0x3F800000

def MillPre.bytes (byte : Nat → Nat) (d : MillPre) : List Nat :=
  let n := millBytes (preFmt d.dstFmt)
  let px := (List.range (d.dstW * d.dstH)).map fun i =>
    let p := d.pixel byte (i % d.dstW) (i / d.dstW)
    if d.bgr then p.reverse else p
  if d.nchw then (List.range 3).flatMap fun c => px.flatMap fun p => lowBytes n (p.getD c 0)
  else px.flatMap fun p => p.flatMap (lowBytes n)

/-- The samples that the destination pixels use. -/
def MillPre.reads (d : MillPre) : List (Nat × Nat) :=
  (List.range (d.dstW * d.dstH)).flatMap fun i =>
    let (lx, ly, cx, cy) := d.pos (i % d.dstW) (i / d.dstW)
    let n := d.sampleBytes
    [(d.lumaVa lx.1 ly.1, n), (d.lumaVa lx.2.1 ly.1, n), (d.lumaVa lx.1 ly.2.1, n), (d.lumaVa lx.2.1 ly.2.1, n),
      (d.chromaVa 0 cx.1 cy.1, 2 * n), (d.chromaVa 0 cx.2.1 cy.1, 2 * n), (d.chromaVa 0 cx.1 cy.2.1, 2 * n), (d.chromaVa 0 cx.2.1 cy.2.1, 2 * n)]

def MillPre.clk (d : MillPre) : Nat := 512 + ceilDiv (2 * max (d.cropW * d.cropH) (d.dstW * d.dstH)) 25

/-! Heads (R341, R342) -/

structure MillHead where
  hop : Nat
  inFmt : Nat
  k : Nat
  n : Nat
  m : Nat
  iou : Nat
  minScore : Nat
  perClass : Bool
  inVa : Nat
  wVa : Nat
  outVa : Nat
  biasVa : Nat
  deriving DecidableEq, Repr

def millHeadOf (b : List Nat) : MillHead :=
  { hop := b.getD 0 0 % 4, inFmt := b.getD 1 0, k := at16 b 2, n := le32At b 4, m := le32At b 8, iou := le32At b 12, minScore := le32At b 16,
    perClass := nbit (b.getD 20 0) 0, inVa := at64 b 24, wVa := at64 b 32, outVa := at64 b 40, biasVa := at64 b 48 }

def millHeadOk (b : List Nat) : Bool :=
  let d := millHeadOf b
  [0x00, 0x0B, 0x0C, 0x10].contains d.inFmt && within d.n 1 65536 && (d.hop != 0 || within d.m 1 16384) &&
  (d.hop == 0 || d.hop == 1 || within d.k 1 1024) && b.getD 0 0 / 4 == 0 && b.getD 20 0 / 2 == 0 && b.getD 21 0 == 0 && b.getD 22 0 == 0 &&
  b.getD 23 0 == 0 && le32At b 56 == 0

def headBytes (fmt : Nat) : Nat := if fmt = 0 then 1 else if fmt = 0x10 then 4 else 2

/-- An element of a head's input, exactly and as fp32. -/
def headElem (byte : Nat → Nat) (fmt va i : Nat) : FVal :=
  let n := headBytes fmt
  let code := bgetFn byte (va + n * i) n
  if fmt = 0x10 then f32 code else elemVal fmt code
where
  bgetFn (byte : Nat → Nat) (a : Nat) : Nat → Nat
    | 0 => 0
    | n + 1 => byte a + 256 * bgetFn byte (a + 1) n

/-- CLASSIFY: one logit. -/
def logit (byte : Nat → Nat) (d : MillHead) (c : Nat) : Nat :=
  let term := fun i => fmul (headElem byte d.inFmt d.inVa i) (headElem byte d.inFmt d.wVa (c * d.m + i))
  let bias := if d.biasVa = 0 then 0 else word4 (fun j => byte (d.biasVa + 4 * c + j)) 0
  let sum := fun lo n => (List.range n).foldl (fun a i => fadd a (term (lo + i))) (.fin true 0 0)
  let acc :=
    if d.inFmt = 0 then
      toF32 (fOfInt (satInt 32 ((List.range d.m).foldl (fun (a : Int) i =>
        a + sext (byte (d.inVa + i)) 8 * sext (byte (d.wVa + c * d.m + i)) 8) 0)))
    else (List.range (ceilDiv d.m 128)).foldl (fun a g => toF32 (fadd (sum (128 * g) (min 128 (d.m - 128 * g))) (f32 a))) 0
  f32Add acc bias

/-- The values of ARGMAX and TOPK in rank order, best first, with their indices (R128). -/
def ranked (byte : Nat → Nat) (d : MillHead) (k : Nat) : List (Nat × Nat) :=
  (((List.range d.n).map fun i => (toF32 (headElem byte d.inFmt d.inVa i), i)).foldl (fun xs x => (topInsert false x xs).take k) [])

structure Box where
  x0 : Nat
  y0 : Nat
  x1 : Nat
  y1 : Nat
  score : Nat
  cls : Nat
  deriving DecidableEq, Repr

def boxAt (byte : Nat → Nat) (va i : Nat) : Box :=
  let w := fun k => word4 (fun j => byte (va + 24 * i + 4 * k + j)) 0
  { x0 := w 0, y0 := w 1, x1 := w 2, y1 := w 3, score := w 4, cls := w 5 }

def rectArea (x0 y0 x1 y1 : Nat) : Nat := f32Mul (f32MinMax true (f32Sub x1 x0) 0) (f32MinMax true (f32Sub y1 y0) 0)

/-- IoU, each operation rounded once; a zero denominator gives 0. -/
def boxIou (a b : Box) : Nat :=
  let i := rectArea (f32MinMax true a.x0 b.x0) (f32MinMax true a.y0 b.y0) (f32MinMax false a.x1 b.x1) (f32MinMax false a.y1 b.y1)
  let den := f32Sub (f32Add (rectArea a.x0 a.y0 a.x1 a.y1) (rectArea b.x0 b.y0 b.x1 b.y1)) i
  if isZero (f32 den) then 0 else f32Div i den

/-- NMS: the boxes kept, in order. -/
def nms (byte : Nat → Nat) (d : MillHead) : List Box :=
  let all := (List.range d.n).map fun i => (boxAt byte d.inVa i, i)
  let live := all.filter fun e => !f32IsNan e.1.score && !cmpF32 2 e.1.score d.minScore
  let order := live.mergeSort fun a b => !topBefore false (b.1.score, b.2) (a.1.score, a.2)
  order.foldl (fun (kept : List Box) e =>
    if d.k ≤ kept.length then kept
    else if kept.any fun x => (!d.perClass || x.cls == e.1.cls) && cmpF32 4 (boxIou x e.1) d.iou then kept
    else kept ++ [e.1]) []

/-- The bytes that a head writes, and how many outputs they are. -/
def MillHead.bytes (byte : Nat → Nat) (d : MillHead) : List Nat × Nat :=
  match d.hop with
  | 0 => ((List.range d.n).flatMap fun c => lowBytes 4 (logit byte d c), d.n)
  | 1 => ((ranked byte d 1).flatMap fun e => lowBytes 4 e.2, 1)
  | 2 =>
    let r := ranked byte d (min d.k d.n)
    (r.flatMap fun e => lowBytes 4 e.1 ++ lowBytes 4 e.2, r.length)
  | _ =>
    let r := nms byte d
    (r.flatMap fun x => [x.x0, x.y0, x.x1, x.y1, x.score, x.cls].flatMap (lowBytes 4), r.length)

def MillHead.reads (d : MillHead) : List (Nat × Nat) :=
  let e := headBytes d.inFmt
  match d.hop with
  | 0 => [(d.inVa, d.m * e), (d.wVa, d.n * d.m * e)] ++ (if d.biasVa = 0 then [] else [(d.biasVa, 4 * d.n)])
  | 3 => [(d.inVa, 24 * d.n)]
  | _ => [(d.inVa, d.n * e)]

/-- Clocks of the array pipe: for CLASSIFY the stated number, for NMS the stated most; for ARGMAX and TOPK none is stated. -/
def MillHead.clk (d : MillHead) : Option Nat :=
  match d.hop with
  | 0 => some (256 + ceilDiv d.n 16 * ceilDiv d.m 128)
  | _ => none

end Sys2Proof.Machine
end

