-- ==== Sys2Proof/Machine/Tap.lean ====
section
/-! DEFINITION. The Tap arbiter of a floor store (R181–R187). -/

namespace Sys2Proof.Machine

/-- Effective priority: the requester's field, or 16 for a class-0 kernel (R182). -/
def State.tapPrio (s : State) (fp : Nat) (r : TapReq) : Nat :=
  if r.class0 then 16
  else if r.req < 8 then bits (s.rd fp F.FLOOR_TAP_PRIO0) (4 * r.req) 4
  else if r.req = 8 then s.rd fp F.FLOOR_TAP_PRIO1_MAINT
  else if r.req = 9 then s.rd fp F.FLOOR_TAP_PRIO1_FAB_IN
  else s.rd fp F.FLOOR_TAP_PRIO1_FAB_OUT

/-- The clock at which a port is free again: none while its burst is stuck. -/
def portFree (f : FloorSt) (port : Nat) : Option Nat :=
  match mget f.bursts port with
  | none => some 0
  | some (r, clk) => if r.stuck then none else some (clk + r.beats)

/-- Does request `a` win against `b`: higher effective priority, on a tie the one granted that port least recently (R182)? -/
def State.tapWins (s : State) (fp : Nat) (a b : TapReq) : Bool :=
  let pa := s.tapPrio fp a
  let pb := s.tapPrio fp b
  let ga := nget (s.floor fp).granted (a.port * 16 + a.req)
  let gb := nget (s.floor fp).granted (b.port * 16 + b.req)
  decide (pb < pa) || (pa == pb && decide (ga ≤ gb))

/-- The requests that contend for a port: the oldest entry of each requester (R183). -/
def contenders (port : Nat) : List TapReq → List Nat → List TapReq
  | [], _ => []
  | r :: rs, seen => if r.port = port ∧ seen.contains r.req = false then r :: contenders port rs (r.req :: seen) else contenders port rs seen

/-- The winner of a contest. -/
def State.tapBest (s : State) (fp : Nat) : List TapReq → Option TapReq
  | [] => none
  | r :: rs => match s.tapBest fp rs with
    | none => some r
    | some b => if s.tapWins fp r b then some r else some b

/-- R182: a request is granted at a clock. -/
def State.tapGrant (s : State) (fp clk : Nat) (r : TapReq) : State :=
  let f := s.floor fp
  let s1 := s.setFloor fp { f with
    bursts := mput f.bursts r.port (r, clk), tapQ := f.tapQ.erase r, granted := nput f.granted (r.port * 16 + r.req) (clk + 1) }
  let s2 := s1.count fp 0x064 1
  if r.class0 then s2.count fp 0x078 1 else s2

/-- The floor's logic is under test: its Tap grants nothing (R465). -/
def State.floorSlice (s : State) (fp : Nat) : Bool := s.bist.running.any fun x => match x.unit with
  | .floor f => floorPgOf f == fp
  | _ => false

/-- Pending entries of a port win it as it falls free, up to the present clock. -/
def State.tapSettle (s : State) (fp port : Nat) : Nat → State
  | 0 => s
  | n + 1 =>
    match portFree (s.floor fp) port with
    | none => s
    | some clk =>
      if s.now < clk ∨ s.floorSlice fp = true then s
      else
        let cs := contenders port (s.floor fp).tapQ []
        match s.tapBest fp cs with
        | none => s
        | some r => ((s.tapGrant fp clk r).count fp 0x068 (cs.length - 1)).tapSettle fp port n

/-- The step of the kernel that a logical vat runs fails with FAULT. -/
def State.failRequester (s : State) (fp req : Nat) : State :=
  if req < 8 then
    match s.vatOf fp req with
    | some pg => match s.kern pg with
      | some k => s.failStep k.step stFAULT 0
      | none => s
    | none => s
  else s

/-- R183: a request is granted in the same clock, queued, or stalls its requester. A fenced requester's request completes with FAULT without
contending (R186). -/
def execTapRequest (f : FloorId) (r : TapReq) (s : State) : Result :=
  .next (
    let fp := floorPgOf f
    -- R418: on a reserved floor only its context and the maintenance requester are served
    if 11 ≤ r.req ∨ 4 ≤ r.port ∨ r.beats = 0 ∨ 16 < r.beats ∨ (r.req ≠ 8 ∧ s.floorOpen fp r.ctx = false) then s
    else if nbit (s.rd fp F.FLOOR_TAP_FENCED) r.req then s.failRequester fp r.req
    else
      let s1 := s.tapSettle fp r.port (s.floor fp).tapQ.length
      let q := (s1.floor fp).tapQ
      let mine := q.filter fun x => x.req == r.req
      let behind := mine.any fun x => x.port == r.port
      let free := match portFree (s1.floor fp) r.port with
        | some clk => decide (clk ≤ s1.now)
        | none => false
      let wins := free && !behind && (contenders r.port q []).all fun x => s1.tapWins fp r x
      if wins then s1.tapGrant fp s1.now r
      else if mine.length < 2 then
        let s2 := s1.setFloor fp { s1.floor fp with tapQ := q ++ [r] }
        if behind then s2 else s2.count fp 0x068 1
      else s1.count fp 0x06C 1)

/-- R186: a granted burst that has moved no beat for the watchdog time: its holder is fenced. -/
def execTapWdog (f : FloorId) (port : Fin 4) (s : State) : Result :=
  .next (
    let fp := floorPgOf f
    match mget (s.floor fp).bursts port.val with
    | none => s
    | some (r, clk) =>
      if r.stuck ∧ clk + s.rd fp F.FLOOR_TAP_WDOG ≤ s.now then
        let fs := s.floor fp
        let s1 := s.setFloor fp { fs with bursts := mdel fs.bursts port.val, tapQ := fs.tapQ.filter fun x => x.req != r.req }
        let s2 := ((s1.failRequester fp r.req).ctxNote r.ctx 8).wr fp F.FLOOR_TAP_FENCED (setBit (s1.rd fp F.FLOOR_TAP_FENCED) r.req)
        let s3 := (s2.count fp 0x070 1).raise fp 7
        if r.req < 8 then
          match s3.vatOf fp r.req with
          | some pg => s3.earlyRot pg
          | none => s3
        else if r.req = 8 then
          -- the pending fill is abandoned: its segments stay CLEARING until the next reset (R187)
          s3.setFloor fp { s3.floor fp with fills := [] }
        else
          -- the floor-logic slice of the floor runs next (R187, R466)
          { s3 with bist := { s3.bist with due := s3.bist.due ++ [.floor f] } }
      else s)

/-- R184: a priority write takes effect for every contest of the following clocks; contests due before it are decided first. -/
def execTapPrioWrite (fn : Fin 32) (f : FloorId) (second : Bool) (v : Word) (s : State) : Result :=
  .next (s.blockAction (floorPgOf f) fn.val (if second then 0x204 else 0x200) fun t =>
    let fp := floorPgOf f
    let t1 := (List.range 4).foldl (fun u p => u.tapSettle fp p (u.floor fp).tapQ.length) t
    if second then
      ((t1.wr fp F.FLOOR_TAP_PRIO1_FAB_OUT (bits v.toNat 8 4)).wr fp F.FLOOR_TAP_PRIO1_FAB_IN (bits v.toNat 4 4)).wr fp
        F.FLOOR_TAP_PRIO1_MAINT (bits v.toNat 0 4)
    else t1.wr fp F.FLOOR_TAP_PRIO0 v.toNat)

end Sys2Proof.Machine
end

