-- ==== Sys2Proof/Machine/Lpddr.lean ====
section
/-! DEFINITION. Main memory: line accesses, the frame table, translation, the mapping commands, detections and the patrol (R190–R219). -/

namespace Sys2Proof.Machine

/-! Places (R190, R191) -/

abbrev framesPerDie : Nat := 32505856
abbrev linesPerChannel : Nat := 65011712

/-- The frame of a line, and the die, channel, channel frame and group page of a frame. -/
def frameOfLine (l : Nat) : Nat := l / 64
def frameDie (f : Nat) : Nat := f / 2 ^ 25
def frameChan (f : Nat) : Nat := f % 32
def frameJ (f : Nat) : Nat := f % 2 ^ 25 / 32
def frameGroup (f : Nat) : Nat := pgLPG (frameDie f) (frameChan f / 8)

/-- Is the frame populated on this variant? -/
def State.populated (s : State) (f : Nat) : Bool := decide (frameDie f < s.variant.dies) && decide (f % 2 ^ 25 < framesPerDie)

/-- The channel is retired (R215). -/
def State.chanRetired (s : State) (n ch : Nat) : Bool := !nbit (s.rd (pgLPG n (ch / 8)) F.LPG_CH_SVC) (ch % 8)

/-! Keys (R197, R198) -/

abbrev slotSystem : Nat := 1280
def slotOfOwner (otype owner : Nat) : Nat := if otype = 0 then owner else if otype = 1 then 1024 + owner else slotSystem

/-- The key in a slot; the system's key is always there. -/
def State.keyIn (s : State) (slot : Nat) : Option Nat := if slot = slotSystem then some 0 else mget s.lp.keys slot

/-- `LPG.KEYS_INSTALLED` of every group of every die in service, and `CTXS.KEY_SLOTS_FREE`. -/
def State.showKeys (s : State) : State :=
  let n := s.lp.keys.length
  let s1 := s.diesUp.foldl (fun t d => (List.range 4).foldl (fun t g => t.wr (pgLPG d g) F.LPG_KEYS_INSTALLED n) t) s
  (s1.wr pgCTXS0 F.CTXS_KEY_SLOTS_FREE (1280 - n)).wr pgCTXS1 F.CTXS_KEY_SLOTS_FREE (1280 - n)

/-- A fresh key is installed in a slot. -/
def State.installKey (s : State) (slot : Nat) : State :=
  { s with lp := { s.lp with keys := mput s.lp.keys slot s.lp.keyNext, keyNext := s.lp.keyNext + 1 } }.showKeys

def State.destroyKey (s : State) (slot : Nat) : State := { s with lp := { s.lp with keys := mdel s.lp.keys slot } }.showKeys

/-! Owners of frames (R200, R204) -/

/-- The sharing domain of a context. -/
def State.domainOf (s : State) (c : Nat) : Option Nat :=
  if s.ctxField F.CTXS_ENTRY_DOM_VALID c = 1 then some (s.ctxField F.CTXS_ENTRY_DOMAIN c) else none

def State.frame (s : State) (f : Nat) : Option Frame := mget s.lp.frames f
def State.setFrame (s : State) (f : Nat) (x : Frame) : State := { s with lp := { s.lp with frames := mput s.lp.frames f x } }
def State.modFrame (s : State) (f : Nat) (g : Frame → Frame) : State := { s with lp := { s.lp with frames := mmod s.lp.frames f g } }

/-- Does the frame-table entry name the context, or its domain, as owner? -/
def State.ownsFrame (s : State) (c f : Nat) : Bool :=
  match s.frame f with
  | some x => !x.clearing && ((x.otype == 0 && x.owner == c) || (x.otype == 1 && s.domainOf c == some x.owner))
  | none => false

/-- The contexts that an event of a frame goes to: its owner, or the members of its domain. -/
def State.frameOwners (s : State) (x : Frame) : List Nat :=
  if x.otype = 0 then [x.owner]
  else if x.otype = 1 then (List.range 1024).filter fun c => s.domainOf c == some x.owner
  else []

/-! Lines (R192–R197) -/

/-- 64 bytes of a number. -/
def lineBytes (v : Nat) : List Nat := (List.range 64).map fun i => v / 256 ^ i % 256
def lineNat (bs : List Nat) : Nat := bs.foldr (fun b a => b + 256 * a) 0

/-- The plaintext that a line shows under a key (R197, R199). -/
def State.lineText (s : State) (l key : Nat) : List Nat :=
  let own := (List.range 64).map fun i => (bget s.lp.mem (64 * l + i)).toNat
  match mget s.lp.tag l with
  | some t => if t = key + 1 then own else lineBytes (Config.xts key t l (lineNat own))
  | none => lineBytes (Config.xts key 0 l 0)

/-- The CRC line of a data line, in its group's cache. -/
def crcKey (l : Nat) : Nat :=
  frameGroup (frameOfLine l) * 2 ^ 28 + frameChan (frameOfLine l) % 8 * 2 ^ 25 + (frameJ (frameOfLine l) * 64 + l % 64) / 32

/-- Remove the entry at position `i` of a list. -/
def dropAt {α : Type} (l : List α) (i : Nat) : List α := l.take i ++ l.drop (i + 1)

/-- R194: the CRC line of an access is in the group's cache afterwards; a full cache gives up an entry the spec does not name (a free choice). -/
def State.crcTouch (s : State) (l : Nat) (dirty parity : Bool) : State :=
  let k := crcKey l
  let pg := frameGroup (frameOfLine l)
  match mget s.lp.crcc k with
  | some d =>
    if parity then
      let s1 := (((s.raise pg 7).capture pg 3 (32 * frameDie (frameOfLine l) + frameChan (frameOfLine l) +
        256 * frameJ (frameOfLine l)) none).count pg 0x054 1)
      let s2 := { s1 with lp := { s1.lp with crcc := mput s1.lp.crcc k dirty } }
      -- a dirty entry is lost: its 32 data lines fail their check
      if d then { s2 with lp := { s2.lp with bad := (List.range 32).foldl (fun m i => nput m (l / 32 * 32 + i) 2) s2.lp.bad } } else s2
    else { s with lp := { s.lp with crcc := mput s.lp.crcc k (d || dirty) } }
  | none =>
    let s1 := (s.count pg 0x054 1).count pg 0x058 1
    let mine := s1.lp.crcc.filter fun e => e.1 / 2 ^ 28 == pg
    if mine.length < 512 then { s1 with lp := { s1.lp with crcc := mput s1.lp.crcc k dirty } }
    else
      let (s2, r) := s1.fresh 9
      let victim := (mine.getD (r % mine.length) (k, false)).1
      { s2 with lp := { s2.lp with crcc := mput (mdel s2.lp.crcc victim) k dirty } }

/-- `FAULT_LOC` of a frame in its group's page (R218). -/
def frameLoc (f : Nat) : Nat := 32 * frameDie f + frameChan f + 256 * frameJ f

/-- R210, R214: a confirmed detection in a frame. -/
def State.confirm (s : State) (f : Nat) (poison : Bool) : State :=
  let pg := frameGroup f
  let ch := 32 * frameDie f + frameChan f
  let s1 := (((s.raise pg (if poison then 1 else 0)).count pg 0x060 1).count pg 0x064 (boolNat poison)).capture pg
    (if poison then 2 else 1) (frameLoc f) none
  let s2 := { s1 with lp := { s1.lp with chDet := nadd s1.lp.chDet ch 1 } }
  let s3 :=
    if s2.rd pg F.LPG_RETIRE_THRESH ≤ nget s2.lp.chDet ch ∧ s2.lp.chDue.contains ch = false then
      { s2 with lp := { s2.lp with chDue := s2.lp.chDue ++ [ch] } }
    else s2
  match s3.frame f with
  | some x =>
    let s4 := s3.setFrame f { x with detect := min 3 (x.detect + 1), pend := x.pend || decide (1 ≤ x.detect) }
    if x.detect = 1 ∧ x.pend = false then s4.raise pg 5 else s4
  | none => s3

/-- R195: a line is read: how it comes back is 0 good, 1 POISON, 2 DETECT. -/
def State.lineRead (s : State) (l key : Nat) (o : LineOut) : State × List Nat × Nat :=
  let f := frameOfLine l
  let pg := frameGroup f
  let s1 := (s.count pg 0x04C 1).crcTouch l false o.cacheParity
  let text := s1.lineText l key
  let how := if nget s1.lp.bad l ≠ 0 then nget s1.lp.bad l else if o.fail1 && o.fail2 then 2 else 0
  if how = 0 then (if o.fail1 then s1.count pg 0x05C 1 else s1, text, 0)
  else
    let mirrored := match s1.frame f with
      | some x => x.kind == 3 || x.kind == 4
      | none => false
    if mirrored then
      let xp := pgXLT (frameDie f)
      let s2 := (s1.confirm f (how == 1)).count xp 0x058 1
      if o.mirrorBad then (s2.raise xp 1, text, how)
      else ({ s2 with lp := { s2.lp with bad := mdel s2.lp.bad l } }.raise xp 0, text, 0)
    else (s1.confirm f (how == 1), text, how)

/-- A whole line stored under a key. -/
def State.putLine (s : State) (l key : Nat) (bs : List Nat) (bad : Bool) : State :=
  { s with lp := { s.lp with
    mem := bputList s.lp.mem (64 * l) (bs.map (BitVec.ofNat 8))
    tag := mput s.lp.tag l (key + 1)
    bad := nput s.lp.bad l (boolNat bad) } }

/-- R196: `bs` written from byte `off` of a line. A partial write reads the line first; a failing read leaves the merged line marked bad. -/
def State.lineWrite (s : State) (l key off : Nat) (bs : List Nat) (srcBad : Bool) (o : LineOut) : State :=
  let pg := frameGroup (frameOfLine l)
  if 64 ≤ bs.length then ((s.count pg 0x050 1).crcTouch l true o.cacheParity).putLine l key bs srcBad
  else
    let (s1, old, how) := s.lineRead l key o
    let merged := (List.range 64).map fun i => if off ≤ i ∧ i < off + bs.length then bs.getD (i - off) 0 else old.getD i 0
    (((s1.count pg 0x050 1).count pg 0x068 1).crcTouch l true false).putLine l key merged (srcBad || how != 0)

/-! Translation (R202–R208) -/

/-- The keys of the leaves that can map a VA: 2 MiB, 4 KiB. -/
def bigKey (c va : Nat) : Nat := c * 2 ^ 31 + 2 ^ 30 + bits va 21 21
def smallKey (c va : Nat) : Nat := c * 2 ^ 31 + bits va 12 30

/-- The retired list of a die (R219). -/
def State.retList (s : State) (n : Nat) : List Nat :=
  ((List.range 7).filter fun i => s.rdi (pgXLT n) F.XLT_RET_LIST_VALID i == 1).map fun i => s.rdi (pgXLT n) F.XLT_RET_LIST_CH i

/-- R206: frame `i` of a 2 MiB leaf. -/
def State.bigFrame (s : State) (x : Leaf) (i : Nat) : Nat :=
  let n := x.pa / 2 ^ 25
  let r := (s.retList n).take x.rset
  let chans := (List.range 32).filter fun c => !r.contains c
  let m := 32 - x.rset
  x.pa + 32 * (i / m) + chans.getD (i % m) 0

/-- The leaf that maps a VA, and the frame it gives. -/
def State.leafOf (s : State) (c va : Nat) : Option (Leaf × Nat × Bool) :=
  match mget s.lp.leaves (bigKey c va) with
  | some x => some (x, s.bigFrame x (bits va 12 9), true)
  | none => (mget s.lp.leaves (smallKey c va)).map fun x => (x, x.pa, false)

/-- The frame is retired, or lies on a channel retired after the leaf was written (R208 code 6). -/
def State.frameGone (s : State) (f : Nat) : Bool :=
  s.isRetired (pgDIE (frameDie f)) || s.chanRetired (frameDie f) (frameChan f) || (match s.frame f with
    | some x => x.otype == 3
    | none => false)

/-! KV windows (R253, R254, R267, R268) -/

def Geom.dies (g : Geom) : List Nat := (List.range 4).filter (nbit g.dieSet)

/-- Bytes of an element, and of the key block of a page. -/
def Geom.elem (g : Geom) : Nat := if g.fmt = 0xB then 2 else 1
def Geom.block (g : Geom) : Nat := 64 * g.kvh * g.headDim * g.elem

/-- Bytes between the areas of two layers in the window (R267). -/
def Geom.span (g : Geom) : Nat := ceilDiv (g.pagesMax * g.units * 4096) (2 ^ 21) * 2 ^ 21

/-- The key of a page-list entry: die slot, layer, position. -/
def pkey (j l p : Nat) : Nat := (j * 256 + l) * 2 ^ 18 + p
def keySlot (k : Nat) : Nat := k / 2 ^ 26
def keyLayer (k : Nat) : Nat := k / 2 ^ 18 % 256
def keyPos (k : Nat) : Nat := k % 2 ^ 18

/-- The head whose window holds the granule of a VA (R267). -/
def State.granule (s : State) (c va : Nat) : Option Nat := mget s.kv.granules (c * 4096 + bits va 30 12)

/-- R267: the page-list entry and the offset in its page that a VA of the window names. -/
def Geom.place (g : Geom) (va : Nat) : Option (Nat × Nat) :=
  let o := va % 2 ^ 42 - g.kvVa % 2 ^ 42
  let q := o / g.span
  let p := o % g.span / (g.units * 4096)
  if q < g.dies.length * g.layers ∧ p < g.pagesMax then some (pkey (q / g.layers) (q % g.layers) p, o % g.span % (g.units * 4096)) else none

/-- The token that a byte of a page belongs to (R254). -/
def Geom.tokenAt (g : Geom) (off : Nat) : Option Nat :=
  if off < 2 * g.block then some (off % g.block % (64 * g.headDim * g.elem) / (g.headDim * g.elem)) else none

def Head.published (h : Head) : AMap PEnt := h.slots.getD h.cur []

/-- R268: an access of `len` bytes through a KV window, or none where no window holds the granule. -/
def State.window (s : State) (c va : Nat) (write host : Bool) (len : Nat) : Option (Except Nat Nat) :=
  (s.granule c va).map fun hd =>
    match mget s.kv.heads hd with
    | none => .error 1
    | some h =>
      if host && !h.geom.h then .error 3
      else match h.geom.place va with
        | none => .error 1
        | some (k, off) =>
          match mget (if write then h.staging else h.published) k with
          | none => .error 1
          | some e =>
            let fill := match mget h.published k with
              | some x => x.fill
              | none => 0
            let f := h.geom.dies.getD (keySlot k) 0 * 2 ^ 25 + e.loc + off / 4096
            if e.state ≠ 1 then .error 1
            else if s.frameGone f then .error 6
            else if !s.ownsFrame c f then .error 4
            else if write && !((List.range len).all fun i => match h.geom.tokenAt (off + i) with
              | some t => decide (fill ≤ t)
              | none => false) then .error 2
            else match s.frame f with
              | some y => if (s.keyIn (slotOfOwner y.otype y.owner)).isNone then .error 10 else .ok (f * 4096 + va % 4096)
              | none => .error 4

/-- The tag of a window's translation in a look-aside buffer: request, generation slot and frame (R268). -/
def winTag (hd slot f : Nat) : Nat := 2 ^ 41 + hd % 1024 * 2 ^ 31 + slot % 4 * 2 ^ 29 + f % 2 ^ 29

/-- R202–R208: a context's VA as a physical address, or the code of the fault. `len`: the bytes a write covers. -/
def State.xlate (s : State) (c va : Nat) (write host : Bool) (len : Nat := 1) : Except Nat Nat :=
  if va / 2 ^ 48 ≠ 0 then .error 9
  else match s.window c va write host len with
  | some r => r
  | none => match s.leafOf c va with
    | none => .error 1
    | some (x, f, big) =>
      if big && x.pa % 32 != 0 then .error 7
      else if !s.populated f then .error 5
      else if s.frameGone f then .error 6
      else if (if big then (List.range 512).any fun i => !s.frameGone (s.bigFrame x i) && !s.ownsFrame c (s.bigFrame x i)
        else !s.ownsFrame c f) then .error 4
      else if write && !x.w then .error 2
      else if host && !x.h then .error 3
      else match s.frame f with
        | some y => if (s.keyIn (slotOfOwner y.otype y.owner)).isNone then .error 10 else .ok (f * 4096 + va % 4096)
        | none => .error 4

/-- The status a translation fault completes with (R208). -/
def xltStatus (code : Nat) : Nat := if code = 4 ∨ code = 10 then stDENIED else stFAULT

/-- A context record with status and qualifier given, the code free. -/
def State.ctxStQ (s : State) (c bit st q : Nat) : State :=
  let (s, code) := s.fresh 16
  s.ctxEvent c bit st code q

/-- R205: the look-aside buffer of die `n` holds the leaf afterwards; the entry a full buffer gives up is a free choice. -/
def State.labTouch (s : State) (n key : Nat) (big : Bool) : State :=
  let xp := pgXLT n
  let k := n * 2 ^ 42 + key
  if s.lp.lab.contains k then if big then s.count xp 0x064 1 else s
  else
    let s1 := (s.count xp 0x050 1).count xp 0x054 (if big then 2 else 3)
    let mine := s1.lp.lab.filter fun e => e / 2 ^ 42 == n
    if mine.length < 2048 then { s1 with lp := { s1.lp with lab := k :: s1.lp.lab } }
    else
      let (s2, r) := s1.fresh 11
      { s2 with lp := { s2.lp with lab := k :: s2.lp.lab.erase (mine.getD r 0) } }

/-- A translated access of context `c` by a unit of die `n`: the physical address; a failure posts XLT_FAULT (R205, R208). -/
def State.access (s : State) (n c va : Nat) (write host : Bool) (len : Nat := 1) : State × Except Nat Nat :=
  let xp := pgXLT n
  let s0 := s.count xp 0x04C 1
  let s1 := match s0.granule c va, s0.xlate c va write host len with
    | some hd, .ok pa => s0.labTouch n (winTag hd (((mget s0.kv.heads hd).map fun (h : Head) => h.cur).getD 0) (pa / 4096)) false
    | some _, .error _ => (s0.count xp 0x050 1).count xp 0x054 3
    | none, _ => match s0.leafOf c va with
      | some (_, _, big) => s0.labTouch n (if big then bigKey c va else smallKey c va) big
      | none => (s0.count xp 0x050 1).count xp 0x054 1
  match s1.xlate c va write host len with
  | .ok pa => (s1, .ok pa)
  | .error code =>
    let s2 := (((s1.count xp 0x05C 1).count xp 0x060 (boolNat (xltStatus code == stDENIED))).capture xp code 0 (some c)).ctxEvent c 10
      (xltStatus code) code va
    let s3 := match code, s1.leafOf c va with
      | 10, some (_, f, _) => ((s2.count (frameGroup f) 0x074 1).capture (frameGroup f) 6 (frameLoc f) (some c))
      | _, _ => s2
    (s3, .error code)

/-! After a detection (R209, R210, R134) -/

/-- The run of a step ends on bad data: it is run again, or ends with FAULT at the second detection. -/
def State.dataDetect (s : State) (id : Nat) : State :=
  match s.step1 id with
  | none => s
  | some st =>
    let s1 := (s.endStepKernels id).setStep id { st with detections := st.detections + 1, draining := decide (st.detections = 0) }
    if st.detections = 0 then s1 else s1.failStep id stFAULT 0

def State.failStep? (s : State) (step : Option Nat) (st code : Nat) : State :=
  match step with
  | some id => s.failStep id st code
  | none => s

def State.dataDetect? (s : State) (step : Option Nat) : State :=
  match step with
  | some id => s.dataDetect id
  | none => s

/-- MEM_DETECT to the contexts of a frame. -/
def State.memDetect (s : State) (x : Frame) (va : Nat) : State := (s.frameOwners x).foldl (fun t c => t.ctxStQ c 11 stFAULT va) s

/-- The page-list entries that name a frame. -/
def State.pagesOfFrame (s : State) (f : Nat) : List (Nat × Nat × PEnt) :=
  s.kv.heads.flatMap fun e => (e.2.staging.filter fun x => (x.2.state == 1) && e.2.geom.dies.getD (keySlot x.1) 4 == frameDie f &&
    decide (x.2.loc ≤ f % 2 ^ 25 ∧ f % 2 ^ 25 < x.2.loc + e.2.geom.units)).map fun x => (e.1, x.1, x.2)

/-- R274, R275: the page that a frame belongs to waits for a recompute chunk of the request whose step met it, or of the first that names it. -/
def State.askRebuild (s : State) (f : Nat) (step : Option Nat) : State :=
  let ps := s.pagesOfFrame f
  let mine := ps.filter fun p => step.isSome && s.rqt.entries.any fun e => e.2.head == some p.1 && e.2.step == step
  match (mine ++ ps).head? with
  | none => s
  | some (hd, k, x) =>
    let w := (keySlot k, keyLayer k, keyPos k)
    let add := fun (e : Nat × Rq) =>
      if e.2.head == some hd && !e.2.rebuilds.contains w then (e.1, { e.2 with rebuilds := e.2.rebuilds ++ [w] }) else e
    let s1 := { s with rqt := { s.rqt with entries := s.rqt.entries.map add } }
    if x.shared then { s1 with kv := { s1.kv with pfx := mmod s1.kv.pfx x.pfx fun y => { y with rebuilding := true } } } else s1

/-- R209: recovery by kind; once for each frame, a second reader waits for the one in progress. -/
def State.recover (s : State) (f va : Nat) (step : Option Nat) : State :=
  match s.frame f with
  | none => s
  | some x =>
    if x.kind = 1 ∨ x.kind = 2 then
      let s1 := match mget s.lp.recov f with
        | some r => { s with lp := { s.lp with recov := mput s.lp.recov f { r with steps := r.steps ++ step.toList } } }
        | none => { s with lp := { s.lp with
            recov := mput s.lp.recov f { kind := x.kind, owners := s.frameOwners x, va := va, steps := step.toList } } }.count (frameGroup f)
              0x078 1
      let s2 := if x.kind = 1 then s1.askRebuild f step else s1
      s2.dataDetect? step
    else if x.kind = 3 then s.failStep? step stFAULT 8
    else if x.kind = 4 then
      match mget s.lp.recov f with
      | some r => { s with lp := { s.lp with recov := mput s.lp.recov f { r with steps := r.steps ++ step.toList } } }
      | none => { s with lp := { s.lp with
          recov := mput s.lp.recov f { kind := 4, owners := s.frameOwners x, va := va, steps := step.toList } } }.count (frameGroup f) 0x078 1
    else (s.memDetect x va).failStep? step stFAULT 0

/-- One line read for a context: what it delivers and how (3: nothing, the translation failed and zeros come back). -/
def State.ctxRead (s : State) (n c va : Nat) (host : Bool) (o : LineOut) (step : Option Nat) : State × List Nat × Nat :=
  match s.access n c va false host with
  | (s1, .error code) => (s1.failStep? step (xltStatus code) code, List.replicate 64 0, 3)
  | (s1, .ok pa) =>
    let f := pa / 4096
    let key := match s1.frame f with
      | some x => (s1.keyIn (slotOfOwner x.otype x.owner)).getD 0
      | none => 0
    let (s2, bs, how) := s1.lineRead (pa / 64) key o
    (if how = 0 then s2 else s2.recover f va step, bs, how)

/-- Bytes written for a context within one line. -/
def State.ctxWrite (s : State) (n c va : Nat) (host : Bool) (bs : List Nat) (srcBad : Bool) (o : LineOut) (step : Option Nat) :
    State × Bool :=
  match s.access n c va true host (max 1 bs.length) with
  | (s1, .error code) => (s1.failStep? step (xltStatus code) code, false)
  | (s1, .ok pa) =>
    let key := match s1.frame (pa / 4096) with
      | some x => (s1.keyIn (slotOfOwner x.otype x.owner)).getD 0
      | none => 0
    (s1.lineWrite (pa / 64) key (pa % 64) bs srcBad o, true)

/-- Does a VA stay in the local space (R202)? -/
def State.isLocalVa (s : State) (va : Nat) : Bool := va / 2 ^ 48 != 0 || bits va 42 6 == s.rd pgCAB F.CAB_INDEX

/-- R195: a line read of a context, by a unit of die `die`, for a step if it has one. -/
def execLpddrRead (die : Fin 4) (ctx : Fin 1024) (va : Nat) (step : Option Nat) (o : LineOut) (s : State) : Result :=
  .next (if !s.hasUnit (pgDIE die.val) || !s.isLocalVa va then s
  else
    let (s1, bs, how) := s.ctxRead die.val ctx.val va false o step
    { s1 with lp := { s1.lp with line := bs, lineHow := how } })

/-- R196: a write of at most 64 bytes within one line. -/
def execLpddrWrite (die : Fin 4) (ctx : Fin 1024) (va : Nat) (data : List Byte) (srcBad : Bool) (step : Option Nat) (o : LineOut)
    (s : State) : Result :=
  .next (if !s.hasUnit (pgDIE die.val) || !s.isLocalVa va || data.isEmpty || decide (64 < va % 64 + data.length) then s
  else (s.ctxWrite die.val ctx.val va false (data.map fun b => b.toNat) srcBad o step).1)

/-- Does a loaded cask cover the frame (R443)? -/
def State.caskFrame (s : State) (f : Nat) : Bool :=
  s.casks.any fun e => e.2.frames.any fun x => x.1 == frameDie f && decide (x.2.1 ≤ f % 2 ^ 25 ∧ f % 2 ^ 25 < x.2.1 + x.2.2)

/-- A frame written whole, in full lines. -/
def State.putFrame (s : State) (f : Nat) (bs : List Byte) : State :=
  match s.frame f with
  | none => s
  | some x =>
    let key := (s.keyIn (slotOfOwner x.otype x.owner)).getD 0
    (List.range 64).foldl (fun t i => t.lineWrite (f * 64 + i) key 0
      ((List.range 64).map fun j => (bs.getD (64 * i + j) 0).toNat) false {}) s

/-- R209, R443: a recovery ends. `data` is what the trusted source gives: the cask's chunk, whose tag was verified, or the verified
source of a code frame; none where it fails twice or is no longer there. A KV frame's page has been rebuilt by its recompute chunk. -/
def execFrameRecoveryDone (die : Fin 4) (frame : Nat) (data : Option (List Byte)) (s : State) : Result :=
  .next (
    let f := die.val * 2 ^ 25 + frame % 2 ^ 25
    match mget s.lp.recov f, s.frame f with
    | some r, some x =>
      let s0 := if r.kind = 2 && s.caskFrame f then s.count pgGAU (if data.isSome then 0x068 else 0x06C) (if data.isSome then 1 else 2) else s
      let done := { s0 with lp := { s0.lp with recov := mdel s0.lp.recov f } }
      if r.kind = 1 then (if data.isSome then done else s)
      else match (if r.kind = 2 && !s.caskFrame f then none else data) with
        | some bs => done.putFrame f bs
        | none => r.steps.foldl (fun t id => t.failStep id stFAULT 0) (done.memDetect x r.va)
    | _, _ => s)

/-! The mapping commands (R199, R207) -/

/-- The frame's lines hold raw zeros. -/
def State.frameZero (s : State) (f : Nat) : Bool :=
  !(s.lp.tag.any fun e => e.1 / 64 == f) && !(s.lp.bad.any fun e => e.1 / 64 == f)

/-- A frame filled with raw zeros and valid CRCs. -/
def State.zeroFrames (s : State) (p : Nat → Bool) : State :=
  { s with lp := { s.lp with
    mem := mfilterOut (fun k => p (k / 4096)) s.lp.mem
    tag := mfilterOut (fun k => p (k / 64)) s.lp.tag
    bad := mfilterOut (fun k => p (k / 64)) s.lp.bad } }

def runFrames (r : FrameRun) : List Nat := (List.range r.count).map fun i => r.die * 2 ^ 25 + r.first + i
def inRun (r : FrameRun) (f : Nat) : Bool := f / 2 ^ 25 == r.die && decide (r.first ≤ f % 2 ^ 25 ∧ f % 2 ^ 25 < r.first + r.count)

/-- The die of a frame command, when it is there. -/
def State.dieThere (s : State) (n : Nat) : Bool := decide (n < 4) && s.hasUnit (pgDIE n)

/-- May frames be given to this owner (R407)? A domain must exist. -/
def State.ownerOpen (s : State) (isDomain : Bool) (owner : Nat) : Bool :=
  if isDomain then (mget s.lp.keys (1024 + owner)).isSome else s.ctxOpen owner

/-- A frame is free for assignment: populated, listed nowhere, on a channel in service. -/
def State.frameFree (s : State) (f : Nat) : Bool := s.populated f && (s.frame f).isNone && !s.chanRetired (frameDie f) (frameChan f)

/-- Frames of a fill in progress: a mapping command that meets one waits. -/
def State.runClearing (s : State) (r : FrameRun) : Bool :=
  s.lp.clears.any fun c => c.run.die == r.die && decide (c.run.first < r.first + r.count ∧ r.first < c.run.first + c.run.count)

/-- The runs of frames get their owner. -/
def State.giveFrames (s : State) (r : FrameRun) (otype owner kind : Nat) (clearing : Bool) : State :=
  (runFrames r).foldl (fun t f => t.setFrame f { otype := otype, owner := owner, kind := kind, clearing := clearing }) s

/-- A clearing fill of frames begins. -/
def State.addClear (s : State) (r : FrameRun) (owner : Option Nat) (kind : Nat) : State :=
  { s with lp := { s.lp with clears := s.lp.clears ++ [{ run := r, owner := owner, kind := kind }] } }

/-- The frame-table entries of frames that a fill has cleared: their new owner's, free, or retired where RETIRE_PEND was set (R210). -/
def State.endClear (s : State) (c : Clear) : State :=
  match c.owner with
  | some _ => (runFrames c.run).foldl (fun t f => t.modFrame f fun x => { x with clearing := false }) s
  | none => (runFrames c.run).foldl (fun t f =>
      match t.frame f with
      | some x =>
        if x.pend then (t.setFrame f { otype := 3, owner := 0, kind := 0 }).bump (pgXLT c.run.die) F.XLT_RETIRED_FRAMES 1
        else { t with lp := { t.lp with frames := mdel t.lp.frames f } }
      | none => t) s

def execFrameAssign (fn : Fin 32) (tag : Nat) (isDomain : Bool) (owner kind : Nat) (r : FrameRun) (s : State) : Result :=
  .next (s.commandUnless (s.runClearing r) fn.val tag 0x10 fun t =>
    let fs := runFrames r
    let ot := boolNat isDomain
    if !t.dieThere r.die then t.respond fn.val tag stNOUNIT 0
    else
      let done := fun (u : State) => u.count (pgXLT r.die) 0x068 1
      if !t.ownerOpen isDomain owner then (done t).respond fn.val tag stDENIED 0
      else if decide (2 ^ 25 < r.first + r.count) || decide (5 ≤ kind) || fs.any fun f => !t.frameFree f then
        (done t).respond fn.val tag stFAULT 0
      else if fs.all t.frameZero then (done (t.giveFrames r ot owner kind false)).respond fn.val tag stCOMPLETE 0
      else
        let t1 := t.giveFrames r ot owner kind true
        (t1.addClear r (some (2048 * ot + owner)) kind).hold fn.val tag (.frames r.die r.first r.count) 0)

def execFrameRelease (fn : Fin 32) (tag : Nat) (isDomain : Bool) (owner : Nat) (r : FrameRun) (s : State) : Result :=
  .next (s.commandUnless (s.runClearing r) fn.val tag 0x11 fun t =>
    let fs := runFrames r
    let ot := boolNat isDomain
    if !t.dieThere r.die then t.respond fn.val tag stNOUNIT 0
    else
      let done := fun (u : State) => u.count (pgXLT r.die) 0x068 1
      let owned := fun f => match t.frame f with
        | some x => x.otype == ot && x.owner == owner
        | none => false
      let held := fun f => match t.frame f with
        | some x => x.maps != 0 || x.pinned
        | none => false
      if fs.any fun f => !owned f then (done t).respond fn.val tag stDENIED 0
      else if fs.any held then (done t).respond fn.val tag stFAULT 0
      else if fs.isEmpty then (done t).respond fn.val tag stCOMPLETE 0
      else
        let t1 := fs.foldl (fun u f => u.modFrame f fun x => { x with clearing := true }) t
        (t1.addClear r none 0).hold fn.val tag (.frames r.die r.first r.count) 0)

/-- R199: the clearing fill of a run of frames ends. -/
def execFrameClearDone (die : Fin 4) (first : Nat) (s : State) : Result :=
  .next (match s.lp.clears.find? fun c => c.run.die == die.val && c.run.first == first with
  | none => s
  | some c =>
    let s1 := ({ s with lp := { s.lp with clears := s.lp.clears.erase c } }.zeroFrames (inRun c.run)).count (pgXLT die.val) 0x068 1
    let s2 := s1.endClear c
    s2.recount.wake (fun w => match w with
      | .frames d f n => d == die.val && f == first && n == c.run.count
      | _ => false) stCOMPLETE)

/-- System frames of a die are taken for tables; SYS_LOW when fewer than 64 stay free (R219). -/
def State.takeSys (s : State) (n k : Nat) : State :=
  let old := s.rd (pgXLT n) F.XLT_SYS_FREE
  let s1 := s.wr (pgXLT n) F.XLT_SYS_FREE (old - k)
  if 64 ≤ old ∧ old - k < 64 then s1.raise (pgXLT n) 4 else s1

/-- Keys of the L1 and L0 tables of a VA. -/
def l1Key (c va : Nat) : Nat := c * 2 ^ 23 + bits va 30 12
def l0Key (c va : Nat) : Nat := c * 2 ^ 23 + 2 ^ 22 + bits va 21 21

/-- The tables that a mapping still needs. -/
def State.tablesNeeded (s : State) (c va : Nat) (big : Bool) : List Nat :=
  (if (mget s.lp.tabs (l1Key c va)).isNone then [l1Key c va] else []) ++
    (if !big && (mget s.lp.tabs (l0Key c va)).isNone then [l0Key c va] else [])

/-- The frames that a leaf maps. -/
def State.leafFrames (s : State) (x : Leaf) (big : Bool) : List Nat :=
  if big then (List.range 512).map (s.bigFrame x) else [x.pa]

/-- Every look-aside buffer drops a VA of a context (R207). -/
def State.dropLab (s : State) (key : Nat) : State :=
  { s with lp := { s.lp with lab := s.lp.lab.filter fun e => e % 2 ^ 42 != key } }

/-- A leaf is cleared: the frames it mapped count one mapping less. -/
def State.clearLeaf (s : State) (key : Nat) (x : Leaf) (big : Bool) : State :=
  let s1 := (s.leafFrames x big).foldl (fun t f => t.modFrame f fun y => { y with maps := y.maps - 1 }) s
  { s1 with lp := { s1.lp with leaves := mdel s1.lp.leaves key } }.dropLab key

/-- R207: a leaf is written; one that stood there is replaced. -/
def State.writeLeaf (s : State) (key va : Nat) (x : Leaf) (big : Bool) : State :=
  let s1 := match mget s.lp.leaves key with
    | some y => s.clearLeaf key y big
    | none => s
  let s2 := (s1.leafFrames x big).foldl (fun t f => t.modFrame f fun y =>
    { y with maps := y.maps + 1, va := if y.maps = 0 then bits va 12 30 else y.va }) s1
  { s2 with lp := { s2.lp with leaves := mput s2.lp.leaves key x } }.dropLab key

/-- XMAP: `pa` is the physical address of the frame, or of the base of a 2 MiB page. -/
def execXmap (fn : Fin 32) (tag : Nat) (ctx : Fin 1024) (va pa : Nat) (big w h : Bool) (s : State) : Result :=
  .next (s.command fn.val tag 0x12 fun t =>
    let c := ctx.val
    let n := pa / 2 ^ 37
    if !t.dieThere n then t.respond fn.val tag stNOUNIT 0
    else
      let done := fun (u : State) => u.count (pgXLT n) 0x068 1
      let x0 : Leaf := { pa := pa / 4096, w := w, h := h, rset := if big then t.rd (pgXLT n) F.XLT_RSET_NOW else 0 }
      -- TABLE frames get no W (R259)
      let table := (t.leafFrames x0 big).any fun f => (t.frame f).any fun y => y.kind == 3
      let x := { x0 with w := w && !table }
      let need := t.tablesNeeded c va big
      if !t.ctxOpen c || ((t.leafFrames x big).any fun f => !t.ownsFrame c f) || (h && t.ctxField F.CTXS_ENTRY_SEALED c == 1) then
        (done t).respond fn.val tag stDENIED 0
      else if (t.granule c va).isSome then (done t).respond fn.val tag stFAULT 0
      else if t.rd (pgXLT n) F.XLT_SYS_FREE < 2 * need.length then (done t).respond fn.val tag stREFUSED_MEM 0
      else
        let t1 := need.foldl (fun u k => { u with lp := { u.lp with tabs := nput u.lp.tabs k (n + 1) } }) (t.takeSys n (2 * need.length))
        (done (t1.writeLeaf (if big then bigKey c va else smallKey c va) va x big)).respond fn.val tag stCOMPLETE 0)

def execXunmap (fn : Fin 32) (tag : Nat) (ctx : Fin 1024) (va : Nat) (s : State) : Result :=
  .next (s.command fn.val tag 0x13 fun t =>
    match mget t.lp.leaves (bigKey ctx.val va), mget t.lp.leaves (smallKey ctx.val va) with
    | some x, _ => ((t.clearLeaf (bigKey ctx.val va) x true).count (pgXLT (frameDie x.pa)) 0x068 1).respond fn.val tag stCOMPLETE 0
    | none, some x => ((t.clearLeaf (smallKey ctx.val va) x false).count (pgXLT (frameDie x.pa)) 0x068 1).respond fn.val tag stCOMPLETE 0
    | none, none => t.respond fn.val tag stFAULT 0)

/-! The patrol (R211–R213) -/

/-- Clocks of a patrol pass. -/
def State.patrolClk (s : State) (pg : Nat) : Nat := s.rd pg F.LPG_PATROL_HOURS * 3600 * 1000 * clkMs

/-- PATROL_LATE, when a group's position lies more than 1 % of a pass behind a uniform schedule. -/
def State.patrolLate (s : State) (pg : Nat) : State :=
  let clk := s.patrolClk pg
  let due := (s.now - nget s.lp.patClk pg) * linesPerChannel
  let late := decide ((s.rd pg F.LPG_PATROL_POS * 100 + linesPerChannel) * clk < due * 100)
  if late ∧ nget s.lp.patLate pg = 0 then { s with lp := { s.lp with patLate := nput s.lp.patLate pg 1 } }.raise pg 3
  else if late then s
  else { s with lp := { s.lp with patLate := mdel s.lp.patLate pg } }

/-- The position of a group: the least of its channels in service. -/
def State.showPatrol (s : State) (n g : Nat) : State :=
  let ps := ((List.range 8).filter fun c => !s.chanRetired n (8 * g + c)).map fun c => nget s.lp.patPos (32 * n + 8 * g + c)
  s.wr (pgLPG n g) F.LPG_PATROL_POS (ps.foldl min (ps.headD 0))

/-- R211, R212: the patrol reads the next line of a channel. `fail1` and `fail2`: the read and its repetition mismatch; `replaced`: a full-line write to
the line came before the report. -/
def execPatrolRead (die : Fin 4) (group : Fin 4) (ch : Fin 8) (fail1 fail2 replaced : Bool) (s : State) : Result :=
  .next (
    let pg := pgLPG die.val group.val
    let chan := 8 * group.val + ch.val
    let gch := 32 * die.val + chan
    let pos := nget s.lp.patPos gch
    if !s.ready || !s.hasUnit (pgDIE die.val) then s
    else if !s.on pg F.LPG_PATROL_EN then s.patrolLate pg
    else if s.chanRetired die.val chan || decide (linesPerChannel ≤ pos) then s
    else
      let f := die.val * 2 ^ 25 + pos / 64 * 32 + chan
      let l := f * 64 + pos % 64
      let s0 := { s with lp := { s.lp with patPos := nput s.lp.patPos gch (pos + 1) } }
      let s1 := (s0.showPatrol die.val group.val).count pg 0x06C 1
      let how := if nget s1.lp.bad l ≠ 0 then nget s1.lp.bad l else if fail1 && fail2 then 2 else 0
      let s2 :=
        if how = 0 then (if fail1 then s1.count pg 0x05C 1 else s1)
        else if replaced then s1
        else
          let s2 := ((s1.confirm f (how == 1)).raise pg 2).count pg 0x070 1
          match s2.frame f with
          | none => { s2 with lp := { s2.lp with tag := mdel s2.lp.tag l, bad := mdel s2.lp.bad l, mem := bzero s2.lp.mem (64 * l) 64 } }
          | some x => if x.kind = 3 ∨ x.kind = 4 then
              { s2 with lp := { s2.lp with bad := mdel s2.lp.bad l } }.raise (pgXLT die.val) 0 |>.count (pgXLT die.val) 0x058 1
            else s2.recover f (x.va * 4096 + pos % 64 * 64) none
      s2.patrolLate pg)

/-- R212: a pass ends when every channel in service has been read: DETECT fields and channel counts start again. -/
def execPatrolPassEnd (die : Fin 4) (group : Fin 4) (s : State) : Result :=
  .next (
    let pg := pgLPG die.val group.val
    let chs := (List.range 8).filter fun c => !s.chanRetired die.val (8 * group.val + c)
    if chs.isEmpty || chs.any fun c => nget s.lp.patPos (32 * die.val + 8 * group.val + c) != linesPerChannel then s
    else
      let mine := fun ch => ch / 8 == 4 * die.val + group.val
      let s1 := { s with lp := { s.lp with
        patPos := mfilterOut mine s.lp.patPos
        chDet := mfilterOut mine s.lp.chDet
        patClk := nput s.lp.patClk pg s.now
        patLate := mdel s.lp.patLate pg
        frames := s.lp.frames.map fun (e : Nat × Frame) => if frameGroup e.1 = pg then (e.1, { e.2 with detect := 0 }) else e } }
      (s1.wr pg F.LPG_PATROL_POS 0).wr pg F.LPG_PATROL_PASSES (s1.rd pg F.LPG_PATROL_PASSES + 1))

end Sys2Proof.Machine
end

