-- ==== Sys2Proof/Machine/Kv.lean ====
section
/-! DEFINITION. KV pools, list heads, generations, the prefix tree and the cellar tier (R253–R289). -/

namespace Sys2Proof.Machine

/-! Geometry (R253–R255, R258) -/

/-- PAGE_BYTES / 4,096 and SUM_BYTES of a geometry. -/
def Geom.pageUnits (g : Geom) : Nat := ceilDiv (2 * g.block) 4096
def Geom.sumBytes (g : Geom) : Nat := ceilDiv (g.kvh * 4 * g.headDim) 64 * 64

def Geom.poolOf (g : Geom) (j : Nat) : Nat := g.pools.getD j 0

/-- The geometry in a template or list head of at least 64 bytes. -/
def geomOf (b : List Nat) : Geom :=
  let le := fun i n => (List.range n).foldr (fun k a => b.getD (i + k) 0 + 256 * a) 0
  { kvVa := le 8 8, model := le 0x10 4, layers := le 0x14 1, dieSet := bits (le 0x15 1) 0 4, fmt := bits (le 0x16 1) 0 4,
    share := nbit (le 0x16 1) 4, h := nbit (le 0x16 1) 5, kvh := le 0x17 1, headDim := le 0x18 2, units := le 0x1A 2,
    pagesMax := le 0x1C 4, logVa := le 0x20 8, base := le 0x28 4, pools := (List.range 4).map fun j => le (0x30 + 2 * j) 2 }

/-- The window's granules, as numbers in the context's table of 4,096 (R267). -/
def Geom.granules (g : Geom) : List Nat :=
  (List.range (ceilDiv (g.dies.length * g.layers * g.span) (2 ^ 30))).map fun i => bits g.kvVa 30 12 + i

/-- A geometry inside R253 and R258. -/
def Geom.ok (g : Geom) : Bool :=
  decide (1 ≤ g.layers ∧ g.layers ≤ 252 ∧ 1 ≤ g.kvh ∧ g.kvh ≤ 16 ∧ 32 ≤ g.headDim ∧ g.headDim ≤ 256 ∧ g.headDim % 32 = 0) &&
  (g.fmt == 2 || g.fmt == 3 || g.fmt == 0xB) && decide (g.kvh * g.headDim * g.elem ≤ 2048) && g.dieSet != 0 &&
  g.units == g.pageUnits && decide (1 ≤ g.pagesMax ∧ g.pagesMax ≤ 262144) && g.base % 64 == 0 && g.kvVa % 2 ^ 30 == 0

/-! Pools (R256, R257) -/

def State.pool (s : State) (p : Nat) : Option KvPool := mget s.kv.pools p
def State.modPool (s : State) (p : Nat) (f : KvPool → KvPool) : State := { s with kv := { s.kv with pools := mmod s.kv.pools p f } }
def State.head (s : State) (hd : Nat) : Option Head := mget s.kv.heads hd
def State.setHead (s : State) (hd : Nat) (h : Head) : State := { s with kv := { s.kv with heads := mput s.kv.heads hd h } }
def State.modHead (s : State) (hd : Nat) (f : Head → Head) : State := { s with kv := { s.kv with heads := mmod s.kv.heads hd f } }

/-- Blocks of 2 MiB of the cellar tier, and those in use (R498). -/
def State.cellarBlocks (s : State) : List Nat := s.kv.ranges.flatMap fun r => (List.range (r.2 / 2 ^ 21)).map fun i => r.1 + i * 2 ^ 21
def State.blockRecs (s : State) (b : Nat) : List CellarRec := (s.kv.recs.map (·.2)).filter fun x => x.slot / 2 ^ 21 == b / 2 ^ 21

/-- What the walker pages and the HOST page show of the pools, the prefix table and the cellar tier (R289, R499). -/
def State.showKv (s : State) : State :=
  let s1 := s.diesUp.foldl (fun t n =>
    let mine := (t.kv.pools.map (·.2)).filter fun p => p.die == n
    let home := t.kv.homes.contains n
    let cellar := (t.kv.recs.map (·.2)).filter fun r => (t.pool r.pool).any fun p => p.die == n
    (((((t.wr (pgKVW n) F.KVW_POOLS mine.length).wr (pgKVW n) F.KVW_PAGES_FREE (sumBy (fun p => p.free.length) mine)).wr (pgKVW n)
      F.KVW_PAGES_CELLAR cellar.length).wr (pgKVW n) F.KVW_PFX_HOME (boolNat home)).wr (pgKVW n) F.KVW_PFX_USED
      (if home then t.kv.pfx.length else 0)).wr (pgKVW n) F.KVW_PFX_ENTRIES (if home then 262144 else 0)) s
  (s1.wr pgHOST F.HOST_CELLAR_RANGES s.kv.ranges.length).wr pgHOST F.HOST_CELLAR_BLOCKS_FREE
    (s.cellarBlocks.filter fun b => (s.blockRecs b).isEmpty).length

/-- The page whose counters take the prefix tree's events: the lowest die that holds the table. -/
def State.pfxPage (s : State) : Nat := pgKVW ((s.kv.homes.foldl min (s.kv.homes.headD 0)))

/-- An entry leaves the prefix table; its pages return to the domain pools (R281). -/
def State.dropPfx (s : State) (i : Nat) : State :=
  match mget s.kv.pfx i with
  | none => s
  | some x =>
    let s1 := { s with kv := { s.kv with pfx := mdel s.kv.pfx i } }
    let s2 := match x.parent with
      | some p => { s1 with kv := { s1.kv with pfx := mmod s1.kv.pfx p fun y => { y with children := y.children - 1 } } }
      | none => s1
    x.pages.foldl (fun t e => t.modPool (x.pools.getD (e.1 / 256) 0) fun p => { p with free := e.2.loc :: p.free, sumUsed := p.sumUsed - e.2.sum }) s2

def Pfx.evictable (x : Pfx) : Bool := x.refs == 0 && x.children == 0

/-- The evictable entry of some with the oldest LAST_TICK. -/
def oldestPfx (l : List (Nat × Pfx)) : Option Nat :=
  (l.filter fun e => e.2.evictable).foldl (fun a e => match a with
    | none => some e
    | some b => if e.2.lastTick < b.2.lastTick then some e else a) none |>.map (·.1)

/-- R281: a domain pool below its low watermark evicts, oldest first. -/
def State.evictFor (s : State) (p dom : Nat) : Nat → State
  | 0 => s
  | fuel + 1 =>
    if (s.pool p).any fun x => decide (x.free.length < x.low) then
      match oldestPfx (s.kv.pfx.filter fun e => e.2.dom == dom && e.2.pools.contains p) with
      | none => s
      | some i => ((s.dropPfx i).count s.pfxPage 0x07C 1).evictFor p dom fuel
    else s

/-- A page is taken from a pool; POOL_LOW when its free pages fall below the low watermark (R256, R281, R289). -/
def State.takePage (s : State) (p : Nat) : State × Option Nat :=
  match s.pool p with
  | none => (s, none)
  | some x =>
    match x.free with
    | [] => (s, none)
    | l :: rest =>
      let loc := rest.foldl min l
      let s1 := s.modPool p fun y => { y with free := x.free.erase loc }
      let s2 := if x.free.length = x.low then s1.raise (pgKVW x.die) 1 else s1
      let s3 := if x.isDomain then s2.evictFor p x.owner s2.kv.pfx.length else s2
      (s3, some loc)

/-- A page goes back to its pool; one with a frame that has RETIRE_PEND is retired instead (R210, R274). -/
def State.putPage (s : State) (p : Nat) (e : PEnt) : State :=
  match s.pool p with
  | none => s
  | some x =>
    let s1 := s.modPool p fun y => { y with sumUsed := y.sumUsed - e.sum }
    if e.state = 2 then s1.modPool p fun y => { y with free := e.loc :: y.free }
    else
      let fs := (List.range x.units).map fun i => x.die * 2 ^ 25 + e.loc + i
      let bad := fs.filter fun f => (s1.frame f).any fun y => y.pend || y.otype == 3
      if bad.isEmpty then s1.modPool p fun y => { y with free := e.loc :: y.free }
      else
        let s2 := bad.foldl (fun t f => (t.setFrame f { otype := 3, owner := 0, kind := 0 }).bump (pgXLT x.die) F.XLT_RETIRED_FRAMES
          (if (t.frame f).any fun y => y.otype == 3 then 0 else 1)) s1
        s2.modPool p fun y => { y with total := y.total - 1 }

/-! List heads: system frames (R258–R260) -/

/-- The frames that a head takes on the die of slot `j`, each structure a mirrored pair: the directories, and each distinct block index (two
frames) and block of the four generations and the staging copy. -/
def Head.framesOn (h : Head) (j : Nat) : Nat :=
  let maps := (h.staging :: h.slots).map fun m => m.filter fun e => keySlot e.1 == j
  let blocks := (maps.flatMap fun m => ((m.map fun e => e.1 / 256).eraseDups).map fun b => (b, m.filter fun e => e.1 / 256 == b)).eraseDups
  let indexes := (maps.flatMap fun m => ((m.map fun e => keyLayer e.1).eraseDups).map fun l => (l, m.filter fun e => keyLayer e.1 == l)).eraseDups
  2 * (5 + blocks.length + 2 * indexes.length)

/-- System frames of a die go back. -/
def State.giveSys (s : State) (n k : Nat) : State := s.bump (pgXLT n) F.XLT_SYS_FREE k

/-- The system frames of a head follow its structures. -/
def State.chargeHead (s : State) (hd : Nat) : State :=
  match s.head hd with
  | none => s
  | some h =>
    let want := (List.range h.geom.dies.length).map fun j => h.framesOn j + (if h.geom.dies.getD j 0 = h.die then 2 else 0)
    let s1 := (List.range h.geom.dies.length).foldl (fun t j =>
      let n := h.geom.dies.getD j 0
      let old := h.charge.getD j 0
      let new := want.getD j 0
      if old < new then t.takeSys n (new - old) else t.giveSys n (old - new)) s
    s1.setHead hd { h with charge := want }

/-! Edits (R260, R263) -/

/-- An edit of the staging copy: the entry at `k` becomes `e`, or goes; what it named before is queued under the next generation. -/
def State.edit (s : State) (hd k : Nat) (e : Option PEnt) (release : Bool) : State :=
  match s.head hd with
  | none => s
  | some h =>
    let gone := match mget h.staging k with
      | some old => if release then [{ gen := h.gen + 1, pool := h.geom.poolOf (keySlot k), ent := old }] else []
      | none => []
    let m := match e with
      | some x => mput h.staging k x
      | none => mdel h.staging k
    s.setHead hd { h with staging := m, edited := true, freed := h.freed ++ gone }

/-- What a removed entry named is given back (R263, R281). -/
def State.freeEnt (s : State) (x : Freed) : State :=
  if x.ent.shared then
    let s1 := { s with kv := { s.kv with pfx := mmod s.kv.pfx x.ent.pfx fun y => { y with refs := y.refs - 1 } } }
    -- entries of a domain that has ended go with their last reference
    match mget s1.kv.pfx x.ent.pfx with
    | some y => if y.refs = 0 ∧ (mget s1.kv.domains y.dom).all (·.ended) = true then s1.dropPfx x.ent.pfx else s1
    | none => s1
  else if x.ent.state = 1 ∨ x.ent.state = 2 ∨ x.ent.state = 4 then s.putPage x.pool x.ent
  else if x.ent.state = 3 then { s with kv := { s.kv with recs := mdel s.kv.recs x.ent.loc } }
  else s

/-- No reader is left of a generation older than `gen`. -/
def Head.unread (h : Head) (gen : Nat) : Bool :=
  decide (gen ≤ h.gen) && (List.range 4).all fun i => h.readers.getD i 0 == 0 || decide (gen ≤ h.slotGen.getD i 0)

/-- R263: what no reader needs any more is released. A shared page's reference falls once for each page set, by its first page. -/
def State.releaseFreed (s : State) (hd : Nat) : State :=
  match s.head hd with
  | none => s
  | some h =>
    let (go, stay) := h.freed.partition fun x => h.unread x.gen
    (go.foldl (fun t x => t.freeEnt x) (s.setHead hd { h with freed := stay })).showKv

/-! Publication (R261, R264, R266) -/

/-- The prefix key of a position (R277). -/
def prefixKey (domKey prev model : Nat) (tokens : List Nat) : Nat := Config.digest 1 (domKey :: prev :: model :: tokens) % 2 ^ 128

/-- The domain in whose tree a head takes part (R276, R277, R282), with its number. -/
def State.treeOf (s : State) (h : Head) : Option (Nat × Dom) :=
  match s.domainOf h.ctx with
  | none => none
  | some d => match mget s.kv.domains d with
    | some x =>
      let pools := (List.range h.geom.dies.length).map h.geom.poolOf
      if h.geom.share && h.geom.base == 0 && !x.ended && pools.all fun p => (s.pool p).any fun y => y.isDomain && y.owner == d then some (d, x)
      else none
    | none => none

/-- The four entries of a key's bucket (R278). -/
def Dom.bucket (d : Dom) (key : Nat) : List Nat := (List.range 4).map fun w => d.base + 4 * (key % 65536 % (d.size / 4)) + w

/-- The valid entry of a domain that holds a key. -/
def State.pfxFind (s : State) (d : Nat) (x : Dom) (key : Nat) : Option Nat :=
  (x.bucket key).find? fun i => (mget s.kv.pfx i).any fun y => y.key == key && y.dom == d

/-- The key of the position after a chain of attached entries. -/
def State.nextKey (s : State) (x : Dom) (model : Nat) (chain log : List Nat) : Nat :=
  let prev := match chain.getLast? with
    | some i => ((mget s.kv.pfx i).map fun (y : Pfx) => y.key).getD 0
    | none => 0
  prefixKey x.hashKey prev model ((log.drop (64 * chain.length)).take 64)

/-- A list takes an entry's pages at the position after its chain. -/
def State.attachPos (s : State) (hd i : Nat) (release : Bool) : State :=
  match s.head hd, mget s.kv.pfx i with
  | some h, some y =>
    let p := h.chain.length
    let s1 := y.pages.foldl (fun t e => t.edit hd (e.1 * 2 ^ 18 + p) (some { e.2 with shared := true, pfx := i }) release) s
    let s2 := s1.modHead hd fun g => { g with chain := g.chain ++ [i] }
    { s2 with kv := { s2.kv with pfx := mput s2.kv.pfx i { y with refs := y.refs + y.pages.length, lastTick := s.tick } } }
  | _, _ => s

/-- R280: the next position of a chain is offered; `none` when the offers of this publication end. -/
def State.offerOne (s : State) (hd : Nat) : Option State :=
  match s.head hd with
  | none => none
  | some h =>
    match s.treeOf h with
    | none => none
    | some (d, x) =>
      let p := h.chain.length
      let pages := (List.range (h.geom.dies.length)).flatMap fun j => (List.range h.geom.layers).map fun l => (j * 256 + l, mget h.staging (pkey j l p))
      let full := pages.all fun e => e.2.any fun y => y.fill == 64 && y.state == 1 && !y.shared
      if !full then none
      else
        let key := s.nextKey x h.geom.model h.chain h.log
        let s0 := s.count s.pfxPage 0x070 1
        match s0.pfxFind d x key with
        | some i => if (mget s0.kv.pfx i).any (·.rebuilding) then none else some ((s0.attachPos hd i true).count s.pfxPage 0x074 1)
        | none =>
          let ways := x.bucket key
          let free := ways.find? fun i => (mget s0.kv.pfx i).isNone
          let way := free.orElse fun _ => oldestPfx (s0.kv.pfx.filter fun e => ways.contains e.1)
          match way with
          | none => some ((s0.raise s.pfxPage 2).modHead hd fun g => { g with waiting := g.waiting })
          | some i =>
            let s1 := if free.isNone then (s0.dropPfx i).count s.pfxPage 0x07C 1 else s0
            let own : AMap PEnt := pages.filterMap fun e => e.2.map fun y => (e.1, { y with shared := true, pfx := i })
            let ent : Pfx := { key := key, parent := h.chain.getLast?, pos := p, refs := own.length, dom := d, model := h.geom.model,
                               pages := own, pools := (List.range h.geom.dies.length).map h.geom.poolOf, lastTick := s.tick }
            let s2 := { s1 with kv := { s1.kv with pfx := mput s1.kv.pfx i ent } }
            let s3 := match ent.parent with
              | some q => { s2 with kv := { s2.kv with pfx := mmod s2.kv.pfx q fun y => { y with children := y.children + 1 } } }
              | none => s2
            let s4 := own.foldl (fun t e => t.edit hd (e.1 * 2 ^ 18 + p) (some e.2) false) s3
            some ((s4.modHead hd fun g => { g with chain := g.chain ++ [i] }).count s.pfxPage 0x078 1)

/-- The offers of one publication, in position order; they end where nothing more was attached or inserted. -/
def State.offers (s : State) (hd : Nat) : Nat → State
  | 0 => s
  | fuel + 1 =>
    match s.offerOne hd with
    | none => s
    | some t =>
      if ((t.head hd).map fun (h : Head) => h.chain.length) = ((s.head hd).map fun (h : Head) => h.chain.length) then t else t.offers hd fuel

/-- The look-aside lines of a walker that are tagged with a request's generation slot (R266): bits [28:27] of the tag. -/
def walkTag (n hd slot k : Nat) : Nat := n * 2 ^ 60 + hd % 2 ^ 28 * 2 ^ 30 + slot % 4 * 2 ^ 28 + k / 4 % 2 ^ 28

/-- R261: the staging copy of an edited list is published in a free generation slot, or waits for one (R264). -/
def State.publish (s : State) (hd : Nat) : State :=
  match s.head hd with
  | none => s
  | some h0 =>
    if !h0.edited then s
    else
      let slot := (List.range 4).find? fun i => i != h0.cur && h0.readers.getD i 0 == 0
      match slot with
      | none =>
        if h0.waiting then s
        else h0.geom.dies.foldl (fun t n => (t.raise (pgKVW n) 0).count (pgKVW n) 0x05C 1) (s.setHead hd { h0 with waiting := true })
      | some i =>
        let s1 := s.offers hd 4096
        match s1.head hd with
        | none => s1
        | some h =>
          let g := h.gen + 1
          let h1 := { h with slots := h.slots.set i h.staging, slotGen := h.slotGen.set i g, gen := g, cur := i, length := h.stagedLen,
                             edited := false, waiting := false }
          let s2 := s1.setHead hd h1
          let s3 := { s2 with
            kv := { s2.kv with lab := s2.kv.lab.filter fun x => x / 2 ^ 28 % 2 ^ 32 != hd % 2 ^ 28 * 4 + i }
            lp := { s2.lp with lab := s2.lp.lab.filter fun x => x % 2 ^ 42 / 2 ^ 29 != winTag hd i 0 / 2 ^ 29 } }
          let s4 := h.geom.dies.foldl (fun t n => t.count (pgKVW n) 0x058 1) s3
          (s4.chargeHead hd).releaseFreed hd

/-- The request that a list head belongs to. -/
def State.rqOfHead (s : State) (hd : Nat) : Option (Nat × Rq) := s.rqt.entries.find? fun e => e.2.head == some hd

/-- R261, R264: a request without a step in progress publishes; a publication that waited proceeds once a slot is free. -/
def execPlPublish (head : Nat) (s : State) : Result :=
  .next (if (s.rqOfHead head).any fun e => e.2.step.isSome then s else s.publish head)

/-- R263: pages, records and references whose last older reader has gone return. -/
def execFreeQueueRelease (head : Nat) (s : State) : Result := .next (s.releaseFreed head)

/-! Readers (R262) -/

def State.addReader (s : State) (hd slot : Nat) : State := s.modHead hd fun h => { h with readers := h.readers.set slot (h.readers.getD slot 0 + 1) }
def State.dropReader (s : State) (hd slot : Nat) : State := s.modHead hd fun h => { h with readers := h.readers.set slot (h.readers.getD slot 0 - 1) }

/-- R268: an access of a unit through a request's KV window: a line read, or a write of `data` within one line. Its reader comes and goes with it. -/
def execKvWindowAccess (die : Fin 4) (ctx : Fin 1024) (va : Nat) (data : Option (List Byte)) (host : Bool) (step : Option Nat) (o : LineOut)
    (s : State) : Result :=
  .next (if !s.hasUnit (pgDIE die.val) || !s.isLocalVa va || (s.granule ctx.val va).isNone then s
  else match data with
    | none =>
      let (s1, bs, how) := s.ctxRead die.val ctx.val va host o step
      { s1 with lp := { s1.lp with line := bs, lineHow := how } }
    | some d => if d.isEmpty || decide (64 < va % 64 + d.length) then s
      else (s.ctxWrite die.val ctx.val va host (d.map fun b => b.toNat) false o step).1)

/-! Hub reads and writes of context memory -/

/-- The die whose translation unit serves a hub access: that of the frame, else the lowest in service. -/
def State.vaDie (s : State) (c va : Nat) : Nat :=
  match s.xlate c va false false with
  | .ok pa => frameDie (pa / 4096)
  | .error _ => s.diesUp.headD 0

/-- `n` whole lines from a line-aligned VA; none when a line did not come back good. -/
def State.hubRead (s : State) (c va n : Nat) (o : LineOut := {}) (step : Option Nat := none) : State × Option (List Nat) :=
  (List.range n).foldl (fun a i =>
    let r := a.1.ctxRead (a.1.vaDie c (va + 64 * i)) c (va + 64 * i) false o step
    (r.1, if r.2.2 = 0 then a.2.map (· ++ r.2.1) else none)) (s, some [])

/-- Bytes written by the hub, line by line. -/
def State.hubWrite (s : State) (c va : Nat) (bs : List Nat) : State :=
  (linesOf va bs.length).foldl (fun t l =>
    let lo := max l va
    let hi := min (l + 64) (va + bs.length)
    (t.ctxWrite (t.vaDie c lo) c lo false ((bs.drop (lo - va)).take (hi - lo)) false {} none).1) s

/-- The hardware's writes into TABLE frames, which have no W: the token log (R273). -/
def State.tableWrite (s : State) (c va : Nat) (bs : List Nat) : State :=
  (linesOf va bs.length).foldl (fun t l =>
    let lo := max l va
    let hi := min (l + 64) (va + bs.length)
    match t.xlate c lo false false with
    | .ok pa =>
      let key := match t.frame (pa / 4096) with
        | some x => (t.keyIn (slotOfOwner x.otype x.owner)).getD 0
        | none => 0
      t.lineWrite (pa / 64) key (pa % 64) ((bs.drop (lo - va)).take (hi - lo)) false {}
    | .error _ => t) s

/-- Four bytes of a token. -/
def tokenBytes (ts : List Nat) : List Nat := ts.flatMap fun t => (List.range 4).map fun i => t / 256 ^ i % 256

/-- R273: tokens join the log. -/
def State.logAppend (s : State) (hd : Nat) (ts : List Nat) : State :=
  match s.head hd with
  | none => s
  | some h => (s.tableWrite h.ctx (h.geom.logVa + 4 * h.log.length) (tokenBytes ts)).setHead hd { h with log := h.log ++ ts }

/-! Appends (R244, R254–R257, R270) -/

/-- `n` free bytes (the layout of the step buffer, where keys and values come from, is not stated). -/
def State.freeBytes (s : State) (n : Nat) : State × List Nat :=
  ({ s with freeIdx := s.freeIdx + n }, (List.range n).map fun i => Config.freeNat (s.freeIdx + i) % 256)

/-- Bytes of a page written: frames of its pool, or the pinned banks of its vat. -/
def State.pageWrite (s : State) (die units : Nat) (e : PEnt) (off : Nat) (bs : List Nat) : State :=
  if e.state = 2 then
    match s.vatOf (pgFLOOR die (e.loc % 16)) (e.loc / 16 % 8) with
    | none => s
    | some pg => { s with vstore := bputList s.vstore (pg * 2 ^ 21 + e.loc / 128 * 4096 + off) (bs.map (BitVec.ofNat 8)) }
  else if units * 4096 < off + bs.length then s
  else
    let pa := (die * 2 ^ 25 + e.loc) * 4096 + off
    (linesOf pa bs.length).foldl (fun t l =>
      let lo := max l pa
      let hi := min (l + 64) (pa + bs.length)
      let key := match t.frame (lo / 4096) with
        | some x => (t.keyIn (slotOfOwner x.otype x.owner)).getD 0
        | none => 0
      t.lineWrite (lo / 64) key (lo % 64) ((bs.drop (lo - pa)).take (hi - lo)) false {}) s

/-- The keys and values of tokens `t0 … t0 + n - 1` of a page written, head by head (R254). -/
def State.pageTokens (s : State) (g : Geom) (die : Nat) (e : PEnt) (t0 n : Nat) : State :=
  (List.range (2 * g.kvh)).foldl (fun t i =>
    let (t1, bs) := t.freeBytes (n * g.headDim * g.elem)
    t1.pageWrite die g.units e (i * 64 * g.headDim * g.elem + t0 * g.headDim * g.elem) bs) s

/-- The summary slot of a page that becomes full (R246, R255): pinned pages and pools without a free slot have none. -/
def State.summarise (s : State) (p : Nat) (g : Geom) (e : PEnt) : State × PEnt :=
  match s.pool p with
  | none => (s, e)
  | some x =>
    if x.pinned.isSome || decide (x.sums * 4096 < x.sumUsed + g.sumBytes) then (s, e)
    else (s.modPool p fun y => { y with sumUsed := y.sumUsed + g.sumBytes }, { e with sum := g.sumBytes })

/-- One page of one layer and die takes `n` more tokens; none when its pool has no free page. A page that opens is padded with zeros. -/
def State.appendPage (s : State) (hd k n : Nat) : Option State :=
  match s.head hd with
  | none => none
  | some h =>
    let j := keySlot k
    let die := h.geom.dies.getD j 0
    let p := h.geom.poolOf j
    let opened : Option (State × PEnt) := match mget h.staging k with
      | some e => some (s, e)
      | none =>
        let (s1, l) := s.takePage p
        l.map fun loc =>
          let e : PEnt := { state := if (s1.pool p).any fun x => x.pinned.isSome then 2 else 1, loc := loc }
          let s2 := s1.modPool p fun x => { x with reserved := x.reserved - 1 }
          (s2.pageWrite die h.geom.units e (2 * h.geom.block) (List.replicate (h.geom.units * 4096 - 2 * h.geom.block) 0), e)
    opened.map fun (t, e) =>
      let t1 := t.pageTokens h.geom die e e.fill n
      let e1 := { e with fill := min 64 (e.fill + n) }
      let (t2, e2) := if e1.fill = 64 ∧ e1.sum = 0 then t1.summarise p h.geom e1 else (t1, e1)
      t2.edit hd k (some e2) false

/-- R270: `n` tokens are appended at the committed length in every layer of every die; none when a pool is empty. -/
def State.kvAppend (s : State) (hd n : Nat) : Option State :=
  match s.head hd with
  | none => none
  | some h =>
    let L := h.stagedLen
    let ps := (List.range ((L + n + 63) / 64 - L / 64)).map fun i => L / 64 + i
    let keys := ps.flatMap fun p => (List.range h.geom.dies.length).flatMap fun j => (List.range h.geom.layers).map fun l => (pkey j l p, p)
    let r := keys.foldl (fun a (k, p) => a.bind fun t => t.appendPage hd k (min (L + n) (64 * (p + 1)) - max L (64 * p))) (some s)
    r.map fun t => t.modHead hd fun g => { g with stagedLen := L + n, edited := true }

/-! Truncation (R272) -/

/-- A shared page's first tokens are copied into a fresh page of the request's pool. -/
def State.unshare (s : State) (hd k n : Nat) : State :=
  match s.head hd with
  | none => s
  | some h =>
    match mget h.staging k with
    | none => s
    | some e =>
      if !e.shared then s.edit hd k (some { e with fill := n, sum := 0 }) false
      else
        let p := h.geom.poolOf (keySlot k)
        let die := h.geom.dies.getD (keySlot k) 0
        match s.takePage p with
        | (s1, none) => (s1.edit hd k (some { state := 5 }) true).ctxStQ h.ctx 17 stFAULT 0
        | (s1, some loc) =>
          let e1 : PEnt := { state := 1, fill := n, loc := loc }
          let src := (die * 2 ^ 25 + e.loc) * 4096
          let bytes := (List.range (h.geom.units * 4096)).map fun i =>
            (bget s1.lp.mem (src + i)).toNat
          let kept := bytes.zipIdx.map fun (b, i) => match h.geom.tokenAt i with
            | some t => if t < n then b else 0
            | none => 0
          (s1.pageWrite die h.geom.units e1 0 kept).edit hd k (some e1) true

/-- The staging list cut to `L` tokens. -/
def State.truncateTo (s : State) (hd L : Nat) : State :=
  match s.head hd with
  | none => s
  | some h =>
    let above := (h.staging.map (·.1)).filter fun k => decide (ceilDiv L 64 ≤ keyPos k)
    let s1 := above.foldl (fun t k => t.edit hd k none true) s
    let part := if L % 64 = 0 then [] else (h.staging.map (·.1)).filter fun k => keyPos k == L / 64
    let s2 := part.foldl (fun t k => t.unshare hd k (L % 64)) s1
    s2.modHead hd fun g => { g with stagedLen := L, chain := g.chain.take (L / 64), log := g.log.take (L + 1), edited := true }

/-! Pool commands (R288) -/

/-- Frames or pages of a pool that exist already. -/
def KvPool.frames (x : KvPool) (loc : Nat) : List Nat := (List.range x.units).map fun i => x.die * 2 ^ 25 + loc + i

def execKvpoolCreate (fn : Fin 32) (tag pool die : Nat) (isDomain : Bool) (owner bytes low high : Nat) (s : State) : Result :=
  .next (s.command fn.val tag 0x20 fun t =>
    if !t.dieThere die then t.respond fn.val tag stNOUNIT 0
    else if !t.ownerOpen isDomain owner then t.respond fn.val tag stDENIED 0
    else if decide (bytes = 0 ∨ bytes % 4096 ≠ 0 ∨ 262144 < bytes ∨ high < low ∨ 0xFF00 ≤ pool) || (t.pool pool).isSome then
      t.respond fn.val tag stFAULT 0
    else
      let x : KvPool := { die := die, isDomain := isDomain, owner := owner, units := bytes / 4096, low := low, high := high }
      ({ t with kv := { t.kv with pools := mput t.kv.pools pool x } }.showKv).respond fn.val tag stCOMPLETE 0)

/-- The frames that a pool's pages take, in use or free, overlap a run. -/
def State.inPools (s : State) (r : FrameRun) : Bool :=
  s.kv.pools.any fun e => e.2.die == r.die && e.2.free.any fun l => decide (l < r.first + r.count ∧ r.first < l + e.2.units)

/-- KVPOOL_ADD: a run of frames becomes pages, or summary frames. -/
def execKvpoolAdd (fn : Fin 32) (tag pool : Nat) (sums : Bool) (r : FrameRun) (s : State) : Result :=
  .next (s.command fn.val tag 0x21 fun t =>
    match t.pool pool with
    | none => t.respond fn.val tag stFAULT 0
    | some x =>
      let fs := runFrames r
      if !t.dieThere x.die then t.respond fn.val tag stNOUNIT 0
      else if r.die != x.die || fs.any fun f => !((t.frame f).any fun y => y.otype == boolNat x.isDomain && y.owner == x.owner && !y.clearing) then
        t.respond fn.val tag stDENIED 0
      else if x.pinned.isSome || r.count = 0 || (!sums && r.count % x.units != 0) || t.inPools r ||
          fs.any fun f => !((t.frame f).any fun y => y.kind == 1) then t.respond fn.val tag stFAULT 0
      else if sums then (t.modPool pool fun y => { y with sums := y.sums + r.count }).respond fn.val tag stCOMPLETE 0
      else
        let pages := (List.range (r.count / x.units)).map fun i => r.first + i * x.units
        ((t.modPool pool fun y => { y with free := y.free ++ pages, total := y.total + pages.length }).showKv).respond fn.val tag stCOMPLETE 0)

def execKvpoolRemove (fn : Fin 32) (tag pool : Nat) (r : FrameRun) (s : State) : Result :=
  .next (s.command fn.val tag 0x22 fun t =>
    match t.pool pool with
    | none => t.respond fn.val tag stFAULT 0
    | some x =>
      let pages := (List.range (r.count / x.units)).map fun i => r.first + i * x.units
      if x.pinned.isSome || r.die != x.die || x.units = 0 || r.count % x.units != 0 || pages.any fun p => !x.free.contains p then
        t.respond fn.val tag stFAULT 0
      else
        let t1 := t.modPool pool fun y => { y with free := y.free.filter fun l => !pages.contains l, total := y.total - pages.length }
        let t2 := if decide (x.low ≤ x.free.length ∧ x.free.length - pages.length < x.low) then t1.raise (pgKVW x.die) 1 else t1
        t2.showKv.respond fn.val tag stCOMPLETE 0)

/-! List-head commands (R269, R282, R288) -/

/-- A pinned pool takes the page size of the first head that names it: its pages are packed into the run of banks of each vat (R257). -/
def State.cutPinned (s : State) (p units : Nat) : State :=
  match s.pool p with
  | none => s
  | some x =>
    match x.pinned.bind fun r => mget s.resv r with
    | none => s
    | some r =>
      if x.units ≠ 0 then s
      else
        let locs := r.banks.flatMap fun (d, f, L, mask) =>
          if d = x.die then
            let bs := bitsSet mask 16
            (List.range (bs.length * 32 / units)).map fun i => f + 16 * L + 128 * (bs.headD 0 * 32 + i * units)
          else []
        s.modPool p fun y => { y with units := units, free := locs, total := locs.length }

/-- Can a head draw the pages of die slot `j` from its pool? -/
def State.poolFits (s : State) (c : Nat) (g : Geom) (j : Nat) : Bool :=
  (s.pool (g.poolOf j)).any fun x =>
    x.die == g.dies.getD j 4 && (x.units == g.units || (x.pinned.isSome && x.units == 0)) &&
      (if x.isDomain then s.domainOf c == some x.owner else x.owner == c) && (x.pinned.isNone || !g.share)

/-- The refusal of a list head over a geometry, if any: NOUNIT, DENIED, FAULT, REFUSED_MEM (R258, R269, R282, R402, R483). -/
def State.headRefused (s : State) (c : Nat) (g : Geom) : Option Nat :=
  let gs := g.granules
  if g.dies.any fun n => !s.hasUnit (pgDIE n) then some stNOUNIT
  else if !s.ctxOpen c || (g.h && s.ctxField F.CTXS_ENTRY_SEALED c == 1) then some stDENIED
  else if !g.ok || !((List.range g.dies.length).all fun j => s.poolFits c g j) || !s.isLocalVa g.kvVa ||
      (gs.any fun n => decide (4096 ≤ n) || (mget s.kv.granules (c * 4096 + n)).isSome || (mget s.lp.tabs (c * 2 ^ 23 + n)).isSome ||
        s.lp.leaves.any fun e => e.1 / 2 ^ 31 == c && (if nbit e.1 30 then e.1 % 2 ^ 30 / 2 ^ 9 else e.1 % 2 ^ 30 / 2 ^ 18) == n) then
    some stFAULT
  else if g.dies.any fun n => decide (s.rd (pgXLT n) F.XLT_SYS_FREE < 12) then some stREFUSED_MEM
  else none

/-- A list head is made: its frame is a system frame whose number the spec leaves open. -/
def State.makeHead (s : State) (c : Nat) (g : Geom) (log : List Nat) : State × Nat :=
  let hd := s.kv.headNext
  let (s1, fr) := s.fresh 25
  let h : Head := { ctx := c, die := g.dies.headD 0, frame := fr, geom := g, log := log }
  let s2 := (List.range g.dies.length).foldl (fun t j => t.cutPinned (g.poolOf j) g.units) s1
  let s3 := { s2 with kv := { s2.kv with
    heads := mput s2.kv.heads hd h
    headNext := hd + 1
    granules := g.granules.foldl (fun m n => mput m (c * 4096 + n) hd) s2.kv.granules } }
  (s3.chargeHead hd |>.showKv, hd)

/-- A template of a model has been read: MODEL_COST knows the model from then on (R310). -/
def State.seeModel (s : State) (m : Nat) : State :=
  if s.rqt.models.contains m then s else { s with rqt := { s.rqt with models := m :: s.rqt.models } }

def State.rq (s : State) (i : Nat) : Rq := (mget s.rqt.entries i).getD {}
def State.setRq (s : State) (i : Nat) (x : Rq) : State := { s with rqt := { s.rqt with entries := mput s.rqt.entries i x } }
def State.modRq (s : State) (i : Nat) (f : Rq → Rq) : State := { s with rqt := { s.rqt with entries := mmod s.rqt.entries i f } }

/-- PL_CREATE: a list head for a request from the template at `headVa` (R258, R487). -/
def execPlCreate (fn : Fin 32) (tag : Nat) (rq : Fin 8192) (headVa : Nat) (s : State) : Result :=
  .next (s.command fn.val tag 0x23 fun t =>
    match mget t.rqt.entries rq.val with
    | none => t.respond fn.val tag stFAULT 0
    | some x =>
      let (t1, b) := t.hubRead x.ctx headVa 4
      match b with
      | none => t1.respond fn.val tag stFAULT 0
      | some bs =>
        let g := geomOf bs
        match t1.headRefused x.ctx g with
        | some st => (t1.seeModel g.model).respond fn.val tag st 0
        | none =>
          if x.head.isSome then t1.respond fn.val tag stFAULT 0
          else
            let (t2, hd) := (t1.seeModel g.model).makeHead x.ctx g x.prompt
            (t2.modRq rq.val fun y => { y with head := some hd }).respond fn.val tag stCOMPLETE 0)

/-- Every page, record and granule of a head is released (R263, R288). -/
def State.destroyHead (s : State) (hd : Nat) : State :=
  match s.head hd with
  | none => s
  | some h =>
    let now : List Freed := h.staging.map fun e => { gen := 0, pool := h.geom.poolOf (keySlot e.1), ent := e.2 }
    let s1 := (h.freed ++ now).foldl (fun t x => t.freeEnt x) s
    let s2 := (List.range h.geom.dies.length).foldl (fun t j => t.giveSys (h.geom.dies.getD j 0) (h.charge.getD j 0)) s1
    { s2 with kv := { s2.kv with
      heads := mdel s2.kv.heads hd
      granules := s2.kv.granules.filter fun e => e.2 != hd
      fetches := s2.kv.fetches.filter fun m => m.head != hd
      spills := s2.kv.spills.filter fun m => m.head != hd } }.showKv

/-- The page room that a request still holds goes back to its pools (R307). -/
def State.dropRoom (s : State) (i : Nat) : State :=
  let x := s.rq i
  match x.head.bind s.head with
  | none => s
  | some h =>
    ((List.range h.geom.dies.length).foldl (fun t j => t.modPool (h.geom.poolOf j) fun p =>
      { p with reserved := p.reserved - x.room * h.geom.layers }) s).modRq i fun y => { y with room := 0 }

/-- R288, R295: the list head of an entry is destroyed. -/
def State.plDestroy (s : State) (i : Nat) : State :=
  match (s.rq i).head with
  | none => s
  | some hd => ((s.dropRoom i).destroyHead hd).modRq i fun y => { y with head := none, rebuilds := [], trunc := none }

/-- May a function command this entry? The PF, or the function that has its context bound (R298, R479). -/
def State.ownsRq (s : State) (fn i : Nat) : Bool := fn == 0 || s.boundTo fn (s.rq i).ctx

def rqTerminal (st : Nat) : Bool := st == 6 || st == 7 || st == 8

def execPlDestroy (fn : Fin 32) (tag : Nat) (rq : Fin 8192) (s : State) : Result :=
  .next (s.command fn.val tag 0x25 fun t =>
    if !t.ownsRq fn.val rq.val then t.respond fn.val tag stDENIED 0
    else if !rqTerminal (t.rq rq.val).state || (t.rq rq.val).head.isNone then t.respond fn.val tag stFAULT 0
    else (t.plDestroy rq.val).respond fn.val tag stCOMPLETE 0)

/-- R272: the truncation waits for the request's next step boundary, and the command completes with it. -/
def execPlTruncate (fn : Fin 32) (tag : Nat) (rq : Fin 8192) (len : Nat) (s : State) : Result :=
  .next (s.command fn.val tag 0x24 fun t =>
    let x := t.rq rq.val
    if !t.ownsRq fn.val rq.val then t.respond fn.val tag stDENIED 0
    else match x.head.bind t.head with
      | none => t.respond fn.val tag stFAULT 0
      | some h =>
        if h.stagedLen ≤ len || rqTerminal x.state then t.respond fn.val tag stFAULT 0
        else (t.modRq rq.val fun y => { y with trunc := some len }).hold fn.val tag (.drain 3 rq.val 0) 0)

/-- R272: a pending truncation applies while the request has no step in progress. -/
def execTruncateApply (rq : Fin 8192) (s : State) : Result :=
  .next (
    let x := s.rq rq.val
    match x.trunc, x.head with
    | some len, some hd =>
      if x.step.isSome then s
      else
        let s1 := (s.truncateTo hd len).modRq rq.val fun y => { y with trunc := none, promptDone := min y.promptDone len }
        (s1.publish hd).wake (fun w => match w with
          | .drain 3 r _ => r == rq.val
          | _ => false) stCOMPLETE
    | _, _ => s)

/-! Rebuilding (R274, R275) -/

/-- R274: the recompute chunk of the first page that waits, placed in a step in progress, has run: a fresh page of the pool takes the page's
tokens. `o` is how the token log's lines read back; where they cannot be read the entry is LOST (R275). -/
def execRebuildChunk (rq : Fin 8192) (o : LineOut) (s : State) : Result :=
  .next (
    let x := s.rq rq.val
    match x.rebuilds, x.head.bind s.head, x.head, x.step.bind s.step1 with
    | (j, l, p) :: rest, some h, some hd, some st =>
      let k := pkey j l p
      if !(st.members.any fun m => m.idx == rq.val && m.rebuild == some (j, l, p)) then s
      else match mget h.staging k with
        | none => s.modRq rq.val fun y => { y with rebuilds := rest }
        | some e =>
          let die := h.geom.dies.getD j 0
          let va := h.geom.logVa + 256 * p
          let (s1, log) := s.hubRead h.ctx (va / 64 * 64) (ceilDiv (4 * e.fill) 64) o x.step
          let s2 := s1.modRq rq.val fun y => { y with rebuilds := rest, recomputed := true, cntRecomp := min 255 (y.cntRecomp + 1) }
          match log, s2.takePage (h.geom.poolOf j) with
          | none, _ => (s2.modHead hd fun g => { g with logLost := true }).edit hd k (some { e with state := 5, loc := 0, sum := 0, shared := false }) true
          | some _, (s3, none) => (s3.failStep (x.step.getD 0) stFAULT 0).ctxStQ h.ctx 17 stFAULT rq.val
          | some _, (s3, some loc) =>
            let e1 : PEnt := { state := if e.state = 2 then 2 else 1, fill := e.fill, loc := loc, shared := e.shared, pfx := e.pfx }
            let s4 := s3.pageTokens h.geom die e1 0 e.fill
            let (s5, e2) := if e.fill = 64 then s4.summarise (h.geom.poolOf j) h.geom e1 else (s4, e1)
            let s6 :=
              if e.shared then
                -- the prefix entry names the new page; every list takes it at its next publication
                let s6 := { s5 with kv := { s5.kv with pfx := mmod s5.kv.pfx e.pfx fun (y : Pfx) =>
                                              { y with pages := mput y.pages (k / 2 ^ 18) e2, rebuilding := false } } }
                let s7 := s6.kv.heads.foldl (fun t g => if (mget g.2.staging k).any fun z => z.shared && z.pfx == e.pfx then
                  t.edit g.1 k (some e2) false else t) s6
                s7.putPage (h.geom.poolOf j) e
              else s5.edit hd k (some e2) true
            let s7 := ((s6.raise (pgKVW die) 3).count (pgKVW die) 0x06C 1).count (pgCNT h.ctx) F.CNT_RECOMP 1
            s7.publish hd
    | _, _, _, _ => s)

/-! Domains (R276, R278, R281, R401) -/

/-- The lowest free place for a region of the prefix table. -/
def State.regionAt (s : State) (size : Nat) : Option Nat :=
  let rs := s.kv.domains.map fun e => (e.2.base, e.2.size)
  let starts := 0 :: rs.map fun r => r.1 + r.2
  let good := starts.filter fun b => decide (b + size ≤ 262144) && rs.all fun r => decide (b + size ≤ r.1 ∨ r.1 + r.2 ≤ b)
  good.head?.map fun b => good.foldl min b

/-- DOMAIN_CREATE: a domain with a region of `size` entries. It waits while the structures are copied (R401). -/
def execDomainCreate (fn : Fin 32) (tag size : Nat) (s : State) : Result :=
  .next (s.commandUnless s.kv.copyTo.isSome fn.val tag 0x05 fun t =>
    if size = 0 ∨ size % 4 ≠ 0 then t.respond fn.val tag stFAULT 0
    else match (List.range 256).find? fun d => (mget t.kv.domains d).isNone, t.regionAt size with
      | some d, some b =>
        let t1 := t.installKey (1024 + d)
        let x : Dom := { base := b, size := size, hashKey := t1.lp.keyNext }
        let t2 := { t1 with
          kv := { t1.kv with domains := mput t1.kv.domains d x }
          lp := { t1.lp with keyNext := t1.lp.keyNext + 1 } }
        t2.respond fn.val tag stCOMPLETE d
      | _, _ => t.respond fn.val tag stREFUSED_MEM 0)

/-- A request in progress whose head takes part in a domain. -/
def State.domainBusy (s : State) (d : Nat) : Bool :=
  s.rqt.entries.any fun e => decide (1 ≤ e.2.state ∧ e.2.state ≤ 5) && s.domainOf e.2.ctx == some d && (e.2.head.bind s.head).any fun h => h.geom.share

/-- DOMAIN_END: the region is cleared and the keys destroyed; pages that lists still name go with the last of them. Members leave the domain. -/
def execDomainEnd (fn : Fin 32) (tag dom : Nat) (s : State) : Result :=
  .next (s.commandUnless s.kv.copyTo.isSome fn.val tag 0x06 fun t =>
    match mget t.kv.domains dom with
    | none => t.respond fn.val tag stFAULT 0
    | some x =>
      if x.ended || t.domainBusy dom then t.respond fn.val tag stFAULT 0
      else
        let mine := (t.kv.pfx.filter fun e => e.2.dom == dom).map (·.1)
        let t1 := mine.foldl (fun u i => if (mget u.kv.pfx i).any fun y => y.refs == 0 then u.dropPfx i else u) t
        let left := t1.kv.pfx.any fun e => e.2.dom == dom
        let t2 := { t1 with kv := { t1.kv with domains := if left then mput t1.kv.domains dom { x with ended := true } else mdel t1.kv.domains dom } }
        let t3 := (List.range 1024).foldl (fun u c => if u.domainOf c = some dom then
          ((u.setCtxField F.CTXS_ENTRY_DOM_VALID c 0).setCtxField F.CTXS_ENTRY_DOMAIN c 0).setCtxField F.CTXS_ENTRY_BATCH_SHARE c 0 else u) t2
        ((t3.destroyKey (1024 + dom)).showKv).respond fn.val tag stCOMPLETE 0)

/-! The cellar tier (R283–R287, R498) -/

def execCellarAdd (fn : Fin 32) (tag addr len : Nat) (s : State) : Result :=
  .next (s.command fn.val tag 0x26 fun t =>
    if addr % 2 ^ 21 ≠ 0 ∨ len % 2 ^ 21 ≠ 0 ∨ len = 0 ∨ 2 ^ 64 < addr + len ∨ 64 ≤ t.kv.ranges.length then t.respond fn.val tag stFAULT 0
    else if t.kv.ranges.any fun r => decide (addr < r.1 + r.2 ∧ r.1 < addr + len) then t.respond fn.val tag stFAULT 0
    else ({ t with kv := { t.kv with ranges := t.kv.ranges ++ [(addr, len)] } }.showKv).respond fn.val tag stCOMPLETE 0)

def execCellarRemove (fn : Fin 32) (tag addr len : Nat) (s : State) : Result :=
  .next (s.command fn.val tag 0x27 fun t =>
    if !t.kv.ranges.contains (addr, len) || t.kv.recs.any fun e => decide (addr ≤ e.2.slot ∧ e.2.slot < addr + len) then
      t.respond fn.val tag stFAULT 0
    else ({ t with kv := { t.kv with ranges := t.kv.ranges.erase (addr, len) } }.showKv).respond fn.val tag stCOMPLETE 0)

/-- A free slot for a page of a pool: in a block that the pool has, else in a free block. -/
def State.cellarSlot (s : State) (p bytes : Nat) : Option Nat :=
  let places := fun b => (List.range (2 ^ 21 / bytes)).map fun i => b + i * bytes
  let used := s.kv.recs.map fun e => e.2.slot
  let own := s.cellarBlocks.filter fun b => (s.blockRecs b).any fun r => r.pool == p
  let free := s.cellarBlocks.filter fun b => (s.blockRecs b).isEmpty
  ((own.flatMap places).find? fun a => !used.contains a).orElse fun _ => (free.flatMap places).head?

/-- Bytes moved over PCIe, counted in MiB in a HOST counter (R499). -/
def State.moved (s : State) (off n : Nat) : State :=
  let old := nget s.host.dmaBytes off
  ({ s with host := { s.host with dmaBytes := nput s.host.dmaBytes off (old + n) } }).count pgHOST off ((old + n) / 2 ^ 20 - old / 2 ^ 20)

/-- The pages of a pool that can be spilled, in the order of R285: requests in HELD, oldest first, then position, then layers and dies. -/
def State.spillable (s : State) (p : Nat) : List (Nat × Nat) :=
  let held := (s.rqt.entries.filter fun e => e.2.state == 4).mergeSort fun a b => decide (a.2.heldTick ≤ b.2.heldTick)
  held.flatMap fun e => match e.2.head with
    | none => []
    | some hd => match s.head hd with
      | none => []
      | some h =>
        let ks := (h.staging.filter fun x => x.2.state == 1 && !x.2.shared && h.geom.poolOf (keySlot x.1) == p).map (·.1)
        (ks.mergeSort fun a b => decide (keyPos a ≤ keyPos b)).map fun k => (hd, k)

/-- Pages of a pool that are free or queued to be. -/
def State.freeSoon (s : State) (p : Nat) (x : KvPool) : Nat :=
  x.free.length + sumBy (fun e => (e.2.freed.filter fun y => y.pool == p && y.ent.state == 1 && !y.ent.shared).length) s.kv.heads

/-- The next page of a pool's spill: its record and host slot are taken. -/
def State.nextSpill (s : State) (p : Nat) : State :=
  match s.pool p with
  | none => s
  | some x =>
    if x.high ≤ s.freeSoon p x then s.modPool p fun y => { y with spilling := false }
    else match s.spillable p, s.cellarSlot p (x.units * 4096) with
      | (hd, k) :: _, some slot =>
        let c := ((s.head hd).map fun (h : Head) => h.ctx).getD 0
        let r := ((List.range (s.kv.recs.length + 1)).find? fun i => (mget s.kv.recs i).isNone).getD 0
        let ctr := nget s.kv.spillCtr c
        let src := match s.head hd with
          | some h => ((mget h.published k).map fun (e : PEnt) => (x.die * 2 ^ 25 + e.loc) * 4096).getD 0
          | none => 0
        let rec1 : CellarRec := { slot := slot, pool := p, bytes := x.units * 4096, head := hd, key := k, iv := r * 2 ^ 64 + ctr,
                                  data := bgetList s.lp.mem src (x.units * 4096) }
        { s with kv := { s.kv with
          recs := mput s.kv.recs r rec1
          spillCtr := nput s.kv.spillCtr c (ctr + 1)
          spills := s.kv.spills ++ [({ head := hd, key := k, record := r, pool := p } : Move)]
          pools := mmod s.kv.pools p fun y => { y with spilling := true } } }.showKv
      | _, _ => s.modPool p fun y => { y with spilling := false }

/-- R285: an LPDDR pool below its low watermark starts to spill. Fetches go first. -/
def execSpillStart (pool : Nat) (s : State) : Result :=
  .next (match s.pool pool with
  | none => s
  | some x => if x.spilling || x.pinned.isSome || decide (x.low ≤ x.free.length) || !s.kv.fetches.isEmpty || !s.linkUp then s
    else s.nextSpill pool)

/-- R284, R285: the oldest spill has been written to its slot; the entry becomes CELLAR. A page that its list no longer holds frees its record. -/
def execSpillPageDone (s : State) : Result :=
  .next (match s.kv.spills with
  | [] => s
  | m :: rest =>
    let s0 := { s with kv := { s.kv with spills := rest } }
    match s0.head m.head, mget s0.kv.recs m.record with
    | some h, some r =>
      match mget h.staging m.key with
      | none => { s0 with kv := { s0.kv with recs := mdel s0.kv.recs m.record } }.nextSpill m.pool
      | some e =>
        let (s1, cipher) := s0.freeBytes r.bytes
        let s2 := { s1 with host := { s1.host with mem := bputList s1.host.mem r.slot (cipher.map (BitVec.ofNat 8)) } }
        -- the summary slot stays resident
        let s3 := s2.edit m.head m.key (some { e with state := 3, loc := m.record }) true
        let keep := fun (y : Freed) => if y.ent.loc == e.loc && y.ent.state == 1 then { y with ent := { y.ent with sum := 0 } } else y
        let s4 := s3.modHead m.head fun g => { g with freed := g.freed.map keep }
        let n := h.geom.dies.getD (keySlot m.key) 0
        ((((s4.count (pgKVW n) 0x060 1).count (pgCNT h.ctx) F.CNT_SPILLED 1).moved 0x05C r.bytes).moved 0x050 r.bytes).nextSpill m.pool |>.showKv
    | _, _ => s0)

/-- The first fetch of the queue takes its fresh page and its entry becomes MOVING; it waits where the pool has none. -/
def State.beginFetch (s : State) : State :=
  match s.kv.fetches with
  | [] => s
  | m :: _ =>
    match s.head m.head with
    | none => s
    | some h => match mget h.staging m.key with
      | none => s
      | some e =>
        if e.state ≠ 3 then s
        else match s.takePage m.pool with
          | (s1, none) => s1
          | (s1, some loc) => s1.edit m.head m.key (some { e with state := 4, loc := loc }) false

/-- R287: the fetches of a held request's cellar pages are queued, in position order; not while a spill of it is in progress (R285). -/
def execFetchStart (rq : Fin 8192) (s : State) : Result :=
  .next (
    let x := s.rq rq.val
    match x.head, x.head.bind s.head with
    | some hd, some h =>
      let ks := (h.staging.filter fun e => e.2.state == 3).mergeSort fun a b => decide (keyPos a.1 ≤ keyPos b.1)
      if x.state != 4 || !s.inControl || !s.linkUp || (s.kv.fetches.any fun m => m.head == hd) || s.kv.spills.any fun m => m.head == hd then s
      else
        let ms : List Move := ks.map fun e => { head := hd, key := e.1, record := e.2.loc, pool := h.geom.poolOf (keySlot e.1) }
        { s with kv := { s.kv with fetches := s.kv.fetches ++ ms } }.beginFetch
    | _, _ => s)

/-- One read of a record of `n` bytes for die `die`: it crosses the link and the host's memory, and a wrong tag is counted. -/
def State.recordRead (s : State) (die n : Nat) (ok : Bool) : State :=
  ((s.moved 0x05C n).moved 0x04C n).count (pgKVW die) 0x068 (boolNat (!ok))

/-- A page fetched whole: its leaf names the frame it stands in. -/
def State.fetchKept (s : State) (m : Move) (h : Head) (r : CellarRec) (e : PEnt) : State :=
  let n := h.geom.dies.getD (keySlot m.key) 0
  let e1 := { e with state := 1 }
  let s4 := s.pageWrite n h.geom.units e1 0 (r.data.map fun b => b.toNat)
  (((s4.edit m.head m.key (some e1) false).count (pgKVW n) 0x064 1).count (pgCNT h.ctx) F.CNT_FETCHED 1).beginFetch |>.showKv

/-- A page whose record failed twice: its rows are rebuilt. -/
def State.fetchLost (s : State) (m : Move) (h : Head) : State :=
  let s4 := s.ctxStQ h.ctx 19 stFAULT (((s.rqOfHead m.head).map fun (x : Nat × Rq) => x.1).getD 0)
  let w := (keySlot m.key, keyLayer m.key, keyPos m.key)
  let s5 := match s4.rqOfHead m.head with
    | some (i, _) => s4.modRq i fun y => { y with rebuilds := y.rebuilds ++ [w] }
    | none => s4
  s5.beginFetch.showKv

/-- R286: the fetch in progress ends. `ok1`, `ok2`: its tag matches, and matches when it is fetched once more. The record and its host slot go
under R263. -/
def execFetchPageDone (ok1 ok2 : Bool) (s : State) : Result :=
  .next (match s.kv.fetches with
  | [] => s
  | m :: rest =>
    let s0 := { s with kv := { s.kv with fetches := rest } }
    match s.head m.head, mget s.kv.recs m.record with
    | some h, some r =>
      match mget h.staging m.key with
      | none => s0.beginFetch
      | some e =>
        if e.state ≠ 4 then s.beginFetch
        else
          let n := h.geom.dies.getD (keySlot m.key) 0
          let s1 := s0.recordRead n r.bytes ok1
          let s2 := if ok1 then s1 else s1.recordRead n r.bytes ok2
          let old : Freed := { gen := h.gen + 1, pool := m.pool, ent := { state := 3, loc := m.record } }
          let s3 := s2.modHead m.head fun g => { g with freed := g.freed ++ [old] }
          if ok1 || ok2 then s3.fetchKept m h r e else s3.fetchLost m h
    | _, _ => s0.beginFetch)

end Sys2Proof.Machine
end

