-- ==== Sys2Proof/Machine/Request.lean ====
section
/-! DEFINITION. The request table: admission, reservations, holds, cancels and releases (R290–R319). -/

namespace Sys2Proof.Machine

/-- Request states (R294). -/
abbrev rqFREE : Nat := 0
abbrev rqADMITTED : Nat := 1
abbrev rqPREFILL : Nat := 2
abbrev rqDECODE : Nat := 3
abbrev rqHELD : Nat := 4
abbrev rqDRAINING : Nat := 5
abbrev rqDONE : Nat := 6
abbrev rqCANCELLED : Nat := 7
abbrev rqFAULTED : Nat := 8

/-! The 64 bytes of an entry (R291) -/

/-- Word `w` of the entry in the request-table window. -/
def State.rqWord (s : State) (x : Rq) (w : Nat) : Nat :=
  let h := x.head.bind s.head
  match w with
  | 0 => x.ending * 2 ^ 28 + boolNat x.dlValid * 2 ^ 27 + boolNat x.res * 2 ^ 26 + x.ctx * 2 ^ 16 + x.prio * 256 + x.latePol * 64 + x.cls * 16 + x.state
  | 1 => x.dl % 2 ^ 32
  | 2 => x.chunk * 2 ^ 16 + x.dl / 2 ^ 32 % 2 ^ 16
  | 3 => x.promptLen
  | 4 => x.promptDone
  | 5 => x.genCount
  | 6 => x.genMax
  | 7 => boolNat x.intake * 2 ^ 28 + match h with
    | some y => 2 ^ 27 + y.die * 2 ^ 25 + y.frame
    | none => 0
  | 8 => x.plGen
  | 9 => x.candVa
  | 10 => x.candSeq
  | 11 => x.attOpt
  | 12 => x.paramVa
  | 13 => x.cookie
  | 14 => x.cntLate * 2 ^ 24 + x.cntRecomp * 2 ^ 16 + x.cntSteps
  | 15 => x.cntHolds * 2 ^ 24 + x.resTokens
  | _ => 0

/-- Entries in a state, entries FREE (R317, R318). -/
def State.rqCount (s : State) (st : Nat) : Nat :=
  let n := (s.rqt.entries.filter fun e => e.2.state == st).length
  if st = rqFREE then 8192 - s.rqt.entries.length + n else n

/-- Entries held by reservations and not in use (R310). -/
def State.c0Held (s : State) : Nat :=
  sumBy (fun r => r.2.entries - (s.rqt.entries.filter fun e => e.2.res && e.2.ctx == r.2.ctx).length) s.resv

/-- What the control page shows: state counts, held entries, reservations (R317–R319). -/
def State.showRqt (s : State) : State :=
  let s1 := (List.range 9).foldl (fun t i => t.wri pgRQT F.RQT_STATE_CNT i (s.rqCount i)) s
  (s1.wr pgRQT F.RQT_FREE (s.rqCount rqFREE)).wr pgRQT F.RQT_C0_HELD_ENTRIES s.c0Held

/-- B of R315. -/
def State.boundClk (s : State) (bstep : Nat) : Nat := s.periodClk + s.periodClk * s.rd pgTBASE F.TBASE_RATE_TOL / 1024 + bstep + 4000

def State.showResv (s : State) : State :=
  (List.range 16).foldl (fun t i =>
    match mget s.resv i with
    | none => (((((((t.wri pgRQT F.RQT_RES_VALID i 0).wri pgRQT F.RQT_RES_SUSPENDED i 0).wri pgRQT F.RQT_RES_START i 0).wri pgRQT
        F.RQT_RES_G i 0).wri pgRQT F.RQT_RES_CTX i 0).wri pgRQT F.RQT_RES_BSTEP i 0).wri pgRQT F.RQT_RES_BOUND_CLK i 0).wri pgRQT
        F.RQT_RES_ENTRIES i 0
    | some r => (((((((t.wri pgRQT F.RQT_RES_VALID i 1).wri pgRQT F.RQT_RES_SUSPENDED i (boolNat r.suspended)).wri pgRQT F.RQT_RES_START i
        r.start).wri pgRQT F.RQT_RES_G i (r.g - 1)).wri pgRQT F.RQT_RES_CTX i r.ctx).wri pgRQT F.RQT_RES_BSTEP i r.bstep).wri pgRQT
        F.RQT_RES_BOUND_CLK i (min (2 ^ 24 - 1) (s.boundClk r.bstep))).wri pgRQT F.RQT_RES_ENTRIES i r.entries) s

/-! Completions (R295, R301, R491) -/

/-- A completion of an entry joins the writer's queue; RECOMPUTED joins COMPLETE, PARTIAL and CANCELLED (R12, R301). -/
def State.complete (s : State) (i status hint : Nat) (tokens : List Nat) : State :=
  let x := s.rq i
  let ok := status == stCOMPLETE || status == stPARTIAL || status == stCANCELLED
  let c : Compl :=
    { ring := x.ctx * 8 + x.cq, status := if ok && x.recomputed then status ||| stRECOMPUTED else status, kind := 0, ending := x.ending,
      cookie := x.cookie, idx := some i, genCount := x.genCount, hint := hint, deliv := x.deliv, tokens := tokens, outAddr := x.outAddr,
      sealed := s.ctxField F.CTXS_ENTRY_SEALED x.ctx == 1, dl := if x.dlValid && ok then some x.dl else none }
  let s1 := { s with rqt := { s.rqt with outQ := s.rqt.outQ ++ [c] } }
  s1.modRq i fun y => { y with deliv := if tokens.isEmpty then y.deliv else y.deliv + 1, recomputed := false }

/-- A change that the table of R294 gives no transition has no effect and is counted (R296). -/
def State.noChange (s : State) : State := s.count pgRQT 0x068 1

/-! Reservations at their end (R310) -/

/-- A reservation that is ending goes when no class-0 request of it is left in progress: entries, banks and segments are released. -/
def State.settleResv (s : State) : State :=
  let gone := s.resv.filter fun r => r.2.ending && !(s.rqt.entries.any fun e => e.2.res && e.2.ctx == r.2.ctx && !rqTerminal e.2.state)
  let drop := fun (t : State) (i : Nat) (r : Resv) =>
    let t0 := { t with resv := mdel t.resv i }
    let t1 := r.vats.foldl (fun u v => match u.vatOf (pgFLOOR v.1 v.2.1) v.2.2 with
      | some pg => if u.resv.any fun q => q.2.vats.contains v then u else u.wr pg F.VAT_C0_RES 0
      | none => u) t0
    let t2 := r.banks.foldl (fun u b => match u.vatOf (pgFLOOR b.1 b.2.1) b.2.2.1 with
      | some pg => (bitsSet b.2.2.2 16).foldl (fun w k => w.wri pg F.VAT_BANK_OWNER_PINNED k 0) u
      | none => u) t1
    let t3 := r.segs.foldl (fun u g => (bitsSet g.2.2 32).foldl (fun w k => w.wri (pgFLOOR g.1 g.2.1) F.FLOOR_SEG_OWNER_PINNED k 0) u) t2
    let t4 := { t3 with kv := { t3.kv with pools := t3.kv.pools.filter fun p => p.2.pinned != some i } }
    t4.setCtxField F.CTXS_ENTRY_C0_RES r.ctx 0
  if gone.isEmpty then s
  else ((gone.foldl (fun t g => drop t g.1 g.2) s).showResv).showRqt.showKv

/-! Ends of requests (R294, R297, R298) -/

/-- A request leaves progress: its state and END, its completion. Held records and fetches go without being read (R285). -/
def State.endRq (s : State) (i st ending status : Nat) (tokens : List Nat) : State :=
  let x := s.rq i
  let s1 := match x.state == rqHELD, x.head, x.head.bind s.head with
    | true, some hd, some h =>
      let cel := h.staging.filter fun (e : Nat × PEnt) => e.2.state == 3 || e.2.state == 4
      let t := cel.foldl (fun (t : State) (e : Nat × PEnt) => t.edit hd e.1 none (e.2.state == 4)) s
      let mine := fun (m : Move) => m.head == hd
      { t with kv := { t.kv with
        recs := t.kv.recs.filter fun e => e.2.head != hd || s.kv.spills.any fun m => m.record == e.1
        fetches := t.kv.fetches.filter fun m => !mine m } }
    | _, _, _ => s
  let s2 := s1.modRq i fun y => { y with state := st, ending := ending, step := none, rebuilds := [] }
  let s3 := s2.complete i status 0 tokens
  -- R480: after an FLR of its function the entry becomes FREE with no RQ_RELEASE
  let s4 := if x.auto then { (s3.plDestroy i) with rqt := { (s3.plDestroy i).rqt with entries := mdel (s3.plDestroy i).rqt.entries i } } else s3
  (s4.showRqt).settleResv

/-- R297, R298: a cancel reaches the ordering point. -/
def State.cancelRq (s : State) (i : Nat) : State :=
  let x := s.rq i
  if x.state = rqADMITTED ∨ x.state = rqHELD ∨ ((x.state = rqPREFILL ∨ x.state = rqDECODE) ∧ x.step = none) then
    s.endRq i rqCANCELLED 4 stCANCELLED []
  else if x.state = rqPREFILL ∨ x.state = rqDECODE then (s.modRq i fun y => { y with state := rqDRAINING, ending := 4 }).showRqt
  else s.noChange

/-- A fault is decided for a request: at once without a step in progress, else the request drains (R294). -/
def State.faultRq (s : State) (i status : Nat) : State :=
  let x := s.rq i
  if (x.state = rqADMITTED ∨ x.state = rqHELD ∨ x.state = rqPREFILL ∨ x.state = rqDECODE) ∧ x.step = none then
    s.endRq i rqFAULTED 5 status []
  else if x.state = rqPREFILL ∨ x.state = rqDECODE then (s.modRq i fun y => { y with state := rqDRAINING, ending := 5, faultSt := status }).showRqt
  else s.noChange

def execRqCancel (fn : Fin 32) (tag : Nat) (rq : Fin 8192) (s : State) : Result :=
  .next (s.command fn.val tag 0x33 fun t =>
    -- a FREE entry, or one whose context the source does not have bound: no effect
    let t1 := if (t.rq rq.val).state = rqFREE || !(fn.val == 0 || t.boundTo fn.val (t.rq rq.val).ctx) then t else t.cancelRq rq.val
    t1.respond fn.val tag stCOMPLETE 0)

/-- R319: a write of RQT.CANCEL. -/
def execRqtCancel (fn : Fin 32) (v : Word) (s : State) : Result :=
  .next (s.blockAction pgRQT fn.val 0x108 fun t =>
    let t1 := t.wr pgRQT F.RQT_CANCEL_IDX (bits v.toNat 0 13)
    if nbit v.toNat 31 then t1.cancelRq (bits v.toNat 0 13) else t1)

/-- R319: a write of RQT.LATCH_IDX; with GO the whole entry is copied between two changes. -/
def execRqtLatch (fn : Fin 32) (v : Word) (s : State) : Result :=
  .next (s.blockAction pgRQT fn.val 0x104 fun t =>
    let i := bits v.toNat 0 13
    let t1 := t.wr pgRQT F.RQT_LATCH_IDX_IDX i
    if nbit v.toNat 31 then
      ((List.range 16).foldl (fun u w => u.wri pgRQT F.RQT_LATCH w (t.rqWord (t.rq i) w)) t1).wr pgRQT F.RQT_LATCH_IDX_DONE 1
    else t1)

/-- R295: a finished request's list head goes and its entry becomes FREE. -/
def execRqRelease (fn : Fin 32) (tag : Nat) (rq : Fin 8192) (s : State) : Result :=
  .next (s.command fn.val tag 0x34 fun t =>
    if !t.ownsRq fn.val rq.val then t.respond fn.val tag stDENIED 0
    else if !rqTerminal (t.rq rq.val).state then t.respond fn.val tag stFAULT 0
    else
      let t1 := t.plDestroy rq.val
      ({ t1 with rqt := { t1.rqt with entries := mdel t1.rqt.entries rq.val } }.showRqt).respond fn.val tag stCOMPLETE 0)

/-! Page room (R307) -/

/-- The tokens of room ahead of the committed length. -/
def roomAhead (attOpt : Nat) : Nat := if bits attOpt 2 2 = 1 ∨ bits attOpt 2 2 = 2 then 17 else 1

/-- Is the module, for this context, a member of a sequence-laid-out job that is not its tail (R307, R510)? -/
def State.notTail (s : State) (c : Nat) : Bool :=
  s.keg.jobs.any fun j => j.2.ctx == c && !j.2.aborted && j.2.table.any fun e => e.mem == s.rd pgCAB F.CAB_INDEX && !e.tail

def State.roomFor (s : State) (x : Rq) : Nat := if s.notTail x.ctx then 0 else roomAhead x.attOpt

/-- Pages of a pool that no request has reserved. -/
def KvPool.unreserved (p : KvPool) : Nat := p.free.length - p.reserved

/-- `n` more page positions reserved in every pool of a head, when each has them. -/
def State.reserve (s : State) (i n : Nat) : Option State :=
  match (s.rq i).head.bind s.head with
  | none => none
  | some h =>
    let js := List.range h.geom.dies.length
    if js.all fun j => (s.pool (h.geom.poolOf j)).any fun p => decide (n * h.geom.layers ≤ p.unreserved) then
      some ((js.foldl (fun t j => t.modPool (h.geom.poolOf j) fun p => { p with reserved := p.reserved + n * h.geom.layers }) s).modRq i
        fun y => { y with room := y.room + n })
    else none

/-- Tokens of room that the reservation leaves beyond the committed length. -/
def State.showRoom (s : State) (i : Nat) : State :=
  match (s.rq i).head.bind s.head with
  | none => s
  | some h => s.modRq i fun y => { y with resTokens := (ceilDiv h.stagedLen 64 + y.room) * 64 - h.stagedLen }

/-- The reservation extended so that it covers the committed length and the room ahead; none when a pool cannot supply it. -/
def State.extendRoom (s : State) (i : Nat) : Option State :=
  match (s.rq i).head.bind s.head with
  | none => some s
  | some h =>
    let need := ceilDiv (h.stagedLen + s.roomFor (s.rq i)) 64 - ceilDiv h.stagedLen 64
    (if need ≤ (s.rq i).room then some s else s.reserve i (need - (s.rq i).room)).map fun t => t.showRoom i

/-- R294, R307: a request enters HELD, with its completion; the hint is an estimate of the plan, a free value. -/
def State.holdRq (s : State) (i : Nat) : State :=
  let (s0, hint) := s.fresh 32
  let x := s0.rq i
  let s1 := s0.modRq i fun y => { y with state := rqHELD, before := x.state, heldTick := s.tick, cntHolds := min 255 (y.cntHolds + 1) }
  ((s1.complete i stHELD hint []).count pgRQT 0x058 1).showRqt

/-- R287: every page resident and the room extended, the request returns to the state before HELD. -/
def execHeldResume (rq : Fin 8192) (s : State) : Result :=
  .next (
    let x := s.rq rq.val
    let resident := (x.head.bind s.head).all fun h => !h.edited && h.staging.all fun e => e.2.state == 1 || e.2.state == 2
    if x.state != rqHELD || !resident || !s.inControl || !x.rebuilds.isEmpty then s
    else match s.extendRoom rq.val with
      | none => s
      | some t => (t.modRq rq.val fun y => { y with state := x.before }).showRqt)

/-! Admission (R279, R306–R309, R311) -/

/-- The VA that a 32-bit field of an entry names, in the module's own space (R291). -/
def State.fieldVa (s : State) (x k : Nat) : Nat := x * 2 ^ k % 2 ^ 42 + s.rd pgCAB F.CAB_INDEX * 2 ^ 42

/-- Does a VA translate to a frame of the context? -/
def State.translates (s : State) (c va : Nat) : Bool :=
  match s.xlate c va false false with
  | .ok _ => true
  | .error _ => false

/-- The reservation of a context that has not ended. -/
def State.resvOf (s : State) (c : Nat) : Option (Nat × Resv) := s.resv.find? fun r => r.2.ctx == c && !r.2.ending

/-- Test 3 (R311): a class-0 request against its reservation. -/
def State.c0Refused (s : State) (x : Rq) (g : Geom) : Option Nat :=
  match s.resvOf x.ctx with
  | none => some stREFUSED_MEM
  | some (i, r) =>
    let used := (s.rqt.entries.filter fun e => e.2.res && e.2.ctx == x.ctx && e.2.state != rqFREE).length
    let pinned := (List.range g.dies.length).all fun j => (s.pool (g.poolOf j)).any fun p => p.pinned == some i
    if r.entries ≤ used ∨ r.positions < x.promptLen + x.genMax + 17 ∨ pinned = false ∨ r.segs.isEmpty then some stREFUSED_MEM
    else if !boundOk s.tb.st && !s.on pgRQT F.RQT_CFG_C0_UNBOUND then some stREFUSED_TIME
    else none

/-- The cost in clocks of a step of `tokens` tokens that read `keys` keys (R304). -/
def Cost.clk (c : Cost) (tokens keys : Nat) : Nat := c.fix + c.tok * tokens + c.key * ceilDiv keys 1024

def State.costOf (s : State) (model cls : Nat) : Option Cost := mget s.rqt.costs (model * 4 + cls)

def State.chunkOf (s : State) (x : Rq) : Nat := if x.chunk = 0 then s.rd pgRQT F.RQT_CFG_CHUNK_DEFAULT else x.chunk

/-- The class's clocks per period in the plan: its groups' slots less those that R74 removed. -/
def State.classBudget (s : State) (cls : Nat) : Nat :=
  sumBy (fun g => if g.cls = cls then s.groupLen g * s.slotClk else 0) s.gate.plan

/-- The cost of the prefill that a request still has (R308), in clocks; without a cost record each chunk of 16 tokens takes a group. -/
def State.prefillCost (s : State) (x : Rq) (model : Nat) : Nat :=
  let left := x.promptLen - x.promptDone
  match s.costOf model x.cls with
  | some c =>
    let ch := max 1 (s.chunkOf x)
    let n := ceilDiv left ch
    sumBy (fun i => c.clk (min ch (left - i * ch)) (x.promptDone + i * ch)) (List.range n)
  | none =>
    let gs := s.gate.plan.filter fun g => g.cls == x.cls
    if gs.isEmpty then 0 else ceilDiv left 16 * ceilDiv (s.classBudget x.cls) gs.length

def State.modelOf (s : State) (x : Rq) : Nat := ((x.head.bind s.head).map fun (h : Head) => h.geom.model).getD 0

/-- Tfirst of R308, none where the class has no budget left. -/
def State.tFirst (s : State) (x : Rq) (model : Nat) : Option Nat :=
  let ahead := sumBy (fun e => if e.2.cls ≤ x.cls ∧ (e.2.state = rqADMITTED ∨ e.2.state = rqPREFILL) then s.prefillCost e.2 (s.modelOf e.2) else 0)
    s.rqt.entries
  let b := s.classBudget x.cls - ahead
  if b = 0 then none else some ((s.tb.nextMark + (2 + ceilDiv (s.prefillCost x model) b) * s.tb.perTicks) % 2 ^ 48)

/-- R279: the matched positions of the prompt are attached. -/
def State.attach (s : State) (hd : Nat) : Nat → State
  | 0 => s
  | fuel + 1 =>
    match s.head hd with
    | none => s
    | some h => match s.treeOf h with
      | none => s
      | some (d, x) =>
        let s0 := s.count s.pfxPage 0x070 1
        match s0.pfxFind d x (s0.nextKey x h.geom.model h.chain h.log) with
        | none => s0
        | some i =>
          if (mget s0.kv.pfx i).any fun y => y.rebuilding || y.model != h.geom.model || y.pages.length != h.geom.dies.length * h.geom.layers then s0
          else ((s0.attachPos hd i false).count s.pfxPage 0x074 1).attach hd fuel

/-- An admission that fails: the completion with its hint; the entry stays FREE until it is written (R290, R309). -/
def State.refuseRq (s : State) (i status hint : Nat) : State :=
  let s1 := s.modRq i fun y => { y with ending := 6, refused := true }
  let s2 := if status = stREFUSED_MEM then s1.count pgRQT 0x050 1 else if status = stREFUSED_TIME then s1.count pgRQT 0x054 1 else s1
  s2.complete i status hint []

/-- A refusal whose hint is an estimate that the spec gives no value for: a free value. -/
def State.refuseFree (s : State) (i status : Nat) : State :=
  let (s1, hint) := s.fresh 32
  s1.refuseRq i status hint

/-- R307, R308: page room for the prompt, then the time of the first delivery, for a request whose head `hd` was made. -/
def State.admitRoom (s : State) (i hd : Nat) : State :=
  let x := s.rq i
  match s.head hd with
  | none => s
  | some h =>
    let M := h.chain.length
    let a := s.roomFor x
    let need := ceilDiv (x.promptLen + a) 64 - M
    let undo := fun (t : State) => (t.dropRoom i |>.destroyHead hd).modRq i fun y => { y with head := none, promptDone := 0, resTokens := 0 }
    match s.reserve i need with
    | none =>
      let few := (List.range h.geom.dies.length).any fun j => (s.pool (h.geom.poolOf j)).any fun p => decide (p.total < need * h.geom.layers)
      if few then (undo s).refuseRq i stREFUSED_MEM 0xFFFFFFFF else (undo s).refuseFree i stREFUSED_MEM
    | some t =>
      let y := t.rq i
      let late := x.cls != 0 && x.dlValid && match t.tFirst { y with promptDone := 64 * M } h.geom.model with
        | none => true
        | some tf => decide (1 ≤ Machine.ahead tf x.dl ∧ Machine.ahead tf x.dl < 2 ^ 47)
      if late then
        let hint := match t.tFirst { y with promptDone := 64 * M } h.geom.model with
          | none => 0xFFFFFFFF
          | some tf => min (2 ^ 32 - 1) (Machine.ahead tf x.dl)
        (undo t).refuseRq i stREFUSED_TIME hint
      else
        let t1 := t.modRq i fun z => { z with state := rqADMITTED, intake := false, res := x.cls == 0, promptDone := 64 * M }
        (((t1.modHead hd fun g => { g with stagedLen := 64 * M, length := if M = 0 then g.length else 64 * M }).showRoom i).count pgRQT 0x04C 1).count
          (pgCNT x.ctx) F.CNT_PROMPT (64 * M) |>.showRqt

/-- R306: the tests in order, for an entry whose admission is in progress. -/
def execAdmission (rq : Fin 8192) (s : State) : Result :=
  .next (
    let i := rq.val
    let x := s.rq i
    if !s.inControl || x.state != rqFREE || !x.intake || x.refused then s
    else
      let (s0, b) := s.hubRead x.ctx (s.fieldVa x.headVa 12) 4
      let g := geomOf (b.getD [])
      let s1 := if b.isSome then s0.seeModel g.model else s0
      if b.isSome && g.dies.any fun n => !s.hasUnit (pgDIE n) then s1.refuseRq i stNOUNIT 0xFFFFFFFF
      else if (s1.keyIn x.ctx).isNone || b.isNone || !s1.translates x.ctx (s.fieldVa x.paramVa 10) then s1.refuseRq i stDENIED 0xFFFFFFFF
      else match (if x.cls = 0 then s1.c0Refused x g else none) with
        | some st => s1.refuseFree i st
        | none =>
          let made := if x.head.isSome then some (s1, x.head.getD 0)
            else if (s1.headRefused x.ctx g).isSome then none
            else some (s1.makeHead x.ctx g x.prompt)
          match made with
          | none => s1.refuseFree i stREFUSED_MEM
          | some (s2, hd) =>
            let s3 := s2.modRq i fun y => { y with head := some hd }
            (s3.attach hd ((x.promptLen - 1) / 64)).admitRoom i hd)

/-! Reservations (R310, R312) -/

/-- The refusal of RES_CREATE, if any: NOUNIT, DENIED, FAULT, REFUSED_MEM, REFUSED_TIME. -/
def State.resRefused (s : State) (r : Resv) (cost : Option Cost) : Option Nat :=
  let vatGone := fun (d f L : Nat) => (s.cmdVat d f L).isNone
  let bankBad := fun (p : Nat → Nat → Bool) => r.banks.any fun b => match s.cmdVat b.1 b.2.1 b.2.2.1 with
    | some pg => (bitsSet b.2.2.2 16).any fun k => p pg k
    | none => false
  let segBad := fun (p : Nat → Nat → Bool) => r.segs.any fun g => (bitsSet g.2.2 32).any fun k => p (pgFLOOR g.1 g.2.1) k
  -- the pinned banks of one vat form a run (R257)
  let gap := r.banks.any fun b => let bs := bitsSet b.2.2.2 16
    bs.isEmpty || decide (bs.getLastD 0 - bs.headD 0 + 1 ≠ bs.length)
  if (r.vats.any fun v => vatGone v.1 v.2.1 v.2.2) || (r.banks.any fun b => vatGone b.1 b.2.1 b.2.2.1) ||
      r.segs.any fun g => (s.cmdFloor g.1 g.2.1).isNone then some stNOUNIT
  else if !s.ctxOpen r.ctx || bankBad (fun pg k => (s.bankOwner pg k).any fun o => o != r.ctx) ||
      segBad (fun fp k => (s.segOwner fp k).any fun o => o != r.ctx) then some stDENIED
  else if decide (r.g < 1 ∨ 64 < r.g ∨ 64 < r.start + r.g ∨ r.entries < 1 ∨ 64 < r.entries) || gap then some stFAULT
  else if (s.resv.any fun q => q.2.ctx == r.ctx) || decide (16 ≤ s.resv.length) ||
      bankBad (fun pg k => s.bankOwner pg k != some r.ctx || s.rdi pg F.VAT_BANK_OWNER_PINNED k != 1) ||
      segBad (fun fp k => s.segOwner fp k != some r.ctx || s.rdi fp F.FLOOR_SEG_OWNER_PINNED k != 1) ||
      decide (s.rqCount rqFREE < s.c0Held + r.entries) then some stREFUSED_MEM
  else match cost with
    | none => some stREFUSED_TIME
    | some c => if s.tb.st ≠ .locked ∨ r.bstep < 2 * c.clk r.chunk (r.positions * r.entries) + 104 then some stREFUSED_TIME else none

/-- RES_CREATE: group start and length, logical vats, banks and segments (each with die and floor), the sizes, and the model whose cost record
for class 0 the test takes. The reservation's pinned pool on die n has the number 0xFF00 + 4 × reservation + n. -/
def execResCreate (fn : Fin 32) (tag : Nat) (ctx : Fin 1024) (start g : Nat) (vats : List (Nat × Nat × Nat)) (banks : List (Nat × Nat × Nat × Nat))
    (segs : List (Nat × Nat × Nat)) (entries positions chunk model : Nat) (s : State) : Result :=
  .next (s.command fn.val tag 0x30 fun t =>
    let r : Resv := { ctx := ctx.val, start := start, g := g, vats := vats, banks := banks, segs := segs, entries := entries,
                      positions := positions, chunk := chunk, bstep := g * t.slotClk }
    match t.resRefused r (t.costOf model 0) with
    | some st => t.respond fn.val tag st 0
    | none =>
      let i := ((List.range 16).find? fun k => (mget t.resv k).isNone).getD 0
      let t1 := vats.foldl (fun u v => match u.vatOf (pgFLOOR v.1 v.2.1) v.2.2 with
        | some pg => u.wr pg F.VAT_C0_RES 1
        | none => u) { t with resv := mput t.resv i r }
      let pool := fun (n : Nat) => ({ die := n, isDomain := false, owner := ctx.val, units := 0, low := 0, high := 0, pinned := some i } : KvPool)
      let t2 := ((List.range 4).filter fun n => banks.any fun b => b.1 == n).foldl (fun u n =>
        { u with kv := { u.kv with pools := mput u.kv.pools (0xFF00 + 4 * i + n) (pool n) } }) t1
      (((t2.setCtxField F.CTXS_ENTRY_C0_RES ctx.val 1).showResv).showRqt.showKv).respond fn.val tag stCOMPLETE 0)

def execResEnd (fn : Fin 32) (tag : Nat) (ctx : Fin 1024) (s : State) : Result :=
  .next (s.command fn.val tag 0x31 fun t =>
    match t.resvOf ctx.val with
    | none => t.respond fn.val tag stFAULT 0
    | some (i, r) => ({ t with resv := mput t.resv i { r with ending := true } }.settleResv).respond fn.val tag stCOMPLETE 0)

def execModelCost (fn : Fin 32) (tag model : Nat) (cls : Fin 4) (fix tok key : Word) (s : State) : Result :=
  .next (s.command fn.val tag 0x32 fun t =>
    if !t.rqt.models.contains model then t.respond fn.val tag stFAULT 0
    else
      let c : Cost := { fix := fix.toNat, tok := tok.toNat, key := key.toNat }
      { t with rqt := { t.rqt with costs := mput t.rqt.costs (model * 4 + cls.val) c } }.respond fn.val tag stCOMPLETE 0)

/-- R312: each reservation against the active slot table, at a mark. -/
def State.checkResv (s : State) : State :=
  let fits := fun (r : Resv) => slotGroupStart (s.slotEntry s.activeCopy r.start) && (List.range r.g).all fun k =>
    let e := s.slotEntry s.activeCopy (r.start + k)
    slotResValid e && slotResCtx e == r.ctx
  (s.resv.foldl (fun t e =>
    let t1 := { t with resv := mput t.resv e.1 { e.2 with suspended := !fits e.2 } }
    if fits e.2 = e.2.suspended then t1.raise pgRQT (if fits e.2 then 2 else 1) else t1) s).showResv

/-! Releasing vat 7 for self-test (R112, R314) -/

/-- Does a reservation name logical vat 7 of the floor, or does a bank of it carry PINNED? -/
def State.vat7Held (s : State) (die floor : Nat) : Bool :=
  (s.resv.any fun r => r.2.vats.any fun v => v == (die, floor, 7)) ||
    match s.vatOf (pgFLOOR die floor) 7 with
    | some pg => (List.range 16).any fun b => s.rdi pg F.VAT_BANK_OWNER_PINNED b == 1
    | none => false

/-- A floor with its spare used up and KEEP_TEST asks for its logical vat 7; RELEASE_WAIT while a reservation holds it. -/
def execVatReleaseReq (f : FloorId) (s : State) : Result :=
  .next (
    let fp := floorPgOf f
    if !s.hasUnit (pgDIE f.die.val) || !s.hasUnit fp || s.rd fp F.FLOOR_SPARE != 0xF || !s.on fp F.FLOOR_CFG_KEEP_TEST ||
        (s.vatOf fp 7).isNone || nget s.rqt.releases fp != 0 || !s.inControl then s
    else
      let s1 := { s with rqt := { s.rqt with releases := mput s.rqt.releases fp 1 } }
      if s.vat7Held f.die.val f.floor.val then s1.raise pgRQT 5 else s1)

/-- At a period mark a release that nothing holds proceeds: nothing is armed on the vat from there on. -/
def State.proceedReleases (s : State) : State :=
  let go := fun (e : Nat × Nat) => if s.vat7Held (dieOf e.1) (floorNo e.1) then e else (e.1, 2)
  { s with rqt := { s.rqt with releases := s.rqt.releases.map go } }

/-- R314 steps 3 and 4: at a step boundary with no entry armed the vat's banks are released and it becomes the spare. -/
def execVatReleaseBanks (f : FloorId) (s : State) : Result :=
  .next (
    let fp := floorPgOf f
    match s.vatOf fp 7 with
    | none => s
    | some pg =>
      if nget s.rqt.releases fp != 2 || !(s.vat pg).atBoundary || !(s.vat pg).entries.isEmpty then s
      else
        let s1 := ((s.banksLost pg 7 (List.range 16)).clearTags pg).zeroStore pg
        let s2 := ((s1.wr fp F.FLOOR_VAT_MAP (mapWith (s1.rd fp F.FLOOR_VAT_MAP) 7 0xF)).wr fp F.FLOOR_SPARE (physOfVat pg)).wr fp F.FLOOR_IN_SVC 7
        { s2 with rqt := { s2.rqt with releases := mdel s2.rqt.releases fp } }.recount)

end Sys2Proof.Machine
end

