-- ==== Sys2Proof/Machine/Steps.lean ====
section
/-! DEFINITION. Steps from their filling to their commit: the table hardware's selection, the step start, the attention control block, the
lookup drafter, the die ring, the step join (R149, R220–R252, R270, R296–R305). -/

namespace Sys2Proof.Machine

/-! Filling a step (R302–R304, R313) -/

/-- Do the two contexts belong to one context set (R403)? -/
def State.sameSet (s : State) (a b : Nat) : Bool :=
  a == b || (s.domainOf a).any fun d => s.domainOf b == some d && s.ctxField F.CTXS_ENTRY_BATCH_SHARE a == 1 && s.ctxField F.CTXS_ENTRY_BATCH_SHARE b == 1

/-- A byte of context memory as the block finds it, without an access being counted: how many candidates a request will carry. -/
def State.peek (s : State) (c va : Nat) : Option Nat :=
  match s.xlate c va false false with
  | .ok pa => match s.frame (pa / 4096) with
    | some x => (s.keyIn (slotOfOwner x.otype x.owner)).map fun key => (s.lineText (pa / 64) key).getD (pa % 64) 0
    | none => none
  | .error _ => none

def State.peekLE (s : State) (c va n : Nat) : Option Nat :=
  (List.range n).foldr (fun i a => match a, s.peek c (va + i) with
    | some x, some b => some (b + 256 * x)
    | _, _ => none) (some 0)

/-- CAND_SRC as it acts (R241): reserved and forbidden sources count as none. -/
def State.candSrc (s : State) (die opt : Nat) : Nat :=
  match bits opt 2 2 with
  | 1 => if s.on (pgATT die) F.ATT_CFG_CAND_PERMIT then 1 else 0
  | 2 => if s.on (pgATT die) F.ATT_CFG_LKP_PERMIT then 2 else 0
  | _ => 0

/-- The die on which a request's head has its first slot. -/
def State.rqDie (s : State) (x : Rq) : Nat := ((x.head.bind s.head).bind fun (h : Head) => h.geom.dies.head?).getD 0

/-- The number of candidates that a request will carry (R302). -/
def State.candCount (s : State) (x : Rq) : Nat :=
  match s.candSrc (s.rqDie x) x.attOpt with
  | 1 => if x.candVa = 0 then 0 else min 64 ((s.peekLE x.ctx (s.fieldVa x.candVa 10) 1).getD 0)
  | 2 => x.draft.length
  | _ => 0

/-- May an entry join a step of the group now? Not with a step in progress, a truncation or publication pending (R264, R272), or a completion
still unwritten (R492). -/
def State.eligible (s : State) (g : GroupPlan) (e : Nat × Rq) : Bool :=
  let x := e.2
  x.cls == g.cls && s.modelOf x == g.model && (g.ctxs.head?.any fun c => s.sameSet c x.ctx) && g.ctxs.contains x.ctx &&
    (x.state == rqADMITTED || x.state == rqPREFILL || x.state == rqDECODE) && x.step.isNone && x.trunc.isNone &&
    (x.head.bind s.head).all (fun h => !h.edited) && !(s.rqt.outQ.any fun c => c.idx == some e.1) &&
    (x.cls != 0 || (s.resvOf x.ctx).any fun r => !r.2.suspended && r.2.start == g.start)

/-- Higher PRIO first, then the earlier deadline, none last, then the lower index (R302). -/
def rqBefore (now : Nat) (a b : Nat × Rq) : Bool :=
  if a.2.prio ≠ b.2.prio then decide (b.2.prio < a.2.prio)
  else
    let key := fun (x : Rq) => if x.dlValid then (x.dl + 2 ^ 47 - now % 2 ^ 48) % 2 ^ 48 else 2 ^ 48
    if key a.2 ≠ key b.2 then decide (key a.2 < key b.2) else decide (a.1 ≤ b.1)

/-- The filling so far: members, tokens, keys, and whether a request was passed over. -/
structure Fill where
  members : List Member := []
  tokens : Nat := 0
  keys : Nat := 0
  passed : Bool := false
  deriving DecidableEq, Repr

/-- Does a step of these totals stay in its capacity and, with a cost record, in its budget? -/
def fillFits (cap budget : Nat) (cost : Option Cost) (tokens keys : Nat) : Bool :=
  decide (tokens ≤ cap) && match cost with
    | some c => decide (c.clk tokens keys ≤ budget)
    | none => true

/-- The largest multiple of 16 that fits, from `n` sixteens down (R303). -/
def chunkFit (fits : Nat → Bool) : Nat → Option Nat
  | 0 => none
  | n + 1 => if fits (16 * (n + 1)) then some (16 * (n + 1)) else chunkFit fits n

/-- The chunk that a prefilling request takes: none, passed over. An empty step takes 16 tokens where no chunk fits, and may overrun. -/
def State.chunkFor (s : State) (f : Fill) (cap budget : Nat) (cost : Option Cost) (x : Rq) (keys : Nat) : Option Nat :=
  let left := x.promptLen - x.promptDone
  let fits := fun n => fillFits cap budget cost (f.tokens + n) (f.keys + keys)
  if left = 0 then none
  else if left < 16 then (if fits left || f.members.isEmpty then some left else none)
  else
    let top := if cost.isNone then 1 else min (s.chunkOf x) left / 16
    match chunkFit fits top with
    | some n => some n
    | none => if f.members.isEmpty then some 16 else none

/-- One request considered for the step: `kind` 0 a recompute chunk, 1 decode, 2 prefill. -/
def State.consider (s : State) (g : GroupPlan) (budget : Nat) (cost : Option Cost) (kind : Nat) (f : Fill) (e : Nat × Rq) : Fill :=
  let x := e.2
  let h := x.head.bind s.head
  let keys := (h.map fun (y : Head) => y.length).getD 0
  let slot := (h.map fun (y : Head) => y.cur).getD 0
  let add := fun (m : Member) (n : Nat) => { f with members := f.members ++ [m], tokens := f.tokens + n, keys := f.keys + keys }
  if f.members.any fun m => m.idx == e.1 then f
  else if cost.isNone ∧ g.cls ≠ 0 ∧ f.members ≠ [] then { f with passed := true }
  else if kind = 0 then
    match x.rebuilds with
    | [] => f
    | w :: _ =>
      let n := ((h.bind fun (y : Head) => mget y.staging (pkey w.1 w.2.1 w.2.2)).map fun (p : PEnt) => p.fill).getD 0
      if fillFits g.cap budget cost (f.tokens + n) (f.keys + keys) || f.members.isEmpty then add { idx := e.1, slot := slot, rebuild := some w } n
      else { f with passed := true }
  else if !x.rebuilds.isEmpty then f
  else if kind = 1 then
    if x.state ≠ rqDECODE then f
    else
      let n := 1 + s.candCount x
      if fillFits g.cap budget cost (f.tokens + n) (f.keys + keys) then add { idx := e.1, slot := slot } n else { f with passed := true }
  else if x.state = rqDECODE then f
  else if g.cls = 0 then
    let n := min ((s.resvOf x.ctx).map fun (r : Nat × Resv) => r.2.chunk).get! (x.promptLen - x.promptDone)
    if n = 0 then f else add { idx := e.1, slot := slot, chunk := n } n
  else match s.chunkFor f g.cap budget cost x keys with
    | some n => add { idx := e.1, slot := slot, chunk := n } n
    | none => { f with passed := true }

/-- R302, R313: the members of a group's step. -/
def State.fillStep (s : State) (g : GroupPlan) : Fill :=
  let es := (s.rqt.entries.filter (s.eligible g)).mergeSort (rqBefore s.tick)
  let budget := s.groupLen g * s.slotClk
  let cost := s.costOf g.model g.cls
  let cap := if g.cls = 0 then 2 ^ 32 else g.cap
  let g1 := { g with cap := cap }
  let bud := if g.cls = 0 then 2 ^ 64 else budget
  [0, 1, 2].foldl (fun f k => es.foldl (fun f e => s.consider g1 bud cost k f e) f) {}

/-! Starting a step (R149, R153, R262, R293) -/

/-- The parameter block of a request, latched at its step's start; one that does not translate gives greedy sampling (R291, R293). -/
def State.latchParams (s : State) (x : Rq) : State × List Nat :=
  let (s1, b) := s.hubRead x.ctx (s.fieldVa x.paramVa 10) 1
  (s1, b.getD [])

/-- A `VOCAB` outside its range. -/
def vocabBad (b : List Nat) : Bool := (paramsOf b).any fun p => decide (p.vocab < 2 ∨ 1048576 < p.vocab)

/-- A request takes its place in a step that starts. -/
def State.joinStep (s : State) (id : Nat) (m : Member) : State × Member :=
  let x := s.rq m.idx
  let (s1, b) := s.latchParams x
  let s2 := match x.head with
    | some hd => s1.addReader hd m.slot
    | none => s1
  let gen := ((x.head.bind s.head).map fun (h : Head) => h.gen % 2 ^ 32).getD 0
  let s3 := s2.modRq m.idx fun y => { y with step := some id, plGen := gen, cntSteps := min 65535 (y.cntSteps + 1),
                                             state := if 0 < m.chunk then rqPREFILL else y.state }
  (s3.count (pgCNT x.ctx) F.CNT_STEPS 1, { m with params := b })

/-- R149, R153: LOCAL groups take their presets, the join is registered, the start amounts are posted. -/
def State.startStep (s : State) (g : GroupPlan) (members : List Member) : State :=
  let id := g.step
  let c := g.ctxs.headD 0
  let old := (s.step1 id).getD {}
  let (s1, ms) := members.foldl (fun (a : State × List Member) m =>
    let (t, m1) := a.1.joinStep id m
    (t, a.2 ++ [m1])) (s, [])
  let st : Step :=
    { old with
               ctx := c, cls := g.cls, model := g.model, start := g.start, glen := s.groupLen g, posts := g.posts, join := g.join, thresh := g.thresh,
               locals := g.locals, started := true, startClk := s.now, members := ms, resv := if g.cls = 0 then (s.resvOf c).map (·.1) else none }
  let s2 := (s1.setStep id st).presetLocals c g.locals
  let s3 := (s2.spSend 0 c g.join (.wait g.thresh (.join id))).count pgRQT 0x070 (boolNat (g.cls == 0))
  (s3.gatePosts c g.posts).showRqt

/-- R302, R293: a group's step at its starting edge. Requests whose VOCAB is out of range end with FAULT and take no place. A group with no
request and a token capacity is not started. -/
def State.runGroup (s : State) (g : GroupPlan) : State :=
  if s.activating 2 || s.pulled || (s.step1 g.step).any fun st => st.started && !st.joined then s
  else
    let bad := fun (t : State) (m : Member) => vocabBad (t.latchParams (t.rq m.idx)).2
    let f0 := s.fillStep g
    let s1 := (f0.members.filter (bad s)).foldl (fun t m => t.faultRq m.idx stFAULT) s
    let f := if f0.members.any (bad s) then s1.fillStep g else f0
    let s2 := if f.passed then s1.count pgRQT 0x07C 1 else s1
    if f.members.isEmpty && g.cap != 0 then s2 else s2.startStep g f.members

/-! The latch at the first layer start (R220, R232, R235–R237, R241) -/

/-- The explicit mask descriptor of the 1,024 bytes of a candidate descriptor: its fields, none outside the limits of R232. -/
def explOf (b : List Nat) : Option (List Nat) :=
  let base := le32At b 0x348
  let len := le32At b 0x34C
  let stride := le32At b 0x350
  if len % 64 = 0 ∧ 64 ≤ len ∧ len ≤ 65536 ∧ stride % 8 = 0 ∧ len / 8 ≤ stride then
    some [le32At b 0x340 + 2 ^ 32 * le32At b 0x344, base, len, stride, b.getD 0x354 0 % 2]
  else none

/-- The options word as it acts: reserved codes as 0, forbidden skimming as 0. -/
def State.actOptions (s : State) (die opt : Nat) : Nat :=
  let m := if bits opt 0 2 = 3 then opt - 3 else opt
  if s.on (pgATT die) F.ATT_CFG_SKIM_PERMIT then m else m - bits m 16 8 * 65536

/-- What a step latches for one member. -/
def State.latchMember (s : State) (die : Nat) (m : Member) : State × Member :=
  let x := s.rq m.idx
  let src := s.candSrc die x.attOpt
  let opt := s.actOptions die x.attOpt
  let m1 := { m with opt := opt }
  let want := (src == 1 && m.chunk == 0 && m.rebuild.isNone) || bits opt 0 2 != 0
  let va := s.fieldVa x.candVa 10
  let denied := match s.xlate x.ctx va false false with
    | .error c => c == 4 || c == 10
    | .ok _ => false
  let (s1, b) := if want && x.candVa != 0 then s.hubRead x.ctx va 16 else (s, none)
  let s2 := if want && x.candVa != 0 && src == 1 && denied then s1.ctxNoteQ x.ctx 15 m.idx else s1
  -- the explicit mask
  let (s3, m2) := if bits opt 0 2 = 0 then (s2, m1)
    else match b.bind explOf with
      | some e => (s2, { m1 with expl := e })
      | none => (s2.ctxNoteQ x.ctx 14 m.idx, { m1 with explBad := true })
  if m.chunk ≠ 0 ∨ m.rebuild.isSome then (s3, m2)
  else if src = 1 then
    match b with
    | none => (s3, m2)
    | some bs =>
      let seq := le32At bs 4
      if seq ≠ le32At bs 0x3FC ∨ seq = x.candSeq then (s3, m2)
      else
        let s4 := s3.modRq m.idx fun y => { y with candSeq := seq }
        match candTree bs with
        | none => (s4.ctxNoteQ x.ctx 15 m.idx, m2)
        | some t => (if t.isEmpty then s4 else s4.count (pgATT die) 0x064 1, { m2 with tree := t })
  else if src = 2 then
    if x.draftDone then
      let s4 := s3.modRq m.idx fun y => { y with draft := [], draftDone := false }
      (if x.draft.isEmpty then s4 else s4.count (pgATT die) 0x064 1, { m2 with tree := x.draft })
    else ((s3.modRq m.idx fun y => { y with draftClk := none }).raise (pgATT die) 3, m2)
  else (s3, m2)

/-- R220: at the first layer start of a step every member is latched. -/
def State.latchStep (s : State) (id die : Nat) : State :=
  match s.step1 id with
  | none => s
  | some st =>
    if st.latched then s
    else
      let (s1, ms) := st.members.foldl (fun (a : State × List Member) m =>
        let (t, m1) := a.1.latchMember die m
        (t, a.2 ++ [m1])) (s, [])
      s1.modStep id fun x => { x with members := ms, latched := true }

/-! A layer (R221–R233, R243, R247, R265) -/

/-- The layer descriptor's fields (R221). -/
structure LayerDesc where
  hd : Nat
  kvh : Nat
  group : Nat
  qf : Nat
  kf : Nat
  outF : Nat
  pBf16 : Bool
  emit : Bool
  pattern : Nat
  dieSet : Nat
  layer : Nat
  window : Nat
  outVa : Nat
  lseVa : Nat
  bufAddr : Nat
  bufBytes : Nat
  mask : Nat
  bad : Bool
  deriving DecidableEq, Repr

def layerOf (b : List Nat) : LayerDesc :=
  let le := fun i n => (List.range n).foldr (fun k a => b.getD (i + k) 0 + 256 * a) 0
  let f4 := le 4 1
  let f5 := le 5 1
  { hd := le 0 2, kvh := le 2 1, group := le 3 1, qf := f4 % 16, kf := f4 / 16, outF := f5 % 4, pBf16 := nbit f5 2, emit := nbit f5 3,
    pattern := bits f5 4 2, dieSet := le 6 1 % 16, layer := le 7 1, window := le 12 4, outVa := le 16 8, lseVa := le 24 8,
    bufAddr := le 32 4, bufBytes := le 36 4, mask := le 40 12, bad := nbit f5 7 || 16 ≤ le 6 1 || (List.range 12).any fun i => le (52 + i) 1 != 0 }

/-- The vats of a mask, in ascending bit order. -/
def LayerDesc.vats (d : LayerDesc) : List (Nat × Nat) := (bitsSet d.mask 96).map fun i => (i / 8, i % 8)

/-- R222: the check of a layer descriptor on die `n`. -/
def State.layerBad (s : State) (n : Nat) (d : LayerDesc) : Bool :=
  let fmtOk := fun f => f == 2 || f == 3 || f == 0xB
  let one := popcount d.dieSet 4 == 1
  d.bad || d.hd % 32 != 0 || decide (d.hd < 32 ∨ 256 < d.hd ∨ d.kvh < 1 ∨ 16 < d.kvh ∨ d.group < 1 ∨ 32 < d.group) ||
    !fmtOk d.qf || !fmtOk d.kf || d.outF == 3 || d.pattern == 3 || d.dieSet == 0 || !pairOk d.qf d.kf || d.bufBytes % 64 != 0 || d.mask == 0 ||
    (d.vats.any fun v => (s.vatOf (pgFLOOR n v.1) v.2).isNone) || (d.pattern == 0 && !one) || (d.pattern == 2 && one)

/-- The explicit bit of a query token and a key position (R232). -/
def State.explicitBit (s : State) (c : Nat) (m : Member) (q pos : Nat) : Bool :=
  match m.expl with
  | [va, base, len, stride, outside] =>
    if base ≤ pos ∧ pos < base + len then
      (s.peek c (va + q * stride + (pos - base) / 8)).any fun b => nbit b ((pos - base) % 8)
    else outside == 1
  | _ => false

/-- A lane in the layer's output format. -/
def outCode (f x : Nat) : Nat := if f = 0 then narrow 0xB x else if f = 2 then narrow 0xC x else x
def outBytes (f : Nat) : Nat := if f = 1 then 4 else 2

/-- The step keys of the step that the first vat's step buffer takes: bytes needed for keys and values in `KV_FMT` (R223). -/
def stepKeyBytes (d : LayerDesc) (st : Step) : Nat :=
  sumBy (fun m => if m.chunk = 0 then 1 + m.tree.length else m.chunk) st.members * d.kvh * 2 * d.hd * (if d.kf = 0xB then 2 else 1)

/-- R265, R266: the walker of a die resolves a request's entries of a layer, up to the committed length. -/
def State.walkKv (s : State) (n id : Nat) (layer : Nat) (m : Member) : State :=
  let x := s.rq m.idx
  match x.head, x.head.bind s.head with
  | some hd, some h =>
    let map := h.slots.getD m.slot []
    let j := (h.geom.dies.zipIdx.find? fun e => e.1 == n).map (·.2) |>.getD 0
    let ks := (map.filter fun e => keySlot e.1 == j && keyLayer e.1 == layer).map (·.1)
    let s1 := ks.foldl (fun t k =>
      let tag := walkTag n hd m.slot k
      let t1 := t.count (pgKVW n) 0x04C 1
      if t1.kv.lab.contains tag then t1.count (pgKVW n) 0x050 1
      else
        let t2 := t1.count (pgKVW n) 0x054 1
        let mine := t2.kv.lab.filter fun e => e / 2 ^ 60 == n
        if mine.length < 512 then { t2 with kv := { t2.kv with lab := tag :: t2.kv.lab } }
        else
          let (t3, r) := t2.fresh 9
          { t3 with kv := { t3.kv with lab := tag :: t3.kv.lab.erase (mine.getD r 0) } }) s
    if map.any fun e => keySlot e.1 == j && keyLayer e.1 == layer && (e.2.state == 3 || e.2.state == 4 || e.2.state == 5) then
      (s1.failStep id stFAULT 0).ctxStQ x.ctx 18 stFAULT m.idx
    else s1
  | _, _ => s

/-- One row of a layer: masks, the softmax of each vat's tiles, the combine, the output. -/
def State.layerRow (s : State) (n : Nat) (d : LayerDesc) (st : Step) (r : AttRow) : State :=
  match st.members[r.member]? with
  | none => s
  | some m =>
    let x := s.rq m.idx
    let L := ((x.head.bind s.head).map fun (h : Head) => h.geom.base + h.length).getD 0
    let qpos := if m.chunk = 0 then L + nodeDepth m.tree 65 r.node else L + r.token
    let sees := fun (k : AttKey) => !m.explBad && visible d.window (bits m.opt 0 2) m.tree (m.chunk == 0) qpos r.node k.pos k.node
      (s.explicitBit x.ctx m r.token k.pos)
    let pf := if d.pBf16 then 0xB else d.kf
    let part := fun (tiles : List (List AttKey)) =>
      softRow d.hd pf d.kf (tiles.map fun t =>
        -- a tile in which no row sees a key takes zeros for its value row
        t.map fun k => if sees k then (k.score, k.value) else (f32NegInf, k.value))
    let p := (r.parts.map part).foldl combine (List.replicate d.hd 0, f32NegInf)
    let bytes := p.1.flatMap fun v => (List.range (outBytes d.outF)).map fun i => outCode d.outF v / 256 ^ i % 256
    let s1 := s.hubWrite st.ctx (d.outVa + r.out) bytes
    let s2 := if d.emit then s1.hubWrite st.ctx (d.lseVa + r.lse) ((List.range 4).map fun i => p.2 / 256 ^ i % 256) else s1
    let s3 := (s2.count (pgATT n) 0x050 (sumBy List.length r.parts)).count (pgATT n) 0x054 (sumBy List.length r.parts)
    if f32IsNan p.2 then (((s3.count (pgATT n) 0x060 1).count (pgCNT x.ctx) F.CNT_NAN_ROWS 1)).ctxNoteQ x.ctx 16 m.idx
    else if p.2 = f32NegInf then (s3.count (pgATT n) 0x05C 1).count (pgCNT x.ctx) F.CNT_EMPTY_ROWS 1
    else s3

/-- LAYER_START: the attention kernel of a vat posts the layer start with the VA of its layer descriptor. `skimmed` page-heads were skipped under
R247 (they may be only where a member skims), `sumBad` summaries read with a parity error (R248), and `bufParity`: the block's mask and tree state
shows a parity error, so that the step ends under R134 (R252). -/
def execLayerStart (v : VatId) (desc : Nat) (rows : List AttRow) (skimmed sumBad : Nat) (bufParity : Bool) (s : State) : Result :=
  .next (
    let n := v.die.val
    match s.kern (vatPg v) with
    | none => s
    | some k =>
      let id := k.step
      match s.step1 id with
      | none => s
      | some st0 =>
        if !st0.started || st0.status != 0 then s
        else if bufParity then (s.raise (pgATT n) 1).dataDetect id
        else
          let s0 := (s.latchStep id n).count (pgATT n) 0x04C 1
          let st := (s0.step1 id).getD st0
          let (s1, b) := s0.hubRead st.ctx (desc / 64 * 64) 1 {} (some id)
          let fault := fun (t : State) => (t.failStep id stFAULT 0).ctxNoteQ st.ctx 14 desc
          match b with
          | none => s1
          | some bs =>
            let d := layerOf bs
            if (bitsSet d.dieSet 4).any fun q => !s1.hasUnit (pgDIE q) then s1.failStep id stNOUNIT 0
            else if desc % 64 ≠ 0 || s1.layerBad n d || decide (d.bufBytes < stepKeyBytes d st) ||
                -- R250: a die set that differs from the job's
                ((st.job.bind fun j => mget s1.keg.jobs j).any fun j => j.dieSet != d.dieSet) then fault s1
            else
              let s2 := st.members.foldl (fun t m => t.walkKv n id d.layer m) s1
              if (s2.step1 id).any fun x => x.status != 0 then s2
              else
                let skims := st.members.any fun m => bits m.opt 16 8 != 0
                let s3 := rows.foldl (fun t r => t.layerRow n d st r) s2
                let s4 := if skims then (s3.count (pgATT n) 0x058 skimmed).count (pgCNT st.ctx) F.CNT_SKIMMED skimmed else s3
                if sumBad = 0 then s4 else s4.raise (pgATT n) 0)

/-- R237: the drafter starts on the log that holds the pending token. -/
def execLkpDraftStart (rq : Fin 8192) (s : State) : Result :=
  .next (
    let x := s.rq rq.val
    if x.state != rqDECODE || x.draftClk.isSome || x.draftDone || x.step.isSome || bits x.attOpt 2 2 != 2 then s
    else s.modRq rq.val fun y => { y with draftClk := some s.now, draft := [] })

/-- R237: the drafter finishes. -/
def execLkpDraftDone (rq : Fin 8192) (s : State) : Result :=
  .next (
    let x := s.rq rq.val
    match x.draftClk, x.head.bind s.head with
    | some _, some h =>
      let pg := pgATT (s.rqDie x)
      let w := s.rd pg F.ATT_LKP_WINDOW
      let cs := draftCands h.log w (max 1 (min 16 (bits x.attOpt 8 5))) (bits x.attOpt 13 2 + 1)
      let s1 := s.modRq rq.val fun y => { y with draftClk := none, draftDone := true, draft := cs }
      if cs.isEmpty then s1.count pg 0x074 1 else s1.count pg 0x070 (if h.log.length < 4 then 0 else (draftMatches h.log w).length)
    | _, _ => s)

/-! The die ring (R249) -/

/-- The next die of a set in ascending order, wrapping. -/
def nextDie (set n : Nat) : Nat :=
  let ds := bitsSet set 4
  ((ds.filter fun d => n < d).head?).getD (ds.headD n)

/-- Four-byte values added in fp32 to those already there. -/
def addF32Bytes (old new : List Nat) : List Nat :=
  (List.range (new.length / 4)).flatMap fun i =>
    let v := f32Add (le32At old (4 * i)) (le32At new (4 * i))
    (List.range 4).map fun j => v / 256 ^ j % 256

/-- A transfer of a gather (written as it comes) or a reduce (added in fp32 to the partial there) reaches the next die of the set, at a VA of the
step's context within one line; `lost`: a ring link failed under it. -/
def execDieRingTransfer (src : Fin 4) (set step va : Nat) (reduce : Bool) (data : List Byte) (lost : Bool) (s : State) : Result :=
  .next (
    let dst := nextDie set src.val
    match s.step1 step with
    | none => s
    | some st =>
      if !nbit set src.val || dst == src.val || !st.started || data.isEmpty || decide (64 < va % 64 + data.length) then s
      else if lost || !s.hasUnit (pgDIE dst) || !s.hasUnit (pgDIE src.val) then (s.failStep step stFAULT 0).raise (pgATT dst) 2
      else
        let bs := data.map fun b => b.toNat
        if reduce then
          let (s1, old, how) := s.ctxRead dst st.ctx (va / 64 * 64) false {} (some step)
          if how ≠ 0 then s1 else (s1.ctxWrite dst st.ctx va false (addF32Bytes (old.drop (va % 64)) bs) false {} (some step)).1
        else (s.ctxWrite dst st.ctx va false bs false {} (some step)).1)

/-! The commit (R239–R245, R270, R294–R301, R305, R307) -/

/-- The `k`-th draw that a context's DRBG gives next (R131, R405), as VRAND gives it. -/
def State.draw (s : State) (c k : Nat) : Nat :=
  let n := (mget s.drbg c).getD (0, 0)
  randF32 (Config.drbg c n.1 (n.2 + k))

def State.takeDraws (s : State) (c n : Nat) : State :=
  let d := (mget s.drbg c).getD (0, 0)
  if n = 0 then s else { s with drbg := mput s.drbg c (d.1, d.2 + n) }

/-- The outcome of a member's step: accepted nodes, tokens, draws. A chunk that does not finish the prompt samples nothing. -/
def State.walkMember (s : State) (m : Member) (o : MemberOut) : Walk :=
  let x := s.rq m.idx
  let par := paramsOf m.params
  let draw := fun k => s.draw x.ctx k
  if m.rebuild.isSome || (x.state != rqPREFILL && x.state != rqDECODE) then {}
  else if 0 < m.chunk then
    (if x.promptDone + m.chunk = x.promptLen then sampleToken par (o.logits.getD 0 []) draw else {})
  else if m.tree.isEmpty && !nbit m.opt 4 then sampleToken par (o.logits.getD 0 []) draw
  else acceptWalk (nbit m.opt 4) par m.tree (fun n => o.logits.getD n []) draw (x.genMax - x.genCount)

/-- The keys that a member appends: its chunk, or the root and the accepted nodes. -/
def appendCount (m : Member) (w : Walk) : Nat := if m.rebuild.isSome then 0 else if 0 < m.chunk then m.chunk else 1 + w.nodes.length

/-- Is a request late now (R71)? -/
def State.isLate (s : State) (x : Rq) : Bool :=
  x.dlValid && decide (1 ≤ ahead s.tick x.dl ∧ ahead s.tick x.dl < 2 ^ 47)

/-- Appends, draws and the token log of one member whose request goes on; none when a pool is empty. -/
def State.appendMember (s : State) (m : Member) (w : Walk) : Option State :=
  let x := s.rq m.idx
  if x.state ≠ rqPREFILL ∧ x.state ≠ rqDECODE then some s
  else match x.head with
    | none => some s
    | some hd =>
      let opened := fun (t : State) => (((t.head hd).map fun (h : Head) => ceilDiv h.stagedLen 64).getD 0)
      (if appendCount m w = 0 then some s else s.kvAppend hd (appendCount m w)).map fun t =>
        let t1 := t.modRq m.idx fun y => { y with room := y.room - (opened t - opened s) }
        ((t1.logAppend hd w.tokens).takeDraws x.ctx w.draws)

/-- R296: the commit of one member: tokens delivered, the state changed, the list published. -/
def State.commitMember (s : State) (m : Member) (w : Walk) (again : Bool) : State :=
  let i := m.idx
  let x := s.rq i
  let par := paramsOf m.params
  let n := w.tokens.length
  let stop := (w.tokens.getLast?).any fun t => par.any fun p => p.stops.contains t
  let ending := if n = 0 then 0 else if stop then 1 else if x.genMax ≤ x.genCount + n then 2
    else if x.latePol = 1 && s.isLate x then 3 else 0
  let s1 := s.modRq i fun y => { y with
    step := none, promptDone := y.promptDone + m.chunk, genCount := y.genCount + n, ending := ending,
    recomputed := y.recomputed || again, cntRecomp := min 255 (y.cntRecomp + boolNat again),
    draftDone := false, draft := [], draftClk := none,
    state := if ending ≠ 0 then rqDONE else if n = 0 then y.state else rqDECODE }
  let s2 := (s1.count (pgCNT x.ctx) F.CNT_TOKENS n).count (pgCNT x.ctx) F.CNT_PROMPT m.chunk
  let pg := pgATT (s.rqDie x)
  let s3 := if m.tree.isEmpty then s2 else (s2.count pg 0x068 w.nodes.length).count pg 0x06C (m.tree.length - w.nodes.length)
  let s4 := match x.head with
    | some hd => s3.publish hd
    | none => s3
  if n = 0 then s4.showRoom i
  else
    let s5 := s4.complete i (if ending = 0 then stPARTIAL else stCOMPLETE) 0 w.tokens
    if ending ≠ 0 then s5.settleResv
    else match s5.extendRoom i with
      | some t => t
      | none => s5.holdRq i

/-- A member of a step that has ended: its reader goes, and what its request's state asks happens. `w` is none when the step failed. -/
def State.finishMember (s : State) (st : Step) (status : Nat) (m : Member) (w : Walk) : State :=
  let i := m.idx
  let x := s.rq i
  let s1 := match x.head with
    | some hd => (s.dropReader hd m.slot).releaseFreed hd
    | none => s
  if x.step.isNone then s1
  else if x.state = rqDRAINING then
    if x.ending = 4 then
      ({ s1 with rqt := { s1.rqt with entries := mmod s1.rqt.entries i fun (y : Rq) =>
                            { y with recomputed := y.recomputed || st.recomputed } } }).endRq i rqCANCELLED 4 stCANCELLED []
    else s1.endRq i rqFAULTED 5 (if x.faultSt = 0 then stFAULT else x.faultSt) []
  else if status ≠ 0 then s1.endRq i rqFAULTED 5 status []
  else if x.state = rqPREFILL ∨ x.state = rqDECODE then
    if m.rebuild.isSome then s1.modRq i fun y => { y with step := none } else s1.commitMember m w st.recomputed
  else s1.modRq i fun y => { y with step := none }

/-- The end of a step: its lag, its requests in order, what is left of it taken down. -/
def State.endStep (s : State) (id : Nat) (st : Step) (status : Nat) (ws : List Walk) : State :=
  let s0 := match st.edgeClk with
    | some e => s.lagOfOverrun (s.now - e)
    | none => s
  let overrun := st.cls = 0 ∧ (st.resv.bind fun r => mget s.resv r).any (fun r => decide (r.bstep < s.now - st.startClk)) = true
  let s1 := if overrun then (s0.raise pgRQT 3).count pgRQT 0x074 1 else s0
  let s2 := (st.members.zip ws).foldl (fun t e => t.finishMember st status e.1 e.2) s1
  let s3 := (s2.endStepKernels id).dropEntries id
  let mine := fun (w : Who) => w == Who.join id
  ({ s3 with
    steps := mdel s3.steps id
    spl := { s3.spl with waiters := s3.spl.waiters.filter fun y => !mine y.w, rels := s3.spl.rels.filter fun r => !mine r.1 } }).showRqt

/-- The release of a step's join reaches the hub, or a step that has failed completes (R149). `outs` gives what the step's kernels computed for
each member. -/
def State.joinRelease (s : State) (step : Nat) (outs : List MemberOut) : State :=
  match s.step1 step with
  | none => s
  | some st =>
    let released := s.spl.rels.any fun r => r.1 == Who.join step
    let status := if st.denied then stDENIED else st.status
    if !st.started || st.draining || (!released && status == 0) then s
    else
      let none1 := st.members.map fun _ => ({} : Walk)
      if status ≠ 0 then s.endStep step st status none1
      else
        -- each member's walk follows the draws of those before it
        let run := st.members.zipIdx.foldl (fun (a : Option (State × List Walk)) e => a.bind fun (t, ws) =>
          let w := t.walkMember e.1 (outs.getD e.2 { logits := [] })
          (t.appendMember e.1 w).map fun t1 => (t1, ws ++ [w])) (some (s, []))
        match run with
        | some (t, ws) => t.endStep step st 0 ws
        | none =>
          let s1 := (st.members.map fun m => (s.rq m.idx).ctx).eraseDups.foldl (fun t c => t.ctxStQ c 17 stFAULT step) s
          s1.endStep step st stFAULT none1

/-- R154, R209: a step may run again once its vats have drained and no recovery that it waits for is in progress. -/
def State.mayRerun (s : State) (step : Nat) (st : Step) : Bool :=
  let held := s.lp.recov.any fun e => e.2.steps.contains step
  let running := s.vats.any fun e => (e.2.kern.any fun k => k.step == step) || (e.2.susp.any fun k => k.step == step) || e.2.drain.any fun k => k.step == step
  st.draining && !held && !running

end Sys2Proof.Machine
end

