-- ==== Sys2Proof/Machine/Mill.lean ====
section
/-! DEFINITION. The Mill's jobs, pipes, chains and detections (R333–R344). -/

namespace Sys2Proof.Machine

/-- A detected error of a context: DETECTED in its event page, counted in its counter page (R415). -/
def State.noteDetected (s : State) (c : Nat) : State := (s.ctxNote c 3).count (pgCNT c) F.CNT_DETECT 1

/-- The hub posts to a spile of a context as a host post does (R156); one in an unmapped group raises SPILE_RANGE (R143). -/
def State.hubPost (s : State) (c v n : Nat) : State :=
  match s.spMap c v with
  | none => (s.ctxNoteQ c 5 v).count (pgSPL c) 0x068 1
  | some (phys, _) => if s.poisoned phys then s.ctxNoteQ c 6 v else s.enginePost c v phys n

def State.setJob (s : State) (i : Nat) (j : MillJob) : State := { s with mill := { s.mill with jobs := mput s.mill.jobs i j } }

/-- What the MILL page shows of the queues, the pipes and the chains (R344). -/
def State.showMill (s : State) : State :=
  let js := s.mill.jobs.map (·.2)
  let queued := fun c => (js.filter fun j => j.list.cls == c && j.loc == .queued).length
  let susp := fun p => js.foldl (fun m j => if j.loc = .suspended p then setBit m j.list.cls else m) 0
  let busy := fun p => boolNat (js.any fun j => j.loc == .running p)
  ((((((((s.wr pgMILL F.MILL_QUEUED_C0 (queued 0)).wr pgMILL F.MILL_QUEUED_C1 (queued 1)).wr pgMILL F.MILL_QUEUED_C2 (queued 2)).wr pgMILL
    F.MILL_QUEUED_C3 (queued 3)).wr pgMILL F.MILL_SUSP_ARRAY (susp 0)).wr pgMILL F.MILL_SUSP_PRE (susp 1)).wr pgMILL F.MILL_ARRAY_BUSY
    (busy 0)).wr pgMILL F.MILL_PRE_BUSY (busy 1)).wr pgMILL F.MILL_CHAINS s.mill.chains.length

/-- A job joins the queue of its class. -/
def State.addJob (s : State) (j : MillJob) : State :=
  { s with mill := { s.mill with jobs := mput s.mill.jobs s.mill.next j, next := s.mill.next + 1 } }.showMill

/-- The hold that a chained job has on its picture goes (R338, R358). -/
def State.dropChainHold (s : State) (j : MillJob) : State :=
  match j.chain with
  | none => s
  | some n => { s with codec := { s.codec with streams := mmod s.codec.streams n fun (x : Stream) =>
      { x with bufs := x.bufs.modify j.pic fun b => { b with chain := b.chain - 1 } } } }

/-- R337: a job ends with a status: `RESULT` of each descriptor, the done post, the counts. Descriptors that did not run to their end hold the
job's status. -/
def State.endJob (s : State) (i : Nat) (status : Nat) : State :=
  match mget s.mill.jobs i with
  | none => s
  | some j =>
    let c := j.list.ctx
    let word := fun k => match j.results[k]? with
      | some r => r + boolNat j.concealed * 2048 + (if status = stRECOMPUTED then stRECOMPUTED else 0)
      | none => status + boolNat j.concealed * 2048
    let s1 := j.list.descs.zipIdx.foldl (fun t e => t.hubWrite c (e.1.va + 60) (lowBytes 4 (word e.2))) s
    let s2 := ((s1.hubPost c j.list.spile 1).count pgMILL 0x04C 1).count (pgCNT c) F.CNT_MILL_JOBS 1
    let s3 := if j.list.cls = 0 then s2.count pgMILL 0x05C 1 else s2
    let s4 := s3.dropChainHold j
    { s4 with mill := { s4.mill with jobs := mdel s4.mill.jobs i } }.showMill

/-- A job that a plan's step or a chain brings (R335): with the Mill retired it completes with NOUNIT (R9). -/
def State.queueJob (s : State) (j : MillJob) : State :=
  if s.isRetired pgMILL then (s.addJob j).endJob s.mill.next stNOUNIT else s.addJob j

def listOk (l : MillList) : Bool := within l.descs.length 1 4 && l.descs.all (fun d => d.va % 64 == 0 && d.kind ≤ 2) && l.cls ≤ 3 && l.ctx < 1024

/-- MILL_SUBMIT. A list outside R335 completes with FAULT. -/
def execMillSubmit (fn : Fin 32) (tag : Nat) (list : MillList) (s : State) : Result :=
  .next (s.command fn.val tag 0x40 fun t =>
    let queued := (t.mill.jobs.filter fun e => e.2.list.cls == list.cls && e.2.loc == .queued).length
    if t.isRetired pgMILL then t.respond fn.val tag stNOUNIT 0
    else if !t.boundTo fn.val list.ctx then t.respond fn.val tag stDENIED 0
    else if !listOk list then t.respond fn.val tag stFAULT 0
    else if 64 ≤ queued then (t.raise pgMILL 3).respond fn.val tag stFAULT 0
    else (t.addJob { list := list }).respond fn.val tag stCOMPLETE 0)

/-- A codec engine is present and in service (R7). -/
def State.codecUp (s : State) : Bool := (List.range 4).any fun k => s.hasUnit (pgCODEC k)

def State.stream (s : State) (n : Nat) : Option Stream := mget s.codec.streams n

/-- MILL_CHAIN: a stream has at most one chain, which a further one replaces. -/
def execMillChain (fn : Fin 32) (tag stream : Nat) (list : MillList) (s : State) : Result :=
  .next (s.command fn.val tag 0x41 fun t =>
    if !t.codecUp then t.respond fn.val tag stNOUNIT 0
    else if !t.boundTo fn.val list.ctx || ((t.stream stream).map fun x => x.ctx) != some list.ctx then t.respond fn.val tag stDENIED 0
    else if !listOk list then t.respond fn.val tag stFAULT 0
    else if 128 ≤ t.mill.chains.length ∧ (mget t.mill.chains stream).isNone = true then t.respond fn.val tag stFAULT 0
    else ({ t with mill := { t.mill with chains := mput t.mill.chains stream list } }.showMill).respond fn.val tag stCOMPLETE 0)

/-- MILL_UNCHAIN: a job of the chain that has not started is cancelled, one that has completes. -/
def execMillUnchain (fn : Fin 32) (tag stream : Nat) (s : State) : Result :=
  .next (s.command fn.val tag 0x42 fun t =>
    match mget t.mill.chains stream with
    | none => t.respond fn.val tag stFAULT 0
    | some l =>
      if !t.boundTo fn.val l.ctx then t.respond fn.val tag stDENIED 0
      else
        let ids := (t.mill.jobs.filter fun e => e.2.chain == some stream && !e.2.started).map (·.1)
        let t1 := ids.foldl (fun u i => u.endJob i stCANCELLED) t
        ({ t1 with mill := { t1.mill with chains := mdel t1.mill.chains stream } }.showMill).respond fn.val tag stCOMPLETE 0)

/-- MILL_CANCEL: the context's queued jobs complete with CANCELLED. -/
def execMillCancel (fn : Fin 32) (tag : Nat) (ctx : Fin 1024) (s : State) : Result :=
  .next (s.command fn.val tag 0x43 fun t =>
    if !t.boundTo fn.val ctx.val then t.respond fn.val tag stDENIED 0
    else
      let ids := (t.mill.jobs.filter fun e => e.2.list.ctx == ctx.val && e.2.loc == .queued && !e.2.started).map (·.1)
      (ids.foldl (fun u i => u.endJob i stCANCELLED) t).respond fn.val tag stCOMPLETE 0)

/-- R338: a picture of a stream is finished: its chain queues a job over the picture's planes; one of the chain that has not started is replaced. -/
def State.chainPicture (s : State) (stream va pitch pic : Nat) (concealed : Bool) : State :=
  match mget s.mill.chains stream with
  | none => s
  | some l =>
    let s1 := { s with codec := { s.codec with streams := mmod s.codec.streams stream fun (x : Stream) =>
      { x with bufs := x.bufs.modify pic fun b => { b with chain := b.chain + 1 } } } }
    let j : MillJob := { list := l, chain := some stream, pic := pic, src := some (va, pitch), concealed := concealed }
    match s1.mill.jobs.find? fun e => e.2.chain == some stream && !e.2.started with
    | some e => ((((s1.dropChainHold e.2).setJob e.1 j).raise pgMILL 2).count pgMILL 0x074 1).showMill
    | none => s1.queueJob j

/-! The pipes -/

/-- The pipe of a job's next descriptor: 0 the array, 1 pre-processing. -/
def MillJob.pipe (j : MillJob) : Nat := match j.list.descs[j.done]? with
  | some d => if d.kind = 1 then 1 else 0
  | none => 0

def MillJob.descVa (j : MillJob) : Nat := match j.list.descs[j.done]? with
  | some d => d.va
  | none => 0

def MillJob.kind (j : MillJob) : Nat := match j.list.descs[j.done]? with
  | some d => d.kind
  | none => 0

/-- Does job `a` come before job `b` in a pipe: lower class, within a class the suspended one, then the older (R336)? -/
def millBefore (a b : Nat × MillJob) : Bool :=
  let susp := fun (e : Nat × MillJob) => match e.2.loc with
    | .suspended _ => true
    | _ => false
  if a.2.list.cls ≠ b.2.list.cls then decide (a.2.list.cls < b.2.list.cls)
  else if susp a ≠ susp b then susp a
  else decide (a.1 < b.1)

/-- The job that a pipe takes next. -/
def State.nextJob (s : State) (p : Nat) : Option (Nat × MillJob) :=
  let cand := s.mill.jobs.filter fun e => match e.2.loc with
    | .queued => e.2.pipe == p
    | .suspended q => q == p
    | _ => false
  cand.foldl (fun (b : Option (Nat × MillJob)) e => match b with
    | none => some e
    | some x => if millBefore e x then some e else some x) none

def State.runningJob (s : State) (p : Nat) : Option (Nat × MillJob) := s.mill.jobs.find? fun e => e.2.loc == .running p

/-- A job has come to its end and waits for `MILL_JOB_END`. MILL_FAULT for a fault inside the Mill. -/
def State.jobOver (s : State) (i : Nat) (j : MillJob) (status : Nat) : State := (s.setJob i { j with loc := .ended status }).showMill

/-- The last context of a pipe. -/
def State.pipeCtx (s : State) (p : Nat) : Option Nat :=
  if s.mill.used.contains p then some (s.rd pgMILL (if p = 0 then F.MILL_ARRAY_CTX else F.MILL_PRE_CTX)) else none

def State.setPipeCtx (s : State) (p c : Nat) : State :=
  ({ s with mill := { s.mill with used := if s.mill.used.contains p then s.mill.used else p :: s.mill.used } }).wr pgMILL
    (if p = 0 then F.MILL_ARRAY_CTX else F.MILL_PRE_CTX) c

/-- MILL_JOB_START (R336): a free pipe takes its next job; its buffers are cleared when the context changes. A job whose descriptor comes up is
checked (R321); a failed check ends it with FAULT and CONV_DESC. -/
def execMillJobStart (pre : Bool) (s : State) : Result :=
  .next (let p := boolNat pre
  if s.isRetired pgMILL || (s.runningJob p).isSome || s.millStopped || s.testing (.pipe (if pre then 1 else 0)) then s
  else match s.nextJob p with
  | none => s
  | some (i, j) =>
    let c := j.list.ctx
    let s1 := if s.pipeCtx p = some c ∨ s.pipeCtx p = none then s else s.count pgMILL 0x064 1
    let s2 := s1.setPipeCtx p c
    let fresh := match j.loc with
      | .queued => true
      | _ => false
    let j1 := { j with loc := .running p, started := true }
    if !fresh then (s2.setJob i j1).showMill
    else
      let (s3, d) := s2.hubRead c j.descVa 1
      match d with
      | none => s3.jobOver i j1 stFAULT
      | some b =>
        let ok := match j.kind with
          | 0 => millLayerOk b
          | 1 => millPreOk b (if j.done = 0 ∨ !(j.list.descs.take j.done).any (fun x => x.kind == 1) then j.src else none)
          | _ => millHeadOk b
        if ok then (s3.setJob i { j1 with desc := b }).showMill else (s3.ctxCode c 20 stFAULT 0x0C01).jobOver i j1 stFAULT)

/-- The picture that replaces the source of a chained job's first pre-processing descriptor. -/
def MillJob.srcNow (j : MillJob) : Option (Nat × Nat) :=
  if (j.list.descs.take j.done).any fun x => x.kind == 1 then none else j.src

/-- The lines of a list of spans, each once. -/
def spanLines (l : List (Nat × Nat)) : List Nat := (l.flatMap fun e => linesOf e.1 e.2).eraseDups

/-- Every line of the spans is read for a context: the state, and the first line that did not come back good, with how. `bad`: a line at this VA
reads bad. -/
def State.readSpans (s : State) (c : Nat) (l : List (Nat × Nat)) (bad : Option Nat) : State × Option (Nat × Nat) :=
  (spanLines l).foldl (fun a va =>
    match a.2 with
    | some _ => a
    | none =>
      let o : LineOut := if bad.any fun b => b / 64 == va / 64 then { fail1 := true, fail2 := true } else {}
      let (t, _, how) := a.1.ctxRead (a.1.vaDie c va) c va false o none
      (t, if how = 0 then none else some (va, how))) (s, none)

/-- The kind of frame that holds a context's VA. -/
def State.kindAt (s : State) (c va : Nat) : Option Nat := match s.xlate c va false false with
  | .ok pa => (s.frame (pa / 4096)).map fun x => x.kind
  | .error _ => none

/-- R343: a bad line met by a job. A WEIGHT frame: the job runs again from its first descriptor; any other, and an access that did not translate:
FAULT. -/
def State.millBadLine (s : State) (i : Nat) (j : MillJob) (va how : Nat) : State :=
  if how ≠ 3 ∧ s.kindAt j.list.ctx va = some 2 then
    ((s.setJob i { j with loc := .queued, done := 0, results := [], desc := [], tileDet := false, recomputed := true }).count
      (pgCNT j.list.ctx) F.CNT_RECOMP 1).showMill
  else s.jobOver i j stFAULT

/-- Busy clocks of a pipe. -/
def State.millBusy (s : State) (p n : Nat) : State := s.count pgMILL (if p = 0 then 0x050 else 0x054) n

/-- A descriptor has run: its `RESULT` word is kept, and the job goes on to its next descriptor or to its end. -/
def State.descDone (s : State) (i : Nat) (j : MillJob) (result : Nat) : State :=
  let j1 := { j with done := j.done + 1, results := j.results ++ [result], desc := [], tileDet := false }
  if j1.done < j1.list.descs.length then (s.setJob i { j1 with loc := .queued }).showMill
  else s.jobOver i j1 (if j1.recomputed then stRECOMPUTED else stCOMPLETE)

/-- The outputs of a descriptor are written; a write that does not translate ends the job with FAULT. -/
def State.millWrite (s : State) (i : Nat) (j : MillJob) (va : Nat) (bs : List Nat) (result : Nat) : State :=
  let bad := (linesOf va bs.length).any fun l => match s.xlate j.list.ctx (max l va) true false with
    | .ok _ => false
    | .error _ => true
  let s1 := s.hubWrite j.list.ctx va bs
  if bad then s1.jobOver i j stFAULT else s1.descDone i j result

/-- The last tile of a descriptor: its inputs are read, its outputs formed and written (R322–R343). -/
def State.runDesc (s : State) (i : Nat) (j : MillJob) (bad : Option Nat) : State :=
  let c := j.list.ctx
  let byte := fun va => (s.peek c va).getD 0
  match j.kind with
  | 0 =>
    let d := (millLayerOf j.desc).act1
    let unread := boolNat d.unread * 512
    if d.empty then s.descDone i j 256
    else
      match s.readSpans c d.reads bad with
      | (s1, some (va, how)) => s1.millBadLine i j va how
      | (s1, none) =>
        let n := d.outW * d.outH * d.cOut
        let f := s1.freeIdx
        let sats := (List.range n).foldl (fun a k => a + millSats byte d (k / d.cOut % d.outW) (k / d.cOut / d.outW) (k % d.cOut)) 0
        let s2 := (({ s1 with freeIdx := f + n }).millBusy 0 d.clk).count (pgCNT c) F.CNT_NUM_SAT sats
        s2.millWrite i j d.outVa (millLayerBytes byte (fun k => Config.freeNat (f + k)) d) (unread + boolNat d.allPad * 1024)
  | 1 =>
    let d := millPreOf j.desc j.srcNow
    match s.readSpans c d.reads bad with
    | (s1, some (va, how)) => s1.millBadLine i j va how
    | (s1, none) => ((s1.millBusy 1 d.clk).count pgMILL 0x058 (d.cropW * d.cropH)).millWrite i j d.dstVa (d.bytes byte) 0
  | _ =>
    let d := millHeadOf j.desc
    match s.readSpans c d.reads bad with
    | (s1, some (va, how)) => s1.millBadLine i j va how
    | (s1, none) =>
      let (s2, r) := s1.fresh 32
      let clk := match d.clk with
        | some n => n
        | none => if d.hop = 3 then r % (512 + 2 * d.n + d.k * ceilDiv d.n 16 + 1) else r
      let (bs, n) := d.bytes byte
      (s2.millBusy 0 clk).millWrite i j d.outVa bs (n % 65536 * 65536)

/-- MILL_TILE_END (R336, R343): a tile of the pipe's job ends. `det`: 1 a residue, 2 a parity detection in it: the tile is run again, or the job
fails at the second. `last`: the descriptor's last tile. A job of a lower class that waits for the pipe suspends the running one. -/
def execMillTileEnd (pre last : Bool) (det : Fin 3) (badVa : Option Nat) (s : State) : Result :=
  .next (let p := boolNat pre
  match s.runningJob p with
  | none => s
  | some (i, j) =>
    let c := j.list.ctx
    if det.val ≠ 0 then
      let s1 := ((s.count pgMILL (if det.val = 1 then 0x068 else 0x06C) 1).raise pgMILL 0).noteDetected c
      if j.tileDet then (s1.raise pgMILL 1).jobOver i j stFAULT
      else ((s1.setJob i { j with tileDet := true, recomputed := true }).count pgMILL 0x070 1).count (pgCNT c) F.CNT_RECOMP 1
    else if last then s.runDesc i j badVa
    else
      let j1 := { j with tileDet := false }
      if s.millStopped then (s.setJob i { j1 with loc := .suspended p }).showMill
      else match s.nextJob p with
      | some (_, w) =>
        if w.list.cls < j.list.cls then ((s.setJob i { j1 with loc := .suspended p }).count pgMILL 0x060 1).showMill else s.setJob i j1
      | none => s.setJob i j1)

/-- MILL_JOB_END (R337). -/
def execMillJobEnd (job : Nat) (s : State) : Result :=
  .next (match mget s.mill.jobs job with
  | none => s
  | some j => match j.loc with
    | .ended st => s.endJob job st
    | _ => s)

/-- The context ends: its jobs complete with CANCELLED, a running tile is abandoned, its chains go, the pipes that it used clear (R338). -/
def State.millEndCtx (s : State) (c : Nat) : State :=
  let ids := (s.mill.jobs.filter fun e => e.2.list.ctx == c).map (·.1)
  let s1 := ids.foldl (fun t i => t.endJob i stCANCELLED) s
  let pipes := [0, 1].filter fun p => s1.pipeCtx p == some c
  let s2 := { s1 with mill := { s1.mill with chains := s1.mill.chains.filter (fun e => e.2.ctx != c), used := s1.mill.used.filter fun p => !pipes.contains p } }
  (s2.count pgMILL 0x064 pipes.length).showMill

/-- The Mill is retired: the jobs that it accepted complete with FAULT (R9, R333). -/
def State.millRetire (s : State) : State := (s.mill.jobs.map (·.1)).foldl (fun t i => t.endJob i stFAULT) s

end Sys2Proof.Machine
end

