-- ==== Sys2Proof/Machine/Codec.lean ====
section
/-! DEFINITION. The video codec engines, their streams, rings, pools, scheduler and rate control (R345–R378). -/

namespace Sys2Proof.Machine

/-! The stream descriptor (R351, R360) -/

def Stream.b (x : Stream) (i : Nat) : Nat := x.sd.getD i 0
def Stream.mode (x : Stream) : Nat := x.b 0 % 8
def Stream.enc (x : Stream) : Bool := 3 ≤ x.mode
def Stream.live (x : Stream) : Bool := nbit (x.b 0) 3
def Stream.poolN (x : Stream) : Nat := x.b 2
def Stream.maxW (x : Stream) : Nat := at16 x.sd 4
def Stream.maxH (x : Stream) : Nat := at16 x.sd 6
def Stream.poolVa (x : Stream) : Nat := at64 x.sd 8
def Stream.ringVa (x : Stream) : Nat := at64 x.sd 16
def Stream.subN (x : Stream) : Nat := 2 ^ (6 + x.b 24 % 16)
def Stream.outN (x : Stream) : Nat := 2 ^ (6 + x.b 24 / 16)
def Stream.outVa (x : Stream) (i : Nat) : Nat := x.ringVa + 64 + 64 * x.subN + 32 * (i % x.outN)
def Stream.relVa (x : Stream) (i : Nat) : Nat := x.ringVa + 64 + 64 * x.subN + 32 * x.outN + 4 * (i % x.outN)
def Stream.subVa (x : Stream) (i : Nat) : Nat := x.ringVa + 64 + 64 * (i % x.subN)
def Stream.doneSpile (x : Stream) : Nat := at16 x.sd 25
def Stream.sampleBytes (x : Stream) : Nat := if x.ten then 2 else 1
def Stream.pitch (x : Stream) : Nat := ceilDiv (x.maxW * x.sampleBytes) 64 * 64
def Stream.bufBytes (x : Stream) : Nat :=
  ceilDiv (x.pitch * x.maxH * 3 / 2 + ceilDiv x.maxW 16 * ceilDiv x.maxH 16 * 16) 4096 * 4096
def Stream.bufVa (x : Stream) (i : Nat) : Nat := x.poolVa + i * x.bufBytes

/-- The rate-control bytes of an encoder's descriptor are inside R351. -/
def rcOk (b : List Nat) : Bool :=
  let g := fun i => b.getD i 0
  let top := if nbit (g 0) 7 then 63 else 51
  decide (0 < le32At b 28) && decide (0 < le32At b 32) && g 36 ≤ 2 && g 37 ≤ g 38 && g 38 ≤ top && (g 36 != 2 || g 39 ≤ top) &&
    within (g 54) 1 16 && within (at16 b 56) 64 65535

/-- R345, R351. -/
def sdOk (b : List Nat) : Bool :=
  let g := fun i => b.getD i 0
  let mode := g 0 % 8
  mode ≤ 4 && within (g 2) 2 34 && g 3 ≤ 8 && within (at16 b 4) 64 4096 && within (at16 b 6) 64 2304 && at16 b 4 % 2 == 0 &&
    at16 b 6 % 2 == 0 && g 24 % 16 ≤ 6 && g 24 / 16 ≤ 6 && g 27 == 0 && (List.range 70).all (fun i => g (58 + i) == 0) &&
    (mode ≤ 2 || (rcOk b && (mode == 4 || !nbit (g 0) 7)))

/-! State -/

def State.setStream (s : State) (n : Nat) (x : Stream) : State := { s with codec := { s.codec with streams := mput s.codec.streams n x } }
def State.modStream (s : State) (n : Nat) (f : Stream → Stream) : State :=
  { s with codec := { s.codec with streams := mmod s.codec.streams n f } }

/-- A counter in units of 1,024 whose remainder is kept. -/
def State.count1024 (s : State) (pg off n : Nat) : State :=
  let k := pg * 4096 + off
  let r := nget s.codec.rest k + n
  ({ s with codec := { s.codec with rest := nput s.codec.rest k (r % 1024) } }).count pg off (r / 1024)

/-- A per-stream count of the stream's context (R415). -/
def State.streamCount (s : State) (c n : Nat) (fd : Field) (d : Nat) : State :=
  s.wri (pgCNT c) fd n (min (s.rdi (pgCNT c) fd n + d) (2 ^ 32 - 1))

/-- `n` bytes of context memory from any VA, read by the hub; none when a line did not come back good. -/
def State.hubBytes (s : State) (c va n : Nat) : State × Option (List Nat) :=
  let (t, r) := s.hubRead c (va / 64 * 64) (linesOf va n).length
  (t, r.map fun bs => (bs.drop (va % 64)).take n)

def idxAhead (a b : Nat) : Nat := (a % 2 ^ 32 + 2 ^ 32 - b % 2 ^ 32) % 2 ^ 32

def CBuf.free (b : CBuf) : Bool := b.mark == 0 && !b.writing && !b.output && !b.consumer && b.chain == 0 && !b.subst

/-- The lowest free buffer (R362). -/
def Stream.freeBuf (x : Stream) : Option Nat := (List.range x.bufs.length).find? fun i => (x.bufs.getD i {}).free
def Stream.consumed (x : Stream) : Nat := (x.bufs.filter fun b => b.consumer).length
def Stream.poolOk (x : Stream) : Bool := x.freeBuf.isSome && x.consumed ≤ x.b 3
def Stream.outSpace (x : Stream) : Bool := decide (idxAhead x.outProd x.outCons < x.outN) && x.recs.isEmpty

/-- R356, R355, R362: but for the pool. -/
def Stream.wants (x : Stream) : Bool := !x.faulted && !x.closing && x.pic.isNone && x.subCons != x.subProd && x.outSpace
def Stream.ready (x : Stream) : Bool := x.wants && x.poolOk

/-- Waiting longer than a quarter of `SCH.OVL_ENTER_US`. -/
def State.longWait (s : State) (x : Stream) : Bool := x.readyClk.any fun c => decide (s.rd pgSCHED F.SCH_OVL_ENTER_US * 80 < s.now - c)

/-- The ready state of every stream, and what the scheduler page shows (R356, R378). -/
def State.showSched (s : State) : State :=
  let long := s.codec.streams.any fun e => s.longWait e.2
  let upd := fun (x : Stream) =>
    { x with
      readyClk := if x.ready then some (x.readyClk.getD s.now) else none
      poolWait := x.wants && !x.poolOk }
  let waits := (s.codec.streams.filter fun e => e.2.wants && !e.2.poolOk && !e.2.poolWait).length
  let streams := s.codec.streams.map fun e => (e.1, upd e.2)
  let oldest := streams.foldl (fun m e => max m ((e.2.readyClk.map fun c => s.now - c).getD 0)) 0
  let s1 := { s with codec := { s.codec with streams := streams, longClk := if long then s.now else s.codec.longClk } }
  ((((s1.count pgSCHED 0x064 waits).wr pgSCHED F.SCH_READY (streams.filter fun e => e.2.ready).length).wr pgSCHED F.SCH_OLDEST_WAIT_US
    (min (oldest / clkUs) (2 ^ 32 - 1))).wr pgSCHED F.SCH_STREAMS_OPEN streams.length).wr pgSCHED F.SCH_ENG_SVC
    (maskOf 4 fun k => s.hasUnit (pgCODEC k))

/-! Records (R353, R354) -/

/-- The 32 bytes of an output record. -/
def recordOf (status cause flags buf ptype qp w h bytes ts idx : Nat) : List Nat :=
  [status, cause] ++ lowBytes 2 flags ++ [buf, ptype, qp % 256, 0] ++ lowBytes 2 w ++ lowBytes 2 h ++ lowBytes 4 bytes ++ lowBytes 8 ts ++
    lowBytes 4 idx ++ [0, 0, 0, 0]

/-- A record is written, `OUT_PROD` advanced and the done spile posted; a picture's buffer goes to the consumer and to the chain. -/
def State.writeRecord (s : State) (n : Nat) (x : Stream) (r : List Nat) : State :=
  let s1 := (s.hubWrite x.ctx (x.outVa x.outProd) r).hubWrite x.ctx (x.ringVa + 8) (lowBytes 4 (x.outProd + 1))
  let buf := r.getD 4 0xFF
  let x1 := { x with
    outProd := (x.outProd + 1) % 2 ^ 32
    bufs := if buf = 0xFF then x.bufs else x.bufs.modify buf fun b => { b with output := false, consumer := true, pend := [] } }
  let s2 := (s1.setStream n x1).hubPost x.ctx x.doneSpile 1
  if buf = 0xFF then s2 else s2.chainPicture n (x.bufVa buf) x.pitch buf (nbit (r.getD 2 0) 0)

/-- Records that wait are written while the output ring has room. -/
def State.drainRecs (s : State) (n : Nat) : Nat → State
  | 0 => s
  | fuel + 1 =>
    match s.stream n with
    | none => s
    | some x => match x.recs with
      | [] => s
      | r :: rs =>
        if x.outN ≤ idxAhead x.outProd x.outCons then s
        else (s.writeRecord n { x with recs := rs } r).drainRecs n fuel

def State.pushRecord (s : State) (n : Nat) (r : List Nat) : State :=
  let s1 := s.modStream n fun x => { x with recs := x.recs ++ [r] }
  s1.drainRecs n (((s1.stream n).map fun x => x.recs.length).getD 0)

/-- The submission entry at the stream's `SUB_CONS` is taken. -/
def State.takeEntry (s : State) (n : Nat) (x : Stream) : State × Stream × Option (List Nat) :=
  let (s1, e) := s.hubBytes x.ctx (x.subVa x.subCons) 64
  let x1 := { x with subCons := (x.subCons + 1) % 2 ^ 32 }
  ((s1.hubWrite x.ctx (x.ringVa + 4) (lowBytes 4 x1.subCons)).setStream n x1, x1, e)

/-- Every submitted entry not yet started completes with a status and a cause. -/
def State.failEntries (s : State) (n status cause : Nat) : Nat → State
  | 0 => s
  | fuel + 1 =>
    match s.stream n with
    | none => s
    | some x =>
      if x.subCons = x.subProd then s
      else
        let (s1, _, e) := s.takeEntry n x
        (s1.pushRecord n (recordOf status cause 0 0xFF 0 0 0 0 0 ((e.map fun b => at64 b 32).getD 0) x.subCons)).failEntries n status cause fuel

/-! Closing and flushing (R351, R352) -/

/-- The stream's state goes, and the command that waits for it completes. -/
def State.dropStream (s : State) (n : Nat) : State :=
  let s1 := { s with
    codec := { s.codec with streams := mdel s.codec.streams n, last := s.codec.last.filter fun e => e.2 != n }
    mill := { s.mill with
      chains := mdel s.mill.chains n
      jobs := s.mill.jobs.map fun (e : Nat × MillJob) => (e.1, if e.2.chain = some n then { e.2 with chain := none } else e.2) } }
  (((s1.count pgSCHED 0x060 1).wake (fun w => match w with
    | .drain 4 k _ => k == n
    | .drain 5 k _ => k == n
    | _ => false) stCOMPLETE).showMill).showSched

/-- What a stream's end of picture, or a poll, lets happen: a flush that has all its entries ends, a close completes. -/
def State.settleStream (s : State) (n : Nat) : State :=
  match s.stream n with
  | none => s
  | some x =>
    if x.pic.isSome then s.showSched
    else if x.closing then
      let s1 := s.failEntries n stCANCELLED 0x08 (idxAhead x.subProd x.subCons)
      if ((s1.stream n).map fun y => y.recs.isEmpty) = some true then s1.dropStream n else s1
    else match x.flushTo with
      | none => s.showSched
      | some upTo =>
        if x.subCons ≠ upTo ∧ x.faulted = false then s.showSched
        else
          let held := (((List.range x.bufs.length).filter fun i => (x.bufs.getD i {}).output && !(x.bufs.getD i {}).pend.isEmpty).mergeSort
            fun i j => decide ((x.bufs.getD i {}).order ≤ (x.bufs.getD j {}).order))
          let s1 := held.foldl (fun t i => t.pushRecord n (x.bufs.getD i {}).pend) s
          let s2 := (s1.modStream n fun y => { y with
            flushTo := none, fresh := true
            bufs := y.bufs.map fun b => { b with subst := false, pend := [] } }).pushRecord n
            (recordOf stCOMPLETE 0 64 0xFF 0 0 0 0 0 0 x.subCons)
          (s2.wake (fun w => match w with
            | .drain 5 k _ => k == n
            | _ => false) stCOMPLETE).showSched

/-! Polling (R353, R362) -/

/-- The release entries up to `REL_PROD`: each takes a CONSUMER hold away. -/
def State.takeReleases (s : State) (n : Nat) : Nat → State
  | 0 => s
  | fuel + 1 =>
    match s.stream n with
    | none => s
    | some x =>
      if x.relCons = x.relProd then s
      else
        let (s1, e) := s.hubBytes x.ctx (x.relVa x.relCons) 4
        let i := (e.map fun b => le32At b 0).getD (2 ^ 32)
        let held := (x.bufs.getD i {}).consumer && decide (i < x.bufs.length)
        let x1 := { x with
          relCons := (x.relCons + 1) % 2 ^ 32
          bufs := if held then x.bufs.modify i fun b => { b with consumer := false } else x.bufs }
        let s2 := (s1.setStream n x1).hubWrite x.ctx (x.ringVa + 20) (lowBytes 4 x1.relCons)
        (if held then s2 else s2.count pgSCHED 0x068 1).takeReleases n fuel

/-- The indexes of a stream are read; one that moves back or more than one ring ahead makes the stream FAULTED. -/
def State.readIndexes (s : State) (n : Nat) : State :=
  match s.stream n with
  | none => s
  | some x =>
    match (s.count pgSCHED 0x058 1).hubBytes x.ctx x.ringVa 24 with
    | (s1, none) => s1
    | (s1, some b) =>
      let sub := le32At b 0
      let out := le32At b 12
      let rel := le32At b 16
      let ok := idxAhead sub x.subCons ≤ x.subN && idxAhead x.subProd x.subCons ≤ idxAhead sub x.subCons &&
        idxAhead x.outProd out ≤ idxAhead x.outProd x.outCons &&
        idxAhead rel x.relCons ≤ x.outN && idxAhead x.relProd x.relCons ≤ idxAhead rel x.relCons
      if x.faulted then s1
      else if ok then
        let s2 := s1.setStream n { x with subProd := sub, outCons := out, relProd := rel, pollClk := s.now }
        (s2.drainRecs n x.recs.length).takeReleases n (idxAhead rel x.relCons)
      else (s1.setStream n { x with faulted := true, pollClk := s.now }).failEntries n stFAULT 0x07 (idxAhead x.subProd x.subCons)

/-- With no engine in service every open stream's entries complete with NOUNIT (R369). -/
def State.afterPoll (s : State) (n : Nat) : State :=
  let s1 := if s.codecUp then s else s.failEntries n stNOUNIT 0 (((s.stream n).map fun x => idxAhead x.subProd x.subCons).getD 0)
  s1.settleStream n

/-- CODEC_RING_POLL: the indexes are read every `SCH.POLL_US`. -/
def execCodecRingPoll (stream : Nat) (s : State) : Result :=
  .next (match s.stream stream with
  | none => s
  | some x => if s.now < x.pollClk + s.rd pgSCHED F.SCH_POLL_US * clkUs then s else (s.readIndexes stream).afterPoll stream)

/-! Stream commands (R351, R352, R375, R376) -/

/-- Do `n` bytes from a VA translate for writing in the context (R204)? -/
def State.rangeMapped (s : State) (c va n : Nat) : Bool :=
  (List.range ((va + n - 1) / 4096 - va / 4096 + 1)).all fun i => match s.xlate c ((va / 4096 + i) * 4096) true false with
    | .ok _ => true
    | .error _ => false

def execCodecOpen (fn : Fin 32) (tag : Nat) (ctx : Fin 1024) (desc : Nat) (s : State) : Result :=
  .next (s.command fn.val tag 0x48 fun t =>
    let c := ctx.val
    if !t.codecUp then t.respond fn.val tag stNOUNIT 0
    else if !t.boundTo fn.val c then t.respond fn.val tag stDENIED 0
    else match (List.range 128).find? fun n => (t.stream n).isNone with
    | none => t.respond fn.val tag stREFUSED_MEM 0
    | some n =>
      if desc % 64 ≠ 0 then t.respond fn.val tag stFAULT 0
      else match t.hubRead c desc 2 with
      | (t1, none) => t1.respond fn.val tag stFAULT 0
      | (t1, some b) =>
        let x : Stream := { ctx := c, sd := b, ten := nbit (b.getD 0 0) 7 && decide (3 ≤ b.getD 0 0 % 8), pollClk := t.now }
        if !sdOk b then t1.respond fn.val tag stFAULT 0
        else if !t1.rangeMapped c x.poolVa (x.poolN * x.bufBytes) || !t1.rangeMapped c x.ringVa (64 + 64 * x.subN + 36 * x.outN) then
          t1.respond fn.val tag stDENIED 0
        else
          (((t1.setStream n { x with bufs := List.replicate x.poolN {} }).count pgSCHED 0x05C 1).showSched).respond fn.val tag stCOMPLETE n)

/-- A stream command: NOUNIT without engines, FAULT for a stream that is not open, DENIED for a context that is not bound to the function. A FAULTED
stream accepts only CODEC_CLOSE. -/
def State.streamCommand (s : State) (fn tag op n : Nat) (close : Bool) (body : State → Stream → State) : State :=
  s.command fn tag op fun t =>
    if !(List.range 4).any (fun k => pagePresent t.variant (pgCODEC k)) then t.respond fn tag stNOUNIT 0
    else match t.stream n with
    | none => t.respond fn tag stFAULT 0
    | some x =>
      if !t.boundTo fn x.ctx then t.respond fn tag stDENIED 0
      else if (x.faulted || x.closing) && !close then t.respond fn tag stFAULT 0
      else body t x

/-- CODEC_CLOSE completes when the stream is closed. -/
def execCodecClose (fn : Fin 32) (tag stream : Nat) (s : State) : Result :=
  .next (s.streamCommand fn.val tag 0x49 stream true fun t x =>
    ((t.setStream stream { x with closing := true }).hold fn.val tag (.drain 4 stream 0) 0).settleStream stream)

/-- CODEC_FLUSH completes with its FLUSH_DONE record. -/
def execCodecFlush (fn : Fin 32) (tag stream : Nat) (s : State) : Result :=
  .next (s.streamCommand fn.val tag 0x4A stream false fun t x =>
    ((t.setStream stream { x with flushTo := some x.subProd }).hold fn.val tag (.drain 5 stream 0) 0).settleStream stream)

def execCodecKeyreq (fn : Fin 32) (tag stream : Nat) (s : State) : Result :=
  .next (s.streamCommand fn.val tag 0x4B stream false fun t x =>
    if x.enc then (t.setStream stream { x with keyReq := true }).respond fn.val tag stCOMPLETE 0 else t.respond fn.val tag stFAULT 0)

/-- CODEC_RC_SET: bytes 28–57 of a new descriptor. -/
def execCodecRcSet (fn : Fin 32) (tag stream desc : Nat) (s : State) : Result :=
  .next (s.streamCommand fn.val tag 0x4C stream false fun t x =>
    if !x.enc || desc % 64 != 0 then t.respond fn.val tag stFAULT 0
    else match t.hubRead x.ctx desc 2 with
    | (t1, none) => t1.respond fn.val tag stFAULT 0
    | (t1, some b) =>
      let sd := x.sd.take 28 ++ ((b.drop 28).take 30) ++ x.sd.drop 58
      if rcOk sd then (t1.setStream stream { x with rc := some sd }).respond fn.val tag stCOMPLETE 0 else t1.respond fn.val tag stFAULT 0)

/-! Rate control (R373, R374) -/

/-- clamp(round(6 × log2(p / q)), −m, +m). -/
def round6Log2 (p q m : Nat) : Int :=
  let pass := fun (j : Int) =>
    if 0 ≤ 2 * j - 1 then decide (q ^ 12 * 2 ^ (2 * j - 1).toNat ≤ p ^ 12) else decide (q ^ 12 ≤ p ^ 12 * 2 ^ (1 - 2 * j).toNat)
  let n := ((List.range (2 * m)).filter fun (i : Nat) => pass ((i : Int) - m + 1)).length
  (n : Int) - m

def Stream.rowHeight (x : Stream) : Nat := if x.mode = 3 then 16 else 32
def Stream.rows (x : Stream) : Nat := ceilDiv x.maxH x.rowHeight
def Stream.prev (x : Stream) (key : Bool) : Option RcPrev := if key then x.prevKey else x.prevP

/-- N, and the base of a picture's budget. -/
def Stream.rcN (x : Stream) : Nat := le32At x.sd 40 * le32At x.sd 32 / le32At x.sd 28
def Stream.rcBase (x : Stream) (key : Bool) : Nat :=
  if x.b 36 = 0 then x.rcN * (if key then x.b 54 else 1)
  else
    match x.prev key with
    | none => x.rcN
    | some p =>
      if x.satdSum = 0 ∨ le32At x.sd 40 = 0 then x.rcN
      else max (x.rcN / 2) (min (x.rcN * le32At x.sd 44 / le32At x.sd 40) (x.rcN * p.satd * x.satdNum / x.satdSum))

/-- The budget of the next picture, and the carry that the floor leaves for the one after. -/
def Stream.rcBudget (x : Stream) (key : Bool) : Int × Int :=
  let base : Int := x.rcBase key
  let carry : Int := if x.b 36 = 0 then max x.carry (-((x.rcN / 4 : Nat) : Int)) else max x.carry 0
  let b := max (base - carry) (x.rows * at16 x.sd 56 : Nat)
  (b, b - (base - carry))

def clampQp (x : Stream) (q : Int) : Int := max (x.b 37) (min (x.b 38) q)

/-- The QP of each row of a picture whose rows took `bits`; `first` serves where no picture of the type precedes. -/
def Stream.rowQps (x : Stream) (key : Bool) (budget : Int) (bits : List Nat) (first : Nat) : List Int :=
  if x.b 36 = 2 then List.replicate bits.length (x.b 39 : Int)
  else
    let prev := x.prev key
    let w := fun i => (prev.bind fun p => p.rows[i]?).getD 1
    let wSum := fun i => (List.range (bits.length - i)).foldl (fun a k => a + w (i + k)) 0
    let spent := fun i => (bits.take i).foldl (· + ·) 0
    let q0 : Int := match prev with
      | some p => clampQp x ((p.qp : Int) + round6Log2 p.bits budget.toNat 4)
      | none => clampQp x (x.b 37 + first % (x.b 38 - x.b 37 + 1) : Nat)
    (List.range bits.length).foldl (fun (qs : List Int) i =>
      let q : Int :=
        if budget ≤ (spent i : Int) ∧ 0 < i then (x.b 38 : Int)
        else if i = 0 then q0
        else clampQp x (qs.getLastD q0 + round6Log2 (bits.getD (i - 1) 0 * wSum (i - 1)) ((budget - spent (i - 1)).toNat * w (i - 1)) 2)
      qs ++ [q]) []

/-! Starting a picture (R346–R349, R356–R362, R375) -/

def switchClk (mode : Nat) : Nat := if mode ≤ 1 then 1280 else if mode = 2 then 3328 else 1920

/-- ⌈S × c⌉ (R348). -/
def lumaClk (mode luma : Nat) : Nat := if mode ≤ 1 then ceilDiv (luma * 3) 10 else ceilDiv (luma * 6) 10

def Stream.encLuma (x : Stream) : Nat := if x.mode = 3 then ceilDiv x.maxW 16 * 16 * (ceilDiv x.maxH 16 * 16) else x.maxW * x.maxH

/-- Does stream `a` come before stream `b` in the scheduler's order (R356)? -/
def schedBefore (late : Bool) (a b : Nat × Stream) : Bool :=
  let ra := a.2.readyClk.getD 0
  let rb := b.2.readyClk.getD 0
  if late && a.2.live != b.2.live then a.2.live
  else if late && a.2.b 1 != b.2.b 1 then decide (b.2.b 1 < a.2.b 1)
  else if ra ≠ rb then decide (ra < rb)
  else decide (a.1 < b.1)

def State.nextStream (s : State) : Option (Nat × Stream) :=
  (s.codec.streams.filter fun e => e.2.ready).foldl (fun (b : Option (Nat × Stream)) e => match b with
    | none => some e
    | some x => if schedBefore (s.on pgSCHED F.SCH_MODE) e x then some e else some x) none

/-- The engine takes a picture: its page, its switch and its charge. -/
def State.engTakes (s : State) (k n : Nat) (x : Stream) (luma : Nat) : State × Nat :=
  let pg := pgCODEC k
  let sw := if mget s.codec.last k = some n then 0 else switchClk x.mode
  let charge := sw + lumaClk x.mode luma
  let s1 := ((((s.wr pg F.ENG_BUSY 1).wr pg F.ENG_MODE x.mode).wr pg F.ENG_STREAM n).wr pg F.ENG_CHARGE_CLK charge).count pg 0x058 sw
  let s2 := if sw = 0 then s1 else s1.count pgSCHED 0x054 1
  (if s.on pgSCHED F.SCH_MODE then s2.count pgSCHED 0x050 1 else s2, charge)

/-- R346, R361: a sequence header is checked. -/
def State.seqCheck (s : State) (n : Nat) (x : Stream) (h : Option SeqHeader) : State × Stream :=
  match h with
  | none => (s, x)
  | some h =>
    let ok := h.ok && (!h.above || nbit (x.b 0) 4) && h.w ≤ x.maxW && h.h ≤ x.maxH
    let cause := if !ok then 1 else if x.poolN < h.dpb + 1 + x.b 3 then 3 else 0
    let x1 := { x with seqCause := cause, ten := h.ten, fresh := x.fresh || cause != 0 }
    ((if cause = 1 then s.ctxNoteQ x.ctx 23 n else s).setStream n x1, x1)

/-- PICTURE_START of a decoder. -/
def State.startDecode (s : State) (k n : Nat) (x : Stream) (e : List Nat) (idx : Nat) (syn : PicSyntax) : State :=
  let (s1, x1) := s.seqCheck n x syn.header
  let skip := if syn.key then syn.cra && x1.fresh else x1.skipRasl
  if x1.seqCause ≠ 0 then s1.pushRecord n (recordOf stFAULT x1.seqCause 0 0xFF 0 0 0 0 0 (at64 e 32) idx)
  else if syn.rasl && x1.skipRasl && !syn.key then s1.count pgSCHED 0x070 1
  else match x1.freeBuf with
  | none => s1
  | some b =>
    let (s2, charge) := s1.engTakes k n x1 (syn.w * syn.h)
    let syn1 := { syn with missing := syn.missing || (x1.fresh && !syn.key) }
    let p : CPic := { eng := some k, idx := idx, entry := e, buf := b, syn := syn1, key := syn.key, charge := charge, clk := s.now }
    s2.setStream n { x1 with pic := some p, skipRasl := skip, fresh := false, bufs := x1.bufs.modify b fun y => { y with writing := true } }

/-- PICTURE_START of an encoder: the new settings, the choice of a key picture, the budget. -/
def State.startEncode (s : State) (k n : Nat) (x : Stream) (e : List Nat) (idx : Nat) : State :=
  let x1 := { x with sd := x.rc.getD x.sd, rc := none }
  let interval := le32At x1.sd 48
  let due := interval != 0 && x1.sinceKey.any fun m => decide (interval ≤ m)
  let key := x1.keyReq || nbit (e.getD 12 0) 0 || due || x1.sinceKey.isNone
  let ltr := key || (at16 x1.sd 52 != 0 && (x1.sinceLtr + 1) % at16 x1.sd 52 == 0)
  match x1.freeBuf with
  | none => s
  | some b =>
    let (s2, charge) := s.engTakes k n x1 x1.encLuma
    let p0 : CPic := { eng := some k, idx := idx, entry := e, buf := b, syn := {}, key := key, clk := s.now }
    let p := { p0 with ltr := ltr, budget := (x1.rcBudget key).1, charge := charge }
    s2.setStream n { x1 with pic := some p, bufs := x1.bufs.modify b fun y => { y with writing := true } }

/-- PICTURE_START (R356). A picture that waits to run again is taken first (R369). -/
def execPictureStart (eng : Fin 4) (syn : PicSyntax) (s : State) : Result :=
  .next (let k := eng.val
  if !s.hasUnit (pgCODEC k) || s.on (pgCODEC k) F.ENG_BUSY || s.codecStopped || s.testing (.codec eng) then s
  else match s.codec.streams.find? fun e => e.2.pic.any fun p => p.eng.isNone with
  | some (n, x) => match x.pic with
    | none => s
    | some p =>
      let (s1, charge) := s.engTakes k n x (if x.enc then x.encLuma else p.syn.w * p.syn.h)
      (s1.setStream n { x with pic := some { p with eng := some k, charge := charge, clk := s.now } }).count (pgCODEC k) 0x06C 1
  | none => match s.nextStream with
    | none => s
    | some (n, _) =>
      let s1 := s.readIndexes n
      match s1.stream n with
      | none => s1
      | some x =>
        if !x.wants then s1.settleStream n
        else
          let idx := x.subCons
          let (s2, x1, e) := s1.takeEntry n x
          match e with
          | none =>
            ((s2.setStream n { x1 with episode := true }).pushRecord n (recordOf stFAULT 0x05 0 0xFF 0 0 0 0 0 0 idx)).settleStream n
          | some b => (if x1.enc then s2.startEncode k n x1 b idx else s2.startDecode k n x1 b idx syn).settleStream n)

/-! The end of a picture (R354, R355, R359, R364–R368) -/

/-- The engine is idle again. -/
def State.engIdle (s : State) (k n : Nat) (p : CPic) : State :=
  let pg := pgCODEC k
  (({ s with codec := { s.codec with last := mput s.codec.last k n } }.wr pg F.ENG_BUSY 0).wr pg F.ENG_LAST_STREAM n).count pg 0x054
    ((s.now - p.clk) * 15 / 8)

/-- The samples of the substitute: the buffer with SUBST, else mid-grey (R364). -/
def State.substBytes (s : State) (x : Stream) : List Nat :=
  let n := x.pitch * x.maxH * 3 / 2
  match (List.range x.bufs.length).find? fun i => (x.bufs.getD i {}).subst with
  | some i => (List.range n).map fun j => (s.peek x.ctx (x.bufVa i + j)).getD 0
  | none => (List.range n).map fun j => if x.ten then (if j % 2 = 0 then 0 else 2) else 128

/-- A KEY_REQUEST record (R365). -/
def State.keyRequest (s : State) (n : Nat) (x : Stream) (idx : Nat) : State :=
  if nbit (x.b 0) 5 then (s.pushRecord n (recordOf stCOMPLETE 0 8 0xFF 0 0 0 0 0 0 idx)).ctxNoteQ x.ctx 22 n else s

/-- The end of a decoded picture; `engFault`: a second detection. -/
def State.doneDecode (s : State) (k n : Nat) (x : Stream) (p : CPic) (o : PicOut) (engFault : Bool) : State :=
  let c := x.ctx
  let auVa := at64 p.entry 0
  let auLen := le32At p.entry 8
  let (s1, bad) := s.readSpans c [(auVa, auLen)] o.badVa
  let refBad := o.badVa.any fun v => decide (v < auVa / 64 * 64 ∨ auVa + auLen ≤ v)
  let s2 := match o.badVa with
    | some v => if refBad then (s1.ctxRead (s1.vaDie c v) c v false { fail1 := true, fail2 := true } none).1 else s1
    | none => s1
  let syntaxErr := o.synErr || bad.isSome
  let starts := p.syn.missing || syntaxErr || (nbit (p.entry.getD 12 0) 1 && !p.key) || engFault
  let ep := if starts then true else if p.key then false else x.episode
  let concealed := ep || refBad
  let flags := boolNat concealed + 2 * boolNat p.syn.missing + 4 * boolNat p.key + 16 * boolNat p.syn.grain + 32 * boolNat (nbit (p.entry.getD 12 0) 1) +
    (if o.marks.getD p.buf 0 = 2 ∧ x.mode ≠ 2 then 128 else 0)
  let status := if engFault then stFAULT else if p.recomputed then stRECOMPUTED else stCOMPLETE
  let cause := if engFault then 6 else if syntaxErr then 2 else 0
  let r := recordOf status cause flags p.buf p.syn.ptype o.qp p.syn.w p.syn.h 0 (at64 p.entry 32) p.idx
  let s3 := s2.hubWrite c (x.bufVa p.buf) (if engFault then s2.substBytes x else o.data.map fun b => b.toNat)
  let mark := fun i (b : CBuf) => if i ≠ p.buf ∧ p.key = true ∧ x.mode ≤ 1 then 0 else min (o.marks.getD i b.mark) (if x.mode = 2 then 1 else 2)
  let bufs := x.bufs.zipIdx.map fun e =>
    { e.1 with
      mark := mark e.2 e.1
      subst := if concealed then e.1.subst else e.2 == p.buf
      writing := if e.2 = p.buf then false else e.1.writing
      output := if e.2 = p.buf then p.syn.shown else e.1.output
      order := if e.2 = p.buf then p.syn.order else e.1.order
      pend := if e.2 = p.buf ∧ p.syn.shown = true then r else e.1.pend }
  let count := if concealed then (if ep && !x.episode then 1 else x.concealed + 1) else 0
  let x1 := { x with pic := none, episode := ep, concealed := count, bufs := bufs }
  let s4 := (((s3.setStream n x1).engIdle k n p).count (pgCODEC k) 0x04C 1).count1024 (pgCODEC k) 0x05C (p.syn.w * p.syn.h)
  let s5 := (if p.syn.missing then s4.ctxNoteQ c 21 n else s4).streamCount c n F.CNT_STREAM_PICS 1
  let s6 := if concealed then s5.streamCount c n F.CNT_STREAM_CONCEALED 1 else s5
  let s7 := if (ep && !x.episode) || (ep && x.episode && count % 64 == 1) then s6.keyRequest n x p.idx else s6
  let now := if nbit (x.b 0) 6 then (if p.syn.shown then [p.buf] else []) else o.outs
  now.foldl (fun t i => match t.stream n with
    | some y =>
      let b := y.bufs.getD i {}
      if b.output && !b.pend.isEmpty then (t.setStream n { y with bufs := y.bufs.modify i fun z => { z with pend := [] } }).pushRecord n b.pend else t
    | none => t) s7

/-- The end of an encoded picture: a failure discards it and leaves the stream as before (R355). -/
def State.doneEncode (s : State) (k n : Nat) (x : Stream) (p : CPic) (o : PicOut) (engFault : Bool) : State :=
  let c := x.ctx
  let pitch := at16 p.entry 8
  let (s1, bad) := s.readSpans c [(at64 p.entry 0, pitch * x.maxH * 3 / 2)] o.badVa
  let dst := at64 p.entry 20
  let tooLong := decide (le32At p.entry 28 < o.data.length)
  let unmapped := !o.data.isEmpty && !s1.rangeMapped c dst o.data.length
  let cause := if engFault then 6 else if bad.isSome then 5 else if tooLong then 4 else if unmapped then 5 else 0
  let (s2, r) := s1.fresh 32
  let ts := at64 p.entry 32
  let s3 := s2.engIdle k n p
  if cause ≠ 0 then
    let x1 := { x with pic := none, bufs := x.bufs.modify p.buf fun b => { b with writing := false } }
    (s3.setStream n x1).pushRecord n (recordOf stFAULT cause (4 * boolNat p.key) 0xFF (boolNat (!p.key)) 0 x.maxW x.maxH 0 ts p.idx)
  else
    let qps := x.rowQps p.key p.budget o.rows r
    let sum := (qps.foldl (· + ·) 0).toNat
    let avg := if qps.isEmpty then 0 else sum / qps.length + (if sum % qps.length = 0 then 0 else r / 2 ^ 16 % 2)
    let bits := o.rows.foldl (· + ·) 0
    let left := (x.rcBudget p.key).2
    let prev : RcPrev := { bits := bits, rows := o.rows, qp := avg, satd := o.satd }
    let mk := fun i (b : CBuf) =>
      if i = p.buf then (if p.ltr then 2 else 1)
      else if b.mark = 1 ∨ (b.mark = 2 ∧ p.ltr = true) then 0 else b.mark
    let x1 := { x with
      pic := none
      bufs := x.bufs.zipIdx.map fun e => { e.1 with mark := mk e.2 e.1, writing := if e.2 = p.buf then false else e.1.writing }
      keyReq := x.keyReq && !p.key
      sinceKey := some (if p.key then 1 else (x.sinceKey.getD 0) + 1)
      sinceLtr := if p.key then 0 else x.sinceLtr + 1
      carry := if x.b 36 = 2 then 0 else (bits : Int) - p.budget + left
      prevKey := if p.key then some prev else x.prevKey
      prevP := if p.key then x.prevP else some prev
      satdSum := x.satdSum + o.satd
      satdNum := x.satdNum + 1 }
    let s4 := ((s3.hubWrite c dst (o.data.map fun b => b.toNat)).setStream n x1).count (pgCODEC k) 0x050 1
    let s5 := ((s4.count1024 (pgCODEC k) 0x060 x.encLuma).streamCount c n F.CNT_STREAM_PICS 1).count pgSCHED 0x06C
      (boolNat (p.key && (x.keyReq || nbit (p.entry.getD 12 0) 0)))
    let key := (pgCNT c * 4096 + 0x408) * 128 + n
    let acc := nget s5.codec.rest key + 8 * o.data.length
    let s6 := ({ s5 with codec := { s5.codec with rest := nput s5.codec.rest key (acc % 1024) } }).streamCount c n F.CNT_STREAM_KBITS (acc / 1024)
    s6.pushRecord n (recordOf (if p.recomputed then stRECOMPUTED else stCOMPLETE) 0 (4 * boolNat p.key + 128 * boolNat p.ltr) 0xFF
      (boolNat (!p.key)) avg x.maxW x.maxH o.data.length ts p.idx)

/-- PICTURE_DONE (R354, R368). -/
def execPictureDone (eng : Fin 4) (out : PicOut) (s : State) : Result :=
  .next (let k := eng.val
  match s.codec.streams.find? fun e => e.2.pic.any fun p => p.eng == some k with
  | none => s
  | some (n, x) => match x.pic with
    | none => s
    | some p =>
      let pg := pgCODEC k
      if out.detect && p.dets = 0 then
        (((((s.raise pg 0).raise pg 1).count pg 0x064 1).count pg 0x068 1).noteDetected x.ctx |>.count (pgCNT x.ctx) F.CNT_RECOMP 1).setStream n
          { x with pic := some { p with dets := 1, recomputed := true } }
      else
        let s1 := if out.detect then (((s.raise pg 0).raise pg 2).count pg 0x064 1).noteDetected x.ctx else s
        ((if x.enc then s1.doneEncode k n x p out out.detect else s1.doneDecode k n x p out out.detect).readIndexes n).afterPoll n)

/-! Overload (R356) -/

def execOverloadEnter (s : State) : Result :=
  .next (let lim := s.rd pgSCHED F.SCH_OVL_ENTER_US * clkUs
  let late := s.codec.streams.any fun e => e.2.readyClk.any fun c =>
    (e.2.live && decide (c + lim ≤ s.now)) || decide (c + 2 * lim ≤ s.now)
  if s.on pgSCHED F.SCH_MODE || !late then s
  else
    let s1 := ((s.wr pgSCHED F.SCH_MODE 1).raise pgSCHED 0).count pgSCHED 0x04C 1
    { s1 with codec := { s1.codec with longClk := s1.now } })

def execOverloadExit (s : State) : Result :=
  .next (let long := s.codec.streams.any fun e => s.longWait e.2
  if !s.on pgSCHED F.SCH_MODE || long || decide (s.now < s.codec.longClk + s.rd pgSCHED F.SCH_OVL_EXIT_MS * clkMs) then s
  else ((s.wr pgSCHED F.SCH_MODE 0).raise pgSCHED 1).showSched)

/-! Retirement and the end of a context (R352, R369) -/

/-- An engine is retired: its picture runs again on another; with the last one every entry completes with NOUNIT. -/
def State.codecRetire (s : State) (k : Nat) : State :=
  let s1 := (s.wr (pgCODEC k) F.ENG_BUSY 0)
  let s2 := { s1 with codec := { s1.codec with streams := s1.codec.streams.map fun (e : Nat × Stream) =>
    (e.1, { e.2 with pic := e.2.pic.map fun (p : CPic) => if p.eng = some k then { p with eng := none, recomputed := true, dets := 0 } else p }) } }
  if s2.codecUp then s2.showSched
  else
    (s2.codec.streams.map (·.1)).foldl (fun t n =>
      match t.stream n with
      | none => t
      | some x =>
        let t1 := match x.pic with
          | some p => (t.setStream n { x with pic := none, bufs := x.bufs.modify p.buf fun b => { b with writing := false } }).pushRecord n
              (recordOf stNOUNIT 0 0 0xFF 0 0 0 0 0 (at64 p.entry 32) p.idx)
          | none => t
        (t1.failEntries n stNOUNIT 0 (idxAhead x.subProd x.subCons)).settleStream n) s2

/-- The context ends: its pictures in progress are abandoned without a record, and its streams close. -/
def State.codecEndCtx (s : State) (c : Nat) : State :=
  ((s.codec.streams.filter fun e => e.2.ctx == c).map (·.1)).foldl (fun t n =>
    match t.stream n with
    | none => t
    | some x =>
      let t1 := match x.pic.bind fun p => p.eng with
        | some k => t.wr (pgCODEC k) F.ENG_BUSY 0
        | none => t
      ((t1.setStream n { x with pic := none, closing := true }).failEntries n stCANCELLED 0x08 (idxAhead x.subProd x.subCons)).dropStream n) s

end Sys2Proof.Machine
end

