-- ==== Sys2Proof/Machine/Intake.lean ====
section
/-! DEFINITION. The intake engine and the completion writer: rings, intake entries, command rings, completions, MSI-X coalescing
(R290, R437, R478–R494). -/

namespace Sys2Proof.Machine

/-! Rings (R481, R485) -/

def ringCtx (id : Nat) : Nat := id / 8
def ringNum (id : Nat) : Nat := id % 8

def State.ring (s : State) (id : Nat) : Option Ring := mget s.host.rings id
def State.setRing (s : State) (id : Nat) (r : Ring) : State := { s with host := { s.host with rings := mput s.host.rings id r } }
def State.modRing (s : State) (id : Nat) (f : Ring → Ring) : State := { s with host := { s.host with rings := mmod s.host.rings id f } }

/-- What the INTAKE page shows of the rings (R499). -/
def State.showRings (s : State) : State :=
  let n := fun (p : Nat × Ring → Bool) => (s.host.rings.filter p).length
  ((s.wr pgINTAKE F.INTAKE_RINGS (n fun e => decide (ringNum e.1 < 4))).wr pgINTAKE F.INTAKE_CQ_RINGS (n fun e => decide (4 ≤ ringNum e.1))).wr
    pgINTAKE F.INTAKE_CQ_BLOCKED (n fun e => e.2.blocked)

/-- How far index `a` is ahead of `b` modulo 2^32. -/
def idxDist (a b : Nat) : Nat := (a % 2 ^ 32 + 2 ^ 32 - b % 2 ^ 32) % 2 ^ 32

/-- A peer's new index that moved back against the last one read, or more than one ring ahead of our own (R481). -/
def indexBad (size last new ours : Nat) : Bool := decide (2 ^ 31 ≤ idxDist new last) || decide (size < idxDist new ours)

/-- R481: a ring becomes FAULTED: RING_FAULT, and RING_ERR with the ring number in its context's page. -/
def State.faultRing (s : State) (id : Nat) : State :=
  ((s.modRing id fun r => { r with faulted := true }).raise pgINTAKE 0).ctxNoteQ (ringCtx id) 26 (ringNum id)

/-- R485: RING_CREATE. A completion ring takes its vector and coalescing, an intake ring its completion ring. The indexes start from those in
the control block. -/
def execRingCreate (fn : Fin 32) (tag : Nat) (ctx : Fin 1024) (num addr log2 cq vec ithresh itimeUs : Nat) (s : State) : Result :=
  .next (s.command fn.val tag 0x38 fun t =>
    let id := ctx.val * 8 + num
    let vecs := if fn.val = 0 then 2048 else 64
    if !t.boundTo fn.val ctx.val then t.respond fn.val tag stDENIED 0
    else if 8 ≤ num ∨ (t.ring id).isSome ∨ log2 < 6 ∨ 16 < log2 ∨ addr % 64 ≠ 0 ∨
        (num < 4 ∧ (cq < 4 ∨ 8 ≤ cq ∨ (t.ring (ctx.val * 8 + cq)).isNone)) ∨
        (4 ≤ num ∧ (vec = 0 ∨ (fn.val = 0 ∧ vec = 1) ∨ vecs ≤ vec ∨ ithresh < 1 ∨ 255 < ithresh ∨ 1000 < itimeUs)) then
      t.respond fn.val tag stFAULT 0
    else
      let cons := t.hostRead (addr + 32) 4
      let r : Ring :=
        if num < 4 then { fn := fn.val, addr := addr, log2 := log2, cq := cq, idx := cons, peer := cons }
        else { fn := fn.val, addr := addr, log2 := log2, vec := vec, ithresh := ithresh, itimeUs := itimeUs, idx := t.hostRead addr 4, peer := cons }
      ((t.setRing id r).showRings).respond fn.val tag stCOMPLETE num)

/-- Does a request entry, or a completion not yet written, name the completion ring (R485)? -/
def State.ringNamed (s : State) (id : Nat) : Bool :=
  (s.host.rings.any fun e => ringCtx e.1 == ringCtx id && decide (ringNum e.1 < 4) && e.2.cq == ringNum id) ||
  (s.rqt.entries.any fun e => e.2.ctx == ringCtx id && e.2.cq == ringNum id) || s.rqt.outQ.any fun c => c.ring == id

def execRingDestroy (fn : Fin 32) (tag : Nat) (ctx : Fin 1024) (num : Nat) (s : State) : Result :=
  .next (s.command fn.val tag 0x39 fun t =>
    let id := ctx.val * 8 + num
    if !t.boundTo fn.val ctx.val then t.respond fn.val tag stDENIED 0
    else if 8 ≤ num ∨ (t.ring id).isNone ∨ (4 ≤ num ∧ t.ringNamed id) then t.respond fn.val tag stFAULT 0
    else (({ t with host := { t.host with rings := mdel t.host.rings id } }).showRings).respond fn.val tag stCOMPLETE 0)

/-! Binding (R51, R478) -/

/-- R478: bind a context to a slot of a function's window. -/
def execCtxBind (fn : Fin 32) (tag : Nat) (ctx : Fin 1024) (func slot : Nat) (s : State) : Result :=
  .next (s.command fn.val tag 0x03 fun t =>
    if !t.ctxOpen ctx.val then t.respond fn.val tag stDENIED 0
    else if 32 ≤ func ∨ 64 ≤ slot ∨ t.rdi (pgWIN func) F.WIN_SLOT_VALID slot = 1 ∨ (t.ctxFn ctx.val).isSome then t.respond fn.val tag stFAULT 0
    else
      let t1 := (t.wri (pgWIN func) F.WIN_SLOT_VALID slot 1).wri (pgWIN func) F.WIN_SLOT_CTX slot ctx.val
      (t.edges (t1.setCtxField F.CTXS_ENTRY_FUNC ctx.val func)).respond fn.val tag stCOMPLETE 0)

/-- The slot of a bound context becomes absent. -/
def State.unbind (s : State) (c : Nat) : State :=
  match s.ctxFn c with
  | none => s
  | some f => match s.slotOf f c with
    | none => s
    | some k => ((s.wri (pgWIN f) F.WIN_SLOT_VALID k 0).wri (pgWIN f) F.WIN_SLOT_CTX k 0).setCtxField F.CTXS_ENTRY_FUNC c 0

def execCtxUnbind (fn : Fin 32) (tag : Nat) (ctx : Fin 1024) (s : State) : Result :=
  .next (s.command fn.val tag 0x04 fun t =>
    if t.host.rings.any fun e => ringCtx e.1 == ctx.val then t.respond fn.val tag stFAULT 0
    else (t.unbind ctx.val).respond fn.val tag stCOMPLETE 0)

/-! Sealed records (R437) -/

/-- The 32-byte header of a record: VER, DIR, CTX, LEN, SEQ, sixteen zeros. -/
def recHeader (dir c len seq : Nat) : List Nat :=
  [1, dir] ++ (List.range 2).map (fun i => c / 256 ^ i % 256) ++ (List.range 4).map (fun i => len / 256 ^ i % 256) ++
    (List.range 8).map (fun i => seq / 256 ^ i % 256) ++ List.replicate 16 0

/-- The next SEQ of a context and direction. -/
def State.seqOf (s : State) (c dir : Nat) : Nat := nget s.gau.seqs (2 * c + dir)
def State.nextSeq (s : State) (c dir : Nat) : State := { s with gau := { s.gau with seqs := nadd s.gau.seqs (2 * c + dir) 1 } }

/-- A record that the module seals: header, ciphertext, tag; the cipher is uninterpreted (assumption log 14). -/
def State.sealRecord (s : State) (c : Nat) (bs : List Nat) : List Nat :=
  let seq := s.seqOf c 1
  let key := nget s.lp.keys c
  recHeader 1 c bs.length seq ++ (List.range bs.length).map (fun i => Config.digest 2 (key :: seq :: i :: bs) % 256) ++
    (List.range 16).map (fun i => Config.digest 3 (key :: seq :: i :: bs) % 256)

/-- A host-to-module record at a host address: accepted when its header is as expected and its tag verifies (`ok`); the expected SEQ moves on. -/
def State.acceptRecord (s : State) (c addr len : Nat) (ok : Bool) : Option State :=
  if ok && (List.range 32).all (fun i => (bget s.host.mem (addr + i)).toNat == (recHeader 0 c len (s.seqOf c 0)).getD i 0) then some (s.nextSeq c 0)
  else none

/-! Intake entries (R290, R486–R489) -/

/-- The fields of an intake entry, at its host address. -/
structure InEntry where
  op : Nat
  latePol : Nat
  dlValid : Bool
  prio : Nat
  cookie : Nat
  dl : Nat
  chunk : Nat
  promptLen : Nat
  genMax : Nat
  attOpt : Nat
  headVa : Nat
  candVa : Nat
  paramVa : Nat
  dataAddr : Nat
  outAddr : Nat
  outCap : Nat
  bad : Bool
  deriving DecidableEq, Repr

def State.inEntry (s : State) (a : Nat) : InEntry :=
  let r := fun o n => s.hostRead (a + o) n
  let f := r 1 1
  { op := r 0 1, latePol := bits f 0 2, dlValid := nbit f 2, prio := r 2 1, cookie := r 4 4, dl := r 8 6, chunk := r 14 2, promptLen := r 16 4,
    genMax := r 20 4, attOpt := r 24 4, headVa := r 28 4, candVa := r 32 4, paramVa := r 36 4, dataAddr := r 40 8, outAddr := r 48 8,
    outCap := r 56 4, bad := 8 ≤ f || r 3 1 != 0 || r 60 4 != 0 }

/-- A completion without a table entry (R488): `KIND` 1, `RQ_NONE` 1, `END` as given. -/
def State.refuseEntry (s : State) (id : Nat) (r : Ring) (status ending cookie hint : Nat) : State :=
  let c : Compl :=
    { ring := ringCtx id * 8 + r.cq, status := status, kind := 1, ending := ending, cookie := cookie, idx := none, genCount := 0, hint := hint,
      deliv := 0, tokens := [] }
  ({ s with rqt := { s.rqt with outQ := s.rqt.outQ ++ [c] } }).count pgINTAKE 0x058 1

/-- The prompt of an entry as read (R488): its tokens, or the status of the refusal. -/
def State.readPrompt (s : State) (c : Nat) (e : InEntry) (x : EntryIn) : State × Except Nat (List Nat) :=
  let n := 4 * e.promptLen
  if x.fails then ((s.count pgHOST 0x054 1).raise pgHOST 3, .error stFAULT)
  else if s.ctxField F.CTXS_ENTRY_SEALED c = 1 then
    let k := ceilDiv n 65536
    let go := (List.range k).foldl (fun (a : State × Bool) i =>
      if !a.2 then a
      else
        let len := min 65536 (n - 65536 * i)
        match a.1.acceptRecord c (e.dataAddr + i * (65536 + 64)) len (decide (i < x.records.length)) with
        | some t => (t, true)
        | none => (a.1, false)) (s, true)
    if go.2 then (go.1.moved 0x04C (n + 48 * k), .ok (x.records.flatten.take e.promptLen)) else (go.1, .error stDENIED)
  else (s.moved 0x04C n, .ok ((List.range e.promptLen).map fun i => s.hostRead (e.dataAddr + 4 * i) 4))

/-- The lowest entry that an intake entry may take (R290): FREE with INTAKE = 0; entries that reservations hold are for their own class-0
requests. -/
def State.freeEntry (s : State) (c cls : Nat) : Option Nat :=
  let used := s.rqt.entries.length
  let mine := (s.resvOf c).any fun r => decide ((s.rqt.entries.filter fun e => e.2.cls == 0 && e.2.ctx == c).length < r.2.entries)
  if (cls = 0 ∧ mine = true ∧ used < 8192) ∨ used + s.c0Held < 8192 then
    (List.range (used + 1)).find? fun i => (mget s.rqt.entries i).isNone
  else none

/-- R290: an accepted entry takes its table entry; its prompt goes to the token log that its template names (R488). -/
def State.placeEntry (s : State) (id : Nat) (r : Ring) (e : InEntry) (prompt : List Nat) : State :=
  let c := ringCtx id
  match s.freeEntry c (ringNum id) with
  | none => (s.refuseEntry id r stREFUSED_MEM 6 e.cookie 0xFFFFFFFF).raise pgRQT 0
  | some i =>
    let (s1, b) := s.hubRead c (s.fieldVa e.headVa 12) 4
    let s2 := match b with
      | some bs => s1.tableWrite c (geomOf bs).logVa (tokenBytes prompt)
      | none => s1
    let x : Rq :=
      { dlValid := e.dlValid, ctx := c, prio := e.prio, latePol := e.latePol, cls := ringNum id, dl := e.dl, chunk := e.chunk,
        promptLen := e.promptLen, genMax := e.genMax, intake := true, candVa := e.candVa, attOpt := e.attOpt, paramVa := e.paramVa,
        cookie := e.cookie, headVa := e.headVa, outAddr := e.outAddr, outCap := e.outCap, cq := r.cq, prompt := prompt }
    { s2 with rqt := { s2.rqt with entries := mput s2.rqt.entries i x } }.showRqt

/-- R489: a CANCEL entry. -/
def State.cancelCookie (s : State) (c cookie : Nat) : State :=
  let hit := s.rqt.entries.filter fun e => e.2.ctx == c && e.2.cookie == cookie && decide (rqADMITTED ≤ e.2.state ∧ e.2.state ≤ rqDRAINING)
  (hit.foldl (fun t e => t.cancelRq e.1) s).count pgINTAKE 0x05C 1

/-- One entry taken from an intake ring. -/
def State.takeIntake (s : State) (id : Nat) (r : Ring) (pos : Nat) (inp : IntakeIn) : State :=
  let c := ringCtx id
  let e := s.inEntry (r.addr + 64 + 64 * (pos % 2 ^ r.log2))
  let x := (inp.entries.find? fun y => y.ring == id && y.pos == pos).getD { ring := id, pos := pos }
  let need := if s.ctxField F.CTXS_ENTRY_SEALED c = 1 then 128 * e.genMax else 4 * e.genMax
  let s0 := s.count pgINTAKE 0x054 1
  if (e.op != 1 && e.op != 2) || e.bad then s0.refuseEntry id r stFAULT 6 e.cookie 0
  else if s.ctxState c ≠ ctxLIVE then s0.refuseEntry id r stDENIED 6 e.cookie 0
  else if e.op = 2 then s0.cancelCookie c e.cookie
  else if e.genMax = 0 ∨ e.outCap < need then s0.refuseEntry id r stFAULT 6 e.cookie 0
  else if (s.cmRetired 0 && s.cmRetired 1) || s.hubLost then s0.refuseEntry id r stNOUNIT 6 e.cookie 0xFFFFFFFF
  else match s0.readPrompt c e x with
    | (s1, .error st) => s1.refuseEntry id r st 6 e.cookie 0
    | (s1, .ok prompt) => s1.placeEntry id r e prompt

/-- The read of a ring's `PROD` (R481, R486): the index read, none where the host read failed or the ring has gone FAULTED. -/
def State.readProd (s : State) (id : Nat) (r : Ring) (inp : IntakeIn) : State × Option Nat :=
  let s0 := (s.count pgINTAKE 0x04C 1).count pgINTAKE 0x050 (boolNat (ringNum id == 0))
  if inp.failed.contains id then
    let s1 := (((s0.count pgINTAKE 0x068 1).count pgHOST 0x054 1).raise pgHOST 3).modRing id fun x => { x with readFails := x.readFails + 1 }
    (if 8 ≤ r.readFails + 1 then s1.faultRing id else s1, none)
  else
    let p := s0.hostRead r.addr 4
    let s1 := s0.modRing id fun x => { x with readFails := 0, peer := p }
    if indexBad (2 ^ r.log2) r.peer p r.idx then (s1.faultRing id, none) else (s1, some p)

/-- R486: one ring is read; `take` is what is done with each entry. -/
def State.readRing (s : State) (id most : Nat) (inp : IntakeIn) (take : State → Ring → Nat → State) : State :=
  match s.ring id with
  | none => s
  | some r =>
    match s.readProd id r inp with
    | (s1, none) => s1
    | (s1, some p) =>
      let n := min most (idxDist p r.idx)
      let s2 := (List.range n).foldl (fun t i => take t r ((r.idx + i) % 2 ^ 32)) s1
      let cons := (r.idx + n) % 2 ^ 32
      ((s2.modRing id fun x => { x with idx := cons }).hostWrite (r.addr + 32) cons 4).moved 0x04C (64 * n)

/-- The rings of the given classes in the order of R486: class 0 first, then by context. -/
def State.ringsOf (s : State) (classes : List Nat) : List Nat :=
  let ids := (s.host.rings.filter fun e => classes.contains (ringNum e.1) && decide (ringNum e.1 < 4) && !e.2.faulted && !e.2.stopped).map (·.1)
  (ids.filter fun i => ringNum i == 0) ++ ids.filter fun i => ringNum i != 0

/-- R486: the reads of the rings of the given classes. Contexts that are ending have had, or have now, their own last read (R408). -/
def State.readRings (s : State) (classes : List Nat) (inp : IntakeIn) : State :=
  if !s.ready || !s.linkUp then s
  else ((s.ringsOf classes).filter fun id => s.ctxOpen (ringCtx id)).foldl (fun t id =>
    t.readRing id (if ringNum id = 0 then 64 else t.rd pgINTAKE F.INTAKE_MAX) inp fun u r pos => u.takeIntake id r pos inp) s

/-- R408: the last read of an ending context's rings: each entry not yet taken completes with CANCELLED, and the rings are read no further. -/
def State.lastReads (s : State) (c : Nat) (inp : IntakeIn) : State :=
  ((s.ringsOf [0, 1, 2, 3]).filter fun id => ringCtx id == c).foldl (fun t id =>
    (t.readRing id (2 ^ 16) inp fun u r pos =>
      let e := u.inEntry (r.addr + 64 + 64 * (pos % 2 ^ r.log2))
      let u1 := u.count pgINTAKE 0x054 1
      if e.op = 2 then u1.cancelCookie c e.cookie else u1.refuseEntry id r stCANCELLED 4 e.cookie 0).modRing id fun x => { x with stopped := true }) s

/-! Command rings (R481, R482, R484) -/

/-- The opcodes of the table of R482. -/
def knownOp (op : Nat) : Bool :=
  decide ((1 ≤ op ∧ op ≤ 9) ∨ (0x10 ≤ op ∧ op ≤ 0x19) ∨ (0x20 ≤ op ∧ op ≤ 0x27) ∨ (0x30 ≤ op ∧ op ≤ 0x34) ∨ op = 0x38 ∨ op = 0x39 ∨
    (0x40 ≤ op ∧ op ≤ 0x43) ∨ (0x48 ≤ op ∧ op ≤ 0x4C) ∨ (0x60 ≤ op ∧ op ≤ 0x66))

/-- The mark of an entry with an unknown opcode or a non-zero reserved byte, among the commands taken. -/
abbrev opBad : Nat := 0x10000

/-- Such entries complete with FAULT when their turn comes. -/
def State.settleBad (s : State) (fn : Nat) : Nat → State
  | 0 => s
  | fuel + 1 =>
    if s.holding fn then s
    else match s.host.taken.find? fun e => e.1 == fn with
      | some (_, tag, op) =>
        if op = opBad then
          (({ s with host := { s.host with taken := s.host.taken.erase (fn, tag, op) } }).respond fn tag stFAULT 0).settleBad fn fuel
        else s
      | none => s

/-- R481: the read of a function's command ring every `HOST.POLL_US`; `ok` tells whether the host read succeeds. -/
def execCmdRingPoll (fn : Fin 32) (ok : Bool) (s : State) : Result :=
  .next (
    let f := fn.val
    if !s.ready || !s.linkUp || !s.on (pgWIN f) F.WIN_CMDQ_EN || nget s.host.cmdFault f != 0 ||
        decide (s.now < nget s.host.pollClk f) then s
    else
      let s0 := { s with host := { s.host with pollClk := nput s.host.pollClk f (s.now + clkUs * s.rd pgHOST F.HOST_POLL_US) } }
      if !ok then (s0.count pgHOST 0x054 1).raise pgHOST 3
      else
        let base := s0.cmdBase f
        let cons := nget s0.host.cmdCons f
        let p := s0.hostRead base 4
        if indexBad (s0.cmdSize f) (nget s0.host.cmdProd f) p cons then
          ({ s0 with host := { s0.host with cmdFault := nput s0.host.cmdFault f 1 } }).raise pgINTAKE 0
        else
          let n := idxDist p cons
          let cmds := (List.range n).map fun i =>
            let a := base + 64 + 64 * ((cons + i) % 2 ^ 32 % s0.cmdSize f)
            let op := s0.hostRead a 2
            let bad := !knownOp op || s0.hostRead (a + 2) 2 != 0 || s0.hostRead (a + 8) 8 != 0
            (f, s0.hostRead (a + 4) 4, if bad then opBad else op)
          let s1 := { s0 with host := { s0.host with
              cmdProd := nput s0.host.cmdProd f p, cmdCons := nput s0.host.cmdCons f p, taken := s0.host.taken ++ cmds } }
          ((s1.hostWrite (base + 32) p 4).moved 0x04C (64 * n)).settleBad f (n + 1))

/-- The 32 bytes of a completion entry (R491). -/
def entryBytes (status kind ntok ending cookie idx gen hint tick deliv : Nat) : List Nat :=
  let le := fun v n => (List.range n).map fun i => v / 256 ^ i % 256
  [status, kind, ntok % 32, ending % 16] ++ le cookie 4 ++ le idx 2 ++ [0, 0] ++ le gen 4 ++ le hint 4 ++ le tick 6 ++ [0, 0] ++ le deliv 4

def State.hostPut (s : State) (a : Nat) (bs : List Nat) : State :=
  { s with host := { s.host with mem := bputList s.host.mem a (bs.map fun b => BitVec.ofNat 8 b) } }

/-- R484, R491: the response of a function's next completed command is written, with one message. -/
def execCommandResponse (fn : Fin 32) (s : State) : Result :=
  .next (
    let f := fn.val
    match s.host.resps.find? fun r => r.fn == f with
    | none => s.settleBad f (s.host.taken.length)
    | some r =>
      if !s.linkUp || !s.on (pgWIN f) F.WIN_CMDQ_EN || s.respFull f then s
      else
        let p := nget s.host.respProd f
        let a := s.respBase f - 32 * s.cmdSize f + 32 * (p % s.cmdSize f)
        let s1 := s.hostPut a (entryBytes r.status 2 0 0 r.tag 0x8000 r.result 0 s.tick 0)
        let s2 := { s1 with host := { s1.host with
            resps := s1.host.resps.erase r, respProd := nput s1.host.respProd f ((p + 1) % 2 ^ 32) } }
        ((((s2.hostWrite (s.respBase f) ((p + 1) % 2 ^ 32) 4).moved 0x050 32).msix f (s.rd (pgWIN f) F.WIN_CMDQ_VEC)).settleBad f
          s2.host.taken.length))

/-! The completion writer (R300, R301, R490–R494) -/

/-- The writer is done with a completion: a refused entry is FREE again (R290). -/
def State.complGone (s : State) (c : Compl) : State :=
  match c.idx with
  | none => s
  | some i => if (s.rq i).refused then { s with rqt := { s.rqt with entries := mdel s.rqt.entries i } }.showRqt else s

/-- R494: an entry written to a completion ring, and the message if its count or time says so. -/
def State.coalesce (s : State) (id : Nat) : State :=
  match s.ring id with
  | none => s
  | some r =>
    let n := r.cnt + 1
    if r.ithresh ≤ n ∨ r.itimeUs = 0 then (s.setRing id { r with cnt := 0, cntClk := 0 }).msix r.fn r.vec
    else s.setRing id { r with cnt := n, cntClk := if r.cnt = 0 then s.now else r.cntClk }

def execMsixItimeExpire (ring : Nat) (s : State) : Result :=
  .next (match s.ring ring with
    | none => s
    | some r =>
      if r.cnt = 0 ∨ s.now < r.cntClk + clkUs * r.itimeUs then s
      else (s.setRing ring { r with cnt := 0, cntClk := 0 }).msix r.fn r.vec)

/-- R71, R299, R300: what the write makes of a delivery whose deadline has passed. -/
def State.lateAt (s : State) (c : Compl) : Bool := c.dl.any fun d => decide (1 ≤ ahead s.tick d ∧ ahead s.tick d < 2 ^ 47)

/-- The counters of a completion of an entry (R319, R414). -/
def State.countCompl (s : State) (c : Compl) (late : Bool) : State :=
  match c.idx with
  | none => s
  | some i =>
    let x := s.rq i
    let base := c.status - c.status % 64 + c.status % 32
    let s1 := if base = stCOMPLETE then s.count pgRQT 0x05C 1
      else if base = stCANCELLED then s.count pgRQT 0x064 1
      else if c.ending = 5 then s.count pgRQT 0x06C 1
      else s
    let s2 := if late then ((s1.count pgRQT 0x060 1).count (pgCNT x.ctx) F.CNT_LATE 1).modRq i fun y => { y with cntLate := min 255 (y.cntLate + 1) }
      else s1
    if nbit c.status 5 && decide (c.status < 0x30) then s2.count pgRQT 0x078 1 else s2

/-- The tokens of a delivery, before its entry (R490). -/
def State.putTokens (s : State) (ctx : Nat) (c : Compl) : State :=
  if c.tokens.isEmpty then s
  else if c.sealed then
    let r := s.sealRecord ctx (tokenBytes c.tokens)
    ((s.hostPut (c.outAddr + 128 * c.deliv) r).nextSeq ctx 1).moved 0x050 r.length
  else (s.hostPut (c.outAddr + 4 * (c.genCount - c.tokens.length)) (tokenBytes c.tokens)).moved 0x050 (4 * c.tokens.length)

/-- R300: with the late policy the first delivery that carries LATE is terminal. -/
def State.endsLate (s : State) (c : Compl) : Bool :=
  s.lateAt c && c.status % 16 == stPARTIAL && c.idx.any fun i =>
    (s.rq i).latePol == 1 && (s.rq i).step.isNone && ((s.rq i).state == rqDECODE || (s.rq i).state == rqPREFILL)

/-- One completion is written to its ring. -/
def State.writeCompl (s : State) (r : Ring) (c0 : Compl) : State :=
  let late := s.lateAt c0
  let c := if s.endsLate c0 then { c0 with status := c0.status - stPARTIAL, ending := 3 } else c0
  let s0 := if s.endsLate c0 then
      (match c0.idx with
      | some i => ((s.modRq i fun y => { y with state := rqDONE, ending := 3 }).showRqt).settleResv
      | none => s)
    else s
  let status := if late then c.status ||| stLATE else c.status
  let s1 := s0.putTokens (ringCtx c.ring) c
  let idx := match c.idx with
    | some i => i % 8192
    | none => 0x8000
  let s2 := s1.hostPut (r.addr + 64 + 32 * (r.idx % 2 ^ r.log2))
    (entryBytes status c.kind c.tokens.length c.ending c.cookie idx c.genCount c.hint s.tick c.deliv)
  let s3 := (s2.modRing c.ring fun y => { y with idx := (y.idx + 1) % 2 ^ 32 }).hostWrite r.addr ((r.idx + 1) % 2 ^ 32) 4
  let s4 := ((s3.count pgINTAKE 0x060 1).moved 0x050 32).countCompl c late
  ((s4.complGone c).coalesce c.ring)

/-- R492: a full ring blocks: its `CONS` is read at once, and again at each poll. The ring's state after the read. -/
def State.readCons (s : State) (id : Nat) (r : Ring) : State :=
  let p := s.hostRead (r.addr + 32) 4
  if 2 ^ 31 ≤ idxDist p r.peer ∨ 2 ^ r.log2 < idxDist r.idx p then (s.setRing id { r with blocked := false, peer := p }).faultRing id
  else s.setRing id { r with peer := p, blocked := decide (idxDist r.idx p = 2 ^ r.log2) }

/-- The first completion of the queue that can be written or dropped: its ring is not blocked. -/
def State.nextCompl (s : State) : Option Compl :=
  s.rqt.outQ.find? fun c => (s.ring c.ring).all fun r => !r.blocked

/-- COMPLETION_WRITE: the writer takes the next completion whose ring is not blocked. One whose ring is gone or FAULTED is discarded. -/
def execCompletionWrite (s : State) : Result :=
  .next (
    if !s.linkUp then s
    else match s.nextCompl with
      | none => s
      | some c =>
        let drop := fun (t : State) => { t with rqt := { t.rqt with outQ := t.rqt.outQ.erase c } }
        match s.ring c.ring with
        | none => (drop s).complGone c
        | some r =>
          if r.faulted then (drop s).complGone c
          else if idxDist r.idx r.peer < 2 ^ r.log2 then (drop s).writeCompl r c
          else
            let s1 := s.readCons c.ring r
            match s1.ring c.ring with
            | none => s1
            | some r1 =>
              if r1.faulted then (drop s1).complGone c
              else if r1.blocked then
                ({ s1 with host := { s1.host with
                    pollClk := nput s1.host.pollClk (64 + c.ring) (s.now + clkUs * s.rd pgHOST F.HOST_POLL_US) } }).raise pgINTAKE 1 |>.showRings
              else (drop s1).writeCompl r1 c)

def execCqConsPoll (ring : Nat) (s : State) : Result :=
  .next (match s.ring ring with
    | none => s
    | some r =>
      if !r.blocked || !s.linkUp || decide (s.now < nget s.host.pollClk (64 + ring)) then s
      else
        let s1 := s.readCons ring r
        ({ s1 with host := { s1.host with
            pollClk := nput s1.host.pollClk (64 + ring) (s.now + clkUs * s.rd pgHOST F.HOST_POLL_US) } }).showRings)

end Sys2Proof.Machine
end

