-- ==== Sys2Proof/Machine/HostLink.lean ====
section
/-! DEFINITION. The PCIe link, the host windows, and the MSI-X table (R475–R477, R493, R495, R496). -/

namespace Sys2Proof.Machine

/-! The link -/

/-- R476: the width at which the link trains, counted upwards from lane 0, or downwards from lane 7 with lane reversal when lane 0 is
excluded; 0 when neither search finds a lane. -/
def linkWidth (excl : Nat) : Nat :=
  let up := fun (w : Nat) => (List.range w).all fun i => !nbit excl i
  let down := fun (w : Nat) => (List.range w).all fun i => !nbit excl (7 - i)
  (([8, 4, 2, 1] : List Nat).find? (if nbit excl 0 then down else up)).getD 0

/-- R477: the link comes up at `speed` (1–4): DMA and messages held resume in their order. -/
def execPcieLinkUp (speed : Fin 5) (s : State) : Result :=
  .next (
    let w := linkWidth (s.rd pgHOST F.HOST_LANE_EXCL)
    if !s.host.perstHigh || s.pwr.mainOff || s.start.modLow || s.start.noPcie || w == 0 || speed.val == 0 || s.linkUp then s
    else
      let s1 := (((s.wr pgHOST F.HOST_LINK_UP 1).wr pgHOST F.HOST_LINK_SPEED speed.val).wr pgHOST F.HOST_LINK_WIDTH w).raise pgHOST 1
      let s2 := if w < 8 ∨ speed.val < 4 then s1.raise pgHOST 2 else s1
      let held := s2.host.heldMsgs
      held.foldl (fun t m => t.msix m.1 m.2) { s2 with host := { s2.host with d3hot := false, heldMsgs := [] } })

/-- The data link is down. -/
def State.dropLink (s : State) : State :=
  if s.on pgHOST F.HOST_LINK_UP then
    (((s.wr pgHOST F.HOST_LINK_UP 0).wr pgHOST F.HOST_LINK_SPEED 0).wr pgHOST F.HOST_LINK_WIDTH 0).raise pgHOST 0
  else s

def execPcieLinkDown (s : State) : Result := .next s.dropLink

/-- R475, R477: D3hot stops DMA as a link-down does; the link itself stays up. The next link-up or reset ends it (assumption log 40). -/
def execD3hotEntry (s : State) : Result :=
  .next (if s.on pgHOST F.HOST_LINK_UP then { s with host := { s.host with d3hot := true } } else s)

/-- R475: an ATS Translation Request completes with Unsupported Request: completion status 1. -/
def execAtsTranslationRequest (fn : Fin 32) (s : State) : Result :=
  .next (if s.on pgHOST F.HOST_LINK_UP then { s with msgs := .reply 1 [fn.val, 1] :: s.msgs } else s)

/-! MSI-X (R493) -/

/-- Vectors of a function. -/
def vectorsOf (fn : Nat) : Nat := if fn = 0 then 2048 else 64

/-- A vector is unmasked: its pending message goes. -/
def State.unmask (s : State) (fn vec : Nat) : State :=
  let k := fn * 2048 + vec
  let s1 := { s with host := { s.host with msixOpen := nput s.host.msixOpen k 1, msixPend := nput s.host.msixPend k 0 } }
  if nget s.host.msixOpen k = 0 ∧ nget s.host.msixPend k ≠ 0 then s1.msix fn vec else s1

def execMsixUnmask (fn : Fin 32) (vec : Nat) (s : State) : Result :=
  .next (if vec < vectorsOf fn.val then s.unmask fn.val vec else s)

/-- R493: a write of `WIN.REARM` while an event of the window is pending. -/
def execWinRearm (fn : Fin 32) (s : State) : Result :=
  .next (if s.winSum fn.val = 0 then s else s.msix fn.val 0)

/-! Host windows (R495, R496) -/

/-- The context and VA that an offset of a function's apertures reaches: the aperture is valid, its slot is bound. -/
def State.aperture (s : State) (fn off : Nat) : Option (Nat × Nat × Bool) :=
  let w := pgWIN fn
  let a := off / 2 ^ 22
  if 16 ≤ a ∨ s.rdi w F.WIN_AP_VALID a = 0 then none
  else
    let k := s.rdi w F.WIN_AP_SLOT a
    if s.rdi w F.WIN_SLOT_VALID k = 0 then none
    else some (s.rdi w F.WIN_SLOT_CTX k,
      s.rdi w F.WIN_AP_VA_LO a * 2 ^ 22 + s.rdi w F.WIN_AP_VA_HI a * 2 ^ 32 + off % 2 ^ 22 + s.rd pgCAB F.CAB_INDEX * 2 ^ 42,
      s.rdi w F.WIN_AP_RO a == 1)

/-- A byte of BAR4 outside the apertures: the MSI-X table (16 bytes for each vector: address, data, control with the mask in bit 0) and the
pending bits. -/
def State.msixByte (s : State) (fn off : Nat) : Nat :=
  if 0x4000000 ≤ off ∧ off < 0x4000000 + 16 * vectorsOf fn then
    let o := off - 0x4000000
    if o % 16 < 12 then (bget s.host.msixTab (fn * 32768 + o)).toNat
    else if o % 16 = 12 then 1 - min 1 (nget s.host.msixOpen (fn * 2048 + o / 16))
    else 0
  else if 0x4010000 ≤ off ∧ off < 0x4010000 + vectorsOf fn / 8 then
    let o := off - 0x4010000
    (List.range 8).foldl (fun a i => if nget s.host.msixPend (fn * 2048 + 8 * o + i) ≠ 0 then a + 2 ^ i else a) 0
  else 0

/-- The lines of a window read, in order: the bytes and whether a line read bad. A failed translation gives zeros (R496). -/
def State.windowRead (s : State) (c va n : Nat) (o : LineOut) : State × List Nat × Bool :=
  (linesOf va n).foldl (fun (a : State × List Nat × Bool) l =>
    let (t, bs, how) := a.1.ctxRead (a.1.vaDie c l) c l true o none
    let lo := max l va
    let hi := min (l + 64) (va + n)
    (t, a.2.1 ++ (bs.drop (lo - l)).take (hi - lo), a.2.2 || (how != 0 && how != 3))) (s, [], false)

def execHostWindowRead (fn : Fin 32) (off len : Nat) (o : LineOut) (s : State) : Result :=
  .next (
    if !s.ready then s
    else
      let s0 := s.count pgHOST 0x064 1
      let put := fun (t : State) (bs : List Nat) (p : Bool) => { t with host := { t.host with winData := bs, winPoison := p } }
      if 0x4000000 ≤ off then put s0 ((List.range len).map fun i => s.msixByte fn.val (off + i)) false
      else match s.aperture fn.val off with
        | none => put s0 (List.replicate len 0) false
        | some (c, va, _) =>
          let (s1, bs, p) := s0.windowRead c va len o
          put s1 bs p)

/-- The runs of enabled bytes of a write, each within one line: their address and bytes. -/
def runsOf (va : Nat) : List (Option Byte) → List (Nat × List Nat)
  | [] => []
  | none :: rest => runsOf (va + 1) rest
  | some b :: rest => match runsOf (va + 1) rest with
    | (a, bs) :: more => if a = va + 1 ∧ a % 64 ≠ 0 then (va, b.toNat :: bs) :: more else (va, [b.toNat]) :: (a, bs) :: more
    | [] => [(va, [b.toNat])]

/-- One byte written to BAR4 beyond the apertures: the MSI-X table takes it; clearing a mask sends a pending message (R493). -/
def State.msixPut (s : State) (fn off : Nat) (b : Byte) : State :=
  if 0x4000000 ≤ off ∧ off < 0x4000000 + 16 * vectorsOf fn then
    let o := off - 0x4000000
    if o % 16 < 12 then { s with host := { s.host with msixTab := bput s.host.msixTab (fn * 32768 + o) b } }
    else if o % 16 = 12 then
      if nbit b.toNat 0 then { s with host := { s.host with msixOpen := nput s.host.msixOpen (fn * 2048 + o / 16) 0 } }
      else s.unmask fn (o / 16)
    else s
  else s

def execHostWindowWrite (fn : Fin 32) (off : Nat) (data : List (Option Byte)) (o : LineOut) (s : State) : Result :=
  .next (
    if !s.ready then s
    else
      let s0 := s.count pgHOST 0x064 1
      if 0x4000000 ≤ off then
        data.zipIdx.foldl (fun t e => match e.1 with
          | some b => t.msixPut fn.val (off + e.2) b
          | none => t) s0
      else match s.aperture fn.val off with
        | none => s0
        | some (c, va, ro) =>
          if ro then s0
          else (runsOf va data).foldl (fun t r => (t.ctxWrite (t.vaDie c r.1) c r.1 true r.2 false o none).1) s0)

end Sys2Proof.Machine
end

