-- ==== Sys2Proof/Machine/Keg.lean ====
section
/-! DEFINITION. Keg links, routes, the reachable set, membership epochs, jobs and their abort (R438, R501–R519). -/

namespace Sys2Proof.Machine

/-! Links (R501–R504) -/

def State.link (s : State) (l : Nat) : KegLink := (mget s.keg.links l).getD {}
def State.setLink (s : State) (l : Nat) (x : KegLink) : State := { s with keg := { s.keg with links := mput s.keg.links l x } }

/-- Link states (R519). -/
abbrev kegDOWN : Nat := 0
abbrev kegTRAINING : Nat := 1
abbrev kegUP : Nat := 3
abbrev kegREFUSED : Nat := 4
abbrev kegRETIRED : Nat := 5

def State.kegState (s : State) (l : Nat) : Nat := s.rd (pgKEG l) F.KEG_STATE
def State.linkIsUp (s : State) (l : Nat) : Bool := decide (l < 2 * s.variant.dies) && s.kegState l == kegUP

/-- The module's cabinet index. -/
def State.ownIndex (s : State) : Nat := s.rd pgCAB F.CAB_INDEX
def State.fenced (s : State) : Bool := s.on pgCAB F.CAB_FENCED
def State.kegJob (s : State) (j : Nat) : Option Job := mget s.keg.jobs j
def State.setKegJob (s : State) (j : Nat) (x : Job) : State := { s with keg := { s.keg with jobs := mput s.keg.jobs j x } }

/-! Routes (R505) -/

/-- The outgoing link to an index: a valid route over an UP link. -/
def State.route (s : State) (m : Nat) : Option Nat :=
  if m < 64 ∧ s.rdi pgCAB F.CAB_ROUTE_VALID m = 1 ∧ s.linkIsUp (s.rdi pgCAB F.CAB_ROUTE_LINK m) = true then some (s.rdi pgCAB F.CAB_ROUTE_LINK m) else none

/-- The members of a job other than the module. -/
def State.others (s : State) (x : Job) : List Nat := x.members.filter fun m => m != s.ownIndex

/-- Does a link carry the job (R503)? -/
def State.carries (s : State) (l : Nat) (x : Job) : Bool :=
  (s.others x).any fun m => s.rdi pgCAB F.CAB_ROUTE_VALID m == 1 && s.rdi pgCAB F.CAB_ROUTE_LINK m == l

/-- What the keg and collective pages show of jobs and operations (R519, R520). -/
def State.showJobs (s : State) : State :=
  let live := s.keg.jobs.filter fun e => !e.2.aborted
  let s1 := (List.range (2 * s.variant.dies)).foldl (fun t l =>
    t.wr (pgKEG l) F.KEG_JOBS (live.filter fun e => s.carries l e.2).length) s
  s.dieList.foldl (fun t n => (t.wr (pgCOL n) F.COL_JOBS (live.filter fun e => nbit e.2.dieSet n).length).wr (pgCOL n) F.COL_OPS_ARMED
    (s.keg.ops.filter fun e => e.2.die == n && e.2.phase != 2).length) s1

/-- Kinds of messages on a keg link: 1 beacon, 2 job record, 3 RERUN, 4 ABORT, 5 remote access, 6 its reply. A fenced module sends beacons
only (R513); none leave after transmission has stopped. -/
def State.kegSend (s : State) (l kind : Nat) (words : List Nat) : State :=
  if s.keg.silent || (s.fenced && kind != 1) then s else { s.count (pgKEG l) 0x04C 1 with msgs := .keg l kind words :: s.msgs }

/-- A message to every other member, over its route. -/
def State.tellMembers (s : State) (x : Job) (kind : Nat) (words : List Nat) : State :=
  (s.others x).foldl (fun t m => match t.route m with
    | some l => t.kegSend l kind (m :: words)
    | none => t) s

/-! Abort (R515) -/

/-- Operations of a job, or of a step, go: their takes and releases with them. -/
def State.dropOps (s : State) (p : CollOp → Bool) : State :=
  let gone := (s.keg.ops.filter fun e => p e.2).map (·.1)
  let mine := fun (w : Who) => match w with
    | .coll _ op => gone.contains op
    | _ => false
  { s with
    keg := { s.keg with ops := s.keg.ops.filter fun e => !p e.2 }
    spl := { s.spl with
      waiters := s.spl.waiters.filter fun y => !mine y.w
      rels := s.spl.rels.filter fun r => !mine r.1
      flight := s.spl.flight.filter fun m => match m.op with
        | .take _ w => !mine w
        | _ => true } }

/-- A job aborts: ABORT to every member, engines stopped, its steps in progress complete with ABORTED_COLLECTIVE or FENCED, its link keys are
destroyed. The record in the context's event page has no event of its own: which bit it names is a free value (R521). -/
def State.abortJob (s : State) (j : Nat) (fence : Bool := false) (heard : Bool := false) : State :=
  match s.kegJob j with
  | none => s
  | some x =>
    if x.aborted then s
    else
      let st := if fence then stFENCED else stABORTED
      let s1 := s.tellMembers x 4 [j]
      let s2 := (s1.dropOps fun o => o.job == j).setKegJob j { x with aborted := true, keys := none, early := [] }
      let steps := (s2.steps.filter fun e => e.2.job == some j && e.2.started).map (·.1)
      let s3 := steps.foldl (fun t id => t.failStep id st 0) s2
      let s4 := if steps.isEmpty then s3 else
        let (t, b) := s3.fresh 5
        t.ctxCode x.ctx b st 0
      let s5 := (bitsSet x.dieSet 4).foldl (fun t n => (t.raise (pgCOL n) 2).count (pgCOL n) 0x05C 1) s4
      (if heard then s5 else s5.count pgCAB 0x058 1).showJobs

def State.abortJobs (s : State) (p : Nat × Job → Bool) (fence : Bool := false) : State :=
  ((s.keg.jobs.filter p).map (·.1)).foldl (fun t j => t.abortJob j fence) s

/-- R515: an ABORT from a member. -/
def execAbortReceive (link : Fin 8) (job : Nat) (s : State) : Result :=
  .next (if s.linkIsUp link.val then s.abortJob job false true else s)

/-! A link goes down, trains, comes up -/

/-- The reachable set as a bitmap (R506), and QUORUM with it. -/
def State.reachSet (s : State) : Nat := s.rdi pgCAB F.CAB_REACH 0 + 2 ^ 32 * s.rdi pgCAB F.CAB_REACH 1
def State.setReach (s : State) (m : Nat) : State := (s.wri pgCAB F.CAB_REACH 0 m).wri pgCAB F.CAB_REACH 1 (m / 2 ^ 32)
def State.membersNow (s : State) : Nat := s.rdi pgCAB F.CAB_MEMBERS 0 + 2 ^ 32 * s.rdi pgCAB F.CAB_MEMBERS 1

/-- Is a set of indexes more than half of the current members, or half with the anchor (R511, R512)? -/
def State.majority (s : State) (m : Nat) : Bool :=
  let both := popcount (m &&& s.membersNow) 64
  let all := popcount s.membersNow 64
  decide (all < 2 * both) || (decide (all = 2 * both ∧ all ≠ 0) && nbit m (s.rd pgCAB F.CAB_ANCHOR))

def State.showQuorum (s : State) : State := s.wr pgCAB F.CAB_QUORUM (boolNat (s.majority s.reachSet))

/-- R503: the link goes DOWN: its route goes, its jobs abort, the drop is counted as a suspected fault. -/
def State.linkFell (s : State) (l : Nat) : State :=
  if s.kegState l != kegUP then s
  else
    let pg := pgKEG l
    let lost := (s.keg.jobs.filter fun e => s.carries l e.2).map (·.1)
    let s1 := ((((s.wr pg F.KEG_STATE kegDOWN).wr pg F.KEG_LANES_OK 0).raise pg 1).count pg 0x05C 1).bump pg F.KEG_SUSPECT 1
    let s2 := s1.setLink l { s1.link l with downClk := s.now, reach := 0, fails := 0 }
    let s3 := lost.foldl (fun t j => t.abortJob j) s2
    let s4 := (List.range 64).foldl (fun t m =>
      if t.rdi pgCAB F.CAB_ROUTE_VALID m = 1 ∧ t.rdi pgCAB F.CAB_ROUTE_LINK m = l ∧ t.rdi pgCAB F.CAB_ROUTE_FIXED m = 0 then
        (t.wri pgCAB F.CAB_ROUTE_VALID m 0).wri pgCAB F.CAB_ROUTE_LINK m 0
      else t) s3
    s4.showJobs

/-- R502, R503: a flit arrives; one whose CRC fails is sent again, and the eighth failed attempt in a row drops the link. A burst of replays is a
suspected fault. -/
def execKegFlitReceive (link : Fin 8) (ok : Bool) (s : State) : Result :=
  .next (
    let l := link.val
    let pg := pgKEG l
    if !s.linkIsUp l then s
    else if ok then (s.setLink l { s.link l with lastFlit := s.now, fails := 0 }).count pg 0x050 1
    else
      let n := (s.link l).fails + 1
      let s1 := ((s.count pg 0x058 1).count pg 0x054 1).setLink l { s.link l with fails := n }
      let s2 := if n = 1 then s1.bump pg F.KEG_SUSPECT 1 else s1
      if 8 ≤ n then s2.linkFell l else s2)

def execKegLossTimeout (link : Fin 8) (s : State) : Result :=
  .next (
    let l := link.val
    if s.linkIsUp l && decide ((s.link l).lastFlit + clkUs * s.rd (pgKEG l) F.KEG_LOSS_US ≤ s.now) then s.linkFell l else s)

/-- May the link train (R504)? -/
def State.mayTrain (s : State) (l : Nat) : Bool :=
  decide (l < 2 * s.variant.dies) && s.hasUnit (pgKEG l) && s.hasUnit (pgDIE (l / 2)) && s.on pgCAB F.CAB_INDEX_VALID && !s.keg.silent

/-- R504: a DOWN link trains every second; the first training comes as soon as the cabinet index is set. -/
def execKegTrainStart (link : Fin 8) (s : State) : Result :=
  .next (
    let l := link.val
    let again := (s.link l).downClk = 0 ∨ (s.link l).downClk + 1000 * clkMs ≤ s.now
    if s.ready && s.mayTrain l && s.kegState l == kegDOWN && decide again then s.wr (pgKEG l) F.KEG_STATE kegTRAINING else s)

/-- An UP link other than `l` reports the index with another hash (R504). -/
def State.twin (s : State) (l : Nat) (p : KegPeer) : Bool :=
  (List.range 8).any fun k => k != l && s.linkIsUp k && s.rd (pgKEG k) F.KEG_PEER_CAB == p.cab.val &&
    (List.range 4).any fun i => s.rdi (pgKEG k) F.KEG_PEER_HASH i != p.hash / 2 ^ (32 * i) % 2 ^ 32

/-- R438, R504: training and authentication end; `peer` is none when electrical training fails. -/
def execKegTrainDone (link : Fin 8) (peer : Option KegPeer) (s : State) : Result :=
  .next (
    let l := link.val
    let pg := pgKEG l
    if !s.mayTrain l || s.kegState l != kegTRAINING then s
    else match peer with
      | none => (s.wr pg F.KEG_STATE kegDOWN).setLink l { s.link l with downClk := s.now }
      | some p =>
        let s1 := { s with keg := { s.keg with indexLocked := true } }
        if !p.sigOk || p.owner != s.gau.ownerKey || p.cab.val == s.ownIndex || s.twin l p then
          (s1.wr pg F.KEG_STATE kegREFUSED).raise pg 2
        else
          let s2 := (((s1.wr pg F.KEG_PEER_CAB p.cab.val).wr pg F.KEG_PEER_LINK p.link.val).wr pg F.KEG_LANES_OK p.lanes.val).wr pg F.KEG_STATE kegUP
          let s3 := (List.range 4).foldl (fun t i => t.wri pg F.KEG_PEER_HASH i (p.hash / 2 ^ (32 * i))) s2
          let s4 := s3.setLink l { lastFlit := s.now, secret := s.keg.secretNext }
          let s5 : State := { s4 with keg := { s4.keg with secretNext := s.keg.secretNext + 1, conf := mput s4.keg.conf p.cab.val s.now } }
          let s6 := if s5.rdi pgCAB F.CAB_ROUTE_FIXED p.cab.val = 1 then s5
            else (s5.wri pgCAB F.CAB_ROUTE_VALID p.cab.val 1).wri pgCAB F.CAB_ROUTE_LINK p.cab.val l
          ((s6.setReach (setBit (setBit s6.reachSet p.cab.val) s.ownIndex)).showQuorum.raise pg 0).showJobs)

/-- KEG_RETRAIN: the link retrains, from any state. -/
def execKegRetrain (fn : Fin 32) (tag link : Nat) (s : State) : Result :=
  .next (s.command fn.val tag 0x62 fun t =>
    if 2 * t.variant.dies ≤ link ∨ t.hasUnit (pgKEG link) = false ∨ t.hasUnit (pgDIE (link / 2)) = false then t.respond fn.val tag stNOUNIT 0
    else
      let t1 := t.linkFell link
      (t1.wr (pgKEG link) F.KEG_STATE (if t1.mayTrain link then kegTRAINING else kegDOWN)).respond fn.val tag stCOMPLETE 0)

/-- R505: ROUTE_SET fixes a link, or no link, for an index. -/
def execRouteSet (fn : Fin 32) (tag idx : Nat) (link : Option Nat) (s : State) : Result :=
  .next (s.command fn.val tag 0x61 fun t =>
    if 64 ≤ idx ∨ (link.any fun l => decide (2 * t.variant.dies ≤ l)) = true then t.respond fn.val tag stFAULT 0
    else
      let t1 := ((t.wri pgCAB F.CAB_ROUTE_FIXED idx 1).wri pgCAB F.CAB_ROUTE_VALID idx (boolNat link.isSome)).wri pgCAB F.CAB_ROUTE_LINK idx (link.getD 0)
      t1.showJobs.respond fn.val tag stCOMPLETE 0)

/-- R517: the cabinet index is written by the PF until the first link has trained. -/
def State.setIndex (s : State) (v : Nat) : State :=
  let s1 := (s.wr pgCAB F.CAB_INDEX (v % 64)).wr pgCAB F.CAB_INDEX_VALID (boolNat (nbit v 31))
  (s1.setReach (if nbit v 31 then 2 ^ (v % 64) else 0)).showQuorum

def execCabIndexWrite (fn : Fin 32) (v : Word) (s : State) : Result :=
  .next (s.blockAction pgCAB fn.val 0x100 fun t =>
    if t.keg.indexLocked || t.locked pgCAB then
      t.accessErr { fn := fn, bar2 := fn.val != 0, off := if fn.val = 0 then pgCAB * 4096 + 0x100 else
        (0xC4 + t.rd pgCAB F.OWNER_PT_SLOT) * 4096 + 0x100 }
    else t.setIndex v.toNat)

/-! Epochs and fences (R511–R514) -/

/-- Every job aborts with FENCED. -/
def State.fence (s : State) : State :=
  if s.fenced then s
  else
    let s1 := s.abortJobs (fun e => !e.2.aborted) true
    ((s1.wr pgCAB F.CAB_FENCED 1).raise pgCAB 3).count pgCAB 0x054 1

/-- Would a record with this number and these members pass R511, its listing of the module apart? -/
def State.epochPasses (s : State) (num members : Nat) : Bool :=
  let e := s.rd pgCAB F.CAB_EPOCH
  e == 0 || (decide (e < num) && s.majority members)

/-- A record that R511 and R513 accept. -/
def State.epochAccepted (s : State) (num members : Nat) : Bool :=
  nbit members s.ownIndex && s.epochPasses num members && (!s.fenced || decide (s.rd pgCAB F.CAB_EPOCH < num))

/-- R514: jobs of older epochs move to the new one, with fresh link keys, or abort. -/
def State.moveJobs (s : State) (num members : Nat) : State :=
  s.keg.jobs.foldl (fun t e =>
    if e.2.aborted || e.2.epoch == num then t
    else if e.2.members.all fun m => nbit members m then
      let t1 := t.setKegJob e.1 { e.2 with epoch := num, keys := some t.lp.keyNext }
      { t1 with lp := { t1.lp with keyNext := t1.lp.keyNext + 1 } }
    else t.abortJob e.1) s

def State.acceptEpoch (s : State) (num members : Nat) : State :=
  let s1 := (((s.wr pgCAB F.CAB_EPOCH num).wri pgCAB F.CAB_MEMBERS 0 members).wri pgCAB F.CAB_MEMBERS 1 (members / 2 ^ 32)).wr pgCAB F.CAB_ANCHOR
    (((List.range 64).find? fun i => nbit members i).getD 0)
  let s2 := ({ s1 with keg := { s1.keg with below := 0 } }.raise pgCAB 0).count pgCAB 0x04C 1
  let s3 := if s2.fenced then (s2.wr pgCAB F.CAB_FENCED 0).raise pgCAB 4 else s2
  (s3.moveJobs num members).showQuorum

/-- A record is offered: accepted, ignored, or it fences the module. Whether it was accepted, with the state. -/
def State.offerEpoch (s : State) (num members : Nat) : State × Bool :=
  let e := s.rd pgCAB F.CAB_EPOCH
  if num = e ∧ members = s.membersNow ∧ e ≠ 0 then (s, false)
  else if s.epochAccepted num members && !(num == e && e != 0) then (s.acceptEpoch num members, true)
  else
    let s1 := s.count pgCAB 0x050 1
    if num = e ∧ e ≠ 0 then (s1.raise pgCAB 1, false)
    else if !nbit members s.ownIndex && decide (e < num) then (s1.fence, false)
    else (s1, false)

def execKegEpoch (fn : Fin 32) (tag : Nat) (epoch : Word) (members : BitVec 64) (s : State) : Result :=
  .next (s.command fn.val tag 0x60 fun t =>
    let (t1, ok) := t.offerEpoch epoch.toNat members.toNat
    t1.respond fn.val tag (if ok then stCOMPLETE else stFAULT) 0)

/-! Beacons and reachability (R506) -/

/-- Every 100 µs a beacon leaves on each UP link: epoch record and reachable set. -/
def execBeaconSend (s : State) : Result :=
  .next (if s.keg.beaconClk + 100 * clkUs ≤ s.now then
    let s1 := { s with keg := { s.keg with beaconClk := s.now } }
    ((List.range 8).filter fun l => s.linkIsUp l).foldl (fun t l =>
      t.kegSend l 1 [s.rd pgCAB F.CAB_EPOCH, s.membersNow, s.reachSet]) s1
  else s)

def execBeaconReceive (link : Fin 8) (authOk : Bool) (epoch : Word) (members reach : BitVec 64) (s : State) : Result :=
  .next (
    let l := link.val
    if !s.linkIsUp l || !authOk then s
    else
      let heard := setBit reach.toNat (s.rd (pgKEG l) F.KEG_PEER_CAB)
      let s1 := (s.setLink l { s.link l with reach := reach.toNat }).count pgCAB 0x05C 1
      let s2 := (bitsSet heard 64).foldl (fun t m => { t with keg := { t.keg with conf := mput t.keg.conf m s.now } }) s1
      let s3 := (s2.setReach (setBit (s2.reachSet ||| heard) s.ownIndex)).showQuorum
      (s3.offerEpoch epoch.toNat members.toNat).1)

/-- An index that no beacon has confirmed for 800 µs leaves the set; its jobs abort. -/
def execReachExpire (idx : Fin 64) (s : State) : Result :=
  .next (
    let m := idx.val
    if m = s.ownIndex ∨ nbit s.reachSet m = false ∨ s.now < nget s.keg.conf m + 800 * clkUs then s
    else
      let s1 := (s.setReach (clrBit s.reachSet m)).showQuorum
      s1.abortJobs fun e => !e.2.aborted && e.2.members.contains m)

/-- R512: quorum is judged at a mark; QUORUM_LOST when it is first found missing. A module with no epoch is not judged. -/
def State.markQuorum (s : State) : State :=
  if s.rd pgCAB F.CAB_EPOCH = 0 then s
  else if s.majority s.reachSet then { s with keg := { s.keg with below := 0 } }
  else
    let s1 := { s with keg := { s.keg with below := s.keg.below + 1 } }
    if s.keg.below = 0 then s1.raise pgCAB 2 else s1

def execFenceSelf (s : State) : Result := .next (if 3 ≤ s.keg.below then s.fence else s)

/-! Jobs (R510) -/

/-- The stretch table of a job, one entry for each of its `n` members. -/
def stretchOf (b : List Nat) (n : Nat) : List Stretch :=
  let le := fun i k => (List.range k).foldr (fun j a => b.getD (i + j) 0 + 256 * a) 0
  (List.range n).map fun i =>
    { mem := le (16 * i) 1, tail := nbit (le (16 * i + 1) 1) 0, base := le (16 * i + 4) 4, len := le (16 * i + 8) 4 }

/-- The reserved bytes of the entries are zero. -/
def stretchClean (b : List Nat) (n : Nat) : Bool :=
  (List.range n).all fun i => b.getD (16 * i + 1) 0 ≤ 1 && b.getD (16 * i + 2) 0 == 0 && b.getD (16 * i + 3) 0 == 0 &&
    (List.range 4).all fun j => b.getD (16 * i + 12 + j) 0 == 0

/-- The rules of R510 on a table and its members. -/
def stretchOk (t : List Stretch) (members : Nat) : Bool :=
  let n := t.length
  n != 0 && (t.map fun e => e.mem).eraseDups.length == n && t.all (fun e => e.mem < 64 && nbit members e.mem) &&
    (t.headD { mem := 0, tail := false, base := 1, len := 0 }).base == 0 &&
    (List.range n).all fun i => match t[i]?, t[i + 1]? with
      | some a, some b => !a.tail && a.base % 64 == 0 && a.len % 64 == 0 && b.base == a.base + a.len
      | some a, none => a.base % 64 == 0 && (a.tail || a.len % 64 == 0)
      | none, _ => true

def State.jobRefused (s : State) (fn c job epoch members dieSet : Nat) : Option Nat :=
  if (bitsSet dieSet 4).any fun n => !s.hasUnit (pgDIE n) then some stNOUNIT
  else if s.ctxState c != ctxLIVE || !s.boundTo fn c then some stDENIED
  else if s.fenced then some stFENCED
  else if epoch != s.rd pgCAB F.CAB_EPOCH || dieSet % 16 == 0 || !nbit members s.ownIndex || !nbit s.membersNow s.ownIndex ||
      (members &&& s.reachSet) != members || (s.kegJob job).isSome || decide (64 ≤ s.keg.jobs.length) then some stFAULT
  else none

/-- JOB_CREATE: context, job identifier, epoch, members, die set, VA of the stretch table. -/
def execJobCreate (fn : Fin 32) (tag : Nat) (ctx : Fin 1024) (job epoch : Word) (members : BitVec 64) (dieSet tableVa : Nat) (s : State) : Result :=
  .next (s.command fn.val tag 0x63 (vf := true) fun t =>
    match t.jobRefused fn.val ctx.val job.toNat epoch.toNat members.toNat dieSet with
    | some st => t.respond fn.val tag st 0
    | none =>
      let n := popcount members.toNat 64
      let (t1, b) := t.hubRead ctx.val (tableVa / 64 * 64) 16
      let tab := stretchOf (b.getD []) n
      if b.isNone || tableVa % 64 != 0 || !stretchClean (b.getD []) n || !stretchOk tab members.toNat then t1.respond fn.val tag stFAULT 0
      else
        let x : Job := { ctx := ctx.val, epoch := epoch.toNat, members := bitsSet members.toNat 64, dieSet := dieSet % 16, table := tab,
                         keys := some t1.lp.keyNext }
        (({ t1 with lp := { t1.lp with keyNext := t1.lp.keyNext + 1 } }.setKegJob job.toNat x).showJobs).respond fn.val tag stCOMPLETE 0)

/-- A job and its remote windows go. -/
def State.removeJob (s : State) (j : Nat) : State :=
  ({ (s.dropOps fun o => o.job == j) with
    keg := { (s.dropOps fun o => o.job == j).keg with
      jobs := mdel s.keg.jobs j, windows := s.keg.windows.filter fun w => w.2 != j } }).showJobs

def execJobEnd (fn : Fin 32) (tag : Nat) (job : Word) (s : State) : Result :=
  .next (s.command fn.val tag 0x64 (vf := true) fun t =>
    match t.kegJob job.toNat with
    | none => t.respond fn.val tag stFAULT 0
    | some x =>
      if !(fn.val == 0 || t.boundTo fn.val x.ctx) then t.respond fn.val tag stDENIED 0
      else if t.steps.any fun e => e.2.job == some job.toNat && e.2.started then t.respond fn.val tag stFAULT 0
      else (t.removeJob job.toNat).respond fn.val tag stCOMPLETE 0)

/-! Remote windows (R517) -/

def execRwinBind (fn : Fin 32) (tag : Nat) (ctx : Fin 1024) (job : Word) (s : State) : Result :=
  .next (s.command fn.val tag 0x65 (vf := true) fun t =>
    if !t.boundTo fn.val ctx.val then t.respond fn.val tag stDENIED 0
    else if (t.kegJob job.toNat).all fun x => x.ctx != ctx.val then t.respond fn.val tag stFAULT 0
    else if t.keg.windows.contains (ctx.val, job.toNat) then t.respond fn.val tag stCOMPLETE 0
    else ({ t with keg := { t.keg with windows := t.keg.windows ++ [(ctx.val, job.toNat)] } }).respond fn.val tag stCOMPLETE 0)

def execRwinUnbind (fn : Fin 32) (tag : Nat) (ctx : Fin 1024) (job : Word) (s : State) : Result :=
  .next (s.command fn.val tag 0x66 (vf := true) fun t =>
    if !t.boundTo fn.val ctx.val then t.respond fn.val tag stDENIED 0
    else if (t.kegJob job.toNat).all fun x => x.ctx != ctx.val then t.respond fn.val tag stFAULT 0
    else ({ t with keg := { t.keg with windows := t.keg.windows.filter fun w => w != (ctx.val, job.toNat) } }).respond fn.val tag stCOMPLETE 0)

/-- The bound job of a context that reaches an index: one that has not aborted first. -/
def State.remoteJob (s : State) (c m : Nat) : Option (Nat × Job) :=
  let js := s.keg.windows.filterMap fun w => if w.1 = c then (s.kegJob w.2).bind fun x => if x.members.contains m then some (w.2, x) else none else none
  (js.find? fun j => !j.2.aborted).orElse fun _ => js.head?

/-- A failed access leaves zeros and posts XLT_FAULT (R208). -/
def State.remoteFault (s : State) (c va code : Nat) (step : Option Nat) : State :=
  let s1 := (s.ctxEvent c 10 (xltStatus code) code va).failStep? step (xltStatus code) code
  { s1 with lp := { s1.lp with line := List.replicate 64 0, lineHow := 3 } }

/-- R517: `incoming`: an access of another member of job `job`, translated in the job's context here and answered; else an access of context `ctx`
to a VA whose module index is another's, which leaves by the route to that index; `back` is what comes back. -/
def execRemoteAccess (incoming : Bool) (job : Nat) (ctx : Fin 1024) (va : Nat) (data : Option (List Byte)) (step : Option Nat) (back : RemoteOut)
    (o : LineOut) (s : State) : Result :=
  .next (
    if incoming then
      match s.kegJob job with
      | none => s
      | some x =>
        if x.aborted || s.fenced || !s.isLocalVa va then s
        else
          let reply := fun (t : State) (ws : List Nat) => { t with msgs := .reply 6 ws :: t.msgs }
          let n := s.vaDie x.ctx va
          match data with
          | none =>
            let (t, bs, how) := s.ctxRead n x.ctx va false o none
            reply t (how :: bs)
          | some d =>
            if d.isEmpty || decide (64 < va % 64 + d.length) then s
            else
              let (t, ok) := s.ctxWrite n x.ctx va false (d.map fun b => b.toNat) false o none
              reply t [if ok then 0 else 3]
    else if s.isLocalVa va then s
    else
      let c := ctx.val
      let m := bits va 42 6
      match s.remoteJob c m with
      | none => s.remoteFault c va 1 step
      | some (_, x) =>
        if s.fenced then s.failStep? step stFENCED 0
        else if x.aborted then s.failStep? step stABORTED 0
        else match s.route m with
          | none => s.remoteFault c va 1 step
          | some l =>
            let s1 := s.kegSend l 5 (m :: va :: (data.getD []).map fun b => b.toNat)
            if back.code ≠ 0 then s1.remoteFault c va back.code step
            else match data with
              | some _ => s1
              | none =>
                let bs := (List.range 64).map fun i => (back.data.getD i 0).toNat
                let s2 := { s1 with lp := { s1.lp with line := bs, lineHow := if back.bad then 2 else 0 } }
                if back.bad then s2.dataDetect? step else s2)

end Sys2Proof.Machine
end

