-- ==== Sys2Proof/Machine/Collective.lean ====
section
/-! DEFINITION. Collective operations: their arming with a step, their records, their end, and the re-run of a step on every member
(R243, R250, R251, R507–R509). -/

namespace Sys2Proof.Machine

def State.collOp (s : State) (n : Nat) : Option CollOp := mget s.keg.ops n
def State.setOp (s : State) (n : Nat) (x : CollOp) : State := { s with keg := { s.keg with ops := mput s.keg.ops n x } }
def State.modOp (s : State) (n : Nat) (f : CollOp → CollOp) : State := { s with keg := { s.keg with ops := mmod s.keg.ops n f } }

/-! Arming (R507) -/

/-- The fields of a 64-byte collective descriptor. -/
def collOf (step ctx die : Nat) (b : List Nat) : CollOp :=
  let le := fun i n => (List.range n).foldr (fun k a => b.getD (i + k) 0 + 256 * a) 0
  { step := step, ctx := ctx, die := die, op := bits (le 0 1) 0 3, fmt := bits (le 1 1) 0 2, inStore := nbit (le 1 1) 2, root := le 2 1,
    job := le 4 4, seq := le 8 4, bytes := le 12 4, src := le 16 8, dst := le 24 8, start := le 32 2, done := le 34 2, thresh := le 36 4,
    bad := 5 ≤ bits (le 0 1) 0 3 || 8 ≤ le 0 1 || 8 ≤ le 1 1 || (bits (le 1 1) 0 2 == 3 && bits (le 0 1) 0 3 != 4) || le 3 1 != 0 ||
      le 12 4 % 64 != 0 || decide (2 ^ 30 < le 12 4) || (List.range 24).any fun i => le (40 + i) 1 != 0 }

/-- The entry of a member in a stretch table. -/
def Job.stretch (j : Job) (m : Nat) : Option Stretch := j.table.find? fun e => e.mem == m

/-- A sequence-laid-out step whose heads do not start at the member's stretch ends with FAULT and ATT_DESC (R510). -/
def State.checkStretch (s : State) (id : Nat) (st : Step) (j : Job) : State :=
  let off := st.members.filter fun m => ((s.rq m.idx).head.bind s.head).any fun h => (j.stretch s.ownIndex).any fun e => e.base != h.geom.base
  match off with
  | [] => s
  | m :: _ => (s.failStep id stFAULT 0).ctxNoteQ st.ctx 14 m.idx

/-- The collective operations of a step that has just started: each descriptor is latched and its take registered. -/
def State.armColls (s : State) (id : Nat) (colls : List (Nat × Nat)) : State :=
  match s.step1 id with
  | none => s
  | some st =>
    let one := fun (t : State) (e : Nat × Nat) =>
      let (t1, b) := t.hubRead st.ctx (e.2 / 64 * 64) 1 {} (some id)
      match b with
      | none => t1
      | some bs =>
        let o := collOf id st.ctx e.1 bs
        if o.bad || e.2 % 64 != 0 || (t1.kegJob o.job).all (fun j => j.ctx != st.ctx || !nbit j.dieSet e.1) then t1.failStep id stFAULT 0
        else
          let n := t1.keg.opNext
          let t2 := (t1.setOp n o).modStep id fun x => { x with job := some o.job }
          let t3 := { t2 with keg := { t2.keg with opNext := n + 1 } }
          let t4 := t3.spSend (1 + e.1) st.ctx o.start (.take o.thresh (.coll e.1 n))
          match t4.kegJob o.job with
          | none => t4
          | some j =>
            if j.aborted then t4.failStep id (if t4.fenced then stFENCED else stABORTED) 0
            else if o.op = 4 then t4.checkStretch id st j else t4
    (colls.foldl one s).showJobs

/-! Data of an operation (R508) -/

/-- Bytes of an element in memory: fp32 and int32 have 4, bf16 has 2. -/
def CollOp.elem (o : CollOp) : Nat := if o.fmt = 1 then 2 else 4

/-- The position of a member: rings in member order, trees with the root first. -/
def CollOp.order (o : CollOp) (j : Job) : List Nat := if o.op < 3 then j.members else o.root :: j.members.filter fun m => m != o.root

/-- The bytes of chunk `c` of `n`: whole lines, as even as they divide (assumption log 41). -/
def chunkSpan (total n c : Nat) : Nat × Nat := (total / 64 * c / n * 64, total / 64 * (c + 1) / n * 64)

/-- Bytes of the source, as the module's own engine reads them: context memory, or the vat store of the step's first vat (R173). -/
def State.collSource (s : State) (o : CollOp) (lo n : Nat) : State × List Nat :=
  if o.inStore then
    match (s.step1 o.step).bind fun st => st.arms.head? with
    | none => (s, List.replicate n 0)
    | some a =>
      match s.vatOf (pgFLOOR a.die.val a.floor.val) a.logical.val with
      | none => (s, List.replicate n 0)
      | some pg =>
        let key := fun (i : Nat) => match mapAddr true (o.src + lo + i) with
          | some p => if s.bankOwned pg o.ctx (p / 131072) then some (pg * 2 ^ 21 + p) else none
          | none => none
        let denied := (List.range n).any fun i => (key i).isNone
        let bs := (List.range n).map fun i => match key i with
          | some k => (bget s.vstore k).toNat
          | none => 0
        (if denied then (s.modStep o.step fun st => { st with denied := true }).ctxCode o.ctx 12 stDENIED 1 else s, bs)
  else
    (linesOf (o.src + lo) n).foldl (fun (a : State × List Nat) l =>
      let (t, bs, _) := a.1.ctxRead o.die o.ctx l false {} (some o.step)
      let x := max l (o.src + lo)
      let y := min (l + 64) (o.src + lo + n)
      (t, a.2 ++ (bs.drop (x - l)).take (y - x))) (s, [])

/-- Bytes of the result, by the die's engine, line by line. -/
def State.collStore (s : State) (n : Nat) (o : CollOp) (lo : Nat) (bs : List Nat) : State :=
  let va := o.dst + lo
  let s1 := (linesOf va bs.length).foldl (fun t l =>
    let x := max l va
    let y := min (l + 64) (va + bs.length)
    (t.ctxWrite o.die o.ctx x false ((bs.drop (x - va)).take (y - x)) false {} (some o.step)).1) s
  s1.modOp n fun p => { p with filled := p.filled + bs.length }

/-- Elements as 32-bit lanes, and lanes as elements: bf16 sums are kept in fp32 and rounded once at the end. -/
def CollOp.lanes (o : CollOp) (bs : List Nat) : List Nat :=
  (List.range (bs.length / o.elem)).map fun i =>
    let v := (List.range o.elem).foldr (fun k a => bs.getD (o.elem * i + k) 0 + 256 * a) 0
    if o.fmt = 1 then widen 0xB v 0 else v

def CollOp.unlanes (o : CollOp) (ws : List Nat) : List Nat :=
  ws.flatMap fun w => (List.range o.elem).map fun k => (if o.fmt = 1 then narrow 0xB w else w) / 256 ^ k % 256

def CollOp.addLane (o : CollOp) (a b : Nat) : Nat := if o.fmt = 2 then i32Add a b else f32Add a b

/-- MiB counters of a die's engine: 0x050 sent, 0x054 received. -/
def State.collMoved (s : State) (die off n : Nat) : State :=
  let k := die * 4096 + off
  let old := nget s.keg.rest k
  ({ s with keg := { s.keg with rest := nput s.keg.rest k ((old + n) % 2 ^ 20) } }).count (pgCOL die) off ((old + n) / 2 ^ 20)

/-- A record's words on the line, its payload last. -/
def recLine (r : CollRec) : List Nat :=
  [r.src, r.dst, r.hops, r.job, r.seq, r.die, r.phase, r.chunk, r.off, r.heads, r.dim, boolNat r.wide] ++ r.words

def recBytes (r : CollRec) : Nat := if r.phase = 0 then 4 * r.words.length else r.words.length

/-- A record leaves by the route to its destination; with no route it is dropped and its job aborts (R505). -/
def State.sendRec (s : State) (r : CollRec) : State :=
  match s.route r.dst with
  | none => s.abortJob r.job
  | some l => ((s.kegSend l 2 (recLine r)).count (pgKEG l) 0x064 (max 1 (ceilDiv (recBytes r) 4096))).collMoved r.die 0x050 (recBytes r)

/-! Merge records (R243, R251) -/

def leAt (bs : List Nat) (i n : Nat) : Nat := (List.range n).foldr (fun k a => bs.getD (i + k) 0 + 256 * a) 0

/-- Bytes of one merge record. -/
def mergeSize (heads dim : Nat) (wide : Bool) : Nat := heads * (4 + dim * (if wide then 4 else 2))

/-- The partial of head `h` in the record at `at`. -/
def mergePart (bs : List Nat) (pos heads dim : Nat) (wide : Bool) (h : Nat) : Partial :=
  let e := if wide then 4 else 2
  ((List.range dim).map fun i =>
    let v := leAt bs (pos + 4 * heads + (h * dim + i) * e) e
    if wide then v else widen 0xB v 0, leAt bs (pos + 4 * h) 4)

/-- R243 on every row and head of two sets of merge records. -/
def mergeBytes (heads dim : Nat) (wide : Bool) (a b : List Nat) : List Nat :=
  let sz := mergeSize heads dim wide
  let out := fun (v n : Nat) => (List.range n).map fun k => v / 256 ^ k % 256
  if sz = 0 then a
  else (List.range (a.length / sz)).flatMap fun r =>
    let ps := (List.range heads).map fun h => combine (mergePart a (r * sz) heads dim wide h) (mergePart b (r * sz) heads dim wide h)
    (ps.flatMap fun p => out p.2 4) ++ ps.flatMap fun p => p.1.flatMap fun v => if wide then out v 4 else out (narrow 0xB v) 2

/-! The course of an operation (R508) -/

/-- The bytes of result that an operation writes on this member. -/
def CollOp.target (o : CollOp) (n p me : Nat) : Nat :=
  match o.op with
  | 1 => n * o.bytes
  | 2 => (chunkSpan o.bytes n p).2 - (chunkSpan o.bytes n p).1
  | 4 => if o.root = me then o.bytes else 0
  | _ => o.bytes

/-- Children and parent of a position of a tree of `n`. -/
def treeKids (n i : Nat) : List Nat := [2 * i + 1, 2 * i + 2].filter fun k => k < n
def treeUp (i : Nat) : Nat := (i - 1) / 2

/-- The result is complete: the engine expects the job's next operation on the die (R508). -/
def State.settleOp (s : State) (n : Nat) (o0 : CollOp) (j : Job) : State :=
  match s.collOp n with
  | none => s
  | some o =>
    let ord := o.order j
    let p := (ord.idxOf? s.ownIndex).getD 0
    let mergeDone := o.op = 4 ∧ o.root ≠ s.ownIndex ∧ (treeKids ord.length p).length ≤ o.got
    if o.phase ≠ 1 ∨ (o.filled < o.target ord.length p s.ownIndex ∧ ¬ mergeDone) ∨ (o.op = 4 ∧ o.got < (treeKids ord.length p).length) then s
    else
      let s1 := s.modOp n fun x => { x with phase := 2 }
      match s1.kegJob o0.job with
      | none => s1
      | some y => s1.setKegJob o0.job { y with seqs := y.seqs.set o.die (o.seq + 1) }

/-- What an operation does with a record that has reached it. -/
def State.takeRec (s : State) (n : Nat) (o : CollOp) (j : Job) (r : CollRec) : State :=
  let ord := o.order j
  let cnt := ord.length
  let p := (ord.idxOf? s.ownIndex).getD 0
  let next := ord.getD ((p + 1) % cnt) 0
  let fwd := fun (t : State) (tgt : Nat) (q : CollRec) => t.sendRec { q with src := s.ownIndex, dst := tgt, hops := 4 }
  let s0 := s.collMoved o.die 0x054 (recBytes r)
  let s1 := match o.op, r.phase with
    | 0, 0 | 2, 0 =>
      let (t, own) := s0.collSource o r.off (r.words.length * o.elem)
      let sum := r.words.zipWith o.addLane (o.lanes own)
      if r.chunk = p then
        let bs := o.unlanes sum
        if o.op = 2 then t.collStore n o (r.off - (chunkSpan o.bytes cnt p).1) bs
        else
          let t1 := t.collStore n o r.off bs
          if cnt = 1 then t1 else fwd t1 next { r with phase := 1, words := bs }
      else fwd t next { r with words := sum }
    | 0, _ =>
      let t := s0.collStore n o r.off r.words
      if (p + 1) % cnt = r.chunk then t else fwd t next r
    | 1, _ =>
      let t := s0.collStore n o (r.chunk * o.bytes + r.off) r.words
      if (p + 1) % cnt = r.chunk then t else fwd t next r
    | 3, _ =>
      let t := s0.collStore n o r.off r.words
      (treeKids cnt p).foldl (fun u k => fwd u (ord.getD k 0) r) t
    | 4, _ =>
      let acc := mergeBytes r.heads r.dim r.wide o.acc r.words
      let t := s0.modOp n fun x => { x with acc := acc, got := x.got + 1 }
      if o.got + 1 < (treeKids cnt p).length then t
      else if o.root = s.ownIndex then t.collStore n o 0 acc
      else fwd t (ord.getD (treeUp p) 0) { r with words := acc, off := 0 }
    | _, _ => s0
  s1.settleOp n o j

/-- The first thing that a member does when its operation starts. `heads`, `dim` and `wide` are the shape of merge records. -/
def State.beginOp (s : State) (n : Nat) (o : CollOp) (j : Job) (heads dim : Nat) (wide : Bool) : State :=
  let ord := o.order j
  let cnt := ord.length
  let p := (ord.idxOf? s.ownIndex).getD 0
  let next := ord.getD ((p + 1) % cnt) 0
  let rec0 : CollRec := { src := s.ownIndex, dst := next, hops := 4, job := o.job, seq := o.seq, die := o.die, phase := 1 }
  let s1 := match o.op with
    | 0 | 2 =>
      if cnt = 1 then
        let (t, bs) := s.collSource o 0 o.bytes
        t.collStore n o 0 bs
      else
        -- chunk c is summed from member c + 1 on: this member begins chunk p - 1
        let c := (p + cnt - 1) % cnt
        let (lo, hi) := chunkSpan o.bytes cnt c
        let (t, bs) := s.collSource o lo (hi - lo)
        t.sendRec { rec0 with phase := 0, chunk := c, off := lo, words := o.lanes bs }
    | 1 =>
      let (t, bs) := s.collSource o 0 o.bytes
      let t1 := t.collStore n o (p * o.bytes) bs
      if cnt = 1 then t1 else t1.sendRec { rec0 with chunk := p, words := bs }
    | 3 =>
      if o.root = s.ownIndex then
        let (t, bs) := s.collSource o 0 o.bytes
        (treeKids cnt 0).foldl (fun u k => u.sendRec { rec0 with dst := ord.getD k 0, words := bs }) (t.collStore n o 0 bs)
      else s
    | _ =>
      let (t, bs) := s.collSource o 0 o.bytes
      let t1 := t.modOp n fun x => { x with acc := bs }
      if !(treeKids cnt p).isEmpty then t1
      else if o.root = s.ownIndex then t1.collStore n o 0 bs
      else t1.sendRec { rec0 with dst := ord.getD (treeUp p) 0, phase := 2, words := bs, heads := heads, dim := dim, wide := wide }
  s1.settleOp n o j

/-- Records that wait for their operation are taken in the order in which they came. -/
def State.takeEarly (s : State) (n jid : Nat) : Nat → State
  | 0 => s
  | fuel + 1 =>
    match s.collOp n, s.kegJob jid with
    | some o, some j =>
      match j.early.find? fun r => r.seq == o.seq && r.die == o.die with
      | some r =>
        if o.phase ≠ 1 then s
        else ((s.setKegJob jid { j with early := j.early.erase r }).takeRec n o { j with early := j.early.erase r } r).takeEarly n jid fuel
      | none => s
    | _, _ => s

/-- R508: an operation out of order aborts the job with COLL_MISMATCH. -/
def State.mismatch (s : State) (die jid : Nat) : State := (s.raise (pgCOL die) 0).abortJob jid

/-- COLL_OP_START: the take of an armed operation has been satisfied. -/
def execCollOpStart (op heads dim : Nat) (wide : Bool) (s : State) : Result :=
  .next (match s.collOp op with
  | none => s
  | some o =>
    let who := Who.coll o.die op
    if o.phase ≠ 0 || !(s.spl.rels.any fun r => r.1 == who) then s
    else match s.kegJob o.job with
      | none => s
      | some j =>
        let s1 := { s with spl := { s.spl with rels := s.spl.rels.filter fun r => r.1 != who } }
        if j.aborted then s1
        else if o.seq ≠ j.seqs.getD o.die 0 then s1.mismatch o.die o.job
        else if (3 ≤ o.op ∧ ¬ j.members.contains o.root) then s1.failStep o.step stFAULT 0
        else
          let o1 := { o with phase := 1 }
          ((s1.setOp op o1).beginOp op o1 j heads dim wide).takeEarly op o.job j.early.length |>.showJobs)

/-! Re-runs (R509) -/

/-- The step that has the operation (job, seq) armed. -/
def State.stepOfColl (s : State) (jid seq : Nat) : Option Nat :=
  ((s.keg.ops.find? fun e => e.2.job == jid && e.2.seq == seq).map fun e => e.2.step).orElse fun _ =>
    (s.steps.find? fun e => e.2.job == some jid && e.2.started).map (·.1)

/-- A RERUN for a step, sent or received: the second one aborts its job. -/
def State.noteRerun (s : State) (id jid : Nat) : State :=
  match s.step1 id with
  | none => s
  | some st =>
    let dies := bitsSet (((s.kegJob jid).map fun (j : Job) => j.dieSet).getD 0) 4
    let s1 := dies.foldl (fun t n => (t.raise (pgCOL n) 1).count (pgCOL n) 0x058 1) s
    if 1 ≤ st.reruns then s1.abortJob jid
    else s1.setStep id { st with reruns := 1 }

/-- This member's run of the step ends: RERUN goes to every member. -/
def State.sendRerun (s : State) (id jid : Nat) : State :=
  let seq := ((s.keg.ops.find? fun e => e.2.step == id).map fun e => e.2.seq).getD 0
  let s1 := match s.kegJob jid with
    | some j => s.tellMembers j 3 [jid, seq]
    | none => s
  s1.noteRerun id jid

/-- The run of a step ends under R154 and will run again. -/
def State.drainStep (s : State) (id : Nat) : State :=
  match s.step1 id with
  | none => s
  | some st => if st.status ≠ 0 then s else (s.endStepKernels id).modStep id fun x => { x with draining := true }

/-- R509: a RERUN from a member. -/
def execRerunReceive (link : Fin 8) (job seq : Nat) (s : State) : Result :=
  .next (
    if !s.linkIsUp link.val || (s.kegJob job).all fun j => j.aborted then s
    else match s.stepOfColl job seq with
      | none => s
      | some id => (s.noteRerun id job).drainStep id)

/-- The operations of a step go back to their arming, under the same numbers. -/
def State.resetOps (s : State) (id : Nat) : State :=
  let mine := s.keg.ops.filter fun e => e.2.step == id
  let s0 := mine.foldl (fun t e =>
    match t.kegJob e.2.job with
    | some j => t.setKegJob e.2.job { j with
        seqs := j.seqs.set e.2.die (min (j.seqs.getD e.2.die 0) e.2.seq), early := j.early.filter fun r => r.seq != e.2.seq }
    | none => t) s
  mine.foldl (fun t e =>
    let who := Who.coll e.2.die e.1
    let t1 := { t with spl := { t.spl with
      waiters := t.spl.waiters.filter fun y => y.w != who
      rels := t.spl.rels.filter fun r => r.1 != who
      flight := t.spl.flight.filter fun m => !m.isFor who } }
    (t1.setOp e.1 { e.2 with phase := 0, got := 0, filled := 0, acc := [] }).spSend (1 + e.2.die) e.2.ctx e.2.start (.take e.2.thresh who)) s0

/-- R154, R509: a step that has drained runs again; a detection of this member is told to the job's other members first. -/
def execStepRecompute (step : Nat) (s : State) : Result :=
  .next (match s.step1 step with
  | none => s
  | some st =>
    if !s.mayRerun step st then s
    else match st.job with
      | none => s.rerunStep step
      | some j =>
        let s1 := if st.announced < st.detections then (s.sendRerun step j).modStep step fun x => { x with announced := x.detections } else s
        if (s1.step1 step).any fun x => x.status != 0 then s1.modStep step fun x => { x with draining := false }
        else (s1.rerunStep step).resetOps step)

/-! Records from the line (R503, R505, R508) -/

/-- COLL_RECORD_RECEIVE: a record arrives on a link; `tagOk` tells whether its GCM tag verifies and `bad` whether it is marked bad. -/
def execCollRecordReceive (link : Fin 8) (tagOk bad : Bool) (r : CollRec) (s : State) : Result :=
  .next (
    let l := link.val
    if !s.linkIsUp l || s.fenced then s
    else if !tagOk then (s.raise (pgKEG l) 4).linkFell l
    else if r.dst ≠ s.ownIndex then
      match (if r.hops = 0 then none else s.route r.dst) with
      | none =>
        let s1 := match s.route r.src with
          | some k => s.kegSend k 4 [r.src, r.job]
          | none => s
        s1.abortJob r.job
      | some k => (s.kegSend k 2 (recLine { r with hops := r.hops - 1 })).count (pgKEG k) 0x068 1
    else match s.kegJob r.job with
      | none => s
      | some j =>
        if j.aborted then s
        else if r.seq ≠ j.seqs.getD r.die 0 then s.mismatch r.die r.job
        else match s.keg.ops.find? fun e => e.2.job == r.job && e.2.seq == r.seq && e.2.die == r.die with
          | none => s.setKegJob r.job { j with early := j.early ++ [r] }
          | some (n, o) =>
            if bad then
              -- R175, R509: data marked bad ends this member's run of the step
              ((s.sendRerun o.step r.job).drainStep o.step)
            else if o.phase = 0 then s.setKegJob r.job { j with early := j.early ++ [r] }
            else (s.takeRec n o j r).showJobs)

/-- COLL_OP_DONE: the result has been written; the done spile is posted. -/
def execCollOpDone (op : Nat) (s : State) : Result :=
  .next (match s.collOp op with
  | none => s
  | some o =>
    if o.phase ≠ 2 then s
    else
      let s1 := (s.spSend (1 + o.die) o.ctx o.done (.post 1)).count (pgCOL o.die) 0x04C 1
      ({ s1 with keg := { s1.keg with ops := mdel s1.keg.ops op } }).showJobs)

/-! A step's operations end with it (R149, R515) -/

/-- STEP_JOIN_RELEASE: the release of a step's join reaches the hub, or a step that has failed completes (R149). `outs` gives what the step's
kernels computed for each member. The second detection of a step of a job is a second RERUN: the job aborts. -/
def execStepJoinRelease (step : Nat) (outs : List MemberOut) (s : State) : Result :=
  .next (
    let s0 := match (s.step1 step).bind fun (st : Step) => st.job with
      | some j => if (s.step1 step).any fun (st : Step) => decide (2 ≤ st.detections) && st.announced < st.detections && st.status != 0 then
          (s.modStep step fun x => { x with announced := x.detections }).sendRerun step j else s
      | none => s
    let s1 := s0.joinRelease step outs
    if (s1.step1 step).isSome then s1 else (s1.dropOps fun o => o.step == step).showJobs)

end Sys2Proof.Machine
end

