-- ==== Sys2Proof/Machine/Contexts.lean ====
section
/-! DEFINITION. Contexts: opening, ending, the rinse, domains and floor reservations, the copies of the module-wide structures
(R398–R419), and the polls of the intake rings (R486). -/

namespace Sys2Proof.Machine

/-! The CTXS pages -/

/-- Contexts of which the state satisfies `p`, from the fields that are not at their reset value. -/
def State.ctxCount (s : State) (p : Nat → Bool) : Nat :=
  (s.regs.filter fun e => (e.1 / 131072 == pgCTXS0 || e.1 / 131072 == pgCTXS1) && e.1 % 32 == 28 && decide (0x800 ≤ e.1 % 131072 / 32) && p e.2).length

def State.showCtxs (s : State) : State :=
  (s.wr pgCTXS0 F.CTXS_OPEN (s.ctxCount fun v => v != ctxFREE)).wr pgCTXS0 F.CTXS_RINSING (s.ctxCount fun v => v == ctxENDING || v == ctxRINSING)

def State.setCtxState (s : State) (c st : Nat) : State := (s.setCtxField F.CTXS_ENTRY_STATE c st).showCtxs

/-- R400: the lowest FREE context, its keys and its DRBG. It waits while the structures are copied (R401). A sealed one is refused while no top leaf
is left (R428), with a status that the spec does not name: a free value. -/
def execCtxOpen (fn : Fin 32) (tag : Nat) (isSealed : Bool) (s : State) : Result :=
  .next (s.commandUnless s.kv.copyTo.isSome fn.val tag 0x01 fun t =>
    if isSealed && t.hssExhausted then (t.fresh 8).1.respond fn.val tag (t.fresh 8).2 0
    else match (List.range 1024).find? fun c => t.ctxState c == ctxFREE with
    | none => t.respond fn.val tag stREFUSED_MEM 0
    | some c =>
      let t1 := t.installKey c
      let t2 := { t1 with drbg := mput t1.drbg c (t.lp.keyNext, 0) }
      let t3 := (t2.setCtxField F.CTXS_ENTRY_SEALED c (boolNat isSealed)).setCtxState c (if isSealed then ctxOPENED else ctxLIVE)
      (t3.count pgCTXS0 0x04C 1).respond fn.val tag stCOMPLETE c)

/-- R405: a fresh DRBG state after 2^20 draws. -/
def execDrbgReseed (ctx : Fin 1024) (s : State) : Result :=
  .next (match mget s.drbg ctx.val with
  | none => s
  | some d =>
    if d.2 < 2 ^ 20 then s
    else { s with drbg := mput s.drbg ctx.val (s.lp.keyNext, 0), lp := { s.lp with keyNext := s.lp.keyNext + 1 } })

/-! Domains (R404) -/

/-- The refusal of a join, if any: a context already a member or not LIVE, a domain that is not there. -/
def State.joinRefused (s : State) (c dom : Nat) : Bool :=
  s.ctxState c != ctxLIVE || (s.domainOf c).isSome || (mget s.kv.domains dom).all fun d => d.ended

def State.joinDomain (s : State) (c dom : Nat) (share : Bool) : State :=
  ((s.setCtxField F.CTXS_ENTRY_DOM_VALID c 1).setCtxField F.CTXS_ENTRY_DOMAIN c dom).setCtxField F.CTXS_ENTRY_BATCH_SHARE c (boolNat share)

def execDomainJoin (fn : Fin 32) (tag : Nat) (ctx : Fin 1024) (dom : Nat) (share : Bool) (s : State) : Result :=
  .next (s.command fn.val tag 0x07 fun t =>
    if t.ctxField F.CTXS_ENTRY_SEALED ctx.val = 1 then t.respond fn.val tag stDENIED 0
    else if t.joinRefused ctx.val dom then t.respond fn.val tag stFAULT 0
    else (t.joinDomain ctx.val dom share).respond fn.val tag stCOMPLETE 0)

/-! Owned banks and segments -/

/-- The entries of an owner field that name context `c`: page and index. -/
def State.ownedEntries (s : State) (k : PageKind) (fv fc : Field) (c : Nat) : List (Nat × Nat) :=
  s.regs.filterMap fun e =>
    let pg := e.1 / 131072
    let off := e.1 % 131072 / 32
    if e.2 = 1 ∧ e.1 % 32 = fv.lo ∧ pageKind pg = some k ∧ fv.off ≤ off then
      match fv.entryAt off with
      | some i => if s.rdi pg fc i = c then some (pg, i) else none
      | none => none
    else none

def State.banksOf (s : State) (c : Nat) : List (Nat × Nat) := s.ownedEntries .vat F.VAT_BANK_OWNER_VALID F.VAT_BANK_OWNER_CTX c
def State.segsOf (s : State) (c : Nat) : List (Nat × Nat) := s.ownedEntries .floor F.FLOOR_SEG_OWNER_VALID F.FLOOR_SEG_OWNER_CTX c

/-! Floor reservations (R418) -/

/-- The owners of a floor's segments. -/
def State.segsOfFloor (s : State) (fp : Nat) : List Nat := (List.range 32).filterMap fun g => s.segOwner fp g

/-- Is something of a floor owned, armed or reserved for a context other than `c`? -/
def State.floorBusy (s : State) (die f c : Nat) : Bool :=
  let fp := pgFLOOR die f
  (s.segsOfFloor fp).any (fun o => o != c) || ((List.range 9).any fun v =>
    (List.range 16).any (fun b => (s.bankOwner (fp + 1 + v) b).any fun o => o != c) || (s.vat (fp + 1 + v)).entries.any fun e => e.2.ctx != c) ||
  (s.floorFor fp).any (fun o => o != c) || s.resv.any fun r => r.2.ctx != c && r.2.vats.any fun v => v.1 == die && v.2.1 == f

def execFloorReserve (fn : Fin 32) (tag : Nat) (ctx : Fin 1024) (die mask : Nat) (s : State) : Result :=
  .next (s.command fn.val tag 0x08 fun t =>
    let fs := bitsSet mask 12
    if (fs.any fun f => (t.cmdFloor die f).isNone) || decide (4 ≤ die ∨ 2 ^ 12 ≤ mask) then t.respond fn.val tag stNOUNIT 0
    else if t.ctxState ctx.val ≠ ctxLIVE ∨ (fs.any fun f => t.floorBusy die f ctx.val) = true then t.respond fn.val tag stDENIED 0
    else
      let t1 := { t with ctxs := { t.ctxs with floors := t.ctxs.floors ++ [(ctx.val, die, mask)] } }
      (t1.setCtxField F.CTXS_ENTRY_FLOORS ctx.val 1).respond fn.val tag stCOMPLETE 0)

/-- A context's floor reservation ends. -/
def State.dropFloors (s : State) (c : Nat) : State :=
  ({ s with ctxs := { s.ctxs with floors := s.ctxs.floors.filter fun r => r.1 != c } }).setCtxField F.CTXS_ENTRY_FLOORS c 0

def execFloorRelease (fn : Fin 32) (tag : Nat) (ctx : Fin 1024) (s : State) : Result :=
  .next (s.command fn.val tag 0x09 fun t => (t.dropFloors ctx.val).respond fn.val tag stCOMPLETE 0)

/-! Ending (R408) -/

/-- An entry whose admission is still in progress completes with CANCELLED. -/
def State.cancelIntake (s : State) (i : Nat) : State :=
  let s1 := s.modRq i fun y => { y with ending := 4, refused := true }
  let s2 := match (s.rq i).head with
    | some hd => ((s1.dropRoom i).destroyHead hd).modRq i fun y => { y with head := none }
    | none => s1
  s2.complete i stCANCELLED 0 []

/-- Steps of a context that have been armed and not started are taken down. -/
def State.dropArmed (s : State) (c : Nat) : State :=
  let ids := (s.steps.filter fun e => e.2.ctx == c && !e.2.started).map (·.1)
  let s1 := ids.foldl (fun t id => ({ (t.dropEntries id) with steps := mdel (t.dropEntries id).steps id })) s
  { s1 with floors := s1.floors.map fun e => (e.1, { e.2 with arms := e.2.arms.filter fun a => a.ctx.val != c }) }

/-- Actions 2 to 4 of R408, after the last ring reads: cancels, reservations, Mill jobs, streams and collective jobs. -/
def State.beginQuiesce (s : State) (c : Nat) : State :=
  let mine := (s.rqt.entries.filter fun e => e.2.ctx == c).map (·.1)
  let s1 := mine.foldl (fun t i =>
    let x := t.rq i
    if x.state = rqFREE then (if x.refused then t else t.cancelIntake i)
    else if rqTerminal x.state || x.state == rqDRAINING then t else t.cancelRq i) s
  let s2 := match s1.resvOf c with
    | some (i, r) => ({ s1 with resv := mput s1.resv i { r with ending := true } }).settleResv
    | none => s1
  let s3 := ((s2.dropFloors c).millEndCtx c).codecEndCtx c
  let s4 := s3.abortJobs fun e => !e.2.aborted && e.2.ctx == c
  (s4.dropArmed c).showRqt

/-- CTX_END: to ENDING. The last read of the rings comes at the next slot edge or poll; without a ring to read the context quiesces at once. -/
def State.endCtx (s : State) (c : Nat) : State :=
  if !s.ctxOpen c then s
  else
    let s1 := ((s.setCtxState c ctxENDING).ctxNote c 24).raise pgCTXS0 0
    if s1.host.rings.any fun e => ringCtx e.1 == c && decide (ringNum e.1 < 4) && !e.2.faulted && !e.2.stopped then
      { s1 with ctxs := { s1.ctxs with finals := s1.ctxs.finals ++ [c] } }
    else s1.beginQuiesce c

def execCtxEnd (fn : Fin 32) (tag : Nat) (ctx : Fin 1024) (s : State) : Result :=
  .next (s.command fn.val tag 0x02 fun t =>
    if t.ctxState ctx.val = ctxFREE then t.respond fn.val tag stCOMPLETE 0
    else (t.endCtx ctx.val).hold fn.val tag (.ctxFree ctx.val) 0)

/-- The reads of intake rings at an edge, a mark or a poll (R486): the last reads of contexts that are ending, then the rings of the classes. -/
def State.ringReads (s : State) (classes : List Nat) (inp : IntakeIn) : State :=
  if !s.ready || !s.linkUp then s
  else
    let s1 := s.ctxs.finals.foldl (fun t c => (t.lastReads c inp).beginQuiesce c) { s with ctxs := { s.ctxs with finals := [] } }
    s1.readRings classes inp

/-- INTAKE_POLL (R486): while the time base is IDLE or ACQUIRING, every `HOST.POLL_US`. -/
def execIntakePoll (inp : IntakeIn) (s : State) : Result :=
  .next (
    if !s.ready || !s.linkUp || !(s.tb.st = .idle || s.tb.st = .acquiring) || decide (s.now < nget s.host.pollClk 40) then s
    else
      let s1 := { s with host := { s.host with pollClk := nput s.host.pollClk 40 (s.now + clkUs * s.rd pgHOST F.HOST_POLL_US) } }
      s1.ringReads [0, 1, 2, 3] inp)

/-! Quiescing complete: key destruction and the rinse (R409) -/

/-- Does anything of the context still run, move or wait to be written (R408, R160)? -/
def State.stillBusy (s : State) (c : Nat) : Bool :=
  s.ctxs.finals.contains c ||
  (s.steps.any fun e => e.2.started && (e.2.ctx == c || e.2.members.any fun m => (s.rq m.idx).ctx == c)) ||
  (s.vats.any fun e => (e.2.kern.any fun k => k.ctx == c) || (e.2.susp.any fun k => k.ctx == c) || (e.2.drain.any fun k => k.ctx == c) || e.2.entries.any fun x => x.2.ctx == c) ||
  (s.rqt.outQ.any fun x => ringCtx x.ring == c && (s.ring x.ring).isSome) ||
  s.mill.jobs.any (fun e => e.2.list.ctx == c) || s.codec.streams.any fun e => e.2.ctx == c

/-- Key destruction (R406): every slot of the context, its DRBG, its sealing keys and its link keys. -/
def State.destroyKeys (s : State) (c : Nat) : State :=
  let s1 := s.destroyKey c
  { s1 with
    drbg := mdel s1.drbg c
    gau := { s1.gau with claimed := mdel s1.gau.claimed c, seqs := s1.gau.seqs.filter fun e => e.1 / 2 != c }
    keg := { s1.keg with jobs := s1.keg.jobs.map fun e => if e.2.ctx = c then (e.1, { e.2 with keys := none }) else e } }

/-- R161: the spile groups of a context. -/
def State.dropSpiles (s : State) (c : Nat) : State :=
  let maps := s.spl.maps.filter fun e => e.1 / 32 == c
  let groups := maps.map fun e => e.2.die * 256 + e.2.group
  let mine := fun (phys : Nat) => groups.contains (phys / 16)
  { s with spl := { s.spl with
      spiles := s.spl.spiles.filter fun e => !mine e.1
      maps := s.spl.maps.filter fun e => e.1 / 32 != c
      poison := s.spl.poison.filter fun e => !groups.contains e.1
      waiters := s.spl.waiters.filter fun w => w.ctx != c && !mine w.phys
      flight := s.spl.flight.filter fun m => m.ctx != c } }

def State.showCasks (s : State) : State := s.wr pgGAU F.GAU_CASK_SLOTS_FREE (256 - s.casks.length)

/-- Request entries, list heads, pools, casks, jobs and the domain membership of a context go (R409, R285). -/
def State.dropHoldings (s : State) (c : Nat) : State :=
  let mine := (s.rqt.entries.filter fun e => e.2.ctx == c).map (·.1)
  let s1 := mine.foldl (fun t i => let u := t.plDestroy i; { u with rqt := { u.rqt with entries := mdel u.rqt.entries i } }) s
  let heads := (s1.kv.heads.filter fun e => e.2.ctx == c).map (·.1)
  let s2 := heads.foldl (fun t h => t.destroyHead h) s1
  let pools := (s2.kv.pools.filter fun e => !e.2.isDomain && e.2.owner == c).map (·.1)
  let s3 := { s2 with
    kv := { s2.kv with
      pools := s2.kv.pools.filter fun e => !pools.contains e.1
      recs := s2.kv.recs.filter fun e => !pools.contains e.2.pool
      granules := s2.kv.granules.filter fun e => e.1 / 4096 != c
      spillCtr := mdel s2.kv.spillCtr c }
    casks := s2.casks.filter fun e => e.2.ctx != c
    rqt := { s2.rqt with outQ := s2.rqt.outQ.filter fun x => ringCtx x.ring != c } }
  let s4 := ((s3.keg.jobs.filter fun e => e.2.ctx == c).map (·.1)).foldl (fun t j => t.removeJob j) s3
  let s5 := ((s4.setCtxField F.CTXS_ENTRY_DOM_VALID c 0).setCtxField F.CTXS_ENTRY_DOMAIN c 0).setCtxField F.CTXS_ENTRY_BATCH_SHARE c 0
  s5.showRqt.showKv.showCasks

/-- Banks and segments of the context are cleared, PINNED with them; retired ones are skipped (R409, R8). -/
def State.clearStores (s : State) (c : Nat) : State :=
  let s1 := (s.banksOf c).foldl (fun t b =>
    if t.rdi b.1 F.VAT_BANK_OWNER_RETIRED b.2 = 1 then t.setBankTag b.1 b.2 none false
    else if t.bankClearing b.1 b.2 then t else (t.wri b.1 F.VAT_BANK_OWNER_PINNED b.2 0).fillBank b.1 b.2 none false) s
  (s.segsOf c).foldl (fun t g =>
    if segNone t g.1 g.2 then t.setSegTag g.1 g.2 none false
    else if t.segClearing g.1 g.2 then t else (t.wri g.1 F.FLOOR_SEG_OWNER_PINNED g.2 0).fillSeg g.1 g.2 none false) s1

/-! The fill (R410) -/

def State.framesOf (s : State) (c : Nat) : List Nat := (s.lp.frames.filter fun e => e.2.otype == 0 && e.2.owner == c).map (·.1)

/-- Frames of a context on each channel in service: how many the fullest channel has, and all of them. -/
def State.rinseLoad (s : State) (c : Nat) : Nat × Nat :=
  let fs := (s.framesOf c).filter fun f => !s.frameGone f
  let chans := (fs.map fun f => (frameDie f, frameChan f)).eraseDups
  (chans.foldl (fun a x => max a (fs.filter fun f => (frameDie f, frameChan f) == x).length) 0, fs.length)

/-- The length of a ramp, in clocks. -/
def State.rampClk (s : State) : Nat := s.rd pgCTXS0 F.CTXS_RINSE_LOAD_W * clkMs / max 1 (s.rd pgPOWER F.PWR_RAMP_W_PER_MS)

/-- Writes of a channel `d` clocks into a fill, in units of 1 / (256 × `RINSE_LINE_CLK`): sixteen equal steps of the ramp, then the full rate. -/
def fillWrites (ramp d : Nat) : Nat :=
  if ramp ≤ d then 136 * ramp + 256 * (d - ramp)
  else
    let i := 16 * d / max 1 ramp
    i * (i + 1) / 2 * ramp + (16 * d - i * ramp) * (i + 1)

def State.fillNow (s : State) : Nat :=
  match s.ctxs.rampIn with
  | some r => if s.now < r then 0 else fillWrites s.rampClk (s.now - r)
  | none => 0

/-- A context joins the fill; the fill starts when it is idle, or when a ramp-out under way has ended. -/
def State.joinFill (s : State) (c : Nat) : State :=
  let (most, all) := s.rinseLoad c
  let idle := s.ctxs.queue.isEmpty
  let start := match s.ctxs.rampOut with
    | some r => max s.now (r + s.rampClk)
    | none => s.now
  let x : Rinse := { ctx := c, need := 66 * most, lines := 64 * all, base := 0, inRamp := idle }
  { s with ctxs := { s.ctxs with
      queue := s.ctxs.queue ++ [x]
      rampIn := if idle then some start else s.ctxs.rampIn
      rampOut := if idle then none else s.ctxs.rampOut } }

/-- CTX_QUIESCED: keys destroyed, RINSING, the steps of R409 begin. -/
def State.rinseCtx (s : State) (c : Nat) : State :=
  let s1 := ((s.destroyKeys c).setCtxState c ctxRINSING).raise pgCTXS0 1
  let s2 := ((s1.dropSpiles c).dropHoldings c).clearStores c
  let s3 := { s2 with lp := { s2.lp with lab := s2.lp.lab.filter fun e => e % 2 ^ 42 / 2 ^ 31 != c || e % 2 ^ 42 / 2 ^ 41 == 1 } }
  s3.joinFill c

def execCtxQuiesced (ctx : Fin 1024) (s : State) : Result :=
  .next (if s.ctxState ctx.val = ctxENDING ∧ s.stillBusy ctx.val = false then s.rinseCtx ctx.val else s)

/-- The frames, leaves and tables of a context are zeroed and free; RETIRE_PEND frames are retired (R210). -/
def State.freeMemory (s : State) (c : Nat) : State :=
  let fs := s.framesOf c
  let s1 := s.zeroFrames fun f => fs.contains f
  let s2 := fs.foldl (fun t f =>
    match t.frame f with
    | some x =>
      if x.pend then (t.setFrame f { otype := 3, owner := 0, kind := 0 }).bump (pgXLT (frameDie f)) F.XLT_RETIRED_FRAMES 1
      else { t with lp := { t.lp with frames := mdel t.lp.frames f } }
    | none => t) s1
  let tabs := s2.lp.tabs.filter fun e => e.1 / 2 ^ 23 == c
  let s3 := tabs.foldl (fun t e => t.giveSys (e.2 - 1) 2) s2
  { s3 with lp := { s3.lp with
      tabs := s3.lp.tabs.filter fun e => e.1 / 2 ^ 23 != c
      leaves := s3.lp.leaves.filter fun e => e.1 / 2 ^ 31 != c
      recov := s3.lp.recov.filter fun e => !fs.contains e.1 } }

/-- Channels in service on every present die. -/
def State.channels (s : State) : Nat := sumBy s.channelsUp s.diesUp

/-- Counters of the fill (R419), in units of 1,024 with the rest kept. -/
def State.countFill (s : State) (lines pads : Nat) : State :=
  let l := s.ctxs.restLines + lines
  let p := s.ctxs.restPads + pads
  (({ s with ctxs := { s.ctxs with restLines := l % 1024, restPads := p % 1024 } }).count pgCTXS0 0x054 (l / 1024)).count pgCTXS0 0x058 (p / 1024)

/-- RINSE_FILL_END: the last line of the context in front is written, and a ramp-in that its fill began in has ended. -/
def execRinseFillEnd (s : State) : Result :=
  .next (match s.ctxs.queue, s.ctxs.rampIn with
  | x :: rest, some r =>
    let unit := 256 * max 1 (s.rd pgCTXS0 F.CTXS_RINSE_LINE_CLK)
    if s.fillNow < x.base + x.need * unit ∨ (x.inRamp = true ∧ s.now < r + s.rampClk) ∨ s.now < r then s
    else
      let writes := s.channels * ((s.fillNow - x.base) / unit)
      let s1 := (s.freeMemory x.ctx).countFill x.lines (writes - ceilDiv (33 * x.lines) 32)
      let next := rest.head?.map fun y => { y with base := s.fillNow, inRamp := decide (s.now < r + s.rampClk) }
      ({ s1 with ctxs := { s1.ctxs with
          queue := match next with
            | some y => y :: rest.tail
            | none => []
          rampIn := if rest.isEmpty then none else some r
          rampOut := if rest.isEmpty then some s.now else none
          filled := s1.ctxs.filled ++ [(x.ctx, s.now)] } }).recount
  | _, _ => s)

/-- The context is FREE: its pages are cleared and the commands that wait for it complete. -/
def State.freeCtx (s : State) (c : Nat) : State :=
  let mine := fun (pg : Nat) => pg == pgSPL c || pg == pgCNT c || pg == pgCEV c
  let s1 := (s.setCtxField F.CTXS_ENTRY_SEALED c 0).setCtxState c ctxFREE
  let s2 := { s1 with
    regs := mfilterOut (fun k => mine (k / 131072)) s1.regs
    ctrs := mfilterOut (fun k => mine (k / 4096)) s1.ctrs
    shadow := mfilterOut mine s1.shadow }
  s2.wake (fun w => match w with
    | .ctxFree d => d == c
    | _ => false) stCOMPLETE

/-- RINSE_DONE: one ramp length after the end of its fill a context is FREE. -/
def execRinseDone (s : State) : Result :=
  .next (match s.ctxs.filled with
  | [] => s
  | (c, clk) :: rest =>
    if s.now < clk + s.rampClk then s
    else
      let s1 := (({ s with ctxs := { s.ctxs with filled := rest } }.freeCtx c).raise pgCTXS0 2).count pgCTXS0 0x050 1
      if rest.isEmpty && s.ctxs.rampOut == some clk then
        let s2 := s1.countFill 0 (s.channels * (136 * s.rampClk / (256 * max 1 (s.rd pgCTXS0 F.CTXS_RINSE_LINE_CLK))))
        { s2 with ctxs := { s2.ctxs with rampOut := none } }
      else s1)

/-- `CTXS.ENTRY.RINSE_PROG` as it reads (R419). -/
def State.rinseProg (s : State) (c : Nat) : Nat :=
  if s.ctxState c ≠ ctxRINSING then 0
  else if s.ctxs.filled.any fun e => e.1 == c then 15
  else match s.ctxs.queue with
    | x :: _ =>
      if x.ctx ≠ c ∨ x.lines = 0 then (if x.ctx = c then 15 else 0)
      else
        let w := (s.fillNow - x.base) / (256 * max 1 (s.rd pgCTXS0 F.CTXS_RINSE_LINE_CLK))
        let fs := (s.framesOf c).filter fun f => !s.frameGone f
        let chans := (fs.map fun f => (frameDie f, frameChan f)).eraseDups
        let done := sumBy (fun y => min (64 * (fs.filter fun f => (frameDie f, frameChan f) == y).length) (w - w / 33)) chans
        min 15 (16 * done / x.lines)
    | [] => 0

/-! The copies of the module-wide structures (R401) -/

/-- STRUCT_RECOPY: after a die that held a copy was retired, the copy to another die begins; to the remaining die itself when no other is left. -/
def execStructRecopy (s : State) : Result :=
  .next (
    let live := s.kv.homes.filter fun n => s.hasUnit (pgDIE n)
    if live.length = s.kv.homes.length ∨ s.kv.copyTo.isSome = true ∨ s.inControl = false ∨ live = [] then s
    else
      let tgt := ((s.diesUp.find? fun n => !live.contains n).getD (live.headD 0))
      ({ s with kv := { s.kv with homes := live, copyTo := some tgt } }).showKv)

/-- STRUCTURE_COPY_DONE: the second copy is there. -/
def execStructureCopyDone (s : State) : Result :=
  .next (match s.kv.copyTo with
  | none => s
  | some n => ({ s with kv := { s.kv with homes := s.kv.homes ++ [n], copyTo := none } }).showKv)

end Sys2Proof.Machine
end

