-- ==== Sys2Proof/Machine/Gauger.lean ====
section
/-! DEFINITION. The Gauger: LMS leaves, SPDM over DOE, sessions, claims, the mailbox, owner commands, casks (R420–R444). -/

namespace Sys2Proof.Machine

/-! The LMS trees (R423, R425–R428) -/

/-- Sixteen more top leaves are reserved, while the tree has them (R427). -/
def State.reserveTop (s : State) : State :=
  let e := s.rd pgGAU F.GAU_HSS_TOP_END
  if 32768 < e + 16 then s
  else
    let s1 := s.wr pgGAU F.GAU_HSS_TOP_END (e + 16)
    let s2 := if e ≤ 30720 ∧ 30720 < e + 16 then s1.raise pgGAU 1 else s1
    if s2.hssExhausted then s2.raise pgGAU 2 else s2

/-- The next top leaf is spent; a reservation that covers it comes first. -/
def State.spendTop (s : State) : State :=
  let s1 := if s.rd pgGAU F.GAU_HSS_TOP_END ≤ s.gau.topNext then s.reserveTop else s
  if s1.gau.topNext < s1.rd pgGAU F.GAU_HSS_TOP_END then
    ({ s1 with gau := { s1.gau with topNext := s1.gau.topNext + 1 } }).count pgGAU 0x058 1
  else s1

/-- A new Alias: a top leaf signs its certificate, and it brings a new bottom tree (R422, R423). -/
def State.newAlias (s : State) : State :=
  let s1 := s.spendTop.wr pgGAU F.GAU_HSS_BOTTOM_USED 0
  { s1 with gau := { s1.gau with bottomTree := s1.gau.bottomTree + 1, treeReady := false } }

/-- BOTTOM_TREE_SWITCH: the 1,024th leaf has been spent. -/
def execBottomTreeSwitch (s : State) : Result :=
  .next (if s.rd pgGAU F.GAU_HSS_BOTTOM_USED < 1024 ∨ s.gau.paused = true then s else s.newAlias.raise pgGAU 6)

/-- Clocks of an hour and a second. -/
abbrev clkS : Nat := 1000 * clkMs
abbrev clkHour : Nat := 3600 * clkS

/-! SPDM (R429–R434). An answer is a message of kind 10: function, then what it carries; an ERROR is one of kind 11: function, the SPDM error code
and its data (the code numbers are those of the SPDM standard, assumption log 51). -/

abbrev errInvalidRequest : Nat := 0x01
abbrev errBusy : Nat := 0x03
abbrev errUnexpected : Nat := 0x04
abbrev errSessionLimit : Nat := 0x0A
abbrev errVersion : Nat := 0x41
abbrev errNotReady : Nat := 0x42

def State.spdmAnswer (s : State) (fn : Nat) (ws : List Nat) : State := { s with msgs := .reply 10 (fn :: ws) :: s.msgs }
def State.spdmError (s : State) (fn code : Nat) (ws : List Nat := []) : State := { s with msgs := .reply 11 (fn :: code :: ws) :: s.msgs }

def State.conn (s : State) (fn : Nat) : Conn := (mget s.gau.conns fn).getD {}
def State.setConn (s : State) (fn : Nat) (c : Conn) : State := { s with gau := { s.gau with conns := mput s.gau.conns fn c } }

/-- Configuration space answers from phase FIRMWARE on, and a module in recovery has no DOE (R458, R542). -/
def State.doeUp (s : State) : Bool := s.linkUp && decide (2 ≤ s.rd pgMOD F.MOD_START_PHASE) && !s.fw.recovery

/-- A request: none is answered without the link; during a Gauger activation it is told to come again (R433). -/
def State.spdm (s : State) (fn : Nat) (body : State → State) : State :=
  if !s.doeUp then s
  else if s.gau.paused then s.spdmError fn errNotReady [19]
  else body s

/-- A request that comes after negotiation. -/
def State.spdmAfter (s : State) (fn : Nat) (body : State → State) : State :=
  s.spdm fn fun t => if (t.conn fn).phase < 3 then t.spdmError fn errUnexpected else body t

/-- R425, R428, R431: a response that the Alias keys sign spends a bottom leaf, and its LMS signature is kept. It is refused while no top leaf is left
(with an error the spec does not name: a free value) or when the budget of the hour is spent; without a bottom leaf the request waits. -/
def State.signedAnswer (s : State) (fn : Nat) (body : State → State) : State :=
  let recent := s.gau.reports.filter fun c => decide (s.now < c + clkHour)
  let used := s.rd pgGAU F.GAU_HSS_BOTTOM_USED
  if s.hssExhausted then (s.fresh 8).1.spdmError fn (s.fresh 8).2
  else if s.rd pgGAU F.GAU_LMS_BUDGET ≤ recent.length then (s.spdmError fn errBusy).raise pgGAU 3
  else if 1024 ≤ used then s
  else
    let s1 := { s with gau := { s.gau with reports := recent ++ [s.now], treeReady := decide (768 ≤ used + 1) } }
    let s2 := (s1.wr pgGAU F.GAU_HSS_BOTTOM_USED (used + 1)).count pgGAU 0x054 1
    body (s2.setConn fn { s2.conn fn with lastSigned := some (s.now, used) })

/-- DOE_OBJECT_DISCARD: an object of a type other than 0 to 2. -/
def execDoeObjectDiscard (fn : Fin 32) (type : Nat) (s : State) : Result :=
  .next (if !s.doeUp || decide (type ≤ 2) then s else s.setConn fn.val { s.conn fn.val with doeError := true })

/-- GET_VERSION begins the connection again: versions 1.2 and 1.3. -/
def execSpdmGetVersion (fn : Fin 32) (s : State) : Result :=
  .next (s.spdm fn.val fun t =>
    (t.setConn fn.val { doeError := (t.conn fn.val).doeError, phase := 1 }).spdmAnswer fn.val [0x12, 0x13])

/-- GET_CAPABILITIES in version 1.2 (0x12) or 1.3 (0x13). The capabilities are those of R429; EVENT in 1.3. -/
def execSpdmGetCapabilities (fn : Fin 32) (version : Nat) (s : State) : Result :=
  .next (s.spdm fn.val fun t =>
    if (t.conn fn.val).phase = 0 then t.spdmError fn.val errUnexpected
    else if version ≠ 0x12 ∧ version ≠ 0x13 then t.spdmError fn.val errVersion
    else (t.setConn fn.val { t.conn fn.val with phase := 2, version := version }).spdmAnswer fn.val [version, boolNat (version == 0x13)])

/-- NEGOTIATE_ALGORITHMS; `offered`: the algorithms of R429 are among those offered. -/
def execSpdmNegotiateAlgorithms (fn : Fin 32) (offered : Bool) (s : State) : Result :=
  .next (s.spdm fn.val fun t =>
    if (t.conn fn.val).phase < 2 then t.spdmError fn.val errUnexpected
    else if !offered then (t.setConn fn.val { t.conn fn.val with phase := 2 }).spdmError fn.val errInvalidRequest
    else (t.setConn fn.val { t.conn fn.val with phase := 3 }).spdmAnswer fn.val [])

def execSpdmGetDigests (fn : Fin 32) (s : State) : Result := .next (s.spdmAfter fn.val fun t => t.spdmAnswer fn.val [0])

/-- GET_CERTIFICATE: slot 0 only. -/
def execSpdmGetCertificate (fn : Fin 32) (slot off len : Nat) (s : State) : Result :=
  .next (s.spdmAfter fn.val fun t => if slot ≠ 0 then t.spdmError fn.val errInvalidRequest else t.spdmAnswer fn.val [off, len])

def execSpdmChallenge (fn : Fin 32) (slot : Nat) (s : State) : Result :=
  .next (s.spdmAfter fn.val fun t =>
    if slot ≠ 0 then t.spdmError fn.val errInvalidRequest
    else t.signedAnswer fn.val fun u => u.spdmAnswer fn.val [u.gau.bottomTree])

/-- The image that component `c` runs. -/
def State.runImage (s : State) (c : Nat) : Image := (mget s.fw.run c).getD {}

/-- The measurement blocks (R434): components 0 to 6, the fused versions, the debug and owner state, the variant, grade and in-service counts. -/
def State.measurements (s : State) : List Nat :=
  (List.range 7).map (fun c => (s.runImage c).digest) ++ (List.range 8).map (fun c => nget s.fw.fused c) ++
    [s.rd pgGAU F.GAU_DEBUG_OPEN, s.gau.ownerKey.getD 0, s.gau.publishers.length, s.variant.dies, s.rd pgMOD F.MOD_GRADE, s.rd pgMOD F.MOD_TUNS_SVC,
      s.rd pgMOD F.MOD_MEM_USABLE_MIB]

def execSpdmGetMeasurements (fn : Fin 32) (isSigned : Bool) (s : State) : Result :=
  .next (s.spdmAfter fn.val fun t =>
    if isSigned then t.signedAnswer fn.val fun u => u.spdmAnswer fn.val u.measurements else t.spdmAnswer fn.val t.measurements)

/-! Sessions (R432, R433) -/

def State.showSessions (s : State) : State := s.wr pgGAU F.GAU_SESSIONS s.gau.sessions.length

def State.sessionsOf (s : State) (fn : Nat) : List Nat := (s.gau.sessions.filter fun e => e.2.fn == fn).map (·.1)

def execGetKemKey (fn : Fin 32) (s : State) : Result :=
  .next (s.spdmAfter fn.val fun t => (t.setConn fn.val { t.conn fn.val with kem := 1, pending := none }).spdmAnswer fn.val [])

def execKemCt (fn : Fin 32) (s : State) : Result :=
  .next (s.spdmAfter fn.val fun t =>
    if (t.conn fn.val).kem = 0 then t.spdmError fn.val errInvalidRequest
    else (t.setConn fn.val { t.conn fn.val with kem := 2 }).spdmAnswer fn.val [])

/-- KEY_EXCHANGE; `hashOk`: its OpaqueData carries the hash of the ciphertext that was decapsulated. -/
def execSpdmKeyExchange (fn : Fin 32) (hashOk : Bool) (s : State) : Result :=
  .next (s.spdmAfter fn.val fun t =>
    if !t.hssExhausted && ((t.conn fn.val).kem != 2 || !hashOk) then t.spdmError fn.val errInvalidRequest
    else if !t.hssExhausted && (decide (4 ≤ (t.sessionsOf fn.val).length) || decide (128 ≤ t.gau.sessions.length)) then
      t.spdmError fn.val errSessionLimit
    else match (List.range 128).find? fun n => (mget t.gau.sessions n).isNone && !(t.gau.conns.any fun e => e.2.pending == some n) with
      | none => t.spdmError fn.val errSessionLimit
      | some n => t.signedAnswer fn.val fun u =>
        (u.setConn fn.val { u.conn fn.val with pending := some n, lmsTaken := false, kem := 0 }).spdmAnswer fn.val [n])

/-- GET_LMS_SIG: the leaf that signed the connection's last signed response, within 10 s (R431). -/
def execGetLmsSig (fn : Fin 32) (s : State) : Result :=
  .next (s.spdmAfter fn.val fun t =>
    match (t.conn fn.val).lastSigned with
    | some (clk, leaf) =>
      if clk + 10 * clkS ≤ t.now then t.spdmError fn.val errInvalidRequest
      else (t.setConn fn.val { t.conn fn.val with lmsTaken := true }).spdmAnswer fn.val [leaf]
    | none => t.spdmError fn.val errInvalidRequest)

def execLmsSigExpire (fn : Fin 32) (s : State) : Result :=
  .next (match (s.conn fn.val).lastSigned with
  | some (clk, _) => if clk + 10 * clkS ≤ s.now then s.setConn fn.val { s.conn fn.val with lastSigned := none } else s
  | none => s)

def execGetLmsCerts (fn : Fin 32) (off len : Nat) (s : State) : Result := .next (s.spdmAfter fn.val fun t => t.spdmAnswer fn.val [off, len])

/-- FINISH; `ok`: it verifies; `events`: the 1.3 requester subscribes (assumption log 52). -/
def execSpdmFinish (fn : Fin 32) (ok events : Bool) (s : State) : Result :=
  .next (s.spdmAfter fn.val fun t =>
    match (t.conn fn.val).pending with
    | none => t.spdmError fn.val errInvalidRequest
    | some n =>
      if !(t.conn fn.val).lmsTaken || !ok then t.spdmError fn.val errInvalidRequest
      else
        let x : Session := { fn := fn.val, hbClk := t.now, events := events && (t.conn fn.val).version == 0x13 }
        let t1 := t.setConn fn.val { t.conn fn.val with pending := none, lmsTaken := false }
        let t2 := { t1 with gau := { t1.gau with sessions := mput t1.gau.sessions n x } }
        (t2.showSessions.count pgGAU 0x05C 1).spdmAnswer fn.val [n])

/-- A request in a session of its function. -/
def State.inSession (s : State) (fn n : Nat) (body : State → Session → State) : State :=
  s.spdm fn fun t => match mget t.gau.sessions n with
    | some x => if x.fn = fn then body t x else t.spdmError fn errInvalidRequest
    | none => t.spdmError fn errInvalidRequest

def execSpdmHeartbeat (fn : Fin 32) (sess : Nat) (s : State) : Result :=
  .next (s.inSession fn.val sess fun t x =>
    ({ t with gau := { t.gau with sessions := mput t.gau.sessions sess { x with hbClk := t.now } } }).spdmAnswer fn.val [sess])

def execSpdmKeyUpdate (fn : Fin 32) (sess : Nat) (s : State) : Result :=
  .next (s.inSession fn.val sess fun t x =>
    ({ t with gau := { t.gau with sessions := mput t.gau.sessions sess { x with keyGen := x.keyGen + 1 } } }).spdmAnswer fn.val [sess])

/-- R433: a session ends, and with it every sealed context claimed through it. -/
def State.endSession (s : State) (n : Nat) (lost : Bool) : State :=
  if (mget s.gau.sessions n).isNone then s
  else
    let mine := (s.gau.claimed.filter fun e => e.2 == n).map (·.1)
    let s1 := { s with gau := { s.gau with
        sessions := mdel s.gau.sessions n
        claimed := s.gau.claimed.filter fun e => e.2 != n } }
    let s2 := mine.foldl (fun t c => t.endCtx c) s1
    (if lost then s2.count pgGAU 0x060 1 else s2).showSessions.raise pgGAU 5

def execSpdmEndSession (fn : Fin 32) (sess : Nat) (s : State) : Result :=
  .next (s.inSession fn.val sess fun t _ => (t.endSession sess false).spdmAnswer fn.val [sess])

def execSessionHbExpire (sess : Nat) (s : State) : Result :=
  .next (match mget s.gau.sessions sess with
  | some x => if x.hbClk + 2 * s.rd pgGAU F.GAU_HB_S * clkS ≤ s.now then s.endSession sess true else s
  | none => s)

/-- Every session ends at once: their secrets are gone (R536, R538). -/
def State.endSessions (s : State) : State :=
  let s1 := ((s.gau.sessions.map (·.1)).foldl (fun t n => t.endSession n true) s)
  { s1 with gau := { s1.gau with conns := s1.gau.conns.map fun e => (e.1, { e.2 with kem := 0, pending := none, lmsTaken := false }) } }

/-! Claims (R435, R436) -/

/-- CTX_CLAIM: an OPENED sealed context becomes LIVE, and the receipt is signed. -/
def execCtxClaim (fn : Fin 32) (sess : Nat) (ctx : Fin 1024) (s : State) : Result :=
  .next (s.inSession fn.val sess fun t _ =>
    if t.ctxState ctx.val ≠ ctxOPENED ∨ t.ctxField F.CTXS_ENTRY_SEALED ctx.val ≠ 1 then
      (t.count pgGAU 0x070 1).spdmAnswer fn.val [stDENIED]
    else t.signedAnswer fn.val fun u =>
      let u1 := u.setCtxState ctx.val ctxLIVE
      let u2 := { u1 with gau := { u1.gau with
          claimed := mput u1.gau.claimed ctx.val sess
          seqs := u1.gau.seqs.filter fun e => e.1 / 2 != ctx.val } }
      u2.spdmAnswer fn.val [stCOMPLETE, ctx.val, fn.val, sess, u2.tick])

/-- A message of a tenant about its own context (R430). -/
def State.tenant (s : State) (fn sess c : Nat) (body : State → State) : State :=
  s.inSession fn sess fun t _ => if mget t.gau.claimed c = some sess then body t else t.spdmAnswer fn [stDENIED]

def execSpdmCtxEnd (fn : Fin 32) (sess : Nat) (ctx : Fin 1024) (s : State) : Result :=
  .next (s.tenant fn.val sess ctx.val fun t => (t.endCtx ctx.val).spdmAnswer fn.val [stCOMPLETE])

/-- R404: a sealed context joins only by its tenant's own message. -/
def execSpdmDomainJoin (fn : Fin 32) (sess : Nat) (ctx : Fin 1024) (dom : Nat) (share : Bool) (s : State) : Result :=
  .next (s.tenant fn.val sess ctx.val fun t =>
    if t.joinRefused ctx.val dom then t.spdmAnswer fn.val [stFAULT]
    else (t.joinDomain ctx.val dom share).spdmAnswer fn.val [stCOMPLETE])

/-! The mailbox (R444) -/

/-- A mailbox command: it waits before READY, while the Gauger restarts, and while a cask is being loaded (R543, R444). -/
def State.mailbox (s : State) (body : State → State) : State :=
  if !s.ready || !s.on pgGAU F.MBX_STAT_BUSY || s.gau.paused || s.gau.loading.isSome || !s.linkUp then s else body s

/-- The command completes: its response is written and DONE set. How many bytes the response has is given for no command: a free value. -/
def State.mbxDone (s : State) (status detail : Nat) (resp : List Nat := []) : State :=
  let (s0, len) := s.fresh 21
  let s1 := { s0 with gau := { s0.gau with resp := resp } }
  let s2 := ((((s1.wr pgGAU F.MBX_STAT_BUSY 0).wr pgGAU F.MBX_STAT_DONE 1).wr pgGAU F.MBX_STAT_STATUS status).wr pgGAU F.MBX_STAT_DETAIL detail).wr pgGAU
    F.MBX_RESP_LEN len
  let s3 := (s2.count pgGAU 0x04C 1).raise pgGAU 0
  if status = stDENIED then s3.count pgGAU 0x050 1 else s3

/-- R439: an owner command whose blob is in order. `unsignedOk`: it may come unsigned. Causes: 1 signatures, 2 target, 3 OWNER_SEQ. -/
def State.owner (s : State) (o : OwnerBlob) (unsignedOk : Bool) (body : State → State) : State :=
  s.mailbox fun t =>
    if !unsignedOk && (!o.sigOk || t.gau.ownerKey.isNone) then t.mbxDone stDENIED 1
    else if !o.forUs then t.mbxDone stDENIED 2
    else if o.seq.toNat ≤ t.gau.ownerSeq then t.mbxDone stDENIED 3
    else body { t with gau := { t.gau with ownerSeq := o.seq.toNat } }

def State.showOwner (s : State) : State :=
  (s.wr pgGAU F.GAU_OWNER_SET (boolNat s.gau.ownerKey.isSome)).wr pgGAU F.GAU_PUBLISHERS s.gau.publishers.length

def State.setOwner (s : State) (key : Nat) : State := ({ s with gau := { s.gau with ownerKey := some key } }.showOwner).mbxDone stCOMPLETE 0

def execOwnerSet (o : OwnerBlob) (key : Nat) (s : State) : Result := .next (s.owner o s.gau.ownerKey.isNone fun t => t.setOwner key)

def execOwnerTransfer (o : OwnerBlob) (key : Nat) (s : State) : Result := .next (s.owner o false fun t => t.setOwner key)

def execOwnerRelease (o : OwnerBlob) (s : State) : Result :=
  .next (s.owner o false fun t => ({ t with gau := { t.gau with ownerKey := none, publishers := [] } }.showOwner).mbxDone stCOMPLETE 0)

def execPubEnrol (o : OwnerBlob) (slot : Fin 32) (key : Nat) (s : State) : Result :=
  .next (s.owner o false fun t =>
    ({ t with gau := { t.gau with publishers := mput t.gau.publishers slot.val key } }.showOwner).mbxDone stCOMPLETE 0)

def execPubRevoke (o : OwnerBlob) (slot : Fin 32) (s : State) : Result :=
  .next (s.owner o false fun t =>
    ({ t with gau := { t.gau with publishers := mdel t.gau.publishers slot.val } }.showOwner).mbxDone stCOMPLETE 0)

/-! The ceiling (R526) and POLICY (R439, R537) -/

/-- The lowest of the limits in force. -/
def State.ceiling (s : State) : Nat :=
  let c0 := s.rd pgPOWER F.PWR_CAP_W
  let c1 := if s.on pgPOWER F.PWR_STATUS_ORPHAN then min c0 (s.rd pgPOWER F.PWR_ORPHAN_CAP_W) else c0
  let c2 := if s.on pgPOWER F.PWR_STATUS_ALERT_CAP then min c1 (s.rd pgPOWER F.PWR_ALERT_CAP_W) else c1
  if s.on pgPOWER F.PWR_STATUS_SHED then min c2 (s.rd pgPOWER F.PWR_SHED_W) else c2

def State.showCeiling (s : State) : State := s.wr pgPOWER F.PWR_CEILING_W s.ceiling

/-- The page and field of a POLICY item, and its range. -/
def policyField : PolicyItem → Nat × Field × Nat × Nat
  | .lmsBudget => (pgGAU, F.GAU_LMS_BUDGET, 0, 65535)
  | .hbS => (pgGAU, F.GAU_HB_S, 0, 255)
  | .ramp => (pgPOWER, F.PWR_RAMP_W_PER_MS, 2, 200)
  | .cap => (pgPOWER, F.PWR_CAP_W, 40, 640)
  | .orphanCap => (pgPOWER, F.PWR_ORPHAN_CAP_W, 40, 640)
  | .alertCap => (pgPOWER, F.PWR_ALERT_CAP_W, 40, 640)
  | .shed => (pgPOWER, F.PWR_SHED_W, 40, 640)
  | .throttleC => (pgTHERMAL, F.THM_THROTTLE_C, 85, 105)
  | .hbRequired => (pgMGMT, F.MGMT_HB_REQUIRED, 0, 1)
  | .hbLimit => (pgMGMT, F.MGMT_HB_LIMIT_S, 2, 60)

def policyOk (x : PolicyItem × Nat) : Bool := decide ((policyField x.1).2.2.1 ≤ x.2 ∧ x.2 ≤ (policyField x.1).2.2.2)

/-- POLICY: a value outside its range is refused with FAULT, and nothing changes. -/
def execPolicy (o : OwnerBlob) (items : List (PolicyItem × Nat)) (s : State) : Result :=
  .next (s.owner o false fun t =>
    if items.all policyOk then
      ((items.foldl (fun u x => u.wr (policyField x.1).1 (policyField x.1).2.1 x.2) t).showCeiling).mbxDone stCOMPLETE 0
    else { t with gau := { t.gau with ownerSeq := s.gau.ownerSeq } }.mbxDone stFAULT 0)

/-- DEBUG_TOKEN (R398): a token of the owner, or of the Vendor countersigned by the owner. It waits until every context is FREE. -/
def execDebugToken (o : OwnerBlob) (vendor counter : Bool) (s : State) : Result :=
  .next (
    if s.ctxCount (fun v => v != ctxFREE) ≠ 0 then s
    else s.owner o false fun t =>
      if vendor && !counter then { t with gau := { t.gau with ownerSeq := s.gau.ownerSeq } }.mbxDone stDENIED 1
      else (t.wr pgGAU F.GAU_DEBUG_OPEN 1).mbxDone stCOMPLETE 0)

/-! Casks (R440–R443) -/

/-- Does context `c` own the destination (R204)? WEIGHT frames of its own, or segments that it holds PINNED. -/
def State.destOwned (s : State) (c : Nat) : CaskDest → Bool
  | .weight va pages => (List.range pages).all fun i => match s.xlate c (va + 4096 * i) false false with
    | .ok pa => (s.frame (pa / 4096)).any fun x => x.otype == 0 && x.owner == c && x.kind == 2
    | .error _ => false
  | .segs die floor mask => (bitsSet mask 32).all fun g =>
      s.segOwner (pgFLOOR die floor) g == some c && s.rdi (pgFLOOR die floor) F.FLOOR_SEG_OWNER_PINNED g == 1
  | .code => true

/-- Is the destination's die there? -/
def State.destThere (s : State) (c : Nat) : CaskDest → Bool
  | .weight va pages => (List.range pages).all fun i => match s.leafOf c (va + 4096 * i) with
    | some (_, f, _) => s.dieThere (frameDie f)
    | none => true
  | .segs die floor _ => s.dieThere die && decide (floor < 12) && s.hasUnit (pgFLOOR die floor)
  | .code => true

def destAligned : CaskDest → Bool
  | .weight va _ => va % 4096 == 0
  | _ => true

/-- The refusal of a load, with its cause by its place in the table of R442. -/
def State.caskRefused (s : State) (k : CaskIn) : Option (Nat × Nat) :=
  let c := k.ctx.val
  if !s.gau.publishers.any (fun e => e.2 == k.pubKey) then some (stDENIED, 1)
  else if !k.sigOk then some (stDENIED, 2)
  else if !k.bound then some (stDENIED, 3)
  else if k.minSvn.zipIdx.any (fun e => decide ((if e.2 = 7 then nget s.fw.fused 7 else (s.runImage e.2).svn) < e.1)) then some (stDENIED, 4)
  else if k.sealedOnly && s.ctxField F.CTXS_ENTRY_SEALED c == 0 then some (stDENIED, 5)
  else if s.ctxState c ≠ ctxLIVE ∨ (k.sects.filter (s.destThere c)).all (s.destOwned c) = false then some (stDENIED, 6)
  else if !k.formatOk || decide (k.sects = [] ∨ 64 < k.sects.length) || !k.sects.all destAligned then some (stFAULT, 7)
  else if 256 ≤ s.casks.length then some (stFAULT, 9)
  else if !k.sects.all (s.destThere c) then some (stNOUNIT, 10)
  else none

/-- The frames and segments that a destination covers. -/
def State.destFrames (s : State) (c : Nat) : CaskDest → List (Nat × Nat × Nat)
  | .weight va pages => (List.range pages).filterMap fun i => match s.xlate c (va + 4096 * i) false false with
    | .ok pa => some (frameDie (pa / 4096), pa / 4096 % 2 ^ 25, 1)
    | .error _ => none
  | _ => []

def destSegs : CaskDest → List (Nat × Nat × Nat)
  | .segs die floor mask => [(die, floor, mask)]
  | _ => []

/-- CASK_LOAD: the checks; then the chunks are read and written in the background of the mailbox command, which runs until CASK_LOAD_DONE. -/
def execCaskLoad (k : CaskIn) (s : State) : Result :=
  .next (s.mailbox fun t =>
    match t.caskRefused k with
    | some (st, cause) => t.mbxDone st cause
    | none => match (List.range 256).find? fun n => (mget t.casks n).isNone with
      | none => t.mbxDone stFAULT 9
      | some n =>
        let kernels := (k.sects.filter fun d => d == .code).length
        let x : Cask :=
          { ctx := k.ctx.val, host := k.host, segs := k.sects.flatMap destSegs, frames := k.sects.flatMap (t.destFrames k.ctx.val),
            images := (List.range kernels).map (t.gau.nextImage + ·), loading := true, dests := k.sects }
        let t1 := { t with casks := mput t.casks n x, gau := { t.gau with loading := some n, nextImage := t.gau.nextImage + kernels } }
        t1.showCasks)

/-- The bytes of one section are written to its destination under the context's key. -/
def State.putSection (s : State) (c : Nat) (d : CaskDest) (bs : List Byte) : State :=
  match d with
  | .weight va _ => s.hubWrite c va (bs.map fun b => b.toNat)
  | .segs die floor mask => (bitsSet mask 32).zipIdx.foldl (fun t e => t.putSeg (pgFLOOR die floor) e.1 0 ((bs.drop (262144 * e.2)).take 262144)) s
  | .code => s

/-- CASK_LOAD_DONE: `data` are the sections' contents, none where a tag or a tag digest failed twice; `again`: chunk tags that failed once. A context that
has left LIVE meanwhile ends the load. -/
def execCaskLoadDone (data : Option (List (List Byte))) (again : Nat) (s : State) : Result :=
  .next (match s.gau.loading with
  | none => s
  | some n =>
    let s0 := { s with gau := { s.gau with loading := none } }
    match mget s.casks n with
    | none => s0.showCasks.mbxDone stDENIED 6
    | some x =>
      let s1 := s0.count pgGAU 0x06C (again + (if data.isNone then 2 else 0))
      match data with
      | none => ({ s1 with casks := mdel s1.casks n }.showCasks).mbxDone stFAULT 8
      | some d =>
        if s1.ctxState x.ctx ≠ ctxLIVE then ({ s1 with casks := mdel s1.casks n }.showCasks).mbxDone stDENIED 6
        else
          let s2 := (x.dests.zip d).foldl (fun t e => t.putSection x.ctx e.1 e.2) s1
          let s3 := { s2 with casks := mput s2.casks n { x with loading := false } }
          (s3.count pgGAU 0x064 1).mbxDone stCOMPLETE 0 (n :: x.images))

/-- CASK_UNLOAD: it waits for a recovery that reads the cask (R443). -/
def execCaskUnload (ctx : Fin 1024) (slot : Fin 256) (s : State) : Result :=
  .next (s.mailbox fun t =>
    match mget t.casks slot.val with
    | none => t.mbxDone stFAULT 0
    | some x =>
      if x.ctx ≠ ctx.val then t.mbxDone stFAULT 0
      else if t.lp.recov.any fun e => x.frames.any fun r => r.1 == frameDie e.1 && decide (r.2.1 ≤ e.1 % 2 ^ 25 ∧ e.1 % 2 ^ 25 < r.2.1 + r.2.2) then t
      else ({ t with casks := mdel t.casks slot.val }.showCasks).mbxDone stCOMPLETE 0)

/-! Function Level Reset of a VF (R480) -/

/-- The contexts in a function's window. -/
def State.windowCtxs (s : State) (fn : Nat) : List Nat :=
  (List.range 64).filterMap fun k => if s.rdi (pgWIN fn) F.WIN_SLOT_VALID k = 1 then some (s.rdi (pgWIN fn) F.WIN_SLOT_CTX k) else none

/-- Its rings are forgotten, with the completions and responses not yet written. -/
def State.forgetRings (s : State) (fn : Nat) : State :=
  let mine := fun (id : Nat) => (s.ring id).any fun r => r.fn == fn
  let gone := s.rqt.outQ.filter fun c => mine c.ring
  let s1 := { s with
    rqt := { s.rqt with outQ := s.rqt.outQ.filter fun c => !mine c.ring }
    host := { s.host with
      rings := s.host.rings.filter fun e => e.2.fn != fn
      taken := s.host.taken.filter fun e => e.1 != fn
      resps := s.host.resps.filter fun r => r.fn != fn
      waits := s.host.waits.filter fun w => w.fn != fn
      cmdCons := mdel s.host.cmdCons fn
      cmdProd := mdel s.host.cmdProd fn
      respProd := mdel s.host.respProd fn
      cmdFault := mdel s.host.cmdFault fn } }
  gone.foldl (fun t c => t.complGone c) s1

/-- A request of the function is cancelled, and its entry returns to FREE by itself. -/
def State.flrRq (s : State) (i : Nat) : State :=
  let x := s.rq i
  let free := fun (t : State) => let u := t.plDestroy i; { u with rqt := { u.rqt with entries := mdel u.rqt.entries i } }
  if x.state = rqFREE then
    (match x.head with
    | some hd => free ((s.dropRoom i).destroyHead hd)
    | none => free s)
  else if rqTerminal x.state then free s
  else
    let s1 := s.modRq i fun y => { y with auto := true }
    if x.state = rqDRAINING then s1 else s1.cancelRq i

/-- VF_FLR. -/
def execVfFlr (fn : Fin 32) (s : State) : Result :=
  .next (
    if fn.val = 0 then s
    else
      let cs := s.windowCtxs fn.val
      let s1 := s.forgetRings fn.val
      let mine := (s1.rqt.entries.filter fun e => cs.contains e.2.ctx).map (·.1)
      let s2 := mine.foldl (fun t i => t.flrRq i) s1
      let s3 := (s2.sessionsOf fn.val).foldl (fun t n => t.endSession n true) s2
      let s4 := cs.foldl (fun t c => t.unbind c) s3
      let s5 := { s4 with regs := mfilterOut (fun k => k / 131072 == pgWIN fn.val) s4.regs, gau := { s4.gau with conns := mdel s4.gau.conns fn.val } }
      (s5.showRings).showRqt)

end Sys2Proof.Machine
end

