-- ==== Sys2Proof/Machine/Firmware.lean ====
section
/-! DEFINITION. Firmware slots, staging, activation and recovery (R445–R460). -/

namespace Sys2Proof.Machine

/-! Slots (R446–R448) -/

/-- What a slot holds; unlisted: slot A a VALID image, slot B nothing (assumption log 50). -/
def State.fwSlot (s : State) (c k : Nat) : FwSlot :=
  (mget s.fw.slots (2 * c + k)).getD (if k = 0 then { state := 1, sigOk := true } else {})

def State.activeSlot (s : State) (c : Nat) : Nat := nget s.fw.active c

/-- The state of a slot whose contents are `x` (R448). -/
def slotState (fused : Nat) (x : FwSlot) : Nat :=
  if x.state = 0 then 0 else if !x.sigOk then 3 else if x.img.svn < fused then 2 else 1

/-- The mailbox page shows slot `k` of component `c`. -/
def State.showSlot (s : State) (c k : Nat) : State :=
  s.wri pgGAU (if k = 0 then F.FW_COMP_STATE_A else F.FW_COMP_STATE_B) c (s.fwSlot c k).state

def State.setSlot (s : State) (c k : Nat) (x : FwSlot) : State :=
  { s with fw := { s.fw with slots := mput s.fw.slots (2 * c + k) x } }.showSlot c k

/-- The Gauger computes the states of every slot anew. -/
def State.checkSlots (s : State) : State :=
  (List.range 7).foldl (fun t c => (List.range 2).foldl (fun t k =>
    let x := t.fwSlot c k
    t.setSlot c k { x with state := slotState (nget t.fw.fused c) x }) t) s

/-- The component runs the image of slot `k`. -/
def State.runSlot (s : State) (c k : Nat) : State :=
  let x := (s.fwSlot c k).img
  (({ s with fw := { s.fw with run := mput s.fw.run c x } }).wri pgGAU F.FW_COMP_RUN_SLOT c k).wri pgGAU F.FW_COMP_EPOCH c x.epoch

/-- The slot that holds the running image. -/
def State.ranSlot (s : State) (c : Nat) : Nat := s.rdi pgGAU F.FW_COMP_RUN_SLOT c

/-! Staging (R449, R450) -/

/-- KiB of a slot of each component. -/
def slotKib (c : Nat) : Nat := 1024 * [4, 8, 48, 2, 8, 2, 2].getD c 0

/-- FW_STAGE; what the image's header, signatures and length are comes with the command. The slot loses what it held. -/
def execFwStage (comp : Nat) (img : Image) (sigOk : Bool) (kib : Nat) (s : State) : Result :=
  .next (s.mailbox fun t =>
    let k := 1 - t.activeSlot comp
    if t.fw.staging.isSome then t.mbxDone stFAULT 0x01
    else if 7 ≤ comp ∨ slotKib comp < kib then t.mbxDone stFAULT 0x02
    else if t.fw.act.any fun a => a.comp == comp then t.mbxDone stFAULT 0x03
    else
      let t1 := t.setSlot comp k { state := 3, sigOk := false, img := img }
      let t2 := { t1 with fw := { t1.fw with staging := some { comp := comp, slot := k, img := { img with svn := img.svn % 64 }, kib := if sigOk then kib else 0 } } }
      (((t2.wri pgGAU F.FW_COMP_PEND comp 0).wri pgGAU F.FW_COMP_STAGING comp 1).wr pgGAU F.FW_STAGE_KIB 0).mbxDone stCOMPLETE 0)

/-- FW_STAGE_DONE: the slot is read back and checked. -/
def execFwStageDone (readOk : Bool) (s : State) : Result :=
  .next (match s.fw.staging with
  | none => s
  | some g =>
    let ok := readOk && g.kib != 0
    let good := ok && decide (nget s.fw.fused g.comp ≤ g.img.svn)
    let s1 := { s with fw := { s.fw with staging := none } }.setSlot g.comp g.slot { state := if good then 1 else 3, sigOk := ok, img := g.img }
    let s2 := (s1.wri pgGAU F.FW_COMP_STAGING g.comp 0).wr pgGAU F.FW_STAGE_KIB g.kib
    if good then ((s2.wri pgGAU F.FW_COMP_PEND g.comp 1).count pgGAU 0x074 1).raise pgGAU 7 else s2.raise pgGAU 8)

def execFwDiscard (comp : Nat) (s : State) : Result :=
  .next (s.mailbox fun t =>
    if t.fw.act.any fun a => a.comp == comp then t.mbxDone stFAULT 0x03
    else (if comp < 7 then t.wri pgGAU F.FW_COMP_PEND comp 0 else t).mbxDone stCOMPLETE 0)

/-! Activation (R451–R456) -/

/-- R452: two images accept each other's epoch. -/
def compatible (x y : Image) : Bool :=
  decide (y.accMin ≤ x.epoch ∧ x.epoch ≤ y.accMax ∧ x.accMin ≤ y.epoch ∧ y.epoch ≤ x.accMax)

/-- Every pair of a set of images is compatible. -/
def setAllowed : List Image → Bool
  | [] => true
  | x :: xs => xs.all (compatible x) && setAllowed xs

/-- The unit of a component is there. -/
def State.compThere (s : State) (c : Nat) : Bool :=
  if c = 1 then s.hasUnit (pgCM 0) || s.hasUnit (pgCM 1)
  else if c = 3 then s.hasUnit pgMILL
  else if c = 4 then (List.range 4).any fun k => s.hasUnit (pgCODEC k)
  else if c = 6 then (List.range 8).any fun l => s.hasUnit (pgKEG l)
  else true

/-- The refusal of an ACTIVATE: status and detail (R451). -/
def State.activateRefused (s : State) (comp : Nat) (force : Bool) : Option (Nat × Nat) :=
  let x := s.fwSlot comp (1 - s.activeSlot comp)
  if s.fw.act.isSome then some (stFAULT, 0x04)
  else if (List.range (min comp 7)).any fun c => s.rdi pgGAU F.FW_COMP_PEND c == 1 then some (stFAULT, 0x05)
  else if 7 ≤ comp ∨ s.rdi pgGAU F.FW_COMP_PEND comp ≠ 1 ∨ x.state ≠ 1 then some (stFAULT, 0x06)
  else if x.img.svn < (s.runImage comp).svn then some (stDENIED, 0x07)
  else if !setAllowed ((List.range 7).map fun c => if c = comp then x.img else s.runImage c) then some (stFAULT, 0x08)
  else if comp = 0 ∧ s.hssExhausted = true then some (stDENIED, 0x09)
  else if comp = 1 ∧ force = false ∧ (match s.higher with
      | some u => s.role (1 - u) != roleReady
      | none => true) = true then some (stFAULT, 0x0A)
  else if !s.compThere comp then some (stNOUNIT, 0)
  else none

/-- A measurement event goes to every 1.3 session that has subscribed (R434): a message of kind 12: session, and whether it is the change itself. -/
def State.tellMeasurement (s : State) (changed : Bool) : State :=
  { s with msgs := ((s.gau.sessions.filter fun e => e.2.events).map fun e => Msg.reply 12 [e.1, boolNat changed]) ++ s.msgs }

def State.unlocked (s : State) : Bool := s.tb.st = .idle || s.tb.st = .acquiring

/-- ACTIVATE: checked and announced. -/
def execActivate (comp lead : Nat) (force : Bool) (s : State) : Result :=
  .next (s.mailbox fun t =>
    if lead = 0 ∨ 255 < lead then t.mbxDone stFAULT 0
    else match t.activateRefused comp force with
    | some (st, detail) => t.mbxDone st detail
    | none =>
      let p := (t.rd pgTBASE F.TBASE_PERIOD_IDX + lead) % 2 ^ 24
      let a : Activation := { comp := comp, slot := 1 - t.activeSlot comp, force := force, pidx := p, atClk := t.now + lead * clkMs }
      let t1 := { t with fw := { t.fw with act := some a } }
      let t2 := (((t1.wr pgGAU F.FW_ACT_BUSY 1).wr pgGAU F.FW_ACT_COMP comp).wr pgGAU F.FW_ACT_PHASE 1).wr pgGAU F.FW_ACT_PIDX p
      ((t2.raise pgGAU 9).tellMeasurement false).mbxDone stCOMPLETE 0)

/-- R455: the slot record, the fuses, ACT_DONE. -/
def State.recordSlot (s : State) (c k : Nat) : State := { s with fw := { s.fw with active := nput s.fw.active c k, lastAct := some c } }

def State.raiseFuse (s : State) (c : Nat) : State :=
  let svn := (s.fwSlot c (s.activeSlot c)).img.svn
  if nget s.fw.fused c < svn then
    (({ s with fw := { s.fw with fused := nput s.fw.fused c svn } }).wri pgGAU F.FW_COMP_FUSED_SVN c svn).checkSlots
  else s

def State.actDone (s : State) (a : Activation) (phase : Nat) : State :=
  let s1 := ((s.recordSlot a.comp a.slot).raiseFuse a.comp).wri pgGAU F.FW_COMP_PEND a.comp 0
  let s2 := ({ s1 with fw := { s1.fw with act := none } }.wr pgGAU F.FW_ACT_BUSY 0).wr pgGAU F.FW_ACT_PHASE phase
  ((((s2.raise pgGAU 10).raise pgGAU 4).count pgGAU 0x078 1).tellMeasurement true)

/-- R456: the old slot stays, `PEND` is cleared. -/
def State.actFail (s : State) (a : Activation) : State :=
  let s1 := { s with fw := { s.fw with act := none } }
  let s2 := ((s1.wri pgGAU F.FW_COMP_PEND a.comp 0).wr pgGAU F.FW_ACT_BUSY 0).wr pgGAU F.FW_ACT_PHASE 0
  (s2.raise pgGAU 11).count pgGAU 0x07C 1

/-- Slices of the component's units are abandoned while it is activated (R471). -/
def sliceOf (comp : Nat) : BistUnit → Bool
  | .cm _ => comp == 1
  | .pipe _ => comp == 3
  | .codec _ => comp == 4
  | _ => false

/-- The Gauger restarts from ROM (R454): the mailbox reads BUSY while it does. -/
def State.gaugerRestart (s : State) : State :=
  let b := s.on pgGAU F.MBX_STAT_BUSY
  { s.wr pgGAU F.MBX_STAT_BUSY 1 with gau := { s.gau with paused := true, heldBusy := b, bootCount := s.gau.bootCount + 1 } }

def State.gaugerBack (s : State) : State :=
  ({ s with gau := { s.gau with paused := false, heldBusy := false } }.wr pgGAU F.MBX_STAT_BUSY (boolNat s.gau.heldBusy)).newAlias

/-- ACTIVATION_BEGIN: at the mark of `FW.ACT_PIDX`, or `LEAD` ms after acceptance while the time base is IDLE or ACQUIRING (R453, R454). -/
def execActivationBegin (s : State) : Result :=
  .next (match s.fw.act with
  | none => s
  | some a =>
    let due := if s.unlocked then decide (a.atClk ≤ s.now)
      else decide ((s.rd pgTBASE F.TBASE_PERIOD_IDX + 2 ^ 24 - a.pidx) % 2 ^ 24 < 2 ^ 23)
    if a.begun || !due then s
    else if a.comp = 5 ∨ a.comp = 6 then s.actDone a 3
    else
      let s1 := { s with fw := { s.fw with act := some { a with begun := true } } }.wr pgGAU F.FW_ACT_PHASE 2
      let s2 := { s1 with bist := { s1.bist with running := s1.bist.running.filter fun x => !sliceOf a.comp x.unit } }
      let s3 := s2.count pgBIST 0x054 (s1.bist.running.filter fun x => sliceOf a.comp x.unit).length
      if a.comp = 0 then s3.gaugerRestart
      else if a.comp = 1 then
        (match s3.higher with
        | some u =>
          if s3.role (1 - u) = roleReady then s3.reloadCm (1 - u)
          else if a.force then s3.drop u 2
          else { s3 with fw := { s3.fw with act := some { a with begun := true, failed := true } } }
        | none => [0, 1].foldl (fun t u => if t.cmRetired u then t else t.reloadCm u) s3)
      else s3)

/-- The loaders write the resident library kernels from the image that now runs (R454). -/
def State.loadLibrary (s : State) (loads : List (FloorId × LoadJob)) : State :=
  loads.foldl (fun t e => (bitsSet e.2.vats 8).foldl (fun u L =>
    match u.vatOf (floorPgOf e.1) L with
    | some pg => u.writeLoad pg e.2 false
    | none => u) t) s

/-- Nothing of the component runs any more, so that its new image can take over. -/
def State.compQuiet (s : State) (c : Nat) : Bool :=
  if c = 2 then !s.steps.any fun e => e.2.started && !e.2.joined
  else if c = 3 then (s.runningJob 0).isNone && (s.runningJob 1).isNone
  else if c = 4 then !(List.range 4).any fun k => s.on (pgCODEC k) F.ENG_BUSY
  else true

/-- Both Cellarmasters that are left run the new image, one in control. -/
def State.cmReloaded (s : State) (a : Activation) : Bool :=
  [0, 1].all (fun u => s.cmRetired u || ((s.cmUnit u).fw == s.cmImage a.slot && (s.role u == roleActive || s.role u == roleReady))) && s.higher.isSome

/-- ACTIVATION_COMPLETE: the new image has started. -/
def execActivationComplete (loads : List (FloorId × LoadJob)) (s : State) : Result :=
  .next (match s.fw.act with
  | none => s
  | some a =>
    if !a.begun || a.failed || !s.compQuiet a.comp || (a.comp == 1 && !s.cmReloaded a) then s
    else
      let s1 := if a.comp = 0 then s.gaugerBack else if a.comp = 2 then s.loadLibrary loads else s
      (s1.runSlot a.comp a.slot).actDone a 0)

/-- ACTIVATION_FAIL: the new image does not start, and the old one is started again. For the Cellarmaster this follows a failed reload. -/
def execActivationFail (loads : List (FloorId × LoadJob)) (s : State) : Result :=
  .next (match s.fw.act with
  | none => s
  | some a =>
    if !a.begun || !s.compQuiet a.comp || (a.comp == 1 && !a.failed) then s
    else
      let s1 :=
        if a.comp = 0 then
          { s with gau := { s.gau with bootCount := s.gau.bootCount + 1 } }.gaugerBack
        else if a.comp = 2 then s.loadLibrary loads
        else s
      s1.actFail a)

/-! Start-up selection (R457) -/

/-- The images of the active slots, where they are VALID. -/
def State.activeSet (s : State) (flip : Option Nat) : List Image :=
  (List.range 7).filterMap fun c =>
    let x := s.fwSlot c (if flip = some c then 1 - s.activeSlot c else s.activeSlot c)
    if x.state = 1 then some x.img else none

/-- A component whose active slot is not VALID takes the other slot, if that is. -/
def State.useValid (s : State) (c : Nat) : State :=
  if (s.fwSlot c (s.activeSlot c)).state ≠ 1 ∧ (s.fwSlot c (1 - s.activeSlot c)).state = 1 then
    { s with fw := { s.fw with active := nput s.fw.active c (1 - s.activeSlot c) } }
  else s

def compNeeded (c : Nat) : Bool := c == 0 || c == 1 || c == 2 || c == 5

/-- Components with no VALID slot. -/
def State.noValid (s : State) : List Nat := (List.range 7).filter fun c => (s.fwSlot c 0).state != 1 && (s.fwSlot c 1).state != 1

/-- The pages of the units of a component that is not needed. -/
def compPages (c : Nat) : List Nat :=
  if c = 3 then [pgMILL] else if c = 4 then (List.range 4).map pgCODEC else if c = 6 then (List.range 8).map pgKEG else []

/-- The ROM enters recovery (R458). -/
def State.enterRecovery (s : State) (strap : Bool) : State :=
  let s1 := (s.wr pgREC F.REC_CAUSE_STRAP (boolNat strap)).wr pgREC F.REC_CAUSE_NO_VALID (s.noValid.foldl setBit 0)
  { s1 with fw := { s1.fw with recovery := true, bootLog := 1 :: s1.fw.bootLog } }

/-- The choice of the slots, after the states of all slots have been computed. The epoch set is repaired by one exchange, that of the component
activated most recently, or the ROM goes to recovery. -/
def State.selectSlots (s : State) : State :=
  let s1 := (List.range 7).foldl (fun t c => t.useValid c) s
  if s1.noValid.any compNeeded then s1.enterRecovery false
  else
    let s2 := s1.noValid.foldl (fun (t : State) c => (compPages c).foldl (fun (u : State) pg =>
      if u.isRetired pg then u else { u with retired := nput u.retired pg 2 }) t) s1
    let boot := fun (t : State) => (List.range 7).foldl (fun u c => u.runSlot c (u.activeSlot c)) t
    if setAllowed (s2.activeSet none) then boot s2
    else match s2.fw.lastAct with
    | some c =>
      if (s2.fwSlot c (1 - s2.activeSlot c)).state = 1 ∧ setAllowed (s2.activeSet (some c)) = true then
        let s3 := { s2 with fw := { s2.fw with active := nput s2.fw.active c (1 - s2.activeSlot c), bootLog := 2 :: s2.fw.bootLog } }
        boot (s3.wr pgGAU F.FW_LAST_BOOT_FALLBACK 1)
      else s2.enterRecovery false
    | none => s2.enterRecovery false

/-! Recovery (R459) -/

/-- RECOVERY_WRITE, a write of 1 to `REC.GO`: the image that `REC.ADDR` names, and what its checks give; for component 0 `startOk` is the start check of the booted image,
`stored` whether the slot reads back. -/
def execRecoveryWrite (img : Image) (sigOk startOk stored : Bool) (s : State) : Result :=
  .next (
    let c := s.rd pgREC F.REC_COMP
    let k := s.rd pgREC F.REC_SLOT
    let done := fun (t : State) st => ((t.wr pgREC F.REC_STAT_BUSY 0).wr pgREC F.REC_STAT_DONE 1).wr pgREC F.REC_STAT_STATUS st
    if !s.fw.recovery then s
    else if 7 ≤ c ∨ !sigOk ∨ img.svn % 64 < nget s.fw.fused c ∨ (c = 0 ∧ startOk = false) then done s stDENIED
    else if !stored then done (s.setSlot c k { state := 3, img := img }) stFAULT
    else
      let s1 := s.setSlot c k { state := 1, sigOk := true, img := { img with svn := img.svn % 64 } }
      done { s1 with fw := { s1.fw with active := nput s1.fw.active c k } } stCOMPLETE)

end Sys2Proof.Machine
end

