-- ==== Sys2Proof/Machine/Units.lean ====
section
/-! DEFINITION. Units that leave service for good: channels, links, floors, dies, engines (R8, R9, R19, R187, R214–R217, R369, R462, R469). -/

namespace Sys2Proof.Machine

/-- A unit enters the repair record's bitmap of retirements (R470): UNIT_RETIRED, and the counter. -/
def State.noteRetired (s : State) : State := (s.raise pgBIST 2).count pgBIST 0x064 1

/-- A page is retired. -/
def State.markRetired (s : State) (pg : Nat) : State :=
  if s.isRetired pg then s else ({ s with retired := nput s.retired pg 1, underTest := mdel s.underTest pg }).noteRetired

/-- The page's unit, its floor's and its vats' steps end with FAULT, and owners hear of every bank and segment lost (R551). -/
def State.retireFloor (s : State) (die f : Nat) : State :=
  let fp := pgFLOOR die f
  if s.isRetired fp then s
  else
    let s1 := (List.range 9).foldl (fun t v =>
      let pg := fp + 1 + v
      let L := t.logicalOf pg
      ((t.failVatSteps pg).banksLost pg L (List.range 16)).clearTags pg) s
    let s2 := (List.range 32).foldl (fun t g =>
      let t1 := match t.segOwner fp g with
        | some c => t.segLost c 0 die f 0 g
        | none => t
      (t1.setSegTag fp g none false).zeroSeg fp g) s1
    let s3 := (List.range 9).foldl (fun t v => t.zeroStore (fp + 1 + v)) s2
    let s4 := (s3.setFloor fp {}).wake (fun w => match w with
      | .banks pg _ => floorOfVat pg == fp
      | .segs q _ => q == fp
      | _ => false) stFAULT
    s4.markRetired fp

/-! Main-memory channels (R214, R215, R217) -/

/-- MEM_LOST to each owner of the frames that satisfy `p`, with their number. -/
def State.memLost (s : State) (p : Nat → Bool) : State :=
  let fs := s.lp.frames.filter fun e => p e.1 && e.2.otype != 3
  let owners := ((fs.map fun e => e.2).flatMap s.frameOwners).eraseDups
  owners.foldl (fun t c => t.ctxStQ c 13 stFAULT (fs.filter fun e => (s.frameOwners e.2).contains c).length) s

/-- The channel's bit leaves CH_SVC; the group reports it. -/
def State.dropChannel (s : State) (n ch : Nat) : State :=
  let pg := pgLPG n (ch / 8)
  let s1 := (s.wr pg F.LPG_CH_SVC (clrBit (s.rd pg F.LPG_CH_SVC) (ch % 8))).wr pg F.LPG_CH_RETIRED (setBit (s.rd pg F.LPG_CH_RETIRED) (ch % 8))
  (s1.raise pg 4).capture pg 5 (32 * n + ch) none

/-- R8, R9: a die is retired, with everything on it. Steps with a vat there or a list spread over it complete with FAULT. -/
def State.retireDie (s : State) (n : Nat) : State :=
  if s.isRetired (pgDIE n) then s
  else
    let s1 := [2 * n, 2 * n + 1].foldl (fun t l => (t.linkFell l).wr (pgKEG l) F.KEG_STATE kegRETIRED) s
    let s2 := (List.range 12).foldl (fun t f => t.retireFloor n f) s1
    let s3 := s2.dropOps fun e => e.die == n
    let s4 := s3.abortJobs fun e => !e.2.aborted && nbit e.2.dieSet n
    let hit := fun (st : Step) => st.started && !st.joined && ((st.arms.any fun a => a.die.val == n) ||
      st.members.any fun m => ((s4.rq m.idx).head.bind s4.head).any fun h => h.geom.dies.contains n)
    let s5 := ((s4.steps.filter fun e => hit e.2).map (·.1)).foldl (fun t id => t.failStep id stFAULT 0) s4
    let s6 := s5.memLost fun f => frameDie f == n
    let s7 := (List.range 4).foldl (fun t g => t.wr (pgLPG n g) F.LPG_CH_SVC 0) s6
    let s8 := { s7 with
      spl := { s7.spl with
        flight := s7.spl.flight.filter fun m => m.phys / 4096 != n
        waiters := s7.spl.waiters.filter fun w => w.phys / 4096 != n }
      lp := { s7.lp with
        chDue := s7.lp.chDue.filter fun c => c / 32 != n
        passes := s7.lp.passes.filter fun c => c / 32 != n } }
    s8.markRetired (pgDIE n)

/-- CHANNEL_RETIRE: the oldest channel with a cause. The eighth of a die retires the die. -/
def State.retireChannel (s : State) (n ch : Nat) : State :=
  let s0 := { s with lp := { s.lp with chDue := s.lp.chDue.filter fun c => c != 32 * n + ch } }
  if s0.chanRetired n ch || s0.isRetired (pgDIE n) then s0
  else
    let k := (s0.retList n).length
    if 7 ≤ k then s0.retireDie n
    else
      let s1 := (s0.dropChannel n ch).noteRetired
      let s2 := ((s1.wri (pgXLT n) F.XLT_RET_LIST_VALID k 1).wri (pgXLT n) F.XLT_RET_LIST_CH k ch).wr (pgXLT n) F.XLT_RSET_NOW (k + 1)
      { s2 with lp := { s2.lp with passes := s2.lp.passes ++ [32 * n + ch] } }

def execChannelRetire (s : State) : Result :=
  .next (match s.lp.chDue with
  | [] => s
  | c :: _ => (s.retireChannel (c / 32) (c % 32)).recount)

/-- Frames of a channel. -/
abbrev framesPerChannel : Nat := 1015808

/-- RETIRE_PASS_DONE: every frame-table entry of the channel reads OTYPE 3, and the owners hear of it. -/
def execRetirePassDone (s : State) : Result :=
  .next (match s.lp.passes with
  | [] => s
  | c :: rest =>
    let n := c / 32
    let mine := fun (f : Nat) => frameDie f == n && frameChan f == c % 32
    let s1 := { s with lp := { s.lp with passes := rest } }.memLost mine
    let before := (s1.lp.frames.filter fun e => mine e.1 && e.2.otype == 3).length
    let s2 := { s1 with lp := { s1.lp with
        frames := s1.lp.frames.map fun (e : Nat × Frame) => if mine e.1 then (e.1, { e.2 with otype := 3, owner := 0 }) else e
        recov := s1.lp.recov.filter fun e => !mine e.1 } }
    (s2.bump (pgXLT n) F.XLT_RETIRED_FRAMES (framesPerChannel - before)).raise (pgXLT n) 3)

/-! Engines and links -/

/-- A keg link is retired: it goes DOWN first, and its proven faults rise. -/
def State.retireKeg (s : State) (l : Nat) : State :=
  if s.isRetired (pgKEG l) then s
  else (((s.linkFell l).wr (pgKEG l) F.KEG_STATE kegRETIRED).bump (pgKEG l) F.KEG_PROVEN 1).markRetired (pgKEG l)

def State.retireCodec (s : State) (k : Nat) : State := if s.isRetired (pgCODEC k) then s else (s.markRetired (pgCODEC k)).codecRetire k
def State.retireMill (s : State) : State := if s.isRetired pgMILL then s else (s.markRetired pgMILL).millRetire

/-- A vat is retired; a floor below 4 usable vats goes with it (R112, R469). -/
def State.vatOut (s : State) (pg : Nat) : State :=
  if s.isRetired pg then s
  else
    let s1 := (s.retireVat pg).noteRetired
    let fp := floorOfVat pg
    if s1.rd fp F.FLOOR_USABLE < 4 then s1.retireFloor (dieOf pg) (floorNo pg) else s1

/-- LINK_DECLARED_FAILED (R19): eight failed attempts at a flit of die `die`'s hub link (`far` none), or of its ring link to die `far`. `steps` are
those with a transfer on the link. A failed hub link retires its die, a failed ring link of a Q2 variant die 1. -/
def execLinkDeclaredFailed (die : Fin 4) (far : Option (Fin 4)) (steps : List Nat) (s : State) : Result :=
  .next (
    let n := die.val
    if !s.hasUnit (pgDIE n) then s
    else
      let s1 := steps.foldl (fun t id => t.failStep id stFAULT 0) s
      match far with
      | none => (((s1.raise (pgDIE n) 2).capture (pgDIE n) 3 0 none).retireDie n).recount
      | some f =>
        if f.val = n ∨ s.hasUnit (pgDIE f.val) = false then s
        else
          let s2 := ((s1.raise (pgDIE n) 1).capture (pgDIE n) 2 f.val none)
          let s3 := ((s2.raise (pgDIE f.val) 1).capture (pgDIE f.val) 2 n none)
          let s4 := { s3 with bist := { s3.bist with ringBad := s3.bist.ringBad ++ [4 * n + f.val, 4 * f.val + n] } }
          if s.variant.dies = 2 then (s4.retireDie 1).recount else s4)

end Sys2Proof.Machine
end

