-- ==== Sys2Proof/Machine/Bist.lean ====
section
/-! DEFINITION. Self-test in slices, repair, and the analogue checks (R461–R474). -/

namespace Sys2Proof.Machine

/-! Units and the schedule (R461, R464) -/

/-- The page of a unit; a fabric's is its die page, the hub fabric's the MOD page. -/
def unitPage : BistUnit → Nat
  | .vat v => vatPg v
  | .floor f => floorPgOf f
  | .seg f _ => floorPgOf f
  | .plane k => if k.val < 4 then pgDIE k.val else pgMOD
  | .pipe _ => pgMILL
  | .codec k => pgCODEC k.val
  | .cm u => pgCM u.val

/-- The number of a unit in the schedule; the vats of a floor share one, that of the floor's rotations. -/
def unitKey : BistUnit → Nat
  | .vat v => floorOfVat (vatPg v) * 64 + 33
  | .floor f => floorPgOf f * 64 + 32
  | .seg f g => floorPgOf f * 64 + g.val
  | .plane k => k.val
  | .pipe p => 8 + p.val
  | .codec k => 16 + k.val
  | .cm u => 24 + u.val

/-- Is the unit there, and tested in service? A floor without its spare rotates no vat, and a fabric without its spare plane is not tested. -/
def State.testable (s : State) (u : BistUnit) : Bool :=
  s.hasUnit (unitPage u) && match u with
  | .vat v => s.rd (floorOfVat (vatPg v)) F.FLOOR_SPARE != 0xF
  | .seg f g => (s.segOwner (floorPgOf f) g.val).isNone && s.rdi (floorPgOf f) F.FLOOR_SEG_PHYS g.val != 0x3F
  | .plane k => nget s.bist.planesBad k.val == 0
  | .cm u => s.role u.val == roleSync || s.role u.val == roleReady
  | _ => true

/-- Tests of a unit in a pass. -/
def testsOf : BistUnit → Nat
  | .vat _ => 9
  | .floor _ => 1
  | .seg _ _ => 1
  | .plane _ => 5
  | .pipe _ => 512
  | .codec _ => 256
  | .cm _ => 512

def State.passClks (s : State) : Nat := s.rd pgBIST F.BIST_PASS_HOURS * clkHour

/-- The clock at which test number `j` of a unit is due; a floor's rotations are offset by its place among the 48 floors. -/
def State.dueClk (s : State) (u : BistUnit) (j : Nat) : Nat :=
  let step := s.passClks / testsOf u
  match u with
  | .vat v => s.bist.passClk + j * step + (12 * v.die.val + v.floor.val) * step / 48
  | _ => s.bist.passClk + j * step

/-- R464: a unit whose tests fall more than 1 % of a pass behind is reported once. -/
def State.checkLate (s : State) (u : BistUnit) : State :=
  let j := nget s.bist.doneOf (unitKey u)
  if s.bist.late || testsOf u ≤ j || s.now ≤ s.dueClk u j + s.passClks / 100 then s
  else ({ s with bist := { s.bist with late := true } }).raise pgBIST 4

/-- BIST_SCHEDULE: a due test of a unit is issued; a vat's as a rotation request of its floor. -/
def execBistSchedule (unit : BistUnit) (s : State) : Result :=
  .next (
    let j := nget s.bist.issuedOf (unitKey unit)
    let s1 := if s.testable unit then s.checkLate unit else s
    if !s.on pgBIST F.BIST_CFG_EN || !s.ready || !s.testable unit || decide (testsOf unit ≤ j) || decide (s.now < s.dueClk unit j) then s1
    else
      let s2 := { s1 with bist := { s1.bist with issuedOf := nadd s1.bist.issuedOf (unitKey unit) 1 } }
      match unit with
      | .vat v =>
        let fp := floorOfVat (vatPg v)
        s2.setFloor fp { s2.floor fp with reqs := (s2.floor fp).reqs ++ [0xF] }
      | _ => { s2 with bist := { s2.bist with sched := s2.bist.sched ++ [unit] } })

/-- A test of the unit is complete: the pass position, and the pass when every test is done. -/
def State.testDone (s : State) (u : BistUnit) : State :=
  let pos := s.rd pgBIST F.BIST_PASS_POS + 1
  let s1 := { s with bist := { s.bist with doneOf := nadd s.bist.doneOf (unitKey u) 1 } }
  if pos < s.rd pgBIST F.BIST_PASS_SLICES then s1.wr pgBIST F.BIST_PASS_POS pos
  else
    let s2 := (s1.wr pgBIST F.BIST_PASS_POS 0).bump pgBIST F.BIST_PASSES 1
    { s2 with bist := { s2.bist with passClk := max s.now (s.bist.passClk + s.passClks), issuedOf := [], doneOf := [], late := false } }

/-- The unit that a `BIST.REQ` names, by block type, die and instance (R37). -/
def reqUnit (type die inst : Nat) : Option BistUnit :=
  if type = 0x28 then
    (if h : die < 4 ∧ inst / 16 < 12 ∧ inst % 16 < 9 then some (.vat ⟨⟨die, h.1⟩, ⟨inst / 16, h.2.1⟩, ⟨inst % 16, h.2.2⟩⟩) else none)
  else if type = 0x27 then (if h : die < 4 ∧ inst < 12 then some (.floor ⟨⟨die, h.1⟩, ⟨inst, h.2⟩⟩) else none)
  else if type = 0x20 then (if h : die < 5 ∧ die ≠ 4 then some (.plane ⟨die, h.1⟩) else none)
  else if type = 0x1B then (if die = 7 then some (.pipe 0) else none)
  else if type = 0x17 then (if h : die = 7 ∧ inst < 4 then some (.codec ⟨inst, h.2⟩) else none)
  else if type = 0x11 then (if die = 7 then some (.cm 0) else none)
  else if type = 0x12 then (if die = 7 then some (.cm 1) else none)
  else none

/-- BIST_REQ: one slice of the named unit; a vat in service is brought to its test by a rotation. -/
def execBistReq (fn : Fin 32) (v : Word) (s : State) : Result :=
  .next (s.blockAction pgBIST fn.val 0x11C fun t =>
    let w := v.toNat
    if !nbit w 31 then t
    else match reqUnit (bits w 23 8) (bits w 20 3) (bits w 0 20) with
    | none => t.raise pgBIST 9
    | some u =>
      if !t.hasUnit (unitPage u) then t.raise pgBIST 9
      else match u with
      | .vat x =>
        if t.inService (vatPg x) then
          let fp := floorOfVat (vatPg x)
          t.setFloor fp { t.floor fp with reqs := (t.floor fp).reqs ++ [x.vat.val] }
        else { t with bist := { t.bist with reqs := t.bist.reqs ++ [u] } }
      | _ => { t with bist := { t.bist with reqs := t.bist.reqs ++ [u] } })

/-! Slices (R463, R465, R466) -/

/-- Clocks to the next predicted slot edge; none while the time base gives no slots. -/
def State.toEdge (s : State) : Option Nat :=
  s.tb.markClk.map fun c => c + (s.rd pgTBASE F.TBASE_SLOT + 1) * s.slotClk - s.now

/-- R465: the conditions on which a unit's slice starts. -/
def State.mayTest (s : State) (u : BistUnit) : Bool :=
  match u with
  | .vat v => nget s.underTest (vatPg v) != 0 || s.rd (floorOfVat (vatPg v)) F.FLOOR_SPARE == physOfVat (vatPg v) && !(s.vat (vatPg v)).zeroing
  | .floor f => ((List.range 9).all fun p => (s.vat (floorPgOf f + 1 + p)).atBoundary) && (match s.toEdge with
      | some d => decide (4096 ≤ d) && !slotResValid (s.slotEntry s.activeCopy (s.rd pgTBASE F.TBASE_SLOT))
      | none => true)
  | .seg f g => (s.segOwner (floorPgOf f) g.val).isNone && s.rdi (floorPgOf f) F.FLOOR_SEG_OWNER_CLEARING g.val == 0 &&
      s.rdi (floorPgOf f) F.FLOOR_SEG_PHYS g.val != 0x3F
  | .plane k => nget s.bist.planesBad k.val == 0
  | .pipe p => (s.runningJob p.val).isNone && (s.nextJob p.val).isNone
  | .codec k => !s.on (pgCODEC k.val) F.ENG_BUSY && !(s.codec.streams.any fun e => e.2.ready) && !s.on pgSCHED F.SCH_MODE
  | .cm u => (s.cmUnit u.val).slice.isNone && !(s.cmUnit u.val).deferred && (s.cmUnit u.val).restart.isNone && decide (200 * clkUs ≤ s.toMark) &&
      (s.role u.val == roleSync || s.role u.val == roleReady)

/-- Is a slice of the unit asked for, by a fence, by `BIST.REQ` or by the schedule? The spare that came from a rotation is. -/
def State.asked (s : State) (u : BistUnit) : Bool :=
  s.bist.due.contains u || s.bist.reqs.contains u || s.bist.sched.contains u || match u with
  | .vat v => nget s.underTest (vatPg v) != 0
  | _ => false

/-- The oldest request for the unit is taken: a fence's before one of `BIST.REQ`, before the schedule's. -/
def State.takeTest (s : State) (u : BistUnit) : State :=
  if s.bist.due.contains u then { s with bist := { s.bist with due := s.bist.due.erase u } }
  else if s.bist.reqs.contains u then { s with bist := { s.bist with reqs := s.bist.reqs.erase u } }
  else { s with bist := { s.bist with sched := s.bist.sched.erase u } }

def State.defer (s : State) (u : BistUnit) : State :=
  ({ s with bist := { s.bist with deferred := s.bist.deferred ++ [(u, s.now)] } }).count pgBIST 0x050 1

/-- BIST_SLICE_START; `inWindow`: the unit's clock and supply lie in their windows. -/
def execBistSliceStart (unit : BistUnit) (inWindow : Bool) (s : State) : Result :=
  .next (
    if !s.on pgBIST F.BIST_CFG_EN || !s.ready || s.testing unit || !s.hasUnit (unitPage unit) || !s.asked unit || !s.mayTest unit ||
        (s.fw.act.any fun a => a.begun && sliceOf a.comp unit) || s.bist.deferred.any fun e => e.1 == unit then s
    else
      let early := s.bist.due.contains unit || (match unit with
        | .vat v => (s.floor (floorOfVat (vatPg v))).rotEarly
        | _ => false)
      let s1 := s.takeTest unit
      if !inWindow then s1.defer unit
      else
        let s2 := ({ s1 with bist := { s1.bist with running := s1.bist.running ++ [({ unit := unit, clk := s.now, asked := early } : Slice)] } }).count pgBIST 0x04C 1
        let s3 := if early then s2.count pgBIST 0x070 1 else s2
        match unit with
        | .vat v => { s3 with underTest := nput s3.underTest (vatPg v) 1 }
        | .cm u => s3.cmSlice u.val none
        | _ => s3)

def State.dropSlice (s : State) (u : BistUnit) : State :=
  { s with bist := { s.bist with running := s.bist.running.filter fun x => x.unit != u } }

/-- BIST_SLICE_STOP: no verdict. -/
def execBistSliceStop (unit : BistUnit) (s : State) : Result :=
  .next (if s.testing unit then (s.dropSlice unit).defer unit else s)

def execBistDeferExpire (unit : BistUnit) (s : State) : Result :=
  .next (match s.bist.deferred.find? fun e => e.1 == unit with
  | some (_, clk) =>
    if s.now < clk + s.rd pgBIST F.BIST_DEFER_MS * clkMs then s
    else
      { s with bist := { s.bist with
          deferred := s.bist.deferred.erase (unit, clk)
          sched := unit :: s.bist.sched } }
  | none => s)

/-! Verdicts and repair (R467, R469, R470) -/

/-- NO_SPARE_TEST, once for each fabric and floor. -/
def State.noSpareTest (s : State) (key : Nat) : State :=
  if s.bist.noSpare.contains key then s
  else ({ s with bist := { s.bist with noSpare := s.bist.noSpare ++ [key] } }).raise pgBIST 7

/-- A bank of a vat under test is retired; a third one retires the vat (R176). -/
def State.retireBank (s : State) (pg b : Nat) : State :=
  if s.rd pg F.VAT_BANKS_SVC ≤ 14 then s.vatOut pg
  else ((((s.setBankTag pg b none false).wri pg F.VAT_BANK_OWNER_RETIRED b 1).wr pg F.VAT_BANKS_SVC (s.rd pg F.VAT_BANKS_SVC - 1)).raise pg 8).noteRetired

/-- The repair that covers a fault is stored, when the record has a free entry. -/
def State.storeRepair (s : State) (u : BistUnit) (x : BistSub) (full : State → State) : State :=
  if s.rd pgBIST F.BIST_RECORD_FREE = 0 then full (s.raise pgBIST 8)
  else { s with bist := { s.bist with stores := s.bist.stores ++ [(u, x)] } }

def tunMap (q : Fin 4) : Field := if q = 0 then F.VAT_TUN_MAP_Q0 else if q = 1 then F.VAT_TUN_MAP_Q1 else if q = 2 then F.VAT_TUN_MAP_Q2 else F.VAT_TUN_MAP_Q3

/-- A floor is out of its spare vat (R111, R469). -/
def State.vatFailed (s : State) (pg : Nat) : State :=
  let fp := floorOfVat pg
  let s1 := s.vatOut pg
  if s1.rd fp F.FLOOR_SPARE = 0xF ∧ s1.on fp F.FLOOR_CFG_KEEP_TEST = false ∧ s1.isRetired fp = false then s1.noSpareTest fp else s1

/-- The first resource of R469 that covers a proven fault, or retirement. -/
def State.repair (s : State) (u : BistUnit) (x : BistSub) : State :=
  match u, x with
  | .vat v, .column q _ =>
    let pg := vatPg v
    if s.rd pg (tunMap q) = 0x1F then s.storeRepair u x fun t => t.vatFailed pg else s.vatFailed pg
  | .vat v, .line b =>
    let pg := vatPg v
    if nget s.bist.bankFix (pg * 32 + 2 * b.val) < 16 then s.storeRepair u x fun t => t.retireBank pg b.val else s.retireBank pg b.val
  | .vat v, .bitCol b =>
    let pg := vatPg v
    if nget s.bist.bankFix (pg * 32 + 2 * b.val + 1) < 4 then s.storeRepair u x fun t => t.retireBank pg b.val else s.retireBank pg b.val
  | .vat v, .logic => s.vatFailed (vatPg v)
  | .floor f, _ => s.retireFloor f.die.val f.floor.val
  | .seg f g, _ =>
    let fp := floorPgOf f
    let lost := fun (t : State) => ((t.wri fp F.FLOOR_SEG_PHYS g.val 0x3F).zeroSeg fp g.val).raise fp 9
    if s.rd fp F.FLOOR_SEG_SPARES = 0 then lost s else s.storeRepair u x lost
  | .plane k, _ =>
    let s1 := if k.val < 4 then (s.raise (pgDIE k.val) 3).capture (pgDIE k.val) 4 (nget s.bist.doneOf (unitKey u) % 5) none else s
    if nget s1.bist.planesBad k.val = 0 then s1.storeRepair u x fun t => if k.val < 4 then t.retireDie k.val else
      { t with bist := { t.bist with planesBad := nput t.bist.planesBad 4 2 } }
    else if k.val < 4 then s1.retireDie k.val
    else { s1 with bist := { s1.bist with planesBad := nput s1.bist.planesBad 4 2 } }
  | .pipe _, _ => s.retireMill
  | .codec k, _ => s.retireCodec k.val
  | .cm c, _ => s.cmSlice c.val (some false)

/-- The slice of a unit passes: a vat is filled with zeros and stays the spare, a fence of requesters 9 and 10 ends (R187), a segment holds zeros. -/
def State.slicePassed (s : State) (u : BistUnit) : State :=
  match u with
  | .vat v => { s.zeroStore (vatPg v) with underTest := mdel s.underTest (vatPg v) }
  | .floor f =>
    let fp := floorPgOf f
    s.wr fp F.FLOOR_TAP_FENCED (clrBit (clrBit (s.rd fp F.FLOOR_TAP_FENCED) 9) 10)
  | .seg f g => s.zeroSeg (floorPgOf f) g.val
  | .codec k => { s with codec := { s.codec with last := mdel s.codec.last k.val } }
  | .cm c => s.cmSlice c.val (some true)
  | _ => s

/-- `BIST.LAST_FAIL` names the unit's block. -/
def State.lastFail (s : State) (u : BistUnit) : State :=
  let pg := unitPage u
  let inst := match u with
    | .vat v => v.floor.val * 16 + v.vat.val
    | .floor f => f.floor.val
    | .seg f _ => f.floor.val
    | .codec k => k.val
    | _ => 0
  ((s.wr pgBIST F.BIST_LAST_FAIL_TYPE (typeCode pg)).wr pgBIST F.BIST_LAST_FAIL_DIE (pageDie pg)).wr pgBIST F.BIST_LAST_FAIL_INST inst

/-- BIST_SLICE_END: a mismatch runs the slice again with the same seed; the same sub-signature again proves the fault. A second run that mismatches
elsewhere is run once more (assumption log 60). -/
def execBistSliceEnd (unit : BistUnit) (mismatch : Option BistSub) (s : State) : Result :=
  .next (match s.bist.running.find? fun x => x.unit == unit with
  | none => s
  | some x =>
    let again := fun (sub : BistSub) =>
      { s with bist := { s.bist with running := s.bist.running.map fun (y : Slice) => if y.unit = unit then { y with first := some sub, clk := s.now } else y } }
    match x.first, mismatch with
    | none, none => ((s.dropSlice unit).slicePassed unit).testDone unit
    | some _, none => (((s.count pgBIST 0x058 1).dropSlice unit).slicePassed unit).testDone unit
    | none, some a => again a
    | some a, some b =>
      if a ≠ b then again b
      else
        let s1 := (((s.dropSlice unit).count pgBIST 0x05C 1).raise pgBIST 0).lastFail unit
        ((s1.repair unit a).testDone unit).recount)

/-- REPAIR_STORED: both copies of the entry are in flash; the repair takes effect. A vat is tested in full again. -/
def execRepairStored (s : State) : Result :=
  .next (match s.bist.stores with
  | [] => s
  | (u, x) :: rest =>
    let s1 := { s with bist := { s.bist with stores := rest, seq := s.bist.seq + 1 } }
    let s2 := ((s1.wr pgBIST F.BIST_RECORD_FREE (s1.rd pgBIST F.BIST_RECORD_FREE - 1)).count pgBIST 0x060 1).raise pgBIST 1
    let fix := fun (t : State) k => { t with bist := { t.bist with bankFix := nadd t.bist.bankFix k 1 } }
    let rerun := fun (t : State) => { t with bist := { t.bist with running := t.bist.running ++ [({ unit := u, clk := t.now } : Slice)] } }
    (match u, x with
      | .vat v, .column q c => rerun (s2.wr (vatPg v) (tunMap q) c.val)
      | .vat v, .line b => rerun (fix s2 (vatPg v * 32 + 2 * b.val))
      | .vat v, .bitCol b => rerun (fix s2 (vatPg v * 32 + 2 * b.val + 1))
      | .seg f g, _ =>
        let fp := floorPgOf f
        let left := s2.rd fp F.FLOOR_SEG_SPARES
        if left = 0 then s2
        else (((s2.wri fp F.FLOOR_SEG_PHYS g.val (nextSpare left)).wr fp F.FLOOR_SEG_SPARES (left - 1)).poisonSeg fp g.val).raise fp 8
      | .plane k, _ => ({ s2 with bist := { s2.bist with planesBad := nput s2.bist.planesBad k.val 1 } }).noSpareTest k.val
      | _, _ => s2).recount)

/-! Analogue checks (R468) -/

/-- An analogue check has run. -/
def State.analogRun (s : State) (ok : Bool) : State :=
  let s1 := s.count pgBIST 0x068 1
  if ok then s1 else (s1.count pgBIST 0x06C 1).raise pgBIST 5

/-- Consecutive failures of check `k`; at the second, `body`. -/
def State.twice (s : State) (k : Nat) (ok : Bool) (body : State → State) : State :=
  let n := if ok then 0 else nget s.bist.checkFail k + 1
  let s1 := { s with bist := { s.bist with checkFail := nput s.bist.checkFail k (if 2 ≤ n then 0 else n) } }
  if 2 ≤ n then body s1 else s1

def State.analogOn (s : State) : Bool := s.on pgBIST F.BIST_CFG_ANALOG_EN && s.ready

def execLpddrPhyCheck (die : Fin 4) (ch : Fin 32) (ok : Bool) (s : State) : Result :=
  .next (
    let n := die.val
    if !s.analogOn || !s.hasUnit (pgDIE n) || s.chanRetired n ch.val then s
    else
      let s1 := s.analogRun ok
      let pg := pgLPG n (ch.val / 8)
      let s2 := if ok then s1 else (s1.raise pg 6).capture pg 4 (32 * n + ch.val) none
      s2.twice (32 * n + ch.val) ok fun t =>
        { t with lp := { t.lp with chDue := if t.lp.chDue.contains (32 * n + ch.val) then t.lp.chDue else t.lp.chDue ++ [32 * n + ch.val] } })

def execKegEyeCheck (link : Fin 8) (ok : Bool) (s : State) : Result :=
  .next (
    let l := link.val
    if !s.analogOn || !s.hasUnit (pgKEG l) || !s.linkIsUp l then s
    else (s.analogRun ok).twice (128 + l) ok fun t => (t.retireKeg l).recount)

/-- A PCIe lane that fails is entered in the repair record and left out at the next training (R476). -/
def execPcieEyeCheck (lane : Fin 8) (ok : Bool) (s : State) : Result :=
  .next (
    if !s.analogOn || !s.linkUp then s
    else
      let s1 := s.analogRun ok
      let ex := s1.rd pgHOST F.HOST_LANE_EXCL
      if ok || nbit ex lane.val then s1
      else
        let s2 := s1.wr pgHOST F.HOST_LANE_EXCL (setBit ex lane.val)
        if s2.rd pgBIST F.BIST_RECORD_FREE = 0 then s2.raise pgBIST 8
        else s2.wr pgBIST F.BIST_RECORD_FREE (s2.rd pgBIST F.BIST_RECORD_FREE - 1))

/-- Is there a unit in the domain? -/
def State.domThere (s : State) : ClkDomain → Bool
  | .vat v => s.hasUnit (vatPg v)
  | .floor f => s.hasUnit (floorPgOf f)
  | .dieFabric n => s.hasUnit (pgDIE n.val)
  | .lpddr n _ => s.hasUnit (pgDIE n.val)
  | .keg l => s.hasUnit (pgKEG l.val)
  | .coll n => s.hasUnit (pgDIE n.val)
  | .xlat n => s.hasUnit (pgDIE n.val)
  | .codec k => s.hasUnit (pgCODEC k.val)
  | .mill => s.hasUnit pgMILL
  | .gauger => s.hasUnit pgGAU
  | .cm u => s.hasUnit (pgCM u.val)
  | _ => true

/-- R23: a vat outside its window holds its issue; one that is back goes on. -/
def State.holdVat (s : State) (pg : Nat) (h : Bool) : State :=
  (s.setVat pg { s.vat pg with clkHold := h }).wr pg F.VAT_RUN_CLK_HOLD (boolNat h)

/-- PLL_CHECK: a domain outside ±1 % holds and its PLL relocks. -/
def execPllCheck (dom : ClkDomain) (ok : Bool) (s : State) : Result :=
  .next (
    if !s.domThere dom || s.bist.relock.contains dom then s
    else
      let s1 := s.analogRun ok
      if ok then s1
      else
        let s2 := { s1 with bist := { s1.bist with relock := s1.bist.relock ++ [dom] } }
        match dom with
        | .vat v =>
          let pg := vatPg v
          let fp := floorOfVat pg
          let s3 := s2.holdVat pg true
          if s3.rd fp F.FLOOR_ROT_STATUS_OUT = physOfVat pg ∨ s3.rd fp F.FLOOR_ROT_STATUS_IN = physOfVat pg then s3.abandonRotation fp else s3
        | _ => s2)

/-- The units of a domain whose relock failed are retired. A hub unit without an alternative leaves the module as it is. -/
def State.domainLost (s : State) : ClkDomain → State
  | .vat v => s.vatFailed (vatPg v)
  | .floor f => s.retireFloor f.die.val f.floor.val
  | .dieFabric n => s.retireDie n.val
  | .lpddr n g => (List.range 8).foldl (fun t i => t.retireChannel n.val (8 * g.val + i)) s
  | .keg l => s.retireKeg l.val
  | .coll n => s.retireDie n.val
  | .xlat n => s.retireDie n.val
  | .codec k => s.retireCodec k.val
  | .mill => s.retireMill
  | .gauger => s.markRetired pgGAU
  | .cm u => if s.cmRetired u.val then s else (s.cmRetire u.val).noteRetired
  | .timeBase => s.wr pgMOD F.MOD_FIXED_SVC (bits (s.rd pgMOD F.MOD_FIXED_SVC) 0 4)
  | .hubFabric => { s with bist := { s.bist with planesBad := nput s.bist.planesBad 4 2 } }
  | .hub => s

/-- PLL_RELOCK: one relock; when it fails the units that the domain clocks are retired. -/
def execPllRelock (dom : ClkDomain) (ok : Bool) (s : State) : Result :=
  .next (
    if !s.bist.relock.contains dom then s
    else
      let s1 := { s with bist := { s.bist with relock := s.bist.relock.erase dom } }
      if ok then (match dom with
        | .vat v => s1.holdVat (vatPg v) false
        | _ => s1)
      else (s1.domainLost dom).recount)

/-- TB_LOOPBACK_CHECK: only while the line is disabled. -/
def execTbLoopbackCheck (lineB : Bool) (ok : Bool) (s : State) : Result :=
  .next (
    let bit := 4 + boolNat lineB
    if !s.analogOn || s.tbFlag (if lineB then F.TBASE_CFG_LINE_B_EN else F.TBASE_CFG_LINE_A_EN) then s
    else
      let s1 := s.analogRun ok
      if ok || !nbit (s1.rd pgMOD F.MOD_FIXED_SVC) bit then s1
      else ((s1.wr pgMOD F.MOD_FIXED_SVC (clrBit (s1.rd pgMOD F.MOD_FIXED_SVC) bit)).raise pgMOD 1).recount)

/-- TB_SPAN_END: a line is suspect at the end of a second in which more than 1 % of its windows carried errors and the other line's none. -/
def execTbSpanEnd (s : State) : Result :=
  .next (
    if s.now < s.bist.tbClk + clkS then s
    else
      let judge := fun (t : State) (l : Nat) =>
        let bad := decide (nget s.bist.tbWin l < 100 * nget s.bist.tbErr l) && nget s.bist.tbErr (1 - l) == 0
        let was := nget s.bist.tbSuspect l != 0
        let t1 := { t with bist := { t.bist with tbSuspect := nput t.bist.tbSuspect l (boolNat bad) } }
        if bad && !was then t1.raise pgBIST 6 else t1
      let s1 := judge (judge s 0) 1
      { s1 with bist := { s1.bist with tbWin := [], tbErr := [], tbClk := s.bist.tbClk + clkS } })

/-- PASS_POSITION_STORE: once an hour (R471). -/
def execPassPositionStore (s : State) : Result :=
  .next (
    if s.now < s.bist.storeClk + clkHour then s
    else
      { s with bist := { s.bist with
          savedPos := s.rd pgBIST F.BIST_PASS_POS
          savedPasses := s.rd pgBIST F.BIST_PASSES
          storeClk := s.now } })

end Sys2Proof.Machine
end

