-- ==== Sys2Proof/Machine/Control.lean ====
section
/-! DEFINITION. The front-end instructions: control, spile operations and scalar arithmetic (R86, R88, R91–R94, R143–R145, R153). -/

namespace Sys2Proof.Machine

/-! Control -/

def execNop (v : VatId) (s : State) : Result := .next (s.frontStep v 0x00 (fun _ => []) fun k _ => k)

/-- Has every unit and DMA of the kernel completed? -/
def Kernel.drained (k : Kernel) : Bool := k.tunQ.isEmpty && k.vecQ.isEmpty && k.lseQ.isEmpty && k.dmas.isEmpty

/-- END: once drained, posts the done spile with 1, then the held posts in issue order (R153), and the kernel ends. -/
def execEndKernel (v : VatId) (s : State) : Result :=
  .next (match s.fetch (vatPg v) with
  | some (k, w) =>
    if w.op = 0x01 ∧ k.illegal w = false ∧ k.drained = true then
      let s1 := s.spSend (vatPg v) k.ctx k.desc.doneSpile (.post 1)
      let s2 := k.heldPosts.foldl (fun t e => t.spSend (vatPg v) k.ctx e.1 (.post e.2)) s1
      s2.endKernel (vatPg v)
    else s
  | none => s)

/-- BR: to PC + `IMM` when `FMT`[0] is set or `xSA` is not 0; a taken branch out of a loop body at its last word leaves the loop. -/
def execBr (v : VatId) (s : State) : Result :=
  .next (match s.fetch (vatPg v) with
  | some (k, w) =>
    if w.op = 0x02 ∧ k.illegal w = false ∧ (nbit w.fmt 0 || k.xFree [w.sa]) = true then
      let k1 := if k.taken w then
          let t := (branchTarget k.pc w).getD 0
          { k with pc := t, loops := k.loops.dropWhile fun l => !l.holds t }
        else k.advance
      s.setKern (vatPg v) (some k1)
    else s
  | none => s)

/-- LOOP: the next `IMM`[15:0] words `n` times; a count of 0, or an empty body, skips it. -/
def execLoop (v : VatId) (s : State) : Result :=
  .next (match s.fetch (vatPg v) with
  | some (k, w) =>
    if w.op = 0x03 ∧ k.illegal w = false ∧ k.xFree [w.sa] = true then
      let len := bits w.imm 0 16
      let n := k.loopCount w
      let k1 := if n = 0 ∨ len = 0 then
          let k2 := { k with pc := k.pc + len }
          k2.advance
        else { k with pc := k.pc + 1, loops := { start := k.pc + 1, last := k.pc + len, left := n } :: k.loops }
      s.setKern (vatPg v) (some k1)
    else s
  | none => s)

/-- SYNC: once the units in `IMM`[2:0] have completed every earlier instruction. -/
def execSync (v : VatId) (s : State) : Result :=
  .next (match s.fetch (vatPg v) with
  | some (k, w) =>
    if w.op = 0x04 ∧ k.illegal w = false ∧ ((!nbit w.imm 0 || k.tunQ.isEmpty) && (!nbit w.imm 1 || k.vecQ.isEmpty) &&
        (!nbit w.imm 2 || k.lseQ.isEmpty)) = true then s.setKern (vatPg v) (some k.advance)
    else s
  | none => s)

/-- TRAP: once drained, the kernel ends, its step with FAULT and code `IMM`[15:0] in the context event page. -/
def execTrap (v : VatId) (s : State) : Result :=
  .next (match s.fetch (vatPg v) with
  | some (k, w) =>
    if w.op = 0x08 ∧ k.illegal w = false ∧ k.drained = true then
      ((s.endKernel (vatPg v)).failStep k.step stFAULT (bits w.imm 0 16)).ctxCode k.ctx 2 stFAULT (bits w.imm 0 16)
    else s
  | none => s)

/-! Spile operations (R143–R145, R153) -/

/-- The virtual spile that an instruction names: `xSA` + `IMM`[11:0]. -/
def Kernel.spNum (k : Kernel) (w : IW) : Nat := (k.xr w.sa + bits w.imm 0 12) % 2 ^ 32

/-- A spile number that no map entry holds ends the kernel, its step with FAULT and SPILE_RANGE (R143). -/
def State.spileRangeEnd (s : State) (pg : Nat) (k : Kernel) (n : Nat) : State :=
  ((s.endKernel pg).failStep k.step stFAULT 0).ctxNoteQ k.ctx 5 n

/-- A spile instruction: the operand registers unmarked, the number mapped; `body` has the kernel advanced, the number and LOCAL. -/
def State.spileStep (s : State) (v : VatId) (op : Nat) (body : State → Nat → Kernel → IW → Nat → Bool → State) : State :=
  match s.fetch (vatPg v) with
  | some (k, w) =>
    if w.op = op ∧ k.illegal w = false ∧ k.xFree [w.sa, w.sb] = true then
      match s.spMap k.ctx (k.spNum w) with
      | none => s.spileRangeEnd (vatPg v) k (k.spNum w)
      | some (_, isLocal) => body s (vatPg v) k.advance w (k.spNum w) isLocal
    else s
  | none => s

/-- SPWAIT: the wait leaves and holds the front end until its release arrives (R145). -/
def execSpwait (v : VatId) (s : State) : Result :=
  .next (s.spileStep v 0x05 fun t pg k w n _ =>
    (t.setKern pg (some { k with hold := some { take := false, v := n, n := k.xr w.sb } })).spSend pg k.ctx n
      (.wait (k.xr w.sb) (.front pg (k.cls == 0))))

/-- SPPOST: to a LOCAL group the post leaves; to another group it is held until END (R153). -/
def execSppost (v : VatId) (s : State) : Result :=
  .next (s.spileStep v 0x06 fun t pg k w n isLocal =>
    if isLocal then (t.setKern pg (some k)).spSend pg k.ctx n (.post (k.xr w.sb))
    else (t.setKern pg (some { k with heldPosts := k.heldPosts ++ [(n, k.xr w.sb)] })).count (pgSPL k.ctx) 0x05C 1)

def execSptake (v : VatId) (s : State) : Result :=
  .next (s.spileStep v 0x07 fun t pg k w n _ =>
    (t.setKern pg (some { k with hold := some { take := true, v := n, n := k.xr w.sb } })).spSend pg k.ctx n
      (.take (k.xr w.sb) (.front pg (k.cls == 0))))

/-! Scalar arithmetic -/

/-- `xDST` = f(`xSA`, `xSB`), modulo 2^32. -/
def State.scalar (s : State) (v : VatId) (op : Nat) (f : Nat → Nat → Nat) : State :=
  s.frontStep v op (fun w => [w.dst, w.sa, w.sb]) fun k w => k.xw w.dst (f (k.xr w.sa) (k.xr w.sb))

def execAdd (v : VatId) (s : State) : Result := .next (s.scalar v 0x10 i32Add)
def execSub (v : VatId) (s : State) : Result := .next (s.scalar v 0x11 i32Sub)

def execAddi (v : VatId) (s : State) : Result :=
  .next (s.frontStep v 0x12 (fun w => [w.dst, w.sa]) fun k w => k.xw w.dst (k.xr w.sa + w.imm))

def execMul (v : VatId) (s : State) : Result := .next (s.scalar v 0x13 i32Mul)
def execAnd (v : VatId) (s : State) : Result := .next (s.scalar v 0x14 fun a b => a &&& b)
def execOr (v : VatId) (s : State) : Result := .next (s.scalar v 0x15 fun a b => a ||| b)
def execXor (v : VatId) (s : State) : Result := .next (s.scalar v 0x16 fun a b => a ^^^ b)
def execShl (v : VatId) (s : State) : Result := .next (s.scalar v 0x17 fun a b => a * 2 ^ (b % 32))
def execShr (v : VatId) (s : State) : Result := .next (s.scalar v 0x18 fun a b => a / 2 ^ (b % 32))
def execSra (v : VatId) (s : State) : Result := .next (s.scalar v 0x19 fun a b => ofI32 (i32 a / 2 ^ (b % 32)))
def execMin (v : VatId) (s : State) : Result := .next (s.scalar v 0x1A fun a b => i32MinMax false a b)
def execMax (v : VatId) (s : State) : Result := .next (s.scalar v 0x1B fun a b => i32MinMax true a b)
def execSlt (v : VatId) (s : State) : Result := .next (s.scalar v 0x1C fun a b => boolNat (decide (i32 a < i32 b)))
def execSeq (v : VatId) (s : State) : Result := .next (s.scalar v 0x1D fun a b => boolNat (a == b))

def execLi (v : VatId) (s : State) : Result :=
  .next (s.frontStep v 0x1E (fun w => [w.dst]) fun k w => k.xw w.dst w.imm)

/-! What ends or frees a kernel from outside the instruction (R88, R92, R95, R100) -/

/-- ILLEGAL_INSTRUCTION: the word at the program counter fails a check of R88. -/
def execIllegalInstruction (v : VatId) (s : State) : Result :=
  .next (match s.fetch (vatPg v) with
  | some (k, w) => if k.illegal w then s.illegalEnd (vatPg v) k else s
  | none => s)

/-- KSTORE_PARITY: a parity error in a fetched word ends the run; the slot is reloaded from its image and the step recomputed, or ends
with FAULT at its second error; the vat is rotated early. With no kernel the descriptor of the first ready entry was read. -/
def execInstrParityError (v : VatId) (s : State) : Result :=
  .next (
    let pg := vatPg v
    let who := match s.kern pg with
      | some k => some (k.ctx, k.step)
      | none => ((s.vat pg).entries.find? fun e => e.2.ready).map fun e => (e.2.ctx, e.2.step)
    match who with
    | none => s
    | some (c, id) =>
      let s1 := (((s.raise pg 1).count pg 0x068 1).ctxNote c 3).count (pgCNT c) F.CNT_DETECT 1
      let second := match s1.step1 id with
        | some st => decide (st.detections ≠ 0)
        | none => true
      let s2 := s1.detectStep pg id
      if second then s2 else s2.earlyRot pg)

/-- INSTR_COMPLETE: the oldest instruction of a unit completes and its marks clear. Unit 0 is TUN, 1 VEC, 2 LSE. -/
def execInstrComplete (v : VatId) (u : Fin 3) (s : State) : Result :=
  .next (match s.kern (vatPg v) with
  | some k => s.setKern (vatPg v) (some (match u.val with
    | 0 => { k with tunQ := k.tunQ.drop 1 }
    | 1 => { k with vecQ := k.vecQ.drop 1 }
    | _ => { k with lseQ := k.lseQ.drop 1 }))
  | none => s)

/-- The watchdog limit: 0 means 32,000,000 clocks (R96). -/
def wdogLimit (d : Desc) : Nat := if d.maxClk = 0 then 32000000 else d.maxClk

/-- KERNEL_WDOG: a kernel at its limit ends, its step with FAULT. -/
def execKernelWdog (v : VatId) (s : State) : Result :=
  .next (match s.kern (vatPg v) with
  | some k =>
    if wdogLimit k.desc ≤ k.clk s then ((s.endKernel (vatPg v)).failStep k.step stFAULT 0).raise (vatPg v) 2 else s
  | none => s)

end Sys2Proof.Machine
end

