-- ==== Sys2Proof/Machine/Dma.lean ====
section
/-! DEFINITION. The completion of a DMA of a vat (R26, R93, R134, R143, R144, R153, R173, R175, R178–R180, R186, R195, R196, R208, R517). -/

namespace Sys2Proof.Machine

/-! The kernel that a DMA belongs to: 0 the running one, 1 the suspended one, 2 one that was ended early and drains -/

def State.dmaKernel (s : State) (pg src : Nat) : Option Kernel :=
  let v := s.vat pg
  if src = 0 then v.kern else if src = 1 then v.susp else v.drain.head?

/-- That kernel changed; a drained one goes, and what waited for it resumes. -/
def State.setDmaKernel (s : State) (pg src : Nat) (k : Kernel) : State :=
  let v := s.vat pg
  if src = 0 then s.setVat pg { v with kern := some k }
  else if src = 1 then s.setVat pg { v with susp := some k }
  else s.setVat pg { v with drain := k.left ++ v.drain.tail }

/-! The floor-store side -/

/-- How the Tap answers requester `req` of context `c` at a floor-store address: 0 served, 1 denied (R26, R179), 2 FAULT (R180, R186). -/
def State.segAnswer (s : State) (fp req c a : Nat) : Nat :=
  let g := a / 262144
  if nbit (s.rd fp F.FLOOR_TAP_FENCED) req then 2
  else if 2 ^ 23 ≤ a then 1
  else if segNone s fp g then 2
  else if s.segOwner fp g == some c && s.rdi fp F.FLOOR_SEG_OWNER_CLEARING g == 0 then 0
  else 1

/-- Addresses of the words of a floor store that `n` bytes from `a` touch, and whether each is touched whole. -/
def floorWords (a n : Nat) : List (Nat × Bool) :=
  if n = 0 then [] else (List.range ((a + n - 1) / 4 - a / 4 + 1)).map fun i =>
    let w := (a / 4 + i) * 4
    (w, decide (a ≤ w ∧ w + 4 ≤ a + n))

def State.floorWordBad (s : State) (fp w : Nat) : Bool := nget s.fbad (fp * 2097152 + w / 4) != 0

/-- A detection in a floor-store segment: the floor page's event and counter, the segment's record, the context's record. The step ends under R134. -/
def State.segParity (s : State) (fp a : Nat) (k : Kernel) : State :=
  let f := s.floor fp
  let s1 := s.setFloor fp { f with dets := f.dets ++ [(s.rdi fp F.FLOOR_SEG_PHYS (a / 262144), s.now)] }
  (((((s1.raise fp 10).count fp 0x074 1).ctxNote k.ctx 3).count (pgCNT k.ctx) F.CNT_DETECT 1)).dataDetect k.step

/-- What a range that the Tap denies, or answers with FAULT, does to the step, `t` being the state after the move. -/
def State.floorFails (s : State) (fp req : Nat) (k : Kernel) (a n : Nat) (t : State) : State :=
  let as := (linesOf a n).map fun l => s.segAnswer fp req k.ctx (max l a)
  let t1 := if as.contains 1 then (t.modStep k.step fun st => { st with denied := true }).ctxCode k.ctx 12 stDENIED 2 else t
  if as.contains 2 then t1.failStep k.step stFAULT 0 else t1

/-! The moves -/

/-- What one line of a DMA's source in context space delivers: its bytes and whether they are marked bad. A translation that fails again in
the same DMA is not posted again. -/
structure DmaRead where
  s : State
  bytes : List (Nat × Bool) := []
  failed : Bool := false
  deriving DecidableEq, Repr

def DmaRead.line (a : DmaRead) (die : Nat) (k : Kernel) (lines : List (Nat × LineOut)) (remote : List (Nat × List Byte)) (ext n l : Nat) : DmaRead :=
  let lo := max l ext - l
  let hi := min (l + 64) (ext + n) - l
  let cut := fun (bs : List Nat) (bad : Bool) => a.bytes ++ ((bs.drop lo).take (hi - lo)).map fun b => (b, bad)
  let zeros := List.replicate 64 0
  if !a.s.isLocalVa l then
    let bs := ((remote.find? fun e => e.1 == l).map fun e => (e.2.map fun b => b.toNat) ++ zeros).getD zeros
    { a with bytes := cut bs false }
  else
    let fails := match a.s.xlate k.ctx l false false with
      | .ok _ => false
      | .error _ => true
    if fails && a.failed then { a with bytes := cut zeros false }
    else
      let o := ((lines.find? fun e => e.1 == l).map fun e => e.2).getD {}
      let (t, bs, how) := a.s.ctxRead die k.ctx l false o (some k.step)
      { s := t, bytes := cut bs (how == 1 || how == 2), failed := a.failed || fails }

/-- Bytes with their marks written into the vat store: where the check passes; a word that takes a bad byte is bad (R175). -/
def State.vatTake (s : State) (pg : Nat) (k : Kernel) (a : Nat) (bs : List (Nat × Bool)) : State :=
  let ws := bs.zipIdx.map fun e => (a + e.2, e.1.1)
  if s.kputBad pg k ws then s.storeParity pg k a
  else
    let s1 := s.kput pg k ws
    let marked := (bs.zipIdx.filter fun e => e.1.2).map fun e => a + e.2
    let s2 := marked.foldl (fun (t : State) x => match t.kkey pg k x with
      | some key => { t with vbad := mput t.vbad (key / 4) 1 }
      | none => t) s1
    if s2.kdenied pg k a bs.length then s2.denyVat k else s2

/-- DMAIN. -/
def State.dmaInto (s : State) (pg : Nat) (k : Kernel) (d : Dma) (lines : List (Nat × LineOut)) (remote : List (Nat × List Byte)) : State :=
  let fp := floorOfVat pg
  if d.floorStore then
    let req := s.logicalOf pg
    let at1 := fun j => if s.segAnswer fp req k.ctx (d.ext + j) = 0 then (bget s.fstore (fp * 8388608 + d.ext + j)).toNat else 0
    let bad := (floorWords d.ext d.bytes).find? fun w => s.segAnswer fp req k.ctx w.1 == 0 && s.floorWordBad fp w.1
    let s1 := s.vatTake pg k d.vatAddr ((List.range d.bytes).map fun j => (at1 j, s.segAnswer fp req k.ctx (d.ext + j) == 0 && s.floorWordBad fp (d.ext + j)))
    let s2 := s.floorFails fp req k d.ext d.bytes s1
    match bad with
    | some w => s2.segParity fp w.1 k
    | none => s2
  else
    let r := (linesOf d.ext d.bytes).foldl (fun (a : DmaRead) l => a.line (dieOf pg) k lines remote d.ext d.bytes l) { s := s }
    r.s.vatTake pg k d.vatAddr r.bytes

/-- Bytes written into a floor store: where the Tap serves; a bad word written in part is found bad and is not written. -/
def State.floorTake (s : State) (fp req a : Nat) (k : Kernel) (bs : List (Nat × Bool)) : State :=
  let ok := fun x => s.segAnswer fp req k.ctx x == 0
  let torn := (floorWords a bs.length).find? fun w => !w.2 && ok w.1 && s.floorWordBad fp w.1
  let isTorn := fun x => !((decide (a ≤ x / 4 * 4 ∧ x / 4 * 4 + 4 ≤ a + bs.length))) && s.floorWordBad fp x
  let s1 := bs.zipIdx.foldl (fun (t : State) e =>
    let x := a + e.2
    if !ok x || isTorn x then t
    else { t with
      fstore := bput t.fstore (fp * 8388608 + x) (BitVec.ofNat 8 e.1.1)
      fbad := if e.1.2 then mput t.fbad (fp * 2097152 + x / 4) 1 else if x % 4 = 0 then mdel t.fbad (fp * 2097152 + x / 4) else t.fbad }) s
  let s2 := s.floorFails fp req k a bs.length s1
  match torn with
  | some w => s2.segParity fp w.1 k
  | none => s2

/-- DMAOUT: a line whose source shows a parity error is written marked bad, and the step ends under R134 (R175). -/
def State.dmaOut (s : State) (pg : Nat) (k : Kernel) (d : Dma) : State :=
  let a := d.vatAddr
  let s1 := if s.kdenied pg k a d.bytes then s.denyVat k else s
  let byte := fun j => (s.kbyte pg k (a + j), s.kbad pg k (a + j) 1)
  let s2 := if d.floorStore then s1.floorTake (floorOfVat pg) (s.logicalOf pg) d.ext k ((List.range d.bytes).map byte)
    else
      ((linesOf d.ext d.bytes).foldl (fun (x : State × Bool) l =>
        let lo := max l d.ext
        let hi := min (l + 64) (d.ext + d.bytes)
        if !x.1.isLocalVa l then x
        else
          let fails := match x.1.xlate k.ctx lo true false (hi - lo) with
            | .ok _ => false
            | .error _ => true
          if fails && x.2 then x
          else
            let bs := (List.range (hi - lo)).map fun i => byte (lo - d.ext + i)
            ((x.1.ctxWrite (dieOf pg) k.ctx lo false (bs.map fun b => b.1) (bs.any fun b => b.2) {} (some k.step)).1, x.2 || fails)) (s1, false)).1
  match (List.range d.bytes).find? fun j => (byte j).2 with
  | some j => s2.storeParity pg k (a + j)
  | none => s2

/-- A completion post: to a LOCAL group it leaves, to another it is held until END (R153); one that does not translate is discarded with
SPILE_RANGE (R143). A kernel whose run has ended posts nothing. -/
def State.dmaPost (s : State) (pg src : Nat) (k : Kernel) (post : Option Nat) : State :=
  match post, s.dmaKernel pg src with
  | some v, some k1 =>
    if 2 ≤ src || k1.step != k.step || k1.slot != k.slot then s
    else match s.spMap k.ctx v with
      | some (_, false) => (s.setDmaKernel pg src { k1 with heldPosts := k1.heldPosts ++ [(v, 1)] }).count (pgSPL k.ctx) 0x05C 1
      | _ => s.spSend pg k.ctx v (.post 1)
  | _, _ => s

/-- DMA_COMPLETE: DMA `index` of the kernel named by `src` completes. `lines` gives the outcomes of line reads that did not pass at once, `remote`
the lines that remote accesses brought (R517); remote writes left with their own accesses. -/
def execDmaComplete (v : VatId) (src : Fin 3) (index : Nat) (lines : List (Nat × LineOut)) (remote : List (Nat × List Byte)) (s : State) : Result :=
  .next (
    let pg := vatPg v
    match s.dmaKernel pg src.val with
    | none => s
    | some k =>
      match k.dmas[index]? with
      | none => s
      | some d =>
        let s1 := s.setDmaKernel pg src.val { k with dmas := k.dmas.eraseIdx index }
        let s2 := if d.out then s1.dmaOut pg k d else s1.dmaInto pg k d lines remote
        (s2.dmaPost pg src.val k d.post).restore pg)

end Sys2Proof.Machine
end

