-- ==== Sys2Proof/Machine/PowerOn.lean ====
section
/-! DEFINITION. What a loss of the main supply and a MODULE reset leave: flash, fuses, the repair record, the management domain (R421, R446, R470, R538). -/

namespace Sys2Proof.Machine

/-- The field, among those of a page kind, that lies at an offset and bit. -/
def fieldOf (k : PageKind) (off lo : Nat) : Option Field :=
  (headerFields ++ blockFields k).find? fun fd => fd.lo == lo && (fd.entryAt off).isSome

/-- The page, kind and field of a register entry. -/
def entryField (e : Nat × Nat) : Option (Nat × PageKind × Field) :=
  let pg := e.1 / 131072
  match pageKind pg with
  | none => none
  | some k => (fieldOf k (e.1 % 131072 / 32) (e.1 % 32)).map fun fd => (pg, k, fd)

/-- Fields whose value the repair record gives (R470). -/
def recordField (fd : Field) : Bool :=
  fd = F.VAT_TUN_MAP_Q0 || fd = F.VAT_TUN_MAP_Q1 || fd = F.VAT_TUN_MAP_Q2 || fd = F.VAT_TUN_MAP_Q3 || fd = F.VAT_BANK_OWNER_RETIRED ||
  fd = F.VAT_BANKS_SVC || fd = F.FLOOR_SEG_SPARES || fd = F.FLOOR_SEG_PHYS || fd = F.LPG_CH_SVC || fd = F.LPG_CH_RETIRED || fd = F.XLT_RSET_NOW ||
  fd = F.XLT_RET_LIST_VALID || fd = F.XLT_RET_LIST_CH || fd = F.XLT_RETIRED_FRAMES || fd = F.HOST_LANE_EXCL || fd = F.BIST_RECORD_FREE

/-- The page is a floor or vat page of a floor with a retired vat: its map stays as the retirement left it. -/
def State.remapped (s : State) (pg : Nat) : Bool :=
  decide (0x1000 ≤ pg ∧ pg < 0x5000 ∧ 0x100 ≤ pg % 0x1000) &&
    (List.range 9).any fun v => nget s.retired (pg - pg % 0x20 + 1 + v) == 1

def mapField (fd : Field) : Bool :=
  fd = F.FLOOR_VAT_MAP || fd = F.FLOOR_IN_SVC || fd = F.FLOOR_USABLE || fd = F.FLOOR_SPARE || fd = F.VAT_LOGICAL

/-- Fields that stand in flash and fuses. -/
def flashField (fd : Field) : Bool := fd = F.GAU_HSS_TOP_END || fd = F.FW_COMP_FUSED_SVN || fd = F.GAU_OWNER_SET || fd = F.GAU_PUBLISHERS || fd = F.FW_ROM_SVN

/-- What the loss of the main supply leaves of the register entries. -/
def State.flashKeeps (s : State) (e : Nat × Nat) : Bool :=
  match entryField e with
  | some (pg, k, fd) =>
    (k == .gau && flashField fd) || (k != .gau && recordField fd) || (mapField fd && s.remapped pg)
  | none => false

/-- The management domain: its pages' own state, which the standby rail keeps (R535, R538). -/
def mgmtPage (pg : Nat) : Bool := pg == pgMGMT || pg == pgPOWER || pg == pgTHERMAL

/-- What a MODULE reset keeps besides: `CAB.INDEX`, `CM.CLAIM_LAST`, and what the management domain shows. -/
def State.moduleKeeps (s : State) (e : Nat × Nat) : Bool :=
  s.flashKeeps e || (match entryField e with
  | some (pg, k, fd) => (k == .cab && (fd = F.CAB_INDEX || fd = F.CAB_INDEX_VALID)) || (k == .cm && fd = F.CM_CLAIM_LAST) ||
      (mgmtPage pg && fd.acc = .ro && fd != F.EVT_RAW)
  | none => false)

/-- Staging leaves its slot INVALID; an activation that has begun is undone, one only announced is withdrawn (R546). -/
def State.flashFw (s : State) : FwSt :=
  let slots := match s.fw.staging with
    | some g => mput s.fw.slots (2 * g.comp + g.slot) { state := 3, sigOk := false, img := g.img }
    | none => s.fw.slots
  { slots := slots, active := s.fw.active, fused := s.fw.fused, undone := s.fw.undone || s.fw.act.any fun a => a.begun, lastAct := s.fw.lastAct,
    bootLog := s.fw.bootLog }

/-- Pages of units that the repair record retires. -/
def State.recordRetired (s : State) : AMap Nat := s.retired.filter fun e => e.2 == 1

/-- Volatile state at its reset values; flash, fuses and the repair record stay. -/
def State.cleared (s : State) (keeps : Nat × Nat → Bool) : State :=
  { pending := s.pending, variant := s.variant, now := s.now, freeIdx := s.freeIdx, msgs := s.msgs, rdata := s.rdata
    regs := s.regs.filter keeps
    retired := s.recordRetired
    host := { mem := s.host.mem, perstHigh := s.host.perstHigh }
    lp := { keyNext := s.lp.keyNext, frames := s.lp.frames.filter fun e => e.2.otype == 3 }
    keg := { secretNext := s.keg.secretNext }
    gau := { ownerKey := s.gau.ownerKey, ownerSeq := s.gau.ownerSeq, publishers := s.gau.publishers, bootCount := s.gau.bootCount,
             topNext := s.rd pgGAU F.GAU_HSS_TOP_END, bottomTree := s.gau.bottomTree, nextImage := s.gau.nextImage }
    fw := s.flashFw
    bist := { seq := s.bist.seq, savedPos := s.bist.savedPos, savedPasses := s.bist.savedPasses, planesBad := s.bist.planesBad,
              bankFix := s.bist.bankFix, ringBad := s.bist.ringBad, passClk := s.now }
    pwr := s.pwr, start := s.start }

/-- The states of retired links and Cellarmasters show on their pages. -/
def State.showRetired (s : State) : State :=
  s.retired.foldl (fun (t : State) e => match pageKind e.1 with
    | some .keg => t.wr e.1 F.KEG_STATE kegRETIRED
    | some .cm => t.wr e.1 F.CM_ROLE roleRetired
    | _ => t) s

/-- The capability fields follow the repair record before any unit enters service: no change is reported. -/
def State.recountQuiet (s : State) : State :=
  ((s.recount).wr pgMOD F.EVT_RAW (s.rd pgMOD F.EVT_RAW)).wr pgBIST F.EVT_RAW (s.rd pgBIST F.EVT_RAW)

/-- The levels of the mate contacts, as `MGMT.MATE` shows them (R537). -/
def State.showMate (s : State) : State := s.wr pgMGMT F.MGMT_MATE (boolNat s.pwr.earlyHigh + 2 * boolNat s.pwr.lateHigh)

/-- The main regulators switch off; all that they feed loses its state, every key with it (R524, R532, R536). `cause`: 3 supply loss, 4 trip. -/
def State.mainOffNow (s : State) (cause : Nat) : State :=
  let s1 := (s.cleared fun e => s.flashKeeps e || (match entryField e with
    | some (pg, _, fd) => mgmtPage pg && fd.acc = .ro && fd != F.EVT_RAW
    | none => false)).showRetired
  { s1 with
    ctrs := s.ctrs.filter fun e => mgmtPage (e.1 / 4096)
    pwr := { s.pwr with mainOff := true, off := cause, ballast := false }
    start := { s.start with kind := 0 } }

/-- A POWER-ON reset: the standby rail comes up, the management domain with it; the sequence waits for the main regulators. Cause by R548. -/
def State.powerOn (s : State) (cause : Nat) : State :=
  let s1 := (s.cleared s.flashKeeps).showRetired
  let s2 := { s1 with
    pwr := { mainOff := true, earlyHigh := s.pwr.earlyHigh, lateHigh := s.pwr.lateHigh, contactClk := s.now, lastTrip := cause == 4, vin := s.pwr.vin,
             hot := s.pwr.hot, cool := s.pwr.cool, failing := s.pwr.failing }
    start := { kind := 1, phaseClk := s.now, startClk := s.now } }
  (s2.showMate.wr pgMOD F.MOD_RESET_CAUSE cause).recountQuiet

/-- A MODULE reset: the main domain starts afresh; the pass position is reloaded from flash. -/
def State.moduleReset (s : State) (cause : Nat) (low : Bool) : State :=
  let s1 := (s.cleared s.moduleKeeps).showRetired
  let s2 := { s1 with
    ctrs := s.ctrs.filter fun e => mgmtPage (e.1 / 4096)
    start := { kind := 2, phaseClk := s.now, startClk := s.now, modLow := low } }
  let s3 := (s2.wr pgBIST F.BIST_PASS_POS s.bist.savedPos).wr pgBIST F.BIST_PASSES s.bist.savedPasses
  (s3.wr pgMOD F.MOD_RESET_CAUSE cause).recountQuiet

/-- The ROM starts: phase 1 begins, `BOOT_COUNT` advances, RECOVER_N is sampled (R421, R458, R541). The boot log, newest entry first, gains one (0); its last
entries show as `TRIP_LAST` and `FW.LAST_BOOT.RECOVERY`. -/
def State.romStart (s : State) (recover : Bool) : State :=
  let s1 := (s.wr pgMOD F.MOD_START_PHASE 1).wr pgTHERMAL F.THM_STATUS_TRIP_LAST (boolNat s.pwr.lastTrip)
  let s2 := s1.wr pgGAU F.FW_LAST_BOOT_RECOVERY (boolNat (s.fw.bootLog.head? == some 1))
  { s2 with
    gau := { s2.gau with bootCount := s2.gau.bootCount + 1 }
    fw := { s2.fw with bootLog := 0 :: s2.fw.bootLog }
    start := { s2.start with phaseClk := s2.now, startClk := s2.now, late := false, recover := recover } }

end Sys2Proof.Machine
end

