-- ==== Sys2Proof/Machine/Power.lean ====
section
/-! DEFINITION. The 12 V input, the governor, sheds, the thermal loop and trip, the orphan cap, pulling a tray, the management interface (R522–R537). -/

namespace Sys2Proof.Machine

/-! What every limit shares -/

/-- Is the input within 10.8–13.2 V (R524)? -/
def State.vinOk (s : State) : Bool := decide (10800 ≤ s.pwr.vin ∧ s.pwr.vin ≤ 13200)

/-- `PWR.STATUS.C0_OK` (R529): a voltage sample has been taken and is in range, the inlet is in range, no shed, no class-0 vat idled in this period. -/
def State.showC0 (s : State) : State :=
  let v := s.rd pgPOWER F.PWR_VIN_MV
  s.wr pgPOWER F.PWR_STATUS_C0_OK (boolNat (decide (10800 ≤ v ∧ v ≤ 13200) && s.on pgTHERMAL F.THM_STATUS_COOLANT_OK &&
    !s.shedding && !s.on pgPOWER F.PWR_STATUS_C0_THROTTLED))

/-- A class-0 kernel runs in a vat of the pages that satisfy `p`. -/
def State.c0Runs (s : State) (p : Nat → Bool) : Bool := s.vats.any fun e => p e.1 && e.2.kern.any fun k => k.cls == 0

/-- An idle clock falls on a class-0 kernel (R529): once in a period it is told and counted. -/
def State.c0Idled (s : State) : State :=
  if s.on pgPOWER F.PWR_STATUS_C0_THROTTLED then s
  else (((s.wr pgPOWER F.PWR_STATUS_C0_THROTTLED 1).count pgPOWER 0x05C 1).raise pgPOWER 5).showC0

/-- A highest-value counter takes a value. -/
def State.highest (s : State) (pg off v : Nat) : State := if s.ctr pg off < v then { s with ctrs := nput s.ctrs (pg * 4096 + off) v } else s

/-! Sheds (R524, R530) -/

/-- A shed begins: SHED in the ceiling, ballast off. Under PULL there is none. -/
def State.startShed (s : State) : State :=
  if s.shedding || s.pulled then s
  else
    let s1 := { s with pwr := { s.pwr with ballast := false } }
    ((((s1.wr pgPOWER F.PWR_STATUS_SHED 1).raise pgPOWER 2).count pgPOWER 0x054 1).showCeiling).showC0

/-- PWR_WARN_LOW: the contact has been low for 10 µs. -/
def execPwrWarnLow (s : State) : Result :=
  .next (if s.pwr.standbyOff then s else { s with pwr := { s.pwr with warnLow := true } }.startShed)

/-- SHED_END: PWR_WARN_N has been high for 10 ms, if it was low, and the input allows. -/
def execShedEnd (s : State) : Result :=
  .next (
    let s1 := { s with pwr := { s.pwr with warnLow := false } }
    let allowed := !s.pwr.supShed || s.pwr.okClk.any fun c => decide (c + 10 * clkMs ≤ s.now)
    if !s.shedding || s.pulled || !allowed then s1
    else
      let s2 := { s1 with pwr := { s1.pwr with supShed := false } }
      (((s2.wr pgPOWER F.PWR_STATUS_SHED 0).raise pgPOWER 3).showCeiling).showC0)

/-! The input (R524) -/

/-- A stamp of the clock since which a condition holds. -/
def since (old : Option Nat) (holds : Bool) (now : Nat) : Option Nat := if holds then (if old.isSome then old else some now) else none

/-- A condition has held for `n` clocks. -/
def heldFor (c : Option Nat) (n now : Nat) : Bool := c.any fun x => decide (x + n ≤ now)

/-- The stamps that one sample moves. -/
def PwrSt.sample (p : PwrSt) (mv now : Nat) : PwrSt :=
  { p with
    vin := mv
    lowClk := since p.lowClk (decide (mv < 10800)) now
    highClk := since p.highClk (decide (13200 < mv)) now
    outClk := since p.outClk (decide (mv < 9600 ∨ 14500 < mv)) now
    okClk := since p.okClk (decide (11000 ≤ mv)) now
    lowTold := p.lowTold && decide (mv < 10800)
    highTold := p.highTold && decide (13200 < mv)
    contactClk := if mv < 10800 ∨ 13200 < mv then now else p.contactClk }

/-- SUPPLY_SAMPLE: a sample of voltage (mV) and current (mA). -/
def execSupplySample (mv ma : Nat) (s : State) : Result :=
  .next (
    if s.pwr.standbyOff then s
    else
      let p := s.pwr.sample mv s.now
      let s1 := { s with pwr := { p with sum := p.sum + mv * ma, n := p.n + 1 } }
      let s2 := ((s1.wr pgPOWER F.PWR_VIN_MV mv).wr pgPOWER F.PWR_IIN_MA ma).showC0
      if heldFor p.outClk (20 * clkUs) s.now then
        (let t := if s2.pwr.mainOff then s2 else s2.dropLink.mainOffNow 3
        { t with pwr := { t.pwr with standbyOff := true, lastTrip := false } })
      else if heldFor p.lowClk (100 * clkUs) s.now && !p.lowTold && !p.mainOff then
        { s2 with pwr := { s2.pwr with lowTold := true, supShed := true } }.raise pgPOWER 0 |>.startShed
      else if heldFor p.highClk (100 * clkUs) s.now && !p.highTold then
        { s2 with pwr := { s2.pwr with highTold := true } }.raise pgPOWER 1
      else s2)

/-! The governor (R526–R529) -/

/-- Joules out of energy in units of 10^-10 J. -/
abbrev tenthNanoJ : Nat := 10 ^ 10

/-- The averaged power of the interval enters `PWR.PIN_W` and the energy counter. -/
def State.closeInterval (s : State) (avg : Nat) : State :=
  let e := s.pwr.energy + avg
  let s1 := ({ s with pwr := { s.pwr with sum := 0, n := 0, avg := avg, energy := e % tenthNanoJ } }.count pgPOWER 0x04C (e / tenthNanoJ)).wr pgPOWER
    F.PWR_PIN_W (avg / 1000000)
  s1.highest pgPOWER 0x060 (s1.rd pgPOWER F.PWR_PIN_W)

/-- The ballast of the interval: how much it drew is given nowhere, a free value up to the whole. -/
def State.ballastUsed (s : State) : State :=
  if s.pwr.ballast then
    let (s1, x) := s.fresh 32
    let e := s1.pwr.ballastEnergy + x % (s1.pwr.avg + 1)
    ({ s1 with pwr := { s1.pwr with ballastEnergy := e % tenthNanoJ } }).count pgPOWER 0x058 (e / tenthNanoJ)
  else s

/-- Is the averaged power over the ceiling? -/
def State.overCeiling (s : State) : Bool := decide (s.rd pgPOWER F.PWR_CEILING_W * 1000000 < s.pwr.avg)

/-- The governor's answer to an interval whose predecessor averaged `prev` µW, outside a shed: one step of 1/64 up when the power rose faster than the ramp or
is over the ceiling, one down otherwise; ballast against a fall, or below the standing load of class 0. -/
def State.govern (s : State) (prev : Nat) : State :=
  let avg := s.pwr.avg
  let ramp := s.rd pgPOWER F.PWR_RAMP_W_PER_MS * 100000
  let idle := s.rd pgPOWER F.PWR_IDLE_64
  let up := decide (prev + ramp < avg) || s.overCeiling
  let idle' := if up then min 63 (idle + 1) else idle - 1
  let standing := !s.resv.isEmpty && decide (avg < s.rd pgPOWER F.PWR_C0_STANDING_W * 1000000)
  let ballast := decide (avg + ramp < prev) || standing
  let limiting := idle' != 0 || ballast
  let s1 := ({ s with pwr := { s.pwr with ballast := ballast } }.wr pgPOWER F.PWR_IDLE_64 idle').wr pgPOWER F.PWR_STATUS_RAMP_LIMIT (boolNat limiting)
  let s2 := if limiting then s1.count pgPOWER 0x050 1 else s1
  let s3 := if prev + ramp < avg ∨ avg + ramp < prev then s2.raise pgPOWER 6 else s2
  if idle = 63 && s3.overCeiling && s3.c0Runs (fun _ => true) then s3.c0Idled else s3

/-- POWER_INTERVAL: 100 µs have passed. In a shed the governor is bypassed: the idle fraction is a free value, and class-0 vats are idled too. -/
def execPowerInterval (s : State) : Result :=
  .next (
    if s.pwr.standbyOff || s.pwr.n == 0 then s
    else
      let prev := s.pwr.avg
      let s1 := (s.closeInterval (s.pwr.sum / s.pwr.n)).ballastUsed
      if s1.pulled || s1.pwr.mainOff then s1
      else if s1.shedding then
        let (s2, x) := s1.fresh 6
        let s3 := (s2.wr pgPOWER F.PWR_IDLE_64 x).wr pgPOWER F.PWR_STATUS_RAMP_LIMIT 0
        if s3.c0Runs fun _ => true then s3.c0Idled else s3
      else s1.govern prev)

/-! The thermal loop (R531) -/

/-- A reading that a working sensor gives. -/
def sensorOk (r : Int) : Bool := decide (-40 ≤ r ∧ r ≤ 150)

/-- Sensor `i` has sampled `r`; a sensor that gives no reading fails. -/
def readingOf (js : List Int) (i : Nat) : Int := js.getD i 1000

/-- The sensors of die `n` in service, 4 for the hub. -/
def State.sensorsOf (s : State) (n : Nat) : List Nat :=
  if n = 4 then (List.range 8).map (48 + ·) else if s.hasUnit (pgDIE n) then (List.range 12).map (12 * n + ·) else []

/-- The hottest reading of working sensors. -/
def hottestOf (js : List Int) (is : List Nat) : Option Int :=
  (is.filter fun i => sensorOk (readingOf js i)).foldl (fun a i => match a with
    | some h => some (max h (readingOf js i))
    | none => some (readingOf js i)) none

/-- What each sensor reads: its own reading, or its die's hottest working sensor plus 10 °C; none on a die without one. -/
def State.junctions (s : State) (js : List Int) : List (Nat × Int) :=
  (List.range 5).flatMap fun n => match hottestOf js (s.sensorsOf n) with
    | some h => (s.sensorsOf n).map fun i => (i, if sensorOk (readingOf js i) then readingOf js i else h + 10)
    | none => []

/-- A temperature as its register shows it: below 0 °C the spec gives no encoding, and the value is free. -/
def State.showTemp (s : State) (fd : Field) (i : Nat) (r : Int) : State :=
  if 0 ≤ r then s.wri pgTHERMAL fd i r.toNat
  else
    let (t, x) := s.fresh 8
    t.wri pgTHERMAL fd i x

/-- The hottest junction: sensor and temperature; the lowest number among equals. -/
def hottest (xs : List (Nat × Int)) : Option (Nat × Int) :=
  xs.foldl (fun a x => match a with
    | some h => if h.2 < x.2 then some x else some h
    | none => some x) none

/-- `THM.HOT_SENSOR` of a sensor number. -/
def hotSensor (i : Nat) : Nat := if i < 48 then i / 12 * 16 + i % 12 else 0xF0 + (i - 48)

/-- Is a vat page throttled by a hot sensor? A hub sensor reaches the vats when its fraction has reached 32/64. -/
def throttles (i idle pg : Nat) : Bool := if i < 48 then pg / 4096 == 1 + i / 12 else decide (32 ≤ idle)

/-- The loop's step for the hottest junction. -/
def State.thermalStep (s : State) (i : Nat) (c : Int) : State :=
  let lim : Int := s.rd pgTHERMAL F.THM_THROTTLE_C
  let idle := s.rd pgTHERMAL F.THM_IDLE_64
  let s1 :=
    if lim ≤ c then
      (let t := (s.wr pgTHERMAL F.THM_IDLE_64 (min 63 (idle + 1))).wr pgTHERMAL F.THM_STATUS_THROTTLING 1
      if idle = 0 then t.raise pgTHERMAL 0 else t)
    else if c ≤ lim - 3 ∧ idle ≠ 0 then
      (let t := s.wr pgTHERMAL F.THM_IDLE_64 (idle - 1)
      if idle = 1 then (t.wr pgTHERMAL F.THM_STATUS_THROTTLING 0).raise pgTHERMAL 1 else t)
    else s
  let now := s1.rd pgTHERMAL F.THM_IDLE_64
  if now = 0 then s1
  else
    let s2 := s1.count pgTHERMAL 0x04C 1
    if s2.c0Runs (throttles i now) then s2.c0Idled else s2

/-- The coolant sensors (R533). -/
def State.coolant (s : State) (inlet outlet : Int) : State :=
  let p := s.pwr
  let s1 := { s with pwr := { p with
      warmClk := since p.warmClk (decide (45 < inlet)) s.now
      coldClk := since p.coldClk (decide (inlet < 15)) s.now
      warmTold := p.warmTold && decide (45 < inlet)
      coldTold := p.coldTold && decide (inlet < 15) } }
  let s2 := (s1.wr pgTHERMAL F.THM_STATUS_COOLANT_OK (boolNat (decide (15 ≤ inlet ∧ inlet ≤ 45)))).highest pgTHERMAL 0x054 inlet.toNat
  ((s2.showTemp F.THM_INLET_C 0 inlet).showTemp F.THM_OUTLET_C 0 outlet).showC0

/-- THERMAL_SAMPLE: the readings of the junction sensors by number, a reading out of range for a sensor that does not respond, and the coolant's. -/
def execThermalSample (junctions : List Int) (inlet outlet : Int) (s : State) : Result :=
  .next (
    if s.pwr.standbyOff then s
    else
      let xs := s.junctions junctions
      let bad := (List.range 5).flatMap fun n => (s.sensorsOf n).filter fun i => !sensorOk (readingOf junctions i)
      let fresh := bad.filter fun i => !s.pwr.failing.contains i
      let hot := (xs.filter fun x => decide (115 ≤ x.2)).map (·.1)
      let dead := (List.range 4).filter fun n => s.hasUnit (pgDIE n) && (hottestOf junctions (s.sensorsOf n)).isNone
      let s1 := { s with pwr := { s.pwr with failing := bad, hot := hot, cool := xs.all (fun x => decide (x.2 ≤ 95)), tripDue := s.pwr.tripDue || hot.any fun i => s.pwr.hot.contains i } }
      let s2 := (if fresh.isEmpty then s1 else (s1.raise pgTHERMAL 5).count pgTHERMAL 0x058 fresh.length)
      let s3 := xs.foldl (fun t x => t.showTemp F.THM_SENSOR_C x.1 x.2) s2
      let s4 := match hottest xs with
        | none => s3
        | some (i, c) =>
          let t := (s3.showTemp F.THM_HOT_C 0 c).wr pgTHERMAL F.THM_HOT_SENSOR (hotSensor i)
          let u := t.highest pgTHERMAL 0x050 c.toNat
          if u.pwr.mainOff then u else u.thermalStep i c
      let s5 := s4.coolant inlet outlet
      if s5.pwr.mainOff then s5 else dead.foldl (fun t n => (t.retireDie n).recount) s5)

/-! Keys, trips, pulls (R406, R532, R536) -/

/-- Every key slot is overwritten, with every DRBG, sealing and link key; every session ends with its secrets (R406, R433). -/
def State.destroyAllKeys (s : State) : State :=
  let s1 := { s with
    lp := { s.lp with keys := [] }
    drbg := []
    gau := { s.gau with seqs := [] }
    keg := { s.keg with jobs := s.keg.jobs.map fun (e : Nat × Job) => (e.1, { e.2 with keys := none }) } }
  s1.showKeys.endSessions

/-- Every job aborts; after the ABORT messages the keg links are silent. -/
def State.silence (s : State) : State :=
  let s1 := s.abortJobs fun e => !e.2.aborted
  { s1 with keg := { s1.keg with silent := true } }

/-- THERMAL_TRIP: keys, ABORT, main regulators off; the cause goes to the boot log (3). -/
def execThermalTrip (s : State) : Result :=
  .next (
    if !s.pwr.tripDue || s.pwr.mainOff then s
    else
      let s1 := s.destroyAllKeys.silence
      let s2 := { s1 with fw := { s1.fw with bootLog := 3 :: s1.fw.bootLog } }.dropLink.mainOffNow 4
      { s2 with pwr := { s2.pwr with tripDue := false, tripped := true, lastTrip := true } })

/-- PULL: MATE_EARLY_N has been high for 10 µs. -/
def execPull (s : State) : Result :=
  .next (
    if s.pwr.standbyOff || s.pwr.earlyHigh then s
    else
      let s1 := { s with pwr := { s.pwr with earlyHigh := true, earlyClk := none, ballast := false } }.showMate
      if s1.pwr.mainOff then s1
      else
        let s2 := (s1.wr pgPOWER F.PWR_STATUS_PULL 1).raise pgPOWER 7
        let s3 := s2.destroyAllKeys.silence
        (s3.vats.map (·.1)).foldl (fun t pg => t.holdVat pg true) s3)

/-- MATE_EARLY_RETURN: MATE_EARLY_N is low again. After 50 ms the module resets as after MOD_RESET_N (MODULE_RESET). -/
def execMateEarlyReturn (s : State) : Result :=
  .next (
    if s.pwr.standbyOff || !s.pwr.earlyHigh then s
    else { s with pwr := { s.pwr with earlyHigh := false, earlyClk := if s.pwr.lateHigh then none else some s.now, contactClk := s.now } }.showMate)

/-- MATE_LATE_BREAK: after PULL, or without it, the main regulators switch off. -/
def execMateLateBreak (s : State) : Result :=
  .next (
    if s.pwr.standbyOff || s.pwr.lateHigh then s
    else
      let s1 := { s with pwr := { s.pwr with lateHigh := true, earlyClk := none } }.showMate
      if s1.pwr.mainOff then s1
      else
        let s2 := s1.dropLink.mainOffNow 3
        { s2 with pwr := { s2.pwr with lastTrip := false } })

/-! Alarms (R533, R534) -/

/-- COOLANT_ALARM: the inlet has been out of range for 1 s. -/
def execCoolantAlarm (s : State) : Result :=
  .next (
    if heldFor s.pwr.warmClk clkS s.now && !s.pwr.warmTold then { s with pwr := { s.pwr with warmTold := true } }.raise pgTHERMAL 2
    else if heldFor s.pwr.coldClk clkS s.now && !s.pwr.coldTold then { s with pwr := { s.pwr with coldTold := true } }.raise pgTHERMAL 3
    else s)

/-- THERM_ALERT_LOW: the contact has been low for 10 µs. -/
def execThermAlertLow (s : State) : Result :=
  .next (
    if s.pwr.standbyOff || s.on pgTHERMAL F.THM_STATUS_ALERT_IN then s
    else (((s.wr pgTHERMAL F.THM_STATUS_ALERT_IN 1).wr pgPOWER F.PWR_STATUS_ALERT_CAP 1).raise pgTHERMAL 4).showCeiling)

/-- THERM_ALERT_CLEAR: it has been high for 1 s. -/
def execThermAlertClear (s : State) : Result :=
  .next (
    if s.pwr.standbyOff then s
    else ((s.wr pgTHERMAL F.THM_STATUS_ALERT_IN 0).wr pgPOWER F.PWR_STATUS_ALERT_CAP 0).showCeiling)

/-- ORPHAN_TIMEOUT: `MGMT.HB_LIMIT_S` without a heartbeat, from the completion of start-up on. -/
def execOrphanTimeout (s : State) : Result :=
  .next (
    if s.pwr.standbyOff || !s.ready || !s.on pgMGMT F.MGMT_HB_REQUIRED || s.on pgPOWER F.PWR_STATUS_ORPHAN ||
        decide (s.now < s.pwr.hbClk + s.rd pgMGMT F.MGMT_HB_LIMIT_S * clkS) then s
    else (((s.wr pgPOWER F.PWR_STATUS_ORPHAN 1).raise pgMGMT 0).raise pgPOWER 4).showCeiling)

/-! The management interface (R535). Answers are messages of kind 20 (MCTP control) and 21 (PLDM): the command, its completion code, and what it carries. Command
and completion codes are those of the DMTF standards (assumption log 53). -/

/-- An MCTP message has come over SMBus: counted. Without the standby rail nothing answers. -/
def State.mctp (s : State) (body : State → State) : State := if s.pwr.standbyOff then s else body (s.count pgMGMT 0x04C 1)

def State.mctpReply (s : State) (ws : List Nat) : State := { s with msgs := .reply 20 ws :: s.msgs }

/-- A PLDM command that the module serves. -/
def State.pldm (s : State) (type cmd cc : Nat) (ws : List Nat) : State :=
  s.mctp fun t => { t.count pgMGMT 0x054 1 with msgs := .reply 21 (type :: cmd :: cc :: ws) :: t.msgs }

def execMctpSetEndpointId (eid : Byte) (s : State) : Result :=
  .next (s.mctp fun t => { t with pwr := { t.pwr with eid := eid.toNat } }.mctpReply [1, 0, eid.toNat])

def execMctpGetEndpointId (s : State) : Result := .next (s.mctp fun t => t.mctpReply [2, 0, t.pwr.eid])

/-- Types 0 and 1 have a version; which one, the spec does not say. Another type gets the standard's completion code 0x80. -/
def execMctpGetVersionSupport (type : Nat) (s : State) : Result :=
  .next (s.mctp fun t => if type ≤ 1 then t.mctpReply [4, 0, Config.digest 20 [type]] else t.mctpReply [4, 0x80])

def execMctpGetMessageTypeSupport (s : State) : Result := .next (s.mctp fun t => t.mctpReply [5, 0, 0, 1])

/-- MCTP_DROP: a message of a type other than control and PLDM. -/
def execMctpDrop (type : Nat) (s : State) : Result :=
  .next (s.mctp fun t => if type ≤ 1 then t else (t.count pgMGMT 0x050 1).raise pgMGMT 2)

/-- The terminus ID, the versions, the PDRs and the FRU data are not given: opaque constants. -/
def execPldmGetTid (s : State) : Result := .next (s.pldm 0 2 0 [Config.digest 21 []])

def pldmTypes : List Nat := [0, 2, 4]

/-- Error: the requested PLDM type is not supported. -/
abbrev pldmBadType : Nat := 0x83

def execPldmGetPldmVersion (type : Nat) (s : State) : Result :=
  .next (if pldmTypes.contains type then s.pldm 0 3 0 [Config.digest 22 [type]] else s.pldm 0 3 pldmBadType [])

def execPldmGetPldmTypes (s : State) : Result := .next (s.pldm 0 4 0 pldmTypes)

/-- The commands of each supported type. -/
def pldmCommands (type : Nat) : List Nat :=
  if type = 0 then [2, 3, 4, 5] else if type = 2 then [0x0B, 0x11, 0x21, 0x31, 0x39, 0x51] else if type = 4 then [2] else []

def execPldmGetPldmCommands (type : Nat) (s : State) : Result :=
  .next (if pldmTypes.contains type then s.pldm 0 5 0 (pldmCommands type) else s.pldm 0 5 pldmBadType [])

def execPldmGetPdr (handle : Nat) (s : State) : Result := .next (s.pldm 2 0x51 0 [handle, Config.digest 23 [handle]])

/-- A numeric sensor reads what its register holds. -/
def State.numSensor (s : State) : NumSensor → Nat
  | .voltage => s.rd pgPOWER F.PWR_VIN_MV
  | .current => s.rd pgPOWER F.PWR_IIN_MA
  | .power => s.rd pgPOWER F.PWR_PIN_W
  | .hottest => s.rd pgTHERMAL F.THM_HOT_C
  | .inlet => s.rd pgTHERMAL F.THM_INLET_C
  | .outlet => s.rd pgTHERMAL F.THM_OUTLET_C

def execPldmGetSensorReading (sensor : NumSensor) (s : State) : Result := .next (s.pldm 2 0x11 0 [s.numSensor sensor])

/-- A state sensor: the grade; the throttle in force, a shed before the thermal loop, a cap, the ramp; the boot cause, a trip before recovery and fallback;
the mate levels. -/
def State.stateSensor (s : State) : StateSensor → Nat
  | .grade => s.rd pgMOD F.MOD_GRADE
  | .throttle =>
    if s.shedding then 4
    else if s.on pgTHERMAL F.THM_STATUS_THROTTLING then 3
    else if s.rd pgPOWER F.PWR_IDLE_64 ≠ 0 ∧ s.overCeiling = true then 2
    else if s.on pgPOWER F.PWR_STATUS_RAMP_LIMIT then 1
    else 0
  | .bootCause =>
    if s.on pgTHERMAL F.THM_STATUS_TRIP_LAST then 3 else if s.fw.recovery then 1 else if s.on pgGAU F.FW_LAST_BOOT_FALLBACK then 2 else 0
  | .mate => boolNat s.pwr.earlyHigh + 2 * boolNat s.pwr.lateHigh

def execPldmGetStateSensorReadings (sensor : StateSensor) (s : State) : Result := .next (s.pldm 2 0x21 0 [s.stateSensor sensor])

/-- The cabinet index: refused with ERROR_INVALID_DATA once it is locked (R517). -/
def execPldmSetNumericEffecterValue (v : Word) (s : State) : Result :=
  .next (if s.keg.indexLocked || s.pwr.mainOff then s.pldm 2 0x31 2 [] else (s.setIndex (v.toNat % 64 + 2 ^ 31)).pldm 2 0x31 0 [])

/-- A heartbeat write (R534): the first one ends the orphan state. -/
def State.heartbeat (s : State) : State :=
  let s1 := { s with pwr := { s.pwr with hbClk := s.now } }.count pgMGMT 0x058 1
  if s1.on pgPOWER F.PWR_STATUS_ORPHAN then ((s1.wr pgPOWER F.PWR_STATUS_ORPHAN 0).raise pgMGMT 1).showCeiling else s1

def execPldmSetStateEffecterStates (s : State) : Result :=
  .next (if s.pwr.standbyOff then s else s.heartbeat.pldm 2 0x39 0 [])

/-- The state-sensor values, in the order of R535. -/
def State.sensorStates (s : State) : List Nat := [StateSensor.grade, .throttle, .bootCause, .mate].map s.stateSensor

/-- The first state sensor whose value no platform event has told yet: SMB_ALERT_N is low while there is one. -/
def State.platformEvent (s : State) : Option Nat := (List.range 4).find? fun i => s.sensorStates.getD i 0 != s.pwr.told.getD i 0

/-- PollForPlatformEventMessage: the event that waits, if any: 1, the sensor and its value; else 0. -/
def execPldmPollPlatformEvent (s : State) : Result :=
  .next (if s.pwr.standbyOff then s
  else match s.platformEvent with
  | some i =>
    let told := (List.range 4).map fun j => if j = i then s.sensorStates.getD j 0 else s.pwr.told.getD j 0
    { s with pwr := { s.pwr with told := told } }.pldm 2 0x0B 0 [1, i, s.sensorStates.getD i 0]
  | none => s.pldm 2 0x0B 0 [0])

/-- The code of the variant, by its dies and codec engines (R4). -/
def Variant.code (v : Variant) : Nat := 16 * v.dies + v.codecs

def execPldmGetFruRecordTable (s : State) : Result :=
  .next (s.pldm 4 2 0 [Config.digest 24 [Variant.code s.variant], Variant.code s.variant, Config.digest 25 []])

/-- PLDM_UNSUPPORTED: ERROR_UNSUPPORTED_PLDM_CMD; it is not counted as served. -/
def execPldmUnsupported (type cmd : Nat) (s : State) : Result :=
  .next (s.mctp fun t => if (pldmCommands type).contains cmd then t else { t with msgs := .reply 21 [type, cmd, 5] :: t.msgs })

end Sys2Proof.Machine
end

