-- ==== Sys2Proof/Machine/Mark.lean ====
section
/-! DEFINITION. Period marks and slot edges: the actions of R27 and R28, the measured periods, substitute and flywheel marks, free run
(R27, R28, R61–R66, R73–R79, R552). -/

namespace Sys2Proof.Machine

/-! The period plan (R68, R74) -/

/-- A group of the plan runs only in slots of the active copy that permit its class; class 0 in its context's reserved slots. -/
def State.planAllowed (s : State) (classes : List Nat) (g : GroupPlan) : Bool :=
  classes.contains g.cls && decide (1 ≤ g.len ∧ g.start + g.len ≤ 64) && (List.range g.len).all fun i =>
    let e := s.slotEntry s.activeCopy (g.start + i)
    nbit (slotClassMask e) g.cls && (g.cls != 0 || (slotResValid e && g.ctxs == [slotResCtx e]))

/-- The group of class `c` that reaches the latest slot and still has slots. -/
def State.latestGroup (s : State) (c : Nat) : Option GroupPlan :=
  (s.gate.plan.filter fun (g : GroupPlan) => g.cls == c && decide (0 < s.groupLen g)).foldl (fun (a : Option GroupPlan) (g : GroupPlan) =>
    match a with
    | none => some g
    | some h => if h.start + s.groupLen h ≤ g.start + s.groupLen g then some g else some h) none

/-- Remove up to `n` slots of class `c` from the plan, from the latest backwards; each counts and leaves the lag. -/
def State.trimClass (s : State) (c off : Nat) : Nat → State
  | 0 => s
  | n + 1 =>
    match s.latestGroup c with
    | none => s
    | some g =>
      let s1 := { s with gate := { s.gate with trimmed := nadd s.gate.trimmed g.step 1 } }
      let s2 := (s1.wr pgTBASE F.TBASE_LAG (s.rd pgTBASE F.TBASE_LAG - 1)).count pgTBASE off 1
      s2.trimClass c off n

/-- R74: the lag is removed from class 3, then 2, then 1. -/
def State.trimPlan (s : State) : State :=
  let go := fun (t : State) (c off : Nat) => t.trimClass c off (t.rd pgTBASE F.TBASE_LAG)
  go (go (go s 3 0x068) 2 0x06C) 1 0x070

/-- Action 4 of R27: the plan of the unit in control; none without one. A flywheel mark of a stall replaces only the groups of its own classes. -/
def State.issuePlan (s : State) (classes : List Nat) (plan : List GroupPlan) : State :=
  let kept := s.gate.plan.filter fun (g : GroupPlan) => !classes.contains g.cls
  let new := if s.inControl then plan.filter (s.planAllowed classes) else []
  { s with gate := { plan := kept ++ new, trimmed := [] } }.trimPlan

/-! Starting groups -/

/-- A group's step starts, with the Mill jobs and the collectives that its plan entry brings (R335, R514). -/
def State.startGroup (s : State) (g : GroupPlan) : State :=
  let runs := fun (t : State) => (t.step1 g.step).any fun (st : Step) => st.started
  let s1 := s.runGroup g
  if runs s || !runs s1 then s1
  else g.mills.foldl (fun (t : State) l => t.queueJob { list := l }) (s1.armColls g.step g.colls)

/-- The groups of the classes that start in slot `k`. -/
def State.startGroups (s : State) (classes : List Nat) (k : Nat) : State :=
  (s.gate.plan.filter fun (g : GroupPlan) => g.start == k && classes.contains g.cls && decide (0 < s.groupLen g)).foldl
    (fun (t : State) g => t.startGroup g) s

/-- R261: the edited lists of requests without a step in progress are published at a slot edge. -/
def State.publishIdle (s : State) : State :=
  (s.rqt.entries.filter fun e => e.2.step.isNone && (e.2.head.bind s.head).any fun (h : Head) => h.edited).foldl
    (fun (t : State) e => match e.2.head with
      | some hd => t.publish hd
      | none => t) s

/-! The actions of a mark (R27) -/

def State.flyClasses (s : State) : List Nat := bitsSet (s.rd pgTBASE F.TBASE_FLY_CLASSES) 4

/-- Actions 2 to 6 of R27, for all classes or, at a flywheel mark of a stall, for its classes. Reservations are checked against the
active table (R312), releases of vat 7 proceed (R314), quorum is judged (R512). -/
def State.markActions (s : State) (classes : List Nat) (plan : List GroupPlan) (inp : IntakeIn) : State :=
  let s1 := (s.switchTables.claimChange.announce).latchCopy
  let s2 := if classes.contains 0 then s1.checkResv.proceedReleases else s1
  let s3 := (s2.issuePlan classes plan).ringReads classes inp
  (s3.markQuorum.publishIdle).startGroups classes 0

abbrev allClasses : List Nat := [0, 1, 2, 3]

/-- An armed snap whose target the mark's tick has reached fires before the mark's actions. -/
def State.snapFirst (s : State) : State := if s.snapDue then s.fireSnap false [] else s

/-- A period begins: the bookkeeping of its mark at tick `m`, placed at `clk` where its length is to be measured. -/
def State.beginPeriod (s : State) (m : Nat) (clk : Option Nat) (per pidx : Nat) : State :=
  let next := if s.markMode then (m + per) % 2 ^ 48 else s.nextCounted ((m + 1) % 2 ^ 48)
  let s1 := { s with tb := { s.tb with
    markTick := m, markClk := clk, markWait := clk.getD s.now, lastMark := s.now, perTicks := per, nextMark := next, adj := (0, 0), rem := 0,
    longMiss := false } }
  let s2 := ((s1.wr pgTBASE F.TBASE_SLOT 0).wr pgTBASE F.TBASE_PERIOD_IDX pidx).count pgTBASE 0x060 1
  ((s2.wr pgPOWER F.PWR_STATUS_C0_THROTTLED 0).showC0).edgeNow fun _ => true

/-- The index of the period that a mark at tick `m` begins (R63). -/
def State.nextIdx (s : State) (m : Nat) : Nat := if s.markMode then (s.rd pgTBASE F.TBASE_PERIOD_IDX + 1) % 2 ^ 24 else s.countedIdx m

/-! Marks while frames arrive (R61, R63, R66) -/

/-- The mark that is due: its tick, its clock, its period index. -/
def State.dueMark (s : State) : Option (Nat × Nat × Nat) :=
  if !s.tb.loaded then none
  else if s.markMode then s.tb.signalled
  else if s.rd pgTBASE F.TBASE_PERIOD_TICKS = 0 ∨ reached s.tick s.tb.nextMark = false then none
  else some (s.tb.nextMark, s.tb.clkOf s.tb.nextMark s.now, s.countedIdx s.tb.nextMark)

/-- A measured period of `p` clocks and `t` ticks takes effect. -/
def State.setPeriod (s : State) (p t : Nat) : State :=
  let s1 := (s.wr pgTBASE F.TBASE_PERIOD_CLK p).wr pgTBASE F.TBASE_SLOT_CLK (p / 64)
  { s1 with tb := { s1.tb with rate := (t * 65536, p), rem := 0 } }

/-- The ticks of the period that the mark ends. -/
def State.ticksTo (s : State) (m : Nat) : Nat := if s.markMode then ahead m s.tb.markTick else s.rd pgTBASE F.TBASE_PERIOD_TICKS

/-- A mark signalled: the substitutes are forgotten (R66). -/
def State.takeSignal (s : State) : State :=
  let s1 := { s with tb := { s.tb with signalled := none, subMarks := 0 } }
  s1.wr pgTBASE F.TBASE_MISS_PERIODS 0

/-- A mark in ACQUIRING: the lock condition of R61; the mark at which it holds performs R27. -/
def State.markAcquiring (s : State) (plan : List GroupPlan) (inp : IntakeIn) (m clk pidx : Nat) : State :=
  let s1 := s.snapFirst.takeSignal
  let per := s.ticksTo m
  let next := if s.markMode then (m + per) % 2 ^ 48 else s.nextCounted ((m + 1) % 2 ^ 48)
  match s.tb.markClk with
  | none => { s1 with tb := { s1.tb with markTick := m, markClk := some clk, nextMark := next, longMiss := false, lockRun := 0 } }
  | some c0 =>
    let p := clk - c0
    let run := if !periodInRange p || s.tb.longMiss then 0
      else if s.tb.lockRun = 0 then 1 else if s.withinTol p s.tb.prevPeriod then s.tb.lockRun + 1 else 1
    let s2 := if periodInRange p then s1.setPeriod p per else s1
    let s3 := { s2 with tb := { s2.tb with
      markTick := m, markClk := some clk, perTicks := per, nextMark := next, longMiss := false, lockRun := run, prevPeriod := p } }
    if s.rd pgTBASE F.TBASE_LOCK_PERIODS ≤ run then
      ((s3.tbEnter .locked [0]).beginPeriod m (some clk) per pidx).markActions allClasses plan inp
    else s3

/-- A mark in LOCKED: a measured period out of range gives the lock up; one off by more than the tolerance is told. -/
def State.markLocked (s : State) (plan : List GroupPlan) (inp : IntakeIn) (m clk : Nat) : State :=
  let s1 := s.snapFirst.takeSignal
  match s.tb.markClk with
  | none =>
    (s1.beginPeriod m (some clk) (if s.markMode then s.tb.perTicks else s.ticksTo m) (s.nextIdx m)).markActions allClasses plan inp
  | some c0 =>
    let p := clk - c0
    let per := s.ticksTo m
    if !periodInRange p then
      let next := if s.markMode then (m + per) % 2 ^ 48 else s.nextCounted ((m + 1) % 2 ^ 48)
      let s2 := { s1 with tb := { s1.tb with
        markTick := m, markClk := some clk, nextMark := next, lockRun := 0, prevPeriod := p, longMiss := false, adj := (0, 0), rem := 0 } }
      (s2.raise pgTBASE 12).tbEnter .acquiring [1]
    else
      let s2 := if s.withinTol p s.tb.prevPeriod then s1 else s1.raise pgTBASE 11
      let s3 := { s2 with tb := { s2.tb with prevPeriod := p } }
      ((s3.setPeriod p per).beginPeriod m (some clk) per (s.nextIdx m)).markActions allClasses plan inp

/-- PERIOD_MARK: `plan` is the period plan that the unit in control issues, `inp` what the intake engine reads. -/
def execPeriodMark (plan : List GroupPlan) (inp : IntakeIn) (s : State) : Result :=
  .next (match s.tb.st, s.dueMark with
  | .acquiring, some d => s.markAcquiring plan inp d.1 d.2.1 d.2.2
  | .locked, some d => s.markLocked plan inp d.1 d.2.1
  | _, _ => s)

/-! Free run, substitute and flywheel marks (R66, R76, R78, R79) -/

/-- FREE_RUN begins; the receiver's second count starts from the tick (R79). -/
def State.enterFreeRun (s : State) : State :=
  let s1 := { s with tb := { s.tb with
    hold := false, adj := (0, 0), frTick := s.tick, frMarkClk := none, frNextMark := s.nextCounted ((s.tick + 1) % 2 ^ 48), frLockRun := 0,
    frPrev := 0, frLock := false, longMiss := false } }
  s1.tbEnter .freeRun [5]

/-- A flywheel mark on the tick is due. -/
def State.flyDue (s : State) : Bool := reached s.tick s.tb.nextMark

/-- A mark is lost (R66): 2 × `TBASE.PERIOD_CLK` without one while frames arrive. -/
def State.markLostDue (s : State) : Bool :=
  s.markMode && decide (s.tb.missRun < 16) && s.tb.signalled.isNone && decide (s.tb.markWait + 2 * s.periodClk ≤ s.now)

/-- FREE_RUN_ENTRY: action 1 of R27 at the fourth flywheel mark of a holdover, or at the fourth substitute mark. The mark itself is the
FLYWHEEL_MARK or MARK_LOST that follows. -/
def execFreeRunEntry (s : State) : Result :=
  .next (
    let m := s.rd pgTBASE F.TBASE_MISS_PERIODS
    if s.tb.st = .holdover ∧ m = 3 ∧ s.flyDue = true then s.enterFreeRun
    else if s.tb.st = .locked ∧ s.tb.subMarks = 3 ∧ s.markLostDue = true then s.enterFreeRun
    else s)

/-- MARK_LOST: the substitute mark, at the present tick. -/
def execMarkLost (plan : List GroupPlan) (inp : IntakeIn) (s : State) : Result :=
  .next (
    let open1 := s.tb.st = .locked ∨ (s.tb.st = .freeRun ∧ s.tb.subMarks = 3)
    if ¬open1 ∨ s.markLostDue = false then s
    else
      let s1 := s.snapFirst
      let n := min 4 (s.tb.subMarks + 1)
      let s2 := ({ s1 with tb := { s1.tb with subMarks := n } }.wr pgTBASE F.TBASE_MISS_PERIODS n).raise pgTBASE 20
      let s3 := if n = 4 ∧ s.tb.st = .locked then s2.enterFreeRun else s2
      (s3.beginPeriod s.tick none s.tb.perTicks (s.nextIdx s.tick)).markActions allClasses plan inp)

/-- R79: at a flywheel mark in FREE_RUN the frames' count, when the lock condition has been met on it, corrects the tick and the
state returns to LOCKED. The flag says whether the rate is still to be adjusted to the next mark. -/
def State.regain (s : State) : State × Bool :=
  match s.tb.lastUsed with
  | some f =>
    if s.tb.st = .freeRun ∧ s.tb.frLock = true then
      let slotFx := s.tb.perTicks * 1024
      let near := decide (aheadFx (f.tick * 65536) s.tb.tickFx ≤ slotFx ∨ aheadFx s.tb.tickFx (f.tick * 65536) ≤ slotFx)
      let s1 := if near then s else s.meetFrame f
      (({ s1 with tb := { s1.tb with subMarks := 0, frLock := false, signalled := none } }.wr pgTBASE F.TBASE_MISS_PERIODS 0).tbEnter .locked [0, 6], near)
    else (s, false)
  | none => (s, false)

/-- A flywheel mark on the tick, in HOLDOVER or FREE_RUN. -/
def State.tickFlyMark (s : State) (plan : List GroupPlan) (inp : IntakeIn) : State :=
  if !s.flyDue then s
  else
    let n := min 4 (s.rd pgTBASE F.TBASE_MISS_PERIODS + 1)
    let s1 := s.snapFirst.wr pgTBASE F.TBASE_MISS_PERIODS n
    let s2 := if s.tb.st = .holdover ∧ n = 4 then s1.enterFreeRun else s1
    let (s3, near) := s2.regain
    let m := s3.tb.nextMark
    let s4 := s3.beginPeriod m none s.tb.perTicks (s3.nextIdx m)
    let s5 := match near, s4.tb.lastUsed with
      | true, some f => s4.meetFrame f
      | _, _ => s4
    s5.markActions allClasses plan inp

/-- A mark of the flywheel of a stall: the tick, the slot and the period index stay (R76). -/
def State.stallFlyMark (s : State) (plan : List GroupPlan) (inp : IntakeIn) : State :=
  if s.now < s.tb.flyNext then s
  else
    let at0 := s.tb.flyNext
    let s1 := s.edgeNow s.flyStep
    let s2 := { s1 with tb := { s1.tb with flyMark := at0, flyNext := at0 + s.periodClk, flySlot := 0, lastMark := s.now } }
    let s3 := ((s2.count pgTBASE 0x060 1).wr pgPOWER F.PWR_STATUS_C0_THROTTLED 0).showC0
    s3.markActions s.flyClasses plan inp

def execFlywheelMark (plan : List GroupPlan) (inp : IntakeIn) (s : State) : Result :=
  .next (match s.tb.st with
  | .stallFly => s.stallFlyMark plan inp
  | .holdover | .freeRun => s.tickFlyMark plan inp
  | _ => s)

/-! Slot edges (R28, R64, R73) -/

/-- Slot edge `k` of the period on ticks is due (R64). -/
def State.edgeDue (s : State) (k : Nat) : Bool :=
  decide (k ≤ 63) && s.tb.signalled.isNone &&
    decide (k * s.tb.perTicks * 1024 ≤ aheadFx s.tb.tickFx (s.tb.markTick * 65536) ∧ aheadFx s.tb.tickFx (s.tb.markTick * 65536) < 2 ^ 63)

/-- An edge on the tick: class-0 rings are read before the slot's tokens are posted. -/
def State.tickEdge (s : State) (inp : IntakeIn) : State :=
  let k := s.rd pgTBASE F.TBASE_SLOT + 1
  if !s.edgeDue k then s
  else
    let s1 := (s.wr pgTBASE F.TBASE_SLOT k).edgeNow fun (st : Step) => decide (st.start + st.glen ≤ k)
    let s2 := if k = 63 then s1.latchHandover else s1
    ((s2.ringReads [0] inp).publishIdle).startGroups allClasses k

/-- A slot edge of the flywheel of a stall, on clocks. -/
def State.flyEdge (s : State) : State :=
  let k := s.tb.flySlot + 1
  if 63 < k ∨ s.now < s.tb.flyMark + k * s.slotClk then s
  else
    let s1 := { s with tb := { s.tb with flySlot := k } }.edgeNow fun (st : Step) => s.flyStep st && decide (st.start + st.glen ≤ k)
    (s1.publishIdle).startGroups s.flyClasses k

def execSlotEdge (inp : IntakeIn) (s : State) : Result :=
  .next (match s.tb.st with
  | .locked | .holdover | .freeRun => s.tickEdge inp
  | .stallFly => s.flyEdge
  | _ => s)

end Sys2Proof.Machine
end

