-- ==== Sys2Proof/Machine/Startup.lean ====
section
/-! DEFINITION. The reset classes, the start-up phases, the HOST sequence, the PCIe side of a start-up (R538–R548). -/

namespace Sys2Proof.Machine

/-! POWER-ON and MODULE (R525, R538, R540) -/

/-- POWER_ON_RESET: 12 V is applied, or has returned. The sequence waits for the main regulators. -/
def execPowerOnReset (s : State) : Result := .next (s.powerOn s.pwr.off)

/-- May the main regulators start (R525, R532)? -/
def State.mayStart (s : State) : Bool :=
  let p := s.pwr
  p.mainOff && !p.standbyOff && !p.tripped && !s.start.modLow && !p.earlyHigh && !p.lateHigh && decide (p.contactClk + 50 * clkMs ≤ s.now) && s.vinOk &&
    (!p.lastTrip || p.cool)

/-- REGULATOR_START: start-up begins. What was lost since the last reset makes it a POWER-ON sequence. -/
def execRegulatorStart (recover : Bool) (s : State) : Result :=
  .next (
    if !s.mayStart then s
    else
      let s1 := if s.pwr.off = 0 then s else s.powerOn s.pwr.off
      { s1 with pwr := { s1.pwr with mainOff := false, off := 0 } }.romStart recover)

/-- MODULE_RESET: MOD_RESET_N low for 10 µs, or 50 ms after MATE_EARLY_N returned low with MATE_LATE_N mated. -/
def execModuleReset (mateReturn recover : Bool) (s : State) : Result :=
  .next (
    if s.pwr.standbyOff then s
    else if mateReturn then
      (if !s.pulled || s.pwr.mainOff || !heldFor s.pwr.earlyClk (50 * clkMs) s.now then s
      else
        let s1 := s.destroyAllKeys.silence.moduleReset 2 false
        let s2 := { s1 with pwr := { s1.pwr with earlyClk := none } }.wr pgPOWER F.PWR_STATUS_PULL 0
        s2.romStart recover)
    else
      let s1 := if s.pwr.mainOff then s else s.destroyAllKeys.silence
      let s2 := s1.dropLink.moduleReset 1 true
      { s2 with pwr := { s2.pwr with off := 0 } }.wr pgPOWER F.PWR_STATUS_PULL (boolNat s.pwr.earlyHigh))

/-- MOD_RESET_N_RISE: the MODULE sequence begins; a trip ends, and the main regulators start again first. -/
def execModResetNRise (recover : Bool) (s : State) : Result :=
  .next (
    if !s.start.modLow || s.pwr.standbyOff then s
    else
      let s1 := { s with start := { s.start with modLow := false }, pwr := { s.pwr with tripped := false } }
      if s1.pwr.mainOff then s1 else s1.romStart recover)

/-! The phases (R541, R544) -/

/-- A POWER-ON or MODULE sequence is under way. -/
def State.starting (s : State) : Bool :=
  !s.pwr.mainOff && !s.start.modLow && !s.fw.recovery && !s.start.noPcie && (s.start.kind == 1 || s.start.kind == 2)

def State.startPhase (s : State) : Nat := s.rd pgMOD F.MOD_START_PHASE

def State.enterPhase (s : State) (n : Nat) : State :=
  { s with start := { s.start with phaseClk := s.now, late := false } }.wr pgMOD F.MOD_START_PHASE n

/-- Phase ROM ends: the hub units and the Gauger passed; the Gauger's firmware slot is chosen. A failed one leaves no PCIe function (boot log entry 4). -/
def State.endRom (s : State) (out : PhaseOut) : State :=
  let s1 := { s with gau := { s.gau with uidBlocked := true } }
  if out.hubFail then
    { s1 with fw := { s1.fw with bootLog := 4 :: s1.fw.bootLog }, start := { s1.start with noPcie := true } }.dropLink
  else if s.start.recover then s1.enterRecovery true
  else
    let s2 := s1.checkSlots.useValid 0
    if (s2.fwSlot 0 (s2.activeSlot 0)).state ≠ 1 then s2.enterRecovery false else s2.enterPhase 2

/-- The three management pages are locked by the Gauger (R537). -/
def State.lockPages (s : State) : State :=
  [pgMGMT, pgPOWER, pgTHERMAL].foldl (fun t p => t.wr p F.LOCK_GAUGER_LOCKED 1) s

/-- Phase FIRMWARE ends: the components' slots, the HSS leaves, the Alias keys. -/
def State.endFirmware (s : State) : State :=
  let s1 := s.selectSlots
  if s1.fw.recovery then s1
  else ((((s1.reserveTop).newAlias).lockPages).recount).enterPhase 3

/-- A unit that fails self-test is retired (R462, R469). -/
def State.retirePage (s : State) (pg : Nat) : State :=
  let n := (pg - 0x1000) / 0x1000
  let t := match pageKind pg with
    | some .vat => s.vatOut pg
    | some .floor => s.retireFloor n ((pg % 0x1000 - 0x100) / 0x20)
    | some .keg => s.retireKeg (2 * n + (pg % 0x1000 - 0x20))
    | some .lpg => (List.range 8).foldl (fun u i => u.retireChannel n (8 * (pg % 0x1000 - 0x10) + i)) s
    | some .codec => s.retireCodec ((pg - 0x600) / 0x40)
    | some .mill => s.retireMill
    | some .cm => if s.isRetired pg then s else (s.cmRetire ((pg - 0x200) / 0x10)).noteRetired
    | some .die | some .xlt | some .kvw | some .att | some .col => s.retireDie n
    | _ => s
  t.recount

/-- Phase SELFTEST ends: failing units are retired, failing time-base receivers leave the module. -/
def State.endSelftest (s : State) (out : PhaseOut) : State :=
  let s1 := (out.failed.filter fun pg => pagePresent s.variant pg).foldl (fun t pg => t.retirePage pg) s
  let fx := s1.rd pgMOD F.MOD_FIXED_SVC
  ((s1.wr pgMOD F.MOD_FIXED_SVC (bits fx 0 4 + 16 * (3 - bits out.lines 0 2))).recount).enterPhase 4

/-- Phase MEMORY ends: channels trained, memory filled, the module-wide structures placed (R401). How many frames the system takes is not given: it comes with
the event. -/
def State.endMemory (s : State) (out : PhaseOut) : State :=
  let s1 := (out.channels.filter fun c => decide (c.1 < s.variant.dies ∧ c.2 < 32)).foldl (fun t c => (t.retireChannel c.1 c.2).recount) s
  let s2 := out.sysFrames.zipIdx.foldl (fun (t : State) e =>
    if e.2 < t.variant.dies then (t.wr (pgXLT e.2) F.XLT_SYS_FRAMES e.1.1).wr (pgXLT e.2) F.XLT_SYS_FREE e.1.2 else t) s1
  let groups := s2.diesUp.flatMap fun n => (List.range 4).map fun g => pgLPG n g
  let s3 := { s2 with
    kv := { s2.kv with homes := s2.diesUp.take 2 }
    lp := { s2.lp with patClk := groups.foldl (fun m pg => nput m pg s2.now) s2.lp.patClk }
    start := { s2.start with sysFree := out.sysFrames.zipIdx.map fun (e : (Nat × Nat) × Nat) => (e.2, e.1.2) } }
  s3.showKv.enterPhase 5

/-- Slices of a whole pass (R461, R464). -/
def State.passSlices (s : State) : Nat :=
  sumBy (fun fp => 1 + (if s.rd fp F.FLOOR_SPARE = 0xF then 0 else 9) +
    ((List.range 32).filter fun g => (s.segOwner fp g).isNone && s.rdi fp F.FLOOR_SEG_PHYS g != 0x3F).length) s.floorsUp +
  5 * ((4 :: s.diesUp).filter fun k => nget s.bist.planesBad k == 0).length + (if s.hasUnit pgMILL then 1024 else 0) +
  256 * ((List.range s.variant.codecs).filter fun k => s.hasUnit (pgCODEC k)).length +
  512 * (([0, 1] : List Nat).filter fun u => s.role u == roleSync || s.role u == roleReady).length

/-- READY: START_DONE, and the sequence's duration. -/
def State.enterReady (s : State) : State :=
  let s1 := (s.enterPhase 6).wr pgMOD F.MOD_START_MS ((s.now - s.start.startClk) / clkMs)
  { s1 with start := { s1.start with kind := 0 } }.raise pgMOD 2

/-- Phase CONTROL ends: Cellarmasters, kernel library, keg links; an activation that the reset undid fails now. -/
def State.endControl (s : State) (out : PhaseOut) : State :=
  let s1 := s.startCm.loadLibrary out.loads
  let s2 := { s1 with
    keg := { s1.keg with silent := false }
    pwr := { s1.pwr with hbClk := s1.now }
    bist := { s1.bist with passClk := s1.now, storeClk := s1.now, tbClk := s1.now } }
  let s3 := (s2.wr pgBIST F.BIST_PASS_SLICES s2.passSlices).enterReady
  if s3.fw.undone then ({ s3 with fw := { s3.fw with undone := false } }.raise pgGAU 11).count pgGAU 0x07C 1 else s3

/-- STARTUP_PHASE_END. -/
def execStartupPhaseEnd (out : PhaseOut) (s : State) : Result :=
  .next (
    if !s.starting then s
    else if s.startPhase = 1 then s.endRom out
    else if s.startPhase = 2 then s.endFirmware
    else if s.startPhase = 3 then s.endSelftest out
    else if s.startPhase = 4 then s.endMemory out
    else if s.startPhase = 5 then s.endControl out
    else s)

/-- The bound of a phase in ms. -/
def phaseBound (n : Nat) : Nat := ([0, 150, 250, 400, 800, 100] : List Nat).getD n 0

/-- START_LATE: the phase has overrun its bound. -/
def execStartLate (s : State) : Result :=
  .next (
    if !s.starting || s.start.late || decide (6 ≤ s.startPhase) || decide (s.now ≤ s.start.phaseClk + phaseBound s.startPhase * clkMs) then s
    else { s with start := { s.start with late := true } }.raise pgMOD 3)

/-! PCIe (R542) -/

/-- PERST_DEASSERT: PERST_N goes high; link training starts, and the link's coming up is PCIE_LINK_UP. -/
def execPerstDeassert (s : State) : Result := .next { s with host := { s.host with perstHigh := true } }

/-- CONFIG_REQUEST: an answer of kind 2: the function, and 0 for success or 2 for Configuration Request Retry Status. -/
def execConfigRequest (fn : Fin 32) (s : State) : Result :=
  .next (
    if s.pwr.mainOff || s.start.modLow || s.start.noPcie || !s.on pgHOST F.HOST_LINK_UP then s
    else
      let retry := s.start.kind == 3 || (s.startPhase == 1 && !s.fw.recovery)
      { s with msgs := .reply 2 [fn.val, if retry then 2 else 0] :: s.msgs })

/-! The HOST sequence (R539, R545, R546) -/

/-- Pages whose own (RO) state goes on through a HOST reset. -/
def hostLive : PageKind → Bool
  | .mod | .mgmt | .power | .thermal | .keg | .cab | .gau | .bist | .lpg | .xlt | .cm | .host | .die => true
  | _ => false

/-- What a HOST reset keeps of the register entries: RWS fields, the cabinet index, the Gauger's locks, and the state of units that keep running. -/
def hostKeeps (e : Nat × Nat) : Bool :=
  match entryField e with
  | none => false
  | some (_, k, fd) =>
    fd.acc = .rws || fd = F.FAULT_CAPT_VALID || fd = F.LOCK_GAUGER_LOCKED || fd = F.CAB_INDEX || fd = F.CAB_INDEX_VALID ||
    ((k == .vat || k == .floor) && (recordField fd || mapField fd || fd = F.VAT_KSTORE_SLOTS || fd = F.VAT_KSTORE_WORDS)) ||
    (hostLive k && fd.acc = .ro && fd != F.EVT_RAW)

/-- An activation at a HOST reset: one announced is withdrawn, that of component 0 goes on, another that has begun fails. -/
def State.hostFw (s : State) : State :=
  match s.fw.act with
  | none => s
  | some a =>
    if !a.begun then (({ s with fw := { s.fw with act := none } }).wr pgGAU F.FW_ACT_BUSY 0).wr pgGAU F.FW_ACT_PHASE 0
    else if a.comp = 0 then s
    else s.actFail a

/-- What the units that run kernels, steps and requests hold after it: nothing but the kernel stores. -/
def State.hostStop (s : State) : State :=
  { s with
    host := { mem := s.host.mem, perstHigh := s.host.perstHigh }
    vats := s.vats.map fun (e : Nat × Vat) => (e.1, { code := e.2.code, descs := e.2.descs, dets := e.2.dets, clkHold := e.2.clkHold })
    floors := s.floors.map fun (e : Nat × FloorSt) => (e.1, { dets := e.2.dets })
    steps := [], spl := {}, rqt := {}, gate := {}, cm := { a := s.cm.a, b := s.cm.b }, mill := {}, codec := {}, casks := [], resv := [], drbg := []
    snap := {}, tb := {}, underTest := [], shadow := []
    kv := { homes := s.kv.homes, headNext := s.kv.headNext }
    keg := { s.keg with jobs := [], ops := [], windows := [] }
    gau := { s.gau with conns := [], claimed := [], seqs := [], loading := none }
    bist := { s.bist with due := [], reqs := [], sched := [], running := [], deferred := [] }
    lp := { s.lp with
      crcc := s.lp.crcc.map fun (e : Nat × Bool) => (e.1, false)
      leaves := [], lab := [], recov := [], clears := [], tabs := [] }
    regs := s.regs.filter hostKeeps
    ctrs := s.ctrs.filter fun e => decide (e.1 / 4096 < 0x10000) }

/-- Contexts that are not FREE are RINSING until the fill ends. -/
def State.hostRinse (s : State) (cs : List Nat) : State :=
  (cs.foldl (fun (t : State) c => t.setCtxField F.CTXS_ENTRY_STATE c ctxRINSING) { s with ctxs := { fast := cs } }).showCtxs

/-- HOST_RESET: PERST_N low, a hot reset, an FLR of the PF. During a POWER-ON or MODULE sequence it restarts link training and nothing else. -/
def execHostReset (cause : HostCause) (s : State) : Result :=
  .next (
    let s0 := match cause with
      | .perst => { s with host := { s.host with perstHigh := false } }.dropLink
      | .hotReset => s.dropLink
      | .pfFlr => s
    if s.pwr.mainOff || s.start.modLow || s.start.kind == 1 || s.start.kind == 2 then s0.dropLink
    else
      let cs := (List.range 1024).filter fun c => s.ctxState c != ctxFREE
      let code : Nat := match cause with
        | .perst => 5
        | .hotReset => 6
        | .pfFlr => 7
      let s1 := s0.destroyAllKeys.abortJobs fun e => !e.2.aborted
      let s2 := (s1.hostFw.count pgBIST 0x054 s1.bist.running.length).hostStop
      let s3 := (s2.showKeys.showJobs.showCasks.hostRinse cs)
      let s4 := ((s3.wr pgHOST F.HOST_CELLAR_RANGES 0).wr pgHOST F.HOST_CELLAR_BLOCKS_FREE 0).wr pgMOD F.MOD_RESET_CAUSE code
      let s5 := [0, 1].foldl (fun (t : State) u => if t.cmRetired u then t else (t.wr (pgCM u) F.CM_CLAIM 0).wr (pgCM u) F.CM_ROLE roleReset) s4
      { s5.enterPhase 1 with start := { s5.start with kind := 3, phaseClk := s.now, startClk := s.now } }.showC0)

/-- HOST_FILL_DONE: memory and stores hold zeros, every context is FREE, the Cellarmasters reload, READY. -/
def execHostFillDone (s : State) : Result :=
  .next (
    if s.start.kind ≠ 3 then s
    else
      let late := (s.lp.frames.filter fun e => e.2.pend && e.2.otype != 3).map (·.1)
      let s1 := late.foldl (fun (t : State) f => t.bump (pgXLT (frameDie f)) F.XLT_RETIRED_FRAMES 1) s
      let gone := (s.lp.frames.filter fun e => e.2.otype == 3 || e.2.pend).map fun (e : Nat × Frame) =>
        (e.1, ({ otype := 3, owner := 0, kind := 0 } : Frame))
      let s2 := { s1 with
        lp := { s1.lp with mem := [], tag := [], bad := [], frames := gone }
        vstore := [], vbad := [], fstore := [], fbad := [] }
      let s3 := s.start.sysFree.foldl (fun (t : State) e => t.wr (pgXLT e.1) F.XLT_SYS_FREE e.2) s2
      let s4 := s.ctxs.fast.foldl (fun t c => ((t.freeCtx c).raise pgCTXS0 2).count pgCTXS0 0x050 1) s3
      ({ s4 with ctxs := {} }.startCm.showKv.showRqt).recount.enterReady)

end Sys2Proof.Machine
end

