-- ==== Sys2Proof/Machine/View.lean ====
section
/-! DEFINITION. What a register read returns: the fields that a page keeps, those that show live state, and the counter pairs
(R31–R37, R47, R50, R61, R156, R157, R291, R414, R419). -/

namespace Sys2Proof.Machine

/-- `PAGE_ID.INST`: the instance within die or hub; floor × 16 + vat for a vat page (R37). -/
def pageInst (pg : Nat) : Nat :=
  if 0x10000 ≤ pg then Config.pageInst pg % 2 ^ 20
  else if 0x1000 ≤ pg then
    let o := pg % 0x1000
    if 0x100 ≤ o then (let f := (o - 0x100) / 0x20; if o % 0x20 = 0 then f else f * 16 + (o % 0x20 - 1))
    else if o < 0x10 then 0 else o % 0x10
  else if pg = pgCM 1 then 1
  else if 0x600 ≤ pg ∧ pg < 0x700 then (pg - 0x600) / 0x40
  else if pg = pgCTXS1 then 1
  else 0

/-- `STATUS.BLOCK`: of the TBASE page the state and BOUND_OK (R61); 0 elsewhere. -/
def State.statusBlock (s : State) (pg : Nat) : Nat :=
  if pg ≠ pgTBASE then 0
  else
    let c : Nat := match s.tb.st with
      | .idle => 0 | .acquiring => 1 | .locked => 2 | .stalled => 3 | .stallFly => 4 | .holdover => 5 | .freeRun => 6
    let ok : Nat := match s.tb.st with
      | .locked | .stalled | .stallFly | .holdover => 8
      | .idle | .acquiring | .freeRun => 0
    c + ok

def State.childSum (s : State) (pg : Nat) : Nat :=
  match pageKind pg with
  | some .evt => s.rootSum
  | some .die => s.dieSum (dieOf pg)
  | some .floor => s.floorSum (dieOf pg) (floorNo pg)
  | _ => 0

/-- The spile that virtual number `v` of the context of a spile page names. -/
def State.viewSpile (s : State) (pg v : Nat) : Option (Nat × Bool) := s.spMap ((pg - 0x20000) / 4) v

/-- A field of the spile page (R156). -/
def State.splField (s : State) (pg : Nat) (fd : Field) (i : Nat) : Option Nat :=
  let c := (pg - 0x20000) / 4
  let sel := s.viewSpile pg (s.rd pg F.SPL_SEL)
  if fd = F.SPL_SEL_STATUS_MAPPED then some (boolNat sel.isSome)
  else if fd = F.SPL_SEL_STATUS_LOCAL then some (boolNat (sel.any fun x => x.2))
  else if fd = F.SPL_SEL_STATUS_OVF then some (boolNat (sel.any fun x => (s.spile x.1).ovf))
  else if fd = F.SPL_SEL_STATUS_POISON then some (boolNat (sel.any fun x => (mget s.spl.poison (x.1 / 4096 * 256 + x.1 % 4096 / 16)).isSome))
  else if fd = F.SPL_SEL_STATUS_WAITERS then some ((sel.map fun x => (s.spl.waiters.filter fun w => w.phys == x.1).length).getD 0)
  else if fd = F.SPL_SEL_PRESET then some ((sel.map fun x => (s.spile x.1).preset).getD 0)
  else if fd = F.SPL_MAP_VALID then some (boolNat (mget s.spl.maps (c * 32 + i)).isSome)
  else if fd = F.SPL_MAP_LOCAL then some (boolNat ((mget s.spl.maps (c * 32 + i)).any fun m => m.isLocal))
  else if fd = F.SPL_MAP_DIE then some (((mget s.spl.maps (c * 32 + i)).map fun m => m.die).getD 0)
  else if fd = F.SPL_COUNT then some (((s.viewSpile pg i).map fun x => (s.spile x.1).count).getD 0)
  else none

/-- A header field that shows live state (R37). -/
def State.headerField (s : State) (pg : Nat) (fd : Field) : Option Nat :=
  if fd = F.PAGE_ID_TYPE then some (typeCode pg)
  else if fd = F.PAGE_ID_DIE then some (pageDie pg)
  else if fd = F.PAGE_ID_INST then some (pageInst pg)
  else if fd = F.PAGE_VER_MAJOR then some (Config.pageVer pg / 2 ^ 16)
  else if fd = F.PAGE_VER_MINOR then some (Config.pageVer pg)
  else if fd = F.STATUS_BLOCK then some (s.statusBlock pg)
  else if fd = F.STATUS_LOCKED then some (boolNat (s.locked pg))
  else if fd = F.STATUS_SVC then some (s.svc pg)
  else if fd = F.EVT_PEND then some (s.rd pg F.EVT_RAW &&& s.rd pg F.EVT_EN)
  else if fd = F.CHILD_SUM then some (s.childSum pg)
  else none

/-- A block field that shows live state. -/
def State.blockField (s : State) (pg : Nat) (k : PageKind) (fd : Field) (i : Nat) : Option Nat :=
  match k with
  | .spl => s.splField pg fd i
  | .win =>
    if fd = F.WIN_EVT_SUM_LO then some (s.winSum (pg - 0x10000))
    else if fd = F.WIN_EVT_SUM_HI then some (s.winSum (pg - 0x10000) / 2 ^ 32)
    else none
  | .vat => if fd = F.VAT_LOGICAL then some (s.logicalOf pg) else none
  | .att =>
    if fd = F.ATT_VATS_AVAIL then
      some ((List.range 96).filter fun j => s.hasUnit (pgFLOOR (dieOf pg) (j / 8)) && (s.vatOf (pgFLOOR (dieOf pg) (j / 8)) (j % 8)).isSome).length
    else none
  | .rqt => if fd = F.RQT_STATE_CNT then some (s.rqCount i) else none
  | .tbase =>
    if fd = F.TBASE_TICK_LO then some s.tick else if fd = F.TBASE_TICK_HI then some (s.tick / 2 ^ 32) else none
  | .ctxs => if fd = F.CTXS_ENTRY_RINSE_PROG then some (s.rinseProg ((pg - pgCTXS0) * 512 + i)) else none
  | .gau => if fd = F.MBX_STAT_BUSY then some (boolNat s.mbxBusy) else none
  | .mgmt => if fd = F.MGMT_HB_AGE_MS then some (min ((s.now - s.pwr.hbClk) / clkMs) (2 ^ 32 - 1)) else none
  | .bist => if fd = F.BIST_SUSPECT then some (s.bist.due.length + (s.floors.map fun e => e.2.early.length).foldl (· + ·) 0) else none
  | _ => none

/-- Entry `i` of a field as it reads: a write-only field reads 0 (R34). -/
def State.viewField (s : State) (pg : Nat) (k : PageKind) (fd : Field) (i : Nat) : Nat :=
  let v := if fd.acc = .wo then 0
    else ((s.headerField pg fd).orElse fun _ => s.blockField pg k fd i).getD (s.rdi pg fd i)
  v % 2 ^ fd.width

/-- The 32 bits of the register at an offset of a page: reserved bits read 0 (R35). -/
def State.viewReg (s : State) (pg : Nat) (k : PageKind) (off : Nat) : Nat :=
  (fieldsAt k off).foldl (fun a e => a + s.viewField pg k e.1 e.2 * 2 ^ e.1.lo) 0

/-- A read that lands on no counter (R31, R33, R37, R291): a register's value, a word of the request-table window, or zeros. A misaligned read and
one that names no register are access errors. -/
def State.readPlain (s : State) (a : RegAcc) : State :=
  let zero := { s with rdata := 0 }
  match s.target a with
  | .absent => zero
  | .unassigned => zero.accessErr a
  | .rqtWin off => if a.off % 4 ≠ 0 then zero.accessErr a else { s with rdata := s.rqWord (s.rq (off / 64)) (off % 64 / 4) }
  | .reg pg k off _ =>
    if a.off % 4 ≠ 0 then (if pg = pgGAU then zero.wr pgGAU F.MBX_STAT_ACC_ERR 1 else zero.accessErr a)
    else if !named pg k off then zero.accessErr a
    else { s with rdata := s.viewReg pg k off }

/-- A host read of one register (R34): the LO half of a counter, the HI half, or any other register. -/
def State.hostReg (s : State) (a : RegAcc) : State :=
  match s.target a with
  | .reg pg k off _ =>
    match s.counter64 pg k off, s.counter64 pg k (off - 4) with
    | some val, _ => s.readLo pg off val
    | none, some val => if 4 ≤ off then s.readHi pg (off - 4) val else s.readPlain a
    | none, none => s.readPlain a
  | _ => s.readPlain a

def execCounterLoRead (a : RegAcc) (s : State) : Result := .next (s.hostReg a)

def execCounterHiRead (a : RegAcc) (s : State) : Result := .next (s.hostReg a)

end Sys2Proof.Machine
end

