-- ==== Sys2Proof/Machine/Dispatch.lean ====
section
/-! DEFINITION. One arm per command: the meaning it calls. -/

namespace Sys2Proof.Machine

def exec (i : Instr) (s : State) : Host.Outcome State Fault Refusal :=
  match i with
  | .registerWrite a be v => Sys2Proof.Machine.execRegisterWrite a be v s
  | .counterLoRead a => Sys2Proof.Machine.execCounterLoRead a s
  | .counterHiRead a => Sys2Proof.Machine.execCounterHiRead a s
  | .evtPendClear p v => Sys2Proof.Machine.execEvtPendClear p v s
  | .evtEnWrite p v => Sys2Proof.Machine.execEvtEnWrite p v s
  | .faultCaptRearm p => Sys2Proof.Machine.execFaultCaptRearm p s
  | .lockSet p => Sys2Proof.Machine.execLockSet p s
  | .ownerWrite p v => Sys2Proof.Machine.execOwnerWrite p v s
  | .evtRearm fn => Sys2Proof.Machine.execEvtRearm fn s
  | .snapArm fn => Sys2Proof.Machine.execSnapArm fn s
  | .snapNow fn => Sys2Proof.Machine.execSnapNow fn s
  | .snapCancel fn => Sys2Proof.Machine.execSnapCancel fn s
  | .snapFire missing => Sys2Proof.Machine.execSnapFire missing s
  | .snapDoneTimeout => Sys2Proof.Machine.execSnapDoneTimeout s
  | .tbFrameReceive lineB codeErr bytes => Sys2Proof.Machine.execTbFrameReceive lineB codeErr bytes s
  | .tbWindowEnd => Sys2Proof.Machine.execTbWindowEnd s
  | .stallDetect => Sys2Proof.Machine.execStallDetect s
  | .stallGuardExpire => Sys2Proof.Machine.execStallGuardExpire s
  | .holdoverEntry => Sys2Proof.Machine.execHoldoverEntry s
  | .flywheelMark plan inp => Sys2Proof.Machine.execFlywheelMark plan inp s
  | .freeRunEntry => Sys2Proof.Machine.execFreeRunEntry s
  | .markLost plan inp => Sys2Proof.Machine.execMarkLost plan inp s
  | .periodMark plan inp => Sys2Proof.Machine.execPeriodMark plan inp s
  | .slotEdge inp => Sys2Proof.Machine.execSlotEdge inp s
  | .tbaseEnable fn v => Sys2Proof.Machine.execTbaseEnable fn v s
  | .tbaseDisable fn v => Sys2Proof.Machine.execTbaseDisable fn v s
  | .slotTableWrite fn copyB slot v => Sys2Proof.Machine.execSlotTableWrite fn copyB slot v s
  | .slotSwReq fn => Sys2Proof.Machine.execSlotSwReq fn s
  | .slotSwCancel fn => Sys2Proof.Machine.execSlotSwCancel fn s
  | .nop v => Sys2Proof.Machine.execNop v s
  | .endKernel v => Sys2Proof.Machine.execEndKernel v s
  | .br v => Sys2Proof.Machine.execBr v s
  | .loop v => Sys2Proof.Machine.execLoop v s
  | .sync v => Sys2Proof.Machine.execSync v s
  | .spwait v => Sys2Proof.Machine.execSpwait v s
  | .sppost v => Sys2Proof.Machine.execSppost v s
  | .sptake v => Sys2Proof.Machine.execSptake v s
  | .trap v => Sys2Proof.Machine.execTrap v s
  | .add v => Sys2Proof.Machine.execAdd v s
  | .sub v => Sys2Proof.Machine.execSub v s
  | .addi v => Sys2Proof.Machine.execAddi v s
  | .mul v => Sys2Proof.Machine.execMul v s
  | .and v => Sys2Proof.Machine.execAnd v s
  | .or v => Sys2Proof.Machine.execOr v s
  | .xor v => Sys2Proof.Machine.execXor v s
  | .shl v => Sys2Proof.Machine.execShl v s
  | .shr v => Sys2Proof.Machine.execShr v s
  | .sra v => Sys2Proof.Machine.execSra v s
  | .min v => Sys2Proof.Machine.execMin v s
  | .max v => Sys2Proof.Machine.execMax v s
  | .slt v => Sys2Proof.Machine.execSlt v s
  | .seq v => Sys2Proof.Machine.execSeq v s
  | .li v => Sys2Proof.Machine.execLi v s
  | .ldv v => Sys2Proof.Machine.execLdv v s
  | .stv v => Sys2Proof.Machine.execStv v s
  | .ldvc v => Sys2Proof.Machine.execLdvc v s
  | .stvc v => Sys2Proof.Machine.execStvc v s
  | .lds v => Sys2Proof.Machine.execLds v s
  | .sts v => Sys2Proof.Machine.execSts v s
  | .dmain v => Sys2Proof.Machine.execDmain v s
  | .dmaout v => Sys2Proof.Machine.execDmaout v s
  | .atadd v => Sys2Proof.Machine.execAtadd v s
  | .atswp v => Sys2Proof.Machine.execAtswp v s
  | .mma v err => Sys2Proof.Machine.execMma v err s
  | .accz v => Sys2Proof.Machine.execAccz v s
  | .accst v err => Sys2Proof.Machine.execAccst v err s
  | .accv v => Sys2Proof.Machine.execAccv v s
  | .accld v => Sys2Proof.Machine.execAccld v s
  | .vadd v err => Sys2Proof.Machine.execVadd v err s
  | .vsub v err => Sys2Proof.Machine.execVsub v err s
  | .vmul v err => Sys2Proof.Machine.execVmul v err s
  | .vfma v err => Sys2Proof.Machine.execVfma v err s
  | .vmin v => Sys2Proof.Machine.execVmin v s
  | .vmax v => Sys2Proof.Machine.execVmax v s
  | .vabs v => Sys2Proof.Machine.execVabs v s
  | .vneg v => Sys2Proof.Machine.execVneg v s
  | .vand v => Sys2Proof.Machine.execVand v s
  | .vor v => Sys2Proof.Machine.execVor v s
  | .vxor v => Sys2Proof.Machine.execVxor v s
  | .vshl v => Sys2Proof.Machine.execVshl v s
  | .vshr v => Sys2Proof.Machine.execVshr v s
  | .vcmp v => Sys2Proof.Machine.execVcmp v s
  | .vsel v => Sys2Proof.Machine.execVsel v s
  | .vbcast v => Sys2Proof.Machine.execVbcast v s
  | .vcvt v => Sys2Proof.Machine.execVcvt v s
  | .vexp2 v => Sys2Proof.Machine.execVexp2 v s
  | .vlog2 v => Sys2Proof.Machine.execVlog2 v s
  | .vrcp v => Sys2Proof.Machine.execVrcp v s
  | .vrsqrt v => Sys2Proof.Machine.execVrsqrt v s
  | .vtanh v => Sys2Proof.Machine.execVtanh v s
  | .vsigm v => Sys2Proof.Machine.execVsigm v s
  | .verf v => Sys2Proof.Machine.execVerf v s
  | .vredsum v => Sys2Proof.Machine.execVredsum v s
  | .vredmax v => Sys2Proof.Machine.execVredmax v s
  | .vredmin v => Sys2Proof.Machine.execVredmin v s
  | .vargmax v => Sys2Proof.Machine.execVargmax v s
  | .vperm v => Sys2Proof.Machine.execVperm v s
  | .vrot v => Sys2Proof.Machine.execVrot v s
  | .vscan v => Sys2Proof.Machine.execVscan v s
  | .vtopk v => Sys2Proof.Machine.execVtopk v s
  | .vrand v => Sys2Proof.Machine.execVrand v s
  | .vcntp v => Sys2Proof.Machine.execVcntp v s
  | .illegalInstruction v => Sys2Proof.Machine.execIllegalInstruction v s
  | .instrParityError v => Sys2Proof.Machine.execInstrParityError v s
  | .instrComplete v u => Sys2Proof.Machine.execInstrComplete v u s
  | .dmaComplete v src index lines remote => Sys2Proof.Machine.execDmaComplete v src index lines remote s
  | .spileReleaseArrive pg class0 entry => Sys2Proof.Machine.execSpileReleaseArrive pg class0 entry s
  | .kernelWdog v => Sys2Proof.Machine.execKernelWdog v s
  | .dispatchArm a => Sys2Proof.Machine.execDispatchArm a s
  | .dispatchDisarm v e => Sys2Proof.Machine.execDispatchDisarm v e s
  | .dispatchReady v e => Sys2Proof.Machine.execDispatchReady v e s
  | .kernelStart v => Sys2Proof.Machine.execKernelStart v s
  | .loadCommand f job => Sys2Proof.Machine.execLoadCommand f job s
  | .loadStart f => Sys2Proof.Machine.execLoadStart f s
  | .loadDone f bad1 bad2 => Sys2Proof.Machine.execLoadDone f bad1 bad2 s
  | .rotReq fn f v => Sys2Proof.Machine.execRotReq fn f v s
  | .rotationStart f => Sys2Proof.Machine.execRotationStart f s
  | .sweepDone f => Sys2Proof.Machine.execSweepDone f s
  | .rotationSwap f => Sys2Proof.Machine.execRotationSwap f s
  | .rotationClearDone f => Sys2Proof.Machine.execRotationClearDone f s
  | .rotLimitExpire f => Sys2Proof.Machine.execRotLimitExpire f s
  | .stepRecompute step => Sys2Proof.Machine.execStepRecompute step s
  | .spilePost port parity => Sys2Proof.Machine.execSpilePost port parity s
  | .spileWait port parity => Sys2Proof.Machine.execSpileWait port parity s
  | .spileTake port parity => Sys2Proof.Machine.execSpileTake port parity s
  | .spileWithdraw port => Sys2Proof.Machine.execSpileWithdraw port s
  | .splPost fn slot v => Sys2Proof.Machine.execSplPost fn slot v s
  | .splSet fn slot => Sys2Proof.Machine.execSplSet fn slot s
  | .stepJoinRelease step outs => Sys2Proof.Machine.execStepJoinRelease step outs s
  | .spileMap fn tag ctx vgroup die isLocal => Sys2Proof.Machine.execSpileMap fn tag ctx vgroup die isLocal s
  | .spileUnmap fn tag ctx vgroup => Sys2Proof.Machine.execSpileUnmap fn tag ctx vgroup s
  | .bankAssign fn tag ctx die floor vat pinned mask => Sys2Proof.Machine.execBankAssign fn tag ctx die floor vat pinned mask s
  | .bankRelease fn tag ctx die floor vat mask => Sys2Proof.Machine.execBankRelease fn tag ctx die floor vat mask s
  | .bankClearDone v b => Sys2Proof.Machine.execBankClearDone v b s
  | .segAssign fn tag ctx die floor pinned mask => Sys2Proof.Machine.execSegAssign fn tag ctx die floor pinned mask s
  | .segRelease fn tag ctx die floor mask => Sys2Proof.Machine.execSegRelease fn tag ctx die floor mask s
  | .segClearDone f g => Sys2Proof.Machine.execSegClearDone f g s
  | .segRetire f g data => Sys2Proof.Machine.execSegRetire f g data s
  | .tapRequest f r => Sys2Proof.Machine.execTapRequest f r s
  | .tapWdog f port => Sys2Proof.Machine.execTapWdog f port s
  | .tapPrioWrite fn f second v => Sys2Proof.Machine.execTapPrioWrite fn f second v s
  | .lpddrRead die ctx va step o => Sys2Proof.Machine.execLpddrRead die ctx va step o s
  | .lpddrWrite die ctx va data srcBad step o => Sys2Proof.Machine.execLpddrWrite die ctx va data srcBad step o s
  | .frameRecoveryDone die frame data => Sys2Proof.Machine.execFrameRecoveryDone die frame data s
  | .frameAssign fn tag isDomain owner kind r => Sys2Proof.Machine.execFrameAssign fn tag isDomain owner kind r s
  | .frameRelease fn tag isDomain owner r => Sys2Proof.Machine.execFrameRelease fn tag isDomain owner r s
  | .xmap fn tag ctx va pa big w h => Sys2Proof.Machine.execXmap fn tag ctx va pa big w h s
  | .xunmap fn tag ctx va => Sys2Proof.Machine.execXunmap fn tag ctx va s
  | .patrolRead die group ch fail1 fail2 replaced => Sys2Proof.Machine.execPatrolRead die group ch fail1 fail2 replaced s
  | .patrolPassEnd die group => Sys2Proof.Machine.execPatrolPassEnd die group s
  | .channelRetire => Sys2Proof.Machine.execChannelRetire s
  | .retirePassDone => Sys2Proof.Machine.execRetirePassDone s
  | .layerStart v desc rows skimmed sumBad bufParity => Sys2Proof.Machine.execLayerStart v desc rows skimmed sumBad bufParity s
  | .lkpDraftStart rq => Sys2Proof.Machine.execLkpDraftStart rq s
  | .lkpDraftDone rq => Sys2Proof.Machine.execLkpDraftDone rq s
  | .dieRingTransfer src set step va reduce data lost => Sys2Proof.Machine.execDieRingTransfer src set step va reduce data lost s
  | .plPublish head => Sys2Proof.Machine.execPlPublish head s
  | .freeQueueRelease head => Sys2Proof.Machine.execFreeQueueRelease head s
  | .kvWindowAccess die ctx va data host step o => Sys2Proof.Machine.execKvWindowAccess die ctx va data host step o s
  | .plTruncate fn tag rq len => Sys2Proof.Machine.execPlTruncate fn tag rq len s
  | .truncateApply rq => Sys2Proof.Machine.execTruncateApply rq s
  | .rebuildChunk rq o => Sys2Proof.Machine.execRebuildChunk rq o s
  | .spillStart pool => Sys2Proof.Machine.execSpillStart pool s
  | .spillPageDone => Sys2Proof.Machine.execSpillPageDone s
  | .fetchStart rq => Sys2Proof.Machine.execFetchStart rq s
  | .fetchPageDone ok1 ok2 => Sys2Proof.Machine.execFetchPageDone ok1 ok2 s
  | .kvpoolCreate fn tag pool die isDomain owner bytes low high => Sys2Proof.Machine.execKvpoolCreate fn tag pool die isDomain owner bytes low high s
  | .kvpoolAdd fn tag pool sums r => Sys2Proof.Machine.execKvpoolAdd fn tag pool sums r s
  | .kvpoolRemove fn tag pool r => Sys2Proof.Machine.execKvpoolRemove fn tag pool r s
  | .plCreate fn tag rq headVa => Sys2Proof.Machine.execPlCreate fn tag rq headVa s
  | .plDestroy fn tag rq => Sys2Proof.Machine.execPlDestroy fn tag rq s
  | .domainCreate fn tag size => Sys2Proof.Machine.execDomainCreate fn tag size s
  | .domainEnd fn tag dom => Sys2Proof.Machine.execDomainEnd fn tag dom s
  | .cellarAdd fn tag addr len => Sys2Proof.Machine.execCellarAdd fn tag addr len s
  | .cellarRemove fn tag addr len => Sys2Proof.Machine.execCellarRemove fn tag addr len s
  | .admission rq => Sys2Proof.Machine.execAdmission rq s
  | .heldResume rq => Sys2Proof.Machine.execHeldResume rq s
  | .rqCancel fn tag rq => Sys2Proof.Machine.execRqCancel fn tag rq s
  | .rqtCancel fn v => Sys2Proof.Machine.execRqtCancel fn v s
  | .rqRelease fn tag rq => Sys2Proof.Machine.execRqRelease fn tag rq s
  | .resCreate fn tag ctx start g vats banks segs entries positions chunk model => Sys2Proof.Machine.execResCreate fn tag ctx start g vats banks segs entries positions chunk model s
  | .resEnd fn tag ctx => Sys2Proof.Machine.execResEnd fn tag ctx s
  | .modelCost fn tag model cls fix tok key => Sys2Proof.Machine.execModelCost fn tag model cls fix tok key s
  | .rqtLatch fn v => Sys2Proof.Machine.execRqtLatch fn v s
  | .vatReleaseReq f => Sys2Proof.Machine.execVatReleaseReq f s
  | .vatReleaseBanks f => Sys2Proof.Machine.execVatReleaseBanks f s
  | .millSubmit fn tag list => Sys2Proof.Machine.execMillSubmit fn tag list s
  | .millChain fn tag stream list => Sys2Proof.Machine.execMillChain fn tag stream list s
  | .millUnchain fn tag stream => Sys2Proof.Machine.execMillUnchain fn tag stream s
  | .millCancel fn tag ctx => Sys2Proof.Machine.execMillCancel fn tag ctx s
  | .millJobStart pre => Sys2Proof.Machine.execMillJobStart pre s
  | .millTileEnd pre last det badVa => Sys2Proof.Machine.execMillTileEnd pre last det badVa s
  | .millJobEnd job => Sys2Proof.Machine.execMillJobEnd job s
  | .codecOpen fn tag ctx desc => Sys2Proof.Machine.execCodecOpen fn tag ctx desc s
  | .codecClose fn tag stream => Sys2Proof.Machine.execCodecClose fn tag stream s
  | .codecFlush fn tag stream => Sys2Proof.Machine.execCodecFlush fn tag stream s
  | .codecKeyreq fn tag stream => Sys2Proof.Machine.execCodecKeyreq fn tag stream s
  | .codecRcSet fn tag stream desc => Sys2Proof.Machine.execCodecRcSet fn tag stream desc s
  | .codecRingPoll stream => Sys2Proof.Machine.execCodecRingPoll stream s
  | .pictureStart eng syn => Sys2Proof.Machine.execPictureStart eng syn s
  | .pictureDone eng out => Sys2Proof.Machine.execPictureDone eng out s
  | .overloadEnter => Sys2Proof.Machine.execOverloadEnter s
  | .overloadExit => Sys2Proof.Machine.execOverloadExit s
  | .stageCommand unit cmd => Sys2Proof.Machine.execStageCommand unit cmd s
  | .claimOutvote unit => Sys2Proof.Machine.execClaimOutvote unit s
  | .cmHeartbeat unit => Sys2Proof.Machine.execCmHeartbeat unit s
  | .hbMiss unit => Sys2Proof.Machine.execHbMiss unit s
  | .diagPass unit ok sramOk => Sys2Proof.Machine.execDiagPass unit ok sramOk s
  | .diagLate unit => Sys2Proof.Machine.execDiagLate unit s
  | .cmHwDrop unit cause => Sys2Proof.Machine.execCmHwDrop unit cause s
  | .cmReloadDone unit ok => Sys2Proof.Machine.execCmReloadDone unit ok s
  | .copyReceive valid passOk => Sys2Proof.Machine.execCopyReceive valid passOk s
  | .cmSelftestSlice unit result => Sys2Proof.Machine.execCmSelftestSlice unit result s
  | .takeoverTimeout plan => Sys2Proof.Machine.execTakeoverTimeout plan s
  | .cmYield fn unit => Sys2Proof.Machine.execCmYield fn unit s
  | .ctxOpen fn tag isSealed => Sys2Proof.Machine.execCtxOpen fn tag isSealed s
  | .ctxClaim fn sess ctx => Sys2Proof.Machine.execCtxClaim fn sess ctx s
  | .ctxEnd fn tag ctx => Sys2Proof.Machine.execCtxEnd fn tag ctx s
  | .spdmCtxEnd fn sess ctx => Sys2Proof.Machine.execSpdmCtxEnd fn sess ctx s
  | .domainJoin fn tag ctx dom share => Sys2Proof.Machine.execDomainJoin fn tag ctx dom share s
  | .spdmDomainJoin fn sess ctx dom share => Sys2Proof.Machine.execSpdmDomainJoin fn sess ctx dom share s
  | .floorReserve fn tag ctx die mask => Sys2Proof.Machine.execFloorReserve fn tag ctx die mask s
  | .floorRelease fn tag ctx => Sys2Proof.Machine.execFloorRelease fn tag ctx s
  | .ctxQuiesced ctx => Sys2Proof.Machine.execCtxQuiesced ctx s
  | .rinseFillEnd => Sys2Proof.Machine.execRinseFillEnd s
  | .rinseDone => Sys2Proof.Machine.execRinseDone s
  | .structRecopy => Sys2Proof.Machine.execStructRecopy s
  | .drbgReseed ctx => Sys2Proof.Machine.execDrbgReseed ctx s
  | .doeObjectDiscard fn type => Sys2Proof.Machine.execDoeObjectDiscard fn type s
  | .spdmGetVersion fn => Sys2Proof.Machine.execSpdmGetVersion fn s
  | .spdmGetCapabilities fn version => Sys2Proof.Machine.execSpdmGetCapabilities fn version s
  | .spdmNegotiateAlgorithms fn offered => Sys2Proof.Machine.execSpdmNegotiateAlgorithms fn offered s
  | .spdmGetDigests fn => Sys2Proof.Machine.execSpdmGetDigests fn s
  | .spdmGetCertificate fn slot off len => Sys2Proof.Machine.execSpdmGetCertificate fn slot off len s
  | .spdmChallenge fn slot => Sys2Proof.Machine.execSpdmChallenge fn slot s
  | .spdmGetMeasurements fn isSigned => Sys2Proof.Machine.execSpdmGetMeasurements fn isSigned s
  | .spdmKeyExchange fn hashOk => Sys2Proof.Machine.execSpdmKeyExchange fn hashOk s
  | .spdmFinish fn ok events => Sys2Proof.Machine.execSpdmFinish fn ok events s
  | .spdmHeartbeat fn sess => Sys2Proof.Machine.execSpdmHeartbeat fn sess s
  | .spdmKeyUpdate fn sess => Sys2Proof.Machine.execSpdmKeyUpdate fn sess s
  | .spdmEndSession fn sess => Sys2Proof.Machine.execSpdmEndSession fn sess s
  | .getKemKey fn => Sys2Proof.Machine.execGetKemKey fn s
  | .kemCt fn => Sys2Proof.Machine.execKemCt fn s
  | .getLmsSig fn => Sys2Proof.Machine.execGetLmsSig fn s
  | .getLmsCerts fn off len => Sys2Proof.Machine.execGetLmsCerts fn off len s
  | .sessionHbExpire sess => Sys2Proof.Machine.execSessionHbExpire sess s
  | .lmsSigExpire fn => Sys2Proof.Machine.execLmsSigExpire fn s
  | .bottomTreeSwitch => Sys2Proof.Machine.execBottomTreeSwitch s
  | .ownerSet o key => Sys2Proof.Machine.execOwnerSet o key s
  | .ownerTransfer o key => Sys2Proof.Machine.execOwnerTransfer o key s
  | .ownerRelease o => Sys2Proof.Machine.execOwnerRelease o s
  | .pubEnrol o slot key => Sys2Proof.Machine.execPubEnrol o slot key s
  | .pubRevoke o slot => Sys2Proof.Machine.execPubRevoke o slot s
  | .policy o items => Sys2Proof.Machine.execPolicy o items s
  | .debugToken o vendor counter => Sys2Proof.Machine.execDebugToken o vendor counter s
  | .caskLoad k => Sys2Proof.Machine.execCaskLoad k s
  | .caskUnload ctx slot => Sys2Proof.Machine.execCaskUnload ctx slot s
  | .fwStage comp img sigOk kib => Sys2Proof.Machine.execFwStage comp img sigOk kib s
  | .fwStageDone readOk => Sys2Proof.Machine.execFwStageDone readOk s
  | .fwDiscard comp => Sys2Proof.Machine.execFwDiscard comp s
  | .activate comp lead force => Sys2Proof.Machine.execActivate comp lead force s
  | .activationBegin => Sys2Proof.Machine.execActivationBegin s
  | .activationComplete loads => Sys2Proof.Machine.execActivationComplete loads s
  | .activationFail loads => Sys2Proof.Machine.execActivationFail loads s
  | .recoveryWrite img sigOk startOk stored => Sys2Proof.Machine.execRecoveryWrite img sigOk startOk stored s
  | .bistSchedule unit => Sys2Proof.Machine.execBistSchedule unit s
  | .bistReq fn v => Sys2Proof.Machine.execBistReq fn v s
  | .bistSliceStart unit inWindow => Sys2Proof.Machine.execBistSliceStart unit inWindow s
  | .bistSliceStop unit => Sys2Proof.Machine.execBistSliceStop unit s
  | .bistDeferExpire unit => Sys2Proof.Machine.execBistDeferExpire unit s
  | .bistSliceEnd unit mismatch => Sys2Proof.Machine.execBistSliceEnd unit mismatch s
  | .repairStored => Sys2Proof.Machine.execRepairStored s
  | .lpddrPhyCheck die ch ok => Sys2Proof.Machine.execLpddrPhyCheck die ch ok s
  | .kegEyeCheck link ok => Sys2Proof.Machine.execKegEyeCheck link ok s
  | .pcieEyeCheck lane ok => Sys2Proof.Machine.execPcieEyeCheck lane ok s
  | .pllCheck dom ok => Sys2Proof.Machine.execPllCheck dom ok s
  | .pllRelock dom ok => Sys2Proof.Machine.execPllRelock dom ok s
  | .tbLoopbackCheck lineB ok => Sys2Proof.Machine.execTbLoopbackCheck lineB ok s
  | .tbSpanEnd => Sys2Proof.Machine.execTbSpanEnd s
  | .pcieLinkUp speed => Sys2Proof.Machine.execPcieLinkUp speed s
  | .pcieLinkDown => Sys2Proof.Machine.execPcieLinkDown s
  | .d3hotEntry => Sys2Proof.Machine.execD3hotEntry s
  | .atsTranslationRequest fn => Sys2Proof.Machine.execAtsTranslationRequest fn s
  | .vfFlr fn => Sys2Proof.Machine.execVfFlr fn s
  | .cmdRingPoll fn ok => Sys2Proof.Machine.execCmdRingPoll fn ok s
  | .commandResponse fn => Sys2Proof.Machine.execCommandResponse fn s
  | .ctxBind fn tag ctx func slot => Sys2Proof.Machine.execCtxBind fn tag ctx func slot s
  | .ctxUnbind fn tag ctx => Sys2Proof.Machine.execCtxUnbind fn tag ctx s
  | .ringCreate fn tag ctx num addr log2 cq vec ithresh itimeUs => Sys2Proof.Machine.execRingCreate fn tag ctx num addr log2 cq vec ithresh itimeUs s
  | .ringDestroy fn tag ctx num => Sys2Proof.Machine.execRingDestroy fn tag ctx num s
  | .intakePoll inp => Sys2Proof.Machine.execIntakePoll inp s
  | .completionWrite => Sys2Proof.Machine.execCompletionWrite s
  | .cqConsPoll ring => Sys2Proof.Machine.execCqConsPoll ring s
  | .msixItimeExpire ring => Sys2Proof.Machine.execMsixItimeExpire ring s
  | .msixUnmask fn vec => Sys2Proof.Machine.execMsixUnmask fn vec s
  | .winRearm fn => Sys2Proof.Machine.execWinRearm fn s
  | .hostWindowRead fn off len o => Sys2Proof.Machine.execHostWindowRead fn off len o s
  | .hostWindowWrite fn off data o => Sys2Proof.Machine.execHostWindowWrite fn off data o s
  | .kegFlitReceive link ok => Sys2Proof.Machine.execKegFlitReceive link ok s
  | .kegLossTimeout link => Sys2Proof.Machine.execKegLossTimeout link s
  | .kegTrainStart link => Sys2Proof.Machine.execKegTrainStart link s
  | .kegTrainDone link peer => Sys2Proof.Machine.execKegTrainDone link peer s
  | .kegRetrain fn tag link => Sys2Proof.Machine.execKegRetrain fn tag link s
  | .beaconSend => Sys2Proof.Machine.execBeaconSend s
  | .beaconReceive link authOk epoch members reach => Sys2Proof.Machine.execBeaconReceive link authOk epoch members reach s
  | .reachExpire idx => Sys2Proof.Machine.execReachExpire idx s
  | .fenceSelf => Sys2Proof.Machine.execFenceSelf s
  | .kegEpoch fn tag epoch members => Sys2Proof.Machine.execKegEpoch fn tag epoch members s
  | .routeSet fn tag idx link => Sys2Proof.Machine.execRouteSet fn tag idx link s
  | .jobCreate fn tag ctx job epoch members dieSet tableVa => Sys2Proof.Machine.execJobCreate fn tag ctx job epoch members dieSet tableVa s
  | .jobEnd fn tag job => Sys2Proof.Machine.execJobEnd fn tag job s
  | .rwinBind fn tag ctx job => Sys2Proof.Machine.execRwinBind fn tag ctx job s
  | .rwinUnbind fn tag ctx job => Sys2Proof.Machine.execRwinUnbind fn tag ctx job s
  | .remoteAccess incoming job ctx va data step back o => Sys2Proof.Machine.execRemoteAccess incoming job ctx va data step back o s
  | .cabIndexWrite fn v => Sys2Proof.Machine.execCabIndexWrite fn v s
  | .collOpStart op heads dim wide => Sys2Proof.Machine.execCollOpStart op heads dim wide s
  | .collRecordReceive link tagOk bad r => Sys2Proof.Machine.execCollRecordReceive link tagOk bad r s
  | .collOpDone op => Sys2Proof.Machine.execCollOpDone op s
  | .rerunReceive link job seq => Sys2Proof.Machine.execRerunReceive link job seq s
  | .abortReceive link job => Sys2Proof.Machine.execAbortReceive link job s
  | .pull => Sys2Proof.Machine.execPull s
  | .mateEarlyReturn => Sys2Proof.Machine.execMateEarlyReturn s
  | .mateLateBreak => Sys2Proof.Machine.execMateLateBreak s
  | .regulatorStart recover => Sys2Proof.Machine.execRegulatorStart recover s
  | .supplySample mv ma => Sys2Proof.Machine.execSupplySample mv ma s
  | .pwrWarnLow => Sys2Proof.Machine.execPwrWarnLow s
  | .shedEnd => Sys2Proof.Machine.execShedEnd s
  | .powerInterval => Sys2Proof.Machine.execPowerInterval s
  | .thermalSample junctions inlet outlet => Sys2Proof.Machine.execThermalSample junctions inlet outlet s
  | .thermalTrip => Sys2Proof.Machine.execThermalTrip s
  | .coolantAlarm => Sys2Proof.Machine.execCoolantAlarm s
  | .thermAlertLow => Sys2Proof.Machine.execThermAlertLow s
  | .thermAlertClear => Sys2Proof.Machine.execThermAlertClear s
  | .orphanTimeout => Sys2Proof.Machine.execOrphanTimeout s
  | .mctpSetEndpointId eid => Sys2Proof.Machine.execMctpSetEndpointId eid s
  | .mctpGetEndpointId => Sys2Proof.Machine.execMctpGetEndpointId s
  | .mctpGetVersionSupport type => Sys2Proof.Machine.execMctpGetVersionSupport type s
  | .mctpGetMessageTypeSupport => Sys2Proof.Machine.execMctpGetMessageTypeSupport s
  | .mctpDrop type => Sys2Proof.Machine.execMctpDrop type s
  | .pldmGetTid => Sys2Proof.Machine.execPldmGetTid s
  | .pldmGetPldmVersion type => Sys2Proof.Machine.execPldmGetPldmVersion type s
  | .pldmGetPldmTypes => Sys2Proof.Machine.execPldmGetPldmTypes s
  | .pldmGetPldmCommands type => Sys2Proof.Machine.execPldmGetPldmCommands type s
  | .pldmGetPdr handle => Sys2Proof.Machine.execPldmGetPdr handle s
  | .pldmGetSensorReading sensor => Sys2Proof.Machine.execPldmGetSensorReading sensor s
  | .pldmGetStateSensorReadings sensor => Sys2Proof.Machine.execPldmGetStateSensorReadings sensor s
  | .pldmSetNumericEffecterValue v => Sys2Proof.Machine.execPldmSetNumericEffecterValue v s
  | .pldmSetStateEffecterStates => Sys2Proof.Machine.execPldmSetStateEffecterStates s
  | .pldmPollPlatformEvent => Sys2Proof.Machine.execPldmPollPlatformEvent s
  | .pldmGetFruRecordTable => Sys2Proof.Machine.execPldmGetFruRecordTable s
  | .pldmUnsupported type cmd => Sys2Proof.Machine.execPldmUnsupported type cmd s
  | .powerOnReset => Sys2Proof.Machine.execPowerOnReset s
  | .moduleReset mateReturn recover => Sys2Proof.Machine.execModuleReset mateReturn recover s
  | .hostReset cause => Sys2Proof.Machine.execHostReset cause s
  | .hostFillDone => Sys2Proof.Machine.execHostFillDone s
  | .startupPhaseEnd out => Sys2Proof.Machine.execStartupPhaseEnd out s
  | .startLate => Sys2Proof.Machine.execStartLate s
  | .perstDeassert => Sys2Proof.Machine.execPerstDeassert s
  | .configRequest fn => Sys2Proof.Machine.execConfigRequest fn s
  | .linkDeclaredFailed die far steps => Sys2Proof.Machine.execLinkDeclaredFailed die far steps s
  | .modResetNRise recover => Sys2Proof.Machine.execModResetNRise recover s
  | .standbyCoreRestart unit => Sys2Proof.Machine.execStandbyCoreRestart unit s
  | .frameClearDone die first => Sys2Proof.Machine.execFrameClearDone die first s
  | .caskLoadDone data again => Sys2Proof.Machine.execCaskLoadDone data again s
  | .passPositionStore => Sys2Proof.Machine.execPassPositionStore s
  | .structureCopyDone => Sys2Proof.Machine.execStructureCopyDone s

end Sys2Proof.Machine
end

