-- ==== Sys2Proof/Safety.lean ====
section
/-! DEFINITION. What a safe run is: no step stops, and the sparse stores keep their canonical form, so that equal contents are equal data. -/

namespace Sys2Proof

open Machine

/-- The four byte stores (vat stores, floor stores, main memory, host memory) are in canonical form, and the keys of the register and counter maps
rise strictly. -/
structure Canonical (s : State) : Prop where
  vstore : Memory.wf s.vstore = true
  fstore : Memory.wf s.fstore = true
  mem : Memory.wf s.lp.mem = true
  host : Memory.wf s.host.mem = true
  regs : AMap.sorted s.regs = true
  ctrs : AMap.sorted s.ctrs = true

/-! ## Terms of the statements: kernels -/

/-- The running kernel of the vat is `k`, nothing holds its front end, the word at its program counter is `w` with opcode `op`, and no check of R88
fails. -/
def AtWord (s : State) (v : VatId) (op : Nat) (k : Kernel) (w : IW) : Prop :=
  s.fetch (vatPg v) = some (k, w) ∧ w.op = op ∧ k.illegal w = false

/-- The queue of unit `u` has room (R91). -/
def HasRoom (k : Kernel) (u : Unit3) : Prop := (k.queue u).length < queueCap u

/-- `k'` is `k` gone on to the next word (R94) with marks `ms` at the end of unit `u`'s queue (R91, R92); its registers are free. -/
def Issued (k k' : Kernel) (u : Unit3) (ms : List Mark) : Prop :=
  (k'.pc, k'.loops) = nextPc k.pc k.loops ∧ k'.queue u = k.queue u ++ [ms] ∧ (∀ w, w ≠ u → k'.queue w = k.queue w) ∧
    k'.desc = k.desc ∧ k'.ctx = k.ctx ∧ k'.step = k.step ∧ k'.hold = k.hold ∧ k'.heldPosts = k.heldPosts

/-- Scalar registers of `k'`: `dst` holds `val` modulo 2^32, register 0 reads 0, the others are as in `k`. -/
def XSet (k k' : Kernel) (dst val : Nat) : Prop :=
  ∀ r, k'.xr r = if r = 0 then 0 else if r = dst then val % 2 ^ 32 else k.xr r

/-- Lanes of `k'`: of register `dst`, the lanes that `p` selects hold `f` of the lane, modulo 2^32; every other lane and register is as in `k`. -/
def VSet (k k' : Kernel) (dst : Nat) (p : Nat → Bool) (f : Nat → Nat) : Prop :=
  ∀ r l, l < 64 → k'.vr r l = if r = dst ∧ p l = true then f l % 2 ^ 32 else k.vr r l

/-- `k'` is `k` gone on to the next word (R94) with nothing queued. -/
def Moved (k k' : Kernel) : Prop :=
  (k'.pc, k'.loops) = nextPc k.pc k.loops ∧ (∀ u, k'.queue u = k.queue u) ∧ k'.dmas = k.dmas ∧ k'.desc = k.desc ∧ k'.ctx = k.ctx ∧
    k'.step = k.step ∧ k'.hold = k.hold ∧ k'.heldPosts = k.heldPosts

def SameX (k k' : Kernel) : Prop := k'.x = k.x
def SameV (k k' : Kernel) : Prop := k'.v = k.v
def SameP (k k' : Kernel) : Prop := k'.p = k.p
def SameAcc (k k' : Kernel) : Prop := k'.acc = k.acc ∧ k'.int0 = k.int0 ∧ k'.int1 = k.int1

/-- The four byte stores read the same at every address. -/
def SameBytes (s t : State) : Prop :=
  (∀ a, bget t.vstore a = bget s.vstore a) ∧ (∀ a, bget t.fstore a = bget s.fstore a) ∧
    (∀ a, bget t.lp.mem a = bget s.lp.mem a) ∧ ∀ a, bget t.host.mem a = bget s.host.mem a

/-- Vat-store bytes after a store of the bytes `ws` by kernel `k`: those it may reach hold what is written, and every byte that none of them names
is as before; the other stores are untouched. -/
def Stored (s t : State) (pg : Nat) (k : Kernel) (ws : List (Nat × Nat)) : Prop :=
  (∀ a b key, (a, b) ∈ ws → s.kkey pg k a = some key → bget t.vstore key = BitVec.ofNat 8 b) ∧
    (∀ key, (∀ a b, (a, b) ∈ ws → s.kkey pg k a ≠ some key) → bget t.vstore key = bget s.vstore key) ∧
    (∀ a, bget t.fstore a = bget s.fstore a) ∧ (∀ a, bget t.lp.mem a = bget s.lp.mem a) ∧ ∀ a, bget t.host.mem a = bget s.host.mem a

/-- Register fields, and everything but the vats, the byte stores and the counters, are as before. -/
def SameElse (s t : State) : Prop :=
  t.regs = s.regs ∧ t.steps = s.steps ∧ t.spl = s.spl ∧ t.floors = s.floors ∧ t.msgs = s.msgs ∧ t.pending = s.pending ∧ t.now = s.now ∧
    (t.rqt = s.rqt ∧ t.kv = s.kv ∧ t.ctxs = s.ctxs ∧ t.casks = s.casks ∧ t.mill = s.mill ∧ t.codec = s.codec ∧ t.keg = s.keg ∧ t.gau = s.gau ∧
      t.fw = s.fw ∧ t.bist = s.bist ∧ t.pwr = s.pwr ∧ t.start = s.start)

/-- Every vat but the one of page `pg` is as before. -/
def OtherVats (s t : State) (pg : Nat) : Prop := ∀ p, p ≠ pg → t.vat p = s.vat p

/-- A two's complement reading of a 32-bit word. -/
abbrev signed (a : Nat) : Int := (BitVec.ofNat 32 a).toInt

/-- The scalar instructions of two sources, their opcodes, and what each gives from the two words (R86). -/
def scalarTable : List ((VatId → Instr) × Nat × (Nat → Nat → Nat)) :=
  [(.add, 0x10, fun a b => a + b), (.sub, 0x11, fun a b => a + (2 ^ 32 - b % 2 ^ 32)), (.mul, 0x13, fun a b => a * b),
   (.and, 0x14, fun a b => a &&& b), (.or, 0x15, fun a b => a ||| b), (.xor, 0x16, fun a b => a ^^^ b),
   (.shl, 0x17, fun a b => a * 2 ^ (b % 32)), (.shr, 0x18, fun a b => a / 2 ^ (b % 32)),
   (.sra, 0x19, fun a b => ((BitVec.ofNat 32 a).sshiftRight (b % 32)).toNat),
   (.min, 0x1A, fun a b => if signed a < signed b then a else b), (.max, 0x1B, fun a b => if signed a < signed b then b else a),
   (.slt, 0x1C, fun a b => if signed a < signed b then 1 else 0), (.seq, 0x1D, fun a b => if a = b then 1 else 0)]

/-- The instructions that work lane by lane, their opcodes, and what each gives from the words of `vSA` and `vSB` in a lane (R86, R87, R127, R130);
`w` is the instruction word. Those under the residue check stand for a check that holds. -/
def laneTable : List ((VatId → Instr) × Nat × (IW → Nat → Nat → Nat)) :=
  [(fun v => .vadd v false, 0x40, fun w a b => if nbit w.fmt 0 then a + b else f32Add a b),
   (fun v => .vsub v false, 0x41, fun w a b => if nbit w.fmt 0 then a + (2 ^ 32 - b % 2 ^ 32) else f32Sub a b),
   (fun v => .vmul v false, 0x42, fun w a b => if nbit w.fmt 0 then a * b else f32Mul a b),
   (.vmin, 0x44, fun w a b => if nbit w.fmt 0 then (if signed a < signed b then a else b) else f32MinMax false a b),
   (.vmax, 0x45, fun w a b => if nbit w.fmt 0 then (if signed a < signed b then b else a) else f32MinMax true a b),
   (.vabs, 0x46, fun w a _ => if nbit w.fmt 0 then (if signed a < 0 then 2 ^ 32 - a % 2 ^ 32 else a) else toF32 (fabs (f32 a))),
   (.vneg, 0x47, fun w a _ => if nbit w.fmt 0 then 2 ^ 32 - a % 2 ^ 32 else toF32 (fneg (f32 a))),
   (.vand, 0x48, fun _ a b => a &&& b), (.vor, 0x49, fun _ a b => a ||| b), (.vxor, 0x4A, fun _ a b => a ^^^ b),
   (.vshl, 0x4B, fun _ a b => a * 2 ^ (b % 32)),
   (.vshr, 0x4C, fun w a b => if nbit w.fmt 1 then ((BitVec.ofNat 32 a).sshiftRight (b % 32)).toNat else a / 2 ^ (b % 32)),
   (.vexp2, 0x51, fun _ a _ => vfn .exp2 a), (.vlog2, 0x52, fun _ a _ => vfn .log2 a), (.vrcp, 0x53, fun _ a _ => vfn .rcp a),
   (.vrsqrt, 0x54, fun _ a _ => vfn .rsqrt a), (.vtanh, 0x55, fun _ a _ => vfn .tanh a), (.vsigm, 0x56, fun _ a _ => vfn .sigm a),
   (.verf, 0x57, fun _ a _ => vfn .erf a)]

/-- Event `bit` of page `pg` is latched (R37). -/
def Raised (t : State) (pg bit : Nat) : Prop := nbit (t.rd pg F.EVT_RAW) bit = true

/-! ## Terms of the statements: commands -/

/-- Nothing keeps the command with opcode `op` of function `fn` from being performed: the module is READY (R543), no earlier command of the function
holds it (R484), the function may issue it (R482), and a unit of the Cellarmaster pair is in control where it is one of theirs (R388). -/
def Performs (s : State) (fn op : Nat) (vf : Bool := vfMay op) : Prop :=
  s.ready = true ∧ s.holding fn = false ∧ (fn = 0 ∨ vf = true) ∧
    (cmOp op = true → s.inControl = true ∧ (s.cmRetired 0 && s.cmRetired 1) = false)

/-- The state with a command off the list of commands taken. -/
def untake (s : State) (fn tag op : Nat) : State := { s with host := { s.host with taken := s.host.taken.erase (fn, tag, op) } }

/-- The one response added is that of the command `tag` of function `fn` (R483, R484). -/
def Answered (s t : State) (fn tag status result : Nat) : Prop :=
  t.host.resps = s.host.resps ++ [{ fn := fn, tag := tag, status := status, result := result }]

/-- Every register field but those at the listed keys reads as before. -/
def RegsBut (s t : State) (l : List Nat) : Prop := ∀ pg F i, fkey pg F i ∉ l → t.rdi pg F i = s.rdi pg F i

/-- Nothing changes but register fields, counters, messages on their way out, and the lists of commands and responses. -/
def Quiet (s t : State) : Prop :=
  t = { s with regs := t.regs, ctrs := t.ctrs, msgs := t.msgs, host := t.host } ∧
    t.host = { s.host with msixPend := t.host.msixPend, heldMsgs := t.host.heldMsgs, taken := t.host.taken, resps := t.host.resps, waits := t.host.waits }

/-- No response is added, and no command comes to wait. -/
def NoAnswer (s t : State) : Prop := t.host.resps = s.host.resps ∧ t.host.waits = s.host.waits ∧ t.host.taken = s.host.taken

/-- Unit `u` of the Cellarmaster pair has dropped its claim for a cause that counts (R387, R388): it runs its self-test, or is retired at the third such
drop in 24 hours. -/
def Dropped (s t : State) (u cause : Nat) : Prop :=
  t.claim u = 0 ∧ t.rd (pgCM u) F.CM_DROP_CAUSE = cause ∧ t.rd (pgCM u) F.CM_HEALTH_GOOD_COPIES = 0 ∧ Raised t (pgCM u) 0 ∧
    t.ctr (pgCM u) 0x060 = s.ctr (pgCM u) 0x060 + 1 ∧ ((s.recentDrops u).length < 2 → t.role u = roleSelftest) ∧
    (2 ≤ (s.recentDrops u).length → t.role u = roleRetired ∧ t.isRetired (pgCM u) = true)

/-- SPDM requests are answered: the DOE is there (R429), and no activation of the Gauger is under way (R433). -/
def SpdmUp (s : State) : Prop := s.doeUp = true ∧ s.gau.paused = false

/-- A response can be signed: the trees have leaves, and the budget of the hour is not spent (R425, R428, R431). -/
def CanSign (s : State) : Prop :=
  s.hssExhausted = false ∧ (s.gau.reports.filter fun c => decide (s.now < c + clkHour)).length < s.rd pgGAU F.GAU_LMS_BUDGET ∧
    s.rd pgGAU F.GAU_HSS_BOTTOM_USED < 1024

/-- The request's answer is the one message added. -/
def Replied (s t : State) (fn : Nat) (ws : List Nat) : Prop := t.msgs = .reply 10 (fn :: ws) :: s.msgs

/-- A bottom leaf signed the answer (R425): it is counted, and kept for GET_LMS_SIG. -/
def Signed (s t : State) (fn : Nat) : Prop :=
  t.rd pgGAU F.GAU_HSS_BOTTOM_USED = s.rd pgGAU F.GAU_HSS_BOTTOM_USED + 1 ∧ t.ctr pgGAU 0x054 = s.ctr pgGAU 0x054 + 1 ∧
    (t.conn fn).lastSigned = some (s.now, s.rd pgGAU F.GAU_HSS_BOTTOM_USED)

/-- The mailbox has a command that nothing keeps from being performed (R444). -/
def MailOpen (s : State) : Prop :=
  s.ready = true ∧ s.on pgGAU F.MBX_STAT_BUSY = true ∧ s.gau.paused = false ∧ s.gau.loading = none ∧ s.linkUp = true

/-- The mailbox command has completed with a status (R444). -/
def Mailed (s t : State) (status : Nat) : Prop :=
  t.rd pgGAU F.MBX_STAT_BUSY = 0 ∧ t.rd pgGAU F.MBX_STAT_DONE = 1 ∧ t.rd pgGAU F.MBX_STAT_STATUS = status ∧ Raised t pgGAU 0 ∧
    t.ctr pgGAU 0x04C = s.ctr pgGAU 0x04C + 1

/-- The blob of an owner command is in order: signed by the owner, for this module, with a number above the last (R439). -/
def BlobOk (s : State) (o : OwnerBlob) : Prop :=
  o.sigOk = true ∧ s.gau.ownerKey.isSome = true ∧ o.forUs = true ∧ s.gau.ownerSeq < o.seq.toNat

/-- The one message added is an MCTP control answer (R535). -/
def MctpSaid (s t : State) (ws : List Nat) : Prop :=
  t = { s with ctrs := t.ctrs, pwr := t.pwr, msgs := .reply 20 ws :: s.msgs } ∧ t.ctr pgMGMT 0x04C = s.ctr pgMGMT 0x04C + 1

/-- The one message added is a PLDM answer, which is counted (R535). -/
def PldmSaid (s t : State) (type cmd cc : Nat) (ws : List Nat) : Prop :=
  t = { s with ctrs := t.ctrs, pwr := t.pwr, msgs := .reply 21 (type :: cmd :: cc :: ws) :: s.msgs } ∧
    t.ctr pgMGMT 0x04C = s.ctr pgMGMT 0x04C + 1 ∧ t.ctr pgMGMT 0x054 = s.ctr pgMGMT 0x054 + 1

/-- A step that answers a next state. -/
def Steps (s t : State) : Prop := step s = .next t

/-- No step from the state stops: it answers a next state. -/
def SafeStep (s : State) : Prop := ∃ t, Steps s t

end Sys2Proof
end

