-- ==== Sys2Proof/Certificates/Slice0/Obligations.lean ====
section
/-! DEFINITION. The statements about the model, each a `Prop`, from the numbered rules of the spec. -/

open Sys2Proof Sys2Proof.Machine

/-! ## Kernel instructions (R86–R94, R115–R132) -/

/-- R86: the scalar instructions. `xDST` takes the result modulo 2^32, register 0 reads 0 and takes nothing, and nothing of the machine but this
kernel's program counter and `xDST` changes. R86, R94: NOP, BR, LOOP and SYNC. A taken branch reaches the word `IMM` away, inside the kernel's code;
LOOP opens a body of `IMM`[15:0] words or skips it at a count of 0; the registers and the rest of the machine are as before. The readings of the spec
that this rests on are the model's own, assumption log 8, 9, 21, 26. -/
def Obligations.ScalarAndControlResults : Prop :=
  ((∀ e ∈ scalarTable, ∀ (v : VatId) (s : State) (k : Kernel) (w : IW), AtWord s v e.2.1 k w → k.xFree [w.dst, w.sa, w.sb] = true →
    ∃ k', exec (e.1 v) s = .next (s.setKern (vatPg v) (some k')) ∧ XSet k k' w.dst (e.2.2 (k.xr w.sa) (k.xr w.sb)) ∧ Moved k k' ∧
      SameV k k' ∧ SameP k k' ∧ SameAcc k k') ∧
  (∀ (v : VatId) (s : State) (k : Kernel) (w : IW), AtWord s v 0x12 k w → k.xFree [w.dst, w.sa] = true →
    ∃ k', exec (.addi v) s = .next (s.setKern (vatPg v) (some k')) ∧ XSet k k' w.dst (k.xr w.sa + w.imm) ∧ Moved k k' ∧ SameV k k' ∧
      SameP k k' ∧ SameAcc k k') ∧
  (∀ (v : VatId) (s : State) (k : Kernel) (w : IW), AtWord s v 0x1E k w → k.xFree [w.dst] = true →
    ∃ k', exec (.li v) s = .next (s.setKern (vatPg v) (some k')) ∧ XSet k k' w.dst w.imm ∧ Moved k k' ∧ SameV k k' ∧ SameP k k' ∧
      SameAcc k k')) ∧
  ((∀ (v : VatId) (s : State) (k : Kernel) (w : IW), AtWord s v 0x00 k w →
    ∃ k', exec (.nop v) s = .next (s.setKern (vatPg v) (some k')) ∧ Moved k k' ∧ SameX k k' ∧ SameV k k' ∧ SameP k k' ∧ SameAcc k k') ∧
  (∀ (v : VatId) (s : State) (k : Kernel) (w : IW), AtWord s v 0x02 k w → nbit w.fmt 0 = true ∨ k.xFree [w.sa] = true →
    ∃ k', exec (.br v) s = .next (s.setKern (vatPg v) (some k')) ∧ SameX k k' ∧ SameV k k' ∧ SameP k k' ∧ SameAcc k k' ∧
      (nbit w.fmt 0 = true ∨ k.xr w.sa ≠ 0 →
        (k'.pc : Int) = k.pc + sext w.imm 32 ∧ descHolds k.desc k'.pc = true ∧ ∀ l ∈ k'.loops, l ∈ k.loops) ∧
      (nbit w.fmt 0 = false → k.xr w.sa = 0 → Moved k k')) ∧
  (∀ (v : VatId) (s : State) (k : Kernel) (w : IW), AtWord s v 0x03 k w → k.xFree [w.sa] = true →
    ∃ k', exec (.loop v) s = .next (s.setKern (vatPg v) (some k')) ∧ SameX k k' ∧ SameV k k' ∧ SameP k k' ∧ SameAcc k k' ∧
      (0 < k.loopCount w → 0 < bits w.imm 0 16 → k'.pc = k.pc + 1 ∧
        k'.loops = { start := k.pc + 1, last := k.pc + bits w.imm 0 16, left := k.loopCount w } :: k.loops ∧ k'.loops.length ≤ 4) ∧
      (k.loopCount w = 0 → k.loops = [] → k'.pc = k.pc + bits w.imm 0 16 + 1 ∧ k'.loops = [])) ∧
  (∀ (v : VatId) (s : State) (k : Kernel) (w : IW), AtWord s v 0x04 k w → (nbit w.imm 0 = true → k.tunQ = []) → (nbit w.imm 1 = true → k.vecQ = []) →
    (nbit w.imm 2 = true → k.lseQ = []) →
    ∃ k', exec (.sync v) s = .next (s.setKern (vatPg v) (some k')) ∧ Moved k k' ∧ SameX k k' ∧ SameV k k' ∧ SameP k k' ∧ SameAcc k k'))

/-- R144, R145, R153: SPWAIT and SPTAKE send their operation and hold the front end; SPPOST to a LOCAL group sends its post, and to another group
keeps it for END. The readings of the spec that this rests on are the model's own, assumption log 8, 9, 27. -/
def Obligations.SpileInstructions : Prop :=
  ∀ (v : VatId) (s : State) (k : Kernel) (w : IW) (op : Nat) (phys : Nat) (isLocal : Bool), AtWord s v op k w →
    k.xFree [w.sa, w.sb] = true → s.spMap k.ctx ((k.xr w.sa + bits w.imm 0 12) % 2 ^ 32) = some (phys, isLocal) →
    let n := (k.xr w.sa + bits w.imm 0 12) % 2 ^ 32
    let msg := fun (o : SpOp) => ({ port := vatPg v, ctx := k.ctx, v := n, phys := phys, op := o } : SpMsg)
    let who := Who.front (vatPg v) (k.cls == 0)
    (op = 0x05 → ∃ t k', exec (.spwait v) s = .next t ∧ t = ((s.setKern (vatPg v) (some k')).send (msg (.wait (k.xr w.sb) who))) ∧
      k'.hold = some { take := false, v := n, n := k.xr w.sb } ∧ (k'.pc, k'.loops) = nextPc k.pc k.loops ∧ SameX k k' ∧ SameV k k' ∧ SameP k k') ∧
    (op = 0x07 → ∃ t k', exec (.sptake v) s = .next t ∧ t = ((s.setKern (vatPg v) (some k')).send (msg (.take (k.xr w.sb) who))) ∧
      k'.hold = some { take := true, v := n, n := k.xr w.sb } ∧ (k'.pc, k'.loops) = nextPc k.pc k.loops ∧ SameX k k' ∧ SameV k k' ∧ SameP k k') ∧
    (op = 0x06 → isLocal = true → ∃ k', exec (.sppost v) s = .next ((s.setKern (vatPg v) (some k')).send (msg (.post (k.xr w.sb)))) ∧
      Moved k k' ∧ SameX k k' ∧ SameV k k' ∧ SameP k k') ∧
    (op = 0x06 → isLocal = false → ∃ t k', exec (.sppost v) s = .next t ∧ t.kern (vatPg v) = some k' ∧ t.spl.flight = s.spl.flight ∧
      k'.heldPosts = k.heldPosts ++ [(n, k.xr w.sb)] ∧ k'.hold = none ∧ SameX k k' ∧ t.ctr (pgSPL k.ctx) 0x05C = s.ctr (pgSPL k.ctx) 0x05C + 1)

/-- R84, R86, R88, R95: what ends a kernel. END posts the done spile with 1 and the vat counts the kernel's clocks; TRAP, a word that fails a check of
R88 and a kernel at its limit end it and fail its step with FAULT. The vat is left without a kernel where none is suspended. The readings of the spec
that this rests on are the model's own, assumption log 8, 9, 21, 70. -/
def Obligations.KernelEnds : Prop :=
  (∀ (v : VatId) (s : State) (k : Kernel) (w : IW) (phys : Nat) (l : Bool), AtWord s v 0x01 k w → k.drained = true →
    (s.vat (vatPg v)).susp = none → k.heldPosts = [] → s.spMap k.ctx k.desc.doneSpile = some (phys, l) →
    ∃ t, exec (.endKernel v) s = .next t ∧ t.kern (vatPg v) = none ∧ t.steps = s.steps ∧
      t.spl.flight = s.spl.flight ++ [{ port := vatPg v, ctx := k.ctx, v := k.desc.doneSpile, phys := phys, op := .post 1 }] ∧
      t.ctr (vatPg v) 0x04C = s.ctr (vatPg v) 0x04C + k.clk s) ∧
  (∀ (v : VatId) (s : State) (k : Kernel) (w : IW) (st : Step), AtWord s v 0x08 k w → k.drained = true → (s.vat (vatPg v)).susp = none →
    s.step1 k.step = some st → st.status = 0 →
    ∃ t, exec (.trap v) s = .next t ∧ t.kern (vatPg v) = none ∧
      t.step1 k.step = some { st with status := 0x40, code := bits w.imm 0 16 } ∧ Raised t (pgCEV k.ctx) 2) ∧
  (∀ (v : VatId) (s : State) (k : Kernel) (w : IW) (st : Step), s.fetch (vatPg v) = some (k, w) → k.illegal w = true →
    (s.vat (vatPg v)).susp = none → s.step1 k.step = some st → st.status = 0 →
    ∃ t, exec (.illegalInstruction v) s = .next t ∧ t.kern (vatPg v) = none ∧ (∃ u, t.step1 k.step = some u ∧ u.status = 0x40) ∧
      Raised t (vatPg v) 0 ∧ Raised t (pgCEV k.ctx) 0 ∧ t.vstore = s.vstore) ∧
  (∀ (v : VatId) (s : State) (k : Kernel) (st : Step), s.kern (vatPg v) = some k → wdogLimit k.desc ≤ k.clk s →
    (s.vat (vatPg v)).susp = none → s.step1 k.step = some st → st.status = 0 →
    ∃ t, exec (.kernelWdog v) s = .next t ∧ t.kern (vatPg v) = none ∧ (∃ u, t.step1 k.step = some u ∧ u.status = 0x40) ∧
      Raised t (vatPg v) 2) ∧
  (∀ (v : VatId) (s : State) (k : Kernel) (u : Fin 3), s.kern (vatPg v) = some k →
    ∃ k', exec (.instrComplete v u) s = .next (s.setKern (vatPg v) (some k')) ∧ SameX k k' ∧ SameV k k' ∧ SameP k k' ∧ SameAcc k k' ∧
      k'.pc = k.pc ∧ k'.queue ([Unit3.tun, .vec, .lse].getD u.val .tun) = (k.queue ([Unit3.tun, .vec, .lse].getD u.val .tun)).drop 1)

/-- R86, R87, R92, R127: the lane-wise vector instructions. The active lanes of `vDST` take the result modulo 2^32, every other lane and register
stays, the unit's queue takes the mark of `vDST`, and beside the kernel only the vat's count of vector instructions changes. The readings of the spec
that this rests on are the model's own, assumption log 8, 9, 12, 23. -/
def Obligations.LaneResults : Prop :=
  ∀ e ∈ laneTable, ∀ (v : VatId) (s : State) (k : Kernel) (w : IW), AtWord s v e.2.1 k w → HasRoom k .vec →
    ∃ k', exec (e.1 v) s = .next ((s.count (vatPg v) 0x054 1).setKern (vatPg v) (some k')) ∧
      VSet k k' w.dst (k.active w) (fun l => e.2.2 w (k.vr w.sa l) (k.vr w.sb l)) ∧ Issued k k' .vec [.v w.dst] ∧ SameX k k' ∧ SameP k k' ∧
      SameAcc k k'

/-- R86, R87, R125: VFMA rounds once, VCVT converts by `FMT`[1:0], VSEL selects and disables nothing, VBCAST spreads `xSA`, VPERM gathers lane `vSB`
mod 64, VROT moves lanes up by `xSB` mod 64; VCMP sets its predicate's active lanes by the condition and clears the disabled ones. The readings of the
spec that this rests on are the model's own, assumption log 8, 9, 20, 23. -/
def Obligations.VectorResults : Prop :=
  ∀ (v : VatId) (s : State) (k : Kernel) (w : IW) (op : Nat), AtWord s v op k w → HasRoom k .vec →
    let t := fun k' => (s.count (vatPg v) 0x054 1).setKern (vatPg v) (some k')
    let kept := fun k' => Issued k k' .vec [.v w.dst] ∧ SameX k k' ∧ SameP k k' ∧ SameAcc k k'
    (op = 0x43 → ∃ k', exec (.vfma v false) s = .next (t k') ∧ kept k' ∧ VSet k k' w.dst (k.active w) (fun l =>
      if nbit w.fmt 0 then k.vr w.sa l * k.vr w.sb l + k.vr w.dst l else f32Fma (k.vr w.sa l) (k.vr w.sb l) (k.vr w.dst l))) ∧
    (op = 0x50 → ∃ k', exec (.vcvt v) s = .next (t k') ∧ kept k' ∧ VSet k k' w.dst (k.active w) (fun l =>
      if w.fmt % 4 = 0 then ofI32 (toIntSat 32 false (f32 (k.vr w.sa l)))
      else if w.fmt % 4 = 1 then ofI32 (toIntSat 32 true (f32 (k.vr w.sa l)))
      else if w.fmt % 4 = 2 then toF32 (fOfInt (signed (k.vr w.sa l))) else fBf16.pack (f32 (k.vr w.sa l)) * 65536)) ∧
    (op = 0x4E → ∃ k', exec (.vsel v) s = .next (t k') ∧ kept k' ∧
      VSet k k' w.dst (fun _ => true) (fun l => if k.active w l then k.vr w.sa l else k.vr w.sb l)) ∧
    (op = 0x4F → ∃ k', exec (.vbcast v) s = .next (t k') ∧ kept k' ∧ VSet k k' w.dst (k.active w) (fun _ => k.xr w.sa)) ∧
    (op = 0x5C → ∃ k', exec (.vperm v) s = .next (t k') ∧ kept k' ∧
      VSet k k' w.dst (k.active w) (fun l => k.vr w.sa (k.vr w.sb l % 64))) ∧
    (op = 0x5D → ∃ k', exec (.vrot v) s = .next (t k') ∧ kept k' ∧
      VSet k k' w.dst (k.active w) (fun l => k.vr w.sa ((l + 64 - k.xr w.sb % 64) % 64))) ∧
    (op = 0x4D → ∃ k', exec (.vcmp v) s = .next (t k') ∧ Issued k k' .vec [.p (w.dst % 8)] ∧ SameX k k' ∧ SameV k k' ∧ SameAcc k k' ∧
      (w.dst % 8 ≠ 0 → ∀ l, l < 64 → nbit (k'.pr w.dst) l = (k.active w l &&
        (if nbit w.fmt 0 then cmpI32 (bits w.fmt 1 3) (k.vr w.sa l) (k.vr w.sb l) else cmpF32 (bits w.fmt 1 3) (k.vr w.sa l) (k.vr w.sb l)))) ∧
      ∀ r, r % 8 ≠ w.dst % 8 → k'.pr r = k.pr r)

/-- R128, R129: the reductions write one scalar register. A reduction of no active lane gives the neutral value of its kind (VARGMAX 0xFFFF_FFFF),
VARGMAX otherwise names an active lane that no active lane ranks above, VCNTP counts the ones of the predicate. R128, R131: VSCAN's lane 0 is `vSA`'s
own (or the neutral value of a disabled lane), VTOPK keeps at most the entries `IMM`[6:0] asks for, VRAND takes one draw of the context's generator
for each active lane and steps the generator by as many. The readings of the spec that this rests on are the model's own, assumption log 8, 9, 13, 20.
-/
def Obligations.ReductionAndScanResults : Prop :=
  (∀ (v : VatId) (s : State) (k : Kernel) (w : IW) (op : Nat), AtWord s v op k w → HasRoom k .vec →
    let done := fun (i : Instr) (val : Nat) => ∃ k', exec i s = .next ((s.count (vatPg v) 0x054 1).setKern (vatPg v) (some k')) ∧
      XSet k k' w.dst val ∧ Issued k k' .vec [.x w.dst] ∧ SameV k k' ∧ SameP k k' ∧ SameAcc k k'
    let idle := ∀ l, l < 64 → k.active w l = false
    (op = 0x58 → ∃ val, done (.vredsum v) val ∧ (idle → nbit w.fmt 0 = true → val = 0)) ∧
    (op = 0x59 → ∃ val, done (.vredmax v) val ∧ (idle → val = if nbit w.fmt 0 then 0x80000000 else 0xFF800000) ∧
      (nbit w.fmt 0 = true → ∀ l, l < 64 → k.active w l = true → signed (k.vr w.sa l) ≤ signed val)) ∧
    (op = 0x5A → ∃ val, done (.vredmin v) val ∧ (idle → val = if nbit w.fmt 0 then 0x7FFFFFFF else 0x7F800000) ∧
      (nbit w.fmt 0 = true → ∀ l, l < 64 → k.active w l = true → signed val ≤ signed (k.vr w.sa l))) ∧
    (op = 0x5B → ∃ val, done (.vargmax v) val ∧ (idle → val = 0xFFFFFFFF) ∧
      (val < 64 → k.active w val = true ∧ ∀ l, l < 64 → k.active w l = true → rankAbove (nbit w.fmt 0) (k.vr w.sa l) (k.vr w.sa val) = false)) ∧
    (op = 0x61 → done (.vcntp v) ((lanes.filter fun l => nbit (k.pr w.sa) l).length))) ∧
  (∀ (v : VatId) (s : State) (k : Kernel) (w : IW) (op : Nat), AtWord s v op k w → HasRoom k .vec →
    (op = 0x5E → ∃ k', exec (.vscan v) s = .next ((s.count (vatPg v) 0x054 1).setKern (vatPg v) (some k')) ∧ Issued k k' .vec [.v w.dst] ∧
      VSet k k' w.dst (k.active w) (fun l => (scanLanes k w).getD l 0) ∧ (scanLanes k w).length = 64 ∧ SameX k k' ∧ SameP k k' ∧ SameAcc k k' ∧
      (k.active w 0 = true → k'.vr w.dst 0 = k.vr w.sa 0 % 2 ^ 32)) ∧
    (op = 0x5F → ∃ k', exec (.vtopk v) s = .next ((s.count (vatPg v) 0x054 1).setKern (vatPg v) (some k')) ∧
      Issued k k' .vec [.v w.dst, .v (w.dst + 1)] ∧ (topMerge k w).length ≤ bits w.imm 0 7 ∧ SameX k k' ∧ SameP k k' ∧ SameAcc k k' ∧
      (∀ l e, (topMerge k w)[l]? = some e → k'.vr w.dst l = e.1 % 2 ^ 32 ∧ k'.vr (w.dst + 1) l = e.2 % 2 ^ 32) ∧
      ∀ r l, l < 64 → r ≠ w.dst → r ≠ w.dst + 1 → k'.vr r l = k.vr r l) ∧
    (op = 0x60 → ∃ t k', exec (.vrand v) s = .next t ∧ t.kern (vatPg v) = some k' ∧ Issued k k' .vec [.v w.dst] ∧ SameX k k' ∧ SameP k k' ∧
      SameAcc k k' ∧ (∀ l, l < 64 → k.active w l = false → k'.vr w.dst l = k.vr w.dst l) ∧
      (∀ r l, l < 64 → r ≠ w.dst → k'.vr r l = k.vr r l) ∧
      ((mget t.drbg k.ctx).getD (0, 0)).2 = ((mget s.drbg k.ctx).getD (0, 0)).2 + (lanes.filter (k.active w)).length ∧ SameBytes s t))

/-- R86, R115, R118: the loads. The bytes are read as the kernel reads them at `xSA` + `IMM`; LDV fills the active lanes with little-endian words,
LDVC widens 64 packed elements, LDS fills one scalar register; no byte of memory changes. The readings of the spec that this rests on are the model's
own, assumption log 8, 9. -/
def Obligations.LoadResults : Prop :=
  ∀ (v : VatId) (s : State) (k : Kernel) (w : IW) (op : Nat), AtWord s v op k w →
    let a := (k.xr w.sa + w.imm) % 2 ^ 32
    let c := bits w.fmt 0 4
    let ok := fun n => s.kbad (vatPg v) k a n = false ∧ s.kdenied (vatPg v) k a n = false
    let b := fun j => s.kbyte (vatPg v) k (a + j)
    let t := fun k' => (s.count (vatPg v) 0x058 1).setKern (vatPg v) (some k')
    (op = 0x20 → HasRoom k .lse → ok 256 → ∃ k', exec (.ldv v) s = .next (t k') ∧ Issued k k' .lse [.v w.dst] ∧ SameX k k' ∧ SameP k k' ∧ SameAcc k k' ∧
      VSet k k' w.dst (k.active w) (fun l => b (4 * l) + 256 * b (4 * l + 1) + 65536 * b (4 * l + 2) + 16777216 * b (4 * l + 3))) ∧
    (op = 0x22 → HasRoom k .lse → ok (vecSpan c) → ∃ k', exec (.ldvc v) s = .next (t k') ∧ Issued k k' .lse [.v w.dst] ∧ SameX k k' ∧ SameP k k' ∧ SameAcc k k' ∧
      VSet k k' w.dst (k.active w) (fun l => widen c (streamElem b (fmtBits c) l) (b (8 * fmtBits c + l / 32)))) ∧
    (op = 0x24 → HasRoom k .lse → ok 4 → ∃ k', exec (.lds v) s = .next (t k') ∧ Issued k k' .lse [.x w.dst] ∧ SameV k k' ∧ SameP k k' ∧ SameAcc k k' ∧
      XSet k k' w.dst (b 0 + 256 * b 1 + 65536 * b 2 + 16777216 * b 3)) ∧
    (op = 0x34 → HasRoom k .tun → ok 4096 → ∃ k', exec (.accld v) s = .next (s.setKern (vatPg v) (some k')) ∧
      Issued k k' .tun [.acc (w.fmt % 2)] ∧ SameX k k' ∧ SameV k k' ∧ SameP k k' ∧ k'.isInt (w.fmt % 2) = nbit w.fmt 1 ∧
      ∀ i, i < 1024 → k'.ar (w.fmt % 2) (i / 32) (i % 32) =
        (b (4 * i) + 256 * b (4 * i + 1) + 65536 * b (4 * i + 2) + 16777216 * b (4 * i + 3)) % 2 ^ 32)

/-- R86, R118, R126: the stores. STV stores the words of the active lanes, STVC their narrowed elements, STS one word, ACCST a whole tile; the bytes
named hold what is written and no other byte of any memory changes. The readings of the spec that this rests on are the model's own, assumption log 8,
9, 22, 24. -/
def Obligations.StoreResults : Prop :=
  ∀ (v : VatId) (s : State) (k : Kernel) (w : IW) (op : Nat), AtWord s v op k w →
    let a := (k.xr w.sa + w.imm) % 2 ^ 32
    let pg := vatPg v
    (op = 0x21 → HasRoom k .lse →
      let ws := (lanes.filter (k.active w)).flatMap fun l => leBytes (a + 4 * l) (k.vr w.sb l) 4
      s.kputBad pg k ws = false → s.kdenied pg k a 256 = false →
      ∃ t k', exec (.stv v) s = .next t ∧ t.kern pg = some k' ∧ Issued k k' .lse [] ∧ SameX k k' ∧ SameV k k' ∧ SameP k k' ∧ SameAcc k k' ∧
        Stored s t pg k ws ∧ SameElse s t ∧ OtherVats s t pg) ∧
    (op = 0x23 → HasRoom k .lse →
      let ws := stvcWrites (bits w.fmt 0 4) (k.active w) (k.vr w.sb) (fun j => s.kbyte pg k (a + j)) a
      s.kputBad pg k ws = false → s.kdenied pg k a (vecSpan (bits w.fmt 0 4)) = false →
      ∃ t k', exec (.stvc v) s = .next t ∧ t.kern pg = some k' ∧ Issued k k' .lse [] ∧ SameX k k' ∧ SameV k k' ∧ SameP k k' ∧ SameAcc k k' ∧
        (∀ key, (∀ x y, (x, y) ∈ ws → s.kkey pg k x ≠ some key) → bget t.vstore key = bget s.vstore key) ∧ SameElse s t ∧ OtherVats s t pg) ∧
    (op = 0x25 → HasRoom k .lse → s.kputBad pg k (leBytes a (k.xr w.sb) 4) = false → s.kdenied pg k a 4 = false →
      ∃ t k', exec (.sts v) s = .next t ∧ t.kern pg = some k' ∧ Issued k k' .lse [] ∧ SameX k k' ∧ SameV k k' ∧ SameP k k' ∧ SameAcc k k' ∧
        Stored s t pg k (leBytes a (k.xr w.sb) 4) ∧ SameElse s t ∧ OtherVats s t pg) ∧
    (op = 0x32 → HasRoom k .tun →
      let ws := bytesAt a (accBytes k (bits w.fmt 5 1) (bits w.fmt 0 5) (k.xr w.sb))
      s.kputBad pg k ws = false → s.kdenied pg k a ws.length = false →
      ∃ t k', exec (.accst v false) s = .next t ∧ t.kern pg = some k' ∧ Issued k k' .tun [.acc (bits w.fmt 5 1)] ∧ SameX k k' ∧ SameV k k' ∧
        SameP k k' ∧ SameAcc k k' ∧ Stored s t pg k ws ∧ SameElse s t ∧ OtherVats s t pg)

/-- R171, R172: ATADD and ATSWP return the old word to `xDST` and write the sum or the word, together; R86, R93: DMAIN and DMAOUT leave a DMA
outstanding that names its side, addresses, length and post, and move nothing yet. The readings of the spec that this rests on are the model's own,
assumption log 8, 9, 71. -/
def Obligations.AtomicAndDma : Prop :=
  ∀ (v : VatId) (s : State) (k : Kernel) (w : IW) (op : Nat), AtWord s v op k w → HasRoom k .lse →
    let a := (k.xr w.sa + w.imm) % 2 ^ 32
    let pg := vatPg v
    let old := s.kread pg k a 4
    let at1 := fun (i : Instr) (new : Nat) => s.kbad pg k a 4 = false → s.kdenied pg k a 4 = false →
      ∃ t k', exec i s = .next t ∧ t.kern pg = some k' ∧ XSet k k' w.dst old ∧ Issued k k' .lse [.x w.dst] ∧ SameV k k' ∧ SameP k k' ∧
        SameAcc k k' ∧ Stored s t pg k (leBytes a new 4) ∧ SameElse s t ∧ OtherVats s t pg
    let dma := fun (i : Instr) (out : Bool) =>
      ∃ k', exec i s = .next ((s.count pg 0x058 1).setKern pg (some k')) ∧ Issued k k' .lse [] ∧ SameX k k' ∧ SameV k k' ∧ SameP k k' ∧
        SameAcc k k' ∧ k'.dmas = k.dmas ++ [⟨out, nbit w.fmt 0, k.xr w.dst, k.xr w.sa + 2 ^ 32 * k.xr (w.sa + 1), k.xr w.sb,
          if nbit w.imm 12 then some (w.imm % 4096) else none⟩]
    (op = 0x28 → at1 (.atadd v) (if nbit w.fmt 0 then f32Add old (k.xr w.sb) else (old + k.xr w.sb) % 2 ^ 32)) ∧
    (op = 0x29 → at1 (.atswp v) (k.xr w.sb)) ∧
    (op = 0x26 → dma (.dmain v) false) ∧ (op = 0x27 → dma (.dmaout v) true)

/-- R120–R123: ACCZ clears its set and gives it its kind, ACCV copies rows to lanes without conversion, and an MMA gives every element of its set the
accumulation over *K*; the other set, the vector lanes and every memory stay. The readings of the spec that this rests on are the model's own,
assumption log 8, 9, 24, 25. -/
def Obligations.MatrixResults : Prop :=
  ∀ (v : VatId) (s : State) (k : Kernel) (w : IW) (op : Nat), AtWord s v op k w → HasRoom k .tun →
    let pg := vatPg v
    let set := w.fmt % 2
    (op = 0x31 → ∃ k', exec (.accz v) s = .next (s.setKern pg (some k')) ∧ Issued k k' .tun [.acc set] ∧ SameX k k' ∧ SameV k k' ∧ SameP k k' ∧
      k'.isInt set = nbit w.fmt 1 ∧ (∀ r c, r < 32 → c < 32 → k'.ar set r c = 0) ∧
      ∀ r c, r < 32 → c < 32 → k'.ar (1 - set) r c = k.ar (1 - set) r c) ∧
    (op = 0x33 → ∃ k', exec (.accv v) s = .next (s.setKern pg (some k')) ∧ Issued k k' .tun [.v w.dst, .acc set] ∧ SameX k k' ∧ SameP k k' ∧
      SameAcc k k' ∧ VSet k k' w.dst (k.active w) (fun l => k.ar set (2 * bits w.imm 0 4 + l / 32) (l % 32))) ∧
    (op = 0x30 →
      let aA := k.xr w.sa
      let aB := k.xr w.sb
      let nA := operandBytes (mmaA w) (mmaK w)
      let nB := operandBytes (mmaB w) (mmaK w)
      s.kbad pg k aA nA = false → s.kbad pg k aB nB = false → s.kdenied pg k aA nA = false → s.kdenied pg k aB nB = false →
      ∃ t k', exec (.mma v none) s = .next t ∧ t.kern pg = some k' ∧ Issued k k' .tun [.acc set] ∧ SameX k k' ∧ SameV k k' ∧ SameP k k' ∧
        k'.isInt set = fmtIsInt (mmaA w) ∧ SameBytes s t ∧
        (∀ r c, r < 32 → c < 32 → k'.ar set r c = (mmaElem (mmaA w) (mmaB w) (mmaK w) (mmaDiag w) (fun j => s.kbyte pg k (aA + j))
          (fun j => s.kbyte pg k (aB + j)) r c (if mmaZero w then 0 else k.ar set r c)).1 % 2 ^ 32) ∧
        ∀ r c, r < 32 → c < 32 → k'.ar (1 - set) r c = k.ar (1 - set) r c)

/-! ## Dispatch, kernel starts, the floor loader and rotations (R84, R98–R112, R148) -/

/-- R101, R148: DISPATCH_ARM arms a free entry of the vat that carries the logical number, sends its take, and the arming belongs to its step;
DISPATCH_DISARM takes the entry down and sends the withdrawal; DISPATCH_READY makes an entry ready whose take was released, and a class-0 entry
suspends a running preemptible kernel of another class (R102). The readings of the spec that this rests on are the model's own, assumption log 27, 28.
-/
def Obligations.DispatchEntries : Prop :=
  (∀ (a : ArmReq) (s : State) (pg : Nat) (d : Desc) (phys : Nat) (l : Bool), s.inControl = true → s.floorOpen (armFloor a) a.ctx.val = true →
    (nget s.rqt.releases (armFloor a) = 2 → a.logical.val ≠ 7) → s.loadPending (armFloor a) a.logical.val a.slot.val = false → s.hasUnit (pgDIE a.die.val) = true →
    s.hasUnit (armFloor a) = true → s.vatOf (armFloor a) a.logical.val = some pg → mget (s.vat pg).descs a.slot.val = some d → d.valid = true →
    (∀ b, b < 16 → nbit d.bankMask b = true → s.rdi pg F.VAT_BANK_OWNER_RETIRED b = 0) → mget (s.vat pg).entries a.entry.val = none →
    s.spMap a.ctx.val (armSpile a d).1 = some (phys, l) → (a.cls.val = 0 → phys / 4096 = a.die.val) → (armSpile a d).2 ≠ 0 →
    ∃ t e, exec (.dispatchArm a) s = .next t ∧ mget (t.vat pg).entries a.entry.val = some e ∧ e.slot = a.slot.val ∧ e.cls = a.cls.val ∧
      e.ctx = a.ctx.val ∧ e.step = a.step ∧ e.spile = (armSpile a d).1 ∧ e.thresh = (armSpile a d).2 ∧ e.ready = false ∧
      t.spl.flight = s.spl.flight ++ [{ port := pg, ctx := a.ctx.val, v := (armSpile a d).1, phys := phys,
                                        op := .take (armSpile a d).2 (.entry pg a.entry.val) }] ∧
      (∃ st, t.step1 a.step = some st ∧ a ∈ st.arms) ∧ t.kern pg = s.kern pg) ∧
  (∀ (v : VatId) (e : Fin 8) (s : State) (x : Entry) (phys : Nat) (l : Bool), mget (s.vat (vatPg v)).entries e.val = some x → x.thresh ≠ 0 →
    s.spMap x.ctx x.spile = some (phys, l) →
    ∃ t, exec (.dispatchDisarm v e) s = .next t ∧ mget (t.vat (vatPg v)).entries e.val = none ∧
      t.spl.flight = s.spl.flight ++ [{ port := vatPg v, ctx := x.ctx, v := x.spile, phys := phys,
                                        op := .withdraw x.thresh (.entry (vatPg v) e.val) true }] ∧
      t.kern (vatPg v) = s.kern (vatPg v)) ∧
  (∀ (v : VatId) (e : Fin 8) (s : State) (x : Entry), mget (s.vat (vatPg v)).entries e.val = some x → x.arrived = true → x.ready = false →
    ∃ t, exec (.dispatchReady v e) s = .next t ∧ mget (t.vat (vatPg v)).entries e.val = some { x with ready := true } ∧
      (x.cls ≠ 0 → t.kern (vatPg v) = s.kern (vatPg v)) ∧
      (∀ k, x.cls = 0 → s.kern (vatPg v) = some k → k.cls ≠ 0 → k.desc.preempt = true → (s.vat (vatPg v)).susp = none →
        t.kern (vatPg v) = none ∧ ∃ k', (t.vat (vatPg v)).susp = some k' ∧ k'.step = k.step ∧ k'.pc = k.pc ∧ k'.x = k.x))

/-- R84: at a kernel start the parameters are in x1 to x4 from the descriptor and in x5 to x8 from the entry, the placement is in x9, p0 reads all
ones, and every other register and accumulator is 0. The kernel is that of the next ready entry of a free vat, and starts at its descriptor's ENTRY.
-/
def Obligations.KernelStarts : Prop :=
  ∀ (v : VatId) (s : State) (i : Nat) (e : Entry) (d : Desc),
    s.kern (vatPg v) = none → (s.vat (vatPg v)).drain = [] → (s.vat (vatPg v)).clkHold = false → s.logicalOf (vatPg v) ≠ 0xF →
    (s.vat (vatPg v)).nextEntry = some (i, e) → mget (s.vat (vatPg v)).descs e.slot = some d →
    (s.on (vatPg v) F.VAT_C0_RES = true → e.cls = 0 ∨ d.preempt = true) →
    ∃ t k, exec (.kernelStart v) s = .next t ∧ t.kern (vatPg v) = some k ∧ k.pc = d.entry ∧ k.desc = d ∧ k.step = e.step ∧ k.ctx = e.ctx ∧
      k.cls = e.cls ∧ (∀ j, j < 4 → k.xr (j + 1) = d.params.getD j 0 % 2 ^ 32) ∧ (∀ j, j < 4 → k.xr (j + 5) = e.words.getD j 0 % 2 ^ 32) ∧
      k.xr 9 = s.logicalOf (vatPg v) % 8 + 16 * v.floor.val + 256 * v.die.val ∧ k.xr 0 = 0 ∧ (∀ r, 9 < r → k.xr r = 0) ∧
      (∀ r l, k.vr r l = 0) ∧ k.pr 0 = 2 ^ 64 - 1 ∧ (∀ r, 0 < r → r < 8 → k.pr r = 0) ∧
      (∀ a r c, k.ar a r c = 0) ∧ k.int0 = false ∧ k.int1 = false ∧ mget (t.vat (vatPg v)).entries i = none ∧
      t.ctr (vatPg v) 0x05C = s.ctr (vatPg v) 0x05C + 1 ∧ SameBytes s t

/-- R98, R99: LOAD_COMMAND queues a load for the logical vats that a physical vat carries, LOAD_START takes the first that nothing holds back, and
LOAD_DONE ends the load in progress and counts it. The readings of the spec that this rests on are the model's own, assumption log 6, 32. -/
def Obligations.FloorLoads : Prop :=
  (∀ (f : FloorId) (job : LoadJob) (s : State) (L : Nat), s.inControl = true → s.hasUnit (pgDIE f.die.val) = true →
    s.hasUnit (floorPgOf f) = true → L < 8 → nbit job.vats L = true → (s.vatOf (floorPgOf f) L).isSome = true →
    ∃ t m, exec (.loadCommand f job) s = .next t ∧
      (t.floor (floorPgOf f)).loads = (s.floor (floorPgOf f)).loads ++ [{ job with vats := m }] ∧
      (∀ j, j < 8 → nbit m j = (nbit job.vats j && (s.vatOf (floorPgOf f) j).isSome)) ∧
      t.rd (floorPgOf f) F.FLOOR_LOAD_STATUS_QUEUED = min 255 ((s.floor (floorPgOf f)).loads.length + 1) ∧ SameBytes s t) ∧
  (∀ (f : FloorId) (s : State) (j : LoadJob) (rest : List LoadJob), (s.floor (floorPgOf f)).cur = none → s.testing (.floor f) = false →
    pickLoad (s.loadBlocked (floorPgOf f)) (s.floor (floorPgOf f)).loads 0 = some (j, rest) →
    ∃ t, exec (.loadStart f) s = .next t ∧ (t.floor (floorPgOf f)).cur = some j ∧ (t.floor (floorPgOf f)).loads = rest ∧
      t.rd (floorPgOf f) F.FLOOR_LOAD_STATUS_BUSY = 1 ∧ SameBytes s t) ∧
  (∀ (f : FloorId) (bad1 bad2 : Fin 256) (s : State) (j : LoadJob), (s.floor (floorPgOf f)).cur = some j → (s.floor (floorPgOf f)).arms = [] →
    ∃ t, exec (.loadDone f bad1 bad2) s = .next t ∧ (t.floor (floorPgOf f)).cur = none ∧
      t.rd (floorPgOf f) F.FLOOR_LOAD_STATUS_BUSY = 0 ∧ t.ctr (floorPgOf f) 0x058 = s.ctr (floorPgOf f) 0x058 + 1 ∧ SameBytes s t)

/-- R108–R111: a rotation. ROT_REQ with GO queues a request, ROTATION_START begins its sweep towards the spare, SWEEP_DONE ends the sweep,
ROT_LIMIT_EXPIRE abandons it, ROTATION_CLEAR_DONE ends the zero fill and hands the vat to self-test. R108: ROTATION_SWAP at a step boundary of the
outgoing vat. The incoming vat has its store, code, descriptors and armed entries, the spare is the outgoing vat, whose zero fill begins, and no byte
of another vat changes. The readings of the spec that this rests on are the model's own, assumption log 6, 33. -/
def Obligations.Rotations : Prop :=
  ((∀ (fn : Fin 32) (f : FloorId) (v : Word) (s : State), s.mayWriteBlock (floorPgOf f) fn.val = true → nbit v.toNat 4 = true →
    exec (.rotReq fn f v) s =
      .next (s.setFloor (floorPgOf f) { s.floor (floorPgOf f) with reqs := (s.floor (floorPgOf f)).reqs ++ [v.toNat % 16] })) ∧
  (∀ (f : FloorId) (s : State) (p : Nat) (ps : List Nat), s.on (floorPgOf f) F.FLOOR_CFG_ROT_EN = true →
    s.rd (floorPgOf f) F.FLOOR_ROT_STATUS_OUT = 0xF → s.rd (floorPgOf f) F.FLOOR_SPARE < 9 →
    (s.vat (floorPgOf f + 1 + s.rd (floorPgOf f) F.FLOOR_SPARE)).zeroing = false →
    nget s.underTest (floorPgOf f + 1 + s.rd (floorPgOf f) F.FLOOR_SPARE) = 0 → (s.floor (floorPgOf f)).early = [] →
    (s.floor (floorPgOf f)).reqs = p :: ps → p < 9 → s.inService (floorPgOf f + 1 + p) = true →
    ∃ t, exec (.rotationStart f) s = .next t ∧ t.rd (floorPgOf f) F.FLOOR_ROT_STATUS_PHASE = 1 ∧ t.rd (floorPgOf f) F.FLOOR_ROT_STATUS_OUT = p ∧
      t.rd (floorPgOf f) F.FLOOR_ROT_STATUS_IN = s.rd (floorPgOf f) F.FLOOR_SPARE ∧ (t.floor (floorPgOf f)).reqs = ps ∧
      (t.floor (floorPgOf f)).rotClk = s.now ∧ t.rd (floorPgOf f) F.FLOOR_VAT_MAP = s.rd (floorPgOf f) F.FLOOR_VAT_MAP ∧ SameBytes s t) ∧
  (∀ (f : FloorId) (s : State), s.rd (floorPgOf f) F.FLOOR_ROT_STATUS_PHASE = 1 →
    ∃ t, exec (.sweepDone f) s = .next t ∧ t.rd (floorPgOf f) F.FLOOR_ROT_STATUS_PHASE = 2 ∧
      t.ctr (floorPgOf f) 0x054 = s.ctr (floorPgOf f) 0x054 + 2116 ∧ SameBytes s t) ∧
  (∀ (f : FloorId) (s : State), s.rd (floorPgOf f) F.FLOOR_ROT_STATUS_PHASE = 1 ∨ s.rd (floorPgOf f) F.FLOOR_ROT_STATUS_PHASE = 2 →
    (s.floor (floorPgOf f)).rotClk + s.rd (floorPgOf f) F.FLOOR_ROT_LIMIT_CLK ≤ s.now →
    ∃ t, exec (.rotLimitExpire f) s = .next t ∧ t.rd (floorPgOf f) F.FLOOR_ROT_STATUS_PHASE = 0 ∧
      t.rd (floorPgOf f) F.FLOOR_ROT_STATUS_OUT = 0xF ∧ t.rd (floorPgOf f) F.FLOOR_VAT_MAP = s.rd (floorPgOf f) F.FLOOR_VAT_MAP ∧
      t.ctr (floorPgOf f) 0x050 = s.ctr (floorPgOf f) 0x050 + 1 ∧ Raised t (floorPgOf f) 1) ∧
  (∀ (f : FloorId) (s : State) (o : Nat), s.rd (floorPgOf f) F.FLOOR_ROT_STATUS_PHASE = 0 → s.rd (floorPgOf f) F.FLOOR_ROT_STATUS_OUT = o → o < 9 →
    (s.vat (floorPgOf f + 1 + o)).zeroing = true →
    ∃ t, exec (.rotationClearDone f) s = .next t ∧ t.rd (floorPgOf f) F.FLOOR_ROT_STATUS_OUT = 0xF ∧ t.rd (floorPgOf f) F.FLOOR_ROT_STATUS_IN = 0xF ∧
      (t.vat (floorPgOf f + 1 + o)).zeroing = false ∧ nget t.underTest (floorPgOf f + 1 + o) = 1 ∧
      (∀ a, a < 2 ^ 21 → bget t.vstore ((floorPgOf f + 1 + o) * 2 ^ 21 + a) = 0) ∧
      t.ctr (floorPgOf f) 0x04C = s.ctr (floorPgOf f) 0x04C + 1 ∧ Raised t (floorPgOf f) 0)) ∧
  (∀ (f : FloorId) (s : State) (o i : Nat), Canonical s → s.rd (floorPgOf f) F.FLOOR_ROT_STATUS_PHASE = 2 →
    s.rd (floorPgOf f) F.FLOOR_ROT_STATUS_OUT = o → s.rd (floorPgOf f) F.FLOOR_ROT_STATUS_IN = i → o < 9 → i < 9 → o ≠ i →
    (s.vat (floorPgOf f + 1 + o)).atBoundary = true →
    ∃ t, exec (.rotationSwap f) s = .next t ∧ t.rd (floorPgOf f) F.FLOOR_SPARE = o ∧ t.rd (floorPgOf f) F.FLOOR_ROT_STATUS_PHASE = 0 ∧
      (t.vat (floorPgOf f + 1 + o)).zeroing = true ∧ (t.vat (floorPgOf f + 1 + o)).entries = [] ∧
      (t.vat (floorPgOf f + 1 + i)).code = (s.vat (floorPgOf f + 1 + o)).code ∧
      (t.vat (floorPgOf f + 1 + i)).descs = (s.vat (floorPgOf f + 1 + o)).descs ∧
      (t.vat (floorPgOf f + 1 + i)).entries = (s.vat (floorPgOf f + 1 + o)).entries ∧
      (∀ a, a < 2 ^ 21 → bget t.vstore ((floorPgOf f + 1 + i) * 2 ^ 21 + a) = bget s.vstore ((floorPgOf f + 1 + o) * 2 ^ 21 + a)) ∧
      (∀ x, x / 2 ^ 21 ≠ floorPgOf f + 1 + i → bget t.vstore x = bget s.vstore x) ∧ (∀ a, bget t.fstore a = bget s.fstore a) ∧
      (∀ a, bget t.lp.mem a = bget s.lp.mem a) ∧ ∀ a, bget t.host.mem a = bget s.host.mem a)

/-! ## Spiles (R136–R161) -/

/-- R136–R138, R148: what an operation does at the home engine. A post adds to the count, saturating at 2^32 − 1 with the overflow mark; a wait at or
below the count is released and takes nothing; a take it can meet is released and takes its amount; else the waiter is registered, last; a withdrawal
takes it off. R145, R148: SPILE_RELEASE_ARRIVE lets the held front end go on, or tells an armed entry that its take is satisfied; the release is used
up. The readings of the spec that this rests on are the model's own, assumption log 27, 37. -/
def Obligations.SpileTraffic : Prop :=
  (∀ (port : Nat) (s : State) (m : SpMsg) (rest : List SpMsg) (l : Bool), takeMsg port s.spl.flight = some (m, rest) →
    s.spMap m.ctx m.v = some (m.phys, l) → s.poisoned m.phys = false →
    (∀ n, m.op = .post n → (∀ x ∈ s.spl.waiters, x.phys ≠ m.phys) →
      ∃ t, exec (.spilePost port false) s = .next t ∧ t.spl.flight = rest ∧ t.spl.waiters = s.spl.waiters ∧ t.spl.rels = s.spl.rels ∧
        (t.spile m.phys).count = min ((s.spile m.phys).count + n) (2 ^ 32 - 1) ∧ (t.spile m.phys).preset = (s.spile m.phys).preset ∧
        ((t.spile m.phys).ovf = true ↔ (s.spile m.phys).ovf = true ∨ 2 ^ 32 ≤ (s.spile m.phys).count + n) ∧
        (∀ p, p ≠ m.phys → t.spile p = s.spile p) ∧ SameBytes s t) ∧
    (∀ n w, m.op = .wait n w →
      ∃ t, exec (.spileWait port false) s = .next t ∧ t.spl.flight = rest ∧ (∀ p, t.spile p = s.spile p) ∧ SameBytes s t ∧
        (n ≤ (s.spile m.phys).count → t.spl.rels = s.spl.rels ++ [(w, m.phys, 0)] ∧ t.spl.waiters = s.spl.waiters) ∧
        ((s.spile m.phys).count < n → t.spl.rels = s.spl.rels ∧
          t.spl.waiters = s.spl.waiters ++ [{ phys := m.phys, ctx := m.ctx, w := w, take := false, n := n }])) ∧
    (∀ n w, m.op = .take n w → 0 < n →
      ∃ t, exec (.spileTake port false) s = .next t ∧ t.spl.flight = rest ∧ (∀ p, p ≠ m.phys → t.spile p = s.spile p) ∧ SameBytes s t ∧
        (n ≤ (s.spile m.phys).count → (∀ x ∈ s.spl.waiters, x.phys = m.phys → x.take = false) →
          t.spl.rels = s.spl.rels ++ [(w, m.phys, n)] ∧ t.spl.waiters = s.spl.waiters ∧
          (t.spile m.phys).count = (s.spile m.phys).count - n) ∧
        ((s.spile m.phys).count < n → t.spl.rels = s.spl.rels ∧ t.spile m.phys = s.spile m.phys ∧
          t.spl.waiters = s.spl.waiters ++ [{ phys := m.phys, ctx := m.ctx, w := w, take := true, n := n }])) ∧
    (∀ n w b, m.op = .withdraw n w b → (∃ x ∈ s.spl.waiters, x.phys = m.phys ∧ x.w = w) →
      ∃ t, exec (.spileWithdraw port) s = .next t ∧ t.spl.flight = rest ∧ (∀ x ∈ t.spl.waiters, ¬(x.phys = m.phys ∧ x.w = w)) ∧
        (∀ x ∈ s.spl.waiters, ¬(x.phys = m.phys ∧ x.w = w) → x ∈ t.spl.waiters) ∧ (∀ p, t.spile p = s.spile p) ∧ SameBytes s t)) ∧
  ((∀ (pg : Nat) (c0 : Bool) (s : State) (r : Who × Nat × Nat) (k : Kernel) (h : Hold),
    (s.spl.rels.find? fun r => r.1 == Who.front pg c0) = some r → s.kern pg = some k → (k.cls == 0) = c0 → k.hold = some h →
    ∃ t, exec (.spileReleaseArrive pg c0 none) s = .next t ∧ t.kern pg = some { k with hold := none } ∧ t.spl.rels = s.spl.rels.erase r ∧
      OtherVats s t pg ∧ SameBytes s t ∧ t.regs = s.regs) ∧
  (∀ (pg : Nat) (c0 : Bool) (e : Fin 8) (s : State) (r : Who × Nat × Nat) (x : Entry),
    (s.spl.rels.find? fun r => r.1 == Who.entry pg e.val) = some r → mget (s.vat pg).entries e.val = some x →
    ∃ t, exec (.spileReleaseArrive pg c0 (some e)) s = .next t ∧ mget (t.vat pg).entries e.val = some { x with arrived := true } ∧
      t.spl.rels = s.spl.rels.erase r ∧ t.kern pg = s.kern pg ∧ OtherVats s t pg ∧ SameBytes s t ∧ t.regs = s.regs))

/-- R156, R158: the spile page. A host post adds its low 16 bits to the spile that bits [24:16] name; SET gives the selected spile the value as count
and preset and clears its overflow mark. R141, R142, R483: SPILE_MAP gives a group of the context a free group of the die, whose spiles read 0;
SPILE_UNMAP removes the entry, and a message still on its way makes the command wait. The readings of the spec that this rests on are the model's own,
assumption log 34, 35. -/
def Obligations.SpilePageAndMaps : Prop :=
  ((∀ (fn : Fin 32) (slot : Fin 64) (v : Word) (s : State) (c phys : Nat) (l : Bool), s.slotCtx fn.val slot.val = some c →
    s.spMap c (bits v.toNat 16 9) = some (phys, l) → s.poisoned phys = false → (∀ x ∈ s.spl.waiters, x.phys ≠ phys) →
    ∃ t, exec (.splPost fn slot v) s = .next t ∧ (t.spile phys).count = min ((s.spile phys).count + v.toNat % 65536) (2 ^ 32 - 1) ∧
      (∀ p, p ≠ phys → t.spile p = s.spile p) ∧ t.spl.maps = s.spl.maps ∧ SameBytes s t) ∧
  (∀ (fn : Fin 32) (slot : Fin 64) (s : State) (c phys : Nat) (l : Bool), s.slotCtx fn.val slot.val = some c →
    s.spMap c (s.rd (pgSPL c) F.SPL_SEL) = some (phys, l) → (∀ x ∈ s.spl.waiters, x.phys ≠ phys) →
    (l = true → s.localInUse c (s.rd (pgSPL c) F.SPL_SEL / 16) = false) →
    ∃ t, exec (.splSet fn slot) s = .next t ∧
      t.spile phys = { count := s.rd (pgSPL c) F.SPL_VALUE, preset := s.rd (pgSPL c) F.SPL_VALUE, ovf := false } ∧
      (∀ p, p ≠ phys → t.spile p = s.spile p) ∧ t.regs = s.regs ∧ SameBytes s t)) ∧
  ((∀ (fn : Fin 32) (tag : Nat) (c : Fin 1024) (vg die g : Nat) (l : Bool) (s : State), Performs s fn.val 0x18 → die < 4 →
    s.hasUnit (pgDIE die) = true → s.ctxOpen c.val = true → vg < 32 → mget s.spl.maps (c.val * 32 + vg) = none → s.freeGroup die = some g →
    ∃ t, exec (.spileMap fn tag c vg die l) s = .next t ∧ Answered s t fn.val tag 0 0 ∧
      mget t.spl.maps (c.val * 32 + vg) = some { die := die, group := g, isLocal := l } ∧
      (∀ j, j ≠ c.val * 32 + vg → mget t.spl.maps j = mget s.spl.maps j) ∧ (∀ i, i < 16 → t.spile (die * 4096 + g * 16 + i) = {}) ∧
      t.regs = s.regs ∧ SameBytes s t) ∧
  (∀ (fn : Fin 32) (tag : Nat) (c : Fin 1024) (vg : Nat) (m : SpMap) (s : State), Performs s fn.val 0x19 → vg < 32 →
    mget s.spl.maps (c.val * 32 + vg) = some m → (∀ x ∈ s.spl.waiters, physGroup x.phys ≠ m.die * 256 + m.group) → s.groupNamed c.val vg = false →
    ∃ t, exec (.spileUnmap fn tag c vg) s = .next t ∧ mget t.spl.maps (c.val * 32 + vg) = none ∧
      (∀ j, j ≠ c.val * 32 + vg → mget t.spl.maps j = mget s.spl.maps j) ∧ t.regs = s.regs ∧ SameBytes s t ∧
      ((∀ x ∈ s.spl.flight, physGroup x.phys ≠ m.die * 256 + m.group) → Answered s t fn.val tag 0 0) ∧
      ((∃ x ∈ s.spl.flight, physGroup x.phys = m.die * 256 + m.group) → t.host.resps = s.host.resps)))

/-! ## The block and its queue -/

/-- The state after reset has its byte stores and maps in canonical form. The readings of the spec that this rests on are the model's own, assumption
log 3, 58, 59. -/
def Obligations.ResetCanonical : Prop :=
  Canonical State.reset

/-- R538, R541, the register tables: after power-on reset every register field holds the value of its table, every counter is 0, no context is in use,
no kernel runs, no step exists, the module is in phase POWER, and the time base is IDLE. The readings of the spec that this rests on are the model's
own, assumption log 4, 7, 55, 56. -/
def Obligations.ResetValues : Prop :=
  (∀ pg F i, State.reset.rdi pg F i = frst .q4c4 F i) ∧ (∀ pg off, State.reset.ctr pg off = 0) ∧
    State.reset.rd pgMOD F.MOD_START_PHASE = 1 ∧ State.reset.ready = false ∧ State.reset.tb.st = .idle ∧
    State.reset.rd pgTBASE F.TBASE_STALL_GUARD_US = 50000 ∧ State.reset.rd pgTBASE F.TBASE_LOCK_PERIODS = 2 ∧
    State.reset.rd (pgFLOOR 0 0) F.FLOOR_VAT_MAP = 0x76543210 ∧ State.reset.rd (pgFLOOR 0 0) F.FLOOR_SPARE = 8 ∧
    State.reset.rd pgRQT F.RQT_CFG_CHUNK_DEFAULT = 256 ∧ State.reset.rd (pgCM 0) F.CM_HB_US = 100 ∧ State.reset.rd (pgCM 0) F.CM_CLAIM = 0 ∧
    (∀ c, c < 1024 → State.reset.ctxState c = ctxFREE) ∧ (∀ pg, State.reset.kern pg = none) ∧ (∀ id, State.reset.step1 id = none) ∧
    (∀ p, State.reset.spile p = {}) ∧ State.reset.pending = []

/-- A step with a command at the front of the queue is that command run on the state with the queue's rest. The readings of the spec that this rests
on are the model's own, assumption log 114. -/
def Obligations.StepRunsFront : Prop :=
  ∀ (c : Instr) (rest : List Instr) (s : State), step { s with pending := c :: rest } = exec c { s with pending := rest }

/-- Every step from a state whose byte stores and maps are in canonical form leaves them so: equal memories are equal data. The readings of the spec
that this rests on are the model's own, assumption log 58, 59. -/
def Obligations.StepKeepsCanonical : Prop :=
  ∀ (s t : State), Canonical s → Steps s t → Canonical t

/-- Every step answers a next state: no command stops the block (assumption log 1), and each uses up one command of the queue or one clock. With an
empty queue one clock passes, and nothing changes but the clock and the interpolated tick (the model's choice, assumption log 5). -/
def Obligations.EveryStepGoesOn : Prop :=
  (∀ (s : State), SafeStep s ∧ (∀ t, Steps s t →
    (s.pending = [] → t.pending = [] ∧ t.now = s.now + 1) ∧ (∀ c rest, s.pending = c :: rest → t.pending = rest ∧ t.now = s.now))) ∧
  (∀ (s : State), s.pending = [] →
    ∃ t, step s = .next t ∧ t = { s with now := s.now + 1, tb := t.tb } ∧ t.tb = { s.tb with tickFx := t.tb.tickFx, rem := t.tb.rem, hist := t.tb.hist } ∧
      (s.tb.st = .idle → t.tb = s.tb) ∧ (s.tb.hold = true → t.tb = s.tb) ∧ (s.tb.st = .stalled → t.tb = s.tb) ∧ (s.tb.st = .stallFly → t.tb = s.tb))

/-! ## Register accesses and the module global pages (R31–R55) -/

/-- R31, R34, R41, R46: a well-formed write that R41 allows gives a read-write register of one field its value and changes no other field; a write to
a read-only register is ignored; a malformed write, one that R41 forbids and one to an unassigned page change no field but those of the access error.
R33, R46: the first refused access is latched in the MOD page with its address, BAR and function; while it stands a further one only counts. Both
raise ACCESS_ERR, and nothing else of the state changes but messages. R34: a read of a counter's LO half gives its low word and puts its upper half
into the page's shadow, which then belongs to this counter; a read of the HI half gives the shadow and releases it when it belongs to the counter, and
the live upper half otherwise. The readings of the spec that this rests on are the model's own, assumption log 3, 15, 16, 75. -/
def Obligations.RegisterAccesses : Prop :=
  (∀ (a : RegAcc) (be : Fin 16) (v : Word) (s : State),
    (∀ pg k off fd i, s.target a = .reg pg k off false → wellShaped a be.val = true → 0x100 ≤ off → named pg k off = true →
      fieldsAt k off = [(fd, i)] → s.mayWriteBlock pg a.fn.val = true → pg < 0x10000 → (k = .tbase ∨ pg = pgTBASE → off ≠ 0x100) →
      (k = .gau ∨ pg = pgGAU → 0x118 < off) → (k = .snap → off ≠ 0x108) → fd ≠ F.TBASE_FLY_CLASSES → fd ≠ F.CM_TAKEBACK_EN →
      ((fd.acc = .rw → s.fieldRefuses pg k fd i (bits v.toNat fd.lo fd.width) v.toNat = none →
          ∃ t, exec (.registerWrite a be v) s = .next t ∧ t = { s with regs := t.regs } ∧ t.rdi pg fd i = bits v.toNat fd.lo fd.width ∧
            RegsBut s t [fkey pg fd i]) ∧
        (fd.acc = .w1c →
          ∃ t, exec (.registerWrite a be v) s = .next t ∧ t = { s with regs := t.regs } ∧ RegsBut s t [fkey pg fd i] ∧
            ∀ b, b < fd.width → nbit (t.rdi pg fd i) b = (nbit (s.rdi pg fd i) b && !nbit (bits v.toNat fd.lo fd.width) b)) ∧
        (fd.acc = .ro → exec (.registerWrite a be v) s = .next s))) ∧
    (∀ pg k off pt, s.target a = .reg pg k off pt → pg ≠ pgGAU → wellShaped a be.val = false → exec (.registerWrite a be v) s = .next (s.accessErr a)) ∧
    (∀ pg k off pt, s.target a = .reg pg k off pt → wellShaped a be.val = true → 0x100 ≤ off → named pg k off = true →
      s.mayWriteBlock pg a.fn.val = false → exec (.registerWrite a be v) s = .next (s.accessErr a)) ∧
    (s.target a = .unassigned → exec (.registerWrite a be v) s = .next (s.accessErr a)) ∧
    (s.target a = .absent → exec (.registerWrite a be v) s = .next s)) ∧
  (∀ (a : RegAcc) (s : State),
    (s.on pgMOD F.MOD_ACC_ERR_VALID = false →
      (s.accessErr a).rd pgMOD F.MOD_ACC_ERR_VALID = 1 ∧
        (s.accessErr a).rd pgMOD F.MOD_ACC_ERR_ADDR = (if a.bar2 then a.off % 2 ^ 20 else a.off) % 2 ^ F.MOD_ACC_ERR_ADDR.width ∧
        (s.accessErr a).rd pgMOD F.MOD_ACC_ERR_BAR2 = boolNat a.bar2 ∧ (s.accessErr a).rd pgMOD F.MOD_ACC_ERR_FUNC = a.fn.val) ∧
    (s.on pgMOD F.MOD_ACC_ERR_VALID = true →
      (s.accessErr a).ctr pgMOD 0x04C = s.ctr pgMOD 0x04C + 1 ∧ RegsBut s (s.accessErr a) [fkey pgMOD F.EVT_RAW 0]) ∧
    Raised (s.accessErr a) pgMOD 0 ∧ Quiet s (s.accessErr a) ∧ NoAnswer s (s.accessErr a)) ∧
  (∀ (a : RegAcc) (s : State) (pg : Nat) (k : PageKind) (off val : Nat) (pt : Bool),
    (s.target a = .reg pg k off pt → s.counter64 pg k off = some val →
      ∃ t, exec (.counterLoRead a) s = .next t ∧ t.rdata = val % 2 ^ 32 ∧ mget t.shadow pg = some (off, val / 2 ^ 32 % 2 ^ 32) ∧
        (∀ p, p ≠ pg → mget t.shadow p = mget s.shadow p) ∧ t = { s with rdata := t.rdata, shadow := t.shadow }) ∧
    (s.target a = .reg pg k (off + 4) pt → s.counter64 pg k (off + 4) = none → s.counter64 pg k off = some val →
      (∀ h, mget s.shadow pg = some (off, h) →
        ∃ t, exec (.counterHiRead a) s = .next t ∧ t.rdata = h ∧ mget t.shadow pg = none ∧ t = { s with rdata := t.rdata, shadow := t.shadow }) ∧
      ((∀ h, mget s.shadow pg ≠ some (off, h)) →
        ∃ t, exec (.counterHiRead a) s = .next t ∧ t.rdata = val / 2 ^ 32 % 2 ^ 32 ∧ t = { s with rdata := t.rdata })))

/-- R37, R38, R43: the PF clears written bits of `EVT_RAW`, sets the enables, re-arms fault capture and locks a page; no other field changes. R41,
R42: an OWNER write that nothing forbids gives the page its owner, pass-through slot and context; on a locked page it is refused. R48: EVT.REARM sends
the PF's event message again while an enabled child has events pending, else nothing. The readings of the spec that this rests on are the model's own,
assumption log 3. -/
def Obligations.HeaderActions : Prop :=
  (∀ (p : PageAcc) (s : State) (pg : Nat) (k : PageKind) (off : Nat) (pt : Bool),
    ((s.target (pageReg p 0x028) = .reg pg k off pt → mayWriteHeader pg p.fn.val pt = true →
      ∀ v : Word, ∃ t, exec (.evtPendClear p v) s = .next t ∧ t = { s with regs := t.regs } ∧ RegsBut s t [fkey pg F.EVT_RAW 0] ∧
        ∀ b, b < 32 → nbit (t.rd pg F.EVT_RAW) b = (nbit (s.rd pg F.EVT_RAW) b && !nbit v.toNat b)) ∧
    (s.target (pageReg p 0x024) = .reg pg k off pt → mayWriteHeader pg p.fn.val pt = true →
      ∀ v : Word, ∃ t, exec (.evtEnWrite p v) s = .next t ∧ Quiet s t ∧ NoAnswer s t ∧ RegsBut s t [fkey pg F.EVT_EN 0] ∧ t.rd pg F.EVT_EN = v.toNat) ∧
    (s.target (pageReg p 0x030) = .reg pg k off pt → mayWriteHeader pg p.fn.val pt = true →
      ∃ t, exec (.faultCaptRearm p) s = .next t ∧ t = { s with regs := t.regs } ∧ t.rd pg F.FAULT_CAPT_VALID = 0 ∧ t.rd pg F.FAULT_CAPT_MORE = 0 ∧
        RegsBut s t [fkey pg F.FAULT_CAPT_VALID 0, fkey pg F.FAULT_CAPT_MORE 0]) ∧
    (s.target (pageReg p 0x0F0) = .reg pg k off pt → mayWriteHeader pg p.fn.val pt = true →
      ∃ t, exec (.lockSet p) s = .next t ∧ t = { s with regs := t.regs } ∧ t.locked pg = true ∧ RegsBut s t [fkey pg F.LOCK_LOCKED 0])) ∧
    (∀ v : Word, s.target (pageReg p 0x028) = .reg pg k off pt → mayWriteHeader pg p.fn.val pt = false →
      exec (.evtPendClear p v) s = .next (s.accessErr (pageReg p 0x028)))) ∧
  (∀ (p : PageAcc) (v : Word) (s : State) (pg : Nat) (k : PageKind) (off : Nat) (pt : Bool),
    s.target (pageReg p 0x080) = .reg pg k off pt → mayWriteHeader pg p.fn.val pt = true →
    (s.ownerRefused pg v.toNat = false →
      ∃ t, exec (.ownerWrite p v) s = .next t ∧ t = { s with regs := t.regs } ∧ t.rd pg F.OWNER_FUNC = v.toNat % 32 ∧
        t.rd pg F.OWNER_PT_SLOT = v.toNat / 2 ^ 10 % 64 ∧ t.rd pg F.OWNER_CTX = v.toNat / 2 ^ 16 % 1024 ∧
        t.rd pg F.OWNER_CTX_VALID = v.toNat / 2 ^ 26 % 2 ∧
        RegsBut s t [fkey pg F.OWNER_FUNC 0, fkey pg F.OWNER_PT_SLOT 0, fkey pg F.OWNER_CTX 0, fkey pg F.OWNER_CTX_VALID 0]) ∧
    (s.locked pg = true ∨ 60 ≤ v.toNat / 2 ^ 10 % 64 → exec (.ownerWrite p v) s = .next (s.accessErr (pageReg p 0x080)))) ∧
  (∀ (fn : Fin 32) (s : State), s.mayWriteBlock pgEVT fn.val = true →
    (s.rootSum &&& s.rd pgEVT F.EVT_ROOT_EN = 0 → exec (.evtRearm fn) s = .next s) ∧
    (s.rootSum &&& s.rd pgEVT F.EVT_ROOT_EN ≠ 0 → nget s.host.msixOpen 1 ≠ 0 → s.linkUp = true →
      ∃ t, exec (.evtRearm fn) s = .next t ∧ t.msgs = .msix 0 1 :: s.msgs ∧ t.regs = s.regs ∧ Quiet s t ∧ NoAnswer s t))

/-- R52–R55: arming against a target ahead, or MISSED; the snap fires at the target or at once, giving every unit that acknowledges the next sequence
number; a cancel disarms; DONE tells that all have acknowledged, or counts those that have not after 1 µs. The readings of the spec that this rests on
are the model's own, assumption log 6. -/
def Obligations.SnapMarks : Prop :=
  ∀ (s : State),
    (∀ fn : Fin 32, s.mayWriteBlock pgSNAP fn.val = true →
      (s.on pgSNAP F.SNAP_ARMED = false → 1 ≤ ahead s.snapTarget s.tick → ahead s.snapTarget s.tick < 2 ^ 47 →
        ∃ t, exec (.snapArm fn) s = .next t ∧ t.rd pgSNAP F.SNAP_ARMED = 1 ∧ t.snap = { s.snap with armT := s.tick } ∧
          RegsBut s t [fkey pgSNAP F.SNAP_ARMED 0] ∧ t = { s with regs := t.regs, snap := t.snap }) ∧
      (s.on pgSNAP F.SNAP_ARMED = false → ahead s.snapTarget s.tick = 0 ∨ 2 ^ 47 ≤ ahead s.snapTarget s.tick →
        ∃ t, exec (.snapArm fn) s = .next t ∧ t.rd pgSNAP F.SNAP_MISSED = 1 ∧ t.rd pgSNAP F.SNAP_ARMED = 0 ∧ Raised t pgSNAP 1 ∧ Quiet s t) ∧
      (∃ t, exec (.snapCancel fn) s = .next t ∧ t.rd pgSNAP F.SNAP_ARMED = 0 ∧ RegsBut s t [fkey pgSNAP F.SNAP_ARMED 0] ∧ t = { s with regs := t.regs }) ∧
      (∃ t, exec (.snapNow fn) s = .next t ∧ t.rd pgSNAP F.SNAP_ARMED = 0 ∧ t.snap.busy = true ∧ t.snap.unacked = 0 ∧ t.snap.fireClk = s.now ∧
        t.rd pgSNAP F.SNAP_LAST_SEQ = (if s.rd pgSNAP F.SNAP_LAST_SEQ = 2 ^ 32 - 1 then 1 else (s.rd pgSNAP F.SNAP_LAST_SEQ + 1) % 2 ^ 32) ∧ SameBytes s t)) ∧
    (∀ missing : List Nat, s.snapDue = true →
      ∃ t, exec (.snapFire missing) s = .next t ∧ t.rd pgSNAP F.SNAP_ARMED = 0 ∧ t.snap.busy = true ∧
        t.rd pgSNAP F.SNAP_LAST_SEQ = (if s.rd pgSNAP F.SNAP_LAST_SEQ = 2 ^ 32 - 1 then 1 else (s.rd pgSNAP F.SNAP_LAST_SEQ + 1) % 2 ^ 32) ∧
        t.snap.unacked = (s.snapPages.filter fun p => missing.contains p).length ∧ SameBytes s t) ∧
    (s.snap.busy = true → s.snap.unacked = 0 ∨ s.snap.fireClk + 320 ≤ s.now →
      ∃ t, exec .snapDoneTimeout s = .next t ∧ t.snap = { s.snap with busy := false } ∧ t.rd pgSNAP F.SNAP_DONE = 1 ∧
        t.rd pgSNAP F.SNAP_MISS_UNITS = s.snap.unacked % 2 ^ F.SNAP_MISS_UNITS.width ∧ (s.snap.unacked ≠ 0 → t.rd pgSNAP F.SNAP_INCOMPLETE = 1) ∧
        Raised t pgSNAP 0 ∧ NoAnswer s t)

/-! ## The time base (R56–R80) -/

/-- R58: a valid frame on a line in use is counted, becomes its line's frame of the window, and shows its source; a bad CRC is counted and told; a
frame of another version is ignored; a wrong source and a tick that went backwards are told. A line not in use changes nothing. R59, R60: at the end
of a window without a frame the window is missing and counted; with one, in LOCKED, the tick is what the frame says when the frame is ahead, and holds
when it is behind. R61, R66, R76, R78: what puts the time base into STALLED, STALL_FLY, HOLDOVER and FREE_RUN, the events that tell it, and that the
tick does not move by it. The readings of the spec that this rests on are the model's own, assumption log 18, 61, 112. -/
def Obligations.TimeBaseLock : Prop :=
  (∀ (lineB codeErr : Bool) (bytes : List Byte) (s : State) (en : Bool),
    (en = if lineB then s.on pgTBASE F.TBASE_CFG_LINE_B_EN else s.on pgTBASE F.TBASE_CFG_LINE_A_EN) →
    (en = false ∨ nbit (s.rd pgMOD F.MOD_FIXED_SVC) (4 + boolNat lineB) = false → exec (.tbFrameReceive lineB codeErr bytes) s = .next s) ∧
    (en = true → nbit (s.rd pgMOD F.MOD_FIXED_SVC) (4 + boolNat lineB) = true →
      ∃ t, exec (.tbFrameReceive lineB codeErr bytes) s = .next t ∧
        (s.frameVerdict lineB codeErr bytes = .valid → t = { s with regs := t.regs, ctrs := t.ctrs, tb := t.tb } ∧
          t.rd pgTBASE F.TBASE_SRC_SEEN = (frameOf bytes s.now).src % 65536 ∧ RegsBut s t [fkey pgTBASE F.TBASE_SRC_SEEN 0] ∧
          (lineB = false → t.tb = { s.tb with lastA := some (frameOf bytes s.now).tick, winA := some (frameOf bytes s.now) } ∧
            t.ctr pgTBASE 0x04C = s.ctr pgTBASE 0x04C + 1) ∧
          (lineB = true → t.tb = { s.tb with lastB := some (frameOf bytes s.now).tick, winB := some (frameOf bytes s.now) } ∧
            t.ctr pgTBASE 0x050 = s.ctr pgTBASE 0x050 + 1)) ∧
        (s.frameVerdict lineB codeErr bytes = .crc → t.tb = s.tb ∧ Raised t pgTBASE 7 ∧
          t.ctr pgTBASE (if lineB then 0x058 else 0x054) = s.ctr pgTBASE (if lineB then 0x058 else 0x054) + 1) ∧
        (s.frameVerdict lineB codeErr bytes = .version → t = s) ∧
        (s.frameVerdict lineB codeErr bytes = .source → Raised t pgTBASE 8 ∧ Quiet s t) ∧
        (s.frameVerdict lineB codeErr bytes = .back → Raised t pgTBASE 18 ∧ Quiet s t))) ∧
  ((∀ (s : State), s.tb.winA = none → s.tb.winB = none →
    ∃ t, exec .tbWindowEnd s = .next t ∧ t.tb.missRun = s.tb.missRun + 1 ∧ t.tb.tickFx = s.tb.tickFx ∧ t.tb.st = s.tb.st ∧
      t.rd pgTBASE F.TBASE_LINE_OK = 0 ∧ t.ctr pgTBASE 0x05C = s.ctr pgTBASE 0x05C + 1 ∧ RegsBut s t [fkey pgTBASE F.TBASE_LINE_OK 0]) ∧
  (∀ (s : State) (f : TbFrame), s.usedFrame = some f → s.tb.st = .locked → s.tb.loaded = true → f.tick < 2 ^ 48 → f.pmark = false →
    ∃ t, exec .tbWindowEnd s = .next t ∧ t.tb.missRun = 0 ∧ t.tb.st = .locked ∧ t.tb.winA = none ∧ t.tb.winB = none ∧ t.tb.lastUsed = some f ∧
      t.rd pgTBASE F.TBASE_SRC_SEEN = f.src % 65536 ∧
      (ahead f.tick s.tick = 0 → t.tb.tickFx = s.tb.tickFx) ∧
      (1 ≤ ahead f.tick s.tick → ahead f.tick s.tick < 2 ^ 47 → t.tick = f.tick ∧ t.tb.hold = false) ∧
      (2 ^ 47 ≤ ahead f.tick s.tick → t.tb.tickFx = s.tb.tickFx ∧ t.tb.hold = true))) ∧
  (∀ (s : State),
    (s.tb.st = .locked → s.stalledNow = true →
      ∃ t, exec .stallDetect s = .next t ∧ t.tb = { s.tb with st := .stalled, stallClk := s.now } ∧ Raised t pgTBASE 2 ∧
        t.ctr pgTBASE 0x074 = s.ctr pgTBASE 0x074 + 1 ∧ Quiet { s with tb := t.tb } t) ∧
    (s.tb.st = .stalled → s.tb.stallClk + 320 * s.rd pgTBASE F.TBASE_STALL_GUARD_US ≤ s.now →
      ∃ t, exec .stallGuardExpire s = .next t ∧ t.tb = { s.tb with st := .stallFly, flyNext := s.now } ∧ Raised t pgTBASE 3 ∧
        Quiet { s with tb := t.tb } t) ∧
    (16 ≤ s.tb.missRun → s.tb.st = .locked ∨ s.tb.st = .stalled ∨ s.tb.st = .stallFly →
      ∃ t, exec .holdoverEntry s = .next t ∧ t.tb = { s.tb with st := .holdover, hold := false } ∧ Raised t pgTBASE 4 ∧
        t.rd pgTBASE F.TBASE_MISS_PERIODS = s.tb.subMarks % 8 ∧ Quiet { s with tb := t.tb } t) ∧
    (s.tb.st = .holdover → s.rd pgTBASE F.TBASE_MISS_PERIODS = 3 → s.flyDue = true →
      ∃ t, exec .freeRunEntry s = .next t ∧ t.tb.st = .freeRun ∧ t.tb.tickFx = s.tb.tickFx ∧ t.tb.frTick = s.tick ∧ Raised t pgTBASE 5 ∧
        Quiet { s with tb := t.tb } t) ∧
    (s.tb.st = .locked → s.tb.subMarks = 3 → s.markLostDue = true →
      ∃ t, exec .freeRunEntry s = .next t ∧ t.tb.st = .freeRun ∧ t.tb.tickFx = s.tb.tickFx ∧ Raised t pgTBASE 5 ∧ Quiet { s with tb := t.tb } t))

/-- R80: a write that sets ENABLE takes the time base to ACQUIRING with the settings written; one that clears it takes it to IDLE, the tick holding,
and an armed snap is disarmed as missed; a locked page takes neither. R67, R69, R70: the inactive copy of the slot table takes a write's upper half;
the active copy, and both while a switch is pending, take none; a switch request on a copy that passes the check pends, a cancel ends it, and at the
next mark the copies change places. The readings of the spec that this rests on are the model's own, assumption log 6, 15. -/
def Obligations.TimeBaseCommands : Prop :=
  (∀ (fn : Fin 32) (v : Word) (s : State), s.mayWriteBlock pgTBASE fn.val = true →
    (s.locked pgTBASE = false → s.on pgTBASE F.TBASE_CFG_ENABLE = false →
      ∃ t, exec (.tbaseEnable fn v) s = .next t ∧ t.tb.st = .acquiring ∧ t.tb.loaded = false ∧ t.tb.lastUsed = none ∧ t.tb.lockRun = 0 ∧
        t.rd pgTBASE F.TBASE_CFG_ENABLE = 1 ∧ t.rd pgTBASE F.TBASE_CFG_PERIOD_MODE = v.toNat / 2 % 2 ∧
        t.rd pgTBASE F.TBASE_CFG_PRIMARY = v.toNat / 4 % 2 ∧ t.rd pgTBASE F.TBASE_CFG_LINE_A_EN = v.toNat / 16 % 2 ∧
        t.rd pgTBASE F.TBASE_CFG_LINE_B_EN = v.toNat / 32 % 2 ∧ t = { s with regs := t.regs, tb := t.tb }) ∧
    (s.locked pgTBASE = false → s.on pgTBASE F.TBASE_CFG_ENABLE = true → s.on pgSNAP F.SNAP_ARMED = false →
      ∃ t, exec (.tbaseDisable fn v) s = .next t ∧ t.tb = { s.tb with st := .idle, lastA := none, lastB := none, adj := (0, 0) } ∧
        t.rd pgTBASE F.TBASE_CFG_ENABLE = 0 ∧ t = { s with regs := t.regs, tb := t.tb }) ∧
    (s.locked pgTBASE = false → s.on pgTBASE F.TBASE_CFG_ENABLE = true → s.on pgSNAP F.SNAP_ARMED = true →
      ∃ t, exec (.tbaseDisable fn v) s = .next t ∧ t.tb.st = .idle ∧ t.tb.tickFx = s.tb.tickFx ∧ t.rd pgSNAP F.SNAP_ARMED = 0 ∧
        t.rd pgSNAP F.SNAP_MISSED = 1 ∧ Raised t pgSNAP 1) ∧
    (s.locked pgTBASE = true → ∃ t t', exec (.tbaseEnable fn v) s = .next t ∧ exec (.tbaseDisable fn v) s = .next t' ∧ t.tb = s.tb ∧ t'.tb = s.tb ∧
      Raised t pgMOD 0 ∧ Raised t' pgMOD 0)) ∧
  (∀ (fn : Fin 32) (s : State), s.mayWriteBlock pgTBASE fn.val = true →
    (∀ (copyB : Bool) (slot : Fin 64) (v : Word),
      (s.activeCopy ≠ boolNat copyB → s.on pgTBASE F.TBASE_SLOT_TBL_SEL_PEND = false →
        ∃ t, exec (.slotTableWrite fn copyB slot v) s = .next t ∧ t.slotEntry (boolNat copyB) slot.val = v.toNat / 65536 * 65536 ∧
          RegsBut s t [fkey pgTBASE F.SLOT_TBL (64 * boolNat copyB + slot.val)] ∧ t = { s with regs := t.regs }) ∧
      (s.activeCopy = boolNat copyB ∨ s.on pgTBASE F.TBASE_SLOT_TBL_SEL_PEND = true →
        ∃ t, exec (.slotTableWrite fn copyB slot v) s = .next t ∧ Raised t pgTBASE 13 ∧ RegsBut s t [fkey pgTBASE F.EVT_RAW 0] ∧ Quiet s t)) ∧
    (s.switchOk (1 - s.activeCopy) = true →
      ∃ t, exec (.slotSwReq fn) s = .next t ∧ t.rd pgTBASE F.TBASE_SLOT_TBL_SEL_PEND = 1 ∧ t.activeCopy = s.activeCopy ∧
        RegsBut s t [fkey pgTBASE F.TBASE_SLOT_TBL_SEL_PEND 0] ∧ t = { s with regs := t.regs }) ∧
    (s.switchOk (1 - s.activeCopy) = false →
      ∃ t, exec (.slotSwReq fn) s = .next t ∧ Raised t pgTBASE 15 ∧ RegsBut s t [fkey pgTBASE F.EVT_RAW 0] ∧ Quiet s t) ∧
    (∃ t, exec (.slotSwCancel fn) s = .next t ∧ t.rd pgTBASE F.TBASE_SLOT_TBL_SEL_PEND = 0 ∧
      RegsBut s t [fkey pgTBASE F.TBASE_SLOT_TBL_SEL_PEND 0] ∧ t = { s with regs := t.regs }) ∧
    (s.on pgTBASE F.TBASE_SLOT_TBL_SEL_PEND = true →
      s.switchTables.activeCopy = 1 - s.activeCopy ∧ s.switchTables.rd pgTBASE F.TBASE_SLOT_TBL_SEL_PEND = 0 ∧ Raised s.switchTables pgTBASE 14 ∧
        ∀ c k, s.switchTables.slotEntry c k = s.slotEntry c k))

/-- R27, R61, R63: PERIOD_MARK. In ACQUIRING the first mark only starts the measurement; in LOCKED a mark within 80,000 to 6,400,000 clocks of the
last gives the measured period, begins period PERIOD_IDX at slot 0, counts it, and the mark's actions follow; a longer or shorter period gives the
lock up. R66, R76, R78: the marks that the module places itself. A holdover's mark stands on the tick at which the next mark was due; a stall's
flywheel marks come each `TBASE.PERIOD_CLK` clocks and leave tick, slot and period index; a lost mark is placed at the present tick. No period is
measured at one. R28, R64: a slot edge that is due moves to the next slot, class-0 rings are read, and the groups that start in the slot start; at
edge 63 the handover copy is latched first. On the flywheel of a stall the slot shown stays. The readings of the spec that this rests on are the
model's own, assumption log 6, 19, 61, 63, 69. -/
def Obligations.MarksAndEdges : Prop :=
  (∀ (plan : List GroupPlan) (inp : IntakeIn) (s : State) (m clk pidx : Nat), s.dueMark = some (m, clk, pidx) → s.snapDue = false →
    (s.tb.st = .acquiring → s.tb.markClk = none →
      ∃ t, exec (.periodMark plan inp) s = .next t ∧ t.tb.st = .acquiring ∧ t.tb.markTick = m ∧ t.tb.markClk = some clk ∧ t.tb.lockRun = 0 ∧
        t.tb.signalled = none ∧ t.rd pgTBASE F.TBASE_MISS_PERIODS = 0 ∧ t.steps = s.steps ∧ t = { s with regs := t.regs, tb := t.tb }) ∧
    (∀ c0, s.tb.st = .locked → s.tb.markClk = some c0 → 80000 ≤ clk - c0 → clk - c0 ≤ 6400000 →
      ∃ u : State, exec (.periodMark plan inp) s = .next (u.markActions allClasses plan inp) ∧ u.tb.st = .locked ∧ u.tb.markTick = m ∧
        u.tb.markClk = some clk ∧ u.tb.prevPeriod = clk - c0 ∧ u.tb.rate = (s.ticksTo m * 65536, clk - c0) ∧
        u.rd pgTBASE F.TBASE_PERIOD_CLK = clk - c0 ∧ u.rd pgTBASE F.TBASE_SLOT_CLK = (clk - c0) / 64 ∧ u.rd pgTBASE F.TBASE_SLOT = 0 ∧
        u.rd pgTBASE F.TBASE_PERIOD_IDX = s.nextIdx m % 2 ^ 24 ∧ u.ctr pgTBASE 0x060 = s.ctr pgTBASE 0x060 + 1 ∧
        (s.withinTol (clk - c0) s.tb.prevPeriod = false → Raised u pgTBASE 11) ∧
        (∀ id st, u.step1 id = some st → st.started = true → st.edgeClk.isSome = true)) ∧
    (∀ c0, s.tb.st = .locked → s.tb.markClk = some c0 → clk - c0 < 80000 ∨ 6400000 < clk - c0 →
      ∃ t, exec (.periodMark plan inp) s = .next t ∧ t.tb.st = .acquiring ∧ t.tb.lockRun = 0 ∧ Raised t pgTBASE 12 ∧ Raised t pgTBASE 1 ∧
        t.rd pgTBASE F.TBASE_PERIOD_CLK = s.rd pgTBASE F.TBASE_PERIOD_CLK ∧ t.steps = s.steps)) ∧
  (∀ (plan : List GroupPlan) (inp : IntakeIn) (s : State), s.snapDue = false →
    (s.tb.st = .holdover → s.flyDue = true → s.rd pgTBASE F.TBASE_MISS_PERIODS < 3 →
      ∃ u : State, exec (.flywheelMark plan inp) s = .next (u.markActions allClasses plan inp) ∧ u.tb.st = .holdover ∧ u.tb.markTick = s.tb.nextMark ∧
        u.tb.markClk = none ∧ u.tb.rate = s.tb.rate ∧ u.rd pgTBASE F.TBASE_MISS_PERIODS = s.rd pgTBASE F.TBASE_MISS_PERIODS + 1 ∧
        u.rd pgTBASE F.TBASE_SLOT = 0 ∧ u.rd pgTBASE F.TBASE_PERIOD_CLK = s.rd pgTBASE F.TBASE_PERIOD_CLK ∧
        u.ctr pgTBASE 0x060 = s.ctr pgTBASE 0x060 + 1) ∧
    (s.tb.st = .stallFly → s.tb.flyNext ≤ s.now →
      ∃ u : State, exec (.flywheelMark plan inp) s = .next (u.markActions s.flyClasses plan inp) ∧
        u.tb = { s.tb with flyMark := s.tb.flyNext, flyNext := s.tb.flyNext + s.rd pgTBASE F.TBASE_PERIOD_CLK, flySlot := 0, lastMark := s.now } ∧
        u.rd pgTBASE F.TBASE_SLOT = s.rd pgTBASE F.TBASE_SLOT ∧ u.rd pgTBASE F.TBASE_PERIOD_IDX = s.rd pgTBASE F.TBASE_PERIOD_IDX ∧
        u.ctr pgTBASE 0x060 = s.ctr pgTBASE 0x060 + 1) ∧
    (s.tb.st = .locked → s.tb.subMarks < 3 → s.markLostDue = true →
      ∃ u : State, exec (.markLost plan inp) s = .next (u.markActions allClasses plan inp) ∧ u.tb.st = .locked ∧ u.tb.subMarks = s.tb.subMarks + 1 ∧
        u.tb.markTick = s.tick ∧ u.tb.markClk = none ∧ u.rd pgTBASE F.TBASE_MISS_PERIODS = s.tb.subMarks + 1 ∧
        u.rd pgTBASE F.TBASE_SLOT = 0 ∧ Raised u pgTBASE 20)) ∧
  (∀ (inp : IntakeIn) (s : State) (k : Nat),
    (k = s.rd pgTBASE F.TBASE_SLOT + 1 → s.tb.st = .locked ∨ s.tb.st = .holdover ∨ s.tb.st = .freeRun → s.edgeDue k = true →
      ∃ u : State, u.rd pgTBASE F.TBASE_SLOT = k ∧ RegsBut s u [fkey pgTBASE F.TBASE_SLOT 0] ∧ u = { s with regs := u.regs, steps := u.steps } ∧
        (k ≠ 63 → exec (.slotEdge inp) s = .next (((u.ringReads [0] inp).publishIdle).startGroups allClasses k)) ∧
        (k = 63 → exec (.slotEdge inp) s = .next (((u.latchHandover.ringReads [0] inp).publishIdle).startGroups allClasses 63))) ∧
    (k = s.tb.flySlot + 1 → s.tb.st = .stallFly → k ≤ 63 → s.tb.flyMark + k * s.rd pgTBASE F.TBASE_SLOT_CLK ≤ s.now →
      ∃ u : State, u.tb = { s.tb with flySlot := k } ∧ u = { s with tb := u.tb, steps := u.steps } ∧
        exec (.slotEdge inp) s = .next ((u.publishIdle).startGroups s.flyClasses k)))

/-! ## Steps run again, DMAs, banks, segments, the Tap (R134, R149, R153, R154, R173–R187) -/

/-- R107, R134, R154: a parity error of an instruction word ends the run of its step: the first time the step drains to run again, the second time it
fails with FAULT; STEP_RECOMPUTE runs a drained step again from its armings; STEP_JOIN_RELEASE ends a step whose join is released or that failed. R93,
R144, R173, R178: a DMA between the floor store and the vat store of the running kernel that the Tap serves moves its bytes and no others, and a post
to a LOCAL spile leaves then. The readings of the spec that this rests on are the model's own, assumption log 70, 71, 73. -/
def Obligations.StepsAndFloorDmas : Prop :=
  ((∀ (v : VatId) (s : State) (k : Kernel) (st : Step), s.kern (vatPg v) = some k → s.step1 k.step = some st →
    ∃ t, exec (.instrParityError v) s = .next t ∧
      (st.detections = 0 → t.step1 k.step = some { st with detections := 1, draining := true }) ∧
      (st.detections ≠ 0 → ∃ x, t.step1 k.step = some x ∧ x.detections = st.detections + 1 ∧ x.draining = false ∧
        (st.status = 0 → x.status = stFAULT) ∧ (st.status ≠ 0 → x.status = st.status)) ∧
      ∀ id, id ≠ k.step → t.step1 id = s.step1 id) ∧
  (∀ (step : Nat) (s : State) (st : Step), s.step1 step = some st → s.mayRerun step st = true → st.job = none → st.arms = [] → st.takes = [] →
    ∃ u : State, exec (.stepRecompute step) s = .next (u.gatePosts st.ctx st.posts) ∧
      u.step1 step = some { st with draining := false, recomputed := true } ∧ (∀ id, id ≠ step → u.step1 id = s.step1 id) ∧ SameBytes s u) ∧
  (∀ (step : Nat) (outs : List MemberOut) (s : State) (st : Step), s.step1 step = some st → st.job = none → st.started = true → st.draining = false →
    (s.spl.rels.any fun r => r.1 == Who.join step) = true ∨ st.status ≠ 0 ∨ st.denied = true →
    ∃ t, exec (.stepJoinRelease step outs) s = .next t ∧ t.step1 step = none ∧ (∀ w ∈ t.spl.waiters, w.w ≠ Who.join step) ∧
      ∀ r ∈ t.spl.rels, r.1 ≠ Who.join step)) ∧
  (∀ (v : VatId) (index : Nat) (lines : List (Nat × LineOut)) (remote : List (Nat × List Byte)) (s : State) (k : Kernel) (d : Dma) (fp : Nat),
    fp = floorOfVat (vatPg v) → s.kern (vatPg v) = some k → k.dmas[index]? = some d → d.floorStore = true →
    (∀ a, d.ext ≤ a → a < d.ext + d.bytes → s.segAnswer fp (s.logicalOf (vatPg v)) k.ctx a = 0) → (∀ w, s.floorWordBad fp w = false) →
    (d.out = false →
      s.kputBad (vatPg v) k ((List.range d.bytes).map fun j => (d.vatAddr + j, (bget s.fstore (fp * 8388608 + d.ext + j)).toNat)) = false →
      ∃ t, exec (.dmaComplete v 0 index lines remote) s = .next t ∧
        Stored s t (vatPg v) k ((List.range d.bytes).map fun j => (d.vatAddr + j, (bget s.fstore (fp * 8388608 + d.ext + j)).toNat)) ∧
        (d.post = none → t.kern (vatPg v) = some { k with dmas := k.dmas.eraseIdx index } ∧ t.spl = s.spl) ∧
        (∀ sp phys, d.post = some sp → s.spMap k.ctx sp = some (phys, true) → t.kern (vatPg v) = some { k with dmas := k.dmas.eraseIdx index } ∧
          t.spl.flight = s.spl.flight ++ [{ port := vatPg v, ctx := k.ctx, v := sp, phys := phys, op := .post 1 }])) ∧
    (d.out = true → d.post = none → (∀ j, j < d.bytes → s.kbad (vatPg v) k (d.vatAddr + j) 1 = false) →
      ∃ t, exec (.dmaComplete v 0 index lines remote) s = .next t ∧
        (∀ j, j < d.bytes → (bget t.fstore (fp * 8388608 + d.ext + j)).toNat = s.kbyte (vatPg v) k (d.vatAddr + j)) ∧
        (∀ a, ¬(fp * 8388608 + d.ext ≤ a ∧ a < fp * 8388608 + d.ext + d.bytes) → bget t.fstore a = bget s.fstore a) ∧
        (∀ a, bget t.vstore a = bget s.vstore a) ∧ (∀ a, bget t.lp.mem a = bget s.lp.mem a) ∧
        t.kern (vatPg v) = some { k with dmas := k.dmas.eraseIdx index } ∧ t.spl = s.spl))

/-- R174, R483: BANK_ASSIGN gives free banks to the context at once, a bank of another after a clearing fill; BANK_RELEASE clears the banks it names;
BANK_CLEAR_DONE leaves zeros and the tag to come, and the command that waited is answered. R179, R180, R483: the same of floor-store segments;
SEG_RETIRE puts a spare in the place of a physical segment with 2 detections in 24 hours, its contents lost, or tells that none is left. The readings
of the spec that this rests on are the model's own, assumption log 34, 35. -/
def Obligations.BanksAndSegments : Prop :=
  ((∀ (fn : Fin 32) (tag : Nat) (c : Fin 1024) (die floor vat : Nat) (pinned : Bool) (mask : Fin 65536) (s : State) (pg : Nat),
    Performs s fn.val 0x14 → s.cmdVat die floor vat = some pg → s.bankAssignRefused pg c.val (bitsSet mask.val 16) = none →
    (∀ b, b < 16 → nbit mask.val b = true → s.bankClearing pg b = false) →
    ((∀ b, b < 16 → nbit mask.val b = true → s.bankOwner pg b = none ∧ s.bankBusy pg b = false) →
      ∃ t, exec (.bankAssign fn tag c die floor vat pinned mask) s = .next t ∧ Answered s t fn.val tag 0 0 ∧
        (∀ b, b < 16 → nbit mask.val b = true → t.bankOwner pg b = some c.val ∧ t.rdi pg F.VAT_BANK_OWNER_PINNED b = boolNat pinned) ∧
        (∀ b, b < 16 → nbit mask.val b = false → t.bankOwner pg b = s.bankOwner pg b) ∧ SameBytes s t) ∧
    ((∀ b, b < 16 → nbit mask.val b = true → (∃ o, s.bankOwner pg b = some o ∧ o ≠ c.val) ∧ s.bankBusy pg b = false) →
      ∃ t, exec (.bankAssign fn tag c die floor vat pinned mask) s = .next t ∧ t.host.resps = s.host.resps ∧
        t.host.waits = s.host.waits ++ [{ fn := fn.val, tag := tag, on := .banks pg mask.val, result := 0 }] ∧
        (∀ b, b < 16 → nbit mask.val b = true → t.bankClearing pg b = true) ∧ (∀ b, b < 16 → t.bankOwner pg b = s.bankOwner pg b) ∧
        SameBytes s t)) ∧
  (∀ (fn : Fin 32) (tag : Nat) (c : Fin 1024) (die floor vat : Nat) (mask : Fin 65536) (s : State) (pg : Nat),
    Performs s fn.val 0x15 → s.cmdVat die floor vat = some pg → s.bankReleaseRefused pg c.val die floor vat (bitsSet mask.val 16) = none →
    (∀ b, b < 16 → nbit mask.val b = true → s.bankClearing pg b = false ∧ s.bankBusy pg b = false) → mask.val ≠ 0 →
    ∃ t, exec (.bankRelease fn tag c die floor vat mask) s = .next t ∧ t.host.resps = s.host.resps ∧
      t.host.waits = s.host.waits ++ [{ fn := fn.val, tag := tag, on := .banks pg mask.val, result := 0 }] ∧
      (∀ b, b < 16 → nbit mask.val b = true → t.bankClearing pg b = true ∧ (b, none, false) ∈ (t.vat pg).fills) ∧ SameBytes s t) ∧
  (∀ (v : VatId) (b : Fin 16) (s : State) (owner : Option Nat) (pinned : Bool), (s.vat (vatPg v)).fills = [(b.val, owner, pinned)] →
    (∀ c, owner = some c → c < 1024) →
    ∃ t, exec (.bankClearDone v b) s = .next t ∧ t.bankOwner (vatPg v) b.val = owner ∧ t.bankClearing (vatPg v) b.val = false ∧
      (t.vat (vatPg v)).fills = [] ∧
      (∀ a, bget t.vstore a = if a / 131072 = vatPg v * 16 + b.val then 0 else bget s.vstore a) ∧
      (∀ fn tag m, s.host.waits = [{ fn := fn, tag := tag, on := .banks (vatPg v) m, result := 0 }] →
        t.host.waits = [] ∧ Answered s t fn tag 0 0))) ∧
  ((∀ (fn : Fin 32) (tag : Nat) (c : Fin 1024) (die floor : Nat) (pinned : Bool) (mask : Word) (s : State) (fp : Nat),
    Performs s fn.val 0x16 → s.cmdFloor die floor = some fp → s.segAssignRefused fp c.val (bitsSet mask.toNat 32) = none →
    (∀ g, g < 32 → nbit mask.toNat g = true → s.segClearing fp g = false ∧ s.segMarch fp g = false) →
    (∀ g, g < 32 → nbit mask.toNat g = true → s.segOwner fp g = none ∧ s.segBusy fp g = false ∧ s.caskSeg die floor g = false) →
      ∃ t, exec (.segAssign fn tag c die floor pinned mask) s = .next t ∧ Answered s t fn.val tag 0 0 ∧
        (∀ g, g < 32 → nbit mask.toNat g = true → t.segOwner fp g = some c.val ∧ t.rdi fp F.FLOOR_SEG_OWNER_PINNED g = boolNat pinned) ∧
        (∀ g, g < 32 → nbit mask.toNat g = false → t.segOwner fp g = s.segOwner fp g) ∧ SameBytes s t) ∧
  (∀ (fn : Fin 32) (tag : Nat) (c : Fin 1024) (die floor : Nat) (mask : Word) (s : State) (fp : Nat),
    Performs s fn.val 0x17 → s.cmdFloor die floor = some fp → s.segReleaseRefused fp c.val die floor (bitsSet mask.toNat 32) = none →
    (∀ g, g < 32 → nbit mask.toNat g = true → s.segClearing fp g = false ∧ s.segBusy fp g = false ∧ s.caskSeg die floor g = false) →
    mask.toNat ≠ 0 →
    ∃ t, exec (.segRelease fn tag c die floor mask) s = .next t ∧ t.host.resps = s.host.resps ∧
      t.host.waits = s.host.waits ++ [{ fn := fn.val, tag := tag, on := .segs fp mask.toNat, result := 0 }] ∧
      (∀ g, g < 32 → nbit mask.toNat g = true → t.segClearing fp g = true) ∧ SameBytes s t) ∧
  (∀ (f : FloorId) (g : Fin 32) (s : State) (owner : Option Nat) (pinned : Bool), (s.floor (floorPgOf f)).fills = [(g.val, owner, pinned)] →
    (∀ c, owner = some c → c < 1024) →
    ∃ t, exec (.segClearDone f g) s = .next t ∧ t.segOwner (floorPgOf f) g.val = owner ∧ t.segClearing (floorPgOf f) g.val = false ∧
      (t.floor (floorPgOf f)).fills = [] ∧
      ∀ a, bget t.fstore a = if a / 262144 = floorPgOf f * 32 + g.val then 0 else bget s.fstore a) ∧
  (∀ (f : FloorId) (g : Fin 32) (data : Option (List Byte)) (s : State) (phys left : Nat), s.rdi (floorPgOf f) F.FLOOR_SEG_PHYS g.val = phys →
    phys ≠ 0x3F → s.rd (floorPgOf f) F.FLOOR_SEG_SPARES = left → left ≤ 2 → s.caskSeg f.die.val f.floor.val g.val = false →
    2 ≤ ((s.floor (floorPgOf f)).dets.filter fun d => d.1 == phys && decide (s.now < d.2 + clkDay)).length →
    ∃ t, exec (.segRetire f g data) s = .next t ∧
      (left ≠ 0 → t.rdi (floorPgOf f) F.FLOOR_SEG_PHYS g.val = 34 - left ∧ t.rd (floorPgOf f) F.FLOOR_SEG_SPARES = left - 1 ∧
        Raised t (floorPgOf f) 8) ∧
      (left = 0 → t.rdi (floorPgOf f) F.FLOOR_SEG_PHYS g.val = 0x3F ∧ t.rd (floorPgOf f) F.FLOOR_SEG_SPARES = 0 ∧ Raised t (floorPgOf f) 9) ∧
      ∀ a, bget t.fstore a = if a / 262144 = floorPgOf f * 32 + g.val then 0 else bget s.fstore a))

/-- R182–R187: a request to a free port with nothing queued is granted in the same clock and counted; to a port that a burst holds it is queued, at
most two for each requester, and else its requester stalls; a burst that moves no beat for the watchdog time is ended and its requester fenced; a
priority write sets the priorities. The readings of the spec that this rests on are the model's own, assumption log 36. -/
def Obligations.TapArbiter : Prop :=
  (∀ (f : FloorId) (r : TapReq) (s : State) (fp : Nat), fp = floorPgOf f → r.req < 11 → r.port < 4 → 1 ≤ r.beats → r.beats ≤ 16 →
    s.floorOpen fp r.ctx = true → nbit (s.rd fp F.FLOOR_TAP_FENCED) r.req = false →
    ((s.floor fp).tapQ = [] → (∃ clk, portFree (s.floor fp) r.port = some clk ∧ clk ≤ s.now) →
      ∃ t, exec (.tapRequest f r) s = .next t ∧ mget (t.floor fp).bursts r.port = some (r, s.now) ∧ (t.floor fp).tapQ = [] ∧
        t.ctr fp 0x064 = s.ctr fp 0x064 + 1 ∧ t.ctr fp 0x078 = s.ctr fp 0x078 + boolNat r.class0 ∧ t.regs = s.regs ∧ SameBytes s t) ∧
    (portFree (s.floor fp) r.port = none → ((s.floor fp).tapQ.filter fun x => x.req == r.req).length < 2 →
      ∃ t, exec (.tapRequest f r) s = .next t ∧ (t.floor fp).tapQ = (s.floor fp).tapQ ++ [r] ∧ (t.floor fp).bursts = (s.floor fp).bursts ∧
        t.regs = s.regs ∧ SameBytes s t) ∧
    (portFree (s.floor fp) r.port = none → 2 ≤ ((s.floor fp).tapQ.filter fun x => x.req == r.req).length →
      ∃ t, exec (.tapRequest f r) s = .next t ∧ t.floors = s.floors ∧ t.ctr fp 0x06C = s.ctr fp 0x06C + 1 ∧ t.regs = s.regs ∧ SameBytes s t)) ∧
  (∀ (f : FloorId) (port : Fin 4) (s : State) (fp : Nat) (r : TapReq) (clk : Nat), fp = floorPgOf f → mget (s.floor fp).bursts port.val = some (r, clk) →
    r.stuck = true → r.req < 11 → clk + s.rd fp F.FLOOR_TAP_WDOG ≤ s.now →
    ∃ t, exec (.tapWdog f port) s = .next t ∧ mget (t.floor fp).bursts port.val = none ∧ (∀ x ∈ (t.floor fp).tapQ, x.req ≠ r.req) ∧
      nbit (t.rd fp F.FLOOR_TAP_FENCED) r.req = true ∧ t.ctr fp 0x070 = s.ctr fp 0x070 + 1 ∧ Raised t fp 7 ∧ SameBytes s t ∧
      (8 < r.req → t.bist.due = s.bist.due ++ [.floor f])) ∧
  (∀ (fn : Fin 32) (f : FloorId) (v : Word) (s : State) (fp : Nat), fp = floorPgOf f → s.mayWriteBlock fp fn.val = true → (s.floor fp).tapQ = [] →
    (∃ t, exec (.tapPrioWrite fn f false v) s = .next t ∧ t.rd fp F.FLOOR_TAP_PRIO0 = v.toNat ∧ RegsBut s t [fkey fp F.FLOOR_TAP_PRIO0 0] ∧
      t = { s with regs := t.regs }) ∧
    ∃ t, exec (.tapPrioWrite fn f true v) s = .next t ∧ t.rd fp F.FLOOR_TAP_PRIO1_MAINT = v.toNat % 16 ∧
      t.rd fp F.FLOOR_TAP_PRIO1_FAB_IN = v.toNat / 16 % 16 ∧ t.rd fp F.FLOOR_TAP_PRIO1_FAB_OUT = v.toNat / 256 % 16 ∧ t = { s with regs := t.regs })

/-! ## Main memory (R190–R219) -/

/-- R195, R205, R208: a line read of a context that translates and comes back good delivers the line's text; one that does not translate delivers
zeros and posts XLT_FAULT; one that fails twice is a detection, delivered as DETECT. R196: a write within one line gives its bytes to the line under
the owner's key; a partial write keeps the rest of the line as it read; every other byte of main memory is as before. One that does not translate
writes nothing. The readings of the spec that this rests on are the model's own, assumption log 39, 42, 43, 59. -/
def Obligations.LineAccesses : Prop :=
  (∀ (die : Fin 4) (c : Fin 1024) (va : Nat) (step : Option Nat) (o : LineOut) (s : State), s.hasUnit (pgDIE die.val) = true → s.isLocalVa va = true →
    (∀ pa x key, s.xlate c.val va false false = .ok pa → s.frame (pa / 4096) = some x → s.keyIn (slotOfOwner x.otype x.owner) = some key →
      o.cacheParity = false → nget s.lp.bad (pa / 64) = 0 →
      (o.fail1 = false →
        ∃ t, exec (.lpddrRead die c va step o) s = .next t ∧ t.lp.line = s.lineText (pa / 64) key ∧ t.lp.lineHow = 0 ∧ t.regs = s.regs ∧
          t.steps = s.steps ∧ SameBytes s t) ∧
      (o.fail1 = true → o.fail2 = true → x.kind = 0 → step = none →
        ∃ t, exec (.lpddrRead die c va step o) s = .next t ∧ t.lp.lineHow = 2 ∧ Raised t (frameGroup (pa / 4096)) 0 ∧ SameBytes s t)) ∧
    (∀ code, s.xlate c.val va false false = .error code →
      ∃ t, exec (.lpddrRead die c va step o) s = .next t ∧ t.lp.line = List.replicate 64 0 ∧ t.lp.lineHow = 3 ∧ Raised t (pgCEV c.val) 10 ∧
        t.ctr (pgXLT die.val) 0x05C = s.ctr (pgXLT die.val) 0x05C + 1 ∧ SameBytes s t ∧
        ∀ id st, step = some id → s.step1 id = some st → st.status = 0 → ∃ x, t.step1 id = some x ∧ x.status = xltStatus code)) ∧
  (∀ (die : Fin 4) (c : Fin 1024) (va : Nat) (data : List Byte) (step : Option Nat) (o : LineOut) (s : State),
    s.hasUnit (pgDIE die.val) = true → s.isLocalVa va = true → data ≠ [] → va % 64 + data.length ≤ 64 →
    (∀ pa x key, s.xlate c.val va true false (max 1 data.length) = .ok pa → s.frame (pa / 4096) = some x →
      s.keyIn (slotOfOwner x.otype x.owner) = some key → o.cacheParity = false → (data.length = 64 ∨ (nget s.lp.bad (pa / 64) = 0 ∧ o.fail1 = false)) →
      ∃ t, exec (.lpddrWrite die c va data false step o) s = .next t ∧ mget t.lp.tag (pa / 64) = some (key + 1) ∧
        (∀ i, i < 64 → bget t.lp.mem (64 * (pa / 64) + i) =
          if pa % 64 ≤ i ∧ i < pa % 64 + data.length then data.getD (i - pa % 64) 0 else BitVec.ofNat 8 ((s.lineText (pa / 64) key).getD i 0)) ∧
        (∀ a, a / 64 ≠ pa / 64 → bget t.lp.mem a = bget s.lp.mem a) ∧ (∀ a, bget t.vstore a = bget s.vstore a) ∧
        (∀ a, bget t.fstore a = bget s.fstore a) ∧ t.regs = s.regs ∧ t.steps = s.steps) ∧
    (∀ code, s.xlate c.val va true false (max 1 data.length) = .error code →
      ∃ t, exec (.lpddrWrite die c va data false step o) s = .next t ∧ Raised t (pgCEV c.val) 10 ∧ SameBytes s t))

/-- R199, R200, R207: FRAME_ASSIGN gives free frames that hold raw zeros to their owner at once, others after a clearing fill; FRAME_RELEASE clears;
FRAME_CLEAR_DONE leaves raw zeros, and the frames with their owner or free. R203, R207: XMAP writes a 4 KiB leaf over a frame that the context owns,
counting the mapping; XUNMAP clears a leaf, and completes with FAULT where none maps the VA. The readings of the spec that this rests on are the
model's own, assumption log 35, 45, 46. -/
def Obligations.FramesAndMappings : Prop :=
  ((∀ (fn : Fin 32) (tag : Nat) (isDomain : Bool) (owner kind : Nat) (r : FrameRun) (s : State), Performs s fn.val 0x10 → s.dieThere r.die = true →
    s.ownerOpen isDomain owner = true → r.first + r.count ≤ 2 ^ 25 → kind < 5 → (∀ f, f ∈ runFrames r → s.frameFree f = true) →
    s.runClearing r = false →
    ((∀ f, f ∈ runFrames r → s.frameZero f = true) →
      ∃ t, exec (.frameAssign fn tag isDomain owner kind r) s = .next t ∧ Answered s t fn.val tag 0 0 ∧
        (∀ f, f ∈ runFrames r → t.frame f = some { otype := boolNat isDomain, owner := owner, kind := kind }) ∧
        (∀ f, f ∉ runFrames r → t.frame f = s.frame f) ∧ t.regs = s.regs ∧ SameBytes s t) ∧
    ((∃ f, f ∈ runFrames r ∧ s.frameZero f = false) →
      ∃ t, exec (.frameAssign fn tag isDomain owner kind r) s = .next t ∧ t.host.resps = s.host.resps ∧
        t.host.waits = s.host.waits ++ [{ fn := fn.val, tag := tag, on := .frames r.die r.first r.count, result := 0 }] ∧
        (∀ f, f ∈ runFrames r → t.frame f = some { otype := boolNat isDomain, owner := owner, kind := kind, clearing := true }) ∧ SameBytes s t)) ∧
  (∀ (fn : Fin 32) (tag : Nat) (isDomain : Bool) (owner : Nat) (r : FrameRun) (s : State), Performs s fn.val 0x11 → s.dieThere r.die = true →
    s.runClearing r = false → r.count ≠ 0 →
    (∀ f, f ∈ runFrames r → ∃ x, s.frame f = some x ∧ x.otype = boolNat isDomain ∧ x.owner = owner ∧ x.maps = 0 ∧ x.pinned = false) →
    ∃ t, exec (.frameRelease fn tag isDomain owner r) s = .next t ∧ t.host.resps = s.host.resps ∧
      t.host.waits = s.host.waits ++ [{ fn := fn.val, tag := tag, on := .frames r.die r.first r.count, result := 0 }] ∧
      t.lp.clears = s.lp.clears ++ [{ run := r, owner := none, kind := 0 }] ∧
      (∀ f, f ∈ runFrames r → ∃ x, t.frame f = some x ∧ x.clearing = true) ∧ SameBytes s t) ∧
  (∀ (die : Fin 4) (first : Nat) (s : State) (c : Clear), s.lp.clears = [c] → c.run.die = die.val → c.run.first = first →
    ∃ t, exec (.frameClearDone die first) s = .next t ∧ t.lp.clears = [] ∧
      (∀ a, bget t.lp.mem a = if inRun c.run (a / 4096) = true then 0 else bget s.lp.mem a) ∧
      (∀ f, inRun c.run f = true → t.frameZero f = true) ∧
      (∀ o, c.owner = some o → ∀ f, f ∈ runFrames c.run → t.frame f = (s.frame f).map fun x => { x with clearing := false }) ∧
      (c.owner = none → ∀ f, f ∈ runFrames c.run → (∀ x, s.frame f = some x → x.pend = false) → t.frame f = none) ∧
      (∀ f, f ∉ runFrames c.run → t.frame f = s.frame f) ∧
      (∀ fn tag, s.host.waits = [{ fn := fn, tag := tag, on := .frames die.val first c.run.count, result := 0 }] →
        t.host.waits = [] ∧ Answered s t fn tag 0 0))) ∧
  ((∀ (fn : Fin 32) (tag : Nat) (c : Fin 1024) (va pa : Nat) (w h : Bool) (s : State) (x : Frame), Performs s fn.val 0x12 →
    s.dieThere (pa / 2 ^ 37) = true → s.ctxOpen c.val = true → s.frame (pa / 4096) = some x → s.ownsFrame c.val (pa / 4096) = true →
    (h = true → s.ctxField F.CTXS_ENTRY_SEALED c.val ≠ 1) → s.granule c.val va = none →
    2 * (s.tablesNeeded c.val va false).length ≤ s.rd (pgXLT (pa / 2 ^ 37)) F.XLT_SYS_FREE → mget s.lp.leaves (smallKey c.val va) = none →
    ∃ t, exec (.xmap fn tag c va pa false w h) s = .next t ∧ Answered s t fn.val tag 0 0 ∧
      mget t.lp.leaves (smallKey c.val va) = some { pa := pa / 4096, w := w && x.kind != 3, h := h } ∧
      (∀ k, k ≠ smallKey c.val va → mget t.lp.leaves k = mget s.lp.leaves k) ∧
      (∃ y, t.frame (pa / 4096) = some y ∧ y.maps = x.maps + 1 ∧ y.owner = x.owner ∧ y.otype = x.otype) ∧
      (∀ f, f ≠ pa / 4096 → t.frame f = s.frame f) ∧ SameBytes s t) ∧
  (∀ (fn : Fin 32) (tag : Nat) (c : Fin 1024) (va : Nat) (s : State), Performs s fn.val 0x13 → mget s.lp.leaves (bigKey c.val va) = none →
    (∀ x y, mget s.lp.leaves (smallKey c.val va) = some x → s.frame x.pa = some y →
      ∃ t, exec (.xunmap fn tag c va) s = .next t ∧ Answered s t fn.val tag 0 0 ∧ mget t.lp.leaves (smallKey c.val va) = none ∧
        (∀ k, k ≠ smallKey c.val va → mget t.lp.leaves k = mget s.lp.leaves k) ∧ t.frame x.pa = some { y with maps := y.maps - 1 } ∧
        t.regs = s.regs ∧ SameBytes s t) ∧
    (mget s.lp.leaves (smallKey c.val va) = none →
      ∃ t, exec (.xunmap fn tag c va) s = .next t ∧ Answered s t fn.val tag stFAULT 0 ∧ t.lp = s.lp)))

/-- R209–R215: the patrol reads the next line of a channel, clears what nobody owns where it reads bad, and ends a pass; a channel with a cause leaves
service and joins the retired list, and its frames read retired when the pass over the table is done; a recovery gives back a cask's frame. The
readings of the spec that this rests on are the model's own, assumption log 42, 47. -/
def Obligations.PatrolAndRetirement : Prop :=
  (∀ (die group : Fin 4) (ch : Fin 8) (fail1 fail2 : Bool) (s : State) (pos l : Nat), pos = nget s.lp.patPos (32 * die.val + (8 * group.val + ch.val)) →
    l = (die.val * 2 ^ 25 + pos / 64 * 32 + (8 * group.val + ch.val)) * 64 + pos % 64 → s.ready = true → s.hasUnit (pgDIE die.val) = true →
    s.on (pgLPG die.val group.val) F.LPG_PATROL_EN = true → s.chanRetired die.val (8 * group.val + ch.val) = false → pos < linesPerChannel →
    nget s.lp.bad l = 0 →
    ((fail1 = false ∨ fail2 = false) →
      ∃ t, exec (.patrolRead die group ch fail1 fail2 false) s = .next t ∧
        nget t.lp.patPos (32 * die.val + (8 * group.val + ch.val)) = pos + 1 ∧
        t.ctr (pgLPG die.val group.val) 0x06C = s.ctr (pgLPG die.val group.val) 0x06C + 1 ∧ SameBytes s t) ∧
    (fail1 = true → fail2 = true → s.frame (l / 64) = none →
      ∃ t, exec (.patrolRead die group ch fail1 fail2 false) s = .next t ∧
        nget t.lp.patPos (32 * die.val + (8 * group.val + ch.val)) = pos + 1 ∧ Raised t (pgLPG die.val group.val) 2 ∧ nget t.lp.bad l = 0 ∧
        ∀ a, bget t.lp.mem a = if a / 64 = l then 0 else bget s.lp.mem a)) ∧
  (∀ (die group : Fin 4) (s : State), (∃ c, c < 8 ∧ s.chanRetired die.val (8 * group.val + c) = false) →
    (∀ c, c < 8 → s.chanRetired die.val (8 * group.val + c) = false → nget s.lp.patPos (32 * die.val + 8 * group.val + c) = linesPerChannel) →
    ∃ t, exec (.patrolPassEnd die group) s = .next t ∧ t.rd (pgLPG die.val group.val) F.LPG_PATROL_POS = 0 ∧
      t.rd (pgLPG die.val group.val) F.LPG_PATROL_PASSES = (s.rd (pgLPG die.val group.val) F.LPG_PATROL_PASSES + 1) % 2 ^ F.LPG_PATROL_PASSES.width ∧
      (∀ c, c < 8 → nget t.lp.patPos (32 * die.val + 8 * group.val + c) = 0 ∧ nget t.lp.chDet (32 * die.val + 8 * group.val + c) = 0) ∧
      (∀ f x, t.frame f = some x → frameGroup f = pgLPG die.val group.val → x.detect = 0) ∧ SameBytes s t) ∧
  (∀ (n ch : Nat) (rest : List Nat) (s : State), n < 4 → ch < 32 → s.lp.chDue = (32 * n + ch) :: rest → s.chanRetired n ch = false →
    s.isRetired (pgDIE n) = false → (s.retList n).length < 7 →
    ∃ t, exec .channelRetire s = .next t ∧ (∀ c ∈ t.lp.chDue, c ≠ 32 * n + ch) ∧ t.lp.passes = s.lp.passes ++ [32 * n + ch] ∧
      t.chanRetired n ch = true ∧ t.rdi (pgXLT n) F.XLT_RET_LIST_CH (s.retList n).length = ch ∧
      t.rdi (pgXLT n) F.XLT_RET_LIST_VALID (s.retList n).length = 1 ∧ t.rd (pgXLT n) F.XLT_RSET_NOW = (s.retList n).length + 1 ∧
      Raised t (pgLPG n (ch / 8)) 4 ∧ SameBytes s t) ∧
  (∀ (c : Nat) (rest : List Nat) (s : State), s.lp.passes = c :: rest →
    ∃ t, exec .retirePassDone s = .next t ∧ t.lp.passes = rest ∧ Raised t (pgXLT (c / 32)) 3 ∧ SameBytes s t ∧
      (∀ f x, s.frame f = some x → frameDie f = c / 32 → frameChan f = c % 32 → ∃ y, t.frame f = some y ∧ y.otype = 3) ∧
      (∀ f, ¬(frameDie f = c / 32 ∧ frameChan f = c % 32) → t.frame f = s.frame f)) ∧
  (∀ (die : Fin 4) (frame f : Nat) (s : State) (r : Recov) (x : Frame), frame < 2 ^ 25 → f = die.val * 2 ^ 25 + frame → mget s.lp.recov f = some r →
    s.frame f = some x → r.kind = 2 → s.caskFrame f = true →
    (∀ bs, ∃ t, exec (.frameRecoveryDone die frame (some bs)) s = .next t ∧ mget t.lp.recov f = none ∧
      (∀ i, i < 4096 → bget t.lp.mem (4096 * f + i) = bs.getD i 0) ∧ (∀ a, a / 4096 ≠ f → bget t.lp.mem a = bget s.lp.mem a)) ∧
    ∃ t, exec (.frameRecoveryDone die frame none) s = .next t ∧ mget t.lp.recov f = none ∧ SameBytes s t ∧
      ∀ id st, id ∈ r.steps → s.step1 id = some st → st.status = 0 → ∃ y, t.step1 id = some y ∧ y.status = stFAULT)

/-! ## Attention, KV pages, the prefix tree, the cellar tier (R220–R289) -/

/-- R220, R224, R252: a layer start without a mask-state error latches the step's members, reads its layer descriptor, walks each member's page list
and works its rows in order; a row to which no key belongs counts as empty; an error of the mask state ends the step's run. R237, R249: the lookup
drafter starts on a request in DECODE without a step, and leaves its candidates; a gather transfer of the die ring writes its bytes, a reduce adds
them in fp32, a lost one fails the step. The readings of the spec that this rests on are the model's own, assumption log 76. -/
def Obligations.AttentionCommands : Prop :=
  ((∀ (v : VatId) (desc : Nat) (rows : List AttRow) (s s0 s1 s2 : State) (k : Kernel) (st0 st : Step) (bs : List Nat) (d : LayerDesc),
    s.kern (vatPg v) = some k → s.step1 k.step = some st0 → st0.started = true → st0.status = 0 →
    s0 = (s.latchStep k.step v.die.val).count (pgATT v.die.val) 0x04C 1 → st = (s0.step1 k.step).getD st0 →
    s0.hubRead st.ctx (desc / 64 * 64) 1 {} (some k.step) = (s1, some bs) → d = layerOf bs →
    (∀ q, q < 4 → nbit d.dieSet q = true → s1.hasUnit (pgDIE q) = true) → desc % 64 = 0 → s1.layerBad v.die.val d = false →
    stepKeyBytes d st ≤ d.bufBytes → st.job = none → (∀ m ∈ st.members, bits m.opt 16 8 = 0) →
    s2 = st.members.foldl (fun t m => t.walkKv v.die.val k.step d.layer m) s1 → (∀ x, s2.step1 k.step = some x → x.status = 0) →
    exec (.layerStart v desc rows 0 0 false) s = .next (rows.foldl (fun t r => t.layerRow v.die.val d st r) s2)) ∧
  (∀ (n : Fin 4) (s : State) (d : LayerDesc) (st : Step) (r : AttRow) (m : Member), st.members[r.member]? = some m → r.parts = [] → d.emit = false →
    (s.layerRow n.val d st r).ctr (pgATT n.val) 0x05C = s.ctr (pgATT n.val) 0x05C + 1) ∧
  (∀ (v : VatId) (desc : Nat) (rows : List AttRow) (skimmed sumBad : Nat) (s : State) (k : Kernel) (st : Step), s.kern (vatPg v) = some k →
    s.step1 k.step = some st → st.started = true → st.status = 0 →
    ∃ t x, exec (.layerStart v desc rows skimmed sumBad true) s = .next t ∧ t.step1 k.step = some x ∧ x.detections = st.detections + 1 ∧
      x.draining = decide (st.detections = 0) ∧ (st.detections ≠ 0 → x.status = stFAULT))) ∧
  ((∀ (rq : Fin 8192) (s : State), (s.rq rq.val).state = rqDECODE → (s.rq rq.val).draftClk = none → (s.rq rq.val).draftDone = false →
    (s.rq rq.val).step = none → bits (s.rq rq.val).attOpt 2 2 = 2 →
    ∃ t, exec (.lkpDraftStart rq) s = .next t ∧ t.rq rq.val = { s.rq rq.val with draftClk := some s.now, draft := [] } ∧
      (∀ i, i ≠ rq.val → t.rq i = s.rq i) ∧ t = { s with rqt := t.rqt }) ∧
  (∀ (rq : Fin 8192) (s : State) (clk : Nat) (h : Head), (s.rq rq.val).draftClk = some clk → ((s.rq rq.val).head.bind s.head) = some h →
    ∃ t, exec (.lkpDraftDone rq) s = .next t ∧ t = { s with rqt := t.rqt, ctrs := t.ctrs } ∧ (∀ i, i ≠ rq.val → t.rq i = s.rq i) ∧
      (∀ cs, cs = draftCands h.log (s.rd (pgATT (s.rqDie (s.rq rq.val))) F.ATT_LKP_WINDOW) (max 1 (min 16 (bits (s.rq rq.val).attOpt 8 5)))
          (bits (s.rq rq.val).attOpt 13 2 + 1) → t.rq rq.val = { s.rq rq.val with draftClk := none, draftDone := true, draft := cs })) ∧
  (∀ (src : Fin 4) (set step va : Nat) (data : List Byte) (s : State) (st : Step), s.step1 step = some st → nbit set src.val = true →
    nextDie set src.val ≠ src.val → st.started = true → data ≠ [] → va % 64 + data.length ≤ 64 → s.hasUnit (pgDIE (nextDie set src.val)) = true →
    s.hasUnit (pgDIE src.val) = true →
    (∀ pa x key, s.xlate st.ctx va true false (max 1 data.length) = .ok pa → s.frame (pa / 4096) = some x →
      s.keyIn (slotOfOwner x.otype x.owner) = some key → nget s.lp.bad (pa / 64) = 0 →
      ∃ t, exec (.dieRingTransfer src set step va false data false) s = .next t ∧
        (∀ i, i < data.length → bget t.lp.mem (pa + i) = data.getD i 0) ∧ (∀ a, a / 64 ≠ pa / 64 → bget t.lp.mem a = bget s.lp.mem a) ∧
        t.steps = s.steps ∧ t.regs = s.regs) ∧
    (∃ t, exec (.dieRingTransfer src set step va false data true) s = .next t ∧ Raised t (pgATT (nextDie set src.val)) 2 ∧ SameBytes s t ∧
      (st.status = 0 → ∃ x, t.step1 step = some x ∧ x.status = stFAULT)) ∧
    (∀ pa x key, va % 64 = 0 → data.length = 64 → s.xlate st.ctx va false false = .ok pa → s.xlate st.ctx va true false 64 = .ok pa →
      s.frame (pa / 4096) = some x → s.keyIn (slotOfOwner x.otype x.owner) = some key → nget s.lp.bad (pa / 64) = 0 →
      ∃ t, exec (.dieRingTransfer src set step va true data false) s = .next t ∧
        (∀ i, i < 64 → bget t.lp.mem (pa + i) = BitVec.ofNat 8 ((addF32Bytes (s.lineText (pa / 64) key) (data.map fun b => b.toNat)).getD i 0)) ∧
        (∀ a, a / 64 ≠ pa / 64 → bget t.lp.mem a = bget s.lp.mem a))))

/-- R261, R263, R264: PL_PUBLISH copies the staging list of an edited head into a generation slot without readers, which becomes the current one; with
none free it waits and tells so. FREE_QUEUE_RELEASE lets go of what no older reader needs. R268: an access through a KV window is a line access of its
context where a head's window holds the granule; a host access of a head without H is refused with XLT_FAULT. R272: PL_TRUNCATE waits for the
request's next step boundary; there the list is cut to the length, published, and the command completes. The readings of the spec that this rests on
are the model's own, assumption log 35, 49. -/
def Obligations.ListHeads : Prop :=
  ((∀ (hd : Nat) (s : State) (h : Head), s.head hd = some h → h.edited = true → h.geom.share = false → h.slots.length = 4 →
    (∀ e, s.rqOfHead hd = some e → e.2.step = none) →
    (∀ i, ((List.range 4).find? fun i => i != h.cur && h.readers.getD i 0 == 0) = some i →
      ∃ t h', exec (.plPublish hd) s = .next t ∧ t.head hd = some h' ∧ h'.gen = h.gen + 1 ∧ h'.cur = i ∧ h'.published = h.staging ∧
        h'.length = h.stagedLen ∧ h'.edited = false ∧ h'.staging = h.staging ∧ (∀ j, j ≠ i → h'.slots.getD j [] = h.slots.getD j []) ∧
        ∀ o, o ≠ hd → t.head o = s.head o) ∧
    (((List.range 4).find? fun i => i != h.cur && h.readers.getD i 0 == 0) = none → h.waiting = false →
      ∃ t, exec (.plPublish hd) s = .next t ∧ t.head hd = some { h with waiting := true } ∧ (∀ n ∈ h.geom.dies, Raised t (pgKVW n) 0) ∧
        SameBytes s t)) ∧
  (∀ (hd : Nat) (s : State) (h : Head), s.head hd = some h →
    ∃ t, exec (.freeQueueRelease hd) s = .next t ∧ t.head hd = some { h with freed := h.freed.filter fun x => !h.unread x.gen } ∧ SameBytes s t)) ∧
  (∀ (die : Fin 4) (c : Fin 1024) (va : Nat) (step : Option Nat) (o : LineOut) (s : State), s.hasUnit (pgDIE die.val) = true →
    s.isLocalVa va = true → (s.granule c.val va).isSome = true →
    (∃ t, exec (.kvWindowAccess die c va none false step o) s = .next t ∧ exec (.lpddrRead die c va step o) s = .next t) ∧
    (∀ d, d ≠ [] → va % 64 + d.length ≤ 64 →
      ∃ t, exec (.kvWindowAccess die c va (some d) false step o) s = .next t ∧ exec (.lpddrWrite die c va d false step o) s = .next t) ∧
    (∀ hd h, s.granule c.val va = some hd → s.head hd = some h → h.geom.h = false → va / 2 ^ 48 = 0 →
      ∃ t, exec (.kvWindowAccess die c va none true step o) s = .next t ∧ t.lp.lineHow = 3 ∧ t.lp.line = List.replicate 64 0 ∧
        Raised t (pgCEV c.val) 10 ∧ SameBytes s t)) ∧
  ((∀ (tag : Nat) (rq : Fin 8192) (len : Nat) (s : State) (h : Head), Performs s 0 0x24 → ((s.rq rq.val).head.bind s.head) = some h →
    len < h.stagedLen → rqTerminal (s.rq rq.val).state = false →
    ∃ t, exec (.plTruncate 0 tag rq len) s = .next t ∧ t.rq rq.val = { s.rq rq.val with trunc := some len } ∧ t.host.resps = s.host.resps ∧
      t.host.waits = s.host.waits ++ [{ fn := 0, tag := tag, on := .drain 3 rq.val 0, result := 0 }] ∧ t.kv = s.kv ∧ t.regs = s.regs) ∧
  (∀ (rq : Fin 8192) (s : State) (len hd i : Nat) (h : Head), (s.rq rq.val).trunc = some len → (s.rq rq.val).head = some hd → s.head hd = some h →
    (s.rq rq.val).step = none → len % 64 = 0 → h.geom.share = false → h.slots.length = 4 →
    ((List.range 4).find? fun i => i != h.cur && h.readers.getD i 0 == 0) = some i →
    ∃ t h', exec (.truncateApply rq) s = .next t ∧ (t.rq rq.val).trunc = none ∧ t.head hd = some h' ∧ h'.length = len ∧ h'.gen = h.gen + 1 ∧
      (∀ k e, mget h'.published k = some e → keyPos k < len / 64) ∧
      (∀ k, keyPos k < len / 64 → mget h'.published k = mget h.staging k) ∧
      ∀ fn tag, s.host.waits = [{ fn := fn, tag := tag, on := .drain 3 rq.val 0, result := 0 }] → t.host.waits = [] ∧ Answered s t fn tag 0 0))

/-- R274: the recompute chunk of a private page takes a fresh page with the page's tokens and queues the old one to be freed. R284–R287: a pool below
its low watermark starts to spill; a page written to its slot becomes CELLAR; a held request's cellar pages are fetched in position order; a fetched
page whose tag matches has its bytes and is RESIDENT again, one that fails twice waits to be rebuilt. The readings of the spec that this rests on are
the model's own, assumption log 6, 29. -/
def Obligations.PageMoves : Prop :=
  (∀ (rq : Fin 8192) (o : LineOut) (s s1 s3 : State) (j l p : Nat) (rest : List (Nat × Nat × Nat)) (hd : Nat) (h : Head) (id : Nat) (st : Step)
    (e : PEnt) (log : List Nat) (loc die : Nat), (s.rq rq.val).rebuilds = (j, l, p) :: rest → (s.rq rq.val).head = some hd → s.head hd = some h →
    (s.rq rq.val).step = some id → s.step1 id = some st → (st.members.any fun m => m.idx == rq.val && m.rebuild == some (j, l, p)) = true →
    mget h.staging (pkey j l p) = some e → e.state = 1 → e.shared = false → e.fill < 64 → die = h.geom.dies.getD j 0 →
    s.hubRead h.ctx ((h.geom.logVa + 256 * p) / 64 * 64) (ceilDiv (4 * e.fill) 64) o (some id) = (s1, some log) →
    (s1.modRq rq.val fun y => { y with rebuilds := rest, recomputed := true, cntRecomp := min 255 (y.cntRecomp + 1) }).takePage (h.geom.poolOf j) =
      (s3, some loc) →
    ∃ (u : State) (h' : Head), exec (.rebuildChunk rq o) s = .next (u.publish hd) ∧ u.head hd = some h' ∧
      mget h'.staging (pkey j l p) = some { state := 1, fill := e.fill, loc := loc, pfx := e.pfx } ∧
      ({ gen := h.gen + 1, pool := h.geom.poolOf j, ent := e } : Freed) ∈ h'.freed ∧ h'.edited = true ∧ (u.rq rq.val).rebuilds = rest ∧
      Raised u (pgKVW die) 3) ∧
  ((∀ (pool : Nat) (s : State) (x : KvPool) (hd k slot : Nat) (rest : List (Nat × Nat)), s.pool pool = some x → x.spilling = false → x.pinned = none →
    x.free.length < x.low → s.kv.fetches = [] → s.linkUp = true → s.freeSoon pool x < x.high → s.spillable pool = (hd, k) :: rest →
    s.cellarSlot pool (x.units * 4096) = some slot →
    ∃ t r y, exec (.spillStart pool) s = .next t ∧ t.kv.spills = s.kv.spills ++ [{ head := hd, key := k, record := r, pool := pool }] ∧
      mget s.kv.recs r = none ∧ mget t.kv.recs r = some y ∧ y.slot = slot ∧ y.head = hd ∧ y.key = k ∧ t.kv.heads = s.kv.heads ∧ SameBytes s t) ∧
  (∀ (s : State) (m : Move) (rest : List Move) (h : Head) (r : CellarRec) (e : PEnt), s.kv.spills = m :: rest → s.head m.head = some h →
    mget s.kv.recs m.record = some r → mget h.staging m.key = some e →
    ∃ t h', exec .spillPageDone s = .next t ∧ t.head m.head = some h' ∧ mget h'.staging m.key = some { e with state := 3, loc := m.record } ∧
      (∀ k, k ≠ m.key → mget h'.staging k = mget h.staging k) ∧ (∀ a, a < r.slot ∨ r.slot + r.bytes ≤ a → bget t.host.mem a = bget s.host.mem a)) ∧
  (∀ (rq : Fin 8192) (s : State) (hd : Nat) (h : Head), (s.rq rq.val).head = some hd → s.head hd = some h → (s.rq rq.val).state = rqHELD →
    s.inControl = true → s.linkUp = true → (∀ m ∈ s.kv.fetches, m.head ≠ hd) → (∀ m ∈ s.kv.spills, m.head ≠ hd) →
    ∃ t, exec (.fetchStart rq) s = .next t ∧ SameBytes s t ∧
      t.kv.fetches = s.kv.fetches ++ (((h.staging.filter fun e => e.2.state == 3).mergeSort fun a b => decide (keyPos a.1 ≤ keyPos b.1)).map
        fun e => { head := hd, key := e.1, record := e.2.loc, pool := h.geom.poolOf (keySlot e.1) })) ∧
  (∀ (s : State) (m : Move) (rest : List Move) (h : Head) (r : CellarRec) (e : PEnt), s.kv.fetches = m :: rest → s.head m.head = some h →
    mget s.kv.recs m.record = some r → mget h.staging m.key = some e → e.state = 4 →
    (∀ ok2, r.data.length = h.geom.units * 4096 →
      ∃ t h', exec (.fetchPageDone true ok2) s = .next t ∧ t.kv.fetches = rest ∧ t.head m.head = some h' ∧
        mget h'.staging m.key = some { e with state := 1 } ∧
        ∀ i, i < r.data.length → bget t.lp.mem ((h.geom.dies.getD (keySlot m.key) 0 * 2 ^ 25 + e.loc) * 4096 + i) = r.data.getD i 0) ∧
    (∀ i x, s.rqOfHead m.head = some (i, x) →
      ∃ t, exec (.fetchPageDone false false) s = .next t ∧ t.kv.fetches = rest ∧ Raised t (pgCEV h.ctx) 19 ∧
        (t.rq i).rebuilds = (s.rq i).rebuilds ++ [(keySlot m.key, keyLayer m.key, keyPos m.key)])))

/-- R256, R288: the pool commands. R258, R269, R288: PL_CREATE makes an empty list head over the template's geometry for a request without one;
PL_DESTROY lets a finished request's head go. R276, R278, R281: DOMAIN_CREATE gives the lowest free domain a region of the prefix table and fresh
keys; DOMAIN_END destroys them, and its members leave. R498: CELLAR_ADD adds a host range of whole 2 MiB blocks that overlaps none; CELLAR_REMOVE
takes an empty one away. The readings of the spec that this rests on are the model's own, assumption log 49, 81. -/
def Obligations.PoolsHeadsAndCellar : Prop :=
  ((∀ (fn : Fin 32) (tag pool die : Nat) (isDomain : Bool) (owner bytes low high : Nat) (s : State), Performs s fn.val 0x20 → s.dieThere die = true →
    s.ownerOpen isDomain owner = true → 0 < bytes → bytes % 4096 = 0 → bytes ≤ 262144 → low ≤ high → pool < 0xFF00 → s.pool pool = none →
    ∃ t, exec (.kvpoolCreate fn tag pool die isDomain owner bytes low high) s = .next t ∧ Answered s t fn.val tag 0 0 ∧
      t.pool pool = some { die := die, isDomain := isDomain, owner := owner, units := bytes / 4096, low := low, high := high } ∧
      (∀ p, p ≠ pool → t.pool p = s.pool p) ∧ SameBytes s t) ∧
  (∀ (fn : Fin 32) (tag pool : Nat) (r : FrameRun) (s : State) (x : KvPool), Performs s fn.val 0x21 → s.pool pool = some x → s.dieThere x.die = true →
    r.die = x.die → x.pinned = none → r.count ≠ 0 → s.inPools r = false →
    (∀ f, f ∈ runFrames r → ∃ y, s.frame f = some y ∧ y.otype = boolNat x.isDomain ∧ y.owner = x.owner ∧ y.clearing = false ∧ y.kind = 1) →
    (r.count % x.units = 0 → ∃ t, exec (.kvpoolAdd fn tag pool false r) s = .next t ∧ Answered s t fn.val tag 0 0 ∧
      t.pool pool = some { x with free := x.free ++ (List.range (r.count / x.units)).map fun i => r.first + i * x.units,
                                  total := x.total + r.count / x.units } ∧ SameBytes s t) ∧
    (∃ t, exec (.kvpoolAdd fn tag pool true r) s = .next t ∧ Answered s t fn.val tag 0 0 ∧ t.pool pool = some { x with sums := x.sums + r.count } ∧
      SameBytes s t)) ∧
  (∀ (fn : Fin 32) (tag pool : Nat) (r : FrameRun) (s : State) (x : KvPool), Performs s fn.val 0x22 → s.pool pool = some x → x.pinned = none →
    r.die = x.die → x.units ≠ 0 → r.count % x.units = 0 → (∀ i, i < r.count / x.units → (r.first + i * x.units) ∈ x.free) →
    ∃ t y, exec (.kvpoolRemove fn tag pool r) s = .next t ∧ Answered s t fn.val tag 0 0 ∧ t.pool pool = some y ∧
      (∀ i, i < r.count / x.units → (r.first + i * x.units) ∉ y.free) ∧ y.total = x.total - r.count / x.units ∧
      (∀ l ∈ x.free, (∀ i, i < r.count / x.units → l ≠ r.first + i * x.units) → l ∈ y.free) ∧ SameBytes s t)) ∧
  ((∀ (fn : Fin 32) (tag : Nat) (rq : Fin 8192) (headVa : Nat) (s t1 : State) (x : Rq) (bs : List Nat), Performs s fn.val 0x23 →
    mget s.rqt.entries rq.val = some x → (untake s fn.val tag 0x23).hubRead x.ctx headVa 4 = (t1, some bs) → t1.headRefused x.ctx (geomOf bs) = none →
    x.head = none → mget t1.rqt.entries rq.val = some x →
    ∃ t h, exec (.plCreate fn tag rq headVa) s = .next t ∧ t.host.resps = t1.host.resps ++ [{ fn := fn.val, tag := tag, status := 0, result := 0 }] ∧
      (t.rq rq.val).head = some t1.kv.headNext ∧ t.head t1.kv.headNext = some h ∧ h.ctx = x.ctx ∧ h.geom = geomOf bs ∧ h.gen = 0 ∧ h.staging = [] ∧
      h.stagedLen = 0 ∧ h.log = x.prompt ∧ t.kv.headNext = t1.kv.headNext + 1) ∧
  (∀ (tag : Nat) (rq : Fin 8192) (s : State) (hd : Nat), Performs s 0 0x25 → rqTerminal (s.rq rq.val).state = true → (s.rq rq.val).head = some hd →
    (s.head hd).isSome = true →
    ∃ t, exec (.plDestroy 0 tag rq) s = .next t ∧ Answered s t 0 tag 0 0 ∧ t.head hd = none ∧ (t.rq rq.val).head = none ∧
      (∀ o, o ≠ hd → t.head o = s.head o) ∧ SameBytes s t)) ∧
  ((∀ (fn : Fin 32) (tag size : Nat) (s : State) (d b : Nat), Performs s fn.val 0x05 → s.kv.copyTo = none → size ≠ 0 → size % 4 = 0 →
    ((List.range 256).find? fun d => (mget s.kv.domains d).isNone) = some d → s.regionAt size = some b →
    ∃ t k, exec (.domainCreate fn tag size) s = .next t ∧ Answered s t fn.val tag 0 d ∧
      mget t.kv.domains d = some { base := b, size := size, hashKey := k } ∧ (∀ j, j ≠ d → mget t.kv.domains j = mget s.kv.domains j) ∧
      (mget t.lp.keys (1024 + d)).isSome = true ∧ SameBytes s t) ∧
  (∀ (fn : Fin 32) (tag dom : Nat) (s : State) (x : Dom), Performs s fn.val 0x06 → s.kv.copyTo = none → mget s.kv.domains dom = some x →
    x.ended = false → s.domainBusy dom = false → (∀ e ∈ s.kv.pfx, e.2.dom ≠ dom) →
    ∃ t, exec (.domainEnd fn tag dom) s = .next t ∧ Answered s t fn.val tag 0 0 ∧ mget t.kv.domains dom = none ∧
      mget t.lp.keys (1024 + dom) = none ∧ (∀ c, c < 1024 → s.domainOf c = some dom → t.domainOf c = none) ∧ SameBytes s t)) ∧
  (∀ (fn : Fin 32) (tag addr len : Nat) (s : State),
    (Performs s fn.val 0x26 → addr % 2 ^ 21 = 0 → len % 2 ^ 21 = 0 → len ≠ 0 → addr + len ≤ 2 ^ 64 → s.kv.ranges.length < 64 →
      (∀ r ∈ s.kv.ranges, r.1 + r.2 ≤ addr ∨ addr + len ≤ r.1) →
      ∃ t, exec (.cellarAdd fn tag addr len) s = .next t ∧ Answered s t fn.val tag 0 0 ∧ t.kv.ranges = s.kv.ranges ++ [(addr, len)] ∧
        t.rd pgHOST F.HOST_CELLAR_RANGES = s.kv.ranges.length + 1 ∧ SameBytes s t) ∧
    (Performs s fn.val 0x27 → (addr, len) ∈ s.kv.ranges → (∀ e ∈ s.kv.recs, e.2.slot < addr ∨ addr + len ≤ e.2.slot) →
      ∃ t, exec (.cellarRemove fn tag addr len) s = .next t ∧ Answered s t fn.val tag 0 0 ∧ t.kv.ranges = s.kv.ranges.erase (addr, len) ∧
        SameBytes s t))

/-! ## The request table, the Mill and the codec (R290–R378) -/

/-- R306, R307, R309, R311: an admission whose template cannot be read is refused with DENIED and a hint of all ones; one whose tests pass and whose
page room is there enters ADMITTED, its prompt counted done as far as the prefix tree matched it. R287: a held request whose pages are resident and
whose room is there returns to the state before HELD. R294, R295, R297, R319: a cancel drains a request with a step in progress and ends one without;
RQT.CANCEL does the same from the PF page and RQT.LATCH_IDX copies an entry; RQ_RELEASE frees a finished entry. R310, R311: RES_CREATE takes the
lowest free number for a reservation that no test refuses and marks its vats; RES_END ends one, at once where no request of it is in progress.
MODEL_COST keeps a record for a model that a template named. R112, R314: a floor out of spares asks for logical vat 7, waits while a reservation holds
it, and at a boundary takes it as the spare. The readings of the spec that this rests on are the model's own, assumption log 79, 81, 115. -/
def Obligations.RequestLife : Prop :=
  ((∀ (rq : Fin 8192) (s s0 : State) (x : Rq), s.inControl = true → x = s.rq rq.val → x.state = rqFREE → x.intake = true → x.refused = false →
    s.hubRead x.ctx (s.fieldVa x.headVa 12) 4 = (s0, none) → mget s0.rqt.entries rq.val = some x →
    ∃ t c, exec (.admission rq) s = .next t ∧ t.rqt.outQ = s0.rqt.outQ ++ [c] ∧ c.status = stDENIED ∧ c.hint = 0xFFFFFFFF ∧ c.idx = some rq.val ∧
      (t.rq rq.val).refused = true ∧ (t.rq rq.val).ending = 6 ∧ t.regs = s0.regs) ∧
  (∀ (rq : Fin 8192) (s s0 s1 s2 s4 t1 : State) (x : Rq) (bs : List Nat) (hd : Nat) (h : Head), s.inControl = true → x = s.rq rq.val →
    x.state = rqFREE → x.intake = true → x.refused = false → x.cls ≠ 0 → s.hubRead x.ctx (s.fieldVa x.headVa 12) 4 = (s0, some bs) →
    s1 = s0.seeModel (geomOf bs).model → ((geomOf bs).dies.any fun n => !s.hasUnit (pgDIE n)) = false → (s1.keyIn x.ctx).isSome = true →
    s1.translates x.ctx (s.fieldVa x.paramVa 10) = true →
    ((x.head = some hd ∧ s2 = s1) ∨ (x.head = none ∧ s1.headRefused x.ctx (geomOf bs) = none ∧ s1.makeHead x.ctx (geomOf bs) x.prompt = (s2, hd))) →
    s4 = (s2.modRq rq.val fun y => { y with head := some hd }).attach hd ((x.promptLen - 1) / 64) → s4.head hd = some h →
    (s4.rq rq.val).cls ≠ 0 → (s4.rq rq.val).dlValid = false →
    s4.reserve rq.val (ceilDiv ((s4.rq rq.val).promptLen + s4.roomFor (s4.rq rq.val)) 64 - h.chain.length) = some t1 →
    ∃ t, exec (.admission rq) s = .next t ∧ (t.rq rq.val).state = rqADMITTED ∧ (t.rq rq.val).intake = false ∧ (t.rq rq.val).res = false ∧
      (t.rq rq.val).promptDone = 64 * h.chain.length ∧ t.ctr pgRQT 0x04C = t1.ctr pgRQT 0x04C + 1 ∧ t.host = t1.host) ∧
  (∀ (rq : Fin 8192) (s : State) (hd : Nat) (h : Head), s.inControl = true → (s.rq rq.val).state = rqHELD → (s.rq rq.val).head = some hd →
    s.head hd = some h → h.edited = false → (∀ e ∈ h.staging, e.2.state = 1 ∨ e.2.state = 2) → (s.rq rq.val).rebuilds = [] →
    ceilDiv (h.stagedLen + s.roomFor (s.rq rq.val)) 64 - ceilDiv h.stagedLen 64 ≤ (s.rq rq.val).room →
    ∃ t, exec (.heldResume rq) s = .next t ∧ t = { s with regs := t.regs, rqt := t.rqt } ∧ (t.rq rq.val).state = (s.rq rq.val).before ∧
      ∀ i, i ≠ rq.val → t.rq i = s.rq i)) ∧
  ((∀ (fn : Fin 32) (tag : Nat) (rq : Fin 8192) (s : State), Performs s fn.val 0x33 →
    (fn.val = 0 ∨ s.boundTo fn.val (s.rq rq.val).ctx = true) →
    ((s.rq rq.val).state = rqPREFILL ∨ (s.rq rq.val).state = rqDECODE → (s.rq rq.val).step.isSome = true →
      ∃ t, exec (.rqCancel fn tag rq) s = .next t ∧ Answered s t fn.val tag 0 0 ∧
        t.rq rq.val = { s.rq rq.val with state := rqDRAINING, ending := 4 } ∧ (∀ i, i ≠ rq.val → t.rq i = s.rq i) ∧ SameBytes s t) ∧
    ((s.rq rq.val).state = rqADMITTED → (s.rq rq.val).auto = false → (s.rq rq.val).recomputed = false →
      ∃ t c, exec (.rqCancel fn tag rq) s = .next t ∧ Answered s t fn.val tag 0 0 ∧ (t.rq rq.val).state = rqCANCELLED ∧ (t.rq rq.val).ending = 4 ∧
        t.rqt.outQ = s.rqt.outQ ++ [c] ∧ c.idx = some rq.val ∧ c.status = stCANCELLED ∧ (∀ i, i ≠ rq.val → t.rq i = s.rq i) ∧ SameBytes s t) ∧
    (rqTerminal (s.rq rq.val).state = true →
      ∃ t, exec (.rqCancel fn tag rq) s = .next t ∧ Answered s t fn.val tag 0 0 ∧ t.rqt = s.rqt ∧ t.ctr pgRQT 0x068 = s.ctr pgRQT 0x068 + 1)) ∧
  (∀ (fn : Fin 32) (v : Word) (s : State), s.mayWriteBlock pgRQT fn.val = true →
    (nbit v.toNat 31 = false → ∃ t, exec (.rqtCancel fn v) s = .next t ∧ t = { s with regs := t.regs } ∧
      t.rd pgRQT F.RQT_CANCEL_IDX = bits v.toNat 0 13 ∧ RegsBut s t [fkey pgRQT F.RQT_CANCEL_IDX 0]) ∧
    (nbit v.toNat 31 = true → (s.rq (bits v.toNat 0 13)).state = rqPREFILL ∨ (s.rq (bits v.toNat 0 13)).state = rqDECODE →
      (s.rq (bits v.toNat 0 13)).step.isSome = true →
      ∃ t, exec (.rqtCancel fn v) s = .next t ∧ t = { s with regs := t.regs, rqt := t.rqt } ∧ t.rd pgRQT F.RQT_CANCEL_IDX = bits v.toNat 0 13 ∧
        t.rq (bits v.toNat 0 13) = { s.rq (bits v.toNat 0 13) with state := rqDRAINING, ending := 4 }) ∧
    (nbit v.toNat 31 = true →
      ∃ t, exec (.rqtLatch fn v) s = .next t ∧ t = { s with regs := t.regs } ∧ t.rd pgRQT F.RQT_LATCH_IDX_DONE = 1 ∧
        t.rd pgRQT F.RQT_LATCH_IDX_IDX = bits v.toNat 0 13 ∧
        ∀ w, w < 16 → t.rdi pgRQT F.RQT_LATCH w = s.rqWord (s.rq (bits v.toNat 0 13)) w % 2 ^ 32)) ∧
  (∀ (fn : Fin 32) (tag : Nat) (rq : Fin 8192) (s : State), Performs s fn.val 0x34 → s.ownsRq fn.val rq.val = true →
    (rqTerminal (s.rq rq.val).state = true →
      ∃ t, exec (.rqRelease fn tag rq) s = .next t ∧ Answered s t fn.val tag 0 0 ∧ mget t.rqt.entries rq.val = none ∧
        (∀ i, i ≠ rq.val → t.rq i = s.rq i) ∧ SameBytes s t) ∧
    (rqTerminal (s.rq rq.val).state = false →
      ∃ t, exec (.rqRelease fn tag rq) s = .next t ∧ Answered s t fn.val tag stFAULT 0 ∧ t.rqt = s.rqt ∧ t.kv = s.kv ∧ SameBytes s t))) ∧
  ((∀ (fn : Fin 32) (tag : Nat) (ctx : Fin 1024) (start g : Nat) (vats : List (Nat × Nat × Nat)) (banks : List (Nat × Nat × Nat × Nat))
      (segs : List (Nat × Nat × Nat)) (entries positions chunk model : Nat) (s : State) (r : Resv) (i : Nat), Performs s fn.val 0x30 →
    r = { ctx := ctx.val, start := start, g := g, vats := vats, banks := banks, segs := segs, entries := entries, positions := positions,
          chunk := chunk, bstep := g * s.slotClk } → s.resRefused r (s.costOf model 0) = none →
    ((List.range 16).find? fun k => (mget s.resv k).isNone) = some i →
    ∃ t, exec (.resCreate fn tag ctx start g vats banks segs entries positions chunk model) s = .next t ∧ Answered s t fn.val tag 0 0 ∧
      mget t.resv i = some r ∧ (∀ j, j ≠ i → mget t.resv j = mget s.resv j) ∧ t.ctxField F.CTXS_ENTRY_C0_RES ctx.val = 1 ∧
      (∀ v ∈ vats, ∀ pg, s.vatOf (pgFLOOR v.1 v.2.1) v.2.2 = some pg → t.rd pg F.VAT_C0_RES = 1) ∧ SameBytes s t) ∧
  (∀ (fn : Fin 32) (tag : Nat) (ctx : Fin 1024) (s : State) (i : Nat) (r : Resv), Performs s fn.val 0x31 → s.resvOf ctx.val = some (i, r) →
    (∀ q ∈ s.resv, q.2.ending = false) →
    ((∃ e ∈ s.rqt.entries, e.2.res = true ∧ e.2.ctx = r.ctx ∧ rqTerminal e.2.state = false) →
      ∃ t, exec (.resEnd fn tag ctx) s = .next t ∧ Answered s t fn.val tag 0 0 ∧ mget t.resv i = some { r with ending := true }) ∧
    ((∀ e ∈ s.rqt.entries, e.2.res = true → e.2.ctx = r.ctx → rqTerminal e.2.state = true) →
      ∃ t, exec (.resEnd fn tag ctx) s = .next t ∧ Answered s t fn.val tag 0 0 ∧ mget t.resv i = none ∧
        t.ctxField F.CTXS_ENTRY_C0_RES r.ctx = 0)) ∧
  (∀ (fn : Fin 32) (tag model : Nat) (cls : Fin 4) (fix tok key : Word) (s : State), Performs s fn.val 0x32 → model ∈ s.rqt.models →
    ∃ t, exec (.modelCost fn tag model cls fix tok key) s = .next t ∧ Answered s t fn.val tag 0 0 ∧
      t.costOf model cls.val = some { fix := fix.toNat, tok := tok.toNat, key := key.toNat } ∧
      (∀ k, k ≠ model * 4 + cls.val → mget t.rqt.costs k = mget s.rqt.costs k) ∧ t.regs = s.regs ∧ SameBytes s t) ∧
  (∀ (f : FloorId) (s : State), s.hasUnit (pgDIE f.die.val) = true → s.hasUnit (floorPgOf f) = true → s.rd (floorPgOf f) F.FLOOR_SPARE = 0xF →
    s.on (floorPgOf f) F.FLOOR_CFG_KEEP_TEST = true → (s.vatOf (floorPgOf f) 7).isSome = true → nget s.rqt.releases (floorPgOf f) = 0 →
    s.inControl = true →
    ∃ t, exec (.vatReleaseReq f) s = .next t ∧ nget t.rqt.releases (floorPgOf f) = 1 ∧ t.vats = s.vats ∧ SameBytes s t ∧
      (s.vat7Held f.die.val f.floor.val = true → Raised t pgRQT 5) ∧ (s.vat7Held f.die.val f.floor.val = false → t.regs = s.regs)) ∧
  (∀ (f : FloorId) (s : State) (pg : Nat), s.vatOf (floorPgOf f) 7 = some pg → nget s.rqt.releases (floorPgOf f) = 2 →
    (s.vat pg).atBoundary = true → (s.vat pg).entries = [] →
    ∃ t, exec (.vatReleaseBanks f) s = .next t ∧ t.vatOf (floorPgOf f) 7 = none ∧ t.rd (floorPgOf f) F.FLOOR_SPARE = physOfVat pg ∧
      t.rd (floorPgOf f) F.FLOOR_IN_SVC = 7 ∧ nget t.rqt.releases (floorPgOf f) = 0))

/-- R333, R335, R337, R338: the Mill's commands. A list joins the queue of its class, 64 at most; a chain is kept for a stream, and let go; a cancel
ends the context's queued jobs. R336, R337, R343: a free pipe takes its next job, whose descriptor passes its check; a detection runs a tile again, a
second one ends the job with FAULT; a job of a lower class suspends the running one at the end of a tile; an ended job leaves, counted. The readings
of the spec that this rests on are the model's own, assumption log 6, 81. -/
def Obligations.MillWork : Prop :=
  ((∀ (fn : Fin 32) (tag : Nat) (list : MillList) (s : State), Performs s fn.val 0x40 → s.isRetired pgMILL = false → s.boundTo fn.val list.ctx = true →
    listOk list = true →
    ((s.mill.jobs.filter fun e => e.2.list.cls == list.cls && e.2.loc == .queued).length < 64 →
      ∃ t, exec (.millSubmit fn tag list) s = .next t ∧ Answered s t fn.val tag 0 0 ∧ mget t.mill.jobs s.mill.next = some { list := list } ∧
        t.mill.next = s.mill.next + 1 ∧ (∀ i, i ≠ s.mill.next → mget t.mill.jobs i = mget s.mill.jobs i) ∧ SameBytes s t) ∧
    (64 ≤ (s.mill.jobs.filter fun e => e.2.list.cls == list.cls && e.2.loc == .queued).length →
      ∃ t, exec (.millSubmit fn tag list) s = .next t ∧ Answered s t fn.val tag stFAULT 0 ∧ Raised t pgMILL 3 ∧ t.mill = s.mill)) ∧
  (∀ (fn : Fin 32) (tag stream : Nat) (list : MillList) (s : State) (x : Stream), Performs s fn.val 0x41 → s.codecUp = true →
    s.boundTo fn.val list.ctx = true → s.stream stream = some x → x.ctx = list.ctx → listOk list = true → s.mill.chains.length < 128 →
    ∃ t, exec (.millChain fn tag stream list) s = .next t ∧ Answered s t fn.val tag 0 0 ∧ mget t.mill.chains stream = some list ∧
      (∀ i, i ≠ stream → mget t.mill.chains i = mget s.mill.chains i) ∧ t.mill.jobs = s.mill.jobs ∧ SameBytes s t) ∧
  (∀ (fn : Fin 32) (tag stream : Nat) (s : State) (l : MillList), Performs s fn.val 0x42 → mget s.mill.chains stream = some l →
    s.boundTo fn.val l.ctx = true →
    ∃ t, exec (.millUnchain fn tag stream) s = .next t ∧ Answered s t fn.val tag 0 0 ∧ mget t.mill.chains stream = none ∧
      (∀ i j, mget s.mill.jobs i = some j → j.chain = some stream → j.started = false → mget t.mill.jobs i = none) ∧
      (∀ i j, mget s.mill.jobs i = some j → (∀ e ∈ s.mill.jobs, e.1 = i → e.2.chain ≠ some stream ∨ e.2.started = true) →
        mget t.mill.jobs i = some j)) ∧
  (∀ (fn : Fin 32) (tag : Nat) (ctx : Fin 1024) (s : State), Performs s fn.val 0x43 → s.boundTo fn.val ctx.val = true →
    ∃ t, exec (.millCancel fn tag ctx) s = .next t ∧ Answered s t fn.val tag 0 0 ∧
      (∀ i j, mget s.mill.jobs i = some j → j.list.ctx = ctx.val → j.loc = .queued → j.started = false → mget t.mill.jobs i = none) ∧
      (∀ i j, mget s.mill.jobs i = some j → (∀ e ∈ s.mill.jobs, e.1 = i → e.2.list.ctx ≠ ctx.val ∨ e.2.loc ≠ .queued ∨ e.2.started = true) →
        mget t.mill.jobs i = some j))) ∧
  ((∀ (pre : Bool) (s : State) (i : Nat) (j : MillJob), s.isRetired pgMILL = false → s.runningJob (boolNat pre) = none → s.millStopped = false →
    s.testing (.pipe (if pre then 1 else 0)) = false → s.nextJob (boolNat pre) = some (i, j) →
    (∀ (s2 s3 : State) (b : List Nat), j.loc = .queued →
      s2 = (if s.pipeCtx (boolNat pre) = some j.list.ctx ∨ s.pipeCtx (boolNat pre) = none then s else s.count pgMILL 0x064 1).setPipeCtx (boolNat pre)
        j.list.ctx → s2.hubRead j.list.ctx j.descVa 1 = (s3, some b) →
      (if j.kind = 0 then millLayerOk b else if j.kind = 1 then
        millPreOk b (if j.done = 0 ∨ !(j.list.descs.take j.done).any (fun x => x.kind == 1) then j.src else none) else millHeadOk b) = true →
      ∃ t, exec (.millJobStart pre) s = .next t ∧ mget t.mill.jobs i = some { j with loc := .running (boolNat pre), started := true, desc := b } ∧
        t.mill.chains = s3.mill.chains ∧ t.host = s3.host) ∧
    (j.loc = .suspended (boolNat pre) →
      ∃ t, exec (.millJobStart pre) s = .next t ∧ mget t.mill.jobs i = some { j with loc := .running (boolNat pre), started := true } ∧
        (∀ o, o ≠ i → mget t.mill.jobs o = mget s.mill.jobs o) ∧ SameBytes s t)) ∧
  (∀ (pre : Bool) (bad : Option Nat) (s : State) (i : Nat) (j : MillJob), s.runningJob (boolNat pre) = some (i, j) →
    (∀ (last : Bool) (det : Fin 3), det.val ≠ 0 →
      (j.tileDet = false → ∃ t, exec (.millTileEnd pre last det bad) s = .next t ∧ Raised t pgMILL 0 ∧
        mget t.mill.jobs i = some { j with tileDet := true, recomputed := true } ∧ t.ctr pgMILL 0x070 = s.ctr pgMILL 0x070 + 1 ∧ SameBytes s t) ∧
      (j.tileDet = true → ∃ t, exec (.millTileEnd pre last det bad) s = .next t ∧ Raised t pgMILL 0 ∧ Raised t pgMILL 1 ∧
        mget t.mill.jobs i = some { j with loc := .ended stFAULT } ∧ SameBytes s t)) ∧
    (∀ o w, s.millStopped = false → s.nextJob (boolNat pre) = some (o, w) →
      ∃ t, exec (.millTileEnd pre false 0 bad) s = .next t ∧ SameBytes s t ∧
        (w.list.cls < j.list.cls → mget t.mill.jobs i = some { j with tileDet := false, loc := .suspended (boolNat pre) } ∧
          t.ctr pgMILL 0x060 = s.ctr pgMILL 0x060 + 1) ∧
        (j.list.cls ≤ w.list.cls → mget t.mill.jobs i = some { j with tileDet := false } ∧ t.ctrs = s.ctrs)) ∧
    (j.kind = 0 → (millLayerOf j.desc).act1.empty = true → j.done + 1 = j.list.descs.length →
      ∃ t, exec (.millTileEnd pre true 0 bad) s = .next t ∧ SameBytes s t ∧
        mget t.mill.jobs i = some { j with done := j.done + 1, results := j.results ++ [256], desc := [], tileDet := false,
                                           loc := .ended (if j.recomputed then stRECOMPUTED else stCOMPLETE) })) ∧
  (∀ (job : Nat) (s : State) (j : MillJob) (st : Nat), mget s.mill.jobs job = some j → j.loc = .ended st →
    ∃ t, exec (.millJobEnd job) s = .next t ∧ mget t.mill.jobs job = none ∧ (∀ o, o ≠ job → mget t.mill.jobs o = mget s.mill.jobs o) ∧
      t.ctr pgMILL 0x04C = s.ctr pgMILL 0x04C + 1 ∧ (j.list.cls = 0 → t.ctr pgMILL 0x05C = s.ctr pgMILL 0x05C + 1)))

/-- R376: CODEC_KEYREQ completes at once, with the request recorded in the encoder's stream and nothing else of the streams changed; it does not wait
for the key picture, whatever picture is in progress. -/
def Obligations.KeyRequests : Prop :=
  ∀ (fn : Fin 32) (tag n : Nat) (s : State) (x : Stream), s.stream n = some x → pagePresent s.variant (pgCODEC 0) = true →
    s.boundTo fn.val x.ctx = true → Performs s fn.val 0x4B → x.faulted = false → x.closing = false → x.enc = true →
    ∃ t, exec (.codecKeyreq fn tag n) s = .next t ∧ Answered s t fn.val tag 0 0 ∧ t.host.waits = s.host.waits ∧
      t.stream n = some { x with keyReq := true } ∧ (∀ o, o ≠ n → t.stream o = s.stream o) ∧ SameBytes s t

/-- R350–R352, R362, R375, R376: the commands of codec streams. CODEC_OPEN takes the lowest free number with a descriptor that passes; a close and a
flush of a stream with a picture in progress wait for it; CODEC_KEYREQ and CODEC_RC_SET are kept for an encoder's next picture. The poll takes the
indexes; one that runs out of its ring makes the stream FAULTED. R349, R356, R368: an idle engine takes the next stream's picture into the lowest free
buffer; the first detection at its end has it run again; else the engine is idle and the picture gone. A stream that waits too long turns the overload
mode on, and quiet turns it off. The readings of the spec that this rests on are the model's own, assumption log 6, 31. -/
def Obligations.CodecWork : Prop :=
  ((∀ (fn : Fin 32) (tag : Nat) (ctx : Fin 1024) (desc : Nat) (s t1 : State) (n : Nat) (b : List Nat) (x : Stream), Performs s fn.val 0x48 →
    s.codecUp = true → s.boundTo fn.val ctx.val = true → ((List.range 128).find? fun n => (s.stream n).isNone) = some n → desc % 64 = 0 →
    (untake s fn.val tag 0x48).hubRead ctx.val desc 2 = (t1, some b) → sdOk b = true →
    x = { ctx := ctx.val, sd := b, ten := nbit (b.getD 0 0) 7 && decide (3 ≤ b.getD 0 0 % 8), pollClk := s.now } →
    t1.rangeMapped ctx.val x.poolVa (x.poolN * x.bufBytes) = true → t1.rangeMapped ctx.val x.ringVa (64 + 64 * x.subN + 36 * x.outN) = true →
    ∃ t y, exec (.codecOpen fn tag ctx desc) s = .next t ∧ t.host.resps = t1.host.resps ++ [{ fn := fn.val, tag := tag, status := 0, result := n }] ∧
      t.stream n = some y ∧ y.ctx = ctx.val ∧ y.sd = b ∧ y.ten = x.ten ∧ y.bufs = List.replicate x.poolN {} ∧ y.closing = false ∧
      y.faulted = false ∧ t.ctr pgSCHED 0x05C = t1.ctr pgSCHED 0x05C + 1) ∧
  (∀ (fn : Fin 32) (tag n : Nat) (s : State) (x : Stream), s.stream n = some x → pagePresent s.variant (pgCODEC 0) = true → s.boundTo fn.val x.ctx = true →
    (Performs s fn.val 0x49 → x.pic.isSome = true →
      ∃ t y, exec (.codecClose fn tag n) s = .next t ∧ t.stream n = some y ∧ y.closing = true ∧ y.pic = x.pic ∧ t.host.resps = s.host.resps ∧
        t.host.waits = s.host.waits ++ [{ fn := fn.val, tag := tag, on := .drain 4 n 0, result := 0 }] ∧ SameBytes s t) ∧
    (Performs s fn.val 0x49 → x.pic = none → x.subCons = x.subProd → x.recs = [] →
      ∃ t, exec (.codecClose fn tag n) s = .next t ∧ t.stream n = none ∧ mget t.mill.chains n = none ∧
        t.ctr pgSCHED 0x060 = s.ctr pgSCHED 0x060 + 1 ∧ (s.host.waits = [] → t.host.waits = [] ∧ Answered s t fn.val tag 0 0)) ∧
    (Performs s fn.val 0x4A → x.faulted = false → x.closing = false → x.pic.isSome = true →
      ∃ t y, exec (.codecFlush fn tag n) s = .next t ∧ t.stream n = some y ∧ y.flushTo = some x.subProd ∧ t.host.resps = s.host.resps ∧
        t.host.waits = s.host.waits ++ [{ fn := fn.val, tag := tag, on := .drain 5 n 0, result := 0 }] ∧ SameBytes s t) ∧
    (Performs s fn.val 0x4B → x.faulted = false → x.closing = false → x.enc = false →
      ∃ t, exec (.codecKeyreq fn tag n) s = .next t ∧ SameBytes s t ∧ Answered s t fn.val tag stFAULT 0 ∧ t.codec = s.codec) ∧
    (∀ (desc : Nat) (t1 : State) (b sd : List Nat), Performs s fn.val 0x4C → x.faulted = false → x.closing = false → x.enc = true → desc % 64 = 0 →
      (untake s fn.val tag 0x4C).hubRead x.ctx desc 2 = (t1, some b) → sd = x.sd.take 28 ++ ((b.drop 28).take 30) ++ x.sd.drop 58 → rcOk sd = true →
      ∃ t, exec (.codecRcSet fn tag n desc) s = .next t ∧ t.stream n = some { x with rc := some sd } ∧
        t.host.resps = t1.host.resps ++ [{ fn := fn.val, tag := tag, status := 0, result := 0 }])) ∧
  (∀ (n : Nat) (s s1 : State) (x : Stream) (b : List Nat), s.stream n = some x → x.pollClk + s.rd pgSCHED F.SCH_POLL_US * clkUs ≤ s.now →
    x.faulted = false → x.closing = false → (s.count pgSCHED 0x058 1).hubBytes x.ctx x.ringVa 24 = (s1, some b) →
    (idxAhead (le32At b 0) x.subCons ≤ x.subN → idxAhead x.subProd x.subCons ≤ idxAhead (le32At b 0) x.subCons →
      idxAhead x.outProd (le32At b 12) ≤ idxAhead x.outProd x.outCons → idxAhead (le32At b 16) x.relCons ≤ x.outN →
      idxAhead x.relProd x.relCons ≤ idxAhead (le32At b 16) x.relCons →
      ∃ t y, exec (.codecRingPoll n) s = .next t ∧ t.stream n = some y ∧ y.subProd = le32At b 0 ∧ y.outCons = le32At b 12 ∧
        y.relProd = le32At b 16 ∧ y.pollClk = s.now ∧ y.faulted = false) ∧
    (x.subN < idxAhead (le32At b 0) x.subCons →
      ∃ t y, exec (.codecRingPoll n) s = .next t ∧ t.stream n = some y ∧ y.faulted = true ∧ y.pollClk = s.now))) ∧
  ((∀ (eng : Fin 4) (syn : PicSyntax) (s s1 s2 : State) (n i : Nat) (x y x1 : Stream) (b : List Nat), s.hasUnit (pgCODEC eng.val) = true →
    s.on (pgCODEC eng.val) F.ENG_BUSY = false → s.codecStopped = false → s.testing (.codec eng) = false →
    (s.codec.streams.find? fun e => e.2.pic.any fun p => p.eng.isNone) = none → s.nextStream = some (n, y) → s1 = s.readIndexes n →
    s1.stream n = some x → x.wants = true → s1.takeEntry n x = (s2, x1, some b) →
    (x1.enc = true → x1.freeBuf = some i →
      ∃ t z p, exec (.pictureStart eng syn) s = .next t ∧ t.stream n = some z ∧ z.pic = some p ∧ p.eng = some eng.val ∧ p.buf = i ∧ p.entry = b ∧
        p.idx = x.subCons ∧ t.rd (pgCODEC eng.val) F.ENG_BUSY = 1) ∧
    (∀ s3 x2, x1.enc = false → s2.seqCheck n x1 syn.header = (s3, x2) → x2.seqCause = 0 → (syn.rasl && x2.skipRasl && !syn.key) = false →
      x2.freeBuf = some i →
      ∃ t z p, exec (.pictureStart eng syn) s = .next t ∧ t.stream n = some z ∧ z.pic = some p ∧ p.eng = some eng.val ∧ p.buf = i ∧ p.entry = b ∧
        p.key = syn.key ∧ p.idx = x.subCons ∧ t.rd (pgCODEC eng.val) F.ENG_BUSY = 1)) ∧
  (∀ (eng : Fin 4) (out : PicOut) (s : State) (n : Nat) (x : Stream) (p : CPic),
    (s.codec.streams.find? fun e => e.2.pic.any fun p => p.eng == some eng.val) = some (n, x) → x.pic = some p →
    (out.detect = true → p.dets = 0 →
      ∃ t, exec (.pictureDone eng out) s = .next t ∧ Raised t (pgCODEC eng.val) 0 ∧ Raised t (pgCODEC eng.val) 1 ∧
        t.stream n = some { x with pic := some { p with dets := 1, recomputed := true } } ∧ SameBytes s t) ∧
    (out.detect = false ∨ p.dets ≠ 0 →
      ∃ t, exec (.pictureDone eng out) s = .next t ∧ t.rd (pgCODEC eng.val) F.ENG_BUSY = 0 ∧ ∀ y, t.stream n = some y → y.pic = none)) ∧
  (∀ (s : State), s.on pgSCHED F.SCH_MODE = false →
    (∃ e ∈ s.codec.streams, ∃ c, e.2.readyClk = some c ∧ e.2.live = true ∧ c + s.rd pgSCHED F.SCH_OVL_ENTER_US * clkUs ≤ s.now) →
    ∃ t, exec .overloadEnter s = .next t ∧ t.rd pgSCHED F.SCH_MODE = 1 ∧ Raised t pgSCHED 0 ∧ t.ctr pgSCHED 0x04C = s.ctr pgSCHED 0x04C + 1 ∧
      t.codec = { s.codec with longClk := s.now } ∧ SameBytes s t) ∧
  (∀ (s : State), s.on pgSCHED F.SCH_MODE = true → (s.codec.streams.any fun e => s.longWait e.2) = false →
    s.codec.longClk + s.rd pgSCHED F.SCH_OVL_EXIT_MS * clkMs ≤ s.now →
    ∃ t, exec .overloadExit s = .next t ∧ t.rd pgSCHED F.SCH_MODE = 0 ∧ Raised t pgSCHED 1 ∧ SameBytes s t))

/-! ## The Cellarmaster pair, contexts, the Gauger (R379–R444) -/

/-- R382, R383, R387, R388, R456: a stage takes commands of the unit that is higher alone. A unit outvoted gives its claim up and goes to SYNC; a
missed heartbeat, a failed or late diagnostic pass and a hardware detector drop it for a cause that counts; a unit that reloads well is in SYNC, one
that does not is retired. R385, R386, R389, R392, R393: a valid copy counts for the standby and a bad one undoes its copies and its readiness; a slice
of its self-test starts where 200 µs are left before the mark; a takeover that no mark brought gives the standby the next claim; a yield is kept for
the mark. The readings of the spec that this rests on are the model's own, assumption log 6, 113. -/
def Obligations.CellarmasterPair : Prop :=
  (∀ (unit : Fin 2) (s : State),
    (∀ cmd, s.higher = some unit.val →
      ∃ t, exec (.stageCommand unit cmd) s = .next t ∧ (∀ gs, cmd = .plan gs → t = { s with gate := { s.gate with plan := gs, trimmed := [] } }) ∧
        ((∀ gs, cmd ≠ .plan gs) → t = s)) ∧
    (∀ cmd, s.higher ≠ some unit.val →
      ∃ t, exec (.stageCommand unit cmd) s = .next t ∧ t = { s with ctrs := t.ctrs } ∧
        t.ctr (pgCM unit.val) 0x078 = s.ctr (pgCM unit.val) 0x078 + 1) ∧
    (s.claim unit.val ≠ 0 → s.higher = some (1 - unit.val) → s.cmActivation = none →
      ∃ t, exec (.claimOutvote unit) s = .next t ∧ t.claim unit.val = 0 ∧ t.rd (pgCM unit.val) F.CM_DROP_CAUSE = 8 ∧ t.role unit.val = roleSync ∧
        Raised t (pgCM unit.val) 0 ∧ t.ctr (pgCM unit.val) 0x060 = s.ctr (pgCM unit.val) 0x060) ∧
    (s.claim unit.val ≠ 0 →
      ∃ t, exec (.cmHeartbeat unit) s = .next t ∧ t = { s with cm := t.cm } ∧
        t.cmUnit unit.val = { s.cmUnit unit.val with hbClk := s.now } ∧ t.cmUnit (1 - unit.val) = s.cmUnit (1 - unit.val)) ∧
    (s.claim unit.val ≠ 0 → (s.cmUnit unit.val).hbClk + s.rd (pgCM unit.val) F.CM_HB_US * clkUs ≤ s.now →
      ∃ t, exec (.hbMiss unit) s = .next t ∧ Dropped s t unit.val 4 ∧ t.ctr (pgCM unit.val) 0x06C = s.ctr (pgCM unit.val) 0x06C + 1) ∧
    (∀ ok sramOk, s.claim unit.val ≠ 0 → (s.cmUnit unit.val).diag = 1 →
      ∃ t, exec (.diagPass unit ok sramOk) s = .next t ∧ t.ctr (pgCM unit.val) 0x05C = s.ctr (pgCM unit.val) 0x05C + 1 ∧
        t.rd (pgCM unit.val) F.CM_HEALTH_DIAG_OK = boolNat (ok && sramOk) ∧ t.rd (pgCM unit.val) F.CM_HEALTH_SRAM_OK = boolNat sramOk ∧
        ((ok && sramOk) = true → (t.cmUnit unit.val).diag = 2 ∧ t.claim unit.val = s.claim unit.val) ∧
        ((ok && sramOk) = false → Dropped s t unit.val 1)) ∧
    (s.claim unit.val ≠ 0 → (s.cmUnit unit.val).diag = 3 →
      ∃ t, exec (.diagLate unit) s = .next t ∧ Dropped s t unit.val 3) ∧
    (∀ cause : Fin 3, s.claim unit.val ≠ 0 →
      ∃ t, exec (.cmHwDrop unit cause) s = .next t ∧ Dropped s t unit.val (5 + cause.val)) ∧
    (s.role unit.val = roleSelftest →
      (∃ t, exec (.cmReloadDone unit true) s = .next t ∧ t = { s with regs := t.regs } ∧ t.role unit.val = roleSync ∧
        t.rd (pgCM unit.val) F.CM_HEALTH_BIST_OK = 1 ∧ t.rd (pgCM unit.val) F.CM_HEALTH_CLK_OK = 1 ∧
        t.rd (pgCM unit.val) F.CM_HEALTH_GOOD_COPIES = 0) ∧
      (s.cmActivation = none →
        ∃ t, exec (.cmReloadDone unit false) s = .next t ∧ t.role unit.val = roleRetired ∧ t.isRetired (pgCM unit.val) = true ∧
          Raised t (pgCM unit.val) 8))) ∧
  ((∀ (valid : Bool) (s : State) (pidx act : Nat), s.cm.copy = some (pidx, false) → s.higher = some act → act < 2 →
    (s.role (1 - act) = roleSync ∨ s.role (1 - act) = roleReady) →
    ∃ t, exec (.copyReceive valid true) s = .next t ∧ t.cm.copy = none ∧ t.claim act = s.claim act ∧
      t.ctr (pgCM (1 - act)) 0x05C = s.ctr (pgCM (1 - act)) 0x05C + 1 ∧ t.rd (pgCM (1 - act)) F.CM_HEALTH_DIAG_OK = 1 ∧
      (valid = true → t.ctr (pgCM (1 - act)) 0x054 = s.ctr (pgCM (1 - act)) 0x054 + 1 ∧ t.rd (pgCM (1 - act)) F.CM_COPY_PIDX = pidx % 2 ^ 24 ∧
        t.rd (pgCM (1 - act)) F.CM_HEALTH_GOOD_COPIES = min 255 (s.rd (pgCM (1 - act)) F.CM_HEALTH_GOOD_COPIES + 1) ∧
        (s.role (1 - act) = roleSync → 1 ≤ s.rd (pgCM (1 - act)) F.CM_HEALTH_GOOD_COPIES →
          s.on (pgCM (1 - act)) F.CM_HEALTH_BIST_OK = true → t.role (1 - act) = roleReady ∧ Raised t (pgCM (1 - act)) 7)) ∧
      (valid = false → t.ctr (pgCM (1 - act)) 0x058 = s.ctr (pgCM (1 - act)) 0x058 + 1 ∧ Raised t (pgCM (1 - act)) 6 ∧
        t.rd (pgCM (1 - act)) F.CM_HEALTH_GOOD_COPIES = 0 ∧ t.role (1 - act) = roleSync)) ∧
  (∀ (unit : Fin 2) (s : State), (s.role unit.val = roleSync ∨ s.role unit.val = roleReady) →
    ((s.cmUnit unit.val).slice = none → (s.cmUnit unit.val).deferred = false → (s.cmUnit unit.val).restart = none →
      ∃ t, exec (.cmSelftestSlice unit none) s = .next t ∧ t = { s with cm := t.cm, ctrs := t.ctrs } ∧
        (200 * clkUs ≤ s.toMark → t.cmUnit unit.val = { s.cmUnit unit.val with slice := some s.now } ∧
          t.ctr (pgCM unit.val) 0x070 = s.ctr (pgCM unit.val) 0x070 + 1) ∧
        (s.toMark < 200 * clkUs → t.cmUnit unit.val = { s.cmUnit unit.val with deferred := true } ∧ t.ctrs = s.ctrs)) ∧
    ((s.cmUnit unit.val).slice.isSome = true →
      (∃ t, exec (.cmSelftestSlice unit (some true)) s = .next t ∧ (t.cmUnit unit.val).slice = none ∧
        t.rd (pgCM unit.val) F.CM_HEALTH_BIST_OK = 1) ∧
      ∃ t, exec (.cmSelftestSlice unit (some false)) s = .next t ∧ Dropped s t unit.val 1)) ∧
  (∀ (unit : Fin 2) (s : State) (c : Nat), (s.cmUnit unit.val).restart = some c → c + 150 * clkUs ≤ s.now →
    ∃ t, exec (.standbyCoreRestart unit) s = .next t ∧ t = { s with cm := t.cm } ∧
      t.cmUnit unit.val = { s.cmUnit unit.val with restart := none }) ∧
  (∀ (plan : List GroupPlan) (s : State) (c u : Nat), s.cm.dropClk = some c → s.standby = some u → c + 2 * s.periodClk ≤ s.now →
    s.tb.lastMark ≤ c →
    ∃ t, exec (.takeoverTimeout plan) s = .next t ∧ t.claim u = nextClaim (s.rd (pgCM 0) F.CM_CLAIM_LAST) ∧ t.role u = roleActive ∧
      t.cm.dropClk = none ∧ Raised t (pgCM u) 1 ∧ t.ctr (pgCM u) 0x064 = s.ctr (pgCM u) 0x064 + 1 ∧
      t.gate = { s.gate with plan := plan.filter fun (g : GroupPlan) => decide (s.rd pgTBASE F.TBASE_SLOT < g.start), trimmed := [] }) ∧
  (∀ (fn : Fin 32) (unit : Fin 2) (s : State), s.mayWriteBlock (pgCM unit.val) fn.val = true →
    (s.role unit.val = roleActive → s.role (1 - unit.val) = roleReady → s.cm.yieldReq = false → s.cm.announced = false →
      exec (.cmYield fn unit) s = .next { s with cm := { s.cm with yieldReq := true } }) ∧
    (s.role unit.val ≠ roleActive ∨ s.role (1 - unit.val) ≠ roleReady →
      ∃ t, exec (.cmYield fn unit) s = .next t ∧ Raised t (pgCM unit.val) 9 ∧ t.cm = s.cm)))

/-- R400, R404, R405, R408–R411, R418: a context that ends is told and waited for; one that nothing of it runs in any more loses its keys and enters
the rinse; the fill zeroes and frees its frames, and one ramp later it is FREE and the command completes. Domain members, floor reservations and DRBG
states; the copies of the module-wide structures. The readings of the spec that this rests on are the model's own, assumption log 93, 94. -/
def Obligations.ContextLife : Prop :=
  (∀ (fn : Fin 32) (tag : Nat) (ctx : Fin 1024) (s : State), Performs s fn.val 0x02 →
    (s.ctxState ctx.val = ctxFREE → ∃ t, exec (.ctxEnd fn tag ctx) s = .next t ∧ Answered s t fn.val tag 0 0 ∧ t = { s with host := t.host }) ∧
    (s.ctxOpen ctx.val = true →
      ∃ t, exec (.ctxEnd fn tag ctx) s = .next t ∧ ({ fn := fn.val, tag := tag, on := .ctxFree ctx.val, result := 0 } : Wait) ∈ t.host.waits ∧
        t.ctxState ctx.val = ctxENDING ∧ Raised t pgCTXS0 0)) ∧
  (∀ (fn : Fin 32) (tag : Nat) (ctx : Fin 1024) (dom : Nat) (share : Bool) (s : State), Performs s fn.val 0x07 →
    s.ctxField F.CTXS_ENTRY_SEALED ctx.val ≠ 1 → s.joinRefused ctx.val dom = false →
    ∃ t, exec (.domainJoin fn tag ctx dom share) s = .next t ∧ Answered s t fn.val tag 0 0 ∧ t.domainOf ctx.val = some (dom % 256) ∧
      t.ctxField F.CTXS_ENTRY_BATCH_SHARE ctx.val = boolNat share ∧ (∀ c, c < 1024 → c ≠ ctx.val → t.domainOf c = s.domainOf c) ∧ t.kv = s.kv ∧
      SameBytes s t) ∧
  (∀ (fn : Fin 32) (tag : Nat) (ctx : Fin 1024) (die mask : Nat) (s : State), Performs s fn.val 0x08 → die < 4 → mask < 2 ^ 12 →
    (∀ f ∈ bitsSet mask 12, (s.cmdFloor die f).isSome = true ∧ s.floorBusy die f ctx.val = false) → s.ctxState ctx.val = ctxLIVE →
    ∃ t, exec (.floorReserve fn tag ctx die mask) s = .next t ∧ Answered s t fn.val tag 0 0 ∧
      t.ctxs = { s.ctxs with floors := s.ctxs.floors ++ [(ctx.val, die, mask)] } ∧ t.ctxField F.CTXS_ENTRY_FLOORS ctx.val = 1 ∧ SameBytes s t) ∧
  (∀ (fn : Fin 32) (tag : Nat) (ctx : Fin 1024) (s : State), Performs s fn.val 0x09 →
    ∃ t, exec (.floorRelease fn tag ctx) s = .next t ∧ Answered s t fn.val tag 0 0 ∧
      t.ctxs = { s.ctxs with floors := s.ctxs.floors.filter fun r => r.1 != ctx.val } ∧ t.ctxField F.CTXS_ENTRY_FLOORS ctx.val = 0 ∧ SameBytes s t) ∧
  (∀ (ctx : Fin 1024) (s : State), s.ctxState ctx.val = ctxENDING → s.stillBusy ctx.val = false →
    ∃ t x, exec (.ctxQuiesced ctx) s = .next t ∧ t.ctxState ctx.val = ctxRINSING ∧ t.keyIn ctx.val = none ∧ mget t.drbg ctx.val = none ∧
      Raised t pgCTXS0 1 ∧ t.ctxs.queue = s.ctxs.queue ++ [x] ∧ x.ctx = ctx.val ∧
      (∀ i y, mget s.rqt.entries i = some y → y.ctx = ctx.val → mget t.rqt.entries i = none)) ∧
  (∀ (s : State) (x : Rinse) (rest : List Rinse) (r : Nat), s.ctxs.queue = x :: rest → s.ctxs.rampIn = some r →
    x.base + x.need * (256 * max 1 (s.rd pgCTXS0 F.CTXS_RINSE_LINE_CLK)) ≤ s.fillNow → (x.inRamp = true → r + s.rampClk ≤ s.now) → r ≤ s.now →
    ∃ t, exec .rinseFillEnd s = .next t ∧ t.ctxs.queue.length = rest.length ∧ t.ctxs.filled = s.ctxs.filled ++ [(x.ctx, s.now)] ∧
      (∀ f y, s.frame f = some y → y.otype = 0 → y.owner = x.ctx → (y.pend = false → t.frame f = none) ∧
        ∀ a, a / 4096 = f → bget t.lp.mem a = 0) ∧
      (∀ a, (∀ y, s.frame (a / 4096) = some y → y.otype ≠ 0 ∨ y.owner ≠ x.ctx) → (∀ e ∈ s.lp.frames, e.1 = a / 4096 → s.frame e.1 = some e.2) →
        bget t.lp.mem a = bget s.lp.mem a)) ∧
  (∀ (s : State) (c clk : Nat) (rest : List (Nat × Nat)), s.ctxs.filled = (c, clk) :: rest → clk + s.rampClk ≤ s.now →
    ∃ t, exec .rinseDone s = .next t ∧ t.ctxState c = ctxFREE ∧ t.ctxs.filled = rest ∧ Raised t pgCTXS0 2 ∧
      t.ctr pgCTXS0 0x050 = s.ctr pgCTXS0 0x050 + 1 ∧
      ∀ fn tag, s.host.waits = [{ fn := fn, tag := tag, on := .ctxFree c, result := 0 }] → t.host.waits = [] ∧ Answered s t fn tag 0 0) ∧
  (∀ (s : State) (live : List Nat), live = s.kv.homes.filter (fun n => s.hasUnit (pgDIE n)) → live.length ≠ s.kv.homes.length → live ≠ [] →
    s.kv.copyTo = none → s.inControl = true →
    ∃ t n, exec .structRecopy s = .next t ∧ t.kv = { s.kv with homes := live, copyTo := some n } ∧
      ((∃ m ∈ s.diesUp, m ∉ live) → n ∈ s.diesUp ∧ n ∉ live) ∧ ((∀ m ∈ s.diesUp, m ∈ live) → live.head? = some n)) ∧
  (∀ (s : State) (n : Nat), s.kv.copyTo = some n →
    ∃ t, exec .structureCopyDone s = .next t ∧ t = { s with kv := { s.kv with homes := s.kv.homes ++ [n], copyTo := none }, regs := t.regs }) ∧
  (∀ (ctx : Fin 1024) (s : State) (d : Nat × Nat), mget s.drbg ctx.val = some d → 2 ^ 20 ≤ d.2 →
    ∃ t, exec (.drbgReseed ctx) s = .next t ∧ mget t.drbg ctx.val = some (s.lp.keyNext, 0) ∧ t.lp.keyNext = s.lp.keyNext + 1 ∧
      t = { s with drbg := t.drbg, lp := t.lp })

/-- R429–R431, R434: SPDM's negotiation in its order, and the answers of a negotiated connection; a signed one spends a bottom leaf, kept ten seconds
for GET_LMS_SIG. With the budget of the hour spent a request that needs a signature is told BUSY. R430, R432, R433, R435, R436: establishing a session
over the KEM, its upkeep and its end, which takes the sealed contexts claimed through it with it; the claim of an OPENED sealed context, and what its
tenant may do with it. The readings of the spec that this rests on are the model's own, assumption log 51, 52, 95, 96. -/
def Obligations.SpdmAnswers : Prop :=
  (∀ (fn : Fin 32) (s : State),
    (∀ type, s.doeUp = true → 2 < type →
      ∃ t, exec (.doeObjectDiscard fn type) s = .next t ∧ t = { s with gau := t.gau } ∧ t.conn fn.val = { s.conn fn.val with doeError := true }) ∧
    (SpdmUp s →
      (∃ t, exec (.spdmGetVersion fn) s = .next t ∧ t = { s with gau := t.gau, msgs := t.msgs } ∧ Replied s t fn.val [0x12, 0x13] ∧
        t.conn fn.val = { doeError := (s.conn fn.val).doeError, phase := 1 }) ∧
      (∀ v, (s.conn fn.val).phase ≠ 0 → v = 0x12 ∨ v = 0x13 →
        ∃ t, exec (.spdmGetCapabilities fn v) s = .next t ∧ t = { s with gau := t.gau, msgs := t.msgs } ∧ Replied s t fn.val [v, v - 0x12] ∧
          t.conn fn.val = { s.conn fn.val with phase := 2, version := v }) ∧
      (2 ≤ (s.conn fn.val).phase →
        ∃ t, exec (.spdmNegotiateAlgorithms fn true) s = .next t ∧ t = { s with gau := t.gau, msgs := t.msgs } ∧ Replied s t fn.val [] ∧
          t.conn fn.val = { s.conn fn.val with phase := 3 })) ∧
    (SpdmUp s → 3 ≤ (s.conn fn.val).phase →
      (∃ t, exec (.spdmGetDigests fn) s = .next t ∧ t = { s with msgs := t.msgs } ∧ Replied s t fn.val [0]) ∧
      (∀ off len, ∃ t, exec (.spdmGetCertificate fn 0 off len) s = .next t ∧ t = { s with msgs := t.msgs } ∧ Replied s t fn.val [off, len]) ∧
      (∀ off len, ∃ t, exec (.getLmsCerts fn off len) s = .next t ∧ t = { s with msgs := t.msgs } ∧ Replied s t fn.val [off, len]) ∧
      (∃ t, exec (.spdmGetMeasurements fn false) s = .next t ∧ t = { s with msgs := t.msgs } ∧ Replied s t fn.val s.measurements) ∧
      (CanSign s →
        (∃ t, exec (.spdmChallenge fn 0) s = .next t ∧ Replied s t fn.val [s.gau.bottomTree] ∧ Signed s t fn.val) ∧
        ∃ t, exec (.spdmGetMeasurements fn true) s = .next t ∧ Replied s t fn.val s.measurements ∧ Signed s t fn.val) ∧
      (s.hssExhausted = false → s.rd pgGAU F.GAU_LMS_BUDGET ≤ (s.gau.reports.filter fun c => decide (s.now < c + clkHour)).length →
        ∃ t, exec (.spdmChallenge fn 0) s = .next t ∧ Raised t pgGAU 3 ∧ .reply 11 [fn.val, errBusy] ∈ t.msgs ∧ t.gau = s.gau) ∧
      (∀ clk leaf, (s.conn fn.val).lastSigned = some (clk, leaf) → s.now < clk + 10 * clkS →
        ∃ t, exec (.getLmsSig fn) s = .next t ∧ Replied s t fn.val [leaf] ∧ t.conn fn.val = { s.conn fn.val with lmsTaken := true })) ∧
    (∀ clk leaf, (s.conn fn.val).lastSigned = some (clk, leaf) → clk + 10 * clkS ≤ s.now →
      ∃ t, exec (.lmsSigExpire fn) s = .next t ∧ t = { s with gau := t.gau } ∧ t.conn fn.val = { s.conn fn.val with lastSigned := none }) ∧
    (1024 ≤ s.rd pgGAU F.GAU_HSS_BOTTOM_USED → s.gau.paused = false →
      ∃ t, exec .bottomTreeSwitch s = .next t ∧ t.rd pgGAU F.GAU_HSS_BOTTOM_USED = 0 ∧ t.gau.bottomTree = s.gau.bottomTree + 1 ∧ Raised t pgGAU 6)) ∧
  (∀ (fn : Fin 32) (s : State),
    (SpdmUp s → 3 ≤ (s.conn fn.val).phase →
      (∃ t, exec (.getKemKey fn) s = .next t ∧ Replied s t fn.val [] ∧ t.conn fn.val = { s.conn fn.val with kem := 1, pending := none }) ∧
      ((s.conn fn.val).kem ≠ 0 →
        ∃ t, exec (.kemCt fn) s = .next t ∧ Replied s t fn.val [] ∧ t.conn fn.val = { s.conn fn.val with kem := 2 }) ∧
      (∀ n, CanSign s → (s.conn fn.val).kem = 2 → (s.sessionsOf fn.val).length < 4 → s.gau.sessions.length < 128 →
        ((List.range 128).find? fun n => (mget s.gau.sessions n).isNone && !(s.gau.conns.any fun e => e.2.pending == some n)) = some n →
        ∃ t, exec (.spdmKeyExchange fn true) s = .next t ∧ Replied s t fn.val [n] ∧ Signed s t fn.val ∧ (t.conn fn.val).pending = some n ∧
          (t.conn fn.val).lmsTaken = false ∧ (t.conn fn.val).kem = 0) ∧
      (∀ n events, (s.conn fn.val).pending = some n → (s.conn fn.val).lmsTaken = true →
        ∃ t, exec (.spdmFinish fn true events) s = .next t ∧ Replied s t fn.val [n] ∧ (t.conn fn.val).pending = none ∧
          mget t.gau.sessions n = some { fn := fn.val, hbClk := s.now, events := events && (s.conn fn.val).version == 0x13 } ∧
          t.ctr pgGAU 0x05C = s.ctr pgGAU 0x05C + 1)) ∧
    (∀ sess x, SpdmUp s → mget s.gau.sessions sess = some x → x.fn = fn.val →
      (∃ t, exec (.spdmHeartbeat fn sess) s = .next t ∧ Replied s t fn.val [sess] ∧ mget t.gau.sessions sess = some { x with hbClk := s.now } ∧
        t = { s with gau := t.gau, msgs := t.msgs }) ∧
      (∃ t, exec (.spdmKeyUpdate fn sess) s = .next t ∧ Replied s t fn.val [sess] ∧
        mget t.gau.sessions sess = some { x with keyGen := x.keyGen + 1 } ∧ t = { s with gau := t.gau, msgs := t.msgs }) ∧
      (∃ t, exec (.spdmEndSession fn sess) s = .next t ∧ t.msgs.head? = some (.reply 10 [fn.val, sess]) ∧ mget t.gau.sessions sess = none ∧
        Raised t pgGAU 5 ∧ ∀ e ∈ t.gau.claimed, e.2 ≠ sess) ∧
      (∀ ctx : Fin 1024, CanSign s → s.ctxState ctx.val = ctxOPENED → s.ctxField F.CTXS_ENTRY_SEALED ctx.val = 1 →
        ∃ t, exec (.ctxClaim fn sess ctx) s = .next t ∧ Replied s t fn.val [stCOMPLETE, ctx.val, fn.val, sess, s.tick] ∧ Signed s t fn.val ∧
          t.ctxState ctx.val = ctxLIVE ∧ mget t.gau.claimed ctx.val = some sess) ∧
      (∀ ctx : Fin 1024, mget s.gau.claimed ctx.val = some sess →
        (s.ctxOpen ctx.val = true →
          ∃ t, exec (.spdmCtxEnd fn sess ctx) s = .next t ∧ t.msgs.head? = some (.reply 10 [fn.val, stCOMPLETE]) ∧ t.ctxState ctx.val = ctxENDING ∧
            Raised t pgCTXS0 0) ∧
        (∀ dom share, s.joinRefused ctx.val dom = false →
          ∃ t, exec (.spdmDomainJoin fn sess ctx dom share) s = .next t ∧ Replied s t fn.val [stCOMPLETE] ∧
            t.domainOf ctx.val = some (dom % 256) ∧ t.ctxField F.CTXS_ENTRY_BATCH_SHARE ctx.val = boolNat share ∧ SameBytes s t))) ∧
    (∀ sess x, mget s.gau.sessions sess = some x → x.hbClk + 2 * s.rd pgGAU F.GAU_HB_S * clkS ≤ s.now →
      ∃ t, exec (.sessionHbExpire sess) s = .next t ∧ mget t.gau.sessions sess = none ∧ Raised t pgGAU 5 ∧
        t.ctr pgGAU 0x060 = s.ctr pgGAU 0x060 + 1))

/-- R398, R437, R439, R444: owner commands with a blob in order take effect and the mailbox tells it; a value out of its range changes nothing.
R440–R443: a load that no check refuses takes the lowest free cask and holds the mailbox until it is done; a bad tag ends it with FAULT and leaves no
cask. A cask of its context is unloaded unless a recovery reads it. The readings of the spec that this rests on are the model's own, assumption log
97, 98, 99. -/
def Obligations.OwnersAndCasks : Prop :=
  (∀ (o : OwnerBlob) (s : State), MailOpen s → o.forUs = true → s.gau.ownerSeq < o.seq.toNat →
    (∀ key, s.gau.ownerKey = none →
      ∃ t, exec (.ownerSet o key) s = .next t ∧ Mailed s t 0 ∧ t.gau.ownerKey = some key ∧ t.gau.ownerSeq = o.seq.toNat ∧
        t.rd pgGAU F.GAU_OWNER_SET = 1) ∧
    (BlobOk s o →
      (∀ key, ∃ t, exec (.ownerTransfer o key) s = .next t ∧ Mailed s t 0 ∧ t.gau.ownerKey = some key ∧ t.gau.ownerSeq = o.seq.toNat ∧
        t.gau.publishers = s.gau.publishers) ∧
      (∃ t, exec (.ownerRelease o) s = .next t ∧ Mailed s t 0 ∧ t.gau.ownerKey = none ∧ t.gau.publishers = [] ∧ t.gau.ownerSeq = o.seq.toNat ∧
        t.rd pgGAU F.GAU_OWNER_SET = 0 ∧ t.rd pgGAU F.GAU_PUBLISHERS = 0) ∧
      (∀ (slot : Fin 32) key, ∃ t, exec (.pubEnrol o slot key) s = .next t ∧ Mailed s t 0 ∧ mget t.gau.publishers slot.val = some key ∧
        (∀ i, i ≠ slot.val → mget t.gau.publishers i = mget s.gau.publishers i) ∧ t.gau.ownerSeq = o.seq.toNat) ∧
      (∀ slot : Fin 32, ∃ t, exec (.pubRevoke o slot) s = .next t ∧ Mailed s t 0 ∧ mget t.gau.publishers slot.val = none ∧
        (∀ i, i ≠ slot.val → mget t.gau.publishers i = mget s.gau.publishers i) ∧ t.gau.ownerSeq = o.seq.toNat) ∧
      (∀ items : List (PolicyItem × Nat),
        (items.all policyOk = true → (items.map (·.1)).Nodup →
          ∃ t, exec (.policy o items) s = .next t ∧ Mailed s t 0 ∧ t.gau.ownerSeq = o.seq.toNat ∧
            ∀ x ∈ items, t.rd (policyField x.1).1 (policyField x.1).2.1 = x.2) ∧
        (items.all policyOk = false →
          ∃ t, exec (.policy o items) s = .next t ∧ Mailed s t stFAULT ∧ t.gau.ownerSeq = s.gau.ownerSeq ∧
            ∀ i, t.rd (policyField i).1 (policyField i).2.1 = s.rd (policyField i).1 (policyField i).2.1)) ∧
      (∀ vendor counter, (vendor = true → counter = true) → s.ctxCount (fun v => v != ctxFREE) = 0 →
        ∃ t, exec (.debugToken o vendor counter) s = .next t ∧ Mailed s t 0 ∧ t.rd pgGAU F.GAU_DEBUG_OPEN = 1 ∧ t.gau.ownerSeq = o.seq.toNat)) ∧
    (o.sigOk = false → ∀ key, ∃ t, exec (.ownerTransfer o key) s = .next t ∧ Mailed s t stDENIED ∧ t.gau.ownerKey = s.gau.ownerKey ∧
      t.gau.ownerSeq = s.gau.ownerSeq)) ∧
  ((∀ (k : CaskIn) (s : State), MailOpen s →
    (∀ n, s.caskRefused k = none → ((List.range 256).find? fun n => (mget s.casks n).isNone) = some n →
      ∃ t x, exec (.caskLoad k) s = .next t ∧ mget t.casks n = some x ∧ x.ctx = k.ctx.val ∧ x.loading = true ∧ x.dests = k.sects ∧ x.host = k.host ∧
        (∀ i, i ≠ n → mget t.casks i = mget s.casks i) ∧ t.gau.loading = some n ∧ t.on pgGAU F.MBX_STAT_BUSY = true ∧ SameBytes s t) ∧
    (∀ st cause, s.caskRefused k = some (st, cause) →
      ∃ t, exec (.caskLoad k) s = .next t ∧ Mailed s t st ∧ t.rd pgGAU F.MBX_STAT_DETAIL = cause ∧ t.casks = s.casks)) ∧
  (∀ (again : Nat) (s : State) (n : Nat) (x : Cask), s.gau.loading = some n → mget s.casks n = some x →
    (∀ d, s.ctxState x.ctx = ctxLIVE →
      ∃ t, exec (.caskLoadDone (some d) again) s = .next t ∧ mget t.casks n = some { x with loading := false } ∧ t.gau.loading = none ∧
        t.gau.resp = n :: x.images ∧ t.rd pgGAU F.MBX_STAT_BUSY = 0 ∧ t.rd pgGAU F.MBX_STAT_DONE = 1 ∧ t.rd pgGAU F.MBX_STAT_STATUS = 0 ∧
        t.ctr pgGAU 0x064 = s.ctr pgGAU 0x064 + 1) ∧
    (∃ t, exec (.caskLoadDone none again) s = .next t ∧ Mailed s t stFAULT ∧ t.rd pgGAU F.MBX_STAT_DETAIL = 8 ∧ mget t.casks n = none ∧
      t.gau.loading = none ∧ t.ctr pgGAU 0x06C = s.ctr pgGAU 0x06C + again + 2 ∧ SameBytes s t)) ∧
  (∀ (ctx : Fin 1024) (slot : Fin 256) (s : State) (x : Cask), MailOpen s → mget s.casks slot.val = some x → x.ctx = ctx.val → s.lp.recov = [] →
    ∃ t, exec (.caskUnload ctx slot) s = .next t ∧ Mailed s t 0 ∧ mget t.casks slot.val = none ∧
      (∀ i, i ≠ slot.val → mget t.casks i = mget s.casks i) ∧ SameBytes s t))

/-! ## Firmware, self-test and the analogue checks (R445–R474) -/

/-- R449–R451, R459: staging takes the slot that is not active and tells what became of it; a discard clears PEND; an activation that no check refuses
is announced; in recovery an image whose checks pass becomes the active one. R453–R456: an activation begins when it is due; the two components that
take effect at the next start are only recorded, the others quiesce, the Gauger restarting; once nothing of the component runs the new image has
started, or the old one stays. The readings of the spec that this rests on are the model's own, assumption log 100, 101. -/
def Obligations.FirmwareUpdates : Prop :=
  ((∀ (comp kib : Nat) (img : Image) (sigOk : Bool) (s : State), MailOpen s → comp < 7 →
    (s.fw.staging.isSome = true →
      ∃ t, exec (.fwStage comp img sigOk kib) s = .next t ∧ Mailed s t stFAULT ∧ t.rd pgGAU F.MBX_STAT_DETAIL = 1 ∧ t.fw = s.fw) ∧
    (s.fw.staging = none → kib ≤ slotKib comp → (∀ a, s.fw.act = some a → a.comp ≠ comp) →
      ∃ t g, exec (.fwStage comp img sigOk kib) s = .next t ∧ Mailed s t 0 ∧ t.fw.staging = some g ∧ g.comp = comp ∧
        g.slot = 1 - s.activeSlot comp ∧ g.img = { img with svn := img.svn % 64 } ∧ g.kib = (if sigOk then kib else 0) ∧
        t.fwSlot comp (1 - s.activeSlot comp) = { state := 3, sigOk := false, img := img } ∧ t.rdi pgGAU F.FW_COMP_PEND comp = 0 ∧
        t.rdi pgGAU F.FW_COMP_STAGING comp = 1 ∧ t.fw.run = s.fw.run ∧ t.fw.active = s.fw.active)) ∧
  (∀ (s : State) (g : Staging), s.fw.staging = some g → g.comp < 7 → g.kib ≠ 0 →
    (nget s.fw.fused g.comp ≤ g.img.svn →
      ∃ t, exec (.fwStageDone true) s = .next t ∧ t.fw.staging = none ∧ t.fwSlot g.comp g.slot = { state := 1, sigOk := true, img := g.img } ∧
        t.rdi pgGAU F.FW_COMP_PEND g.comp = 1 ∧ t.rdi pgGAU F.FW_COMP_STAGING g.comp = 0 ∧ Raised t pgGAU 7 ∧
        t.ctr pgGAU 0x074 = s.ctr pgGAU 0x074 + 1) ∧
    (∃ t, exec (.fwStageDone false) s = .next t ∧ t.fw.staging = none ∧ t.fwSlot g.comp g.slot = { state := 3, sigOk := false, img := g.img } ∧
      t.rdi pgGAU F.FW_COMP_STAGING g.comp = 0 ∧ Raised t pgGAU 8)) ∧
  (∀ (comp : Nat) (s : State), MailOpen s → comp < 7 → (∀ a, s.fw.act = some a → a.comp ≠ comp) →
    ∃ t, exec (.fwDiscard comp) s = .next t ∧ Mailed s t 0 ∧ t.rdi pgGAU F.FW_COMP_PEND comp = 0 ∧ t.fw = s.fw) ∧
  (∀ (comp lead : Nat) (force : Bool) (s : State), MailOpen s → lead ≠ 0 → lead ≤ 255 →
    (s.activateRefused comp force = none →
      ∃ t, exec (.activate comp lead force) s = .next t ∧ Mailed s t 0 ∧ Raised t pgGAU 9 ∧ t.rd pgGAU F.FW_ACT_BUSY = 1 ∧
        t.rd pgGAU F.FW_ACT_PHASE = 1 ∧ t.rd pgGAU F.FW_ACT_PIDX = (s.rd pgTBASE F.TBASE_PERIOD_IDX + lead) % 2 ^ 24 ∧
        t.fw.act = some { comp := comp, slot := 1 - s.activeSlot comp, force := force, pidx := (s.rd pgTBASE F.TBASE_PERIOD_IDX + lead) % 2 ^ 24,
                          atClk := s.now + lead * clkMs }) ∧
    (∀ st detail, s.activateRefused comp force = some (st, detail) →
      ∃ t, exec (.activate comp lead force) s = .next t ∧ Mailed s t st ∧ t.rd pgGAU F.MBX_STAT_DETAIL = detail ∧ t.fw = s.fw)) ∧
  (∀ (img : Image) (s : State), s.fw.recovery = true → s.rd pgREC F.REC_COMP < 7 → nget s.fw.fused (s.rd pgREC F.REC_COMP) ≤ img.svn % 64 →
    ∃ t, exec (.recoveryWrite img true true true) s = .next t ∧ t.rd pgREC F.REC_STAT_BUSY = 0 ∧ t.rd pgREC F.REC_STAT_DONE = 1 ∧
      t.rd pgREC F.REC_STAT_STATUS = 0 ∧ t.activeSlot (s.rd pgREC F.REC_COMP) = s.rd pgREC F.REC_SLOT ∧
      t.fwSlot (s.rd pgREC F.REC_COMP) (s.rd pgREC F.REC_SLOT) = { state := 1, sigOk := true, img := { img with svn := img.svn % 64 } })) ∧
  (∀ (s : State) (a : Activation), s.fw.act = some a → a.comp < 7 →
    (a.begun = false → (s.unlocked = true → a.atClk ≤ s.now) →
      (s.unlocked = false → (s.rd pgTBASE F.TBASE_PERIOD_IDX + 2 ^ 24 - a.pidx) % 2 ^ 24 < 2 ^ 23) →
      (a.comp = 5 ∨ a.comp = 6 →
        ∃ t, exec .activationBegin s = .next t ∧ t.fw.act = none ∧ t.activeSlot a.comp = a.slot ∧ t.rd pgGAU F.FW_ACT_BUSY = 0 ∧
          t.rd pgGAU F.FW_ACT_PHASE = 3 ∧ Raised t pgGAU 10 ∧ Raised t pgGAU 4 ∧ t.ctr pgGAU 0x078 = s.ctr pgGAU 0x078 + 1 ∧ t.fw.run = s.fw.run) ∧
      (a.comp = 2 ∨ a.comp = 3 ∨ a.comp = 4 →
        ∃ t, exec .activationBegin s = .next t ∧ t.fw.act = some { a with begun := true } ∧ t.rd pgGAU F.FW_ACT_PHASE = 2 ∧
          (∀ x ∈ t.bist.running, sliceOf a.comp x.unit = false) ∧ t.fw.active = s.fw.active) ∧
      (a.comp = 0 →
        ∃ t, exec .activationBegin s = .next t ∧ t.fw.act = some { a with begun := true } ∧ t.rd pgGAU F.FW_ACT_PHASE = 2 ∧
          t.gau.paused = true ∧ t.gau.bootCount = s.gau.bootCount + 1 ∧ t.rd pgGAU F.MBX_STAT_BUSY = 1)) ∧
    (∀ loads, a.begun = true → a.failed = false → s.compQuiet a.comp = true → (a.comp = 1 → s.cmReloaded a = true) →
      ∃ t, exec (.activationComplete loads) s = .next t ∧ t.fw.act = none ∧ t.activeSlot a.comp = a.slot ∧
        t.runImage a.comp = (s.fwSlot a.comp a.slot).img ∧ t.rd pgGAU F.FW_ACT_BUSY = 0 ∧ t.rd pgGAU F.FW_ACT_PHASE = 0 ∧
        t.rdi pgGAU F.FW_COMP_PEND a.comp = 0 ∧ Raised t pgGAU 10 ∧ t.ctr pgGAU 0x078 = s.ctr pgGAU 0x078 + 1 ∧
        (a.comp = 0 → t.gau.paused = false)) ∧
    (∀ loads, a.begun = true → s.compQuiet a.comp = true → (a.comp = 1 → a.failed = true) →
      ∃ t, exec (.activationFail loads) s = .next t ∧ t.fw.act = none ∧ t.fw.active = s.fw.active ∧ t.fw.run = s.fw.run ∧
        t.rdi pgGAU F.FW_COMP_PEND a.comp = 0 ∧ t.rd pgGAU F.FW_ACT_BUSY = 0 ∧ Raised t pgGAU 11 ∧ t.ctr pgGAU 0x07C = s.ctr pgGAU 0x07C + 1 ∧
        (a.comp = 0 → t.gau.paused = false)))

/-- R461–R467, R470, R471: the schedule issues a unit's due tests, a vat's as a rotation of its floor; BIST.REQ asks for one; a slice asked for starts
where its conditions hold, and can be put off; a clean run is a test done, a mismatch runs the slice again, and the same one again proves the fault; a
stored repair takes effect. R23, R468, R476: an analogue check that passes is counted; one that fails is told. The second failure running of a channel
or a link retires it, a bad lane is left out, a domain outside its window relocks, its vat holding, and a line that is suspect or fails its loop-back
is told or taken out. The readings of the spec that this rests on are the model's own, assumption log 60, 102, 103. -/
def Obligations.TestsAndChecks : Prop :=
  ((∀ (unit : BistUnit) (s : State), s.on pgBIST F.BIST_CFG_EN = true → s.ready = true → s.testable unit = true →
    nget s.bist.issuedOf (unitKey unit) < testsOf unit → s.dueClk unit (nget s.bist.issuedOf (unitKey unit)) ≤ s.now →
    ∃ t, exec (.bistSchedule unit) s = .next t ∧ nget t.bist.issuedOf (unitKey unit) = nget s.bist.issuedOf (unitKey unit) + 1 ∧ SameBytes s t ∧
      (∀ v, unit = .vat v → (t.floor (floorOfVat (vatPg v))).reqs = (s.floor (floorOfVat (vatPg v))).reqs ++ [0xF] ∧ t.bist.sched = s.bist.sched) ∧
      ((∀ v, unit ≠ .vat v) → t.bist.sched = s.bist.sched ++ [unit] ∧ t.floors = s.floors)) ∧
  (∀ (fn : Fin 32) (v : Word) (s : State), s.mayWriteBlock pgBIST fn.val = true →
    (nbit v.toNat 31 = false → exec (.bistReq fn v) s = .next s) ∧
    (nbit v.toNat 31 = true → reqUnit (bits v.toNat 23 8) (bits v.toNat 20 3) (bits v.toNat 0 20) = none →
      ∃ t, exec (.bistReq fn v) s = .next t ∧ Raised t pgBIST 9 ∧ t.bist = s.bist) ∧
    (∀ u, nbit v.toNat 31 = true → reqUnit (bits v.toNat 23 8) (bits v.toNat 20 3) (bits v.toNat 0 20) = some u → s.hasUnit (unitPage u) = true →
      ∃ t, exec (.bistReq fn v) s = .next t ∧
        (∀ x, u = .vat x → s.inService (vatPg x) = true →
          (t.floor (floorOfVat (vatPg x))).reqs = (s.floor (floorOfVat (vatPg x))).reqs ++ [x.vat.val]) ∧
        ((∀ x, u = .vat x → s.inService (vatPg x) = false) → t = { s with bist := { s.bist with reqs := s.bist.reqs ++ [u] } }))) ∧
  (∀ (unit : BistUnit) (s : State), s.on pgBIST F.BIST_CFG_EN = true → s.ready = true → s.testing unit = false → s.hasUnit (unitPage unit) = true →
    s.asked unit = true → s.mayTest unit = true → s.fw.act = none → (∀ e ∈ s.bist.deferred, e.1 ≠ unit) →
    (∃ t, exec (.bistSliceStart unit true) s = .next t ∧ t.testing unit = true ∧ t.ctr pgBIST 0x04C = s.ctr pgBIST 0x04C + 1) ∧
    ∃ t, exec (.bistSliceStart unit false) s = .next t ∧ t.testing unit = false ∧ t.bist.deferred = s.bist.deferred ++ [(unit, s.now)] ∧
      t.ctr pgBIST 0x050 = s.ctr pgBIST 0x050 + 1) ∧
  (∀ (unit : BistUnit) (s : State), s.testing unit = true →
    (∃ t, exec (.bistSliceStop unit) s = .next t ∧ t.testing unit = false ∧ t.bist.deferred = s.bist.deferred ++ [(unit, s.now)] ∧
      t.regs = s.regs ∧ SameBytes s t) ∧
    (∀ x, (s.bist.running.find? fun y => y.unit == unit) = some x →
      (∃ t, exec (.bistSliceEnd unit none) s = .next t ∧ t.testing unit = false ∧
        (s.rd pgBIST F.BIST_PASS_POS + 1 < s.rd pgBIST F.BIST_PASS_SLICES →
          t.rd pgBIST F.BIST_PASS_POS = (s.rd pgBIST F.BIST_PASS_POS + 1) % 2 ^ 24 ∧
          nget t.bist.doneOf (unitKey unit) = nget s.bist.doneOf (unitKey unit) + 1) ∧
        (s.rd pgBIST F.BIST_PASS_SLICES ≤ s.rd pgBIST F.BIST_PASS_POS + 1 → t.rd pgBIST F.BIST_PASS_POS = 0)) ∧
      (∀ m, x.first ≠ some m →
        ∃ t y, exec (.bistSliceEnd unit (some m)) s = .next t ∧ (t.bist.running.find? fun z => z.unit == unit) = some y ∧ y.first = some m ∧
          y.clk = s.now ∧ t.regs = s.regs ∧ t.ctrs = s.ctrs) ∧
      (∀ m, x.first = some m →
        ∃ t, exec (.bistSliceEnd unit (some m)) s = .next t ∧ Raised t pgBIST 0 ∧ t.ctr pgBIST 0x05C = s.ctr pgBIST 0x05C + 1))) ∧
  (∀ (unit : BistUnit) (s : State) (clk : Nat), (s.bist.deferred.find? fun e => e.1 == unit) = some (unit, clk) →
    clk + s.rd pgBIST F.BIST_DEFER_MS * clkMs ≤ s.now →
    ∃ t, exec (.bistDeferExpire unit) s = .next t ∧ t.bist.sched = unit :: s.bist.sched ∧ t.bist.deferred = s.bist.deferred.erase (unit, clk) ∧
      t = { s with bist := t.bist }) ∧
  (∀ (s : State) (u : BistUnit) (x : BistSub) (rest : List (BistUnit × BistSub)), s.bist.stores = (u, x) :: rest →
    ∃ t, exec .repairStored s = .next t ∧ t.bist.stores = rest ∧ Raised t pgBIST 1 ∧ t.ctr pgBIST 0x060 = s.ctr pgBIST 0x060 + 1 ∧
      t.rd pgBIST F.BIST_RECORD_FREE = (s.rd pgBIST F.BIST_RECORD_FREE - 1) % 2 ^ 14 ∧
      (∀ v q c, u = .vat v → x = .column q c → t.rd (vatPg v) (tunMap q) = c.val ∧ t.testing u = true) ∧
      (∀ f g, u = .seg f g → s.rd (floorPgOf f) F.FLOOR_SEG_SPARES ≠ 0 → Raised t (floorPgOf f) 8)) ∧
  (∀ (s : State), s.bist.storeClk + clkHour ≤ s.now →
    ∃ t, exec .passPositionStore s = .next t ∧ t = { s with bist := { s.bist with savedPos := s.rd pgBIST F.BIST_PASS_POS, savedPasses := s.rd pgBIST F.BIST_PASSES, storeClk := s.now } })) ∧
  ((∀ (die : Fin 4) (ch : Fin 32) (s : State), s.analogOn = true → s.hasUnit (pgDIE die.val) = true → s.chanRetired die.val ch.val = false →
    (∃ t, exec (.lpddrPhyCheck die ch true) s = .next t ∧ t.ctr pgBIST 0x068 = s.ctr pgBIST 0x068 + 1 ∧
      nget t.bist.checkFail (32 * die.val + ch.val) = 0 ∧ t.regs = s.regs ∧ t.lp = s.lp) ∧
    (∃ t, exec (.lpddrPhyCheck die ch false) s = .next t ∧ Raised t pgBIST 5 ∧ Raised t (pgLPG die.val (ch.val / 8)) 6 ∧
      t.ctr pgBIST 0x06C = s.ctr pgBIST 0x06C + 1 ∧ (nget s.bist.checkFail (32 * die.val + ch.val) = 0 → t.lp = s.lp) ∧
      (nget s.bist.checkFail (32 * die.val + ch.val) = 1 → 32 * die.val + ch.val ∈ t.lp.chDue))) ∧
  (∀ (link : Fin 8) (s : State), s.analogOn = true → s.hasUnit (pgKEG link.val) = true → s.linkIsUp link.val = true →
    (∃ t, exec (.kegEyeCheck link true) s = .next t ∧ t.ctr pgBIST 0x068 = s.ctr pgBIST 0x068 + 1 ∧ nget t.bist.checkFail (128 + link.val) = 0 ∧
      t.regs = s.regs) ∧
    (∃ t, exec (.kegEyeCheck link false) s = .next t ∧ Raised t pgBIST 5 ∧
      (nget s.bist.checkFail (128 + link.val) = 0 → t.retired = s.retired ∧ nget t.bist.checkFail (128 + link.val) = 1) ∧
      (nget s.bist.checkFail (128 + link.val) = 1 → t.isRetired (pgKEG link.val) = true))) ∧
  (∀ (lane : Fin 8) (s : State), s.analogOn = true → s.linkUp = true →
    (∃ t, exec (.pcieEyeCheck lane true) s = .next t ∧ t = { s with ctrs := t.ctrs } ∧ t.ctr pgBIST 0x068 = s.ctr pgBIST 0x068 + 1) ∧
    (∃ t, exec (.pcieEyeCheck lane false) s = .next t ∧ Raised t pgBIST 5 ∧ nbit (t.rd pgHOST F.HOST_LANE_EXCL) lane.val = true)) ∧
  (∀ (dom : ClkDomain) (s : State),
    (s.domThere dom = true → dom ∉ s.bist.relock →
      (∃ t, exec (.pllCheck dom true) s = .next t ∧ t = { s with ctrs := t.ctrs } ∧ t.ctr pgBIST 0x068 = s.ctr pgBIST 0x068 + 1) ∧
      ∃ t, exec (.pllCheck dom false) s = .next t ∧ t.bist.relock = s.bist.relock ++ [dom] ∧ Raised t pgBIST 5 ∧
        ∀ v, dom = .vat v → t.rd (vatPg v) F.VAT_RUN_CLK_HOLD = 1) ∧
    (dom ∈ s.bist.relock →
      (∃ t, exec (.pllRelock dom true) s = .next t ∧ t.bist.relock = s.bist.relock.erase dom ∧ t.retired = s.retired ∧
        ∀ v, dom = .vat v → t.rd (vatPg v) F.VAT_RUN_CLK_HOLD = 0) ∧
      ∃ t, exec (.pllRelock dom false) s = .next t ∧ (dom = .mill → t.isRetired pgMILL = true) ∧
        (dom = .gauger → t.isRetired pgGAU = true))) ∧
  (∀ (lineB : Bool) (s : State), s.analogOn = true → s.tbFlag (if lineB then F.TBASE_CFG_LINE_B_EN else F.TBASE_CFG_LINE_A_EN) = false →
    (∃ t, exec (.tbLoopbackCheck lineB true) s = .next t ∧ t = { s with ctrs := t.ctrs } ∧ t.ctr pgBIST 0x068 = s.ctr pgBIST 0x068 + 1) ∧
    ∃ t, exec (.tbLoopbackCheck lineB false) s = .next t ∧ Raised t pgBIST 5 ∧ nbit (t.rd pgMOD F.MOD_FIXED_SVC) (4 + boolNat lineB) = false) ∧
  (∀ (s : State), s.bist.tbClk + clkS ≤ s.now →
    ∃ t, exec .tbSpanEnd s = .next t ∧ t.bist.tbWin = [] ∧ t.bist.tbErr = [] ∧ t.bist.tbClk = s.bist.tbClk + clkS ∧
      (∀ l, l < 2 → nget s.bist.tbWin l < 100 * nget s.bist.tbErr l → nget s.bist.tbErr (1 - l) = 0 →
        nget t.bist.tbSuspect l = 1 ∧ (nget s.bist.tbSuspect l = 0 → Raised t pgBIST 6))))

/-! ## The host: link, functions, rings, windows (R475–R500) -/

/-- R475–R477, R480, R493, R495, R496: the link comes up at the width that its lanes allow and goes down, and tells it; an FLR forgets the function's
rings, its slots and its SPDM connection; unmasking sends what is pending; a window access reaches memory through an aperture, and one outside reads
zeros. The readings of the spec that this rests on are the model's own, assumption log 40, 84, 85, 101. -/
def Obligations.HostLinkAndWindows : Prop :=
  (∀ (speed : Fin 5) (s : State), s.host.perstHigh = true → s.pwr.mainOff = false → s.start.modLow = false → s.start.noPcie = false →
    linkWidth (s.rd pgHOST F.HOST_LANE_EXCL) ≠ 0 → speed.val ≠ 0 → s.linkUp = false →
    ∃ t, exec (.pcieLinkUp speed) s = .next t ∧ t.rd pgHOST F.HOST_LINK_UP = 1 ∧ t.rd pgHOST F.HOST_LINK_SPEED = speed.val ∧
      t.rd pgHOST F.HOST_LINK_WIDTH = linkWidth (s.rd pgHOST F.HOST_LANE_EXCL) ∧ t.host.d3hot = false ∧ Raised t pgHOST 1 ∧
      (linkWidth (s.rd pgHOST F.HOST_LANE_EXCL) < 8 ∨ speed.val < 4 → Raised t pgHOST 2) ∧ SameBytes s t) ∧
  (∀ (s : State), s.on pgHOST F.HOST_LINK_UP = true →
    (∃ t, exec .pcieLinkDown s = .next t ∧ t.rd pgHOST F.HOST_LINK_UP = 0 ∧ t.rd pgHOST F.HOST_LINK_SPEED = 0 ∧ t.rd pgHOST F.HOST_LINK_WIDTH = 0 ∧
      Raised t pgHOST 0 ∧ SameBytes s t) ∧
    (∃ t, exec .d3hotEntry s = .next t ∧ t = { s with host := { s.host with d3hot := true } } ∧ t.linkUp = false) ∧
    (∀ fn : Fin 32, exec (.atsTranslationRequest fn) s = .next { s with msgs := .reply 1 [fn.val, 1] :: s.msgs })) ∧
  (∀ (fn : Fin 32) (s : State), fn.val ≠ 0 →
    ∃ t, exec (.vfFlr fn) s = .next t ∧ (∀ e ∈ t.host.rings, e.2.fn ≠ fn.val) ∧ (∀ k, k < 64 → t.rdi (pgWIN fn.val) F.WIN_SLOT_VALID k = 0) ∧
      t.rd (pgWIN fn.val) F.WIN_CMDQ_EN = 0 ∧ t.conn fn.val = {}) ∧
  (∀ (fn : Fin 32) (vec : Nat) (s : State), vec < vectorsOf fn.val →
    ∃ t, exec (.msixUnmask fn vec) s = .next t ∧ nget t.host.msixOpen (fn.val * 2048 + vec) = 1 ∧ nget t.host.msixPend (fn.val * 2048 + vec) = 0 ∧
      (nget s.host.msixOpen (fn.val * 2048 + vec) = 0 → nget s.host.msixPend (fn.val * 2048 + vec) ≠ 0 → s.linkUp = true →
        t.msgs = .msix fn.val vec :: s.msgs) ∧ t.regs = s.regs) ∧
  (∀ (fn : Fin 32) (s : State), s.winSum fn.val ≠ 0 → nget s.host.msixOpen (fn.val * 2048) ≠ 0 → s.linkUp = true →
    ∃ t, exec (.winRearm fn) s = .next t ∧ t.msgs = .msix fn.val 0 :: s.msgs ∧ t = { s with msgs := t.msgs, ctrs := t.ctrs }) ∧
  (∀ (fn : Fin 32) (off len : Nat) (o : LineOut) (s : State), s.ready = true →
    (0x4000000 ≤ off → ∃ t, exec (.hostWindowRead fn off len o) s = .next t ∧
      t.host.winData = (List.range len).map (fun i => s.msixByte fn.val (off + i)) ∧ t.host.winPoison = false ∧
      t.ctr pgHOST 0x064 = s.ctr pgHOST 0x064 + 1 ∧ SameBytes s t) ∧
    (off < 0x4000000 → s.aperture fn.val off = none → ∃ t, exec (.hostWindowRead fn off len o) s = .next t ∧
      t.host.winData = List.replicate len 0 ∧ t.host.winPoison = false ∧ SameBytes s t) ∧
    (∀ c va ro s1 bs p, off < 0x4000000 → s.aperture fn.val off = some (c, va, ro) → (s.count pgHOST 0x064 1).windowRead c va len o = (s1, bs, p) →
      ∃ t, exec (.hostWindowRead fn off len o) s = .next t ∧ t.host.winData = bs ∧ t.host.winPoison = p)) ∧
  (∀ (fn : Fin 32) (off : Nat) (o : LineOut) (s : State), s.ready = true → off < 0x4000000 →
    (∀ data, s.aperture fn.val off = none ∨ (∃ c va, s.aperture fn.val off = some (c, va, true)) →
      ∃ t, exec (.hostWindowWrite fn off data o) s = .next t ∧ t = { s with ctrs := t.ctrs } ∧ t.ctr pgHOST 0x064 = s.ctr pgHOST 0x064 + 1) ∧
    (∀ c va b pa x key, s.aperture fn.val off = some (c, va, false) → s.xlate c va true true 1 = .ok pa → s.frame (pa / 4096) = some x →
      s.keyIn (slotOfOwner x.otype x.owner) = some key → o.cacheParity = false → nget s.lp.bad (pa / 64) = 0 → o.fail1 = false →
      ∃ t, exec (.hostWindowWrite fn off [some b] o) s = .next t ∧ bget t.lp.mem pa = b ∧
        (∀ a, a / 64 ≠ pa / 64 → bget t.lp.mem a = bget s.lp.mem a)))

/-- R478: CTX_BIND binds a context to a slot of a function's window and CTX_UNBIND removes it, from the PF alone; what each is refused with; the
slot's pages are absent once CTX_UNBIND has completed. -/
def Obligations.ContextBinding : Prop :=
  (∀ (fn : Fin 32) (tag : Nat) (ctx : Fin 1024) (func slot : Nat) (s : State), Performs s fn.val 0x03 →
    (s.ctxState ctx.val ≠ ctxOPENED → s.ctxState ctx.val ≠ ctxLIVE →
      ∃ t, exec (.ctxBind fn tag ctx func slot) s = .next t ∧ Answered s t fn.val tag stDENIED 0 ∧ t.regs = s.regs) ∧
    (s.ctxState ctx.val = ctxOPENED ∨ s.ctxState ctx.val = ctxLIVE →
      (func < 32 → slot < 64 → s.rdi (pgWIN func) F.WIN_SLOT_VALID slot = 1 ∨ (∃ g, s.ctxFn ctx.val = some g) →
        ∃ t, exec (.ctxBind fn tag ctx func slot) s = .next t ∧ Answered s t fn.val tag stFAULT 0 ∧ t.regs = s.regs) ∧
      (func < 32 → slot < 64 → s.rdi (pgWIN func) F.WIN_SLOT_VALID slot ≠ 1 → s.ctxFn ctx.val = none →
        ∃ t, exec (.ctxBind fn tag ctx func slot) s = .next t ∧ Answered s t fn.val tag 0 0 ∧ t.rdi (pgWIN func) F.WIN_SLOT_VALID slot = 1 ∧
          t.rdi (pgWIN func) F.WIN_SLOT_CTX slot = ctx.val ∧ t.ctxField F.CTXS_ENTRY_FUNC ctx.val = func ∧ t.ctxFn ctx.val = some func ∧
          SameBytes s t))) ∧
  (∀ (fn : Fin 32) (tag : Nat) (ctx : Fin 1024) (s : State), Performs s fn.val 0x04 →
    ((∀ e ∈ s.host.rings, ringCtx e.1 ≠ ctx.val) → ∀ (f : Fin 32) (k : Nat), s.ctxFn ctx.val = some f.val → s.slotOf f.val ctx.val = some k →
      ∃ t, exec (.ctxUnbind fn tag ctx) s = .next t ∧ Answered s t fn.val tag 0 0 ∧ t.rdi (pgWIN f.val) F.WIN_SLOT_VALID k = 0 ∧
        (∀ j o, j < 3 → o < 4096 → t.target { fn := f, bar2 := true, off := (4 + 3 * k + j) * 4096 + o } = .absent) ∧ SameBytes s t) ∧
    ((∃ e ∈ s.host.rings, ringCtx e.1 = ctx.val) →
      ∃ t, exec (.ctxUnbind fn tag ctx) s = .next t ∧ Answered s t fn.val tag stFAULT 0 ∧ t.regs = s.regs)) ∧
  (∀ (fn : Fin 32) (tag : Nat) (ctx : Fin 1024) (func slot : Nat) (s : State), s.ready = true → s.holding fn.val = false → fn.val ≠ 0 →
    (∃ t, exec (.ctxBind fn tag ctx func slot) s = .next t ∧ Answered s t fn.val tag stDENIED 0 ∧ t.regs = s.regs) ∧
    (∃ t, exec (.ctxUnbind fn tag ctx) s = .next t ∧ Answered s t fn.val tag stDENIED 0 ∧ t.regs = s.regs))

/-- R481, R485: RING_CREATE and RING_DESTROY; the poll of a command ring takes the commands up to PROD and tells CONS; a completed command's response
is written to its ring. The readings of the spec that this rests on are the model's own, assumption log 11, 83. -/
def Obligations.CommandRings : Prop :=
  (∀ (fn : Fin 32) (tag : Nat) (ctx : Fin 1024) (num addr log2 cq vec ithresh itimeUs : Nat) (s : State), Performs s fn.val 0x38 →
    s.boundTo fn.val ctx.val = true → s.ring (ctx.val * 8 + num) = none → 6 ≤ log2 → log2 ≤ 16 → addr % 64 = 0 →
    (num < 4 → 4 ≤ cq → cq < 8 → (s.ring (ctx.val * 8 + cq)).isSome = true →
      ∃ t, exec (.ringCreate fn tag ctx num addr log2 cq vec ithresh itimeUs) s = .next t ∧ Answered s t fn.val tag 0 num ∧
        t.ring (ctx.val * 8 + num) = some { fn := fn.val, addr := addr, log2 := log2, cq := cq, idx := s.hostRead (addr + 32) 4,
                                            peer := s.hostRead (addr + 32) 4 } ∧
        (∀ i, i ≠ ctx.val * 8 + num → t.ring i = s.ring i) ∧ SameBytes s t) ∧
    (4 ≤ num → num < 8 → vec ≠ 0 → (fn.val = 0 → vec ≠ 1) → vec < vectorsOf fn.val → 1 ≤ ithresh → ithresh ≤ 255 → itimeUs ≤ 1000 →
      ∃ t, exec (.ringCreate fn tag ctx num addr log2 cq vec ithresh itimeUs) s = .next t ∧ Answered s t fn.val tag 0 num ∧
        t.ring (ctx.val * 8 + num) = some { fn := fn.val, addr := addr, log2 := log2, vec := vec, ithresh := ithresh, itimeUs := itimeUs,
                                            idx := s.hostRead addr 4, peer := s.hostRead (addr + 32) 4 } ∧ SameBytes s t)) ∧
  (∀ (fn : Fin 32) (tag : Nat) (ctx : Fin 1024) (num : Nat) (s : State), Performs s fn.val 0x39 → s.boundTo fn.val ctx.val = true → num < 8 →
    (s.ring (ctx.val * 8 + num)).isSome = true → (4 ≤ num → s.ringNamed (ctx.val * 8 + num) = false) →
    ∃ t, exec (.ringDestroy fn tag ctx num) s = .next t ∧ Answered s t fn.val tag 0 0 ∧ t.ring (ctx.val * 8 + num) = none ∧
      (∀ i, i ≠ ctx.val * 8 + num → t.ring i = s.ring i) ∧ SameBytes s t) ∧
  (∀ (fn : Fin 32) (s : State) (n p : Nat), s.ready = true → s.linkUp = true → s.on (pgWIN fn.val) F.WIN_CMDQ_EN = true →
    nget s.host.cmdFault fn.val = 0 → nget s.host.pollClk fn.val ≤ s.now → p = s.hostRead (s.cmdBase fn.val) 4 →
    n = idxDist p (nget s.host.cmdCons fn.val) →
    (∃ t, exec (.cmdRingPoll fn false) s = .next t ∧ Raised t pgHOST 3 ∧ t.ctr pgHOST 0x054 = s.ctr pgHOST 0x054 + 1 ∧
      t.host.taken = s.host.taken ∧ SameBytes s t) ∧
    (indexBad (s.cmdSize fn.val) (nget s.host.cmdProd fn.val) p (nget s.host.cmdCons fn.val) = true →
      ∃ t, exec (.cmdRingPoll fn true) s = .next t ∧ nget t.host.cmdFault fn.val = 1 ∧ Raised t pgINTAKE 0 ∧ t.host.taken = s.host.taken) ∧
    (∀ a : Nat → Nat, indexBad (s.cmdSize fn.val) (nget s.host.cmdProd fn.val) p (nget s.host.cmdCons fn.val) = false →
      (∀ i, a i = s.cmdBase fn.val + 64 + 64 * ((nget s.host.cmdCons fn.val + i) % 2 ^ 32 % s.cmdSize fn.val)) →
      (∀ i, i < n → knownOp (s.hostRead (a i) 2) = true ∧ s.hostRead (a i + 2) 2 = 0 ∧ s.hostRead (a i + 8) 8 = 0) →
      (∀ e ∈ s.host.taken, e.1 = fn.val → e.2.2 ≠ opBad) →
      ∃ t, exec (.cmdRingPoll fn true) s = .next t ∧ nget t.host.cmdCons fn.val = p ∧ nget t.host.cmdProd fn.val = p ∧
        t.host.taken = s.host.taken ++ (List.range n).map (fun i => (fn.val, s.hostRead (a i + 4) 4, s.hostRead (a i) 2)) ∧
        t.hostRead (s.cmdBase fn.val + 32) 4 = p ∧ t.host.resps = s.host.resps)) ∧
  (∀ (fn : Fin 32) (s : State) (r : Resp) (p : Nat), (s.host.resps.find? fun r => r.fn == fn.val) = some r → s.linkUp = true →
    s.on (pgWIN fn.val) F.WIN_CMDQ_EN = true → s.respFull fn.val = false → p = nget s.host.respProd fn.val →
    ∃ t, exec (.commandResponse fn) s = .next t ∧ nget t.host.respProd fn.val = (p + 1) % 2 ^ 32 ∧
      t.hostRead (s.respBase fn.val) 4 = (p + 1) % 2 ^ 32 ∧
      ∀ i, i < 32 → bget t.host.mem (s.respBase fn.val - 32 * s.cmdSize fn.val + 32 * (p % s.cmdSize fn.val) + i) =
        BitVec.ofNat 8 ((entryBytes r.status 2 0 0 r.tag 0x8000 r.result 0 s.tick 0).getD i 0))

/-- R486, R490–R492, R494: a poll reads an intake ring up to its PROD and tells CONS; the completion writer writes the next completion whose ring has
room and advances PROD; a blocked ring whose consumer has moved goes on; a coalesced message goes when its time is up. The readings of the spec that
this rests on are the model's own, assumption log 82, 116. -/
def Obligations.IntakeAndCompletions : Prop :=
  (∀ (inp : IntakeIn) (s : State) (id : Nat) (r : Ring), s.ready = true → s.linkUp = true → (s.tb.st = .idle ∨ s.tb.st = .acquiring) →
    nget s.host.pollClk 40 ≤ s.now → s.ctxs.finals = [] → s.ringsOf [0, 1, 2, 3] = [id] → s.ctxOpen (ringCtx id) = true → s.ring id = some r →
    id ∉ inp.failed → indexBad (2 ^ r.log2) r.peer (s.hostRead r.addr 4) r.idx = false → idxDist (s.hostRead r.addr 4) r.idx = 0 →
    ∃ t y, exec (.intakePoll inp) s = .next t ∧ t.ring id = some y ∧ y.peer = s.hostRead r.addr 4 ∧ y.idx = r.idx % 2 ^ 32 ∧ y.readFails = 0 ∧
      t.hostRead (r.addr + 32) 4 = r.idx % 2 ^ 32 ∧ t.ctr pgINTAKE 0x04C = s.ctr pgINTAKE 0x04C + 1 ∧ t.rqt = s.rqt ∧
      nget t.host.pollClk 40 = s.now + clkUs * s.rd pgHOST F.HOST_POLL_US) ∧
  (∀ (inp : IntakeIn) (s : State) (id : Nat) (r : Ring) (e : InEntry), s.ready = true → s.linkUp = true → (s.tb.st = .idle ∨ s.tb.st = .acquiring) →
    nget s.host.pollClk 40 ≤ s.now → s.ctxs.finals = [] → s.ringsOf [0, 1, 2, 3] = [id] → s.ctxOpen (ringCtx id) = true → s.ring id = some r →
    id ∉ inp.failed → indexBad (2 ^ r.log2) r.peer (s.hostRead r.addr 4) r.idx = false → idxDist (s.hostRead r.addr 4) r.idx = 1 →
    0 < s.rd pgINTAKE F.INTAKE_MAX → r.idx < 2 ^ 32 → e = s.inEntry (r.addr + 64 + 64 * (r.idx % 2 ^ r.log2)) →
    (e.op ≠ 1 ∧ e.op ≠ 2) ∨ e.bad = true →
    ∃ t y c, exec (.intakePoll inp) s = .next t ∧ t.ring id = some y ∧ y.idx = (r.idx + 1) % 2 ^ 32 ∧ t.hostRead (r.addr + 32) 4 = (r.idx + 1) % 2 ^ 32 ∧
      t.rqt.outQ = s.rqt.outQ ++ [c] ∧ c.status = stFAULT ∧ c.kind = 1 ∧ c.idx = none ∧ c.cookie = e.cookie ∧
      t.ctr pgINTAKE 0x054 = s.ctr pgINTAKE 0x054 + 1 ∧ t.ctr pgINTAKE 0x058 = s.ctr pgINTAKE 0x058 + 1) ∧
  (∀ (s : State) (c : Compl), s.linkUp = true → s.nextCompl = some c →
    (s.ring c.ring = none → ∃ t, exec .completionWrite s = .next t ∧ t.rqt.outQ = s.rqt.outQ.erase c ∧ SameBytes s t) ∧
    (∀ r, s.ring c.ring = some r → r.faulted = false → idxDist r.idx r.peer < 2 ^ r.log2 → c.dl = none →
      ∃ t y, exec .completionWrite s = .next t ∧ t.rqt.outQ = s.rqt.outQ.erase c ∧ t.ring c.ring = some y ∧ y.idx = (r.idx + 1) % 2 ^ 32 ∧
        t.ctr pgINTAKE 0x060 = s.ctr pgINTAKE 0x060 + 1 ∧ t.hostRead r.addr 4 = (r.idx + 1) % 2 ^ 32 ∧
        ∀ i, i < 32 → bget t.host.mem (r.addr + 64 + 32 * (r.idx % 2 ^ r.log2) + i) =
          BitVec.ofNat 8 ((entryBytes c.status c.kind c.tokens.length c.ending c.cookie (match c.idx with
            | some i => i % 8192
            | none => 0x8000) c.genCount c.hint s.tick c.deliv).getD i 0))) ∧
  (∀ (id : Nat) (s : State) (r : Ring) (p : Nat), s.ring id = some r → r.blocked = true → s.linkUp = true →
    nget s.host.pollClk (64 + id) ≤ s.now → p = s.hostRead (r.addr + 32) 4 → idxDist p r.peer < 2 ^ 31 → idxDist r.idx p ≤ 2 ^ r.log2 →
    ∃ t, exec (.cqConsPoll id) s = .next t ∧ t.ring id = some { r with peer := p, blocked := decide (idxDist r.idx p = 2 ^ r.log2) } ∧
      nget t.host.pollClk (64 + id) = s.now + clkUs * s.rd pgHOST F.HOST_POLL_US ∧ SameBytes s t) ∧
  (∀ (id : Nat) (s : State) (r : Ring), s.ring id = some r → r.cnt ≠ 0 → r.cntClk + clkUs * r.itimeUs ≤ s.now →
    ∃ t, exec (.msixItimeExpire id) s = .next t ∧ t.ring id = some { r with cnt := 0, cntClk := 0 } ∧
      (nget s.host.msixOpen (r.fn * 2048 + r.vec) ≠ 0 → s.linkUp = true → t.msgs = .msix r.fn r.vec :: s.msgs) ∧ SameBytes s t)

/-! ## Keg links, the cabinet, jobs and collective operations (R438, R501–R521) -/

/-- R438, R502–R505: flits count and date a link; the eighth failed attempt in a row, or a silence longer than LOSS_US, takes it down with its routes
and jobs; a DOWN link trains; training ends DOWN, REFUSED or UP; KEG_RETRAIN; ROUTE_SET fixes a route. The readings of the spec that this rests on are
the model's own, assumption log 86, 88. -/
def Obligations.KegLinks : Prop :=
  (∀ (link : Fin 8) (s : State), s.linkIsUp link.val = true →
    (∃ t, exec (.kegFlitReceive link true) s = .next t ∧ t.link link.val = { s.link link.val with lastFlit := s.now, fails := 0 } ∧
      t.ctr (pgKEG link.val) 0x050 = s.ctr (pgKEG link.val) 0x050 + 1 ∧ t.regs = s.regs ∧ SameBytes s t) ∧
    ((s.link link.val).fails + 1 < 8 → ∃ t, exec (.kegFlitReceive link false) s = .next t ∧
      (t.link link.val).fails = (s.link link.val).fails + 1 ∧ t.kegState link.val = s.kegState link.val ∧
      t.ctr (pgKEG link.val) 0x054 = s.ctr (pgKEG link.val) 0x054 + 1 ∧ t.ctr (pgKEG link.val) 0x058 = s.ctr (pgKEG link.val) 0x058 + 1 ∧
      SameBytes s t) ∧
    (8 ≤ (s.link link.val).fails + 1 → ∃ t, exec (.kegFlitReceive link false) s = .next t ∧ t.kegState link.val = kegDOWN ∧
      Raised t (pgKEG link.val) 1 ∧ t.ctr (pgKEG link.val) 0x05C = s.ctr (pgKEG link.val) 0x05C + 1) ∧
    ((s.link link.val).lastFlit + clkUs * s.rd (pgKEG link.val) F.KEG_LOSS_US ≤ s.now →
      ∃ t, exec (.kegLossTimeout link) s = .next t ∧ t.kegState link.val = kegDOWN ∧ Raised t (pgKEG link.val) 1 ∧
        t.ctr (pgKEG link.val) 0x05C = s.ctr (pgKEG link.val) 0x05C + 1 ∧
        (∀ m, m < 64 → s.rdi pgCAB F.CAB_ROUTE_VALID m = 1 → s.rdi pgCAB F.CAB_ROUTE_LINK m = link.val →
          (s.rdi pgCAB F.CAB_ROUTE_FIXED m = 0 → t.rdi pgCAB F.CAB_ROUTE_VALID m = 0) ∧
          (s.rdi pgCAB F.CAB_ROUTE_FIXED m = 1 → t.rdi pgCAB F.CAB_ROUTE_VALID m = 1)) ∧
        (∀ j x, s.kegJob j = some x → x.aborted = false → s.carries link.val x = true →
          t.kegJob j = some { x with aborted := true, keys := none, early := [] }) ∧ SameBytes s t)) ∧
  (∀ (link : Fin 8) (s : State), s.ready = true → s.mayTrain link.val = true → s.kegState link.val = kegDOWN →
    (s.link link.val).downClk = 0 ∨ (s.link link.val).downClk + 1000 * clkMs ≤ s.now →
    ∃ t, exec (.kegTrainStart link) s = .next t ∧ t.kegState link.val = kegTRAINING ∧ t = { s with regs := t.regs } ∧
      RegsBut s t [fkey (pgKEG link.val) F.KEG_STATE 0]) ∧
  (∀ (link : Fin 8) (s : State), s.mayTrain link.val = true → s.kegState link.val = kegTRAINING →
    (∃ t, exec (.kegTrainDone link none) s = .next t ∧ t.kegState link.val = kegDOWN ∧ (t.link link.val).downClk = s.now ∧
      RegsBut s t [fkey (pgKEG link.val) F.KEG_STATE 0] ∧ SameBytes s t) ∧
    (∀ p : KegPeer, (p.sigOk = false ∨ p.owner ≠ s.gau.ownerKey ∨ p.cab.val = s.ownIndex ∨ s.twin link.val p = true →
        ∃ t, exec (.kegTrainDone link (some p)) s = .next t ∧ t.kegState link.val = kegREFUSED ∧ Raised t (pgKEG link.val) 2 ∧ SameBytes s t) ∧
      (p.sigOk = true → p.owner = s.gau.ownerKey → p.cab.val ≠ s.ownIndex → s.twin link.val p = false →
        ∃ t, exec (.kegTrainDone link (some p)) s = .next t ∧ t.kegState link.val = kegUP ∧ Raised t (pgKEG link.val) 0 ∧
          t.rd (pgKEG link.val) F.KEG_PEER_CAB = p.cab.val ∧ t.rd (pgKEG link.val) F.KEG_PEER_LINK = p.link.val ∧
          t.rd (pgKEG link.val) F.KEG_LANES_OK = p.lanes.val ∧ nbit t.reachSet p.cab.val = true ∧ (t.link link.val).lastFlit = s.now ∧
          (s.rdi pgCAB F.CAB_ROUTE_FIXED p.cab.val ≠ 1 → t.route p.cab.val = some link.val) ∧ t.keg.indexLocked = true ∧ SameBytes s t))) ∧
  (∀ (fn : Fin 32) (tag link : Nat) (s : State), Performs s fn.val 0x62 →
    (link < 2 * s.variant.dies → s.hasUnit (pgKEG link) = true → s.hasUnit (pgDIE (link / 2)) = true →
      ∃ t, exec (.kegRetrain fn tag link) s = .next t ∧ Answered s t fn.val tag 0 0 ∧
        t.kegState link = (if s.mayTrain link = true then kegTRAINING else kegDOWN) ∧ SameBytes s t) ∧
    (2 * s.variant.dies ≤ link → ∃ t, exec (.kegRetrain fn tag link) s = .next t ∧ Answered s t fn.val tag stNOUNIT 0 ∧ t.regs = s.regs)) ∧
  (∀ (fn : Fin 32) (tag idx : Nat) (s : State), Performs s fn.val 0x61 → idx < 64 →
    (∀ l, l < 2 * s.variant.dies → ∃ t, exec (.routeSet fn tag idx (some l)) s = .next t ∧ Answered s t fn.val tag 0 0 ∧
      t.rdi pgCAB F.CAB_ROUTE_FIXED idx = 1 ∧ t.rdi pgCAB F.CAB_ROUTE_VALID idx = 1 ∧ t.rdi pgCAB F.CAB_ROUTE_LINK idx = l ∧
      (∀ m, m < 64 → m ≠ idx → t.rdi pgCAB F.CAB_ROUTE_VALID m = s.rdi pgCAB F.CAB_ROUTE_VALID m ∧
        t.rdi pgCAB F.CAB_ROUTE_LINK m = s.rdi pgCAB F.CAB_ROUTE_LINK m) ∧ SameBytes s t) ∧
    (∃ t, exec (.routeSet fn tag idx none) s = .next t ∧ Answered s t fn.val tag 0 0 ∧ t.rdi pgCAB F.CAB_ROUTE_FIXED idx = 1 ∧
      t.rdi pgCAB F.CAB_ROUTE_VALID idx = 0 ∧ t.route idx = none))

/-- R506, R511–R513, R517: beacons leave every 100 µs and confirm indexes; an index that none confirms leaves the reachable set and its jobs abort;
three marks below a majority fence the module; an epoch record is accepted, refused or fences; the index can be set until it is locked. The readings
of the spec that this rests on are the model's own, assumption log 87. -/
def Obligations.CabinetMembership : Prop :=
  (∀ s : State, s.keg.beaconClk + 100 * clkUs ≤ s.now → s.keg.silent = false →
    ∃ t, exec .beaconSend s = .next t ∧ t.keg.beaconClk = s.now ∧
      (∀ l, l < 8 → s.linkIsUp l = true → .keg l 1 [s.rd pgCAB F.CAB_EPOCH, s.membersNow, s.reachSet] ∈ t.msgs) ∧ t.regs = s.regs ∧
      SameBytes s t) ∧
  (∀ (link : Fin 8) (epoch : Word) (members reach : BitVec 64) (s : State), s.linkIsUp link.val = true →
    (∃ t, exec (.beaconReceive link true epoch members reach) s = .next t ∧ t.ctr pgCAB 0x05C = s.ctr pgCAB 0x05C + 1 ∧
      (t.link link.val).reach = reach.toNat ∧
      (∀ m, m < 64 → nbit reach.toNat m = true ∨ m = s.rd (pgKEG link.val) F.KEG_PEER_CAB → nbit t.reachSet m = true ∧ nget t.keg.conf m = s.now) ∧
      SameBytes s t) ∧
    exec (.beaconReceive link false epoch members reach) s = .next s) ∧
  (∀ (idx : Fin 64) (s : State), idx.val ≠ s.ownIndex → nbit s.reachSet idx.val = true → nget s.keg.conf idx.val + 800 * clkUs ≤ s.now →
    ∃ t, exec (.reachExpire idx) s = .next t ∧ nbit t.reachSet idx.val = false ∧
      (∀ m, m < 64 → m ≠ idx.val → nbit t.reachSet m = nbit s.reachSet m) ∧
      (∀ j x, s.kegJob j = some x → x.aborted = false → x.members.contains idx.val = true →
        t.kegJob j = some { x with aborted := true, keys := none, early := [] }) ∧ SameBytes s t) ∧
  (∀ s : State, 3 ≤ s.keg.below → s.fenced = false →
    ∃ t, exec .fenceSelf s = .next t ∧ t.fenced = true ∧ Raised t pgCAB 3 ∧ t.ctr pgCAB 0x054 = s.ctr pgCAB 0x054 + 1 ∧
      (∀ j x, s.kegJob j = some x → x.aborted = false → t.kegJob j = some { x with aborted := true, keys := none, early := [] }) ∧
      SameBytes s t) ∧
  (∀ (fn : Fin 32) (tag : Nat) (epoch : Word) (members : BitVec 64) (s : State), Performs s fn.val 0x60 →
    (nbit members.toNat s.ownIndex = true → s.rd pgCAB F.CAB_EPOCH < epoch.toNat → s.rd pgCAB F.CAB_EPOCH = 0 ∨ s.majority members.toNat = true →
      ∃ t, exec (.kegEpoch fn tag epoch members) s = .next t ∧ Answered s t fn.val tag 0 0 ∧ t.rd pgCAB F.CAB_EPOCH = epoch.toNat ∧
        t.membersNow = members.toNat ∧ t.fenced = false ∧ Raised t pgCAB 0 ∧ t.ctr pgCAB 0x04C = s.ctr pgCAB 0x04C + 1) ∧
    (nbit members.toNat s.ownIndex = false → s.rd pgCAB F.CAB_EPOCH < epoch.toNat →
      ∃ t, exec (.kegEpoch fn tag epoch members) s = .next t ∧ Answered s t fn.val tag stFAULT 0 ∧ t.fenced = true ∧
        t.rd pgCAB F.CAB_EPOCH = s.rd pgCAB F.CAB_EPOCH ∧ t.ctr pgCAB 0x050 = s.ctr pgCAB 0x050 + 1) ∧
    (epoch.toNat < s.rd pgCAB F.CAB_EPOCH →
      ∃ t, exec (.kegEpoch fn tag epoch members) s = .next t ∧ Answered s t fn.val tag stFAULT 0 ∧ t.regs = s.regs ∧
        t.ctr pgCAB 0x050 = s.ctr pgCAB 0x050 + 1) ∧
    (epoch.toNat = s.rd pgCAB F.CAB_EPOCH → epoch.toNat ≠ 0 → members.toNat ≠ s.membersNow →
      ∃ t, exec (.kegEpoch fn tag epoch members) s = .next t ∧ Answered s t fn.val tag stFAULT 0 ∧ Raised t pgCAB 1 ∧
        t.rd pgCAB F.CAB_EPOCH = s.rd pgCAB F.CAB_EPOCH)) ∧
  (∀ (fn : Fin 32) (v : Word) (s : State), s.mayWriteBlock pgCAB fn.val = true →
    (s.keg.indexLocked = false → s.locked pgCAB = false →
      ∃ t, exec (.cabIndexWrite fn v) s = .next t ∧ t.rd pgCAB F.CAB_INDEX = v.toNat % 64 ∧ t.rd pgCAB F.CAB_INDEX_VALID = v.toNat / 2 ^ 31 ∧
        t.reachSet = (if nbit v.toNat 31 = true then 2 ^ (v.toNat % 64) else 0) ∧ SameBytes s t) ∧
    (s.keg.indexLocked = true ∨ s.locked pgCAB = true →
      ∃ t, exec (.cabIndexWrite fn v) s = .next t ∧ t.rd pgCAB F.CAB_INDEX = s.rd pgCAB F.CAB_INDEX ∧ Raised t pgMOD 0 ∧ SameBytes s t))

/-- R510, R515, R517: JOB_CREATE makes a job of a stretch table and JOB_END ends it; an ABORT ends it everywhere; RWIN_BIND and RWIN_UNBIND; a remote
access leaves by its route, or fails with zeros, and one from another member is translated in the job's context. The readings of the spec that this
rests on are the model's own, assumption log 74, 90. -/
def Obligations.JobsAndRemoteWindows : Prop :=
  (∀ (fn : Fin 32) (tag : Nat) (ctx : Fin 1024) (job epoch : Word) (members : BitVec 64) (dieSet va : Nat) (s : State),
    Performs s fn.val 0x63 (vf := true) →
    (∀ st, s.jobRefused fn.val ctx.val job.toNat epoch.toNat members.toNat dieSet = some st →
      ∃ t, exec (.jobCreate fn tag ctx job epoch members dieSet va) s = .next t ∧ Answered s t fn.val tag st 0 ∧ t.keg = s.keg ∧ t.regs = s.regs) ∧
    (∀ t1 bs, s.jobRefused fn.val ctx.val job.toNat epoch.toNat members.toNat dieSet = none → va % 64 = 0 →
      (untake s fn.val tag 0x63).hubRead ctx.val va 16 = (t1, some bs) → stretchClean bs (popcount members.toNat 64) = true →
      stretchOk (stretchOf bs (popcount members.toNat 64)) members.toNat = true →
      ∃ t, exec (.jobCreate fn tag ctx job epoch members dieSet va) s = .next t ∧ Answered t1 t fn.val tag 0 0 ∧
        t.kegJob job.toNat = some { ctx := ctx.val, epoch := epoch.toNat, members := bitsSet members.toNat 64, dieSet := dieSet % 16,
                                    table := stretchOf bs (popcount members.toNat 64), keys := some t1.lp.keyNext })) ∧
  (∀ (fn : Fin 32) (tag : Nat) (job : Word) (s : State), Performs s fn.val 0x64 (vf := true) →
    (∀ x, s.kegJob job.toNat = some x → fn.val = 0 ∨ s.boundTo fn.val x.ctx = true →
      (∀ e ∈ s.steps, e.2.job ≠ some job.toNat ∨ e.2.started = false) →
      ∃ t, exec (.jobEnd fn tag job) s = .next t ∧ Answered s t fn.val tag 0 0 ∧ t.kegJob job.toNat = none ∧
        (∀ w ∈ t.keg.windows, w.2 ≠ job.toNat) ∧ SameBytes s t) ∧
    (s.kegJob job.toNat = none → ∃ t, exec (.jobEnd fn tag job) s = .next t ∧ Answered s t fn.val tag stFAULT 0 ∧ t.keg = s.keg)) ∧
  (∀ (fn : Fin 32) (tag : Nat) (ctx : Fin 1024) (job : Word) (s : State) (x : Job), s.boundTo fn.val ctx.val = true →
    s.kegJob job.toNat = some x → x.ctx = ctx.val →
    (Performs s fn.val 0x65 (vf := true) → ∃ t, exec (.rwinBind fn tag ctx job) s = .next t ∧ Answered s t fn.val tag 0 0 ∧
      (ctx.val, job.toNat) ∈ t.keg.windows ∧ t.regs = s.regs ∧ SameBytes s t) ∧
    (Performs s fn.val 0x66 (vf := true) → ∃ t, exec (.rwinUnbind fn tag ctx job) s = .next t ∧ Answered s t fn.val tag 0 0 ∧
      (ctx.val, job.toNat) ∉ t.keg.windows ∧ t.regs = s.regs ∧ SameBytes s t)) ∧
  (∀ (link : Fin 8) (job : Nat) (s : State) (x : Job), s.linkIsUp link.val = true → s.kegJob job = some x → x.aborted = false →
    ∃ t, exec (.abortReceive link job) s = .next t ∧ t.kegJob job = some { x with aborted := true, keys := none, early := [] } ∧
      (∀ n ∈ bitsSet x.dieSet 4, Raised t (pgCOL n) 2) ∧ (∀ e ∈ t.keg.ops, e.2.job ≠ job) ∧ SameBytes s t) ∧
  (∀ (job : Nat) (ctx : Fin 1024) (va : Nat) (back : RemoteOut) (o : LineOut) (s : State), s.isLocalVa va = false →
    (∀ data, s.remoteJob ctx.val (bits va 42 6) = none →
      ∃ t, exec (.remoteAccess false job ctx va data none back o) s = .next t ∧ t.lp.line = List.replicate 64 0 ∧ t.lp.lineHow = 3 ∧
        Raised t (pgCEV ctx.val) 10 ∧ SameBytes s t) ∧
    (∀ j x l, s.remoteJob ctx.val (bits va 42 6) = some (j, x) → s.fenced = false → s.keg.silent = false → x.aborted = false →
      s.route (bits va 42 6) = some l → back.code = 0 → back.bad = false →
      ∃ t, exec (.remoteAccess false job ctx va none none back o) s = .next t ∧ .keg l 5 [bits va 42 6, va] ∈ t.msgs ∧
        t.lp.line = (List.range 64).map (fun i => (back.data.getD i 0).toNat) ∧ t.lp.lineHow = 0 ∧ SameBytes s t)) ∧
  (∀ (job : Nat) (ctx : Fin 1024) (va : Nat) (back : RemoteOut) (o : LineOut) (s t1 : State) (x : Job) (bs : List Nat) (how : Nat),
    s.isLocalVa va = true → s.kegJob job = some x → x.aborted = false → s.fenced = false →
    s.ctxRead (s.vaDie x.ctx va) x.ctx va false o none = (t1, bs, how) →
    exec (.remoteAccess true job ctx va none none back o) s = .next { t1 with msgs := .reply 6 (how :: bs) :: t1.msgs })

/-- R507–R509: an armed operation starts when its take is satisfied, one out of order aborts its job; a record with a bad tag takes its link down, one
for another module is forwarded, one ahead of its operation waits, one out of order aborts the job; the end of an operation; a RERUN ends this
member's run, and a second one aborts. The readings of the spec that this rests on are the model's own, assumption log 41, 89, 91, 92. -/
def Obligations.CollectiveOperations : Prop :=
  (∀ (op heads dim : Nat) (wide : Bool) (s : State) (o : CollOp) (j : Job), s.collOp op = some o → o.phase = 0 →
    (s.spl.rels.any fun r => r.1 == .coll o.die op) = true → s.kegJob o.job = some j → j.aborted = false →
    (o.seq = j.seqs.getD o.die 0 → o.op = 3 → o.root ≠ s.ownIndex → j.members.contains o.root = true → o.filled < o.bytes → j.early = [] →
      ∃ t, exec (.collOpStart op heads dim wide) s = .next t ∧ t.collOp op = some { o with phase := 1 } ∧
        t.spl.rels = (s.spl.rels.filter fun r => r.1 != .coll o.die op) ∧ t.kegJob o.job = some j ∧ SameBytes s t) ∧
    (o.seq ≠ j.seqs.getD o.die 0 →
      ∃ t, exec (.collOpStart op heads dim wide) s = .next t ∧ Raised t (pgCOL o.die) 0 ∧
        t.kegJob o.job = some { j with aborted := true, keys := none, early := [] } ∧ SameBytes s t)) ∧
  (∀ (link : Fin 8) (bad : Bool) (r : CollRec) (s : State), s.linkIsUp link.val = true → s.fenced = false →
    (∃ t, exec (.collRecordReceive link false bad r) s = .next t ∧ t.kegState link.val = kegDOWN ∧ Raised t (pgKEG link.val) 4 ∧ SameBytes s t) ∧
    (∀ k, r.dst ≠ s.ownIndex → r.hops ≠ 0 → s.route r.dst = some k → s.keg.silent = false →
      ∃ t, exec (.collRecordReceive link true bad r) s = .next t ∧ .keg k 2 (recLine { r with hops := r.hops - 1 }) ∈ t.msgs ∧
        t.ctr (pgKEG k) 0x068 = s.ctr (pgKEG k) 0x068 + 1 ∧ t = { s with ctrs := t.ctrs, msgs := t.msgs }) ∧
    (∀ j, r.dst = s.ownIndex → s.kegJob r.job = some j → j.aborted = false →
      (r.seq = j.seqs.getD r.die 0 → (∀ e ∈ s.keg.ops, ¬ (e.2.job = r.job ∧ e.2.seq = r.seq ∧ e.2.die = r.die)) →
        ∃ t, exec (.collRecordReceive link true bad r) s = .next t ∧ t.kegJob r.job = some { j with early := j.early ++ [r] } ∧
          t = { s with keg := t.keg }) ∧
      (r.seq ≠ j.seqs.getD r.die 0 →
        ∃ t, exec (.collRecordReceive link true bad r) s = .next t ∧ Raised t (pgCOL r.die) 0 ∧
          t.kegJob r.job = some { j with aborted := true, keys := none, early := [] } ∧ SameBytes s t))) ∧
  (∀ (op : Nat) (s : State) (o : CollOp), s.collOp op = some o → o.phase = 2 →
    ∃ t, exec (.collOpDone op) s = .next t ∧ t.collOp op = none ∧ t.ctr (pgCOL o.die) 0x04C = s.ctr (pgCOL o.die) 0x04C + 1 ∧ SameBytes s t) ∧
  (∀ (link : Fin 8) (job seq id : Nat) (s : State) (j : Job) (st : Step), s.linkIsUp link.val = true → s.kegJob job = some j → j.aborted = false →
    s.stepOfColl job seq = some id → s.step1 id = some st →
    (st.reruns = 0 → st.status = 0 →
      ∃ t, exec (.rerunReceive link job seq) s = .next t ∧ t.step1 id = some { st with reruns := 1, draining := true } ∧
        (∀ n ∈ bitsSet j.dieSet 4, Raised t (pgCOL n) 1) ∧ SameBytes s t) ∧
    (1 ≤ st.reruns → ∃ t, exec (.rerunReceive link job seq) s = .next t ∧
      t.kegJob job = some { j with aborted := true, keys := none, early := [] } ∧ SameBytes s t))

/-! ## Power, heat, management and start-up (R19, R522–R548) -/

/-- R524–R530: a sample enters PWR.VIN_MV and PWR.IIN_MA and the interval; a supply out of its limits for its time raises its event, sheds or switches
off; PWR_WARN_N sheds, and the shed ends; an interval's average moves the governor by 1/64. The readings of the spec that this rests on are the
model's own, assumption log 104. -/
def Obligations.SupplyAndGovernor : Prop :=
  (∀ (mv ma : Nat) (s : State), s.pwr.standbyOff = false →
    (10800 ≤ mv → mv ≤ 13200 →
      ∃ t, exec (.supplySample mv ma) s = .next t ∧ t.rd pgPOWER F.PWR_VIN_MV = mv ∧ t.rd pgPOWER F.PWR_IIN_MA = ma % 2 ^ 17 ∧
        t.pwr.sum = s.pwr.sum + mv * ma ∧ t.pwr.n = s.pwr.n + 1 ∧
        RegsBut s t [fkey pgPOWER F.PWR_VIN_MV 0, fkey pgPOWER F.PWR_IIN_MA 0, fkey pgPOWER F.PWR_STATUS_C0_OK 0] ∧ SameBytes s t) ∧
    (∀ c, 9600 ≤ mv → mv < 10800 → s.pwr.lowClk = some c → c + 100 * clkUs ≤ s.now → s.pwr.lowTold = false → s.pwr.mainOff = false →
      ∃ t, exec (.supplySample mv ma) s = .next t ∧ Raised t pgPOWER 0 ∧ (s.pulled = false → t.shedding = true) ∧ t.pwr.mainOff = false ∧
        SameBytes s t) ∧
    (∀ c, 13200 < mv → mv ≤ 14500 → s.pwr.highClk = some c → c + 100 * clkUs ≤ s.now → s.pwr.highTold = false →
      ∃ t, exec (.supplySample mv ma) s = .next t ∧ Raised t pgPOWER 1 ∧ t.pwr.mainOff = s.pwr.mainOff ∧ SameBytes s t) ∧
    (∀ c, mv < 9600 ∨ 14500 < mv → s.pwr.outClk = some c → c + 20 * clkUs ≤ s.now →
      ∃ t, exec (.supplySample mv ma) s = .next t ∧ t.pwr.mainOff = true ∧ t.pwr.standbyOff = true)) ∧
  (∀ s : State, s.pwr.standbyOff = false → s.shedding = false → s.pulled = false →
    ∃ t, exec .pwrWarnLow s = .next t ∧ t.shedding = true ∧ t.pwr.warnLow = true ∧ t.pwr.ballast = false ∧ Raised t pgPOWER 2 ∧
      t.ctr pgPOWER 0x054 = s.ctr pgPOWER 0x054 + 1 ∧ SameBytes s t) ∧
  (∀ s : State, s.shedding = true → s.pulled = false →
    (s.pwr.supShed = false ∨ (∃ c, s.pwr.okClk = some c ∧ c + 10 * clkMs ≤ s.now) →
      ∃ t, exec .shedEnd s = .next t ∧ t.shedding = false ∧ t.pwr.warnLow = false ∧ Raised t pgPOWER 3 ∧ SameBytes s t) ∧
    (s.pwr.supShed = true → s.pwr.okClk = none →
      exec .shedEnd s = .next { s with pwr := { s.pwr with warnLow := false } })) ∧
  (∀ s : State, s.pwr.standbyOff = false → s.pwr.n ≠ 0 →
    ∃ t, exec .powerInterval s = .next t ∧ t.pwr.sum = 0 ∧ t.pwr.n = 0 ∧ t.pwr.avg = s.pwr.sum / s.pwr.n ∧
      t.rd pgPOWER F.PWR_PIN_W = s.pwr.sum / s.pwr.n / 1000000 % 2 ^ 10 ∧
      t.ctr pgPOWER 0x04C = s.ctr pgPOWER 0x04C + (s.pwr.energy + s.pwr.sum / s.pwr.n) / 10 ^ 10 ∧
      (s.pulled = false → s.pwr.mainOff = false → s.shedding = false → s.rd pgPOWER F.PWR_IDLE_64 ≤ 63 →
        (s.pwr.avg + s.rd pgPOWER F.PWR_RAMP_W_PER_MS * 100000 < s.pwr.sum / s.pwr.n ∨
            s.rd pgPOWER F.PWR_CEILING_W * 1000000 < s.pwr.sum / s.pwr.n →
          t.rd pgPOWER F.PWR_IDLE_64 = min 63 (s.rd pgPOWER F.PWR_IDLE_64 + 1)) ∧
        (s.pwr.sum / s.pwr.n ≤ s.pwr.avg + s.rd pgPOWER F.PWR_RAMP_W_PER_MS * 100000 →
            s.pwr.sum / s.pwr.n ≤ s.rd pgPOWER F.PWR_CEILING_W * 1000000 →
          t.rd pgPOWER F.PWR_IDLE_64 = s.rd pgPOWER F.PWR_IDLE_64 - 1)) ∧ SameBytes s t)

/-- R531–R534: sensors show what they read and the hottest junction moves the thermal loop; 115 °C in two samples trips the module; coolant alarms,
the alert contact and the orphan cap. The readings of the spec that this rests on are the model's own, assumption log 105, 106. -/
def Obligations.HeatAndCaps : Prop :=
  (∀ (js : List Int) (inlet outlet : Int) (s : State), s.pwr.standbyOff = false →
    ∃ t, exec (.thermalSample js inlet outlet) s = .next t ∧
      (∀ i c, (i, c) ∈ s.junctions js → 0 ≤ c → t.rdi pgTHERMAL F.THM_SENSOR_C i = c.toNat) ∧
      t.rd pgTHERMAL F.THM_STATUS_COOLANT_OK = (if 15 ≤ inlet ∧ inlet ≤ 45 then 1 else 0) ∧
      (∀ i c, (i, c) ∈ s.junctions js → 115 ≤ c → i ∈ s.pwr.hot → t.pwr.tripDue = true) ∧
      (∀ i c, hottest (s.junctions js) = some (i, c) → s.pwr.mainOff = false → s.rd pgTHERMAL F.THM_IDLE_64 ≤ 63 →
        ((s.rd pgTHERMAL F.THM_THROTTLE_C : Int) ≤ c →
          t.rd pgTHERMAL F.THM_IDLE_64 = min 63 (s.rd pgTHERMAL F.THM_IDLE_64 + 1) ∧ t.rd pgTHERMAL F.THM_STATUS_THROTTLING = 1) ∧
        (c ≤ (s.rd pgTHERMAL F.THM_THROTTLE_C : Int) - 3 → t.rd pgTHERMAL F.THM_IDLE_64 = s.rd pgTHERMAL F.THM_IDLE_64 - 1) ∧
        ((s.rd pgTHERMAL F.THM_THROTTLE_C : Int) - 3 < c → c < (s.rd pgTHERMAL F.THM_THROTTLE_C : Int) →
          t.rd pgTHERMAL F.THM_IDLE_64 = s.rd pgTHERMAL F.THM_IDLE_64))) ∧
  (∀ s : State, s.pwr.tripDue = true → s.pwr.mainOff = false →
    ∃ t, exec .thermalTrip s = .next t ∧ t.pwr.mainOff = true ∧ t.pwr.off = 4 ∧ t.pwr.tripped = true ∧ t.pwr.tripDue = false ∧ t.lp.keys = [] ∧
      t.keg.jobs = [] ∧ t.fw.bootLog = 3 :: s.fw.bootLog) ∧
  (∀ (s : State) (c : Nat), c + clkS ≤ s.now →
    (s.pwr.warmClk = some c → s.pwr.warmTold = false →
      ∃ t, exec .coolantAlarm s = .next t ∧ t.pwr = { s.pwr with warmTold := true } ∧ Raised t pgTHERMAL 2 ∧ SameBytes s t) ∧
    (s.pwr.coldClk = some c → s.pwr.coldTold = false → s.pwr.warmClk = none →
      ∃ t, exec .coolantAlarm s = .next t ∧ t.pwr = { s.pwr with coldTold := true } ∧ Raised t pgTHERMAL 3 ∧ SameBytes s t)) ∧
  (∀ s : State, s.pwr.standbyOff = false →
    (s.on pgTHERMAL F.THM_STATUS_ALERT_IN = false → ∃ t, exec .thermAlertLow s = .next t ∧ t.rd pgTHERMAL F.THM_STATUS_ALERT_IN = 1 ∧
      t.rd pgPOWER F.PWR_STATUS_ALERT_CAP = 1 ∧ Raised t pgTHERMAL 4 ∧ t.rd pgPOWER F.PWR_CEILING_W = t.ceiling % 2 ^ 10 ∧ SameBytes s t) ∧
    (∃ t, exec .thermAlertClear s = .next t ∧ t.rd pgTHERMAL F.THM_STATUS_ALERT_IN = 0 ∧ t.rd pgPOWER F.PWR_STATUS_ALERT_CAP = 0 ∧
      t.rd pgPOWER F.PWR_CEILING_W = t.ceiling % 2 ^ 10 ∧
      RegsBut s t [fkey pgTHERMAL F.THM_STATUS_ALERT_IN 0, fkey pgPOWER F.PWR_STATUS_ALERT_CAP 0, fkey pgPOWER F.PWR_CEILING_W 0] ∧ SameBytes s t)) ∧
  (∀ s : State, s.pwr.standbyOff = false → s.ready = true → s.on pgMGMT F.MGMT_HB_REQUIRED = true → s.on pgPOWER F.PWR_STATUS_ORPHAN = false →
    s.pwr.hbClk + s.rd pgMGMT F.MGMT_HB_LIMIT_S * clkS ≤ s.now →
    ∃ t, exec .orphanTimeout s = .next t ∧ t.rd pgPOWER F.PWR_STATUS_ORPHAN = 1 ∧ Raised t pgMGMT 0 ∧ Raised t pgPOWER 4 ∧
      t.rd pgPOWER F.PWR_CEILING_W = t.ceiling % 2 ^ 10 ∧ SameBytes s t)

/-- R534, R535: what the management interface answers to each MCTP control and PLDM command; the codes and opaque values are the model's own
(assumption log 53). -/
def Obligations.ManagementAnswers : Prop :=
  ∀ s : State, s.pwr.standbyOff = false →
    (∀ eid : Byte, ∃ t, exec (.mctpSetEndpointId eid) s = .next t ∧ t.pwr = { s.pwr with eid := eid.toNat } ∧ MctpSaid s t [1, 0, eid.toNat]) ∧
    (∃ t, exec .mctpGetEndpointId s = .next t ∧ MctpSaid s t [2, 0, s.pwr.eid] ∧ t.pwr = s.pwr) ∧
    (∀ type, ∃ t, exec (.mctpGetVersionSupport type) s = .next t ∧ t.pwr = s.pwr ∧
      MctpSaid s t (if type ≤ 1 then [4, 0, Config.digest 20 [type]] else [4, 0x80])) ∧
    (∃ t, exec .mctpGetMessageTypeSupport s = .next t ∧ MctpSaid s t [5, 0, 0, 1] ∧ t.pwr = s.pwr) ∧
    (∀ type, 1 < type → ∃ t, exec (.mctpDrop type) s = .next t ∧ Raised t pgMGMT 2 ∧ t.ctr pgMGMT 0x04C = s.ctr pgMGMT 0x04C + 1 ∧
      t.ctr pgMGMT 0x050 = s.ctr pgMGMT 0x050 + 1 ∧ t.pwr = s.pwr ∧ SameBytes s t) ∧
    (∃ t, exec .pldmGetTid s = .next t ∧ PldmSaid s t 0 2 0 [Config.digest 21 []] ∧ t.pwr = s.pwr) ∧
    (∀ type, (type ∈ pldmTypes → ∃ t, exec (.pldmGetPldmVersion type) s = .next t ∧ PldmSaid s t 0 3 0 [Config.digest 22 [type]] ∧ t.pwr = s.pwr) ∧
      (type ∉ pldmTypes → ∃ t, exec (.pldmGetPldmVersion type) s = .next t ∧ PldmSaid s t 0 3 0x83 [] ∧ t.pwr = s.pwr) ∧
      (type ∈ pldmTypes → ∃ t, exec (.pldmGetPldmCommands type) s = .next t ∧ PldmSaid s t 0 5 0 (pldmCommands type) ∧ t.pwr = s.pwr) ∧
      (type ∉ pldmTypes → ∃ t, exec (.pldmGetPldmCommands type) s = .next t ∧ PldmSaid s t 0 5 0x83 [] ∧ t.pwr = s.pwr)) ∧
    (∃ t, exec .pldmGetPldmTypes s = .next t ∧ PldmSaid s t 0 4 0 [0, 2, 4] ∧ t.pwr = s.pwr) ∧
    (∀ handle, ∃ t, exec (.pldmGetPdr handle) s = .next t ∧ PldmSaid s t 2 0x51 0 [handle, Config.digest 23 [handle]] ∧ t.pwr = s.pwr) ∧
    (∀ x : NumSensor, ∃ t, exec (.pldmGetSensorReading x) s = .next t ∧ PldmSaid s t 2 0x11 0 [s.numSensor x] ∧ t.pwr = s.pwr) ∧
    (∀ x : StateSensor, ∃ t, exec (.pldmGetStateSensorReadings x) s = .next t ∧ PldmSaid s t 2 0x21 0 [s.stateSensor x] ∧ t.pwr = s.pwr) ∧
    (∀ v : Word, (s.keg.indexLocked = false → s.pwr.mainOff = false →
        ∃ t, exec (.pldmSetNumericEffecterValue v) s = .next t ∧ t.rd pgCAB F.CAB_INDEX = v.toNat % 64 ∧ t.rd pgCAB F.CAB_INDEX_VALID = 1 ∧
          t.msgs = .reply 21 [2, 0x31, 0] :: s.msgs ∧ SameBytes s t) ∧
      (s.keg.indexLocked = true ∨ s.pwr.mainOff = true →
        ∃ t, exec (.pldmSetNumericEffecterValue v) s = .next t ∧ PldmSaid s t 2 0x31 2 [] ∧ t.pwr = s.pwr)) ∧
    (∃ t, exec .pldmSetStateEffecterStates s = .next t ∧ t.pwr = { s.pwr with hbClk := s.now } ∧ t.on pgPOWER F.PWR_STATUS_ORPHAN = false ∧
      .reply 21 [2, 0x39, 0] ∈ t.msgs ∧ t.ctr pgMGMT 0x058 = s.ctr pgMGMT 0x058 + 1 ∧
      (s.on pgPOWER F.PWR_STATUS_ORPHAN = true → Raised t pgMGMT 1) ∧ SameBytes s t) ∧
    ((∀ i, s.platformEvent = some i → ∃ t, exec .pldmPollPlatformEvent s = .next t ∧ PldmSaid s t 2 0x0B 0 [1, i, s.sensorStates.getD i 0] ∧
        t.pwr.told.getD i 0 = s.sensorStates.getD i 0) ∧
      (s.platformEvent = none → ∃ t, exec .pldmPollPlatformEvent s = .next t ∧ PldmSaid s t 2 0x0B 0 [0] ∧ t.pwr = s.pwr)) ∧
    (∃ t, exec .pldmGetFruRecordTable s = .next t ∧ t.pwr = s.pwr ∧
      PldmSaid s t 4 2 0 [Config.digest 24 [Variant.code s.variant], Variant.code s.variant, Config.digest 25 []]) ∧
    (∀ type cmd, (pldmCommands type).contains cmd = false → ∃ t, exec (.pldmUnsupported type cmd) s = .next t ∧
      t = { s with ctrs := t.ctrs, msgs := .reply 21 [type, cmd, 5] :: s.msgs } ∧ t.ctr pgMGMT 0x04C = s.ctr pgMGMT 0x04C + 1 ∧
      t.ctr pgMGMT 0x054 = s.ctr pgMGMT 0x054)

/-- R525, R532, R536, R538, R539, R545: a pull destroys every key and aborts every job; the mate contacts; the main regulators start; POWER-ON, MODULE
and HOST resets leave what the spec says. The readings of the spec that this rests on are the model's own, assumption log 108, 109, 111. -/
def Obligations.PullsAndResets : Prop :=
  (∀ s : State, s.pwr.standbyOff = false → s.pwr.earlyHigh = false →
    (s.pwr.mainOff = false → ∃ t, exec .pull s = .next t ∧ t.pulled = true ∧ Raised t pgPOWER 7 ∧ t.lp.keys = [] ∧ t.drbg = [] ∧ t.keg.silent = true ∧
      t.pwr.earlyHigh = true ∧ t.rd pgMGMT F.MGMT_MATE = 1 + 2 * (if s.pwr.lateHigh = true then 1 else 0) ∧
      (∀ j x, s.kegJob j = some x → ∃ y, t.kegJob j = some y ∧ y.aborted = true ∧ y.keys = none)) ∧
    (s.pwr.mainOff = true → ∃ t, exec .pull s = .next t ∧ t.pwr.earlyHigh = true ∧ t.rd pgMGMT F.MGMT_MATE = 1 + 2 * (if s.pwr.lateHigh = true then 1 else 0) ∧
      RegsBut s t [fkey pgMGMT F.MGMT_MATE 0])) ∧
  (∀ s : State, s.pwr.standbyOff = false → s.pwr.earlyHigh = true →
    ∃ t, exec .mateEarlyReturn s = .next t ∧ t.pwr.earlyHigh = false ∧ t.pwr.earlyClk = (if s.pwr.lateHigh = true then none else some s.now) ∧
      t.rd pgMGMT F.MGMT_MATE = 2 * (if s.pwr.lateHigh = true then 1 else 0) ∧ RegsBut s t [fkey pgMGMT F.MGMT_MATE 0] ∧ SameBytes s t) ∧
  (∀ s : State, s.pwr.standbyOff = false → s.pwr.lateHigh = false → s.pwr.mainOff = false →
    ∃ t, exec .mateLateBreak s = .next t ∧ t.pwr.mainOff = true ∧ t.pwr.lateHigh = true ∧ t.pwr.off = 3 ∧ t.vats = [] ∧ t.steps = [] ∧ t.lp.mem = []) ∧
  (∀ (recover : Bool) (s : State), s.mayStart = true →
    ∃ t, exec (.regulatorStart recover) s = .next t ∧ t.pwr.mainOff = false ∧ t.startPhase = 1 ∧ t.gau.bootCount = s.gau.bootCount + 1 ∧
      t.start.recover = recover ∧ (s.pwr.off = 3 ∨ s.pwr.off = 4 → t.rd pgMOD F.MOD_RESET_CAUSE = s.pwr.off ∧ t.start.kind = 1)) ∧
  (∀ s : State, s.pwr.off ≤ 4 → ∃ t, exec .powerOnReset s = .next t ∧ t.pwr.mainOff = true ∧ t.pwr.standbyOff = false ∧
    t.rd pgMOD F.MOD_RESET_CAUSE = s.pwr.off ∧ t.start.kind = 1 ∧ t.lp.mem = [] ∧ t.vstore = [] ∧ t.fstore = [] ∧ t.steps = [] ∧
    t.gau.ownerKey = s.gau.ownerKey ∧ t.gau.ownerSeq = s.gau.ownerSeq) ∧
  (∀ (recover : Bool) (s : State), s.pwr.standbyOff = false →
    (∃ t, exec (.moduleReset false recover) s = .next t ∧ t.start.modLow = true ∧ t.start.kind = 2 ∧ t.rd pgMOD F.MOD_RESET_CAUSE = 1 ∧
      t.lp.keys = [] ∧ t.lp.mem = [] ∧ t.keg.jobs = [] ∧ t.gau.ownerKey = s.gau.ownerKey) ∧
    (s.pulled = true → s.pwr.mainOff = false → ∀ c, s.pwr.earlyClk = some c → c + 50 * clkMs ≤ s.now →
      ∃ t, exec (.moduleReset true recover) s = .next t ∧ t.rd pgMOD F.MOD_RESET_CAUSE = 2 ∧ t.startPhase = 1 ∧ t.pulled = false ∧ t.lp.keys = [] ∧
        t.lp.mem = [])) ∧
  (∀ (recover : Bool) (s : State), s.start.modLow = true → s.pwr.standbyOff = false →
    ∃ t, exec (.modResetNRise recover) s = .next t ∧ t.start.modLow = false ∧ t.pwr.tripped = false ∧
      (s.pwr.mainOff = false → t.startPhase = 1 ∧ t.gau.bootCount = s.gau.bootCount + 1 ∧ t.start.recover = recover) ∧ SameBytes s t) ∧
  (∀ (cause : HostCause) (s : State),
    (s.start.kind = 1 → ∃ t, exec (.hostReset cause) s = .next t ∧ t.linkUp = false ∧ t.start = s.start ∧ t.startPhase = s.startPhase ∧
      SameBytes s t) ∧
    (s.pwr.mainOff = false → s.start.modLow = false → s.start.kind ≠ 1 → s.start.kind ≠ 2 →
      ∃ t, exec (.hostReset cause) s = .next t ∧ t.start.kind = 3 ∧ t.startPhase = 1 ∧ t.steps = [] ∧ t.lp.keys = [] ∧ t.keg.jobs = [] ∧
        t.rd pgMOD F.MOD_RESET_CAUSE = (match cause with
          | .perst => 5
          | .hotReset => 6
          | .pfFlr => 7) ∧
        (∀ c, c < 1024 → s.ctxState c ≠ ctxFREE → t.ctxState c = ctxRINSING))) ∧
  (∀ s : State, s.start.kind = 3 →
    ∃ t, exec .hostFillDone s = .next t ∧ t.ready = true ∧ t.start.kind = 0 ∧ t.lp.mem = [] ∧ t.vstore = [] ∧ t.fstore = [] ∧ Raised t pgMOD 2 ∧
      (∀ c, c < 1024 → c ∈ s.ctxs.fast → t.ctxState c = ctxFREE))

/-- R19, R541–R544: the phases of a start-up follow one another, and a hub unit that fails leaves no PCIe function; a phase that overruns its bound is
reported; PERST_N; configuration requests wait until phase ROM is over; a die-to-die link that fails is reported, and a die without its hub link is
retired. The readings of the spec that this rests on are the model's own, assumption log 103, 110. -/
def Obligations.StartUp : Prop :=
  (∀ (out : PhaseOut) (s : State), s.starting = true →
    (s.startPhase = 1 → out.hubFail = true → ∃ t, exec (.startupPhaseEnd out) s = .next t ∧ t.start.noPcie = true ∧ t.linkUp = false) ∧
    (s.startPhase = 1 → out.hubFail = false → s.start.recover = true → ∃ t, exec (.startupPhaseEnd out) s = .next t ∧ t.fw.recovery = true) ∧
    (∀ u, s.startPhase = 1 → out.hubFail = false → s.start.recover = false →
      u = ({ s with gau := { s.gau with uidBlocked := true } }.checkSlots.useValid 0) → (u.fwSlot 0 (u.activeSlot 0)).state = 1 →
      ∃ t, exec (.startupPhaseEnd out) s = .next t ∧ t.startPhase = 2 ∧ t.start.phaseClk = s.now) ∧
    (s.startPhase = 2 → s.selectSlots.fw.recovery = false → ∃ t, exec (.startupPhaseEnd out) s = .next t ∧ t.startPhase = 3 ∧ t.start.phaseClk = s.now ∧
      t.on pgMGMT F.LOCK_GAUGER_LOCKED = true ∧ t.on pgPOWER F.LOCK_GAUGER_LOCKED = true ∧ t.on pgTHERMAL F.LOCK_GAUGER_LOCKED = true) ∧
    (s.startPhase = 3 → ∃ t, exec (.startupPhaseEnd out) s = .next t ∧ t.startPhase = 4 ∧ t.start.phaseClk = s.now) ∧
    (s.startPhase = 4 → ∃ t, exec (.startupPhaseEnd out) s = .next t ∧ t.startPhase = 5 ∧ t.start.phaseClk = s.now) ∧
    (s.startPhase = 5 → ∃ t, exec (.startupPhaseEnd out) s = .next t ∧ t.ready = true ∧ t.start.kind = 0 ∧ Raised t pgMOD 2 ∧
      t.rd pgMOD F.MOD_START_MS = (s.now - s.start.startClk) / clkMs % 2 ^ 16)) ∧
  (∀ s : State, s.starting = true → s.start.late = false → s.startPhase < 6 → s.start.phaseClk + phaseBound s.startPhase * clkMs < s.now →
    ∃ t, exec .startLate s = .next t ∧ Raised t pgMOD 3 ∧ t.start = { s.start with late := true } ∧ SameBytes s t) ∧
  (∀ s : State, exec .perstDeassert s = .next { s with host := { s.host with perstHigh := true } }) ∧
  (∀ (fn : Fin 32) (s : State), s.pwr.mainOff = false → s.start.modLow = false → s.start.noPcie = false → s.on pgHOST F.HOST_LINK_UP = true →
    (s.start.kind ≠ 3 → s.startPhase ≠ 1 ∨ s.fw.recovery = true →
      exec (.configRequest fn) s = .next { s with msgs := .reply 2 [fn.val, 0] :: s.msgs }) ∧
    (s.start.kind = 3 ∨ (s.startPhase = 1 ∧ s.fw.recovery = false) →
      exec (.configRequest fn) s = .next { s with msgs := .reply 2 [fn.val, 2] :: s.msgs })) ∧
  (∀ (die : Fin 4) (steps : List Nat) (s : State), s.hasUnit (pgDIE die.val) = true →
    (∃ t, exec (.linkDeclaredFailed die none steps) s = .next t ∧ Raised t (pgDIE die.val) 2 ∧ t.isRetired (pgDIE die.val) = true) ∧
    (∀ far : Fin 4, far ≠ die → s.hasUnit (pgDIE far.val) = true →
      ∃ t, exec (.linkDeclaredFailed die (some far) steps) s = .next t ∧ Raised t (pgDIE die.val) 1 ∧ Raised t (pgDIE far.val) 1 ∧
        4 * die.val + far.val ∈ t.bist.ringBad ∧ 4 * far.val + die.val ∈ t.bist.ringBad ∧
        (s.variant.dies = 2 → t.isRetired (pgDIE 1) = true)))
end

