-- ==== Sys2Proof/Laws/Maps.lean ====
section
/-! SUPPORT. Laws of the sparse maps: what a write changes, and that every operation keeps the keys rising and a byte store canonical. -/

namespace Sys2Proof.Machine

variable {α : Type}

/-! Rising keys -/

theorem sorted_iff (m : AMap α) : AMap.sorted m = true ↔ m.Pairwise fun a b => a.1 < b.1 := by
  induction m with
  | nil => simp [AMap.sorted]
  | cons a m ih =>
    cases m with
    | nil => simp [AMap.sorted]
    | cons b m =>
      rw [AMap.sorted, Bool.and_eq_true, ih, List.pairwise_cons (a := a)]
      constructor
      · rintro ⟨h1, h2⟩
        have h1 : a.1 < b.1 := by simpa using h1
        refine ⟨fun c hc => ?_, h2⟩
        rcases List.mem_cons.mp hc with rfl | hc
        · exact h1
        · exact lt_trans h1 ((List.pairwise_cons.mp h2).1 c hc)
      · rintro ⟨h1, h2⟩
        exact ⟨by simpa using h1 b (by simp), h2⟩

theorem sorted_filter (p : Nat × α → Bool) {m : AMap α} (h : AMap.sorted m = true) : AMap.sorted (m.filter p) = true := by
  rw [sorted_iff] at *
  exact h.filter p

theorem mem_mput {m : AMap α} {k : Nat} {v : α} {e : Nat × α} (h : e ∈ mput m k v) : e = (k, v) ∨ e ∈ m := by
  induction m with
  | nil => simpa [mput] using h
  | cons a m ih =>
    obtain ⟨k', v'⟩ := a
    unfold mput at h
    split at h
    · simpa using h
    · split at h
      · rcases List.mem_cons.mp h with h | h
        · exact .inl h
        · exact .inr (List.mem_cons_of_mem _ h)
      · rcases List.mem_cons.mp h with h | h
        · exact .inr (by simp [h])
        · rcases ih h with h | h
          · exact .inl h
          · exact .inr (List.mem_cons_of_mem _ h)

theorem sorted_mput {m : AMap α} (h : AMap.sorted m = true) (k : Nat) (v : α) : AMap.sorted (mput m k v) = true := by
  rw [sorted_iff] at *
  induction m with
  | nil => simp [mput]
  | cons a m ih =>
    obtain ⟨k', v'⟩ := a
    obtain ⟨h1, h2⟩ := List.pairwise_cons.mp h
    unfold mput
    split
    · refine List.pairwise_cons.mpr ⟨fun b hb => ?_, h⟩
      rcases List.mem_cons.mp hb with rfl | hb
      · assumption
      · exact lt_trans (by assumption) (h1 b hb)
    · split
      · next hk => exact List.pairwise_cons.mpr ⟨fun b hb => by simpa [hk] using h1 b hb, h2⟩
      · refine List.pairwise_cons.mpr ⟨fun b hb => ?_, ih h2⟩
        rcases mem_mput hb with rfl | hb
        · simp only; omega
        · exact h1 b hb

theorem mdel_sublist (m : AMap α) (k : Nat) : (mdel m k).Sublist m := by
  induction m with
  | nil => simp [mdel]
  | cons a m ih =>
    obtain ⟨k', v'⟩ := a
    unfold mdel
    split
    · exact ih.cons _
    · exact ih.cons_cons _

theorem sorted_mdel {m : AMap α} (h : AMap.sorted m = true) (k : Nat) : AMap.sorted (mdel m k) = true := by
  rw [sorted_iff] at *
  exact h.sublist (mdel_sublist m k)

theorem sorted_nputD {m : AMap Nat} (h : AMap.sorted m = true) (d k v : Nat) : AMap.sorted (nputD d m k v) = true := by
  unfold nputD
  split
  · exact sorted_mdel h k
  · exact sorted_mput h k v

theorem sorted_nadd {m : AMap Nat} (h : AMap.sorted m = true) (k d : Nat) : AMap.sorted (nadd m k d) = true := sorted_nputD h 0 k _

/-! Read after write -/

theorem mget_mput_self (m : AMap α) (k : Nat) (v : α) : mget (mput m k v) k = some v := by
  induction m with
  | nil => simp [mput, mget]
  | cons a m ih =>
    obtain ⟨k', v'⟩ := a
    unfold mput
    split
    · simp [mget]
    · split
      · simp [mget]
      · next h1 h2 => simp [mget, ih, Ne.symm h2]

theorem mget_mput_ne (m : AMap α) {k j : Nat} (v : α) (h : j ≠ k) : mget (mput m k v) j = mget m j := by
  induction m with
  | nil => simp [mput, mget, Ne.symm h]
  | cons a m ih =>
    obtain ⟨k', v'⟩ := a
    unfold mput
    split
    · simp [mget, Ne.symm h]
    · split
      · next h2 => subst h2; simp [mget, Ne.symm h]
      · simp [mget, ih]

theorem mget_none_of_lt {m : AMap α} {k : Nat} (h : ∀ e ∈ m, k < e.1) : mget m k = none := by
  induction m with
  | nil => rfl
  | cons a m ih =>
    obtain ⟨k', v'⟩ := a
    have h1 : k < k' := h (k', v') (by simp)
    unfold mget
    rw [if_neg (by omega)]
    exact ih fun e he => h e (List.mem_cons_of_mem _ he)

theorem mget_mdel_self (m : AMap α) (k : Nat) : mget (mdel m k) k = none := by
  induction m with
  | nil => rfl
  | cons a m ih =>
    obtain ⟨k', v'⟩ := a
    unfold mdel
    split
    · exact ih
    · next hk => simp [mget, hk, ih]

theorem mget_mdel_ne (m : AMap α) {k j : Nat} (h : j ≠ k) : mget (mdel m k) j = mget m j := by
  induction m with
  | nil => rfl
  | cons a m ih =>
    obtain ⟨k', v'⟩ := a
    unfold mdel
    split
    · next hk => subst hk; simp [mget, Ne.symm h, ih]
    · simp [mget, ih]

theorem ngetD_nputD_self (m : AMap Nat) (d k v : Nat) : ngetD d (nputD d m k v) k = v := by
  unfold ngetD nputD
  split
  · next hv => simp [mget_mdel_self, hv]
  · simp [mget_mput_self]

theorem ngetD_nputD_ne (m : AMap Nat) (d d' : Nat) {k j : Nat} (v : Nat) (h : j ≠ k) : ngetD d (nputD d' m k v) j = ngetD d m j := by
  unfold ngetD nputD
  split
  · rw [mget_mdel_ne m h]
  · rw [mget_mput_ne m v h]

/-! Byte stores -/

theorem wf_iff (m : AMap Byte) : Memory.wf m = true ↔ AMap.sorted m = true ∧ ∀ e ∈ m, e.2 ≠ 0 := by
  simp [Memory.wf]

theorem wf_nil : Memory.wf [] = true := rfl

theorem wf_filter (p : Nat × Byte → Bool) {m : AMap Byte} (h : Memory.wf m = true) : Memory.wf (m.filter p) = true := by
  rw [wf_iff] at *
  exact ⟨sorted_filter p h.1, fun e he => h.2 e (List.mem_filter.mp he).1⟩

theorem wf_mfilterOut (p : Nat → Bool) {m : AMap Byte} (h : Memory.wf m = true) : Memory.wf (mfilterOut p m) = true := wf_filter _ h

theorem wf_bzero {m : AMap Byte} (h : Memory.wf m = true) (a n : Nat) : Memory.wf (bzero m a n) = true := wf_filter _ h

theorem wf_mput {m : AMap Byte} (h : Memory.wf m = true) (k : Nat) {b : Byte} (hb : b ≠ 0) : Memory.wf (mput m k b) = true := by
  rw [wf_iff] at *
  refine ⟨sorted_mput h.1 k b, fun e he => ?_⟩
  rcases mem_mput he with rfl | he
  · exact hb
  · exact h.2 e he

theorem wf_bput {m : AMap Byte} (h : Memory.wf m = true) (a : Nat) (b : Byte) : Memory.wf (bput m a b) = true := by
  unfold bput
  split
  · rw [wf_iff] at *
    exact ⟨sorted_mdel h.1 a, fun e he => h.2 e ((mdel_sublist m a).subset he)⟩
  · next hb => exact wf_mput h a hb

theorem wf_bputLE {m : AMap Byte} (h : Memory.wf m = true) (a v n : Nat) : Memory.wf (bputLE m a v n) = true := by
  induction n generalizing m a v with
  | zero => exact h
  | succ n ih => exact ih (wf_bput h _ _) _ _

theorem wf_bputList {m : AMap Byte} (h : Memory.wf m = true) (a : Nat) (bs : List Byte) : Memory.wf (bputList m a bs) = true := by
  induction bs generalizing m a with
  | nil => exact h
  | cons b bs ih => exact ih (wf_bput h _ _) _

theorem bget_bput_self (m : AMap Byte) (a : Nat) (b : Byte) : bget (bput m a b) a = b := by
  unfold bget bput
  split
  · next hb => simp [mget_mdel_self, hb]
  · simp [mget_mput_self]

theorem bget_bput_ne (m : AMap Byte) {a x : Nat} (b : Byte) (h : x ≠ a) : bget (bput m a b) x = bget m x := by
  unfold bget bput
  split
  · rw [mget_mdel_ne m h]
  · rw [mget_mput_ne m b h]

end Sys2Proof.Machine
end

