-- ==== Sys2Proof/Laws/Keeps.lean ====
section
/-! SUPPORT. What every operation of the model leaves alone: the queue, the variant, the clock, and the canonical form of the sparse stores. -/

namespace Sys2Proof.Machine

/-- From `s` to `t` the queue, the variant and the clock are unchanged, and the stores stay canonical. -/
structure Keeps (s t : State) : Prop where
  pending : t.pending = s.pending
  variant : t.variant = s.variant
  now : t.now = s.now
  canon : Canonical s → Canonical t

theorem Keeps.refl (s : State) : Keeps s s := ⟨rfl, rfl, rfl, id⟩

theorem Keeps.trans {s t u : State} (h1 : Keeps s t) (h2 : Keeps t u) : Keeps s u :=
  ⟨h2.pending.trans h1.pending, h2.variant.trans h1.variant, h2.now.trans h1.now, fun h => h2.canon (h1.canon h)⟩

/-- The same of an outcome. -/
structure KeepsR (s : State) (r : Result) : Prop where
  keeps : ∀ t, r = .next t → Keeps s t

/-- The same of an optional state. -/
structure KeepsO (s : State) (o : Option State) : Prop where
  keeps : ∀ t, o = some t → Keeps s t

theorem KeepsR.next {s t : State} (h : Keeps s t) : KeepsR s (.next t) := ⟨fun u hu => by injection hu with hu; exact hu ▸ h⟩

theorem KeepsO.none {s : State} : KeepsO s none := ⟨fun t h => by cases h⟩

theorem KeepsO.some {s t : State} (h : Keeps s t) : KeepsO s (some t) := ⟨fun u hu => by injection hu with hu; exact hu ▸ h⟩

theorem KeepsO.map {α : Type} {s : State} {o : Option α} {f : α → State} (h : ∀ a, o = .some a → Keeps s (f a)) : KeepsO s (o.map f) := by
  cases o with
  | none => exact KeepsO.none
  | some a => exact KeepsO.some (h a rfl)

/-- The same, where the function keeps from any state. -/
theorem KeepsO.mapK {s : State} {o : Option State} {f : State → State} (h : KeepsO s o) (hf : ∀ t, Keeps s t → Keeps s (f t)) : KeepsO s (o.map f) :=
  KeepsO.map fun a ha => hf a (h.keeps a ha)

theorem KeepsO.bind {α : Type} {s : State} {o : Option α} {f : α → Option State} (h : ∀ a, o = .some a → KeepsO s (f a)) :
    KeepsO s (o.bind f) := by
  cases o with
  | none => exact KeepsO.none
  | some a => exact h a rfl

/-- A state written out from another, its fields but those of `Keeps` free. -/
theorem Keeps.of {s u t : State} (h : Keeps s u) (e1 : t.pending = u.pending) (e2 : t.variant = u.variant) (e3 : t.now = u.now)
    (c : Canonical u → Canonical t) : Keeps s t :=
  ⟨e1.trans h.pending, e2.trans h.variant, e3.trans h.now, fun x => c (h.canon x)⟩

theorem Keeps.stores {s u t : State} (h : Keeps s u) (e1 : t.pending = u.pending) (e2 : t.variant = u.variant) (e3 : t.now = u.now)
    (e4 : t.vstore = u.vstore) (e5 : t.fstore = u.fstore) (e6 : t.lp.mem = u.lp.mem) (e7 : t.host.mem = u.host.mem) (e8 : t.regs = u.regs)
    (e9 : t.ctrs = u.ctrs) : Keeps s t :=
  h.of e1 e2 e3 fun c => ⟨e4 ▸ c.vstore, e5 ▸ c.fstore, e6 ▸ c.mem, e7 ▸ c.host, e8 ▸ c.regs, e9 ▸ c.ctrs⟩

/-- The bytes of a store written out field by field. -/
theorem lpMem_mk (mem : AMap Byte) (tag : AMap Nat) (bad : AMap Nat) (keys : AMap Nat) (keyNext : Nat) (frames : AMap Frame) (leaves : AMap Leaf) (tabs : AMap Nat) (lab : List Nat) (crcc : AMap Bool) (recov : AMap Recov) (clears : List Clear) (chDet : AMap Nat) (chDue : List Nat) (passes : List Nat) (patPos : AMap Nat) (patClk : AMap Nat) (patLate : AMap Nat) (line : List Nat) (lineHow : Nat) :
    (LpSt.mk mem tag bad keys keyNext frames leaves tabs lab crcc recov clears chDet chDue passes patPos patClk patLate line lineHow).mem = mem := rfl

/-- The bytes of a store written out field by field. -/
theorem hostMem_mk (mem : AMap Byte) (cmdCons : AMap Nat) (cmdProd : AMap Nat) (respProd : AMap Nat) (cmdFault : AMap Nat) (taken : List (Nat × Nat × Nat)) (resps : List Resp) (waits : List Wait) (rings : AMap Ring) (msixOpen : AMap Nat) (msixPend : AMap Nat) (msixTab : AMap Byte) (d3hot : Bool) (perstHigh : Bool) (heldMsgs : List (Nat × Nat)) (winData : List Nat) (winPoison : Bool) (pollClk : AMap Nat) (dmaBytes : AMap Nat) :
    (HostSt.mk mem cmdCons cmdProd respProd cmdFault taken resps waits rings msixOpen msixPend msixTab d3hot perstHigh heldMsgs winData winPoison pollClk dmaBytes).mem = mem := rfl

/-- The same, for a state whose fields are all written out. -/
theorem Keeps.lit {z u : State} {pending : List Instr} {variant : Variant} {now : Nat} {freeIdx : Nat} {regs : AMap Nat} {ctrs : AMap Nat} {shadow : AMap (Nat × Nat)} {rdata : Nat} {msgs : List Msg} {retired : AMap Nat} {underTest : AMap Nat} {snap : SnapSt} {tb : TimeBase} {host : HostSt} {vats : AMap Vat} {floors : AMap FloorSt} {steps : AMap Step} {spl : SplSt} {lp : LpSt} {kv : KvSt} {rqt : RqtSt} {gate : GateSt} {cm : CmSt} {mill : MillSt} {codec : CodecSt} {keg : KegSt} {ctxs : CtxSt} {casks : AMap Cask} {gau : GauSt} {fw : FwSt} {bist : BistSt} {pwr : PwrSt} {start : StartSt} {resv : AMap Resv} {drbg : AMap (Nat × Nat)} {vstore : AMap Byte} {vbad : AMap Nat} {fstore : AMap Byte} {fbad : AMap Nat}
    (h : Keeps z u) (e1 : pending = u.pending) (e2 : variant = u.variant) (e3 : now = u.now) (e4 : vstore = u.vstore) (e5 : fstore = u.fstore)
    (e6 : lp.mem = u.lp.mem) (e7 : host.mem = u.host.mem) (e8 : regs = u.regs) (e9 : ctrs = u.ctrs) :
    Keeps z (State.mk pending variant now freeIdx regs ctrs shadow rdata msgs retired underTest snap tb host vats floors steps spl lp kv rqt gate cm mill codec keg ctxs casks gau fw bist pwr start resv drbg vstore vbad fstore fbad) :=
  h.stores e1 e2 e3 e4 e5 e6 e7 e8 e9

/-- The same where the stores change, keeping their form. -/
theorem Keeps.litOf {z u : State} {pending : List Instr} {variant : Variant} {now : Nat} {freeIdx : Nat} {regs : AMap Nat} {ctrs : AMap Nat} {shadow : AMap (Nat × Nat)} {rdata : Nat} {msgs : List Msg} {retired : AMap Nat} {underTest : AMap Nat} {snap : SnapSt} {tb : TimeBase} {host : HostSt} {vats : AMap Vat} {floors : AMap FloorSt} {steps : AMap Step} {spl : SplSt} {lp : LpSt} {kv : KvSt} {rqt : RqtSt} {gate : GateSt} {cm : CmSt} {mill : MillSt} {codec : CodecSt} {keg : KegSt} {ctxs : CtxSt} {casks : AMap Cask} {gau : GauSt} {fw : FwSt} {bist : BistSt} {pwr : PwrSt} {start : StartSt} {resv : AMap Resv} {drbg : AMap (Nat × Nat)} {vstore : AMap Byte} {vbad : AMap Nat} {fstore : AMap Byte} {fbad : AMap Nat}
    (h : Keeps z u) (e1 : pending = u.pending) (e2 : variant = u.variant) (e3 : now = u.now)
    (c : Canonical u → Memory.wf vstore = true ∧ Memory.wf fstore = true ∧ Memory.wf lp.mem = true ∧ Memory.wf host.mem = true ∧
      AMap.sorted regs = true ∧ AMap.sorted ctrs = true) :
    Keeps z (State.mk pending variant now freeIdx regs ctrs shadow rdata msgs retired underTest snap tb host vats floors steps spl lp kv rqt gate cm mill codec keg ctxs casks gau fw bist pwr start resv drbg vstore vbad fstore fbad) :=
  h.of e1 e2 e3 fun x => ⟨(c x).1, (c x).2.1, (c x).2.2.1, (c x).2.2.2.1, (c x).2.2.2.2.1, (c x).2.2.2.2.2⟩

theorem Keeps.ite {s a b : State} {c : Prop} [Decidable c] (h1 : Keeps s a) (h2 : Keeps s b) : Keeps s (if c then a else b) := by
  split <;> assumption

theorem Keeps.foldl {α : Type} {s0 : State} {g : State → α → State} {l : List α} {s : State}
    (hg : ∀ t x, Keeps s0 t → Keeps s0 (g t x)) (h : Keeps s0 s) : Keeps s0 (l.foldl g s) := by
  induction l generalizing s with
  | nil => exact h
  | cons x l ih => exact ih (hg s x h)

theorem Keeps.foldlFst {α β : Type} {s0 : State} {g : State × β → α → State × β} {l : List α} {a : State × β}
    (hg : ∀ t x, Keeps s0 t.1 → Keeps s0 (g t x).1) (h : Keeps s0 a.1) : Keeps s0 (l.foldl g a).1 := by
  induction l generalizing a with
  | nil => exact h
  | cons x l ih => exact ih (hg a x h)

theorem KeepsO.foldl {α : Type} {s0 : State} {g : Option State → α → Option State} {l : List α} {a : Option State}
    (hg : ∀ t x, KeepsO s0 t → KeepsO s0 (g t x)) (h : KeepsO s0 a) : KeepsO s0 (l.foldl g a) := by
  induction l generalizing a with
  | nil => exact h
  | cons x l ih => exact ih (hg a x h)

theorem Keeps.ofFst {β : Type} {s t : State} {x : β} {p : State × β} (h : Keeps s p.1) (e : p = (t, x)) : Keeps s t := by
  subst e; exact h

end Sys2Proof.Machine
end

