-- ==== Sys2Proof/Laws/KeepsOps.lean ====
section
/-! SUPPORT. Every operation of `Machine/Ops.lean` keeps the queue, the variant, the clock and the canonical stores. -/

namespace Sys2Proof.Machine

theorem State.count_keeps {z : State} {s : State} {pg : Nat} {off : Nat} {n : Nat} (hs : Keeps z s) : Keeps z (State.count s pg off n) :=
  hs.of rfl rfl rfl fun c => ⟨c.vstore, c.fstore, c.mem, c.host, c.regs, sorted_nadd c.ctrs _ _⟩

theorem State.msix_keeps {z : State} {s : State} {fn : Nat} {vec : Nat} (hs : Keeps z s) : Keeps z (State.msix s fn vec) := by
  unfold State.msix
  with_reducible repeat' first
    | assumption
    | intro y
    | apply State.count_keeps
    | apply KeepsR.next
    | apply Keeps.ite
    | apply Keeps.foldl
    | apply Keeps.foldlFst
    | exact KeepsO.none
    | apply KeepsO.some
    | dsimp only
    | fail_if_no_progress refine Keeps.lit ?_ rfl rfl rfl rfl rfl rfl rfl rfl rfl

theorem State.edges_keeps {z : State} {s0 : State} {s : State} (hs0 : Keeps z s0) (hs : Keeps z s) : Keeps z (State.edges s0 s) := by
  unfold State.edges
  with_reducible repeat' first
    | assumption
    | intro y
    | apply State.msix_keeps
    | apply KeepsR.next
    | apply Keeps.ite
    | apply Keeps.foldl

theorem State.wri_keeps {z : State} {s : State} {pg : Nat} {F : Field} {i : Nat} {v : Nat} (hs : Keeps z s) : Keeps z (State.wri s pg F i v) :=
  hs.of rfl rfl rfl fun c => ⟨c.vstore, c.fstore, c.mem, c.host, sorted_nputD c.regs _ _ _, c.ctrs⟩

theorem State.wr_keeps {z : State} {s : State} {pg : Nat} {F : Field} {v : Nat} (hs : Keeps z s) : Keeps z (State.wr s pg F v) := by
  unfold State.wr
  with_reducible repeat' first
    | assumption
    | intro y
    | apply State.wri_keeps

theorem State.raise_keeps {z : State} {s : State} {pg : Nat} {bit : Nat} (hs : Keeps z s) : Keeps z (State.raise s pg bit) := by
  unfold State.raise
  with_reducible repeat' first
    | assumption
    | intro y
    | apply State.edges_keeps
    | apply State.wr_keeps

theorem State.fresh_keeps {z : State} {s : State} {w : Nat} (hs : Keeps z s) : Keeps z (State.fresh s w).1 := by
  unfold State.fresh
  with_reducible repeat' first
    | assumption
    | intro y
    | apply KeepsR.next
    | apply Keeps.ite
    | apply Keeps.foldl
    | apply Keeps.foldlFst
    | exact KeepsO.none
    | apply KeepsO.some
    | dsimp only
    | fail_if_no_progress refine Keeps.lit ?_ rfl rfl rfl rfl rfl rfl rfl rfl rfl

theorem State.ctxEvent_keeps {z : State} {s : State} {c : Nat} {bit : Nat} {status : Nat} {code : Nat} {qual : Nat} (hs : Keeps z s) : Keeps z (State.ctxEvent s c bit status code qual) := by
  unfold State.ctxEvent
  with_reducible repeat' first
    | assumption
    | intro y
    | apply State.wri_keeps
    | apply State.wr_keeps
    | apply State.raise_keeps
    | apply State.count_keeps
    | apply KeepsR.next
    | apply Keeps.ite

theorem State.capture_keeps {z : State} {s : State} {pg : Nat} {code : Nat} {loc : Nat} {ctx : Option Nat} (hs : Keeps z s) : Keeps z (State.capture s pg code loc ctx) := by
  unfold State.capture
  with_reducible repeat' first
    | assumption
    | intro y
    | apply State.wr_keeps
    | apply State.raise_keeps
    | apply KeepsR.next
    | apply Keeps.ite

theorem State.accessErr_keeps {z : State} {s : State} {a : RegAcc} (hs : Keeps z s) : Keeps z (State.accessErr s a) := by
  unfold State.accessErr
  with_reducible repeat' first
    | assumption
    | intro y
    | apply State.wr_keeps
    | apply State.raise_keeps
    | apply State.count_keeps
    | apply KeepsR.next
    | apply Keeps.ite

theorem State.bump_keeps {z : State} {s : State} {pg : Nat} {F : Field} {d : Nat} (hs : Keeps z s) : Keeps z (State.bump s pg F d) := by
  unfold State.bump
  with_reducible repeat' first
    | assumption
    | intro y
    | apply State.wr_keeps

theorem State.respond_keeps {z : State} {s : State} {fn : Nat} {tag : Nat} {status : Nat} {result : Nat} (hs : Keeps z s) : Keeps z (State.respond s fn tag status result) := by
  unfold State.respond
  with_reducible repeat' first
    | assumption
    | intro y
    | apply KeepsR.next
    | apply Keeps.ite
    | apply Keeps.foldl
    | apply Keeps.foldlFst
    | exact KeepsO.none
    | apply KeepsO.some
    | dsimp only
    | fail_if_no_progress refine Keeps.lit ?_ rfl rfl rfl rfl rfl rfl rfl rfl rfl

theorem State.wake_keeps {z : State} {s : State} {done : WaitOn → Bool} {status : Nat} (hs : Keeps z s) : Keeps z (State.wake s done status) := by
  unfold State.wake
  with_reducible repeat' first
    | assumption
    | intro y
    | apply State.respond_keeps
    | apply KeepsR.next
    | apply Keeps.ite
    | apply Keeps.foldl
    | apply Keeps.foldlFst
    | exact KeepsO.none
    | apply KeepsO.some
    | dsimp only
    | fail_if_no_progress refine Keeps.lit ?_ rfl rfl rfl rfl rfl rfl rfl rfl rfl

theorem State.setCtxField_keeps {z : State} {s : State} {F : Field} {c : Nat} {v : Nat} (hs : Keeps z s) : Keeps z (State.setCtxField s F c v) := by
  unfold State.setCtxField
  with_reducible repeat' first
    | assumption
    | intro y
    | apply State.wri_keeps

theorem State.blockAction_keeps {z : State} {s : State} {pg : Nat} {fn : Nat} {off : Nat} {body : State → State} (hs : Keeps z s) (hbody : ∀ y0, Keeps z y0 → Keeps z (body y0)) : Keeps z (State.blockAction s pg fn off body) := by
  unfold State.blockAction
  with_reducible repeat' first
    | assumption
    | intro y
    | apply State.accessErr_keeps
    | apply hbody
    | apply KeepsR.next
    | apply Keeps.ite

theorem State.command_keeps {z : State} {s : State} {fn : Nat} {tag : Nat} {op : Nat} {body : State → State} {vf : optParam Bool (vfMay op)} (hs : Keeps z s) (hbody : ∀ y0, Keeps z y0 → Keeps z (body y0)) : Keeps z (State.command s fn tag op body vf) := by
  unfold State.command
  with_reducible repeat' first
    | assumption
    | intro y
    | apply State.respond_keeps
    | apply hbody
    | apply KeepsR.next
    | apply Keeps.ite
    | apply Keeps.foldl
    | apply Keeps.foldlFst
    | exact KeepsO.none
    | apply KeepsO.some
    | dsimp only
    | fail_if_no_progress refine Keeps.lit ?_ rfl rfl rfl rfl rfl rfl rfl rfl rfl

theorem State.hold_keeps {z : State} {s : State} {fn : Nat} {tag : Nat} {on : WaitOn} {result : Nat} (hs : Keeps z s) : Keeps z (State.hold s fn tag on result) := by
  unfold State.hold
  with_reducible repeat' first
    | assumption
    | intro y
    | apply KeepsR.next
    | apply Keeps.ite
    | apply Keeps.foldl
    | apply Keeps.foldlFst
    | exact KeepsO.none
    | apply KeepsO.some
    | dsimp only
    | fail_if_no_progress refine Keeps.lit ?_ rfl rfl rfl rfl rfl rfl rfl rfl rfl

theorem State.hostWrite_keeps {z : State} {s : State} {a : Nat} {v : Nat} {n : Nat} (hs : Keeps z s) : Keeps z (State.hostWrite s a v n) :=
  hs.of rfl rfl rfl fun c => ⟨c.vstore, c.fstore, c.mem, wf_bputLE c.host _ _ _, c.regs, c.ctrs⟩

end Sys2Proof.Machine
end

