-- ==== Sys2Proof/Laws/KeepsVat.lean ====
section
/-! SUPPORT. Every operation of `Machine/Vat.lean` keeps the queue, the variant, the clock and the canonical stores. -/

namespace Sys2Proof.Machine

theorem State.ctxCode_keeps {z : State} {s : State} {c : Nat} {bit : Nat} {st : Nat} {code : Nat} (hs : Keeps z s) : Keeps z (State.ctxCode s c bit st code) := by
  unfold State.ctxCode
  with_reducible repeat' first
    | assumption
    | intro y
    | apply State.fresh_keeps
    | refine Keeps.ofFst (State.fresh_keeps ?_) (by assumption)
    | apply State.ctxEvent_keeps

theorem State.modStep_keeps {z : State} {s : State} {id : Nat} {f : Step → Step} (hs : Keeps z s) : Keeps z (State.modStep s id f) := by
  unfold State.modStep
  with_reducible repeat' first
    | assumption
    | intro y
    | apply KeepsR.next
    | apply Keeps.ite
    | apply Keeps.foldl
    | apply Keeps.foldlFst
    | exact KeepsO.none
    | apply KeepsO.some
    | dsimp only
    | fail_if_no_progress refine Keeps.lit ?_ rfl rfl rfl rfl rfl rfl rfl rfl rfl

theorem State.failStep_keeps {z : State} {s : State} {id : Nat} {status : Nat} {code : Nat} (hs : Keeps z s) : Keeps z (State.failStep s id status code) := by
  unfold State.failStep
  with_reducible repeat' first
    | assumption
    | intro y
    | apply State.modStep_keeps

theorem State.ctxNoteQ_keeps {z : State} {s : State} {c : Nat} {bit : Nat} {q : Nat} (hs : Keeps z s) : Keeps z (State.ctxNoteQ s c bit q) := by
  unfold State.ctxNoteQ
  with_reducible repeat' first
    | assumption
    | intro y
    | apply State.fresh_keeps
    | refine Keeps.ofFst (State.fresh_keeps ?_) (by assumption)
    | apply State.ctxEvent_keeps

theorem State.setStep_keeps {z : State} {s : State} {id : Nat} {st : Step} (hs : Keeps z s) : Keeps z (State.setStep s id st) := by
  unfold State.setStep
  with_reducible repeat' first
    | assumption
    | intro y
    | apply KeepsR.next
    | apply Keeps.ite
    | apply Keeps.foldl
    | apply Keeps.foldlFst
    | exact KeepsO.none
    | apply KeepsO.some
    | dsimp only
    | fail_if_no_progress refine Keeps.lit ?_ rfl rfl rfl rfl rfl rfl rfl rfl rfl

theorem State.setVat_keeps {z : State} {s : State} {pg : Nat} {v : Vat} (hs : Keeps z s) : Keeps z (State.setVat s pg v) := by
  unfold State.setVat
  with_reducible repeat' first
    | assumption
    | intro y
    | apply KeepsR.next
    | apply Keeps.ite
    | apply Keeps.foldl
    | apply Keeps.foldlFst
    | exact KeepsO.none
    | apply KeepsO.some
    | dsimp only
    | fail_if_no_progress refine Keeps.lit ?_ rfl rfl rfl rfl rfl rfl rfl rfl rfl

theorem State.showRun_keeps {z : State} {s : State} {pg : Nat} (hs : Keeps z s) : Keeps z (State.showRun s pg) := by
  unfold State.showRun
  with_reducible repeat' first
    | assumption
    | intro y
    | apply State.wr_keeps
    | apply KeepsR.next
    | apply Keeps.ite
    | apply Keeps.foldl
    | apply Keeps.foldlFst
    | exact KeepsO.none
    | apply KeepsO.some
    | dsimp only
    | fail_if_no_progress refine Keeps.lit ?_ rfl rfl rfl rfl rfl rfl rfl rfl rfl
    | refine Keeps.ofFst (Keeps.foldlFst ?_ ?_) (by assumption)
    | split

theorem State.send_keeps {z : State} {s : State} {m : SpMsg} (hs : Keeps z s) : Keeps z (State.send s m) := by
  unfold State.send
  with_reducible repeat' first
    | assumption
    | intro y
    | apply KeepsR.next
    | apply Keeps.ite
    | apply Keeps.foldl
    | apply Keeps.foldlFst
    | exact KeepsO.none
    | apply KeepsO.some
    | dsimp only
    | fail_if_no_progress refine Keeps.lit ?_ rfl rfl rfl rfl rfl rfl rfl rfl rfl

theorem State.spSend_keeps {z : State} {s : State} {port : Nat} {c : Nat} {v : Nat} {op : SpOp} (hs : Keeps z s) : Keeps z (State.spSend s port c v op) := by
  unfold State.spSend
  with_reducible repeat' first
    | assumption
    | intro y
    | apply State.ctxNoteQ_keeps
    | apply State.count_keeps
    | apply State.send_keeps
    | apply KeepsR.next
    | apply Keeps.ite
    | apply Keeps.foldl
    | apply Keeps.foldlFst
    | exact KeepsO.none
    | apply KeepsO.some
    | dsimp only
    | fail_if_no_progress refine Keeps.lit ?_ rfl rfl rfl rfl rfl rfl rfl rfl rfl
    | refine Keeps.ofFst (Keeps.foldlFst ?_ ?_) (by assumption)
    | split

theorem State.restore_keeps {z : State} {s : State} {pg : Nat} (hs : Keeps z s) : Keeps z (State.restore s pg) := by
  unfold State.restore
  extract_lets +onlyGivenNames v
  split
  · next k _ _ =>
    split
    · exact hs
    · extract_lets +onlyGivenNames who k1 q
      split
      next k2 msg _ =>
      extract_lets +onlyGivenNames s0 s1 dur s2
      have h0 : Keeps z s0 := Keeps.lit hs rfl rfl rfl rfl rfl (by first | exact lpMem_mk .. | rfl) (by first | exact hostMem_mk .. | rfl) rfl rfl
      have h1 : Keeps z s1 := State.showRun_keeps (State.wr_keeps (State.setVat_keeps h0))
      have h2 : Keeps z s2 := by
        unfold s2
        split
        · exact h1.of rfl rfl rfl fun c => ⟨c.vstore, c.fstore, c.mem, c.host, c.regs, sorted_nputD c.ctrs _ _ _⟩
        · exact h1
      clear_value s2
      split
      · exact State.spSend_keeps h2
      · exact h2
  · exact hs

theorem State.endKernel_keeps {z : State} {s : State} {pg : Nat} (hs : Keeps z s) : Keeps z (State.endKernel s pg) := by
  unfold State.endKernel
  with_reducible repeat' first
    | assumption
    | intro y
    | apply State.setVat_keeps
    | apply State.restore_keeps
    | apply State.showRun_keeps
    | apply State.spSend_keeps
    | apply State.count_keeps
    | apply KeepsR.next
    | apply Keeps.ite
    | apply Keeps.foldl
    | apply Keeps.foldlFst
    | exact KeepsO.none
    | apply KeepsO.some
    | dsimp only
    | fail_if_no_progress refine Keeps.lit ?_ rfl rfl rfl rfl rfl rfl rfl rfl rfl
    | refine Keeps.ofFst (Keeps.foldlFst ?_ ?_) (by assumption)
    | split

theorem State.endStepKernels_keeps {z : State} {s : State} {id : Nat} (hs : Keeps z s) : Keeps z (State.endStepKernels s id) := by
  unfold State.endStepKernels
  with_reducible repeat' first
    | assumption
    | intro y
    | apply State.setVat_keeps
    | apply State.wr_keeps
    | apply State.endKernel_keeps
    | apply KeepsR.next
    | apply Keeps.ite
    | apply Keeps.foldl
    | apply Keeps.foldlFst
    | exact KeepsO.none
    | apply KeepsO.some
    | dsimp only
    | fail_if_no_progress refine Keeps.lit ?_ rfl rfl rfl rfl rfl rfl rfl rfl rfl
    | refine Keeps.ofFst (Keeps.foldlFst ?_ ?_) (by assumption)
    | split

theorem State.setFloor_keeps {z : State} {s : State} {pg : Nat} {f : FloorSt} (hs : Keeps z s) : Keeps z (State.setFloor s pg f) := by
  unfold State.setFloor
  with_reducible repeat' first
    | assumption
    | intro y
    | apply KeepsR.next
    | apply Keeps.ite
    | apply Keeps.foldl
    | apply Keeps.foldlFst
    | exact KeepsO.none
    | apply KeepsO.some
    | dsimp only
    | fail_if_no_progress refine Keeps.lit ?_ rfl rfl rfl rfl rfl rfl rfl rfl rfl

theorem State.denyVat_keeps {z : State} {s : State} {k : Kernel} (hs : Keeps z s) : Keeps z (State.denyVat s k) := by
  unfold State.denyVat
  with_reducible repeat' first
    | assumption
    | intro y
    | apply State.ctxCode_keeps
    | apply State.modStep_keeps

theorem State.kput_keeps {z : State} {s : State} {pg : Nat} {k : Kernel} {ws : List (Nat × Nat)} (hs : Keeps z s) : Keeps z (State.kput s pg k ws) := by
  unfold State.kput
  refine Keeps.foldl (fun t x h => ?_) hs
  split
  · extract_lets +onlyGivenNames t1
    have h1 : Keeps z t1 := h.of rfl rfl rfl fun c => ⟨wf_bput c.vstore _ _, c.fstore, c.mem, c.host, c.regs, c.ctrs⟩
    split
    · exact Keeps.lit h1 rfl rfl rfl rfl rfl (by first | exact lpMem_mk .. | rfl) (by first | exact hostMem_mk .. | rfl) rfl rfl
    · exact h1
  · exact h

theorem State.earlyRot_keeps {z : State} {s : State} {pg : Nat} (hs : Keeps z s) : Keeps z (State.earlyRot s pg) := by
  unfold State.earlyRot
  with_reducible repeat' first
    | assumption
    | intro y
    | apply State.setFloor_keeps
    | apply State.raise_keeps
    | apply State.count_keeps

theorem State.detectStep_keeps {z : State} {s : State} {pg : Nat} {id : Nat} (hs : Keeps z s) : Keeps z (State.detectStep s pg id) := by
  unfold State.detectStep
  with_reducible repeat' first
    | assumption
    | intro y
    | apply State.failStep_keeps
    | apply State.setStep_keeps
    | apply State.earlyRot_keeps
    | apply State.endStepKernels_keeps
    | apply KeepsR.next
    | apply Keeps.ite
    | apply Keeps.foldl
    | apply Keeps.foldlFst
    | exact KeepsO.none
    | apply KeepsO.some
    | dsimp only
    | fail_if_no_progress refine Keeps.lit ?_ rfl rfl rfl rfl rfl rfl rfl rfl rfl
    | refine Keeps.ofFst (Keeps.foldlFst ?_ ?_) (by assumption)
    | split

theorem State.ctxNote_keeps {z : State} {s : State} {c : Nat} {bit : Nat} (hs : Keeps z s) : Keeps z (State.ctxNote s c bit) := by
  unfold State.ctxNote
  with_reducible repeat' first
    | assumption
    | intro y
    | apply State.ctxCode_keeps
    | apply State.fresh_keeps

theorem State.detect_keeps {z : State} {s : State} {pg : Nat} {k : Kernel} {event : Nat} {counter : Nat} (hs : Keeps z s) : Keeps z (State.detect s pg k event counter) := by
  unfold State.detect
  with_reducible repeat' first
    | assumption
    | intro y
    | apply State.detectStep_keeps
    | apply State.ctxNote_keeps
    | apply State.raise_keeps
    | apply State.count_keeps

theorem State.noteDet_keeps {z : State} {s : State} {pg : Nat} {i : Nat} (hs : Keeps z s) : Keeps z (State.noteDet s pg i) := by
  unfold State.noteDet
  with_reducible repeat' first
    | assumption
    | intro y
    | apply State.setVat_keeps
    | apply State.earlyRot_keeps
    | apply KeepsR.next
    | apply Keeps.ite

theorem State.storeParity_keeps {z : State} {s : State} {pg : Nat} {k : Kernel} {a : Nat} (hs : Keeps z s) : Keeps z (State.storeParity s pg k a) := by
  unfold State.storeParity
  with_reducible repeat' first
    | assumption
    | intro y
    | apply State.detect_keeps
    | apply State.noteDet_keeps

theorem State.setKern_keeps {z : State} {s : State} {pg : Nat} {k : Option Kernel} (hs : Keeps z s) : Keeps z (State.setKern s pg k) := by
  unfold State.setKern
  with_reducible repeat' first
    | assumption
    | intro y
    | apply State.setVat_keeps

theorem State.unitStep_keeps {z : State} {s : State} {v : VatId} {op : Nat} {u : Unit3} {ms : IW → List Mark} {body : State → Nat → Kernel → IW → State} (hs : Keeps z s) (hbody : ∀ y0 y1 y2 y3, Keeps z y0 → Keeps z (body y0 y1 y2 y3)) : Keeps z (State.unitStep s v op u ms body) := by
  unfold State.unitStep
  with_reducible repeat' first
    | assumption
    | intro y
    | apply State.count_keeps
    | apply State.setKern_keeps
    | apply hbody
    | apply KeepsR.next
    | apply Keeps.ite
    | apply Keeps.foldl
    | apply Keeps.foldlFst
    | exact KeepsO.none
    | apply KeepsO.some
    | dsimp only
    | fail_if_no_progress refine Keeps.lit ?_ rfl rfl rfl rfl rfl rfl rfl rfl rfl
    | refine Keeps.ofFst (Keeps.foldlFst ?_ ?_) (by assumption)
    | split

theorem State.frontStep_keeps {z : State} {s : State} {v : VatId} {op : Nat} {rs : IW → List Nat} {body : Kernel → IW → Kernel} (hs : Keeps z s) : Keeps z (State.frontStep s v op rs body) := by
  unfold State.frontStep
  with_reducible repeat' first
    | assumption
    | intro y
    | apply State.setKern_keeps
    | apply KeepsR.next
    | apply Keeps.ite
    | apply Keeps.foldl
    | apply Keeps.foldlFst
    | exact KeepsO.none
    | apply KeepsO.some
    | dsimp only
    | fail_if_no_progress refine Keeps.lit ?_ rfl rfl rfl rfl rfl rfl rfl rfl rfl
    | refine Keeps.ofFst (Keeps.foldlFst ?_ ?_) (by assumption)
    | split

theorem State.illegalEnd_keeps {z : State} {s : State} {pg : Nat} {k : Kernel} (hs : Keeps z s) : Keeps z (State.illegalEnd s pg k) := by
  unfold State.illegalEnd
  with_reducible repeat' first
    | assumption
    | intro y
    | apply State.failStep_keeps
    | apply State.ctxNote_keeps
    | apply State.raise_keeps
    | apply State.endKernel_keeps

theorem State.regStep_keeps {z : State} {s : State} {v : VatId} {op : Nat} {u : Unit3} {ms : IW → List Mark} {body : Kernel → IW → Kernel} (hs : Keeps z s) : Keeps z (State.regStep s v op u ms body) := by
  unfold State.regStep
  with_reducible repeat' first
    | assumption
    | intro y
    | apply State.unitStep_keeps
    | apply State.setKern_keeps

end Sys2Proof.Machine
end

