-- ==== Sys2Proof/Laws/KeepsSpile.lean ====
section
/-! SUPPORT. Every operation of `Machine/Spile.lean` keeps the queue, the variant, the clock and the canonical stores. -/

namespace Sys2Proof.Machine

theorem State.setSpile_keeps {z : State} {s : State} {phys : Nat} {x : Spile} (hs : Keeps z s) : Keeps z (State.setSpile s phys x) := by
  unfold State.setSpile
  with_reducible repeat' first
    | assumption
    | intro y
    | apply KeepsR.next
    | apply Keeps.ite
    | apply Keeps.foldl
    | apply Keeps.foldlFst
    | exact KeepsO.none
    | apply KeepsO.some
    | dsimp only
    | fail_if_no_progress refine Keeps.lit ?_ rfl rfl rfl rfl rfl rfl rfl rfl rfl

theorem State.release_keeps {z : State} {s : State} {c : Nat} {w : Who} {phys : Nat} {taken : Nat} {isTake : Bool} (hs : Keeps z s) : Keeps z (State.release s c w phys taken isTake) := by
  unfold State.release
  with_reducible repeat' first
    | assumption
    | intro y
    | apply State.count_keeps
    | apply KeepsR.next
    | apply Keeps.ite
    | apply Keeps.foldl
    | apply Keeps.foldlFst
    | exact KeepsO.none
    | apply KeepsO.some
    | dsimp only
    | fail_if_no_progress refine Keeps.lit ?_ rfl rfl rfl rfl rfl rfl rfl rfl rfl

theorem State.releaseWaiters_keeps {z : State} {s : State} {phys : Nat} (hs : Keeps z s) : Keeps z (State.releaseWaiters s phys) := by
  unfold State.releaseWaiters
  with_reducible repeat' first
    | assumption
    | intro y
    | apply State.setSpile_keeps
    | apply State.release_keeps
    | apply KeepsR.next
    | apply Keeps.ite
    | apply Keeps.foldl
    | apply Keeps.foldlFst
    | exact KeepsO.none
    | apply KeepsO.some
    | dsimp only
    | fail_if_no_progress refine Keeps.lit ?_ rfl rfl rfl rfl rfl rfl rfl rfl rfl

theorem State.enginePost_keeps {z : State} {s : State} {c : Nat} {v : Nat} {phys : Nat} {n : Nat} (hs : Keeps z s) : Keeps z (State.enginePost s c v phys n) := by
  unfold State.enginePost
  with_reducible repeat' first
    | assumption
    | intro y
    | apply State.setSpile_keeps
    | apply State.ctxNoteQ_keeps
    | apply State.releaseWaiters_keeps
    | apply State.count_keeps
    | apply KeepsR.next
    | apply Keeps.ite

theorem State.register_keeps {z : State} {s : State} {x : Waiter} (hs : Keeps z s) : Keeps z (State.register s x) := by
  unfold State.register
  with_reducible repeat' first
    | assumption
    | intro y
    | apply State.count_keeps
    | apply KeepsR.next
    | apply Keeps.ite
    | apply Keeps.foldl
    | apply Keeps.foldlFst
    | exact KeepsO.none
    | apply KeepsO.some
    | dsimp only
    | fail_if_no_progress refine Keeps.lit ?_ rfl rfl rfl rfl rfl rfl rfl rfl rfl

theorem State.engineTake_keeps {z : State} {s : State} {c : Nat} {phys : Nat} {n : Nat} {w : Who} (hs : Keeps z s) : Keeps z (State.engineTake s c phys n w) := by
  unfold State.engineTake
  with_reducible repeat' first
    | assumption
    | intro y
    | apply State.setSpile_keeps
    | apply State.register_keeps
    | apply State.release_keeps
    | apply KeepsR.next
    | apply Keeps.ite

theorem State.spileSettled_keeps {z : State} {s : State} (hs : Keeps z s) : Keeps z (State.spileSettled s) := by
  unfold State.spileSettled
  with_reducible repeat' first
    | assumption
    | intro y
    | apply State.wake_keeps

theorem State.spileDetect_keeps {z : State} {s : State} {id : Nat} (hs : Keeps z s) : Keeps z (State.spileDetect s id) := by
  unfold State.spileDetect
  with_reducible repeat' first
    | assumption
    | intro y
    | apply State.failStep_keeps
    | apply State.setStep_keeps
    | apply State.endStepKernels_keeps
    | apply KeepsR.next
    | apply Keeps.ite
    | apply Keeps.foldl
    | apply Keeps.foldlFst
    | exact KeepsO.none
    | apply KeepsO.some
    | dsimp only
    | fail_if_no_progress refine Keeps.lit ?_ rfl rfl rfl rfl rfl rfl rfl rfl rfl
    | refine Keeps.ofFst (Keeps.foldlFst ?_ ?_) (by assumption)
    | split

theorem State.spileParity_keeps {z : State} {s : State} {m : SpMsg} {isLocal : Bool} (hs : Keeps z s) : Keeps z (State.spileParity s m isLocal) := by
  unfold State.spileParity
  with_reducible repeat' first
    | assumption
    | intro y
    | apply State.spileDetect_keeps
    | apply State.raise_keeps
    | apply State.count_keeps
    | apply State.capture_keeps
    | apply KeepsR.next
    | apply Keeps.ite
    | apply Keeps.foldl
    | apply Keeps.foldlFst
    | exact KeepsO.none
    | apply KeepsO.some
    | dsimp only
    | fail_if_no_progress refine Keeps.lit ?_ rfl rfl rfl rfl rfl rfl rfl rfl rfl

theorem State.engineWithdraw_keeps {z : State} {s : State} {c : Nat} {v : Nat} {phys : Nat} {n : Nat} {w : Who} {back : Bool} (hs : Keeps z s) : Keeps z (State.engineWithdraw s c v phys n w back) := by
  unfold State.engineWithdraw
  with_reducible repeat' first
    | assumption
    | intro y
    | apply State.enginePost_keeps
    | apply KeepsR.next
    | apply Keeps.ite
    | apply Keeps.foldl
    | apply Keeps.foldlFst
    | exact KeepsO.none
    | apply KeepsO.some
    | dsimp only
    | fail_if_no_progress refine Keeps.lit ?_ rfl rfl rfl rfl rfl rfl rfl rfl rfl

theorem State.engineWait_keeps {z : State} {s : State} {c : Nat} {phys : Nat} {n : Nat} {w : Who} (hs : Keeps z s) : Keeps z (State.engineWait s c phys n w) := by
  unfold State.engineWait
  with_reducible repeat' first
    | assumption
    | intro y
    | apply State.register_keeps
    | apply State.release_keeps
    | apply KeepsR.next
    | apply Keeps.ite

theorem State.deliver_keeps {z : State} {s : State} {port : Nat} {parity : Bool} {kind : SpOp → Bool} (hs : Keeps z s) : Keeps z (State.deliver s port parity kind) := by
  unfold State.deliver
  with_reducible repeat' first
    | assumption
    | intro y
    | apply State.engineTake_keeps
    | apply State.spileSettled_keeps
    | apply State.spileParity_keeps
    | apply State.failStep_keeps
    | apply State.enginePost_keeps
    | apply State.ctxNoteQ_keeps
    | apply State.engineWithdraw_keeps
    | apply State.count_keeps
    | apply State.engineWait_keeps
    | apply KeepsR.next
    | apply Keeps.ite
    | apply Keeps.foldl
    | apply Keeps.foldlFst
    | exact KeepsO.none
    | apply KeepsO.some
    | dsimp only
    | fail_if_no_progress refine Keeps.lit ?_ rfl rfl rfl rfl rfl rfl rfl rfl rfl
    | refine Keeps.ofFst (Keeps.foldlFst ?_ ?_) (by assumption)
    | split

theorem execSpileMap_keeps {z : State} {fn : Fin 32} {tag : Nat} {ctx : Fin 1024} {vgroup : Nat} {die : Nat} {isLocal : Bool} {s : State} (hs : Keeps z s) : KeepsR z (execSpileMap fn tag ctx vgroup die isLocal s) := by
  unfold execSpileMap
  with_reducible repeat' first
    | assumption
    | intro y
    | apply State.command_keeps
    | apply State.respond_keeps
    | apply KeepsR.next
    | apply Keeps.ite
    | apply Keeps.foldl
    | apply Keeps.foldlFst
    | exact KeepsO.none
    | apply KeepsO.some
    | dsimp only
    | fail_if_no_progress refine Keeps.lit ?_ rfl rfl rfl rfl rfl rfl rfl rfl rfl
    | refine Keeps.ofFst (Keeps.foldlFst ?_ ?_) (by assumption)
    | split

theorem execSpilePost_keeps {z : State} {port : Nat} {parity : Bool} {s : State} (hs : Keeps z s) : KeepsR z (execSpilePost port parity s) := by
  unfold execSpilePost
  with_reducible repeat' first
    | assumption
    | intro y
    | apply State.deliver_keeps
    | apply KeepsR.next

theorem execSpileReleaseArrive_keeps {z : State} {pg : Nat} {class0 : Bool} {entry : Option (Fin 8)} {s : State} (hs : Keeps z s) : KeepsR z (execSpileReleaseArrive pg class0 entry s) := by
  unfold execSpileReleaseArrive
  with_reducible repeat' first
    | assumption
    | intro y
    | apply State.setVat_keeps
    | apply State.modStep_keeps
    | apply KeepsR.next
    | apply Keeps.ite
    | apply Keeps.foldl
    | apply Keeps.foldlFst
    | exact KeepsO.none
    | apply KeepsO.some
    | dsimp only
    | fail_if_no_progress refine Keeps.lit ?_ rfl rfl rfl rfl rfl rfl rfl rfl rfl
    | refine Keeps.ofFst (Keeps.foldlFst ?_ ?_) (by assumption)
    | split

theorem execSpileTake_keeps {z : State} {port : Nat} {parity : Bool} {s : State} (hs : Keeps z s) : KeepsR z (execSpileTake port parity s) := by
  unfold execSpileTake
  with_reducible repeat' first
    | assumption
    | intro y
    | apply State.deliver_keeps
    | apply KeepsR.next

theorem execSpileUnmap_keeps {z : State} {fn : Fin 32} {tag : Nat} {ctx : Fin 1024} {vgroup : Nat} {s : State} (hs : Keeps z s) : KeepsR z (execSpileUnmap fn tag ctx vgroup s) := by
  unfold execSpileUnmap
  with_reducible repeat' first
    | assumption
    | intro y
    | apply State.command_keeps
    | apply State.respond_keeps
    | apply State.hold_keeps
    | apply KeepsR.next
    | apply Keeps.ite
    | apply Keeps.foldl
    | apply Keeps.foldlFst
    | exact KeepsO.none
    | apply KeepsO.some
    | dsimp only
    | fail_if_no_progress refine Keeps.lit ?_ rfl rfl rfl rfl rfl rfl rfl rfl rfl
    | refine Keeps.ofFst (Keeps.foldlFst ?_ ?_) (by assumption)
    | split

theorem execSpileWait_keeps {z : State} {port : Nat} {parity : Bool} {s : State} (hs : Keeps z s) : KeepsR z (execSpileWait port parity s) := by
  unfold execSpileWait
  with_reducible repeat' first
    | assumption
    | intro y
    | apply State.deliver_keeps
    | apply KeepsR.next

theorem execSpileWithdraw_keeps {z : State} {port : Nat} {s : State} (hs : Keeps z s) : KeepsR z (execSpileWithdraw port s) := by
  unfold execSpileWithdraw
  with_reducible repeat' first
    | assumption
    | intro y
    | apply State.deliver_keeps
    | apply KeepsR.next

theorem execSplPost_keeps {z : State} {fn : Fin 32} {slot : Fin 64} {v : Word} {s : State} (hs : Keeps z s) : KeepsR z (execSplPost fn slot v s) := by
  unfold execSplPost
  with_reducible repeat' first
    | assumption
    | intro y
    | apply State.enginePost_keeps
    | apply State.ctxNoteQ_keeps
    | apply State.count_keeps
    | apply KeepsR.next
    | apply Keeps.ite
    | apply Keeps.foldl
    | apply Keeps.foldlFst
    | exact KeepsO.none
    | apply KeepsO.some
    | dsimp only
    | fail_if_no_progress refine Keeps.lit ?_ rfl rfl rfl rfl rfl rfl rfl rfl rfl
    | refine Keeps.ofFst (Keeps.foldlFst ?_ ?_) (by assumption)
    | split

theorem execSplSet_keeps {z : State} {fn : Fin 32} {slot : Fin 64} {s : State} (hs : Keeps z s) : KeepsR z (execSplSet fn slot s) := by
  unfold execSplSet
  with_reducible repeat' first
    | assumption
    | intro y
    | apply State.setSpile_keeps
    | apply State.ctxNoteQ_keeps
    | apply State.count_keeps
    | apply KeepsR.next
    | apply Keeps.ite
    | apply Keeps.foldl
    | apply Keeps.foldlFst
    | exact KeepsO.none
    | apply KeepsO.some
    | dsimp only
    | fail_if_no_progress refine Keeps.lit ?_ rfl rfl rfl rfl rfl rfl rfl rfl rfl
    | refine Keeps.ofFst (Keeps.foldlFst ?_ ?_) (by assumption)
    | split

end Sys2Proof.Machine
end

