-- ==== Sys2Proof/Laws/KeepsSched.lean ====
section
/-! SUPPORT. Every operation of `Machine/Sched.lean` keeps the queue, the variant, the clock and the canonical stores. -/

namespace Sys2Proof.Machine

theorem State.showArmed_keeps {z : State} {s : State} {pg : Nat} (hs : Keeps z s) : Keeps z (State.showArmed s pg) := by
  unfold State.showArmed
  with_reducible repeat' first
    | assumption
    | intro y
    | apply State.wr_keeps

theorem State.armEntry_keeps {z : State} {s : State} {a : ArmReq} (hs : Keeps z s) : Keeps z (State.armEntry s a) := by
  unfold State.armEntry
  with_reducible repeat' first
    | assumption
    | intro y
    | apply State.setVat_keeps
    | apply State.failStep_keeps
    | apply State.spSend_keeps
    | apply State.ctxNoteQ_keeps
    | apply State.showArmed_keeps
    | apply KeepsR.next
    | apply Keeps.ite
    | apply Keeps.foldl
    | apply Keeps.foldlFst
    | exact KeepsO.none
    | apply KeepsO.some
    | dsimp only
    | fail_if_no_progress refine Keeps.lit ?_ rfl rfl rfl rfl rfl rfl rfl rfl rfl
    | refine Keeps.ofFst (Keeps.foldlFst ?_ ?_) (by assumption)
    | split

theorem State.armOrWait_keeps {z : State} {s : State} {a : ArmReq} (hs : Keeps z s) : Keeps z (State.armOrWait s a) := by
  unfold State.armOrWait
  with_reducible repeat' first
    | assumption
    | intro y
    | apply State.armEntry_keeps
    | apply State.setFloor_keeps
    | apply KeepsR.next
    | apply Keeps.ite

theorem State.dropEntries_keeps {z : State} {s : State} {id : Nat} (hs : Keeps z s) : Keeps z (State.dropEntries s id) := by
  unfold State.dropEntries
  with_reducible repeat' first
    | assumption
    | intro y
    | apply State.setVat_keeps
    | apply State.showArmed_keeps
    | apply KeepsR.next
    | apply Keeps.ite
    | apply Keeps.foldl
    | apply Keeps.foldlFst
    | exact KeepsO.none
    | apply KeepsO.some
    | dsimp only
    | fail_if_no_progress refine Keeps.lit ?_ rfl rfl rfl rfl rfl rfl rfl rfl rfl

theorem State.writeLoad_keeps {z : State} {s : State} {pg : Nat} {j : LoadJob} {bad : Bool} (hs : Keeps z s) : Keeps z (State.writeLoad s pg j bad) := by
  unfold State.writeLoad
  with_reducible repeat' first
    | assumption
    | intro y
    | apply State.setVat_keeps
    | apply State.wr_keeps

theorem State.gatePosts_keeps {z : State} {s : State} {c : Nat} {posts : List (Nat × Nat)} (hs : Keeps z s) : Keeps z (State.gatePosts s c posts) := by
  unfold State.gatePosts
  with_reducible repeat' first
    | assumption
    | intro y
    | apply State.spSend_keeps
    | apply KeepsR.next
    | apply Keeps.ite
    | apply Keeps.foldl

theorem State.presetLocals_keeps {z : State} {s : State} {c : Nat} {gs : List Nat} (hs : Keeps z s) : Keeps z (State.presetLocals s c gs) := by
  unfold State.presetLocals
  with_reducible repeat' first
    | assumption
    | intro y
    | apply State.setSpile_keeps
    | apply KeepsR.next
    | apply Keeps.ite
    | apply Keeps.foldl
    | apply Keeps.foldlFst
    | exact KeepsO.none
    | apply KeepsO.some
    | dsimp only
    | fail_if_no_progress refine Keeps.lit ?_ rfl rfl rfl rfl rfl rfl rfl rfl rfl
    | refine Keeps.ofFst (Keeps.foldlFst ?_ ?_) (by assumption)
    | split

theorem State.rerunStep_keeps {z : State} {s : State} {id : Nat} (hs : Keeps z s) : Keeps z (State.rerunStep s id) := by
  unfold State.rerunStep
  with_reducible repeat' first
    | assumption
    | intro y
    | apply State.setStep_keeps
    | apply State.spSend_keeps
    | apply State.gatePosts_keeps
    | apply State.presetLocals_keeps
    | apply State.count_keeps
    | apply State.dropEntries_keeps
    | apply State.armOrWait_keeps
    | apply KeepsR.next
    | apply Keeps.ite
    | apply Keeps.foldl
    | apply Keeps.foldlFst
    | exact KeepsO.none
    | apply KeepsO.some
    | dsimp only
    | fail_if_no_progress refine Keeps.lit ?_ rfl rfl rfl rfl rfl rfl rfl rfl rfl
    | refine Keeps.ofFst (Keeps.foldlFst ?_ ?_) (by assumption)
    | split

theorem State.showLoads_keeps {z : State} {s : State} {fp : Nat} (hs : Keeps z s) : Keeps z (State.showLoads s fp) := by
  unfold State.showLoads
  with_reducible repeat' first
    | assumption
    | intro y
    | apply State.wr_keeps

theorem State.writeSaveArea_keeps {z : State} {s : State} {pg : Nat} {k : Kernel} (hs : Keeps z s) : Keeps z (State.writeSaveArea s pg k) := by
  unfold State.writeSaveArea
  with_reducible repeat' first
    | assumption
    | intro y
    | apply State.kput_keeps
    | apply KeepsR.next
    | apply Keeps.ite
    | apply Keeps.foldl
    | apply Keeps.foldlFst
    | exact KeepsO.none
    | apply KeepsO.some
    | dsimp only
    | fail_if_no_progress refine Keeps.lit ?_ rfl rfl rfl rfl rfl rfl rfl rfl rfl

theorem State.suspend_keeps {z : State} {s : State} {pg : Nat} {k : Kernel} (hs : Keeps z s) : Keeps z (State.suspend s pg k) := by
  unfold State.suspend
  with_reducible repeat' first
    | assumption
    | intro y
    | apply State.setVat_keeps
    | apply State.writeSaveArea_keeps
    | apply State.showRun_keeps
    | apply State.spSend_keeps
    | apply State.wr_keeps
    | apply State.count_keeps
    | apply KeepsR.next
    | apply Keeps.ite
    | apply Keeps.foldl
    | apply Keeps.foldlFst
    | exact KeepsO.none
    | apply KeepsO.some
    | dsimp only
    | fail_if_no_progress refine Keeps.lit ?_ rfl rfl rfl rfl rfl rfl rfl rfl rfl
    | refine Keeps.ofFst (Keeps.foldlFst ?_ ?_) (by assumption)
    | split

theorem execDispatchArm_keeps {z : State} {a : ArmReq} {s : State} (hs : Keeps z s) : KeepsR z (execDispatchArm a s) := by
  unfold execDispatchArm
  with_reducible repeat' first
    | assumption
    | intro y
    | apply State.setStep_keeps
    | apply State.armOrWait_keeps
    | apply KeepsR.next
    | apply Keeps.ite

theorem execDispatchDisarm_keeps {z : State} {v : VatId} {e : Fin 8} {s : State} (hs : Keeps z s) : KeepsR z (execDispatchDisarm v e s) := by
  unfold execDispatchDisarm
  with_reducible repeat' first
    | assumption
    | intro y
    | apply State.setVat_keeps
    | apply State.spSend_keeps
    | apply State.showArmed_keeps
    | apply KeepsR.next
    | apply Keeps.ite
    | apply Keeps.foldl
    | apply Keeps.foldlFst
    | exact KeepsO.none
    | apply KeepsO.some
    | dsimp only
    | fail_if_no_progress refine Keeps.lit ?_ rfl rfl rfl rfl rfl rfl rfl rfl rfl
    | refine Keeps.ofFst (Keeps.foldlFst ?_ ?_) (by assumption)
    | split

theorem execDispatchReady_keeps {z : State} {v : VatId} {e : Fin 8} {s : State} (hs : Keeps z s) : KeepsR z (execDispatchReady v e s) := by
  unfold execDispatchReady
  with_reducible repeat' first
    | assumption
    | intro y
    | apply State.setVat_keeps
    | apply State.suspend_keeps
    | apply KeepsR.next
    | apply Keeps.ite
    | apply Keeps.foldl
    | apply Keeps.foldlFst
    | exact KeepsO.none
    | apply KeepsO.some
    | dsimp only
    | fail_if_no_progress refine Keeps.lit ?_ rfl rfl rfl rfl rfl rfl rfl rfl rfl
    | refine Keeps.ofFst (Keeps.foldlFst ?_ ?_) (by assumption)
    | split

theorem execKernelStart_keeps {z : State} {v : VatId} {s : State} (hs : Keeps z s) : KeepsR z (execKernelStart v s) := by
  unfold execKernelStart
  with_reducible repeat' first
    | assumption
    | intro y
    | apply State.setVat_keeps
    | apply State.failStep_keeps
    | apply State.showRun_keeps
    | apply State.ctxNote_keeps
    | apply State.raise_keeps
    | apply State.count_keeps
    | apply State.showArmed_keeps
    | apply KeepsR.next
    | apply Keeps.ite
    | apply Keeps.foldl
    | apply Keeps.foldlFst
    | exact KeepsO.none
    | apply KeepsO.some
    | dsimp only
    | fail_if_no_progress refine Keeps.lit ?_ rfl rfl rfl rfl rfl rfl rfl rfl rfl
    | refine Keeps.ofFst (Keeps.foldlFst ?_ ?_) (by assumption)
    | split

theorem execLoadCommand_keeps {z : State} {f : FloorId} {job : LoadJob} {s : State} (hs : Keeps z s) : KeepsR z (execLoadCommand f job s) := by
  unfold execLoadCommand
  with_reducible repeat' first
    | assumption
    | intro y
    | apply State.showLoads_keeps
    | apply State.setFloor_keeps
    | apply KeepsR.next
    | apply Keeps.ite

theorem execLoadDone_keeps {z : State} {f : FloorId} {bad1 : Fin 256} {bad2 : Fin 256} {s : State} (hs : Keeps z s) : KeepsR z (execLoadDone f bad1 bad2 s) := by
  unfold execLoadDone
  with_reducible repeat' first
    | assumption
    | intro y
    | apply State.showLoads_keeps
    | apply State.setFloor_keeps
    | apply State.writeLoad_keeps
    | apply State.raise_keeps
    | apply State.count_keeps
    | apply State.armOrWait_keeps
    | apply KeepsR.next
    | apply Keeps.ite
    | apply Keeps.foldl
    | apply Keeps.foldlFst
    | exact KeepsO.none
    | apply KeepsO.some
    | dsimp only
    | fail_if_no_progress refine Keeps.lit ?_ rfl rfl rfl rfl rfl rfl rfl rfl rfl
    | refine Keeps.ofFst (Keeps.foldlFst ?_ ?_) (by assumption)
    | split

theorem execLoadStart_keeps {z : State} {f : FloorId} {s : State} (hs : Keeps z s) : KeepsR z (execLoadStart f s) := by
  unfold execLoadStart
  with_reducible repeat' first
    | assumption
    | intro y
    | apply State.showLoads_keeps
    | apply State.setFloor_keeps
    | apply KeepsR.next
    | apply Keeps.ite
    | apply Keeps.foldl
    | apply Keeps.foldlFst
    | exact KeepsO.none
    | apply KeepsO.some
    | dsimp only
    | fail_if_no_progress refine Keeps.lit ?_ rfl rfl rfl rfl rfl rfl rfl rfl rfl
    | refine Keeps.ofFst (Keeps.foldlFst ?_ ?_) (by assumption)
    | split

end Sys2Proof.Machine
end

