-- ==== Sys2Proof/Laws/KeepsRotation.lean ====
section
/-! SUPPORT. Every operation of `Machine/Rotation.lean` keeps the queue, the variant, the clock and the canonical stores. -/

namespace Sys2Proof.Machine

theorem State.zeroStore_keeps {z : State} {s : State} {pg : Nat} (hs : Keeps z s) : Keeps z (State.zeroStore s pg) := by
  unfold State.zeroStore
  exact hs.of rfl rfl rfl fun c => ⟨by dsimp only; exact wf_mfilterOut _ c.vstore, c.fstore, c.mem, c.host, c.regs, c.ctrs⟩

theorem State.showRot_keeps {z : State} {s : State} {fp : Nat} {phase : Nat} {out : Nat} {inc : Nat} {kib : Nat} (hs : Keeps z s) : Keeps z (State.showRot s fp phase out inc kib) := by
  unfold State.showRot
  with_reducible repeat' first
    | assumption
    | intro y
    | apply State.wr_keeps

theorem State.abandonRotation_keeps {z : State} {s : State} {fp : Nat} (hs : Keeps z s) : Keeps z (State.abandonRotation s fp) := by
  unfold State.abandonRotation
  with_reducible repeat' first
    | assumption
    | intro y
    | apply State.zeroStore_keeps
    | apply State.raise_keeps
    | apply State.showRot_keeps
    | apply State.count_keeps
    | apply KeepsR.next
    | apply Keeps.ite

theorem State.segLost_keeps {z : State} {s : State} {c : Nat} {code : Nat} {die : Nat} {floor : Nat} {vat : Nat} {item : Nat} (hs : Keeps z s) : Keeps z (State.segLost s c code die floor vat item) := by
  unfold State.segLost
  with_reducible repeat' first
    | assumption
    | intro y
    | apply State.ctxEvent_keeps

theorem State.banksLost_keeps {z : State} {s : State} {pg : Nat} {L : Nat} {banks : List Nat} (hs : Keeps z s) : Keeps z (State.banksLost s pg L banks) := by
  unfold State.banksLost
  with_reducible repeat' first
    | assumption
    | intro y
    | apply State.segLost_keeps
    | apply KeepsR.next
    | apply Keeps.ite
    | apply Keeps.foldl

theorem State.clearTags_keeps {z : State} {s : State} {pg : Nat} (hs : Keeps z s) : Keeps z (State.clearTags s pg) := by
  unfold State.clearTags
  with_reducible repeat' first
    | assumption
    | intro y
    | apply State.wri_keeps
    | apply KeepsR.next
    | apply Keeps.ite
    | apply Keeps.foldl

theorem wf_copyIn (f : Nat → Nat) {m l : AMap Byte} (hm : Memory.wf m = true) (hl : Memory.wf l = true) :
    Memory.wf (l.foldl (fun m e => mput m (f e.1) e.2) m) = true := by
  have hn := ((wf_iff l).mp hl).2
  clear hl
  induction l generalizing m with
  | nil => exact hm
  | cons e l ih => exact ih (wf_mput hm _ (hn e (by simp))) fun x hx => hn x (by simp [hx])

theorem State.copyStore_keeps {z : State} {s : State} {a : Nat} {b : Nat} (hs : Keeps z s) : Keeps z (State.copyStore s a b) := by
  unfold State.copyStore
  extract_lets +onlyGivenNames s1 mv
  have h1 : Keeps z s1 := State.zeroStore_keeps hs
  refine ⟨h1.pending, h1.variant, h1.now, fun c => ⟨?_, (h1.canon c).fstore, (h1.canon c).mem, (h1.canon c).host, (h1.canon c).regs,
    (h1.canon c).ctrs⟩⟩
  exact wf_copyIn _ (h1.canon c).vstore (wf_filter _ (hs.canon c).vstore)

theorem State.failVatSteps_keeps {z : State} {s : State} {pg : Nat} (hs : Keeps z s) : Keeps z (State.failVatSteps s pg) := by
  unfold State.failVatSteps
  with_reducible repeat' first
    | assumption
    | intro y
    | apply State.setVat_keeps
    | apply State.failStep_keeps
    | apply State.wr_keeps
    | apply State.endKernel_keeps
    | apply State.showArmed_keeps
    | apply KeepsR.next
    | apply Keeps.ite
    | apply Keeps.foldl

theorem State.moveTags_keeps {z : State} {s : State} {a : Nat} {b : Nat} (hs : Keeps z s) : Keeps z (State.moveTags s a b) := by
  unfold State.moveTags
  with_reducible repeat' first
    | assumption
    | intro y
    | apply State.clearTags_keeps
    | apply State.wri_keeps
    | apply KeepsR.next
    | apply Keeps.ite
    | apply Keeps.foldl

theorem State.markVatRetired_keeps {z : State} {s : State} {pg : Nat} (hs : Keeps z s) : Keeps z (State.markVatRetired s pg) := by
  unfold State.markVatRetired
  with_reducible repeat' first
    | assumption
    | intro y
    | apply State.wr_keeps
    | apply State.raise_keeps
    | apply KeepsR.next
    | apply Keeps.ite
    | apply Keeps.foldl
    | apply Keeps.foldlFst
    | exact KeepsO.none
    | apply KeepsO.some
    | dsimp only
    | fail_if_no_progress refine Keeps.lit ?_ rfl rfl rfl rfl rfl rfl rfl rfl rfl

theorem State.retireVat_keeps {z : State} {s : State} {pg : Nat} (hs : Keeps z s) : Keeps z (State.retireVat s pg) := by
  unfold State.retireVat
  with_reducible repeat' first
    | assumption
    | intro y
    | apply State.moveTags_keeps
    | apply State.banksLost_keeps
    | apply State.setVat_keeps
    | apply State.zeroStore_keeps
    | apply State.clearTags_keeps
    | apply State.wake_keeps
    | apply State.failVatSteps_keeps
    | apply State.wri_keeps
    | apply State.wr_keeps
    | apply State.abandonRotation_keeps
    | apply State.markVatRetired_keeps
    | apply State.raise_keeps
    | apply State.segLost_keeps
    | apply KeepsR.next
    | apply Keeps.ite
    | apply Keeps.foldl
    | apply Keeps.foldlFst
    | exact KeepsO.none
    | apply KeepsO.some
    | dsimp only
    | fail_if_no_progress refine Keeps.lit ?_ rfl rfl rfl rfl rfl rfl rfl rfl rfl

theorem State.moveSpiles_keeps {z : State} {s : State} {a : Nat} {b : Nat} (hs : Keeps z s) : Keeps z (State.moveSpiles s a b) := by
  unfold State.moveSpiles
  with_reducible repeat' first
    | assumption
    | intro y
    | apply KeepsR.next
    | apply Keeps.ite
    | apply Keeps.foldl
    | apply Keeps.foldlFst
    | exact KeepsO.none
    | apply KeepsO.some
    | dsimp only
    | fail_if_no_progress refine Keeps.lit ?_ rfl rfl rfl rfl rfl rfl rfl rfl rfl

theorem State.moveVat_keeps {z : State} {s : State} {a : Nat} {b : Nat} (hs : Keeps z s) : Keeps z (State.moveVat s a b) := by
  unfold State.moveVat
  with_reducible repeat' first
    | assumption
    | intro y
    | apply State.moveTags_keeps
    | apply State.setVat_keeps
    | apply State.wr_keeps
    | apply State.moveSpiles_keeps
    | apply State.showArmed_keeps
    | apply KeepsR.next
    | apply Keeps.ite
    | apply Keeps.foldl
    | apply Keeps.foldlFst
    | exact KeepsO.none
    | apply KeepsO.some
    | dsimp only
    | fail_if_no_progress refine Keeps.lit ?_ rfl rfl rfl rfl rfl rfl rfl rfl rfl

theorem execRotLimitExpire_keeps {z : State} {f : FloorId} {s : State} (hs : Keeps z s) : KeepsR z (execRotLimitExpire f s) := by
  unfold execRotLimitExpire
  with_reducible repeat' first
    | assumption
    | intro y
    | apply State.abandonRotation_keeps
    | apply KeepsR.next
    | apply Keeps.ite

theorem execRotReq_keeps {z : State} {fn : Fin 32} {f : FloorId} {v : Word} {s : State} (hs : Keeps z s) : KeepsR z (execRotReq fn f v s) := by
  unfold execRotReq
  with_reducible repeat' first
    | assumption
    | intro y
    | apply State.setFloor_keeps
    | apply State.blockAction_keeps
    | apply KeepsR.next
    | apply Keeps.ite

theorem execRotationClearDone_keeps {z : State} {f : FloorId} {s : State} (hs : Keeps z s) : KeepsR z (execRotationClearDone f s) := by
  unfold execRotationClearDone
  with_reducible repeat' first
    | assumption
    | intro y
    | apply State.setVat_keeps
    | apply State.zeroStore_keeps
    | apply State.wr_keeps
    | apply State.raise_keeps
    | apply State.count_keeps
    | apply KeepsR.next
    | apply Keeps.ite
    | apply Keeps.foldl
    | apply Keeps.foldlFst
    | exact KeepsO.none
    | apply KeepsO.some
    | dsimp only
    | fail_if_no_progress refine Keeps.lit ?_ rfl rfl rfl rfl rfl rfl rfl rfl rfl

theorem execRotationStart_keeps {z : State} {f : FloorId} {s : State} (hs : Keeps z s) : KeepsR z (execRotationStart f s) := by
  unfold execRotationStart
  with_reducible repeat' first
    | assumption
    | intro y
    | apply State.setFloor_keeps
    | apply State.showRot_keeps
    | apply KeepsR.next
    | apply Keeps.ite
    | apply Keeps.foldl
    | apply Keeps.foldlFst
    | exact KeepsO.none
    | apply KeepsO.some
    | dsimp only
    | fail_if_no_progress refine Keeps.lit ?_ rfl rfl rfl rfl rfl rfl rfl rfl rfl
    | refine Keeps.ofFst (Keeps.foldlFst ?_ ?_) (by assumption)
    | split

theorem execRotationSwap_keeps {z : State} {f : FloorId} {s : State} (hs : Keeps z s) : KeepsR z (execRotationSwap f s) := by
  unfold execRotationSwap
  with_reducible repeat' first
    | assumption
    | intro y
    | apply State.setVat_keeps
    | apply State.copyStore_keeps
    | apply State.wr_keeps
    | apply State.moveVat_keeps
    | apply KeepsR.next
    | apply Keeps.ite

theorem execSweepDone_keeps {z : State} {f : FloorId} {s : State} (hs : Keeps z s) : KeepsR z (execSweepDone f s) := by
  unfold execSweepDone
  with_reducible repeat' first
    | assumption
    | intro y
    | apply State.wr_keeps
    | apply State.count_keeps
    | apply KeepsR.next
    | apply Keeps.ite

end Sys2Proof.Machine
end

