-- ==== Sys2Proof/Laws/KeepsCounts.lean ====
section
/-! SUPPORT. Every operation of `Machine/Counts.lean` keeps the queue, the variant, the clock and the canonical stores. -/

namespace Sys2Proof.Machine

theorem State.recount_keeps {z : State} {s : State} (hs : Keeps z s) : Keeps z (State.recount s) := by
  unfold State.recount
  with_reducible repeat' first
    | assumption
    | intro y
    | apply State.wr_keeps
    | apply State.raise_keeps
    | apply KeepsR.next
    | apply Keeps.ite
    | apply Keeps.foldl

end Sys2Proof.Machine
end

