-- ==== Sys2Proof/Laws/KeepsBanks.lean ====
section
/-! SUPPORT. Every operation of `Machine/Banks.lean` keeps the queue, the variant, the clock and the canonical stores. -/

namespace Sys2Proof.Machine

theorem State.fillBank_keeps {z : State} {s : State} {pg : Nat} {b : Nat} {owner : Option Nat} {pinned : Bool} (hs : Keeps z s) : Keeps z (State.fillBank s pg b owner pinned) := by
  unfold State.fillBank
  with_reducible repeat' first
    | assumption
    | intro y
    | apply State.setVat_keeps
    | apply State.wri_keeps

theorem State.setBankTag_keeps {z : State} {s : State} {pg : Nat} {b : Nat} {owner : Option Nat} {pinned : Bool} (hs : Keeps z s) : Keeps z (State.setBankTag s pg b owner pinned) := by
  unfold State.setBankTag
  with_reducible repeat' first
    | assumption
    | intro y
    | apply State.wri_keeps

theorem State.assignBank_keeps {z : State} {s : State} {pg : Nat} {c : Nat} {pinned : Bool} {b : Nat} (hs : Keeps z s) : Keeps z (State.assignBank s pg c pinned b) := by
  unfold State.assignBank
  with_reducible repeat' first
    | assumption
    | intro y
    | apply State.fillBank_keeps
    | apply State.setBankTag_keeps
    | apply State.wri_keeps
    | apply KeepsR.next
    | apply Keeps.ite
    | apply Keeps.foldl
    | apply Keeps.foldlFst
    | exact KeepsO.none
    | apply KeepsO.some
    | dsimp only
    | fail_if_no_progress refine Keeps.lit ?_ rfl rfl rfl rfl rfl rfl rfl rfl rfl
    | refine Keeps.ofFst (Keeps.foldlFst ?_ ?_) (by assumption)
    | split

theorem State.fillSeg_keeps {z : State} {s : State} {fp : Nat} {g : Nat} {owner : Option Nat} {pinned : Bool} (hs : Keeps z s) : Keeps z (State.fillSeg s fp g owner pinned) := by
  unfold State.fillSeg
  with_reducible repeat' first
    | assumption
    | intro y
    | apply State.setFloor_keeps
    | apply State.wri_keeps

theorem State.setSegTag_keeps {z : State} {s : State} {fp : Nat} {g : Nat} {owner : Option Nat} {pinned : Bool} (hs : Keeps z s) : Keeps z (State.setSegTag s fp g owner pinned) := by
  unfold State.setSegTag
  with_reducible repeat' first
    | assumption
    | intro y
    | apply State.wri_keeps

theorem State.assignSeg_keeps {z : State} {s : State} {fp : Nat} {c : Nat} {pinned : Bool} {g : Nat} (hs : Keeps z s) : Keeps z (State.assignSeg s fp c pinned g) := by
  unfold State.assignSeg
  with_reducible repeat' first
    | assumption
    | intro y
    | apply State.wri_keeps
    | apply State.fillSeg_keeps
    | apply State.setSegTag_keeps
    | apply KeepsR.next
    | apply Keeps.ite
    | apply Keeps.foldl
    | apply Keeps.foldlFst
    | exact KeepsO.none
    | apply KeepsO.some
    | dsimp only
    | fail_if_no_progress refine Keeps.lit ?_ rfl rfl rfl rfl rfl rfl rfl rfl rfl
    | refine Keeps.ofFst (Keeps.foldlFst ?_ ?_) (by assumption)
    | split

theorem State.commandUnless_keeps {z : State} {s : State} {wait : Bool} {fn : Nat} {tag : Nat} {op : Nat} {body : State → State} (hs : Keeps z s) (hbody : ∀ y0, Keeps z y0 → Keeps z (body y0)) : Keeps z (State.commandUnless s wait fn tag op body) := by
  unfold State.commandUnless
  with_reducible repeat' first
    | assumption
    | intro y
    | apply State.command_keeps
    | apply hbody
    | apply KeepsR.next
    | apply Keeps.ite

theorem State.zeroSeg_keeps {z : State} {s : State} {fp : Nat} {g : Nat} (hs : Keeps z s) : Keeps z (State.zeroSeg s fp g) := by
  unfold State.zeroSeg
  exact hs.of rfl rfl rfl fun c => ⟨c.vstore, by dsimp only; exact wf_mfilterOut _ c.fstore, c.mem, c.host, c.regs, c.ctrs⟩

theorem State.doneOrFill_keeps {z : State} {s : State} {fn : Nat} {tag : Nat} {on : WaitOn} {filling : Bool} (hs : Keeps z s) : Keeps z (State.doneOrFill s fn tag on filling) := by
  unfold State.doneOrFill
  with_reducible repeat' first
    | assumption
    | intro y
    | apply State.respond_keeps
    | apply State.hold_keeps
    | apply KeepsR.next
    | apply Keeps.ite

theorem State.zeroBank_keeps {z : State} {s : State} {pg : Nat} {b : Nat} (hs : Keeps z s) : Keeps z (State.zeroBank s pg b) := by
  unfold State.zeroBank
  exact hs.of rfl rfl rfl fun c => ⟨by dsimp only; exact wf_mfilterOut _ c.vstore, c.fstore, c.mem, c.host, c.regs, c.ctrs⟩

theorem State.endBankFill_keeps {z : State} {s : State} {pg : Nat} {b : Nat} (hs : Keeps z s) : Keeps z (State.endBankFill s pg b) := by
  unfold State.endBankFill
  with_reducible repeat' first
    | assumption
    | intro y
    | apply State.setVat_keeps
    | apply State.zeroBank_keeps
    | apply State.setBankTag_keeps
    | apply State.wake_keeps
    | apply KeepsR.next
    | apply Keeps.ite
    | apply Keeps.foldl
    | apply Keeps.foldlFst
    | exact KeepsO.none
    | apply KeepsO.some
    | dsimp only
    | fail_if_no_progress refine Keeps.lit ?_ rfl rfl rfl rfl rfl rfl rfl rfl rfl
    | refine Keeps.ofFst (Keeps.foldlFst ?_ ?_) (by assumption)
    | split

theorem State.endSegFill_keeps {z : State} {s : State} {fp : Nat} {g : Nat} (hs : Keeps z s) : Keeps z (State.endSegFill s fp g) := by
  unfold State.endSegFill
  with_reducible repeat' first
    | assumption
    | intro y
    | apply State.setFloor_keeps
    | apply State.wake_keeps
    | apply State.setSegTag_keeps
    | apply State.zeroSeg_keeps
    | apply KeepsR.next
    | apply Keeps.ite
    | apply Keeps.foldl
    | apply Keeps.foldlFst
    | exact KeepsO.none
    | apply KeepsO.some
    | dsimp only
    | fail_if_no_progress refine Keeps.lit ?_ rfl rfl rfl rfl rfl rfl rfl rfl rfl
    | refine Keeps.ofFst (Keeps.foldlFst ?_ ?_) (by assumption)
    | split

theorem State.poisonSeg_keeps {z : State} {s : State} {fp : Nat} {g : Nat} (hs : Keeps z s) : Keeps z (State.poisonSeg s fp g) := by
  unfold State.poisonSeg
  with_reducible repeat' first
    | assumption
    | intro y
    | apply State.zeroSeg_keeps
    | apply KeepsR.next
    | apply Keeps.ite
    | apply Keeps.foldl
    | apply Keeps.foldlFst
    | exact KeepsO.none
    | apply KeepsO.some
    | dsimp only
    | fail_if_no_progress refine Keeps.lit ?_ rfl rfl rfl rfl rfl rfl rfl rfl rfl

theorem State.putSeg_keeps {z : State} {s : State} {fp : Nat} {g : Nat} {off : Nat} {bs : List Byte} (hs : Keeps z s) : Keeps z (State.putSeg s fp g off bs) :=
  hs.of rfl rfl rfl fun c => ⟨c.vstore, wf_bputList c.fstore _ _, c.mem, c.host, c.regs, c.ctrs⟩

theorem execBankAssign_keeps {z : State} {fn : Fin 32} {tag : Nat} {ctx : Fin 1024} {die : Nat} {floor : Nat} {vat : Nat} {pinned : Bool} {mask : Fin 65536} {s : State} (hs : Keeps z s) : KeepsR z (execBankAssign fn tag ctx die floor vat pinned mask s) := by
  unfold execBankAssign
  with_reducible repeat' first
    | assumption
    | intro y
    | apply State.command_keeps
    | apply State.assignBank_keeps
    | apply State.doneOrFill_keeps
    | apply State.commandUnless_keeps
    | apply State.respond_keeps
    | apply KeepsR.next
    | apply Keeps.ite
    | apply Keeps.foldl
    | apply Keeps.foldlFst
    | exact KeepsO.none
    | apply KeepsO.some
    | dsimp only
    | fail_if_no_progress refine Keeps.lit ?_ rfl rfl rfl rfl rfl rfl rfl rfl rfl
    | refine Keeps.ofFst (Keeps.foldlFst ?_ ?_) (by assumption)
    | split

theorem execBankClearDone_keeps {z : State} {v : VatId} {b : Fin 16} {s : State} (hs : Keeps z s) : KeepsR z (execBankClearDone v b s) := by
  unfold execBankClearDone
  with_reducible repeat' first
    | assumption
    | intro y
    | apply State.endBankFill_keeps
    | apply KeepsR.next

theorem execBankRelease_keeps {z : State} {fn : Fin 32} {tag : Nat} {ctx : Fin 1024} {die : Nat} {floor : Nat} {vat : Nat} {mask : Fin 65536} {s : State} (hs : Keeps z s) : KeepsR z (execBankRelease fn tag ctx die floor vat mask s) := by
  unfold execBankRelease
  with_reducible repeat' first
    | assumption
    | intro y
    | apply State.fillBank_keeps
    | apply State.command_keeps
    | apply State.doneOrFill_keeps
    | apply State.commandUnless_keeps
    | apply State.respond_keeps
    | apply KeepsR.next
    | apply Keeps.ite
    | apply Keeps.foldl
    | apply Keeps.foldlFst
    | exact KeepsO.none
    | apply KeepsO.some
    | dsimp only
    | fail_if_no_progress refine Keeps.lit ?_ rfl rfl rfl rfl rfl rfl rfl rfl rfl
    | refine Keeps.ofFst (Keeps.foldlFst ?_ ?_) (by assumption)
    | split

theorem execSegAssign_keeps {z : State} {fn : Fin 32} {tag : Nat} {ctx : Fin 1024} {die : Nat} {floor : Nat} {pinned : Bool} {mask : Word} {s : State} (hs : Keeps z s) : KeepsR z (execSegAssign fn tag ctx die floor pinned mask s) := by
  unfold execSegAssign
  with_reducible repeat' first
    | assumption
    | intro y
    | apply State.command_keeps
    | apply State.doneOrFill_keeps
    | apply State.commandUnless_keeps
    | apply State.respond_keeps
    | apply State.assignSeg_keeps
    | apply KeepsR.next
    | apply Keeps.ite
    | apply Keeps.foldl
    | apply Keeps.foldlFst
    | exact KeepsO.none
    | apply KeepsO.some
    | dsimp only
    | fail_if_no_progress refine Keeps.lit ?_ rfl rfl rfl rfl rfl rfl rfl rfl rfl
    | refine Keeps.ofFst (Keeps.foldlFst ?_ ?_) (by assumption)
    | split

theorem execSegClearDone_keeps {z : State} {f : FloorId} {g : Fin 32} {s : State} (hs : Keeps z s) : KeepsR z (execSegClearDone f g s) := by
  unfold execSegClearDone
  with_reducible repeat' first
    | assumption
    | intro y
    | apply State.endSegFill_keeps
    | apply KeepsR.next

theorem execSegRelease_keeps {z : State} {fn : Fin 32} {tag : Nat} {ctx : Fin 1024} {die : Nat} {floor : Nat} {mask : Word} {s : State} (hs : Keeps z s) : KeepsR z (execSegRelease fn tag ctx die floor mask s) := by
  unfold execSegRelease
  with_reducible repeat' first
    | assumption
    | intro y
    | apply State.command_keeps
    | apply State.doneOrFill_keeps
    | apply State.fillSeg_keeps
    | apply State.commandUnless_keeps
    | apply State.respond_keeps
    | apply KeepsR.next
    | apply Keeps.ite
    | apply Keeps.foldl
    | apply Keeps.foldlFst
    | exact KeepsO.none
    | apply KeepsO.some
    | dsimp only
    | fail_if_no_progress refine Keeps.lit ?_ rfl rfl rfl rfl rfl rfl rfl rfl rfl
    | refine Keeps.ofFst (Keeps.foldlFst ?_ ?_) (by assumption)
    | split

theorem execSegRetire_keeps {z : State} {f : FloorId} {g : Fin 32} {data : Option (List Byte)} {s : State} (hs : Keeps z s) : KeepsR z (execSegRetire f g data s) := by
  unfold execSegRetire
  with_reducible repeat' first
    | assumption
    | intro y
    | apply State.setFloor_keeps
    | apply State.wri_keeps
    | apply State.wr_keeps
    | apply State.putSeg_keeps
    | apply State.raise_keeps
    | apply State.zeroSeg_keeps
    | apply State.segLost_keeps
    | apply State.recount_keeps
    | apply State.poisonSeg_keeps
    | apply State.count_keeps
    | apply KeepsR.next
    | apply Keeps.ite
    | apply Keeps.foldl
    | apply Keeps.foldlFst
    | exact KeepsO.none
    | apply KeepsO.some
    | dsimp only
    | fail_if_no_progress refine Keeps.lit ?_ rfl rfl rfl rfl rfl rfl rfl rfl rfl
    | refine Keeps.ofFst (Keeps.foldlFst ?_ ?_) (by assumption)
    | split

end Sys2Proof.Machine
end

