-- ==== Sys2Proof/Laws/KeepsRegAccess.lean ====
section
/-! SUPPORT. Every operation of `Machine/RegAccess.lean` keeps the queue, the variant, the clock and the canonical stores. -/

namespace Sys2Proof.Machine

theorem State.afterWrite_keeps {z : State} {s0 : State} {s : State} {pg : Nat} {off : Nat} {w : Nat} (hs0 : Keeps z s0) (hs : Keeps z s) : Keeps z (State.afterWrite s0 s pg off w) := by
  unfold State.afterWrite
  with_reducible repeat' first
    | assumption
    | intro y
    | apply State.wr_keeps
    | apply KeepsR.next
    | apply Keeps.ite
    | apply Keeps.foldl
    | apply Keeps.foldlFst
    | exact KeepsO.none
    | apply KeepsO.some
    | dsimp only
    | fail_if_no_progress refine Keeps.lit ?_ rfl rfl rfl rfl rfl rfl rfl rfl rfl

theorem State.latchPage_keeps {z : State} {s : State} {seq : Nat} {forced : Bool} {pg : Nat} (hs : Keeps z s) : Keeps z (State.latchPage s seq forced pg) := by
  unfold State.latchPage
  with_reducible repeat' first
    | assumption
    | intro y
    | apply State.wri_keeps
    | apply State.wr_keeps
    | apply KeepsR.next
    | apply Keeps.ite
    | apply Keeps.foldl

theorem State.fireSnap_keeps {z : State} {s : State} {forced : Bool} {missing : List Nat} (hs : Keeps z s) : Keeps z (State.fireSnap s forced missing) := by
  unfold State.fireSnap
  extract_lets +onlyGivenNames seq pages s1 s2
  have h1 : Keeps z s1 := State.wr_keeps (State.wr_keeps hs)
  have h2 : Keeps z s2 := Keeps.foldl (fun t x h => State.latchPage_keeps h) h1
  clear_value s2
  exact h2.of rfl rfl rfl fun c => ⟨c.vstore, c.fstore, c.mem, c.host, c.regs, sorted_nputD (sorted_nputD (sorted_nputD c.ctrs _ _ _) _ _ _) _ _ _⟩

theorem State.headerAction_keeps {z : State} {s : State} {p : PageAcc} {o : Nat} {body : Nat → State} (hs : Keeps z s) (hbody : ∀ y0, Keeps z (body y0)) : Keeps z (State.headerAction s p o body) := by
  unfold State.headerAction
  with_reducible repeat' first
    | assumption
    | intro y
    | apply State.accessErr_keeps
    | apply hbody
    | apply KeepsR.next
    | apply Keeps.ite
    | apply Keeps.foldl
    | apply Keeps.foldlFst
    | exact KeepsO.none
    | apply KeepsO.some
    | dsimp only
    | fail_if_no_progress refine Keeps.lit ?_ rfl rfl rfl rfl rfl rfl rfl rfl rfl
    | refine Keeps.ofFst (Keeps.foldlFst ?_ ?_) (by assumption)
    | split

theorem State.readHi_keeps {z : State} {s : State} {pg : Nat} {off : Nat} {val : Nat} (hs : Keeps z s) : Keeps z (State.readHi s pg off val) := by
  unfold State.readHi
  with_reducible repeat' first
    | assumption
    | intro y
    | apply KeepsR.next
    | apply Keeps.ite
    | apply Keeps.foldl
    | apply Keeps.foldlFst
    | exact KeepsO.none
    | apply KeepsO.some
    | dsimp only
    | fail_if_no_progress refine Keeps.lit ?_ rfl rfl rfl rfl rfl rfl rfl rfl rfl
    | refine Keeps.ofFst (Keeps.foldlFst ?_ ?_) (by assumption)
    | split

theorem State.readLo_keeps {z : State} {s : State} {pg : Nat} {off : Nat} {val : Nat} (hs : Keeps z s) : Keeps z (State.readLo s pg off val) := by
  unfold State.readLo
  with_reducible repeat' first
    | assumption
    | intro y
    | apply KeepsR.next
    | apply Keeps.ite
    | apply Keeps.foldl
    | apply Keeps.foldlFst
    | exact KeepsO.none
    | apply KeepsO.some
    | dsimp only
    | fail_if_no_progress refine Keeps.lit ?_ rfl rfl rfl rfl rfl rfl rfl rfl rfl

theorem State.refuse_keeps {z : State} {s : State} {a : RegAcc} {x2 : Refuse} (hs : Keeps z s) : Keeps z (State.refuse s a x2) := by
  unfold State.refuse
  with_reducible repeat' first
    | assumption
    | intro y
    | apply State.accessErr_keeps
    | apply State.raise_keeps
    | apply KeepsR.next
    | apply Keeps.ite
    | apply Keeps.foldl
    | apply Keeps.foldlFst
    | exact KeepsO.none
    | apply KeepsO.some
    | dsimp only
    | fail_if_no_progress refine Keeps.lit ?_ rfl rfl rfl rfl rfl rfl rfl rfl rfl
    | refine Keeps.ofFst (Keeps.foldlFst ?_ ?_) (by assumption)
    | split

theorem State.snapMissed_keeps {z : State} {s : State} (hs : Keeps z s) : Keeps z (State.snapMissed s) := by
  unfold State.snapMissed
  with_reducible repeat' first
    | assumption
    | intro y
    | apply State.wr_keeps
    | apply State.raise_keeps

theorem State.writeField_keeps {z : State} {s0 : State} {s : State} {a : RegAcc} {pg : Nat} {k : PageKind} {fd : Field} {i : Nat} {w : Nat} (hs0 : Keeps z s0) (hs : Keeps z s) : Keeps z (State.writeField s0 s a pg k fd i w) := by
  unfold State.writeField
  with_reducible repeat' first
    | assumption
    | intro y
    | apply State.wri_keeps
    | apply State.refuse_keeps
    | apply State.accessErr_keeps
    | apply KeepsR.next
    | apply Keeps.ite
    | apply Keeps.foldl
    | apply Keeps.foldlFst
    | exact KeepsO.none
    | apply KeepsO.some
    | dsimp only
    | fail_if_no_progress refine Keeps.lit ?_ rfl rfl rfl rfl rfl rfl rfl rfl rfl
    | refine Keeps.ofFst (Keeps.foldlFst ?_ ?_) (by assumption)
    | split

theorem State.writeReg_keeps {z : State} {s : State} {a : RegAcc} {pg : Nat} {k : PageKind} {off : Nat} {pt : Bool} {w : Nat} (hs : Keeps z s) : Keeps z (State.writeReg s a pg k off pt w) := by
  unfold State.writeReg
  with_reducible repeat' first
    | assumption
    | intro y
    | apply State.wr_keeps
    | apply State.afterWrite_keeps
    | apply State.accessErr_keeps
    | apply State.writeField_keeps
    | apply KeepsR.next
    | apply Keeps.ite
    | apply Keeps.foldl

theorem execEvtEnWrite_keeps {z : State} {p : PageAcc} {v : Word} {s : State} (hs : Keeps z s) : KeepsR z (execEvtEnWrite p v s) := by
  unfold execEvtEnWrite
  with_reducible repeat' first
    | assumption
    | intro y
    | apply State.edges_keeps
    | apply State.wr_keeps
    | apply State.headerAction_keeps
    | apply KeepsR.next

theorem execEvtPendClear_keeps {z : State} {p : PageAcc} {v : Word} {s : State} (hs : Keeps z s) : KeepsR z (execEvtPendClear p v s) := by
  unfold execEvtPendClear
  with_reducible repeat' first
    | assumption
    | intro y
    | apply State.wr_keeps
    | apply State.headerAction_keeps
    | apply KeepsR.next

theorem execEvtRearm_keeps {z : State} {fn : Fin 32} {s : State} (hs : Keeps z s) : KeepsR z (execEvtRearm fn s) := by
  unfold execEvtRearm
  with_reducible repeat' first
    | assumption
    | intro y
    | apply State.blockAction_keeps
    | apply State.msix_keeps
    | apply KeepsR.next
    | apply Keeps.ite

theorem execFaultCaptRearm_keeps {z : State} {p : PageAcc} {s : State} (hs : Keeps z s) : KeepsR z (execFaultCaptRearm p s) := by
  unfold execFaultCaptRearm
  with_reducible repeat' first
    | assumption
    | intro y
    | apply State.wr_keeps
    | apply State.headerAction_keeps
    | apply KeepsR.next

theorem execLockSet_keeps {z : State} {p : PageAcc} {s : State} (hs : Keeps z s) : KeepsR z (execLockSet p s) := by
  unfold execLockSet
  with_reducible repeat' first
    | assumption
    | intro y
    | apply State.wr_keeps
    | apply State.headerAction_keeps
    | apply KeepsR.next

theorem execOwnerWrite_keeps {z : State} {p : PageAcc} {v : Word} {s : State} (hs : Keeps z s) : KeepsR z (execOwnerWrite p v s) := by
  unfold execOwnerWrite
  with_reducible repeat' first
    | assumption
    | intro y
    | apply State.wr_keeps
    | apply State.accessErr_keeps
    | apply State.headerAction_keeps
    | apply KeepsR.next
    | apply Keeps.ite

theorem execRegisterWrite_keeps {z : State} {a : RegAcc} {be : Fin 16} {v : Word} {s : State} (hs : Keeps z s) : KeepsR z (execRegisterWrite a be v s) := by
  unfold execRegisterWrite
  with_reducible repeat' first
    | assumption
    | intro y
    | apply State.wr_keeps
    | apply State.accessErr_keeps
    | apply State.writeReg_keeps
    | apply KeepsR.next
    | apply Keeps.ite
    | apply Keeps.foldl
    | apply Keeps.foldlFst
    | exact KeepsO.none
    | apply KeepsO.some
    | dsimp only
    | fail_if_no_progress refine Keeps.lit ?_ rfl rfl rfl rfl rfl rfl rfl rfl rfl
    | refine Keeps.ofFst (Keeps.foldlFst ?_ ?_) (by assumption)
    | split

theorem execSnapArm_keeps {z : State} {fn : Fin 32} {s : State} (hs : Keeps z s) : KeepsR z (execSnapArm fn s) := by
  unfold execSnapArm
  with_reducible repeat' first
    | assumption
    | intro y
    | apply State.wr_keeps
    | apply State.blockAction_keeps
    | apply State.accessErr_keeps
    | apply State.snapMissed_keeps
    | apply KeepsR.next
    | apply Keeps.ite
    | apply Keeps.foldl
    | apply Keeps.foldlFst
    | exact KeepsO.none
    | apply KeepsO.some
    | dsimp only
    | fail_if_no_progress refine Keeps.lit ?_ rfl rfl rfl rfl rfl rfl rfl rfl rfl

theorem execSnapCancel_keeps {z : State} {fn : Fin 32} {s : State} (hs : Keeps z s) : KeepsR z (execSnapCancel fn s) := by
  unfold execSnapCancel
  with_reducible repeat' first
    | assumption
    | intro y
    | apply State.wr_keeps
    | apply State.blockAction_keeps
    | apply KeepsR.next

theorem execSnapDoneTimeout_keeps {z : State} {s : State} (hs : Keeps z s) : KeepsR z (execSnapDoneTimeout s) := by
  unfold execSnapDoneTimeout
  with_reducible repeat' first
    | assumption
    | intro y
    | apply State.wr_keeps
    | apply State.raise_keeps
    | apply KeepsR.next
    | apply Keeps.ite
    | apply Keeps.foldl
    | apply Keeps.foldlFst
    | exact KeepsO.none
    | apply KeepsO.some
    | dsimp only
    | fail_if_no_progress refine Keeps.lit ?_ rfl rfl rfl rfl rfl rfl rfl rfl rfl

theorem execSnapFire_keeps {z : State} {missing : List Nat} {s : State} (hs : Keeps z s) : KeepsR z (execSnapFire missing s) := by
  unfold execSnapFire
  with_reducible repeat' first
    | assumption
    | intro y
    | apply State.fireSnap_keeps
    | apply KeepsR.next
    | apply Keeps.ite

theorem execSnapNow_keeps {z : State} {fn : Fin 32} {s : State} (hs : Keeps z s) : KeepsR z (execSnapNow fn s) := by
  unfold execSnapNow
  with_reducible repeat' first
    | assumption
    | intro y
    | apply State.fireSnap_keeps
    | apply State.blockAction_keeps
    | apply KeepsR.next

end Sys2Proof.Machine
end

