-- ==== Sys2Proof/Laws/KeepsTimeBase.lean ====
section
/-! SUPPORT. Every operation of `Machine/TimeBase.lean` keeps the queue, the variant, the clock and the canonical stores. -/

namespace Sys2Proof.Machine

theorem State.addLag_keeps {z : State} {s : State} {n : Nat} (hs : Keeps z s) : Keeps z (State.addLag s n) := by
  unfold State.addLag
  extract_lets +onlyGivenNames old new s1 s2 w
  have h1 : Keeps z s1 := State.count_keeps (State.wr_keeps hs)
  have h2 : Keeps z s2 := by
    unfold s2
    split
    · exact h1.of rfl rfl rfl fun c => ⟨c.vstore, c.fstore, c.mem, c.host, c.regs, sorted_nputD c.ctrs _ _ _⟩
    · exact h1
  clear_value s2
  split
  · exact State.raise_keeps h2
  · exact h2

theorem State.secondCount_keeps {z : State} {s : State} {f : TbFrame} (hs : Keeps z s) : Keeps z (State.secondCount s f) := by
  unfold State.secondCount
  with_reducible repeat' first
    | assumption
    | intro y
    | apply KeepsR.next
    | apply Keeps.ite
    | apply Keeps.foldl
    | apply Keeps.foldlFst
    | exact KeepsO.none
    | apply KeepsO.some
    | dsimp only
    | fail_if_no_progress refine Keeps.lit ?_ rfl rfl rfl rfl rfl rfl rfl rfl rfl
    | refine Keeps.ofFst (Keeps.foldlFst ?_ ?_) (by assumption)
    | split

theorem State.edgeNow_keeps {z : State} {s : State} {p : Step → Bool} (hs : Keeps z s) : Keeps z (State.edgeNow s p) := by
  unfold State.edgeNow
  with_reducible repeat' first
    | assumption
    | intro y
    | apply KeepsR.next
    | apply Keeps.ite
    | apply Keeps.foldl
    | apply Keeps.foldlFst
    | exact KeepsO.none
    | apply KeepsO.some
    | dsimp only
    | fail_if_no_progress refine Keeps.lit ?_ rfl rfl rfl rfl rfl rfl rfl rfl rfl

theorem State.endFly_keeps {z : State} {s : State} (hs : Keeps z s) : Keeps z (State.endFly s) := by
  unfold State.endFly
  with_reducible repeat' first
    | assumption
    | intro y
    | apply State.edgeNow_keeps
    | apply KeepsR.next
    | apply Keeps.ite

theorem State.meetFrame_keeps {z : State} {s : State} {f : TbFrame} (hs : Keeps z s) : Keeps z (State.meetFrame s f) := by
  unfold State.meetFrame
  with_reducible repeat' first
    | assumption
    | intro y
    | apply State.wr_keeps
    | apply State.raise_keeps
    | apply State.count_keeps
    | apply KeepsR.next
    | apply Keeps.ite
    | apply Keeps.foldl
    | apply Keeps.foldlFst
    | exact KeepsO.none
    | apply KeepsO.some
    | dsimp only
    | fail_if_no_progress refine Keeps.lit ?_ rfl rfl rfl rfl rfl rfl rfl rfl rfl

theorem State.tbEnter_keeps {z : State} {s : State} {st : TbState} {events : List Nat} (hs : Keeps z s) : Keeps z (State.tbEnter s st events) := by
  unfold State.tbEnter
  with_reducible repeat' first
    | assumption
    | intro y
    | apply State.raise_keeps
    | apply KeepsR.next
    | apply Keeps.ite
    | apply Keeps.foldl
    | apply Keeps.foldlFst
    | exact KeepsO.none
    | apply KeepsO.some
    | dsimp only
    | fail_if_no_progress refine Keeps.lit ?_ rfl rfl rfl rfl rfl rfl rfl rfl rfl

theorem State.takePmark_keeps {z : State} {s : State} {f : TbFrame} (hs : Keeps z s) : Keeps z (State.takePmark s f) := by
  unfold State.takePmark
  with_reducible repeat' first
    | assumption
    | intro y
    | apply State.raise_keeps
    | apply KeepsR.next
    | apply Keeps.ite
    | apply Keeps.foldl
    | apply Keeps.foldlFst
    | exact KeepsO.none
    | apply KeepsO.some
    | dsimp only
    | fail_if_no_progress refine Keeps.lit ?_ rfl rfl rfl rfl rfl rfl rfl rfl rfl

theorem State.applyFrame_keeps {z : State} {s : State} {f : TbFrame} (hs : Keeps z s) : Keeps z (State.applyFrame s f) := by
  unfold State.applyFrame
  with_reducible repeat' first
    | assumption
    | intro y
    | apply State.secondCount_keeps
    | apply State.endFly_keeps
    | apply State.meetFrame_keeps
    | apply State.tbEnter_keeps
    | apply State.takePmark_keeps
    | apply KeepsR.next
    | apply Keeps.ite
    | apply Keeps.foldl
    | apply Keeps.foldlFst
    | exact KeepsO.none
    | apply KeepsO.some
    | dsimp only
    | fail_if_no_progress refine Keeps.lit ?_ rfl rfl rfl rfl rfl rfl rfl rfl rfl
    | refine Keeps.ofFst (Keeps.foldlFst ?_ ?_) (by assumption)
    | split

theorem State.lagOfOverrun_keeps {z : State} {s : State} {overrun : Nat} (hs : Keeps z s) : Keeps z (State.lagOfOverrun s overrun) := by
  unfold State.lagOfOverrun
  with_reducible repeat' first
    | assumption
    | intro y
    | apply State.addLag_keeps
    | apply KeepsR.next
    | apply Keeps.ite

theorem State.forgetLines_keeps {z : State} {s0 : State} {s : State} (hs0 : Keeps z s0) (hs : Keeps z s) : Keeps z (State.forgetLines s0 s) := by
  unfold State.forgetLines
  with_reducible repeat' first
    | assumption
    | intro y
    | apply KeepsR.next
    | apply Keeps.ite
    | apply Keeps.foldl
    | apply Keeps.foldlFst
    | exact KeepsO.none
    | apply KeepsO.some
    | dsimp only
    | fail_if_no_progress refine Keeps.lit ?_ rfl rfl rfl rfl rfl rfl rfl rfl rfl

theorem State.switchTables_keeps {z : State} {s : State} (hs : Keeps z s) : Keeps z (State.switchTables s) := by
  unfold State.switchTables
  with_reducible repeat' first
    | assumption
    | intro y
    | apply State.wr_keeps
    | apply State.raise_keeps
    | apply KeepsR.next
    | apply Keeps.ite

theorem State.setTbCfg_keeps {z : State} {s : State} {v : Nat} (hs : Keeps z s) : Keeps z (State.setTbCfg s v) := by
  unfold State.setTbCfg
  with_reducible repeat' first
    | assumption
    | intro y
    | apply State.wr_keeps

theorem State.spanWindow_keeps {z : State} {s : State} (hs : Keeps z s) : Keeps z (State.spanWindow s) := by
  unfold State.spanWindow
  with_reducible repeat' first
    | assumption
    | intro y
    | apply KeepsR.next
    | apply Keeps.ite
    | apply Keeps.foldl
    | apply Keeps.foldlFst
    | exact KeepsO.none
    | apply KeepsO.some
    | dsimp only
    | fail_if_no_progress refine Keeps.lit ?_ rfl rfl rfl rfl rfl rfl rfl rfl rfl

theorem State.tbCfgAction_keeps {z : State} {s : State} {fn : Fin 32} {body : State → State} (hs : Keeps z s) (hbody : ∀ y0, Keeps z y0 → Keeps z (body y0)) : Keeps z (State.tbCfgAction s fn body) := by
  unfold State.tbCfgAction
  with_reducible repeat' first
    | assumption
    | intro y
    | apply State.blockAction_keeps
    | apply State.accessErr_keeps
    | apply hbody
    | apply KeepsR.next
    | apply Keeps.ite

theorem execHoldoverEntry_keeps {z : State} {s : State} (hs : Keeps z s) : KeepsR z (execHoldoverEntry s) := by
  unfold execHoldoverEntry
  with_reducible repeat' first
    | assumption
    | intro y
    | apply State.wr_keeps
    | apply State.tbEnter_keeps
    | apply KeepsR.next
    | apply Keeps.ite
    | apply Keeps.foldl
    | apply Keeps.foldlFst
    | exact KeepsO.none
    | apply KeepsO.some
    | dsimp only
    | fail_if_no_progress refine Keeps.lit ?_ rfl rfl rfl rfl rfl rfl rfl rfl rfl

theorem execSlotSwCancel_keeps {z : State} {fn : Fin 32} {s : State} (hs : Keeps z s) : KeepsR z (execSlotSwCancel fn s) := by
  unfold execSlotSwCancel
  with_reducible repeat' first
    | assumption
    | intro y
    | apply State.wr_keeps
    | apply State.blockAction_keeps
    | apply KeepsR.next

theorem execSlotSwReq_keeps {z : State} {fn : Fin 32} {s : State} (hs : Keeps z s) : KeepsR z (execSlotSwReq fn s) := by
  unfold execSlotSwReq
  with_reducible repeat' first
    | assumption
    | intro y
    | apply State.wr_keeps
    | apply State.blockAction_keeps
    | apply State.raise_keeps
    | apply KeepsR.next
    | apply Keeps.ite

theorem execSlotTableWrite_keeps {z : State} {fn : Fin 32} {copyB : Bool} {slot : Fin 64} {v : Word} {s : State} (hs : Keeps z s) : KeepsR z (execSlotTableWrite fn copyB slot v s) := by
  unfold execSlotTableWrite
  with_reducible repeat' first
    | assumption
    | intro y
    | apply State.wri_keeps
    | apply State.blockAction_keeps
    | apply State.raise_keeps
    | apply KeepsR.next
    | apply Keeps.ite

theorem execStallDetect_keeps {z : State} {s : State} (hs : Keeps z s) : KeepsR z (execStallDetect s) := by
  unfold execStallDetect
  with_reducible repeat' first
    | assumption
    | intro y
    | apply State.tbEnter_keeps
    | apply State.count_keeps
    | apply KeepsR.next
    | apply Keeps.ite
    | apply Keeps.foldl
    | apply Keeps.foldlFst
    | exact KeepsO.none
    | apply KeepsO.some
    | dsimp only
    | fail_if_no_progress refine Keeps.lit ?_ rfl rfl rfl rfl rfl rfl rfl rfl rfl

theorem execStallGuardExpire_keeps {z : State} {s : State} (hs : Keeps z s) : KeepsR z (execStallGuardExpire s) := by
  unfold execStallGuardExpire
  with_reducible repeat' first
    | assumption
    | intro y
    | apply State.tbEnter_keeps
    | apply KeepsR.next
    | apply Keeps.ite
    | apply Keeps.foldl
    | apply Keeps.foldlFst
    | exact KeepsO.none
    | apply KeepsO.some
    | dsimp only
    | fail_if_no_progress refine Keeps.lit ?_ rfl rfl rfl rfl rfl rfl rfl rfl rfl

theorem execTbFrameReceive_keeps {z : State} {lineB : Bool} {codeErr : Bool} {bytes : List Byte} {s : State} (hs : Keeps z s) : KeepsR z (execTbFrameReceive lineB codeErr bytes s) := by
  unfold execTbFrameReceive
  with_reducible repeat' first
    | assumption
    | intro y
    | apply State.wr_keeps
    | apply State.raise_keeps
    | apply State.count_keeps
    | apply KeepsR.next
    | apply Keeps.ite
    | apply Keeps.foldl
    | apply Keeps.foldlFst
    | exact KeepsO.none
    | apply KeepsO.some
    | dsimp only
    | fail_if_no_progress refine Keeps.lit ?_ rfl rfl rfl rfl rfl rfl rfl rfl rfl
    | refine Keeps.ofFst (Keeps.foldlFst ?_ ?_) (by assumption)
    | split

theorem execTbWindowEnd_keeps {z : State} {s : State} (hs : Keeps z s) : KeepsR z (execTbWindowEnd s) := by
  unfold execTbWindowEnd
  with_reducible repeat' first
    | assumption
    | intro y
    | apply State.wr_keeps
    | apply State.raise_keeps
    | apply State.spanWindow_keeps
    | apply State.count_keeps
    | apply State.applyFrame_keeps
    | apply KeepsR.next
    | apply Keeps.ite
    | apply Keeps.foldl
    | apply Keeps.foldlFst
    | exact KeepsO.none
    | apply KeepsO.some
    | dsimp only
    | fail_if_no_progress refine Keeps.lit ?_ rfl rfl rfl rfl rfl rfl rfl rfl rfl
    | refine Keeps.ofFst (Keeps.foldlFst ?_ ?_) (by assumption)
    | split

theorem execTbaseDisable_keeps {z : State} {fn : Fin 32} {v : Word} {s : State} (hs : Keeps z s) : KeepsR z (execTbaseDisable fn v s) := by
  unfold execTbaseDisable
  with_reducible repeat' first
    | assumption
    | intro y
    | apply State.wr_keeps
    | apply State.setTbCfg_keeps
    | apply State.tbCfgAction_keeps
    | apply State.forgetLines_keeps
    | apply State.snapMissed_keeps
    | apply KeepsR.next
    | apply Keeps.ite
    | apply Keeps.foldl
    | apply Keeps.foldlFst
    | exact KeepsO.none
    | apply KeepsO.some
    | dsimp only
    | fail_if_no_progress refine Keeps.lit ?_ rfl rfl rfl rfl rfl rfl rfl rfl rfl

theorem execTbaseEnable_keeps {z : State} {fn : Fin 32} {v : Word} {s : State} (hs : Keeps z s) : KeepsR z (execTbaseEnable fn v s) := by
  unfold execTbaseEnable
  with_reducible repeat' first
    | assumption
    | intro y
    | apply State.wr_keeps
    | apply State.setTbCfg_keeps
    | apply State.tbCfgAction_keeps
    | apply State.forgetLines_keeps
    | apply State.raise_keeps
    | apply KeepsR.next
    | apply Keeps.ite
    | apply Keeps.foldl
    | apply Keeps.foldlFst
    | exact KeepsO.none
    | apply KeepsO.some
    | dsimp only
    | fail_if_no_progress refine Keeps.lit ?_ rfl rfl rfl rfl rfl rfl rfl rfl rfl

end Sys2Proof.Machine
end

