-- ==== Sys2Proof/Laws/KeepsCellarmaster.lean ====
section
/-! SUPPORT. Every operation of `Machine/Cellarmaster.lean` keeps the queue, the variant, the clock and the canonical stores. -/

namespace Sys2Proof.Machine

theorem State.setUnit_keeps {z : State} {s : State} {u : Nat} {x : CmUnit} (hs : Keeps z s) : Keeps z (State.setUnit s u x) := by
  unfold State.setUnit
  with_reducible repeat' first
    | assumption
    | intro y
    | apply KeepsR.next
    | apply Keeps.ite
    | apply Keeps.foldl
    | apply Keeps.foldlFst
    | exact KeepsO.none
    | apply KeepsO.some
    | dsimp only
    | fail_if_no_progress refine Keeps.lit ?_ rfl rfl rfl rfl rfl rfl rfl rfl rfl

theorem State.modUnit_keeps {z : State} {s : State} {u : Nat} {f : CmUnit → CmUnit} (hs : Keeps z s) : Keeps z (State.modUnit s u f) := by
  unfold State.modUnit
  with_reducible repeat' first
    | assumption
    | intro y
    | apply State.setUnit_keeps

theorem State.abandonSlice_keeps {z : State} {s : State} {u : Nat} (hs : Keeps z s) : Keeps z (State.abandonSlice s u) := by
  unfold State.abandonSlice
  with_reducible repeat' first
    | assumption
    | intro y
    | apply State.modUnit_keeps
    | apply State.count_keeps
    | apply KeepsR.next
    | apply Keeps.ite

theorem State.announce_keeps {z : State} {s : State} (hs : Keeps z s) : Keeps z (State.announce s) := by
  unfold State.announce
  with_reducible repeat' first
    | assumption
    | intro y
    | apply State.modUnit_keeps
    | apply State.wr_keeps
    | apply State.raise_keeps
    | apply KeepsR.next
    | apply Keeps.ite
    | apply Keeps.foldl
    | apply Keeps.foldlFst
    | exact KeepsO.none
    | apply KeepsO.some
    | dsimp only
    | fail_if_no_progress refine Keeps.lit ?_ rfl rfl rfl rfl rfl rfl rfl rfl rfl
    | refine Keeps.ofFst (Keeps.foldlFst ?_ ?_) (by assumption)
    | split

theorem State.cancelPlanned_keeps {z : State} {s : State} {outgoing : Nat} (hs : Keeps z s) : Keeps z (State.cancelPlanned s outgoing) := by
  unfold State.cancelPlanned
  with_reducible repeat' first
    | assumption
    | intro y
    | apply State.wr_keeps
    | apply State.raise_keeps
    | apply KeepsR.next
    | apply Keeps.ite
    | apply Keeps.foldl
    | apply Keeps.foldlFst
    | exact KeepsO.none
    | apply KeepsO.some
    | dsimp only
    | fail_if_no_progress refine Keeps.lit ?_ rfl rfl rfl rfl rfl rfl rfl rfl rfl

theorem State.checkReady_keeps {z : State} {s : State} {u : Nat} (hs : Keeps z s) : Keeps z (State.checkReady s u) := by
  unfold State.checkReady
  with_reducible repeat' first
    | assumption
    | intro y
    | apply State.wr_keeps
    | apply State.raise_keeps
    | apply KeepsR.next
    | apply Keeps.ite

theorem State.takeClaim_keeps {z : State} {s : State} {u : Nat} (hs : Keeps z s) : Keeps z (State.takeClaim s u) := by
  unfold State.takeClaim
  with_reducible repeat' first
    | assumption
    | intro y
    | apply State.modUnit_keeps
    | apply State.wr_keeps
    | apply KeepsR.next
    | apply Keeps.ite
    | apply Keeps.foldl
    | apply Keeps.foldlFst
    | exact KeepsO.none
    | apply KeepsO.some
    | dsimp only
    | fail_if_no_progress refine Keeps.lit ?_ rfl rfl rfl rfl rfl rfl rfl rfl rfl

theorem State.takeover_keeps {z : State} {s : State} {u : Nat} (hs : Keeps z s) : Keeps z (State.takeover s u) := by
  unfold State.takeover
  with_reducible repeat' first
    | assumption
    | intro y
    | apply State.takeClaim_keeps
    | apply State.raise_keeps
    | apply State.count_keeps

theorem State.claimChange_keeps {z : State} {s : State} (hs : Keeps z s) : Keeps z (State.claimChange s) := by
  unfold State.claimChange
  with_reducible repeat' first
    | assumption
    | intro y
    | apply State.abandonSlice_keeps
    | apply State.takeClaim_keeps
    | apply State.takeover_keeps
    | apply State.modUnit_keeps
    | apply State.wr_keeps
    | apply State.cancelPlanned_keeps
    | apply State.raise_keeps
    | apply State.count_keeps
    | apply KeepsR.next
    | apply Keeps.ite
    | apply Keeps.foldl
    | apply Keeps.foldlFst
    | exact KeepsO.none
    | apply KeepsO.some
    | dsimp only
    | fail_if_no_progress refine Keeps.lit ?_ rfl rfl rfl rfl rfl rfl rfl rfl rfl
    | refine Keeps.ofFst (Keeps.foldlFst ?_ ?_) (by assumption)
    | split

theorem State.cmRetire_keeps {z : State} {s : State} {u : Nat} (hs : Keeps z s) : Keeps z (State.cmRetire s u) := by
  unfold State.cmRetire
  with_reducible repeat' first
    | assumption
    | intro y
    | apply State.wr_keeps
    | apply State.raise_keeps
    | apply State.recount_keeps
    | apply KeepsR.next
    | apply Keeps.ite
    | apply Keeps.foldl
    | apply Keeps.foldlFst
    | exact KeepsO.none
    | apply KeepsO.some
    | dsimp only
    | fail_if_no_progress refine Keeps.lit ?_ rfl rfl rfl rfl rfl rfl rfl rfl rfl

theorem State.reloadCm_keeps {z : State} {s : State} {u : Nat} (hs : Keeps z s) : Keeps z (State.reloadCm s u) := by
  unfold State.reloadCm
  with_reducible repeat' first
    | assumption
    | intro y
    | apply State.modUnit_keeps
    | apply State.wr_keeps
    | apply KeepsR.next
    | apply Keeps.ite
    | apply Keeps.foldl
    | apply Keeps.foldlFst
    | exact KeepsO.none
    | apply KeepsO.some
    | dsimp only
    | fail_if_no_progress refine Keeps.lit ?_ rfl rfl rfl rfl rfl rfl rfl rfl rfl
    | refine Keeps.ofFst (Keeps.foldlFst ?_ ?_) (by assumption)
    | split

theorem State.drop_keeps {z : State} {s : State} {u : Nat} {cause : Nat} (hs : Keeps z s) : Keeps z (State.drop s u cause) := by
  unfold State.drop
  with_reducible repeat' first
    | assumption
    | intro y
    | apply State.reloadCm_keeps
    | apply State.abandonSlice_keeps
    | apply State.cmRetire_keeps
    | apply State.modUnit_keeps
    | apply State.wr_keeps
    | apply State.cancelPlanned_keeps
    | apply State.raise_keeps
    | apply State.count_keeps
    | apply KeepsR.next
    | apply Keeps.ite
    | apply Keeps.foldl
    | apply Keeps.foldlFst
    | exact KeepsO.none
    | apply KeepsO.some
    | dsimp only
    | fail_if_no_progress refine Keeps.lit ?_ rfl rfl rfl rfl rfl rfl rfl rfl rfl

theorem State.cmSlice_keeps {z : State} {s : State} {u : Nat} {result : Option Bool} (hs : Keeps z s) : Keeps z (State.cmSlice s u result) := by
  unfold State.cmSlice
  with_reducible repeat' first
    | assumption
    | intro y
    | apply State.checkReady_keeps
    | apply State.drop_keeps
    | apply State.wr_keeps
    | apply State.setUnit_keeps
    | apply State.count_keeps
    | apply KeepsR.next
    | apply Keeps.ite
    | apply Keeps.foldl
    | apply Keeps.foldlFst
    | exact KeepsO.none
    | apply KeepsO.some
    | dsimp only
    | fail_if_no_progress refine Keeps.lit ?_ rfl rfl rfl rfl rfl rfl rfl rfl rfl
    | refine Keeps.ofFst (Keeps.foldlFst ?_ ?_) (by assumption)
    | split

theorem State.startCm_keeps {z : State} {s : State} (hs : Keeps z s) : Keeps z (State.startCm s) := by
  unfold State.startCm
  with_reducible repeat' first
    | assumption
    | intro y
    | apply State.takeClaim_keeps
    | apply State.wr_keeps
    | apply KeepsR.next
    | apply Keeps.ite
    | apply Keeps.foldl
    | apply Keeps.foldlFst
    | exact KeepsO.none
    | apply KeepsO.some
    | dsimp only
    | fail_if_no_progress refine Keeps.lit ?_ rfl rfl rfl rfl rfl rfl rfl rfl rfl

theorem State.latchCopy_keeps {z : State} {s : State} (hs : Keeps z s) : Keeps z (State.latchCopy s) := by
  unfold State.latchCopy
  with_reducible repeat' first
    | assumption
    | intro y
    | apply State.modUnit_keeps
    | apply State.wr_keeps
    | apply State.raise_keeps
    | apply State.count_keeps
    | apply KeepsR.next
    | apply Keeps.ite
    | apply Keeps.foldl
    | apply Keeps.foldlFst
    | exact KeepsO.none
    | apply KeepsO.some
    | dsimp only
    | fail_if_no_progress refine Keeps.lit ?_ rfl rfl rfl rfl rfl rfl rfl rfl rfl
    | refine Keeps.ofFst (Keeps.foldlFst ?_ ?_) (by assumption)
    | split

theorem State.latchHandover_keeps {z : State} {s : State} (hs : Keeps z s) : Keeps z (State.latchHandover s) := by
  unfold State.latchHandover
  with_reducible repeat' first
    | assumption
    | intro y
    | apply State.wr_keeps
    | apply State.count_keeps
    | apply KeepsR.next
    | apply Keeps.ite
    | apply Keeps.foldl
    | apply Keeps.foldlFst
    | exact KeepsO.none
    | apply KeepsO.some
    | dsimp only
    | fail_if_no_progress refine Keeps.lit ?_ rfl rfl rfl rfl rfl rfl rfl rfl rfl
    | refine Keeps.ofFst (Keeps.foldlFst ?_ ?_) (by assumption)
    | split

theorem execClaimOutvote_keeps {z : State} {unit : Fin 2} {s : State} (hs : Keeps z s) : KeepsR z (execClaimOutvote unit s) := by
  unfold execClaimOutvote
  with_reducible repeat' first
    | assumption
    | intro y
    | apply State.drop_keeps
    | apply KeepsR.next
    | apply Keeps.ite

theorem execCmHeartbeat_keeps {z : State} {unit : Fin 2} {s : State} (hs : Keeps z s) : KeepsR z (execCmHeartbeat unit s) := by
  unfold execCmHeartbeat
  with_reducible repeat' first
    | assumption
    | intro y
    | apply State.modUnit_keeps
    | apply KeepsR.next
    | apply Keeps.ite

theorem execCmHwDrop_keeps {z : State} {unit : Fin 2} {cause : Fin 3} {s : State} (hs : Keeps z s) : KeepsR z (execCmHwDrop unit cause s) := by
  unfold execCmHwDrop
  with_reducible repeat' first
    | assumption
    | intro y
    | apply State.drop_keeps
    | apply State.wr_keeps
    | apply KeepsR.next
    | apply Keeps.ite

theorem execCmReloadDone_keeps {z : State} {unit : Fin 2} {ok : Bool} {s : State} (hs : Keeps z s) : KeepsR z (execCmReloadDone unit ok s) := by
  unfold execCmReloadDone
  with_reducible repeat' first
    | assumption
    | intro y
    | apply State.cmRetire_keeps
    | apply State.modUnit_keeps
    | apply State.wr_keeps
    | apply KeepsR.next
    | apply Keeps.ite
    | apply Keeps.foldl
    | apply Keeps.foldlFst
    | exact KeepsO.none
    | apply KeepsO.some
    | dsimp only
    | fail_if_no_progress refine Keeps.lit ?_ rfl rfl rfl rfl rfl rfl rfl rfl rfl
    | refine Keeps.ofFst (Keeps.foldlFst ?_ ?_) (by assumption)
    | split

theorem execCmSelftestSlice_keeps {z : State} {unit : Fin 2} {result : Option Bool} {s : State} (hs : Keeps z s) : KeepsR z (execCmSelftestSlice unit result s) := by
  unfold execCmSelftestSlice
  with_reducible repeat' first
    | assumption
    | intro y
    | apply State.cmSlice_keeps
    | apply KeepsR.next

theorem execCmYield_keeps {z : State} {fn : Fin 32} {unit : Fin 2} {s : State} (hs : Keeps z s) : KeepsR z (execCmYield fn unit s) := by
  unfold execCmYield
  with_reducible repeat' first
    | assumption
    | intro y
    | apply State.blockAction_keeps
    | apply State.raise_keeps
    | apply KeepsR.next
    | apply Keeps.ite
    | apply Keeps.foldl
    | apply Keeps.foldlFst
    | exact KeepsO.none
    | apply KeepsO.some
    | dsimp only
    | fail_if_no_progress refine Keeps.lit ?_ rfl rfl rfl rfl rfl rfl rfl rfl rfl

theorem execCopyReceive_keeps {z : State} {valid : Bool} {passOk : Bool} {s : State} (hs : Keeps z s) : KeepsR z (execCopyReceive valid passOk s) := by
  unfold execCopyReceive
  with_reducible repeat' first
    | assumption
    | intro y
    | apply State.checkReady_keeps
    | apply State.drop_keeps
    | apply State.modUnit_keeps
    | apply State.wr_keeps
    | apply State.cancelPlanned_keeps
    | apply State.raise_keeps
    | apply State.count_keeps
    | apply KeepsR.next
    | apply Keeps.ite
    | apply Keeps.foldl
    | apply Keeps.foldlFst
    | exact KeepsO.none
    | apply KeepsO.some
    | dsimp only
    | fail_if_no_progress refine Keeps.lit ?_ rfl rfl rfl rfl rfl rfl rfl rfl rfl
    | refine Keeps.ofFst (Keeps.foldlFst ?_ ?_) (by assumption)
    | split

theorem execDiagLate_keeps {z : State} {unit : Fin 2} {s : State} (hs : Keeps z s) : KeepsR z (execDiagLate unit s) := by
  unfold execDiagLate
  with_reducible repeat' first
    | assumption
    | intro y
    | apply State.drop_keeps
    | apply KeepsR.next
    | apply Keeps.ite

theorem execDiagPass_keeps {z : State} {unit : Fin 2} {ok : Bool} {sramOk : Bool} {s : State} (hs : Keeps z s) : KeepsR z (execDiagPass unit ok sramOk s) := by
  unfold execDiagPass
  with_reducible repeat' first
    | assumption
    | intro y
    | apply State.drop_keeps
    | apply State.modUnit_keeps
    | apply State.wr_keeps
    | apply State.count_keeps
    | apply KeepsR.next
    | apply Keeps.ite

theorem execHbMiss_keeps {z : State} {unit : Fin 2} {s : State} (hs : Keeps z s) : KeepsR z (execHbMiss unit s) := by
  unfold execHbMiss
  with_reducible repeat' first
    | assumption
    | intro y
    | apply State.drop_keeps
    | apply KeepsR.next
    | apply Keeps.ite

theorem execStageCommand_keeps {z : State} {unit : Fin 2} {cmd : StageCmd} {s : State} (hs : Keeps z s) : KeepsR z (execStageCommand unit cmd s) := by
  unfold execStageCommand
  with_reducible repeat' first
    | assumption
    | intro y
    | apply State.count_keeps
    | apply KeepsR.next
    | apply Keeps.ite
    | apply Keeps.foldl
    | apply Keeps.foldlFst
    | exact KeepsO.none
    | apply KeepsO.some
    | dsimp only
    | fail_if_no_progress refine Keeps.lit ?_ rfl rfl rfl rfl rfl rfl rfl rfl rfl
    | refine Keeps.ofFst (Keeps.foldlFst ?_ ?_) (by assumption)
    | split

theorem execStandbyCoreRestart_keeps {z : State} {unit : Fin 2} {s : State} (hs : Keeps z s) : KeepsR z (execStandbyCoreRestart unit s) := by
  unfold execStandbyCoreRestart
  with_reducible repeat' first
    | assumption
    | intro y
    | apply State.modUnit_keeps
    | apply KeepsR.next
    | apply Keeps.ite
    | apply Keeps.foldl
    | apply Keeps.foldlFst
    | exact KeepsO.none
    | apply KeepsO.some
    | dsimp only
    | fail_if_no_progress refine Keeps.lit ?_ rfl rfl rfl rfl rfl rfl rfl rfl rfl
    | refine Keeps.ofFst (Keeps.foldlFst ?_ ?_) (by assumption)
    | split

theorem execTakeoverTimeout_keeps {z : State} {plan : List GroupPlan} {s : State} (hs : Keeps z s) : KeepsR z (execTakeoverTimeout plan s) := by
  unfold execTakeoverTimeout
  with_reducible repeat' first
    | assumption
    | intro y
    | apply State.takeover_keeps
    | apply KeepsR.next
    | apply Keeps.ite
    | apply Keeps.foldl
    | apply Keeps.foldlFst
    | exact KeepsO.none
    | apply KeepsO.some
    | dsimp only
    | fail_if_no_progress refine Keeps.lit ?_ rfl rfl rfl rfl rfl rfl rfl rfl rfl
    | refine Keeps.ofFst (Keeps.foldlFst ?_ ?_) (by assumption)
    | split

end Sys2Proof.Machine
end

