-- ==== Sys2Proof/Laws/KeepsTap.lean ====
section
/-! SUPPORT. Every operation of `Machine/Tap.lean` keeps the queue, the variant, the clock and the canonical stores. -/

namespace Sys2Proof.Machine

theorem State.failRequester_keeps {z : State} {s : State} {fp : Nat} {req : Nat} (hs : Keeps z s) : Keeps z (State.failRequester s fp req) := by
  unfold State.failRequester
  with_reducible repeat' first
    | assumption
    | intro y
    | apply State.failStep_keeps
    | apply KeepsR.next
    | apply Keeps.ite
    | apply Keeps.foldl
    | apply Keeps.foldlFst
    | exact KeepsO.none
    | apply KeepsO.some
    | dsimp only
    | fail_if_no_progress refine Keeps.lit ?_ rfl rfl rfl rfl rfl rfl rfl rfl rfl
    | refine Keeps.ofFst (Keeps.foldlFst ?_ ?_) (by assumption)
    | split

theorem State.tapGrant_keeps {z : State} {s : State} {fp : Nat} {clk : Nat} {r : TapReq} (hs : Keeps z s) : Keeps z (State.tapGrant s fp clk r) := by
  unfold State.tapGrant
  with_reducible repeat' first
    | assumption
    | intro y
    | apply State.setFloor_keeps
    | apply State.count_keeps
    | apply KeepsR.next
    | apply Keeps.ite

theorem State.tapSettle_keeps {z : State} {s : State} {fp : Nat} {port : Nat} {x3 : Nat} (hs : Keeps z s) : Keeps z (State.tapSettle s fp port x3) := by
  induction x3 generalizing s with
  | zero => exact hs
  | succ k ih =>
    unfold State.tapSettle
    with_reducible repeat' first
      | assumption
      | intro y
      | apply ih
      | apply State.tapGrant_keeps
      | apply State.count_keeps
      | apply KeepsO.mapK
      | apply KeepsO.foldl
      | refine KeepsO.keeps (KeepsO.some ?_) _ (by assumption)
      | apply KeepsR.next
      | apply Keeps.ite
      | apply Keeps.foldl
      | apply Keeps.foldlFst
      | exact KeepsO.none
      | apply KeepsO.some
      | dsimp only
      | fail_if_no_progress refine Keeps.lit ?_ rfl rfl rfl rfl rfl rfl rfl rfl rfl
      | refine Keeps.ofFst (Keeps.foldlFst ?_ ?_) (by assumption)
      | split

theorem execTapPrioWrite_keeps {z : State} {fn : Fin 32} {f : FloorId} {second : Bool} {v : Word} {s : State} (hs : Keeps z s) : KeepsR z (execTapPrioWrite fn f second v s) := by
  unfold execTapPrioWrite
  with_reducible repeat' first
    | assumption
    | intro y
    | apply State.wr_keeps
    | apply State.blockAction_keeps
    | apply State.tapSettle_keeps
    | apply KeepsR.next
    | apply Keeps.ite
    | apply Keeps.foldl

theorem execTapRequest_keeps {z : State} {f : FloorId} {r : TapReq} {s : State} (hs : Keeps z s) : KeepsR z (execTapRequest f r s) := by
  unfold execTapRequest
  with_reducible repeat' first
    | assumption
    | intro y
    | apply State.failRequester_keeps
    | apply State.setFloor_keeps
    | apply State.tapGrant_keeps
    | apply State.tapSettle_keeps
    | apply State.count_keeps
    | apply KeepsR.next
    | apply Keeps.ite

theorem execTapWdog_keeps {z : State} {f : FloorId} {port : Fin 4} {s : State} (hs : Keeps z s) : KeepsR z (execTapWdog f port s) := by
  unfold execTapWdog
  with_reducible repeat' first
    | assumption
    | intro y
    | apply State.failRequester_keeps
    | apply State.setFloor_keeps
    | apply State.wr_keeps
    | apply State.ctxNote_keeps
    | apply State.raise_keeps
    | apply State.earlyRot_keeps
    | apply State.count_keeps
    | apply KeepsR.next
    | apply Keeps.ite
    | apply Keeps.foldl
    | apply Keeps.foldlFst
    | exact KeepsO.none
    | apply KeepsO.some
    | dsimp only
    | fail_if_no_progress refine Keeps.lit ?_ rfl rfl rfl rfl rfl rfl rfl rfl rfl
    | refine Keeps.ofFst (Keeps.foldlFst ?_ ?_) (by assumption)
    | split

end Sys2Proof.Machine
end

