-- ==== Sys2Proof/Laws/KeepsLpddr.lean ====
section
/-! SUPPORT. Every operation of `Machine/Lpddr.lean` keeps the queue, the variant, the clock and the canonical stores. -/

namespace Sys2Proof.Machine

theorem State.labTouch_keeps {z : State} {s : State} {n : Nat} {key : Nat} {big : Bool} (hs : Keeps z s) : Keeps z (State.labTouch s n key big) := by
  unfold State.labTouch
  with_reducible repeat' first
    | assumption
    | intro y
    | apply State.fresh_keeps
    | refine Keeps.ofFst (State.fresh_keeps ?_) (by assumption)
    | apply State.count_keeps
    | apply KeepsR.next
    | apply Keeps.ite
    | apply Keeps.foldl
    | apply Keeps.foldlFst
    | exact KeepsO.none
    | apply KeepsO.some
    | dsimp only
    | fail_if_no_progress refine Keeps.lit ?_ rfl rfl rfl rfl rfl rfl rfl rfl rfl

theorem State.access_keeps {z : State} {s : State} {n : Nat} {c : Nat} {va : Nat} {write : Bool} {host : Bool} {len : optParam Nat 1} (hs : Keeps z s) : Keeps z (State.access s n c va write host len).1 := by
  unfold State.access
  with_reducible repeat' first
    | assumption
    | intro y
    | apply State.labTouch_keeps
    | apply State.ctxEvent_keeps
    | apply State.count_keeps
    | apply State.capture_keeps
    | apply KeepsR.next
    | apply Keeps.ite
    | apply Keeps.foldl
    | apply Keeps.foldlFst
    | exact KeepsO.none
    | apply KeepsO.some
    | dsimp only
    | fail_if_no_progress refine Keeps.lit ?_ rfl rfl rfl rfl rfl rfl rfl rfl rfl
    | refine Keeps.ofFst (Keeps.foldlFst ?_ ?_) (by assumption)
    | split

theorem State.addClear_keeps {z : State} {s : State} {r : FrameRun} {owner : Option Nat} {kind : Nat} (hs : Keeps z s) : Keeps z (State.addClear s r owner kind) := by
  unfold State.addClear
  with_reducible repeat' first
    | assumption
    | intro y
    | apply KeepsR.next
    | apply Keeps.ite
    | apply Keeps.foldl
    | apply Keeps.foldlFst
    | exact KeepsO.none
    | apply KeepsO.some
    | dsimp only
    | fail_if_no_progress refine Keeps.lit ?_ rfl rfl rfl rfl rfl rfl rfl rfl rfl

theorem State.setFrame_keeps {z : State} {s : State} {f : Nat} {x : Frame} (hs : Keeps z s) : Keeps z (State.setFrame s f x) := by
  unfold State.setFrame
  with_reducible repeat' first
    | assumption
    | intro y
    | apply KeepsR.next
    | apply Keeps.ite
    | apply Keeps.foldl
    | apply Keeps.foldlFst
    | exact KeepsO.none
    | apply KeepsO.some
    | dsimp only
    | fail_if_no_progress refine Keeps.lit ?_ rfl rfl rfl rfl rfl rfl rfl rfl rfl

theorem State.failStep?_keeps {z : State} {s : State} {step : Option Nat} {st : Nat} {code : Nat} (hs : Keeps z s) : Keeps z (State.failStep? s step st code) := by
  unfold State.failStep?
  with_reducible repeat' first
    | assumption
    | intro y
    | apply State.failStep_keeps
    | apply KeepsR.next
    | apply Keeps.ite
    | apply Keeps.foldl
    | apply Keeps.foldlFst
    | exact KeepsO.none
    | apply KeepsO.some
    | dsimp only
    | fail_if_no_progress refine Keeps.lit ?_ rfl rfl rfl rfl rfl rfl rfl rfl rfl
    | refine Keeps.ofFst (Keeps.foldlFst ?_ ?_) (by assumption)
    | split

theorem State.putLine_keeps {z : State} {s : State} {l : Nat} {key : Nat} {bs : List Nat} {bad : Bool} (hs : Keeps z s) : Keeps z (State.putLine s l key bs bad) :=
  hs.of rfl rfl rfl fun c => ⟨c.vstore, c.fstore, wf_bputList c.mem _ _, c.host, c.regs, c.ctrs⟩

theorem State.crcTouch_keeps {z : State} {s : State} {l : Nat} {dirty : Bool} {parity : Bool} (hs : Keeps z s) : Keeps z (State.crcTouch s l dirty parity) := by
  unfold State.crcTouch
  with_reducible repeat' first
    | assumption
    | intro y
    | apply State.fresh_keeps
    | refine Keeps.ofFst (State.fresh_keeps ?_) (by assumption)
    | apply State.raise_keeps
    | apply State.count_keeps
    | apply State.capture_keeps
    | apply KeepsR.next
    | apply Keeps.ite
    | apply Keeps.foldl
    | apply Keeps.foldlFst
    | exact KeepsO.none
    | apply KeepsO.some
    | dsimp only
    | fail_if_no_progress refine Keeps.lit ?_ rfl rfl rfl rfl rfl rfl rfl rfl rfl
    | refine Keeps.ofFst (Keeps.foldlFst ?_ ?_) (by assumption)
    | split

theorem State.confirm_keeps {z : State} {s : State} {f : Nat} {poison : Bool} (hs : Keeps z s) : Keeps z (State.confirm s f poison) := by
  unfold State.confirm
  with_reducible repeat' first
    | assumption
    | intro y
    | apply State.setFrame_keeps
    | apply State.raise_keeps
    | apply State.count_keeps
    | apply State.capture_keeps
    | apply KeepsR.next
    | apply Keeps.ite
    | apply Keeps.foldl
    | apply Keeps.foldlFst
    | exact KeepsO.none
    | apply KeepsO.some
    | dsimp only
    | fail_if_no_progress refine Keeps.lit ?_ rfl rfl rfl rfl rfl rfl rfl rfl rfl
    | refine Keeps.ofFst (Keeps.foldlFst ?_ ?_) (by assumption)
    | split

theorem State.lineRead_keeps {z : State} {s : State} {l : Nat} {key : Nat} {o : LineOut} (hs : Keeps z s) : Keeps z (State.lineRead s l key o).1 := by
  unfold State.lineRead
  with_reducible repeat' first
    | assumption
    | intro y
    | apply State.crcTouch_keeps
    | apply State.raise_keeps
    | apply State.confirm_keeps
    | apply State.count_keeps
    | apply KeepsR.next
    | apply Keeps.ite
    | apply Keeps.foldl
    | apply Keeps.foldlFst
    | exact KeepsO.none
    | apply KeepsO.some
    | dsimp only
    | fail_if_no_progress refine Keeps.lit ?_ rfl rfl rfl rfl rfl rfl rfl rfl rfl
    | refine Keeps.ofFst (Keeps.foldlFst ?_ ?_) (by assumption)
    | split

theorem State.lineWrite_keeps {z : State} {s : State} {l : Nat} {key : Nat} {off : Nat} {bs : List Nat} {srcBad : Bool} {o : LineOut} (hs : Keeps z s) : Keeps z (State.lineWrite s l key off bs srcBad o) := by
  unfold State.lineWrite
  with_reducible repeat' first
    | assumption
    | intro y
    | apply State.putLine_keeps
    | apply State.crcTouch_keeps
    | apply State.lineRead_keeps
    | refine Keeps.ofFst (State.lineRead_keeps ?_) (by assumption)
    | apply State.count_keeps
    | apply KeepsR.next
    | apply Keeps.ite

theorem State.ctxWrite_keeps {z : State} {s : State} {n : Nat} {c : Nat} {va : Nat} {host : Bool} {bs : List Nat} {srcBad : Bool} {o : LineOut} {step : Option Nat} (hs : Keeps z s) : Keeps z (State.ctxWrite s n c va host bs srcBad o step).1 := by
  unfold State.ctxWrite
  with_reducible repeat' first
    | assumption
    | intro y
    | apply State.failStep?_keeps
    | apply State.access_keeps
    | refine Keeps.ofFst (State.access_keeps ?_) (by assumption)
    | apply State.lineWrite_keeps
    | apply KeepsR.next
    | apply Keeps.ite
    | apply Keeps.foldl
    | apply Keeps.foldlFst
    | exact KeepsO.none
    | apply KeepsO.some
    | dsimp only
    | fail_if_no_progress refine Keeps.lit ?_ rfl rfl rfl rfl rfl rfl rfl rfl rfl
    | refine Keeps.ofFst (Keeps.foldlFst ?_ ?_) (by assumption)
    | split

theorem State.dataDetect_keeps {z : State} {s : State} {id : Nat} (hs : Keeps z s) : Keeps z (State.dataDetect s id) := by
  unfold State.dataDetect
  with_reducible repeat' first
    | assumption
    | intro y
    | apply State.failStep_keeps
    | apply State.setStep_keeps
    | apply State.endStepKernels_keeps
    | apply KeepsR.next
    | apply Keeps.ite
    | apply Keeps.foldl
    | apply Keeps.foldlFst
    | exact KeepsO.none
    | apply KeepsO.some
    | dsimp only
    | fail_if_no_progress refine Keeps.lit ?_ rfl rfl rfl rfl rfl rfl rfl rfl rfl
    | refine Keeps.ofFst (Keeps.foldlFst ?_ ?_) (by assumption)
    | split

theorem State.dataDetect?_keeps {z : State} {s : State} {step : Option Nat} (hs : Keeps z s) : Keeps z (State.dataDetect? s step) := by
  unfold State.dataDetect?
  with_reducible repeat' first
    | assumption
    | intro y
    | apply State.dataDetect_keeps
    | apply KeepsR.next
    | apply Keeps.ite
    | apply Keeps.foldl
    | apply Keeps.foldlFst
    | exact KeepsO.none
    | apply KeepsO.some
    | dsimp only
    | fail_if_no_progress refine Keeps.lit ?_ rfl rfl rfl rfl rfl rfl rfl rfl rfl
    | refine Keeps.ofFst (Keeps.foldlFst ?_ ?_) (by assumption)
    | split

theorem State.askRebuild_keeps {z : State} {s : State} {f : Nat} {step : Option Nat} (hs : Keeps z s) : Keeps z (State.askRebuild s f step) := by
  unfold State.askRebuild
  with_reducible repeat' first
    | assumption
    | intro y
    | apply KeepsR.next
    | apply Keeps.ite
    | apply Keeps.foldl
    | apply Keeps.foldlFst
    | exact KeepsO.none
    | apply KeepsO.some
    | dsimp only
    | fail_if_no_progress refine Keeps.lit ?_ rfl rfl rfl rfl rfl rfl rfl rfl rfl
    | refine Keeps.ofFst (Keeps.foldlFst ?_ ?_) (by assumption)
    | split

theorem State.ctxStQ_keeps {z : State} {s : State} {c : Nat} {bit : Nat} {st : Nat} {q : Nat} (hs : Keeps z s) : Keeps z (State.ctxStQ s c bit st q) := by
  unfold State.ctxStQ
  with_reducible repeat' first
    | assumption
    | intro y
    | apply State.fresh_keeps
    | refine Keeps.ofFst (State.fresh_keeps ?_) (by assumption)
    | apply State.ctxEvent_keeps

theorem State.memDetect_keeps {z : State} {s : State} {x : Frame} {va : Nat} (hs : Keeps z s) : Keeps z (State.memDetect s x va) := by
  unfold State.memDetect
  with_reducible repeat' first
    | assumption
    | intro y
    | apply State.ctxStQ_keeps
    | apply KeepsR.next
    | apply Keeps.ite
    | apply Keeps.foldl

theorem State.recover_keeps {z : State} {s : State} {f : Nat} {va : Nat} {step : Option Nat} (hs : Keeps z s) : Keeps z (State.recover s f va step) := by
  unfold State.recover
  with_reducible repeat' first
    | assumption
    | intro y
    | apply State.dataDetect?_keeps
    | apply State.failStep?_keeps
    | apply State.askRebuild_keeps
    | apply State.memDetect_keeps
    | apply State.count_keeps
    | apply KeepsR.next
    | apply Keeps.ite
    | apply Keeps.foldl
    | apply Keeps.foldlFst
    | exact KeepsO.none
    | apply KeepsO.some
    | dsimp only
    | fail_if_no_progress refine Keeps.lit ?_ rfl rfl rfl rfl rfl rfl rfl rfl rfl
    | refine Keeps.ofFst (Keeps.foldlFst ?_ ?_) (by assumption)
    | split

theorem State.ctxRead_keeps {z : State} {s : State} {n : Nat} {c : Nat} {va : Nat} {host : Bool} {o : LineOut} {step : Option Nat} (hs : Keeps z s) : Keeps z (State.ctxRead s n c va host o step).1 := by
  unfold State.ctxRead
  with_reducible repeat' first
    | assumption
    | intro y
    | apply State.failStep?_keeps
    | apply State.access_keeps
    | refine Keeps.ofFst (State.access_keeps ?_) (by assumption)
    | apply State.lineRead_keeps
    | refine Keeps.ofFst (State.lineRead_keeps ?_) (by assumption)
    | apply State.recover_keeps
    | apply KeepsR.next
    | apply Keeps.ite
    | apply Keeps.foldl
    | apply Keeps.foldlFst
    | exact KeepsO.none
    | apply KeepsO.some
    | dsimp only
    | fail_if_no_progress refine Keeps.lit ?_ rfl rfl rfl rfl rfl rfl rfl rfl rfl
    | refine Keeps.ofFst (Keeps.foldlFst ?_ ?_) (by assumption)
    | split

theorem State.takeSys_keeps {z : State} {s : State} {n : Nat} {k : Nat} (hs : Keeps z s) : Keeps z (State.takeSys s n k) := by
  unfold State.takeSys
  with_reducible repeat' first
    | assumption
    | intro y
    | apply State.wr_keeps
    | apply State.raise_keeps
    | apply KeepsR.next
    | apply Keeps.ite

theorem State.modFrame_keeps {z : State} {s : State} {f : Nat} {g : Frame → Frame} (hs : Keeps z s) : Keeps z (State.modFrame s f g) := by
  unfold State.modFrame
  with_reducible repeat' first
    | assumption
    | intro y
    | apply KeepsR.next
    | apply Keeps.ite
    | apply Keeps.foldl
    | apply Keeps.foldlFst
    | exact KeepsO.none
    | apply KeepsO.some
    | dsimp only
    | fail_if_no_progress refine Keeps.lit ?_ rfl rfl rfl rfl rfl rfl rfl rfl rfl

theorem State.dropLab_keeps {z : State} {s : State} {key : Nat} (hs : Keeps z s) : Keeps z (State.dropLab s key) := by
  unfold State.dropLab
  with_reducible repeat' first
    | assumption
    | intro y
    | apply KeepsR.next
    | apply Keeps.ite
    | apply Keeps.foldl
    | apply Keeps.foldlFst
    | exact KeepsO.none
    | apply KeepsO.some
    | dsimp only
    | fail_if_no_progress refine Keeps.lit ?_ rfl rfl rfl rfl rfl rfl rfl rfl rfl

theorem State.clearLeaf_keeps {z : State} {s : State} {key : Nat} {x : Leaf} {big : Bool} (hs : Keeps z s) : Keeps z (State.clearLeaf s key x big) := by
  unfold State.clearLeaf
  with_reducible repeat' first
    | assumption
    | intro y
    | apply State.modFrame_keeps
    | apply State.dropLab_keeps
    | apply KeepsR.next
    | apply Keeps.ite
    | apply Keeps.foldl
    | apply Keeps.foldlFst
    | exact KeepsO.none
    | apply KeepsO.some
    | dsimp only
    | fail_if_no_progress refine Keeps.lit ?_ rfl rfl rfl rfl rfl rfl rfl rfl rfl

theorem State.showKeys_keeps {z : State} {s : State} (hs : Keeps z s) : Keeps z (State.showKeys s) := by
  unfold State.showKeys
  with_reducible repeat' first
    | assumption
    | intro y
    | apply State.wr_keeps
    | apply KeepsR.next
    | apply Keeps.ite
    | apply Keeps.foldl

theorem State.destroyKey_keeps {z : State} {s : State} {slot : Nat} (hs : Keeps z s) : Keeps z (State.destroyKey s slot) := by
  unfold State.destroyKey
  with_reducible repeat' first
    | assumption
    | intro y
    | apply State.showKeys_keeps
    | apply KeepsR.next
    | apply Keeps.ite
    | apply Keeps.foldl
    | apply Keeps.foldlFst
    | exact KeepsO.none
    | apply KeepsO.some
    | dsimp only
    | fail_if_no_progress refine Keeps.lit ?_ rfl rfl rfl rfl rfl rfl rfl rfl rfl

theorem State.endClear_keeps {z : State} {s : State} {c : Clear} (hs : Keeps z s) : Keeps z (State.endClear s c) := by
  unfold State.endClear
  with_reducible repeat' first
    | assumption
    | intro y
    | apply State.bump_keeps
    | apply State.setFrame_keeps
    | apply State.modFrame_keeps
    | apply KeepsR.next
    | apply Keeps.ite
    | apply Keeps.foldl
    | apply Keeps.foldlFst
    | exact KeepsO.none
    | apply KeepsO.some
    | dsimp only
    | fail_if_no_progress refine Keeps.lit ?_ rfl rfl rfl rfl rfl rfl rfl rfl rfl
    | refine Keeps.ofFst (Keeps.foldlFst ?_ ?_) (by assumption)
    | split

theorem State.zeroFrames_keeps {z : State} {s : State} {p : Nat → Bool} (hs : Keeps z s) : Keeps z (State.zeroFrames s p) := by
  unfold State.zeroFrames
  exact hs.of rfl rfl rfl fun c => ⟨c.vstore, c.fstore, by dsimp only; exact wf_mfilterOut _ c.mem, c.host, c.regs, c.ctrs⟩

theorem State.giveFrames_keeps {z : State} {s : State} {r : FrameRun} {otype : Nat} {owner : Nat} {kind : Nat} {clearing : Bool} (hs : Keeps z s) : Keeps z (State.giveFrames s r otype owner kind clearing) := by
  unfold State.giveFrames
  with_reducible repeat' first
    | assumption
    | intro y
    | apply State.setFrame_keeps
    | apply KeepsR.next
    | apply Keeps.ite
    | apply Keeps.foldl

theorem State.installKey_keeps {z : State} {s : State} {slot : Nat} (hs : Keeps z s) : Keeps z (State.installKey s slot) := by
  unfold State.installKey
  with_reducible repeat' first
    | assumption
    | intro y
    | apply State.showKeys_keeps
    | apply KeepsR.next
    | apply Keeps.ite
    | apply Keeps.foldl
    | apply Keeps.foldlFst
    | exact KeepsO.none
    | apply KeepsO.some
    | dsimp only
    | fail_if_no_progress refine Keeps.lit ?_ rfl rfl rfl rfl rfl rfl rfl rfl rfl

theorem State.patrolLate_keeps {z : State} {s : State} {pg : Nat} (hs : Keeps z s) : Keeps z (State.patrolLate s pg) := by
  unfold State.patrolLate
  with_reducible repeat' first
    | assumption
    | intro y
    | apply State.raise_keeps
    | apply KeepsR.next
    | apply Keeps.ite
    | apply Keeps.foldl
    | apply Keeps.foldlFst
    | exact KeepsO.none
    | apply KeepsO.some
    | dsimp only
    | fail_if_no_progress refine Keeps.lit ?_ rfl rfl rfl rfl rfl rfl rfl rfl rfl

theorem State.putFrame_keeps {z : State} {s : State} {f : Nat} {bs : List Byte} (hs : Keeps z s) : Keeps z (State.putFrame s f bs) := by
  unfold State.putFrame
  with_reducible repeat' first
    | assumption
    | intro y
    | apply State.lineWrite_keeps
    | apply KeepsR.next
    | apply Keeps.ite
    | apply Keeps.foldl
    | apply Keeps.foldlFst
    | exact KeepsO.none
    | apply KeepsO.some
    | dsimp only
    | fail_if_no_progress refine Keeps.lit ?_ rfl rfl rfl rfl rfl rfl rfl rfl rfl
    | refine Keeps.ofFst (Keeps.foldlFst ?_ ?_) (by assumption)
    | split

theorem State.showPatrol_keeps {z : State} {s : State} {n : Nat} {g : Nat} (hs : Keeps z s) : Keeps z (State.showPatrol s n g) := by
  unfold State.showPatrol
  with_reducible repeat' first
    | assumption
    | intro y
    | apply State.wr_keeps

theorem State.writeLeaf_keeps {z : State} {s : State} {key : Nat} {va : Nat} {x : Leaf} {big : Bool} (hs : Keeps z s) : Keeps z (State.writeLeaf s key va x big) := by
  unfold State.writeLeaf
  with_reducible repeat' first
    | assumption
    | intro y
    | apply State.modFrame_keeps
    | apply State.clearLeaf_keeps
    | apply State.dropLab_keeps
    | apply KeepsR.next
    | apply Keeps.ite
    | apply Keeps.foldl
    | apply Keeps.foldlFst
    | exact KeepsO.none
    | apply KeepsO.some
    | dsimp only
    | fail_if_no_progress refine Keeps.lit ?_ rfl rfl rfl rfl rfl rfl rfl rfl rfl
    | refine Keeps.ofFst (Keeps.foldlFst ?_ ?_) (by assumption)
    | split

theorem execFrameAssign_keeps {z : State} {fn : Fin 32} {tag : Nat} {isDomain : Bool} {owner : Nat} {kind : Nat} {r : FrameRun} {s : State} (hs : Keeps z s) : KeepsR z (execFrameAssign fn tag isDomain owner kind r s) := by
  unfold execFrameAssign
  with_reducible repeat' first
    | assumption
    | intro y
    | apply State.giveFrames_keeps
    | apply State.commandUnless_keeps
    | apply State.respond_keeps
    | apply State.addClear_keeps
    | apply State.hold_keeps
    | apply State.count_keeps
    | apply KeepsR.next
    | apply Keeps.ite

theorem execFrameClearDone_keeps {z : State} {die : Fin 4} {first : Nat} {s : State} (hs : Keeps z s) : KeepsR z (execFrameClearDone die first s) := by
  unfold execFrameClearDone
  with_reducible repeat' first
    | assumption
    | intro y
    | apply State.wake_keeps
    | apply State.zeroFrames_keeps
    | apply State.endClear_keeps
    | apply State.recount_keeps
    | apply State.count_keeps
    | apply KeepsR.next
    | apply Keeps.ite
    | apply Keeps.foldl
    | apply Keeps.foldlFst
    | exact KeepsO.none
    | apply KeepsO.some
    | dsimp only
    | fail_if_no_progress refine Keeps.lit ?_ rfl rfl rfl rfl rfl rfl rfl rfl rfl
    | refine Keeps.ofFst (Keeps.foldlFst ?_ ?_) (by assumption)
    | split

theorem execFrameRecoveryDone_keeps {z : State} {die : Fin 4} {frame : Nat} {data : Option (List Byte)} {s : State} (hs : Keeps z s) : KeepsR z (execFrameRecoveryDone die frame data s) := by
  unfold execFrameRecoveryDone
  with_reducible repeat' first
    | assumption
    | intro y
    | apply State.failStep_keeps
    | apply State.memDetect_keeps
    | apply State.putFrame_keeps
    | apply State.count_keeps
    | apply KeepsR.next
    | apply Keeps.ite
    | apply Keeps.foldl
    | apply Keeps.foldlFst
    | exact KeepsO.none
    | apply KeepsO.some
    | dsimp only
    | fail_if_no_progress refine Keeps.lit ?_ rfl rfl rfl rfl rfl rfl rfl rfl rfl
    | refine Keeps.ofFst (Keeps.foldlFst ?_ ?_) (by assumption)
    | split

theorem execFrameRelease_keeps {z : State} {fn : Fin 32} {tag : Nat} {isDomain : Bool} {owner : Nat} {r : FrameRun} {s : State} (hs : Keeps z s) : KeepsR z (execFrameRelease fn tag isDomain owner r s) := by
  unfold execFrameRelease
  with_reducible repeat' first
    | assumption
    | intro y
    | apply State.modFrame_keeps
    | apply State.commandUnless_keeps
    | apply State.respond_keeps
    | apply State.addClear_keeps
    | apply State.hold_keeps
    | apply State.count_keeps
    | apply KeepsR.next
    | apply Keeps.ite
    | apply Keeps.foldl

theorem execLpddrRead_keeps {z : State} {die : Fin 4} {ctx : Fin 1024} {va : Nat} {step : Option Nat} {o : LineOut} {s : State} (hs : Keeps z s) : KeepsR z (execLpddrRead die ctx va step o s) := by
  unfold execLpddrRead
  with_reducible repeat' first
    | assumption
    | intro y
    | apply State.ctxRead_keeps
    | refine Keeps.ofFst (State.ctxRead_keeps ?_) (by assumption)
    | apply KeepsR.next
    | apply Keeps.ite
    | apply Keeps.foldl
    | apply Keeps.foldlFst
    | exact KeepsO.none
    | apply KeepsO.some
    | dsimp only
    | fail_if_no_progress refine Keeps.lit ?_ rfl rfl rfl rfl rfl rfl rfl rfl rfl

theorem execLpddrWrite_keeps {z : State} {die : Fin 4} {ctx : Fin 1024} {va : Nat} {data : List Byte} {srcBad : Bool} {step : Option Nat} {o : LineOut} {s : State} (hs : Keeps z s) : KeepsR z (execLpddrWrite die ctx va data srcBad step o s) := by
  unfold execLpddrWrite
  with_reducible repeat' first
    | assumption
    | intro y
    | apply State.ctxWrite_keeps
    | refine Keeps.ofFst (State.ctxWrite_keeps ?_) (by assumption)
    | apply KeepsR.next
    | apply Keeps.ite

theorem execPatrolPassEnd_keeps {z : State} {die : Fin 4} {group : Fin 4} {s : State} (hs : Keeps z s) : KeepsR z (execPatrolPassEnd die group s) := by
  unfold execPatrolPassEnd
  with_reducible repeat' first
    | assumption
    | intro y
    | apply State.wr_keeps
    | apply KeepsR.next
    | apply Keeps.ite
    | apply Keeps.foldl
    | apply Keeps.foldlFst
    | exact KeepsO.none
    | apply KeepsO.some
    | dsimp only
    | fail_if_no_progress refine Keeps.lit ?_ rfl rfl rfl rfl rfl rfl rfl rfl rfl

theorem execPatrolRead_keeps {z : State} {die : Fin 4} {group : Fin 4} {ch : Fin 8} {fail1 : Bool} {fail2 : Bool} {replaced : Bool} {s : State} (hs : Keeps z s) : KeepsR z (execPatrolRead die group ch fail1 fail2 replaced s) := by
  unfold execPatrolRead
  apply KeepsR.next
  extract_lets +onlyGivenNames pg chan gch pos
  split
  · exact hs
  · split
    · exact State.patrolLate_keeps hs
    · split
      · exact hs
      · extract_lets +onlyGivenNames f l src s0 s1 how t sa s2
        have h0 : Keeps z s0 := Keeps.lit hs rfl rfl rfl rfl rfl rfl rfl rfl rfl
        have h1 : Keeps z s1 := State.count_keeps (State.showPatrol_keeps h0)
        clear_value s1 how
        have ht : Keeps z t := State.count_keeps (State.raise_keeps (State.confirm_keeps h1))
        have h2 : Keeps z s2 := by
          unfold s2
          clear_value t
          split
          · split
            · exact State.count_keeps h1
            · exact h1
          · split
            · exact h1
            · split
              · exact ht.of rfl rfl rfl fun c => ⟨c.vstore, c.fstore, wf_bzero c.mem _ _, c.host, c.regs, c.ctrs⟩
              · split
                · exact State.count_keeps (State.raise_keeps (Keeps.lit ht rfl rfl rfl rfl rfl rfl rfl rfl rfl))
                · exact State.recover_keeps ht
        exact State.patrolLate_keeps h2

theorem execXmap_keeps {z : State} {fn : Fin 32} {tag : Nat} {ctx : Fin 1024} {va : Nat} {pa : Nat} {big : Bool} {w : Bool} {h : Bool} {s : State} (hs : Keeps z s) : KeepsR z (execXmap fn tag ctx va pa big w h s) := by
  unfold execXmap
  with_reducible repeat' first
    | assumption
    | intro y
    | apply State.command_keeps
    | apply State.takeSys_keeps
    | apply State.writeLeaf_keeps
    | apply State.respond_keeps
    | apply State.count_keeps
    | apply KeepsR.next
    | apply Keeps.ite
    | apply Keeps.foldl
    | apply Keeps.foldlFst
    | exact KeepsO.none
    | apply KeepsO.some
    | dsimp only
    | fail_if_no_progress refine Keeps.lit ?_ rfl rfl rfl rfl rfl rfl rfl rfl rfl

theorem execXunmap_keeps {z : State} {fn : Fin 32} {tag : Nat} {ctx : Fin 1024} {va : Nat} {s : State} (hs : Keeps z s) : KeepsR z (execXunmap fn tag ctx va s) := by
  unfold execXunmap
  with_reducible repeat' first
    | assumption
    | intro y
    | apply State.command_keeps
    | apply State.clearLeaf_keeps
    | apply State.respond_keeps
    | apply State.count_keeps
    | apply KeepsR.next
    | apply Keeps.ite
    | apply Keeps.foldl
    | apply Keeps.foldlFst
    | exact KeepsO.none
    | apply KeepsO.some
    | dsimp only
    | fail_if_no_progress refine Keeps.lit ?_ rfl rfl rfl rfl rfl rfl rfl rfl rfl
    | refine Keeps.ofFst (Keeps.foldlFst ?_ ?_) (by assumption)
    | split

end Sys2Proof.Machine
end

