-- ==== Sys2Proof/Laws/KeepsLoadStore.lean ====
section
/-! SUPPORT. Every operation of `Machine/LoadStore.lean` keeps the queue, the variant, the clock and the canonical stores. -/

namespace Sys2Proof.Machine

theorem State.atomic_keeps {z : State} {s : State} {pg : Nat} {k : Kernel} {w : IW} {f : Nat → Nat} (hs : Keeps z s) : Keeps z (State.atomic s pg k w f) := by
  unfold State.atomic
  with_reducible repeat' first
    | assumption
    | intro y
    | apply State.denyVat_keeps
    | apply State.kput_keeps
    | apply State.storeParity_keeps
    | apply State.setKern_keeps
    | apply KeepsR.next
    | apply Keeps.ite

theorem State.load_keeps {z : State} {s : State} {pg : Nat} {k : Kernel} {w : IW} {n : Nat} {body : (Nat → Nat) → Kernel} (hs : Keeps z s) : Keeps z (State.load s pg k w n body) := by
  unfold State.load
  with_reducible repeat' first
    | assumption
    | intro y
    | apply State.denyVat_keeps
    | apply State.storeParity_keeps
    | apply State.setKern_keeps
    | apply KeepsR.next
    | apply Keeps.ite

theorem State.store_keeps {z : State} {s : State} {pg : Nat} {k : Kernel} {w : IW} {n : Nat} {ws : List (Nat × Nat)} (hs : Keeps z s) : Keeps z (State.store s pg k w n ws) := by
  unfold State.store
  with_reducible repeat' first
    | assumption
    | intro y
    | apply State.denyVat_keeps
    | apply State.kput_keeps
    | apply State.storeParity_keeps
    | apply KeepsR.next
    | apply Keeps.ite

theorem execAtadd_keeps {z : State} {v : VatId} {s : State} (hs : Keeps z s) : KeepsR z (execAtadd v s) := by
  unfold execAtadd
  with_reducible repeat' first
    | assumption
    | intro y
    | apply State.unitStep_keeps
    | apply State.atomic_keeps
    | apply KeepsR.next

theorem execAtswp_keeps {z : State} {v : VatId} {s : State} (hs : Keeps z s) : KeepsR z (execAtswp v s) := by
  unfold execAtswp
  with_reducible repeat' first
    | assumption
    | intro y
    | apply State.unitStep_keeps
    | apply State.atomic_keeps
    | apply KeepsR.next

theorem execDmain_keeps {z : State} {v : VatId} {s : State} (hs : Keeps z s) : KeepsR z (execDmain v s) := by
  unfold execDmain
  with_reducible repeat' first
    | assumption
    | intro y
    | apply State.unitStep_keeps
    | apply State.setKern_keeps
    | apply KeepsR.next

theorem execDmaout_keeps {z : State} {v : VatId} {s : State} (hs : Keeps z s) : KeepsR z (execDmaout v s) := by
  unfold execDmaout
  with_reducible repeat' first
    | assumption
    | intro y
    | apply State.unitStep_keeps
    | apply State.setKern_keeps
    | apply KeepsR.next

theorem execLds_keeps {z : State} {v : VatId} {s : State} (hs : Keeps z s) : KeepsR z (execLds v s) := by
  unfold execLds
  with_reducible repeat' first
    | assumption
    | intro y
    | apply State.load_keeps
    | apply State.unitStep_keeps
    | apply KeepsR.next

theorem execLdv_keeps {z : State} {v : VatId} {s : State} (hs : Keeps z s) : KeepsR z (execLdv v s) := by
  unfold execLdv
  with_reducible repeat' first
    | assumption
    | intro y
    | apply State.load_keeps
    | apply State.unitStep_keeps
    | apply KeepsR.next

theorem execLdvc_keeps {z : State} {v : VatId} {s : State} (hs : Keeps z s) : KeepsR z (execLdvc v s) := by
  unfold execLdvc
  with_reducible repeat' first
    | assumption
    | intro y
    | apply State.load_keeps
    | apply State.unitStep_keeps
    | apply KeepsR.next

theorem execSts_keeps {z : State} {v : VatId} {s : State} (hs : Keeps z s) : KeepsR z (execSts v s) := by
  unfold execSts
  with_reducible repeat' first
    | assumption
    | intro y
    | apply State.store_keeps
    | apply State.unitStep_keeps
    | apply KeepsR.next

theorem execStv_keeps {z : State} {v : VatId} {s : State} (hs : Keeps z s) : KeepsR z (execStv v s) := by
  unfold execStv
  with_reducible repeat' first
    | assumption
    | intro y
    | apply State.store_keeps
    | apply State.unitStep_keeps
    | apply KeepsR.next

theorem execStvc_keeps {z : State} {v : VatId} {s : State} (hs : Keeps z s) : KeepsR z (execStvc v s) := by
  unfold execStvc
  with_reducible repeat' first
    | assumption
    | intro y
    | apply State.store_keeps
    | apply State.unitStep_keeps
    | apply KeepsR.next

end Sys2Proof.Machine
end

