-- ==== Sys2Proof/Laws/KeepsTun.lean ====
section
/-! SUPPORT. Every operation of `Machine/Tun.lean` keeps the queue, the variant, the clock and the canonical stores. -/

namespace Sys2Proof.Machine

theorem State.residue_keeps {z : State} {s : State} {pg : Nat} {k : Kernel} {tun : Option Nat} (hs : Keeps z s) : Keeps z (State.residue s pg k tun) := by
  unfold State.residue
  with_reducible repeat' first
    | assumption
    | intro y
    | apply State.detect_keeps
    | apply State.noteDet_keeps
    | apply KeepsR.next
    | apply Keeps.ite
    | apply Keeps.foldl
    | apply Keeps.foldlFst
    | exact KeepsO.none
    | apply KeepsO.some
    | dsimp only
    | fail_if_no_progress refine Keeps.lit ?_ rfl rfl rfl rfl rfl rfl rfl rfl rfl
    | refine Keeps.ofFst (Keeps.foldlFst ?_ ?_) (by assumption)
    | split

theorem execAccld_keeps {z : State} {v : VatId} {s : State} (hs : Keeps z s) : KeepsR z (execAccld v s) := by
  unfold execAccld
  with_reducible repeat' first
    | assumption
    | intro y
    | apply State.load_keeps
    | apply State.unitStep_keeps
    | apply KeepsR.next

theorem execAccst_keeps {z : State} {v : VatId} {err : Bool} {s : State} (hs : Keeps z s) : KeepsR z (execAccst v err s) := by
  unfold execAccst
  with_reducible repeat' first
    | assumption
    | intro y
    | apply State.residue_keeps
    | apply State.store_keeps
    | apply State.unitStep_keeps
    | apply KeepsR.next
    | apply Keeps.ite

theorem execAccv_keeps {z : State} {v : VatId} {s : State} (hs : Keeps z s) : KeepsR z (execAccv v s) := by
  unfold execAccv
  with_reducible repeat' first
    | assumption
    | intro y
    | apply State.regStep_keeps
    | apply KeepsR.next

theorem execAccz_keeps {z : State} {v : VatId} {s : State} (hs : Keeps z s) : KeepsR z (execAccz v s) := by
  unfold execAccz
  with_reducible repeat' first
    | assumption
    | intro y
    | apply State.regStep_keeps
    | apply KeepsR.next

theorem execMma_keeps {z : State} {v : VatId} {err : Option (Fin 64)} {s : State} (hs : Keeps z s) : KeepsR z (execMma v err s) := by
  unfold execMma
  with_reducible repeat' first
    | assumption
    | intro y
    | apply State.residue_keeps
    | apply State.unitStep_keeps
    | apply State.denyVat_keeps
    | apply State.storeParity_keeps
    | apply State.count_keeps
    | apply State.setKern_keeps
    | apply KeepsR.next
    | apply Keeps.ite
    | apply Keeps.foldl
    | apply Keeps.foldlFst
    | exact KeepsO.none
    | apply KeepsO.some
    | dsimp only
    | fail_if_no_progress refine Keeps.lit ?_ rfl rfl rfl rfl rfl rfl rfl rfl rfl
    | refine Keeps.ofFst (Keeps.foldlFst ?_ ?_) (by assumption)
    | split

end Sys2Proof.Machine
end

