-- ==== Sys2Proof/Laws/KeepsVector.lean ====
section
/-! SUPPORT. Every operation of `Machine/Vector.lean` keeps the queue, the variant, the clock and the canonical stores. -/

namespace Sys2Proof.Machine

theorem State.checked_keeps {z : State} {s : State} {v : VatId} {op : Nat} {err : Bool} {f : Kernel → IW → Nat → Nat} (hs : Keeps z s) : Keeps z (State.checked s v op err f) := by
  unfold State.checked
  with_reducible repeat' first
    | assumption
    | intro y
    | apply State.residue_keeps
    | apply State.unitStep_keeps
    | apply State.setKern_keeps
    | apply KeepsR.next
    | apply Keeps.ite

theorem State.lanewise_keeps {z : State} {s : State} {v : VatId} {op : Nat} {f : IW → Nat → Nat → Nat} (hs : Keeps z s) : Keeps z (State.lanewise s v op f) := by
  unfold State.lanewise
  with_reducible repeat' first
    | assumption
    | intro y
    | apply State.regStep_keeps

theorem State.reduce_keeps {z : State} {s : State} {v : VatId} {op : Nat} {f : Kernel → IW → Nat} (hs : Keeps z s) : Keeps z (State.reduce s v op f) := by
  unfold State.reduce
  with_reducible repeat' first
    | assumption
    | intro y
    | apply State.regStep_keeps

theorem execVabs_keeps {z : State} {v : VatId} {s : State} (hs : Keeps z s) : KeepsR z (execVabs v s) := by
  unfold execVabs
  with_reducible repeat' first
    | assumption
    | intro y
    | apply State.lanewise_keeps
    | apply KeepsR.next

theorem execVadd_keeps {z : State} {v : VatId} {err : Bool} {s : State} (hs : Keeps z s) : KeepsR z (execVadd v err s) := by
  unfold execVadd
  with_reducible repeat' first
    | assumption
    | intro y
    | apply State.checked_keeps
    | apply KeepsR.next

theorem execVand_keeps {z : State} {v : VatId} {s : State} (hs : Keeps z s) : KeepsR z (execVand v s) := by
  unfold execVand
  with_reducible repeat' first
    | assumption
    | intro y
    | apply State.lanewise_keeps
    | apply KeepsR.next

theorem execVargmax_keeps {z : State} {v : VatId} {s : State} (hs : Keeps z s) : KeepsR z (execVargmax v s) := by
  unfold execVargmax
  with_reducible repeat' first
    | assumption
    | intro y
    | apply State.reduce_keeps
    | apply KeepsR.next

theorem execVbcast_keeps {z : State} {v : VatId} {s : State} (hs : Keeps z s) : KeepsR z (execVbcast v s) := by
  unfold execVbcast
  with_reducible repeat' first
    | assumption
    | intro y
    | apply State.regStep_keeps
    | apply KeepsR.next

theorem execVcmp_keeps {z : State} {v : VatId} {s : State} (hs : Keeps z s) : KeepsR z (execVcmp v s) := by
  unfold execVcmp
  with_reducible repeat' first
    | assumption
    | intro y
    | apply State.regStep_keeps
    | apply KeepsR.next

theorem execVcntp_keeps {z : State} {v : VatId} {s : State} (hs : Keeps z s) : KeepsR z (execVcntp v s) := by
  unfold execVcntp
  with_reducible repeat' first
    | assumption
    | intro y
    | apply State.reduce_keeps
    | apply KeepsR.next

theorem execVcvt_keeps {z : State} {v : VatId} {s : State} (hs : Keeps z s) : KeepsR z (execVcvt v s) := by
  unfold execVcvt
  with_reducible repeat' first
    | assumption
    | intro y
    | apply State.lanewise_keeps
    | apply KeepsR.next

theorem execVerf_keeps {z : State} {v : VatId} {s : State} (hs : Keeps z s) : KeepsR z (execVerf v s) := by
  unfold execVerf
  with_reducible repeat' first
    | assumption
    | intro y
    | apply State.lanewise_keeps
    | apply KeepsR.next

theorem execVexp2_keeps {z : State} {v : VatId} {s : State} (hs : Keeps z s) : KeepsR z (execVexp2 v s) := by
  unfold execVexp2
  with_reducible repeat' first
    | assumption
    | intro y
    | apply State.lanewise_keeps
    | apply KeepsR.next

theorem execVfma_keeps {z : State} {v : VatId} {err : Bool} {s : State} (hs : Keeps z s) : KeepsR z (execVfma v err s) := by
  unfold execVfma
  with_reducible repeat' first
    | assumption
    | intro y
    | apply State.checked_keeps
    | apply KeepsR.next

theorem execVlog2_keeps {z : State} {v : VatId} {s : State} (hs : Keeps z s) : KeepsR z (execVlog2 v s) := by
  unfold execVlog2
  with_reducible repeat' first
    | assumption
    | intro y
    | apply State.lanewise_keeps
    | apply KeepsR.next

theorem execVmax_keeps {z : State} {v : VatId} {s : State} (hs : Keeps z s) : KeepsR z (execVmax v s) := by
  unfold execVmax
  with_reducible repeat' first
    | assumption
    | intro y
    | apply State.lanewise_keeps
    | apply KeepsR.next

theorem execVmin_keeps {z : State} {v : VatId} {s : State} (hs : Keeps z s) : KeepsR z (execVmin v s) := by
  unfold execVmin
  with_reducible repeat' first
    | assumption
    | intro y
    | apply State.lanewise_keeps
    | apply KeepsR.next

theorem execVmul_keeps {z : State} {v : VatId} {err : Bool} {s : State} (hs : Keeps z s) : KeepsR z (execVmul v err s) := by
  unfold execVmul
  with_reducible repeat' first
    | assumption
    | intro y
    | apply State.checked_keeps
    | apply KeepsR.next

theorem execVneg_keeps {z : State} {v : VatId} {s : State} (hs : Keeps z s) : KeepsR z (execVneg v s) := by
  unfold execVneg
  with_reducible repeat' first
    | assumption
    | intro y
    | apply State.lanewise_keeps
    | apply KeepsR.next

theorem execVor_keeps {z : State} {v : VatId} {s : State} (hs : Keeps z s) : KeepsR z (execVor v s) := by
  unfold execVor
  with_reducible repeat' first
    | assumption
    | intro y
    | apply State.lanewise_keeps
    | apply KeepsR.next

theorem execVperm_keeps {z : State} {v : VatId} {s : State} (hs : Keeps z s) : KeepsR z (execVperm v s) := by
  unfold execVperm
  with_reducible repeat' first
    | assumption
    | intro y
    | apply State.regStep_keeps
    | apply KeepsR.next

theorem execVrand_keeps {z : State} {v : VatId} {s : State} (hs : Keeps z s) : KeepsR z (execVrand v s) := by
  unfold execVrand
  with_reducible repeat' first
    | assumption
    | intro y
    | apply State.unitStep_keeps
    | apply State.setKern_keeps
    | apply KeepsR.next
    | apply Keeps.ite
    | apply Keeps.foldl
    | apply Keeps.foldlFst
    | exact KeepsO.none
    | apply KeepsO.some
    | dsimp only
    | fail_if_no_progress refine Keeps.lit ?_ rfl rfl rfl rfl rfl rfl rfl rfl rfl

theorem execVrcp_keeps {z : State} {v : VatId} {s : State} (hs : Keeps z s) : KeepsR z (execVrcp v s) := by
  unfold execVrcp
  with_reducible repeat' first
    | assumption
    | intro y
    | apply State.lanewise_keeps
    | apply KeepsR.next

theorem execVredmax_keeps {z : State} {v : VatId} {s : State} (hs : Keeps z s) : KeepsR z (execVredmax v s) := by
  unfold execVredmax
  with_reducible repeat' first
    | assumption
    | intro y
    | apply State.reduce_keeps
    | apply KeepsR.next

theorem execVredmin_keeps {z : State} {v : VatId} {s : State} (hs : Keeps z s) : KeepsR z (execVredmin v s) := by
  unfold execVredmin
  with_reducible repeat' first
    | assumption
    | intro y
    | apply State.reduce_keeps
    | apply KeepsR.next

theorem execVredsum_keeps {z : State} {v : VatId} {s : State} (hs : Keeps z s) : KeepsR z (execVredsum v s) := by
  unfold execVredsum
  with_reducible repeat' first
    | assumption
    | intro y
    | apply State.reduce_keeps
    | apply KeepsR.next

theorem execVrot_keeps {z : State} {v : VatId} {s : State} (hs : Keeps z s) : KeepsR z (execVrot v s) := by
  unfold execVrot
  with_reducible repeat' first
    | assumption
    | intro y
    | apply State.regStep_keeps
    | apply KeepsR.next

theorem execVrsqrt_keeps {z : State} {v : VatId} {s : State} (hs : Keeps z s) : KeepsR z (execVrsqrt v s) := by
  unfold execVrsqrt
  with_reducible repeat' first
    | assumption
    | intro y
    | apply State.lanewise_keeps
    | apply KeepsR.next

theorem execVscan_keeps {z : State} {v : VatId} {s : State} (hs : Keeps z s) : KeepsR z (execVscan v s) := by
  unfold execVscan
  with_reducible repeat' first
    | assumption
    | intro y
    | apply State.regStep_keeps
    | apply KeepsR.next

theorem execVsel_keeps {z : State} {v : VatId} {s : State} (hs : Keeps z s) : KeepsR z (execVsel v s) := by
  unfold execVsel
  with_reducible repeat' first
    | assumption
    | intro y
    | apply State.regStep_keeps
    | apply KeepsR.next

theorem execVshl_keeps {z : State} {v : VatId} {s : State} (hs : Keeps z s) : KeepsR z (execVshl v s) := by
  unfold execVshl
  with_reducible repeat' first
    | assumption
    | intro y
    | apply State.lanewise_keeps
    | apply KeepsR.next

theorem execVshr_keeps {z : State} {v : VatId} {s : State} (hs : Keeps z s) : KeepsR z (execVshr v s) := by
  unfold execVshr
  with_reducible repeat' first
    | assumption
    | intro y
    | apply State.lanewise_keeps
    | apply KeepsR.next

theorem execVsigm_keeps {z : State} {v : VatId} {s : State} (hs : Keeps z s) : KeepsR z (execVsigm v s) := by
  unfold execVsigm
  with_reducible repeat' first
    | assumption
    | intro y
    | apply State.lanewise_keeps
    | apply KeepsR.next

theorem execVsub_keeps {z : State} {v : VatId} {err : Bool} {s : State} (hs : Keeps z s) : KeepsR z (execVsub v err s) := by
  unfold execVsub
  with_reducible repeat' first
    | assumption
    | intro y
    | apply State.checked_keeps
    | apply KeepsR.next

theorem execVtanh_keeps {z : State} {v : VatId} {s : State} (hs : Keeps z s) : KeepsR z (execVtanh v s) := by
  unfold execVtanh
  with_reducible repeat' first
    | assumption
    | intro y
    | apply State.lanewise_keeps
    | apply KeepsR.next

theorem execVtopk_keeps {z : State} {v : VatId} {s : State} (hs : Keeps z s) : KeepsR z (execVtopk v s) := by
  unfold execVtopk
  with_reducible repeat' first
    | assumption
    | intro y
    | apply State.regStep_keeps
    | apply KeepsR.next

theorem execVxor_keeps {z : State} {v : VatId} {s : State} (hs : Keeps z s) : KeepsR z (execVxor v s) := by
  unfold execVxor
  with_reducible repeat' first
    | assumption
    | intro y
    | apply State.lanewise_keeps
    | apply KeepsR.next

end Sys2Proof.Machine
end

