-- ==== Sys2Proof/Laws/KeepsKv.lean ====
section
/-! SUPPORT. Every operation of `Machine/Kv.lean` keeps the queue, the variant, the clock and the canonical stores. -/

namespace Sys2Proof.Machine

theorem State.modHead_keeps {z : State} {s : State} {hd : Nat} {f : Head → Head} (hs : Keeps z s) : Keeps z (State.modHead s hd f) := by
  unfold State.modHead
  with_reducible repeat' first
    | assumption
    | intro y
    | apply KeepsR.next
    | apply Keeps.ite
    | apply Keeps.foldl
    | apply Keeps.foldlFst
    | exact KeepsO.none
    | apply KeepsO.some
    | dsimp only
    | fail_if_no_progress refine Keeps.lit ?_ rfl rfl rfl rfl rfl rfl rfl rfl rfl

theorem State.addReader_keeps {z : State} {s : State} {hd : Nat} {slot : Nat} (hs : Keeps z s) : Keeps z (State.addReader s hd slot) := by
  unfold State.addReader
  with_reducible repeat' first
    | assumption
    | intro y
    | apply State.modHead_keeps

theorem State.modRq_keeps {z : State} {s : State} {i : Nat} {f : Rq → Rq} (hs : Keeps z s) : Keeps z (State.modRq s i f) := by
  unfold State.modRq
  with_reducible repeat' first
    | assumption
    | intro y
    | apply KeepsR.next
    | apply Keeps.ite
    | apply Keeps.foldl
    | apply Keeps.foldlFst
    | exact KeepsO.none
    | apply KeepsO.some
    | dsimp only
    | fail_if_no_progress refine Keeps.lit ?_ rfl rfl rfl rfl rfl rfl rfl rfl rfl

theorem State.modPool_keeps {z : State} {s : State} {p : Nat} {f : KvPool → KvPool} (hs : Keeps z s) : Keeps z (State.modPool s p f) := by
  unfold State.modPool
  with_reducible repeat' first
    | assumption
    | intro y
    | apply KeepsR.next
    | apply Keeps.ite
    | apply Keeps.foldl
    | apply Keeps.foldlFst
    | exact KeepsO.none
    | apply KeepsO.some
    | dsimp only
    | fail_if_no_progress refine Keeps.lit ?_ rfl rfl rfl rfl rfl rfl rfl rfl rfl

theorem State.dropRoom_keeps {z : State} {s : State} {i : Nat} (hs : Keeps z s) : Keeps z (State.dropRoom s i) := by
  unfold State.dropRoom
  with_reducible repeat' first
    | assumption
    | intro y
    | apply State.modRq_keeps
    | apply State.modPool_keeps
    | apply KeepsR.next
    | apply Keeps.ite
    | apply Keeps.foldl
    | apply Keeps.foldlFst
    | exact KeepsO.none
    | apply KeepsO.some
    | dsimp only
    | fail_if_no_progress refine Keeps.lit ?_ rfl rfl rfl rfl rfl rfl rfl rfl rfl
    | refine Keeps.ofFst (Keeps.foldlFst ?_ ?_) (by assumption)
    | split

theorem State.showKv_keeps {z : State} {s : State} (hs : Keeps z s) : Keeps z (State.showKv s) := by
  unfold State.showKv
  with_reducible repeat' first
    | assumption
    | intro y
    | apply State.wr_keeps
    | apply KeepsR.next
    | apply Keeps.ite
    | apply Keeps.foldl

theorem State.dropPfx_keeps {z : State} {s : State} {i : Nat} (hs : Keeps z s) : Keeps z (State.dropPfx s i) := by
  unfold State.dropPfx
  with_reducible repeat' first
    | assumption
    | intro y
    | apply State.modPool_keeps
    | apply KeepsR.next
    | apply Keeps.ite
    | apply Keeps.foldl
    | apply Keeps.foldlFst
    | exact KeepsO.none
    | apply KeepsO.some
    | dsimp only
    | fail_if_no_progress refine Keeps.lit ?_ rfl rfl rfl rfl rfl rfl rfl rfl rfl
    | refine Keeps.ofFst (Keeps.foldlFst ?_ ?_) (by assumption)
    | split

theorem State.putPage_keeps {z : State} {s : State} {p : Nat} {e : PEnt} (hs : Keeps z s) : Keeps z (State.putPage s p e) := by
  unfold State.putPage
  with_reducible repeat' first
    | assumption
    | intro y
    | apply State.bump_keeps
    | apply State.setFrame_keeps
    | apply State.modPool_keeps
    | apply KeepsR.next
    | apply Keeps.ite
    | apply Keeps.foldl
    | apply Keeps.foldlFst
    | exact KeepsO.none
    | apply KeepsO.some
    | dsimp only
    | fail_if_no_progress refine Keeps.lit ?_ rfl rfl rfl rfl rfl rfl rfl rfl rfl
    | refine Keeps.ofFst (Keeps.foldlFst ?_ ?_) (by assumption)
    | split

theorem State.freeEnt_keeps {z : State} {s : State} {x : Freed} (hs : Keeps z s) : Keeps z (State.freeEnt s x) := by
  unfold State.freeEnt
  with_reducible repeat' first
    | assumption
    | intro y
    | apply State.dropPfx_keeps
    | apply State.putPage_keeps
    | apply KeepsR.next
    | apply Keeps.ite
    | apply Keeps.foldl
    | apply Keeps.foldlFst
    | exact KeepsO.none
    | apply KeepsO.some
    | dsimp only
    | fail_if_no_progress refine Keeps.lit ?_ rfl rfl rfl rfl rfl rfl rfl rfl rfl
    | refine Keeps.ofFst (Keeps.foldlFst ?_ ?_) (by assumption)
    | split

theorem State.giveSys_keeps {z : State} {s : State} {n : Nat} {k : Nat} (hs : Keeps z s) : Keeps z (State.giveSys s n k) := by
  unfold State.giveSys
  with_reducible repeat' first
    | assumption
    | intro y
    | apply State.bump_keeps

theorem State.destroyHead_keeps {z : State} {s : State} {hd : Nat} (hs : Keeps z s) : Keeps z (State.destroyHead s hd) := by
  unfold State.destroyHead
  with_reducible repeat' first
    | assumption
    | intro y
    | apply State.showKv_keeps
    | apply State.freeEnt_keeps
    | apply State.giveSys_keeps
    | apply KeepsR.next
    | apply Keeps.ite
    | apply Keeps.foldl
    | apply Keeps.foldlFst
    | exact KeepsO.none
    | apply KeepsO.some
    | dsimp only
    | fail_if_no_progress refine Keeps.lit ?_ rfl rfl rfl rfl rfl rfl rfl rfl rfl
    | refine Keeps.ofFst (Keeps.foldlFst ?_ ?_) (by assumption)
    | split

theorem State.hubWrite_keeps {z : State} {s : State} {c : Nat} {va : Nat} {bs : List Nat} (hs : Keeps z s) : Keeps z (State.hubWrite s c va bs) := by
  unfold State.hubWrite
  with_reducible repeat' first
    | assumption
    | intro y
    | apply State.ctxWrite_keeps
    | refine Keeps.ofFst (State.ctxWrite_keeps ?_) (by assumption)
    | apply KeepsR.next
    | apply Keeps.ite
    | apply Keeps.foldl

theorem State.hubRead_keeps {z : State} {s : State} {c : Nat} {va : Nat} {n : Nat} {o : optParam LineOut { }} {step : optParam (Option Nat) none} (hs : Keeps z s) : Keeps z (State.hubRead s c va n o step).1 := by
  unfold State.hubRead
  with_reducible repeat' first
    | assumption
    | intro y
    | apply State.ctxRead_keeps
    | refine Keeps.ofFst (State.ctxRead_keeps ?_) (by assumption)
    | apply KeepsR.next
    | apply Keeps.ite
    | apply Keeps.foldl
    | apply Keeps.foldlFst

theorem State.tableWrite_keeps {z : State} {s : State} {c : Nat} {va : Nat} {bs : List Nat} (hs : Keeps z s) : Keeps z (State.tableWrite s c va bs) := by
  unfold State.tableWrite
  with_reducible repeat' first
    | assumption
    | intro y
    | apply State.lineWrite_keeps
    | apply KeepsR.next
    | apply Keeps.ite
    | apply Keeps.foldl
    | apply Keeps.foldlFst
    | exact KeepsO.none
    | apply KeepsO.some
    | dsimp only
    | fail_if_no_progress refine Keeps.lit ?_ rfl rfl rfl rfl rfl rfl rfl rfl rfl
    | refine Keeps.ofFst (Keeps.foldlFst ?_ ?_) (by assumption)
    | split

theorem State.setHead_keeps {z : State} {s : State} {hd : Nat} {h : Head} (hs : Keeps z s) : Keeps z (State.setHead s hd h) := by
  unfold State.setHead
  with_reducible repeat' first
    | assumption
    | intro y
    | apply KeepsR.next
    | apply Keeps.ite
    | apply Keeps.foldl
    | apply Keeps.foldlFst
    | exact KeepsO.none
    | apply KeepsO.some
    | dsimp only
    | fail_if_no_progress refine Keeps.lit ?_ rfl rfl rfl rfl rfl rfl rfl rfl rfl

theorem State.logAppend_keeps {z : State} {s : State} {hd : Nat} {ts : List Nat} (hs : Keeps z s) : Keeps z (State.logAppend s hd ts) := by
  unfold State.logAppend
  with_reducible repeat' first
    | assumption
    | intro y
    | apply State.tableWrite_keeps
    | apply State.setHead_keeps
    | apply KeepsR.next
    | apply Keeps.ite
    | apply Keeps.foldl
    | apply Keeps.foldlFst
    | exact KeepsO.none
    | apply KeepsO.some
    | dsimp only
    | fail_if_no_progress refine Keeps.lit ?_ rfl rfl rfl rfl rfl rfl rfl rfl rfl
    | refine Keeps.ofFst (Keeps.foldlFst ?_ ?_) (by assumption)
    | split

theorem State.evictFor_keeps {z : State} {s : State} {p : Nat} {dom : Nat} {x3 : Nat} (hs : Keeps z s) : Keeps z (State.evictFor s p dom x3) := by
  induction x3 generalizing s with
  | zero => exact hs
  | succ k ih =>
    unfold State.evictFor
    with_reducible repeat' first
      | assumption
      | intro y
      | apply ih
      | apply State.dropPfx_keeps
      | apply State.count_keeps
      | apply KeepsO.mapK
      | apply KeepsO.foldl
      | refine KeepsO.keeps (KeepsO.some ?_) _ (by assumption)
      | apply KeepsR.next
      | apply Keeps.ite
      | apply Keeps.foldl
      | apply Keeps.foldlFst
      | exact KeepsO.none
      | apply KeepsO.some
      | dsimp only
      | fail_if_no_progress refine Keeps.lit ?_ rfl rfl rfl rfl rfl rfl rfl rfl rfl
      | refine Keeps.ofFst (Keeps.foldlFst ?_ ?_) (by assumption)
      | split

theorem State.takePage_keeps {z : State} {s : State} {p : Nat} (hs : Keeps z s) : Keeps z (State.takePage s p).1 := by
  unfold State.takePage
  with_reducible repeat' first
    | assumption
    | intro y
    | apply State.evictFor_keeps
    | apply State.modPool_keeps
    | apply State.raise_keeps
    | apply KeepsR.next
    | apply Keeps.ite
    | apply Keeps.foldl
    | apply Keeps.foldlFst
    | exact KeepsO.none
    | apply KeepsO.some
    | dsimp only
    | fail_if_no_progress refine Keeps.lit ?_ rfl rfl rfl rfl rfl rfl rfl rfl rfl
    | refine Keeps.ofFst (Keeps.foldlFst ?_ ?_) (by assumption)
    | split

theorem State.edit_keeps {z : State} {s : State} {hd : Nat} {k : Nat} {e : Option PEnt} {release : Bool} (hs : Keeps z s) : Keeps z (State.edit s hd k e release) := by
  unfold State.edit
  with_reducible repeat' first
    | assumption
    | intro y
    | apply State.setHead_keeps
    | apply KeepsR.next
    | apply Keeps.ite
    | apply Keeps.foldl
    | apply Keeps.foldlFst
    | exact KeepsO.none
    | apply KeepsO.some
    | dsimp only
    | fail_if_no_progress refine Keeps.lit ?_ rfl rfl rfl rfl rfl rfl rfl rfl rfl
    | refine Keeps.ofFst (Keeps.foldlFst ?_ ?_) (by assumption)
    | split

theorem State.freeBytes_keeps {z : State} {s : State} {n : Nat} (hs : Keeps z s) : Keeps z (State.freeBytes s n).1 := by
  unfold State.freeBytes
  with_reducible repeat' first
    | assumption
    | intro y
    | apply KeepsR.next
    | apply Keeps.ite
    | apply Keeps.foldl
    | apply Keeps.foldlFst
    | exact KeepsO.none
    | apply KeepsO.some
    | dsimp only
    | fail_if_no_progress refine Keeps.lit ?_ rfl rfl rfl rfl rfl rfl rfl rfl rfl

theorem State.pageWrite_keeps {z : State} {s : State} {die : Nat} {units : Nat} {e : PEnt} {off : Nat} {bs : List Nat} (hs : Keeps z s) : Keeps z (State.pageWrite s die units e off bs) := by
  unfold State.pageWrite
  split
  · split
    · exact hs
    · exact hs.of rfl rfl rfl fun c => ⟨wf_bputList c.vstore _ _, c.fstore, c.mem, c.host, c.regs, c.ctrs⟩
  · split
    · exact hs
    · exact Keeps.foldl (fun t x h => State.lineWrite_keeps h) hs

theorem State.pageTokens_keeps {z : State} {s : State} {g : Geom} {die : Nat} {e : PEnt} {t0 : Nat} {n : Nat} (hs : Keeps z s) : Keeps z (State.pageTokens s g die e t0 n) := by
  unfold State.pageTokens
  with_reducible repeat' first
    | assumption
    | intro y
    | apply State.freeBytes_keeps
    | refine Keeps.ofFst (State.freeBytes_keeps ?_) (by assumption)
    | apply State.pageWrite_keeps
    | apply KeepsR.next
    | apply Keeps.ite
    | apply Keeps.foldl

theorem State.summarise_keeps {z : State} {s : State} {p : Nat} {g : Geom} {e : PEnt} (hs : Keeps z s) : Keeps z (State.summarise s p g e).1 := by
  unfold State.summarise
  with_reducible repeat' first
    | assumption
    | intro y
    | apply State.modPool_keeps
    | apply KeepsR.next
    | apply Keeps.ite
    | apply Keeps.foldl
    | apply Keeps.foldlFst
    | exact KeepsO.none
    | apply KeepsO.some
    | dsimp only
    | fail_if_no_progress refine Keeps.lit ?_ rfl rfl rfl rfl rfl rfl rfl rfl rfl
    | refine Keeps.ofFst (Keeps.foldlFst ?_ ?_) (by assumption)
    | split

/-- The same of an optional state beside a value. -/
structure KeepsOF {β : Type} (s : State) (o : Option (State × β)) : Prop where
  keeps : ∀ p, o = some p → Keeps s p.1

theorem State.appendPage_keeps {z : State} {s : State} {hd : Nat} {k : Nat} {n : Nat} (hs : Keeps z s) : KeepsO z (State.appendPage s hd k n) := by
  unfold State.appendPage
  split
  · exact KeepsO.none
  · next h _ =>
    extract_lets +onlyGivenNames j die p opened
    have ho : KeepsOF z opened := by
      unfold opened
      split
      · exact ⟨fun q hq => by injection hq with hq; exact hq ▸ hs⟩
      · have ht := State.takePage_keeps (p := p) hs
        generalize s.takePage p = r at *
        obtain ⟨s1, l⟩ := r
        refine ⟨fun q hq => ?_⟩
        cases l with
        | none => cases hq
        | some loc =>
          injection hq with hq
          subst hq
          exact State.pageWrite_keeps (State.modPool_keeps ht)
    clear_value opened
    refine KeepsO.map fun q hq => ?_
    have h0 := ho.keeps q hq
    obtain ⟨t, e⟩ := q
    dsimp -zeta only
    extract_lets +onlyGivenNames t1 e1
    have h1 : Keeps z t1 := State.pageTokens_keeps h0
    clear_value t1 e1
    split
    · have h2 := State.summarise_keeps (p := p) (g := h.geom) (e := e1) h1
      generalize t1.summarise p h.geom e1 = r at *
      obtain ⟨t2, e2⟩ := r
      exact State.edit_keeps h2
    · exact State.edit_keeps h1

theorem State.kvAppend_keeps {z : State} {s : State} {hd : Nat} {n : Nat} (hs : Keeps z s) : KeepsO z (State.kvAppend s hd n) := by
  unfold State.kvAppend
  split
  · exact KeepsO.none
  · extract_lets +onlyGivenNames L ps keys r
    have hr : KeepsO z r := by
      refine KeepsO.foldl (fun o x h => ?_) (KeepsO.some hs)
      exact KeepsO.bind fun t ht => State.appendPage_keeps (h.keeps t ht)
    exact KeepsO.mapK hr fun t h => State.modHead_keeps h

theorem State.attachPos_keeps {z : State} {s : State} {hd : Nat} {i : Nat} {release : Bool} (hs : Keeps z s) : Keeps z (State.attachPos s hd i release) := by
  unfold State.attachPos
  with_reducible repeat' first
    | assumption
    | intro y
    | apply State.edit_keeps
    | apply State.modHead_keeps
    | apply KeepsR.next
    | apply Keeps.ite
    | apply Keeps.foldl
    | apply Keeps.foldlFst
    | exact KeepsO.none
    | apply KeepsO.some
    | dsimp only
    | fail_if_no_progress refine Keeps.lit ?_ rfl rfl rfl rfl rfl rfl rfl rfl rfl
    | refine Keeps.ofFst (Keeps.foldlFst ?_ ?_) (by assumption)
    | split

theorem State.beginFetch_keeps {z : State} {s : State} (hs : Keeps z s) : Keeps z (State.beginFetch s) := by
  unfold State.beginFetch
  with_reducible repeat' first
    | assumption
    | intro y
    | apply State.takePage_keeps
    | refine Keeps.ofFst (State.takePage_keeps ?_) (by assumption)
    | apply State.edit_keeps
    | apply KeepsR.next
    | apply Keeps.ite
    | apply Keeps.foldl
    | apply Keeps.foldlFst
    | exact KeepsO.none
    | apply KeepsO.some
    | dsimp only
    | fail_if_no_progress refine Keeps.lit ?_ rfl rfl rfl rfl rfl rfl rfl rfl rfl
    | refine Keeps.ofFst (Keeps.foldlFst ?_ ?_) (by assumption)
    | split

theorem State.plDestroy_keeps {z : State} {s : State} {i : Nat} (hs : Keeps z s) : Keeps z (State.plDestroy s i) := by
  unfold State.plDestroy
  with_reducible repeat' first
    | assumption
    | intro y
    | apply State.modRq_keeps
    | apply State.dropRoom_keeps
    | apply State.destroyHead_keeps
    | apply KeepsR.next
    | apply Keeps.ite
    | apply Keeps.foldl
    | apply Keeps.foldlFst
    | exact KeepsO.none
    | apply KeepsO.some
    | dsimp only
    | fail_if_no_progress refine Keeps.lit ?_ rfl rfl rfl rfl rfl rfl rfl rfl rfl
    | refine Keeps.ofFst (Keeps.foldlFst ?_ ?_) (by assumption)
    | split

theorem State.chargeHead_keeps {z : State} {s : State} {hd : Nat} (hs : Keeps z s) : Keeps z (State.chargeHead s hd) := by
  unfold State.chargeHead
  with_reducible repeat' first
    | assumption
    | intro y
    | apply State.takeSys_keeps
    | apply State.giveSys_keeps
    | apply State.setHead_keeps
    | apply KeepsR.next
    | apply Keeps.ite
    | apply Keeps.foldl
    | apply Keeps.foldlFst
    | exact KeepsO.none
    | apply KeepsO.some
    | dsimp only
    | fail_if_no_progress refine Keeps.lit ?_ rfl rfl rfl rfl rfl rfl rfl rfl rfl
    | refine Keeps.ofFst (Keeps.foldlFst ?_ ?_) (by assumption)
    | split

theorem State.offerOne_keeps {z : State} {s : State} {hd : Nat} (hs : Keeps z s) : KeepsO z (State.offerOne s hd) := by
  unfold State.offerOne
  with_reducible repeat' first
    | assumption
    | intro y
    | apply State.edit_keeps
    | apply State.dropPfx_keeps
    | apply State.raise_keeps
    | apply State.attachPos_keeps
    | apply State.modHead_keeps
    | apply State.count_keeps
    | apply KeepsR.next
    | apply Keeps.ite
    | apply Keeps.foldl
    | apply Keeps.foldlFst
    | exact KeepsO.none
    | apply KeepsO.some
    | dsimp only
    | fail_if_no_progress refine Keeps.lit ?_ rfl rfl rfl rfl rfl rfl rfl rfl rfl
    | refine Keeps.ofFst (Keeps.foldlFst ?_ ?_) (by assumption)
    | split

theorem State.offers_keeps {z : State} {s : State} {hd : Nat} {x2 : Nat} (hs : Keeps z s) : Keeps z (State.offers s hd x2) := by
  induction x2 generalizing s with
  | zero => exact hs
  | succ k ih =>
    unfold State.offers
    with_reducible repeat' first
      | assumption
      | intro y
      | apply ih
      | apply State.offerOne_keeps
      | refine KeepsO.keeps (State.offerOne_keeps ?_) _ (by assumption)
      | apply KeepsO.mapK
      | apply KeepsO.foldl
      | refine KeepsO.keeps (KeepsO.some ?_) _ (by assumption)
      | apply KeepsR.next
      | apply Keeps.ite
      | apply Keeps.foldl
      | apply Keeps.foldlFst
      | exact KeepsO.none
      | apply KeepsO.some
      | dsimp only
      | fail_if_no_progress refine Keeps.lit ?_ rfl rfl rfl rfl rfl rfl rfl rfl rfl
      | refine Keeps.ofFst (Keeps.foldlFst ?_ ?_) (by assumption)
      | split

theorem State.releaseFreed_keeps {z : State} {s : State} {hd : Nat} (hs : Keeps z s) : Keeps z (State.releaseFreed s hd) := by
  unfold State.releaseFreed
  with_reducible repeat' first
    | assumption
    | intro y
    | apply State.showKv_keeps
    | apply State.freeEnt_keeps
    | apply State.setHead_keeps
    | apply KeepsR.next
    | apply Keeps.ite
    | apply Keeps.foldl
    | apply Keeps.foldlFst
    | exact KeepsO.none
    | apply KeepsO.some
    | dsimp only
    | fail_if_no_progress refine Keeps.lit ?_ rfl rfl rfl rfl rfl rfl rfl rfl rfl
    | refine Keeps.ofFst (Keeps.foldlFst ?_ ?_) (by assumption)
    | split

theorem State.publish_keeps {z : State} {s : State} {hd : Nat} (hs : Keeps z s) : Keeps z (State.publish s hd) := by
  unfold State.publish
  with_reducible repeat' first
    | assumption
    | intro y
    | apply State.chargeHead_keeps
    | apply State.raise_keeps
    | apply State.offers_keeps
    | apply State.releaseFreed_keeps
    | apply State.count_keeps
    | apply State.setHead_keeps
    | apply KeepsR.next
    | apply Keeps.ite
    | apply Keeps.foldl
    | apply Keeps.foldlFst
    | exact KeepsO.none
    | apply KeepsO.some
    | dsimp only
    | fail_if_no_progress refine Keeps.lit ?_ rfl rfl rfl rfl rfl rfl rfl rfl rfl
    | refine Keeps.ofFst (Keeps.foldlFst ?_ ?_) (by assumption)
    | split

theorem State.cutPinned_keeps {z : State} {s : State} {p : Nat} {units : Nat} (hs : Keeps z s) : Keeps z (State.cutPinned s p units) := by
  unfold State.cutPinned
  with_reducible repeat' first
    | assumption
    | intro y
    | apply State.modPool_keeps
    | apply KeepsR.next
    | apply Keeps.ite
    | apply Keeps.foldl
    | apply Keeps.foldlFst
    | exact KeepsO.none
    | apply KeepsO.some
    | dsimp only
    | fail_if_no_progress refine Keeps.lit ?_ rfl rfl rfl rfl rfl rfl rfl rfl rfl
    | refine Keeps.ofFst (Keeps.foldlFst ?_ ?_) (by assumption)
    | split

theorem State.dropReader_keeps {z : State} {s : State} {hd : Nat} {slot : Nat} (hs : Keeps z s) : Keeps z (State.dropReader s hd slot) := by
  unfold State.dropReader
  with_reducible repeat' first
    | assumption
    | intro y
    | apply State.modHead_keeps

theorem State.fetchKept_keeps {z : State} {s : State} {m : Move} {h : Head} {r : CellarRec} {e : PEnt} (hs : Keeps z s) : Keeps z (State.fetchKept s m h r e) := by
  unfold State.fetchKept
  with_reducible repeat' first
    | assumption
    | intro y
    | apply State.showKv_keeps
    | apply State.beginFetch_keeps
    | apply State.edit_keeps
    | apply State.count_keeps
    | apply State.pageWrite_keeps

theorem State.fetchLost_keeps {z : State} {s : State} {m : Move} {h : Head} (hs : Keeps z s) : Keeps z (State.fetchLost s m h) := by
  unfold State.fetchLost
  with_reducible repeat' first
    | assumption
    | intro y
    | apply State.modRq_keeps
    | apply State.showKv_keeps
    | apply State.beginFetch_keeps
    | apply State.ctxStQ_keeps
    | apply KeepsR.next
    | apply Keeps.ite
    | apply Keeps.foldl
    | apply Keeps.foldlFst
    | exact KeepsO.none
    | apply KeepsO.some
    | dsimp only
    | fail_if_no_progress refine Keeps.lit ?_ rfl rfl rfl rfl rfl rfl rfl rfl rfl
    | refine Keeps.ofFst (Keeps.foldlFst ?_ ?_) (by assumption)
    | split

theorem State.moved_keeps {z : State} {s : State} {off : Nat} {n : Nat} (hs : Keeps z s) : Keeps z (State.moved s off n) := by
  unfold State.moved
  with_reducible repeat' first
    | assumption
    | intro y
    | apply State.count_keeps
    | apply KeepsR.next
    | apply Keeps.ite
    | apply Keeps.foldl
    | apply Keeps.foldlFst
    | exact KeepsO.none
    | apply KeepsO.some
    | dsimp only
    | fail_if_no_progress refine Keeps.lit ?_ rfl rfl rfl rfl rfl rfl rfl rfl rfl

theorem State.makeHead_keeps {z : State} {s : State} {c : Nat} {g : Geom} {log : List Nat} (hs : Keeps z s) : Keeps z (State.makeHead s c g log).1 := by
  unfold State.makeHead
  with_reducible repeat' first
    | assumption
    | intro y
    | apply State.cutPinned_keeps
    | apply State.showKv_keeps
    | apply State.fresh_keeps
    | refine Keeps.ofFst (State.fresh_keeps ?_) (by assumption)
    | apply State.chargeHead_keeps
    | apply KeepsR.next
    | apply Keeps.ite
    | apply Keeps.foldl
    | apply Keeps.foldlFst
    | exact KeepsO.none
    | apply KeepsO.some
    | dsimp only
    | fail_if_no_progress refine Keeps.lit ?_ rfl rfl rfl rfl rfl rfl rfl rfl rfl

theorem State.nextSpill_keeps {z : State} {s : State} {p : Nat} (hs : Keeps z s) : Keeps z (State.nextSpill s p) := by
  unfold State.nextSpill
  with_reducible repeat' first
    | assumption
    | intro y
    | apply State.showKv_keeps
    | apply State.modPool_keeps
    | apply KeepsR.next
    | apply Keeps.ite
    | apply Keeps.foldl
    | apply Keeps.foldlFst
    | exact KeepsO.none
    | apply KeepsO.some
    | dsimp only
    | fail_if_no_progress refine Keeps.lit ?_ rfl rfl rfl rfl rfl rfl rfl rfl rfl
    | refine Keeps.ofFst (Keeps.foldlFst ?_ ?_) (by assumption)
    | split

theorem State.recordRead_keeps {z : State} {s : State} {die : Nat} {n : Nat} {ok : Bool} (hs : Keeps z s) : Keeps z (State.recordRead s die n ok) := by
  unfold State.recordRead
  with_reducible repeat' first
    | assumption
    | intro y
    | apply State.moved_keeps
    | apply State.count_keeps

theorem State.seeModel_keeps {z : State} {s : State} {m : Nat} (hs : Keeps z s) : Keeps z (State.seeModel s m) := by
  unfold State.seeModel
  with_reducible repeat' first
    | assumption
    | intro y
    | apply KeepsR.next
    | apply Keeps.ite
    | apply Keeps.foldl
    | apply Keeps.foldlFst
    | exact KeepsO.none
    | apply KeepsO.some
    | dsimp only
    | fail_if_no_progress refine Keeps.lit ?_ rfl rfl rfl rfl rfl rfl rfl rfl rfl

theorem State.setRq_keeps {z : State} {s : State} {i : Nat} {x : Rq} (hs : Keeps z s) : Keeps z (State.setRq s i x) := by
  unfold State.setRq
  with_reducible repeat' first
    | assumption
    | intro y
    | apply KeepsR.next
    | apply Keeps.ite
    | apply Keeps.foldl
    | apply Keeps.foldlFst
    | exact KeepsO.none
    | apply KeepsO.some
    | dsimp only
    | fail_if_no_progress refine Keeps.lit ?_ rfl rfl rfl rfl rfl rfl rfl rfl rfl

theorem State.unshare_keeps {z : State} {s : State} {hd : Nat} {k : Nat} {n : Nat} (hs : Keeps z s) : Keeps z (State.unshare s hd k n) := by
  unfold State.unshare
  with_reducible repeat' first
    | assumption
    | intro y
    | apply State.takePage_keeps
    | refine Keeps.ofFst (State.takePage_keeps ?_) (by assumption)
    | apply State.edit_keeps
    | apply State.ctxStQ_keeps
    | apply State.pageWrite_keeps
    | apply KeepsR.next
    | apply Keeps.ite
    | apply Keeps.foldl
    | apply Keeps.foldlFst
    | exact KeepsO.none
    | apply KeepsO.some
    | dsimp only
    | fail_if_no_progress refine Keeps.lit ?_ rfl rfl rfl rfl rfl rfl rfl rfl rfl
    | refine Keeps.ofFst (Keeps.foldlFst ?_ ?_) (by assumption)
    | split

theorem State.truncateTo_keeps {z : State} {s : State} {hd : Nat} {L : Nat} (hs : Keeps z s) : Keeps z (State.truncateTo s hd L) := by
  unfold State.truncateTo
  with_reducible repeat' first
    | assumption
    | intro y
    | apply State.unshare_keeps
    | apply State.edit_keeps
    | apply State.modHead_keeps
    | apply KeepsR.next
    | apply Keeps.ite
    | apply Keeps.foldl
    | apply Keeps.foldlFst
    | exact KeepsO.none
    | apply KeepsO.some
    | dsimp only
    | fail_if_no_progress refine Keeps.lit ?_ rfl rfl rfl rfl rfl rfl rfl rfl rfl
    | refine Keeps.ofFst (Keeps.foldlFst ?_ ?_) (by assumption)
    | split

theorem execCellarAdd_keeps {z : State} {fn : Fin 32} {tag : Nat} {addr : Nat} {len : Nat} {s : State} (hs : Keeps z s) : KeepsR z (execCellarAdd fn tag addr len s) := by
  unfold execCellarAdd
  with_reducible repeat' first
    | assumption
    | intro y
    | apply State.showKv_keeps
    | apply State.command_keeps
    | apply State.respond_keeps
    | apply KeepsR.next
    | apply Keeps.ite
    | apply Keeps.foldl
    | apply Keeps.foldlFst
    | exact KeepsO.none
    | apply KeepsO.some
    | dsimp only
    | fail_if_no_progress refine Keeps.lit ?_ rfl rfl rfl rfl rfl rfl rfl rfl rfl

theorem execCellarRemove_keeps {z : State} {fn : Fin 32} {tag : Nat} {addr : Nat} {len : Nat} {s : State} (hs : Keeps z s) : KeepsR z (execCellarRemove fn tag addr len s) := by
  unfold execCellarRemove
  with_reducible repeat' first
    | assumption
    | intro y
    | apply State.showKv_keeps
    | apply State.command_keeps
    | apply State.respond_keeps
    | apply KeepsR.next
    | apply Keeps.ite
    | apply Keeps.foldl
    | apply Keeps.foldlFst
    | exact KeepsO.none
    | apply KeepsO.some
    | dsimp only
    | fail_if_no_progress refine Keeps.lit ?_ rfl rfl rfl rfl rfl rfl rfl rfl rfl

theorem execDomainCreate_keeps {z : State} {fn : Fin 32} {tag : Nat} {size : Nat} {s : State} (hs : Keeps z s) : KeepsR z (execDomainCreate fn tag size s) := by
  unfold execDomainCreate
  with_reducible repeat' first
    | assumption
    | intro y
    | apply State.commandUnless_keeps
    | apply State.respond_keeps
    | apply State.installKey_keeps
    | apply KeepsO.mapK
    | apply KeepsO.foldl
    | refine KeepsO.keeps (KeepsO.some ?_) _ (by assumption)
    | apply KeepsR.next
    | apply Keeps.ite
    | apply Keeps.foldl
    | apply Keeps.foldlFst
    | exact KeepsO.none
    | apply KeepsO.some
    | dsimp only
    | fail_if_no_progress refine Keeps.lit ?_ rfl rfl rfl rfl rfl rfl rfl rfl rfl
    | refine Keeps.ofFst (Keeps.foldlFst ?_ ?_) (by assumption)
    | split

theorem execDomainEnd_keeps {z : State} {fn : Fin 32} {tag : Nat} {dom : Nat} {s : State} (hs : Keeps z s) : KeepsR z (execDomainEnd fn tag dom s) := by
  unfold execDomainEnd
  with_reducible repeat' first
    | assumption
    | intro y
    | apply State.showKv_keeps
    | apply State.destroyKey_keeps
    | apply State.setCtxField_keeps
    | apply State.commandUnless_keeps
    | apply State.dropPfx_keeps
    | apply State.respond_keeps
    | apply KeepsR.next
    | apply Keeps.ite
    | apply Keeps.foldl
    | apply Keeps.foldlFst
    | exact KeepsO.none
    | apply KeepsO.some
    | dsimp only
    | fail_if_no_progress refine Keeps.lit ?_ rfl rfl rfl rfl rfl rfl rfl rfl rfl
    | refine Keeps.ofFst (Keeps.foldlFst ?_ ?_) (by assumption)
    | split

theorem execFetchPageDone_keeps {z : State} {ok1 : Bool} {ok2 : Bool} {s : State} (hs : Keeps z s) : KeepsR z (execFetchPageDone ok1 ok2 s) := by
  unfold execFetchPageDone
  with_reducible repeat' first
    | assumption
    | intro y
    | apply State.beginFetch_keeps
    | apply State.recordRead_keeps
    | apply State.modHead_keeps
    | apply State.fetchKept_keeps
    | apply State.fetchLost_keeps
    | apply KeepsR.next
    | apply Keeps.ite
    | apply Keeps.foldl
    | apply Keeps.foldlFst
    | exact KeepsO.none
    | apply KeepsO.some
    | dsimp only
    | fail_if_no_progress refine Keeps.lit ?_ rfl rfl rfl rfl rfl rfl rfl rfl rfl
    | refine Keeps.ofFst (Keeps.foldlFst ?_ ?_) (by assumption)
    | split

theorem execFetchStart_keeps {z : State} {rq : Fin 8192} {s : State} (hs : Keeps z s) : KeepsR z (execFetchStart rq s) := by
  unfold execFetchStart
  with_reducible repeat' first
    | assumption
    | intro y
    | apply State.beginFetch_keeps
    | apply KeepsR.next
    | apply Keeps.ite
    | apply Keeps.foldl
    | apply Keeps.foldlFst
    | exact KeepsO.none
    | apply KeepsO.some
    | dsimp only
    | fail_if_no_progress refine Keeps.lit ?_ rfl rfl rfl rfl rfl rfl rfl rfl rfl
    | refine Keeps.ofFst (Keeps.foldlFst ?_ ?_) (by assumption)
    | split

theorem execFreeQueueRelease_keeps {z : State} {head : Nat} {s : State} (hs : Keeps z s) : KeepsR z (execFreeQueueRelease head s) := by
  unfold execFreeQueueRelease
  with_reducible repeat' first
    | assumption
    | intro y
    | apply State.releaseFreed_keeps
    | apply KeepsR.next

theorem execKvWindowAccess_keeps {z : State} {die : Fin 4} {ctx : Fin 1024} {va : Nat} {data : Option (List Byte)} {host : Bool} {step : Option Nat} {o : LineOut} {s : State} (hs : Keeps z s) : KeepsR z (execKvWindowAccess die ctx va data host step o s) := by
  unfold execKvWindowAccess
  with_reducible repeat' first
    | assumption
    | intro y
    | apply State.ctxRead_keeps
    | refine Keeps.ofFst (State.ctxRead_keeps ?_) (by assumption)
    | apply State.ctxWrite_keeps
    | refine Keeps.ofFst (State.ctxWrite_keeps ?_) (by assumption)
    | apply KeepsR.next
    | apply Keeps.ite
    | apply Keeps.foldl
    | apply Keeps.foldlFst
    | exact KeepsO.none
    | apply KeepsO.some
    | dsimp only
    | fail_if_no_progress refine Keeps.lit ?_ rfl rfl rfl rfl rfl rfl rfl rfl rfl
    | refine Keeps.ofFst (Keeps.foldlFst ?_ ?_) (by assumption)
    | split

theorem execKvpoolAdd_keeps {z : State} {fn : Fin 32} {tag : Nat} {pool : Nat} {sums : Bool} {r : FrameRun} {s : State} (hs : Keeps z s) : KeepsR z (execKvpoolAdd fn tag pool sums r s) := by
  unfold execKvpoolAdd
  with_reducible repeat' first
    | assumption
    | intro y
    | apply State.showKv_keeps
    | apply State.command_keeps
    | apply State.modPool_keeps
    | apply State.respond_keeps
    | apply KeepsR.next
    | apply Keeps.ite
    | apply Keeps.foldl
    | apply Keeps.foldlFst
    | exact KeepsO.none
    | apply KeepsO.some
    | dsimp only
    | fail_if_no_progress refine Keeps.lit ?_ rfl rfl rfl rfl rfl rfl rfl rfl rfl
    | refine Keeps.ofFst (Keeps.foldlFst ?_ ?_) (by assumption)
    | split

theorem execKvpoolCreate_keeps {z : State} {fn : Fin 32} {tag : Nat} {pool : Nat} {die : Nat} {isDomain : Bool} {owner : Nat} {bytes : Nat} {low : Nat} {high : Nat} {s : State} (hs : Keeps z s) : KeepsR z (execKvpoolCreate fn tag pool die isDomain owner bytes low high s) := by
  unfold execKvpoolCreate
  with_reducible repeat' first
    | assumption
    | intro y
    | apply State.showKv_keeps
    | apply State.command_keeps
    | apply State.respond_keeps
    | apply KeepsR.next
    | apply Keeps.ite
    | apply Keeps.foldl
    | apply Keeps.foldlFst
    | exact KeepsO.none
    | apply KeepsO.some
    | dsimp only
    | fail_if_no_progress refine Keeps.lit ?_ rfl rfl rfl rfl rfl rfl rfl rfl rfl

theorem execKvpoolRemove_keeps {z : State} {fn : Fin 32} {tag : Nat} {pool : Nat} {r : FrameRun} {s : State} (hs : Keeps z s) : KeepsR z (execKvpoolRemove fn tag pool r s) := by
  unfold execKvpoolRemove
  with_reducible repeat' first
    | assumption
    | intro y
    | apply State.showKv_keeps
    | apply State.command_keeps
    | apply State.modPool_keeps
    | apply State.raise_keeps
    | apply State.respond_keeps
    | apply KeepsR.next
    | apply Keeps.ite
    | apply Keeps.foldl
    | apply Keeps.foldlFst
    | exact KeepsO.none
    | apply KeepsO.some
    | dsimp only
    | fail_if_no_progress refine Keeps.lit ?_ rfl rfl rfl rfl rfl rfl rfl rfl rfl
    | refine Keeps.ofFst (Keeps.foldlFst ?_ ?_) (by assumption)
    | split

theorem execPlCreate_keeps {z : State} {fn : Fin 32} {tag : Nat} {rq : Fin 8192} {headVa : Nat} {s : State} (hs : Keeps z s) : KeepsR z (execPlCreate fn tag rq headVa s) := by
  unfold execPlCreate
  with_reducible repeat' first
    | assumption
    | intro y
    | apply State.modRq_keeps
    | apply State.makeHead_keeps
    | refine Keeps.ofFst (State.makeHead_keeps ?_) (by assumption)
    | apply State.command_keeps
    | apply State.hubRead_keeps
    | refine Keeps.ofFst (State.hubRead_keeps ?_) (by assumption)
    | apply State.seeModel_keeps
    | apply State.respond_keeps
    | apply KeepsR.next
    | apply Keeps.ite
    | apply Keeps.foldl
    | apply Keeps.foldlFst
    | exact KeepsO.none
    | apply KeepsO.some
    | dsimp only
    | fail_if_no_progress refine Keeps.lit ?_ rfl rfl rfl rfl rfl rfl rfl rfl rfl
    | refine Keeps.ofFst (Keeps.foldlFst ?_ ?_) (by assumption)
    | split

theorem execPlDestroy_keeps {z : State} {fn : Fin 32} {tag : Nat} {rq : Fin 8192} {s : State} (hs : Keeps z s) : KeepsR z (execPlDestroy fn tag rq s) := by
  unfold execPlDestroy
  with_reducible repeat' first
    | assumption
    | intro y
    | apply State.command_keeps
    | apply State.plDestroy_keeps
    | apply State.respond_keeps
    | apply KeepsR.next
    | apply Keeps.ite

theorem execPlPublish_keeps {z : State} {head : Nat} {s : State} (hs : Keeps z s) : KeepsR z (execPlPublish head s) := by
  unfold execPlPublish
  with_reducible repeat' first
    | assumption
    | intro y
    | apply State.publish_keeps
    | apply KeepsR.next
    | apply Keeps.ite

theorem execPlTruncate_keeps {z : State} {fn : Fin 32} {tag : Nat} {rq : Fin 8192} {len : Nat} {s : State} (hs : Keeps z s) : KeepsR z (execPlTruncate fn tag rq len s) := by
  unfold execPlTruncate
  with_reducible repeat' first
    | assumption
    | intro y
    | apply State.modRq_keeps
    | apply State.command_keeps
    | apply State.respond_keeps
    | apply State.hold_keeps
    | apply KeepsR.next
    | apply Keeps.ite
    | apply Keeps.foldl
    | apply Keeps.foldlFst
    | exact KeepsO.none
    | apply KeepsO.some
    | dsimp only
    | fail_if_no_progress refine Keeps.lit ?_ rfl rfl rfl rfl rfl rfl rfl rfl rfl
    | refine Keeps.ofFst (Keeps.foldlFst ?_ ?_) (by assumption)
    | split

theorem execRebuildChunk_keeps {z : State} {rq : Fin 8192} {o : LineOut} {s : State} (hs : Keeps z s) : KeepsR z (execRebuildChunk rq o s) := by
  unfold execRebuildChunk
  with_reducible repeat' first
    | assumption
    | intro y
    | apply State.modRq_keeps
    | apply State.takePage_keeps
    | refine Keeps.ofFst (State.takePage_keeps ?_) (by assumption)
    | apply State.hubRead_keeps
    | refine Keeps.ofFst (State.hubRead_keeps ?_) (by assumption)
    | apply State.failStep_keeps
    | apply State.edit_keeps
    | apply State.ctxStQ_keeps
    | apply State.publish_keeps
    | apply State.raise_keeps
    | apply State.pageTokens_keeps
    | apply State.putPage_keeps
    | apply State.summarise_keeps
    | refine Keeps.ofFst (State.summarise_keeps ?_) (by assumption)
    | apply State.modHead_keeps
    | apply State.count_keeps
    | apply KeepsR.next
    | apply Keeps.ite
    | apply Keeps.foldl
    | apply Keeps.foldlFst
    | exact KeepsO.none
    | apply KeepsO.some
    | dsimp only
    | fail_if_no_progress refine Keeps.lit ?_ rfl rfl rfl rfl rfl rfl rfl rfl rfl
    | refine Keeps.ofFst (Keeps.foldlFst ?_ ?_) (by assumption)
    | split

theorem execSpillPageDone_keeps {z : State} {s : State} (hs : Keeps z s) : KeepsR z (execSpillPageDone s) := by
  unfold execSpillPageDone
  apply KeepsR.next
  split
  · exact hs
  · next m rest _ =>
    extract_lets +onlyGivenNames src s0
    have h0 : Keeps z s0 := Keeps.lit hs rfl rfl rfl rfl rfl (by first | exact lpMem_mk .. | rfl) (by first | exact hostMem_mk .. | rfl) rfl rfl
    clear_value s0
    split
    · next h r _ _ =>
      split
      · exact State.nextSpill_keeps (Keeps.lit h0 rfl rfl rfl rfl rfl (by first | exact lpMem_mk .. | rfl) (by first | exact hostMem_mk .. | rfl) rfl rfl)
      · next e _ =>
        have hb := State.freeBytes_keeps (n := r.bytes) h0
        generalize s0.freeBytes r.bytes = p at *
        obtain ⟨s1, cipher⟩ := p
        dsimp -zeta only
        extract_lets +onlyGivenNames src2 s2 s3 keep s4 n
        have h2 : Keeps z s2 := Keeps.of hb rfl rfl rfl fun c => ⟨c.vstore, c.fstore, c.mem, wf_bputList c.host _ _, c.regs, c.ctrs⟩
        have h4 : Keeps z s4 := State.modHead_keeps (State.edit_keeps h2)
        clear_value s4
        exact State.showKv_keeps (State.nextSpill_keeps (State.moved_keeps (State.moved_keeps (State.count_keeps (State.count_keeps h4)))))
    · exact h0

theorem execSpillStart_keeps {z : State} {pool : Nat} {s : State} (hs : Keeps z s) : KeepsR z (execSpillStart pool s) := by
  unfold execSpillStart
  with_reducible repeat' first
    | assumption
    | intro y
    | apply State.nextSpill_keeps
    | apply KeepsR.next
    | apply Keeps.ite
    | apply Keeps.foldl
    | apply Keeps.foldlFst
    | exact KeepsO.none
    | apply KeepsO.some
    | dsimp only
    | fail_if_no_progress refine Keeps.lit ?_ rfl rfl rfl rfl rfl rfl rfl rfl rfl
    | refine Keeps.ofFst (Keeps.foldlFst ?_ ?_) (by assumption)
    | split

theorem execTruncateApply_keeps {z : State} {rq : Fin 8192} {s : State} (hs : Keeps z s) : KeepsR z (execTruncateApply rq s) := by
  unfold execTruncateApply
  with_reducible repeat' first
    | assumption
    | intro y
    | apply State.modRq_keeps
    | apply State.wake_keeps
    | apply State.publish_keeps
    | apply State.truncateTo_keeps
    | apply KeepsR.next
    | apply Keeps.ite
    | apply Keeps.foldl
    | apply Keeps.foldlFst
    | exact KeepsO.none
    | apply KeepsO.some
    | dsimp only
    | fail_if_no_progress refine Keeps.lit ?_ rfl rfl rfl rfl rfl rfl rfl rfl rfl
    | refine Keeps.ofFst (Keeps.foldlFst ?_ ?_) (by assumption)
    | split

end Sys2Proof.Machine
end

