-- ==== Sys2Proof/Laws/KeepsRequest.lean ====
section
/-! SUPPORT. Every operation of `Machine/Request.lean` keeps the queue, the variant, the clock and the canonical stores. -/

namespace Sys2Proof.Machine

theorem State.complete_keeps {z : State} {s : State} {i : Nat} {status : Nat} {hint : Nat} {tokens : List Nat} (hs : Keeps z s) : Keeps z (State.complete s i status hint tokens) := by
  unfold State.complete
  with_reducible repeat' first
    | assumption
    | intro y
    | apply State.modRq_keeps
    | apply KeepsR.next
    | apply Keeps.ite
    | apply Keeps.foldl
    | apply Keeps.foldlFst
    | exact KeepsO.none
    | apply KeepsO.some
    | dsimp only
    | fail_if_no_progress refine Keeps.lit ?_ rfl rfl rfl rfl rfl rfl rfl rfl rfl

theorem State.refuseRq_keeps {z : State} {s : State} {i : Nat} {status : Nat} {hint : Nat} (hs : Keeps z s) : Keeps z (State.refuseRq s i status hint) := by
  unfold State.refuseRq
  with_reducible repeat' first
    | assumption
    | intro y
    | apply State.modRq_keeps
    | apply State.complete_keeps
    | apply State.count_keeps
    | apply KeepsR.next
    | apply Keeps.ite

theorem State.reserve_keeps {z : State} {s : State} {i : Nat} {n : Nat} (hs : Keeps z s) : KeepsO z (State.reserve s i n) := by
  unfold State.reserve
  with_reducible repeat' first
    | assumption
    | intro y
    | apply State.modRq_keeps
    | apply State.modPool_keeps
    | apply KeepsR.next
    | apply Keeps.ite
    | apply Keeps.foldl
    | apply Keeps.foldlFst
    | exact KeepsO.none
    | apply KeepsO.some
    | dsimp only
    | fail_if_no_progress refine Keeps.lit ?_ rfl rfl rfl rfl rfl rfl rfl rfl rfl
    | refine Keeps.ofFst (Keeps.foldlFst ?_ ?_) (by assumption)
    | split

theorem State.showRoom_keeps {z : State} {s : State} {i : Nat} (hs : Keeps z s) : Keeps z (State.showRoom s i) := by
  unfold State.showRoom
  with_reducible repeat' first
    | assumption
    | intro y
    | apply State.modRq_keeps
    | apply KeepsR.next
    | apply Keeps.ite
    | apply Keeps.foldl
    | apply Keeps.foldlFst
    | exact KeepsO.none
    | apply KeepsO.some
    | dsimp only
    | fail_if_no_progress refine Keeps.lit ?_ rfl rfl rfl rfl rfl rfl rfl rfl rfl
    | refine Keeps.ofFst (Keeps.foldlFst ?_ ?_) (by assumption)
    | split

theorem State.refuseFree_keeps {z : State} {s : State} {i : Nat} {status : Nat} (hs : Keeps z s) : Keeps z (State.refuseFree s i status) := by
  unfold State.refuseFree
  with_reducible repeat' first
    | assumption
    | intro y
    | apply State.refuseRq_keeps
    | apply State.fresh_keeps

theorem State.showRqt_keeps {z : State} {s : State} (hs : Keeps z s) : Keeps z (State.showRqt s) := by
  unfold State.showRqt
  with_reducible repeat' first
    | assumption
    | intro y
    | apply State.wri_keeps
    | apply State.wr_keeps
    | apply KeepsR.next
    | apply Keeps.ite
    | apply Keeps.foldl

theorem State.admitRoom_keeps {z : State} {s : State} {i : Nat} {hd : Nat} (hs : Keeps z s) : Keeps z (State.admitRoom s i hd) := by
  unfold State.admitRoom
  with_reducible repeat' first
    | assumption
    | intro y
    | apply State.modRq_keeps
    | apply State.refuseRq_keeps
    | apply State.reserve_keeps
    | refine KeepsO.keeps (State.reserve_keeps ?_) _ (by assumption)
    | apply State.showRoom_keeps
    | apply State.dropRoom_keeps
    | apply State.destroyHead_keeps
    | apply State.refuseFree_keeps
    | apply State.modHead_keeps
    | apply State.count_keeps
    | apply State.showRqt_keeps
    | apply KeepsR.next
    | apply Keeps.ite
    | apply Keeps.foldl
    | apply Keeps.foldlFst
    | exact KeepsO.none
    | apply KeepsO.some
    | dsimp only
    | fail_if_no_progress refine Keeps.lit ?_ rfl rfl rfl rfl rfl rfl rfl rfl rfl
    | refine Keeps.ofFst (Keeps.foldlFst ?_ ?_) (by assumption)
    | split

theorem State.attach_keeps {z : State} {s : State} {hd : Nat} {x2 : Nat} (hs : Keeps z s) : Keeps z (State.attach s hd x2) := by
  induction x2 generalizing s with
  | zero => exact hs
  | succ k ih =>
    unfold State.attach
    with_reducible repeat' first
      | assumption
      | intro y
      | apply ih
      | apply State.attachPos_keeps
      | apply State.count_keeps
      | apply KeepsO.mapK
      | apply KeepsO.foldl
      | refine KeepsO.keeps (KeepsO.some ?_) _ (by assumption)
      | apply KeepsR.next
      | apply Keeps.ite
      | apply Keeps.foldl
      | apply Keeps.foldlFst
      | exact KeepsO.none
      | apply KeepsO.some
      | dsimp only
      | fail_if_no_progress refine Keeps.lit ?_ rfl rfl rfl rfl rfl rfl rfl rfl rfl
      | refine Keeps.ofFst (Keeps.foldlFst ?_ ?_) (by assumption)
      | split

theorem State.showResv_keeps {z : State} {s : State} (hs : Keeps z s) : Keeps z (State.showResv s) := by
  unfold State.showResv
  with_reducible repeat' first
    | assumption
    | intro y
    | apply State.wri_keeps
    | apply KeepsR.next
    | apply Keeps.ite
    | apply Keeps.foldl
    | apply Keeps.foldlFst
    | exact KeepsO.none
    | apply KeepsO.some
    | dsimp only
    | fail_if_no_progress refine Keeps.lit ?_ rfl rfl rfl rfl rfl rfl rfl rfl rfl
    | refine Keeps.ofFst (Keeps.foldlFst ?_ ?_) (by assumption)
    | split

theorem State.settleResv_keeps {z : State} {s : State} (hs : Keeps z s) : Keeps z (State.settleResv s) := by
  unfold State.settleResv
  with_reducible repeat' first
    | assumption
    | intro y
    | apply State.showKv_keeps
    | apply State.wri_keeps
    | apply State.showResv_keeps
    | apply State.wr_keeps
    | apply State.setCtxField_keeps
    | apply State.showRqt_keeps
    | apply KeepsR.next
    | apply Keeps.ite
    | apply Keeps.foldl
    | apply Keeps.foldlFst
    | exact KeepsO.none
    | apply KeepsO.some
    | dsimp only
    | fail_if_no_progress refine Keeps.lit ?_ rfl rfl rfl rfl rfl rfl rfl rfl rfl
    | refine Keeps.ofFst (Keeps.foldlFst ?_ ?_) (by assumption)
    | split

theorem State.endRq_keeps {z : State} {s : State} {i : Nat} {st : Nat} {ending : Nat} {status : Nat} {tokens : List Nat} (hs : Keeps z s) : Keeps z (State.endRq s i st ending status tokens) := by
  unfold State.endRq
  with_reducible repeat' first
    | assumption
    | intro y
    | apply State.modRq_keeps
    | apply State.complete_keeps
    | apply State.edit_keeps
    | apply State.plDestroy_keeps
    | apply State.settleResv_keeps
    | apply State.showRqt_keeps
    | apply KeepsR.next
    | apply Keeps.ite
    | apply Keeps.foldl
    | apply Keeps.foldlFst
    | exact KeepsO.none
    | apply KeepsO.some
    | dsimp only
    | fail_if_no_progress refine Keeps.lit ?_ rfl rfl rfl rfl rfl rfl rfl rfl rfl
    | refine Keeps.ofFst (Keeps.foldlFst ?_ ?_) (by assumption)
    | split

theorem State.noChange_keeps {z : State} {s : State} (hs : Keeps z s) : Keeps z (State.noChange s) := by
  unfold State.noChange
  with_reducible repeat' first
    | assumption
    | intro y
    | apply State.count_keeps

theorem State.cancelRq_keeps {z : State} {s : State} {i : Nat} (hs : Keeps z s) : Keeps z (State.cancelRq s i) := by
  unfold State.cancelRq
  with_reducible repeat' first
    | assumption
    | intro y
    | apply State.modRq_keeps
    | apply State.endRq_keeps
    | apply State.noChange_keeps
    | apply State.showRqt_keeps
    | apply KeepsR.next
    | apply Keeps.ite

theorem State.checkResv_keeps {z : State} {s : State} (hs : Keeps z s) : Keeps z (State.checkResv s) := by
  unfold State.checkResv
  with_reducible repeat' first
    | assumption
    | intro y
    | apply State.showResv_keeps
    | apply State.raise_keeps
    | apply KeepsR.next
    | apply Keeps.ite
    | apply Keeps.foldl
    | apply Keeps.foldlFst
    | exact KeepsO.none
    | apply KeepsO.some
    | dsimp only
    | fail_if_no_progress refine Keeps.lit ?_ rfl rfl rfl rfl rfl rfl rfl rfl rfl

theorem State.extendRoom_keeps {z : State} {s : State} {i : Nat} (hs : Keeps z s) : KeepsO z (State.extendRoom s i) := by
  unfold State.extendRoom
  split
  · exact KeepsO.some hs
  · extract_lets +onlyGivenNames need
    refine KeepsO.mapK ?_ fun t h => State.showRoom_keeps h
    split
    · exact KeepsO.some hs
    · exact State.reserve_keeps hs

theorem State.holdRq_keeps {z : State} {s : State} {i : Nat} (hs : Keeps z s) : Keeps z (State.holdRq s i) := by
  unfold State.holdRq
  with_reducible repeat' first
    | assumption
    | intro y
    | apply State.modRq_keeps
    | apply State.fresh_keeps
    | refine Keeps.ofFst (State.fresh_keeps ?_) (by assumption)
    | apply State.complete_keeps
    | apply State.count_keeps
    | apply State.showRqt_keeps

theorem State.faultRq_keeps {z : State} {s : State} {i : Nat} {status : Nat} (hs : Keeps z s) : Keeps z (State.faultRq s i status) := by
  unfold State.faultRq
  with_reducible repeat' first
    | assumption
    | intro y
    | apply State.modRq_keeps
    | apply State.endRq_keeps
    | apply State.noChange_keeps
    | apply State.showRqt_keeps
    | apply KeepsR.next
    | apply Keeps.ite

theorem State.proceedReleases_keeps {z : State} {s : State} (hs : Keeps z s) : Keeps z (State.proceedReleases s) := by
  unfold State.proceedReleases
  with_reducible repeat' first
    | assumption
    | intro y
    | apply KeepsR.next
    | apply Keeps.ite
    | apply Keeps.foldl
    | apply Keeps.foldlFst
    | exact KeepsO.none
    | apply KeepsO.some
    | dsimp only
    | fail_if_no_progress refine Keeps.lit ?_ rfl rfl rfl rfl rfl rfl rfl rfl rfl

theorem execAdmission_keeps {z : State} {rq : Fin 8192} {s : State} (hs : Keeps z s) : KeepsR z (execAdmission rq s) := by
  unfold execAdmission
  apply KeepsR.next
  extract_lets +onlyGivenNames i x
  split
  · exact hs
  · have hb := State.hubRead_keeps (c := x.ctx) (va := s.fieldVa x.headVa 12) (n := 4) (o := {}) (step := none) hs
    generalize s.hubRead x.ctx (s.fieldVa x.headVa 12) 4 = p at *
    obtain ⟨s0, b⟩ := p
    dsimp -zeta only
    extract_lets +onlyGivenNames g s1
    have h1 : Keeps z s1 := by
      unfold s1
      split
      · exact State.seeModel_keeps hb
      · exact hb
    clear_value s1
    split
    · exact State.refuseRq_keeps h1
    · split
      · exact State.refuseRq_keeps h1
      · split
        · exact State.refuseFree_keeps h1
        · extract_lets +onlyGivenNames made
          have hm : KeepsOF z made := by
            unfold made
            refine ⟨fun q hq => ?_⟩
            split at hq
            · injection hq with hq; exact hq ▸ h1
            · split at hq
              · cases hq
              · injection hq with hq; exact hq ▸ State.makeHead_keeps h1
          clear_value made
          split
          · exact State.refuseFree_keeps h1
          · extract_lets +onlyGivenNames s3
            have h3 : Keeps z s3 := State.modRq_keeps (hm.keeps _ rfl)
            exact State.admitRoom_keeps (State.attach_keeps h3)

theorem execHeldResume_keeps {z : State} {rq : Fin 8192} {s : State} (hs : Keeps z s) : KeepsR z (execHeldResume rq s) := by
  unfold execHeldResume
  with_reducible repeat' first
    | assumption
    | intro y
    | apply State.modRq_keeps
    | apply State.extendRoom_keeps
    | refine KeepsO.keeps (State.extendRoom_keeps ?_) _ (by assumption)
    | apply State.showRqt_keeps
    | apply KeepsR.next
    | apply Keeps.ite
    | apply Keeps.foldl
    | apply Keeps.foldlFst
    | exact KeepsO.none
    | apply KeepsO.some
    | dsimp only
    | fail_if_no_progress refine Keeps.lit ?_ rfl rfl rfl rfl rfl rfl rfl rfl rfl
    | refine Keeps.ofFst (Keeps.foldlFst ?_ ?_) (by assumption)
    | split

theorem execModelCost_keeps {z : State} {fn : Fin 32} {tag : Nat} {model : Nat} {cls : Fin 4} {fix : Word} {tok : Word} {key : Word} {s : State} (hs : Keeps z s) : KeepsR z (execModelCost fn tag model cls fix tok key s) := by
  unfold execModelCost
  with_reducible repeat' first
    | assumption
    | intro y
    | apply State.command_keeps
    | apply State.respond_keeps
    | apply KeepsR.next
    | apply Keeps.ite
    | apply Keeps.foldl
    | apply Keeps.foldlFst
    | exact KeepsO.none
    | apply KeepsO.some
    | dsimp only
    | fail_if_no_progress refine Keeps.lit ?_ rfl rfl rfl rfl rfl rfl rfl rfl rfl

theorem execResCreate_keeps {z : State} {fn : Fin 32} {tag : Nat} {ctx : Fin 1024} {start : Nat} {g : Nat} {vats : List (Nat × Nat × Nat)} {banks : List (Nat × Nat × Nat × Nat)} {segs : List (Nat × Nat × Nat)} {entries : Nat} {positions : Nat} {chunk : Nat} {model : Nat} {s : State} (hs : Keeps z s) : KeepsR z (execResCreate fn tag ctx start g vats banks segs entries positions chunk model s) := by
  unfold execResCreate
  with_reducible repeat' first
    | assumption
    | intro y
    | apply State.showKv_keeps
    | apply State.command_keeps
    | apply State.showResv_keeps
    | apply State.wr_keeps
    | apply State.setCtxField_keeps
    | apply State.respond_keeps
    | apply State.showRqt_keeps
    | apply KeepsR.next
    | apply Keeps.ite
    | apply Keeps.foldl
    | apply Keeps.foldlFst
    | exact KeepsO.none
    | apply KeepsO.some
    | dsimp only
    | fail_if_no_progress refine Keeps.lit ?_ rfl rfl rfl rfl rfl rfl rfl rfl rfl
    | refine Keeps.ofFst (Keeps.foldlFst ?_ ?_) (by assumption)
    | split

theorem execResEnd_keeps {z : State} {fn : Fin 32} {tag : Nat} {ctx : Fin 1024} {s : State} (hs : Keeps z s) : KeepsR z (execResEnd fn tag ctx s) := by
  unfold execResEnd
  with_reducible repeat' first
    | assumption
    | intro y
    | apply State.command_keeps
    | apply State.settleResv_keeps
    | apply State.respond_keeps
    | apply KeepsR.next
    | apply Keeps.ite
    | apply Keeps.foldl
    | apply Keeps.foldlFst
    | exact KeepsO.none
    | apply KeepsO.some
    | dsimp only
    | fail_if_no_progress refine Keeps.lit ?_ rfl rfl rfl rfl rfl rfl rfl rfl rfl
    | refine Keeps.ofFst (Keeps.foldlFst ?_ ?_) (by assumption)
    | split

theorem execRqCancel_keeps {z : State} {fn : Fin 32} {tag : Nat} {rq : Fin 8192} {s : State} (hs : Keeps z s) : KeepsR z (execRqCancel fn tag rq s) := by
  unfold execRqCancel
  with_reducible repeat' first
    | assumption
    | intro y
    | apply State.command_keeps
    | apply State.cancelRq_keeps
    | apply State.respond_keeps
    | apply KeepsR.next
    | apply Keeps.ite

theorem execRqRelease_keeps {z : State} {fn : Fin 32} {tag : Nat} {rq : Fin 8192} {s : State} (hs : Keeps z s) : KeepsR z (execRqRelease fn tag rq s) := by
  unfold execRqRelease
  with_reducible repeat' first
    | assumption
    | intro y
    | apply State.command_keeps
    | apply State.plDestroy_keeps
    | apply State.respond_keeps
    | apply State.showRqt_keeps
    | apply KeepsR.next
    | apply Keeps.ite
    | apply Keeps.foldl
    | apply Keeps.foldlFst
    | exact KeepsO.none
    | apply KeepsO.some
    | dsimp only
    | fail_if_no_progress refine Keeps.lit ?_ rfl rfl rfl rfl rfl rfl rfl rfl rfl

theorem execRqtCancel_keeps {z : State} {fn : Fin 32} {v : Word} {s : State} (hs : Keeps z s) : KeepsR z (execRqtCancel fn v s) := by
  unfold execRqtCancel
  with_reducible repeat' first
    | assumption
    | intro y
    | apply State.wr_keeps
    | apply State.cancelRq_keeps
    | apply State.blockAction_keeps
    | apply KeepsR.next
    | apply Keeps.ite

theorem execRqtLatch_keeps {z : State} {fn : Fin 32} {v : Word} {s : State} (hs : Keeps z s) : KeepsR z (execRqtLatch fn v s) := by
  unfold execRqtLatch
  with_reducible repeat' first
    | assumption
    | intro y
    | apply State.wri_keeps
    | apply State.wr_keeps
    | apply State.blockAction_keeps
    | apply KeepsR.next
    | apply Keeps.ite
    | apply Keeps.foldl

theorem execVatReleaseBanks_keeps {z : State} {f : FloorId} {s : State} (hs : Keeps z s) : KeepsR z (execVatReleaseBanks f s) := by
  unfold execVatReleaseBanks
  with_reducible repeat' first
    | assumption
    | intro y
    | apply State.banksLost_keeps
    | apply State.zeroStore_keeps
    | apply State.clearTags_keeps
    | apply State.wr_keeps
    | apply State.recount_keeps
    | apply KeepsR.next
    | apply Keeps.ite
    | apply Keeps.foldl
    | apply Keeps.foldlFst
    | exact KeepsO.none
    | apply KeepsO.some
    | dsimp only
    | fail_if_no_progress refine Keeps.lit ?_ rfl rfl rfl rfl rfl rfl rfl rfl rfl
    | refine Keeps.ofFst (Keeps.foldlFst ?_ ?_) (by assumption)
    | split

theorem execVatReleaseReq_keeps {z : State} {f : FloorId} {s : State} (hs : Keeps z s) : KeepsR z (execVatReleaseReq f s) := by
  unfold execVatReleaseReq
  with_reducible repeat' first
    | assumption
    | intro y
    | apply State.raise_keeps
    | apply KeepsR.next
    | apply Keeps.ite
    | apply Keeps.foldl
    | apply Keeps.foldlFst
    | exact KeepsO.none
    | apply KeepsO.some
    | dsimp only
    | fail_if_no_progress refine Keeps.lit ?_ rfl rfl rfl rfl rfl rfl rfl rfl rfl

end Sys2Proof.Machine
end

