-- ==== Sys2Proof/Laws/KeepsSteps.lean ====
section
/-! SUPPORT. Every operation of `Machine/Steps.lean` keeps the queue, the variant, the clock and the canonical stores. -/

namespace Sys2Proof.Machine

theorem State.takeDraws_keeps {z : State} {s : State} {c : Nat} {n : Nat} (hs : Keeps z s) : Keeps z (State.takeDraws s c n) := by
  unfold State.takeDraws
  with_reducible repeat' first
    | assumption
    | intro y
    | apply KeepsR.next
    | apply Keeps.ite
    | apply Keeps.foldl
    | apply Keeps.foldlFst
    | exact KeepsO.none
    | apply KeepsO.some
    | dsimp only
    | fail_if_no_progress refine Keeps.lit ?_ rfl rfl rfl rfl rfl rfl rfl rfl rfl

theorem State.appendMember_keeps {z : State} {s : State} {m : Member} {w : Walk} (hs : Keeps z s) : KeepsO z (State.appendMember s m w) := by
  unfold State.appendMember
  extract_lets +onlyGivenNames x
  split
  · exact KeepsO.some hs
  · split
    · exact KeepsO.some hs
    · extract_lets +onlyGivenNames opened
      refine KeepsO.mapK ?_ fun t h => State.takeDraws_keeps (State.logAppend_keeps (State.modRq_keeps h))
      split
      · exact KeepsO.some hs
      · exact State.kvAppend_keeps hs

theorem State.commitMember_keeps {z : State} {s : State} {m : Member} {w : Walk} {again : Bool} (hs : Keeps z s) : Keeps z (State.commitMember s m w again) := by
  unfold State.commitMember
  with_reducible repeat' first
    | assumption
    | intro y
    | apply State.modRq_keeps
    | apply State.extendRoom_keeps
    | refine KeepsO.keeps (State.extendRoom_keeps ?_) _ (by assumption)
    | apply State.complete_keeps
    | apply State.publish_keeps
    | apply State.settleResv_keeps
    | apply State.showRoom_keeps
    | apply State.holdRq_keeps
    | apply State.count_keeps
    | apply KeepsR.next
    | apply Keeps.ite
    | apply Keeps.foldl
    | apply Keeps.foldlFst
    | exact KeepsO.none
    | apply KeepsO.some
    | dsimp only
    | fail_if_no_progress refine Keeps.lit ?_ rfl rfl rfl rfl rfl rfl rfl rfl rfl
    | refine Keeps.ofFst (Keeps.foldlFst ?_ ?_) (by assumption)
    | split

theorem State.finishMember_keeps {z : State} {s : State} {st : Step} {status : Nat} {m : Member} {w : Walk} (hs : Keeps z s) : Keeps z (State.finishMember s st status m w) := by
  unfold State.finishMember
  with_reducible repeat' first
    | assumption
    | intro y
    | apply State.modRq_keeps
    | apply State.dropReader_keeps
    | apply State.endRq_keeps
    | apply State.releaseFreed_keeps
    | apply State.commitMember_keeps
    | apply KeepsR.next
    | apply Keeps.ite
    | apply Keeps.foldl
    | apply Keeps.foldlFst
    | exact KeepsO.none
    | apply KeepsO.some
    | dsimp only
    | fail_if_no_progress refine Keeps.lit ?_ rfl rfl rfl rfl rfl rfl rfl rfl rfl
    | refine Keeps.ofFst (Keeps.foldlFst ?_ ?_) (by assumption)
    | split

theorem State.endStep_keeps {z : State} {s : State} {id : Nat} {st : Step} {status : Nat} {ws : List Walk} (hs : Keeps z s) : Keeps z (State.endStep s id st status ws) := by
  unfold State.endStep
  with_reducible repeat' first
    | assumption
    | intro y
    | apply State.lagOfOverrun_keeps
    | apply State.finishMember_keeps
    | apply State.raise_keeps
    | apply State.endStepKernels_keeps
    | apply State.count_keeps
    | apply State.dropEntries_keeps
    | apply State.showRqt_keeps
    | apply KeepsR.next
    | apply Keeps.ite
    | apply Keeps.foldl
    | apply Keeps.foldlFst
    | exact KeepsO.none
    | apply KeepsO.some
    | dsimp only
    | fail_if_no_progress refine Keeps.lit ?_ rfl rfl rfl rfl rfl rfl rfl rfl rfl
    | refine Keeps.ofFst (Keeps.foldlFst ?_ ?_) (by assumption)
    | split

theorem State.latchParams_keeps {z : State} {s : State} {x : Rq} (hs : Keeps z s) : Keeps z (State.latchParams s x).1 := by
  have h := State.hubRead_keeps (c := x.ctx) (va := s.fieldVa x.paramVa 10) (n := 1) (o := {}) (step := none) hs
  unfold State.latchParams
  rcases hp : s.hubRead x.ctx (s.fieldVa x.paramVa 10) 1 with ⟨a, b⟩
  rw [hp] at h
  exact h

theorem State.joinStep_keeps {z : State} {s : State} {id : Nat} {m : Member} (hs : Keeps z s) : Keeps z (State.joinStep s id m).1 := by
  have h := State.latchParams_keeps (x := s.rq m.idx) hs
  unfold State.joinStep
  extract_lets +onlyGivenNames x
  rcases hp : s.latchParams x with ⟨s1, b⟩
  have h1 : Keeps z s1 := by
    have h2 : (s.latchParams x).1 = s1 := by rw [hp]
    exact h2 ▸ h
  clear hp
  dsimp -zeta only
  extract_lets +onlyGivenNames s2 gen s3
  have h2 : Keeps z s2 := by
    unfold s2
    split
    · exact State.addReader_keeps h1
    · exact h1
  clear_value s2
  exact State.count_keeps (State.modRq_keeps h2)

theorem State.startStep_keeps {z : State} {s : State} {g : GroupPlan} {members : List Member} (hs : Keeps z s) : Keeps z (State.startStep s g members) := by
  unfold State.startStep
  extract_lets +onlyGivenNames id c old
  have h : Keeps z (members.foldl (fun (a : State × List Member) m =>
      match a.1.joinStep id m with
      | (t, m1) => (t, a.2 ++ [m1])) (s, [])).1 := by
    apply Keeps.foldlFst
    · intro a m ha
      exact State.joinStep_keeps ha
    · exact hs
  rcases hp : (members.foldl (fun (a : State × List Member) m =>
      match a.1.joinStep id m with
      | (t, m1) => (t, a.2 ++ [m1])) (s, [])) with ⟨s1, ms⟩
  rw [hp] at h
  clear hp
  dsimp -zeta only
  extract_lets +onlyGivenNames st s2 s3
  have h2 : Keeps z s2 := State.presetLocals_keeps (State.setStep_keeps h)
  have h3 : Keeps z s3 := State.count_keeps (State.spSend_keeps h2)
  exact State.showRqt_keeps (State.gatePosts_keeps h3)

theorem State.runGroup_keeps {z : State} {s : State} {g : GroupPlan} (hs : Keeps z s) : Keeps z (State.runGroup s g) := by
  unfold State.runGroup
  with_reducible repeat' first
    | assumption
    | intro y
    | apply State.faultRq_keeps
    | apply State.startStep_keeps
    | apply State.count_keeps
    | apply State.latchParams_keeps
    | refine Keeps.ofFst (State.latchParams_keeps ?_) (by assumption)
    | apply KeepsR.next
    | apply Keeps.ite
    | apply Keeps.foldl

theorem State.joinRelease_keeps {z : State} {s : State} {step : Nat} {outs : List MemberOut} (hs : Keeps z s) : Keeps z (State.joinRelease s step outs) := by
  unfold State.joinRelease
  split
  · exact hs
  · next st _ =>
    extract_lets +onlyGivenNames released status
    split
    · exact hs
    · extract_lets +onlyGivenNames none1
      split
      · exact State.endStep_keeps hs
      · extract_lets +onlyGivenNames run
        have hr : KeepsOF z run := by
          unfold run
          have key : ∀ (l : List (Member × Nat)) (a : Option (State × List Walk)), KeepsOF z a →
              KeepsOF z (l.foldl (fun (a : Option (State × List Walk)) e => a.bind fun (t, ws) =>
                let w := t.walkMember e.1 (outs.getD e.2 { logits := [] })
                (t.appendMember e.1 w).map fun t1 => (t1, ws ++ [w])) a) := by
            intro l
            induction l with
            | nil => exact fun a h => h
            | cons e l ih =>
              intro a h
              refine ih _ ⟨fun q hq => ?_⟩
              cases a with
              | none => cases hq
              | some b =>
                obtain ⟨t, ws⟩ := b
                have ht := State.appendMember_keeps (m := e.1) (w := t.walkMember e.1 (outs.getD e.2 { logits := [] })) (h.keeps (t, ws) rfl)
                simp only [Option.bind_some, Option.map_eq_some_iff] at hq
                obtain ⟨t1, h1, rfl⟩ := hq
                exact ht.keeps t1 h1
          exact key _ _ ⟨fun q hq => by injection hq with hq; exact hq ▸ hs⟩
        clear_value run
        split
        · exact State.endStep_keeps (hr.keeps _ rfl)
        · extract_lets +onlyGivenNames s1
          have h1 : Keeps z s1 := Keeps.foldl (fun t x h => State.ctxStQ_keeps h) hs
          exact State.endStep_keeps h1

theorem State.latchMember_keeps {z : State} {s : State} {die : Nat} {m : Member} (hs : Keeps z s) : Keeps z (State.latchMember s die m).1 := by
  unfold State.latchMember
  extract_lets +onlyGivenNames x src opt m1 want va denied
  have h : Keeps z (if want && x.candVa != 0 then s.hubRead x.ctx va 16 else (s, none)).1 := by
    split
    · exact State.hubRead_keeps hs
    · exact hs
  generalize (if want && x.candVa != 0 then s.hubRead x.ctx va 16 else (s, none)) = p at *
  obtain ⟨s1, b⟩ := p
  dsimp -zeta only
  extract_lets +onlyGivenNames s2
  have h2 : Keeps z s2 := by
    unfold s2
    with_reducible repeat' first
    | assumption
    | intro y
    | apply State.modRq_keeps
    | apply State.hubRead_keeps
    | refine Keeps.ofFst (State.hubRead_keeps ?_) (by assumption)
    | apply State.ctxNoteQ_keeps
    | apply State.raise_keeps
    | apply State.count_keeps
    | apply KeepsR.next
    | apply Keeps.ite
  clear_value s2
  have h3 : Keeps z (if bits opt 0 2 = 0 then (s2, m1)
    else match b.bind explOf with
      | some e => (s2, { m1 with expl := e })
      | none => (s2.ctxNoteQ x.ctx 14 m.idx, { m1 with explBad := true })).1 := by
    split
    · exact h2
    · split
      · exact h2
      · exact State.ctxNoteQ_keeps h2
  generalize (if bits opt 0 2 = 0 then (s2, m1)
    else match b.bind explOf with
      | some e => (s2, { m1 with expl := e })
      | none => (s2.ctxNoteQ x.ctx 14 m.idx, { m1 with explBad := true })) = q at *
  obtain ⟨s3, m2⟩ := q
  dsimp -zeta only
  with_reducible repeat' first
    | assumption
    | intro y
    | apply State.modRq_keeps
    | apply State.hubRead_keeps
    | refine Keeps.ofFst (State.hubRead_keeps ?_) (by assumption)
    | apply State.ctxNoteQ_keeps
    | apply State.raise_keeps
    | apply State.count_keeps
    | apply KeepsR.next
    | apply Keeps.ite
    | apply Keeps.foldl
    | apply Keeps.foldlFst
    | exact KeepsO.none
    | apply KeepsO.some
    | dsimp only
    | fail_if_no_progress refine Keeps.lit ?_ rfl rfl rfl rfl rfl rfl rfl rfl rfl
    | refine Keeps.ofFst (Keeps.foldlFst ?_ ?_) (by assumption)
    | split

theorem State.latchStep_keeps {z : State} {s : State} {id : Nat} {die : Nat} (hs : Keeps z s) : Keeps z (State.latchStep s id die) := by
  unfold State.latchStep
  with_reducible repeat' first
    | assumption
    | intro y
    | apply State.latchMember_keeps
    | refine Keeps.ofFst (State.latchMember_keeps ?_) (by assumption)
    | apply State.modStep_keeps
    | apply KeepsR.next
    | apply Keeps.ite
    | apply Keeps.foldl
    | apply Keeps.foldlFst
    | exact KeepsO.none
    | apply KeepsO.some
    | dsimp only
    | fail_if_no_progress refine Keeps.lit ?_ rfl rfl rfl rfl rfl rfl rfl rfl rfl
    | refine Keeps.ofFst (Keeps.foldlFst ?_ ?_) (by assumption)
    | split

theorem State.layerRow_keeps {z : State} {s : State} {n : Nat} {d : LayerDesc} {st : Step} {r : AttRow} (hs : Keeps z s) : Keeps z (State.layerRow s n d st r) := by
  unfold State.layerRow
  with_reducible repeat' first
    | assumption
    | intro y
    | apply State.ctxNoteQ_keeps
    | apply State.hubWrite_keeps
    | apply State.count_keeps
    | apply KeepsR.next
    | apply Keeps.ite
    | apply Keeps.foldl
    | apply Keeps.foldlFst
    | exact KeepsO.none
    | apply KeepsO.some
    | dsimp only
    | fail_if_no_progress refine Keeps.lit ?_ rfl rfl rfl rfl rfl rfl rfl rfl rfl
    | refine Keeps.ofFst (Keeps.foldlFst ?_ ?_) (by assumption)
    | split

theorem State.walkKv_keeps {z : State} {s : State} {n : Nat} {id : Nat} {layer : Nat} {m : Member} (hs : Keeps z s) : Keeps z (State.walkKv s n id layer m) := by
  unfold State.walkKv
  with_reducible repeat' first
    | assumption
    | intro y
    | apply State.fresh_keeps
    | refine Keeps.ofFst (State.fresh_keeps ?_) (by assumption)
    | apply State.failStep_keeps
    | apply State.ctxStQ_keeps
    | apply State.count_keeps
    | apply KeepsR.next
    | apply Keeps.ite
    | apply Keeps.foldl
    | apply Keeps.foldlFst
    | exact KeepsO.none
    | apply KeepsO.some
    | dsimp only
    | fail_if_no_progress refine Keeps.lit ?_ rfl rfl rfl rfl rfl rfl rfl rfl rfl
    | refine Keeps.ofFst (Keeps.foldlFst ?_ ?_) (by assumption)
    | split

theorem execDieRingTransfer_keeps {z : State} {src : Fin 4} {set : Nat} {step : Nat} {va : Nat} {reduce : Bool} {data : List Byte} {lost : Bool} {s : State} (hs : Keeps z s) : KeepsR z (execDieRingTransfer src set step va reduce data lost s) := by
  unfold execDieRingTransfer
  with_reducible repeat' first
    | assumption
    | intro y
    | apply State.failStep_keeps
    | apply State.ctxRead_keeps
    | refine Keeps.ofFst (State.ctxRead_keeps ?_) (by assumption)
    | apply State.raise_keeps
    | apply State.ctxWrite_keeps
    | refine Keeps.ofFst (State.ctxWrite_keeps ?_) (by assumption)
    | apply KeepsR.next
    | apply Keeps.ite
    | apply Keeps.foldl
    | apply Keeps.foldlFst
    | exact KeepsO.none
    | apply KeepsO.some
    | dsimp only
    | fail_if_no_progress refine Keeps.lit ?_ rfl rfl rfl rfl rfl rfl rfl rfl rfl
    | refine Keeps.ofFst (Keeps.foldlFst ?_ ?_) (by assumption)
    | split

theorem execLayerStart_keeps {z : State} {v : VatId} {desc : Nat} {rows : List AttRow} {skimmed : Nat} {sumBad : Nat} {bufParity : Bool} {s : State} (hs : Keeps z s) : KeepsR z (execLayerStart v desc rows skimmed sumBad bufParity s) := by
  unfold execLayerStart
  with_reducible repeat' first
    | assumption
    | intro y
    | apply State.layerRow_keeps
    | apply State.hubRead_keeps
    | refine Keeps.ofFst (State.hubRead_keeps ?_) (by assumption)
    | apply State.failStep_keeps
    | apply State.ctxNoteQ_keeps
    | apply State.walkKv_keeps
    | apply State.raise_keeps
    | apply State.dataDetect_keeps
    | apply State.latchStep_keeps
    | apply State.count_keeps
    | apply KeepsR.next
    | apply Keeps.ite
    | apply Keeps.foldl
    | apply Keeps.foldlFst
    | exact KeepsO.none
    | apply KeepsO.some
    | dsimp only
    | fail_if_no_progress refine Keeps.lit ?_ rfl rfl rfl rfl rfl rfl rfl rfl rfl
    | refine Keeps.ofFst (Keeps.foldlFst ?_ ?_) (by assumption)
    | split

theorem execLkpDraftDone_keeps {z : State} {rq : Fin 8192} {s : State} (hs : Keeps z s) : KeepsR z (execLkpDraftDone rq s) := by
  unfold execLkpDraftDone
  with_reducible repeat' first
    | assumption
    | intro y
    | apply State.modRq_keeps
    | apply State.count_keeps
    | apply KeepsR.next
    | apply Keeps.ite
    | apply Keeps.foldl
    | apply Keeps.foldlFst
    | exact KeepsO.none
    | apply KeepsO.some
    | dsimp only
    | fail_if_no_progress refine Keeps.lit ?_ rfl rfl rfl rfl rfl rfl rfl rfl rfl
    | refine Keeps.ofFst (Keeps.foldlFst ?_ ?_) (by assumption)
    | split

theorem execLkpDraftStart_keeps {z : State} {rq : Fin 8192} {s : State} (hs : Keeps z s) : KeepsR z (execLkpDraftStart rq s) := by
  unfold execLkpDraftStart
  with_reducible repeat' first
    | assumption
    | intro y
    | apply State.modRq_keeps
    | apply KeepsR.next
    | apply Keeps.ite

end Sys2Proof.Machine
end

