-- ==== Sys2Proof/Laws/KeepsMill.lean ====
section
/-! SUPPORT. Every operation of `Machine/Mill.lean` keeps the queue, the variant, the clock and the canonical stores. -/

namespace Sys2Proof.Machine

theorem State.showMill_keeps {z : State} {s : State} (hs : Keeps z s) : Keeps z (State.showMill s) := by
  unfold State.showMill
  with_reducible repeat' first
    | assumption
    | intro y
    | apply State.wr_keeps

theorem State.addJob_keeps {z : State} {s : State} {j : MillJob} (hs : Keeps z s) : Keeps z (State.addJob s j) := by
  unfold State.addJob
  with_reducible repeat' first
    | assumption
    | intro y
    | apply State.showMill_keeps
    | apply KeepsR.next
    | apply Keeps.ite
    | apply Keeps.foldl
    | apply Keeps.foldlFst
    | exact KeepsO.none
    | apply KeepsO.some
    | dsimp only
    | fail_if_no_progress refine Keeps.lit ?_ rfl rfl rfl rfl rfl rfl rfl rfl rfl

theorem State.dropChainHold_keeps {z : State} {s : State} {j : MillJob} (hs : Keeps z s) : Keeps z (State.dropChainHold s j) := by
  unfold State.dropChainHold
  with_reducible repeat' first
    | assumption
    | intro y
    | apply KeepsR.next
    | apply Keeps.ite
    | apply Keeps.foldl
    | apply Keeps.foldlFst
    | exact KeepsO.none
    | apply KeepsO.some
    | dsimp only
    | fail_if_no_progress refine Keeps.lit ?_ rfl rfl rfl rfl rfl rfl rfl rfl rfl
    | refine Keeps.ofFst (Keeps.foldlFst ?_ ?_) (by assumption)
    | split

theorem State.hubPost_keeps {z : State} {s : State} {c : Nat} {v : Nat} {n : Nat} (hs : Keeps z s) : Keeps z (State.hubPost s c v n) := by
  unfold State.hubPost
  with_reducible repeat' first
    | assumption
    | intro y
    | apply State.enginePost_keeps
    | apply State.ctxNoteQ_keeps
    | apply State.count_keeps
    | apply KeepsR.next
    | apply Keeps.ite
    | apply Keeps.foldl
    | apply Keeps.foldlFst
    | exact KeepsO.none
    | apply KeepsO.some
    | dsimp only
    | fail_if_no_progress refine Keeps.lit ?_ rfl rfl rfl rfl rfl rfl rfl rfl rfl
    | refine Keeps.ofFst (Keeps.foldlFst ?_ ?_) (by assumption)
    | split

theorem State.endJob_keeps {z : State} {s : State} {i : Nat} {status : Nat} (hs : Keeps z s) : Keeps z (State.endJob s i status) := by
  unfold State.endJob
  with_reducible repeat' first
    | assumption
    | intro y
    | apply State.dropChainHold_keeps
    | apply State.hubPost_keeps
    | apply State.showMill_keeps
    | apply State.hubWrite_keeps
    | apply State.count_keeps
    | apply KeepsR.next
    | apply Keeps.ite
    | apply Keeps.foldl
    | apply Keeps.foldlFst
    | exact KeepsO.none
    | apply KeepsO.some
    | dsimp only
    | fail_if_no_progress refine Keeps.lit ?_ rfl rfl rfl rfl rfl rfl rfl rfl rfl
    | refine Keeps.ofFst (Keeps.foldlFst ?_ ?_) (by assumption)
    | split

theorem State.queueJob_keeps {z : State} {s : State} {j : MillJob} (hs : Keeps z s) : Keeps z (State.queueJob s j) := by
  unfold State.queueJob
  with_reducible repeat' first
    | assumption
    | intro y
    | apply State.addJob_keeps
    | apply State.endJob_keeps
    | apply KeepsR.next
    | apply Keeps.ite

theorem State.setJob_keeps {z : State} {s : State} {i : Nat} {j : MillJob} (hs : Keeps z s) : Keeps z (State.setJob s i j) := by
  unfold State.setJob
  with_reducible repeat' first
    | assumption
    | intro y
    | apply KeepsR.next
    | apply Keeps.ite
    | apply Keeps.foldl
    | apply Keeps.foldlFst
    | exact KeepsO.none
    | apply KeepsO.some
    | dsimp only
    | fail_if_no_progress refine Keeps.lit ?_ rfl rfl rfl rfl rfl rfl rfl rfl rfl

theorem State.chainPicture_keeps {z : State} {s : State} {stream : Nat} {va : Nat} {pitch : Nat} {pic : Nat} {concealed : Bool} (hs : Keeps z s) : Keeps z (State.chainPicture s stream va pitch pic concealed) := by
  unfold State.chainPicture
  with_reducible repeat' first
    | assumption
    | intro y
    | apply State.queueJob_keeps
    | apply State.dropChainHold_keeps
    | apply State.setJob_keeps
    | apply State.raise_keeps
    | apply State.showMill_keeps
    | apply State.count_keeps
    | apply KeepsR.next
    | apply Keeps.ite
    | apply Keeps.foldl
    | apply Keeps.foldlFst
    | exact KeepsO.none
    | apply KeepsO.some
    | dsimp only
    | fail_if_no_progress refine Keeps.lit ?_ rfl rfl rfl rfl rfl rfl rfl rfl rfl
    | refine Keeps.ofFst (Keeps.foldlFst ?_ ?_) (by assumption)
    | split

theorem State.millEndCtx_keeps {z : State} {s : State} {c : Nat} (hs : Keeps z s) : Keeps z (State.millEndCtx s c) := by
  unfold State.millEndCtx
  with_reducible repeat' first
    | assumption
    | intro y
    | apply State.showMill_keeps
    | apply State.count_keeps
    | apply State.endJob_keeps
    | apply KeepsR.next
    | apply Keeps.ite
    | apply Keeps.foldl
    | apply Keeps.foldlFst
    | exact KeepsO.none
    | apply KeepsO.some
    | dsimp only
    | fail_if_no_progress refine Keeps.lit ?_ rfl rfl rfl rfl rfl rfl rfl rfl rfl

theorem State.jobOver_keeps {z : State} {s : State} {i : Nat} {j : MillJob} {status : Nat} (hs : Keeps z s) : Keeps z (State.jobOver s i j status) := by
  unfold State.jobOver
  with_reducible repeat' first
    | assumption
    | intro y
    | apply State.setJob_keeps
    | apply State.showMill_keeps

theorem State.descDone_keeps {z : State} {s : State} {i : Nat} {j : MillJob} {result : Nat} (hs : Keeps z s) : Keeps z (State.descDone s i j result) := by
  unfold State.descDone
  with_reducible repeat' first
    | assumption
    | intro y
    | apply State.jobOver_keeps
    | apply State.setJob_keeps
    | apply State.showMill_keeps
    | apply KeepsR.next
    | apply Keeps.ite

theorem State.millRetire_keeps {z : State} {s : State} (hs : Keeps z s) : Keeps z (State.millRetire s) := by
  unfold State.millRetire
  with_reducible repeat' first
    | assumption
    | intro y
    | apply State.endJob_keeps
    | apply KeepsR.next
    | apply Keeps.ite
    | apply Keeps.foldl

theorem State.readSpans_keeps {z : State} {s : State} {c : Nat} {l : List (Nat × Nat)} {bad : Option Nat} (hs : Keeps z s) : Keeps z (State.readSpans s c l bad).1 := by
  unfold State.readSpans
  with_reducible repeat' first
    | assumption
    | intro y
    | apply State.ctxRead_keeps
    | refine Keeps.ofFst (State.ctxRead_keeps ?_) (by assumption)
    | apply KeepsR.next
    | apply Keeps.ite
    | apply Keeps.foldl
    | apply Keeps.foldlFst
    | exact KeepsO.none
    | apply KeepsO.some
    | dsimp only
    | fail_if_no_progress refine Keeps.lit ?_ rfl rfl rfl rfl rfl rfl rfl rfl rfl
    | refine Keeps.ofFst (Keeps.foldlFst ?_ ?_) (by assumption)
    | split

theorem State.millBadLine_keeps {z : State} {s : State} {i : Nat} {j : MillJob} {va : Nat} {how : Nat} (hs : Keeps z s) : Keeps z (State.millBadLine s i j va how) := by
  unfold State.millBadLine
  with_reducible repeat' first
    | assumption
    | intro y
    | apply State.jobOver_keeps
    | apply State.setJob_keeps
    | apply State.showMill_keeps
    | apply State.count_keeps
    | apply KeepsR.next
    | apply Keeps.ite

theorem State.millBusy_keeps {z : State} {s : State} {p : Nat} {n : Nat} (hs : Keeps z s) : Keeps z (State.millBusy s p n) := by
  unfold State.millBusy
  with_reducible repeat' first
    | assumption
    | intro y
    | apply State.count_keeps

theorem State.millWrite_keeps {z : State} {s : State} {i : Nat} {j : MillJob} {va : Nat} {bs : List Nat} {result : Nat} (hs : Keeps z s) : Keeps z (State.millWrite s i j va bs result) := by
  unfold State.millWrite
  with_reducible repeat' first
    | assumption
    | intro y
    | apply State.jobOver_keeps
    | apply State.hubWrite_keeps
    | apply State.descDone_keeps
    | apply KeepsR.next
    | apply Keeps.ite

theorem State.noteDetected_keeps {z : State} {s : State} {c : Nat} (hs : Keeps z s) : Keeps z (State.noteDetected s c) := by
  unfold State.noteDetected
  with_reducible repeat' first
    | assumption
    | intro y
    | apply State.ctxNote_keeps
    | apply State.count_keeps

theorem State.runDesc_keeps {z : State} {s : State} {i : Nat} {j : MillJob} {bad : Option Nat} (hs : Keeps z s) : Keeps z (State.runDesc s i j bad) := by
  unfold State.runDesc
  with_reducible repeat' first
    | assumption
    | intro y
    | apply State.fresh_keeps
    | refine Keeps.ofFst (State.fresh_keeps ?_) (by assumption)
    | apply State.readSpans_keeps
    | refine Keeps.ofFst (State.readSpans_keeps ?_) (by assumption)
    | apply State.millBadLine_keeps
    | apply State.millWrite_keeps
    | apply State.millBusy_keeps
    | apply State.descDone_keeps
    | apply State.count_keeps
    | apply KeepsR.next
    | apply Keeps.ite
    | apply Keeps.foldl
    | apply Keeps.foldlFst
    | exact KeepsO.none
    | apply KeepsO.some
    | dsimp only
    | fail_if_no_progress refine Keeps.lit ?_ rfl rfl rfl rfl rfl rfl rfl rfl rfl
    | refine Keeps.ofFst (Keeps.foldlFst ?_ ?_) (by assumption)
    | split

theorem State.setPipeCtx_keeps {z : State} {s : State} {p : Nat} {c : Nat} (hs : Keeps z s) : Keeps z (State.setPipeCtx s p c) := by
  unfold State.setPipeCtx
  with_reducible repeat' first
    | assumption
    | intro y
    | apply State.wr_keeps
    | apply KeepsR.next
    | apply Keeps.ite
    | apply Keeps.foldl
    | apply Keeps.foldlFst
    | exact KeepsO.none
    | apply KeepsO.some
    | dsimp only
    | fail_if_no_progress refine Keeps.lit ?_ rfl rfl rfl rfl rfl rfl rfl rfl rfl

theorem execMillCancel_keeps {z : State} {fn : Fin 32} {tag : Nat} {ctx : Fin 1024} {s : State} (hs : Keeps z s) : KeepsR z (execMillCancel fn tag ctx s) := by
  unfold execMillCancel
  with_reducible repeat' first
    | assumption
    | intro y
    | apply State.command_keeps
    | apply State.respond_keeps
    | apply State.endJob_keeps
    | apply KeepsR.next
    | apply Keeps.ite
    | apply Keeps.foldl

theorem execMillChain_keeps {z : State} {fn : Fin 32} {tag : Nat} {stream : Nat} {list : MillList} {s : State} (hs : Keeps z s) : KeepsR z (execMillChain fn tag stream list s) := by
  unfold execMillChain
  with_reducible repeat' first
    | assumption
    | intro y
    | apply State.command_keeps
    | apply State.respond_keeps
    | apply State.showMill_keeps
    | apply KeepsR.next
    | apply Keeps.ite
    | apply Keeps.foldl
    | apply Keeps.foldlFst
    | exact KeepsO.none
    | apply KeepsO.some
    | dsimp only
    | fail_if_no_progress refine Keeps.lit ?_ rfl rfl rfl rfl rfl rfl rfl rfl rfl

theorem execMillJobEnd_keeps {z : State} {job : Nat} {s : State} (hs : Keeps z s) : KeepsR z (execMillJobEnd job s) := by
  unfold execMillJobEnd
  with_reducible repeat' first
    | assumption
    | intro y
    | apply State.endJob_keeps
    | apply KeepsR.next
    | apply Keeps.ite
    | apply Keeps.foldl
    | apply Keeps.foldlFst
    | exact KeepsO.none
    | apply KeepsO.some
    | dsimp only
    | fail_if_no_progress refine Keeps.lit ?_ rfl rfl rfl rfl rfl rfl rfl rfl rfl
    | refine Keeps.ofFst (Keeps.foldlFst ?_ ?_) (by assumption)
    | split

theorem execMillJobStart_keeps {z : State} {pre : Bool} {s : State} (hs : Keeps z s) : KeepsR z (execMillJobStart pre s) := by
  unfold execMillJobStart
  with_reducible repeat' first
    | assumption
    | intro y
    | apply State.ctxCode_keeps
    | apply State.jobOver_keeps
    | apply State.hubRead_keeps
    | refine Keeps.ofFst (State.hubRead_keeps ?_) (by assumption)
    | apply State.setPipeCtx_keeps
    | apply State.setJob_keeps
    | apply State.showMill_keeps
    | apply State.count_keeps
    | apply KeepsR.next
    | apply Keeps.ite
    | apply Keeps.foldl
    | apply Keeps.foldlFst
    | exact KeepsO.none
    | apply KeepsO.some
    | dsimp only
    | fail_if_no_progress refine Keeps.lit ?_ rfl rfl rfl rfl rfl rfl rfl rfl rfl
    | refine Keeps.ofFst (Keeps.foldlFst ?_ ?_) (by assumption)
    | split

theorem execMillSubmit_keeps {z : State} {fn : Fin 32} {tag : Nat} {list : MillList} {s : State} (hs : Keeps z s) : KeepsR z (execMillSubmit fn tag list s) := by
  unfold execMillSubmit
  with_reducible repeat' first
    | assumption
    | intro y
    | apply State.command_keeps
    | apply State.raise_keeps
    | apply State.respond_keeps
    | apply State.addJob_keeps
    | apply KeepsR.next
    | apply Keeps.ite

theorem execMillTileEnd_keeps {z : State} {pre : Bool} {last : Bool} {det : Fin 3} {badVa : Option Nat} {s : State} (hs : Keeps z s) : KeepsR z (execMillTileEnd pre last det badVa s) := by
  unfold execMillTileEnd
  with_reducible repeat' first
    | assumption
    | intro y
    | apply State.runDesc_keeps
    | apply State.jobOver_keeps
    | apply State.setJob_keeps
    | apply State.raise_keeps
    | apply State.showMill_keeps
    | apply State.count_keeps
    | apply State.noteDetected_keeps
    | apply KeepsR.next
    | apply Keeps.ite
    | apply Keeps.foldl
    | apply Keeps.foldlFst
    | exact KeepsO.none
    | apply KeepsO.some
    | dsimp only
    | fail_if_no_progress refine Keeps.lit ?_ rfl rfl rfl rfl rfl rfl rfl rfl rfl
    | refine Keeps.ofFst (Keeps.foldlFst ?_ ?_) (by assumption)
    | split

theorem execMillUnchain_keeps {z : State} {fn : Fin 32} {tag : Nat} {stream : Nat} {s : State} (hs : Keeps z s) : KeepsR z (execMillUnchain fn tag stream s) := by
  unfold execMillUnchain
  with_reducible repeat' first
    | assumption
    | intro y
    | apply State.command_keeps
    | apply State.respond_keeps
    | apply State.showMill_keeps
    | apply State.endJob_keeps
    | apply KeepsR.next
    | apply Keeps.ite
    | apply Keeps.foldl
    | apply Keeps.foldlFst
    | exact KeepsO.none
    | apply KeepsO.some
    | dsimp only
    | fail_if_no_progress refine Keeps.lit ?_ rfl rfl rfl rfl rfl rfl rfl rfl rfl
    | refine Keeps.ofFst (Keeps.foldlFst ?_ ?_) (by assumption)
    | split

end Sys2Proof.Machine
end

