-- ==== Sys2Proof/Laws/KeepsCodec.lean ====
section
/-! SUPPORT. Every operation of `Machine/Codec.lean` keeps the queue, the variant, the clock and the canonical stores. -/

namespace Sys2Proof.Machine

theorem State.setStream_keeps {z : State} {s : State} {n : Nat} {x : Stream} (hs : Keeps z s) : Keeps z (State.setStream s n x) := by
  unfold State.setStream
  with_reducible repeat' first
    | assumption
    | intro y
    | apply KeepsR.next
    | apply Keeps.ite
    | apply Keeps.foldl
    | apply Keeps.foldlFst
    | exact KeepsO.none
    | apply KeepsO.some
    | dsimp only
    | fail_if_no_progress refine Keeps.lit ?_ rfl rfl rfl rfl rfl rfl rfl rfl rfl

theorem State.writeRecord_keeps {z : State} {s : State} {n : Nat} {x : Stream} {r : List Nat} (hs : Keeps z s) : Keeps z (State.writeRecord s n x r) := by
  unfold State.writeRecord
  with_reducible repeat' first
    | assumption
    | intro y
    | apply State.setStream_keeps
    | apply State.chainPicture_keeps
    | apply State.hubPost_keeps
    | apply State.hubWrite_keeps
    | apply KeepsR.next
    | apply Keeps.ite

theorem State.drainRecs_keeps {z : State} {s : State} {n : Nat} {x2 : Nat} (hs : Keeps z s) : Keeps z (State.drainRecs s n x2) := by
  induction x2 generalizing s with
  | zero => exact hs
  | succ k ih =>
    unfold State.drainRecs
    with_reducible repeat' first
      | assumption
      | intro y
      | apply ih
      | apply State.writeRecord_keeps
      | apply KeepsO.mapK
      | apply KeepsO.foldl
      | refine KeepsO.keeps (KeepsO.some ?_) _ (by assumption)
      | apply KeepsR.next
      | apply Keeps.ite
      | apply Keeps.foldl
      | apply Keeps.foldlFst
      | exact KeepsO.none
      | apply KeepsO.some
      | dsimp only
      | fail_if_no_progress refine Keeps.lit ?_ rfl rfl rfl rfl rfl rfl rfl rfl rfl
      | refine Keeps.ofFst (Keeps.foldlFst ?_ ?_) (by assumption)
      | split

theorem State.modStream_keeps {z : State} {s : State} {n : Nat} {f : Stream → Stream} (hs : Keeps z s) : Keeps z (State.modStream s n f) := by
  unfold State.modStream
  with_reducible repeat' first
    | assumption
    | intro y
    | apply KeepsR.next
    | apply Keeps.ite
    | apply Keeps.foldl
    | apply Keeps.foldlFst
    | exact KeepsO.none
    | apply KeepsO.some
    | dsimp only
    | fail_if_no_progress refine Keeps.lit ?_ rfl rfl rfl rfl rfl rfl rfl rfl rfl

theorem State.pushRecord_keeps {z : State} {s : State} {n : Nat} {r : List Nat} (hs : Keeps z s) : Keeps z (State.pushRecord s n r) := by
  unfold State.pushRecord
  with_reducible repeat' first
    | assumption
    | intro y
    | apply State.drainRecs_keeps
    | apply State.modStream_keeps

theorem State.hubBytes_keeps {z : State} {s : State} {c : Nat} {va : Nat} {n : Nat} (hs : Keeps z s) : Keeps z (State.hubBytes s c va n).1 := by
  unfold State.hubBytes
  with_reducible repeat' first
    | assumption
    | intro y
    | apply State.hubRead_keeps

theorem State.takeEntry_keeps {z : State} {s : State} {n : Nat} {x : Stream} (hs : Keeps z s) : Keeps z (State.takeEntry s n x).1 := by
  unfold State.takeEntry
  with_reducible repeat' first
    | assumption
    | intro y
    | apply State.setStream_keeps
    | apply State.hubBytes_keeps
    | refine Keeps.ofFst (State.hubBytes_keeps ?_) (by assumption)
    | apply State.hubWrite_keeps

theorem State.failEntries_keeps {z : State} {s : State} {n : Nat} {status : Nat} {cause : Nat} {x4 : Nat} (hs : Keeps z s) : Keeps z (State.failEntries s n status cause x4) := by
  induction x4 generalizing s with
  | zero => exact hs
  | succ k ih =>
    unfold State.failEntries
    with_reducible repeat' first
      | assumption
      | intro y
      | apply ih
      | apply State.pushRecord_keeps
      | apply State.takeEntry_keeps
      | refine Keeps.ofFst (State.takeEntry_keeps ?_) (by assumption)
      | apply KeepsO.mapK
      | apply KeepsO.foldl
      | refine KeepsO.keeps (KeepsO.some ?_) _ (by assumption)
      | apply KeepsR.next
      | apply Keeps.ite
      | apply Keeps.foldl
      | apply Keeps.foldlFst
      | exact KeepsO.none
      | apply KeepsO.some
      | dsimp only
      | fail_if_no_progress refine Keeps.lit ?_ rfl rfl rfl rfl rfl rfl rfl rfl rfl
      | refine Keeps.ofFst (Keeps.foldlFst ?_ ?_) (by assumption)
      | split

theorem State.showSched_keeps {z : State} {s : State} (hs : Keeps z s) : Keeps z (State.showSched s) := by
  unfold State.showSched
  with_reducible repeat' first
    | assumption
    | intro y
    | apply State.wr_keeps
    | apply State.count_keeps
    | apply KeepsR.next
    | apply Keeps.ite
    | apply Keeps.foldl
    | apply Keeps.foldlFst
    | exact KeepsO.none
    | apply KeepsO.some
    | dsimp only
    | fail_if_no_progress refine Keeps.lit ?_ rfl rfl rfl rfl rfl rfl rfl rfl rfl

theorem State.dropStream_keeps {z : State} {s : State} {n : Nat} (hs : Keeps z s) : Keeps z (State.dropStream s n) := by
  unfold State.dropStream
  with_reducible repeat' first
    | assumption
    | intro y
    | apply State.wake_keeps
    | apply State.showSched_keeps
    | apply State.showMill_keeps
    | apply State.count_keeps
    | apply KeepsR.next
    | apply Keeps.ite
    | apply Keeps.foldl
    | apply Keeps.foldlFst
    | exact KeepsO.none
    | apply KeepsO.some
    | dsimp only
    | fail_if_no_progress refine Keeps.lit ?_ rfl rfl rfl rfl rfl rfl rfl rfl rfl

theorem State.settleStream_keeps {z : State} {s : State} {n : Nat} (hs : Keeps z s) : Keeps z (State.settleStream s n) := by
  unfold State.settleStream
  with_reducible repeat' first
    | assumption
    | intro y
    | apply State.pushRecord_keeps
    | apply State.wake_keeps
    | apply State.failEntries_keeps
    | apply State.showSched_keeps
    | apply State.dropStream_keeps
    | apply State.modStream_keeps
    | apply KeepsR.next
    | apply Keeps.ite
    | apply Keeps.foldl
    | apply Keeps.foldlFst
    | exact KeepsO.none
    | apply KeepsO.some
    | dsimp only
    | fail_if_no_progress refine Keeps.lit ?_ rfl rfl rfl rfl rfl rfl rfl rfl rfl
    | refine Keeps.ofFst (Keeps.foldlFst ?_ ?_) (by assumption)
    | split

theorem State.afterPoll_keeps {z : State} {s : State} {n : Nat} (hs : Keeps z s) : Keeps z (State.afterPoll s n) := by
  unfold State.afterPoll
  with_reducible repeat' first
    | assumption
    | intro y
    | apply State.failEntries_keeps
    | apply State.settleStream_keeps
    | apply KeepsR.next
    | apply Keeps.ite

theorem State.codecEndCtx_keeps {z : State} {s : State} {c : Nat} (hs : Keeps z s) : Keeps z (State.codecEndCtx s c) := by
  unfold State.codecEndCtx
  with_reducible repeat' first
    | assumption
    | intro y
    | apply State.setStream_keeps
    | apply State.wr_keeps
    | apply State.failEntries_keeps
    | apply State.dropStream_keeps
    | apply KeepsR.next
    | apply Keeps.ite
    | apply Keeps.foldl
    | apply Keeps.foldlFst
    | exact KeepsO.none
    | apply KeepsO.some
    | dsimp only
    | fail_if_no_progress refine Keeps.lit ?_ rfl rfl rfl rfl rfl rfl rfl rfl rfl
    | refine Keeps.ofFst (Keeps.foldlFst ?_ ?_) (by assumption)
    | split

theorem State.codecRetire_keeps {z : State} {s : State} {k : Nat} (hs : Keeps z s) : Keeps z (State.codecRetire s k) := by
  unfold State.codecRetire
  with_reducible repeat' first
    | assumption
    | intro y
    | apply State.pushRecord_keeps
    | apply State.setStream_keeps
    | apply State.wr_keeps
    | apply State.failEntries_keeps
    | apply State.showSched_keeps
    | apply State.settleStream_keeps
    | apply KeepsR.next
    | apply Keeps.ite
    | apply Keeps.foldl
    | apply Keeps.foldlFst
    | exact KeepsO.none
    | apply KeepsO.some
    | dsimp only
    | fail_if_no_progress refine Keeps.lit ?_ rfl rfl rfl rfl rfl rfl rfl rfl rfl
    | refine Keeps.ofFst (Keeps.foldlFst ?_ ?_) (by assumption)
    | split

theorem State.count1024_keeps {z : State} {s : State} {pg : Nat} {off : Nat} {n : Nat} (hs : Keeps z s) : Keeps z (State.count1024 s pg off n) := by
  unfold State.count1024
  with_reducible repeat' first
    | assumption
    | intro y
    | apply State.count_keeps
    | apply KeepsR.next
    | apply Keeps.ite
    | apply Keeps.foldl
    | apply Keeps.foldlFst
    | exact KeepsO.none
    | apply KeepsO.some
    | dsimp only
    | fail_if_no_progress refine Keeps.lit ?_ rfl rfl rfl rfl rfl rfl rfl rfl rfl

theorem State.engIdle_keeps {z : State} {s : State} {k : Nat} {n : Nat} {p : CPic} (hs : Keeps z s) : Keeps z (State.engIdle s k n p) := by
  unfold State.engIdle
  with_reducible repeat' first
    | assumption
    | intro y
    | apply State.wr_keeps
    | apply State.count_keeps
    | apply KeepsR.next
    | apply Keeps.ite
    | apply Keeps.foldl
    | apply Keeps.foldlFst
    | exact KeepsO.none
    | apply KeepsO.some
    | dsimp only
    | fail_if_no_progress refine Keeps.lit ?_ rfl rfl rfl rfl rfl rfl rfl rfl rfl

theorem State.streamCount_keeps {z : State} {s : State} {c : Nat} {n : Nat} {fd : Field} {d : Nat} (hs : Keeps z s) : Keeps z (State.streamCount s c n fd d) := by
  unfold State.streamCount
  with_reducible repeat' first
    | assumption
    | intro y
    | apply State.wri_keeps

theorem State.keyRequest_keeps {z : State} {s : State} {n : Nat} {x : Stream} {idx : Nat} (hs : Keeps z s) : Keeps z (State.keyRequest s n x idx) := by
  unfold State.keyRequest
  with_reducible repeat' first
    | assumption
    | intro y
    | apply State.pushRecord_keeps
    | apply State.ctxNoteQ_keeps
    | apply KeepsR.next
    | apply Keeps.ite

theorem State.doneDecode_keeps {z : State} {s : State} {k : Nat} {n : Nat} {x : Stream} {p : CPic} {o : PicOut} {engFault : Bool} (hs : Keeps z s) : Keeps z (State.doneDecode s k n x p o engFault) := by
  unfold State.doneDecode
  with_reducible repeat' first
    | assumption
    | intro y
    | apply State.pushRecord_keeps
    | apply State.engIdle_keeps
    | apply State.streamCount_keeps
    | apply State.readSpans_keeps
    | refine Keeps.ofFst (State.readSpans_keeps ?_) (by assumption)
    | apply State.setStream_keeps
    | apply State.ctxNoteQ_keeps
    | apply State.count1024_keeps
    | apply State.ctxRead_keeps
    | refine Keeps.ofFst (State.ctxRead_keeps ?_) (by assumption)
    | apply State.hubWrite_keeps
    | apply State.keyRequest_keeps
    | apply State.count_keeps
    | apply KeepsR.next
    | apply Keeps.ite
    | apply Keeps.foldl
    | apply Keeps.foldlFst
    | exact KeepsO.none
    | apply KeepsO.some
    | dsimp only
    | fail_if_no_progress refine Keeps.lit ?_ rfl rfl rfl rfl rfl rfl rfl rfl rfl
    | refine Keeps.ofFst (Keeps.foldlFst ?_ ?_) (by assumption)
    | split

theorem State.doneEncode_keeps {z : State} {s : State} {k : Nat} {n : Nat} {x : Stream} {p : CPic} {o : PicOut} {engFault : Bool} (hs : Keeps z s) : Keeps z (State.doneEncode s k n x p o engFault) := by
  unfold State.doneEncode
  with_reducible repeat' first
    | assumption
    | intro y
    | apply State.pushRecord_keeps
    | apply State.engIdle_keeps
    | apply State.streamCount_keeps
    | apply State.fresh_keeps
    | refine Keeps.ofFst (State.fresh_keeps ?_) (by assumption)
    | apply State.readSpans_keeps
    | refine Keeps.ofFst (State.readSpans_keeps ?_) (by assumption)
    | apply State.setStream_keeps
    | apply State.count1024_keeps
    | apply State.hubWrite_keeps
    | apply State.count_keeps
    | apply KeepsR.next
    | apply Keeps.ite
    | apply Keeps.foldl
    | apply Keeps.foldlFst
    | exact KeepsO.none
    | apply KeepsO.some
    | dsimp only
    | fail_if_no_progress refine Keeps.lit ?_ rfl rfl rfl rfl rfl rfl rfl rfl rfl

theorem State.engTakes_keeps {z : State} {s : State} {k : Nat} {n : Nat} {x : Stream} {luma : Nat} (hs : Keeps z s) : Keeps z (State.engTakes s k n x luma).1 := by
  unfold State.engTakes
  with_reducible repeat' first
    | assumption
    | intro y
    | apply State.wr_keeps
    | apply State.count_keeps
    | apply KeepsR.next
    | apply Keeps.ite

theorem State.takeReleases_keeps {z : State} {s : State} {n : Nat} {x2 : Nat} (hs : Keeps z s) : Keeps z (State.takeReleases s n x2) := by
  induction x2 generalizing s with
  | zero => exact hs
  | succ k ih =>
    unfold State.takeReleases
    with_reducible repeat' first
      | assumption
      | intro y
      | apply ih
      | apply State.setStream_keeps
      | apply State.hubBytes_keeps
      | refine Keeps.ofFst (State.hubBytes_keeps ?_) (by assumption)
      | apply State.hubWrite_keeps
      | apply State.count_keeps
      | apply KeepsO.mapK
      | apply KeepsO.foldl
      | refine KeepsO.keeps (KeepsO.some ?_) _ (by assumption)
      | apply KeepsR.next
      | apply Keeps.ite
      | apply Keeps.foldl
      | apply Keeps.foldlFst
      | exact KeepsO.none
      | apply KeepsO.some
      | dsimp only
      | fail_if_no_progress refine Keeps.lit ?_ rfl rfl rfl rfl rfl rfl rfl rfl rfl
      | refine Keeps.ofFst (Keeps.foldlFst ?_ ?_) (by assumption)
      | split

theorem State.readIndexes_keeps {z : State} {s : State} {n : Nat} (hs : Keeps z s) : Keeps z (State.readIndexes s n) := by
  unfold State.readIndexes
  with_reducible repeat' first
    | assumption
    | intro y
    | apply State.setStream_keeps
    | apply State.hubBytes_keeps
    | refine Keeps.ofFst (State.hubBytes_keeps ?_) (by assumption)
    | apply State.failEntries_keeps
    | apply State.takeReleases_keeps
    | apply State.drainRecs_keeps
    | apply State.count_keeps
    | apply KeepsR.next
    | apply Keeps.ite
    | apply Keeps.foldl
    | apply Keeps.foldlFst
    | exact KeepsO.none
    | apply KeepsO.some
    | dsimp only
    | fail_if_no_progress refine Keeps.lit ?_ rfl rfl rfl rfl rfl rfl rfl rfl rfl
    | refine Keeps.ofFst (Keeps.foldlFst ?_ ?_) (by assumption)
    | split

theorem State.seqCheck_keeps {z : State} {s : State} {n : Nat} {x : Stream} {h : Option SeqHeader} (hs : Keeps z s) : Keeps z (State.seqCheck s n x h).1 := by
  unfold State.seqCheck
  with_reducible repeat' first
    | assumption
    | intro y
    | apply State.setStream_keeps
    | apply State.ctxNoteQ_keeps
    | apply KeepsR.next
    | apply Keeps.ite
    | apply Keeps.foldl
    | apply Keeps.foldlFst
    | exact KeepsO.none
    | apply KeepsO.some
    | dsimp only
    | fail_if_no_progress refine Keeps.lit ?_ rfl rfl rfl rfl rfl rfl rfl rfl rfl
    | refine Keeps.ofFst (Keeps.foldlFst ?_ ?_) (by assumption)
    | split

theorem State.startDecode_keeps {z : State} {s : State} {k : Nat} {n : Nat} {x : Stream} {e : List Nat} {idx : Nat} {syn : PicSyntax} (hs : Keeps z s) : Keeps z (State.startDecode s k n x e idx syn) := by
  unfold State.startDecode
  with_reducible repeat' first
    | assumption
    | intro y
    | apply State.pushRecord_keeps
    | apply State.setStream_keeps
    | apply State.engTakes_keeps
    | refine Keeps.ofFst (State.engTakes_keeps ?_) (by assumption)
    | apply State.seqCheck_keeps
    | refine Keeps.ofFst (State.seqCheck_keeps ?_) (by assumption)
    | apply State.count_keeps
    | apply KeepsR.next
    | apply Keeps.ite
    | apply Keeps.foldl
    | apply Keeps.foldlFst
    | exact KeepsO.none
    | apply KeepsO.some
    | dsimp only
    | fail_if_no_progress refine Keeps.lit ?_ rfl rfl rfl rfl rfl rfl rfl rfl rfl
    | refine Keeps.ofFst (Keeps.foldlFst ?_ ?_) (by assumption)
    | split

theorem State.startEncode_keeps {z : State} {s : State} {k : Nat} {n : Nat} {x : Stream} {e : List Nat} {idx : Nat} (hs : Keeps z s) : Keeps z (State.startEncode s k n x e idx) := by
  unfold State.startEncode
  with_reducible repeat' first
    | assumption
    | intro y
    | apply State.setStream_keeps
    | apply State.engTakes_keeps
    | refine Keeps.ofFst (State.engTakes_keeps ?_) (by assumption)
    | apply KeepsR.next
    | apply Keeps.ite
    | apply Keeps.foldl
    | apply Keeps.foldlFst
    | exact KeepsO.none
    | apply KeepsO.some
    | dsimp only
    | fail_if_no_progress refine Keeps.lit ?_ rfl rfl rfl rfl rfl rfl rfl rfl rfl
    | refine Keeps.ofFst (Keeps.foldlFst ?_ ?_) (by assumption)
    | split

theorem State.streamCommand_keeps {z : State} {s : State} {fn : Nat} {tag : Nat} {op : Nat} {n : Nat} {close : Bool} {body : State → Stream → State} (hs : Keeps z s) (hbody : ∀ y0 y1, Keeps z y0 → Keeps z (body y0 y1)) : Keeps z (State.streamCommand s fn tag op n close body) := by
  unfold State.streamCommand
  with_reducible repeat' first
    | assumption
    | intro y
    | apply State.command_keeps
    | apply State.respond_keeps
    | apply hbody
    | apply KeepsR.next
    | apply Keeps.ite
    | apply Keeps.foldl
    | apply Keeps.foldlFst
    | exact KeepsO.none
    | apply KeepsO.some
    | dsimp only
    | fail_if_no_progress refine Keeps.lit ?_ rfl rfl rfl rfl rfl rfl rfl rfl rfl
    | refine Keeps.ofFst (Keeps.foldlFst ?_ ?_) (by assumption)
    | split

theorem execCodecClose_keeps {z : State} {fn : Fin 32} {tag : Nat} {stream : Nat} {s : State} (hs : Keeps z s) : KeepsR z (execCodecClose fn tag stream s) := by
  unfold execCodecClose
  with_reducible repeat' first
    | assumption
    | intro y
    | apply State.setStream_keeps
    | apply State.streamCommand_keeps
    | apply State.settleStream_keeps
    | apply State.hold_keeps
    | apply KeepsR.next

theorem execCodecFlush_keeps {z : State} {fn : Fin 32} {tag : Nat} {stream : Nat} {s : State} (hs : Keeps z s) : KeepsR z (execCodecFlush fn tag stream s) := by
  unfold execCodecFlush
  with_reducible repeat' first
    | assumption
    | intro y
    | apply State.setStream_keeps
    | apply State.streamCommand_keeps
    | apply State.settleStream_keeps
    | apply State.hold_keeps
    | apply KeepsR.next

theorem execCodecKeyreq_keeps {z : State} {fn : Fin 32} {tag : Nat} {stream : Nat} {s : State} (hs : Keeps z s) : KeepsR z (execCodecKeyreq fn tag stream s) := by
  unfold execCodecKeyreq
  with_reducible repeat' first
    | assumption
    | intro y
    | apply State.setStream_keeps
    | apply State.streamCommand_keeps
    | apply State.respond_keeps
    | apply KeepsR.next
    | apply Keeps.ite

theorem execCodecOpen_keeps {z : State} {fn : Fin 32} {tag : Nat} {ctx : Fin 1024} {desc : Nat} {s : State} (hs : Keeps z s) : KeepsR z (execCodecOpen fn tag ctx desc s) := by
  unfold execCodecOpen
  with_reducible repeat' first
    | assumption
    | intro y
    | apply State.command_keeps
    | apply State.hubRead_keeps
    | refine Keeps.ofFst (State.hubRead_keeps ?_) (by assumption)
    | apply State.setStream_keeps
    | apply State.showSched_keeps
    | apply State.respond_keeps
    | apply State.count_keeps
    | apply KeepsR.next
    | apply Keeps.ite
    | apply Keeps.foldl
    | apply Keeps.foldlFst
    | exact KeepsO.none
    | apply KeepsO.some
    | dsimp only
    | fail_if_no_progress refine Keeps.lit ?_ rfl rfl rfl rfl rfl rfl rfl rfl rfl
    | refine Keeps.ofFst (Keeps.foldlFst ?_ ?_) (by assumption)
    | split

theorem execCodecRcSet_keeps {z : State} {fn : Fin 32} {tag : Nat} {stream : Nat} {desc : Nat} {s : State} (hs : Keeps z s) : KeepsR z (execCodecRcSet fn tag stream desc s) := by
  unfold execCodecRcSet
  with_reducible repeat' first
    | assumption
    | intro y
    | apply State.hubRead_keeps
    | refine Keeps.ofFst (State.hubRead_keeps ?_) (by assumption)
    | apply State.setStream_keeps
    | apply State.streamCommand_keeps
    | apply State.respond_keeps
    | apply KeepsR.next
    | apply Keeps.ite
    | apply Keeps.foldl
    | apply Keeps.foldlFst
    | exact KeepsO.none
    | apply KeepsO.some
    | dsimp only
    | fail_if_no_progress refine Keeps.lit ?_ rfl rfl rfl rfl rfl rfl rfl rfl rfl
    | refine Keeps.ofFst (Keeps.foldlFst ?_ ?_) (by assumption)
    | split

theorem execCodecRingPoll_keeps {z : State} {stream : Nat} {s : State} (hs : Keeps z s) : KeepsR z (execCodecRingPoll stream s) := by
  unfold execCodecRingPoll
  with_reducible repeat' first
    | assumption
    | intro y
    | apply State.afterPoll_keeps
    | apply State.readIndexes_keeps
    | apply KeepsR.next
    | apply Keeps.ite
    | apply Keeps.foldl
    | apply Keeps.foldlFst
    | exact KeepsO.none
    | apply KeepsO.some
    | dsimp only
    | fail_if_no_progress refine Keeps.lit ?_ rfl rfl rfl rfl rfl rfl rfl rfl rfl
    | refine Keeps.ofFst (Keeps.foldlFst ?_ ?_) (by assumption)
    | split

theorem execOverloadEnter_keeps {z : State} {s : State} (hs : Keeps z s) : KeepsR z (execOverloadEnter s) := by
  unfold execOverloadEnter
  with_reducible repeat' first
    | assumption
    | intro y
    | apply State.wr_keeps
    | apply State.raise_keeps
    | apply State.count_keeps
    | apply KeepsR.next
    | apply Keeps.ite
    | apply Keeps.foldl
    | apply Keeps.foldlFst
    | exact KeepsO.none
    | apply KeepsO.some
    | dsimp only
    | fail_if_no_progress refine Keeps.lit ?_ rfl rfl rfl rfl rfl rfl rfl rfl rfl

theorem execOverloadExit_keeps {z : State} {s : State} (hs : Keeps z s) : KeepsR z (execOverloadExit s) := by
  unfold execOverloadExit
  with_reducible repeat' first
    | assumption
    | intro y
    | apply State.wr_keeps
    | apply State.raise_keeps
    | apply State.showSched_keeps
    | apply KeepsR.next
    | apply Keeps.ite

theorem execPictureDone_keeps {z : State} {eng : Fin 4} {out : PicOut} {s : State} (hs : Keeps z s) : KeepsR z (execPictureDone eng out s) := by
  unfold execPictureDone
  with_reducible repeat' first
    | assumption
    | intro y
    | apply State.afterPoll_keeps
    | apply State.setStream_keeps
    | apply State.raise_keeps
    | apply State.doneEncode_keeps
    | apply State.doneDecode_keeps
    | apply State.count_keeps
    | apply State.noteDetected_keeps
    | apply State.readIndexes_keeps
    | apply KeepsR.next
    | apply Keeps.ite
    | apply Keeps.foldl
    | apply Keeps.foldlFst
    | exact KeepsO.none
    | apply KeepsO.some
    | dsimp only
    | fail_if_no_progress refine Keeps.lit ?_ rfl rfl rfl rfl rfl rfl rfl rfl rfl
    | refine Keeps.ofFst (Keeps.foldlFst ?_ ?_) (by assumption)
    | split

theorem execPictureStart_keeps {z : State} {eng : Fin 4} {syn : PicSyntax} {s : State} (hs : Keeps z s) : KeepsR z (execPictureStart eng syn s) := by
  unfold execPictureStart
  with_reducible repeat' first
    | assumption
    | intro y
    | apply State.pushRecord_keeps
    | apply State.startDecode_keeps
    | apply State.takeEntry_keeps
    | refine Keeps.ofFst (State.takeEntry_keeps ?_) (by assumption)
    | apply State.setStream_keeps
    | apply State.engTakes_keeps
    | refine Keeps.ofFst (State.engTakes_keeps ?_) (by assumption)
    | apply State.settleStream_keeps
    | apply State.startEncode_keeps
    | apply State.count_keeps
    | apply State.readIndexes_keeps
    | apply KeepsR.next
    | apply Keeps.ite
    | apply Keeps.foldl
    | apply Keeps.foldlFst
    | exact KeepsO.none
    | apply KeepsO.some
    | dsimp only
    | fail_if_no_progress refine Keeps.lit ?_ rfl rfl rfl rfl rfl rfl rfl rfl rfl
    | refine Keeps.ofFst (Keeps.foldlFst ?_ ?_) (by assumption)
    | split

end Sys2Proof.Machine
end

