-- ==== Sys2Proof/Laws/KeepsIntake.lean ====
section
/-! SUPPORT. Every operation of `Machine/Intake.lean` keeps the queue, the variant, the clock and the canonical stores. -/

namespace Sys2Proof.Machine

theorem State.nextSeq_keeps {z : State} {s : State} {c : Nat} {dir : Nat} (hs : Keeps z s) : Keeps z (State.nextSeq s c dir) := by
  unfold State.nextSeq
  with_reducible repeat' first
    | assumption
    | intro y
    | apply KeepsR.next
    | apply Keeps.ite
    | apply Keeps.foldl
    | apply Keeps.foldlFst
    | exact KeepsO.none
    | apply KeepsO.some
    | dsimp only
    | fail_if_no_progress refine Keeps.lit ?_ rfl rfl rfl rfl rfl rfl rfl rfl rfl

theorem State.acceptRecord_keeps {z : State} {s : State} {c : Nat} {addr : Nat} {len : Nat} {ok : Bool} (hs : Keeps z s) : KeepsO z (State.acceptRecord s c addr len ok) := by
  unfold State.acceptRecord
  with_reducible repeat' first
    | assumption
    | intro y
    | apply State.nextSeq_keeps
    | apply KeepsR.next
    | apply Keeps.ite
    | apply Keeps.foldl
    | apply Keeps.foldlFst
    | exact KeepsO.none
    | apply KeepsO.some
    | dsimp only
    | fail_if_no_progress refine Keeps.lit ?_ rfl rfl rfl rfl rfl rfl rfl rfl rfl
    | refine Keeps.ofFst (Keeps.foldlFst ?_ ?_) (by assumption)
    | split

theorem State.cancelCookie_keeps {z : State} {s : State} {c : Nat} {cookie : Nat} (hs : Keeps z s) : Keeps z (State.cancelCookie s c cookie) := by
  unfold State.cancelCookie
  with_reducible repeat' first
    | assumption
    | intro y
    | apply State.cancelRq_keeps
    | apply State.count_keeps
    | apply KeepsR.next
    | apply Keeps.ite
    | apply Keeps.foldl

theorem State.setRing_keeps {z : State} {s : State} {id : Nat} {r : Ring} (hs : Keeps z s) : Keeps z (State.setRing s id r) := by
  unfold State.setRing
  with_reducible repeat' first
    | assumption
    | intro y
    | apply KeepsR.next
    | apply Keeps.ite
    | apply Keeps.foldl
    | apply Keeps.foldlFst
    | exact KeepsO.none
    | apply KeepsO.some
    | dsimp only
    | fail_if_no_progress refine Keeps.lit ?_ rfl rfl rfl rfl rfl rfl rfl rfl rfl

theorem State.coalesce_keeps {z : State} {s : State} {id : Nat} (hs : Keeps z s) : Keeps z (State.coalesce s id) := by
  unfold State.coalesce
  with_reducible repeat' first
    | assumption
    | intro y
    | apply State.setRing_keeps
    | apply State.msix_keeps
    | apply KeepsR.next
    | apply Keeps.ite
    | apply Keeps.foldl
    | apply Keeps.foldlFst
    | exact KeepsO.none
    | apply KeepsO.some
    | dsimp only
    | fail_if_no_progress refine Keeps.lit ?_ rfl rfl rfl rfl rfl rfl rfl rfl rfl
    | refine Keeps.ofFst (Keeps.foldlFst ?_ ?_) (by assumption)
    | split

theorem State.complGone_keeps {z : State} {s : State} {c : Compl} (hs : Keeps z s) : Keeps z (State.complGone s c) := by
  unfold State.complGone
  with_reducible repeat' first
    | assumption
    | intro y
    | apply State.showRqt_keeps
    | apply KeepsR.next
    | apply Keeps.ite
    | apply Keeps.foldl
    | apply Keeps.foldlFst
    | exact KeepsO.none
    | apply KeepsO.some
    | dsimp only
    | fail_if_no_progress refine Keeps.lit ?_ rfl rfl rfl rfl rfl rfl rfl rfl rfl
    | refine Keeps.ofFst (Keeps.foldlFst ?_ ?_) (by assumption)
    | split

theorem State.countCompl_keeps {z : State} {s : State} {c : Compl} {late : Bool} (hs : Keeps z s) : Keeps z (State.countCompl s c late) := by
  unfold State.countCompl
  with_reducible repeat' first
    | assumption
    | intro y
    | apply State.modRq_keeps
    | apply State.count_keeps
    | apply KeepsR.next
    | apply Keeps.ite
    | apply Keeps.foldl
    | apply Keeps.foldlFst
    | exact KeepsO.none
    | apply KeepsO.some
    | dsimp only
    | fail_if_no_progress refine Keeps.lit ?_ rfl rfl rfl rfl rfl rfl rfl rfl rfl
    | refine Keeps.ofFst (Keeps.foldlFst ?_ ?_) (by assumption)
    | split

theorem State.modRing_keeps {z : State} {s : State} {id : Nat} {f : Ring → Ring} (hs : Keeps z s) : Keeps z (State.modRing s id f) := by
  unfold State.modRing
  with_reducible repeat' first
    | assumption
    | intro y
    | apply KeepsR.next
    | apply Keeps.ite
    | apply Keeps.foldl
    | apply Keeps.foldlFst
    | exact KeepsO.none
    | apply KeepsO.some
    | dsimp only
    | fail_if_no_progress refine Keeps.lit ?_ rfl rfl rfl rfl rfl rfl rfl rfl rfl

theorem State.faultRing_keeps {z : State} {s : State} {id : Nat} (hs : Keeps z s) : Keeps z (State.faultRing s id) := by
  unfold State.faultRing
  with_reducible repeat' first
    | assumption
    | intro y
    | apply State.ctxNoteQ_keeps
    | apply State.raise_keeps
    | apply State.modRing_keeps

theorem State.hostPut_keeps {z : State} {s : State} {a : Nat} {bs : List Nat} (hs : Keeps z s) : Keeps z (State.hostPut s a bs) :=
  hs.of rfl rfl rfl fun c => ⟨c.vstore, c.fstore, c.mem, wf_bputList c.host _ _, c.regs, c.ctrs⟩

theorem State.readProd_keeps {z : State} {s : State} {id : Nat} {r : Ring} {inp : IntakeIn} (hs : Keeps z s) : Keeps z (State.readProd s id r inp).1 := by
  unfold State.readProd
  with_reducible repeat' first
    | assumption
    | intro y
    | apply State.raise_keeps
    | apply State.count_keeps
    | apply State.faultRing_keeps
    | apply State.modRing_keeps
    | apply KeepsR.next
    | apply Keeps.ite
    | apply Keeps.foldl
    | apply Keeps.foldlFst
    | exact KeepsO.none
    | apply KeepsO.some
    | dsimp only
    | fail_if_no_progress refine Keeps.lit ?_ rfl rfl rfl rfl rfl rfl rfl rfl rfl
    | refine Keeps.ofFst (Keeps.foldlFst ?_ ?_) (by assumption)
    | split

theorem State.readRing_keeps {z : State} {s : State} {id : Nat} {most : Nat} {inp : IntakeIn} {take : State → Ring → Nat → State} (hs : Keeps z s) (htake : ∀ y0 y1 y2, Keeps z y0 → Keeps z (take y0 y1 y2)) : Keeps z (State.readRing s id most inp take) := by
  unfold State.readRing
  with_reducible repeat' first
    | assumption
    | intro y
    | apply State.readProd_keeps
    | refine Keeps.ofFst (State.readProd_keeps ?_) (by assumption)
    | apply State.moved_keeps
    | apply State.hostWrite_keeps
    | apply State.modRing_keeps
    | apply htake
    | apply KeepsR.next
    | apply Keeps.ite
    | apply Keeps.foldl
    | apply Keeps.foldlFst
    | exact KeepsO.none
    | apply KeepsO.some
    | dsimp only
    | fail_if_no_progress refine Keeps.lit ?_ rfl rfl rfl rfl rfl rfl rfl rfl rfl
    | refine Keeps.ofFst (Keeps.foldlFst ?_ ?_) (by assumption)
    | split

theorem State.refuseEntry_keeps {z : State} {s : State} {id : Nat} {r : Ring} {status : Nat} {ending : Nat} {cookie : Nat} {hint : Nat} (hs : Keeps z s) : Keeps z (State.refuseEntry s id r status ending cookie hint) := by
  unfold State.refuseEntry
  with_reducible repeat' first
    | assumption
    | intro y
    | apply State.count_keeps
    | apply KeepsR.next
    | apply Keeps.ite
    | apply Keeps.foldl
    | apply Keeps.foldlFst
    | exact KeepsO.none
    | apply KeepsO.some
    | dsimp only
    | fail_if_no_progress refine Keeps.lit ?_ rfl rfl rfl rfl rfl rfl rfl rfl rfl

theorem State.lastReads_keeps {z : State} {s : State} {c : Nat} {inp : IntakeIn} (hs : Keeps z s) : Keeps z (State.lastReads s c inp) := by
  unfold State.lastReads
  with_reducible repeat' first
    | assumption
    | intro y
    | apply State.readRing_keeps
    | apply State.refuseEntry_keeps
    | apply State.cancelCookie_keeps
    | apply State.count_keeps
    | apply State.modRing_keeps
    | apply KeepsR.next
    | apply Keeps.ite
    | apply Keeps.foldl

theorem State.placeEntry_keeps {z : State} {s : State} {id : Nat} {r : Ring} {e : InEntry} {prompt : List Nat} (hs : Keeps z s) : Keeps z (State.placeEntry s id r e prompt) := by
  unfold State.placeEntry
  extract_lets +onlyGivenNames c
  split
  · exact State.raise_keeps (State.refuseEntry_keeps hs)
  · have h := State.hubRead_keeps (c := c) (va := s.fieldVa e.headVa 12) (n := 4) (o := {}) (step := none) hs
    rcases hp : s.hubRead c (s.fieldVa e.headVa 12) 4 with ⟨s1, b⟩
    rw [hp] at h
    clear hp
    dsimp -zeta only
    extract_lets +onlyGivenNames s2 x
    have h2 : Keeps z s2 := by
      unfold s2
      split
      · exact State.tableWrite_keeps h
      · exact h
    obtain ⟨t, ht⟩ : ∃ t, t = s2 := ⟨_, rfl⟩
    rw [← ht] at h2 ⊢
    clear ht
    exact State.showRqt_keeps (Keeps.lit h2 rfl rfl rfl rfl rfl rfl rfl rfl rfl)

theorem State.readPrompt_keeps {z : State} {s : State} {c : Nat} {e : InEntry} {x : EntryIn} (hs : Keeps z s) : Keeps z (State.readPrompt s c e x).1 := by
  unfold State.readPrompt
  with_reducible repeat' first
    | assumption
    | intro y
    | apply State.acceptRecord_keeps
    | refine KeepsO.keeps (State.acceptRecord_keeps ?_) _ (by assumption)
    | apply State.moved_keeps
    | apply State.raise_keeps
    | apply State.count_keeps
    | apply KeepsR.next
    | apply Keeps.ite
    | apply Keeps.foldl
    | apply Keeps.foldlFst
    | exact KeepsO.none
    | apply KeepsO.some
    | dsimp only
    | fail_if_no_progress refine Keeps.lit ?_ rfl rfl rfl rfl rfl rfl rfl rfl rfl
    | refine Keeps.ofFst (Keeps.foldlFst ?_ ?_) (by assumption)
    | split

theorem State.takeIntake_keeps {z : State} {s : State} {id : Nat} {r : Ring} {pos : Nat} {inp : IntakeIn} (hs : Keeps z s) : Keeps z (State.takeIntake s id r pos inp) := by
  unfold State.takeIntake
  with_reducible repeat' first
    | assumption
    | intro y
    | apply State.placeEntry_keeps
    | apply State.refuseEntry_keeps
    | apply State.cancelCookie_keeps
    | apply State.readPrompt_keeps
    | refine Keeps.ofFst (State.readPrompt_keeps ?_) (by assumption)
    | apply State.count_keeps
    | apply KeepsR.next
    | apply Keeps.ite
    | apply Keeps.foldl
    | apply Keeps.foldlFst
    | exact KeepsO.none
    | apply KeepsO.some
    | dsimp only
    | fail_if_no_progress refine Keeps.lit ?_ rfl rfl rfl rfl rfl rfl rfl rfl rfl
    | refine Keeps.ofFst (Keeps.foldlFst ?_ ?_) (by assumption)
    | split

theorem State.readRings_keeps {z : State} {s : State} {classes : List Nat} {inp : IntakeIn} (hs : Keeps z s) : Keeps z (State.readRings s classes inp) := by
  unfold State.readRings
  with_reducible repeat' first
    | assumption
    | intro y
    | apply State.readRing_keeps
    | apply State.takeIntake_keeps
    | apply KeepsR.next
    | apply Keeps.ite
    | apply Keeps.foldl

theorem State.putTokens_keeps {z : State} {s : State} {ctx : Nat} {c : Compl} (hs : Keeps z s) : Keeps z (State.putTokens s ctx c) := by
  unfold State.putTokens
  with_reducible repeat' first
    | assumption
    | intro y
    | apply State.hostPut_keeps
    | apply State.moved_keeps
    | apply State.nextSeq_keeps
    | apply KeepsR.next
    | apply Keeps.ite

theorem State.readCons_keeps {z : State} {s : State} {id : Nat} {r : Ring} (hs : Keeps z s) : Keeps z (State.readCons s id r) := by
  unfold State.readCons
  with_reducible repeat' first
    | assumption
    | intro y
    | apply State.setRing_keeps
    | apply State.faultRing_keeps
    | apply KeepsR.next
    | apply Keeps.ite

theorem State.settleBad_keeps {z : State} {s : State} {fn : Nat} {x2 : Nat} (hs : Keeps z s) : Keeps z (State.settleBad s fn x2) := by
  induction x2 generalizing s with
  | zero => exact hs
  | succ k ih =>
    unfold State.settleBad
    with_reducible repeat' first
      | assumption
      | intro y
      | apply ih
      | apply State.respond_keeps
      | apply KeepsO.mapK
      | apply KeepsO.foldl
      | refine KeepsO.keeps (KeepsO.some ?_) _ (by assumption)
      | apply KeepsR.next
      | apply Keeps.ite
      | apply Keeps.foldl
      | apply Keeps.foldlFst
      | exact KeepsO.none
      | apply KeepsO.some
      | dsimp only
      | fail_if_no_progress refine Keeps.lit ?_ rfl rfl rfl rfl rfl rfl rfl rfl rfl
      | refine Keeps.ofFst (Keeps.foldlFst ?_ ?_) (by assumption)
      | split

theorem State.showRings_keeps {z : State} {s : State} (hs : Keeps z s) : Keeps z (State.showRings s) := by
  unfold State.showRings
  with_reducible repeat' first
    | assumption
    | intro y
    | apply State.wr_keeps

theorem State.unbind_keeps {z : State} {s : State} {c : Nat} (hs : Keeps z s) : Keeps z (State.unbind s c) := by
  unfold State.unbind
  with_reducible repeat' first
    | assumption
    | intro y
    | apply State.wri_keeps
    | apply State.setCtxField_keeps
    | apply KeepsR.next
    | apply Keeps.ite
    | apply Keeps.foldl
    | apply Keeps.foldlFst
    | exact KeepsO.none
    | apply KeepsO.some
    | dsimp only
    | fail_if_no_progress refine Keeps.lit ?_ rfl rfl rfl rfl rfl rfl rfl rfl rfl
    | refine Keeps.ofFst (Keeps.foldlFst ?_ ?_) (by assumption)
    | split

theorem State.writeCompl_keeps {z : State} {s : State} {r : Ring} {c0 : Compl} (hs : Keeps z s) : Keeps z (State.writeCompl s r c0) := by
  unfold State.writeCompl
  with_reducible repeat' first
    | assumption
    | intro y
    | apply State.modRq_keeps
    | apply State.hostPut_keeps
    | apply State.countCompl_keeps
    | apply State.complGone_keeps
    | apply State.putTokens_keeps
    | apply State.coalesce_keeps
    | apply State.settleResv_keeps
    | apply State.moved_keeps
    | apply State.hostWrite_keeps
    | apply State.count_keeps
    | apply State.showRqt_keeps
    | apply State.modRing_keeps
    | apply KeepsR.next
    | apply Keeps.ite
    | apply Keeps.foldl
    | apply Keeps.foldlFst
    | exact KeepsO.none
    | apply KeepsO.some
    | dsimp only
    | fail_if_no_progress refine Keeps.lit ?_ rfl rfl rfl rfl rfl rfl rfl rfl rfl
    | refine Keeps.ofFst (Keeps.foldlFst ?_ ?_) (by assumption)
    | split

theorem execCmdRingPoll_keeps {z : State} {fn : Fin 32} {ok : Bool} {s : State} (hs : Keeps z s) : KeepsR z (execCmdRingPoll fn ok s) := by
  unfold execCmdRingPoll
  with_reducible repeat' first
    | assumption
    | intro y
    | apply State.settleBad_keeps
    | apply State.moved_keeps
    | apply State.raise_keeps
    | apply State.hostWrite_keeps
    | apply State.count_keeps
    | apply KeepsR.next
    | apply Keeps.ite
    | apply Keeps.foldl
    | apply Keeps.foldlFst
    | exact KeepsO.none
    | apply KeepsO.some
    | dsimp only
    | fail_if_no_progress refine Keeps.lit ?_ rfl rfl rfl rfl rfl rfl rfl rfl rfl

theorem execCommandResponse_keeps {z : State} {fn : Fin 32} {s : State} (hs : Keeps z s) : KeepsR z (execCommandResponse fn s) := by
  unfold execCommandResponse
  with_reducible repeat' first
    | assumption
    | intro y
    | apply State.settleBad_keeps
    | apply State.hostPut_keeps
    | apply State.moved_keeps
    | apply State.hostWrite_keeps
    | apply State.msix_keeps
    | apply KeepsR.next
    | apply Keeps.ite
    | apply Keeps.foldl
    | apply Keeps.foldlFst
    | exact KeepsO.none
    | apply KeepsO.some
    | dsimp only
    | fail_if_no_progress refine Keeps.lit ?_ rfl rfl rfl rfl rfl rfl rfl rfl rfl
    | refine Keeps.ofFst (Keeps.foldlFst ?_ ?_) (by assumption)
    | split

theorem execCompletionWrite_keeps {z : State} {s : State} (hs : Keeps z s) : KeepsR z (execCompletionWrite s) := by
  unfold execCompletionWrite
  apply KeepsR.next
  split
  · exact hs
  · split
    · exact hs
    · next c _ =>
      extract_lets +onlyGivenNames drop
      have hd : ∀ t, Keeps z t → Keeps z (drop t) := fun t h => Keeps.lit h rfl rfl rfl rfl rfl (by first | exact lpMem_mk .. | rfl) (by first | exact hostMem_mk .. | rfl) rfl rfl
      clear_value drop
      split
      · exact State.complGone_keeps (hd _ hs)
      · next r _ =>
        split
        · exact State.complGone_keeps (hd _ hs)
        · split
          · exact State.writeCompl_keeps (hd _ hs)
          · have h := State.readCons_keeps (id := c.ring) (r := r) hs
            extract_lets +onlyGivenNames s1
            change Keeps z s1 at h
            obtain ⟨t, ht⟩ : ∃ t, t = s1 := ⟨_, rfl⟩
            rw [← ht] at h ⊢
            clear ht
            split
            · exact h
            · split
              · exact State.complGone_keeps (hd _ h)
              · split
                · apply State.showRings_keeps
                  apply State.raise_keeps
                  exact Keeps.lit h rfl rfl rfl rfl rfl (by first | exact lpMem_mk .. | rfl) (by first | exact hostMem_mk .. | rfl) rfl rfl
                · exact State.writeCompl_keeps (hd _ h)

theorem execCqConsPoll_keeps {z : State} {ring : Nat} {s : State} (hs : Keeps z s) : KeepsR z (execCqConsPoll ring s) := by
  unfold execCqConsPoll
  apply KeepsR.next
  split
  · exact hs
  · next r _ =>
    split
    · exact hs
    · have h := State.readCons_keeps (id := ring) (r := r) hs
      extract_lets +onlyGivenNames s1
      change Keeps z s1 at h
      obtain ⟨t, ht⟩ : ∃ t, t = s1 := ⟨_, rfl⟩
      rw [← ht] at h ⊢
      clear ht
      apply State.showRings_keeps
      exact Keeps.lit h rfl rfl rfl rfl rfl (by first | exact lpMem_mk .. | rfl) (by first | exact hostMem_mk .. | rfl) rfl rfl

theorem execCtxBind_keeps {z : State} {fn : Fin 32} {tag : Nat} {ctx : Fin 1024} {func : Nat} {slot : Nat} {s : State} (hs : Keeps z s) : KeepsR z (execCtxBind fn tag ctx func slot s) := by
  unfold execCtxBind
  with_reducible repeat' first
    | assumption
    | intro y
    | apply State.command_keeps
    | apply State.wri_keeps
    | apply State.edges_keeps
    | apply State.setCtxField_keeps
    | apply State.respond_keeps
    | apply KeepsR.next
    | apply Keeps.ite

theorem execCtxUnbind_keeps {z : State} {fn : Fin 32} {tag : Nat} {ctx : Fin 1024} {s : State} (hs : Keeps z s) : KeepsR z (execCtxUnbind fn tag ctx s) := by
  unfold execCtxUnbind
  with_reducible repeat' first
    | assumption
    | intro y
    | apply State.unbind_keeps
    | apply State.command_keeps
    | apply State.respond_keeps
    | apply KeepsR.next
    | apply Keeps.ite

theorem execMsixItimeExpire_keeps {z : State} {ring : Nat} {s : State} (hs : Keeps z s) : KeepsR z (execMsixItimeExpire ring s) := by
  unfold execMsixItimeExpire
  with_reducible repeat' first
    | assumption
    | intro y
    | apply State.setRing_keeps
    | apply State.msix_keeps
    | apply KeepsR.next
    | apply Keeps.ite
    | apply Keeps.foldl
    | apply Keeps.foldlFst
    | exact KeepsO.none
    | apply KeepsO.some
    | dsimp only
    | fail_if_no_progress refine Keeps.lit ?_ rfl rfl rfl rfl rfl rfl rfl rfl rfl
    | refine Keeps.ofFst (Keeps.foldlFst ?_ ?_) (by assumption)
    | split

theorem execRingCreate_keeps {z : State} {fn : Fin 32} {tag : Nat} {ctx : Fin 1024} {num : Nat} {addr : Nat} {log2 : Nat} {cq : Nat} {vec : Nat} {ithresh : Nat} {itimeUs : Nat} {s : State} (hs : Keeps z s) : KeepsR z (execRingCreate fn tag ctx num addr log2 cq vec ithresh itimeUs s) := by
  unfold execRingCreate
  with_reducible repeat' first
    | assumption
    | intro y
    | apply State.command_keeps
    | apply State.setRing_keeps
    | apply State.respond_keeps
    | apply State.showRings_keeps
    | apply KeepsR.next
    | apply Keeps.ite

theorem execRingDestroy_keeps {z : State} {fn : Fin 32} {tag : Nat} {ctx : Fin 1024} {num : Nat} {s : State} (hs : Keeps z s) : KeepsR z (execRingDestroy fn tag ctx num s) := by
  unfold execRingDestroy
  with_reducible repeat' first
    | assumption
    | intro y
    | apply State.command_keeps
    | apply State.respond_keeps
    | apply State.showRings_keeps
    | apply KeepsR.next
    | apply Keeps.ite
    | apply Keeps.foldl
    | apply Keeps.foldlFst
    | exact KeepsO.none
    | apply KeepsO.some
    | dsimp only
    | fail_if_no_progress refine Keeps.lit ?_ rfl rfl rfl rfl rfl rfl rfl rfl rfl

end Sys2Proof.Machine
end

