-- ==== Sys2Proof/Laws/KeepsHostLink.lean ====
section
/-! SUPPORT. Every operation of `Machine/HostLink.lean` keeps the queue, the variant, the clock and the canonical stores. -/

namespace Sys2Proof.Machine

theorem State.dropLink_keeps {z : State} {s : State} (hs : Keeps z s) : Keeps z (State.dropLink s) := by
  unfold State.dropLink
  with_reducible repeat' first
    | assumption
    | intro y
    | apply State.wr_keeps
    | apply State.raise_keeps
    | apply KeepsR.next
    | apply Keeps.ite

theorem State.unmask_keeps {z : State} {s : State} {fn : Nat} {vec : Nat} (hs : Keeps z s) : Keeps z (State.unmask s fn vec) := by
  unfold State.unmask
  with_reducible repeat' first
    | assumption
    | intro y
    | apply State.msix_keeps
    | apply KeepsR.next
    | apply Keeps.ite
    | apply Keeps.foldl
    | apply Keeps.foldlFst
    | exact KeepsO.none
    | apply KeepsO.some
    | dsimp only
    | fail_if_no_progress refine Keeps.lit ?_ rfl rfl rfl rfl rfl rfl rfl rfl rfl

theorem State.msixPut_keeps {z : State} {s : State} {fn : Nat} {off : Nat} {b : Byte} (hs : Keeps z s) : Keeps z (State.msixPut s fn off b) := by
  unfold State.msixPut
  with_reducible repeat' first
    | assumption
    | intro y
    | apply State.unmask_keeps
    | apply KeepsR.next
    | apply Keeps.ite
    | apply Keeps.foldl
    | apply Keeps.foldlFst
    | exact KeepsO.none
    | apply KeepsO.some
    | dsimp only
    | fail_if_no_progress refine Keeps.lit ?_ rfl rfl rfl rfl rfl rfl rfl rfl rfl

theorem State.windowRead_keeps {z : State} {s : State} {c : Nat} {va : Nat} {n : Nat} {o : LineOut} (hs : Keeps z s) : Keeps z (State.windowRead s c va n o).1 := by
  unfold State.windowRead
  with_reducible repeat' first
    | assumption
    | intro y
    | apply State.ctxRead_keeps
    | refine Keeps.ofFst (State.ctxRead_keeps ?_) (by assumption)
    | apply KeepsR.next
    | apply Keeps.ite
    | apply Keeps.foldl
    | apply Keeps.foldlFst

theorem execAtsTranslationRequest_keeps {z : State} {fn : Fin 32} {s : State} (hs : Keeps z s) : KeepsR z (execAtsTranslationRequest fn s) := by
  unfold execAtsTranslationRequest
  with_reducible repeat' first
    | assumption
    | intro y
    | apply KeepsR.next
    | apply Keeps.ite
    | apply Keeps.foldl
    | apply Keeps.foldlFst
    | exact KeepsO.none
    | apply KeepsO.some
    | dsimp only
    | fail_if_no_progress refine Keeps.lit ?_ rfl rfl rfl rfl rfl rfl rfl rfl rfl

theorem execD3hotEntry_keeps {z : State} {s : State} (hs : Keeps z s) : KeepsR z (execD3hotEntry s) := by
  unfold execD3hotEntry
  with_reducible repeat' first
    | assumption
    | intro y
    | apply KeepsR.next
    | apply Keeps.ite
    | apply Keeps.foldl
    | apply Keeps.foldlFst
    | exact KeepsO.none
    | apply KeepsO.some
    | dsimp only
    | fail_if_no_progress refine Keeps.lit ?_ rfl rfl rfl rfl rfl rfl rfl rfl rfl

theorem execHostWindowRead_keeps {z : State} {fn : Fin 32} {off : Nat} {len : Nat} {o : LineOut} {s : State} (hs : Keeps z s) : KeepsR z (execHostWindowRead fn off len o s) := by
  unfold execHostWindowRead
  with_reducible repeat' first
    | assumption
    | intro y
    | apply State.windowRead_keeps
    | refine Keeps.ofFst (State.windowRead_keeps ?_) (by assumption)
    | apply State.count_keeps
    | apply KeepsR.next
    | apply Keeps.ite
    | apply Keeps.foldl
    | apply Keeps.foldlFst
    | exact KeepsO.none
    | apply KeepsO.some
    | dsimp only
    | fail_if_no_progress refine Keeps.lit ?_ rfl rfl rfl rfl rfl rfl rfl rfl rfl
    | refine Keeps.ofFst (Keeps.foldlFst ?_ ?_) (by assumption)
    | split

theorem execHostWindowWrite_keeps {z : State} {fn : Fin 32} {off : Nat} {data : List (Option Byte)} {o : LineOut} {s : State} (hs : Keeps z s) : KeepsR z (execHostWindowWrite fn off data o s) := by
  unfold execHostWindowWrite
  with_reducible repeat' first
    | assumption
    | intro y
    | apply State.msixPut_keeps
    | apply State.count_keeps
    | apply State.ctxWrite_keeps
    | refine Keeps.ofFst (State.ctxWrite_keeps ?_) (by assumption)
    | apply KeepsR.next
    | apply Keeps.ite
    | apply Keeps.foldl
    | apply Keeps.foldlFst
    | exact KeepsO.none
    | apply KeepsO.some
    | dsimp only
    | fail_if_no_progress refine Keeps.lit ?_ rfl rfl rfl rfl rfl rfl rfl rfl rfl
    | refine Keeps.ofFst (Keeps.foldlFst ?_ ?_) (by assumption)
    | split

theorem execMsixUnmask_keeps {z : State} {fn : Fin 32} {vec : Nat} {s : State} (hs : Keeps z s) : KeepsR z (execMsixUnmask fn vec s) := by
  unfold execMsixUnmask
  with_reducible repeat' first
    | assumption
    | intro y
    | apply State.unmask_keeps
    | apply KeepsR.next
    | apply Keeps.ite

theorem execPcieLinkDown_keeps {z : State} {s : State} (hs : Keeps z s) : KeepsR z (execPcieLinkDown s) := by
  unfold execPcieLinkDown
  with_reducible repeat' first
    | assumption
    | intro y
    | apply State.dropLink_keeps
    | apply KeepsR.next

theorem execPcieLinkUp_keeps {z : State} {speed : Fin 5} {s : State} (hs : Keeps z s) : KeepsR z (execPcieLinkUp speed s) := by
  unfold execPcieLinkUp
  with_reducible repeat' first
    | assumption
    | intro y
    | apply State.wr_keeps
    | apply State.raise_keeps
    | apply State.msix_keeps
    | apply KeepsR.next
    | apply Keeps.ite
    | apply Keeps.foldl
    | apply Keeps.foldlFst
    | exact KeepsO.none
    | apply KeepsO.some
    | dsimp only
    | fail_if_no_progress refine Keeps.lit ?_ rfl rfl rfl rfl rfl rfl rfl rfl rfl

theorem execWinRearm_keeps {z : State} {fn : Fin 32} {s : State} (hs : Keeps z s) : KeepsR z (execWinRearm fn s) := by
  unfold execWinRearm
  with_reducible repeat' first
    | assumption
    | intro y
    | apply State.msix_keeps
    | apply KeepsR.next
    | apply Keeps.ite

end Sys2Proof.Machine
end

