-- ==== Sys2Proof/Laws/KeepsKeg.lean ====
section
/-! SUPPORT. Every operation of `Machine/Keg.lean` keeps the queue, the variant, the clock and the canonical stores. -/

namespace Sys2Proof.Machine

theorem State.kegSend_keeps {z : State} {s : State} {l : Nat} {kind : Nat} {words : List Nat} (hs : Keeps z s) : Keeps z (State.kegSend s l kind words) := by
  unfold State.kegSend
  with_reducible repeat' first
    | assumption
    | intro y
    | apply State.count_keeps
    | apply KeepsR.next
    | apply Keeps.ite
    | apply Keeps.foldl
    | apply Keeps.foldlFst
    | exact KeepsO.none
    | apply KeepsO.some
    | dsimp only
    | fail_if_no_progress refine Keeps.lit ?_ rfl rfl rfl rfl rfl rfl rfl rfl rfl

theorem State.tellMembers_keeps {z : State} {s : State} {x : Job} {kind : Nat} {words : List Nat} (hs : Keeps z s) : Keeps z (State.tellMembers s x kind words) := by
  unfold State.tellMembers
  with_reducible repeat' first
    | assumption
    | intro y
    | apply State.kegSend_keeps
    | apply KeepsR.next
    | apply Keeps.ite
    | apply Keeps.foldl
    | apply Keeps.foldlFst
    | exact KeepsO.none
    | apply KeepsO.some
    | dsimp only
    | fail_if_no_progress refine Keeps.lit ?_ rfl rfl rfl rfl rfl rfl rfl rfl rfl
    | refine Keeps.ofFst (Keeps.foldlFst ?_ ?_) (by assumption)
    | split

theorem State.showJobs_keeps {z : State} {s : State} (hs : Keeps z s) : Keeps z (State.showJobs s) := by
  unfold State.showJobs
  with_reducible repeat' first
    | assumption
    | intro y
    | apply State.wr_keeps
    | apply KeepsR.next
    | apply Keeps.ite
    | apply Keeps.foldl

theorem State.setKegJob_keeps {z : State} {s : State} {j : Nat} {x : Job} (hs : Keeps z s) : Keeps z (State.setKegJob s j x) := by
  unfold State.setKegJob
  with_reducible repeat' first
    | assumption
    | intro y
    | apply KeepsR.next
    | apply Keeps.ite
    | apply Keeps.foldl
    | apply Keeps.foldlFst
    | exact KeepsO.none
    | apply KeepsO.some
    | dsimp only
    | fail_if_no_progress refine Keeps.lit ?_ rfl rfl rfl rfl rfl rfl rfl rfl rfl

theorem State.dropOps_keeps {z : State} {s : State} {p : CollOp → Bool} (hs : Keeps z s) : Keeps z (State.dropOps s p) := by
  unfold State.dropOps
  with_reducible repeat' first
    | assumption
    | intro y
    | apply KeepsR.next
    | apply Keeps.ite
    | apply Keeps.foldl
    | apply Keeps.foldlFst
    | exact KeepsO.none
    | apply KeepsO.some
    | dsimp only
    | fail_if_no_progress refine Keeps.lit ?_ rfl rfl rfl rfl rfl rfl rfl rfl rfl

theorem State.abortJob_keeps {z : State} {s : State} {j : Nat} {fence : optParam Bool false} {heard : optParam Bool false} (hs : Keeps z s) : Keeps z (State.abortJob s j fence heard) := by
  unfold State.abortJob
  with_reducible repeat' first
    | assumption
    | intro y
    | apply State.ctxCode_keeps
    | apply State.fresh_keeps
    | refine Keeps.ofFst (State.fresh_keeps ?_) (by assumption)
    | apply State.failStep_keeps
    | apply State.tellMembers_keeps
    | apply State.raise_keeps
    | apply State.showJobs_keeps
    | apply State.setKegJob_keeps
    | apply State.count_keeps
    | apply State.dropOps_keeps
    | apply KeepsR.next
    | apply Keeps.ite
    | apply Keeps.foldl
    | apply Keeps.foldlFst
    | exact KeepsO.none
    | apply KeepsO.some
    | dsimp only
    | fail_if_no_progress refine Keeps.lit ?_ rfl rfl rfl rfl rfl rfl rfl rfl rfl
    | refine Keeps.ofFst (Keeps.foldlFst ?_ ?_) (by assumption)
    | split

theorem State.abortJobs_keeps {z : State} {s : State} {p : Nat × Job → Bool} {fence : optParam Bool false} (hs : Keeps z s) : Keeps z (State.abortJobs s p fence) := by
  unfold State.abortJobs
  with_reducible repeat' first
    | assumption
    | intro y
    | apply State.abortJob_keeps
    | apply KeepsR.next
    | apply Keeps.ite
    | apply Keeps.foldl

theorem State.moveJobs_keeps {z : State} {s : State} {num : Nat} {members : Nat} (hs : Keeps z s) : Keeps z (State.moveJobs s num members) := by
  unfold State.moveJobs
  with_reducible repeat' first
    | assumption
    | intro y
    | apply State.abortJob_keeps
    | apply State.setKegJob_keeps
    | apply KeepsR.next
    | apply Keeps.ite
    | apply Keeps.foldl
    | apply Keeps.foldlFst
    | exact KeepsO.none
    | apply KeepsO.some
    | dsimp only
    | fail_if_no_progress refine Keeps.lit ?_ rfl rfl rfl rfl rfl rfl rfl rfl rfl

theorem State.showQuorum_keeps {z : State} {s : State} (hs : Keeps z s) : Keeps z (State.showQuorum s) := by
  unfold State.showQuorum
  with_reducible repeat' first
    | assumption
    | intro y
    | apply State.wr_keeps

theorem State.acceptEpoch_keeps {z : State} {s : State} {num : Nat} {members : Nat} (hs : Keeps z s) : Keeps z (State.acceptEpoch s num members) := by
  unfold State.acceptEpoch
  with_reducible repeat' first
    | assumption
    | intro y
    | apply State.moveJobs_keeps
    | apply State.wri_keeps
    | apply State.wr_keeps
    | apply State.showQuorum_keeps
    | apply State.raise_keeps
    | apply State.count_keeps
    | apply KeepsR.next
    | apply Keeps.ite
    | apply Keeps.foldl
    | apply Keeps.foldlFst
    | exact KeepsO.none
    | apply KeepsO.some
    | dsimp only
    | fail_if_no_progress refine Keeps.lit ?_ rfl rfl rfl rfl rfl rfl rfl rfl rfl

theorem State.setLink_keeps {z : State} {s : State} {l : Nat} {x : KegLink} (hs : Keeps z s) : Keeps z (State.setLink s l x) := by
  unfold State.setLink
  with_reducible repeat' first
    | assumption
    | intro y
    | apply KeepsR.next
    | apply Keeps.ite
    | apply Keeps.foldl
    | apply Keeps.foldlFst
    | exact KeepsO.none
    | apply KeepsO.some
    | dsimp only
    | fail_if_no_progress refine Keeps.lit ?_ rfl rfl rfl rfl rfl rfl rfl rfl rfl

theorem State.linkFell_keeps {z : State} {s : State} {l : Nat} (hs : Keeps z s) : Keeps z (State.linkFell s l) := by
  unfold State.linkFell
  with_reducible repeat' first
    | assumption
    | intro y
    | apply State.bump_keeps
    | apply State.wri_keeps
    | apply State.wr_keeps
    | apply State.abortJob_keeps
    | apply State.raise_keeps
    | apply State.showJobs_keeps
    | apply State.setLink_keeps
    | apply State.count_keeps
    | apply KeepsR.next
    | apply Keeps.ite
    | apply Keeps.foldl

theorem State.removeJob_keeps {z : State} {s : State} {j : Nat} (hs : Keeps z s) : Keeps z (State.removeJob s j) := by
  unfold State.removeJob
  with_reducible repeat' first
    | assumption
    | intro y
    | apply State.showJobs_keeps
    | apply State.dropOps_keeps
    | apply KeepsR.next
    | apply Keeps.ite
    | apply Keeps.foldl
    | apply Keeps.foldlFst
    | exact KeepsO.none
    | apply KeepsO.some
    | dsimp only
    | fail_if_no_progress refine Keeps.lit ?_ rfl rfl rfl rfl rfl rfl rfl rfl rfl

theorem State.fence_keeps {z : State} {s : State} (hs : Keeps z s) : Keeps z (State.fence s) := by
  unfold State.fence
  with_reducible repeat' first
    | assumption
    | intro y
    | apply State.abortJobs_keeps
    | apply State.wr_keeps
    | apply State.raise_keeps
    | apply State.count_keeps
    | apply KeepsR.next
    | apply Keeps.ite

theorem State.markQuorum_keeps {z : State} {s : State} (hs : Keeps z s) : Keeps z (State.markQuorum s) := by
  unfold State.markQuorum
  with_reducible repeat' first
    | assumption
    | intro y
    | apply State.raise_keeps
    | apply KeepsR.next
    | apply Keeps.ite
    | apply Keeps.foldl
    | apply Keeps.foldlFst
    | exact KeepsO.none
    | apply KeepsO.some
    | dsimp only
    | fail_if_no_progress refine Keeps.lit ?_ rfl rfl rfl rfl rfl rfl rfl rfl rfl

theorem State.offerEpoch_keeps {z : State} {s : State} {num : Nat} {members : Nat} (hs : Keeps z s) : Keeps z (State.offerEpoch s num members).1 := by
  unfold State.offerEpoch
  with_reducible repeat' first
    | assumption
    | intro y
    | apply State.raise_keeps
    | apply State.fence_keeps
    | apply State.acceptEpoch_keeps
    | apply State.count_keeps
    | apply KeepsR.next
    | apply Keeps.ite
    | apply Keeps.foldl
    | apply Keeps.foldlFst
    | exact KeepsO.none
    | apply KeepsO.some
    | dsimp only
    | fail_if_no_progress refine Keeps.lit ?_ rfl rfl rfl rfl rfl rfl rfl rfl rfl
    | refine Keeps.ofFst (Keeps.foldlFst ?_ ?_) (by assumption)
    | split

theorem State.remoteFault_keeps {z : State} {s : State} {c : Nat} {va : Nat} {code : Nat} {step : Option Nat} (hs : Keeps z s) : Keeps z (State.remoteFault s c va code step) := by
  unfold State.remoteFault
  with_reducible repeat' first
    | assumption
    | intro y
    | apply State.ctxEvent_keeps
    | apply State.failStep?_keeps
    | apply KeepsR.next
    | apply Keeps.ite
    | apply Keeps.foldl
    | apply Keeps.foldlFst
    | exact KeepsO.none
    | apply KeepsO.some
    | dsimp only
    | fail_if_no_progress refine Keeps.lit ?_ rfl rfl rfl rfl rfl rfl rfl rfl rfl

theorem State.setReach_keeps {z : State} {s : State} {m : Nat} (hs : Keeps z s) : Keeps z (State.setReach s m) := by
  unfold State.setReach
  with_reducible repeat' first
    | assumption
    | intro y
    | apply State.wri_keeps

theorem State.setIndex_keeps {z : State} {s : State} {v : Nat} (hs : Keeps z s) : Keeps z (State.setIndex s v) := by
  unfold State.setIndex
  with_reducible repeat' first
    | assumption
    | intro y
    | apply State.wr_keeps
    | apply State.showQuorum_keeps
    | apply State.setReach_keeps

theorem execAbortReceive_keeps {z : State} {link : Fin 8} {job : Nat} {s : State} (hs : Keeps z s) : KeepsR z (execAbortReceive link job s) := by
  unfold execAbortReceive
  with_reducible repeat' first
    | assumption
    | intro y
    | apply State.abortJob_keeps
    | apply KeepsR.next
    | apply Keeps.ite

theorem execBeaconReceive_keeps {z : State} {link : Fin 8} {authOk : Bool} {epoch : Word} {members : BitVec 64} {reach : BitVec 64} {s : State} (hs : Keeps z s) : KeepsR z (execBeaconReceive link authOk epoch members reach s) := by
  unfold execBeaconReceive
  with_reducible repeat' first
    | assumption
    | intro y
    | apply State.showQuorum_keeps
    | apply State.setReach_keeps
    | apply State.setLink_keeps
    | apply State.count_keeps
    | apply State.offerEpoch_keeps
    | refine Keeps.ofFst (State.offerEpoch_keeps ?_) (by assumption)
    | apply KeepsR.next
    | apply Keeps.ite
    | apply Keeps.foldl
    | apply Keeps.foldlFst
    | exact KeepsO.none
    | apply KeepsO.some
    | dsimp only
    | fail_if_no_progress refine Keeps.lit ?_ rfl rfl rfl rfl rfl rfl rfl rfl rfl

theorem execBeaconSend_keeps {z : State} {s : State} (hs : Keeps z s) : KeepsR z (execBeaconSend s) := by
  unfold execBeaconSend
  with_reducible repeat' first
    | assumption
    | intro y
    | apply State.kegSend_keeps
    | apply KeepsR.next
    | apply Keeps.ite
    | apply Keeps.foldl
    | apply Keeps.foldlFst
    | exact KeepsO.none
    | apply KeepsO.some
    | dsimp only
    | fail_if_no_progress refine Keeps.lit ?_ rfl rfl rfl rfl rfl rfl rfl rfl rfl

theorem execCabIndexWrite_keeps {z : State} {fn : Fin 32} {v : Word} {s : State} (hs : Keeps z s) : KeepsR z (execCabIndexWrite fn v s) := by
  unfold execCabIndexWrite
  with_reducible repeat' first
    | assumption
    | intro y
    | apply State.blockAction_keeps
    | apply State.accessErr_keeps
    | apply State.setIndex_keeps
    | apply KeepsR.next
    | apply Keeps.ite

theorem execFenceSelf_keeps {z : State} {s : State} (hs : Keeps z s) : KeepsR z (execFenceSelf s) := by
  unfold execFenceSelf
  with_reducible repeat' first
    | assumption
    | intro y
    | apply State.fence_keeps
    | apply KeepsR.next
    | apply Keeps.ite

theorem execJobCreate_keeps {z : State} {fn : Fin 32} {tag : Nat} {ctx : Fin 1024} {job : Word} {epoch : Word} {members : BitVec 64} {dieSet : Nat} {tableVa : Nat} {s : State} (hs : Keeps z s) : KeepsR z (execJobCreate fn tag ctx job epoch members dieSet tableVa s) := by
  unfold execJobCreate
  with_reducible repeat' first
    | assumption
    | intro y
    | apply State.command_keeps
    | apply State.hubRead_keeps
    | refine Keeps.ofFst (State.hubRead_keeps ?_) (by assumption)
    | apply State.respond_keeps
    | apply State.showJobs_keeps
    | apply State.setKegJob_keeps
    | apply KeepsR.next
    | apply Keeps.ite
    | apply Keeps.foldl
    | apply Keeps.foldlFst
    | exact KeepsO.none
    | apply KeepsO.some
    | dsimp only
    | fail_if_no_progress refine Keeps.lit ?_ rfl rfl rfl rfl rfl rfl rfl rfl rfl
    | refine Keeps.ofFst (Keeps.foldlFst ?_ ?_) (by assumption)
    | split

theorem execJobEnd_keeps {z : State} {fn : Fin 32} {tag : Nat} {job : Word} {s : State} (hs : Keeps z s) : KeepsR z (execJobEnd fn tag job s) := by
  unfold execJobEnd
  with_reducible repeat' first
    | assumption
    | intro y
    | apply State.command_keeps
    | apply State.respond_keeps
    | apply State.removeJob_keeps
    | apply KeepsR.next
    | apply Keeps.ite
    | apply Keeps.foldl
    | apply Keeps.foldlFst
    | exact KeepsO.none
    | apply KeepsO.some
    | dsimp only
    | fail_if_no_progress refine Keeps.lit ?_ rfl rfl rfl rfl rfl rfl rfl rfl rfl
    | refine Keeps.ofFst (Keeps.foldlFst ?_ ?_) (by assumption)
    | split

theorem execKegEpoch_keeps {z : State} {fn : Fin 32} {tag : Nat} {epoch : Word} {members : BitVec 64} {s : State} (hs : Keeps z s) : KeepsR z (execKegEpoch fn tag epoch members s) := by
  unfold execKegEpoch
  with_reducible repeat' first
    | assumption
    | intro y
    | apply State.command_keeps
    | apply State.respond_keeps
    | apply State.offerEpoch_keeps
    | refine Keeps.ofFst (State.offerEpoch_keeps ?_) (by assumption)
    | apply KeepsR.next

theorem execKegFlitReceive_keeps {z : State} {link : Fin 8} {ok : Bool} {s : State} (hs : Keeps z s) : KeepsR z (execKegFlitReceive link ok s) := by
  unfold execKegFlitReceive
  with_reducible repeat' first
    | assumption
    | intro y
    | apply State.linkFell_keeps
    | apply State.bump_keeps
    | apply State.setLink_keeps
    | apply State.count_keeps
    | apply KeepsR.next
    | apply Keeps.ite

theorem execKegLossTimeout_keeps {z : State} {link : Fin 8} {s : State} (hs : Keeps z s) : KeepsR z (execKegLossTimeout link s) := by
  unfold execKegLossTimeout
  with_reducible repeat' first
    | assumption
    | intro y
    | apply State.linkFell_keeps
    | apply KeepsR.next
    | apply Keeps.ite

theorem execKegRetrain_keeps {z : State} {fn : Fin 32} {tag : Nat} {link : Nat} {s : State} (hs : Keeps z s) : KeepsR z (execKegRetrain fn tag link s) := by
  unfold execKegRetrain
  with_reducible repeat' first
    | assumption
    | intro y
    | apply State.linkFell_keeps
    | apply State.command_keeps
    | apply State.wr_keeps
    | apply State.respond_keeps
    | apply KeepsR.next
    | apply Keeps.ite

theorem execKegTrainDone_keeps {z : State} {link : Fin 8} {peer : Option KegPeer} {s : State} (hs : Keeps z s) : KeepsR z (execKegTrainDone link peer s) := by
  unfold execKegTrainDone
  with_reducible repeat' first
    | assumption
    | intro y
    | apply State.wri_keeps
    | apply State.wr_keeps
    | apply State.showQuorum_keeps
    | apply State.raise_keeps
    | apply State.showJobs_keeps
    | apply State.setReach_keeps
    | apply State.setLink_keeps
    | apply KeepsR.next
    | apply Keeps.ite
    | apply Keeps.foldl
    | apply Keeps.foldlFst
    | exact KeepsO.none
    | apply KeepsO.some
    | dsimp only
    | fail_if_no_progress refine Keeps.lit ?_ rfl rfl rfl rfl rfl rfl rfl rfl rfl
    | refine Keeps.ofFst (Keeps.foldlFst ?_ ?_) (by assumption)
    | split

theorem execKegTrainStart_keeps {z : State} {link : Fin 8} {s : State} (hs : Keeps z s) : KeepsR z (execKegTrainStart link s) := by
  unfold execKegTrainStart
  with_reducible repeat' first
    | assumption
    | intro y
    | apply State.wr_keeps
    | apply KeepsR.next
    | apply Keeps.ite

theorem execReachExpire_keeps {z : State} {idx : Fin 64} {s : State} (hs : Keeps z s) : KeepsR z (execReachExpire idx s) := by
  unfold execReachExpire
  with_reducible repeat' first
    | assumption
    | intro y
    | apply State.abortJobs_keeps
    | apply State.showQuorum_keeps
    | apply State.setReach_keeps
    | apply KeepsR.next
    | apply Keeps.ite

theorem execRemoteAccess_keeps {z : State} {incoming : Bool} {job : Nat} {ctx : Fin 1024} {va : Nat} {data : Option (List Byte)} {step : Option Nat} {back : RemoteOut} {o : LineOut} {s : State} (hs : Keeps z s) : KeepsR z (execRemoteAccess incoming job ctx va data step back o s) := by
  unfold execRemoteAccess
  with_reducible repeat' first
    | assumption
    | intro y
    | apply State.kegSend_keeps
    | apply State.dataDetect?_keeps
    | apply State.failStep?_keeps
    | apply State.ctxRead_keeps
    | refine Keeps.ofFst (State.ctxRead_keeps ?_) (by assumption)
    | apply State.remoteFault_keeps
    | apply State.ctxWrite_keeps
    | refine Keeps.ofFst (State.ctxWrite_keeps ?_) (by assumption)
    | apply KeepsR.next
    | apply Keeps.ite
    | apply Keeps.foldl
    | apply Keeps.foldlFst
    | exact KeepsO.none
    | apply KeepsO.some
    | dsimp only
    | fail_if_no_progress refine Keeps.lit ?_ rfl rfl rfl rfl rfl rfl rfl rfl rfl
    | refine Keeps.ofFst (Keeps.foldlFst ?_ ?_) (by assumption)
    | split

theorem execRouteSet_keeps {z : State} {fn : Fin 32} {tag : Nat} {idx : Nat} {link : Option Nat} {s : State} (hs : Keeps z s) : KeepsR z (execRouteSet fn tag idx link s) := by
  unfold execRouteSet
  with_reducible repeat' first
    | assumption
    | intro y
    | apply State.command_keeps
    | apply State.wri_keeps
    | apply State.respond_keeps
    | apply State.showJobs_keeps
    | apply KeepsR.next
    | apply Keeps.ite

theorem execRwinBind_keeps {z : State} {fn : Fin 32} {tag : Nat} {ctx : Fin 1024} {job : Word} {s : State} (hs : Keeps z s) : KeepsR z (execRwinBind fn tag ctx job s) := by
  unfold execRwinBind
  with_reducible repeat' first
    | assumption
    | intro y
    | apply State.command_keeps
    | apply State.respond_keeps
    | apply KeepsR.next
    | apply Keeps.ite
    | apply Keeps.foldl
    | apply Keeps.foldlFst
    | exact KeepsO.none
    | apply KeepsO.some
    | dsimp only
    | fail_if_no_progress refine Keeps.lit ?_ rfl rfl rfl rfl rfl rfl rfl rfl rfl

theorem execRwinUnbind_keeps {z : State} {fn : Fin 32} {tag : Nat} {ctx : Fin 1024} {job : Word} {s : State} (hs : Keeps z s) : KeepsR z (execRwinUnbind fn tag ctx job s) := by
  unfold execRwinUnbind
  with_reducible repeat' first
    | assumption
    | intro y
    | apply State.command_keeps
    | apply State.respond_keeps
    | apply KeepsR.next
    | apply Keeps.ite
    | apply Keeps.foldl
    | apply Keeps.foldlFst
    | exact KeepsO.none
    | apply KeepsO.some
    | dsimp only
    | fail_if_no_progress refine Keeps.lit ?_ rfl rfl rfl rfl rfl rfl rfl rfl rfl

end Sys2Proof.Machine
end

