-- ==== Sys2Proof/Laws/KeepsCollective.lean ====
section
/-! SUPPORT. Every operation of `Machine/Collective.lean` keeps the queue, the variant, the clock and the canonical stores. -/

namespace Sys2Proof.Machine

theorem State.checkStretch_keeps {z : State} {s : State} {id : Nat} {st : Step} {j : Job} (hs : Keeps z s) : Keeps z (State.checkStretch s id st j) := by
  unfold State.checkStretch
  with_reducible repeat' first
    | assumption
    | intro y
    | apply State.failStep_keeps
    | apply State.ctxNoteQ_keeps
    | apply KeepsR.next
    | apply Keeps.ite
    | apply Keeps.foldl
    | apply Keeps.foldlFst
    | exact KeepsO.none
    | apply KeepsO.some
    | dsimp only
    | fail_if_no_progress refine Keeps.lit ?_ rfl rfl rfl rfl rfl rfl rfl rfl rfl
    | refine Keeps.ofFst (Keeps.foldlFst ?_ ?_) (by assumption)
    | split

theorem State.setOp_keeps {z : State} {s : State} {n : Nat} {x : CollOp} (hs : Keeps z s) : Keeps z (State.setOp s n x) := by
  unfold State.setOp
  with_reducible repeat' first
    | assumption
    | intro y
    | apply KeepsR.next
    | apply Keeps.ite
    | apply Keeps.foldl
    | apply Keeps.foldlFst
    | exact KeepsO.none
    | apply KeepsO.some
    | dsimp only
    | fail_if_no_progress refine Keeps.lit ?_ rfl rfl rfl rfl rfl rfl rfl rfl rfl

theorem State.armColls_keeps {z : State} {s : State} {id : Nat} {colls : List (Nat × Nat)} (hs : Keeps z s) : Keeps z (State.armColls s id colls) := by
  unfold State.armColls
  with_reducible repeat' first
    | assumption
    | intro y
    | apply State.hubRead_keeps
    | refine Keeps.ofFst (State.hubRead_keeps ?_) (by assumption)
    | apply State.checkStretch_keeps
    | apply State.failStep_keeps
    | apply State.spSend_keeps
    | apply State.setOp_keeps
    | apply State.modStep_keeps
    | apply State.showJobs_keeps
    | apply KeepsR.next
    | apply Keeps.ite
    | apply Keeps.foldl
    | apply Keeps.foldlFst
    | exact KeepsO.none
    | apply KeepsO.some
    | dsimp only
    | fail_if_no_progress refine Keeps.lit ?_ rfl rfl rfl rfl rfl rfl rfl rfl rfl
    | refine Keeps.ofFst (Keeps.foldlFst ?_ ?_) (by assumption)
    | split

theorem State.modOp_keeps {z : State} {s : State} {n : Nat} {f : CollOp → CollOp} (hs : Keeps z s) : Keeps z (State.modOp s n f) := by
  unfold State.modOp
  with_reducible repeat' first
    | assumption
    | intro y
    | apply KeepsR.next
    | apply Keeps.ite
    | apply Keeps.foldl
    | apply Keeps.foldlFst
    | exact KeepsO.none
    | apply KeepsO.some
    | dsimp only
    | fail_if_no_progress refine Keeps.lit ?_ rfl rfl rfl rfl rfl rfl rfl rfl rfl

theorem State.collStore_keeps {z : State} {s : State} {n : Nat} {o : CollOp} {lo : Nat} {bs : List Nat} (hs : Keeps z s) : Keeps z (State.collStore s n o lo bs) := by
  unfold State.collStore
  with_reducible repeat' first
    | assumption
    | intro y
    | apply State.modOp_keeps
    | apply State.ctxWrite_keeps
    | refine Keeps.ofFst (State.ctxWrite_keeps ?_) (by assumption)
    | apply KeepsR.next
    | apply Keeps.ite
    | apply Keeps.foldl

theorem State.collSource_keeps {z : State} {s : State} {o : CollOp} {lo : Nat} {n : Nat} (hs : Keeps z s) : Keeps z (State.collSource s o lo n).1 := by
  unfold State.collSource
  with_reducible repeat' first
    | assumption
    | intro y
    | apply State.ctxCode_keeps
    | apply State.modStep_keeps
    | apply State.ctxRead_keeps
    | refine Keeps.ofFst (State.ctxRead_keeps ?_) (by assumption)
    | apply KeepsR.next
    | apply Keeps.ite
    | apply Keeps.foldl
    | apply Keeps.foldlFst
    | exact KeepsO.none
    | apply KeepsO.some
    | dsimp only
    | fail_if_no_progress refine Keeps.lit ?_ rfl rfl rfl rfl rfl rfl rfl rfl rfl
    | refine Keeps.ofFst (Keeps.foldlFst ?_ ?_) (by assumption)
    | split

theorem State.settleOp_keeps {z : State} {s : State} {n : Nat} {o0 : CollOp} {j : Job} (hs : Keeps z s) : Keeps z (State.settleOp s n o0 j) := by
  unfold State.settleOp
  with_reducible repeat' first
    | assumption
    | intro y
    | apply State.modOp_keeps
    | apply State.setKegJob_keeps
    | apply KeepsR.next
    | apply Keeps.ite
    | apply Keeps.foldl
    | apply Keeps.foldlFst
    | exact KeepsO.none
    | apply KeepsO.some
    | dsimp only
    | fail_if_no_progress refine Keeps.lit ?_ rfl rfl rfl rfl rfl rfl rfl rfl rfl
    | refine Keeps.ofFst (Keeps.foldlFst ?_ ?_) (by assumption)
    | split

theorem State.collMoved_keeps {z : State} {s : State} {die : Nat} {off : Nat} {n : Nat} (hs : Keeps z s) : Keeps z (State.collMoved s die off n) := by
  unfold State.collMoved
  with_reducible repeat' first
    | assumption
    | intro y
    | apply State.count_keeps
    | apply KeepsR.next
    | apply Keeps.ite
    | apply Keeps.foldl
    | apply Keeps.foldlFst
    | exact KeepsO.none
    | apply KeepsO.some
    | dsimp only
    | fail_if_no_progress refine Keeps.lit ?_ rfl rfl rfl rfl rfl rfl rfl rfl rfl

theorem State.sendRec_keeps {z : State} {s : State} {r : CollRec} (hs : Keeps z s) : Keeps z (State.sendRec s r) := by
  unfold State.sendRec
  with_reducible repeat' first
    | assumption
    | intro y
    | apply State.kegSend_keeps
    | apply State.abortJob_keeps
    | apply State.count_keeps
    | apply State.collMoved_keeps
    | apply KeepsR.next
    | apply Keeps.ite
    | apply Keeps.foldl
    | apply Keeps.foldlFst
    | exact KeepsO.none
    | apply KeepsO.some
    | dsimp only
    | fail_if_no_progress refine Keeps.lit ?_ rfl rfl rfl rfl rfl rfl rfl rfl rfl
    | refine Keeps.ofFst (Keeps.foldlFst ?_ ?_) (by assumption)
    | split

theorem State.beginOp_keeps {z : State} {s : State} {n : Nat} {o : CollOp} {j : Job} {heads : Nat} {dim : Nat} {wide : Bool} (hs : Keeps z s) : Keeps z (State.beginOp s n o j heads dim wide) := by
  unfold State.beginOp
  with_reducible repeat' first
    | assumption
    | intro y
    | apply State.modOp_keeps
    | apply State.collStore_keeps
    | apply State.collSource_keeps
    | refine Keeps.ofFst (State.collSource_keeps ?_) (by assumption)
    | apply State.settleOp_keeps
    | apply State.sendRec_keeps
    | apply KeepsR.next
    | apply Keeps.ite
    | apply Keeps.foldl
    | apply Keeps.foldlFst
    | exact KeepsO.none
    | apply KeepsO.some
    | dsimp only
    | fail_if_no_progress refine Keeps.lit ?_ rfl rfl rfl rfl rfl rfl rfl rfl rfl
    | refine Keeps.ofFst (Keeps.foldlFst ?_ ?_) (by assumption)
    | split

theorem State.drainStep_keeps {z : State} {s : State} {id : Nat} (hs : Keeps z s) : Keeps z (State.drainStep s id) := by
  unfold State.drainStep
  with_reducible repeat' first
    | assumption
    | intro y
    | apply State.modStep_keeps
    | apply State.endStepKernels_keeps
    | apply KeepsR.next
    | apply Keeps.ite
    | apply Keeps.foldl
    | apply Keeps.foldlFst
    | exact KeepsO.none
    | apply KeepsO.some
    | dsimp only
    | fail_if_no_progress refine Keeps.lit ?_ rfl rfl rfl rfl rfl rfl rfl rfl rfl
    | refine Keeps.ofFst (Keeps.foldlFst ?_ ?_) (by assumption)
    | split

theorem State.mismatch_keeps {z : State} {s : State} {die : Nat} {jid : Nat} (hs : Keeps z s) : Keeps z (State.mismatch s die jid) := by
  unfold State.mismatch
  with_reducible repeat' first
    | assumption
    | intro y
    | apply State.abortJob_keeps
    | apply State.raise_keeps

theorem State.noteRerun_keeps {z : State} {s : State} {id : Nat} {jid : Nat} (hs : Keeps z s) : Keeps z (State.noteRerun s id jid) := by
  unfold State.noteRerun
  with_reducible repeat' first
    | assumption
    | intro y
    | apply State.setStep_keeps
    | apply State.abortJob_keeps
    | apply State.raise_keeps
    | apply State.count_keeps
    | apply KeepsR.next
    | apply Keeps.ite
    | apply Keeps.foldl
    | apply Keeps.foldlFst
    | exact KeepsO.none
    | apply KeepsO.some
    | dsimp only
    | fail_if_no_progress refine Keeps.lit ?_ rfl rfl rfl rfl rfl rfl rfl rfl rfl
    | refine Keeps.ofFst (Keeps.foldlFst ?_ ?_) (by assumption)
    | split

theorem State.resetOps_keeps {z : State} {s : State} {id : Nat} (hs : Keeps z s) : Keeps z (State.resetOps s id) := by
  unfold State.resetOps
  with_reducible repeat' first
    | assumption
    | intro y
    | apply State.spSend_keeps
    | apply State.setOp_keeps
    | apply State.setKegJob_keeps
    | apply KeepsR.next
    | apply Keeps.ite
    | apply Keeps.foldl
    | apply Keeps.foldlFst
    | exact KeepsO.none
    | apply KeepsO.some
    | dsimp only
    | fail_if_no_progress refine Keeps.lit ?_ rfl rfl rfl rfl rfl rfl rfl rfl rfl
    | refine Keeps.ofFst (Keeps.foldlFst ?_ ?_) (by assumption)
    | split

theorem State.sendRerun_keeps {z : State} {s : State} {id : Nat} {jid : Nat} (hs : Keeps z s) : Keeps z (State.sendRerun s id jid) := by
  unfold State.sendRerun
  with_reducible repeat' first
    | assumption
    | intro y
    | apply State.noteRerun_keeps
    | apply State.tellMembers_keeps
    | apply KeepsR.next
    | apply Keeps.ite
    | apply Keeps.foldl
    | apply Keeps.foldlFst
    | exact KeepsO.none
    | apply KeepsO.some
    | dsimp only
    | fail_if_no_progress refine Keeps.lit ?_ rfl rfl rfl rfl rfl rfl rfl rfl rfl
    | refine Keeps.ofFst (Keeps.foldlFst ?_ ?_) (by assumption)
    | split

theorem State.takeRec_keeps {z : State} {s : State} {n : Nat} {o : CollOp} {j : Job} {r : CollRec} (hs : Keeps z s) : Keeps z (State.takeRec s n o j r) := by
  unfold State.takeRec
  with_reducible repeat' first
    | assumption
    | intro y
    | apply State.modOp_keeps
    | apply State.collStore_keeps
    | apply State.collSource_keeps
    | refine Keeps.ofFst (State.collSource_keeps ?_) (by assumption)
    | apply State.settleOp_keeps
    | apply State.sendRec_keeps
    | apply State.collMoved_keeps
    | apply KeepsR.next
    | apply Keeps.ite
    | apply Keeps.foldl
    | apply Keeps.foldlFst
    | exact KeepsO.none
    | apply KeepsO.some
    | dsimp only
    | fail_if_no_progress refine Keeps.lit ?_ rfl rfl rfl rfl rfl rfl rfl rfl rfl
    | refine Keeps.ofFst (Keeps.foldlFst ?_ ?_) (by assumption)
    | split

theorem State.takeEarly_keeps {z : State} {s : State} {n : Nat} {jid : Nat} {x3 : Nat} (hs : Keeps z s) : Keeps z (State.takeEarly s n jid x3) := by
  induction x3 generalizing s with
  | zero => exact hs
  | succ k ih =>
    unfold State.takeEarly
    with_reducible repeat' first
      | assumption
      | intro y
      | apply ih
      | apply State.takeRec_keeps
      | apply State.setKegJob_keeps
      | apply KeepsO.mapK
      | apply KeepsO.foldl
      | refine KeepsO.keeps (KeepsO.some ?_) _ (by assumption)
      | apply KeepsR.next
      | apply Keeps.ite
      | apply Keeps.foldl
      | apply Keeps.foldlFst
      | exact KeepsO.none
      | apply KeepsO.some
      | dsimp only
      | fail_if_no_progress refine Keeps.lit ?_ rfl rfl rfl rfl rfl rfl rfl rfl rfl
      | refine Keeps.ofFst (Keeps.foldlFst ?_ ?_) (by assumption)
      | split

theorem execCollOpDone_keeps {z : State} {op : Nat} {s : State} (hs : Keeps z s) : KeepsR z (execCollOpDone op s) := by
  unfold execCollOpDone
  with_reducible repeat' first
    | assumption
    | intro y
    | apply State.spSend_keeps
    | apply State.showJobs_keeps
    | apply State.count_keeps
    | apply KeepsR.next
    | apply Keeps.ite
    | apply Keeps.foldl
    | apply Keeps.foldlFst
    | exact KeepsO.none
    | apply KeepsO.some
    | dsimp only
    | fail_if_no_progress refine Keeps.lit ?_ rfl rfl rfl rfl rfl rfl rfl rfl rfl
    | refine Keeps.ofFst (Keeps.foldlFst ?_ ?_) (by assumption)
    | split

theorem execCollOpStart_keeps {z : State} {op : Nat} {heads : Nat} {dim : Nat} {wide : Bool} {s : State} (hs : Keeps z s) : KeepsR z (execCollOpStart op heads dim wide s) := by
  unfold execCollOpStart
  with_reducible repeat' first
    | assumption
    | intro y
    | apply State.failStep_keeps
    | apply State.setOp_keeps
    | apply State.showJobs_keeps
    | apply State.mismatch_keeps
    | apply State.takeEarly_keeps
    | apply State.beginOp_keeps
    | apply KeepsR.next
    | apply Keeps.ite
    | apply Keeps.foldl
    | apply Keeps.foldlFst
    | exact KeepsO.none
    | apply KeepsO.some
    | dsimp only
    | fail_if_no_progress refine Keeps.lit ?_ rfl rfl rfl rfl rfl rfl rfl rfl rfl
    | refine Keeps.ofFst (Keeps.foldlFst ?_ ?_) (by assumption)
    | split

theorem execCollRecordReceive_keeps {z : State} {link : Fin 8} {tagOk : Bool} {bad : Bool} {r : CollRec} {s : State} (hs : Keeps z s) : KeepsR z (execCollRecordReceive link tagOk bad r s) := by
  unfold execCollRecordReceive
  with_reducible repeat' first
    | assumption
    | intro y
    | apply State.linkFell_keeps
    | apply State.kegSend_keeps
    | apply State.drainStep_keeps
    | apply State.abortJob_keeps
    | apply State.takeRec_keeps
    | apply State.raise_keeps
    | apply State.showJobs_keeps
    | apply State.mismatch_keeps
    | apply State.setKegJob_keeps
    | apply State.sendRerun_keeps
    | apply State.count_keeps
    | apply KeepsR.next
    | apply Keeps.ite
    | apply Keeps.foldl
    | apply Keeps.foldlFst
    | exact KeepsO.none
    | apply KeepsO.some
    | dsimp only
    | fail_if_no_progress refine Keeps.lit ?_ rfl rfl rfl rfl rfl rfl rfl rfl rfl
    | refine Keeps.ofFst (Keeps.foldlFst ?_ ?_) (by assumption)
    | split

theorem execRerunReceive_keeps {z : State} {link : Fin 8} {job : Nat} {seq : Nat} {s : State} (hs : Keeps z s) : KeepsR z (execRerunReceive link job seq s) := by
  unfold execRerunReceive
  with_reducible repeat' first
    | assumption
    | intro y
    | apply State.noteRerun_keeps
    | apply State.drainStep_keeps
    | apply KeepsR.next
    | apply Keeps.ite
    | apply Keeps.foldl
    | apply Keeps.foldlFst
    | exact KeepsO.none
    | apply KeepsO.some
    | dsimp only
    | fail_if_no_progress refine Keeps.lit ?_ rfl rfl rfl rfl rfl rfl rfl rfl rfl
    | refine Keeps.ofFst (Keeps.foldlFst ?_ ?_) (by assumption)
    | split

theorem execStepJoinRelease_keeps {z : State} {step : Nat} {outs : List MemberOut} {s : State} (hs : Keeps z s) : KeepsR z (execStepJoinRelease step outs s) := by
  unfold execStepJoinRelease
  with_reducible repeat' first
    | assumption
    | intro y
    | apply State.modStep_keeps
    | apply State.showJobs_keeps
    | apply State.sendRerun_keeps
    | apply State.dropOps_keeps
    | apply State.joinRelease_keeps
    | apply KeepsR.next
    | apply Keeps.ite
    | apply Keeps.foldl
    | apply Keeps.foldlFst
    | exact KeepsO.none
    | apply KeepsO.some
    | dsimp only
    | fail_if_no_progress refine Keeps.lit ?_ rfl rfl rfl rfl rfl rfl rfl rfl rfl
    | refine Keeps.ofFst (Keeps.foldlFst ?_ ?_) (by assumption)
    | split

theorem execStepRecompute_keeps {z : State} {step : Nat} {s : State} (hs : Keeps z s) : KeepsR z (execStepRecompute step s) := by
  unfold execStepRecompute
  with_reducible repeat' first
    | assumption
    | intro y
    | apply State.resetOps_keeps
    | apply State.modStep_keeps
    | apply State.rerunStep_keeps
    | apply State.sendRerun_keeps
    | apply KeepsR.next
    | apply Keeps.ite
    | apply Keeps.foldl
    | apply Keeps.foldlFst
    | exact KeepsO.none
    | apply KeepsO.some
    | dsimp only
    | fail_if_no_progress refine Keeps.lit ?_ rfl rfl rfl rfl rfl rfl rfl rfl rfl
    | refine Keeps.ofFst (Keeps.foldlFst ?_ ?_) (by assumption)
    | split

end Sys2Proof.Machine
end

