-- ==== Sys2Proof/Laws/KeepsContexts.lean ====
section
/-! SUPPORT. Every operation of `Machine/Contexts.lean` keeps the queue, the variant, the clock and the canonical stores. -/

namespace Sys2Proof.Machine

theorem State.cancelIntake_keeps {z : State} {s : State} {i : Nat} (hs : Keeps z s) : Keeps z (State.cancelIntake s i) := by
  unfold State.cancelIntake
  with_reducible repeat' first
    | assumption
    | intro y
    | apply State.modRq_keeps
    | apply State.complete_keeps
    | apply State.dropRoom_keeps
    | apply State.destroyHead_keeps
    | apply KeepsR.next
    | apply Keeps.ite
    | apply Keeps.foldl
    | apply Keeps.foldlFst
    | exact KeepsO.none
    | apply KeepsO.some
    | dsimp only
    | fail_if_no_progress refine Keeps.lit ?_ rfl rfl rfl rfl rfl rfl rfl rfl rfl
    | refine Keeps.ofFst (Keeps.foldlFst ?_ ?_) (by assumption)
    | split

theorem State.dropFloors_keeps {z : State} {s : State} {c : Nat} (hs : Keeps z s) : Keeps z (State.dropFloors s c) := by
  unfold State.dropFloors
  with_reducible repeat' first
    | assumption
    | intro y
    | apply State.setCtxField_keeps
    | apply KeepsR.next
    | apply Keeps.ite
    | apply Keeps.foldl
    | apply Keeps.foldlFst
    | exact KeepsO.none
    | apply KeepsO.some
    | dsimp only
    | fail_if_no_progress refine Keeps.lit ?_ rfl rfl rfl rfl rfl rfl rfl rfl rfl

theorem State.dropArmed_keeps {z : State} {s : State} {c : Nat} (hs : Keeps z s) : Keeps z (State.dropArmed s c) := by
  unfold State.dropArmed
  with_reducible repeat' first
    | assumption
    | intro y
    | apply State.dropEntries_keeps
    | apply KeepsR.next
    | apply Keeps.ite
    | apply Keeps.foldl
    | apply Keeps.foldlFst
    | exact KeepsO.none
    | apply KeepsO.some
    | dsimp only
    | fail_if_no_progress refine Keeps.lit ?_ rfl rfl rfl rfl rfl rfl rfl rfl rfl

theorem State.beginQuiesce_keeps {z : State} {s : State} {c : Nat} (hs : Keeps z s) : Keeps z (State.beginQuiesce s c) := by
  unfold State.beginQuiesce
  with_reducible repeat' first
    | assumption
    | intro y
    | apply State.abortJobs_keeps
    | apply State.cancelIntake_keeps
    | apply State.cancelRq_keeps
    | apply State.codecEndCtx_keeps
    | apply State.settleResv_keeps
    | apply State.dropFloors_keeps
    | apply State.millEndCtx_keeps
    | apply State.showRqt_keeps
    | apply State.dropArmed_keeps
    | apply KeepsR.next
    | apply Keeps.ite
    | apply Keeps.foldl
    | apply Keeps.foldlFst
    | exact KeepsO.none
    | apply KeepsO.some
    | dsimp only
    | fail_if_no_progress refine Keeps.lit ?_ rfl rfl rfl rfl rfl rfl rfl rfl rfl
    | refine Keeps.ofFst (Keeps.foldlFst ?_ ?_) (by assumption)
    | split

theorem State.clearStores_keeps {z : State} {s : State} {c : Nat} (hs : Keeps z s) : Keeps z (State.clearStores s c) := by
  unfold State.clearStores
  with_reducible repeat' first
    | assumption
    | intro y
    | apply State.fillBank_keeps
    | apply State.setBankTag_keeps
    | apply State.wri_keeps
    | apply State.fillSeg_keeps
    | apply State.setSegTag_keeps
    | apply KeepsR.next
    | apply Keeps.ite
    | apply Keeps.foldl

theorem State.countFill_keeps {z : State} {s : State} {lines : Nat} {pads : Nat} (hs : Keeps z s) : Keeps z (State.countFill s lines pads) := by
  unfold State.countFill
  with_reducible repeat' first
    | assumption
    | intro y
    | apply State.count_keeps
    | apply KeepsR.next
    | apply Keeps.ite
    | apply Keeps.foldl
    | apply Keeps.foldlFst
    | exact KeepsO.none
    | apply KeepsO.some
    | dsimp only
    | fail_if_no_progress refine Keeps.lit ?_ rfl rfl rfl rfl rfl rfl rfl rfl rfl

theorem State.showCtxs_keeps {z : State} {s : State} (hs : Keeps z s) : Keeps z (State.showCtxs s) := by
  unfold State.showCtxs
  with_reducible repeat' first
    | assumption
    | intro y
    | apply State.wr_keeps

theorem State.setCtxState_keeps {z : State} {s : State} {c : Nat} {st : Nat} (hs : Keeps z s) : Keeps z (State.setCtxState s c st) := by
  unfold State.setCtxState
  with_reducible repeat' first
    | assumption
    | intro y
    | apply State.showCtxs_keeps
    | apply State.setCtxField_keeps

theorem State.endCtx_keeps {z : State} {s : State} {c : Nat} (hs : Keeps z s) : Keeps z (State.endCtx s c) := by
  unfold State.endCtx
  with_reducible repeat' first
    | assumption
    | intro y
    | apply State.setCtxState_keeps
    | apply State.beginQuiesce_keeps
    | apply State.ctxNote_keeps
    | apply State.raise_keeps
    | apply KeepsR.next
    | apply Keeps.ite
    | apply Keeps.foldl
    | apply Keeps.foldlFst
    | exact KeepsO.none
    | apply KeepsO.some
    | dsimp only
    | fail_if_no_progress refine Keeps.lit ?_ rfl rfl rfl rfl rfl rfl rfl rfl rfl

theorem State.destroyKeys_keeps {z : State} {s : State} {c : Nat} (hs : Keeps z s) : Keeps z (State.destroyKeys s c) := by
  unfold State.destroyKeys
  with_reducible repeat' first
    | assumption
    | intro y
    | apply State.destroyKey_keeps
    | apply KeepsR.next
    | apply Keeps.ite
    | apply Keeps.foldl
    | apply Keeps.foldlFst
    | exact KeepsO.none
    | apply KeepsO.some
    | dsimp only
    | fail_if_no_progress refine Keeps.lit ?_ rfl rfl rfl rfl rfl rfl rfl rfl rfl

theorem State.showCasks_keeps {z : State} {s : State} (hs : Keeps z s) : Keeps z (State.showCasks s) := by
  unfold State.showCasks
  with_reducible repeat' first
    | assumption
    | intro y
    | apply State.wr_keeps

theorem State.dropHoldings_keeps {z : State} {s : State} {c : Nat} (hs : Keeps z s) : Keeps z (State.dropHoldings s c) := by
  unfold State.dropHoldings
  with_reducible repeat' first
    | assumption
    | intro y
    | apply State.showKv_keeps
    | apply State.showCasks_keeps
    | apply State.setCtxField_keeps
    | apply State.plDestroy_keeps
    | apply State.removeJob_keeps
    | apply State.destroyHead_keeps
    | apply State.showRqt_keeps
    | apply KeepsR.next
    | apply Keeps.ite
    | apply Keeps.foldl
    | apply Keeps.foldlFst
    | exact KeepsO.none
    | apply KeepsO.some
    | dsimp only
    | fail_if_no_progress refine Keeps.lit ?_ rfl rfl rfl rfl rfl rfl rfl rfl rfl

theorem State.dropSpiles_keeps {z : State} {s : State} {c : Nat} (hs : Keeps z s) : Keeps z (State.dropSpiles s c) := by
  unfold State.dropSpiles
  with_reducible repeat' first
    | assumption
    | intro y
    | apply KeepsR.next
    | apply Keeps.ite
    | apply Keeps.foldl
    | apply Keeps.foldlFst
    | exact KeepsO.none
    | apply KeepsO.some
    | dsimp only
    | fail_if_no_progress refine Keeps.lit ?_ rfl rfl rfl rfl rfl rfl rfl rfl rfl

theorem State.freeCtx_keeps {z : State} {s : State} {c : Nat} (hs : Keeps z s) : Keeps z (State.freeCtx s c) := by
  unfold State.freeCtx
  extract_lets +onlyGivenNames mine s1 s2
  have h1 : Keeps z s1 := State.setCtxState_keeps (State.setCtxField_keeps hs)
  have h2 : Keeps z s2 := h1.of rfl rfl rfl fun c => ⟨c.vstore, c.fstore, c.mem, c.host, sorted_filter _ c.regs, sorted_filter _ c.ctrs⟩
  exact State.wake_keeps h2

theorem State.freeMemory_keeps {z : State} {s : State} {c : Nat} (hs : Keeps z s) : Keeps z (State.freeMemory s c) := by
  unfold State.freeMemory
  with_reducible repeat' first
    | assumption
    | intro y
    | apply State.bump_keeps
    | apply State.setFrame_keeps
    | apply State.zeroFrames_keeps
    | apply State.giveSys_keeps
    | apply KeepsR.next
    | apply Keeps.ite
    | apply Keeps.foldl
    | apply Keeps.foldlFst
    | exact KeepsO.none
    | apply KeepsO.some
    | dsimp only
    | fail_if_no_progress refine Keeps.lit ?_ rfl rfl rfl rfl rfl rfl rfl rfl rfl
    | refine Keeps.ofFst (Keeps.foldlFst ?_ ?_) (by assumption)
    | split

theorem State.joinDomain_keeps {z : State} {s : State} {c : Nat} {dom : Nat} {share : Bool} (hs : Keeps z s) : Keeps z (State.joinDomain s c dom share) := by
  unfold State.joinDomain
  with_reducible repeat' first
    | assumption
    | intro y
    | apply State.setCtxField_keeps

theorem State.joinFill_keeps {z : State} {s : State} {c : Nat} (hs : Keeps z s) : Keeps z (State.joinFill s c) := by
  unfold State.joinFill
  with_reducible repeat' first
    | assumption
    | intro y
    | apply KeepsR.next
    | apply Keeps.ite
    | apply Keeps.foldl
    | apply Keeps.foldlFst
    | exact KeepsO.none
    | apply KeepsO.some
    | dsimp only
    | fail_if_no_progress refine Keeps.lit ?_ rfl rfl rfl rfl rfl rfl rfl rfl rfl

theorem State.ringReads_keeps {z : State} {s : State} {classes : List Nat} {inp : IntakeIn} (hs : Keeps z s) : Keeps z (State.ringReads s classes inp) := by
  unfold State.ringReads
  with_reducible repeat' first
    | assumption
    | intro y
    | apply State.beginQuiesce_keeps
    | apply State.readRings_keeps
    | apply State.lastReads_keeps
    | apply KeepsR.next
    | apply Keeps.ite
    | apply Keeps.foldl
    | apply Keeps.foldlFst
    | exact KeepsO.none
    | apply KeepsO.some
    | dsimp only
    | fail_if_no_progress refine Keeps.lit ?_ rfl rfl rfl rfl rfl rfl rfl rfl rfl

theorem State.rinseCtx_keeps {z : State} {s : State} {c : Nat} (hs : Keeps z s) : Keeps z (State.rinseCtx s c) := by
  unfold State.rinseCtx
  with_reducible repeat' first
    | assumption
    | intro y
    | apply State.destroyKeys_keeps
    | apply State.setCtxState_keeps
    | apply State.clearStores_keeps
    | apply State.raise_keeps
    | apply State.dropSpiles_keeps
    | apply State.joinFill_keeps
    | apply State.dropHoldings_keeps
    | apply KeepsR.next
    | apply Keeps.ite
    | apply Keeps.foldl
    | apply Keeps.foldlFst
    | exact KeepsO.none
    | apply KeepsO.some
    | dsimp only
    | fail_if_no_progress refine Keeps.lit ?_ rfl rfl rfl rfl rfl rfl rfl rfl rfl

theorem execCtxEnd_keeps {z : State} {fn : Fin 32} {tag : Nat} {ctx : Fin 1024} {s : State} (hs : Keeps z s) : KeepsR z (execCtxEnd fn tag ctx s) := by
  unfold execCtxEnd
  with_reducible repeat' first
    | assumption
    | intro y
    | apply State.command_keeps
    | apply State.endCtx_keeps
    | apply State.respond_keeps
    | apply State.hold_keeps
    | apply KeepsR.next
    | apply Keeps.ite

theorem execCtxOpen_keeps {z : State} {fn : Fin 32} {tag : Nat} {isSealed : Bool} {s : State} (hs : Keeps z s) : KeepsR z (execCtxOpen fn tag isSealed s) := by
  unfold execCtxOpen
  with_reducible repeat' first
    | assumption
    | intro y
    | apply State.fresh_keeps
    | refine Keeps.ofFst (State.fresh_keeps ?_) (by assumption)
    | apply State.setCtxState_keeps
    | apply State.setCtxField_keeps
    | apply State.commandUnless_keeps
    | apply State.respond_keeps
    | apply State.count_keeps
    | apply State.installKey_keeps
    | apply KeepsO.mapK
    | apply KeepsO.foldl
    | refine KeepsO.keeps (KeepsO.some ?_) _ (by assumption)
    | apply KeepsR.next
    | apply Keeps.ite
    | apply Keeps.foldl
    | apply Keeps.foldlFst
    | exact KeepsO.none
    | apply KeepsO.some
    | dsimp only
    | fail_if_no_progress refine Keeps.lit ?_ rfl rfl rfl rfl rfl rfl rfl rfl rfl
    | refine Keeps.ofFst (Keeps.foldlFst ?_ ?_) (by assumption)
    | split

theorem execCtxQuiesced_keeps {z : State} {ctx : Fin 1024} {s : State} (hs : Keeps z s) : KeepsR z (execCtxQuiesced ctx s) := by
  unfold execCtxQuiesced
  with_reducible repeat' first
    | assumption
    | intro y
    | apply State.rinseCtx_keeps
    | apply KeepsR.next
    | apply Keeps.ite

theorem execDomainJoin_keeps {z : State} {fn : Fin 32} {tag : Nat} {ctx : Fin 1024} {dom : Nat} {share : Bool} {s : State} (hs : Keeps z s) : KeepsR z (execDomainJoin fn tag ctx dom share s) := by
  unfold execDomainJoin
  with_reducible repeat' first
    | assumption
    | intro y
    | apply State.command_keeps
    | apply State.joinDomain_keeps
    | apply State.respond_keeps
    | apply KeepsR.next
    | apply Keeps.ite

theorem execDrbgReseed_keeps {z : State} {ctx : Fin 1024} {s : State} (hs : Keeps z s) : KeepsR z (execDrbgReseed ctx s) := by
  unfold execDrbgReseed
  with_reducible repeat' first
    | assumption
    | intro y
    | apply KeepsR.next
    | apply Keeps.ite
    | apply Keeps.foldl
    | apply Keeps.foldlFst
    | exact KeepsO.none
    | apply KeepsO.some
    | dsimp only
    | fail_if_no_progress refine Keeps.lit ?_ rfl rfl rfl rfl rfl rfl rfl rfl rfl
    | refine Keeps.ofFst (Keeps.foldlFst ?_ ?_) (by assumption)
    | split

theorem execFloorRelease_keeps {z : State} {fn : Fin 32} {tag : Nat} {ctx : Fin 1024} {s : State} (hs : Keeps z s) : KeepsR z (execFloorRelease fn tag ctx s) := by
  unfold execFloorRelease
  with_reducible repeat' first
    | assumption
    | intro y
    | apply State.command_keeps
    | apply State.dropFloors_keeps
    | apply State.respond_keeps
    | apply KeepsR.next

theorem execFloorReserve_keeps {z : State} {fn : Fin 32} {tag : Nat} {ctx : Fin 1024} {die : Nat} {mask : Nat} {s : State} (hs : Keeps z s) : KeepsR z (execFloorReserve fn tag ctx die mask s) := by
  unfold execFloorReserve
  with_reducible repeat' first
    | assumption
    | intro y
    | apply State.command_keeps
    | apply State.setCtxField_keeps
    | apply State.respond_keeps
    | apply KeepsR.next
    | apply Keeps.ite
    | apply Keeps.foldl
    | apply Keeps.foldlFst
    | exact KeepsO.none
    | apply KeepsO.some
    | dsimp only
    | fail_if_no_progress refine Keeps.lit ?_ rfl rfl rfl rfl rfl rfl rfl rfl rfl

theorem execIntakePoll_keeps {z : State} {inp : IntakeIn} {s : State} (hs : Keeps z s) : KeepsR z (execIntakePoll inp s) := by
  unfold execIntakePoll
  with_reducible repeat' first
    | assumption
    | intro y
    | apply State.ringReads_keeps
    | apply KeepsR.next
    | apply Keeps.ite
    | apply Keeps.foldl
    | apply Keeps.foldlFst
    | exact KeepsO.none
    | apply KeepsO.some
    | dsimp only
    | fail_if_no_progress refine Keeps.lit ?_ rfl rfl rfl rfl rfl rfl rfl rfl rfl

theorem execRinseDone_keeps {z : State} {s : State} (hs : Keeps z s) : KeepsR z (execRinseDone s) := by
  unfold execRinseDone
  with_reducible repeat' first
    | assumption
    | intro y
    | apply State.countFill_keeps
    | apply State.freeCtx_keeps
    | apply State.raise_keeps
    | apply State.count_keeps
    | apply KeepsR.next
    | apply Keeps.ite
    | apply Keeps.foldl
    | apply Keeps.foldlFst
    | exact KeepsO.none
    | apply KeepsO.some
    | dsimp only
    | fail_if_no_progress refine Keeps.lit ?_ rfl rfl rfl rfl rfl rfl rfl rfl rfl
    | refine Keeps.ofFst (Keeps.foldlFst ?_ ?_) (by assumption)
    | split

theorem execRinseFillEnd_keeps {z : State} {s : State} (hs : Keeps z s) : KeepsR z (execRinseFillEnd s) := by
  unfold execRinseFillEnd
  with_reducible repeat' first
    | assumption
    | intro y
    | apply State.countFill_keeps
    | apply State.freeMemory_keeps
    | apply State.recount_keeps
    | apply KeepsR.next
    | apply Keeps.ite
    | apply Keeps.foldl
    | apply Keeps.foldlFst
    | exact KeepsO.none
    | apply KeepsO.some
    | dsimp only
    | fail_if_no_progress refine Keeps.lit ?_ rfl rfl rfl rfl rfl rfl rfl rfl rfl
    | refine Keeps.ofFst (Keeps.foldlFst ?_ ?_) (by assumption)
    | split

theorem execStructRecopy_keeps {z : State} {s : State} (hs : Keeps z s) : KeepsR z (execStructRecopy s) := by
  unfold execStructRecopy
  with_reducible repeat' first
    | assumption
    | intro y
    | apply State.showKv_keeps
    | apply KeepsR.next
    | apply Keeps.ite
    | apply Keeps.foldl
    | apply Keeps.foldlFst
    | exact KeepsO.none
    | apply KeepsO.some
    | dsimp only
    | fail_if_no_progress refine Keeps.lit ?_ rfl rfl rfl rfl rfl rfl rfl rfl rfl

theorem execStructureCopyDone_keeps {z : State} {s : State} (hs : Keeps z s) : KeepsR z (execStructureCopyDone s) := by
  unfold execStructureCopyDone
  with_reducible repeat' first
    | assumption
    | intro y
    | apply State.showKv_keeps
    | apply KeepsR.next
    | apply Keeps.ite
    | apply Keeps.foldl
    | apply Keeps.foldlFst
    | exact KeepsO.none
    | apply KeepsO.some
    | dsimp only
    | fail_if_no_progress refine Keeps.lit ?_ rfl rfl rfl rfl rfl rfl rfl rfl rfl
    | refine Keeps.ofFst (Keeps.foldlFst ?_ ?_) (by assumption)
    | split

end Sys2Proof.Machine
end

