-- ==== Sys2Proof/Laws/KeepsGauger.lean ====
section
/-! SUPPORT. Every operation of `Machine/Gauger.lean` keeps the queue, the variant, the clock and the canonical stores. -/

namespace Sys2Proof.Machine

theorem State.showSessions_keeps {z : State} {s : State} (hs : Keeps z s) : Keeps z (State.showSessions s) := by
  unfold State.showSessions
  with_reducible repeat' first
    | assumption
    | intro y
    | apply State.wr_keeps

theorem State.endSession_keeps {z : State} {s : State} {n : Nat} {lost : Bool} (hs : Keeps z s) : Keeps z (State.endSession s n lost) := by
  unfold State.endSession
  with_reducible repeat' first
    | assumption
    | intro y
    | apply State.endCtx_keeps
    | apply State.raise_keeps
    | apply State.showSessions_keeps
    | apply State.count_keeps
    | apply KeepsR.next
    | apply Keeps.ite
    | apply Keeps.foldl
    | apply Keeps.foldlFst
    | exact KeepsO.none
    | apply KeepsO.some
    | dsimp only
    | fail_if_no_progress refine Keeps.lit ?_ rfl rfl rfl rfl rfl rfl rfl rfl rfl

theorem State.endSessions_keeps {z : State} {s : State} (hs : Keeps z s) : Keeps z (State.endSessions s) := by
  unfold State.endSessions
  with_reducible repeat' first
    | assumption
    | intro y
    | apply State.endSession_keeps
    | apply KeepsR.next
    | apply Keeps.ite
    | apply Keeps.foldl
    | apply Keeps.foldlFst
    | exact KeepsO.none
    | apply KeepsO.some
    | dsimp only
    | fail_if_no_progress refine Keeps.lit ?_ rfl rfl rfl rfl rfl rfl rfl rfl rfl

theorem State.reserveTop_keeps {z : State} {s : State} (hs : Keeps z s) : Keeps z (State.reserveTop s) := by
  unfold State.reserveTop
  with_reducible repeat' first
    | assumption
    | intro y
    | apply State.wr_keeps
    | apply State.raise_keeps
    | apply KeepsR.next
    | apply Keeps.ite

theorem State.spendTop_keeps {z : State} {s : State} (hs : Keeps z s) : Keeps z (State.spendTop s) := by
  unfold State.spendTop
  with_reducible repeat' first
    | assumption
    | intro y
    | apply State.reserveTop_keeps
    | apply State.count_keeps
    | apply KeepsR.next
    | apply Keeps.ite
    | apply Keeps.foldl
    | apply Keeps.foldlFst
    | exact KeepsO.none
    | apply KeepsO.some
    | dsimp only
    | fail_if_no_progress refine Keeps.lit ?_ rfl rfl rfl rfl rfl rfl rfl rfl rfl

theorem State.newAlias_keeps {z : State} {s : State} (hs : Keeps z s) : Keeps z (State.newAlias s) := by
  unfold State.newAlias
  with_reducible repeat' first
    | assumption
    | intro y
    | apply State.spendTop_keeps
    | apply State.wr_keeps
    | apply KeepsR.next
    | apply Keeps.ite
    | apply Keeps.foldl
    | apply Keeps.foldlFst
    | exact KeepsO.none
    | apply KeepsO.some
    | dsimp only
    | fail_if_no_progress refine Keeps.lit ?_ rfl rfl rfl rfl rfl rfl rfl rfl rfl

theorem State.flrRq_keeps {z : State} {s : State} {i : Nat} (hs : Keeps z s) : Keeps z (State.flrRq s i) := by
  unfold State.flrRq
  with_reducible repeat' first
    | assumption
    | intro y
    | apply State.modRq_keeps
    | apply State.cancelRq_keeps
    | apply State.plDestroy_keeps
    | apply State.dropRoom_keeps
    | apply State.destroyHead_keeps
    | apply KeepsR.next
    | apply Keeps.ite
    | apply Keeps.foldl
    | apply Keeps.foldlFst
    | exact KeepsO.none
    | apply KeepsO.some
    | dsimp only
    | fail_if_no_progress refine Keeps.lit ?_ rfl rfl rfl rfl rfl rfl rfl rfl rfl
    | refine Keeps.ofFst (Keeps.foldlFst ?_ ?_) (by assumption)
    | split

theorem State.forgetRings_keeps {z : State} {s : State} {fn : Nat} (hs : Keeps z s) : Keeps z (State.forgetRings s fn) := by
  unfold State.forgetRings
  with_reducible repeat' first
    | assumption
    | intro y
    | apply State.complGone_keeps
    | apply KeepsR.next
    | apply Keeps.ite
    | apply Keeps.foldl
    | apply Keeps.foldlFst
    | exact KeepsO.none
    | apply KeepsO.some
    | dsimp only
    | fail_if_no_progress refine Keeps.lit ?_ rfl rfl rfl rfl rfl rfl rfl rfl rfl

theorem State.showCeiling_keeps {z : State} {s : State} (hs : Keeps z s) : Keeps z (State.showCeiling s) := by
  unfold State.showCeiling
  with_reducible repeat' first
    | assumption
    | intro y
    | apply State.wr_keeps

theorem State.spdmError_keeps {z : State} {s : State} {fn : Nat} {code : Nat} {ws : optParam (List Nat) []} (hs : Keeps z s) : Keeps z (State.spdmError s fn code ws) := by
  unfold State.spdmError
  with_reducible repeat' first
    | assumption
    | intro y
    | apply KeepsR.next
    | apply Keeps.ite
    | apply Keeps.foldl
    | apply Keeps.foldlFst
    | exact KeepsO.none
    | apply KeepsO.some
    | dsimp only
    | fail_if_no_progress refine Keeps.lit ?_ rfl rfl rfl rfl rfl rfl rfl rfl rfl

theorem State.spdm_keeps {z : State} {s : State} {fn : Nat} {body : State → State} (hs : Keeps z s) (hbody : ∀ y0, Keeps z y0 → Keeps z (body y0)) : Keeps z (State.spdm s fn body) := by
  unfold State.spdm
  with_reducible repeat' first
    | assumption
    | intro y
    | apply State.spdmError_keeps
    | apply hbody
    | apply KeepsR.next
    | apply Keeps.ite

theorem State.inSession_keeps {z : State} {s : State} {fn : Nat} {n : Nat} {body : State → Session → State} (hs : Keeps z s) (hbody : ∀ y0 y1, Keeps z y0 → Keeps z (body y0 y1)) : Keeps z (State.inSession s fn n body) := by
  unfold State.inSession
  with_reducible repeat' first
    | assumption
    | intro y
    | apply State.spdmError_keeps
    | apply State.spdm_keeps
    | apply hbody
    | apply KeepsR.next
    | apply Keeps.ite
    | apply Keeps.foldl
    | apply Keeps.foldlFst
    | exact KeepsO.none
    | apply KeepsO.some
    | dsimp only
    | fail_if_no_progress refine Keeps.lit ?_ rfl rfl rfl rfl rfl rfl rfl rfl rfl
    | refine Keeps.ofFst (Keeps.foldlFst ?_ ?_) (by assumption)
    | split

theorem State.mailbox_keeps {z : State} {s : State} {body : State → State} (hs : Keeps z s) (hbody : ∀ y0, Keeps z y0 → Keeps z (body y0)) : Keeps z (State.mailbox s body) := by
  unfold State.mailbox
  with_reducible repeat' first
    | assumption
    | intro y
    | apply hbody
    | apply KeepsR.next
    | apply Keeps.ite

theorem State.mbxDone_keeps {z : State} {s : State} {status : Nat} {detail : Nat} {resp : optParam (List Nat) []} (hs : Keeps z s) : Keeps z (State.mbxDone s status detail resp) := by
  unfold State.mbxDone
  with_reducible repeat' first
    | assumption
    | intro y
    | apply State.fresh_keeps
    | refine Keeps.ofFst (State.fresh_keeps ?_) (by assumption)
    | apply State.wr_keeps
    | apply State.raise_keeps
    | apply State.count_keeps
    | apply KeepsR.next
    | apply Keeps.ite
    | apply Keeps.foldl
    | apply Keeps.foldlFst
    | exact KeepsO.none
    | apply KeepsO.some
    | dsimp only
    | fail_if_no_progress refine Keeps.lit ?_ rfl rfl rfl rfl rfl rfl rfl rfl rfl

theorem State.owner_keeps {z : State} {s : State} {o : OwnerBlob} {unsignedOk : Bool} {body : State → State} (hs : Keeps z s) (hbody : ∀ y0, Keeps z y0 → Keeps z (body y0)) : Keeps z (State.owner s o unsignedOk body) := by
  unfold State.owner
  with_reducible repeat' first
    | assumption
    | intro y
    | apply State.mailbox_keeps
    | apply State.mbxDone_keeps
    | apply hbody
    | apply KeepsR.next
    | apply Keeps.ite
    | apply Keeps.foldl
    | apply Keeps.foldlFst
    | exact KeepsO.none
    | apply KeepsO.some
    | dsimp only
    | fail_if_no_progress refine Keeps.lit ?_ rfl rfl rfl rfl rfl rfl rfl rfl rfl

theorem State.putSection_keeps {z : State} {s : State} {c : Nat} {d : CaskDest} {bs : List Byte} (hs : Keeps z s) : Keeps z (State.putSection s c d bs) := by
  unfold State.putSection
  with_reducible repeat' first
    | assumption
    | intro y
    | apply State.putSeg_keeps
    | apply State.hubWrite_keeps
    | apply KeepsR.next
    | apply Keeps.ite
    | apply Keeps.foldl
    | apply Keeps.foldlFst
    | exact KeepsO.none
    | apply KeepsO.some
    | dsimp only
    | fail_if_no_progress refine Keeps.lit ?_ rfl rfl rfl rfl rfl rfl rfl rfl rfl
    | refine Keeps.ofFst (Keeps.foldlFst ?_ ?_) (by assumption)
    | split

theorem State.setConn_keeps {z : State} {s : State} {fn : Nat} {c : Conn} (hs : Keeps z s) : Keeps z (State.setConn s fn c) := by
  unfold State.setConn
  with_reducible repeat' first
    | assumption
    | intro y
    | apply KeepsR.next
    | apply Keeps.ite
    | apply Keeps.foldl
    | apply Keeps.foldlFst
    | exact KeepsO.none
    | apply KeepsO.some
    | dsimp only
    | fail_if_no_progress refine Keeps.lit ?_ rfl rfl rfl rfl rfl rfl rfl rfl rfl

theorem State.showOwner_keeps {z : State} {s : State} (hs : Keeps z s) : Keeps z (State.showOwner s) := by
  unfold State.showOwner
  with_reducible repeat' first
    | assumption
    | intro y
    | apply State.wr_keeps

theorem State.setOwner_keeps {z : State} {s : State} {key : Nat} (hs : Keeps z s) : Keeps z (State.setOwner s key) := by
  unfold State.setOwner
  with_reducible repeat' first
    | assumption
    | intro y
    | apply State.showOwner_keeps
    | apply State.mbxDone_keeps
    | apply KeepsR.next
    | apply Keeps.ite
    | apply Keeps.foldl
    | apply Keeps.foldlFst
    | exact KeepsO.none
    | apply KeepsO.some
    | dsimp only
    | fail_if_no_progress refine Keeps.lit ?_ rfl rfl rfl rfl rfl rfl rfl rfl rfl

theorem State.signedAnswer_keeps {z : State} {s : State} {fn : Nat} {body : State → State} (hs : Keeps z s) (hbody : ∀ y0, Keeps z y0 → Keeps z (body y0)) : Keeps z (State.signedAnswer s fn body) := by
  unfold State.signedAnswer
  with_reducible repeat' first
    | assumption
    | intro y
    | apply State.fresh_keeps
    | refine Keeps.ofFst (State.fresh_keeps ?_) (by assumption)
    | apply State.spdmError_keeps
    | apply State.setConn_keeps
    | apply State.wr_keeps
    | apply State.raise_keeps
    | apply State.count_keeps
    | apply hbody
    | apply KeepsR.next
    | apply Keeps.ite
    | apply Keeps.foldl
    | apply Keeps.foldlFst
    | exact KeepsO.none
    | apply KeepsO.some
    | dsimp only
    | fail_if_no_progress refine Keeps.lit ?_ rfl rfl rfl rfl rfl rfl rfl rfl rfl

theorem State.spdmAfter_keeps {z : State} {s : State} {fn : Nat} {body : State → State} (hs : Keeps z s) (hbody : ∀ y0, Keeps z y0 → Keeps z (body y0)) : Keeps z (State.spdmAfter s fn body) := by
  unfold State.spdmAfter
  with_reducible repeat' first
    | assumption
    | intro y
    | apply State.spdmError_keeps
    | apply State.spdm_keeps
    | apply hbody
    | apply KeepsR.next
    | apply Keeps.ite

theorem State.spdmAnswer_keeps {z : State} {s : State} {fn : Nat} {ws : List Nat} (hs : Keeps z s) : Keeps z (State.spdmAnswer s fn ws) := by
  unfold State.spdmAnswer
  with_reducible repeat' first
    | assumption
    | intro y
    | apply KeepsR.next
    | apply Keeps.ite
    | apply Keeps.foldl
    | apply Keeps.foldlFst
    | exact KeepsO.none
    | apply KeepsO.some
    | dsimp only
    | fail_if_no_progress refine Keeps.lit ?_ rfl rfl rfl rfl rfl rfl rfl rfl rfl

theorem State.tenant_keeps {z : State} {s : State} {fn : Nat} {sess : Nat} {c : Nat} {body : State → State} (hs : Keeps z s) (hbody : ∀ y0, Keeps z y0 → Keeps z (body y0)) : Keeps z (State.tenant s fn sess c body) := by
  unfold State.tenant
  with_reducible repeat' first
    | assumption
    | intro y
    | apply State.spdmAnswer_keeps
    | apply State.inSession_keeps
    | apply hbody
    | apply KeepsR.next
    | apply Keeps.ite

theorem execBottomTreeSwitch_keeps {z : State} {s : State} (hs : Keeps z s) : KeepsR z (execBottomTreeSwitch s) := by
  unfold execBottomTreeSwitch
  with_reducible repeat' first
    | assumption
    | intro y
    | apply State.newAlias_keeps
    | apply State.raise_keeps
    | apply KeepsR.next
    | apply Keeps.ite

theorem execCaskLoad_keeps {z : State} {k : CaskIn} {s : State} (hs : Keeps z s) : KeepsR z (execCaskLoad k s) := by
  unfold execCaskLoad
  with_reducible repeat' first
    | assumption
    | intro y
    | apply State.showCasks_keeps
    | apply State.mailbox_keeps
    | apply State.mbxDone_keeps
    | apply KeepsR.next
    | apply Keeps.ite
    | apply Keeps.foldl
    | apply Keeps.foldlFst
    | exact KeepsO.none
    | apply KeepsO.some
    | dsimp only
    | fail_if_no_progress refine Keeps.lit ?_ rfl rfl rfl rfl rfl rfl rfl rfl rfl
    | refine Keeps.ofFst (Keeps.foldlFst ?_ ?_) (by assumption)
    | split

theorem execCaskLoadDone_keeps {z : State} {data : Option (List (List Byte))} {again : Nat} {s : State} (hs : Keeps z s) : KeepsR z (execCaskLoadDone data again s) := by
  unfold execCaskLoadDone
  with_reducible repeat' first
    | assumption
    | intro y
    | apply State.showCasks_keeps
    | apply State.putSection_keeps
    | apply State.mbxDone_keeps
    | apply State.count_keeps
    | apply KeepsR.next
    | apply Keeps.ite
    | apply Keeps.foldl
    | apply Keeps.foldlFst
    | exact KeepsO.none
    | apply KeepsO.some
    | dsimp only
    | fail_if_no_progress refine Keeps.lit ?_ rfl rfl rfl rfl rfl rfl rfl rfl rfl
    | refine Keeps.ofFst (Keeps.foldlFst ?_ ?_) (by assumption)
    | split

theorem execCaskUnload_keeps {z : State} {ctx : Fin 1024} {slot : Fin 256} {s : State} (hs : Keeps z s) : KeepsR z (execCaskUnload ctx slot s) := by
  unfold execCaskUnload
  with_reducible repeat' first
    | assumption
    | intro y
    | apply State.showCasks_keeps
    | apply State.mailbox_keeps
    | apply State.mbxDone_keeps
    | apply KeepsR.next
    | apply Keeps.ite
    | apply Keeps.foldl
    | apply Keeps.foldlFst
    | exact KeepsO.none
    | apply KeepsO.some
    | dsimp only
    | fail_if_no_progress refine Keeps.lit ?_ rfl rfl rfl rfl rfl rfl rfl rfl rfl
    | refine Keeps.ofFst (Keeps.foldlFst ?_ ?_) (by assumption)
    | split

theorem execCtxClaim_keeps {z : State} {fn : Fin 32} {sess : Nat} {ctx : Fin 1024} {s : State} (hs : Keeps z s) : KeepsR z (execCtxClaim fn sess ctx s) := by
  unfold execCtxClaim
  with_reducible repeat' first
    | assumption
    | intro y
    | apply State.setCtxState_keeps
    | apply State.spdmAnswer_keeps
    | apply State.signedAnswer_keeps
    | apply State.inSession_keeps
    | apply State.count_keeps
    | apply KeepsR.next
    | apply Keeps.ite
    | apply Keeps.foldl
    | apply Keeps.foldlFst
    | exact KeepsO.none
    | apply KeepsO.some
    | dsimp only
    | fail_if_no_progress refine Keeps.lit ?_ rfl rfl rfl rfl rfl rfl rfl rfl rfl

theorem execDebugToken_keeps {z : State} {o : OwnerBlob} {vendor : Bool} {counter : Bool} {s : State} (hs : Keeps z s) : KeepsR z (execDebugToken o vendor counter s) := by
  unfold execDebugToken
  with_reducible repeat' first
    | assumption
    | intro y
    | apply State.owner_keeps
    | apply State.wr_keeps
    | apply State.mbxDone_keeps
    | apply KeepsR.next
    | apply Keeps.ite
    | apply Keeps.foldl
    | apply Keeps.foldlFst
    | exact KeepsO.none
    | apply KeepsO.some
    | dsimp only
    | fail_if_no_progress refine Keeps.lit ?_ rfl rfl rfl rfl rfl rfl rfl rfl rfl

theorem execDoeObjectDiscard_keeps {z : State} {fn : Fin 32} {type : Nat} {s : State} (hs : Keeps z s) : KeepsR z (execDoeObjectDiscard fn type s) := by
  unfold execDoeObjectDiscard
  with_reducible repeat' first
    | assumption
    | intro y
    | apply State.setConn_keeps
    | apply KeepsR.next
    | apply Keeps.ite

theorem execGetKemKey_keeps {z : State} {fn : Fin 32} {s : State} (hs : Keeps z s) : KeepsR z (execGetKemKey fn s) := by
  unfold execGetKemKey
  with_reducible repeat' first
    | assumption
    | intro y
    | apply State.spdmAfter_keeps
    | apply State.setConn_keeps
    | apply State.spdmAnswer_keeps
    | apply KeepsR.next

theorem execGetLmsCerts_keeps {z : State} {fn : Fin 32} {off : Nat} {len : Nat} {s : State} (hs : Keeps z s) : KeepsR z (execGetLmsCerts fn off len s) := by
  unfold execGetLmsCerts
  with_reducible repeat' first
    | assumption
    | intro y
    | apply State.spdmAfter_keeps
    | apply State.spdmAnswer_keeps
    | apply KeepsR.next

theorem execGetLmsSig_keeps {z : State} {fn : Fin 32} {s : State} (hs : Keeps z s) : KeepsR z (execGetLmsSig fn s) := by
  unfold execGetLmsSig
  with_reducible repeat' first
    | assumption
    | intro y
    | apply State.spdmAfter_keeps
    | apply State.spdmError_keeps
    | apply State.setConn_keeps
    | apply State.spdmAnswer_keeps
    | apply KeepsR.next
    | apply Keeps.ite
    | apply Keeps.foldl
    | apply Keeps.foldlFst
    | exact KeepsO.none
    | apply KeepsO.some
    | dsimp only
    | fail_if_no_progress refine Keeps.lit ?_ rfl rfl rfl rfl rfl rfl rfl rfl rfl
    | refine Keeps.ofFst (Keeps.foldlFst ?_ ?_) (by assumption)
    | split

theorem execKemCt_keeps {z : State} {fn : Fin 32} {s : State} (hs : Keeps z s) : KeepsR z (execKemCt fn s) := by
  unfold execKemCt
  with_reducible repeat' first
    | assumption
    | intro y
    | apply State.spdmAfter_keeps
    | apply State.spdmError_keeps
    | apply State.setConn_keeps
    | apply State.spdmAnswer_keeps
    | apply KeepsR.next
    | apply Keeps.ite

theorem execLmsSigExpire_keeps {z : State} {fn : Fin 32} {s : State} (hs : Keeps z s) : KeepsR z (execLmsSigExpire fn s) := by
  unfold execLmsSigExpire
  with_reducible repeat' first
    | assumption
    | intro y
    | apply State.setConn_keeps
    | apply KeepsR.next
    | apply Keeps.ite
    | apply Keeps.foldl
    | apply Keeps.foldlFst
    | exact KeepsO.none
    | apply KeepsO.some
    | dsimp only
    | fail_if_no_progress refine Keeps.lit ?_ rfl rfl rfl rfl rfl rfl rfl rfl rfl
    | refine Keeps.ofFst (Keeps.foldlFst ?_ ?_) (by assumption)
    | split

theorem execOwnerRelease_keeps {z : State} {o : OwnerBlob} {s : State} (hs : Keeps z s) : KeepsR z (execOwnerRelease o s) := by
  unfold execOwnerRelease
  with_reducible repeat' first
    | assumption
    | intro y
    | apply State.showOwner_keeps
    | apply State.owner_keeps
    | apply State.mbxDone_keeps
    | apply KeepsR.next
    | apply Keeps.ite
    | apply Keeps.foldl
    | apply Keeps.foldlFst
    | exact KeepsO.none
    | apply KeepsO.some
    | dsimp only
    | fail_if_no_progress refine Keeps.lit ?_ rfl rfl rfl rfl rfl rfl rfl rfl rfl

theorem execOwnerSet_keeps {z : State} {o : OwnerBlob} {key : Nat} {s : State} (hs : Keeps z s) : KeepsR z (execOwnerSet o key s) := by
  unfold execOwnerSet
  with_reducible repeat' first
    | assumption
    | intro y
    | apply State.owner_keeps
    | apply State.setOwner_keeps
    | apply KeepsR.next

theorem execOwnerTransfer_keeps {z : State} {o : OwnerBlob} {key : Nat} {s : State} (hs : Keeps z s) : KeepsR z (execOwnerTransfer o key s) := by
  unfold execOwnerTransfer
  with_reducible repeat' first
    | assumption
    | intro y
    | apply State.owner_keeps
    | apply State.setOwner_keeps
    | apply KeepsR.next

theorem execPolicy_keeps {z : State} {o : OwnerBlob} {items : List (PolicyItem × Nat)} {s : State} (hs : Keeps z s) : KeepsR z (execPolicy o items s) := by
  unfold execPolicy
  with_reducible repeat' first
    | assumption
    | intro y
    | apply State.showCeiling_keeps
    | apply State.owner_keeps
    | apply State.wr_keeps
    | apply State.mbxDone_keeps
    | apply KeepsR.next
    | apply Keeps.ite
    | apply Keeps.foldl
    | apply Keeps.foldlFst
    | exact KeepsO.none
    | apply KeepsO.some
    | dsimp only
    | fail_if_no_progress refine Keeps.lit ?_ rfl rfl rfl rfl rfl rfl rfl rfl rfl

theorem execPubEnrol_keeps {z : State} {o : OwnerBlob} {slot : Fin 32} {key : Nat} {s : State} (hs : Keeps z s) : KeepsR z (execPubEnrol o slot key s) := by
  unfold execPubEnrol
  with_reducible repeat' first
    | assumption
    | intro y
    | apply State.showOwner_keeps
    | apply State.owner_keeps
    | apply State.mbxDone_keeps
    | apply KeepsR.next
    | apply Keeps.ite
    | apply Keeps.foldl
    | apply Keeps.foldlFst
    | exact KeepsO.none
    | apply KeepsO.some
    | dsimp only
    | fail_if_no_progress refine Keeps.lit ?_ rfl rfl rfl rfl rfl rfl rfl rfl rfl

theorem execPubRevoke_keeps {z : State} {o : OwnerBlob} {slot : Fin 32} {s : State} (hs : Keeps z s) : KeepsR z (execPubRevoke o slot s) := by
  unfold execPubRevoke
  with_reducible repeat' first
    | assumption
    | intro y
    | apply State.showOwner_keeps
    | apply State.owner_keeps
    | apply State.mbxDone_keeps
    | apply KeepsR.next
    | apply Keeps.ite
    | apply Keeps.foldl
    | apply Keeps.foldlFst
    | exact KeepsO.none
    | apply KeepsO.some
    | dsimp only
    | fail_if_no_progress refine Keeps.lit ?_ rfl rfl rfl rfl rfl rfl rfl rfl rfl

theorem execSessionHbExpire_keeps {z : State} {sess : Nat} {s : State} (hs : Keeps z s) : KeepsR z (execSessionHbExpire sess s) := by
  unfold execSessionHbExpire
  with_reducible repeat' first
    | assumption
    | intro y
    | apply State.endSession_keeps
    | apply KeepsR.next
    | apply Keeps.ite
    | apply Keeps.foldl
    | apply Keeps.foldlFst
    | exact KeepsO.none
    | apply KeepsO.some
    | dsimp only
    | fail_if_no_progress refine Keeps.lit ?_ rfl rfl rfl rfl rfl rfl rfl rfl rfl
    | refine Keeps.ofFst (Keeps.foldlFst ?_ ?_) (by assumption)
    | split

theorem execSpdmChallenge_keeps {z : State} {fn : Fin 32} {slot : Nat} {s : State} (hs : Keeps z s) : KeepsR z (execSpdmChallenge fn slot s) := by
  unfold execSpdmChallenge
  with_reducible repeat' first
    | assumption
    | intro y
    | apply State.spdmAfter_keeps
    | apply State.spdmError_keeps
    | apply State.spdmAnswer_keeps
    | apply State.signedAnswer_keeps
    | apply KeepsR.next
    | apply Keeps.ite

theorem execSpdmCtxEnd_keeps {z : State} {fn : Fin 32} {sess : Nat} {ctx : Fin 1024} {s : State} (hs : Keeps z s) : KeepsR z (execSpdmCtxEnd fn sess ctx s) := by
  unfold execSpdmCtxEnd
  with_reducible repeat' first
    | assumption
    | intro y
    | apply State.endCtx_keeps
    | apply State.spdmAnswer_keeps
    | apply State.tenant_keeps
    | apply KeepsR.next

theorem execSpdmDomainJoin_keeps {z : State} {fn : Fin 32} {sess : Nat} {ctx : Fin 1024} {dom : Nat} {share : Bool} {s : State} (hs : Keeps z s) : KeepsR z (execSpdmDomainJoin fn sess ctx dom share s) := by
  unfold execSpdmDomainJoin
  with_reducible repeat' first
    | assumption
    | intro y
    | apply State.joinDomain_keeps
    | apply State.spdmAnswer_keeps
    | apply State.tenant_keeps
    | apply KeepsR.next
    | apply Keeps.ite

theorem execSpdmEndSession_keeps {z : State} {fn : Fin 32} {sess : Nat} {s : State} (hs : Keeps z s) : KeepsR z (execSpdmEndSession fn sess s) := by
  unfold execSpdmEndSession
  with_reducible repeat' first
    | assumption
    | intro y
    | apply State.spdmAnswer_keeps
    | apply State.inSession_keeps
    | apply State.endSession_keeps
    | apply KeepsR.next

theorem execSpdmFinish_keeps {z : State} {fn : Fin 32} {ok : Bool} {events : Bool} {s : State} (hs : Keeps z s) : KeepsR z (execSpdmFinish fn ok events s) := by
  unfold execSpdmFinish
  with_reducible repeat' first
    | assumption
    | intro y
    | apply State.spdmAfter_keeps
    | apply State.spdmError_keeps
    | apply State.setConn_keeps
    | apply State.spdmAnswer_keeps
    | apply State.showSessions_keeps
    | apply State.count_keeps
    | apply KeepsR.next
    | apply Keeps.ite
    | apply Keeps.foldl
    | apply Keeps.foldlFst
    | exact KeepsO.none
    | apply KeepsO.some
    | dsimp only
    | fail_if_no_progress refine Keeps.lit ?_ rfl rfl rfl rfl rfl rfl rfl rfl rfl
    | refine Keeps.ofFst (Keeps.foldlFst ?_ ?_) (by assumption)
    | split

theorem execSpdmGetCapabilities_keeps {z : State} {fn : Fin 32} {version : Nat} {s : State} (hs : Keeps z s) : KeepsR z (execSpdmGetCapabilities fn version s) := by
  unfold execSpdmGetCapabilities
  with_reducible repeat' first
    | assumption
    | intro y
    | apply State.spdmError_keeps
    | apply State.setConn_keeps
    | apply State.spdm_keeps
    | apply State.spdmAnswer_keeps
    | apply KeepsR.next
    | apply Keeps.ite

theorem execSpdmGetCertificate_keeps {z : State} {fn : Fin 32} {slot : Nat} {off : Nat} {len : Nat} {s : State} (hs : Keeps z s) : KeepsR z (execSpdmGetCertificate fn slot off len s) := by
  unfold execSpdmGetCertificate
  with_reducible repeat' first
    | assumption
    | intro y
    | apply State.spdmAfter_keeps
    | apply State.spdmError_keeps
    | apply State.spdmAnswer_keeps
    | apply KeepsR.next
    | apply Keeps.ite

theorem execSpdmGetDigests_keeps {z : State} {fn : Fin 32} {s : State} (hs : Keeps z s) : KeepsR z (execSpdmGetDigests fn s) := by
  unfold execSpdmGetDigests
  with_reducible repeat' first
    | assumption
    | intro y
    | apply State.spdmAfter_keeps
    | apply State.spdmAnswer_keeps
    | apply KeepsR.next

theorem execSpdmGetMeasurements_keeps {z : State} {fn : Fin 32} {isSigned : Bool} {s : State} (hs : Keeps z s) : KeepsR z (execSpdmGetMeasurements fn isSigned s) := by
  unfold execSpdmGetMeasurements
  with_reducible repeat' first
    | assumption
    | intro y
    | apply State.spdmAfter_keeps
    | apply State.spdmAnswer_keeps
    | apply State.signedAnswer_keeps
    | apply KeepsR.next
    | apply Keeps.ite

theorem execSpdmGetVersion_keeps {z : State} {fn : Fin 32} {s : State} (hs : Keeps z s) : KeepsR z (execSpdmGetVersion fn s) := by
  unfold execSpdmGetVersion
  with_reducible repeat' first
    | assumption
    | intro y
    | apply State.setConn_keeps
    | apply State.spdm_keeps
    | apply State.spdmAnswer_keeps
    | apply KeepsR.next

theorem execSpdmHeartbeat_keeps {z : State} {fn : Fin 32} {sess : Nat} {s : State} (hs : Keeps z s) : KeepsR z (execSpdmHeartbeat fn sess s) := by
  unfold execSpdmHeartbeat
  with_reducible repeat' first
    | assumption
    | intro y
    | apply State.spdmAnswer_keeps
    | apply State.inSession_keeps
    | apply KeepsR.next
    | apply Keeps.ite
    | apply Keeps.foldl
    | apply Keeps.foldlFst
    | exact KeepsO.none
    | apply KeepsO.some
    | dsimp only
    | fail_if_no_progress refine Keeps.lit ?_ rfl rfl rfl rfl rfl rfl rfl rfl rfl

theorem execSpdmKeyExchange_keeps {z : State} {fn : Fin 32} {hashOk : Bool} {s : State} (hs : Keeps z s) : KeepsR z (execSpdmKeyExchange fn hashOk s) := by
  unfold execSpdmKeyExchange
  with_reducible repeat' first
    | assumption
    | intro y
    | apply State.spdmAfter_keeps
    | apply State.spdmError_keeps
    | apply State.setConn_keeps
    | apply State.spdmAnswer_keeps
    | apply State.signedAnswer_keeps
    | apply KeepsR.next
    | apply Keeps.ite
    | apply Keeps.foldl
    | apply Keeps.foldlFst
    | exact KeepsO.none
    | apply KeepsO.some
    | dsimp only
    | fail_if_no_progress refine Keeps.lit ?_ rfl rfl rfl rfl rfl rfl rfl rfl rfl
    | refine Keeps.ofFst (Keeps.foldlFst ?_ ?_) (by assumption)
    | split

theorem execSpdmKeyUpdate_keeps {z : State} {fn : Fin 32} {sess : Nat} {s : State} (hs : Keeps z s) : KeepsR z (execSpdmKeyUpdate fn sess s) := by
  unfold execSpdmKeyUpdate
  with_reducible repeat' first
    | assumption
    | intro y
    | apply State.spdmAnswer_keeps
    | apply State.inSession_keeps
    | apply KeepsR.next
    | apply Keeps.ite
    | apply Keeps.foldl
    | apply Keeps.foldlFst
    | exact KeepsO.none
    | apply KeepsO.some
    | dsimp only
    | fail_if_no_progress refine Keeps.lit ?_ rfl rfl rfl rfl rfl rfl rfl rfl rfl

theorem execSpdmNegotiateAlgorithms_keeps {z : State} {fn : Fin 32} {offered : Bool} {s : State} (hs : Keeps z s) : KeepsR z (execSpdmNegotiateAlgorithms fn offered s) := by
  unfold execSpdmNegotiateAlgorithms
  with_reducible repeat' first
    | assumption
    | intro y
    | apply State.spdmError_keeps
    | apply State.setConn_keeps
    | apply State.spdm_keeps
    | apply State.spdmAnswer_keeps
    | apply KeepsR.next
    | apply Keeps.ite

theorem execVfFlr_keeps {z : State} {fn : Fin 32} {s : State} (hs : Keeps z s) : KeepsR z (execVfFlr fn s) := by
  unfold execVfFlr
  apply KeepsR.next
  split
  · exact hs
  · extract_lets +onlyGivenNames cs s1 mine s2 s3 s4 src s5
    have h1 : Keeps z s1 := State.forgetRings_keeps hs
    have h2 : Keeps z s2 := Keeps.foldl (fun t x h => State.flrRq_keeps h) h1
    have h3 : Keeps z s3 := Keeps.foldl (fun t x h => State.endSession_keeps h) h2
    have h4 : Keeps z s4 := Keeps.foldl (fun t x h => State.unbind_keeps h) h3
    have h5 : Keeps z s5 := h4.of rfl rfl rfl fun c => ⟨c.vstore, c.fstore, c.mem, c.host, sorted_filter _ c.regs, c.ctrs⟩
    exact State.showRqt_keeps (State.showRings_keeps h5)

end Sys2Proof.Machine
end

