-- ==== Sys2Proof/Laws/KeepsFirmware.lean ====
section
/-! SUPPORT. Every operation of `Machine/Firmware.lean` keeps the queue, the variant, the clock and the canonical stores. -/

namespace Sys2Proof.Machine

theorem State.recordSlot_keeps {z : State} {s : State} {c : Nat} {k : Nat} (hs : Keeps z s) : Keeps z (State.recordSlot s c k) := by
  unfold State.recordSlot
  with_reducible repeat' first
    | assumption
    | intro y
    | apply KeepsR.next
    | apply Keeps.ite
    | apply Keeps.foldl
    | apply Keeps.foldlFst
    | exact KeepsO.none
    | apply KeepsO.some
    | dsimp only
    | fail_if_no_progress refine Keeps.lit ?_ rfl rfl rfl rfl rfl rfl rfl rfl rfl

theorem State.tellMeasurement_keeps {z : State} {s : State} {changed : Bool} (hs : Keeps z s) : Keeps z (State.tellMeasurement s changed) := by
  unfold State.tellMeasurement
  with_reducible repeat' first
    | assumption
    | intro y
    | apply KeepsR.next
    | apply Keeps.ite
    | apply Keeps.foldl
    | apply Keeps.foldlFst
    | exact KeepsO.none
    | apply KeepsO.some
    | dsimp only
    | fail_if_no_progress refine Keeps.lit ?_ rfl rfl rfl rfl rfl rfl rfl rfl rfl

theorem State.showSlot_keeps {z : State} {s : State} {c : Nat} {k : Nat} (hs : Keeps z s) : Keeps z (State.showSlot s c k) := by
  unfold State.showSlot
  with_reducible repeat' first
    | assumption
    | intro y
    | apply State.wri_keeps

theorem State.setSlot_keeps {z : State} {s : State} {c : Nat} {k : Nat} {x : FwSlot} (hs : Keeps z s) : Keeps z (State.setSlot s c k x) := by
  unfold State.setSlot
  with_reducible repeat' first
    | assumption
    | intro y
    | apply State.showSlot_keeps
    | apply KeepsR.next
    | apply Keeps.ite
    | apply Keeps.foldl
    | apply Keeps.foldlFst
    | exact KeepsO.none
    | apply KeepsO.some
    | dsimp only
    | fail_if_no_progress refine Keeps.lit ?_ rfl rfl rfl rfl rfl rfl rfl rfl rfl

theorem State.checkSlots_keeps {z : State} {s : State} (hs : Keeps z s) : Keeps z (State.checkSlots s) := by
  unfold State.checkSlots
  with_reducible repeat' first
    | assumption
    | intro y
    | apply State.setSlot_keeps
    | apply KeepsR.next
    | apply Keeps.ite
    | apply Keeps.foldl

theorem State.raiseFuse_keeps {z : State} {s : State} {c : Nat} (hs : Keeps z s) : Keeps z (State.raiseFuse s c) := by
  unfold State.raiseFuse
  with_reducible repeat' first
    | assumption
    | intro y
    | apply State.wri_keeps
    | apply State.checkSlots_keeps
    | apply KeepsR.next
    | apply Keeps.ite
    | apply Keeps.foldl
    | apply Keeps.foldlFst
    | exact KeepsO.none
    | apply KeepsO.some
    | dsimp only
    | fail_if_no_progress refine Keeps.lit ?_ rfl rfl rfl rfl rfl rfl rfl rfl rfl

theorem State.actDone_keeps {z : State} {s : State} {a : Activation} {phase : Nat} (hs : Keeps z s) : Keeps z (State.actDone s a phase) := by
  unfold State.actDone
  with_reducible repeat' first
    | assumption
    | intro y
    | apply State.wri_keeps
    | apply State.recordSlot_keeps
    | apply State.wr_keeps
    | apply State.raise_keeps
    | apply State.tellMeasurement_keeps
    | apply State.raiseFuse_keeps
    | apply State.count_keeps
    | apply KeepsR.next
    | apply Keeps.ite
    | apply Keeps.foldl
    | apply Keeps.foldlFst
    | exact KeepsO.none
    | apply KeepsO.some
    | dsimp only
    | fail_if_no_progress refine Keeps.lit ?_ rfl rfl rfl rfl rfl rfl rfl rfl rfl

theorem State.actFail_keeps {z : State} {s : State} {a : Activation} (hs : Keeps z s) : Keeps z (State.actFail s a) := by
  unfold State.actFail
  with_reducible repeat' first
    | assumption
    | intro y
    | apply State.wri_keeps
    | apply State.wr_keeps
    | apply State.raise_keeps
    | apply State.count_keeps
    | apply KeepsR.next
    | apply Keeps.ite
    | apply Keeps.foldl
    | apply Keeps.foldlFst
    | exact KeepsO.none
    | apply KeepsO.some
    | dsimp only
    | fail_if_no_progress refine Keeps.lit ?_ rfl rfl rfl rfl rfl rfl rfl rfl rfl

theorem State.loadLibrary_keeps {z : State} {s : State} {loads : List (FloorId × LoadJob)} (hs : Keeps z s) : Keeps z (State.loadLibrary s loads) := by
  unfold State.loadLibrary
  with_reducible repeat' first
    | assumption
    | intro y
    | apply State.writeLoad_keeps
    | apply KeepsR.next
    | apply Keeps.ite
    | apply Keeps.foldl
    | apply Keeps.foldlFst
    | exact KeepsO.none
    | apply KeepsO.some
    | dsimp only
    | fail_if_no_progress refine Keeps.lit ?_ rfl rfl rfl rfl rfl rfl rfl rfl rfl
    | refine Keeps.ofFst (Keeps.foldlFst ?_ ?_) (by assumption)
    | split

theorem State.enterRecovery_keeps {z : State} {s : State} {strap : Bool} (hs : Keeps z s) : Keeps z (State.enterRecovery s strap) := by
  unfold State.enterRecovery
  with_reducible repeat' first
    | assumption
    | intro y
    | apply State.wr_keeps
    | apply KeepsR.next
    | apply Keeps.ite
    | apply Keeps.foldl
    | apply Keeps.foldlFst
    | exact KeepsO.none
    | apply KeepsO.some
    | dsimp only
    | fail_if_no_progress refine Keeps.lit ?_ rfl rfl rfl rfl rfl rfl rfl rfl rfl

theorem State.runSlot_keeps {z : State} {s : State} {c : Nat} {k : Nat} (hs : Keeps z s) : Keeps z (State.runSlot s c k) := by
  unfold State.runSlot
  with_reducible repeat' first
    | assumption
    | intro y
    | apply State.wri_keeps
    | apply KeepsR.next
    | apply Keeps.ite
    | apply Keeps.foldl
    | apply Keeps.foldlFst
    | exact KeepsO.none
    | apply KeepsO.some
    | dsimp only
    | fail_if_no_progress refine Keeps.lit ?_ rfl rfl rfl rfl rfl rfl rfl rfl rfl

theorem State.useValid_keeps {z : State} {s : State} {c : Nat} (hs : Keeps z s) : Keeps z (State.useValid s c) := by
  unfold State.useValid
  with_reducible repeat' first
    | assumption
    | intro y
    | apply KeepsR.next
    | apply Keeps.ite
    | apply Keeps.foldl
    | apply Keeps.foldlFst
    | exact KeepsO.none
    | apply KeepsO.some
    | dsimp only
    | fail_if_no_progress refine Keeps.lit ?_ rfl rfl rfl rfl rfl rfl rfl rfl rfl

theorem State.selectSlots_keeps {z : State} {s : State} (hs : Keeps z s) : Keeps z (State.selectSlots s) := by
  unfold State.selectSlots
  with_reducible repeat' first
    | assumption
    | intro y
    | apply State.enterRecovery_keeps
    | apply State.wr_keeps
    | apply State.runSlot_keeps
    | apply State.useValid_keeps
    | apply KeepsR.next
    | apply Keeps.ite
    | apply Keeps.foldl
    | apply Keeps.foldlFst
    | exact KeepsO.none
    | apply KeepsO.some
    | dsimp only
    | fail_if_no_progress refine Keeps.lit ?_ rfl rfl rfl rfl rfl rfl rfl rfl rfl
    | refine Keeps.ofFst (Keeps.foldlFst ?_ ?_) (by assumption)
    | split

theorem State.gaugerBack_keeps {z : State} {s : State} (hs : Keeps z s) : Keeps z (State.gaugerBack s) := by
  unfold State.gaugerBack
  with_reducible repeat' first
    | assumption
    | intro y
    | apply State.wr_keeps
    | apply State.newAlias_keeps
    | apply KeepsR.next
    | apply Keeps.ite
    | apply Keeps.foldl
    | apply Keeps.foldlFst
    | exact KeepsO.none
    | apply KeepsO.some
    | dsimp only
    | fail_if_no_progress refine Keeps.lit ?_ rfl rfl rfl rfl rfl rfl rfl rfl rfl

theorem State.gaugerRestart_keeps {z : State} {s : State} (hs : Keeps z s) : Keeps z (State.gaugerRestart s) := by
  unfold State.gaugerRestart
  with_reducible repeat' first
    | assumption
    | intro y
    | apply State.wr_keeps
    | apply KeepsR.next
    | apply Keeps.ite
    | apply Keeps.foldl
    | apply Keeps.foldlFst
    | exact KeepsO.none
    | apply KeepsO.some
    | dsimp only
    | fail_if_no_progress refine Keeps.lit ?_ rfl rfl rfl rfl rfl rfl rfl rfl rfl

theorem execActivate_keeps {z : State} {comp : Nat} {lead : Nat} {force : Bool} {s : State} (hs : Keeps z s) : KeepsR z (execActivate comp lead force s) := by
  unfold execActivate
  with_reducible repeat' first
    | assumption
    | intro y
    | apply State.mailbox_keeps
    | apply State.wr_keeps
    | apply State.raise_keeps
    | apply State.tellMeasurement_keeps
    | apply State.mbxDone_keeps
    | apply KeepsR.next
    | apply Keeps.ite
    | apply Keeps.foldl
    | apply Keeps.foldlFst
    | exact KeepsO.none
    | apply KeepsO.some
    | dsimp only
    | fail_if_no_progress refine Keeps.lit ?_ rfl rfl rfl rfl rfl rfl rfl rfl rfl
    | refine Keeps.ofFst (Keeps.foldlFst ?_ ?_) (by assumption)
    | split

theorem execActivationBegin_keeps {z : State} {s : State} (hs : Keeps z s) : KeepsR z (execActivationBegin s) := by
  unfold execActivationBegin
  with_reducible repeat' first
    | assumption
    | intro y
    | apply State.reloadCm_keeps
    | apply State.actDone_keeps
    | apply State.drop_keeps
    | apply State.wr_keeps
    | apply State.gaugerRestart_keeps
    | apply State.count_keeps
    | apply KeepsR.next
    | apply Keeps.ite
    | apply Keeps.foldl
    | apply Keeps.foldlFst
    | exact KeepsO.none
    | apply KeepsO.some
    | dsimp only
    | fail_if_no_progress refine Keeps.lit ?_ rfl rfl rfl rfl rfl rfl rfl rfl rfl
    | refine Keeps.ofFst (Keeps.foldlFst ?_ ?_) (by assumption)
    | split

theorem execActivationComplete_keeps {z : State} {loads : List (FloorId × LoadJob)} {s : State} (hs : Keeps z s) : KeepsR z (execActivationComplete loads s) := by
  unfold execActivationComplete
  with_reducible repeat' first
    | assumption
    | intro y
    | apply State.gaugerBack_keeps
    | apply State.actDone_keeps
    | apply State.runSlot_keeps
    | apply State.loadLibrary_keeps
    | apply KeepsR.next
    | apply Keeps.ite
    | apply Keeps.foldl
    | apply Keeps.foldlFst
    | exact KeepsO.none
    | apply KeepsO.some
    | dsimp only
    | fail_if_no_progress refine Keeps.lit ?_ rfl rfl rfl rfl rfl rfl rfl rfl rfl
    | refine Keeps.ofFst (Keeps.foldlFst ?_ ?_) (by assumption)
    | split

theorem execActivationFail_keeps {z : State} {loads : List (FloorId × LoadJob)} {s : State} (hs : Keeps z s) : KeepsR z (execActivationFail loads s) := by
  unfold execActivationFail
  with_reducible repeat' first
    | assumption
    | intro y
    | apply State.gaugerBack_keeps
    | apply State.actFail_keeps
    | apply State.loadLibrary_keeps
    | apply KeepsR.next
    | apply Keeps.ite
    | apply Keeps.foldl
    | apply Keeps.foldlFst
    | exact KeepsO.none
    | apply KeepsO.some
    | dsimp only
    | fail_if_no_progress refine Keeps.lit ?_ rfl rfl rfl rfl rfl rfl rfl rfl rfl
    | refine Keeps.ofFst (Keeps.foldlFst ?_ ?_) (by assumption)
    | split

theorem execFwDiscard_keeps {z : State} {comp : Nat} {s : State} (hs : Keeps z s) : KeepsR z (execFwDiscard comp s) := by
  unfold execFwDiscard
  with_reducible repeat' first
    | assumption
    | intro y
    | apply State.mailbox_keeps
    | apply State.wri_keeps
    | apply State.mbxDone_keeps
    | apply KeepsR.next
    | apply Keeps.ite

theorem execFwStage_keeps {z : State} {comp : Nat} {img : Image} {sigOk : Bool} {kib : Nat} {s : State} (hs : Keeps z s) : KeepsR z (execFwStage comp img sigOk kib s) := by
  unfold execFwStage
  with_reducible repeat' first
    | assumption
    | intro y
    | apply State.mailbox_keeps
    | apply State.wri_keeps
    | apply State.wr_keeps
    | apply State.setSlot_keeps
    | apply State.mbxDone_keeps
    | apply KeepsR.next
    | apply Keeps.ite
    | apply Keeps.foldl
    | apply Keeps.foldlFst
    | exact KeepsO.none
    | apply KeepsO.some
    | dsimp only
    | fail_if_no_progress refine Keeps.lit ?_ rfl rfl rfl rfl rfl rfl rfl rfl rfl

theorem execFwStageDone_keeps {z : State} {readOk : Bool} {s : State} (hs : Keeps z s) : KeepsR z (execFwStageDone readOk s) := by
  unfold execFwStageDone
  with_reducible repeat' first
    | assumption
    | intro y
    | apply State.wri_keeps
    | apply State.wr_keeps
    | apply State.setSlot_keeps
    | apply State.raise_keeps
    | apply State.count_keeps
    | apply KeepsR.next
    | apply Keeps.ite
    | apply Keeps.foldl
    | apply Keeps.foldlFst
    | exact KeepsO.none
    | apply KeepsO.some
    | dsimp only
    | fail_if_no_progress refine Keeps.lit ?_ rfl rfl rfl rfl rfl rfl rfl rfl rfl
    | refine Keeps.ofFst (Keeps.foldlFst ?_ ?_) (by assumption)
    | split

theorem execRecoveryWrite_keeps {z : State} {img : Image} {sigOk : Bool} {startOk : Bool} {stored : Bool} {s : State} (hs : Keeps z s) : KeepsR z (execRecoveryWrite img sigOk startOk stored s) := by
  unfold execRecoveryWrite
  with_reducible repeat' first
    | assumption
    | intro y
    | apply State.wr_keeps
    | apply State.setSlot_keeps
    | apply KeepsR.next
    | apply Keeps.ite
    | apply Keeps.foldl
    | apply Keeps.foldlFst
    | exact KeepsO.none
    | apply KeepsO.some
    | dsimp only
    | fail_if_no_progress refine Keeps.lit ?_ rfl rfl rfl rfl rfl rfl rfl rfl rfl

end Sys2Proof.Machine
end

