-- ==== Sys2Proof/Laws/KeepsUnits.lean ====
section
/-! SUPPORT. Every operation of `Machine/Units.lean` keeps the queue, the variant, the clock and the canonical stores. -/

namespace Sys2Proof.Machine

theorem State.noteRetired_keeps {z : State} {s : State} (hs : Keeps z s) : Keeps z (State.noteRetired s) := by
  unfold State.noteRetired
  with_reducible repeat' first
    | assumption
    | intro y
    | apply State.raise_keeps
    | apply State.count_keeps

theorem State.markRetired_keeps {z : State} {s : State} {pg : Nat} (hs : Keeps z s) : Keeps z (State.markRetired s pg) := by
  unfold State.markRetired
  with_reducible repeat' first
    | assumption
    | intro y
    | apply State.noteRetired_keeps
    | apply KeepsR.next
    | apply Keeps.ite
    | apply Keeps.foldl
    | apply Keeps.foldlFst
    | exact KeepsO.none
    | apply KeepsO.some
    | dsimp only
    | fail_if_no_progress refine Keeps.lit ?_ rfl rfl rfl rfl rfl rfl rfl rfl rfl

theorem State.retireKeg_keeps {z : State} {s : State} {l : Nat} (hs : Keeps z s) : Keeps z (State.retireKeg s l) := by
  unfold State.retireKeg
  with_reducible repeat' first
    | assumption
    | intro y
    | apply State.linkFell_keeps
    | apply State.bump_keeps
    | apply State.wr_keeps
    | apply State.markRetired_keeps
    | apply KeepsR.next
    | apply Keeps.ite

theorem State.retireCodec_keeps {z : State} {s : State} {k : Nat} (hs : Keeps z s) : Keeps z (State.retireCodec s k) := by
  unfold State.retireCodec
  with_reducible repeat' first
    | assumption
    | intro y
    | apply State.markRetired_keeps
    | apply State.codecRetire_keeps
    | apply KeepsR.next
    | apply Keeps.ite

theorem State.memLost_keeps {z : State} {s : State} {p : Nat → Bool} (hs : Keeps z s) : Keeps z (State.memLost s p) := by
  unfold State.memLost
  with_reducible repeat' first
    | assumption
    | intro y
    | apply State.ctxStQ_keeps
    | apply KeepsR.next
    | apply Keeps.ite
    | apply Keeps.foldl

theorem State.retireFloor_keeps {z : State} {s : State} {die : Nat} {f : Nat} (hs : Keeps z s) : Keeps z (State.retireFloor s die f) := by
  unfold State.retireFloor
  with_reducible repeat' first
    | assumption
    | intro y
    | apply State.banksLost_keeps
    | apply State.zeroStore_keeps
    | apply State.clearTags_keeps
    | apply State.setFloor_keeps
    | apply State.wake_keeps
    | apply State.failVatSteps_keeps
    | apply State.markRetired_keeps
    | apply State.setSegTag_keeps
    | apply State.zeroSeg_keeps
    | apply State.segLost_keeps
    | apply KeepsR.next
    | apply Keeps.ite
    | apply Keeps.foldl
    | apply Keeps.foldlFst
    | exact KeepsO.none
    | apply KeepsO.some
    | dsimp only
    | fail_if_no_progress refine Keeps.lit ?_ rfl rfl rfl rfl rfl rfl rfl rfl rfl
    | refine Keeps.ofFst (Keeps.foldlFst ?_ ?_) (by assumption)
    | split

theorem State.retireDie_keeps {z : State} {s : State} {n : Nat} (hs : Keeps z s) : Keeps z (State.retireDie s n) := by
  unfold State.retireDie
  with_reducible repeat' first
    | assumption
    | intro y
    | apply State.linkFell_keeps
    | apply State.memLost_keeps
    | apply State.retireFloor_keeps
    | apply State.failStep_keeps
    | apply State.abortJobs_keeps
    | apply State.wr_keeps
    | apply State.markRetired_keeps
    | apply State.dropOps_keeps
    | apply KeepsR.next
    | apply Keeps.ite
    | apply Keeps.foldl
    | apply Keeps.foldlFst
    | exact KeepsO.none
    | apply KeepsO.some
    | dsimp only
    | fail_if_no_progress refine Keeps.lit ?_ rfl rfl rfl rfl rfl rfl rfl rfl rfl

theorem State.dropChannel_keeps {z : State} {s : State} {n : Nat} {ch : Nat} (hs : Keeps z s) : Keeps z (State.dropChannel s n ch) := by
  unfold State.dropChannel
  with_reducible repeat' first
    | assumption
    | intro y
    | apply State.wr_keeps
    | apply State.raise_keeps
    | apply State.capture_keeps

theorem State.retireChannel_keeps {z : State} {s : State} {n : Nat} {ch : Nat} (hs : Keeps z s) : Keeps z (State.retireChannel s n ch) := by
  unfold State.retireChannel
  with_reducible repeat' first
    | assumption
    | intro y
    | apply State.retireDie_keeps
    | apply State.wri_keeps
    | apply State.wr_keeps
    | apply State.noteRetired_keeps
    | apply State.dropChannel_keeps
    | apply KeepsR.next
    | apply Keeps.ite
    | apply Keeps.foldl
    | apply Keeps.foldlFst
    | exact KeepsO.none
    | apply KeepsO.some
    | dsimp only
    | fail_if_no_progress refine Keeps.lit ?_ rfl rfl rfl rfl rfl rfl rfl rfl rfl

theorem State.vatOut_keeps {z : State} {s : State} {pg : Nat} (hs : Keeps z s) : Keeps z (State.vatOut s pg) := by
  unfold State.vatOut
  with_reducible repeat' first
    | assumption
    | intro y
    | apply State.retireVat_keeps
    | apply State.retireFloor_keeps
    | apply State.noteRetired_keeps
    | apply KeepsR.next
    | apply Keeps.ite

theorem State.retireMill_keeps {z : State} {s : State} (hs : Keeps z s) : Keeps z (State.retireMill s) := by
  unfold State.retireMill
  with_reducible repeat' first
    | assumption
    | intro y
    | apply State.markRetired_keeps
    | apply State.millRetire_keeps
    | apply KeepsR.next
    | apply Keeps.ite

theorem execChannelRetire_keeps {z : State} {s : State} (hs : Keeps z s) : KeepsR z (execChannelRetire s) := by
  unfold execChannelRetire
  with_reducible repeat' first
    | assumption
    | intro y
    | apply State.retireChannel_keeps
    | apply State.recount_keeps
    | apply KeepsR.next
    | apply Keeps.ite
    | apply Keeps.foldl
    | apply Keeps.foldlFst
    | exact KeepsO.none
    | apply KeepsO.some
    | dsimp only
    | fail_if_no_progress refine Keeps.lit ?_ rfl rfl rfl rfl rfl rfl rfl rfl rfl
    | refine Keeps.ofFst (Keeps.foldlFst ?_ ?_) (by assumption)
    | split

theorem execLinkDeclaredFailed_keeps {z : State} {die : Fin 4} {far : Option (Fin 4)} {steps : List Nat} {s : State} (hs : Keeps z s) : KeepsR z (execLinkDeclaredFailed die far steps s) := by
  unfold execLinkDeclaredFailed
  with_reducible repeat' first
    | assumption
    | intro y
    | apply State.retireDie_keeps
    | apply State.failStep_keeps
    | apply State.raise_keeps
    | apply State.recount_keeps
    | apply State.capture_keeps
    | apply KeepsR.next
    | apply Keeps.ite
    | apply Keeps.foldl
    | apply Keeps.foldlFst
    | exact KeepsO.none
    | apply KeepsO.some
    | dsimp only
    | fail_if_no_progress refine Keeps.lit ?_ rfl rfl rfl rfl rfl rfl rfl rfl rfl
    | refine Keeps.ofFst (Keeps.foldlFst ?_ ?_) (by assumption)
    | split

theorem execRetirePassDone_keeps {z : State} {s : State} (hs : Keeps z s) : KeepsR z (execRetirePassDone s) := by
  unfold execRetirePassDone
  with_reducible repeat' first
    | assumption
    | intro y
    | apply State.bump_keeps
    | apply State.memLost_keeps
    | apply State.raise_keeps
    | apply KeepsR.next
    | apply Keeps.ite
    | apply Keeps.foldl
    | apply Keeps.foldlFst
    | exact KeepsO.none
    | apply KeepsO.some
    | dsimp only
    | fail_if_no_progress refine Keeps.lit ?_ rfl rfl rfl rfl rfl rfl rfl rfl rfl
    | refine Keeps.ofFst (Keeps.foldlFst ?_ ?_) (by assumption)
    | split

end Sys2Proof.Machine
end

