-- ==== Sys2Proof/Laws/KeepsBist.lean ====
section
/-! SUPPORT. Every operation of `Machine/Bist.lean` keeps the queue, the variant, the clock and the canonical stores. -/

namespace Sys2Proof.Machine

theorem State.analogRun_keeps {z : State} {s : State} {ok : Bool} (hs : Keeps z s) : Keeps z (State.analogRun s ok) := by
  unfold State.analogRun
  with_reducible repeat' first
    | assumption
    | intro y
    | apply State.raise_keeps
    | apply State.count_keeps
    | apply KeepsR.next
    | apply Keeps.ite

theorem State.checkLate_keeps {z : State} {s : State} {u : BistUnit} (hs : Keeps z s) : Keeps z (State.checkLate s u) := by
  unfold State.checkLate
  with_reducible repeat' first
    | assumption
    | intro y
    | apply State.raise_keeps
    | apply KeepsR.next
    | apply Keeps.ite
    | apply Keeps.foldl
    | apply Keeps.foldlFst
    | exact KeepsO.none
    | apply KeepsO.some
    | dsimp only
    | fail_if_no_progress refine Keeps.lit ?_ rfl rfl rfl rfl rfl rfl rfl rfl rfl

theorem State.defer_keeps {z : State} {s : State} {u : BistUnit} (hs : Keeps z s) : Keeps z (State.defer s u) := by
  unfold State.defer
  with_reducible repeat' first
    | assumption
    | intro y
    | apply State.count_keeps
    | apply KeepsR.next
    | apply Keeps.ite
    | apply Keeps.foldl
    | apply Keeps.foldlFst
    | exact KeepsO.none
    | apply KeepsO.some
    | dsimp only
    | fail_if_no_progress refine Keeps.lit ?_ rfl rfl rfl rfl rfl rfl rfl rfl rfl

theorem State.noSpareTest_keeps {z : State} {s : State} {key : Nat} (hs : Keeps z s) : Keeps z (State.noSpareTest s key) := by
  unfold State.noSpareTest
  with_reducible repeat' first
    | assumption
    | intro y
    | apply State.raise_keeps
    | apply KeepsR.next
    | apply Keeps.ite
    | apply Keeps.foldl
    | apply Keeps.foldlFst
    | exact KeepsO.none
    | apply KeepsO.some
    | dsimp only
    | fail_if_no_progress refine Keeps.lit ?_ rfl rfl rfl rfl rfl rfl rfl rfl rfl

theorem State.vatFailed_keeps {z : State} {s : State} {pg : Nat} (hs : Keeps z s) : Keeps z (State.vatFailed s pg) := by
  unfold State.vatFailed
  with_reducible repeat' first
    | assumption
    | intro y
    | apply State.vatOut_keeps
    | apply State.noSpareTest_keeps
    | apply KeepsR.next
    | apply Keeps.ite

theorem State.domainLost_keeps {z : State} {s : State} {x1 : ClkDomain} (hs : Keeps z s) : Keeps z (State.domainLost s x1) := by
  unfold State.domainLost
  with_reducible repeat' first
    | assumption
    | intro y
    | apply State.retireKeg_keeps
    | apply State.retireCodec_keeps
    | apply State.retireDie_keeps
    | apply State.retireFloor_keeps
    | apply State.cmRetire_keeps
    | apply State.wr_keeps
    | apply State.markRetired_keeps
    | apply State.noteRetired_keeps
    | apply State.retireChannel_keeps
    | apply State.vatFailed_keeps
    | apply State.retireMill_keeps
    | apply KeepsR.next
    | apply Keeps.ite
    | apply Keeps.foldl
    | apply Keeps.foldlFst
    | exact KeepsO.none
    | apply KeepsO.some
    | dsimp only
    | fail_if_no_progress refine Keeps.lit ?_ rfl rfl rfl rfl rfl rfl rfl rfl rfl
    | refine Keeps.ofFst (Keeps.foldlFst ?_ ?_) (by assumption)
    | split

theorem State.dropSlice_keeps {z : State} {s : State} {u : BistUnit} (hs : Keeps z s) : Keeps z (State.dropSlice s u) := by
  unfold State.dropSlice
  with_reducible repeat' first
    | assumption
    | intro y
    | apply KeepsR.next
    | apply Keeps.ite
    | apply Keeps.foldl
    | apply Keeps.foldlFst
    | exact KeepsO.none
    | apply KeepsO.some
    | dsimp only
    | fail_if_no_progress refine Keeps.lit ?_ rfl rfl rfl rfl rfl rfl rfl rfl rfl

theorem State.holdVat_keeps {z : State} {s : State} {pg : Nat} {h : Bool} (hs : Keeps z s) : Keeps z (State.holdVat s pg h) := by
  unfold State.holdVat
  with_reducible repeat' first
    | assumption
    | intro y
    | apply State.setVat_keeps
    | apply State.wr_keeps

theorem State.lastFail_keeps {z : State} {s : State} {u : BistUnit} (hs : Keeps z s) : Keeps z (State.lastFail s u) := by
  unfold State.lastFail
  with_reducible repeat' first
    | assumption
    | intro y
    | apply State.wr_keeps

theorem State.storeRepair_keeps {z : State} {s : State} {u : BistUnit} {x : BistSub} {full : State → State} (hs : Keeps z s) (hfull : ∀ y0, Keeps z y0 → Keeps z (full y0)) : Keeps z (State.storeRepair s u x full) := by
  unfold State.storeRepair
  with_reducible repeat' first
    | assumption
    | intro y
    | apply State.raise_keeps
    | apply hfull
    | apply KeepsR.next
    | apply Keeps.ite
    | apply Keeps.foldl
    | apply Keeps.foldlFst
    | exact KeepsO.none
    | apply KeepsO.some
    | dsimp only
    | fail_if_no_progress refine Keeps.lit ?_ rfl rfl rfl rfl rfl rfl rfl rfl rfl

theorem State.retireBank_keeps {z : State} {s : State} {pg : Nat} {b : Nat} (hs : Keeps z s) : Keeps z (State.retireBank s pg b) := by
  unfold State.retireBank
  with_reducible repeat' first
    | assumption
    | intro y
    | apply State.setBankTag_keeps
    | apply State.wri_keeps
    | apply State.wr_keeps
    | apply State.noteRetired_keeps
    | apply State.raise_keeps
    | apply State.vatOut_keeps
    | apply KeepsR.next
    | apply Keeps.ite

theorem State.repair_keeps {z : State} {s : State} {u : BistUnit} {x : BistSub} (hs : Keeps z s) : Keeps z (State.repair s u x) := by
  unfold State.repair
  with_reducible repeat' first
    | assumption
    | intro y
    | apply State.storeRepair_keeps
    | apply State.retireCodec_keeps
    | apply State.retireDie_keeps
    | apply State.retireFloor_keeps
    | apply State.wri_keeps
    | apply State.cmSlice_keeps
    | apply State.raise_keeps
    | apply State.zeroSeg_keeps
    | apply State.vatFailed_keeps
    | apply State.retireBank_keeps
    | apply State.retireMill_keeps
    | apply State.capture_keeps
    | apply KeepsR.next
    | apply Keeps.ite
    | apply Keeps.foldl
    | apply Keeps.foldlFst
    | exact KeepsO.none
    | apply KeepsO.some
    | dsimp only
    | fail_if_no_progress refine Keeps.lit ?_ rfl rfl rfl rfl rfl rfl rfl rfl rfl
    | refine Keeps.ofFst (Keeps.foldlFst ?_ ?_) (by assumption)
    | split

theorem State.slicePassed_keeps {z : State} {s : State} {u : BistUnit} (hs : Keeps z s) : Keeps z (State.slicePassed s u) := by
  unfold State.slicePassed
  with_reducible repeat' first
    | assumption
    | intro y
    | apply State.zeroStore_keeps
    | apply State.cmSlice_keeps
    | apply State.wr_keeps
    | apply State.zeroSeg_keeps
    | apply KeepsR.next
    | apply Keeps.ite
    | apply Keeps.foldl
    | apply Keeps.foldlFst
    | exact KeepsO.none
    | apply KeepsO.some
    | dsimp only
    | fail_if_no_progress refine Keeps.lit ?_ rfl rfl rfl rfl rfl rfl rfl rfl rfl
    | refine Keeps.ofFst (Keeps.foldlFst ?_ ?_) (by assumption)
    | split

theorem State.takeTest_keeps {z : State} {s : State} {u : BistUnit} (hs : Keeps z s) : Keeps z (State.takeTest s u) := by
  unfold State.takeTest
  with_reducible repeat' first
    | assumption
    | intro y
    | apply KeepsR.next
    | apply Keeps.ite
    | apply Keeps.foldl
    | apply Keeps.foldlFst
    | exact KeepsO.none
    | apply KeepsO.some
    | dsimp only
    | fail_if_no_progress refine Keeps.lit ?_ rfl rfl rfl rfl rfl rfl rfl rfl rfl

theorem State.testDone_keeps {z : State} {s : State} {u : BistUnit} (hs : Keeps z s) : Keeps z (State.testDone s u) := by
  unfold State.testDone
  with_reducible repeat' first
    | assumption
    | intro y
    | apply State.bump_keeps
    | apply State.wr_keeps
    | apply KeepsR.next
    | apply Keeps.ite
    | apply Keeps.foldl
    | apply Keeps.foldlFst
    | exact KeepsO.none
    | apply KeepsO.some
    | dsimp only
    | fail_if_no_progress refine Keeps.lit ?_ rfl rfl rfl rfl rfl rfl rfl rfl rfl

theorem State.twice_keeps {z : State} {s : State} {k : Nat} {ok : Bool} {body : State → State} (hs : Keeps z s) (hbody : ∀ y0, Keeps z y0 → Keeps z (body y0)) : Keeps z (State.twice s k ok body) := by
  unfold State.twice
  with_reducible repeat' first
    | assumption
    | intro y
    | apply hbody
    | apply KeepsR.next
    | apply Keeps.ite
    | apply Keeps.foldl
    | apply Keeps.foldlFst
    | exact KeepsO.none
    | apply KeepsO.some
    | dsimp only
    | fail_if_no_progress refine Keeps.lit ?_ rfl rfl rfl rfl rfl rfl rfl rfl rfl

theorem execBistDeferExpire_keeps {z : State} {unit : BistUnit} {s : State} (hs : Keeps z s) : KeepsR z (execBistDeferExpire unit s) := by
  unfold execBistDeferExpire
  with_reducible repeat' first
    | assumption
    | intro y
    | apply KeepsR.next
    | apply Keeps.ite
    | apply Keeps.foldl
    | apply Keeps.foldlFst
    | exact KeepsO.none
    | apply KeepsO.some
    | dsimp only
    | fail_if_no_progress refine Keeps.lit ?_ rfl rfl rfl rfl rfl rfl rfl rfl rfl
    | refine Keeps.ofFst (Keeps.foldlFst ?_ ?_) (by assumption)
    | split

theorem execBistReq_keeps {z : State} {fn : Fin 32} {v : Word} {s : State} (hs : Keeps z s) : KeepsR z (execBistReq fn v s) := by
  unfold execBistReq
  with_reducible repeat' first
    | assumption
    | intro y
    | apply State.setFloor_keeps
    | apply State.blockAction_keeps
    | apply State.raise_keeps
    | apply KeepsR.next
    | apply Keeps.ite
    | apply Keeps.foldl
    | apply Keeps.foldlFst
    | exact KeepsO.none
    | apply KeepsO.some
    | dsimp only
    | fail_if_no_progress refine Keeps.lit ?_ rfl rfl rfl rfl rfl rfl rfl rfl rfl
    | refine Keeps.ofFst (Keeps.foldlFst ?_ ?_) (by assumption)
    | split

theorem execBistSchedule_keeps {z : State} {unit : BistUnit} {s : State} (hs : Keeps z s) : KeepsR z (execBistSchedule unit s) := by
  unfold execBistSchedule
  with_reducible repeat' first
    | assumption
    | intro y
    | apply State.setFloor_keeps
    | apply State.checkLate_keeps
    | apply KeepsR.next
    | apply Keeps.ite
    | apply Keeps.foldl
    | apply Keeps.foldlFst
    | exact KeepsO.none
    | apply KeepsO.some
    | dsimp only
    | fail_if_no_progress refine Keeps.lit ?_ rfl rfl rfl rfl rfl rfl rfl rfl rfl
    | refine Keeps.ofFst (Keeps.foldlFst ?_ ?_) (by assumption)
    | split

theorem execBistSliceEnd_keeps {z : State} {unit : BistUnit} {mismatch : Option BistSub} {s : State} (hs : Keeps z s) : KeepsR z (execBistSliceEnd unit mismatch s) := by
  unfold execBistSliceEnd
  with_reducible repeat' first
    | assumption
    | intro y
    | apply State.repair_keeps
    | apply State.lastFail_keeps
    | apply State.slicePassed_keeps
    | apply State.raise_keeps
    | apply State.recount_keeps
    | apply State.count_keeps
    | apply State.testDone_keeps
    | apply State.dropSlice_keeps
    | apply KeepsR.next
    | apply Keeps.ite
    | apply Keeps.foldl
    | apply Keeps.foldlFst
    | exact KeepsO.none
    | apply KeepsO.some
    | dsimp only
    | fail_if_no_progress refine Keeps.lit ?_ rfl rfl rfl rfl rfl rfl rfl rfl rfl
    | refine Keeps.ofFst (Keeps.foldlFst ?_ ?_) (by assumption)
    | split

theorem execBistSliceStart_keeps {z : State} {unit : BistUnit} {inWindow : Bool} {s : State} (hs : Keeps z s) : KeepsR z (execBistSliceStart unit inWindow s) := by
  unfold execBistSliceStart
  with_reducible repeat' first
    | assumption
    | intro y
    | apply State.cmSlice_keeps
    | apply State.takeTest_keeps
    | apply State.defer_keeps
    | apply State.count_keeps
    | apply KeepsR.next
    | apply Keeps.ite
    | apply Keeps.foldl
    | apply Keeps.foldlFst
    | exact KeepsO.none
    | apply KeepsO.some
    | dsimp only
    | fail_if_no_progress refine Keeps.lit ?_ rfl rfl rfl rfl rfl rfl rfl rfl rfl
    | refine Keeps.ofFst (Keeps.foldlFst ?_ ?_) (by assumption)
    | split

theorem execBistSliceStop_keeps {z : State} {unit : BistUnit} {s : State} (hs : Keeps z s) : KeepsR z (execBistSliceStop unit s) := by
  unfold execBistSliceStop
  with_reducible repeat' first
    | assumption
    | intro y
    | apply State.defer_keeps
    | apply State.dropSlice_keeps
    | apply KeepsR.next
    | apply Keeps.ite

theorem execKegEyeCheck_keeps {z : State} {link : Fin 8} {ok : Bool} {s : State} (hs : Keeps z s) : KeepsR z (execKegEyeCheck link ok s) := by
  unfold execKegEyeCheck
  with_reducible repeat' first
    | assumption
    | intro y
    | apply State.retireKeg_keeps
    | apply State.analogRun_keeps
    | apply State.recount_keeps
    | apply State.twice_keeps
    | apply KeepsR.next
    | apply Keeps.ite

theorem execLpddrPhyCheck_keeps {z : State} {die : Fin 4} {ch : Fin 32} {ok : Bool} {s : State} (hs : Keeps z s) : KeepsR z (execLpddrPhyCheck die ch ok s) := by
  unfold execLpddrPhyCheck
  with_reducible repeat' first
    | assumption
    | intro y
    | apply State.analogRun_keeps
    | apply State.raise_keeps
    | apply State.twice_keeps
    | apply State.capture_keeps
    | apply KeepsR.next
    | apply Keeps.ite
    | apply Keeps.foldl
    | apply Keeps.foldlFst
    | exact KeepsO.none
    | apply KeepsO.some
    | dsimp only
    | fail_if_no_progress refine Keeps.lit ?_ rfl rfl rfl rfl rfl rfl rfl rfl rfl

theorem execPassPositionStore_keeps {z : State} {s : State} (hs : Keeps z s) : KeepsR z (execPassPositionStore s) := by
  unfold execPassPositionStore
  with_reducible repeat' first
    | assumption
    | intro y
    | apply KeepsR.next
    | apply Keeps.ite
    | apply Keeps.foldl
    | apply Keeps.foldlFst
    | exact KeepsO.none
    | apply KeepsO.some
    | dsimp only
    | fail_if_no_progress refine Keeps.lit ?_ rfl rfl rfl rfl rfl rfl rfl rfl rfl

theorem execPcieEyeCheck_keeps {z : State} {lane : Fin 8} {ok : Bool} {s : State} (hs : Keeps z s) : KeepsR z (execPcieEyeCheck lane ok s) := by
  unfold execPcieEyeCheck
  with_reducible repeat' first
    | assumption
    | intro y
    | apply State.analogRun_keeps
    | apply State.wr_keeps
    | apply State.raise_keeps
    | apply KeepsR.next
    | apply Keeps.ite

theorem execPllCheck_keeps {z : State} {dom : ClkDomain} {ok : Bool} {s : State} (hs : Keeps z s) : KeepsR z (execPllCheck dom ok s) := by
  unfold execPllCheck
  with_reducible repeat' first
    | assumption
    | intro y
    | apply State.analogRun_keeps
    | apply State.abandonRotation_keeps
    | apply State.holdVat_keeps
    | apply KeepsR.next
    | apply Keeps.ite
    | apply Keeps.foldl
    | apply Keeps.foldlFst
    | exact KeepsO.none
    | apply KeepsO.some
    | dsimp only
    | fail_if_no_progress refine Keeps.lit ?_ rfl rfl rfl rfl rfl rfl rfl rfl rfl
    | refine Keeps.ofFst (Keeps.foldlFst ?_ ?_) (by assumption)
    | split

theorem execPllRelock_keeps {z : State} {dom : ClkDomain} {ok : Bool} {s : State} (hs : Keeps z s) : KeepsR z (execPllRelock dom ok s) := by
  unfold execPllRelock
  with_reducible repeat' first
    | assumption
    | intro y
    | apply State.domainLost_keeps
    | apply State.holdVat_keeps
    | apply State.recount_keeps
    | apply KeepsR.next
    | apply Keeps.ite
    | apply Keeps.foldl
    | apply Keeps.foldlFst
    | exact KeepsO.none
    | apply KeepsO.some
    | dsimp only
    | fail_if_no_progress refine Keeps.lit ?_ rfl rfl rfl rfl rfl rfl rfl rfl rfl
    | refine Keeps.ofFst (Keeps.foldlFst ?_ ?_) (by assumption)
    | split

theorem execRepairStored_keeps {z : State} {s : State} (hs : Keeps z s) : KeepsR z (execRepairStored s) := by
  unfold execRepairStored
  with_reducible repeat' first
    | assumption
    | intro y
    | apply State.wri_keeps
    | apply State.wr_keeps
    | apply State.raise_keeps
    | apply State.recount_keeps
    | apply State.noSpareTest_keeps
    | apply State.poisonSeg_keeps
    | apply State.count_keeps
    | apply KeepsR.next
    | apply Keeps.ite
    | apply Keeps.foldl
    | apply Keeps.foldlFst
    | exact KeepsO.none
    | apply KeepsO.some
    | dsimp only
    | fail_if_no_progress refine Keeps.lit ?_ rfl rfl rfl rfl rfl rfl rfl rfl rfl
    | refine Keeps.ofFst (Keeps.foldlFst ?_ ?_) (by assumption)
    | split

theorem execTbLoopbackCheck_keeps {z : State} {lineB : Bool} {ok : Bool} {s : State} (hs : Keeps z s) : KeepsR z (execTbLoopbackCheck lineB ok s) := by
  unfold execTbLoopbackCheck
  with_reducible repeat' first
    | assumption
    | intro y
    | apply State.analogRun_keeps
    | apply State.wr_keeps
    | apply State.raise_keeps
    | apply State.recount_keeps
    | apply KeepsR.next
    | apply Keeps.ite

theorem execTbSpanEnd_keeps {z : State} {s : State} (hs : Keeps z s) : KeepsR z (execTbSpanEnd s) := by
  unfold execTbSpanEnd
  with_reducible repeat' first
    | assumption
    | intro y
    | apply State.raise_keeps
    | apply KeepsR.next
    | apply Keeps.ite
    | apply Keeps.foldl
    | apply Keeps.foldlFst
    | exact KeepsO.none
    | apply KeepsO.some
    | dsimp only
    | fail_if_no_progress refine Keeps.lit ?_ rfl rfl rfl rfl rfl rfl rfl rfl rfl

end Sys2Proof.Machine
end

