-- ==== Sys2Proof/Laws/KeepsControl.lean ====
section
/-! SUPPORT. Every operation of `Machine/Control.lean` keeps the queue, the variant, the clock and the canonical stores. -/

namespace Sys2Proof.Machine

theorem State.scalar_keeps {z : State} {s : State} {v : VatId} {op : Nat} {f : Nat → Nat → Nat} (hs : Keeps z s) : Keeps z (State.scalar s v op f) := by
  unfold State.scalar
  with_reducible repeat' first
    | assumption
    | intro y
    | apply State.frontStep_keeps

theorem State.spileRangeEnd_keeps {z : State} {s : State} {pg : Nat} {k : Kernel} {n : Nat} (hs : Keeps z s) : Keeps z (State.spileRangeEnd s pg k n) := by
  unfold State.spileRangeEnd
  with_reducible repeat' first
    | assumption
    | intro y
    | apply State.failStep_keeps
    | apply State.ctxNoteQ_keeps
    | apply State.endKernel_keeps

theorem State.spileStep_keeps {z : State} {s : State} {v : VatId} {op : Nat} {body : State → Nat → Kernel → IW → Nat → Bool → State} (hs : Keeps z s) (hbody : ∀ y0 y1 y2 y3 y4 y5, Keeps z y0 → Keeps z (body y0 y1 y2 y3 y4 y5)) : Keeps z (State.spileStep s v op body) := by
  unfold State.spileStep
  with_reducible repeat' first
    | assumption
    | intro y
    | apply State.spileRangeEnd_keeps
    | apply hbody
    | apply KeepsR.next
    | apply Keeps.ite
    | apply Keeps.foldl
    | apply Keeps.foldlFst
    | exact KeepsO.none
    | apply KeepsO.some
    | dsimp only
    | fail_if_no_progress refine Keeps.lit ?_ rfl rfl rfl rfl rfl rfl rfl rfl rfl
    | refine Keeps.ofFst (Keeps.foldlFst ?_ ?_) (by assumption)
    | split

theorem execAdd_keeps {z : State} {v : VatId} {s : State} (hs : Keeps z s) : KeepsR z (execAdd v s) := by
  unfold execAdd
  with_reducible repeat' first
    | assumption
    | intro y
    | apply State.scalar_keeps
    | apply KeepsR.next

theorem execAddi_keeps {z : State} {v : VatId} {s : State} (hs : Keeps z s) : KeepsR z (execAddi v s) := by
  unfold execAddi
  with_reducible repeat' first
    | assumption
    | intro y
    | apply State.frontStep_keeps
    | apply KeepsR.next

theorem execAnd_keeps {z : State} {v : VatId} {s : State} (hs : Keeps z s) : KeepsR z (execAnd v s) := by
  unfold execAnd
  with_reducible repeat' first
    | assumption
    | intro y
    | apply State.scalar_keeps
    | apply KeepsR.next

theorem execBr_keeps {z : State} {v : VatId} {s : State} (hs : Keeps z s) : KeepsR z (execBr v s) := by
  unfold execBr
  with_reducible repeat' first
    | assumption
    | intro y
    | apply State.setKern_keeps
    | apply KeepsR.next
    | apply Keeps.ite
    | apply Keeps.foldl
    | apply Keeps.foldlFst
    | exact KeepsO.none
    | apply KeepsO.some
    | dsimp only
    | fail_if_no_progress refine Keeps.lit ?_ rfl rfl rfl rfl rfl rfl rfl rfl rfl
    | refine Keeps.ofFst (Keeps.foldlFst ?_ ?_) (by assumption)
    | split

theorem execEndKernel_keeps {z : State} {v : VatId} {s : State} (hs : Keeps z s) : KeepsR z (execEndKernel v s) := by
  unfold execEndKernel
  with_reducible repeat' first
    | assumption
    | intro y
    | apply State.spSend_keeps
    | apply State.endKernel_keeps
    | apply KeepsR.next
    | apply Keeps.ite
    | apply Keeps.foldl
    | apply Keeps.foldlFst
    | exact KeepsO.none
    | apply KeepsO.some
    | dsimp only
    | fail_if_no_progress refine Keeps.lit ?_ rfl rfl rfl rfl rfl rfl rfl rfl rfl
    | refine Keeps.ofFst (Keeps.foldlFst ?_ ?_) (by assumption)
    | split

theorem execIllegalInstruction_keeps {z : State} {v : VatId} {s : State} (hs : Keeps z s) : KeepsR z (execIllegalInstruction v s) := by
  unfold execIllegalInstruction
  with_reducible repeat' first
    | assumption
    | intro y
    | apply State.illegalEnd_keeps
    | apply KeepsR.next
    | apply Keeps.ite
    | apply Keeps.foldl
    | apply Keeps.foldlFst
    | exact KeepsO.none
    | apply KeepsO.some
    | dsimp only
    | fail_if_no_progress refine Keeps.lit ?_ rfl rfl rfl rfl rfl rfl rfl rfl rfl
    | refine Keeps.ofFst (Keeps.foldlFst ?_ ?_) (by assumption)
    | split

theorem execInstrComplete_keeps {z : State} {v : VatId} {u : Fin 3} {s : State} (hs : Keeps z s) : KeepsR z (execInstrComplete v u s) := by
  unfold execInstrComplete
  with_reducible repeat' first
    | assumption
    | intro y
    | apply State.setKern_keeps
    | apply KeepsR.next
    | apply Keeps.ite
    | apply Keeps.foldl
    | apply Keeps.foldlFst
    | exact KeepsO.none
    | apply KeepsO.some
    | dsimp only
    | fail_if_no_progress refine Keeps.lit ?_ rfl rfl rfl rfl rfl rfl rfl rfl rfl
    | refine Keeps.ofFst (Keeps.foldlFst ?_ ?_) (by assumption)
    | split

theorem execInstrParityError_keeps {z : State} {v : VatId} {s : State} (hs : Keeps z s) : KeepsR z (execInstrParityError v s) := by
  unfold execInstrParityError
  with_reducible repeat' first
    | assumption
    | intro y
    | apply State.detectStep_keeps
    | apply State.ctxNote_keeps
    | apply State.raise_keeps
    | apply State.earlyRot_keeps
    | apply State.count_keeps
    | apply KeepsR.next
    | apply Keeps.ite
    | apply Keeps.foldl
    | apply Keeps.foldlFst
    | exact KeepsO.none
    | apply KeepsO.some
    | dsimp only
    | fail_if_no_progress refine Keeps.lit ?_ rfl rfl rfl rfl rfl rfl rfl rfl rfl
    | refine Keeps.ofFst (Keeps.foldlFst ?_ ?_) (by assumption)
    | split

theorem execKernelWdog_keeps {z : State} {v : VatId} {s : State} (hs : Keeps z s) : KeepsR z (execKernelWdog v s) := by
  unfold execKernelWdog
  with_reducible repeat' first
    | assumption
    | intro y
    | apply State.failStep_keeps
    | apply State.raise_keeps
    | apply State.endKernel_keeps
    | apply KeepsR.next
    | apply Keeps.ite
    | apply Keeps.foldl
    | apply Keeps.foldlFst
    | exact KeepsO.none
    | apply KeepsO.some
    | dsimp only
    | fail_if_no_progress refine Keeps.lit ?_ rfl rfl rfl rfl rfl rfl rfl rfl rfl
    | refine Keeps.ofFst (Keeps.foldlFst ?_ ?_) (by assumption)
    | split

theorem execLi_keeps {z : State} {v : VatId} {s : State} (hs : Keeps z s) : KeepsR z (execLi v s) := by
  unfold execLi
  with_reducible repeat' first
    | assumption
    | intro y
    | apply State.frontStep_keeps
    | apply KeepsR.next

theorem execLoop_keeps {z : State} {v : VatId} {s : State} (hs : Keeps z s) : KeepsR z (execLoop v s) := by
  unfold execLoop
  with_reducible repeat' first
    | assumption
    | intro y
    | apply State.setKern_keeps
    | apply KeepsR.next
    | apply Keeps.ite
    | apply Keeps.foldl
    | apply Keeps.foldlFst
    | exact KeepsO.none
    | apply KeepsO.some
    | dsimp only
    | fail_if_no_progress refine Keeps.lit ?_ rfl rfl rfl rfl rfl rfl rfl rfl rfl
    | refine Keeps.ofFst (Keeps.foldlFst ?_ ?_) (by assumption)
    | split

theorem execMax_keeps {z : State} {v : VatId} {s : State} (hs : Keeps z s) : KeepsR z (execMax v s) := by
  unfold execMax
  with_reducible repeat' first
    | assumption
    | intro y
    | apply State.scalar_keeps
    | apply KeepsR.next

theorem execMin_keeps {z : State} {v : VatId} {s : State} (hs : Keeps z s) : KeepsR z (execMin v s) := by
  unfold execMin
  with_reducible repeat' first
    | assumption
    | intro y
    | apply State.scalar_keeps
    | apply KeepsR.next

theorem execMul_keeps {z : State} {v : VatId} {s : State} (hs : Keeps z s) : KeepsR z (execMul v s) := by
  unfold execMul
  with_reducible repeat' first
    | assumption
    | intro y
    | apply State.scalar_keeps
    | apply KeepsR.next

theorem execNop_keeps {z : State} {v : VatId} {s : State} (hs : Keeps z s) : KeepsR z (execNop v s) := by
  unfold execNop
  with_reducible repeat' first
    | assumption
    | intro y
    | apply State.frontStep_keeps
    | apply KeepsR.next

theorem execOr_keeps {z : State} {v : VatId} {s : State} (hs : Keeps z s) : KeepsR z (execOr v s) := by
  unfold execOr
  with_reducible repeat' first
    | assumption
    | intro y
    | apply State.scalar_keeps
    | apply KeepsR.next

theorem execSeq_keeps {z : State} {v : VatId} {s : State} (hs : Keeps z s) : KeepsR z (execSeq v s) := by
  unfold execSeq
  with_reducible repeat' first
    | assumption
    | intro y
    | apply State.scalar_keeps
    | apply KeepsR.next

theorem execShl_keeps {z : State} {v : VatId} {s : State} (hs : Keeps z s) : KeepsR z (execShl v s) := by
  unfold execShl
  with_reducible repeat' first
    | assumption
    | intro y
    | apply State.scalar_keeps
    | apply KeepsR.next

theorem execShr_keeps {z : State} {v : VatId} {s : State} (hs : Keeps z s) : KeepsR z (execShr v s) := by
  unfold execShr
  with_reducible repeat' first
    | assumption
    | intro y
    | apply State.scalar_keeps
    | apply KeepsR.next

theorem execSlt_keeps {z : State} {v : VatId} {s : State} (hs : Keeps z s) : KeepsR z (execSlt v s) := by
  unfold execSlt
  with_reducible repeat' first
    | assumption
    | intro y
    | apply State.scalar_keeps
    | apply KeepsR.next

theorem execSppost_keeps {z : State} {v : VatId} {s : State} (hs : Keeps z s) : KeepsR z (execSppost v s) := by
  unfold execSppost
  with_reducible repeat' first
    | assumption
    | intro y
    | apply State.spileStep_keeps
    | apply State.spSend_keeps
    | apply State.count_keeps
    | apply State.setKern_keeps
    | apply KeepsR.next
    | apply Keeps.ite

theorem execSptake_keeps {z : State} {v : VatId} {s : State} (hs : Keeps z s) : KeepsR z (execSptake v s) := by
  unfold execSptake
  with_reducible repeat' first
    | assumption
    | intro y
    | apply State.spileStep_keeps
    | apply State.spSend_keeps
    | apply State.setKern_keeps
    | apply KeepsR.next

theorem execSpwait_keeps {z : State} {v : VatId} {s : State} (hs : Keeps z s) : KeepsR z (execSpwait v s) := by
  unfold execSpwait
  with_reducible repeat' first
    | assumption
    | intro y
    | apply State.spileStep_keeps
    | apply State.spSend_keeps
    | apply State.setKern_keeps
    | apply KeepsR.next

theorem execSra_keeps {z : State} {v : VatId} {s : State} (hs : Keeps z s) : KeepsR z (execSra v s) := by
  unfold execSra
  with_reducible repeat' first
    | assumption
    | intro y
    | apply State.scalar_keeps
    | apply KeepsR.next

theorem execSub_keeps {z : State} {v : VatId} {s : State} (hs : Keeps z s) : KeepsR z (execSub v s) := by
  unfold execSub
  with_reducible repeat' first
    | assumption
    | intro y
    | apply State.scalar_keeps
    | apply KeepsR.next

theorem execSync_keeps {z : State} {v : VatId} {s : State} (hs : Keeps z s) : KeepsR z (execSync v s) := by
  unfold execSync
  with_reducible repeat' first
    | assumption
    | intro y
    | apply State.setKern_keeps
    | apply KeepsR.next
    | apply Keeps.ite
    | apply Keeps.foldl
    | apply Keeps.foldlFst
    | exact KeepsO.none
    | apply KeepsO.some
    | dsimp only
    | fail_if_no_progress refine Keeps.lit ?_ rfl rfl rfl rfl rfl rfl rfl rfl rfl
    | refine Keeps.ofFst (Keeps.foldlFst ?_ ?_) (by assumption)
    | split

theorem execTrap_keeps {z : State} {v : VatId} {s : State} (hs : Keeps z s) : KeepsR z (execTrap v s) := by
  unfold execTrap
  with_reducible repeat' first
    | assumption
    | intro y
    | apply State.ctxCode_keeps
    | apply State.failStep_keeps
    | apply State.endKernel_keeps
    | apply KeepsR.next
    | apply Keeps.ite
    | apply Keeps.foldl
    | apply Keeps.foldlFst
    | exact KeepsO.none
    | apply KeepsO.some
    | dsimp only
    | fail_if_no_progress refine Keeps.lit ?_ rfl rfl rfl rfl rfl rfl rfl rfl rfl
    | refine Keeps.ofFst (Keeps.foldlFst ?_ ?_) (by assumption)
    | split

theorem execXor_keeps {z : State} {v : VatId} {s : State} (hs : Keeps z s) : KeepsR z (execXor v s) := by
  unfold execXor
  with_reducible repeat' first
    | assumption
    | intro y
    | apply State.scalar_keeps
    | apply KeepsR.next

end Sys2Proof.Machine
end

