-- ==== Sys2Proof/Laws/KeepsDma.lean ====
section
/-! SUPPORT. Every operation of `Machine/Dma.lean` keeps the queue, the variant, the clock and the canonical stores. -/

namespace Sys2Proof.Machine

theorem State.vatTake_keeps {z : State} {s : State} {pg : Nat} {k : Kernel} {a : Nat} {bs : List (Nat × Bool)} (hs : Keeps z s) : Keeps z (State.vatTake s pg k a bs) := by
  unfold State.vatTake
  with_reducible repeat' first
    | assumption
    | intro y
    | apply State.denyVat_keeps
    | apply State.kput_keeps
    | apply State.storeParity_keeps
    | apply KeepsR.next
    | apply Keeps.ite
    | apply Keeps.foldl
    | apply Keeps.foldlFst
    | exact KeepsO.none
    | apply KeepsO.some
    | dsimp only
    | fail_if_no_progress refine Keeps.lit ?_ rfl rfl rfl rfl rfl rfl rfl rfl rfl
    | refine Keeps.ofFst (Keeps.foldlFst ?_ ?_) (by assumption)
    | split

theorem State.segParity_keeps {z : State} {s : State} {fp : Nat} {a : Nat} {k : Kernel} (hs : Keeps z s) : Keeps z (State.segParity s fp a k) := by
  unfold State.segParity
  with_reducible repeat' first
    | assumption
    | intro y
    | apply State.setFloor_keeps
    | apply State.ctxNote_keeps
    | apply State.raise_keeps
    | apply State.dataDetect_keeps
    | apply State.count_keeps

theorem State.floorFails_keeps {z : State} {s : State} {fp : Nat} {req : Nat} {k : Kernel} {a : Nat} {n : Nat} {t : State} (hs : Keeps z s) (ht : Keeps z t) : Keeps z (State.floorFails s fp req k a n t) := by
  unfold State.floorFails
  with_reducible repeat' first
    | assumption
    | intro y
    | apply State.ctxCode_keeps
    | apply State.failStep_keeps
    | apply State.modStep_keeps
    | apply KeepsR.next
    | apply Keeps.ite

theorem DmaRead.line_keeps {z : State} {a : DmaRead} {die : Nat} {k : Kernel} {lines : List (Nat × LineOut)} {remote : List (Nat × List Byte)}
    {ext n l : Nat} (h : Keeps z a.s) : Keeps z (a.line die k lines remote ext n l).s := by
  unfold DmaRead.line
  extract_lets +onlyGivenNames lo hi cut zeros
  split
  · exact h
  · extract_lets +onlyGivenNames fails
    split
    · exact h
    · extract_lets +onlyGivenNames o
      have hc := State.ctxRead_keeps (n := die) (c := k.ctx) (va := l) (host := false) (o := o) (step := some k.step) h
      rcases hp : a.s.ctxRead die k.ctx l false o (some k.step) with ⟨t, bs, how⟩
      rw [hp] at hc
      exact hc

theorem State.dmaInto_keeps {z : State} {s : State} {pg : Nat} {k : Kernel} {d : Dma} {lines : List (Nat × LineOut)} {remote : List (Nat × List Byte)} (hs : Keeps z s) : Keeps z (State.dmaInto s pg k d lines remote) := by
  unfold State.dmaInto
  extract_lets +onlyGivenNames fp
  split
  · extract_lets +onlyGivenNames req at1 bad s1 s2
    have h2 : Keeps z s2 := State.floorFails_keeps hs (State.vatTake_keeps hs)
    clear_value bad
    cases bad with
    | some w => exact State.segParity_keeps h2
    | none => exact h2
  · extract_lets +onlyGivenNames r
    have hr : Keeps z r.s := by
      have key : ∀ (l : List Nat) (a : DmaRead), Keeps z a.s → Keeps z (l.foldl (fun a l => a.line (dieOf pg) k lines remote d.ext d.bytes l) a).s := by
        intro l
        induction l with
        | nil => exact fun a h => h
        | cons x l ih => exact fun a h => ih _ (DmaRead.line_keeps h)
      exact key _ _ hs
    exact State.vatTake_keeps hr

theorem State.floorTake_keeps {z : State} {s : State} {fp : Nat} {req : Nat} {a : Nat} {k : Kernel} {bs : List (Nat × Bool)} (hs : Keeps z s) : Keeps z (State.floorTake s fp req a k bs) := by
  unfold State.floorTake
  extract_lets +onlyGivenNames ok torn isTorn s1 s2
  have h1 : Keeps z s1 := by
    refine Keeps.foldl (fun t x h => ?_) hs
    extract_lets +onlyGivenNames y
    split
    · exact h
    · exact h.of rfl rfl rfl fun c => ⟨c.vstore, wf_bput c.fstore _ _, c.mem, c.host, c.regs, c.ctrs⟩
  have h2 : Keeps z s2 := State.floorFails_keeps hs h1
  clear_value torn
  cases torn with
  | some w => exact State.segParity_keeps h2
  | none => exact h2

theorem State.dmaOut_keeps {z : State} {s : State} {pg : Nat} {k : Kernel} {d : Dma} (hs : Keeps z s) : Keeps z (State.dmaOut s pg k d) := by
  unfold State.dmaOut
  with_reducible repeat' first
    | assumption
    | intro y
    | apply State.floorTake_keeps
    | apply State.denyVat_keeps
    | apply State.storeParity_keeps
    | apply State.ctxWrite_keeps
    | refine Keeps.ofFst (State.ctxWrite_keeps ?_) (by assumption)
    | apply KeepsR.next
    | apply Keeps.ite
    | apply Keeps.foldl
    | apply Keeps.foldlFst
    | exact KeepsO.none
    | apply KeepsO.some
    | dsimp only
    | fail_if_no_progress refine Keeps.lit ?_ rfl rfl rfl rfl rfl rfl rfl rfl rfl
    | refine Keeps.ofFst (Keeps.foldlFst ?_ ?_) (by assumption)
    | split

theorem State.setDmaKernel_keeps {z : State} {s : State} {pg : Nat} {src : Nat} {k : Kernel} (hs : Keeps z s) : Keeps z (State.setDmaKernel s pg src k) := by
  unfold State.setDmaKernel
  with_reducible repeat' first
    | assumption
    | intro y
    | apply State.setVat_keeps
    | apply KeepsR.next
    | apply Keeps.ite

theorem State.dmaPost_keeps {z : State} {s : State} {pg : Nat} {src : Nat} {k : Kernel} {post : Option Nat} (hs : Keeps z s) : Keeps z (State.dmaPost s pg src k post) := by
  unfold State.dmaPost
  with_reducible repeat' first
    | assumption
    | intro y
    | apply State.setDmaKernel_keeps
    | apply State.spSend_keeps
    | apply State.count_keeps
    | apply KeepsR.next
    | apply Keeps.ite
    | apply Keeps.foldl
    | apply Keeps.foldlFst
    | exact KeepsO.none
    | apply KeepsO.some
    | dsimp only
    | fail_if_no_progress refine Keeps.lit ?_ rfl rfl rfl rfl rfl rfl rfl rfl rfl
    | refine Keeps.ofFst (Keeps.foldlFst ?_ ?_) (by assumption)
    | split

theorem execDmaComplete_keeps {z : State} {v : VatId} {src : Fin 3} {index : Nat} {lines : List (Nat × LineOut)} {remote : List (Nat × List Byte)} {s : State} (hs : Keeps z s) : KeepsR z (execDmaComplete v src index lines remote s) := by
  unfold execDmaComplete
  with_reducible repeat' first
    | assumption
    | intro y
    | apply State.dmaOut_keeps
    | apply State.setDmaKernel_keeps
    | apply State.dmaPost_keeps
    | apply State.restore_keeps
    | apply State.dmaInto_keeps
    | apply KeepsR.next
    | apply Keeps.ite
    | apply Keeps.foldl
    | apply Keeps.foldlFst
    | exact KeepsO.none
    | apply KeepsO.some
    | dsimp only
    | fail_if_no_progress refine Keeps.lit ?_ rfl rfl rfl rfl rfl rfl rfl rfl rfl
    | refine Keeps.ofFst (Keeps.foldlFst ?_ ?_) (by assumption)
    | split

end Sys2Proof.Machine
end

