-- ==== Sys2Proof/Laws/KeepsPowerOn.lean ====
section
/-! SUPPORT. Every operation of `Machine/PowerOn.lean` keeps the queue, the variant, the clock and the canonical stores. -/

namespace Sys2Proof.Machine

theorem State.cleared_keeps {z : State} {s : State} {keeps : Nat × Nat → Bool} (hs : Keeps z s) : Keeps z (State.cleared s keeps) := by
  refine hs.of rfl rfl rfl fun c => ?_
  exact ⟨rfl, rfl, rfl, c.host, sorted_filter _ c.regs, rfl⟩

theorem State.showRetired_keeps {z : State} {s : State} (hs : Keeps z s) : Keeps z (State.showRetired s) := by
  unfold State.showRetired
  with_reducible repeat' first
    | assumption
    | intro y
    | apply State.wr_keeps
    | apply KeepsR.next
    | apply Keeps.ite
    | apply Keeps.foldl
    | apply Keeps.foldlFst
    | exact KeepsO.none
    | apply KeepsO.some
    | dsimp only
    | fail_if_no_progress refine Keeps.lit ?_ rfl rfl rfl rfl rfl rfl rfl rfl rfl
    | refine Keeps.ofFst (Keeps.foldlFst ?_ ?_) (by assumption)
    | split

theorem State.mainOffNow_keeps {z : State} {s : State} {cause : Nat} (hs : Keeps z s) : Keeps z (State.mainOffNow s cause) := by
  unfold State.mainOffNow
  extract_lets +onlyGivenNames s1
  have h : Keeps z s1 := State.showRetired_keeps (State.cleared_keeps hs)
  clear_value s1
  exact ⟨h.pending, h.variant, h.now, fun c => ⟨(h.canon c).vstore, (h.canon c).fstore, (h.canon c).mem, (h.canon c).host, (h.canon c).regs,
    sorted_filter _ (hs.canon c).ctrs⟩⟩

theorem State.recountQuiet_keeps {z : State} {s : State} (hs : Keeps z s) : Keeps z (State.recountQuiet s) := by
  unfold State.recountQuiet
  with_reducible repeat' first
    | assumption
    | intro y
    | apply State.wr_keeps
    | apply State.recount_keeps

theorem State.moduleReset_keeps {z : State} {s : State} {cause : Nat} {low : Bool} (hs : Keeps z s) : Keeps z (State.moduleReset s cause low) := by
  unfold State.moduleReset
  extract_lets +onlyGivenNames s1 s2 s3
  have h1 : Keeps z s1 := State.showRetired_keeps (State.cleared_keeps hs)
  have h2 : Keeps z s2 := by
    exact ⟨h1.pending, h1.variant, h1.now, fun c => ⟨(h1.canon c).vstore, (h1.canon c).fstore, (h1.canon c).mem, (h1.canon c).host,
      (h1.canon c).regs, sorted_filter _ (hs.canon c).ctrs⟩⟩
  have h3 : Keeps z s3 := State.wr_keeps (State.wr_keeps h2)
  exact State.recountQuiet_keeps (State.wr_keeps h3)

theorem State.showMate_keeps {z : State} {s : State} (hs : Keeps z s) : Keeps z (State.showMate s) := by
  unfold State.showMate
  with_reducible repeat' first
    | assumption
    | intro y
    | apply State.wr_keeps

theorem State.powerOn_keeps {z : State} {s : State} {cause : Nat} (hs : Keeps z s) : Keeps z (State.powerOn s cause) := by
  unfold State.powerOn
  with_reducible repeat' first
    | assumption
    | intro y
    | apply State.showRetired_keeps
    | apply State.cleared_keeps
    | apply State.wr_keeps
    | apply State.recountQuiet_keeps
    | apply State.showMate_keeps
    | apply KeepsR.next
    | apply Keeps.ite
    | apply Keeps.foldl
    | apply Keeps.foldlFst
    | exact KeepsO.none
    | apply KeepsO.some
    | dsimp only
    | fail_if_no_progress refine Keeps.lit ?_ rfl rfl rfl rfl rfl rfl rfl rfl rfl

theorem State.romStart_keeps {z : State} {s : State} {recover : Bool} (hs : Keeps z s) : Keeps z (State.romStart s recover) := by
  unfold State.romStart
  with_reducible repeat' first
    | assumption
    | intro y
    | apply State.wr_keeps
    | apply KeepsR.next
    | apply Keeps.ite
    | apply Keeps.foldl
    | apply Keeps.foldlFst
    | exact KeepsO.none
    | apply KeepsO.some
    | dsimp only
    | fail_if_no_progress refine Keeps.lit ?_ rfl rfl rfl rfl rfl rfl rfl rfl rfl

end Sys2Proof.Machine
end

