-- ==== Sys2Proof/Laws/KeepsPower.lean ====
section
/-! SUPPORT. Every operation of `Machine/Power.lean` keeps the queue, the variant, the clock and the canonical stores. -/

namespace Sys2Proof.Machine

theorem State.ballastUsed_keeps {z : State} {s : State} (hs : Keeps z s) : Keeps z (State.ballastUsed s) := by
  unfold State.ballastUsed
  with_reducible repeat' first
    | assumption
    | intro y
    | apply State.fresh_keeps
    | refine Keeps.ofFst (State.fresh_keeps ?_) (by assumption)
    | apply State.count_keeps
    | apply KeepsR.next
    | apply Keeps.ite
    | apply Keeps.foldl
    | apply Keeps.foldlFst
    | exact KeepsO.none
    | apply KeepsO.some
    | dsimp only
    | fail_if_no_progress refine Keeps.lit ?_ rfl rfl rfl rfl rfl rfl rfl rfl rfl

theorem State.showC0_keeps {z : State} {s : State} (hs : Keeps z s) : Keeps z (State.showC0 s) := by
  unfold State.showC0
  with_reducible repeat' first
    | assumption
    | intro y
    | apply State.wr_keeps

theorem State.c0Idled_keeps {z : State} {s : State} (hs : Keeps z s) : Keeps z (State.c0Idled s) := by
  unfold State.c0Idled
  with_reducible repeat' first
    | assumption
    | intro y
    | apply State.wr_keeps
    | apply State.raise_keeps
    | apply State.count_keeps
    | apply State.showC0_keeps
    | apply KeepsR.next
    | apply Keeps.ite

theorem State.highest_keeps {z : State} {s : State} {pg : Nat} {off : Nat} {v : Nat} (hs : Keeps z s) : Keeps z (State.highest s pg off v) := by
  unfold State.highest
  split
  · exact hs.of rfl rfl rfl fun c => ⟨c.vstore, c.fstore, c.mem, c.host, c.regs, sorted_nputD c.ctrs _ _ _⟩
  · exact hs

theorem State.closeInterval_keeps {z : State} {s : State} {avg : Nat} (hs : Keeps z s) : Keeps z (State.closeInterval s avg) := by
  unfold State.closeInterval
  with_reducible repeat' first
    | assumption
    | intro y
    | apply State.wr_keeps
    | apply State.highest_keeps
    | apply State.count_keeps
    | apply KeepsR.next
    | apply Keeps.ite
    | apply Keeps.foldl
    | apply Keeps.foldlFst
    | exact KeepsO.none
    | apply KeepsO.some
    | dsimp only
    | fail_if_no_progress refine Keeps.lit ?_ rfl rfl rfl rfl rfl rfl rfl rfl rfl

theorem State.showTemp_keeps {z : State} {s : State} {fd : Field} {i : Nat} {r : Int} (hs : Keeps z s) : Keeps z (State.showTemp s fd i r) := by
  unfold State.showTemp
  with_reducible repeat' first
    | assumption
    | intro y
    | apply State.fresh_keeps
    | refine Keeps.ofFst (State.fresh_keeps ?_) (by assumption)
    | apply State.wri_keeps
    | apply KeepsR.next
    | apply Keeps.ite

theorem State.coolant_keeps {z : State} {s : State} {inlet : Int} {outlet : Int} (hs : Keeps z s) : Keeps z (State.coolant s inlet outlet) := by
  unfold State.coolant
  with_reducible repeat' first
    | assumption
    | intro y
    | apply State.wr_keeps
    | apply State.highest_keeps
    | apply State.showC0_keeps
    | apply State.showTemp_keeps
    | apply KeepsR.next
    | apply Keeps.ite
    | apply Keeps.foldl
    | apply Keeps.foldlFst
    | exact KeepsO.none
    | apply KeepsO.some
    | dsimp only
    | fail_if_no_progress refine Keeps.lit ?_ rfl rfl rfl rfl rfl rfl rfl rfl rfl

theorem State.destroyAllKeys_keeps {z : State} {s : State} (hs : Keeps z s) : Keeps z (State.destroyAllKeys s) := by
  unfold State.destroyAllKeys
  with_reducible repeat' first
    | assumption
    | intro y
    | apply State.endSessions_keeps
    | apply State.showKeys_keeps
    | apply KeepsR.next
    | apply Keeps.ite
    | apply Keeps.foldl
    | apply Keeps.foldlFst
    | exact KeepsO.none
    | apply KeepsO.some
    | dsimp only
    | fail_if_no_progress refine Keeps.lit ?_ rfl rfl rfl rfl rfl rfl rfl rfl rfl

theorem State.govern_keeps {z : State} {s : State} {prev : Nat} (hs : Keeps z s) : Keeps z (State.govern s prev) := by
  unfold State.govern
  with_reducible repeat' first
    | assumption
    | intro y
    | apply State.wr_keeps
    | apply State.raise_keeps
    | apply State.count_keeps
    | apply State.c0Idled_keeps
    | apply KeepsR.next
    | apply Keeps.ite
    | apply Keeps.foldl
    | apply Keeps.foldlFst
    | exact KeepsO.none
    | apply KeepsO.some
    | dsimp only
    | fail_if_no_progress refine Keeps.lit ?_ rfl rfl rfl rfl rfl rfl rfl rfl rfl

theorem State.heartbeat_keeps {z : State} {s : State} (hs : Keeps z s) : Keeps z (State.heartbeat s) := by
  unfold State.heartbeat
  with_reducible repeat' first
    | assumption
    | intro y
    | apply State.showCeiling_keeps
    | apply State.wr_keeps
    | apply State.raise_keeps
    | apply State.count_keeps
    | apply KeepsR.next
    | apply Keeps.ite
    | apply Keeps.foldl
    | apply Keeps.foldlFst
    | exact KeepsO.none
    | apply KeepsO.some
    | dsimp only
    | fail_if_no_progress refine Keeps.lit ?_ rfl rfl rfl rfl rfl rfl rfl rfl rfl

theorem State.mctp_keeps {z : State} {s : State} {body : State → State} (hs : Keeps z s) (hbody : ∀ y0, Keeps z y0 → Keeps z (body y0)) : Keeps z (State.mctp s body) := by
  unfold State.mctp
  with_reducible repeat' first
    | assumption
    | intro y
    | apply State.count_keeps
    | apply hbody
    | apply KeepsR.next
    | apply Keeps.ite

theorem State.mctpReply_keeps {z : State} {s : State} {ws : List Nat} (hs : Keeps z s) : Keeps z (State.mctpReply s ws) := by
  unfold State.mctpReply
  with_reducible repeat' first
    | assumption
    | intro y
    | apply KeepsR.next
    | apply Keeps.ite
    | apply Keeps.foldl
    | apply Keeps.foldlFst
    | exact KeepsO.none
    | apply KeepsO.some
    | dsimp only
    | fail_if_no_progress refine Keeps.lit ?_ rfl rfl rfl rfl rfl rfl rfl rfl rfl

theorem State.pldm_keeps {z : State} {s : State} {type : Nat} {cmd : Nat} {cc : Nat} {ws : List Nat} (hs : Keeps z s) : Keeps z (State.pldm s type cmd cc ws) := by
  unfold State.pldm
  with_reducible repeat' first
    | assumption
    | intro y
    | apply State.mctp_keeps
    | apply State.count_keeps
    | apply KeepsR.next
    | apply Keeps.ite
    | apply Keeps.foldl
    | apply Keeps.foldlFst
    | exact KeepsO.none
    | apply KeepsO.some
    | dsimp only
    | fail_if_no_progress refine Keeps.lit ?_ rfl rfl rfl rfl rfl rfl rfl rfl rfl

theorem State.silence_keeps {z : State} {s : State} (hs : Keeps z s) : Keeps z (State.silence s) := by
  unfold State.silence
  with_reducible repeat' first
    | assumption
    | intro y
    | apply State.abortJobs_keeps
    | apply KeepsR.next
    | apply Keeps.ite
    | apply Keeps.foldl
    | apply Keeps.foldlFst
    | exact KeepsO.none
    | apply KeepsO.some
    | dsimp only
    | fail_if_no_progress refine Keeps.lit ?_ rfl rfl rfl rfl rfl rfl rfl rfl rfl

theorem State.startShed_keeps {z : State} {s : State} (hs : Keeps z s) : Keeps z (State.startShed s) := by
  unfold State.startShed
  with_reducible repeat' first
    | assumption
    | intro y
    | apply State.showCeiling_keeps
    | apply State.wr_keeps
    | apply State.raise_keeps
    | apply State.count_keeps
    | apply State.showC0_keeps
    | apply KeepsR.next
    | apply Keeps.ite
    | apply Keeps.foldl
    | apply Keeps.foldlFst
    | exact KeepsO.none
    | apply KeepsO.some
    | dsimp only
    | fail_if_no_progress refine Keeps.lit ?_ rfl rfl rfl rfl rfl rfl rfl rfl rfl

theorem State.thermalStep_keeps {z : State} {s : State} {i : Nat} {c : Int} (hs : Keeps z s) : Keeps z (State.thermalStep s i c) := by
  unfold State.thermalStep
  with_reducible repeat' first
    | assumption
    | intro y
    | apply State.wr_keeps
    | apply State.raise_keeps
    | apply State.count_keeps
    | apply State.c0Idled_keeps
    | apply KeepsR.next
    | apply Keeps.ite

theorem execCoolantAlarm_keeps {z : State} {s : State} (hs : Keeps z s) : KeepsR z (execCoolantAlarm s) := by
  unfold execCoolantAlarm
  with_reducible repeat' first
    | assumption
    | intro y
    | apply State.raise_keeps
    | apply KeepsR.next
    | apply Keeps.ite
    | apply Keeps.foldl
    | apply Keeps.foldlFst
    | exact KeepsO.none
    | apply KeepsO.some
    | dsimp only
    | fail_if_no_progress refine Keeps.lit ?_ rfl rfl rfl rfl rfl rfl rfl rfl rfl

theorem execMateEarlyReturn_keeps {z : State} {s : State} (hs : Keeps z s) : KeepsR z (execMateEarlyReturn s) := by
  unfold execMateEarlyReturn
  with_reducible repeat' first
    | assumption
    | intro y
    | apply State.showMate_keeps
    | apply KeepsR.next
    | apply Keeps.ite
    | apply Keeps.foldl
    | apply Keeps.foldlFst
    | exact KeepsO.none
    | apply KeepsO.some
    | dsimp only
    | fail_if_no_progress refine Keeps.lit ?_ rfl rfl rfl rfl rfl rfl rfl rfl rfl

theorem execMateLateBreak_keeps {z : State} {s : State} (hs : Keeps z s) : KeepsR z (execMateLateBreak s) := by
  unfold execMateLateBreak
  with_reducible repeat' first
    | assumption
    | intro y
    | apply State.mainOffNow_keeps
    | apply State.showMate_keeps
    | apply State.dropLink_keeps
    | apply KeepsR.next
    | apply Keeps.ite
    | apply Keeps.foldl
    | apply Keeps.foldlFst
    | exact KeepsO.none
    | apply KeepsO.some
    | dsimp only
    | fail_if_no_progress refine Keeps.lit ?_ rfl rfl rfl rfl rfl rfl rfl rfl rfl

theorem execMctpDrop_keeps {z : State} {type : Nat} {s : State} (hs : Keeps z s) : KeepsR z (execMctpDrop type s) := by
  unfold execMctpDrop
  with_reducible repeat' first
    | assumption
    | intro y
    | apply State.mctp_keeps
    | apply State.raise_keeps
    | apply State.count_keeps
    | apply KeepsR.next
    | apply Keeps.ite

theorem execMctpGetEndpointId_keeps {z : State} {s : State} (hs : Keeps z s) : KeepsR z (execMctpGetEndpointId s) := by
  unfold execMctpGetEndpointId
  with_reducible repeat' first
    | assumption
    | intro y
    | apply State.mctp_keeps
    | apply State.mctpReply_keeps
    | apply KeepsR.next

theorem execMctpGetMessageTypeSupport_keeps {z : State} {s : State} (hs : Keeps z s) : KeepsR z (execMctpGetMessageTypeSupport s) := by
  unfold execMctpGetMessageTypeSupport
  with_reducible repeat' first
    | assumption
    | intro y
    | apply State.mctp_keeps
    | apply State.mctpReply_keeps
    | apply KeepsR.next

theorem execMctpGetVersionSupport_keeps {z : State} {type : Nat} {s : State} (hs : Keeps z s) : KeepsR z (execMctpGetVersionSupport type s) := by
  unfold execMctpGetVersionSupport
  with_reducible repeat' first
    | assumption
    | intro y
    | apply State.mctp_keeps
    | apply State.mctpReply_keeps
    | apply KeepsR.next
    | apply Keeps.ite

theorem execMctpSetEndpointId_keeps {z : State} {eid : Byte} {s : State} (hs : Keeps z s) : KeepsR z (execMctpSetEndpointId eid s) := by
  unfold execMctpSetEndpointId
  with_reducible repeat' first
    | assumption
    | intro y
    | apply State.mctp_keeps
    | apply State.mctpReply_keeps
    | apply KeepsR.next
    | apply Keeps.ite
    | apply Keeps.foldl
    | apply Keeps.foldlFst
    | exact KeepsO.none
    | apply KeepsO.some
    | dsimp only
    | fail_if_no_progress refine Keeps.lit ?_ rfl rfl rfl rfl rfl rfl rfl rfl rfl

theorem execOrphanTimeout_keeps {z : State} {s : State} (hs : Keeps z s) : KeepsR z (execOrphanTimeout s) := by
  unfold execOrphanTimeout
  with_reducible repeat' first
    | assumption
    | intro y
    | apply State.showCeiling_keeps
    | apply State.wr_keeps
    | apply State.raise_keeps
    | apply KeepsR.next
    | apply Keeps.ite

theorem execPldmGetFruRecordTable_keeps {z : State} {s : State} (hs : Keeps z s) : KeepsR z (execPldmGetFruRecordTable s) := by
  unfold execPldmGetFruRecordTable
  with_reducible repeat' first
    | assumption
    | intro y
    | apply State.pldm_keeps
    | apply KeepsR.next

theorem execPldmGetPdr_keeps {z : State} {handle : Nat} {s : State} (hs : Keeps z s) : KeepsR z (execPldmGetPdr handle s) := by
  unfold execPldmGetPdr
  with_reducible repeat' first
    | assumption
    | intro y
    | apply State.pldm_keeps
    | apply KeepsR.next

theorem execPldmGetPldmCommands_keeps {z : State} {type : Nat} {s : State} (hs : Keeps z s) : KeepsR z (execPldmGetPldmCommands type s) := by
  unfold execPldmGetPldmCommands
  with_reducible repeat' first
    | assumption
    | intro y
    | apply State.pldm_keeps
    | apply KeepsR.next
    | apply Keeps.ite

theorem execPldmGetPldmTypes_keeps {z : State} {s : State} (hs : Keeps z s) : KeepsR z (execPldmGetPldmTypes s) := by
  unfold execPldmGetPldmTypes
  with_reducible repeat' first
    | assumption
    | intro y
    | apply State.pldm_keeps
    | apply KeepsR.next

theorem execPldmGetPldmVersion_keeps {z : State} {type : Nat} {s : State} (hs : Keeps z s) : KeepsR z (execPldmGetPldmVersion type s) := by
  unfold execPldmGetPldmVersion
  with_reducible repeat' first
    | assumption
    | intro y
    | apply State.pldm_keeps
    | apply KeepsR.next
    | apply Keeps.ite

theorem execPldmGetSensorReading_keeps {z : State} {sensor : NumSensor} {s : State} (hs : Keeps z s) : KeepsR z (execPldmGetSensorReading sensor s) := by
  unfold execPldmGetSensorReading
  with_reducible repeat' first
    | assumption
    | intro y
    | apply State.pldm_keeps
    | apply KeepsR.next

theorem execPldmGetStateSensorReadings_keeps {z : State} {sensor : StateSensor} {s : State} (hs : Keeps z s) : KeepsR z (execPldmGetStateSensorReadings sensor s) := by
  unfold execPldmGetStateSensorReadings
  with_reducible repeat' first
    | assumption
    | intro y
    | apply State.pldm_keeps
    | apply KeepsR.next

theorem execPldmGetTid_keeps {z : State} {s : State} (hs : Keeps z s) : KeepsR z (execPldmGetTid s) := by
  unfold execPldmGetTid
  with_reducible repeat' first
    | assumption
    | intro y
    | apply State.pldm_keeps
    | apply KeepsR.next

theorem execPldmPollPlatformEvent_keeps {z : State} {s : State} (hs : Keeps z s) : KeepsR z (execPldmPollPlatformEvent s) := by
  unfold execPldmPollPlatformEvent
  with_reducible repeat' first
    | assumption
    | intro y
    | apply State.pldm_keeps
    | apply KeepsR.next
    | apply Keeps.ite
    | apply Keeps.foldl
    | apply Keeps.foldlFst
    | exact KeepsO.none
    | apply KeepsO.some
    | dsimp only
    | fail_if_no_progress refine Keeps.lit ?_ rfl rfl rfl rfl rfl rfl rfl rfl rfl
    | refine Keeps.ofFst (Keeps.foldlFst ?_ ?_) (by assumption)
    | split

theorem execPldmSetNumericEffecterValue_keeps {z : State} {v : Word} {s : State} (hs : Keeps z s) : KeepsR z (execPldmSetNumericEffecterValue v s) := by
  unfold execPldmSetNumericEffecterValue
  with_reducible repeat' first
    | assumption
    | intro y
    | apply State.pldm_keeps
    | apply State.setIndex_keeps
    | apply KeepsR.next
    | apply Keeps.ite

theorem execPldmSetStateEffecterStates_keeps {z : State} {s : State} (hs : Keeps z s) : KeepsR z (execPldmSetStateEffecterStates s) := by
  unfold execPldmSetStateEffecterStates
  with_reducible repeat' first
    | assumption
    | intro y
    | apply State.heartbeat_keeps
    | apply State.pldm_keeps
    | apply KeepsR.next
    | apply Keeps.ite

theorem execPldmUnsupported_keeps {z : State} {type : Nat} {cmd : Nat} {s : State} (hs : Keeps z s) : KeepsR z (execPldmUnsupported type cmd s) := by
  unfold execPldmUnsupported
  with_reducible repeat' first
    | assumption
    | intro y
    | apply State.mctp_keeps
    | apply KeepsR.next
    | apply Keeps.ite
    | apply Keeps.foldl
    | apply Keeps.foldlFst
    | exact KeepsO.none
    | apply KeepsO.some
    | dsimp only
    | fail_if_no_progress refine Keeps.lit ?_ rfl rfl rfl rfl rfl rfl rfl rfl rfl

theorem execPowerInterval_keeps {z : State} {s : State} (hs : Keeps z s) : KeepsR z (execPowerInterval s) := by
  unfold execPowerInterval
  with_reducible repeat' first
    | assumption
    | intro y
    | apply State.fresh_keeps
    | refine Keeps.ofFst (State.fresh_keeps ?_) (by assumption)
    | apply State.govern_keeps
    | apply State.wr_keeps
    | apply State.closeInterval_keeps
    | apply State.ballastUsed_keeps
    | apply State.c0Idled_keeps
    | apply KeepsR.next
    | apply Keeps.ite

theorem execPull_keeps {z : State} {s : State} (hs : Keeps z s) : KeepsR z (execPull s) := by
  unfold execPull
  with_reducible repeat' first
    | assumption
    | intro y
    | apply State.silence_keeps
    | apply State.wr_keeps
    | apply State.holdVat_keeps
    | apply State.raise_keeps
    | apply State.destroyAllKeys_keeps
    | apply State.showMate_keeps
    | apply KeepsR.next
    | apply Keeps.ite
    | apply Keeps.foldl
    | apply Keeps.foldlFst
    | exact KeepsO.none
    | apply KeepsO.some
    | dsimp only
    | fail_if_no_progress refine Keeps.lit ?_ rfl rfl rfl rfl rfl rfl rfl rfl rfl

theorem execPwrWarnLow_keeps {z : State} {s : State} (hs : Keeps z s) : KeepsR z (execPwrWarnLow s) := by
  unfold execPwrWarnLow
  with_reducible repeat' first
    | assumption
    | intro y
    | apply State.startShed_keeps
    | apply KeepsR.next
    | apply Keeps.ite
    | apply Keeps.foldl
    | apply Keeps.foldlFst
    | exact KeepsO.none
    | apply KeepsO.some
    | dsimp only
    | fail_if_no_progress refine Keeps.lit ?_ rfl rfl rfl rfl rfl rfl rfl rfl rfl

theorem execShedEnd_keeps {z : State} {s : State} (hs : Keeps z s) : KeepsR z (execShedEnd s) := by
  unfold execShedEnd
  with_reducible repeat' first
    | assumption
    | intro y
    | apply State.showCeiling_keeps
    | apply State.wr_keeps
    | apply State.raise_keeps
    | apply State.showC0_keeps
    | apply KeepsR.next
    | apply Keeps.ite
    | apply Keeps.foldl
    | apply Keeps.foldlFst
    | exact KeepsO.none
    | apply KeepsO.some
    | dsimp only
    | fail_if_no_progress refine Keeps.lit ?_ rfl rfl rfl rfl rfl rfl rfl rfl rfl

theorem execSupplySample_keeps {z : State} {mv : Nat} {ma : Nat} {s : State} (hs : Keeps z s) : KeepsR z (execSupplySample mv ma s) := by
  unfold execSupplySample
  with_reducible repeat' first
    | assumption
    | intro y
    | apply State.wr_keeps
    | apply State.mainOffNow_keeps
    | apply State.raise_keeps
    | apply State.startShed_keeps
    | apply State.showC0_keeps
    | apply State.dropLink_keeps
    | apply KeepsR.next
    | apply Keeps.ite
    | apply Keeps.foldl
    | apply Keeps.foldlFst
    | exact KeepsO.none
    | apply KeepsO.some
    | dsimp only
    | fail_if_no_progress refine Keeps.lit ?_ rfl rfl rfl rfl rfl rfl rfl rfl rfl

theorem execThermAlertClear_keeps {z : State} {s : State} (hs : Keeps z s) : KeepsR z (execThermAlertClear s) := by
  unfold execThermAlertClear
  with_reducible repeat' first
    | assumption
    | intro y
    | apply State.showCeiling_keeps
    | apply State.wr_keeps
    | apply KeepsR.next
    | apply Keeps.ite

theorem execThermAlertLow_keeps {z : State} {s : State} (hs : Keeps z s) : KeepsR z (execThermAlertLow s) := by
  unfold execThermAlertLow
  with_reducible repeat' first
    | assumption
    | intro y
    | apply State.showCeiling_keeps
    | apply State.wr_keeps
    | apply State.raise_keeps
    | apply KeepsR.next
    | apply Keeps.ite

theorem execThermalSample_keeps {z : State} {junctions : List Int} {inlet : Int} {outlet : Int} {s : State} (hs : Keeps z s) : KeepsR z (execThermalSample junctions inlet outlet s) := by
  unfold execThermalSample
  with_reducible repeat' first
    | assumption
    | intro y
    | apply State.retireDie_keeps
    | apply State.coolant_keeps
    | apply State.wr_keeps
    | apply State.highest_keeps
    | apply State.raise_keeps
    | apply State.thermalStep_keeps
    | apply State.recount_keeps
    | apply State.count_keeps
    | apply State.showTemp_keeps
    | apply KeepsR.next
    | apply Keeps.ite
    | apply Keeps.foldl
    | apply Keeps.foldlFst
    | exact KeepsO.none
    | apply KeepsO.some
    | dsimp only
    | fail_if_no_progress refine Keeps.lit ?_ rfl rfl rfl rfl rfl rfl rfl rfl rfl
    | refine Keeps.ofFst (Keeps.foldlFst ?_ ?_) (by assumption)
    | split

theorem execThermalTrip_keeps {z : State} {s : State} (hs : Keeps z s) : KeepsR z (execThermalTrip s) := by
  unfold execThermalTrip
  with_reducible repeat' first
    | assumption
    | intro y
    | apply State.silence_keeps
    | apply State.mainOffNow_keeps
    | apply State.destroyAllKeys_keeps
    | apply State.dropLink_keeps
    | apply KeepsR.next
    | apply Keeps.ite
    | apply Keeps.foldl
    | apply Keeps.foldlFst
    | exact KeepsO.none
    | apply KeepsO.some
    | dsimp only
    | fail_if_no_progress refine Keeps.lit ?_ rfl rfl rfl rfl rfl rfl rfl rfl rfl

end Sys2Proof.Machine
end

