-- ==== Sys2Proof/Laws/KeepsMark.lean ====
section
/-! SUPPORT. Every operation of `Machine/Mark.lean` keeps the queue, the variant, the clock and the canonical stores. -/

namespace Sys2Proof.Machine

theorem State.beginPeriod_keeps {z : State} {s : State} {m : Nat} {clk : Option Nat} {per : Nat} {pidx : Nat} (hs : Keeps z s) : Keeps z (State.beginPeriod s m clk per pidx) := by
  unfold State.beginPeriod
  with_reducible repeat' first
    | assumption
    | intro y
    | apply State.edgeNow_keeps
    | apply State.wr_keeps
    | apply State.count_keeps
    | apply State.showC0_keeps
    | apply KeepsR.next
    | apply Keeps.ite
    | apply Keeps.foldl
    | apply Keeps.foldlFst
    | exact KeepsO.none
    | apply KeepsO.some
    | dsimp only
    | fail_if_no_progress refine Keeps.lit ?_ rfl rfl rfl rfl rfl rfl rfl rfl rfl

theorem State.enterFreeRun_keeps {z : State} {s : State} (hs : Keeps z s) : Keeps z (State.enterFreeRun s) := by
  unfold State.enterFreeRun
  with_reducible repeat' first
    | assumption
    | intro y
    | apply State.tbEnter_keeps
    | apply KeepsR.next
    | apply Keeps.ite
    | apply Keeps.foldl
    | apply Keeps.foldlFst
    | exact KeepsO.none
    | apply KeepsO.some
    | dsimp only
    | fail_if_no_progress refine Keeps.lit ?_ rfl rfl rfl rfl rfl rfl rfl rfl rfl

theorem State.startGroup_keeps {z : State} {s : State} {g : GroupPlan} (hs : Keeps z s) : Keeps z (State.startGroup s g) := by
  unfold State.startGroup
  with_reducible repeat' first
    | assumption
    | intro y
    | apply State.queueJob_keeps
    | apply State.armColls_keeps
    | apply State.runGroup_keeps
    | apply KeepsR.next
    | apply Keeps.ite
    | apply Keeps.foldl

theorem State.startGroups_keeps {z : State} {s : State} {classes : List Nat} {k : Nat} (hs : Keeps z s) : Keeps z (State.startGroups s classes k) := by
  unfold State.startGroups
  with_reducible repeat' first
    | assumption
    | intro y
    | apply State.startGroup_keeps
    | apply KeepsR.next
    | apply Keeps.ite
    | apply Keeps.foldl

theorem State.publishIdle_keeps {z : State} {s : State} (hs : Keeps z s) : Keeps z (State.publishIdle s) := by
  unfold State.publishIdle
  with_reducible repeat' first
    | assumption
    | intro y
    | apply State.publish_keeps
    | apply KeepsR.next
    | apply Keeps.ite
    | apply Keeps.foldl
    | apply Keeps.foldlFst
    | exact KeepsO.none
    | apply KeepsO.some
    | dsimp only
    | fail_if_no_progress refine Keeps.lit ?_ rfl rfl rfl rfl rfl rfl rfl rfl rfl
    | refine Keeps.ofFst (Keeps.foldlFst ?_ ?_) (by assumption)
    | split

theorem State.flyEdge_keeps {z : State} {s : State} (hs : Keeps z s) : Keeps z (State.flyEdge s) := by
  unfold State.flyEdge
  with_reducible repeat' first
    | assumption
    | intro y
    | apply State.edgeNow_keeps
    | apply State.startGroups_keeps
    | apply State.publishIdle_keeps
    | apply KeepsR.next
    | apply Keeps.ite
    | apply Keeps.foldl
    | apply Keeps.foldlFst
    | exact KeepsO.none
    | apply KeepsO.some
    | dsimp only
    | fail_if_no_progress refine Keeps.lit ?_ rfl rfl rfl rfl rfl rfl rfl rfl rfl

theorem State.trimClass_keeps {z : State} {s : State} {c : Nat} {off : Nat} {x3 : Nat} (hs : Keeps z s) : Keeps z (State.trimClass s c off x3) := by
  induction x3 generalizing s with
  | zero => exact hs
  | succ k ih =>
    unfold State.trimClass
    with_reducible repeat' first
      | assumption
      | intro y
      | apply ih
      | apply State.wr_keeps
      | apply State.count_keeps
      | apply KeepsO.mapK
      | apply KeepsO.foldl
      | refine KeepsO.keeps (KeepsO.some ?_) _ (by assumption)
      | apply KeepsR.next
      | apply Keeps.ite
      | apply Keeps.foldl
      | apply Keeps.foldlFst
      | exact KeepsO.none
      | apply KeepsO.some
      | dsimp only
      | fail_if_no_progress refine Keeps.lit ?_ rfl rfl rfl rfl rfl rfl rfl rfl rfl
      | refine Keeps.ofFst (Keeps.foldlFst ?_ ?_) (by assumption)
      | split

theorem State.trimPlan_keeps {z : State} {s : State} (hs : Keeps z s) : Keeps z (State.trimPlan s) := by
  unfold State.trimPlan
  with_reducible repeat' first
    | assumption
    | intro y
    | apply State.trimClass_keeps

theorem State.issuePlan_keeps {z : State} {s : State} {classes : List Nat} {plan : List GroupPlan} (hs : Keeps z s) : Keeps z (State.issuePlan s classes plan) := by
  unfold State.issuePlan
  with_reducible repeat' first
    | assumption
    | intro y
    | apply State.trimPlan_keeps
    | apply KeepsR.next
    | apply Keeps.ite
    | apply Keeps.foldl
    | apply Keeps.foldlFst
    | exact KeepsO.none
    | apply KeepsO.some
    | dsimp only
    | fail_if_no_progress refine Keeps.lit ?_ rfl rfl rfl rfl rfl rfl rfl rfl rfl

theorem State.snapFirst_keeps {z : State} {s : State} (hs : Keeps z s) : Keeps z (State.snapFirst s) := by
  unfold State.snapFirst
  with_reducible repeat' first
    | assumption
    | intro y
    | apply State.fireSnap_keeps
    | apply KeepsR.next
    | apply Keeps.ite

theorem State.takeSignal_keeps {z : State} {s : State} (hs : Keeps z s) : Keeps z (State.takeSignal s) := by
  unfold State.takeSignal
  with_reducible repeat' first
    | assumption
    | intro y
    | apply State.wr_keeps
    | apply KeepsR.next
    | apply Keeps.ite
    | apply Keeps.foldl
    | apply Keeps.foldlFst
    | exact KeepsO.none
    | apply KeepsO.some
    | dsimp only
    | fail_if_no_progress refine Keeps.lit ?_ rfl rfl rfl rfl rfl rfl rfl rfl rfl

theorem State.setPeriod_keeps {z : State} {s : State} {p : Nat} {t : Nat} (hs : Keeps z s) : Keeps z (State.setPeriod s p t) := by
  unfold State.setPeriod
  with_reducible repeat' first
    | assumption
    | intro y
    | apply State.wr_keeps
    | apply KeepsR.next
    | apply Keeps.ite
    | apply Keeps.foldl
    | apply Keeps.foldlFst
    | exact KeepsO.none
    | apply KeepsO.some
    | dsimp only
    | fail_if_no_progress refine Keeps.lit ?_ rfl rfl rfl rfl rfl rfl rfl rfl rfl

theorem State.markActions_keeps {z : State} {s : State} {classes : List Nat} {plan : List GroupPlan} {inp : IntakeIn} (hs : Keeps z s) : Keeps z (State.markActions s classes plan inp) := by
  unfold State.markActions
  with_reducible repeat' first
    | assumption
    | intro y
    | apply State.announce_keeps
    | apply State.latchCopy_keeps
    | apply State.markQuorum_keeps
    | apply State.ringReads_keeps
    | apply State.claimChange_keeps
    | apply State.issuePlan_keeps
    | apply State.startGroups_keeps
    | apply State.publishIdle_keeps
    | apply State.proceedReleases_keeps
    | apply State.switchTables_keeps
    | apply State.checkResv_keeps
    | apply KeepsR.next
    | apply Keeps.ite

theorem State.markAcquiring_keeps {z : State} {s : State} {plan : List GroupPlan} {inp : IntakeIn} {m : Nat} {clk : Nat} {pidx : Nat} (hs : Keeps z s) : Keeps z (State.markAcquiring s plan inp m clk pidx) := by
  unfold State.markAcquiring
  with_reducible repeat' first
    | assumption
    | intro y
    | apply State.snapFirst_keeps
    | apply State.takeSignal_keeps
    | apply State.setPeriod_keeps
    | apply State.markActions_keeps
    | apply State.tbEnter_keeps
    | apply State.beginPeriod_keeps
    | apply KeepsR.next
    | apply Keeps.ite
    | apply Keeps.foldl
    | apply Keeps.foldlFst
    | exact KeepsO.none
    | apply KeepsO.some
    | dsimp only
    | fail_if_no_progress refine Keeps.lit ?_ rfl rfl rfl rfl rfl rfl rfl rfl rfl
    | refine Keeps.ofFst (Keeps.foldlFst ?_ ?_) (by assumption)
    | split

theorem State.markLocked_keeps {z : State} {s : State} {plan : List GroupPlan} {inp : IntakeIn} {m : Nat} {clk : Nat} (hs : Keeps z s) : Keeps z (State.markLocked s plan inp m clk) := by
  unfold State.markLocked
  with_reducible repeat' first
    | assumption
    | intro y
    | apply State.snapFirst_keeps
    | apply State.takeSignal_keeps
    | apply State.setPeriod_keeps
    | apply State.markActions_keeps
    | apply State.raise_keeps
    | apply State.tbEnter_keeps
    | apply State.beginPeriod_keeps
    | apply KeepsR.next
    | apply Keeps.ite
    | apply Keeps.foldl
    | apply Keeps.foldlFst
    | exact KeepsO.none
    | apply KeepsO.some
    | dsimp only
    | fail_if_no_progress refine Keeps.lit ?_ rfl rfl rfl rfl rfl rfl rfl rfl rfl
    | refine Keeps.ofFst (Keeps.foldlFst ?_ ?_) (by assumption)
    | split

theorem State.regain_keeps {z : State} {s : State} (hs : Keeps z s) : Keeps z (State.regain s).1 := by
  unfold State.regain
  with_reducible repeat' first
    | assumption
    | intro y
    | apply State.wr_keeps
    | apply State.meetFrame_keeps
    | apply State.tbEnter_keeps
    | apply KeepsR.next
    | apply Keeps.ite
    | apply Keeps.foldl
    | apply Keeps.foldlFst
    | exact KeepsO.none
    | apply KeepsO.some
    | dsimp only
    | fail_if_no_progress refine Keeps.lit ?_ rfl rfl rfl rfl rfl rfl rfl rfl rfl
    | refine Keeps.ofFst (Keeps.foldlFst ?_ ?_) (by assumption)
    | split

theorem State.stallFlyMark_keeps {z : State} {s : State} {plan : List GroupPlan} {inp : IntakeIn} (hs : Keeps z s) : Keeps z (State.stallFlyMark s plan inp) := by
  unfold State.stallFlyMark
  with_reducible repeat' first
    | assumption
    | intro y
    | apply State.edgeNow_keeps
    | apply State.markActions_keeps
    | apply State.wr_keeps
    | apply State.count_keeps
    | apply State.showC0_keeps
    | apply KeepsR.next
    | apply Keeps.ite
    | apply Keeps.foldl
    | apply Keeps.foldlFst
    | exact KeepsO.none
    | apply KeepsO.some
    | dsimp only
    | fail_if_no_progress refine Keeps.lit ?_ rfl rfl rfl rfl rfl rfl rfl rfl rfl

theorem State.tickEdge_keeps {z : State} {s : State} {inp : IntakeIn} (hs : Keeps z s) : Keeps z (State.tickEdge s inp) := by
  unfold State.tickEdge
  with_reducible repeat' first
    | assumption
    | intro y
    | apply State.edgeNow_keeps
    | apply State.wr_keeps
    | apply State.latchHandover_keeps
    | apply State.ringReads_keeps
    | apply State.startGroups_keeps
    | apply State.publishIdle_keeps
    | apply KeepsR.next
    | apply Keeps.ite

theorem State.tickFlyMark_keeps {z : State} {s : State} {plan : List GroupPlan} {inp : IntakeIn} (hs : Keeps z s) : Keeps z (State.tickFlyMark s plan inp) := by
  unfold State.tickFlyMark
  with_reducible repeat' first
    | assumption
    | intro y
    | apply State.snapFirst_keeps
    | apply State.markActions_keeps
    | apply State.wr_keeps
    | apply State.meetFrame_keeps
    | apply State.regain_keeps
    | refine Keeps.ofFst (State.regain_keeps ?_) (by assumption)
    | apply State.beginPeriod_keeps
    | apply State.enterFreeRun_keeps
    | apply KeepsR.next
    | apply Keeps.ite
    | apply Keeps.foldl
    | apply Keeps.foldlFst
    | exact KeepsO.none
    | apply KeepsO.some
    | dsimp only
    | fail_if_no_progress refine Keeps.lit ?_ rfl rfl rfl rfl rfl rfl rfl rfl rfl
    | refine Keeps.ofFst (Keeps.foldlFst ?_ ?_) (by assumption)
    | split

theorem execFlywheelMark_keeps {z : State} {plan : List GroupPlan} {inp : IntakeIn} {s : State} (hs : Keeps z s) : KeepsR z (execFlywheelMark plan inp s) := by
  unfold execFlywheelMark
  with_reducible repeat' first
    | assumption
    | intro y
    | apply State.stallFlyMark_keeps
    | apply State.tickFlyMark_keeps
    | apply KeepsR.next
    | apply Keeps.ite
    | apply Keeps.foldl
    | apply Keeps.foldlFst
    | exact KeepsO.none
    | apply KeepsO.some
    | dsimp only
    | fail_if_no_progress refine Keeps.lit ?_ rfl rfl rfl rfl rfl rfl rfl rfl rfl
    | refine Keeps.ofFst (Keeps.foldlFst ?_ ?_) (by assumption)
    | split

theorem execFreeRunEntry_keeps {z : State} {s : State} (hs : Keeps z s) : KeepsR z (execFreeRunEntry s) := by
  unfold execFreeRunEntry
  with_reducible repeat' first
    | assumption
    | intro y
    | apply State.enterFreeRun_keeps
    | apply KeepsR.next
    | apply Keeps.ite

theorem execMarkLost_keeps {z : State} {plan : List GroupPlan} {inp : IntakeIn} {s : State} (hs : Keeps z s) : KeepsR z (execMarkLost plan inp s) := by
  unfold execMarkLost
  with_reducible repeat' first
    | assumption
    | intro y
    | apply State.snapFirst_keeps
    | apply State.markActions_keeps
    | apply State.wr_keeps
    | apply State.raise_keeps
    | apply State.beginPeriod_keeps
    | apply State.enterFreeRun_keeps
    | apply KeepsR.next
    | apply Keeps.ite
    | apply Keeps.foldl
    | apply Keeps.foldlFst
    | exact KeepsO.none
    | apply KeepsO.some
    | dsimp only
    | fail_if_no_progress refine Keeps.lit ?_ rfl rfl rfl rfl rfl rfl rfl rfl rfl

theorem execPeriodMark_keeps {z : State} {plan : List GroupPlan} {inp : IntakeIn} {s : State} (hs : Keeps z s) : KeepsR z (execPeriodMark plan inp s) := by
  unfold execPeriodMark
  with_reducible repeat' first
    | assumption
    | intro y
    | apply State.markAcquiring_keeps
    | apply State.markLocked_keeps
    | apply KeepsR.next
    | apply Keeps.ite
    | apply Keeps.foldl
    | apply Keeps.foldlFst
    | exact KeepsO.none
    | apply KeepsO.some
    | dsimp only
    | fail_if_no_progress refine Keeps.lit ?_ rfl rfl rfl rfl rfl rfl rfl rfl rfl
    | refine Keeps.ofFst (Keeps.foldlFst ?_ ?_) (by assumption)
    | split

theorem execSlotEdge_keeps {z : State} {inp : IntakeIn} {s : State} (hs : Keeps z s) : KeepsR z (execSlotEdge inp s) := by
  unfold execSlotEdge
  with_reducible repeat' first
    | assumption
    | intro y
    | apply State.flyEdge_keeps
    | apply State.tickEdge_keeps
    | apply KeepsR.next
    | apply Keeps.ite
    | apply Keeps.foldl
    | apply Keeps.foldlFst
    | exact KeepsO.none
    | apply KeepsO.some
    | dsimp only
    | fail_if_no_progress refine Keeps.lit ?_ rfl rfl rfl rfl rfl rfl rfl rfl rfl
    | refine Keeps.ofFst (Keeps.foldlFst ?_ ?_) (by assumption)
    | split

end Sys2Proof.Machine
end

