-- ==== Sys2Proof/Laws/KeepsStartup.lean ====
section
/-! SUPPORT. Every operation of `Machine/Startup.lean` keeps the queue, the variant, the clock and the canonical stores. -/

namespace Sys2Proof.Machine

theorem State.enterPhase_keeps {z : State} {s : State} {n : Nat} (hs : Keeps z s) : Keeps z (State.enterPhase s n) := by
  unfold State.enterPhase
  with_reducible repeat' first
    | assumption
    | intro y
    | apply State.wr_keeps
    | apply KeepsR.next
    | apply Keeps.ite
    | apply Keeps.foldl
    | apply Keeps.foldlFst
    | exact KeepsO.none
    | apply KeepsO.some
    | dsimp only
    | fail_if_no_progress refine Keeps.lit ?_ rfl rfl rfl rfl rfl rfl rfl rfl rfl

theorem State.enterReady_keeps {z : State} {s : State} (hs : Keeps z s) : Keeps z (State.enterReady s) := by
  unfold State.enterReady
  with_reducible repeat' first
    | assumption
    | intro y
    | apply State.wr_keeps
    | apply State.enterPhase_keeps
    | apply State.raise_keeps
    | apply KeepsR.next
    | apply Keeps.ite
    | apply Keeps.foldl
    | apply Keeps.foldlFst
    | exact KeepsO.none
    | apply KeepsO.some
    | dsimp only
    | fail_if_no_progress refine Keeps.lit ?_ rfl rfl rfl rfl rfl rfl rfl rfl rfl

theorem State.endControl_keeps {z : State} {s : State} {out : PhaseOut} (hs : Keeps z s) : Keeps z (State.endControl s out) := by
  unfold State.endControl
  with_reducible repeat' first
    | assumption
    | intro y
    | apply State.enterReady_keeps
    | apply State.wr_keeps
    | apply State.raise_keeps
    | apply State.count_keeps
    | apply State.loadLibrary_keeps
    | apply State.startCm_keeps
    | apply KeepsR.next
    | apply Keeps.ite
    | apply Keeps.foldl
    | apply Keeps.foldlFst
    | exact KeepsO.none
    | apply KeepsO.some
    | dsimp only
    | fail_if_no_progress refine Keeps.lit ?_ rfl rfl rfl rfl rfl rfl rfl rfl rfl

theorem State.lockPages_keeps {z : State} {s : State} (hs : Keeps z s) : Keeps z (State.lockPages s) := by
  unfold State.lockPages
  with_reducible repeat' first
    | assumption
    | intro y
    | apply State.wr_keeps
    | apply KeepsR.next
    | apply Keeps.ite
    | apply Keeps.foldl

theorem State.endFirmware_keeps {z : State} {s : State} (hs : Keeps z s) : Keeps z (State.endFirmware s) := by
  unfold State.endFirmware
  with_reducible repeat' first
    | assumption
    | intro y
    | apply State.reserveTop_keeps
    | apply State.selectSlots_keeps
    | apply State.enterPhase_keeps
    | apply State.newAlias_keeps
    | apply State.lockPages_keeps
    | apply State.recount_keeps
    | apply KeepsR.next
    | apply Keeps.ite

theorem State.endMemory_keeps {z : State} {s : State} {out : PhaseOut} (hs : Keeps z s) : Keeps z (State.endMemory s out) := by
  unfold State.endMemory
  with_reducible repeat' first
    | assumption
    | intro y
    | apply State.showKv_keeps
    | apply State.wr_keeps
    | apply State.enterPhase_keeps
    | apply State.retireChannel_keeps
    | apply State.recount_keeps
    | apply KeepsR.next
    | apply Keeps.ite
    | apply Keeps.foldl
    | apply Keeps.foldlFst
    | exact KeepsO.none
    | apply KeepsO.some
    | dsimp only
    | fail_if_no_progress refine Keeps.lit ?_ rfl rfl rfl rfl rfl rfl rfl rfl rfl

theorem State.endRom_keeps {z : State} {s : State} {out : PhaseOut} (hs : Keeps z s) : Keeps z (State.endRom s out) := by
  unfold State.endRom
  with_reducible repeat' first
    | assumption
    | intro y
    | apply State.enterRecovery_keeps
    | apply State.enterPhase_keeps
    | apply State.useValid_keeps
    | apply State.checkSlots_keeps
    | apply State.dropLink_keeps
    | apply KeepsR.next
    | apply Keeps.ite
    | apply Keeps.foldl
    | apply Keeps.foldlFst
    | exact KeepsO.none
    | apply KeepsO.some
    | dsimp only
    | fail_if_no_progress refine Keeps.lit ?_ rfl rfl rfl rfl rfl rfl rfl rfl rfl

theorem State.retirePage_keeps {z : State} {s : State} {pg : Nat} (hs : Keeps z s) : Keeps z (State.retirePage s pg) := by
  unfold State.retirePage
  with_reducible repeat' first
    | assumption
    | intro y
    | apply State.retireKeg_keeps
    | apply State.retireCodec_keeps
    | apply State.retireDie_keeps
    | apply State.retireFloor_keeps
    | apply State.cmRetire_keeps
    | apply State.noteRetired_keeps
    | apply State.vatOut_keeps
    | apply State.retireChannel_keeps
    | apply State.recount_keeps
    | apply State.retireMill_keeps
    | apply KeepsR.next
    | apply Keeps.ite
    | apply Keeps.foldl
    | apply Keeps.foldlFst
    | exact KeepsO.none
    | apply KeepsO.some
    | dsimp only
    | fail_if_no_progress refine Keeps.lit ?_ rfl rfl rfl rfl rfl rfl rfl rfl rfl
    | refine Keeps.ofFst (Keeps.foldlFst ?_ ?_) (by assumption)
    | split

theorem State.endSelftest_keeps {z : State} {s : State} {out : PhaseOut} (hs : Keeps z s) : Keeps z (State.endSelftest s out) := by
  unfold State.endSelftest
  with_reducible repeat' first
    | assumption
    | intro y
    | apply State.retirePage_keeps
    | apply State.wr_keeps
    | apply State.enterPhase_keeps
    | apply State.recount_keeps
    | apply KeepsR.next
    | apply Keeps.ite
    | apply Keeps.foldl

theorem State.hostFw_keeps {z : State} {s : State} (hs : Keeps z s) : Keeps z (State.hostFw s) := by
  unfold State.hostFw
  with_reducible repeat' first
    | assumption
    | intro y
    | apply State.wr_keeps
    | apply State.actFail_keeps
    | apply KeepsR.next
    | apply Keeps.ite
    | apply Keeps.foldl
    | apply Keeps.foldlFst
    | exact KeepsO.none
    | apply KeepsO.some
    | dsimp only
    | fail_if_no_progress refine Keeps.lit ?_ rfl rfl rfl rfl rfl rfl rfl rfl rfl
    | refine Keeps.ofFst (Keeps.foldlFst ?_ ?_) (by assumption)
    | split

theorem State.hostRinse_keeps {z : State} {s : State} {cs : List Nat} (hs : Keeps z s) : Keeps z (State.hostRinse s cs) := by
  unfold State.hostRinse
  with_reducible repeat' first
    | assumption
    | intro y
    | apply State.showCtxs_keeps
    | apply State.setCtxField_keeps
    | apply KeepsR.next
    | apply Keeps.ite
    | apply Keeps.foldl
    | apply Keeps.foldlFst
    | exact KeepsO.none
    | apply KeepsO.some
    | dsimp only
    | fail_if_no_progress refine Keeps.lit ?_ rfl rfl rfl rfl rfl rfl rfl rfl rfl

theorem State.hostStop_keeps {z : State} {s : State} (hs : Keeps z s) : Keeps z (State.hostStop s) := hs.of rfl rfl rfl fun c => ⟨c.vstore, c.fstore, c.mem, c.host, sorted_filter _ c.regs, sorted_filter _ c.ctrs⟩

theorem execConfigRequest_keeps {z : State} {fn : Fin 32} {s : State} (hs : Keeps z s) : KeepsR z (execConfigRequest fn s) := by
  unfold execConfigRequest
  with_reducible repeat' first
    | assumption
    | intro y
    | apply KeepsR.next
    | apply Keeps.ite
    | apply Keeps.foldl
    | apply Keeps.foldlFst
    | exact KeepsO.none
    | apply KeepsO.some
    | dsimp only
    | fail_if_no_progress refine Keeps.lit ?_ rfl rfl rfl rfl rfl rfl rfl rfl rfl

theorem execHostFillDone_keeps {z : State} {s : State} (hs : Keeps z s) : KeepsR z (execHostFillDone s) := by
  unfold execHostFillDone
  apply KeepsR.next
  split
  · exact hs
  · extract_lets +onlyGivenNames late s1 gone src s2 s3 s4
    have h1 : Keeps z s1 := Keeps.foldl (fun t x h => State.bump_keeps h) hs
    have h2 : Keeps z s2 := h1.of rfl rfl rfl fun c => ⟨rfl, rfl, rfl, c.host, c.regs, c.ctrs⟩
    have h3 : Keeps z s3 := Keeps.foldl (fun t x h => State.wr_keeps h) h2
    have h4 : Keeps z s4 := Keeps.foldl (fun t x h => State.count_keeps (State.raise_keeps (State.freeCtx_keeps h))) h3
    clear_value s4
    apply State.enterReady_keeps
    apply State.recount_keeps
    apply State.showRqt_keeps
    apply State.showKv_keeps
    apply State.startCm_keeps
    exact Keeps.lit h4 rfl rfl rfl rfl rfl (by first | exact lpMem_mk .. | rfl) (by first | exact hostMem_mk .. | rfl) rfl rfl

theorem execHostReset_keeps {z : State} {cause : HostCause} {s : State} (hs : Keeps z s) : KeepsR z (execHostReset cause s) := by
  unfold execHostReset
  with_reducible repeat' first
    | assumption
    | intro y
    | apply State.showCasks_keeps
    | apply State.hostStop_keeps
    | apply State.abortJobs_keeps
    | apply State.wr_keeps
    | apply State.enterPhase_keeps
    | apply State.destroyAllKeys_keeps
    | apply State.showJobs_keeps
    | apply State.hostFw_keeps
    | apply State.count_keeps
    | apply State.showC0_keeps
    | apply State.showKeys_keeps
    | apply State.hostRinse_keeps
    | apply State.dropLink_keeps
    | apply KeepsR.next
    | apply Keeps.ite
    | apply Keeps.foldl
    | apply Keeps.foldlFst
    | exact KeepsO.none
    | apply KeepsO.some
    | dsimp only
    | fail_if_no_progress refine Keeps.lit ?_ rfl rfl rfl rfl rfl rfl rfl rfl rfl
    | refine Keeps.ofFst (Keeps.foldlFst ?_ ?_) (by assumption)
    | split

theorem execModResetNRise_keeps {z : State} {recover : Bool} {s : State} (hs : Keeps z s) : KeepsR z (execModResetNRise recover s) := by
  unfold execModResetNRise
  with_reducible repeat' first
    | assumption
    | intro y
    | apply State.romStart_keeps
    | apply KeepsR.next
    | apply Keeps.ite
    | apply Keeps.foldl
    | apply Keeps.foldlFst
    | exact KeepsO.none
    | apply KeepsO.some
    | dsimp only
    | fail_if_no_progress refine Keeps.lit ?_ rfl rfl rfl rfl rfl rfl rfl rfl rfl

theorem execModuleReset_keeps {z : State} {mateReturn : Bool} {recover : Bool} {s : State} (hs : Keeps z s) : KeepsR z (execModuleReset mateReturn recover s) := by
  unfold execModuleReset
  with_reducible repeat' first
    | assumption
    | intro y
    | apply State.silence_keeps
    | apply State.moduleReset_keeps
    | apply State.romStart_keeps
    | apply State.wr_keeps
    | apply State.destroyAllKeys_keeps
    | apply State.dropLink_keeps
    | apply KeepsR.next
    | apply Keeps.ite
    | apply Keeps.foldl
    | apply Keeps.foldlFst
    | exact KeepsO.none
    | apply KeepsO.some
    | dsimp only
    | fail_if_no_progress refine Keeps.lit ?_ rfl rfl rfl rfl rfl rfl rfl rfl rfl

theorem execPerstDeassert_keeps {z : State} {s : State} (hs : Keeps z s) : KeepsR z (execPerstDeassert s) := by
  unfold execPerstDeassert
  with_reducible repeat' first
    | assumption
    | intro y
    | apply KeepsR.next
    | apply Keeps.ite
    | apply Keeps.foldl
    | apply Keeps.foldlFst
    | exact KeepsO.none
    | apply KeepsO.some
    | dsimp only
    | fail_if_no_progress refine Keeps.lit ?_ rfl rfl rfl rfl rfl rfl rfl rfl rfl

theorem execPowerOnReset_keeps {z : State} {s : State} (hs : Keeps z s) : KeepsR z (execPowerOnReset s) := by
  unfold execPowerOnReset
  with_reducible repeat' first
    | assumption
    | intro y
    | apply State.powerOn_keeps
    | apply KeepsR.next

theorem execRegulatorStart_keeps {z : State} {recover : Bool} {s : State} (hs : Keeps z s) : KeepsR z (execRegulatorStart recover s) := by
  unfold execRegulatorStart
  with_reducible repeat' first
    | assumption
    | intro y
    | apply State.romStart_keeps
    | apply State.powerOn_keeps
    | apply KeepsR.next
    | apply Keeps.ite
    | apply Keeps.foldl
    | apply Keeps.foldlFst
    | exact KeepsO.none
    | apply KeepsO.some
    | dsimp only
    | fail_if_no_progress refine Keeps.lit ?_ rfl rfl rfl rfl rfl rfl rfl rfl rfl

theorem execStartLate_keeps {z : State} {s : State} (hs : Keeps z s) : KeepsR z (execStartLate s) := by
  unfold execStartLate
  with_reducible repeat' first
    | assumption
    | intro y
    | apply State.raise_keeps
    | apply KeepsR.next
    | apply Keeps.ite
    | apply Keeps.foldl
    | apply Keeps.foldlFst
    | exact KeepsO.none
    | apply KeepsO.some
    | dsimp only
    | fail_if_no_progress refine Keeps.lit ?_ rfl rfl rfl rfl rfl rfl rfl rfl rfl

theorem execStartupPhaseEnd_keeps {z : State} {out : PhaseOut} {s : State} (hs : Keeps z s) : KeepsR z (execStartupPhaseEnd out s) := by
  unfold execStartupPhaseEnd
  with_reducible repeat' first
    | assumption
    | intro y
    | apply State.endSelftest_keeps
    | apply State.endControl_keeps
    | apply State.endMemory_keeps
    | apply State.endRom_keeps
    | apply State.endFirmware_keeps
    | apply KeepsR.next
    | apply Keeps.ite

end Sys2Proof.Machine
end

