-- ==== Sys2Proof/Laws/KeepsView.lean ====
section
/-! SUPPORT. Every operation of `Machine/View.lean` keeps the queue, the variant, the clock and the canonical stores. -/

namespace Sys2Proof.Machine

theorem State.readPlain_keeps {z : State} {s : State} {a : RegAcc} (hs : Keeps z s) : Keeps z (State.readPlain s a) := by
  unfold State.readPlain
  with_reducible repeat' first
    | assumption
    | intro y
    | apply State.wr_keeps
    | apply State.accessErr_keeps
    | apply KeepsR.next
    | apply Keeps.ite
    | apply Keeps.foldl
    | apply Keeps.foldlFst
    | exact KeepsO.none
    | apply KeepsO.some
    | dsimp only
    | fail_if_no_progress refine Keeps.lit ?_ rfl rfl rfl rfl rfl rfl rfl rfl rfl
    | refine Keeps.ofFst (Keeps.foldlFst ?_ ?_) (by assumption)
    | split

theorem State.hostReg_keeps {z : State} {s : State} {a : RegAcc} (hs : Keeps z s) : Keeps z (State.hostReg s a) := by
  unfold State.hostReg
  with_reducible repeat' first
    | assumption
    | intro y
    | apply State.readHi_keeps
    | apply State.readLo_keeps
    | apply State.readPlain_keeps
    | apply KeepsR.next
    | apply Keeps.ite
    | apply Keeps.foldl
    | apply Keeps.foldlFst
    | exact KeepsO.none
    | apply KeepsO.some
    | dsimp only
    | fail_if_no_progress refine Keeps.lit ?_ rfl rfl rfl rfl rfl rfl rfl rfl rfl
    | refine Keeps.ofFst (Keeps.foldlFst ?_ ?_) (by assumption)
    | split

theorem execCounterHiRead_keeps {z : State} {a : RegAcc} {s : State} (hs : Keeps z s) : KeepsR z (execCounterHiRead a s) := by
  unfold execCounterHiRead
  with_reducible repeat' first
    | assumption
    | intro y
    | apply State.hostReg_keeps
    | apply KeepsR.next

theorem execCounterLoRead_keeps {z : State} {a : RegAcc} {s : State} (hs : Keeps z s) : KeepsR z (execCounterLoRead a s) := by
  unfold execCounterLoRead
  with_reducible repeat' first
    | assumption
    | intro y
    | apply State.hostReg_keeps
    | apply KeepsR.next

end Sys2Proof.Machine
end

