-- ==== Sys2Proof/Laws/State.lean ====
section
/-! SUPPORT. What each update of the state leaves alone, field by field, and what a register field, a counter and a vat read after each. -/

namespace Sys2Proof.Machine

/-! wri -/

@[simp] theorem State.wri_pending (s : State) (pg : Nat) (F : Field) (i v : Nat) : (s.wri pg F i v).pending = s.pending := rfl
@[simp] theorem State.wri_variant (s : State) (pg : Nat) (F : Field) (i v : Nat) : (s.wri pg F i v).variant = s.variant := rfl
@[simp] theorem State.wri_now (s : State) (pg : Nat) (F : Field) (i v : Nat) : (s.wri pg F i v).now = s.now := rfl
@[simp] theorem State.wri_freeIdx (s : State) (pg : Nat) (F : Field) (i v : Nat) : (s.wri pg F i v).freeIdx = s.freeIdx := rfl
@[simp] theorem State.wri_ctrs (s : State) (pg : Nat) (F : Field) (i v : Nat) : (s.wri pg F i v).ctrs = s.ctrs := rfl
@[simp] theorem State.wri_shadow (s : State) (pg : Nat) (F : Field) (i v : Nat) : (s.wri pg F i v).shadow = s.shadow := rfl
@[simp] theorem State.wri_rdata (s : State) (pg : Nat) (F : Field) (i v : Nat) : (s.wri pg F i v).rdata = s.rdata := rfl
@[simp] theorem State.wri_msgs (s : State) (pg : Nat) (F : Field) (i v : Nat) : (s.wri pg F i v).msgs = s.msgs := rfl
@[simp] theorem State.wri_retired (s : State) (pg : Nat) (F : Field) (i v : Nat) : (s.wri pg F i v).retired = s.retired := rfl
@[simp] theorem State.wri_underTest (s : State) (pg : Nat) (F : Field) (i v : Nat) : (s.wri pg F i v).underTest = s.underTest := rfl
@[simp] theorem State.wri_snap (s : State) (pg : Nat) (F : Field) (i v : Nat) : (s.wri pg F i v).snap = s.snap := rfl
@[simp] theorem State.wri_tb (s : State) (pg : Nat) (F : Field) (i v : Nat) : (s.wri pg F i v).tb = s.tb := rfl
@[simp] theorem State.wri_host (s : State) (pg : Nat) (F : Field) (i v : Nat) : (s.wri pg F i v).host = s.host := rfl
@[simp] theorem State.wri_vats (s : State) (pg : Nat) (F : Field) (i v : Nat) : (s.wri pg F i v).vats = s.vats := rfl
@[simp] theorem State.wri_floors (s : State) (pg : Nat) (F : Field) (i v : Nat) : (s.wri pg F i v).floors = s.floors := rfl
@[simp] theorem State.wri_steps (s : State) (pg : Nat) (F : Field) (i v : Nat) : (s.wri pg F i v).steps = s.steps := rfl
@[simp] theorem State.wri_spl (s : State) (pg : Nat) (F : Field) (i v : Nat) : (s.wri pg F i v).spl = s.spl := rfl
@[simp] theorem State.wri_lp (s : State) (pg : Nat) (F : Field) (i v : Nat) : (s.wri pg F i v).lp = s.lp := rfl
@[simp] theorem State.wri_kv (s : State) (pg : Nat) (F : Field) (i v : Nat) : (s.wri pg F i v).kv = s.kv := rfl
@[simp] theorem State.wri_rqt (s : State) (pg : Nat) (F : Field) (i v : Nat) : (s.wri pg F i v).rqt = s.rqt := rfl
@[simp] theorem State.wri_gate (s : State) (pg : Nat) (F : Field) (i v : Nat) : (s.wri pg F i v).gate = s.gate := rfl
@[simp] theorem State.wri_cm (s : State) (pg : Nat) (F : Field) (i v : Nat) : (s.wri pg F i v).cm = s.cm := rfl
@[simp] theorem State.wri_mill (s : State) (pg : Nat) (F : Field) (i v : Nat) : (s.wri pg F i v).mill = s.mill := rfl
@[simp] theorem State.wri_codec (s : State) (pg : Nat) (F : Field) (i v : Nat) : (s.wri pg F i v).codec = s.codec := rfl
@[simp] theorem State.wri_keg (s : State) (pg : Nat) (F : Field) (i v : Nat) : (s.wri pg F i v).keg = s.keg := rfl
@[simp] theorem State.wri_ctxs (s : State) (pg : Nat) (F : Field) (i v : Nat) : (s.wri pg F i v).ctxs = s.ctxs := rfl
@[simp] theorem State.wri_casks (s : State) (pg : Nat) (F : Field) (i v : Nat) : (s.wri pg F i v).casks = s.casks := rfl
@[simp] theorem State.wri_gau (s : State) (pg : Nat) (F : Field) (i v : Nat) : (s.wri pg F i v).gau = s.gau := rfl
@[simp] theorem State.wri_fw (s : State) (pg : Nat) (F : Field) (i v : Nat) : (s.wri pg F i v).fw = s.fw := rfl
@[simp] theorem State.wri_bist (s : State) (pg : Nat) (F : Field) (i v : Nat) : (s.wri pg F i v).bist = s.bist := rfl
@[simp] theorem State.wri_pwr (s : State) (pg : Nat) (F : Field) (i v : Nat) : (s.wri pg F i v).pwr = s.pwr := rfl
@[simp] theorem State.wri_start (s : State) (pg : Nat) (F : Field) (i v : Nat) : (s.wri pg F i v).start = s.start := rfl
@[simp] theorem State.wri_resv (s : State) (pg : Nat) (F : Field) (i v : Nat) : (s.wri pg F i v).resv = s.resv := rfl
@[simp] theorem State.wri_drbg (s : State) (pg : Nat) (F : Field) (i v : Nat) : (s.wri pg F i v).drbg = s.drbg := rfl
@[simp] theorem State.wri_vstore (s : State) (pg : Nat) (F : Field) (i v : Nat) : (s.wri pg F i v).vstore = s.vstore := rfl
@[simp] theorem State.wri_vbad (s : State) (pg : Nat) (F : Field) (i v : Nat) : (s.wri pg F i v).vbad = s.vbad := rfl
@[simp] theorem State.wri_fstore (s : State) (pg : Nat) (F : Field) (i v : Nat) : (s.wri pg F i v).fstore = s.fstore := rfl
@[simp] theorem State.wri_fbad (s : State) (pg : Nat) (F : Field) (i v : Nat) : (s.wri pg F i v).fbad = s.fbad := rfl

/-! count -/

@[simp] theorem State.count_pending (s : State) (pg off n : Nat) : (s.count pg off n).pending = s.pending := rfl
@[simp] theorem State.count_variant (s : State) (pg off n : Nat) : (s.count pg off n).variant = s.variant := rfl
@[simp] theorem State.count_now (s : State) (pg off n : Nat) : (s.count pg off n).now = s.now := rfl
@[simp] theorem State.count_freeIdx (s : State) (pg off n : Nat) : (s.count pg off n).freeIdx = s.freeIdx := rfl
@[simp] theorem State.count_regs (s : State) (pg off n : Nat) : (s.count pg off n).regs = s.regs := rfl
@[simp] theorem State.count_shadow (s : State) (pg off n : Nat) : (s.count pg off n).shadow = s.shadow := rfl
@[simp] theorem State.count_rdata (s : State) (pg off n : Nat) : (s.count pg off n).rdata = s.rdata := rfl
@[simp] theorem State.count_msgs (s : State) (pg off n : Nat) : (s.count pg off n).msgs = s.msgs := rfl
@[simp] theorem State.count_retired (s : State) (pg off n : Nat) : (s.count pg off n).retired = s.retired := rfl
@[simp] theorem State.count_underTest (s : State) (pg off n : Nat) : (s.count pg off n).underTest = s.underTest := rfl
@[simp] theorem State.count_snap (s : State) (pg off n : Nat) : (s.count pg off n).snap = s.snap := rfl
@[simp] theorem State.count_tb (s : State) (pg off n : Nat) : (s.count pg off n).tb = s.tb := rfl
@[simp] theorem State.count_host (s : State) (pg off n : Nat) : (s.count pg off n).host = s.host := rfl
@[simp] theorem State.count_vats (s : State) (pg off n : Nat) : (s.count pg off n).vats = s.vats := rfl
@[simp] theorem State.count_floors (s : State) (pg off n : Nat) : (s.count pg off n).floors = s.floors := rfl
@[simp] theorem State.count_steps (s : State) (pg off n : Nat) : (s.count pg off n).steps = s.steps := rfl
@[simp] theorem State.count_spl (s : State) (pg off n : Nat) : (s.count pg off n).spl = s.spl := rfl
@[simp] theorem State.count_lp (s : State) (pg off n : Nat) : (s.count pg off n).lp = s.lp := rfl
@[simp] theorem State.count_kv (s : State) (pg off n : Nat) : (s.count pg off n).kv = s.kv := rfl
@[simp] theorem State.count_rqt (s : State) (pg off n : Nat) : (s.count pg off n).rqt = s.rqt := rfl
@[simp] theorem State.count_gate (s : State) (pg off n : Nat) : (s.count pg off n).gate = s.gate := rfl
@[simp] theorem State.count_cm (s : State) (pg off n : Nat) : (s.count pg off n).cm = s.cm := rfl
@[simp] theorem State.count_mill (s : State) (pg off n : Nat) : (s.count pg off n).mill = s.mill := rfl
@[simp] theorem State.count_codec (s : State) (pg off n : Nat) : (s.count pg off n).codec = s.codec := rfl
@[simp] theorem State.count_keg (s : State) (pg off n : Nat) : (s.count pg off n).keg = s.keg := rfl
@[simp] theorem State.count_ctxs (s : State) (pg off n : Nat) : (s.count pg off n).ctxs = s.ctxs := rfl
@[simp] theorem State.count_casks (s : State) (pg off n : Nat) : (s.count pg off n).casks = s.casks := rfl
@[simp] theorem State.count_gau (s : State) (pg off n : Nat) : (s.count pg off n).gau = s.gau := rfl
@[simp] theorem State.count_fw (s : State) (pg off n : Nat) : (s.count pg off n).fw = s.fw := rfl
@[simp] theorem State.count_bist (s : State) (pg off n : Nat) : (s.count pg off n).bist = s.bist := rfl
@[simp] theorem State.count_pwr (s : State) (pg off n : Nat) : (s.count pg off n).pwr = s.pwr := rfl
@[simp] theorem State.count_start (s : State) (pg off n : Nat) : (s.count pg off n).start = s.start := rfl
@[simp] theorem State.count_resv (s : State) (pg off n : Nat) : (s.count pg off n).resv = s.resv := rfl
@[simp] theorem State.count_drbg (s : State) (pg off n : Nat) : (s.count pg off n).drbg = s.drbg := rfl
@[simp] theorem State.count_vstore (s : State) (pg off n : Nat) : (s.count pg off n).vstore = s.vstore := rfl
@[simp] theorem State.count_vbad (s : State) (pg off n : Nat) : (s.count pg off n).vbad = s.vbad := rfl
@[simp] theorem State.count_fstore (s : State) (pg off n : Nat) : (s.count pg off n).fstore = s.fstore := rfl
@[simp] theorem State.count_fbad (s : State) (pg off n : Nat) : (s.count pg off n).fbad = s.fbad := rfl

/-! respond -/

@[simp] theorem State.respond_pending (s : State) (fn tag st r : Nat) : (s.respond fn tag st r).pending = s.pending := rfl
@[simp] theorem State.respond_variant (s : State) (fn tag st r : Nat) : (s.respond fn tag st r).variant = s.variant := rfl
@[simp] theorem State.respond_now (s : State) (fn tag st r : Nat) : (s.respond fn tag st r).now = s.now := rfl
@[simp] theorem State.respond_freeIdx (s : State) (fn tag st r : Nat) : (s.respond fn tag st r).freeIdx = s.freeIdx := rfl
@[simp] theorem State.respond_regs (s : State) (fn tag st r : Nat) : (s.respond fn tag st r).regs = s.regs := rfl
@[simp] theorem State.respond_ctrs (s : State) (fn tag st r : Nat) : (s.respond fn tag st r).ctrs = s.ctrs := rfl
@[simp] theorem State.respond_shadow (s : State) (fn tag st r : Nat) : (s.respond fn tag st r).shadow = s.shadow := rfl
@[simp] theorem State.respond_rdata (s : State) (fn tag st r : Nat) : (s.respond fn tag st r).rdata = s.rdata := rfl
@[simp] theorem State.respond_msgs (s : State) (fn tag st r : Nat) : (s.respond fn tag st r).msgs = s.msgs := rfl
@[simp] theorem State.respond_retired (s : State) (fn tag st r : Nat) : (s.respond fn tag st r).retired = s.retired := rfl
@[simp] theorem State.respond_underTest (s : State) (fn tag st r : Nat) : (s.respond fn tag st r).underTest = s.underTest := rfl
@[simp] theorem State.respond_snap (s : State) (fn tag st r : Nat) : (s.respond fn tag st r).snap = s.snap := rfl
@[simp] theorem State.respond_tb (s : State) (fn tag st r : Nat) : (s.respond fn tag st r).tb = s.tb := rfl
@[simp] theorem State.respond_vats (s : State) (fn tag st r : Nat) : (s.respond fn tag st r).vats = s.vats := rfl
@[simp] theorem State.respond_floors (s : State) (fn tag st r : Nat) : (s.respond fn tag st r).floors = s.floors := rfl
@[simp] theorem State.respond_steps (s : State) (fn tag st r : Nat) : (s.respond fn tag st r).steps = s.steps := rfl
@[simp] theorem State.respond_spl (s : State) (fn tag st r : Nat) : (s.respond fn tag st r).spl = s.spl := rfl
@[simp] theorem State.respond_lp (s : State) (fn tag st r : Nat) : (s.respond fn tag st r).lp = s.lp := rfl
@[simp] theorem State.respond_kv (s : State) (fn tag st r : Nat) : (s.respond fn tag st r).kv = s.kv := rfl
@[simp] theorem State.respond_rqt (s : State) (fn tag st r : Nat) : (s.respond fn tag st r).rqt = s.rqt := rfl
@[simp] theorem State.respond_gate (s : State) (fn tag st r : Nat) : (s.respond fn tag st r).gate = s.gate := rfl
@[simp] theorem State.respond_cm (s : State) (fn tag st r : Nat) : (s.respond fn tag st r).cm = s.cm := rfl
@[simp] theorem State.respond_mill (s : State) (fn tag st r : Nat) : (s.respond fn tag st r).mill = s.mill := rfl
@[simp] theorem State.respond_codec (s : State) (fn tag st r : Nat) : (s.respond fn tag st r).codec = s.codec := rfl
@[simp] theorem State.respond_keg (s : State) (fn tag st r : Nat) : (s.respond fn tag st r).keg = s.keg := rfl
@[simp] theorem State.respond_ctxs (s : State) (fn tag st r : Nat) : (s.respond fn tag st r).ctxs = s.ctxs := rfl
@[simp] theorem State.respond_casks (s : State) (fn tag st r : Nat) : (s.respond fn tag st r).casks = s.casks := rfl
@[simp] theorem State.respond_gau (s : State) (fn tag st r : Nat) : (s.respond fn tag st r).gau = s.gau := rfl
@[simp] theorem State.respond_fw (s : State) (fn tag st r : Nat) : (s.respond fn tag st r).fw = s.fw := rfl
@[simp] theorem State.respond_bist (s : State) (fn tag st r : Nat) : (s.respond fn tag st r).bist = s.bist := rfl
@[simp] theorem State.respond_pwr (s : State) (fn tag st r : Nat) : (s.respond fn tag st r).pwr = s.pwr := rfl
@[simp] theorem State.respond_start (s : State) (fn tag st r : Nat) : (s.respond fn tag st r).start = s.start := rfl
@[simp] theorem State.respond_resv (s : State) (fn tag st r : Nat) : (s.respond fn tag st r).resv = s.resv := rfl
@[simp] theorem State.respond_drbg (s : State) (fn tag st r : Nat) : (s.respond fn tag st r).drbg = s.drbg := rfl
@[simp] theorem State.respond_vstore (s : State) (fn tag st r : Nat) : (s.respond fn tag st r).vstore = s.vstore := rfl
@[simp] theorem State.respond_vbad (s : State) (fn tag st r : Nat) : (s.respond fn tag st r).vbad = s.vbad := rfl
@[simp] theorem State.respond_fstore (s : State) (fn tag st r : Nat) : (s.respond fn tag st r).fstore = s.fstore := rfl
@[simp] theorem State.respond_fbad (s : State) (fn tag st r : Nat) : (s.respond fn tag st r).fbad = s.fbad := rfl

/-! hold -/

@[simp] theorem State.hold_pending (s : State) (fn tag : Nat) (o : WaitOn) (r : Nat) : (s.hold fn tag o r).pending = s.pending := rfl
@[simp] theorem State.hold_variant (s : State) (fn tag : Nat) (o : WaitOn) (r : Nat) : (s.hold fn tag o r).variant = s.variant := rfl
@[simp] theorem State.hold_now (s : State) (fn tag : Nat) (o : WaitOn) (r : Nat) : (s.hold fn tag o r).now = s.now := rfl
@[simp] theorem State.hold_freeIdx (s : State) (fn tag : Nat) (o : WaitOn) (r : Nat) : (s.hold fn tag o r).freeIdx = s.freeIdx := rfl
@[simp] theorem State.hold_regs (s : State) (fn tag : Nat) (o : WaitOn) (r : Nat) : (s.hold fn tag o r).regs = s.regs := rfl
@[simp] theorem State.hold_ctrs (s : State) (fn tag : Nat) (o : WaitOn) (r : Nat) : (s.hold fn tag o r).ctrs = s.ctrs := rfl
@[simp] theorem State.hold_shadow (s : State) (fn tag : Nat) (o : WaitOn) (r : Nat) : (s.hold fn tag o r).shadow = s.shadow := rfl
@[simp] theorem State.hold_rdata (s : State) (fn tag : Nat) (o : WaitOn) (r : Nat) : (s.hold fn tag o r).rdata = s.rdata := rfl
@[simp] theorem State.hold_msgs (s : State) (fn tag : Nat) (o : WaitOn) (r : Nat) : (s.hold fn tag o r).msgs = s.msgs := rfl
@[simp] theorem State.hold_retired (s : State) (fn tag : Nat) (o : WaitOn) (r : Nat) : (s.hold fn tag o r).retired = s.retired := rfl
@[simp] theorem State.hold_underTest (s : State) (fn tag : Nat) (o : WaitOn) (r : Nat) : (s.hold fn tag o r).underTest = s.underTest := rfl
@[simp] theorem State.hold_snap (s : State) (fn tag : Nat) (o : WaitOn) (r : Nat) : (s.hold fn tag o r).snap = s.snap := rfl
@[simp] theorem State.hold_tb (s : State) (fn tag : Nat) (o : WaitOn) (r : Nat) : (s.hold fn tag o r).tb = s.tb := rfl
@[simp] theorem State.hold_vats (s : State) (fn tag : Nat) (o : WaitOn) (r : Nat) : (s.hold fn tag o r).vats = s.vats := rfl
@[simp] theorem State.hold_floors (s : State) (fn tag : Nat) (o : WaitOn) (r : Nat) : (s.hold fn tag o r).floors = s.floors := rfl
@[simp] theorem State.hold_steps (s : State) (fn tag : Nat) (o : WaitOn) (r : Nat) : (s.hold fn tag o r).steps = s.steps := rfl
@[simp] theorem State.hold_spl (s : State) (fn tag : Nat) (o : WaitOn) (r : Nat) : (s.hold fn tag o r).spl = s.spl := rfl
@[simp] theorem State.hold_lp (s : State) (fn tag : Nat) (o : WaitOn) (r : Nat) : (s.hold fn tag o r).lp = s.lp := rfl
@[simp] theorem State.hold_kv (s : State) (fn tag : Nat) (o : WaitOn) (r : Nat) : (s.hold fn tag o r).kv = s.kv := rfl
@[simp] theorem State.hold_rqt (s : State) (fn tag : Nat) (o : WaitOn) (r : Nat) : (s.hold fn tag o r).rqt = s.rqt := rfl
@[simp] theorem State.hold_gate (s : State) (fn tag : Nat) (o : WaitOn) (r : Nat) : (s.hold fn tag o r).gate = s.gate := rfl
@[simp] theorem State.hold_cm (s : State) (fn tag : Nat) (o : WaitOn) (r : Nat) : (s.hold fn tag o r).cm = s.cm := rfl
@[simp] theorem State.hold_mill (s : State) (fn tag : Nat) (o : WaitOn) (r : Nat) : (s.hold fn tag o r).mill = s.mill := rfl
@[simp] theorem State.hold_codec (s : State) (fn tag : Nat) (o : WaitOn) (r : Nat) : (s.hold fn tag o r).codec = s.codec := rfl
@[simp] theorem State.hold_keg (s : State) (fn tag : Nat) (o : WaitOn) (r : Nat) : (s.hold fn tag o r).keg = s.keg := rfl
@[simp] theorem State.hold_ctxs (s : State) (fn tag : Nat) (o : WaitOn) (r : Nat) : (s.hold fn tag o r).ctxs = s.ctxs := rfl
@[simp] theorem State.hold_casks (s : State) (fn tag : Nat) (o : WaitOn) (r : Nat) : (s.hold fn tag o r).casks = s.casks := rfl
@[simp] theorem State.hold_gau (s : State) (fn tag : Nat) (o : WaitOn) (r : Nat) : (s.hold fn tag o r).gau = s.gau := rfl
@[simp] theorem State.hold_fw (s : State) (fn tag : Nat) (o : WaitOn) (r : Nat) : (s.hold fn tag o r).fw = s.fw := rfl
@[simp] theorem State.hold_bist (s : State) (fn tag : Nat) (o : WaitOn) (r : Nat) : (s.hold fn tag o r).bist = s.bist := rfl
@[simp] theorem State.hold_pwr (s : State) (fn tag : Nat) (o : WaitOn) (r : Nat) : (s.hold fn tag o r).pwr = s.pwr := rfl
@[simp] theorem State.hold_start (s : State) (fn tag : Nat) (o : WaitOn) (r : Nat) : (s.hold fn tag o r).start = s.start := rfl
@[simp] theorem State.hold_resv (s : State) (fn tag : Nat) (o : WaitOn) (r : Nat) : (s.hold fn tag o r).resv = s.resv := rfl
@[simp] theorem State.hold_drbg (s : State) (fn tag : Nat) (o : WaitOn) (r : Nat) : (s.hold fn tag o r).drbg = s.drbg := rfl
@[simp] theorem State.hold_vstore (s : State) (fn tag : Nat) (o : WaitOn) (r : Nat) : (s.hold fn tag o r).vstore = s.vstore := rfl
@[simp] theorem State.hold_vbad (s : State) (fn tag : Nat) (o : WaitOn) (r : Nat) : (s.hold fn tag o r).vbad = s.vbad := rfl
@[simp] theorem State.hold_fstore (s : State) (fn tag : Nat) (o : WaitOn) (r : Nat) : (s.hold fn tag o r).fstore = s.fstore := rfl
@[simp] theorem State.hold_fbad (s : State) (fn tag : Nat) (o : WaitOn) (r : Nat) : (s.hold fn tag o r).fbad = s.fbad := rfl

/-! setVat -/

@[simp] theorem State.setVat_pending (s : State) (pg : Nat) (v : Vat) : (s.setVat pg v).pending = s.pending := rfl
@[simp] theorem State.setVat_variant (s : State) (pg : Nat) (v : Vat) : (s.setVat pg v).variant = s.variant := rfl
@[simp] theorem State.setVat_now (s : State) (pg : Nat) (v : Vat) : (s.setVat pg v).now = s.now := rfl
@[simp] theorem State.setVat_freeIdx (s : State) (pg : Nat) (v : Vat) : (s.setVat pg v).freeIdx = s.freeIdx := rfl
@[simp] theorem State.setVat_regs (s : State) (pg : Nat) (v : Vat) : (s.setVat pg v).regs = s.regs := rfl
@[simp] theorem State.setVat_ctrs (s : State) (pg : Nat) (v : Vat) : (s.setVat pg v).ctrs = s.ctrs := rfl
@[simp] theorem State.setVat_shadow (s : State) (pg : Nat) (v : Vat) : (s.setVat pg v).shadow = s.shadow := rfl
@[simp] theorem State.setVat_rdata (s : State) (pg : Nat) (v : Vat) : (s.setVat pg v).rdata = s.rdata := rfl
@[simp] theorem State.setVat_msgs (s : State) (pg : Nat) (v : Vat) : (s.setVat pg v).msgs = s.msgs := rfl
@[simp] theorem State.setVat_retired (s : State) (pg : Nat) (v : Vat) : (s.setVat pg v).retired = s.retired := rfl
@[simp] theorem State.setVat_underTest (s : State) (pg : Nat) (v : Vat) : (s.setVat pg v).underTest = s.underTest := rfl
@[simp] theorem State.setVat_snap (s : State) (pg : Nat) (v : Vat) : (s.setVat pg v).snap = s.snap := rfl
@[simp] theorem State.setVat_tb (s : State) (pg : Nat) (v : Vat) : (s.setVat pg v).tb = s.tb := rfl
@[simp] theorem State.setVat_host (s : State) (pg : Nat) (v : Vat) : (s.setVat pg v).host = s.host := rfl
@[simp] theorem State.setVat_floors (s : State) (pg : Nat) (v : Vat) : (s.setVat pg v).floors = s.floors := rfl
@[simp] theorem State.setVat_steps (s : State) (pg : Nat) (v : Vat) : (s.setVat pg v).steps = s.steps := rfl
@[simp] theorem State.setVat_spl (s : State) (pg : Nat) (v : Vat) : (s.setVat pg v).spl = s.spl := rfl
@[simp] theorem State.setVat_lp (s : State) (pg : Nat) (v : Vat) : (s.setVat pg v).lp = s.lp := rfl
@[simp] theorem State.setVat_kv (s : State) (pg : Nat) (v : Vat) : (s.setVat pg v).kv = s.kv := rfl
@[simp] theorem State.setVat_rqt (s : State) (pg : Nat) (v : Vat) : (s.setVat pg v).rqt = s.rqt := rfl
@[simp] theorem State.setVat_gate (s : State) (pg : Nat) (v : Vat) : (s.setVat pg v).gate = s.gate := rfl
@[simp] theorem State.setVat_cm (s : State) (pg : Nat) (v : Vat) : (s.setVat pg v).cm = s.cm := rfl
@[simp] theorem State.setVat_mill (s : State) (pg : Nat) (v : Vat) : (s.setVat pg v).mill = s.mill := rfl
@[simp] theorem State.setVat_codec (s : State) (pg : Nat) (v : Vat) : (s.setVat pg v).codec = s.codec := rfl
@[simp] theorem State.setVat_keg (s : State) (pg : Nat) (v : Vat) : (s.setVat pg v).keg = s.keg := rfl
@[simp] theorem State.setVat_ctxs (s : State) (pg : Nat) (v : Vat) : (s.setVat pg v).ctxs = s.ctxs := rfl
@[simp] theorem State.setVat_casks (s : State) (pg : Nat) (v : Vat) : (s.setVat pg v).casks = s.casks := rfl
@[simp] theorem State.setVat_gau (s : State) (pg : Nat) (v : Vat) : (s.setVat pg v).gau = s.gau := rfl
@[simp] theorem State.setVat_fw (s : State) (pg : Nat) (v : Vat) : (s.setVat pg v).fw = s.fw := rfl
@[simp] theorem State.setVat_bist (s : State) (pg : Nat) (v : Vat) : (s.setVat pg v).bist = s.bist := rfl
@[simp] theorem State.setVat_pwr (s : State) (pg : Nat) (v : Vat) : (s.setVat pg v).pwr = s.pwr := rfl
@[simp] theorem State.setVat_start (s : State) (pg : Nat) (v : Vat) : (s.setVat pg v).start = s.start := rfl
@[simp] theorem State.setVat_resv (s : State) (pg : Nat) (v : Vat) : (s.setVat pg v).resv = s.resv := rfl
@[simp] theorem State.setVat_drbg (s : State) (pg : Nat) (v : Vat) : (s.setVat pg v).drbg = s.drbg := rfl
@[simp] theorem State.setVat_vstore (s : State) (pg : Nat) (v : Vat) : (s.setVat pg v).vstore = s.vstore := rfl
@[simp] theorem State.setVat_vbad (s : State) (pg : Nat) (v : Vat) : (s.setVat pg v).vbad = s.vbad := rfl
@[simp] theorem State.setVat_fstore (s : State) (pg : Nat) (v : Vat) : (s.setVat pg v).fstore = s.fstore := rfl
@[simp] theorem State.setVat_fbad (s : State) (pg : Nat) (v : Vat) : (s.setVat pg v).fbad = s.fbad := rfl

/-! setFloor -/

@[simp] theorem State.setFloor_pending (s : State) (pg : Nat) (f : FloorSt) : (s.setFloor pg f).pending = s.pending := rfl
@[simp] theorem State.setFloor_variant (s : State) (pg : Nat) (f : FloorSt) : (s.setFloor pg f).variant = s.variant := rfl
@[simp] theorem State.setFloor_now (s : State) (pg : Nat) (f : FloorSt) : (s.setFloor pg f).now = s.now := rfl
@[simp] theorem State.setFloor_freeIdx (s : State) (pg : Nat) (f : FloorSt) : (s.setFloor pg f).freeIdx = s.freeIdx := rfl
@[simp] theorem State.setFloor_regs (s : State) (pg : Nat) (f : FloorSt) : (s.setFloor pg f).regs = s.regs := rfl
@[simp] theorem State.setFloor_ctrs (s : State) (pg : Nat) (f : FloorSt) : (s.setFloor pg f).ctrs = s.ctrs := rfl
@[simp] theorem State.setFloor_shadow (s : State) (pg : Nat) (f : FloorSt) : (s.setFloor pg f).shadow = s.shadow := rfl
@[simp] theorem State.setFloor_rdata (s : State) (pg : Nat) (f : FloorSt) : (s.setFloor pg f).rdata = s.rdata := rfl
@[simp] theorem State.setFloor_msgs (s : State) (pg : Nat) (f : FloorSt) : (s.setFloor pg f).msgs = s.msgs := rfl
@[simp] theorem State.setFloor_retired (s : State) (pg : Nat) (f : FloorSt) : (s.setFloor pg f).retired = s.retired := rfl
@[simp] theorem State.setFloor_underTest (s : State) (pg : Nat) (f : FloorSt) : (s.setFloor pg f).underTest = s.underTest := rfl
@[simp] theorem State.setFloor_snap (s : State) (pg : Nat) (f : FloorSt) : (s.setFloor pg f).snap = s.snap := rfl
@[simp] theorem State.setFloor_tb (s : State) (pg : Nat) (f : FloorSt) : (s.setFloor pg f).tb = s.tb := rfl
@[simp] theorem State.setFloor_host (s : State) (pg : Nat) (f : FloorSt) : (s.setFloor pg f).host = s.host := rfl
@[simp] theorem State.setFloor_vats (s : State) (pg : Nat) (f : FloorSt) : (s.setFloor pg f).vats = s.vats := rfl
@[simp] theorem State.setFloor_steps (s : State) (pg : Nat) (f : FloorSt) : (s.setFloor pg f).steps = s.steps := rfl
@[simp] theorem State.setFloor_spl (s : State) (pg : Nat) (f : FloorSt) : (s.setFloor pg f).spl = s.spl := rfl
@[simp] theorem State.setFloor_lp (s : State) (pg : Nat) (f : FloorSt) : (s.setFloor pg f).lp = s.lp := rfl
@[simp] theorem State.setFloor_kv (s : State) (pg : Nat) (f : FloorSt) : (s.setFloor pg f).kv = s.kv := rfl
@[simp] theorem State.setFloor_rqt (s : State) (pg : Nat) (f : FloorSt) : (s.setFloor pg f).rqt = s.rqt := rfl
@[simp] theorem State.setFloor_gate (s : State) (pg : Nat) (f : FloorSt) : (s.setFloor pg f).gate = s.gate := rfl
@[simp] theorem State.setFloor_cm (s : State) (pg : Nat) (f : FloorSt) : (s.setFloor pg f).cm = s.cm := rfl
@[simp] theorem State.setFloor_mill (s : State) (pg : Nat) (f : FloorSt) : (s.setFloor pg f).mill = s.mill := rfl
@[simp] theorem State.setFloor_codec (s : State) (pg : Nat) (f : FloorSt) : (s.setFloor pg f).codec = s.codec := rfl
@[simp] theorem State.setFloor_keg (s : State) (pg : Nat) (f : FloorSt) : (s.setFloor pg f).keg = s.keg := rfl
@[simp] theorem State.setFloor_ctxs (s : State) (pg : Nat) (f : FloorSt) : (s.setFloor pg f).ctxs = s.ctxs := rfl
@[simp] theorem State.setFloor_casks (s : State) (pg : Nat) (f : FloorSt) : (s.setFloor pg f).casks = s.casks := rfl
@[simp] theorem State.setFloor_gau (s : State) (pg : Nat) (f : FloorSt) : (s.setFloor pg f).gau = s.gau := rfl
@[simp] theorem State.setFloor_fw (s : State) (pg : Nat) (f : FloorSt) : (s.setFloor pg f).fw = s.fw := rfl
@[simp] theorem State.setFloor_bist (s : State) (pg : Nat) (f : FloorSt) : (s.setFloor pg f).bist = s.bist := rfl
@[simp] theorem State.setFloor_pwr (s : State) (pg : Nat) (f : FloorSt) : (s.setFloor pg f).pwr = s.pwr := rfl
@[simp] theorem State.setFloor_start (s : State) (pg : Nat) (f : FloorSt) : (s.setFloor pg f).start = s.start := rfl
@[simp] theorem State.setFloor_resv (s : State) (pg : Nat) (f : FloorSt) : (s.setFloor pg f).resv = s.resv := rfl
@[simp] theorem State.setFloor_drbg (s : State) (pg : Nat) (f : FloorSt) : (s.setFloor pg f).drbg = s.drbg := rfl
@[simp] theorem State.setFloor_vstore (s : State) (pg : Nat) (f : FloorSt) : (s.setFloor pg f).vstore = s.vstore := rfl
@[simp] theorem State.setFloor_vbad (s : State) (pg : Nat) (f : FloorSt) : (s.setFloor pg f).vbad = s.vbad := rfl
@[simp] theorem State.setFloor_fstore (s : State) (pg : Nat) (f : FloorSt) : (s.setFloor pg f).fstore = s.fstore := rfl
@[simp] theorem State.setFloor_fbad (s : State) (pg : Nat) (f : FloorSt) : (s.setFloor pg f).fbad = s.fbad := rfl

/-! setStep -/

@[simp] theorem State.setStep_pending (s : State) (id : Nat) (st : Step) : (s.setStep id st).pending = s.pending := rfl
@[simp] theorem State.setStep_variant (s : State) (id : Nat) (st : Step) : (s.setStep id st).variant = s.variant := rfl
@[simp] theorem State.setStep_now (s : State) (id : Nat) (st : Step) : (s.setStep id st).now = s.now := rfl
@[simp] theorem State.setStep_freeIdx (s : State) (id : Nat) (st : Step) : (s.setStep id st).freeIdx = s.freeIdx := rfl
@[simp] theorem State.setStep_regs (s : State) (id : Nat) (st : Step) : (s.setStep id st).regs = s.regs := rfl
@[simp] theorem State.setStep_ctrs (s : State) (id : Nat) (st : Step) : (s.setStep id st).ctrs = s.ctrs := rfl
@[simp] theorem State.setStep_shadow (s : State) (id : Nat) (st : Step) : (s.setStep id st).shadow = s.shadow := rfl
@[simp] theorem State.setStep_rdata (s : State) (id : Nat) (st : Step) : (s.setStep id st).rdata = s.rdata := rfl
@[simp] theorem State.setStep_msgs (s : State) (id : Nat) (st : Step) : (s.setStep id st).msgs = s.msgs := rfl
@[simp] theorem State.setStep_retired (s : State) (id : Nat) (st : Step) : (s.setStep id st).retired = s.retired := rfl
@[simp] theorem State.setStep_underTest (s : State) (id : Nat) (st : Step) : (s.setStep id st).underTest = s.underTest := rfl
@[simp] theorem State.setStep_snap (s : State) (id : Nat) (st : Step) : (s.setStep id st).snap = s.snap := rfl
@[simp] theorem State.setStep_tb (s : State) (id : Nat) (st : Step) : (s.setStep id st).tb = s.tb := rfl
@[simp] theorem State.setStep_host (s : State) (id : Nat) (st : Step) : (s.setStep id st).host = s.host := rfl
@[simp] theorem State.setStep_vats (s : State) (id : Nat) (st : Step) : (s.setStep id st).vats = s.vats := rfl
@[simp] theorem State.setStep_floors (s : State) (id : Nat) (st : Step) : (s.setStep id st).floors = s.floors := rfl
@[simp] theorem State.setStep_spl (s : State) (id : Nat) (st : Step) : (s.setStep id st).spl = s.spl := rfl
@[simp] theorem State.setStep_lp (s : State) (id : Nat) (st : Step) : (s.setStep id st).lp = s.lp := rfl
@[simp] theorem State.setStep_kv (s : State) (id : Nat) (st : Step) : (s.setStep id st).kv = s.kv := rfl
@[simp] theorem State.setStep_rqt (s : State) (id : Nat) (st : Step) : (s.setStep id st).rqt = s.rqt := rfl
@[simp] theorem State.setStep_gate (s : State) (id : Nat) (st : Step) : (s.setStep id st).gate = s.gate := rfl
@[simp] theorem State.setStep_cm (s : State) (id : Nat) (st : Step) : (s.setStep id st).cm = s.cm := rfl
@[simp] theorem State.setStep_mill (s : State) (id : Nat) (st : Step) : (s.setStep id st).mill = s.mill := rfl
@[simp] theorem State.setStep_codec (s : State) (id : Nat) (st : Step) : (s.setStep id st).codec = s.codec := rfl
@[simp] theorem State.setStep_keg (s : State) (id : Nat) (st : Step) : (s.setStep id st).keg = s.keg := rfl
@[simp] theorem State.setStep_ctxs (s : State) (id : Nat) (st : Step) : (s.setStep id st).ctxs = s.ctxs := rfl
@[simp] theorem State.setStep_casks (s : State) (id : Nat) (st : Step) : (s.setStep id st).casks = s.casks := rfl
@[simp] theorem State.setStep_gau (s : State) (id : Nat) (st : Step) : (s.setStep id st).gau = s.gau := rfl
@[simp] theorem State.setStep_fw (s : State) (id : Nat) (st : Step) : (s.setStep id st).fw = s.fw := rfl
@[simp] theorem State.setStep_bist (s : State) (id : Nat) (st : Step) : (s.setStep id st).bist = s.bist := rfl
@[simp] theorem State.setStep_pwr (s : State) (id : Nat) (st : Step) : (s.setStep id st).pwr = s.pwr := rfl
@[simp] theorem State.setStep_start (s : State) (id : Nat) (st : Step) : (s.setStep id st).start = s.start := rfl
@[simp] theorem State.setStep_resv (s : State) (id : Nat) (st : Step) : (s.setStep id st).resv = s.resv := rfl
@[simp] theorem State.setStep_drbg (s : State) (id : Nat) (st : Step) : (s.setStep id st).drbg = s.drbg := rfl
@[simp] theorem State.setStep_vstore (s : State) (id : Nat) (st : Step) : (s.setStep id st).vstore = s.vstore := rfl
@[simp] theorem State.setStep_vbad (s : State) (id : Nat) (st : Step) : (s.setStep id st).vbad = s.vbad := rfl
@[simp] theorem State.setStep_fstore (s : State) (id : Nat) (st : Step) : (s.setStep id st).fstore = s.fstore := rfl
@[simp] theorem State.setStep_fbad (s : State) (id : Nat) (st : Step) : (s.setStep id st).fbad = s.fbad := rfl

/-! modStep -/

@[simp] theorem State.modStep_pending (s : State) (id : Nat) (f : Step → Step) : (s.modStep id f).pending = s.pending := rfl
@[simp] theorem State.modStep_variant (s : State) (id : Nat) (f : Step → Step) : (s.modStep id f).variant = s.variant := rfl
@[simp] theorem State.modStep_now (s : State) (id : Nat) (f : Step → Step) : (s.modStep id f).now = s.now := rfl
@[simp] theorem State.modStep_freeIdx (s : State) (id : Nat) (f : Step → Step) : (s.modStep id f).freeIdx = s.freeIdx := rfl
@[simp] theorem State.modStep_regs (s : State) (id : Nat) (f : Step → Step) : (s.modStep id f).regs = s.regs := rfl
@[simp] theorem State.modStep_ctrs (s : State) (id : Nat) (f : Step → Step) : (s.modStep id f).ctrs = s.ctrs := rfl
@[simp] theorem State.modStep_shadow (s : State) (id : Nat) (f : Step → Step) : (s.modStep id f).shadow = s.shadow := rfl
@[simp] theorem State.modStep_rdata (s : State) (id : Nat) (f : Step → Step) : (s.modStep id f).rdata = s.rdata := rfl
@[simp] theorem State.modStep_msgs (s : State) (id : Nat) (f : Step → Step) : (s.modStep id f).msgs = s.msgs := rfl
@[simp] theorem State.modStep_retired (s : State) (id : Nat) (f : Step → Step) : (s.modStep id f).retired = s.retired := rfl
@[simp] theorem State.modStep_underTest (s : State) (id : Nat) (f : Step → Step) : (s.modStep id f).underTest = s.underTest := rfl
@[simp] theorem State.modStep_snap (s : State) (id : Nat) (f : Step → Step) : (s.modStep id f).snap = s.snap := rfl
@[simp] theorem State.modStep_tb (s : State) (id : Nat) (f : Step → Step) : (s.modStep id f).tb = s.tb := rfl
@[simp] theorem State.modStep_host (s : State) (id : Nat) (f : Step → Step) : (s.modStep id f).host = s.host := rfl
@[simp] theorem State.modStep_vats (s : State) (id : Nat) (f : Step → Step) : (s.modStep id f).vats = s.vats := rfl
@[simp] theorem State.modStep_floors (s : State) (id : Nat) (f : Step → Step) : (s.modStep id f).floors = s.floors := rfl
@[simp] theorem State.modStep_spl (s : State) (id : Nat) (f : Step → Step) : (s.modStep id f).spl = s.spl := rfl
@[simp] theorem State.modStep_lp (s : State) (id : Nat) (f : Step → Step) : (s.modStep id f).lp = s.lp := rfl
@[simp] theorem State.modStep_kv (s : State) (id : Nat) (f : Step → Step) : (s.modStep id f).kv = s.kv := rfl
@[simp] theorem State.modStep_rqt (s : State) (id : Nat) (f : Step → Step) : (s.modStep id f).rqt = s.rqt := rfl
@[simp] theorem State.modStep_gate (s : State) (id : Nat) (f : Step → Step) : (s.modStep id f).gate = s.gate := rfl
@[simp] theorem State.modStep_cm (s : State) (id : Nat) (f : Step → Step) : (s.modStep id f).cm = s.cm := rfl
@[simp] theorem State.modStep_mill (s : State) (id : Nat) (f : Step → Step) : (s.modStep id f).mill = s.mill := rfl
@[simp] theorem State.modStep_codec (s : State) (id : Nat) (f : Step → Step) : (s.modStep id f).codec = s.codec := rfl
@[simp] theorem State.modStep_keg (s : State) (id : Nat) (f : Step → Step) : (s.modStep id f).keg = s.keg := rfl
@[simp] theorem State.modStep_ctxs (s : State) (id : Nat) (f : Step → Step) : (s.modStep id f).ctxs = s.ctxs := rfl
@[simp] theorem State.modStep_casks (s : State) (id : Nat) (f : Step → Step) : (s.modStep id f).casks = s.casks := rfl
@[simp] theorem State.modStep_gau (s : State) (id : Nat) (f : Step → Step) : (s.modStep id f).gau = s.gau := rfl
@[simp] theorem State.modStep_fw (s : State) (id : Nat) (f : Step → Step) : (s.modStep id f).fw = s.fw := rfl
@[simp] theorem State.modStep_bist (s : State) (id : Nat) (f : Step → Step) : (s.modStep id f).bist = s.bist := rfl
@[simp] theorem State.modStep_pwr (s : State) (id : Nat) (f : Step → Step) : (s.modStep id f).pwr = s.pwr := rfl
@[simp] theorem State.modStep_start (s : State) (id : Nat) (f : Step → Step) : (s.modStep id f).start = s.start := rfl
@[simp] theorem State.modStep_resv (s : State) (id : Nat) (f : Step → Step) : (s.modStep id f).resv = s.resv := rfl
@[simp] theorem State.modStep_drbg (s : State) (id : Nat) (f : Step → Step) : (s.modStep id f).drbg = s.drbg := rfl
@[simp] theorem State.modStep_vstore (s : State) (id : Nat) (f : Step → Step) : (s.modStep id f).vstore = s.vstore := rfl
@[simp] theorem State.modStep_vbad (s : State) (id : Nat) (f : Step → Step) : (s.modStep id f).vbad = s.vbad := rfl
@[simp] theorem State.modStep_fstore (s : State) (id : Nat) (f : Step → Step) : (s.modStep id f).fstore = s.fstore := rfl
@[simp] theorem State.modStep_fbad (s : State) (id : Nat) (f : Step → Step) : (s.modStep id f).fbad = s.fbad := rfl

/-! send -/

@[simp] theorem State.send_pending (s : State) (m : SpMsg) : (s.send m).pending = s.pending := rfl
@[simp] theorem State.send_variant (s : State) (m : SpMsg) : (s.send m).variant = s.variant := rfl
@[simp] theorem State.send_now (s : State) (m : SpMsg) : (s.send m).now = s.now := rfl
@[simp] theorem State.send_freeIdx (s : State) (m : SpMsg) : (s.send m).freeIdx = s.freeIdx := rfl
@[simp] theorem State.send_regs (s : State) (m : SpMsg) : (s.send m).regs = s.regs := rfl
@[simp] theorem State.send_ctrs (s : State) (m : SpMsg) : (s.send m).ctrs = s.ctrs := rfl
@[simp] theorem State.send_shadow (s : State) (m : SpMsg) : (s.send m).shadow = s.shadow := rfl
@[simp] theorem State.send_rdata (s : State) (m : SpMsg) : (s.send m).rdata = s.rdata := rfl
@[simp] theorem State.send_msgs (s : State) (m : SpMsg) : (s.send m).msgs = s.msgs := rfl
@[simp] theorem State.send_retired (s : State) (m : SpMsg) : (s.send m).retired = s.retired := rfl
@[simp] theorem State.send_underTest (s : State) (m : SpMsg) : (s.send m).underTest = s.underTest := rfl
@[simp] theorem State.send_snap (s : State) (m : SpMsg) : (s.send m).snap = s.snap := rfl
@[simp] theorem State.send_tb (s : State) (m : SpMsg) : (s.send m).tb = s.tb := rfl
@[simp] theorem State.send_host (s : State) (m : SpMsg) : (s.send m).host = s.host := rfl
@[simp] theorem State.send_vats (s : State) (m : SpMsg) : (s.send m).vats = s.vats := rfl
@[simp] theorem State.send_floors (s : State) (m : SpMsg) : (s.send m).floors = s.floors := rfl
@[simp] theorem State.send_steps (s : State) (m : SpMsg) : (s.send m).steps = s.steps := rfl
@[simp] theorem State.send_lp (s : State) (m : SpMsg) : (s.send m).lp = s.lp := rfl
@[simp] theorem State.send_kv (s : State) (m : SpMsg) : (s.send m).kv = s.kv := rfl
@[simp] theorem State.send_rqt (s : State) (m : SpMsg) : (s.send m).rqt = s.rqt := rfl
@[simp] theorem State.send_gate (s : State) (m : SpMsg) : (s.send m).gate = s.gate := rfl
@[simp] theorem State.send_cm (s : State) (m : SpMsg) : (s.send m).cm = s.cm := rfl
@[simp] theorem State.send_mill (s : State) (m : SpMsg) : (s.send m).mill = s.mill := rfl
@[simp] theorem State.send_codec (s : State) (m : SpMsg) : (s.send m).codec = s.codec := rfl
@[simp] theorem State.send_keg (s : State) (m : SpMsg) : (s.send m).keg = s.keg := rfl
@[simp] theorem State.send_ctxs (s : State) (m : SpMsg) : (s.send m).ctxs = s.ctxs := rfl
@[simp] theorem State.send_casks (s : State) (m : SpMsg) : (s.send m).casks = s.casks := rfl
@[simp] theorem State.send_gau (s : State) (m : SpMsg) : (s.send m).gau = s.gau := rfl
@[simp] theorem State.send_fw (s : State) (m : SpMsg) : (s.send m).fw = s.fw := rfl
@[simp] theorem State.send_bist (s : State) (m : SpMsg) : (s.send m).bist = s.bist := rfl
@[simp] theorem State.send_pwr (s : State) (m : SpMsg) : (s.send m).pwr = s.pwr := rfl
@[simp] theorem State.send_start (s : State) (m : SpMsg) : (s.send m).start = s.start := rfl
@[simp] theorem State.send_resv (s : State) (m : SpMsg) : (s.send m).resv = s.resv := rfl
@[simp] theorem State.send_drbg (s : State) (m : SpMsg) : (s.send m).drbg = s.drbg := rfl
@[simp] theorem State.send_vstore (s : State) (m : SpMsg) : (s.send m).vstore = s.vstore := rfl
@[simp] theorem State.send_vbad (s : State) (m : SpMsg) : (s.send m).vbad = s.vbad := rfl
@[simp] theorem State.send_fstore (s : State) (m : SpMsg) : (s.send m).fstore = s.fstore := rfl
@[simp] theorem State.send_fbad (s : State) (m : SpMsg) : (s.send m).fbad = s.fbad := rfl

/-! Events: raising one changes registers, and the host side by its messages -/

theorem State.msix_pending (s : State) (fn vec : Nat) : (s.msix fn vec).pending = s.pending := by unfold State.msix; split <;> [rfl; split <;> rfl]
theorem State.msix_variant (s : State) (fn vec : Nat) : (s.msix fn vec).variant = s.variant := by unfold State.msix; split <;> [rfl; split <;> rfl]
theorem State.msix_now (s : State) (fn vec : Nat) : (s.msix fn vec).now = s.now := by unfold State.msix; split <;> [rfl; split <;> rfl]
theorem State.msix_freeIdx (s : State) (fn vec : Nat) : (s.msix fn vec).freeIdx = s.freeIdx := by unfold State.msix; split <;> [rfl; split <;> rfl]
theorem State.msix_regs (s : State) (fn vec : Nat) : (s.msix fn vec).regs = s.regs := by unfold State.msix; split <;> [rfl; split <;> rfl]
theorem State.msix_shadow (s : State) (fn vec : Nat) : (s.msix fn vec).shadow = s.shadow := by unfold State.msix; split <;> [rfl; split <;> rfl]
theorem State.msix_rdata (s : State) (fn vec : Nat) : (s.msix fn vec).rdata = s.rdata := by unfold State.msix; split <;> [rfl; split <;> rfl]
theorem State.msix_retired (s : State) (fn vec : Nat) : (s.msix fn vec).retired = s.retired := by unfold State.msix; split <;> [rfl; split <;> rfl]
theorem State.msix_underTest (s : State) (fn vec : Nat) : (s.msix fn vec).underTest = s.underTest := by unfold State.msix; split <;> [rfl; split <;> rfl]
theorem State.msix_snap (s : State) (fn vec : Nat) : (s.msix fn vec).snap = s.snap := by unfold State.msix; split <;> [rfl; split <;> rfl]
theorem State.msix_tb (s : State) (fn vec : Nat) : (s.msix fn vec).tb = s.tb := by unfold State.msix; split <;> [rfl; split <;> rfl]
theorem State.msix_vats (s : State) (fn vec : Nat) : (s.msix fn vec).vats = s.vats := by unfold State.msix; split <;> [rfl; split <;> rfl]
theorem State.msix_floors (s : State) (fn vec : Nat) : (s.msix fn vec).floors = s.floors := by unfold State.msix; split <;> [rfl; split <;> rfl]
theorem State.msix_steps (s : State) (fn vec : Nat) : (s.msix fn vec).steps = s.steps := by unfold State.msix; split <;> [rfl; split <;> rfl]
theorem State.msix_spl (s : State) (fn vec : Nat) : (s.msix fn vec).spl = s.spl := by unfold State.msix; split <;> [rfl; split <;> rfl]
theorem State.msix_lp (s : State) (fn vec : Nat) : (s.msix fn vec).lp = s.lp := by unfold State.msix; split <;> [rfl; split <;> rfl]
theorem State.msix_kv (s : State) (fn vec : Nat) : (s.msix fn vec).kv = s.kv := by unfold State.msix; split <;> [rfl; split <;> rfl]
theorem State.msix_rqt (s : State) (fn vec : Nat) : (s.msix fn vec).rqt = s.rqt := by unfold State.msix; split <;> [rfl; split <;> rfl]
theorem State.msix_gate (s : State) (fn vec : Nat) : (s.msix fn vec).gate = s.gate := by unfold State.msix; split <;> [rfl; split <;> rfl]
theorem State.msix_cm (s : State) (fn vec : Nat) : (s.msix fn vec).cm = s.cm := by unfold State.msix; split <;> [rfl; split <;> rfl]
theorem State.msix_mill (s : State) (fn vec : Nat) : (s.msix fn vec).mill = s.mill := by unfold State.msix; split <;> [rfl; split <;> rfl]
theorem State.msix_codec (s : State) (fn vec : Nat) : (s.msix fn vec).codec = s.codec := by unfold State.msix; split <;> [rfl; split <;> rfl]
theorem State.msix_keg (s : State) (fn vec : Nat) : (s.msix fn vec).keg = s.keg := by unfold State.msix; split <;> [rfl; split <;> rfl]
theorem State.msix_ctxs (s : State) (fn vec : Nat) : (s.msix fn vec).ctxs = s.ctxs := by unfold State.msix; split <;> [rfl; split <;> rfl]
theorem State.msix_casks (s : State) (fn vec : Nat) : (s.msix fn vec).casks = s.casks := by unfold State.msix; split <;> [rfl; split <;> rfl]
theorem State.msix_gau (s : State) (fn vec : Nat) : (s.msix fn vec).gau = s.gau := by unfold State.msix; split <;> [rfl; split <;> rfl]
theorem State.msix_fw (s : State) (fn vec : Nat) : (s.msix fn vec).fw = s.fw := by unfold State.msix; split <;> [rfl; split <;> rfl]
theorem State.msix_bist (s : State) (fn vec : Nat) : (s.msix fn vec).bist = s.bist := by unfold State.msix; split <;> [rfl; split <;> rfl]
theorem State.msix_pwr (s : State) (fn vec : Nat) : (s.msix fn vec).pwr = s.pwr := by unfold State.msix; split <;> [rfl; split <;> rfl]
theorem State.msix_start (s : State) (fn vec : Nat) : (s.msix fn vec).start = s.start := by unfold State.msix; split <;> [rfl; split <;> rfl]
theorem State.msix_resv (s : State) (fn vec : Nat) : (s.msix fn vec).resv = s.resv := by unfold State.msix; split <;> [rfl; split <;> rfl]
theorem State.msix_drbg (s : State) (fn vec : Nat) : (s.msix fn vec).drbg = s.drbg := by unfold State.msix; split <;> [rfl; split <;> rfl]
theorem State.msix_vstore (s : State) (fn vec : Nat) : (s.msix fn vec).vstore = s.vstore := by unfold State.msix; split <;> [rfl; split <;> rfl]
theorem State.msix_vbad (s : State) (fn vec : Nat) : (s.msix fn vec).vbad = s.vbad := by unfold State.msix; split <;> [rfl; split <;> rfl]
theorem State.msix_fstore (s : State) (fn vec : Nat) : (s.msix fn vec).fstore = s.fstore := by unfold State.msix; split <;> [rfl; split <;> rfl]
theorem State.msix_fbad (s : State) (fn vec : Nat) : (s.msix fn vec).fbad = s.fbad := by unfold State.msix; split <;> [rfl; split <;> rfl]

@[simp] theorem State.edges_pending (s0 s : State) : (State.edges s0 s).pending = s.pending := by
  have key : ∀ (l : List Nat) (a : State), (l.foldl (fun a fn => if s0.winSum fn = 0 ∧ s.winSum fn ≠ 0 then a.msix fn 0 else a) a).pending = a.pending := by
    intro l
    induction l with
    | nil => exact fun a => rfl
    | cons x l ih => intro a; rw [List.foldl_cons, ih]; split <;> [exact State.msix_pending a x 0; rfl]
  unfold State.edges
  rw [key]
  split <;> [exact State.msix_pending s 0 1; rfl]

@[simp] theorem State.edges_variant (s0 s : State) : (State.edges s0 s).variant = s.variant := by
  have key : ∀ (l : List Nat) (a : State), (l.foldl (fun a fn => if s0.winSum fn = 0 ∧ s.winSum fn ≠ 0 then a.msix fn 0 else a) a).variant = a.variant := by
    intro l
    induction l with
    | nil => exact fun a => rfl
    | cons x l ih => intro a; rw [List.foldl_cons, ih]; split <;> [exact State.msix_variant a x 0; rfl]
  unfold State.edges
  rw [key]
  split <;> [exact State.msix_variant s 0 1; rfl]

@[simp] theorem State.edges_now (s0 s : State) : (State.edges s0 s).now = s.now := by
  have key : ∀ (l : List Nat) (a : State), (l.foldl (fun a fn => if s0.winSum fn = 0 ∧ s.winSum fn ≠ 0 then a.msix fn 0 else a) a).now = a.now := by
    intro l
    induction l with
    | nil => exact fun a => rfl
    | cons x l ih => intro a; rw [List.foldl_cons, ih]; split <;> [exact State.msix_now a x 0; rfl]
  unfold State.edges
  rw [key]
  split <;> [exact State.msix_now s 0 1; rfl]

@[simp] theorem State.edges_freeIdx (s0 s : State) : (State.edges s0 s).freeIdx = s.freeIdx := by
  have key : ∀ (l : List Nat) (a : State), (l.foldl (fun a fn => if s0.winSum fn = 0 ∧ s.winSum fn ≠ 0 then a.msix fn 0 else a) a).freeIdx = a.freeIdx := by
    intro l
    induction l with
    | nil => exact fun a => rfl
    | cons x l ih => intro a; rw [List.foldl_cons, ih]; split <;> [exact State.msix_freeIdx a x 0; rfl]
  unfold State.edges
  rw [key]
  split <;> [exact State.msix_freeIdx s 0 1; rfl]

@[simp] theorem State.edges_regs (s0 s : State) : (State.edges s0 s).regs = s.regs := by
  have key : ∀ (l : List Nat) (a : State), (l.foldl (fun a fn => if s0.winSum fn = 0 ∧ s.winSum fn ≠ 0 then a.msix fn 0 else a) a).regs = a.regs := by
    intro l
    induction l with
    | nil => exact fun a => rfl
    | cons x l ih => intro a; rw [List.foldl_cons, ih]; split <;> [exact State.msix_regs a x 0; rfl]
  unfold State.edges
  rw [key]
  split <;> [exact State.msix_regs s 0 1; rfl]

@[simp] theorem State.edges_shadow (s0 s : State) : (State.edges s0 s).shadow = s.shadow := by
  have key : ∀ (l : List Nat) (a : State), (l.foldl (fun a fn => if s0.winSum fn = 0 ∧ s.winSum fn ≠ 0 then a.msix fn 0 else a) a).shadow = a.shadow := by
    intro l
    induction l with
    | nil => exact fun a => rfl
    | cons x l ih => intro a; rw [List.foldl_cons, ih]; split <;> [exact State.msix_shadow a x 0; rfl]
  unfold State.edges
  rw [key]
  split <;> [exact State.msix_shadow s 0 1; rfl]

@[simp] theorem State.edges_rdata (s0 s : State) : (State.edges s0 s).rdata = s.rdata := by
  have key : ∀ (l : List Nat) (a : State), (l.foldl (fun a fn => if s0.winSum fn = 0 ∧ s.winSum fn ≠ 0 then a.msix fn 0 else a) a).rdata = a.rdata := by
    intro l
    induction l with
    | nil => exact fun a => rfl
    | cons x l ih => intro a; rw [List.foldl_cons, ih]; split <;> [exact State.msix_rdata a x 0; rfl]
  unfold State.edges
  rw [key]
  split <;> [exact State.msix_rdata s 0 1; rfl]

@[simp] theorem State.edges_retired (s0 s : State) : (State.edges s0 s).retired = s.retired := by
  have key : ∀ (l : List Nat) (a : State), (l.foldl (fun a fn => if s0.winSum fn = 0 ∧ s.winSum fn ≠ 0 then a.msix fn 0 else a) a).retired = a.retired := by
    intro l
    induction l with
    | nil => exact fun a => rfl
    | cons x l ih => intro a; rw [List.foldl_cons, ih]; split <;> [exact State.msix_retired a x 0; rfl]
  unfold State.edges
  rw [key]
  split <;> [exact State.msix_retired s 0 1; rfl]

@[simp] theorem State.edges_underTest (s0 s : State) : (State.edges s0 s).underTest = s.underTest := by
  have key : ∀ (l : List Nat) (a : State), (l.foldl (fun a fn => if s0.winSum fn = 0 ∧ s.winSum fn ≠ 0 then a.msix fn 0 else a) a).underTest = a.underTest := by
    intro l
    induction l with
    | nil => exact fun a => rfl
    | cons x l ih => intro a; rw [List.foldl_cons, ih]; split <;> [exact State.msix_underTest a x 0; rfl]
  unfold State.edges
  rw [key]
  split <;> [exact State.msix_underTest s 0 1; rfl]

@[simp] theorem State.edges_snap (s0 s : State) : (State.edges s0 s).snap = s.snap := by
  have key : ∀ (l : List Nat) (a : State), (l.foldl (fun a fn => if s0.winSum fn = 0 ∧ s.winSum fn ≠ 0 then a.msix fn 0 else a) a).snap = a.snap := by
    intro l
    induction l with
    | nil => exact fun a => rfl
    | cons x l ih => intro a; rw [List.foldl_cons, ih]; split <;> [exact State.msix_snap a x 0; rfl]
  unfold State.edges
  rw [key]
  split <;> [exact State.msix_snap s 0 1; rfl]

@[simp] theorem State.edges_tb (s0 s : State) : (State.edges s0 s).tb = s.tb := by
  have key : ∀ (l : List Nat) (a : State), (l.foldl (fun a fn => if s0.winSum fn = 0 ∧ s.winSum fn ≠ 0 then a.msix fn 0 else a) a).tb = a.tb := by
    intro l
    induction l with
    | nil => exact fun a => rfl
    | cons x l ih => intro a; rw [List.foldl_cons, ih]; split <;> [exact State.msix_tb a x 0; rfl]
  unfold State.edges
  rw [key]
  split <;> [exact State.msix_tb s 0 1; rfl]

@[simp] theorem State.edges_vats (s0 s : State) : (State.edges s0 s).vats = s.vats := by
  have key : ∀ (l : List Nat) (a : State), (l.foldl (fun a fn => if s0.winSum fn = 0 ∧ s.winSum fn ≠ 0 then a.msix fn 0 else a) a).vats = a.vats := by
    intro l
    induction l with
    | nil => exact fun a => rfl
    | cons x l ih => intro a; rw [List.foldl_cons, ih]; split <;> [exact State.msix_vats a x 0; rfl]
  unfold State.edges
  rw [key]
  split <;> [exact State.msix_vats s 0 1; rfl]

@[simp] theorem State.edges_floors (s0 s : State) : (State.edges s0 s).floors = s.floors := by
  have key : ∀ (l : List Nat) (a : State), (l.foldl (fun a fn => if s0.winSum fn = 0 ∧ s.winSum fn ≠ 0 then a.msix fn 0 else a) a).floors = a.floors := by
    intro l
    induction l with
    | nil => exact fun a => rfl
    | cons x l ih => intro a; rw [List.foldl_cons, ih]; split <;> [exact State.msix_floors a x 0; rfl]
  unfold State.edges
  rw [key]
  split <;> [exact State.msix_floors s 0 1; rfl]

@[simp] theorem State.edges_steps (s0 s : State) : (State.edges s0 s).steps = s.steps := by
  have key : ∀ (l : List Nat) (a : State), (l.foldl (fun a fn => if s0.winSum fn = 0 ∧ s.winSum fn ≠ 0 then a.msix fn 0 else a) a).steps = a.steps := by
    intro l
    induction l with
    | nil => exact fun a => rfl
    | cons x l ih => intro a; rw [List.foldl_cons, ih]; split <;> [exact State.msix_steps a x 0; rfl]
  unfold State.edges
  rw [key]
  split <;> [exact State.msix_steps s 0 1; rfl]

@[simp] theorem State.edges_spl (s0 s : State) : (State.edges s0 s).spl = s.spl := by
  have key : ∀ (l : List Nat) (a : State), (l.foldl (fun a fn => if s0.winSum fn = 0 ∧ s.winSum fn ≠ 0 then a.msix fn 0 else a) a).spl = a.spl := by
    intro l
    induction l with
    | nil => exact fun a => rfl
    | cons x l ih => intro a; rw [List.foldl_cons, ih]; split <;> [exact State.msix_spl a x 0; rfl]
  unfold State.edges
  rw [key]
  split <;> [exact State.msix_spl s 0 1; rfl]

@[simp] theorem State.edges_lp (s0 s : State) : (State.edges s0 s).lp = s.lp := by
  have key : ∀ (l : List Nat) (a : State), (l.foldl (fun a fn => if s0.winSum fn = 0 ∧ s.winSum fn ≠ 0 then a.msix fn 0 else a) a).lp = a.lp := by
    intro l
    induction l with
    | nil => exact fun a => rfl
    | cons x l ih => intro a; rw [List.foldl_cons, ih]; split <;> [exact State.msix_lp a x 0; rfl]
  unfold State.edges
  rw [key]
  split <;> [exact State.msix_lp s 0 1; rfl]

@[simp] theorem State.edges_kv (s0 s : State) : (State.edges s0 s).kv = s.kv := by
  have key : ∀ (l : List Nat) (a : State), (l.foldl (fun a fn => if s0.winSum fn = 0 ∧ s.winSum fn ≠ 0 then a.msix fn 0 else a) a).kv = a.kv := by
    intro l
    induction l with
    | nil => exact fun a => rfl
    | cons x l ih => intro a; rw [List.foldl_cons, ih]; split <;> [exact State.msix_kv a x 0; rfl]
  unfold State.edges
  rw [key]
  split <;> [exact State.msix_kv s 0 1; rfl]

@[simp] theorem State.edges_rqt (s0 s : State) : (State.edges s0 s).rqt = s.rqt := by
  have key : ∀ (l : List Nat) (a : State), (l.foldl (fun a fn => if s0.winSum fn = 0 ∧ s.winSum fn ≠ 0 then a.msix fn 0 else a) a).rqt = a.rqt := by
    intro l
    induction l with
    | nil => exact fun a => rfl
    | cons x l ih => intro a; rw [List.foldl_cons, ih]; split <;> [exact State.msix_rqt a x 0; rfl]
  unfold State.edges
  rw [key]
  split <;> [exact State.msix_rqt s 0 1; rfl]

@[simp] theorem State.edges_gate (s0 s : State) : (State.edges s0 s).gate = s.gate := by
  have key : ∀ (l : List Nat) (a : State), (l.foldl (fun a fn => if s0.winSum fn = 0 ∧ s.winSum fn ≠ 0 then a.msix fn 0 else a) a).gate = a.gate := by
    intro l
    induction l with
    | nil => exact fun a => rfl
    | cons x l ih => intro a; rw [List.foldl_cons, ih]; split <;> [exact State.msix_gate a x 0; rfl]
  unfold State.edges
  rw [key]
  split <;> [exact State.msix_gate s 0 1; rfl]

@[simp] theorem State.edges_cm (s0 s : State) : (State.edges s0 s).cm = s.cm := by
  have key : ∀ (l : List Nat) (a : State), (l.foldl (fun a fn => if s0.winSum fn = 0 ∧ s.winSum fn ≠ 0 then a.msix fn 0 else a) a).cm = a.cm := by
    intro l
    induction l with
    | nil => exact fun a => rfl
    | cons x l ih => intro a; rw [List.foldl_cons, ih]; split <;> [exact State.msix_cm a x 0; rfl]
  unfold State.edges
  rw [key]
  split <;> [exact State.msix_cm s 0 1; rfl]

@[simp] theorem State.edges_mill (s0 s : State) : (State.edges s0 s).mill = s.mill := by
  have key : ∀ (l : List Nat) (a : State), (l.foldl (fun a fn => if s0.winSum fn = 0 ∧ s.winSum fn ≠ 0 then a.msix fn 0 else a) a).mill = a.mill := by
    intro l
    induction l with
    | nil => exact fun a => rfl
    | cons x l ih => intro a; rw [List.foldl_cons, ih]; split <;> [exact State.msix_mill a x 0; rfl]
  unfold State.edges
  rw [key]
  split <;> [exact State.msix_mill s 0 1; rfl]

@[simp] theorem State.edges_codec (s0 s : State) : (State.edges s0 s).codec = s.codec := by
  have key : ∀ (l : List Nat) (a : State), (l.foldl (fun a fn => if s0.winSum fn = 0 ∧ s.winSum fn ≠ 0 then a.msix fn 0 else a) a).codec = a.codec := by
    intro l
    induction l with
    | nil => exact fun a => rfl
    | cons x l ih => intro a; rw [List.foldl_cons, ih]; split <;> [exact State.msix_codec a x 0; rfl]
  unfold State.edges
  rw [key]
  split <;> [exact State.msix_codec s 0 1; rfl]

@[simp] theorem State.edges_keg (s0 s : State) : (State.edges s0 s).keg = s.keg := by
  have key : ∀ (l : List Nat) (a : State), (l.foldl (fun a fn => if s0.winSum fn = 0 ∧ s.winSum fn ≠ 0 then a.msix fn 0 else a) a).keg = a.keg := by
    intro l
    induction l with
    | nil => exact fun a => rfl
    | cons x l ih => intro a; rw [List.foldl_cons, ih]; split <;> [exact State.msix_keg a x 0; rfl]
  unfold State.edges
  rw [key]
  split <;> [exact State.msix_keg s 0 1; rfl]

@[simp] theorem State.edges_ctxs (s0 s : State) : (State.edges s0 s).ctxs = s.ctxs := by
  have key : ∀ (l : List Nat) (a : State), (l.foldl (fun a fn => if s0.winSum fn = 0 ∧ s.winSum fn ≠ 0 then a.msix fn 0 else a) a).ctxs = a.ctxs := by
    intro l
    induction l with
    | nil => exact fun a => rfl
    | cons x l ih => intro a; rw [List.foldl_cons, ih]; split <;> [exact State.msix_ctxs a x 0; rfl]
  unfold State.edges
  rw [key]
  split <;> [exact State.msix_ctxs s 0 1; rfl]

@[simp] theorem State.edges_casks (s0 s : State) : (State.edges s0 s).casks = s.casks := by
  have key : ∀ (l : List Nat) (a : State), (l.foldl (fun a fn => if s0.winSum fn = 0 ∧ s.winSum fn ≠ 0 then a.msix fn 0 else a) a).casks = a.casks := by
    intro l
    induction l with
    | nil => exact fun a => rfl
    | cons x l ih => intro a; rw [List.foldl_cons, ih]; split <;> [exact State.msix_casks a x 0; rfl]
  unfold State.edges
  rw [key]
  split <;> [exact State.msix_casks s 0 1; rfl]

@[simp] theorem State.edges_gau (s0 s : State) : (State.edges s0 s).gau = s.gau := by
  have key : ∀ (l : List Nat) (a : State), (l.foldl (fun a fn => if s0.winSum fn = 0 ∧ s.winSum fn ≠ 0 then a.msix fn 0 else a) a).gau = a.gau := by
    intro l
    induction l with
    | nil => exact fun a => rfl
    | cons x l ih => intro a; rw [List.foldl_cons, ih]; split <;> [exact State.msix_gau a x 0; rfl]
  unfold State.edges
  rw [key]
  split <;> [exact State.msix_gau s 0 1; rfl]

@[simp] theorem State.edges_fw (s0 s : State) : (State.edges s0 s).fw = s.fw := by
  have key : ∀ (l : List Nat) (a : State), (l.foldl (fun a fn => if s0.winSum fn = 0 ∧ s.winSum fn ≠ 0 then a.msix fn 0 else a) a).fw = a.fw := by
    intro l
    induction l with
    | nil => exact fun a => rfl
    | cons x l ih => intro a; rw [List.foldl_cons, ih]; split <;> [exact State.msix_fw a x 0; rfl]
  unfold State.edges
  rw [key]
  split <;> [exact State.msix_fw s 0 1; rfl]

@[simp] theorem State.edges_bist (s0 s : State) : (State.edges s0 s).bist = s.bist := by
  have key : ∀ (l : List Nat) (a : State), (l.foldl (fun a fn => if s0.winSum fn = 0 ∧ s.winSum fn ≠ 0 then a.msix fn 0 else a) a).bist = a.bist := by
    intro l
    induction l with
    | nil => exact fun a => rfl
    | cons x l ih => intro a; rw [List.foldl_cons, ih]; split <;> [exact State.msix_bist a x 0; rfl]
  unfold State.edges
  rw [key]
  split <;> [exact State.msix_bist s 0 1; rfl]

@[simp] theorem State.edges_pwr (s0 s : State) : (State.edges s0 s).pwr = s.pwr := by
  have key : ∀ (l : List Nat) (a : State), (l.foldl (fun a fn => if s0.winSum fn = 0 ∧ s.winSum fn ≠ 0 then a.msix fn 0 else a) a).pwr = a.pwr := by
    intro l
    induction l with
    | nil => exact fun a => rfl
    | cons x l ih => intro a; rw [List.foldl_cons, ih]; split <;> [exact State.msix_pwr a x 0; rfl]
  unfold State.edges
  rw [key]
  split <;> [exact State.msix_pwr s 0 1; rfl]

@[simp] theorem State.edges_start (s0 s : State) : (State.edges s0 s).start = s.start := by
  have key : ∀ (l : List Nat) (a : State), (l.foldl (fun a fn => if s0.winSum fn = 0 ∧ s.winSum fn ≠ 0 then a.msix fn 0 else a) a).start = a.start := by
    intro l
    induction l with
    | nil => exact fun a => rfl
    | cons x l ih => intro a; rw [List.foldl_cons, ih]; split <;> [exact State.msix_start a x 0; rfl]
  unfold State.edges
  rw [key]
  split <;> [exact State.msix_start s 0 1; rfl]

@[simp] theorem State.edges_resv (s0 s : State) : (State.edges s0 s).resv = s.resv := by
  have key : ∀ (l : List Nat) (a : State), (l.foldl (fun a fn => if s0.winSum fn = 0 ∧ s.winSum fn ≠ 0 then a.msix fn 0 else a) a).resv = a.resv := by
    intro l
    induction l with
    | nil => exact fun a => rfl
    | cons x l ih => intro a; rw [List.foldl_cons, ih]; split <;> [exact State.msix_resv a x 0; rfl]
  unfold State.edges
  rw [key]
  split <;> [exact State.msix_resv s 0 1; rfl]

@[simp] theorem State.edges_drbg (s0 s : State) : (State.edges s0 s).drbg = s.drbg := by
  have key : ∀ (l : List Nat) (a : State), (l.foldl (fun a fn => if s0.winSum fn = 0 ∧ s.winSum fn ≠ 0 then a.msix fn 0 else a) a).drbg = a.drbg := by
    intro l
    induction l with
    | nil => exact fun a => rfl
    | cons x l ih => intro a; rw [List.foldl_cons, ih]; split <;> [exact State.msix_drbg a x 0; rfl]
  unfold State.edges
  rw [key]
  split <;> [exact State.msix_drbg s 0 1; rfl]

@[simp] theorem State.edges_vstore (s0 s : State) : (State.edges s0 s).vstore = s.vstore := by
  have key : ∀ (l : List Nat) (a : State), (l.foldl (fun a fn => if s0.winSum fn = 0 ∧ s.winSum fn ≠ 0 then a.msix fn 0 else a) a).vstore = a.vstore := by
    intro l
    induction l with
    | nil => exact fun a => rfl
    | cons x l ih => intro a; rw [List.foldl_cons, ih]; split <;> [exact State.msix_vstore a x 0; rfl]
  unfold State.edges
  rw [key]
  split <;> [exact State.msix_vstore s 0 1; rfl]

@[simp] theorem State.edges_vbad (s0 s : State) : (State.edges s0 s).vbad = s.vbad := by
  have key : ∀ (l : List Nat) (a : State), (l.foldl (fun a fn => if s0.winSum fn = 0 ∧ s.winSum fn ≠ 0 then a.msix fn 0 else a) a).vbad = a.vbad := by
    intro l
    induction l with
    | nil => exact fun a => rfl
    | cons x l ih => intro a; rw [List.foldl_cons, ih]; split <;> [exact State.msix_vbad a x 0; rfl]
  unfold State.edges
  rw [key]
  split <;> [exact State.msix_vbad s 0 1; rfl]

@[simp] theorem State.edges_fstore (s0 s : State) : (State.edges s0 s).fstore = s.fstore := by
  have key : ∀ (l : List Nat) (a : State), (l.foldl (fun a fn => if s0.winSum fn = 0 ∧ s.winSum fn ≠ 0 then a.msix fn 0 else a) a).fstore = a.fstore := by
    intro l
    induction l with
    | nil => exact fun a => rfl
    | cons x l ih => intro a; rw [List.foldl_cons, ih]; split <;> [exact State.msix_fstore a x 0; rfl]
  unfold State.edges
  rw [key]
  split <;> [exact State.msix_fstore s 0 1; rfl]

@[simp] theorem State.edges_fbad (s0 s : State) : (State.edges s0 s).fbad = s.fbad := by
  have key : ∀ (l : List Nat) (a : State), (l.foldl (fun a fn => if s0.winSum fn = 0 ∧ s.winSum fn ≠ 0 then a.msix fn 0 else a) a).fbad = a.fbad := by
    intro l
    induction l with
    | nil => exact fun a => rfl
    | cons x l ih => intro a; rw [List.foldl_cons, ih]; split <;> [exact State.msix_fbad a x 0; rfl]
  unfold State.edges
  rw [key]
  split <;> [exact State.msix_fbad s 0 1; rfl]

@[simp] theorem State.raise_pending (s : State) (pg bit : Nat) : (s.raise pg bit).pending = s.pending := by simp [State.raise]
@[simp] theorem State.raise_variant (s : State) (pg bit : Nat) : (s.raise pg bit).variant = s.variant := by simp [State.raise]
@[simp] theorem State.raise_now (s : State) (pg bit : Nat) : (s.raise pg bit).now = s.now := by simp [State.raise]
@[simp] theorem State.raise_freeIdx (s : State) (pg bit : Nat) : (s.raise pg bit).freeIdx = s.freeIdx := by simp [State.raise]
theorem State.raise_regs (s : State) (pg bit : Nat) : (s.raise pg bit).regs = (s.wr pg F.EVT_RAW (s.rd pg F.EVT_RAW ||| 2 ^ bit)).regs := State.edges_regs _ _
@[simp] theorem State.raise_shadow (s : State) (pg bit : Nat) : (s.raise pg bit).shadow = s.shadow := by simp [State.raise]
@[simp] theorem State.raise_rdata (s : State) (pg bit : Nat) : (s.raise pg bit).rdata = s.rdata := by simp [State.raise]
@[simp] theorem State.raise_retired (s : State) (pg bit : Nat) : (s.raise pg bit).retired = s.retired := by simp [State.raise]
@[simp] theorem State.raise_underTest (s : State) (pg bit : Nat) : (s.raise pg bit).underTest = s.underTest := by simp [State.raise]
@[simp] theorem State.raise_snap (s : State) (pg bit : Nat) : (s.raise pg bit).snap = s.snap := by simp [State.raise]
@[simp] theorem State.raise_tb (s : State) (pg bit : Nat) : (s.raise pg bit).tb = s.tb := by simp [State.raise]
@[simp] theorem State.raise_vats (s : State) (pg bit : Nat) : (s.raise pg bit).vats = s.vats := by simp [State.raise]
@[simp] theorem State.raise_floors (s : State) (pg bit : Nat) : (s.raise pg bit).floors = s.floors := by simp [State.raise]
@[simp] theorem State.raise_steps (s : State) (pg bit : Nat) : (s.raise pg bit).steps = s.steps := by simp [State.raise]
@[simp] theorem State.raise_spl (s : State) (pg bit : Nat) : (s.raise pg bit).spl = s.spl := by simp [State.raise]
@[simp] theorem State.raise_lp (s : State) (pg bit : Nat) : (s.raise pg bit).lp = s.lp := by simp [State.raise]
@[simp] theorem State.raise_kv (s : State) (pg bit : Nat) : (s.raise pg bit).kv = s.kv := by simp [State.raise]
@[simp] theorem State.raise_rqt (s : State) (pg bit : Nat) : (s.raise pg bit).rqt = s.rqt := by simp [State.raise]
@[simp] theorem State.raise_gate (s : State) (pg bit : Nat) : (s.raise pg bit).gate = s.gate := by simp [State.raise]
@[simp] theorem State.raise_cm (s : State) (pg bit : Nat) : (s.raise pg bit).cm = s.cm := by simp [State.raise]
@[simp] theorem State.raise_mill (s : State) (pg bit : Nat) : (s.raise pg bit).mill = s.mill := by simp [State.raise]
@[simp] theorem State.raise_codec (s : State) (pg bit : Nat) : (s.raise pg bit).codec = s.codec := by simp [State.raise]
@[simp] theorem State.raise_keg (s : State) (pg bit : Nat) : (s.raise pg bit).keg = s.keg := by simp [State.raise]
@[simp] theorem State.raise_ctxs (s : State) (pg bit : Nat) : (s.raise pg bit).ctxs = s.ctxs := by simp [State.raise]
@[simp] theorem State.raise_casks (s : State) (pg bit : Nat) : (s.raise pg bit).casks = s.casks := by simp [State.raise]
@[simp] theorem State.raise_gau (s : State) (pg bit : Nat) : (s.raise pg bit).gau = s.gau := by simp [State.raise]
@[simp] theorem State.raise_fw (s : State) (pg bit : Nat) : (s.raise pg bit).fw = s.fw := by simp [State.raise]
@[simp] theorem State.raise_bist (s : State) (pg bit : Nat) : (s.raise pg bit).bist = s.bist := by simp [State.raise]
@[simp] theorem State.raise_pwr (s : State) (pg bit : Nat) : (s.raise pg bit).pwr = s.pwr := by simp [State.raise]
@[simp] theorem State.raise_start (s : State) (pg bit : Nat) : (s.raise pg bit).start = s.start := by simp [State.raise]
@[simp] theorem State.raise_resv (s : State) (pg bit : Nat) : (s.raise pg bit).resv = s.resv := by simp [State.raise]
@[simp] theorem State.raise_drbg (s : State) (pg bit : Nat) : (s.raise pg bit).drbg = s.drbg := by simp [State.raise]
@[simp] theorem State.raise_vstore (s : State) (pg bit : Nat) : (s.raise pg bit).vstore = s.vstore := by simp [State.raise]
@[simp] theorem State.raise_vbad (s : State) (pg bit : Nat) : (s.raise pg bit).vbad = s.vbad := by simp [State.raise]
@[simp] theorem State.raise_fstore (s : State) (pg bit : Nat) : (s.raise pg bit).fstore = s.fstore := by simp [State.raise]
@[simp] theorem State.raise_fbad (s : State) (pg bit : Nat) : (s.raise pg bit).fbad = s.fbad := by simp [State.raise]

/-! Register fields -/

@[simp] theorem State.rdi_wri_self (s : State) (pg : Nat) (F : Field) (i v : Nat) : (s.wri pg F i v).rdi pg F i = v % 2 ^ F.width := by
  simp [State.rdi, State.wri, ngetD_nputD_self]

theorem State.rdi_wri_ne (s : State) {pg pg' : Nat} {F F' : Field} {i i' : Nat} (v : Nat) (h : fkey pg' F' i' ≠ fkey pg F i) :
    (s.wri pg F i v).rdi pg' F' i' = s.rdi pg' F' i' := by
  simp [State.rdi, State.wri, ngetD_nputD_ne _ _ _ _ h]

/-- A field's value depends on the register map and the variant alone. -/
theorem State.rdi_congr {s t : State} (h1 : t.regs = s.regs) (h2 : t.variant = s.variant) (pg : Nat) (F : Field) (i : Nat) :
    t.rdi pg F i = s.rdi pg F i := by
  simp [State.rdi, h1, h2]

@[simp] theorem State.rdi_count (s : State) (pg off n : Nat) (p : Nat) (F0 : Field) (i0 : Nat) : (s.count pg off n).rdi p F0 i0 = s.rdi p F0 i0 := rfl
@[simp] theorem State.rdi_respond (s : State) (fn tag st r : Nat) (p : Nat) (F0 : Field) (i0 : Nat) : (s.respond fn tag st r).rdi p F0 i0 = s.rdi p F0 i0 := rfl
@[simp] theorem State.rdi_hold (s : State) (fn tag : Nat) (o : WaitOn) (r : Nat) (p : Nat) (F0 : Field) (i0 : Nat) : (s.hold fn tag o r).rdi p F0 i0 = s.rdi p F0 i0 := rfl
@[simp] theorem State.rdi_setVat (s : State) (pg : Nat) (v : Vat) (p : Nat) (F0 : Field) (i0 : Nat) : (s.setVat pg v).rdi p F0 i0 = s.rdi p F0 i0 := rfl
@[simp] theorem State.rdi_setFloor (s : State) (pg : Nat) (f : FloorSt) (p : Nat) (F0 : Field) (i0 : Nat) : (s.setFloor pg f).rdi p F0 i0 = s.rdi p F0 i0 := rfl
@[simp] theorem State.rdi_setStep (s : State) (id : Nat) (st : Step) (p : Nat) (F0 : Field) (i0 : Nat) : (s.setStep id st).rdi p F0 i0 = s.rdi p F0 i0 := rfl
@[simp] theorem State.rdi_modStep (s : State) (id : Nat) (f : Step → Step) (p : Nat) (F0 : Field) (i0 : Nat) : (s.modStep id f).rdi p F0 i0 = s.rdi p F0 i0 := rfl
@[simp] theorem State.rdi_send (s : State) (m : SpMsg) (p : Nat) (F0 : Field) (i0 : Nat) : (s.send m).rdi p F0 i0 = s.rdi p F0 i0 := rfl

theorem State.rdi_raise (s : State) (pg bit p : Nat) (F0 : Field) (i0 : Nat) :
    (s.raise pg bit).rdi p F0 i0 = (s.wr pg F.EVT_RAW (s.rd pg F.EVT_RAW ||| 2 ^ bit)).rdi p F0 i0 :=
  State.rdi_congr (State.raise_regs s pg bit) (by simp) p F0 i0

theorem State.rdi_raise_ne (s : State) {pg bit p : Nat} {F0 : Field} {i0 : Nat} (h : fkey p F0 i0 ≠ fkey pg F.EVT_RAW 0) :
    (s.raise pg bit).rdi p F0 i0 = s.rdi p F0 i0 := by
  rw [State.rdi_raise, State.rdi_wri_ne _ _ h]

@[simp] theorem State.evtRaw_raise (s : State) (pg bit : Nat) :
    (s.raise pg bit).rdi pg F.EVT_RAW 0 = (s.rdi pg F.EVT_RAW 0 ||| 2 ^ bit) % 2 ^ 32 := by
  rw [State.rdi_raise, State.rdi_wri_self]; rfl

/-! Counters -/

@[simp] theorem State.ctr_count_self (s : State) (pg off n : Nat) : (s.count pg off n).ctr pg off = s.ctr pg off + n := by
  simp [State.ctr, State.count, nadd, ngetD_nputD_self]

theorem State.ctr_count_ne (s : State) {pg off pg' off' : Nat} (n : Nat) (h : pg' * 4096 + off' ≠ pg * 4096 + off) :
    (s.count pg off n).ctr pg' off' = s.ctr pg' off' := by
  simp [State.ctr, State.count, nadd, ngetD_nputD_ne _ _ _ _ h]

@[simp] theorem State.ctr_wri (s : State) (pg : Nat) (F : Field) (i v : Nat) (p0 o0 : Nat) : (s.wri pg F i v).ctr p0 o0 = s.ctr p0 o0 := rfl
@[simp] theorem State.ctr_respond (s : State) (fn tag st r : Nat) (p0 o0 : Nat) : (s.respond fn tag st r).ctr p0 o0 = s.ctr p0 o0 := rfl
@[simp] theorem State.ctr_hold (s : State) (fn tag : Nat) (o : WaitOn) (r : Nat) (p0 o0 : Nat) : (s.hold fn tag o r).ctr p0 o0 = s.ctr p0 o0 := rfl
@[simp] theorem State.ctr_setVat (s : State) (pg : Nat) (v : Vat) (p0 o0 : Nat) : (s.setVat pg v).ctr p0 o0 = s.ctr p0 o0 := rfl
@[simp] theorem State.ctr_setFloor (s : State) (pg : Nat) (f : FloorSt) (p0 o0 : Nat) : (s.setFloor pg f).ctr p0 o0 = s.ctr p0 o0 := rfl
@[simp] theorem State.ctr_setStep (s : State) (id : Nat) (st : Step) (p0 o0 : Nat) : (s.setStep id st).ctr p0 o0 = s.ctr p0 o0 := rfl
@[simp] theorem State.ctr_modStep (s : State) (id : Nat) (f : Step → Step) (p0 o0 : Nat) : (s.modStep id f).ctr p0 o0 = s.ctr p0 o0 := rfl
@[simp] theorem State.ctr_send (s : State) (m : SpMsg) (p0 o0 : Nat) : (s.send m).ctr p0 o0 = s.ctr p0 o0 := rfl

/-! Vats, floors and steps -/

@[simp] theorem State.vat_setVat_self (s : State) (pg : Nat) (v : Vat) : (s.setVat pg v).vat pg = v := by
  simp [State.vat, State.setVat, mget_mput_self]

theorem State.vat_setVat_ne (s : State) {pg p : Nat} (v : Vat) (h : p ≠ pg) : (s.setVat pg v).vat p = s.vat p := by
  simp [State.vat, State.setVat, mget_mput_ne _ _ h]

@[simp] theorem State.kern_setKern_self (s : State) (pg : Nat) (k : Option Kernel) : (s.setKern pg k).kern pg = k := by
  simp [State.kern, State.setKern]

theorem State.kern_setKern_ne (s : State) {pg p : Nat} (k : Option Kernel) (h : p ≠ pg) : (s.setKern pg k).kern p = s.kern p := by
  simp [State.kern, State.setKern, State.vat_setVat_ne s _ h]

@[simp] theorem State.floor_setFloor_self (s : State) (pg : Nat) (f : FloorSt) : (s.setFloor pg f).floor pg = f := by
  simp [State.floor, State.setFloor, mget_mput_self]

theorem State.floor_setFloor_ne (s : State) {pg p : Nat} (f : FloorSt) (h : p ≠ pg) : (s.setFloor pg f).floor p = s.floor p := by
  simp [State.floor, State.setFloor, mget_mput_ne _ _ h]

@[simp] theorem State.step1_setStep_self (s : State) (id : Nat) (st : Step) : (s.setStep id st).step1 id = some st := by
  simp [State.step1, State.setStep, mget_mput_self]

end Sys2Proof.Machine
end

