-- ==== Sys2Proof/Laws/Kernel.lean ====
section
/-! SUPPORT. What a kernel's registers read after each write, and what the frame of every kernel instruction and the vat-store write do. -/

namespace Sys2Proof.Machine

/-! Registers -/

theorem Kernel.xr_xw (k : Kernel) (d v r : Nat) : (k.xw d v).xr r = if r = 0 then 0 else if r = d then v % 2 ^ 32 else k.xr r := by
  unfold Kernel.xr Kernel.xw
  by_cases hr : r = 0
  · simp [hr]
  · by_cases hd : d = 0
    · simp [hd, hr]
    · by_cases h : r = d
      · subst h; simp [hr, ngetD_nputD_self]
      · simp [hr, hd, h, ngetD_nputD_ne _ _ _ _ h]

theorem Kernel.vr_vw (k : Kernel) (d i v r l : Nat) (hi : i < 64) (hl : l < 64) :
    (k.vw d i v).vr r l = if r = d ∧ l = i then v % 2 ^ 32 else k.vr r l := by
  unfold Kernel.vr Kernel.vw
  by_cases h : r = d ∧ l = i
  · obtain ⟨rfl, rfl⟩ := h
    simp [ngetD_nputD_self]
  · have : 64 * r + l ≠ 64 * d + i := by omega
    simp [h, ngetD_nputD_ne _ _ _ _ this]

@[simp] theorem Kernel.pr_pw (k : Kernel) (d v r : Nat) :
    (k.pw d v).pr r = if r % 8 = 0 then 2 ^ 64 - 1 else if r % 8 = d % 8 then v % 2 ^ 64 else k.pr r := by
  unfold Kernel.pr Kernel.pw
  by_cases hr : r % 8 = 0
  · simp [hr]
  · by_cases hd : d % 8 = 0
    · simp [hd, hr]
    · by_cases h : r % 8 = d % 8
      · simp [h, hd, ngetD_nputD_self]
      · simp [hr, hd, h, ngetD_nputD_ne _ _ _ _ h]

theorem Kernel.vset_spec (k : Kernel) (r : Nat) (p : Nat → Bool) (f : Nat → Nat) :
    (∀ r' l, l < 64 → (k.vset r p f).vr r' l = if r' = r ∧ p l = true then f l % 2 ^ 32 else k.vr r' l) ∧
      ∃ m, k.vset r p f = { k with v := m } := by
  have key : ∀ (ls : List Nat) (t : Kernel), (∀ l ∈ ls, l < 64) →
      (∀ r' l, l < 64 → (ls.foldl (fun t l => if p l then t.vw r l (f l) else t) t).vr r' l =
        if r' = r ∧ p l = true ∧ l ∈ ls then f l % 2 ^ 32 else t.vr r' l) ∧
      ∃ m, ls.foldl (fun t l => if p l then t.vw r l (f l) else t) t = { t with v := m } := by
    intro ls
    induction ls with
    | nil => exact fun t _ => ⟨by simp, t.v, rfl⟩
    | cons x ls ih =>
      intro t h
      obtain ⟨h1, m, h2⟩ := ih (if p x then t.vw r x (f x) else t) fun l hl => h l (List.mem_cons_of_mem _ hl)
      refine ⟨fun r' l hl => ?_, m, ?_⟩
      · rw [List.foldl_cons, h1 r' l hl]
        by_cases hp : p x = true
        · simp only [hp, if_true, Kernel.vr_vw t r x (f x) r' l (h x (by simp)) hl, List.mem_cons]
          by_cases hx : l = x
          · subst hx; by_cases hr : r' = r <;> simp [hr, hp]
          · simp [hx]
        · simp only [hp, List.mem_cons]
          by_cases hx : l = x
          · subst hx; simp [hp]
          · simp [hx]
      · rw [List.foldl_cons, h2]
        split <;> rfl
  obtain ⟨h1, h2⟩ := key lanes k (by simp [lanes])
  refine ⟨fun r' l hl => ?_, h2⟩
  rw [show k.vset r p f = lanes.foldl (fun t l => if p l then t.vw r l (f l) else t) k from rfl, h1 r' l hl]
  simp [lanes, hl]

/-! Going on -/

@[simp] theorem Kernel.advance_next (k : Kernel) : (k.advance.pc, k.advance.loops) = nextPc k.pc k.loops := rfl
@[simp] theorem Kernel.advance_x (k : Kernel) : k.advance.x = k.x := rfl
@[simp] theorem Kernel.advance_v (k : Kernel) : k.advance.v = k.v := rfl
@[simp] theorem Kernel.advance_p (k : Kernel) : k.advance.p = k.p := rfl
@[simp] theorem Kernel.advance_acc (k : Kernel) : k.advance.acc = k.acc := rfl
@[simp] theorem Kernel.advance_int0 (k : Kernel) : k.advance.int0 = k.int0 := rfl
@[simp] theorem Kernel.advance_int1 (k : Kernel) : k.advance.int1 = k.int1 := rfl
@[simp] theorem Kernel.advance_ctx (k : Kernel) : k.advance.ctx = k.ctx := rfl
@[simp] theorem Kernel.advance_cls (k : Kernel) : k.advance.cls = k.cls := rfl
@[simp] theorem Kernel.advance_step (k : Kernel) : k.advance.step = k.step := rfl
@[simp] theorem Kernel.advance_desc (k : Kernel) : k.advance.desc = k.desc := rfl
@[simp] theorem Kernel.advance_hold (k : Kernel) : k.advance.hold = k.hold := rfl
@[simp] theorem Kernel.advance_held (k : Kernel) : k.advance.heldPosts = k.heldPosts := rfl
@[simp] theorem Kernel.advance_tunQ (k : Kernel) : k.advance.tunQ = k.tunQ := rfl
@[simp] theorem Kernel.advance_vecQ (k : Kernel) : k.advance.vecQ = k.vecQ := rfl
@[simp] theorem Kernel.advance_lseQ (k : Kernel) : k.advance.lseQ = k.lseQ := rfl
@[simp] theorem Kernel.advance_xr (k : Kernel) (r : Nat) : k.advance.xr r = k.xr r := rfl
@[simp] theorem Kernel.advance_vr (k : Kernel) (r l : Nat) : k.advance.vr r l = k.vr r l := rfl
@[simp] theorem Kernel.advance_pr (k : Kernel) (r : Nat) : k.advance.pr r = k.pr r := rfl

/-- What queueing leaves alone: everything but the three queues. -/
theorem Kernel.push_cases (k : Kernel) (u : Unit3) (ms : List Mark) : ∃ a b c, k.push u ms = { k with tunQ := a, vecQ := b, lseQ := c } := by
  cases u <;> exact ⟨_, _, _, rfl⟩

@[simp] theorem Kernel.push_xr (k : Kernel) (u : Unit3) (ms : List Mark) (r : Nat) : (k.push u ms).xr r = k.xr r := by cases u <;> rfl
@[simp] theorem Kernel.push_vr (k : Kernel) (u : Unit3) (ms : List Mark) (r l : Nat) : (k.push u ms).vr r l = k.vr r l := by cases u <;> rfl
@[simp] theorem Kernel.push_pr (k : Kernel) (u : Unit3) (ms : List Mark) (r : Nat) : (k.push u ms).pr r = k.pr r := by cases u <;> rfl

theorem Kernel.issued_push (k : Kernel) (u : Unit3) (ms : List Mark) (h : u ≠ .front) : Issued k (k.advance.push u ms) u ms := by
  cases u with
  | front => exact absurd rfl h
  | tun => exact ⟨rfl, rfl, fun w hw => by cases w <;> first | rfl | exact absurd rfl hw, rfl, rfl, rfl, rfl, rfl⟩
  | vec => exact ⟨rfl, rfl, fun w hw => by cases w <;> first | rfl | exact absurd rfl hw, rfl, rfl, rfl, rfl, rfl⟩
  | lse => exact ⟨rfl, rfl, fun w hw => by cases w <;> first | rfl | exact absurd rfl hw, rfl, rfl, rfl, rfl, rfl⟩

/-! The frame of the instructions -/

/-- A front-end instruction that may execute. -/
theorem State.frontStep_at {s : State} {v : VatId} {op : Nat} {k : Kernel} {w : IW} {rs : IW → List Nat} {body : Kernel → IW → Kernel}
    (h : AtWord s v op k w) (hr : k.xFree (rs w) = true) :
    s.frontStep v op rs body = s.setKern (vatPg v) (some (body k w).advance) := by
  obtain ⟨h1, h2, h3⟩ := h
  simp [State.frontStep, h1, h2, h3, hr]

/-- A unit instruction that may issue. -/
theorem State.unitStep_at {s : State} {v : VatId} {op : Nat} {k : Kernel} {w : IW} {u : Unit3} {ms : IW → List Mark}
    {body : State → Nat → Kernel → IW → State} (h : AtWord s v op k w) (hr : HasRoom k u) :
    s.unitStep v op u ms body =
      body ((if u = .vec then s.count (vatPg v) 0x054 1 else if u = .lse then s.count (vatPg v) 0x058 1 else s).setKern (vatPg v)
        (some (k.advance.push u (ms w)))) (vatPg v) (k.advance.push u (ms w)) w := by
  obtain ⟨h1, h2, h3⟩ := h
  have hr' : (k.queue u).length < queueCap u := hr
  simp [State.unitStep, h1, h2, h3, hr']

/-! The vat-store write -/

/-- Addresses that name bytes map apart. -/
theorem mapAddr_inj {b : Bool} {x y p : Nat} (hx : mapAddr b x = some p) (hy : mapAddr b y = some p) : x = y := by
  unfold mapAddr at hx hy
  split at hx <;> split at hy <;> simp_all
  split at hx
  · simp_all
  · split at hy
    · simp_all
    · simp only [Option.some.injEq, bits, Nat.reducePow, Nat.div_one] at *
      have h1 : x % 64 = y % 64 := by omega
      have h2 : x / 64 % 16 = y / 64 % 16 := by omega
      have h3 : x / 1024 % 2048 = y / 1024 % 2048 := by omega
      omega

theorem State.kkey_inj {s : State} {pg : Nat} {k : Kernel} {x y key : Nat} (hx : s.kkey pg k x = some key) (hy : s.kkey pg k y = some key) :
    x = y := by
  unfold State.kkey at hx hy
  split at hx
  · next p hp =>
    split at hy
    · next q hq =>
      split at hx <;> split at hy <;> simp_all
      have : p = q := by omega
      subst this
      exact mapAddr_inj hp hq
    · simp at hy
  · simp at hx

/-- One byte of a vat-store write. -/
def State.kput1 (s t : State) (pg : Nat) (k : Kernel) (ws : List (Nat × Nat)) (w : Nat × Nat) : State :=
  match s.kkey pg k w.1 with
  | some key =>
    let t := { t with vstore := bput t.vstore key (BitVec.ofNat 8 w.2) }
    if (List.range 4).all fun j => ws.any fun u => u.1 == w.1 / 4 * 4 + j then { t with vbad := mdel t.vbad (key / 4) } else t
  | none => t

theorem State.kput_eq (s : State) (pg : Nat) (k : Kernel) (ws : List (Nat × Nat)) : s.kput pg k ws = ws.foldl (fun t w => s.kput1 t pg k ws w) s := rfl

theorem State.kput1_vstore (s t : State) (pg : Nat) (k : Kernel) (ws : List (Nat × Nat)) (w : Nat × Nat) :
    (s.kput1 t pg k ws w).vstore = match s.kkey pg k w.1 with
      | some key => bput t.vstore key (BitVec.ofNat 8 w.2)
      | none => t.vstore := by
  unfold State.kput1
  split
  · dsimp only; split <;> rfl
  · rfl

/-- A vat-store write changes two fields of the state alone. -/
theorem State.kput_fields (s : State) (pg : Nat) (k : Kernel) (ws : List (Nat × Nat)) :
    ∃ m b, s.kput pg k ws = { s with vstore := m, vbad := b } := by
  rw [State.kput_eq]
  have key : ∀ (l : List (Nat × Nat)) (t : State), ∃ m b, l.foldl (fun t w => s.kput1 t pg k ws w) t = { t with vstore := m, vbad := b } := by
    intro l
    induction l with
    | nil => exact fun t => ⟨_, _, rfl⟩
    | cons w l ih =>
      intro t
      obtain ⟨m, b, h⟩ := ih (s.kput1 t pg k ws w)
      rw [List.foldl_cons, h]
      unfold State.kput1
      split
      · dsimp only; split <;> exact ⟨_, _, rfl⟩
      · exact ⟨_, _, rfl⟩
  exact key ws s

theorem State.kput_stored (s : State) (pg : Nat) (k : Kernel) (ws : List (Nat × Nat)) (hd : (ws.map Prod.fst).Nodup) :
    Stored s (s.kput pg k ws) pg k ws := by
  have key : ∀ (l : List (Nat × Nat)) (t : State), (l.map Prod.fst).Nodup →
      (∀ a b key, (a, b) ∈ l → s.kkey pg k a = some key → bget (l.foldl (fun t w => s.kput1 t pg k ws w) t).vstore key = BitVec.ofNat 8 b) ∧
      (∀ key, (∀ a b, (a, b) ∈ l → s.kkey pg k a ≠ some key) → bget (l.foldl (fun t w => s.kput1 t pg k ws w) t).vstore key = bget t.vstore key) := by
    intro l
    induction l with
    | nil => exact fun t _ => ⟨fun a b key h => (by simp at h), fun key _ => rfl⟩
    | cons w l ih =>
      intro t hn
      simp only [List.map_cons, List.nodup_cons] at hn
      obtain ⟨h1, h2⟩ := ih (s.kput1 t pg k ws w) hn.2
      refine ⟨fun a b key hm hk => ?_, fun key hk => ?_⟩
      · rw [List.foldl_cons]
        rcases List.mem_cons.mp hm with rfl | hm
        · rw [h2 key fun a' b' h' hk' => hn.1 (by rw [State.kkey_inj hk hk']; exact List.mem_map.mpr ⟨_, h', rfl⟩), State.kput1_vstore]
          simp only [hk]
          exact bget_bput_self _ _ _
        · exact h1 a b key hm hk
      · rw [List.foldl_cons, h2 key fun a b h => hk a b (List.mem_cons_of_mem _ h), State.kput1_vstore]
        have := hk w.1 w.2 (by simp)
        split
        · next key' hk' => exact bget_bput_ne _ _ fun e => this (by rw [hk', e])
        · rfl
  obtain ⟨h1, h2⟩ := key ws s hd
  obtain ⟨m, b, h⟩ := State.kput_fields s pg k ws
  refine ⟨h1, h2, ?_⟩
  rw [h]
  exact ⟨fun _ => rfl, fun _ => rfl, fun _ => rfl⟩

/-! Events -/

theorem nbit_lor (a i j : Nat) : nbit (a ||| 2 ^ i) j = (nbit a j || decide (i = j)) := by
  have h : ∀ n j, nbit n j = n.testBit j := by
    intro n j
    rw [nbit, Nat.testBit_eq_decide_div_mod_eq]
    rfl
  rw [h, h, Nat.testBit_or, Nat.testBit_two_pow]

theorem nbit_mod (a n i : Nat) (h : i < n) : nbit (a % 2 ^ n) i = nbit a i := by
  have h' : ∀ n j, nbit n j = n.testBit j := by
    intro n j
    rw [nbit, Nat.testBit_eq_decide_div_mod_eq]
    rfl
  rw [h', h', Nat.testBit_mod_two_pow]
  simp [h]

theorem raised_raise (s : State) (pg bit : Nat) (h : bit < 32) : Raised (s.raise pg bit) pg bit := by
  unfold Raised State.rd
  rw [State.evtRaw_raise, nbit_mod _ _ _ h, nbit_lor]
  simp

/-- An event once latched stays when another is raised. -/
theorem raised_mono {s : State} {pg bit : Nat} (pg' bit' : Nat) (h : bit < 32) (hr : Raised s pg bit) : Raised (s.raise pg' bit') pg bit := by
  unfold Raised State.rd at *
  by_cases e : pg' = pg
  · subst e
    rw [State.evtRaw_raise, nbit_mod _ _ _ h, nbit_lor, hr]
    rfl
  · rw [State.rdi_raise_ne]
    · exact hr
    · simp [fkey, F.EVT_RAW]; omega

end Sys2Proof.Machine
end

