-- ==== Sys2Proof/WellFormed.lean ====
section
/-! DEFINITION. Which commands are well formed: operands that stand for something the hardware can receive. `exec` gives every term a meaning;
these checks say which terms the spec's formats admit. -/

namespace Sys2Proof

/-- A time-base frame has 24 data characters after the first (R57). -/
def frameOk (bs : List Byte) : Bool := bs.length == 24

/-- A memory access stays within one 64-byte line (R190). -/
def lineOk (va : Nat) (data : List Byte) : Bool := !data.isEmpty && decide (va % 64 + data.length ≤ 64)

/-- A dispatch arming carries at most the four per-step words (R101). -/
def armOk (a : ArmReq) : Bool := decide (a.words.length ≤ 4) && a.words.all fun w => decide (w < 2 ^ 32)

/-- A load names vats 0–7, slots 0–63, code words 0–8191 of 64 bits (R83, R96, R98). -/
def loadOk (j : LoadJob) : Bool :=
  decide (j.vats < 256) && (j.slots.all fun d => decide (d.1 < 64)) && j.code.all fun w => decide (w.1 < 8192 ∧ w.2 < 2 ^ 64)

/-- A Tap request names one of 11 requesters, one of 4 ports and a burst of 1 to 16 lines (R181). -/
def tapOk (r : TapReq) : Bool := decide (r.req < 11 ∧ r.port < 4 ∧ 1 ≤ r.beats ∧ r.beats ≤ 16)

/-- A group of a period plan lies in the 64 slots and has a class (R64, R67). -/
def groupOk (g : GroupPlan) : Bool := decide (1 ≤ g.len ∧ g.start + g.len ≤ 64 ∧ g.cls < 4)

def planOk (plan : List GroupPlan) : Bool := plan.all groupOk

/-- A reservation covers 1 to 64 slots from its start (R310). -/
def resOk (start g : Nat) : Bool := decide (1 ≤ g ∧ start + g ≤ 64)

/-- The well-formed commands. -/
def Instr.wf : Instr → Bool
  | .tbFrameReceive _ _ bytes => frameOk bytes
  | .lpddrWrite _ _ va data _ _ _ => lineOk va data
  | .dieRingTransfer _ _ _ va _ data _ => lineOk va data
  | .dispatchArm a => armOk a
  | .loadCommand _ job => loadOk job
  | .tapRequest _ r => tapOk r
  | .periodMark plan _ => planOk plan
  | .flywheelMark plan _ => planOk plan
  | .markLost plan _ => planOk plan
  | .takeoverTimeout plan => planOk plan
  | .resCreate _ _ _ start g _ _ _ _ _ _ _ => resOk start g
  | _ => true

end Sys2Proof
end

