-- ==== Sys2Proof/Tests/Slice0.lean ====
section
/-! SUPPORT. Tests: ill-formed commands are refused, every statement's hypotheses are met by a concrete state, and single commands give what the
spec's words and tables give. -/

namespace Sys2Proof.Tests

open Sys2Proof Sys2Proof.Machine

-- One test after another: each evaluation takes a large stack of its own.
set_option Elab.async false

/-! ## Well-formed and ill-formed commands -/

theorem test_wf_frame : Instr.wf (.tbFrameReceive false false (List.replicate 23 0)) = false ∧
    Instr.wf (.tbFrameReceive false false (List.replicate 24 0)) = true := by decide

theorem test_wf_line : lineOk 60 (List.replicate 5 0) = false ∧ lineOk 60 [] = false ∧ lineOk 60 (List.replicate 4 0) = true := by decide

def arm1 (ws : List Nat) : ArmReq :=
  { die := 0, floor := 0, logical := 0, entry := 0, slot := 0, cls := 0, ctx := 0, spile := 0, thresh := 1, words := ws, step := 0 }

theorem test_wf_arm : armOk (arm1 [1, 2, 3, 4, 5]) = false ∧ armOk (arm1 [2 ^ 32]) = false ∧ armOk (arm1 [2 ^ 32 - 1, 2, 3, 4]) = true := by decide

theorem test_wf_load : loadOk { image := 1, vats := 256, slots := [], code := [] } = false ∧
    loadOk { image := 1, vats := 255, slots := [(64, {})], code := [] } = false ∧ loadOk { image := 1, vats := 255, slots := [], code := [(8192, 0)] } = false ∧
    loadOk { image := 1, vats := 255, slots := [(63, {})], code := [(8191, 0)] } = true := by decide

theorem test_wf_tap : tapOk { port := 4, req := 0, beats := 1, ctx := 0, class0 := false, stuck := false } = false ∧
    tapOk { port := 3, req := 11, beats := 1, ctx := 0, class0 := false, stuck := false } = false ∧
    tapOk { port := 3, req := 10, beats := 17, ctx := 0, class0 := false, stuck := false } = false ∧
    tapOk { port := 3, req := 10, beats := 16, ctx := 0, class0 := false, stuck := false } = true := by decide

theorem test_wf_res : resOk 60 5 = false ∧ resOk 60 0 = false ∧ resOk 60 4 = true := by decide

/-! ## States of the tests -/

/-- The outcome is a next state that satisfies `p`. -/
def okNext (r : Host.Outcome State Fault Refusal) (p : State → Bool) : Bool :=
  match r with
  | .next t => p t
  | _ => false

/-- A module that is READY, context 5 LIVE in slot 0 of the window of function 1, unit A of the Cellarmaster pair in control, the link up. -/
def rdy : State :=
  let s := (((State.reset.wr pgMOD F.MOD_START_PHASE 6).setCtxField F.CTXS_ENTRY_STATE 5 ctxLIVE).wr (pgCM 0) F.CM_CLAIM 1).wr (pgCM 0) F.CM_ROLE roleActive
  let s1 := ((s.wri (pgWIN 1) F.WIN_SLOT_VALID 0 1).wri (pgWIN 1) F.WIN_SLOT_CTX 0 5).setCtxField F.CTXS_ENTRY_FUNC 5 1
  { s1.wr pgHOST F.HOST_LINK_UP 1 with start := { kind := 0 }, now := 1000000000, host := { perstHigh := true } }

def v0 : VatId := ⟨0, 0, 0⟩
def f0 : FloorId := ⟨0, 0⟩

/-- A 64-bit kernel word (R85). -/
def word (op dst sa sb pred fmt imm : Nat) : Nat :=
  op * 2 ^ 56 + dst * 2 ^ 51 + sa * 2 ^ 46 + sb * 2 ^ 41 + pred * 2 ^ 38 + fmt * 2 ^ 32 + imm

def kern0 : Kernel := { slot := 0, ctx := 5, cls := 1, step := 7, desc := { length := 16, bankMask := 1, partitioned := true }, pc := 0, x := [(2, 3), (4, 256)] }

/-- Vat 0 of floor 0 of die 0 with kernel `k` at a program of the one word `w`; bank 0 belongs to context 5, its spile group 0 to group 3 of die 0. -/
def ks (w : Nat) (k : Kernel := kern0) : State :=
  { (rdy.wri (vatPg v0) F.VAT_BANK_OWNER_VALID 0 1).wri (vatPg v0) F.VAT_BANK_OWNER_CTX 0 5 with
    vats := [(vatPg v0, { code := [(0, w)], kern := some k })]
    steps := [(7, { ctx := 5, started := true })]
    spl := { maps := [(160, { die := 0, group := 3, isLocal := true }), (161, { die := 1, group := 4, isLocal := false })] } }

/-- The word at the program counter is legal, has opcode `op`, and `p` holds. -/
def atW (s : State) (op : Nat) (p : Kernel → IW → Bool := fun _ _ => true) : Bool :=
  match s.fetch (vatPg v0) with
  | some (k, w) => w.op == op && !k.illegal w && p k w
  | none => false

/-- Each unit's queue has room. -/
def room (u : Unit3) (k : Kernel) : Bool := decide ((k.queue u).length < queueCap u)

/-- The hypothesis `Performs` as a check. -/
def performs (s : State) (fn op : Nat) (vf : Bool := vfMay op) : Bool :=
  s.ready && !s.holding fn && (fn == 0 || vf) && (!cmOp op || (s.inControl && !(s.cmRetired 0 && s.cmRetired 1)))

theorem performs_iff (s : State) (fn op : Nat) (vf : Bool) : performs s fn op vf = true ↔ Performs s fn op vf := by
  cases h : cmOp op <;> cases h0 : s.cmRetired 0 <;> simp [performs, Performs, h, h0, and_assoc]

/-- With no parity error in the vat store no word of it reads bad. -/
theorem kbad_none {s : State} (h : s.vbad = []) (pg : Nat) (k : Kernel) (a n : Nat) : s.kbad pg k a n = false := by
  simp only [State.kbad, h]
  apply List.any_eq_false.mpr
  intro i _
  cases s.kkey pg k ((a / 4 + i) * 4) <;> simp [mget]

theorem kputBad_none {s : State} (h : s.vbad = []) (pg : Nat) (k : Kernel) (ws : List (Nat × Nat)) : s.kputBad pg k ws = false := by
  simp [State.kputBad, kbad_none h]

/-! ## Kernel instructions -/

/-- Every scalar instruction meets its statement's hypotheses and gives what R86 says for 10 and 3. -/
theorem wit_ScalarAndControlResults_scalar :
    (scalarTable.all fun e => atW (ks (word e.2.1 31 2 4 0 0 0)) e.2.1 fun k w => k.xFree [w.dst, w.sa, w.sb]) = true ∧
    atW (ks (word 0x12 31 2 0 0 0 0xFFFFFFFF)) 0x12 (fun k w => k.xFree [w.dst, w.sa]) = true ∧
    atW (ks (word 0x1E 31 0 0 0 0 7)) 0x1E (fun k w => k.xFree [w.dst]) = true := by decide +kernel

/-- What a scalar instruction leaves in x5 from 256 and 3. -/
def x5 (r : Host.Outcome State Fault Refusal) (n : Nat) : Bool := okNext r fun t => (t.kern (vatPg v0)).any fun k => k.xr 5 == n && k.pc == 1

theorem test_scalar :
    x5 (exec (.add v0) (ks (word 0x10 5 4 2 0 0 0))) 259 = true ∧ x5 (exec (.sub v0) (ks (word 0x11 5 2 4 0 0 0))) (2 ^ 32 - 253) = true ∧
    x5 (exec (.addi v0) (ks (word 0x12 5 2 0 0 0 0xFFFFFFFF))) 2 = true ∧ x5 (exec (.mul v0) (ks (word 0x13 5 4 2 0 0 0))) 768 = true ∧
    x5 (exec (.and v0) (ks (word 0x14 5 4 2 0 0 0))) 0 = true ∧ x5 (exec (.or v0) (ks (word 0x15 5 4 2 0 0 0))) 259 = true ∧
    x5 (exec (.xor v0) (ks (word 0x16 5 2 2 0 0 0))) 0 = true ∧ x5 (exec (.shl v0) (ks (word 0x17 5 4 2 0 0 0))) 2048 = true ∧
    x5 (exec (.shr v0) (ks (word 0x18 5 4 2 0 0 0))) 32 = true ∧ x5 (exec (.sra v0) (ks (word 0x19 5 4 2 0 0 0))) 32 = true ∧
    x5 (exec (.min v0) (ks (word 0x1A 5 4 2 0 0 0))) 3 = true ∧ x5 (exec (.max v0) (ks (word 0x1B 5 4 2 0 0 0))) 256 = true ∧
    x5 (exec (.slt v0) (ks (word 0x1C 5 2 4 0 0 0))) 1 = true ∧ x5 (exec (.seq v0) (ks (word 0x1D 5 2 4 0 0 0))) 0 = true ∧
    x5 (exec (.li v0) (ks (word 0x1E 5 0 0 0 0 0xDEADBEEF))) 0xDEADBEEF = true := by decide +kernel

/-- SRA takes the sign with it; a write to x0 leaves it 0. -/
theorem test_sra_x0 :
    x5 (exec (.sra v0) (ks (word 0x19 5 1 2 0 0 0) { kern0 with x := [(1, 0x80000000), (2, 3)] })) 0xF0000000 = true ∧
    okNext (exec (.li v0) (ks (word 0x1E 0 0 0 0 0 9))) (fun t => (t.kern (vatPg v0)).any fun k => k.xr 0 == 0 && k.pc == 1) = true := by decide +kernel

theorem wit_ScalarAndControlResults_control :
    atW (ks (word 0 0 0 0 0 0 0)) 0x00 = true ∧
    atW (ks (word 0x02 0 0 0 0 1 15)) 0x02 (fun k w => nbit w.fmt 0 && k.xr w.sa == 0) = true ∧
    atW (ks (word 0x02 0 2 0 0 0 15)) 0x02 (fun k w => k.xFree [w.sa] && k.xr w.sa != 0) = true ∧
    atW (ks (word 0x02 0 1 0 0 0 99)) 0x02 (fun k w => k.xFree [w.sa] && !nbit w.fmt 0 && k.xr w.sa == 0) = true ∧
    atW (ks (word 0x03 0 2 0 0 0 15)) 0x03 (fun k w => k.xFree [w.sa] && decide (0 < k.loopCount w) && decide (0 < bits w.imm 0 16)) = true ∧
    atW (ks (word 0x03 0 1 0 0 0 15)) 0x03 (fun k w => k.xFree [w.sa] && k.loopCount w == 0 && k.loops.isEmpty) = true ∧
    atW (ks (word 0x04 0 0 0 0 0 7)) 0x04 (fun k _ => k.tunQ.isEmpty && k.vecQ.isEmpty && k.lseQ.isEmpty) = true ∧
    atW (ks (word 0x04 0 0 0 0 0 6) { kern0 with tunQ := [[]] }) 0x04 (fun k _ => k.vecQ.isEmpty && k.lseQ.isEmpty) = true := by decide +kernel

theorem test_branch :
    okNext (exec (.br v0) (ks (word 0x02 0 2 0 0 0 15))) (fun t => (t.kern (vatPg v0)).any fun k => k.pc == 15) = true ∧
    okNext (exec (.br v0) (ks (word 0x02 0 1 0 0 0 15))) (fun t => (t.kern (vatPg v0)).any fun k => k.pc == 1) = true := by decide +kernel

theorem test_loop :
    okNext (exec (.loop v0) (ks (word 0x03 0 2 0 0 0 15))) (fun t => (t.kern (vatPg v0)).any fun k => k.loops == [⟨1, 15, 3⟩]) = true ∧
    okNext (exec (.loop v0) (ks (word 0x03 0 1 0 0 0 14))) (fun t => (t.kern (vatPg v0)).any fun k => k.pc == 15 && k.loops == []) = true := by decide +kernel

theorem wit_SpileInstructions :
    ([0x05, 0x06, 0x07].all fun op => atW (ks (word op 0 0 2 0 0 15)) op fun k w => k.xFree [w.sa, w.sb] &&
      (ks 0).spMap k.ctx ((k.xr w.sa + bits w.imm 0 12) % 2 ^ 32) == some (63, true)) = true ∧
    atW (ks (word 0x06 0 0 2 0 0 16)) 0x06 (fun k w => k.xFree [w.sa, w.sb] &&
      (ks 0).spMap k.ctx ((k.xr w.sa + bits w.imm 0 12) % 2 ^ 32) == some (4096 + 64, false)) = true := by decide +kernel

theorem test_sppost :
    okNext (exec (.sppost v0) (ks (word 0x06 0 0 2 0 0 15))) (fun t => t.spl.flight == [⟨vatPg v0, 5, 15, 63, .post 3⟩]) = true ∧
    okNext (exec (.sppost v0) (ks (word 0x06 0 0 2 0 0 16))) (fun t => t.spl.flight == [] && (t.kern (vatPg v0)).any fun k => k.heldPosts == [(16, 3)]) = true := by decide +kernel

theorem test_spwait :
    okNext (exec (.spwait v0) (ks (word 0x05 0 0 2 0 0 0))) (fun t => (t.kern (vatPg v0)).any fun k => k.hold == some ⟨false, 0, 3⟩) = true ∧
    okNext (exec (.sptake v0) (ks (word 0x07 0 0 2 0 0 0))) (fun t => (t.kern (vatPg v0)).any fun k => k.hold == some ⟨true, 0, 3⟩) = true := by decide +kernel

/-- A floor whose vat 0 carries logical number 0, has a descriptor in slot 2 and a ready entry for it, and runs nothing. -/
def idleVat : State :=
  let d : Desc := { length := 4, entry := 8, params := [1, 2, 3, 4], startSpile := 3, startThresh := 1 }
  let e : Entry := { slot := 2, cls := 1, ctx := 5, spile := 3, thresh := 1, words := [9], step := 7, arrived := true, ready := true }
  { ks 0 with vats := [(vatPg v0, { descs := [(2, d)], entries := [(1, e)] })] }

theorem wit_KernelEnds :
    (let s := ks (word 0x01 0 0 0 0 0 0)
     atW s 0x01 (fun k _ => k.drained && (s.vat (vatPg v0)).susp.isNone && k.heldPosts.isEmpty && (s.spMap k.ctx k.desc.doneSpile).isSome) = true) ∧
    (let s := ks (word 0x08 0 0 0 0 0 77)
     atW s 0x08 (fun k _ => k.drained && (s.vat (vatPg v0)).susp.isNone && (s.step1 k.step).any fun st => st.status == 0) = true) ∧
    (let s := ks (word 0xFF 0 0 0 0 0 0)
     ((s.fetch (vatPg v0)).any fun e => e.1.illegal e.2 && (s.vat (vatPg v0)).susp.isNone && (s.step1 e.1.step).any fun st => st.status == 0) = true) ∧
    (let s := ks 0 { kern0 with since := 1000000000 - 32000000 }
     ((s.kern (vatPg v0)).any fun k => decide (wdogLimit k.desc = k.clk s) && (s.step1 k.step).any fun st => st.status == 0) = true) := by decide +kernel

theorem wit_KernelStarts :
    (let s := idleVat
     s.kern (vatPg v0) = none ∧ (s.vat (vatPg v0)).drain = [] ∧ (s.vat (vatPg v0)).clkHold = false ∧ s.logicalOf (vatPg v0) ≠ 0xF ∧
       ((s.vat (vatPg v0)).nextEntry.any fun e => (mget (s.vat (vatPg v0)).descs e.2.slot).isSome) = true ∧ s.on (vatPg v0) F.VAT_C0_RES = false) ∧
    (let e : Entry := { slot := 2, cls := 0, ctx := 5, spile := 3, thresh := 1, words := [], step := 7, arrived := true, ready := true }
     let v : Vat := { (idleVat.vat (vatPg v0)) with entries := [(1, e)] }
     let s : State := { idleVat.wr (vatPg v0) F.VAT_C0_RES 1 with vats := [(vatPg v0, v)] }
     s.on (vatPg v0) F.VAT_C0_RES = true ∧ s.logicalOf (vatPg v0) ≠ 0xF ∧ (v.nextEntry.any fun x => x.2.cls == 0) = true) := by decide +kernel

theorem test_kernel_start : okNext (exec (.kernelStart v0) idleVat) (fun t => (t.kern (vatPg v0)).any fun k =>
    k.pc == 8 && k.xr 1 == 1 && k.xr 4 == 4 && k.xr 5 == 9 && k.xr 9 == 0 && k.xr 10 == 0 && k.pr 0 == 2 ^ 64 - 1 && k.pr 7 == 0) = true := by decide +kernel

theorem test_end : okNext (exec (.endKernel v0) (ks (word 0x01 0 0 0 0 0 0))) (fun t => t.kern (vatPg v0) == none && t.spl.flight ==
    [⟨vatPg v0, 5, 0, 48, .post 1⟩]) = true := by decide +kernel

theorem wit_LaneResults : (laneTable.all fun e => atW (ks (word e.2.1 31 1 2 0 0 0)) e.2.1 fun k _ => room .vec k) = true ∧
    (laneTable.all fun e => atW (ks (word e.2.1 0 1 2 7 1 0)) e.2.1 fun k _ => room .vec k) = true := by decide +kernel

/-- Two registers of lanes: v1 counts lanes, v2 holds 2 everywhere. -/
def lanes12 : Kernel := { kern0 with v := (List.range 63).map (fun i => (64 + i + 1, i + 1)) ++ (List.range 64).map fun i => (128 + i, 2) }

theorem test_vadd_int : okNext (exec (.vadd v0 false) (ks (word 0x40 3 1 2 0 1 0) lanes12)) (fun t => (t.kern (vatPg v0)).any fun k =>
    k.vr 3 0 == 2 && k.vr 3 63 == 65 && k.vecQ == [[.v 3]]) = true := by decide +kernel

theorem wit_VectorResults :
    ([0x43, 0x50, 0x4E, 0x4F, 0x5C, 0x5D].all fun op => [0, 1, 2, 3].all fun fmt => atW (ks (word op 31 1 2 0 fmt 0)) op fun k _ => room .vec k) = true ∧
    ([1, 7].all fun d => atW (ks (word 0x4D d 1 2 0 13 0)) 0x4D fun k w => room .vec k && w.dst % 8 != 0) = true := by decide +kernel

theorem test_vrot :
    okNext (exec (.vrot v0) (ks (word 0x5D 3 1 2 0 0 0) lanes12)) (fun t => (t.kern (vatPg v0)).any fun k => k.vr 3 3 == 0 && k.vr 3 0 == 61) = true := by decide +kernel

theorem wit_ReductionAndScanResults :
    ([0x58, 0x59, 0x5A, 0x5B, 0x61, 0x5E, 0x60].all fun op => atW (ks (word op 31 1 2 0 1 0)) op fun k _ => room .vec k) = true ∧
    ([0, 64].all fun n => atW (ks (word 0x5F 30 1 2 0 0 n)) 0x5F fun k _ => room .vec k) = true ∧
    atW (ks (word 0x58 3 1 2 2 1 0)) 0x58 (fun k w => room .vec k && (List.range 64).all fun l => !k.active w l) = true := by decide +kernel

theorem test_vredsum : okNext (exec (.vredsum v0) (ks (word 0x58 5 1 0 0 1 0) lanes12)) (fun t => (t.kern (vatPg v0)).any fun k => k.xr 5 == 2016) = true := by
  decide +kernel

theorem test_vredmax : okNext (exec (.vredmax v0) (ks (word 0x59 5 1 0 0 1 0) lanes12)) (fun t => (t.kern (vatPg v0)).any fun k => k.xr 5 == 63) = true ∧
    okNext (exec (.vredmin v0) (ks (word 0x5A 5 1 0 0 1 0) lanes12)) (fun t => (t.kern (vatPg v0)).any fun k => k.xr 5 == 0) = true := by decide +kernel

theorem wit_LoadResults :
    ([(0x20, 256), (0x22, vecSpan 1), (0x24, 4)].all fun e => let s := ks (word e.1 31 0 0 0 1 0)
      s.vbad.isEmpty && atW s e.1 fun k w => room .lse k && !s.kdenied (vatPg v0) k ((k.xr w.sa + w.imm) % 2 ^ 32) e.2) = true ∧
    (let s := ks (word 0x34 0 4 0 0 3 0)
     s.vbad.isEmpty = true ∧ atW s 0x34 (fun k _ => room .tun k && !s.kdenied (vatPg v0) k 256 4096) = true) := by decide +kernel

theorem test_lds : okNext (exec (.lds v0) { ks (word 0x24 5 0 0 0 0 4) with vstore := [(vatPg v0 * 2 ^ 21 + 4, 0x78), (vatPg v0 * 2 ^ 21 + 7, 0x12)] })
    (fun t => (t.kern (vatPg v0)).any fun k => k.xr 5 == 0x12000078) = true := by decide +kernel

/-- Here and above, no word of the vat store has a parity error: `kbad_none` and `kputBad_none` give the rest of the hypotheses. -/
theorem wit_StoreResults :
    ([(0x21, 256), (0x23, vecSpan 1)].all fun e => let s := ks (word e.1 0 0 2 0 1 0)
      s.vbad.isEmpty && atW s e.1 fun k _ => room .lse k && !s.kdenied (vatPg v0) k 0 e.2) = true ∧
    (let s := ks (word 0x25 0 0 2 0 0 131068)
     s.vbad.isEmpty = true ∧ atW s 0x25 (fun k _ => room .lse k && !s.kdenied (vatPg v0) k 131068 4) = true) ∧
    (let s := ks (word 0x32 0 0 1 0 0x0B 0)
     s.vbad.isEmpty = true ∧ atW s 0x32 (fun k w => room .tun k && !s.kdenied (vatPg v0) k 0 (bytesAt 0 (accBytes k 0 0x0B (k.xr w.sb))).length) = true) := by
  decide +kernel

theorem test_sts : okNext (exec (.sts v0) (ks (word 0x25 0 0 4 0 0 8))) (fun t => t.vstore == [(vatPg v0 * 2 ^ 21 + 9, 1)]) = true := by decide +kernel

theorem wit_AtomicAndDma :
    ([0x28, 0x29].all fun op => let s := ks (word op 31 0 2 0 0 8)
      atW s op fun k _ => room .lse k && !s.kbad (vatPg v0) k 8 4 && !s.kdenied (vatPg v0) k 8 4) = true ∧
    ([0x26, 0x27].all fun op => atW (ks (word op 31 2 4 0 1 (4096 + 15))) op fun k _ => room .lse k) = true := by decide +kernel

theorem test_atadd : okNext (exec (.atadd v0) { ks (word 0x28 5 0 2 0 0 8) with vstore := [(vatPg v0 * 2 ^ 21 + 8, 254)] })
    (fun t => t.vstore == [(vatPg v0 * 2 ^ 21 + 8, 1), (vatPg v0 * 2 ^ 21 + 9, 1)] && (t.kern (vatPg v0)).any fun k => k.xr 5 == 254) = true := by decide +kernel

theorem test_dmain : okNext (exec (.dmain v0) (ks (word 0x26 1 2 4 0 1 (4096 + 15)))) (fun t => (t.kern (vatPg v0)).any fun k =>
    k.dmas == [⟨false, true, 0, 3, 256, some 15⟩]) = true := by decide +kernel

theorem wit_MatrixResults :
    ([0x31, 0x33].all fun op => atW (ks (word op 31 0 0 0 1 15)) op fun k _ => room .tun k) = true ∧
    (let s := ks (word 0x30 0 0 4 0 0 (0xB * 2 ^ 28 + 0xB * 2 ^ 24 + 2 ^ 22 + 4))
     atW s 0x30 (fun k w => room .tun k && !s.kbad (vatPg v0) k (k.xr w.sa) (operandBytes (mmaA w) (mmaK w)) &&
       !s.kbad (vatPg v0) k (k.xr w.sb) (operandBytes (mmaB w) (mmaK w)) && !s.kdenied (vatPg v0) k (k.xr w.sa) (operandBytes (mmaA w) (mmaK w)) &&
       !s.kdenied (vatPg v0) k (k.xr w.sb) (operandBytes (mmaB w) (mmaK w))) = true) := by decide +kernel

theorem test_accz : okNext (exec (.accz v0) (ks (word 0x31 0 0 0 0 2 0) { kern0 with acc := [(5, 9), (1029, 8)] })) (fun t => (t.kern (vatPg v0)).any fun k =>
    k.ar 0 0 5 == 0 && k.ar 1 0 5 == 8 && k.int0) = true := by decide +kernel

/-! ## Dispatch, loads, rotations, spiles -/

def arm0 : ArmReq := { die := 0, floor := 0, logical := 0, entry := 7, slot := 2, cls := 1, ctx := 5, spile := 3, thresh := 5, words := [], step := 7 }

theorem wit_DispatchEntries :
    (let s := idleVat
     s.inControl = true ∧ s.floorOpen (armFloor arm0) 5 = true ∧ nget s.rqt.releases (armFloor arm0) ≠ 2 ∧
       s.loadPending (armFloor arm0) 0 2 = false ∧ s.hasUnit (pgDIE 0) = true ∧ s.hasUnit (armFloor arm0) = true ∧
       s.vatOf (armFloor arm0) 0 = some (vatPg v0) ∧ ((mget (s.vat (vatPg v0)).descs 2).any fun d => d.valid && d.bankMask == 0 &&
         (s.spMap 5 (armSpile arm0 d).1).isSome && (armSpile arm0 d).2 != 0) = true ∧ mget (s.vat (vatPg v0)).entries 7 = none) ∧
    (let s := idleVat
     ((mget (s.vat (vatPg v0)).entries 1).any fun x => x.thresh != 0 && (s.spMap x.ctx x.spile).isSome) = true) ∧
    (let x : Entry := { slot := 2, cls := 0, ctx := 5, spile := 3, thresh := 1, words := [], step := 7, arrived := true }
     let s : State := { ks 0 with vats := [(vatPg v0, { entries := [(7, x)], kern := some { kern0 with desc := { preempt := true } } })] }
     ((mget (s.vat (vatPg v0)).entries 7).any fun y => y.arrived && !y.ready && y.cls == 0) = true ∧
       ((s.kern (vatPg v0)).any fun k => k.cls != 0 && k.desc.preempt) = true ∧ (s.vat (vatPg v0)).susp = none) := by decide +kernel

theorem wit_FloorLoads :
    (let s := rdy
     let job : LoadJob := { image := 1, vats := 0x81, slots := [], code := [] }
     s.inControl = true ∧ s.hasUnit (pgDIE 0) = true ∧ s.hasUnit (floorPgOf f0) = true ∧ nbit job.vats 7 = true ∧ (s.vatOf (floorPgOf f0) 7).isSome = true) ∧
    (let j : LoadJob := { image := 1, vats := 1, slots := [], code := [] }
     let s : State := { rdy with floors := [(floorPgOf f0, { loads := [j] })] }
     (s.floor (floorPgOf f0)).cur = none ∧ s.testing (.floor f0) = false ∧ (pickLoad (s.loadBlocked (floorPgOf f0)) (s.floor (floorPgOf f0)).loads 0).isSome = true) ∧
    (let j : LoadJob := { image := 1, vats := 1, slots := [], code := [] }
     let s : State := { rdy with floors := [(floorPgOf f0, { cur := some j })] }
     (s.floor (floorPgOf f0)).cur = some j ∧ (s.floor (floorPgOf f0)).arms = []) := by decide +kernel

/-- A rotation of floor 0 in phase `ph`, from vat `o` to the spare 8. -/
def rot (ph o : Nat) : State :=
  ((rdy.wr (floorPgOf f0) F.FLOOR_ROT_STATUS_PHASE ph).wr (floorPgOf f0) F.FLOOR_ROT_STATUS_OUT o).wr (floorPgOf f0) F.FLOOR_ROT_STATUS_IN 8

theorem wit_Rotations :
    (rdy.mayWriteBlock (floorPgOf f0) 0 = true ∧ nbit (0x1F : Word).toNat 4 = true) ∧
    (let s : State := { rdy with floors := [(floorPgOf f0, { reqs := [7] })] }
     s.on (floorPgOf f0) F.FLOOR_CFG_ROT_EN = true ∧ s.rd (floorPgOf f0) F.FLOOR_ROT_STATUS_OUT = 0xF ∧ s.rd (floorPgOf f0) F.FLOOR_SPARE < 9 ∧
       (s.vat (floorPgOf f0 + 1 + s.rd (floorPgOf f0) F.FLOOR_SPARE)).zeroing = false ∧
       nget s.underTest (floorPgOf f0 + 1 + s.rd (floorPgOf f0) F.FLOOR_SPARE) = 0 ∧ (s.floor (floorPgOf f0)).early = [] ∧
       (s.floor (floorPgOf f0)).reqs = [7] ∧ s.inService (floorPgOf f0 + 1 + 7) = true) ∧
    ((rot 1 0).rd (floorPgOf f0) F.FLOOR_ROT_STATUS_PHASE = 1 ∧
      ((rot 1 0).floor (floorPgOf f0)).rotClk + (rot 1 0).rd (floorPgOf f0) F.FLOOR_ROT_LIMIT_CLK ≤ (rot 1 0).now ∧
      (rot 2 0).rd (floorPgOf f0) F.FLOOR_ROT_STATUS_PHASE = 2) ∧
    (let s : State := { rot 0 0 with vats := [(vatPg v0, { zeroing := true })] }
     s.rd (floorPgOf f0) F.FLOOR_ROT_STATUS_PHASE = 0 ∧ s.rd (floorPgOf f0) F.FLOOR_ROT_STATUS_OUT = 0 ∧ (s.vat (floorPgOf f0 + 1 + 0)).zeroing = true) ∧
    (let s := rot 2 0
     (Memory.wf s.vstore && Memory.wf s.fstore && Memory.wf s.lp.mem && Memory.wf s.host.mem && AMap.sorted s.regs && AMap.sorted s.ctrs) = true ∧
       s.rd (floorPgOf f0) F.FLOOR_ROT_STATUS_OUT = 0 ∧ s.rd (floorPgOf f0) F.FLOOR_ROT_STATUS_IN = 8 ∧ (s.vat (floorPgOf f0 + 1 + 0)).atBoundary = true) := by
  decide +kernel

/-- One message on its way from port 0 to spile 63. -/
def spm (op : SpOp) (n : Nat) : State :=
  let s := ks 0
  { s with spl := { s.spl with flight := [⟨0, 5, 15, 63, op⟩], spiles := [(63, { count := n })] } }

theorem wit_SpileTraffic :
    ([SpOp.post 1, .wait 2 (.join 7), .take 2 (.join 7), .withdraw 2 (.join 7) false].all fun op => let s := spm op 2
      (takeMsg 0 s.spl.flight).any (fun e => e.1.op == op && e.2.isEmpty) && s.spMap 5 15 == some (63, true) && !s.poisoned 63) = true ∧
    ((spm (.post 1) 2).spl.waiters = [] ∧ ((spm (.wait 2 (.join 7)) 1).spile 63).count < 2 ∧ ((spm (.take 2 (.join 7)) 2).spile 63).count = 2) ∧
    (let w : Waiter := { phys := 63, ctx := 5, w := .join 7, take := true, n := 2 }
     let s : State := { spm (.withdraw 2 (.join 7) false) 0 with spl := { (spm (.withdraw 2 (.join 7) false) 0).spl with waiters := [w] } }
     (s.spl.waiters.any fun x => x.phys == 63 && x.w == .join 7) = true) ∧
    (let k : Kernel := { kern0 with hold := some ⟨true, 0, 3⟩ }
     let s : State := { ks 0 k with spl := { rels := [(.front (vatPg v0) false, 48, 3)] } }
     (s.spl.rels.find? fun r => r.1 == Who.front (vatPg v0) false) = some (.front (vatPg v0) false, 48, 3) ∧ s.kern (vatPg v0) = some k ∧
       (k.cls == 0) = false ∧ k.hold = some ⟨true, 0, 3⟩) ∧
    (let s : State := { idleVat with spl := { rels := [(.entry (vatPg v0) 1, 48, 3)] } }
     (s.spl.rels.find? fun r => r.1 == Who.entry (vatPg v0) 1) = some (.entry (vatPg v0) 1, 48, 3) ∧ (mget (s.vat (vatPg v0)).entries 1).isSome = true) := by
  decide +kernel

theorem test_post : okNext (exec (.spilePost 0 false) (spm (.post 1) (2 ^ 32 - 2))) (fun t => t.spile 63 == ⟨2 ^ 32 - 1, 0, false⟩) = true := by decide +kernel

theorem test_take : okNext (exec (.spileTake 0 false) (spm (.take 2 (.join 7)) 2)) (fun t => t.spile 63 == {} && t.spl.rels == [(.join 7, 63, 2)]) = true ∧
    okNext (exec (.spileTake 0 false) (spm (.take 3 (.join 7)) 2)) (fun t => t.spile 63 == ⟨2, 0, false⟩ && t.spl.waiters.length == 1) = true := by decide +kernel

theorem wit_SpilePageAndMaps :
    (let s := ks 0
     s.slotCtx 1 0 = some 5 ∧ s.spMap 5 (bits (0x001F0002 : Word).toNat 16 9) = some (4096 + 79, false) ∧ s.poisoned (4096 + 79) = false ∧ s.spl.waiters = []) ∧
    (let s := (ks 0).wr (pgSPL 5) F.SPL_SEL 15
     s.slotCtx 1 0 = some 5 ∧ s.spMap 5 (s.rd (pgSPL 5) F.SPL_SEL) = some (63, true)) ∧
    (let s := rdy
     performs s 0 0x18 = true ∧ performs s 0 0x19 = true ∧ s.hasUnit (pgDIE 3) = true ∧ s.ctxOpen 5 = true ∧
       mget s.spl.maps (5 * 32 + 31) = none ∧ (s.freeGroup 3).isSome = true) ∧
    (let s := ks 0
     s.spl.waiters = [] ∧ s.spl.flight = [] ∧ mget s.spl.maps (5 * 32 + 1) = some { die := 1, group := 4, isLocal := false } ∧ s.groupNamed 5 1 = false) := by
  decide +kernel

/-! ## The block, registers, snaps -/

theorem wit_EveryStepGoesOn : State.reset.pending = [] ∧ State.reset.tb.st = .idle := by decide +kernel

theorem test_idle_clock : okNext (step State.reset) (fun t => t.now == 1 && t.pending == []) = true := by decide +kernel

/-- START_PHASE 1, then READY: the module runs a command from the front of its queue. -/
theorem test_step_front : okNext (step { rdy with pending := [.perstDeassert, .thermAlertClear] }) (fun t => t.pending == [.thermAlertClear]) = true := by
  decide +kernel

/-- The premises of the invariant: a state in canonical form, and a step from it. -/
theorem wit_StepKeepsCanonical : (Memory.wf State.reset.vstore && Memory.wf State.reset.fstore && Memory.wf State.reset.lp.mem &&
    Memory.wf State.reset.host.mem && AMap.sorted State.reset.regs && AMap.sorted State.reset.ctrs) = true ∧
    okNext (step State.reset) (fun t => t.now == 1) = true := by decide +kernel

def acc (off : Nat) (fn : Fin 32 := 0) : RegAcc := { fn := fn, bar2 := false, off := off }

theorem wit_RegisterAccesses_writes :
    (let s := rdy
     let off := F.PWR_C0_STANDING_W.off
     s.target (acc (pgPOWER * 4096 + off)) = .reg pgPOWER .power off false ∧ wellShaped (acc (pgPOWER * 4096 + off)) 15 = true ∧ named pgPOWER .power off = true ∧
       fieldsAt .power off = [(F.PWR_C0_STANDING_W, 0)] ∧ s.mayWriteBlock pgPOWER 0 = true ∧ F.PWR_C0_STANDING_W.acc = .rw ∧
       s.fieldRefuses pgPOWER .power F.PWR_C0_STANDING_W 0 640 640 = none) ∧
    (let s := rdy
     let off := F.PWR_VIN_MV.off
     s.target (acc (pgPOWER * 4096 + off)) = .reg pgPOWER .power off false ∧ named pgPOWER .power off = true ∧ fieldsAt .power off = [(F.PWR_VIN_MV, 0)] ∧
       F.PWR_VIN_MV.acc = .ro ∧ s.mayWriteBlock pgPOWER 1 = false ∧ wellShaped (acc (pgPOWER * 4096 + off + 1)) 15 = false) := by decide +kernel

theorem test_register_write : okNext (exec (.registerWrite (acc (pgPOWER * 4096 + F.PWR_C0_STANDING_W.off)) 15 640) rdy)
    (fun t => t.rd pgPOWER F.PWR_C0_STANDING_W == 640) = true := by decide +kernel

theorem test_access_error : okNext (exec (.registerWrite (acc (pgPOWER * 4096 + F.PWR_C0_STANDING_W.off) 3) 15 640) rdy)
    (fun t => t.rd pgPOWER F.PWR_C0_STANDING_W == 0 && t.rd pgMOD F.MOD_ACC_ERR_VALID == 1 && t.rd pgMOD F.MOD_ACC_ERR_FUNC == 3) = true := by decide +kernel

theorem wit_RegisterAccesses_unassigned : rdy.target (acc (0xFFFF * 4096 + 0x100)) = .unassigned := by decide +kernel

theorem wit_RegisterAccesses_absent : rdy.target { fn := 1, bar2 := true, off := 7 * 4096 + 0x100 } = .absent := by decide +kernel

theorem wit_RegisterAccesses_counters :
    (let s := rdy
     let a : RegAcc := { fn := 1, bar2 := true, off := 5 * 4096 + 0x100 }
     s.target a = .reg (pgCNT 5) .cnt 0x100 false ∧ s.counter64 (pgCNT 5) .cnt 0x100 = some 0) ∧
    (let s : State := { rdy with shadow := [(pgCNT 5, (0x100, 7))] }
     let a : RegAcc := { fn := 1, bar2 := true, off := 5 * 4096 + 0x104 }
     s.target a = .reg (pgCNT 5) .cnt 0x104 false ∧ s.counter64 (pgCNT 5) .cnt 0x104 = none ∧ s.counter64 (pgCNT 5) .cnt 0x100 = some 0 ∧
       mget s.shadow (pgCNT 5) = some (0x100, 7) ∧ mget rdy.shadow (pgCNT 5) = none) := by decide +kernel

def page (pg : Nat) (fn : Fin 32 := 0) : PageAcc := { fn := fn, bar2 := false, page := pg }

theorem wit_HeaderActions :
    ([0x024, 0x028, 0x030, 0x080, 0x0F0].all fun o => match rdy.target (pageReg (page pgPOWER) o) with
      | .reg p _ _ pt => p == pgPOWER && !pt && mayWriteHeader p 0 pt && !mayWriteHeader p 1 pt
      | _ => false) = true ∧
    rdy.ownerRefused pgPOWER (5 * 65536 + 2 ^ 26 + 59 * 1024 + 1) = false ∧ (rdy.wr pgPOWER F.LOCK_LOCKED 1).locked pgPOWER = true ∧
    60 ≤ (60 * 1024 : Nat) / 2 ^ 10 % 64 ∧ rdy.mayWriteBlock pgEVT 0 = true ∧ rdy.rootSum &&& rdy.rd pgEVT F.EVT_ROOT_EN = 0 ∧
    (let s : State := { ((rdy.wr pgPOWER F.EVT_EN 1).wr pgPOWER F.EVT_RAW 1).wr pgEVT F.EVT_ROOT_EN 0xFFFFFFFF with host := { rdy.host with msixOpen := [(1, 1)] } }
     s.rootSum &&& s.rd pgEVT F.EVT_ROOT_EN ≠ 0 ∧ nget s.host.msixOpen 1 ≠ 0 ∧ s.linkUp = true) := by decide +kernel

theorem wit_SnapMarks :
    (let s := rdy.wr pgSNAP F.SNAP_ARMED 0
     s.mayWriteBlock pgSNAP 0 = true ∧ s.on pgSNAP F.SNAP_ARMED = false ∧ ahead s.snapTarget s.tick = 0) ∧
    (let s : State := { rdy with tb := { tickFx := (2 ^ 48 - 1) * 65536 } }
     ahead s.snapTarget s.tick = 1) ∧
    (let s : State := { (rdy.wr pgSNAP F.SNAP_ARMED 1) with tb := { tickFx := 0 }, snap := { armT := 2 ^ 48 - 1, busy := true } }
     s.snapDue = true ∧ s.snap.busy = true ∧ s.snap.unacked = 0 ∧ s.snap.fireClk + 320 ≤ s.now) := by decide +kernel

/-! ## The time base, marks, edges -/

/-- The 24 characters after the first of a frame: version 1, tick 3, source 9, and their CRC. -/
def frame (v : Nat) : List Byte :=
  let body : List Byte := [BitVec.ofNat 8 v, 0, 0, 0, 0, 0, 3, 0, 0, 0, 0, 0, 0, 9, 0, 0, 0, 0, 0, 0, 0, 0]
  body ++ [BitVec.ofNat 8 (crc16 body / 256), BitVec.ofNat 8 (crc16 body)]

def tbf (tick : Nat) : TbFrame := { tick := tick, pidx := 0, pmark := false, stall := false, degraded := false, src := 9, markOfs := 0, clk := 0 }

/-- A module whose time base is enabled with both lines in use, in the state `st`. -/
def tbs (st : TbState) (tb : TimeBase := {}) : State :=
  { ((rdy.wr pgTBASE F.TBASE_CFG_ENABLE 1).wr pgTBASE F.TBASE_CFG_LINE_A_EN 1).wr pgTBASE F.TBASE_CFG_LINE_B_EN 1 with tb := { tb with st := st } }

theorem wit_TimeBaseLock_frames :
    ((tbs .acquiring).wr pgTBASE F.TBASE_CFG_SRC_CHECK 0).frameVerdict false false (frame 1) = .valid ∧
    (tbs .acquiring).frameVerdict true true (frame 1) = .crc ∧
    ((tbs .acquiring).wr pgTBASE F.TBASE_CFG_SRC_CHECK 0).frameVerdict false false (frame 2) = .version ∧
    ((tbs .acquiring).wr pgTBASE F.TBASE_CFG_SRC_CHECK 1).frameVerdict false false (frame 1) = .source := by decide +kernel

theorem wit_TimeBaseLock_back :
    (let s := (tbs .acquiring).wr pgTBASE F.TBASE_CFG_SRC_CHECK 0
     ({ s with tb := { s.tb with lastA := some 4 } } : State).frameVerdict false false (frame 1) = .back) := by decide +kernel

theorem wit_TimeBaseLock_lines :
    (tbs .acquiring).on pgTBASE F.TBASE_CFG_LINE_B_EN = true ∧ nbit ((tbs .acquiring).rd pgMOD F.MOD_FIXED_SVC) 4 = true ∧
    nbit ((tbs .acquiring).rd pgMOD F.MOD_FIXED_SVC) 5 = true ∧ (rdy.wr pgTBASE F.TBASE_CFG_LINE_A_EN 0).on pgTBASE F.TBASE_CFG_LINE_A_EN = false := by decide +kernel

theorem wit_TimeBaseLock_windows :
    ((tbs .locked).tb.winA = none ∧ (tbs .locked).tb.winB = none) ∧
    ([0, 1, 2 ^ 47].all fun n => let s := tbs .locked { winA := some (tbf n), loaded := true }
      s.usedFrame == some (tbf n) && s.tb.loaded && decide (n < 2 ^ 48) && ahead n s.tick == n) = true := by decide +kernel

theorem wit_TimeBaseLock_states :
    (tbs .locked { lastUsed := some { tbf 0 with stall := true } }).stalledNow = true ∧
    (tbs .stalled).tb.stallClk + 320 * (tbs .stalled).rd pgTBASE F.TBASE_STALL_GUARD_US ≤ (tbs .stalled).now ∧
    (tbs .stallFly { missRun := 16 }).tb.missRun = 16 ∧ ((tbs .holdover).wr pgTBASE F.TBASE_MISS_PERIODS 3).flyDue = true ∧
    ((tbs .locked { subMarks := 3, loaded := true }).wr pgTBASE F.TBASE_CFG_PERIOD_MODE 1).markLostDue = true := by decide +kernel

theorem test_tb_frame : okNext (exec (.tbFrameReceive false false (frame 1)) ((tbs .acquiring).wr pgTBASE F.TBASE_CFG_SRC_CHECK 0)) (fun t => t.tb.lastA == some 3 &&
    t.rd pgTBASE F.TBASE_SRC_SEEN == 9 && t.ctr pgTBASE 0x04C == 1) = true := by decide +kernel

theorem wit_TimeBaseCommands :
    (rdy.mayWriteBlock pgTBASE 0 = true ∧ rdy.locked pgTBASE = false ∧ rdy.on pgTBASE F.TBASE_CFG_ENABLE = false) ∧
    ((tbs .locked).on pgTBASE F.TBASE_CFG_ENABLE = true ∧ (tbs .locked).on pgSNAP F.SNAP_ARMED = false ∧
      ((tbs .locked).wr pgSNAP F.SNAP_ARMED 1).on pgSNAP F.SNAP_ARMED = true ∧ (rdy.wr pgTBASE F.LOCK_LOCKED 1).locked pgTBASE = true) ∧
    (rdy.activeCopy = 0 ∧ rdy.on pgTBASE F.TBASE_SLOT_TBL_SEL_PEND = false ∧ (rdy.wr pgTBASE F.TBASE_SLOT_TBL_SEL_PEND 1).on pgTBASE
      F.TBASE_SLOT_TBL_SEL_PEND = true) ∧
    ((rdy.wri pgTBASE F.SLOT_TBL 64 (2 ^ 27)).switchOk 1 = true ∧ (rdy.wri pgTBASE F.SLOT_TBL 64 0).switchOk 1 = false) := by decide +kernel

/-- A module in MARK mode with a mark signalled at clock `clk`, the last one at clock 0. -/
def marked (st : TbState) (clk : Nat) (c0 : Option Nat) : State :=
  (tbs st { loaded := true, signalled := some (0, clk, 0), markClk := c0 }).wr pgTBASE F.TBASE_CFG_PERIOD_MODE 1

theorem wit_MarksAndEdges :
    (let s := marked .acquiring 5 none
     s.dueMark = some (0, 5, 0) ∧ s.snapDue = false ∧ s.tb.markClk = none) ∧
    ([79999, 80000, 6400000, 6400001].all fun c => let s := marked .locked c (some 0)
      s.dueMark == some (0, c, 0) && !s.snapDue) = true ∧
    (let s := (tbs .holdover).wr pgTBASE F.TBASE_MISS_PERIODS 2
     s.flyDue = true ∧ s.rd pgTBASE F.TBASE_MISS_PERIODS < 3 ∧ s.snapDue = false) ∧
    ((tbs .stallFly).tb.flyNext ≤ (tbs .stallFly).now) ∧
    (let s := (tbs .locked { subMarks := 2, loaded := true }).wr pgTBASE F.TBASE_CFG_PERIOD_MODE 1
     s.markLostDue = true) ∧
    ([0, 62].all fun k => let s := (tbs .locked).wr pgTBASE F.TBASE_SLOT k
      s.rd pgTBASE F.TBASE_SLOT + 1 == k + 1 && s.edgeDue (k + 1)) = true ∧
    (let s := tbs .stallFly { flySlot := 62 }
     s.tb.flySlot + 1 ≤ 63 ∧ s.tb.flyMark + 63 * s.rd pgTBASE F.TBASE_SLOT_CLK ≤ s.now) := by decide +kernel

/-! ## Steps, DMAs, banks, segments, the Tap -/

theorem wit_StepsAndFloorDmas :
    (((ks 0).kern (vatPg v0)).any fun k => ((ks 0).step1 k.step).any fun st => st.detections == 0) = true ∧
    (let s : State := { rdy with steps := [(7, { ctx := 5, started := true, draining := true, detections := 1 })] }
     (s.step1 7).any (fun st => s.mayRerun 7 st && st.job.isNone && st.arms.isEmpty && st.takes.isEmpty) = true) ∧
    (let s : State := { rdy with steps := [(7, { ctx := 5, started := true })], spl := { rels := [(.join 7, 48, 0)] } }
     (s.step1 7).any (fun st => st.job.isNone && st.started && !st.draining) = true ∧ (s.spl.rels.any fun r => r.1 == Who.join 7) = true) ∧
    ([(false, none), (false, some 3), (true, none)].all fun e =>
      let d : Dma := ⟨e.1, true, 0, 64, 8, e.2⟩
      let s := ((ks 0 { kern0 with dmas := [d] }).wri (floorPgOf f0) F.FLOOR_SEG_OWNER_VALID 0 1).wri (floorPgOf f0) F.FLOOR_SEG_OWNER_CTX 0 5
      floorOfVat (vatPg v0) == floorPgOf f0 && ((s.kern (vatPg v0)).any fun k => k.dmas[0]? == some d) && s.fbad.isEmpty && s.vbad.isEmpty &&
        (List.range 8).all fun j => s.segAnswer (floorPgOf f0) (s.logicalOf (vatPg v0)) 5 (64 + j) == 0) = true ∧
    (ks 0).spMap 5 3 = some (51, true) := by decide +kernel

theorem wit_BanksAndSegments :
    (let s := ks 0
     performs s 0 0x14 = true ∧ s.cmdVat 0 0 0 = some (vatPg v0) ∧ s.bankAssignRefused (vatPg v0) 5 (bitsSet 0x8000 16) = none ∧
       s.bankClearing (vatPg v0) 15 = false ∧ s.bankOwner (vatPg v0) 15 = none ∧ s.bankBusy (vatPg v0) 15 = false) ∧
    (let s : State := { (ks 0).setCtxField F.CTXS_ENTRY_STATE 6 ctxLIVE with vats := [] }
     s.bankAssignRefused (vatPg v0) 6 (bitsSet 1 16) = none ∧ s.bankOwner (vatPg v0) 0 = some 5 ∧ s.bankBusy (vatPg v0) 0 = false) ∧
    (let s : State := { ks 0 with vats := [] }
     performs s 0 0x15 = true ∧ s.bankReleaseRefused (vatPg v0) 5 0 0 0 (bitsSet 1 16) = none ∧ s.bankClearing (vatPg v0) 0 = false ∧
       s.bankBusy (vatPg v0) 0 = false) ∧
    (let s : State := { rdy with vats := [(vatPg v0, { fills := [(15, some 1023, true)] })],
                                 host := { rdy.host with waits := [{ fn := 0, tag := 9, on := .banks (vatPg v0) 0x8000 }] } }
     (s.vat (vatPg v0)).fills = [(15, some 1023, true)]) ∧
    (let s := (rdy.wri (floorPgOf f0) F.FLOOR_SEG_OWNER_VALID 0 1).wri (floorPgOf f0) F.FLOOR_SEG_OWNER_CTX 0 5
     performs s 0 0x16 = true ∧ s.cmdFloor 0 0 = some (floorPgOf f0) ∧ s.segAssignRefused (floorPgOf f0) 5 (bitsSet 0x80000000 32) = none ∧
       s.segClearing (floorPgOf f0) 31 = false ∧ s.segMarch (floorPgOf f0) 31 = false ∧ s.segOwner (floorPgOf f0) 31 = none ∧
       s.segBusy (floorPgOf f0) 31 = false ∧ s.caskSeg 0 0 31 = false ∧ performs s 0 0x17 = true ∧
       s.segReleaseRefused (floorPgOf f0) 5 0 0 (bitsSet 1 32) = none ∧ s.segBusy (floorPgOf f0) 0 = false ∧ s.caskSeg 0 0 0 = false) ∧
    (let s : State := { rdy with floors := [(floorPgOf f0, { fills := [(31, none, false)], dets := [(31, 1000000000), (31, 999999999)] })] }
     (s.floor (floorPgOf f0)).fills = [(31, none, false)] ∧ s.rdi (floorPgOf f0) F.FLOOR_SEG_PHYS 31 = 31 ∧ s.rd (floorPgOf f0) F.FLOOR_SEG_SPARES = 2 ∧
       ((s.floor (floorPgOf f0)).dets.filter fun d => d.1 == 31 && decide (s.now < d.2 + clkDay)).length = 2) := by decide +kernel

theorem test_bank_clear_done : okNext (exec (.bankClearDone v0 15) { rdy with vats := [(vatPg v0, { fills := [(15, some 1023, true)] })] })
    (fun t => t.bankOwner (vatPg v0) 15 == some 1023 && t.rdi (vatPg v0) F.VAT_BANK_OWNER_PINNED 15 == 1) = true := by decide +kernel

def tap0 : TapReq := { port := 3, req := 10, beats := 16, ctx := 5, class0 := true, stuck := true }

theorem wit_TapArbiter :
    (rdy.floorOpen (floorPgOf f0) 5 = true ∧ nbit (rdy.rd (floorPgOf f0) F.FLOOR_TAP_FENCED) 10 = false ∧ (rdy.floor (floorPgOf f0)).tapQ = [] ∧
      portFree (rdy.floor (floorPgOf f0)) 3 = some 0) ∧
    (let s : State := { rdy with floors := [(floorPgOf f0, { bursts := [(3, (tap0, 0))], tapQ := [tap0] })] }
     portFree (s.floor (floorPgOf f0)) 3 = none ∧ ((s.floor (floorPgOf f0)).tapQ.filter fun x => x.req == 10).length < 2 ∧
       0 + s.rd (floorPgOf f0) F.FLOOR_TAP_WDOG ≤ s.now ∧ mget (s.floor (floorPgOf f0)).bursts 3 = some (tap0, 0)) ∧
    (let s : State := { rdy with floors := [(floorPgOf f0, { bursts := [(3, (tap0, 0))], tapQ := [tap0, tap0] })] }
     2 ≤ ((s.floor (floorPgOf f0)).tapQ.filter fun x => x.req == 10).length) ∧
    rdy.mayWriteBlock (floorPgOf f0) 0 = true := by decide +kernel

/-! ## Main memory, attention, pages -/

def okAt (r : Except Nat Nat) (pa : Nat) : Bool :=
  match r with
  | .ok p => p == pa
  | .error _ => false

def errAt (r : Except Nat Nat) (code : Nat) : Bool :=
  match r with
  | .ok _ => false
  | .error c => c == code

/-- Frame 8 of die 0 belongs to context 5 and is mapped at 64 KiB. -/
def mem1 (kind : Nat := 0) (x : Nat := 8) : State :=
  { rdy with lp := { keys := [(5, 1)], frames := [(8, { otype := 0, owner := 5, kind := kind })], tag := [(512, 2)],
                     leaves := [(smallKey 5 65536, { pa := x, w := true, h := true })] } }

theorem wit_LineAccesses :
    ((mem1).hasUnit (pgDIE 0) = true ∧ (mem1).isLocalVa 65536 = true ∧ okAt ((mem1).xlate 5 65536 false false) 32768 = true ∧
      (mem1).frame 8 = some { otype := 0, owner := 5, kind := 0 } ∧ (mem1).keyIn 5 = some 1 ∧ nget (mem1).lp.bad 512 = 0) ∧
    ([(1, 63), (64, 0)].all fun e => okAt ((mem1).xlate 5 (65536 + e.2) true false (max 1 e.1)) (32768 + e.2) &&
      decide ((65536 + e.2) % 64 + e.1 ≤ 64)) = true ∧
    errAt ((mem1).xlate 5 0 false false) 1 = true ∧ errAt ((mem1).xlate 5 0 true false 1) 1 = true ∧
    (let s : State := { mem1 with steps := [(7, { ctx := 5, started := true })] }
     (s.step1 7).any (fun st => st.status == 0) = true) := by decide +kernel

theorem test_line_write : okNext (exec (.lpddrWrite 0 5 65599 [7] false none {}) (mem1)) (fun t => bget t.lp.mem 32831 == 7) = true := by decide +kernel

theorem test_line_read_fault : okNext (exec (.lpddrRead 0 5 0 none {}) (mem1)) (fun t => t.lp.lineHow == 3 && t.ctr (pgXLT 0) 0x05C == 1) = true := by
  decide +kernel

def run2 : FrameRun := { die := 0, first := 100, count := 2 }

theorem wit_FramesAndMappings_frames :
    (let s := rdy
     performs s 0 0x10 = true ∧ s.dieThere 0 = true ∧ s.ownerOpen false 5 = true ∧ ((runFrames run2).all fun f => s.frameFree f) = true ∧
       s.runClearing run2 = false ∧ ((runFrames run2).all s.frameZero) = true) ∧
    (let s : State := { rdy with lp := { tag := [(101 * 64 + 63, 2)] } }
     ((runFrames run2).all fun f => s.frameFree f) = true ∧ s.frameZero 101 = false) ∧
    (let s : State := { rdy with lp := { frames := [(100, { otype := 0, owner := 5, kind := 0 }), (101, { otype := 0, owner := 5, kind := 0 })] } }
     performs s 0 0x11 = true ∧ s.runClearing run2 = false ∧
       ((runFrames run2).all fun f => (s.frame f).any fun x => x.otype == 0 && x.owner == 5 && x.maps == 0 && !x.pinned) = true) ∧
    ([none, some 5].all fun o => let s : State := { rdy with lp := { clears := [{ run := run2, owner := o, kind := 0 }] } }
      s.lp.clears == [{ run := run2, owner := o, kind := 0 }] && inRun run2 100 && inRun run2 101 && !inRun run2 102) = true := by decide +kernel

theorem wit_FramesAndMappings_leaves :
    (let s := (mem1).wr (pgXLT 0) F.XLT_SYS_FREE 4
     performs s 0 0x12 = true ∧ s.dieThere (32768 / 2 ^ 37) = true ∧ s.ctxOpen 5 = true ∧ s.ownsFrame 5 8 = true ∧ s.ctxField F.CTXS_ENTRY_SEALED 5 = 0 ∧
       s.granule 5 131072 = none ∧ 2 * (s.tablesNeeded 5 131072 false).length ≤ s.rd (pgXLT 0) F.XLT_SYS_FREE ∧
       mget s.lp.leaves (smallKey 5 131072) = none ∧ performs s 0 0x13 = true ∧ mget s.lp.leaves (bigKey 5 65536) = none ∧
       mget s.lp.leaves (smallKey 5 65536) = some { pa := 8, w := true, h := true } ∧ (s.frame 8).isSome = true) := by decide +kernel

theorem test_xmap : okNext (exec (.xmap 0 3 5 131072 32768 false true false) ((mem1).wr (pgXLT 0) F.XLT_SYS_FREE 8)) (fun t => okAt (t.xlate 5 131072 false false) 32768 &&
    errAt (t.xlate 5 131072 false true) 3) = true := by decide +kernel

theorem wit_PatrolAndRetirement_patrol :
    (let s := rdy.wr (pgLPG 0 0) F.LPG_PATROL_EN 1
     s.ready = true ∧ s.hasUnit (pgDIE 0) = true ∧ s.on (pgLPG 0 0) F.LPG_PATROL_EN = true ∧ s.chanRetired 0 0 = false ∧ nget s.lp.patPos 0 < linesPerChannel ∧
       nget s.lp.bad 0 = 0 ∧ s.frame 0 = none) ∧
    (let s : State := { rdy with lp := { patPos := (List.range 8).map fun c => (c, linesPerChannel) } }
     (List.range 8).all fun c => !s.chanRetired 0 c && nget s.lp.patPos c == linesPerChannel) = true := by decide +kernel

theorem wit_PatrolAndRetirement_retire :
    ([(0, 0), (3, 31)].all fun e => let s : State := { rdy with lp := { chDue := [32 * e.1 + e.2] } }
      !s.chanRetired e.1 e.2 && !s.isRetired (pgDIE e.1) && decide ((s.retList e.1).length < 7)) = true ∧
    ({ rdy with lp := { passes := [127] } } : State).lp.passes = [127] ∧
    (let s : State := { mem1 2 with casks := [(0, { ctx := 5, frames := [(0, 8, 1)] })] }
     let s1 : State := { s with lp := { s.lp with recov := [(8, { kind := 2, owners := [5], va := 65536, steps := [7] })] }, steps := [(7, { ctx := 5 })] }
     mget s1.lp.recov 8 = some { kind := 2, owners := [5], va := 65536, steps := [7] } ∧ (s1.frame 8).isSome = true ∧ s1.caskFrame 8 = true ∧
       (s1.step1 7).any (fun st => st.status == 0) = true) := by decide +kernel

/-- A layer descriptor: head dimension 32, one key head, FP8 formats, one vat's buffer of 64 bytes a token. -/
def layerText : List Nat := [32, 0, 1, 1, 0x22, 0, 1, 0] ++ List.replicate 24 0 ++ [0, 0, 0, 0, 0, 16, 0, 0, 1] ++ List.replicate 23 0

def attS : State :=
  { ks 0 with
    lp := { (mem1).lp with mem := bputList [] 32768 (layerText.map (BitVec.ofNat 8)), tag := [(512, 2)] }
    steps := [(7, { ctx := 5, started := true, latched := true })] }

theorem wit_AttentionCommands_layer :
    (let s0 := (attS.latchStep 7 0).count (pgATT 0) 0x04C 1
     let r := s0.hubRead 5 65536 1 {} (some 7)
     (attS.kern (vatPg v0)).any (fun k => k.step == 7) = true ∧ (attS.step1 7).any (fun st => st.started && st.status == 0 && st.job.isNone) = true ∧
       r.2 = some layerText ∧ r.1.layerBad 0 (layerOf layerText) = false ∧ (layerOf layerText).dieSet = 1 ∧ r.1.hasUnit (pgDIE 0) = true ∧
       ((attS.step1 7).any fun st => decide (stepKeyBytes (layerOf layerText) st ≤ (layerOf layerText).bufBytes) && st.members.isEmpty) = true ∧
       (r.1.step1 7).any (fun st => st.status == 0) = true) ∧
    (let st : Step := { members := [{ idx := 0 }] }
     let d := layerOf layerText
     st.members[0]? = some { idx := 0 } ∧ d.emit = false) := by decide +kernel

theorem wit_AttentionCommands_rest :
    (let s : State := { rdy with rqt := { entries := [(9, { state := rqDECODE, ctx := 5, attOpt := 8 })] } }
     (s.rq 9).state = rqDECODE ∧ (s.rq 9).draftClk = none ∧ (s.rq 9).draftDone = false ∧ (s.rq 9).step = none ∧ bits (s.rq 9).attOpt 2 2 = 2) ∧
    (let h : Head := { ctx := 5, die := 0, frame := 0, geom := {}, log := [1, 2, 3, 9, 1, 2, 3] }
     let s : State := { rdy with kv := { heads := [(1, h)] }, rqt := { entries := [(9, { state := rqDECODE, ctx := 5, head := some 1, draftClk := some 4 })] } }
     (s.rq 9).draftClk = some 4 ∧ ((s.rq 9).head.bind s.head) = some h) ∧
    draftCands [1, 2, 3, 9, 1, 2, 3] 64 4 1 = [(9, 0, 0), (1, 1, 0), (2, 2, 0), (3, 3, 0)] ∧
    (let s := attS
     nbit 3 0 = true ∧ nextDie 3 0 = 1 ∧ nextDie 3 1 = 0 ∧ s.hasUnit (pgDIE 1) = true ∧ s.hasUnit (pgDIE 0) = true ∧
       okAt (s.xlate 5 (65536 + 63) true false 1) (32768 + 63) = true ∧ okAt (s.xlate 5 65536 true false 64) 32768 = true ∧
       okAt (s.xlate 5 65536 false false) 32768 = true) := by
  decide +kernel

def hd1 : Head :=
  { ctx := 5, die := 0, frame := 0, geom := { units := 1, pagesMax := 4, pools := [1] }, edited := true, length := 128, stagedLen := 128,
    staging := [(pkey 0 0 0, { state := 1, fill := 64, loc := 20 }), (pkey 0 0 1, { state := 1, fill := 64, loc := 21 })] }

def pool1 : KvPool := { die := 0, isDomain := false, owner := 5, units := 1, low := 2, high := 4, free := [30], total := 3 }

def kvS (h : Head := hd1) (x : Rq := {}) : State :=
  { mem1 with kv := { heads := [(1, h)], headNext := 2, pools := [(1, pool1)] }, rqt := { entries := [(9, { x with ctx := 5, head := some 1 })] } }

theorem wit_ListHeads :
    ((kvS).head 1 = some hd1 ∧ ((kvS).rqOfHead 1).all (fun e => e.2.step.isNone) = true ∧
      ((List.range 4).find? fun i => i != hd1.cur && hd1.readers.getD i 0 == 0) = some 1) ∧
    (let h : Head := { hd1 with readers := [0, 1, 1, 1] }
     ((List.range 4).find? fun i => i != h.cur && h.readers.getD i 0 == 0) = none ∧ h.waiting = false) ∧
    (let s : State := { kvS with kv := { (kvS).kv with granules := [(5 * 4096, 1)] } }
     s.isLocalVa 65536 = true ∧ s.granule 5 65536 = some 1 ∧ hd1.geom.h = false) ∧
    (let s := kvS
     performs s 0 0x24 = true ∧ ((s.rq 9).head.bind s.head) = some hd1 ∧ 64 < hd1.stagedLen ∧ rqTerminal (s.rq 9).state = false) ∧
    (let s := kvS hd1 { trunc := some 64 }
     (s.rq 9).trunc = some 64 ∧ (s.rq 9).step = none) := by decide +kernel

theorem test_truncate : okNext (exec (.truncateApply 9) (kvS hd1 { trunc := some 64 })) (fun t => (t.head 1).any fun h => h.gen == 1 && h.length == 64 &&
    h.published.map (·.1) == [pkey 0 0 0]) = true := by decide +kernel

/-- The member of step 7 whose page of position 1 waits to be rebuilt; its token log stands at 64 KiB. -/
def rebuildS : State :=
  let h : Head := { hd1 with geom := { hd1.geom with logVa := 65536 }, staging := [(pkey 0 0 1, { state := 1, fill := 10, loc := 21 })] }
  { kvS h { state := rqDECODE, rebuilds := [(0, 0, 1)], step := some 7 } with
    steps := [(7, { ctx := 5, started := true, members := [{ idx := 9, rebuild := some (0, 0, 1) }] })] }

theorem wit_PageMoves_rebuild :
    (let s := rebuildS
     let r := s.hubRead 5 65792 1 {} (some 7)
     (s.rq 9).rebuilds = [(0, 0, 1)] ∧ ((s.step1 7).any fun st => st.members.any fun m => m.idx == 9 && m.rebuild == some (0, 0, 1)) = true ∧
       ((s.head 1).any fun h => ((mget h.staging (pkey 0 0 1)).any fun e => e.state == 1 && !e.shared && decide (e.fill < 64)) &&
         h.geom.dies.getD 0 0 == 0 && (h.geom.logVa + 256 * 1) / 64 * 64 == 65792) = true ∧ r.2.isSome = true ∧
       ((r.1.modRq 9 fun y => { y with rebuilds := [], recomputed := true, cntRecomp := min 255 (y.cntRecomp + 1) }).takePage 1).2 = some 30) := by
  decide +kernel
theorem wit_PageMoves_spill :
    (let s := kvS { hd1 with staging := [(pkey 0 0 0, { state := 1, fill := 64, loc := 20 })] } { state := rqHELD }
     let s : State := { s with kv := { s.kv with ranges := [(0, 2 ^ 21)] } }
     (s.pool 1).any (fun x => !x.spilling && x.pinned.isNone && decide (x.free.length < x.low) && decide (s.freeSoon 1 x < x.high)) = true ∧ s.linkUp = true ∧
       s.kv.fetches = [] ∧ (s.spillable 1 matches (1, _) :: _) = true ∧ s.cellarSlot 1 4096 = some 0) := by
  refine ⟨by decide +kernel, by decide +kernel, by decide +kernel, ?_, by decide +kernel⟩
  simp [State.spillable, kvS, State.head, mget, hd1, keySlot, pkey, Geom.poolOf]

def rec1 : CellarRec := { slot := 0, pool := 1, bytes := 4096, head := 1, key := pkey 0 0 0, iv := 0, data := List.replicate 4096 3 }

def moveS (st : Nat) : State :=
  let h : Head := { hd1 with staging := [(pkey 0 0 0, { state := st, fill := 64, loc := 20 })] }
  let s := kvS h { state := rqHELD }
  { (s.wr (pgCM 0) F.CM_CLAIM 1) with kv := { s.kv with recs := [(0, rec1)] } }

theorem wit_PageMoves_moves :
    (let s := moveS 1
     let m : Move := { head := 1, key := pkey 0 0 0, record := 0, pool := 1 }
     let s : State := { s with kv := { s.kv with spills := [m] } }
     s.kv.spills = [m] ∧ ((s.head 1).any fun h => (mget h.staging (pkey 0 0 0)).isSome) = true ∧ (mget s.kv.recs 0).isSome = true) ∧
    (let s := moveS 3
     (s.rq 9).head = some 1 ∧ (s.rq 9).state = rqHELD ∧ s.inControl = true ∧ s.linkUp = true ∧ s.kv.fetches = [] ∧ s.kv.spills = []) ∧
    (let s := moveS 4
     ((s.head 1).any fun h => ((mget h.staging (pkey 0 0 0)).any fun e => e.state == 4) && decide (rec1.data.length = h.geom.units * 4096)) = true ∧
       (s.rqOfHead 1).any (fun e => e.1 == 9) = true) := by decide +kernel

def run1 : FrameRun := { die := 0, first := 30, count := 1 }

theorem wit_PoolsHeadsAndCellar_pools :
    (let s := rdy
     performs s 0 0x20 = true ∧ s.dieThere 0 = true ∧ s.ownerOpen false 5 = true ∧ s.pool 0xFEFF = none) ∧
    (let s : State := { kvS with lp := { (mem1).lp with frames := [(8, { otype := 0, owner := 5, kind := 1 }), (40, { otype := 0, owner := 5, kind := 1 })] } }
     let r : FrameRun := { die := 0, first := 40, count := 1 }
     performs s 0 0x21 = true ∧ s.pool 1 = some pool1 ∧ s.dieThere 0 = true ∧ s.inPools r = false ∧
       ((runFrames r).all fun f => (s.frame f).any fun y => y.otype == 0 && y.owner == 5 && !y.clearing && y.kind == 1) = true) ∧
    (performs (kvS) 0 0x22 = true ∧ ((List.range (run1.count / pool1.units)).all fun i => pool1.free.contains (run1.first + i)) = true) := by
  decide +kernel

/-- A list-head template of context 5: one layer, one key head of dimension 32 in E4M3, pages of one frame from pool 1. -/
def template : List Nat :=
  List.replicate 12 0 ++ [1, 0, 0, 0] ++ [0, 0, 0, 0, 1, 1, 2, 1, 32, 0, 1, 0, 4, 0, 0, 0] ++ List.replicate 16 0 ++ [1, 0] ++ List.replicate 14 0

theorem wit_PoolsHeadsAndCellar_heads :
    (let s0 := (mem1).wr (pgXLT 0) F.XLT_SYS_FREE 40
     let s : State := { s0 with
       lp := { s0.lp with mem := bputList [] 32768 ((List.replicate 11 0 ++ [64, 0, 0, 0, 0] ++ template.drop 16).map (BitVec.ofNat 8)),
                          tag := [(512, 2), (513, 2), (514, 2), (515, 2)] }
       kv := { pools := [(1, { pool1 with units := 1 })] }, rqt := { entries := [(9, { ctx := 5 })] } }
     let r := (untake s 0 3 0x23).hubRead 5 65536 4
     performs s 0 0x23 = true ∧ (mget s.rqt.entries 9).isSome = true ∧ (r.2.any fun bs => (r.1.headRefused 5 (geomOf bs)).isNone) = true ∧
       mget r.1.rqt.entries 9 = some { ctx := 5 }) ∧
    (let s := kvS hd1 { state := 6 }
     performs s 0 0x25 = true ∧ rqTerminal (s.rq 9).state = true ∧ (s.rq 9).head = some 1 ∧ (s.head 1).isSome = true) := by decide +kernel

theorem wit_PoolsHeadsAndCellar_domains :
    (let s := rdy
     performs s 0 0x05 = true ∧ s.kv.copyTo = none ∧ ((List.range 256).find? fun d => (mget s.kv.domains d).isNone) = some 0 ∧ s.regionAt 262144 = some 0) ∧
    (let s : State := { rdy with kv := { domains := [(0, { base := 0, size := 4, hashKey := 1 })] } }
     performs s 0 0x06 = true ∧ s.domainBusy 0 = false ∧ s.kv.pfx = []) ∧
    (let s : State := { rdy with kv := { ranges := [(0, 2 ^ 21)] } }
     performs s 0 0x26 = true ∧ (s.kv.ranges.all fun r => decide (r.1 + r.2 ≤ 2 ^ 64 - 2 ^ 21)) = true ∧ performs s 0 0x27 = true ∧
       (0, 2 ^ 21) ∈ s.kv.ranges ∧ s.kv.recs = []) := by decide +kernel

theorem test_domain_create : okNext (exec (.domainCreate 0 3 8) rdy) (fun t => t.host.resps == [{ fn := 0, tag := 3, status := 0, result := 0 }] &&
    (mget t.lp.keys 1024).isSome) = true := by decide +kernel
/-! ## Requests, the Mill, the codec -/

/-- `n` frames of context 5 mapped from 64 KiB on, holding the bytes `bs`. -/
def memN (n : Nat) (bs : List Nat) : State :=
  { rdy with lp := {
      keys := [(5, 1)]
      frames := (List.range n).map fun i => (8 + i, { otype := 0, owner := 5, kind := 0 })
      leaves := (List.range n).map fun i => (smallKey 5 (65536 + 4096 * i), { pa := 8 + i, w := true, h := true })
      mem := bputList [] 32768 (bs.map (BitVec.ofNat 8))
      tag := (List.range (ceilDiv bs.length 64)).map fun i => (512 + i, 2) } }

/-- The template of the list heads, its window at 1 GiB, its log at 64 KiB. -/
def headText : List Nat := List.replicate 11 0 ++ [64, 0, 0, 0, 0] ++ template.drop 16 ++ List.replicate 192 0

def askS (x : Rq) (m : State := memN 1 headText) : State :=
  let s := m.wr (pgXLT 0) F.XLT_SYS_FREE 60
  { s with kv := { pools := [(1, { pool1 with free := [30, 31, 32], low := 0, units := 1 })] }
           rqt := { entries := [(9, x)] } }

def asked : Rq := { intake := true, ctx := 5, cls := 1, promptLen := 65, genMax := 1, headVa := 16, paramVa := 64 }

theorem wit_RequestLife_denied :
    (let s := askS { asked with headVa := 0 }
     let r := s.hubRead 5 (s.fieldVa 0 12) 4
     s.inControl = true ∧ s.rq 9 = { asked with headVa := 0 } ∧ r.2 = none ∧ mget r.1.rqt.entries 9 = some { asked with headVa := 0 }) := by decide +kernel

theorem wit_RequestLife_admitted :
    (let s := askS asked
     let r := s.hubRead 5 (s.fieldVa 16 12) 4
     let bs := r.2.getD []
     let s1 := r.1.seeModel (geomOf bs).model
     let m := s1.makeHead 5 (geomOf bs) []
     let s4 := (m.1.modRq 9 fun y => { y with head := some m.2 }).attach m.2 1
     s.inControl = true ∧ s.rq 9 = asked ∧ r.2.isSome = true ∧ ((geomOf bs).dies.any fun n => !s.hasUnit (pgDIE n)) = false ∧
       (s1.keyIn 5).isSome = true ∧ s1.translates 5 (s.fieldVa 64 10) = true ∧ s1.headRefused 5 (geomOf bs) = none ∧
       (s4.head m.2).isSome = true ∧ (s4.rq 9).cls = 1 ∧ (s4.rq 9).dlValid = false ∧
       ((s4.head m.2).any fun h => (s4.reserve 9 (ceilDiv ((s4.rq 9).promptLen + s4.roomFor (s4.rq 9)) 64 - h.chain.length)).isSome) = true) := by
  decide +kernel

theorem wit_RequestLife_held :
    (let s := kvS { hd1 with edited := false } { state := rqHELD, room := 1 }
     s.inControl = true ∧ (s.rq 9).state = rqHELD ∧ (s.rq 9).head = some 1 ∧ (hd1.staging.all fun e => e.2.state == 1 || e.2.state == 2) = true ∧
       ceilDiv (hd1.stagedLen + s.roomFor (s.rq 9)) 64 - ceilDiv hd1.stagedLen 64 ≤ (s.rq 9).room) ∧
    (let s := kvS hd1 { state := rqDECODE, step := some 7 }
     performs s 0 0x33 = true ∧ (s.rq 9).state = rqDECODE ∧ (s.rq 9).step.isSome = true ∧ s.mayWriteBlock pgRQT 0 = true ∧
       nbit (2 ^ 31 + 9) 31 = true ∧ bits (2 ^ 31 + 9) 0 13 = 9 ∧ nbit 9 31 = false) ∧
    (let s := kvS hd1 { state := rqADMITTED }
     (s.rq 9).state = rqADMITTED ∧ (s.rq 9).auto = false ∧ (s.rq 9).recomputed = false ∧ performs s 0 0x34 = true ∧ s.ownsRq 0 9 = true ∧
       rqTerminal (s.rq 9).state = false ∧ rqTerminal rqDONE = true ∧ rqTerminal rqFAULTED = true) := by decide +kernel

theorem test_cancel : okNext (exec (.rqCancel 0 3 9) (kvS hd1 { state := rqADMITTED })) (fun t => (t.rq 9).state == rqCANCELLED &&
    t.rd pgRQT F.RQT_FREE == 8191) = true := by decide +kernel

def resv1 : Resv := { ctx := 5, start := 63, g := 1, vats := [(0, 0, 7)], banks := [], segs := [], entries := 64, positions := 10, chunk := 1, bstep := 0 }

theorem wit_RequestLife_reservations :
    (let s : State := { rdy.wr pgTBASE F.TBASE_SLOT_CLK 104 with tb := { st := .locked }, rqt := { costs := [(4, { fix := 0, tok := 0, key := 0 })], models := [1] } }
     performs s 0 0x30 = true ∧ s.resRefused { resv1 with bstep := s.slotClk } (s.costOf 1 0) = none ∧
       ((List.range 16).find? fun k => (mget s.resv k).isNone) = some 0 ∧ performs s 0 0x32 = true ∧ 1 ∈ s.rqt.models) ∧
    (let s : State := { rdy with resv := [(15, resv1)] }
     performs s 0 0x31 = true ∧ s.resvOf 5 = some (15, resv1) ∧ (s.resv.all fun q => !q.2.ending) = true ∧ s.vat7Held 0 0 = true) ∧
    (let s := (rdy.wr (floorPgOf f0) F.FLOOR_SPARE 0xF).wr (floorPgOf f0) F.FLOOR_CFG_KEEP_TEST 1
     s.hasUnit (pgDIE 0) = true ∧ s.hasUnit (floorPgOf f0) = true ∧ s.rd (floorPgOf f0) F.FLOOR_SPARE = 0xF ∧
       s.on (floorPgOf f0) F.FLOOR_CFG_KEEP_TEST = true ∧ (s.vatOf (floorPgOf f0) 7).isSome = true ∧ s.inControl = true ∧ s.vat7Held 0 0 = false) ∧
    (let s : State := { rdy with rqt := { releases := [(floorPgOf f0, 2)] } }
     ((s.vatOf (floorPgOf f0) 7).any fun pg => (s.vat pg).atBoundary && (s.vat pg).entries.isEmpty) = true) := by decide +kernel

/-- A Mill layer of 1 × 1 × 1 with its one weight, and one of no width. -/
def millText (w : Nat) : List Nat :=
  [w, 0, 1, 0, 1, 0, 1, 0, 1, 1, 0x11, 0x11, 0, 0, 0, 0, 1, 0, 0, 0, 16, 0, 0, 0] ++ List.replicate 40 0

def list1 : MillList := { ctx := 5, cls := 1, descs := [{ kind := 0, va := 65536 }], spile := 0 }

def millS (l : List (Nat × MillJob)) : State := { memN 1 (millText 1) with mill := { jobs := l, next := l.length, chains := [(127, list1)] } }

theorem wit_MillWork_commands :
    (let s := millS []
     performs s 1 0x40 = true ∧ s.isRetired pgMILL = false ∧ s.boundTo 1 5 = true ∧ listOk list1 = true ∧
       (s.mill.jobs.filter fun e => e.2.list.cls == 1 && e.2.loc == .queued).length < 64) ∧
    (let s := millS ((List.range 64).map fun i => (i, { list := list1 }))
     64 ≤ (s.mill.jobs.filter fun e => e.2.list.cls == 1 && e.2.loc == .queued).length ∧ performs s 1 0x43 = true ∧
       (mget s.mill.jobs 63).any (fun j => j.loc == .queued && !j.started && j.list.ctx == 5) = true) ∧
    (let s : State := { millS [(0, { list := list1, chain := some 127 })] with codec := { streams := [(127, { ctx := 5, sd := [] })] } }
     performs s 1 0x41 = true ∧ s.codecUp = true ∧ (s.stream 127).any (fun x => x.ctx == 5) = true ∧ s.mill.chains.length < 128 ∧
       performs s 1 0x42 = true ∧ mget s.mill.chains 127 = some list1 ∧ (mget s.mill.jobs 0).any (fun j => j.chain == some 127) = true) := by decide +kernel

theorem wit_MillWork_pipes :
    (let j : MillJob := { list := list1 }
     let s := millS [(0, j)]
     let s2 := s.setPipeCtx 0 5
     s.runningJob 0 = none ∧ s.millStopped = false ∧ s.testing (.pipe 0) = false ∧ s.nextJob 0 = some (0, j) ∧ s.pipeCtx 0 = none ∧
       (s2.hubRead 5 j.descVa 1).2 = some (millText 1) ∧ j.kind = 0 ∧ millLayerOk (millText 1) = true) ∧
    (let j : MillJob := { list := list1, loc := .suspended 0, started := true }
     (millS [(0, j)]).nextJob 0 = some (0, j)) ∧
    (let j : MillJob := { list := { list1 with cls := 3 }, loc := .running 0, started := true, desc := millText 0 }
     let w : MillJob := { list := list1 }
     (millS [(0, j), (1, w)]).runningJob 0 = some (0, j) ∧ (millS [(0, j), (1, w)]).nextJob 0 = some (1, w) ∧
       (millLayerOf j.desc).act1.empty = true ∧ j.kind = 0 ∧ j.done + 1 = j.list.descs.length) ∧
    (mget (millS [(0, { list := list1, loc := .ended 0 })]).mill.jobs 0).any (fun j => j.loc == .ended 0) = true := by decide +kernel

theorem test_mill_submit : okNext (exec (.millSubmit 1 3 list1) (millS [])) (fun t => t.rd pgMILL F.MILL_QUEUED_C1 == 1) = true := by decide +kernel

/-- An H.264 decoder's stream of 64 × 64: two buffers at 80 KiB, rings of 64 entries at 72 KiB; and an encoder's. -/
def streamText (mode : Nat) : List Nat :=
  [mode, 0, 2, 0, 64, 0, 64, 0, 0, 0x40, 1, 0, 0, 0, 0, 0, 0, 0x20, 1, 0, 0, 0, 0, 0, 0, 0, 0, 0, 30, 0, 0, 0, 1, 0, 0, 0] ++
    List.replicate 18 0 ++ [1, 0, 64, 0] ++ List.replicate 70 0

def str1 (mode : Nat) : Stream := { ctx := 5, sd := streamText mode, bufs := [{}, {}] }

def cdS (x : Stream) (idx : List Nat := List.replicate 64 0) : State :=
  let s := memN 8 (streamText 0)
  { s with lp := { s.lp with mem := bputList s.lp.mem (32768 + 8192) ((idx ++ List.replicate 64 7).map (BitVec.ofNat 8)), tag := s.lp.tag ++ [(640, 2), (641, 2)] }
           codec := { streams := [(127, x)] } }

theorem wit_CodecWork_open :
    (let s : State := { memN 8 (streamText 0) with codec := { streams := [] } }
     let r := (untake s 1 3 0x48).hubRead 5 65536 2
     let x : Stream := { ctx := 5, sd := streamText 0, pollClk := s.now }
     performs s 1 0x48 = true ∧ s.codecUp = true ∧ s.boundTo 1 5 = true ∧ ((List.range 128).find? fun n => (s.stream n).isNone) = some 0 ∧
       r.2 = some (streamText 0) ∧ sdOk (streamText 0) = true ∧ r.1.rangeMapped 5 x.poolVa (x.poolN * x.bufBytes) = true ∧
       r.1.rangeMapped 5 x.ringVa (64 + 64 * x.subN + 36 * x.outN) = true) := by decide +kernel
theorem wit_CodecWork_streams :
    ([0x49, 0x4A, 0x4B, 0x4C].all fun op => performs (cdS (str1 3)) 1 op) = true ∧
    (let p : CPic := { eng := some 0, idx := 0, entry := [], buf := 0, syn := {}, key := false, clk := 0 }
     let s := cdS { str1 3 with pic := some p }
     pagePresent s.variant (pgCODEC 0) = true ∧ s.boundTo 1 5 = true ∧ (s.stream 127).any (fun x => x.pic.isSome && !x.faulted && !x.closing && x.enc) = true ∧
       ((s.codec.streams.find? fun e => e.2.pic.any fun p => p.eng == some 0).any fun e => e.1 == 127) = true) ∧
    ((str1 0).enc = false ∧ (str1 0).pic = none ∧ (str1 0).subCons = (str1 0).subProd ∧ (str1 0).recs = []) ∧
    (let s := { cdS (str1 3) with lp := (memN 8 (streamText 3)).lp }
     (untake s 1 3 0x4C |>.hubRead 5 65536 2).2 = some (streamText 3) ∧
       rcOk ((streamText 3).take 28 ++ (((streamText 3).drop 28).take 30) ++ (streamText 3).drop 58) = true) := by decide +kernel

theorem wit_KeyRequests :
    (let s := cdS (str1 3)
     performs s 1 0x4B = true ∧ pagePresent s.variant (pgCODEC 0) = true ∧ s.boundTo 1 5 = true ∧ s.stream 127 = some (str1 3) ∧
       (str1 3).faulted = false ∧ (str1 3).closing = false ∧ (str1 3).enc = true) := by decide +kernel

/-- Indexes `SUB_PROD` 1, the rest 0; and `SUB_PROD` 65, beyond the ring of 64. -/
def idxText (sub : Nat) : List Nat := sub :: List.replicate 63 0

theorem wit_CodecWork_poll :
    ([1, 64, 65].all fun sub => let s := cdS (str1 0) (idxText sub)
      ((s.count pgSCHED 0x058 1).hubBytes 5 (str1 0).ringVa 24).2 == some ((idxText sub).take 24) &&
        decide ((str1 0).pollClk + s.rd pgSCHED F.SCH_POLL_US * clkUs ≤ s.now)) = true ∧
    idxAhead 64 0 ≤ (str1 0).subN ∧ (str1 0).subN < idxAhead 65 0 := by decide +kernel

theorem wit_CodecWork_pictures :
    ([0, 3].all fun mode => let x := { str1 mode with subProd := 1 }
      let s := cdS x (idxText 1)
      let s1 := s.readIndexes 127
      s.hasUnit (pgCODEC 0) && !s.on (pgCODEC 0) F.ENG_BUSY && !s.codecStopped && !s.testing (.codec 0) && s.nextStream.any (fun e => e.1 == 127) &&
        (s1.stream 127).any fun y => y.wants && (match s1.takeEntry 127 y with
          | (_, x1, b) => b.isSome && x1.freeBuf == some 0 && x1.enc == (mode == 3) && x1.seqCause == 0)) = true := by decide +kernel

theorem wit_CodecWork_overload :
    (let s := cdS { str1 0 with readyClk := some 0, sd := 8 :: (streamText 0).drop 1 }
     s.on pgSCHED F.SCH_MODE = false ∧ (s.codec.streams.any fun e => (e.2.readyClk == some 0) && e.2.live) = true ∧
       0 + s.rd pgSCHED F.SCH_OVL_ENTER_US * clkUs ≤ s.now) ∧
    (let s := rdy.wr pgSCHED F.SCH_MODE 1
     s.on pgSCHED F.SCH_MODE = true ∧ s.codec.streams = [] ∧ s.codec.longClk + s.rd pgSCHED F.SCH_OVL_EXIT_MS * clkMs ≤ s.now) := by decide +kernel

/-! ## The Cellarmaster pair -/

def cmS (claimA roleA claimB roleB : Nat) (cm : CmSt := {}) : State :=
  { ((((rdy.wr (pgCM 0) F.CM_CLAIM claimA).wr (pgCM 0) F.CM_ROLE roleA).wr (pgCM 1) F.CM_CLAIM claimB).wr (pgCM 1) F.CM_ROLE roleB) with cm := cm }

theorem wit_CellarmasterPair_units :
    (let s := cmS 1 roleActive 0 roleReady { a := { diag := 1 } }
     s.higher = some 0 ∧ s.claim 0 ≠ 0 ∧ (s.cmUnit 0).diag = 1 ∧ (s.cmUnit 0).hbClk + s.rd (pgCM 0) F.CM_HB_US * clkUs ≤ s.now) ∧
    (let s := cmS 1 roleActive 2 roleActive
     s.higher = some 1 ∧ s.claim 0 ≠ 0 ∧ s.cmActivation = none) ∧
    (let s := cmS 255 roleActive 1 roleActive { a := { diag := 3 } }
     s.higher = some 1 ∧ (s.cmUnit 0).diag = 3 ∧ s.recentDrops 0 = []) ∧
    (let s := cmS 1 roleActive 0 roleSelftest { b := { drops := [999999999, 999999998] } }
     s.role 1 = roleSelftest ∧ s.cmActivation = none ∧ (s.recentDrops 1).length = 2) := by decide +kernel

theorem wit_CellarmasterPair_standby :
    (let s := (cmS 1 roleActive 0 roleSync { copy := some (16777216, false) }).wr (pgCM 1) F.CM_HEALTH_GOOD_COPIES 1
     s.cm.copy = some (16777216, false) ∧ s.higher = some 0 ∧ s.role 1 = roleSync ∧ 1 ≤ s.rd (pgCM 1) F.CM_HEALTH_GOOD_COPIES) ∧
    (let s : State := { cmS 1 roleActive 0 roleReady with tb := { lastMark := 1000000000 } }
     s.role 1 = roleReady ∧ (s.cmUnit 1).slice = none ∧ (s.cmUnit 1).deferred = false ∧ (s.cmUnit 1).restart = none ∧ s.standby = some 1) ∧
    (cmS 1 roleActive 0 roleReady { b := { slice := some 0 } }).cmUnit 1 = { slice := some 0 } ∧
    (let s := cmS 1 roleActive 0 roleReady { b := { restart := some 0 } }
     (s.cmUnit 1).restart = some 0 ∧ 0 + 150 * clkUs ≤ s.now) ∧
    (let s := cmS 0 roleSelftest 0 roleReady { dropClk := some 1 }
     s.cm.dropClk = some 1 ∧ s.standby = some 1 ∧ 1 + 2 * s.periodClk ≤ s.now ∧ s.tb.lastMark ≤ 1) ∧
    (let s := cmS 1 roleActive 0 roleReady
     s.mayWriteBlock (pgCM 0) 0 = true ∧ s.role 0 = roleActive ∧ s.role (1 - 0) = roleReady ∧ s.cm.yieldReq = false ∧ s.cm.announced = false ∧
       s.role 1 ≠ roleActive) := by decide +kernel

theorem test_hb_miss : okNext (exec (.hbMiss 0) (cmS 1 roleActive 0 roleReady)) (fun t => t.claim 0 == 0 && t.role 0 == roleSelftest &&
    t.rd (pgCM 0) F.CM_DROP_CAUSE == 4) = true := by decide +kernel
/-! ## Contexts, the Gauger, firmware, self-test -/

def ctxAt (c st : Nat) : State := rdy.setCtxField F.CTXS_ENTRY_STATE c st

theorem wit_ContextLife_commands :
    (let s := rdy
     ([0x02, 0x07, 0x08, 0x09].all fun op => performs s 0 op) = true ∧ s.ctxState 6 = ctxFREE ∧ s.ctxOpen 5 = true ∧ s.ctxState 5 = ctxLIVE) ∧
    (let s : State := { rdy with kv := { domains := [(255, { base := 0, size := 4, hashKey := 1 })] } }
     s.ctxField F.CTXS_ENTRY_SEALED 5 = 0 ∧ s.joinRefused 5 255 = false) ∧
    ((bitsSet (2 ^ 12 - 1) 12).all fun f => (rdy.cmdFloor 3 f).isSome && !rdy.floorBusy 3 f 5) = true := by decide +kernel

theorem wit_ContextLife_rinse :
    ((ctxAt 6 ctxENDING).ctxState 6 = ctxENDING ∧ (ctxAt 6 ctxENDING).stillBusy 6 = false) ∧
    (let x : Rinse := { ctx := 5, need := 1, lines := 1, inRamp := true }
     let s : State := { rdy with ctxs := { queue := [x], rampIn := some 0 }, lp := (mem1).lp }
     s.ctxs.queue = [x] ∧ x.base + x.need * (256 * max 1 (s.rd pgCTXS0 F.CTXS_RINSE_LINE_CLK)) ≤ s.fillNow ∧ 0 + s.rampClk ≤ s.now ∧
       (s.frame 8).any (fun y => y.otype == 0 && y.owner == 5 && !y.pend) = true) ∧
    (let s : State := { ctxAt 6 ctxRINSING with ctxs := { filled := [(6, 0)] }, host := { rdy.host with waits := [{ fn := 0, tag := 1, on := .ctxFree 6 }] } }
     s.ctxs.filled = [(6, 0)] ∧ 0 + s.rampClk ≤ s.now) ∧
    (let s : State := { { rdy with retired := [(pgDIE 1, 1)] } with kv := { homes := [0, 1] } }
     s.kv.homes.filter (fun n => s.hasUnit (pgDIE n)) = [0] ∧ s.kv.copyTo = none ∧ s.inControl = true ∧ 2 ∈ s.diesUp) ∧
    ({ rdy with kv := { homes := [0], copyTo := some 2 } } : State).kv.copyTo = some 2 ∧
    mget ({ rdy with drbg := [(5, (1, 2 ^ 20))] } : State).drbg 5 = some (1, 2 ^ 20) := by decide +kernel

def gauS (c : Conn := { phase := 3, version := 0x13 }) (ss : AMap Session := []) (claimed : AMap Nat := []) : State :=
  { (rdy.wr pgMOD F.MOD_START_PHASE 6) with gau := { conns := [(1, c)], sessions := ss, claimed := claimed, ownerKey := some 3 } }

theorem wit_SpdmAnswers_connection :
    (let s := gauS { phase := 2 }
     s.doeUp = true ∧ s.gau.paused = false ∧ (s.conn 1).phase = 2 ∧ (s.conn 0).phase = 0) ∧
    (let s := gauS { phase := 3, lastSigned := some (999999999, 4) }
     s.hssExhausted = false ∧ (s.gau.reports.filter fun c => decide (s.now < c + clkHour)).length < s.rd pgGAU F.GAU_LMS_BUDGET ∧
       s.rd pgGAU F.GAU_HSS_BOTTOM_USED < 1024 ∧ (s.conn 1).lastSigned = some (999999999, 4) ∧ s.now < 999999999 + 10 * clkS) ∧
    (let s := (gauS).wr pgGAU F.GAU_LMS_BUDGET 0
     s.hssExhausted = false ∧ s.rd pgGAU F.GAU_LMS_BUDGET ≤ (s.gau.reports.filter fun c => decide (s.now < c + clkHour)).length) ∧
    (let s : State := { gauS { lastSigned := some (0, 4) } with now := 10 * clkS }
     (s.conn 1).lastSigned = some (0, 4) ∧ 0 + 10 * clkS ≤ s.now) ∧
    ((gauS).wr pgGAU F.GAU_HSS_BOTTOM_USED 1024).rd pgGAU F.GAU_HSS_BOTTOM_USED = 1024 := by decide +kernel

theorem wit_SpdmAnswers_sessions :
    (let s := gauS { phase := 3, kem := 2 }
     (s.conn 1).kem = 2 ∧ (s.sessionsOf 1).length < 4 ∧ s.gau.sessions.length < 128 ∧
       ((List.range 128).find? fun n => (mget s.gau.sessions n).isNone && !(s.gau.conns.any fun e => e.2.pending == some n)) = some 0) ∧
    ((gauS { phase := 3, pending := some 127, lmsTaken := true }).conn 1).pending = some 127 ∧
    (let s := (gauS {} [(127, { fn := 1, hbClk := 0 })] [(5, 127)]).setCtxField F.CTXS_ENTRY_SEALED 5 1
     (mget s.gau.sessions 127).any (fun x => x.fn == 1) = true ∧ mget s.gau.claimed 5 = some 127 ∧ s.ctxOpen 5 = true ∧
       (s.setCtxField F.CTXS_ENTRY_STATE 5 ctxOPENED).ctxState 5 = ctxOPENED ∧
       ({ s with kv := { domains := [(255, { base := 0, size := 4, hashKey := 1 })] } } : State).joinRefused 5 255 = false) ∧
    (let s : State := { gauS {} [(0, { fn := 1, hbClk := 0 })] with now := 2 ^ 50 }
     0 + 2 * s.rd pgGAU F.GAU_HB_S * clkS ≤ s.now) := by decide +kernel

def mailS (g : GauSt := { ownerKey := some 3 }) : State := { rdy.wr pgGAU F.MBX_STAT_BUSY 1 with gau := g }
def blob (ok : Bool) : OwnerBlob := { sigOk := ok, forUs := true, seq := 1 }
def cask1 : CaskIn := { ctx := 5, host := 0, pubKey := 3, sigOk := true, bound := true, minSvn := [0], sealedOnly := false, formatOk := true, sects := [.code] }

theorem wit_OwnersAndCasks_owner :
    (let s := mailS
     s.ready = true ∧ s.on pgGAU F.MBX_STAT_BUSY = true ∧ s.gau.paused = false ∧ s.gau.loading = none ∧ s.linkUp = true ∧ s.gau.ownerSeq < 1 ∧
       s.gau.ownerKey.isSome = true) ∧
    (mailS {}).gau.ownerKey = none ∧ ([(.lmsBudget, 1)].all policyOk = true) ∧ ([(.cap, 39)].all policyOk = false) ∧
    ({ mailS with regs := (mailS).regs.filter fun e => e.1 / 131072 != pgCTXS0 } : State).ctxCount (fun v => v != ctxFREE) = 0 := by decide +kernel

theorem wit_OwnersAndCasks_casks :
    (let s := mailS { publishers := [(31, 3)] }
     s.caskRefused cask1 = none ∧ s.caskRefused { cask1 with sigOk := false } = some (stDENIED, 2) ∧ s.caskRefused { cask1 with sects := [] } = some (stFAULT, 7) ∧
       ((List.range 256).find? fun n => (mget s.casks n).isNone) = some 0) ∧
    (let s : State := { mailS { loading := some 255 } with casks := [(255, { ctx := 5, loading := true })] }
     s.gau.loading = some 255 ∧ mget s.casks 255 = some { ctx := 5, loading := true } ∧ s.ctxState 5 = ctxLIVE) ∧
    mget ({ mailS with casks := [(255, { ctx := 5 })] } : State).casks 255 = some { ctx := 5 } := by decide +kernel

def fwS (f : FwSt) : State := { mailS with fw := f }
def staging1 (svn kib : Nat) : Staging := { comp := 6, slot := 1, img := { svn := svn }, kib := kib }

theorem wit_FirmwareUpdates_slots :
    ((fwS { staging := some (staging1 0 1) }).fw.staging.isSome = true ∧ (mailS).fw.staging = none ∧ 2048 ≤ slotKib 6 ∧ (mailS).fw.act = none) ∧
    ((staging1 3 1).kib ≠ 0 ∧ nget ({ fused := [(6, 3)] } : FwSt).fused 6 ≤ (staging1 3 1).img.svn) ∧
    (let s := (fwS { slots := [(13, { state := 1, sigOk := true })] }).wri pgGAU F.FW_COMP_PEND 6 1
     s.activateRefused 6 false = none) ∧
    (mailS).activateRefused 6 false = some (stFAULT, 0x06) ∧
    (let s := (fwS { recovery := true }).wr pgREC F.REC_COMP 6
     s.fw.recovery = true ∧ s.rd pgREC F.REC_COMP = 6 ∧ nget s.fw.fused 6 ≤ 0) := by decide +kernel

theorem wit_FirmwareUpdates_activation :
    ([0, 2, 3, 4, 5, 6].all fun c => let s := fwS { act := some { comp := c, slot := 1, force := false, pidx := 0, atClk := 0 } }
      s.unlocked && s.fw.act.any (fun a => !a.begun && decide (a.atClk ≤ s.now))) = true ∧
    (let s : State := { fwS { act := some { comp := 4, slot := 1, force := false, pidx := 2 ^ 24 - 1, atClk := 0 } } with tb := { st := .locked } }
     s.unlocked = false ∧ (s.rd pgTBASE F.TBASE_PERIOD_IDX + 2 ^ 24 - (2 ^ 24 - 1)) % 2 ^ 24 < 2 ^ 23) ∧
    ([0, 2, 3, 4].all fun c => (fwS { act := some { comp := c, slot := 1, force := false, pidx := 0, atClk := 0, begun := true } }).compQuiet c) = true ∧
    (let a : Activation := { comp := 1, slot := 0, force := false, pidx := 0, atClk := 0, begun := true }
     let s : State := { cmS 1 roleActive 0 roleReady with fw := { act := some a } }
     s.compQuiet 1 = true ∧ s.cmReloaded a = true) := by decide +kernel

def bisS (b : BistSt := {}) (s : State := rdy) : State := { (s.wr pgBIST F.BIST_CFG_EN 1).wr pgBIST F.BIST_CFG_ANALOG_EN 1 with bist := b }

theorem wit_TestsAndChecks_schedule :
    ([BistUnit.vat v0, .pipe 0].all fun u => let s : State := { bisS with now := 2 ^ 60 }
      s.on pgBIST F.BIST_CFG_EN && s.ready && s.testable u && decide (nget s.bist.issuedOf (unitKey u) < testsOf u) &&
        decide (s.dueClk u (nget s.bist.issuedOf (unitKey u)) ≤ s.now)) = true ∧
    (let s := bisS
     s.mayWriteBlock pgBIST 0 = true ∧ nbit (2 ^ 31 + 0x1B * 2 ^ 23 + 7 * 2 ^ 20) 31 = true ∧
       reqUnit (bits (2 ^ 31 + 0x1B * 2 ^ 23 + 7 * 2 ^ 20) 23 8) 7 0 = some (.pipe 0) ∧ reqUnit 0 0 0 = none ∧ s.hasUnit pgMILL = true ∧
       reqUnit 0x28 3 (11 * 16 + 8) = some (.vat ⟨3, 11, 8⟩) ∧ s.hasUnit (unitPage (.vat ⟨3, 11, 8⟩)) = true) := by decide +kernel

theorem wit_TestsAndChecks_slices :
    (let s := bisS { reqs := [.pipe 0] }
     s.testing (.pipe 0) = false ∧ s.hasUnit (unitPage (.pipe 0)) = true ∧ s.asked (.pipe 0) = true ∧ s.mayTest (.pipe 0) = true ∧ s.fw.act = none) ∧
    (let s := (bisS { running := [{ unit := .pipe 0, clk := 0, first := some .logic }] }).wr pgBIST F.BIST_PASS_SLICES 2
     s.testing (.pipe 0) = true ∧ (s.bist.running.find? fun y => y.unit == .pipe 0) = some { unit := .pipe 0, clk := 0, first := some .logic } ∧
       s.rd pgBIST F.BIST_PASS_POS + 1 < s.rd pgBIST F.BIST_PASS_SLICES) ∧
    (let s := bisS { deferred := [(.pipe 1, 0)] }
     (s.bist.deferred.find? fun e => e.1 == .pipe 1) = some (.pipe 1, 0) ∧ 0 + s.rd pgBIST F.BIST_DEFER_MS * clkMs ≤ s.now) ∧
    (bisS { stores := [(.vat v0, .column 3 16)] }).bist.stores = [(.vat v0, .column 3 16)] ∧ 0 + clkHour ≤ ({ rdy with now := 2 ^ 60 } : State).now := by
  decide +kernel

theorem wit_TestsAndChecks_checks :
    (let s := bisS { checkFail := [(127, 1), (135, 1)] } (rdy.wr (pgKEG 7) F.KEG_STATE 3)
     s.analogOn = true ∧ s.hasUnit (pgDIE 3) = true ∧ s.chanRetired 3 31 = false ∧ nget s.bist.checkFail (32 * 3 + 31) = 1 ∧ s.hasUnit (pgKEG 7) = true ∧
       s.linkIsUp 7 = true ∧ nget s.bist.checkFail (128 + 7) = 1 ∧ s.linkUp = true ∧ s.domThere (.vat v0) = true ∧ s.bist.relock = []) ∧
    (ClkDomain.mill ∈ (bisS { relock := [.mill] }).bist.relock) ∧
    (bisS {} (rdy.wr pgTBASE F.TBASE_CFG_LINE_A_EN 0)).tbFlag F.TBASE_CFG_LINE_A_EN = false ∧
    (let s := bisS { tbWin := [(0, 99)], tbErr := [(0, 1)] }
     s.bist.tbClk + clkS ≤ s.now ∧ nget s.bist.tbWin 0 < 100 * nget s.bist.tbErr 0 ∧ nget s.bist.tbErr 1 = 0) := by decide +kernel

/-! ## Host link, rings, intake -/

theorem wit_HostLinkAndWindows_link :
    (let s : State := { rdy.wr pgHOST F.HOST_LINK_UP 0 with now := 5 }
     s.host.perstHigh = true ∧ s.pwr.mainOff = false ∧ s.start.modLow = false ∧ s.start.noPcie = false ∧ linkWidth (s.rd pgHOST F.HOST_LANE_EXCL) = 8 ∧
       s.linkUp = false ∧ linkWidth ((s.wr pgHOST F.HOST_LANE_EXCL 1).rd pgHOST F.HOST_LANE_EXCL) = 4 ∧
       linkWidth ((s.wr pgHOST F.HOST_LANE_EXCL 0x80).rd pgHOST F.HOST_LANE_EXCL) = 4) ∧
    rdy.on pgHOST F.HOST_LINK_UP = true ∧ rdy.linkUp = true ∧ vectorsOf 0 = 2048 ∧ vectorsOf 31 = 64 ∧
    (let s : State := { rdy with host := { rdy.host with msixPend := [(31 * 2048 + 63, 1)] } }
     nget s.host.msixOpen (31 * 2048 + 63) = 0 ∧ nget s.host.msixPend (31 * 2048 + 63) ≠ 0) ∧
    (let s : State := { (rdy.wr (pgCEV 5) F.EVT_EN 1024).raise (pgCEV 5) 10 with host := { rdy.host with msixOpen := [(2048, 1)] } }
     s.winSum 1 ≠ 0 ∧ nget s.host.msixOpen (1 * 2048) ≠ 0 ∧ s.linkUp = true) := by decide +kernel

def apS (ro : Nat) : State :=
  ((((mem1).wri (pgWIN 1) F.WIN_AP_VALID 15 1).wri (pgWIN 1) F.WIN_AP_RO 15 ro).wri (pgWIN 1) F.WIN_AP_SLOT 15 0)

theorem wit_HostLinkAndWindows_windows :
    (rdy.aperture 1 0 = none ∧ (apS 1).aperture 1 (15 * 2 ^ 22 + 65536) = some (5, 65536, true) ∧
      (apS 0).aperture 1 (15 * 2 ^ 22 + 2 ^ 22 - 1) = some (5, 2 ^ 22 - 1, false) ∧ 15 * 2 ^ 22 + 2 ^ 22 - 1 < 0x4000000) ∧
    (let s := apS 0
     s.ready = true ∧ s.aperture 1 (15 * 2 ^ 22 + 65599) = some (5, 65599, false) ∧ okAt (s.xlate 5 65599 true true 1) 32831 = true ∧
       s.frame (32831 / 4096) = some { otype := 0, owner := 5, kind := 0 } ∧ s.keyIn (slotOfOwner 0 5) = some 1 ∧ nget s.lp.bad (32831 / 64) = 0) := by
  decide +kernel

theorem test_window_write : okNext (exec (.hostWindowWrite 1 (15 * 2 ^ 22 + 65599) [some 9] {}) (apS 0)) (fun t => bget t.lp.mem 32831 == 9) = true := by
  decide +kernel

/-- Ring `id` at host address 4096 with 64 entries. -/
def ringS (id : Nat) (r : Ring) (mem : AMap Byte := []) : State := { rdy with host := { rdy.host with rings := [(id, r)], mem := mem } }
def ring1 : Ring := { fn := 1, addr := 4096, log2 := 6 }

theorem wit_ContextBinding :
    (performs rdy 0 0x03 = true ∧ rdy.ctxOpen 5 = true ∧ rdy.rdi (pgWIN 1) F.WIN_SLOT_VALID 63 ≠ 1 ∧
      (let s := rdy.setCtxField F.CTXS_ENTRY_STATE 6 ctxOPENED
       s.ctxOpen 6 = true ∧ s.ctxFn 6 = none)) ∧
    (performs rdy 0 0x04 = true ∧ rdy.host.rings = [] ∧ rdy.ctxFn 5 = some 1 ∧ rdy.slotOf 1 5 = some 0 ∧
      (ringS 40 ring1).host.rings.any (fun e => ringCtx e.1 == 5) = true) ∧
    (rdy.ctxState 6 ≠ ctxOPENED ∧ rdy.ctxState 6 ≠ ctxLIVE ∧ rdy.rdi (pgWIN 1) F.WIN_SLOT_VALID 0 = 1 ∧ rdy.ctxState 5 = ctxLIVE) ∧
    (rdy.ready = true ∧ rdy.holding 1 = false) := by decide +kernel

theorem test_unbind : okNext (exec (.ctxUnbind 0 3 5) rdy) (fun t => t.target { fn := 1, bar2 := true, off := 6 * 4096 + 0x100 } == .absent &&
    rdy.target { fn := 1, bar2 := true, off := 6 * 4096 + 0x100 } != .absent) = true := by decide +kernel

theorem test_bind_vf : okNext (exec (.ctxBind 1 3 5 2 0) rdy) (fun t => t.host.resps == [{ fn := 1, tag := 3, status := 0x50, result := 0 }]) = true := by
  decide +kernel

theorem wit_CommandRings_commands :
    (let s := ringS 47 { ring1 with vec := 63, ithresh := 255 }
     performs s 1 0x38 = true ∧ s.boundTo 1 5 = true ∧ s.ring (5 * 8 + 3) = none ∧ s.ring (5 * 8 + 4) = none ∧ (s.ring (5 * 8 + 7)).isSome = true ∧
       vectorsOf 1 = 64 ∧ performs s 1 0x39 = true ∧ s.ringNamed 47 = false) := by decide +kernel

def cmdS (mem : AMap Byte) (cons : Nat := 0) : State :=
  let s := ((rdy.wr (pgWIN 1) F.WIN_CMDQ_EN 1).wr (pgWIN 1) F.WIN_CMDQ_LOG2 6).wr (pgWIN 1) F.WIN_CMDQ_ADDR_LO 8192
  { s with host := { rdy.host with mem := mem, cmdCons := [(1, cons)], cmdProd := [(1, cons)] } }

/-- PROD is 2; in entry 0 the opcode is 0x64 (JOB_END), in entry 1 it is 0x65. -/
def cmdMem : AMap Byte := [(8192, 2), (8256, 0x64), (8260, 7), (8320, 0x65)]

theorem wit_CommandRings_polls :
    (let s := cmdS cmdMem
     s.ready = true ∧ s.linkUp = true ∧ s.on (pgWIN 1) F.WIN_CMDQ_EN = true ∧ nget s.host.cmdFault 1 = 0 ∧ nget s.host.pollClk 1 ≤ s.now ∧
       s.cmdBase 1 = 8192 ∧ s.cmdSize 1 = 64 ∧ s.hostRead (s.cmdBase 1) 4 = 2 ∧ idxDist 2 0 = 2 ∧ indexBad (s.cmdSize 1) 0 2 0 = false ∧
       knownOp (s.hostRead 8256 2) = true ∧ s.hostRead 8258 2 = 0 ∧ s.hostRead 8264 8 = 0 ∧ knownOp (s.hostRead 8320 2) = true ∧ s.host.taken = []) ∧
    (let s := cmdS [(8192, 65)]
     indexBad (s.cmdSize 1) (nget s.host.cmdProd 1) (s.hostRead (s.cmdBase 1) 4) (nget s.host.cmdCons 1) = true) ∧
    (let s : State := { cmdS [] with host := { (cmdS []).host with resps := [{ fn := 1, tag := 9, status := 0, result := 0 }], respProd := [(1, 2 ^ 32 - 1)],
                                                                   mem := bputList [] ((cmdS []).respBase 1 + 32) [0xFF, 0xFF, 0xFF, 0xFF] } }
     (s.host.resps.find? fun r => r.fn == 1) = some { fn := 1, tag := 9, status := 0, result := 0 } ∧ s.respFull 1 = false) := by decide +kernel

theorem test_command_poll : okNext (exec (.cmdRingPoll 1 true) (cmdS cmdMem)) (fun t => t.host.taken == [(1, 7, 0x64), (1, 0, 0x65)] &&
    t.hostRead 8224 4 == 2) = true := by decide +kernel

theorem wit_IntakeAndCompletions_intake :
    (let s := ringS 40 { ring1 with cq := 4, idx := 2 ^ 32 - 1, peer := 2 ^ 32 - 1 } (bputList [] 4096 [0xFF, 0xFF, 0xFF, 0xFF])
     s.ready = true ∧ s.linkUp = true ∧ s.tb.st = .idle ∧ nget s.host.pollClk 40 ≤ s.now ∧ s.ctxs.finals = [] ∧ s.ringsOf [0, 1, 2, 3] = [40] ∧
       s.ctxOpen (ringCtx 40) = true ∧ indexBad 64 (2 ^ 32 - 1) (s.hostRead 4096 4) (2 ^ 32 - 1) = false ∧ idxDist (s.hostRead 4096 4) (2 ^ 32 - 1) = 0) ∧
    (let s := ringS 43 { ring1 with cq := 4 } [(4096, 1), (4160, 3)]
     s.ringsOf [0, 1, 2, 3] = [43] ∧ indexBad 64 0 (s.hostRead 4096 4) 0 = false ∧ idxDist (s.hostRead 4096 4) 0 = 1 ∧
       0 < (s.wr pgINTAKE F.INTAKE_MAX 1).rd pgINTAKE F.INTAKE_MAX ∧ (s.inEntry 4160).op = 3) := by decide +kernel

def compl1 : Compl :=
  { ring := 44, status := 0, kind := 0, ending := 1, cookie := 77, idx := some 9, genCount := 1, hint := 0, deliv := 0, tokens := [5] }

theorem wit_IntakeAndCompletions_completions :
    (let s : State := { ringS 44 { ring1 with vec := 2, ithresh := 255, itimeUs := 1000, idx := 63 } with rqt := { outQ := [compl1] } }
     s.linkUp = true ∧ s.nextCompl = some compl1 ∧ s.ring compl1.ring = some { ring1 with vec := 2, ithresh := 255, itimeUs := 1000, idx := 63 } ∧
       idxDist 63 0 < 2 ^ 6) ∧
    ({ rdy with rqt := { outQ := [compl1] } } : State).nextCompl = some compl1 ∧ rdy.ring 44 = none ∧
    (let s := ringS 44 { ring1 with idx := 64, blocked := true } [(4128, 1)]
     s.hostRead (4096 + 32) 4 = 1 ∧ idxDist 1 0 < 2 ^ 31 ∧ idxDist 64 1 ≤ 2 ^ 6 ∧ nget s.host.pollClk (64 + 44) ≤ s.now) ∧
    (let r : Ring := { ring1 with vec := 63, itimeUs := 1000, cnt := 1, cntClk := 0 }
     let s : State := { ringS 44 r with host := { (ringS 44 r).host with msixOpen := [(2048 + 63, 1)] } }
     s.ring 44 = some r ∧ 0 + clkUs * 1000 ≤ s.now ∧ nget s.host.msixOpen (1 * 2048 + 63) ≠ 0) := by decide +kernel

theorem test_completion_write :
    okNext (exec .completionWrite { ringS 44 { ring1 with vec := 2, ithresh := 2, idx := 63 } with rqt := { outQ := [compl1] } }) (fun t =>
      t.rqt.outQ == [] && t.hostRead 4096 4 == 64 && t.hostRead (4096 + 64 + 32 * 63 + 4) 4 == 77) = true := by decide +kernel

/-! ## Keg links and the cabinet -/

/-- Link 7 in state `st`, the cabinet index valid, members and reachable set {0, 3}. -/
def kegS (st : Nat) (k : KegSt := {}) : State :=
  { (((rdy.wr (pgKEG 7) F.KEG_STATE st).wr pgCAB F.CAB_INDEX_VALID 1).wri pgCAB F.CAB_MEMBERS 0 9).wri pgCAB F.CAB_REACH 0 9 with keg := k }

def job1 : Job := { ctx := 5, epoch := 0, members := [0, 3], dieSet := 9, table := [{ mem := 0, tail := false, base := 0, len := 64 }], keys := some 1 }
def peer1 : KegPeer := { lanes := 15, sigOk := true, owner := none, hash := 1, cab := 63, link := 7 }
def routed (s : State) (m l fixed : Nat) : State :=
  ((s.wri pgCAB F.CAB_ROUTE_VALID m 1).wri pgCAB F.CAB_ROUTE_LINK m l).wri pgCAB F.CAB_ROUTE_FIXED m fixed

theorem wit_KegLinks :
    ((kegS 3 { links := [(7, { fails := 7 })] }).linkIsUp 7 = true ∧ ((kegS 3 { links := [(7, { fails := 7 })] }).link 7).fails + 1 = 8 ∧
      ((kegS 3).link 7).fails + 1 < 8 ∧ (kegS 3).linkIsUp 8 = false) ∧
    (let s := routed (routed (kegS 3 { jobs := [(2, job1)] }) 3 7 0) 63 7 1
     ((s.link 7).lastFlit + clkUs * s.rd (pgKEG 7) F.KEG_LOSS_US ≤ s.now) ∧ s.rdi pgCAB F.CAB_ROUTE_VALID 3 = 1 ∧ s.rdi pgCAB F.CAB_ROUTE_LINK 3 = 7 ∧
       s.rdi pgCAB F.CAB_ROUTE_FIXED 63 = 1 ∧ s.rdi pgCAB F.CAB_ROUTE_LINK 63 = 7 ∧ s.kegJob 2 = some job1 ∧ s.carries 7 job1 = true) ∧
    ((kegS 0).ready = true ∧ (kegS 0).mayTrain 7 = true ∧ (kegS 0).kegState 7 = kegDOWN ∧ ((kegS 0).link 7).downClk = 0 ∧ (kegS 1).kegState 7 = kegTRAINING) ∧
    ((kegS 1).gau.ownerKey = none ∧ (kegS 1).twin 7 peer1 = false ∧ peer1.cab.val ≠ (kegS 1).ownIndex ∧
      (let s := ((kegS 1).wr (pgKEG 0) F.KEG_STATE 3).wr (pgKEG 0) F.KEG_PEER_CAB 63
       s.twin 7 peer1 = true)) ∧
    (performs rdy 0 0x62 = true ∧ performs rdy 0 0x61 = true ∧ rdy.variant.dies = 4 ∧ rdy.hasUnit (pgKEG 7) = true ∧ rdy.hasUnit (pgDIE 3) = true) := by
  decide +kernel

theorem wit_CabinetMembership :
    ((kegS 3).keg.beaconClk + 100 * clkUs ≤ (kegS 3).now ∧ (kegS 3).keg.silent = false ∧ (kegS 3).linkIsUp 7 = true) ∧
    (nbit (kegS 3).reachSet 3 = true ∧ 3 ≠ (kegS 3).ownIndex ∧ nget (kegS 3).keg.conf 3 + 800 * clkUs ≤ (kegS 3).now ∧ job1.members.contains 3 = true) ∧
    ((kegS 3 { below := 3, jobs := [(2, job1)] }).fenced = false) ∧
    (let s := (kegS 3).wr pgCAB F.CAB_EPOCH 4
     performs s 0 0x60 = true ∧ s.majority 9 = true ∧ s.majority 0 = false ∧ nbit 9 s.ownIndex = true ∧ nbit 8 s.ownIndex = false ∧
       s.rd pgCAB F.CAB_EPOCH = 4 ∧ s.membersNow = 9) ∧
    ((kegS 3).mayWriteBlock pgCAB 0 = true ∧ (kegS 3).locked pgCAB = false ∧ ((kegS 3).wr pgCAB F.LOCK_LOCKED 1).locked pgCAB = true) := by decide +kernel

theorem test_epoch_quorum : okNext (exec (.kegEpoch 0 3 5 8) ((kegS 3).wr pgCAB F.CAB_EPOCH 4)) (fun t => t.fenced && t.rd pgCAB F.CAB_EPOCH == 4) = true ∧
    okNext (exec (.kegEpoch 0 3 5 1) ((kegS 3).wr pgCAB F.CAB_EPOCH 4)) (fun t => !t.fenced && t.rd pgCAB F.CAB_EPOCH == 5 && t.membersNow == 1) = true := by
  decide +kernel

/-- The stretch table of members {0, 3} at 64 KiB: 64 bytes each. -/
def tabS : State :=
  { (((memN 1 ([0, 0, 0, 0, 0, 0, 0, 0, 64, 0, 0, 0, 0, 0, 0, 0, 3, 0, 0, 0, 64, 0, 0, 0, 64] ++ List.replicate 999 0)).wr pgCAB F.CAB_INDEX_VALID 1).wri
      pgCAB F.CAB_MEMBERS 0 9).wri pgCAB F.CAB_REACH 0 9 with keg := {} }

theorem wit_JobsAndRemoteWindows_jobs :
    (performs tabS 1 0x63 true = true ∧ tabS.jobRefused 1 5 7 0 9 9 = none ∧ tabS.jobRefused 1 5 7 0 9 0 = some stFAULT ∧
      ((untake tabS 1 3 0x63).hubRead 5 65536 16).2.any (fun bs => stretchClean bs (popcount 9 64) && stretchOk (stretchOf bs (popcount 9 64)) 9) = true) ∧
    (let s := kegS 3 { jobs := [(7, job1)] }
     performs s 1 0x64 true = true ∧ s.kegJob 7 = some job1 ∧ s.boundTo 1 job1.ctx = true ∧ s.steps = [] ∧ s.kegJob 8 = none ∧ job1.ctx = 5 ∧
       performs s 1 0x65 true = true ∧ performs s 1 0x66 true = true ∧ s.linkIsUp 7 = true) := by decide +kernel

theorem wit_JobsAndRemoteWindows_access :
    ((kegS 3).isLocalVa (3 * 2 ^ 42) = false ∧ (kegS 3).remoteJob 5 (bits (3 * 2 ^ 42) 42 6) = none) ∧
    (let s := routed (kegS 3 { jobs := [(7, job1)], windows := [(5, 7)] }) 3 7 0
     s.remoteJob 5 (bits (3 * 2 ^ 42) 42 6) = some (7, job1) ∧ s.fenced = false ∧ s.keg.silent = false ∧ s.route (bits (3 * 2 ^ 42) 42 6) = some 7) ∧
    (let s : State := { mem1 with keg := { jobs := [(7, job1)] } }
     s.isLocalVa 65536 = true ∧ s.kegJob 7 = some job1 ∧ s.fenced = false) := by decide +kernel

def coll1 : CollOp :=
  { step := 7, ctx := 5, die := 3, op := 3, fmt := 0, inStore := false, root := 3, job := 7, seq := 0, bytes := 64, src := 65536, dst := 65536, start := 0,
    done := 0, thresh := 1, bad := false }

def collS (o : CollOp) (j : Job := job1) : State :=
  { kegS 3 { jobs := [(7, j)], ops := [(0, o)] } with
    spl := { rels := [(.coll 3 0, 6, 1)] }, steps := [(7, { ctx := 5, started := true, job := some 7 })] }

def rec2 (dst : Nat) (seq : Nat := 0) : CollRec := { src := 3, dst := dst, hops := 1, job := 7, seq := seq, die := 3, phase := 0 }

theorem wit_CollectiveOperations_ops :
    (let s := collS coll1
     s.collOp 0 = some coll1 ∧ (s.spl.rels.any fun r => r.1 == .coll coll1.die 0) = true ∧ s.kegJob coll1.job = some job1 ∧
       coll1.seq = job1.seqs.getD coll1.die 0 ∧ coll1.root ≠ s.ownIndex ∧ job1.members.contains coll1.root = true ∧ coll1.filled < coll1.bytes) ∧
    (({ coll1 with seq := 1 } : CollOp).seq ≠ job1.seqs.getD 3 0) ∧
    (collS { coll1 with phase := 2 }).collOp 0 = some { coll1 with phase := 2 } ∧
    (let s := collS coll1
     s.stepOfColl 7 0 = some 7 ∧ (s.step1 7).any (fun st => st.reruns == 0 && st.status == 0) = true) ∧
    (let s : State := { collS coll1 with steps := [(7, { ctx := 5, started := true, job := some 7, reruns := 1 })] }
     (s.step1 7).any (fun st => decide (1 ≤ st.reruns)) = true) := by decide +kernel

theorem wit_CollectiveOperations_records :
    (let s := routed (collS coll1) 63 7 0
     s.linkIsUp 7 = true ∧ s.fenced = false ∧ (rec2 63).dst ≠ s.ownIndex ∧ s.route 63 = some 7 ∧ s.keg.silent = false) ∧
    (let s := kegS 3 { jobs := [(7, job1)] }
     (rec2 0).dst = s.ownIndex ∧ s.kegJob (rec2 0).job = some job1 ∧ (rec2 0).seq = job1.seqs.getD (rec2 0).die 0 ∧ s.keg.ops = [] ∧
       (rec2 0 1).seq ≠ job1.seqs.getD (rec2 0 1).die 0) := by decide +kernel

/-! ## Power, heat, management, start-up -/

def pwS (p : PwrSt) (s : State := rdy) : State := { s with pwr := p }
def shedS (p : PwrSt) : State := pwS p (rdy.wr pgPOWER F.PWR_STATUS_SHED 1)

theorem wit_SupplyAndGovernor :
    (rdy.pwr.standbyOff = false ∧ rdy.pwr.mainOff = false ∧ rdy.shedding = false ∧ rdy.pulled = false) ∧
    (let p : PwrSt := { lowClk := some 0, highClk := some 0, outClk := some 0 }
     p.lowClk = some 0 ∧ 0 + 100 * clkUs ≤ (pwS p).now ∧ p.lowTold = false ∧ p.highTold = false) ∧
    ((shedS {}).shedding = true ∧ (shedS {}).pulled = false ∧ (shedS {}).pwr.supShed = false ∧ (shedS { supShed := true, okClk := some 0 }).shedding = true ∧
      0 + 10 * clkMs ≤ rdy.now ∧ (shedS { supShed := true }).pwr.okClk = none) ∧
    (let s := pwS { sum := 128000000, n := 1 }
     s.pwr.n ≠ 0 ∧ s.rd pgPOWER F.PWR_IDLE_64 ≤ 63 ∧ s.pwr.avg + s.rd pgPOWER F.PWR_RAMP_W_PER_MS * 100000 < s.pwr.sum / s.pwr.n) ∧
    (let s := pwS { sum := 128000000, n := 1, avg := 128000000 }
     s.pwr.sum / s.pwr.n ≤ s.pwr.avg + s.rd pgPOWER F.PWR_RAMP_W_PER_MS * 100000 ∧ s.pwr.sum / s.pwr.n ≤ s.rd pgPOWER F.PWR_CEILING_W * 1000000 ∧
       (pwS {} (s.wr pgPOWER F.PWR_CEILING_W 100)).rd pgPOWER F.PWR_CEILING_W * 1000000 < s.pwr.sum / s.pwr.n) := by decide +kernel

def js1 (c : Int) : List Int := c :: List.replicate 49 40

theorem wit_HeatAndCaps :
    (let s := pwS { hot := [0] }
     ((0, (115 : Int)) ∈ s.junctions (js1 115)) ∧ hottest (s.junctions (js1 115)) = some (0, 115) ∧ s.rd pgTHERMAL F.THM_IDLE_64 ≤ 63 ∧
       (s.rd pgTHERMAL F.THM_THROTTLE_C : Int) ≤ 115 ∧ hottest (s.junctions (js1 50)) = some (0, 50) ∧ (50 : Int) ≤ (s.rd pgTHERMAL F.THM_THROTTLE_C : Int) - 3 ∧
       hottest (s.junctions (js1 ((s.rd pgTHERMAL F.THM_THROTTLE_C : Int) - 1))) = some (0, (s.rd pgTHERMAL F.THM_THROTTLE_C : Int) - 1)) ∧
    ((pwS { tripDue := true }).pwr.tripDue = true ∧ (pwS { tripDue := true }).pwr.mainOff = false ∧ 0 + clkS ≤ rdy.now ∧
      (pwS { warmClk := some 0 }).pwr.warmTold = false ∧ (pwS { coldClk := some 0 }).pwr.warmClk = none) ∧
    rdy.on pgTHERMAL F.THM_STATUS_ALERT_IN = false ∧
    (let s : State := { rdy.wr pgMGMT F.MGMT_HB_REQUIRED 1 with now := 2 ^ 50 }
     s.ready = true ∧ s.on pgMGMT F.MGMT_HB_REQUIRED = true ∧ s.on pgPOWER F.PWR_STATUS_ORPHAN = false ∧
       s.pwr.hbClk + s.rd pgMGMT F.MGMT_HB_LIMIT_S * clkS ≤ s.now) := by decide +kernel

theorem wit_ManagementAnswers :
    rdy.pwr.standbyOff = false ∧ rdy.keg.indexLocked = false ∧ (kegS 3 { indexLocked := true }).keg.indexLocked = true ∧
    (rdy.wr pgPOWER F.PWR_STATUS_ORPHAN 1).on pgPOWER F.PWR_STATUS_ORPHAN = true ∧ (pwS { told := rdy.sensorStates }).platformEvent = none ∧
    (pwS { told := [255, 255, 255, 255] }).platformEvent = some 0 ∧ (pldmCommands 2).contains 0x50 = false := by decide +kernel

def offS : State :=
  { pwS { mainOff := true, off := 4, contactClk := 0 } with start := { kind := 0 } }

theorem wit_PullsAndResets :
    (rdy.pwr.standbyOff = false ∧ rdy.pwr.earlyHigh = false ∧ rdy.pwr.mainOff = false ∧ (kegS 3 { jobs := [(2, job1)] }).kegJob 2 = some job1 ∧
      offS.pwr.mainOff = true ∧ (pwS { earlyHigh := true }).pwr.earlyHigh = true ∧ rdy.pwr.lateHigh = false) ∧
    (offS.mayStart = true ∧ offS.pwr.off = 4 ∧ offS.pwr.off ≤ 4) ∧
    (let s := pwS { earlyClk := some 0 } (rdy.wr pgPOWER F.PWR_STATUS_PULL 1)
     s.pulled = true ∧ s.pwr.mainOff = false ∧ s.pwr.earlyClk = some 0 ∧ 0 + 50 * clkMs ≤ s.now) ∧
    (({ rdy with start := { kind := 2, modLow := true } } : State).start.modLow = true) ∧
    (rdy.start.kind ≠ 1 ∧ rdy.start.kind ≠ 2 ∧ rdy.start.modLow = false ∧ rdy.ctxState 5 ≠ ctxFREE ∧ State.reset.start.kind = 1) ∧
    (({ rdy with start := { kind := 3 }, ctxs := { fast := [5] } } : State).start.kind = 3) := by decide +kernel

def bootS (n : Nat) (r : Bool := false) : State := { State.reset.wr pgMOD F.MOD_START_PHASE n with start := { recover := r }, now := 2 ^ 40 }

theorem wit_StartUp :
    (([1, 2, 3, 4, 5].all fun n => (bootS n).starting && (bootS n).startPhase == n && !(bootS n).start.late &&
      decide ((bootS n).start.phaseClk + phaseBound (bootS n).startPhase * clkMs < (bootS n).now)) = true ∧ (bootS 1 true).start.recover = true) ∧
    (let s := bootS 1
     let u := { s with gau := { s.gau with uidBlocked := true } }.checkSlots.useValid 0
     (u.fwSlot 0 (u.activeSlot 0)).state = 1) ∧
    (bootS 2).selectSlots.fw.recovery = false ∧
    (let s := rdy
     s.pwr.mainOff = false ∧ s.start.modLow = false ∧ s.start.noPcie = false ∧ s.on pgHOST F.HOST_LINK_UP = true ∧ s.start.kind ≠ 3 ∧ s.startPhase ≠ 1 ∧
       ({ s.wr pgMOD F.MOD_START_PHASE 1 with start := { kind := 2 } } : State).startPhase = 1) ∧
    (State.reset.hasUnit (pgDIE 3) = true) := by decide +kernel

theorem test_start_up_ready : okNext (exec (.startupPhaseEnd {}) (bootS 5)) (fun t => t.ready) = true ∧
    okNext (exec (.startupPhaseEnd { hubFail := true }) (bootS 1)) (fun t => t.start.noPcie && !t.linkUp) = true := by decide +kernel

theorem test_trip : okNext (exec .thermalTrip (pwS { tripDue := true } (mem1))) (fun t => t.lp.keys == [] && t.pwr.mainOff && t.pwr.off == 4) = true := by
  decide +kernel

end Sys2Proof.Tests
end

section
/-! PROOF. What raising an event, capturing a fault and counting the units in service leave alone. -/

namespace Sys2Proof

open Machine

/-! Nothing but registers, counters and messages changes -/

theorem quiet_refl (s : State) : Quiet s s := ⟨rfl, rfl⟩

theorem Quiet.trans {s t u : State} (h : Quiet s t) (k : Quiet t u) : Quiet s u := by
  obtain ⟨h1, h2⟩ := h
  obtain ⟨k1, k2⟩ := k
  exact ⟨k1.trans (by rw [h1]), k2.trans (by rw [h2])⟩

theorem Quiet.bist {s t : State} (h : Quiet s t) : t.bist = s.bist := by rw [h.1]
theorem Quiet.retired {s t : State} (h : Quiet s t) : t.retired = s.retired := by rw [h.1]
theorem Quiet.start {s t : State} (h : Quiet s t) : t.start = s.start := by rw [h.1]
theorem Quiet.lp {s t : State} (h : Quiet s t) : t.lp = s.lp := by rw [h.1]
theorem Quiet.floors {s t : State} (h : Quiet s t) : t.floors = s.floors := by rw [h.1]
theorem Quiet.tb {s t : State} (h : Quiet s t) : t.tb = s.tb := by rw [h.1]
theorem Quiet.steps {s t : State} (h : Quiet s t) : t.steps = s.steps := by rw [h.1]
theorem Quiet.now {s t : State} (h : Quiet s t) : t.now = s.now := by rw [h.1]
theorem Quiet.variant {s t : State} (h : Quiet s t) : t.variant = s.variant := by rw [h.1]

theorem Quiet.sameBytes {s t : State} (h : Quiet s t) : SameBytes s t := by
  have hm : t.host.mem = s.host.mem := by rw [h.2]
  refine ⟨fun a => ?_, fun a => ?_, fun a => ?_, fun a => ?_⟩
  · rw [show t.vstore = s.vstore by rw [h.1]]
  · rw [show t.fstore = s.fstore by rw [h.1]]
  · rw [h.lp]
  · rw [hm]

theorem Quiet.foldl {α : Type} {z : State} {g : State → α → State} (hg : ∀ t x, Quiet z t → Quiet z (g t x)) :
    ∀ (l : List α) {s : State}, Quiet z s → Quiet z (l.foldl g s)
  | [], _, h => h
  | x :: l, s, h => Quiet.foldl hg l (hg s x h)

theorem quiet_msix (s : State) (fn vec : Nat) : Quiet s (s.msix fn vec) := by
  unfold State.msix
  split
  · exact ⟨rfl, rfl⟩
  · split <;> exact ⟨rfl, rfl⟩

section
variable {z s : State}

theorem Quiet.wri (h : Quiet z s) (pg : Nat) (F : Field) (i v : Nat) : Quiet z (s.wri pg F i v) := h.trans ⟨rfl, rfl⟩

theorem Quiet.count (h : Quiet z s) (pg off n : Nat) : Quiet z (s.count pg off n) := h.trans ⟨rfl, rfl⟩

theorem Quiet.edges (h : Quiet z s) (s0 : State) : Quiet z (State.edges s0 s) := by
  unfold State.edges
  refine Quiet.foldl (fun t x ht => ?_) _ ?_
  · split
    · exact ht.trans (quiet_msix t x 0)
    · exact ht
  · split
    · exact h.trans (quiet_msix s 0 1)
    · exact h

theorem Quiet.raise (h : Quiet z s) (pg bit : Nat) : Quiet z (s.raise pg bit) := (h.wri _ _ _ _).edges s

theorem Quiet.capture (h : Quiet z s) (pg code loc : Nat) (ctx : Option Nat) : Quiet z (s.capture pg code loc ctx) := by
  unfold State.capture
  split
  · exact h.wri _ _ _ _
  · exact Quiet.raise (((((((h.wri _ _ _ _).wri _ _ _ _).wri _ _ _ _).wri _ _ _ _).wri _ _ _ _).wri _ _ _ _).wri _ _ _ _) _ _

theorem Quiet.recount (h : Quiet z s) : Quiet z s.recount := by
  have h1 : Quiet z (s.capabilities.foldl (fun t c => t.wr pgMOD c.1 c.2) s) := Quiet.foldl (fun t c ht => ht.wri _ _ _ _) _ h
  unfold State.recount
  extract_lets caps changed s1 s2 g s3
  have h3 : Quiet z s3 := by
    simp only [s3]
    split
    · exact (h1.wri _ _ _ _).wri _ _ _ _
    · exact Quiet.raise (((h1.wri _ _ _ _).wri _ _ _ _).wri _ _ _ _) _ _
  split
  · exact h3.raise _ _
  · exact h3

end

/-! Counters -/

/-- The one counter that a message moves. -/
abbrev msgCtr : Nat := pgINTAKE * 4096 + 0x064

theorem ctr_msix (s : State) (fn vec : Nat) {pg off : Nat} (h : pg * 4096 + off ≠ msgCtr) : (s.msix fn vec).ctr pg off = s.ctr pg off := by
  unfold State.msix
  split
  · rfl
  · split
    · exact State.ctr_count_ne _ 1 h
    · rfl

theorem ctr_foldl {α : Type} {g : State → α → State} {pg off : Nat} :
    ∀ (l : List α) (s : State), (∀ t x, (g t x).ctr pg off = t.ctr pg off) → (l.foldl g s).ctr pg off = s.ctr pg off
  | [], _, _ => rfl
  | x :: l, s, hg => (ctr_foldl l (g s x) hg).trans (hg s x)

theorem ctr_edges (s0 s : State) {pg off : Nat} (h : pg * 4096 + off ≠ msgCtr) : (State.edges s0 s).ctr pg off = s.ctr pg off := by
  unfold State.edges
  rw [ctr_foldl _ _ fun t x => by split <;> [exact ctr_msix t x 0 h; rfl]]
  split
  · exact ctr_msix s 0 1 h
  · rfl

theorem ctr_raise (s : State) (p bit : Nat) {pg off : Nat} (h : pg * 4096 + off ≠ msgCtr) : (s.raise p bit).ctr pg off = s.ctr pg off :=
  ctr_edges s _ h

theorem ctr_capture (s : State) (p code loc : Nat) (ctx : Option Nat) {pg off : Nat} (h : pg * 4096 + off ≠ msgCtr) :
    (s.capture p code loc ctx).ctr pg off = s.ctr pg off := by
  unfold State.capture
  split
  · exact State.ctr_wri _ _ _ _ _ _ _
  · rw [ctr_raise _ _ _ h]
    simp only [State.ctr_wri]

/-! Register fields -/

theorem rdi_foldl {α : Type} {g : State → α → State} {pg : Nat} {F : Field} {i : Nat} :
    ∀ (l : List α) (s : State), (∀ x ∈ l, ∀ t, (g t x).rdi pg F i = t.rdi pg F i) → (l.foldl g s).rdi pg F i = s.rdi pg F i
  | [], _, _ => rfl
  | x :: l, s, hg => (rdi_foldl l (g s x) fun y hy => hg y (List.mem_cons_of_mem _ hy)).trans (hg x (by simp) s)

/-- The fields that counting the units in service may write. -/
def recountKeys : List Nat :=
  ([F.MOD_DIE_SVC, F.MOD_CODEC_SVC, F.MOD_STREAM_CTX, F.MOD_KEG_SVC, F.MOD_VATS_SVC, F.MOD_TUNS_SVC, F.MOD_FLOORS_SVC, F.MOD_LPDDR_CH_SVC,
    F.MOD_MEM_USABLE_MIB, F.MOD_FLOOR_STORE_MIB, F.MOD_VAT_STORE_MIB, F.MOD_FIXED_SVC, F.MOD_SPILES, F.MOD_GRADE, F.EVT_RAW].map
      fun fd => fkey pgMOD fd 0) ++
    [F.BIST_COMPUTE, F.BIST_MEMORY, F.EVT_RAW].map fun fd => fkey pgBIST fd 0

theorem capabilities_key (s : State) {c : Field × Nat} (h : c ∈ s.capabilities) : fkey pgMOD c.1 0 ∈ recountKeys := by
  have hm : c.1 ∈ s.capabilities.map Prod.fst := List.mem_map.mpr ⟨c, h, rfl⟩
  simp only [State.capabilities, List.map_cons, List.map_nil, List.mem_cons, List.not_mem_nil, or_false] at hm
  rcases hm with e | e | e | e | e | e | e | e | e | e | e | e | e <;> rw [e] <;> decide

/-- Counting the units in service leaves every other field as it is. -/
theorem recount_regs (s : State) : RegsBut s s.recount recountKeys := by
  intro pg F0 i h
  have hne : ∀ {p : Nat} {fd : Field}, fkey p fd 0 ∈ recountKeys → fkey pg F0 i ≠ fkey p fd 0 := fun hk e => h (by rw [e]; exact hk)
  have h1 : (s.capabilities.foldl (fun t c => t.wr pgMOD c.1 c.2) s).rdi pg F0 i = s.rdi pg F0 i :=
    rdi_foldl _ s fun c hc t => State.rdi_wri_ne t c.2 (hne (capabilities_key s hc))
  unfold State.recount
  extract_lets caps changed s1 s2 g s3
  have h2 : s2.rdi pg F0 i = s.rdi pg F0 i := by
    rw [State.rdi_wri_ne _ _ (hne (by decide)), State.rdi_wri_ne _ _ (hne (by decide))]
    exact h1
  have h3 : s3.rdi pg F0 i = s.rdi pg F0 i := by
    refine Eq.trans (?_ : s3.rdi pg F0 i = s2.rdi pg F0 i) h2
    simp only [s3]
    split
    · rfl
    · rw [State.rdi_raise_ne _ (hne (by decide)), State.rdi_wri_ne _ _ (hne (by decide))]
  split
  · rw [State.rdi_raise_ne _ (hne (by decide)), h3]
  · exact h3

/-- A field of a page above those of the module and its self-test. -/
theorem rdi_recount_above (s : State) {pg : Nat} {F0 : Field} {i : Nat} (h : pgBIST < pg) : s.recount.rdi pg F0 i = s.rdi pg F0 i := by
  refine recount_regs s pg F0 i fun hk => ?_
  have hlt : ∀ k ∈ recountKeys, k < 6 * 131072 := by decide
  have hk := hlt _ hk
  have h : 5 < pg := h
  unfold fkey at hk
  omega

theorem ctr_recount (s : State) {pg off : Nat} (h : pg * 4096 + off ≠ msgCtr) : s.recount.ctr pg off = s.ctr pg off := by
  have h1 : (s.capabilities.foldl (fun t c => t.wr pgMOD c.1 c.2) s).ctr pg off = s.ctr pg off := 
    ctr_foldl _ s fun t c => State.ctr_wri t pgMOD c.1 0 c.2 pg off
  unfold State.recount
  extract_lets caps changed s1 s2 g s3
  have h2 : s2.ctr pg off = s.ctr pg off := by
    simp only [s2, State.ctr_wri]
    exact h1
  have h3 : s3.ctr pg off = s.ctr pg off := by
    simp only [s3]
    split
    · exact h2
    · rw [ctr_raise _ _ _ h, State.ctr_wri, h2]
  split
  · rw [ctr_raise _ _ _ h, h3]
  · exact h3

theorem recount_quiet (s : State) : Quiet s s.recount := (quiet_refl s).recount

end Sys2Proof
end

section
/-! PROOF. Period marks and slot edges: what the bookkeeping of a mark writes and leaves, and O27. -/

namespace Sys2Proof.Machine

/-! The last edge of a group (R73) -/

@[simp] theorem State.edgeNow_tb (s : State) (p : Step → Bool) : (s.edgeNow p).tb = s.tb := rfl
@[simp] theorem State.rdi_edgeNow (s : State) (p : Step → Bool) (pg : Nat) (F0 : Field) (i : Nat) : (s.edgeNow p).rdi pg F0 i = s.rdi pg F0 i := rfl
@[simp] theorem State.ctr_edgeNow (s : State) (p : Step → Bool) (pg off : Nat) : (s.edgeNow p).ctr pg off = s.ctr pg off := rfl

/-- A map over the entries that keeps the keys. -/
theorem mget_map {α : Type} {g : Nat × α → Nat × α} (hg : ∀ e, (g e).1 = e.1) (m : AMap α) (k : Nat) :
    mget (m.map g) k = (mget m k).map fun v => (g (k, v)).2 := by
  induction m with
  | nil => rfl
  | cons e m ih =>
    obtain ⟨j, v⟩ := e
    have hj : g (j, v) = (j, (g (j, v)).2) := Prod.ext (hg (j, v)) rfl
    rw [List.map_cons, hj]
    by_cases h : j = k
    · subst h
      simp [mget]
    · simpa [mget, h] using ih

/-- A step after `edgeNow` is the step of before, with its edge stamped where it was due. -/
theorem State.step1_edgeNow (s : State) (p : Step → Bool) (id : Nat) :
    (s.edgeNow p).step1 id =
      (s.step1 id).map fun st => if st.started && st.edgeClk.isNone && p st then { st with edgeClk := some s.now } else st := by
  unfold State.step1 State.edgeNow
  rw [mget_map fun e => by split <;> rfl]
  congr 1
  funext st
  split <;> rfl

/-- No started step is without its edge once all edges have fired. -/
theorem State.edgeClk_edgeNow_all (s : State) {id : Nat} {st : Step} (h : (s.edgeNow fun _ => true).step1 id = some st)
    (hst : st.started = true) : st.edgeClk.isSome = true := by
  rw [State.step1_edgeNow, Option.map_eq_some_iff] at h
  obtain ⟨st0, -, rfl⟩ := h
  split
  · rfl
  · next hne =>
    have hno : st0.edgeClk.isNone = false := by
      rw [if_neg hne] at hst
      simpa only [hst, Bool.true_and, Bool.and_true, Bool.not_eq_true] using hne
    cases he : st0.edgeClk with
    | none => rw [he] at hno; cases hno
    | some c => rfl

/-! Entering a state of the time base (R61) -/

@[simp] theorem State.tbEnter_tb (s : State) (st : TbState) (l : List Nat) : (s.tbEnter st l).tb = { s.tb with st := st } := by
  have key : ∀ (l : List Nat) (t : State), (l.foldl (fun t e => t.raise pgTBASE e) t).tb = t.tb := by
    intro l
    induction l with
    | nil => intro t; rfl
    | cons e l ih => intro t; rw [List.foldl_cons, ih, State.raise_tb]
  exact key l _

@[simp] theorem State.tbEnter_steps (s : State) (st : TbState) (l : List Nat) : (s.tbEnter st l).steps = s.steps := by
  have key : ∀ (l : List Nat) (t : State), (l.foldl (fun t e => t.raise pgTBASE e) t).steps = t.steps := by
    intro l
    induction l with
    | nil => intro t; rfl
    | cons e l ih => intro t; rw [List.foldl_cons, ih, State.raise_steps]
  exact key l _

theorem State.rdi_tbEnter_ne (s : State) (st : TbState) (l : List Nat) {pg : Nat} {F0 : Field} {i : Nat}
    (h : fkey pg F0 i ≠ fkey pgTBASE F.EVT_RAW 0) : (s.tbEnter st l).rdi pg F0 i = s.rdi pg F0 i := by
  have key : ∀ (l : List Nat) (t : State), (l.foldl (fun t e => t.raise pgTBASE e) t).rdi pg F0 i = t.rdi pg F0 i := by
    intro l
    induction l with
    | nil => intro t; rfl
    | cons e l ih => intro t; rw [List.foldl_cons, ih, State.rdi_raise_ne _ h]
  exact key l _

/-! The parts of a mark -/

theorem State.snapFirst_eq (s : State) (h : s.snapDue = false) : s.snapFirst = s := by
  simp [State.snapFirst, h]

@[simp] theorem State.showC0_tb (s : State) : s.showC0.tb = s.tb := rfl
@[simp] theorem State.ctr_showC0 (s : State) (pg off : Nat) : s.showC0.ctr pg off = s.ctr pg off := rfl

theorem State.rdi_showC0_ne (s : State) {pg : Nat} {F0 : Field} {i : Nat} (h : fkey pg F0 i ≠ fkey pgPOWER F.PWR_STATUS_C0_OK 0) :
    s.showC0.rdi pg F0 i = s.rdi pg F0 i := State.rdi_wri_ne s _ h

@[simp] theorem State.takeSignal_tb (s : State) : s.takeSignal.tb = { s.tb with signalled := none, subMarks := 0 } := rfl

@[simp] theorem State.setPeriod_tb (s : State) (p t : Nat) : (s.setPeriod p t).tb = { s.tb with rate := (t * 65536, p), rem := 0 } := rfl

theorem State.beginPeriod_tb (s : State) (m : Nat) (clk : Option Nat) (per pidx : Nat) :
    (s.beginPeriod m clk per pidx).tb = { s.tb with
      markTick := m, markClk := clk, markWait := clk.getD s.now, lastMark := s.now, perTicks := per,
      nextMark := if s.markMode then (m + per) % 2 ^ 48 else s.nextCounted ((m + 1) % 2 ^ 48), adj := (0, 0), rem := 0, longMiss := false } := rfl

/-- The fields that the bookkeeping of a mark may write. -/
abbrev beginKeys : List Nat :=
  [fkey pgTBASE F.TBASE_SLOT 0, fkey pgTBASE F.TBASE_PERIOD_IDX 0, fkey pgPOWER F.PWR_STATUS_C0_THROTTLED 0, fkey pgPOWER F.PWR_STATUS_C0_OK 0]

theorem State.rdi_beginPeriod_ne (s : State) (m : Nat) (clk : Option Nat) (per pidx : Nat) {pg : Nat} {F0 : Field} {i : Nat}
    (h : fkey pg F0 i ∉ beginKeys) : (s.beginPeriod m clk per pidx).rdi pg F0 i = s.rdi pg F0 i := by
  simp only [beginKeys, List.mem_cons, List.not_mem_nil, or_false, not_or] at h
  obtain ⟨h1, h2, h3, h4⟩ := h
  unfold State.beginPeriod
  simp only [State.rdi_edgeNow]
  rw [State.rdi_showC0_ne _ h4, State.rdi_wri_ne _ _ h3, State.rdi_count, State.rdi_wri_ne _ _ h2, State.rdi_wri_ne _ _ h1]
  rfl

theorem State.slot_beginPeriod (s : State) (m : Nat) (clk : Option Nat) (per pidx : Nat) :
    (s.beginPeriod m clk per pidx).rd pgTBASE F.TBASE_SLOT = 0 := by
  unfold State.beginPeriod
  simp only [State.rdi_edgeNow]
  rw [State.rdi_showC0_ne _ (by decide), State.rdi_wri_ne _ _ (by decide), State.rdi_count, State.rdi_wri_ne _ _ (by decide), State.rdi_wri_self]
  rfl

theorem State.periodIdx_beginPeriod (s : State) (m : Nat) (clk : Option Nat) (per pidx : Nat) :
    (s.beginPeriod m clk per pidx).rd pgTBASE F.TBASE_PERIOD_IDX = pidx % 2 ^ 24 := by
  unfold State.beginPeriod
  simp only [State.rdi_edgeNow]
  rw [State.rdi_showC0_ne _ (by decide), State.rdi_wri_ne _ _ (by decide), State.rdi_count, State.rdi_wri_self]
  rfl

/-- The mark is counted. -/
theorem State.ctr_beginPeriod (s : State) (m : Nat) (clk : Option Nat) (per pidx : Nat) :
    (s.beginPeriod m clk per pidx).ctr pgTBASE 0x060 = s.ctr pgTBASE 0x060 + 1 := by
  unfold State.beginPeriod
  rw [State.ctr_edgeNow, State.ctr_showC0, State.ctr_wri, State.ctr_count_self, State.ctr_wri, State.ctr_wri]
  rfl

theorem State.edgeClk_beginPeriod (s : State) (m : Nat) (clk : Option Nat) (per pidx : Nat) {id : Nat} {st : Step}
    (h : (s.beginPeriod m clk per pidx).step1 id = some st) (hst : st.started = true) : st.edgeClk.isSome = true :=
  State.edgeClk_edgeNow_all _ h hst

end Sys2Proof.Machine

namespace Sys2Proof

open Machine

/-! ## PERIOD_MARK (R61, R63) -/

theorem raised_tbEnter {s : State} {bit : Nat} (st : TbState) (l : List Nat) (hb : bit < 32) (h : Raised s pgTBASE bit) :
    Raised (s.tbEnter st l) pgTBASE bit := by
  have key : ∀ (l : List Nat) (t : State), Raised t pgTBASE bit → Raised (l.foldl (fun t e => t.raise pgTBASE e) t) pgTBASE bit := by
    intro l
    induction l with
    | nil => exact fun t ht => ht
    | cons e l ih => exact fun t ht => ih _ (raised_mono pgTBASE e hb ht)
  exact key l _ h

/-- The first mark of an acquisition only starts the measurement. -/
theorem markAcquiring_first (plan : List GroupPlan) (inp : IntakeIn) (s : State) (m clk pidx : Nat) (hsn : s.snapDue = false)
    (hc : s.tb.markClk = none) : s.markAcquiring plan inp m clk pidx = { s.takeSignal with tb := { s.takeSignal.tb with
      markTick := m, markClk := some clk, longMiss := false, lockRun := 0,
      nextMark := if s.markMode then (m + s.ticksTo m) % 2 ^ 48 else s.nextCounted ((m + 1) % 2 ^ 48) } } := by
  unfold State.markAcquiring
  rw [State.snapFirst_eq s hsn]
  simp only [hc]

theorem periodMark_acquiring_first (plan : List GroupPlan) (inp : IntakeIn) (s : State) {m clk pidx : Nat} (hd : s.dueMark = some (m, clk, pidx))
    (hsn : s.snapDue = false) (hst : s.tb.st = .acquiring) (hc : s.tb.markClk = none) :
    ∃ t, exec (.periodMark plan inp) s = .next t ∧ t.tb.st = .acquiring ∧ t.tb.markTick = m ∧ t.tb.markClk = some clk ∧ t.tb.lockRun = 0 ∧
      t.tb.signalled = none ∧ t.rd pgTBASE F.TBASE_MISS_PERIODS = 0 ∧ t.steps = s.steps ∧ t = { s with regs := t.regs, tb := t.tb } := by
  refine ⟨s.markAcquiring plan inp m clk pidx, ?_, ?_⟩
  · change execPeriodMark plan inp s = _
    simp only [execPeriodMark, hst, hd]
  · rw [markAcquiring_first plan inp s m clk pidx hsn hc]
    exact ⟨hst, rfl, rfl, rfl, rfl, State.rdi_wri_self _ _ _ _ _, rfl, rfl⟩

/-! A mark in range -/

/-- The state in which the actions of a mark with a measured period of `p` clocks begin. -/
def measured (s : State) (m clk p per pidx : Nat) : State :=
  (({ s with tb := { s.tb with prevPeriod := p } } : State).setPeriod p per).beginPeriod m (some clk) per pidx

section
variable (s : State) (m clk p per pidx : Nat)

theorem measured_tb : (measured s m clk p per pidx).tb.st = s.tb.st ∧ (measured s m clk p per pidx).tb.markTick = m ∧
    (measured s m clk p per pidx).tb.markClk = some clk ∧ (measured s m clk p per pidx).tb.prevPeriod = p ∧
    (measured s m clk p per pidx).tb.rate = (per * 65536, p) := ⟨rfl, rfl, rfl, rfl, rfl⟩

theorem rdi_measured_ne {pg : Nat} {F0 : Field} {i : Nat}
    (h : fkey pg F0 i ∉ fkey pgTBASE F.TBASE_PERIOD_CLK 0 :: fkey pgTBASE F.TBASE_SLOT_CLK 0 :: beginKeys) :
    (measured s m clk p per pidx).rdi pg F0 i = s.rdi pg F0 i := by
  rw [List.mem_cons, List.mem_cons, not_or, not_or] at h
  obtain ⟨h1, h2, h3⟩ := h
  rw [measured, State.rdi_beginPeriod_ne _ _ _ _ _ h3]
  exact (State.rdi_wri_ne _ _ h2).trans (State.rdi_wri_ne _ _ h1)

theorem periodClk_measured : (measured s m clk p per pidx).rd pgTBASE F.TBASE_PERIOD_CLK = p % 2 ^ 23 := by
  rw [State.rd, measured, State.rdi_beginPeriod_ne _ _ _ _ _ (by decide)]
  exact (State.rdi_wri_ne _ _ (by decide)).trans (State.rdi_wri_self _ _ _ _ _)

theorem slotClk_measured : (measured s m clk p per pidx).rd pgTBASE F.TBASE_SLOT_CLK = p / 64 % 2 ^ 17 := by
  rw [State.rd, measured, State.rdi_beginPeriod_ne _ _ _ _ _ (by decide)]
  exact State.rdi_wri_self _ _ _ _ _

theorem ctr_measured : (measured s m clk p per pidx).ctr pgTBASE 0x060 = s.ctr pgTBASE 0x060 + 1 := by
  rw [measured, State.ctr_beginPeriod]
  rfl

end

/-- The signal of a mark is taken; a period off by more than the tolerance is told. -/
def judged (s : State) (p : Nat) : State :=
  if s.withinTol p s.tb.prevPeriod then s.takeSignal else s.takeSignal.raise pgTBASE 11

theorem judged_tb (s : State) (p : Nat) : (judged s p).tb = s.takeSignal.tb := by
  unfold judged
  split
  · rfl
  · exact State.raise_tb _ _ _

theorem ctr_judged (s : State) (p : Nat) : (judged s p).ctr pgTBASE 0x060 = s.ctr pgTBASE 0x060 := by
  unfold judged
  split
  · rfl
  · exact ctr_raise s.takeSignal _ _ (by decide)

theorem raised_judged (s : State) {p : Nat} (h : s.withinTol p s.tb.prevPeriod = false) : Raised (judged s p) pgTBASE 11 := by
  rw [judged, h]
  exact raised_raise _ _ _ (by decide)

theorem periodInRange_iff (p : Nat) : periodInRange p = true ↔ 80000 ≤ p ∧ p ≤ 6400000 := by
  simp [periodInRange]

theorem markLocked_in_range (plan : List GroupPlan) (inp : IntakeIn) (s : State) (m clk : Nat) {c0 : Nat} (hsn : s.snapDue = false)
    (hc : s.tb.markClk = some c0) (hp : periodInRange (clk - c0) = true) : s.markLocked plan inp m clk =
      (measured (judged s (clk - c0)) m clk (clk - c0) (s.ticksTo m) (s.nextIdx m)).markActions allClasses plan inp := by
  unfold State.markLocked
  rw [State.snapFirst_eq s hsn]
  simp only [hc, hp, Bool.not_true, Bool.false_eq_true, if_false]
  rfl

theorem periodMark_locked_in_range (plan : List GroupPlan) (inp : IntakeIn) (s : State) {m clk pidx c0 : Nat}
    (hd : s.dueMark = some (m, clk, pidx)) (hsn : s.snapDue = false) (hst : s.tb.st = .locked) (hc : s.tb.markClk = some c0)
    (hlo : 80000 ≤ clk - c0) (hhi : clk - c0 ≤ 6400000) :
    ∃ u : State, exec (.periodMark plan inp) s = .next (u.markActions allClasses plan inp) ∧ u.tb.st = .locked ∧ u.tb.markTick = m ∧
      u.tb.markClk = some clk ∧ u.tb.prevPeriod = clk - c0 ∧ u.tb.rate = (s.ticksTo m * 65536, clk - c0) ∧
      u.rd pgTBASE F.TBASE_PERIOD_CLK = clk - c0 ∧ u.rd pgTBASE F.TBASE_SLOT_CLK = (clk - c0) / 64 ∧ u.rd pgTBASE F.TBASE_SLOT = 0 ∧
      u.rd pgTBASE F.TBASE_PERIOD_IDX = s.nextIdx m % 2 ^ 24 ∧ u.ctr pgTBASE 0x060 = s.ctr pgTBASE 0x060 + 1 ∧
      (s.withinTol (clk - c0) s.tb.prevPeriod = false → Raised u pgTBASE 11) ∧
      (∀ id st, u.step1 id = some st → st.started = true → st.edgeClk.isSome = true) := by
  have hm := markLocked_in_range plan inp s m clk hsn hc ((periodInRange_iff _).mpr ⟨hlo, hhi⟩)
  obtain ⟨h1, h2, h3, h4, h5⟩ := measured_tb (judged s (clk - c0)) m clk (clk - c0) (s.ticksTo m) (s.nextIdx m)
  refine ⟨measured (judged s (clk - c0)) m clk (clk - c0) (s.ticksTo m) (s.nextIdx m), ?_, ?_, h2, h3, h4, h5, ?_, ?_, ?_, ?_, ?_, ?_, ?_⟩
  · change execPeriodMark plan inp s = _
    simp only [execPeriodMark, hst, hd]
    rw [hm]
  · rw [h1, judged_tb]
    exact hst
  · rw [periodClk_measured, Nat.mod_eq_of_lt (by omega)]
  · rw [slotClk_measured, Nat.mod_eq_of_lt (by omega)]
  · exact State.slot_beginPeriod _ _ _ _ _
  · exact State.periodIdx_beginPeriod _ _ _ _ _
  · rw [ctr_measured, ctr_judged]
  · intro h
    rw [Raised, State.rd, rdi_measured_ne _ _ _ _ _ _ (by decide)]
    exact raised_judged s h
  · exact fun id st h hs => State.edgeClk_beginPeriod _ _ _ _ _ h hs

/-! A mark out of range -/

/-- The state in which a mark out of range is told. -/
def markOut (s : State) (m clk c0 : Nat) : State :=
  { s.takeSignal with tb := { s.takeSignal.tb with
      markTick := m, markClk := some clk, lockRun := 0, prevPeriod := clk - c0, longMiss := false, adj := (0, 0), rem := 0,
      nextMark := if s.markMode then (m + s.ticksTo m) % 2 ^ 48 else s.nextCounted ((m + 1) % 2 ^ 48) } }

theorem markLocked_out_of_range (plan : List GroupPlan) (inp : IntakeIn) (s : State) (m clk : Nat) {c0 : Nat} (hsn : s.snapDue = false)
    (hc : s.tb.markClk = some c0) (hp : periodInRange (clk - c0) = false) :
    s.markLocked plan inp m clk = ((markOut s m clk c0).raise pgTBASE 12).tbEnter .acquiring [1] := by
  unfold State.markLocked
  rw [State.snapFirst_eq s hsn]
  simp only [hc, hp, Bool.not_false, if_true]
  rfl

theorem periodMark_locked_out_of_range (plan : List GroupPlan) (inp : IntakeIn) (s : State) {m clk pidx c0 : Nat}
    (hd : s.dueMark = some (m, clk, pidx)) (hsn : s.snapDue = false) (hst : s.tb.st = .locked) (hc : s.tb.markClk = some c0)
    (hr : clk - c0 < 80000 ∨ 6400000 < clk - c0) :
    ∃ t, exec (.periodMark plan inp) s = .next t ∧ t.tb.st = .acquiring ∧ t.tb.lockRun = 0 ∧ Raised t pgTBASE 12 ∧ Raised t pgTBASE 1 ∧
      t.rd pgTBASE F.TBASE_PERIOD_CLK = s.rd pgTBASE F.TBASE_PERIOD_CLK ∧ t.steps = s.steps := by
  have hp : periodInRange (clk - c0) = false := by
    rw [← Bool.not_eq_true, periodInRange_iff]
    omega
  have hm := markLocked_out_of_range plan inp s m clk hsn hc hp
  refine ⟨((markOut s m clk c0).raise pgTBASE 12).tbEnter .acquiring [1], ?_, ?_, ?_, ?_, ?_, ?_, ?_⟩
  · change execPeriodMark plan inp s = _
    simp only [execPeriodMark, hst, hd]
    rw [hm]
  · rw [State.tbEnter_tb]
  · rw [State.tbEnter_tb, State.raise_tb]
    rfl
  · exact raised_tbEnter _ _ (by decide) (raised_raise _ _ _ (by decide))
  · rw [State.tbEnter, List.foldl_cons, List.foldl_nil]
    exact raised_raise _ _ _ (by decide)
  · rw [State.rd, State.rdi_tbEnter_ne _ _ _ (by decide), State.rdi_raise_ne _ (by decide)]
    exact State.rdi_wri_ne _ _ (by decide)
  · rw [State.tbEnter_steps, State.raise_steps]
    rfl

/-! ## Marks that the module places itself (R66, R76, R78) -/

theorem regain_holdover (s : State) (h : s.tb.st = .holdover) : s.regain = (s, false) := by
  unfold State.regain
  split
  · rw [if_neg (by simp [h])]
  · rfl

/-- The state in which a mark of a holdover is placed. -/
def flyMarkAt (s : State) : State :=
  let s1 := s.wr pgTBASE F.TBASE_MISS_PERIODS (s.rd pgTBASE F.TBASE_MISS_PERIODS + 1)
  s1.beginPeriod s.tb.nextMark none s.tb.perTicks (s1.nextIdx s.tb.nextMark)

theorem tickFlyMark_holdover (plan : List GroupPlan) (inp : IntakeIn) (s : State) (hsn : s.snapDue = false) (hst : s.tb.st = .holdover)
    (hf : s.flyDue = true) (hn : s.rd pgTBASE F.TBASE_MISS_PERIODS < 3) :
    s.tickFlyMark plan inp = (flyMarkAt s).markActions allClasses plan inp := by
  have hmin : min 4 (s.rd pgTBASE F.TBASE_MISS_PERIODS + 1) = s.rd pgTBASE F.TBASE_MISS_PERIODS + 1 := by omega
  have hr := regain_holdover (s.wr pgTBASE F.TBASE_MISS_PERIODS (s.rd pgTBASE F.TBASE_MISS_PERIODS + 1)) hst
  unfold State.tickFlyMark
  have h4 : ¬(s.tb.st = .holdover ∧ s.rd pgTBASE F.TBASE_MISS_PERIODS + 1 = 4) := by omega
  rw [State.snapFirst_eq s hsn]
  simp only [hmin, hf, Bool.not_true, Bool.false_eq_true, if_false, h4, hr]
  rfl

theorem flywheelMark_holdover (plan : List GroupPlan) (inp : IntakeIn) (s : State) (hsn : s.snapDue = false) (hst : s.tb.st = .holdover)
    (hf : s.flyDue = true) (hn : s.rd pgTBASE F.TBASE_MISS_PERIODS < 3) :
    ∃ u : State, exec (.flywheelMark plan inp) s = .next (u.markActions allClasses plan inp) ∧ u.tb.st = .holdover ∧ u.tb.markTick = s.tb.nextMark ∧
      u.tb.markClk = none ∧ u.tb.rate = s.tb.rate ∧ u.rd pgTBASE F.TBASE_MISS_PERIODS = s.rd pgTBASE F.TBASE_MISS_PERIODS + 1 ∧
      u.rd pgTBASE F.TBASE_SLOT = 0 ∧ u.rd pgTBASE F.TBASE_PERIOD_CLK = s.rd pgTBASE F.TBASE_PERIOD_CLK ∧
      u.ctr pgTBASE 0x060 = s.ctr pgTBASE 0x060 + 1 := by
  refine ⟨flyMarkAt s, ?_, hst, rfl, rfl, rfl, ?_, State.slot_beginPeriod _ _ _ _ _, ?_, State.ctr_beginPeriod _ _ _ _ _⟩
  · change execFlywheelMark plan inp s = _
    simp only [execFlywheelMark, hst]
    rw [tickFlyMark_holdover plan inp s hsn hst hf hn]
  · rw [flyMarkAt, State.rd, State.rdi_beginPeriod_ne _ _ _ _ _ (by decide), State.rdi_wri_self]
    exact Nat.mod_eq_of_lt (by change _ < 8; omega)
  · rw [flyMarkAt, State.rd, State.rdi_beginPeriod_ne _ _ _ _ _ (by decide)]
    exact State.rdi_wri_ne _ _ (by decide)

/-- The state in which a mark of the flywheel of a stall is placed. -/
def stallMarkAt (s : State) : State :=
  let s1 := s.edgeNow s.flyStep
  let s2 := { s1 with tb := { s1.tb with flyMark := s.tb.flyNext, flyNext := s.tb.flyNext + s.periodClk, flySlot := 0, lastMark := s.now } }
  ((s2.count pgTBASE 0x060 1).wr pgPOWER F.PWR_STATUS_C0_THROTTLED 0).showC0

theorem rdi_stallMarkAt_ne (s : State) {pg : Nat} {F0 : Field} {i : Nat} (h1 : fkey pg F0 i ≠ fkey pgPOWER F.PWR_STATUS_C0_OK 0)
    (h2 : fkey pg F0 i ≠ fkey pgPOWER F.PWR_STATUS_C0_THROTTLED 0) : (stallMarkAt s).rdi pg F0 i = s.rdi pg F0 i := by
  rw [stallMarkAt, State.rdi_showC0_ne _ h1, State.rdi_wri_ne _ _ h2]
  rfl

theorem flywheelMark_stall (plan : List GroupPlan) (inp : IntakeIn) (s : State) (hst : s.tb.st = .stallFly) (hf : s.tb.flyNext ≤ s.now) :
    ∃ u : State, exec (.flywheelMark plan inp) s = .next (u.markActions s.flyClasses plan inp) ∧
      u.tb = { s.tb with flyMark := s.tb.flyNext, flyNext := s.tb.flyNext + s.rd pgTBASE F.TBASE_PERIOD_CLK, flySlot := 0, lastMark := s.now } ∧
      u.rd pgTBASE F.TBASE_SLOT = s.rd pgTBASE F.TBASE_SLOT ∧ u.rd pgTBASE F.TBASE_PERIOD_IDX = s.rd pgTBASE F.TBASE_PERIOD_IDX ∧
      u.ctr pgTBASE 0x060 = s.ctr pgTBASE 0x060 + 1 := by
  refine ⟨stallMarkAt s, ?_, rfl, rdi_stallMarkAt_ne s (by decide) (by decide), rdi_stallMarkAt_ne s (by decide) (by decide), ?_⟩
  · change execFlywheelMark plan inp s = _
    simp only [execFlywheelMark, hst, State.stallFlyMark]
    rw [if_neg (by omega)]
    rfl
  · rw [stallMarkAt, State.ctr_showC0, State.ctr_wri, State.ctr_count_self]
    rfl

/-- The state in which a substitute mark is placed. -/
def lostMarkAt (s : State) : State :=
  (({ s with tb := { s.tb with subMarks := s.tb.subMarks + 1 } }.wr pgTBASE F.TBASE_MISS_PERIODS (s.tb.subMarks + 1)).raise pgTBASE 20).beginPeriod
    s.tick none s.tb.perTicks (s.nextIdx s.tick)

theorem markLost_locked (plan : List GroupPlan) (inp : IntakeIn) (s : State) (hsn : s.snapDue = false) (hst : s.tb.st = .locked)
    (hn : s.tb.subMarks < 3) (hd : s.markLostDue = true) :
    ∃ u : State, exec (.markLost plan inp) s = .next (u.markActions allClasses plan inp) ∧ u.tb.st = .locked ∧ u.tb.subMarks = s.tb.subMarks + 1 ∧
      u.tb.markTick = s.tick ∧ u.tb.markClk = none ∧ u.rd pgTBASE F.TBASE_MISS_PERIODS = s.tb.subMarks + 1 ∧
      u.rd pgTBASE F.TBASE_SLOT = 0 ∧ Raised u pgTBASE 20 := by
  have hmin : min 4 (s.tb.subMarks + 1) = s.tb.subMarks + 1 := by omega
  refine ⟨lostMarkAt s, ?_, ?_, ?_, rfl, rfl, ?_, State.slot_beginPeriod _ _ _ _ _, ?_⟩
  · change execMarkLost plan inp s = _
    unfold execMarkLost
    have h4 : ¬(s.tb.subMarks + 1 = 4 ∧ s.tb.st = .locked) := by omega
    have hopen : ¬(¬(s.tb.st = .locked ∨ s.tb.st = .freeRun ∧ s.tb.subMarks = 3) ∨ s.markLostDue = false) := by simp [hst, hd]
    rw [State.snapFirst_eq s hsn, hmin, if_neg hopen]
    simp only [h4, if_false]
    rfl
  · rw [lostMarkAt, State.beginPeriod_tb, State.raise_tb]
    exact hst
  · rw [lostMarkAt, State.beginPeriod_tb, State.raise_tb]
    rfl
  · rw [lostMarkAt, State.rd, State.rdi_beginPeriod_ne _ _ _ _ _ (by decide), State.rdi_raise_ne _ (by decide), State.rdi_wri_self]
    exact Nat.mod_eq_of_lt (by change _ < 8; omega)
  · rw [lostMarkAt, Raised, State.rd, State.rdi_beginPeriod_ne _ _ _ _ _ (by decide)]
    exact raised_raise _ _ _ (by decide)

/-! ## Slot edges (R28, R64) -/

/-- The state in which the slot that an edge on the tick begins is read. -/
def slotAt (s : State) (k : Nat) : State := (s.wr pgTBASE F.TBASE_SLOT k).edgeNow fun st => decide (st.start + st.glen ≤ k)

theorem edgeDue_le {s : State} {k : Nat} (h : s.edgeDue k = true) : k ≤ 63 := by
  unfold State.edgeDue at h
  rw [Bool.and_eq_true, Bool.and_eq_true] at h
  obtain ⟨⟨h1, -⟩, -⟩ := h
  exact of_decide_eq_true h1

theorem slotEdge_tick (inp : IntakeIn) (s : State) {k : Nat} (hk : k = s.rd pgTBASE F.TBASE_SLOT + 1)
    (hst : s.tb.st = .locked ∨ s.tb.st = .holdover ∨ s.tb.st = .freeRun) (hd : s.edgeDue k = true) :
    ∃ u : State, u.rd pgTBASE F.TBASE_SLOT = k ∧ RegsBut s u [fkey pgTBASE F.TBASE_SLOT 0] ∧ u = { s with regs := u.regs, steps := u.steps } ∧
      (k ≠ 63 → exec (.slotEdge inp) s = .next (((u.ringReads [0] inp).publishIdle).startGroups allClasses k)) ∧
      (k = 63 → exec (.slotEdge inp) s = .next (((u.latchHandover.ringReads [0] inp).publishIdle).startGroups allClasses 63)) := by
  have hle := edgeDue_le hd
  have hexec : exec (.slotEdge inp) s = .next ((((if k = 63 then (slotAt s k).latchHandover else slotAt s k).ringReads [0] inp).publishIdle).startGroups
      allClasses k) := by
    have htick : exec (.slotEdge inp) s = .next (s.tickEdge inp) := by
      change execSlotEdge inp s = _
      rcases hst with h | h | h <;> simp only [execSlotEdge, h]
    rw [htick, State.tickEdge, ← hk, hd]
    rfl
  refine ⟨slotAt s k, ?_, ?_, rfl, ?_, ?_⟩
  · exact (State.rdi_wri_self _ _ _ _ _).trans (Nat.mod_eq_of_lt (by change k < 64; omega))
  · exact fun pg F0 i h => State.rdi_wri_ne _ _ (by simpa using h)
  · intro h
    rw [hexec, if_neg h]
  · intro h
    rw [hexec, if_pos h, h]

theorem slotEdge_stall (inp : IntakeIn) (s : State) {k : Nat} (hk : k = s.tb.flySlot + 1) (hst : s.tb.st = .stallFly) (hle : k ≤ 63)
    (hdue : s.tb.flyMark + k * s.rd pgTBASE F.TBASE_SLOT_CLK ≤ s.now) :
    ∃ u : State, u.tb = { s.tb with flySlot := k } ∧ u = { s with tb := u.tb, steps := u.steps } ∧
      exec (.slotEdge inp) s = .next ((u.publishIdle).startGroups s.flyClasses k) := by
  refine ⟨{ s with tb := { s.tb with flySlot := k } }.edgeNow fun (st : Step) => s.flyStep st && decide (st.start + st.glen ≤ k), rfl, rfl, ?_⟩
  change execSlotEdge inp s = _
  simp only [execSlotEdge, hst, State.flyEdge]
  have hno : ¬(63 < k ∨ s.now < s.tb.flyMark + k * s.slotClk) := by
    unfold State.slotClk
    omega
  rw [← hk, if_neg hno]

/-- Settles O27, one lemma for each kind of mark and of edge. -/
theorem marksAndEdges : Obligations.MarksAndEdges := by
  refine ⟨fun plan inp s m clk pidx hd hsn => ⟨?_, ?_, ?_⟩, fun plan inp s hsn => ⟨?_, ?_, ?_⟩, fun inp s k => ⟨?_, ?_⟩⟩
  · exact periodMark_acquiring_first plan inp s hd hsn
  · exact fun c0 => periodMark_locked_in_range plan inp s hd hsn
  · exact fun c0 => periodMark_locked_out_of_range plan inp s hd hsn
  · exact flywheelMark_holdover plan inp s hsn
  · exact flywheelMark_stall plan inp s
  · exact markLost_locked plan inp s hsn
  · exact slotEdge_tick inp s
  · exact slotEdge_stall inp s

end Sys2Proof
end

section
/-! PROOF. What happens to the module leaves latched events latched and retired units retired, whatever unit fails: the preorder `Onward`, kept by every
operation that ends steps and retires units. -/

namespace Sys2Proof

-- Reading the default of an argument (`:= by decide` below) waits for every proof before it, so proofs that run side by side would each hold a
-- thread: this file and those that use `Onward` elaborate theirs in turn.
set_option Elab.async false

open Machine

/-- The counter of proven faults of the self-test page. -/
abbrev faultOff : Nat := 0x05C

/-- From `s` to `t` the events latched in page `p` stay latched and retired units stay retired; the faults proven by self-test and the ring links that
failed are the same. -/
structure Onward (p : Nat) (s t : State) : Prop where
  events : ∀ bit, bit < 32 → Raised s p bit → Raised t p bit
  retired : ∀ pg, nget s.retired pg ≠ 0 → nget t.retired pg ≠ 0
  faults : t.ctr pgBIST faultOff = s.ctr pgBIST faultOff
  ringBad : t.bist.ringBad = s.bist.ringBad

/-- Entry `i` of the field lies behind `EVT_RAW` in its page. -/
def inPage (F : Field) (i : Nat) : Bool := decide (0x20 < F.off ∧ F.off + F.stride * i < 0x1000 ∧ F.lo < 32)

theorem Onward.refl (p : Nat) (s : State) : Onward p s s := ⟨fun _ _ h => h, fun _ h => h, rfl, rfl⟩

theorem Onward.trans {p : Nat} {s t u : State} (h : Onward p s t) (k : Onward p t u) : Onward p s u :=
  ⟨fun b hb hr => k.events b hb (h.events b hb hr), fun pg hr => k.retired pg (h.retired pg hr), k.faults.trans h.faults, k.ringBad.trans h.ringBad⟩

theorem Onward.isRetired {p pg : Nat} {s t : State} (h : Onward p s t) (hr : s.isRetired pg = true) : t.isRetired pg = true := by
  have k := h.retired
  unfold State.isRetired at *
  simp only [Bool.or_eq_true, Bool.and_eq_true, bne_iff_ne] at *
  exact hr.imp (k _) fun hx => ⟨hx.1, hx.2.imp (k _) fun hy => ⟨hy.1, k _ hy.2⟩⟩

theorem raised_congr {s t : State} (h : t.regs = s.regs) {p bit : Nat} (hr : Raised s p bit) : Raised t p bit := by
  have e : ∀ v : Variant, frst v F.EVT_RAW 0 = 0 := fun v => by simp [frst, F.EVT_RAW]
  unfold Raised State.rd State.rdi at *
  rw [e] at *
  rwa [h]

theorem raised_wri {s : State} {p bit pg i v : Nat} {F0 : Field} (hk : fkey p F.EVT_RAW 0 ≠ fkey pg F0 i) (hr : Raised s p bit) :
    Raised (s.wri pg F0 i v) p bit := by
  unfold Raised State.rd at *
  rwa [State.rdi_wri_ne _ _ hk]

section
variable {p : Nat} {z s t : State}

/-! Parts of the state that it does not speak of -/

theorem Onward.of (h : Onward p z s) (e1 : t.regs = s.regs := by rfl) (e2 : t.ctrs = s.ctrs := by rfl) (e3 : t.retired = s.retired := by rfl)
    (e4 : t.bist.ringBad = s.bist.ringBad := by rfl) : Onward p z t :=
  h.trans ⟨fun _ _ hr => raised_congr e1 hr, fun _ hr => e3 ▸ hr, by unfold State.ctr; rw [e2], e4⟩

/-- A unit retired besides. -/
theorem Onward.retire (h : Onward p z s) (pg n : Nat) (hn : n ≠ 0 := by decide) (e1 : t.regs = s.regs := by rfl) (e2 : t.ctrs = s.ctrs := by rfl)
    (e3 : t.retired = nput s.retired pg n := by rfl) (e4 : t.bist.ringBad = s.bist.ringBad := by rfl) : Onward p z t := by
  refine h.trans ⟨fun _ _ hr => raised_congr e1 hr, fun q hr => ?_, by unfold State.ctr; rw [e2], e4⟩
  rw [e3]
  by_cases hq : q = pg
  · subst hq
    rw [nget, nput, ngetD_nputD_self]
    exact hn
  · rwa [nget, nput, ngetD_nputD_ne _ _ _ _ hq]

/-- A counter set, but that of the proven faults. -/
theorem Onward.setCtr {k n : Nat} (h : Onward p z s) (hk : k % 4096 ≠ faultOff) : Onward p z { s with ctrs := nput s.ctrs k n } :=
  h.trans ⟨fun _ _ hr => hr, fun _ hr => hr, ngetD_nputD_ne _ 0 0 _ (by unfold faultOff at *; omega), rfl⟩

theorem Onward.count {pg off n : Nat} (h : Onward p z s) (ho : off % 4096 ≠ faultOff := by decide) : Onward p z (s.count pg off n) :=
  h.setCtr (by omega)

theorem Onward.countAbove {pg off n : Nat} (h : Onward p z s) (hp : 5 < pg) : Onward p z (s.count pg off n) :=
  h.trans ⟨fun _ _ hr => hr, fun _ hr => hr, State.ctr_count_ne _ _ (by unfold faultOff pgBIST; omega), rfl⟩

/-! Control -/

theorem Onward.ite {c : Prop} [Decidable c] (h1 : Onward p z s) (h2 : Onward p z t) : Onward p z (if c then s else t) := by
  split <;> assumption

theorem Onward.foldl {α : Type} {g : State → α → State} {l : List α} {s : State} (h : Onward p z s)
    (hg : ∀ x ∈ l, ∀ t, Onward p z t → Onward p z (g t x)) : Onward p z (l.foldl g s) := by
  induction l generalizing s with
  | nil => exact h
  | cons x l ih => exact ih (hg x (by simp) s h) fun y hy => hg y (List.mem_cons_of_mem _ hy)

/-! Register fields and events -/

theorem Onward.wri {pg i v : Nat} {F0 : Field} (h : Onward p z s) (hF : inPage F0 i = true := by decide) : Onward p z (s.wri pg F0 i v) := by
  refine h.trans ⟨fun _ _ => raised_wri ?_, fun _ hr => hr, rfl, rfl⟩
  simp only [inPage, decide_eq_true_eq] at hF
  simp only [fkey, F.EVT_RAW]
  omega

/-- A write in a page above `p` that may run past its own page. -/
theorem Onward.wriAbove {pg i v : Nat} {F0 : Field} (h : Onward p z s) (hp : p < pg) : Onward p z (s.wri pg F0 i v) := by
  refine h.trans ⟨fun _ _ => raised_wri ?_, fun _ hr => hr, rfl, rfl⟩
  simp only [fkey, F.EVT_RAW]
  omega

theorem Onward.bump {pg d : Nat} {F0 : Field} (h : Onward p z s) (hF : inPage F0 0 = true := by decide) : Onward p z (s.bump pg F0 d) := h.wri hF

theorem onward_raise (s : State) (pg bit : Nat) : Onward p s (s.raise pg bit) :=
  ⟨fun _ hb hr => raised_mono pg bit hb hr, fun _ hr => by rwa [State.raise_retired], ctr_raise _ _ _ (by decide), by rw [State.raise_bist]⟩

theorem Onward.raise {pg bit : Nat} (h : Onward p z s) : Onward p z (s.raise pg bit) := h.trans (onward_raise s pg bit)

theorem Onward.capture {pg code loc : Nat} {ctx : Option Nat} (h : Onward p z s) : Onward p z (s.capture pg code loc ctx) := by
  unfold State.capture
  exact .ite h.wri h.wri.wri.wri.wri.wri.wri.wri.raise

/-! Context events -/

theorem inPage_cevRec {i : Nat} (h : i < 256) : inPage F.CEV_REC i = true := by
  refine decide_eq_true ⟨by decide, ?_, by decide⟩
  simp only [F.CEV_REC]
  omega

theorem Onward.ctxEvent {c bit st code q : Nat} (h : Onward p z s) : Onward p z (s.ctxEvent c bit st code q) := by
  unfold State.ctxEvent
  exact .ite h.raise.raise.count
    ((((h.wri (inPage_cevRec (by omega))).wri (inPage_cevRec (by omega))).wri (inPage_cevRec (by omega))).wri (inPage_cevRec (by omega))).wri.raise

theorem Onward.ctxCode {c bit st code : Nat} (h : Onward p z s) : Onward p z (s.ctxCode c bit st code) := h.of.ctxEvent
theorem Onward.ctxNote {c bit : Nat} (h : Onward p z s) : Onward p z (s.ctxNote c bit) := h.of.ctxCode
theorem Onward.ctxNoteQ {c bit q : Nat} (h : Onward p z s) : Onward p z (s.ctxNoteQ c bit q) := h.of.ctxEvent
theorem Onward.ctxStQ {c bit st q : Nat} (h : Onward p z s) : Onward p z (s.ctxStQ c bit st q) := h.of.ctxEvent
theorem Onward.segLost {c code die floor vat item : Nat} (h : Onward p z s) : Onward p z (s.segLost c code die floor vat item) := h.ctxEvent

theorem Onward.recount (h : Onward p z s) : Onward p z s.recount := by
  have h1 : Onward p z (s.capabilities.foldl (fun t c => t.wr pgMOD c.1 c.2) s) := by
    refine h.foldl fun c hc t ht => ht.wri ?_
    have hF : ∀ f ∈ s.capabilities.map Prod.fst, inPage f 0 = true := by
      simp only [State.capabilities, List.map_cons, List.map_nil, List.forall_mem_cons]
      decide
    exact hF c.1 (List.mem_map.mpr ⟨c, hc, rfl⟩)
  unfold State.recount
  extract_lets caps changed s1 s2 g s3
  have h3 : Onward p z s3 := .ite h1.wri.wri h1.wri.wri.wri.raise
  exact .ite h3.raise h3

/-! Steps and kernels end -/

theorem Onward.failStep {id st code : Nat} (h : Onward p z s) : Onward p z (s.failStep id st code) := h.of

theorem Onward.setVat {pg : Nat} {v : Vat} (h : Onward p z s) : Onward p z (s.setVat pg v) := h.of

theorem Onward.setFloor {pg : Nat} {f : FloorSt} (h : Onward p z s) : Onward p z (s.setFloor pg f) := h.of

theorem Onward.respond {fn tag st r : Nat} (h : Onward p z s) : Onward p z (s.respond fn tag st r) := h.of

theorem Onward.wake {done : WaitOn → Bool} {st : Nat} (h : Onward p z s) : Onward p z (s.wake done st) :=
  Onward.foldl h.of fun _ _ _ ht => ht.respond

theorem Onward.spSend {port c v : Nat} {op : SpOp} (h : Onward p z s) : Onward p z (s.spSend port c v op) := by
  unfold State.spSend
  split
  · exact h.of
  · exact h.ctxNoteQ.count

theorem Onward.showRun {pg : Nat} (h : Onward p z s) : Onward p z (s.showRun pg) := by
  unfold State.showRun
  split
  · exact h.wri.wri.wri.wri
  · exact h.wri.wri.wri

theorem Onward.showArmed {pg : Nat} (h : Onward p z s) : Onward p z (s.showArmed pg) := h.wri

theorem Onward.restore {pg : Nat} (h : Onward p z s) : Onward p z (s.restore pg) := by
  unfold State.restore
  dsimp only
  split
  · refine .ite h ?_
    split
    · refine Onward.spSend (.ite (Onward.setCtr ?_ (by unfold faultOff; omega)) ?_) <;> exact Onward.showRun (Onward.wri (Onward.setVat h.of))
    · refine .ite (Onward.setCtr ?_ (by unfold faultOff; omega)) ?_ <;> exact Onward.showRun (Onward.wri (Onward.setVat h.of))
  · exact h

theorem Onward.endKernel {pg : Nat} (h : Onward p z s) : Onward p z (s.endKernel pg) := by
  unfold State.endKernel
  split
  · exact h
  · extract_lets v s1 s2
    have h1 : Onward p z s1 := h.count.setVat
    have h2 : Onward p z s2 := by
      simp only [s2]
      split
      · exact h1.spSend
      · exact h1
    exact h2.showRun.restore

theorem Onward.failVatSteps {pg : Nat} (h : Onward p z s) : Onward p z (s.failVatSteps pg) := by
  unfold State.failVatSteps
  exact (Onward.foldl h fun _ _ _ ht => ht.failStep).setVat.endKernel.wri.showArmed

end

end Sys2Proof
end

section
/-! PROOF. Links, jobs, floors, dies and channels fail onward. -/

namespace Sys2Proof

set_option Elab.async false

open Machine

section
variable {p : Nat} {z s t : State}

/-! Jobs of keg links -/

theorem Onward.showJobs (h : Onward p z s) : Onward p z s.showJobs := by
  unfold State.showJobs
  exact (h.foldl fun _ _ _ ht => ht.wri).foldl fun _ _ _ ht => ht.wri.wri

theorem Onward.kegSend {l kind : Nat} {ws : List Nat} (h : Onward p z s) : Onward p z (s.kegSend l kind ws) := by
  unfold State.kegSend
  have h1 : Onward p z (s.count (pgKEG l) 0x04C 1) := h.count
  exact .ite h h1.of

theorem Onward.tellMembers {x : Job} {kind : Nat} {ws : List Nat} (h : Onward p z s) : Onward p z (s.tellMembers x kind ws) := by
  unfold State.tellMembers
  refine h.foldl fun m _ t ht => ?_
  split
  · exact ht.kegSend
  · exact ht

theorem Onward.dropOps {q : CollOp → Bool} (h : Onward p z s) : Onward p z (s.dropOps q) := h.of

theorem Onward.setKegJob {j : Nat} {x : Job} (h : Onward p z s) : Onward p z (s.setKegJob j x) := h.of

theorem Onward.setLink {l : Nat} {x : KegLink} (h : Onward p z s) : Onward p z (s.setLink l x) := h.of

theorem Onward.abortJob {j : Nat} {fence heard : Bool} (h : Onward p z s) : Onward p z (s.abortJob j fence heard) := by
  unfold State.abortJob
  split
  · exact h
  · next x _ =>
    refine .ite h ?_
    extract_lets st s1 s2 steps s3 s4 s5
    have h1 : Onward p z s1 := h.tellMembers
    have h2 : Onward p z s2 := h1.dropOps.setKegJob
    have h3 : Onward p z s3 := h2.foldl fun _ _ _ ht => ht.failStep
    have h4 : Onward p z s4 := .ite h3 h3.of.ctxCode
    have h5 : Onward p z s5 := h4.foldl fun _ _ _ ht => ht.raise.countAbove (by unfold pgCOL pgDIE; omega)
    exact Onward.showJobs (.ite h5 h5.count)

theorem Onward.abortJobs {q : Nat × Job → Bool} {fence : Bool} (h : Onward p z s) : Onward p z (s.abortJobs q fence) :=
  h.foldl fun _ _ _ ht => ht.abortJob

theorem inPage_cabRoute {m : Nat} (h : m ∈ List.range 64) : inPage F.CAB_ROUTE_VALID m = true ∧ inPage F.CAB_ROUTE_LINK m = true := by
  have := List.mem_range.mp h
  constructor <;> refine decide_eq_true ⟨by decide, ?_, by decide⟩
  · simp only [F.CAB_ROUTE_VALID]; omega
  · simp only [F.CAB_ROUTE_LINK]; omega

theorem Onward.linkFell {l : Nat} (h : Onward p z s) : Onward p z (s.linkFell l) := by
  unfold State.linkFell
  refine .ite h ?_
  extract_lets pg lost s1 link1 s2 s3 s4
  have hpg : 5 < pg := by simp only [pg, pgKEG, pgDIE]; omega
  have h1 : Onward p z s1 := (h.wri.wri.raise.countAbove hpg).bump
  have h3 : Onward p z s3 := h1.setLink.foldl fun _ _ _ ht => ht.abortJob
  have h4 : Onward p z s4 := h3.foldl fun m hm _ ht => .ite ((ht.wri (inPage_cabRoute hm).1).wri (inPage_cabRoute hm).2) ht
  exact h4.showJobs

/-! Units -/

theorem Onward.noteRetired (h : Onward p z s) : Onward p z s.noteRetired := h.raise.count

theorem Onward.markRetired {pg : Nat} (h : Onward p z s) : Onward p z (s.markRetired pg) := by
  unfold State.markRetired
  exact .ite h (Onward.noteRetired (h.retire pg 1))

theorem Onward.memLost {q : Nat → Bool} (h : Onward p z s) : Onward p z (s.memLost q) := h.foldl fun _ _ _ ht => ht.ctxStQ

theorem inPage_bankOwner {b : Nat} (h : b < 16) :
    inPage F.VAT_BANK_OWNER_VALID b = true ∧ inPage F.VAT_BANK_OWNER_PINNED b = true ∧ inPage F.VAT_BANK_OWNER_CLEARING b = true ∧
      inPage F.VAT_BANK_OWNER_RETIRED b = true ∧ inPage F.VAT_BANK_OWNER_CTX b = true := by
  have hb : 0x200 + 4 * b < 0x1000 := by omega
  exact ⟨decide_eq_true ⟨by decide, hb, by decide⟩, decide_eq_true ⟨by decide, hb, by decide⟩, decide_eq_true ⟨by decide, hb, by decide⟩,
    decide_eq_true ⟨by decide, hb, by decide⟩, decide_eq_true ⟨by decide, hb, by decide⟩⟩

theorem inPage_segOwner {g : Nat} (h : g < 32) :
    inPage F.FLOOR_SEG_OWNER_VALID g = true ∧ inPage F.FLOOR_SEG_OWNER_PINNED g = true ∧ inPage F.FLOOR_SEG_OWNER_CLEARING g = true ∧
      inPage F.FLOOR_SEG_OWNER_CTX g = true ∧ inPage F.FLOOR_SEG_PHYS g = true := by
  have hg : 0x300 + 4 * g < 0x1000 := by omega
  exact ⟨decide_eq_true ⟨by decide, hg, by decide⟩, decide_eq_true ⟨by decide, hg, by decide⟩, decide_eq_true ⟨by decide, hg, by decide⟩,
    decide_eq_true ⟨by decide, hg, by decide⟩, decide_eq_true ⟨by decide, (by omega : 0x280 + 4 * g < 0x1000), by decide⟩⟩

theorem Onward.clearTags {pg : Nat} (h : Onward p z s) : Onward p z (s.clearTags pg) := by
  refine h.foldl fun b hb t ht => ?_
  obtain ⟨h1, h2, h3, -, h5⟩ := inPage_bankOwner (List.mem_range.mp hb)
  exact (((ht.wri h1).wri h2).wri h3).wri h5

theorem Onward.setSegTag {fp g : Nat} {o : Option Nat} {pin : Bool} (h : Onward p z s) (hg : g < 32) : Onward p z (s.setSegTag fp g o pin) := by
  obtain ⟨h1, h2, h3, h4, -⟩ := inPage_segOwner hg
  exact (((h.wri h1).wri h4).wri h2).wri h3

theorem Onward.zeroSeg {fp g : Nat} (h : Onward p z s) : Onward p z (s.zeroSeg fp g) := h.of

theorem Onward.zeroStore {pg : Nat} (h : Onward p z s) : Onward p z (s.zeroStore pg) := h.of

theorem Onward.banksLost {pg L : Nat} {banks : List Nat} (h : Onward p z s) : Onward p z (s.banksLost pg L banks) :=
  h.foldl fun _ _ _ ht => .ite ht.segLost ht

theorem Onward.retireFloor {die f : Nat} (h : Onward p z s) : Onward p z (s.retireFloor die f) := by
  unfold State.retireFloor
  extract_lets fp s1 s2 s3 s4
  refine .ite h ?_
  have h1 : Onward p z s1 := h.foldl fun _ _ _ ht => ht.failVatSteps.banksLost.clearTags
  have h2 : Onward p z s2 := by
    refine h1.foldl fun g hg t ht => Onward.zeroSeg (Onward.setSegTag ?_ (List.mem_range.mp hg))
    split
    · exact ht.segLost
    · exact ht
  have h3 : Onward p z s3 := h2.foldl fun _ _ _ ht => ht.zeroStore
  exact h3.setFloor.wake.markRetired

theorem Onward.retireDie {n : Nat} (h : Onward p z s) : Onward p z (s.retireDie n) := by
  unfold State.retireDie
  refine .ite h ?_
  extract_lets s1 s2 s3 s4 hit s5 s6 s7 spl7 lp7 s8
  have h1 : Onward p z s1 := h.foldl fun _ _ _ ht => ht.linkFell.wri
  have h2 : Onward p z s2 := h1.foldl fun _ _ _ ht => ht.retireFloor
  have h4 : Onward p z s4 := h2.dropOps.abortJobs
  have h5 : Onward p z s5 := h4.foldl fun _ _ _ ht => ht.failStep
  have h7 : Onward p z s7 := h5.memLost.foldl fun _ _ _ ht => ht.wri
  clear_value s7
  have h8 : Onward p z s8 := h7.of
  exact h8.markRetired

theorem Onward.retireKeg {l : Nat} (h : Onward p z s) : Onward p z (s.retireKeg l) := by
  unfold State.retireKeg
  exact .ite h h.linkFell.wri.bump.markRetired

/-! Retiring a unit retires it -/

theorem isRetired_markRetired (s : State) (pg : Nat) : (s.markRetired pg).isRetired pg = true := by
  unfold State.markRetired
  split
  · assumption
  · refine (Onward.refl 0 _).noteRetired.isRetired ?_
    simp [State.isRetired, ngetD_nputD_self]

theorem isRetired_retireDie (s : State) (n : Nat) : (s.retireDie n).isRetired (pgDIE n) = true := by
  unfold State.retireDie
  split
  · assumption
  · exact isRetired_markRetired _ _

theorem isRetired_retireKeg (s : State) (l : Nat) : (s.retireKeg l).isRetired (pgKEG l) = true := by
  unfold State.retireKeg
  split
  · assumption
  · exact isRetired_markRetired _ _

end

end Sys2Proof
end

section
/-! PROOF. The phases of a start-up and what fails in them (O60). -/

namespace Sys2Proof

open Machine

/-! ## Entering a phase (R541) -/

theorem startPhase_enterPhase (s : State) {n : Nat} (h : n < 8) : (s.enterPhase n).startPhase = n := by
  refine (State.rdi_wri_self _ _ _ _ _).trans ?_
  exact Nat.mod_eq_of_lt h

/-- A phase begins in the clock in which it is entered. -/
theorem phaseClk_enterPhase (s : State) (n : Nat) : (s.enterPhase n).start.phaseClk = (s.enterPhase n).now := rfl

theorem rdi_enterPhase_ne (s : State) (n : Nat) {pg : Nat} {F0 : Field} {i : Nat} (h : fkey pg F0 i ≠ fkey pgMOD F.MOD_START_PHASE 0) :
    (s.enterPhase n).rdi pg F0 i = s.rdi pg F0 i := State.rdi_wri_ne _ _ h

/-- A step of the start-up that enters phase `n` from `s`. -/
theorem phase_of_enterPhase {s t u : State} {n : Nat} (ht : t = u.enterPhase n) (hk : Keeps s t) (hn : n < 8) :
    t.startPhase = n ∧ t.start.phaseClk = s.now := by
  constructor
  · rw [ht, startPhase_enterPhase u hn]
  · rw [← hk.now, ht, phaseClk_enterPhase]

/-! ## The phases -/

theorem linkUp_dropLink (s : State) : s.dropLink.linkUp = false := by
  unfold State.dropLink
  split
  · have h : ((((s.wr pgHOST F.HOST_LINK_UP 0).wr pgHOST F.HOST_LINK_SPEED 0).wr pgHOST F.HOST_LINK_WIDTH 0).raise pgHOST 0).on pgHOST
        F.HOST_LINK_UP = false := by
      rw [State.on, State.rdi_raise_ne _ (by decide), State.rdi_wri_ne _ _ (by decide), State.rdi_wri_ne _ _ (by decide), State.rdi_wri_self]
      rfl
    rw [State.linkUp, h]
    rfl
  · next h =>
    rw [State.linkUp, Bool.eq_false_iff.mpr h]
    rfl

theorem start_dropLink (s : State) : s.dropLink.start = s.start := by
  unfold State.dropLink
  split
  · exact State.raise_start _ _ _
  · rfl

theorem endRom_hubFail (s : State) {out : PhaseOut} (h : out.hubFail = true) :
    (s.endRom out).start.noPcie = true ∧ (s.endRom out).linkUp = false := by
  unfold State.endRom
  extract_lets s1
  rw [if_pos h]
  exact ⟨by rw [start_dropLink], linkUp_dropLink _⟩

theorem endRom_recover (s : State) {out : PhaseOut} (h : out.hubFail = false) (hr : s.start.recover = true) :
    (s.endRom out).fw.recovery = true := by
  unfold State.endRom
  extract_lets s1
  rw [if_neg (by rw [h]; decide), if_pos hr]
  rfl

theorem endRom_slot (s : State) {out : PhaseOut} {u : State} (h : out.hubFail = false) (hr : s.start.recover = false)
    (hu : u = ({ s with gau := { s.gau with uidBlocked := true } }.checkSlots.useValid 0)) (hs : (u.fwSlot 0 (u.activeSlot 0)).state = 1) :
    s.endRom out = u.enterPhase 2 := by
  have hs' : ¬(u.fwSlot 0 (u.activeSlot 0)).state ≠ 1 := not_not_intro hs
  unfold State.endRom
  simp only [h, hr, Bool.false_eq_true, if_false]
  rw [← hu, if_neg hs']

theorem endFirmware_eq (s : State) (h : s.selectSlots.fw.recovery = false) :
    s.endFirmware = (s.selectSlots.reserveTop.newAlias.lockPages.recount).enterPhase 3 := by
  unfold State.endFirmware
  extract_lets s1
  rw [if_neg (by rw [h]; decide)]

/-- The Gauger's locks of the management pages stay as they are to the end of the phase. -/
theorem locked_lockPages (s : State) {pg : Nat} (h : pg ∈ [pgMGMT, pgPOWER, pgTHERMAL]) :
    (s.lockPages.recount.enterPhase 3).on pg F.LOCK_GAUGER_LOCKED = true := by
  have hk : fkey pg F.LOCK_GAUGER_LOCKED 0 ≠ fkey pgMOD F.MOD_START_PHASE 0 ∧ fkey pg F.LOCK_GAUGER_LOCKED 0 ∉ recountKeys := by
    revert pg
    decide
  have hl : s.lockPages.rdi pg F.LOCK_GAUGER_LOCKED 0 = 1 := by
    simp only [List.mem_cons, List.not_mem_nil, or_false] at h
    unfold State.lockPages
    simp only [List.foldl_cons, List.foldl_nil]
    rcases h with rfl | rfl | rfl
    · rw [State.rdi_wri_ne _ _ (by decide), State.rdi_wri_ne _ _ (by decide), State.rdi_wri_self]
      rfl
    · rw [State.rdi_wri_ne _ _ (by decide), State.rdi_wri_self]
      rfl
    · rw [State.rdi_wri_self]
      rfl
  rw [State.on, rdi_enterPhase_ne _ _ hk.1, recount_regs _ _ _ _ hk.2, hl]
  rfl

/-! READY -/

theorem start_takeClaim (s : State) (u : Nat) : (s.takeClaim u).start = s.start := by
  unfold State.takeClaim State.modUnit State.setUnit
  simp only [State.wri_start]

theorem start_startCm (s : State) : s.startCm.start = s.start := by
  unfold State.startCm
  extract_lets s1 load s2
  have hload : ∀ (t : State) (u : Nat), (load t u).start = t.start := fun t u => by
    simp only [load]
    split
    · rfl
    · rfl
  have h2 : s2.start = s.start := (hload _ _).trans (hload _ _)
  split
  · rw [start_takeClaim, h2]
  · split
    · rw [start_takeClaim, h2]
    · exact h2

theorem start_foldl {α : Type} {g : State → α → State} (hg : ∀ t x, (g t x).start = t.start) (l : List α) (s : State) :
    (l.foldl g s).start = s.start := by
  induction l generalizing s with
  | nil => rfl
  | cons x l ih => rw [List.foldl_cons, ih, hg]

theorem start_loadLibrary (s : State) (loads : List (FloorId × LoadJob)) : (s.loadLibrary loads).start = s.start := by
  unfold State.loadLibrary
  refine start_foldl (fun t e => start_foldl (fun u L => ?_) _ _) _ _
  split
  · rfl
  · rfl

theorem startPhase_enterReady (s : State) : s.enterReady.rd pgMOD F.MOD_START_PHASE = 6 := by
  unfold State.enterReady
  rw [State.rd, State.rdi_raise_ne _ (by decide)]
  refine (State.rdi_wri_ne _ _ (by decide)).trans ?_
  exact startPhase_enterPhase s (by decide)

theorem startMs_enterReady (s : State) : s.enterReady.rd pgMOD F.MOD_START_MS = (s.now - s.start.startClk) / clkMs % 2 ^ 16 := by
  unfold State.enterReady
  rw [State.rd, State.rdi_raise_ne _ (by decide)]
  exact State.rdi_wri_self _ _ _ _ _

theorem start_enterReady (s : State) : s.enterReady.start.kind = 0 := by
  unfold State.enterReady
  rw [State.raise_start]

theorem raised_enterReady (s : State) : Raised s.enterReady pgMOD 2 := raised_raise _ _ _ (by decide)

/-- An activation that the reset undid is told at READY. -/
def tellUndone (s : State) : State := ({ s with fw := { s.fw with undone := false } }.raise pgGAU 11).count pgGAU 0x07C 1

theorem start_tellUndone (s : State) : (tellUndone s).start = s.start := by
  rw [tellUndone, State.count_start, State.raise_start]

theorem rdi_tellUndone_ne (s : State) {pg : Nat} {F0 : Field} {i : Nat} (h : fkey pg F0 i ≠ fkey pgGAU F.EVT_RAW 0) :
    (tellUndone s).rdi pg F0 i = s.rdi pg F0 i := by
  rw [tellUndone, State.rdi_count, State.rdi_raise_ne _ h]
  rfl

theorem raised_tellUndone {s : State} {pg bit : Nat} (hb : bit < 32) (h : Raised s pg bit) : Raised (tellUndone s) pg bit :=
  raised_mono (s := { s with fw := { s.fw with undone := false } }) pgGAU 11 hb h

/-- Phase CONTROL hands over to READY in a state with the clock and the start time of before. -/
theorem endControl_ready (s : State) (out : PhaseOut) : ∃ u : State, u.now = s.now ∧ u.start = s.start ∧
    (s.endControl out = u.enterReady ∨ s.endControl out = tellUndone u.enterReady) := by
  have hnow : (s.startCm.loadLibrary out.loads).now = s.now := (State.loadLibrary_keeps (State.startCm_keeps (Keeps.refl s))).now
  have hstart : (s.startCm.loadLibrary out.loads).start = s.start := by rw [start_loadLibrary, start_startCm]
  unfold State.endControl
  extract_lets s1 keg2 pwr2 bist2 s2 s3
  refine ⟨s2.wr pgBIST F.BIST_PASS_SLICES s2.passSlices, hnow, hstart, ?_⟩
  split
  · exact .inr rfl
  · exact .inl rfl

theorem endControl_done (s : State) (out : PhaseOut) : (s.endControl out).ready = true ∧ (s.endControl out).start.kind = 0 ∧
    Raised (s.endControl out) pgMOD 2 ∧ (s.endControl out).rd pgMOD F.MOD_START_MS = (s.now - s.start.startClk) / clkMs % 2 ^ 16 := by
  obtain ⟨u, hnow, hstart, he⟩ := endControl_ready s out
  have hms : u.enterReady.rd pgMOD F.MOD_START_MS = (s.now - s.start.startClk) / clkMs % 2 ^ 16 := by
    rw [startMs_enterReady, hnow, hstart]
  have hph : u.enterReady.ready = true := by
    rw [State.ready, startPhase_enterReady]
    rfl
  rcases he with he | he
  · rw [he]
    exact ⟨hph, start_enterReady u, raised_enterReady u, hms⟩
  · rw [he]
    refine ⟨?_, ?_, raised_tellUndone (by decide) (raised_enterReady u), ?_⟩
    · rwa [State.ready, State.rd, rdi_tellUndone_ne _ (by decide)]
    · rw [start_tellUndone, start_enterReady]
    · rw [State.rd, rdi_tellUndone_ne _ (by decide)]
      exact hms

theorem exec_startupPhaseEnd (out : PhaseOut) {s : State} (h : s.starting = true) : exec (.startupPhaseEnd out) s = .next (
    if s.startPhase = 1 then s.endRom out else if s.startPhase = 2 then s.endFirmware else if s.startPhase = 3 then s.endSelftest out
    else if s.startPhase = 4 then s.endMemory out else if s.startPhase = 5 then s.endControl out else s) := by
  change execStartupPhaseEnd out s = _
  rw [execStartupPhaseEnd, h]
  rfl

/-! ## A phase overruns (R544) -/

theorem startLate_raises (s : State) (h : s.starting = true) (hl : s.start.late = false) (hp : s.startPhase < 6)
    (hb : s.start.phaseClk + phaseBound s.startPhase * clkMs < s.now) :
    ∃ t, exec .startLate s = .next t ∧ Raised t pgMOD 3 ∧ t.start = { s.start with late := true } ∧ SameBytes s t := by
  have hq := (quiet_refl ({ s with start := { s.start with late := true } } : State)).raise pgMOD 3
  refine ⟨({ s with start := { s.start with late := true } } : State).raise pgMOD 3, ?_, raised_raise _ _ _ (by decide), hq.start, hq.sameBytes⟩
  change execStartLate s = _
  have h6 : ¬ 6 ≤ s.startPhase := by omega
  have hn : ¬ s.now ≤ s.start.phaseClk + phaseBound s.startPhase * clkMs := by omega
  rw [execStartLate, h, hl, decide_eq_false h6, decide_eq_false hn]
  rfl

/-! ## Configuration requests (R542) -/

theorem configRequest_answer (fn : Fin 32) (s : State) (hm : s.pwr.mainOff = false) (hl : s.start.modLow = false) (hp : s.start.noPcie = false)
    (hu : s.on pgHOST F.HOST_LINK_UP = true) : exec (.configRequest fn) s = .next
      { s with msgs := .reply 2 [fn.val, if s.start.kind == 3 || (s.startPhase == 1 && !s.fw.recovery) then 2 else 0] :: s.msgs } := by
  change execConfigRequest fn s = _
  rw [execConfigRequest, hm, hl, hp, hu]
  rfl

/-! ## Links of the dies (R19) -/

theorem linkDeclaredFailed_hub (die : Fin 4) (steps : List Nat) (s : State) (hu : s.hasUnit (pgDIE die.val) = true) :
    ∃ t, exec (.linkDeclaredFailed die none steps) s = .next t ∧ Raised t (pgDIE die.val) 2 ∧ t.isRetired (pgDIE die.val) = true := by
  have hev : Onward (pgDIE die.val) (((steps.foldl (fun t id => t.failStep id stFAULT 0) s).raise (pgDIE die.val) 2))
      (((((steps.foldl (fun t id => t.failStep id stFAULT 0) s).raise (pgDIE die.val) 2).capture (pgDIE die.val) 3 0 none).retireDie die.val).recount) :=
    (Onward.refl _ _).capture.retireDie.recount
  refine ⟨_, ?_, hev.events 2 (by decide) (raised_raise _ _ _ (by decide)), ?_⟩
  · change execLinkDeclaredFailed die none steps s = _
    simp only [execLinkDeclaredFailed, hu, Bool.not_true, Bool.false_eq_true, if_false]
  · exact (Onward.refl 0 _).recount.isRetired (isRetired_retireDie _ _)

/-- The failed ring link between two dies is told at both ends. -/
def tellRing (s : State) (n f : Nat) : State :=
  (((s.raise (pgDIE n) 1).capture (pgDIE n) 2 f none).raise (pgDIE f) 1).capture (pgDIE f) 2 n none

theorem raised_tellRing (s : State) (n f : Nat) : Raised (tellRing s n f) (pgDIE n) 1 ∧ Raised (tellRing s n f) (pgDIE f) 1 :=
  ⟨((Onward.refl (pgDIE n) _).capture.raise.capture).events 1 (by decide) (raised_raise s _ _ (by decide)),
    (Onward.refl (pgDIE f) _).capture.events 1 (by decide) (raised_raise _ _ _ (by decide))⟩

/-- It is told and recorded. -/
def ringTold (s : State) (n f : Nat) : State :=
  let t := tellRing s n f
  { t with bist := { t.bist with ringBad := t.bist.ringBad ++ [4 * n + f, 4 * f + n] } }

theorem ringTold_spec (s : State) (n f : Nat) : Raised (ringTold s n f) (pgDIE n) 1 ∧ Raised (ringTold s n f) (pgDIE f) 1 ∧
    4 * n + f ∈ (ringTold s n f).bist.ringBad ∧ 4 * f + n ∈ (ringTold s n f).bist.ringBad := by
  obtain ⟨h1, h2⟩ := raised_tellRing s n f
  unfold ringTold
  generalize tellRing s n f = t at *
  exact ⟨raised_congr rfl h1, raised_congr rfl h2, by simp, by simp⟩

theorem linkDeclaredFailed_ring (die far : Fin 4) (steps : List Nat) (s : State) (hne : far ≠ die) (hu : s.hasUnit (pgDIE die.val) = true)
    (hf : s.hasUnit (pgDIE far.val) = true) :
    ∃ t, exec (.linkDeclaredFailed die (some far) steps) s = .next t ∧ Raised t (pgDIE die.val) 1 ∧ Raised t (pgDIE far.val) 1 ∧
      4 * die.val + far.val ∈ t.bist.ringBad ∧ 4 * far.val + die.val ∈ t.bist.ringBad ∧ (s.variant.dies = 2 → t.isRetired (pgDIE 1) = true) := by
  have hexec : exec (.linkDeclaredFailed die (some far) steps) s = .next (
      let u := ringTold (steps.foldl (fun t id => t.failStep id stFAULT 0) s) die.val far.val
      if s.variant.dies = 2 then (u.retireDie 1).recount else u) := by
    change execLinkDeclaredFailed die (some far) steps s = _
    have hcond : ¬(far.val = die.val ∨ s.hasUnit (pgDIE far.val) = false) := by
      rw [hf]
      simpa [Fin.ext_iff] using hne
    simp only [execLinkDeclaredFailed, hu, Bool.not_true, Bool.false_eq_true, if_false, hcond, ringTold, tellRing]
  obtain ⟨h1, h2, h3, h4⟩ := ringTold_spec (steps.foldl (fun t id => t.failStep id stFAULT 0) s) die.val far.val
  rw [hexec]
  generalize ringTold (steps.foldl (fun t id => t.failStep id stFAULT 0) s) die.val far.val = u at *
  refine ⟨_, rfl, ?_⟩
  by_cases hd : s.variant.dies = 2
  · have ho : ∀ p, Onward p u (u.retireDie 1).recount := fun p => (Onward.refl p u).retireDie.recount
    simp only [hd, if_true]
    refine ⟨(ho _).events 1 (by decide) h1, (ho _).events 1 (by decide) h2, ?_, ?_, fun _ => ?_⟩
    · rwa [(ho 0).ringBad]
    · rwa [(ho 0).ringBad]
    · exact (Onward.refl 0 _).recount.isRetired (isRetired_retireDie _ _)
  · simp only [hd, if_false]
    exact ⟨h1, h2, h3, h4, fun h => h.elim⟩

/-- Settles O60, phase by phase; a link's failure by `Onward`. -/
theorem startUp : Obligations.StartUp := by
  refine ⟨fun out s hs => ?_, startLate_raises, fun _ => rfl, fun fn s hm hl hp hu => ?_, fun die steps s hu => ?_⟩
  · rw [exec_startupPhaseEnd out hs]
    refine ⟨fun h1 hh => ?_, fun h1 hh hr => ?_, fun u h1 hh hr hu hsl => ?_, fun h2 hsel => ?_, fun h3 => ?_, fun h4 => ?_, fun h5 => ?_⟩
    · exact ⟨_, by rw [if_pos h1], endRom_hubFail s hh⟩
    · exact ⟨_, by rw [if_pos h1], endRom_recover s hh hr⟩
    · exact ⟨_, by rw [if_pos h1], phase_of_enterPhase (endRom_slot s hh hr hu hsl) (State.endRom_keeps (Keeps.refl s)) (by decide)⟩
    · have he := endFirmware_eq s hsel
      obtain ⟨hp, hc⟩ := phase_of_enterPhase he (State.endFirmware_keeps (Keeps.refl s)) (by decide)
      refine ⟨s.endFirmware, by simp [h2], hp, hc, ?_⟩
      rw [he]
      exact ⟨locked_lockPages _ (by decide), locked_lockPages _ (by decide), locked_lockPages _ (by decide)⟩
    · exact ⟨s.endSelftest out, by simp [h3], phase_of_enterPhase rfl (State.endSelftest_keeps (Keeps.refl s)) (by decide)⟩
    · exact ⟨s.endMemory out, by simp [h4], phase_of_enterPhase rfl (State.endMemory_keeps (Keeps.refl s)) (by decide)⟩
    · exact ⟨s.endControl out, by simp [h5], endControl_done s out⟩
  · rw [configRequest_answer fn s hm hl hp hu]
    constructor
    · intro hk hor
      have hno : (s.start.kind == 3 || (s.startPhase == 1 && !s.fw.recovery)) = false := by
        rcases hor with h | h <;> simp [hk, h]
      rw [hno]
      rfl
    · intro hor
      have hyes : (s.start.kind == 3 || (s.startPhase == 1 && !s.fw.recovery)) = true := by
        rcases hor with h | ⟨h, hr⟩ <;> simp [*]
      rw [hyes]
      rfl
  · exact ⟨linkDeclaredFailed_hub die steps s hu, fun far hne hf => linkDeclaredFailed_ring die far steps s hne hu hf⟩

end Sys2Proof
end

section
/-! PROOF. The hub's reads and writes of context memory, its posts, and the jobs of the Mill and the streams of the codec, go onward. -/

namespace Sys2Proof

set_option Elab.async false

open Machine

theorem frameGroup_above (f : Nat) : 5 < frameGroup f := by
  unfold frameGroup pgLPG pgDIE
  omega

section
variable {p : Nat} {z s t : State}

/-! Main memory (R192–R210) -/

theorem Onward.crcTouch {l : Nat} {dirty parity : Bool} (h : Onward p z s) : Onward p z (s.crcTouch l dirty parity) := by
  unfold State.crcTouch
  extract_lets k pg
  split
  · have h1 : Onward p z (((s.raise pg 7).capture pg 3 (32 * frameDie (frameOfLine l) + frameChan (frameOfLine l) +
        256 * frameJ (frameOfLine l)) none).count pg 0x054 1) := h.raise.capture.count
    exact .ite (.ite h1.of h1.of) h.of
  · have h1 : Onward p z ((s.count pg 0x054 1).count pg 0x058 1) := h.count.count
    exact .ite h1.of h1.of

theorem Onward.setFrame {f : Nat} {x : Frame} (h : Onward p z s) : Onward p z (s.setFrame f x) := h.of

theorem Onward.confirm {f : Nat} {poison : Bool} (h : Onward p z s) : Onward p z (s.confirm f poison) := by
  unfold State.confirm
  extract_lets pg ch s1 lp1 s2 lp2 s3
  have h1 : Onward p z s1 := h.raise.count.count.capture
  have h2 : Onward p z s2 := h1.of
  have h3 : Onward p z s3 := .ite h2.of h2
  split
  · exact .ite h3.setFrame.raise h3.setFrame
  · exact h3

theorem Onward.lineRead {l key : Nat} {o : LineOut} (h : Onward p z s) : Onward p z (s.lineRead l key o).1 := by
  unfold State.lineRead
  extract_lets f pg s1 text how mirrored xp s2 lp2
  have h1 : Onward p z s1 := h.count.crcTouch
  have h2 : Onward p z s2 := h1.confirm.count
  clear_value mirrored s2 how
  split
  · exact .ite (h1.countAbove (frameGroup_above f)) h1
  · split
    · split
      · exact h2.raise
      · have h3 : Onward p z { s2 with lp := { s2.lp with bad := mdel s2.lp.bad l } } := h2.of
        exact h3.raise
    · exact h1.confirm

theorem Onward.putLine {l key : Nat} {bs : List Nat} {bad : Bool} (h : Onward p z s) : Onward p z (s.putLine l key bs bad) := h.of

theorem Onward.lineWrite {l key off : Nat} {bs : List Nat} {bad : Bool} {o : LineOut} (h : Onward p z s) :
    Onward p z (s.lineWrite l key off bs bad o) := by
  unfold State.lineWrite
  refine .ite h.count.crcTouch.putLine ?_
  exact h.lineRead.count.count.crcTouch.putLine

theorem Onward.labTouch {n key : Nat} {big : Bool} (h : Onward p z s) : Onward p z (s.labTouch n key big) := by
  unfold State.labTouch
  extract_lets xp k s1 mine
  have h1 : Onward p z s1 := h.count.count
  exact .ite (.ite h.count h) (.ite h1.of h1.of)

theorem Onward.access {n c va len : Nat} {write host : Bool} (h : Onward p z s) : Onward p z (s.access n c va write host len).1 := by
  have hxp : 5 < pgXLT n := by
    unfold pgXLT pgDIE
    omega
  unfold State.access
  extract_lets xp s0 s1
  have h0 : Onward p z s0 := h.count
  have h1 : Onward p z s1 := by
    simp only [s1]
    split
    · exact h0.labTouch
    · exact h0.count.count
    · split
      · exact h0.labTouch
      · exact h0.count.count
  split
  · exact h1
  · next code _ =>
    extract_lets s2 s3
    have h2 : Onward p z s2 := ((h1.countAbove hxp).count).capture.ctxEvent
    simp only [s3]
    split
    · exact h2.count.capture
    · exact h2

theorem Onward.memDetect {x : Frame} {va : Nat} (h : Onward p z s) : Onward p z (s.memDetect x va) := h.foldl fun _ _ _ ht => ht.ctxStQ

theorem Onward.askRebuild {f : Nat} {step : Option Nat} (h : Onward p z s) : Onward p z (s.askRebuild f step) := by
  unfold State.askRebuild
  extract_lets ps mine
  split
  · exact h
  · exact .ite h.of h.of

/-- A recovery that no step waits for. -/
theorem Onward.recoverHub {f va : Nat} (h : Onward p z s) : Onward p z (s.recover f va none) := by
  unfold State.recover
  split
  · exact h
  · next x _ =>
    refine .ite ?_ (.ite h (.ite ?_ h.memDetect))
    · extract_lets lp0 s1 s2
      have h1 : Onward p z s1 := by
        simp only [s1]
        split
        · exact h.of
        · exact Onward.count h.of
      exact .ite h1.askRebuild h1
    · split
      · exact h.of
      · exact Onward.count h.of

theorem Onward.ctxReadHub {n c va : Nat} {host : Bool} {o : LineOut} (h : Onward p z s) : Onward p z (s.ctxRead n c va host o none).1 := by
  have ha := h.access (n := n) (c := c) (va := va) (len := 1) (write := false) (host := host)
  unfold State.ctxRead
  split
  · next s1 code heq => rw [heq] at ha; exact ha
  · next s1 pa heq =>
    rw [heq] at ha
    exact .ite ha.lineRead ha.lineRead.recoverHub

theorem Onward.ctxWriteHub {n c va : Nat} {host bad : Bool} {bs : List Nat} {o : LineOut} (h : Onward p z s) :
    Onward p z (s.ctxWrite n c va host bs bad o none).1 := by
  have ha := h.access (n := n) (c := c) (va := va) (len := max 1 bs.length) (write := true) (host := host)
  unfold State.ctxWrite
  split
  · next s1 code heq => rw [heq] at ha; exact ha
  · next s1 pa heq =>
    rw [heq] at ha
    dsimp only
    exact ha.lineWrite

theorem Onward.foldlFst {α β : Type} {g : State × β → α → State × β} {l : List α} {a : State × β} (h : Onward p z a.1)
    (hg : ∀ x t, Onward p z t.1 → Onward p z (g t x).1) : Onward p z (l.foldl g a).1 := by
  induction l generalizing a with
  | nil => exact h
  | cons x l ih => exact ih (hg x a h)

theorem Onward.hubRead {c va n : Nat} (h : Onward p z s) : Onward p z (s.hubRead c va n).1 :=
  Onward.foldlFst h fun _ _ ht => ht.ctxReadHub

theorem Onward.hubBytes {c va n : Nat} (h : Onward p z s) : Onward p z (s.hubBytes c va n).1 := h.hubRead

theorem Onward.hubWrite {c va : Nat} {bs : List Nat} (h : Onward p z s) : Onward p z (s.hubWrite c va bs) :=
  h.foldl fun _ _ _ ht => by
    dsimp only
    exact ht.ctxWriteHub

/-! Posts of the hub (R137, R156) -/

theorem Onward.release {c phys taken : Nat} {w : Who} {take : Bool} (h : Onward p z s) : Onward p z (s.release c w phys taken take) := by
  have h1 : Onward p z { s with spl := { s.spl with rels := s.spl.rels ++ [(w, phys, taken)] } } := h.of
  exact h1.count (by split <;> decide)

theorem Onward.setSpile {phys : Nat} {x : Spile} (h : Onward p z s) : Onward p z (s.setSpile phys x) := h.of

theorem Onward.releaseWaiters {phys : Nat} (h : Onward p z s) : Onward p z (s.releaseWaiters phys) := by
  unfold State.releaseWaiters
  extract_lets x
  split
  next ws n rs _ =>
  have h1 : Onward p z { s with spl := { s.spl with waiters := ws } } := h.of
  exact h1.setSpile.foldl fun _ _ _ ht => ht.release

theorem Onward.enginePost {c v phys n : Nat} (h : Onward p z s) : Onward p z (s.enginePost c v phys n) := by
  unfold State.enginePost
  extract_lets x past s1 s2
  have h1 : Onward p z s1 := h.setSpile.count
  have h2 : Onward p z s2 := .ite h1.ctxNoteQ h1
  exact h2.releaseWaiters

theorem Onward.hubPost {c v n : Nat} (h : Onward p z s) : Onward p z (s.hubPost c v n) := by
  unfold State.hubPost
  split
  · exact h.ctxNoteQ.count
  · exact .ite h.ctxNoteQ h.enginePost

/-! Jobs of the Mill (R335–R338) -/

theorem Onward.showMill (h : Onward p z s) : Onward p z s.showMill := h.wri.wri.wri.wri.wri.wri.wri.wri.wri

theorem Onward.addJob {j : MillJob} (h : Onward p z s) : Onward p z (s.addJob j) := Onward.showMill h.of

theorem Onward.setJob {i : Nat} {j : MillJob} (h : Onward p z s) : Onward p z (s.setJob i j) := h.of

theorem Onward.dropChainHold {j : MillJob} (h : Onward p z s) : Onward p z (s.dropChainHold j) := by
  unfold State.dropChainHold
  split
  · exact h
  · exact h.of

theorem Onward.endJob {i st : Nat} (h : Onward p z s) : Onward p z (s.endJob i st) := by
  unfold State.endJob
  split
  · exact h
  · next j _ =>
    extract_lets c word s1 s2 s3 s4
    have h1 : Onward p z s1 := h.foldl fun _ _ _ ht => ht.hubWrite
    have h2 : Onward p z s2 := h1.hubPost.count.count
    have h3 : Onward p z s3 := .ite (h2.countAbove (by decide)) h2
    have h4 : Onward p z s4 := h3.dropChainHold
    clear_value s4
    have h5 : Onward p z { s4 with mill := { s4.mill with jobs := mdel s4.mill.jobs i } } := h4.of
    exact h5.showMill

theorem Onward.queueJob {j : MillJob} (h : Onward p z s) : Onward p z (s.queueJob j) := .ite h.addJob.endJob h.addJob

theorem Onward.chainPicture {n va pitch pic : Nat} {b : Bool} (h : Onward p z s) : Onward p z (s.chainPicture n va pitch pic b) := by
  unfold State.chainPicture
  split
  · exact h
  · next l _ =>
    extract_lets codec1 s1 j
    have h1 : Onward p z s1 := h.of
    split
    · exact h1.dropChainHold.setJob.raise.count.showMill
    · exact h1.queueJob

theorem Onward.millRetire (h : Onward p z s) : Onward p z s.millRetire := h.foldl fun _ _ _ ht => ht.endJob

theorem Onward.retireMill (h : Onward p z s) : Onward p z s.retireMill := .ite h h.markRetired.millRetire

/-! Streams of the codec (R351–R369) -/

theorem Onward.setStream {n : Nat} {x : Stream} (h : Onward p z s) : Onward p z (s.setStream n x) := h.of

theorem Onward.modStream {n : Nat} {f : Stream → Stream} (h : Onward p z s) : Onward p z (s.modStream n f) := h.of

theorem Onward.showSched (h : Onward p z s) : Onward p z s.showSched := by
  unfold State.showSched
  extract_lets long upd waits streams oldest codec1 s1
  have h1 : Onward p z s1 := h.of
  exact h1.count.wri.wri.wri.wri

theorem Onward.writeRecord {n : Nat} {x : Stream} {r : List Nat} (h : Onward p z s) : Onward p z (s.writeRecord n x r) := by
  have h2 : ∀ y : Stream, Onward p z ((((s.hubWrite x.ctx (x.outVa x.outProd) r).hubWrite x.ctx (x.ringVa + 8)
    (lowBytes 4 (x.outProd + 1))).setStream n y).hubPost x.ctx x.doneSpile 1) := fun y => h.hubWrite.hubWrite.setStream.hubPost
  exact .ite (h2 _) (h2 _).chainPicture

theorem Onward.drainRecs {n fuel : Nat} (h : Onward p z s) : Onward p z (s.drainRecs n fuel) := by
  induction fuel generalizing s with
  | zero => exact h
  | succ fuel ih =>
    unfold State.drainRecs
    split
    · exact h
    · split
      · exact h
      · exact .ite h (ih h.writeRecord)

theorem Onward.pushRecord {n : Nat} {r : List Nat} (h : Onward p z s) : Onward p z (s.pushRecord n r) := h.modStream.drainRecs

theorem Onward.takeEntry {n : Nat} {x : Stream} (h : Onward p z s) : Onward p z (s.takeEntry n x).1 := h.hubBytes.hubWrite.setStream

theorem Onward.failEntries {n st cause fuel : Nat} (h : Onward p z s) : Onward p z (s.failEntries n st cause fuel) := by
  induction fuel generalizing s with
  | zero => exact h
  | succ fuel ih =>
    unfold State.failEntries
    split
    · exact h
    · exact .ite h (ih h.takeEntry.pushRecord)

theorem Onward.dropStream {n : Nat} (h : Onward p z s) : Onward p z (s.dropStream n) := by
  unfold State.dropStream
  extract_lets codec1 mill1 s1
  have h1 : Onward p z s1 := h.of
  exact h1.count.wake.showMill.showSched

theorem Onward.settleStream {n : Nat} (h : Onward p z s) : Onward p z (s.settleStream n) := by
  unfold State.settleStream
  split
  · exact h
  · next x _ =>
    refine .ite h.showSched (.ite (.ite h.failEntries.dropStream h.failEntries) ?_)
    split
    · exact h.showSched
    · refine .ite h.showSched ?_
      exact (h.foldl fun _ _ _ ht => ht.pushRecord).modStream.pushRecord.wake.showSched

theorem Onward.codecRetire {k : Nat} (h : Onward p z s) : Onward p z (s.codecRetire k) := by
  unfold State.codecRetire
  extract_lets s1 codec2 s2
  have h1 : Onward p z s1 := h.wri
  have h2 : Onward p z s2 := h1.of
  refine .ite h2.showSched (h2.foldl fun n _ t ht => ?_)
  split
  · exact ht
  · next x _ =>
    extract_lets t1
    have h3 : Onward p z t1 := by
      simp only [t1]
      split
      · exact ht.setStream.pushRecord
      · exact ht
    exact h3.failEntries.settleStream

theorem Onward.retireCodec {k : Nat} (h : Onward p z s) : Onward p z (s.retireCodec k) := .ite h h.markRetired.codecRetire

end

end Sys2Proof
end

section
/-! PROOF. A Cellarmaster unit that drops, a vat that is retired, and every repair of a proven fault, go onward. -/

namespace Sys2Proof

set_option Elab.async false

open Machine

section
variable {p : Nat} {z s t : State}

/-! Cellarmasters (R387–R392) -/

theorem Onward.setUnit {u : Nat} {x : CmUnit} (h : Onward p z s) : Onward p z (s.setUnit u x) := h.of

theorem Onward.modUnit {u : Nat} {f : CmUnit → CmUnit} (h : Onward p z s) : Onward p z (s.modUnit u f) := h.setUnit

theorem Onward.cmRetire {u : Nat} (h : Onward p z s) : Onward p z (s.cmRetire u) := by
  unfold State.cmRetire
  extract_lets s1
  have h1 : Onward p z s1 := h.wri.wri.raise
  clear_value s1
  have h2 : Onward p z { s1 with retired := nput s1.retired (pgCM u) 1 } := h1.retire (pgCM u) 1
  exact h2.recount

theorem Onward.cancelPlanned {u : Nat} (h : Onward p z s) : Onward p z (s.cancelPlanned u) := by
  have h1 : Onward p z { s with cm := { s.cm with announced := false, handover := none } } := h.of
  exact .ite h1.wri.raise h

theorem Onward.abandonSlice {u : Nat} (h : Onward p z s) : Onward p z (s.abandonSlice u) := .ite h.modUnit.count h

theorem Onward.reloadCm {u : Nat} (h : Onward p z s) : Onward p z (s.reloadCm u) := by
  unfold State.reloadCm
  split
  · exact h.wri.wri.modUnit
  · exact h

theorem Onward.drop {u cause : Nat} (h : Onward p z s) : Onward p z (s.drop u cause) := by
  unfold State.drop
  extract_lets held planned s1 s2 s3 ds s4 s5 alone cm5 s6 cm6 s7
  have h1 : Onward p z s1 := h.wri.wri.wri.raise
  have h2 : Onward p z s2 := .ite h1.count h1
  have h3 : Onward p z s3 := h2.modUnit.wri
  have h4 : Onward p z s4 := .ite (.ite h3.reloadCm h3) h3.modUnit.wri.count
  have h5 : Onward p z s5 := .ite h4.abandonSlice h4
  have h6 : Onward p z s6 := .ite h5.of h5
  clear_value s6
  have h7 : Onward p z s7 := by
    refine .ite h6 (.ite ?_ h6.cancelPlanned)
    have hv : Onward p z { s6 with cm := { s6.cm with announced := false, handover := none } } := h6.of
    exact hv.wri
  exact .ite h7.cmRetire h7

theorem Onward.checkReady {u : Nat} (h : Onward p z s) : Onward p z (s.checkReady u) := .ite h.wri.raise h

theorem Onward.cmSlice {u : Nat} {r : Option Bool} (h : Onward p z s) : Onward p z (s.cmSlice u r) := by
  unfold State.cmSlice
  extract_lets x
  refine .ite h ?_
  split
  · exact .ite h (.ite h.setUnit h.setUnit.count)
  · exact .ite h.setUnit.wri.checkReady h.setUnit.wri.drop
  · exact h

/-! Vats (R107, R110, R550) -/

theorem Onward.setBankTag {pg b : Nat} {o : Option Nat} {pin : Bool} (h : Onward p z s) (hb : b < 16) : Onward p z (s.setBankTag pg b o pin) := by
  obtain ⟨h1, h2, h3, -, h5⟩ := inPage_bankOwner hb
  exact (((h.wri h1).wri h5).wri h2).wri h3

theorem Onward.showRot {fp a b c d : Nat} (h : Onward p z s) : Onward p z (s.showRot fp a b c d) := h.wri.wri.wri.wri

theorem Onward.abandonRotation {fp : Nat} (h : Onward p z s) : Onward p z (s.abandonRotation fp) :=
  .ite h.zeroStore.showRot.count.raise h

theorem Onward.markVatRetired {pg : Nat} (h : Onward p z s) : Onward p z (s.markVatRetired pg) := by
  have h1 : Onward p z { s with retired := nput s.retired pg 1, underTest := mdel s.underTest pg } := h.retire pg 1
  exact h1.wri.raise

theorem Onward.moveTags {a b : Nat} (h : Onward p z s) : Onward p z (s.moveTags a b) := by
  refine Onward.clearTags (h.foldl fun i hi t ht => ?_)
  obtain ⟨h1, h2, h3, -, h5⟩ := inPage_bankOwner (List.mem_range.mp hi)
  exact (((ht.wri h1).wri h2).wri h3).wri h5

/-- The page is above `p`: a vat's fills may name banks that it does not have. -/
theorem Onward.retireVat {pg : Nat} (h : Onward p z s) (hp : p < pg) : Onward p z (s.retireVat pg) := by
  unfold State.retireVat
  extract_lets fp ph s0 L s1 sSpare s2 sp b s3 v3 s4 s5 v5 s6 s7 s8 sNone
  have h0 : Onward p z s0 := .ite h.abandonRotation h
  have h1 : Onward p z s1 := h0.markVatRetired
  have h2 : Onward p z s2 := h1.failVatSteps.banksLost
  have hspare : Onward p z sSpare := .ite h1.wri h1
  refine .ite h (.ite (.ite hspare hspare.raise) (.ite ?_ h2.clearTags.wri.wri.zeroStore))
  have h3 : Onward p z s3 := h2.foldl fun _ _ _ ht => (((ht.wriAbove hp).wriAbove hp).wriAbove hp).wriAbove hp
  have h4 : Onward p z s4 := h3.setVat.wake
  clear_value s4
  have h5 : Onward p z { s4 with underTest := mdel s4.underTest b } := h4.of
  have h6 : Onward p z s6 := h5.zeroStore.zeroStore.setVat.moveTags
  have h8 : Onward p z s8 := h6.wri.wri.wri.wri
  exact h8.foldl fun i hi t ht => .ite (ht.segLost.wri (inPage_bankOwner (List.mem_range.mp hi)).1) ht

theorem Onward.vatOut {pg : Nat} (h : Onward p z s) (hp : p < pg) : Onward p z (s.vatOut pg) := by
  unfold State.vatOut
  extract_lets s1 fp
  have h1 : Onward p z s1 := (h.retireVat hp).noteRetired
  exact .ite h (.ite h1.retireFloor h1)

/-! Repairs (R469) -/

theorem Onward.noSpareTest {k : Nat} (h : Onward p z s) : Onward p z (s.noSpareTest k) := by
  have h1 : Onward p z { s with bist := { s.bist with noSpare := s.bist.noSpare ++ [k] } } := h.of
  exact .ite h h1.raise

theorem Onward.vatFailed {pg : Nat} (h : Onward p z s) (hp : p < pg) : Onward p z (s.vatFailed pg) :=
  .ite (h.vatOut hp).noSpareTest (h.vatOut hp)

theorem Onward.retireBank {pg b : Nat} (h : Onward p z s) (hp : p < pg) (hb : b < 16) : Onward p z (s.retireBank pg b) := by
  refine .ite (h.vatOut hp) ?_
  exact (((h.setBankTag hb).wri (inPage_bankOwner hb).2.2.2.1).wri).raise.noteRetired

theorem Onward.storeRepair {u : BistUnit} {x : BistSub} {f : State → State} (h : Onward p z s) (hf : ∀ t, Onward p z t → Onward p z (f t)) :
    Onward p z (s.storeRepair u x f) := .ite (hf _ h.raise) h.of

/-- A fabric without a plane to spare. -/
theorem Onward.planeBad {k n : Nat} (h : Onward p z s) : Onward p z { s with bist := { s.bist with planesBad := nput s.bist.planesBad k n } } := h.of

theorem vatPg_above (v : VatId) : 5 < vatPg v := by
  unfold vatPg
  simp only [pgVAT, pgFLOOR, pgDIE]
  omega

/-- No repair takes back what the self-test page tells. -/
theorem Onward.repair {u : BistUnit} {x : BistSub} (h : Onward 5 z s) : Onward 5 z (s.repair u x) := by
  unfold State.repair
  split
  · next v q c => exact .ite (h.storeRepair fun t ht => ht.vatFailed (vatPg_above v)) (h.vatFailed (vatPg_above v))
  · next v b =>
    exact .ite (h.storeRepair fun t ht => ht.retireBank (vatPg_above v) b.isLt) (h.retireBank (vatPg_above v) b.isLt)
  · next v b =>
    exact .ite (h.storeRepair fun t ht => ht.retireBank (vatPg_above v) b.isLt) (h.retireBank (vatPg_above v) b.isLt)
  · next v => exact h.vatFailed (vatPg_above v)
  · exact h.retireFloor
  · next f g =>
    have hlost : ∀ t, Onward 5 z t → Onward 5 z (((t.wri (floorPgOf f) F.FLOOR_SEG_PHYS g.val 0x3F).zeroSeg (floorPgOf f) g.val).raise (floorPgOf f) 9) :=
      fun t ht => (ht.wri (inPage_segOwner g.isLt).2.2.2.2).zeroSeg.raise
    exact .ite (hlost s h) (h.storeRepair hlost)
  · next k =>
    extract_lets s1
    have h1 : Onward 5 z s1 := .ite h.raise.capture h
    exact .ite (h1.storeRepair fun t ht => .ite ht.retireDie ht.planeBad) (.ite h1.retireDie h1.planeBad)
  · exact h.retireMill
  · exact h.retireCodec
  · exact h.cmSlice

end

end Sys2Proof
end

section
/-! PROOF. The schedule of self-test, its requests and its slices (the first part of O47). -/

namespace Sys2Proof

set_option Elab.async false

open Machine

/-! ## The schedule (R461, R464) -/

theorem checkLate_spec (s : State) (u : BistUnit) : (s.checkLate u).bist.issuedOf = s.bist.issuedOf ∧ (s.checkLate u).bist.sched = s.bist.sched ∧
    (s.checkLate u).floors = s.floors ∧ SameBytes s (s.checkLate u) := by
  unfold State.checkLate
  extract_lets j
  split
  · exact ⟨rfl, rfl, rfl, (quiet_refl s).sameBytes⟩
  · have hq := (quiet_refl ({ s with bist := { s.bist with late := true } } : State)).raise pgBIST 4
    exact ⟨by rw [hq.bist], by rw [hq.bist], hq.floors, hq.sameBytes⟩

/-- A test of the unit is issued: a vat's as a rotation of its floor. -/
def issueTest (s : State) (u : BistUnit) : State :=
  let s1 := { s with bist := { s.bist with issuedOf := nadd s.bist.issuedOf (unitKey u) 1 } }
  match u with
  | .vat v => s1.setFloor (floorOfVat (vatPg v)) { s1.floor (floorOfVat (vatPg v)) with reqs := (s1.floor (floorOfVat (vatPg v))).reqs ++ [0xF] }
  | _ => { s1 with bist := { s1.bist with sched := s1.bist.sched ++ [u] } }

theorem issueTest_other (s : State) {u : BistUnit} (h : ∀ v, u ≠ .vat v) : issueTest s u = { s with bist := { s.bist with
    issuedOf := nadd s.bist.issuedOf (unitKey u) 1, sched := s.bist.sched ++ [u] } } := by
  cases u with
  | vat v => exact absurd rfl (h v)
  | floor _ => rfl
  | seg _ _ => rfl
  | plane _ => rfl
  | pipe _ => rfl
  | codec _ => rfl
  | cm _ => rfl

theorem issueTest_spec (s : State) (u : BistUnit) : (issueTest s u).bist.issuedOf = nadd s.bist.issuedOf (unitKey u) 1 ∧ SameBytes s (issueTest s u) := by
  by_cases h : ∀ v, u ≠ .vat v
  · rw [issueTest_other s h]
    exact ⟨rfl, fun _ => rfl, fun _ => rfl, fun _ => rfl, fun _ => rfl⟩
  · push Not at h
    obtain ⟨v, rfl⟩ := h
    exact ⟨rfl, fun _ => rfl, fun _ => rfl, fun _ => rfl, fun _ => rfl⟩

theorem exec_bistSchedule (unit : BistUnit) (s : State) (hen : s.on pgBIST F.BIST_CFG_EN = true) (hr : s.ready = true)
    (ht : s.testable unit = true) (hj : nget s.bist.issuedOf (unitKey unit) < testsOf unit)
    (hd : s.dueClk unit (nget s.bist.issuedOf (unitKey unit)) ≤ s.now) :
    exec (.bistSchedule unit) s = .next (issueTest (s.checkLate unit) unit) := by
  change execBistSchedule unit s = _
  have h1 : ¬ testsOf unit ≤ nget s.bist.issuedOf (unitKey unit) := by omega
  have h2 : ¬ s.now < s.dueClk unit (nget s.bist.issuedOf (unitKey unit)) := by omega
  simp only [execBistSchedule, hen, hr, ht, h1, h2, decide_false, Bool.not_true, Bool.or_self, Bool.false_eq_true, if_false, if_true]
  cases unit <;> rfl

theorem bistSchedule_issues (unit : BistUnit) (s : State) (hen : s.on pgBIST F.BIST_CFG_EN = true) (hr : s.ready = true)
    (ht : s.testable unit = true) (hj : nget s.bist.issuedOf (unitKey unit) < testsOf unit)
    (hd : s.dueClk unit (nget s.bist.issuedOf (unitKey unit)) ≤ s.now) :
    ∃ t, exec (.bistSchedule unit) s = .next t ∧ nget t.bist.issuedOf (unitKey unit) = nget s.bist.issuedOf (unitKey unit) + 1 ∧ SameBytes s t ∧
      (∀ v, unit = .vat v → (t.floor (floorOfVat (vatPg v))).reqs = (s.floor (floorOfVat (vatPg v))).reqs ++ [0xF] ∧ t.bist.sched = s.bist.sched) ∧
      ((∀ v, unit ≠ .vat v) → t.bist.sched = s.bist.sched ++ [unit] ∧ t.floors = s.floors) := by
  obtain ⟨hi, hsch, hfl, hb⟩ := checkLate_spec s unit
  obtain ⟨hi', hb'⟩ := issueTest_spec (s.checkLate unit) unit
  refine ⟨_, exec_bistSchedule unit s hen hr ht hj hd, ?_, ?_, ?_, ?_⟩
  · rw [hi', hi, nadd, nget, nput, ngetD_nputD_self]
  · obtain ⟨a1, a2, a3, a4⟩ := hb
    obtain ⟨b1, b2, b3, b4⟩ := hb'
    exact ⟨fun a => (b1 a).trans (a1 a), fun a => (b2 a).trans (a2 a), fun a => (b3 a).trans (a3 a), fun a => (b4 a).trans (a4 a)⟩
  · rintro v rfl
    refine ⟨?_, hsch⟩
    unfold issueTest
    simp only [State.floor_setFloor_self]
    unfold State.floor
    rw [hfl]
  · intro h
    rw [issueTest_other _ h]
    exact ⟨by rw [← hsch], hfl⟩

/-! ## BIST.REQ -/

/-- A slice of a unit is asked for: a vat in service is brought to its test by a rotation. -/
def askTest (s : State) (u : BistUnit) : State :=
  match u with
  | .vat x =>
    if s.inService (vatPg x) then s.setFloor (floorOfVat (vatPg x))
      { s.floor (floorOfVat (vatPg x)) with reqs := (s.floor (floorOfVat (vatPg x))).reqs ++ [x.vat.val] }
    else { s with bist := { s.bist with reqs := s.bist.reqs ++ [u] } }
  | _ => { s with bist := { s.bist with reqs := s.bist.reqs ++ [u] } }

theorem askTest_serving {s : State} {x : VatId} (h : s.inService (vatPg x) = true) :
    ((askTest s (.vat x)).floor (floorOfVat (vatPg x))).reqs = (s.floor (floorOfVat (vatPg x))).reqs ++ [x.vat.val] := by
  simp only [askTest, h, if_true, State.floor_setFloor_self]

theorem askTest_idle {s : State} {u : BistUnit} (h : ∀ x, u = .vat x → s.inService (vatPg x) = false) :
    askTest s u = { s with bist := { s.bist with reqs := s.bist.reqs ++ [u] } } := by
  unfold askTest
  split
  · next x =>
    rw [if_neg]
    rw [h x rfl]
    decide
  · rfl

/-- What a write of word `w` to `BIST.REQ` does. -/
def requested (s : State) (w : Nat) : State :=
  if !nbit w 31 then s
  else match reqUnit (bits w 23 8) (bits w 20 3) (bits w 0 20) with
  | none => s.raise pgBIST 9
  | some u => if !s.hasUnit (unitPage u) then s.raise pgBIST 9 else askTest s u

theorem exec_bistReq (fn : Fin 32) (v : Word) (s : State) (h : s.mayWriteBlock pgBIST fn.val = true) :
    exec (.bistReq fn v) s = .next (requested s v.toNat) := by
  change execBistReq fn v s = _
  exact congrArg Host.Outcome.next (if_pos h)

theorem requested_no_go (s : State) {w : Nat} (hg : nbit w 31 = false) : requested s w = s := by
  rw [requested, hg]
  exact if_pos rfl

theorem requested_no_unit (s : State) {w : Nat} (hg : nbit w 31 = true) (hq : reqUnit (bits w 23 8) (bits w 20 3) (bits w 0 20) = none) :
    requested s w = s.raise pgBIST 9 := by
  simp only [requested, hg, hq, Bool.not_true, Bool.false_eq_true, if_false]

theorem requested_unit {s : State} {w : Nat} {u : BistUnit} (hg : nbit w 31 = true)
    (hq : reqUnit (bits w 23 8) (bits w 20 3) (bits w 0 20) = some u) (hu : s.hasUnit (unitPage u) = true) : requested s w = askTest s u := by
  simp only [requested, hg, hq, hu, Bool.not_true, Bool.false_eq_true, if_false]

theorem bistReq_asks (fn : Fin 32) (v : Word) (s : State) {u : BistUnit} (h : s.mayWriteBlock pgBIST fn.val = true) (hg : nbit v.toNat 31 = true)
    (hq : reqUnit (bits v.toNat 23 8) (bits v.toNat 20 3) (bits v.toNat 0 20) = some u) (hu : s.hasUnit (unitPage u) = true) :
    ∃ t, exec (.bistReq fn v) s = .next t ∧
      (∀ x, u = .vat x → s.inService (vatPg x) = true →
        (t.floor (floorOfVat (vatPg x))).reqs = (s.floor (floorOfVat (vatPg x))).reqs ++ [x.vat.val]) ∧
      ((∀ x, u = .vat x → s.inService (vatPg x) = false) → t = { s with bist := { s.bist with reqs := s.bist.reqs ++ [u] } }) := by
  refine ⟨askTest s u, ?_, ?_, askTest_idle⟩
  · rw [exec_bistReq fn v s h, requested_unit hg hq hu]
  · rintro x rfl hin
    exact askTest_serving hin

/-! ## Slices (R463–R466) -/

theorem takeTest_spec (s : State) (u : BistUnit) : (s.takeTest u).bist.running = s.bist.running ∧ (s.takeTest u).bist.deferred = s.bist.deferred ∧
    (s.takeTest u).ctrs = s.ctrs ∧ (s.takeTest u).now = s.now := by
  unfold State.takeTest
  split
  · exact ⟨rfl, rfl, rfl, rfl⟩
  · split
    · exact ⟨rfl, rfl, rfl, rfl⟩
    · exact ⟨rfl, rfl, rfl, rfl⟩

/-- A field of the pages up to that of the self-test. -/
def lowField (pg : Nat) (F0 : Field) (i : Nat) : Prop := fkey pg F0 i < 6 * 131072

theorem lowField.ne_cm {pg : Nat} {F0 : Field} {i : Nat} (h : lowField pg F0 i) (u : Nat) (F1 : Field) (j : Nat) :
    fkey pg F0 i ≠ fkey (pgCM u) F1 j := by
  unfold lowField at h
  have hcm : fkey (pgCM u) F1 j ≥ 6 * 131072 := by
    simp only [fkey, pgCM]
    omega
  omega

theorem bist_checkReady (s : State) (u : Nat) : (s.checkReady u).bist = s.bist := by
  unfold State.checkReady
  dsimp only
  split
  · exact State.raise_bist _ _ _
  · rfl

theorem rdi_checkReady (s : State) (u : Nat) {pg : Nat} {F0 : Field} {i : Nat} (h : lowField pg F0 i) :
    (s.checkReady u).rdi pg F0 i = s.rdi pg F0 i := by
  unfold State.checkReady
  dsimp only
  split
  · rw [State.rdi_raise_ne _ (h.ne_cm u _ _), State.rdi_wri_ne _ _ (h.ne_cm u _ _)]
  · rfl

/-- What a step leaves of the self-test's own state. -/
structure TestKept (s t : State) : Prop where
  bist : t.bist = s.bist
  fields : ∀ {pg F0 i}, lowField pg F0 i → t.rdi pg F0 i = s.rdi pg F0 i

theorem TestKept.refl (s : State) : TestKept s s := ⟨rfl, fun _ => rfl⟩

/-- A slice of a Cellarmaster's core that starts leaves it. -/
theorem testKept_cmSlice_none (s : State) (u : Nat) : TestKept s (s.cmSlice u none) := by
  unfold State.cmSlice
  dsimp only
  split
  · exact .refl s
  · split
    · split
      · exact .refl s
      · split
        · exact ⟨rfl, fun _ => rfl⟩
        · exact ⟨rfl, fun _ => rfl⟩
    · next h _ => cases h
    · exact .refl s

/-- One that passes leaves it. -/
theorem testKept_cmSlice_pass (s : State) (u : Nat) : TestKept s (s.cmSlice u (some true)) := by
  unfold State.cmSlice
  dsimp only
  split
  · exact .refl s
  · split
    · next h _ => cases h
    · next h _ =>
      cases h
      rw [if_pos rfl]
      refine ⟨bist_checkReady _ _, fun h => ?_⟩
      rw [rdi_checkReady _ _ h, State.rdi_wri_ne _ _ (h.ne_cm u _ _)]
      rfl
    · exact .refl s

theorem ctr_cmSlice_none (s : State) (u : Nat) : (s.cmSlice u none).ctr pgBIST 0x04C = s.ctr pgBIST 0x04C := by
  unfold State.cmSlice
  dsimp only
  split
  · rfl
  · split
    · split
      · rfl
      · split
        · rfl
        · refine State.ctr_count_ne _ _ ?_
          unfold pgBIST pgCM
          omega
    · next h _ => cases h
    · rfl

/-- The state in which the slice of a unit runs. -/
def sliceOn (s : State) (u : BistUnit) (clk : Nat) (early : Bool) : State :=
  let s2 := ({ s with bist := { s.bist with running := s.bist.running ++ [({ unit := u, clk := clk, asked := early } : Slice)] } }).count pgBIST 0x04C 1
  let s3 := if early then s2.count pgBIST 0x070 1 else s2
  match u with
  | .vat v => { s3 with underTest := nput s3.underTest (vatPg v) 1 }
  | .cm u => s3.cmSlice u.val none
  | _ => s3

theorem sliceOn_spec (s : State) (u : BistUnit) (clk : Nat) (early : Bool) :
    (sliceOn s u clk early).bist.running = s.bist.running ++ [({ unit := u, clk := clk, asked := early } : Slice)] ∧
      (sliceOn s u clk early).ctr pgBIST 0x04C = s.ctr pgBIST 0x04C + 1 := by
  have hctr : ∀ t : State, (if early then (t.count pgBIST 0x04C 1).count pgBIST 0x070 1 else t.count pgBIST 0x04C 1).ctr pgBIST 0x04C =
      t.ctr pgBIST 0x04C + 1 := fun t => by
    split
    · rw [State.ctr_count_ne _ _ (by decide), State.ctr_count_self]
    · rw [State.ctr_count_self]
  have hrun : ∀ t : State, (if early then (t.count pgBIST 0x04C 1).count pgBIST 0x070 1 else t.count pgBIST 0x04C 1).bist = t.bist := fun t => by
    split
    · rfl
    · rfl
  unfold sliceOn
  extract_lets bist1 s2 s3
  have h3 : s3.bist.running = s.bist.running ++ [({ unit := u, clk := clk, asked := early } : Slice)] ∧
      s3.ctr pgBIST 0x04C = s.ctr pgBIST 0x04C + 1 := ⟨congrArg BistSt.running (hrun _), hctr _⟩
  clear_value s3
  split
  · exact h3
  · rw [(testKept_cmSlice_none s3 _).bist, ctr_cmSlice_none]
    exact h3
  · exact h3

theorem testing_of_running {s : State} {u : BistUnit} {x : Slice} {l : List Slice} (h : s.bist.running = l ++ [x]) (hx : x.unit = u) :
    s.testing u = true := by
  rw [State.testing, h, List.any_append]
  simp [hx]

/-- The slice may start. -/
structure MayStart (s : State) (u : BistUnit) : Prop where
  en : s.on pgBIST F.BIST_CFG_EN = true
  ready : s.ready = true
  idle : s.testing u = false
  unit : s.hasUnit (unitPage u) = true
  asked : s.asked u = true
  may : s.mayTest u = true
  act : s.fw.act = none
  deferred : ∀ e ∈ s.bist.deferred, e.1 ≠ u

/-- A slice asked for by a fence, or by an early rotation. -/
def earlySlice (s : State) (u : BistUnit) : Bool :=
  s.bist.due.contains u || (match u with
    | .vat v => (s.floor (floorOfVat (vatPg v))).rotEarly
    | _ => false)

theorem exec_bistSliceStart {s : State} {u : BistUnit} (h : MayStart s u) (inWindow : Bool) : exec (.bistSliceStart u inWindow) s =
    .next (if inWindow then sliceOn (s.takeTest u) u s.now (earlySlice s u) else (s.takeTest u).defer u) := by
  obtain ⟨h1, h2, h3, h4, h5, h6, h7, h8⟩ := h
  have h8' : (s.bist.deferred.any fun e => e.1 == u) = false := by
    rw [List.any_eq_false]
    exact fun e he => by simpa using h8 e he
  change execBistSliceStart u inWindow s = _
  have hguard : ¬((!s.on pgBIST F.BIST_CFG_EN || !s.ready || s.testing u || !s.hasUnit (unitPage u) || !s.asked u || !s.mayTest u ||
      (s.fw.act.any fun a => a.begun && sliceOf a.comp u) || s.bist.deferred.any fun e => e.1 == u) = true) := by
    rw [h1, h2, h3, h4, h5, h6, h7, h8', Option.any_none]
    decide
  unfold execBistSliceStart
  rw [if_neg hguard]
  cases inWindow
  · rfl
  · cases u <;> rfl

theorem bistSliceStart_starts {s : State} {u : BistUnit} (h : MayStart s u) :
    ∃ t, exec (.bistSliceStart u true) s = .next t ∧ t.testing u = true ∧ t.ctr pgBIST 0x04C = s.ctr pgBIST 0x04C + 1 := by
  obtain ⟨hr, hc⟩ := sliceOn_spec (s.takeTest u) u s.now (earlySlice s u)
  refine ⟨_, exec_bistSliceStart h true, testing_of_running hr rfl, hc.trans ?_⟩
  rw [State.ctr, (takeTest_spec s u).2.2.1]
  rfl

theorem bistSliceStart_defers {s : State} {u : BistUnit} (h : MayStart s u) :
    ∃ t, exec (.bistSliceStart u false) s = .next t ∧ t.testing u = false ∧ t.bist.deferred = s.bist.deferred ++ [(u, s.now)] ∧
      t.ctr pgBIST 0x050 = s.ctr pgBIST 0x050 + 1 := by
  obtain ⟨hr, hd, hc, hn⟩ := takeTest_spec s u
  refine ⟨_, exec_bistSliceStart h false, ?_, ?_, ?_⟩
  · have hi := h.idle
    rw [State.testing, ← hr] at hi
    exact hi
  · rw [← hd, ← hn]
    rfl
  · refine (State.ctr_count_self _ _ _ _).trans ?_
    rw [State.ctr, State.ctr, ← hc]

/-! A slice stops, or ends -/

theorem testing_dropSlice (s : State) (u : BistUnit) : (s.dropSlice u).testing u = false := by
  unfold State.testing State.dropSlice
  rw [List.any_eq_false]
  intro x hx
  simpa using (List.mem_filter.mp hx).2

theorem bistSliceStop_puts_off (u : BistUnit) (s : State) (h : s.testing u = true) :
    ∃ t, exec (.bistSliceStop u) s = .next t ∧ t.testing u = false ∧ t.bist.deferred = s.bist.deferred ++ [(u, s.now)] ∧ t.regs = s.regs ∧
      SameBytes s t := by
  refine ⟨(s.dropSlice u).defer u, ?_, testing_dropSlice s u, rfl, rfl, fun _ => rfl, fun _ => rfl, fun _ => rfl, fun _ => rfl⟩
  change execBistSliceStop u s = _
  rw [execBistSliceStop, if_pos h]

theorem testKept_slicePassed (s : State) (u : BistUnit) : TestKept s (s.slicePassed u) := by
  cases u with
  | floor f =>
    refine ⟨rfl, fun h => State.rdi_wri_ne _ _ ?_⟩
    have hf : fkey (floorPgOf f) F.FLOOR_TAP_FENCED 0 ≥ 6 * 131072 := by
      unfold floorPgOf
      simp only [fkey, pgFLOOR, pgDIE]
      omega
    unfold lowField at h
    omega
  | cm c => exact testKept_cmSlice_pass s c.val
  | vat _ => exact ⟨rfl, fun _ => rfl⟩
  | seg _ _ => exact ⟨rfl, fun _ => rfl⟩
  | codec _ => exact ⟨rfl, fun _ => rfl⟩
  | plane _ => exact .refl s
  | pipe _ => exact .refl s

theorem running_testDone (s : State) (u : BistUnit) : (s.testDone u).bist.running = s.bist.running := by
  unfold State.testDone
  extract_lets pos bist1 s1
  split
  · rfl
  · rfl

/-- The pass position moves on, and returns to 0 at the end of the pass. -/
theorem testDone_spec (s : State) (u : BistUnit) :
    (s.rd pgBIST F.BIST_PASS_POS + 1 < s.rd pgBIST F.BIST_PASS_SLICES →
      (s.testDone u).rd pgBIST F.BIST_PASS_POS = (s.rd pgBIST F.BIST_PASS_POS + 1) % 2 ^ 24 ∧
      nget (s.testDone u).bist.doneOf (unitKey u) = nget s.bist.doneOf (unitKey u) + 1) ∧
    (s.rd pgBIST F.BIST_PASS_SLICES ≤ s.rd pgBIST F.BIST_PASS_POS + 1 → (s.testDone u).rd pgBIST F.BIST_PASS_POS = 0) := by
  unfold State.testDone
  extract_lets pos bist1 s1
  constructor
  · intro h
    rw [if_pos h]
    refine ⟨State.rdi_wri_self _ _ _ _ _, ?_⟩
    change nget (nput s.bist.doneOf (unitKey u) (nget s.bist.doneOf (unitKey u) + 1)) (unitKey u) = _
    rw [nget, nput, ngetD_nputD_self]
  · intro h
    rw [if_neg (by omega)]
    refine (State.rdi_wri_ne _ _ (by decide)).trans ?_
    rw [State.rdi_wri_self]
    rfl

/-- A slice that passes: the test is done. -/
def passed (s : State) (u : BistUnit) : State := ((s.dropSlice u).slicePassed u).testDone u

theorem passed_spec (s : State) (u : BistUnit) : (passed s u).testing u = false ∧
    (s.rd pgBIST F.BIST_PASS_POS + 1 < s.rd pgBIST F.BIST_PASS_SLICES →
      (passed s u).rd pgBIST F.BIST_PASS_POS = (s.rd pgBIST F.BIST_PASS_POS + 1) % 2 ^ 24 ∧
      nget (passed s u).bist.doneOf (unitKey u) = nget s.bist.doneOf (unitKey u) + 1) ∧
    (s.rd pgBIST F.BIST_PASS_SLICES ≤ s.rd pgBIST F.BIST_PASS_POS + 1 → (passed s u).rd pgBIST F.BIST_PASS_POS = 0) := by
  obtain ⟨hb, hf⟩ := testKept_slicePassed (s.dropSlice u) u
  have hpos : ((s.dropSlice u).slicePassed u).rd pgBIST F.BIST_PASS_POS = s.rd pgBIST F.BIST_PASS_POS := hf (by unfold lowField; decide)
  have hsl : ((s.dropSlice u).slicePassed u).rd pgBIST F.BIST_PASS_SLICES = s.rd pgBIST F.BIST_PASS_SLICES := hf (by unfold lowField; decide)
  have hdone : ((s.dropSlice u).slicePassed u).bist.doneOf = s.bist.doneOf := by rw [hb]; rfl
  have hspec := testDone_spec ((s.dropSlice u).slicePassed u) u
  rw [hpos, hsl, hdone] at hspec
  refine ⟨?_, hspec⟩
  rw [State.testing, passed, running_testDone, hb]
  exact testing_dropSlice s u

theorem bistSliceEnd_clean {s : State} {u : BistUnit} {x : Slice} (hx : (s.bist.running.find? fun y => y.unit == u) = some x) :
    ∃ t, exec (.bistSliceEnd u none) s = .next t ∧ t.testing u = false ∧
      (s.rd pgBIST F.BIST_PASS_POS + 1 < s.rd pgBIST F.BIST_PASS_SLICES →
        t.rd pgBIST F.BIST_PASS_POS = (s.rd pgBIST F.BIST_PASS_POS + 1) % 2 ^ 24 ∧
        nget t.bist.doneOf (unitKey u) = nget s.bist.doneOf (unitKey u) + 1) ∧
      (s.rd pgBIST F.BIST_PASS_SLICES ≤ s.rd pgBIST F.BIST_PASS_POS + 1 → t.rd pgBIST F.BIST_PASS_POS = 0) := by
  cases hf : x.first with
  | none =>
    refine ⟨passed s u, ?_, passed_spec s u⟩
    change execBistSliceEnd u none s = _
    simp only [execBistSliceEnd, hx, hf]
    rfl
  | some a =>
    refine ⟨passed (s.count pgBIST 0x058 1) u, ?_, passed_spec (s.count pgBIST 0x058 1) u⟩
    change execBistSliceEnd u none s = _
    simp only [execBistSliceEnd, hx, hf]
    rfl

/-- The slice of a unit run again after a mismatch. -/
def runAgain (s : State) (u : BistUnit) (m : BistSub) : State :=
  { s with bist := { s.bist with running := s.bist.running.map fun (y : Slice) => if y.unit = u then { y with first := some m, clk := s.now } else y } }

theorem find_runAgain {s : State} {u : BistUnit} {x : Slice} (m : BistSub) (hx : (s.bist.running.find? fun y => y.unit == u) = some x) :
    ((runAgain s u m).bist.running.find? fun y => y.unit == u) = some { x with first := some m, clk := s.now } := by
  have hu : x.unit = u := by simpa using List.find?_some hx
  have hcomp : ((fun y : Slice => y.unit == u) ∘ fun y : Slice => if y.unit = u then { y with first := some m, clk := s.now } else y) =
      fun y => y.unit == u := by
    funext y
    by_cases h : y.unit = u
    · simp [h]
    · simp [h]
  rw [runAgain, List.find?_map, hcomp, hx, Option.map_some, if_pos hu]

theorem bistSliceEnd_again {s : State} {u : BistUnit} {x : Slice} {m : BistSub} (hx : (s.bist.running.find? fun y => y.unit == u) = some x)
    (hm : x.first ≠ some m) :
    ∃ t y, exec (.bistSliceEnd u (some m)) s = .next t ∧ (t.bist.running.find? fun z => z.unit == u) = some y ∧ y.first = some m ∧
      y.clk = s.now ∧ t.regs = s.regs ∧ t.ctrs = s.ctrs := by
  refine ⟨runAgain s u m, _, ?_, find_runAgain m hx, rfl, rfl, rfl, rfl⟩
  change execBistSliceEnd u (some m) s = _
  cases hf : x.first with
  | none =>
    simp only [execBistSliceEnd, hx, hf]
    rfl
  | some a =>
    have ha : a ≠ m := fun h => hm (by rw [hf, h])
    simp only [execBistSliceEnd, hx, hf, if_pos ha]
    rfl

/-! A proven fault -/

theorem Onward.testDone {p : Nat} {z s : State} {u : BistUnit} (h : Onward p z s) : Onward p z (s.testDone u) := by
  unfold State.testDone
  extract_lets pos bist1 s1 s2 bist2
  have h1 : Onward p z s1 := h.of
  have h2 : Onward p z s2 := h1.wri.bump
  clear_value s2
  exact .ite h1.wri h2.of

theorem Onward.lastFail {p : Nat} {z s : State} {u : BistUnit} (h : Onward p z s) : Onward p z (s.lastFail u) := h.wri.wri.wri

theorem bistSliceEnd_proven {s : State} {u : BistUnit} {x : Slice} {m : BistSub} (hx : (s.bist.running.find? fun y => y.unit == u) = some x)
    (hm : x.first = some m) :
    ∃ t, exec (.bistSliceEnd u (some m)) s = .next t ∧ Raised t pgBIST 0 ∧ t.ctr pgBIST 0x05C = s.ctr pgBIST 0x05C + 1 := by
  have ho : Onward pgBIST (((s.dropSlice u).count pgBIST 0x05C 1).raise pgBIST 0)
      (((((((s.dropSlice u).count pgBIST 0x05C 1).raise pgBIST 0).lastFail u).repair u m).testDone u).recount) :=
    (Onward.refl _ _).lastFail.repair.testDone.recount
  refine ⟨_, ?_, ho.events 0 (by decide) (raised_raise _ _ _ (by decide)), ho.faults.trans ?_⟩
  · change execBistSliceEnd u (some m) s = _
    simp only [execBistSliceEnd, hx, hm, ne_eq, not_true_eq_false, if_false]
  · rw [ctr_raise _ _ _ (by decide), State.ctr_count_self]
    rfl

/-! A slice put off is due again -/

theorem bistDeferExpire_due (u : BistUnit) (s : State) (clk : Nat) (h : (s.bist.deferred.find? fun e => e.1 == u) = some (u, clk))
    (hc : clk + s.rd pgBIST F.BIST_DEFER_MS * clkMs ≤ s.now) :
    ∃ t, exec (.bistDeferExpire u) s = .next t ∧ t.bist.sched = u :: s.bist.sched ∧ t.bist.deferred = s.bist.deferred.erase (u, clk) ∧
      t = { s with bist := t.bist } := by
  refine ⟨{ s with bist := { s.bist with deferred := s.bist.deferred.erase (u, clk), sched := u :: s.bist.sched } }, ?_, rfl, rfl, rfl⟩
  change execBistDeferExpire u s = _
  simp only [execBistDeferExpire, h]
  rw [if_neg (by omega)]

end Sys2Proof
end

section
/-! PROOF. Repairs stored, and the analogue checks (the second part of O47). -/

namespace Sys2Proof

set_option Elab.async false

open Machine

/-! ## Fields of different pages -/

/-- Entry 0 of a field that lies in its page. -/
def ownPage (F0 : Field) : Bool := decide (F0.off * 32 + F0.lo < 131072)

theorem fkey_ne_of_page {p q : Nat} {F0 F1 : Field} (h : p ≠ q) (h0 : ownPage F0 = true := by decide) (h1 : ownPage F1 = true := by decide) :
    fkey p F0 0 ≠ fkey q F1 0 := by
  simp only [ownPage, decide_eq_true_eq] at h0 h1
  simp only [fkey, Nat.mul_zero, Nat.add_zero]
  omega

theorem floorPgOf_above (f : FloorId) : 5 < floorPgOf f := by
  unfold floorPgOf
  simp only [pgFLOOR, pgDIE]
  omega

/-! ## A stored repair takes effect (R470) -/

/-- The record of the repairs after one has been stored. -/
def recorded (s : State) (rest : List (BistUnit × BistSub)) : State :=
  let s1 := { s with bist := { s.bist with stores := rest, seq := s.bist.seq + 1 } }
  ((s1.wr pgBIST F.BIST_RECORD_FREE (s1.rd pgBIST F.BIST_RECORD_FREE - 1)).count pgBIST 0x060 1).raise pgBIST 1

/-- What the repair's effect leaves of the record. -/
structure RecordKept (s t : State) : Prop where
  stores : t.bist.stores = s.bist.stores
  told : Raised s pgBIST 1 → Raised t pgBIST 1
  count : t.ctr pgBIST 0x060 = s.ctr pgBIST 0x060
  free : t.rd pgBIST F.BIST_RECORD_FREE = s.rd pgBIST F.BIST_RECORD_FREE

theorem RecordKept.refl (s : State) : RecordKept s s := ⟨rfl, id, rfl, rfl⟩

/-- Changes of the self-test's own state, its list of repairs apart. -/
theorem RecordKept.of {s t u : State} (h : RecordKept s t) (e1 : u.regs = t.regs) (e2 : u.variant = t.variant) (e3 : u.ctrs = t.ctrs)
    (e4 : u.bist.stores = t.bist.stores) : RecordKept s u :=
  ⟨e4.trans h.stores, fun hr => raised_congr e1 (h.told hr), (by rw [State.ctr, e3]; exact h.count), (State.rdi_congr e1 e2 _ _ _).trans h.free⟩

theorem RecordKept.wri {s t : State} {pg i v : Nat} {F0 : Field} (h : RecordKept s t) (hp : 5 < pg) : RecordKept s (t.wri pg F0 i v) := by
  have hne : ∀ {F1 : Field}, ownPage F1 = true → fkey pgBIST F1 0 ≠ fkey pg F0 i := fun {F1} h1 => by
    simp only [ownPage, decide_eq_true_eq] at h1
    simp only [fkey, pgBIST, Nat.mul_zero, Nat.add_zero]
    omega
  exact ⟨h.stores, fun hr => raised_wri (hne (by decide)) (h.told hr), h.count, (State.rdi_wri_ne _ _ (hne (by decide))).trans h.free⟩

theorem RecordKept.raise {s t : State} {pg bit : Nat} (h : RecordKept s t) : RecordKept s (t.raise pg bit) := by
  refine ⟨?_, fun hr => raised_mono _ _ (by decide) (h.told hr), (ctr_raise _ _ _ (by decide)).trans h.count, ?_⟩
  · rw [State.raise_bist]
    exact h.stores
  · rw [State.rd, State.rdi_raise_ne]
    · exact h.free
    · simp only [fkey, F.BIST_RECORD_FREE, F.EVT_RAW]
      omega

theorem RecordKept.recount {s t : State} (h : RecordKept s t) : RecordKept s t.recount := by
  refine ⟨?_, fun hr => (Onward.refl pgBIST t).recount.events 1 (by decide) (h.told hr), (ctr_recount _ (by decide)).trans h.count, ?_⟩
  · rw [(recount_quiet t).bist]
    exact h.stores
  · exact (recount_regs t _ _ _ (by decide)).trans h.free

theorem recorded_spec (s : State) (rest : List (BistUnit × BistSub)) : (recorded s rest).bist.stores = rest ∧ Raised (recorded s rest) pgBIST 1 ∧
    (recorded s rest).ctr pgBIST 0x060 = s.ctr pgBIST 0x060 + 1 ∧
    (recorded s rest).rd pgBIST F.BIST_RECORD_FREE = (s.rd pgBIST F.BIST_RECORD_FREE - 1) % 2 ^ 14 := by
  unfold recorded
  extract_lets bist1 s1
  refine ⟨?_, raised_raise _ _ _ (by decide), ?_, ?_⟩
  · rw [State.raise_bist]
    rfl
  · rw [ctr_raise _ _ _ (by decide), State.ctr_count_self]
    rfl
  · rw [State.rd, State.rdi_raise_ne _ (by decide)]
    exact State.rdi_wri_self _ _ _ _ _

theorem spares_recorded (s : State) (rest : List (BistUnit × BistSub)) (f : FloorId) :
    (recorded s rest).rd (floorPgOf f) F.FLOOR_SEG_SPARES = s.rd (floorPgOf f) F.FLOOR_SEG_SPARES := by
  have hne : floorPgOf f ≠ pgBIST := by
    have := floorPgOf_above f
    unfold pgBIST
    omega
  unfold recorded
  extract_lets bist1 s1
  rw [State.rd, State.rdi_raise_ne _ (fkey_ne_of_page hne)]
  exact State.rdi_wri_ne _ _ (fkey_ne_of_page hne)

/-- A slice of the unit runs again after a repair. -/
def rerun (s : State) (u : BistUnit) : State :=
  { s with bist := { s.bist with running := s.bist.running ++ [({ unit := u, clk := s.now } : Slice)] } }

/-- One more repair of a bank. -/
def bankFixed (s : State) (k : Nat) : State := { s with bist := { s.bist with bankFix := nadd s.bist.bankFix k 1 } }

/-- A spare segment takes the place of a logical one. -/
def segReplaced (s : State) (f : FloorId) (g : Fin 32) : State :=
  if s.rd (floorPgOf f) F.FLOOR_SEG_SPARES = 0 then s
  else (((s.wri (floorPgOf f) F.FLOOR_SEG_PHYS g.val (nextSpare (s.rd (floorPgOf f) F.FLOOR_SEG_SPARES))).wr (floorPgOf f) F.FLOOR_SEG_SPARES
    (s.rd (floorPgOf f) F.FLOOR_SEG_SPARES - 1)).poisonSeg (floorPgOf f) g.val).raise (floorPgOf f) 8

/-- A plane is replaced by the spare one. -/
def planeReplaced (s : State) (k : Nat) : State := ({ s with bist := { s.bist with planesBad := nput s.bist.planesBad k 1 } }).noSpareTest k

/-- The effect of a stored repair. -/
def repaired (s : State) (u : BistUnit) (x : BistSub) : State :=
  match u, x with
  | .vat v, .column q c => rerun (s.wr (vatPg v) (tunMap q) c.val) u
  | .vat v, .line b => rerun (bankFixed s (vatPg v * 32 + 2 * b.val)) u
  | .vat v, .bitCol b => rerun (bankFixed s (vatPg v * 32 + 2 * b.val + 1)) u
  | .seg f g, _ => segReplaced s f g
  | .plane k, _ => planeReplaced s k.val
  | _, _ => s

theorem exec_repairStored {s : State} {u : BistUnit} {x : BistSub} {rest : List (BistUnit × BistSub)} (h : s.bist.stores = (u, x) :: rest) :
    exec .repairStored s = .next (repaired (recorded s rest) u x).recount := by
  change execRepairStored s = _
  unfold execRepairStored
  rw [h]
  cases u <;> cases x <;> rfl

theorem RecordKept.rerun {s t : State} {u : BistUnit} (h : RecordKept s t) : RecordKept s (rerun t u) := h.of rfl rfl rfl rfl

theorem RecordKept.bankFixed {s t : State} {k : Nat} (h : RecordKept s t) : RecordKept s (bankFixed t k) := h.of rfl rfl rfl rfl

theorem RecordKept.poisonSeg {s t : State} {fp g : Nat} (h : RecordKept s t) : RecordKept s (t.poisonSeg fp g) := h.of rfl rfl rfl rfl

theorem RecordKept.noSpareTest {s t : State} {k : Nat} (h : RecordKept s t) : RecordKept s (t.noSpareTest k) := by
  have h1 : RecordKept s { t with bist := { t.bist with noSpare := t.bist.noSpare ++ [k] } } := h.of rfl rfl rfl rfl
  unfold State.noSpareTest
  split
  · exact h
  · exact h1.raise

theorem RecordKept.segReplaced {s t : State} {f : FloorId} {g : Fin 32} (h : RecordKept s t) : RecordKept s (segReplaced t f g) := by
  unfold Sys2Proof.segReplaced
  split
  · exact h
  · exact ((h.wri (floorPgOf_above f)).wri (floorPgOf_above f)).poisonSeg.raise

theorem RecordKept.planeReplaced {s t : State} {k : Nat} (h : RecordKept s t) : RecordKept s (planeReplaced t k) := by
  have h1 : RecordKept s { t with bist := { t.bist with planesBad := nput t.bist.planesBad k 1 } } := h.of rfl rfl rfl rfl
  exact h1.noSpareTest

theorem recordKept_repaired (s : State) (u : BistUnit) (x : BistSub) : RecordKept s (repaired s u x) := by
  have h := RecordKept.refl s
  unfold repaired
  split
  · next v _ _ => exact (h.wri (by have := vatPg_above v; omega)).rerun
  · exact h.bankFixed.rerun
  · exact h.bankFixed.rerun
  · exact h.segReplaced
  · exact h.planeReplaced
  · exact h

theorem tunMap_width (q : Fin 4) : (tunMap q).width = 5 := by
  unfold tunMap
  split
  · rfl
  · split
    · rfl
    · split <;> rfl

theorem repairStored_effect {s : State} {u : BistUnit} {x : BistSub} {rest : List (BistUnit × BistSub)} (h : s.bist.stores = (u, x) :: rest) :
    ∃ t, exec .repairStored s = .next t ∧ t.bist.stores = rest ∧ Raised t pgBIST 1 ∧ t.ctr pgBIST 0x060 = s.ctr pgBIST 0x060 + 1 ∧
      t.rd pgBIST F.BIST_RECORD_FREE = (s.rd pgBIST F.BIST_RECORD_FREE - 1) % 2 ^ 14 ∧
      (∀ v q c, u = .vat v → x = .column q c → t.rd (vatPg v) (tunMap q) = c.val ∧ t.testing u = true) ∧
      (∀ f g, u = .seg f g → s.rd (floorPgOf f) F.FLOOR_SEG_SPARES ≠ 0 → Raised t (floorPgOf f) 8) := by
  obtain ⟨hk1, hk2, hk3, hk4⟩ := (recordKept_repaired (recorded s rest) u x).recount
  obtain ⟨hr1, hr2, hr3, hr4⟩ := recorded_spec s rest
  refine ⟨_, exec_repairStored h, hk1.trans hr1, hk2 hr2, hk3.trans hr3, hk4.trans hr4, ?_, ?_⟩
  · rintro v q c rfl rfl
    constructor
    · refine (rdi_recount_above _ (vatPg_above v)).trans ((State.rdi_wri_self _ _ _ _ _).trans ?_)
      rw [tunMap_width]
      exact Nat.mod_eq_of_lt (by omega)
    · rw [State.testing, (recount_quiet _).bist]
      exact testing_of_running rfl rfl
  · rintro f g rfl hs
    refine (Onward.refl (floorPgOf f) _).recount.events 8 (by decide) ?_
    change Raised (segReplaced (recorded s rest) f g) _ _
    unfold segReplaced
    rw [if_neg (by rwa [spares_recorded])]
    exact raised_raise _ _ _ (by decide)

theorem passPositionStore_stores (s : State) (h : s.bist.storeClk + clkHour ≤ s.now) : exec .passPositionStore s =
    .next { s with bist := { s.bist with savedPos := s.rd pgBIST F.BIST_PASS_POS, savedPasses := s.rd pgBIST F.BIST_PASSES, storeClk := s.now } } := by
  change execPassPositionStore s = _
  rw [execPassPositionStore, if_neg (by omega)]

end Sys2Proof
end

section
/-! PROOF. The analogue checks (the third part of O47), and O47. -/

namespace Sys2Proof

set_option Elab.async false

open Machine

/-! ## A check that has run, and a second failure (R468) -/

theorem quiet_analogRun (s : State) (ok : Bool) : Quiet s (s.analogRun ok) := by
  cases ok
  · exact (((quiet_refl s).count _ _ _).count _ _ _).raise _ _
  · exact (quiet_refl s).count _ _ _

theorem ctr_analogRun_passed (s : State) : (s.analogRun true).ctr pgBIST 0x068 = s.ctr pgBIST 0x068 + 1 := State.ctr_count_self _ _ _ _

theorem analogRun_failed (s : State) : Raised (s.analogRun false) pgBIST 5 ∧ (s.analogRun false).ctr pgBIST 0x06C = s.ctr pgBIST 0x06C + 1 := by
  refine ⟨raised_raise _ _ _ (by decide), (ctr_raise _ _ _ (by decide)).trans ?_⟩
  rw [State.ctr_count_self, State.ctr_count_ne _ _ (by decide)]

/-- The consecutive failures of check `k`. -/
def failures (s : State) (k n : Nat) : State := { s with bist := { s.bist with checkFail := nput s.bist.checkFail k n } }

theorem checkFail_failures (s : State) (k n : Nat) : nget (failures s k n).bist.checkFail k = n := by
  rw [failures, nget, nput, ngetD_nputD_self]

theorem Onward.failures {p : Nat} {z s : State} {k n : Nat} (h : Onward p z s) : Onward p z (failures s k n) := h.of

section
variable {s : State} {k : Nat} {body : State → State}

theorem twice_passed : s.twice k true body = failures s k 0 := rfl

theorem twice_first (h : nget s.bist.checkFail k = 0) : s.twice k false body = failures s k 1 := by
  simp only [State.twice, h, Bool.false_eq_true, if_false]
  rfl

theorem twice_second (h : nget s.bist.checkFail k = 1) : s.twice k false body = body (failures s k 0) := by
  simp only [State.twice, h, Bool.false_eq_true, if_false]
  rfl

/-- What a further failure and its second keep. -/
theorem twice_induction {P : State → Prop} (ok : Bool) (h : ∀ n, P (failures s k n)) (hb : ∀ t, P t → P (body t)) : P (s.twice k ok body) := by
  unfold State.twice
  extract_lets n s1
  split
  · exact hb _ (h _)
  · exact h _

end

/-! ## Channels -/

/-- The channel is to be retired. -/
def chanDue (s : State) (k : Nat) : State := { s with lp := { s.lp with chDue := if s.lp.chDue.contains k then s.lp.chDue else s.lp.chDue ++ [k] } }

theorem mem_chanDue (s : State) (k : Nat) : k ∈ (chanDue s k).lp.chDue := by
  unfold chanDue
  dsimp only
  split
  · next h => simpa using h
  · simp

/-- A failed check told to the channel's group. -/
def phyTold (s : State) (pg k : Nat) : State := (s.raise pg 6).capture pg 4 k none

theorem phyTold_spec (s : State) (pg k : Nat) : Quiet s (phyTold (s.analogRun false) pg k) ∧ Raised (phyTold (s.analogRun false) pg k) pgBIST 5 ∧
    Raised (phyTold (s.analogRun false) pg k) pg 6 ∧ (phyTold (s.analogRun false) pg k).ctr pgBIST 0x06C = s.ctr pgBIST 0x06C + 1 := by
  obtain ⟨hf, hc⟩ := analogRun_failed s
  refine ⟨((quiet_analogRun s false).raise _ _).capture _ _ _ _, ?_, ?_, ?_⟩
  · exact (Onward.refl _ (s.analogRun false)).raise.capture.events 5 (by decide) hf
  · exact (Onward.refl _ ((s.analogRun false).raise _ 6)).capture.events 6 (by decide) (raised_raise _ _ _ (by decide))
  · rw [phyTold, ctr_capture _ _ _ _ _ (by decide), ctr_raise _ _ _ (by decide), hc]

theorem exec_lpddrPhyCheck {die : Fin 4} {ch : Fin 32} {s : State} (ha : s.analogOn = true) (hu : s.hasUnit (pgDIE die.val) = true)
    (hr : s.chanRetired die.val ch.val = false) (ok : Bool) : exec (.lpddrPhyCheck die ch ok) s =
      .next ((if ok then s.analogRun ok else phyTold (s.analogRun ok) (pgLPG die.val (ch.val / 8)) (32 * die.val + ch.val)).twice
        (32 * die.val + ch.val) ok fun t => chanDue t (32 * die.val + ch.val)) := by
  have hg : ¬((!s.analogOn || !s.hasUnit (pgDIE die.val) || s.chanRetired die.val ch.val) = true) := by
    rw [ha, hu, hr]
    decide
  change execLpddrPhyCheck die ch ok s = _
  unfold execLpddrPhyCheck
  extract_lets n s1 pg s2
  rw [if_neg hg]
  rfl

theorem lpddrPhyCheck_passes {die : Fin 4} {ch : Fin 32} {s : State} (ha : s.analogOn = true) (hu : s.hasUnit (pgDIE die.val) = true)
    (hr : s.chanRetired die.val ch.val = false) :
    ∃ t, exec (.lpddrPhyCheck die ch true) s = .next t ∧ t.ctr pgBIST 0x068 = s.ctr pgBIST 0x068 + 1 ∧
      nget t.bist.checkFail (32 * die.val + ch.val) = 0 ∧ t.regs = s.regs ∧ t.lp = s.lp :=
  ⟨_, exec_lpddrPhyCheck ha hu hr true, ctr_analogRun_passed s, checkFail_failures _ _ _, rfl, rfl⟩

theorem lpddrPhyCheck_fails {die : Fin 4} {ch : Fin 32} {s : State} (ha : s.analogOn = true) (hu : s.hasUnit (pgDIE die.val) = true)
    (hr : s.chanRetired die.val ch.val = false) :
    ∃ t, exec (.lpddrPhyCheck die ch false) s = .next t ∧ Raised t pgBIST 5 ∧ Raised t (pgLPG die.val (ch.val / 8)) 6 ∧
      t.ctr pgBIST 0x06C = s.ctr pgBIST 0x06C + 1 ∧ (nget s.bist.checkFail (32 * die.val + ch.val) = 0 → t.lp = s.lp) ∧
      (nget s.bist.checkFail (32 * die.val + ch.val) = 1 → 32 * die.val + ch.val ∈ t.lp.chDue) := by
  obtain ⟨hq, h5, h6, hc⟩ := phyTold_spec s (pgLPG die.val (ch.val / 8)) (32 * die.val + ch.val)
  have hexec := exec_lpddrPhyCheck ha hu hr false
  rw [if_neg (by decide)] at hexec
  generalize phyTold (s.analogRun false) (pgLPG die.val (ch.val / 8)) (32 * die.val + ch.val) = u at hq h5 h6 hc hexec
  refine ⟨_, hexec, ?_, ?_, ?_, fun h => ?_, fun h => ?_⟩
  · exact twice_induction (P := fun t => Raised t pgBIST 5) _ (fun _ => raised_congr rfl h5) fun _ h => raised_congr rfl h
  · exact twice_induction (P := fun t => Raised t (pgLPG die.val (ch.val / 8)) 6) _ (fun _ => raised_congr rfl h6) fun _ h => raised_congr rfl h
  · exact twice_induction (P := fun t => t.ctr pgBIST 0x06C = s.ctr pgBIST 0x06C + 1) _ (fun _ => hc) fun _ h => h
  · rw [← hq.bist] at h
    rw [twice_first h]
    exact hq.lp
  · rw [← hq.bist] at h
    rw [twice_second h]
    exact mem_chanDue _ _

/-! ## Links of the cabling (R468) -/

theorem exec_kegEyeCheck {link : Fin 8} {s : State} (ha : s.analogOn = true) (hu : s.hasUnit (pgKEG link.val) = true)
    (hl : s.linkIsUp link.val = true) (ok : Bool) : exec (.kegEyeCheck link ok) s =
      .next ((s.analogRun ok).twice (128 + link.val) ok fun t => (t.retireKeg link.val).recount) := by
  have hg : ¬((!s.analogOn || !s.hasUnit (pgKEG link.val) || !s.linkIsUp link.val) = true) := by
    rw [ha, hu, hl]
    decide
  exact congrArg Host.Outcome.next (if_neg hg)

theorem kegEyeCheck_fails {link : Fin 8} {s : State} (ha : s.analogOn = true) (hu : s.hasUnit (pgKEG link.val) = true)
    (hl : s.linkIsUp link.val = true) :
    ∃ t, exec (.kegEyeCheck link false) s = .next t ∧ Raised t pgBIST 5 ∧
      (nget s.bist.checkFail (128 + link.val) = 0 → t.retired = s.retired ∧ nget t.bist.checkFail (128 + link.val) = 1) ∧
      (nget s.bist.checkFail (128 + link.val) = 1 → t.isRetired (pgKEG link.val) = true) := by
  have hq := quiet_analogRun s false
  have ho : Onward pgBIST (s.analogRun false) ((s.analogRun false).twice (128 + link.val) false fun t => (t.retireKeg link.val).recount) :=
    twice_induction (P := Onward pgBIST (s.analogRun false)) _ (fun _ => (Onward.refl _ _).failures) fun _ h => h.retireKeg.recount
  refine ⟨_, exec_kegEyeCheck ha hu hl false, ho.events 5 (by decide) (analogRun_failed s).1, fun h => ?_, fun h => ?_⟩
  · rw [← hq.bist] at h
    rw [twice_first h]
    exact ⟨hq.retired, checkFail_failures _ _ _⟩
  · rw [← hq.bist] at h
    rw [twice_second h]
    exact (Onward.refl 0 _).recount.isRetired (isRetired_retireKeg _ _)

/-! ## Lanes of the host link (R476) -/

/-- The lane is left out at the next training; the record holds it where it has a free entry. -/
def laneOut (s : State) (lane : Nat) : State :=
  let s1 := s.wr pgHOST F.HOST_LANE_EXCL (setBit (s.rd pgHOST F.HOST_LANE_EXCL) lane)
  if s1.rd pgBIST F.BIST_RECORD_FREE = 0 then s1.raise pgBIST 8 else s1.wr pgBIST F.BIST_RECORD_FREE (s1.rd pgBIST F.BIST_RECORD_FREE - 1)

theorem Onward.laneOut {p lane : Nat} {z s : State} (h : Onward p z s) : Onward p z (laneOut s lane) := by
  unfold Sys2Proof.laneOut
  extract_lets s1
  have h1 : Onward p z s1 := h.wri
  exact .ite h1.raise h1.wri

theorem laneExcl_laneOut (s : State) (lane : Fin 8) : nbit ((laneOut s lane.val).rd pgHOST F.HOST_LANE_EXCL) lane.val = true := by
  unfold laneOut
  extract_lets s1
  have h1 : nbit (s1.rd pgHOST F.HOST_LANE_EXCL) lane.val = true := by
    have hv : s1.rd pgHOST F.HOST_LANE_EXCL = setBit (s.rd pgHOST F.HOST_LANE_EXCL) lane.val % 2 ^ 8 := State.rdi_wri_self _ _ _ _ _
    rw [hv, nbit_mod _ _ _ lane.isLt, setBit, nbit_lor]
    simp
  split
  · rw [State.rd, State.rdi_raise_ne _ (by decide)]
    exact h1
  · rw [State.rd, State.rdi_wri_ne _ _ (by decide)]
    exact h1

theorem pcieEyeCheck_passes (lane : Fin 8) {s : State} (ha : s.analogOn = true) (hl : s.linkUp = true) :
    exec (.pcieEyeCheck lane true) s = .next (s.analogRun true) := by
  change execPcieEyeCheck lane true s = _
  unfold execPcieEyeCheck
  rw [ha, hl]
  rfl

theorem pcieEyeCheck_fails (lane : Fin 8) {s : State} (ha : s.analogOn = true) (hl : s.linkUp = true) :
    ∃ t, exec (.pcieEyeCheck lane false) s = .next t ∧ Raised t pgBIST 5 ∧ nbit (t.rd pgHOST F.HOST_LANE_EXCL) lane.val = true := by
  have hexec : exec (.pcieEyeCheck lane false) s = .next (if nbit ((s.analogRun false).rd pgHOST F.HOST_LANE_EXCL) lane.val then s.analogRun false
      else laneOut (s.analogRun false) lane.val) := by
    change execPcieEyeCheck lane false s = _
    unfold execPcieEyeCheck
    rw [ha, hl]
    rfl
  obtain ⟨h5, -⟩ := analogRun_failed s
  refine ⟨_, hexec, ?_⟩
  split
  · next h => exact ⟨h5, h⟩
  · exact ⟨(Onward.refl _ _).laneOut.events 5 (by decide) h5, laneExcl_laneOut _ _⟩

/-! ## Clock domains (R23) -/

theorem vatPg_ne_floorOfVat (v : VatId) : vatPg v ≠ floorOfVat (vatPg v) := by
  have hv := v.vat.isLt
  unfold floorOfVat vatPg
  simp only [pgVAT, pgFLOOR, pgDIE]
  omega

/-- An abandoned rotation leaves the self-test's state and every other page. -/
theorem abandonRotation_keeps (s : State) (fp : Nat) : (s.abandonRotation fp).bist = s.bist ∧
    ∀ {pg F0}, pg ≠ fp → ownPage F0 = true → (s.abandonRotation fp).rd pg F0 = s.rd pg F0 := by
  unfold State.abandonRotation
  split
  · refine ⟨State.raise_bist _ _ _, fun hp hF => ?_⟩
    have hne : ∀ {F1 : Field}, ownPage F1 = true → fkey _ _ 0 ≠ fkey fp F1 0 := fun h1 => fkey_ne_of_page hp hF h1
    rw [State.rd, State.rdi_raise_ne _ (hne (by decide))]
    refine (State.rdi_wri_ne _ _ (hne (by decide))).trans ?_
    rw [State.rdi_wri_ne _ _ (hne (by decide)), State.rdi_wri_ne _ _ (hne (by decide)), State.rdi_wri_ne _ _ (hne (by decide))]
    rfl
  · exact ⟨rfl, fun _ _ => rfl⟩

theorem clkHold_holdVat (s : State) (pg : Nat) (h : Bool) : (s.holdVat pg h).rd pg F.VAT_RUN_CLK_HOLD = boolNat h :=
  (State.rdi_wri_self _ _ _ _ _).trans (by cases h <;> rfl)

/-- The domain's PLL relocks. -/
def relocking (s : State) (dom : ClkDomain) : State := { s with bist := { s.bist with relock := s.bist.relock ++ [dom] } }

/-- A vat out of its clock's window holds, and leaves the rotation it is in. -/
def vatHeld (s : State) (pg : Nat) : State :=
  let s1 := s.holdVat pg true
  if s1.rd (floorOfVat pg) F.FLOOR_ROT_STATUS_OUT = physOfVat pg ∨ s1.rd (floorOfVat pg) F.FLOOR_ROT_STATUS_IN = physOfVat pg then
    s1.abandonRotation (floorOfVat pg) else s1

theorem Onward.vatHeld {p pg : Nat} {z s : State} (h : Onward p z s) : Onward p z (vatHeld s pg) := by
  unfold Sys2Proof.vatHeld
  extract_lets s1
  have h1 : Onward p z s1 := h.setVat.wri
  exact .ite h1.abandonRotation h1

theorem bist_vatHeld (s : State) (pg : Nat) : (vatHeld s pg).bist = s.bist := by
  unfold vatHeld
  extract_lets s1
  split
  · exact (abandonRotation_keeps _ _).1
  · rfl

theorem clkHold_vatHeld (s : State) (v : VatId) : (vatHeld s (vatPg v)).rd (vatPg v) F.VAT_RUN_CLK_HOLD = 1 := by
  unfold vatHeld
  extract_lets s1
  have h1 : s1.rd (vatPg v) F.VAT_RUN_CLK_HOLD = 1 := clkHold_holdVat s (vatPg v) true
  split
  · exact ((abandonRotation_keeps _ _).2 (vatPg_ne_floorOfVat v) (by decide)).trans h1
  · exact h1

theorem contains_relock_iff {s : State} {dom : ClkDomain} : s.bist.relock.contains dom = true ↔ dom ∈ s.bist.relock := List.contains_iff_mem

/-- A domain outside its window relocks; its vat holds. -/
def unlocked (s : State) (dom : ClkDomain) : State :=
  match dom with
  | .vat v => vatHeld (relocking s dom) (vatPg v)
  | _ => relocking s dom

theorem unlocked_spec (s : State) (dom : ClkDomain) : (unlocked s dom).bist.relock = s.bist.relock ++ [dom] ∧ Onward pgBIST s (unlocked s dom) ∧
    ∀ v, dom = .vat v → (unlocked s dom).rd (vatPg v) F.VAT_RUN_CLK_HOLD = 1 := by
  have ho : ∀ d, Onward pgBIST s (relocking s d) := fun _ => (Onward.refl _ _).of
  unfold unlocked
  split
  · next v =>
    refine ⟨by rw [bist_vatHeld]; rfl, (ho _).vatHeld, ?_⟩
    rintro v' ⟨⟩
    exact clkHold_vatHeld _ v
  · next hno => exact ⟨rfl, ho _, fun v h => absurd h (hno v)⟩

theorem exec_pllCheck {dom : ClkDomain} {s : State} (hd : s.domThere dom = true) (hr : dom ∉ s.bist.relock) (ok : Bool) :
    exec (.pllCheck dom ok) s = .next (if ok then s.analogRun ok else unlocked (s.analogRun ok) dom) := by
  have hr' : s.bist.relock.contains dom = false := by
    rw [Bool.eq_false_iff, ne_eq, contains_relock_iff]
    exact hr
  change execPllCheck dom ok s = _
  unfold execPllCheck
  rw [hd, hr']
  cases ok
  · cases dom <;> rfl
  · rfl

theorem pllCheck_fails {dom : ClkDomain} {s : State} (hd : s.domThere dom = true) (hr : dom ∉ s.bist.relock) :
    ∃ t, exec (.pllCheck dom false) s = .next t ∧ t.bist.relock = s.bist.relock ++ [dom] ∧ Raised t pgBIST 5 ∧
      ∀ v, dom = .vat v → t.rd (vatPg v) F.VAT_RUN_CLK_HOLD = 1 := by
  obtain ⟨hl, ho, hv⟩ := unlocked_spec (s.analogRun false) dom
  exact ⟨_, exec_pllCheck hd hr false, by rw [← (quiet_analogRun s false).bist]; exact hl, ho.events 5 (by decide) (analogRun_failed s).1, hv⟩

/-- The domain's relock is over. -/
def relocked (s : State) (dom : ClkDomain) : State := { s with bist := { s.bist with relock := s.bist.relock.erase dom } }

/-- A domain that has locked again; its vat goes on. -/
def lockedAgain (s : State) (dom : ClkDomain) : State :=
  match dom with
  | .vat v => (relocked s dom).holdVat (vatPg v) false
  | _ => relocked s dom

theorem exec_pllRelock {dom : ClkDomain} {s : State} (hr : dom ∈ s.bist.relock) (ok : Bool) :
    exec (.pllRelock dom ok) s = .next (if ok then lockedAgain s dom else ((relocked s dom).domainLost dom).recount) := by
  change execPllRelock dom ok s = _
  unfold execPllRelock
  rw [contains_relock_iff.mpr hr]
  cases ok
  · rfl
  · cases dom <;> rfl

theorem lockedAgain_spec (s : State) (dom : ClkDomain) : (lockedAgain s dom).bist.relock = s.bist.relock.erase dom ∧
    (lockedAgain s dom).retired = s.retired ∧ ∀ v, dom = .vat v → (lockedAgain s dom).rd (vatPg v) F.VAT_RUN_CLK_HOLD = 0 := by
  unfold lockedAgain
  split
  · next v =>
    refine ⟨rfl, rfl, ?_⟩
    rintro v' ⟨⟩
    exact clkHold_holdVat _ _ false
  · next hno => exact ⟨rfl, rfl, fun v h => absurd h (hno v)⟩

theorem isRetired_retireMill (s : State) : s.retireMill.isRetired pgMILL = true := by
  unfold State.retireMill
  split
  · assumption
  · exact (Onward.refl 0 _).millRetire.isRetired (isRetired_markRetired _ _)

theorem pllRelock_fails {dom : ClkDomain} {s : State} (hr : dom ∈ s.bist.relock) :
    ∃ t, exec (.pllRelock dom false) s = .next t ∧ (dom = .mill → t.isRetired pgMILL = true) ∧ (dom = .gauger → t.isRetired pgGAU = true) := by
  refine ⟨_, exec_pllRelock hr false, ?_, ?_⟩
  · rintro rfl
    exact (Onward.refl 0 _).recount.isRetired (isRetired_retireMill _)
  · rintro rfl
    exact (Onward.refl 0 _).recount.isRetired (isRetired_markRetired _ _)

/-! ## Lines of the time base (R468) -/

/-- Counting the units in service keeps the time-base bits of `MOD.FIXED_SVC`. -/
theorem capabilities_lines (s : State) {c : Field × Nat} (h : c ∈ s.capabilities) : fkey pgMOD F.MOD_FIXED_SVC 0 ≠ fkey pgMOD c.1 0 ∨
    c.1 = F.MOD_FIXED_SVC ∧ bits (c.2 % 2 ^ 6) 4 2 = bits (s.rd pgMOD F.MOD_FIXED_SVC) 4 2 := by
  have hb : ∀ b : Bool, boolNat b ≤ 1 := by decide
  have hv : ∀ (a b c d : Bool) (x : Nat), bits ((boolNat a + 2 * boolNat b + 4 * boolNat c + 8 * boolNat d + 16 * bits x 4 2) % 2 ^ 6) 4 2 = bits x 4 2 := by
    intro a b c d x
    have ha := hb a
    have hb' := hb b
    have hc := hb c
    have hd := hb d
    unfold bits
    omega
  simp only [State.capabilities, List.mem_cons, List.not_mem_nil, or_false] at h
  rcases h with e | e | e | e | e | e | e | e | e | e | e | e | e
  case inr.inr.inr.inr.inr.inr.inr.inr.inr.inr.inr.inl => exact .inr ⟨by rw [e], by rw [e]; exact hv _ _ _ _ _⟩
  all_goals exact .inl (by rw [e]; dsimp only; decide)

theorem lines_recount (s : State) : bits (s.recount.rd pgMOD F.MOD_FIXED_SVC) 4 2 = bits (s.rd pgMOD F.MOD_FIXED_SVC) 4 2 := by
  have h1 : bits ((s.capabilities.foldl (fun t c => t.wr pgMOD c.1 c.2) s).rd pgMOD F.MOD_FIXED_SVC) 4 2 = bits (s.rd pgMOD F.MOD_FIXED_SVC) 4 2 := by
    refine List.foldlRecOn (motive := fun (t : State) => bits (t.rd pgMOD F.MOD_FIXED_SVC) 4 2 = bits (s.rd pgMOD F.MOD_FIXED_SVC) 4 2) _ _ rfl
      fun t ht c hc => ?_
    rcases capabilities_lines s hc with hne | ⟨he, hv⟩
    · rw [State.rd, State.rdi_wri_ne _ _ hne]
      exact ht
    · rw [he, State.rd, State.rdi_wri_self]
      exact hv
  unfold State.recount
  extract_lets caps changed s1 s2 g s3
  have h2 : s2.rd pgMOD F.MOD_FIXED_SVC = s1.rd pgMOD F.MOD_FIXED_SVC := by
    refine (State.rdi_wri_ne _ _ (by decide)).trans ?_
    exact State.rdi_wri_ne _ _ (by decide)
  have h3 : s3.rd pgMOD F.MOD_FIXED_SVC = s1.rd pgMOD F.MOD_FIXED_SVC := by
    refine Eq.trans ?_ h2
    simp only [s3]
    split
    · rfl
    · rw [State.rd, State.rdi_raise_ne _ (by decide), State.rdi_wri_ne _ _ (by decide)]
  have h4 : (s3.raise pgMOD 1).rd pgMOD F.MOD_FIXED_SVC = s1.rd pgMOD F.MOD_FIXED_SVC := (State.rdi_raise_ne _ (by decide)).trans h3
  split
  · rw [h4]
    exact h1
  · rw [h3]
    exact h1

/-- A line's bit of `MOD.FIXED_SVC` is one of the two time-base bits. -/
theorem nbit_line {a b : Nat} (lineB : Bool) (h : bits a 4 2 = bits b 4 2) : nbit a (4 + boolNat lineB) = nbit b (4 + boolNat lineB) := by
  unfold bits at h
  have h4 : a / 2 ^ 4 % 2 = b / 2 ^ 4 % 2 := by omega
  have h5 : a / 2 ^ 5 % 2 = b / 2 ^ 5 % 2 := by omega
  cases lineB
  · exact congrArg (· == 1) h4
  · exact congrArg (· == 1) h5

theorem nbit_clrBit (a i : Nat) : nbit (clrBit a i) i = false := by
  unfold clrBit
  split
  · next h =>
    have hsub : (a - 2 ^ i) / 2 ^ i = a / 2 ^ i - 1 := by simpa using Nat.sub_mul_div a (2 ^ i) 1
    simp only [nbit, beq_iff_eq] at h
    rw [nbit, hsub, beq_eq_false_iff_ne]
    omega
  · next h => exact Bool.eq_false_iff.mpr h

/-- A line of the time base leaves service. -/
def lineOut (s : State) (i : Nat) : State := (s.wr pgMOD F.MOD_FIXED_SVC (clrBit (s.rd pgMOD F.MOD_FIXED_SVC) i)).raise pgMOD 1

theorem nbit_lineOut (s : State) (lineB : Bool) : nbit ((lineOut s (4 + boolNat lineB)).rd pgMOD F.MOD_FIXED_SVC) (4 + boolNat lineB) = false := by
  have hi : 4 + boolNat lineB < 6 := by cases lineB <;> decide
  have hv : (lineOut s (4 + boolNat lineB)).rd pgMOD F.MOD_FIXED_SVC = clrBit (s.rd pgMOD F.MOD_FIXED_SVC) (4 + boolNat lineB) % 2 ^ 6 :=
    (State.rdi_raise_ne _ (by decide)).trans (State.rdi_wri_self _ _ _ _ _)
  rw [hv, nbit_mod _ _ _ hi, nbit_clrBit]

theorem exec_tbLoopbackCheck {lineB : Bool} {s : State} (ha : s.analogOn = true)
    (hl : s.tbFlag (if lineB then F.TBASE_CFG_LINE_B_EN else F.TBASE_CFG_LINE_A_EN) = false) (ok : Bool) :
    exec (.tbLoopbackCheck lineB ok) s = .next (
      if ok || !nbit ((s.analogRun ok).rd pgMOD F.MOD_FIXED_SVC) (4 + boolNat lineB) then s.analogRun ok
      else (lineOut (s.analogRun ok) (4 + boolNat lineB)).recount) := by
  change execTbLoopbackCheck lineB ok s = _
  unfold execTbLoopbackCheck
  rw [ha, hl]
  rfl

theorem tbLoopbackCheck_fails {lineB : Bool} {s : State} (ha : s.analogOn = true)
    (hl : s.tbFlag (if lineB then F.TBASE_CFG_LINE_B_EN else F.TBASE_CFG_LINE_A_EN) = false) :
    ∃ t, exec (.tbLoopbackCheck lineB false) s = .next t ∧ Raised t pgBIST 5 ∧ nbit (t.rd pgMOD F.MOD_FIXED_SVC) (4 + boolNat lineB) = false := by
  obtain ⟨h5, -⟩ := analogRun_failed s
  refine ⟨_, exec_tbLoopbackCheck ha hl false, ?_⟩
  rw [Bool.false_or]
  split
  · next h => exact ⟨h5, by simpa using h⟩
  · have ho : Onward pgBIST (s.analogRun false) (lineOut (s.analogRun false) (4 + boolNat lineB)).recount := (Onward.refl _ _).wri.raise.recount
    exact ⟨ho.events 5 (by decide) h5, (nbit_line lineB (lines_recount _)).trans (nbit_lineOut _ lineB)⟩

/-! The end of a second -/

/-- More than 1 % of the line's windows of the second carried errors, and the other line's none. -/
def lineBad (s : State) (l : Nat) : Bool := decide (nget s.bist.tbWin l < 100 * nget s.bist.tbErr l) && nget s.bist.tbErr (1 - l) == 0

/-- Line `l` judged by the second's counts in `s`. -/
def judgeLine (s t : State) (l : Nat) : State :=
  let t1 := { t with bist := { t.bist with tbSuspect := nput t.bist.tbSuspect l (boolNat (lineBad s l)) } }
  if lineBad s l && !(nget s.bist.tbSuspect l != 0) then t1.raise pgBIST 6 else t1

/-- The counts of the next second. -/
def nextSecond (s t : State) : State := { t with bist := { t.bist with tbWin := [], tbErr := [], tbClk := s.bist.tbClk + clkS } }

theorem suspect_judgeLine (s t : State) (l : Nat) : (judgeLine s t l).bist.tbSuspect = nput t.bist.tbSuspect l (boolNat (lineBad s l)) := by
  unfold judgeLine
  extract_lets bist1 t1
  split
  · rw [State.raise_bist]
  · rfl

theorem raised_judgeLine {s t : State} {l : Nat} (hb : lineBad s l = true) (hs : nget s.bist.tbSuspect l = 0) : Raised (judgeLine s t l) pgBIST 6 := by
  unfold judgeLine
  extract_lets bist1 t1
  rw [if_pos (by rw [hb, hs]; rfl)]
  exact raised_raise _ _ _ (by decide)

theorem Onward.judgeLine {p l : Nat} {z s t : State} (h : Onward p z t) : Onward p z (judgeLine s t l) := by
  unfold Sys2Proof.judgeLine
  extract_lets bist1 t1
  have h1 : Onward p z t1 := h.of
  exact .ite h1.raise h1

theorem tbSpanEnd_judges (s : State) (h : s.bist.tbClk + clkS ≤ s.now) :
    ∃ t, exec .tbSpanEnd s = .next t ∧ t.bist.tbWin = [] ∧ t.bist.tbErr = [] ∧ t.bist.tbClk = s.bist.tbClk + clkS ∧
      (∀ l, l < 2 → nget s.bist.tbWin l < 100 * nget s.bist.tbErr l → nget s.bist.tbErr (1 - l) = 0 →
        nget t.bist.tbSuspect l = 1 ∧ (nget s.bist.tbSuspect l = 0 → Raised t pgBIST 6)) := by
  have hexec : exec .tbSpanEnd s = .next (nextSecond s (judgeLine s (judgeLine s s 0) 1)) := by
    change execTbSpanEnd s = _
    rw [execTbSpanEnd, if_neg (by omega)]
    rfl
  refine ⟨_, hexec, rfl, rfl, rfl, fun l hl hw he => ?_⟩
  have hbad : lineBad s l = true := by rw [lineBad, he, decide_eq_true hw]; rfl
  have hsus : (nextSecond s (judgeLine s (judgeLine s s 0) 1)).bist.tbSuspect =
      nput (nput s.bist.tbSuspect 0 (boolNat (lineBad s 0))) 1 (boolNat (lineBad s 1)) :=
    (suspect_judgeLine s _ 1).trans (by rw [suspect_judgeLine])
  rw [hsus]
  obtain rfl | rfl : l = 0 ∨ l = 1 := by omega
  · refine ⟨?_, fun hs => raised_congr rfl ((Onward.refl _ _).judgeLine.events 6 (by decide) (raised_judgeLine hbad hs))⟩
    rw [nget, nput, ngetD_nputD_ne _ _ _ _ (by decide), nput, ngetD_nputD_self, hbad]
    rfl
  · refine ⟨?_, fun hs => raised_congr rfl (raised_judgeLine hbad hs)⟩
    rw [nget, nput, ngetD_nputD_self, hbad]
    rfl

/-! ## O47 -/

/-- Settles O47: each clause is the lemma of its command; a proven fault and a failed check stay told through the repair by `Onward`. -/
theorem testsAndChecks : Obligations.TestsAndChecks := by
  refine ⟨⟨?_, ?_, ?_, ?_, ?_, ?_, ?_⟩, ?_, ?_, ?_, ?_, ?_, ?_⟩
  · exact bistSchedule_issues
  · intro fn v s h
    refine ⟨fun hg => ?_, fun hg hq => ⟨s.raise pgBIST 9, ?_, raised_raise _ _ _ (by decide), State.raise_bist _ _ _⟩,
      fun u hg hq hu => bistReq_asks fn v s h hg hq hu⟩
    · rw [exec_bistReq fn v s h, requested_no_go s hg]
    · rw [exec_bistReq fn v s h, requested_no_unit s hg hq]
  · intro u s h1 h2 h3 h4 h5 h6 h7 h8
    have h : MayStart s u := ⟨h1, h2, h3, h4, h5, h6, h7, h8⟩
    exact ⟨bistSliceStart_starts h, bistSliceStart_defers h⟩
  · intro u s h
    exact ⟨bistSliceStop_puts_off u s h, fun x hx =>
      ⟨bistSliceEnd_clean hx, fun m hm => bistSliceEnd_again hx hm, fun m hm => bistSliceEnd_proven hx hm⟩⟩
  · exact bistDeferExpire_due
  · exact fun s u x rest h => repairStored_effect h
  · exact fun s h => ⟨_, passPositionStore_stores s h, rfl⟩
  · exact fun die ch s ha hu hr => ⟨lpddrPhyCheck_passes ha hu hr, lpddrPhyCheck_fails ha hu hr⟩
  · exact fun link s ha hu hl => ⟨⟨_, exec_kegEyeCheck ha hu hl true, ctr_analogRun_passed s, checkFail_failures _ _ _, rfl⟩, kegEyeCheck_fails ha hu hl⟩
  · exact fun lane s ha hl => ⟨⟨_, pcieEyeCheck_passes lane ha hl, rfl, ctr_analogRun_passed s⟩, pcieEyeCheck_fails lane ha hl⟩
  · exact fun dom s => ⟨fun hd hr => ⟨⟨_, exec_pllCheck hd hr true, rfl, ctr_analogRun_passed s⟩, pllCheck_fails hd hr⟩,
      fun hr => ⟨⟨_, exec_pllRelock hr true, lockedAgain_spec s dom⟩, pllRelock_fails hr⟩⟩
  · exact fun lineB s ha hl => ⟨⟨_, exec_tbLoopbackCheck ha hl true, rfl, ctr_analogRun_passed s⟩, tbLoopbackCheck_fails ha hl⟩
  · exact tbSpanEnd_judges

end Sys2Proof
end

section
/-! PROOF. What the actions of the register pages share: the access that R41 allows, the fields a write leaves alone, and events that answer no command. -/

namespace Sys2Proof

open Machine

/-! Accesses that R41 allows -/

theorem headerAction_reg {s : State} {p : PageAcc} {o pg off : Nat} {k : PageKind} {pt : Bool} (body : Nat → State)
    (h : s.target (pageReg p o) = .reg pg k off pt) :
    s.headerAction p o body = if mayWriteHeader pg p.fn.val pt then body pg else s.accessErr (pageReg p o) := by
  rw [State.headerAction, h]

theorem headerAction_allowed {s : State} {p : PageAcc} {o pg off : Nat} {k : PageKind} {pt : Bool} (body : Nat → State)
    (h : s.target (pageReg p o) = .reg pg k off pt) (hm : mayWriteHeader pg p.fn.val pt = true) : s.headerAction p o body = body pg :=
  (headerAction_reg body h).trans (if_pos hm)

theorem blockAction_allowed {s : State} {pg fn : Nat} (off : Nat) (body : State → State) (h : s.mayWriteBlock pg fn = true) :
    s.blockAction pg fn off body = body s := if_pos h

/-! Fields that a write leaves alone -/

theorem fkey_ne_on_page (pg : Nat) {F0 F1 : Field} (h : F0.off * 32 + F0.lo ≠ F1.off * 32 + F1.lo) : fkey pg F0 0 ≠ fkey pg F1 0 := by
  simp only [fkey, Nat.mul_zero]
  omega

theorem regsBut_refl (s : State) : RegsBut s s [] := fun _ _ _ _ => rfl

theorem RegsBut.wr {z s : State} {l : List Nat} (h : RegsBut z s l) (pg : Nat) (F0 : Field) (v : Nat) :
    RegsBut z (s.wr pg F0 v) (l ++ [fkey pg F0 0]) := by
  intro p F1 i hk
  simp only [List.mem_append, List.mem_singleton, not_or] at hk
  exact (State.rdi_wri_ne s v hk.2).trans (h p F1 i hk.1)

theorem RegsBut.edges {z s : State} {l : List Nat} (h : RegsBut z s l) (s0 : State) : RegsBut z (State.edges s0 s) l :=
  fun p F1 i hk => (State.rdi_congr (State.edges_regs s0 s) (State.edges_variant s0 s) p F1 i).trans (h p F1 i hk)

theorem rd_of_off {s : State} {pg : Nat} {F0 : Field} (h : s.on pg F0 = false) : s.rd pg F0 = 0 := by simpa using h

theorem on_wr_one (s : State) (pg : Nat) {F0 : Field} (h : F0.width = 1) : (s.wr pg F0 1).on pg F0 = true := by
  rw [State.on, State.rdi_wri_self, h]
  rfl

/-! Events answer no command -/

theorem noAnswer_refl (s : State) : NoAnswer s s := ⟨rfl, rfl, rfl⟩

theorem NoAnswer.trans {s t u : State} (h : NoAnswer s t) (k : NoAnswer t u) : NoAnswer s u := by
  obtain ⟨h1, h2, h3⟩ := h
  obtain ⟨k1, k2, k3⟩ := k
  exact ⟨k1.trans h1, k2.trans h2, k3.trans h3⟩

theorem noAnswer_msix (s : State) (fn vec : Nat) : NoAnswer s (s.msix fn vec) := by
  unfold State.msix
  split
  · exact ⟨rfl, rfl, rfl⟩
  · split <;> exact ⟨rfl, rfl, rfl⟩

theorem NoAnswer.foldl {α : Type} {g : State → α → State} (hg : ∀ t x, NoAnswer t (g t x)) :
    ∀ (l : List α) (s : State), NoAnswer s (l.foldl g s)
  | [], s => noAnswer_refl s
  | x :: l, s => (hg s x).trans (NoAnswer.foldl hg l (g s x))

theorem noAnswer_edges (s0 s : State) : NoAnswer s (State.edges s0 s) := by
  unfold State.edges
  refine NoAnswer.trans ?_ (NoAnswer.foldl (fun t fn => ?_) _ _)
  · split
    · exact noAnswer_msix s 0 1
    · exact noAnswer_refl s
  · split
    · exact noAnswer_msix t fn 0
    · exact noAnswer_refl t

theorem noAnswer_raise (s : State) (pg bit : Nat) : NoAnswer s (s.raise pg bit) :=
  NoAnswer.trans (t := s.wr pg F.EVT_RAW (s.rd pg F.EVT_RAW ||| 2 ^ bit)) ⟨rfl, rfl, rfl⟩ (noAnswer_edges s _)

end Sys2Proof
end

section
/-! PROOF. O23: the actions of the common page header, and EVT.REARM (R37, R38, R41, R42, R43, R48). -/

namespace Sys2Proof

open Machine

section
variable {p : PageAcc} {s : State} {pg off : Nat} {k : PageKind} {pt : Bool}

/-! `EVT_PEND`, `EVT_EN`, `FAULT_CAPT` and `LOCK` (R37, R38, R43) -/

theorem nbit_eq_testBit (n i : Nat) : nbit n i = n.testBit i := by
  rw [nbit, Nat.testBit_eq_decide_div_mod_eq]
  rfl

/-- Clearing the bits that `v` names, as the bits of the result read. -/
theorem nbit_and_complement (a : Nat) (v : Word) {b : Nat} (h : b < 32) : nbit (a &&& (2 ^ 32 - 1 - v.toNat)) b = (nbit a b && !nbit v.toNat b) := by
  have hcompl : 2 ^ 32 - 1 - v.toNat = 2 ^ 32 - (v.toNat + 1) := by omega
  simp only [nbit_eq_testBit]
  rw [Nat.testBit_and, hcompl, Nat.testBit_two_pow_sub_succ v.isLt, decide_eq_true h, Bool.true_and]

theorem exec_evtPendClear (v : Word) (h : s.target (pageReg p 0x028) = .reg pg k off pt) (hm : mayWriteHeader pg p.fn.val pt = true) :
    exec (.evtPendClear p v) s = .next (s.wr pg F.EVT_RAW (s.rd pg F.EVT_RAW &&& (2 ^ 32 - 1 - v.toNat))) :=
  congrArg Host.Outcome.next (headerAction_allowed _ h hm)

theorem evtPendClear_denied (v : Word) (h : s.target (pageReg p 0x028) = .reg pg k off pt) (hm : mayWriteHeader pg p.fn.val pt = false) :
    exec (.evtPendClear p v) s = .next (s.accessErr (pageReg p 0x028)) :=
  congrArg Host.Outcome.next ((headerAction_reg _ h).trans (by rw [hm]; rfl))

theorem evtPendClear_clears (h : s.target (pageReg p 0x028) = .reg pg k off pt) (hm : mayWriteHeader pg p.fn.val pt = true) (v : Word) :
    ∃ t, exec (.evtPendClear p v) s = .next t ∧ t = { s with regs := t.regs } ∧ RegsBut s t [fkey pg F.EVT_RAW 0] ∧
      ∀ b, b < 32 → nbit (t.rd pg F.EVT_RAW) b = (nbit (s.rd pg F.EVT_RAW) b && !nbit v.toNat b) := by
  refine ⟨_, exec_evtPendClear v h hm, rfl, (regsBut_refl s).wr _ _ _, fun b hb => ?_⟩
  rw [State.rd, State.rdi_wri_self]
  exact (nbit_mod _ _ _ hb).trans (nbit_and_complement _ v hb)

theorem exec_evtEnWrite (v : Word) (h : s.target (pageReg p 0x024) = .reg pg k off pt) (hm : mayWriteHeader pg p.fn.val pt = true) :
    exec (.evtEnWrite p v) s = .next (s.edges (s.wr pg F.EVT_EN v.toNat)) :=
  congrArg Host.Outcome.next (headerAction_allowed _ h hm)

theorem evtEnWrite_enables (h : s.target (pageReg p 0x024) = .reg pg k off pt) (hm : mayWriteHeader pg p.fn.val pt = true) (v : Word) :
    ∃ t, exec (.evtEnWrite p v) s = .next t ∧ Quiet s t ∧ NoAnswer s t ∧ RegsBut s t [fkey pg F.EVT_EN 0] ∧ t.rd pg F.EVT_EN = v.toNat := by
  have hset : (s.wr pg F.EVT_EN v.toNat).rd pg F.EVT_EN = v.toNat := (State.rdi_wri_self _ _ _ _ _).trans (Nat.mod_eq_of_lt v.isLt)
  exact ⟨_, exec_evtEnWrite v h hm, ((quiet_refl s).wri _ _ _ _).edges s,
    NoAnswer.trans (t := s.wr pg F.EVT_EN v.toNat) ⟨rfl, rfl, rfl⟩ (noAnswer_edges s _), ((regsBut_refl s).wr _ _ _).edges s,
    (State.rdi_congr (State.edges_regs s _) (State.edges_variant s _) _ _ _).trans hset⟩

theorem faultCaptRearm_clears (h : s.target (pageReg p 0x030) = .reg pg k off pt) (hm : mayWriteHeader pg p.fn.val pt = true) :
    ∃ t, exec (.faultCaptRearm p) s = .next t ∧ t = { s with regs := t.regs } ∧ t.rd pg F.FAULT_CAPT_VALID = 0 ∧ t.rd pg F.FAULT_CAPT_MORE = 0 ∧
      RegsBut s t [fkey pg F.FAULT_CAPT_VALID 0, fkey pg F.FAULT_CAPT_MORE 0] := by
  have hexec : exec (.faultCaptRearm p) s = .next ((s.wr pg F.FAULT_CAPT_VALID 0).wr pg F.FAULT_CAPT_MORE 0) :=
    congrArg Host.Outcome.next (headerAction_allowed _ h hm)
  exact ⟨_, hexec, rfl, (State.rdi_wri_ne _ _ (fkey_ne_on_page pg (by decide))).trans (State.rdi_wri_self _ _ _ _ _), State.rdi_wri_self _ _ _ _ _,
    ((regsBut_refl s).wr _ _ _).wr _ _ _⟩

theorem lockSet_locks (h : s.target (pageReg p 0x0F0) = .reg pg k off pt) (hm : mayWriteHeader pg p.fn.val pt = true) :
    ∃ t, exec (.lockSet p) s = .next t ∧ t = { s with regs := t.regs } ∧ t.locked pg = true ∧ RegsBut s t [fkey pg F.LOCK_LOCKED 0] := by
  have hexec : exec (.lockSet p) s = .next (s.wr pg F.LOCK_LOCKED 1) := congrArg Host.Outcome.next (headerAction_allowed _ h hm)
  refine ⟨_, hexec, rfl, ?_, (regsBut_refl s).wr _ _ _⟩
  rw [State.locked, on_wr_one s pg rfl]
  rfl

/-! `OWNER` (R41, R42) -/

/-- The page with the owner, pass-through slot and context that the word `w` names. -/
def owned (s : State) (pg w : Nat) : State :=
  (((s.wr pg F.OWNER_FUNC (bits w 0 5)).wr pg F.OWNER_PT_SLOT (bits w 10 6)).wr pg F.OWNER_CTX (bits w 16 10)).wr pg F.OWNER_CTX_VALID (bits w 26 1)

theorem exec_ownerWrite (v : Word) (h : s.target (pageReg p 0x080) = .reg pg k off pt) (hm : mayWriteHeader pg p.fn.val pt = true) :
    exec (.ownerWrite p v) s = .next (if s.ownerRefused pg v.toNat then s.accessErr (pageReg p 0x080) else owned s pg v.toNat) :=
  congrArg Host.Outcome.next (headerAction_allowed _ h hm)

theorem ownerRefused_of_locked_or_high_slot {w : Nat} (h : s.locked pg = true ∨ 60 ≤ w / 2 ^ 10 % 64) : s.ownerRefused pg w = true := by
  unfold State.ownerRefused
  obtain h | h := h
  · simp [h]
  · have hs : 60 ≤ bits w 10 6 := h
    simp [hs]

theorem owned_fields (s : State) (pg w : Nat) :
    (owned s pg w).rd pg F.OWNER_FUNC = w % 32 ∧ (owned s pg w).rd pg F.OWNER_PT_SLOT = w / 2 ^ 10 % 64 ∧
      (owned s pg w).rd pg F.OWNER_CTX = w / 2 ^ 16 % 1024 ∧ (owned s pg w).rd pg F.OWNER_CTX_VALID = w / 2 ^ 26 % 2 := by
  unfold owned State.rd
  refine ⟨?_, ?_, ?_, ?_⟩
  · rw [State.rdi_wri_ne _ _ (fkey_ne_on_page pg (by decide)), State.rdi_wri_ne _ _ (fkey_ne_on_page pg (by decide)),
      State.rdi_wri_ne _ _ (fkey_ne_on_page pg (by decide)), State.rdi_wri_self]
    simp [bits, F.OWNER_FUNC]
  · rw [State.rdi_wri_ne _ _ (fkey_ne_on_page pg (by decide)), State.rdi_wri_ne _ _ (fkey_ne_on_page pg (by decide)), State.rdi_wri_self]
    simp [bits, F.OWNER_PT_SLOT]
  · rw [State.rdi_wri_ne _ _ (fkey_ne_on_page pg (by decide)), State.rdi_wri_self]
    simp [bits, F.OWNER_CTX]
  · rw [State.rdi_wri_self]
    simp [bits, F.OWNER_CTX_VALID]

theorem ownerWrite_owns (v : Word) (h : s.target (pageReg p 0x080) = .reg pg k off pt) (hm : mayWriteHeader pg p.fn.val pt = true)
    (hr : s.ownerRefused pg v.toNat = false) :
    ∃ t, exec (.ownerWrite p v) s = .next t ∧ t = { s with regs := t.regs } ∧ t.rd pg F.OWNER_FUNC = v.toNat % 32 ∧
      t.rd pg F.OWNER_PT_SLOT = v.toNat / 2 ^ 10 % 64 ∧ t.rd pg F.OWNER_CTX = v.toNat / 2 ^ 16 % 1024 ∧
      t.rd pg F.OWNER_CTX_VALID = v.toNat / 2 ^ 26 % 2 ∧
      RegsBut s t [fkey pg F.OWNER_FUNC 0, fkey pg F.OWNER_PT_SLOT 0, fkey pg F.OWNER_CTX 0, fkey pg F.OWNER_CTX_VALID 0] := by
  have hexec : exec (.ownerWrite p v) s = .next (owned s pg v.toNat) := by
    rw [exec_ownerWrite v h hm, hr]
    rfl
  obtain ⟨hfn, hslot, hctx, hvalid⟩ := owned_fields s pg v.toNat
  exact ⟨_, hexec, rfl, hfn, hslot, hctx, hvalid, ((((regsBut_refl s).wr _ _ _).wr _ _ _).wr _ _ _).wr _ _ _⟩

theorem ownerWrite_refused (v : Word) (h : s.target (pageReg p 0x080) = .reg pg k off pt) (hm : mayWriteHeader pg p.fn.val pt = true)
    (hr : s.locked pg = true ∨ 60 ≤ v.toNat / 2 ^ 10 % 64) : exec (.ownerWrite p v) s = .next (s.accessErr (pageReg p 0x080)) := by
  rw [exec_ownerWrite v h hm, if_pos (ownerRefused_of_locked_or_high_slot hr)]

end

/-! EVT.REARM (R48) -/

theorem exec_evtRearm {fn : Fin 32} {s : State} (hm : s.mayWriteBlock pgEVT fn.val = true) :
    exec (.evtRearm fn) s = .next (if s.rootSum &&& s.rd pgEVT F.EVT_ROOT_EN = 0 then s else s.msix 0 1) :=
  congrArg Host.Outcome.next (blockAction_allowed _ _ hm)

theorem msix_sent (s : State) (fn vec : Nat) (ho : nget s.host.msixOpen (fn * 2048 + vec) ≠ 0) (hl : s.linkUp = true) :
    (s.msix fn vec).msgs = .msix fn vec :: s.msgs := by
  rw [State.msix, if_neg ho, if_pos hl]
  rfl

theorem evtRearm_sends {fn : Fin 32} {s : State} (hm : s.mayWriteBlock pgEVT fn.val = true) (hp : s.rootSum &&& s.rd pgEVT F.EVT_ROOT_EN ≠ 0)
    (ho : nget s.host.msixOpen 1 ≠ 0) (hl : s.linkUp = true) :
    ∃ t, exec (.evtRearm fn) s = .next t ∧ t.msgs = .msix 0 1 :: s.msgs ∧ t.regs = s.regs ∧ Quiet s t ∧ NoAnswer s t :=
  ⟨_, (exec_evtRearm hm).trans (by rw [if_neg hp]), msix_sent s 0 1 ho hl, State.msix_regs s 0 1, quiet_msix s 0 1, noAnswer_msix s 0 1⟩

/-! ## O23 -/

/-- Settles O23: each clause is the lemma of its register. -/
theorem headerActions : Obligations.HeaderActions := by
  refine ⟨fun p s pg k off pt => ⟨⟨evtPendClear_clears, evtEnWrite_enables, faultCaptRearm_clears, lockSet_locks⟩, evtPendClear_denied⟩,
    fun p v s pg k off pt h hm => ⟨ownerWrite_owns v h hm, ownerWrite_refused v h hm⟩, fun fn s hm => ⟨fun h0 => ?_, evtRearm_sends hm⟩⟩
  rw [exec_evtRearm hm, if_pos h0]

end Sys2Proof
end

section
/-! PROOF. O24: the snap is armed, cancelled, fired and completed (R52, R53, R54, R55). -/

namespace Sys2Proof

open Machine

/-! Arming and cancelling (R52, R55) -/

section
variable {fn : Fin 32} {s : State}

/-- The snap armed against its target, from the present tick. -/
def snapArmed (s : State) : State := { (s.wr pgSNAP F.SNAP_ARMED 1) with snap := { s.snap with armT := s.tick } }

theorem exec_snapArm (hm : s.mayWriteBlock pgSNAP fn.val = true) (ha : s.on pgSNAP F.SNAP_ARMED = false) :
    exec (.snapArm fn) s =
      .next (if 1 ≤ ahead s.snapTarget s.tick ∧ ahead s.snapTarget s.tick < 2 ^ 47 then snapArmed s else s.snapMissed) :=
  congrArg Host.Outcome.next ((blockAction_allowed _ _ hm).trans (if_neg (ne_true_of_eq_false ha)))

theorem snapArm_ahead (hm : s.mayWriteBlock pgSNAP fn.val = true) (ha : s.on pgSNAP F.SNAP_ARMED = false)
    (h1 : 1 ≤ ahead s.snapTarget s.tick) (h2 : ahead s.snapTarget s.tick < 2 ^ 47) :
    ∃ t, exec (.snapArm fn) s = .next t ∧ t.rd pgSNAP F.SNAP_ARMED = 1 ∧ t.snap = { s.snap with armT := s.tick } ∧
      RegsBut s t [fkey pgSNAP F.SNAP_ARMED 0] ∧ t = { s with regs := t.regs, snap := t.snap } :=
  ⟨snapArmed s, (exec_snapArm hm ha).trans (by rw [if_pos ⟨h1, h2⟩]), State.rdi_wri_self _ _ _ _ _, rfl, (regsBut_refl s).wr _ _ _, rfl⟩

theorem snapArm_missed (hm : s.mayWriteBlock pgSNAP fn.val = true) (ha : s.on pgSNAP F.SNAP_ARMED = false)
    (hn : ahead s.snapTarget s.tick = 0 ∨ 2 ^ 47 ≤ ahead s.snapTarget s.tick) :
    ∃ t, exec (.snapArm fn) s = .next t ∧ t.rd pgSNAP F.SNAP_MISSED = 1 ∧ t.rd pgSNAP F.SNAP_ARMED = 0 ∧ Raised t pgSNAP 1 ∧ Quiet s t := by
  have hexec : exec (.snapArm fn) s = .next s.snapMissed := (exec_snapArm hm ha).trans (by rw [if_neg (by omega)])
  refine ⟨_, hexec, ?_, ?_, raised_raise _ _ _ (by decide), ((quiet_refl s).wri _ _ _ _).raise _ _⟩
  · exact (State.rdi_raise_ne _ (by decide)).trans (State.rdi_wri_self _ _ _ _ _)
  · exact (State.rdi_raise_ne _ (by decide)).trans ((State.rdi_wri_ne _ _ (by decide)).trans (rd_of_off ha))

theorem snapCancel_disarms (hm : s.mayWriteBlock pgSNAP fn.val = true) :
    ∃ t, exec (.snapCancel fn) s = .next t ∧ t.rd pgSNAP F.SNAP_ARMED = 0 ∧ RegsBut s t [fkey pgSNAP F.SNAP_ARMED 0] ∧
      t = { s with regs := t.regs } :=
  ⟨s.wr pgSNAP F.SNAP_ARMED 0, congrArg Host.Outcome.next (blockAction_allowed _ _ hm), State.rdi_wri_self _ _ _ _ _, (regsBut_refl s).wr _ _ _, rfl⟩

end

/-! What latching leaves alone: pages latch below offset 0x80 (R37), and the snap's own registers lie behind (R51) -/

/-- A field whose offset in its page lies behind the snapshot area is none that latching writes. -/
theorem fkey_ne_latched {pg p i j : Nat} {F0 F1 : Field} (h : 0x80 * 32 ≤ fkey p F0 i % 131072) (h1 : F1.off + F1.stride * j < 0x80)
    (hlo : F1.lo < 32) : fkey p F0 i ≠ fkey pg F1 j := by
  intro e
  rw [e, fkey] at h
  omega

theorem rdi_latchPage (s : State) (seq : Nat) (forced : Bool) (pg : Nat) {p i : Nat} {F0 : Field} (h : 0x80 * 32 ≤ fkey p F0 i % 131072) :
    (s.latchPage seq forced pg).rdi p F0 i = s.rdi p F0 i := by
  have hctr : ∀ j ∈ List.range 13, ∀ t : State, (t.wri pg F.SNAP_CTR j (t.snapSource pg j)).rdi p F0 i = t.rdi p F0 i := fun j hj t => by
    have hj : j < 13 := List.mem_range.mp hj
    exact State.rdi_wri_ne t _ (fkey_ne_latched h (by simp only [F.SNAP_CTR]; omega) (by decide))
  have hstamp : ∀ (t : State) (F1 : Field) (v : Nat), F1.off + F1.stride * 0 < 0x80 → F1.lo < 32 → (t.wr pg F1 v).rdi p F0 i = t.rdi p F0 i :=
    fun t F1 v h1 hlo => State.rdi_wri_ne t v (fkey_ne_latched h h1 hlo)
  unfold State.latchPage
  rw [rdi_foldl _ _ hctr, hstamp, hstamp, hstamp, hstamp, hstamp] <;> decide

theorem Quiet.latchPage {z s : State} (h : Quiet z s) (seq : Nat) (forced : Bool) (pg : Nat) : Quiet z (s.latchPage seq forced pg) := by
  unfold State.latchPage
  exact Quiet.foldl (fun t i ht => ht.wri _ _ _ _) _ (((((h.wri _ _ _ _).wri _ _ _ _).wri _ _ _ _).wri _ _ _ _).wri _ _ _ _)

/-! Firing (R53, R54) -/

/-- The next sequence number, never 0. -/
def nextSeq (s : State) : Nat := if s.rd pgSNAP F.SNAP_LAST_SEQ = 2 ^ 32 - 1 then 1 else s.rd pgSNAP F.SNAP_LAST_SEQ + 1

/-- The snap disarmed with its next sequence number, and latched by every unit but those in `missing`. -/
def latched (s : State) (forced : Bool) (missing : List Nat) : State :=
  (s.snapPages.filter fun p => !missing.contains p).foldl (fun t p => t.latchPage (nextSeq s) forced p)
    ((s.wr pgSNAP F.SNAP_LAST_SEQ (nextSeq s)).wr pgSNAP F.SNAP_ARMED 0)

theorem quiet_latched (s : State) (forced : Bool) (missing : List Nat) : Quiet s (latched s forced missing) :=
  Quiet.foldl (fun _ _ ht => ht.latchPage _ _ _) _ (((quiet_refl s).wri _ _ _ _).wri _ _ _ _)

theorem rdi_latched (s : State) (forced : Bool) (missing : List Nat) {F0 : Field} (h : 0x80 * 32 ≤ fkey pgSNAP F0 0 % 131072) :
    (latched s forced missing).rd pgSNAP F0 = ((s.wr pgSNAP F.SNAP_LAST_SEQ (nextSeq s)).wr pgSNAP F.SNAP_ARMED 0).rd pgSNAP F0 :=
  rdi_foldl _ _ fun p _ t => rdi_latchPage t _ _ p h

/-- What a fired snap shows: disarmed, the next sequence number, the units that have not acknowledged, and no byte of a store changed. -/
structure Fired (s t : State) (missing : List Nat) : Prop where
  armed : t.rd pgSNAP F.SNAP_ARMED = 0
  busy : t.snap.busy = true
  seq : t.rd pgSNAP F.SNAP_LAST_SEQ = if s.rd pgSNAP F.SNAP_LAST_SEQ = 2 ^ 32 - 1 then 1 else (s.rd pgSNAP F.SNAP_LAST_SEQ + 1) % 2 ^ 32
  unacked : t.snap.unacked = (s.snapPages.filter fun p => missing.contains p).length
  fireClk : t.snap.fireClk = s.now
  bytes : SameBytes s t

theorem fireSnap_fired (s : State) (forced : Bool) (missing : List Nat) : Fired s (s.fireSnap forced missing) missing where
  armed := (rdi_latched s forced missing (by decide)).trans (State.rdi_wri_self _ _ _ _ _)
  busy := rfl
  seq := by
    refine (rdi_latched s forced missing (by decide)).trans ((State.rdi_wri_ne _ _ (by decide)).trans ((State.rdi_wri_self _ _ _ _ _).trans ?_))
    unfold nextSeq
    split <;> rfl
  unacked := rfl
  fireClk := (quiet_latched s forced missing).now
  bytes := (quiet_latched s forced missing).sameBytes

theorem snapNow_fires {fn : Fin 32} {s : State} (hm : s.mayWriteBlock pgSNAP fn.val = true) :
    ∃ t, exec (.snapNow fn) s = .next t ∧ t.rd pgSNAP F.SNAP_ARMED = 0 ∧ t.snap.busy = true ∧ t.snap.unacked = 0 ∧ t.snap.fireClk = s.now ∧
      t.rd pgSNAP F.SNAP_LAST_SEQ = (if s.rd pgSNAP F.SNAP_LAST_SEQ = 2 ^ 32 - 1 then 1 else (s.rd pgSNAP F.SNAP_LAST_SEQ + 1) % 2 ^ 32) ∧
      SameBytes s t := by
  have hexec : exec (.snapNow fn) s = .next (s.fireSnap true []) := congrArg Host.Outcome.next (blockAction_allowed _ _ hm)
  have h := fireSnap_fired s true []
  exact ⟨_, hexec, h.armed, h.busy, h.unacked.trans (by simp), h.fireClk, h.seq, h.bytes⟩

theorem snapFire_fires {s : State} (missing : List Nat) (hd : s.snapDue = true) :
    ∃ t, exec (.snapFire missing) s = .next t ∧ t.rd pgSNAP F.SNAP_ARMED = 0 ∧ t.snap.busy = true ∧
      t.rd pgSNAP F.SNAP_LAST_SEQ = (if s.rd pgSNAP F.SNAP_LAST_SEQ = 2 ^ 32 - 1 then 1 else (s.rd pgSNAP F.SNAP_LAST_SEQ + 1) % 2 ^ 32) ∧
      t.snap.unacked = (s.snapPages.filter fun p => missing.contains p).length ∧ SameBytes s t := by
  have hexec : exec (.snapFire missing) s = .next (s.fireSnap false missing) := congrArg Host.Outcome.next (if_pos hd)
  have h := fireSnap_fired s false missing
  exact ⟨_, hexec, h.armed, h.busy, h.seq, h.unacked, h.bytes⟩

/-! DONE (R53) -/

/-- DONE and the count of the units that have not acknowledged, which INCOMPLETE tells. -/
def snapShown (s : State) : State :=
  let s1 := (s.wr pgSNAP F.SNAP_DONE 1).wr pgSNAP F.SNAP_MISS_UNITS s.snap.unacked
  if s.snap.unacked = 0 then s1 else s1.wr pgSNAP F.SNAP_INCOMPLETE 1

/-- The snap completed, before its event is raised. -/
def snapClosed (s : State) : State := { snapShown s with snap := { (snapShown s).snap with busy := false } }

theorem exec_snapDoneTimeout {s : State} (hb : s.snap.busy = true) (h : s.snap.unacked = 0 ∨ s.snap.fireClk + 320 ≤ s.now) :
    exec .snapDoneTimeout s = .next ((snapClosed s).raise pgSNAP 0) :=
  congrArg Host.Outcome.next (if_pos ⟨hb, h⟩)

theorem snapShown_spec (s : State) : (snapShown s).snap = s.snap ∧ (snapShown s).host = s.host ∧ (snapShown s).rd pgSNAP F.SNAP_DONE = 1 ∧
    (snapShown s).rd pgSNAP F.SNAP_MISS_UNITS = s.snap.unacked % 2 ^ F.SNAP_MISS_UNITS.width ∧
    (s.snap.unacked ≠ 0 → (snapShown s).rd pgSNAP F.SNAP_INCOMPLETE = 1) := by
  have hdone : ((s.wr pgSNAP F.SNAP_DONE 1).wr pgSNAP F.SNAP_MISS_UNITS s.snap.unacked).rd pgSNAP F.SNAP_DONE = 1 :=
    (State.rdi_wri_ne _ _ (by decide)).trans (State.rdi_wri_self _ _ _ _ _)
  unfold snapShown
  extract_lets s1
  split
  · next h0 => exact ⟨rfl, rfl, hdone, State.rdi_wri_self _ _ _ _ _, fun h => absurd h0 h⟩
  · exact ⟨rfl, rfl, (State.rdi_wri_ne _ _ (by decide)).trans hdone, (State.rdi_wri_ne _ _ (by decide)).trans (State.rdi_wri_self _ _ _ _ _),
      fun _ => State.rdi_wri_self _ _ _ _ _⟩

theorem snapDoneTimeout_done {s : State} (hb : s.snap.busy = true) (h : s.snap.unacked = 0 ∨ s.snap.fireClk + 320 ≤ s.now) :
    ∃ t, exec .snapDoneTimeout s = .next t ∧ t.snap = { s.snap with busy := false } ∧ t.rd pgSNAP F.SNAP_DONE = 1 ∧
      t.rd pgSNAP F.SNAP_MISS_UNITS = s.snap.unacked % 2 ^ F.SNAP_MISS_UNITS.width ∧ (s.snap.unacked ≠ 0 → t.rd pgSNAP F.SNAP_INCOMPLETE = 1) ∧
      Raised t pgSNAP 0 ∧ NoAnswer s t := by
  obtain ⟨hsnap, hhost, hdone, hmiss, hinc⟩ := snapShown_spec s
  have hanswer : NoAnswer s (snapClosed s) := by
    unfold NoAnswer
    rw [show (snapClosed s).host = s.host from hhost]
    exact ⟨rfl, rfl, rfl⟩
  refine ⟨_, exec_snapDoneTimeout hb h, ?_, (State.rdi_raise_ne _ (by decide)).trans hdone, (State.rdi_raise_ne _ (by decide)).trans hmiss,
    fun h0 => (State.rdi_raise_ne _ (by decide)).trans (hinc h0), raised_raise _ _ _ (by decide), hanswer.trans (noAnswer_raise _ _ _)⟩
  rw [State.raise_snap, snapClosed, hsnap]

/-! ## O24 -/

/-- Settles O24: each clause is the lemma of its command. -/
theorem snapMarks : Obligations.SnapMarks := fun _ =>
  ⟨fun _ hm => ⟨snapArm_ahead hm, snapArm_missed hm, snapCancel_disarms hm, snapNow_fires hm⟩, snapFire_fires, snapDoneTimeout_done⟩

end Sys2Proof
end

section
/-! PROOF. O21: every step answers a next state, and uses up one command of the queue or one clock. -/

namespace Sys2Proof

open Machine

/-! Commands: each answers a next state, and leaves the queue and the clock alone -/

theorem execRegisterWrite_next (a : RegAcc) (be : Fin 16) (v : Word) (s : State) : ∃ t, execRegisterWrite a be v s = .next t := by
  unfold execRegisterWrite
  split
  · exact ⟨_, rfl⟩
  · exact ⟨_, rfl⟩
  · exact ⟨_, rfl⟩
  · split
    · exact ⟨_, rfl⟩
    · split <;> exact ⟨_, rfl⟩

/-- No command stops the block: but for a register write, whose outcome depends on where it lands, the meaning of each is a next state as it stands. -/
theorem exec_next (i : Instr) (s : State) : ∃ t, exec i s = .next t := by
  cases i
  case registerWrite a be v => exact execRegisterWrite_next a be v s
  all_goals exact ⟨_, rfl⟩

/-- The laws of the single commands, arm by arm of `exec`. The operands of `ctxOpen` are named: left open, they make the unifier compute its search among
the 1024 contexts. -/
theorem exec_keeps {z s : State} (h : Keeps z s) : ∀ i, KeepsR z (exec i s)
  | .registerWrite .. => execRegisterWrite_keeps h | .counterLoRead .. => execCounterLoRead_keeps h | .counterHiRead .. => execCounterHiRead_keeps h
  | .evtPendClear .. => execEvtPendClear_keeps h | .evtEnWrite .. => execEvtEnWrite_keeps h | .faultCaptRearm .. => execFaultCaptRearm_keeps h
  | .lockSet .. => execLockSet_keeps h | .ownerWrite .. => execOwnerWrite_keeps h | .evtRearm .. => execEvtRearm_keeps h
  | .snapArm .. => execSnapArm_keeps h | .snapNow .. => execSnapNow_keeps h | .snapCancel .. => execSnapCancel_keeps h
  | .snapFire .. => execSnapFire_keeps h | .snapDoneTimeout => execSnapDoneTimeout_keeps h | .tbFrameReceive .. => execTbFrameReceive_keeps h
  | .tbWindowEnd => execTbWindowEnd_keeps h | .stallDetect => execStallDetect_keeps h | .stallGuardExpire => execStallGuardExpire_keeps h
  | .holdoverEntry => execHoldoverEntry_keeps h | .flywheelMark .. => execFlywheelMark_keeps h | .freeRunEntry => execFreeRunEntry_keeps h
  | .markLost .. => execMarkLost_keeps h | .periodMark .. => execPeriodMark_keeps h | .slotEdge .. => execSlotEdge_keeps h
  | .tbaseEnable .. => execTbaseEnable_keeps h | .tbaseDisable .. => execTbaseDisable_keeps h | .slotTableWrite .. => execSlotTableWrite_keeps h
  | .slotSwReq .. => execSlotSwReq_keeps h | .slotSwCancel .. => execSlotSwCancel_keeps h | .nop .. => execNop_keeps h
  | .endKernel .. => execEndKernel_keeps h | .br .. => execBr_keeps h | .loop .. => execLoop_keeps h | .sync .. => execSync_keeps h
  | .spwait .. => execSpwait_keeps h | .sppost .. => execSppost_keeps h | .sptake .. => execSptake_keeps h | .trap .. => execTrap_keeps h
  | .add .. => execAdd_keeps h | .sub .. => execSub_keeps h | .addi .. => execAddi_keeps h | .mul .. => execMul_keeps h | .and .. => execAnd_keeps h
  | .or .. => execOr_keeps h | .xor .. => execXor_keeps h | .shl .. => execShl_keeps h | .shr .. => execShr_keeps h | .sra .. => execSra_keeps h
  | .min .. => execMin_keeps h | .max .. => execMax_keeps h | .slt .. => execSlt_keeps h | .seq .. => execSeq_keeps h | .li .. => execLi_keeps h
  | .ldv .. => execLdv_keeps h | .stv .. => execStv_keeps h | .ldvc .. => execLdvc_keeps h | .stvc .. => execStvc_keeps h
  | .lds .. => execLds_keeps h | .sts .. => execSts_keeps h | .dmain .. => execDmain_keeps h | .dmaout .. => execDmaout_keeps h
  | .atadd .. => execAtadd_keeps h | .atswp .. => execAtswp_keeps h | .mma .. => execMma_keeps h | .accz .. => execAccz_keeps h
  | .accst .. => execAccst_keeps h | .accv .. => execAccv_keeps h | .accld .. => execAccld_keeps h | .vadd .. => execVadd_keeps h
  | .vsub .. => execVsub_keeps h | .vmul .. => execVmul_keeps h | .vfma .. => execVfma_keeps h | .vmin .. => execVmin_keeps h
  | .vmax .. => execVmax_keeps h | .vabs .. => execVabs_keeps h | .vneg .. => execVneg_keeps h | .vand .. => execVand_keeps h
  | .vor .. => execVor_keeps h | .vxor .. => execVxor_keeps h | .vshl .. => execVshl_keeps h | .vshr .. => execVshr_keeps h
  | .vcmp .. => execVcmp_keeps h | .vsel .. => execVsel_keeps h | .vbcast .. => execVbcast_keeps h | .vcvt .. => execVcvt_keeps h
  | .vexp2 .. => execVexp2_keeps h | .vlog2 .. => execVlog2_keeps h | .vrcp .. => execVrcp_keeps h | .vrsqrt .. => execVrsqrt_keeps h
  | .vtanh .. => execVtanh_keeps h | .vsigm .. => execVsigm_keeps h | .verf .. => execVerf_keeps h | .vredsum .. => execVredsum_keeps h
  | .vredmax .. => execVredmax_keeps h | .vredmin .. => execVredmin_keeps h | .vargmax .. => execVargmax_keeps h | .vperm .. => execVperm_keeps h
  | .vrot .. => execVrot_keeps h | .vscan .. => execVscan_keeps h | .vtopk .. => execVtopk_keeps h | .vrand .. => execVrand_keeps h
  | .vcntp .. => execVcntp_keeps h | .illegalInstruction .. => execIllegalInstruction_keeps h | .instrParityError .. => execInstrParityError_keeps h
  | .instrComplete .. => execInstrComplete_keeps h | .dmaComplete .. => execDmaComplete_keeps h
  | .spileReleaseArrive .. => execSpileReleaseArrive_keeps h | .kernelWdog .. => execKernelWdog_keeps h | .dispatchArm .. => execDispatchArm_keeps h
  | .dispatchDisarm .. => execDispatchDisarm_keeps h | .dispatchReady .. => execDispatchReady_keeps h | .kernelStart .. => execKernelStart_keeps h
  | .loadCommand .. => execLoadCommand_keeps h | .loadStart .. => execLoadStart_keeps h | .loadDone .. => execLoadDone_keeps h
  | .rotReq .. => execRotReq_keeps h | .rotationStart .. => execRotationStart_keeps h | .sweepDone .. => execSweepDone_keeps h
  | .rotationSwap .. => execRotationSwap_keeps h | .rotationClearDone .. => execRotationClearDone_keeps h
  | .rotLimitExpire .. => execRotLimitExpire_keeps h | .stepRecompute .. => execStepRecompute_keeps h | .spilePost .. => execSpilePost_keeps h
  | .spileWait .. => execSpileWait_keeps h | .spileTake .. => execSpileTake_keeps h | .spileWithdraw .. => execSpileWithdraw_keeps h
  | .splPost .. => execSplPost_keeps h | .splSet .. => execSplSet_keeps h | .stepJoinRelease .. => execStepJoinRelease_keeps h
  | .spileMap .. => execSpileMap_keeps h | .spileUnmap .. => execSpileUnmap_keeps h | .bankAssign .. => execBankAssign_keeps h
  | .bankRelease .. => execBankRelease_keeps h | .bankClearDone .. => execBankClearDone_keeps h | .segAssign .. => execSegAssign_keeps h
  | .segRelease .. => execSegRelease_keeps h | .segClearDone .. => execSegClearDone_keeps h | .segRetire .. => execSegRetire_keeps h
  | .tapRequest .. => execTapRequest_keeps h | .tapWdog .. => execTapWdog_keeps h | .tapPrioWrite .. => execTapPrioWrite_keeps h
  | .lpddrRead .. => execLpddrRead_keeps h | .lpddrWrite .. => execLpddrWrite_keeps h | .frameRecoveryDone .. => execFrameRecoveryDone_keeps h
  | .frameAssign .. => execFrameAssign_keeps h | .frameRelease .. => execFrameRelease_keeps h | .xmap .. => execXmap_keeps h
  | .xunmap .. => execXunmap_keeps h | .patrolRead .. => execPatrolRead_keeps h | .patrolPassEnd .. => execPatrolPassEnd_keeps h
  | .channelRetire => execChannelRetire_keeps h | .retirePassDone => execRetirePassDone_keeps h | .layerStart .. => execLayerStart_keeps h
  | .lkpDraftStart .. => execLkpDraftStart_keeps h | .lkpDraftDone .. => execLkpDraftDone_keeps h
  | .dieRingTransfer .. => execDieRingTransfer_keeps h | .plPublish .. => execPlPublish_keeps h
  | .freeQueueRelease .. => execFreeQueueRelease_keeps h | .kvWindowAccess .. => execKvWindowAccess_keeps h
  | .plTruncate .. => execPlTruncate_keeps h | .truncateApply .. => execTruncateApply_keeps h | .rebuildChunk .. => execRebuildChunk_keeps h
  | .spillStart .. => execSpillStart_keeps h | .spillPageDone => execSpillPageDone_keeps h | .fetchStart .. => execFetchStart_keeps h
  | .fetchPageDone .. => execFetchPageDone_keeps h | .kvpoolCreate .. => execKvpoolCreate_keeps h | .kvpoolAdd .. => execKvpoolAdd_keeps h
  | .kvpoolRemove .. => execKvpoolRemove_keeps h | .plCreate .. => execPlCreate_keeps h | .plDestroy .. => execPlDestroy_keeps h
  | .domainCreate .. => execDomainCreate_keeps h | .domainEnd .. => execDomainEnd_keeps h | .cellarAdd .. => execCellarAdd_keeps h
  | .cellarRemove .. => execCellarRemove_keeps h | .admission .. => execAdmission_keeps h | .heldResume .. => execHeldResume_keeps h
  | .rqCancel .. => execRqCancel_keeps h | .rqtCancel .. => execRqtCancel_keeps h | .rqRelease .. => execRqRelease_keeps h
  | .resCreate .. => execResCreate_keeps h | .resEnd .. => execResEnd_keeps h | .modelCost .. => execModelCost_keeps h
  | .rqtLatch .. => execRqtLatch_keeps h | .vatReleaseReq .. => execVatReleaseReq_keeps h | .vatReleaseBanks .. => execVatReleaseBanks_keeps h
  | .millSubmit .. => execMillSubmit_keeps h | .millChain .. => execMillChain_keeps h | .millUnchain .. => execMillUnchain_keeps h
  | .millCancel .. => execMillCancel_keeps h | .millJobStart .. => execMillJobStart_keeps h | .millTileEnd .. => execMillTileEnd_keeps h
  | .millJobEnd .. => execMillJobEnd_keeps h | .codecOpen .. => execCodecOpen_keeps h | .codecClose .. => execCodecClose_keeps h
  | .codecFlush .. => execCodecFlush_keeps h | .codecKeyreq .. => execCodecKeyreq_keeps h | .codecRcSet .. => execCodecRcSet_keeps h
  | .codecRingPoll .. => execCodecRingPoll_keeps h | .pictureStart .. => execPictureStart_keeps h | .pictureDone .. => execPictureDone_keeps h
  | .overloadEnter => execOverloadEnter_keeps h | .overloadExit => execOverloadExit_keeps h | .stageCommand .. => execStageCommand_keeps h
  | .claimOutvote .. => execClaimOutvote_keeps h | .cmHeartbeat .. => execCmHeartbeat_keeps h | .hbMiss .. => execHbMiss_keeps h
  | .diagPass .. => execDiagPass_keeps h | .diagLate .. => execDiagLate_keeps h | .cmHwDrop .. => execCmHwDrop_keeps h
  | .cmReloadDone .. => execCmReloadDone_keeps h | .copyReceive .. => execCopyReceive_keeps h | .cmSelftestSlice .. => execCmSelftestSlice_keeps h
  | .takeoverTimeout .. => execTakeoverTimeout_keeps h | .cmYield .. => execCmYield_keeps h
  | .ctxOpen fn tag isSealed => execCtxOpen_keeps (fn := fn) (tag := tag) (isSealed := isSealed) h | .ctxClaim .. => execCtxClaim_keeps h
  | .ctxEnd .. => execCtxEnd_keeps h | .spdmCtxEnd .. => execSpdmCtxEnd_keeps h | .domainJoin .. => execDomainJoin_keeps h
  | .spdmDomainJoin .. => execSpdmDomainJoin_keeps h | .floorReserve .. => execFloorReserve_keeps h | .floorRelease .. => execFloorRelease_keeps h
  | .ctxQuiesced .. => execCtxQuiesced_keeps h | .rinseFillEnd => execRinseFillEnd_keeps h | .rinseDone => execRinseDone_keeps h
  | .structRecopy => execStructRecopy_keeps h | .drbgReseed .. => execDrbgReseed_keeps h | .doeObjectDiscard .. => execDoeObjectDiscard_keeps h
  | .spdmGetVersion .. => execSpdmGetVersion_keeps h | .spdmGetCapabilities .. => execSpdmGetCapabilities_keeps h
  | .spdmNegotiateAlgorithms .. => execSpdmNegotiateAlgorithms_keeps h | .spdmGetDigests .. => execSpdmGetDigests_keeps h
  | .spdmGetCertificate .. => execSpdmGetCertificate_keeps h | .spdmChallenge .. => execSpdmChallenge_keeps h
  | .spdmGetMeasurements .. => execSpdmGetMeasurements_keeps h | .spdmKeyExchange .. => execSpdmKeyExchange_keeps h
  | .spdmFinish .. => execSpdmFinish_keeps h | .spdmHeartbeat .. => execSpdmHeartbeat_keeps h | .spdmKeyUpdate .. => execSpdmKeyUpdate_keeps h
  | .spdmEndSession .. => execSpdmEndSession_keeps h | .getKemKey .. => execGetKemKey_keeps h | .kemCt .. => execKemCt_keeps h
  | .getLmsSig .. => execGetLmsSig_keeps h | .getLmsCerts .. => execGetLmsCerts_keeps h | .sessionHbExpire .. => execSessionHbExpire_keeps h
  | .lmsSigExpire .. => execLmsSigExpire_keeps h | .bottomTreeSwitch => execBottomTreeSwitch_keeps h | .ownerSet .. => execOwnerSet_keeps h
  | .ownerTransfer .. => execOwnerTransfer_keeps h | .ownerRelease .. => execOwnerRelease_keeps h | .pubEnrol .. => execPubEnrol_keeps h
  | .pubRevoke .. => execPubRevoke_keeps h | .policy .. => execPolicy_keeps h | .debugToken .. => execDebugToken_keeps h
  | .caskLoad .. => execCaskLoad_keeps h | .caskUnload .. => execCaskUnload_keeps h | .fwStage .. => execFwStage_keeps h
  | .fwStageDone .. => execFwStageDone_keeps h | .fwDiscard .. => execFwDiscard_keeps h | .activate .. => execActivate_keeps h
  | .activationBegin => execActivationBegin_keeps h | .activationComplete .. => execActivationComplete_keeps h
  | .activationFail .. => execActivationFail_keeps h | .recoveryWrite .. => execRecoveryWrite_keeps h | .bistSchedule .. => execBistSchedule_keeps h
  | .bistReq .. => execBistReq_keeps h | .bistSliceStart .. => execBistSliceStart_keeps h | .bistSliceStop .. => execBistSliceStop_keeps h
  | .bistDeferExpire .. => execBistDeferExpire_keeps h | .bistSliceEnd .. => execBistSliceEnd_keeps h | .repairStored => execRepairStored_keeps h
  | .lpddrPhyCheck .. => execLpddrPhyCheck_keeps h | .kegEyeCheck .. => execKegEyeCheck_keeps h | .pcieEyeCheck .. => execPcieEyeCheck_keeps h
  | .pllCheck .. => execPllCheck_keeps h | .pllRelock .. => execPllRelock_keeps h | .tbLoopbackCheck .. => execTbLoopbackCheck_keeps h
  | .tbSpanEnd => execTbSpanEnd_keeps h | .pcieLinkUp .. => execPcieLinkUp_keeps h | .pcieLinkDown => execPcieLinkDown_keeps h
  | .d3hotEntry => execD3hotEntry_keeps h | .atsTranslationRequest .. => execAtsTranslationRequest_keeps h | .vfFlr .. => execVfFlr_keeps h
  | .cmdRingPoll .. => execCmdRingPoll_keeps h | .commandResponse .. => execCommandResponse_keeps h | .ctxBind .. => execCtxBind_keeps h
  | .ctxUnbind .. => execCtxUnbind_keeps h | .ringCreate .. => execRingCreate_keeps h | .ringDestroy .. => execRingDestroy_keeps h
  | .intakePoll .. => execIntakePoll_keeps h | .completionWrite => execCompletionWrite_keeps h | .cqConsPoll .. => execCqConsPoll_keeps h
  | .msixItimeExpire .. => execMsixItimeExpire_keeps h | .msixUnmask .. => execMsixUnmask_keeps h | .winRearm .. => execWinRearm_keeps h
  | .hostWindowRead .. => execHostWindowRead_keeps h | .hostWindowWrite .. => execHostWindowWrite_keeps h
  | .kegFlitReceive .. => execKegFlitReceive_keeps h | .kegLossTimeout .. => execKegLossTimeout_keeps h
  | .kegTrainStart .. => execKegTrainStart_keeps h | .kegTrainDone .. => execKegTrainDone_keeps h | .kegRetrain .. => execKegRetrain_keeps h
  | .beaconSend => execBeaconSend_keeps h | .beaconReceive .. => execBeaconReceive_keeps h | .reachExpire .. => execReachExpire_keeps h
  | .fenceSelf => execFenceSelf_keeps h | .kegEpoch .. => execKegEpoch_keeps h | .routeSet .. => execRouteSet_keeps h
  | .jobCreate .. => execJobCreate_keeps h | .jobEnd .. => execJobEnd_keeps h | .rwinBind .. => execRwinBind_keeps h
  | .rwinUnbind .. => execRwinUnbind_keeps h | .remoteAccess .. => execRemoteAccess_keeps h | .cabIndexWrite .. => execCabIndexWrite_keeps h
  | .collOpStart .. => execCollOpStart_keeps h | .collRecordReceive .. => execCollRecordReceive_keeps h | .collOpDone .. => execCollOpDone_keeps h
  | .rerunReceive .. => execRerunReceive_keeps h | .abortReceive .. => execAbortReceive_keeps h | .pull => execPull_keeps h
  | .mateEarlyReturn => execMateEarlyReturn_keeps h | .mateLateBreak => execMateLateBreak_keeps h | .regulatorStart .. => execRegulatorStart_keeps h
  | .supplySample .. => execSupplySample_keeps h | .pwrWarnLow => execPwrWarnLow_keeps h | .shedEnd => execShedEnd_keeps h
  | .powerInterval => execPowerInterval_keeps h | .thermalSample .. => execThermalSample_keeps h | .thermalTrip => execThermalTrip_keeps h
  | .coolantAlarm => execCoolantAlarm_keeps h | .thermAlertLow => execThermAlertLow_keeps h | .thermAlertClear => execThermAlertClear_keeps h
  | .orphanTimeout => execOrphanTimeout_keeps h | .mctpSetEndpointId .. => execMctpSetEndpointId_keeps h
  | .mctpGetEndpointId => execMctpGetEndpointId_keeps h | .mctpGetVersionSupport .. => execMctpGetVersionSupport_keeps h
  | .mctpGetMessageTypeSupport => execMctpGetMessageTypeSupport_keeps h | .mctpDrop .. => execMctpDrop_keeps h
  | .pldmGetTid => execPldmGetTid_keeps h | .pldmGetPldmVersion .. => execPldmGetPldmVersion_keeps h
  | .pldmGetPldmTypes => execPldmGetPldmTypes_keeps h | .pldmGetPldmCommands .. => execPldmGetPldmCommands_keeps h
  | .pldmGetPdr .. => execPldmGetPdr_keeps h | .pldmGetSensorReading .. => execPldmGetSensorReading_keeps h
  | .pldmGetStateSensorReadings .. => execPldmGetStateSensorReadings_keeps h
  | .pldmSetNumericEffecterValue .. => execPldmSetNumericEffecterValue_keeps h
  | .pldmSetStateEffecterStates => execPldmSetStateEffecterStates_keeps h | .pldmPollPlatformEvent => execPldmPollPlatformEvent_keeps h
  | .pldmGetFruRecordTable => execPldmGetFruRecordTable_keeps h | .pldmUnsupported .. => execPldmUnsupported_keeps h
  | .powerOnReset => execPowerOnReset_keeps h | .moduleReset .. => execModuleReset_keeps h | .hostReset .. => execHostReset_keeps h
  | .hostFillDone => execHostFillDone_keeps h | .startupPhaseEnd .. => execStartupPhaseEnd_keeps h | .startLate => execStartLate_keeps h
  | .perstDeassert => execPerstDeassert_keeps h | .configRequest .. => execConfigRequest_keeps h
  | .linkDeclaredFailed .. => execLinkDeclaredFailed_keeps h | .modResetNRise .. => execModResetNRise_keeps h
  | .standbyCoreRestart .. => execStandbyCoreRestart_keeps h | .frameClearDone .. => execFrameClearDone_keeps h
  | .caskLoadDone .. => execCaskLoadDone_keeps h | .passPositionStore => execPassPositionStore_keeps h
  | .structureCopyDone => execStructureCopyDone_keeps h

/-! The clock (assumption log 5) -/

theorem clock_standing (tb : TimeBase) (clk : Nat) (h : tb.advancing = false) : tb.clock clk = tb := by
  rw [TimeBase.clock, h]
  rfl

/-- From `a` to `b` nothing of the time base moves but the interpolated value, its remainder and its history. -/
def TickMoved (a b : TimeBase) : Prop := b = { a with tickFx := b.tickFx, rem := b.rem, hist := b.hist }

theorem TickMoved.moveTo {a b : TimeBase} (h : TickMoved a b) (fx clk : Nat) : TickMoved a (b.moveTo fx clk) := by
  unfold TickMoved TimeBase.moveTo at *
  extract_lets fx'
  rw [h]
  split <;> rfl

theorem tickMoved_clock (tb : TimeBase) (clk : Nat) : TickMoved tb (tb.clock clk) := by
  unfold TimeBase.clock
  split
  · exact rfl
  · obtain ⟨n, d⟩ := tb.curRate
    dsimp only
    split
    · exact rfl
    · have hrem : TickMoved tb { tb with rem := (tb.rem + n) % d } := rfl
      split
      · split
        · exact hrem.moveTo _ _
        · split
          · exact hrem
          · exact hrem.moveTo _ _
      · exact hrem.moveTo _ _

/-- The tick stands in these states and while it is held (R60). -/
theorem advancing_eq_false {tb : TimeBase} (h : tb.st = .idle ∨ tb.st = .stalled ∨ tb.st = .stallFly ∨ tb.hold = true) :
    tb.advancing = false := by
  unfold TimeBase.advancing
  obtain h | h | h | h := h <;> simp [h]

/-! Steps -/

theorem step_command {s : State} {c : Instr} {rest : List Instr} (h : s.pending = c :: rest) : step s = exec c { s with pending := rest } := by
  rw [step, h]

theorem step_clock {s : State} (h : s.pending = []) : step s = .next s.clockTick := by rw [step, h]

theorem safeStep (s : State) : SafeStep s := by
  unfold SafeStep Steps
  cases h : s.pending with
  | nil => exact ⟨_, step_clock h⟩
  | cons c rest =>
    rw [step_command h]
    exact exec_next c _

theorem steps_command {s t : State} {c : Instr} {rest : List Instr} (hs : Steps s t) (h : s.pending = c :: rest) :
    t.pending = rest ∧ t.now = s.now := by
  have hk := (exec_keeps (Keeps.refl { s with pending := rest }) c).keeps t ((step_command h).symm.trans hs)
  exact ⟨hk.pending, hk.now⟩

theorem steps_clock {s t : State} (hs : Steps s t) (h : s.pending = []) : t = s.clockTick :=
  (Host.Outcome.next.inj ((step_clock h).symm.trans hs)).symm

/-! ## O21 -/

/-- Settles O21: a command by its law in `exec_keeps`, a clock by what it moves of the time base. -/
theorem everyStepGoesOn : Obligations.EveryStepGoesOn := by
  refine ⟨fun s => ⟨safeStep s, fun t hs => ⟨fun h => ?_, fun c rest h => steps_command hs h⟩⟩, fun s h => ⟨s.clockTick, step_clock h, rfl, ?_⟩⟩
  · rw [steps_clock hs h]
    exact ⟨h, rfl⟩
  · have stands := fun hst => clock_standing s.tb (s.now + 1) (advancing_eq_false hst)
    exact ⟨tickMoved_clock _ _, fun hst => stands (.inl hst), fun hst => stands (.inr (.inr (.inr hst))), fun hst => stands (.inr (.inl hst)),
      fun hst => stands (.inr (.inr (.inl hst)))⟩

end Sys2Proof
end

section
/-! PROOF. O25: frames, windows and the states without a good frame (R58, R59, R60, R61, R66, R76, R78). -/

namespace Sys2Proof

open Machine

/-! ## Frames (R58) -/

/-- The line is enabled in `TBASE.CFG`. -/
def lineOn (s : State) (lineB : Bool) : Bool := if lineB then s.tbFlag F.TBASE_CFG_LINE_B_EN else s.tbFlag F.TBASE_CFG_LINE_A_EN

/-- What a frame on a line in use does, by the verdict on it. -/
def judgedFrame (s : State) (lineB codeErr : Bool) (bytes : List Byte) : State :=
  match s.frameVerdict lineB codeErr bytes with
  | .crc =>
    let s1 := (s.count pgTBASE (if lineB then 0x058 else 0x054) 1).raise pgTBASE 7
    { s1 with bist := { s1.bist with tbErr := nput s1.bist.tbErr (2 + boolNat lineB) 1 } }
  | .version => s
  | .source => s.raise pgTBASE 8
  | .back => s.raise pgTBASE 18
  | .valid =>
    let s1 := (s.count pgTBASE (if lineB then 0x050 else 0x04C) 1).wr pgTBASE F.TBASE_SRC_SEEN (frameOf bytes s.now).src
    if lineB then { s1 with tb := { s.tb with lastB := some (frameOf bytes s.now).tick, winB := some (frameOf bytes s.now) } }
    else { s1 with tb := { s.tb with lastA := some (frameOf bytes s.now).tick, winA := some (frameOf bytes s.now) } }

section
variable {lineB codeErr : Bool} {bytes : List Byte} {s : State}

theorem tbFrameReceive_unused (h : lineOn s lineB = false ∨ nbit (s.rd pgMOD F.MOD_FIXED_SVC) (4 + boolNat lineB) = false) :
    exec (.tbFrameReceive lineB codeErr bytes) s = .next s := by
  refine congrArg Host.Outcome.next (if_pos ?_)
  change (!lineOn s lineB || _) = true
  obtain h | h := h <;> simp [h]

theorem tbFrameReceive_judged (h : lineOn s lineB = true) (hs : nbit (s.rd pgMOD F.MOD_FIXED_SVC) (4 + boolNat lineB) = true) :
    exec (.tbFrameReceive lineB codeErr bytes) s = .next (judgedFrame s lineB codeErr bytes) := by
  refine congrArg Host.Outcome.next (if_neg ?_)
  change ¬(!lineOn s lineB || _) = true
  simp [h, hs]

theorem judgedFrame_valid (hv : s.frameVerdict lineB codeErr bytes = .valid) :
    let t := judgedFrame s lineB codeErr bytes
    t = { s with regs := t.regs, ctrs := t.ctrs, tb := t.tb } ∧
      t.rd pgTBASE F.TBASE_SRC_SEEN = (frameOf bytes s.now).src % 65536 ∧ RegsBut s t [fkey pgTBASE F.TBASE_SRC_SEEN 0] ∧
      (lineB = false → t.tb = { s.tb with lastA := some (frameOf bytes s.now).tick, winA := some (frameOf bytes s.now) } ∧
        t.ctr pgTBASE 0x04C = s.ctr pgTBASE 0x04C + 1) ∧
      (lineB = true → t.tb = { s.tb with lastB := some (frameOf bytes s.now).tick, winB := some (frameOf bytes s.now) } ∧
        t.ctr pgTBASE 0x050 = s.ctr pgTBASE 0x050 + 1) := by
  have hseen := State.rdi_wri_self s pgTBASE F.TBASE_SRC_SEEN 0 (frameOf bytes s.now).src
  have hregs := (regsBut_refl s).wr pgTBASE F.TBASE_SRC_SEEN (frameOf bytes s.now).src
  rw [judgedFrame, hv]
  cases lineB
  · exact ⟨rfl, hseen, hregs, fun _ => ⟨rfl, State.ctr_count_self s pgTBASE 0x04C 1⟩, nofun⟩
  · exact ⟨rfl, hseen, hregs, nofun, fun _ => ⟨rfl, State.ctr_count_self s pgTBASE 0x050 1⟩⟩

theorem judgedFrame_crc (hv : s.frameVerdict lineB codeErr bytes = .crc) :
    let t := judgedFrame s lineB codeErr bytes
    t.tb = s.tb ∧ Raised t pgTBASE 7 ∧
      t.ctr pgTBASE (if lineB then 0x058 else 0x054) = s.ctr pgTBASE (if lineB then 0x058 else 0x054) + 1 := by
  have hctr : pgTBASE * 4096 + (if lineB then 0x058 else 0x054) ≠ msgCtr := by cases lineB <;> decide
  rw [judgedFrame, hv]
  exact ⟨State.raise_tb _ _ _, raised_raise _ _ _ (by decide), (ctr_raise _ _ _ hctr).trans (State.ctr_count_self s _ _ _)⟩

theorem judgedFrame_version (hv : s.frameVerdict lineB codeErr bytes = .version) : judgedFrame s lineB codeErr bytes = s := by
  rw [judgedFrame, hv]

theorem judgedFrame_source (hv : s.frameVerdict lineB codeErr bytes = .source) :
    Raised (judgedFrame s lineB codeErr bytes) pgTBASE 8 ∧ Quiet s (judgedFrame s lineB codeErr bytes) := by
  rw [judgedFrame, hv]
  exact ⟨raised_raise _ _ _ (by decide), (quiet_refl s).raise _ _⟩

theorem judgedFrame_back (hv : s.frameVerdict lineB codeErr bytes = .back) :
    Raised (judgedFrame s lineB codeErr bytes) pgTBASE 18 ∧ Quiet s (judgedFrame s lineB codeErr bytes) := by
  rw [judgedFrame, hv]
  exact ⟨raised_raise _ _ _ (by decide), (quiet_refl s).raise _ _⟩

end

/-! ## The end of a window (R59, R60) -/

/-- The counts of a span are part of the self-test's record alone (R468). -/
theorem spanWindow_eq (s : State) : s.spanWindow = { s with bist := s.spanWindow.bist } := by
  refine List.foldlRecOn (motive := fun (t : State) => t = { s with bist := t.bist }) _ _ rfl fun t ht l _ => ?_
  dsimp only
  generalize (if l = 0 then F.TBASE_CFG_LINE_A_EN else F.TBASE_CFG_LINE_B_EN) = fd
  split
  · rw [ht]
  · exact ht

/-- The window ended: its lines shown, and no frame left in it. -/
def windowClosed (s : State) : State :=
  let s1 := s.spanWindow.wr pgTBASE F.TBASE_LINE_OK (boolNat s.tb.winA.isSome + 2 * boolNat s.tb.winB.isSome)
  { s1 with tb := { s1.tb with winA := none, winB := none } }

theorem windowClosed_spec (s : State) : (windowClosed s).tb = { s.tb with winA := none, winB := none } ∧
    (windowClosed s).ctrs = s.ctrs ∧ RegsBut s (windowClosed s) [fkey pgTBASE F.TBASE_LINE_OK 0] ∧
    (windowClosed s).rd pgTBASE F.TBASE_LINE_OK = boolNat s.tb.winA.isSome + 2 * boolNat s.tb.winB.isSome := by
  have hlt : ∀ a b : Bool, (boolNat a + 2 * boolNat b) % 2 ^ 2 = boolNat a + 2 * boolNat b := by decide
  have hregs : RegsBut s s.spanWindow [] := fun p F0 i _ => by rw [spanWindow_eq]; rfl
  refine ⟨?_, ?_, hregs.wr _ _ _, (State.rdi_wri_self _ _ _ _ _).trans (hlt _ _)⟩
  all_goals
    unfold windowClosed
    rw [spanWindow_eq]
    rfl

theorem usedFrame_none {s : State} (ha : s.tb.winA = none) (hb : s.tb.winB = none) : s.usedFrame = none := by
  simp [State.usedFrame, ha, hb]

/-- The window without a frame, counted as missing. -/
def windowMissed (s : State) : State :=
  let run := (windowClosed s).tb.missRun + 1
  let tb := { (windowClosed s).tb with missRun := run, longMiss := (windowClosed s).tb.longMiss || decide (16 < run) }
  ({ windowClosed s with tb := tb } : State).count pgTBASE 0x05C 1

theorem exec_tbWindowEnd_missing {s : State} (ha : s.tb.winA = none) (hb : s.tb.winB = none) : exec .tbWindowEnd s = .next (windowMissed s) := by
  change execTbWindowEnd s = _
  rw [execTbWindowEnd, usedFrame_none ha hb]
  rfl

theorem tbWindowEnd_missing {s : State} (ha : s.tb.winA = none) (hb : s.tb.winB = none) :
    ∃ t, exec .tbWindowEnd s = .next t ∧ t.tb.missRun = s.tb.missRun + 1 ∧ t.tb.tickFx = s.tb.tickFx ∧ t.tb.st = s.tb.st ∧
      t.rd pgTBASE F.TBASE_LINE_OK = 0 ∧ t.ctr pgTBASE 0x05C = s.ctr pgTBASE 0x05C + 1 ∧ RegsBut s t [fkey pgTBASE F.TBASE_LINE_OK 0] := by
  obtain ⟨htb, hctrs, hregs, hok⟩ := windowClosed_spec s
  have hctr : (windowClosed s).ctr pgTBASE 0x05C = s.ctr pgTBASE 0x05C := by rw [State.ctr, hctrs, State.ctr]
  refine ⟨_, exec_tbWindowEnd_missing ha hb, ?_, ?_, ?_, ?_, (State.ctr_count_self _ _ _ _).trans (congrArg (· + 1) hctr), hregs⟩
  · simp only [windowMissed, State.count_tb, htb]
  · simp only [windowMissed, State.count_tb, htb]
  · simp only [windowMissed, State.count_tb, htb]
  · rw [ha, hb] at hok
    exact hok

/-- The used frame's source shown, and what its window tells: lines that disagree, and a source that has become degraded. -/
def windowTold (s : State) (f : TbFrame) : State :=
  let s1 := (windowClosed s).wr pgTBASE F.TBASE_SRC_SEEN f.src
  let s2 := match s.tb.winA, s.tb.winB with
    | some x, some y => if ahead x.tick y.tick ≤ 1 ∨ ahead y.tick x.tick ≤ 1 then s1 else s1.raise pgTBASE 9
    | _, _ => s1
  if f.degraded && !s2.tb.degraded then s2.raise pgTBASE 21 else s2

/-- Events leave the time base and the source shown as they are. -/
theorem windowTold_spec (s : State) (f : TbFrame) : (windowTold s f).tb = { s.tb with winA := none, winB := none } ∧
    (windowTold s f).rd pgTBASE F.TBASE_SRC_SEEN = f.src % 65536 := by
  have htold : ∀ (t : State) (bit : Nat), (t.raise pgTBASE bit).tb = t.tb ∧
      (t.raise pgTBASE bit).rd pgTBASE F.TBASE_SRC_SEEN = t.rd pgTBASE F.TBASE_SRC_SEEN := fun t bit =>
    ⟨State.raise_tb _ _ _, State.rdi_raise_ne _ (by decide)⟩
  unfold windowTold
  extract_lets s1 s2
  have h1 : s1.tb = { s.tb with winA := none, winB := none } ∧ s1.rd pgTBASE F.TBASE_SRC_SEEN = f.src % 65536 :=
    ⟨(windowClosed_spec s).1, State.rdi_wri_self _ _ _ _ _⟩
  have h2 : s2.tb = s1.tb ∧ s2.rd pgTBASE F.TBASE_SRC_SEEN = s1.rd pgTBASE F.TBASE_SRC_SEEN := by
    simp only [s2]
    split
    · split
      · exact ⟨rfl, rfl⟩
      · exact htold s1 9
    · exact ⟨rfl, rfl⟩
  have h3 : s2.tb = { s.tb with winA := none, winB := none } ∧ s2.rd pgTBASE F.TBASE_SRC_SEEN = f.src % 65536 := by
    rw [h2.1, h2.2]
    exact h1
  split
  · obtain ⟨htb, hsrc⟩ := htold s2 21
    rw [htb, hsrc]
    exact h3
  · exact h3

/-- The state in which the window's frame is applied. -/
def frameTaken (s : State) (f : TbFrame) : State :=
  let s1 := { windowTold s f with tb := { (windowTold s f).tb with missRun := 0, degraded := f.degraded } }
  if s1.tb.subMarks = 0 then s1.wr pgTBASE F.TBASE_MISS_PERIODS 0 else s1

theorem exec_tbWindowEnd_used {s : State} {f : TbFrame} (h : s.usedFrame = some f) : exec .tbWindowEnd s = .next ((frameTaken s f).applyFrame f) := by
  change execTbWindowEnd s = _
  rw [execTbWindowEnd, h]
  rfl

theorem frameTaken_spec (s : State) (f : TbFrame) :
    (frameTaken s f).tb = { s.tb with winA := none, winB := none, missRun := 0, degraded := f.degraded } ∧
      (frameTaken s f).rd pgTBASE F.TBASE_SRC_SEEN = f.src % 65536 := by
  obtain ⟨htb, hsrc⟩ := windowTold_spec s f
  unfold frameTaken
  extract_lets told tb1 s1
  have h1 : s1.tb = { s.tb with winA := none, winB := none, missRun := 0, degraded := f.degraded } :=
    congrArg (fun tb : TimeBase => { tb with missRun := 0, degraded := f.degraded }) htb
  split
  · exact ⟨h1, (State.rdi_wri_ne _ _ (by decide)).trans hsrc⟩
  · exact ⟨h1, hsrc⟩

/-! The tick follows the frame -/

theorem moveTo_tickFx (tb : TimeBase) (fx clk : Nat) : (tb.moveTo fx clk).tickFx = fx % 2 ^ 64 := by
  unfold TimeBase.moveTo
  extract_lets fx'
  split <;> rfl

/-- From `a` to `b` a frame is followed: the tick may move or be held, the rest of the time base stays. -/
def Followed (a b : TimeBase) : Prop := b = { a with tickFx := b.tickFx, rem := b.rem, hist := b.hist, hold := b.hold }

theorem followed_follow (tb : TimeBase) (f : TbFrame) (clk : Nat) : Followed tb (tb.follow f clk) := by
  have hmove : TickMoved tb (tb.moveTo (f.tick * 65536) clk) := (show TickMoved tb tb from rfl).moveTo _ _
  unfold TimeBase.follow
  generalize tb.moveTo (f.tick * 65536) clk = m at hmove
  extract_lets d
  split
  · rfl
  · split
    · change { m with hold := false, rem := 0 } = { tb with tickFx := m.tickFx, rem := 0, hist := m.hist, hold := false }
      rw [hmove]
    · rfl

/-- The time base after the frame that a window in LOCKED uses (R60). -/
def usedIn (tb : TimeBase) (f : TbFrame) (clk : Nat) : TimeBase := (tb.noteFrame f clk).follow f clk

section
variable {tb : TimeBase} {f : TbFrame} (clk : Nat)

theorem usedIn_kept (tb : TimeBase) (f : TbFrame) : (usedIn tb f clk).st = tb.st ∧ (usedIn tb f clk).missRun = tb.missRun ∧
    (usedIn tb f clk).winA = tb.winA ∧ (usedIn tb f clk).winB = tb.winB ∧ (usedIn tb f clk).lastUsed = some f := by
  have h : Followed (tb.noteFrame f clk) (usedIn tb f clk) := followed_follow _ _ _
  rw [h]
  exact ⟨rfl, rfl, rfl, rfl, rfl⟩

theorem tickFx_noteFrame (tb : TimeBase) (f : TbFrame) : (tb.noteFrame f clk).tickFx = tb.tickFx := rfl

theorem usedIn_level (h : ahead f.tick (tb.tickFx / 65536) = 0) : (usedIn tb f clk).tickFx = tb.tickFx := by
  rw [← tickFx_noteFrame clk tb f] at h
  rw [usedIn, TimeBase.follow, if_pos h, tickFx_noteFrame]

theorem usedIn_ahead (h1 : 1 ≤ ahead f.tick (tb.tickFx / 65536)) (h2 : ahead f.tick (tb.tickFx / 65536) < 2 ^ 47) :
    (usedIn tb f clk).tickFx = f.tick * 65536 % 2 ^ 64 ∧ (usedIn tb f clk).hold = false := by
  rw [← tickFx_noteFrame clk tb f] at h1 h2
  rw [usedIn, TimeBase.follow, if_neg (Nat.ne_of_gt h1), if_pos h2]
  exact ⟨moveTo_tickFx _ _ _, rfl⟩

theorem usedIn_behind (h : 2 ^ 47 ≤ ahead f.tick (tb.tickFx / 65536)) :
    (usedIn tb f clk).tickFx = tb.tickFx ∧ (usedIn tb f clk).hold = true := by
  rw [← tickFx_noteFrame clk tb f] at h
  rw [usedIn, TimeBase.follow, if_neg (by omega), if_neg (Nat.not_lt_of_le h)]
  exact ⟨rfl, rfl⟩

end

theorem rdi_setTb (s : State) (tb : TimeBase) (pg : Nat) (F0 : Field) (i : Nat) : ({ s with tb := tb } : State).rdi pg F0 i = s.rdi pg F0 i := rfl

theorem applyFrame_locked {s : State} {f : TbFrame} (hst : s.tb.st = .locked) (hl : s.tb.loaded = true) (hp : f.pmark = false) :
    s.applyFrame f = { s with tb := usedIn s.tb f s.now } := by
  unfold State.applyFrame State.takePmark usedIn
  simp [hst, hl, hp]

theorem tbWindowEnd_locked {s : State} {f : TbFrame} (hu : s.usedFrame = some f) (hst : s.tb.st = .locked) (hl : s.tb.loaded = true)
    (hf : f.tick < 2 ^ 48) (hp : f.pmark = false) :
    ∃ t, exec .tbWindowEnd s = .next t ∧ t.tb.missRun = 0 ∧ t.tb.st = .locked ∧ t.tb.winA = none ∧ t.tb.winB = none ∧ t.tb.lastUsed = some f ∧
      t.rd pgTBASE F.TBASE_SRC_SEEN = f.src % 65536 ∧
      (ahead f.tick s.tick = 0 → t.tb.tickFx = s.tb.tickFx) ∧
      (1 ≤ ahead f.tick s.tick → ahead f.tick s.tick < 2 ^ 47 → t.tick = f.tick ∧ t.tb.hold = false) ∧
      (2 ^ 47 ≤ ahead f.tick s.tick → t.tb.tickFx = s.tb.tickFx ∧ t.tb.hold = true) := by
  obtain ⟨htb, hsrc⟩ := frameTaken_spec s f
  have hexec := exec_tbWindowEnd_used hu
  rw [applyFrame_locked (by rw [htb, hst]) (by rw [htb, hl]) hp, htb] at hexec
  obtain ⟨kst, kmiss, kA, kB, kused⟩ := usedIn_kept (frameTaken s f).now
    { s.tb with winA := none, winB := none, missRun := 0, degraded := f.degraded } f
  refine ⟨_, hexec, kmiss, kst.trans hst, kA, kB, kused, (rdi_setTb _ _ _ _ _).trans hsrc, fun h => usedIn_level _ h, fun h1 h2 => ?_,
    fun h => usedIn_behind _ h⟩
  obtain ⟨hto, hhold⟩ := usedIn_ahead (tb := { s.tb with winA := none, winB := none, missRun := 0, degraded := f.degraded })
    (frameTaken s f).now h1 h2
  refine ⟨?_, hhold⟩
  rw [State.tick, hto]
  omega

/-! ## The states without a good frame (R61, R66, R76, R78) -/

/-- Entering a state changes nothing besides it but what an event changes. -/
theorem quiet_tbEnter (s : State) (st : TbState) (l : List Nat) : Quiet { s with tb := (s.tbEnter st l).tb } (s.tbEnter st l) := by
  rw [State.tbEnter_tb]
  exact Quiet.foldl (fun _ _ h => h.raise _ _) l (quiet_refl _)

theorem raised_tbEnter_one (s : State) (st : TbState) {bit : Nat} (h : bit < 32) : Raised (s.tbEnter st [bit]) pgTBASE bit := raised_raise _ _ _ h

theorem ctr_tbEnter (s : State) (st : TbState) (l : List Nat) {pg off : Nat} (h : pg * 4096 + off ≠ msgCtr) :
    (s.tbEnter st l).ctr pg off = s.ctr pg off := ctr_foldl _ _ fun t _ => ctr_raise t _ _ h

theorem stallDetect_stalls {s : State} (hst : s.tb.st = .locked) (hn : s.stalledNow = true) :
    ∃ t, exec .stallDetect s = .next t ∧ t.tb = { s.tb with st := .stalled, stallClk := s.now } ∧ Raised t pgTBASE 2 ∧
      t.ctr pgTBASE 0x074 = s.ctr pgTBASE 0x074 + 1 ∧ Quiet { s with tb := t.tb } t := by
  let u := { s with tb := { s.tb with stallClk := s.now } }.tbEnter .stalled [2]
  have hexec : exec .stallDetect s = .next (u.count pgTBASE 0x074 1) := congrArg Host.Outcome.next (if_pos ⟨hst, hn⟩)
  exact ⟨_, hexec, State.tbEnter_tb _ _ _, raised_tbEnter_one _ _ (by decide),
    (State.ctr_count_self _ _ _ _).trans (congrArg (· + 1) (ctr_tbEnter _ _ _ (by decide))), (quiet_tbEnter _ _ _).count _ _ _⟩

theorem stallGuardExpire_flies {s : State} (hst : s.tb.st = .stalled) (hg : s.tb.stallClk + 320 * s.rd pgTBASE F.TBASE_STALL_GUARD_US ≤ s.now) :
    ∃ t, exec .stallGuardExpire s = .next t ∧ t.tb = { s.tb with st := .stallFly, flyNext := s.now } ∧ Raised t pgTBASE 3 ∧
      Quiet { s with tb := t.tb } t :=
  ⟨_, congrArg Host.Outcome.next (if_pos ⟨hst, hg⟩), State.tbEnter_tb _ _ _, raised_tbEnter_one _ _ (by decide), quiet_tbEnter _ _ _⟩

theorem holdoverEntry_enters {s : State} (hm : 16 ≤ s.tb.missRun) (hst : s.tb.st = .locked ∨ s.tb.st = .stalled ∨ s.tb.st = .stallFly) :
    ∃ t, exec .holdoverEntry s = .next t ∧ t.tb = { s.tb with st := .holdover, hold := false } ∧ Raised t pgTBASE 4 ∧
      t.rd pgTBASE F.TBASE_MISS_PERIODS = s.tb.subMarks % 8 ∧ Quiet { s with tb := t.tb } t := by
  let u := { s with tb := { s.tb with hold := false } }.wr pgTBASE F.TBASE_MISS_PERIODS s.tb.subMarks
  have hexec : exec .holdoverEntry s = .next (u.tbEnter .holdover [4]) := congrArg Host.Outcome.next (if_pos ⟨hm, hst⟩)
  have hq : Quiet { s with tb := (u.tbEnter .holdover [4]).tb } { u with tb := (u.tbEnter .holdover [4]).tb } := ⟨rfl, rfl⟩
  exact ⟨_, hexec, State.tbEnter_tb _ _ _, raised_tbEnter_one _ _ (by decide),
    (State.rdi_tbEnter_ne _ _ _ (by decide)).trans (State.rdi_wri_self _ _ _ _ _), hq.trans (quiet_tbEnter _ _ _)⟩

/-- FREE_RUN keeps the tick, and starts the second count at it (R79). -/
theorem enterFreeRun_spec (s : State) : s.enterFreeRun.tb.st = .freeRun ∧ s.enterFreeRun.tb.tickFx = s.tb.tickFx ∧
    s.enterFreeRun.tb.frTick = s.tick ∧ Raised s.enterFreeRun pgTBASE 5 ∧ Quiet { s with tb := s.enterFreeRun.tb } s.enterFreeRun := by
  refine ⟨?_, ?_, ?_, raised_tbEnter_one _ _ (by decide), quiet_tbEnter _ _ _⟩
  all_goals
    rw [State.enterFreeRun, State.tbEnter_tb]

theorem freeRunEntry_holdover {s : State} (hst : s.tb.st = .holdover) (hm : s.rd pgTBASE F.TBASE_MISS_PERIODS = 3) (hd : s.flyDue = true) :
    exec .freeRunEntry s = .next s.enterFreeRun := congrArg Host.Outcome.next (if_pos ⟨hst, hm, hd⟩)

theorem freeRunEntry_lost {s : State} (hst : s.tb.st = .locked) (hn : s.tb.subMarks = 3) (hd : s.markLostDue = true) :
    exec .freeRunEntry s = .next s.enterFreeRun :=
  congrArg Host.Outcome.next ((if_neg (by simp [hst])).trans (if_pos ⟨hst, hn, hd⟩))

/-! ## O25 -/

/-- Settles O25: each clause is the lemma of its command, and of the verdict on its frame. -/
theorem timeBaseLock : Obligations.TimeBaseLock := by
  refine ⟨fun lineB codeErr bytes s en hen => ⟨fun h => ?_, fun h hs => ?_⟩, ⟨fun s => tbWindowEnd_missing, fun s f => tbWindowEnd_locked⟩,
    fun s => ⟨stallDetect_stalls, stallGuardExpire_flies, holdoverEntry_enters, fun hst hm hd => ?_, fun hst hn hd => ?_⟩⟩
  · exact tbFrameReceive_unused (h.imp_left hen.symm.trans)
  · exact ⟨_, tbFrameReceive_judged (hen.symm.trans h) hs, judgedFrame_valid, judgedFrame_crc, judgedFrame_version, judgedFrame_source,
      judgedFrame_back⟩
  · exact ⟨_, freeRunEntry_holdover hst hm hd, enterFreeRun_spec s⟩
  · obtain ⟨h1, h2, -, h4, h5⟩ := enterFreeRun_spec s
    exact ⟨_, freeRunEntry_lost hst hn hd, h1, h2, h4, h5⟩

end Sys2Proof
end

section
/-! PROOF. O26: `TBASE.CFG.ENABLE`, and the copies of the slot table (R67, R69, R70, R80). -/

namespace Sys2Proof

open Machine

/-! ## `TBASE.CFG` (R43, R80) -/

section
variable {fn : Fin 32} {s : State} {v : Nat}

/-- Nothing but register fields changes from `s` to `t`. -/
def RegsOnly (s t : State) : Prop := t = { s with regs := t.regs }

theorem regsOnly_refl (s : State) : RegsOnly s s := rfl

theorem RegsOnly.wr {z s : State} (h : RegsOnly z s) (pg : Nat) (F0 : Field) (v : Nat) : RegsOnly z (s.wr pg F0 v) := by
  unfold RegsOnly at *
  exact congrArg (fun u : State => { u with regs := (s.wr pg F0 v).regs }) h

theorem RegsOnly.setTb {z s : State} (h : RegsOnly z s) (tb : TimeBase) : { s with tb := tb } = { z with regs := s.regs, tb := tb } :=
  congrArg (fun u : State => { u with tb := tb }) h

theorem regsOnly_setTbCfg (s : State) (v : Nat) : RegsOnly s (s.setTbCfg v) :=
  (((((regsOnly_refl s).wr _ _ _).wr _ _ _).wr _ _ _).wr _ _ _).wr _ _ _

/-- The fields of `TBASE.CFG` besides ENABLE. -/
abbrev cfgKeys : List Nat :=
  [F.TBASE_CFG_LINE_B_EN, F.TBASE_CFG_LINE_A_EN, F.TBASE_CFG_SRC_CHECK, F.TBASE_CFG_PRIMARY, F.TBASE_CFG_PERIOD_MODE].map fun fd => fkey pgTBASE fd 0

theorem regsBut_setTbCfg (s : State) (v : Nat) : RegsBut s (s.setTbCfg v) cfgKeys :=
  (((((regsBut_refl s).wr _ _ _).wr _ _ _).wr _ _ _).wr _ _ _).wr _ _ _

/-- The settings that the word `v` of `TBASE.CFG` carries, as the page shows them. -/
structure CfgShown (t : State) (v : Nat) : Prop where
  mode : t.rd pgTBASE F.TBASE_CFG_PERIOD_MODE = v / 2 % 2
  primary : t.rd pgTBASE F.TBASE_CFG_PRIMARY = v / 4 % 2
  lineA : t.rd pgTBASE F.TBASE_CFG_LINE_A_EN = v / 16 % 2
  lineB : t.rd pgTBASE F.TBASE_CFG_LINE_B_EN = v / 32 % 2

theorem cfgShown_setTbCfg (s : State) (v : Nat) : CfgShown (s.setTbCfg v) v where
  mode := (State.rdi_wri_self _ _ _ _ _).trans (Nat.mod_mod _ _)
  primary := (State.rdi_wri_ne _ _ (by decide)).trans ((State.rdi_wri_self _ _ _ _ _).trans (Nat.mod_mod _ _))
  lineA := by
    unfold State.setTbCfg State.rd
    iterate 3 rw [State.rdi_wri_ne _ _ (by decide)]
    exact (State.rdi_wri_self _ _ _ _ _).trans (Nat.mod_mod _ _)
  lineB := by
    unfold State.setTbCfg State.rd
    iterate 4 rw [State.rdi_wri_ne _ _ (by decide)]
    exact (State.rdi_wri_self _ _ _ _ _).trans (Nat.mod_mod _ _)

/-- A state that reads the same in `TBASE.CFG`'s fields besides ENABLE shows the same settings. -/
theorem CfgShown.congr {t u : State} {l : List Nat} (h : CfgShown t v) (hr : RegsBut t u l) (hl : ∀ k ∈ cfgKeys, k ∉ l) : CfgShown u v where
  mode := (hr _ _ _ (hl _ (by decide))).trans h.mode
  primary := (hr _ _ _ (hl _ (by decide))).trans h.primary
  lineA := (hr _ _ _ (hl _ (by decide))).trans h.lineA
  lineB := (hr _ _ _ (hl _ (by decide))).trans h.lineB

theorem tbCfgAction_open (body : State → State) (hm : s.mayWriteBlock pgTBASE fn.val = true) (hk : s.locked pgTBASE = false) :
    s.tbCfgAction fn body = body s :=
  (blockAction_allowed _ _ hm).trans (if_neg (ne_true_of_eq_false hk))

/-! Set (R80) -/

/-- The time base after ENABLE is set: nothing learnt, the first frame awaited. -/
def acquiring (tb : TimeBase) (lastA lastB : Option Nat) (per : Nat) : TimeBase :=
  { tb with
    lastA := lastA, lastB := lastB, st := .acquiring, loaded := false, hold := false, rem := 0, rate := (0, 0), frRate := (0, 0), adj := (0, 0),
    lastUsed := none, missRun := 0, longMiss := false, markClk := none, lockRun := 0, signalled := none, subMarks := 0, frLock := false,
    frLockRun := 0, frMarkClk := none, perTicks := per }

/-- `TBASE.CFG` as a word with ENABLE set leaves the page's fields. -/
def enabledRegs (s : State) (v : Nat) : State := ((s.setTbCfg v).wr pgTBASE F.TBASE_CFG_ENABLE 1).wr pgTBASE F.TBASE_MISS_PERIODS 0

theorem enabledRegs_shown (s : State) (v : Nat) (tb : TimeBase) :
    ({ enabledRegs s v with tb := tb } : State).rd pgTBASE F.TBASE_CFG_ENABLE = 1 ∧ CfgShown { enabledRegs s v with tb := tb } v := by
  have hcfg : CfgShown (enabledRegs s v) v := (cfgShown_setTbCfg s v).congr (((regsBut_refl _).wr _ _ _).wr _ _ _) (by decide)
  have htb : RegsBut (enabledRegs s v) { enabledRegs s v with tb := tb } [] := fun _ _ _ _ => rdi_setTb _ _ _ _ _
  refine ⟨(rdi_setTb _ _ _ _ _).trans ?_, hcfg.congr htb (by simp)⟩
  exact (State.rdi_wri_ne _ _ (by decide)).trans (State.rdi_wri_self _ _ _ _ _)

theorem tbaseEnable_opens (hm : s.mayWriteBlock pgTBASE fn.val = true) (hk : s.locked pgTBASE = false)
    (he : s.on pgTBASE F.TBASE_CFG_ENABLE = false) (w : Word) :
    ∃ lastA lastB per, exec (.tbaseEnable fn w) s = .next { enabledRegs s w.toNat with tb := acquiring s.tb lastA lastB per } :=
  ⟨_, _, _, congrArg Host.Outcome.next ((tbCfgAction_open _ hm hk).trans (if_neg (ne_true_of_eq_false he)))⟩

theorem tbaseEnable_acquires (hm : s.mayWriteBlock pgTBASE fn.val = true) (hk : s.locked pgTBASE = false)
    (he : s.on pgTBASE F.TBASE_CFG_ENABLE = false) (w : Word) :
    ∃ t, exec (.tbaseEnable fn w) s = .next t ∧ t.tb.st = .acquiring ∧ t.tb.loaded = false ∧ t.tb.lastUsed = none ∧ t.tb.lockRun = 0 ∧
      t.rd pgTBASE F.TBASE_CFG_ENABLE = 1 ∧ t.rd pgTBASE F.TBASE_CFG_PERIOD_MODE = w.toNat / 2 % 2 ∧
      t.rd pgTBASE F.TBASE_CFG_PRIMARY = w.toNat / 4 % 2 ∧ t.rd pgTBASE F.TBASE_CFG_LINE_A_EN = w.toNat / 16 % 2 ∧
      t.rd pgTBASE F.TBASE_CFG_LINE_B_EN = w.toNat / 32 % 2 ∧ t = { s with regs := t.regs, tb := t.tb } := by
  obtain ⟨lastA, lastB, per, hexec⟩ := tbaseEnable_opens hm hk he w
  obtain ⟨hen, hcfg⟩ := enabledRegs_shown s w.toNat (acquiring s.tb lastA lastB per)
  exact ⟨_, hexec, rfl, rfl, rfl, rfl, hen, hcfg.mode, hcfg.primary, hcfg.lineA, hcfg.lineB,
    (((regsOnly_setTbCfg s w.toNat).wr _ _ _).wr _ _ _).setTb _⟩

/-! Cleared (R80) -/

/-- The time base in IDLE, its line histories forgotten, and the settings written. -/
def idled (s : State) (v : Nat) : State :=
  { (s.setTbCfg v).wr pgTBASE F.TBASE_CFG_ENABLE 0 with tb := { s.tb with st := .idle, lastA := none, lastB := none, adj := (0, 0) } }

theorem armed_idled (s : State) (v : Nat) : (idled s v).rd pgSNAP F.SNAP_ARMED = s.rd pgSNAP F.SNAP_ARMED := by
  rw [State.rd, idled, rdi_setTb, State.rdi_wri_ne _ _ (by decide)]
  exact regsBut_setTbCfg s v _ _ _ (by decide)

theorem exec_tbaseDisable (hm : s.mayWriteBlock pgTBASE fn.val = true) (hk : s.locked pgTBASE = false)
    (he : s.on pgTBASE F.TBASE_CFG_ENABLE = true) (w : Word) :
    exec (.tbaseDisable fn w) s = .next (
      if s.on pgSNAP F.SNAP_ARMED then ((idled s w.toNat).wr pgSNAP F.SNAP_ARMED 0).snapMissed else idled s w.toNat) := by
  have ha : (idled s w.toNat).on pgSNAP F.SNAP_ARMED = s.on pgSNAP F.SNAP_ARMED := congrArg (· != 0) (armed_idled s w.toNat)
  rw [← ha]
  refine congrArg Host.Outcome.next ((tbCfgAction_open _ hm hk).trans (if_neg ?_))
  simp only [State.tbFlag, he, Bool.not_true, Bool.false_eq_true, not_false_eq_true]

theorem tbaseDisable_idles (hm : s.mayWriteBlock pgTBASE fn.val = true) (hk : s.locked pgTBASE = false)
    (he : s.on pgTBASE F.TBASE_CFG_ENABLE = true) (ha : s.on pgSNAP F.SNAP_ARMED = false) (w : Word) :
    ∃ t, exec (.tbaseDisable fn w) s = .next t ∧ t.tb = { s.tb with st := .idle, lastA := none, lastB := none, adj := (0, 0) } ∧
      t.rd pgTBASE F.TBASE_CFG_ENABLE = 0 ∧ t = { s with regs := t.regs, tb := t.tb } :=
  ⟨idled s w.toNat, (exec_tbaseDisable hm hk he w).trans (congrArg Host.Outcome.next (if_neg (ne_true_of_eq_false ha))), rfl,
    (rdi_setTb _ _ _ _ _).trans (State.rdi_wri_self _ _ _ _ _), ((regsOnly_setTbCfg s w.toNat).wr _ _ _).setTb _⟩

theorem tbaseDisable_misses (hm : s.mayWriteBlock pgTBASE fn.val = true) (hk : s.locked pgTBASE = false)
    (he : s.on pgTBASE F.TBASE_CFG_ENABLE = true) (ha : s.on pgSNAP F.SNAP_ARMED = true) (w : Word) :
    ∃ t, exec (.tbaseDisable fn w) s = .next t ∧ t.tb.st = .idle ∧ t.tb.tickFx = s.tb.tickFx ∧ t.rd pgSNAP F.SNAP_ARMED = 0 ∧
      t.rd pgSNAP F.SNAP_MISSED = 1 ∧ Raised t pgSNAP 1 := by
  have htb : (((idled s w.toNat).wr pgSNAP F.SNAP_ARMED 0).snapMissed).tb = (idled s w.toNat).tb := State.raise_tb _ _ _
  refine ⟨((idled s w.toNat).wr pgSNAP F.SNAP_ARMED 0).snapMissed,
    (exec_tbaseDisable hm hk he w).trans (congrArg Host.Outcome.next (if_pos ha)), ?_, ?_, ?_, ?_, raised_raise _ _ _ (by decide)⟩
  · rw [htb, idled]
  · rw [htb, idled]
  · exact (State.rdi_raise_ne _ (by decide)).trans ((State.rdi_wri_ne _ _ (by decide)).trans (State.rdi_wri_self _ _ _ _ _))
  · exact (State.rdi_raise_ne _ (by decide)).trans (State.rdi_wri_self _ _ _ _ _)

/-! Locked (R43) -/

theorem accessErr_told (s : State) (a : RegAcc) : (s.accessErr a).tb = s.tb ∧ Raised (s.accessErr a) pgMOD 0 := by
  unfold State.accessErr
  split
  · exact ⟨State.raise_tb _ _ _, raised_raise _ _ _ (by decide)⟩
  · exact ⟨State.raise_tb _ _ _, raised_raise _ _ _ (by decide)⟩

theorem tbCfgAction_locked (body : State → State) (hm : s.mayWriteBlock pgTBASE fn.val = true) (hk : s.locked pgTBASE = true) :
    ∃ a, s.tbCfgAction fn body = s.accessErr a :=
  ⟨_, (blockAction_allowed _ _ hm).trans (if_pos hk)⟩

theorem tbCfg_locked (hm : s.mayWriteBlock pgTBASE fn.val = true) (hk : s.locked pgTBASE = true) (w : Word) :
    ∃ t t', exec (.tbaseEnable fn w) s = .next t ∧ exec (.tbaseDisable fn w) s = .next t' ∧ t.tb = s.tb ∧ t'.tb = s.tb ∧
      Raised t pgMOD 0 ∧ Raised t' pgMOD 0 := by
  obtain ⟨a, ha⟩ := tbCfgAction_locked _ hm hk
  obtain ⟨b, hb⟩ := tbCfgAction_locked _ hm hk
  obtain ⟨ha1, ha2⟩ := accessErr_told s a
  obtain ⟨hb1, hb2⟩ := accessErr_told s b
  exact ⟨_, _, congrArg Host.Outcome.next ha, congrArg Host.Outcome.next hb, ha1, hb1, ha2, hb2⟩

end

/-! ## The slot table (R67, R69, R70) -/

theorem RegsBut.wri {z s : State} {l : List Nat} (h : RegsBut z s l) (pg : Nat) (F0 : Field) (i v : Nat) :
    RegsBut z (s.wri pg F0 i v) (l ++ [fkey pg F0 i]) := by
  intro p F1 j hk
  simp only [List.mem_append, List.mem_singleton, not_or] at hk
  exact (State.rdi_wri_ne s v hk.2).trans (h p F1 j hk.1)

theorem RegsBut.raise {z s : State} {l : List Nat} (h : RegsBut z s l) (pg bit : Nat) : RegsBut z (s.raise pg bit) (l ++ [fkey pg F.EVT_RAW 0]) :=
  (h.wr _ _ _).edges s

section
variable {fn : Fin 32} {s : State}

/-- A refusal of the slot table is told, and nothing else changes. -/
theorem slotRefusal_told (s : State) {bit : Nat} (h : bit < 32) :
    Raised (s.raise pgTBASE bit) pgTBASE bit ∧ RegsBut s (s.raise pgTBASE bit) [fkey pgTBASE F.EVT_RAW 0] ∧ Quiet s (s.raise pgTBASE bit) :=
  ⟨raised_raise _ _ _ h, (regsBut_refl s).raise _ _, (quiet_refl s).raise _ _⟩

theorem slotTableWrite_taken (hm : s.mayWriteBlock pgTBASE fn.val = true) {copyB : Bool} (slot : Fin 64) (v : Word)
    (ha : s.activeCopy ≠ boolNat copyB) (hp : s.on pgTBASE F.TBASE_SLOT_TBL_SEL_PEND = false) :
    ∃ t, exec (.slotTableWrite fn copyB slot v) s = .next t ∧ t.slotEntry (boolNat copyB) slot.val = v.toNat / 65536 * 65536 ∧
      RegsBut s t [fkey pgTBASE F.SLOT_TBL (64 * boolNat copyB + slot.val)] ∧ t = { s with regs := t.regs } := by
  have hlt : v.toNat / 65536 * 65536 < 2 ^ 32 := by omega
  exact ⟨s.wri pgTBASE F.SLOT_TBL (64 * boolNat copyB + slot.val) (v.toNat / 65536 * 65536),
    congrArg Host.Outcome.next ((blockAction_allowed _ _ hm).trans (if_neg (not_or.mpr ⟨ha, ne_true_of_eq_false hp⟩))),
    (State.rdi_wri_self _ _ _ _ _).trans (Nat.mod_eq_of_lt hlt), (regsBut_refl s).wri _ _ _ _, rfl⟩

theorem slotTableWrite_refused (hm : s.mayWriteBlock pgTBASE fn.val = true) {copyB : Bool} (slot : Fin 64) (v : Word)
    (h : s.activeCopy = boolNat copyB ∨ s.on pgTBASE F.TBASE_SLOT_TBL_SEL_PEND = true) :
    ∃ t, exec (.slotTableWrite fn copyB slot v) s = .next t ∧ Raised t pgTBASE 13 ∧ RegsBut s t [fkey pgTBASE F.EVT_RAW 0] ∧ Quiet s t :=
  ⟨_, congrArg Host.Outcome.next ((blockAction_allowed _ _ hm).trans (if_pos h)), slotRefusal_told s (by decide)⟩

theorem slotSwReq_pends (hm : s.mayWriteBlock pgTBASE fn.val = true) (hok : s.switchOk (1 - s.activeCopy) = true) :
    ∃ t, exec (.slotSwReq fn) s = .next t ∧ t.rd pgTBASE F.TBASE_SLOT_TBL_SEL_PEND = 1 ∧ t.activeCopy = s.activeCopy ∧
      RegsBut s t [fkey pgTBASE F.TBASE_SLOT_TBL_SEL_PEND 0] ∧ t = { s with regs := t.regs } :=
  ⟨_, congrArg Host.Outcome.next ((blockAction_allowed _ _ hm).trans (if_pos hok)), State.rdi_wri_self _ _ _ _ _, State.rdi_wri_ne _ _ (by decide),
    (regsBut_refl s).wr _ _ _, rfl⟩

theorem slotSwReq_refused (hm : s.mayWriteBlock pgTBASE fn.val = true) (hno : s.switchOk (1 - s.activeCopy) = false) :
    ∃ t, exec (.slotSwReq fn) s = .next t ∧ Raised t pgTBASE 15 ∧ RegsBut s t [fkey pgTBASE F.EVT_RAW 0] ∧ Quiet s t :=
  ⟨_, congrArg Host.Outcome.next ((blockAction_allowed _ _ hm).trans (if_neg (ne_true_of_eq_false hno))), slotRefusal_told s (by decide)⟩

theorem slotSwCancel_ends (hm : s.mayWriteBlock pgTBASE fn.val = true) :
    ∃ t, exec (.slotSwCancel fn) s = .next t ∧ t.rd pgTBASE F.TBASE_SLOT_TBL_SEL_PEND = 0 ∧
      RegsBut s t [fkey pgTBASE F.TBASE_SLOT_TBL_SEL_PEND 0] ∧ t = { s with regs := t.regs } :=
  ⟨_, congrArg Host.Outcome.next (blockAction_allowed _ _ hm), State.rdi_wri_self _ _ _ _ _, (regsBut_refl s).wr _ _ _, rfl⟩

/-- The entries of the slot table lie behind the page's other registers. -/
theorem fkey_slotTbl_ne {F0 : Field} (i : Nat) (h : F0.off * 32 + F0.lo < 0x400 * 32) : fkey pgTBASE F.SLOT_TBL i ≠ fkey pgTBASE F0 0 := by
  simp only [fkey, F.SLOT_TBL, Nat.mul_zero]
  omega

theorem switchTables_switches (hp : s.on pgTBASE F.TBASE_SLOT_TBL_SEL_PEND = true) :
    s.switchTables.activeCopy = 1 - s.activeCopy ∧ s.switchTables.rd pgTBASE F.TBASE_SLOT_TBL_SEL_PEND = 0 ∧ Raised s.switchTables pgTBASE 14 ∧
      ∀ c k, s.switchTables.slotEntry c k = s.slotEntry c k := by
  have heq : s.switchTables =
      ((s.wr pgTBASE F.TBASE_SLOT_TBL_SEL_ACTIVE (1 - s.activeCopy)).wr pgTBASE F.TBASE_SLOT_TBL_SEL_PEND 0).raise pgTBASE 14 := if_pos hp
  have hbit : (1 - s.activeCopy) % 2 ^ 1 = 1 - s.activeCopy := by omega
  rw [heq]
  refine ⟨?_, ?_, raised_raise _ _ _ (by decide), fun c k => ?_⟩
  · exact (State.rdi_raise_ne _ (by decide)).trans
      ((State.rdi_wri_ne _ _ (by decide)).trans ((State.rdi_wri_self _ _ _ _ _).trans hbit))
  · exact (State.rdi_raise_ne _ (by decide)).trans (State.rdi_wri_self _ _ _ _ _)
  · exact (State.rdi_raise_ne _ (fkey_slotTbl_ne _ (by decide))).trans
      ((State.rdi_wri_ne _ _ (fkey_slotTbl_ne _ (by decide))).trans (State.rdi_wri_ne _ _ (fkey_slotTbl_ne _ (by decide))))

end

/-! ## O26 -/

/-- Settles O26: each clause is the lemma of its command. -/
theorem timeBaseCommands : Obligations.TimeBaseCommands :=
  ⟨fun _ v _ hm => ⟨fun hk he => tbaseEnable_acquires hm hk he v, fun hk he ha => tbaseDisable_idles hm hk he ha v,
      fun hk he ha => tbaseDisable_misses hm hk he ha v, fun hk => tbCfg_locked hm hk v⟩,
    fun _ _ hm => ⟨fun _ slot v => ⟨slotTableWrite_taken hm slot v, slotTableWrite_refused hm slot v⟩, slotSwReq_pends hm,
      slotSwReq_refused hm, slotSwCancel_ends hm, switchTables_switches⟩⟩

end Sys2Proof
end

section
/-! SUPPORT. The tun array's instructions: the accumulator sets under writes of elements, kinds and whole tiles, and what a kernel that has gone on
still reads. -/

namespace Sys2Proof.Machine

/-! The state of the running kernel -/

theorem mput_mput_same {α : Type} (m : AMap α) (k : Nat) (v v' : α) : mput (mput m k v) k v' = mput m k v' := by
  induction m with
  | nil => simp [mput]
  | cons e m ih =>
    obtain ⟨j, u⟩ := e
    rcases lt_trichotomy k j with h | rfl | h
    · simp [mput, h]
    · simp [mput]
    · simp [mput, ih, h.not_gt, h.ne']

/-- Of two kernels put on a vat the second stays. -/
theorem State.setKern_setKern (s : State) (pg : Nat) (k k' : Option Kernel) : (s.setKern pg k).setKern pg k' = s.setKern pg k' := by
  unfold State.setKern
  rw [State.vat_setVat_self]
  simp only [State.setVat, mput_mput_same]

@[simp] theorem State.kern_count (s : State) (pg off n p : Nat) : (s.count pg off n).kern p = s.kern p := rfl

/-! What a kernel that has gone on reads -/

@[simp] theorem Kernel.advance_ar (k : Kernel) (a r c : Nat) : k.advance.ar a r c = k.ar a r c := rfl
@[simp] theorem Kernel.push_ar (k : Kernel) (u : Unit3) (ms : List Mark) (a r c : Nat) : (k.push u ms).ar a r c = k.ar a r c := by cases u <;> rfl
@[simp] theorem Kernel.advance_active (k : Kernel) (w : IW) : k.advance.active w = k.active w := rfl
@[simp] theorem Kernel.push_active (k : Kernel) (u : Unit3) (ms : List Mark) (w : IW) : (k.push u ms).active w = k.active w := by cases u <;> rfl

/-- The keys of a kernel's addresses rest on its descriptor, its context and the register fields: not on where it is and what it has queued. -/
@[simp] theorem State.kkey_push (s : State) (pg p : Nat) (k : Kernel) (ko : Option Kernel) (u : Unit3) (ms : List Mark) (a : Nat) :
    (s.setKern p ko).kkey pg (k.advance.push u ms) a = s.kkey pg k a := by cases u <;> rfl

@[simp] theorem State.kbyte_push (s : State) (pg p : Nat) (k : Kernel) (ko : Option Kernel) (u : Unit3) (ms : List Mark) (a : Nat) :
    (s.setKern p ko).kbyte pg (k.advance.push u ms) a = s.kbyte pg k a := by
  simp only [State.kbyte, State.kkey_push]
  rfl

@[simp] theorem State.kbad_push (s : State) (pg p : Nat) (k : Kernel) (ko : Option Kernel) (u : Unit3) (ms : List Mark) (a n : Nat) :
    (s.setKern p ko).kbad pg (k.advance.push u ms) a n = s.kbad pg k a n := by
  simp only [State.kbad, State.kkey_push]
  rfl

@[simp] theorem State.kdenied_push (s : State) (pg p : Nat) (k : Kernel) (ko : Option Kernel) (u : Unit3) (ms : List Mark) (a n : Nat) :
    (s.setKern p ko).kdenied pg (k.advance.push u ms) a n = s.kdenied pg k a n := by
  simp only [State.kdenied, State.kkey_push]

/-! The accumulator sets -/

theorem mget_mfilterOut {α : Type} (p : Nat → Bool) (m : AMap α) (j : Nat) : mget (mfilterOut p m) j = if p j then none else mget m j := by
  induction m with
  | nil => simp [mfilterOut, mget]
  | cons e m ih =>
    obtain ⟨i, u⟩ := e
    unfold mfilterOut at ih ⊢
    by_cases hij : i = j
    · subst hij
      cases hp : p i <;> simp [mget, hp, ih]
    · cases hp : p i <;> simp [mget, hp, ih, hij]

/-- Clearing set `a` (R123) leaves the other set's elements. -/
theorem nget_clearSet (m : AMap Nat) (a a' : Nat) {r c : Nat} (hr : r < 32) (hc : c < 32) :
    nget (mfilterOut (fun i => i / 1024 == a) m) (1024 * a' + 32 * r + c) = if a' = a then 0 else nget m (1024 * a' + 32 * r + c) := by
  have hset : (1024 * a' + 32 * r + c) / 1024 = a' := by omega
  simp only [ngetD, mget_mfilterOut, hset, beq_iff_eq]
  split <;> rfl

@[simp] theorem Kernel.isInt_setInt (k : Kernel) (a : Nat) (b : Bool) : (k.setInt a b).isInt a = b := by
  unfold Kernel.isInt Kernel.setInt
  split <;> rfl

@[simp] theorem Kernel.ar_setInt (k : Kernel) (a : Nat) (b : Bool) (a' r c : Nat) : (k.setInt a b).ar a' r c = k.ar a' r c := by
  unfold Kernel.setInt
  split <;> rfl

theorem Kernel.isInt_aw (k : Kernel) (a r c val a' : Nat) : (k.aw a r c val).isInt a' = k.isInt a' := rfl

/-- An element after a write of element `n` of set `a`, counted row by row. -/
theorem Kernel.ar_aw (k : Kernel) {a a' n r c : Nat} (val : Nat) (hn : n < 1024) (hr : r < 32) (hc : c < 32) :
    (k.aw a (n / 32) (n % 32) val).ar a' r c = if a' = a ∧ 32 * r + c = n then val % 2 ^ 32 else k.ar a' r c := by
  unfold Kernel.ar Kernel.aw
  split
  · next h =>
    rw [show 1024 * a' + 32 * r + c = 1024 * a + 32 * (n / 32) + n % 32 by omega]
    exact ngetD_nputD_self ..
  · next h => exact ngetD_nputD_ne _ _ _ _ (by omega)

/-- The first `n` elements of set `a`, row by row, written with `f` of their place. -/
def Kernel.awFirst (k : Kernel) (a : Nat) (f : Nat → Nat) (n : Nat) : Kernel :=
  (List.range n).foldl (fun t i => t.aw a (i / 32) (i % 32) (f i)) k

theorem Kernel.awFirst_succ (k : Kernel) (a : Nat) (f : Nat → Nat) (n : Nat) :
    k.awFirst a f (n + 1) = (k.awFirst a f n).aw a (n / 32) (n % 32) (f n) := by
  simp [Kernel.awFirst, List.range_succ]

theorem Kernel.ar_awFirst (k : Kernel) (a : Nat) (f : Nat → Nat) {n : Nat} (hn : n ≤ 1024) {a' r c : Nat} (hr : r < 32) (hc : c < 32) :
    (k.awFirst a f n).ar a' r c = if a' = a ∧ 32 * r + c < n then f (32 * r + c) % 2 ^ 32 else k.ar a' r c := by
  induction n with
  | zero => simp [Kernel.awFirst]
  | succ n ih =>
    rw [Kernel.awFirst_succ, Kernel.ar_aw _ _ (by omega) hr hc, ih (by omega)]
    by_cases h : 32 * r + c = n
    · simp [h]
    · simp only [h, and_false, if_false, Nat.lt_succ_iff_lt_or_eq, or_false]

theorem Kernel.isInt_awFirst (k : Kernel) (a : Nat) (f : Nat → Nat) (n a' : Nat) : (k.awFirst a f n).isInt a' = k.isInt a' := by
  induction n with
  | zero => rfl
  | succ n ih => rw [Kernel.awFirst_succ, Kernel.isInt_aw, ih]

/-! The product -/

section
variable (k : Kernel) (w : IW) (byteA byteB : Nat → Nat)

/-- Element `r`, `c` of the set of an MMA: the old element, or 0, and the products over *K* (R120–R122). -/
def mmaAt (r c : Nat) : Nat × Nat :=
  mmaElem (mmaA w) (mmaB w) (mmaK w) (mmaDiag w) byteA byteB r c (if mmaZero w then 0 else k.ar (bits w.fmt 0 1) r c)

/-- The kernel after an MMA: its set has the kind of the operands and the 1,024 elements that `mmaAt` gives, each from the kernel before. -/
theorem mmaSet_kernel :
    (mmaSet k w byteA byteB).1 =
      (k.setInt (bits w.fmt 0 1) (fmtIsInt (mmaA w))).awFirst (bits w.fmt 0 1) (fun i => (mmaAt k w byteA byteB (i / 32) (i % 32)).1) 1024 :=
  (List.foldl_hom Prod.fst fun _ _ => rfl).symm

theorem mmaSet_isInt : (mmaSet k w byteA byteB).1.isInt (bits w.fmt 0 1) = fmtIsInt (mmaA w) := by
  rw [mmaSet_kernel, Kernel.isInt_awFirst, Kernel.isInt_setInt]

theorem mmaSet_ar (a : Nat) {r c : Nat} (hr : r < 32) (hc : c < 32) :
    (mmaSet k w byteA byteB).1.ar a r c = if a = bits w.fmt 0 1 then (mmaAt k w byteA byteB r c).1 % 2 ^ 32 else k.ar a r c := by
  have hrow : (32 * r + c) / 32 = r := by omega
  have hcol : (32 * r + c) % 32 = c := by omega
  have hall : 32 * r + c < 1024 := by omega
  rw [mmaSet_kernel, Kernel.ar_awFirst _ _ _ le_rfl hr hc, hrow, hcol, Kernel.ar_setInt]
  simp only [hall, and_true]

end

/-- The bytes of an operand at `a`, as the kernel reads them. -/
abbrev State.kbytes (s : State) (pg : Nat) (k : Kernel) (a : Nat) : Nat → Nat := fun j => s.kbyte pg k (a + j)

/-- `n` bytes at `a` that read without a parity error, in lines that the kernel may reach. -/
def State.Readable (s : State) (pg : Nat) (k : Kernel) (a n : Nat) : Prop := s.kbad pg k a n = false ∧ s.kdenied pg k a n = false

/-- An MMA of readable operands: the kernel's set takes the product, and its context counts the saturations (R120). -/
theorem execMma_at {s : State} {v : VatId} {k k1 : Kernel} {w : IW} (h : AtWord s v 0x30 k w) (hr : HasRoom k .tun)
    (hA : s.Readable (vatPg v) k (k.xr w.sa) (operandBytes (mmaA w) (mmaK w)))
    (hB : s.Readable (vatPg v) k (k.xr w.sb) (operandBytes (mmaB w) (mmaK w)))
    (hk1 : k1 = k.advance.push .tun [.acc (bits w.fmt 0 1)]) :
    let r := mmaSet k1 w (s.kbytes (vatPg v) k (k.xr w.sa)) (s.kbytes (vatPg v) k (k.xr w.sb))
    execMma v none s = .next ((s.setKern (vatPg v) (some r.1)).count (pgCNT k1.ctx) F.CNT_NUM_SAT r.2) := by
  obtain ⟨hbA, hdA⟩ := hA
  obtain ⟨hbB, hdB⟩ := hB
  subst hk1
  rw [execMma, State.unitStep_at h hr]
  simp [hbA, hbB, hdA, hdB, State.setKern_setKern]

end Sys2Proof.Machine

namespace Sys2Proof

open Machine

/-- What the register files hold has no part in having issued. -/
theorem Issued.setRegs {k k' : Kernel} {u : Unit3} {ms : List Mark} (h : Issued k k' u ms) (x v p acc : AMap Nat) (i j : Bool) :
    Issued k { k' with x := x, v := v, p := p, acc := acc, int0 := i, int1 := j } u ms := h

/-- The byte stores are apart from the kernels and the counters. -/
theorem sameBytes_setKern_count (s : State) (pg pg' off n : Nat) (k : Option Kernel) : SameBytes s ((s.setKern pg k).count pg' off n) :=
  ⟨fun _ => rfl, fun _ => rfl, fun _ => rfl, fun _ => rfl⟩

/-- Nothing but the accumulator sets, their elements and kinds, changes from `k` to `k'`. -/
def AccOnly (k k' : Kernel) : Prop := k' = { k with acc := k'.acc, int0 := k'.int0, int1 := k'.int1 }

theorem accOnly_setInt (k : Kernel) (a : Nat) (b : Bool) : AccOnly k (k.setInt a b) := by
  unfold Kernel.setInt
  split <;> rfl

theorem AccOnly.setAcc {k k' : Kernel} (h : AccOnly k k') (m : AMap Nat) : AccOnly k { k' with acc := m } := by
  rw [h]
  rfl

theorem AccOnly.awFirst {k k' : Kernel} (h : AccOnly k k') (a : Nat) (f : Nat → Nat) (n : Nat) : AccOnly k (k'.awFirst a f n) := by
  induction n with
  | zero => exact h
  | succ n ih =>
    rw [Kernel.awFirst_succ]
    exact ih.setAcc _

theorem accOnly_mmaSet (k : Kernel) (w : IW) (byteA byteB : Nat → Nat) : AccOnly k (mmaSet k w byteA byteB).1 := by
  rw [mmaSet_kernel]
  exact (accOnly_setInt k _ _).awFirst _ _ _

/-- A kernel that issues to the tun array and then changes its accumulator sets alone: its other registers stay (R123). -/
theorem AccOnly.issued {k k' : Kernel} {ms : List Mark} (h : AccOnly (k.advance.push .tun ms) k') :
    Issued k k' .tun ms ∧ SameX k k' ∧ SameV k k' ∧ SameP k k' := by
  rw [h]
  exact ⟨(Kernel.issued_push k .tun ms (by decide)).setRegs _ _ _ _ _ _, rfl, rfl, rfl⟩

end Sys2Proof
end

section
/-! PROOF. O10: ACCZ, ACCV and MMA, each a lemma (R120–R123). -/

namespace Sys2Proof

open Machine

section
variable {s : State} {v : VatId} {k : Kernel} {w : IW}

/-- The set of an instruction is the lowest bit of `FMT` (R85). -/
theorem bits_zero_one (n : Nat) : bits n 0 1 = n % 2 := by simp [bits]

theorem other_set_ne (n : Nat) : 1 - n % 2 ≠ n % 2 := by omega

/-- ACCZ: the set is cleared and takes its kind from `FMT`[1] (R123). -/
theorem accz_clears (h : AtWord s v 0x31 k w) (hr : HasRoom k .tun) :
    ∃ k', exec (.accz v) s = .next (s.setKern (vatPg v) (some k')) ∧ Issued k k' .tun [.acc (w.fmt % 2)] ∧ SameX k k' ∧ SameV k k' ∧
      SameP k k' ∧ k'.isInt (w.fmt % 2) = nbit w.fmt 1 ∧ (∀ r c, r < 32 → c < 32 → k'.ar (w.fmt % 2) r c = 0) ∧
      ∀ r c, r < 32 → c < 32 → k'.ar (1 - w.fmt % 2) r c = k.ar (1 - w.fmt % 2) r c := by
  let k1 := k.advance.push .tun [.acc (w.fmt % 2)]
  let k' : Kernel := { k1.setInt (w.fmt % 2) (nbit w.fmt 1) with acc := mfilterOut (fun i => i / 1024 == w.fmt % 2) k1.acc }
  have hexec : exec (.accz v) s = .next (s.setKern (vatPg v) (some k')) := by
    change execAccz v s = _
    rw [execAccz, State.regStep, State.unitStep_at h hr]
    simp only [bits_zero_one, State.setKern_setKern]
    rfl
  have har : ∀ a r c, r < 32 → c < 32 → k'.ar a r c = if a = w.fmt % 2 then 0 else k1.ar a r c :=
    fun a _ _ => nget_clearSet k1.acc (w.fmt % 2) a
  obtain ⟨hi, hx, hv, hp⟩ := ((accOnly_setInt k1 (w.fmt % 2) (nbit w.fmt 1)).setAcc _ : AccOnly k1 k').issued
  refine ⟨k', hexec, hi, hx, hv, hp, k1.isInt_setInt _ _, fun r c hr hc => ?_, fun r c hr hc => ?_⟩
  · rw [har _ _ _ hr hc, if_pos rfl]
  · rw [har _ _ _ hr hc, if_neg (other_set_ne _)]
    rfl

/-- ACCV: two rows of the set to the lanes, as the elements stand (R86). -/
theorem accv_copies (h : AtWord s v 0x33 k w) (hr : HasRoom k .tun) :
    ∃ k', exec (.accv v) s = .next (s.setKern (vatPg v) (some k')) ∧ Issued k k' .tun [.v w.dst, .acc (w.fmt % 2)] ∧ SameX k k' ∧
      SameP k k' ∧ SameAcc k k' ∧ VSet k k' w.dst (k.active w) (fun l => k.ar (w.fmt % 2) (2 * bits w.imm 0 4 + l / 32) (l % 32)) := by
  let k1 := k.advance.push .tun [.v w.dst, .acc (w.fmt % 2)]
  obtain ⟨hset, m, hm⟩ := k1.vset_spec w.dst (k.active w) fun l => k.ar (w.fmt % 2) (2 * bits w.imm 0 4 + l / 32) (l % 32)
  refine ⟨_, ?_, ?_, ?_, ?_, ?_, hset⟩
  · change execAccv v s = _
    rw [execAccv, State.regStep, State.unitStep_at h hr]
    simp [bits_zero_one, State.setKern_setKern, k1]
  all_goals rw [hm]
  · exact (Kernel.issued_push k .tun _ (by decide)).setRegs _ _ _ _ _ _
  · rfl
  · rfl
  · exact ⟨rfl, rfl, rfl⟩

/-- MMA: every element of the set accumulates the products over *K*, and the set takes the kind of the operands (R120–R123). -/
theorem mma_accumulates (h : AtWord s v 0x30 k w) (hr : HasRoom k .tun)
    (hA : s.Readable (vatPg v) k (k.xr w.sa) (operandBytes (mmaA w) (mmaK w)))
    (hB : s.Readable (vatPg v) k (k.xr w.sb) (operandBytes (mmaB w) (mmaK w))) :
    ∃ t k', exec (.mma v none) s = .next t ∧ t.kern (vatPg v) = some k' ∧ Issued k k' .tun [.acc (w.fmt % 2)] ∧ SameX k k' ∧ SameV k k' ∧
      SameP k k' ∧ k'.isInt (w.fmt % 2) = fmtIsInt (mmaA w) ∧ SameBytes s t ∧
      (∀ r c, r < 32 → c < 32 → k'.ar (w.fmt % 2) r c = (mmaElem (mmaA w) (mmaB w) (mmaK w) (mmaDiag w)
        (s.kbytes (vatPg v) k (k.xr w.sa)) (s.kbytes (vatPg v) k (k.xr w.sb)) r c
        (if mmaZero w then 0 else k.ar (w.fmt % 2) r c)).1 % 2 ^ 32) ∧
      ∀ r c, r < 32 → c < 32 → k'.ar (1 - w.fmt % 2) r c = k.ar (1 - w.fmt % 2) r c := by
  have hexec := execMma_at h hr hA hB rfl
  obtain ⟨hi, hx, hv, hp⟩ := (accOnly_mmaSet (k.advance.push .tun [.acc (bits w.fmt 0 1)]) w (s.kbytes (vatPg v) k (k.xr w.sa))
    (s.kbytes (vatPg v) k (k.xr w.sb))).issued
  rw [← bits_zero_one]
  refine ⟨_, _, hexec, by rw [State.kern_count, State.kern_setKern_self], hi, hx, hv, hp, by rw [mmaSet_isInt],
    sameBytes_setKern_count .., fun r c hr hc => ?_, fun r c hr hc => ?_⟩
  · rw [mmaSet_ar _ _ _ _ _ hr hc, if_pos rfl, mmaAt, Kernel.push_ar, Kernel.advance_ar]
  · rw [mmaSet_ar _ _ _ _ _ hr hc, if_neg (by rw [bits_zero_one]; exact other_set_ne _), Kernel.push_ar, Kernel.advance_ar]

end

/-! ## O10 -/

/-- Settles O10: each clause is the lemma of its instruction. -/
theorem matrixResults : Obligations.MatrixResults := fun _ _ _ _ _ h hr =>
  ⟨fun e => accz_clears (e ▸ h) hr, fun e => accv_copies (e ▸ h) hr,
    fun e hbA hbB hdA hdB => mma_accumulates (e ▸ h) hr ⟨hbA, hdA⟩ ⟨hbB, hdB⟩⟩

end Sys2Proof
end

section
/-! PROOF. O2: SPWAIT, SPTAKE and SPPOST (R144, R145, R153). -/

namespace Sys2Proof.Machine

/-- Nothing holds the front end of a kernel that has a word to execute. -/
theorem State.fetch_hold {s : State} {pg : Nat} {k : Kernel} {w : IW} (h : s.fetch pg = some (k, w)) : k.hold = none := by
  unfold State.fetch at h
  extract_lets vat at h
  split at h
  · split at h
    · next hc =>
      obtain ⟨rfl, -⟩ := Prod.mk.injEq .. ▸ Option.some.inj h
      exact Option.isNone_iff_eq_none.mp (Bool.and_eq_true_iff.mp hc).1
    · exact absurd h (by simp)
  · exact absurd h (by simp)

/-- A message on a spile that the context's map translates leaves, with the physical spile of the translation. -/
theorem State.spSend_mapped {s : State} {c n phys : Nat} {l : Bool} (h : s.spMap c n = some (phys, l)) (port : Nat) (op : SpOp) :
    s.spSend port c n op = s.send { port := port, ctx := c, v := n, phys := phys, op := op } := by
  rw [State.spSend, h]

/-- The same once a kernel is put on a vat: the maps are apart from the kernels. -/
theorem State.spSend_setKern {s : State} {c n phys : Nat} {l : Bool} (h : s.spMap c n = some (phys, l)) (pg : Nat) (ko : Option Kernel)
    (port : Nat) (op : SpOp) :
    (s.setKern pg ko).spSend port c n op = (s.setKern pg ko).send { port := port, ctx := c, v := n, phys := phys, op := op } :=
  State.spSend_mapped (s := s.setKern pg ko) h port op

/-- A spile instruction that may execute, on a number that is mapped. -/
theorem State.spileStep_at {s : State} {v : VatId} {op phys : Nat} {k : Kernel} {w : IW} {l : Bool}
    {body : State → Nat → Kernel → IW → Nat → Bool → State} (h : AtWord s v op k w) (hx : k.xFree [w.sa, w.sb] = true)
    (hm : s.spMap k.ctx (k.spNum w) = some (phys, l)) : s.spileStep v op body = body s (vatPg v) k.advance w (k.spNum w) l := by
  obtain ⟨hf, ho, hi⟩ := h
  simp [State.spileStep, hf, ho, hi, hx, hm]

end Sys2Proof.Machine

namespace Sys2Proof

open Machine

section
variable {s : State} {v : VatId} {k : Kernel} {w : IW} {phys : Nat} {l : Bool}

/-- SPWAIT: the wait leaves, and its front end is held (R145). -/
theorem exec_spwait (h : AtWord s v 0x05 k w) (hx : k.xFree [w.sa, w.sb] = true) (hm : s.spMap k.ctx (k.spNum w) = some (phys, l)) :
    exec (.spwait v) s = .next ((s.setKern (vatPg v)
      (some { k.advance with hold := some { take := false, v := k.spNum w, n := k.xr w.sb } })).send
        { port := vatPg v, ctx := k.ctx, v := k.spNum w, phys := phys, op := .wait (k.xr w.sb) (.front (vatPg v) (k.cls == 0)) }) := by
  change execSpwait v s = _
  rw [execSpwait, State.spileStep_at h hx hm]
  exact congrArg _ (State.spSend_setKern hm ..)

/-- SPTAKE: the take leaves, and its front end is held (R145). -/
theorem exec_sptake (h : AtWord s v 0x07 k w) (hx : k.xFree [w.sa, w.sb] = true) (hm : s.spMap k.ctx (k.spNum w) = some (phys, l)) :
    exec (.sptake v) s = .next ((s.setKern (vatPg v)
      (some { k.advance with hold := some { take := true, v := k.spNum w, n := k.xr w.sb } })).send
        { port := vatPg v, ctx := k.ctx, v := k.spNum w, phys := phys, op := .take (k.xr w.sb) (.front (vatPg v) (k.cls == 0)) }) := by
  change execSptake v s = _
  rw [execSptake, State.spileStep_at h hx hm]
  exact congrArg _ (State.spSend_setKern hm ..)

/-- SPPOST to a LOCAL group: the post leaves at once (R153). -/
theorem exec_sppost_local (h : AtWord s v 0x06 k w) (hx : k.xFree [w.sa, w.sb] = true) (hm : s.spMap k.ctx (k.spNum w) = some (phys, true)) :
    exec (.sppost v) s = .next ((s.setKern (vatPg v) (some k.advance)).send
      { port := vatPg v, ctx := k.ctx, v := k.spNum w, phys := phys, op := .post (k.xr w.sb) }) := by
  change execSppost v s = _
  rw [execSppost, State.spileStep_at h hx hm, if_pos rfl]
  exact congrArg _ (State.spSend_setKern hm ..)

/-- SPPOST to another group: the kernel keeps the post for END (R153). -/
theorem exec_sppost_held (h : AtWord s v 0x06 k w) (hx : k.xFree [w.sa, w.sb] = true) (hm : s.spMap k.ctx (k.spNum w) = some (phys, false)) :
    exec (.sppost v) s = .next ((s.setKern (vatPg v)
      (some { k.advance with heldPosts := k.heldPosts ++ [(k.spNum w, k.xr w.sb)] })).count (pgSPL k.ctx) 0x05C 1) := by
  change execSppost v s = _
  rw [execSppost, State.spileStep_at h hx hm, if_neg (by decide)]
  rfl

/-- A kernel gone on to its next word has moved, with nothing queued. -/
theorem moved_advance (k : Kernel) : Moved k k.advance := ⟨rfl, fun _ => rfl, rfl, rfl, rfl, rfl, rfl, rfl⟩

end

/-! ## O2 -/

/-- Settles O2: each clause is what its instruction does, sent or held. -/
theorem spileInstructions : Obligations.SpileInstructions := by
  intro v s k w op phys l h hx hm
  have hfree : k.hold = none := State.fetch_hold h.1
  refine ⟨?_, ?_, ?_, ?_⟩
  · rintro rfl
    exact ⟨_, _, exec_spwait h hx hm, rfl, rfl, rfl, rfl, rfl, rfl⟩
  · rintro rfl
    exact ⟨_, _, exec_sptake h hx hm, rfl, rfl, rfl, rfl, rfl, rfl⟩
  · rintro rfl rfl
    exact ⟨_, exec_sppost_local h hx hm, moved_advance k, rfl, rfl, rfl⟩
  · rintro rfl rfl
    exact ⟨_, _, exec_sppost_held h hx hm, State.kern_setKern_self .., rfl, rfl, hfree, rfl, State.ctr_count_self ..⟩

end Sys2Proof
end

section
/-! SUPPORT. A command that nothing keeps from being performed, what a context event leaves alone, and the spiles under writes and posts. -/

namespace Sys2Proof

open Machine

/-! Commands (R483, R484) -/

/-- A command that nothing keeps from being performed is its body, off the list of commands taken. -/
theorem Performs.command {s : State} {fn op : Nat} {vf : Bool} (h : Performs s fn op vf) (tag : Nat) (body : State → State) :
    s.command fn tag op body vf = body (untake s fn tag op) := by
  obtain ⟨hready, hfree, hmay, hcm⟩ := h
  have hvf : ¬(fn ≠ 0 ∧ vf = false) := by
    rintro ⟨hne, hno⟩
    exact hmay.elim hne fun hyes => absurd (hyes.symm.trans hno) (by decide)
  cases hop : cmOp op with
  | false => simp [State.command, hready, hfree, hvf, hop, untake]
  | true =>
    obtain ⟨hctl, hunits⟩ := hcm hop
    simp only [State.command, hready, hfree, hvf, hop, hctl, hunits, Bool.true_and, Bool.not_true, Bool.or_false, Bool.false_eq_true, if_false]
    rfl

/-! Context events (R49) -/

theorem Quiet.spl {s t : State} (h : Quiet s t) : t.spl = s.spl := by rw [h.1]

theorem Quiet.ctxEvent {z s : State} (h : Quiet z s) (c bit st code q : Nat) : Quiet z (s.ctxEvent c bit st code q) := by
  unfold State.ctxEvent
  extract_lets pg wrI i
  split
  · exact ((h.raise _ _).raise _ _).count _ _ _
  · exact (((((h.wri _ _ _ _).wri _ _ _ _).wri _ _ _ _).wri _ _ _ _).wri _ _ _ _).raise _ _

/-- A context event with free values: the counter of free values has gone on by two, and an event is raised. -/
theorem quiet_ctxNoteQ (s : State) (c bit q : Nat) : Quiet { s with freeIdx := s.freeIdx + 1 + 1 } (s.ctxNoteQ c bit q) :=
  (quiet_refl _).ctxEvent _ _ _ _ _

@[simp] theorem spl_ctxNoteQ (s : State) (c bit q : Nat) : (s.ctxNoteQ c bit q).spl = s.spl := (quiet_ctxNoteQ s c bit q).spl

/-! The byte stores -/

theorem SameBytes.trans {s t u : State} (h : SameBytes s t) (k : SameBytes t u) : SameBytes s u := by
  obtain ⟨hv, hf, hl, hh⟩ := h
  obtain ⟨kv, kf, kl, kh⟩ := k
  exact ⟨fun a => (kv a).trans (hv a), fun a => (kf a).trans (hf a), fun a => (kl a).trans (hl a), fun a => (kh a).trans (hh a)⟩

/-- States with the same stores. -/
theorem SameBytes.of_eq {s t : State} (hv : t.vstore = s.vstore := by rfl) (hf : t.fstore = s.fstore := by rfl)
    (hl : t.lp.mem = s.lp.mem := by rfl) (hh : t.host.mem = s.host.mem := by rfl) : SameBytes s t :=
  ⟨fun _ => by rw [hv], fun _ => by rw [hf], fun _ => by rw [hl], fun _ => by rw [hh]⟩

theorem sameBytes_ctxNoteQ (s : State) (c bit q : Nat) : SameBytes s (s.ctxNoteQ c bit q) := (quiet_ctxNoteQ s c bit q).sameBytes

/-! Spiles under writes -/

@[simp] theorem spile_setSpile_self (s : State) (phys : Nat) (x : Spile) : (s.setSpile phys x).spile phys = x := by
  unfold State.spile State.setSpile
  split
  · next hx => simp [mget_mdel_self, hx]
  · simp [mget_mput_self]

theorem spile_setSpile_ne (s : State) {phys p : Nat} (x : Spile) (h : p ≠ phys) : (s.setSpile phys x).spile p = s.spile p := by
  unfold State.spile State.setSpile
  split
  · simp [mget_mdel_ne _ h]
  · simp [mget_mput_ne _ _ h]

/-- A spile is read off the engines' part of the state. -/
theorem spile_congr {s t : State} (h : t.spl.spiles = s.spl.spiles) (p : Nat) : t.spile p = s.spile p := by
  rw [State.spile, State.spile, h]

/-! Posts (R137) -/

/-- With no waiter on the spile, none is released. -/
theorem releaseScan_none {phys : Nat} :
    ∀ {ws : List Waiter} (n : Nat) (b : Bool), (∀ x ∈ ws, x.phys ≠ phys) → releaseScan phys ws n b = (ws, n, [])
  | [], _, _, _ => rfl
  | x :: ws, n, b, h => by
    have ih := releaseScan_none n b fun y hy => h y (List.mem_cons_of_mem x hy)
    rw [releaseScan, if_pos (h x (List.mem_cons_self ..))]
    dsimp only
    rw [ih]

theorem releaseWaiters_none {s : State} {phys : Nat} (h : ∀ x ∈ s.spl.waiters, x.phys ≠ phys) :
    s.releaseWaiters phys = s.setSpile phys (s.spile phys) := by
  rw [State.releaseWaiters, releaseScan_none _ _ h]
  rfl

/-- A post at the home engine of a spile with no waiter: the count saturates, and a post past its end marks the overflow. -/
theorem enginePost_unwaited {s : State} {phys : Nat} (h : ∀ x ∈ s.spl.waiters, x.phys ≠ phys) (c v n : Nat) :
    ((s.enginePost c v phys n).spile phys =
        { s.spile phys with
          count := min ((s.spile phys).count + n) (2 ^ 32 - 1)
          ovf := (s.spile phys).ovf || decide (2 ^ 32 ≤ (s.spile phys).count + n) }) ∧
      (∀ p, p ≠ phys → (s.enginePost c v phys n).spile p = s.spile p) ∧ (s.enginePost c v phys n).spl.maps = s.spl.maps ∧
      SameBytes s (s.enginePost c v phys n) := by
  unfold State.enginePost
  extract_lets x past s1 s2
  have hspl : s2.spl = s1.spl := by
    simp only [s2]
    split
    · exact spl_ctxNoteQ ..
    · rfl
  have hbytes : SameBytes s1 s2 := by
    simp only [s2]
    split
    · exact sameBytes_ctxNoteQ ..
    · exact .of_eq
  have hspile : ∀ p, s2.spile p = s1.spile p := spile_congr (by rw [hspl])
  have hw : ∀ y ∈ s2.spl.waiters, y.phys ≠ phys := by
    rw [hspl]
    exact h
  rw [releaseWaiters_none hw]
  refine ⟨?_, fun p hp => ?_, ?_, ?_⟩
  · rw [spile_setSpile_self, hspile]
    exact spile_setSpile_self s phys _
  · rw [spile_setSpile_ne _ _ hp, hspile]
    exact spile_setSpile_ne s _ hp
  · change s2.spl.maps = _
    rw [hspl]
    rfl
  · exact (SameBytes.of_eq : SameBytes s s1).trans (hbytes.trans .of_eq)

end Sys2Proof
end

section
/-! PROOF. O16: host posts and SET on the spile page, SPILE_MAP and SPILE_UNMAP (R141, R142, R156, R158, R483). -/

namespace Sys2Proof

open Machine

section
variable {fn : Fin 32} {slot : Fin 64} {s : State} {c phys : Nat} {l : Bool}

/-! ## The spile page (R156, R158) -/

/-- A host post on a spile that is mapped and not poisoned is a post at its home engine (R156). -/
theorem exec_splPost {v : Word} (hc : s.slotCtx fn.val slot.val = some c) (hm : s.spMap c (bits v.toNat 16 9) = some (phys, l))
    (hp : s.poisoned phys = false) :
    exec (.splPost fn slot v) s =
      .next ((s.count (pgSPL c) 0x064 1).enginePost c (bits v.toNat 16 9) phys (v.toNat % 65536)) := by
  have hm' : (s.count (pgSPL c) 0x064 1).spMap c (bits v.toNat 16 9) = some (phys, l) := hm
  have hp' : (s.count (pgSPL c) 0x064 1).poisoned phys = false := hp
  change execSplPost fn slot v s = _
  simp only [execSplPost, hc, hm', hp', Bool.false_eq_true, if_false]
  rw [show bits v.toNat 0 16 = v.toNat % 65536 by simp [bits]]

/-- The state after SET of a spile: it takes the value, and its share of its group's poison goes (R155). -/
def splSetAt (s : State) (c phys : Nat) : State :=
  let val := s.rd (pgSPL c) F.SPL_VALUE
  let t := (s.count (pgSPL c) 0x064 1).setSpile phys { count := val, preset := val, ovf := false }
  { t with spl := { t.spl with poison := nput t.spl.poison (physGroup phys) (clrBit (nget t.spl.poison (physGroup phys)) (phys % 16)) } }

/-- SET is taken where no waiter is on the spile and its LOCAL group is in no step's use (R158). -/
theorem exec_splSet (hc : s.slotCtx fn.val slot.val = some c) (hm : s.spMap c (s.rd (pgSPL c) F.SPL_SEL) = some (phys, l))
    (hw : ∀ x ∈ s.spl.waiters, x.phys ≠ phys) (hl : l = true → s.localInUse c (s.rd (pgSPL c) F.SPL_SEL / 16) = false) :
    exec (.splSet fn slot) s = .next (splSetAt s c phys) := by
  have hm' : (s.count (pgSPL c) 0x064 1).spMap c (s.rd (pgSPL c) F.SPL_SEL) = some (phys, l) := hm
  have hw' : (s.spl.waiters.any fun x => x.phys == phys) = false := by simpa using hw
  have hl' : (l && (s.count (pgSPL c) 0x064 1).localInUse c (s.rd (pgSPL c) F.SPL_SEL / 16)) = false := by
    cases l with
    | false => rfl
    | true => exact hl rfl
  change execSplSet fn slot s = _
  simp only [execSplSet, hc, hm', State.count_spl, hw', hl', Bool.or_self, Bool.false_eq_true, if_false]
  rfl

theorem spile_splSetAt_self (s : State) (c phys : Nat) :
    (splSetAt s c phys).spile phys =
      { count := s.rd (pgSPL c) F.SPL_VALUE, preset := s.rd (pgSPL c) F.SPL_VALUE, ovf := false } :=
  spile_setSpile_self (s.count (pgSPL c) 0x064 1) phys _

theorem spile_splSetAt_ne (s : State) (c : Nat) {phys p : Nat} (h : p ≠ phys) : (splSetAt s c phys).spile p = s.spile p :=
  spile_setSpile_ne (s.count (pgSPL c) 0x064 1) _ h

end

/-! ## The map commands (R141, R142, R483) -/

section
variable {fn : Fin 32} {tag : Nat} {c : Fin 1024} {vg : Nat} {s : State}

/-- The maps after SPILE_MAP: the entry names group `g` of the die, whose spiles are dropped and so read 0. -/
def spileMapAt (s : State) (c vg die g : Nat) (l : Bool) : State :=
  { s with spl := { s.spl with
    maps := mput s.spl.maps (c * 32 + vg) { die := die, group := g, isLocal := l }
    spiles := mfilterOut (fun k => k / 16 == die * 256 + g) s.spl.spiles
    poison := mdel s.spl.poison (die * 256 + g) } }

/-- SPILE_MAP takes the free group it finds (R141). -/
theorem exec_spileMap {die g : Nat} (l : Bool) (hp : Performs s fn.val 0x18) (hd : die < 4) (hu : s.hasUnit (pgDIE die) = true)
    (ho : s.ctxOpen c.val = true) (hv : vg < 32) (hn : mget s.spl.maps (c.val * 32 + vg) = none) (hg : s.freeGroup die = some g) :
    exec (.spileMap fn tag c vg die l) s =
      .next ((spileMapAt (untake s fn.val tag 0x18) c.val vg die g l).respond fn.val tag stCOMPLETE 0) := by
  have hu' : (untake s fn.val tag 0x18).hasUnit (pgDIE die) = true := hu
  have ho' : (untake s fn.val tag 0x18).ctxOpen c.val = true := ho
  have hn' : mget (untake s fn.val tag 0x18).spl.maps (c.val * 32 + vg) = none := hn
  have hg' : (untake s fn.val tag 0x18).freeGroup die = some g := hg
  change execSpileMap fn tag c vg die l s = _
  rw [execSpileMap, hp.command]
  simp [hd, hu', ho', hn', hg', hv.not_ge, spileMapAt]

/-- The spiles of the group that a map entry has just been given read 0 (R141). -/
theorem spile_spileMapAt (s : State) (c vg die g : Nat) (l : Bool) {i : Nat} (hi : i < 16) :
    (spileMapAt s c vg die g l).spile (die * 4096 + g * 16 + i) = {} := by
  have hkey : ((die * 4096 + g * 16 + i) / 16 == die * 256 + g) = true := by
    rw [beq_iff_eq]
    omega
  rw [State.spile, spileMapAt, mget_mfilterOut, if_pos hkey]
  rfl

/-- The maps after SPILE_UNMAP of the entry `m`. -/
def spileUnmapAt (s : State) (c vg : Nat) (m : SpMap) : State :=
  { s with spl := { s.spl with maps := mdel s.spl.maps (c * 32 + vg), poison := mdel s.spl.poison (m.die * 256 + m.group) } }

/-- SPILE_UNMAP waits on the messages to the group, or completes (R142, R483). -/
theorem exec_spileUnmap {m : SpMap} (hp : Performs s fn.val 0x19) (hv : vg < 32) (hm : mget s.spl.maps (c.val * 32 + vg) = some m)
    (hw : ∀ x ∈ s.spl.waiters, physGroup x.phys ≠ m.die * 256 + m.group) (hn : s.groupNamed c.val vg = false) :
    exec (.spileUnmap fn tag c vg) s =
      let t := spileUnmapAt (untake s fn.val tag 0x19) c.val vg m
      .next (if s.spl.flight.any fun x => physGroup x.phys == m.die * 256 + m.group then
        t.hold fn.val tag (.drain 0 (m.die * 256 + m.group) 0) 0
      else t.respond fn.val tag stCOMPLETE 0) := by
  have hm' : mget (untake s fn.val tag 0x19).spl.maps (c.val * 32 + vg) = some m := hm
  have hn' : (untake s fn.val tag 0x19).groupNamed c.val vg = false := hn
  have hw' : ((untake s fn.val tag 0x19).spl.waiters.any fun x => physGroup x.phys == m.die * 256 + m.group) = false := by
    simpa [untake] using hw
  change execSpileUnmap fn tag c vg s = _
  rw [execSpileUnmap, hp.command]
  simp only [hm', hn', hw', hv.not_ge, Bool.false_eq_true, or_self, if_false]
  rfl

/-- SPILE_UNMAP: the entry goes at once, and the response waits for the messages on their way to the group (R142, R483). -/
theorem spileUnmap_removes {m : SpMap} (hp : Performs s fn.val 0x19) (hv : vg < 32) (hm : mget s.spl.maps (c.val * 32 + vg) = some m)
    (hw : ∀ x ∈ s.spl.waiters, physGroup x.phys ≠ m.die * 256 + m.group) (hn : s.groupNamed c.val vg = false) :
    ∃ t, exec (.spileUnmap fn tag c vg) s = .next t ∧ mget t.spl.maps (c.val * 32 + vg) = none ∧
      (∀ j, j ≠ c.val * 32 + vg → mget t.spl.maps j = mget s.spl.maps j) ∧ t.regs = s.regs ∧ SameBytes s t ∧
      ((∀ x ∈ s.spl.flight, physGroup x.phys ≠ m.die * 256 + m.group) → Answered s t fn.val tag 0 0) ∧
      ((∃ x ∈ s.spl.flight, physGroup x.phys = m.die * 256 + m.group) → t.host.resps = s.host.resps) := by
  have hgone := mget_mdel_self s.spl.maps (c.val * 32 + vg)
  have hkept : ∀ j, j ≠ c.val * 32 + vg → mget (mdel s.spl.maps (c.val * 32 + vg)) j = mget s.spl.maps j := fun _ => mget_mdel_ne _
  refine ⟨_, exec_spileUnmap hp hv hm hw hn, ?_⟩
  by_cases hf : (s.spl.flight.any fun x => physGroup x.phys == m.die * 256 + m.group) = true
  · rw [if_pos hf]
    refine ⟨hgone, hkept, rfl, .of_eq, fun hnone => ?_, fun _ => rfl⟩
    obtain ⟨x, hx, he⟩ := List.any_eq_true.mp hf
    exact absurd (beq_iff_eq.mp he) (hnone x hx)
  · rw [if_neg hf]
    refine ⟨hgone, hkept, rfl, .of_eq, fun _ => rfl, fun ⟨x, hx, he⟩ => ?_⟩
    exact absurd (List.any_eq_true.mpr ⟨x, hx, (beq_iff_eq.mpr he : (physGroup x.phys == _) = true)⟩) hf

end

/-! ## O16 -/

/-- Settles O16: the post is that of the spile's home engine, SET and the map commands rewrite their own entries alone. -/
theorem spilePageAndMaps : Obligations.SpilePageAndMaps := by
  refine ⟨⟨fun fn slot v s c phys l hc hm hp hw => ?_, fun fn slot s c phys l hc hm hw hl => ?_⟩,
    fun fn tag c vg die g l s hp hd hu ho hv hn hg => ?_, fun _ _ _ _ _ _ hp hv hm hw hn => spileUnmap_removes hp hv hm hw hn⟩
  · obtain ⟨hself, hother, hmaps, hbytes⟩ :=
      enginePost_unwaited (s := s.count (pgSPL c) 0x064 1) hw c (bits v.toNat 16 9) (v.toNat % 65536)
    exact ⟨_, exec_splPost hc hm hp, by rw [hself]; rfl, hother, hmaps, hbytes⟩
  · exact ⟨_, exec_splSet hc hm hw hl, spile_splSetAt_self s c phys, fun _ => spile_splSetAt_ne s c, rfl, .of_eq⟩
  · exact ⟨_, exec_spileMap l hp hd hu ho hv hn hg, rfl, mget_mput_self .., fun _ => mget_mput_ne _ _,
      fun _ => spile_spileMapAt (untake s fn.val tag 0x18) c.val vg die g l, rfl, .of_eq⟩

end Sys2Proof
end

section
/-! PROOF. O17 and O20: the byte stores and the register and counter maps are in canonical form at reset, and every step keeps them so. -/

namespace Sys2Proof

open Machine

/-- Settles O17: at reset nothing is listed. -/
theorem resetCanonical : Obligations.ResetCanonical := by
  unfold Obligations.ResetCanonical
  exact ⟨wf_nil, wf_nil, wf_nil, wf_nil, rfl, rfl⟩

/-- Canonical form is a matter of the four byte stores and the two maps alone. -/
theorem Canonical.congr {s t : State} (h : Canonical s) (hv : t.vstore = s.vstore := by rfl) (hf : t.fstore = s.fstore := by rfl)
    (hl : t.lp.mem = s.lp.mem := by rfl) (hh : t.host.mem = s.host.mem := by rfl) (hr : t.regs = s.regs := by rfl)
    (hc : t.ctrs = s.ctrs := by rfl) : Canonical t :=
  ⟨hv ▸ h.vstore, hf ▸ h.fstore, hl ▸ h.mem, hh ▸ h.host, hr ▸ h.regs, hc ▸ h.ctrs⟩

theorem canonical_exec {s t : State} (h : Canonical s) {c : Instr} (he : exec c s = .next t) : Canonical t :=
  ((exec_keeps (Keeps.refl s) c).keeps t he).canon h

/-- Settles O20: a command by the laws of the operations (`exec_keeps`), and a clock moves the time base alone. -/
theorem stepKeepsCanonical : Obligations.StepKeepsCanonical := by
  unfold Obligations.StepKeepsCanonical
  intro s t hcanon hstep
  cases hp : s.pending with
  | nil =>
    rw [steps_clock hstep hp]
    exact hcanon.congr
  | cons c rest =>
    have hexec : exec c { s with pending := rest } = .next t := (step_command hp).symm.trans hstep
    exact canonical_exec (s := { s with pending := rest }) hcanon.congr hexec

end Sys2Proof
end

section
/-! PROOF. O30: the Tap arbiter (R181–R187). -/

namespace Sys2Proof

open Machine

/-! ## Settling a port -/

/-- A port that its burst holds stays as it is, however many requests wait. -/
theorem tapSettle_held {s : State} {fp port : Nat} (h : portFree (s.floor fp) port = none) (n : Nat) : s.tapSettle fp port n = s := by
  cases n with
  | zero => rfl
  | succ n => simp only [State.tapSettle, h]

/-- With nothing queued there is nothing to decide on any port. -/
theorem tapSettle_ports_idle {s : State} {fp : Nat} (h : (s.floor fp).tapQ = []) (ports : List Nat) :
    ports.foldl (fun u p => u.tapSettle fp p (u.floor fp).tapQ.length) s = s := by
  induction ports with
  | nil => rfl
  | cons p ports ih => rwa [List.foldl_cons, h]

/-! ## Grants (R182) -/

section
variable (s : State) (fp clk : Nat) (r : TapReq)

theorem floor_tapGrant : (s.tapGrant fp clk r).floor fp = { s.floor fp with
    bursts := mput (s.floor fp).bursts r.port (r, clk), tapQ := (s.floor fp).tapQ.erase r,
    granted := nput (s.floor fp).granted (r.port * 16 + r.req) (clk + 1) } := by
  unfold State.tapGrant
  split <;> exact State.floor_setFloor_self s fp _

theorem ctr_tapGrant_grants : (s.tapGrant fp clk r).ctr fp 0x064 = s.ctr fp 0x064 + 1 := by
  unfold State.tapGrant
  split
  · exact (State.ctr_count_ne _ _ (by omega)).trans (State.ctr_count_self _ _ _ _)
  · exact State.ctr_count_self _ _ _ _

theorem ctr_tapGrant_class0 : (s.tapGrant fp clk r).ctr fp 0x078 = s.ctr fp 0x078 + boolNat r.class0 := by
  have hgrants : ∀ t : State, (t.count fp 0x064 1).ctr fp 0x078 = t.ctr fp 0x078 := fun t => State.ctr_count_ne t 1 (by omega)
  unfold State.tapGrant
  cases r.class0 with
  | false => exact hgrants _
  | true => exact (State.ctr_count_self _ _ _ _).trans (congrArg (· + 1) (hgrants _))

/-- A grant changes the floor's Tap and counters alone. -/
theorem tapGrant_fields : ∃ m c, s.tapGrant fp clk r = { s with floors := m, ctrs := c } := by
  unfold State.tapGrant
  split <;> exact ⟨_, _, rfl⟩

end

/-! ## Requests (R181, R183) -/

/-- The state with a request at the end of the floor's queue. -/
def tapQueued (s : State) (fp : Nat) (r : TapReq) : State := s.setFloor fp { s.floor fp with tapQ := (s.floor fp).tapQ ++ [r] }

theorem floor_tapQueued (s : State) (fp : Nat) (r : TapReq) : ((tapQueued s fp r).floor fp).tapQ = (s.floor fp).tapQ ++ [r] ∧
    ((tapQueued s fp r).floor fp).bursts = (s.floor fp).bursts := by
  rw [tapQueued, State.floor_setFloor_self]
  exact ⟨rfl, rfl⟩

section
variable {f : FloorId} {r : TapReq} {s : State}
variable (hreq : r.req < 11) (hport : r.port < 4) (hlo : 1 ≤ r.beats) (hhi : r.beats ≤ 16) (hopen : s.floorOpen (floorPgOf f) r.ctx = true)
  (hfence : nbit (s.rd (floorPgOf f) F.FLOOR_TAP_FENCED) r.req = false)

include hreq hport hlo hhi hopen in
/-- A well-formed request of a context that may use the floor is served. -/
theorem tapRequest_served :
    ¬(11 ≤ r.req ∨ 4 ≤ r.port ∨ r.beats = 0 ∨ 16 < r.beats ∨ (r.req ≠ 8 ∧ s.floorOpen (floorPgOf f) r.ctx = false)) := by
  rw [hopen]
  simp only [Bool.true_eq_false, and_false, or_false]
  omega

include hreq hport hlo hhi hopen hfence

/-- A request to a free port wins it at once where nothing is queued. -/
theorem exec_tapRequest_granted (hq : (s.floor (floorPgOf f)).tapQ = [])
    (hfree : ∃ clk, portFree (s.floor (floorPgOf f)) r.port = some clk ∧ clk ≤ s.now) :
    exec (.tapRequest f r) s = .next (s.tapGrant (floorPgOf f) s.now r) := by
  obtain ⟨clk, hclk, hle⟩ := hfree
  change execTapRequest f r s = _
  rw [execTapRequest, if_neg (tapRequest_served hreq hport hlo hhi hopen), hfence, hq]
  simp [State.tapSettle, contenders, hq, hclk, hle]

/-- A request to a port that a burst holds is queued; behind an entry of its own requester it does not contend, and is not counted as waiting. -/
theorem exec_tapRequest_queued (hheld : portFree (s.floor (floorPgOf f)) r.port = none)
    (hroom : ((s.floor (floorPgOf f)).tapQ.filter fun x => x.req == r.req).length < 2) :
    exec (.tapRequest f r) s = .next (
      if ((s.floor (floorPgOf f)).tapQ.filter fun x => x.req == r.req).any fun x => x.port == r.port then tapQueued s (floorPgOf f) r
      else (tapQueued s (floorPgOf f) r).count (floorPgOf f) 0x068 1) := by
  change execTapRequest f r s = _
  rw [execTapRequest, if_neg (tapRequest_served hreq hport hlo hhi hopen), hfence]
  simp only [tapSettle_held hheld, hheld, hroom, Bool.false_and, Bool.false_eq_true, if_false, if_true]
  rfl

/-- A requester with two entries queued stalls. -/
theorem exec_tapRequest_stalled (hheld : portFree (s.floor (floorPgOf f)) r.port = none)
    (hfull : 2 ≤ ((s.floor (floorPgOf f)).tapQ.filter fun x => x.req == r.req).length) :
    exec (.tapRequest f r) s = .next (s.count (floorPgOf f) 0x06C 1) := by
  change execTapRequest f r s = _
  rw [execTapRequest, if_neg (tapRequest_served hreq hport hlo hhi hopen), hfence]
  simp only [tapSettle_held hheld, hheld, hfull.not_gt, Bool.false_and, Bool.false_eq_true, if_false]

theorem tapRequest_granted (hq : (s.floor (floorPgOf f)).tapQ = [])
    (hfree : ∃ clk, portFree (s.floor (floorPgOf f)) r.port = some clk ∧ clk ≤ s.now) :
    ∃ t, exec (.tapRequest f r) s = .next t ∧ mget (t.floor (floorPgOf f)).bursts r.port = some (r, s.now) ∧ (t.floor (floorPgOf f)).tapQ = [] ∧
      t.ctr (floorPgOf f) 0x064 = s.ctr (floorPgOf f) 0x064 + 1 ∧
      t.ctr (floorPgOf f) 0x078 = s.ctr (floorPgOf f) 0x078 + boolNat r.class0 ∧ t.regs = s.regs ∧ SameBytes s t := by
  refine ⟨_, exec_tapRequest_granted hreq hport hlo hhi hopen hfence hq hfree, ?_, ?_, ctr_tapGrant_grants .., ctr_tapGrant_class0 .., ?_⟩
  · rw [floor_tapGrant]
    exact mget_mput_self ..
  · rw [floor_tapGrant, hq]
    rfl
  · obtain ⟨m, c, h⟩ := tapGrant_fields s (floorPgOf f) s.now r
    rw [h]
    exact ⟨rfl, .of_eq⟩

theorem tapRequest_queued (hheld : portFree (s.floor (floorPgOf f)) r.port = none)
    (hroom : ((s.floor (floorPgOf f)).tapQ.filter fun x => x.req == r.req).length < 2) :
    ∃ t, exec (.tapRequest f r) s = .next t ∧ (t.floor (floorPgOf f)).tapQ = (s.floor (floorPgOf f)).tapQ ++ [r] ∧
      (t.floor (floorPgOf f)).bursts = (s.floor (floorPgOf f)).bursts ∧ t.regs = s.regs ∧ SameBytes s t := by
  obtain ⟨hqueue, hbursts⟩ := floor_tapQueued s (floorPgOf f) r
  refine ⟨_, exec_tapRequest_queued hreq hport hlo hhi hopen hfence hheld hroom, ?_⟩
  split <;> exact ⟨hqueue, hbursts, rfl, .of_eq⟩

theorem tapRequest_stalled (hheld : portFree (s.floor (floorPgOf f)) r.port = none)
    (hfull : 2 ≤ ((s.floor (floorPgOf f)).tapQ.filter fun x => x.req == r.req).length) :
    ∃ t, exec (.tapRequest f r) s = .next t ∧ t.floors = s.floors ∧ t.ctr (floorPgOf f) 0x06C = s.ctr (floorPgOf f) 0x06C + 1 ∧
      t.regs = s.regs ∧ SameBytes s t :=
  ⟨_, exec_tapRequest_stalled hreq hport hlo hhi hopen hfence hheld hfull, rfl, State.ctr_count_self .., rfl, .of_eq⟩

end

/-! ## The watchdog (R186, R187) -/

theorem floorPgOf_lt (f : FloorId) : floorPgOf f < 0x5000 := by
  unfold floorPgOf
  simp only [pgFLOOR, pgDIE]
  omega

/-- The counter of fenced requesters is not that of the messages. -/
theorem tapCtr_ne_msgCtr (fp : Nat) : fp * 4096 + 0x070 ≠ msgCtr := by
  simp only [msgCtr]
  omega

/-- A counter below the event pages of the contexts is not that of their lost records. -/
theorem ctr_ne_ctxCtr {pg off : Nat} (hlt : pg * 4096 + off < 0x20000000) (c : Nat) : pg * 4096 + off ≠ pgCEV c * 4096 + 0x04C := by
  simp only [pgCEV]
  omega

/-- A counter that lies below the event pages of the contexts, but for that of the messages, is no part of a context event. -/
theorem ctr_ctxEvent (s : State) (c bit st code q : Nat) {pg off : Nat} (hlt : pg * 4096 + off < 0x20000000)
    (hm : pg * 4096 + off ≠ msgCtr) : (s.ctxEvent c bit st code q).ctr pg off = s.ctr pg off := by
  have hne := ctr_ne_ctxCtr hlt c
  unfold State.ctxEvent
  extract_lets pgc wrI i
  split
  · rw [State.ctr_count_ne _ _ hne, ctr_raise _ _ _ hm, ctr_raise _ _ _ hm]
  · rw [ctr_raise _ _ _ hm]
    simp only [State.ctr_wri]

/-- A context event of free status, code and qualifier: the counter of free values goes on by three. -/
theorem quiet_ctxNote (s : State) (c bit : Nat) : Quiet { s with freeIdx := s.freeIdx + 1 + 1 + 1 } (s.ctxNote c bit) :=
  (quiet_refl _).ctxEvent _ _ _ _ _

theorem ctr_ctxNote (s : State) (c bit : Nat) {pg off : Nat} (hlt : pg * 4096 + off < 0x20000000) (hm : pg * 4096 + off ≠ msgCtr) :
    (s.ctxNote c bit).ctr pg off = s.ctr pg off := ctr_ctxEvent _ _ _ _ _ _ hlt hm

theorem tapFenced_ne_evtRaw (fp pg : Nat) : fkey fp F.FLOOR_TAP_FENCED 0 ≠ fkey pg F.EVT_RAW 0 := by
  simp only [fkey, F.FLOOR_TAP_FENCED, F.EVT_RAW]
  omega

/-- The failure of a requester touches the steps alone. -/
theorem failRequester_steps (s : State) (fp req : Nat) : ∃ st, s.failRequester fp req = { s with steps := st } := by
  unfold State.failRequester
  split
  · split
    · split <;> exact ⟨_, rfl⟩
    · exact ⟨_, rfl⟩
  · exact ⟨_, rfl⟩

/-- The state with the burst of a port ended and the entries of its holder dropped. -/
def burstDropped (s : State) (fp port : Nat) (r : TapReq) : State :=
  s.setFloor fp { s.floor fp with bursts := mdel (s.floor fp).bursts port, tapQ := (s.floor fp).tapQ.filter fun x => x.req != r.req }

/-- The state with the holder of the ended burst fenced, before what else befalls its kind of requester. -/
def holderFenced (s : State) (fp port : Nat) (r : TapReq) : State :=
  (((((burstDropped s fp port r).failRequester fp r.req).ctxNote r.ctx 8).wr fp F.FLOOR_TAP_FENCED
    (setBit (s.rd fp F.FLOOR_TAP_FENCED) r.req)).count fp 0x070 1).raise fp 7

section
variable (s : State) (fp port : Nat) (r : TapReq)

/-- Beside the Tap, the steps and the counter of free values, nothing but registers, counters and messages changes. -/
theorem quiet_holderFenced :
    ∃ st n, Quiet { burstDropped s fp port r with steps := st, freeIdx := n } (holderFenced s fp port r) := by
  obtain ⟨st, h⟩ := failRequester_steps (burstDropped s fp port r) fp r.req
  refine ⟨st, s.freeIdx + 1 + 1 + 1, ?_⟩
  rw [holderFenced, h]
  exact (((quiet_ctxNote _ _ _).wri _ _ _ _).count _ _ _).raise _ _

theorem floor_burstDropped : (burstDropped s fp port r).floor fp =
    { s.floor fp with bursts := mdel (s.floor fp).bursts port, tapQ := (s.floor fp).tapQ.filter fun x => x.req != r.req } :=
  State.floor_setFloor_self ..

theorem floor_holderFenced : (holderFenced s fp port r).floor fp = (burstDropped s fp port r).floor fp := by
  obtain ⟨st, n, h⟩ := quiet_holderFenced s fp port r
  rw [State.floor, h.floors]
  rfl

theorem bist_holderFenced : (holderFenced s fp port r).bist = s.bist := by
  obtain ⟨st, n, h⟩ := quiet_holderFenced s fp port r
  exact h.bist

theorem ctr_holderFenced (f : FloorId) :
    (holderFenced s (floorPgOf f) port r).ctr (floorPgOf f) 0x070 = s.ctr (floorPgOf f) 0x070 + 1 := by
  have hlt := floorPgOf_lt f
  have hne := tapCtr_ne_msgCtr (floorPgOf f)
  obtain ⟨st, h⟩ := failRequester_steps (burstDropped s (floorPgOf f) port r) (floorPgOf f) r.req
  rw [holderFenced, h, ctr_raise _ _ _ hne, State.ctr_count_self, State.ctr_wri, ctr_ctxNote _ _ _ (by omega) hne]
  rfl

theorem fenced_holderFenced (hreq : r.req < 11) :
    nbit ((holderFenced s fp port r).rd fp F.FLOOR_TAP_FENCED) r.req = true := by
  have hset : nbit (setBit (s.rd fp F.FLOOR_TAP_FENCED) r.req % 2 ^ 11) r.req = true := by
    rw [nbit_mod _ _ _ hreq, setBit, nbit_lor]
    simp
  rw [State.rd, holderFenced, State.rdi_raise_ne _ (tapFenced_ne_evtRaw fp fp), State.rdi_count, State.rdi_wri_self]
  exact hset

end

/-- From `s` to `t` the port's burst has ended and its holder is fenced, which is counted and told (R186). -/
structure BurstEnded (fp port : Nat) (r : TapReq) (s t : State) : Prop where
  port : mget (t.floor fp).bursts port = none
  queue : ∀ x ∈ (t.floor fp).tapQ, x.req ≠ r.req
  fenced : nbit (t.rd fp F.FLOOR_TAP_FENCED) r.req = true
  counted : t.ctr fp 0x070 = s.ctr fp 0x070 + 1
  raised : Raised t fp 7
  bytes : SameBytes s t

section
variable {s t : State} {fp port : Nat} {r : TapReq}

theorem burstEnded_holderFenced (s : State) (f : FloorId) (port : Nat) {r : TapReq} (hreq : r.req < 11) :
    BurstEnded (floorPgOf f) port r s (holderFenced s (floorPgOf f) port r) where
  port := by
    rw [floor_holderFenced, floor_burstDropped]
    exact mget_mdel_self ..
  queue := by
    rw [floor_holderFenced, floor_burstDropped]
    intro x hx
    simpa using (List.mem_filter.mp hx).2
  fenced := fenced_holderFenced s _ port r hreq
  counted := ctr_holderFenced s port r f
  raised := raised_raise _ _ _ (by decide)
  bytes := by
    obtain ⟨st, n, h⟩ := quiet_holderFenced s (floorPgOf f) port r
    exact SameBytes.trans .of_eq h.sameBytes

/-- A change of a floor that leaves its Tap alone leaves the burst ended. -/
theorem BurstEnded.setFloor (h : BurstEnded fp port r s t) (pg : Nat) (x : FloorSt) (hb : x.bursts = (t.floor pg).bursts)
    (hq : x.tapQ = (t.floor pg).tapQ) : BurstEnded fp port r s (t.setFloor pg x) := by
  have hfl : ((t.setFloor pg x).floor fp).bursts = (t.floor fp).bursts ∧ ((t.setFloor pg x).floor fp).tapQ = (t.floor fp).tapQ := by
    by_cases e : fp = pg
    · subst e
      rw [State.floor_setFloor_self]
      exact ⟨hb, hq⟩
    · rw [State.floor_setFloor_ne t x e]
      exact ⟨rfl, rfl⟩
  obtain ⟨hbursts, hqueue⟩ := hfl
  exact ⟨hbursts ▸ h.port, hqueue ▸ h.queue, h.fenced, h.counted, h.raised, h.bytes.trans .of_eq⟩

/-- Another counter moves. -/
theorem BurstEnded.count (h : BurstEnded fp port r s t) {pg off : Nat} (n : Nat) (hne : fp * 4096 + 0x070 ≠ pg * 4096 + off) :
    BurstEnded fp port r s (t.count pg off n) :=
  ⟨h.port, h.queue, h.fenced, (State.ctr_count_ne t n hne).trans h.counted, h.raised, h.bytes.trans .of_eq⟩

/-- The self-test has no part in it. -/
theorem BurstEnded.setBist (h : BurstEnded fp port r s t) (b : BistSt) : BurstEnded fp port r s { t with bist := b } :=
  ⟨h.port, h.queue, h.fenced, h.counted, h.raised, h.bytes.trans .of_eq⟩

/-- A further event is raised. -/
theorem BurstEnded.raise (h : BurstEnded fp port r s t) (pg bit : Nat) : BurstEnded fp port r s (t.raise pg bit) := by
  have hq := (quiet_refl t).raise pg bit
  have hfl : (t.raise pg bit).floor fp = t.floor fp := by rw [State.floor, hq.floors]; rfl
  refine ⟨by rw [hfl]; exact h.port, by rw [hfl]; exact h.queue, ?_, (ctr_raise t pg bit (tapCtr_ne_msgCtr fp)).trans h.counted,
    raised_mono pg bit (by decide) h.raised, h.bytes.trans hq.sameBytes⟩
  rw [State.rd, State.rdi_raise_ne t (tapFenced_ne_evtRaw fp pg)]
  exact h.fenced

/-- An early rotation of a vat, the fenced one's or another, leaves the Tap alone. -/
theorem BurstEnded.earlyRot (h : BurstEnded fp port r s t) (pg : Nat) : BurstEnded fp port r s (t.earlyRot pg) := by
  unfold State.earlyRot
  exact .raise (.count (.setFloor h _ _ (by rfl) (by rfl)) _ (by omega)) _ _

end

section
variable {f : FloorId} {port : Fin 4} {s : State} {r : TapReq} {clk : Nat}
variable (hb : mget (s.floor (floorPgOf f)).bursts port.val = some (r, clk)) (hstuck : r.stuck = true)
  (hdue : clk + s.rd (floorPgOf f) F.FLOOR_TAP_WDOG ≤ s.now)
include hb hstuck hdue

/-- A fenced vat is rotated out early, where a vat carries the number. -/
theorem exec_tapWdog_vat (hreq : r.req < 8) :
    exec (.tapWdog f port) s = .next (holderFenced s (floorPgOf f) port.val r) ∨
      ∃ pg, exec (.tapWdog f port) s = .next ((holderFenced s (floorPgOf f) port.val r).earlyRot pg) := by
  change execTapWdog f port s = _ ∨ ∃ pg, execTapWdog f port s = _
  simp only [execTapWdog, hb, hstuck, hdue, hreq, and_self, if_true]
  split
  · next pg _ => exact .inr ⟨pg, rfl⟩
  · exact .inl rfl

/-- The fill of a fenced maintenance requester is abandoned. -/
theorem exec_tapWdog_maintenance (hreq : r.req = 8) :
    exec (.tapWdog f port) s = .next ((holderFenced s (floorPgOf f) port.val r).setFloor (floorPgOf f)
      { (holderFenced s (floorPgOf f) port.val r).floor (floorPgOf f) with fills := [] }) := by
  change execTapWdog f port s = _
  simp only [execTapWdog, hb, hstuck, hdue, and_self, if_true]
  rw [if_neg (by omega), if_pos hreq]
  rfl

/-- The floor of a fenced fabric requester is due for its test. -/
theorem exec_tapWdog_fabric (hreq : 8 < r.req) :
    exec (.tapWdog f port) s = .next { holderFenced s (floorPgOf f) port.val r with
      bist := { s.bist with due := s.bist.due ++ [.floor f] } } := by
  rw [← bist_holderFenced s (floorPgOf f) port.val r]
  change execTapWdog f port s = _
  simp only [execTapWdog, hb, hstuck, hdue, and_self, if_true]
  rw [if_neg (by omega), if_neg (by omega)]
  rfl

theorem tapWdog_fences (hreq : r.req < 11) :
    ∃ t, exec (.tapWdog f port) s = .next t ∧ BurstEnded (floorPgOf f) port.val r s t ∧ (8 < r.req → t.bist.due = s.bist.due ++ [.floor f]) := by
  have hended := burstEnded_holderFenced s f port.val hreq
  obtain hvat | hmaint | hfabric : r.req < 8 ∨ r.req = 8 ∨ 8 < r.req := by omega
  · rcases exec_tapWdog_vat hb hstuck hdue hvat with hexec | ⟨pg, hexec⟩
    · exact ⟨_, hexec, hended, fun h => absurd h (by omega)⟩
    · exact ⟨_, hexec, hended.earlyRot pg, fun h => absurd h (by omega)⟩
  · exact ⟨_, exec_tapWdog_maintenance hb hstuck hdue hmaint, hended.setFloor _ _ rfl rfl, fun h => absurd h (by omega)⟩
  · exact ⟨_, exec_tapWdog_fabric hb hstuck hdue hfabric, hended.setBist _, fun _ => rfl⟩

end

/-! ## Priorities (R184) -/

section
variable {fn : Fin 32} {f : FloorId} {s : State} (v : Word)
variable (hmay : s.mayWriteBlock (floorPgOf f) fn.val = true) (hq : (s.floor (floorPgOf f)).tapQ = [])
include hmay hq

theorem exec_tapPrioWrite_first : exec (.tapPrioWrite fn f false v) s = .next (s.wr (floorPgOf f) F.FLOOR_TAP_PRIO0 v.toNat) := by
  change execTapPrioWrite fn f false v s = _
  simp only [execTapPrioWrite, blockAction_allowed _ _ hmay, tapSettle_ports_idle hq, Bool.false_eq_true, if_false]

/-- The second word: the three fields of the fabric ports and of maintenance. -/
theorem exec_tapPrioWrite_second : exec (.tapPrioWrite fn f true v) s = .next
    (((s.wr (floorPgOf f) F.FLOOR_TAP_PRIO1_FAB_OUT (bits v.toNat 8 4)).wr (floorPgOf f) F.FLOOR_TAP_PRIO1_FAB_IN (bits v.toNat 4 4)).wr
      (floorPgOf f) F.FLOOR_TAP_PRIO1_MAINT (bits v.toNat 0 4)) := by
  change execTapPrioWrite fn f true v s = _
  simp only [execTapPrioWrite, blockAction_allowed _ _ hmay, tapSettle_ports_idle hq, if_true]

theorem tapPrioWrite_first :
    ∃ t, exec (.tapPrioWrite fn f false v) s = .next t ∧ t.rd (floorPgOf f) F.FLOOR_TAP_PRIO0 = v.toNat ∧
      RegsBut s t [fkey (floorPgOf f) F.FLOOR_TAP_PRIO0 0] ∧ t = { s with regs := t.regs } :=
  ⟨_, exec_tapPrioWrite_first v hmay hq, (State.rdi_wri_self ..).trans (Nat.mod_eq_of_lt v.isLt), (regsBut_refl s).wr _ _ _, rfl⟩

theorem tapPrioWrite_second :
    ∃ t, exec (.tapPrioWrite fn f true v) s = .next t ∧ t.rd (floorPgOf f) F.FLOOR_TAP_PRIO1_MAINT = v.toNat % 16 ∧
      t.rd (floorPgOf f) F.FLOOR_TAP_PRIO1_FAB_IN = v.toNat / 16 % 16 ∧ t.rd (floorPgOf f) F.FLOOR_TAP_PRIO1_FAB_OUT = v.toNat / 256 % 16 ∧
      t = { s with regs := t.regs } := by
  have hbits : ∀ lo, bits v.toNat lo 4 % 2 ^ 4 = v.toNat / 2 ^ lo % 16 := fun lo => Nat.mod_mod _ _
  refine ⟨_, exec_tapPrioWrite_second v hmay hq, ?_, ?_, ?_, rfl⟩
  · rw [State.rd, State.rdi_wri_self]
    exact (hbits 0).trans (by simp)
  · rw [State.rd, State.rdi_wri_ne _ _ (fkey_ne_on_page _ (by decide)), State.rdi_wri_self]
    exact hbits 4
  · rw [State.rd, State.rdi_wri_ne _ _ (fkey_ne_on_page _ (by decide)), State.rdi_wri_ne _ _ (fkey_ne_on_page _ (by decide)), State.rdi_wri_self]
    exact hbits 8

end

/-- Settles O30: the three outcomes of a request, the watchdog, and the two words of priorities. -/
theorem tapArbiter : Obligations.TapArbiter := by
  unfold Obligations.TapArbiter
  refine ⟨fun f r s fp hfp hreq hport hlo hhi hopen hfence => ?_, fun f port s fp r clk hfp hb hstuck hreq hdue => ?_,
    fun fn f v s fp hfp hmay hq => ?_⟩ <;> subst hfp
  · exact ⟨tapRequest_granted hreq hport hlo hhi hopen hfence, tapRequest_queued hreq hport hlo hhi hopen hfence,
      tapRequest_stalled hreq hport hlo hhi hopen hfence⟩
  · obtain ⟨t, hexec, h, htest⟩ := tapWdog_fences hb hstuck hdue hreq
    exact ⟨t, hexec, h.port, h.queue, h.fenced, h.counted, h.raised, h.bytes, htest⟩
  · exact ⟨tapPrioWrite_first v hmay hq, tapPrioWrite_second v hmay hq⟩

end Sys2Proof
end

section
/-! SUPPORT. Main memory: what updated maps and byte ranges read, what accounting leaves alone, and how a line and a translated access come out. -/

namespace Sys2Proof

-- As in the files that define `Onward`: the defaults of its arguments are read by proofs in turn.
set_option Elab.async false

open Machine

/-! ## Maps and byte stores -/

section
variable {α : Type}

theorem mget_mmod_self (m : AMap α) (k : Nat) (g : α → α) : mget (mmod m k g) k = (mget m k).map g := by
  unfold mmod
  split
  · next v h => rw [mget_mput_self, h]; rfl
  · next h => rw [h]; rfl

theorem mget_mmod_ne (m : AMap α) {k j : Nat} (g : α → α) (h : j ≠ k) : mget (mmod m k g) j = mget m j := by
  unfold mmod
  split
  · exact mget_mput_ne m _ h
  · rfl

theorem nget_nput_self (m : AMap Nat) (k v : Nat) : nget (nput m k v) k = v := ngetD_nputD_self m 0 k v

end

theorem bget_mfilterOut (p : Nat → Bool) (m : AMap Byte) (a : Nat) : bget (mfilterOut p m) a = if p a = true then 0 else bget m a := by
  unfold bget
  rw [mget_mfilterOut]
  split <;> rfl

theorem bget_bputList (m : AMap Byte) (a x : Nat) (bs : List Byte) :
    bget (bputList m a bs) x = if a ≤ x ∧ x < a + bs.length then bs.getD (x - a) 0 else bget m x := by
  induction bs generalizing m a with
  | nil => rw [if_neg (by simp only [List.length_nil]; omega)]; rfl
  | cons b bs ih =>
    rw [bputList, ih, List.length_cons]
    obtain hlt | rfl | hgt := Nat.lt_trichotomy x a
    · rw [if_neg (by omega), if_neg (by omega), bget_bput_ne _ _ (by omega)]
    · rw [if_neg (by omega), if_pos (by omega), bget_bput_self, Nat.sub_self]
      rfl
    · rw [show x - a = x - (a + 1) + 1 by omega, List.getD_cons_succ, bget_bput_ne _ _ (by omega)]
      exact if_congr (by omega) rfl rfl

/-! ## What changes only the accounting -/

/-- Nothing changes but counters, the caches of the main memory and the counter of free values. -/
def Tallied (s t : State) : Prop :=
  t = { s with ctrs := t.ctrs, freeIdx := t.freeIdx, lp := { s.lp with lab := t.lp.lab, crcc := t.lp.crcc } }

section
variable {s t u : State}

theorem tallied_refl (s : State) : Tallied s s := rfl

theorem Tallied.trans (h : Tallied s t) (k : Tallied t u) : Tallied s u := Eq.trans k (by rw [h])

theorem Tallied.count (h : Tallied s t) (pg off n : Nat) : Tallied s (t.count pg off n) := h.trans rfl

theorem Tallied.frame (h : Tallied s t) : t.frame = s.frame := by rw [h]; rfl
theorem Tallied.keyIn (h : Tallied s t) : t.keyIn = s.keyIn := by rw [h]; rfl
theorem Tallied.leafOf (h : Tallied s t) : t.leafOf = s.leafOf := by rw [h]; rfl
theorem Tallied.populated (h : Tallied s t) : t.populated = s.populated := by rw [h]; rfl
theorem Tallied.frameGone (h : Tallied s t) : t.frameGone = s.frameGone := by rw [h]; rfl
theorem Tallied.ownsFrame (h : Tallied s t) : t.ownsFrame = s.ownsFrame := by rw [h]; rfl
theorem Tallied.bigFrame (h : Tallied s t) : t.bigFrame = s.bigFrame := by rw [h]; rfl
theorem Tallied.granule (h : Tallied s t) : t.granule = s.granule := by rw [h]; rfl
theorem Tallied.kv (h : Tallied s t) : t.kv = s.kv := by rw [h]
theorem Tallied.lineText (h : Tallied s t) : t.lineText = s.lineText := by rw [h]; rfl
theorem Tallied.bad (h : Tallied s t) : t.lp.bad = s.lp.bad := by rw [h]
theorem Tallied.mem (h : Tallied s t) : t.lp.mem = s.lp.mem := by rw [h]
theorem Tallied.recov (h : Tallied s t) : t.lp.recov = s.lp.recov := by rw [h]
theorem Tallied.regs (h : Tallied s t) : t.regs = s.regs := by rw [h]
theorem Tallied.steps (h : Tallied s t) : t.steps = s.steps := by rw [h]
theorem Tallied.vstore (h : Tallied s t) : t.vstore = s.vstore := by rw [h]
theorem Tallied.fstore (h : Tallied s t) : t.fstore = s.fstore := by rw [h]
theorem Tallied.sameBytes (h : Tallied s t) : SameBytes s t := by rw [h]; exact .of_eq

theorem Tallied.window (h : Tallied s t) (c va : Nat) (write host : Bool) (len : Nat) :
    t.window c va write host len = s.window c va write host len := by
  unfold State.window
  rw [h.granule, h.kv, h.frameGone, h.ownsFrame, h.frame, h.keyIn]

/-- Translation looks at no counter and no cache. -/
theorem Tallied.xlate (h : Tallied s t) (c va : Nat) (write host : Bool) (len : Nat) :
    t.xlate c va write host len = s.xlate c va write host len := by
  unfold State.xlate
  rw [h.window, h.leafOf, h.populated, h.frameGone, h.ownsFrame, h.bigFrame, h.frame, h.keyIn]

end

/-- The look-aside buffer of a die (R205). -/
theorem tallied_labTouch (s : State) (n key : Nat) (big : Bool) : Tallied s (s.labTouch n key big) := by
  unfold State.labTouch
  extract_lets xp k s1 mine
  split
  · split <;> rfl
  · split <;> rfl

/-- The CRC cache of a group, where the cache reads good (R194). -/
theorem tallied_crcTouch (s : State) (l : Nat) (dirty : Bool) : Tallied s (s.crcTouch l dirty false) := by
  unfold State.crcTouch
  dsimp only
  split
  · rw [if_neg (by decide)]
    rfl
  · split <;> rfl

theorem ctr_ne_of_off {p q o o' : Nat} (h : o ≠ o' := by decide) (ho : o < 4096 := by decide) (ho' : o' < 4096 := by decide) :
    p * 4096 + o ≠ q * 4096 + o' := by
  omega

/-- A look-aside buffer counts its hits and misses, and no failed translation. -/
theorem ctr_labTouch (s : State) (n key : Nat) (big : Bool) : (s.labTouch n key big).ctr (pgXLT n) 0x05C = s.ctr (pgXLT n) 0x05C := by
  unfold State.labTouch
  extract_lets xp k s1 mine
  have h1 : s1.ctr (pgXLT n) 0x05C = s.ctr (pgXLT n) 0x05C :=
    (State.ctr_count_ne _ _ ctr_ne_of_off).trans (State.ctr_count_ne _ _ ctr_ne_of_off)
  split
  · split
    · exact State.ctr_count_ne _ _ ctr_ne_of_off
    · rfl
  · split <;> exact h1

/-! ## Events that take free values -/

/-- As `Quiet`, but for the counter of free values. -/
def Noted (s t : State) : Prop := Quiet { s with freeIdx := t.freeIdx } t

section
variable {s t u : State}

theorem Noted.of_quiet {n : Nat} (h : Quiet { s with freeIdx := n } t) : Noted s t := by
  have hn : t.freeIdx = n := by rw [h.1]
  unfold Noted
  rwa [hn]

theorem Quiet.noted (h : Quiet s t) : Noted s t := .of_quiet (n := s.freeIdx) h

theorem Noted.trans (h : Noted s t) (k : Noted t u) : Noted s u := by
  obtain ⟨h1, h2⟩ := h
  obtain ⟨k1, k2⟩ := k
  exact ⟨k1.trans (by rw [h1]), k2.trans (by rw [h2])⟩

theorem Noted.lp (h : Noted s t) : t.lp = s.lp := by rw [h.1]
theorem Noted.steps (h : Noted s t) : t.steps = s.steps := by rw [h.1]
theorem Noted.sameBytes (h : Noted s t) : SameBytes s t :=
  (SameBytes.of_eq : SameBytes s { s with freeIdx := t.freeIdx }).trans (Quiet.sameBytes h)

theorem Noted.foldl {α : Type} {g : State → α → State} (hg : ∀ t x, Noted t (g t x)) : ∀ (l : List α) (s : State), Noted s (l.foldl g s)
  | [], s => (quiet_refl s).noted
  | x :: l, s => (hg s x).trans (Noted.foldl hg l (g s x))

end

theorem noted_ctxStQ (s : State) (c bit st q : Nat) : Noted s (s.ctxStQ c bit st q) :=
  .of_quiet (n := s.freeIdx + 1) ((quiet_refl _).ctxEvent _ _ _ _ _)

/-- MEM_DETECT to the owners of a frame (R210). -/
theorem noted_memDetect (s : State) (x : Frame) (va : Nat) : Noted s (s.memDetect x va) := Noted.foldl (fun t c => noted_ctxStQ t c 11 stFAULT va) _ s

/-- MEM_LOST to the owners of the frames that are lost (R215). -/
theorem noted_memLost (s : State) (p : Nat → Bool) : Noted s (s.memLost p) := Noted.foldl (fun t c => noted_ctxStQ t c 13 stFAULT _) _ s

theorem raised_ctxEvent (s : State) (c st code q : Nat) {bit : Nat} (h : bit < 32) : Raised (s.ctxEvent c bit st code q) (pgCEV c) bit := by
  unfold State.ctxEvent
  extract_lets pg wrI i
  split
  · exact raised_congr (State.count_regs ..) (raised_mono _ _ h (raised_raise s _ _ h))
  · exact raised_raise _ _ _ h

/-! ## Steps that fail (R134) -/

theorem failStep?_steps (s : State) (step : Option Nat) (st code : Nat) : ∃ m, s.failStep? step st code = { s with steps := m } := by
  cases step <;> exact ⟨_, rfl⟩

theorem step1_failStep (s : State) (id status code j : Nat) : (s.failStep id status code).step1 j =
    if j = id then (s.step1 id).map fun st => if st.status = 0 then { st with status := status, code := code } else st else s.step1 j := by
  split
  · next h => rw [h]; exact mget_mmod_self ..
  · next h => exact mget_mmod_ne _ _ h

/-- A step that has not failed yet takes the status. -/
theorem step1_failStep_first {s : State} {id : Nat} {st : Step} (h : s.step1 id = some st) (h0 : st.status = 0) (status code : Nat) :
    ∃ x, (s.failStep id status code).step1 id = some x ∧ x.status = status :=
  ⟨{ st with status := status, code := code }, by rw [step1_failStep, if_pos rfl, h, Option.map_some, if_pos h0], rfl⟩

/-! ## Translated accesses (R205, R208) -/

/-- A translation that answers an address keeps the place within the page. -/
def Aligned (va : Nat) (r : Except Nat Nat) : Prop := ∀ pa, r = .ok pa → pa % 64 = va % 64

theorem Aligned.error {va code : Nat} : Aligned va (.error code) := fun _ h => nomatch h

theorem Aligned.ok {va f : Nat} : Aligned va (.ok (f * 4096 + va % 4096)) := fun pa h => by
  injection h with h
  omega

theorem Aligned.ite {va : Nat} {c : Prop} [Decidable c] {a b : Except Nat Nat} (ha : Aligned va a) (hb : Aligned va b) :
    Aligned va (if c then a else b) := by split <;> assumption

theorem aligned_window {s : State} {c va len : Nat} {write host : Bool} {r : Except Nat Nat} (h : s.window c va write host len = some r) :
    Aligned va r := by
  unfold State.window at h
  obtain ⟨hd, -, rfl⟩ := Option.map_eq_some_iff.mp h
  split
  · exact .error
  · refine .ite .error ?_
    split
    · exact .error
    · split
      · exact .error
      · extract_lets fill f
        refine .ite .error (.ite .error (.ite .error (.ite .error ?_)))
        split
        · exact .ite .error .ok
        · exact .error

theorem aligned_xlate (s : State) (c va len : Nat) (write host : Bool) : Aligned va (s.xlate c va write host len) := by
  unfold State.xlate
  refine .ite .error ?_
  split
  · next h => exact aligned_window h
  · split
    · exact .error
    · refine .ite .error (.ite .error (.ite .error (.ite .error (.ite .error (.ite .error ?_)))))
      split
      · exact .ite .error .ok
      · exact .error

/-- What an access does before its address is known: accounting, without a failed translation of die `n`. -/
structure Looked (n : Nat) (s t : State) : Prop where
  tallied : Tallied s t
  faults : t.ctr (pgXLT n) 0x05C = s.ctr (pgXLT n) 0x05C

/-- Nothing is accessed: the context hears of it, and the translation unit counts it. -/
structure Refused (s t : State) (n c : Nat) : Prop where
  told : Raised t (pgCEV c) 10
  counted : t.ctr (pgXLT n) 0x05C = s.ctr (pgXLT n) 0x05C + 1
  bytes : SameBytes s t
  steps : t.steps = s.steps

/-- The state with the failure of a translation counted, captured and posted (R208). -/
def refused (s : State) (n c va code : Nat) : State :=
  (((s.count (pgXLT n) 0x05C 1).count (pgXLT n) 0x060 (boolNat (xltStatus code == stDENIED))).capture (pgXLT n) code 0 (some c)).ctxEvent c 10
    (xltStatus code) code va

section
variable {s t : State} {n c va len : Nat} {write host : Bool}

theorem Looked.count (h : Looked n s t) {pg off : Nat} (m : Nat) (hne : 0x05C ≠ off := by decide) (hoff : off < 4096 := by decide) :
    Looked n s (t.count pg off m) :=
  ⟨h.tallied.count .., (State.ctr_count_ne _ _ (ctr_ne_of_off hne (by decide) hoff)).trans h.faults⟩

theorem Looked.labTouch (h : Looked n s t) (key : Nat) (big : Bool) : Looked n s (t.labTouch n key big) :=
  ⟨h.tallied.trans (tallied_labTouch ..), (ctr_labTouch ..).trans h.faults⟩

theorem xltCtr_ne_msgCtr (n : Nat) : pgXLT n * 4096 + 0x05C ≠ msgCtr := ctr_ne_of_off

theorem Looked.refused (h : Looked n s t) (hn : n < 4) (c va code : Nat) : Refused s (refused t n c va code) n c where
  told := raised_ctxEvent _ _ _ _ _ (by decide)
  counted := by
    have hlow : pgXLT n * 4096 + 0x05C < 0x20000000 := by
      unfold pgXLT pgDIE
      omega
    rw [Sys2Proof.refused, ctr_ctxEvent _ _ _ _ _ _ hlow (xltCtr_ne_msgCtr n), ctr_capture _ _ _ _ _ (xltCtr_ne_msgCtr n),
      State.ctr_count_ne _ _ ctr_ne_of_off, State.ctr_count_self, h.faults]
  bytes := h.tallied.sameBytes.trans (((((quiet_refl t).count ..).count ..).capture ..).ctxEvent ..).sameBytes
  steps := (((((quiet_refl t).count ..).count ..).capture ..).ctxEvent ..).steps.trans h.tallied.steps

/-- A missing key is recorded in the frame's group besides. -/
theorem Refused.atGroup (h : Refused s t n c) (f : Nat) :
    Refused s ((t.count (frameGroup f) 0x074 1).capture (frameGroup f) 6 (frameLoc f) (some c)) n c where
  told := (Onward.refl _ t).count.capture.events 10 (by decide) h.told
  counted := by rw [ctr_capture _ _ _ _ _ (xltCtr_ne_msgCtr n), State.ctr_count_ne _ _ ctr_ne_of_off, h.counted]
  bytes := h.bytes.trans (((quiet_refl t).count ..).capture ..).sameBytes
  steps := (((quiet_refl t).count ..).capture ..).steps.trans h.steps

/-- An access looks its leaf up; then it has its address, or is refused. -/
theorem access_outcome (s : State) {n : Nat} (hn : n < 4) (c va len : Nat) (write host : Bool) : ∃ s1, Tallied s s1 ∧
    (∀ pa, s.xlate c va write host len = .ok pa → s.access n c va write host len = (s1, .ok pa)) ∧
    ∀ code, s.xlate c va write host len = .error code → ∃ t, s.access n c va write host len = (t, .error code) ∧ Refused s t n c := by
  unfold State.access
  extract_lets xp s0 s1
  have h0 : Looked n s s0 := Looked.count ⟨tallied_refl s, rfl⟩ 1
  have h1 : Looked n s s1 := by
    simp only [s1]
    split
    · exact h0.labTouch ..
    · exact (h0.count 1).count 3
    · split
      · exact h0.labTouch ..
      · exact (h0.count 1).count 1
  refine ⟨s1, h1.tallied, fun pa h => ?_, fun code h => ?_⟩
  · simp only [h1.tallied.xlate, h]
  · simp only [h1.tallied.xlate, h]
    refine ⟨_, rfl, ?_⟩
    split
    · exact (h1.refused hn c va _).atGroup _
    · exact h1.refused hn c va _

end

end Sys2Proof
end

section
/-! PROOF. O31: line reads and writes of main memory (R195, R196, R205, R208). -/

namespace Sys2Proof

set_option Elab.async false

open Machine

/-! ## Lines read (R195) -/

section
variable {s : State} {l key : Nat} {o : LineOut} {x : Frame}

/-- The accounting of a line that is read. -/
theorem tallied_lineTouched (s : State) (l : Nat) : Tallied s ((s.count (frameGroup (frameOfLine l)) 0x04C 1).crcTouch l false false) :=
  ((tallied_refl s).count ..).trans (tallied_crcTouch ..)

theorem lineRead_good (hp : o.cacheParity = false) (hb : nget s.lp.bad l = 0) (hf : o.fail1 = false) :
    s.lineRead l key o = ((s.count (frameGroup (frameOfLine l)) 0x04C 1).crcTouch l false false, s.lineText l key, 0) := by
  have h1 := tallied_lineTouched s l
  simp [State.lineRead, hp, hf, h1.bad, hb, h1.lineText]

/-- A line of a frame that has no second copy, bad twice, is a confirmed detection. -/
theorem lineRead_detect (hp : o.cacheParity = false) (hb : nget s.lp.bad l = 0) (hf1 : o.fail1 = true) (hf2 : o.fail2 = true)
    (hx : s.frame (frameOfLine l) = some x) (hk : x.kind = 0) : s.lineRead l key o =
      (((s.count (frameGroup (frameOfLine l)) 0x04C 1).crcTouch l false false).confirm (frameOfLine l) false, s.lineText l key, 2) := by
  have h1 := tallied_lineTouched s l
  simp [State.lineRead, hp, hf1, hf2, h1.bad, hb, h1.lineText, h1.frame, hx, hk]

end

/-! ## Detections (R210, R214) -/

/-- A frame in which a further detection was confirmed. -/
def hit (x : Frame) : Frame := { x with detect := min 3 (x.detect + 1), pend := x.pend || decide (1 ≤ x.detect) }

theorem Quiet.setLp {s t : State} (h : Quiet s t) (m : LpSt) : Quiet { s with lp := m } { t with lp := m } := by
  obtain ⟨h1, h2⟩ := h
  exact ⟨by rw [h1], h2⟩

theorem mmod_some {α : Type} {m : AMap α} {k : Nat} {v : α} (h : mget m k = some v) (g : α → α) : mmod m k g = mput m k (g v) := by
  rw [mmod, h]

theorem mmod_none {α : Type} {m : AMap α} {k : Nat} (h : mget m k = none) (g : α → α) : mmod m k g = m := by
  rw [mmod, h]

/-- Main memory with a further detection in frame `f`: `d` counts those of each channel, `q` lists the channels that are due. -/
def detectedIn (m : LpSt) (f : Nat) (d : AMap Nat) (q : List Nat) : LpSt :=
  { m with chDet := d, chDue := q, frames := mmod m.frames f hit }

/-- A confirmed detection touches the frame's entry, its channel's count and the channels that are due; the frame's group tells of it. -/
theorem confirm_spec (s : State) (f : Nat) (poison : Bool) :
    (∃ d q, Quiet { s with lp := detectedIn s.lp f d q } (s.confirm f poison)) ∧
      Raised (s.confirm f poison) (frameGroup f) (if poison then 1 else 0) := by
  unfold State.confirm
  extract_lets pg ch s1 lp1 s2 lp2 s3
  have h1 : Quiet s s1 := ((((quiet_refl s).raise ..).count ..).count ..).capture ..
  have hbit : (if poison then 1 else 0) < 32 := by split <;> decide
  have hr1 : Raised s1 pg (if poison then 1 else 0) :=
    (Onward.refl pg (s.raise pg _)).count.count.capture.events _ hbit (raised_raise s pg _ hbit)
  have h3 : ∃ d q, s3 = { s1 with lp := { s.lp with chDet := d, chDue := q } } := by
    simp only [s3]
    split <;> exact ⟨_, _, by rw [← h1.lp]⟩
  clear_value s3
  obtain ⟨d, q, rfl⟩ := h3
  have h4 := h1.setLp (detectedIn s.lp f d q)
  have hr3 : ∀ m, Raised { s1 with lp := m } pg (if poison then 1 else 0) := fun _ => raised_congr rfl hr1
  split
  · next x hx =>
    have hset : { s1 with lp := detectedIn s.lp f d q } = State.setFrame { s1 with lp := { s.lp with chDet := d, chDue := q } } f (hit x) := by
      rw [detectedIn, mmod_some hx]
      rfl
    rw [hset] at h4
    extract_lets s4
    split
    · exact ⟨⟨d, q, h4.raise ..⟩, raised_mono pg 5 hbit (hr3 _)⟩
    · exact ⟨⟨d, q, h4⟩, hr3 _⟩
  · next hx =>
    rw [detectedIn, mmod_none hx] at h4
    exact ⟨⟨d, q, by rwa [detectedIn, mmod_none hx]⟩, hr3 _⟩

theorem frame_confirm (s : State) (f : Nat) (poison : Bool) : (s.confirm f poison).frame f = (s.frame f).map hit := by
  obtain ⟨⟨d, q, h⟩, -⟩ := confirm_spec s f poison
  rw [State.frame, h.lp]
  exact mget_mmod_self ..

theorem sameBytes_confirm (s : State) (f : Nat) (poison : Bool) : SameBytes s (s.confirm f poison) := by
  obtain ⟨⟨d, q, h⟩, -⟩ := confirm_spec s f poison
  exact (SameBytes.of_eq : SameBytes s { s with lp := detectedIn s.lp f d q }).trans h.sameBytes

/-- With no step to run again and no second copy, the owners of the frame are told (R210). -/
theorem recover_plain {s : State} {f : Nat} {x : Frame} (hx : s.frame f = some x) (hk : x.kind = 0) (va : Nat) :
    s.recover f va none = s.memDetect x va := by
  simp [State.recover, hx, hk, State.failStep?]

/-! ## Line reads of a context -/

section
variable {die : Fin 4} {c : Fin 1024} {va pa key : Nat} {step : Option Nat} {o : LineOut} {s : State} {x : Frame}

/-- A read that translates is one of its line under the owner's key. -/
theorem ctxRead_translated (die : Fin 4) (step : Option Nat) (o : LineOut) (hx : s.xlate c.val va false false = .ok pa)
    (hf : s.frame (pa / 4096) = some x) (hk : s.keyIn (slotOfOwner x.otype x.owner) = some key) :
    ∃ s1, Tallied s s1 ∧ ∀ t bs how, s1.lineRead (pa / 64) key o = (t, bs, how) →
      s.ctxRead die.val c.val va false o step = (if how = 0 then t else t.recover (pa / 4096) va step, bs, how) := by
  obtain ⟨s1, h1, hyes, -⟩ := access_outcome s die.isLt c.val va 1 false false
  refine ⟨s1, h1, fun t bs how hread => ?_⟩
  simp only [State.ctxRead, hyes pa hx, h1.frame, hf, h1.keyIn, hk, Option.getD_some, hread]

variable (hu : s.hasUnit (pgDIE die.val) = true) (hl : s.isLocalVa va = true)
include hu hl

/-- What a read of a local VA delivers stands in the state. -/
theorem exec_lpddrRead {t : State} {bs : List Nat} {how : Nat} (h : s.ctxRead die.val c.val va false o step = (t, bs, how)) :
    exec (.lpddrRead die c va step o) s = .next { t with lp := { t.lp with line := bs, lineHow := how } } := by
  change execLpddrRead die c va step o s = _
  simp [execLpddrRead, hu, hl, h]

theorem lpddrRead_refused {code : Nat} (hx : s.xlate c.val va false false = .error code) :
    ∃ t, exec (.lpddrRead die c va step o) s = .next t ∧ t.lp.line = List.replicate 64 0 ∧ t.lp.lineHow = 3 ∧ Raised t (pgCEV c.val) 10 ∧
      t.ctr (pgXLT die.val) 0x05C = s.ctr (pgXLT die.val) 0x05C + 1 ∧ SameBytes s t ∧
      ∀ id st, step = some id → s.step1 id = some st → st.status = 0 → ∃ x, t.step1 id = some x ∧ x.status = xltStatus code := by
  obtain ⟨s1, -, -, hno⟩ := access_outcome s die.isLt c.val va 1 false false
  obtain ⟨t, hacc, h⟩ := hno code hx
  have hread : s.ctxRead die.val c.val va false o step = (t.failStep? step (xltStatus code) code, List.replicate 64 0, 3) := by
    simp only [State.ctxRead, hacc]
  obtain ⟨m, hm⟩ := failStep?_steps t step (xltStatus code) code
  refine ⟨_, exec_lpddrRead hu hl hread, rfl, rfl, ?_, ?_, ?_, fun id st hid hst h0 => ?_⟩
  · rw [hm]
    exact raised_congr rfl h.told
  · rw [hm]
    exact h.counted
  · rw [hm]
    exact h.bytes.trans .of_eq
  · subst hid
    exact step1_failStep_first (s := t) (by rw [State.step1, h.steps]; exact hst) h0 _ code

variable (hx : s.xlate c.val va false false = .ok pa) (hf : s.frame (pa / 4096) = some x) (hk : s.keyIn (slotOfOwner x.otype x.owner) = some key)
variable (hp : o.cacheParity = false) (hb : nget s.lp.bad (pa / 64) = 0)
include hx hf hk hp hb

theorem lpddrRead_good (hg : o.fail1 = false) :
    ∃ t, exec (.lpddrRead die c va step o) s = .next t ∧ t.lp.line = s.lineText (pa / 64) key ∧ t.lp.lineHow = 0 ∧ t.regs = s.regs ∧
      t.steps = s.steps ∧ SameBytes s t := by
  obtain ⟨s1, h1, hread⟩ := ctxRead_translated die step o hx hf hk
  have h2 := h1.trans (tallied_lineTouched s1 (pa / 64))
  exact ⟨_, exec_lpddrRead hu hl (hread _ _ _ (lineRead_good hp (by rw [h1.bad]; exact hb) hg)), by rw [h1.lineText], rfl, h2.regs, h2.steps,
    h2.sameBytes.trans .of_eq⟩

theorem lpddrRead_detect (hg1 : o.fail1 = true) (hg2 : o.fail2 = true) (hkind : x.kind = 0) :
    ∃ t, exec (.lpddrRead die c va none o) s = .next t ∧ t.lp.lineHow = 2 ∧ Raised t (frameGroup (pa / 4096)) 0 ∧ SameBytes s t := by
  obtain ⟨s1, h1, hread⟩ := ctxRead_translated die none o hx hf hk
  have h2 := h1.trans (tallied_lineTouched s1 (pa / 64))
  have hline : frameOfLine (pa / 64) = pa / 4096 := Nat.div_div_eq_div_mul ..
  have hdet := lineRead_detect (s := s1) (key := key) hp (by rw [h1.bad]; exact hb) hg1 hg2 (x := x) (by rw [hline, h1.frame]; exact hf) hkind
  rw [hline] at hdet h2
  have hwhole := hread _ _ _ hdet
  generalize (s1.count (frameGroup (pa / 4096)) 0x04C 1).crcTouch (pa / 64) false false = s2 at h2 hwhole
  have hframe : (s2.confirm (pa / 4096) false).frame (pa / 4096) = some (hit x) := by rw [frame_confirm, h2.frame, hf]; rfl
  rw [if_neg (by omega), recover_plain hframe hkind] at hwhole
  refine ⟨_, exec_lpddrRead hu hl hwhole, rfl, ?_, ?_⟩
  · exact raised_congr rfl ((Onward.refl _ _).memDetect.events 0 (by decide) (confirm_spec s2 (pa / 4096) false).2)
  · exact ((h2.sameBytes.trans (sameBytes_confirm ..)).trans (noted_memDetect ..).sameBytes).trans .of_eq

end

/-! ## Lines written (R196) -/

/-- A line with the bytes `bs` from byte `off` on, the rest as before. -/
def merged (old : List Nat) (off : Nat) (bs : List Nat) : List Nat :=
  (List.range 64).map fun i => if off ≤ i ∧ i < off + bs.length then bs.getD (i - off) 0 else old.getD i 0

theorem length_merged (old : List Nat) (off : Nat) (bs : List Nat) : (merged old off bs).length = 64 := by simp [merged]

theorem getD_merged (old : List Nat) (off : Nat) (bs : List Nat) {i : Nat} (h : i < 64) :
    (merged old off bs).getD i 0 = if off ≤ i ∧ i < off + bs.length then bs.getD (i - off) 0 else old.getD i 0 := by
  simp [merged, h]

theorem merged_full (old : List Nat) {bs : List Nat} (h : bs.length = 64) : merged old 0 bs = bs := by
  refine List.ext_getElem (by rw [length_merged, h]) fun i h1 h2 => ?_
  have hi : i < 64 := by omega
  have hm := getD_merged old 0 bs hi
  rw [if_pos (by omega), Nat.sub_zero] at hm
  simpa [h1, h2] using hm

section
variable {s : State} {l key off : Nat} {bs : List Nat} {o : LineOut}

/-- A line written whole, or over a line that reads good, is the merged line under the key. -/
theorem lineWrite_merges (hp : o.cacheParity = false) (hfit : off + bs.length ≤ 64)
    (hg : bs.length = 64 ∨ (nget s.lp.bad l = 0 ∧ o.fail1 = false)) :
    ∃ t, Tallied s t ∧ s.lineWrite l key off bs false o = t.putLine l key (merged (s.lineText l key) off bs) false := by
  by_cases hfull : bs.length = 64
  · have hoff : off = 0 := by omega
    subst hoff
    refine ⟨_, ((tallied_refl s).count (frameGroup (frameOfLine l)) 0x050 1).trans (tallied_crcTouch _ l true), ?_⟩
    rw [merged_full _ hfull, State.lineWrite, if_pos (by omega), hp]
  · obtain ⟨hb, hf⟩ := hg.resolve_left hfull
    refine ⟨_, ((((tallied_lineTouched s l).count (frameGroup (frameOfLine l)) 0x050 1).count (frameGroup (frameOfLine l)) 0x068 1)).trans
      (tallied_crcTouch _ l true), ?_⟩
    rw [State.lineWrite, if_neg (by omega), lineRead_good hp hb hf]
    rfl

theorem bget_putLine (s : State) (l key : Nat) {bs : List Nat} (bad : Bool) (h : bs.length = 64) (a : Nat) :
    bget (s.putLine l key bs bad).lp.mem a = if a / 64 = l then BitVec.ofNat 8 (bs.getD (a % 64) 0) else bget s.lp.mem a := by
  change bget (bputList s.lp.mem (64 * l) (bs.map (BitVec.ofNat 8))) a = _
  rw [bget_bputList, List.length_map, h]
  by_cases ha : a / 64 = l
  · rw [if_pos (by omega), if_pos ha, show a - 64 * l = a % 64 by omega, List.getD_eq_getElem _ _ (by rw [List.length_map]; omega),
      List.getD_eq_getElem _ _ (by omega), List.getElem_map]
  · rw [if_neg (by omega), if_neg ha]

theorem tag_putLine (s : State) (l key : Nat) (bs : List Nat) (bad : Bool) : mget (s.putLine l key bs bad).lp.tag l = some (key + 1) :=
  mget_mput_self ..

end

/-! ## Line writes of a context -/

/-- The bytes of a list as they come back from their numbers. -/
theorem ofNat_getD_toNat (data : List Byte) (i : Nat) : BitVec.ofNat 8 ((data.map fun b => b.toNat).getD i 0) = data.getD i 0 := by
  by_cases h : i < data.length
  · rw [List.getD_eq_getElem _ _ (by rwa [List.length_map]), List.getD_eq_getElem _ _ h, List.getElem_map, BitVec.ofNat_toNat, BitVec.setWidth_eq]
  · rw [List.getD_eq_default _ _ (by rw [List.length_map]; omega), List.getD_eq_default _ _ (by omega)]
    rfl

section
variable {die : Fin 4} {c : Fin 1024} {va : Nat} {data : List Byte} {step : Option Nat} {o : LineOut} {s : State}
variable (hu : s.hasUnit (pgDIE die.val) = true) (hl : s.isLocalVa va = true) (hne : data ≠ []) (hfit : va % 64 + data.length ≤ 64)
include hu hl hne hfit

theorem exec_lpddrWrite : exec (.lpddrWrite die c va data false step o) s =
    .next (s.ctxWrite die.val c.val va false (data.map fun b => b.toNat) false o step).1 := by
  change execLpddrWrite die c va data false step o s = _
  simp [execLpddrWrite, hu, hl, hne, hfit]

theorem lpddrWrite_refused {code : Nat} (hx : s.xlate c.val va true false (max 1 data.length) = .error code) :
    ∃ t, exec (.lpddrWrite die c va data false step o) s = .next t ∧ Raised t (pgCEV c.val) 10 ∧ SameBytes s t := by
  obtain ⟨s1, -, -, hno⟩ := access_outcome s die.isLt c.val va (max 1 data.length) true false
  obtain ⟨t, hacc, h⟩ := hno code hx
  obtain ⟨m, hm⟩ := failStep?_steps t step (xltStatus code) code
  refine ⟨_, exec_lpddrWrite hu hl hne hfit, ?_⟩
  simp only [State.ctxWrite, List.length_map, hacc, hm]
  exact ⟨raised_congr rfl h.told, h.bytes.trans .of_eq⟩

theorem lpddrWrite_stores {pa key : Nat} {x : Frame} (hx : s.xlate c.val va true false (max 1 data.length) = .ok pa)
    (hf : s.frame (pa / 4096) = some x) (hk : s.keyIn (slotOfOwner x.otype x.owner) = some key) (hp : o.cacheParity = false)
    (hg : data.length = 64 ∨ (nget s.lp.bad (pa / 64) = 0 ∧ o.fail1 = false)) :
    ∃ t, exec (.lpddrWrite die c va data false step o) s = .next t ∧ mget t.lp.tag (pa / 64) = some (key + 1) ∧
      (∀ i, i < 64 → bget t.lp.mem (64 * (pa / 64) + i) =
        if pa % 64 ≤ i ∧ i < pa % 64 + data.length then data.getD (i - pa % 64) 0 else BitVec.ofNat 8 ((s.lineText (pa / 64) key).getD i 0)) ∧
      (∀ a, a / 64 ≠ pa / 64 → bget t.lp.mem a = bget s.lp.mem a) ∧ (∀ a, bget t.vstore a = bget s.vstore a) ∧
      (∀ a, bget t.fstore a = bget s.fstore a) ∧ t.regs = s.regs ∧ t.steps = s.steps := by
  obtain ⟨s1, h1, hyes, -⟩ := access_outcome s die.isLt c.val va (max 1 data.length) true false
  have hoff : pa % 64 = va % 64 := aligned_xlate _ _ _ _ _ _ pa hx
  obtain ⟨s2, h2, hwrite⟩ := lineWrite_merges (s := s1) (l := pa / 64) (key := key) (off := pa % 64) (bs := data.map fun b => b.toNat) hp
    (by rw [List.length_map]; omega) (by rw [List.length_map, h1.bad]; exact hg)
  have h := h1.trans h2
  have hmem := bget_putLine s2 (pa / 64) key false (length_merged (s1.lineText (pa / 64) key) (pa % 64) (data.map fun b => b.toNat))
  refine ⟨_, exec_lpddrWrite hu hl hne hfit, ?_⟩
  simp only [State.ctxWrite, List.length_map, hyes pa hx, h1.frame, hf, h1.keyIn, hk, Option.getD_some, hwrite]
  refine ⟨tag_putLine .., fun i hi => ?_, fun a ha => ?_, fun a => ?_, fun a => ?_, h.regs, h.steps⟩
  · rw [hmem, if_pos (by omega), show (64 * (pa / 64) + i) % 64 = i by omega, getD_merged _ _ _ hi, List.length_map, h1.lineText]
    split
    · exact ofNat_getD_toNat ..
    · rfl
  · rw [hmem, if_neg ha, h.mem]
  · exact congrArg (bget · a) h.vstore
  · exact congrArg (bget · a) h.fstore

end

/-- Settles O31: an access that translates reads or merges its line, another is refused. -/
theorem lineAccesses : Obligations.LineAccesses := by
  unfold Obligations.LineAccesses
  refine ⟨fun die c va step o s hu hl => ⟨fun pa x key hx hf hk hp hb => ⟨lpddrRead_good hu hl hx hf hk hp hb, ?_⟩, fun code => lpddrRead_refused hu hl⟩,
    fun die c va data step o s hu hl hne hfit => ⟨fun pa x key hx hf hk hp hg => lpddrWrite_stores hu hl hne hfit hx hf hk hp hg,
      fun code => lpddrWrite_refused hu hl hne hfit⟩⟩
  rintro hg1 hg2 hkind rfl
  exact lpddrRead_detect hu hl hx hf hk hp hb hg1 hg2 hkind

end Sys2Proof
end

section
/-! PROOF. O32: frames and their owners, and the leaves of the translation tables (R199, R200, R203, R207). -/

namespace Sys2Proof

set_option Elab.async false

open Machine

/-! ## Entries of many frames -/

section
variable {α : Type}

theorem mget_foldl_mput (v : α) (l : List Nat) (m : AMap α) (k : Nat) :
    mget (l.foldl (fun m f => mput m f v) m) k = if k ∈ l then some v else mget m k := by
  induction l generalizing m with
  | nil => rfl
  | cons f l ih =>
    rw [List.foldl_cons, ih]
    by_cases hl : k ∈ l
    · rw [if_pos hl, if_pos (List.mem_cons_of_mem f hl)]
    · rw [if_neg hl]
      by_cases hk : k = f
      · subst hk
        rw [mget_mput_self, if_pos List.mem_cons_self]
      · rw [mget_mput_ne _ _ hk, if_neg (by simp [hk, hl])]

/-- An update that does nothing the second time. -/
theorem mget_foldl_mmod {g : α → α} (hg : ∀ v, g (g v) = g v) (l : List Nat) (m : AMap α) (k : Nat) :
    mget (l.foldl (fun m f => mmod m f g) m) k = if k ∈ l then (mget m k).map g else mget m k := by
  induction l generalizing m with
  | nil => rfl
  | cons f l ih =>
    rw [List.foldl_cons, ih]
    by_cases hk : k = f
    · subst hk
      rw [mget_mmod_self, if_pos List.mem_cons_self]
      cases mget m k with
      | none => split <;> rfl
      | some v => simp [hg]
    · rw [mget_mmod_ne _ _ hk]
      simp [hk]

end

theorem foldl_setFrame (x : Frame) : ∀ (l : List Nat) (s : State), l.foldl (fun t f => t.setFrame f x) s =
    { s with lp := { s.lp with frames := l.foldl (fun m f => mput m f x) s.lp.frames } }
  | [], _ => rfl
  | f :: l, s => by rw [List.foldl_cons, foldl_setFrame x l]; rfl

theorem foldl_modFrame (g : Frame → Frame) : ∀ (l : List Nat) (s : State), l.foldl (fun t f => t.modFrame f g) s =
    { s with lp := { s.lp with frames := l.foldl (fun m f => mmod m f g) s.lp.frames } }
  | [], _ => rfl
  | f :: l, s => by rw [List.foldl_cons, foldl_modFrame g l]; rfl

/-! ## FRAME_ASSIGN (R199, R200) -/

/-- A command that need not wait is performed as any other. -/
theorem commandUnless_ready {s : State} {wait : Bool} (h : wait = false) (fn tag op : Nat) (body : State → State) :
    s.commandUnless wait fn tag op body = s.command fn tag op body := by
  rw [State.commandUnless, h, if_neg fun hc => nomatch hc.2]

section
variable {fn : Fin 32} {tag owner kind : Nat} {isDomain : Bool} {r : FrameRun} {s : State}

theorem frame_giveFrames (s : State) (r : FrameRun) (ot owner kind : Nat) (clearing : Bool) (f : Nat) :
    (s.giveFrames r ot owner kind clearing).frame f =
      if f ∈ runFrames r then some { otype := ot, owner := owner, kind := kind, clearing := clearing } else s.frame f := by
  rw [State.giveFrames, foldl_setFrame]
  exact mget_foldl_mput ..

theorem giveFrames_fields (s : State) (r : FrameRun) (ot owner kind : Nat) (clearing : Bool) :
    ∃ m, s.giveFrames r ot owner kind clearing = { s with lp := { s.lp with frames := m } } := ⟨_, foldl_setFrame ..⟩

section
variable (hp : Performs s fn.val 0x10) (hd : s.dieThere r.die = true) (ho : s.ownerOpen isDomain owner = true) (hr : r.first + r.count ≤ 2 ^ 25)
  (hk : kind < 5) (hfree : ∀ f, f ∈ runFrames r → s.frameFree f = true) (hw : s.runClearing r = false)
include hp hd ho hr hk hfree hw

/-- Free frames of an open owner go to it; those that do not all hold zeros are cleared first. -/
theorem exec_frameAssign : exec (.frameAssign fn tag isDomain owner kind r) s = .next (
    let t := untake s fn.val tag 0x10
    if (runFrames r).all s.frameZero then
      ((t.giveFrames r (boolNat isDomain) owner kind false).count (pgXLT r.die) 0x068 1).respond fn.val tag stCOMPLETE 0
    else ((t.giveFrames r (boolNat isDomain) owner kind true).addClear r (some (2048 * boolNat isDomain + owner)) kind).hold fn.val tag
      (.frames r.die r.first r.count) 0) := by
  have hd' : (untake s fn.val tag 0x10).dieThere r.die = true := hd
  have ho' : (untake s fn.val tag 0x10).ownerOpen isDomain owner = true := ho
  have hfree' : ((runFrames r).any fun f => !(untake s fn.val tag 0x10).frameFree f) = false := by
    rw [List.any_eq_false]
    intro f hf
    rw [show (untake s fn.val tag 0x10).frameFree f = true from hfree f hf]
    decide
  change execFrameAssign fn tag isDomain owner kind r s = _
  rw [execFrameAssign, commandUnless_ready hw, hp.command]
  simp only [hd', ho', hfree', hr.not_gt, hk.not_ge, decide_false, Bool.or_self, Bool.not_true, Bool.false_eq_true, if_false]
  rfl

theorem frameAssign_zeros (hz : ∀ f, f ∈ runFrames r → s.frameZero f = true) :
    ∃ t, exec (.frameAssign fn tag isDomain owner kind r) s = .next t ∧ Answered s t fn.val tag 0 0 ∧
      (∀ f, f ∈ runFrames r → t.frame f = some { otype := boolNat isDomain, owner := owner, kind := kind }) ∧
      (∀ f, f ∉ runFrames r → t.frame f = s.frame f) ∧ t.regs = s.regs ∧ SameBytes s t := by
  have hframe := frame_giveFrames (untake s fn.val tag 0x10) r (boolNat isDomain) owner kind false
  obtain ⟨m, hm⟩ := giveFrames_fields (untake s fn.val tag 0x10) r (boolNat isDomain) owner kind false
  refine ⟨_, exec_frameAssign hp hd ho hr hk hfree hw, ?_⟩
  rw [if_pos (List.all_eq_true.mpr hz)]
  refine ⟨?_, fun f hf => (hframe f).trans (if_pos hf), fun f hf => (hframe f).trans (if_neg hf), ?_, ?_⟩ <;> rw [hm]
  · rfl
  · rfl
  · exact .of_eq

theorem frameAssign_clears (hz : ∃ f, f ∈ runFrames r ∧ s.frameZero f = false) :
    ∃ t, exec (.frameAssign fn tag isDomain owner kind r) s = .next t ∧ t.host.resps = s.host.resps ∧
      t.host.waits = s.host.waits ++ [{ fn := fn.val, tag := tag, on := .frames r.die r.first r.count, result := 0 }] ∧
      (∀ f, f ∈ runFrames r → t.frame f = some { otype := boolNat isDomain, owner := owner, kind := kind, clearing := true }) ∧ SameBytes s t := by
  have hframe := frame_giveFrames (untake s fn.val tag 0x10) r (boolNat isDomain) owner kind true
  obtain ⟨m, hm⟩ := giveFrames_fields (untake s fn.val tag 0x10) r (boolNat isDomain) owner kind true
  have hno : ¬(runFrames r).all s.frameZero = true := by
    obtain ⟨f, hf, h0⟩ := hz
    exact fun hall => absurd (List.all_eq_true.mp hall f hf) (by rw [h0]; decide)
  refine ⟨_, exec_frameAssign hp hd ho hr hk hfree hw, ?_⟩
  rw [if_neg hno]
  refine ⟨?_, ?_, fun f hf => (hframe f).trans (if_pos hf), ?_⟩ <;> rw [hm]
  · rfl
  · rfl
  · exact .of_eq

end

/-! ## FRAME_RELEASE -/

section
variable (hp : Performs s fn.val 0x11) (hd : s.dieThere r.die = true) (hw : s.runClearing r = false) (hc : r.count ≠ 0)
  (hown : ∀ f, f ∈ runFrames r → ∃ x, s.frame f = some x ∧ x.otype = boolNat isDomain ∧ x.owner = owner ∧ x.maps = 0 ∧ x.pinned = false)
include hp hd hw hc hown

/-- Frames that their owner gives back, unmapped and not pinned, are cleared. -/
theorem exec_frameRelease : exec (.frameRelease fn tag isDomain owner r) s = .next (
    let t := (runFrames r).foldl (fun u f => u.modFrame f fun x => { x with clearing := true }) (untake s fn.val tag 0x11)
    (t.addClear r none 0).hold fn.val tag (.frames r.die r.first r.count) 0) := by
  have hd' : (untake s fn.val tag 0x11).dieThere r.die = true := hd
  have hne : (runFrames r).isEmpty = false := by simp [runFrames, hc]
  have hown' : ∀ f, f ∈ runFrames r → ∃ x, (untake s fn.val tag 0x11).frame f = some x ∧ x.otype = boolNat isDomain ∧ x.owner = owner ∧
      x.maps = 0 ∧ x.pinned = false := hown
  change execFrameRelease fn tag isDomain owner r s = _
  rw [execFrameRelease, commandUnless_ready hw, hp.command]
  generalize untake s fn.val tag 0x11 = t at hd' hown' ⊢
  dsimp only
  rw [hd', hne, if_neg (by decide), if_neg, if_neg, if_neg (by decide)]
  · rw [Bool.not_eq_true, List.any_eq_false]
    intro f hf
    obtain ⟨x, hx, -, -, hmaps, hpin⟩ := hown' f hf
    simp [hx, hmaps, hpin]
  · rw [Bool.not_eq_true, List.any_eq_false]
    intro f hf
    obtain ⟨x, hx, hot, how, -, -⟩ := hown' f hf
    simp [hx, hot, how]

theorem frameRelease_clears :
    ∃ t, exec (.frameRelease fn tag isDomain owner r) s = .next t ∧ t.host.resps = s.host.resps ∧
      t.host.waits = s.host.waits ++ [{ fn := fn.val, tag := tag, on := .frames r.die r.first r.count, result := 0 }] ∧
      t.lp.clears = s.lp.clears ++ [{ run := r, owner := none, kind := 0 }] ∧
      (∀ f, f ∈ runFrames r → ∃ x, t.frame f = some x ∧ x.clearing = true) ∧ SameBytes s t := by
  refine ⟨_, exec_frameRelease hp hd hw hc hown, ?_⟩
  rw [foldl_modFrame]
  refine ⟨rfl, rfl, rfl, fun f hf => ?_, .of_eq⟩
  obtain ⟨x, hx, -⟩ := hown f hf
  refine ⟨{ x with clearing := true }, ?_, rfl⟩
  refine (mget_foldl_mmod (g := fun x : Frame => { x with clearing := true }) (fun _ => rfl) (runFrames r) s.lp.frames f).trans ?_
  rw [if_pos hf, show mget s.lp.frames f = some x from hx]
  rfl

end

end

/-! ## FRAME_CLEAR_DONE (R199) -/

/-- Nothing but register fields and the frame table changes. -/
def FramesOnly (s t : State) : Prop := t = { s with regs := t.regs, lp := { s.lp with frames := t.lp.frames } }

theorem FramesOnly.trans {s t u : State} (h : FramesOnly s t) (k : FramesOnly t u) : FramesOnly s u := Eq.trans k (by rw [h])

/-- A frame whose release has been cleared: free, or retired where it was to be (R210). -/
def freed (n : Nat) (t : State) (f : Nat) : State :=
  match t.frame f with
  | some x =>
    if x.pend then (t.setFrame f { otype := 3, owner := 0, kind := 0 }).bump (pgXLT n) F.XLT_RETIRED_FRAMES 1
    else { t with lp := { t.lp with frames := mdel t.lp.frames f } }
  | none => t

theorem framesOnly_freed (n : Nat) (t : State) (f : Nat) : FramesOnly t (freed n t f) := by
  unfold freed
  split
  · split <;> rfl
  · rfl

theorem frame_freed_ne (n : Nat) (t : State) {f j : Nat} (h : j ≠ f) : (freed n t f).frame j = t.frame j := by
  unfold freed
  split
  · split
    · exact mget_mput_ne _ _ h
    · exact mget_mdel_ne _ h
  · rfl

theorem frame_freed_self (n : Nat) {t : State} {f : Nat} (h : ∀ x, t.frame f = some x → x.pend = false) : (freed n t f).frame f = none := by
  unfold freed
  split
  · next x hx =>
    rw [if_neg (by rw [h x hx]; decide)]
    exact mget_mdel_self ..
  · next hx => exact hx

/-- Every frame of a list is freed, and no other. -/
theorem foldl_freed (n : Nat) (l : List Nat) (t : State) : FramesOnly t (l.foldl (freed n) t) ∧
    (∀ f ∈ l, (∀ x, t.frame f = some x → x.pend = false) → (l.foldl (freed n) t).frame f = none) ∧
    ∀ f, f ∉ l → (l.foldl (freed n) t).frame f = t.frame f := by
  induction l generalizing t with
  | nil => exact ⟨rfl, fun f hf => absurd hf (List.not_mem_nil), fun f _ => rfl⟩
  | cons g l ih =>
    obtain ⟨ih1, ih2, ih3⟩ := ih (freed n t g)
    rw [List.foldl_cons]
    refine ⟨(framesOnly_freed n t g).trans ih1, fun f hf h => ?_, fun f hf => ?_⟩
    · by_cases hg : f = g
      · subst hg
        have hnone := frame_freed_self n h
        by_cases hl : f ∈ l
        · exact ih2 f hl fun x hx => by rw [hnone] at hx; cases hx
        · rw [ih3 f hl, hnone]
      · refine ih2 f ((List.mem_cons.mp hf).resolve_left hg) ?_
        rwa [frame_freed_ne n t hg]
    · rw [List.mem_cons, not_or] at hf
      rw [ih3 f hf.2, frame_freed_ne n t hf.1]

theorem endClear_assigned {s : State} {c : Clear} {o : Nat} (h : c.owner = some o) :
    s.endClear c = (runFrames c.run).foldl (fun t f => t.modFrame f fun x => { x with clearing := false }) s := by
  rw [State.endClear, h]

theorem endClear_released {s : State} {c : Clear} (h : c.owner = none) : s.endClear c = (runFrames c.run).foldl (freed c.run.die) s := by
  rw [State.endClear, h]
  rfl

/-- The frames of a fill are their new owner's, or freed. -/
theorem endClear_spec (s : State) (c : Clear) : FramesOnly s (s.endClear c) ∧
    (∀ o, c.owner = some o → ∀ f ∈ runFrames c.run, (s.endClear c).frame f = (s.frame f).map fun x => { x with clearing := false }) ∧
    (c.owner = none → ∀ f ∈ runFrames c.run, (∀ x, s.frame f = some x → x.pend = false) → (s.endClear c).frame f = none) ∧
    ∀ f, f ∉ runFrames c.run → (s.endClear c).frame f = s.frame f := by
  cases ho : c.owner with
  | some o =>
    have hframe := mget_foldl_mmod (g := fun x : Frame => { x with clearing := false }) (fun _ => rfl) (runFrames c.run) s.lp.frames
    rw [endClear_assigned ho, foldl_modFrame]
    exact ⟨rfl, fun _ _ f hf => (hframe f).trans (if_pos hf), fun hn => absurd hn (Option.some_ne_none o), fun f hf => (hframe f).trans (if_neg hf)⟩
  | none =>
    obtain ⟨h1, h2, h3⟩ := foldl_freed c.run.die (runFrames c.run) s
    rw [endClear_released ho]
    exact ⟨h1, fun o hn => absurd hn.symm (Option.some_ne_none o), fun _ => h2, h3⟩

/-- Commands whose wait has ended are answered, and nothing else happens (R484). -/
theorem quiet_wake (s : State) (done : WaitOn → Bool) (st : Nat) : Quiet s (s.wake done st) := by
  unfold State.wake
  refine Quiet.foldl (fun t w h => h.trans ?_) _ ?_ <;> exact ⟨rfl, rfl⟩

/-- The one command that waits completes. -/
theorem wake_one {s : State} {w : Wait} {done : WaitOn → Bool} (st : Nat) (h : s.host.waits = [w]) (hd : done w.on = true) :
    (s.wake done st).host.waits = [] ∧ Answered s (s.wake done st) w.fn w.tag st w.result := by
  simp [State.wake, h, hd, Answered, State.respond]

theorem noAnswer_wr (s : State) (pg : Nat) (F0 : Field) (v : Nat) : NoAnswer s (s.wr pg F0 v) := ⟨rfl, rfl, rfl⟩

theorem noAnswer_recount (s : State) : NoAnswer s s.recount := by
  have h1 : NoAnswer s (s.capabilities.foldl (fun t c => t.wr pgMOD c.1 c.2) s) := by
    refine NoAnswer.foldl (fun t c => ?_) _ _
    exact noAnswer_wr t pgMOD c.1 c.2
  unfold State.recount
  extract_lets caps changed s1 s2 g s3
  have h2 : NoAnswer s s2 := (h1.trans (noAnswer_wr ..)).trans (noAnswer_wr ..)
  have h3 : NoAnswer s s3 := by
    simp only [s3]
    split
    · exact h2
    · exact (h2.trans (noAnswer_wr ..)).trans (noAnswer_raise ..)
  split
  · exact h3.trans (noAnswer_raise ..)
  · exact h3

/-- The store after a fill of raw zeros (R199), before its frames change hands. -/
def zeroed (s : State) (die : Fin 4) (c : Clear) : State :=
  ({ s with lp := { s.lp with clears := [] } }.zeroFrames (inRun c.run)).count (pgXLT die.val) 0x068 1

section
variable {die : Fin 4} {first : Nat} {s : State} {c : Clear}

/-- Its frames hold raw zeros. -/
theorem zeroed_spec (s : State) (die : Fin 4) (c : Clear) :
    (∀ a, bget (zeroed s die c).lp.mem a = if inRun c.run (a / 4096) = true then 0 else bget s.lp.mem a) ∧
      ∀ f, inRun c.run f = true → (zeroed s die c).frameZero f = true := by
  refine ⟨fun a => bget_mfilterOut (fun k => inRun c.run (k / 4096)) s.lp.mem a, fun f hf => ?_⟩
  have hnone : ∀ m : AMap Nat, ((mfilterOut (fun k => inRun c.run (k / 64)) m).any fun e => e.1 / 64 == f) = false := by
    intro m
    rw [List.any_eq_false]
    intro e he hef
    have hin : (!inRun c.run (e.1 / 64)) = true := (List.mem_filter.mp he).2
    rw [beq_iff_eq.mp hef, hf] at hin
    cases hin
  have hframes : (zeroed s die c).frameZero f = (!((mfilterOut (fun k => inRun c.run (k / 64)) s.lp.tag).any fun e => e.1 / 64 == f) &&
    !((mfilterOut (fun k => inRun c.run (k / 64)) s.lp.bad).any fun e => e.1 / 64 == f)) := rfl
  rw [hframes, hnone, hnone]
  rfl

/-- Whose wait the end of the fill ends. -/
def onFill (die first count : Nat) (w : WaitOn) : Bool :=
  match w with
  | .frames d f n => d == die && f == first && n == count
  | _ => false

variable (hc : s.lp.clears = [c]) (hd : c.run.die = die.val) (hf : c.run.first = first)
include hc hd hf

theorem exec_frameClearDone : exec (.frameClearDone die first) s =
    .next (((zeroed s die c).endClear c).recount.wake (onFill die.val first c.run.count) stCOMPLETE) := by
  change execFrameClearDone die first s = _
  simp only [execFrameClearDone, hc, List.find?_cons, hd, hf, beq_self_eq_true, Bool.and_self, List.erase_cons_head]
  rfl

theorem frameClearDone_zeros : ∃ t, exec (.frameClearDone die first) s = .next t ∧ t.lp.clears = [] ∧
    (∀ a, bget t.lp.mem a = if inRun c.run (a / 4096) = true then 0 else bget s.lp.mem a) ∧
    (∀ f, inRun c.run f = true → t.frameZero f = true) ∧
    (∀ o, c.owner = some o → ∀ f, f ∈ runFrames c.run → t.frame f = (s.frame f).map fun x => { x with clearing := false }) ∧
    (c.owner = none → ∀ f, f ∈ runFrames c.run → (∀ x, s.frame f = some x → x.pend = false) → t.frame f = none) ∧
    (∀ f, f ∉ runFrames c.run → t.frame f = s.frame f) ∧
    (∀ fn tag, s.host.waits = [{ fn := fn, tag := tag, on := .frames die.val first c.run.count, result := 0 }] →
      t.host.waits = [] ∧ Answered s t fn tag 0 0) := by
  obtain ⟨hmem, hzero⟩ := zeroed_spec s die c
  obtain ⟨hfields, hnew, hfree, hother⟩ := endClear_spec (zeroed s die c) c
  obtain ⟨hresps, hwaits, -⟩ := noAnswer_recount ((zeroed s die c).endClear c)
  have htlp : (((zeroed s die c).endClear c).recount.wake (onFill die.val first c.run.count) stCOMPLETE).lp =
      { (zeroed s die c).lp with frames := ((zeroed s die c).endClear c).lp.frames } := by
    rw [(quiet_wake ..).lp, (recount_quiet _).lp]
    rw [hfields]
  have hframe : ∀ f, (((zeroed s die c).endClear c).recount.wake (onFill die.val first c.run.count) stCOMPLETE).frame f =
      ((zeroed s die c).endClear c).frame f := fun f => by rw [State.frame, htlp]; rfl
  refine ⟨_, exec_frameClearDone hc hd hf, ?_, fun a => ?_, fun f hin => ?_, fun o ho f hrun => (hframe f).trans (hnew o ho f hrun),
    fun hn f hrun hp => (hframe f).trans (hfree hn f hrun hp), fun f hrun => (hframe f).trans (hother f hrun), fun fn tag hw => ?_⟩
  · rw [htlp]
    rfl
  · rw [htlp]
    exact hmem a
  · rw [State.frameZero, htlp]
    exact hzero f hin
  · have hhost : ((zeroed s die c).endClear c).host = s.host := by rw [hfields]; rfl
    have hone : ((zeroed s die c).endClear c).recount.host.waits = [{ fn := fn, tag := tag, on := .frames die.val first c.run.count, result := 0 }] := by
      rw [hwaits, hhost, hw]
    obtain ⟨hnone, hanswer⟩ := wake_one stCOMPLETE hone (done := onFill die.val first c.run.count) (by simp [onFill])
    refine ⟨hnone, hanswer.trans ?_⟩
    rw [hresps, hhost]

end

/-! ## XMAP (R203, R207) -/

/-- The tables that a mapping takes: only the list of tables changes. -/
theorem foldl_tabs (v : Nat) : ∀ (l : List Nat) (s : State), ∃ m, l.foldl (fun u k => { u with lp := { u.lp with tabs := nput u.lp.tabs k v } }) s =
    { s with lp := { s.lp with tabs := m } }
  | [], s => ⟨s.lp.tabs, rfl⟩
  | k :: l, s => by
    obtain ⟨m, h⟩ := foldl_tabs v l { s with lp := { s.lp with tabs := nput s.lp.tabs k v } }
    exact ⟨m, h⟩

theorem takeSys_spec (s : State) (n k : Nat) : Quiet s (s.takeSys n k) ∧ NoAnswer s (s.takeSys n k) := by
  have hq := (quiet_refl s).wri (pgXLT n) F.XLT_SYS_FREE 0 (s.rd (pgXLT n) F.XLT_SYS_FREE - k)
  have hn := noAnswer_wr s (pgXLT n) F.XLT_SYS_FREE (s.rd (pgXLT n) F.XLT_SYS_FREE - k)
  unfold State.takeSys
  extract_lets old s1
  split
  · exact ⟨hq.raise .., hn.trans (noAnswer_raise ..)⟩
  · exact ⟨hq, hn⟩

/-- The state with the tables that a 4 KiB mapping still needs taken from the system frames of die `n` (R203). -/
def tabled (s : State) (n c va : Nat) : State :=
  (s.tablesNeeded c va false).foldl (fun u k => { u with lp := { u.lp with tabs := nput u.lp.tabs k (n + 1) } })
    (s.takeSys n (2 * (s.tablesNeeded c va false).length))

theorem tabled_spec (s : State) (n c va : Nat) : (∃ m, (tabled s n c va).lp = { s.lp with tabs := m }) ∧ SameBytes s (tabled s n c va) ∧
    (tabled s n c va).host.resps = s.host.resps := by
  obtain ⟨hq, hresps, -, -⟩ := takeSys_spec s n (2 * (s.tablesNeeded c va false).length)
  obtain ⟨m, hm⟩ := foldl_tabs (n + 1) (s.tablesNeeded c va false) (s.takeSys n (2 * (s.tablesNeeded c va false).length))
  rw [tabled, hm]
  exact ⟨⟨m, by rw [hq.lp]⟩, hq.sameBytes.trans .of_eq, hresps⟩

/-- A frame that a further leaf maps; the first gives it its VA. -/
def mapped (va : Nat) (y : Frame) : Frame := { y with maps := y.maps + 1, va := if y.maps = 0 then bits va 12 30 else y.va }

/-- A 4 KiB leaf where there was none counts one mapping of its frame. -/
theorem writeLeaf_small {s : State} {key : Nat} (h : mget s.lp.leaves key = none) (va : Nat) (x : Leaf) : s.writeLeaf key va x false =
    { s with lp := { s.lp with
      frames := mmod s.lp.frames x.pa (mapped va), leaves := mput s.lp.leaves key x, lab := s.lp.lab.filter fun e => e % 2 ^ 42 != key } } := by
  rw [State.writeLeaf, h]
  rfl

section
variable {fn : Fin 32} {tag : Nat} {c : Fin 1024} {va pa : Nat} {w h : Bool} {s : State} {x : Frame}
variable (hp : Performs s fn.val 0x12) (hd : s.dieThere (pa / 2 ^ 37) = true) (ho : s.ctxOpen c.val = true) (hx : s.frame (pa / 4096) = some x)
  (hown : s.ownsFrame c.val (pa / 4096) = true) (hseal : h = true → s.ctxField F.CTXS_ENTRY_SEALED c.val ≠ 1) (hg : s.granule c.val va = none)
  (hmem : 2 * (s.tablesNeeded c.val va false).length ≤ s.rd (pgXLT (pa / 2 ^ 37)) F.XLT_SYS_FREE)
include hp hd ho hx hown hseal hg hmem

/-- A mapping that nothing forbids takes its tables and writes its leaf; frames of tables get no W (R259). -/
theorem exec_xmap : exec (.xmap fn tag c va pa false w h) s = .next ((((tabled (untake s fn.val tag 0x12) (pa / 2 ^ 37) c.val va).writeLeaf
    (smallKey c.val va) va { pa := pa / 4096, w := w && x.kind != 3, h := h } false).count (pgXLT (pa / 2 ^ 37)) 0x068 1).respond
      fn.val tag stCOMPLETE 0) := by
  have hd' : (untake s fn.val tag 0x12).dieThere (pa / 2 ^ 37) = true := hd
  have ho' : (untake s fn.val tag 0x12).ctxOpen c.val = true := ho
  have hx' : (untake s fn.val tag 0x12).frame (pa / 4096) = some x := hx
  have hown' : (untake s fn.val tag 0x12).ownsFrame c.val (pa / 4096) = true := hown
  have hg' : (untake s fn.val tag 0x12).granule c.val va = none := hg
  have hseal' : (h && (untake s fn.val tag 0x12).ctxField F.CTXS_ENTRY_SEALED c.val == 1) = false := by
    cases h with
    | false => rfl
    | true => exact beq_false_of_ne (hseal rfl)
  have hmem' : 2 * ((untake s fn.val tag 0x12).tablesNeeded c.val va false).length ≤
      (untake s fn.val tag 0x12).rd (pgXLT (pa / 2 ^ 37)) F.XLT_SYS_FREE := hmem
  change execXmap fn tag c va pa false w h s = _
  rw [execXmap, hp.command]
  generalize untake s fn.val tag 0x12 = t at hd' ho' hx' hown' hg' hseal' hmem' ⊢
  simp only [State.leafFrames, Bool.false_eq_true, if_false, List.any_cons, List.any_nil, hd', ho', hx', hown', hg', hseal', hmem'.not_gt,
    Option.any_some, Option.isSome_none, Bool.not_true, Bool.or_false]
  rfl

theorem xmap_maps (hleaf : mget s.lp.leaves (smallKey c.val va) = none) :
    ∃ t, exec (.xmap fn tag c va pa false w h) s = .next t ∧ Answered s t fn.val tag 0 0 ∧
      mget t.lp.leaves (smallKey c.val va) = some { pa := pa / 4096, w := w && x.kind != 3, h := h } ∧
      (∀ k, k ≠ smallKey c.val va → mget t.lp.leaves k = mget s.lp.leaves k) ∧
      (∃ y, t.frame (pa / 4096) = some y ∧ y.maps = x.maps + 1 ∧ y.owner = x.owner ∧ y.otype = x.otype) ∧
      (∀ f, f ≠ pa / 4096 → t.frame f = s.frame f) ∧ SameBytes s t := by
  refine ⟨_, exec_xmap hp hd ho hx hown hseal hg hmem, ?_⟩
  obtain ⟨⟨m, hlp⟩, hbytes, hresps⟩ := tabled_spec (untake s fn.val tag 0x12) (pa / 2 ^ 37) c.val va
  generalize tabled (untake s fn.val tag 0x12) (pa / 2 ^ 37) c.val va = u at hlp hbytes hresps ⊢
  have hleaves : u.lp.leaves = s.lp.leaves := by rw [hlp]; rfl
  have hframes : u.lp.frames = s.lp.frames := by rw [hlp]; rfl
  have hbytes' : SameBytes s u := (SameBytes.of_eq : SameBytes s (untake s fn.val tag 0x12)).trans hbytes
  rw [writeLeaf_small (by rw [hleaves]; exact hleaf), hleaves, hframes]
  refine ⟨?_, mget_mput_self .., fun k hk => mget_mput_ne _ _ hk, ⟨mapped va x, ?_, rfl, rfl, rfl⟩, fun f hf => mget_mmod_ne _ _ hf,
    hbytes'.trans .of_eq⟩
  · exact congrArg (· ++ _) hresps
  · exact (mget_mmod_self ..).trans (congrArg (Option.map (mapped va)) hx)

end

/-! ## XUNMAP (R207) -/

/-- A 4 KiB leaf that goes counts one mapping of its frame less. -/
theorem clearLeaf_small (s : State) (key : Nat) (x : Leaf) : s.clearLeaf key x false =
    { s with lp := { s.lp with
      frames := mmod s.lp.frames x.pa fun y => { y with maps := y.maps - 1 }
      leaves := mdel s.lp.leaves key
      lab := s.lp.lab.filter fun e => e % 2 ^ 42 != key } } := rfl

section
variable {fn : Fin 32} {tag : Nat} {c : Fin 1024} {va : Nat} {s : State}
variable (hp : Performs s fn.val 0x13) (hbig : mget s.lp.leaves (bigKey c.val va) = none)
include hp hbig

theorem exec_xunmap_small {x : Leaf} (hx : mget s.lp.leaves (smallKey c.val va) = some x) : exec (.xunmap fn tag c va) s =
    .next ((((untake s fn.val tag 0x13).clearLeaf (smallKey c.val va) x false).count (pgXLT (frameDie x.pa)) 0x068 1).respond
      fn.val tag stCOMPLETE 0) := by
  have hbig' : mget (untake s fn.val tag 0x13).lp.leaves (bigKey c.val va) = none := hbig
  have hx' : mget (untake s fn.val tag 0x13).lp.leaves (smallKey c.val va) = some x := hx
  change execXunmap fn tag c va s = _
  rw [execXunmap, hp.command]
  simp only [hbig', hx']

theorem exec_xunmap_none (hx : mget s.lp.leaves (smallKey c.val va) = none) : exec (.xunmap fn tag c va) s =
    .next ((untake s fn.val tag 0x13).respond fn.val tag stFAULT 0) := by
  have hbig' : mget (untake s fn.val tag 0x13).lp.leaves (bigKey c.val va) = none := hbig
  have hx' : mget (untake s fn.val tag 0x13).lp.leaves (smallKey c.val va) = none := hx
  change execXunmap fn tag c va s = _
  rw [execXunmap, hp.command]
  simp only [hbig', hx']

theorem xunmap_clears {x : Leaf} {y : Frame} (hx : mget s.lp.leaves (smallKey c.val va) = some x) (hy : s.frame x.pa = some y) :
    ∃ t, exec (.xunmap fn tag c va) s = .next t ∧ Answered s t fn.val tag 0 0 ∧ mget t.lp.leaves (smallKey c.val va) = none ∧
      (∀ k, k ≠ smallKey c.val va → mget t.lp.leaves k = mget s.lp.leaves k) ∧ t.frame x.pa = some { y with maps := y.maps - 1 } ∧
      t.regs = s.regs ∧ SameBytes s t := by
  refine ⟨_, exec_xunmap_small hp hbig hx, ?_⟩
  rw [clearLeaf_small]
  exact ⟨rfl, mget_mdel_self .., fun k hk => mget_mdel_ne _ hk,
    (mget_mmod_self ..).trans (congrArg (Option.map fun y : Frame => { y with maps := y.maps - 1 }) hy), rfl, .of_eq⟩

theorem xunmap_none (hx : mget s.lp.leaves (smallKey c.val va) = none) :
    ∃ t, exec (.xunmap fn tag c va) s = .next t ∧ Answered s t fn.val tag stFAULT 0 ∧ t.lp = s.lp :=
  ⟨_, exec_xunmap_none hp hbig hx, rfl, rfl⟩

end

/-- Settles O32: frames are given, cleared and freed run by run, and a leaf counts the mappings of its frame. -/
theorem framesAndMappings : Obligations.FramesAndMappings := by
  unfold Obligations.FramesAndMappings
  refine ⟨⟨fun fn tag isDomain owner kind r s hp hd ho hr hk hfree hw => ⟨frameAssign_zeros hp hd ho hr hk hfree hw,
      frameAssign_clears hp hd ho hr hk hfree hw⟩, fun fn tag isDomain owner r s hp hd hw hc hown => frameRelease_clears hp hd hw hc hown,
      fun die first s c hc hd hf => frameClearDone_zeros hc hd hf⟩,
    fun fn tag c va pa w h s x hp hd ho hx hown hseal hg hmem hleaf => xmap_maps hp hd ho hx hown hseal hg hmem hleaf,
    fun fn tag c va s hp hbig => ⟨fun x y hx hy => xunmap_clears hp hbig hx hy, fun hx => xunmap_none hp hbig hx⟩⟩

end Sys2Proof
end

section
/-! PROOF. O33: the patrol, the retirement of channels, and the recovery of a cask's frame (R209–R215, R443). -/

namespace Sys2Proof

set_option Elab.async false

open Machine

/-! ## The patrol reads a line (R211, R212) -/

/-- The check of the schedule touches the groups found late, and tells of them. -/
theorem patrolLate_spec (s : State) (pg : Nat) : (∃ m, Quiet { s with lp := { s.lp with patLate := m } } (s.patrolLate pg)) ∧
    (∀ p off, p * 4096 + off ≠ msgCtr → (s.patrolLate pg).ctr p off = s.ctr p off) ∧ ∀ p, Onward p s (s.patrolLate pg) := by
  unfold State.patrolLate
  extract_lets clk due late lp0
  split
  · exact ⟨⟨_, (quiet_refl { s with lp := { s.lp with patLate := nput s.lp.patLate pg 1 } }).raise ..⟩, fun p off h => ctr_raise _ _ _ h,
      fun p => Onward.raise (Onward.of (Onward.refl p s))⟩
  · split
    · exact ⟨⟨s.lp.patLate, quiet_refl s⟩, fun p off h => rfl, fun p => .refl p s⟩
    · exact ⟨⟨_, quiet_refl { s with lp := { s.lp with patLate := mdel s.lp.patLate pg } }⟩, fun p off h => rfl, fun p => Onward.of (Onward.refl p s)⟩

/-- The state with a further line of a channel read: `pos` lines were read before. -/
def patrolled (s : State) (n g ch pos : Nat) : State :=
  (({ s with lp := { s.lp with patPos := nput s.lp.patPos (32 * n + (8 * g + ch)) (pos + 1) } }).showPatrol n g).count (pgLPG n g) 0x06C 1

theorem patrolled_lp (s : State) (n g ch pos : Nat) :
    (patrolled s n g ch pos).lp = { s.lp with patPos := nput s.lp.patPos (32 * n + (8 * g + ch)) (pos + 1) } := rfl

theorem sameBytes_patrolled (s : State) (n g ch pos : Nat) : SameBytes s (patrolled s n g ch pos) := .of_eq

theorem ctr_patrolled (s : State) (n g ch pos : Nat) : (patrolled s n g ch pos).ctr (pgLPG n g) 0x06C = s.ctr (pgLPG n g) 0x06C + 1 :=
  State.ctr_count_self ..

/-- The state after a confirmed detection of the patrol in a frame. -/
def patrolHit (s : State) (pg f : Nat) : State := ((s.confirm f false).raise pg 2).count pg 0x070 1

/-- A line rewritten with raw zeros. -/
def zeroLine (s : State) (l : Nat) : State :=
  { s with lp := { s.lp with tag := mdel s.lp.tag l, bad := mdel s.lp.bad l, mem := bzero s.lp.mem (64 * l) 64 } }

theorem quiet_patrolHit (s : State) (pg f : Nat) : ∃ d q, Quiet { s with lp := detectedIn s.lp f d q } (patrolHit s pg f) := by
  obtain ⟨⟨d, q, h⟩, -⟩ := confirm_spec s f false
  unfold patrolHit
  exact ⟨d, q, (h.raise ..).count ..⟩

theorem frame_patrolHit (s : State) (pg f : Nat) : (patrolHit s pg f).frame f = (s.frame f).map hit := by
  rw [← frame_confirm s f false, State.frame, State.frame, patrolHit, State.count_lp, State.raise_lp]

theorem raised_patrolHit (s : State) (pg f : Nat) : Raised (patrolHit s pg f) pg 2 := by
  unfold patrolHit
  exact raised_congr (State.count_regs ..) (raised_raise _ pg 2 (by decide))

theorem bget_bzero (m : AMap Byte) (a n x : Nat) : bget (bzero m a n) x = if a ≤ x ∧ x < a + n then 0 else bget m x := by
  rw [bzero, bget_mfilterOut]
  exact if_congr decide_eq_true_iff rfl rfl

theorem zeroLine_spec (s : State) (l : Nat) : nget (zeroLine s l).lp.bad l = 0 ∧
    ∀ a, bget (zeroLine s l).lp.mem a = if a / 64 = l then 0 else bget s.lp.mem a := by
  refine ⟨congrArg (Option.getD · 0) (mget_mdel_self s.lp.bad l), fun a => (bget_bzero s.lp.mem (64 * l) 64 a).trans ?_⟩
  exact if_congr (by omega) rfl rfl

theorem patPos_patrolled (s : State) (n g ch pos : Nat) : nget (patrolled s n g ch pos).lp.patPos (32 * n + (8 * g + ch)) = pos + 1 :=
  nget_nput_self s.lp.patPos (32 * n + (8 * g + ch)) (pos + 1)

section
variable {die group : Fin 4} {ch : Fin 8} {s : State} {pos l : Nat}
variable (hpos : pos = nget s.lp.patPos (32 * die.val + (8 * group.val + ch.val)))
  (hl : l = (die.val * 2 ^ 25 + pos / 64 * 32 + (8 * group.val + ch.val)) * 64 + pos % 64) (hready : s.ready = true)
  (hu : s.hasUnit (pgDIE die.val) = true) (hon : s.on (pgLPG die.val group.val) F.LPG_PATROL_EN = true)
  (hch : s.chanRetired die.val (8 * group.val + ch.val) = false) (hlt : pos < linesPerChannel) (hbad : nget s.lp.bad l = 0)
include hpos hl hready hu hon hch hlt hbad

/-- The line is read and judged, then the schedule is checked. A line that reads good, at once or again, is left; one that nobody owns, bad twice, is
rewritten with zeros. -/
theorem exec_patrolRead (fail1 fail2 : Bool) :
    ∃ u, exec (.patrolRead die group ch fail1 fail2 false) s = .next (u.patrolLate (pgLPG die.val group.val)) ∧
      ((fail1 = false ∨ fail2 = false) → u = if fail1 then (patrolled s die.val group.val ch.val pos).count (pgLPG die.val group.val) 0x05C 1
        else patrolled s die.val group.val ch.val pos) ∧
      (fail1 = true → fail2 = true → s.frame (l / 64) = none →
        u = zeroLine (patrolHit (patrolled s die.val group.val ch.val pos) (pgLPG die.val group.val) (l / 64)) l) := by
  change ∃ u, execPatrolRead die group ch fail1 fail2 false s = _ ∧ _
  unfold execPatrolRead
  extract_lets pg chan gch pos' f l' lp0 s0 s1 how s2 lp2 s3
  have hp' : pos' = pos := hpos.symm
  have hl' : l' = l := by rw [hl, ← hp']
  have hf' : f = l / 64 := by
    rw [hl, ← hp']
    change f = (f * 64 + pos' % 64) / 64
    omega
  have hs1 : s1 = patrolled s die.val group.val ch.val pos := by rw [← hp']; rfl
  have hb1 : nget s1.lp.bad l' = 0 := by rw [hl']; exact hbad
  have hhow : how = if (fail1 && fail2) = true then 2 else 0 := if_neg (not_not_intro hb1)
  refine ⟨s3, ?_, fun hgood => ?_, fun h1 h2 hfree => ?_⟩
  · have hgo : (s.chanRetired die.val chan || decide (linesPerChannel ≤ pos')) = false := by
      rw [hp', hch, decide_eq_false hlt.not_ge]
      rfl
    rw [hready, hu, hgo, if_neg (by decide), if_neg (by rw [hon]; decide), if_neg (by decide)]
  · have hno : (fail1 && fail2) = false := by rcases hgood with h | h <;> simp [h]
    rw [← hs1]
    exact if_pos (by rw [hhow, hno]; rfl)
  · have htwice : how = 2 := by rw [hhow, h1, h2]; rfl
    have hs2 : s2 = patrolHit (patrolled s die.val group.val ch.val pos) pg (l / 64) := by
      rw [← hs1, ← hf']
      simp only [s2, htwice]
      rfl
    have hnone : s2.frame f = none := by
      rw [hs2, hf', frame_patrolHit]
      exact congrArg (Option.map hit) hfree
    rw [← hs2]
    simp only [s3, htwice, hnone, hl', Bool.false_eq_true, if_false]
    rfl

theorem patrolRead_good {fail1 fail2 : Bool} (hgood : fail1 = false ∨ fail2 = false) :
    ∃ t, exec (.patrolRead die group ch fail1 fail2 false) s = .next t ∧
      nget t.lp.patPos (32 * die.val + (8 * group.val + ch.val)) = pos + 1 ∧
      t.ctr (pgLPG die.val group.val) 0x06C = s.ctr (pgLPG die.val group.val) 0x06C + 1 ∧ SameBytes s t := by
  obtain ⟨u, hexec, hu', -⟩ := exec_patrolRead hpos hl hready hu hon hch hlt hbad fail1 fail2
  have hlp : u.lp = (patrolled s die.val group.val ch.val pos).lp := by rw [hu' hgood]; split <;> rfl
  have hctr : u.ctr (pgLPG die.val group.val) 0x06C = s.ctr (pgLPG die.val group.val) 0x06C + 1 := by
    rw [hu' hgood]
    split
    · exact (State.ctr_count_ne _ _ ctr_ne_of_off).trans (ctr_patrolled ..)
    · exact ctr_patrolled ..
  have hbytes : SameBytes s u := by rw [hu' hgood]; split <;> exact .of_eq
  obtain ⟨⟨m, hq⟩, hlate, -⟩ := patrolLate_spec u (pgLPG die.val group.val)
  refine ⟨_, hexec, ?_, (hlate _ _ ctr_ne_of_off).trans hctr, hbytes.trans (SameBytes.trans .of_eq hq.sameBytes)⟩
  rw [hq.lp]
  exact (congrArg (fun m : LpSt => nget m.patPos _) hlp).trans (patPos_patrolled ..)

theorem patrolRead_free (hfree : s.frame (l / 64) = none) :
    ∃ t, exec (.patrolRead die group ch true true false) s = .next t ∧
      nget t.lp.patPos (32 * die.val + (8 * group.val + ch.val)) = pos + 1 ∧ Raised t (pgLPG die.val group.val) 2 ∧ nget t.lp.bad l = 0 ∧
      ∀ a, bget t.lp.mem a = if a / 64 = l then 0 else bget s.lp.mem a := by
  obtain ⟨u, hexec, -, hu'⟩ := exec_patrolRead hpos hl hready hu hon hch hlt hbad true true
  obtain rfl := hu' rfl rfl hfree
  obtain ⟨⟨m, hq⟩, -, honward⟩ := patrolLate_spec
    (zeroLine (patrolHit (patrolled s die.val group.val ch.val pos) (pgLPG die.val group.val) (l / 64)) l) (pgLPG die.val group.val)
  obtain ⟨d, q, hhit⟩ := quiet_patrolHit (patrolled s die.val group.val ch.val pos) (pgLPG die.val group.val) (l / 64)
  have hraised := raised_patrolHit (patrolled s die.val group.val ch.val pos) (pgLPG die.val group.val) (l / 64)
  generalize patrolHit (patrolled s die.val group.val ch.val pos) (pgLPG die.val group.val) (l / 64) = t at hexec hq honward hhit hraised
  obtain ⟨hgood, hmem⟩ := zeroLine_spec t l
  have hpatPos : t.lp.patPos = nput s.lp.patPos (32 * die.val + (8 * group.val + ch.val)) (pos + 1) := by rw [hhit.lp]; rfl
  have hbytes : t.lp.mem = s.lp.mem := by rw [hhit.lp]; rfl
  refine ⟨_, hexec, ?_, (honward _).events 2 (by decide) (raised_congr rfl hraised), ?_, fun a => ?_⟩ <;> rw [hq.lp]
  · exact (congrArg (nget · _) hpatPos).trans (nget_nput_self ..)
  · exact hgood
  · exact (hmem a).trans (by rw [hbytes])

end

/-! ## A pass of the patrol ends (R212) -/

section
variable {die group : Fin 4} {s : State}

/-- The state with the pass of a group started again. -/
def passStarted (s : State) (die group : Fin 4) : State :=
  { s with lp := { s.lp with
    patPos := mfilterOut (fun ch => ch / 8 == 4 * die.val + group.val) s.lp.patPos
    chDet := mfilterOut (fun ch => ch / 8 == 4 * die.val + group.val) s.lp.chDet
    patClk := nput s.lp.patClk (pgLPG die.val group.val) s.now
    patLate := mdel s.lp.patLate (pgLPG die.val group.val)
    frames := s.lp.frames.map fun (e : Nat × Frame) =>
      if frameGroup e.1 = pgLPG die.val group.val then (e.1, { e.2 with detect := 0 }) else e } }

theorem exec_patrolPassEnd (hsome : ∃ c, c < 8 ∧ s.chanRetired die.val (8 * group.val + c) = false)
    (hall : ∀ c, c < 8 → s.chanRetired die.val (8 * group.val + c) = false →
      nget s.lp.patPos (32 * die.val + 8 * group.val + c) = linesPerChannel) :
    exec (.patrolPassEnd die group) s = .next (((passStarted s die group).wr (pgLPG die.val group.val) F.LPG_PATROL_POS 0).wr
      (pgLPG die.val group.val) F.LPG_PATROL_PASSES (s.rd (pgLPG die.val group.val) F.LPG_PATROL_PASSES + 1)) := by
  have hchs : (((List.range 8).filter fun c => !s.chanRetired die.val (8 * group.val + c)).isEmpty ||
      ((List.range 8).filter fun c => !s.chanRetired die.val (8 * group.val + c)).any fun c =>
        nget s.lp.patPos (32 * die.val + 8 * group.val + c) != linesPerChannel) = false := by
    rw [Bool.or_eq_false_iff, List.any_eq_false]
    constructor
    · obtain ⟨c, hc, hin⟩ := hsome
      refine List.isEmpty_eq_false_iff_exists_mem.mpr ⟨c, List.mem_filter.mpr ⟨List.mem_range.mpr hc, ?_⟩⟩
      rw [hin]
      rfl
    · intro c hc
      obtain ⟨hlt, hin⟩ := List.mem_filter.mp hc
      rw [hall c (List.mem_range.mp hlt) (by simpa using hin)]
      decide
  change execPatrolPassEnd die group s = _
  unfold execPatrolPassEnd
  extract_lets pg chs mine lp0 s1
  rw [if_neg (by rw [hchs]; decide)]
  rfl

theorem patrolPassEnd_restarts (hsome : ∃ c, c < 8 ∧ s.chanRetired die.val (8 * group.val + c) = false)
    (hall : ∀ c, c < 8 → s.chanRetired die.val (8 * group.val + c) = false →
      nget s.lp.patPos (32 * die.val + 8 * group.val + c) = linesPerChannel) :
    ∃ t, exec (.patrolPassEnd die group) s = .next t ∧ t.rd (pgLPG die.val group.val) F.LPG_PATROL_POS = 0 ∧
      t.rd (pgLPG die.val group.val) F.LPG_PATROL_PASSES = (s.rd (pgLPG die.val group.val) F.LPG_PATROL_PASSES + 1) % 2 ^ F.LPG_PATROL_PASSES.width ∧
      (∀ c, c < 8 → nget t.lp.patPos (32 * die.val + 8 * group.val + c) = 0 ∧ nget t.lp.chDet (32 * die.val + 8 * group.val + c) = 0) ∧
      (∀ f x, t.frame f = some x → frameGroup f = pgLPG die.val group.val → x.detect = 0) ∧ SameBytes s t := by
  have hmine : ∀ (m : AMap Nat) (c : Nat), c < 8 →
      nget (mfilterOut (fun ch => ch / 8 == 4 * die.val + group.val) m) (32 * die.val + 8 * group.val + c) = 0 := by
    intro m c hc
    rw [nget, ngetD, mget_mfilterOut, if_pos (by rw [beq_iff_eq]; omega)]
    rfl
  refine ⟨_, exec_patrolPassEnd hsome hall, ?_, State.rdi_wri_self .., fun c hc => ⟨hmine _ c hc, hmine _ c hc⟩, fun f x hx hgroup => ?_, .of_eq⟩
  · rw [State.rd, State.rdi_wri_ne _ _ (fkey_ne_on_page _ (by decide)), State.rdi_wri_self]
    rfl
  · change mget (s.lp.frames.map _) f = some x at hx
    rw [mget_map fun e => by split <;> rfl, Option.map_eq_some_iff] at hx
    obtain ⟨y, -, rfl⟩ := hx
    rw [if_pos hgroup]

end

/-! ## A channel leaves service (R214, R215) -/

/-- Fields behind a page's header are no part of an event. -/
theorem rdi_raise_behind (s : State) (pg bit : Nat) {p i : Nat} {F0 : Field} (h : 0x80 * 32 ≤ fkey p F0 i % 131072) :
    (s.raise pg bit).rdi p F0 i = s.rdi p F0 i := State.rdi_raise_ne _ (fkey_ne_latched h (by decide) (by decide))

/-- Nor of a captured fault. -/
theorem rdi_capture_behind (s : State) (pg code loc : Nat) (ctx : Option Nat) {p i : Nat} {F0 : Field} (h : 0x80 * 32 ≤ fkey p F0 i % 131072) :
    (s.capture pg code loc ctx).rdi p F0 i = s.rdi p F0 i := by
  have hwr : ∀ (t : State) (F1 : Field) (v : Nat), F1.off + F1.stride * 0 < 0x80 → F1.lo < 32 → (t.wr pg F1 v).rdi p F0 i = t.rdi p F0 i :=
    fun t F1 v h1 hlo => State.rdi_wri_ne t v (fkey_ne_latched h h1 hlo)
  unfold State.capture
  split
  · exact hwr _ _ _ (by decide) (by decide)
  · rw [rdi_raise_behind _ _ _ h, hwr, hwr, hwr, hwr, hwr, hwr, hwr] <;> decide

theorem nbit_mod (a : Nat) {w i : Nat} (h : i < w) : nbit (a % 2 ^ w) i = nbit a i := by
  rw [nbit_eq_testBit, nbit_eq_testBit, Nat.testBit_mod_two_pow, decide_eq_true h, Bool.true_and]

/-- The state with a channel out of service and the retirement noted, before the die's list names it. -/
def channelLeft (s : State) (n ch : Nat) : State :=
  (({ s with lp := { s.lp with chDue := s.lp.chDue.filter fun c => c != 32 * n + ch } }).dropChannel n ch).noteRetired

theorem quiet_channelLeft (s : State) (n ch : Nat) :
    Quiet { s with lp := { s.lp with chDue := s.lp.chDue.filter fun c => c != 32 * n + ch } } (channelLeft s n ch) := by
  unfold channelLeft State.dropChannel State.noteRetired
  extract_lets pg t
  exact ((((((quiet_refl _).wri ..).wri ..).raise ..).capture ..).raise ..).count ..

theorem chanRetired_channelLeft (s : State) (n ch : Nat) : (channelLeft s n ch).chanRetired n ch = true := by
  have hbehind : 0x80 * 32 ≤ fkey (pgLPG n (ch / 8)) F.LPG_CH_SVC 0 % 131072 := by
    simp only [fkey, F.LPG_CH_SVC]
    omega
  have hsvc : (channelLeft s n ch).rd (pgLPG n (ch / 8)) F.LPG_CH_SVC = clrBit (s.rd (pgLPG n (ch / 8)) F.LPG_CH_SVC) (ch % 8) % 2 ^ 8 := by
    unfold channelLeft State.dropChannel State.noteRetired
    rw [State.rd, State.rdi_count, rdi_raise_behind _ _ _ hbehind, rdi_capture_behind _ _ _ _ _ hbehind, rdi_raise_behind _ _ _ hbehind,
      State.rdi_wri_ne _ _ (fkey_ne_on_page _ (by decide)), State.rdi_wri_self]
    rfl
  rw [State.chanRetired, hsvc, nbit_mod _ (by omega), nbit_clrBit]
  rfl

theorem raised_channelLeft (s : State) (n ch : Nat) : Raised (channelLeft s n ch) (pgLPG n (ch / 8)) 4 := by
  unfold channelLeft State.dropChannel
  extract_lets pg t
  exact (Onward.refl _ _).capture.noteRetired.events 4 (by decide) (raised_raise _ _ 4 (by decide))

/-- The state with channel `ch` in place `k` of its die's retired list (R219), and the pass over its frames begun. -/
def channelListed (s : State) (n ch k : Nat) : State :=
  let t := ((s.wri (pgXLT n) F.XLT_RET_LIST_VALID k 1).wri (pgXLT n) F.XLT_RET_LIST_CH k ch).wr (pgXLT n) F.XLT_RSET_NOW (k + 1)
  { t with lp := { t.lp with passes := t.lp.passes ++ [32 * n + ch] } }

theorem retireChannel_listed {s : State} {n ch : Nat} (hin : s.chanRetired n ch = false) (hdie : s.isRetired (pgDIE n) = false)
    (hroom : (s.retList n).length < 7) : s.retireChannel n ch = channelListed (channelLeft s n ch) n ch (s.retList n).length := by
  unfold State.retireChannel
  extract_lets lp0 s0 k s1 s2
  have hin' : s0.chanRetired n ch = false := hin
  have hdie' : s0.isRetired (pgDIE n) = false := hdie
  have hk : k = (s.retList n).length := rfl
  have hs1 : s1 = channelLeft s n ch := rfl
  rw [hin', hdie', if_neg (by decide), if_neg (by omega), ← hs1, ← hk]
  rfl

/-- The fields of a channel's place in its die's list lie behind the headers and in their page. -/
theorem inPage_retList {k : Nat} (h : k < 7) : inPage F.XLT_RET_LIST_VALID k = true ∧ inPage F.XLT_RET_LIST_CH k = true := by
  constructor <;> refine decide_eq_true ⟨by decide, ?_, by decide⟩
  · simp only [F.XLT_RET_LIST_VALID]; omega
  · simp only [F.XLT_RET_LIST_CH]; omega

section
variable (s : State) {n ch k : Nat}

theorem sameBytes_channelListed : SameBytes s (channelListed s n ch k) := by
  unfold channelListed
  extract_lets t
  have ht : Quiet s t := (((quiet_refl s).wri ..).wri ..).wri ..
  exact ht.sameBytes.trans .of_eq

theorem Onward.channelListed {p : Nat} {z : State} {s : State} (h : Onward p z s) (hk : k < 7) : Onward p z (channelListed s n ch k) := by
  obtain ⟨hvalid, hch⟩ := inPage_retList hk
  have h3 := ((h.wri (pg := pgXLT n) (v := 1) hvalid).wri (pg := pgXLT n) (v := ch) hch).wri (pg := pgXLT n) (F0 := F.XLT_RSET_NOW) (i := 0) (v := k + 1)
  exact h3.of

/-- The list stands in the page of the translation unit, above those of the groups. -/
theorem chanRetired_channelListed (hch : ch < 32) : (channelListed s n ch k).chanRetired n ch = s.chanRetired n ch := by
  have hne : ∀ (F0 : Field) (i : Nat), fkey (pgLPG n (ch / 8)) F.LPG_CH_SVC 0 ≠ fkey (pgXLT n) F0 i := by
    intro F0 i
    simp only [fkey, F.LPG_CH_SVC, pgLPG, pgXLT]
    omega
  have hsvc : (channelListed s n ch k).rd (pgLPG n (ch / 8)) F.LPG_CH_SVC = s.rd (pgLPG n (ch / 8)) F.LPG_CH_SVC :=
    (State.rdi_wri_ne _ _ (hne _ _)).trans ((State.rdi_wri_ne _ _ (hne _ _)).trans (State.rdi_wri_ne _ _ (hne _ _)))
  rw [State.chanRetired, hsvc]
  rfl

theorem fields_channelListed (hk : k < 7) (hch : ch < 32) : (channelListed s n ch k).rdi (pgXLT n) F.XLT_RET_LIST_CH k = ch ∧
    (channelListed s n ch k).rdi (pgXLT n) F.XLT_RET_LIST_VALID k = 1 ∧ (channelListed s n ch k).rd (pgXLT n) F.XLT_RSET_NOW = k + 1 := by
  have hset : fkey (pgXLT n) F.XLT_RET_LIST_CH k ≠ fkey (pgXLT n) F.XLT_RSET_NOW 0 ∧
      fkey (pgXLT n) F.XLT_RET_LIST_VALID k ≠ fkey (pgXLT n) F.XLT_RSET_NOW 0 ∧
      fkey (pgXLT n) F.XLT_RET_LIST_VALID k ≠ fkey (pgXLT n) F.XLT_RET_LIST_CH k := by
    simp only [fkey, F.XLT_RET_LIST_CH, F.XLT_RET_LIST_VALID, F.XLT_RSET_NOW]
    omega
  obtain ⟨h1, h2, h3⟩ := hset
  refine ⟨(State.rdi_wri_ne _ _ h1).trans ((State.rdi_wri_self ..).trans (Nat.mod_eq_of_lt hch)),
    (State.rdi_wri_ne _ _ h2).trans ((State.rdi_wri_ne _ _ h3).trans (State.rdi_wri_self ..)),
    (State.rdi_wri_self ..).trans (Nat.mod_eq_of_lt ?_)⟩
  change k + 1 < 8
  omega

end

theorem channelRetire_retires {n ch : Nat} {rest : List Nat} {s : State} (hch : ch < 32) (hdue : s.lp.chDue = (32 * n + ch) :: rest)
    (hin : s.chanRetired n ch = false) (hdie : s.isRetired (pgDIE n) = false) (hroom : (s.retList n).length < 7) :
    ∃ t, exec .channelRetire s = .next t ∧ (∀ c ∈ t.lp.chDue, c ≠ 32 * n + ch) ∧ t.lp.passes = s.lp.passes ++ [32 * n + ch] ∧
      t.chanRetired n ch = true ∧ t.rdi (pgXLT n) F.XLT_RET_LIST_CH (s.retList n).length = ch ∧
      t.rdi (pgXLT n) F.XLT_RET_LIST_VALID (s.retList n).length = 1 ∧ t.rd (pgXLT n) F.XLT_RSET_NOW = (s.retList n).length + 1 ∧
      Raised t (pgLPG n (ch / 8)) 4 ∧ SameBytes s t := by
  have hexec : exec .channelRetire s = .next (channelListed (channelLeft s n ch) n ch (s.retList n).length).recount := by
    change execChannelRetire s = _
    simp only [execChannelRetire, hdue]
    rw [show (32 * n + ch) / 32 = n by omega, show (32 * n + ch) % 32 = ch by omega, retireChannel_listed hin hdie hroom]
  have hq := quiet_channelLeft s n ch
  have hretired := chanRetired_channelLeft s n ch
  have hraised := raised_channelLeft s n ch
  generalize channelLeft s n ch = u at hexec hq hretired hraised
  have hlp : (channelListed u n ch (s.retList n).length).recount.lp = { u.lp with passes := u.lp.passes ++ [32 * n + ch] } := (recount_quiet _).lp
  obtain ⟨hfch, hfvalid, hfset⟩ := fields_channelListed u (n := n) hroom hch
  have habove : ∀ (F0 : Field) (i : Nat), (channelListed u n ch (s.retList n).length).recount.rdi (pgXLT n) F0 i =
      (channelListed u n ch (s.retList n).length).rdi (pgXLT n) F0 i := fun F0 i => rdi_recount_above _ (by simp only [pgBIST, pgXLT]; omega)
  refine ⟨_, hexec, fun c hc => ?_, ?_, ?_, (habove ..).trans hfch, (habove ..).trans hfvalid, (habove ..).trans hfset,
    ((Onward.refl _ u).channelListed hroom).recount.events 4 (by decide) hraised, ?_⟩
  · rw [hlp, hq.lp] at hc
    simpa using (List.mem_filter.mp hc).2
  · rw [hlp, hq.lp]
  · rw [State.chanRetired, State.rd, rdi_recount_above _ (by simp only [pgBIST, pgLPG]; omega)]
    exact (chanRetired_channelListed u hch).trans hretired
  · exact (((SameBytes.of_eq : SameBytes s _).trans hq.sameBytes).trans (sameBytes_channelListed u)).trans (recount_quiet _).sameBytes

/-! ## The pass over a retired channel's frames (R215) -/

/-- The frames that satisfy `p` read retired. -/
def framesGone (s : State) (p : Nat → Bool) : State :=
  { s with lp := { s.lp with
    frames := s.lp.frames.map fun (e : Nat × Frame) => if p e.1 then (e.1, { e.2 with otype := 3, owner := 0 }) else e
    recov := s.lp.recov.filter fun e => !p e.1 } }

theorem frame_framesGone (s : State) (p : Nat → Bool) (f : Nat) :
    (framesGone s p).frame f = (s.frame f).map fun x => if p f then { x with otype := 3, owner := 0 } else x := by
  have hmap := mget_map (g := fun (e : Nat × Frame) => if p e.1 then (e.1, { e.2 with otype := 3, owner := 0 }) else e)
    (fun e => by split <;> rfl) s.lp.frames f
  refine hmap.trans (congrArg (Option.map · (s.frame f)) (funext fun x => ?_))
  split <;> rfl

/-- A frame stands on the channel `ch` of die `n`. -/
def onChannel (n ch f : Nat) : Bool := frameDie f == n && frameChan f == ch

theorem onChannel_iff {n ch f : Nat} : onChannel n ch f = true ↔ frameDie f = n ∧ frameChan f = ch := by
  simp [onChannel]

theorem retirePassDone_retires {c : Nat} {rest : List Nat} {s : State} (hpass : s.lp.passes = c :: rest) :
    ∃ t, exec .retirePassDone s = .next t ∧ t.lp.passes = rest ∧ Raised t (pgXLT (c / 32)) 3 ∧ SameBytes s t ∧
      (∀ f x, s.frame f = some x → frameDie f = c / 32 → frameChan f = c % 32 → ∃ y, t.frame f = some y ∧ y.otype = 3) ∧
      ∀ f, ¬(frameDie f = c / 32 ∧ frameChan f = c % 32) → t.frame f = s.frame f := by
  have hlost := noted_memLost { s with lp := { s.lp with passes := rest } } (onChannel (c / 32) (c % 32))
  obtain ⟨u, hu⟩ : ∃ u, State.memLost { s with lp := { s.lp with passes := rest } } (onChannel (c / 32) (c % 32)) = u := ⟨_, rfl⟩
  rw [hu] at hlost
  obtain ⟨k, hexec⟩ : ∃ k, exec .retirePassDone s =
      .next (((framesGone u (onChannel (c / 32) (c % 32))).bump (pgXLT (c / 32)) F.XLT_RETIRED_FRAMES k).raise (pgXLT (c / 32)) 3) := by
    subst hu
    change ∃ k, execRetirePassDone s = _
    simp only [execRetirePassDone, hpass]
    exact ⟨_, rfl⟩
  have hq : Quiet (framesGone u (onChannel (c / 32) (c % 32)))
      (((framesGone u (onChannel (c / 32) (c % 32))).bump (pgXLT (c / 32)) F.XLT_RETIRED_FRAMES k).raise (pgXLT (c / 32)) 3) :=
    ((quiet_refl _).wri ..).raise ..
  have hframe : ∀ f, State.frame (((framesGone u (onChannel (c / 32) (c % 32))).bump (pgXLT (c / 32)) F.XLT_RETIRED_FRAMES k).raise
      (pgXLT (c / 32)) 3) f = (s.frame f).map fun x => if onChannel (c / 32) (c % 32) f then { x with otype := 3, owner := 0 } else x := by
    intro f
    have hold : u.frame f = s.frame f := by rw [State.frame, hlost.lp]; rfl
    rw [State.frame, hq.lp, ← hold]
    exact frame_framesGone ..
  refine ⟨_, hexec, ?_, raised_raise _ _ 3 (by decide), ?_, fun f x hx hdie hchan => ?_, fun f hne => ?_⟩
  · rw [hq.lp]
    exact congrArg LpSt.passes hlost.lp
  · exact (((SameBytes.of_eq : SameBytes s _).trans hlost.sameBytes).trans (SameBytes.of_eq : SameBytes u _)).trans hq.sameBytes
  · rw [hframe, hx, Option.map_some, if_pos (onChannel_iff.mpr ⟨hdie, hchan⟩)]
    exact ⟨_, rfl, rfl⟩
  · simp only [hframe, if_neg fun h => hne (onChannel_iff.mp h), Option.map_id_fun']
    rfl

/-! ## Recovery of a cask's frame (R209, R443) -/

/-- The bytes of line `i` of a frame's text. -/
def lineBytes (bs : List Byte) (i : Nat) : List Nat := (List.range 64).map fun j => (bs.getD (64 * i + j) 0).toNat

theorem length_lineBytes (bs : List Byte) (i : Nat) : (lineBytes bs i).length = 64 := by
  rw [lineBytes, List.length_map, List.length_range]

theorem ofNat_getD_lineBytes (bs : List Byte) (i : Nat) {j : Nat} (h : j < 64) :
    BitVec.ofNat 8 ((lineBytes bs i).getD j 0) = bs.getD (64 * i + j) 0 := by
  rw [List.getD_eq_getElem _ _ (by rw [length_lineBytes]; exact h)]
  simp only [lineBytes, List.getElem_map, List.getElem_range, BitVec.ofNat_toNat, BitVec.setWidth_eq]

/-- The first `n` lines of a frame written, in full. -/
theorem lineWrites_spec (s : State) (f key : Nat) (bs : List Byte) (n : Nat) (hn : n ≤ 64) :
    ∃ t, (List.range n).foldl (fun t i => t.lineWrite (f * 64 + i) key 0 (lineBytes bs i) false {}) s = t ∧ t.lp.recov = s.lp.recov ∧
      ∀ a, bget t.lp.mem a = if a / 4096 = f ∧ a % 4096 < 64 * n then bs.getD (a % 4096) 0 else bget s.lp.mem a := by
  induction n with
  | zero => exact ⟨s, rfl, rfl, fun a => (if_neg (by omega)).symm⟩
  | succ n ih =>
    obtain ⟨t, hfold, hrecov, hmem⟩ := ih (by omega)
    have hlen := length_lineBytes bs n
    obtain ⟨u, hu, hwrite⟩ := lineWrite_merges (s := t) (l := f * 64 + n) (key := key) (off := 0) (o := {}) rfl (by omega) (.inl hlen)
    rw [merged_full _ hlen] at hwrite
    refine ⟨_, by rw [List.range_succ, List.foldl_append, hfold, List.foldl_cons, List.foldl_nil, hwrite], ?_, fun a => ?_⟩
    · exact hu.recov.trans hrecov
    · rw [bget_putLine _ _ _ _ hlen, hu.mem, hmem]
      by_cases ha : a / 64 = f * 64 + n
      · rw [if_pos ha, if_pos (by omega), ofNat_getD_lineBytes _ _ (by omega), show 64 * n + a % 64 = a % 4096 by omega]
      · rw [if_neg ha]
        exact if_congr (by omega) rfl rfl

theorem putFrame_spec {s : State} {f : Nat} {x : Frame} (hx : s.frame f = some x) (bs : List Byte) :
    (s.putFrame f bs).lp.recov = s.lp.recov ∧
      ∀ a, bget (s.putFrame f bs).lp.mem a = if a / 4096 = f then bs.getD (a % 4096) 0 else bget s.lp.mem a := by
  obtain ⟨t, hfold, hrecov, hmem⟩ := lineWrites_spec s f ((s.keyIn (slotOfOwner x.otype x.owner)).getD 0) bs 64 (Nat.le_refl _)
  have hput : s.putFrame f bs = t := by
    simp only [State.putFrame, hx]
    exact hfold
  rw [hput]
  exact ⟨hrecov, fun a => (hmem a).trans (if_congr (by omega) rfl rfl)⟩

theorem failSteps_spec (ids : List Nat) (status code : Nat) (s : State) :
    ∃ m, ids.foldl (fun t id => t.failStep id status code) s = { s with steps := m } := by
  induction ids generalizing s with
  | nil => exact ⟨_, rfl⟩
  | cons i ids ih => exact ih (s.failStep i status code)

/-- A step that failed keeps its status. -/
theorem step1_failSteps_failed {j status : Nat} (h0 : status ≠ 0) (code : Nat) (ids : List Nat) {s : State} {st : Step}
    (h : s.step1 j = some st) (hst : st.status = status) :
    ∃ y, (ids.foldl (fun t id => t.failStep id status code) s).step1 j = some y ∧ y.status = status := by
  induction ids generalizing s with
  | nil => exact ⟨st, h, hst⟩
  | cons i ids ih =>
    refine ih (s := s.failStep i status code) ?_
    rw [step1_failStep]
    split
    · next hj => rw [← hj, h, Option.map_some, if_neg (by rw [hst]; exact h0)]
    · exact h

/-- Each step of the list fails that has not failed yet. -/
theorem step1_failSteps {j status : Nat} (h0 : status ≠ 0) (code : Nat) {ids : List Nat} (hj : j ∈ ids) {s : State} {st : Step}
    (h : s.step1 j = some st) (hst : st.status = 0) :
    ∃ y, (ids.foldl (fun t id => t.failStep id status code) s).step1 j = some y ∧ y.status = status := by
  induction ids generalizing s with
  | nil => exact absurd hj List.not_mem_nil
  | cons i ids ih =>
    rw [List.foldl_cons]
    by_cases hij : j = i
    · subst hij
      obtain ⟨y, hy, hys⟩ := step1_failStep_first h hst status code
      exact step1_failSteps_failed h0 code ids hy hys
    · refine ih (List.mem_of_ne_of_mem hij hj) (s := s.failStep i status code) ?_
      rw [step1_failStep, if_neg hij]
      exact h

/-- The state with the recovery of a frame over, and told to the Gauger's counters. -/
def recoveryOver (s : State) (f : Nat) (good : Bool) : State :=
  let s0 := s.count pgGAU (if good then 0x068 else 0x06C) (if good then 1 else 2)
  { s0 with lp := { s0.lp with recov := mdel s0.lp.recov f } }

section
variable {die : Fin 4} {frame f : Nat} {s : State} {r : Recov} {x : Frame}
variable (hframe : frame < 2 ^ 25) (hf : f = die.val * 2 ^ 25 + frame) (hr : mget s.lp.recov f = some r) (hx : s.frame f = some x)
  (hkind : r.kind = 2) (hcask : s.caskFrame f = true)
include hframe hf hr hx hkind hcask

theorem exec_frameRecoveryDone (data : Option (List Byte)) : exec (.frameRecoveryDone die frame data) s = .next (match data with
    | some bs => (recoveryOver s f true).putFrame f bs
    | none => r.steps.foldl (fun t id => t.failStep id stFAULT 0) ((recoveryOver s f false).memDetect x r.va)) := by
  change execFrameRecoveryDone die frame data s = _
  have hmod : die.val * 2 ^ 25 + frame % 2 ^ 25 = f := by rw [Nat.mod_eq_of_lt hframe, hf]
  rw [execFrameRecoveryDone, hmod]
  cases data <;> simp [hr, hx, hkind, hcask, recoveryOver]

theorem frameRecoveryDone_restores (bs : List Byte) : ∃ t, exec (.frameRecoveryDone die frame (some bs)) s = .next t ∧
    mget t.lp.recov f = none ∧ (∀ i, i < 4096 → bget t.lp.mem (4096 * f + i) = bs.getD i 0) ∧
      ∀ a, a / 4096 ≠ f → bget t.lp.mem a = bget s.lp.mem a := by
  obtain ⟨hrecov, hmem⟩ := putFrame_spec (s := recoveryOver s f true) hx bs
  refine ⟨_, exec_frameRecoveryDone hframe hf hr hx hkind hcask _, ?_, fun i hi => ?_, fun a ha => ?_⟩
  · rw [hrecov]
    exact mget_mdel_self ..
  · rw [hmem, if_pos (by omega), Nat.mul_add_mod, Nat.mod_eq_of_lt hi]
  · rw [hmem, if_neg ha]
    rfl

theorem frameRecoveryDone_fails : ∃ t, exec (.frameRecoveryDone die frame none) s = .next t ∧ mget t.lp.recov f = none ∧ SameBytes s t ∧
    ∀ id st, id ∈ r.steps → s.step1 id = some st → st.status = 0 → ∃ y, t.step1 id = some y ∧ y.status = stFAULT := by
  have hnote := noted_memDetect (recoveryOver s f false) x r.va
  refine ⟨_, exec_frameRecoveryDone hframe hf hr hx hkind hcask none, ?_⟩
  obtain ⟨u, hu⟩ : ∃ u, (recoveryOver s f false).memDetect x r.va = u := ⟨_, rfl⟩
  rw [hu] at hnote ⊢
  obtain ⟨m, hm⟩ := failSteps_spec r.steps stFAULT 0 u
  refine ⟨?_, ?_, fun id st hid hst h0 => step1_failSteps (by decide) 0 hid ?_ h0⟩
  · rw [hm, hnote.lp]
    exact mget_mdel_self ..
  · rw [hm]
    exact ((SameBytes.of_eq : SameBytes s (recoveryOver s f false)).trans hnote.sameBytes).trans .of_eq
  · rw [State.step1, hnote.steps]
    exact hst

end

/-- Settles O33: each of the five commands does what its lemma above states. -/
theorem patrolAndRetirement : Obligations.PatrolAndRetirement := by
  unfold Obligations.PatrolAndRetirement
  refine ⟨fun die group ch fail1 fail2 s pos l hpos hl hready hu hon hch hlt hbad =>
      ⟨patrolRead_good hpos hl hready hu hon hch hlt hbad, ?_⟩,
    fun die group s => patrolPassEnd_restarts,
    fun n ch rest s _ => channelRetire_retires,
    fun c rest s => retirePassDone_retires,
    fun die frame f s r x hframe hf hr hx hkind hcask =>
      ⟨frameRecoveryDone_restores hframe hf hr hx hkind hcask, frameRecoveryDone_fails hframe hf hr hx hkind hcask⟩⟩
  rintro rfl rfl
  exact patrolRead_free hpos hl hready hu hon hch hlt hbad

end Sys2Proof
end

section
/-! SUPPORT. What leaves the counters of the attention pages alone: the hub's writes of context memory. -/

namespace Sys2Proof

-- As in the files that define `Onward`: the defaults of its arguments are read by proofs in turn.
set_option Elab.async false

open Machine

/-- From `s` to `t` no counter of an attention page moves. -/
def AttSame (s t : State) : Prop := ∀ n off, off < 4096 → t.ctr (pgATT n) off = s.ctr (pgATT n) off

/-! The pages whose counters a write of context memory moves stand elsewhere in their blocks of 0x1000 pages. -/

theorem frameGroup_ne_att (f : Nat) : frameGroup f % 0x1000 ≠ 0x60 := by
  unfold frameGroup frameChan pgLPG pgDIE
  omega

theorem pgXLT_ne_att (n : Nat) : pgXLT n % 0x1000 ≠ 0x60 := by
  unfold pgXLT pgDIE
  omega

theorem pgCEV_ne_att (c : Nat) : pgCEV c % 0x1000 ≠ 0x60 := by
  unfold pgCEV
  omega

theorem attCtr_ne_msgCtr (n : Nat) {off : Nat} (h : off < 4096) : pgATT n * 4096 + off ≠ msgCtr := by
  unfold pgATT pgDIE msgCtr pgINTAKE
  omega

section
variable {z s t : State}

theorem AttSame.refl (s : State) : AttSame s s := fun _ _ _ => rfl

theorem AttSame.trans {u : State} (h : AttSame s t) (k : AttSame t u) : AttSame s u := fun n off ho => (k n off ho).trans (h n off ho)

theorem AttSame.of (h : AttSame z s) (e : t.ctrs = s.ctrs := by rfl) : AttSame z t := fun n off ho => by
  rw [← h n off ho, State.ctr, State.ctr, e]

theorem AttSame.count {pg off m : Nat} (h : AttSame z s) (hpg : pg % 0x1000 ≠ 0x60) (hoff : off < 4096 := by decide) :
    AttSame z (s.count pg off m) :=
  h.trans fun n _ ho => State.ctr_count_ne s m (by unfold pgATT pgDIE; omega)

theorem AttSame.ite {c : Prop} [Decidable c] (h : AttSame z s) (k : AttSame z t) : AttSame z (if c then s else t) := by
  split <;> assumption

theorem AttSame.foldl {α : Type} {g : State → α → State} (hg : ∀ t x, AttSame z t → AttSame z (g t x)) :
    ∀ (l : List α) {s : State}, AttSame z s → AttSame z (l.foldl g s)
  | [], _, h => h
  | x :: l, s, h => AttSame.foldl hg l (hg s x h)

theorem AttSame.raise {pg bit : Nat} (h : AttSame z s) : AttSame z (s.raise pg bit) :=
  h.trans fun n _ ho => ctr_raise s pg bit (attCtr_ne_msgCtr n ho)

theorem AttSame.capture {pg code loc : Nat} {ctx : Option Nat} (h : AttSame z s) : AttSame z (s.capture pg code loc ctx) :=
  h.trans fun n _ ho => ctr_capture s pg code loc ctx (attCtr_ne_msgCtr n ho)

theorem AttSame.ctxEvent {c bit st code q : Nat} (h : AttSame z s) : AttSame z (s.ctxEvent c bit st code q) := by
  unfold State.ctxEvent
  exact .ite (h.raise.raise.count (pgCEV_ne_att c)) (AttSame.raise h.of)

/-! Lines (R192–R196) -/

theorem AttSame.crcTouch {l : Nat} {dirty parity : Bool} (h : AttSame z s) : AttSame z (s.crcTouch l dirty parity) := by
  have hpg := frameGroup_ne_att (frameOfLine l)
  unfold State.crcTouch
  extract_lets k pg
  split
  · have h1 : AttSame z (((s.raise pg 7).capture pg 3 (32 * frameDie (frameOfLine l) + frameChan (frameOfLine l) +
        256 * frameJ (frameOfLine l)) none).count pg 0x054 1) := h.raise.capture.count hpg
    exact .ite (.ite h1.of h1.of) h.of
  · have h1 : AttSame z ((s.count pg 0x054 1).count pg 0x058 1) := (h.count hpg).count hpg
    exact .ite h1.of h1.of

theorem AttSame.confirm {f : Nat} {poison : Bool} (h : AttSame z s) : AttSame z (s.confirm f poison) := by
  have hpg := frameGroup_ne_att f
  unfold State.confirm
  extract_lets pg ch s1 lp1 s2 lp2 s3
  have h1 : AttSame z s1 := ((h.raise.count hpg).count hpg).capture
  have h2 : AttSame z s2 := h1.of
  have h3 : AttSame z s3 := .ite h2.of h2
  split
  · next x _ =>
    have h4 : AttSame z (s3.setFrame f (hit x)) := h3.of
    exact .ite h4.raise h4
  · exact h3

theorem AttSame.lineRead {l key : Nat} {o : LineOut} (h : AttSame z s) : AttSame z (s.lineRead l key o).1 := by
  have hpg := frameGroup_ne_att (frameOfLine l)
  unfold State.lineRead
  extract_lets f pg s1 text how mirrored xp s2 lp2
  have h1 : AttSame z s1 := (h.count hpg).crcTouch
  have h2 : AttSame z s2 := h1.confirm.count (pgXLT_ne_att _)
  clear_value mirrored s2 how
  split
  · exact .ite (h1.count hpg) h1
  · split
    · split
      · exact h2.raise
      · have h3 : AttSame z { s2 with lp := { s2.lp with bad := mdel s2.lp.bad l } } := h2.of
        exact h3.raise
    · exact h1.confirm

theorem AttSame.putLine {l key : Nat} {bs : List Nat} {bad : Bool} (h : AttSame z s) : AttSame z (s.putLine l key bs bad) := h.of

theorem AttSame.lineWrite {l key off : Nat} {bs : List Nat} {bad : Bool} {o : LineOut} (h : AttSame z s) :
    AttSame z (s.lineWrite l key off bs bad o) := by
  have hpg := frameGroup_ne_att (frameOfLine l)
  unfold State.lineWrite
  refine .ite (h.count hpg).crcTouch.putLine ?_
  exact ((h.lineRead.count hpg).count hpg).crcTouch.putLine

/-! Translated writes (R205, R208) -/

theorem AttSame.labTouch {n key : Nat} {big : Bool} (h : AttSame z s) : AttSame z (s.labTouch n key big) := by
  have hpg := pgXLT_ne_att n
  unfold State.labTouch
  extract_lets xp k s1 mine
  have h1 : AttSame z s1 := (h.count hpg).count hpg
  exact .ite (.ite (h.count hpg) h) (.ite h1.of h1.of)

theorem AttSame.access {n c va len : Nat} {write host : Bool} (h : AttSame z s) : AttSame z (s.access n c va write host len).1 := by
  have hpg := pgXLT_ne_att n
  unfold State.access
  extract_lets xp s0 s1
  have h0 : AttSame z s0 := h.count hpg
  have h1 : AttSame z s1 := by
    simp only [s1]
    split
    · exact h0.labTouch
    · exact (h0.count hpg).count hpg
    · split
      · exact h0.labTouch
      · exact (h0.count hpg).count hpg
  split
  · exact h1
  · extract_lets s2 s3
    have h2 : AttSame z s2 := ((h1.count hpg).count hpg).capture.ctxEvent
    simp only [s3]
    split
    · exact (h2.count (frameGroup_ne_att _)).capture
    · exact h2

theorem AttSame.ctxWriteHub {n c va : Nat} {host bad : Bool} {bs : List Nat} {o : LineOut} (h : AttSame z s) :
    AttSame z (s.ctxWrite n c va host bs bad o none).1 := by
  have ha := h.access (n := n) (c := c) (va := va) (len := max 1 bs.length) (write := true) (host := host)
  unfold State.ctxWrite
  split
  · next s1 code heq => rw [heq] at ha; exact ha
  · next s1 pa heq => rw [heq] at ha; exact AttSame.lineWrite ha

end

theorem attSame_hubWrite (s : State) (c va : Nat) (bs : List Nat) : AttSame s (s.hubWrite c va bs) :=
  AttSame.foldl (fun _ _ h => h.ctxWriteHub) _ (.refl s)

end Sys2Proof
end

section
/-! PROOF. O34: layer starts, the lookup drafter and the die ring (R220, R224, R237, R249, R252). -/

namespace Sys2Proof

set_option Elab.async false

open Machine

/-! ## Layer starts (R220, R224, R252) -/

theorem mem_bitsSet {v n i : Nat} : i ∈ bitsSet v n ↔ i < n ∧ nbit v i = true := by simp [bitsSet]

section
variable {v : VatId} {desc : Nat} {rows : List AttRow} {s : State} {k : Kernel} {st0 : Step}
variable (hk : s.kern (vatPg v) = some k) (hst0 : s.step1 k.step = some st0) (hrun : st0.started = true) (hok : st0.status = 0)
include hk hst0 hrun hok

/-- A good layer start reads the descriptor after the latch, walks every member's pages and works the rows in order. -/
theorem exec_layerStart {s1 : State} {st : Step} {bs : List Nat}
    (hst : st = (((s.latchStep k.step v.die.val).count (pgATT v.die.val) 0x04C 1).step1 k.step).getD st0)
    (hread : ((s.latchStep k.step v.die.val).count (pgATT v.die.val) 0x04C 1).hubRead st.ctx (desc / 64 * 64) 1 {} (some k.step) = (s1, some bs))
    (hdies : ∀ q, q < 4 → nbit (layerOf bs).dieSet q = true → s1.hasUnit (pgDIE q) = true) (halign : desc % 64 = 0)
    (hgood : s1.layerBad v.die.val (layerOf bs) = false) (hbuf : stepKeyBytes (layerOf bs) st ≤ (layerOf bs).bufBytes) (hjob : st.job = none)
    (hskim : ∀ m ∈ st.members, bits m.opt 16 8 = 0)
    (hlive : ∀ x, (st.members.foldl (fun t m => t.walkKv v.die.val k.step (layerOf bs).layer m) s1).step1 k.step = some x → x.status = 0) :
    exec (.layerStart v desc rows 0 0 false) s = .next (rows.foldl (fun t r => t.layerRow v.die.val (layerOf bs) st r)
      (st.members.foldl (fun t m => t.walkKv v.die.val k.step (layerOf bs).layer m) s1)) := by
  have hunits : ((bitsSet (layerOf bs).dieSet 4).any fun q => !s1.hasUnit (pgDIE q)) = false :=
    List.any_eq_false.mpr fun q hq => by simp [hdies q (mem_bitsSet.mp hq).1 (mem_bitsSet.mp hq).2]
  have hskims : (st.members.any fun m => bits m.opt 16 8 != 0) = false := List.any_eq_false.mpr fun m hm => by simp [hskim m hm]
  have hgoes : (((st.members.foldl (fun t m => t.walkKv v.die.val k.step (layerOf bs).layer m) s1).step1 k.step).any fun x => x.status != 0) = false := by
    rw [← Bool.not_eq_true, Option.any_eq_true]
    rintro ⟨x, hx, hne⟩
    simp [hlive x hx] at hne
  change execLayerStart v desc rows 0 0 false s = _
  simp only [execLayerStart, hk, hst0, hrun, hok, ← hst, hread, hunits, hgood, hskims, hgoes, hjob, halign]
  simp [hbuf]

/-- An error of the mask state is a detection of the step: at the first the step drains to run again, a further one fails it (R252, R134). -/
theorem layerStart_maskError (skimmed sumBad : Nat) :
    ∃ t x, exec (.layerStart v desc rows skimmed sumBad true) s = .next t ∧ t.step1 k.step = some x ∧ x.detections = st0.detections + 1 ∧
      x.draining = decide (st0.detections = 0) ∧ (st0.detections ≠ 0 → x.status = stFAULT) := by
  have hexec : exec (.layerStart v desc rows skimmed sumBad true) s = .next ((s.raise (pgATT v.die.val) 1).dataDetect k.step) := by
    change execLayerStart v desc rows skimmed sumBad true s = _
    simp [execLayerStart, hk, hst0, hrun, hok]
  have hraise : (s.raise (pgATT v.die.val) 1).step1 k.step = some st0 := by rw [State.step1, State.raise_steps]; exact hst0
  refine ⟨_, if st0.detections = 0 then { st0 with detections := st0.detections + 1, draining := true }
    else { st0 with detections := st0.detections + 1, draining := false, status := stFAULT, code := 0 }, hexec, ?_⟩
  simp only [State.dataDetect, hraise]
  by_cases h0 : st0.detections = 0
  · simp [h0]
  · simp [h0, step1_failStep, hok]

end

/-- A row without a key has the empty sentinel as its log-sum-exp, and is counted (R224, R228). -/
theorem layerRow_empty {s : State} {n : Nat} {d : LayerDesc} {st : Step} {r : AttRow} {m : Member} (hm : st.members[r.member]? = some m)
    (hparts : r.parts = []) (hemit : d.emit = false) : (s.layerRow n d st r).ctr (pgATT n) 0x05C = s.ctr (pgATT n) 0x05C + 1 := by
  have hnan : f32IsNan f32NegInf = false := by decide
  unfold State.layerRow
  simp only [hm, hparts, hemit, List.map_nil, List.foldl_nil, hnan, Bool.false_eq_true, if_false, if_true]
  rw [State.ctr_count_ne _ _ ctr_ne_of_off, State.ctr_count_self, State.ctr_count_ne _ _ ctr_ne_of_off, State.ctr_count_ne _ _ ctr_ne_of_off,
    attSame_hubWrite _ _ _ _ n _ (by decide)]

/-! ## The lookup drafter (R237) -/

/-- A request that is not the default one stands in the table. -/
theorem entry_of_rq_ne {s : State} {i : Nat} (h : s.rq i ≠ {}) : mget s.rqt.entries i = some (s.rq i) := by
  unfold State.rq at *
  cases he : mget s.rqt.entries i with
  | none => rw [he] at h; exact absurd rfl h
  | some x => rfl

theorem rq_modRq_self {s : State} {i : Nat} (h : s.rq i ≠ {}) (f : Rq → Rq) : (s.modRq i f).rq i = f (s.rq i) := by
  change (mget (mmod s.rqt.entries i f) i).getD {} = _
  rw [mget_mmod_self, entry_of_rq_ne h]
  rfl

theorem rq_modRq_ne (s : State) {i j : Nat} (f : Rq → Rq) (h : j ≠ i) : (s.modRq i f).rq j = s.rq j :=
  congrArg (fun e : Option Rq => e.getD {}) (mget_mmod_ne s.rqt.entries f h)

section
variable {rq : Fin 8192} {s : State}

theorem lkpDraftStart_starts (hstate : (s.rq rq.val).state = rqDECODE) (hclk : (s.rq rq.val).draftClk = none)
    (hdone : (s.rq rq.val).draftDone = false) (hstep : (s.rq rq.val).step = none) (hsrc : bits (s.rq rq.val).attOpt 2 2 = 2) :
    ∃ t, exec (.lkpDraftStart rq) s = .next t ∧ t.rq rq.val = { s.rq rq.val with draftClk := some s.now, draft := [] } ∧
      (∀ i, i ≠ rq.val → t.rq i = s.rq i) ∧ t = { s with rqt := t.rqt } := by
  have hne : s.rq rq.val ≠ {} := fun h => by rw [h] at hstate; exact absurd hstate (by decide)
  refine ⟨s.modRq rq.val fun y => { y with draftClk := some s.now, draft := [] }, ?_, rq_modRq_self hne _, fun i => rq_modRq_ne s _, rfl⟩
  change execLkpDraftStart rq s = _
  simp [execLkpDraftStart, hstate, hclk, hdone, hstep, hsrc]

theorem lkpDraftDone_leaves {clk : Nat} {h : Head} (hclk : (s.rq rq.val).draftClk = some clk) (hhead : ((s.rq rq.val).head.bind s.head) = some h) :
    ∃ t, exec (.lkpDraftDone rq) s = .next t ∧ t = { s with rqt := t.rqt, ctrs := t.ctrs } ∧ (∀ i, i ≠ rq.val → t.rq i = s.rq i) ∧
      (∀ cs, cs = draftCands h.log (s.rd (pgATT (s.rqDie (s.rq rq.val))) F.ATT_LKP_WINDOW) (max 1 (min 16 (bits (s.rq rq.val).attOpt 8 5)))
          (bits (s.rq rq.val).attOpt 13 2 + 1) → t.rq rq.val = { s.rq rq.val with draftClk := none, draftDone := true, draft := cs }) := by
  have hne : s.rq rq.val ≠ {} := fun h => by rw [h] at hclk; cases hclk
  obtain ⟨pg, off, n, hexec⟩ : ∃ pg off n, exec (.lkpDraftDone rq) s = .next ((s.modRq rq.val fun y => { y with
      draftClk := none, draftDone := true,
      draft := draftCands h.log (s.rd (pgATT (s.rqDie (s.rq rq.val))) F.ATT_LKP_WINDOW) (max 1 (min 16 (bits (s.rq rq.val).attOpt 8 5)))
        (bits (s.rq rq.val).attOpt 13 2 + 1) }).count pg off n) := by
    change ∃ pg off n, execLkpDraftDone rq s = _
    simp only [execLkpDraftDone, hclk, hhead]
    split <;> exact ⟨_, _, _, rfl⟩
  refine ⟨_, hexec, rfl, fun i => rq_modRq_ne s _, ?_⟩
  rintro cs rfl
  exact rq_modRq_self hne _

end

/-! ## Accesses of a context within one line -/

section
variable {s : State} {n c va pa key : Nat} {x : Frame} {step : Option Nat}
variable (hn : n < 4) (hf : s.frame (pa / 4096) = some x) (hk : s.keyIn (slotOfOwner x.otype x.owner) = some key)
include hn hf hk

/-- A line that translates and reads good is delivered; nothing but the accounting changes. -/
theorem ctxRead_good (hx : s.xlate c va false false = .ok pa) (hb : nget s.lp.bad (pa / 64) = 0) :
    ∃ t, Tallied s t ∧ s.ctxRead n c va false {} step = (t, s.lineText (pa / 64) key, 0) := by
  obtain ⟨s1, h1, hyes, -⟩ := access_outcome s hn c va 1 false false
  have hread := lineRead_good (s := s1) (l := pa / 64) (key := key) (o := {}) rfl (by rw [h1.bad]; exact hb) rfl
  refine ⟨_, h1.trans (tallied_lineTouched s1 (pa / 64)), ?_⟩
  simp only [State.ctxRead, hyes pa hx, h1.frame, hf, h1.keyIn, hk, Option.getD_some, hread, h1.lineText]
  rfl

/-- A write that translates puts its bytes in place and touches no other line. -/
theorem ctxWrite_stores {bs : List Nat} (hx : s.xlate c va true false (max 1 bs.length) = .ok pa) (hfit : va % 64 + bs.length ≤ 64)
    (hg : bs.length = 64 ∨ nget s.lp.bad (pa / 64) = 0) :
    ∃ t, s.ctxWrite n c va false bs false {} step = (t, true) ∧ (∀ i, i < bs.length → bget t.lp.mem (pa + i) = BitVec.ofNat 8 (bs.getD i 0)) ∧
      (∀ a, a / 64 ≠ pa / 64 → bget t.lp.mem a = bget s.lp.mem a) ∧ t.steps = s.steps ∧ t.regs = s.regs := by
  obtain ⟨s1, h1, hyes, -⟩ := access_outcome s hn c va (max 1 bs.length) true false
  have hoff : pa % 64 = va % 64 := aligned_xlate _ _ _ _ _ _ pa hx
  obtain ⟨s2, h2, hwrite⟩ := lineWrite_merges (s := s1) (l := pa / 64) (key := key) (off := pa % 64) (bs := bs) (o := {}) rfl (by omega)
    (by rw [h1.bad]; exact hg.imp_right fun hb => ⟨hb, rfl⟩)
  have h := h1.trans h2
  have hmem := bget_putLine s2 (pa / 64) key false (length_merged (s1.lineText (pa / 64) key) (pa % 64) bs)
  refine ⟨s2.putLine (pa / 64) key (merged (s1.lineText (pa / 64) key) (pa % 64) bs) false,
    by simp only [State.ctxWrite, hyes pa hx, h1.frame, hf, h1.keyIn, hk, Option.getD_some, hwrite], fun i hi => ?_, fun a ha => ?_,
    h.steps, h.regs⟩
  · rw [hmem, if_pos (by omega), show (pa + i) % 64 = pa % 64 + i by omega, getD_merged _ _ _ (by omega), if_pos (by omega), Nat.add_sub_cancel_left]
  · rw [hmem, if_neg ha, h.mem]

end

/-! ## The die ring (R249) -/

/-- The next die of a set that holds die `n` is one of the four. -/
theorem nextDie_lt (set : Nat) {n : Nat} (h : n < 4) : nextDie set n < 4 := by
  have hmem : ∀ {l : List Nat} {a : Nat}, (∀ q ∈ l, q < 4) → a < 4 → l.head?.getD a < 4 := fun {l a} hl ha => by
    cases l with
    | nil => exact ha
    | cons q l => exact hl q (by simp)
  have hset : ∀ q ∈ bitsSet set 4, q < 4 := fun q hq => (mem_bitsSet.mp hq).1
  refine hmem (fun q hq => hset q (List.mem_filter.mp hq).1) ?_
  rw [List.headD_eq_head?_getD]
  exact hmem hset h

theorem length_addF32Bytes (old new : List Nat) : (addF32Bytes old new).length = new.length / 4 * 4 := by
  simp [addF32Bytes, List.length_flatMap]

section
variable {src : Fin 4} {set step va : Nat} {data : List Byte} {s : State} {st : Step}
variable (hst : s.step1 step = some st) (hsrc : nbit set src.val = true) (hdst : nextDie set src.val ≠ src.val) (hrun : st.started = true)
  (hne : data ≠ []) (hfit : va % 64 + data.length ≤ 64) (hu : s.hasUnit (pgDIE (nextDie set src.val)) = true) (hv : s.hasUnit (pgDIE src.val) = true)
include hst hsrc hdst hrun hne hfit hu hv

/-- What a transfer does that reaches the next die, or is lost on its way. -/
theorem exec_dieRingTransfer (reduce lost : Bool) : exec (.dieRingTransfer src set step va reduce data lost) s = .next (
    if lost then (s.failStep step stFAULT 0).raise (pgATT (nextDie set src.val)) 2
    else if reduce then
      match s.ctxRead (nextDie set src.val) st.ctx (va / 64 * 64) false {} (some step) with
      | (t, old, how) => if how ≠ 0 then t
        else (t.ctxWrite (nextDie set src.val) st.ctx va false (addF32Bytes (old.drop (va % 64)) (data.map fun b => b.toNat)) false {} (some step)).1
    else (s.ctxWrite (nextDie set src.val) st.ctx va false (data.map fun b => b.toNat) false {} (some step)).1) := by
  have hlong : ¬64 < va % 64 + data.length := by omega
  change execDieRingTransfer src set step va reduce data lost s = _
  simp [execDieRingTransfer, hst, hsrc, hdst, hrun, hne, hlong, hu, hv]

theorem dieRingTransfer_lost (reduce : Bool) : ∃ t, exec (.dieRingTransfer src set step va reduce data true) s = .next t ∧
    Raised t (pgATT (nextDie set src.val)) 2 ∧ SameBytes s t ∧ (st.status = 0 → ∃ x, t.step1 step = some x ∧ x.status = stFAULT) := by
  refine ⟨_, exec_dieRingTransfer hst hsrc hdst hrun hne hfit hu hv reduce true, raised_raise _ _ _ (by decide), ?_, fun h0 => ?_⟩
  · exact (SameBytes.of_eq : SameBytes s (s.failStep step stFAULT 0)).trans ((quiet_refl _).raise _ _).sameBytes
  · rw [if_pos rfl, State.step1, State.raise_steps]
    exact step1_failStep_first hst h0 stFAULT 0

variable {pa key : Nat} {x : Frame} (hf : s.frame (pa / 4096) = some x) (hk : s.keyIn (slotOfOwner x.otype x.owner) = some key)
  (hb : nget s.lp.bad (pa / 64) = 0)
include hf hk hb

theorem dieRingTransfer_gathers (hx : s.xlate st.ctx va true false (max 1 data.length) = .ok pa) :
    ∃ t, exec (.dieRingTransfer src set step va false data false) s = .next t ∧
      (∀ i, i < data.length → bget t.lp.mem (pa + i) = data.getD i 0) ∧ (∀ a, a / 64 ≠ pa / 64 → bget t.lp.mem a = bget s.lp.mem a) ∧
      t.steps = s.steps ∧ t.regs = s.regs := by
  have hlen : (data.map fun b => b.toNat).length = data.length := List.length_map ..
  obtain ⟨t, hwrite, hin, hout, hsteps, hregs⟩ := ctxWrite_stores (step := some step) (bs := data.map fun b => b.toNat) (nextDie_lt set src.isLt) hf hk
    (by rw [hlen]; exact hx) (by omega) (.inr hb)
  refine ⟨t, ?_, fun i hi => ?_, hout, hsteps, hregs⟩
  · rw [exec_dieRingTransfer hst hsrc hdst hrun hne hfit hu hv false false, hwrite]
    rfl
  · rw [hin i (by omega), ofNat_getD_toNat]

/-- A reduce reads the line, adds to it and writes it whole. -/
theorem dieRingTransfer_reduces (hva : va % 64 = 0) (hlen : data.length = 64) (hr : s.xlate st.ctx va false false = .ok pa)
    (hw : s.xlate st.ctx va true false 64 = .ok pa) :
    ∃ t, exec (.dieRingTransfer src set step va true data false) s = .next t ∧
      (∀ i, i < 64 → bget t.lp.mem (pa + i) = BitVec.ofNat 8 ((addF32Bytes (s.lineText (pa / 64) key) (data.map fun b => b.toNat)).getD i 0)) ∧
      (∀ a, a / 64 ≠ pa / 64 → bget t.lp.mem a = bget s.lp.mem a) := by
  have hn := nextDie_lt set src.isLt
  obtain ⟨s1, h1, hread⟩ := ctxRead_good (step := some step) hn hf hk hr hb
  have hsum : (addF32Bytes (s.lineText (pa / 64) key) (data.map fun b => b.toNat)).length = 64 := by
    rw [length_addF32Bytes, List.length_map, hlen]
  obtain ⟨t, hwrite, hin, hout, -⟩ := ctxWrite_stores (s := s1) (step := some step) hn (by rw [h1.frame]; exact hf) (by rw [h1.keyIn]; exact hk)
    (by rw [h1.xlate, hsum]; exact hw) (by omega) (.inl hsum)
  refine ⟨t, ?_, fun i hi => hin i (by omega), fun a ha => by rw [hout a ha, h1.mem]⟩
  rw [exec_dieRingTransfer hst hsrc hdst hrun hne hfit hu hv true false, show va / 64 * 64 = va by omega, hread, hva]
  simp only [Bool.false_eq_true, if_false, if_true, ne_eq, not_true_eq_false, List.drop_zero, hwrite]

end

/-- Settles O34: each clause is the lemma of its command. -/
theorem attentionCommands : Obligations.AttentionCommands := by
  unfold Obligations.AttentionCommands
  refine ⟨⟨?_, fun n s d st r m => layerRow_empty, fun v desc rows skimmed sumBad s k st hk hst hrun hok =>
      layerStart_maskError hk hst hrun hok skimmed sumBad⟩,
    fun rq s => lkpDraftStart_starts, fun rq s clk h => lkpDraftDone_leaves,
    fun src set step va data s st hst hsrc hdst hrun hne hfit hu hv =>
      ⟨fun pa x key hx hf hk hb => dieRingTransfer_gathers hst hsrc hdst hrun hne hfit hu hv hf hk hb hx,
        dieRingTransfer_lost hst hsrc hdst hrun hne hfit hu hv false,
        fun pa x key hva hlen hr hw hf hk hb => dieRingTransfer_reduces hst hsrc hdst hrun hne hfit hu hv hf hk hb hva hlen hr hw⟩⟩
  rintro v desc rows s s0 s1 s2 k st0 st bs d hk hst0 hrun hok rfl hst hread rfl hdies halign hgood hbuf hjob hskim rfl hlive
  exact exec_layerStart hk hst0 hrun hok hst hread hdies halign hgood hbuf hjob hskim hlive

end Sys2Proof
end

section
/-! SUPPORT. KV pages and list heads: what the pools' and the prefix tree's bookkeeping leaves alone, and how a list head is edited, published and
released (R256, R260–R264, R281). -/

namespace Sys2Proof

set_option Elab.async false

open Machine

theorem mget_none_of_unlisted {α : Type} {m : AMap α} {k : Nat} (h : k ∉ m.map (·.1)) : mget m k = none := by
  induction m with
  | nil => rfl
  | cons e m ih =>
    rw [List.map_cons, List.mem_cons, not_or] at h
    obtain ⟨hne, hm⟩ := h
    rw [mget, if_neg (Ne.symm hne), ih hm]

/-! ## What changes only register fields -/

section
variable {z s t u : State}

theorem RegsOnly.trans (h : RegsOnly s t) (k : RegsOnly t u) : RegsOnly s u := Eq.trans k (by rw [h])

theorem RegsOnly.wri (h : RegsOnly z s) (pg : Nat) (F0 : Field) (i v : Nat) : RegsOnly z (s.wri pg F0 i v) := h.trans rfl

theorem RegsOnly.foldl {α : Type} {g : State → α → State} (hg : ∀ t x, RegsOnly t (g t x)) : ∀ (l : List α) (s : State), RegsOnly s (l.foldl g s)
  | [], s => regsOnly_refl s
  | x :: l, s => (hg s x).trans (RegsOnly.foldl hg l (g s x))

theorem RegsOnly.kv (h : RegsOnly s t) : t.kv = s.kv := by rw [h]
theorem RegsOnly.lp (h : RegsOnly s t) : t.lp = s.lp := by rw [h]
theorem RegsOnly.rqt (h : RegsOnly s t) : t.rqt = s.rqt := by rw [h]
theorem RegsOnly.resps (h : RegsOnly s t) : t.host.resps = s.host.resps := by rw [h]
theorem RegsOnly.sameBytes (h : RegsOnly s t) : SameBytes s t := by rw [h]; exact .of_eq

end

/-! ## What changes only the pools -/

/-- Nothing changes but register fields, counters, messages on their way out, the frame table, and the pools, the prefix tree and the cellar records. -/
def PoolsOnly (s t : State) : Prop :=
  t = { s with
    regs := t.regs
    ctrs := t.ctrs
    msgs := t.msgs
    host := { s.host with msixPend := t.host.msixPend, heldMsgs := t.host.heldMsgs }
    lp := { s.lp with frames := t.lp.frames }
    kv := { s.kv with pools := t.kv.pools, pfx := t.kv.pfx, recs := t.kv.recs } }

section
variable {z s t u : State}

theorem poolsOnly_refl (s : State) : PoolsOnly s s := rfl

theorem PoolsOnly.trans (h : PoolsOnly s t) (k : PoolsOnly t u) : PoolsOnly s u := Eq.trans k (by rw [h])

theorem RegsOnly.poolsOnly (h : RegsOnly s t) : PoolsOnly s t := by rw [h]; rfl

theorem PoolsOnly.head (h : PoolsOnly s t) : t.head = s.head := by rw [h]; rfl
theorem PoolsOnly.rqt (h : PoolsOnly s t) : t.rqt = s.rqt := by rw [h]
theorem PoolsOnly.rq (h : PoolsOnly s t) : t.rq = s.rq := by rw [h]; rfl
theorem PoolsOnly.heads (h : PoolsOnly s t) : t.kv.heads = s.kv.heads := by rw [h]
theorem PoolsOnly.headNext (h : PoolsOnly s t) : t.kv.headNext = s.kv.headNext := by rw [h]
theorem PoolsOnly.resps (h : PoolsOnly s t) : t.host.resps = s.host.resps := by rw [h]
theorem PoolsOnly.waits (h : PoolsOnly s t) : t.host.waits = s.host.waits := by rw [h]
theorem PoolsOnly.sameBytes (h : PoolsOnly s t) : SameBytes s t := by rw [h]; exact .of_eq

theorem PoolsOnly.foldl {α : Type} {g : State → α → State} (hg : ∀ t x, PoolsOnly t (g t x)) : ∀ (l : List α) (s : State), PoolsOnly s (l.foldl g s)
  | [], s => poolsOnly_refl s
  | x :: l, s => (hg s x).trans (PoolsOnly.foldl hg l (g s x))

/-- Events, register fields and counters, where no command is answered. -/
theorem Quiet.poolsOnly (h : Quiet s t) (hn : NoAnswer s t) : PoolsOnly s t := by
  obtain ⟨hstate, hhost⟩ := h
  obtain ⟨hresps, hwaits, htaken⟩ := hn
  rw [hresps, hwaits, htaken] at hhost
  unfold PoolsOnly
  rw [← hhost]
  exact hstate.trans (by rw [hstate])

theorem poolsOnly_raise (s : State) (pg bit : Nat) : PoolsOnly s (s.raise pg bit) := ((quiet_refl s).raise ..).poolsOnly (noAnswer_raise ..)

theorem poolsOnly_takeSys (s : State) (n k : Nat) : PoolsOnly s (s.takeSys n k) :=
  let ⟨hq, hn⟩ := takeSys_spec s n k
  hq.poolsOnly hn

theorem poolsOnly_giveSys (s : State) (n k : Nat) : PoolsOnly s (s.giveSys n k) := rfl

theorem poolsOnly_count (s : State) (pg off n : Nat) : PoolsOnly s (s.count pg off n) := rfl

theorem poolsOnly_modPool (s : State) (p : Nat) (f : KvPool → KvPool) : PoolsOnly s (s.modPool p f) := rfl

/-- What the pages show of pools, prefix tree and cellar tier is written to register fields alone. -/
theorem showKv_regs (s : State) : RegsOnly s s.showKv := by
  unfold State.showKv
  extract_lets s1
  have h1 : RegsOnly s s1 :=
    .foldl (fun t n => ((((((regsOnly_refl t).wri ..).wri ..).wri ..).wri ..).wri ..).wri ..) _ s
  exact (h1.wri ..).wri ..

theorem poolsOnly_showKv (s : State) : PoolsOnly s s.showKv := (showKv_regs s).poolsOnly

/-! The prefix tree (R281) -/

theorem poolsOnly_dropPfx (s : State) (i : Nat) : PoolsOnly s (s.dropPfx i) := by
  unfold State.dropPfx
  split
  · exact poolsOnly_refl s
  · refine PoolsOnly.trans ?_ (.foldl (fun _ _ => by exact rfl) _ _)
    split <;> rfl

/-! Pages put back (R256, R263, R274) -/

theorem poolsOnly_putPage (s : State) (p : Nat) (e : PEnt) : PoolsOnly s (s.putPage p e) := by
  unfold State.putPage
  split
  · exact poolsOnly_refl s
  · extract_lets s1 fs bad s2
    have h2 : PoolsOnly s s2 := (poolsOnly_modPool ..).trans (.foldl (fun _ _ => by exact rfl) _ s1)
    split
    · rfl
    · split
      · rfl
      · exact h2.trans (poolsOnly_modPool ..)

theorem poolsOnly_freeEnt (s : State) (x : Freed) : PoolsOnly s (s.freeEnt x) := by
  unfold State.freeEnt
  split
  · refine PoolsOnly.trans (t := { s with kv := { s.kv with pfx := mmod s.kv.pfx x.ent.pfx fun y => { y with refs := y.refs - 1 } } }) rfl ?_
    dsimp only
    split
    · split
      · exact poolsOnly_dropPfx ..
      · exact poolsOnly_refl _
    · exact poolsOnly_refl _
  · split
    · exact poolsOnly_putPage ..
    · split <;> rfl

theorem PoolsOnly.lp (h : PoolsOnly s t) : t.lp = { s.lp with frames := t.lp.frames } := by rw [h]

end

/-! ## List heads written (R260) -/

/-- Nothing changes but what `PoolsOnly` leaves free, the caches of translations, and list head `hd`. -/
structure HeadOnly (hd : Nat) (s t : State) : Prop where
  rest : t = { s with
    regs := t.regs
    ctrs := t.ctrs
    msgs := t.msgs
    host := { s.host with msixPend := t.host.msixPend, heldMsgs := t.host.heldMsgs }
    lp := { s.lp with frames := t.lp.frames, lab := t.lp.lab }
    kv := { s.kv with heads := t.kv.heads, pools := t.kv.pools, pfx := t.kv.pfx, recs := t.kv.recs, lab := t.kv.lab } }
  others : ∀ o, o ≠ hd → t.head o = s.head o

section
variable {s t u : State} {hd k : Nat} {h : Head}

@[simp] theorem head_setHead_self (s : State) (hd : Nat) (h : Head) : (s.setHead hd h).head hd = some h := mget_mput_self ..

theorem head_setHead_ne (s : State) {hd o : Nat} (h : Head) (ho : o ≠ hd) : (s.setHead hd h).head o = s.head o := mget_mput_ne _ _ ho

theorem headOnly_setHead (s : State) (hd : Nat) (h : Head) : HeadOnly hd s (s.setHead hd h) := ⟨rfl, fun _ => head_setHead_ne s h⟩

theorem PoolsOnly.headOnly (h : PoolsOnly s t) (hd : Nat) : HeadOnly hd s t := ⟨by rw [h], fun _ _ => by rw [h.head]⟩

theorem HeadOnly.trans (h : HeadOnly hd s t) (k : HeadOnly hd t u) : HeadOnly hd s u :=
  ⟨k.rest.trans (by rw [h.rest]), fun o ho => (k.others o ho).trans (h.others o ho)⟩

theorem HeadOnly.rqt (h : HeadOnly hd s t) : t.rqt = s.rqt := by rw [h.rest]
theorem HeadOnly.resps (h : HeadOnly hd s t) : t.host.resps = s.host.resps := by rw [h.rest]
theorem HeadOnly.waits (h : HeadOnly hd s t) : t.host.waits = s.host.waits := by rw [h.rest]

theorem head_modHead (hh : s.head hd = some h) (f : Head → Head) : s.modHead hd f = s.setHead hd (f h) := by
  rw [State.modHead, mmod_some hh]
  rfl

/-! An entry removed (R263) -/

/-- A list without the entry at `k`, which is queued to be freed under the next generation. -/
def cut (h : Head) (k : Nat) : Head :=
  { h with
    staging := mdel h.staging k
    edited := true
    freed := h.freed ++ match mget h.staging k with
      | some old => [{ gen := h.gen + 1, pool := h.geom.poolOf (keySlot k), ent := old }]
      | none => [] }

theorem edit_cut (hh : s.head hd = some h) (k : Nat) : s.edit hd k none true = s.setHead hd (cut h k) := by
  rw [State.edit, hh]
  rfl

/-- Entries removed one after the other. -/
theorem foldl_edit_cut (l : List Nat) (hh : s.head hd = some h) :
    HeadOnly hd s (l.foldl (fun t k => t.edit hd k none true) s) ∧
      (l.foldl (fun t k => t.edit hd k none true) s).head hd = some (l.foldl cut h) := by
  induction l generalizing s h with
  | nil => exact ⟨(poolsOnly_refl s).headOnly hd, hh⟩
  | cons k l ih =>
    obtain ⟨honly, hhead⟩ := ih (head_setHead_self s hd (cut h k))
    rw [List.foldl_cons, edit_cut hh]
    exact ⟨(headOnly_setHead ..).trans honly, hhead⟩

/-- The entries named are gone, and nothing else of the list has changed. -/
theorem foldl_cut (l : List Nat) (h : Head) : ∃ m e f, l.foldl cut h = { h with staging := m, edited := e, freed := f } ∧
    ∀ k, mget m k = if k ∈ l then none else mget h.staging k := by
  induction l generalizing h with
  | nil => exact ⟨_, _, _, rfl, fun _ => rfl⟩
  | cons j l ih =>
    obtain ⟨m, e, f, hfold, hm⟩ := ih (cut h j)
    refine ⟨m, e, f, hfold, fun k => (hm k).trans ?_⟩
    by_cases hl : k ∈ l
    · simp [hl]
    · by_cases hj : k = j
      · subst hj
        simp [hl, cut, mget_mdel_self]
      · simp [hl, hj, cut, mget_mdel_ne]

/-! ## Publication (R261, R263, R264) -/

/-- A list whose staging copy has gone to generation slot `i`. -/
def inSlot (h : Head) (i : Nat) : Head :=
  { h with
    slots := h.slots.set i h.staging
    slotGen := h.slotGen.set i (h.gen + 1)
    gen := h.gen + 1
    cur := i
    length := h.stagedLen
    edited := false
    waiting := false }

/-- The lowest generation slot that is not the current one and has no reader. -/
def freeSlot (h : Head) : Option Nat := (List.range 4).find? fun i => i != h.cur && h.readers.getD i 0 == 0

/-- The walker of die `n` tells that a publication waits (R264). -/
def tellWaiting (t : State) (n : Nat) : State := (t.raise (pgKVW n) 0).count (pgKVW n) 0x05C 1

theorem poolsOnly_tellWaiting (t : State) (n : Nat) : PoolsOnly t (tellWaiting t n) := (poolsOnly_raise ..).trans (poolsOnly_count ..)

/-- What no reader needs any more leaves the queue, and goes back to the pools (R263). -/
theorem releaseFreed_spec (hh : s.head hd = some h) :
    PoolsOnly (s.setHead hd { h with freed := h.freed.filter fun x => !h.unread x.gen }) (s.releaseFreed hd) := by
  rw [State.releaseFreed, hh]
  simp only [List.partition_eq_filter_filter]
  exact (PoolsOnly.foldl poolsOnly_freeEnt _ _).trans (poolsOnly_showKv _)

/-- The charge of a list follows its structures, and nothing else of the list changes. -/
theorem chargeHead_spec (hh : s.head hd = some h) : ∃ c u, PoolsOnly s u ∧ s.chargeHead hd = u.setHead hd { h with charge := c } := by
  rw [State.chargeHead, hh]
  refine ⟨_, _, PoolsOnly.foldl (fun t j => ?_) _ s, rfl⟩
  dsimp only
  split
  · exact poolsOnly_takeSys ..
  · exact poolsOnly_giveSys ..

/-- The state with list `g` in its generation slot `i`; the look-aside lines of the slot's last generation are gone (R266). -/
def slotted (s : State) (hd i : Nat) (g : Head) : State :=
  let s1 := s.setHead hd (inSlot g i)
  g.geom.dies.foldl (fun t n => t.count (pgKVW n) 0x058 1) { s1 with
    kv := { s1.kv with lab := s1.kv.lab.filter fun x => x / 2 ^ 28 % 2 ^ 32 != hd % 2 ^ 28 * 4 + i }
    lp := { s1.lp with lab := s1.lp.lab.filter fun x => x % 2 ^ 42 / 2 ^ 29 != winTag hd i 0 / 2 ^ 29 } }

theorem slotted_spec (s : State) (hd i : Nat) (g : Head) : HeadOnly hd s (slotted s hd i g) ∧ (slotted s hd i g).head hd = some (inSlot g i) := by
  unfold slotted
  extract_lets s1
  have h1 : HeadOnly hd s1 { s1 with
    kv := { s1.kv with lab := s1.kv.lab.filter fun x => x / 2 ^ 28 % 2 ^ 32 != hd % 2 ^ 28 * 4 + i }
    lp := { s1.lp with lab := s1.lp.lab.filter fun x => x % 2 ^ 42 / 2 ^ 29 != winTag hd i 0 / 2 ^ 29 } } := ⟨rfl, fun _ _ => rfl⟩
  have h2 := PoolsOnly.foldl (fun t n => poolsOnly_count t (pgKVW n) 0x058 1) g.geom.dies { s1 with
    kv := { s1.kv with lab := s1.kv.lab.filter fun x => x / 2 ^ 28 % 2 ^ 32 != hd % 2 ^ 28 * 4 + i }
    lp := { s1.lp with lab := s1.lp.lab.filter fun x => x % 2 ^ 42 / 2 ^ 29 != winTag hd i 0 / 2 ^ 29 } }
  exact ⟨((headOnly_setHead ..).trans h1).trans (h2.headOnly hd), by rw [h2.head]; exact head_setHead_self ..⟩

section
variable {i : Nat} {g : Head} (hh : s.head hd = some h) (he : h.edited = true)
include hh he

/-- With a slot free, the list as the offers of its publication leave it goes into that slot. -/
theorem publish_offered (hi : freeSlot h = some i) (hg : (s.offers hd 4096).head hd = some g) :
    HeadOnly hd (s.offers hd 4096) (s.publish hd) ∧ ∃ c f, (s.publish hd).head hd = some { inSlot g i with charge := c, freed := f } := by
  obtain ⟨honly, hhead⟩ := slotted_spec (s.offers hd 4096) hd i g
  obtain ⟨c, u, hcharge, hset⟩ := chargeHead_spec hhead
  have hfree := releaseFreed_spec (head_setHead_self u hd { inSlot g i with charge := c })
  have hpub : s.publish hd = ((slotted (s.offers hd 4096) hd i g).chargeHead hd).releaseFreed hd := by
    rw [freeSlot] at hi
    simp only [State.publish, hh, he, hi, hg]
    rfl
  rw [hpub, hset]
  exact ⟨((honly.trans (hcharge.headOnly hd)).trans (headOnly_setHead ..)).trans ((headOnly_setHead ..).trans (hfree.headOnly hd)),
    c, _, by rw [hfree.head]; exact head_setHead_self ..⟩

theorem publish_vanished (hi : freeSlot h = some i) (hg : (s.offers hd 4096).head hd = none) : s.publish hd = s.offers hd 4096 := by
  rw [freeSlot] at hi
  simp only [State.publish, hh, he, hi, hg, Bool.not_true, Bool.false_eq_true, if_false]

/-- Without a free slot, a list that waits already stays as it is. -/
theorem publish_waiting (hi : freeSlot h = none) (hw : h.waiting = true) : s.publish hd = s := by
  rw [freeSlot] at hi
  simp only [State.publish, hh, he, hi, hw, Bool.not_true, Bool.false_eq_true, if_false, if_true]

/-- Without a free slot the list waits, and each walker tells so. -/
theorem publish_waits (hi : freeSlot h = none) (hw : h.waiting = false) :
    s.publish hd = h.geom.dies.foldl tellWaiting (s.setHead hd { h with waiting := true }) := by
  rw [freeSlot] at hi
  simp only [State.publish, hh, he, hi, hw, Bool.not_true, Bool.false_eq_true, if_false]
  rfl

end

/-- A list that shares nothing offers nothing (R276, R280). -/
theorem offers_unshared (hh : s.head hd = some h) (hs : h.geom.share = false) (fuel : Nat) : s.offers hd fuel = s := by
  cases fuel with
  | zero => rfl
  | succ fuel =>
    have hnone : s.treeOf h = none := by
      unfold State.treeOf
      split
      · rfl
      · split
        · simp [hs]
        · rfl
    simp [State.offers, State.offerOne, hh, hnone]

/-- An unshared list with a slot free is published in it. -/
theorem publish_unshared {i : Nat} (hh : s.head hd = some h) (he : h.edited = true) (hs : h.geom.share = false) (hi : freeSlot h = some i) :
    HeadOnly hd s (s.publish hd) ∧ ∃ c f, (s.publish hd).head hd = some { inSlot h i with charge := c, freed := f } := by
  have hoff := offers_unshared hh hs 4096
  have hpub := publish_offered hh he hi (g := h) (by rw [hoff]; exact hh)
  rwa [hoff] at hpub

theorem freeSlot_lt {i : Nat} (hi : freeSlot h = some i) : i < 4 := List.mem_range.mp (List.mem_of_find?_eq_some hi)

/-- The generation in its slot is the staging copy, where the list has its four slots. -/
theorem published_inSlot {i : Nat} (hi : freeSlot h = some i) (hl : h.slots.length = 4) : (inSlot h i).published = h.staging := by
  have hlt := freeSlot_lt hi
  simp [Head.published, inSlot, hl, hlt]

theorem slots_inSlot_ne (h : Head) {i j : Nat} (hj : j ≠ i) : (inSlot h i).slots.getD j [] = h.slots.getD j [] := by
  simp [inSlot, List.getD_eq_getElem?_getD, List.getElem?_set_ne hj.symm]

end

end Sys2Proof
end

section
/-! PROOF. O35: list heads are published, freed, read through their windows and truncated (R261, R263, R264, R268, R272). -/

namespace Sys2Proof

set_option Elab.async false

open Machine

theorem Quiet.kv {s t : State} (h : Quiet s t) : t.kv = s.kv := by rw [h.1]
theorem Quiet.rqt {s t : State} (h : Quiet s t) : t.rqt = s.rqt := by rw [h.1]

/-! ## PL_PUBLISH and FREE_QUEUE_RELEASE (R261, R263, R264) -/

theorem raised_tellWaiting (t : State) (n : Nat) : Raised (tellWaiting t n) (pgKVW n) 0 :=
  raised_congr (State.count_regs ..) (raised_raise t _ 0 (by decide))

theorem Onward.tellWaiting {p n : Nat} {z t : State} (h : Onward p z t) : Onward p z (tellWaiting t n) :=
  h.raise.countAbove (by unfold pgKVW pgDIE; omega)

/-- Every walker of a list of dies tells of it. -/
theorem raised_foldl_tellWaiting {n : Nat} {l : List Nat} (hn : n ∈ l) (s : State) : Raised (l.foldl tellWaiting s) (pgKVW n) 0 := by
  induction l generalizing s with
  | nil => exact absurd hn List.not_mem_nil
  | cons d l ih =>
    rw [List.foldl_cons]
    by_cases hl : n ∈ l
    · exact ih hl _
    · obtain rfl := (List.mem_cons.mp hn).resolve_right hl
      exact ((Onward.refl _ _).foldl fun _ _ _ => Onward.tellWaiting).events 0 (by decide) (raised_tellWaiting s n)

section
variable {hd : Nat} {s : State} {h : Head} (hh : s.head hd = some h)

section
variable (he : h.edited = true) (hq : ∀ e, s.rqOfHead hd = some e → e.2.step = none)
include hh he hq

omit hh he in
/-- A list whose request has no step in progress is published at once. -/
theorem exec_plPublish : exec (.plPublish hd) s = .next (s.publish hd) := by
  have hidle : ((s.rqOfHead hd).any fun e => e.2.step.isSome) = false := by
    cases hr : s.rqOfHead hd with
    | none => rfl
    | some e => simp [hq e hr]
  change execPlPublish hd s = _
  rw [execPlPublish, hidle, if_neg Bool.false_ne_true]

theorem plPublish_publishes {i : Nat} (hs : h.geom.share = false) (hl : h.slots.length = 4) (hi : freeSlot h = some i) :
    ∃ t h', exec (.plPublish hd) s = .next t ∧ t.head hd = some h' ∧ h'.gen = h.gen + 1 ∧ h'.cur = i ∧ h'.published = h.staging ∧
      h'.length = h.stagedLen ∧ h'.edited = false ∧ h'.staging = h.staging ∧ (∀ j, j ≠ i → h'.slots.getD j [] = h.slots.getD j []) ∧
      ∀ o, o ≠ hd → t.head o = s.head o := by
  obtain ⟨honly, c, f, hhead⟩ := publish_unshared hh he hs hi
  exact ⟨_, _, exec_plPublish hq, hhead, rfl, rfl, published_inSlot hi hl, rfl, rfl, rfl, fun j => slots_inSlot_ne h, honly.others⟩

theorem plPublish_waits (hi : freeSlot h = none) (hw : h.waiting = false) :
    ∃ t, exec (.plPublish hd) s = .next t ∧ t.head hd = some { h with waiting := true } ∧ (∀ n ∈ h.geom.dies, Raised t (pgKVW n) 0) ∧
      SameBytes s t := by
  have htold : PoolsOnly (s.setHead hd { h with waiting := true }) (s.publish hd) := by
    rw [publish_waits hh he hi hw]
    exact .foldl poolsOnly_tellWaiting _ _
  refine ⟨_, exec_plPublish hq, ?_, fun n hn => ?_, (SameBytes.of_eq : SameBytes s (s.setHead hd _)).trans htold.sameBytes⟩
  · rw [htold.head]
    exact head_setHead_self ..
  · rw [publish_waits hh he hi hw]
    exact raised_foldl_tellWaiting hn _

end

include hh in
theorem freeQueueRelease_releases :
    ∃ t, exec (.freeQueueRelease hd) s = .next t ∧ t.head hd = some { h with freed := h.freed.filter fun x => !h.unread x.gen } ∧ SameBytes s t := by
  have hfree := releaseFreed_spec hh
  refine ⟨s.releaseFreed hd, rfl, ?_, (SameBytes.of_eq : SameBytes s (s.setHead hd _)).trans hfree.sameBytes⟩
  rw [hfree.head]
  exact head_setHead_self ..

end

/-! ## Accesses through a KV window (R268) -/

section
variable {die : Fin 4} {c : Fin 1024} {va : Nat} {step : Option Nat} {o : LineOut} {s : State}
variable (hu : s.hasUnit (pgDIE die.val) = true) (hl : s.isLocalVa va = true) (hg : (s.granule c.val va).isSome = true)
include hu hl hg

theorem exec_kvWindowRead {host : Bool} {t : State} {bs : List Nat} {how : Nat} (h : s.ctxRead die.val c.val va host o step = (t, bs, how)) :
    exec (.kvWindowAccess die c va none host step o) s = .next { t with lp := { t.lp with line := bs, lineHow := how } } := by
  have hg' : (s.granule c.val va).isNone = false := by rw [← Option.not_isSome, hg]; rfl
  change execKvWindowAccess die c va none host step o s = _
  simp [execKvWindowAccess, hu, hl, hg', h]

theorem exec_kvWindowWrite {d : List Byte} (hne : d ≠ []) (hfit : va % 64 + d.length ≤ 64) : exec (.kvWindowAccess die c va (some d) false step o) s =
    .next (s.ctxWrite die.val c.val va false (d.map fun b => b.toNat) false o step).1 := by
  have hg' : (s.granule c.val va).isNone = false := by rw [← Option.not_isSome, hg]; rfl
  change execKvWindowAccess die c va (some d) false step o s = _
  simp [execKvWindowAccess, hu, hl, hg', hne, hfit]

theorem kvWindowRead_is_lineRead : ∃ t, exec (.kvWindowAccess die c va none false step o) s = .next t ∧ exec (.lpddrRead die c va step o) s = .next t := by
  obtain ⟨⟨t, bs, how⟩, hread⟩ : ∃ r, s.ctxRead die.val c.val va false o step = r := ⟨_, rfl⟩
  exact ⟨_, exec_kvWindowRead hu hl hg hread, exec_lpddrRead hu hl hread⟩

theorem kvWindowWrite_is_lineWrite (d : List Byte) (hne : d ≠ []) (hfit : va % 64 + d.length ≤ 64) :
    ∃ t, exec (.kvWindowAccess die c va (some d) false step o) s = .next t ∧ exec (.lpddrWrite die c va d false step o) s = .next t :=
  ⟨_, exec_kvWindowWrite hu hl hg hne hfit, exec_lpddrWrite hu hl hne hfit⟩

omit hu hl hg in
/-- The window of a list without H translates nothing for the host. -/
theorem window_closed {hd len : Nat} {h : Head} {write : Bool} (hgr : s.granule c.val va = some hd) (hh : s.head hd = some h)
    (hH : h.geom.h = false) : s.window c.val va write true len = some (.error 3) := by
  rw [State.head] at hh
  rw [State.window, hgr, Option.map_some, hh]
  exact congrArg some (if_pos (by rw [hH]; rfl))

/-- A list without H is closed to the host: its window translates nothing for it. -/
theorem kvWindowAccess_hostRefused (hd : Nat) (h : Head) (hgr : s.granule c.val va = some hd) (hh : s.head hd = some h) (hH : h.geom.h = false)
    (hva : va / 2 ^ 48 = 0) : ∃ t, exec (.kvWindowAccess die c va none true step o) s = .next t ∧ t.lp.lineHow = 3 ∧ t.lp.line = List.replicate 64 0 ∧
      Raised t (pgCEV c.val) 10 ∧ SameBytes s t := by
  have hx : s.xlate c.val va false true = .error 3 := by
    rw [State.xlate, if_neg (not_not.mpr hva), window_closed hgr hh hH]
  obtain ⟨s1, -, -, hno⟩ := access_outcome s die.isLt c.val va 1 false true
  obtain ⟨t, hacc, hr⟩ := hno 3 hx
  obtain ⟨m, hm⟩ := failStep?_steps t step (xltStatus 3) 3
  have hread : s.ctxRead die.val c.val va true o step = ({ t with steps := m }, List.replicate 64 0, 3) := by
    simp only [State.ctxRead, hacc, hm]
  exact ⟨_, exec_kvWindowRead hu hl hg hread, rfl, rfl, raised_congr rfl hr.told, hr.bytes.trans .of_eq⟩

end

/-! ## PL_TRUNCATE (R272) -/

section
variable {tag : Nat} {rq : Fin 8192} {len : Nat} {s : State} {h : Head}

/-- The truncation is noted with the request, and the command waits for the step boundary. -/
theorem plTruncate_waits (hp : Performs s 0 0x24) (hh : ((s.rq rq.val).head.bind s.head) = some h) (hlen : len < h.stagedLen)
    (hrun : rqTerminal (s.rq rq.val).state = false) :
    ∃ t, exec (.plTruncate 0 tag rq len) s = .next t ∧ t.rq rq.val = { s.rq rq.val with trunc := some len } ∧ t.host.resps = s.host.resps ∧
      t.host.waits = s.host.waits ++ [{ fn := 0, tag := tag, on := .drain 3 rq.val 0, result := 0 }] ∧ t.kv = s.kv ∧ t.regs = s.regs := by
  have hne : s.rq rq.val ≠ {} := fun he => by rw [he] at hh; cases hh
  have hexec : exec (.plTruncate 0 tag rq len) s = .next
      (((untake s 0 tag 0x24).modRq rq.val fun y => { y with trunc := some len }).hold 0 tag (.drain 3 rq.val 0) 0) := by
    have hh' : ((untake s 0 tag 0x24).rq rq.val).head.bind (untake s 0 tag 0x24).head = some h := hh
    have hrun' : rqTerminal ((untake s 0 tag 0x24).rq rq.val).state = false := hrun
    change execPlTruncate 0 tag rq len s = _
    rw [execPlTruncate, show ((0 : Fin 32) : Nat) = 0 from rfl, hp.command]
    simp [State.ownsRq, hh', hrun', hlen.not_ge]
  exact ⟨_, hexec, rq_modRq_self (s := untake s 0 tag 0x24) hne _, rfl, rfl, rfl, rfl⟩

/-- A list of `len` tokens whose staging copy is `m`, with `f` queued to be freed. -/
def shortened (h : Head) (len : Nat) (m : AMap PEnt) (f : List Freed) : Head :=
  { h with staging := m, freed := f, stagedLen := len, chain := h.chain.take (len / 64), log := h.log.take (len + 1), edited := true }

/-- A list cut at a page boundary keeps the entries below it, and no other. -/
theorem truncateTo_spec {hd : Nat} (hh : s.head hd = some h) (hlen : len % 64 = 0) : HeadOnly hd s (s.truncateTo hd len) ∧
    ∃ m f, (s.truncateTo hd len).head hd = some (shortened h len m f) ∧ ∀ k, mget m k = if keyPos k < len / 64 then mget h.staging k else none := by
  have hpages : ceilDiv len 64 = len / 64 := by
    rw [ceilDiv, if_neg (by decide)]
    omega
  obtain ⟨above, habove⟩ : ∃ l, (h.staging.map (·.1)).filter (fun k => decide (ceilDiv len 64 ≤ keyPos k)) = l := ⟨_, rfl⟩
  obtain ⟨honly, hcut⟩ := foldl_edit_cut above hh
  obtain ⟨m, e, f, hfold, hm⟩ := foldl_cut above h
  rw [hfold] at hcut
  have htrunc : s.truncateTo hd len = (above.foldl (fun t k => t.edit hd k none true) s).setHead hd (shortened h len m f) := by
    simp only [State.truncateTo, hh, hlen, if_true, List.foldl_nil, habove]
    exact head_modHead hcut _
  rw [htrunc]
  refine ⟨honly.trans (headOnly_setHead ..), m, f, head_setHead_self .., fun k => ?_⟩
  rw [hm, ← habove, hpages]
  by_cases hk : keyPos k < len / 64
  · rw [if_neg fun hmem => by simp [hk.not_ge] at hmem, if_pos hk]
  · rw [if_neg hk]
    split
    · rfl
    · next hno => exact mget_none_of_unlisted fun hmem => hno (List.mem_filter.mpr ⟨hmem, by simpa using hk⟩)

/-- Whose wait the step boundary of a request ends. -/
def onBoundary (rq : Nat) (w : WaitOn) : Bool :=
  match w with
  | .drain 3 r _ => r == rq
  | _ => false

/-- At the boundary the list is cut and published, and the command completes. -/
theorem exec_truncateApply {hd : Nat} (htr : (s.rq rq.val).trunc = some len) (hhd : (s.rq rq.val).head = some hd) (hst : (s.rq rq.val).step = none) :
    exec (.truncateApply rq) s = .next (((((s.truncateTo hd len).modRq rq.val fun y =>
      { y with trunc := none, promptDone := min y.promptDone len }).publish hd)).wake (onBoundary rq.val) stCOMPLETE) := by
  change execTruncateApply rq s = _
  simp only [execTruncateApply, htr, hhd, hst, Option.isSome_none, Bool.false_eq_true, if_false]
  rfl

theorem truncateApply_cuts {hd i : Nat} (htr : (s.rq rq.val).trunc = some len) (hhd : (s.rq rq.val).head = some hd) (hh : s.head hd = some h)
    (hst : (s.rq rq.val).step = none) (hlen : len % 64 = 0) (hs : h.geom.share = false) (hl : h.slots.length = 4) (hi : freeSlot h = some i) :
    ∃ t h', exec (.truncateApply rq) s = .next t ∧ (t.rq rq.val).trunc = none ∧ t.head hd = some h' ∧ h'.length = len ∧ h'.gen = h.gen + 1 ∧
      (∀ k e, mget h'.published k = some e → keyPos k < len / 64) ∧
      (∀ k, keyPos k < len / 64 → mget h'.published k = mget h.staging k) ∧
      ∀ fn tag, s.host.waits = [{ fn := fn, tag := tag, on := .drain 3 rq.val 0, result := 0 }] → t.host.waits = [] ∧ Answered s t fn tag 0 0 := by
  obtain ⟨hcut, m, f, hhead, hm⟩ := truncateTo_spec hh hlen
  obtain ⟨u, hu⟩ : ∃ u, (s.truncateTo hd len).modRq rq.val (fun y => { y with trunc := none, promptDone := min y.promptDone len }) = u := ⟨_, rfl⟩
  have hne : (s.truncateTo hd len).rq rq.val ≠ {} := fun he => by
    rw [State.rq, hcut.rqt] at he
    rw [State.rq, he] at htr
    cases htr
  have hrq : (u.rq rq.val).trunc = none := by rw [← hu, rq_modRq_self hne]
  have huhead : u.head hd = (s.truncateTo hd len).head hd := by rw [← hu]; rfl
  have huhost : u.host = (s.truncateTo hd len).host := by rw [← hu]; rfl
  obtain ⟨hpub, c, f', hphead⟩ := publish_unshared (huhead.trans hhead) rfl hs (i := i) hi
  have hwake := quiet_wake (u.publish hd) (onBoundary rq.val) stCOMPLETE
  have hmget : ∀ k, mget (inSlot (shortened h len m f) i).published k = if keyPos k < len / 64 then mget h.staging k else none := fun k => by
    rw [published_inSlot (h := shortened h len m f) hi hl]
    exact hm k
  refine ⟨(u.publish hd).wake (onBoundary rq.val) stCOMPLETE, { inSlot (shortened h len m f) i with charge := c, freed := f' }, ?_, ?_, ?_, rfl, rfl,
    fun k e hke => ?_, fun k hk => (hmget k).trans (if_pos hk), fun fn tag hw => ?_⟩
  · rw [exec_truncateApply htr hhd hst, hu]
  · rw [State.rq, hwake.rqt, hpub.rqt]
    exact hrq
  · rw [State.head, hwake.kv]
    exact hphead
  · by_contra hk
    cases ((hmget k).trans (if_neg hk)).symm.trans hke
  · have hone : (u.publish hd).host.waits = [{ fn := fn, tag := tag, on := .drain 3 rq.val 0, result := 0 }] := by
      rw [hpub.waits, huhost, hcut.waits, hw]
    obtain ⟨hnone, hanswer⟩ := wake_one stCOMPLETE hone (done := onBoundary rq.val) (by simp [onBoundary])
    refine ⟨hnone, hanswer.trans ?_⟩
    rw [hpub.resps, huhost, hcut.resps]

end

/-- Settles O35: publication by what `publish_unshared` says of an unshared list, reads and writes through a window by those of lines. -/
theorem listHeads : Obligations.ListHeads := by
  unfold Obligations.ListHeads
  refine ⟨⟨fun hd s h hh he hs hl hq => ⟨fun i => plPublish_publishes hh he hq hs hl, plPublish_waits hh he hq⟩,
      fun hd s h => freeQueueRelease_releases⟩,
    fun die c va step o s hu hl hg => ⟨kvWindowRead_is_lineRead hu hl hg, kvWindowWrite_is_lineWrite hu hl hg, kvWindowAccess_hostRefused hu hl hg⟩,
    fun tag rq len s h => plTruncate_waits, fun rq s len hd i h htr hhd hh hst hlen hs hl => truncateApply_cuts htr hhd hh hst hlen hs hl⟩

end Sys2Proof
end

section
/-! PROOF. O36: a rebuilt page whose layer number has no place in the key of a page-list entry (R258, R259, R274). -/

namespace Sys2Proof

open Machine

/-- A publication that leaves the list edited has found no slot, and frees nothing. -/
theorem freed_of_edited_publish {u : State} {hd : Nat} {h g : Head} (hh : u.head hd = some h) (he : h.edited = true)
    (hg : (u.publish hd).head hd = some g) (hge : g.edited = true) : g.freed = h.freed := by
  cases hi : freeSlot h with
  | none =>
    cases hw : h.waiting with
    | true =>
      rw [publish_waiting hh he hi hw, hh] at hg
      rw [← Option.some.inj hg]
    | false =>
      rw [publish_waits hh he hi hw, (PoolsOnly.foldl poolsOnly_tellWaiting _ _).head, head_setHead_self] at hg
      rw [← Option.some.inj hg]
  | some i =>
    cases hoff : (u.offers hd 4096).head hd with
    | none =>
      rw [publish_vanished hh he hi hoff, hoff] at hg
      cases hg
    | some g0 =>
      obtain ⟨-, c, f, hpub⟩ := publish_offered hh he hi hoff
      rw [hpub] at hg
      rw [← Option.some.inj hg] at hge
      cases hge

/-- The page of layer 256 of die slot 0: its key is that of layer 0 of die slot 1. -/
def strayPage : PEnt := { state := 1, loc := 21 }

/-- A list over pools 1 and 2 that holds it; every other generation slot has a reader, and the list waits for one. -/
def strayHead : Head :=
  { ctx := 5, die := 0, frame := 0, geom := { pools := [1, 2] }, waiting := true, readers := [0, 1, 1, 1], staging := [(pkey 0 256 0, strayPage)] }

def strayStep : Step := { ctx := 5, members := [{ idx := 9, rebuild := some (0, 256, 0) }] }

/-- Request 9 rebuilds that page in step 7; pool 1 has a free page for it. -/
def strayState : State :=
  { State.reset with
    kv := { heads := [(1, strayHead)], pools := [(1, { die := 0, isDomain := false, owner := 5, units := 1, low := 0, high := 0, free := [30] })] }
    rqt := { entries := [(9, { head := some 1, rebuilds := [(0, 256, 0)], step := some 7 })] }
    steps := [(7, strayStep)] }

def headAfter (r : Result) (hd : Nat) : Option Head :=
  match r with
  | .next t => t.head hd
  | _ => none

/-- The old page is queued for the pool of die slot 1, where the recompute chunk took the fresh one from that of die slot 0. -/
theorem strayState_rebuilt : (headAfter (exec (.rebuildChunk 9 {}) strayState) 1).map (fun g => (g.edited, g.freed)) =
    some (true, [{ gen := 1, pool := 2, ent := strayPage }]) := by decide +kernel

/-- Refutes O36: a page of layer 256, which the key of a page-list entry has no room for, stands under the key of another die slot, and the edit queues
it for that slot's pool. R258 gives a list 1 to 252 layers; the statement bounds neither layer nor position. -/
theorem not_pageMoves : ¬ Obligations.PageMoves := by
  unfold Obligations.PageMoves
  rintro ⟨hrebuild, -⟩
  obtain ⟨u, h', hexec, hhead, -, hfreed, hedited, -, -⟩ := hrebuild 9 {} strayState strayState
    ((strayState.modRq 9 fun y => { y with rebuilds := [], recomputed := true, cntRecomp := min 255 (y.cntRecomp + 1) }).takePage 1).1
    0 256 0 [] 1 strayHead 7 strayStep strayPage [] 30 0 rfl rfl rfl rfl rfl rfl rfl rfl rfl (by decide) rfl rfl rfl
  have hrun := strayState_rebuilt
  rw [hexec] at hrun
  obtain ⟨g, hg, hpair⟩ := Option.map_eq_some_iff.mp hrun
  obtain ⟨hge, hgf⟩ := Prod.mk.inj hpair
  have hkept := freed_of_edited_publish hhead hedited hg hge
  rw [← hkept, hgf, List.mem_singleton] at hfreed
  exact absurd hfreed (by decide)

end Sys2Proof
end

section
/-! PROOF. O37: the commands on KV pools, list heads, sharing domains and the cellar tier (R256, R258, R269, R276, R278, R281, R288, R498). -/

namespace Sys2Proof

open Machine

/-- A command that ends with what the pages show: its answer is the one response added, and beside it only register fields change. -/
theorem showKv_respond (s : State) (fn tag st r : Nat) : ∃ t, s.showKv.respond fn tag st r = t ∧ t.kv = s.kv ∧ t.lp = s.lp ∧ t.rqt = s.rqt ∧
    t.host.resps = s.host.resps ++ [{ fn := fn, tag := tag, status := st, result := r }] ∧ SameBytes s t :=
  have h := showKv_regs s
  ⟨_, rfl, h.kv, h.lp, h.rqt, congrArg (· ++ _) h.resps, h.sameBytes.trans .of_eq⟩

theorem sameBytes_untake (s : State) (fn tag op : Nat) : SameBytes s (untake s fn tag op) := .of_eq

/-! ## The pool commands (R256, R288) -/

/-- The state with `x` as pool `p`. -/
def setPool (s : State) (p : Nat) (x : KvPool) : State := { s with kv := { s.kv with pools := mput s.kv.pools p x } }

theorem modPool_eq {s : State} {p : Nat} {x : KvPool} (h : s.pool p = some x) (f : KvPool → KvPool) : s.modPool p f = setPool s p (f x) := by
  rw [State.modPool, mmod_some h]
  rfl

/-- The pages that a run of frames makes. -/
def runPages (r : FrameRun) (x : KvPool) : List Nat := (List.range (r.count / x.units)).map fun i => r.first + i * x.units

/-- The pool without the pages of a run. -/
def lessPages (r : FrameRun) (x : KvPool) : KvPool :=
  { x with free := x.free.filter fun l => !(runPages r x).contains l, total := x.total - (runPages r x).length }

section
variable {fn : Fin 32} {tag pool : Nat} {s : State}

section
variable {die owner bytes low high : Nat} {isDomain : Bool}
variable (hp : Performs s fn.val 0x20) (hd : s.dieThere die = true) (ho : s.ownerOpen isDomain owner = true) (hpos : 0 < bytes)
  (hframes : bytes % 4096 = 0) (hmax : bytes ≤ 262144) (hmarks : low ≤ high) (hnum : pool < 0xFF00) (hnew : s.pool pool = none)
include hp hd ho hpos hframes hmax hmarks hnum hnew

theorem exec_kvpoolCreate : exec (.kvpoolCreate fn tag pool die isDomain owner bytes low high) s = .next ((setPool (untake s fn.val tag 0x20) pool
    { die := die, isDomain := isDomain, owner := owner, units := bytes / 4096, low := low, high := high }).showKv.respond fn.val tag stCOMPLETE 0) := by
  have hd' : (untake s fn.val tag 0x20).dieThere die = true := hd
  have ho' : (untake s fn.val tag 0x20).ownerOpen isDomain owner = true := ho
  have hnew' : (untake s fn.val tag 0x20).pool pool = none := hnew
  have hbad : ¬(bytes = 0 ∨ bytes % 4096 ≠ 0 ∨ 262144 < bytes ∨ high < low ∨ 0xFF00 ≤ pool) := by omega
  change execKvpoolCreate fn tag pool die isDomain owner bytes low high s = _
  rw [execKvpoolCreate, hp.command]
  simp only [hd', ho', hnew', decide_eq_false hbad, Option.isSome_none, Bool.or_self, Bool.not_true, Bool.false_eq_true, if_false]
  rfl

theorem kvpoolCreate_creates :
    ∃ t, exec (.kvpoolCreate fn tag pool die isDomain owner bytes low high) s = .next t ∧ Answered s t fn.val tag 0 0 ∧
      t.pool pool = some { die := die, isDomain := isDomain, owner := owner, units := bytes / 4096, low := low, high := high } ∧
      (∀ p, p ≠ pool → t.pool p = s.pool p) ∧ SameBytes s t := by
  have hexec := exec_kvpoolCreate hp hd ho hpos hframes hmax hmarks hnum hnew (tag := tag)
  obtain ⟨t, ht, hkv, -, -, hresps, hbytes⟩ := showKv_respond (setPool (untake s fn.val tag 0x20) pool
    { die := die, isDomain := isDomain, owner := owner, units := bytes / 4096, low := low, high := high }) fn.val tag stCOMPLETE 0
  rw [ht] at hexec
  refine ⟨t, hexec, hresps, ?_, fun p hne => ?_, (SameBytes.of_eq : SameBytes s (setPool _ _ _)).trans hbytes⟩ <;> rw [State.pool, hkv]
  · exact mget_mput_self ..
  · exact mget_mput_ne _ _ hne

end

section
variable {r : FrameRun} {x : KvPool} (hx : s.pool pool = some x) (hpin : x.pinned = none)

theorem mem_runPages {l : Nat} : l ∈ runPages r x ↔ ∃ i, i < r.count / x.units ∧ r.first + i * x.units = l := by simp [runPages]

theorem length_runPages : (runPages r x).length = r.count / x.units := by simp [runPages]

section
variable (hp : Performs s fn.val 0x21) (hd : s.dieThere x.die = true) (hdie : r.die = x.die) (hc : r.count ≠ 0) (hin : s.inPools r = false)
  (hown : ∀ f, f ∈ runFrames r → ∃ y, s.frame f = some y ∧ y.otype = boolNat x.isDomain ∧ y.owner = x.owner ∧ y.clearing = false ∧ y.kind = 1)
include hx hpin hp hd hdie hc hin hown

/-- Page frames of the pool's owner that no pool holds become pages, or summary frames. -/
theorem exec_kvpoolAdd (sums : Bool) (hunits : sums = true ∨ r.count % x.units = 0) : exec (.kvpoolAdd fn tag pool sums r) s = .next (
    let t := untake s fn.val tag 0x21
    if sums then (setPool t pool { x with sums := x.sums + r.count }).respond fn.val tag stCOMPLETE 0
    else (setPool t pool { x with free := x.free ++ runPages r x, total := x.total + (runPages r x).length }).showKv.respond
      fn.val tag stCOMPLETE 0) := by
  have hx' : (untake s fn.val tag 0x21).pool pool = some x := hx
  have hd' : (untake s fn.val tag 0x21).dieThere x.die = true := hd
  have hin' : (untake s fn.val tag 0x21).inPools r = false := hin
  have hdie' : (r.die != x.die) = false := by rw [hdie, bne_self_eq_false]
  have hpin' : x.pinned.isSome = false := by rw [hpin]; rfl
  have hwhole : (!sums && r.count % x.units != 0) = false := by
    obtain rfl | h0 := hunits
    · rfl
    · rw [h0, bne_self_eq_false, Bool.and_false]
  have hforeign : ((runFrames r).any fun f => !(((untake s fn.val tag 0x21).frame f).any fun y =>
      y.otype == boolNat x.isDomain && y.owner == x.owner && !y.clearing)) = false := by
    rw [List.any_eq_false]
    intro f hf
    obtain ⟨y, hy, hot, how, hcl, -⟩ := hown f hf
    rw [show (untake s fn.val tag 0x21).frame f = some y from hy]
    simp [hot, how, hcl]
  have hkind : ((runFrames r).any fun f => !(((untake s fn.val tag 0x21).frame f).any fun y => y.kind == 1)) = false := by
    rw [List.any_eq_false]
    intro f hf
    obtain ⟨y, hy, -, -, -, hk⟩ := hown f hf
    rw [show (untake s fn.val tag 0x21).frame f = some y from hy]
    simp [hk]
  change execKvpoolAdd fn tag pool sums r s = _
  rw [execKvpoolAdd, hp.command]
  simp only [hx', hd', hin', hdie', hwhole, hforeign, hkind, hpin', hc, decide_false, Bool.or_self, Bool.not_true,
    Bool.false_eq_true, if_false, modPool_eq hx']
  rfl

theorem kvpoolAdd_pages (hunits : r.count % x.units = 0) : ∃ t, exec (.kvpoolAdd fn tag pool false r) s = .next t ∧ Answered s t fn.val tag 0 0 ∧
    t.pool pool = some { x with free := x.free ++ runPages r x, total := x.total + r.count / x.units } ∧ SameBytes s t := by
  have hexec := exec_kvpoolAdd hx hpin hp hd hdie hc hin hown (tag := tag) false (.inr hunits)
  dsimp only at hexec
  rw [if_neg Bool.false_ne_true, length_runPages] at hexec
  obtain ⟨t, ht, hkv, -, -, hresps, hbytes⟩ := showKv_respond (setPool (untake s fn.val tag 0x21) pool
    { x with free := x.free ++ runPages r x, total := x.total + r.count / x.units }) fn.val tag stCOMPLETE 0
  rw [ht] at hexec
  refine ⟨t, hexec, hresps, ?_, (SameBytes.of_eq : SameBytes s (setPool _ _ _)).trans hbytes⟩
  rw [State.pool, hkv]
  exact mget_mput_self ..

theorem kvpoolAdd_sums : ∃ t, exec (.kvpoolAdd fn tag pool true r) s = .next t ∧ Answered s t fn.val tag 0 0 ∧
    t.pool pool = some { x with sums := x.sums + r.count } ∧ SameBytes s t :=
  ⟨_, exec_kvpoolAdd hx hpin hp hd hdie hc hin hown true (.inl rfl), rfl, mget_mput_self .., .of_eq⟩

end

section
variable (hp : Performs s fn.val 0x22) (hdie : r.die = x.die) (hu : x.units ≠ 0) (hunits : r.count % x.units = 0)
  (hfree : ∀ i, i < r.count / x.units → (r.first + i * x.units) ∈ x.free)
include hx hpin hp hdie hu hunits hfree

/-- Free pages leave their pool; it tells where it falls below its low watermark. -/
theorem exec_kvpoolRemove : ∃ u, PoolsOnly (setPool (untake s fn.val tag 0x22) pool (lessPages r x)) u ∧
    u.kv = (setPool (untake s fn.val tag 0x22) pool (lessPages r x)).kv ∧
    exec (.kvpoolRemove fn tag pool r) s = .next (u.showKv.respond fn.val tag stCOMPLETE 0) := by
  have hx' : (untake s fn.val tag 0x22).pool pool = some x := hx
  have hdie' : (r.die != x.die) = false := by rw [hdie, bne_self_eq_false]
  have hunits' : (r.count % x.units != 0) = false := by rw [hunits, bne_self_eq_false]
  have hpin' : x.pinned.isSome = false := by rw [hpin]; rfl
  have hall : ((runPages r x).any fun p => !x.free.contains p) = false := by
    rw [List.any_eq_false]
    intro l hl
    obtain ⟨i, hi, rfl⟩ := mem_runPages.mp hl
    simp [hfree i hi]
  rw [runPages] at hall
  refine ⟨if decide (x.low ≤ x.free.length ∧ x.free.length - (runPages r x).length < x.low) then
    (setPool (untake s fn.val tag 0x22) pool (lessPages r x)).raise (pgKVW x.die) 1 else setPool (untake s fn.val tag 0x22) pool (lessPages r x), ?_, ?_, ?_⟩
  · split
    · exact poolsOnly_raise ..
    · exact poolsOnly_refl _
  · split
    · exact State.raise_kv ..
    · rfl
  · change execKvpoolRemove fn tag pool r s = _
    rw [execKvpoolRemove, hp.command]
    simp only [hx', hdie', hunits', hall, hpin', hu, decide_false, Bool.or_self, Bool.false_eq_true, if_false, modPool_eq hx']
    rfl

theorem kvpoolRemove_removes : ∃ t y, exec (.kvpoolRemove fn tag pool r) s = .next t ∧ Answered s t fn.val tag 0 0 ∧ t.pool pool = some y ∧
    (∀ i, i < r.count / x.units → (r.first + i * x.units) ∉ y.free) ∧ y.total = x.total - r.count / x.units ∧
    (∀ l ∈ x.free, (∀ i, i < r.count / x.units → l ≠ r.first + i * x.units) → l ∈ y.free) ∧ SameBytes s t := by
  obtain ⟨u, hu', hukv, hexec⟩ := exec_kvpoolRemove hx hpin hp hdie hu hunits hfree (tag := tag)
  obtain ⟨t, ht, hkv, -, -, hresps, hbytes⟩ := showKv_respond u fn.val tag stCOMPLETE 0
  rw [ht] at hexec
  have hkept : ∀ l, l ∈ (lessPages r x).free ↔ l ∈ x.free ∧ l ∉ runPages r x := fun l => by simp [lessPages]
  refine ⟨t, lessPages r x, hexec, ?_, ?_, fun i hi => ?_, ?_, fun l hl hne => ?_,
    ((SameBytes.of_eq : SameBytes s (setPool _ _ _)).trans hu'.sameBytes).trans hbytes⟩
  · rw [Answered, hresps, hu'.resps]
    rfl
  · rw [State.pool, hkv, hukv]
    exact mget_mput_self ..
  · rw [hkept]
    exact fun h => h.2 (mem_runPages.mpr ⟨i, hi, rfl⟩)
  · exact congrArg (x.total - ·) length_runPages
  · rw [hkept]
    refine ⟨hl, fun hmem => ?_⟩
    obtain ⟨i, hi, he⟩ := mem_runPages.mp hmem
    exact hne i hi he.symm

end

end

end

end Sys2Proof
end

section
/-! PROOF. List heads made and destroyed (R258, R269, R288; a part of O37). -/

namespace Sys2Proof

open Machine

/-! ## PL_CREATE (R258, R269) -/

theorem poolsOnly_cutPinned (s : State) (p units : Nat) : PoolsOnly s (s.cutPinned p units) := by
  unfold State.cutPinned
  split
  · exact poolsOnly_refl s
  · split
    · exact poolsOnly_refl s
    · split
      · exact poolsOnly_refl s
      · exact poolsOnly_modPool ..

/-- An empty list head over a geometry takes the next number; the request table and the answers stay. -/
theorem makeHead_spec (s : State) (c : Nat) (g : Geom) (log : List Nat) : ∃ u h, s.makeHead c g log = (u, s.kv.headNext) ∧
    u.head s.kv.headNext = some h ∧ h.ctx = c ∧ h.geom = g ∧ h.gen = 0 ∧ h.staging = [] ∧ h.stagedLen = 0 ∧ h.log = log ∧
    u.kv.headNext = s.kv.headNext + 1 ∧ u.rqt = s.rqt ∧ u.host.resps = s.host.resps := by
  unfold State.makeHead
  extract_lets hd
  obtain ⟨s1, fr, hfresh⟩ : ∃ s1 fr, s.fresh 25 = (s1, fr) := ⟨_, _, rfl⟩
  rw [hfresh]
  dsimp only
  have h1 : s1 = { s with freeIdx := s.freeIdx + 1 } := (congrArg Prod.fst hfresh).symm
  obtain ⟨s2, hs2⟩ : ∃ s2, (List.range g.dies.length).foldl (fun t j => t.cutPinned (g.poolOf j) g.units) s1 = s2 := ⟨_, rfl⟩
  rw [hs2]
  have h2 : PoolsOnly s1 s2 := hs2 ▸ PoolsOnly.foldl (fun t j => poolsOnly_cutPinned ..) _ s1
  obtain ⟨c', u, hu, hcharge⟩ := chargeHead_spec (hd := hd) (h := { ctx := c, die := g.dies.headD 0, frame := fr, geom := g, log := log })
    (s := { s2 with kv := { s2.kv with
      heads := mput s2.kv.heads hd { ctx := c, die := g.dies.headD 0, frame := fr, geom := g, log := log }
      headNext := hd + 1
      granules := g.granules.foldl (fun m n => mput m (c * 4096 + n) hd) s2.kv.granules } }) (mget_mput_self ..)
  rw [hcharge]
  have hshow := poolsOnly_showKv (u.setHead hd { ctx := c, die := g.dies.headD 0, frame := fr, geom := g, log := log, charge := c' })
  refine ⟨_, _, rfl, (congrFun hshow.head hd).trans (head_setHead_self ..), rfl, rfl, rfl, rfl, rfl, rfl, ?_, ?_, ?_⟩
  · exact hshow.headNext.trans hu.headNext
  · exact (hshow.rqt.trans hu.rqt).trans (h2.rqt.trans (by rw [h1]))
  · exact (hshow.resps.trans hu.resps).trans (h2.resps.trans (by rw [h1]))

theorem seeModel_spec (s : State) (m : Nat) : ∃ l, s.seeModel m = { s with rqt := { s.rqt with models := l } } := by
  unfold State.seeModel
  split <;> exact ⟨_, rfl⟩

section
variable {fn : Fin 32} {tag headVa : Nat} {rq : Fin 8192} {s t1 : State} {x : Rq} {bs : List Nat}
variable (hp : Performs s fn.val 0x23) (hx : mget s.rqt.entries rq.val = some x)
  (hread : (untake s fn.val tag 0x23).hubRead x.ctx headVa 4 = (t1, some bs)) (hok : t1.headRefused x.ctx (geomOf bs) = none) (hnone : x.head = none)
include hp hx hread hok hnone

/-- A template that nothing refuses becomes the list head of a request without one. -/
theorem exec_plCreate : exec (.plCreate fn tag rq headVa) s = .next
    ((((t1.seeModel (geomOf bs).model).makeHead x.ctx (geomOf bs) x.prompt).1.modRq rq.val fun y =>
      { y with head := some ((t1.seeModel (geomOf bs).model).makeHead x.ctx (geomOf bs) x.prompt).2 }).respond fn.val tag stCOMPLETE 0) := by
  have hx' : mget (untake s fn.val tag 0x23).rqt.entries rq.val = some x := hx
  change execPlCreate fn tag rq headVa s = _
  rw [execPlCreate, hp.command]
  simp only [hx', hread, hok, hnone, Option.isSome_none, Bool.false_eq_true, if_false]

theorem plCreate_creates (hx1 : mget t1.rqt.entries rq.val = some x) :
    ∃ t h, exec (.plCreate fn tag rq headVa) s = .next t ∧ t.host.resps = t1.host.resps ++ [{ fn := fn.val, tag := tag, status := 0, result := 0 }] ∧
      (t.rq rq.val).head = some t1.kv.headNext ∧ t.head t1.kv.headNext = some h ∧ h.ctx = x.ctx ∧ h.geom = geomOf bs ∧ h.gen = 0 ∧ h.staging = [] ∧
      h.stagedLen = 0 ∧ h.log = x.prompt ∧ t.kv.headNext = t1.kv.headNext + 1 := by
  obtain ⟨l, hl⟩ := seeModel_spec t1 (geomOf bs).model
  obtain ⟨u, h, hmake, hhead, hctx, hgeom, hgen, hstaging, hlen, hlog, hnext, hrqt, hresps⟩ :=
    makeHead_spec (t1.seeModel (geomOf bs).model) x.ctx (geomOf bs) x.prompt
  have hexec := exec_plCreate hp hx hread hok hnone
  rw [hmake] at hexec
  rw [hl] at hhead hnext hrqt hresps hexec
  have hentry : mget u.rqt.entries rq.val = some x := by rw [hrqt]; exact hx1
  refine ⟨_, h, hexec, congrArg (· ++ _) hresps, ?_, hhead, hctx, hgeom, hgen, hstaging, hlen, hlog, hnext⟩
  rw [State.rq, State.respond_rqt, State.modRq, mget_mmod_self, hentry]
  rfl

end

/-! ## PL_DESTROY (R288) -/

/-- The page room of a request goes back to the pools of its list. -/
theorem dropRoom_spec {s : State} {i : Nat} {h : Head} (hh : (s.rq i).head.bind s.head = some h) :
    ∃ u, PoolsOnly s u ∧ s.dropRoom i = u.modRq i fun y => { y with room := 0 } := by
  unfold State.dropRoom
  dsimp only
  rw [hh]
  exact ⟨_, PoolsOnly.foldl (fun t j => poolsOnly_modPool ..) _ s, rfl⟩

/-- The state without list head `hd`, its window and its moves to and from the cellar tier. -/
def withoutHead (s : State) (hd : Nat) : State :=
  { s with kv := { s.kv with
    heads := mdel s.kv.heads hd
    granules := s.kv.granules.filter fun e => e.2 != hd
    fetches := s.kv.fetches.filter fun m => m.head != hd
    spills := s.kv.spills.filter fun m => m.head != hd } }

theorem destroyHead_eq {s : State} {hd : Nat} {h : Head} (hh : s.head hd = some h) :
    ∃ u, PoolsOnly s u ∧ s.destroyHead hd = (withoutHead u hd).showKv := by
  rw [State.destroyHead, hh]
  exact ⟨_, (PoolsOnly.foldl poolsOnly_freeEnt _ s).trans (.foldl (fun t j => poolsOnly_giveSys ..) _ _), rfl⟩

/-- A list head that is destroyed is gone, and no other. -/
theorem destroyHead_spec {s : State} {hd : Nat} {h : Head} (hh : s.head hd = some h) : (s.destroyHead hd).head hd = none ∧
    (∀ o, o ≠ hd → (s.destroyHead hd).head o = s.head o) ∧ (s.destroyHead hd).rqt = s.rqt ∧ (s.destroyHead hd).host.resps = s.host.resps ∧
      SameBytes s (s.destroyHead hd) := by
  obtain ⟨u, hu, hdestroy⟩ := destroyHead_eq hh
  have hshow := poolsOnly_showKv (withoutHead u hd)
  rw [hdestroy, hshow.head, hshow.rqt, hshow.resps]
  refine ⟨mget_mdel_self .., fun o ho => ?_, hu.rqt, hu.resps, (hu.sameBytes.trans .of_eq).trans hshow.sameBytes⟩
  rw [← hu.head]
  exact mget_mdel_ne _ ho

section
variable {tag hd : Nat} {rq : Fin 8192} {s : State} (hp : Performs s 0 0x25) (hend : rqTerminal (s.rq rq.val).state = true)
  (hhd : (s.rq rq.val).head = some hd) (hsome : (s.head hd).isSome = true)
include hp hend hhd hsome

omit hsome in
theorem exec_plDestroy : exec (.plDestroy 0 tag rq) s = .next (((((untake s 0 tag 0x25).dropRoom rq.val).destroyHead hd).modRq rq.val fun y =>
    { y with head := none, rebuilds := [], trunc := none }).respond 0 tag stCOMPLETE 0) := by
  have hend' : rqTerminal ((untake s 0 tag 0x25).rq rq.val).state = true := hend
  have hhd' : ((untake s 0 tag 0x25).rq rq.val).head = some hd := hhd
  change execPlDestroy 0 tag rq s = _
  rw [execPlDestroy, show ((0 : Fin 32) : Nat) = 0 from rfl, hp.command]
  simp [State.ownsRq, hend', hhd', State.plDestroy]

theorem plDestroy_destroys : ∃ t, exec (.plDestroy 0 tag rq) s = .next t ∧ Answered s t 0 tag 0 0 ∧ t.head hd = none ∧ (t.rq rq.val).head = none ∧
    (∀ o, o ≠ hd → t.head o = s.head o) ∧ SameBytes s t := by
  obtain ⟨h, hh⟩ := Option.isSome_iff_exists.mp hsome
  have hne : s.rq rq.val ≠ {} := fun he => by rw [he] at hhd; cases hhd
  obtain ⟨u, hu, hroom⟩ := dropRoom_spec (s := untake s 0 tag 0x25) (i := rq.val) (h := h) (by
    change (s.rq rq.val).head.bind s.head = _
    rw [hhd]
    exact hh)
  have huhead : (u.modRq rq.val fun y => { y with room := 0 }).head = s.head := hu.head
  obtain ⟨hgone, hothers, hrqt, hresps, hbytes⟩ := destroyHead_spec (s := u.modRq rq.val fun y => { y with room := 0 }) (hd := hd) (h := h)
    (by rw [huhead]; exact hh)
  have hentry : (mget (u.modRq rq.val fun y => { y with room := 0 }).rqt.entries rq.val).isSome = true := by
    rw [State.modRq, mget_mmod_self, hu.rqt, show (untake s 0 tag 0x25).rqt = s.rqt from rfl, entry_of_rq_ne hne]
    rfl
  have hexec := exec_plDestroy hp hend hhd (tag := tag)
  rw [hroom] at hexec
  refine ⟨_, hexec, congrArg (· ++ _) (hresps.trans hu.resps), hgone, ?_, fun o ho => (hothers o ho).trans (congrFun huhead o),
    ((sameBytes_untake ..).trans (hu.sameBytes.trans .of_eq)).trans (hbytes.trans .of_eq)⟩
  obtain ⟨y, hy⟩ := Option.isSome_iff_exists.mp hentry
  rw [State.rq, State.respond_rqt, State.modRq, mget_mmod_self, hrqt, hy]
  rfl

end

end Sys2Proof
end

section
/-! PROOF. Sharing domains and the cellar tier (R276, R278, R281, R498), and O37. -/

namespace Sys2Proof

open Machine

/-! ## DOMAIN_CREATE (R276, R278) -/

/-- What the pages show of the keys is written to register fields alone. -/
theorem showKeys_regs (s : State) : RegsOnly s s.showKeys := by
  unfold State.showKeys
  extract_lets n s1
  have h1 : RegsOnly s s1 := .foldl (fun t d => .foldl (fun u g => (regsOnly_refl u).wri ..) _ t) _ s
  exact (h1.wri ..).wri ..

/-- The state with domain `d` over the region at `b`, its hash key the next one. -/
def withDomain (s : State) (d b size : Nat) : State :=
  { s with
    kv := { s.kv with domains := mput s.kv.domains d { base := b, size := size, hashKey := s.lp.keyNext } }
    lp := { s.lp with keyNext := s.lp.keyNext + 1 } }

section
variable {fn : Fin 32} {tag size d b : Nat} {s : State}
variable (hp : Performs s fn.val 0x05) (hidle : s.kv.copyTo = none) (hne : size ≠ 0) (hsets : size % 4 = 0)
  (hd : ((List.range 256).find? fun d => (mget s.kv.domains d).isNone) = some d) (hb : s.regionAt size = some b)
include hp hidle hne hsets hd hb

theorem exec_domainCreate : exec (.domainCreate fn tag size) s = .next
    ((withDomain ((untake s fn.val tag 0x05).installKey (1024 + d)) d b size).respond fn.val tag stCOMPLETE d) := by
  have hd' : ((List.range 256).find? fun d => (mget (untake s fn.val tag 0x05).kv.domains d).isNone) = some d := hd
  have hb' : (untake s fn.val tag 0x05).regionAt size = some b := hb
  change execDomainCreate fn tag size s = _
  rw [execDomainCreate, commandUnless_ready (by rw [hidle]; rfl), hp.command]
  simp only [hne, hsets, hd', hb', ne_eq, not_true_eq_false, or_self, if_false]
  rfl

theorem domainCreate_creates : ∃ t k, exec (.domainCreate fn tag size) s = .next t ∧ Answered s t fn.val tag 0 d ∧
    mget t.kv.domains d = some { base := b, size := size, hashKey := k } ∧ (∀ j, j ≠ d → mget t.kv.domains j = mget s.kv.domains j) ∧
    (mget t.lp.keys (1024 + d)).isSome = true ∧ SameBytes s t := by
  have hshow : RegsOnly { untake s fn.val tag 0x05 with lp := { s.lp with
    keys := mput s.lp.keys (1024 + d) s.lp.keyNext, keyNext := s.lp.keyNext + 1 } } ((untake s fn.val tag 0x05).installKey (1024 + d)) :=
    showKeys_regs _
  have hexec := exec_domainCreate hp hidle hne hsets hd hb (tag := tag)
  generalize (untake s fn.val tag 0x05).installKey (1024 + d) = u at hshow hexec
  have hdomains : u.kv.domains = s.kv.domains := by rw [hshow.kv]; rfl
  refine ⟨_, u.lp.keyNext, hexec, congrArg (· ++ _) hshow.resps, mget_mput_self .., fun j hj => ?_, ?_, ?_⟩
  · rw [← hdomains]
    exact mget_mput_ne _ _ hj
  · change (mget u.lp.keys (1024 + d)).isSome = true
    rw [hshow.lp]
    exact Option.isSome_of_eq_some (mget_mput_self ..)
  · exact (SameBytes.trans .of_eq hshow.sameBytes).trans .of_eq

end

/-! ## DOMAIN_END (R276, R281) -/

/-- A field of the context entries of a CTXS page (R419). -/
def entryField (F0 : Field) : Bool := F0.off == 0x800 && F0.stride == 4 && decide (F0.lo < 32)

/-- The entries of two contexts share no field. -/
theorem entryField_ne {c c' : Nat} {F0 F1 : Field} (hne : c ≠ c') (hc : c < 1024) (hc' : c' < 1024) (h0 : entryField F0 = true)
    (h1 : entryField F1 = true) : fkey (ctxsPage c) F0 (c % 512) ≠ fkey (ctxsPage c') F1 (c' % 512) := by
  simp only [entryField, Bool.and_eq_true, beq_iff_eq, decide_eq_true_eq] at h0 h1
  obtain ⟨⟨hoff0, hstride0⟩, hlo0⟩ := h0
  obtain ⟨⟨hoff1, hstride1⟩, hlo1⟩ := h1
  simp only [fkey, ctxsPage, pgCTXS0, pgCTXS1, hoff0, hstride0, hoff1, hstride1]
  split <;> split <;> omega

theorem ctxField_setCtxField_ne (s : State) {c c' : Nat} {F0 F1 : Field} (v : Nat) (hne : c ≠ c') (hc : c < 1024) (hc' : c' < 1024)
    (h0 : entryField F0 = true) (h1 : entryField F1 = true) :
    (s.setCtxField F1 c' v).ctxField F0 c = s.ctxField F0 c :=
  State.rdi_wri_ne s v (entryField_ne hne hc hc' h0 h1)

/-- A context leaves its domain if that is `dom` (R276). -/
def leaveDomain (dom : Nat) (u : State) (c : Nat) : State :=
  if u.domainOf c = some dom then
    ((u.setCtxField F.CTXS_ENTRY_DOM_VALID c 0).setCtxField F.CTXS_ENTRY_DOMAIN c 0).setCtxField F.CTXS_ENTRY_BATCH_SHARE c 0
  else u

theorem leaveDomain_regs (dom : Nat) (u : State) (c : Nat) : RegsOnly u (leaveDomain dom u c) := by
  unfold leaveDomain
  split
  · exact (((regsOnly_refl u).wri ..).wri ..).wri ..
  · exact regsOnly_refl u

theorem domainOf_eq_none_iff {s : State} {c : Nat} : s.domainOf c = none ↔ s.ctxField F.CTXS_ENTRY_DOM_VALID c ≠ 1 := by
  unfold State.domainOf
  split <;> simp [*]

theorem domainOf_leaveDomain_self (dom : Nat) {u : State} {c : Nat} (h : u.domainOf c = some dom) : (leaveDomain dom u c).domainOf c = none := by
  rw [domainOf_eq_none_iff, leaveDomain, if_pos h, State.ctxField, State.setCtxField, State.setCtxField, State.setCtxField,
    State.rdi_wri_ne _ _ (by simp only [fkey, F.CTXS_ENTRY_DOM_VALID, F.CTXS_ENTRY_BATCH_SHARE]; omega),
    State.rdi_wri_ne _ _ (by simp only [fkey, F.CTXS_ENTRY_DOM_VALID, F.CTXS_ENTRY_DOMAIN]; omega), State.rdi_wri_self]
  decide

theorem domainOf_leaveDomain_ne (dom : Nat) (u : State) {c c' : Nat} (hne : c ≠ c') (hc : c < 1024) (hc' : c' < 1024) :
    (leaveDomain dom u c').domainOf c = u.domainOf c := by
  have hset : ∀ (t : State) (F0 F1 : Field), entryField F0 = true → entryField F1 = true →
      (t.setCtxField F1 c' 0).ctxField F0 c = t.ctxField F0 c := fun t F0 F1 h0 h1 => ctxField_setCtxField_ne t 0 hne hc hc' h0 h1
  have hentry : ∀ (t : State) (F0 : Field), entryField F0 = true → (((t.setCtxField F.CTXS_ENTRY_DOM_VALID c' 0).setCtxField
      F.CTXS_ENTRY_DOMAIN c' 0).setCtxField F.CTXS_ENTRY_BATCH_SHARE c' 0).ctxField F0 c = t.ctxField F0 c := fun t F0 h0 => by
    rw [hset _ _ _ h0 (by decide), hset _ _ _ h0 (by decide), hset _ _ _ h0 (by decide)]
  unfold leaveDomain
  split
  · rw [State.domainOf, hentry _ _ (by decide), hentry _ _ (by decide), ← State.domainOf]
  · rfl

/-- Who is in no domain stays in none. -/
theorem domainOf_leavers_none (dom : Nat) {c : Nat} (hc : c < 1024) {l : List Nat} (hl : ∀ c' ∈ l, c' < 1024) {u : State} (h : u.domainOf c = none) :
    (l.foldl (leaveDomain dom) u).domainOf c = none := by
  induction l generalizing u with
  | nil => exact h
  | cons c' l ih =>
    rw [List.forall_mem_cons] at hl
    refine ih hl.2 ?_
    by_cases hne : c = c'
    · subst hne
      rwa [leaveDomain, if_neg (by rw [h]; exact nofun)]
    · rwa [domainOf_leaveDomain_ne dom u hne hc hl.1]

/-- The members of a domain leave it. -/
theorem domainOf_leavers (dom : Nat) {c : Nat} (hc : c < 1024) {l : List Nat} (hl : ∀ c' ∈ l, c' < 1024) (hmem : c ∈ l) {u : State}
    (h : u.domainOf c = some dom) : (l.foldl (leaveDomain dom) u).domainOf c = none := by
  induction l generalizing u with
  | nil => exact absurd hmem List.not_mem_nil
  | cons c' l ih =>
    rw [List.forall_mem_cons] at hl
    rw [List.foldl_cons]
    by_cases hne : c = c'
    · subst hne
      exact domainOf_leavers_none dom hc hl.2 (domainOf_leaveDomain_self dom h)
    · exact ih hl.2 (List.mem_of_ne_of_mem hne hmem) (by rwa [domainOf_leaveDomain_ne dom u hne hc hl.1])

/-! What the pages show of keys and pools stands outside the context entries -/

theorem rdi_showKeys_entry (s : State) (c : Nat) : s.showKeys.ctxField F.CTXS_ENTRY_DOM_VALID c = s.ctxField F.CTXS_ENTRY_DOM_VALID c := by
  have hpage : ctxsPage c < 5 := by
    unfold ctxsPage pgCTXS0 pgCTXS1
    split <;> omega
  have hfree : ∀ pg, fkey (ctxsPage c) F.CTXS_ENTRY_DOM_VALID (c % 512) ≠ fkey pg F.CTXS_KEY_SLOTS_FREE 0 := fun pg => by
    simp only [fkey, F.CTXS_ENTRY_DOM_VALID, F.CTXS_KEY_SLOTS_FREE]
    omega
  unfold State.showKeys State.ctxField
  extract_lets n s1
  rw [State.rdi_wri_ne _ _ (hfree _), State.rdi_wri_ne _ _ (hfree _)]
  refine rdi_foldl _ s fun d _ t => rdi_foldl _ t fun g _ u => State.rdi_wri_ne u n ?_
  simp only [fkey, F.CTXS_ENTRY_DOM_VALID, pgLPG, pgDIE]
  omega

theorem rdi_showKv_below (s : State) {pg i : Nat} {F0 : Field} (h : fkey pg F0 i < pgHOST * 131072) : s.showKv.rdi pg F0 i = s.rdi pg F0 i := by
  have hne : ∀ {p : Nat} (F1 : Field), pgHOST ≤ p → fkey pg F0 i ≠ fkey p F1 0 := fun F1 hp => by
    have hk := Nat.mul_le_mul_right 131072 hp
    simp only [fkey, pgHOST] at h hk ⊢
    omega
  have hwalk : ∀ n, pgHOST ≤ pgKVW n := fun n => by
    simp only [pgHOST, pgKVW, pgDIE]
    omega
  unfold State.showKv
  extract_lets s1
  rw [State.rdi_wri_ne _ _ (hne _ le_rfl), State.rdi_wri_ne _ _ (hne _ le_rfl)]
  refine rdi_foldl _ s fun n _ t => ?_
  simp only [State.wr, State.rdi_wri_ne _ _ (hne _ (hwalk n))]

theorem ctxField_showKv (s : State) (c : Nat) : s.showKv.ctxField F.CTXS_ENTRY_DOM_VALID c = s.ctxField F.CTXS_ENTRY_DOM_VALID c := by
  refine rdi_showKv_below s ?_
  simp only [fkey, ctxsPage, pgCTXS0, pgCTXS1, pgHOST, F.CTXS_ENTRY_DOM_VALID]
  split <;> omega

section
variable {fn : Fin 32} {tag dom : Nat} {s : State} {x : Dom}
variable (hp : Performs s fn.val 0x06) (hidle : s.kv.copyTo = none) (hx : mget s.kv.domains dom = some x) (hlive : x.ended = false)
  (hbusy : s.domainBusy dom = false) (hempty : ∀ e ∈ s.kv.pfx, e.2.dom ≠ dom)
include hp hidle hx hlive hbusy hempty

/-- A domain without prefixes that no list shares goes at once: its members leave it and its key is destroyed. -/
theorem exec_domainEnd : exec (.domainEnd fn tag dom) s = .next ((((List.range 1024).foldl (leaveDomain dom)
    { untake s fn.val tag 0x06 with kv := { s.kv with domains := mdel s.kv.domains dom } }).destroyKey (1024 + dom)).showKv.respond
      fn.val tag stCOMPLETE 0) := by
  have hx' : mget (untake s fn.val tag 0x06).kv.domains dom = some x := hx
  have hbusy' : (untake s fn.val tag 0x06).domainBusy dom = false := hbusy
  have hmine : ((untake s fn.val tag 0x06).kv.pfx.filter fun e => e.2.dom == dom) = [] :=
    List.filter_eq_nil_iff.mpr fun e he => by simpa using hempty e he
  have hleft : ((untake s fn.val tag 0x06).kv.pfx.any fun e => e.2.dom == dom) = false :=
    List.any_eq_false.mpr fun e he => by simpa using hempty e he
  change execDomainEnd fn tag dom s = _
  rw [execDomainEnd, commandUnless_ready (by rw [hidle]; rfl), hp.command]
  simp only [hx', hlive, hbusy', hmine, hleft, List.map_nil, List.foldl_nil, Bool.or_self, Bool.false_eq_true, if_false]
  rfl

theorem domainEnd_ends : ∃ t, exec (.domainEnd fn tag dom) s = .next t ∧ Answered s t fn.val tag 0 0 ∧ mget t.kv.domains dom = none ∧
    mget t.lp.keys (1024 + dom) = none ∧ (∀ c, c < 1024 → s.domainOf c = some dom → t.domainOf c = none) ∧ SameBytes s t := by
  have hexec := exec_domainEnd hp hidle hx hlive hbusy hempty (tag := tag)
  obtain ⟨s1, hs1⟩ : ∃ s1, { untake s fn.val tag 0x06 with kv := { s.kv with domains := mdel s.kv.domains dom } } = s1 := ⟨_, rfl⟩
  obtain ⟨s2, hs2⟩ : ∃ s2, (List.range 1024).foldl (leaveDomain dom) s1 = s2 := ⟨_, rfl⟩
  obtain ⟨s3, hs3⟩ : ∃ s3, s2.destroyKey (1024 + dom) = s3 := ⟨_, rfl⟩
  rw [hs1, hs2, hs3] at hexec
  have h2 : RegsOnly s1 s2 := hs2 ▸ RegsOnly.foldl (leaveDomain_regs dom) _ s1
  have h3 : RegsOnly { s2 with lp := { s2.lp with keys := mdel s2.lp.keys (1024 + dom) } } s3 := hs3 ▸ showKeys_regs _
  obtain ⟨t, ht, hkv, hlp, -, hresps, hbytes⟩ := showKv_respond s3 fn.val tag stCOMPLETE 0
  have hleft : ∀ c, c < 1024 → s.domainOf c = some dom → t.domainOf c = none := fun c hc hmem => by
    have hout : s2.domainOf c = none := by
      rw [← hs2]
      exact domainOf_leavers dom hc (fun c' => List.mem_range.mp) (List.mem_range.mpr hc) (by rw [← hs1]; exact hmem)
    rw [domainOf_eq_none_iff] at hout ⊢
    have hshown : t.ctxField F.CTXS_ENTRY_DOM_VALID c = s3.showKv.ctxField F.CTXS_ENTRY_DOM_VALID c := ht ▸ rfl
    rwa [hshown, ctxField_showKv, ← hs3, State.destroyKey, rdi_showKeys_entry]
  have h1 : SameBytes s s1 := hs1 ▸ .of_eq
  rw [ht] at hexec
  refine ⟨t, hexec, ?_, ?_, ?_, hleft, ((h1.trans h2.sameBytes).trans (SameBytes.trans .of_eq h3.sameBytes)).trans hbytes⟩
  · rw [Answered, hresps, h3.resps, h2.resps, ← hs1]
    rfl
  · rw [hkv, h3.kv, h2.kv, ← hs1]
    exact mget_mdel_self ..
  · rw [hlp, h3.lp]
    exact mget_mdel_self ..

end

/-! ## The cellar tier (R498) -/

/-- The state with the cellar ranges `l`. -/
def withRanges (s : State) (l : List (Nat × Nat)) : State := { s with kv := { s.kv with ranges := l } }

/-- The HOST page shows the number of cellar ranges. -/
theorem rd_showKv_ranges (s : State) : s.showKv.rd pgHOST F.HOST_CELLAR_RANGES = s.kv.ranges.length % 2 ^ 7 := by
  unfold State.showKv State.rd
  extract_lets s1
  rw [State.wr, State.rdi_wri_ne _ _ (by decide)]
  exact State.rdi_wri_self ..

section
variable {fn : Fin 32} {tag addr len : Nat} {s : State}

section
variable (hp : Performs s fn.val 0x26) (haddr : addr % 2 ^ 21 = 0) (hlen : len % 2 ^ 21 = 0) (hne : len ≠ 0) (htop : addr + len ≤ 2 ^ 64)
  (hcount : s.kv.ranges.length < 64) (hapart : ∀ r ∈ s.kv.ranges, r.1 + r.2 ≤ addr ∨ addr + len ≤ r.1)
include hp haddr hlen hne htop hcount hapart

theorem exec_cellarAdd : exec (.cellarAdd fn tag addr len) s =
    .next ((withRanges (untake s fn.val tag 0x26) (s.kv.ranges ++ [(addr, len)])).showKv.respond fn.val tag stCOMPLETE 0) := by
  have hgood : ¬(addr % 2 ^ 21 ≠ 0 ∨ len % 2 ^ 21 ≠ 0 ∨ len = 0 ∨ 2 ^ 64 < addr + len ∨ 64 ≤ (untake s fn.val tag 0x26).kv.ranges.length) := by
    have hcount' : (untake s fn.val tag 0x26).kv.ranges.length < 64 := hcount
    omega
  have hfree : ((untake s fn.val tag 0x26).kv.ranges.any fun r => decide (addr < r.1 + r.2 ∧ r.1 < addr + len)) = false :=
    List.any_eq_false.mpr fun r hr => by
      have := hapart r hr
      simp only [decide_eq_true_eq]
      omega
  change execCellarAdd fn tag addr len s = _
  rw [execCellarAdd, hp.command, if_neg hgood, hfree, if_neg Bool.false_ne_true]
  rfl

theorem cellarAdd_adds : ∃ t, exec (.cellarAdd fn tag addr len) s = .next t ∧ Answered s t fn.val tag 0 0 ∧
    t.kv.ranges = s.kv.ranges ++ [(addr, len)] ∧ t.rd pgHOST F.HOST_CELLAR_RANGES = s.kv.ranges.length + 1 ∧ SameBytes s t := by
  have hexec := exec_cellarAdd hp haddr hlen hne htop hcount hapart (tag := tag)
  have hshown := rd_showKv_ranges (withRanges (untake s fn.val tag 0x26) (s.kv.ranges ++ [(addr, len)]))
  obtain ⟨t, ht, hkv, -, -, hresps, hbytes⟩ :=
    showKv_respond (withRanges (untake s fn.val tag 0x26) (s.kv.ranges ++ [(addr, len)])) fn.val tag stCOMPLETE 0
  rw [ht] at hexec
  refine ⟨t, hexec, hresps, congrArg (·.ranges) hkv, ?_, (SameBytes.of_eq : SameBytes s (withRanges _ _)).trans hbytes⟩
  rw [← ht]
  refine hshown.trans ?_
  rw [withRanges, List.length_append, List.length_singleton]
  omega

end

section
variable (hp : Performs s fn.val 0x27) (hmem : (addr, len) ∈ s.kv.ranges) (hempty : ∀ e ∈ s.kv.recs, e.2.slot < addr ∨ addr + len ≤ e.2.slot)
include hp hmem hempty

theorem exec_cellarRemove : exec (.cellarRemove fn tag addr len) s =
    .next ((withRanges (untake s fn.val tag 0x27) (s.kv.ranges.erase (addr, len))).showKv.respond fn.val tag stCOMPLETE 0) := by
  have hmem' : (untake s fn.val tag 0x27).kv.ranges.contains (addr, len) = true := List.contains_iff_mem.mpr hmem
  have hempty' : ((untake s fn.val tag 0x27).kv.recs.any fun e => decide (addr ≤ e.2.slot ∧ e.2.slot < addr + len)) = false :=
    List.any_eq_false.mpr fun e he => by
      have := hempty e he
      simp only [decide_eq_true_eq]
      omega
  change execCellarRemove fn tag addr len s = _
  rw [execCellarRemove, hp.command, hmem', hempty', if_neg (by decide)]
  rfl

theorem cellarRemove_removes : ∃ t, exec (.cellarRemove fn tag addr len) s = .next t ∧ Answered s t fn.val tag 0 0 ∧
    t.kv.ranges = s.kv.ranges.erase (addr, len) ∧ SameBytes s t := by
  have hexec := exec_cellarRemove hp hmem hempty (tag := tag)
  obtain ⟨t, ht, hkv, -, -, hresps, hbytes⟩ :=
    showKv_respond (withRanges (untake s fn.val tag 0x27) (s.kv.ranges.erase (addr, len))) fn.val tag stCOMPLETE 0
  rw [ht] at hexec
  exact ⟨t, hexec, hresps, congrArg (·.ranges) hkv, (SameBytes.of_eq : SameBytes s (withRanges _ _)).trans hbytes⟩

end

end

/-- Settles O37: each command passes the checks that its clause's hypotheses name, and the state it then leaves is computed. -/
theorem poolsHeadsAndCellar : Obligations.PoolsHeadsAndCellar := by
  unfold Obligations.PoolsHeadsAndCellar
  refine ⟨⟨?_, ?_, ?_⟩, ⟨?_, ?_⟩, ⟨?_, ?_⟩, ?_⟩
  · intro fn tag pool die isDomain owner bytes low high s hp hd ho hpos hframes hmax hmarks hnum hnew
    exact kvpoolCreate_creates hp hd ho hpos hframes hmax hmarks hnum hnew
  · intro fn tag pool r s x hp hx hd hdie hpin hc hin hown
    exact ⟨kvpoolAdd_pages hx hpin hp hd hdie hc hin hown, kvpoolAdd_sums hx hpin hp hd hdie hc hin hown⟩
  · intro fn tag pool r s x hp hx hpin hdie hu hunits hfree
    exact kvpoolRemove_removes hx hpin hp hdie hu hunits hfree
  · intro fn tag rq headVa s t1 x bs hp hx hread hok hnone hx1
    exact plCreate_creates hp hx hread hok hnone hx1
  · intro tag rq s hd hp hend hhd hsome
    exact plDestroy_destroys hp hend hhd hsome
  · intro fn tag size s d b hp hidle hne hsets hd hb
    exact domainCreate_creates hp hidle hne hsets hd hb
  · intro fn tag dom s x hp hidle hx hlive hbusy hempty
    exact domainEnd_ends hp hidle hx hlive hbusy hempty
  · intro fn tag addr len s
    exact ⟨cellarAdd_adds, cellarRemove_removes⟩

end Sys2Proof
end

section
/-! SUPPORT. The hub's writes of context memory and its posts leave alone all but main memory, the spiles and the accounting. -/

namespace Sys2Proof

open Machine

/-- Nothing changes but register fields, counters, messages on their way out, free values, main memory and the spiles; and of the counters of the
hub's own pages, which stand below 0x1000, none moves but that of the messages. -/
structure HubWork (s t : State) : Prop where
  rest : t = { s with
    regs := t.regs
    ctrs := t.ctrs
    msgs := t.msgs
    freeIdx := t.freeIdx
    host := { s.host with msixPend := t.host.msixPend, heldMsgs := t.host.heldMsgs }
    lp := t.lp
    spl := t.spl }
  counters : ∀ pg off, pg * 4096 + off < 0x1000000 → pg * 4096 + off ≠ msgCtr → t.ctr pg off = s.ctr pg off

theorem HubWork.refl (s : State) : HubWork s s := ⟨rfl, fun _ _ _ _ => rfl⟩

section
variable {z s t u : State}

theorem HubWork.trans (h : HubWork s t) (k : HubWork t u) : HubWork s u :=
  ⟨k.rest.trans (by rw [h.rest]), fun pg off hlt hm => (k.counters pg off hlt hm).trans (h.counters pg off hlt hm)⟩

theorem HubWork.mill (h : HubWork s t) : t.mill = s.mill := by rw [h.rest]
theorem HubWork.resps (h : HubWork s t) : t.host.resps = s.host.resps := by rw [h.rest]

theorem HubWork.ite {c : Prop} [Decidable c] (h : HubWork z s) (k : HubWork z t) : HubWork z (if c then s else t) := by
  split <;> assumption

theorem HubWork.foldl {α : Type} {g : State → α → State} (hg : ∀ t x, HubWork z t → HubWork z (g t x)) :
    ∀ (l : List α) {s : State}, HubWork z s → HubWork z (l.foldl g s)
  | [], _, h => h
  | x :: l, s, h => HubWork.foldl hg l (hg s x h)

/-! The accounting -/

theorem HubWork.wri (h : HubWork z s) (pg : Nat) (F0 : Field) (i v : Nat) : HubWork z (s.wri pg F0 i v) := h.trans ⟨rfl, fun _ _ _ _ => rfl⟩

theorem HubWork.free (h : HubWork z s) (n : Nat) : HubWork z { s with freeIdx := n } := h.trans ⟨rfl, fun _ _ _ _ => rfl⟩

theorem HubWork.setLp (h : HubWork z s) (m : LpSt) : HubWork z { s with lp := m } := h.trans ⟨rfl, fun _ _ _ _ => rfl⟩

theorem HubWork.setSpl (h : HubWork z s) (m : SplSt) : HubWork z { s with spl := m } := h.trans ⟨rfl, fun _ _ _ _ => rfl⟩

theorem hubCtr_ne {p o pg off : Nat} (hlt : p * 4096 + o < 0x1000000) (hpg : 0x1000 ≤ pg) : p * 4096 + o ≠ pg * 4096 + off := by omega

/-- A counter of a die's or a context's page. -/
theorem HubWork.count (h : HubWork z s) {pg : Nat} (hpg : 0x1000 ≤ pg) (off n : Nat) : HubWork z (s.count pg off n) :=
  h.trans ⟨rfl, fun _ _ hlt _ => State.ctr_count_ne s n (hubCtr_ne hlt hpg)⟩

theorem Quiet.hubWork (h : Quiet s t) (hn : NoAnswer s t)
    (hc : ∀ pg off, pg * 4096 + off < 0x1000000 → pg * 4096 + off ≠ msgCtr → t.ctr pg off = s.ctr pg off) : HubWork s t := by
  obtain ⟨hstate, hhost⟩ := h
  obtain ⟨hresps, hwaits, htaken⟩ := hn
  rw [hresps, hwaits, htaken] at hhost
  refine ⟨?_, hc⟩
  rw [← hhost]
  exact hstate.trans (by rw [hstate])

theorem HubWork.raise (h : HubWork z s) (pg bit : Nat) : HubWork z (s.raise pg bit) :=
  h.trans (((quiet_refl s).raise pg bit).hubWork (noAnswer_raise s pg bit) fun _ _ _ hm => ctr_raise s pg bit hm)

theorem HubWork.capture (h : HubWork z s) (pg code loc : Nat) (ctx : Option Nat) : HubWork z (s.capture pg code loc ctx) := by
  unfold State.capture
  exact .ite (h.wri ..) (((((((h.wri ..).wri ..).wri ..).wri ..).wri ..).wri ..).wri .. |>.raise ..)

theorem pgCEV_hub (c : Nat) : 0x1000 ≤ pgCEV c := by
  unfold pgCEV
  omega

theorem HubWork.ctxEvent (h : HubWork z s) (c bit st code q : Nat) : HubWork z (s.ctxEvent c bit st code q) := by
  unfold State.ctxEvent
  exact .ite (((h.raise ..).raise ..).count (pgCEV_hub c) ..) ((((((h.wri ..).wri ..).wri ..).wri ..).wri ..).raise ..)

theorem HubWork.ctxNoteQ (h : HubWork z s) (c bit q : Nat) : HubWork z (s.ctxNoteQ c bit q) := (h.free _).ctxEvent ..

/-! Lines (R192–R196) -/

theorem frameGroup_hub (f : Nat) : 0x1000 ≤ frameGroup f := by
  unfold frameGroup pgLPG pgDIE
  omega

theorem pgXLT_hub (n : Nat) : 0x1000 ≤ pgXLT n := by
  unfold pgXLT pgDIE
  omega

theorem HubWork.crcTouch (h : HubWork z s) (l : Nat) (dirty parity : Bool) : HubWork z (s.crcTouch l dirty parity) := by
  have hpg := frameGroup_hub (frameOfLine l)
  unfold State.crcTouch
  extract_lets k pg
  split
  · have h1 := ((h.raise pg 7).capture pg 3 (32 * frameDie (frameOfLine l) + frameChan (frameOfLine l) + 256 * frameJ (frameOfLine l)) none).count
      hpg 0x054 1
    exact .ite (.ite (h1.setLp _) (h1.setLp _)) (h.setLp _)
  · have h1 := (h.count hpg 0x054 1).count hpg 0x058 1
    exact .ite (h1.setLp _) ((h1.free _).setLp _)

theorem HubWork.confirm (h : HubWork z s) (f : Nat) (poison : Bool) : HubWork z (s.confirm f poison) := by
  have hpg := frameGroup_hub f
  unfold State.confirm
  extract_lets pg ch s1 lp1 s2 lp2 s3
  have h1 : HubWork z s1 := (((h.raise ..).count hpg ..).count hpg ..).capture ..
  have h2 : HubWork z s2 := h1.setLp _
  have h3 : HubWork z s3 := .ite (h2.setLp _) h2
  split
  · next x _ =>
    have h4 : HubWork z (s3.setFrame f (hit x)) := h3.setLp _
    exact .ite (h4.raise ..) h4
  · exact h3

theorem HubWork.lineRead (h : HubWork z s) (l key : Nat) (o : LineOut) : HubWork z (s.lineRead l key o).1 := by
  have hpg := frameGroup_hub (frameOfLine l)
  unfold State.lineRead
  extract_lets f pg s1 text how mirrored xp s2 lp2
  have h1 : HubWork z s1 := (h.count hpg ..).crcTouch ..
  have h2 : HubWork z s2 := (h1.confirm ..).count (pgXLT_hub _) ..
  clear_value mirrored s2 how
  split
  · exact .ite (h1.count hpg ..) h1
  · split
    · split
      · exact h2.raise ..
      · have h3 : HubWork z { s2 with lp := { s2.lp with bad := mdel s2.lp.bad l } } := h2.setLp _
        exact h3.raise ..
    · exact h1.confirm ..

theorem HubWork.putLine (h : HubWork z s) (l key : Nat) (bs : List Nat) (bad : Bool) : HubWork z (s.putLine l key bs bad) := h.setLp _

theorem HubWork.lineWrite (h : HubWork z s) (l key off : Nat) (bs : List Nat) (bad : Bool) (o : LineOut) :
    HubWork z (s.lineWrite l key off bs bad o) := by
  have hpg := frameGroup_hub (frameOfLine l)
  unfold State.lineWrite
  refine .ite (((h.count hpg ..).crcTouch ..).putLine ..) ?_
  exact ((((h.lineRead ..).count hpg ..).count hpg ..).crcTouch ..).putLine ..

/-! Translated writes (R205, R208) -/

theorem HubWork.labTouch (h : HubWork z s) (n key : Nat) (big : Bool) : HubWork z (s.labTouch n key big) := by
  have hpg := pgXLT_hub n
  unfold State.labTouch
  extract_lets xp k s1 mine
  have h1 : HubWork z s1 := (h.count hpg ..).count hpg ..
  exact .ite (.ite (h.count hpg ..) h) (.ite (h1.setLp _) ((h1.free _).setLp _))

theorem HubWork.access (h : HubWork z s) (n c va : Nat) (write host : Bool) (len : Nat) : HubWork z (s.access n c va write host len).1 := by
  have hpg := pgXLT_hub n
  unfold State.access
  extract_lets xp s0 s1
  have h0 : HubWork z s0 := h.count hpg ..
  have h1 : HubWork z s1 := by
    simp only [s1]
    split
    · exact h0.labTouch ..
    · exact (h0.count hpg ..).count hpg ..
    · split
      · exact h0.labTouch ..
      · exact (h0.count hpg ..).count hpg ..
  split
  · exact h1
  · extract_lets s2 s3
    have h2 : HubWork z s2 := (((h1.count hpg ..).count hpg ..).capture ..).ctxEvent ..
    simp only [s3]
    split
    · exact (h2.count (frameGroup_hub _) ..).capture ..
    · exact h2

theorem HubWork.ctxWrite (h : HubWork z s) (n c va : Nat) (host : Bool) (bs : List Nat) (bad : Bool) (o : LineOut) :
    HubWork z (s.ctxWrite n c va host bs bad o none).1 := by
  have ha := h.access n c va true host (max 1 bs.length)
  unfold State.ctxWrite
  split
  · next s1 code heq => rw [heq] at ha; exact ha
  · next s1 pa heq => rw [heq] at ha; dsimp only; exact HubWork.lineWrite ha ..

theorem HubWork.hubWrite (h : HubWork z s) (c va : Nat) (bs : List Nat) : HubWork z (s.hubWrite c va bs) :=
  .foldl (fun _ _ ht => ht.ctxWrite ..) _ h

/-! Posts (R137, R156) -/

theorem pgSPL_hub (c : Nat) : 0x1000 ≤ pgSPL c := by
  unfold pgSPL
  omega

theorem HubWork.release (h : HubWork z s) (c : Nat) (w : Who) (phys taken : Nat) (take : Bool) : HubWork z (s.release c w phys taken take) :=
  (h.setSpl _).count (pgSPL_hub c) ..

theorem HubWork.releaseWaiters (h : HubWork z s) (phys : Nat) : HubWork z (s.releaseWaiters phys) := by
  unfold State.releaseWaiters
  extract_lets x
  split
  exact .foldl (fun _ _ ht => ht.release ..) _ ((h.setSpl _).setSpl _)

theorem HubWork.enginePost (h : HubWork z s) (c v phys n : Nat) : HubWork z (s.enginePost c v phys n) := by
  unfold State.enginePost
  extract_lets x past s1 s2
  have h1 : HubWork z s1 := HubWork.count (h.setSpl _) (pgSPL_hub c) ..
  have h2 : HubWork z s2 := .ite (h1.ctxNoteQ ..) h1
  exact h2.releaseWaiters phys

theorem HubWork.hubPost (h : HubWork z s) (c v n : Nat) : HubWork z (s.hubPost c v n) := by
  unfold State.hubPost
  split
  · exact (h.ctxNoteQ ..).count (pgSPL_hub c) ..
  · exact .ite (h.ctxNoteQ ..) (h.enginePost ..)

end

end Sys2Proof
end

section
/-! SUPPORT. The Mill's page, its jobs, and how they end (R335–R337, R344). -/

namespace Sys2Proof

open Machine

/-! What the page shows (R344) -/

theorem RegsOnly.mill {s t : State} (h : RegsOnly s t) : t.mill = s.mill := by rw [h]
theorem RegsOnly.ctrs {s t : State} (h : RegsOnly s t) : t.ctrs = s.ctrs := by rw [h]
theorem RegsOnly.host {s t : State} (h : RegsOnly s t) : t.host = s.host := by rw [h]

theorem showMill_regs (s : State) : RegsOnly s s.showMill :=
  (((((((((regsOnly_refl s).wr ..).wr ..).wr ..).wr ..).wr ..).wr ..).wr ..).wr ..).wr ..

@[simp] theorem showMill_mill (s : State) : s.showMill.mill = s.mill := (showMill_regs s).mill
@[simp] theorem showMill_host (s : State) : s.showMill.host = s.host := (showMill_regs s).host
@[simp] theorem showMill_ctrs (s : State) : s.showMill.ctrs = s.ctrs := (showMill_regs s).ctrs
@[simp] theorem showMill_ctr (s : State) (pg off : Nat) : s.showMill.ctr pg off = s.ctr pg off := by rw [State.ctr, showMill_ctrs, State.ctr]

/-! A job written -/

theorem mget_setJob_self (s : State) (i : Nat) (j : MillJob) : mget (s.setJob i j).mill.jobs i = some j := mget_mput_self ..

theorem mget_setJob_ne (s : State) {i o : Nat} (j : MillJob) (h : o ≠ i) : mget (s.setJob i j).mill.jobs o = mget s.mill.jobs o :=
  mget_mput_ne _ _ h

theorem sameBytes_setJob (s : State) (i : Nat) (j : MillJob) : SameBytes s (s.setJob i j) := .of_eq

@[simp] theorem setJob_ctr (s : State) (i : Nat) (j : MillJob) (pg off : Nat) : (s.setJob i j).ctr pg off = s.ctr pg off := rfl

theorem mget_jobOver (s : State) (i : Nat) (j : MillJob) (st : Nat) :
    mget (s.jobOver i j st).mill.jobs i = some { j with loc := .ended st } := by
  rw [State.jobOver, showMill_mill]
  exact mget_setJob_self ..

theorem sameBytes_jobOver (s : State) (i : Nat) (j : MillJob) (st : Nat) : SameBytes s (s.jobOver i j st) :=
  (sameBytes_setJob ..).trans (showMill_regs _).sameBytes

/-! A job ends (R337) -/

/-- The hold of a chained job is on a buffer of its stream: the codec alone hears of it. -/
theorem dropChainHold_codec (s : State) (j : MillJob) : ∃ c, s.dropChainHold j = { s with codec := c } := by
  unfold State.dropChainHold
  split <;> exact ⟨_, rfl⟩

/-- Of the Mill, job `i` alone goes; no command is answered; the job is counted, and among those of class 0 if it is one. -/
structure JobEnded (i : Nat) (j : MillJob) (s t : State) : Prop where
  mill : t.mill = { s.mill with jobs := mdel s.mill.jobs i }
  resps : t.host.resps = s.host.resps
  counted : t.ctr pgMILL 0x04C = s.ctr pgMILL 0x04C + 1
  class0 : j.list.cls = 0 → t.ctr pgMILL 0x05C = s.ctr pgMILL 0x05C + 1

theorem pgCNT_above (c : Nat) {off off' : Nat} (h : off < 4096) : pgMILL * 4096 + off ≠ pgCNT c * 4096 + off' := by
  unfold pgMILL pgCNT
  omega

theorem jobEnded_endJob {s : State} {i : Nat} {j : MillJob} (hj : mget s.mill.jobs i = some j) (st : Nat) : JobEnded i j s (s.endJob i st) := by
  unfold State.endJob
  split
  next hnone => exact nomatch hj.symm.trans hnone
  next j' hj' =>
  obtain rfl : j = j' := Option.some.inj (hj.symm.trans hj')
  extract_lets c word s1 s2 s3 s4
  have hpost : HubWork s (s1.hubPost c j.list.spile 1) := (HubWork.foldl (fun _ _ ht => ht.hubWrite ..) _ (.refl s)).hubPost ..
  have hmill : s3.mill = s.mill := by
    simp only [s3]
    split <;> exact hpost.mill
  have hresps : s3.host.resps = s.host.resps := by
    simp only [s3]
    split <;> exact hpost.resps
  have hcounted : s2.ctr pgMILL 0x04C = s.ctr pgMILL 0x04C + 1 := by
    rw [State.ctr_count_ne _ _ (pgCNT_above c (by decide)), State.ctr_count_self, hpost.counters _ _ (by decide) (by decide)]
  have hclass0 : s2.ctr pgMILL 0x05C = s.ctr pgMILL 0x05C := by
    rw [State.ctr_count_ne _ _ (pgCNT_above c (by decide)), State.ctr_count_ne _ _ (by decide), hpost.counters _ _ (by decide) (by decide)]
  have hall : s3.ctr pgMILL 0x04C = s.ctr pgMILL 0x04C + 1 := by
    simp only [s3]
    split
    · rw [State.ctr_count_ne _ _ (by decide), hcounted]
    · exact hcounted
  have hfirst : j.list.cls = 0 → s3.ctr pgMILL 0x05C = s.ctr pgMILL 0x05C + 1 := fun h0 => by
    simp only [s3]
    rw [if_pos h0, State.ctr_count_self, hclass0]
  obtain ⟨codec, h4⟩ : ∃ codec, s4 = { s3 with codec := codec } := dropChainHold_codec s3 j
  clear_value s3 s4
  subst h4
  refine ⟨?_, ?_, ?_, fun h0 => ?_⟩
  · rw [showMill_mill, ← hmill]
  · rw [showMill_host, ← hresps]
  · rw [showMill_ctr, ← hall]
    rfl
  · rw [showMill_ctr, ← hfirst h0]
    rfl

/-- Of the Mill, the jobs of the list are gone and nothing else has changed; no command is answered. -/
structure JobsGone (l : List Nat) (s t : State) : Prop where
  jobs : ∀ o, mget t.mill.jobs o = if o ∈ l then none else mget s.mill.jobs o
  chains : t.mill.chains = s.mill.chains
  resps : t.host.resps = s.host.resps

theorem jobsGone_refl (s : State) : JobsGone [] s s := ⟨fun _ => (if_neg List.not_mem_nil).symm, rfl, rfl⟩

theorem JobsGone.trans {l m : List Nat} {s t u : State} (h : JobsGone l s t) (k : JobsGone m t u) : JobsGone (l ++ m) s u where
  jobs o := by
    rw [k.jobs, h.jobs]
    by_cases hl : o ∈ l <;> by_cases hm : o ∈ m <;> simp [hl, hm]
  chains := k.chains.trans h.chains
  resps := k.resps.trans h.resps

theorem jobsGone_endJob (s : State) (i st : Nat) : JobsGone [i] s (s.endJob i st) := by
  cases hj : mget s.mill.jobs i with
  | none =>
    have hsame : s.endJob i st = s := by rw [State.endJob, hj]
    rw [hsame]
    refine ⟨fun o => ?_, rfl, rfl⟩
    split
    · next h => rwa [List.mem_singleton.mp h]
    · rfl
  | some j =>
    obtain ⟨hmill, hresps, -, -⟩ := jobEnded_endJob hj st
    refine ⟨fun o => ?_, by rw [hmill], hresps⟩
    rw [hmill]
    split
    · next h => rw [List.mem_singleton.mp h]; exact mget_mdel_self ..
    · next h => exact mget_mdel_ne _ fun e => h (List.mem_singleton.mpr e)

/-- The jobs that `p` picks end with CANCELLED. -/
def cancelJobs (s : State) (p : Nat × MillJob → Bool) : State :=
  ((s.mill.jobs.filter p).map (·.1)).foldl (fun t i => t.endJob i stCANCELLED) s

theorem jobsGone_foldl (st : Nat) : ∀ (l : List Nat) (s : State), JobsGone l s (l.foldl (fun t i => t.endJob i st) s)
  | [], s => jobsGone_refl s
  | i :: l, s => (jobsGone_endJob s i st).trans (jobsGone_foldl st l _)

theorem mem_of_mget {α : Type} {m : AMap α} {k : Nat} {v : α} (h : mget m k = some v) : (k, v) ∈ m := by
  induction m with
  | nil => exact nomatch h
  | cons e m ih =>
    obtain ⟨k', v'⟩ := e
    rw [mget] at h
    split at h
    · next hk =>
      injection h with hv
      rw [hk, hv]
      exact List.mem_cons_self ..
    · exact List.mem_cons_of_mem _ (ih h)

section
variable {s : State} {p : Nat × MillJob → Bool} {i : Nat}

theorem mget_cancelJobs_picked {j : MillJob} (hj : mget s.mill.jobs i = some j) (hp : p (i, j) = true) :
    mget (cancelJobs s p).mill.jobs i = none := by
  rw [cancelJobs, (jobsGone_foldl ..).jobs, if_pos (List.mem_map.mpr ⟨(i, j), List.mem_filter.mpr ⟨mem_of_mget hj, hp⟩, rfl⟩)]

theorem mget_cancelJobs_kept (hp : ∀ e ∈ s.mill.jobs, e.1 = i → p e = false) :
    mget (cancelJobs s p).mill.jobs i = mget s.mill.jobs i := by
  rw [cancelJobs, (jobsGone_foldl ..).jobs, if_neg]
  intro hmem
  obtain ⟨e, he, hi⟩ := List.mem_map.mp hmem
  obtain ⟨hin, hyes⟩ := List.mem_filter.mp he
  exact absurd (hyes.symm.trans (hp e hin hi)) (by decide)

theorem cancelJobs_chains : (cancelJobs s p).mill.chains = s.mill.chains := (jobsGone_foldl ..).chains

theorem cancelJobs_resps : (cancelJobs s p).host.resps = s.host.resps := (jobsGone_foldl ..).resps

end

end Sys2Proof
end

section
/-! PROOF. The Mill's commands: MILL_SUBMIT, MILL_CHAIN, MILL_UNCHAIN and MILL_CANCEL (R333, R335, R338). -/

namespace Sys2Proof

open Machine

variable {fn : Fin 32} {tag : Nat} {s : State}

theorem answered_respond {s t : State} (h : t.host.resps = s.host.resps) (fn tag st r : Nat) : Answered s (t.respond fn tag st r) fn tag st r :=
  congrArg (· ++ _) h

/-- A command that leaves the Mill as `m`, and the page showing it. -/
theorem showMill_respond (s : State) (m : MillSt) (fn tag st r : Nat) : ∃ t, ({ s with mill := m }.showMill).respond fn tag st r = t ∧
    t.mill = m ∧ Answered s t fn tag st r ∧ SameBytes s t :=
  have h := showMill_regs { s with mill := m }
  ⟨_, rfl, h.mill, answered_respond h.resps .., (SameBytes.of_eq : SameBytes s { s with mill := m }).trans (h.sameBytes.trans .of_eq)⟩

/-! ## MILL_SUBMIT (R335) -/

/-- The jobs that wait in the queue of a class. -/
def queuedJobs (s : State) (cls : Nat) : Nat := (s.mill.jobs.filter fun e => e.2.list.cls == cls && e.2.loc == .queued).length

section
variable {list : MillList} (hp : Performs s fn.val 0x40) (hin : s.isRetired pgMILL = false) (hown : s.boundTo fn.val list.ctx = true)
  (hok : listOk list = true)
include hp hin hown hok

theorem exec_millSubmit : exec (.millSubmit fn tag list) s = .next
    (if 64 ≤ queuedJobs s list.cls then ((untake s fn.val tag 0x40).raise pgMILL 3).respond fn.val tag stFAULT 0
    else ((untake s fn.val tag 0x40).addJob { list := list }).respond fn.val tag stCOMPLETE 0) := by
  have hin' : (untake s fn.val tag 0x40).isRetired pgMILL = false := hin
  have hown' : (untake s fn.val tag 0x40).boundTo fn.val list.ctx = true := hown
  change execMillSubmit fn tag list s = _
  rw [execMillSubmit, hp.command, hin', hown', hok]
  rfl

theorem millSubmit_queues (hroom : queuedJobs s list.cls < 64) : ∃ t, exec (.millSubmit fn tag list) s = .next t ∧ Answered s t fn.val tag 0 0 ∧
    mget t.mill.jobs s.mill.next = some { list := list } ∧ t.mill.next = s.mill.next + 1 ∧
    (∀ i, i ≠ s.mill.next → mget t.mill.jobs i = mget s.mill.jobs i) ∧ SameBytes s t := by
  rw [exec_millSubmit hp hin hown hok, if_neg (Nat.not_le.mpr hroom)]
  obtain ⟨t, ht, hmill, hans, hbytes⟩ := showMill_respond (untake s fn.val tag 0x40)
    { s.mill with jobs := mput s.mill.jobs s.mill.next { list := list }, next := s.mill.next + 1 } fn.val tag stCOMPLETE 0
  refine ⟨t, ht ▸ rfl, hans, ?_, ?_, fun i hi => ?_, hbytes⟩ <;> rw [hmill]
  · exact mget_mput_self ..
  · exact mget_mput_ne _ _ hi

theorem millSubmit_full (hfull : 64 ≤ queuedJobs s list.cls) : ∃ t, exec (.millSubmit fn tag list) s = .next t ∧
    Answered s t fn.val tag stFAULT 0 ∧ Raised t pgMILL 3 ∧ t.mill = s.mill := by
  rw [exec_millSubmit hp hin hown hok, if_pos hfull]
  obtain ⟨hresps, -, -⟩ := noAnswer_raise (untake s fn.val tag 0x40) pgMILL 3
  exact ⟨_, rfl, answered_respond hresps .., raised_raise (untake s fn.val tag 0x40) pgMILL 3 (by decide), State.raise_mill ..⟩

end

/-! ## MILL_CHAIN and MILL_UNCHAIN (R338) -/

section
variable {stream : Nat} {list : MillList} {x : Stream} (hp : Performs s fn.val 0x41) (hup : s.codecUp = true)
  (hown : s.boundTo fn.val list.ctx = true) (hx : s.stream stream = some x) (hctx : x.ctx = list.ctx) (hok : listOk list = true)
  (hroom : s.mill.chains.length < 128)
include hp hup hown hx hctx hok hroom

theorem exec_millChain : exec (.millChain fn tag stream list) s = .next
    (({ untake s fn.val tag 0x41 with mill := { s.mill with chains := mput s.mill.chains stream list } }.showMill).respond fn.val tag
      stCOMPLETE 0) := by
  have hup' : (untake s fn.val tag 0x41).codecUp = true := hup
  have hown' : (untake s fn.val tag 0x41).boundTo fn.val list.ctx = true := hown
  have hx' : (untake s fn.val tag 0x41).stream stream = some x := hx
  have hfree : ¬(128 ≤ (untake s fn.val tag 0x41).mill.chains.length ∧ (mget (untake s fn.val tag 0x41).mill.chains stream).isNone = true) :=
    fun h => Nat.not_le.mpr hroom h.1
  change execMillChain fn tag stream list s = _
  rw [execMillChain, hp.command, hup', hown', hx', hok, if_neg hfree, Option.map_some, hctx, bne_self_eq_false]
  rfl

theorem millChain_keeps : ∃ t, exec (.millChain fn tag stream list) s = .next t ∧ Answered s t fn.val tag 0 0 ∧
    mget t.mill.chains stream = some list ∧ (∀ i, i ≠ stream → mget t.mill.chains i = mget s.mill.chains i) ∧ t.mill.jobs = s.mill.jobs ∧
    SameBytes s t := by
  rw [exec_millChain hp hup hown hx hctx hok hroom]
  obtain ⟨t, ht, hmill, hans, hbytes⟩ := showMill_respond (untake s fn.val tag 0x41)
    { s.mill with chains := mput s.mill.chains stream list } fn.val tag stCOMPLETE 0
  refine ⟨t, ht ▸ rfl, hans, ?_, fun i hi => ?_, ?_, hbytes⟩ <;> rw [hmill]
  · exact mget_mput_self ..
  · exact mget_mput_ne _ _ hi

end

/-- A job of the stream's chain that has not started. -/
def ofChain (stream : Nat) (e : Nat × MillJob) : Bool := e.2.chain == some stream && !e.2.started

section
variable {stream : Nat} {l : MillList} (hp : Performs s fn.val 0x42) (hl : mget s.mill.chains stream = some l)
  (hown : s.boundTo fn.val l.ctx = true)
include hp hl hown

theorem exec_millUnchain : exec (.millUnchain fn tag stream) s =
    (let u := cancelJobs (untake s fn.val tag 0x42) (ofChain stream)
     .next (({ u with mill := { u.mill with chains := mdel u.mill.chains stream } }.showMill).respond fn.val tag stCOMPLETE 0)) := by
  have hl' : mget (untake s fn.val tag 0x42).mill.chains stream = some l := hl
  have hown' : (untake s fn.val tag 0x42).boundTo fn.val l.ctx = true := hown
  change execMillUnchain fn tag stream s = _
  rw [execMillUnchain, hp.command, hl']
  dsimp only
  rw [hown']
  rfl

theorem millUnchain_lets_go : ∃ t, exec (.millUnchain fn tag stream) s = .next t ∧ Answered s t fn.val tag 0 0 ∧
    mget t.mill.chains stream = none ∧
    (∀ i j, mget s.mill.jobs i = some j → j.chain = some stream → j.started = false → mget t.mill.jobs i = none) ∧
    ∀ i j, mget s.mill.jobs i = some j → (∀ e ∈ s.mill.jobs, e.1 = i → e.2.chain ≠ some stream ∨ e.2.started = true) →
      mget t.mill.jobs i = some j := by
  rw [exec_millUnchain hp hl hown]
  extract_lets u
  obtain ⟨t, ht, hmill, hans, -⟩ := showMill_respond u { u.mill with chains := mdel u.mill.chains stream } fn.val tag stCOMPLETE 0
  refine ⟨t, ht ▸ rfl, ?_, ?_, fun i j hj hchain hnew => ?_, fun i j hj hother => ?_⟩
  · rw [Answered, hans, show u.host.resps = s.host.resps from cancelJobs_resps]
  · rw [hmill]
    exact mget_mdel_self ..
  · rw [hmill]
    exact mget_cancelJobs_picked (s := untake s fn.val tag 0x42) hj (by simp [ofChain, hchain, hnew])
  · rw [hmill]
    refine (mget_cancelJobs_kept (s := untake s fn.val tag 0x42) fun e he hi => ?_).trans hj
    obtain h | h := hother e he hi <;> simp [ofChain, h]

end

/-! ## MILL_CANCEL (R335) -/

/-- A job of the context that waits in a queue and has not started. -/
def ofCtx (ctx : Nat) (e : Nat × MillJob) : Bool := e.2.list.ctx == ctx && e.2.loc == .queued && !e.2.started

section
variable {ctx : Fin 1024} (hp : Performs s fn.val 0x43) (hown : s.boundTo fn.val ctx.val = true)
include hp hown

theorem exec_millCancel : exec (.millCancel fn tag ctx) s =
    .next ((cancelJobs (untake s fn.val tag 0x43) (ofCtx ctx.val)).respond fn.val tag stCOMPLETE 0) := by
  have hown' : (untake s fn.val tag 0x43).boundTo fn.val ctx.val = true := hown
  change execMillCancel fn tag ctx s = _
  rw [execMillCancel, hp.command, hown']
  rfl

theorem millCancel_ends : ∃ t, exec (.millCancel fn tag ctx) s = .next t ∧ Answered s t fn.val tag 0 0 ∧
    (∀ i j, mget s.mill.jobs i = some j → j.list.ctx = ctx.val → j.loc = .queued → j.started = false → mget t.mill.jobs i = none) ∧
    ∀ i j, mget s.mill.jobs i = some j → (∀ e ∈ s.mill.jobs, e.1 = i → e.2.list.ctx ≠ ctx.val ∨ e.2.loc ≠ .queued ∨ e.2.started = true) →
      mget t.mill.jobs i = some j := by
  refine ⟨_, exec_millCancel hp hown, ?_, fun i j hj hctx hloc hnew => ?_, fun i j hj hother => ?_⟩
  · exact answered_respond cancelJobs_resps ..
  · exact mget_cancelJobs_picked (s := untake s fn.val tag 0x43) hj (by simp [ofCtx, hctx, hloc, hnew])
  · refine (mget_cancelJobs_kept (s := untake s fn.val tag 0x43) fun e he hi => ?_).trans hj
    obtain h | h | h := hother e he hi <;> simp [ofCtx, h]

end

end Sys2Proof
end

section
/-! PROOF. The Mill's pipes: starts, the ends of tiles, and the ends of jobs (R336, R337, R343). -/

namespace Sys2Proof

-- As in the files that define `Onward`: the defaults of its arguments are read by proofs in turn.
set_option Elab.async false

open Machine

/-- A job on its pipe. -/
def running (p : Nat) (j : MillJob) : MillJob := { j with loc := .running p, started := true }

theorem mget_setJob_shown (s : State) (i : Nat) (j : MillJob) : mget (s.setJob i j).showMill.mill.jobs i = some j := by
  rw [showMill_mill]
  exact mget_setJob_self ..

theorem sameBytes_setJob_shown (s : State) (i : Nat) (j : MillJob) : SameBytes s (s.setJob i j).showMill :=
  (sameBytes_setJob ..).trans (showMill_regs _).sameBytes

/-! ## MILL_JOB_START (R336) -/

/-- The state with the buffers of a pipe cleared, where the context changes, and the pipe given to the context. -/
def pipeGiven (s : State) (p c : Nat) : State :=
  (if s.pipeCtx p = some c ∨ s.pipeCtx p = none then s else s.count pgMILL 0x064 1).setPipeCtx p c

theorem pipeGiven_frame (s : State) (p c : Nat) : (pipeGiven s p c).mill.jobs = s.mill.jobs ∧ SameBytes s (pipeGiven s p c) := by
  unfold pipeGiven
  split <;> exact ⟨rfl, .of_eq⟩

/-- The check of the descriptor that comes up (R321, R332, R340). -/
def descOk (j : MillJob) (b : List Nat) : Bool :=
  if j.kind = 0 then millLayerOk b
  else if j.kind = 1 then millPreOk b (if j.done = 0 ∨ !(j.list.descs.take j.done).any (fun x => x.kind == 1) then j.src else none)
  else millHeadOk b

section
variable {pre : Bool} {s : State} {i : Nat} {j : MillJob} (hin : s.isRetired pgMILL = false) (hidle : s.runningJob (boolNat pre) = none)
  (hgo : s.millStopped = false) (htest : s.testing (.pipe (if pre then 1 else 0)) = false) (hnext : s.nextJob (boolNat pre) = some (i, j))
include hin hidle hgo htest hnext

theorem exec_millJobStart_suspended (hloc : j.loc = .suspended (boolNat pre)) : exec (.millJobStart pre) s =
    .next (((pipeGiven s (boolNat pre) j.list.ctx).setJob i (running (boolNat pre) j)).showMill) := by
  change execMillJobStart pre s = _
  rw [execMillJobStart]
  simp only [hin, hidle, hgo, htest, hnext, hloc, Option.isSome_none, Bool.or_self, Bool.false_eq_true, if_false, Bool.not_false, if_true]
  rfl

theorem exec_millJobStart_queued (hloc : j.loc = .queued) {s3 : State} {b : List Nat}
    (hread : (pipeGiven s (boolNat pre) j.list.ctx).hubRead j.list.ctx j.descVa 1 = (s3, some b)) (hok : descOk j b = true) :
    exec (.millJobStart pre) s = .next ((s3.setJob i { running (boolNat pre) j with desc := b }).showMill) := by
  rw [pipeGiven] at hread
  change execMillJobStart pre s = _
  rw [execMillJobStart]
  simp only [hin, hidle, hgo, htest, hnext, hloc, hread, Option.isSome_none, Bool.or_self, Bool.false_eq_true, if_false, Bool.not_true]
  rw [if_pos]
  · rfl
  · refine Eq.trans ?_ hok
    rw [descOk]
    split
    · next hk => rw [if_pos hk]
    · next hk =>
      have hk0 : ¬j.kind = 0 := by omega
      rw [if_neg hk0, if_pos hk]
    · next hk0 hk1 => rw [if_neg hk0, if_neg hk1]

theorem millJobStart_resumes (hloc : j.loc = .suspended (boolNat pre)) : ∃ t, exec (.millJobStart pre) s = .next t ∧
    mget t.mill.jobs i = some { j with loc := .running (boolNat pre), started := true } ∧
    (∀ o, o ≠ i → mget t.mill.jobs o = mget s.mill.jobs o) ∧ SameBytes s t := by
  obtain ⟨hjobs, hbytes⟩ := pipeGiven_frame s (boolNat pre) j.list.ctx
  refine ⟨_, exec_millJobStart_suspended hin hidle hgo htest hnext hloc, mget_setJob_shown .., fun o ho => ?_,
    hbytes.trans (sameBytes_setJob_shown ..)⟩
  rw [showMill_mill, mget_setJob_ne _ _ ho, hjobs]

theorem millJobStart_starts (hloc : j.loc = .queued) {s3 : State} {b : List Nat}
    (hread : (pipeGiven s (boolNat pre) j.list.ctx).hubRead j.list.ctx j.descVa 1 = (s3, some b)) (hok : descOk j b = true) :
    ∃ t, exec (.millJobStart pre) s = .next t ∧
      mget t.mill.jobs i = some { j with loc := .running (boolNat pre), started := true, desc := b } ∧
      t.mill.chains = s3.mill.chains ∧ t.host = s3.host :=
  ⟨_, exec_millJobStart_queued hin hidle hgo htest hnext hloc hread hok, mget_setJob_shown .., congrArg (·.chains) (showMill_mill _),
    showMill_host _⟩

end

/-! ## MILL_TILE_END (R336, R343) -/

/-- A detection in a tile of context `c` is counted as a residue or a parity detection, told, and noted for the context. -/
def tileDetected (s : State) (det : Fin 3) (c : Nat) : State :=
  ((s.count pgMILL (if det.val = 1 then 0x068 else 0x06C) 1).raise pgMILL 0).noteDetected c

theorem raised_tileDetected (s : State) (det : Fin 3) (c : Nat) : Raised (tileDetected s det c) pgMILL 0 := by
  rw [tileDetected, State.noteDetected]
  exact Onward.events (Onward.refl ..).ctxNote.count 0 (by decide) (raised_raise _ _ _ (by decide))

theorem sameBytes_noteDetected (s : State) (c : Nat) : SameBytes s (s.noteDetected c) :=
  (Noted.of_quiet ((quiet_ctxNote s c 3).count (pgCNT c) F.CNT_DETECT 1)).sameBytes

theorem sameBytes_tileDetected (s : State) (det : Fin 3) (c : Nat) : SameBytes s (tileDetected s det c) :=
  (((quiet_refl s).count ..).raise ..).sameBytes.trans (sameBytes_noteDetected ..)

theorem ctr_tileDetected (s : State) (det : Fin 3) (c : Nat) : (tileDetected s det c).ctr pgMILL 0x070 = s.ctr pgMILL 0x070 := by
  rw [tileDetected, State.noteDetected, State.ctr_count_ne _ _ (pgCNT_above c (by decide)), ctr_ctxNote _ _ _ (by decide) (by decide),
    ctr_raise _ _ _ (by decide), State.ctr_count_ne]
  split <;> decide

/-- The last tile of an empty layer ends its descriptor with the RESULT word of an empty one. -/
theorem runDesc_empty {s : State} {i : Nat} {j : MillJob} (bad : Option Nat) (hkind : j.kind = 0) (hempty : (millLayerOf j.desc).act1.empty = true) :
    s.runDesc i j bad = s.descDone i j 256 := by
  rw [State.runDesc, hkind]
  exact if_pos hempty

section
variable {pre : Bool} {s : State} {i : Nat} {j : MillJob} (hrun : s.runningJob (boolNat pre) = some (i, j))
include hrun

theorem exec_millTileEnd_detected (last : Bool) {det : Fin 3} (hdet : det.val ≠ 0) (bad : Option Nat) :
    exec (.millTileEnd pre last det bad) s = .next
      (if j.tileDet then ((tileDetected s det j.list.ctx).raise pgMILL 1).jobOver i j stFAULT
      else (((tileDetected s det j.list.ctx).setJob i { j with tileDet := true, recomputed := true }).count pgMILL 0x070 1).count
        (pgCNT j.list.ctx) F.CNT_RECOMP 1) := by
  change execMillTileEnd pre last det bad s = _
  rw [execMillTileEnd]
  dsimp only
  rw [hrun]
  dsimp only
  rw [if_pos hdet]
  rfl

theorem millTileEnd_runs_again (last : Bool) {det : Fin 3} (hdet : det.val ≠ 0) (bad : Option Nat) (hfirst : j.tileDet = false) :
    ∃ t, exec (.millTileEnd pre last det bad) s = .next t ∧ Raised t pgMILL 0 ∧
      mget t.mill.jobs i = some { j with tileDet := true, recomputed := true } ∧ t.ctr pgMILL 0x070 = s.ctr pgMILL 0x070 + 1 ∧ SameBytes s t := by
  rw [exec_millTileEnd_detected hrun last hdet bad, if_neg (by rw [hfirst]; decide)]
  refine ⟨_, rfl, Onward.events (Onward.refl ..).setJob.count.count 0 (by decide) (raised_tileDetected s det j.list.ctx), mget_setJob_self .., ?_,
    (sameBytes_tileDetected ..).trans ((sameBytes_setJob ..).trans (((quiet_refl _).count ..).count ..).sameBytes)⟩
  rw [State.ctr_count_ne _ _ (pgCNT_above _ (by decide)), State.ctr_count_self, setJob_ctr, ctr_tileDetected]

theorem millTileEnd_fails (last : Bool) {det : Fin 3} (hdet : det.val ≠ 0) (bad : Option Nat) (hsecond : j.tileDet = true) :
    ∃ t, exec (.millTileEnd pre last det bad) s = .next t ∧ Raised t pgMILL 0 ∧ Raised t pgMILL 1 ∧
      mget t.mill.jobs i = some { j with loc := .ended stFAULT } ∧ SameBytes s t := by
  rw [exec_millTileEnd_detected hrun last hdet bad, if_pos hsecond]
  have hover : Onward pgMILL ((tileDetected s det j.list.ctx).raise pgMILL 1)
      (((tileDetected s det j.list.ctx).raise pgMILL 1).jobOver i j stFAULT) := (Onward.refl ..).setJob.showMill
  exact ⟨_, rfl, hover.events 0 (by decide) (raised_mono _ _ (by decide) (raised_tileDetected ..)),
    hover.events 1 (by decide) (raised_raise _ _ _ (by decide)), mget_jobOver ..,
    (sameBytes_tileDetected ..).trans (((quiet_refl _).raise ..).sameBytes.trans (sameBytes_jobOver ..))⟩

theorem exec_millTileEnd_between (bad : Option Nat) {o : Nat} {w : MillJob} (hgo : s.millStopped = false)
    (hnext : s.nextJob (boolNat pre) = some (o, w)) : exec (.millTileEnd pre false 0 bad) s = .next
      (if w.list.cls < j.list.cls then ((s.setJob i { j with tileDet := false, loc := .suspended (boolNat pre) }).count pgMILL 0x060 1).showMill
      else s.setJob i { j with tileDet := false }) := by
  change execMillTileEnd pre false 0 bad s = _
  rw [execMillTileEnd]
  dsimp only
  rw [hrun]
  dsimp only
  rw [if_neg (by decide), if_neg (by decide), hgo, if_neg (by decide), hnext]

theorem millTileEnd_yields (bad : Option Nat) {o : Nat} {w : MillJob} (hgo : s.millStopped = false)
    (hnext : s.nextJob (boolNat pre) = some (o, w)) : ∃ t, exec (.millTileEnd pre false 0 bad) s = .next t ∧ SameBytes s t ∧
      (w.list.cls < j.list.cls → mget t.mill.jobs i = some { j with tileDet := false, loc := .suspended (boolNat pre) } ∧
        t.ctr pgMILL 0x060 = s.ctr pgMILL 0x060 + 1) ∧
      (j.list.cls ≤ w.list.cls → mget t.mill.jobs i = some { j with tileDet := false } ∧ t.ctrs = s.ctrs) := by
  rw [exec_millTileEnd_between hrun bad hgo hnext]
  split
  · next hlt =>
    refine ⟨_, rfl, (SameBytes.of_eq : SameBytes s (State.count ..)).trans (showMill_regs _).sameBytes, fun _ => ⟨?_, ?_⟩,
      fun hle => absurd hlt (Nat.not_lt.mpr hle)⟩
    · rw [showMill_mill]
      exact mget_setJob_self ..
    · rw [showMill_ctr, State.ctr_count_self, setJob_ctr]
  · next hle => exact ⟨_, rfl, sameBytes_setJob .., fun hlt => absurd hlt hle, fun _ => ⟨mget_setJob_self .., rfl⟩⟩

theorem exec_millTileEnd_last (bad : Option Nat) : exec (.millTileEnd pre true 0 bad) s = .next (s.runDesc i j bad) := by
  change execMillTileEnd pre true 0 bad s = _
  rw [execMillTileEnd]
  dsimp only
  rw [hrun]
  rfl

theorem millTileEnd_empty (bad : Option Nat) (hkind : j.kind = 0) (hempty : (millLayerOf j.desc).act1.empty = true)
    (hlast : j.done + 1 = j.list.descs.length) : ∃ t, exec (.millTileEnd pre true 0 bad) s = .next t ∧ SameBytes s t ∧
      mget t.mill.jobs i = some { j with done := j.done + 1, results := j.results ++ [256], desc := [], tileDet := false,
                                         loc := .ended (if j.recomputed then stRECOMPUTED else stCOMPLETE) } := by
  rw [exec_millTileEnd_last hrun, runDesc_empty bad hkind hempty, State.descDone]
  dsimp only
  rw [if_neg (by omega)]
  exact ⟨_, rfl, sameBytes_jobOver .., mget_jobOver ..⟩

end

/-! ## MILL_JOB_END (R337) -/

theorem millJobEnd_leaves {s : State} {job st : Nat} {j : MillJob} (hj : mget s.mill.jobs job = some j) (hloc : j.loc = .ended st) :
    ∃ t, exec (.millJobEnd job) s = .next t ∧ mget t.mill.jobs job = none ∧ (∀ o, o ≠ job → mget t.mill.jobs o = mget s.mill.jobs o) ∧
      t.ctr pgMILL 0x04C = s.ctr pgMILL 0x04C + 1 ∧ (j.list.cls = 0 → t.ctr pgMILL 0x05C = s.ctr pgMILL 0x05C + 1) := by
  have hexec : exec (.millJobEnd job) s = .next (s.endJob job st) := by
    change execMillJobEnd job s = _
    rw [execMillJobEnd, hj]
    dsimp only
    rw [hloc]
  obtain ⟨hmill, -, hcounted, hclass0⟩ := jobEnded_endJob hj st
  refine ⟨_, hexec, ?_, fun o ho => ?_, hcounted, hclass0⟩ <;> rw [hmill]
  · exact mget_mdel_self ..
  · exact mget_mdel_ne _ ho

/-! ## O39 -/

/-- Settles O39: each clause is the lemma of its command or of what happens at a pipe. -/
theorem millWork : Obligations.MillWork := by
  unfold Obligations.MillWork
  refine ⟨⟨?_, ?_, ?_, ?_⟩, ?_, ?_, ?_⟩
  · intro fn tag list s hp hin hown hok
    exact ⟨millSubmit_queues hp hin hown hok, millSubmit_full hp hin hown hok⟩
  · intro fn tag stream list s x hp hup hown hx hctx hok hroom
    exact millChain_keeps hp hup hown hx hctx hok hroom
  · intro fn tag stream s l hp hl hown
    exact millUnchain_lets_go hp hl hown
  · intro fn tag ctx s hp hown
    exact millCancel_ends hp hown
  · intro pre s i j hin hidle hgo htest hnext
    refine ⟨fun s2 s3 b hloc hs2 hread hok => ?_, millJobStart_resumes hin hidle hgo htest hnext⟩
    subst hs2
    exact millJobStart_starts hin hidle hgo htest hnext hloc hread hok
  · intro pre bad s i j hrun
    refine ⟨fun last det hdet => ⟨millTileEnd_runs_again hrun last hdet bad, millTileEnd_fails hrun last hdet bad⟩, ?_, ?_⟩
    · intro o w hgo hnext
      exact millTileEnd_yields hrun bad hgo hnext
    · exact millTileEnd_empty hrun bad
  · intro job s j st hj hloc
    exact millJobEnd_leaves hj hloc

end Sys2Proof
end

section
/-! PROOF. O18 and O19: what the registers read after a power-on reset, and the step that runs a command. -/

namespace Sys2Proof

open Machine

/-! ## Reset (R538, R541) -/

/-- At reset no register field is listed: each reads the value of its table. -/
theorem rdi_reset (pg : Nat) (F0 : Field) (i : Nat) : State.reset.rdi pg F0 i = frst .q4c4 F0 i := rfl

/-- No context is in use at reset. -/
theorem ctxState_reset (c : Nat) : State.reset.ctxState c = ctxFREE := by
  rw [State.ctxState, State.ctxField, rdi_reset, frst, if_neg (by decide), if_neg (by decide)]
  exact (Nat.zero_add _).trans (Nat.zero_mul _)

/-- Settles O18: at reset nothing is listed, and the tables give the values named. -/
theorem resetValues : Obligations.ResetValues :=
  ⟨rdi_reset, fun _ _ => rfl, rfl, rfl, rfl, rfl, rfl, rfl, rfl, rfl, rfl, rfl, fun c _ => ctxState_reset c, fun _ => rfl, fun _ => rfl,
    fun _ => rfl, rfl⟩

/-! ## The step (assumption log 114) -/

/-- Settles O19: by `step_command`. -/
theorem stepRunsFront : Obligations.StepRunsFront := fun _ _ _ => step_command rfl

end Sys2Proof
end

section
/-! PROOF. O40: CODEC_KEYREQ (R376). -/

namespace Sys2Proof

open Machine

/-! ## Commands of codec streams (R351, R375, R376) -/

/-- A command of an open stream of the function's own, which nothing refuses, is its body, off the list of commands taken. -/
theorem Performs.streamCommand {s : State} {fn op n : Nat} {x : Stream} (hp : Performs s fn op) (hpage : pagePresent s.variant (pgCODEC 0) = true)
    (hx : s.stream n = some x) (hown : s.boundTo fn x.ctx = true) {close : Bool} (hopen : ((x.faulted || x.closing) && !close) = false) (tag : Nat)
    (body : State → Stream → State) : s.streamCommand fn tag op n close body = body (untake s fn tag op) x := by
  have hany : ((List.range 4).any fun k => pagePresent (untake s fn tag op).variant (pgCODEC k)) = true :=
    List.any_eq_true.mpr ⟨0, by decide, hpage⟩
  have hstream : (untake s fn tag op).stream n = some x := hx
  have hbound : (untake s fn tag op).boundTo fn x.ctx = true := hown
  rw [State.streamCommand, hp.command]
  simp only [hany, hstream, hbound, hopen, Bool.not_true, Bool.false_eq_true, if_false]

theorem stream_setStream_self (s : State) (n : Nat) (x : Stream) : (s.setStream n x).stream n = some x := mget_mput_self ..

theorem stream_setStream_ne (s : State) {n o : Nat} (x : Stream) (h : o ≠ n) : (s.setStream n x).stream o = s.stream o := mget_mput_ne _ _ h

/-- Settles O40: the command is its body, which sets the mark in the stream and answers. -/
theorem keyRequests : Obligations.KeyRequests := by
  intro fn tag n s x hx hpage hown hp hfaulted hclosing henc
  have hexec : exec (.codecKeyreq fn tag n) s =
      .next (((untake s fn.val tag 0x4B).setStream n { x with keyReq := true }).respond fn.val tag stCOMPLETE 0) := by
    change execCodecKeyreq fn tag n s = _
    rw [execCodecKeyreq, hp.streamCommand hpage hx hown (by rw [hfaulted, hclosing]; rfl)]
    simp only [henc, if_true]
  exact ⟨_, hexec, rfl, rfl, stream_setStream_self .., fun _ ho => stream_setStream_ne _ _ ho, .of_eq⟩

end Sys2Proof
end

section
/-! PROOF. O58: what the management interface answers (R534, R535). -/

namespace Sys2Proof

open Machine

/-! ## What changes only register fields: the ceiling and the cabinet index -/

theorem showCeiling_regs (s : State) : RegsOnly s s.showCeiling := (regsOnly_refl s).wr ..

theorem setIndex_regs (s : State) (v : Nat) : RegsOnly s (s.setIndex v) :=
  ((((((regsOnly_refl s).wr ..).wr ..).wri ..).wri ..).wr ..)

theorem reachSet_setReach (s : State) {m : Nat} (h : m < 2 ^ 64) : (s.setReach m).reachSet = m := by
  rw [State.reachSet, State.setReach, State.rdi_wri_self, State.rdi_wri_ne _ _ (by decide), State.rdi_wri_self]
  simp only [F.CAB_REACH]
  omega

/-- A field of the CAB page that QUORUM does not overwrite. -/
theorem rdi_showQuorum_ne (s : State) {pg i : Nat} {F0 : Field} (h : fkey pg F0 i ≠ fkey pgCAB F.CAB_QUORUM 0) :
    s.showQuorum.rdi pg F0 i = s.rdi pg F0 i := State.rdi_wri_ne _ _ h

theorem reachSet_showQuorum (s : State) : s.showQuorum.reachSet = s.reachSet := by
  rw [State.reachSet, rdi_showQuorum_ne _ (by decide), rdi_showQuorum_ne _ (by decide), State.reachSet]

theorem setIndex_fields (s : State) (v : Nat) : (s.setIndex v).rd pgCAB F.CAB_INDEX = v % 64 ∧
    (s.setIndex v).rd pgCAB F.CAB_INDEX_VALID = boolNat (nbit v 31) ∧ (s.setIndex v).reachSet = if nbit v 31 then 2 ^ (v % 64) else 0 := by
  have hreach : (if nbit v 31 then 2 ^ (v % 64) else 0) < 2 ^ 64 := by
    split
    · exact Nat.pow_lt_pow_right (by decide) (Nat.mod_lt _ (by decide))
    · decide
  rw [State.setIndex]
  refine ⟨?_, ?_, (reachSet_showQuorum _).trans (reachSet_setReach _ hreach)⟩ <;>
    rw [State.rd, rdi_showQuorum_ne _ (by decide), State.setReach, State.rdi_wri_ne _ _ (by decide), State.rdi_wri_ne _ _ (by decide)]
  · rw [State.rdi_wri_ne _ _ (by decide), State.rdi_wri_self]
    exact Nat.mod_mod _ _
  · rw [State.rdi_wri_self]
    cases nbit v 31 <;> rfl

/-! ## A heartbeat (R534) -/

theorem rdi_showCeiling_ne (s : State) {pg i : Nat} {F0 : Field} (h : fkey pg F0 i ≠ fkey pgPOWER F.PWR_CEILING_W 0) :
    s.showCeiling.rdi pg F0 i = s.rdi pg F0 i := State.rdi_wri_ne _ _ h

/-- The state with the orphan state over, and its end told. -/
def orphanOver (s : State) : State := ((s.wr pgPOWER F.PWR_STATUS_ORPHAN 0).raise pgMGMT 1).showCeiling

theorem quiet_orphanOver (s : State) : Quiet s (orphanOver s) := (((quiet_refl s).wri ..).raise ..).wri ..

theorem orphanOver_spec (s : State) : (orphanOver s).on pgPOWER F.PWR_STATUS_ORPHAN = false ∧ Raised (orphanOver s) pgMGMT 1 ∧
    (orphanOver s).ctr pgMGMT 0x058 = s.ctr pgMGMT 0x058 ∧ (orphanOver s).pwr = s.pwr := by
  refine ⟨?_, ?_, ctr_raise _ _ _ (by decide), State.raise_pwr ..⟩
  · rw [State.on, orphanOver, rdi_showCeiling_ne _ (by decide), State.rdi_raise_ne _ (by decide), State.rdi_wri_self]
    rfl
  · rw [Raised, State.rd, orphanOver, rdi_showCeiling_ne _ (by decide)]
    exact raised_raise _ _ _ (by decide)

/-- The state with a heartbeat dated and counted. -/
def beaten (s : State) : State := { s with pwr := { s.pwr with hbClk := s.now } }.count pgMGMT 0x058 1

theorem heartbeat_eq (s : State) : s.heartbeat = if (beaten s).on pgPOWER F.PWR_STATUS_ORPHAN then orphanOver (beaten s) else beaten s := rfl

theorem heartbeat_spec (s : State) : s.heartbeat.pwr = { s.pwr with hbClk := s.now } ∧ s.heartbeat.on pgPOWER F.PWR_STATUS_ORPHAN = false ∧
    s.heartbeat.ctr pgMGMT 0x058 = s.ctr pgMGMT 0x058 + 1 ∧ (s.on pgPOWER F.PWR_STATUS_ORPHAN = true → Raised s.heartbeat pgMGMT 1) ∧
    SameBytes s s.heartbeat := by
  have hctr : (beaten s).ctr pgMGMT 0x058 = s.ctr pgMGMT 0x058 + 1 :=
    State.ctr_count_self { s with pwr := { s.pwr with hbClk := s.now } } pgMGMT 0x058 1
  have hbytes : SameBytes s (beaten s) := .of_eq
  rw [heartbeat_eq]
  split
  · obtain ⟨hover, htold, hcount, hpwr⟩ := orphanOver_spec (beaten s)
    exact ⟨hpwr, hover, hcount.trans hctr, fun _ => htold, hbytes.trans (quiet_orphanOver _).sameBytes⟩
  · next hno => exact ⟨rfl, Bool.not_eq_true _ ▸ hno, hctr, fun hyes => absurd hyes hno, hbytes⟩

/-! ## Messages of the management bus (R535) -/

section
variable {s : State} (hon : s.pwr.standbyOff = false)
include hon

/-- A message that comes in is counted, and what it asks is done. -/
theorem mctp_served (body : State → State) : s.mctp body = body (s.count pgMGMT 0x04C 1) := if_neg (by rw [hon]; decide)

theorem mctpReply_said (ws : List Nat) : MctpSaid s (s.mctp fun t => t.mctpReply ws) ws := by
  rw [mctp_served hon]
  exact ⟨rfl, State.ctr_count_self s pgMGMT 0x04C 1⟩

theorem mctpSetEndpointId_sets (eid : Byte) : ∃ t, exec (.mctpSetEndpointId eid) s = .next t ∧ t.pwr = { s.pwr with eid := eid.toNat } ∧
    MctpSaid s t [1, 0, eid.toNat] := by
  refine ⟨_, rfl, ?_⟩
  rw [mctp_served hon]
  exact ⟨rfl, rfl, State.ctr_count_self s pgMGMT 0x04C 1⟩

theorem mctpGetEndpointId_answers : ∃ t, exec .mctpGetEndpointId s = .next t ∧ MctpSaid s t [2, 0, s.pwr.eid] ∧ t.pwr = s.pwr := by
  refine ⟨_, rfl, ?_⟩
  rw [mctp_served hon]
  exact ⟨⟨rfl, State.ctr_count_self s pgMGMT 0x04C 1⟩, rfl⟩

theorem mctpGetVersionSupport_answers (type : Nat) : ∃ t, exec (.mctpGetVersionSupport type) s = .next t ∧ t.pwr = s.pwr ∧
    MctpSaid s t (if type ≤ 1 then [4, 0, Config.digest 20 [type]] else [4, 0x80]) := by
  refine ⟨_, rfl, ?_⟩
  rw [mctp_served hon]
  split <;> exact ⟨rfl, rfl, State.ctr_count_self s pgMGMT 0x04C 1⟩

theorem mctpGetMessageTypeSupport_answers : ∃ t, exec .mctpGetMessageTypeSupport s = .next t ∧ MctpSaid s t [5, 0, 0, 1] ∧ t.pwr = s.pwr := by
  refine ⟨_, rfl, mctpReply_said hon _, ?_⟩
  rw [mctp_served hon]
  rfl

theorem mctpDrop_tells {type : Nat} (h : 1 < type) : ∃ t, exec (.mctpDrop type) s = .next t ∧ Raised t pgMGMT 2 ∧
    t.ctr pgMGMT 0x04C = s.ctr pgMGMT 0x04C + 1 ∧ t.ctr pgMGMT 0x050 = s.ctr pgMGMT 0x050 + 1 ∧ t.pwr = s.pwr ∧ SameBytes s t := by
  refine ⟨_, rfl, ?_⟩
  rw [mctp_served hon, if_neg (by omega)]
  refine ⟨raised_raise _ _ _ (by decide), ?_, ?_, State.raise_pwr .., ((((quiet_refl s).count ..).count ..).raise ..).sameBytes⟩
  · rw [ctr_raise _ _ _ (by decide), State.ctr_count_ne _ _ ctr_ne_of_off, State.ctr_count_self]
  · rw [ctr_raise _ _ _ (by decide), State.ctr_count_self, State.ctr_count_ne _ _ ctr_ne_of_off]

/-- A PLDM command that is served is answered and counted, and nothing else happens. -/
theorem pldm_said (type cmd cc : Nat) (ws : List Nat) : PldmSaid s (s.pldm type cmd cc ws) type cmd cc ws ∧ (s.pldm type cmd cc ws).pwr = s.pwr := by
  rw [State.pldm, mctp_served hon]
  refine ⟨⟨rfl, ?_, ?_⟩, rfl⟩
  · exact (State.ctr_count_ne (s.count pgMGMT 0x04C 1) 1 (by decide)).trans (State.ctr_count_self s pgMGMT 0x04C 1)
  · exact (State.ctr_count_self (s.count pgMGMT 0x04C 1) pgMGMT 0x054 1).trans (congrArg (· + 1) (State.ctr_count_ne s 1 (by decide)))

/-- A command that does no more than answer. -/
theorem pldm_answers {i : Instr} {type cmd cc : Nat} {ws : List Nat} (h : exec i s = .next (s.pldm type cmd cc ws)) :
    ∃ t, exec i s = .next t ∧ PldmSaid s t type cmd cc ws ∧ t.pwr = s.pwr := ⟨_, h, pldm_said hon ..⟩

/-- A type of PLDM that the module has, and another. -/
theorem pldmTyped_answers {i : Instr} {type cmd : Nat} {ws : List Nat}
    (h : exec i s = .next (if pldmTypes.contains type then s.pldm 0 cmd 0 ws else s.pldm 0 cmd 0x83 [])) :
    (type ∈ pldmTypes → ∃ t, exec i s = .next t ∧ PldmSaid s t 0 cmd 0 ws ∧ t.pwr = s.pwr) ∧
      (type ∉ pldmTypes → ∃ t, exec i s = .next t ∧ PldmSaid s t 0 cmd 0x83 [] ∧ t.pwr = s.pwr) := by
  refine ⟨fun hmem => pldm_answers hon ?_, fun hno => pldm_answers hon ?_⟩
  · rw [h, if_pos (List.contains_iff_mem.mpr hmem)]
  · rw [h, if_neg (mt List.contains_iff_mem.mp hno)]

/-! The numeric effecter is the cabinet index (R517) -/

omit hon in
/-- The index that the effecter sets is valid. -/
theorem setIndex_valid (s : State) (v : Word) : ∃ u, s.setIndex (v.toNat % 64 + 2 ^ 31) = u ∧ RegsOnly s u ∧
    u.rd pgCAB F.CAB_INDEX = v.toNat % 64 ∧ u.rd pgCAB F.CAB_INDEX_VALID = 1 := by
  have hbit : nbit (v.toNat % 64 + 2 ^ 31) 31 = true := by
    rw [nbit, beq_iff_eq]
    omega
  obtain ⟨hindex, hvalid, -⟩ := setIndex_fields s (v.toNat % 64 + 2 ^ 31)
  rw [hbit] at hvalid
  exact ⟨_, rfl, setIndex_regs .., hindex.trans (by omega), hvalid⟩

theorem pldmSetNumericEffecterValue_sets (v : Word) (hopen : s.keg.indexLocked = false) (hmain : s.pwr.mainOff = false) :
    ∃ t, exec (.pldmSetNumericEffecterValue v) s = .next t ∧ t.rd pgCAB F.CAB_INDEX = v.toNat % 64 ∧ t.rd pgCAB F.CAB_INDEX_VALID = 1 ∧
      t.msgs = .reply 21 [2, 0x31, 0] :: s.msgs ∧ SameBytes s t := by
  obtain ⟨u, hu, hregs, hindex, hvalid⟩ := setIndex_valid s v
  have hexec : exec (.pldmSetNumericEffecterValue v) s = .next (u.pldm 2 0x31 0 []) := by
    change execPldmSetNumericEffecterValue v s = _
    rw [execPldmSetNumericEffecterValue, if_neg (by rw [hopen, hmain]; decide), hu]
  have hon' : u.pwr.standbyOff = false := by rw [hregs]; exact hon
  have hmsgs : u.msgs = s.msgs := by rw [hregs]
  rw [hexec, State.pldm, mctp_served hon']
  exact ⟨_, rfl, hindex, hvalid, congrArg _ hmsgs, hregs.sameBytes⟩

theorem pldmSetNumericEffecterValue_refused (v : Word) (hno : s.keg.indexLocked = true ∨ s.pwr.mainOff = true) :
    ∃ t, exec (.pldmSetNumericEffecterValue v) s = .next t ∧ PldmSaid s t 2 0x31 2 [] ∧ t.pwr = s.pwr := by
  refine pldm_answers hon ?_
  change execPldmSetNumericEffecterValue v s = _
  rw [execPldmSetNumericEffecterValue, if_pos]
  rwa [Bool.or_eq_true]

/-! A heartbeat (R534) -/

/-- A heartbeat is dated and counted; the orphan state is over, and its end is told. -/
theorem pldmSetStateEffecterStates_beats : ∃ t, exec .pldmSetStateEffecterStates s = .next t ∧ t.pwr = { s.pwr with hbClk := s.now } ∧
    t.on pgPOWER F.PWR_STATUS_ORPHAN = false ∧ .reply 21 [2, 0x39, 0] ∈ t.msgs ∧ t.ctr pgMGMT 0x058 = s.ctr pgMGMT 0x058 + 1 ∧
    (s.on pgPOWER F.PWR_STATUS_ORPHAN = true → Raised t pgMGMT 1) ∧ SameBytes s t := by
  have hexec : exec .pldmSetStateEffecterStates s = .next (s.heartbeat.pldm 2 0x39 0 []) := congrArg _ (if_neg (by rw [hon]; decide))
  obtain ⟨hpwr, horphan, hctr, htold, hbytes⟩ := heartbeat_spec s
  have hon' : s.heartbeat.pwr.standbyOff = false := by rw [hpwr]; exact hon
  rw [hexec, State.pldm, mctp_served hon']
  refine ⟨_, rfl, hpwr, horphan, List.mem_cons_self .., ?_, htold, hbytes.trans .of_eq⟩
  exact (State.ctr_count_ne (s.heartbeat.count pgMGMT 0x04C 1) 1 (by decide)).trans ((State.ctr_count_ne s.heartbeat 1 (by decide)).trans hctr)

/-! Platform events -/

theorem pldmPollPlatformEvent_tells {i : Nat} (hi : s.platformEvent = some i) : ∃ t, exec .pldmPollPlatformEvent s = .next t ∧
    PldmSaid s t 2 0x0B 0 [1, i, s.sensorStates.getD i 0] ∧ t.pwr.told.getD i 0 = s.sensorStates.getD i 0 := by
  have hlt : i < 4 := List.mem_range.mp (List.mem_of_find?_eq_some hi)
  let told := (List.range 4).map fun j => if j = i then s.sensorStates.getD j 0 else s.pwr.told.getD j 0
  let u : State := { s with pwr := { s.pwr with told := told } }
  have hexec : exec .pldmPollPlatformEvent s = .next (u.pldm 2 0x0B 0 [1, i, s.sensorStates.getD i 0]) := by
    change execPldmPollPlatformEvent s = _
    rw [execPldmPollPlatformEvent, if_neg (by rw [hon]; decide), hi]
  obtain ⟨⟨hsaid, hm, hp⟩, hpwr⟩ := pldm_said (s := u) hon 2 0x0B 0 [1, i, s.sensorStates.getD i 0]
  refine ⟨_, hexec, ⟨hsaid, hm, hp⟩, ?_⟩
  rw [hpwr]
  change told.getD i 0 = _
  simp only [told, List.getD_eq_getElem?_getD, List.getElem?_map, List.getElem?_range hlt, Option.map_some, if_true, Option.getD_some]

theorem pldmPollPlatformEvent_none (hno : s.platformEvent = none) :
    ∃ t, exec .pldmPollPlatformEvent s = .next t ∧ PldmSaid s t 2 0x0B 0 [0] ∧ t.pwr = s.pwr := by
  refine pldm_answers hon ?_
  change execPldmPollPlatformEvent s = _
  rw [execPldmPollPlatformEvent, if_neg (by rw [hon]; decide), hno]

/-- A command that no type serves is told so, and counted as received alone. -/
theorem pldmUnsupported_tells {type cmd : Nat} (hno : (pldmCommands type).contains cmd = false) :
    ∃ t, exec (.pldmUnsupported type cmd) s = .next t ∧ t = { s with ctrs := t.ctrs, msgs := .reply 21 [type, cmd, 5] :: s.msgs } ∧
      t.ctr pgMGMT 0x04C = s.ctr pgMGMT 0x04C + 1 ∧ t.ctr pgMGMT 0x054 = s.ctr pgMGMT 0x054 := by
  refine ⟨_, rfl, ?_⟩
  rw [mctp_served hon, if_neg (by rw [hno]; decide)]
  exact ⟨rfl, State.ctr_count_self s pgMGMT 0x04C 1, State.ctr_count_ne s 1 (by decide)⟩

end

/-- Settles O58: each clause is the lemma of its message. -/
theorem managementAnswers : Obligations.ManagementAnswers := by
  intro s hon
  refine ⟨mctpSetEndpointId_sets hon, mctpGetEndpointId_answers hon, mctpGetVersionSupport_answers hon, mctpGetMessageTypeSupport_answers hon,
    fun _ => mctpDrop_tells hon, pldm_answers hon rfl, fun type => ?_, pldm_answers hon rfl, fun _ => pldm_answers hon rfl,
    fun _ => pldm_answers hon rfl, fun _ => pldm_answers hon rfl,
    fun v => ⟨pldmSetNumericEffecterValue_sets hon v, pldmSetNumericEffecterValue_refused hon v⟩, pldmSetStateEffecterStates_beats hon,
    ⟨fun _ => pldmPollPlatformEvent_tells hon, pldmPollPlatformEvent_none hon⟩, ?_, fun _ _ => pldmUnsupported_tells hon⟩
  · obtain ⟨hver, hnover⟩ := pldmTyped_answers (i := .pldmGetPldmVersion type) (type := type) hon rfl
    obtain ⟨hcmds, hnocmds⟩ := pldmTyped_answers (i := .pldmGetPldmCommands type) (type := type) hon rfl
    exact ⟨hver, hnover, hcmds, hnocmds⟩
  · obtain ⟨t, hexec, hsaid, hpwr⟩ := pldm_answers (i := .pldmGetFruRecordTable) hon rfl
    exact ⟨t, hexec, hpwr, hsaid⟩

end Sys2Proof
end

section
/-! PROOF. O56: supply samples, sheds and the ramp governor (R524–R530). -/

namespace Sys2Proof

-- As in the files that define `Onward`: the defaults of its arguments are read by proofs in turn.
set_option Elab.async false

open Machine

theorem Quiet.pwr {s t : State} (h : Quiet s t) : t.pwr = s.pwr := by rw [h.1]
theorem RegsOnly.pwr {s t : State} (h : RegsOnly s t) : t.pwr = s.pwr := by rw [h]

/-! ## What the page shows of limits (R527, R529) -/

theorem rdi_showC0_ne (s : State) {pg i : Nat} {F0 : Field} (h : fkey pg F0 i ≠ fkey pgPOWER F.PWR_STATUS_C0_OK 0) :
    s.showC0.rdi pg F0 i = s.rdi pg F0 i := State.rdi_wri_ne _ _ h

theorem showC0_regs (s : State) : RegsOnly s s.showC0 := (regsOnly_refl s).wr ..

/-- The limits and class-0 service shown, after a shed or its end. -/
def limitsShown (s : State) : State := s.showCeiling.showC0

theorem limitsShown_regs (s : State) : RegsOnly s (limitsShown s) := (showCeiling_regs s).trans (showC0_regs _)

theorem rdi_limitsShown_ne (s : State) {pg i : Nat} {F0 : Field} (h : fkey pg F0 i ≠ fkey pgPOWER F.PWR_STATUS_C0_OK 0)
    (h' : fkey pg F0 i ≠ fkey pgPOWER F.PWR_CEILING_W 0) : (limitsShown s).rdi pg F0 i = s.rdi pg F0 i :=
  (rdi_showC0_ne _ h).trans (rdi_showCeiling_ne _ h')

theorem raised_limitsShown {s : State} {bit : Nat} (h : Raised s pgPOWER bit) : Raised (limitsShown s) pgPOWER bit := by
  rwa [Raised, State.rd, rdi_limitsShown_ne _ (by decide) (by decide)]

/-! ## Sheds (R524, R530) -/

/-- The state with a shed begun: told, counted and shown, the ballast off. -/
def shedBegun (s : State) : State :=
  limitsShown (((({ s with pwr := { s.pwr with ballast := false } }).wr pgPOWER F.PWR_STATUS_SHED 1).raise pgPOWER 2).count pgPOWER 0x054 1)

theorem startShed_eq (s : State) : s.startShed = if s.shedding || s.pulled then s else shedBegun s := rfl

theorem sameBytes_shedBegun (s : State) : SameBytes s (shedBegun s) :=
  (SameBytes.of_eq : SameBytes s { s with pwr := { s.pwr with ballast := false } }).trans
    (((((quiet_refl _).wri ..).raise ..).count ..).sameBytes.trans (limitsShown_regs _).sameBytes)

theorem shedBegun_spec (s : State) : (shedBegun s).shedding = true ∧ (shedBegun s).pwr = { s.pwr with ballast := false } ∧
    Raised (shedBegun s) pgPOWER 2 ∧ (shedBegun s).ctr pgPOWER 0x054 = s.ctr pgPOWER 0x054 + 1 := by
  refine ⟨?_, ?_, raised_limitsShown (raised_raise _ _ _ (by decide)), ?_⟩
  · rw [State.shedding, State.on, shedBegun, rdi_limitsShown_ne _ (by decide) (by decide), State.rdi_count, State.rdi_raise_ne _ (by decide),
      State.rdi_wri_self]
    rfl
  · rw [shedBegun, (limitsShown_regs _).pwr, State.count_pwr, State.raise_pwr, State.wri_pwr]
  · rw [State.ctr, shedBegun, (limitsShown_regs _).ctrs]
    exact (State.ctr_count_self ..).trans (congrArg (· + 1) (ctr_raise _ _ _ (by decide)))

/-- What a shed that is asked for leaves, whether it begins or not. -/
theorem startShed_spec (s : State) : (s.pulled = false → s.startShed.shedding = true) ∧ s.startShed.pwr.mainOff = s.pwr.mainOff ∧
    SameBytes s s.startShed ∧ (Raised s pgPOWER 0 → Raised s.startShed pgPOWER 0) := by
  obtain ⟨hshed, hpwr, -, -⟩ := shedBegun_spec s
  rw [startShed_eq]
  split
  · next hno => exact ⟨fun hin => by rwa [hin, Bool.or_false] at hno, rfl, .of_eq, id⟩
  · refine ⟨fun _ => hshed, by rw [hpwr], sameBytes_shedBegun s, fun hr => raised_limitsShown ?_⟩
    exact Onward.events (Onward.of (Onward.refl ..)).wri.raise.count 0 (by decide) hr

theorem pwrWarnLow_sheds {s : State} (hon : s.pwr.standbyOff = false) (hno : s.shedding = false) (hin : s.pulled = false) :
    ∃ t, exec .pwrWarnLow s = .next t ∧ t.shedding = true ∧ t.pwr.warnLow = true ∧ t.pwr.ballast = false ∧ Raised t pgPOWER 2 ∧
      t.ctr pgPOWER 0x054 = s.ctr pgPOWER 0x054 + 1 ∧ SameBytes s t := by
  have hexec : exec .pwrWarnLow s = .next (shedBegun { s with pwr := { s.pwr with warnLow := true } }) := by
    change execPwrWarnLow s = _
    rw [execPwrWarnLow, if_neg (by rw [hon]; decide), startShed_eq, if_neg]
    change ¬(s.shedding || s.pulled) = true
    rw [hno, hin]
    decide
  obtain ⟨hshed, hpwr, htold, hctr⟩ := shedBegun_spec { s with pwr := { s.pwr with warnLow := true } }
  refine ⟨_, hexec, hshed, ?_, ?_, htold, hctr, (SameBytes.of_eq : SameBytes s _).trans (sameBytes_shedBegun _)⟩ <;> rw [hpwr]

/-- The end of a shed, once it is allowed. -/
def shedOver (s : State) : State :=
  limitsShown (({ s with pwr := { s.pwr with warnLow := false, supShed := false } }.wr pgPOWER F.PWR_STATUS_SHED 0).raise pgPOWER 3)

section
variable {s : State} (hshed : s.shedding = true) (hin : s.pulled = false)
include hshed hin

theorem exec_shedEnd : exec .shedEnd s = .next (if !s.pwr.supShed || s.pwr.okClk.any fun c => decide (c + 10 * clkMs ≤ s.now) then shedOver s
    else { s with pwr := { s.pwr with warnLow := false } }) := by
  change execShedEnd s = _
  rw [execShedEnd]
  simp only [hshed, hin, Bool.not_true, Bool.false_or]
  cases (!s.pwr.supShed || s.pwr.okClk.any fun c => decide (c + 10 * clkMs ≤ s.now)) <;> rfl

theorem shedEnd_ends (hmay : s.pwr.supShed = false ∨ (∃ c, s.pwr.okClk = some c ∧ c + 10 * clkMs ≤ s.now)) :
    ∃ t, exec .shedEnd s = .next t ∧ t.shedding = false ∧ t.pwr.warnLow = false ∧ Raised t pgPOWER 3 ∧ SameBytes s t := by
  have hallowed : (!s.pwr.supShed || s.pwr.okClk.any fun c => decide (c + 10 * clkMs ≤ s.now)) = true := by
    obtain hno | ⟨c, hc, hle⟩ := hmay
    · rw [hno]
      rfl
    · rw [hc, Option.any_some, decide_eq_true hle, Bool.or_true]
  rw [exec_shedEnd hshed hin, if_pos hallowed]
  refine ⟨_, rfl, ?_, ?_, raised_limitsShown (raised_raise _ _ _ (by decide)), ?_⟩
  · rw [State.shedding, State.on, shedOver, rdi_limitsShown_ne _ (by decide) (by decide), State.rdi_raise_ne _ (by decide), State.rdi_wri_self]
    rfl
  · rw [shedOver, (limitsShown_regs _).pwr, State.raise_pwr, State.wri_pwr]
  · exact (SameBytes.of_eq : SameBytes s { s with pwr := { s.pwr with warnLow := false, supShed := false } }).trans
      ((((quiet_refl _).wri ..).raise ..).sameBytes.trans (limitsShown_regs _).sameBytes)

theorem shedEnd_waits (hsup : s.pwr.supShed = true) (hlow : s.pwr.okClk = none) :
    exec .shedEnd s = .next { s with pwr := { s.pwr with warnLow := false } } := by
  rw [exec_shedEnd hshed hin, if_neg (by simp [hsup, hlow])]

end

/-! ## Samples of the input (R524) -/

/-- The state with a sample taken into the interval, its stamps moved and its values shown. -/
def sampled (s : State) (mv ma : Nat) : State :=
  let p := s.pwr.sample mv s.now
  ((({ s with pwr := { p with sum := p.sum + mv * ma, n := p.n + 1 } }).wr pgPOWER F.PWR_VIN_MV mv).wr pgPOWER F.PWR_IIN_MA ma).showC0

theorem sampled_pwr (s : State) (mv ma : Nat) : (sampled s mv ma).pwr =
    { s.pwr.sample mv s.now with sum := s.pwr.sum + mv * ma, n := s.pwr.n + 1 } := rfl

theorem sameBytes_sampled (s : State) (mv ma : Nat) : SameBytes s (sampled s mv ma) := .of_eq

theorem regsBut_sampled (s : State) (mv ma : Nat) :
    RegsBut s (sampled s mv ma) [fkey pgPOWER F.PWR_VIN_MV 0, fkey pgPOWER F.PWR_IIN_MA 0, fkey pgPOWER F.PWR_STATUS_C0_OK 0] :=
  have hstamped : RegsBut s { s with pwr := { s.pwr.sample mv s.now with sum := s.pwr.sum + mv * ma, n := s.pwr.n + 1 } } [] := fun _ _ _ _ => rfl
  RegsBut.wr (RegsBut.wr (RegsBut.wr hstamped _ _ _) _ _ _) _ _ _

/-- A condition that held before the sample and holds in it has held as long as it says. -/
theorem heldFor_since {c n now : Nat} {old : Option Nat} (hold : old = some c) (hle : c + n ≤ now) : heldFor (since old true now) n now = true := by
  rw [hold]
  exact decide_eq_true hle

theorem heldFor_since_false (old : Option Nat) (n now : Nat) : heldFor (since old false now) n now = false := rfl

/-- The state that a supply out of all limits leaves (R524). -/
def switchedOff (s : State) : State :=
  let t := if s.pwr.mainOff then s else s.dropLink.mainOffNow 3
  { t with pwr := { t.pwr with standbyOff := true, lastTrip := false } }

/-- The state with a supply below or above its range noted. -/
def lowNoted (s : State) : State := { s with pwr := { s.pwr with lowTold := true, supShed := true } }
def highNoted (s : State) : State := { s with pwr := { s.pwr with highTold := true } }

/-- The stamp of a voltage below 10.8 V as the sample moves it, and those of one above 13.2 V and out of all limits. -/
def lowFrom (s : State) (mv : Nat) : Option Nat := since s.pwr.lowClk (decide (mv < 10800)) s.now
def highFrom (s : State) (mv : Nat) : Option Nat := since s.pwr.highClk (decide (13200 < mv)) s.now
def outFrom (s : State) (mv : Nat) : Option Nat := since s.pwr.outClk (decide (mv < 9600 ∨ 14500 < mv)) s.now

section
variable {s : State} (hon : s.pwr.standbyOff = false) (mv ma : Nat)
include hon

theorem exec_supplySample : exec (.supplySample mv ma) s = .next
    (if heldFor (outFrom s mv) (20 * clkUs) s.now then switchedOff (sampled s mv ma)
    else if heldFor (lowFrom s mv) (100 * clkUs) s.now && !(s.pwr.lowTold && decide (mv < 10800)) && !s.pwr.mainOff then
      ((lowNoted (sampled s mv ma)).raise pgPOWER 0).startShed
    else if heldFor (highFrom s mv) (100 * clkUs) s.now && !(s.pwr.highTold && decide (13200 < mv)) then
      (highNoted (sampled s mv ma)).raise pgPOWER 1
    else sampled s mv ma) := by
  change execSupplySample mv ma s = _
  rw [execSupplySample, if_neg (by rw [hon]; decide)]
  rfl

omit hon in
theorem heldFor_outFrom_inside (hlo : 9600 ≤ mv) (hhi : mv ≤ 14500) : heldFor (outFrom s mv) (20 * clkUs) s.now = false := by
  rw [outFrom, decide_eq_false (by omega)]
  exact heldFor_since_false ..

theorem supplySample_in_range (hlo : 10800 ≤ mv) (hhi : mv ≤ 13200) : ∃ t, exec (.supplySample mv ma) s = .next t ∧
    t.rd pgPOWER F.PWR_VIN_MV = mv ∧ t.rd pgPOWER F.PWR_IIN_MA = ma % 2 ^ 17 ∧ t.pwr.sum = s.pwr.sum + mv * ma ∧ t.pwr.n = s.pwr.n + 1 ∧
      RegsBut s t [fkey pgPOWER F.PWR_VIN_MV 0, fkey pgPOWER F.PWR_IIN_MA 0, fkey pgPOWER F.PWR_STATUS_C0_OK 0] ∧ SameBytes s t := by
  have hlow : heldFor (lowFrom s mv) (100 * clkUs) s.now = false := by
    rw [lowFrom, decide_eq_false (by omega)]
    exact heldFor_since_false ..
  have hhigh : heldFor (highFrom s mv) (100 * clkUs) s.now = false := by
    rw [highFrom, decide_eq_false (by omega)]
    exact heldFor_since_false ..
  rw [exec_supplySample hon, heldFor_outFrom_inside mv (by omega) (by omega), hlow, hhigh]
  refine ⟨sampled s mv ma, rfl, ?_, ?_, rfl, rfl, regsBut_sampled s mv ma, sameBytes_sampled ..⟩
  · rw [State.rd, sampled, rdi_showC0_ne _ (by decide), State.rdi_wri_ne _ _ (by decide), State.rdi_wri_self]
    exact Nat.mod_eq_of_lt (by simp only [F.PWR_VIN_MV]; omega)
  · rw [State.rd, sampled, rdi_showC0_ne _ (by decide), State.rdi_wri_self]
    rfl

theorem supplySample_low {c : Nat} (hlo : 9600 ≤ mv) (hhi : mv < 10800) (hc : s.pwr.lowClk = some c) (hle : c + 100 * clkUs ≤ s.now)
    (hnew : s.pwr.lowTold = false) (hmain : s.pwr.mainOff = false) : ∃ t, exec (.supplySample mv ma) s = .next t ∧ Raised t pgPOWER 0 ∧
      (s.pulled = false → t.shedding = true) ∧ t.pwr.mainOff = false ∧ SameBytes s t := by
  have hlow : heldFor (lowFrom s mv) (100 * clkUs) s.now = true := by
    rw [lowFrom, decide_eq_true hhi]
    exact heldFor_since hc hle
  rw [exec_supplySample hon, heldFor_outFrom_inside mv hlo (by omega), hlow, hnew, hmain]
  have hpulled : (sampled s mv ma).pulled = s.pulled := congrArg (· != 0) (regsBut_sampled s mv ma _ _ _ (by decide))
  have hmo : (sampled s mv ma).pwr.mainOff = false := hmain
  have hbytes := sameBytes_sampled s mv ma
  generalize sampled s mv ma = u at hpulled hmo hbytes
  obtain ⟨hshed, hmain', hbytes', htold⟩ := startShed_spec ((lowNoted u).raise pgPOWER 0)
  have hpulled' : ((lowNoted u).raise pgPOWER 0).pulled = u.pulled := by
    rw [State.pulled, State.on, State.rdi_raise_ne _ (by decide)]
    rfl
  refine ⟨((lowNoted u).raise pgPOWER 0).startShed, rfl, htold (raised_raise _ _ _ (by decide)), fun hin => hshed (hpulled'.trans (hpulled.trans hin)), ?_, ?_⟩
  · rw [hmain', State.raise_pwr]
    exact hmo
  · exact hbytes.trans ((SameBytes.of_eq : SameBytes u (lowNoted u)).trans (((quiet_refl _).raise ..).sameBytes.trans hbytes'))

theorem supplySample_high {c : Nat} (hlo : 13200 < mv) (hhi : mv ≤ 14500) (hc : s.pwr.highClk = some c) (hle : c + 100 * clkUs ≤ s.now)
    (hnew : s.pwr.highTold = false) : ∃ t, exec (.supplySample mv ma) s = .next t ∧ Raised t pgPOWER 1 ∧ t.pwr.mainOff = s.pwr.mainOff ∧
      SameBytes s t := by
  have hlow : heldFor (lowFrom s mv) (100 * clkUs) s.now = false := by
    rw [lowFrom, decide_eq_false (by omega)]
    exact heldFor_since_false ..
  have hhigh : heldFor (highFrom s mv) (100 * clkUs) s.now = true := by
    rw [highFrom, decide_eq_true hlo]
    exact heldFor_since hc hle
  rw [exec_supplySample hon, heldFor_outFrom_inside mv (by omega) hhi, hlow, hhigh, hnew]
  have hmo : (sampled s mv ma).pwr.mainOff = s.pwr.mainOff := rfl
  have hbytes := sameBytes_sampled s mv ma
  generalize sampled s mv ma = u at hmo hbytes
  refine ⟨(highNoted u).raise pgPOWER 1, rfl, raised_raise _ _ _ (by decide), ?_,
    hbytes.trans ((SameBytes.of_eq : SameBytes u (highNoted u)).trans ((quiet_refl _).raise ..).sameBytes)⟩
  rw [State.raise_pwr]
  exact hmo

theorem supplySample_out {c : Nat} (hout : mv < 9600 ∨ 14500 < mv) (hc : s.pwr.outClk = some c) (hle : c + 20 * clkUs ≤ s.now) :
    ∃ t, exec (.supplySample mv ma) s = .next t ∧ t.pwr.mainOff = true ∧ t.pwr.standbyOff = true := by
  have hheld : heldFor (outFrom s mv) (20 * clkUs) s.now = true := by
    rw [outFrom, decide_eq_true hout]
    exact heldFor_since hc hle
  rw [exec_supplySample hon, hheld]
  refine ⟨switchedOff (sampled s mv ma), rfl, ?_, rfl⟩
  rw [switchedOff]
  split
  · assumption
  · rfl

end

/-! ## The governor (R526–R529) -/

theorem quiet_c0Idled {z s : State} (h : Quiet z s) : Quiet z s.c0Idled := by
  rw [State.c0Idled]
  split
  · exact h
  · exact (((h.wri ..).count ..).raise ..).wri ..

theorem rdi_c0Idled_ne (s : State) {pg i : Nat} {F0 : Field} (h0 : fkey pg F0 i ≠ fkey pgPOWER F.PWR_STATUS_C0_OK 0)
    (h1 : fkey pg F0 i ≠ fkey pgPOWER F.PWR_STATUS_C0_THROTTLED 0) (h2 : fkey pg F0 i ≠ fkey pgPOWER F.EVT_RAW 0) :
    s.c0Idled.rdi pg F0 i = s.rdi pg F0 i := by
  rw [State.c0Idled]
  split
  · rfl
  · rw [rdi_showC0_ne _ h0, State.rdi_raise_ne _ h2, State.rdi_count, State.rdi_wri_ne _ _ h1]

theorem ctr_c0Idled (s : State) {pg off : Nat} (h : pg * 4096 + off ≠ pgPOWER * 4096 + 0x05C) (hm : pg * 4096 + off ≠ msgCtr) :
    s.c0Idled.ctr pg off = s.ctr pg off := by
  rw [State.c0Idled]
  split
  · rfl
  · rw [State.ctr, (showC0_regs _).ctrs]
    exact (ctr_raise _ _ _ hm).trans (State.ctr_count_ne _ _ h)

/-- What an interval's governing leaves of the closed interval: its sums and its average, the energy counter, the power shown, and the byte stores. -/
structure IntervalKept (s t : State) : Prop where
  sum : t.pwr.sum = s.pwr.sum
  n : t.pwr.n = s.pwr.n
  avg : t.pwr.avg = s.pwr.avg
  energy : t.ctr pgPOWER 0x04C = s.ctr pgPOWER 0x04C
  shown : t.rd pgPOWER F.PWR_PIN_W = s.rd pgPOWER F.PWR_PIN_W
  bytes : SameBytes s t

section
variable {s t u : State}

theorem IntervalKept.refl (s : State) : IntervalKept s s := ⟨rfl, rfl, rfl, rfl, rfl, .of_eq⟩

theorem IntervalKept.trans (h : IntervalKept s t) (k : IntervalKept t u) : IntervalKept s u :=
  ⟨k.sum.trans h.sum, k.n.trans h.n, k.avg.trans h.avg, k.energy.trans h.energy, k.shown.trans h.shown, h.bytes.trans k.bytes⟩

/-- What changes registers, counters and messages alone, away from the two of the interval. -/
theorem IntervalKept.of_quiet (h : Quiet s t) (hc : t.ctr pgPOWER 0x04C = s.ctr pgPOWER 0x04C)
    (hr : t.rd pgPOWER F.PWR_PIN_W = s.rd pgPOWER F.PWR_PIN_W) : IntervalKept s t :=
  ⟨by rw [h.pwr], by rw [h.pwr], by rw [h.pwr], hc, hr, h.sameBytes⟩

theorem IntervalKept.wr (h : IntervalKept s t) {pg : Nat} {F0 : Field} {v : Nat} (hne : fkey pgPOWER F.PWR_PIN_W 0 ≠ fkey pg F0 0) :
    IntervalKept s (t.wr pg F0 v) := h.trans (.of_quiet ((quiet_refl _).wri ..) rfl (State.rdi_wri_ne _ _ hne))

theorem IntervalKept.count (h : IntervalKept s t) {pg off n : Nat} (hne : pgPOWER * 4096 + 0x04C ≠ pg * 4096 + off) :
    IntervalKept s (t.count pg off n) := h.trans (.of_quiet ((quiet_refl _).count ..) (State.ctr_count_ne _ _ hne) rfl)

theorem IntervalKept.raise (h : IntervalKept s t) {bit : Nat} : IntervalKept s (t.raise pgPOWER bit) :=
  h.trans (.of_quiet ((quiet_refl _).raise ..) (ctr_raise _ _ _ (by decide)) (State.rdi_raise_ne _ (by decide)))

theorem IntervalKept.c0Idled (h : IntervalKept s t) : IntervalKept s t.c0Idled :=
  h.trans (.of_quiet (quiet_c0Idled (quiet_refl _)) (ctr_c0Idled _ (by decide) (by decide)) (rdi_c0Idled_ne _ (by decide) (by decide) (by decide)))

theorem IntervalKept.ite {c : Prop} [Decidable c] (h : IntervalKept s t) (k : IntervalKept s u) : IntervalKept s (if c then t else u) := by
  split <;> assumption

end

/-- A highest-value counter that takes a value changes the counters alone. -/
theorem highest_eq (s : State) (pg off v : Nat) : s.highest pg off v = { s with ctrs := (s.highest pg off v).ctrs } := by
  rw [State.highest]
  split <;> rfl

theorem ctr_highest_ne (s : State) {pg off p o : Nat} (v : Nat) (h : p * 4096 + o ≠ pg * 4096 + off) : (s.highest pg off v).ctr p o = s.ctr p o := by
  rw [State.highest]
  split
  · exact ngetD_nputD_ne _ _ _ _ h
  · rfl

/-! ## The end of an interval (R526, R527) -/

/-- The interval's average in the counter of energy and on the page. -/
def intervalClosed (s : State) (avg : Nat) : State :=
  ({ s with pwr := { s.pwr with sum := 0, n := 0, avg := avg, energy := (s.pwr.energy + avg) % tenthNanoJ } }.count pgPOWER 0x04C
    ((s.pwr.energy + avg) / tenthNanoJ)).wr pgPOWER F.PWR_PIN_W (avg / 1000000)

theorem closeInterval_eq (s : State) (avg : Nat) :
    s.closeInterval avg = (intervalClosed s avg).highest pgPOWER 0x060 ((intervalClosed s avg).rd pgPOWER F.PWR_PIN_W) := rfl

/-- What the governor decides by is as `s` has it. -/
structure GovernorKept (s t : State) : Prop where
  field : ∀ F0 ∈ [F.PWR_IDLE_64, F.PWR_RAMP_W_PER_MS, F.PWR_CEILING_W, F.PWR_STATUS_SHED], t.rd pgPOWER F0 = s.rd pgPOWER F0
  pulled : t.pulled = s.pulled
  mainOff : t.pwr.mainOff = s.pwr.mainOff

theorem closeInterval_spec (s : State) (avg : Nat) : (s.closeInterval avg).pwr.sum = 0 ∧ (s.closeInterval avg).pwr.n = 0 ∧
    (s.closeInterval avg).pwr.avg = avg ∧ (s.closeInterval avg).rd pgPOWER F.PWR_PIN_W = avg / 1000000 % 2 ^ 10 ∧
    (s.closeInterval avg).ctr pgPOWER 0x04C = s.ctr pgPOWER 0x04C + (s.pwr.energy + avg) / 10 ^ 10 ∧ SameBytes s (s.closeInterval avg) ∧
    GovernorKept s (s.closeInterval avg) := by
  have hctr := ctr_highest_ne (intervalClosed s avg) (pg := pgPOWER) (off := 0x060) (p := pgPOWER) (o := 0x04C)
    ((intervalClosed s avg).rd pgPOWER F.PWR_PIN_W) (by decide)
  have heq := highest_eq (intervalClosed s avg) pgPOWER 0x060 ((intervalClosed s avg).rd pgPOWER F.PWR_PIN_W)
  rw [← closeInterval_eq] at hctr heq
  have hkept (pg : Nat) (F0 : Field) (h : fkey pg F0 0 ≠ fkey pgPOWER F.PWR_PIN_W 0) : (s.closeInterval avg).rd pg F0 = s.rd pg F0 := by
    rw [heq]
    exact State.rdi_wri_ne _ _ h
  refine ⟨by rw [heq]; rfl, by rw [heq]; rfl, by rw [heq]; rfl, ?_, hctr.trans (State.ctr_count_self _ pgPOWER 0x04C _), ?_, ?_, ?_, by rw [heq]; rfl⟩
  · rw [heq]
    exact State.rdi_wri_self ..
  · rw [heq]
    exact .of_eq
  · intro F0 hF
    simp only [List.mem_cons, List.not_mem_nil, or_false] at hF
    rcases hF with rfl | rfl | rfl | rfl <;> exact hkept _ _ (by decide)
  · exact congrArg (· != 0) (hkept _ _ (by decide))

/-- The ballast of the interval moves nothing that the interval or the governor shows. -/
theorem ballastUsed_kept (s : State) : IntervalKept s s.ballastUsed ∧ GovernorKept s s.ballastUsed := by
  rw [State.ballastUsed]
  split
  · exact ⟨⟨rfl, rfl, rfl, State.ctr_count_ne _ _ (by decide), rfl, .of_eq⟩, fun _ _ => rfl, rfl, rfl⟩
  · exact ⟨.refl s, fun _ _ => rfl, rfl, rfl⟩

/-- The governor's answer up to the idling of class-0 kernels: its fraction and its ballast, shown, counted and told. -/
def governed (s : State) (prev idle : Nat) (ballast : Bool) : State :=
  let ramp := s.rd pgPOWER F.PWR_RAMP_W_PER_MS * 100000
  let limiting := idle != 0 || ballast
  let s1 := ({ s with pwr := { s.pwr with ballast := ballast } }.wr pgPOWER F.PWR_IDLE_64 idle).wr pgPOWER F.PWR_STATUS_RAMP_LIMIT (boolNat limiting)
  let s2 := if limiting then s1.count pgPOWER 0x050 1 else s1
  if prev + ramp < s.pwr.avg ∨ s.pwr.avg + ramp < prev then s2.raise pgPOWER 6 else s2

theorem governed_spec (s : State) (prev idle : Nat) (ballast : Bool) : IntervalKept s (governed s prev idle ballast) ∧
    (governed s prev idle ballast).rd pgPOWER F.PWR_IDLE_64 = idle % 2 ^ 6 := by
  have hwritten (limit : Bool) :
      IntervalKept s (({ s with pwr := { s.pwr with ballast := ballast } }.wr pgPOWER F.PWR_IDLE_64 idle).wr pgPOWER F.PWR_STATUS_RAMP_LIMIT (boolNat limit)) ∧
        (({ s with pwr := { s.pwr with ballast := ballast } }.wr pgPOWER F.PWR_IDLE_64 idle).wr pgPOWER F.PWR_STATUS_RAMP_LIMIT (boolNat limit)).rd
          pgPOWER F.PWR_IDLE_64 = idle % 2 ^ 6 := by
    have hset : IntervalKept s { s with pwr := { s.pwr with ballast := ballast } } := ⟨rfl, rfl, rfl, rfl, rfl, .of_eq⟩
    refine ⟨(hset.wr (by decide)).wr (by decide), ?_⟩
    rw [State.rd, State.rdi_wri_ne _ _ (by decide), State.rdi_wri_self]
    rfl
  obtain ⟨hkept, hidle⟩ := hwritten (idle != 0 || ballast)
  rw [governed]
  dsimp only
  generalize State.wr _ pgPOWER F.PWR_STATUS_RAMP_LIMIT _ = u at hkept hidle ⊢
  have hcounted : IntervalKept s (if (idle != 0 || ballast) = true then u.count pgPOWER 0x050 1 else u) := .ite (hkept.count (by decide)) hkept
  have hread : (if (idle != 0 || ballast) = true then u.count pgPOWER 0x050 1 else u).rd pgPOWER F.PWR_IDLE_64 = idle % 2 ^ 6 := by
    split
    · exact (State.rdi_count ..).trans hidle
    · exact hidle
  refine ⟨.ite hcounted.raise hcounted, ?_⟩
  split
  · exact (State.rdi_raise_ne _ (by decide)).trans hread
  · exact hread

/-- What the governor makes of its fraction: one step of 1/64 up or down. -/
def idleNext (s : State) (prev : Nat) : Nat :=
  if decide (prev + s.rd pgPOWER F.PWR_RAMP_W_PER_MS * 100000 < s.pwr.avg) || s.overCeiling then min 63 (s.rd pgPOWER F.PWR_IDLE_64 + 1)
  else s.rd pgPOWER F.PWR_IDLE_64 - 1

theorem govern_spec (s : State) (prev : Nat) : IntervalKept s (s.govern prev) ∧
    (s.govern prev).rd pgPOWER F.PWR_IDLE_64 = idleNext s prev % 2 ^ 6 := by
  have heq : ∃ ballast, s.govern prev = if (s.rd pgPOWER F.PWR_IDLE_64 = 63 && (governed s prev (idleNext s prev) ballast).overCeiling &&
      (governed s prev (idleNext s prev) ballast).c0Runs fun _ => true) = true then (governed s prev (idleNext s prev) ballast).c0Idled
      else governed s prev (idleNext s prev) ballast := ⟨_, rfl⟩
  obtain ⟨ballast, heq⟩ := heq
  obtain ⟨hkept, hidle⟩ := governed_spec s prev (idleNext s prev) ballast
  rw [heq]
  generalize governed s prev (idleNext s prev) ballast = u at *
  refine ⟨.ite hkept.c0Idled hkept, ?_⟩
  split
  · exact (rdi_c0Idled_ne _ (by decide) (by decide) (by decide)).trans hidle
  · exact hidle

theorem idleNext_of_up {s : State} {prev : Nat} (h : prev + s.rd pgPOWER F.PWR_RAMP_W_PER_MS * 100000 < s.pwr.avg ∨
    s.rd pgPOWER F.PWR_CEILING_W * 1000000 < s.pwr.avg) : idleNext s prev = min 63 (s.rd pgPOWER F.PWR_IDLE_64 + 1) := by
  rw [idleNext, if_pos]
  simpa only [State.overCeiling, Bool.or_eq_true, decide_eq_true_eq] using h

theorem idleNext_of_down {s : State} {prev : Nat} (h : s.pwr.avg ≤ prev + s.rd pgPOWER F.PWR_RAMP_W_PER_MS * 100000)
    (h' : s.pwr.avg ≤ s.rd pgPOWER F.PWR_CEILING_W * 1000000) : idleNext s prev = s.rd pgPOWER F.PWR_IDLE_64 - 1 := by
  rw [idleNext, if_neg]
  simp only [State.overCeiling, Bool.or_eq_true, decide_eq_true_eq, not_or, Nat.not_lt]
  exact ⟨h, h'⟩

/-- In a shed the governor is bypassed: the fraction is a free value, and class-0 kernels are idled too. -/
def intervalInShed (s : State) : State :=
  let s3 := ((s.fresh 6).1.wr pgPOWER F.PWR_IDLE_64 (s.fresh 6).2).wr pgPOWER F.PWR_STATUS_RAMP_LIMIT 0
  if s3.c0Runs fun _ => true then s3.c0Idled else s3

theorem intervalInShed_kept (s : State) : IntervalKept s (intervalInShed s) := by
  have hfresh : IntervalKept s (s.fresh 6).1 := ⟨rfl, rfl, rfl, rfl, rfl, .of_eq⟩
  have hwritten := (hfresh.wr (pg := pgPOWER) (F0 := F.PWR_IDLE_64) (v := (s.fresh 6).2) (by decide)).wr (pg := pgPOWER)
    (F0 := F.PWR_STATUS_RAMP_LIMIT) (v := 0) (by decide)
  exact .ite hwritten.c0Idled hwritten

section
variable {s : State} (hon : s.pwr.standbyOff = false) (hn : s.pwr.n ≠ 0)
include hon hn

theorem exec_powerInterval : exec .powerInterval s = .next
    (let u := (s.closeInterval (s.pwr.sum / s.pwr.n)).ballastUsed
    if u.pulled || u.pwr.mainOff then u else if u.shedding then intervalInShed u else u.govern s.pwr.avg) := by
  change execPowerInterval s = _
  rw [execPowerInterval, if_neg (by simp [hon, hn])]
  rfl

theorem powerInterval_spec : ∃ t, exec .powerInterval s = .next t ∧ t.pwr.sum = 0 ∧ t.pwr.n = 0 ∧ t.pwr.avg = s.pwr.sum / s.pwr.n ∧
    t.rd pgPOWER F.PWR_PIN_W = s.pwr.sum / s.pwr.n / 1000000 % 2 ^ 10 ∧
    t.ctr pgPOWER 0x04C = s.ctr pgPOWER 0x04C + (s.pwr.energy + s.pwr.sum / s.pwr.n) / 10 ^ 10 ∧
    (s.pulled = false → s.pwr.mainOff = false → s.shedding = false → s.rd pgPOWER F.PWR_IDLE_64 ≤ 63 →
      (s.pwr.avg + s.rd pgPOWER F.PWR_RAMP_W_PER_MS * 100000 < s.pwr.sum / s.pwr.n ∨
          s.rd pgPOWER F.PWR_CEILING_W * 1000000 < s.pwr.sum / s.pwr.n →
        t.rd pgPOWER F.PWR_IDLE_64 = min 63 (s.rd pgPOWER F.PWR_IDLE_64 + 1)) ∧
      (s.pwr.sum / s.pwr.n ≤ s.pwr.avg + s.rd pgPOWER F.PWR_RAMP_W_PER_MS * 100000 →
          s.pwr.sum / s.pwr.n ≤ s.rd pgPOWER F.PWR_CEILING_W * 1000000 →
        t.rd pgPOWER F.PWR_IDLE_64 = s.rd pgPOWER F.PWR_IDLE_64 - 1)) ∧ SameBytes s t := by
  rw [exec_powerInterval hon hn]
  generalize s.pwr.sum / s.pwr.n = avg
  obtain ⟨hsum, hcount, havg, hshown, henergy, hbytes, hgov⟩ := closeInterval_spec s avg
  obtain ⟨hkept, hgov'⟩ := ballastUsed_kept (s.closeInterval avg)
  have hfield (F0) (h : F0 ∈ [F.PWR_IDLE_64, F.PWR_RAMP_W_PER_MS, F.PWR_CEILING_W, F.PWR_STATUS_SHED]) :
      (s.closeInterval avg).ballastUsed.rd pgPOWER F0 = s.rd pgPOWER F0 := (hgov'.field _ h).trans (hgov.field _ h)
  have hpulled := hgov'.pulled.trans hgov.pulled
  have hmain := hgov'.mainOff.trans hgov.mainOff
  have hshed : (s.closeInterval avg).ballastUsed.shedding = s.shedding := congrArg (· != 0) (hfield F.PWR_STATUS_SHED (by decide))
  have havg' := hkept.avg.trans havg
  generalize (s.closeInterval avg).ballastUsed = u at *
  have hall : IntervalKept u (if (u.pulled || u.pwr.mainOff) = true then u else if u.shedding then intervalInShed u else u.govern s.pwr.avg) :=
    .ite (.refl u) (.ite (intervalInShed_kept u) (govern_spec u s.pwr.avg).1)
  have hk := hkept.trans hall
  refine ⟨_, rfl, hk.sum.trans hsum, hk.n.trans hcount, hk.avg.trans havg, hk.shown.trans hshown, hk.energy.trans henergy, ?_, hbytes.trans hk.bytes⟩
  intro hin hmo hno hle
  dsimp only
  rw [hpulled, hmain, hshed, hin, hmo, hno, if_neg (by decide), if_neg (by decide), (govern_spec u s.pwr.avg).2]
  have hramp := hfield F.PWR_RAMP_W_PER_MS (by decide)
  have hceil := hfield F.PWR_CEILING_W (by decide)
  have hidle := hfield F.PWR_IDLE_64 (by decide)
  constructor
  · intro hup
    rw [idleNext_of_up (by rwa [hramp, hceil, havg']), hidle]
    omega
  · intro hslow hunder
    rw [idleNext_of_down (by rwa [hramp, havg']) (by rwa [hceil, havg']), hidle]
    omega

end

/-- Settles O56: each clause is the spec lemma of its command; the sums of an interval are closed before the governor answers, which leaves them. -/
theorem supplyAndGovernor : Obligations.SupplyAndGovernor := by
  unfold Obligations.SupplyAndGovernor
  refine ⟨fun mv ma s hon => ⟨supplySample_in_range hon mv ma, fun c => supplySample_low hon mv ma, fun c => supplySample_high hon mv ma,
    fun c => supplySample_out hon mv ma⟩, fun s => pwrWarnLow_sheds, fun s hshed hin => ⟨shedEnd_ends hshed hin, shedEnd_waits hshed hin⟩, ?_⟩
  exact fun s hon hn => powerInterval_spec hon hn

end Sys2Proof
end

section
/-! SUPPORT. What the abort of jobs (R515) leaves alone: everything but the jobs, their operations and steps, the events that tell of it and what the
keg and collective pages show of jobs. -/

namespace Sys2Proof

set_option Elab.async false

open Machine

/-- A register entry that an abort leaves alone: it lies behind `EVT_RAW`, in no context's page, and is none that shows jobs and operations (R519, R520). -/
def spared (k : Nat) : Bool :=
  decide (k < 0x20002 * 131072 ∧ 0x420 ≤ k % 131072 ∧ (k < 0x1000 * 131072 ∨ k / 131072 % 0x1000 ≠ 0x30 ∧ k % 131072 ≠ 0x128 * 32))

/-- A counter that an abort leaves alone: not that of the aborts, of the messages, of flits sent, of a die's aborts, of a context's events. -/
def uncounted (k : Nat) : Bool :=
  decide (k ≠ pgCAB * 4096 + 0x058 ∧ k ≠ msgCtr ∧ k < 0x20002 * 4096 ∧
    (k < 0x1000 * 4096 ∨ k % 4096 ≠ 0x04C ∧ (k / 4096 % 0x1000 ≠ 0x30 ∨ k % 4096 ≠ 0x05C)))

/-- From `s` to `t` nothing but jobs and operations of keg links, the link keys drawn, the status of steps, what spiles keep for operations, and what
tells of it changes. -/
structure Aborts (s t : State) : Prop where
  rest : t = { s with
    regs := t.regs
    ctrs := t.ctrs
    msgs := t.msgs
    freeIdx := t.freeIdx
    steps := t.steps
    host := { s.host with msixPend := t.host.msixPend, heldMsgs := t.host.heldMsgs }
    keg := { s.keg with jobs := t.keg.jobs, ops := t.keg.ops }
    lp := { s.lp with keyNext := t.lp.keyNext }
    spl := t.spl }
  regs : ∀ pg F0 i, spared (fkey pg F0 i) = true → t.rdi pg F0 i = s.rdi pg F0 i
  ctrs : ∀ pg off, uncounted (pg * 4096 + off) = true → t.ctr pg off = s.ctr pg off

theorem Aborts.refl (s : State) : Aborts s s := ⟨rfl, fun _ _ _ _ => rfl, fun _ _ _ => rfl⟩

section
variable {z s t u : State}

theorem Aborts.trans (h : Aborts s t) (k : Aborts t u) : Aborts s u :=
  ⟨k.rest.trans (by rw [h.rest]), fun pg F0 i hk => (k.regs pg F0 i hk).trans (h.regs pg F0 i hk),
    fun pg off hk => (k.ctrs pg off hk).trans (h.ctrs pg off hk)⟩

theorem Aborts.ite {c : Prop} [Decidable c] (h : Aborts z s) (k : Aborts z t) : Aborts z (if c then s else t) := by
  split <;> assumption

theorem Aborts.foldl {α : Type} {g : State → α → State} {l : List α} {s : State} (h : Aborts z s)
    (hg : ∀ x ∈ l, ∀ t, Aborts z t → Aborts z (g t x)) : Aborts z (l.foldl g s) := by
  induction l generalizing s with
  | nil => exact h
  | cons x l ih => exact ih (hg x (by simp) s h) fun y hy => hg y (List.mem_cons_of_mem _ hy)

theorem Aborts.sameBytes (h : Aborts s t) : SameBytes s t := by
  rw [h.rest]
  exact .of_eq

theorem Aborts.noAnswer (h : Aborts s t) : NoAnswer s t := by
  rw [h.rest]
  exact ⟨rfl, rfl, rfl⟩

theorem Aborts.pwr (h : Aborts s t) : t.pwr = s.pwr := by rw [h.rest]
theorem Aborts.variant (h : Aborts s t) : t.variant = s.variant := by rw [h.rest]
theorem Aborts.retired (h : Aborts s t) : t.retired = s.retired := by rw [h.rest]
theorem Aborts.silent (h : Aborts s t) : t.keg.silent = s.keg.silent := by rw [h.rest]
theorem Aborts.conf (h : Aborts s t) : t.keg.conf = s.keg.conf := by rw [h.rest]
theorem Aborts.link (h : Aborts s t) (l : Nat) : t.link l = s.link l := by rw [h.rest]; rfl

/-- What changes registers, counters and messages alone, away from what an abort spares. -/
theorem Quiet.aborts (h : Quiet s t) (hn : NoAnswer s t) (hr : ∀ pg F0 i, spared (fkey pg F0 i) = true → t.rdi pg F0 i = s.rdi pg F0 i)
    (hc : ∀ pg off, uncounted (pg * 4096 + off) = true → t.ctr pg off = s.ctr pg off) : Aborts s t := by
  refine ⟨?_, hr, hc⟩
  obtain ⟨hs, hh⟩ := h
  obtain ⟨h1, h2, h3⟩ := hn
  rw [h1, h2, h3] at hh
  rw [hh] at hs
  exact hs.trans (by rw [hs])

/-! Registers, events and counters -/

theorem Aborts.wri (h : Aborts z s) {pg i : Nat} {F0 : Field} (v : Nat) (hk : spared (fkey pg F0 i) = false) : Aborts z (s.wri pg F0 i v) :=
  h.trans ⟨rfl, fun p F1 j hs => State.rdi_wri_ne _ _ fun heq => absurd (hs.symm.trans ((congrArg spared heq).trans hk)) (by decide), fun _ _ _ => rfl⟩

theorem spared_raw (pg : Nat) : spared (fkey pg F.EVT_RAW 0) = false := by
  simp only [spared, fkey, F.EVT_RAW]
  exact decide_eq_false (by omega)

theorem Aborts.raise (h : Aborts z s) (pg bit : Nat) : Aborts z (s.raise pg bit) :=
  h.trans (((quiet_refl s).raise pg bit).aborts (noAnswer_raise s pg bit)
    (fun p F1 j hs => State.rdi_raise_ne _ fun heq => absurd (hs.symm.trans ((congrArg spared heq).trans (spared_raw pg))) (by decide))
    fun p off hu => ctr_raise _ _ _ (of_decide_eq_true hu).2.1)

theorem Aborts.count (h : Aborts z s) {pg off : Nat} (n : Nat) (hk : uncounted (pg * 4096 + off) = false) : Aborts z (s.count pg off n) :=
  h.trans ⟨rfl, fun _ _ _ _ => rfl, fun p o hu => State.ctr_count_ne _ _ fun heq => absurd (hu.symm.trans ((congrArg uncounted heq).trans hk)) (by decide)⟩

/-- The parts of the state that an abort changes besides. -/
theorem Aborts.parts (h : Aborts z s) (n key : Nat) (steps : AMap Step) (jobs : AMap Job) (ops : AMap CollOp) (spl : SplSt) :
    Aborts z { s with freeIdx := n, steps := steps, keg := { s.keg with jobs := jobs, ops := ops }, lp := { s.lp with keyNext := key }, spl := spl } :=
  h.trans ⟨rfl, fun _ _ _ _ => rfl, fun _ _ _ => rfl⟩

theorem spared_cev {c : Nat} {F0 : Field} {i : Nat} : spared (fkey (pgCEV c) F0 i) = false := by
  simp only [spared, fkey, pgCEV]
  exact decide_eq_false (by omega)

theorem uncounted_cev (c off : Nat) : uncounted (pgCEV c * 4096 + off) = false := by
  simp only [uncounted, pgCEV]
  exact decide_eq_false (by omega)

theorem Aborts.ctxEvent (h : Aborts z s) (c bit st code q : Nat) : Aborts z (s.ctxEvent c bit st code q) := by
  rw [State.ctxEvent]
  exact .ite (((h.raise ..).raise ..).count _ (uncounted_cev ..))
    ((((((h.wri _ spared_cev).wri _ spared_cev).wri _ spared_cev).wri _ spared_cev).wri _ spared_cev).raise ..)

/-! Jobs (R515) -/

theorem Aborts.showJobs (h : Aborts z s) : Aborts z s.showJobs := by
  have hjobs (l : Nat) : spared (fkey (pgKEG l) F.KEG_JOBS 0) = false := by
    simp only [spared, fkey, F.KEG_JOBS, pgKEG, pgDIE]
    exact decide_eq_false (by omega)
  have hcol (n : Nat) (F0 : Field) (hF : 0x20 < F0.off ∧ F0.off < 0x1000 ∧ F0.lo < 32) : spared (fkey (pgCOL n) F0 0) = false := by
    simp only [spared, fkey, pgCOL, pgDIE, Nat.mul_zero]
    exact decide_eq_false (by omega)
  rw [State.showJobs]
  exact (h.foldl fun l _ _ ht => ht.wri _ (hjobs l)).foldl fun n _ _ ht => (ht.wri _ (hcol n _ (by decide))).wri _ (hcol n _ (by decide))

theorem uncounted_sent (l : Nat) : uncounted (pgKEG l * 4096 + 0x04C) = false := by
  simp only [uncounted, pgKEG, pgDIE]
  exact decide_eq_false (by omega)

theorem Aborts.kegSend (h : Aborts z s) (l kind : Nat) (ws : List Nat) : Aborts z (s.kegSend l kind ws) := by
  rw [State.kegSend]
  refine .ite h ((h.count 1 (uncounted_sent l)).trans ⟨rfl, fun _ _ _ _ => rfl, fun _ _ _ => rfl⟩)

theorem Aborts.tellMembers (h : Aborts z s) (x : Job) (kind : Nat) (ws : List Nat) : Aborts z (s.tellMembers x kind ws) := by
  rw [State.tellMembers]
  refine h.foldl fun m _ t ht => ?_
  split
  · exact ht.kegSend ..
  · exact ht

theorem Aborts.dropOps (h : Aborts z s) (q : CollOp → Bool) : Aborts z (s.dropOps q) := h.parts ..
theorem Aborts.setKegJob (h : Aborts z s) (j : Nat) (x : Job) : Aborts z (s.setKegJob j x) := h.parts ..
theorem Aborts.failStep (h : Aborts z s) (id st code : Nat) : Aborts z (s.failStep id st code) := h.parts ..
theorem Aborts.setStep (h : Aborts z s) (id : Nat) (st : Step) : Aborts z (s.setStep id st) := h.parts ..

end

/-! What leaves the keg links' state alone -/

theorem Quiet.keg {s t : State} (h : Quiet s t) : t.keg = s.keg := by rw [h.1]

theorem Quiet.kegSend {z s : State} (h : Quiet z s) (l kind : Nat) (ws : List Nat) : Quiet z (s.kegSend l kind ws) := by
  rw [State.kegSend]
  split
  · exact h
  · exact h.trans ⟨rfl, rfl⟩

theorem Quiet.tellMembers {z s : State} (h : Quiet z s) (x : Job) (kind : Nat) (ws : List Nat) : Quiet z (s.tellMembers x kind ws) := by
  refine Quiet.foldl (fun t m ht => ?_) _ h
  split
  · exact ht.kegSend ..
  · exact ht

theorem Quiet.showJobs {z s : State} (h : Quiet z s) : Quiet z s.showJobs :=
  Quiet.foldl (fun _ _ ht => (ht.wri ..).wri ..) _ (Quiet.foldl (fun _ _ ht => ht.wri ..) _ h)

theorem keg_failSteps (ids : List Nat) (st code : Nat) (s : State) : (ids.foldl (fun t id => t.failStep id st code) s).keg = s.keg := by
  induction ids generalizing s with
  | nil => rfl
  | cons id ids ih => exact ih (s.failStep id st code)

/-! The abort of one job -/

/-- What an abort leaves of a job. -/
def jobGone (x : Job) : Job := { x with aborted := true, keys := none, early := [] }

/-- The abort of a job up to the events: its members are told, its operations and keys go, its steps fail. -/
def jobStopped (s : State) (j : Nat) (x : Job) (fence : Bool) : State :=
  let s2 := ((s.tellMembers x 4 [j]).dropOps fun o => o.job == j).setKegJob j (jobGone x)
  ((s2.steps.filter fun e => e.2.job == some j && e.2.started).map (·.1)).foldl (fun t id => t.failStep id (if fence then stFENCED else stABORTED) 0) s2

/-- The engines of the job's dies tell of the abort and count it. -/
def enginesStopped (s : State) (dieSet : Nat) : State :=
  (bitsSet dieSet 4).foldl (fun t n => (t.raise (pgCOL n) 2).count (pgCOL n) 0x05C 1) s

/-- The job's context hears of steps that failed, if any did. -/
def stepsTold (s : State) (quiet : Bool) (c st : Nat) : State := if quiet then s else (s.fresh 5).1.ctxCode c (s.fresh 5).2 st 0

/-- The pages show the job gone; an abort that a member asked for is not counted. -/
def abortShown (s : State) (heard : Bool) : State := (if heard then s else s.count pgCAB 0x058 1).showJobs

section
variable {s : State} {j : Nat} {x : Job} (hj : s.kegJob j = some x) (fence heard : Bool)
include hj

theorem abortJob_of_aborted (h : x.aborted = true) : s.abortJob j fence heard = s := by
  simp only [State.abortJob, hj, h, if_true]

theorem abortJob_of_live (hlive : x.aborted = false) : ∃ quiet st,
    s.abortJob j fence heard = abortShown (enginesStopped (stepsTold (jobStopped s j x fence) quiet x.ctx st) x.dieSet) heard := by
  simp only [State.abortJob, hj, hlive]
  exact ⟨_, _, rfl⟩

end

theorem quiet_stepsTold (s : State) (quiet : Bool) (c st : Nat) : ∃ n, Quiet { s with freeIdx := n } (stepsTold s quiet c st) := by
  rw [stepsTold]
  split
  · exact ⟨s.freeIdx, quiet_refl _⟩
  · exact ⟨_, (quiet_refl _).ctxEvent ..⟩

theorem Quiet.enginesStopped {z s : State} (h : Quiet z s) (dieSet : Nat) : Quiet z (enginesStopped s dieSet) :=
  Quiet.foldl (fun _ _ ht => (ht.raise ..).count ..) _ h

theorem Quiet.abortShown {z s : State} (h : Quiet z s) (heard : Bool) : Quiet z (abortShown s heard) := by
  rw [Sys2Proof.abortShown]
  split
  · exact h.showJobs
  · exact (h.count ..).showJobs

theorem keg_jobStopped (s : State) (j : Nat) (x : Job) (fence : Bool) : (jobStopped s j x fence).keg =
    { s.keg with ops := s.keg.ops.filter fun e => !(e.2.job == j), jobs := mput s.keg.jobs j (jobGone x) } := by
  have htold := ((quiet_refl s).tellMembers x 4 [j]).keg
  rw [jobStopped]
  dsimp only
  rw [keg_failSteps]
  change { (s.tellMembers x 4 [j]).keg with
    ops := (s.tellMembers x 4 [j]).keg.ops.filter fun e => !(e.2.job == j)
    jobs := mput (s.tellMembers x 4 [j]).keg.jobs j (jobGone x) } = _
  rw [htold]

/-- What a live job's abort leaves of the keg links' state: the job without keys and records, none of its operations. -/
theorem keg_abortJob {s : State} {j : Nat} {x : Job} (hj : s.kegJob j = some x) (hlive : x.aborted = false) (fence heard : Bool) :
    (s.abortJob j fence heard).keg =
      { s.keg with ops := s.keg.ops.filter fun e => !(e.2.job == j), jobs := mput s.keg.jobs j (jobGone x) } := by
  obtain ⟨quiet, st, heq⟩ := abortJob_of_live hj fence heard hlive
  obtain ⟨n, hq⟩ := quiet_stepsTold (jobStopped s j x fence) quiet x.ctx st
  rw [heq, ((hq.enginesStopped x.dieSet).abortShown heard).keg]
  exact keg_jobStopped s j x fence

theorem kegJob_abortJob_self {s : State} {j : Nat} {x : Job} (hj : s.kegJob j = some x) (hlive : x.aborted = false) (fence heard : Bool) :
    (s.abortJob j fence heard).kegJob j = some (jobGone x) := by
  rw [State.kegJob, keg_abortJob hj hlive, mget_mput_self]

theorem kegJob_abortJob_ne (s : State) {j i : Nat} (h : i ≠ j) (fence heard : Bool) : (s.abortJob j fence heard).kegJob i = s.kegJob i := by
  cases hj : s.kegJob j with
  | none => simp only [State.abortJob, hj]
  | some x =>
    cases hx : x.aborted with
    | true => rw [abortJob_of_aborted hj fence heard hx]
    | false => rw [State.kegJob, keg_abortJob hj hx, mget_mput_ne _ _ h]; rfl

theorem Aborts.enginesStopped {z s : State} (h : Aborts z s) (dieSet : Nat) : Aborts z (enginesStopped s dieSet) :=
  h.foldl fun n _ t ht => (ht.raise ..).count _ (by simp only [uncounted, pgCOL, pgDIE]; exact decide_eq_false (by omega))

theorem Aborts.abortJob {z s : State} (h : Aborts z s) (j : Nat) (fence heard : Bool) : Aborts z (s.abortJob j fence heard) := by
  cases hj : s.kegJob j with
  | none => simpa only [State.abortJob, hj] using h
  | some x =>
    cases hx : x.aborted with
    | true => rwa [abortJob_of_aborted hj fence heard hx]
    | false =>
      obtain ⟨quiet, st, heq⟩ := abortJob_of_live hj fence heard hx
      have hstop : Aborts z (jobStopped s j x fence) := Aborts.foldl (((h.tellMembers ..).dropOps _).setKegJob ..) fun _ _ _ ht => ht.failStep ..
      have htold : Aborts z (stepsTold (jobStopped s j x fence) quiet x.ctx st) := .ite hstop ((hstop.parts ..).ctxEvent ..)
      rw [heq]
      exact (Aborts.ite (htold.enginesStopped _) ((htold.enginesStopped _).count _ (by decide))).showJobs

theorem Aborts.abortJobs {z s : State} (h : Aborts z s) (q : Nat × Job → Bool) (fence : Bool) : Aborts z (s.abortJobs q fence) :=
  h.foldl fun _ _ _ ht => ht.abortJob ..

/-! The abort of several jobs -/

/-- A list of jobs aborted, in turn. -/
theorem kegJob_abortList_of_notMem {i : Nat} {fence : Bool} : ∀ (l : List Nat) (s : State), i ∉ l →
    (l.foldl (fun t j => t.abortJob j fence) s).kegJob i = s.kegJob i
  | [], _, _ => rfl
  | j :: l, s, h => by
    rw [List.mem_cons, not_or] at h
    rw [List.foldl_cons, kegJob_abortList_of_notMem l _ h.2, kegJob_abortJob_ne s h.1]

theorem kegJob_abortList_gone {i : Nat} {x : Job} {fence : Bool} (hx : x.aborted = true) : ∀ (l : List Nat) (s : State), s.kegJob i = some x →
    (l.foldl (fun t j => t.abortJob j fence) s).kegJob i = some x
  | [], _, h => h
  | j :: l, s, h => by
    refine kegJob_abortList_gone hx l _ ?_
    by_cases hij : i = j
    · subst hij
      change (s.abortJob i fence).kegJob i = some x
      rwa [abortJob_of_aborted h fence false hx]
    · exact (kegJob_abortJob_ne s hij fence false).trans h

theorem kegJob_abortList {i : Nat} {x : Job} {fence : Bool} (hlive : x.aborted = false) : ∀ (l : List Nat) (s : State), i ∈ l → s.kegJob i = some x →
    (l.foldl (fun t j => t.abortJob j fence) s).kegJob i = some (jobGone x)
  | [], _, h, _ => absurd h List.not_mem_nil
  | j :: l, s, h, hi => by
    by_cases hij : i = j
    · subst hij
      exact kegJob_abortList_gone rfl l _ (kegJob_abortJob_self hi hlive fence false)
    · exact kegJob_abortList hlive l _ ((List.mem_cons.mp h).resolve_left hij) ((kegJob_abortJob_ne s hij fence false).trans hi)

theorem mem_abortList {s : State} {i : Nat} {x : Job} {q : Nat × Job → Bool} (hi : s.kegJob i = some x) (hq : q (i, x) = true) :
    i ∈ (s.keg.jobs.filter q).map (·.1) := List.mem_map.mpr ⟨(i, x), List.mem_filter.mpr ⟨mem_of_mget hi, hq⟩, rfl⟩

theorem kegJob_abortJobs {s : State} {i : Nat} {x : Job} {q : Nat × Job → Bool} (hi : s.kegJob i = some x) (hlive : x.aborted = false)
    (hq : q (i, x) = true) (fence : Bool) : (s.abortJobs q fence).kegJob i = some (jobGone x) :=
  kegJob_abortList hlive _ _ (mem_abortList hi hq) hi

end Sys2Proof
end

section
/-! PROOF. O52: keg links, from flit to route (R502–R505). -/

namespace Sys2Proof

set_option Elab.async false

open Machine

/-! ## A link goes DOWN (R503) -/

/-- The link shows DOWN, which is told and counted. -/
def linkDownShown (s : State) (l : Nat) : State :=
  ((((s.wr (pgKEG l) F.KEG_STATE kegDOWN).wr (pgKEG l) F.KEG_LANES_OK 0).raise (pgKEG l) 1).count (pgKEG l) 0x05C 1).bump (pgKEG l) F.KEG_SUSPECT 1

/-- The link is DOWN since now. -/
def linkDown (s : State) (l : Nat) : State :=
  (linkDownShown s l).setLink l { (linkDownShown s l).link l with downClk := s.now, reach := 0, fails := 0 }

/-- The jobs that a link carried abort. -/
def jobsLost (s : State) (l : Nat) (t : State) : State :=
  ((s.keg.jobs.filter fun e => s.carries l e.2).map (·.1)).foldl (fun t j => t.abortJob j) t

/-- The route of an index goes if it was the link's and not fixed. -/
def routeCleared (l : Nat) (t : State) (m : Nat) : State :=
  if t.rdi pgCAB F.CAB_ROUTE_VALID m = 1 ∧ t.rdi pgCAB F.CAB_ROUTE_LINK m = l ∧ t.rdi pgCAB F.CAB_ROUTE_FIXED m = 0 then
    (t.wri pgCAB F.CAB_ROUTE_VALID m 0).wri pgCAB F.CAB_ROUTE_LINK m 0
  else t

theorem linkFell_of_up {s : State} {l : Nat} (hup : s.kegState l = kegUP) :
    s.linkFell l = ((List.range 64).foldl (routeCleared l) (jobsLost s l (linkDown s l))).showJobs := by
  rw [State.linkFell, if_neg (by simp [hup])]
  rfl

theorem linkFell_of_not_up {s : State} {l : Nat} (hup : s.kegState l ≠ kegUP) : s.linkFell l = s := by
  rw [State.linkFell, if_pos (by simpa using hup)]

theorem rdi_setLink (s : State) (l : Nat) (x : KegLink) (pg : Nat) (F0 : Field) (i : Nat) : (s.setLink l x).rdi pg F0 i = s.rdi pg F0 i := rfl
theorem ctr_setLink (s : State) (l : Nat) (x : KegLink) (pg off : Nat) : (s.setLink l x).ctr pg off = s.ctr pg off := rfl

/-! ### Routes of a link that is gone -/

/-- The routes that are cleared are the only change. -/
theorem routeCleared_regs (l : Nat) (t : State) (m : Nat) : RegsOnly t (routeCleared l t m) := by
  rw [routeCleared]
  split
  · exact ((regsOnly_refl t).wri ..).wri ..
  · exact regsOnly_refl t

theorem rdi_routeCleared_ne (l : Nat) (t : State) {m pg i : Nat} {F0 : Field} (hv : fkey pg F0 i ≠ fkey pgCAB F.CAB_ROUTE_VALID m)
    (hl : fkey pg F0 i ≠ fkey pgCAB F.CAB_ROUTE_LINK m) : (routeCleared l t m).rdi pg F0 i = t.rdi pg F0 i := by
  rw [routeCleared]
  split
  · rw [State.rdi_wri_ne _ _ hl, State.rdi_wri_ne _ _ hv]
  · rfl

theorem routeKey_ne {m k : Nat} (h : k ≠ m) :
    fkey pgCAB F.CAB_ROUTE_VALID k ≠ fkey pgCAB F.CAB_ROUTE_VALID m ∧ fkey pgCAB F.CAB_ROUTE_LINK k ≠ fkey pgCAB F.CAB_ROUTE_LINK m := by
  constructor <;> simp only [fkey, F.CAB_ROUTE_VALID, F.CAB_ROUTE_LINK] <;> omega

theorem routeKey_apart (m k : Nat) : fkey pgCAB F.CAB_ROUTE_VALID k ≠ fkey pgCAB F.CAB_ROUTE_LINK m ∧
    fkey pgCAB F.CAB_ROUTE_LINK k ≠ fkey pgCAB F.CAB_ROUTE_VALID m ∧ fkey pgCAB F.CAB_ROUTE_FIXED k ≠ fkey pgCAB F.CAB_ROUTE_VALID m ∧
    fkey pgCAB F.CAB_ROUTE_FIXED k ≠ fkey pgCAB F.CAB_ROUTE_LINK m := by
  refine ⟨?_, ?_, ?_, ?_⟩ <;> simp only [fkey, F.CAB_ROUTE_VALID, F.CAB_ROUTE_LINK, F.CAB_ROUTE_FIXED] <;> omega

/-- Which of a route's three fields are the same. -/
def RouteSame (m : Nat) (s t : State) : Prop :=
  t.rdi pgCAB F.CAB_ROUTE_VALID m = s.rdi pgCAB F.CAB_ROUTE_VALID m ∧ t.rdi pgCAB F.CAB_ROUTE_LINK m = s.rdi pgCAB F.CAB_ROUTE_LINK m ∧
    t.rdi pgCAB F.CAB_ROUTE_FIXED m = s.rdi pgCAB F.CAB_ROUTE_FIXED m

theorem RouteSame.trans {m : Nat} {s t u : State} (h : RouteSame m s t) (k : RouteSame m t u) : RouteSame m s u :=
  ⟨k.1.trans h.1, k.2.1.trans h.2.1, k.2.2.trans h.2.2⟩

theorem routeSame_routeCleared_ne (l : Nat) (t : State) {m k : Nat} (h : m ≠ k) : RouteSame m t (routeCleared l t k) :=
  have hself := routeKey_ne h
  have happart := routeKey_apart k m
  ⟨rdi_routeCleared_ne l t hself.1 happart.1, rdi_routeCleared_ne l t happart.2.1 hself.2, rdi_routeCleared_ne l t happart.2.2.1 happart.2.2.2⟩

theorem routesCleared_fixed {l m : Nat} : ∀ (ks : List Nat) (t : State), t.rdi pgCAB F.CAB_ROUTE_FIXED m ≠ 0 → RouteSame m t (ks.foldl (routeCleared l) t)
  | [], _, _ => ⟨rfl, rfl, rfl⟩
  | k :: ks, t, h => by
    have hone : RouteSame m t (routeCleared l t k) := by
      by_cases hmk : m = k
      · subst hmk
        rw [routeCleared, if_neg fun hall => h hall.2.2]
        exact ⟨rfl, rfl, rfl⟩
      · exact routeSame_routeCleared_ne l t hmk
    exact hone.trans (routesCleared_fixed ks _ (hone.2.2.symm ▸ h))

theorem routesCleared_stays {l m : Nat} : ∀ (ks : List Nat) (t : State), t.rdi pgCAB F.CAB_ROUTE_VALID m = 0 →
    (ks.foldl (routeCleared l) t).rdi pgCAB F.CAB_ROUTE_VALID m = 0
  | [], _, h => h
  | k :: ks, t, h => by
    refine routesCleared_stays ks _ ?_
    by_cases hmk : m = k
    · subst hmk
      rw [routeCleared, if_neg fun hall => absurd (h.symm.trans hall.1) (by decide)]
      exact h
    · exact (routeSame_routeCleared_ne l t hmk).1.trans h

theorem routesCleared_gone {l m : Nat} : ∀ (ks : List Nat) (t : State), m ∈ ks → t.rdi pgCAB F.CAB_ROUTE_VALID m = 1 → t.rdi pgCAB F.CAB_ROUTE_LINK m = l →
    t.rdi pgCAB F.CAB_ROUTE_FIXED m = 0 → (ks.foldl (routeCleared l) t).rdi pgCAB F.CAB_ROUTE_VALID m = 0
  | [], _, hm, _, _, _ => absurd hm List.not_mem_nil
  | k :: ks, t, hm, hv, hl, hf => by
    by_cases hmk : m = k
    · subst hmk
      refine routesCleared_stays ks _ ?_
      rw [routeCleared, if_pos ⟨hv, hl, hf⟩, State.rdi_wri_ne _ _ (routeKey_apart m m).1, State.rdi_wri_self]
      rfl
    · obtain ⟨hv', hl', hf'⟩ := routeSame_routeCleared_ne l t hmk
      exact routesCleared_gone ks _ ((List.mem_cons.mp hm).resolve_left hmk) (hv'.trans hv) (hl'.trans hl) (hf'.trans hf)

theorem routesCleared_regs (l : Nat) (ks : List Nat) (t : State) : RegsOnly t (ks.foldl (routeCleared l) t) :=
  RegsOnly.foldl (fun t m => routeCleared_regs l t m) ks t

theorem rdi_routesCleared_ne {l pg i : Nat} {F0 : Field} {ks : List Nat} (hne : ∀ m ∈ ks, fkey pg F0 i ≠ fkey pgCAB F.CAB_ROUTE_VALID m ∧
    fkey pg F0 i ≠ fkey pgCAB F.CAB_ROUTE_LINK m) (t : State) : (ks.foldl (routeCleared l) t).rdi pg F0 i = t.rdi pg F0 i := by
  induction ks generalizing t with
  | nil => rfl
  | cons k ks ih =>
    obtain ⟨hv, hl⟩ := hne k List.mem_cons_self
    exact (ih (fun m hm => hne m (List.mem_cons_of_mem _ hm)) _).trans (rdi_routeCleared_ne l t hv hl)

/-- An entry off the routes of page CAB. -/
theorem offRoute {pg i : Nat} {F0 : Field} (h : (F0.off + F0.stride * i) * 32 + F0.lo < 0x200 * 32 ∨ pgCAB < pg) : ∀ m ∈ List.range 64,
    fkey pg F0 i ≠ fkey pgCAB F.CAB_ROUTE_VALID m ∧ fkey pg F0 i ≠ fkey pgCAB F.CAB_ROUTE_LINK m := by
  intro m hm
  have hlt := List.mem_range.mp hm
  constructor <;> simp only [fkey, F.CAB_ROUTE_VALID, F.CAB_ROUTE_LINK, pgCAB] at * <;> omega

/-! ### What it leaves -/

theorem Aborts.jobsLost {z s t : State} (h : Aborts z t) (l : Nat) : Aborts z (jobsLost s l t) := h.foldl fun _ _ _ ht => ht.abortJob ..

theorem spared_keg {l : Nat} (hl : l < 8) {F0 : Field} {i : Nat} (hF : 0x420 ≤ (F0.off + F0.stride * i) * 32 + F0.lo ∧
    (F0.off + F0.stride * i) * 32 + F0.lo < 131072 ∧ (F0.off + F0.stride * i) * 32 + F0.lo ≠ 0x128 * 32) : spared (fkey (pgKEG l) F0 i) = true := by
  simp only [spared, fkey, pgKEG, pgDIE]
  exact decide_eq_true (by omega)

theorem uncounted_keg {l off : Nat} (hl : l < 8) (hoff : off < 4096) (hne : off ≠ 0x04C) : uncounted (pgKEG l * 4096 + off) = true := by
  simp only [uncounted, pgKEG, pgDIE, pgCAB, msgCtr, pgINTAKE]
  exact decide_eq_true (by omega)

theorem spared_cab {F0 : Field} {i : Nat} (hF : 0x420 ≤ (F0.off + F0.stride * i) * 32 + F0.lo ∧ (F0.off + F0.stride * i) * 32 + F0.lo < 131072) :
    spared (fkey pgCAB F0 i) = true := by
  simp only [spared, fkey, pgCAB]
  exact decide_eq_true (by omega)

theorem spared_route {m : Nat} (hm : m < 64) : spared (fkey pgCAB F.CAB_ROUTE_VALID m) = true ∧ spared (fkey pgCAB F.CAB_ROUTE_LINK m) = true ∧
    spared (fkey pgCAB F.CAB_ROUTE_FIXED m) = true := by
  refine ⟨spared_cab ?_, spared_cab ?_, spared_cab ?_⟩ <;> simp only [F.CAB_ROUTE_VALID, F.CAB_ROUTE_LINK, F.CAB_ROUTE_FIXED] <;> omega

theorem Aborts.routeSame {s t : State} (h : Aborts s t) {m : Nat} (hm : m < 64) : RouteSame m s t :=
  have ⟨hv, hl, hf⟩ := spared_route hm
  ⟨h.regs _ _ _ hv, h.regs _ _ _ hl, h.regs _ _ _ hf⟩

theorem linkDownShown_quiet (s : State) (l : Nat) : Quiet s (linkDownShown s l) :=
  ((((((quiet_refl s).wri ..).wri ..).raise ..).count ..).wri ..)

/-- But for the links' own state nothing changes outside registers, counters and messages. -/
theorem linkDown_eq (s : State) (l : Nat) : ∃ v k, Quiet s v ∧ linkDown s l = { v with keg := { v.keg with links := k } } :=
  ⟨linkDownShown s l, _, linkDownShown_quiet s l, rfl⟩

theorem noAnswer_linkDown (s : State) (l : Nat) : NoAnswer s (linkDown s l) := by
  have h := noAnswer_raise ((s.wr (pgKEG l) F.KEG_STATE kegDOWN).wr (pgKEG l) F.KEG_LANES_OK 0) (pgKEG l) 1
  rw [linkDown, linkDownShown]
  generalize State.raise _ (pgKEG l) 1 = u at h ⊢
  exact h

/-- What the fall of a link that was UP leaves. -/
structure LinkFell (l : Nat) (s t : State) : Prop where
  down : t.kegState l = kegDOWN
  told : Raised t (pgKEG l) 1
  counted : t.ctr (pgKEG l) 0x05C = s.ctr (pgKEG l) 0x05C + 1
  routeGone : ∀ m, m < 64 → s.rdi pgCAB F.CAB_ROUTE_VALID m = 1 → s.rdi pgCAB F.CAB_ROUTE_LINK m = l → s.rdi pgCAB F.CAB_ROUTE_FIXED m = 0 →
    t.rdi pgCAB F.CAB_ROUTE_VALID m = 0
  routeFixed : ∀ m, m < 64 → s.rdi pgCAB F.CAB_ROUTE_FIXED m ≠ 0 → RouteSame m s t
  jobs : ∀ j x, s.kegJob j = some x → x.aborted = false → s.carries l x = true → t.kegJob j = some (jobGone x)
  indexValid : t.rd pgCAB F.CAB_INDEX_VALID = s.rd pgCAB F.CAB_INDEX_VALID
  silent : t.keg.silent = s.keg.silent
  retired : t.retired = s.retired
  variant : t.variant = s.variant
  bytes : SameBytes s t
  answers : NoAnswer s t

theorem cabKey_ne_keg {F0 F1 : Field} {i k l : Nat} (hF : (F0.off + F0.stride * i) * 32 + F0.lo < 131072) : fkey pgCAB F0 i ≠ fkey (pgKEG l) F1 k := by
  simp only [fkey, pgCAB, pgKEG, pgDIE]
  omega

theorem inCab_route {m : Nat} (hm : m < 64) : (F.CAB_ROUTE_VALID.off + F.CAB_ROUTE_VALID.stride * m) * 32 + F.CAB_ROUTE_VALID.lo < 131072 ∧
    (F.CAB_ROUTE_LINK.off + F.CAB_ROUTE_LINK.stride * m) * 32 + F.CAB_ROUTE_LINK.lo < 131072 ∧
    (F.CAB_ROUTE_FIXED.off + F.CAB_ROUTE_FIXED.stride * m) * 32 + F.CAB_ROUTE_FIXED.lo < 131072 := by
  refine ⟨?_, ?_, ?_⟩ <;> simp only [F.CAB_ROUTE_VALID, F.CAB_ROUTE_LINK, F.CAB_ROUTE_FIXED] <;> omega

theorem rdi_linkDown_cab (s : State) {l : Nat} {F0 : Field} {i : Nat} (hF : (F0.off + F0.stride * i) * 32 + F0.lo < 131072) :
    (linkDown s l).rdi pgCAB F0 i = s.rdi pgCAB F0 i := by
  have hne (F1 : Field) : fkey pgCAB F0 i ≠ fkey (pgKEG l) F1 0 := cabKey_ne_keg hF
  rw [linkDown, rdi_setLink, linkDownShown, State.bump, State.wr, State.rdi_wri_ne _ _ (hne _), State.rdi_count, State.rdi_raise_ne _ (hne _), State.wr, State.rdi_wri_ne _ _ (hne _),
    State.wr, State.rdi_wri_ne _ _ (hne _)]

theorem routeSame_linkDown (s : State) {l m : Nat} (hm : m < 64) : RouteSame m s (linkDown s l) :=
  have ⟨hv, hl, hf⟩ := inCab_route hm
  ⟨rdi_linkDown_cab s hv, rdi_linkDown_cab s hl, rdi_linkDown_cab s hf⟩

theorem onward_jobsLost {p : Nat} {z s t : State} (h : Onward p z t) (l : Nat) : Onward p z (jobsLost s l t) := h.foldl fun _ _ _ ht => ht.abortJob

/-- The page of a link that goes DOWN: its state, the counter of drops, the event. -/
theorem linkDown_spec (s : State) (l : Nat) : (linkDown s l).kegState l = kegDOWN ∧
    (linkDown s l).ctr (pgKEG l) 0x05C = s.ctr (pgKEG l) 0x05C + 1 ∧ Raised (linkDown s l) (pgKEG l) 1 := by
  have hshown : linkDownShown s l =
    ((((s.wr (pgKEG l) F.KEG_STATE kegDOWN).wr (pgKEG l) F.KEG_LANES_OK 0).raise (pgKEG l) 1).count (pgKEG l) 0x05C 1).bump (pgKEG l) F.KEG_SUSPECT 1 := rfl
  have hwritten : ((s.wr (pgKEG l) F.KEG_STATE kegDOWN).wr (pgKEG l) F.KEG_LANES_OK 0).rd (pgKEG l) F.KEG_STATE = kegDOWN := by
    rw [State.rd, State.wr, State.rdi_wri_ne _ _ (fkey_ne_on_page _ (by decide)), State.wr, State.rdi_wri_self]
    rfl
  have hctr (off : Nat) : ((s.wr (pgKEG l) F.KEG_STATE kegDOWN).wr (pgKEG l) F.KEG_LANES_OK 0).ctr (pgKEG l) off = s.ctr (pgKEG l) off := rfl
  generalize (s.wr (pgKEG l) F.KEG_STATE kegDOWN).wr (pgKEG l) F.KEG_LANES_OK 0 = u at *
  refine ⟨?_, ?_, ?_⟩
  · rw [State.kegState, State.rd, linkDown, rdi_setLink, hshown, State.bump, State.wr, State.rdi_wri_ne _ _ (fkey_ne_on_page _ (by decide)), State.rdi_count,
      State.rdi_raise_ne _ (fkey_ne_on_page _ (by decide))]
    exact hwritten
  · rw [linkDown, ctr_setLink, hshown, State.bump, State.wr, State.ctr_wri, State.ctr_count_self,
      ctr_raise u _ _ (by simp only [pgKEG, pgDIE, msgCtr, pgINTAKE]; omega), hctr]
  · have honward : Onward (pgKEG l) (u.raise (pgKEG l) 1) (linkDownShown s l) := by
      rw [hshown]
      exact ((Onward.refl _ _).countAbove (by simp only [pgKEG, pgDIE]; omega)).bump
    exact Onward.events honward.setLink 1 (by decide) (raised_raise u _ _ (by decide))

theorem linkFell_spec {s : State} {l : Nat} (hl : l < 8) (hup : s.kegState l = kegUP) : LinkFell l s (s.linkFell l) := by
  have hlost : Aborts (linkDown s l) (jobsLost s l (linkDown s l)) := (Aborts.refl _).jobsLost l
  have hroutes := routesCleared_regs l (List.range 64) (jobsLost s l (linkDown s l))
  have hshow := (Aborts.refl ((List.range 64).foldl (routeCleared l) (jobsLost s l (linkDown s l)))).showJobs
  obtain ⟨v, k, hquiet, hv⟩ := linkDown_eq s l
  have hanswer := noAnswer_linkDown s l
  have hroute {m : Nat} (hm : m < 64) := (routeSame_linkDown s hm).trans (hlost.routeSame hm)
  have hpage : pgCAB < pgKEG l := by simp only [pgCAB, pgKEG, pgDIE]; omega
  have hindex := (hlost.regs pgCAB F.CAB_INDEX_VALID 0 (by decide)).trans (rdi_linkDown_cab s (by decide))
  have hjobs {j : Nat} {x : Job} (hj : s.kegJob j = some x) (hlive : x.aborted = false) (hc : s.carries l x = true) :
      (jobsLost s l (linkDown s l)).kegJob j = some (jobGone x) := by
    refine kegJob_abortList hlive _ _ (mem_abortList hj hc) ?_
    rw [State.kegJob, hv, hquiet.keg]
    exact hj
  obtain ⟨hdown, hcount, htold⟩ := linkDown_spec s l
  rw [linkFell_of_up hup]
  refine ⟨?_, ?_, ?_, ?_, ?_, ?_, ?_, ?_, ?_, ?_, ?_, ?_⟩
  · exact (hshow.regs _ _ _ (spared_keg hl (by decide))).trans ((rdi_routesCleared_ne (offRoute (.inr hpage)) _).trans
      ((hlost.regs _ _ _ (spared_keg hl (by decide))).trans hdown))
  · have hv := Onward.events (onward_jobsLost (s := s) (Onward.refl (pgKEG l) _) l) 1 (by decide) htold
    have hw : Raised ((List.range 64).foldl (routeCleared l) (jobsLost s l (linkDown s l))) (pgKEG l) 1 := by
      rwa [Raised, State.rd, rdi_routesCleared_ne (offRoute (.inr hpage))]
    exact Onward.events (Onward.refl (pgKEG l) _).showJobs 1 (by decide) hw
  · rw [hshow.ctrs _ _ (uncounted_keg hl (by decide) (by decide)), State.ctr, hroutes.ctrs]
    exact (hlost.ctrs _ _ (uncounted_keg hl (by decide) (by decide))).trans hcount
  · intro m hm hv hlk hf
    obtain ⟨kv, kl, kf⟩ := hroute hm
    exact (hshow.regs _ _ _ (spared_route hm).1).trans
      (routesCleared_gone _ _ (List.mem_range.mpr hm) (kv.trans hv) (kl.trans hlk) (kf.trans hf))
  · intro m hm hf
    have k := hroute hm
    exact (k.trans (routesCleared_fixed _ _ (by rwa [k.2.2]))).trans (hshow.routeSame hm)
  · intro j x hj hlive hc
    rw [State.kegJob, (quiet_refl _).showJobs.keg, hroutes]
    exact hjobs hj hlive hc
  · exact (hshow.regs pgCAB F.CAB_INDEX_VALID 0 (by decide)).trans ((rdi_routesCleared_ne (offRoute (.inl (by decide))) _).trans hindex)
  · rw [hshow.silent, hroutes]
    refine hlost.silent.trans ?_
    rw [hv, hquiet.keg]
  · rw [hshow.retired, hroutes]
    refine hlost.retired.trans ?_
    rw [hv]
    exact hquiet.retired
  · rw [hshow.variant, hroutes]
    refine hlost.variant.trans ?_
    rw [hv]
    exact hquiet.variant
  · have hbytes : SameBytes s (linkDown s l) := by
      rw [hv]
      exact hquiet.sameBytes.trans .of_eq
    exact (hbytes.trans hlost.sameBytes).trans (hroutes.sameBytes.trans hshow.sameBytes)
  · refine hanswer.trans (hlost.noAnswer.trans (NoAnswer.trans ?_ hshow.noAnswer))
    rw [hroutes]
    exact ⟨rfl, rfl, rfl⟩

/-! ## Flits (R502) -/

theorem link_setLink_self (s : State) (l : Nat) (x : KegLink) : (s.setLink l x).link l = x := by
  rw [State.link, State.setLink, mget_mput_self]
  rfl

theorem linkIsUp_iff {s : State} {l : Nat} : s.linkIsUp l = true ↔ l < 2 * s.variant.dies ∧ s.kegState l = kegUP := by
  simp [State.linkIsUp]

/-- What a link notes of a flit whose CRC failed. -/
def flitFailed (s : State) (l : Nat) : State :=
  let s1 := ((s.count (pgKEG l) 0x058 1).count (pgKEG l) 0x054 1).setLink l { s.link l with fails := (s.link l).fails + 1 }
  if (s.link l).fails + 1 = 1 then s1.bump (pgKEG l) F.KEG_SUSPECT 1 else s1

/-- A failed flit is noted in the counters, the link and its suspected faults alone. -/
theorem flitFailed_spec (s : State) (l : Nat) : (flitFailed s l).link l = { s.link l with fails := (s.link l).fails + 1 } ∧
    (flitFailed s l).kegState l = s.kegState l ∧ (flitFailed s l).ctr (pgKEG l) 0x054 = s.ctr (pgKEG l) 0x054 + 1 ∧
    (flitFailed s l).ctr (pgKEG l) 0x058 = s.ctr (pgKEG l) 0x058 + 1 ∧ (flitFailed s l).ctr (pgKEG l) 0x05C = s.ctr (pgKEG l) 0x05C ∧
    SameBytes s (flitFailed s l) := by
  have hctr (off : Nat) : (flitFailed s l).ctr (pgKEG l) off = ((s.count (pgKEG l) 0x058 1).count (pgKEG l) 0x054 1).ctr (pgKEG l) off := by
    rw [flitFailed]
    split <;> rfl
  have hlink : (flitFailed s l).link l = { s.link l with fails := (s.link l).fails + 1 } := by
    rw [flitFailed]
    split <;> exact link_setLink_self ..
  have hstate : (flitFailed s l).kegState l = s.kegState l := by
    rw [flitFailed]
    split
    · exact State.rdi_wri_ne _ _ (fkey_ne_on_page _ (by decide))
    · rfl
  refine ⟨hlink, hstate, ?_, ?_, ?_, ?_⟩
  · rw [hctr, State.ctr_count_self, State.ctr_count_ne _ _ (by omega)]
  · rw [hctr, State.ctr_count_ne _ _ (by omega), State.ctr_count_self]
  · rw [hctr, State.ctr_count_ne _ _ (by omega), State.ctr_count_ne _ _ (by omega)]
  · rw [flitFailed]
    split <;> exact .of_eq

section
variable {link : Fin 8} {s : State} (hup : s.linkIsUp link.val = true)
include hup

theorem exec_flitFailed : exec (.kegFlitReceive link false) s =
    .next (if 8 ≤ (s.link link.val).fails + 1 then (flitFailed s link.val).linkFell link.val else flitFailed s link.val) := by
  change execKegFlitReceive link false s = _
  simp only [execKegFlitReceive, hup]
  rfl

theorem flit_received : ∃ t, exec (.kegFlitReceive link true) s = .next t ∧
    t.link link.val = { s.link link.val with lastFlit := s.now, fails := 0 } ∧
      t.ctr (pgKEG link.val) 0x050 = s.ctr (pgKEG link.val) 0x050 + 1 ∧ t.regs = s.regs ∧ SameBytes s t := by
  refine ⟨(s.setLink link.val { s.link link.val with lastFlit := s.now, fails := 0 }).count (pgKEG link.val) 0x050 1, ?_,
    link_setLink_self .., State.ctr_count_self _ (pgKEG link.val) 0x050 1, rfl, .of_eq⟩
  change execKegFlitReceive link true s = _
  simp only [execKegFlitReceive, hup]
  rfl

theorem flit_failed (hfew : (s.link link.val).fails + 1 < 8) : ∃ t, exec (.kegFlitReceive link false) s = .next t ∧
    (t.link link.val).fails = (s.link link.val).fails + 1 ∧ t.kegState link.val = s.kegState link.val ∧
      t.ctr (pgKEG link.val) 0x054 = s.ctr (pgKEG link.val) 0x054 + 1 ∧ t.ctr (pgKEG link.val) 0x058 = s.ctr (pgKEG link.val) 0x058 + 1 ∧
      SameBytes s t := by
  obtain ⟨hlink, hstate, h54, h58, -, hbytes⟩ := flitFailed_spec s link.val
  rw [exec_flitFailed hup, if_neg (by omega)]
  exact ⟨_, rfl, by rw [hlink], hstate, h54, h58, hbytes⟩

theorem flit_failed_eighth (hmany : 8 ≤ (s.link link.val).fails + 1) : ∃ t, exec (.kegFlitReceive link false) s = .next t ∧
    t.kegState link.val = kegDOWN ∧ Raised t (pgKEG link.val) 1 ∧ t.ctr (pgKEG link.val) 0x05C = s.ctr (pgKEG link.val) 0x05C + 1 := by
  obtain ⟨-, hstate, -, -, h5C, -⟩ := flitFailed_spec s link.val
  have hfell := linkFell_spec link.isLt (hstate.trans (linkIsUp_iff.mp hup).2)
  rw [exec_flitFailed hup, if_pos hmany]
  exact ⟨_, rfl, hfell.down, hfell.told, by rw [hfell.counted, h5C]⟩

theorem loss_timeout (hlate : (s.link link.val).lastFlit + clkUs * s.rd (pgKEG link.val) F.KEG_LOSS_US ≤ s.now) :
    exec (.kegLossTimeout link) s = .next (s.linkFell link.val) ∧ LinkFell link.val s (s.linkFell link.val) := by
  refine ⟨?_, linkFell_spec link.isLt (linkIsUp_iff.mp hup).2⟩
  change execKegLossTimeout link s = _
  rw [execKegLossTimeout, if_pos (by simp [hup, hlate])]

end

/-! ### The reachable set shown (R506, R511) -/

/-- The reachable set is `m`, and QUORUM follows it. -/
def reachShown (s : State) (m : Nat) : State := (s.setReach m).showQuorum

theorem reachSet_reachShown (s : State) (m : Nat) : (reachShown s m).reachSet = m % 2 ^ 64 := by
  rw [reachShown, reachSet_showQuorum, State.reachSet, State.setReach, State.rdi_wri_self, State.rdi_wri_ne _ _ (by decide), State.rdi_wri_self]
  simp only [F.CAB_REACH]
  omega

theorem nbit_reachShown (s : State) {m i : Nat} (hi : i < 64) : nbit (reachShown s m).reachSet i = nbit m i := by
  rw [reachSet_reachShown, nbit_mod _ hi]

theorem reachShown_regs (s : State) (m : Nat) : RegsOnly s (reachShown s m) := (((regsOnly_refl s).wri ..).wri ..).wr ..

theorem Quiet.reachShown {z s : State} (h : Quiet z s) (m : Nat) : Quiet z (reachShown s m) := (((h.wri ..).wri ..).wri ..)

/-- Entries apart from the reachable set and QUORUM. -/
def offReach (pg i : Nat) (F0 : Field) : Prop :=
  fkey pg F0 i ≠ fkey pgCAB F.CAB_REACH 0 ∧ fkey pg F0 i ≠ fkey pgCAB F.CAB_REACH 1 ∧ fkey pg F0 i ≠ fkey pgCAB F.CAB_QUORUM 0

theorem rdi_reachShown_ne (s : State) {m pg i : Nat} {F0 : Field} (h : offReach pg i F0) : (reachShown s m).rdi pg F0 i = s.rdi pg F0 i := by
  obtain ⟨h0, h1, h2⟩ := h
  rw [reachShown, rdi_showQuorum_ne _ h2, State.setReach, State.rdi_wri_ne _ _ h1, State.rdi_wri_ne _ _ h0]

theorem offReach_keg {l i : Nat} {F0 : Field} : offReach (pgKEG l) i F0 := by
  refine ⟨?_, ?_, ?_⟩ <;> simp only [fkey, pgKEG, pgDIE, pgCAB, F.CAB_REACH, F.CAB_QUORUM] <;> omega

theorem offReach_route (m : Nat) : offReach pgCAB m F.CAB_ROUTE_VALID ∧ offReach pgCAB m F.CAB_ROUTE_LINK ∧ offReach pgCAB m F.CAB_ROUTE_FIXED := by
  refine ⟨⟨?_, ?_, ?_⟩, ⟨?_, ?_, ?_⟩, ⟨?_, ?_, ?_⟩⟩ <;>
    simp only [fkey, pgCAB, F.CAB_REACH, F.CAB_QUORUM, F.CAB_ROUTE_VALID, F.CAB_ROUTE_LINK, F.CAB_ROUTE_FIXED] <;> omega

theorem offReach_raw : offReach pgCAB 0 F.EVT_RAW := ⟨by decide, by decide, by decide⟩

theorem nbit_setBit (v i j : Nat) : nbit (setBit v i) j = (nbit v j || decide (i = j)) := nbit_lor v i j

/-! ## Training (R504) -/

theorem trainStart_spec {link : Fin 8} {s : State} (hready : s.ready = true) (hmay : s.mayTrain link.val = true) (hdown : s.kegState link.val = kegDOWN)
    (hwait : (s.link link.val).downClk = 0 ∨ (s.link link.val).downClk + 1000 * clkMs ≤ s.now) :
    ∃ t, exec (.kegTrainStart link) s = .next t ∧ t.kegState link.val = kegTRAINING ∧ t = { s with regs := t.regs } ∧
      RegsBut s t [fkey (pgKEG link.val) F.KEG_STATE 0] := by
  refine ⟨s.wr (pgKEG link.val) F.KEG_STATE kegTRAINING, ?_, State.rdi_wri_self .., rfl, RegsBut.wr (regsBut_refl s) _ _ _⟩
  change execKegTrainStart link s = _
  rw [execKegTrainStart, if_pos]
  simp only [hready, hmay, hdown, Bool.and_eq_true, decide_eq_true hwait, beq_self_eq_true, and_self]

section
variable {link : Fin 8} {s : State} (hmay : s.mayTrain link.val = true) (htrain : s.kegState link.val = kegTRAINING)
include hmay htrain

theorem trainDone_none : ∃ t, exec (.kegTrainDone link none) s = .next t ∧ t.kegState link.val = kegDOWN ∧ (t.link link.val).downClk = s.now ∧
    RegsBut s t [fkey (pgKEG link.val) F.KEG_STATE 0] ∧ SameBytes s t := by
  have hexec : exec (.kegTrainDone link none) s =
      .next ((s.wr (pgKEG link.val) F.KEG_STATE kegDOWN).setLink link.val { s.link link.val with downClk := s.now }) := by
    change execKegTrainDone link none s = _
    simp only [execKegTrainDone, hmay, htrain]
    rfl
  refine ⟨_, hexec, State.rdi_wri_self .., by rw [link_setLink_self], RegsBut.wr (regsBut_refl s) _ _ _, .of_eq⟩

end

/-! ### The peer is there (R438, R504) -/

/-- The cabinet index is locked from the end of the first training on. -/
def indexSettled (s : State) : State := { s with keg := { s.keg with indexLocked := true } }

/-- The link's page shows the peer, and the link UP. -/
def peerShown (s : State) (l : Nat) (p : KegPeer) : State :=
  (List.range 4).foldl (fun t i => t.wri (pgKEG l) F.KEG_PEER_HASH i (p.hash / 2 ^ (32 * i)))
    ((((s.wr (pgKEG l) F.KEG_PEER_CAB p.cab.val).wr (pgKEG l) F.KEG_PEER_LINK p.link.val).wr (pgKEG l) F.KEG_LANES_OK p.lanes.val).wr (pgKEG l) F.KEG_STATE kegUP)

/-- The link has its secret, and the peer's index is confirmed. -/
def linkSecured (s u : State) (l m : Nat) : State :=
  let v := u.setLink l { lastFlit := s.now, secret := s.keg.secretNext }
  { v with keg := { v.keg with secretNext := s.keg.secretNext + 1, conf := mput v.keg.conf m s.now } }

/-- The route to the index is over the link, unless it is fixed (R505). -/
def routeLearned (s : State) (l m : Nat) : State :=
  if s.rdi pgCAB F.CAB_ROUTE_FIXED m = 1 then s else (s.wri pgCAB F.CAB_ROUTE_VALID m 1).wri pgCAB F.CAB_ROUTE_LINK m l

/-- The index is reachable, and the module's own. -/
def indexReached (s : State) (m own : Nat) : State := reachShown s (setBit (setBit s.reachSet m) own)

/-- The link is UP with its peer. -/
def linkUpState (s : State) (l : Nat) (p : KegPeer) : State :=
  ((indexReached (routeLearned (linkSecured s (peerShown (indexSettled s) l p) l p.cab.val) l p.cab.val) p.cab.val s.ownIndex).raise (pgKEG l) 0).showJobs

theorem rdi_foldl_ne {α : Type} {g : State → α → State} {pg i : Nat} {F0 : Field} {xs : List α}
    (hg : ∀ x ∈ xs, ∀ t, (g t x).rdi pg F0 i = t.rdi pg F0 i) (s : State) : (xs.foldl g s).rdi pg F0 i = s.rdi pg F0 i := by
  induction xs generalizing s with
  | nil => rfl
  | cons x xs ih => exact (ih (fun y hy => hg y (List.mem_cons_of_mem _ hy)) _).trans (hg x List.mem_cons_self s)

theorem peerShown_regs (s : State) (l : Nat) (p : KegPeer) : RegsOnly s (peerShown s l p) :=
  ((((regsOnly_refl s).wr ..).wr ..).wr ..).wr .. |>.trans (RegsOnly.foldl (fun t _ => (regsOnly_refl t).wri ..) _ _)

theorem peerShown_fields (s : State) (l : Nat) (p : KegPeer) : (peerShown s l p).kegState l = kegUP ∧
    (peerShown s l p).rd (pgKEG l) F.KEG_PEER_CAB = p.cab.val ∧ (peerShown s l p).rd (pgKEG l) F.KEG_PEER_LINK = p.link.val ∧
    (peerShown s l p).rd (pgKEG l) F.KEG_LANES_OK = p.lanes.val := by
  have hhash (u : State) (F0 : Field) (h : F0.off * 32 + F0.lo < 0x104 * 32 ∨ 0x114 * 32 ≤ F0.off * 32 + F0.lo) :
      ((List.range 4).foldl (fun (t : State) i => t.wri (pgKEG l) F.KEG_PEER_HASH i (p.hash / 2 ^ (32 * i))) u).rdi (pgKEG l) F0 0 = u.rdi (pgKEG l) F0 0 := by
    refine rdi_foldl_ne (fun i hi t => State.rdi_wri_ne _ _ ?_) u
    have := List.mem_range.mp hi
    simp only [fkey, F.KEG_PEER_HASH]
    omega
  refine ⟨?_, ?_, ?_, ?_⟩
  · rw [State.kegState, State.rd, peerShown, hhash _ _ (by decide), State.wr, State.rdi_wri_self]
    rfl
  · rw [State.rd, peerShown, hhash _ _ (by decide), State.wr, State.rdi_wri_ne _ _ (fkey_ne_on_page _ (by decide)), State.wr,
      State.rdi_wri_ne _ _ (fkey_ne_on_page _ (by decide)), State.wr, State.rdi_wri_ne _ _ (fkey_ne_on_page _ (by decide)), State.wr, State.rdi_wri_self]
    exact Nat.mod_eq_of_lt p.cab.isLt
  · rw [State.rd, peerShown, hhash _ _ (by decide), State.wr, State.rdi_wri_ne _ _ (fkey_ne_on_page _ (by decide)), State.wr,
      State.rdi_wri_ne _ _ (fkey_ne_on_page _ (by decide)), State.wr, State.rdi_wri_self]
    exact Nat.mod_eq_of_lt p.link.isLt
  · rw [State.rd, peerShown, hhash _ _ (by decide), State.wr, State.rdi_wri_ne _ _ (fkey_ne_on_page _ (by decide)), State.wr, State.rdi_wri_self]
    exact Nat.mod_eq_of_lt p.lanes.isLt

theorem rdi_peerShown_cab (s : State) (l : Nat) (p : KegPeer) {F0 : Field} {i : Nat} (hF : (F0.off + F0.stride * i) * 32 + F0.lo < 131072) :
    (peerShown s l p).rdi pgCAB F0 i = s.rdi pgCAB F0 i := by
  rw [peerShown, rdi_foldl_ne fun k _ t => State.rdi_wri_ne _ _ (cabKey_ne_keg hF)]
  simp only [State.wr]
  rw [State.rdi_wri_ne _ _ (cabKey_ne_keg hF), State.rdi_wri_ne _ _ (cabKey_ne_keg hF), State.rdi_wri_ne _ _ (cabKey_ne_keg hF),
    State.rdi_wri_ne _ _ (cabKey_ne_keg hF)]

theorem linkSecured_spec (s u : State) (l m : Nat) : (linkSecured s u l m).link l = { lastFlit := s.now, secret := s.keg.secretNext } ∧
    (linkSecured s u l m).regs = u.regs ∧ (linkSecured s u l m).variant = u.variant ∧
    (linkSecured s u l m).keg.indexLocked = u.keg.indexLocked ∧ SameBytes u (linkSecured s u l m) :=
  ⟨link_setLink_self u l { lastFlit := s.now, secret := s.keg.secretNext }, rfl, rfl, rfl, .of_eq⟩

theorem routeLearned_spec (s : State) {l m : Nat} (hl : l < 8) : RegsOnly s (routeLearned s l m) ∧
    (s.rdi pgCAB F.CAB_ROUTE_FIXED m ≠ 1 → (routeLearned s l m).rdi pgCAB F.CAB_ROUTE_VALID m = 1 ∧
      (routeLearned s l m).rdi pgCAB F.CAB_ROUTE_LINK m = l) ∧
    ∀ F0 : Field, m < 64 → (routeLearned s l m).rdi (pgKEG l) F0 0 = s.rdi (pgKEG l) F0 0 := by
  rw [routeLearned]
  split
  · next hfix => exact ⟨regsOnly_refl s, fun h => absurd hfix h, fun _ _ => rfl⟩
  · refine ⟨((regsOnly_refl s).wri ..).wri .., fun _ => ⟨?_, ?_⟩, fun F0 hm => ?_⟩
    · rw [State.rdi_wri_ne _ _ (routeKey_apart m m).1, State.rdi_wri_self]
      rfl
    · rw [State.rdi_wri_self]
      exact Nat.mod_eq_of_lt hl
    · obtain ⟨hv, hlk, -⟩ := inCab_route hm
      rw [State.rdi_wri_ne _ _ (cabKey_ne_keg hlk).symm, State.rdi_wri_ne _ _ (cabKey_ne_keg hv).symm]

/-- What a link that has come up with its peer leaves. -/
structure LinkUp (l : Nat) (p : KegPeer) (s t : State) : Prop where
  up : t.kegState l = kegUP
  told : Raised t (pgKEG l) 0
  peer : t.rd (pgKEG l) F.KEG_PEER_CAB = p.cab.val ∧ t.rd (pgKEG l) F.KEG_PEER_LINK = p.link.val ∧ t.rd (pgKEG l) F.KEG_LANES_OK = p.lanes.val
  reach : nbit t.reachSet p.cab.val = true
  flit : (t.link l).lastFlit = s.now
  route : s.rdi pgCAB F.CAB_ROUTE_FIXED p.cab.val ≠ 1 → t.route p.cab.val = some l
  locked : t.keg.indexLocked = true
  bytes : SameBytes s t

theorem linkUpState_spec {s : State} {l : Nat} (hl : l < 8) (hfit : l < 2 * s.variant.dies) (p : KegPeer) : LinkUp l p s (linkUpState s l p) := by
  have hm := p.cab.isLt
  have hpeer := peerShown_regs (indexSettled s) l p
  obtain ⟨hstate, hcab, hlk, hlanes⟩ := peerShown_fields (indexSettled s) l p
  have hpeerCab : (peerShown (indexSettled s) l p).rdi pgCAB F.CAB_ROUTE_FIXED p.cab.val = s.rdi pgCAB F.CAB_ROUTE_FIXED p.cab.val :=
    rdi_peerShown_cab (indexSettled s) l p (inCab_route hm).2.2
  have hlock : (peerShown (indexSettled s) l p).keg.indexLocked = true := by rw [hpeer]; rfl
  have hvar : (peerShown (indexSettled s) l p).variant = s.variant := by rw [hpeer]; rfl
  have hbytes : SameBytes s (peerShown (indexSettled s) l p) := (SameBytes.of_eq : SameBytes s (indexSettled s)).trans hpeer.sameBytes
  rw [linkUpState]
  generalize peerShown (indexSettled s) l p = a at *
  obtain ⟨hlink, hregs, hvar', hlock', hbytes'⟩ := linkSecured_spec s a l p.cab.val
  generalize linkSecured s a l p.cab.val = b at *
  obtain ⟨hlearned, hroute, hkeg⟩ := routeLearned_spec b (m := p.cab.val) hl
  have hb (pg i : Nat) (F0 : Field) : b.rdi pg F0 i = a.rdi pg F0 i := State.rdi_congr hregs hvar' ..
  generalize routeLearned b l p.cab.val = c at *
  have hquiet : Quiet c ((indexReached c p.cab.val s.ownIndex).raise (pgKEG l) 0).showJobs := ((Quiet.reachShown (quiet_refl c) _).raise ..).showJobs
  have hshow := (Aborts.refl ((indexReached c p.cab.val s.ownIndex).raise (pgKEG l) 0)).showJobs
  have hpage {F0 : Field} (hF : 0x420 ≤ (F0.off + F0.stride * 0) * 32 + F0.lo ∧ (F0.off + F0.stride * 0) * 32 + F0.lo < 131072 ∧
      (F0.off + F0.stride * 0) * 32 + F0.lo ≠ 0x128 * 32) : (((indexReached c p.cab.val s.ownIndex).raise (pgKEG l) 0).showJobs).rd (pgKEG l) F0 = a.rd (pgKEG l) F0 := by
    rw [State.rd, hshow.regs _ _ _ (spared_keg hl hF), State.rdi_raise_ne _ (fkey_ne_on_page _ (by simp only [F.EVT_RAW]; omega)), indexReached,
      rdi_reachShown_ne _ offReach_keg, hkeg F0 hm, hb]
  have hcabKey {F0 : Field} {i : Nat} (hF : 0x420 ≤ (F0.off + F0.stride * i) * 32 + F0.lo ∧ (F0.off + F0.stride * i) * 32 + F0.lo < 131072) :
      (((indexReached c p.cab.val s.ownIndex).raise (pgKEG l) 0).showJobs).rdi pgCAB F0 i = (indexReached c p.cab.val s.ownIndex).rdi pgCAB F0 i := by
    rw [hshow.regs _ _ _ (spared_cab hF), State.rdi_raise_ne _ (cabKey_ne_keg hF.2)]
  have hstate' := (hpage (F0 := F.KEG_STATE) (by decide)).trans hstate
  have hvarT : (((indexReached c p.cab.val s.ownIndex).raise (pgKEG l) 0).showJobs).variant = s.variant :=
    hquiet.variant.trans ((by rw [hlearned] : c.variant = b.variant).trans (hvar'.trans hvar))
  have hkegT : (((indexReached c p.cab.val s.ownIndex).raise (pgKEG l) 0).showJobs).keg = b.keg := hquiet.keg.trans (by rw [hlearned])
  refine ⟨hstate', ?_, ⟨(hpage (by decide)).trans hcab, (hpage (by decide)).trans hlk, (hpage (by decide)).trans hlanes⟩, ?_, ?_, ?_, ?_, ?_⟩
  · exact Onward.events (Onward.refl (pgKEG l) _).showJobs 0 (by decide) (raised_raise _ _ _ (by decide))
  · have hsame : (((indexReached c p.cab.val s.ownIndex).raise (pgKEG l) 0).showJobs).reachSet = (indexReached c p.cab.val s.ownIndex).reachSet := by
      rw [State.reachSet, hcabKey (by decide), hcabKey (by decide), State.reachSet]
    rw [hsame, indexReached, nbit_reachShown _ hm, nbit_setBit, nbit_setBit]
    simp
  · rw [State.link, hkegT]
    exact congrArg KegLink.lastFlit hlink
  · intro hfree
    obtain ⟨hv, hlk'⟩ := hroute (by rwa [hb, hpeerCab])
    have hv' : (((indexReached c p.cab.val s.ownIndex).raise (pgKEG l) 0).showJobs).rdi pgCAB F.CAB_ROUTE_VALID p.cab.val = 1 := by
      rw [hcabKey (by simp only [F.CAB_ROUTE_VALID]; omega), indexReached, rdi_reachShown_ne _ (offReach_route _).1, hv]
    have hl' : (((indexReached c p.cab.val s.ownIndex).raise (pgKEG l) 0).showJobs).rdi pgCAB F.CAB_ROUTE_LINK p.cab.val = l := by
      rw [hcabKey (by simp only [F.CAB_ROUTE_LINK]; omega), indexReached, rdi_reachShown_ne _ (offReach_route _).2.1, hlk']
    rw [State.route, hl', if_pos ⟨hm, hv', linkIsUp_iff.mpr ⟨by rwa [hvarT], hstate'⟩⟩]
  · rw [hkegT, hlock', hlock]
  · exact (hbytes.trans hbytes').trans (hlearned.sameBytes.trans hquiet.sameBytes)

section
variable {link : Fin 8} {s : State} (hmay : s.mayTrain link.val = true) (htrain : s.kegState link.val = kegTRAINING) (p : KegPeer)
include hmay htrain

theorem exec_trainDone : exec (.kegTrainDone link (some p)) s =
    .next (if !p.sigOk || p.owner != s.gau.ownerKey || p.cab.val == s.ownIndex || s.twin link.val p then
      ((indexSettled s).wr (pgKEG link.val) F.KEG_STATE kegREFUSED).raise (pgKEG link.val) 2
    else linkUpState s link.val p) := by
  change execKegTrainDone link (some p) s = _
  simp only [execKegTrainDone, hmay, htrain]
  rfl

theorem trainDone_refused (hno : p.sigOk = false ∨ p.owner ≠ s.gau.ownerKey ∨ p.cab.val = s.ownIndex ∨ s.twin link.val p = true) :
    ∃ t, exec (.kegTrainDone link (some p)) s = .next t ∧ t.kegState link.val = kegREFUSED ∧ Raised t (pgKEG link.val) 2 ∧ SameBytes s t := by
  rw [exec_trainDone hmay htrain, if_pos]
  · refine ⟨_, rfl, ?_, raised_raise _ _ _ (by decide), ?_⟩
    · rw [State.kegState, State.rd, State.rdi_raise_ne _ (fkey_ne_on_page _ (by decide)), State.wr, State.rdi_wri_self]
      rfl
    · exact (SameBytes.of_eq : SameBytes s (indexSettled s)).trans (((quiet_refl (indexSettled s)).wri ..).raise ..).sameBytes
  · simp only [Bool.or_eq_true, Bool.not_eq_true', bne_iff_ne, beq_iff_eq]
    tauto

theorem trainDone_up (hsig : p.sigOk = true) (howner : p.owner = s.gau.ownerKey) (hcab : p.cab.val ≠ s.ownIndex) (htwin : s.twin link.val p = false) :
    exec (.kegTrainDone link (some p)) s = .next (linkUpState s link.val p) ∧ LinkUp link.val p s (linkUpState s link.val p) := by
  refine ⟨?_, linkUpState_spec link.isLt ?_ p⟩
  · rw [exec_trainDone hmay htrain, if_neg]
    simp [hsig, howner, hcab, htwin]
  · simp only [State.mayTrain, Bool.and_eq_true, decide_eq_true_eq] at hmay
    exact hmay.1.1.1.1

end

/-! ## KEG_RETRAIN and ROUTE_SET -/

theorem dies_le (v : Variant) : v.dies ≤ 4 := by cases v <;> decide

theorem LinkFell.mayTrain {l : Nat} {s t : State} (h : LinkFell l s t) : t.mayTrain l = s.mayTrain l := by
  simp only [State.mayTrain, State.hasUnit, State.isRetired, State.on, h.retired, h.variant, h.silent]
  rw [show t.rdi pgCAB F.CAB_INDEX_VALID 0 = _ from h.indexValid]

/-- A link made to fall, whatever its state: it may train as before. -/
theorem linkFell_kept {s : State} {l : Nat} (hl : l < 8) : (s.linkFell l).mayTrain l = s.mayTrain l ∧ NoAnswer s (s.linkFell l) ∧ SameBytes s (s.linkFell l) := by
  by_cases hup : s.kegState l = kegUP
  · have h := linkFell_spec hl hup
    exact ⟨h.mayTrain, h.answers, h.bytes⟩
  · rw [linkFell_of_not_up hup]
    exact ⟨rfl, noAnswer_refl s, .of_eq⟩

section
variable {fn : Fin 32} {s : State}

theorem retrain_done {link : Nat} (h : Performs s fn.val 0x62) (tag : Nat) (hfit : link < 2 * s.variant.dies) (hkeg : s.hasUnit (pgKEG link) = true)
    (hdie : s.hasUnit (pgDIE (link / 2)) = true) : ∃ t, exec (.kegRetrain fn tag link) s = .next t ∧ Answered s t fn.val tag 0 0 ∧
      t.kegState link = (if s.mayTrain link = true then kegTRAINING else kegDOWN) ∧ SameBytes s t := by
  have hl : link < 8 := by
    have := dies_le s.variant
    omega
  obtain ⟨hmay, hanswer, hbytes⟩ := linkFell_kept (s := untake s fn.val tag 0x62) hl
  have hexec : exec (.kegRetrain fn tag link) s = .next ((((untake s fn.val tag 0x62).linkFell link).wr (pgKEG link) F.KEG_STATE
      (if ((untake s fn.val tag 0x62).linkFell link).mayTrain link then kegTRAINING else kegDOWN)).respond fn.val tag 0 0) := by
    change execKegRetrain fn tag link s = _
    rw [execKegRetrain, h.command, if_neg]
    rintro (hno | hno | hno)
    · exact absurd hfit (by exact Nat.not_lt.mpr hno)
    · exact absurd (hkeg.symm.trans hno) (by decide)
    · exact absurd (hdie.symm.trans hno) (by decide)
  refine ⟨_, hexec, answered_respond (s := s) hanswer.1 .., ?_, ?_⟩
  · rw [hmay]
    change State.rdi (State.wr _ _ _ _) _ _ _ = _
    rw [State.wr, State.rdi_wri_self]
    change (if s.mayTrain link = true then kegTRAINING else kegDOWN) % 2 ^ 3 = _
    split <;> rfl
  · exact (SameBytes.of_eq : SameBytes s (untake s fn.val tag 0x62)).trans (hbytes.trans .of_eq)

theorem retrain_noUnit {link : Nat} (h : Performs s fn.val 0x62) (tag : Nat) (hfit : 2 * s.variant.dies ≤ link) :
    ∃ t, exec (.kegRetrain fn tag link) s = .next t ∧ Answered s t fn.val tag stNOUNIT 0 ∧ t.regs = s.regs := by
  refine ⟨(untake s fn.val tag 0x62).respond fn.val tag stNOUNIT 0, ?_, answered_respond rfl .., rfl⟩
  change execKegRetrain fn tag link s = _
  rw [execKegRetrain, h.command, if_pos (.inl hfit)]

/-- The route of an index is fixed: to a link, or to none. -/
def routeFixed (s : State) (idx : Nat) (link : Option Nat) : State :=
  ((s.wri pgCAB F.CAB_ROUTE_FIXED idx 1).wri pgCAB F.CAB_ROUTE_VALID idx (boolNat link.isSome)).wri pgCAB F.CAB_ROUTE_LINK idx (link.getD 0)

theorem exec_routeSet {idx : Nat} {link : Option Nat} (h : Performs s fn.val 0x61) (tag : Nat) (hidx : idx < 64)
    (hlink : ∀ l, link = some l → l < 2 * s.variant.dies) : exec (.routeSet fn tag idx link) s =
      .next ((routeFixed (untake s fn.val tag 0x61) idx link).showJobs.respond fn.val tag 0 0) := by
  change execRouteSet fn tag idx link s = _
  rw [execRouteSet, h.command, if_neg]
  · rfl
  · rintro (hno | hno)
    · omega
    · cases link with
      | none => exact nomatch hno
      | some l => exact absurd (hlink l rfl) (Nat.not_lt.mpr (of_decide_eq_true hno))

theorem routeFixed_regs (s : State) (idx : Nat) (link : Option Nat) : RegsOnly s (routeFixed s idx link) :=
  (((regsOnly_refl s).wri ..).wri ..).wri ..

theorem routeFixed_fields (s : State) (idx : Nat) (link : Option Nat) : (routeFixed s idx link).rdi pgCAB F.CAB_ROUTE_FIXED idx = 1 ∧
    (routeFixed s idx link).rdi pgCAB F.CAB_ROUTE_VALID idx = boolNat link.isSome ∧
    (routeFixed s idx link).rdi pgCAB F.CAB_ROUTE_LINK idx = link.getD 0 % 2 ^ 3 ∧
    ∀ m, m ≠ idx → (routeFixed s idx link).rdi pgCAB F.CAB_ROUTE_VALID m = s.rdi pgCAB F.CAB_ROUTE_VALID m ∧
      (routeFixed s idx link).rdi pgCAB F.CAB_ROUTE_LINK m = s.rdi pgCAB F.CAB_ROUTE_LINK m := by
  have hself (k : Nat) := routeKey_apart idx k
  have hback (k : Nat) := routeKey_apart k idx
  refine ⟨?_, ?_, ?_, fun m hm => ?_⟩
  · rw [routeFixed, State.rdi_wri_ne _ _ (hself idx).2.2.2, State.rdi_wri_ne _ _ (hself idx).2.2.1, State.rdi_wri_self]
    rfl
  · rw [routeFixed, State.rdi_wri_ne _ _ (hself idx).1, State.rdi_wri_self]
    cases link <;> rfl
  · rw [routeFixed, State.rdi_wri_self]
    rfl
  · obtain ⟨hv, hl⟩ := routeKey_ne hm
    constructor
    · rw [routeFixed, State.rdi_wri_ne _ _ (hself m).1, State.rdi_wri_ne _ _ hv, State.rdi_wri_ne _ _ (hback m).2.2.1.symm]
    · rw [routeFixed, State.rdi_wri_ne _ _ hl, State.rdi_wri_ne _ _ (hself m).2.1, State.rdi_wri_ne _ _ (hback m).2.2.2.symm]

theorem routeSame_showJobs (s : State) {m : Nat} (hm : m < 64) : RouteSame m s s.showJobs := ((Aborts.refl s).showJobs).routeSame hm

theorem routeSet_link {idx l : Nat} (h : Performs s fn.val 0x61) (tag : Nat) (hidx : idx < 64) (hl : l < 2 * s.variant.dies) :
    ∃ t, exec (.routeSet fn tag idx (some l)) s = .next t ∧ Answered s t fn.val tag 0 0 ∧ t.rdi pgCAB F.CAB_ROUTE_FIXED idx = 1 ∧
      t.rdi pgCAB F.CAB_ROUTE_VALID idx = 1 ∧ t.rdi pgCAB F.CAB_ROUTE_LINK idx = l ∧
      (∀ m, m < 64 → m ≠ idx → t.rdi pgCAB F.CAB_ROUTE_VALID m = s.rdi pgCAB F.CAB_ROUTE_VALID m ∧
        t.rdi pgCAB F.CAB_ROUTE_LINK m = s.rdi pgCAB F.CAB_ROUTE_LINK m) ∧ SameBytes s t := by
  have hregs := routeFixed_regs (untake s fn.val tag 0x61) idx (some l)
  obtain ⟨hfixed, hvalid, hlink, hother⟩ := routeFixed_fields (untake s fn.val tag 0x61) idx (some l)
  have hshow := (quiet_refl (routeFixed (untake s fn.val tag 0x61) idx (some l))).showJobs
  have hanswer : (routeFixed (untake s fn.val tag 0x61) idx (some l)).showJobs.host.resps = s.host.resps :=
    ((Aborts.refl _).showJobs.noAnswer.1).trans hregs.resps
  obtain ⟨kv, kl, kf⟩ := routeSame_showJobs (routeFixed (untake s fn.val tag 0x61) idx (some l)) hidx
  refine ⟨_, exec_routeSet h tag hidx fun _ heq => by rwa [← Option.some.inj heq], answered_respond hanswer .., kf.trans hfixed, kv.trans hvalid,
    kl.trans (hlink.trans (Nat.mod_eq_of_lt ?_)), fun m hm hne => ?_, (SameBytes.of_eq : SameBytes s _).trans (hregs.sameBytes.trans hshow.sameBytes)⟩
  · have := dies_le s.variant
    change l < 2 ^ 3
    omega
  · obtain ⟨jv, jl, -⟩ := routeSame_showJobs (routeFixed (untake s fn.val tag 0x61) idx (some l)) hm
    exact ⟨jv.trans (hother m hne).1, jl.trans (hother m hne).2⟩

theorem routeSet_none {idx : Nat} (h : Performs s fn.val 0x61) (tag : Nat) (hidx : idx < 64) :
    ∃ t, exec (.routeSet fn tag idx none) s = .next t ∧ Answered s t fn.val tag 0 0 ∧ t.rdi pgCAB F.CAB_ROUTE_FIXED idx = 1 ∧
      t.rdi pgCAB F.CAB_ROUTE_VALID idx = 0 ∧ t.route idx = none := by
  have hregs := routeFixed_regs (untake s fn.val tag 0x61) idx none
  obtain ⟨hfixed, hvalid, -, -⟩ := routeFixed_fields (untake s fn.val tag 0x61) idx none
  have hanswer : (routeFixed (untake s fn.val tag 0x61) idx none).showJobs.host.resps = s.host.resps :=
    ((Aborts.refl _).showJobs.noAnswer.1).trans hregs.resps
  obtain ⟨kv, -, kf⟩ := routeSame_showJobs (routeFixed (untake s fn.val tag 0x61) idx none) hidx
  have hgone := kv.trans hvalid
  have hexec := exec_routeSet (link := none) h tag hidx fun _ heq => nomatch heq
  refine ⟨_, hexec, answered_respond hanswer .., kf.trans hfixed, hgone, ?_⟩
  rw [State.route, if_neg]
  exact fun hall => absurd (hgone.symm.trans hall.2.1) (by decide)

end

/-- Settles O52: a link that falls is `linkFell_spec`, one that comes up `linkUpState_spec`; the rest are the lemmas of their commands. -/
theorem kegLinks : Obligations.KegLinks := by
  unfold Obligations.KegLinks
  refine ⟨fun link s hup => ⟨flit_received hup, flit_failed hup, flit_failed_eighth hup, fun hlate => ?_⟩,
    fun link s hready hmay hdown hwait => trainStart_spec hready hmay hdown hwait,
    fun link s hmay htrain => ⟨trainDone_none hmay htrain, fun p => ⟨trainDone_refused hmay htrain p, fun hsig howner hcab htwin => ?_⟩⟩,
    fun fn tag link s h => ⟨retrain_done h tag, retrain_noUnit h tag⟩, fun fn tag idx s h hidx => ⟨fun l => routeSet_link h tag hidx, routeSet_none h tag hidx⟩⟩
  · obtain ⟨hexec, hfell⟩ := loss_timeout hup hlate
    refine ⟨_, hexec, hfell.down, hfell.told, hfell.counted, fun m hm hv hl => ⟨hfell.routeGone m hm hv hl, fun hf => ?_⟩, hfell.jobs, hfell.bytes⟩
    exact (hfell.routeFixed m hm (by rw [hf]; decide)).1.trans hv
  · obtain ⟨hexec, hu⟩ := trainDone_up hmay htrain p hsig howner hcab htwin
    obtain ⟨hpeer, hlink, hlanes⟩ := hu.peer
    exact ⟨_, hexec, hu.up, hu.told, hpeer, hlink, hlanes, hu.reach, hu.flit, hu.route, hu.locked, hu.bytes⟩

end Sys2Proof
end

section
/-! PROOF. O53: beacons, the reachable set, quorum and epochs (R506, R511–R514, R517). -/

namespace Sys2Proof

set_option Elab.async false

open Machine

/-! ## Fences and epochs (R511–R514) -/

/-- What no fence and no epoch record touches: the reachable set, the links, when indexes were confirmed, and the count of beacons. -/
structure BeaconKept (s t : State) : Prop where
  reach : t.reachSet = s.reachSet
  links : ∀ l, t.link l = s.link l
  conf : t.keg.conf = s.keg.conf
  beacons : t.ctr pgCAB 0x05C = s.ctr pgCAB 0x05C
  bytes : SameBytes s t
  answers : NoAnswer s t

section
variable {s t u : State}

theorem BeaconKept.trans (h : BeaconKept s t) (k : BeaconKept t u) : BeaconKept s u :=
  ⟨k.reach.trans h.reach, fun l => (k.links l).trans (h.links l), k.conf.trans h.conf, k.beacons.trans h.beacons, h.bytes.trans k.bytes,
    h.answers.trans k.answers⟩

theorem BeaconKept.refl (s : State) : BeaconKept s s := ⟨rfl, fun _ => rfl, rfl, rfl, .of_eq, noAnswer_refl s⟩

theorem Aborts.beaconKept (h : Aborts s t) : BeaconKept s t :=
  ⟨by rw [State.reachSet, h.regs _ _ _ (by decide), h.regs _ _ _ (by decide), State.reachSet], h.link, h.conf, h.ctrs _ _ (by decide), h.sameBytes, h.noAnswer⟩

/-- What changes registers, counters and messages alone, away from the reachable set and the count of beacons. -/
theorem Quiet.beaconKept (h : Quiet s t) (hn : NoAnswer s t) (hr : ∀ i, i < 2 → t.rdi pgCAB F.CAB_REACH i = s.rdi pgCAB F.CAB_REACH i)
    (hc : t.ctr pgCAB 0x05C = s.ctr pgCAB 0x05C) : BeaconKept s t :=
  ⟨by rw [State.reachSet, hr 0 (by decide), hr 1 (by decide), State.reachSet], fun l => by rw [State.link, h.keg, State.link], by rw [h.keg], hc,
    h.sameBytes, hn⟩

theorem BeaconKept.wr {i : Nat} {F0 : Field} (h : BeaconKept s t) (v : Nat) (hF : ∀ k, k < 2 → fkey pgCAB F.CAB_REACH k ≠ fkey pgCAB F0 i) :
    BeaconKept s (t.wri pgCAB F0 i v) :=
  h.trans (Quiet.beaconKept ((quiet_refl t).wri ..) ⟨rfl, rfl, rfl⟩ (fun k hk => State.rdi_wri_ne _ _ (hF k hk)) rfl)

theorem BeaconKept.raise (h : BeaconKept s t) (bit : Nat) : BeaconKept s (t.raise pgCAB bit) :=
  h.trans (Quiet.beaconKept ((quiet_refl t).raise ..) (noAnswer_raise ..) (fun k hk => State.rdi_raise_ne _ (by
    obtain rfl | rfl : k = 0 ∨ k = 1 := by omega
    all_goals decide)) (ctr_raise _ _ _ (by decide)))

theorem BeaconKept.count {off n : Nat} (h : BeaconKept s t) (hoff : pgCAB * 4096 + 0x05C ≠ pgCAB * 4096 + off) : BeaconKept s (t.count pgCAB off n) :=
  h.trans (Quiet.beaconKept ((quiet_refl t).count ..) ⟨rfl, rfl, rfl⟩ (fun _ _ => rfl) (State.ctr_count_ne _ _ hoff))

end

/-- The entries of the reachable set against a field of the page. -/
theorem reachKey_ne {F0 : Field} {i : Nat} (h : (F0.off + F0.stride * i) * 32 + F0.lo < 0x114 * 32) :
    ∀ k, k < 2 → fkey pgCAB F.CAB_REACH k ≠ fkey pgCAB F0 i := by
  intro k _
  simp only [fkey, F.CAB_REACH]
  omega

/-! ### The fence -/

/-- The module fenced, its jobs aborted with FENCED. -/
def fencedOff (s : State) : State := (((s.abortJobs (fun e => !e.2.aborted) true).wr pgCAB F.CAB_FENCED 1).raise pgCAB 3).count pgCAB 0x054 1

theorem fence_of_not_fenced {s : State} (h : s.fenced = false) : s.fence = fencedOff s := if_neg (by rw [h]; decide)

theorem fence_of_fenced {s : State} (h : s.fenced = true) : s.fence = s := if_pos h

theorem fencedOff_spec (s : State) : (fencedOff s).fenced = true ∧ Raised (fencedOff s) pgCAB 3 ∧
    (fencedOff s).ctr pgCAB 0x054 = s.ctr pgCAB 0x054 + 1 ∧ (fencedOff s).ctr pgCAB 0x050 = s.ctr pgCAB 0x050 ∧
    (fencedOff s).rd pgCAB F.CAB_EPOCH = s.rd pgCAB F.CAB_EPOCH ∧ BeaconKept s (fencedOff s) ∧
    ∀ j x, s.kegJob j = some x → x.aborted = false → (fencedOff s).kegJob j = some (jobGone x) := by
  have habort := (Aborts.refl s).abortJobs (fun e => !e.2.aborted) true
  have hjobs {j : Nat} {x : Job} (hj : s.kegJob j = some x) (hlive : x.aborted = false) :
      (s.abortJobs (fun e => !e.2.aborted) true).kegJob j = some (jobGone x) := kegJob_abortJobs hj hlive (by simp [hlive]) true
  rw [fencedOff]
  generalize s.abortJobs (fun e => !e.2.aborted) true = u at *
  have hquiet : Quiet u (((u.wr pgCAB F.CAB_FENCED 1).raise pgCAB 3).count pgCAB 0x054 1) := (((quiet_refl u).wri ..).raise ..).count ..
  refine ⟨?_, ?_, ?_, ?_, ?_, ?_, fun j x hj hlive => ?_⟩
  · rw [State.fenced, State.on, State.rdi_count, State.rdi_raise_ne _ (by decide), State.wr, State.rdi_wri_self]
    rfl
  · exact Onward.events (Onward.refl pgCAB _).count 3 (by decide) (raised_raise _ _ _ (by decide))
  · rw [State.ctr_count_self, ctr_raise _ _ _ (by decide), State.wr, State.ctr_wri, habort.ctrs _ _ (by decide)]
  · rw [State.ctr_count_ne _ _ (by decide), ctr_raise _ _ _ (by decide), State.wr, State.ctr_wri, habort.ctrs _ _ (by decide)]
  · rw [State.rd, State.rdi_count, State.rdi_raise_ne _ (by decide), State.wr, State.rdi_wri_ne _ _ (by decide), habort.regs _ _ _ (by decide), State.rd]
  · exact (((habort.beaconKept).wr 1 (reachKey_ne (by decide))).raise 3).count (by decide)
  · rw [State.kegJob, hquiet.keg]
    exact hjobs hj hlive

theorem fence_spec (s : State) : s.fence.fenced = true ∧ s.fence.rd pgCAB F.CAB_EPOCH = s.rd pgCAB F.CAB_EPOCH ∧
    s.fence.ctr pgCAB 0x050 = s.ctr pgCAB 0x050 ∧ BeaconKept s s.fence := by
  cases h : s.fenced with
  | true =>
    rw [fence_of_fenced h]
    exact ⟨h, rfl, rfl, .refl s⟩
  | false =>
    rw [fence_of_not_fenced h]
    obtain ⟨hfenced, -, -, hrefused, hepoch, hkept, -⟩ := fencedOff_spec s
    exact ⟨hfenced, hepoch, hrefused, hkept⟩

/-! ### A record that is accepted -/

/-- The record stands in the page, and quorum is judged anew. -/
def epochFields (s : State) (num members : Nat) : State :=
  let s1 := (((s.wr pgCAB F.CAB_EPOCH num).wri pgCAB F.CAB_MEMBERS 0 members).wri pgCAB F.CAB_MEMBERS 1 (members / 2 ^ 32)).wr pgCAB F.CAB_ANCHOR
    (((List.range 64).find? fun i => nbit members i).getD 0)
  { s1 with keg := { s1.keg with below := 0 } }

/-- The record is told and counted. -/
def epochShown (s : State) (num members : Nat) : State := ((epochFields s num members).raise pgCAB 0).count pgCAB 0x04C 1

/-- A fence ends with it. -/
def fenceLifted (s : State) : State := if s.fenced then (s.wr pgCAB F.CAB_FENCED 0).raise pgCAB 4 else s

theorem acceptEpoch_eq (s : State) (num members : Nat) :
    s.acceptEpoch num members = ((fenceLifted (epochShown s num members)).moveJobs num members).showQuorum := rfl

theorem Aborts.moveJobs {z s : State} (h : Aborts z s) (num members : Nat) : Aborts z (s.moveJobs num members) := by
  rw [State.moveJobs]
  refine h.foldl fun e _ t ht => .ite ht (.ite ?_ (ht.abortJob ..))
  exact ht.parts ..

theorem Onward.moveJobs {p : Nat} {z s : State} (h : Onward p z s) (num members : Nat) : Onward p z (s.moveJobs num members) := by
  rw [State.moveJobs]
  refine h.foldl fun e _ t ht => .ite ht (.ite ?_ ht.abortJob)
  exact ht.of

theorem Onward.showQuorum {p : Nat} {z s : State} (h : Onward p z s) : Onward p z s.showQuorum := by
  rw [State.showQuorum]
  exact h.wri

theorem epochFields_spec (s : State) {num members : Nat} (hnum : num < 2 ^ 32) (hmem : members < 2 ^ 64) :
    (epochFields s num members).rd pgCAB F.CAB_EPOCH = num ∧ (epochFields s num members).membersNow = members ∧
    BeaconKept s (epochFields s num members) := by
  have hbelow (u : State) : BeaconKept u { u with keg := { u.keg with below := 0 } } := ⟨rfl, fun _ => rfl, rfl, rfl, .of_eq, noAnswer_refl u⟩
  refine ⟨?_, ?_, ?_⟩
  · change State.rdi (State.wr _ _ _ _) pgCAB F.CAB_EPOCH 0 = num
    rw [State.wr, State.rdi_wri_ne _ _ (by decide), State.rdi_wri_ne _ _ (by decide), State.rdi_wri_ne _ _ (by decide), State.wr, State.rdi_wri_self]
    exact Nat.mod_eq_of_lt hnum
  · change State.rdi (State.wr _ _ _ _) pgCAB F.CAB_MEMBERS 0 + 2 ^ 32 * State.rdi (State.wr _ _ _ _) pgCAB F.CAB_MEMBERS 1 = members
    rw [State.wr, State.rdi_wri_ne _ _ (by decide), State.rdi_wri_ne _ _ (by decide), State.rdi_wri_self, State.rdi_wri_ne _ _ (by decide),
      State.rdi_wri_self]
    simp only [F.CAB_MEMBERS]
    omega
  · exact (((((BeaconKept.refl s).wr num (reachKey_ne (by decide))).wr members (reachKey_ne (by decide))).wr _ (reachKey_ne (by decide))).wr _
      (reachKey_ne (by decide))).trans (hbelow _)

/-- What an accepted record leaves. -/
structure EpochAccepted (num members : Nat) (s t : State) : Prop where
  epoch : t.rd pgCAB F.CAB_EPOCH = num
  members : t.membersNow = members
  fenced : t.fenced = false
  told : Raised t pgCAB 0
  counted : t.ctr pgCAB 0x04C = s.ctr pgCAB 0x04C + 1
  kept : BeaconKept s t

theorem epochShown_spec (s : State) {num members : Nat} (hnum : num < 2 ^ 32) (hmem : members < 2 ^ 64) :
    EpochAccepted num members s (fenceLifted (epochShown s num members)) := by
  obtain ⟨hepoch, hmembers, hkept⟩ := epochFields_spec s hnum hmem
  have hctr : (epochFields s num members).ctr pgCAB 0x04C = s.ctr pgCAB 0x04C := rfl
  rw [epochShown]
  generalize epochFields s num members = u at *
  have hepoch' : ((u.raise pgCAB 0).count pgCAB 0x04C 1).rd pgCAB F.CAB_EPOCH = num := by
    rw [State.rd, State.rdi_count, State.rdi_raise_ne _ (by decide)]
    exact hepoch
  have hmembers' : ((u.raise pgCAB 0).count pgCAB 0x04C 1).membersNow = members := by
    rw [State.membersNow, State.rdi_count, State.rdi_count, State.rdi_raise_ne _ (by decide), State.rdi_raise_ne _ (by decide)]
    exact hmembers
  have hcount : ((u.raise pgCAB 0).count pgCAB 0x04C 1).ctr pgCAB 0x04C = s.ctr pgCAB 0x04C + 1 := by
    rw [State.ctr_count_self, ctr_raise _ _ _ (by decide), hctr]
  have htold : Raised ((u.raise pgCAB 0).count pgCAB 0x04C 1) pgCAB 0 :=
    Onward.events (Onward.refl pgCAB _).count 0 (by decide) (raised_raise _ _ _ (by decide))
  have hkept' : BeaconKept s ((u.raise pgCAB 0).count pgCAB 0x04C 1) := (hkept.raise 0).count (by decide)
  generalize (u.raise pgCAB 0).count pgCAB 0x04C 1 = v at *
  rw [fenceLifted]
  cases hf : v.fenced with
  | false => exact ⟨hepoch', hmembers', hf, htold, hcount, hkept'⟩
  | true =>
    rw [if_pos rfl]
    refine ⟨?_, ?_, ?_, ?_, ?_, ((hkept'.wr 0 (reachKey_ne (by decide))).raise 4)⟩
    · rw [State.rd, State.rdi_raise_ne _ (by decide), State.wr, State.rdi_wri_ne _ _ (by decide)]
      exact hepoch'
    · rw [State.membersNow, State.rdi_raise_ne _ (by decide), State.rdi_raise_ne _ (by decide), State.wr, State.rdi_wri_ne _ _ (by decide),
        State.rdi_wri_ne _ _ (by decide)]
      exact hmembers'
    · rw [State.fenced, State.on, State.rdi_raise_ne _ (by decide), State.wr, State.rdi_wri_self]
      rfl
    · exact Onward.events (Onward.refl pgCAB _).wri.raise 0 (by decide) htold
    · rw [ctr_raise _ _ _ (by decide), State.wr, State.ctr_wri, hcount]

theorem acceptEpoch_spec (s : State) {num members : Nat} (hnum : num < 2 ^ 32) (hmem : members < 2 ^ 64) :
    EpochAccepted num members s (s.acceptEpoch num members) := by
  obtain ⟨hepoch, hmembers, hfenced, htold, hcount, hkept⟩ := epochShown_spec s hnum hmem
  rw [acceptEpoch_eq]
  generalize fenceLifted (epochShown s num members) = u at *
  have hmoved := (Aborts.refl u).moveJobs num members
  have hregs {F0 : Field} {i : Nat} (hF : spared (fkey pgCAB F0 i) = true) (hq : fkey pgCAB F0 i ≠ fkey pgCAB F.CAB_QUORUM 0) :
      ((u.moveJobs num members).showQuorum).rdi pgCAB F0 i = u.rdi pgCAB F0 i := by rw [rdi_showQuorum_ne _ hq, hmoved.regs _ _ _ hF]
  refine ⟨(hregs (by decide) (by decide)).trans hepoch, ?_, ?_, ?_, ?_, ?_⟩
  · rw [State.membersNow, hregs (by decide) (by decide), hregs (by decide) (by decide)]
    exact hmembers
  · rw [State.fenced, State.on, hregs (by decide) (by decide)]
    exact hfenced
  · exact ((Onward.refl pgCAB u).moveJobs num members).showQuorum.events 0 (by decide) htold
  · rw [State.showQuorum, State.wr, State.ctr_wri, hmoved.ctrs pgCAB 0x04C (by decide), hcount]
  · refine (hkept.trans hmoved.beaconKept).wr _ fun k hk => ?_
    obtain rfl | rfl : k = 0 ∨ k = 1 := by omega
    all_goals decide

/-! ### What becomes of a record that is offered (R511, R513) -/

section
variable {s : State} {num members : Nat}

theorem offerEpoch_accepts (hlist : nbit members s.ownIndex = true) (hnew : s.rd pgCAB F.CAB_EPOCH < num)
    (hmay : s.rd pgCAB F.CAB_EPOCH = 0 ∨ s.majority members = true) : s.offerEpoch num members = (s.acceptEpoch num members, true) := by
  have hpass : s.epochPasses num members = true := by
    simp only [State.epochPasses, Bool.or_eq_true, beq_iff_eq, Bool.and_eq_true, decide_eq_true_eq]
    exact hmay.imp id fun h => ⟨hnew, h⟩
  have hacc : s.epochAccepted num members = true := by
    simp only [State.epochAccepted, hlist, hpass, hnew, decide_true, Bool.or_true, Bool.and_true]
  have hne : (num == s.rd pgCAB F.CAB_EPOCH) = false := by
    rw [beq_eq_false_iff_ne]
    omega
  rw [State.offerEpoch, if_neg (by omega), if_pos]
  rw [hacc, hne]
  rfl

theorem offerEpoch_unlisted (hlist : nbit members s.ownIndex = false) (hnew : s.rd pgCAB F.CAB_EPOCH < num) :
    s.offerEpoch num members = ((s.count pgCAB 0x050 1).fence, false) := by
  rw [State.offerEpoch, if_neg (by omega), if_neg (by simp [State.epochAccepted, hlist])]
  dsimp only
  rw [if_neg (by omega), if_pos]
  rw [hlist, decide_eq_true hnew]
  rfl

theorem offerEpoch_older (hold : num < s.rd pgCAB F.CAB_EPOCH) : s.offerEpoch num members = (s.count pgCAB 0x050 1, false) := by
  have hzero : (s.rd pgCAB F.CAB_EPOCH == 0) = false := by
    rw [beq_eq_false_iff_ne]
    omega
  have hlt : decide (s.rd pgCAB F.CAB_EPOCH < num) = false := decide_eq_false (by omega)
  rw [State.offerEpoch, if_neg (by omega), if_neg (by simp [State.epochAccepted, State.epochPasses, hzero, hlt])]
  dsimp only
  rw [if_neg (by omega), hlt, Bool.and_false, if_neg (by decide)]

theorem offerEpoch_conflict (hsame : num = s.rd pgCAB F.CAB_EPOCH) (hset : num ≠ 0) (hdiff : members ≠ s.membersNow) :
    s.offerEpoch num members = ((s.count pgCAB 0x050 1).raise pgCAB 1, false) := by
  subst hsame
  rw [State.offerEpoch, if_neg fun hall => hdiff hall.2.1, if_neg (by simp [hset])]
  dsimp only
  rw [if_pos ⟨rfl, hset⟩]

end

/-- Whatever becomes of the record, the reachable set, the links and the beacons' count stay. -/
theorem offerEpoch_kept (s : State) {num members : Nat} (hnum : num < 2 ^ 32) (hmem : members < 2 ^ 64) : BeaconKept s (s.offerEpoch num members).1 := by
  have hcounted : BeaconKept s (s.count pgCAB 0x050 1) := (BeaconKept.refl s).count (by decide)
  rw [State.offerEpoch]
  split
  · exact .refl s
  · split
    · exact (acceptEpoch_spec s hnum hmem).kept
    · split
      · exact hcounted.raise 1
      · split
        · exact hcounted.trans (fence_spec _).2.2.2
        · exact hcounted

/-! ## Beacons (R506) -/

/-- A module that may send does: the message is among those on their way out, and those that were there stay. -/
theorem msgs_kegSend (s : State) (l kind : Nat) (ws : List Nat) : ∀ m ∈ s.msgs, m ∈ (s.kegSend l kind ws).msgs := by
  intro m hm
  rw [State.kegSend]
  split
  · exact hm
  · exact List.mem_cons_of_mem _ hm

theorem kegSend_sends {s : State} (hsilent : s.keg.silent = false) (l : Nat) (ws : List Nat) : .keg l 1 ws ∈ (s.kegSend l 1 ws).msgs := by
  rw [State.kegSend, if_neg (by simp [hsilent])]
  exact List.mem_cons_self

/-- A beacon on each of the links `ls`. -/
def beacons (s : State) (ws : List Nat) (ls : List Nat) : State := ls.foldl (fun t l => t.kegSend l 1 ws) s

theorem beacons_spec (ws : List Nat) : ∀ (ls : List Nat) (s : State), Quiet s (beacons s ws ls) ∧ (beacons s ws ls).regs = s.regs ∧
    (∀ m ∈ s.msgs, m ∈ (beacons s ws ls).msgs) ∧ (s.keg.silent = false → ∀ l ∈ ls, .keg l 1 ws ∈ (beacons s ws ls).msgs)
  | [], s => ⟨quiet_refl s, rfl, fun _ h => h, fun _ _ h => absurd h List.not_mem_nil⟩
  | l :: ls, s => by
    have hone := (quiet_refl s).kegSend l 1 ws
    have hregs : (s.kegSend l 1 ws).regs = s.regs := by
      rw [State.kegSend]
      split <;> rfl
    obtain ⟨hq, hr, hm, hsent⟩ := beacons_spec ws ls (s.kegSend l 1 ws)
    refine ⟨hone.trans hq, hr.trans hregs, fun m h => hm m (msgs_kegSend s l 1 ws m h), fun hsilent k hk => ?_⟩
    obtain rfl | hk := List.mem_cons.mp hk
    · exact hm _ (kegSend_sends hsilent k ws)
    · exact hsent (by rw [hone.keg]; exact hsilent) k hk

theorem beaconSend_spec {s : State} (hdue : s.keg.beaconClk + 100 * clkUs ≤ s.now) (hsilent : s.keg.silent = false) :
    ∃ t, exec .beaconSend s = .next t ∧ t.keg.beaconClk = s.now ∧
      (∀ l, l < 8 → s.linkIsUp l = true → .keg l 1 [s.rd pgCAB F.CAB_EPOCH, s.membersNow, s.reachSet] ∈ t.msgs) ∧ t.regs = s.regs ∧ SameBytes s t := by
  have hexec : exec .beaconSend s = .next (beacons { s with keg := { s.keg with beaconClk := s.now } } [s.rd pgCAB F.CAB_EPOCH, s.membersNow, s.reachSet]
      ((List.range 8).filter fun l => s.linkIsUp l)) := by
    change execBeaconSend s = _
    rw [execBeaconSend, if_pos hdue]
    rfl
  obtain ⟨hquiet, hregs, -, hsent⟩ := beacons_spec [s.rd pgCAB F.CAB_EPOCH, s.membersNow, s.reachSet] ((List.range 8).filter fun l => s.linkIsUp l)
    { s with keg := { s.keg with beaconClk := s.now } }
  refine ⟨_, hexec, by rw [hquiet.keg], fun l hl hup => ?_, hregs, (SameBytes.of_eq : SameBytes s _).trans hquiet.sameBytes⟩
  exact hsent hsilent l (List.mem_filter.mpr ⟨List.mem_range.mpr hl, hup⟩)

/-- Indexes that a beacon confirms. -/
def confirmed (s : State) (now : Nat) (ms : List Nat) : State := ms.foldl (fun t m => { t with keg := { t.keg with conf := mput t.keg.conf m now } }) s

theorem confirmed_spec (now : Nat) : ∀ (ms : List Nat) (s : State), (∀ m, m ∈ ms ∨ nget s.keg.conf m = now → nget (confirmed s now ms).keg.conf m = now) ∧
    confirmed s now ms = { s with keg := { s.keg with conf := (confirmed s now ms).keg.conf } }
  | [], s => ⟨fun _ h => h.resolve_left List.not_mem_nil, rfl⟩
  | k :: ms, s => by
    obtain ⟨hconf, heq⟩ := confirmed_spec now ms { s with keg := { s.keg with conf := mput s.keg.conf k now } }
    refine ⟨fun m h => hconf m ?_, heq⟩
    by_cases hmk : m = k
    · subst hmk
      exact .inr (by rw [nget, ngetD, mget_mput_self]; rfl)
    · refine h.imp (fun hm => (List.mem_cons.mp hm).resolve_left hmk) fun hnow => ?_
      rwa [nget, ngetD, mget_mput_ne _ _ hmk]

/-- What a beacon that authenticates leaves before its record is offered: the link's set, the count, and the indexes it confirms. -/
def beaconHeard (s : State) (l reach : Nat) : State :=
  confirmed ((s.setLink l { s.link l with reach := reach }).count pgCAB 0x05C 1) s.now (bitsSet (setBit reach (s.rd (pgKEG l) F.KEG_PEER_CAB)) 64)

/-- The reachable set takes them in. -/
def beaconTaken (s : State) (l reach : Nat) : State :=
  reachShown (beaconHeard s l reach) (setBit ((beaconHeard s l reach).reachSet ||| setBit reach (s.rd (pgKEG l) F.KEG_PEER_CAB)) s.ownIndex)

theorem beaconTaken_spec (s : State) (l reach : Nat) : (beaconTaken s l reach).ctr pgCAB 0x05C = s.ctr pgCAB 0x05C + 1 ∧
    ((beaconTaken s l reach).link l).reach = reach ∧
    (∀ m, m < 64 → nbit reach m = true ∨ m = s.rd (pgKEG l) F.KEG_PEER_CAB →
      nbit (beaconTaken s l reach).reachSet m = true ∧ nget (beaconTaken s l reach).keg.conf m = s.now) ∧ SameBytes s (beaconTaken s l reach) := by
  obtain ⟨hconf, heq⟩ := confirmed_spec s.now (bitsSet (setBit reach (s.rd (pgKEG l) F.KEG_PEER_CAB)) 64)
    ((s.setLink l { s.link l with reach := reach }).count pgCAB 0x05C 1)
  have hlink : ((beaconHeard s l reach).link l).reach = reach := by
    rw [beaconHeard, heq]
    exact congrArg KegLink.reach (link_setLink_self s l { s.link l with reach := reach })
  have hctr : (beaconHeard s l reach).ctr pgCAB 0x05C = s.ctr pgCAB 0x05C + 1 := by
    rw [beaconHeard, heq]
    exact State.ctr_count_self (s.setLink l { s.link l with reach := reach }) pgCAB 0x05C 1
  have hbytes : SameBytes s (beaconHeard s l reach) := by
    rw [beaconHeard, heq]
    exact .of_eq
  have hconf' : ∀ m ∈ bitsSet (setBit reach (s.rd (pgKEG l) F.KEG_PEER_CAB)) 64, nget (beaconHeard s l reach).keg.conf m = s.now :=
    fun m hm => hconf m (.inl hm)
  rw [beaconTaken]
  generalize beaconHeard s l reach = u at *
  have hquiet := Quiet.reachShown (quiet_refl u) (setBit (u.reachSet ||| setBit reach (s.rd (pgKEG l) F.KEG_PEER_CAB)) s.ownIndex)
  refine ⟨?_, by rw [State.link, hquiet.keg]; exact hlink, fun m hm hheard => ⟨?_, ?_⟩, hbytes.trans hquiet.sameBytes⟩
  · rw [State.ctr, (reachShown_regs _ _).ctrs]
    exact hctr
  · rw [nbit_reachShown _ hm, nbit_setBit, nbit_eq_testBit, Nat.testBit_or, ← nbit_eq_testBit (setBit _ _), nbit_setBit, Bool.or_eq_true, Bool.or_eq_true,
      Bool.or_eq_true]
    exact .inl (.inr (hheard.imp id fun h => decide_eq_true h.symm))
  · rw [hquiet.keg]
    refine hconf' m (mem_bitsSet.mpr ⟨hm, ?_⟩)
    rw [nbit_setBit, Bool.or_eq_true]
    exact hheard.imp id fun h => decide_eq_true h.symm

section
variable {link : Fin 8} {s : State} (epoch : Word) (members reach : BitVec 64)

theorem beaconReceive_heard (hup : s.linkIsUp link.val = true) : ∃ t, exec (.beaconReceive link true epoch members reach) s = .next t ∧
    t.ctr pgCAB 0x05C = s.ctr pgCAB 0x05C + 1 ∧ (t.link link.val).reach = reach.toNat ∧
      (∀ m, m < 64 → nbit reach.toNat m = true ∨ m = s.rd (pgKEG link.val) F.KEG_PEER_CAB → nbit t.reachSet m = true ∧ nget t.keg.conf m = s.now) ∧
      SameBytes s t := by
  have hexec : exec (.beaconReceive link true epoch members reach) s =
      .next ((beaconTaken s link.val reach.toNat).offerEpoch epoch.toNat members.toNat).1 := by
    change execBeaconReceive link true epoch members reach s = _
    rw [execBeaconReceive]
    dsimp only
    rw [if_neg (by simp [hup])]
    rfl
  obtain ⟨hctr, hlink, hheard, hbytes⟩ := beaconTaken_spec s link.val reach.toNat
  have hkept := offerEpoch_kept (beaconTaken s link.val reach.toNat) epoch.isLt members.isLt
  rw [hexec]
  generalize beaconTaken s link.val reach.toNat = u at *
  refine ⟨_, rfl, hkept.beacons.trans hctr, by rw [hkept.links]; exact hlink, fun m hm h => ?_, hbytes.trans hkept.bytes⟩
  rw [hkept.reach, hkept.conf]
  exact hheard m hm h

theorem beaconReceive_unheard : exec (.beaconReceive link false epoch members reach) s = .next s := by
  change execBeaconReceive link false epoch members reach s = _
  rw [execBeaconReceive]
  dsimp only
  rw [if_pos (by simp)]

end

/-! ## An index that no beacon confirms (R506) -/

/-- A set bit taken off leaves the other bits. -/
theorem testBit_sub_two_pow {q r i j : Nat} (hodd : q % 2 = 1) (hr : r < 2 ^ i) (h : j ≠ i) :
    (2 ^ i * q + r - 2 ^ i).testBit j = (2 ^ i * q + r).testBit j := by
  obtain ⟨p, rfl⟩ : ∃ p, q = 2 * p + 1 := ⟨q / 2, by omega⟩
  have hsub : 2 ^ i * (2 * p + 1) + r - 2 ^ i = 2 ^ i * (2 * p) + r := by
    rw [Nat.mul_succ]
    omega
  rw [hsub, Nat.testBit_two_pow_mul_add _ hr, Nat.testBit_two_pow_mul_add _ hr]
  split
  · rfl
  · next hge =>
    obtain ⟨k, hk⟩ : ∃ k, j - i = k + 1 := ⟨j - i - 1, by omega⟩
    rw [hk, Nat.testBit_succ, Nat.testBit_succ]
    congr 1
    omega

theorem nbit_clrBit_ne (a : Nat) {i j : Nat} (h : j ≠ i) : nbit (clrBit a i) j = nbit a j := by
  rw [clrBit]
  split
  · next hset =>
    have hodd : a / 2 ^ i % 2 = 1 := by simpa [nbit] using hset
    have key := testBit_sub_two_pow hodd (Nat.mod_lt a (Nat.two_pow_pos i)) h
    rwa [Nat.div_add_mod, ← nbit_eq_testBit, ← nbit_eq_testBit] at key
  · rfl

theorem reachExpire_spec {idx : Fin 64} {s : State} (hown : idx.val ≠ s.ownIndex) (hin : nbit s.reachSet idx.val = true)
    (hlate : nget s.keg.conf idx.val + 800 * clkUs ≤ s.now) : ∃ t, exec (.reachExpire idx) s = .next t ∧ nbit t.reachSet idx.val = false ∧
      (∀ m, m < 64 → m ≠ idx.val → nbit t.reachSet m = nbit s.reachSet m) ∧
      (∀ j x, s.kegJob j = some x → x.aborted = false → x.members.contains idx.val = true →
        t.kegJob j = some { x with aborted := true, keys := none, early := [] }) ∧ SameBytes s t := by
  have hexec : exec (.reachExpire idx) s =
      .next ((reachShown s (clrBit s.reachSet idx.val)).abortJobs fun e => !e.2.aborted && e.2.members.contains idx.val) := by
    change execReachExpire idx s = _
    rw [execReachExpire]
    dsimp only
    rw [if_neg]
    · rfl
    · rintro (h | h | h)
      · exact hown h
      · exact absurd (hin.symm.trans h) (by decide)
      · omega
  have hregs := reachShown_regs s (clrBit s.reachSet idx.val)
  have habort := (Aborts.refl (reachShown s (clrBit s.reachSet idx.val))).abortJobs (fun e => !e.2.aborted && e.2.members.contains idx.val) false
  refine ⟨_, hexec, ?_, fun m hm hne => ?_, fun j x hj hlive hmem => ?_, hregs.sameBytes.trans habort.sameBytes⟩
  · rw [habort.beaconKept.reach, nbit_reachShown _ idx.isLt]
    exact nbit_clrBit _ _
  · rw [habort.beaconKept.reach, nbit_reachShown _ hm, nbit_clrBit_ne _ hne]
  · refine kegJob_abortJobs ?_ hlive (by simp only [hlive, hmem]; rfl) false
    rw [State.kegJob, (Quiet.reachShown (quiet_refl s) _).keg]
    exact hj

theorem fenceSelf_spec {s : State} (hlow : 3 ≤ s.keg.below) (hno : s.fenced = false) : ∃ t, exec .fenceSelf s = .next t ∧ t.fenced = true ∧
    Raised t pgCAB 3 ∧ t.ctr pgCAB 0x054 = s.ctr pgCAB 0x054 + 1 ∧
      (∀ j x, s.kegJob j = some x → x.aborted = false → t.kegJob j = some { x with aborted := true, keys := none, early := [] }) ∧ SameBytes s t := by
  obtain ⟨hfenced, htold, hctr, -, -, hkept, hjobs⟩ := fencedOff_spec s
  refine ⟨fencedOff s, ?_, hfenced, htold, hctr, hjobs, hkept.bytes⟩
  change execFenceSelf s = _
  rw [execFenceSelf, if_pos hlow, fence_of_not_fenced hno]

/-! ## KEG_EPOCH (R511, R513) -/

section
variable {fn : Fin 32} {s : State} (h : Performs s fn.val 0x60) (tag : Nat) (epoch : Word) (members : BitVec 64)
include h

theorem exec_kegEpoch : exec (.kegEpoch fn tag epoch members) s =
    .next (((untake s fn.val tag 0x60).offerEpoch epoch.toNat members.toNat).1.respond fn.val tag
      (if ((untake s fn.val tag 0x60).offerEpoch epoch.toNat members.toNat).2 then stCOMPLETE else stFAULT) 0) := by
  change execKegEpoch fn tag epoch members s = _
  rw [execKegEpoch, h.command]

theorem kegEpoch_accepted (hlist : nbit members.toNat s.ownIndex = true) (hnew : s.rd pgCAB F.CAB_EPOCH < epoch.toNat)
    (hmay : s.rd pgCAB F.CAB_EPOCH = 0 ∨ s.majority members.toNat = true) :
    ∃ t, exec (.kegEpoch fn tag epoch members) s = .next t ∧ Answered s t fn.val tag 0 0 ∧ t.rd pgCAB F.CAB_EPOCH = epoch.toNat ∧
      t.membersNow = members.toNat ∧ t.fenced = false ∧ Raised t pgCAB 0 ∧ t.ctr pgCAB 0x04C = s.ctr pgCAB 0x04C + 1 := by
  obtain ⟨hepoch, hmembers, hfenced, htold, hcount, hkept⟩ := acceptEpoch_spec (untake s fn.val tag 0x60) epoch.isLt members.isLt
  have hoffer := offerEpoch_accepts (s := untake s fn.val tag 0x60) (num := epoch.toNat) (members := members.toNat) hlist hnew hmay
  rw [exec_kegEpoch h, hoffer]
  have hresps : ((untake s fn.val tag 0x60).acceptEpoch epoch.toNat members.toNat).host.resps = s.host.resps := hkept.answers.1
  have hctr : ((untake s fn.val tag 0x60).acceptEpoch epoch.toNat members.toNat).ctr pgCAB 0x04C = s.ctr pgCAB 0x04C + 1 := hcount
  generalize (untake s fn.val tag 0x60).acceptEpoch epoch.toNat members.toNat = u at *
  exact ⟨_, rfl, answered_respond hresps .., hepoch, hmembers, hfenced, htold, hctr⟩

theorem kegEpoch_unlisted (hlist : nbit members.toNat s.ownIndex = false) (hnew : s.rd pgCAB F.CAB_EPOCH < epoch.toNat) :
    ∃ t, exec (.kegEpoch fn tag epoch members) s = .next t ∧ Answered s t fn.val tag stFAULT 0 ∧ t.fenced = true ∧
      t.rd pgCAB F.CAB_EPOCH = s.rd pgCAB F.CAB_EPOCH ∧ t.ctr pgCAB 0x050 = s.ctr pgCAB 0x050 + 1 := by
  obtain ⟨hfenced, hepoch, hctr, hkept⟩ := fence_spec ((untake s fn.val tag 0x60).count pgCAB 0x050 1)
  have hoffer := offerEpoch_unlisted (s := untake s fn.val tag 0x60) (num := epoch.toNat) (members := members.toNat) hlist hnew
  rw [exec_kegEpoch h, hoffer]
  exact ⟨_, rfl, answered_respond (s := s) hkept.answers.1 .., hfenced, hepoch,
    hctr.trans (State.ctr_count_self (untake s fn.val tag 0x60) pgCAB 0x050 1)⟩

theorem kegEpoch_older (hold : epoch.toNat < s.rd pgCAB F.CAB_EPOCH) : ∃ t, exec (.kegEpoch fn tag epoch members) s = .next t ∧
    Answered s t fn.val tag stFAULT 0 ∧ t.regs = s.regs ∧ t.ctr pgCAB 0x050 = s.ctr pgCAB 0x050 + 1 := by
  have hoffer := offerEpoch_older (s := untake s fn.val tag 0x60) (members := members.toNat) hold
  have hctr : ((untake s fn.val tag 0x60).count pgCAB 0x050 1).ctr pgCAB 0x050 = s.ctr pgCAB 0x050 + 1 := State.ctr_count_self ..
  have hresps : ((untake s fn.val tag 0x60).count pgCAB 0x050 1).host.resps = s.host.resps := rfl
  have hregs : ((untake s fn.val tag 0x60).count pgCAB 0x050 1).regs = s.regs := rfl
  rw [exec_kegEpoch h, hoffer]
  generalize (untake s fn.val tag 0x60).count pgCAB 0x050 1 = u at *
  exact ⟨_, rfl, answered_respond hresps .., hregs, hctr⟩

theorem kegEpoch_conflict (hsame : epoch.toNat = s.rd pgCAB F.CAB_EPOCH) (hset : epoch.toNat ≠ 0) (hdiff : members.toNat ≠ s.membersNow) :
    ∃ t, exec (.kegEpoch fn tag epoch members) s = .next t ∧ Answered s t fn.val tag stFAULT 0 ∧ Raised t pgCAB 1 ∧
      t.rd pgCAB F.CAB_EPOCH = s.rd pgCAB F.CAB_EPOCH := by
  have hoffer := offerEpoch_conflict (s := untake s fn.val tag 0x60) hsame hset hdiff
  have hanswer := (noAnswer_raise ((untake s fn.val tag 0x60).count pgCAB 0x050 1) pgCAB 1).1
  have htold := raised_raise ((untake s fn.val tag 0x60).count pgCAB 0x050 1) pgCAB 1 (by decide)
  have hepoch : (((untake s fn.val tag 0x60).count pgCAB 0x050 1).raise pgCAB 1).rd pgCAB F.CAB_EPOCH = s.rd pgCAB F.CAB_EPOCH :=
    State.rdi_raise_ne ((untake s fn.val tag 0x60).count pgCAB 0x050 1) (by decide)
  rw [exec_kegEpoch h, hoffer]
  generalize ((untake s fn.val tag 0x60).count pgCAB 0x050 1).raise pgCAB 1 = u at *
  exact ⟨_, rfl, answered_respond (s := s) hanswer .., htold, hepoch⟩

end

/-! ## The cabinet index (R517) -/

theorem accessErr_quiet (s : State) (a : RegAcc) : Quiet s (s.accessErr a) := by
  rw [State.accessErr]
  split
  · exact ((quiet_refl s).count ..).raise ..
  · exact (((((quiet_refl s).wri ..).wri ..).wri ..).wri ..).raise ..

/-- A refused access is latched in the MOD page: other pages read as before. -/
theorem rdi_accessErr_ne (s : State) (a : RegAcc) {pg : Nat} {F0 : Field} (hpg : pg ≠ pgMOD) (hF : ownPage F0 = true) :
    (s.accessErr a).rdi pg F0 0 = s.rdi pg F0 0 := by
  have hne {F1 : Field} (h1 : ownPage F1 = true) : fkey pg F0 0 ≠ fkey pgMOD F1 0 := fkey_ne_of_page hpg hF h1
  rw [State.accessErr]
  split
  · rw [State.rdi_raise_ne _ (hne (by decide)), State.rdi_count]
  · simp only [State.wr]
    rw [State.rdi_raise_ne _ (hne (by decide)), State.rdi_wri_ne _ _ (hne (by decide)), State.rdi_wri_ne _ _ (hne (by decide)),
      State.rdi_wri_ne _ _ (hne (by decide)), State.rdi_wri_ne _ _ (hne (by decide))]

section
variable {fn : Fin 32} {v : Word} {s : State} (hmay : s.mayWriteBlock pgCAB fn.val = true)
include hmay

theorem cabIndexWrite_open (hfree : s.keg.indexLocked = false) (hopen : s.locked pgCAB = false) : ∃ t, exec (.cabIndexWrite fn v) s = .next t ∧
    t.rd pgCAB F.CAB_INDEX = v.toNat % 64 ∧ t.rd pgCAB F.CAB_INDEX_VALID = v.toNat / 2 ^ 31 ∧
      t.reachSet = (if nbit v.toNat 31 = true then 2 ^ (v.toNat % 64) else 0) ∧ SameBytes s t := by
  have hexec : exec (.cabIndexWrite fn v) s = .next (s.setIndex v.toNat) := by
    change execCabIndexWrite fn v s = _
    rw [execCabIndexWrite, blockAction_allowed _ _ hmay, hfree, hopen]
    rfl
  obtain ⟨hindex, hvalid, hreach⟩ := setIndex_fields s v.toNat
  refine ⟨_, hexec, hindex, hvalid.trans ?_, hreach, (setIndex_regs s v.toNat).sameBytes⟩
  have hlt := v.isLt
  have hq : v.toNat / 2 ^ 31 = 0 ∨ v.toNat / 2 ^ 31 = 1 := by omega
  rw [nbit]
  obtain hq | hq := hq <;> rw [hq] <;> rfl

theorem cabIndexWrite_locked (hlocked : s.keg.indexLocked = true ∨ s.locked pgCAB = true) : ∃ t, exec (.cabIndexWrite fn v) s = .next t ∧
    t.rd pgCAB F.CAB_INDEX = s.rd pgCAB F.CAB_INDEX ∧ Raised t pgMOD 0 ∧ SameBytes s t := by
  have hexec : ∃ a, exec (.cabIndexWrite fn v) s = .next (s.accessErr a) := by
    change ∃ a, execCabIndexWrite fn v s = _
    rw [execCabIndexWrite, blockAction_allowed _ _ hmay, if_pos (by simpa using hlocked)]
    exact ⟨_, rfl⟩
  obtain ⟨a, hexec⟩ := hexec
  exact ⟨_, hexec, rdi_accessErr_ne s a (by decide) (by decide), (accessErr_told s a).2, (accessErr_quiet s a).sameBytes⟩

end

/-- Settles O53: a record that is accepted is `acceptEpoch_spec`, a fence `fencedOff_spec`; the others are the lemmas of their instructions. -/
theorem cabinetMembership : Obligations.CabinetMembership := by
  unfold Obligations.CabinetMembership
  exact ⟨fun s hdue hsilent => beaconSend_spec hdue hsilent,
    fun link epoch members reach s hup => ⟨beaconReceive_heard epoch members reach hup, beaconReceive_unheard epoch members reach⟩,
    fun idx s hown hin hlate => reachExpire_spec hown hin hlate, fun s hlow hno => fenceSelf_spec hlow hno,
    fun fn tag epoch members s h => ⟨kegEpoch_accepted h tag epoch members, kegEpoch_unlisted h tag epoch members, kegEpoch_older h tag epoch members,
      kegEpoch_conflict h tag epoch members⟩,
    fun fn v s hmay => ⟨cabIndexWrite_open hmay, cabIndexWrite_locked hmay⟩⟩

end Sys2Proof
end

section
/-! PROOF. O54: jobs, their end and abort; remote windows and accesses (R510, R515, R517). -/

namespace Sys2Proof

set_option Elab.async false

open Machine

/-! ## Jobs (R510) -/

section
variable {fn : Fin 32} {s : State} (tag : Nat)

/-- A job made: of the descriptor read, with fresh link keys. -/
def jobMade (s : State) (j : Nat) (x : Job) : State := ({ s with lp := { s.lp with keyNext := s.lp.keyNext + 1 } }.setKegJob j x).showJobs

theorem kegJob_jobMade (s : State) (j : Nat) (x : Job) : (jobMade s j x).kegJob j = some x := by
  rw [State.kegJob, jobMade, (quiet_refl _).showJobs.keg, State.setKegJob, mget_mput_self]

theorem jobMade_aborts (s : State) (j : Nat) (x : Job) : Aborts s (jobMade s j x) := (((Aborts.refl s).parts ..).setKegJob j x).showJobs

theorem jobCreate_refused {ctx : Fin 1024} {job epoch : Word} {members : BitVec 64} {dieSet : Nat} (h : Performs s fn.val 0x63 (vf := true)) (va : Nat)
    {st : Nat} (hno : s.jobRefused fn.val ctx.val job.toNat epoch.toNat members.toNat dieSet = some st) :
    ∃ t, exec (.jobCreate fn tag ctx job epoch members dieSet va) s = .next t ∧ Answered s t fn.val tag st 0 ∧ t.keg = s.keg ∧ t.regs = s.regs := by
  have hno' : (untake s fn.val tag 0x63).jobRefused fn.val ctx.val job.toNat epoch.toNat members.toNat dieSet = some st := hno
  refine ⟨(untake s fn.val tag 0x63).respond fn.val tag st 0, ?_, answered_respond rfl .., rfl, rfl⟩
  change execJobCreate fn tag ctx job epoch members dieSet va s = _
  rw [execJobCreate, h.command, hno']

theorem jobCreate_made {ctx : Fin 1024} {job epoch : Word} {members : BitVec 64} {dieSet va : Nat} {t1 : State} {bs : List Nat}
    (h : Performs s fn.val 0x63 (vf := true)) (hmay : s.jobRefused fn.val ctx.val job.toNat epoch.toNat members.toNat dieSet = none) (hva : va % 64 = 0)
    (hread : (untake s fn.val tag 0x63).hubRead ctx.val va 16 = (t1, some bs)) (hclean : stretchClean bs (popcount members.toNat 64) = true)
    (hok : stretchOk (stretchOf bs (popcount members.toNat 64)) members.toNat = true) :
    ∃ t, exec (.jobCreate fn tag ctx job epoch members dieSet va) s = .next t ∧ Answered t1 t fn.val tag 0 0 ∧
      t.kegJob job.toNat = some { ctx := ctx.val, epoch := epoch.toNat, members := bitsSet members.toNat 64, dieSet := dieSet % 16,
                                  table := stretchOf bs (popcount members.toNat 64), keys := some t1.lp.keyNext } := by
  have hmay' : (untake s fn.val tag 0x63).jobRefused fn.val ctx.val job.toNat epoch.toNat members.toNat dieSet = none := hmay
  have hline : va / 64 * 64 = va := by omega
  have hexec : exec (.jobCreate fn tag ctx job epoch members dieSet va) s = .next ((jobMade t1 job.toNat
      { ctx := ctx.val, epoch := epoch.toNat, members := bitsSet members.toNat 64, dieSet := dieSet % 16,
        table := stretchOf bs (popcount members.toNat 64), keys := some t1.lp.keyNext }).respond fn.val tag 0 0) := by
    change execJobCreate fn tag ctx job epoch members dieSet va s = _
    rw [execJobCreate, h.command, hmay']
    dsimp only
    rw [hline, hread]
    dsimp only [Option.getD_some]
    rw [if_neg (by simp [hva, hclean, hok])]
    rfl
  exact ⟨_, hexec, answered_respond (jobMade_aborts t1 _ _).noAnswer.1 .., kegJob_jobMade t1 _ _⟩

theorem exec_jobEnd (h : Performs s fn.val 0x64 (vf := true)) (job : Word) {x : Job} (hj : s.kegJob job.toNat = some x)
    (hmay : fn.val = 0 ∨ s.boundTo fn.val x.ctx = true) (hidle : ∀ e ∈ s.steps, e.2.job ≠ some job.toNat ∨ e.2.started = false) :
    exec (.jobEnd fn tag job) s = .next (((untake s fn.val tag 0x64).removeJob job.toNat).respond fn.val tag 0 0) := by
  have hj' : (untake s fn.val tag 0x64).kegJob job.toNat = some x := hj
  change execJobEnd fn tag job s = _
  rw [execJobEnd, h.command, hj']
  dsimp only
  rw [if_neg, if_neg]
  · rw [Bool.not_eq_true, List.any_eq_false]
    intro e he hbusy
    rw [Bool.and_eq_true, beq_iff_eq] at hbusy
    obtain hne | hno := hidle e he
    · exact hne hbusy.1
    · exact absurd (hbusy.2.symm.trans hno) (by decide)
  · have hmay' : fn.val = 0 ∨ (untake s fn.val tag 0x64).boundTo fn.val x.ctx = true := hmay
    rw [Bool.not_eq_true', Bool.not_eq_false, Bool.or_eq_true, beq_iff_eq]
    exact hmay'

/-- The job and its windows are gone. -/
theorem removeJob_spec (s : State) (j : Nat) : (s.removeJob j).kegJob j = none ∧ (∀ w ∈ (s.removeJob j).keg.windows, w.2 ≠ j) ∧
    SameBytes s (s.removeJob j) ∧ NoAnswer s (s.removeJob j) := by
  have hrest : ∃ v : State, s.removeJob j = v.showJobs ∧ v.keg.jobs = mdel s.keg.jobs j ∧ v.keg.windows = (s.keg.windows.filter fun w => w.2 != j) ∧
      SameBytes s v ∧ NoAnswer s v := ⟨_, rfl, rfl, rfl, .of_eq, rfl, rfl, rfl⟩
  obtain ⟨v, heq, hjobs, hwin, hbytes, hanswer⟩ := hrest
  have hshow := (Aborts.refl v).showJobs
  have hkeg := (quiet_refl v).showJobs.keg
  rw [heq]
  refine ⟨by rw [State.kegJob, hkeg, hjobs, mget_mdel_self], fun w hw => ?_, hbytes.trans hshow.sameBytes, hanswer.trans hshow.noAnswer⟩
  rw [hkeg, hwin] at hw
  simpa using (List.mem_filter.mp hw).2

theorem jobEnd_unknown (h : Performs s fn.val 0x64 (vf := true)) (job : Word) (hj : s.kegJob job.toNat = none) :
    ∃ t, exec (.jobEnd fn tag job) s = .next t ∧ Answered s t fn.val tag stFAULT 0 ∧ t.keg = s.keg := by
  have hj' : (untake s fn.val tag 0x64).kegJob job.toNat = none := hj
  refine ⟨(untake s fn.val tag 0x64).respond fn.val tag stFAULT 0, ?_, answered_respond rfl .., rfl⟩
  change execJobEnd fn tag job s = _
  rw [execJobEnd, h.command, hj']

/-! ## Remote windows (R517) -/

section
variable {ctx : Fin 1024} {job : Word} {x : Job} (hbound : s.boundTo fn.val ctx.val = true) (hj : s.kegJob job.toNat = some x) (hctx : x.ctx = ctx.val)
include hbound hj hctx

theorem rwinBind_spec (h : Performs s fn.val 0x65 (vf := true)) : ∃ t, exec (.rwinBind fn tag ctx job) s = .next t ∧ Answered s t fn.val tag 0 0 ∧
    (ctx.val, job.toNat) ∈ t.keg.windows ∧ t.regs = s.regs ∧ SameBytes s t := by
  have hj' : (untake s fn.val tag 0x65).kegJob job.toNat = some x := hj
  have hbound' : (untake s fn.val tag 0x65).boundTo fn.val ctx.val = true := hbound
  change ∃ t, execRwinBind fn tag ctx job s = .next t ∧ _
  rw [execRwinBind, h.command, hj', hbound', if_neg (by decide), if_neg (by simp [hctx])]
  split
  · next hin => exact ⟨_, rfl, answered_respond rfl .., List.contains_iff_mem.mp hin, rfl, .of_eq⟩
  · exact ⟨_, rfl, answered_respond rfl .., List.mem_append_right _ List.mem_cons_self, rfl, .of_eq⟩

theorem rwinUnbind_spec (h : Performs s fn.val 0x66 (vf := true)) : ∃ t, exec (.rwinUnbind fn tag ctx job) s = .next t ∧ Answered s t fn.val tag 0 0 ∧
    (ctx.val, job.toNat) ∉ t.keg.windows ∧ t.regs = s.regs ∧ SameBytes s t := by
  have hj' : (untake s fn.val tag 0x66).kegJob job.toNat = some x := hj
  have hbound' : (untake s fn.val tag 0x66).boundTo fn.val ctx.val = true := hbound
  change ∃ t, execRwinUnbind fn tag ctx job s = .next t ∧ _
  rw [execRwinUnbind, h.command, hj', hbound', if_neg (by decide), if_neg (by simp [hctx])]
  refine ⟨_, rfl, answered_respond rfl .., fun hin => ?_, rfl, .of_eq⟩
  exact absurd (List.mem_filter.mp hin).2 (by simp)

end

end

/-! ## ABORT from a member (R515) -/

/-- The engines of dies tell an event and count it. -/
def diesTold (s : State) (ns : List Nat) (bit off : Nat) : State := ns.foldl (fun t n => (t.raise (pgCOL n) bit).count (pgCOL n) off 1) s

theorem raised_diesTold {n bit off : Nat} (hbit : bit < 32) : ∀ (ns : List Nat) (s : State), n ∈ ns ∨ Raised s (pgCOL n) bit →
    Raised (diesTold s ns bit off) (pgCOL n) bit
  | [], _, h => h.resolve_left List.not_mem_nil
  | k :: ns, s, h => by
    refine raised_diesTold hbit ns _ ?_
    by_cases hk : n = k
    · subst hk
      exact .inr (raised_raise s _ _ hbit)
    · exact h.imp (fun hm => (List.mem_cons.mp hm).resolve_left hk) fun hr => (onward_raise s (pgCOL k) bit).events bit hbit hr

theorem enginesStopped_eq (s : State) (dieSet : Nat) : enginesStopped s dieSet = diesTold s (bitsSet dieSet 4) 2 0x05C := rfl

theorem Onward.abortShown {p : Nat} {z s : State} (h : Onward p z s) (heard : Bool) : Onward p z (abortShown s heard) := by
  rw [Sys2Proof.abortShown]
  exact Onward.showJobs (.ite h h.count)

theorem raised_abortJob {s : State} {j : Nat} {x : Job} (hj : s.kegJob j = some x) (hlive : x.aborted = false) (fence heard : Bool) {n : Nat}
    (hn : n ∈ bitsSet x.dieSet 4) : Raised (s.abortJob j fence heard) (pgCOL n) 2 := by
  obtain ⟨quiet, st, heq⟩ := abortJob_of_live hj fence heard hlive
  rw [heq]
  exact ((Onward.refl (pgCOL n) _).abortShown heard).events 2 (by decide) (by rw [enginesStopped_eq]; exact raised_diesTold (by decide) _ _ (.inl hn))

theorem ops_abortJob {s : State} {j : Nat} {x : Job} (hj : s.kegJob j = some x) (hlive : x.aborted = false) (fence heard : Bool) :
    ∀ e ∈ (s.abortJob j fence heard).keg.ops, e.2.job ≠ j := by
  intro e he
  rw [keg_abortJob hj hlive] at he
  simpa using (List.mem_filter.mp he).2

theorem abortReceive_spec {link : Fin 8} {job : Nat} {s : State} {x : Job} (hup : s.linkIsUp link.val = true) (hj : s.kegJob job = some x)
    (hlive : x.aborted = false) : ∃ t, exec (.abortReceive link job) s = .next t ∧
      t.kegJob job = some { x with aborted := true, keys := none, early := [] } ∧ (∀ n ∈ bitsSet x.dieSet 4, Raised t (pgCOL n) 2) ∧
      (∀ e ∈ t.keg.ops, e.2.job ≠ job) ∧ SameBytes s t := by
  refine ⟨s.abortJob job false true, ?_, kegJob_abortJob_self hj hlive .., fun n hn => raised_abortJob hj hlive _ _ hn, ops_abortJob hj hlive false true, ?_⟩
  · change execAbortReceive link job s = _
    rw [execAbortReceive, if_pos hup]
  · exact ((Aborts.refl s).abortJob job false true).sameBytes

/-! ## Remote accesses (R517) -/

/-- What an access of a line has read, and how it went. -/
def lineGiven (s : State) (bs : List Nat) (how : Nat) : State := { s with lp := { s.lp with line := bs, lineHow := how } }

theorem lineGiven_spec (s : State) (bs : List Nat) (how : Nat) : (lineGiven s bs how).lp.line = bs ∧ (lineGiven s bs how).lp.lineHow = how ∧
    (lineGiven s bs how).regs = s.regs ∧ (lineGiven s bs how).msgs = s.msgs ∧ SameBytes s (lineGiven s bs how) := ⟨rfl, rfl, rfl, rfl, .of_eq⟩

/-- An access of no step that fails. -/
theorem remoteFault_eq (s : State) (c va code : Nat) : s.remoteFault c va code none =
    lineGiven (s.ctxEvent c 10 (xltStatus code) code va) (List.replicate 64 0) 3 := by
  rw [State.remoteFault, State.failStep?, lineGiven]

section
variable {ctx : Fin 1024} {va : Nat} {back : RemoteOut} {s : State} (job : Nat) (o : LineOut) (hfar : s.isLocalVa va = false)
include hfar

theorem remoteAccess_unreached (data : Option (List Byte)) (hnone : s.remoteJob ctx.val (bits va 42 6) = none) :
    ∃ t, exec (.remoteAccess false job ctx va data none back o) s = .next t ∧ t.lp.line = List.replicate 64 0 ∧ t.lp.lineHow = 3 ∧
      Raised t (pgCEV ctx.val) 10 ∧ SameBytes s t := by
  have hexec : exec (.remoteAccess false job ctx va data none back o) s = .next (s.remoteFault ctx.val va 1 none) := by
    change execRemoteAccess false job ctx va data none back o s = _
    rw [execRemoteAccess, if_neg (by decide), hfar, if_neg (by decide)]
    dsimp only
    rw [hnone]
  have htold := raised_ctxEvent s ctx.val (xltStatus 1) 1 va (bit := 10) (by decide)
  have hbytes := ((quiet_refl s).ctxEvent ctx.val 10 (xltStatus 1) 1 va).sameBytes
  obtain ⟨hline, hhow, hregs, -, hbytes'⟩ := lineGiven_spec (s.ctxEvent ctx.val 10 (xltStatus 1) 1 va) (List.replicate 64 0) 3
  exact ⟨_, by rw [hexec, remoteFault_eq], hline, hhow, raised_congr hregs htold, hbytes.trans hbytes'⟩

theorem remoteAccess_read {j l : Nat} {x : Job} (hjob : s.remoteJob ctx.val (bits va 42 6) = some (j, x)) (hfree : s.fenced = false)
    (hsilent : s.keg.silent = false) (hlive : x.aborted = false) (hroute : s.route (bits va 42 6) = some l) (hcode : back.code = 0) (hgood : back.bad = false) :
    ∃ t, exec (.remoteAccess false job ctx va none none back o) s = .next t ∧ .keg l 5 [bits va 42 6, va] ∈ t.msgs ∧
      t.lp.line = (List.range 64).map (fun i => (back.data.getD i 0).toNat) ∧ t.lp.lineHow = 0 ∧ SameBytes s t := by
  have hsend : s.kegSend l 5 [bits va 42 6, va] = { s.count (pgKEG l) 0x04C 1 with msgs := .keg l 5 [bits va 42 6, va] :: s.msgs } := by
    rw [State.kegSend, if_neg (by simp [hfree, hsilent])]
  have hexec : exec (.remoteAccess false job ctx va none none back o) s =
      .next (lineGiven (s.kegSend l 5 [bits va 42 6, va]) ((List.range 64).map fun i => (back.data.getD i 0).toNat) 0) := by
    change execRemoteAccess false job ctx va none none back o s = _
    simp only [execRemoteAccess, hfar, hjob, hfree, hlive, hroute, hcode, hgood]
    rfl
  obtain ⟨hline, hhow, -, hmsgs, hbytes⟩ := lineGiven_spec (s.kegSend l 5 [bits va 42 6, va]) ((List.range 64).map fun i => (back.data.getD i 0).toNat) 0
  refine ⟨_, hexec, ?_, hline, hhow, (((quiet_refl s).kegSend ..).sameBytes).trans hbytes⟩
  rw [hmsgs, hsend]
  exact List.mem_cons_self

end

theorem remoteAccess_incoming {job va how : Nat} {ctx : Fin 1024} {back : RemoteOut} {o : LineOut} {s t1 : State} {x : Job} {bs : List Nat}
    (hnear : s.isLocalVa va = true) (hj : s.kegJob job = some x) (hlive : x.aborted = false) (hfree : s.fenced = false)
    (hread : s.ctxRead (s.vaDie x.ctx va) x.ctx va false o none = (t1, bs, how)) :
    exec (.remoteAccess true job ctx va none none back o) s = .next { t1 with msgs := .reply 6 (how :: bs) :: t1.msgs } := by
  change execRemoteAccess true job ctx va none none back o s = _
  simp only [execRemoteAccess, hnear, hj, hlive, hfree, hread]
  rfl

/-- Settles O54, a lemma for each command and each kind of remote access. -/
theorem jobsAndRemoteWindows : Obligations.JobsAndRemoteWindows := by
  unfold Obligations.JobsAndRemoteWindows
  refine ⟨fun fn tag ctx job epoch members dieSet va s h => ⟨fun st hno => jobCreate_refused tag h va hno,
      fun t1 bs hmay hva hread hclean hok => jobCreate_made tag h hmay hva hread hclean hok⟩,
    fun fn tag job s h => ⟨fun x hj hmay hidle => ?_, fun hj => jobEnd_unknown tag h job hj⟩,
    fun fn tag ctx job s x hbound hj hctx => ⟨rwinBind_spec tag hbound hj hctx, rwinUnbind_spec tag hbound hj hctx⟩,
    fun link job s x hup hj hlive => abortReceive_spec hup hj hlive,
    fun job ctx va back o s hfar => ⟨fun data => remoteAccess_unreached job o hfar data, fun j x l => remoteAccess_read job o hfar⟩,
    fun job ctx va back o s t1 x bs how hnear hj hlive hfree hread => remoteAccess_incoming hnear hj hlive hfree hread⟩
  obtain ⟨hgone, hwin, hbytes, hanswer⟩ := removeJob_spec (untake s fn.val tag 0x64) job.toNat
  exact ⟨_, exec_jobEnd tag h job hj hmay hidle, answered_respond (s := s) hanswer.1 .., hgone, hwin, hbytes⟩

end Sys2Proof
end

section
/-! PROOF. O55: collective operations, their records, ends and reruns (R507–R509). -/

namespace Sys2Proof

set_option Elab.async false

open Machine

/-! ## Kernels that end without posting (R134) -/

/-- Nothing changes but the vats, the spiles' messages, registers, counters and messages on their way out. -/
structure KernelsOnly (s t : State) : Prop where
  rest : t = { s with
    regs := t.regs
    ctrs := t.ctrs
    msgs := t.msgs
    freeIdx := t.freeIdx
    vats := t.vats
    spl := t.spl
    host := { s.host with msixPend := t.host.msixPend, heldMsgs := t.host.heldMsgs } }

section
variable {z s t u : State}

theorem KernelsOnly.refl (s : State) : KernelsOnly s s := ⟨rfl⟩
theorem KernelsOnly.trans (h : KernelsOnly s t) (k : KernelsOnly t u) : KernelsOnly s u := ⟨k.rest.trans (by rw [h.rest])⟩
theorem KernelsOnly.steps (h : KernelsOnly s t) : t.steps = s.steps := by rw [h.rest]
theorem KernelsOnly.keg (h : KernelsOnly s t) : t.keg = s.keg := by rw [h.rest]
theorem KernelsOnly.sameBytes (h : KernelsOnly s t) : SameBytes s t := by rw [h.rest]; exact .of_eq

theorem KernelsOnly.ite {c : Prop} [Decidable c] (h : KernelsOnly z s) (k : KernelsOnly z t) : KernelsOnly z (if c then s else t) := by
  split <;> assumption

theorem KernelsOnly.wri (h : KernelsOnly z s) (pg : Nat) (F0 : Field) (i v : Nat) : KernelsOnly z (s.wri pg F0 i v) := h.trans ⟨rfl⟩
theorem KernelsOnly.setCtrs (h : KernelsOnly z s) (cs : AMap Nat) : KernelsOnly z { s with ctrs := cs } := h.trans ⟨rfl⟩
theorem KernelsOnly.setVat (h : KernelsOnly z s) (pg : Nat) (v : Vat) : KernelsOnly z (s.setVat pg v) := h.trans ⟨rfl⟩
theorem KernelsOnly.setSpl (h : KernelsOnly z s) (x : SplSt) : KernelsOnly z { s with spl := x } := h.trans ⟨rfl⟩

theorem Quiet.kernelsOnly (h : Quiet s t) (hn : NoAnswer s t) : KernelsOnly s t := by
  obtain ⟨hs, hh⟩ := h
  obtain ⟨h1, h2, h3⟩ := hn
  rw [h1, h2, h3] at hh
  rw [hh] at hs
  exact ⟨hs.trans (by rw [hs])⟩

theorem noAnswer_ctxEvent (s : State) (c bit st code q : Nat) : NoAnswer s (s.ctxEvent c bit st code q) := ((Aborts.refl s).ctxEvent ..).noAnswer

theorem KernelsOnly.spSend (h : KernelsOnly z s) (port c v : Nat) (op : SpOp) : KernelsOnly z (s.spSend port c v op) := by
  rw [State.spSend]
  split
  · exact h.setSpl _
  · have hfresh : KernelsOnly s { s with freeIdx := s.freeIdx + 1 + 1 } := ⟨rfl⟩
    exact ((h.trans hfresh).trans ((quiet_ctxNoteQ s c 5 v).kernelsOnly (noAnswer_ctxEvent ..))).setCtrs _

theorem KernelsOnly.showRun (h : KernelsOnly z s) (pg : Nat) : KernelsOnly z (s.showRun pg) := by
  rw [State.showRun]
  split
  · exact (((h.wri ..).wri ..).wri ..).wri ..
  · exact ((h.wri ..).wri ..).wri ..

theorem KernelsOnly.restore (h : KernelsOnly z s) (pg : Nat) : KernelsOnly z (s.restore pg) := by
  rw [State.restore]
  dsimp only
  split
  · refine .ite h ?_
    split
    · exact (KernelsOnly.ite ((((((h.setSpl _).setVat ..).wri ..).showRun ..)).setCtrs _) ((((h.setSpl _).setVat ..).wri ..).showRun ..)).spSend ..
    · exact KernelsOnly.ite ((((((h.setSpl _).setVat ..).wri ..).showRun ..)).setCtrs _) ((((h.setSpl _).setVat ..).wri ..).showRun ..)
  · exact h

theorem KernelsOnly.endKernel (h : KernelsOnly z s) (pg : Nat) : KernelsOnly z (s.endKernel pg) := by
  rw [State.endKernel]
  split
  · exact h
  · next k _ =>
    extract_lets v s1 s2
    have h1 : KernelsOnly z s1 := (h.setCtrs _).setVat ..
    have h2 : KernelsOnly z s2 := by
      simp only [s2]
      split
      · exact h1.spSend ..
      · exact h1
    exact (h2.showRun pg).restore pg

/-- What the end of a step's kernels does to one vat. -/
def vatStepEnded (id : Nat) (t : State) (pg : Nat) : State :=
  let t1 := match (t.vat pg).susp with
    | some k => if k.step = id then (t.setVat pg { t.vat pg with susp := none, drain := (t.vat pg).drain ++ k.left }).wr pg F.VAT_RUN_SUSPENDED 0 else t
    | none => t
  match t1.kern pg with
  | some k => if k.step = id then t1.endKernel pg else t1
  | none => t1

theorem endStepKernels_eq (s : State) (id : Nat) : s.endStepKernels id = s.vats.foldl (fun t e => vatStepEnded id t e.1) s := rfl

theorem KernelsOnly.vatStepEnded (h : KernelsOnly z s) (id pg : Nat) : KernelsOnly z (vatStepEnded id s pg) := by
  have h1 : KernelsOnly z (match (s.vat pg).susp with
      | some k => if k.step = id then (s.setVat pg { s.vat pg with susp := none, drain := (s.vat pg).drain ++ k.left }).wr pg F.VAT_RUN_SUSPENDED 0 else s
      | none => s) := by
    split
    · exact .ite ((h.setVat ..).wri ..) h
    · exact h
  rw [Sys2Proof.vatStepEnded]
  dsimp only
  generalize (match (s.vat pg).susp with | some k => _ | none => s) = u at h1 ⊢
  split
  · exact .ite (h1.endKernel pg) h1
  · exact h1

theorem Onward.vatStepEnded {p : Nat} (h : Onward p z s) (id pg : Nat) : Onward p z (vatStepEnded id s pg) := by
  rw [Sys2Proof.vatStepEnded]
  dsimp only
  have h1 : Onward p z (match (s.vat pg).susp with
      | some k => if k.step = id then (s.setVat pg { s.vat pg with susp := none, drain := (s.vat pg).drain ++ k.left }).wr pg F.VAT_RUN_SUSPENDED 0 else s
      | none => s) := by
    split
    · exact .ite h.setVat.wri h
    · exact h
  generalize (match (s.vat pg).susp with | some k => _ | none => s) = u at h1 ⊢
  split
  · exact .ite h1.endKernel h1
  · exact h1

theorem KernelsOnly.endStepKernels (h : KernelsOnly z s) (id : Nat) : KernelsOnly z (s.endStepKernels id) := by
  rw [endStepKernels_eq]
  have hall : ∀ (l : AMap Vat) (u : State), KernelsOnly z u → KernelsOnly z (l.foldl (fun t e => Sys2Proof.vatStepEnded id t e.1) u) := by
    intro l
    induction l with
    | nil => exact fun _ hu => hu
    | cons e l ih => exact fun u hu => ih _ (hu.vatStepEnded ..)
  exact hall s.vats s h

theorem Onward.endStepKernels {p : Nat} (h : Onward p z s) (id : Nat) : Onward p z (s.endStepKernels id) := by
  rw [endStepKernels_eq]
  exact h.foldl fun e _ _ ht => ht.vatStepEnded id e.1

end

/-! ## An operation starts, or is out of order (R507, R508) -/

/-- The take of an operation has been satisfied. -/
def collTaken (s : State) (who : Who) : State := { s with spl := { s.spl with rels := s.spl.rels.filter fun r => r.1 != who } }

theorem settleOp_waits {s : State} {n : Nat} {o o0 : CollOp} {j : Job} (ho : s.collOp n = some o) (hop : o.op = 3) (hshort : o.filled < o.bytes) :
    s.settleOp n o0 j = s := by
  rw [State.settleOp, ho]
  dsimp only
  rw [if_pos]
  refine .inr (.inl ⟨?_, fun hmerge => absurd (hop.symm.trans hmerge.1) (by decide)⟩)
  simpa only [CollOp.target, hop] using hshort

theorem mismatch_spec {s : State} {job : Nat} {j : Job} (die : Nat) (hj : s.kegJob job = some j) (hlive : j.aborted = false) :
    Raised (s.mismatch die job) (pgCOL die) 0 ∧ (s.mismatch die job).kegJob job = some { j with aborted := true, keys := none, early := [] } ∧
    SameBytes s (s.mismatch die job) := by
  have hquiet := (quiet_refl s).raise (pgCOL die) 0
  have htold := raised_raise s (pgCOL die) 0 (by decide)
  have hj' : (s.raise (pgCOL die) 0).kegJob job = some j := by rwa [State.kegJob, hquiet.keg]
  rw [State.mismatch]
  generalize s.raise (pgCOL die) 0 = u at *
  exact ⟨(Onward.refl (pgCOL die) u).abortJob.events 0 (by decide) htold, kegJob_abortJob_self hj' hlive .., hquiet.sameBytes.trans
    ((Aborts.refl u).abortJob ..).sameBytes⟩

section
variable {op heads dim : Nat} {wide : Bool} {s : State} {o : CollOp} {j : Job} (ho : s.collOp op = some o) (hphase : o.phase = 0)
  (hrel : (s.spl.rels.any fun r => r.1 == .coll o.die op) = true) (hj : s.kegJob o.job = some j) (hlive : j.aborted = false)
include ho hphase hrel hj hlive

theorem exec_collOpStart : exec (.collOpStart op heads dim wide) s =
    .next (if o.seq ≠ j.seqs.getD o.die 0 then (collTaken s (.coll o.die op)).mismatch o.die o.job
    else if (3 ≤ o.op ∧ ¬ j.members.contains o.root) then (collTaken s (.coll o.die op)).failStep o.step stFAULT 0
    else (((collTaken s (.coll o.die op)).setOp op { o with phase := 1 }).beginOp op { o with phase := 1 } j heads dim wide).takeEarly op o.job j.early.length
      |>.showJobs) := by
  change execCollOpStart op heads dim wide s = _
  simp only [execCollOpStart, ho, hphase, hrel, hj, hlive]
  rfl

theorem collOpStart_begins (hseq : o.seq = j.seqs.getD o.die 0) (hop : o.op = 3) (hroot : o.root ≠ s.ownIndex) (hmem : j.members.contains o.root = true)
    (hshort : o.filled < o.bytes) (hearly : j.early = []) : ∃ t, exec (.collOpStart op heads dim wide) s = .next t ∧
      t.collOp op = some { o with phase := 1 } ∧ t.spl.rels = (s.spl.rels.filter fun r => r.1 != .coll o.die op) ∧ t.kegJob o.job = some j ∧
      SameBytes s t := by
  have hset : ((collTaken s (.coll o.die op)).setOp op { o with phase := 1 }).collOp op = some { o with phase := 1 } := by
    rw [State.collOp, State.setOp, mget_mput_self]
  have hown : ((collTaken s (.coll o.die op)).setOp op { o with phase := 1 }).ownIndex = s.ownIndex := rfl
  have hjob : ((collTaken s (.coll o.die op)).setOp op { o with phase := 1 }).kegJob o.job = some j := hj
  have hrels : ((collTaken s (.coll o.die op)).setOp op { o with phase := 1 }).spl.rels = s.spl.rels.filter fun r => r.1 != .coll o.die op := rfl
  have hbytes : SameBytes s ((collTaken s (.coll o.die op)).setOp op { o with phase := 1 }) := .of_eq
  rw [exec_collOpStart ho hphase hrel hj hlive, if_neg (not_not.mpr hseq), if_neg fun hno => hno.2 hmem, hearly]
  generalize (collTaken s (.coll o.die op)).setOp op { o with phase := 1 } = u at *
  have hbegin : u.beginOp op { o with phase := 1 } j heads dim wide = u := by
    simp only [State.beginOp, hop, hown, if_neg hroot]
    exact settleOp_waits hset hop hshort
  rw [hbegin]
  have hquiet := (quiet_refl u).showJobs
  refine ⟨u.showJobs, rfl, ?_, ?_, ?_, hbytes.trans hquiet.sameBytes⟩
  · rwa [State.collOp, hquiet.keg]
  · rw [hquiet.spl, hrels]
  · rwa [State.kegJob, hquiet.keg]

theorem collOpStart_mismatch (hseq : o.seq ≠ j.seqs.getD o.die 0) : ∃ t, exec (.collOpStart op heads dim wide) s = .next t ∧
    Raised t (pgCOL o.die) 0 ∧ t.kegJob o.job = some { j with aborted := true, keys := none, early := [] } ∧ SameBytes s t := by
  have hj' : (collTaken s (.coll o.die op)).kegJob o.job = some j := hj
  have hbytes : SameBytes s (collTaken s (.coll o.die op)) := .of_eq
  obtain ⟨htold, hgone, hbytes'⟩ := mismatch_spec o.die hj' hlive
  rw [exec_collOpStart ho hphase hrel hj hlive, if_pos hseq]
  exact ⟨_, rfl, htold, hgone, hbytes.trans hbytes'⟩

end

/-! ## Records from the line (R503, R505, R508) -/

section
variable {link : Fin 8} {bad : Bool} {r : CollRec} {s : State} (hup : s.linkIsUp link.val = true) (hfree : s.fenced = false)
include hup hfree

theorem collRecord_badTag : ∃ t, exec (.collRecordReceive link false bad r) s = .next t ∧ t.kegState link.val = kegDOWN ∧
    Raised t (pgKEG link.val) 4 ∧ SameBytes s t := by
  have hexec : exec (.collRecordReceive link false bad r) s = .next ((s.raise (pgKEG link.val) 4).linkFell link.val) := by
    change execCollRecordReceive link false bad r s = _
    simp only [execCollRecordReceive, hup, hfree]
    rfl
  have htold := raised_raise s (pgKEG link.val) 4 (by decide)
  have hbytes := ((quiet_refl s).raise (pgKEG link.val) 4).sameBytes
  have hstate : (s.raise (pgKEG link.val) 4).kegState link.val = kegUP :=
    (State.rdi_raise_ne s (fkey_ne_on_page _ (by decide))).trans (linkIsUp_iff.mp hup).2
  rw [hexec]
  generalize s.raise (pgKEG link.val) 4 = u at *
  have hfell := linkFell_spec link.isLt hstate
  exact ⟨_, rfl, hfell.down, (Onward.refl _ u).linkFell.events 4 (by decide) htold, hbytes.trans hfell.bytes⟩

theorem collRecord_forwarded {k : Nat} (hdst : r.dst ≠ s.ownIndex) (hhops : r.hops ≠ 0) (hroute : s.route r.dst = some k) (hsilent : s.keg.silent = false) :
    ∃ t, exec (.collRecordReceive link true bad r) s = .next t ∧ .keg k 2 (recLine { r with hops := r.hops - 1 }) ∈ t.msgs ∧
      t.ctr (pgKEG k) 0x068 = s.ctr (pgKEG k) 0x068 + 1 ∧ t = { s with ctrs := t.ctrs, msgs := t.msgs } := by
  have hsend : s.kegSend k 2 (recLine { r with hops := r.hops - 1 }) =
      { s.count (pgKEG k) 0x04C 1 with msgs := .keg k 2 (recLine { r with hops := r.hops - 1 }) :: s.msgs } := by
    rw [State.kegSend, if_neg (by simp [hfree, hsilent])]
  have hexec : exec (.collRecordReceive link true bad r) s =
      .next ((s.kegSend k 2 (recLine { r with hops := r.hops - 1 })).count (pgKEG k) 0x068 1) := by
    change execCollRecordReceive link true bad r s = _
    simp only [execCollRecordReceive, hup, hfree, hhops, hroute, if_pos hdst]
    rfl
  have hctr : (s.kegSend k 2 (recLine { r with hops := r.hops - 1 })).ctr (pgKEG k) 0x068 = s.ctr (pgKEG k) 0x068 := by
    rw [hsend]
    exact State.ctr_count_ne s 1 (pg := pgKEG k) (off := 0x04C) (by omega)
  have hrest : s.kegSend k 2 (recLine { r with hops := r.hops - 1 }) = { s with
      ctrs := (s.kegSend k 2 (recLine { r with hops := r.hops - 1 })).ctrs
      msgs := (s.kegSend k 2 (recLine { r with hops := r.hops - 1 })).msgs } := by
    rw [hsend]
    rfl
  have hmsg : .keg k 2 (recLine { r with hops := r.hops - 1 }) ∈ (s.kegSend k 2 (recLine { r with hops := r.hops - 1 })).msgs := by
    rw [hsend]
    exact List.mem_cons_self
  rw [hexec]
  generalize s.kegSend k 2 (recLine { r with hops := r.hops - 1 }) = u at *
  refine ⟨_, rfl, hmsg, ?_, ?_⟩
  · rw [State.ctr_count_self, hctr]
  · rw [State.count, hrest]

section
variable {j : Job} (hdst : r.dst = s.ownIndex) (hj : s.kegJob r.job = some j) (hlive : j.aborted = false)
include hdst hj hlive

theorem collRecord_early (hseq : r.seq = j.seqs.getD r.die 0) (hnone : ∀ e ∈ s.keg.ops, ¬ (e.2.job = r.job ∧ e.2.seq = r.seq ∧ e.2.die = r.die)) :
    ∃ t, exec (.collRecordReceive link true bad r) s = .next t ∧ t.kegJob r.job = some { j with early := j.early ++ [r] } ∧ t = { s with keg := t.keg } := by
  have hfind : (s.keg.ops.find? fun e => e.2.job == r.job && e.2.seq == r.seq && e.2.die == r.die) = none := by
    rw [List.find?_eq_none]
    intro e he hyes
    simp only [Bool.and_eq_true, beq_iff_eq] at hyes
    exact hnone e he ⟨hyes.1.1, hyes.1.2, hyes.2⟩
  refine ⟨s.setKegJob r.job { j with early := j.early ++ [r] }, ?_, ?_, rfl⟩
  · change execCollRecordReceive link true bad r s = _
    simp only [execCollRecordReceive, hup, hfree, hj, hlive, hfind, if_neg (not_not.mpr hdst), if_neg (not_not.mpr hseq)]
    rfl
  · rw [State.kegJob, State.setKegJob, mget_mput_self]

theorem collRecord_mismatch (hseq : r.seq ≠ j.seqs.getD r.die 0) : ∃ t, exec (.collRecordReceive link true bad r) s = .next t ∧
    Raised t (pgCOL r.die) 0 ∧ t.kegJob r.job = some { j with aborted := true, keys := none, early := [] } ∧ SameBytes s t := by
  obtain ⟨htold, hgone, hbytes⟩ := mismatch_spec r.die hj hlive
  refine ⟨s.mismatch r.die r.job, ?_, htold, hgone, hbytes⟩
  change execCollRecordReceive link true bad r s = _
  simp only [execCollRecordReceive, hup, hfree, hj, hlive, if_neg (not_not.mpr hdst), if_pos hseq]
  rfl

end
end

/-! ## The end of an operation (R508) -/

theorem ctr_ctxEvent_ne (s : State) (c bit st code q : Nat) {pg off : Nat} (h : pg * 4096 + off ≠ pgCEV c * 4096 + 0x04C) (hm : pg * 4096 + off ≠ msgCtr) :
    (s.ctxEvent c bit st code q).ctr pg off = s.ctr pg off := by
  rw [State.ctxEvent]
  dsimp only
  split
  · rw [State.ctr_count_ne _ _ h, ctr_raise _ _ _ hm, ctr_raise _ _ _ hm]
  · rw [ctr_raise _ _ _ hm, State.wr, State.ctr_wri, State.ctr_wri, State.ctr_wri, State.ctr_wri, State.ctr_wri]

/-- A post of a spile that is not mapped counts nowhere in the engines' pages. -/
theorem ctr_spSend_col (s : State) (port c v : Nat) (op : SpOp) (n : Nat) : (s.spSend port c v op).ctr (pgCOL n) 0x04C = s.ctr (pgCOL n) 0x04C := by
  rw [State.spSend]
  split
  · rfl
  · rw [State.ctr_count_ne _ _ (by simp only [pgCOL, pgDIE, pgSPL]; omega)]
    exact ctr_ctxEvent_ne _ _ _ _ _ _ (by simp only [pgCOL, pgDIE, pgCEV]; omega) (by simp only [pgCOL, pgDIE, msgCtr, pgINTAKE]; omega)

theorem collOpDone_spec {op : Nat} {s : State} {o : CollOp} (ho : s.collOp op = some o) (hphase : o.phase = 2) : ∃ t, exec (.collOpDone op) s = .next t ∧
    t.collOp op = none ∧ t.ctr (pgCOL o.die) 0x04C = s.ctr (pgCOL o.die) 0x04C + 1 ∧ SameBytes s t := by
  have hexec : exec (.collOpDone op) s = .next (let u := (s.spSend (1 + o.die) o.ctx o.done (.post 1)).count (pgCOL o.die) 0x04C 1
      ({ u with keg := { u.keg with ops := mdel u.keg.ops op } }).showJobs) := by
    change execCollOpDone op s = _
    simp only [execCollOpDone, ho, hphase]
    rfl
  have hctr : ((s.spSend (1 + o.die) o.ctx o.done (.post 1)).count (pgCOL o.die) 0x04C 1).ctr (pgCOL o.die) 0x04C = s.ctr (pgCOL o.die) 0x04C + 1 := by
    rw [State.ctr_count_self, ctr_spSend_col]
  have hbytes : SameBytes s ((s.spSend (1 + o.die) o.ctx o.done (.post 1)).count (pgCOL o.die) 0x04C 1) :=
    (((KernelsOnly.refl s).spSend ..).setCtrs _).sameBytes
  rw [hexec]
  generalize (s.spSend (1 + o.die) o.ctx o.done (.post 1)).count (pgCOL o.die) 0x04C 1 = u at *
  have hquiet := (quiet_refl { u with keg := { u.keg with ops := mdel u.keg.ops op } }).showJobs
  have hregs : RegsOnly { u with keg := { u.keg with ops := mdel u.keg.ops op } } { u with keg := { u.keg with ops := mdel u.keg.ops op } }.showJobs :=
    (RegsOnly.foldl (fun t l => (regsOnly_refl t).wr ..) _ _).trans (RegsOnly.foldl (fun t l => ((regsOnly_refl t).wr ..).wr ..) _ _)
  refine ⟨_, rfl, ?_, ?_, hbytes.trans ((SameBytes.of_eq : SameBytes u _).trans hquiet.sameBytes)⟩
  · rw [State.collOp, hquiet.keg, mget_mdel_self]
  · rw [State.ctr, hregs.ctrs]
    exact hctr

/-! ## RERUN from a member (R509) -/

theorem quiet_diesTold (z : State) (ns : List Nat) (bit off : Nat) : Quiet z (diesTold z ns bit off) :=
  Quiet.foldl (fun _ _ ht => (ht.raise ..).count ..) _ (quiet_refl z)

theorem drainStep_keeps (s : State) (id : Nat) : (s.drainStep id).keg = s.keg ∧ SameBytes s (s.drainStep id) := by
  have hkernels := (KernelsOnly.refl s).endStepKernels id
  rw [State.drainStep]
  split
  · exact ⟨rfl, .of_eq⟩
  · split
    · exact ⟨rfl, .of_eq⟩
    · exact ⟨hkernels.keg, hkernels.sameBytes.trans .of_eq⟩

section
variable {link : Fin 8} {job seq id : Nat} {s : State} {j : Job} {st : Step} (hup : s.linkIsUp link.val = true) (hj : s.kegJob job = some j)
  (hlive : j.aborted = false) (hstep : s.stepOfColl job seq = some id) (hst : s.step1 id = some st)
include hup hj hlive hstep hst

theorem exec_rerunReceive : exec (.rerunReceive link job seq) s =
    .next ((if 1 ≤ st.reruns then (diesTold s (bitsSet j.dieSet 4) 1 0x058).abortJob job
      else (diesTold s (bitsSet j.dieSet 4) 1 0x058).setStep id { st with reruns := 1 }).drainStep id) := by
  change execRerunReceive link job seq s = _
  rw [execRerunReceive, if_neg (by simp [hup, hj, hlive])]
  simp only [hstep, State.noteRerun, hst, hj]
  rfl

theorem rerunReceive_first (hfirst : st.reruns = 0) (hruns : st.status = 0) : ∃ t, exec (.rerunReceive link job seq) s = .next t ∧
    t.step1 id = some { st with reruns := 1, draining := true } ∧ (∀ n ∈ bitsSet j.dieSet 4, Raised t (pgCOL n) 1) ∧ SameBytes s t := by
  have htold : ∀ n ∈ bitsSet j.dieSet 4, Raised (diesTold s (bitsSet j.dieSet 4) 1 0x058) (pgCOL n) 1 := fun n hn =>
    raised_diesTold (by decide) _ _ (.inl hn)
  have hbytes := (quiet_diesTold s (bitsSet j.dieSet 4) 1 0x058).sameBytes
  rw [exec_rerunReceive hup hj hlive hstep hst, if_neg (by omega)]
  generalize diesTold s (bitsSet j.dieSet 4) 1 0x058 = u at *
  have hst' : (u.setStep id { st with reruns := 1 }).step1 id = some { st with reruns := 1 } := mget_mput_self ..
  have hkernels := (KernelsOnly.refl (u.setStep id { st with reruns := 1 })).endStepKernels id
  rw [State.drainStep, hst']
  dsimp only
  rw [if_neg (not_not.mpr hruns)]
  refine ⟨_, rfl, ?_, fun n hn => ?_, hbytes.trans ((SameBytes.of_eq : SameBytes u _).trans (hkernels.sameBytes.trans .of_eq))⟩
  · rw [State.step1, State.modStep, mget_mmod_self, hkernels.steps]
    exact congrArg (Option.map _) hst'
  · exact (((Onward.refl (pgCOL n) u).of (t := u.setStep id { st with reruns := 1 })).endStepKernels id).of.events 1 (by decide) (htold n hn)

theorem rerunReceive_second (hsecond : 1 ≤ st.reruns) : ∃ t, exec (.rerunReceive link job seq) s = .next t ∧
    t.kegJob job = some { j with aborted := true, keys := none, early := [] } ∧ SameBytes s t := by
  have hj' : (diesTold s (bitsSet j.dieSet 4) 1 0x058).kegJob job = some j := by rwa [State.kegJob, (quiet_diesTold ..).keg]
  have hbytes := (quiet_diesTold s (bitsSet j.dieSet 4) 1 0x058).sameBytes
  rw [exec_rerunReceive hup hj hlive hstep hst, if_pos hsecond]
  generalize diesTold s (bitsSet j.dieSet 4) 1 0x058 = u at *
  have hgone := kegJob_abortJob_self hj' hlive
  have haborts : Aborts u (u.abortJob job) := (Aborts.refl u).abortJob ..
  obtain ⟨hkeg, hdrained⟩ := drainStep_keeps (u.abortJob job) id
  exact ⟨_, rfl, by rw [State.kegJob, hkeg]; exact hgone .., hbytes.trans (haborts.sameBytes.trans hdrained)⟩

end

/-- Settles O55: the armed operation, the four fates of a record, the end of an operation, and the first and the second RERUN. -/
theorem collectiveOperations : Obligations.CollectiveOperations := by
  unfold Obligations.CollectiveOperations
  exact ⟨fun _ _ _ _ _ _ _ ho hphase hrel hj hlive => ⟨collOpStart_begins ho hphase hrel hj hlive, collOpStart_mismatch ho hphase hrel hj hlive⟩,
    fun _ _ _ _ hup hfree => ⟨collRecord_badTag hup hfree, fun _ => collRecord_forwarded hup hfree, fun _ hdst hj hlive =>
      ⟨collRecord_early hup hfree hdst hj hlive, collRecord_mismatch hup hfree hdst hj hlive⟩⟩,
    fun _ _ _ => collOpDone_spec,
    fun _ _ _ _ _ _ _ hup hj hlive hstep hst => ⟨rerunReceive_first hup hj hlive hstep hst, rerunReceive_second hup hj hlive hstep hst⟩⟩

end Sys2Proof
end

section
/-! PROOF. O49: CTX_BIND and CTX_UNBIND (R478, R482). -/

namespace Sys2Proof

set_option Elab.async false

open Machine

/-! ## A context in a slot of a window -/

/-- What CTX_BIND writes: the slot of the window, and the function in the context's entry. -/
def slotTaken (s : State) (func slot c : Nat) : State :=
  ((s.wri (pgWIN func) F.WIN_SLOT_VALID slot 1).wri (pgWIN func) F.WIN_SLOT_CTX slot c).setCtxField F.CTXS_ENTRY_FUNC c func

theorem slotValid_slotTaken (s : State) (func slot c : Nat) : (slotTaken s func slot c).rdi (pgWIN func) F.WIN_SLOT_VALID slot = 1 := by
  rw [slotTaken, State.setCtxField, State.rdi_wri_ne, State.rdi_wri_ne, State.rdi_wri_self]
  · rfl
  · simp only [fkey, F.WIN_SLOT_VALID, F.WIN_SLOT_CTX]
    omega
  · simp only [fkey, ctxsPage, pgWIN, pgCTXS0, pgCTXS1, F.WIN_SLOT_VALID, F.CTXS_ENTRY_FUNC]
    split <;> omega

theorem slotCtx_slotTaken (s : State) (func slot : Nat) {c : Nat} (hc : c < 1024) : (slotTaken s func slot c).rdi (pgWIN func) F.WIN_SLOT_CTX slot = c := by
  rw [slotTaken, State.setCtxField, State.rdi_wri_ne, State.rdi_wri_self]
  · exact Nat.mod_eq_of_lt hc
  · simp only [fkey, ctxsPage, pgWIN, pgCTXS0, pgCTXS1, F.WIN_SLOT_CTX, F.CTXS_ENTRY_FUNC]
    split <;> omega

theorem ctxFunc_slotTaken (s : State) {func : Nat} (slot c : Nat) (hfunc : func < 32) : (slotTaken s func slot c).ctxField F.CTXS_ENTRY_FUNC c = func := by
  rw [slotTaken, State.setCtxField, State.ctxField, State.rdi_wri_self]
  exact Nat.mod_eq_of_lt hfunc

theorem boundTo_of_slot {s : State} {f c k : Nat} (hk : k < 64) (hvalid : s.rdi (pgWIN f) F.WIN_SLOT_VALID k = 1)
    (hctx : s.rdi (pgWIN f) F.WIN_SLOT_CTX k = c) : s.boundTo f c = true := by
  rw [State.boundTo, State.slotOf, List.find?_isSome]
  exact ⟨k, List.mem_range.mpr hk, by simp [hvalid, hctx]⟩

theorem slotOf_lt {s : State} {f c k : Nat} (h : s.slotOf f c = some k) : k < 64 := List.mem_range.mp (List.mem_of_find?_eq_some h)

theorem ctxFn_of_func {s : State} {f c : Nat} (hfunc : s.ctxField F.CTXS_ENTRY_FUNC c = f) (hbound : s.boundTo f c = true) : s.ctxFn c = some f := by
  rw [State.ctxFn, hfunc, if_pos hbound]

/-! ## CTX_BIND -/

theorem ctxOpen_iff {s : State} {c : Nat} : s.ctxOpen c = true ↔ s.ctxState c = ctxOPENED ∨ s.ctxState c = ctxLIVE := by
  simp [State.ctxOpen]

section
variable {fn : Fin 32} {tag : Nat} {ctx : Fin 1024} {func slot : Nat} {s : State} (hp : Performs s fn.val 0x03)
include hp

theorem ctxBind_notOpen (h1 : s.ctxState ctx.val ≠ ctxOPENED) (h2 : s.ctxState ctx.val ≠ ctxLIVE) :
    ∃ t, exec (.ctxBind fn tag ctx func slot) s = .next t ∧ Answered s t fn.val tag stDENIED 0 ∧ t.regs = s.regs := by
  have hclosed : (untake s fn.val tag 0x03).ctxOpen ctx.val = false := by
    rw [← Bool.not_eq_true, ctxOpen_iff, not_or]
    exact ⟨h1, h2⟩
  refine ⟨(untake s fn.val tag 0x03).respond fn.val tag stDENIED 0, ?_, answered_respond rfl .., rfl⟩
  change Host.Outcome.next _ = _
  rw [hp.command, hclosed]
  rfl

variable (hopen : s.ctxState ctx.val = ctxOPENED ∨ s.ctxState ctx.val = ctxLIVE) (hfunc : func < 32) (hslot : slot < 64)
include hopen

theorem exec_ctxBind : exec (.ctxBind fn tag ctx func slot) s =
    .next (let u := untake s fn.val tag 0x03
      if 32 ≤ func ∨ 64 ≤ slot ∨ s.rdi (pgWIN func) F.WIN_SLOT_VALID slot = 1 ∨ (s.ctxFn ctx.val).isSome then u.respond fn.val tag stFAULT 0
      else (u.edges (slotTaken u func slot ctx.val)).respond fn.val tag stCOMPLETE 0) := by
  have hopen' : (untake s fn.val tag 0x03).ctxOpen ctx.val = true := ctxOpen_iff.mpr hopen
  change Host.Outcome.next _ = _
  rw [hp.command, hopen']
  rfl

theorem ctxBind_taken (htaken : s.rdi (pgWIN func) F.WIN_SLOT_VALID slot = 1 ∨ ∃ g, s.ctxFn ctx.val = some g) :
    ∃ t, exec (.ctxBind fn tag ctx func slot) s = .next t ∧ Answered s t fn.val tag stFAULT 0 ∧ t.regs = s.regs := by
  rw [exec_ctxBind hp hopen, if_pos (.inr (.inr (htaken.imp_right Option.isSome_iff_exists.mpr)))]
  exact ⟨_, rfl, answered_respond rfl .., rfl⟩

include hfunc hslot

theorem ctxBind_binds (hfree : s.rdi (pgWIN func) F.WIN_SLOT_VALID slot ≠ 1) (hloose : s.ctxFn ctx.val = none) :
    ∃ t, exec (.ctxBind fn tag ctx func slot) s = .next t ∧ Answered s t fn.val tag 0 0 ∧ t.rdi (pgWIN func) F.WIN_SLOT_VALID slot = 1 ∧
      t.rdi (pgWIN func) F.WIN_SLOT_CTX slot = ctx.val ∧ t.ctxField F.CTXS_ENTRY_FUNC ctx.val = func ∧ t.ctxFn ctx.val = some func ∧ SameBytes s t := by
  have hvalid := slotValid_slotTaken (untake s fn.val tag 0x03) func slot ctx.val
  have hctx := slotCtx_slotTaken (untake s fn.val tag 0x03) func slot ctx.isLt
  have hentry := ctxFunc_slotTaken (untake s fn.val tag 0x03) slot ctx.val hfunc
  have hresps : (slotTaken (untake s fn.val tag 0x03) func slot ctx.val).host.resps = s.host.resps := rfl
  have hbytes : SameBytes s (slotTaken (untake s fn.val tag 0x03) func slot ctx.val) := .of_eq
  rw [exec_ctxBind hp hopen, if_neg (by simp [hloose, hfree, hfunc, hslot])]
  generalize untake s fn.val tag 0x03 = u at *
  generalize slotTaken u func slot ctx.val = w at *
  have hquiet := (quiet_refl w).edges u
  have hsent := (noAnswer_edges u w).1
  have hregs := State.edges_regs u w
  have hvar := State.edges_variant u w
  generalize State.edges u w = v at *
  have hkeep : ∀ pg F0 i, (v.respond fn.val tag stCOMPLETE 0).rdi pg F0 i = w.rdi pg F0 i := State.rdi_congr (s := w) hregs hvar
  have hvalid' := (hkeep ..).trans hvalid
  have hctx' := (hkeep ..).trans hctx
  have hentry' : (v.respond fn.val tag stCOMPLETE 0).ctxField F.CTXS_ENTRY_FUNC ctx.val = func := (hkeep ..).trans hentry
  exact ⟨_, rfl, answered_respond (hsent.trans hresps) .., hvalid', hctx', hentry', ctxFn_of_func hentry' (boundTo_of_slot hslot hvalid' hctx'),
    hbytes.trans (hquiet.sameBytes.trans .of_eq)⟩

end

/-! ## CTX_UNBIND -/

/-- What CTX_UNBIND writes. -/
def slotLeft (s : State) (f k c : Nat) : State :=
  ((s.wri (pgWIN f) F.WIN_SLOT_VALID k 0).wri (pgWIN f) F.WIN_SLOT_CTX k 0).setCtxField F.CTXS_ENTRY_FUNC c 0

theorem unbind_of_bound {s : State} {c f k : Nat} (hf : s.ctxFn c = some f) (hk : s.slotOf f c = some k) : s.unbind c = slotLeft s f k c := by
  simp only [State.unbind, hf, hk, slotLeft]

theorem slotLeft_regs (s : State) (f k c : Nat) : RegsOnly s (slotLeft s f k c) := (((regsOnly_refl s).wri ..).wri ..).wri ..

theorem slotValid_slotLeft (s : State) (f k c : Nat) :
    (slotLeft s f k c).rdi (pgWIN f) F.WIN_SLOT_VALID k = 0 := by
  rw [slotLeft, State.setCtxField, State.rdi_wri_ne, State.rdi_wri_ne, State.rdi_wri_self]
  · rfl
  · simp only [fkey, F.WIN_SLOT_VALID, F.WIN_SLOT_CTX]
    omega
  · simp only [fkey, ctxsPage, pgWIN, pgCTXS0, pgCTXS1, F.WIN_SLOT_VALID, F.CTXS_ENTRY_FUNC]
    split <;> omega

/-- The three pages of a slot that is not valid are absent (R50). -/
theorem target_slotPage {s : State} {f : Fin 32} {k : Nat} (hk : k < 64) (hfree : s.rdi (pgWIN f.val) F.WIN_SLOT_VALID k = 0) {j o : Nat} (hj : j < 3)
    (ho : o < 4096) : s.target { fn := f, bar2 := true, off := (4 + 3 * k + j) * 4096 + o } = .absent := by
  have hpage : ((4 + 3 * k + j) * 4096 + o) / 4096 % 256 = 4 + 3 * k + j := by omega
  have hslot : (4 + 3 * k + j - 4) / 3 = k := by omega
  rw [State.target]
  split
  · rfl
  · split
    · rfl
    · simp only [Bool.not_true, Bool.false_eq_true, if_false, hpage, hslot, hfree]
      rw [if_neg (by omega), if_neg (by omega), if_pos (by omega), if_neg (by omega)]

section
variable {fn : Fin 32} {tag : Nat} {ctx : Fin 1024} {s : State} (hp : Performs s fn.val 0x04)
include hp

theorem exec_ctxUnbind : exec (.ctxUnbind fn tag ctx) s =
    .next (let u := untake s fn.val tag 0x04
      if s.host.rings.any fun e => ringCtx e.1 == ctx.val then u.respond fn.val tag stFAULT 0 else (u.unbind ctx.val).respond fn.val tag stCOMPLETE 0) := by
  change Host.Outcome.next _ = _
  rw [hp.command]
  rfl

theorem ctxUnbind_unbinds (hloose : ∀ e ∈ s.host.rings, ringCtx e.1 ≠ ctx.val) (f : Fin 32) (k : Nat) (hf : s.ctxFn ctx.val = some f.val)
    (hk : s.slotOf f.val ctx.val = some k) : ∃ t, exec (.ctxUnbind fn tag ctx) s = .next t ∧ Answered s t fn.val tag 0 0 ∧
      t.rdi (pgWIN f.val) F.WIN_SLOT_VALID k = 0 ∧
      (∀ j o, j < 3 → o < 4096 → t.target { fn := f, bar2 := true, off := (4 + 3 * k + j) * 4096 + o } = .absent) ∧ SameBytes s t := by
  have hunbind : (untake s fn.val tag 0x04).unbind ctx.val = slotLeft (untake s fn.val tag 0x04) f.val k ctx.val := unbind_of_bound hf hk
  have hlt := slotOf_lt hk
  have hfree := slotValid_slotLeft (untake s fn.val tag 0x04) f.val k ctx.val
  have hregs := slotLeft_regs (untake s fn.val tag 0x04) f.val k ctx.val
  have hresps : (untake s fn.val tag 0x04).host.resps = s.host.resps := rfl
  have hbytes : SameBytes s (untake s fn.val tag 0x04) := .of_eq
  rw [exec_ctxUnbind hp, if_neg (by simpa using hloose), hunbind]
  generalize untake s fn.val tag 0x04 = u at *
  generalize slotLeft u f.val k ctx.val = v at *
  have hfree' : (v.respond fn.val tag stCOMPLETE 0).rdi (pgWIN f.val) F.WIN_SLOT_VALID k = 0 := hfree
  exact ⟨_, rfl, answered_respond (hregs.resps.trans hresps) .., hfree', fun j o => target_slotPage hlt hfree', hbytes.trans (hregs.sameBytes.trans .of_eq)⟩

theorem ctxUnbind_ringLeft (hring : ∃ e ∈ s.host.rings, ringCtx e.1 = ctx.val) :
    ∃ t, exec (.ctxUnbind fn tag ctx) s = .next t ∧ Answered s t fn.val tag stFAULT 0 ∧ t.regs = s.regs := by
  rw [exec_ctxUnbind hp, if_pos (by simpa using hring)]
  exact ⟨_, rfl, answered_respond rfl .., rfl⟩

end

/-- A command that the table of R482 keeps from a VF is denied to it. -/
theorem command_deniedVf {s : State} {fn op : Nat} {vf : Bool} (hready : s.ready = true) (hfree : s.holding fn = false) (hfn : fn ≠ 0) (hvf : vf = false)
    (tag : Nat) (body : State → State) : s.command fn tag op body vf = (untake s fn tag op).respond fn tag stDENIED 0 := by
  rw [State.command, hready, hfree, if_neg (by decide)]
  dsimp only
  rw [if_pos ⟨hfn, hvf⟩]
  rfl

/-- Settles O49: the refusals of CTX_BIND and the slot that it takes, CTX_UNBIND, and the VF that is denied both. -/
theorem contextBinding : Obligations.ContextBinding := by
  unfold Obligations.ContextBinding
  refine ⟨fun _ _ _ _ _ _ hp => ⟨ctxBind_notOpen hp, fun hopen => ⟨fun _ _ => ctxBind_taken hp hopen, ctxBind_binds hp hopen⟩⟩,
    fun _ _ _ _ hp => ⟨ctxUnbind_unbinds hp, ctxUnbind_ringLeft hp⟩, fun fn tag ctx func slot s hready hfree hfn => ⟨?_, ?_⟩⟩
  · refine ⟨(untake s fn.val tag 0x03).respond fn.val tag stDENIED 0, ?_, answered_respond rfl .., rfl⟩
    exact congrArg Host.Outcome.next (command_deniedVf hready hfree hfn rfl ..)
  · refine ⟨(untake s fn.val tag 0x04).respond fn.val tag stDENIED 0, ?_, answered_respond rfl .., rfl⟩
    exact congrArg Host.Outcome.next (command_deniedVf hready hfree hfn rfl ..)

end Sys2Proof
end

section
/-! PROOF. O50: command rings (R481, R485). -/

namespace Sys2Proof

set_option Elab.async false

open Machine

/-! ## Numbers in a byte store -/

theorem bget_bputLE (m : AMap Byte) (a v n x : Nat) (h : x < a ∨ a + n ≤ x) : bget (bputLE m a v n) x = bget m x := by
  induction n generalizing m a v with
  | zero => rfl
  | succ n ih => rw [bputLE, ih _ _ _ (by omega), bget_bput_ne _ _ (by omega)]

theorem bgetLE_bputLE (m : AMap Byte) (a v n : Nat) : bgetLE (bputLE m a v n) a n = v % 256 ^ n := by
  induction n generalizing m a v with
  | zero => rw [bgetLE, Nat.pow_zero, Nat.mod_one]
  | succ n ih =>
    rw [bputLE, bgetLE, ih, bget_bputLE _ _ _ _ _ (.inl (Nat.lt_succ_self a)), bget_bput_self, Nat.pow_succ', Nat.mod_mul, BitVec.toNat_ofNat]

theorem bgetLE_lt (m : AMap Byte) (a n : Nat) : bgetLE m a n < 256 ^ n := by
  induction n generalizing a with
  | zero => exact Nat.one_pos
  | succ n ih =>
    have hbyte := (bget m a).isLt
    have hrest := ih (a + 1)
    rw [bgetLE, Nat.pow_succ']
    omega

/-! ## RING_CREATE and RING_DESTROY (R485) -/

theorem showRings_regs (s : State) : RegsOnly s s.showRings := (((regsOnly_refl s).wr ..).wr ..).wr ..

/-- A command that leaves the rings as `rs`, and the page showing it. -/
theorem showRings_respond (s : State) (rs : AMap Ring) (fn tag st r : Nat) :
    ∃ t, (({ s with host := { s.host with rings := rs } }).showRings).respond fn tag st r = t ∧ (∀ i, t.ring i = mget rs i) ∧ Answered s t fn tag st r ∧
      SameBytes s t := by
  have hregs := showRings_regs { s with host := { s.host with rings := rs } }
  refine ⟨_, rfl, fun i => ?_, answered_respond hregs.resps .., (SameBytes.of_eq : SameBytes s { s with host := { s.host with rings := rs } }).trans
    (hregs.sameBytes.trans .of_eq)⟩
  exact congrArg (fun h : HostSt => mget h.rings i) hregs.host

section
variable {fn : Fin 32} {tag : Nat} {ctx : Fin 1024} {num addr log2 cq vec ithresh itimeUs : Nat} {s : State}

/-- The ring that RING_CREATE makes. -/
def ringMade (s : State) (fn num addr log2 cq vec ithresh itimeUs : Nat) : Ring :=
  if num < 4 then { fn := fn, addr := addr, log2 := log2, cq := cq, idx := s.hostRead (addr + 32) 4, peer := s.hostRead (addr + 32) 4 }
  else { fn := fn, addr := addr, log2 := log2, vec := vec, ithresh := ithresh, itimeUs := itimeUs, idx := s.hostRead addr 4, peer := s.hostRead (addr + 32) 4 }

theorem exec_ringCreate (hp : Performs s fn.val 0x38) (hbound : s.boundTo fn.val ctx.val = true)
    (hok : ¬(8 ≤ num ∨ (s.ring (ctx.val * 8 + num)).isSome ∨ log2 < 6 ∨ 16 < log2 ∨ addr % 64 ≠ 0 ∨
      (num < 4 ∧ (cq < 4 ∨ 8 ≤ cq ∨ (s.ring (ctx.val * 8 + cq)).isNone)) ∨
      (4 ≤ num ∧ (vec = 0 ∨ (fn.val = 0 ∧ vec = 1) ∨ vectorsOf fn.val ≤ vec ∨ ithresh < 1 ∨ 255 < ithresh ∨ 1000 < itimeUs)))) :
    exec (.ringCreate fn tag ctx num addr log2 cq vec ithresh itimeUs) s =
      .next ((((untake s fn.val tag 0x38).setRing (ctx.val * 8 + num) (ringMade s fn.val num addr log2 cq vec ithresh itimeUs)).showRings).respond
        fn.val tag stCOMPLETE num) := by
  have hbound' : (untake s fn.val tag 0x38).boundTo fn.val ctx.val = true := hbound
  change Host.Outcome.next _ = _
  rw [hp.command, hbound']
  refine congrArg Host.Outcome.next ?_
  dsimp only
  exact if_neg hok

theorem ringCreate_makes (hp : Performs s fn.val 0x38) (hbound : s.boundTo fn.val ctx.val = true)
    (hok : ¬(8 ≤ num ∨ (s.ring (ctx.val * 8 + num)).isSome ∨ log2 < 6 ∨ 16 < log2 ∨ addr % 64 ≠ 0 ∨
      (num < 4 ∧ (cq < 4 ∨ 8 ≤ cq ∨ (s.ring (ctx.val * 8 + cq)).isNone)) ∨
      (4 ≤ num ∧ (vec = 0 ∨ (fn.val = 0 ∧ vec = 1) ∨ vectorsOf fn.val ≤ vec ∨ ithresh < 1 ∨ 255 < ithresh ∨ 1000 < itimeUs)))) :
    ∃ t, exec (.ringCreate fn tag ctx num addr log2 cq vec ithresh itimeUs) s = .next t ∧ Answered s t fn.val tag 0 num ∧
      t.ring (ctx.val * 8 + num) = some (ringMade s fn.val num addr log2 cq vec ithresh itimeUs) ∧
      (∀ i, i ≠ ctx.val * 8 + num → t.ring i = s.ring i) ∧ SameBytes s t := by
  obtain ⟨t, ht, hring, hanswer, hbytes⟩ := showRings_respond (untake s fn.val tag 0x38)
    (mput s.host.rings (ctx.val * 8 + num) (ringMade s fn.val num addr log2 cq vec ithresh itimeUs)) fn.val tag stCOMPLETE num
  refine ⟨t, (exec_ringCreate hp hbound hok).trans (congrArg Host.Outcome.next ht), hanswer, ?_, fun i hi => ?_,
    (SameBytes.of_eq : SameBytes s (untake s fn.val tag 0x38)).trans hbytes⟩
  · rw [hring, mget_mput_self]
  · rw [hring, mget_mput_ne _ _ hi, State.ring]

theorem ringDestroy_unmakes (hp : Performs s fn.val 0x39) (hbound : s.boundTo fn.val ctx.val = true) (hnum : num < 8)
    (hring : (s.ring (ctx.val * 8 + num)).isSome = true) (hfree : 4 ≤ num → s.ringNamed (ctx.val * 8 + num) = false) :
    ∃ t, exec (.ringDestroy fn tag ctx num) s = .next t ∧ Answered s t fn.val tag 0 0 ∧ t.ring (ctx.val * 8 + num) = none ∧
      (∀ i, i ≠ ctx.val * 8 + num → t.ring i = s.ring i) ∧ SameBytes s t := by
  have hexec : exec (.ringDestroy fn tag ctx num) s = .next ((({ untake s fn.val tag 0x39 with
      host := { (untake s fn.val tag 0x39).host with rings := mdel s.host.rings (ctx.val * 8 + num) } }).showRings).respond fn.val tag stCOMPLETE 0) := by
    have hbound' : (untake s fn.val tag 0x39).boundTo fn.val ctx.val = true := hbound
    have hok : ¬(8 ≤ num ∨ (s.ring (ctx.val * 8 + num)).isNone ∨ (4 ≤ num ∧ s.ringNamed (ctx.val * 8 + num))) := by
      rintro (h8 | hnone | ⟨h4, hnamed⟩)
      · omega
      · simp_all
      · exact absurd hnamed (by simp [hfree h4])
    change Host.Outcome.next _ = _
    rw [hp.command, hbound']
    exact congrArg Host.Outcome.next (if_neg hok)
  obtain ⟨t, ht, hrings, hanswer, hbytes⟩ := showRings_respond (untake s fn.val tag 0x39) (mdel s.host.rings (ctx.val * 8 + num)) fn.val tag stCOMPLETE 0
  refine ⟨t, hexec.trans (congrArg Host.Outcome.next ht), hanswer, ?_, fun i hi => ?_,
    (SameBytes.of_eq : SameBytes s (untake s fn.val tag 0x39)).trans hbytes⟩
  · rw [hrings, mget_mdel_self]
  · rw [hrings, mget_mdel_ne _ hi, State.ring]

end

/-! ## The poll of a command ring (R481) -/

/-- Nothing changes but the commands taken and the responses that wait. -/
def Settled (s t : State) : Prop := t = { s with host := { s.host with taken := t.host.taken, resps := t.host.resps } }

theorem settleBad_settled (fn n : Nat) (s : State) : Settled s (s.settleBad fn n) := by
  induction n generalizing s with
  | zero => rfl
  | succ n ih =>
    rw [State.settleBad]
    split
    · rfl
    · split
      · split
        · exact (ih _).trans rfl
        · rfl
      · rfl

/-- With no malformed entry among the function's commands there is nothing to settle. -/
theorem settleBad_good {fn : Nat} {s : State} (h : ∀ e ∈ s.host.taken, e.1 = fn → e.2.2 ≠ opBad) : ∀ n, s.settleBad fn n = s
  | 0 => rfl
  | n + 1 => by
    rw [State.settleBad]
    split
    · rfl
    · split
      · next hfind => exact if_neg (h _ (List.mem_of_find?_eq_some hfind) (by simpa using List.find?_some hfind))
      · rfl

/-- The next poll of a function's command ring is due after `HOST.POLL_US`. -/
def pollNoted (s : State) (f : Nat) : State :=
  { s with host := { s.host with pollClk := nput s.host.pollClk f (s.now + clkUs * s.rd pgHOST F.HOST_POLL_US) } }

/-- The command of an entry of the ring, as it is taken. -/
def entryCommand (s : State) (f a : Nat) : Nat × Nat × Nat :=
  (f, s.hostRead (a + 4) 4, if !knownOp (s.hostRead a 2) || s.hostRead (a + 2) 2 != 0 || s.hostRead (a + 8) 8 != 0 then opBad else s.hostRead a 2)

/-- The address of the `i`th entry that the function has not been taken from. -/
def entryAddr (s : State) (f i : Nat) : Nat := s.cmdBase f + 64 + 64 * ((nget s.host.cmdCons f + i) % 2 ^ 32 % s.cmdSize f)

/-- The commands of `n` entries are taken, and the indexes are at `p`. -/
def commandsTaken (s : State) (f n p : Nat) : State :=
  { s with host := { s.host with
      cmdProd := nput s.host.cmdProd f p
      cmdCons := nput s.host.cmdCons f p
      taken := s.host.taken ++ (List.range n).map fun i => entryCommand s f (entryAddr s f i) } }

/-- The command ring of a function is FAULTED. -/
def ringFaulted (s : State) (f : Nat) : State := { s with host := { s.host with cmdFault := nput s.host.cmdFault f 1 } }

theorem pollNoted_cmdBase (s : State) (f : Nat) : (pollNoted s f).cmdBase f = s.cmdBase f := rfl
theorem pollNoted_cmdSize (s : State) (f : Nat) : (pollNoted s f).cmdSize f = s.cmdSize f := rfl
theorem pollNoted_hostRead (s : State) (f a n : Nat) : (pollNoted s f).hostRead a n = s.hostRead a n := rfl
theorem pollNoted_cmdProd (s : State) (f : Nat) : (pollNoted s f).host.cmdProd = s.host.cmdProd := rfl
theorem pollNoted_cmdCons (s : State) (f : Nat) : (pollNoted s f).host.cmdCons = s.host.cmdCons := rfl

theorem commandsTaken_pollNoted (s : State) (f n p : Nat) : (commandsTaken (pollNoted s f) f n p).host.taken =
    s.host.taken ++ (List.range n).map fun i => entryCommand s f (entryAddr s f i) := rfl

section
variable {fn : Fin 32} {s : State} (hready : s.ready = true) (hup : s.linkUp = true) (hen : s.on (pgWIN fn.val) F.WIN_CMDQ_EN = true)
  (hsound : nget s.host.cmdFault fn.val = 0) (hdue : nget s.host.pollClk fn.val ≤ s.now)
include hready hup hen hsound hdue

theorem exec_cmdRingPoll (ok : Bool) : exec (.cmdRingPoll fn ok) s = .next (
    let f := fn.val
    let s0 := pollNoted s f
    let p := s0.hostRead (s0.cmdBase f) 4
    let n := idxDist p (nget s0.host.cmdCons f)
    if !ok then (s0.count pgHOST 0x054 1).raise pgHOST 3
    else if indexBad (s0.cmdSize f) (nget s0.host.cmdProd f) p (nget s0.host.cmdCons f) then
      (ringFaulted s0 f).raise pgINTAKE 0
    else ((((commandsTaken s0 f n p).hostWrite (s0.cmdBase f + 32) p 4).moved 0x04C (64 * n)).settleBad f (n + 1))) := by
  have hgo : (!s.ready || !s.linkUp || !s.on (pgWIN fn.val) F.WIN_CMDQ_EN || nget s.host.cmdFault fn.val != 0 ||
      decide (s.now < nget s.host.pollClk fn.val)) = false := by
    simp [hready, hup, hen, hsound, hdue]
  change execCmdRingPoll fn ok s = _
  rw [execCmdRingPoll]
  dsimp only
  rw [hgo, if_neg Bool.false_ne_true]
  rfl

theorem cmdRingPoll_failed : ∃ t, exec (.cmdRingPoll fn false) s = .next t ∧ Raised t pgHOST 3 ∧ t.ctr pgHOST 0x054 = s.ctr pgHOST 0x054 + 1 ∧
    t.host.taken = s.host.taken ∧ SameBytes s t := by
  have hctr : (pollNoted s fn.val).ctr pgHOST 0x054 = s.ctr pgHOST 0x054 := rfl
  have htaken : (pollNoted s fn.val).host.taken = s.host.taken := rfl
  have hbytes : SameBytes s (pollNoted s fn.val) := .of_eq
  rw [exec_cmdRingPoll hready hup hen hsound hdue]
  dsimp only
  rw [if_pos (by decide)]
  generalize pollNoted s fn.val = u at *
  have hcount : (u.count pgHOST 0x054 1).ctr pgHOST 0x054 = u.ctr pgHOST 0x054 + 1 := State.ctr_count_self ..
  have htaken' : (u.count pgHOST 0x054 1).host.taken = u.host.taken := rfl
  have hquiet := (quiet_refl u).count pgHOST 0x054 1
  generalize u.count pgHOST 0x054 1 = v at *
  exact ⟨_, rfl, raised_raise v pgHOST 3 (by decide), (ctr_raise v pgHOST 3 (by decide)).trans (hcount.trans (congrArg (· + 1) hctr)),
    (noAnswer_raise v pgHOST 3).2.2.trans (htaken'.trans htaken), hbytes.trans (hquiet.raise pgHOST 3).sameBytes⟩

variable {p n : Nat} (hpr : p = s.hostRead (s.cmdBase fn.val) 4) (hn : n = idxDist p (nget s.host.cmdCons fn.val))
include hpr

theorem cmdRingPoll_faults (hbad : indexBad (s.cmdSize fn.val) (nget s.host.cmdProd fn.val) p (nget s.host.cmdCons fn.val) = true) :
    ∃ t, exec (.cmdRingPoll fn true) s = .next t ∧ nget t.host.cmdFault fn.val = 1 ∧ Raised t pgINTAKE 0 ∧ t.host.taken = s.host.taken := by
  rw [exec_cmdRingPoll hready hup hen hsound hdue]
  dsimp only
  rw [pollNoted_cmdBase, pollNoted_cmdSize, pollNoted_hostRead, pollNoted_cmdProd, pollNoted_cmdCons, if_neg (by decide), ← hpr, if_pos hbad]
  have hfault : nget (ringFaulted (pollNoted s fn.val) fn.val).host.cmdFault fn.val = 1 := nget_nput_self s.host.cmdFault fn.val 1
  have htaken : (ringFaulted (pollNoted s fn.val) fn.val).host.taken = s.host.taken := rfl
  generalize ringFaulted (pollNoted s fn.val) fn.val = u at *
  have hquiet := (quiet_refl u).raise pgINTAKE 0
  have htold := raised_raise u pgINTAKE 0 (by decide)
  have hkept := (noAnswer_raise u pgINTAKE 0).2.2
  have hsame : (u.raise pgINTAKE 0).host.cmdFault = u.host.cmdFault := by rw [hquiet.2]
  generalize u.raise pgINTAKE 0 = v at *
  exact ⟨_, rfl, hsame ▸ hfault, htold, hkept.trans htaken⟩

include hn

theorem cmdRingPoll_takes (a : Nat → Nat) (hgood : indexBad (s.cmdSize fn.val) (nget s.host.cmdProd fn.val) p (nget s.host.cmdCons fn.val) = false)
    (ha : ∀ i, a i = s.cmdBase fn.val + 64 + 64 * ((nget s.host.cmdCons fn.val + i) % 2 ^ 32 % s.cmdSize fn.val))
    (hknown : ∀ i, i < n → knownOp (s.hostRead (a i) 2) = true ∧ s.hostRead (a i + 2) 2 = 0 ∧ s.hostRead (a i + 8) 8 = 0)
    (hbefore : ∀ e ∈ s.host.taken, e.1 = fn.val → e.2.2 ≠ opBad) :
    ∃ t, exec (.cmdRingPoll fn true) s = .next t ∧ nget t.host.cmdCons fn.val = p ∧ nget t.host.cmdProd fn.val = p ∧
      t.host.taken = s.host.taken ++ (List.range n).map (fun i => (fn.val, s.hostRead (a i + 4) 4, s.hostRead (a i) 2)) ∧
      t.hostRead (s.cmdBase fn.val + 32) 4 = p ∧ t.host.resps = s.host.resps := by
  have hcommand : ∀ i, i < n → entryCommand s fn.val (entryAddr s fn.val i) = (fn.val, s.hostRead (a i + 4) 4, s.hostRead (a i) 2) := by
    intro i hi
    obtain ⟨hop, hres2, hres8⟩ := hknown i hi
    rw [entryCommand, entryAddr, ← ha, hop, hres2, hres8]
    rfl
  have htaken : s.host.taken ++ (List.range n).map (fun i => entryCommand s fn.val (entryAddr s fn.val i)) =
      s.host.taken ++ (List.range n).map (fun i => (fn.val, s.hostRead (a i + 4) 4, s.hostRead (a i) 2)) :=
    congrArg (s.host.taken ++ ·) (List.map_congr_left fun i hi => hcommand i (List.mem_range.mp hi))
  rw [exec_cmdRingPoll hready hup hen hsound hdue]
  dsimp only
  rw [pollNoted_cmdBase, pollNoted_cmdSize, pollNoted_hostRead, pollNoted_cmdProd, pollNoted_cmdCons, if_neg (by decide), ← hpr, ← hn,
    if_neg (by rw [hgood]; decide), settleBad_good]
  · refine ⟨_, rfl, nget_nput_self .., nget_nput_self .., htaken, ?_, rfl⟩
    refine (bgetLE_bputLE ..).trans (Nat.mod_eq_of_lt ?_)
    rw [hpr]
    exact bgetLE_lt ..
  · intro e he hfn
    have he' : e ∈ s.host.taken ++ (List.range n).map (fun i => entryCommand s fn.val (entryAddr s fn.val i)) := he
    rw [htaken, List.mem_append, List.mem_map] at he'
    obtain hold | ⟨i, hi, rfl⟩ := he'
    · exact hbefore e hold hfn
    · have hlt : s.hostRead (a i) 2 < 256 ^ 2 := bgetLE_lt ..
      exact Nat.ne_of_lt hlt

end

/-! ## The response of a command (R484, R491) -/

/-- The address of the response entry that a producer index names. -/
def respAddr (s : State) (f p : Nat) : Nat := s.respBase f - 32 * s.cmdSize f + 32 * (p % s.cmdSize f)

theorem respAddr_before (s : State) (f p : Nat) : respAddr s f p + 32 ≤ s.respBase f := by
  have hsize : 0 < s.cmdSize f := Nat.two_pow_pos _
  have hpos : p % s.cmdSize f < s.cmdSize f := Nat.mod_lt _ hsize
  rw [respAddr, State.respBase]
  omega

/-- The response is written, its index advances, and the bytes are counted. -/
def respWritten (s : State) (f : Nat) (r : Resp) : State :=
  let p := nget s.host.respProd f
  let s1 := s.hostPut (respAddr s f p) (entryBytes r.status 2 0 0 r.tag 0x8000 r.result 0 s.tick 0)
  let s2 := { s1 with host := { s1.host with resps := s1.host.resps.erase r, respProd := nput s1.host.respProd f ((p + 1) % 2 ^ 32) } }
  (s2.hostWrite (s.respBase f) ((p + 1) % 2 ^ 32) 4).moved 0x050 32

section
variable {fn : Fin 32} {s : State} {r : Resp} (hnext : (s.host.resps.find? fun r => r.fn == fn.val) = some r) (hup : s.linkUp = true)
  (hen : s.on (pgWIN fn.val) F.WIN_CMDQ_EN = true) (hroom : s.respFull fn.val = false)
include hnext hup hen hroom

theorem exec_commandResponse : exec (.commandResponse fn) s =
    .next (((respWritten s fn.val r).msix fn.val (s.rd (pgWIN fn.val) F.WIN_CMDQ_VEC)).settleBad fn.val s.host.taken.length) := by
  change execCommandResponse fn s = _
  simp only [execCommandResponse, hnext, hup, hen, hroom]
  rfl

omit hnext hup hen hroom in
theorem respWritten_mem (s : State) (f : Nat) (r : Resp) :
    (respWritten s f r).host.mem = bputLE (bputList s.host.mem (respAddr s f (nget s.host.respProd f))
      ((entryBytes r.status 2 0 0 r.tag 0x8000 r.result 0 s.tick 0).map fun b => BitVec.ofNat 8 b)) (s.respBase f)
        ((nget s.host.respProd f + 1) % 2 ^ 32) 4 := rfl

omit hnext hup hen hroom in
theorem respWritten_prod (s : State) (f : Nat) (r : Resp) : nget (respWritten s f r).host.respProd f = (nget s.host.respProd f + 1) % 2 ^ 32 :=
  ngetD_nputD_self ..

omit hnext hup hen hroom in
theorem entryBytes_length (status kind ntok ending cookie idx gen hint tick deliv : Nat) :
    (entryBytes status kind ntok ending cookie idx gen hint tick deliv).length = 32 := by
  simp [entryBytes]

theorem commandResponse_spec {p : Nat} (hp : p = nget s.host.respProd fn.val) : ∃ t, exec (.commandResponse fn) s = .next t ∧
    nget t.host.respProd fn.val = (p + 1) % 2 ^ 32 ∧ t.hostRead (s.respBase fn.val) 4 = (p + 1) % 2 ^ 32 ∧
    ∀ i, i < 32 → bget t.host.mem (s.respBase fn.val - 32 * s.cmdSize fn.val + 32 * (p % s.cmdSize fn.val) + i) =
      BitVec.ofNat 8 ((entryBytes r.status 2 0 0 r.tag 0x8000 r.result 0 s.tick 0).getD i 0) := by
  have hmem := respWritten_mem s fn.val r
  have hprod := respWritten_prod s fn.val r
  rw [exec_commandResponse hnext hup hen hroom]
  generalize respWritten s fn.val r = u at *
  have hmsix := (quiet_msix u fn.val (s.rd (pgWIN fn.val) F.WIN_CMDQ_VEC)).2
  generalize u.msix fn.val (s.rd (pgWIN fn.val) F.WIN_CMDQ_VEC) = v at *
  have hsettled := settleBad_settled fn.val s.host.taken.length v
  generalize v.settleBad fn.val s.host.taken.length = t at *
  have hmem' : t.host.mem = u.host.mem := by rw [hsettled, hmsix]
  have hprod' : t.host.respProd = u.host.respProd := by rw [hsettled, hmsix]
  refine ⟨t, rfl, ?_, ?_, fun i hi => ?_⟩
  · rw [hprod', hprod, hp]
  · rw [State.hostRead, hmem', hmem, bgetLE_bputLE, ← hp]
    exact Nat.mod_mod _ _
  · have hbefore := respAddr_before s fn.val (nget s.host.respProd fn.val)
    have haddr : s.respBase fn.val - 32 * s.cmdSize fn.val + 32 * (p % s.cmdSize fn.val) = respAddr s fn.val (nget s.host.respProd fn.val) := by
      rw [hp, respAddr]
    rw [haddr, hmem', hmem, bget_bputLE _ _ _ _ _ (.inl (by omega)), bget_bputList, if_pos ⟨by omega, by rw [List.length_map, entryBytes_length]; omega⟩,
      Nat.add_sub_cancel_left]
    exact List.getD_map ..

end

/-- Settles O50: the two kinds of ring made, a ring destroyed, the three outcomes of a poll, and the response written. -/
theorem commandRings : Obligations.CommandRings := by
  unfold Obligations.CommandRings
  refine ⟨fun fn tag ctx num addr log2 cq vec ithresh itimeUs s hp hbound hfree h6 h16 haddr => ⟨fun hnum h4 h8 hcq => ?_,
      fun h4 h8 hvec hvec0 hvecs hth1 hth255 htime => ?_⟩,
    fun _ _ _ _ _ hp hbound hnum hring hfree => ringDestroy_unmakes hp hbound hnum hring hfree,
    fun _ _ _ _ hready hup hen hsound hdue hpr hn => ⟨cmdRingPoll_failed hready hup hen hsound hdue, cmdRingPoll_faults hready hup hen hsound hdue hpr,
      cmdRingPoll_takes hready hup hen hsound hdue hpr hn⟩,
    fun _ _ _ _ hnext hup hen hroom hp => commandResponse_spec hnext hup hen hroom hp⟩
  · obtain ⟨t, hexec, hanswer, hring, hothers, hbytes⟩ := ringCreate_makes (tag := tag) (vec := vec) (ithresh := ithresh) (itimeUs := itimeUs) hp hbound
      (num := num) (addr := addr) (log2 := log2) (cq := cq) (by
        rw [hfree, Option.isNone_eq_false_iff.mpr hcq]
        simp only [Option.isSome_none, Bool.false_eq_true, false_or, or_false]
        omega)
    exact ⟨t, hexec, hanswer, hring.trans (congrArg some (if_pos hnum)), hothers, hbytes⟩
  · obtain ⟨t, hexec, hanswer, hring, -, hbytes⟩ := ringCreate_makes (tag := tag) (vec := vec) (ithresh := ithresh) (itimeUs := itimeUs) hp hbound
      (num := num) (addr := addr) (log2 := log2) (cq := cq) (by
        rw [hfree]
        simp only [Option.isSome_none, Bool.false_eq_true, false_or]
        omega)
    exact ⟨t, hexec, hanswer, hring.trans (congrArg some (if_neg (by omega))), hbytes⟩

end Sys2Proof
end

section
/-! SUPPORT. What winds a context down (R408) leaves alone: the states of contexts, the events of the CTXS page, the Gauger, the rings of the host. -/

namespace Sys2Proof

set_option Elab.async false

open Machine

/-- A context state in a CTXS page (R419), `PWR.STATUS.PULL` or `MGMT.MATE`. -/
def stateKey (k : Nat) : Bool :=
  decide ((k / 131072 = 3 ∨ k / 131072 = 4) ∧ k % 32 = 28 ∧ 0x10000 ≤ k % 131072 ∨ k = pgPOWER * 131072 + 0x128 * 32 ∨ k = pgMGMT * 131072 + 0x10C * 32)

/-- The latched events of the first CTXS page and of the power page. -/
def eventKey (k : Nat) : Bool := decide (k = pgCTXS0 * 131072 + 0x20 * 32 ∨ k = pgPOWER * 131072 + 0x20 * 32)

/-- `ENG.BUSY` of a codec engine. -/
def busyKey (k : Nat) : Bool :=
  decide (k % 131072 = 0x100 * 32 + 31 ∧ (k / 131072 = 0x600 ∨ k / 131072 = 0x640 ∨ k / 131072 = 0x680 ∨ k / 131072 = 0x6C0))

/-- Jobs stay; keys destroyed stay so, and aborted jobs. -/
def JobsKept (s t : State) : Prop :=
  ∀ j x, s.kegJob j = some x → ∃ y, t.kegJob j = some y ∧ (x.keys = none → y.keys = none) ∧ (x.aborted = true → y.aborted = true)

/-- From `s` to `t` no context changes its state, no idle codec engine becomes busy, the events latched in the first CTXS page and in the power page stay latched, a pull stays shown; the
Gauger and its counters, the firmware, the host's rings, the power domain and the keys are the same. -/
structure Winds (s t : State) : Prop where
  states : ∀ pg F0 i, stateKey (fkey pg F0 i) = true → t.rdi pg F0 i = s.rdi pg F0 i
  idle : ∀ pg, busyKey (fkey pg F.ENG_BUSY 0) = true → s.rd pg F.ENG_BUSY = 0 → t.rd pg F.ENG_BUSY = 0
  latched : ∀ pg, eventKey (fkey pg F.EVT_RAW 0) = true → ∀ bit, bit < 32 → Raised s pg bit → Raised t pg bit
  gauCtrs : ∀ off, off < 4096 → t.ctr pgGAU off = s.ctr pgGAU off
  jobs : JobsKept s t
  gau : t.gau = s.gau
  rings : t.host.rings = s.host.rings
  variant : t.variant = s.variant
  pwr : t.pwr = s.pwr
  fw : t.fw = s.fw
  drbg : t.drbg = s.drbg
  keys : t.lp.keys = s.lp.keys

theorem JobsKept.of_eq {s t : State} (h : t.keg.jobs = s.keg.jobs) : JobsKept s t := fun j x hj =>
  ⟨x, by rwa [State.kegJob, h], id, id⟩

theorem JobsKept.trans {s t u : State} (h : JobsKept s t) (k : JobsKept t u) : JobsKept s u := fun j x hj => by
  obtain ⟨y, hy, hkeys, hgone⟩ := h j x hj
  obtain ⟨w, hw, hkeys', hgone'⟩ := k j y hy
  exact ⟨w, hw, hkeys' ∘ hkeys, hgone' ∘ hgone⟩

theorem Winds.refl (s : State) : Winds s s :=
  ⟨fun _ _ _ _ => rfl, fun _ _ h => h, fun _ _ _ _ h => h, fun _ _ => rfl, .of_eq rfl, rfl, rfl, rfl, rfl, rfl, rfl, rfl⟩

section
variable {z s t u : State}

theorem Winds.trans (h : Winds s t) (k : Winds t u) : Winds s u where
  states pg F0 i hk := (k.states pg F0 i hk).trans (h.states pg F0 i hk)
  idle pg hp hi := k.idle pg hp (h.idle pg hp hi)
  latched pg hp b hb hr := k.latched pg hp b hb (h.latched pg hp b hb hr)
  gauCtrs off ho := (k.gauCtrs off ho).trans (h.gauCtrs off ho)
  jobs := h.jobs.trans k.jobs
  gau := k.gau.trans h.gau
  rings := k.rings.trans h.rings
  variant := k.variant.trans h.variant
  pwr := k.pwr.trans h.pwr
  fw := k.fw.trans h.fw
  drbg := k.drbg.trans h.drbg
  keys := k.keys.trans h.keys

theorem Winds.events (h : Winds s t) (bit : Nat) (hb : bit < 32) (hr : Raised s pgCTXS0 bit) : Raised t pgCTXS0 bit := h.latched _ (by decide) _ hb hr

/-- Parts of the state that it does not speak of. -/
theorem Winds.of (h : Winds z s) (e1 : t.regs = s.regs := by rfl) (e2 : t.ctrs = s.ctrs := by rfl) (e3 : t.gau = s.gau := by rfl)
    (e4 : t.host.rings = s.host.rings := by rfl) (e5 : t.variant = s.variant := by rfl) (e6 : t.pwr = s.pwr := by rfl) (e7 : t.fw = s.fw := by rfl)
    (e8 : t.drbg = s.drbg := by rfl) (e9 : t.lp.keys = s.lp.keys := by rfl) (e10 : t.keg.jobs = s.keg.jobs := by rfl) : Winds z t :=
  h.trans ⟨fun _ _ _ _ => State.rdi_congr (s := s) e1 e5 .., fun _ _ hi => (State.rdi_congr (s := s) e1 e5 ..).trans hi, fun _ _ _ _ hr => raised_congr e1 hr, fun _ _ => by rw [State.ctr, State.ctr, e2], .of_eq e10,
    e3, e4, e5, e6, e7, e8, e9⟩

theorem Winds.setLp (h : Winds z s) (x : LpSt) (hx : x.keys = s.lp.keys := by rfl) : Winds z { s with lp := x } := h.of (e9 := hx)
theorem Winds.setKv (h : Winds z s) (x : KvSt) : Winds z { s with kv := x } := h.of
theorem Winds.setRqt (h : Winds z s) (x : RqtSt) : Winds z { s with rqt := x } := h.of
theorem Winds.setSpl (h : Winds z s) (x : SplSt) : Winds z { s with spl := x } := h.of

theorem Winds.ite {c : Prop} [Decidable c] (h : Winds z s) (k : Winds z t) : Winds z (if c then s else t) := by
  split <;> assumption

theorem Winds.foldl {α : Type} {g : State → α → State} (hg : ∀ t x, Winds z t → Winds z (g t x)) : ∀ (l : List α) {s : State}, Winds z s → Winds z (l.foldl g s)
  | [], _, h => h
  | x :: l, s, h => Winds.foldl hg l (hg s x h)

theorem Winds.foldlMem {α : Type} {g : State → α → State} {l : List α} (hg : ∀ x ∈ l, ∀ t, Winds z t → Winds z (g t x)) (h : Winds z s) :
    Winds z (l.foldl g s) := by
  induction l generalizing s with
  | nil => exact h
  | cons x l ih => exact ih (fun y hy => hg y (List.mem_cons_of_mem _ hy)) (hg x (List.mem_cons_self ..) s h)

theorem Winds.foldlFst {α β : Type} {g : State × β → α → State × β} (hg : ∀ t x, Winds z t.1 → Winds z (g t x).1) :
    ∀ (l : List α) {a : State × β}, Winds z a.1 → Winds z (l.foldl g a).1
  | [], _, h => h
  | x :: l, a, h => Winds.foldlFst hg l (hg a x h)

/-! ## Registers, counters and events -/

/-- A field that is none of those it speaks of. -/
theorem Winds.wriKey (h : Winds z s) {pg i : Nat} {F0 : Field} (v : Nat) (hk : stateKey (fkey pg F0 i) = false) (hr : eventKey (fkey pg F0 i) = false)
    (hb : busyKey (fkey pg F0 i) = false) : Winds z (s.wri pg F0 i v) :=
  h.trans ⟨fun _ _ _ hs => State.rdi_wri_ne _ _ fun heq => absurd (hs.symm.trans ((congrArg stateKey heq).trans hk)) (by decide),
    fun _ hp hi => (State.rdi_wri_ne _ _ fun heq => absurd (hp.symm.trans ((congrArg busyKey heq).trans hb)) (by decide)).trans hi,
    fun _ hp _ _ => raised_wri fun heq => absurd (hp.symm.trans ((congrArg eventKey heq).trans hr)) (by decide),
    fun _ _ => State.ctr_wri .., .of_eq rfl, rfl, rfl, rfl, rfl, rfl, rfl, rfl⟩

/-- A page of a die or of a context. -/
theorem Winds.wri (h : Winds z s) {pg : Nat} (F0 : Field) (i v : Nat) (hpg : 0x1000 ≤ pg) : Winds z (s.wri pg F0 i v) := by
  refine h.wriKey v (decide_eq_false ?_) (decide_eq_false ?_) (decide_eq_false ?_) <;> simp only [fkey, pgPOWER, pgMGMT, pgCTXS0] <;> omega

/-- A field of the hub. -/
theorem Winds.wrHub (h : Winds z s) {pg : Nat} (F0 : Field) (v : Nat) (hk : stateKey (fkey pg F0 0) = false := by decide)
    (hr : eventKey (fkey pg F0 0) = false := by decide) (hb : busyKey (fkey pg F0 0) = false := by decide) : Winds z (s.wr pg F0 v) := h.wriKey v hk hr hb

/-- An entry of the control page. -/
theorem Winds.wriRqt (h : Winds z s) (F0 : Field) {i : Nat} (v : Nat) (hi : i < 16) (hF : F0.off + F0.stride * 16 < 0x1000 ∧ F0.lo < 32 := by decide) :
    Winds z (s.wri pgRQT F0 i v) := by
  have hkey : F0.off + F0.stride * i < 0x1000 := lt_of_le_of_lt (Nat.add_le_add_left (Nat.mul_le_mul_left _ hi.le) _) hF.1
  obtain ⟨-, hlo⟩ := hF
  refine h.wriKey v (decide_eq_false ?_) (decide_eq_false ?_) (decide_eq_false ?_) <;> simp only [fkey, pgPOWER, pgMGMT, pgCTXS0, pgRQT] <;> omega

/-- What a vat shows on its page, whatever page that is. -/
theorem Winds.wrPlain (h : Winds z s) (pg : Nat) (F0 : Field) (v : Nat)
    (hF : inPage F0 0 = true ∧ F0.lo ≠ 28 ∧ F0.off ≠ 0x128 ∧ F0.off ≠ 0x10C ∧ (F0.off ≠ 0x100 ∨ F0.lo ≠ 31) := by decide) : Winds z (s.wr pg F0 v) := by
  obtain ⟨hin, hlo, hpull, hmate, hbusy⟩ := hF
  simp only [inPage, decide_eq_true_eq] at hin
  refine h.wriKey v (decide_eq_false ?_) (decide_eq_false ?_) (decide_eq_false ?_) <;> simp only [fkey, pgPOWER, pgMGMT, pgCTXS0] <;> omega

/-- An engine that becomes idle. -/
theorem Winds.wrIdle (h : Winds z s) (pg : Nat) : Winds z (s.wr pg F.ENG_BUSY 0) := by
  have hstate : stateKey (fkey pg F.ENG_BUSY 0) = false := decide_eq_false (by simp only [fkey, F.ENG_BUSY, pgPOWER, pgMGMT]; omega)
  have hevent : eventKey (fkey pg F.ENG_BUSY 0) = false := decide_eq_false (by simp only [fkey, F.ENG_BUSY, pgPOWER, pgCTXS0]; omega)
  refine h.trans ⟨fun _ _ _ hs => State.rdi_wri_ne _ _ fun heq => absurd (hs.symm.trans ((congrArg stateKey heq).trans hstate)) (by decide), fun p _ hi => ?_,
    fun _ hp _ _ => raised_wri fun heq => absurd (hp.symm.trans ((congrArg eventKey heq).trans hevent)) (by decide),
    fun _ _ => State.ctr_wri .., .of_eq rfl, rfl, rfl, rfl, rfl, rfl, rfl, rfl⟩
  by_cases hpg : p = pg
  · rw [hpg]
    exact State.rdi_wri_self ..
  · refine (State.rdi_wri_ne _ _ ?_).trans hi
    simp only [fkey]
    omega

theorem Winds.wr (h : Winds z s) {pg : Nat} (F0 : Field) (v : Nat) (hpg : 0x1000 ≤ pg) : Winds z (s.wr pg F0 v) := h.wri F0 0 v hpg

theorem Winds.setCtr (h : Winds z s) {k : Nat} (n : Nat) (hk : k / 4096 ≠ pgGAU) : Winds z { s with ctrs := nput s.ctrs k n } :=
  h.trans ⟨fun _ _ _ _ => rfl, fun _ _ hi => hi, fun _ _ _ _ hr => hr, fun _ _ => ngetD_nputD_ne _ 0 0 _ (by simp only [pgGAU] at *; omega), .of_eq rfl, rfl, rfl, rfl, rfl,
    rfl, rfl, rfl⟩

theorem Winds.count (h : Winds z s) {pg off : Nat} (n : Nat) (hk : (pg * 4096 + off) / 4096 ≠ pgGAU := by decide) : Winds z (s.count pg off n) := h.setCtr _ hk

theorem stateKey_raw (pg : Nat) : stateKey (fkey pg F.EVT_RAW 0) = false := by
  refine decide_eq_false ?_
  simp only [fkey, F.EVT_RAW, pgPOWER, pgMGMT]
  omega

theorem busyKey_raw (pg : Nat) : busyKey (fkey pg F.EVT_RAW 0) = false := by
  refine decide_eq_false ?_
  simp only [fkey, F.EVT_RAW]
  omega

theorem Winds.raise (h : Winds z s) (pg bit : Nat) : Winds z (s.raise pg bit) :=
  h.trans ⟨fun _ _ _ hs => State.rdi_raise_ne _ fun heq => absurd (hs.symm.trans ((congrArg stateKey heq).trans (stateKey_raw pg))) (by decide),
    fun _ hp hi => (State.rdi_raise_ne _ fun heq => absurd (hp.symm.trans ((congrArg busyKey heq).trans (busyKey_raw pg))) (by decide)).trans hi,
    fun _ _ => (onward_raise s pg bit).events, fun off ho => ctr_raise _ _ _ (by simp only [pgGAU, msgCtr, pgINTAKE]; omega), .of_eq (by rw [State.raise_keg]),
    State.raise_gau .., by rw [((quiet_refl s).raise pg bit).2], State.raise_variant .., State.raise_pwr .., State.raise_fw .., State.raise_drbg ..,
    by rw [State.raise_lp]⟩

/-- A counter of a die or of a context. -/
theorem Winds.countHub (h : Winds z s) {pg : Nat} (hpg : 0x1000 ≤ pg) (off n : Nat) : Winds z (s.count pg off n) :=
  h.count n (by simp only [pgGAU]; omega)

theorem Winds.capture (h : Winds z s) {pg : Nat} (code loc : Nat) (ctx : Option Nat) (hpg : 0x1000 ≤ pg) : Winds z (s.capture pg code loc ctx) := by
  unfold State.capture
  exact .ite (h.wr _ _ hpg) (((((((h.wr _ _ hpg).wr _ _ hpg).wr _ _ hpg).wr _ _ hpg).wr _ _ hpg).wr _ _ hpg).wr _ _ hpg |>.raise ..)

theorem Winds.ctxEvent (h : Winds z s) (c bit st code q : Nat) : Winds z (s.ctxEvent c bit st code q) := by
  have hpg := pgCEV_hub c
  unfold State.ctxEvent
  exact .ite (((h.raise ..).raise ..).countHub (pgCEV_hub c) ..)
    ((((((h.wri _ _ _ hpg).wri _ _ _ hpg).wri _ _ _ hpg).wri _ _ _ hpg).wri _ _ _ hpg).raise ..)

theorem Winds.ctxNote (h : Winds z s) (c bit : Nat) : Winds z (s.ctxNote c bit) := (h.of (t := { s with freeIdx := s.freeIdx + 1 + 1 + 1 })).ctxEvent ..
theorem Winds.ctxNoteQ (h : Winds z s) (c bit q : Nat) : Winds z (s.ctxNoteQ c bit q) := (h.of (t := { s with freeIdx := s.freeIdx + 1 + 1 })).ctxEvent ..
theorem Winds.ctxStQ (h : Winds z s) (c bit st q : Nat) : Winds z (s.ctxStQ c bit st q) := (h.of (t := { s with freeIdx := s.freeIdx + 1 })).ctxEvent ..

theorem Winds.wake (h : Winds z s) (done : WaitOn → Bool) (st : Nat) : Winds z (s.wake done st) := .foldl (fun _ _ ht => ht.of) _ h.of

/-! ## Main memory (R192–R210) -/

theorem Winds.crcTouch (h : Winds z s) (l : Nat) (dirty parity : Bool) : Winds z (s.crcTouch l dirty parity) := by
  have hpg := frameGroup_hub (frameOfLine l)
  unfold State.crcTouch
  extract_lets k pg
  split
  · have h1 := ((h.raise pg 7).capture 3 (32 * frameDie (frameOfLine l) + frameChan (frameOfLine l) + 256 * frameJ (frameOfLine l)) none
      (hpg)).countHub hpg 0x054 1
    exact .ite (.ite h1.of h1.of) h.of
  · have h1 := (h.countHub hpg 0x054 1).countHub hpg 0x058 1
    exact .ite h1.of h1.of

theorem Winds.setFrame (h : Winds z s) (f : Nat) (x : Frame) : Winds z (s.setFrame f x) := h.of

theorem Winds.confirm (h : Winds z s) (f : Nat) (poison : Bool) : Winds z (s.confirm f poison) := by
  have hpg := frameGroup_hub f
  unfold State.confirm
  extract_lets pg ch s1 lp1 s2 lp2 s3
  have h1 : Winds z s1 := (((h.raise ..).countHub hpg ..).countHub hpg ..).capture _ _ _ (hpg)
  have h2 : Winds z s2 := h1.of
  have h3 : Winds z s3 := .ite h2.of h2
  clear_value s3
  split
  · next x _ =>
    have h4 : Winds z (s3.setFrame f (hit x)) := h3.setFrame ..
    exact .ite (h4.raise ..) h4
  · exact h3

theorem Winds.lineRead (h : Winds z s) (l key : Nat) (o : LineOut) : Winds z (s.lineRead l key o).1 := by
  have hpg := frameGroup_hub (frameOfLine l)
  unfold State.lineRead
  extract_lets f pg s1 text how mirrored xp s2 lp2
  have h1 : Winds z s1 := (h.countHub hpg ..).crcTouch ..
  have h2 : Winds z s2 := (h1.confirm ..).countHub (pgXLT_hub _) ..
  clear_value mirrored s2 how text s1
  split
  · exact .ite (h1.countHub hpg ..) h1
  · split
    · split
      · exact h2.raise ..
      · have h3 : Winds z { s2 with lp := { s2.lp with bad := mdel s2.lp.bad l } } := h2.setLp _
        exact h3.raise ..
    · exact h1.confirm ..

theorem Winds.putLine (h : Winds z s) (l key : Nat) (bs : List Nat) (bad : Bool) : Winds z (s.putLine l key bs bad) := h.of

theorem Winds.lineWrite (h : Winds z s) (l key off : Nat) (bs : List Nat) (bad : Bool) (o : LineOut) : Winds z (s.lineWrite l key off bs bad o) := by
  have hpg := frameGroup_hub (frameOfLine l)
  unfold State.lineWrite
  exact .ite (((h.countHub hpg ..).crcTouch ..).putLine ..) (((((h.lineRead ..).countHub hpg ..).countHub hpg ..).crcTouch ..).putLine ..)

theorem Winds.labTouch (h : Winds z s) (n key : Nat) (big : Bool) : Winds z (s.labTouch n key big) := by
  have hpg := pgXLT_hub n
  unfold State.labTouch
  extract_lets xp k s1 mine
  have h1 : Winds z s1 := (h.countHub hpg ..).countHub hpg ..
  exact .ite (.ite (h.countHub hpg ..) h) (.ite h1.of h1.of)

theorem Winds.access (h : Winds z s) (n c va : Nat) (write host : Bool) (len : Nat) : Winds z (s.access n c va write host len).1 := by
  have hpg := pgXLT_hub n
  unfold State.access
  extract_lets xp s0 s1
  have h0 : Winds z s0 := h.countHub hpg ..
  have h1 : Winds z s1 := by
    simp only [s1]
    split
    · exact h0.labTouch ..
    · exact (h0.countHub hpg ..).countHub hpg ..
    · split
      · exact h0.labTouch ..
      · exact (h0.countHub hpg ..).countHub hpg ..
  split
  · exact h1
  · extract_lets s2 s3
    have h2 : Winds z s2 := (((h1.countHub hpg ..).countHub hpg ..).capture _ _ _ (hpg)).ctxEvent ..
    simp only [s3]
    split
    · exact (h2.countHub (frameGroup_hub _) ..).capture _ _ _ ((frameGroup_hub _))
    · exact h2

theorem Winds.askRebuild (h : Winds z s) (f : Nat) (step : Option Nat) : Winds z (s.askRebuild f step) := by
  unfold State.askRebuild
  extract_lets ps mine
  split
  · exact h
  · exact .ite h.of h.of

theorem Winds.recoverHub (h : Winds z s) (f va : Nat) : Winds z (s.recover f va none) := by
  have hpg := frameGroup_hub f
  unfold State.recover
  split
  · exact h
  · next x _ =>
    refine .ite ?_ (.ite h (.ite ?_ (.foldl (fun _ _ ht => ht.ctxStQ ..) _ h)))
    · extract_lets lp0 s1 s2
      have h1 : Winds z s1 := by
        simp only [s1]
        split
        · exact h.of
        · exact Winds.countHub h.of hpg ..
      exact .ite (h1.askRebuild ..) h1
    · split
      · exact h.of
      · exact Winds.countHub h.of hpg ..

theorem Winds.ctxReadHub (h : Winds z s) (n c va : Nat) (host : Bool) (o : LineOut) : Winds z (s.ctxRead n c va host o none).1 := by
  have ha := h.access n c va false host 1
  unfold State.ctxRead
  split
  · next s1 code heq => rw [heq] at ha; exact ha
  · next s1 pa heq =>
    rw [heq] at ha
    exact .ite (Winds.lineRead ha ..) ((Winds.lineRead ha ..).recoverHub ..)

theorem Winds.ctxWriteHub (h : Winds z s) (n c va : Nat) (host : Bool) (bs : List Nat) (bad : Bool) (o : LineOut) :
    Winds z (s.ctxWrite n c va host bs bad o none).1 := by
  have ha := h.access n c va true host (max 1 bs.length)
  unfold State.ctxWrite
  split
  · next s1 code heq => rw [heq] at ha; exact ha
  · next s1 pa heq =>
    rw [heq] at ha
    dsimp only
    exact Winds.lineWrite ha ..

theorem Winds.hubRead (h : Winds z s) (c va n : Nat) : Winds z (s.hubRead c va n).1 := by
  unfold State.hubRead
  refine .foldlFst (fun t i ht => ?_) _ h
  exact ht.ctxReadHub ..

theorem Winds.hubWrite (h : Winds z s) (c va : Nat) (bs : List Nat) : Winds z (s.hubWrite c va bs) := .foldl (fun _ _ ht => ht.ctxWriteHub ..) _ h

/-! ## Posts (R137, R156) -/

theorem Winds.release (h : Winds z s) (c : Nat) (w : Who) (phys taken : Nat) (take : Bool) : Winds z (s.release c w phys taken take) :=
  (h.of (t := { s with spl := { s.spl with rels := s.spl.rels ++ [(w, phys, taken)] } })).countHub (pgSPL_hub c) ..

theorem Winds.releaseWaiters (h : Winds z s) (phys : Nat) : Winds z (s.releaseWaiters phys) := by
  unfold State.releaseWaiters
  extract_lets x
  split
  next ws n rs _ =>
  have h1 : Winds z ({ s with spl := { s.spl with waiters := ws } }.setSpile phys { x with count := n }) := h.of
  exact .foldl (fun _ _ ht => ht.release ..) _ h1

theorem Winds.setSpile (h : Winds z s) (phys : Nat) (x : Spile) : Winds z (s.setSpile phys x) := h.of

theorem Winds.enginePost (h : Winds z s) (c v phys n : Nat) : Winds z (s.enginePost c v phys n) := by
  unfold State.enginePost
  extract_lets x past s1 s2
  have h1 : Winds z s1 := (h.setSpile ..).countHub (pgSPL_hub c) ..
  have h2 : Winds z s2 := .ite (h1.ctxNoteQ ..) h1
  exact h2.releaseWaiters _

theorem Winds.hubPost (h : Winds z s) (c v n : Nat) : Winds z (s.hubPost c v n) := by
  unfold State.hubPost
  split
  · exact (h.ctxNoteQ ..).countHub (pgSPL_hub c) ..
  · exact .ite (h.ctxNoteQ ..) (h.enginePost ..)

/-! ## Jobs of the Mill (R335–R338) -/

theorem Winds.showMill (h : Winds z s) : Winds z s.showMill :=
  ((((((((h.wrHub ..).wrHub ..).wrHub ..).wrHub ..).wrHub ..).wrHub ..).wrHub ..).wrHub ..).wrHub ..

theorem Winds.dropChainHold (h : Winds z s) (j : MillJob) : Winds z (s.dropChainHold j) := by
  unfold State.dropChainHold
  split
  · exact h
  · exact h.of

theorem Winds.endJob (h : Winds z s) (i st : Nat) : Winds z (s.endJob i st) := by
  unfold State.endJob
  split
  · exact h
  · next j _ =>
    extract_lets c word s1 s2 s3 s4
    have h1 : Winds z s1 := .foldl (fun _ _ ht => ht.hubWrite ..) _ h
    have h2 : Winds z s2 := ((h1.hubPost ..).count ..).count _ (by simp only [pgCNT, pgGAU, F.CNT_MILL_JOBS]; omega)
    have h3 : Winds z s3 := .ite (h2.count ..) h2
    have h4 : Winds z s4 := h3.dropChainHold j
    clear_value s4
    exact (h4.of (t := { s4 with mill := { s4.mill with jobs := mdel s4.mill.jobs i } })).showMill

theorem Winds.millEndCtx (h : Winds z s) (c : Nat) : Winds z (s.millEndCtx c) := by
  unfold State.millEndCtx
  extract_lets ids s1 pipes mill2 s2
  have h1 : Winds z s1 := .foldl (fun _ _ ht => ht.endJob ..) _ h
  have h2 : Winds z s2 := h1.of
  exact (h2.count ..).showMill

/-! ## Streams of the codec (R351–R369) -/

theorem Winds.showSched (h : Winds z s) : Winds z s.showSched := by
  unfold State.showSched
  extract_lets long upd waits streams oldest codec1 s1
  have h1 : Winds z s1 := h.of
  exact ((((h1.count ..).wrHub ..).wrHub ..).wrHub ..).wrHub ..

theorem Winds.chainPicture (h : Winds z s) (n va pitch pic : Nat) (b : Bool) : Winds z (s.chainPicture n va pitch pic b) := by
  unfold State.chainPicture
  split
  · exact h
  · next l _ =>
    extract_lets codec1 s1 j
    have h1 : Winds z s1 := h.of
    split
    · next e _ => exact (((((h1.dropChainHold e.2).of (t := State.setJob _ e.1 j)).raise ..).count ..).showMill)
    · have hadd : Winds z (s1.addJob j) := Winds.showMill h1.of
      exact .ite (hadd.endJob ..) hadd

theorem Winds.writeRecord (h : Winds z s) (n : Nat) (x : Stream) (r : List Nat) : Winds z (s.writeRecord n x r) := by
  have h2 : ∀ y : Stream, Winds z ((((s.hubWrite x.ctx (x.outVa x.outProd) r).hubWrite x.ctx (x.ringVa + 8)
    (lowBytes 4 (x.outProd + 1))).setStream n y).hubPost x.ctx x.doneSpile 1) := fun y =>
      (((h.hubWrite ..).hubWrite ..).of (t := State.setStream _ n y)).hubPost ..
  exact .ite (h2 _) ((h2 _).chainPicture ..)

theorem Winds.drainRecs (h : Winds z s) (n fuel : Nat) : Winds z (s.drainRecs n fuel) := by
  induction fuel generalizing s with
  | zero => exact h
  | succ fuel ih =>
    rw [State.drainRecs]
    split
    · exact h
    · split
      · exact h
      · exact .ite h (ih (h.writeRecord ..))

theorem Winds.pushRecord (h : Winds z s) (n : Nat) (r : List Nat) : Winds z (s.pushRecord n r) := (h.of (t := s.modStream n _)).drainRecs ..

theorem Winds.takeEntry (h : Winds z s) (n : Nat) (x : Stream) : Winds z (s.takeEntry n x).1 := ((h.hubRead ..).hubWrite ..).of

theorem Winds.failEntries (h : Winds z s) (n st cause fuel : Nat) : Winds z (s.failEntries n st cause fuel) := by
  induction fuel generalizing s with
  | zero => exact h
  | succ fuel ih =>
    rw [State.failEntries]
    split
    · exact h
    · exact .ite h (ih ((h.takeEntry ..).pushRecord ..))

theorem Winds.dropStream (h : Winds z s) (n : Nat) : Winds z (s.dropStream n) := by
  unfold State.dropStream
  extract_lets codec1 mill1 s1
  have h1 : Winds z s1 := h.of
  exact (((h1.count ..).wake ..).showMill).showSched

theorem Winds.codecEndCtx (h : Winds z s) (c : Nat) : Winds z (s.codecEndCtx c) := by
  unfold State.codecEndCtx
  refine .foldl (fun t n ht => ?_) _ h
  split
  · exact ht
  · next x _ =>
    extract_lets t1
    have h1 : Winds z t1 := by
      simp only [t1]
      split
      · exact ht.wrIdle _
      · exact ht
    exact ((h1.of (t := t1.setStream n { x with pic := none, closing := true })).failEntries ..).dropStream _

/-! ## Requests, list heads and reservations (R288, R297–R319) -/

theorem Winds.showKv (h : Winds z s) : Winds z s.showKv := by
  unfold State.showKv
  refine Winds.wrHub (Winds.wrHub (.foldl (fun t n ht => ?_) _ h) _ _) _ _
  have hpg : 0x1000 ≤ pgKVW n := by
    simp only [pgKVW, pgDIE]
    omega
  exact (((((ht.wr _ _ hpg).wr _ _ hpg).wr _ _ hpg).wr _ _ hpg).wr _ _ hpg).wr _ _ hpg

theorem Winds.showRqt (h : Winds z s) : Winds z s.showRqt :=
  (Winds.wrHub (.foldlMem (fun i hi _ ht => ht.wriRqt _ _ (lt_trans (List.mem_range.mp hi) (by decide))) h) ..).wrHub ..

theorem Winds.showResv (h : Winds z s) : Winds z s.showResv := by
  unfold State.showResv
  refine .foldlMem (fun i hi t ht => ?_) h
  have hi := List.mem_range.mp hi
  split
  · exact (((((((ht.wriRqt _ _ hi).wriRqt _ _ hi).wriRqt _ _ hi).wriRqt _ _ hi).wriRqt _ _ hi).wriRqt _ _ hi).wriRqt _ _ hi).wriRqt _ _ hi
  · exact (((((((ht.wriRqt _ _ hi).wriRqt _ _ hi).wriRqt _ _ hi).wriRqt _ _ hi).wriRqt _ _ hi).wriRqt _ _ hi).wriRqt _ _ hi).wriRqt _ _ hi

theorem Winds.modPool (h : Winds z s) (p : Nat) (f : KvPool → KvPool) : Winds z (s.modPool p f) := h.of
theorem Winds.modRq (h : Winds z s) (i : Nat) (f : Rq → Rq) : Winds z (s.modRq i f) := h.of

theorem Winds.putPage (h : Winds z s) (p : Nat) (e : PEnt) : Winds z (s.putPage p e) := by
  unfold State.putPage
  split
  · exact h
  · next x _ =>
    extract_lets s1 fs bad s2
    have h1 : Winds z s1 := h.modPool ..
    have h2 : Winds z s2 := .foldl (fun t f ht => (ht.of (t := t.setFrame f _)).wr _ _ ((pgXLT_hub _))) _ h1
    exact .ite (h1.modPool ..) (.ite (h1.modPool ..) (h2.modPool ..))

theorem Winds.dropPfx (h : Winds z s) (i : Nat) : Winds z (s.dropPfx i) := by
  unfold State.dropPfx
  split
  · exact h
  · next x _ =>
    extract_lets kv1 s1 kv2 s2
    have h1 : Winds z s1 := h.of
    have h2 : Winds z s2 := by
      simp only [s2]
      split
      · exact h1.of
      · exact h1
    exact .foldl (fun _ _ ht => ht.modPool ..) _ h2

theorem Winds.freeEnt (h : Winds z s) (x : Freed) : Winds z (s.freeEnt x) := by
  unfold State.freeEnt
  refine .ite ?_ (.ite (h.putPage ..) (.ite h.of h))
  extract_lets kv1 s1
  have h1 : Winds z s1 := h.of
  split
  · exact .ite (h1.dropPfx _) h1
  · exact h1

theorem Winds.destroyHead (h : Winds z s) (hd : Nat) : Winds z (s.destroyHead hd) := by
  unfold State.destroyHead
  split
  · exact h
  · extract_lets now s1 s2 kv3
    have h1 : Winds z s1 := .foldl (fun _ _ ht => ht.freeEnt _) _ h
    have h2 : Winds z s2 := .foldl (fun _ _ ht => ht.wr _ _ ((pgXLT_hub _))) _ h1
    exact (h2.setKv _).showKv

theorem Winds.dropRoom (h : Winds z s) (i : Nat) : Winds z (s.dropRoom i) := by
  unfold State.dropRoom
  extract_lets x
  split
  · exact h
  · exact Winds.modRq (.foldl (fun _ _ ht => ht.modPool ..) _ h) ..

theorem Winds.plDestroy (h : Winds z s) (i : Nat) : Winds z (s.plDestroy i) := by
  unfold State.plDestroy
  split
  · exact h
  · exact ((h.dropRoom i).destroyHead _).modRq ..

theorem Winds.complete (h : Winds z s) (i st hint : Nat) (tokens : List Nat) : Winds z (s.complete i st hint tokens) := h.of

theorem Winds.setEntry (h : Winds z s) {c : Nat} {F0 : Field} (v : Nat) (hlo : F0.off = 0x800 ∧ F0.stride = 4 ∧ F0.lo < 28) : Winds z (s.setCtxField F0 c v) := by
  obtain ⟨hoff, hstride, hlo⟩ := hlo
  have hidx := Nat.mod_lt c (show 512 > 0 by decide)
  refine h.wriKey v (decide_eq_false ?_) (decide_eq_false ?_) (decide_eq_false ?_) <;>
    simp only [fkey, ctxsPage, pgCTXS0, pgCTXS1, pgPOWER, pgMGMT, hoff, hstride] <;> split <;> omega

theorem dieOf_floor (n f : Nat) : 0x1000 ≤ pgFLOOR n f := by
  simp only [pgFLOOR, pgDIE]
  omega

theorem dieOf_vatOf {n f v pg : Nat} (hv : s.vatOf (pgFLOOR n f) v = some pg) : 0x1000 ≤ pg := by
  have hfloor := dieOf_floor n f
  rw [State.vatOf] at hv
  split at hv
  · cases hv
    omega
  · cases hv

/-- A reservation that has ended: its vats, banks, segments and pools are free of it. -/
def resvDropped (t : State) (i : Nat) (r : Resv) : State :=
  let t0 := { t with resv := mdel t.resv i }
  let t1 := r.vats.foldl (fun u v => match u.vatOf (pgFLOOR v.1 v.2.1) v.2.2 with
    | some pg => if u.resv.any fun q => q.2.vats.contains v then u else u.wr pg F.VAT_C0_RES 0
    | none => u) t0
  let t2 := r.banks.foldl (fun u b => match u.vatOf (pgFLOOR b.1 b.2.1) b.2.2.1 with
    | some pg => (bitsSet b.2.2.2 16).foldl (fun w k => w.wri pg F.VAT_BANK_OWNER_PINNED k 0) u
    | none => u) t1
  let t3 := r.segs.foldl (fun u g => (bitsSet g.2.2 32).foldl (fun w k => w.wri (pgFLOOR g.1 g.2.1) F.FLOOR_SEG_OWNER_PINNED k 0) u) t2
  let t4 := { t3 with kv := { t3.kv with pools := t3.kv.pools.filter fun p => p.2.pinned != some i } }
  t4.setCtxField F.CTXS_ENTRY_C0_RES r.ctx 0

theorem settleResv_eq (s : State) : s.settleResv =
    (let gone := s.resv.filter fun r => r.2.ending && !(s.rqt.entries.any fun e => e.2.res && e.2.ctx == r.2.ctx && !rqTerminal e.2.state)
    if gone.isEmpty then s else ((gone.foldl (fun t g => resvDropped t g.1 g.2) s).showResv).showRqt.showKv) := rfl

theorem Winds.resvDropped (h : Winds z s) (i : Nat) (r : Resv) : Winds z (resvDropped s i r) := by
  unfold Sys2Proof.resvDropped
  extract_lets t0 t1 t2 t3 kv4 t4
  have h1 : Winds z t1 := by
    refine .foldl (fun u v hu => ?_) _ (h.of (t := t0))
    split
    · next hv => exact .ite hu (hu.wr _ _ (dieOf_vatOf hv))
    · exact hu
  have h2 : Winds z t2 := by
    refine .foldl (fun u v hu => ?_) _ h1
    split
    · next hv => exact .foldl (fun _ _ hw => hw.wri _ _ _ (dieOf_vatOf hv)) _ hu
    · exact hu
  have h3 : Winds z t3 := .foldl (fun _ _ hu => .foldl (fun _ _ hw => hw.wri _ _ _ (dieOf_floor ..)) _ hu) _ h2
  exact (h3.of (t := t4)).setEntry _ (by decide)

theorem Winds.settleResv (h : Winds z s) : Winds z s.settleResv := by
  rw [settleResv_eq]
  exact .ite h (Winds.foldl (fun _ _ ht => ht.resvDropped ..) _ h).showResv.showRqt.showKv

theorem Winds.edit (h : Winds z s) (hd k : Nat) (e : Option PEnt) (release : Bool) : Winds z (s.edit hd k e release) := by
  unfold State.edit
  split
  · exact h
  · exact h.of

theorem Winds.endRq (h : Winds z s) (i st ending status : Nat) (tokens : List Nat) : Winds z (s.endRq i st ending status tokens) := by
  unfold State.endRq
  extract_lets x s1 s2 s3 rqt4 u4 s4
  have h1 : Winds z s1 := by
    simp only [s1]
    split
    · exact Winds.of (.foldl (fun _ _ ht => ht.edit ..) _ h)
    · exact h
  have h3 : Winds z s3 := (h1.modRq ..).complete ..
  have h4 : Winds z s4 := by
    simp only [s4]
    exact .ite ((h3.plDestroy i).setRqt _) h3
  clear_value s4
  exact h4.showRqt.settleResv

theorem Winds.cancelRq (h : Winds z s) (i : Nat) : Winds z (s.cancelRq i) :=
  .ite (h.endRq ..) (.ite (h.modRq ..).showRqt (h.count ..))

theorem Winds.complGone (h : Winds z s) (c : Compl) : Winds z (s.complGone c) := by
  unfold State.complGone
  split
  · exact h
  · exact .ite (Winds.showRqt h.of) h

theorem Winds.flrRq (h : Winds z s) (i : Nat) : Winds z (s.flrRq i) := by
  have hfree : ∀ t, Winds z t → Winds z { t.plDestroy i with
      rqt := { (t.plDestroy i).rqt with entries := mdel (t.plDestroy i).rqt.entries i } } := fun t ht => (ht.plDestroy i).of
  unfold State.flrRq
  extract_lets x free s1
  have h1 : Winds z s1 := h.modRq ..
  refine .ite ?_ (.ite (hfree s h) (.ite h1 (h1.cancelRq i)))
  split
  · exact hfree _ ((h.dropRoom i).destroyHead _)
  · exact hfree _ h

theorem Winds.cancelIntake (h : Winds z s) (i : Nat) : Winds z (s.cancelIntake i) := by
  unfold State.cancelIntake
  extract_lets s1 s2
  have h1 : Winds z s1 := h.modRq ..
  have h2 : Winds z s2 := by
    simp only [s2]
    split
    · exact ((h1.dropRoom i).destroyHead _).modRq ..
    · exact h1
  exact h2.complete ..

/-! ## The context's steps and jobs (R134, R515) -/

theorem Aborts.winds (h : Aborts s t) (ho : ∀ p, Onward p s t) (hj : JobsKept s t) : Winds s t := by
  refine ⟨fun pg F0 i hk => h.regs pg F0 i ?_, fun pg hk hi => (h.regs pg F.ENG_BUSY 0 ?_).trans hi, fun pg _ => (ho pg).events, fun off hoff => h.ctrs pgGAU off ?_, hj, ?_, ?_, h.variant, h.pwr, ?_, ?_, ?_⟩
  · simp only [stateKey, spared, decide_eq_true_eq, pgPOWER, pgMGMT] at *
    omega
  · simp only [busyKey, spared, decide_eq_true_eq] at *
    omega
  · simp only [uncounted, pgGAU, pgCAB, msgCtr, pgINTAKE, decide_eq_true_eq]
    omega
  all_goals rw [h.rest]

theorem jobsKept_abortJob (s : State) (j : Nat) : JobsKept s (s.abortJob j) := by
  intro i x hi
  by_cases hij : i = j
  · subst hij
    cases hlive : x.aborted with
    | false => exact ⟨_, kegJob_abortJob_self hi hlive false false, fun _ => rfl, fun _ => rfl⟩
    | true => exact ⟨x, by rwa [abortJob_of_aborted hi false false hlive], id, fun _ => hlive⟩
  · exact ⟨x, by rwa [kegJob_abortJob_ne _ hij], id, id⟩

theorem jobsKept_abortJobs (s : State) (p : Nat × Job → Bool) : JobsKept s (s.abortJobs p) := by
  rw [State.abortJobs]
  exact List.foldlRecOn (motive := fun t => JobsKept s t) _ _ (.of_eq rfl) fun t ht j _ => ht.trans (jobsKept_abortJob t j)

theorem Winds.abortJobs (h : Winds z s) (p : Nat × Job → Bool) : Winds z (s.abortJobs p) :=
  h.trans (((Aborts.refl s).abortJobs p false).winds (fun q => (Onward.refl q s).abortJobs) (jobsKept_abortJobs s p))

theorem Winds.dropEntries (h : Winds z s) (id : Nat) : Winds z (s.dropEntries id) := by
  unfold State.dropEntries
  refine .foldl (fun t e ht => .foldl (fun u x hu => ?_) _ ht) _ h
  refine .ite ?_ hu
  extract_lets who vat1 u1 spl2
  have h1 : Winds z u1 := hu.of
  exact (h1.setSpl _).wrPlain ..

theorem Winds.dropArmed (h : Winds z s) (c : Nat) : Winds z (s.dropArmed c) := by
  unfold State.dropArmed
  extract_lets ids s1
  have h1 : Winds z s1 := .foldl (fun t id ht => (ht.dropEntries id).of) _ h
  exact h1.of

/-! ## CTX_END (R408) -/

theorem Winds.dropFloors (h : Winds z s) (c : Nat) : Winds z (s.dropFloors c) := Winds.setEntry h.of _ (by decide)

theorem Winds.beginQuiesce (h : Winds z s) (c : Nat) : Winds z (s.beginQuiesce c) := by
  unfold State.beginQuiesce
  extract_lets mine s1 s2 s3 s4
  have h1 : Winds z s1 := by
    refine .foldl (fun t i ht => ?_) _ h
    exact .ite (.ite ht (ht.cancelIntake i)) (.ite ht (ht.cancelRq i))
  have h2 : Winds z s2 := by
    simp only [s2]
    split
    · exact Winds.settleResv h1.of
    · exact h1
  have h3 : Winds z s3 := ((h2.dropFloors c).millEndCtx c).codecEndCtx c
  exact ((h3.abortJobs _).dropArmed c).showRqt

end

theorem setCtxState_regs (s : State) (c st : Nat) : RegsOnly s (s.setCtxState c st) := (((regsOnly_refl s).wri ..).wr ..).wr ..

/-- The context waits for the last read of its rings, or quiesces at once. -/
def lastRead (s : State) (c : Nat) : State :=
  if s.host.rings.any fun e => ringCtx e.1 == c && decide (ringNum e.1 < 4) && !e.2.faulted && !e.2.stopped then
    { s with ctxs := { s.ctxs with finals := s.ctxs.finals ++ [c] } }
  else s.beginQuiesce c

theorem Winds.lastRead {z s : State} (h : Winds z s) (c : Nat) : Winds z (lastRead s c) := .ite h.of (h.beginQuiesce c)

/-- The state of the context is written, and told. -/
def endingTold (s : State) (c : Nat) : State := ((s.setCtxState c ctxENDING).ctxNote c 24).raise pgCTXS0 0

theorem endingTold_winds (s : State) (c : Nat) : Winds (s.setCtxState c ctxENDING) (endingTold s c) := ((Winds.refl _).ctxNote ..).raise ..

theorem raised_endingTold (s : State) (c : Nat) : Raised (endingTold s c) pgCTXS0 0 := raised_raise _ pgCTXS0 0 (by decide)

theorem endCtx_of_open {s : State} {c : Nat} (hopen : s.ctxOpen c = true) : s.endCtx c = lastRead (endingTold s c) c := by
  rw [State.endCtx, hopen, Bool.not_true, if_neg Bool.false_ne_true]
  unfold lastRead endingTold
  dsimp only

theorem endCtx_winds {s : State} {c : Nat} (hopen : s.ctxOpen c = true) :
    Winds (s.setCtxState c ctxENDING) (s.endCtx c) ∧ Raised (s.endCtx c) pgCTXS0 0 := by
  have htold := raised_endingTold s c
  have hstart := endingTold_winds s c
  rw [endCtx_of_open hopen]
  generalize endingTold s c = u at *
  have hrest : Winds u (lastRead u c) := (Winds.refl u).lastRead c
  exact ⟨hstart.trans hrest, hrest.events 0 (by decide) htold⟩

/-- The end of a context leaves the Gauger, its counters and the host's rings as they are. -/
theorem endCtx_keeps (s : State) (c : Nat) : (s.endCtx c).gau = s.gau ∧ (s.endCtx c).host.rings = s.host.rings ∧
    ∀ off, off < 4096 → (s.endCtx c).ctr pgGAU off = s.ctr pgGAU off := by
  cases hopen : s.ctxOpen c with
  | false =>
    rw [State.endCtx, hopen, Bool.not_false, if_pos rfl]
    exact ⟨rfl, rfl, fun _ _ => rfl⟩
  | true =>
    obtain ⟨hwinds, -⟩ := endCtx_winds hopen
    have hregs := setCtxState_regs s c ctxENDING
    refine ⟨hwinds.gau.trans (by rw [hregs]), hwinds.rings.trans (by rw [hregs.host]), fun off ho => (hwinds.gauCtrs off ho).trans ?_⟩
    rw [State.ctr, State.ctr, hregs.ctrs]

end Sys2Proof
end

section
/-! PROOF. O48: the PCIe link, FLR, MSI-X unmasking and window accesses (R475–R477, R480, R493, R495, R496). -/

namespace Sys2Proof

set_option Elab.async false

open Machine

/-! ## The link comes up and goes down (R476, R477) -/

theorem linkWidth_le (excl : Nat) : linkWidth excl ≤ 8 := by
  rw [linkWidth]
  cases hfind : ([8, 4, 2, 1] : List Nat).find? _ with
  | none => exact Nat.zero_le _
  | some w =>
    have hmem := List.mem_of_find?_eq_some hfind
    simp only [List.mem_cons, List.not_mem_nil, or_false] at hmem
    rw [Option.getD_some]
    omega

/-- The page shows a link that has trained. -/
def linkTrained (s : State) (speed w : Nat) : State :=
  ((s.wr pgHOST F.HOST_LINK_UP 1).wr pgHOST F.HOST_LINK_SPEED speed).wr pgHOST F.HOST_LINK_WIDTH w

/-- Link-up is told, and link degradation too. -/
def linkTold (s : State) (speed w : Nat) : State :=
  if w < 8 ∨ speed < 4 then (s.raise pgHOST 1).raise pgHOST 2 else s.raise pgHOST 1

/-- What was held for the link goes. -/
def heldSent (s : State) : State :=
  s.host.heldMsgs.foldl (fun t m => t.msix m.1 m.2) { s with host := { s.host with d3hot := false, heldMsgs := [] } }

theorem linkTrained_shows (s : State) {speed w : Nat} (hspeed : speed < 16) (hw : w < 16) :
    (linkTrained s speed w).rd pgHOST F.HOST_LINK_UP = 1 ∧ (linkTrained s speed w).rd pgHOST F.HOST_LINK_SPEED = speed ∧
      (linkTrained s speed w).rd pgHOST F.HOST_LINK_WIDTH = w := by
  refine ⟨?_, ?_, ?_⟩ <;> rw [linkTrained, State.rd, State.wr, State.wr, State.wr]
  · rw [State.rdi_wri_ne _ _ (by decide), State.rdi_wri_ne _ _ (by decide), State.rdi_wri_self]
    rfl
  · rw [State.rdi_wri_ne _ _ (by decide), State.rdi_wri_self]
    exact Nat.mod_eq_of_lt hspeed
  · rw [State.rdi_wri_self]
    exact Nat.mod_eq_of_lt hw

theorem linkTold_quiet (s : State) (speed w : Nat) : Quiet s (linkTold s speed w) := by
  rw [linkTold]
  split
  · exact ((quiet_refl s).raise ..).raise ..
  · exact (quiet_refl s).raise ..

theorem rd_linkTold (s : State) (speed w : Nat) {F0 : Field} (hF : fkey pgHOST F0 0 ≠ fkey pgHOST F.EVT_RAW 0) :
    (linkTold s speed w).rd pgHOST F0 = s.rd pgHOST F0 := by
  rw [linkTold, State.rd, State.rd]
  split
  · rw [State.rdi_raise_ne _ hF, State.rdi_raise_ne _ hF]
  · exact State.rdi_raise_ne _ hF

theorem raised_linkTold (s : State) (speed w : Nat) : Raised (linkTold s speed w) pgHOST 1 ∧ (w < 8 ∨ speed < 4 → Raised (linkTold s speed w) pgHOST 2) := by
  have hup := raised_raise s pgHOST 1 (by decide)
  rw [linkTold]
  by_cases hdeg : w < 8 ∨ speed < 4
  · rw [if_pos hdeg]
    exact ⟨raised_mono pgHOST 2 (by decide) hup, fun _ => raised_raise _ pgHOST 2 (by decide)⟩
  · rw [if_neg hdeg]
    exact ⟨hup, fun h => absurd h hdeg⟩

theorem quiet_msixAll (l : List (Nat × Nat)) (s : State) :
    Quiet s (l.foldl (fun t m => t.msix m.1 m.2) s) ∧ (l.foldl (fun t m => t.msix m.1 m.2) s).regs = s.regs := by
  induction l generalizing s with
  | nil => exact ⟨quiet_refl s, rfl⟩
  | cons m l ih =>
    obtain ⟨hquiet, hregs⟩ := ih (s.msix m.1 m.2)
    exact ⟨(quiet_msix s m.1 m.2).trans hquiet, hregs.trans (State.msix_regs ..)⟩

theorem heldSent_spec (s : State) : (heldSent s).regs = s.regs ∧ (heldSent s).variant = s.variant ∧ (heldSent s).host.d3hot = false ∧
    SameBytes s (heldSent s) := by
  obtain ⟨hquiet, hregs⟩ := quiet_msixAll s.host.heldMsgs { s with host := { s.host with d3hot := false, heldMsgs := [] } }
  have hbytes : SameBytes s { s with host := { s.host with d3hot := false, heldMsgs := [] } } := .of_eq
  refine ⟨hregs, hquiet.variant, ?_, hbytes.trans hquiet.sameBytes⟩
  rw [heldSent, hquiet.2]

theorem pcieLinkUp_spec {speed : Fin 5} {s : State} (hperst : s.host.perstHigh = true) (hmain : s.pwr.mainOff = false) (hmod : s.start.modLow = false)
    (hpcie : s.start.noPcie = false) (hw : linkWidth (s.rd pgHOST F.HOST_LANE_EXCL) ≠ 0) (hspeed : speed.val ≠ 0) (hdown : s.linkUp = false) :
    ∃ t, exec (.pcieLinkUp speed) s = .next t ∧ t.rd pgHOST F.HOST_LINK_UP = 1 ∧ t.rd pgHOST F.HOST_LINK_SPEED = speed.val ∧
      t.rd pgHOST F.HOST_LINK_WIDTH = linkWidth (s.rd pgHOST F.HOST_LANE_EXCL) ∧ t.host.d3hot = false ∧ Raised t pgHOST 1 ∧
      (linkWidth (s.rd pgHOST F.HOST_LANE_EXCL) < 8 ∨ speed.val < 4 → Raised t pgHOST 2) ∧ SameBytes s t := by
  have hexec : exec (.pcieLinkUp speed) s = .next (heldSent (linkTold (linkTrained s speed.val (linkWidth (s.rd pgHOST F.HOST_LANE_EXCL))) speed.val
      (linkWidth (s.rd pgHOST F.HOST_LANE_EXCL)))) := by
    change execPcieLinkUp speed s = _
    rw [execPcieLinkUp]
    dsimp only
    rw [if_neg (by simp [hperst, hmain, hmod, hpcie, hw, hspeed, hdown])]
    rfl
  have hwide := linkWidth_le (s.rd pgHOST F.HOST_LANE_EXCL)
  have hfast := speed.isLt
  obtain ⟨hshowUp, hshowSpeed, hshowWidth⟩ := linkTrained_shows s (speed := speed.val) (w := linkWidth (s.rd pgHOST F.HOST_LANE_EXCL)) (by omega) (by omega)
  have hbytes : SameBytes s (linkTrained s speed.val (linkWidth (s.rd pgHOST F.HOST_LANE_EXCL))) := .of_eq
  rw [hexec]
  generalize linkTrained s speed.val (linkWidth (s.rd pgHOST F.HOST_LANE_EXCL)) = u at *
  generalize linkWidth (s.rd pgHOST F.HOST_LANE_EXCL) = w at *
  have hkeep {F0 : Field} := rd_linkTold u speed.val w (F0 := F0)
  obtain ⟨htold, hdegraded⟩ := raised_linkTold u speed.val w
  have hquiet := linkTold_quiet u speed.val w
  generalize linkTold u speed.val w = v at *
  obtain ⟨hregs, hvar, hd3, hsame⟩ := heldSent_spec v
  generalize heldSent v = t at *
  have hrd (F0 : Field) : t.rd pgHOST F0 = v.rd pgHOST F0 := State.rdi_congr hregs hvar ..
  exact ⟨t, rfl, ((hrd _).trans (hkeep (by decide))).trans hshowUp, ((hrd _).trans (hkeep (by decide))).trans hshowSpeed,
    ((hrd _).trans (hkeep (by decide))).trans hshowWidth, hd3, raised_congr hregs htold, fun h => raised_congr hregs (hdegraded h),
    hbytes.trans (hquiet.sameBytes.trans hsame)⟩

/-- The page shows no link. -/
def linkGone (s : State) : State := ((s.wr pgHOST F.HOST_LINK_UP 0).wr pgHOST F.HOST_LINK_SPEED 0).wr pgHOST F.HOST_LINK_WIDTH 0

theorem linkGone_shows (s : State) : (linkGone s).rd pgHOST F.HOST_LINK_UP = 0 ∧ (linkGone s).rd pgHOST F.HOST_LINK_SPEED = 0 ∧
    (linkGone s).rd pgHOST F.HOST_LINK_WIDTH = 0 := by
  refine ⟨?_, ?_, ?_⟩ <;> rw [linkGone, State.rd, State.wr, State.wr, State.wr]
  · rw [State.rdi_wri_ne _ _ (by decide), State.rdi_wri_ne _ _ (by decide), State.rdi_wri_self]
    rfl
  · rw [State.rdi_wri_ne _ _ (by decide), State.rdi_wri_self]
    rfl
  · rw [State.rdi_wri_self]
    rfl

section
variable {s : State} (hup : s.on pgHOST F.HOST_LINK_UP = true)
include hup

theorem pcieLinkDown_spec : ∃ t, exec .pcieLinkDown s = .next t ∧ t.rd pgHOST F.HOST_LINK_UP = 0 ∧ t.rd pgHOST F.HOST_LINK_SPEED = 0 ∧
    t.rd pgHOST F.HOST_LINK_WIDTH = 0 ∧ Raised t pgHOST 0 ∧ SameBytes s t := by
  have hexec : exec .pcieLinkDown s = .next ((linkGone s).raise pgHOST 0) := by
    change Host.Outcome.next s.dropLink = _
    rw [State.dropLink, if_pos hup, linkGone]
  obtain ⟨hshowUp, hshowSpeed, hshowWidth⟩ := linkGone_shows s
  have hbytes : SameBytes s (linkGone s) := .of_eq
  rw [hexec]
  generalize linkGone s = u at *
  have hkeep {F0 : Field} (hF : fkey pgHOST F0 0 ≠ fkey pgHOST F.EVT_RAW 0) : (u.raise pgHOST 0).rd pgHOST F0 = u.rd pgHOST F0 :=
    State.rdi_raise_ne _ hF
  exact ⟨_, rfl, (hkeep (by decide)).trans hshowUp, (hkeep (by decide)).trans hshowSpeed, (hkeep (by decide)).trans hshowWidth,
    raised_raise u pgHOST 0 (by decide), hbytes.trans ((quiet_refl u).raise ..).sameBytes⟩

theorem d3hotEntry_spec : ∃ t, exec .d3hotEntry s = .next t ∧ t = { s with host := { s.host with d3hot := true } } ∧ t.linkUp = false := by
  refine ⟨{ s with host := { s.host with d3hot := true } }, ?_, rfl, ?_⟩
  · change execD3hotEntry s = _
    rw [execD3hotEntry, if_pos hup]
  · rw [State.linkUp, Bool.not_true, Bool.and_false, Bool.false_and]

theorem atsTranslationRequest_spec (fn : Fin 32) : exec (.atsTranslationRequest fn) s = .next { s with msgs := .reply 1 [fn.val, 1] :: s.msgs } := by
  change execAtsTranslationRequest fn s = _
  rw [execAtsTranslationRequest, if_pos hup]

end

/-! ## Function Level Reset (R480) -/

theorem rings_endSession (s : State) (n : Nat) (lost : Bool) : (s.endSession n lost).host.rings = s.host.rings := by
  rw [State.endSession]
  split
  · rfl
  · extract_lets mine gau1 s1 s2
    have hfold : ∀ (l : List Nat) (u : State), (l.foldl (fun t c => t.endCtx c) u).host.rings = u.host.rings := by
      intro l
      induction l with
      | nil => exact fun _ => rfl
      | cons c l ih => exact fun u => (ih _).trans (endCtx_keeps u c).2.1
    have h2 : s2.host.rings = s.host.rings := hfold mine s1
    clear_value s2
    have h3 : (if lost then s2.count pgGAU 0x060 1 else s2).host.rings = s.host.rings := by split <;> exact h2
    have hraise (u : State) : (u.raise pgGAU 5).host.rings = u.host.rings := by rw [((quiet_refl u).raise pgGAU 5).2]
    exact (hraise _).trans h3

theorem unbind_regs (s : State) (c : Nat) : RegsOnly s (s.unbind c) := by
  rw [State.unbind]
  split
  · exact regsOnly_refl s
  · split
    · exact regsOnly_refl s
    · exact (((regsOnly_refl s).wri ..).wri ..).wri ..

theorem rings_foldl {α : Type} {g : State → α → State} (hg : ∀ t x, (g t x).host.rings = t.host.rings) :
    ∀ (l : List α) (s : State), (l.foldl g s).host.rings = s.host.rings
  | [], _ => rfl
  | x :: l, s => (rings_foldl hg l (g s x)).trans (hg s x)

theorem rings_forgetRings (s : State) (fn : Nat) : (s.forgetRings fn).host.rings = s.host.rings.filter fun e => e.2.fn != fn :=
  rings_foldl (fun t c => ((Winds.refl t).complGone c).rings) _ _

/-- What a reset does to the function's requests, sessions and contexts. -/
def flrStopped (s : State) (fn : Nat) : State :=
  let cs := s.windowCtxs fn
  let s1 := s.forgetRings fn
  let mine := (s1.rqt.entries.filter fun e => cs.contains e.2.ctx).map (·.1)
  let s2 := mine.foldl (fun t i => t.flrRq i) s1
  let s3 := (s2.sessionsOf fn).foldl (fun t n => t.endSession n true) s2
  cs.foldl (fun t c => t.unbind c) s3

theorem rings_flrStopped (s : State) (fn : Nat) : (flrStopped s fn).host.rings = s.host.rings.filter fun e => e.2.fn != fn := by
  unfold flrStopped
  extract_lets cs s1 mine s2 s3
  have h1 : s1.host.rings = s.host.rings.filter fun e => e.2.fn != fn := rings_forgetRings s fn
  have h2 : s2.host.rings = s1.host.rings := rings_foldl (fun t i => ((Winds.refl t).flrRq i).rings) _ _
  have h3 : s3.host.rings = s2.host.rings := rings_foldl (fun t n => rings_endSession t n true) _ _
  rw [rings_foldl (fun t c => by rw [(unbind_regs t c).host]), h3, h2, h1]

/-- The function's window page and its SPDM connection are as after reset. -/
def windowReset (s : State) (fn : Nat) : State :=
  { s with regs := mfilterOut (fun k => k / 131072 == pgWIN fn) s.regs, gau := { s.gau with conns := mdel s.gau.conns fn } }

/-- A field of the window page. -/
def winField (F0 : Field) (i : Nat) : Bool := decide ((F0.off + F0.stride * i) * 32 + F0.lo < 131072)

theorem rdi_windowReset (s : State) {fn : Nat} {F0 : Field} {i : Nat} (hF : winField F0 i = true) :
    (windowReset s fn).rdi (pgWIN fn) F0 i = frst s.variant F0 i := by
  simp only [winField, decide_eq_true_eq] at hF
  rw [windowReset, State.rdi, ngetD, mget_mfilterOut, if_pos, Option.getD_none]
  rw [beq_iff_eq, fkey]
  omega

theorem showRqt_regs (s : State) : RegsOnly s s.showRqt :=
  ((RegsOnly.foldl (fun t i => (regsOnly_refl t).wri pgRQT F.RQT_STATE_CNT i (s.rqCount i)) (List.range 9) s).wr ..).wr ..

theorem rdi_showRqt_win (s : State) {fn : Nat} {F0 : Field} {i : Nat} : s.showRqt.rdi (pgWIN fn) F0 i = s.rdi (pgWIN fn) F0 i := by
  have hkey (F1 : Field) (j : Nat) (hF : winField F1 j = true) : fkey (pgWIN fn) F0 i ≠ fkey pgRQT F1 j := by
    simp only [winField, decide_eq_true_eq] at hF
    simp only [fkey, pgWIN, pgRQT]
    omega
  rw [State.showRqt, State.wr, State.wr, State.rdi_wri_ne _ _ (hkey _ _ (by decide)), State.rdi_wri_ne _ _ (hkey _ _ (by decide))]
  refine rdi_foldl_ne (fun j hj t => State.rdi_wri_ne _ _ (hkey _ _ ?_)) ..
  rw [List.mem_range] at hj
  exact decide_eq_true (by simp only [F.RQT_STATE_CNT]; omega)

theorem rdi_showRings_win (s : State) {fn : Nat} {F0 : Field} {i : Nat} : s.showRings.rdi (pgWIN fn) F0 i = s.rdi (pgWIN fn) F0 i := by
  have hkey (F1 : Field) (hF : winField F1 0 = true) : fkey (pgWIN fn) F0 i ≠ fkey pgINTAKE F1 0 := by
    simp only [winField, decide_eq_true_eq] at hF
    simp only [fkey, pgWIN, pgINTAKE]
    omega
  rw [State.showRings, State.wr, State.wr, State.wr, State.rdi_wri_ne _ _ (hkey _ (by decide)), State.rdi_wri_ne _ _ (hkey _ (by decide)),
    State.rdi_wri_ne _ _ (hkey _ (by decide))]

theorem vfFlr_spec {fn : Fin 32} {s : State} (hfn : fn.val ≠ 0) : ∃ t, exec (.vfFlr fn) s = .next t ∧ (∀ e ∈ t.host.rings, e.2.fn ≠ fn.val) ∧
    (∀ k, k < 64 → t.rdi (pgWIN fn.val) F.WIN_SLOT_VALID k = 0) ∧ t.rd (pgWIN fn.val) F.WIN_CMDQ_EN = 0 ∧ t.conn fn.val = {} := by
  have hexec : exec (.vfFlr fn) s = .next ((windowReset (flrStopped s fn.val) fn.val).showRings).showRqt := by
    change execVfFlr fn s = _
    rw [execVfFlr, if_neg hfn]
    rfl
  have hrings : (windowReset (flrStopped s fn.val) fn.val).host.rings = s.host.rings.filter fun e => e.2.fn != fn.val := rings_flrStopped s fn.val
  have hconn : (windowReset (flrStopped s fn.val) fn.val).conn fn.val = {} := by
    rw [windowReset, State.conn, mget_mdel_self, Option.getD_none]
  have hreset {F0 : Field} {i : Nat} := rdi_windowReset (flrStopped s fn.val) (fn := fn.val) (F0 := F0) (i := i)
  rw [hexec]
  generalize windowReset (flrStopped s fn.val) fn.val = u at *
  have hregs : RegsOnly u (u.showRings).showRqt := (showRings_regs u).trans (showRqt_regs _)
  have hrd (F0 : Field) (i : Nat) : ((u.showRings).showRqt).rdi (pgWIN fn.val) F0 i = u.rdi (pgWIN fn.val) F0 i :=
    (rdi_showRqt_win _).trans (rdi_showRings_win u)
  generalize (u.showRings).showRqt = t at *
  refine ⟨t, rfl, fun e he => ?_, fun k hk => (hrd ..).trans ((hreset ?_).trans ?_), (hrd ..).trans ((hreset (by decide)).trans ?_), ?_⟩
  · rw [hregs.host, hrings] at he
    simpa using (List.mem_filter.mp he).2
  · exact decide_eq_true (by simp only [F.WIN_SLOT_VALID]; omega)
  · simp [frst, F.WIN_SLOT_VALID]
  · simp [frst, F.WIN_CMDQ_EN]
  · rw [State.conn, hregs]
    exact hconn

/-! ## MSI-X (R493) -/

/-- The vector is open, and nothing of it is pending. -/
def vectorOpened (s : State) (k : Nat) : State :=
  { s with host := { s.host with msixOpen := nput s.host.msixOpen k 1, msixPend := nput s.host.msixPend k 0 } }

theorem nget_opened (s : State) (k : Nat) : nget (vectorOpened s k).host.msixOpen k = 1 ∧ nget (vectorOpened s k).host.msixPend k = 0 :=
  ⟨nget_nput_self s.host.msixOpen k 1, nget_nput_self s.host.msixPend k 0⟩

/-- A message of an open vector is sent or held. -/
theorem msix_open {s : State} {fn vec : Nat} (h : nget s.host.msixOpen (fn * 2048 + vec) ≠ 0) : (s.msix fn vec).host.msixOpen = s.host.msixOpen ∧
    (s.msix fn vec).host.msixPend = s.host.msixPend ∧ (s.linkUp = true → (s.msix fn vec).msgs = .msix fn vec :: s.msgs ∧
      s.msix fn vec = { s with msgs := (s.msix fn vec).msgs, ctrs := (s.msix fn vec).ctrs }) := by
  rw [State.msix, if_neg h]
  split
  · exact ⟨rfl, rfl, fun _ => ⟨rfl, rfl⟩⟩
  · next hdown => exact ⟨rfl, rfl, fun hup => absurd hup hdown⟩

theorem msixUnmask_spec {fn : Fin 32} {vec : Nat} {s : State} (hvec : vec < vectorsOf fn.val) : ∃ t, exec (.msixUnmask fn vec) s = .next t ∧
    nget t.host.msixOpen (fn.val * 2048 + vec) = 1 ∧ nget t.host.msixPend (fn.val * 2048 + vec) = 0 ∧
    (nget s.host.msixOpen (fn.val * 2048 + vec) = 0 → nget s.host.msixPend (fn.val * 2048 + vec) ≠ 0 → s.linkUp = true →
      t.msgs = .msix fn.val vec :: s.msgs) ∧ t.regs = s.regs := by
  have hexec : exec (.msixUnmask fn vec) s = .next (let u := vectorOpened s (fn.val * 2048 + vec)
      if nget s.host.msixOpen (fn.val * 2048 + vec) = 0 ∧ nget s.host.msixPend (fn.val * 2048 + vec) ≠ 0 then u.msix fn.val vec else u) := by
    change execMsixUnmask fn vec s = _
    rw [execMsixUnmask, if_pos hvec]
    rfl
  obtain ⟨hopen, hpend⟩ := nget_opened s (fn.val * 2048 + vec)
  have hregs : (vectorOpened s (fn.val * 2048 + vec)).regs = s.regs := rfl
  have hmsgs : (vectorOpened s (fn.val * 2048 + vec)).msgs = s.msgs := rfl
  have hlink : (vectorOpened s (fn.val * 2048 + vec)).linkUp = s.linkUp := rfl
  rw [hexec]
  dsimp only
  generalize vectorOpened s (fn.val * 2048 + vec) = u at *
  by_cases hgo : nget s.host.msixOpen (fn.val * 2048 + vec) = 0 ∧ nget s.host.msixPend (fn.val * 2048 + vec) ≠ 0
  · obtain ⟨hopen', hpend', hsent⟩ := msix_open (s := u) (fn := fn.val) (vec := vec) (by rw [hopen]; decide)
    rw [if_pos hgo]
    exact ⟨_, rfl, hopen' ▸ hopen, hpend' ▸ hpend, fun _ _ hup => (hsent (hlink.trans hup)).1.trans (congrArg _ hmsgs), (State.msix_regs ..).trans hregs⟩
  · rw [if_neg hgo]
    exact ⟨u, rfl, hopen, hpend, fun h0 h1 => absurd ⟨h0, h1⟩ hgo, hregs⟩

theorem winRearm_spec {fn : Fin 32} {s : State} (hsum : s.winSum fn.val ≠ 0) (hopen : nget s.host.msixOpen (fn.val * 2048) ≠ 0) (hup : s.linkUp = true) :
    ∃ t, exec (.winRearm fn) s = .next t ∧ t.msgs = .msix fn.val 0 :: s.msgs ∧ t = { s with msgs := t.msgs, ctrs := t.ctrs } := by
  obtain ⟨-, -, hsent⟩ := msix_open (s := s) (fn := fn.val) (vec := 0) (by rwa [Nat.add_zero])
  refine ⟨s.msix fn.val 0, ?_, hsent hup⟩
  change execWinRearm fn s = _
  rw [execWinRearm, if_neg hsum]

/-! ## Window reads (R495, R496) -/

/-- The data of a window read is delivered. -/
def windowPut (s : State) (bs : List Nat) (p : Bool) : State := { s with host := { s.host with winData := bs, winPoison := p } }

section
variable {fn : Fin 32} {off len : Nat} {o : LineOut} {s : State} (hready : s.ready = true)
include hready

theorem hostWindowRead_table (hoff : 0x4000000 ≤ off) : ∃ t, exec (.hostWindowRead fn off len o) s = .next t ∧
    t.host.winData = (List.range len).map (fun i => s.msixByte fn.val (off + i)) ∧ t.host.winPoison = false ∧
    t.ctr pgHOST 0x064 = s.ctr pgHOST 0x064 + 1 ∧ SameBytes s t := by
  have hexec : exec (.hostWindowRead fn off len o) s =
      .next (windowPut (s.count pgHOST 0x064 1) ((List.range len).map fun i => s.msixByte fn.val (off + i)) false) := by
    change execHostWindowRead fn off len o s = _
    rw [execHostWindowRead, if_neg (by rw [hready]; decide)]
    exact congrArg Host.Outcome.next (if_pos hoff)
  rw [hexec]
  have hctr : (s.count pgHOST 0x064 1).ctr pgHOST 0x064 = s.ctr pgHOST 0x064 + 1 := State.ctr_count_self ..
  have hbytes : SameBytes s (s.count pgHOST 0x064 1) := .of_eq
  generalize s.count pgHOST 0x064 1 = u at *
  exact ⟨_, rfl, rfl, rfl, hctr, hbytes.trans .of_eq⟩

theorem hostWindowRead_outside (hoff : off < 0x4000000) (hnone : s.aperture fn.val off = none) : ∃ t, exec (.hostWindowRead fn off len o) s = .next t ∧
    t.host.winData = List.replicate len 0 ∧ t.host.winPoison = false ∧ SameBytes s t := by
  have hexec : exec (.hostWindowRead fn off len o) s = .next (windowPut (s.count pgHOST 0x064 1) (List.replicate len 0) false) := by
    change execHostWindowRead fn off len o s = _
    rw [execHostWindowRead, if_neg (by rw [hready]; decide)]
    dsimp only
    rw [if_neg (by omega), hnone, windowPut]
  rw [hexec]
  have hbytes : SameBytes s (s.count pgHOST 0x064 1) := .of_eq
  generalize s.count pgHOST 0x064 1 = u at *
  exact ⟨_, rfl, rfl, rfl, hbytes.trans .of_eq⟩

theorem hostWindowRead_reads {c va : Nat} {ro : Bool} {s1 : State} {bs : List Nat} {p : Bool} (hoff : off < 0x4000000)
    (hap : s.aperture fn.val off = some (c, va, ro)) (hread : (s.count pgHOST 0x064 1).windowRead c va len o = (s1, bs, p)) :
    ∃ t, exec (.hostWindowRead fn off len o) s = .next t ∧ t.host.winData = bs ∧ t.host.winPoison = p := by
  refine ⟨windowPut s1 bs p, ?_, rfl, rfl⟩
  change execHostWindowRead fn off len o s = _
  rw [execHostWindowRead, if_neg (by rw [hready]; decide)]
  dsimp only
  rw [if_neg (by omega), hap]
  dsimp only
  rw [hread, windowPut]

end

/-! ## Window writes (R495, R496) -/

/-- An access that translates is accounting alone, whatever die serves it. -/
theorem access_translated {s : State} (n : Nat) {c va len pa : Nat} {write host : Bool} (hx : s.xlate c va write host len = .ok pa) :
    ∃ s1, Tallied s s1 ∧ s.access n c va write host len = (s1, .ok pa) := by
  unfold State.access
  extract_lets xp s0 s1
  have h0 : Tallied s s0 := (tallied_refl s).count ..
  have h1 : Tallied s s1 := by
    simp only [s1]
    split
    · exact h0.trans (tallied_labTouch ..)
    · exact (h0.count ..).count ..
    · split
      · exact h0.trans (tallied_labTouch ..)
      · exact (h0.count ..).count ..
  refine ⟨s1, h1, ?_⟩
  simp only [h1.xlate, hx]

/-- One byte of a host write that translates is stored, and no other line is touched. -/
theorem ctxWrite_byte {s : State} (n : Nat) {c va pa key : Nat} {x : Frame} {b : Byte} {o : LineOut} {step : Option Nat}
    (hx : s.xlate c va true true 1 = .ok pa) (hf : s.frame (pa / 4096) = some x) (hk : s.keyIn (slotOfOwner x.otype x.owner) = some key)
    (hp : o.cacheParity = false) (hb : nget s.lp.bad (pa / 64) = 0) (hgood : o.fail1 = false) :
    bget (s.ctxWrite n c va true [b.toNat] false o step).1.lp.mem pa = b ∧
      ∀ a, a / 64 ≠ pa / 64 → bget (s.ctxWrite n c va true [b.toNat] false o step).1.lp.mem a = bget s.lp.mem a := by
  obtain ⟨s1, h1, haccess⟩ := access_translated n hx
  obtain ⟨s2, h2, hwrite⟩ := lineWrite_merges (s := s1) (l := pa / 64) (key := key) (off := pa % 64) (bs := [b.toNat]) (o := o) hp
    (by rw [List.length_singleton]; omega) (.inr ⟨by rw [h1.bad]; exact hb, hgood⟩)
  have h := h1.trans h2
  have hmem := bget_putLine s2 (pa / 64) key false (length_merged (s1.lineText (pa / 64) key) (pa % 64) [b.toNat])
  have hresult : (s.ctxWrite n c va true [b.toNat] false o step).1 =
      s2.putLine (pa / 64) key (merged (s1.lineText (pa / 64) key) (pa % 64) [b.toNat]) false := by
    have hlen : max 1 [b.toNat].length = 1 := rfl
    simp only [State.ctxWrite, hlen, haccess, h1.frame, hf, h1.keyIn, hk, Option.getD_some, hwrite]
  rw [hresult]
  refine ⟨?_, fun a ha => ?_⟩
  · rw [hmem, if_pos rfl, getD_merged _ _ _ (Nat.mod_lt _ (by decide)), if_pos ⟨Nat.le_refl _, by rw [List.length_singleton]; omega⟩, Nat.sub_self,
      List.getD_cons_zero, BitVec.ofNat_toNat, BitVec.setWidth_eq]
  · rw [hmem, if_neg ha, h.mem]

section
variable {fn : Fin 32} {off : Nat} {o : LineOut} {s : State} (hready : s.ready = true) (hoff : off < 0x4000000)
include hready hoff

theorem exec_hostWindowWrite_outside (data : List (Option Byte)) (hnone : s.aperture fn.val off = none) :
    exec (.hostWindowWrite fn off data o) s = .next (s.count pgHOST 0x064 1) := by
  change execHostWindowWrite fn off data o s = _
  rw [execHostWindowWrite, if_neg (by rw [hready]; decide)]
  dsimp only
  rw [if_neg (by omega), hnone]

theorem exec_hostWindowWrite_aperture (data : List (Option Byte)) {c va : Nat} {ro : Bool} (hap : s.aperture fn.val off = some (c, va, ro)) :
    exec (.hostWindowWrite fn off data o) s = .next (let u := s.count pgHOST 0x064 1
      if ro then u else (runsOf va data).foldl (fun t r => (t.ctxWrite (t.vaDie c r.1) c r.1 true r.2 false o none).1) u) := by
  change execHostWindowWrite fn off data o s = _
  rw [execHostWindowWrite, if_neg (by rw [hready]; decide)]
  dsimp only
  rw [if_neg (by omega), hap]

theorem hostWindowWrite_dropped (data : List (Option Byte)) (hno : s.aperture fn.val off = none ∨ ∃ c va, s.aperture fn.val off = some (c, va, true)) :
    ∃ t, exec (.hostWindowWrite fn off data o) s = .next t ∧ t = { s with ctrs := t.ctrs } ∧ t.ctr pgHOST 0x064 = s.ctr pgHOST 0x064 + 1 := by
  refine ⟨s.count pgHOST 0x064 1, ?_, rfl, State.ctr_count_self ..⟩
  obtain hnone | ⟨c, va, hro⟩ := hno
  · exact exec_hostWindowWrite_outside hready hoff data hnone
  · rw [exec_hostWindowWrite_aperture hready hoff data hro]
    exact congrArg Host.Outcome.next (if_pos rfl)

theorem hostWindowWrite_stores {c va pa key : Nat} {b : Byte} {x : Frame} (hap : s.aperture fn.val off = some (c, va, false))
    (hx : s.xlate c va true true 1 = .ok pa) (hf : s.frame (pa / 4096) = some x) (hk : s.keyIn (slotOfOwner x.otype x.owner) = some key)
    (hp : o.cacheParity = false) (hb : nget s.lp.bad (pa / 64) = 0) (hgood : o.fail1 = false) :
    ∃ t, exec (.hostWindowWrite fn off [some b] o) s = .next t ∧ bget t.lp.mem pa = b ∧ ∀ a, a / 64 ≠ pa / 64 → bget t.lp.mem a = bget s.lp.mem a := by
  have hrun : exec (.hostWindowWrite fn off [some b] o) s =
      .next (((s.count pgHOST 0x064 1).ctxWrite ((s.count pgHOST 0x064 1).vaDie c va) c va true [b.toNat] false o none).1) := by
    rw [exec_hostWindowWrite_aperture hready hoff _ hap]
    rfl
  have htally : Tallied s (s.count pgHOST 0x064 1) := (tallied_refl s).count ..
  rw [hrun]
  generalize s.count pgHOST 0x064 1 = u at *
  obtain ⟨hbyte, hothers⟩ := ctxWrite_byte (s := u) (u.vaDie c va) (b := b) (step := none) ((htally.xlate ..).trans hx) (by rw [htally.frame]; exact hf)
    (by rw [htally.keyIn]; exact hk) hp (by rw [htally.bad]; exact hb) hgood
  exact ⟨_, rfl, hbyte, fun a ha => (hothers a ha).trans (by rw [htally.mem])⟩

end

/-- Settles O48: the link up, down and in D3hot, the reset of a function, MSI-X, and what a window access reaches. -/
theorem hostLinkAndWindows : Obligations.HostLinkAndWindows := by
  unfold Obligations.HostLinkAndWindows
  exact ⟨fun _ _ hperst hmain hmod hpcie hw hspeed hdown => pcieLinkUp_spec hperst hmain hmod hpcie hw hspeed hdown,
    fun _ hup => ⟨pcieLinkDown_spec hup, d3hotEntry_spec hup, atsTranslationRequest_spec hup⟩,
    fun _ _ hfn => vfFlr_spec hfn, fun _ _ _ hvec => msixUnmask_spec hvec, fun _ _ hsum hopen hup => winRearm_spec hsum hopen hup,
    fun _ _ _ _ _ hready => ⟨hostWindowRead_table hready, hostWindowRead_outside hready, fun _ _ _ _ _ _ hoff hap hread =>
      hostWindowRead_reads hready hoff hap hread⟩,
    fun _ _ _ _ hready hoff => ⟨hostWindowWrite_dropped hready hoff, fun _ _ _ _ _ _ hap hx hf hk hp hb hgood =>
      hostWindowWrite_stores hready hoff hap hx hf hk hp hb hgood⟩⟩

end Sys2Proof
end

section
/-! PROOF. O43: contexts from ENDING through the rinse to FREE; domains, reservations, DRBG, the copies of the structures (R400–R418). -/

namespace Sys2Proof

set_option Elab.async false

open Machine

/-! ## The entries of contexts -/

/-- The field that an entry's write leaves: another of the same word. -/
theorem ctxField_setCtxField_word (s : State) (c v : Nat) {F0 F1 : Field} (hF : F0.off = F1.off ∧ F0.stride = F1.stride ∧ F0.lo ≠ F1.lo) :
    (s.setCtxField F1 c v).ctxField F0 c = s.ctxField F0 c := by
  obtain ⟨hoff, hstride, hlo⟩ := hF
  refine State.rdi_wri_ne s v ?_
  simp only [fkey, hoff, hstride]
  omega

theorem ctxField_setCtxField_self (s : State) (c : Nat) (F0 : Field) (v : Nat) : (s.setCtxField F0 c v).ctxField F0 c = v % 2 ^ F0.width :=
  State.rdi_wri_self ..

/-- The counts that the first CTXS page shows are no context's state. -/
theorem ctxState_showCtxs (s : State) (c : Nat) : s.showCtxs.ctxState c = s.ctxState c := by
  have hkey (F0 : Field) (hF : F0.off < 0x800 ∧ F0.lo < 32) : fkey (ctxsPage c) F.CTXS_ENTRY_STATE (c % 512) ≠ fkey pgCTXS0 F0 0 := by
    simp only [fkey, ctxsPage, pgCTXS0, pgCTXS1, F.CTXS_ENTRY_STATE]
    split <;> omega
  rw [State.showCtxs, State.ctxState, State.ctxField, State.wr, State.wr, State.rdi_wri_ne _ _ (hkey _ (by decide)),
    State.rdi_wri_ne _ _ (hkey _ (by decide)), State.ctxState, State.ctxField]

theorem ctxState_setCtxState (s : State) (c st : Nat) : (s.setCtxState c st).ctxState c = st % 16 := by
  rw [State.setCtxState, ctxState_showCtxs]
  exact ctxField_setCtxField_self ..

theorem stateKey_ctxState (c : Nat) : stateKey (fkey (ctxsPage c) F.CTXS_ENTRY_STATE (c % 512)) = true := by
  refine decide_eq_true ?_
  simp only [fkey, ctxsPage, pgCTXS0, pgCTXS1, F.CTXS_ENTRY_STATE]
  split <;> omega

theorem Winds.ctxState {s t : State} (h : Winds s t) (c : Nat) : t.ctxState c = s.ctxState c := h.states _ _ _ (stateKey_ctxState c)

/-! ## CTX_END (R408) -/

section
variable {fn : Fin 32} {tag : Nat} {ctx : Fin 1024} {s : State} (hp : Performs s fn.val 0x02)
include hp

theorem ctxEnd_free (hfree : s.ctxState ctx.val = ctxFREE) : ∃ t, exec (.ctxEnd fn tag ctx) s = .next t ∧ Answered s t fn.val tag 0 0 ∧
    t = { s with host := t.host } := by
  have hfree' : (untake s fn.val tag 0x02).ctxState ctx.val = ctxFREE := hfree
  refine ⟨(untake s fn.val tag 0x02).respond fn.val tag stCOMPLETE 0, ?_, answered_respond rfl .., rfl⟩
  change Host.Outcome.next _ = _
  rw [hp.command, if_pos hfree']

theorem ctxEnd_ends (hopen : s.ctxOpen ctx.val = true) : ∃ t, exec (.ctxEnd fn tag ctx) s = .next t ∧
    ({ fn := fn.val, tag := tag, on := .ctxFree ctx.val, result := 0 } : Wait) ∈ t.host.waits ∧ t.ctxState ctx.val = ctxENDING ∧ Raised t pgCTXS0 0 := by
  have hopen' : (untake s fn.val tag 0x02).ctxOpen ctx.val = true := hopen
  have hnotFree : (untake s fn.val tag 0x02).ctxState ctx.val ≠ ctxFREE := by
    obtain hst | hst := ctxOpen_iff.mp hopen' <;> rw [hst] <;> decide
  have hexec : exec (.ctxEnd fn tag ctx) s = .next (((untake s fn.val tag 0x02).endCtx ctx.val).hold fn.val tag (.ctxFree ctx.val) 0) := by
    change Host.Outcome.next _ = _
    rw [hp.command, if_neg hnotFree]
  obtain ⟨hwinds, htold⟩ := endCtx_winds hopen'
  have hstate := (hwinds.ctxState ctx.val).trans (ctxState_setCtxState ..)
  rw [hexec]
  generalize (untake s fn.val tag 0x02).endCtx ctx.val = u at *
  exact ⟨_, rfl, List.mem_append_right _ (List.mem_singleton.mpr rfl), hstate, raised_congr (s := u) rfl htold⟩

end

/-! ## Domains and floor reservations (R404, R418) -/

section
variable (s : State) (c dom : Nat) (share : Bool)

theorem joinDomain_regs : RegsOnly s (s.joinDomain c dom share) := (((regsOnly_refl s).wri ..).wri ..).wri ..

theorem domainOf_joinDomain : (s.joinDomain c dom share).domainOf c = some (dom % 256) := by
  have hvalid : (s.joinDomain c dom share).ctxField F.CTXS_ENTRY_DOM_VALID c = 1 := by
    rw [State.joinDomain, ctxField_setCtxField_word _ _ _ (by decide), ctxField_setCtxField_word _ _ _ (by decide), ctxField_setCtxField_self]
    rfl
  have hdom : (s.joinDomain c dom share).ctxField F.CTXS_ENTRY_DOMAIN c = dom % 256 := by
    rw [State.joinDomain, ctxField_setCtxField_word _ _ _ (by decide), ctxField_setCtxField_self]
    rfl
  rw [State.domainOf, hvalid, hdom, if_pos rfl]

theorem share_joinDomain : (s.joinDomain c dom share).ctxField F.CTXS_ENTRY_BATCH_SHARE c = boolNat share := by
  rw [State.joinDomain, ctxField_setCtxField_self]
  cases share <;> rfl

theorem domainOf_joinDomain_ne {c' : Nat} (hc : c < 1024) (hc' : c' < 1024) (hne : c' ≠ c) : (s.joinDomain c dom share).domainOf c' = s.domainOf c' := by
  have hkeep {F0 : Field} (hF : entryField F0 = true) : (s.joinDomain c dom share).ctxField F0 c' = s.ctxField F0 c' := by
    rw [State.joinDomain, ctxField_setCtxField_ne _ _ hne hc' hc hF (by decide), ctxField_setCtxField_ne _ _ hne hc' hc hF (by decide),
      ctxField_setCtxField_ne _ _ hne hc' hc hF (by decide)]
  rw [State.domainOf, State.domainOf, hkeep (by decide), hkeep (by decide)]

end

section
variable {fn : Fin 32} {tag : Nat} {ctx : Fin 1024} {s : State}

theorem domainJoin_joins {dom : Nat} {share : Bool} (hp : Performs s fn.val 0x07) (hopen : s.ctxField F.CTXS_ENTRY_SEALED ctx.val ≠ 1)
    (hok : s.joinRefused ctx.val dom = false) : ∃ t, exec (.domainJoin fn tag ctx dom share) s = .next t ∧ Answered s t fn.val tag 0 0 ∧
      t.domainOf ctx.val = some (dom % 256) ∧ t.ctxField F.CTXS_ENTRY_BATCH_SHARE ctx.val = boolNat share ∧
      (∀ c, c < 1024 → c ≠ ctx.val → t.domainOf c = s.domainOf c) ∧ t.kv = s.kv ∧ SameBytes s t := by
  have hopen' : (untake s fn.val tag 0x07).ctxField F.CTXS_ENTRY_SEALED ctx.val ≠ 1 := hopen
  have hok' : (untake s fn.val tag 0x07).joinRefused ctx.val dom = false := hok
  have hexec : exec (.domainJoin fn tag ctx dom share) s = .next (((untake s fn.val tag 0x07).joinDomain ctx.val dom share).respond fn.val tag stCOMPLETE 0) := by
    change Host.Outcome.next _ = _
    rw [hp.command, if_neg hopen', if_neg (by rw [hok']; decide)]
  have hdom := domainOf_joinDomain (untake s fn.val tag 0x07) ctx.val dom share
  have hshare := share_joinDomain (untake s fn.val tag 0x07) ctx.val dom share
  have hothers {c : Nat} (hc : c < 1024) (hne : c ≠ ctx.val) := domainOf_joinDomain_ne (untake s fn.val tag 0x07) ctx.val dom share ctx.isLt hc hne
  have hregs := joinDomain_regs (untake s fn.val tag 0x07) ctx.val dom share
  have hkv : (untake s fn.val tag 0x07).kv = s.kv := rfl
  have hresps : (untake s fn.val tag 0x07).host.resps = s.host.resps := rfl
  have hbytes : SameBytes s (untake s fn.val tag 0x07) := .of_eq
  rw [hexec]
  generalize (untake s fn.val tag 0x07).joinDomain ctx.val dom share = u at *
  exact ⟨_, rfl, answered_respond (hregs.resps.trans hresps) .., hdom, hshare, fun c hc hne => hothers hc hne, hregs.kv.trans hkv,
    hbytes.trans (hregs.sameBytes.trans .of_eq)⟩

theorem floorReserve_reserves {die mask : Nat} (hp : Performs s fn.val 0x08) (hdie : die < 4) (hmask : mask < 2 ^ 12)
    (hfree : ∀ f ∈ bitsSet mask 12, (s.cmdFloor die f).isSome = true ∧ s.floorBusy die f ctx.val = false) (hlive : s.ctxState ctx.val = ctxLIVE) :
    ∃ t, exec (.floorReserve fn tag ctx die mask) s = .next t ∧ Answered s t fn.val tag 0 0 ∧
      t.ctxs = { s.ctxs with floors := s.ctxs.floors ++ [(ctx.val, die, mask)] } ∧ t.ctxField F.CTXS_ENTRY_FLOORS ctx.val = 1 ∧ SameBytes s t := by
  have hexec : exec (.floorReserve fn tag ctx die mask) s = .next ((({ untake s fn.val tag 0x08 with
      ctxs := { s.ctxs with floors := s.ctxs.floors ++ [(ctx.val, die, mask)] } }).setCtxField F.CTXS_ENTRY_FLOORS ctx.val 1).respond fn.val tag stCOMPLETE 0) := by
    have hthere : ((bitsSet mask 12).any fun f => (s.cmdFloor die f).isNone) = false := by
      rw [List.any_eq_false]
      intro f hf
      rw [Option.isNone_eq_false_iff.mpr (hfree f hf).1]
      decide
    have hidle : ((bitsSet mask 12).any fun f => s.floorBusy die f ctx.val) = false := by
      rw [List.any_eq_false]
      intro f hf
      simpa using (hfree f hf).2
    have hbody : ¬(((bitsSet mask 12).any fun f => ((untake s fn.val tag 0x08).cmdFloor die f).isNone) || decide (4 ≤ die ∨ 2 ^ 12 ≤ mask)) = true := by
      have hin : decide (4 ≤ die ∨ 2 ^ 12 ≤ mask) = false := decide_eq_false (by omega)
      rw [hin, Bool.or_false]
      exact fun h => absurd (hthere.symm.trans h) (by decide)
    have hlive' : ¬((untake s fn.val tag 0x08).ctxState ctx.val ≠ ctxLIVE ∨
        ((bitsSet mask 12).any fun f => (untake s fn.val tag 0x08).floorBusy die f ctx.val) = true) := by
      rintro (h | h)
      · exact h hlive
      · exact absurd (hidle.symm.trans h) (by decide)
    change Host.Outcome.next _ = _
    rw [hp.command]
    dsimp only
    rw [if_neg hbody, if_neg hlive']
    rfl
  refine ⟨_, hexec, answered_respond rfl .., rfl, ?_, .of_eq⟩
  exact ctxField_setCtxField_self { untake s fn.val tag 0x08 with ctxs := { s.ctxs with floors := s.ctxs.floors ++ [(ctx.val, die, mask)] } } ctx.val
    F.CTXS_ENTRY_FLOORS 1

theorem floorRelease_releases (hp : Performs s fn.val 0x09) : ∃ t, exec (.floorRelease fn tag ctx) s = .next t ∧ Answered s t fn.val tag 0 0 ∧
    t.ctxs = { s.ctxs with floors := s.ctxs.floors.filter fun r => r.1 != ctx.val } ∧ t.ctxField F.CTXS_ENTRY_FLOORS ctx.val = 0 ∧ SameBytes s t := by
  have hexec : exec (.floorRelease fn tag ctx) s = .next (((untake s fn.val tag 0x09).dropFloors ctx.val).respond fn.val tag stCOMPLETE 0) := by
    change Host.Outcome.next _ = _
    rw [hp.command]
  refine ⟨_, hexec, answered_respond rfl .., rfl, ?_, .of_eq⟩
  exact ctxField_setCtxField_self { untake s fn.val tag 0x09 with ctxs := { s.ctxs with floors := s.ctxs.floors.filter fun r => r.1 != ctx.val } } ctx.val
    F.CTXS_ENTRY_FLOORS 0

end

end Sys2Proof
end

section
/-! PROOF. O43, continued: quiescing, the rinse, and the copies of the structures (R401, R405, R409–R411). -/

namespace Sys2Proof

set_option Elab.async false

open Machine

/-! ## What empties a context (R409) -/

/-- From `s` to `t` keys, DRBG states and the fill's queue are the same, and a request entry that is FREE stays so. -/
structure Emptied (s t : State) : Prop where
  keys : t.lp.keys = s.lp.keys
  drbg : t.drbg = s.drbg
  ctxs : t.ctxs = s.ctxs
  gone : ∀ i, mget s.rqt.entries i = none → mget t.rqt.entries i = none

section
variable {z s t u : State}

theorem Emptied.refl (s : State) : Emptied s s := ⟨rfl, rfl, rfl, fun _ h => h⟩

theorem Emptied.trans (h : Emptied s t) (k : Emptied t u) : Emptied s u :=
  ⟨k.keys.trans h.keys, k.drbg.trans h.drbg, k.ctxs.trans h.ctxs, fun i hi => k.gone i (h.gone i hi)⟩

theorem Emptied.of (h : Emptied z s) (e1 : t.lp.keys = s.lp.keys := by rfl) (e2 : t.drbg = s.drbg := by rfl) (e3 : t.ctxs = s.ctxs := by rfl)
    (e4 : t.rqt.entries = s.rqt.entries := by rfl) : Emptied z t :=
  h.trans ⟨e1, e2, e3, fun i hi => by rwa [e4]⟩

theorem Emptied.foldl {α : Type} {g : State → α → State} (hg : ∀ t x, Emptied z t → Emptied z (g t x)) :
    ∀ (l : List α) {s : State}, Emptied z s → Emptied z (l.foldl g s)
  | [], _, h => h
  | x :: l, s, h => Emptied.foldl hg l (hg s x h)

theorem PoolsOnly.emptied (h : PoolsOnly s t) : Emptied s t :=
  ⟨by rw [h], by rw [h], by rw [h], fun _ hi => by rwa [h.rqt]⟩

theorem mget_mmod_none {α : Type} {m : AMap α} {i : Nat} (j : Nat) (f : α → α) (h : mget m i = none) : mget (mmod m j f) i = none := by
  by_cases hij : i = j
  · subst hij
    rw [mget_mmod_self, h, Option.map_none]
  · rw [mget_mmod_ne _ _ hij, h]

theorem Emptied.modRq (h : Emptied z s) (i : Nat) (f : Rq → Rq) : Emptied z (s.modRq i f) := h.trans ⟨rfl, rfl, rfl, fun _ hj => mget_mmod_none _ _ hj⟩

theorem mget_mdel_none {α : Type} {m : AMap α} {i : Nat} (j : Nat) (h : mget m i = none) : mget (mdel m j) i = none := by
  by_cases hij : i = j
  · subst hij
    exact mget_mdel_self ..
  · rw [mget_mdel_ne _ hij, h]

/-- The entry of a request is FREE. -/
def entryFreed (s : State) (i : Nat) : State := { s with rqt := { s.rqt with entries := mdel s.rqt.entries i } }

theorem Emptied.entryFreed (h : Emptied z s) (i : Nat) : Emptied z (entryFreed s i) := h.trans ⟨rfl, rfl, rfl, fun _ hj => mget_mdel_none _ hj⟩

theorem Emptied.destroyHead (h : Emptied z s) (hd : Nat) : Emptied z (s.destroyHead hd) := by
  unfold State.destroyHead
  split
  · exact h
  · extract_lets now s1 s2 kv3
    have h1 : Emptied z s1 := h.trans (PoolsOnly.foldl poolsOnly_freeEnt _ s).emptied
    have h2 : Emptied z s2 := h1.trans (PoolsOnly.foldl (fun t j => poolsOnly_giveSys t _ _) _ s1).emptied
    clear_value s2
    have h3 : Emptied z { s2 with kv := { kv3 with
        heads := mdel s2.kv.heads hd
        granules := s2.kv.granules.filter fun e => e.2 != hd
        fetches := s2.kv.fetches.filter fun m => m.head != hd
        spills := s2.kv.spills.filter fun m => m.head != hd } } := h2.of
    exact h3.trans (poolsOnly_showKv _).emptied

theorem Emptied.dropRoom (h : Emptied z s) (i : Nat) : Emptied z (s.dropRoom i) := by
  unfold State.dropRoom
  extract_lets x
  split
  · exact h
  · exact Emptied.modRq (h.trans (PoolsOnly.foldl (fun t j => poolsOnly_modPool t _ _) _ s).emptied) ..

theorem Emptied.plDestroy (h : Emptied z s) (i : Nat) : Emptied z (s.plDestroy i) := by
  unfold State.plDestroy
  split
  · exact h
  · exact ((h.dropRoom i).destroyHead _).modRq ..

theorem RegsOnly.emptied (h : RegsOnly s t) : Emptied s t := h.poolsOnly.emptied

theorem showJobs_regs (s : State) : RegsOnly s s.showJobs :=
  (RegsOnly.foldl (fun t _ => (regsOnly_refl t).wr ..) _ _).trans (RegsOnly.foldl (fun t _ => ((regsOnly_refl t).wr ..).wr ..) _ _)

/-- From `s` to `t` no context changes its state, and what the CTXS page has told stays told. -/
structure Rinses (s t : State) : Prop where
  ctxState : ∀ c, t.ctxState c = s.ctxState c
  events : ∀ bit, bit < 32 → Raised s pgCTXS0 bit → Raised t pgCTXS0 bit

theorem Winds.rinses (h : Winds s t) : Rinses s t := ⟨h.ctxState, h.events⟩

theorem Rinses.trans (h : Rinses s t) (k : Rinses t u) : Rinses s u :=
  ⟨fun c => (k.ctxState c).trans (h.ctxState c), fun b hb hr => k.events b hb (h.events b hb hr)⟩

theorem removeJob_rinses (s : State) (j : Nat) : Rinses s (s.removeJob j) := by
  have hrest : ∃ v : State, s.removeJob j = v.showJobs ∧ v.regs = s.regs ∧ v.variant = s.variant := ⟨_, rfl, rfl, rfl⟩
  obtain ⟨v, heq, hregs, hvariant⟩ := hrest
  have hstart : Rinses s v := ⟨fun _ => State.rdi_congr (s := s) hregs hvariant .., fun _ _ hr => raised_congr hregs hr⟩
  have hjobs : JobsKept v v.showJobs := .of_eq (by rw [showJobs_regs v])
  rw [heq]
  exact hstart.trans (((Aborts.refl v).showJobs).winds (fun q => (Onward.refl q v).showJobs) hjobs).rinses

theorem Emptied.removeJob (h : Emptied z s) (j : Nat) : Emptied z (s.removeJob j) := by
  have hrest : ∃ v : State, s.removeJob j = v.showJobs ∧ Emptied s v := ⟨_, rfl, (Emptied.refl s).of⟩
  obtain ⟨v, heq, hv⟩ := hrest
  rw [heq]
  exact h.trans (hv.trans (showJobs_regs v).emptied)

/-! ## Request entries, lists and jobs of the context -/

/-- The entries named have lost their lists, and are FREE. -/
def entriesDropped (s : State) (l : List Nat) : State := l.foldl (fun t i => entryFreed (t.plDestroy i) i) s

theorem Winds.entriesDropped (h : Winds z s) (l : List Nat) : Winds z (entriesDropped s l) := .foldl (fun _ i ht => (ht.plDestroy i).of) _ h

theorem Emptied.entriesDropped (h : Emptied z s) (l : List Nat) : Emptied z (entriesDropped s l) := .foldl (fun _ i ht => (ht.plDestroy i).entryFreed i) _ h

theorem mget_entriesDropped (l : List Nat) (s : State) {i : Nat} (hi : i ∈ l) : mget (entriesDropped s l).rqt.entries i = none := by
  induction l generalizing s with
  | nil => exact absurd hi List.not_mem_nil
  | cons j l ih =>
    rw [entriesDropped, List.foldl_cons]
    by_cases hl : i ∈ l
    · exact ih _ hl
    · obtain rfl := (List.mem_cons.mp hi).resolve_right hl
      have hfreed : mget (entryFreed (s.plDestroy i) i).rqt.entries i = none := mget_mdel_self ..
      exact ((Emptied.refl _).entriesDropped l).gone i hfreed

/-- Pools, records, casks and completions of the context go. -/
def poolsDropped (s : State) (c : Nat) : State :=
  let pools := (s.kv.pools.filter fun e => !e.2.isDomain && e.2.owner == c).map (·.1)
  { s with
    kv := { s.kv with
      pools := s.kv.pools.filter fun e => !pools.contains e.1
      recs := s.kv.recs.filter fun e => !pools.contains e.2.pool
      granules := s.kv.granules.filter fun e => e.1 / 4096 != c
      spillCtr := mdel s.kv.spillCtr c }
    casks := s.casks.filter fun e => e.2.ctx != c
    rqt := { s.rqt with outQ := s.rqt.outQ.filter fun x => ringCtx x.ring != c } }

/-- The context is in no domain. -/
def domainLeft (s : State) (c : Nat) : State :=
  ((s.setCtxField F.CTXS_ENTRY_DOM_VALID c 0).setCtxField F.CTXS_ENTRY_DOMAIN c 0).setCtxField F.CTXS_ENTRY_BATCH_SHARE c 0

theorem dropHoldings_eq (s : State) (c : Nat) : s.dropHoldings c =
    (let s1 := entriesDropped s ((s.rqt.entries.filter fun e => e.2.ctx == c).map (·.1))
    let s2 := ((s1.kv.heads.filter fun e => e.2.ctx == c).map (·.1)).foldl (fun t h => t.destroyHead h) s1
    let s3 := poolsDropped s2 c
    let s4 := ((s3.keg.jobs.filter fun e => e.2.ctx == c).map (·.1)).foldl (fun t j => t.removeJob j) s3
    (domainLeft s4 c).showRqt.showKv.showCasks) := rfl

theorem Winds.domainLeft (h : Winds z s) (c : Nat) : Winds z (domainLeft s c) :=
  ((h.setEntry _ (by decide)).setEntry _ (by decide)).setEntry _ (by decide)

theorem domainLeft_regs (s : State) (c : Nat) : RegsOnly s (domainLeft s c) := (((regsOnly_refl s).wri ..).wri ..).wri ..

theorem dropHoldings_rinses (s : State) (c : Nat) : Rinses s (s.dropHoldings c) := by
  rw [dropHoldings_eq]
  extract_lets s1 s2 s3 s4
  have h2 : Winds s s2 := .foldl (fun _ _ ht => ht.destroyHead _) _ ((Winds.refl s).entriesDropped _)
  have h3 : Winds s s3 := h2.of
  have h4 : Rinses s s4 :=
    List.foldlRecOn (motive := fun t => Rinses s t) _ _ h3.rinses fun t ht j _ => ht.trans (removeJob_rinses t j)
  exact h4.trans ((((Winds.refl s4).domainLeft c).showRqt).showKv.wrHub ..).rinses

theorem Emptied.dropHoldings (h : Emptied z s) (c : Nat) : Emptied z (s.dropHoldings c) := by
  rw [dropHoldings_eq]
  extract_lets s1 s2 s3 s4
  have h2 : Emptied z s2 := .foldl (fun _ _ ht => ht.destroyHead _) _ (h.entriesDropped _)
  have h3 : Emptied z s3 := h2.of
  have h4 : Emptied z s4 := .foldl (fun _ _ ht => ht.removeJob _) _ h3
  exact h4.trans ((((domainLeft_regs s4 c).trans (showRqt_regs _)).trans (showKv_regs _)).wr ..).emptied

theorem mget_dropHoldings (s : State) (c : Nat) {i : Nat} {y : Rq} (hy : mget s.rqt.entries i = some y) (hc : y.ctx = c) :
    mget (s.dropHoldings c).rqt.entries i = none := by
  have hmine : i ∈ (s.rqt.entries.filter fun e => e.2.ctx == c).map (·.1) :=
    List.mem_map.mpr ⟨(i, y), List.mem_filter.mpr ⟨mem_of_mget hy, beq_iff_eq.mpr hc⟩, rfl⟩
  have hnone := mget_entriesDropped _ s hmine
  rw [dropHoldings_eq]
  extract_lets s1 s2 s3 s4
  have h2 : Emptied s1 s2 := .foldl (fun _ _ ht => ht.destroyHead _) _ (.refl s1)
  have h3 : Emptied s1 s3 := h2.of
  have h4 : Emptied s1 s4 := .foldl (fun _ _ ht => ht.removeJob _) _ h3
  exact (h4.trans ((((domainLeft_regs s4 c).trans (showRqt_regs _)).trans (showKv_regs _)).wr ..).emptied).gone i hnone

/-! ## Banks and segments of the context -/

theorem die_of_pageKind {pg : Nat} {k : PageKind} (h : pageKind pg = some k) (hk : k = .vat ∨ k = .floor) : 0x1000 ≤ pg := by
  by_contra hlt
  have hdie : ¬(0x1000 ≤ pg ∧ pg < 0x5000) := fun hp => hlt hp.1
  rcases hk with rfl | rfl <;> simp [pageKind, hdie, ite_eq_iff] at h

theorem pageKind_ownedEntries {k : PageKind} {fv fc : Field} {c : Nat} {b : Nat × Nat} (hb : b ∈ s.ownedEntries k fv fc c) : pageKind b.1 = some k := by
  rw [State.ownedEntries, List.mem_filterMap] at hb
  obtain ⟨e, -, he⟩ := hb
  dsimp only at he
  split at he
  · next hcond =>
    split at he
    · split at he
      · cases he
        exact hcond.2.2.1
      · cases he
    · cases he
  · cases he

theorem Winds.clearStores (h : Winds z s) (c : Nat) : Winds z (s.clearStores c) := by
  unfold State.clearStores
  extract_lets s1
  have hmem {α : Type} {g : State → α → State} {l : List α} {P : α → Prop} (hl : ∀ x ∈ l, P x) (hg : ∀ x, P x → ∀ t, Winds z t → Winds z (g t x)) :
      ∀ {v : State}, Winds z v → Winds z (l.foldl g v) := by
    induction l with
    | nil => exact fun hv => hv
    | cons x l ih => exact fun hv => ih (fun y hy => hl y (List.mem_cons_of_mem _ hy)) (hg x (hl x (by simp)) _ hv)
  have h1 : Winds z s1 := by
    refine hmem (P := fun b => 0x1000 ≤ b.1) (fun b hb => die_of_pageKind (pageKind_ownedEntries hb) (.inl rfl)) (fun b hpg t ht => ?_) h
    exact .ite ((((ht.wri _ _ _ hpg).wri _ _ _ hpg).wri _ _ _ hpg).wri _ _ _ hpg) (.ite ht (Winds.wri (Winds.of (ht.wri _ _ _ hpg)) _ _ _ hpg))
  refine hmem (P := fun g => 0x1000 ≤ g.1) (fun g hg => die_of_pageKind (pageKind_ownedEntries hg) (.inr rfl)) (fun g hpg t ht => ?_) h1
  exact .ite ((((ht.wri _ _ _ hpg).wri _ _ _ hpg).wri _ _ _ hpg).wri _ _ _ hpg) (.ite ht (Winds.wri (Winds.of (ht.wri _ _ _ hpg)) _ _ _ hpg))

theorem Emptied.ite {c : Prop} [Decidable c] (h : Emptied z s) (k : Emptied z t) : Emptied z (if c then s else t) := by
  split <;> assumption

theorem Emptied.clearStores (h : Emptied z s) (c : Nat) : Emptied z (s.clearStores c) := by
  unfold State.clearStores
  exact .foldl (fun _ _ ht => .ite ht.of (.ite ht ht.of)) _ (.foldl (fun _ _ ht => .ite ht.of (.ite ht ht.of)) _ h)

end

end Sys2Proof
end

section
/-! PROOF. O43, concluded: CTX_QUIESCED, the fill, CTX_FREE, the copies of the structures, the DRBG (R401, R405, R409–R411). -/

namespace Sys2Proof

set_option Elab.async false

open Machine

/-! ## CTX_QUIESCED (R409) -/

/-- The keys are destroyed, the context is RINSING, and that is told. -/
def rinsingTold (s : State) (c : Nat) : State := ((s.destroyKeys c).setCtxState c ctxRINSING).raise pgCTXS0 1

/-- No look-aside buffer holds a translation of the context. -/
def labCleared (s : State) (c : Nat) : State :=
  { s with lp := { s.lp with lab := s.lp.lab.filter fun e => e % 2 ^ 42 / 2 ^ 31 != c || e % 2 ^ 42 / 2 ^ 41 == 1 } }

/-- What the context held has gone. -/
def holdingsGone (s : State) (c : Nat) : State := labCleared (((s.dropSpiles c).dropHoldings c).clearStores c) c

theorem rinseCtx_eq (s : State) (c : Nat) : s.rinseCtx c = (holdingsGone (rinsingTold s c) c).joinFill c := by
  rw [State.rinseCtx, holdingsGone, labCleared, rinsingTold]

theorem labCleared_winds (s : State) (c : Nat) : Winds s (labCleared s c) := (Winds.refl s).of
theorem labCleared_emptied (s : State) (c : Nat) : Emptied s (labCleared s c) := (Emptied.refl s).of

theorem destroyKeys_spec (s : State) (c : Nat) : (s.destroyKeys c).lp.keys = mdel s.lp.keys c ∧ (s.destroyKeys c).drbg = mdel s.drbg c ∧
    (s.destroyKeys c).ctxs = s.ctxs ∧ (s.destroyKeys c).rqt = s.rqt := by
  have hregs := showKeys_regs { s with lp := { s.lp with keys := mdel s.lp.keys c } }
  rw [State.destroyKeys, State.destroyKey]
  generalize State.showKeys _ = u at *
  refine ⟨?_, ?_, ?_, ?_⟩ <;> rw [hregs]

theorem rinsingTold_spec (s : State) (c : Nat) : (rinsingTold s c).ctxState c = ctxRINSING ∧ mget (rinsingTold s c).lp.keys c = none ∧
    mget (rinsingTold s c).drbg c = none ∧ Raised (rinsingTold s c) pgCTXS0 1 ∧ (rinsingTold s c).ctxs = s.ctxs ∧ (rinsingTold s c).rqt = s.rqt := by
  obtain ⟨hkeys, hdrbg, hctxs, hrqt⟩ := destroyKeys_spec s c
  rw [rinsingTold]
  generalize s.destroyKeys c = u at *
  have hstate := ctxState_setCtxState u c ctxRINSING
  have hregs := setCtxState_regs u c ctxRINSING
  generalize u.setCtxState c ctxRINSING = v at *
  have hwinds := (Winds.refl v).raise pgCTXS0 1
  have hquiet := (quiet_refl v).raise pgCTXS0 1
  have htold := raised_raise v pgCTXS0 1 (by decide)
  refine ⟨(hwinds.ctxState c).trans hstate, ?_, ?_, htold, ?_, ?_⟩
  · rw [hquiet.lp, hregs.lp, hkeys, mget_mdel_self]
  · rw [hquiet.1, hregs, hdrbg, mget_mdel_self]
  · rw [State.raise_ctxs, hregs, hctxs]
  · rw [State.raise_rqt, hregs.rqt, hrqt]

theorem holdingsGone_rinses (s : State) (c : Nat) : Rinses s (holdingsGone s c) := by
  have hspiles : Winds s (s.dropSpiles c) := (Winds.refl s).of
  exact (hspiles.rinses.trans (dropHoldings_rinses _ c)).trans (((Winds.refl _).clearStores c).trans (labCleared_winds _ c)).rinses

theorem holdingsGone_emptied (s : State) (c : Nat) : Emptied s (holdingsGone s c) :=
  (((Emptied.refl s).of.dropHoldings c).clearStores c).trans (labCleared_emptied _ c)

theorem mget_holdingsGone (s : State) (c : Nat) {i : Nat} {y : Rq} (hy : mget s.rqt.entries i = some y) (hc : y.ctx = c) :
    mget (holdingsGone s c).rqt.entries i = none :=
  (((Emptied.refl _).clearStores c).trans (labCleared_emptied _ c)).gone i (mget_dropHoldings (s.dropSpiles c) c hy hc)

/-- A context joins the fill at the end of its queue, and nothing else of the state changes. -/
theorem joinFill_spec (s : State) (c : Nat) : ∃ x, (s.joinFill c).ctxs.queue = s.ctxs.queue ++ [x] ∧ x.ctx = c ∧
    s.joinFill c = { s with ctxs := (s.joinFill c).ctxs } := ⟨_, rfl, rfl, rfl⟩

theorem ctxQuiesced_rinses {ctx : Fin 1024} {s : State} (hending : s.ctxState ctx.val = ctxENDING) (hidle : s.stillBusy ctx.val = false) :
    ∃ t x, exec (.ctxQuiesced ctx) s = .next t ∧ t.ctxState ctx.val = ctxRINSING ∧ t.keyIn ctx.val = none ∧ mget t.drbg ctx.val = none ∧
      Raised t pgCTXS0 1 ∧ t.ctxs.queue = s.ctxs.queue ++ [x] ∧ x.ctx = ctx.val ∧
      (∀ i y, mget s.rqt.entries i = some y → y.ctx = ctx.val → mget t.rqt.entries i = none) := by
  have hexec : exec (.ctxQuiesced ctx) s = .next ((holdingsGone (rinsingTold s ctx.val) ctx.val).joinFill ctx.val) := by
    change execCtxQuiesced ctx s = _
    rw [execCtxQuiesced, if_pos ⟨hending, hidle⟩, rinseCtx_eq]
  obtain ⟨hstate, hkeys, hdrbg, htold, hctxs, hrqt⟩ := rinsingTold_spec s ctx.val
  rw [hexec]
  generalize rinsingTold s ctx.val = u at *
  have hrinses := holdingsGone_rinses u ctx.val
  have hemptied := holdingsGone_emptied u ctx.val
  have hgone {i : Nat} {y : Rq} := mget_holdingsGone u ctx.val (i := i) (y := y)
  generalize holdingsGone u ctx.val = v at *
  obtain ⟨x, hqueue, hx, hrest⟩ := joinFill_spec v ctx.val
  have hlast : Winds v (v.joinFill ctx.val) := (Winds.refl v).of (by rw [hrest]) (by rw [hrest]) (by rw [hrest]) (by rw [hrest]) (by rw [hrest])
    (by rw [hrest]) (by rw [hrest]) (by rw [hrest]) (by rw [hrest]) (by rw [hrest])
  generalize v.joinFill ctx.val = t at *
  refine ⟨t, x, rfl, (hlast.ctxState _).trans ((hrinses.ctxState _).trans hstate), ?_, ?_,
    hlast.events 1 (by decide) (hrinses.events 1 (by decide) htold), ?_, hx, fun i y hy hc => ?_⟩
  · have hslot : ctx.val ≠ slotSystem := Nat.ne_of_lt (Nat.lt_trans ctx.isLt (by decide))
    rw [State.keyIn, if_neg hslot, hrest]
    exact (congrArg (fun m => mget m ctx.val) hemptied.keys).trans hkeys
  · rw [hrest]
    exact (congrArg (fun m => mget m ctx.val) hemptied.drbg).trans hdrbg
  · rw [hqueue, hemptied.ctxs, hctxs]
  · rw [hrest]
    exact hgone (by rw [hrqt]; exact hy) hc

/-! ## The fill frees the context's frames (R410) -/

/-- A frame goes back; one with RETIRE_PEND is retired. -/
def frameFreed (t : State) (f : Nat) : State :=
  match t.frame f with
  | some x =>
    if x.pend then (t.setFrame f { otype := 3, owner := 0, kind := 0 }).bump (pgXLT (frameDie f)) F.XLT_RETIRED_FRAMES 1
    else { t with lp := { t.lp with frames := mdel t.lp.frames f } }
  | none => t

/-- Leaves, tables and recoveries of the context go. -/
def tablesFreed (s : State) (c : Nat) (fs : List Nat) : State :=
  let tabs := s.lp.tabs.filter fun e => e.1 / 2 ^ 23 == c
  let s3 := tabs.foldl (fun t e => t.giveSys (e.2 - 1) 2) s
  { s3 with lp := { s3.lp with
      tabs := s3.lp.tabs.filter fun e => e.1 / 2 ^ 23 != c
      leaves := s3.lp.leaves.filter fun e => e.1 / 2 ^ 31 != c
      recov := s3.lp.recov.filter fun e => !fs.contains e.1 } }

theorem freeMemory_eq (s : State) (c : Nat) : s.freeMemory c =
    tablesFreed ((s.framesOf c).foldl frameFreed (s.zeroFrames fun f => (s.framesOf c).contains f)) c (s.framesOf c) := rfl

/-- From `s` to `t` nothing of the frame table, of the bytes of main memory and of contexts' progress changes. -/
structure FramesKept (s t : State) : Prop where
  mem : t.lp.mem = s.lp.mem
  ctxs : t.ctxs = s.ctxs

theorem frameFreed_kept (t : State) (f : Nat) : FramesKept t (frameFreed t f) := by
  rw [frameFreed]
  split
  · split <;> exact ⟨rfl, rfl⟩
  · exact ⟨rfl, rfl⟩

theorem framesFreed_kept (l : List Nat) (s : State) : FramesKept s (l.foldl frameFreed s) := by
  induction l generalizing s with
  | nil => exact ⟨rfl, rfl⟩
  | cons f l ih =>
    obtain ⟨hmem, hctxs⟩ := ih (frameFreed s f)
    obtain ⟨hmem', hctxs'⟩ := frameFreed_kept s f
    exact ⟨hmem.trans hmem', hctxs.trans hctxs'⟩

theorem frame_frameFreed_ne (t : State) {f f' : Nat} (h : f' ≠ f) : (frameFreed t f).frame f' = t.frame f' := by
  rw [frameFreed]
  split
  · split
    · exact mget_mput_ne _ _ h
    · exact mget_mdel_ne _ h
  · rfl

theorem frame_frameFreed_self {t : State} {f : Nat} {y : Frame} (hy : t.frame f = some y) (hpend : y.pend = false) : (frameFreed t f).frame f = none := by
  rw [frameFreed, hy]
  dsimp only
  rw [if_neg (by rw [hpend]; decide)]
  exact mget_mdel_self ..

theorem frameFreed_none {t : State} {f : Nat} (h : t.frame f = none) : frameFreed t f = t := by rw [frameFreed, h]

theorem frame_framesFreed {f : Nat} {y : Frame} (hpend : y.pend = false) (l : List Nat) (s : State)
    (h : s.frame f = none ∨ f ∈ l ∧ s.frame f = some y) : (l.foldl frameFreed s).frame f = none := by
  induction l generalizing s with
  | nil => exact h.resolve_right fun ⟨hm, _⟩ => List.not_mem_nil hm
  | cons g l ih =>
    refine ih _ ?_
    by_cases hfg : f = g
    · subst hfg
      obtain hnone | ⟨-, hsome⟩ := h
      · exact .inl (by rw [frameFreed_none hnone, hnone])
      · exact .inl (frame_frameFreed_self hsome hpend)
    · rw [frame_frameFreed_ne _ hfg]
      exact h.imp_right fun ⟨hm, hsome⟩ => ⟨(List.mem_cons.mp hm).resolve_left hfg, hsome⟩

theorem tablesFreed_spec (s : State) (c : Nat) (fs : List Nat) : (tablesFreed s c fs).lp.mem = s.lp.mem ∧ (tablesFreed s c fs).lp.frames = s.lp.frames ∧
    (tablesFreed s c fs).ctxs = s.ctxs := by
  have hregs : RegsOnly s ((s.lp.tabs.filter fun e => e.1 / 2 ^ 23 == c).foldl (fun t e => t.giveSys (e.2 - 1) 2) s) :=
    .foldl (fun t e => (regsOnly_refl t).wr ..) _ s
  rw [tablesFreed]
  generalize ((s.lp.tabs.filter fun e => e.1 / 2 ^ 23 == c).foldl (fun t e => t.giveSys (e.2 - 1) 2) s) = u at *
  refine ⟨?_, ?_, ?_⟩ <;> rw [hregs]

theorem freeMemory_spec (s : State) (c : Nat) : (s.freeMemory c).ctxs = s.ctxs ∧
    (∀ a, bget (s.freeMemory c).lp.mem a = if a / 4096 ∈ s.framesOf c then 0 else bget s.lp.mem a) ∧
    ∀ f y, f ∈ s.framesOf c → s.frame f = some y → y.pend = false → (s.freeMemory c).frame f = none := by
  rw [freeMemory_eq]
  generalize hfs : s.framesOf c = fs
  have hzero : (s.zeroFrames fun f => fs.contains f).ctxs = s.ctxs := rfl
  have hframe : (s.zeroFrames fun f => fs.contains f).frame = s.frame := rfl
  have hmem : (s.zeroFrames fun f => fs.contains f).lp.mem = mfilterOut (fun k => fs.contains (k / 4096)) s.lp.mem := rfl
  generalize (s.zeroFrames fun f => fs.contains f) = u at *
  obtain ⟨hmem', hctxs'⟩ := framesFreed_kept fs u
  have hgone {f : Nat} {y : Frame} (hf : f ∈ fs) (hy : s.frame f = some y) (hpend : y.pend = false) := frame_framesFreed hpend fs u (.inr ⟨hf, by rw [hframe, hy]⟩)
  generalize fs.foldl frameFreed u = v at *
  obtain ⟨hmem'', hframes'', hctxs''⟩ := tablesFreed_spec v c fs
  refine ⟨hctxs''.trans (hctxs'.trans hzero), fun a => ?_, fun f y hf hy hpend => ?_⟩
  · rw [hmem'', hmem', hmem, bget_mfilterOut]
    exact if_congr List.contains_iff_mem rfl rfl
  · rw [State.frame, hframes'']
    exact hgone hf hy hpend

theorem mem_framesOf {s : State} {c f : Nat} : f ∈ s.framesOf c ↔ ∃ y, (f, y) ∈ s.lp.frames ∧ y.otype = 0 ∧ y.owner = c := by
  simp [State.framesOf, and_assoc]

/-- The fill goes on with the next context in the queue, or ends. -/
def fillPassed (s : State) (x : Rinse) (rest : List Rinse) (r : Nat) (fill clk now : Nat) (ramp : Bool) : State :=
  let next := rest.head?.map fun y => { y with base := fill, inRamp := ramp }
  { s with ctxs := { s.ctxs with
      queue := match next with
        | some y => y :: rest.tail
        | none => []
      rampIn := if rest.isEmpty then none else some r
      rampOut := if rest.isEmpty then some clk else none
      filled := s.ctxs.filled ++ [(x.ctx, now)] } }

theorem fillPassed_queue (s : State) (x : Rinse) (rest : List Rinse) (r fill clk now : Nat) (ramp : Bool) :
    (fillPassed s x rest r fill clk now ramp).ctxs.queue.length = rest.length := by
  cases rest with
  | nil => rfl
  | cons y ys => rfl

theorem rinseFillEnd_spec {s : State} {x : Rinse} {rest : List Rinse} {r : Nat} (hqueue : s.ctxs.queue = x :: rest) (hramp : s.ctxs.rampIn = some r)
    (hfill : x.base + x.need * (256 * max 1 (s.rd pgCTXS0 F.CTXS_RINSE_LINE_CLK)) ≤ s.fillNow) (hin : x.inRamp = true → r + s.rampClk ≤ s.now)
    (hr : r ≤ s.now) : ∃ t, exec .rinseFillEnd s = .next t ∧ t.ctxs.queue.length = rest.length ∧ t.ctxs.filled = s.ctxs.filled ++ [(x.ctx, s.now)] ∧
      (∀ f y, s.frame f = some y → y.otype = 0 → y.owner = x.ctx → (y.pend = false → t.frame f = none) ∧
        ∀ a, a / 4096 = f → bget t.lp.mem a = 0) ∧
      (∀ a, (∀ y, s.frame (a / 4096) = some y → y.otype ≠ 0 ∨ y.owner ≠ x.ctx) → (∀ e ∈ s.lp.frames, e.1 = a / 4096 → s.frame e.1 = some e.2) →
        bget t.lp.mem a = bget s.lp.mem a) := by
  have hgo : ¬(s.fillNow < x.base + x.need * (256 * max 1 (s.rd pgCTXS0 F.CTXS_RINSE_LINE_CLK)) ∨ (x.inRamp = true ∧ s.now < r + s.rampClk) ∨ s.now < r) := by
    rintro (h | ⟨h, hlt⟩ | h)
    · omega
    · exact absurd (hin h) (by omega)
    · omega
  have hexec : ∃ lines pads, exec .rinseFillEnd s = .next (fillPassed ((s.freeMemory x.ctx).countFill lines pads) x rest r s.fillNow s.now s.now
      (decide (s.now < r + s.rampClk))).recount := by
    refine ⟨x.lines, s.channels * ((s.fillNow - x.base) / (256 * max 1 (s.rd pgCTXS0 F.CTXS_RINSE_LINE_CLK))) - ceilDiv (33 * x.lines) 32, ?_⟩
    change execRinseFillEnd s = _
    rw [execRinseFillEnd, hqueue, hramp]
    dsimp only
    rw [if_neg hgo]
    rfl
  obtain ⟨lines, pads, hexec⟩ := hexec
  obtain ⟨hctxs, hmem, hfreed⟩ := freeMemory_spec s x.ctx
  rw [hexec]
  generalize s.freeMemory x.ctx = u at *
  have hlp : (fillPassed (u.countFill lines pads) x rest r s.fillNow s.now s.now (decide (s.now < r + s.rampClk))).lp = u.lp := rfl
  have hfilled : (fillPassed (u.countFill lines pads) x rest r s.fillNow s.now s.now (decide (s.now < r + s.rampClk))).ctxs.filled =
      u.ctxs.filled ++ [(x.ctx, s.now)] := rfl
  have hlen := fillPassed_queue (u.countFill lines pads) x rest r s.fillNow s.now s.now (decide (s.now < r + s.rampClk))
  generalize fillPassed (u.countFill lines pads) x rest r s.fillNow s.now s.now (decide (s.now < r + s.rampClk)) = v at *
  have hquiet := (quiet_refl v).recount
  have hlp' : v.recount.lp = u.lp := hquiet.lp.trans hlp
  have hctxs' : v.recount.ctxs = v.ctxs := by rw [hquiet.1]
  have hbyte (a : Nat) : bget v.recount.lp.mem a = if a / 4096 ∈ s.framesOf x.ctx then 0 else bget s.lp.mem a := by rw [hlp', hmem]
  refine ⟨_, rfl, by rw [hctxs', hlen], by rw [hctxs', hfilled, hctxs], fun f y hy htype howner => ?_, fun a hother honly => ?_⟩
  · have hmine : f ∈ s.framesOf x.ctx := mem_framesOf.mpr ⟨y, mem_of_mget hy, htype, howner⟩
    refine ⟨fun hpend => ?_, fun a ha => ?_⟩
    · rw [State.frame, hlp']
      exact hfreed f y hmine hy hpend
    · rw [hbyte, if_pos (by rw [ha]; exact hmine)]
  · rw [hbyte, if_neg]
    intro hmine
    obtain ⟨y, hy, htype, howner⟩ := mem_framesOf.mp hmine
    exact (hother y (honly _ hy rfl)).elim (fun h => h htype) fun h => h howner

/-! ## The context is FREE (R411) -/

/-- The pages of the context are as after reset. -/
def pagesCleared (s : State) (c : Nat) : State :=
  { s with
    regs := mfilterOut (fun k => k / 131072 == pgSPL c || k / 131072 == pgCNT c || k / 131072 == pgCEV c) s.regs
    ctrs := mfilterOut (fun k => k / 4096 == pgSPL c || k / 4096 == pgCNT c || k / 4096 == pgCEV c) s.ctrs
    shadow := mfilterOut (fun pg => pg == pgSPL c || pg == pgCNT c || pg == pgCEV c) s.shadow }

/-- Does a command wait for the context to be FREE? -/
def waitsForCtx (c : Nat) (w : WaitOn) : Bool := match w with
  | .ctxFree d => d == c
  | _ => false

theorem freeCtx_eq (s : State) (c : Nat) : s.freeCtx c =
    (pagesCleared ((s.setCtxField F.CTXS_ENTRY_SEALED c 0).setCtxState c ctxFREE) c).wake (waitsForCtx c) stCOMPLETE := rfl

theorem wake_rest (s : State) (done : WaitOn → Bool) (st : Nat) : s.wake done st = { s with host := (s.wake done st).host } := by
  have hall : ∀ (l : List Wait) (u : State), l.foldl (fun t w => t.respond w.fn w.tag st w.result) u =
      { u with host := (l.foldl (fun t w => t.respond w.fn w.tag st w.result) u).host } := by
    intro l
    induction l with
    | nil => exact fun _ => rfl
    | cons w l ih => exact fun u => (ih _).trans rfl
  rw [State.wake]
  exact (hall _ _).trans rfl

theorem rdi_pagesCleared (s : State) (c : Nat) {pg i : Nat} {F0 : Field} (hlow : fkey pg F0 i < 0x20000 * 131072) : (pagesCleared s c).rdi pg F0 i = s.rdi pg F0 i := by
  rw [State.rdi, State.rdi, pagesCleared, ngetD, ngetD, mget_mfilterOut, if_neg]
  simp only [Bool.or_eq_true, beq_iff_eq, pgSPL, pgCNT, pgCEV]
  omega

theorem ctr_pagesCleared (s : State) (c : Nat) {pg off : Nat} (hlow : pg * 4096 + off < 0x20000 * 4096) : (pagesCleared s c).ctr pg off = s.ctr pg off := by
  rw [State.ctr, State.ctr, pagesCleared, nget, nget, ngetD, ngetD, mget_mfilterOut, if_neg]
  simp only [Bool.or_eq_true, beq_iff_eq, pgSPL, pgCNT, pgCEV]
  omega

/-- The context's entry tells that it is FREE. -/
def entryFree (s : State) (c : Nat) : State := (s.setCtxField F.CTXS_ENTRY_SEALED c 0).setCtxState c ctxFREE

theorem ctxState_low (c : Nat) : fkey (ctxsPage c) F.CTXS_ENTRY_STATE (c % 512) < 0x20000 * 131072 := by
  simp only [fkey, ctxsPage, pgCTXS0, pgCTXS1, F.CTXS_ENTRY_STATE]
  split <;> omega

theorem freeCtx_spec (s : State) (c : Nat) : (s.freeCtx c).ctxState c = ctxFREE ∧ (s.freeCtx c).ctxs = s.ctxs ∧
    (s.freeCtx c).ctr pgCTXS0 0x050 = s.ctr pgCTXS0 0x050 ∧
    ∀ w : Wait, s.host.waits = [w] → w.on = .ctxFree c → (s.freeCtx c).host.waits = [] ∧ Answered s (s.freeCtx c) w.fn w.tag stCOMPLETE w.result := by
  have hstate := ctxState_setCtxState (s.setCtxField F.CTXS_ENTRY_SEALED c 0) c ctxFREE
  have hregs : RegsOnly s (entryFree s c) := ((regsOnly_refl s).wri ..).trans (setCtxState_regs ..)
  rw [freeCtx_eq, ← entryFree]
  rw [← entryFree] at hstate
  generalize entryFree s c = u at *
  have hstate' : (pagesCleared u c).ctxState c = ctxFREE := (rdi_pagesCleared u c (ctxState_low c)).trans hstate
  have hctr := ctr_pagesCleared u c (pg := pgCTXS0) (off := 0x050) (by decide)
  have hhost : (pagesCleared u c).host = u.host := rfl
  have hctxs : (pagesCleared u c).ctxs = u.ctxs := rfl
  generalize pagesCleared u c = v at *
  have hrest := wake_rest v (waitsForCtx c) stCOMPLETE
  have hone {w : Wait} := wake_one (s := v) (done := waitsForCtx c) (w := w) stCOMPLETE
  generalize v.wake (waitsForCtx c) stCOMPLETE = t at *
  have hregs' : t.regs = v.regs := by rw [hrest]
  have hvar : t.variant = v.variant := by rw [hrest]
  have hctrs : t.ctrs = v.ctrs := by rw [hrest]
  refine ⟨(State.rdi_congr (s := v) hregs' hvar ..).trans hstate', ?_, ?_, fun w hw hon => ?_⟩
  · rw [hrest]
    exact hctxs.trans (by rw [hregs])
  · rw [State.ctr, hctrs, ← State.ctr, hctr, State.ctr, hregs.ctrs, State.ctr]
  · have hhost' : v.host = s.host := hhost.trans hregs.host
    obtain ⟨hwaits, hanswer⟩ := hone (w := w) (by rw [hhost', hw]) (by rw [hon]; exact beq_self_eq_true c)
    exact ⟨hwaits, hanswer.trans (by rw [hhost'])⟩

/-- The context's end is told and counted. -/
def freeTold (s : State) (c : Nat) : State := ((s.freeCtx c).raise pgCTXS0 2).count pgCTXS0 0x050 1

theorem freeTold_spec (s : State) (c : Nat) : (freeTold s c).ctxState c = ctxFREE ∧ (freeTold s c).ctxs = s.ctxs ∧ Raised (freeTold s c) pgCTXS0 2 ∧
    (freeTold s c).ctr pgCTXS0 0x050 = s.ctr pgCTXS0 0x050 + 1 ∧
    ∀ w : Wait, s.host.waits = [w] → w.on = .ctxFree c → (freeTold s c).host.waits = [] ∧ Answered s (freeTold s c) w.fn w.tag stCOMPLETE w.result := by
  obtain ⟨hstate, hctxs, hctr, hwake⟩ := freeCtx_spec s c
  rw [freeTold]
  generalize s.freeCtx c = u at *
  have htold := raised_raise u pgCTXS0 2 (by decide)
  have hwinds := (Winds.refl u).raise pgCTXS0 2
  have hctr' := ctr_raise u pgCTXS0 2 (by decide : pgCTXS0 * 4096 + 0x050 ≠ msgCtr)
  have hctxs' := State.raise_ctxs u pgCTXS0 2
  obtain ⟨hresps, hwaits, -⟩ := noAnswer_raise u pgCTXS0 2
  generalize u.raise pgCTXS0 2 = v at *
  have hcount : (v.count pgCTXS0 0x050 1).ctr pgCTXS0 0x050 = v.ctr pgCTXS0 0x050 + 1 := State.ctr_count_self ..
  refine ⟨(hwinds.ctxState c).trans hstate, hctxs'.trans hctxs, raised_congr (s := v) rfl htold, by rw [hcount, hctr', hctr], fun w hw hon => ?_⟩
  obtain ⟨hnone, hanswer⟩ := hwake w hw hon
  exact ⟨hwaits.trans hnone, hresps.trans hanswer⟩

theorem rinseDone_spec {s : State} {c clk : Nat} {rest : List (Nat × Nat)} (hfilled : s.ctxs.filled = (c, clk) :: rest) (hdue : clk + s.rampClk ≤ s.now) :
    ∃ t, exec .rinseDone s = .next t ∧ t.ctxState c = ctxFREE ∧ t.ctxs.filled = rest ∧ Raised t pgCTXS0 2 ∧
      t.ctr pgCTXS0 0x050 = s.ctr pgCTXS0 0x050 + 1 ∧
      ∀ fn tag, s.host.waits = [{ fn := fn, tag := tag, on := .ctxFree c, result := 0 }] → t.host.waits = [] ∧ Answered s t fn tag 0 0 := by
  have hexec : ∃ pads, exec .rinseDone s = .next (let u := freeTold { s with ctxs := { s.ctxs with filled := rest } } c
      if rest.isEmpty && s.ctxs.rampOut == some clk then { u.countFill 0 pads with ctxs := { (u.countFill 0 pads).ctxs with rampOut := none } } else u) := by
    refine ⟨s.channels * (136 * s.rampClk / (256 * max 1 (s.rd pgCTXS0 F.CTXS_RINSE_LINE_CLK))), ?_⟩
    change execRinseDone s = _
    rw [execRinseDone, hfilled]
    dsimp only
    rw [if_neg (by omega)]
    rfl
  obtain ⟨pads, hexec⟩ := hexec
  obtain ⟨hstate, hctxs, htold, hctr, hwake⟩ := freeTold_spec { s with ctxs := { s.ctxs with filled := rest } } c
  rw [hexec]
  generalize freeTold { s with ctxs := { s.ctxs with filled := rest } } c = u at *
  dsimp only
  have hleft : u.ctxs.filled = rest := by rw [hctxs]
  have hctr' : u.ctr pgCTXS0 0x050 = s.ctr pgCTXS0 0x050 + 1 := hctr
  have hanswer (fn tag : Nat) (hw : s.host.waits = [{ fn := fn, tag := tag, on := .ctxFree c, result := 0 }]) : u.host.waits = [] ∧ Answered s u fn tag 0 0 :=
    hwake _ hw rfl
  split
  · refine ⟨_, rfl, hstate, hleft, raised_congr (s := u) rfl htold, ?_, hanswer⟩
    have hcount : ((u.countFill 0 pads).ctr pgCTXS0 0x050) = u.ctr pgCTXS0 0x050 := by
      rw [State.countFill, State.ctr_count_ne _ _ (by decide), State.ctr_count_ne _ _ (by decide)]
      rfl
    exact hcount.trans hctr'
  · exact ⟨u, rfl, hstate, hleft, htold, hctr', hanswer⟩

/-! ## The copies of the module-wide structures (R401), and the DRBG (R405) -/

/-- The copies are in the dies of `live`, and one to die `n` has begun. -/
def copyBegun (s : State) (live : List Nat) (n : Nat) : State := { s with kv := { s.kv with homes := live, copyTo := some n } }

theorem structRecopy_spec {s : State} {live : List Nat} (hlive : live = s.kv.homes.filter (fun n => s.hasUnit (pgDIE n)))
    (hlost : live.length ≠ s.kv.homes.length) (hsome : live ≠ []) (hidle : s.kv.copyTo = none) (hctl : s.inControl = true) :
    ∃ t n, exec .structRecopy s = .next t ∧ t.kv = { s.kv with homes := live, copyTo := some n } ∧
      ((∃ m ∈ s.diesUp, m ∉ live) → n ∈ s.diesUp ∧ n ∉ live) ∧ ((∀ m ∈ s.diesUp, m ∈ live) → live.head? = some n) := by
  have hexec : exec .structRecopy s = .next (copyBegun s live ((s.diesUp.find? fun n => !live.contains n).getD (live.headD 0))).showKv := by
    change execStructRecopy s = _
    rw [execStructRecopy]
    dsimp only
    rw [← hlive, if_neg (by simp [hlost, hsome, hidle, hctl]), copyBegun]
  refine ⟨_, (s.diesUp.find? fun n => !live.contains n).getD (live.headD 0), hexec, (showKv_regs _).kv, fun ⟨m, hm, hout⟩ => ?_, fun hall => ?_⟩
  · have hfound : (s.diesUp.find? fun n => !live.contains n).isSome := List.find?_isSome.mpr ⟨m, hm, by simpa using hout⟩
    obtain ⟨n, hn⟩ := Option.isSome_iff_exists.mp hfound
    rw [hn, Option.getD_some]
    exact ⟨List.mem_of_find?_eq_some hn, by simpa using List.find?_some hn⟩
  · have hnone : (s.diesUp.find? fun n => !live.contains n) = none := List.find?_eq_none.mpr fun m hm => by simpa using hall m hm
    rw [hnone, Option.getD_none]
    cases live with
    | nil => exact absurd rfl hsome
    | cons n live => rfl

theorem structureCopyDone_spec {s : State} {n : Nat} (hcopy : s.kv.copyTo = some n) : ∃ t, exec .structureCopyDone s = .next t ∧
    t = { s with kv := { s.kv with homes := s.kv.homes ++ [n], copyTo := none }, regs := t.regs } := by
  refine ⟨_, ?_, showKv_regs { s with kv := { s.kv with homes := s.kv.homes ++ [n], copyTo := none } }⟩
  change execStructureCopyDone s = _
  rw [execStructureCopyDone, hcopy]

theorem drbgReseed_spec {ctx : Fin 1024} {s : State} {d : Nat × Nat} (hd : mget s.drbg ctx.val = some d) (hdue : 2 ^ 20 ≤ d.2) :
    ∃ t, exec (.drbgReseed ctx) s = .next t ∧ mget t.drbg ctx.val = some (s.lp.keyNext, 0) ∧ t.lp.keyNext = s.lp.keyNext + 1 ∧
      t = { s with drbg := t.drbg, lp := t.lp } := by
  refine ⟨{ s with drbg := mput s.drbg ctx.val (s.lp.keyNext, 0), lp := { s.lp with keyNext := s.lp.keyNext + 1 } }, ?_, mget_mput_self .., rfl, rfl⟩
  change execDrbgReseed ctx s = _
  rw [execDrbgReseed, hd]
  dsimp only
  rw [if_neg (by omega)]

/-- Settles O43: CTX_END, domains and floors, CTX_QUIESCED, the fill and its end, the copies of the structures, the DRBG. -/
theorem contextLife : Obligations.ContextLife := by
  unfold Obligations.ContextLife
  exact ⟨fun _ _ _ _ hp => ⟨ctxEnd_free hp, ctxEnd_ends hp⟩, fun _ _ _ _ _ _ hp hopen hok => domainJoin_joins hp hopen hok,
    fun _ _ _ _ _ _ hp hdie hmask hfree hlive => floorReserve_reserves hp hdie hmask hfree hlive, fun _ _ _ _ hp => floorRelease_releases hp,
    fun _ _ hending hidle => ctxQuiesced_rinses hending hidle, fun _ _ _ _ hqueue hramp hfill hin hr => rinseFillEnd_spec hqueue hramp hfill hin hr,
    fun _ _ _ _ hfilled hdue => rinseDone_spec hfilled hdue,
    fun _ _ hlive hlost hsome hidle hctl => structRecopy_spec hlive hlost hsome hidle hctl, fun _ _ hcopy => structureCopyDone_spec hcopy,
    fun _ _ _ hd hdue => drbgReseed_spec hd hdue⟩

end Sys2Proof
end

section
/-! PROOF. O44: SPDM's negotiation, signed answers, sessions and sealed contexts (R429–R436). -/

namespace Sys2Proof

set_option Elab.async false

open Machine

/-! ## A request that is answered -/

/-- A message that is sent stays sent. -/
theorem mem_msgs_msix {s : State} {m : Msg} (fn vec : Nat) (h : m ∈ s.msgs) : m ∈ (s.msix fn vec).msgs := by
  rw [State.msix]
  split
  · exact h
  · split
    · exact List.mem_cons_of_mem _ h
    · exact h

theorem mem_msgs_raise {s : State} {m : Msg} (pg bit : Nat) (h : m ∈ s.msgs) : m ∈ (s.raise pg bit).msgs := by
  rw [State.raise, State.edges]
  refine List.foldlRecOn (motive := fun (t : State) => m ∈ t.msgs) _ _ ?_ fun t ht fn _ => ?_
  · split
    · exact mem_msgs_msix 0 1 h
    · exact h
  · split
    · exact mem_msgs_msix fn 0 ht
    · exact ht

section
variable {s : State} {fn : Nat}

theorem conn_setConn (c : Conn) : (s.setConn fn c).conn fn = c := by
  rw [State.conn, State.setConn, mget_mput_self]
  rfl

theorem setConn_rest (c : Conn) : s.setConn fn c = { s with gau := (s.setConn fn c).gau } := rfl

theorem spdm_up (hup : SpdmUp s) (body : State → State) : s.spdm fn body = body s := by
  obtain ⟨hdoe, hpaused⟩ := hup
  rw [State.spdm, hdoe, Bool.not_true, if_neg Bool.false_ne_true, hpaused, if_neg Bool.false_ne_true]

theorem spdmAfter_up (hup : SpdmUp s) (hphase : 3 ≤ (s.conn fn).phase) (body : State → State) : s.spdmAfter fn body = body s := by
  rw [State.spdmAfter, spdm_up hup, if_neg (by omega)]

theorem inSession_up (hup : SpdmUp s) {n : Nat} {x : Session} (hsess : mget s.gau.sessions n = some x) (hfn : x.fn = fn)
    (body : State → Session → State) : s.inSession fn n body = body s x := by
  rw [State.inSession, spdm_up hup, hsess]
  exact if_pos hfn

theorem tenant_up (hup : SpdmUp s) {n c : Nat} {x : Session} (hsess : mget s.gau.sessions n = some x) (hfn : x.fn = fn)
    (hclaim : mget s.gau.claimed c = some n) (body : State → State) : s.tenant fn n c body = body s := by
  rw [State.tenant, inSession_up hup hsess hfn, if_pos hclaim]

end

/-! ## A signed answer (R425, R428, R431) -/

/-- A bottom leaf of the Alias is spent and dated. -/
def leafSpent (s : State) : State :=
  let recent := s.gau.reports.filter fun c => decide (s.now < c + clkHour)
  let used := s.rd pgGAU F.GAU_HSS_BOTTOM_USED
  let s1 := { s with gau := { s.gau with reports := recent ++ [s.now], treeReady := decide (768 ≤ used + 1) } }
  (s1.wr pgGAU F.GAU_HSS_BOTTOM_USED (used + 1)).count pgGAU 0x054 1

/-- The leaf is kept for GET_LMS_SIG. -/
def leafKept (s : State) (fn : Nat) : State :=
  (leafSpent s).setConn fn { (leafSpent s).conn fn with lastSigned := some (s.now, s.rd pgGAU F.GAU_HSS_BOTTOM_USED) }

section
variable {s : State} {fn : Nat}

theorem signedAnswer_of_canSign (h : CanSign s) (body : State → State) : s.signedAnswer fn body = body (leafKept s fn) := by
  obtain ⟨htop, hbudget, hbottom⟩ := h
  rw [State.signedAnswer, if_neg (by rw [htop]; exact Bool.false_ne_true)]
  dsimp only
  rw [if_neg (Nat.not_le.mpr hbudget), if_neg (Nat.not_le.mpr hbottom)]
  rfl

theorem leafSpent_gau : (leafSpent s).gau = { s.gau with reports := (leafSpent s).gau.reports, treeReady := (leafSpent s).gau.treeReady } := rfl

theorem ctr_leafSpent : (leafSpent s).ctr pgGAU 0x054 = s.ctr pgGAU 0x054 + 1 := by
  unfold leafSpent
  dsimp only
  rw [State.ctr_count_self]
  rfl

theorem leafSpent_conn : (leafSpent s).conn fn = s.conn fn := rfl

/-- All but the counts of the spent leaf, its date and the connection stay. -/
theorem leafKept_rest : leafKept s fn = { s with regs := (leafKept s fn).regs, ctrs := (leafKept s fn).ctrs, gau := (leafKept s fn).gau } := rfl

theorem leafKept_gau : (leafKept s fn).gau =
    { s.gau with reports := (leafKept s fn).gau.reports, treeReady := (leafKept s fn).gau.treeReady, conns := (leafKept s fn).gau.conns } := rfl

theorem conn_leafKept : (leafKept s fn).conn fn = { s.conn fn with lastSigned := some (s.now, s.rd pgGAU F.GAU_HSS_BOTTOM_USED) } := by
  rw [leafKept, conn_setConn, leafSpent_conn]

theorem rdi_leafKept_ne {pg i : Nat} {F0 : Field} (hne : fkey pg F0 i ≠ fkey pgGAU F.GAU_HSS_BOTTOM_USED 0) :
    (leafKept s fn).rdi pg F0 i = s.rdi pg F0 i := State.rdi_wri_ne _ _ hne

theorem signed_leafKept (h : CanSign s) : Signed s (leafKept s fn) fn := by
  obtain ⟨-, -, hbottom⟩ := h
  refine ⟨?_, ctr_leafSpent, by rw [conn_leafKept]⟩
  refine (State.rdi_wri_self ..).trans ?_
  exact Nat.mod_eq_of_lt (show s.rd pgGAU F.GAU_HSS_BOTTOM_USED + 1 < 2 ^ 11 by omega)

/-- What a later step of the answer does not touch stays signed. -/
theorem Signed.of {t u : State} (h : Signed s t fn) (hrd : u.rd pgGAU F.GAU_HSS_BOTTOM_USED = t.rd pgGAU F.GAU_HSS_BOTTOM_USED) (hctrs : u.ctrs = t.ctrs)
    (hconn : (u.conn fn).lastSigned = (t.conn fn).lastSigned) : Signed s u fn := by
  obtain ⟨hused, hctr, hlast⟩ := h
  exact ⟨hrd.trans hused, Eq.trans (by rw [State.ctr, State.ctr, hctrs]) hctr, hconn.trans hlast⟩

/-- A measurement tells nothing of the leaves. -/
theorem measurements_leafKept : (leafKept s fn).measurements = s.measurements := by
  rw [State.measurements, State.measurements, State.rd, State.rd, State.rd, State.rd, rdi_leafKept_ne (by decide), rdi_leafKept_ne (by decide),
    rdi_leafKept_ne (by decide), rdi_leafKept_ne (by decide)]
  rfl

end

/-! ## Negotiation (R429) -/

theorem doeObjectDiscard_marks {fn : Fin 32} {type : Nat} {s : State} (hup : s.doeUp = true) (htype : 2 < type) :
    ∃ t, exec (.doeObjectDiscard fn type) s = .next t ∧ t = { s with gau := t.gau } ∧ t.conn fn.val = { s.conn fn.val with doeError := true } := by
  refine ⟨s.setConn fn.val { s.conn fn.val with doeError := true }, ?_, setConn_rest _, conn_setConn _⟩
  change execDoeObjectDiscard fn type s = _
  rw [execDoeObjectDiscard, hup, decide_eq_false (Nat.not_le.mpr htype), if_neg (by decide)]

section
variable {fn : Fin 32} {s : State}

/-- The connection is changed and the request answered: nothing else of the module. -/
theorem replied_setConn (c : Conn) (ws : List Nat) :
    ((s.setConn fn.val c).spdmAnswer fn.val ws = { s with gau := ((s.setConn fn.val c).spdmAnswer fn.val ws).gau, msgs := ((s.setConn fn.val c).spdmAnswer fn.val ws).msgs }) ∧
      Replied s ((s.setConn fn.val c).spdmAnswer fn.val ws) fn.val ws ∧ ((s.setConn fn.val c).spdmAnswer fn.val ws).conn fn.val = c :=
  ⟨rfl, rfl, conn_setConn c⟩

section
variable (hup : SpdmUp s)
include hup

theorem getVersion_begins : ∃ t, exec (.spdmGetVersion fn) s = .next t ∧ t = { s with gau := t.gau, msgs := t.msgs } ∧ Replied s t fn.val [0x12, 0x13] ∧
    t.conn fn.val = { doeError := (s.conn fn.val).doeError, phase := 1 } := by
  refine ⟨_, ?_, replied_setConn _ _⟩
  change execSpdmGetVersion fn s = _
  rw [execSpdmGetVersion, spdm_up hup]

theorem getCapabilities_agrees {v : Nat} (hphase : (s.conn fn.val).phase ≠ 0) (hv : v = 0x12 ∨ v = 0x13) :
    ∃ t, exec (.spdmGetCapabilities fn v) s = .next t ∧ t = { s with gau := t.gau, msgs := t.msgs } ∧ Replied s t fn.val [v, v - 0x12] ∧
      t.conn fn.val = { s.conn fn.val with phase := 2, version := v } := by
  refine ⟨_, ?_, replied_setConn _ _⟩
  have hevents : boolNat (v == 0x13) = v - 0x12 := by
    rcases hv with rfl | rfl <;> rfl
  change execSpdmGetCapabilities fn v s = _
  rw [execSpdmGetCapabilities, spdm_up hup, if_neg hphase, if_neg (by omega), hevents]

theorem negotiateAlgorithms_agrees (hphase : 2 ≤ (s.conn fn.val).phase) :
    ∃ t, exec (.spdmNegotiateAlgorithms fn true) s = .next t ∧ t = { s with gau := t.gau, msgs := t.msgs } ∧ Replied s t fn.val [] ∧
      t.conn fn.val = { s.conn fn.val with phase := 3 } := by
  refine ⟨_, ?_, replied_setConn _ _⟩
  change execSpdmNegotiateAlgorithms fn true s = _
  rw [execSpdmNegotiateAlgorithms, spdm_up hup, if_neg (by omega), Bool.not_true, if_neg Bool.false_ne_true]

end

/-! ## The answers of a negotiated connection (R430, R431, R434) -/

section
variable (hup : SpdmUp s) (hphase : 3 ≤ (s.conn fn.val).phase)
include hup hphase

theorem getDigests_answers : ∃ t, exec (.spdmGetDigests fn) s = .next t ∧ t = { s with msgs := t.msgs } ∧ Replied s t fn.val [0] := by
  refine ⟨s.spdmAnswer fn.val [0], ?_, rfl, rfl⟩
  change execSpdmGetDigests fn s = _
  rw [execSpdmGetDigests, spdmAfter_up hup hphase]

theorem getCertificate_answers (off len : Nat) :
    ∃ t, exec (.spdmGetCertificate fn 0 off len) s = .next t ∧ t = { s with msgs := t.msgs } ∧ Replied s t fn.val [off, len] := by
  refine ⟨s.spdmAnswer fn.val [off, len], ?_, rfl, rfl⟩
  change execSpdmGetCertificate fn 0 off len s = _
  rw [execSpdmGetCertificate, spdmAfter_up hup hphase]
  rfl

theorem getLmsCerts_answers (off len : Nat) :
    ∃ t, exec (.getLmsCerts fn off len) s = .next t ∧ t = { s with msgs := t.msgs } ∧ Replied s t fn.val [off, len] := by
  refine ⟨s.spdmAnswer fn.val [off, len], ?_, rfl, rfl⟩
  change execGetLmsCerts fn off len s = _
  rw [execGetLmsCerts, spdmAfter_up hup hphase]

theorem getMeasurements_answers :
    ∃ t, exec (.spdmGetMeasurements fn false) s = .next t ∧ t = { s with msgs := t.msgs } ∧ Replied s t fn.val s.measurements := by
  refine ⟨s.spdmAnswer fn.val s.measurements, ?_, rfl, rfl⟩
  change execSpdmGetMeasurements fn false s = _
  rw [execSpdmGetMeasurements, spdmAfter_up hup hphase]
  rfl

theorem challenge_signed (hsign : CanSign s) :
    ∃ t, exec (.spdmChallenge fn 0) s = .next t ∧ Replied s t fn.val [s.gau.bottomTree] ∧ Signed s t fn.val := by
  refine ⟨(leafKept s fn.val).spdmAnswer fn.val [s.gau.bottomTree], ?_, rfl, (signed_leafKept hsign).of rfl rfl rfl⟩
  change execSpdmChallenge fn 0 s = _
  rw [execSpdmChallenge, spdmAfter_up hup hphase, if_neg (by decide), signedAnswer_of_canSign hsign]
  rfl

theorem getMeasurements_signed (hsign : CanSign s) :
    ∃ t, exec (.spdmGetMeasurements fn true) s = .next t ∧ Replied s t fn.val s.measurements ∧ Signed s t fn.val := by
  refine ⟨(leafKept s fn.val).spdmAnswer fn.val s.measurements, ?_, rfl, (signed_leafKept hsign).of rfl rfl rfl⟩
  change execSpdmGetMeasurements fn true s = _
  rw [execSpdmGetMeasurements, spdmAfter_up hup hphase, if_pos rfl, signedAnswer_of_canSign hsign, measurements_leafKept]

theorem challenge_busy (htop : s.hssExhausted = false)
    (hspent : s.rd pgGAU F.GAU_LMS_BUDGET ≤ (s.gau.reports.filter fun c => decide (s.now < c + clkHour)).length) :
    ∃ t, exec (.spdmChallenge fn 0) s = .next t ∧ Raised t pgGAU 3 ∧ .reply 11 [fn.val, errBusy] ∈ t.msgs ∧ t.gau = s.gau := by
  refine ⟨(s.spdmError fn.val errBusy).raise pgGAU 3, ?_, raised_raise _ _ _ (by decide), ?_, State.raise_gau ..⟩
  · change execSpdmChallenge fn 0 s = _
    rw [execSpdmChallenge, spdmAfter_up hup hphase, if_neg (by decide), State.signedAnswer, htop, if_neg Bool.false_ne_true, if_pos hspent]
  · exact mem_msgs_raise pgGAU 3 (List.mem_cons_self ..)

theorem getLmsSig_tells {clk leaf : Nat} (hlast : (s.conn fn.val).lastSigned = some (clk, leaf)) (hnew : s.now < clk + 10 * clkS) :
    ∃ t, exec (.getLmsSig fn) s = .next t ∧ Replied s t fn.val [leaf] ∧ t.conn fn.val = { s.conn fn.val with lmsTaken := true } := by
  obtain ⟨-, hreplied⟩ := replied_setConn (fn := fn) (s := s) { s.conn fn.val with lmsTaken := true } [leaf]
  refine ⟨_, ?_, hreplied⟩
  change execGetLmsSig fn s = _
  rw [execGetLmsSig, spdmAfter_up hup hphase, hlast]
  dsimp only
  rw [if_neg (Nat.not_le.mpr hnew)]

end

theorem lmsSigExpire_forgets {clk leaf : Nat} (hlast : (s.conn fn.val).lastSigned = some (clk, leaf)) (hold : clk + 10 * clkS ≤ s.now) :
    ∃ t, exec (.lmsSigExpire fn) s = .next t ∧ t = { s with gau := t.gau } ∧ t.conn fn.val = { s.conn fn.val with lastSigned := none } := by
  refine ⟨s.setConn fn.val { s.conn fn.val with lastSigned := none }, ?_, setConn_rest _, conn_setConn _⟩
  change execLmsSigExpire fn s = _
  rw [execLmsSigExpire, hlast]
  dsimp only
  rw [if_pos hold]

/-! ## The trees (R423, R427) -/

theorem bottomTree_reserveTop : s.reserveTop.gau.bottomTree = s.gau.bottomTree := by
  rw [State.reserveTop]
  split
  · rfl
  · dsimp only
    split
    · split
      · rw [State.raise_gau, State.raise_gau]
        rfl
      · rw [State.raise_gau]
        rfl
    · split
      · rw [State.raise_gau]
        rfl
      · rfl

theorem bottomTree_spendTop : s.spendTop.gau.bottomTree = s.gau.bottomTree := by
  have hfirst : (if s.rd pgGAU F.GAU_HSS_TOP_END ≤ s.gau.topNext then s.reserveTop else s).gau.bottomTree = s.gau.bottomTree := by
    split
    · exact bottomTree_reserveTop
    · rfl
  rw [State.spendTop]
  generalize (if s.rd pgGAU F.GAU_HSS_TOP_END ≤ s.gau.topNext then s.reserveTop else s) = u at *
  dsimp only
  split
  · exact hfirst
  · exact hfirst

theorem bottomTreeSwitch_begins (hused : 1024 ≤ s.rd pgGAU F.GAU_HSS_BOTTOM_USED) (hpaused : s.gau.paused = false) :
    ∃ t, exec .bottomTreeSwitch s = .next t ∧ t.rd pgGAU F.GAU_HSS_BOTTOM_USED = 0 ∧ t.gau.bottomTree = s.gau.bottomTree + 1 ∧ Raised t pgGAU 6 := by
  have hexec : exec .bottomTreeSwitch s = .next (s.newAlias.raise pgGAU 6) := by
    change execBottomTreeSwitch s = _
    rw [execBottomTreeSwitch, if_neg]
    rintro (hlt | hp)
    · omega
    · exact Bool.false_ne_true (hpaused.symm.trans hp)
  refine ⟨_, hexec, ?_, ?_, raised_raise _ _ _ (by decide)⟩
  · rw [State.rd, State.rdi_raise_ne _ (by decide)]
    exact State.rdi_wri_self ..
  · rw [State.raise_gau]
    exact congrArg (· + 1) bottomTree_spendTop

/-! ## A session is established (R432) -/

/-- FINISH has verified: the session of the connection is open. -/
def sessionOpen (s : State) (fn n : Nat) (events : Bool) : State :=
  let x : Session := { fn := fn, hbClk := s.now, events := events && (s.conn fn).version == 0x13 }
  let t1 := s.setConn fn { s.conn fn with pending := none, lmsTaken := false }
  let t2 := { t1 with gau := { t1.gau with sessions := mput t1.gau.sessions n x } }
  t2.showSessions.count pgGAU 0x05C 1

section
variable (hup : SpdmUp s) (hphase : 3 ≤ (s.conn fn.val).phase)
include hup hphase

theorem getKemKey_begins : ∃ t, exec (.getKemKey fn) s = .next t ∧ Replied s t fn.val [] ∧
    t.conn fn.val = { s.conn fn.val with kem := 1, pending := none } := by
  obtain ⟨-, hreplied⟩ := replied_setConn (fn := fn) (s := s) { s.conn fn.val with kem := 1, pending := none } []
  refine ⟨_, ?_, hreplied⟩
  change execGetKemKey fn s = _
  rw [execGetKemKey, spdmAfter_up hup hphase]

theorem kemCt_agrees (hkem : (s.conn fn.val).kem ≠ 0) :
    ∃ t, exec (.kemCt fn) s = .next t ∧ Replied s t fn.val [] ∧ t.conn fn.val = { s.conn fn.val with kem := 2 } := by
  obtain ⟨-, hreplied⟩ := replied_setConn (fn := fn) (s := s) { s.conn fn.val with kem := 2 } []
  refine ⟨_, ?_, hreplied⟩
  change execKemCt fn s = _
  rw [execKemCt, spdmAfter_up hup hphase, if_neg hkem]

theorem keyExchange_signed {n : Nat} (hsign : CanSign s) (hkem : (s.conn fn.val).kem = 2) (hmine : (s.sessionsOf fn.val).length < 4)
    (hall : s.gau.sessions.length < 128)
    (hfree : ((List.range 128).find? fun n => (mget s.gau.sessions n).isNone && !(s.gau.conns.any fun e => e.2.pending == some n)) = some n) :
    ∃ t, exec (.spdmKeyExchange fn true) s = .next t ∧ Replied s t fn.val [n] ∧ Signed s t fn.val ∧ (t.conn fn.val).pending = some n ∧
      (t.conn fn.val).lmsTaken = false ∧ (t.conn fn.val).kem = 0 := by
  have hexec : exec (.spdmKeyExchange fn true) s = .next (((leafKept s fn.val).setConn fn.val
      { (leafKept s fn.val).conn fn.val with pending := some n, lmsTaken := false, kem := 0 }).spdmAnswer fn.val [n]) := by
    change execSpdmKeyExchange fn true s = _
    rw [execSpdmKeyExchange, spdmAfter_up hup hphase, hkem, decide_eq_false (Nat.not_le.mpr hmine), decide_eq_false (Nat.not_le.mpr hall), hfree]
    dsimp only
    rw [if_neg (by simp), if_neg (by simp), signedAnswer_of_canSign hsign]
  have hconn := conn_setConn (s := leafKept s fn.val) (fn := fn.val)
    { (leafKept s fn.val).conn fn.val with pending := some n, lmsTaken := false, kem := 0 }
  refine ⟨_, hexec, rfl, (signed_leafKept hsign).of rfl rfl ((congrArg Conn.lastSigned hconn).trans rfl), congrArg Conn.pending hconn,
    congrArg Conn.lmsTaken hconn, congrArg Conn.kem hconn⟩

theorem finish_opens {n : Nat} (hpending : (s.conn fn.val).pending = some n) (htaken : (s.conn fn.val).lmsTaken = true) (events : Bool) :
    ∃ t, exec (.spdmFinish fn true events) s = .next t ∧ Replied s t fn.val [n] ∧ (t.conn fn.val).pending = none ∧
      mget t.gau.sessions n = some { fn := fn.val, hbClk := s.now, events := events && (s.conn fn.val).version == 0x13 } ∧
      t.ctr pgGAU 0x05C = s.ctr pgGAU 0x05C + 1 := by
  have hconn := conn_setConn (s := s) (fn := fn.val) { s.conn fn.val with pending := none, lmsTaken := false }
  have hexec : exec (.spdmFinish fn true events) s = .next ((sessionOpen s fn.val n events).spdmAnswer fn.val [n]) := by
    change execSpdmFinish fn true events s = _
    rw [execSpdmFinish, spdmAfter_up hup hphase, hpending]
    dsimp only
    rw [htaken, if_neg (by decide)]
    rfl
  have hctr : (sessionOpen s fn.val n events).ctr pgGAU 0x05C = s.ctr pgGAU 0x05C + 1 := by
    unfold sessionOpen
    dsimp only
    rw [State.ctr_count_self]
    rfl
  have hsess : mget (sessionOpen s fn.val n events).gau.sessions n =
      some { fn := fn.val, hbClk := s.now, events := events && (s.conn fn.val).version == 0x13 } := by
    unfold sessionOpen
    exact mget_mput_self ..
  exact ⟨_, hexec, rfl, congrArg Conn.pending hconn, hsess, hctr⟩

end

/-! ## A session's upkeep (R433) -/

/-- A session's own record changes, and the request is answered. -/
def sessionSet (s : State) (sess : Nat) (x : Session) : State := { s with gau := { s.gau with sessions := mput s.gau.sessions sess x } }

section
variable {sess : Nat} {x : Session} (hup : SpdmUp s) (hsess : mget s.gau.sessions sess = some x) (hfn : x.fn = fn.val)
include hup hsess hfn

theorem heartbeat_dates : ∃ t, exec (.spdmHeartbeat fn sess) s = .next t ∧ Replied s t fn.val [sess] ∧
    mget t.gau.sessions sess = some { x with hbClk := s.now } ∧ t = { s with gau := t.gau, msgs := t.msgs } := by
  refine ⟨(sessionSet s sess { x with hbClk := s.now }).spdmAnswer fn.val [sess], ?_, rfl, mget_mput_self .., rfl⟩
  change execSpdmHeartbeat fn sess s = _
  rw [execSpdmHeartbeat, inSession_up hup hsess hfn, sessionSet]

theorem keyUpdate_renews : ∃ t, exec (.spdmKeyUpdate fn sess) s = .next t ∧ Replied s t fn.val [sess] ∧
    mget t.gau.sessions sess = some { x with keyGen := x.keyGen + 1 } ∧ t = { s with gau := t.gau, msgs := t.msgs } := by
  refine ⟨(sessionSet s sess { x with keyGen := x.keyGen + 1 }).spdmAnswer fn.val [sess], ?_, rfl, mget_mput_self .., rfl⟩
  change execSpdmKeyUpdate fn sess s = _
  rw [execSpdmKeyUpdate, inSession_up hup hsess hfn, sessionSet]

end

/-! ## A session ends (R433) -/

/-- The session's record goes, and its claims. -/
def sessionGone (s : State) (n : Nat) : State :=
  { s with gau := { s.gau with
      sessions := mdel s.gau.sessions n
      claimed := s.gau.claimed.filter fun e => e.2 != n } }

/-- The ends of contexts leave the Gauger and its counters. -/
theorem endCtxs_keeps (cs : List Nat) (s : State) : (cs.foldl (fun t c => t.endCtx c) s).gau = s.gau ∧
    ∀ off, off < 4096 → (cs.foldl (fun t c => t.endCtx c) s).ctr pgGAU off = s.ctr pgGAU off := by
  induction cs generalizing s with
  | nil => exact ⟨rfl, fun _ _ => rfl⟩
  | cons c cs ih =>
    obtain ⟨hgau, -, hctr⟩ := endCtx_keeps s c
    obtain ⟨hgaus, hctrs⟩ := ih (s.endCtx c)
    exact ⟨hgaus.trans hgau, fun off ho => (hctrs off ho).trans (hctr off ho)⟩

theorem showSessions_regs (s : State) : RegsOnly s s.showSessions := (regsOnly_refl s).wr ..

theorem endSession_spec {n : Nat} {x : Session} (hsess : mget s.gau.sessions n = some x) (lost : Bool) :
    (s.endSession n lost).gau = (sessionGone s n).gau ∧ Raised (s.endSession n lost) pgGAU 5 ∧
      (s.endSession n lost).ctr pgGAU 0x060 = s.ctr pgGAU 0x060 + boolNat lost := by
  obtain ⟨hgau, hctr⟩ := endCtxs_keeps ((s.gau.claimed.filter fun e => e.2 == n).map (·.1)) (sessionGone s n)
  have hend : s.endSession n lost = ((if lost then (((s.gau.claimed.filter fun e => e.2 == n).map (·.1)).foldl (fun t c => t.endCtx c) (sessionGone s n)).count
      pgGAU 0x060 1 else ((s.gau.claimed.filter fun e => e.2 == n).map (·.1)).foldl (fun t c => t.endCtx c) (sessionGone s n)).showSessions).raise pgGAU 5 := by
    rw [State.endSession, hsess, if_neg (by simp)]
    rfl
  specialize hctr 0x060 (by decide)
  rw [hend]
  generalize ((s.gau.claimed.filter fun e => e.2 == n).map (·.1)).foldl (fun t c => t.endCtx c) (sessionGone s n) = u at *
  have hlost : (if lost = true then u.count pgGAU 0x060 1 else u).gau = u.gau ∧
      (if lost = true then u.count pgGAU 0x060 1 else u).ctr pgGAU 0x060 = u.ctr pgGAU 0x060 + boolNat lost := by
    cases lost with
    | false => exact ⟨rfl, rfl⟩
    | true => exact ⟨rfl, State.ctr_count_self ..⟩
  generalize (if lost = true then u.count pgGAU 0x060 1 else u) = v at *
  obtain ⟨hvgau, hvctr⟩ := hlost
  refine ⟨?_, raised_raise _ _ _ (by decide), ?_⟩
  · rw [State.raise_gau]
    exact hvgau.trans hgau
  · rw [ctr_raise _ _ _ (by decide)]
    exact hvctr.trans (congrArg (· + boolNat lost) hctr)

/-- The context is the session's. -/
def ctxClaimed (s : State) (c sess : Nat) : State :=
  let s1 := s.setCtxState c ctxLIVE
  { s1 with gau := { s1.gau with
      claimed := mput s1.gau.claimed c sess
      seqs := s1.gau.seqs.filter fun e => e.1 / 2 != c } }

theorem ctxClaimed_spec (s : State) (c sess : Nat) : (ctxClaimed s c sess).tick = s.tick ∧ (ctxClaimed s c sess).msgs = s.msgs ∧
    (ctxClaimed s c sess).rd pgGAU F.GAU_HSS_BOTTOM_USED = s.rd pgGAU F.GAU_HSS_BOTTOM_USED ∧ (ctxClaimed s c sess).ctrs = s.ctrs ∧
    (∀ fn, (ctxClaimed s c sess).conn fn = s.conn fn) ∧ (ctxClaimed s c sess).ctxState c = ctxLIVE ∧
    mget (ctxClaimed s c sess).gau.claimed c = some sess := by
  have hregs := setCtxState_regs s c ctxLIVE
  have hstate := ctxState_setCtxState s c ctxLIVE
  have hused : (s.setCtxState c ctxLIVE).rd pgGAU F.GAU_HSS_BOTTOM_USED = s.rd pgGAU F.GAU_HSS_BOTTOM_USED := by
    rw [State.setCtxState, State.showCtxs, State.rd, State.rd, State.wr, State.wr, State.rdi_wri_ne _ _ (by decide), State.rdi_wri_ne _ _ (by decide)]
    refine State.rdi_wri_ne _ _ ?_
    simp only [fkey, ctxsPage, pgCTXS0, pgCTXS1, pgGAU, F.GAU_HSS_BOTTOM_USED, F.CTXS_ENTRY_STATE]
    split <;> omega
  unfold ctxClaimed
  generalize s.setCtxState c ctxLIVE = u at *
  refine ⟨?_, ?_, hused, ?_, fun fn => ?_, hstate, mget_mput_self ..⟩
  · rw [hregs]
    rfl
  · rw [hregs]
  · rw [hregs]
  · rw [hregs]
    rfl

section
variable {sess : Nat} {x : Session}

theorem endSession_ends (hup : SpdmUp s) (hsess : mget s.gau.sessions sess = some x) (hfn : x.fn = fn.val) :
    ∃ t, exec (.spdmEndSession fn sess) s = .next t ∧ t.msgs.head? = some (.reply 10 [fn.val, sess]) ∧ mget t.gau.sessions sess = none ∧
      Raised t pgGAU 5 ∧ ∀ e ∈ t.gau.claimed, e.2 ≠ sess := by
  obtain ⟨hgau, hraised, -⟩ := endSession_spec hsess false
  have hexec : exec (.spdmEndSession fn sess) s = .next ((s.endSession sess false).spdmAnswer fn.val [sess]) := by
    change execSpdmEndSession fn sess s = _
    rw [execSpdmEndSession, inSession_up hup hsess hfn]
  refine ⟨_, hexec, rfl, ?_, hraised, ?_⟩
  · change mget (s.endSession sess false).gau.sessions sess = none
    rw [hgau]
    exact mget_mdel_self ..
  · change ∀ e ∈ (s.endSession sess false).gau.claimed, e.2 ≠ sess
    rw [hgau]
    intro e he
    obtain ⟨-, hne⟩ := List.mem_filter.mp he
    exact bne_iff_ne.mp hne

theorem sessionHbExpire_ends (hsess : mget s.gau.sessions sess = some x) (hold : x.hbClk + 2 * s.rd pgGAU F.GAU_HB_S * clkS ≤ s.now) :
    ∃ t, exec (.sessionHbExpire sess) s = .next t ∧ mget t.gau.sessions sess = none ∧ Raised t pgGAU 5 ∧
      t.ctr pgGAU 0x060 = s.ctr pgGAU 0x060 + 1 := by
  obtain ⟨hgau, hraised, hctr⟩ := endSession_spec hsess true
  have hexec : exec (.sessionHbExpire sess) s = .next (s.endSession sess true) := by
    change execSessionHbExpire sess s = _
    rw [execSessionHbExpire, hsess]
    dsimp only
    rw [if_pos hold]
  refine ⟨_, hexec, ?_, hraised, hctr⟩
  rw [hgau]
  exact mget_mdel_self ..

/-! ## Sealed contexts (R430, R435, R436) -/

variable (hup : SpdmUp s) (hsess : mget s.gau.sessions sess = some x) (hfn : x.fn = fn.val)
include hup hsess hfn

theorem ctxClaim_claims {ctx : Fin 1024} (hsign : CanSign s) (hopened : s.ctxState ctx.val = ctxOPENED)
    (hsealed : s.ctxField F.CTXS_ENTRY_SEALED ctx.val = 1) :
    ∃ t, exec (.ctxClaim fn sess ctx) s = .next t ∧ Replied s t fn.val [stCOMPLETE, ctx.val, fn.val, sess, s.tick] ∧ Signed s t fn.val ∧
      t.ctxState ctx.val = ctxLIVE ∧ mget t.gau.claimed ctx.val = some sess := by
  have hexec : exec (.ctxClaim fn sess ctx) s = .next ((ctxClaimed (leafKept s fn.val) ctx.val sess).spdmAnswer fn.val
      [stCOMPLETE, ctx.val, fn.val, sess, (ctxClaimed (leafKept s fn.val) ctx.val sess).tick]) := by
    change execCtxClaim fn sess ctx s = _
    rw [execCtxClaim, inSession_up hup hsess hfn, if_neg (by rw [hopened, hsealed]; decide), signedAnswer_of_canSign hsign, ctxClaimed]
  have htick : (leafKept s fn.val).tick = s.tick := by
    rw [leafKept_rest]
    rfl
  have hmsgs : (leafKept s fn.val).msgs = s.msgs := by
    rw [leafKept_rest]
  have hsigned := signed_leafKept (fn := fn.val) hsign
  generalize leafKept s fn.val = u at *
  obtain ⟨htick', hmsgs', hused, hctrs, hconn, hstate, hclaim⟩ := ctxClaimed_spec u ctx.val sess
  generalize ctxClaimed u ctx.val sess = v at *
  refine ⟨_, hexec, ?_, hsigned.of hused hctrs (congrArg Conn.lastSigned (hconn fn.val)), hstate, hclaim⟩
  rw [htick'.trans htick]
  exact congrArg (List.cons _) (hmsgs'.trans hmsgs)

theorem spdmCtxEnd_ends {ctx : Fin 1024} (hclaim : mget s.gau.claimed ctx.val = some sess) (hopen : s.ctxOpen ctx.val = true) :
    ∃ t, exec (.spdmCtxEnd fn sess ctx) s = .next t ∧ t.msgs.head? = some (.reply 10 [fn.val, stCOMPLETE]) ∧ t.ctxState ctx.val = ctxENDING ∧
      Raised t pgCTXS0 0 := by
  obtain ⟨hwinds, hraised⟩ := endCtx_winds hopen
  have hstate : (s.endCtx ctx.val).ctxState ctx.val = ctxENDING := (hwinds.ctxState ctx.val).trans (ctxState_setCtxState ..)
  have hexec : exec (.spdmCtxEnd fn sess ctx) s = .next ((s.endCtx ctx.val).spdmAnswer fn.val [stCOMPLETE]) := by
    change execSpdmCtxEnd fn sess ctx s = _
    rw [execSpdmCtxEnd, tenant_up hup hsess hfn hclaim]
  exact ⟨_, hexec, rfl, hstate, hraised⟩

theorem spdmDomainJoin_joins {ctx : Fin 1024} (hclaim : mget s.gau.claimed ctx.val = some sess) {dom : Nat} (share : Bool)
    (hjoin : s.joinRefused ctx.val dom = false) :
    ∃ t, exec (.spdmDomainJoin fn sess ctx dom share) s = .next t ∧ Replied s t fn.val [stCOMPLETE] ∧ t.domainOf ctx.val = some (dom % 256) ∧
      t.ctxField F.CTXS_ENTRY_BATCH_SHARE ctx.val = boolNat share ∧ SameBytes s t := by
  have hregs := joinDomain_regs (s := s) (c := ctx.val) (dom := dom) (share := share)
  have hdomain := domainOf_joinDomain (s := s) (c := ctx.val) (dom := dom) (share := share)
  have hshare := share_joinDomain (s := s) (c := ctx.val) (dom := dom) (share := share)
  have hexec : exec (.spdmDomainJoin fn sess ctx dom share) s = .next ((s.joinDomain ctx.val dom share).spdmAnswer fn.val [stCOMPLETE]) := by
    change execSpdmDomainJoin fn sess ctx dom share s = _
    rw [execSpdmDomainJoin, tenant_up hup hsess hfn hclaim, hjoin, if_neg Bool.false_ne_true]
  generalize s.joinDomain ctx.val dom share = u at *
  refine ⟨_, hexec, ?_, hdomain, hshare, hregs.sameBytes⟩
  refine congrArg (List.cons _) ?_
  rw [hregs]

end
end

/-- Settles O44: a request of a negotiated connection is its body on the state, a signed one on the state whose leaf is spent; the end of a session is
the ends of its contexts, which leave the Gauger as it is. -/
theorem spdmAnswers : Obligations.SpdmAnswers := by
  unfold Obligations.SpdmAnswers
  refine ⟨fun fn s => ⟨fun type hup htype => doeObjectDiscard_marks hup htype, fun hup => ⟨getVersion_begins hup,
      fun v hphase hv => getCapabilities_agrees hup hphase hv, fun hphase => negotiateAlgorithms_agrees hup hphase⟩,
      fun hup hphase => ⟨getDigests_answers hup hphase, getCertificate_answers hup hphase, getLmsCerts_answers hup hphase,
        getMeasurements_answers hup hphase, fun hsign => ⟨challenge_signed hup hphase hsign, getMeasurements_signed hup hphase hsign⟩,
        fun htop hspent => challenge_busy hup hphase htop hspent, fun clk leaf hlast hnew => getLmsSig_tells hup hphase hlast hnew⟩,
      fun clk leaf hlast hold => lmsSigExpire_forgets hlast hold, fun hused hpaused => bottomTreeSwitch_begins hused hpaused⟩,
    fun fn s => ⟨fun hup hphase => ⟨getKemKey_begins hup hphase, fun hkem => kemCt_agrees hup hphase hkem,
        fun n hsign hkem hmine hall hfree => keyExchange_signed hup hphase hsign hkem hmine hall hfree,
        fun n events hpending htaken => finish_opens hup hphase hpending htaken events⟩,
      fun sess x hup hsess hfn => ⟨heartbeat_dates hup hsess hfn, keyUpdate_renews hup hsess hfn, endSession_ends hup hsess hfn,
        fun ctx hsign hopened hsealed => ctxClaim_claims hup hsess hfn hsign hopened hsealed,
        fun ctx hclaim => ⟨fun hopen => spdmCtxEnd_ends hup hsess hfn hclaim hopen,
          fun dom share hjoin => spdmDomainJoin_joins hup hsess hfn hclaim share hjoin⟩⟩,
      fun sess x hsess hold => sessionHbExpire_ends hsess hold⟩⟩

end Sys2Proof
end

section
/-! SUPPORT. What the destruction of the keys leaves alone (R406, R536): its sessions, contexts and jobs end. -/

namespace Sys2Proof

set_option Elab.async false

open Machine

/-- `PWR.STATUS.PULL` or `MGMT.MATE`. -/
def pullKey (k : Nat) : Bool := decide (k = pgPOWER * 131072 + 0x128 * 32 ∨ k = pgMGMT * 131072 + 0x10C * 32)

/-- From `s` to `t` a pull stays shown and told; jobs stay, those aborted aborted and without keys; the power domain, the firmware, the keys of contexts and
the owner are the same. -/
structure Ends (s t : State) : Prop where
  shown : ∀ pg F0 i, pullKey (fkey pg F0 i) = true → t.rdi pg F0 i = s.rdi pg F0 i
  latched : ∀ bit, bit < 32 → Raised s pgPOWER bit → Raised t pgPOWER bit
  jobs : JobsKept s t
  variant : t.variant = s.variant
  pwr : t.pwr = s.pwr
  fw : t.fw = s.fw
  drbg : t.drbg = s.drbg
  keys : t.lp.keys = s.lp.keys
  owner : t.gau.ownerKey = s.gau.ownerKey

theorem Ends.refl (s : State) : Ends s s := ⟨fun _ _ _ _ => rfl, fun _ _ h => h, .of_eq rfl, rfl, rfl, rfl, rfl, rfl, rfl⟩

section
variable {z s t u : State}

theorem Ends.trans (h : Ends s t) (k : Ends t u) : Ends s u where
  shown pg F0 i hk := (k.shown pg F0 i hk).trans (h.shown pg F0 i hk)
  latched b hb hr := k.latched b hb (h.latched b hb hr)
  jobs := h.jobs.trans k.jobs
  variant := k.variant.trans h.variant
  pwr := k.pwr.trans h.pwr
  fw := k.fw.trans h.fw
  drbg := k.drbg.trans h.drbg
  keys := k.keys.trans h.keys
  owner := k.owner.trans h.owner

theorem Ends.of (h : Ends z s) (e1 : t.regs = s.regs := by rfl) (e2 : t.variant = s.variant := by rfl) (e3 : t.pwr = s.pwr := by rfl)
    (e4 : t.fw = s.fw := by rfl) (e5 : t.drbg = s.drbg := by rfl) (e6 : t.lp.keys = s.lp.keys := by rfl) (e7 : t.keg.jobs = s.keg.jobs := by rfl)
    (e8 : t.gau.ownerKey = s.gau.ownerKey := by rfl) : Ends z t :=
  h.trans ⟨fun _ _ _ _ => State.rdi_congr (s := s) e1 e2 .., fun _ _ hr => raised_congr e1 hr, .of_eq e7, e2, e3, e4, e5, e6, e8⟩

theorem Ends.foldl {α : Type} {g : State → α → State} (hg : ∀ t x, Ends z t → Ends z (g t x)) (l : List α) (h : Ends z s) : Ends z (l.foldl g s) :=
  List.foldlRecOn (motive := fun t => Ends z t) _ _ h fun t ht x _ => hg t x ht

theorem Winds.ends (h : Winds s t) : Ends s t := by
  refine ⟨fun pg F0 i hk => h.states pg F0 i ?_, h.latched pgPOWER (by decide), h.jobs, h.variant, h.pwr, h.fw, h.drbg, h.keys, by rw [h.gau]⟩
  simp only [pullKey, stateKey, decide_eq_true_eq] at *
  omega

/-- A field of a page below the management pages. -/
theorem Ends.wri (h : Ends z s) {pg : Nat} (F0 : Field) (i v : Nat) (hk : fkey pg F0 i < pgMGMT * 131072) : Ends z (s.wri pg F0 i v) := by
  refine h.trans ⟨fun _ _ _ hs => State.rdi_wri_ne _ _ fun heq => ?_, fun _ _ => raised_wri ?_, .of_eq rfl, rfl, rfl, rfl, rfl, rfl, rfl⟩
  · rw [heq] at hs
    simp only [pullKey, decide_eq_true_eq, pgMGMT, pgPOWER] at *
    omega
  · refine Ne.symm (Nat.ne_of_lt (Nat.lt_trans hk ?_))
    simp only [fkey, pgMGMT, pgPOWER, F.EVT_RAW]
    omega

theorem Ends.raise (h : Ends z s) (pg bit : Nat) : Ends z (s.raise pg bit) := h.trans ((Winds.refl s).raise pg bit).ends
theorem Ends.count (h : Ends z s) (pg off n : Nat) : Ends z (s.count pg off n) := h.of

theorem Ends.setCtxState (h : Ends z s) (c st : Nat) : Ends z (s.setCtxState c st) := by
  have hidx := Nat.mod_lt c (show 512 > 0 by decide)
  refine Ends.wri (Ends.wri (h.wri _ _ _ ?_) _ _ _ (by decide)) _ _ _ (by decide)
  simp only [fkey, ctxsPage, pgCTXS0, pgCTXS1, pgMGMT, F.CTXS_ENTRY_STATE]
  split <;> omega

theorem Ends.endCtx (h : Ends z s) (c : Nat) : Ends z (s.endCtx c) := by
  cases hopen : s.ctxOpen c with
  | false =>
    rw [State.endCtx, hopen, Bool.not_false, if_pos rfl]
    exact h
  | true =>
    obtain ⟨hwinds, -⟩ := endCtx_winds hopen
    exact (h.setCtxState c ctxENDING).trans hwinds.ends

theorem Ends.endSession (h : Ends z s) (n : Nat) (lost : Bool) : Ends z (s.endSession n lost) := by
  rw [State.endSession]
  split
  · exact h
  · have hgone : Ends z (sessionGone s n) := h.of
    have hctxs := Ends.foldl (fun t c ht => ht.endCtx c) ((s.gau.claimed.filter fun e => e.2 == n).map (·.1)) hgone
    refine (Ends.wri ?_ _ _ _ (by decide)).raise ..
    split
    · exact hctxs.count ..
    · exact hctxs

theorem Ends.endSessions (h : Ends z s) : Ends z s.endSessions := by
  have hall := Ends.foldl (fun t n ht => ht.endSession n true) (s.gau.sessions.map (·.1)) h
  exact hall.of

theorem Ends.abortJobs (h : Ends z s) (p : Nat × Job → Bool) : Ends z (s.abortJobs p) := h.trans ((Winds.refl s).abortJobs p).ends

end

/-! ## Every key is destroyed (R406) -/

/-- The keys of contexts, generators, sealing and links are gone. -/
def keysGone (s : State) : State :=
  { s with
    lp := { s.lp with keys := [] }
    drbg := []
    gau := { s.gau with seqs := [] }
    keg := { s.keg with jobs := s.keg.jobs.map fun (e : Nat × Job) => (e.1, { e.2 with keys := none }) } }

theorem destroyAllKeys_eq (s : State) : s.destroyAllKeys = (keysGone s).showKeys.endSessions := rfl

theorem kegJob_keysGone (s : State) (j : Nat) : (keysGone s).kegJob j = (s.kegJob j).map fun x => { x with keys := none } :=
  mget_map (g := fun e : Nat × Job => (e.1, { e.2 with keys := none })) (fun _ => rfl) s.keg.jobs j

theorem dieOf_group (n g : Nat) : 0x1000 ≤ pgLPG n g := by
  simp only [pgLPG, pgDIE]
  omega

theorem Winds.showKeys {z s : State} (h : Winds z s) : Winds z s.showKeys :=
  Winds.wrHub (Winds.wrHub (.foldl (fun _ _ ht => .foldl (fun _ _ hu => hu.wr _ _ (dieOf_group ..)) _ ht) _ h) ..) ..

theorem destroyAllKeys_ends (s : State) : Ends (keysGone s) s.destroyAllKeys := by
  rw [destroyAllKeys_eq]
  exact ((Winds.refl _).showKeys.ends).endSessions

/-- What holds when every key has been destroyed and every job told to abort. -/
structure Destroyed (s t : State) : Prop where
  shown : ∀ pg F0 i, pullKey (fkey pg F0 i) = true → t.rdi pg F0 i = s.rdi pg F0 i
  latched : ∀ bit, bit < 32 → Raised s pgPOWER bit → Raised t pgPOWER bit
  jobs : ∀ j x, s.kegJob j = some x → ∃ y, t.kegJob j = some y ∧ y.aborted = true ∧ y.keys = none
  pwr : t.pwr = s.pwr
  fw : t.fw = s.fw
  drbg : t.drbg = []
  keys : t.lp.keys = []
  owner : t.gau.ownerKey = s.gau.ownerKey

section
variable {s t u : State}

theorem Destroyed.trans (h : Destroyed s t) (k : Ends t u) : Destroyed s u where
  shown pg F0 i hk := (k.shown pg F0 i hk).trans (h.shown pg F0 i hk)
  latched b hb hr := k.latched b hb (h.latched b hb hr)
  jobs j x hj := by
    obtain ⟨y, hy, haborted, hkeys⟩ := h.jobs j x hj
    obtain ⟨w, hw, hkeys', haborted'⟩ := k.jobs j y hy
    exact ⟨w, hw, haborted' haborted, hkeys' hkeys⟩
  pwr := k.pwr.trans h.pwr
  fw := k.fw.trans h.fw
  drbg := k.drbg.trans h.drbg
  keys := k.keys.trans h.keys
  owner := k.owner.trans h.owner

theorem abortAll_destroyed (s : State) : Destroyed s (s.destroyAllKeys.abortJobs fun e => !e.2.aborted) := by
  have hends := destroyAllKeys_ends s
  generalize s.destroyAllKeys = u at *
  have habort := (Ends.refl u).abortJobs fun e => !e.2.aborted
  have hall := hends.trans habort
  refine ⟨fun pg F0 i hk => (hall.shown pg F0 i hk).trans rfl, fun b hb hr => hall.latched b hb hr, fun j x hj => ?_, hall.pwr, hall.fw, hall.drbg,
    hall.keys, hall.owner⟩
  have hgone : (keysGone s).kegJob j = some { x with keys := none } := by
    rw [kegJob_keysGone, hj]
    rfl
  obtain ⟨y, hy, hkeys, -⟩ := hends.jobs j _ hgone
  cases hlive : y.aborted with
  | false => exact ⟨jobGone y, kegJob_abortJobs hy hlive (by rw [hlive]; rfl) false, rfl, rfl⟩
  | true =>
    obtain ⟨w, hw, hkeys', haborted⟩ := habort.jobs j y hy
    exact ⟨w, hw, haborted hlive, hkeys' (hkeys rfl)⟩

theorem ends_silent (s : State) : Ends s { s with keg := { s.keg with silent := true } } := (Ends.refl s).of

theorem silence_destroyed (s : State) : Destroyed s s.destroyAllKeys.silence ∧ s.destroyAllKeys.silence.keg.silent = true :=
  ⟨(abortAll_destroyed s).trans (ends_silent _), rfl⟩

end

end Sys2Proof
end

section
/-! PROOF. O59: pulls, mate contacts, regulators and the three reset classes (R525, R532, R536, R538, R539, R545). -/

namespace Sys2Proof

set_option Elab.async false

open Machine

/-! ## What a loss of the supply and a reset clear -/

theorem quiet_dropLink (s : State) : Quiet s s.dropLink := by
  rw [State.dropLink]
  split
  · exact (((quiet_refl s).wri ..).wri ..).wri .. |>.raise ..
  · exact quiet_refl s

theorem rdi_dropLink_ne (s : State) {pg i : Nat} {F0 : Field} (h : pg * 131072 + F0.off * 32 + F0.lo + 32 * (F0.stride * i) < pgHOST * 131072) :
    s.dropLink.rdi pg F0 i = s.rdi pg F0 i := by
  have hne (F1 : Field) : fkey pg F0 i ≠ fkey pgHOST F1 0 := by
    simp only [fkey]
    omega
  rw [State.dropLink]
  split
  · rw [State.rdi_raise_ne _ (hne _), State.rdi_wri_ne _ _ (hne _), State.rdi_wri_ne _ _ (hne _), State.rdi_wri_ne _ _ (hne _)]
  · rfl

theorem showRetired_regs (s : State) : RegsOnly s s.showRetired := by
  refine RegsOnly.foldl (fun t e => ?_) _ _
  split
  · exact (regsOnly_refl t).wr ..
  · exact (regsOnly_refl t).wr ..
  · exact regsOnly_refl t

theorem recountQuiet_quiet (s : State) : Quiet s s.recountQuiet := ((recount_quiet s).wri ..).wri ..

theorem rd_recountQuiet_cause (s : State) : s.recountQuiet.rd pgMOD F.MOD_RESET_CAUSE = s.rd pgMOD F.MOD_RESET_CAUSE := by
  rw [State.recountQuiet, State.rd, State.rdi_wri_ne _ _ (by decide), State.rdi_wri_ne _ _ (by decide)]
  exact recount_regs _ _ _ _ (by decide)

theorem mainOffNow_spec (s : State) (cause : Nat) : (s.mainOffNow cause).vats = [] ∧ (s.mainOffNow cause).steps = [] ∧ (s.mainOffNow cause).lp.mem = [] ∧
    (s.mainOffNow cause).lp.keys = [] ∧ (s.mainOffNow cause).keg.jobs = [] ∧
    (s.mainOffNow cause).pwr = { s.pwr with mainOff := true, off := cause, ballast := false } ∧ (s.mainOffNow cause).fw.bootLog = s.fw.bootLog := by
  rw [State.mainOffNow]
  dsimp only
  generalize hu : s.cleared _ = u
  have hregs := showRetired_regs u
  generalize u.showRetired = v at *
  rw [hregs]
  rw [← hu]
  exact ⟨rfl, rfl, rfl, rfl, rfl, rfl, rfl⟩

/-- The state that a POWER-ON reset leaves, before its cause and the mate contacts show. -/
def poweredOn (s : State) (cause : Nat) : State :=
  { (s.cleared s.flashKeeps).showRetired with
    pwr := { mainOff := true, earlyHigh := s.pwr.earlyHigh, lateHigh := s.pwr.lateHigh, contactClk := s.now, lastTrip := cause == 4, vin := s.pwr.vin,
             hot := s.pwr.hot, cool := s.pwr.cool, failing := s.pwr.failing }
    start := { kind := 1, phaseClk := s.now, startClk := s.now } }

theorem poweredOn_spec (s : State) (cause : Nat) : (poweredOn s cause).lp.mem = [] ∧ (poweredOn s cause).vstore = [] ∧ (poweredOn s cause).fstore = [] ∧
    (poweredOn s cause).steps = [] ∧ (poweredOn s cause).gau.ownerKey = s.gau.ownerKey ∧ (poweredOn s cause).gau.ownerSeq = s.gau.ownerSeq ∧
    (poweredOn s cause).gau.bootCount = s.gau.bootCount := by
  rw [poweredOn]
  generalize hu : s.cleared _ = u
  have hregs := showRetired_regs u
  generalize u.showRetired = v at *
  rw [hregs]
  rw [← hu]
  exact ⟨rfl, rfl, rfl, rfl, rfl, rfl, rfl⟩

theorem bootCount_powerOn (s : State) (cause : Nat) : (s.powerOn cause).gau.bootCount = s.gau.bootCount := by
  have hpower : s.powerOn cause = ((poweredOn s cause).showMate.wr pgMOD F.MOD_RESET_CAUSE cause).recountQuiet := rfl
  obtain ⟨-, -, -, -, -, -, hboot⟩ := poweredOn_spec s cause
  have hregs : RegsOnly (poweredOn s cause) ((poweredOn s cause).showMate.wr pgMOD F.MOD_RESET_CAUSE cause) := ((regsOnly_refl _).wr ..).wr ..
  rw [hpower, (recountQuiet_quiet _).1, hregs]
  exact hboot

theorem powerOn_spec (s : State) {cause : Nat} (hcause : cause ≤ 4) : (s.powerOn cause).pwr.mainOff = true ∧ (s.powerOn cause).pwr.standbyOff = false ∧
    (s.powerOn cause).rd pgMOD F.MOD_RESET_CAUSE = cause ∧ (s.powerOn cause).start.kind = 1 ∧ (s.powerOn cause).lp.mem = [] ∧
    (s.powerOn cause).vstore = [] ∧ (s.powerOn cause).fstore = [] ∧ (s.powerOn cause).steps = [] ∧
    (s.powerOn cause).gau.ownerKey = s.gau.ownerKey ∧ (s.powerOn cause).gau.ownerSeq = s.gau.ownerSeq ∧
    (s.powerOn cause).gau.bootCount = s.gau.bootCount := by
  have hpower : s.powerOn cause = ((poweredOn s cause).showMate.wr pgMOD F.MOD_RESET_CAUSE cause).recountQuiet := rfl
  have hspec := poweredOn_spec s cause
  have hpwr : (poweredOn s cause).pwr.mainOff = true ∧ (poweredOn s cause).pwr.standbyOff = false ∧ (poweredOn s cause).start.kind = 1 := ⟨rfl, rfl, rfl⟩
  rw [hpower]
  generalize poweredOn s cause = u at *
  have hregs : RegsOnly u (u.showMate.wr pgMOD F.MOD_RESET_CAUSE cause) := ((regsOnly_refl u).wr ..).wr ..
  have hshown : (u.showMate.wr pgMOD F.MOD_RESET_CAUSE cause).rd pgMOD F.MOD_RESET_CAUSE = cause :=
    (State.rdi_wri_self ..).trans (Nat.mod_eq_of_lt (Nat.lt_of_le_of_lt hcause (by decide)))
  generalize u.showMate.wr pgMOD F.MOD_RESET_CAUSE cause = v at *
  have hquiet := recountQuiet_quiet v
  have hcause' := (rd_recountQuiet_cause v).trans hshown
  generalize v.recountQuiet = t at *
  obtain ⟨hmem, hvstore, hfstore, hsteps, howner, hseq, hboot⟩ := hspec
  obtain ⟨hmain, hstandby, hkind⟩ := hpwr
  refine ⟨?_, ?_, hcause', ?_, ?_, ?_, ?_, ?_, ?_, ?_, ?_⟩ <;> rw [hquiet.1, hregs] <;> assumption

/-- The state that a MODULE reset leaves, before its registers show. -/
def resetState (s : State) (low : Bool) : State :=
  { (s.cleared s.moduleKeeps).showRetired with
    ctrs := s.ctrs.filter fun e => mgmtPage (e.1 / 4096)
    start := { kind := 2, phaseClk := s.now, startClk := s.now, modLow := low } }

theorem resetState_spec (s : State) (low : Bool) : (resetState s low).lp.keys = [] ∧ (resetState s low).lp.mem = [] ∧
    (resetState s low).keg.jobs = [] ∧ (resetState s low).gau.ownerKey = s.gau.ownerKey := by
  rw [resetState]
  generalize hu : s.cleared _ = u
  have hregs := showRetired_regs u
  generalize u.showRetired = v at *
  rw [hregs]
  rw [← hu]
  exact ⟨rfl, rfl, rfl, rfl⟩

theorem moduleReset_spec (s : State) {cause : Nat} (hcause : cause ≤ 4) (low : Bool) : (s.moduleReset cause low).start.modLow = low ∧
    (s.moduleReset cause low).start.kind = 2 ∧ (s.moduleReset cause low).rd pgMOD F.MOD_RESET_CAUSE = cause ∧ (s.moduleReset cause low).lp.keys = [] ∧
    (s.moduleReset cause low).lp.mem = [] ∧ (s.moduleReset cause low).keg.jobs = [] ∧ (s.moduleReset cause low).gau.ownerKey = s.gau.ownerKey := by
  have hreset : s.moduleReset cause low = ((((resetState s low).wr pgBIST F.BIST_PASS_POS s.bist.savedPos).wr pgBIST F.BIST_PASSES s.bist.savedPasses).wr
    pgMOD F.MOD_RESET_CAUSE cause).recountQuiet := rfl
  have hspec := resetState_spec s low
  have hstart : (resetState s low).start.modLow = low ∧ (resetState s low).start.kind = 2 := ⟨rfl, rfl⟩
  rw [hreset]
  generalize resetState s low = u at *
  have hregs : RegsOnly u (((u.wr pgBIST F.BIST_PASS_POS s.bist.savedPos).wr pgBIST F.BIST_PASSES s.bist.savedPasses).wr pgMOD F.MOD_RESET_CAUSE cause) :=
    (((regsOnly_refl u).wr ..).wr ..).wr ..
  have hshown : (((u.wr pgBIST F.BIST_PASS_POS s.bist.savedPos).wr pgBIST F.BIST_PASSES s.bist.savedPasses).wr pgMOD F.MOD_RESET_CAUSE cause).rd
      pgMOD F.MOD_RESET_CAUSE = cause := (State.rdi_wri_self ..).trans (Nat.mod_eq_of_lt (Nat.lt_of_le_of_lt hcause (by decide)))
  generalize ((u.wr pgBIST F.BIST_PASS_POS s.bist.savedPos).wr pgBIST F.BIST_PASSES s.bist.savedPasses).wr pgMOD F.MOD_RESET_CAUSE cause = v at *
  have hquiet := recountQuiet_quiet v
  have hcause' := (rd_recountQuiet_cause v).trans hshown
  generalize v.recountQuiet = t at *
  obtain ⟨hkeys, hmem, hjobs, howner⟩ := hspec
  obtain ⟨hlow, hkind⟩ := hstart
  refine ⟨?_, ?_, hcause', ?_, ?_, ?_, ?_⟩ <;> rw [hquiet.1, hregs] <;> assumption

/-! ## The ROM starts (R541) -/

theorem startPhase_romStart (s : State) (recover : Bool) : (s.romStart recover).startPhase = 1 := by
  refine (State.rdi_wri_ne _ _ (by decide)).trans ((State.rdi_wri_ne _ _ (by decide)).trans ?_)
  exact State.rdi_wri_self ..

theorem rdi_romStart_ne (s : State) (recover : Bool) {pg i : Nat} {F0 : Field} (h1 : fkey pg F0 i ≠ fkey pgMOD F.MOD_START_PHASE 0)
    (h2 : fkey pg F0 i ≠ fkey pgTHERMAL F.THM_STATUS_TRIP_LAST 0) (h3 : fkey pg F0 i ≠ fkey pgGAU F.FW_LAST_BOOT_RECOVERY 0) :
    (s.romStart recover).rdi pg F0 i = s.rdi pg F0 i :=
  (State.rdi_wri_ne _ _ h3).trans ((State.rdi_wri_ne _ _ h2).trans (State.rdi_wri_ne _ _ h1))

theorem sameBytes_romStart (s : State) (recover : Bool) : SameBytes s (s.romStart recover) := by
  unfold State.romStart
  exact .of_eq

/-! ## The mate contacts (R525, R536) -/

theorem rd_showMate (s : State) : s.showMate.rd pgMGMT F.MGMT_MATE = boolNat s.pwr.earlyHigh + 2 * boolNat s.pwr.lateHigh := by
  refine (State.rdi_wri_self ..).trans ?_
  cases s.pwr.earlyHigh <;> cases s.pwr.lateHigh <;> rfl

theorem regsBut_mate {s : State} (p : PwrSt) : RegsBut s ({ s with pwr := p }.showMate) [fkey pgMGMT F.MGMT_MATE 0] := fun pg F0 i hk =>
  (State.rdi_wri_ne _ _ (by simpa using hk)).trans rfl

theorem vatsHeld_winds (l : List Nat) (s : State) (h : Bool) : Winds s (l.foldl (fun t pg => t.holdVat pg h) s) :=
  .foldl (fun t pg ht => (ht.of (t := t.setVat pg { t.vat pg with clkHold := h })).wrPlain ..) _ (.refl s)

section
variable {s : State} (hstandby : s.pwr.standbyOff = false)
include hstandby

/-- The contact has come loose. -/
def looseShown (s : State) : State := { s with pwr := { s.pwr with earlyHigh := true, earlyClk := none, ballast := false } }.showMate

/-- The early contact is back. -/
def matedShown (s : State) : State :=
  { s with pwr := { s.pwr with earlyHigh := false, earlyClk := if s.pwr.lateHigh then none else some s.now, contactClk := s.now } }.showMate

theorem pull_of_off (hearly : s.pwr.earlyHigh = false) (hmain : s.pwr.mainOff = true) : ∃ t, exec .pull s = .next t ∧ t.pwr.earlyHigh = true ∧
    t.rd pgMGMT F.MGMT_MATE = 1 + 2 * (if s.pwr.lateHigh = true then 1 else 0) ∧ RegsBut s t [fkey pgMGMT F.MGMT_MATE 0] := by
  refine ⟨looseShown s, ?_, rfl, rd_showMate _, regsBut_mate _⟩
  change execPull s = _
  rw [execPull, if_neg (by rw [hstandby, hearly]; decide)]
  dsimp only
  rw [if_pos (by rw [State.showMate, State.wri_pwr]; exact hmain), looseShown]

theorem pull_destroys (hearly : s.pwr.earlyHigh = false) (hmain : s.pwr.mainOff = false) : ∃ t, exec .pull s = .next t ∧ t.pulled = true ∧
    Raised t pgPOWER 7 ∧ t.lp.keys = [] ∧ t.drbg = [] ∧ t.keg.silent = true ∧ t.pwr.earlyHigh = true ∧
    t.rd pgMGMT F.MGMT_MATE = 1 + 2 * (if s.pwr.lateHigh = true then 1 else 0) ∧
    ∀ j x, s.kegJob j = some x → ∃ y, t.kegJob j = some y ∧ y.aborted = true ∧ y.keys = none := by
  have hexec : ∃ l : List Nat, exec .pull s = .next (l.foldl (fun t pg => t.holdVat pg true)
      (((looseShown s).wr pgPOWER F.PWR_STATUS_PULL 1).raise pgPOWER 7).destroyAllKeys.silence) := by
    refine ⟨((((looseShown s).wr pgPOWER F.PWR_STATUS_PULL 1).raise pgPOWER 7).destroyAllKeys.silence.vats.map (·.1)), ?_⟩
    change execPull s = _
    rw [execPull, if_neg (by rw [hstandby, hearly]; decide)]
    dsimp only
    rw [if_neg (by rw [State.showMate, State.wri_pwr, hmain]; exact Bool.false_ne_true), looseShown]
  obtain ⟨l, hexec⟩ := hexec
  have hmate : (looseShown s).rd pgMGMT F.MGMT_MATE = 1 + 2 * (if s.pwr.lateHigh = true then 1 else 0) := rd_showMate _
  have hpwr : (looseShown s).pwr.earlyHigh = true := rfl
  have hjobs (j : Nat) : (looseShown s).kegJob j = s.kegJob j := rfl
  rw [hexec]
  generalize looseShown s = u at *
  have hpull : ((u.wr pgPOWER F.PWR_STATUS_PULL 1).raise pgPOWER 7).rd pgPOWER F.PWR_STATUS_PULL = 1 := by
    rw [State.rd, State.rdi_raise_ne _ (by decide)]
    exact State.rdi_wri_self ..
  have hmate' : ((u.wr pgPOWER F.PWR_STATUS_PULL 1).raise pgPOWER 7).rd pgMGMT F.MGMT_MATE = 1 + 2 * (if s.pwr.lateHigh = true then 1 else 0) := by
    rw [State.rd, State.rdi_raise_ne _ (by decide)]
    exact (State.rdi_wri_ne _ _ (by decide)).trans hmate
  have htold := raised_raise (u.wr pgPOWER F.PWR_STATUS_PULL 1) pgPOWER 7 (by decide)
  have hpwr' : ((u.wr pgPOWER F.PWR_STATUS_PULL 1).raise pgPOWER 7).pwr = u.pwr := by rw [State.raise_pwr, State.wri_pwr]
  have hkeg : ((u.wr pgPOWER F.PWR_STATUS_PULL 1).raise pgPOWER 7).keg = u.keg := by rw [State.raise_keg, State.wri_keg]
  generalize (u.wr pgPOWER F.PWR_STATUS_PULL 1).raise pgPOWER 7 = v at *
  obtain ⟨hgone, hsilent⟩ := silence_destroyed v
  generalize v.destroyAllKeys.silence = w at *
  have hheld := vatsHeld_winds l w true
  have hsilent' : (l.foldl (fun t pg => t.holdVat pg true) w).keg.silent = true :=
    List.foldlRecOn (motive := fun (t : State) => t.keg.silent = true) _ _ hsilent fun _ ht _ _ => ht
  generalize l.foldl (fun t pg => t.holdVat pg true) w = t at *
  have hall := hgone.trans hheld.ends
  refine ⟨t, rfl, ?_, hall.latched 7 (by decide) htold, hall.keys, hall.drbg, hsilent', ?_, ?_, fun j x hj => hall.jobs j x ?_⟩
  · have hshown : t.rdi pgPOWER F.PWR_STATUS_PULL 0 = 1 := (hall.shown _ _ _ (by decide)).trans hpull
    rw [State.pulled, State.on, hshown]
    rfl
  · rw [hall.pwr, hpwr', hpwr]
  · exact (hall.shown _ _ _ (by decide)).trans hmate'
  · rwa [State.kegJob, hkeg, ← State.kegJob, hjobs]

theorem mateEarlyReturn_mates (hearly : s.pwr.earlyHigh = true) : ∃ t, exec .mateEarlyReturn s = .next t ∧ t.pwr.earlyHigh = false ∧
    t.pwr.earlyClk = (if s.pwr.lateHigh = true then none else some s.now) ∧
    t.rd pgMGMT F.MGMT_MATE = 2 * (if s.pwr.lateHigh = true then 1 else 0) ∧ RegsBut s t [fkey pgMGMT F.MGMT_MATE 0] ∧ SameBytes s t := by
  have hexec : exec .mateEarlyReturn s = .next (matedShown s) := by
    change execMateEarlyReturn s = _
    rw [execMateEarlyReturn, if_neg (by rw [hstandby, hearly]; decide), matedShown]
  have hmate : (matedShown s).rd pgMGMT F.MGMT_MATE = 0 + 2 * boolNat s.pwr.lateHigh := rd_showMate _
  exact ⟨_, hexec, rfl, rfl, hmate.trans (Nat.zero_add _), regsBut_mate _, .of_eq⟩

theorem mateLateBreak_off (hlate : s.pwr.lateHigh = false) (hmain : s.pwr.mainOff = false) : ∃ t, exec .mateLateBreak s = .next t ∧
    t.pwr.mainOff = true ∧ t.pwr.lateHigh = true ∧ t.pwr.off = 3 ∧ t.vats = [] ∧ t.steps = [] ∧ t.lp.mem = [] := by
  have hexec : ∃ u : State, u.pwr.lateHigh = true ∧
      exec .mateLateBreak s = .next { u.dropLink.mainOffNow 3 with pwr := { (u.dropLink.mainOffNow 3).pwr with lastTrip := false } } := by
    refine ⟨{ s with pwr := { s.pwr with lateHigh := true, earlyClk := none } }.showMate, rfl, ?_⟩
    change execMateLateBreak s = _
    rw [execMateLateBreak, if_neg (by rw [hstandby, hlate]; decide)]
    dsimp only
    rw [if_neg (by rw [State.showMate, State.wri_pwr, hmain]; exact Bool.false_ne_true)]
  obtain ⟨u, hu, hexec⟩ := hexec
  obtain ⟨hvats, hsteps, hmem, -, -, hpwr, -⟩ := mainOffNow_spec u.dropLink 3
  have hdrop : u.dropLink.pwr = u.pwr := by rw [(quiet_dropLink u).1]
  rw [hexec]
  generalize u.dropLink.mainOffNow 3 = v at *
  refine ⟨_, rfl, ?_, ?_, ?_, hvats, hsteps, hmem⟩
  · rw [hpwr]
  · rw [hpwr, hdrop, hu]
  · rw [hpwr]

end

/-! ## The main regulators start (R525) -/

theorem regulatorStart_starts {s : State} (recover : Bool) (hmay : s.mayStart = true) : ∃ t, exec (.regulatorStart recover) s = .next t ∧
    t.pwr.mainOff = false ∧ t.startPhase = 1 ∧ t.gau.bootCount = s.gau.bootCount + 1 ∧ t.start.recover = recover ∧
    (s.pwr.off = 3 ∨ s.pwr.off = 4 → t.rd pgMOD F.MOD_RESET_CAUSE = s.pwr.off ∧ t.start.kind = 1) := by
  have hexec : exec (.regulatorStart recover) s = .next (State.romStart
      { (if s.pwr.off = 0 then s else s.powerOn s.pwr.off) with pwr := { (if s.pwr.off = 0 then s else s.powerOn s.pwr.off).pwr with mainOff := false, off := 0 } }
      recover) := by
    change execRegulatorStart recover s = _
    rw [execRegulatorStart, hmay, if_neg (by decide)]
  have hboot : (if s.pwr.off = 0 then s else s.powerOn s.pwr.off).gau.bootCount = s.gau.bootCount ∧ (s.pwr.off = 3 ∨ s.pwr.off = 4 →
      (if s.pwr.off = 0 then s else s.powerOn s.pwr.off).rd pgMOD F.MOD_RESET_CAUSE = s.pwr.off ∧
        (if s.pwr.off = 0 then s else s.powerOn s.pwr.off).start.kind = 1) := by
    split
    · exact ⟨rfl, fun h => by omega⟩
    · refine ⟨bootCount_powerOn .., fun h => ?_⟩
      obtain ⟨-, -, hcause, hkind, -⟩ := powerOn_spec s (show s.pwr.off ≤ 4 by omega)
      exact ⟨hcause, hkind⟩
  rw [hexec]
  generalize (if s.pwr.off = 0 then s else s.powerOn s.pwr.off) = u at *
  obtain ⟨hcount, hreset⟩ := hboot
  refine ⟨_, rfl, rfl, startPhase_romStart _ _, congrArg (· + 1) hcount, rfl, fun h => ?_⟩
  obtain ⟨hcause, hkind⟩ := hreset h
  exact ⟨(rdi_romStart_ne _ _ (by decide) (by decide) (by decide)).trans hcause, hkind⟩

theorem powerOnReset_resets {s : State} (hoff : s.pwr.off ≤ 4) : ∃ t, exec .powerOnReset s = .next t ∧ t.pwr.mainOff = true ∧ t.pwr.standbyOff = false ∧
    t.rd pgMOD F.MOD_RESET_CAUSE = s.pwr.off ∧ t.start.kind = 1 ∧ t.lp.mem = [] ∧ t.vstore = [] ∧ t.fstore = [] ∧ t.steps = [] ∧
    t.gau.ownerKey = s.gau.ownerKey ∧ t.gau.ownerSeq = s.gau.ownerSeq := by
  obtain ⟨hmain, hstandby, hcause, hkind, hmem, hvstore, hfstore, hsteps, howner, hseq, -⟩ := powerOn_spec s hoff
  exact ⟨s.powerOn s.pwr.off, rfl, hmain, hstandby, hcause, hkind, hmem, hvstore, hfstore, hsteps, howner, hseq⟩

/-! ## MODULE resets (R538) -/

theorem heldFor_some {c n now : Nat} (h : c + n ≤ now) : heldFor (some c) n now = true := decide_eq_true h

section
variable {s : State} (recover : Bool) (hstandby : s.pwr.standbyOff = false)
include hstandby

theorem moduleReset_low : ∃ t, exec (.moduleReset false recover) s = .next t ∧ t.start.modLow = true ∧ t.start.kind = 2 ∧
    t.rd pgMOD F.MOD_RESET_CAUSE = 1 ∧ t.lp.keys = [] ∧ t.lp.mem = [] ∧ t.keg.jobs = [] ∧ t.gau.ownerKey = s.gau.ownerKey := by
  have hexec : exec (.moduleReset false recover) s = .next (State.wr
      { (if s.pwr.mainOff then s else s.destroyAllKeys.silence).dropLink.moduleReset 1 true with
        pwr := { ((if s.pwr.mainOff then s else s.destroyAllKeys.silence).dropLink.moduleReset 1 true).pwr with off := 0 } }
      pgPOWER F.PWR_STATUS_PULL (boolNat s.pwr.earlyHigh)) := by
    change execModuleReset false recover s = _
    rw [execModuleReset, hstandby, if_neg Bool.false_ne_true, if_neg Bool.false_ne_true]
  have howner : (if s.pwr.mainOff then s else s.destroyAllKeys.silence).gau.ownerKey = s.gau.ownerKey := by
    split
    · rfl
    · exact (silence_destroyed s).1.owner
  rw [hexec]
  generalize (if s.pwr.mainOff then s else s.destroyAllKeys.silence) = u at *
  have hdrop : u.dropLink.gau = u.gau := by rw [(quiet_dropLink u).1]
  obtain ⟨hlow, hkind, hcause, hkeys, hmem, hjobs, howner'⟩ := moduleReset_spec u.dropLink (cause := 1) (by decide) true
  generalize u.dropLink.moduleReset 1 true = v at *
  exact ⟨_, rfl, hlow, hkind, (State.rdi_wri_ne _ _ (by decide)).trans hcause, hkeys, hmem, hjobs, howner'.trans (by rw [hdrop, howner])⟩

theorem moduleReset_mated (hpulled : s.pulled = true) (hmain : s.pwr.mainOff = false) {c : Nat} (hclk : s.pwr.earlyClk = some c)
    (hheld : c + 50 * clkMs ≤ s.now) : ∃ t, exec (.moduleReset true recover) s = .next t ∧ t.rd pgMOD F.MOD_RESET_CAUSE = 2 ∧ t.startPhase = 1 ∧
      t.pulled = false ∧ t.lp.keys = [] ∧ t.lp.mem = [] := by
  have hexec : exec (.moduleReset true recover) s = .next (State.romStart (State.wr
      { s.destroyAllKeys.silence.moduleReset 2 false with pwr := { (s.destroyAllKeys.silence.moduleReset 2 false).pwr with earlyClk := none } }
      pgPOWER F.PWR_STATUS_PULL 0) recover) := by
    have hlong := heldFor_some hheld
    change execModuleReset true recover s = _
    rw [execModuleReset, hstandby, if_neg Bool.false_ne_true, if_pos rfl, hpulled, hmain, hclk, hlong, if_neg (by decide)]
  rw [hexec]
  generalize s.destroyAllKeys.silence = u at *
  obtain ⟨-, -, hcause, hkeys, hmem, -, -⟩ := moduleReset_spec u (cause := 2) (by decide) false
  generalize u.moduleReset 2 false = v at *
  refine ⟨_, rfl, ?_, startPhase_romStart _ _, ?_, hkeys, hmem⟩
  · refine (rdi_romStart_ne _ _ (by decide) (by decide) (by decide)).trans ((State.rdi_wri_ne _ _ (by decide)).trans hcause)
  · rw [State.pulled, State.on, rdi_romStart_ne _ _ (by decide) (by decide) (by decide), State.rdi_wri_self]
    rfl

theorem modResetNRise_begins (hlow : s.start.modLow = true) : ∃ t, exec (.modResetNRise recover) s = .next t ∧ t.start.modLow = false ∧
    t.pwr.tripped = false ∧ (s.pwr.mainOff = false → t.startPhase = 1 ∧ t.gau.bootCount = s.gau.bootCount + 1 ∧ t.start.recover = recover) ∧
    SameBytes s t := by
  have hexec : exec (.modResetNRise recover) s = .next (
      if s.pwr.mainOff then { s with start := { s.start with modLow := false }, pwr := { s.pwr with tripped := false } }
      else State.romStart { s with start := { s.start with modLow := false }, pwr := { s.pwr with tripped := false } } recover) := by
    change execModResetNRise recover s = _
    rw [execModResetNRise, hlow, hstandby, if_neg (by decide)]
  rw [hexec]
  cases s.pwr.mainOff with
  | true => exact ⟨_, rfl, rfl, rfl, fun h => absurd h (by decide), .of_eq⟩
  | false =>
    have hbytes : SameBytes s { s with start := { s.start with modLow := false }, pwr := { s.pwr with tripped := false } } := .of_eq
    exact ⟨_, rfl, rfl, rfl, fun _ => ⟨startPhase_romStart _ _, rfl, rfl⟩, hbytes.trans (sameBytes_romStart _ _)⟩

end

end Sys2Proof
end

section
/-! PROOF. O59: the HOST reset and its fill (R539, R545, R546). -/

namespace Sys2Proof

set_option Elab.async false

open Machine

/-! ## The states of contexts -/

theorem ctxState_setState (s : State) (c d st : Nat) :
    (s.setCtxField F.CTXS_ENTRY_STATE d st).ctxState c = st % 16 ∨ (s.setCtxField F.CTXS_ENTRY_STATE d st).ctxState c = s.ctxState c := by
  rw [State.setCtxField, State.ctxState, State.ctxField, State.ctxState, State.ctxField]
  by_cases h : fkey (ctxsPage c) F.CTXS_ENTRY_STATE (c % 512) = fkey (ctxsPage d) F.CTXS_ENTRY_STATE (d % 512)
  · left
    have hc := Nat.mod_lt c (show 512 > 0 by decide)
    have hd := Nat.mod_lt d (show 512 > 0 by decide)
    have hsame : ctxsPage c = ctxsPage d ∧ c % 512 = d % 512 := by
      simp only [fkey, F.CTXS_ENTRY_STATE, ctxsPage, pgCTXS0, pgCTXS1] at h ⊢
      split_ifs at h ⊢ <;> omega
    rw [hsame.1, hsame.2]
    exact State.rdi_wri_self ..
  · exact .inr (State.rdi_wri_ne _ _ h)

/-- A context that some entry of the list names gets the state, and keeps it. -/
theorem ctxState_foldl {g : State → Nat → State} {v : Nat} (hset : ∀ t c, (g t c).ctxState c = v)
    (hkeep : ∀ t c d, t.ctxState c = v → (g t d).ctxState c = v) (l : List Nat) (s : State) {c : Nat} (hc : c ∈ l ∨ s.ctxState c = v) :
    (l.foldl g s).ctxState c = v := by
  induction l generalizing s with
  | nil => exact hc.resolve_left List.not_mem_nil
  | cons d l ih =>
    rw [List.foldl_cons]
    refine ih _ ?_
    rcases hc with hc | hc
    · rcases List.mem_cons.mp hc with rfl | hl
      · exact .inr (hset s c)
      · exact .inl hl
    · exact .inr (hkeep s c d hc)

/-! ## HOST_RESET (R545, R546) -/

theorem hostFw_lp (s : State) : s.hostFw.lp = s.lp := by
  rw [State.hostFw]
  split
  · rfl
  · split
    · rfl
    · split
      · rfl
      · rw [State.actFail, State.count_lp, State.raise_lp]
        rfl

theorem hostRinse_spec (s : State) (cs : List Nat) : (s.hostRinse cs).lp = s.lp ∧ (s.hostRinse cs).steps = s.steps ∧ (s.hostRinse cs).keg = s.keg ∧
    ∀ c ∈ cs, (s.hostRinse cs).ctxState c = ctxRINSING := by
  have hset (t : State) (c : Nat) : (t.setCtxField F.CTXS_ENTRY_STATE c ctxRINSING).ctxState c = ctxRINSING := by
    exact ctxField_setCtxField_self ..
  have hstates (t : State) {c : Nat} (hc : c ∈ cs) := ctxState_foldl hset (fun u c d hu => (ctxState_setState u c d ctxRINSING).elim id (·.trans hu))
    cs t (c := c) (.inl hc)
  have hregs : RegsOnly { s with ctxs := { fast := cs } } (s.hostRinse cs) :=
    (RegsOnly.foldl (fun t c => (regsOnly_refl t).wri ..) cs _).trans (((regsOnly_refl _).wr ..).wr ..)
  refine ⟨by rw [hregs], by rw [hregs], by rw [hregs], fun c hc => ?_⟩
  rw [State.hostRinse, ctxState_showCtxs]
  exact hstates _ hc

/-- What the reset shows on the pages of the host, the module and the Cellarmasters. -/
def hostShown (s : State) (code : Nat) : State :=
  [0, 1].foldl (fun (t : State) u => if t.cmRetired u then t else (t.wr (pgCM u) F.CM_CLAIM 0).wr (pgCM u) F.CM_ROLE roleReset)
    (((s.wr pgHOST F.HOST_CELLAR_RANGES 0).wr pgHOST F.HOST_CELLAR_BLOCKS_FREE 0).wr pgMOD F.MOD_RESET_CAUSE code)

theorem hostShown_regs (s : State) (code : Nat) : RegsOnly s (hostShown s code) := by
  refine RegsOnly.trans (((regsOnly_refl s).wr ..).wr .. |>.wr ..) (RegsOnly.foldl (fun t u => ?_) _ _)
  split
  · exact regsOnly_refl t
  · exact ((regsOnly_refl t).wr ..).wr ..

theorem hostShown_winds (s : State) (code : Nat) : Winds s (hostShown s code) := by
  refine .foldlMem (fun u hu t ht => .ite ht ?_) ((((Winds.refl s).wrHub ..).wrHub ..).wrHub ..)
  simp only [List.mem_cons, List.not_mem_nil, or_false] at hu
  rcases hu with rfl | rfl <;> exact (ht.wrHub ..).wrHub ..

theorem rd_hostShown_cause (s : State) {code : Nat} (hcode : code < 16) : (hostShown s code).rd pgMOD F.MOD_RESET_CAUSE = code := by
  have hne (u : Nat) (F0 : Field) : fkey pgMOD F.MOD_RESET_CAUSE 0 ≠ fkey (pgCM u) F0 0 := by
    simp only [fkey, pgMOD, pgCM, F.MOD_RESET_CAUSE]
    omega
  rw [hostShown, State.rd, rdi_foldl _ _ fun u _ t => ?_]
  · exact (State.rdi_wri_self ..).trans (Nat.mod_eq_of_lt hcode)
  · split
    · rfl
    · rw [State.rdi_wri_ne _ _ (hne _ _), State.rdi_wri_ne _ _ (hne _ _)]

/-- Everything that runs has been stopped, and the contexts in use are to be rinsed. -/
def hostStopped (s : State) (cs : List Nat) : State :=
  (State.hostStop (s.hostFw.count pgBIST 0x054 s.bist.running.length)).showKeys.showJobs.showCasks.hostRinse cs

theorem hostStopped_spec (s : State) (cs : List Nat) : (hostStopped s cs).lp.keys = s.lp.keys ∧ (hostStopped s cs).steps = [] ∧
    (hostStopped s cs).keg.jobs = [] ∧ ∀ c ∈ cs, (hostStopped s cs).ctxState c = ctxRINSING := by
  have hlp : (s.hostFw.count pgBIST 0x054 s.bist.running.length).lp = s.lp := (State.count_lp ..).trans (hostFw_lp s)
  rw [hostStopped]
  generalize s.hostFw.count pgBIST 0x054 s.bist.running.length = u at *
  have hstop : u.hostStop.lp.keys = u.lp.keys ∧ u.hostStop.steps = [] ∧ u.hostStop.keg.jobs = [] := ⟨rfl, rfl, rfl⟩
  obtain ⟨hkeys, hsteps, hjobs⟩ := hstop
  generalize u.hostStop = v at *
  have hregs : RegsOnly v v.showKeys.showJobs.showCasks := ((showKeys_regs v).trans (showJobs_regs _)).wr ..
  generalize v.showKeys.showJobs.showCasks = w at *
  obtain ⟨hlp', hsteps', hkeg', hstates⟩ := hostRinse_spec w cs
  exact ⟨by rw [hlp', hregs, hkeys, hlp], by rw [hsteps', hregs, hsteps], by rw [hkeg', hregs, hjobs], hstates⟩

/-- The code of a HOST reset's cause (R548). -/
def hostCode (cause : HostCause) : Nat := match cause with
  | .perst => 5
  | .hotReset => 6
  | .pfFlr => 7

/-- The link at a HOST reset: gone, unless the function alone is reset. -/
def hostLink (cause : HostCause) (s : State) : State := match cause with
  | .perst => { s with host := { s.host with perstHigh := false } }.dropLink
  | .hotReset => s.dropLink
  | .pfFlr => s

/-- A start-up sequence is under way, or there is no main supply. -/
def resetting (s : State) : Bool := s.pwr.mainOff || s.start.modLow || s.start.kind == 1 || s.start.kind == 2

theorem exec_hostReset_resetting (cause : HostCause) {s : State} (h : resetting s = true) :
    exec (.hostReset cause) s = .next (hostLink cause s).dropLink := by
  cases cause <;> exact congrArg Host.Outcome.next (if_pos h)

/-- The contexts in use. -/
def usedCtxs (s : State) : List Nat := (List.range 1024).filter fun c => s.ctxState c != ctxFREE

/-- The sequence of a HOST reset begins. -/
def hostBegun (s u : State) : State :=
  { u.enterPhase 1 with start := { u.start with kind := 3, phaseClk := s.now, startClk := s.now } }.showC0

theorem exec_hostReset (cause : HostCause) {s : State} (h : resetting s = false) : exec (.hostReset cause) s = .next (hostBegun s
    (hostShown (hostStopped ((hostLink cause s).destroyAllKeys.abortJobs fun e => !e.2.aborted) (usedCtxs s)) (hostCode cause))) := by
  have hne : ¬(s.pwr.mainOff || s.start.modLow || s.start.kind == 1 || s.start.kind == 2) = true := by
    rw [← resetting, h]
    exact Bool.false_ne_true
  change execHostReset cause s = _
  unfold execHostReset
  extract_lets host0 s0 cs code s1 s2 s3 s4 s5 t5 start5
  rw [if_neg hne]
  have hcs : cs = usedCtxs s := rfl
  have hcode : code = hostCode cause := by cases cause <;> rfl
  have hlink : s0 = hostLink cause s := by cases cause <;> rfl
  rw [← hcs, ← hcode, ← hlink]
  clear_value cs code s0
  rfl

section
variable (cause : HostCause) {s : State}

theorem hostLink_spec : Quiet { s with host := { s.host with perstHigh := (hostLink cause s).host.perstHigh } } (hostLink cause s) ∧
    (hostLink cause s).start = s.start ∧ (hostLink cause s).startPhase = s.startPhase := by
  cases cause with
  | pfFlr => exact ⟨quiet_refl s, rfl, rfl⟩
  | hotReset =>
    have hquiet := quiet_dropLink s
    have hperst : s.dropLink.host.perstHigh = s.host.perstHigh := by rw [hquiet.2]
    refine ⟨?_, start_dropLink s, rdi_dropLink_ne _ (by decide)⟩
    change Quiet { s with host := { s.host with perstHigh := s.dropLink.host.perstHigh } } s.dropLink
    rw [hperst]
    exact hquiet
  | perst =>
    have hquiet := quiet_dropLink { s with host := { s.host with perstHigh := false } }
    have hperst : ({ s with host := { s.host with perstHigh := false } } : State).dropLink.host.perstHigh = false := by rw [hquiet.2]
    refine ⟨?_, start_dropLink _, rdi_dropLink_ne _ (by decide)⟩
    change Quiet { s with host := { s.host with perstHigh := ({ s with host := { s.host with perstHigh := false } } : State).dropLink.host.perstHigh } } _
    rw [hperst]
    exact hquiet

theorem hostReset_early (hkind : s.start.kind = 1) : ∃ t, exec (.hostReset cause) s = .next t ∧ t.linkUp = false ∧ t.start = s.start ∧
    t.startPhase = s.startPhase ∧ SameBytes s t := by
  obtain ⟨hquiet, hstart, hphase⟩ := hostLink_spec cause (s := s)
  have hbytes : SameBytes s { s with host := { s.host with perstHigh := (hostLink cause s).host.perstHigh } } := .of_eq
  have hall := hbytes.trans (hquiet.sameBytes)
  rw [exec_hostReset_resetting cause (by rw [resetting, hkind]; simp)]
  generalize hostLink cause s = u at *
  exact ⟨_, rfl, linkUp_dropLink u, (start_dropLink u).trans hstart, (rdi_dropLink_ne u (by decide)).trans hphase,
    hall.trans (quiet_dropLink u).sameBytes⟩

theorem hostReset_restarts (hmain : s.pwr.mainOff = false) (hlow : s.start.modLow = false) (h1 : s.start.kind ≠ 1) (h2 : s.start.kind ≠ 2) :
    ∃ t, exec (.hostReset cause) s = .next t ∧ t.start.kind = 3 ∧ t.startPhase = 1 ∧ t.steps = [] ∧ t.lp.keys = [] ∧ t.keg.jobs = [] ∧
      t.rd pgMOD F.MOD_RESET_CAUSE = hostCode cause ∧ ∀ c, c < 1024 → s.ctxState c ≠ ctxFREE → t.ctxState c = ctxRINSING := by
  rw [exec_hostReset cause (by rw [resetting, hmain, hlow, beq_eq_false_iff_ne.mpr h1, beq_eq_false_iff_ne.mpr h2]; rfl)]
  have hgone := (abortAll_destroyed (hostLink cause s)).keys
  generalize ((hostLink cause s).destroyAllKeys.abortJobs fun e => !e.2.aborted) = u at *
  obtain ⟨hkeys, hsteps, hjobs, hstates⟩ := hostStopped_spec u (usedCtxs s)
  generalize hostStopped u (usedCtxs s) = v at *
  have hregs := hostShown_regs v (hostCode cause)
  have hwinds := hostShown_winds v (hostCode cause)
  have hcause := rd_hostShown_cause v (code := hostCode cause) (by cases cause <;> decide)
  generalize hostShown v (hostCode cause) = w at *
  have hphase := startPhase_enterPhase w (n := 1) (by decide)
  refine ⟨_, rfl, rfl, ?_, ?_, ?_, ?_, ?_, fun c hc hne => ?_⟩
  · exact (rdi_showC0_ne _ (by decide)).trans hphase
  · change w.steps = []
    rw [hregs, hsteps]
  · change w.lp.keys = []
    rw [hregs, hkeys, hgone]
  · change w.keg.jobs = []
    rw [hregs, hjobs]
  · exact (rdi_showC0_ne _ (by decide)).trans ((rdi_enterPhase_ne w 1 (by decide)).trans hcause)
  · have hlast : Winds w (w.enterPhase 1).showC0 := ((Winds.refl w).of.wrHub ..).wrHub ..
    refine (hlast.ctxState c).trans ((hwinds.ctxState c).trans (hstates c ?_))
    exact List.mem_filter.mpr ⟨List.mem_range.mpr hc, bne_iff_ne.mpr hne⟩

end

/-! ## HOST_FILL_DONE (R539) -/

/-- The stores that the fill has zeroed. -/
def Zeroed (s : State) : Prop := s.lp.mem = [] ∧ s.vstore = [] ∧ s.fstore = []

theorem freeTold_zeroed {s : State} (c : Nat) (h : Zeroed s) : Zeroed (freeTold s c) := by
  have hregs : RegsOnly s (entryFree s c) := ((regsOnly_refl s).wri ..).trans (setCtxState_regs ..)
  obtain ⟨hmem, hvstore, hfstore⟩ := h
  have hfree : (s.freeCtx c).lp = s.lp ∧ (s.freeCtx c).vstore = s.vstore ∧ (s.freeCtx c).fstore = s.fstore := by
    rw [freeCtx_eq, ← entryFree, wake_rest]
    generalize entryFree s c = u at *
    refine ⟨?_, ?_, ?_⟩
    · exact hregs.lp
    · change u.vstore = _
      rw [hregs]
    · change u.fstore = _
      rw [hregs]
  obtain ⟨h1, h2, h3⟩ := hfree
  rw [freeTold]
  refine ⟨?_, ?_, ?_⟩
  · rw [State.count_lp, State.raise_lp, h1, hmem]
  · rw [State.count_vstore, State.raise_vstore, h2, hvstore]
  · rw [State.count_fstore, State.raise_fstore, h3, hfstore]

theorem ctxState_freeTold (s : State) {c : Nat} (d : Nat) (h : s.ctxState c = ctxFREE) : (freeTold s d).ctxState c = ctxFREE := by
  have hseal : (s.setCtxField F.CTXS_ENTRY_SEALED d 0).ctxState c = s.ctxState c := ((Winds.refl s).setEntry _ (by decide)).ctxState c
  have hset := ctxState_setState (s.setCtxField F.CTXS_ENTRY_SEALED d 0) c d ctxFREE
  have hentry : (entryFree s d).ctxState c = ctxFREE := by
    rw [entryFree, State.setCtxState, ctxState_showCtxs]
    exact hset.elim id (·.trans (hseal.trans h))
  have hfree : (s.freeCtx d).ctxState c = ctxFREE := by
    rw [freeCtx_eq, ← entryFree, wake_rest]
    exact (rdi_pagesCleared _ d (ctxState_low c)).trans hentry
  have htold : Winds (s.freeCtx d) (freeTold s d) := ((Winds.refl _).raise ..).count ..
  exact (htold.ctxState c).trans hfree

/-- The registers that a claim writes. -/
def claimShown (s : State) (u c : Nat) : State :=
  (((s.wr (pgCM u) F.CM_CLAIM c).wr (pgCM 0) F.CM_CLAIM_LAST c).wr (pgCM 1) F.CM_CLAIM_LAST c).wr (pgCM u) F.CM_ROLE roleActive

theorem takeClaim_eq (s : State) (u : Nat) : ∃ c cm, s.takeClaim u = { claimShown s u c with cm := cm } := by
  refine ⟨nextClaim (s.rd (pgCM 0) F.CM_CLAIM_LAST), (s.takeClaim u).cm, ?_⟩
  unfold State.takeClaim State.modUnit State.setUnit claimShown
  dsimp only

theorem claimShown_regs (s : State) (u c : Nat) : RegsOnly s (claimShown s u c) := ((((regsOnly_refl s).wr ..).wr ..).wr ..).wr ..

theorem claimShown_winds (s : State) {u : Nat} (hu : u = 0 ∨ u = 1) (c : Nat) : Winds s (claimShown s u c) := by
  rcases hu with rfl | rfl <;> exact ((((Winds.refl s).wrHub ..).wrHub ..).wrHub ..).wrHub ..

theorem takeClaim_winds {z s : State} (h : Winds z s) {u : Nat} (hu : u = 0 ∨ u = 1) : Winds z (s.takeClaim u) := by
  obtain ⟨c, cm, heq⟩ := takeClaim_eq s u
  have hshown := h.trans (claimShown_winds s hu c)
  rw [heq]
  generalize claimShown s u c = v at *
  exact hshown.of

theorem startCm_winds (s : State) : Winds s s.startCm := by
  unfold State.startCm
  extract_lets s1 load s2
  have hload (t : State) {u : Nat} (hu : u = 0 ∨ u = 1) (ht : Winds s t) : Winds s (load t u) := by
    refine .ite ht ?_
    rcases hu with rfl | rfl <;> exact (((((ht.wrHub ..).wrHub ..).wrHub ..).wrHub ..).wrHub ..).wrHub ..
  have h2 : Winds s s2 := hload _ (.inr rfl) (hload _ (.inl rfl) (Winds.refl s).of)
  exact .ite (takeClaim_winds h2 (.inl rfl)) (.ite (takeClaim_winds h2 (.inr rfl)) h2)

theorem Zeroed.regsOnly {s t : State} (h : Zeroed s) (hregs : RegsOnly s t) : Zeroed t := by
  rw [hregs]
  exact h

theorem Zeroed.quiet {s t : State} (h : Zeroed s) (hquiet : Quiet s t) : Zeroed t := by
  rw [hquiet.1]
  exact h

theorem takeClaim_zeroed {s : State} (h : Zeroed s) (u : Nat) : Zeroed (s.takeClaim u) := by
  obtain ⟨c, cm, heq⟩ := takeClaim_eq s u
  have hshown := h.regsOnly (claimShown_regs s u c)
  rw [heq]
  generalize claimShown s u c = v at *
  exact hshown

theorem startCm_zeroed {s : State} (h : Zeroed s) : Zeroed s.startCm := by
  unfold State.startCm
  extract_lets s1 load s2
  have hload (t : State) (u : Nat) (ht : Zeroed t) : Zeroed (load t u) := by
    simp only [load]
    split
    · exact ht
    · exact ht.regsOnly ((((((regsOnly_refl t).wr ..).wr ..).wr ..).wr ..).wr .. |>.wr ..)
  have h1 : Zeroed s1 := h
  have h2 : Zeroed s2 := hload _ _ (hload _ _ h1)
  clear_value s2
  split
  · exact takeClaim_zeroed h2 0
  · split
    · exact takeClaim_zeroed h2 1
    · exact h2

theorem enterReady_zeroed {s : State} (h : Zeroed s) : Zeroed s.enterReady := by
  obtain ⟨hmem, hvstore, hfstore⟩ := h
  rw [State.enterReady]
  refine ⟨?_, ?_, ?_⟩
  · rw [State.raise_lp]
    exact hmem
  · rw [State.raise_vstore]
    exact hvstore
  · rw [State.raise_fstore]
    exact hfstore

theorem ctxState_recount (s : State) (c : Nat) : s.recount.ctxState c = s.ctxState c := by
  refine recount_regs s _ _ _ fun hk => ?_
  have hnone : ∀ k ∈ recountKeys, stateKey k = false := by decide
  exact absurd (stateKey_ctxState c) (by rw [hnone _ hk]; decide)

theorem enterReady_winds (s : State) : Winds s s.enterReady := by
  have hphase : Winds s ((s.enterPhase 6).wr pgMOD F.MOD_START_MS ((s.now - s.start.startClk) / clkMs)) := ((Winds.refl s).of.wrHub ..).wrHub ..
  exact Winds.raise hphase.of ..

/-- The contexts are free and the units show it. -/
def hostFilled (s : State) : State := ({ s with ctxs := {} } : State).startCm.showKv.showRqt.recount.enterReady

theorem hostFilled_spec (s : State) : (∀ c, (hostFilled s).ctxState c = s.ctxState c) ∧ (Zeroed s → Zeroed (hostFilled s)) := by
  rw [hostFilled]
  have hstart : Winds s ({ s with ctxs := {} } : State).startCm := ((Winds.refl s).of (t := { s with ctxs := {} })).trans (startCm_winds _)
  have hzero (hz : Zeroed s) : Zeroed ({ s with ctxs := {} } : State).startCm := startCm_zeroed hz
  generalize ({ s with ctxs := {} } : State).startCm = u at *
  have hshown := (hstart.showKv).showRqt
  have hregs : RegsOnly u u.showKv.showRqt := (showKv_regs u).trans (showRqt_regs _)
  generalize u.showKv.showRqt = v at *
  refine ⟨fun c => ?_, fun hz => ?_⟩
  · exact ((enterReady_winds v.recount).ctxState c).trans ((ctxState_recount v c).trans (hshown.ctxState c))
  · exact enterReady_zeroed (((hzero hz).regsOnly hregs).quiet (recount_quiet v))

/-- The fill has passed the memory and the stores, and retirements that waited are done. -/
def hostZeroed (s : State) : State :=
  let late := (s.lp.frames.filter fun e => e.2.pend && e.2.otype != 3).map (·.1)
  let s1 := late.foldl (fun (t : State) f => t.bump (pgXLT (frameDie f)) F.XLT_RETIRED_FRAMES 1) s
  let gone := (s.lp.frames.filter fun e => e.2.otype == 3 || e.2.pend).map fun (e : Nat × Frame) =>
    (e.1, ({ otype := 3, owner := 0, kind := 0 } : Frame))
  let s2 := { s1 with
    lp := { s1.lp with mem := [], tag := [], bad := [], frames := gone }
    vstore := [], vbad := [], fstore := [], fbad := [] }
  s.start.sysFree.foldl (fun (t : State) e => t.wr (pgXLT e.1) F.XLT_SYS_FREE e.2) s2

theorem hostFillDone_ready {s : State} (hkind : s.start.kind = 3) : ∃ t, exec .hostFillDone s = .next t ∧ t.ready = true ∧ t.start.kind = 0 ∧
    t.lp.mem = [] ∧ t.vstore = [] ∧ t.fstore = [] ∧ Raised t pgMOD 2 ∧ ∀ c, c < 1024 → c ∈ s.ctxs.fast → t.ctxState c = ctxFREE := by
  have hexec : ∃ u : State, Zeroed u ∧ exec .hostFillDone s = .next (hostFilled (s.ctxs.fast.foldl freeTold u)) := by
    refine ⟨hostZeroed s, Zeroed.regsOnly ⟨rfl, rfl, rfl⟩ (RegsOnly.foldl (fun t e => (regsOnly_refl t).wr ..) _ _), ?_⟩
    change execHostFillDone s = _
    rw [execHostFillDone, if_neg (not_not_intro hkind)]
    unfold hostFilled hostZeroed freeTold
    rfl
  obtain ⟨u, hu, hexec⟩ := hexec
  have hzero : Zeroed (s.ctxs.fast.foldl freeTold u) := List.foldlRecOn (motive := Zeroed) _ _ hu fun t ht c _ => freeTold_zeroed c ht
  have hstates {c : Nat} (hc : c ∈ s.ctxs.fast) := ctxState_foldl (fun t c => (freeTold_spec t c).1) (fun t c d ht => ctxState_freeTold t d ht)
    s.ctxs.fast u (c := c) (.inl hc)
  rw [hexec]
  generalize s.ctxs.fast.foldl freeTold u = v at *
  obtain ⟨hstate, hz⟩ := hostFilled_spec v
  obtain ⟨hmem, hvstore, hfstore⟩ := hz hzero
  refine ⟨hostFilled v, rfl, ?_, start_enterReady _, hmem, hvstore, hfstore, raised_enterReady _, fun c _ hc => (hstate c).trans (hstates hc)⟩
  rw [State.ready, hostFilled, startPhase_enterReady]
  rfl

/-- Settles O59: a pull destroys the keys before it silences the links, which leaves the power domain and every job's record; a loss of the supply, a
POWER-ON and a MODULE reset clear the state but for flash; a HOST reset stops what runs and rinses what is in use. -/
theorem pullsAndResets : Obligations.PullsAndResets := by
  unfold Obligations.PullsAndResets
  refine ⟨fun s hstandby hearly => ⟨fun hmain => pull_destroys hstandby hearly hmain, fun hmain => pull_of_off hstandby hearly hmain⟩,
    fun s hstandby hearly => mateEarlyReturn_mates hstandby hearly, fun s hstandby hlate hmain => mateLateBreak_off hstandby hlate hmain,
    fun recover s hmay => regulatorStart_starts recover hmay, fun s hoff => powerOnReset_resets hoff,
    fun recover s hstandby => ⟨moduleReset_low recover hstandby, fun hpulled hmain c hclk hheld =>
      moduleReset_mated recover hstandby hpulled hmain hclk hheld⟩,
    fun recover s hlow hstandby => modResetNRise_begins recover hstandby hlow, fun cause s => ⟨fun hkind => hostReset_early cause hkind, ?_⟩,
    fun s hkind => hostFillDone_ready hkind⟩
  intro hmain hlow h1 h2
  cases cause with
  | perst => exact hostReset_restarts .perst hmain hlow h1 h2
  | hotReset => exact hostReset_restarts .hotReset hmain hlow h1 h2
  | pfFlr => exact hostReset_restarts .pfFlr hmain hlow h1 h2

end Sys2Proof
end

section
/-! SUPPORT. What the retirement of a die (R8, R9) leaves alone: what the management pages show, and the power domain. -/

namespace Sys2Proof

set_option Elab.async false

open Machine

/-- A register entry of the management pages behind `EVT_RAW`. -/
def thermKey (k : Nat) : Bool := decide (0x800 * 131072 ≤ k ∧ k < 0x830 * 131072 ∧ 0x420 ≤ k % 131072)

/-- From `s` to `t` the management pages show the same, and the power domain is the same. -/
structure Afar (s t : State) : Prop where
  shown : ∀ pg F0 i, thermKey (fkey pg F0 i) = true → t.rdi pg F0 i = s.rdi pg F0 i
  pwr : t.pwr = s.pwr
  variant : t.variant = s.variant

theorem Afar.refl (s : State) : Afar s s := ⟨fun _ _ _ _ => rfl, rfl, rfl⟩

section
variable {z s t u : State}

theorem Afar.trans (h : Afar s t) (k : Afar t u) : Afar s u :=
  ⟨fun pg F0 i hk => (k.shown pg F0 i hk).trans (h.shown pg F0 i hk), k.pwr.trans h.pwr, k.variant.trans h.variant⟩

theorem Afar.of (h : Afar z s) (e1 : t.regs = s.regs := by rfl) (e2 : t.pwr = s.pwr := by rfl) (e3 : t.variant = s.variant := by rfl) : Afar z t :=
  h.trans ⟨fun _ _ _ _ => State.rdi_congr (s := s) e1 e3 .., e2, e3⟩

theorem Afar.ite {c : Prop} [Decidable c] (h : Afar z s) (k : Afar z t) : Afar z (if c then s else t) := by
  split <;> assumption

theorem Afar.foldl {α : Type} {g : State → α → State} {l : List α} (h : Afar z s) (hg : ∀ x ∈ l, ∀ t, Afar z t → Afar z (g t x)) :
    Afar z (l.foldl g s) :=
  List.foldlRecOn (motive := fun t => Afar z t) l g h fun t ht x hx => hg x hx t ht

/-! ## Registers and events -/

theorem Afar.wriKey (h : Afar z s) {pg i : Nat} {F0 : Field} (v : Nat) (hk : thermKey (fkey pg F0 i) = false) : Afar z (s.wri pg F0 i v) :=
  h.trans ⟨fun _ _ _ hs => State.rdi_wri_ne _ _ fun heq => absurd (hs.symm.trans ((congrArg thermKey heq).trans hk)) (by decide), rfl, rfl⟩

theorem Afar.wri (h : Afar z s) {pg : Nat} (F0 : Field) (i v : Nat) (hpg : 0x1000 ≤ pg) : Afar z (s.wri pg F0 i v) := by
  refine h.wriKey v (decide_eq_false ?_)
  simp only [fkey]
  omega

theorem Afar.wr (h : Afar z s) {pg : Nat} (F0 : Field) (v : Nat) (hpg : 0x1000 ≤ pg) : Afar z (s.wr pg F0 v) := h.wri F0 0 v hpg

theorem thermKey_raw (pg : Nat) : thermKey (fkey pg F.EVT_RAW 0) = false := by
  refine decide_eq_false ?_
  simp only [fkey, F.EVT_RAW]
  omega

theorem Afar.raise (h : Afar z s) (pg bit : Nat) : Afar z (s.raise pg bit) :=
  h.trans ⟨fun _ _ _ hs => State.rdi_raise_ne _ fun heq => absurd (hs.symm.trans ((congrArg thermKey heq).trans (thermKey_raw pg))) (by decide),
    State.raise_pwr .., State.raise_variant ..⟩

theorem Afar.count (h : Afar z s) (pg off n : Nat) : Afar z (s.count pg off n) := h.of

theorem Afar.ctxEvent (h : Afar z s) (c bit st code q : Nat) : Afar z (s.ctxEvent c bit st code q) := by
  have hpg := pgCEV_hub c
  unfold State.ctxEvent
  exact .ite (((h.raise ..).raise ..).count ..)
    ((((((h.wri _ _ _ hpg).wri _ _ _ hpg).wri _ _ _ hpg).wri _ _ _ hpg).wri _ _ _ hpg).raise ..)

theorem Afar.segLost (h : Afar z s) (c code die floor vat item : Nat) : Afar z (s.segLost c code die floor vat item) := h.ctxEvent ..

theorem Afar.ctxStQ (h : Afar z s) (c bit st q : Nat) : Afar z (s.ctxStQ c bit st q) := (h.of (t := { s with freeIdx := s.freeIdx + 1 })).ctxEvent ..

theorem Afar.ctxNoteQ (h : Afar z s) (c bit q : Nat) : Afar z (s.ctxNoteQ c bit q) := (h.of (t := { s with freeIdx := s.freeIdx + 1 + 1 })).ctxEvent ..

theorem Afar.recount (h : Afar z s) : Afar z s.recount := by
  refine h.trans ⟨fun pg F0 i hk => recount_regs s pg F0 i fun hmem => ?_, by rw [(recount_quiet s).1], (recount_quiet s).variant⟩
  have hnone : ∀ k ∈ recountKeys, thermKey k = false := by decide
  exact absurd hk (by rw [hnone _ hmem]; decide)

/-! ## Links and jobs -/

theorem Aborts.afar (h : Aborts s t) : Afar s t := by
  refine ⟨fun pg F0 i hk => h.regs pg F0 i ?_, h.pwr, h.variant⟩
  simp only [thermKey, spared, decide_eq_true_eq] at *
  omega

theorem Afar.linkFell (h : Afar z s) (l : Nat) : Afar z (s.linkFell l) := by
  have hpg : 0x1000 ≤ pgKEG l := by
    simp only [pgKEG, pgDIE]
    omega
  have hroute {F0 : Field} (hF : F0.off + F0.stride * 64 < 0x1000 ∧ F0.lo < 32) {t : State} (ht : Afar z t) {m : Nat} (hm : m < 64) (v : Nat) :
      Afar z (t.wri pgCAB F0 m v) := by
    have hoff := lt_of_le_of_lt (Nat.add_le_add_left (Nat.mul_le_mul_left F0.stride hm.le) F0.off) hF.1
    refine ht.wriKey v (decide_eq_false ?_)
    simp only [fkey, pgCAB]
    omega
  unfold State.linkFell
  extract_lets pg lost s1 link1 s2 s3 s4
  refine .ite h ?_
  have h1 : Afar z s1 := ((((h.wr _ _ hpg).wr _ _ hpg).raise ..).count ..).wr _ _ hpg
  have h2 : Afar z s2 := h1.of
  have h3 : Afar z s3 := h2.foldl fun j _ t ht => ht.trans ((Aborts.refl t).abortJob j false false).afar
  have h4 : Afar z s4 := h3.foldl fun m hm t ht =>
    .ite (hroute (by decide) (hroute (by decide) ht (List.mem_range.mp hm) _) (List.mem_range.mp hm) _) ht
  exact h4.trans ((Aborts.refl s4).showJobs).afar

/-! ## Kernels of a vat end -/

variable {pg : Nat} (hpg : 0x1000 ≤ pg)

theorem Afar.spSend (h : Afar z s) (port c v : Nat) (op : SpOp) : Afar z (s.spSend port c v op) := by
  unfold State.spSend
  split
  · exact h.of
  · exact (h.ctxNoteQ ..).count ..

theorem Afar.setFloor (h : Afar z s) (q : Nat) (f : FloorSt) : Afar z (s.setFloor q f) := h.of
theorem Afar.dropOps (h : Afar z s) (p : CollOp → Bool) : Afar z (s.dropOps p) := h.of
theorem Afar.failStep (h : Afar z s) (id st code : Nat) : Afar z (s.failStep id st code) := h.of
theorem Afar.zeroStore (h : Afar z s) (q : Nat) : Afar z (s.zeroStore q) := h.of
theorem Afar.zeroSeg (h : Afar z s) (q g : Nat) : Afar z (s.zeroSeg q g) := h.of
theorem Afar.setVat (h : Afar z s) (q : Nat) (v : Vat) : Afar z (s.setVat q v) := h.of

include hpg

theorem Afar.showRun (h : Afar z s) : Afar z (s.showRun pg) := by
  unfold State.showRun
  split
  · exact (((h.wr _ _ hpg).wr _ _ hpg).wr _ _ hpg).wr _ _ hpg
  · exact ((h.wr _ _ hpg).wr _ _ hpg).wr _ _ hpg

theorem Afar.restore (h : Afar z s) : Afar z (s.restore pg) := by
  have hback (t : State) (n : Nat) (ht : Afar z t) (c : Prop) [Decidable c] : Afar z (if c then { t with ctrs := nput t.ctrs n (s.now - (s.vat pg).suspClk) } else t) :=
    .ite ht.of ht
  unfold State.restore
  dsimp only
  split
  · refine .ite h ?_
    split
    · exact Afar.spSend (hback _ _ (Afar.showRun hpg (Afar.wr (Afar.setVat h.of ..) _ _ hpg)) _) ..
    · exact hback _ _ (Afar.showRun hpg (Afar.wr (Afar.setVat h.of ..) _ _ hpg)) _
  · exact h

theorem Afar.endKernel (h : Afar z s) : Afar z (s.endKernel pg) := by
  unfold State.endKernel
  split
  · exact h
  · extract_lets v s1 s2
    have h1 : Afar z s1 := (h.count ..).setVat ..
    have h2 : Afar z s2 := by
      simp only [s2]
      split
      · exact h1.spSend ..
      · exact h1
    exact (h2.showRun hpg).restore hpg

theorem Afar.failVatSteps (h : Afar z s) : Afar z (s.failVatSteps pg) := by
  unfold State.failVatSteps
  extract_lets v ids s1 s2
  have h1 : Afar z s1 := h.foldl fun _ _ _ ht => ht.failStep ..
  have h2 : Afar z s2 := Afar.endKernel hpg (h1.setVat ..)
  exact (h2.wr _ _ hpg).wr _ _ hpg

/-! ## A floor and a die are retired (R8, R9, R551) -/

omit hpg in
theorem Afar.banksLost (h : Afar z s) (L : Nat) (banks : List Nat) : Afar z (s.banksLost pg L banks) :=
  h.foldl fun _ _ _ ht => .ite (ht.segLost ..) ht

theorem Afar.clearTags (h : Afar z s) : Afar z (s.clearTags pg) :=
  h.foldl fun _ _ _ ht => (((ht.wri _ _ _ hpg).wri _ _ _ hpg).wri _ _ _ hpg).wri _ _ _ hpg

theorem Afar.setSegTag (h : Afar z s) (g : Nat) (o : Option Nat) (pin : Bool) : Afar z (s.setSegTag pg g o pin) :=
  (((h.wri _ _ _ hpg).wri _ _ _ hpg).wri _ _ _ hpg).wri _ _ _ hpg

omit hpg

theorem Afar.markRetired (h : Afar z s) (q : Nat) : Afar z (s.markRetired q) := by
  unfold State.markRetired
  exact .ite h (Afar.count (Afar.raise h.of ..) ..)

theorem Afar.wake (h : Afar z s) (done : WaitOn → Bool) (st : Nat) : Afar z (s.wake done st) := by
  rw [wake_rest]
  exact h.of

theorem Afar.retireFloor (h : Afar z s) (die f : Nat) : Afar z (s.retireFloor die f) := by
  have hfloor := dieOf_floor die f
  unfold State.retireFloor
  extract_lets fp s1 s2 s3 s4
  refine .ite h ?_
  have h1 : Afar z s1 := h.foldl fun v _ t ht => by
    have hvat : 0x1000 ≤ fp + 1 + v := by omega
    exact Afar.clearTags hvat ((ht.failVatSteps hvat).banksLost ..)
  have h2 : Afar z s2 := h1.foldl fun g _ t ht => by
    refine Afar.zeroSeg (Afar.setSegTag hfloor ?_ ..) ..
    split
    · exact ht.segLost ..
    · exact ht
  have h3 : Afar z s3 := h2.foldl fun _ _ _ ht => ht.zeroStore _
  exact ((h3.setFloor ..).wake ..).markRetired _

theorem Afar.memLost (h : Afar z s) (p : Nat → Bool) : Afar z (s.memLost p) := by
  unfold State.memLost
  exact h.foldl fun _ _ _ ht => ht.ctxStQ ..

theorem Afar.retireDie (h : Afar z s) (n : Nat) : Afar z (s.retireDie n) := by
  have hkeg (l : Nat) : 0x1000 ≤ pgKEG l := by
    simp only [pgKEG, pgDIE]
    omega
  unfold State.retireDie
  refine .ite h ?_
  extract_lets s1 s2 s3 s4 hit s5 s6 s7 spl7 lp7 s8
  have h1 : Afar z s1 := h.foldl fun l _ _ ht => (ht.linkFell l).wr _ _ (hkeg l)
  have h2 : Afar z s2 := h1.foldl fun f _ _ ht => ht.retireFloor n f
  have h3 : Afar z s3 := h2.dropOps _
  have h4 : Afar z s4 := h3.trans ((Aborts.refl s3).abortJobs _ false).afar
  have h5 : Afar z s5 := h4.foldl fun _ _ _ ht => ht.failStep ..
  have h6 : Afar z s6 := h5.memLost _
  have h7 : Afar z s7 := h6.foldl fun _ _ _ ht => ht.wr _ _ (dieOf_group ..)
  clear_value s7
  have h8 : Afar z s8 := h7.of
  exact h8.markRetired _

end

end Sys2Proof
end

section
/-! PROOF. O57: the thermal loop, the trip, the coolant and the caps (R531–R534). -/

namespace Sys2Proof

set_option Elab.async false

open Machine

/-! ## What the sensors read (R531) -/

theorem hottestOf_le {js : List Int} {is : List Nat} {h : Int} (heq : hottestOf js is = some h) : h ≤ 150 := by
  have hall : ∀ (l : List Nat) (a : Option Int), (∀ i ∈ l, readingOf js i ≤ 150) → (∀ x, a = some x → x ≤ 150) →
      ∀ x, l.foldl (fun a i => match a with
        | some h => some (max h (readingOf js i))
        | none => some (readingOf js i)) a = some x → x ≤ 150 := by
    intro l
    induction l with
    | nil => exact fun a _ ha x hx => ha x hx
    | cons i l ih =>
      intro a hl ha x hx
      refine ih _ (fun j hj => hl j (List.mem_cons_of_mem _ hj)) (fun y hy => ?_) x hx
      have hi := hl i (List.mem_cons_self ..)
      cases a with
      | none =>
        cases hy
        exact hi
      | some b =>
        cases hy
        exact max_le (ha b rfl) hi
  refine hall _ none (fun i hi => ?_) (fun x hx => nomatch hx) h heq
  have hok := (List.mem_filter.mp hi).2
  simp only [sensorOk, decide_eq_true_eq] at hok
  exact hok.2

theorem sensorsOf_div {s : State} {n i : Nat} (hn : n < 5) (hi : i ∈ s.sensorsOf n) : i / 12 = n ∧ i < 56 := by
  rw [State.sensorsOf] at hi
  split at hi
  · next h4 =>
    obtain ⟨k, hk, rfl⟩ := List.mem_map.mp hi
    have hk := List.mem_range.mp hk
    omega
  · next h4 =>
    split at hi
    · obtain ⟨k, hk, rfl⟩ := List.mem_map.mp hi
      have hk := List.mem_range.mp hk
      omega
    · exact absurd hi List.not_mem_nil

/-- What sensor `i` reads, with the hottest working sensor of its die. -/
def junctionOf (js : List Int) (i : Nat) (h : Int) : Int := if sensorOk (readingOf js i) then readingOf js i else h + 10

theorem mem_junctions {s : State} {js : List Int} {i : Nat} {c : Int} (hmem : (i, c) ∈ s.junctions js) :
    ∃ h, hottestOf js (s.sensorsOf (i / 12)) = some h ∧ c = junctionOf js i h ∧ i < 56 := by
  rw [State.junctions, List.mem_flatMap] at hmem
  obtain ⟨n, hn, hx⟩ := hmem
  have hn := List.mem_range.mp hn
  cases heq : hottestOf js (s.sensorsOf n) with
  | none =>
    rw [heq] at hx
    exact absurd hx List.not_mem_nil
  | some h =>
    rw [heq] at hx
    obtain ⟨j, hj, hpair⟩ := List.mem_map.mp hx
    cases hpair
    obtain ⟨hdiv, hlt⟩ := sensorsOf_div hn hj
    exact ⟨h, by rw [hdiv, heq], rfl, hlt⟩

theorem junction_unique {s : State} {js : List Int} {i : Nat} {c d : Int} (hc : (i, c) ∈ s.junctions js) (hd : (i, d) ∈ s.junctions js) : d = c := by
  obtain ⟨h, hh, rfl, -⟩ := mem_junctions hc
  obtain ⟨k, hk, rfl, -⟩ := mem_junctions hd
  cases hh.symm.trans hk
  rfl

theorem junction_le {s : State} {js : List Int} {i : Nat} {c : Int} (hc : (i, c) ∈ s.junctions js) : c ≤ 160 ∧ i < 56 := by
  obtain ⟨h, hh, rfl, hlt⟩ := mem_junctions hc
  refine ⟨?_, hlt⟩
  have hle := hottestOf_le hh
  rw [junctionOf]
  split
  · next hok =>
    simp only [sensorOk, decide_eq_true_eq] at hok
    omega
  · omega

/-! ## Temperatures on the thermal page -/

section
variable {s : State} {fd : Field} {i : Nat} {r : Int}

theorem pwr_showTemp : (s.showTemp fd i r).pwr = s.pwr := by
  rw [State.showTemp]
  split <;> rfl

theorem rdi_showTemp_ne {pg j : Nat} {F0 : Field} (h : fkey pg F0 j ≠ fkey pgTHERMAL fd i) : (s.showTemp fd i r).rdi pg F0 j = s.rdi pg F0 j := by
  rw [State.showTemp]
  split
  · exact State.rdi_wri_ne _ _ h
  · exact (State.rdi_wri_ne _ _ h).trans rfl

theorem rdi_showTemp_self (h : 0 ≤ r) : (s.showTemp fd i r).rdi pgTHERMAL fd i = r.toNat % 2 ^ fd.width := by
  rw [State.showTemp, if_pos h]
  exact State.rdi_wri_self ..

end

/-- The readings of all sensors are shown. -/
def sensorsShown (s : State) (xs : List (Nat × Int)) : State := xs.foldl (fun t x => t.showTemp F.THM_SENSOR_C x.1 x.2) s

theorem pwr_sensorsShown (xs : List (Nat × Int)) (s : State) : (sensorsShown s xs).pwr = s.pwr :=
  List.foldlRecOn (motive := fun (t : State) => t.pwr = s.pwr) _ _ rfl fun _ ht _ _ => pwr_showTemp.trans ht

theorem rdi_sensorsShown_ne (xs : List (Nat × Int)) (s : State) {pg j : Nat} {F0 : Field} (h : ∀ x ∈ xs, fkey pg F0 j ≠ fkey pgTHERMAL F.THM_SENSOR_C x.1) :
    (sensorsShown s xs).rdi pg F0 j = s.rdi pg F0 j := rdi_foldl _ _ fun x hx _ => rdi_showTemp_ne (h x hx)

theorem sensorKey_ne {i j : Nat} (h : i ≠ j) : fkey pgTHERMAL F.THM_SENSOR_C i ≠ fkey pgTHERMAL F.THM_SENSOR_C j := by
  simp only [fkey, F.THM_SENSOR_C]
  omega

theorem rdi_sensorsShown (xs : List (Nat × Int)) (s : State) {i : Nat} {c : Int} (h0 : 0 ≤ c) (hc : c ≤ 160) (hone : ∀ d, (i, d) ∈ xs → d = c)
    (hmem : (i, c) ∈ xs ∨ s.rdi pgTHERMAL F.THM_SENSOR_C i = c.toNat) : (sensorsShown s xs).rdi pgTHERMAL F.THM_SENSOR_C i = c.toNat := by
  have hset (t : State) : (t.showTemp F.THM_SENSOR_C i c).rdi pgTHERMAL F.THM_SENSOR_C i = c.toNat := by
    refine (rdi_showTemp_self h0).trans (Nat.mod_eq_of_lt ?_)
    simp only [F.THM_SENSOR_C]
    omega
  induction xs generalizing s with
  | nil => exact hmem.resolve_left List.not_mem_nil
  | cons x xs ih =>
    refine ih _ (fun d hd => hone d (List.mem_cons_of_mem _ hd)) ?_
    obtain ⟨j, d⟩ := x
    by_cases hj : j = i
    · subst hj
      obtain rfl := hone d (List.mem_cons_self ..)
      exact .inr (hset s)
    · rcases hmem with hmem | hread
      · refine .inl ((List.mem_cons.mp hmem).resolve_left fun heq => hj ?_)
        cases heq
        rfl
      · exact .inr ((rdi_showTemp_ne (sensorKey_ne (Ne.symm hj))).trans hread)

/-! ## The thermal loop (R531) -/

/-- The loop's fraction follows the hottest junction. -/
def heated (s : State) (c : Int) : State :=
  let lim : Int := s.rd pgTHERMAL F.THM_THROTTLE_C
  let idle := s.rd pgTHERMAL F.THM_IDLE_64
  if lim ≤ c then
    (let t := (s.wr pgTHERMAL F.THM_IDLE_64 (min 63 (idle + 1))).wr pgTHERMAL F.THM_STATUS_THROTTLING 1
    if idle = 0 then t.raise pgTHERMAL 0 else t)
  else if c ≤ lim - 3 ∧ idle ≠ 0 then
    (let t := s.wr pgTHERMAL F.THM_IDLE_64 (idle - 1)
    if idle = 1 then (t.wr pgTHERMAL F.THM_STATUS_THROTTLING 0).raise pgTHERMAL 1 else t)
  else s

section
variable {s : State} {c : Int}

theorem heated_hot (h : (s.rd pgTHERMAL F.THM_THROTTLE_C : Int) ≤ c) :
    (heated s c).rd pgTHERMAL F.THM_IDLE_64 = min 63 (s.rd pgTHERMAL F.THM_IDLE_64 + 1) ∧ (heated s c).rd pgTHERMAL F.THM_STATUS_THROTTLING = 1 := by
  have hidle : ((s.wr pgTHERMAL F.THM_IDLE_64 (min 63 (s.rd pgTHERMAL F.THM_IDLE_64 + 1))).wr pgTHERMAL F.THM_STATUS_THROTTLING 1).rd pgTHERMAL F.THM_IDLE_64 =
      min 63 (s.rd pgTHERMAL F.THM_IDLE_64 + 1) := by
    rw [State.rd, State.rdi_wri_ne _ _ (by decide)]
    refine (State.rdi_wri_self ..).trans (Nat.mod_eq_of_lt ?_)
    exact lt_of_le_of_lt (Nat.min_le_left ..) (by decide)
  have hthrottling : ((s.wr pgTHERMAL F.THM_IDLE_64 (min 63 (s.rd pgTHERMAL F.THM_IDLE_64 + 1))).wr pgTHERMAL F.THM_STATUS_THROTTLING 1).rd pgTHERMAL
      F.THM_STATUS_THROTTLING = 1 := State.rdi_wri_self ..
  rw [heated]
  dsimp only
  rw [if_pos h]
  split
  · exact ⟨(State.rdi_raise_ne _ (by decide)).trans hidle, (State.rdi_raise_ne _ (by decide)).trans hthrottling⟩
  · exact ⟨hidle, hthrottling⟩

theorem heated_cool (h : c ≤ (s.rd pgTHERMAL F.THM_THROTTLE_C : Int) - 3) (hidle : s.rd pgTHERMAL F.THM_IDLE_64 ≤ 63) :
    (heated s c).rd pgTHERMAL F.THM_IDLE_64 = s.rd pgTHERMAL F.THM_IDLE_64 - 1 := by
  rw [heated]
  dsimp only
  rw [if_neg (by omega)]
  split
  · have hset : (s.wr pgTHERMAL F.THM_IDLE_64 (s.rd pgTHERMAL F.THM_IDLE_64 - 1)).rd pgTHERMAL F.THM_IDLE_64 = s.rd pgTHERMAL F.THM_IDLE_64 - 1 :=
      (State.rdi_wri_self ..).trans (Nat.mod_eq_of_lt (show s.rd pgTHERMAL F.THM_IDLE_64 - 1 < 2 ^ 6 by omega))
    split
    · exact (State.rdi_raise_ne _ (by decide)).trans ((State.rdi_wri_ne _ _ (by decide)).trans hset)
    · exact hset
  · next hstay =>
    have hzero : s.rd pgTHERMAL F.THM_IDLE_64 = 0 := by
      by_contra hne
      exact hstay ⟨h, hne⟩
    rw [hzero]

theorem heated_between (h1 : (s.rd pgTHERMAL F.THM_THROTTLE_C : Int) - 3 < c) (h2 : c < (s.rd pgTHERMAL F.THM_THROTTLE_C : Int)) : heated s c = s := by
  rw [heated]
  dsimp only
  rw [if_neg (by omega), if_neg (fun h => absurd h.1 (by omega))]

theorem heated_quiet : Quiet s (heated s c) := by
  rw [heated]
  dsimp only
  split
  · split
    · exact (((quiet_refl s).wri ..).wri ..).raise ..
    · exact ((quiet_refl s).wri ..).wri ..
  · split
    · split
      · exact (((quiet_refl s).wri ..).wri ..).raise ..
      · exact (quiet_refl s).wri ..
    · exact quiet_refl s

/-- The fields that the loop moves. -/
def heatKeys : List Nat := [fkey pgTHERMAL F.THM_IDLE_64 0, fkey pgTHERMAL F.THM_STATUS_THROTTLING 0, fkey pgTHERMAL F.EVT_RAW 0]

theorem heated_regs : RegsBut s (heated s c) heatKeys := by
  intro pg F0 i hk
  simp only [heatKeys, List.mem_cons, List.not_mem_nil, or_false, not_or] at hk
  obtain ⟨hidle, hthrottling, hraw⟩ := hk
  rw [heated]
  dsimp only
  split
  · split
    · rw [State.rdi_raise_ne _ hraw, State.rdi_wri_ne _ _ hthrottling, State.rdi_wri_ne _ _ hidle]
    · rw [State.rdi_wri_ne _ _ hthrottling, State.rdi_wri_ne _ _ hidle]
  · split
    · split
      · rw [State.rdi_raise_ne _ hraw, State.rdi_wri_ne _ _ hthrottling, State.rdi_wri_ne _ _ hidle]
      · rw [State.rdi_wri_ne _ _ hidle]
    · rfl

end

/-- An idle clock has fallen on class 0, or not: counted. -/
def heatIdled (s : State) (i : Nat) : State :=
  let now := s.rd pgTHERMAL F.THM_IDLE_64
  if now = 0 then s
  else
    let s2 := s.count pgTHERMAL 0x04C 1
    if s2.c0Runs (throttles i now) then s2.c0Idled else s2

theorem thermalStep_eq (s : State) (i : Nat) (c : Int) : s.thermalStep i c = heatIdled (heated s c) i := rfl

theorem heatIdled_quiet (s : State) (i : Nat) : Quiet s (heatIdled s i) := by
  rw [heatIdled]
  dsimp only
  split
  · exact quiet_refl s
  · split
    · exact quiet_c0Idled ((quiet_refl s).count ..)
    · exact (quiet_refl s).count ..

theorem rdi_heatIdled (s : State) (n : Nat) {F0 : Field} (i : Nat) (hF : 0x820 * 131072 ≤ fkey pgTHERMAL F0 i := by simp only [fkey, pgTHERMAL]; omega) :
    (heatIdled s n).rdi pgTHERMAL F0 i = s.rdi pgTHERMAL F0 i := by
  have hne (F1 : Field) (hF1 : F1.off < 0x1000 ∧ F1.lo < 32) : fkey pgTHERMAL F0 i ≠ fkey pgPOWER F1 0 := by
    simp only [fkey, pgTHERMAL, pgPOWER] at *
    omega
  rw [heatIdled]
  dsimp only
  split
  · rfl
  · split
    · rw [rdi_c0Idled_ne _ (hne _ (by decide)) (hne _ (by decide)) (hne _ (by decide))]
      rfl
    · rfl

/-! ## THERMAL_SAMPLE (R531) -/

/-- The sample's verdicts on the sensors. -/
def judgedPwr (s : State) (js : List Int) : PwrSt :=
  let xs := s.junctions js
  let bad := (List.range 5).flatMap fun n => (s.sensorsOf n).filter fun i => !sensorOk (readingOf js i)
  let hot := (xs.filter fun x => decide (115 ≤ x.2)).map (·.1)
  { s.pwr with failing := bad, hot := hot, cool := xs.all (fun x => decide (x.2 ≤ 95)), tripDue := s.pwr.tripDue || hot.any fun i => s.pwr.hot.contains i }

/-- Sensors that fail anew are told. -/
def failuresTold (s : State) (js : List Int) : State :=
  let bad := (List.range 5).flatMap fun n => (s.sensorsOf n).filter fun i => !sensorOk (readingOf js i)
  let fresh := bad.filter fun i => !s.pwr.failing.contains i
  let s1 := { s with pwr := judgedPwr s js }
  if fresh.isEmpty then s1 else (s1.raise pgTHERMAL 5).count pgTHERMAL 0x058 fresh.length

/-- The hottest junction is shown. -/
def hottestShown (s : State) (i : Nat) (c : Int) : State :=
  ((s.showTemp F.THM_HOT_C 0 c).wr pgTHERMAL F.THM_HOT_SENSOR (hotSensor i)).highest pgTHERMAL 0x050 c.toNat

/-- The loop moves for the hottest junction, if there is one. -/
def looped (s : State) (x : Option (Nat × Int)) : State := match x with
  | none => s
  | some (i, c) => if (hottestShown s i c).pwr.mainOff then hottestShown s i c else (hottestShown s i c).thermalStep i c

/-- Dies without a working sensor are retired. -/
def deadRetired (s : State) (dead : List Nat) : State := if s.pwr.mainOff then s else dead.foldl (fun t n => (t.retireDie n).recount) s

section
variable {s : State} {js : List Int} {inlet outlet : Int}

theorem exec_thermalSample (hstandby : s.pwr.standbyOff = false) : ∃ dead, exec (.thermalSample js inlet outlet) s =
    .next (deadRetired ((looped (sensorsShown (failuresTold s js) (s.junctions js)) (hottest (s.junctions js))).coolant inlet outlet) dead) := by
  refine ⟨(List.range 4).filter fun n => s.hasUnit (pgDIE n) && (hottestOf js (s.sensorsOf n)).isNone, ?_⟩
  change execThermalSample js inlet outlet s = _
  rw [execThermalSample, hstandby, if_neg Bool.false_ne_true]
  rfl

theorem deadRetired_afar (s : State) (dead : List Nat) : Afar s (deadRetired s dead) :=
  .ite (.refl s) ((Afar.refl s).foldl fun n _ _ ht => (ht.retireDie n).recount)

theorem failuresTold_spec (s : State) (js : List Int) : (failuresTold s js).pwr = judgedPwr s js ∧
    ∀ {pg i : Nat} {F0 : Field}, fkey pg F0 i ≠ fkey pgTHERMAL F.EVT_RAW 0 → (failuresTold s js).rdi pg F0 i = s.rdi pg F0 i := by
  rw [failuresTold]
  split
  · exact ⟨rfl, fun _ => rfl⟩
  · exact ⟨by rw [State.count_pwr, State.raise_pwr], fun h => (State.rdi_raise_ne _ h).trans rfl⟩

theorem hottestShown_spec (s : State) (i : Nat) (c : Int) : (hottestShown s i c).pwr = s.pwr ∧ ∀ {pg j : Nat} {F0 : Field},
    fkey pg F0 j ≠ fkey pgTHERMAL F.THM_HOT_C 0 → fkey pg F0 j ≠ fkey pgTHERMAL F.THM_HOT_SENSOR 0 → (hottestShown s i c).rdi pg F0 j = s.rdi pg F0 j := by
  rw [hottestShown, highest_eq]
  refine ⟨pwr_showTemp, fun h1 h2 => ?_⟩
  exact (State.rdi_wri_ne _ _ h2).trans (rdi_showTemp_ne h1)

theorem sensorKey_off {F0 : Field} (h : F0.off < 0x200 ∧ F0.lo < 32) (i : Nat) : fkey pgTHERMAL F0 0 ≠ fkey pgTHERMAL F.THM_SENSOR_C i := by
  simp only [fkey, F.THM_SENSOR_C]
  omega

/-- The loop leaves what the sensors show, and the power domain. -/
theorem looped_spec (s : State) (x : Option (Nat × Int)) : (looped s x).pwr = s.pwr ∧
    ∀ i, (looped s x).rdi pgTHERMAL F.THM_SENSOR_C i = s.rdi pgTHERMAL F.THM_SENSOR_C i := by
  cases x with
  | none => exact ⟨rfl, fun _ => rfl⟩
  | some x =>
    obtain ⟨n, c⟩ := x
    obtain ⟨hpwr, hregs⟩ := hottestShown_spec s n c
    have hsensor (i : Nat) : (hottestShown s n c).rdi pgTHERMAL F.THM_SENSOR_C i = s.rdi pgTHERMAL F.THM_SENSOR_C i :=
      hregs (sensorKey_off (by decide) i).symm (sensorKey_off (by decide) i).symm
    rw [looped]
    generalize hottestShown s n c = u at *
    split
    · exact ⟨hpwr, hsensor⟩
    · rw [thermalStep_eq]
      refine ⟨?_, fun i => ?_⟩
      · rw [(heatIdled_quiet _ n).1, heated_quiet.1]
        exact hpwr
      · rw [rdi_heatIdled _ n i, heated_regs _ _ _ fun hk => ?_, hsensor]
        simp only [heatKeys, List.mem_cons, List.not_mem_nil, or_false] at hk
        rcases hk with hk | hk | hk
        · exact sensorKey_off (by decide) i hk.symm
        · exact sensorKey_off (by decide) i hk.symm
        · exact sensorKey_off (by decide) i hk.symm

/-- The coolant's readings are shown and judged. -/
theorem coolant_spec (s : State) (inlet outlet : Int) : (s.coolant inlet outlet).pwr.tripDue = s.pwr.tripDue ∧
    (s.coolant inlet outlet).rd pgTHERMAL F.THM_STATUS_COOLANT_OK = (if 15 ≤ inlet ∧ inlet ≤ 45 then 1 else 0) ∧
    ∀ {i : Nat} {F0 : Field}, fkey pgTHERMAL F0 i ≠ fkey pgTHERMAL F.THM_STATUS_COOLANT_OK 0 → fkey pgTHERMAL F0 i ≠ fkey pgTHERMAL F.THM_INLET_C 0 →
      fkey pgTHERMAL F0 i ≠ fkey pgTHERMAL F.THM_OUTLET_C 0 → fkey pgTHERMAL F0 i ≠ fkey pgPOWER F.PWR_STATUS_C0_OK 0 →
      (s.coolant inlet outlet).rdi pgTHERMAL F0 i = s.rdi pgTHERMAL F0 i := by
  rw [State.coolant, highest_eq]
  refine ⟨?_, ?_, fun hok hinlet houtlet hc0 => ?_⟩
  · rw [(showC0_regs _).pwr, pwr_showTemp, pwr_showTemp]
    rfl
  · rw [State.rd, rdi_showC0_ne _ (by decide), rdi_showTemp_ne (by decide), rdi_showTemp_ne (by decide)]
    refine (State.rdi_wri_self ..).trans ?_
    by_cases h : 15 ≤ inlet ∧ inlet ≤ 45
    · rw [decide_eq_true h, if_pos h]
      rfl
    · rw [decide_eq_false h, if_neg h]
      rfl
  · rw [rdi_showC0_ne _ hc0, rdi_showTemp_ne houtlet, rdi_showTemp_ne hinlet]
    exact (State.rdi_wri_ne _ _ hok).trans rfl

theorem heat_far {F0 : Field} {i : Nat} (h : 0x21 ≤ F0.off ∧ F0.off + F0.stride * i < 0x1000 ∧ F0.lo < 32) : thermKey (fkey pgTHERMAL F0 i) = true := by
  refine decide_eq_true ?_
  simp only [fkey, pgTHERMAL]
  omega

theorem thermalSample_senses (hstandby : s.pwr.standbyOff = false) : ∃ t, exec (.thermalSample js inlet outlet) s = .next t ∧
    (∀ i c, (i, c) ∈ s.junctions js → 0 ≤ c → t.rdi pgTHERMAL F.THM_SENSOR_C i = c.toNat) ∧
    t.rd pgTHERMAL F.THM_STATUS_COOLANT_OK = (if 15 ≤ inlet ∧ inlet ≤ 45 then 1 else 0) ∧
    (∀ i c, (i, c) ∈ s.junctions js → 115 ≤ c → i ∈ s.pwr.hot → t.pwr.tripDue = true) ∧
    ∀ i c, hottest (s.junctions js) = some (i, c) → s.pwr.mainOff = false → s.rd pgTHERMAL F.THM_IDLE_64 ≤ 63 →
      ((s.rd pgTHERMAL F.THM_THROTTLE_C : Int) ≤ c →
        t.rd pgTHERMAL F.THM_IDLE_64 = min 63 (s.rd pgTHERMAL F.THM_IDLE_64 + 1) ∧ t.rd pgTHERMAL F.THM_STATUS_THROTTLING = 1) ∧
      (c ≤ (s.rd pgTHERMAL F.THM_THROTTLE_C : Int) - 3 → t.rd pgTHERMAL F.THM_IDLE_64 = s.rd pgTHERMAL F.THM_IDLE_64 - 1) ∧
      ((s.rd pgTHERMAL F.THM_THROTTLE_C : Int) - 3 < c → c < (s.rd pgTHERMAL F.THM_THROTTLE_C : Int) →
        t.rd pgTHERMAL F.THM_IDLE_64 = s.rd pgTHERMAL F.THM_IDLE_64) := by
  obtain ⟨dead, hexec⟩ := exec_thermalSample (js := js) (inlet := inlet) (outlet := outlet) hstandby
  obtain ⟨hpwr, hregs⟩ := failuresTold_spec s js
  rw [hexec]
  generalize failuresTold s js = u at *
  have hshown {i : Nat} {c : Int} (hmem : (i, c) ∈ s.junctions js) (h0 : 0 ≤ c) : (sensorsShown u (s.junctions js)).rdi pgTHERMAL F.THM_SENSOR_C i = c.toNat :=
    rdi_sensorsShown _ u h0 (junction_le hmem).1 (fun d hd => junction_unique hmem hd) (.inl hmem)
  have hpwr' := pwr_sensorsShown (s.junctions js) u
  have hregs' {F0 : Field} (hF : F0.off < 0x200 ∧ F0.lo < 32) : (sensorsShown u (s.junctions js)).rdi pgTHERMAL F0 0 = u.rdi pgTHERMAL F0 0 :=
    rdi_sensorsShown_ne _ _ fun x _ => sensorKey_off hF x.1
  generalize sensorsShown u (s.junctions js) = v at *
  have hloop {i : Nat} {c : Int} (hx : hottest (s.junctions js) = some (i, c)) (hmain : v.pwr.mainOff = false) :
      looped v (hottest (s.junctions js)) = heatIdled (heated (hottestShown v i c) c) i := by
    rw [hx, looped, (hottestShown_spec v i c).1, hmain, if_neg Bool.false_ne_true, thermalStep_eq]
  obtain ⟨hpwr2, hsensor2⟩ := looped_spec v (hottest (s.junctions js))
  generalize looped v (hottest (s.junctions js)) = w at *
  obtain ⟨htrip, hok, hcool⟩ := coolant_spec w inlet outlet
  generalize w.coolant inlet outlet = y at *
  have hfar := deadRetired_afar y dead
  generalize deadRetired y dead = t at *
  have hread {F0 : Field} (hF : 0x21 ≤ F0.off ∧ F0.off + F0.stride * 0 < 0x1000 ∧ F0.lo < 32) : t.rd pgTHERMAL F0 = y.rd pgTHERMAL F0 :=
    hfar.shown _ _ _ (heat_far hF)
  refine ⟨t, rfl, fun i c hmem h0 => ?_, (hread (by decide)).trans hok, fun i c hmem hhot hwas => ?_, fun i c hx hmain hidle => ?_⟩
  · have hi := (junction_le hmem).2
    have hkey : 0x21 ≤ F.THM_SENSOR_C.off ∧ F.THM_SENSOR_C.off + F.THM_SENSOR_C.stride * i < 0x1000 ∧ F.THM_SENSOR_C.lo < 32 := by
      simp only [F.THM_SENSOR_C]
      omega
    have hpower : fkey pgTHERMAL F.THM_SENSOR_C i ≠ fkey pgPOWER F.PWR_STATUS_C0_OK 0 := by
      simp only [fkey, F.THM_SENSOR_C, F.PWR_STATUS_C0_OK, pgTHERMAL, pgPOWER]
      omega
    rw [hfar.shown _ _ _ (heat_far hkey), hcool (sensorKey_off (by decide) i).symm (sensorKey_off (by decide) i).symm (sensorKey_off (by decide) i).symm hpower,
      hsensor2, hshown hmem h0]
  · rw [hfar.pwr, htrip, hpwr2, hpwr', hpwr, judgedPwr]
    refine Bool.or_eq_true_iff.mpr (.inr (List.any_eq_true.mpr ⟨i, List.mem_map.mpr ⟨(i, c), List.mem_filter.mpr ⟨hmem, decide_eq_true hhot⟩, rfl⟩, ?_⟩))
    exact List.contains_iff_mem.mpr hwas
  · have hmain' : v.pwr.mainOff = false := by
      rw [hpwr', hpwr]
      exact hmain
    have hw := hloop hx hmain'
    obtain ⟨-, hregs3⟩ := hottestShown_spec v i c
    have hlim : (hottestShown v i c).rd pgTHERMAL F.THM_THROTTLE_C = s.rd pgTHERMAL F.THM_THROTTLE_C :=
      (hregs3 (by decide) (by decide)).trans ((hregs' (by decide)).trans (hregs (by decide)))
    have hidle' : (hottestShown v i c).rd pgTHERMAL F.THM_IDLE_64 = s.rd pgTHERMAL F.THM_IDLE_64 :=
      (hregs3 (by decide) (by decide)).trans ((hregs' (by decide)).trans (hregs (by decide)))
    generalize hottestShown v i c = x at *
    have hend {F0 : Field} (hF : 0x21 ≤ F0.off ∧ F0.off + F0.stride * 0 < 0x1000 ∧ F0.lo < 32)
        (h1 : fkey pgTHERMAL F0 0 ≠ fkey pgTHERMAL F.THM_STATUS_COOLANT_OK 0) (h2 : fkey pgTHERMAL F0 0 ≠ fkey pgTHERMAL F.THM_INLET_C 0)
        (h3 : fkey pgTHERMAL F0 0 ≠ fkey pgTHERMAL F.THM_OUTLET_C 0) (h4 : fkey pgTHERMAL F0 0 ≠ fkey pgPOWER F.PWR_STATUS_C0_OK 0) :
        t.rd pgTHERMAL F0 = (heated x c).rd pgTHERMAL F0 := by
      rw [hread hF, State.rd, hcool h1 h2 h3 h4, hw, rdi_heatIdled]
    rw [hend (by decide) (by decide) (by decide) (by decide) (by decide), hend (by decide) (by decide) (by decide) (by decide) (by decide), ← hlim, ← hidle']
    rw [← hidle'] at hidle
    exact ⟨fun h => heated_hot h, fun h => heated_cool h hidle, fun h1 h2 => by rw [heated_between h1 h2]⟩

end

/-! ## The trip (R532) -/

theorem thermalTrip_trips {s : State} (hdue : s.pwr.tripDue = true) (hmain : s.pwr.mainOff = false) : ∃ t, exec .thermalTrip s = .next t ∧
    t.pwr.mainOff = true ∧ t.pwr.off = 4 ∧ t.pwr.tripped = true ∧ t.pwr.tripDue = false ∧ t.lp.keys = [] ∧ t.keg.jobs = [] ∧
    t.fw.bootLog = 3 :: s.fw.bootLog := by
  have hexec : exec .thermalTrip s = .next
      { ({ s.destroyAllKeys.silence with fw := { s.destroyAllKeys.silence.fw with bootLog := 3 :: s.destroyAllKeys.silence.fw.bootLog } } : State).dropLink.mainOffNow 4 with
        pwr := { (({ s.destroyAllKeys.silence with fw := { s.destroyAllKeys.silence.fw with bootLog := 3 :: s.destroyAllKeys.silence.fw.bootLog } } :
          State).dropLink.mainOffNow 4).pwr with tripDue := false, tripped := true, lastTrip := true } } := by
    change execThermalTrip s = _
    rw [execThermalTrip, if_neg (by rw [hdue, hmain]; decide)]
  have hfw := (silence_destroyed s).1.fw
  rw [hexec]
  generalize s.destroyAllKeys.silence = u at *
  have hlog : ({ u with fw := { u.fw with bootLog := 3 :: u.fw.bootLog } } : State).dropLink.fw.bootLog = 3 :: s.fw.bootLog := by
    rw [(quiet_dropLink _).1, hfw]
  generalize ({ u with fw := { u.fw with bootLog := 3 :: u.fw.bootLog } } : State).dropLink = v at *
  obtain ⟨-, -, -, hkeys, hjobs, hpwr, hboot⟩ := mainOffNow_spec v 4
  generalize v.mainOffNow 4 = w at *
  refine ⟨_, rfl, ?_, ?_, rfl, rfl, hkeys, hjobs, hboot.trans hlog⟩
  · rw [hpwr]
  · rw [hpwr]

/-! ## The coolant alarm, the alert contact and the orphan cap (R533, R534) -/

section
variable {s : State}

theorem pwrRaised_spec (p : PwrSt) (pg bit : Nat) (hbit : bit < 32) : ({ s with pwr := p }.raise pg bit).pwr = p ∧
    Raised ({ s with pwr := p }.raise pg bit) pg bit ∧ SameBytes s ({ s with pwr := p }.raise pg bit) := by
  have hbytes : SameBytes s { s with pwr := p } := .of_eq
  exact ⟨State.raise_pwr .., raised_raise _ _ _ hbit, hbytes.trans ((quiet_refl _).raise pg bit).sameBytes⟩

theorem coolantAlarm_warm {c : Nat} (hc : c + clkS ≤ s.now) (hwarm : s.pwr.warmClk = some c) (htold : s.pwr.warmTold = false) :
    ∃ t, exec .coolantAlarm s = .next t ∧ t.pwr = { s.pwr with warmTold := true } ∧ Raised t pgTHERMAL 2 ∧ SameBytes s t := by
  refine ⟨_, ?_, pwrRaised_spec { s.pwr with warmTold := true } pgTHERMAL 2 (by decide)⟩
  change execCoolantAlarm s = _
  rw [execCoolantAlarm, hwarm, htold, heldFor_some hc, if_pos (by decide)]

theorem coolantAlarm_cold {c : Nat} (hc : c + clkS ≤ s.now) (hcold : s.pwr.coldClk = some c) (htold : s.pwr.coldTold = false) (hwarm : s.pwr.warmClk = none) :
    ∃ t, exec .coolantAlarm s = .next t ∧ t.pwr = { s.pwr with coldTold := true } ∧ Raised t pgTHERMAL 3 ∧ SameBytes s t := by
  refine ⟨_, ?_, pwrRaised_spec { s.pwr with coldTold := true } pgTHERMAL 3 (by decide)⟩
  have hnone (n now : Nat) : heldFor none n now = false := rfl
  change execCoolantAlarm s = _
  rw [execCoolantAlarm, hwarm, hnone, Bool.false_and, if_neg Bool.false_ne_true, hcold, htold, heldFor_some hc, if_pos (by decide)]

theorem showCeiling_shows (s : State) : s.showCeiling.rd pgPOWER F.PWR_CEILING_W = s.showCeiling.ceiling % 2 ^ 10 := by
  have hceiling : s.showCeiling.ceiling = s.ceiling := by
    simp only [State.ceiling, State.rd, State.on, rdi_showCeiling_ne s (show fkey pgPOWER F.PWR_CAP_W 0 ≠ _ by decide),
      rdi_showCeiling_ne s (show fkey pgPOWER F.PWR_STATUS_ORPHAN 0 ≠ _ by decide), rdi_showCeiling_ne s (show fkey pgPOWER F.PWR_ORPHAN_CAP_W 0 ≠ _ by decide),
      rdi_showCeiling_ne s (show fkey pgPOWER F.PWR_STATUS_ALERT_CAP 0 ≠ _ by decide), rdi_showCeiling_ne s (show fkey pgPOWER F.PWR_ALERT_CAP_W 0 ≠ _ by decide),
      rdi_showCeiling_ne s (show fkey pgPOWER F.PWR_STATUS_SHED 0 ≠ _ by decide), rdi_showCeiling_ne s (show fkey pgPOWER F.PWR_SHED_W 0 ≠ _ by decide)]
  rw [hceiling]
  exact State.rdi_wri_self ..

/-- The alert contact is low. -/
def alerted (s : State) : State := ((s.wr pgTHERMAL F.THM_STATUS_ALERT_IN 1).wr pgPOWER F.PWR_STATUS_ALERT_CAP 1).raise pgTHERMAL 4

theorem thermAlertLow_caps (hstandby : s.pwr.standbyOff = false) (halert : s.on pgTHERMAL F.THM_STATUS_ALERT_IN = false) :
    ∃ t, exec .thermAlertLow s = .next t ∧ t.rd pgTHERMAL F.THM_STATUS_ALERT_IN = 1 ∧ t.rd pgPOWER F.PWR_STATUS_ALERT_CAP = 1 ∧ Raised t pgTHERMAL 4 ∧
      t.rd pgPOWER F.PWR_CEILING_W = t.ceiling % 2 ^ 10 ∧ SameBytes s t := by
  have hexec : exec .thermAlertLow s = .next (alerted s).showCeiling := by
    change execThermAlertLow s = _
    rw [execThermAlertLow, hstandby, halert, if_neg (by decide), alerted]
  refine ⟨_, hexec, ?_, ?_, ?_, showCeiling_shows _, ?_⟩
  · rw [State.rd, rdi_showCeiling_ne _ (by decide), alerted, State.rdi_raise_ne _ (by decide), State.rdi_wri_ne _ _ (by decide)]
    exact State.rdi_wri_self ..
  · rw [State.rd, rdi_showCeiling_ne _ (by decide), alerted, State.rdi_raise_ne _ (by decide)]
    exact State.rdi_wri_self ..
  · exact raised_wri (by decide) (raised_raise _ _ _ (by decide))
  · exact (Quiet.sameBytes ((((quiet_refl s).wri ..).wri ..).raise ..)).trans (showCeiling_regs _).sameBytes

theorem thermAlertClear_lifts (hstandby : s.pwr.standbyOff = false) : ∃ t, exec .thermAlertClear s = .next t ∧
    t.rd pgTHERMAL F.THM_STATUS_ALERT_IN = 0 ∧ t.rd pgPOWER F.PWR_STATUS_ALERT_CAP = 0 ∧ t.rd pgPOWER F.PWR_CEILING_W = t.ceiling % 2 ^ 10 ∧
    RegsBut s t [fkey pgTHERMAL F.THM_STATUS_ALERT_IN 0, fkey pgPOWER F.PWR_STATUS_ALERT_CAP 0, fkey pgPOWER F.PWR_CEILING_W 0] ∧ SameBytes s t := by
  have hexec : exec .thermAlertClear s = .next ((s.wr pgTHERMAL F.THM_STATUS_ALERT_IN 0).wr pgPOWER F.PWR_STATUS_ALERT_CAP 0).showCeiling := by
    change execThermAlertClear s = _
    rw [execThermAlertClear, hstandby, if_neg Bool.false_ne_true]
  refine ⟨_, hexec, ?_, ?_, showCeiling_shows _, RegsBut.wr (RegsBut.wr (RegsBut.wr (regsBut_refl s) _ _ _) _ _ _) _ _ _, ?_⟩
  · rw [State.rd, rdi_showCeiling_ne _ (by decide), State.rdi_wri_ne _ _ (by decide)]
    exact State.rdi_wri_self ..
  · rw [State.rd, rdi_showCeiling_ne _ (by decide)]
    exact State.rdi_wri_self ..
  · exact RegsOnly.sameBytes ((((regsOnly_refl s).wr ..).wr ..).trans (showCeiling_regs _))

/-- The module is an orphan, and tells it. -/
def orphaned (s : State) : State := ((s.wr pgPOWER F.PWR_STATUS_ORPHAN 1).raise pgMGMT 0).raise pgPOWER 4

theorem orphanTimeout_caps (hstandby : s.pwr.standbyOff = false) (hready : s.ready = true) (hreq : s.on pgMGMT F.MGMT_HB_REQUIRED = true)
    (horphan : s.on pgPOWER F.PWR_STATUS_ORPHAN = false) (hlate : s.pwr.hbClk + s.rd pgMGMT F.MGMT_HB_LIMIT_S * clkS ≤ s.now) :
    ∃ t, exec .orphanTimeout s = .next t ∧ t.rd pgPOWER F.PWR_STATUS_ORPHAN = 1 ∧ Raised t pgMGMT 0 ∧ Raised t pgPOWER 4 ∧
      t.rd pgPOWER F.PWR_CEILING_W = t.ceiling % 2 ^ 10 ∧ SameBytes s t := by
  have hexec : exec .orphanTimeout s = .next (orphaned s).showCeiling := by
    change execOrphanTimeout s = _
    rw [execOrphanTimeout, hstandby, hready, hreq, horphan, decide_eq_false (Nat.not_lt.mpr hlate), if_neg (by decide), orphaned]
  refine ⟨_, hexec, ?_, ?_, ?_, showCeiling_shows _, ?_⟩
  · rw [State.rd, rdi_showCeiling_ne _ (by decide), orphaned, State.rdi_raise_ne _ (by decide), State.rdi_raise_ne _ (by decide)]
    exact State.rdi_wri_self ..
  · exact raised_wri (by decide) (raised_mono _ _ (by decide) (raised_raise _ _ _ (by decide)))
  · exact raised_wri (by decide) (raised_raise _ _ _ (by decide))
  · exact (Quiet.sameBytes ((((quiet_refl s).wri ..).raise ..).raise ..)).trans (showCeiling_regs _).sameBytes

end

/-- Settles O57: a sample shows its sensors, moves the loop by the hottest one and judges the coolant, each on fields of its own, which the retirement of a
die without a sensor leaves; the trip is the loss of the supply after the keys are destroyed. -/
theorem heatAndCaps : Obligations.HeatAndCaps := by
  unfold Obligations.HeatAndCaps
  exact ⟨fun js inlet outlet s hstandby => thermalSample_senses hstandby, fun s hdue hmain => thermalTrip_trips hdue hmain,
    fun s c hc => ⟨fun hwarm htold => coolantAlarm_warm hc hwarm htold, fun hcold htold hwarm => coolantAlarm_cold hc hcold htold hwarm⟩,
    fun s hstandby => ⟨fun halert => thermAlertLow_caps hstandby halert, thermAlertClear_lifts hstandby⟩,
    fun s hstandby hready hreq horphan hlate => orphanTimeout_caps hstandby hready hreq horphan hlate⟩

end Sys2Proof
end

section
/-! SUPPORT. The mailbox (R444): a command that completes, and what its completion leaves alone. -/

namespace Sys2Proof

set_option Elab.async false

open Machine

theorem mailbox_open {s : State} (h : MailOpen s) (body : State → State) : s.mailbox body = body s := by
  obtain ⟨hready, hbusy, hpaused, hloading, hlink⟩ := h
  rw [State.mailbox, hready, hbusy, hpaused, hloading, hlink]
  exact if_neg (by decide)

/-- The status, detail and length of the response show. -/
def mbxShown (s : State) (status detail : Nat) (resp : List Nat) : State :=
  ((((({ s with freeIdx := s.freeIdx + 1, gau := { s.gau with resp := resp } } : State).wr pgGAU F.MBX_STAT_BUSY 0).wr pgGAU F.MBX_STAT_DONE 1).wr pgGAU
    F.MBX_STAT_STATUS status).wr pgGAU F.MBX_STAT_DETAIL detail).wr pgGAU F.MBX_RESP_LEN (s.fresh 21).2

/-- The completion is counted and told. -/
def mbxTold (s : State) (status detail : Nat) (resp : List Nat) : State := ((mbxShown s status detail resp).count pgGAU 0x04C 1).raise pgGAU 0

theorem mbxDone_eq (s : State) (status detail : Nat) (resp : List Nat) : s.mbxDone status detail resp =
    if status = stDENIED then (mbxTold s status detail resp).count pgGAU 0x050 1 else mbxTold s status detail resp := rfl

section
variable {s : State} {status detail : Nat} {resp : List Nat}

/-- Only the response, the mailbox's registers, events and counters move. -/
theorem mbxDone_quiet : Quiet { s with freeIdx := s.freeIdx + 1, gau := { s.gau with resp := resp } } (s.mbxDone status detail resp) := by
  have htold : Quiet { s with freeIdx := s.freeIdx + 1, gau := { s.gau with resp := resp } } (mbxTold s status detail resp) :=
    ((((((quiet_refl _).wri ..).wri ..).wri ..).wri ..).wri ..).count .. |>.raise ..
  rw [mbxDone_eq]
  split
  · exact htold.count ..
  · exact htold

theorem mbxDone_fw : (s.mbxDone status detail resp).fw = s.fw := by rw [mbxDone_quiet.1]
theorem mbxDone_gau : (s.mbxDone status detail resp).gau = { s.gau with resp := resp } := by rw [mbxDone_quiet.1]
theorem mbxDone_casks : (s.mbxDone status detail resp).casks = s.casks := by rw [mbxDone_quiet.1]

theorem mbxDone_bytes : SameBytes s (s.mbxDone status detail resp) := by
  have hbytes : SameBytes s { s with freeIdx := s.freeIdx + 1, gau := { s.gau with resp := resp } } := .of_eq
  exact hbytes.trans mbxDone_quiet.sameBytes

/-- The keys of the mailbox's own registers and of the Gauger's events. -/
def mbxKeys : List Nat :=
  [fkey pgGAU F.MBX_STAT_BUSY 0, fkey pgGAU F.MBX_STAT_DONE 0, fkey pgGAU F.MBX_STAT_STATUS 0, fkey pgGAU F.MBX_STAT_DETAIL 0, fkey pgGAU F.MBX_RESP_LEN 0,
    fkey pgGAU F.EVT_RAW 0]

theorem mbxDone_regs : RegsBut s (s.mbxDone status detail resp) mbxKeys := by
  intro pg F0 i hk
  simp only [mbxKeys, List.mem_cons, List.not_mem_nil, or_false, not_or] at hk
  obtain ⟨hbusy, hdone, hstatus, hdetail, hlen, hraw⟩ := hk
  have htold : (mbxTold s status detail resp).rdi pg F0 i = s.rdi pg F0 i := by
    rw [mbxTold, State.rdi_raise_ne _ hraw, State.rdi_count, mbxShown, State.rdi_wri_ne _ _ hlen, State.rdi_wri_ne _ _ hdetail, State.rdi_wri_ne _ _ hstatus,
      State.rdi_wri_ne _ _ hdone, State.rdi_wri_ne _ _ hbusy]
    rfl
  rw [mbxDone_eq]
  split
  · exact htold
  · exact htold

/-- An entry of the Gauger's page behind the mailbox. -/
theorem rdi_mbxDone {F0 : Field} {i : Nat} (hF : 0x124 ≤ F0.off) : (s.mbxDone status detail resp).rdi pgGAU F0 i = s.rdi pgGAU F0 i := by
  refine mbxDone_regs _ _ _ fun hk => ?_
  have hlow : ∀ k ∈ mbxKeys, k < pgGAU * 131072 + 0x124 * 32 := by decide
  have hk := hlow _ hk
  simp only [fkey] at hk
  omega

theorem ctr_mbxDone_ne {off : Nat} (h1 : off ≠ 0x04C) (h2 : off ≠ 0x050) (hoff : off < 0x1000) :
    (s.mbxDone status detail resp).ctr pgGAU off = s.ctr pgGAU off := by
  have htold : (mbxTold s status detail resp).ctr pgGAU off = s.ctr pgGAU off := by
    rw [mbxTold, ctr_raise _ _ _ (by simp only [pgGAU, msgCtr, pgINTAKE]; omega), State.ctr_count_ne _ _ (by omega)]
    rfl
  rw [mbxDone_eq]
  split
  · rw [State.ctr_count_ne _ _ (by omega), htold]
  · exact htold

theorem raised_mbxDone {pg bit : Nat} (hb : bit < 32) (h : Raised s pg bit) : Raised (s.mbxDone status detail resp) pg bit := by
  have hshown : Raised (mbxShown s status detail resp) pg bit := by
    have hkey (F0 : Field) (hF : F0.off < 0x1000 ∧ 0x21 ≤ F0.off ∧ F0.lo < 32) : fkey pg F.EVT_RAW 0 ≠ fkey pgGAU F0 0 := by
      simp only [fkey, F.EVT_RAW]
      omega
    exact raised_wri (hkey _ (by decide)) (raised_wri (hkey _ (by decide)) (raised_wri (hkey _ (by decide)) (raised_wri (hkey _ (by decide))
      (raised_wri (hkey _ (by decide)) (raised_congr (s := s) rfl h)))))
  have htold : Raised (mbxTold s status detail resp) pg bit := raised_mono _ _ hb (raised_congr (s := mbxShown s status detail resp) rfl hshown)
  rw [mbxDone_eq]
  split
  · exact raised_congr (s := mbxTold s status detail resp) rfl htold
  · exact htold

theorem mbxDone_mailed (hst : status < 256) : Mailed s (s.mbxDone status detail resp) status := by
  have hbusy : (mbxTold s status detail resp).rd pgGAU F.MBX_STAT_BUSY = 0 := by
    rw [mbxTold, State.rd, State.rdi_raise_ne _ (by decide), State.rdi_count, mbxShown, State.rdi_wri_ne _ _ (by decide), State.rdi_wri_ne _ _ (by decide),
      State.rdi_wri_ne _ _ (by decide), State.rdi_wri_ne _ _ (by decide), State.rdi_wri_self]
    rfl
  have hdone : (mbxTold s status detail resp).rd pgGAU F.MBX_STAT_DONE = 1 := by
    rw [mbxTold, State.rd, State.rdi_raise_ne _ (by decide), State.rdi_count, mbxShown, State.rdi_wri_ne _ _ (by decide), State.rdi_wri_ne _ _ (by decide),
      State.rdi_wri_ne _ _ (by decide), State.rdi_wri_self]
    rfl
  have hstatus : (mbxTold s status detail resp).rd pgGAU F.MBX_STAT_STATUS = status := by
    rw [mbxTold, State.rd, State.rdi_raise_ne _ (by decide), State.rdi_count, mbxShown, State.rdi_wri_ne _ _ (by decide), State.rdi_wri_ne _ _ (by decide),
      State.rdi_wri_self]
    exact Nat.mod_eq_of_lt hst
  have hraised : Raised (mbxTold s status detail resp) pgGAU 0 := raised_raise _ _ _ (by decide)
  have hctr : (mbxTold s status detail resp).ctr pgGAU 0x04C = s.ctr pgGAU 0x04C + 1 := by
    rw [mbxTold, ctr_raise _ _ _ (by decide), State.ctr_count_self]
    rfl
  rw [mbxDone_eq]
  generalize mbxTold s status detail resp = t at *
  split
  · exact ⟨hbusy, hdone, hstatus, raised_congr (s := t) rfl hraised, (State.ctr_count_ne _ _ (by decide)).trans hctr⟩
  · exact ⟨hbusy, hdone, hstatus, hraised, hctr⟩

theorem detail_mbxDone (hd : detail < 2 ^ 16) : (s.mbxDone status detail resp).rd pgGAU F.MBX_STAT_DETAIL = detail := by
  have htold : (mbxTold s status detail resp).rd pgGAU F.MBX_STAT_DETAIL = detail := by
    rw [mbxTold, State.rd, State.rdi_raise_ne _ (by decide), State.rdi_count, mbxShown, State.rdi_wri_ne _ _ (by decide), State.rdi_wri_self]
    exact Nat.mod_eq_of_lt hd
  rw [mbxDone_eq]
  split
  · exact htold
  · exact htold

/-- The body of a command may have changed what the completion does not count. -/
theorem Mailed.of {z t : State} (h : Mailed s t status) (hctr : s.ctr pgGAU 0x04C = z.ctr pgGAU 0x04C) : Mailed z t status := by
  obtain ⟨hbusy, hdone, hstatus, hraised, hcount⟩ := h
  exact ⟨hbusy, hdone, hstatus, hraised, by rw [hcount, hctr]⟩

end

end Sys2Proof
end

section
/-! PROOF. O46: firmware staging, activation and recovery (R445–R459). -/

namespace Sys2Proof

set_option Elab.async false

open Machine

/-! ## Slots -/

theorem fwSlot_setSlot (s : State) (c k : Nat) (x : FwSlot) : (s.setSlot c k x).fwSlot c k = x := by
  have hslot : mget (s.setSlot c k x).fw.slots (2 * c + k) = some x := mget_mput_self ..
  rw [State.fwSlot, hslot]
  rfl

theorem fwSlot_congr {s t : State} (h : t.fw.slots = s.fw.slots) (c k : Nat) : t.fwSlot c k = s.fwSlot c k := by rw [State.fwSlot, State.fwSlot, h]
theorem activeSlot_congr {s t : State} (h : t.fw.active = s.fw.active) (c : Nat) : t.activeSlot c = s.activeSlot c := by
  rw [State.activeSlot, State.activeSlot, h]

/-- Nothing changes but register fields and the slots of the firmware with their fused versions. -/
def FusesOnly (s t : State) : Prop := t = { s with regs := t.regs, fw := { s.fw with slots := t.fw.slots, fused := t.fw.fused } }

section
variable {z s t : State}

theorem FusesOnly.trans (h : FusesOnly z s) (k : FusesOnly s t) : FusesOnly z t := Eq.trans k (by rw [h])

theorem FusesOnly.foldl {α : Type} {g : State → α → State} (hg : ∀ t x, FusesOnly t (g t x)) : ∀ (l : List α) (s : State), FusesOnly s (l.foldl g s)
  | [], _ => rfl
  | x :: l, s => (hg s x).trans (FusesOnly.foldl hg l (g s x))

theorem fusesOnly_setSlot (s : State) (c k : Nat) (x : FwSlot) : FusesOnly s (s.setSlot c k x) := rfl

theorem fusesOnly_checkSlots (s : State) : FusesOnly s s.checkSlots := by
  rw [State.checkSlots]
  exact .foldl (fun t c => .foldl (fun t k => fusesOnly_setSlot ..) _ t) _ s

theorem fusesOnly_raiseFuse (s : State) (c : Nat) : FusesOnly s (s.raiseFuse c) := by
  rw [State.raiseFuse]
  dsimp only
  split
  · have hfused (f : AMap Nat) (v : Nat) : FusesOnly s ({ s with fw := { s.fw with fused := f } }.wri pgGAU F.FW_COMP_FUSED_SVN c v) := rfl
    exact (hfused ..).trans (fusesOnly_checkSlots _)
  · rfl

end

/-! ## The end of an activation (R455, R456) -/

/-- The activation is over: nothing is pending, and the page shows the phase. -/
def actOver (s : State) (comp phase : Nat) : State :=
  let s1 := s.wri pgGAU F.FW_COMP_PEND comp 0
  ({ s1 with fw := { s1.fw with act := none } }.wr pgGAU F.FW_ACT_BUSY 0).wr pgGAU F.FW_ACT_PHASE phase

/-- What a reader of the Gauger's page finds once the activation of a component is over. -/
structure ActOver (s t : State) (comp phase ev off : Nat) : Prop where
  act : t.fw.act = none
  active : t.fw.active = s.fw.active
  run : t.fw.run = s.fw.run
  gau : t.gau = s.gau
  busy : t.rd pgGAU F.FW_ACT_BUSY = 0
  phase : t.rd pgGAU F.FW_ACT_PHASE = phase
  pend : t.rdi pgGAU F.FW_COMP_PEND comp = 0
  raised : Raised t pgGAU ev
  counted : t.ctr pgGAU off = s.ctr pgGAU off + 1

theorem fkey_pend_ne {comp : Nat} {F0 : Field} {i : Nat} (hlo : F0.lo < 32 ∧ F0.lo ≠ 26) :
    fkey pgGAU F.FW_COMP_PEND comp ≠ fkey pgGAU F0 i := by
  simp only [fkey, F.FW_COMP_PEND]
  omega

theorem busy_actOver (s : State) (comp phase : Nat) : (actOver s comp phase).rd pgGAU F.FW_ACT_BUSY = 0 := by
  rw [actOver, State.rd, State.rdi_wri_ne _ _ (by decide), State.rdi_wri_self]
  rfl

theorem phase_actOver (s : State) (comp : Nat) {phase : Nat} (hp : phase < 4) : (actOver s comp phase).rd pgGAU F.FW_ACT_PHASE = phase := by
  rw [actOver, State.rd, State.rdi_wri_self]
  exact Nat.mod_eq_of_lt hp

theorem pend_actOver (s : State) (comp phase : Nat) : (actOver s comp phase).rdi pgGAU F.FW_COMP_PEND comp = 0 := by
  rw [actOver, State.rdi_wri_ne _ _ (fkey_pend_ne (by decide)), State.rdi_wri_ne _ _ (fkey_pend_ne (by decide))]
  refine (State.rdi_congr rfl rfl ..).trans (State.rdi_wri_self ..)

theorem actDone_eq (s : State) (a : Activation) (phase : Nat) : s.actDone a phase =
    ((((actOver ((s.recordSlot a.comp a.slot).raiseFuse a.comp) a.comp phase).raise pgGAU 10).raise pgGAU 4).count pgGAU 0x078 1).tellMeasurement true := rfl

theorem actFail_eq (s : State) (a : Activation) : s.actFail a = ((actOver s a.comp 0).raise pgGAU 11).count pgGAU 0x07C 1 := rfl

theorem fkey_pend_raw {comp : Nat} : fkey pgGAU F.FW_COMP_PEND comp ≠ fkey pgGAU F.EVT_RAW 0 := fkey_pend_ne (by decide)

theorem actFail_spec (s : State) (a : Activation) : ActOver s (s.actFail a) a.comp 0 11 0x07C := by
  have hover : (actOver s a.comp 0).fw = { s.fw with act := none } ∧ (actOver s a.comp 0).gau = s.gau ∧ (actOver s a.comp 0).ctrs = s.ctrs := ⟨rfl, rfl, rfl⟩
  obtain ⟨hfw, hgau, hctrs⟩ := hover
  have hbusy := busy_actOver s a.comp 0
  have hphase := phase_actOver s a.comp (phase := 0) (by decide)
  have hpend := pend_actOver s a.comp 0
  rw [actFail_eq]
  generalize actOver s a.comp 0 = t at *
  have hfw' : ((t.raise pgGAU 11).count pgGAU 0x07C 1).fw = { s.fw with act := none } := by rw [State.count_fw, State.raise_fw, hfw]
  refine ⟨by rw [hfw'], by rw [hfw'], by rw [hfw'], by rw [State.count_gau, State.raise_gau, hgau], ?_, ?_, ?_, raised_congr (s := t.raise pgGAU 11) rfl (raised_raise _ _ _ (by decide)), ?_⟩
  · rw [State.rd, State.rdi_count, State.rdi_raise_ne _ (by decide)]
    exact hbusy
  · rw [State.rd, State.rdi_count, State.rdi_raise_ne _ (by decide)]
    exact hphase
  · rw [State.rdi_count, State.rdi_raise_ne _ fkey_pend_raw]
    exact hpend
  · rw [State.ctr_count_self, ctr_raise _ _ _ (by decide)]
    exact congrArg (fun m => nget m _ + 1) hctrs

theorem actDone_spec (s : State) (a : Activation) {phase : Nat} (hp : phase < 4) :
    ActOver (s.recordSlot a.comp a.slot) (s.actDone a phase) a.comp phase 10 0x078 ∧ Raised (s.actDone a phase) pgGAU 4 := by
  have hfuse := fusesOnly_raiseFuse (s.recordSlot a.comp a.slot) a.comp
  rw [actDone_eq]
  generalize (s.recordSlot a.comp a.slot) = r at *
  generalize r.raiseFuse a.comp = u at *
  have hover : (actOver u a.comp phase).fw = { u.fw with act := none } ∧ (actOver u a.comp phase).gau = u.gau ∧ (actOver u a.comp phase).ctrs = u.ctrs := ⟨rfl, rfl, rfl⟩
  obtain ⟨hfw, hgau, hctrs⟩ := hover
  have hbusy := busy_actOver u a.comp phase
  have hphase := phase_actOver u a.comp hp
  have hpend := pend_actOver u a.comp phase
  generalize actOver u a.comp phase = t at *
  have hr10 : Raised ((t.raise pgGAU 10).raise pgGAU 4) pgGAU 10 := raised_mono _ _ (by decide) (raised_raise _ _ _ (by decide))
  have hr4 : Raised ((t.raise pgGAU 10).raise pgGAU 4) pgGAU 4 := raised_raise _ _ _ (by decide)
  have hkeep (F0 : Field) (i : Nat) (hne : fkey pgGAU F0 i ≠ fkey pgGAU F.EVT_RAW 0) : ((t.raise pgGAU 10).raise pgGAU 4).rdi pgGAU F0 i = t.rdi pgGAU F0 i := by
    rw [State.rdi_raise_ne _ hne, State.rdi_raise_ne _ hne]
  have hctr : ((t.raise pgGAU 10).raise pgGAU 4).ctr pgGAU 0x078 = t.ctr pgGAU 0x078 := by rw [ctr_raise _ _ _ (by decide), ctr_raise _ _ _ (by decide)]
  have hfw' : ((t.raise pgGAU 10).raise pgGAU 4).fw = t.fw := by rw [State.raise_fw, State.raise_fw]
  have hgau' : ((t.raise pgGAU 10).raise pgGAU 4).gau = t.gau := by rw [State.raise_gau, State.raise_gau]
  generalize (t.raise pgGAU 10).raise pgGAU 4 = v at *
  have hfin : ((v.count pgGAU 0x078 1).tellMeasurement true).fw = v.fw ∧ ((v.count pgGAU 0x078 1).tellMeasurement true).gau = v.gau := ⟨rfl, rfl⟩
  refine ⟨⟨?_, ?_, ?_, ?_, (hkeep _ _ (by decide)).trans hbusy, (hkeep _ _ (by decide)).trans hphase, (hkeep _ _ fkey_pend_raw).trans hpend, raised_congr (s := v) rfl hr10, ?_⟩,
    raised_congr (s := v) rfl hr4⟩
  · rw [hfin.1, hfw', hfw]
  · rw [hfin.1, hfw', hfw, hfuse]
  · rw [hfin.1, hfw', hfw, hfuse]
  · rw [hfin.2, hgau', hgau, hfuse]
  · refine (State.ctr_count_self v pgGAU 0x078 1).trans ?_
    rw [hctr, State.ctr, hctrs, hfuse]
    rfl

theorem activeSlot_recordSlot (s : State) (c k : Nat) : (s.recordSlot c k).activeSlot c = k := nget_nput_self ..

end Sys2Proof
end

section
/-! PROOF. O46: the commands of the mailbox, the start of an activation and its end. -/

namespace Sys2Proof

set_option Elab.async false

open Machine

section
variable {s : State}

/-! ## Staging (R449, R450) -/

/-- FW_STAGE has been taken: the slot is being filled. -/
def stageTaken (s : State) (comp kib : Nat) (img : Image) (sigOk : Bool) : State :=
  let t1 := s.setSlot comp (1 - s.activeSlot comp) { state := 3, sigOk := false, img := img }
  let t2 := { t1 with fw := { t1.fw with staging := some { comp := comp, slot := 1 - s.activeSlot comp, img := { img with svn := img.svn % 64 }, kib := if sigOk then kib else 0 } } }
  ((t2.wri pgGAU F.FW_COMP_PEND comp 0).wri pgGAU F.FW_COMP_STAGING comp 1).wr pgGAU F.FW_STAGE_KIB 0

theorem any_comp_false {o : Option Activation} {comp : Nat} (h : ∀ a, o = some a → a.comp ≠ comp) : (o.any fun a => a.comp == comp) = false := by
  cases o with
  | none => rfl
  | some a => simpa using h a rfl

theorem fwStage_busy {comp kib : Nat} {img : Image} {sigOk : Bool} (hopen : MailOpen s) (hstaging : s.fw.staging.isSome = true) :
    ∃ t, exec (.fwStage comp img sigOk kib) s = .next t ∧ Mailed s t stFAULT ∧ t.rd pgGAU F.MBX_STAT_DETAIL = 1 ∧ t.fw = s.fw := by
  refine ⟨s.mbxDone stFAULT 0x01, ?_, mbxDone_mailed (by decide), detail_mbxDone (by decide), mbxDone_fw⟩
  change execFwStage comp img sigOk kib s = _
  rw [execFwStage, mailbox_open hopen, if_pos hstaging]

theorem fwStage_takes {comp kib : Nat} {img : Image} {sigOk : Bool} (hopen : MailOpen s) (hcomp : comp < 7) (hstaging : s.fw.staging = none)
    (hkib : kib ≤ slotKib comp) (hact : ∀ a, s.fw.act = some a → a.comp ≠ comp) :
    ∃ t g, exec (.fwStage comp img sigOk kib) s = .next t ∧ Mailed s t 0 ∧ t.fw.staging = some g ∧ g.comp = comp ∧
      g.slot = 1 - s.activeSlot comp ∧ g.img = { img with svn := img.svn % 64 } ∧ g.kib = (if sigOk then kib else 0) ∧
      t.fwSlot comp (1 - s.activeSlot comp) = { state := 3, sigOk := false, img := img } ∧ t.rdi pgGAU F.FW_COMP_PEND comp = 0 ∧
      t.rdi pgGAU F.FW_COMP_STAGING comp = 1 ∧ t.fw.run = s.fw.run ∧ t.fw.active = s.fw.active := by
  have hexec : exec (.fwStage comp img sigOk kib) s = .next ((stageTaken s comp kib img sigOk).mbxDone stCOMPLETE 0) := by
    change execFwStage comp img sigOk kib s = _
    rw [execFwStage, mailbox_open hopen, if_neg (by simp [hstaging]), if_neg (by omega), if_neg (by simp [any_comp_false hact])]
    rfl
  have hslot : (stageTaken s comp kib img sigOk).fwSlot comp (1 - s.activeSlot comp) = { state := 3, sigOk := false, img := img } :=
    (fwSlot_congr rfl ..).trans (fwSlot_setSlot s comp (1 - s.activeSlot comp) _)
  have hpend : (stageTaken s comp kib img sigOk).rdi pgGAU F.FW_COMP_PEND comp = 0 := by
    have hstag : fkey pgGAU F.FW_COMP_PEND comp ≠ fkey pgGAU F.FW_COMP_STAGING comp := fkey_pend_ne (by decide)
    have hlen : fkey pgGAU F.FW_COMP_PEND comp ≠ fkey pgGAU F.FW_STAGE_KIB 0 := fkey_pend_ne (by decide)
    exact (State.rdi_wri_ne _ _ hlen).trans ((State.rdi_wri_ne _ _ hstag).trans (State.rdi_wri_self ..))
  have hstag : (stageTaken s comp kib img sigOk).rdi pgGAU F.FW_COMP_STAGING comp = 1 := by
    have hlen : fkey pgGAU F.FW_COMP_STAGING comp ≠ fkey pgGAU F.FW_STAGE_KIB 0 := by
      simp only [fkey, F.FW_COMP_STAGING, F.FW_STAGE_KIB]
      omega
    exact (State.rdi_wri_ne _ _ hlen).trans (State.rdi_wri_self ..)
  have hfw := mbxDone_fw (s := stageTaken s comp kib img sigOk) (status := stCOMPLETE) (detail := 0) (resp := [])
  have hmailed : Mailed s ((stageTaken s comp kib img sigOk).mbxDone stCOMPLETE 0) 0 := (mbxDone_mailed (by decide)).of rfl
  refine ⟨_, _, hexec, hmailed, congrArg FwSt.staging hfw, rfl, rfl, rfl, rfl, (fwSlot_congr (congrArg FwSt.slots hfw) ..).trans hslot,
    (rdi_mbxDone (by decide)).trans hpend, (rdi_mbxDone (by decide)).trans hstag, (congrArg FwSt.run hfw).trans rfl, (congrArg FwSt.active hfw).trans rfl⟩

/-- The slot has been read back, and no component is being staged. -/
def stageOver (s : State) (g : Staging) (x : FwSlot) : State :=
  let s1 := { s with fw := { s.fw with staging := none } }.setSlot g.comp g.slot x
  (s1.wri pgGAU F.FW_COMP_STAGING g.comp 0).wr pgGAU F.FW_STAGE_KIB g.kib

theorem stageOver_spec (g : Staging) (x : FwSlot) : (stageOver s g x).fw.staging = none ∧ (stageOver s g x).fwSlot g.comp g.slot = x ∧
    (stageOver s g x).rdi pgGAU F.FW_COMP_STAGING g.comp = 0 := by
  have hlen : fkey pgGAU F.FW_COMP_STAGING g.comp ≠ fkey pgGAU F.FW_STAGE_KIB 0 := by
    simp only [fkey, F.FW_COMP_STAGING, F.FW_STAGE_KIB]
    omega
  exact ⟨rfl, (fwSlot_congr rfl ..).trans (fwSlot_setSlot _ g.comp g.slot x), (State.rdi_wri_ne _ _ hlen).trans (State.rdi_wri_self ..)⟩

theorem fwStageDone_passes {g : Staging} (hstaging : s.fw.staging = some g) (hkib : g.kib ≠ 0) (hsvn : nget s.fw.fused g.comp ≤ g.img.svn) :
    ∃ t, exec (.fwStageDone true) s = .next t ∧ t.fw.staging = none ∧ t.fwSlot g.comp g.slot = { state := 1, sigOk := true, img := g.img } ∧
      t.rdi pgGAU F.FW_COMP_PEND g.comp = 1 ∧ t.rdi pgGAU F.FW_COMP_STAGING g.comp = 0 ∧ Raised t pgGAU 7 ∧
      t.ctr pgGAU 0x074 = s.ctr pgGAU 0x074 + 1 := by
  obtain ⟨hnone, hslot, hstag⟩ := stageOver_spec (s := s) g { state := 1, sigOk := true, img := g.img }
  have hctr : (stageOver s g { state := 1, sigOk := true, img := g.img }).ctrs = s.ctrs := rfl
  have hexec : exec (.fwStageDone true) s = .next ((((stageOver s g { state := 1, sigOk := true, img := g.img }).wri pgGAU F.FW_COMP_PEND g.comp 1).count pgGAU 0x074 1).raise
      pgGAU 7) := by
    change execFwStageDone true s = _
    rw [execFwStageDone, hstaging]
    have hkib' : (g.kib != 0) = true := by simpa using hkib
    simp only [hkib', hsvn, decide_true, Bool.and_true, if_true]
    rfl
  generalize stageOver s g { state := 1, sigOk := true, img := g.img } = u at *
  have hraw : fkey pgGAU F.FW_COMP_STAGING g.comp ≠ fkey pgGAU F.EVT_RAW 0 := by
    simp only [fkey, F.FW_COMP_STAGING, F.EVT_RAW]
    omega
  have hpend : fkey pgGAU F.FW_COMP_STAGING g.comp ≠ fkey pgGAU F.FW_COMP_PEND g.comp := (fkey_pend_ne (by decide)).symm
  refine ⟨_, hexec, ?_, ?_, ?_, ?_, raised_raise _ _ _ (by decide), ?_⟩
  · rw [State.raise_fw]
    exact hnone
  · exact (fwSlot_congr (by rw [State.raise_fw]; rfl) ..).trans hslot
  · rw [State.rdi_raise_ne _ fkey_pend_raw, State.rdi_count, State.rdi_wri_self]
    rfl
  · rw [State.rdi_raise_ne _ hraw, State.rdi_count, State.rdi_wri_ne _ _ hpend, hstag]
  · rw [ctr_raise _ _ _ (by decide), State.ctr_count_self, State.ctr_wri, State.ctr, hctr]
    rfl

theorem fwStageDone_fails {g : Staging} (hstaging : s.fw.staging = some g) :
    ∃ t, exec (.fwStageDone false) s = .next t ∧ t.fw.staging = none ∧ t.fwSlot g.comp g.slot = { state := 3, sigOk := false, img := g.img } ∧
      t.rdi pgGAU F.FW_COMP_STAGING g.comp = 0 ∧ Raised t pgGAU 8 := by
  obtain ⟨hnone, hslot, hstag⟩ := stageOver_spec (s := s) g { state := 3, sigOk := false, img := g.img }
  have hexec : exec (.fwStageDone false) s = .next ((stageOver s g { state := 3, sigOk := false, img := g.img }).raise pgGAU 8) := by
    change execFwStageDone false s = _
    rw [execFwStageDone, hstaging]
    rfl
  generalize stageOver s g { state := 3, sigOk := false, img := g.img } = u at *
  have hraw : fkey pgGAU F.FW_COMP_STAGING g.comp ≠ fkey pgGAU F.EVT_RAW 0 := by
    simp only [fkey, F.FW_COMP_STAGING, F.EVT_RAW]
    omega
  refine ⟨_, hexec, ?_, ?_, ?_, raised_raise _ _ _ (by decide)⟩
  · rw [State.raise_fw]
    exact hnone
  · exact (fwSlot_congr (by rw [State.raise_fw]) ..).trans hslot
  · rw [State.rdi_raise_ne _ hraw, hstag]

theorem fwDiscard_clears {comp : Nat} (hopen : MailOpen s) (hcomp : comp < 7) (hact : ∀ a, s.fw.act = some a → a.comp ≠ comp) :
    ∃ t, exec (.fwDiscard comp) s = .next t ∧ Mailed s t 0 ∧ t.rdi pgGAU F.FW_COMP_PEND comp = 0 ∧ t.fw = s.fw := by
  refine ⟨(s.wri pgGAU F.FW_COMP_PEND comp 0).mbxDone stCOMPLETE 0, ?_, (mbxDone_mailed (by decide)).of rfl,
    (rdi_mbxDone (by decide)).trans (State.rdi_wri_self ..), mbxDone_fw⟩
  change execFwDiscard comp s = _
  rw [execFwDiscard, mailbox_open hopen, if_neg (by simp [any_comp_false hact]), if_pos hcomp]

/-! ## ACTIVATE (R451) -/

/-- The activation that an ACTIVATE asks for. -/
def asked (s : State) (comp lead : Nat) (force : Bool) : Activation :=
  { comp := comp, slot := 1 - s.activeSlot comp, force := force, pidx := (s.rd pgTBASE F.TBASE_PERIOD_IDX + lead) % 2 ^ 24, atClk := s.now + lead * clkMs }

/-- An accepted activation is announced. -/
def announced (s : State) (comp lead : Nat) (force : Bool) : State :=
  let t1 := { s with fw := { s.fw with act := some (asked s comp lead force) } }
  (((t1.wr pgGAU F.FW_ACT_BUSY 1).wr pgGAU F.FW_ACT_COMP comp).wr pgGAU F.FW_ACT_PHASE 1).wr pgGAU F.FW_ACT_PIDX (asked s comp lead force).pidx

theorem announced_shown (comp lead : Nat) (force : Bool) : (announced s comp lead force).rd pgGAU F.FW_ACT_BUSY = 1 ∧
    (announced s comp lead force).rd pgGAU F.FW_ACT_PHASE = 1 ∧
    (announced s comp lead force).rd pgGAU F.FW_ACT_PIDX = (s.rd pgTBASE F.TBASE_PERIOD_IDX + lead) % 2 ^ 24 := by
  refine ⟨?_, ?_, ?_⟩
  · rw [announced, State.rd, State.rdi_wri_ne _ _ (by decide), State.rdi_wri_ne _ _ (by decide), State.rdi_wri_ne _ _ (by decide), State.rdi_wri_self]
    rfl
  · rw [announced, State.rd, State.rdi_wri_ne _ _ (by decide), State.rdi_wri_self]
    rfl
  · exact (State.rdi_wri_self ..).trans (Nat.mod_mod_of_dvd _ (dvd_refl _))

/-- The statuses and details that a refusal gives fit their fields (R451). -/
theorem activateRefused_bounds {comp : Nat} {force : Bool} {st detail : Nat} (h : s.activateRefused comp force = some (st, detail)) : st < 256 ∧ detail < 2 ^ 16 := by
  rw [State.activateRefused] at h
  split_ifs at h <;> (obtain ⟨rfl, rfl⟩ := Prod.mk.inj (Option.some.inj h); decide)

section
variable {comp lead : Nat} {force : Bool} (hopen : MailOpen s) (hlead : lead ≠ 0) (hlead' : lead ≤ 255)
include hopen hlead hlead'

theorem activate_accepted (hfree : s.activateRefused comp force = none) :
    ∃ t, exec (.activate comp lead force) s = .next t ∧ Mailed s t 0 ∧ Raised t pgGAU 9 ∧ t.rd pgGAU F.FW_ACT_BUSY = 1 ∧
      t.rd pgGAU F.FW_ACT_PHASE = 1 ∧ t.rd pgGAU F.FW_ACT_PIDX = (s.rd pgTBASE F.TBASE_PERIOD_IDX + lead) % 2 ^ 24 ∧
      t.fw.act = some (asked s comp lead force) := by
  have hexec : exec (.activate comp lead force) s = .next ((((announced s comp lead force).raise pgGAU 9).tellMeasurement false).mbxDone stCOMPLETE 0) := by
    change execActivate comp lead force s = _
    rw [execActivate, mailbox_open hopen, if_neg (by omega), hfree]
    rfl
  obtain ⟨hbusy, hphase, hpidx⟩ := announced_shown (s := s) comp lead force
  have hact : (announced s comp lead force).fw.act = some (asked s comp lead force) := rfl
  have hctr : (announced s comp lead force).ctr pgGAU 0x04C = s.ctr pgGAU 0x04C := rfl
  generalize announced s comp lead force = u at *
  have hraised : Raised (u.raise pgGAU 9) pgGAU 9 := raised_raise _ _ _ (by decide)
  have hctr' := (ctr_raise u pgGAU 9 (pg := pgGAU) (off := 0x04C) (by decide)).trans hctr
  have hfw := State.raise_fw u pgGAU 9
  have hkeep (F0 : Field) (h : fkey pgGAU F0 0 ≠ fkey pgGAU F.EVT_RAW 0) : (u.raise pgGAU 9).rd pgGAU F0 = u.rd pgGAU F0 := State.rdi_raise_ne _ h
  have hbusy' := (hkeep _ (by decide)).trans hbusy
  have hphase' := (hkeep _ (by decide)).trans hphase
  have hpidx' := (hkeep _ (by decide)).trans hpidx
  generalize u.raise pgGAU 9 = v at *
  have hread (F0 : Field) (hF : 0x124 ≤ F0.off) : ((v.tellMeasurement false).mbxDone stCOMPLETE 0).rd pgGAU F0 = v.rd pgGAU F0 :=
    (rdi_mbxDone hF).trans (State.rdi_congr rfl rfl ..)
  have hfw' : ((v.tellMeasurement false).mbxDone stCOMPLETE 0).fw = v.fw := mbxDone_fw
  refine ⟨_, hexec, (mbxDone_mailed (by decide)).of hctr', raised_mbxDone (by decide) (raised_congr (s := v) rfl hraised),
    (hread _ (by decide)).trans hbusy', (hread _ (by decide)).trans hphase', (hread _ (by decide)).trans hpidx', ?_⟩
  rw [hfw', hfw, hact]

theorem activate_refuses {st detail : Nat} (h : s.activateRefused comp force = some (st, detail)) :
    ∃ t, exec (.activate comp lead force) s = .next t ∧ Mailed s t st ∧ t.rd pgGAU F.MBX_STAT_DETAIL = detail ∧ t.fw = s.fw := by
  obtain ⟨hst, hdetail⟩ := activateRefused_bounds h
  refine ⟨s.mbxDone st detail, ?_, mbxDone_mailed hst, detail_mbxDone hdetail, mbxDone_fw⟩
  change execActivate comp lead force s = _
  rw [execActivate, mailbox_open hopen, if_neg (by omega), h]

end

/-! ## Recovery (R459) -/

/-- The state of REC.STAT once a recovery write is over. -/
def recDone (s : State) (st : Nat) : State := ((s.wr pgREC F.REC_STAT_BUSY 0).wr pgREC F.REC_STAT_DONE 1).wr pgREC F.REC_STAT_STATUS st

theorem recDone_shown (t : State) : (recDone t stCOMPLETE).rd pgREC F.REC_STAT_BUSY = 0 ∧ (recDone t stCOMPLETE).rd pgREC F.REC_STAT_DONE = 1 ∧
    (recDone t stCOMPLETE).rd pgREC F.REC_STAT_STATUS = 0 := by
  refine ⟨?_, ?_, State.rdi_wri_self ..⟩
  · rw [recDone, State.rd, State.rdi_wri_ne _ _ (by decide), State.rdi_wri_ne _ _ (by decide), State.rdi_wri_self]
    rfl
  · rw [recDone, State.rd, State.rdi_wri_ne _ _ (by decide), State.rdi_wri_self]
    rfl

theorem recoveryWrite_repairs {img : Image} (hrec : s.fw.recovery = true) (hcomp : s.rd pgREC F.REC_COMP < 7)
    (hsvn : nget s.fw.fused (s.rd pgREC F.REC_COMP) ≤ img.svn % 64) :
    ∃ t, exec (.recoveryWrite img true true true) s = .next t ∧ t.rd pgREC F.REC_STAT_BUSY = 0 ∧ t.rd pgREC F.REC_STAT_DONE = 1 ∧
      t.rd pgREC F.REC_STAT_STATUS = 0 ∧ t.activeSlot (s.rd pgREC F.REC_COMP) = s.rd pgREC F.REC_SLOT ∧
      t.fwSlot (s.rd pgREC F.REC_COMP) (s.rd pgREC F.REC_SLOT) = { state := 1, sigOk := true, img := { img with svn := img.svn % 64 } } := by
  let c := s.rd pgREC F.REC_COMP
  let k := s.rd pgREC F.REC_SLOT
  let s1 := s.setSlot c k { state := 1, sigOk := true, img := { img with svn := img.svn % 64 } }
  let u : State := { s1 with fw := { s1.fw with active := nput s1.fw.active c k } }
  have hexec : exec (.recoveryWrite img true true true) s = .next (recDone u stCOMPLETE) := by
    change execRecoveryWrite img true true true s = _
    rw [execRecoveryWrite, if_neg (by simp [hrec]), if_neg (by simp; omega), if_neg (by decide)]
    rfl
  have hactive : u.activeSlot c = k := nget_nput_self ..
  have hslot : u.fwSlot c k = { state := 1, sigOk := true, img := { img with svn := img.svn % 64 } } := (fwSlot_congr rfl ..).trans (fwSlot_setSlot ..)
  obtain ⟨hbusy, hdone, hstatus⟩ := recDone_shown u
  exact ⟨_, hexec, hbusy, hdone, hstatus, (activeSlot_congr rfl _).trans hactive, (fwSlot_congr rfl ..).trans hslot⟩

end

end Sys2Proof
end

section
/-! PROOF. O46: an activation begins, ends and fails (R453–R456). -/

namespace Sys2Proof

set_option Elab.async false

open Machine

section
variable {s : State} {a : Activation}

/-! ## The start of an activation (R453, R454) -/

/-- The activation has begun, and no slice of the component's units runs any more. -/
def begunQuiet (s : State) (a : Activation) : State :=
  let s1 := { s with fw := { s.fw with act := some { a with begun := true } } }.wr pgGAU F.FW_ACT_PHASE 2
  let s2 := { s1 with bist := { s1.bist with running := s1.bist.running.filter fun x => !sliceOf a.comp x.unit } }
  s2.count pgBIST 0x054 (s1.bist.running.filter fun x => sliceOf a.comp x.unit).length

/-- The two components that are only recorded, and the rest. -/
theorem exec_activationBegin (hact : s.fw.act = some a) (hbegun : a.begun = false) (hfree : s.unlocked = true → a.atClk ≤ s.now)
    (hlocked : s.unlocked = false → (s.rd pgTBASE F.TBASE_PERIOD_IDX + 2 ^ 24 - a.pidx) % 2 ^ 24 < 2 ^ 23) (hcm : a.comp ≠ 1) :
    exec .activationBegin s = .next (if a.comp = 5 ∨ a.comp = 6 then s.actDone a 3 else if a.comp = 0 then (begunQuiet s a).gaugerRestart else begunQuiet s a) := by
  have hdue : (if s.unlocked then decide (a.atClk ≤ s.now) else decide ((s.rd pgTBASE F.TBASE_PERIOD_IDX + 2 ^ 24 - a.pidx) % 2 ^ 24 < 2 ^ 23)) = true := by
    split_ifs with hu
    · exact decide_eq_true (hfree hu)
    · exact decide_eq_true (hlocked (Bool.eq_false_of_not_eq_true hu))
  change execActivationBegin s = _
  rw [execActivationBegin, hact]
  dsimp only
  rw [hdue, hbegun, if_neg (by decide), if_neg hcm, begunQuiet]

theorem phase_begunQuiet : (begunQuiet s a).rd pgGAU F.FW_ACT_PHASE = 2 := State.rdi_wri_self ..

theorem running_begunQuiet : ∀ x ∈ (begunQuiet s a).bist.running, sliceOf a.comp x.unit = false := by
  intro x hx
  have hquiet := List.of_mem_filter (hx : x ∈ s.bist.running.filter fun x => !sliceOf a.comp x.unit)
  exact Bool.not_eq_true' _ ▸ hquiet

section
variable (hact : s.fw.act = some a) (hbegun : a.begun = false) (hfree : s.unlocked = true → a.atClk ≤ s.now)
  (hlocked : s.unlocked = false → (s.rd pgTBASE F.TBASE_PERIOD_IDX + 2 ^ 24 - a.pidx) % 2 ^ 24 < 2 ^ 23)
include hact hbegun hfree hlocked

theorem activationBegin_records (hcomp : a.comp = 5 ∨ a.comp = 6) :
    ∃ t, exec .activationBegin s = .next t ∧ t.fw.act = none ∧ t.activeSlot a.comp = a.slot ∧ t.rd pgGAU F.FW_ACT_BUSY = 0 ∧
      t.rd pgGAU F.FW_ACT_PHASE = 3 ∧ Raised t pgGAU 10 ∧ Raised t pgGAU 4 ∧ t.ctr pgGAU 0x078 = s.ctr pgGAU 0x078 + 1 ∧ t.fw.run = s.fw.run := by
  have hexec := exec_activationBegin hact hbegun hfree hlocked (by omega)
  rw [if_pos hcomp] at hexec
  obtain ⟨hover, hmeas⟩ := actDone_spec s a (phase := 3) (by decide)
  exact ⟨_, hexec, hover.act, (activeSlot_congr hover.active _).trans (activeSlot_recordSlot ..), hover.busy, hover.phase, hover.raised, hmeas,
    hover.counted, hover.run⟩

theorem activationBegin_quiesces (hcomp : a.comp = 2 ∨ a.comp = 3 ∨ a.comp = 4) :
    ∃ t, exec .activationBegin s = .next t ∧ t.fw.act = some { a with begun := true } ∧ t.rd pgGAU F.FW_ACT_PHASE = 2 ∧
      (∀ x ∈ t.bist.running, sliceOf a.comp x.unit = false) ∧ t.fw.active = s.fw.active := by
  have hexec := exec_activationBegin hact hbegun hfree hlocked (by omega)
  rw [if_neg (by omega), if_neg (by omega)] at hexec
  exact ⟨_, hexec, rfl, phase_begunQuiet, running_begunQuiet, rfl⟩

theorem activationBegin_restarts (hcomp : a.comp = 0) :
    ∃ t, exec .activationBegin s = .next t ∧ t.fw.act = some { a with begun := true } ∧ t.rd pgGAU F.FW_ACT_PHASE = 2 ∧
      t.gau.paused = true ∧ t.gau.bootCount = s.gau.bootCount + 1 ∧ t.rd pgGAU F.MBX_STAT_BUSY = 1 := by
  have hexec := exec_activationBegin hact hbegun hfree hlocked (by omega)
  rw [if_neg (by omega), if_pos hcomp] at hexec
  have hphase : (begunQuiet s a).gaugerRestart.rd pgGAU F.FW_ACT_PHASE = 2 :=
    (State.rdi_congr rfl rfl ..).trans ((State.rdi_wri_ne (begunQuiet s a) _ (by decide)).trans phase_begunQuiet)
  exact ⟨_, hexec, rfl, hphase, rfl, rfl, (State.rdi_congr rfl rfl ..).trans (State.rdi_wri_self (s := begunQuiet s a) ..)⟩

end

/-! ## The Gauger is back; the loaders write the library kernels (R454) -/

/-- What the start of a component's image leaves as it was. -/
structure Started (s t : State) : Prop where
  fw : t.fw = s.fw
  done : t.ctr pgGAU 0x078 = s.ctr pgGAU 0x078
  failed : t.ctr pgGAU 0x07C = s.ctr pgGAU 0x07C

theorem Started.refl (s : State) : Started s s := ⟨rfl, rfl, rfl⟩

theorem Started.trans {s t u : State} (h : Started s t) (k : Started t u) : Started s u :=
  ⟨k.fw.trans h.fw, k.done.trans h.done, k.failed.trans h.failed⟩

theorem Started.of {s t : State} (hfw : t.fw = s.fw := by rfl) (hctrs : t.ctrs = s.ctrs := by rfl) : Started s t :=
  ⟨hfw, by rw [State.ctr, hctrs]; rfl, by rw [State.ctr, hctrs]; rfl⟩

theorem started_raise (s : State) (pg bit : Nat) : Started s (s.raise pg bit) :=
  ⟨State.raise_fw .., ctr_raise _ _ _ (by decide), ctr_raise _ _ _ (by decide)⟩

theorem started_reserveTop (s : State) : Started s s.reserveTop ∧ s.reserveTop.gau.paused = s.gau.paused := by
  rw [State.reserveTop]
  split
  · exact ⟨.refl s, rfl⟩
  · dsimp only
    have hwr : Started s (s.wr pgGAU F.GAU_HSS_TOP_END (s.rd pgGAU F.GAU_HSS_TOP_END + 16)) := .of
    split
    · split
      · exact ⟨(hwr.trans (started_raise ..)).trans (started_raise ..), by rw [State.raise_gau, State.raise_gau]; rfl⟩
      · exact ⟨hwr.trans (started_raise ..), by rw [State.raise_gau]; rfl⟩
    · split
      · exact ⟨hwr.trans (started_raise ..), by rw [State.raise_gau]; rfl⟩
      · exact ⟨hwr, rfl⟩

theorem started_newAlias (s : State) : Started s s.newAlias ∧ s.newAlias.gau.paused = s.gau.paused := by
  have hfirst : Started s (if s.rd pgGAU F.GAU_HSS_TOP_END ≤ s.gau.topNext then s.reserveTop else s) ∧
      (if s.rd pgGAU F.GAU_HSS_TOP_END ≤ s.gau.topNext then s.reserveTop else s).gau.paused = s.gau.paused := by
    split
    · exact started_reserveTop s
    · exact ⟨.refl s, rfl⟩
  have hspend : Started s s.spendTop ∧ s.spendTop.gau.paused = s.gau.paused := by
    rw [State.spendTop]
    generalize (if s.rd pgGAU F.GAU_HSS_TOP_END ≤ s.gau.topNext then s.reserveTop else s) = u at *
    obtain ⟨hu, hp⟩ := hfirst
    dsimp only
    split
    · exact ⟨hu.trans ⟨rfl, State.ctr_count_ne _ _ (by decide), State.ctr_count_ne _ _ (by decide)⟩, hp⟩
    · exact ⟨hu, hp⟩
  rw [State.newAlias]
  generalize s.spendTop = u at *
  exact ⟨hspend.1.trans .of, hspend.2⟩

theorem started_gaugerBack (s : State) : Started s s.gaugerBack ∧ s.gaugerBack.gau.paused = false := by
  have hwr : Started s ({ s with gau := { s.gau with paused := false, heldBusy := false } }.wr pgGAU F.MBX_STAT_BUSY (boolNat s.gau.heldBusy)) := .of
  obtain ⟨halias, hpaused⟩ := started_newAlias ({ s with gau := { s.gau with paused := false, heldBusy := false } }.wr pgGAU F.MBX_STAT_BUSY (boolNat s.gau.heldBusy))
  exact ⟨hwr.trans halias, hpaused⟩

theorem pageKind_floorPgOf (f : FloorId) : ∃ n k, floorPgOf f = pgFLOOR n k := ⟨_, _, rfl⟩

theorem loadLibrary_winds (s : State) (loads : List (FloorId × LoadJob)) : Winds s (s.loadLibrary loads) := by
  rw [State.loadLibrary]
  refine .foldl (fun t e ht => .foldl (fun u L hu => ?_) _ ht) _ (.refl s)
  split
  · rename_i pg hpg
    have hfar : 0x1000 ≤ pg := dieOf_vatOf hpg
    exact ((hu.of (t := u.setVat pg _)).wr _ _ hfar).wr _ _ hfar
  · exact hu

theorem started_loadLibrary (s : State) (loads : List (FloorId × LoadJob)) : Started s (s.loadLibrary loads) :=
  have h := loadLibrary_winds s loads
  ⟨h.fw, h.gauCtrs _ (by decide), h.gauCtrs _ (by decide)⟩

/-! ## The end of an activation (R455, R456) -/

theorem runImage_runSlot (s : State) (c k : Nat) : (s.runSlot c k).runImage c = (s.fwSlot c k).img := by
  have hrun : mget (s.runSlot c k).fw.run c = some (s.fwSlot c k).img := mget_mput_self ..
  rw [State.runImage, hrun]
  rfl

/-- The state in which the new image has started. -/
def imageUp (s : State) (a : Activation) (loads : List (FloorId × LoadJob)) : State :=
  if a.comp = 0 then s.gaugerBack else if a.comp = 2 then s.loadLibrary loads else s

theorem imageUp_started (s : State) (a : Activation) (loads : List (FloorId × LoadJob)) :
    Started s (imageUp s a loads) ∧ (a.comp = 0 → (imageUp s a loads).gau.paused = false) := by
  rw [imageUp]
  split
  · exact ⟨(started_gaugerBack s).1, fun _ => (started_gaugerBack s).2⟩
  · rename_i hcomp
    refine ⟨?_, fun h => absurd h hcomp⟩
    split
    · exact started_loadLibrary s loads
    · exact .refl s

theorem runImage_congr {s t : State} (h : t.fw.run = s.fw.run) (c : Nat) : t.runImage c = s.runImage c := by rw [State.runImage, State.runImage, h]

theorem activationComplete_ends (hact : s.fw.act = some a) (loads : List (FloorId × LoadJob)) (hbegun : a.begun = true) (hfailed : a.failed = false)
    (hquiet : s.compQuiet a.comp = true) (hcm : a.comp = 1 → s.cmReloaded a = true) :
    ∃ t, exec (.activationComplete loads) s = .next t ∧ t.fw.act = none ∧ t.activeSlot a.comp = a.slot ∧
      t.runImage a.comp = (s.fwSlot a.comp a.slot).img ∧ t.rd pgGAU F.FW_ACT_BUSY = 0 ∧ t.rd pgGAU F.FW_ACT_PHASE = 0 ∧
      t.rdi pgGAU F.FW_COMP_PEND a.comp = 0 ∧ Raised t pgGAU 10 ∧ t.ctr pgGAU 0x078 = s.ctr pgGAU 0x078 + 1 ∧
      (a.comp = 0 → t.gau.paused = false) := by
  have hcm' : (a.comp == 1 && !s.cmReloaded a) = false := by
    rcases eq_or_ne a.comp 1 with h | h
    · simp [hcm h]
    · simp [h]
  have hexec : exec (.activationComplete loads) s = .next (((imageUp s a loads).runSlot a.comp a.slot).actDone a 0) := by
    change execActivationComplete loads s = _
    rw [execActivationComplete, hact]
    dsimp only
    rw [hbegun, hfailed, hquiet, hcm', if_neg (by decide)]
    rfl
  obtain ⟨hstarted, hpaused⟩ := imageUp_started s a loads
  generalize imageUp s a loads = u at *
  obtain ⟨hover, -⟩ := actDone_spec (u.runSlot a.comp a.slot) a (phase := 0) (by decide)
  have hgau : (u.runSlot a.comp a.slot).gau = u.gau := rfl
  refine ⟨_, hexec, hover.act, (activeSlot_congr hover.active _).trans (activeSlot_recordSlot ..), ?_, hover.busy, hover.phase, hover.pend, hover.raised,
    hover.counted.trans (congrArg (· + 1) hstarted.done), fun h0 => by rw [hover.gau]; exact hpaused h0⟩
  calc _ = (u.runSlot a.comp a.slot).runImage a.comp := runImage_congr hover.run _
    _ = (u.fwSlot a.comp a.slot).img := runImage_runSlot ..
    _ = (s.fwSlot a.comp a.slot).img := by rw [fwSlot_congr (congrArg FwSt.slots hstarted.fw)]

/-- The state in which the old image runs again. -/
def imageBack (s : State) (a : Activation) (loads : List (FloorId × LoadJob)) : State :=
  if a.comp = 0 then { s with gau := { s.gau with bootCount := s.gau.bootCount + 1 } }.gaugerBack else if a.comp = 2 then s.loadLibrary loads else s

theorem imageBack_started (s : State) (a : Activation) (loads : List (FloorId × LoadJob)) :
    Started s (imageBack s a loads) ∧ (a.comp = 0 → (imageBack s a loads).gau.paused = false) := by
  rw [imageBack]
  split
  · obtain ⟨hstarted, hpaused⟩ := started_gaugerBack { s with gau := { s.gau with bootCount := s.gau.bootCount + 1 } }
    have hcount : Started s { s with gau := { s.gau with bootCount := s.gau.bootCount + 1 } } := .of
    exact ⟨hcount.trans hstarted, fun _ => hpaused⟩
  · rename_i hcomp
    refine ⟨?_, fun h => absurd h hcomp⟩
    split
    · exact started_loadLibrary s loads
    · exact .refl s

theorem activationFail_keeps (hact : s.fw.act = some a) (loads : List (FloorId × LoadJob)) (hbegun : a.begun = true)
    (hquiet : s.compQuiet a.comp = true) (hcm : a.comp = 1 → a.failed = true) :
    ∃ t, exec (.activationFail loads) s = .next t ∧ t.fw.act = none ∧ t.fw.active = s.fw.active ∧ t.fw.run = s.fw.run ∧
      t.rdi pgGAU F.FW_COMP_PEND a.comp = 0 ∧ t.rd pgGAU F.FW_ACT_BUSY = 0 ∧ Raised t pgGAU 11 ∧ t.ctr pgGAU 0x07C = s.ctr pgGAU 0x07C + 1 ∧
      (a.comp = 0 → t.gau.paused = false) := by
  have hcm' : (a.comp == 1 && !a.failed) = false := by
    rcases eq_or_ne a.comp 1 with h | h
    · simp [hcm h]
    · simp [h]
  have hexec : exec (.activationFail loads) s = .next ((imageBack s a loads).actFail a) := by
    change execActivationFail loads s = _
    rw [execActivationFail, hact]
    dsimp only
    rw [hbegun, hquiet, hcm', if_neg (by decide)]
    rfl
  obtain ⟨hstarted, hpaused⟩ := imageBack_started s a loads
  generalize imageBack s a loads = u at *
  have hover := actFail_spec u a
  exact ⟨_, hexec, hover.act, by rw [hover.active, hstarted.fw], by rw [hover.run, hstarted.fw], hover.pend, hover.busy, hover.raised,
    hover.counted.trans (congrArg (· + 1) hstarted.failed), fun h0 => by rw [hover.gau]; exact hpaused h0⟩

end

/-- Settles O46: each clause is the lemma of its command. -/
theorem firmwareUpdates : Obligations.FirmwareUpdates := by
  unfold Obligations.FirmwareUpdates
  refine ⟨⟨?stage, ?staged, ?discard, ?activate, ?recovery⟩, ?act⟩
  case stage =>
    intro comp kib img sigOk s hopen hcomp
    exact ⟨fwStage_busy hopen, fwStage_takes hopen hcomp⟩
  case staged =>
    intro s g hstaging _ hkib
    exact ⟨fwStageDone_passes hstaging hkib, fwStageDone_fails hstaging⟩
  case discard =>
    intro comp s hopen hcomp hact
    exact fwDiscard_clears hopen hcomp hact
  case activate =>
    intro comp lead force s hopen hlead hlead'
    exact ⟨activate_accepted hopen hlead hlead', fun _ _ => activate_refuses hopen hlead hlead'⟩
  case recovery =>
    intro img s hrec hcomp hsvn
    exact recoveryWrite_repairs hrec hcomp hsvn
  case act =>
    intro s a hact _
    exact ⟨fun hbegun hfree hlocked => ⟨activationBegin_records hact hbegun hfree hlocked, activationBegin_quiesces hact hbegun hfree hlocked,
      activationBegin_restarts hact hbegun hfree hlocked⟩, activationComplete_ends hact, activationFail_keeps hact⟩

end Sys2Proof
end

section
/-! PROOF. O45: the owner's commands by the mailbox (R398, R437, R439, R444). -/

namespace Sys2Proof

set_option Elab.async false

open Machine

section
variable {s : State} {o : OwnerBlob}

/-! ## The blob of an owner command (R439) -/

/-- The number of the blob is the last one seen. -/
def sequenced (s : State) (o : OwnerBlob) : State := { s with gau := { s.gau with ownerSeq := o.seq.toNat } }

/-- The owner's body runs on a state with the number of its blob. -/
theorem owner_inOrder (hopen : MailOpen s) (hus : o.forUs = true) (hseq : s.gau.ownerSeq < o.seq.toNat) {unsignedOk : Bool}
    (hsig : unsignedOk = true ∨ o.sigOk = true ∧ s.gau.ownerKey.isSome = true) (body : State → State) :
    s.owner o unsignedOk body = body (sequenced s o) := by
  have hsig' : (!unsignedOk && (!o.sigOk || s.gau.ownerKey.isNone)) = false := by
    rcases hsig with h | ⟨hok, hkey⟩
    · rw [h]
      rfl
    · rw [hok, ← Option.not_isSome, hkey]
      simp
  rw [State.owner, mailbox_open hopen, hsig', hus, if_neg (by decide), if_neg (by decide), if_neg (by omega)]
  rfl

theorem owner_blobOk (hopen : MailOpen s) (hblob : BlobOk s o) (body : State → State) : s.owner o false body = body (sequenced s o) := by
  obtain ⟨hsig, hkey, hus, hseq⟩ := hblob
  exact owner_inOrder hopen hus hseq (.inr ⟨hsig, hkey⟩) body

/-! ## Owner and publishers -/

/-- A command that has changed the Gauger's owner state completes. -/
def ownersShown (s : State) (g : GauSt) : State := ({ s with gau := g }.showOwner).mbxDone stCOMPLETE 0

theorem ownersShown_mailed (g : GauSt) : Mailed s (ownersShown s g) 0 := (mbxDone_mailed (by decide)).of rfl

theorem ownersShown_gau (g : GauSt) : (ownersShown s g).gau = { g with resp := [] } := mbxDone_gau

theorem ownersShown_set (g : GauSt) : (ownersShown s g).rd pgGAU F.GAU_OWNER_SET = boolNat g.ownerKey.isSome := by
  have hset : ({ s with gau := g }.showOwner).rd pgGAU F.GAU_OWNER_SET = boolNat g.ownerKey.isSome := by
    rw [State.showOwner, State.rd, State.rdi_wri_ne _ _ (by decide), State.rdi_wri_self]
    cases g.ownerKey.isSome <;> rfl
  exact (rdi_mbxDone (by decide)).trans hset

theorem ownersShown_publishers (g : GauSt) : (ownersShown s g).rd pgGAU F.GAU_PUBLISHERS = g.publishers.length % 2 ^ 6 :=
  (rdi_mbxDone (by decide)).trans (State.rdi_wri_self ..)

theorem ownerSet_takes (hopen : MailOpen s) (hus : o.forUs = true) (hseq : s.gau.ownerSeq < o.seq.toNat) (key : Nat) (hnone : s.gau.ownerKey = none) :
    ∃ t, exec (.ownerSet o key) s = .next t ∧ Mailed s t 0 ∧ t.gau.ownerKey = some key ∧ t.gau.ownerSeq = o.seq.toNat ∧
      t.rd pgGAU F.GAU_OWNER_SET = 1 := by
  have hexec : exec (.ownerSet o key) s = .next (ownersShown s { s.gau with ownerSeq := o.seq.toNat, ownerKey := some key }) := by
    change execOwnerSet o key s = _
    rw [execOwnerSet, hnone, owner_inOrder hopen hus hseq (.inl Option.isNone_none)]
    rfl
  exact ⟨_, hexec, ownersShown_mailed _, by rw [ownersShown_gau], by rw [ownersShown_gau], ownersShown_set _⟩

section
variable (hopen : MailOpen s) (hblob : BlobOk s o)
include hopen hblob

theorem ownerTransfer_takes (key : Nat) :
    ∃ t, exec (.ownerTransfer o key) s = .next t ∧ Mailed s t 0 ∧ t.gau.ownerKey = some key ∧ t.gau.ownerSeq = o.seq.toNat ∧
      t.gau.publishers = s.gau.publishers := by
  have hexec : exec (.ownerTransfer o key) s = .next (ownersShown s { s.gau with ownerSeq := o.seq.toNat, ownerKey := some key }) := by
    change execOwnerTransfer o key s = _
    rw [execOwnerTransfer, owner_blobOk hopen hblob]
    rfl
  exact ⟨_, hexec, ownersShown_mailed _, by rw [ownersShown_gau], by rw [ownersShown_gau], by rw [ownersShown_gau]⟩

theorem ownerRelease_frees :
    ∃ t, exec (.ownerRelease o) s = .next t ∧ Mailed s t 0 ∧ t.gau.ownerKey = none ∧ t.gau.publishers = [] ∧ t.gau.ownerSeq = o.seq.toNat ∧
      t.rd pgGAU F.GAU_OWNER_SET = 0 ∧ t.rd pgGAU F.GAU_PUBLISHERS = 0 := by
  have hexec : exec (.ownerRelease o) s = .next (ownersShown s { s.gau with ownerSeq := o.seq.toNat, ownerKey := none, publishers := [] }) := by
    change execOwnerRelease o s = _
    rw [execOwnerRelease, owner_blobOk hopen hblob]
    rfl
  exact ⟨_, hexec, ownersShown_mailed _, by rw [ownersShown_gau], by rw [ownersShown_gau], by rw [ownersShown_gau], ownersShown_set _,
    ownersShown_publishers _⟩

theorem pubEnrol_adds (slot : Fin 32) (key : Nat) :
    ∃ t, exec (.pubEnrol o slot key) s = .next t ∧ Mailed s t 0 ∧ mget t.gau.publishers slot.val = some key ∧
      (∀ i, i ≠ slot.val → mget t.gau.publishers i = mget s.gau.publishers i) ∧ t.gau.ownerSeq = o.seq.toNat := by
  have hexec : exec (.pubEnrol o slot key) s =
      .next (ownersShown s { s.gau with ownerSeq := o.seq.toNat, publishers := mput s.gau.publishers slot.val key }) := by
    change execPubEnrol o slot key s = _
    rw [execPubEnrol, owner_blobOk hopen hblob]
    rfl
  refine ⟨_, hexec, ownersShown_mailed _, ?_, fun i hi => ?_, by rw [ownersShown_gau]⟩
  · rw [ownersShown_gau]
    exact mget_mput_self ..
  · rw [ownersShown_gau]
    exact mget_mput_ne _ _ hi

theorem pubRevoke_removes (slot : Fin 32) :
    ∃ t, exec (.pubRevoke o slot) s = .next t ∧ Mailed s t 0 ∧ mget t.gau.publishers slot.val = none ∧
      (∀ i, i ≠ slot.val → mget t.gau.publishers i = mget s.gau.publishers i) ∧ t.gau.ownerSeq = o.seq.toNat := by
  have hexec : exec (.pubRevoke o slot) s =
      .next (ownersShown s { s.gau with ownerSeq := o.seq.toNat, publishers := mdel s.gau.publishers slot.val }) := by
    change execPubRevoke o slot s = _
    rw [execPubRevoke, owner_blobOk hopen hblob]
    rfl
  refine ⟨_, hexec, ownersShown_mailed _, ?_, fun i hi => ?_, by rw [ownersShown_gau]⟩
  · rw [ownersShown_gau]
    exact mget_mdel_self ..
  · rw [ownersShown_gau]
    exact mget_mdel_ne _ hi

end

theorem ownerTransfer_unsigned (hopen : MailOpen s) (hsig : o.sigOk = false) (key : Nat) :
    ∃ t, exec (.ownerTransfer o key) s = .next t ∧ Mailed s t stDENIED ∧ t.gau.ownerKey = s.gau.ownerKey ∧ t.gau.ownerSeq = s.gau.ownerSeq := by
  refine ⟨s.mbxDone stDENIED 1, ?_, mbxDone_mailed (by decide), by rw [mbxDone_gau], by rw [mbxDone_gau]⟩
  change execOwnerTransfer o key s = _
  rw [execOwnerTransfer, State.owner, mailbox_open hopen, hsig, if_pos (by rfl)]

/-! ## POLICY (R439, R537) -/

/-- The register of a setting. -/
def policyKey (i : PolicyItem) : Nat := fkey (policyField i).1 (policyField i).2.1 0

theorem policyKey_ne {i j : PolicyItem} (h : i ≠ j) : policyKey i ≠ policyKey j := by
  revert h
  cases i <;> cases j <;> decide

theorem policyKey_notMailbox (i : PolicyItem) : policyKey i ∉ mbxKeys ∧ policyKey i ≠ fkey pgPOWER F.PWR_CEILING_W 0 := by
  cases i <;> decide

/-- A value in its range fits its field. -/
theorem policyOk_fits {x : PolicyItem × Nat} (h : policyOk x = true) : x.2 < 2 ^ (policyField x.1).2.1.width := by
  obtain ⟨-, hmax⟩ := of_decide_eq_true h
  have hwidth : ∀ i : PolicyItem, (policyField i).2.2.2 < 2 ^ (policyField i).2.1.width := by
    intro i
    cases i <;> decide
  exact lt_of_le_of_lt hmax (hwidth x.1)

/-- A setting takes effect. -/
def settle (s : State) (x : PolicyItem × Nat) : State := s.wr (policyField x.1).1 (policyField x.1).2.1 x.2

theorem rd_settle_self {x : PolicyItem × Nat} (h : policyOk x = true) : (settle s x).rd (policyField x.1).1 (policyField x.1).2.1 = x.2 :=
  (State.rdi_wri_self ..).trans (Nat.mod_eq_of_lt (policyOk_fits h))

theorem rd_settle_ne {x : PolicyItem × Nat} {i : PolicyItem} (h : i ≠ x.1) :
    (settle s x).rd (policyField i).1 (policyField i).2.1 = s.rd (policyField i).1 (policyField i).2.1 :=
  State.rdi_wri_ne _ _ (policyKey_ne h)

/-- Settings of different kinds all take effect. -/
theorem rd_settled {items : List (PolicyItem × Nat)} (hok : items.all policyOk = true) (hnodup : (items.map (·.1)).Nodup) :
    ∀ s : State, (∀ x ∈ items, (items.foldl settle s).rd (policyField x.1).1 (policyField x.1).2.1 = x.2) ∧
      ∀ i, i ∉ items.map (·.1) → (items.foldl settle s).rd (policyField i).1 (policyField i).2.1 = s.rd (policyField i).1 (policyField i).2.1 := by
  induction items with
  | nil => exact fun s => ⟨fun x hx => absurd hx List.not_mem_nil, fun _ _ => rfl⟩
  | cons y l ih =>
    intro s
    obtain ⟨hy, hl⟩ := (Bool.and_eq_true ..).mp hok
    obtain ⟨hnew, hnodup⟩ := List.nodup_cons.mp hnodup
    obtain ⟨hin, hout⟩ := ih hl hnodup (settle s y)
    refine ⟨fun x hx => ?_, fun i hi => ?_⟩
    · rcases List.mem_cons.mp hx with rfl | hx
      · exact (hout _ hnew).trans (rd_settle_self hy)
      · exact hin x hx
    · rw [List.map_cons, List.mem_cons, not_or] at hi
      exact (hout i hi.2).trans (rd_settle_ne hi.1)

theorem settled_regs (items : List (PolicyItem × Nat)) (s : State) : RegsOnly s (items.foldl settle s) :=
  RegsOnly.foldl (fun t _ => (regsOnly_refl t).wr ..) items s

section
variable (hopen : MailOpen s) (hblob : BlobOk s o)
include hopen hblob

theorem policy_settles {items : List (PolicyItem × Nat)} (hok : items.all policyOk = true) (hnodup : (items.map (·.1)).Nodup) :
    ∃ t, exec (.policy o items) s = .next t ∧ Mailed s t 0 ∧ t.gau.ownerSeq = o.seq.toNat ∧
      ∀ x ∈ items, t.rd (policyField x.1).1 (policyField x.1).2.1 = x.2 := by
  have hexec : exec (.policy o items) s = .next (((items.foldl settle (sequenced s o)).showCeiling).mbxDone stCOMPLETE 0) := by
    change execPolicy o items s = _
    rw [execPolicy, owner_blobOk hopen hblob, if_pos hok]
    rfl
  obtain ⟨hin, -⟩ := rd_settled hok hnodup (sequenced s o)
  have hregs := (settled_regs items (sequenced s o)).trans (showCeiling_regs _)
  have hceiling (x : PolicyItem) : (items.foldl settle (sequenced s o)).showCeiling.rd (policyField x).1 (policyField x).2.1 =
      (items.foldl settle (sequenced s o)).rd (policyField x).1 (policyField x).2.1 := rdi_showCeiling_ne _ (policyKey_notMailbox x).2
  generalize (items.foldl settle (sequenced s o)).showCeiling = u at *
  refine ⟨_, hexec, (mbxDone_mailed (by decide)).of (by rw [State.ctr, hregs.ctrs]; rfl), ?_, fun x hx => ?_⟩
  · rw [mbxDone_gau, hregs]
    rfl
  · exact (mbxDone_regs _ _ _ (policyKey_notMailbox x.1).1).trans ((hceiling x.1).trans (hin x hx))

theorem policy_refuses {items : List (PolicyItem × Nat)} (hbad : items.all policyOk = false) :
    ∃ t, exec (.policy o items) s = .next t ∧ Mailed s t stFAULT ∧ t.gau.ownerSeq = s.gau.ownerSeq ∧
      ∀ i, t.rd (policyField i).1 (policyField i).2.1 = s.rd (policyField i).1 (policyField i).2.1 := by
  have hexec : exec (.policy o items) s = .next (s.mbxDone stFAULT 0) := by
    change execPolicy o items s = _
    rw [execPolicy, owner_blobOk hopen hblob, hbad]
    rfl
  exact ⟨_, hexec, mbxDone_mailed (by decide), by rw [mbxDone_gau], fun i => mbxDone_regs _ _ _ (policyKey_notMailbox i).1⟩

theorem debugToken_opens {vendor counter : Bool} (hcounter : vendor = true → counter = true) (hfree : s.ctxCount (fun v => v != ctxFREE) = 0) :
    ∃ t, exec (.debugToken o vendor counter) s = .next t ∧ Mailed s t 0 ∧ t.rd pgGAU F.GAU_DEBUG_OPEN = 1 ∧ t.gau.ownerSeq = o.seq.toNat := by
  have hsigned : (vendor && !counter) = false := by
    cases vendor with
    | false => rfl
    | true => rw [hcounter rfl]; rfl
  refine ⟨((sequenced s o).wr pgGAU F.GAU_DEBUG_OPEN 1).mbxDone stCOMPLETE 0, ?_, (mbxDone_mailed (by decide)).of rfl,
    (rdi_mbxDone (by decide)).trans (State.rdi_wri_self ..), by rw [mbxDone_gau]; rfl⟩
  change execDebugToken o vendor counter s = _
  rw [execDebugToken, if_neg (not_not.mpr hfree), owner_blobOk hopen hblob, hsigned]
  rfl

end

end

end Sys2Proof
end

section
/-! PROOF. O45: casks load and unload (R440–R443). -/

namespace Sys2Proof

set_option Elab.async false

open Machine

section
variable {s : State}

theorem showCasks_regs (s : State) : RegsOnly s s.showCasks := (regsOnly_refl s).wr ..

theorem on_eq_of_rd {s t : State} {pg : Nat} {F0 : Field} (h : t.rd pg F0 = s.rd pg F0) : t.on pg F0 = s.on pg F0 :=
  congrArg (· != 0) h

/-! ## CASK_LOAD (R440–R442) -/

/-- The cask that a load begins. -/
def caskBegun (s : State) (k : CaskIn) : Cask :=
  { ctx := k.ctx.val, host := k.host, segs := k.sects.flatMap destSegs, frames := k.sects.flatMap (s.destFrames k.ctx.val),
    images := (List.range (k.sects.filter fun d => d == .code).length).map (s.gau.nextImage + ·), loading := true, dests := k.sects }

theorem caskLoad_begins {k : CaskIn} {n : Nat} (hopen : MailOpen s) (hfree : s.caskRefused k = none)
    (hslot : ((List.range 256).find? fun n => (mget s.casks n).isNone) = some n) :
    ∃ t x, exec (.caskLoad k) s = .next t ∧ mget t.casks n = some x ∧ x.ctx = k.ctx.val ∧ x.loading = true ∧ x.dests = k.sects ∧ x.host = k.host ∧
      (∀ i, i ≠ n → mget t.casks i = mget s.casks i) ∧ t.gau.loading = some n ∧ t.on pgGAU F.MBX_STAT_BUSY = true ∧ SameBytes s t := by
  let u : State := { s with
    casks := mput s.casks n (caskBegun s k)
    gau := { s.gau with loading := some n, nextImage := s.gau.nextImage + (k.sects.filter fun d => d == .code).length } }
  have hexec : exec (.caskLoad k) s = .next u.showCasks := by
    change execCaskLoad k s = _
    rw [execCaskLoad, mailbox_open hopen]
    dsimp only
    rw [hfree, hslot]
    rfl
  obtain ⟨-, hbusy, -, -, -⟩ := hopen
  have hread : u.showCasks.rd pgGAU F.MBX_STAT_BUSY = s.rd pgGAU F.MBX_STAT_BUSY := (State.rdi_wri_ne u _ (by decide)).trans (State.rdi_congr rfl rfl ..)
  exact ⟨_, caskBegun s k, hexec, mget_mput_self .., rfl, rfl, rfl, rfl, fun i hi => mget_mput_ne _ _ hi, rfl, (on_eq_of_rd hread).trans hbusy, .of_eq⟩

/-- The statuses and causes that a refusal gives fit their fields (R442). -/
theorem caskRefused_bounds {k : CaskIn} {st cause : Nat} (h : s.caskRefused k = some (st, cause)) : st < 256 ∧ cause < 2 ^ 16 := by
  rw [State.caskRefused] at h
  split_ifs at h <;> (obtain ⟨rfl, rfl⟩ := Prod.mk.inj (Option.some.inj h); decide)

theorem caskLoad_refuses {k : CaskIn} {st cause : Nat} (hopen : MailOpen s) (h : s.caskRefused k = some (st, cause)) :
    ∃ t, exec (.caskLoad k) s = .next t ∧ Mailed s t st ∧ t.rd pgGAU F.MBX_STAT_DETAIL = cause ∧ t.casks = s.casks := by
  obtain ⟨hst, hcause⟩ := caskRefused_bounds h
  refine ⟨s.mbxDone st cause, ?_, mbxDone_mailed hst, detail_mbxDone hcause, mbxDone_casks⟩
  change execCaskLoad k s = _
  rw [execCaskLoad, mailbox_open hopen]
  dsimp only
  rw [h]

/-! ## CASK_LOAD_DONE (R442) -/

theorem Winds.putSection {z : State} (h : Winds z s) (c : Nat) (d : CaskDest) (bs : List Byte) : Winds z (s.putSection c d bs) := by
  cases d with
  | weight va pages => exact h.hubWrite ..
  | segs die floor mask => exact .foldl (fun _ _ ht => ht.of) _ h
  | code => exact h

/-- The background load of a cask has ended; chunk tags that failed are counted. -/
def loadOver (s : State) (fails : Nat) : State := { s with gau := { s.gau with loading := none } }.count pgGAU 0x06C fails

theorem ctr_loadOver_self (fails : Nat) : (loadOver s fails).ctr pgGAU 0x06C = s.ctr pgGAU 0x06C + fails := State.ctr_count_self ..

theorem ctr_loadOver_ne (fails : Nat) {off : Nat} (h : off ≠ 0x06C) : (loadOver s fails).ctr pgGAU off = s.ctr pgGAU off :=
  State.ctr_count_ne _ _ (by omega)

/-- The sections of a cask are in their destinations. -/
def sectionsPut (s : State) (x : Cask) (d : List (List Byte)) : State := (x.dests.zip d).foldl (fun t e => t.putSection x.ctx e.1 e.2) s

theorem sectionsPut_winds (s : State) (x : Cask) (d : List (List Byte)) : Winds s (sectionsPut s x d) :=
  .foldl (fun _ _ ht => ht.putSection ..) _ (.refl s)

section
variable {n : Nat} {x : Cask} (hloading : s.gau.loading = some n) (hcask : mget s.casks n = some x)
include hloading hcask

theorem caskLoadDone_loads (again : Nat) (d : List (List Byte)) (hlive : s.ctxState x.ctx = ctxLIVE) :
    ∃ t, exec (.caskLoadDone (some d) again) s = .next t ∧ mget t.casks n = some { x with loading := false } ∧ t.gau.loading = none ∧
      t.gau.resp = n :: x.images ∧ t.rd pgGAU F.MBX_STAT_BUSY = 0 ∧ t.rd pgGAU F.MBX_STAT_DONE = 1 ∧ t.rd pgGAU F.MBX_STAT_STATUS = 0 ∧
      t.ctr pgGAU 0x064 = s.ctr pgGAU 0x064 + 1 := by
  have hlive' : ¬ (loadOver s (again + 0)).ctxState x.ctx ≠ ctxLIVE := not_not.mpr hlive
  have hexec : exec (.caskLoadDone (some d) again) s =
      .next (({ sectionsPut (loadOver s (again + 0)) x d with
        casks := mput (sectionsPut (loadOver s (again + 0)) x d).casks n { x with loading := false } }.count pgGAU 0x064 1).mbxDone stCOMPLETE 0
          (n :: x.images)) := by
    change execCaskLoadDone (some d) again s = _
    rw [execCaskLoadDone, hloading]
    dsimp only
    rw [hcask]
    exact congrArg Host.Outcome.next (if_neg hlive')
  have hw := sectionsPut_winds (loadOver s (again + 0)) x d
  have hctr := (hw.gauCtrs 0x064 (by decide)).trans (ctr_loadOver_ne (s := s) (again + 0) (by decide))
  have hgau : (sectionsPut (loadOver s (again + 0)) x d).gau.loading = none := by rw [hw.gau]; rfl
  generalize sectionsPut (loadOver s (again + 0)) x d = u at *
  obtain ⟨hbusy, hdone, hstatus, -, -⟩ := mbxDone_mailed (s := { u with casks := mput u.casks n { x with loading := false } }.count pgGAU 0x064 1)
    (status := stCOMPLETE) (detail := 0) (resp := n :: x.images) (by decide)
  refine ⟨_, hexec, ?_, ?_, by rw [mbxDone_gau], hbusy, hdone, hstatus, ?_⟩
  · rw [mbxDone_casks]
    exact mget_mput_self ..
  · rw [mbxDone_gau]
    exact hgau
  · rw [ctr_mbxDone_ne (by decide) (by decide) (by decide), State.ctr_count_self]
    exact congrArg (· + 1) hctr

theorem caskLoadDone_fails (again : Nat) :
    ∃ t, exec (.caskLoadDone none again) s = .next t ∧ Mailed s t stFAULT ∧ t.rd pgGAU F.MBX_STAT_DETAIL = 8 ∧ mget t.casks n = none ∧
      t.gau.loading = none ∧ t.ctr pgGAU 0x06C = s.ctr pgGAU 0x06C + again + 2 ∧ SameBytes s t := by
  let u : State := { loadOver s (again + 2) with casks := mdel (loadOver s (again + 2)).casks n }
  have hexec : exec (.caskLoadDone none again) s = .next (u.showCasks.mbxDone stFAULT 8) := by
    change execCaskLoadDone none again s = _
    rw [execCaskLoadDone, hloading]
    dsimp only
    rw [hcask]
    rfl
  have hctr (off : Nat) : u.showCasks.ctr pgGAU off = (loadOver s (again + 2)).ctr pgGAU off := rfl
  have hcasks : mget u.showCasks.casks n = none := mget_mdel_self ..
  have hgau : u.showCasks.gau.loading = none := rfl
  have hbytes : SameBytes s u.showCasks := .of_eq
  generalize u.showCasks = v at *
  refine ⟨_, hexec, (mbxDone_mailed (by decide)).of ((hctr _).trans (ctr_loadOver_ne _ (by decide))), detail_mbxDone (by decide), ?_, ?_, ?_,
    hbytes.trans mbxDone_bytes⟩
  · rw [mbxDone_casks]
    exact hcasks
  · rw [mbxDone_gau]
    exact hgau
  · rw [ctr_mbxDone_ne (by decide) (by decide) (by decide), hctr, ctr_loadOver_self, Nat.add_assoc]

end

/-! ## CASK_UNLOAD (R443) -/

theorem caskUnload_removes {ctx : Fin 1024} {slot : Fin 256} {x : Cask} (hopen : MailOpen s) (hcask : mget s.casks slot.val = some x)
    (hctx : x.ctx = ctx.val) (hrecov : s.lp.recov = []) :
    ∃ t, exec (.caskUnload ctx slot) s = .next t ∧ Mailed s t 0 ∧ mget t.casks slot.val = none ∧
      (∀ i, i ≠ slot.val → mget t.casks i = mget s.casks i) ∧ SameBytes s t := by
  let u : State := { s with casks := mdel s.casks slot.val }
  have hexec : exec (.caskUnload ctx slot) s = .next (u.showCasks.mbxDone stCOMPLETE 0) := by
    change execCaskUnload ctx slot s = _
    rw [execCaskUnload, mailbox_open hopen]
    rw [hcask]
    refine congrArg Host.Outcome.next ((if_neg (not_not.mpr hctx)).trans ?_)
    rw [hrecov]
    rfl
  have hctr : u.showCasks.ctr pgGAU 0x04C = s.ctr pgGAU 0x04C := rfl
  have hcasks : u.showCasks.casks = mdel s.casks slot.val := rfl
  have hbytes : SameBytes s u.showCasks := .of_eq
  generalize u.showCasks = v at *
  refine ⟨_, hexec, (mbxDone_mailed (by decide)).of hctr, ?_, fun i hi => ?_, hbytes.trans mbxDone_bytes⟩
  · rw [mbxDone_casks, hcasks]
    exact mget_mdel_self ..
  · rw [mbxDone_casks, hcasks]
    exact mget_mdel_ne _ hi

end

/-- Settles O45: each clause is the lemma of its command. -/
theorem ownersAndCasks : Obligations.OwnersAndCasks := by
  unfold Obligations.OwnersAndCasks
  refine ⟨?owner, ?load, ?done, ?unload⟩
  case owner =>
    intro o s hopen hus hseq
    exact ⟨ownerSet_takes hopen hus hseq, fun hblob => ⟨ownerTransfer_takes hopen hblob, ownerRelease_frees hopen hblob, pubEnrol_adds hopen hblob,
      pubRevoke_removes hopen hblob, fun _ => ⟨policy_settles hopen hblob, policy_refuses hopen hblob⟩, fun _ _ => debugToken_opens hopen hblob⟩,
      ownerTransfer_unsigned hopen⟩
  case load =>
    intro k s hopen
    exact ⟨fun _ => caskLoad_begins hopen, fun _ _ => caskLoad_refuses hopen⟩
  case done =>
    intro again s n x hloading hcask
    exact ⟨caskLoadDone_loads hloading hcask again, caskLoadDone_fails hloading hcask again⟩
  case unload =>
    intro ctx slot s x hopen hcask hctx hrecov
    exact caskUnload_removes hopen hcask hctx hrecov

end Sys2Proof
end

section
/-! SUPPORT. A unit of the Cellarmaster pair (R379–R388): what a state change elsewhere keeps of it, its retirement, its drop. -/

namespace Sys2Proof

set_option Elab.async false

open Machine

/-! ## The record of a unit -/

theorem cmUnit_modUnit_self (s : State) (u : Nat) (f : CmUnit → CmUnit) : (s.modUnit u f).cmUnit u = f (s.cmUnit u) := by
  rcases eq_or_ne u 0 with rfl | h
  · rfl
  · simp [State.modUnit, State.setUnit, State.cmUnit, h]

theorem cmUnit_modUnit_other (s : State) {u : Nat} (hu : u < 2) (f : CmUnit → CmUnit) : (s.modUnit (1 - u) f).cmUnit u = s.cmUnit u := by
  have hcases : u = 0 ∨ u = 1 := by omega
  rcases hcases with rfl | rfl <;> rfl

theorem modUnit_rest (s : State) (u : Nat) (f : CmUnit → CmUnit) : s.modUnit u f = { s with cm := (s.modUnit u f).cm } := rfl

theorem rd_modUnit (s : State) (u : Nat) (f : CmUnit → CmUnit) (pg : Nat) (F0 : Field) : (s.modUnit u f).rd pg F0 = s.rd pg F0 := rfl

theorem cmUnit_congr {s t : State} (h : t.cm = s.cm) (u : Nat) : t.cmUnit u = s.cmUnit u := by rw [State.cmUnit, State.cmUnit, h]

/-! ## What is kept of a unit -/

/-- The fields in which a Cellarmaster's page shows the unit: those below `CM.PLANNED`. -/
def unitField (F0 : Field) : Bool := decide (0x100 ≤ F0.off ∧ F0.off < 0x118 ∧ F0.lo < 32)

/-- What the page and the record of unit `u` tell is as before, and no event of it is gone. -/
structure UnitKept (u : Nat) (s t : State) : Prop where
  fields : ∀ F0, unitField F0 = true → t.rd (pgCM u) F0 = s.rd (pgCM u) F0
  raised : ∀ bit, bit < 32 → Raised s (pgCM u) bit → Raised t (pgCM u) bit
  ctrs : ∀ off, off < 0x1000 → t.ctr (pgCM u) off = s.ctr (pgCM u) off
  drops : (t.cmUnit u).drops = (s.cmUnit u).drops

section
variable {u : Nat} {z s t : State}

theorem UnitKept.refl (u : Nat) (s : State) : UnitKept u s s := ⟨fun _ _ => rfl, fun _ _ h => h, fun _ _ => rfl, rfl⟩

theorem UnitKept.trans (h : UnitKept u z s) (k : UnitKept u s t) : UnitKept u z t :=
  ⟨fun F0 hF => (k.fields F0 hF).trans (h.fields F0 hF), fun b hb hr => k.raised b hb (h.raised b hb hr), fun o ho => (k.ctrs o ho).trans (h.ctrs o ho),
    k.drops.trans h.drops⟩

theorem UnitKept.ite {c : Prop} [Decidable c] (h : UnitKept u z s) (k : UnitKept u z t) : UnitKept u z (if c then s else t) := by
  split
  · exact h
  · exact k

/-- Parts of the state that no unit's page shows. -/
theorem UnitKept.of (h : UnitKept u z s) (hregs : t.regs = s.regs := by rfl) (hvar : t.variant = s.variant := by rfl) (hctrs : t.ctrs = s.ctrs := by rfl)
    (hdrops : (t.cmUnit u).drops = (s.cmUnit u).drops := by rfl) : UnitKept u z t :=
  h.trans ⟨fun _ _ => State.rdi_congr hregs hvar .., fun _ _ hr => raised_congr hregs hr, fun _ _ => by rw [State.ctr, hctrs]; rfl, hdrops⟩

theorem msgCtr_ne_cm {off : Nat} (hu : u < 2) (hoff : off < 0x1000) : pgCM u * 4096 + off ≠ msgCtr := by
  simp only [pgCM, msgCtr, pgINTAKE]
  omega

theorem UnitKept.raise (h : UnitKept u z s) (hu : u < 2) (pg bit : Nat) : UnitKept u z (s.raise pg bit) := by
  refine h.trans ⟨fun F0 hF => ?_, fun b hb hr => raised_mono _ _ hb hr, fun off hoff => ctr_raise _ _ _ (msgCtr_ne_cm hu hoff), ?_⟩
  · refine State.rdi_raise_ne _ ?_
    simp only [unitField, decide_eq_true_eq] at hF
    simp only [fkey, F.EVT_RAW]
    omega
  · rw [cmUnit_congr (State.raise_cm ..)]

/-- The field `CM.PLANNED` of either unit. -/
theorem UnitKept.wrPlanned (h : UnitKept u z s) (w v : Nat) : UnitKept u z (s.wr (pgCM w) F.CM_PLANNED v) := by
  refine h.trans ⟨fun F0 hF => ?_, fun b _ hr => raised_wri ?_ hr, fun _ _ => rfl, rfl⟩
  · refine State.rdi_wri_ne _ _ ?_
    simp only [unitField, decide_eq_true_eq] at hF
    simp only [fkey, F.CM_PLANNED]
    omega
  · simp only [fkey, F.CM_PLANNED, F.EVT_RAW]
    omega

theorem UnitKept.cancelPlanned (h : UnitKept u z s) (hu : u < 2) (w : Nat) : UnitKept u z (s.cancelPlanned w) := by
  rw [State.cancelPlanned]
  have hcm : UnitKept u z { s with cm := { s.cm with announced := false, handover := none } } := h.of
  exact .ite ((hcm.wrPlanned ..).raise hu ..) h

theorem UnitKept.abandonSlice (h : UnitKept u z s) (hu : u < 2) : UnitKept u z (s.abandonSlice (1 - u)) := by
  rw [State.abandonSlice]
  refine .ite ?_ h
  have hmod : UnitKept u z (s.modUnit (1 - u) fun x => { x with slice := none, restart := some s.now }) :=
    h.of (hdrops := by rw [cmUnit_modUnit_other s hu])
  refine hmod.trans ⟨fun _ _ => State.rdi_count .., fun _ _ hr => raised_congr rfl hr, fun off hoff => State.ctr_count_ne _ _ ?_, rfl⟩
  simp only [pgCM]
  omega

/-! ## Retirement (R388) -/

/-- The page of a unit that is being retired. -/
def retireShown (s : State) (u : Nat) : State := ((s.wr (pgCM u) F.CM_CLAIM 0).wr (pgCM u) F.CM_ROLE roleRetired).raise (pgCM u) 8

/-- The unit is retired: it holds no claim, and what its page tells of its health and its last drop stays. -/
structure UnitRetired (u : Nat) (s t : State) : Prop where
  claim : t.claim u = 0
  role : t.role u = roleRetired
  raised : ∀ bit, bit < 32 → Raised s (pgCM u) bit → Raised t (pgCM u) bit
  told : Raised t (pgCM u) 8
  fields : ∀ F0, F0.off = 0x108 ∨ F0.off = 0x104 ∧ F0.lo = 8 → F0.lo < 32 → t.rd (pgCM u) F0 = s.rd (pgCM u) F0
  ctrs : ∀ off, off < 0x1000 → t.ctr (pgCM u) off = s.ctr (pgCM u) off

theorem retireShown_retired (hu : u < 2) : UnitRetired u s (retireShown s u) where
  claim := by
    rw [State.claim, retireShown, State.rd, State.rdi_raise_ne _ (fkey_ne_on_page _ (by decide)), State.rdi_wri_ne _ _ (fkey_ne_on_page _ (by decide)),
      State.rdi_wri_self]
    rfl
  role := by
    rw [State.role, retireShown, State.rd, State.rdi_raise_ne _ (fkey_ne_on_page _ (by decide)), State.rdi_wri_self]
    rfl
  raised := (((Onward.refl (pgCM u) s).wri).wri).raise.events
  told := raised_raise _ _ _ (by decide)
  fields F0 hF hlo := by
    refine (State.rdi_raise_ne _ ?_).trans ((State.rdi_wri_ne _ _ ?_).trans (State.rdi_wri_ne _ _ ?_))
    · simp only [fkey, F.EVT_RAW]
      omega
    · simp only [fkey, F.CM_ROLE]
      omega
    · simp only [fkey, F.CM_CLAIM]
      omega
  ctrs _ hoff := ctr_raise _ _ _ (msgCtr_ne_cm hu hoff)

theorem cmRetire_retired (hu : u < 2) : UnitRetired u s (s.cmRetire u) ∧ (s.cmRetire u).isRetired (pgCM u) = true := by
  have hshown := retireShown_retired (s := s) hu
  have heq : s.cmRetire u = ({ retireShown s u with retired := nput (retireShown s u).retired (pgCM u) 1 } : State).recount := by
    rw [State.cmRetire, retireShown]
  have hret : nget ({ retireShown s u with retired := nput (retireShown s u).retired (pgCM u) 1 } : State).retired (pgCM u) = 1 := nget_nput_self (retireShown s u).retired (pgCM u) 1
  have hkept : UnitKept u (retireShown s u) { retireShown s u with retired := nput (retireShown s u).retired (pgCM u) 1 } := (UnitKept.refl u _).of
  rw [heq]
  generalize retireShown s u = w at *
  generalize ({ w with retired := nput w.retired (pgCM u) 1 } : State) = v at *
  have hpg : pgBIST < pgCM u := by
    simp only [pgBIST, pgCM]
    omega
  have hrd (F0 : Field) : v.recount.rd (pgCM u) F0 = v.rd (pgCM u) F0 := rdi_recount_above v hpg
  have hev (bit : Nat) (hb : bit < 32) (hr : Raised w (pgCM u) bit) : Raised v.recount (pgCM u) bit :=
    (Onward.refl (pgCM u) v).recount.events bit hb (hkept.raised bit hb hr)
  have hfield {F0 : Field} (hF : unitField F0 = true) : v.recount.rd (pgCM u) F0 = w.rd (pgCM u) F0 := (hrd F0).trans (hkept.fields F0 hF)
  refine ⟨⟨(hfield (by decide)).trans hshown.claim, (hfield (by decide)).trans hshown.role, fun bit hb hr => hev bit hb (hshown.raised bit hb hr),
    hev 8 (by decide) hshown.told, fun F0 hF hlo => (hfield ?_).trans (hshown.fields F0 hF hlo), fun off hoff => ?_⟩, ?_⟩
  · simp only [unitField, decide_eq_true_eq]
    omega
  · rw [ctr_recount _ (msgCtr_ne_cm hu hoff), hkept.ctrs off hoff, hshown.ctrs off hoff]
  · rw [State.isRetired, (recount_quiet v).retired, hret]
    rfl

end

end Sys2Proof
end

section
/-! SUPPORT. The drop of a claim (R387, R388). -/

namespace Sys2Proof

set_option Elab.async false

open Machine

/-! ## A claim is given up -/

/-- The unit has given its claim up for a cause, and takes the role `r`. -/
def claimGiven (s : State) (u cause r : Nat) : State :=
  let s1 := (((s.wr (pgCM u) F.CM_CLAIM 0).wr (pgCM u) F.CM_DROP_CAUSE cause).wr (pgCM u) F.CM_HEALTH_GOOD_COPIES 0).raise (pgCM u) 0
  let s2 := if cause = 4 then s1.count (pgCM u) 0x06C 1 else s1
  (s2.modUnit u fun x => { x with diag := 0, slice := none, restart := none, readyMarks := 0 }).wr (pgCM u) F.CM_ROLE r

/-- The drop counts for the unit's retirement. -/
def dropCounted (s : State) (u : Nat) (ds : List Nat) : State :=
  ((s.modUnit u fun x => { x with drops := ds }).wr (pgCM u) F.CM_DROPS_24H (min ds.length 15)).count (pgCM u) 0x060 1

/-- What the drop of a claim does to the other unit and to a changeover under way. -/
def dropSettled (s : State) (u clk : Nat) (held planned : Bool) : State :=
  let s5 := if held then s.abandonSlice (1 - u) else s
  let alone := s5.claim 0 == 0 && s5.claim 1 == 0
  let s6 := if held && alone then { s5 with cm := { s5.cm with dropClk := some clk, yieldReq := false, copy := none } } else s5
  if planned then s6
  else if held then { s6 with cm := { s6.cm with announced := false, handover := none } }.wr (pgCM u) F.CM_PLANNED 0
  else s6.cancelPlanned (1 - u)

section
variable {s : State} {u cause : Nat}

/-- What a reader finds of a unit that has given its claim up. -/
structure ClaimGiven (s t : State) (u cause r : Nat) : Prop where
  claim : t.claim u = 0
  cause : t.rd (pgCM u) F.CM_DROP_CAUSE = cause
  copies : t.rd (pgCM u) F.CM_HEALTH_GOOD_COPIES = 0
  role : t.role u = r
  raised : Raised t (pgCM u) 0
  health : ∀ F0, F0.off = 0x108 → F0.lo < 8 → t.rd (pgCM u) F0 = s.rd (pgCM u) F0

theorem ClaimGiven.kept {t v : State} {r : Nat} (h : ClaimGiven s t u cause r) (k : UnitKept u t v) : ClaimGiven s v u cause r :=
  ⟨(k.fields _ (by decide)).trans h.claim, (k.fields _ (by decide)).trans h.cause, (k.fields _ (by decide)).trans h.copies,
    (k.fields _ (by decide)).trans h.role, k.raised 0 (by decide) h.raised, fun F0 hF hlo => by
      refine (k.fields _ ?_).trans (h.health F0 hF hlo)
      simp only [unitField, decide_eq_true_eq]
      omega⟩

/-- The page of the unit with its claim gone. -/
def claimShownGone (s : State) (u cause : Nat) : State :=
  (((s.wr (pgCM u) F.CM_CLAIM 0).wr (pgCM u) F.CM_DROP_CAUSE cause).wr (pgCM u) F.CM_HEALTH_GOOD_COPIES 0).raise (pgCM u) 0

theorem claimShownGone_spec (s : State) (u : Nat) {cause : Nat} (hcause : cause < 256) : (claimShownGone s u cause).claim u = 0 ∧
    (claimShownGone s u cause).rd (pgCM u) F.CM_DROP_CAUSE = cause ∧ (claimShownGone s u cause).rd (pgCM u) F.CM_HEALTH_GOOD_COPIES = 0 ∧
    (∀ F0, F0.off = 0x108 → F0.lo < 8 → (claimShownGone s u cause).rd (pgCM u) F0 = s.rd (pgCM u) F0) := by
  refine ⟨?_, ?_, ?_, fun F0 hF hlo => ?_⟩
  · rw [State.claim, claimShownGone, State.rd, State.rdi_raise_ne _ (fkey_ne_on_page _ (by decide)), State.rdi_wri_ne _ _ (fkey_ne_on_page _ (by decide)),
      State.rdi_wri_ne _ _ (fkey_ne_on_page _ (by decide)), State.rdi_wri_self]
    rfl
  · rw [claimShownGone, State.rd, State.rdi_raise_ne _ (fkey_ne_on_page _ (by decide)), State.rdi_wri_ne _ _ (fkey_ne_on_page _ (by decide)), State.rdi_wri_self]
    exact Nat.mod_eq_of_lt hcause
  · rw [claimShownGone, State.rd, State.rdi_raise_ne _ (fkey_ne_on_page _ (by decide)), State.rdi_wri_self]
    rfl
  · refine (State.rdi_raise_ne _ ?_).trans ((State.rdi_wri_ne _ _ ?_).trans ((State.rdi_wri_ne _ _ ?_).trans (State.rdi_wri_ne _ _ ?_)))
    · simp only [fkey, F.EVT_RAW]
      omega
    · simp only [fkey, F.CM_HEALTH_GOOD_COPIES]
      omega
    · simp only [fkey, F.CM_DROP_CAUSE]
      omega
    · simp only [fkey, F.CM_CLAIM]
      omega

/-- The missed heartbeat is counted; the role is taken. -/
theorem claimGiven_eq (s : State) (u cause r : Nat) : claimGiven s u cause r =
    ((if cause = 4 then (claimShownGone s u cause).count (pgCM u) 0x06C 1 else claimShownGone s u cause).modUnit u
      fun x => { x with diag := 0, slice := none, restart := none, readyMarks := 0 }).wr (pgCM u) F.CM_ROLE r := rfl

theorem wrRole_field {t : State} {F0 : Field} (r : Nat) (hF : 0x100 ≤ F0.off ∧ F0.lo < 32 ∧ (F0.off ≠ 0x104 ∨ F0.lo ≠ 0)) :
    (t.wr (pgCM u) F.CM_ROLE r).rd (pgCM u) F0 = t.rd (pgCM u) F0 := by
  refine State.rdi_wri_ne _ _ ?_
  simp only [fkey, F.CM_ROLE]
  omega

theorem claimGiven_given (hcause : cause < 256) {r : Nat} (hr : r < 8) : ClaimGiven s (claimGiven s u cause r) u cause r := by
  obtain ⟨hclaim, hcs, hgood, hhealth⟩ := claimShownGone_spec s u hcause
  have hraised : Raised (claimShownGone s u cause) (pgCM u) 0 := raised_raise _ _ _ (by decide)
  rw [claimGiven_eq]
  generalize claimShownGone s u cause = t at *
  have hcount : ∀ pg F0, ((if cause = 4 then t.count (pgCM u) 0x06C 1 else t).modUnit u
      fun x => { x with diag := 0, slice := none, restart := none, readyMarks := 0 }).rd pg F0 = t.rd pg F0 := by
    intro pg F0
    rw [rd_modUnit]
    split
    · exact State.rdi_count ..
    · rfl
  have hcount' : Raised ((if cause = 4 then t.count (pgCM u) 0x06C 1 else t).modUnit u
      fun x => { x with diag := 0, slice := none, restart := none, readyMarks := 0 }) (pgCM u) 0 := by
    rw [Raised, hcount]
    exact hraised
  generalize ((if cause = 4 then t.count (pgCM u) 0x06C 1 else t).modUnit u
      fun x => { x with diag := 0, slice := none, restart := none, readyMarks := 0 }) = v at *
  refine ⟨?_, ?_, ?_, ?_, ?_, fun F0 hF hlo => ?_⟩
  · exact (wrRole_field r (by decide)).trans ((hcount ..).trans hclaim)
  · exact (wrRole_field r (by decide)).trans ((hcount ..).trans hcs)
  · exact (wrRole_field r (by decide)).trans ((hcount ..).trans hgood)
  · exact (State.rdi_wri_self ..).trans (Nat.mod_eq_of_lt hr)
  · exact raised_wri (fkey_ne_on_page _ (by decide)) hcount'
  · exact (wrRole_field r (by omega)).trans ((hcount ..).trans (hhealth F0 hF hlo))

theorem ctr_claimGiven (hu : u < 2) {r off : Nat} (hoff : off < 0x1000) (hne : off = 0x06C → cause ≠ 4) :
    (claimGiven s u cause r).ctr (pgCM u) off = s.ctr (pgCM u) off := by
  have hshown : (claimShownGone s u cause).ctr (pgCM u) off = s.ctr (pgCM u) off := ctr_raise _ _ _ (msgCtr_ne_cm hu hoff)
  rw [claimGiven_eq]
  generalize claimShownGone s u cause = t at *
  refine Eq.trans ?_ hshown
  change (if cause = 4 then t.count (pgCM u) 0x06C 1 else t).ctr (pgCM u) off = _
  split
  · refine State.ctr_count_ne _ _ ?_
    omega
  · rfl

theorem ctr_claimGiven_heartbeat (hu : u < 2) {r : Nat} : (claimGiven s u 4 r).ctr (pgCM u) 0x06C = s.ctr (pgCM u) 0x06C + 1 := by
  have hshown : (claimShownGone s u 4).ctr (pgCM u) 0x06C = s.ctr (pgCM u) 0x06C := ctr_raise _ _ _ (msgCtr_ne_cm hu (by decide))
  rw [claimGiven_eq]
  generalize claimShownGone s u 4 = t at *
  exact (State.ctr_count_self t (pgCM u) 0x06C 1).trans (congrArg (· + 1) hshown)

/-! ## A drop that counts -/

theorem dropCounted_given {t : State} {r : Nat} (h : ClaimGiven s t u cause r) (ds : List Nat) : ClaimGiven s (dropCounted t u ds) u cause r := by
  have hfield (F0 : Field) (hF : 0x100 ≤ F0.off ∧ F0.lo < 32 ∧ (F0.off ≠ 0x104 ∨ F0.lo ≠ 16)) : (dropCounted t u ds).rd (pgCM u) F0 = t.rd (pgCM u) F0 := by
    refine (State.rdi_count ..).trans ((State.rdi_wri_ne _ _ ?_).trans (rd_modUnit ..))
    simp only [fkey, F.CM_DROPS_24H]
    omega
  have hraised : Raised (dropCounted t u ds) (pgCM u) 0 := by
    have hmod : Raised (t.modUnit u fun x => { x with drops := ds }) (pgCM u) 0 := h.raised
    exact raised_congr (s := (t.modUnit u fun x => { x with drops := ds }).wr (pgCM u) F.CM_DROPS_24H (min ds.length 15)) rfl
      (raised_wri (fkey_ne_on_page _ (by decide)) hmod)
  exact ⟨(hfield _ (by decide)).trans h.claim, (hfield _ (by decide)).trans h.cause, (hfield _ (by decide)).trans h.copies,
    (hfield _ (by decide)).trans h.role, hraised, fun F0 hF hlo => (hfield F0 (by omega)).trans (h.health F0 hF hlo)⟩

theorem ctr_dropCounted_self (t : State) (ds : List Nat) : (dropCounted t u ds).ctr (pgCM u) 0x060 = t.ctr (pgCM u) 0x060 + 1 := State.ctr_count_self ..

theorem ctr_dropCounted_ne (t : State) (ds : List Nat) {off : Nat} (h : off ≠ 0x060) : (dropCounted t u ds).ctr (pgCM u) off = t.ctr (pgCM u) off :=
  State.ctr_count_ne _ _ (by omega)

theorem drops_dropCounted (t : State) (ds : List Nat) : ((dropCounted t u ds).cmUnit u).drops = ds := by
  have hunit : (dropCounted t u ds).cmUnit u = (t.modUnit u fun x => { x with drops := ds }).cmUnit u := cmUnit_congr rfl u
  rw [hunit, cmUnit_modUnit_self]

/-- The other unit and the changeover: nothing of unit `u`. -/
theorem dropSettled_kept (s : State) (hu : u < 2) (clk : Nat) (held planned : Bool) : UnitKept u s (dropSettled s u clk held planned) := by
  unfold dropSettled
  extract_lets s5 alone cm5 s6 cm6
  have h5 : UnitKept u s s5 := .ite ((UnitKept.refl u s).abandonSlice hu) (.refl u s)
  have h6 : UnitKept u s s6 := .ite h5.of h5
  refine .ite h6 (.ite ?_ (h6.cancelPlanned hu _))
  have hcm : UnitKept u s { s6 with cm := { s6.cm with announced := false, handover := none } } := h6.of
  exact hcm.wrPlanned ..

theorem drop_eq (s : State) (u cause : Nat) : s.drop u cause =
    (let planned := cause == 2 || cause == 8
    let s3 := claimGiven s u cause (if planned then roleSync else roleSelftest)
    let s4 := if planned then (if s3.reloadDue u then s3.reloadCm u else s3) else dropCounted s3 u (s.now :: s.recentDrops u)
    let s7 := dropSettled s4 u s.now (s.claim u != 0) planned
    if !planned && decide (3 ≤ (s7.cmUnit u).drops.length) then s7.cmRetire u else s7) := by
  unfold State.drop dropSettled dropCounted claimGiven
  rfl

/-- The unit whose drop counts, before its retirement is decided. -/
def dropDone (s : State) (u cause : Nat) : State :=
  dropSettled (dropCounted (claimGiven s u cause roleSelftest) u (s.now :: s.recentDrops u)) u s.now (s.claim u != 0) false

theorem drop_of_counts (h2 : cause ≠ 2) (h8 : cause ≠ 8) :
    s.drop u cause = if 3 ≤ ((dropDone s u cause).cmUnit u).drops.length then (dropDone s u cause).cmRetire u else dropDone s u cause := by
  have hplanned : (cause == 2 || cause == 8) = false := by simp [h2, h8]
  rw [drop_eq, hplanned]
  dsimp only [Bool.not_false, Bool.true_and, Bool.false_eq_true, if_false]
  rw [dropDone]
  simp

section
variable (hu : u < 2)
include hu

theorem dropDone_given (hcause : cause < 256) : ClaimGiven s (dropDone s u cause) u cause roleSelftest :=
  (dropCounted_given (claimGiven_given hcause (by decide)) _).kept (dropSettled_kept _ hu ..)

theorem drops_dropDone : ((dropDone s u cause).cmUnit u).drops = s.now :: s.recentDrops u :=
  (dropSettled_kept _ hu ..).drops.trans (drops_dropCounted ..)

theorem counted_dropDone : (dropDone s u cause).ctr (pgCM u) 0x060 = s.ctr (pgCM u) 0x060 + 1 :=
  ((dropSettled_kept _ hu ..).ctrs _ (by decide)).trans
    ((ctr_dropCounted_self ..).trans (congrArg (· + 1) (ctr_claimGiven hu (by decide) (by omega))))

theorem ctr_dropDone_ne {off : Nat} (hoff : off < 0x1000) (hne : off ≠ 0x060) (h4 : off = 0x06C → cause ≠ 4) :
    (dropDone s u cause).ctr (pgCM u) off = s.ctr (pgCM u) off :=
  ((dropSettled_kept _ hu ..).ctrs off hoff).trans ((ctr_dropCounted_ne _ _ hne).trans (ctr_claimGiven hu hoff h4))

theorem missed_dropDone : (dropDone s u 4).ctr (pgCM u) 0x06C = s.ctr (pgCM u) 0x06C + 1 :=
  ((dropSettled_kept _ hu ..).ctrs _ (by decide)).trans ((ctr_dropCounted_ne _ _ (by decide)).trans (ctr_claimGiven_heartbeat hu))

/-- A drop that counts: the unit runs its self-test, or is retired at the third. -/
theorem drop_dropped (hcause : cause < 256) (h2 : cause ≠ 2) (h8 : cause ≠ 8) : Dropped s (s.drop u cause) u cause ∧
    (∀ F0, F0.off = 0x108 → F0.lo < 8 → (s.drop u cause).rd (pgCM u) F0 = s.rd (pgCM u) F0) ∧
    (∀ off, off < 0x1000 → (s.drop u cause).ctr (pgCM u) off = (dropDone s u cause).ctr (pgCM u) off) := by
  have hgiven := dropDone_given (s := s) hu hcause
  have hlen := congrArg List.length (drops_dropDone (s := s) (cause := cause) hu)
  have hcount := counted_dropDone (s := s) (cause := cause) hu
  rw [List.length_cons] at hlen
  rw [drop_of_counts h2 h8]
  generalize dropDone s u cause = t at *
  split
  · obtain ⟨hretired, hflag⟩ := cmRetire_retired (s := t) hu
    refine ⟨⟨hretired.claim, (hretired.fields _ (by decide) (by decide)).trans hgiven.cause, (hretired.fields _ (by decide) (by decide)).trans hgiven.copies,
      hretired.raised 0 (by decide) hgiven.raised, (hretired.ctrs _ (by decide)).trans hcount, fun hfew => absurd hfew (by omega),
      fun _ => ⟨hretired.role, hflag⟩⟩, fun F0 hF hlo => (hretired.fields F0 (.inl hF) (by omega)).trans (hgiven.health F0 hF hlo), hretired.ctrs⟩
  · exact ⟨⟨hgiven.claim, hgiven.cause, hgiven.copies, hgiven.raised, hcount, fun _ => hgiven.role, fun hmany => absurd hmany (by omega)⟩, hgiven.health,
      fun _ _ => rfl⟩

end

theorem Dropped.of {z t : State} (h : Dropped s t u cause) (hctr : s.ctr (pgCM u) 0x060 = z.ctr (pgCM u) 0x060)
    (hdrops : s.recentDrops u = z.recentDrops u) : Dropped z t u cause := by
  obtain ⟨hclaim, hcs, hgood, hraised, hcount, hfew, hmany⟩ := h
  exact ⟨hclaim, hcs, hgood, hraised, by rw [hcount, hctr], by rwa [← hdrops], by rwa [← hdrops]⟩

/-! ## A unit outvoted (R382) -/

theorem fw_claimGiven (s : State) (u cause r : Nat) : (claimGiven s u cause r).fw = s.fw := by
  have hshown : (claimShownGone s u cause).fw = s.fw := State.raise_fw ..
  rw [claimGiven_eq]
  generalize claimShownGone s u cause = t at *
  refine Eq.trans ?_ hshown
  change (if cause = 4 then t.count (pgCM u) 0x06C 1 else t).fw = _
  split
  · rfl
  · rfl

theorem dropOutvoted (hu : u < 2) (hact : s.cmActivation = none) : ClaimGiven s (s.drop u 8) u 8 roleSync ∧
    (s.drop u 8).ctr (pgCM u) 0x060 = s.ctr (pgCM u) 0x060 := by
  have hgiven : ClaimGiven s (claimGiven s u 8 roleSync) u 8 roleSync := claimGiven_given (by decide) (by decide)
  have hctr : (claimGiven s u 8 roleSync).ctr (pgCM u) 0x060 = s.ctr (pgCM u) 0x060 := ctr_claimGiven hu (by decide) (by decide)
  have hdue : (claimGiven s u 8 roleSync).reloadDue u = false := by
    rw [State.reloadDue, State.cmActivation, fw_claimGiven]
    exact (congrArg (Option.any _) hact).trans rfl
  have hexec : s.drop u 8 = dropSettled (claimGiven s u 8 roleSync) u s.now (s.claim u != 0) true := by
    have hplanned : ((8 : Nat) == 2 || (8 : Nat) == 8) = true := rfl
    rw [drop_eq, hplanned]
    simp only [if_true, hdue, Bool.false_eq_true, if_false, Bool.not_true, Bool.false_and]
  rw [hexec]
  have hkept := dropSettled_kept (claimGiven s u 8 roleSync) hu s.now (s.claim u != 0) true
  exact ⟨hgiven.kept hkept, (hkept.ctrs _ (by decide)).trans hctr⟩

end

end Sys2Proof
end

section
/-! PROOF. O42: the Cellarmaster pair (R379–R393, R456). -/

namespace Sys2Proof

set_option Elab.async false

open Machine

/-! ## Claims, heartbeats and diagnostic passes (R382, R383, R387) -/

section
variable {unit : Fin 2} {s : State}

theorem stageCommand_accepted (cmd : StageCmd) (hhigh : s.higher = some unit.val) :
    ∃ t, exec (.stageCommand unit cmd) s = .next t ∧ (∀ gs, cmd = .plan gs → t = { s with gate := { s.gate with plan := gs, trimmed := [] } }) ∧
      ((∀ gs, cmd ≠ .plan gs) → t = s) := by
  have hexec : exec (.stageCommand unit cmd) s = .next (match cmd with
      | .plan gs => { s with gate := { s.gate with plan := gs, trimmed := [] } }
      | .completion => s
      | .switcher => s) := congrArg Host.Outcome.next (if_pos hhigh)
  cases cmd with
  | plan gs =>
    refine ⟨_, hexec, fun gs' h => ?_, fun h => absurd rfl (h gs)⟩
    cases h
    rfl
  | completion => exact ⟨_, hexec, fun _ h => StageCmd.noConfusion h, fun _ => rfl⟩
  | switcher => exact ⟨_, hexec, fun _ h => StageCmd.noConfusion h, fun _ => rfl⟩

theorem stageCommand_discarded (cmd : StageCmd) (hhigh : s.higher ≠ some unit.val) :
    ∃ t, exec (.stageCommand unit cmd) s = .next t ∧ t = { s with ctrs := t.ctrs } ∧
      t.ctr (pgCM unit.val) 0x078 = s.ctr (pgCM unit.val) 0x078 + 1 :=
  ⟨_, congrArg Host.Outcome.next (if_neg hhigh), rfl, State.ctr_count_self ..⟩

theorem claimOutvote_drops (hclaim : s.claim unit.val ≠ 0) (hhigh : s.higher = some (1 - unit.val)) (hact : s.cmActivation = none) :
    ∃ t, exec (.claimOutvote unit) s = .next t ∧ t.claim unit.val = 0 ∧ t.rd (pgCM unit.val) F.CM_DROP_CAUSE = 8 ∧ t.role unit.val = roleSync ∧
      Raised t (pgCM unit.val) 0 ∧ t.ctr (pgCM unit.val) 0x060 = s.ctr (pgCM unit.val) 0x060 := by
  obtain ⟨hgiven, hctr⟩ := dropOutvoted (s := s) unit.isLt hact
  exact ⟨_, congrArg Host.Outcome.next (if_pos ⟨hclaim, hhigh⟩), hgiven.claim, hgiven.cause, hgiven.role, hgiven.raised, hctr⟩

theorem cmUnit_modUnit_ne (s : State) (unit : Fin 2) (f : CmUnit → CmUnit) : (s.modUnit unit.val f).cmUnit (1 - unit.val) = s.cmUnit (1 - unit.val) := by
  have hother : 1 - (1 - unit.val) = unit.val := by omega
  have h := cmUnit_modUnit_other s (u := 1 - unit.val) (by omega) f
  rwa [hother] at h

theorem cmHeartbeat_beats (hclaim : s.claim unit.val ≠ 0) :
    ∃ t, exec (.cmHeartbeat unit) s = .next t ∧ t = { s with cm := t.cm } ∧
      t.cmUnit unit.val = { s.cmUnit unit.val with hbClk := s.now } ∧ t.cmUnit (1 - unit.val) = s.cmUnit (1 - unit.val) :=
  ⟨_, congrArg Host.Outcome.next (if_neg hclaim), rfl, cmUnit_modUnit_self .., cmUnit_modUnit_ne ..⟩

theorem hbMiss_drops (hclaim : s.claim unit.val ≠ 0) (hlate : (s.cmUnit unit.val).hbClk + s.rd (pgCM unit.val) F.CM_HB_US * clkUs ≤ s.now) :
    ∃ t, exec (.hbMiss unit) s = .next t ∧ Dropped s t unit.val 4 ∧ t.ctr (pgCM unit.val) 0x06C = s.ctr (pgCM unit.val) 0x06C + 1 := by
  obtain ⟨hdropped, -, hctrs⟩ := drop_dropped (s := s) (cause := 4) unit.isLt (by decide) (by decide) (by decide)
  exact ⟨_, congrArg Host.Outcome.next (if_pos ⟨hclaim, hlate⟩), hdropped, (hctrs _ (by decide)).trans (missed_dropDone unit.isLt)⟩

/-- The page with the result of a diagnostic pass. -/
def diagShown (s : State) (u : Nat) (ok sramOk : Bool) : State :=
  ((s.count (pgCM u) 0x05C 1).wr (pgCM u) F.CM_HEALTH_DIAG_OK (boolNat (ok && sramOk))).wr (pgCM u) F.CM_HEALTH_SRAM_OK (boolNat sramOk)

theorem boolNat_mod_two (b : Bool) : boolNat b % 2 ^ 1 = boolNat b := by cases b <;> rfl

theorem diagShown_spec (s : State) (u : Nat) (ok sramOk : Bool) : (diagShown s u ok sramOk).rd (pgCM u) F.CM_HEALTH_DIAG_OK = boolNat (ok && sramOk) ∧
    (diagShown s u ok sramOk).rd (pgCM u) F.CM_HEALTH_SRAM_OK = boolNat sramOk ∧ (diagShown s u ok sramOk).claim u = s.claim u := by
  refine ⟨?_, (State.rdi_wri_self ..).trans (boolNat_mod_two _), ?_⟩
  · rw [diagShown, State.rd, State.rdi_wri_ne _ _ (fkey_ne_on_page _ (by decide)), State.rdi_wri_self]
    exact boolNat_mod_two _
  · rw [State.claim, diagShown, State.rd, State.rdi_wri_ne _ _ (fkey_ne_on_page _ (by decide)), State.rdi_wri_ne _ _ (fkey_ne_on_page _ (by decide)),
      State.rdi_count]
    rfl

theorem diagPass_judges (ok sramOk : Bool) (hclaim : s.claim unit.val ≠ 0) (hdiag : (s.cmUnit unit.val).diag = 1) :
    ∃ t, exec (.diagPass unit ok sramOk) s = .next t ∧ t.ctr (pgCM unit.val) 0x05C = s.ctr (pgCM unit.val) 0x05C + 1 ∧
      t.rd (pgCM unit.val) F.CM_HEALTH_DIAG_OK = boolNat (ok && sramOk) ∧ t.rd (pgCM unit.val) F.CM_HEALTH_SRAM_OK = boolNat sramOk ∧
      ((ok && sramOk) = true → (t.cmUnit unit.val).diag = 2 ∧ t.claim unit.val = s.claim unit.val) ∧
      ((ok && sramOk) = false → Dropped s t unit.val 1) := by
  have hexec : exec (.diagPass unit ok sramOk) s = .next (if ok && sramOk then
      (diagShown s unit.val ok sramOk).modUnit unit.val fun x => { x with diag := 2 } else (diagShown s unit.val ok sramOk).drop unit.val 1) :=
    congrArg Host.Outcome.next (if_neg (by simp [hclaim, hdiag]))
  obtain ⟨hok, hsram, hsame⟩ := diagShown_spec s unit.val ok sramOk
  have hctr : (diagShown s unit.val ok sramOk).ctr (pgCM unit.val) 0x05C = s.ctr (pgCM unit.val) 0x05C + 1 := State.ctr_count_self s (pgCM unit.val) 0x05C 1
  have hctr' : (diagShown s unit.val ok sramOk).ctr (pgCM unit.val) 0x060 = s.ctr (pgCM unit.val) 0x060 := State.ctr_count_ne (off := 0x05C) s 1 (by omega)
  have hdrops : (diagShown s unit.val ok sramOk).recentDrops unit.val = s.recentDrops unit.val := rfl
  generalize diagShown s unit.val ok sramOk = t at *
  by_cases hpass : (ok && sramOk) = true
  · rw [if_pos hpass] at hexec
    refine ⟨_, hexec, hctr, hok, hsram, fun _ => ⟨?_, hsame⟩, fun h => absurd hpass (by rw [h]; decide)⟩
    rw [cmUnit_modUnit_self]
  · rw [if_neg hpass] at hexec
    obtain ⟨hdropped, hhealth, hctrs⟩ := drop_dropped (s := t) (cause := 1) unit.isLt (by decide) (by decide) (by decide)
    exact ⟨_, hexec, (hctrs _ (by decide)).trans ((ctr_dropDone_ne unit.isLt (by decide) (by decide) (by decide)).trans hctr),
      (hhealth _ rfl (by decide)).trans hok, (hhealth _ rfl (by decide)).trans hsram, fun h => absurd h hpass, fun _ => hdropped.of hctr' hdrops⟩

theorem diagLate_drops (hclaim : s.claim unit.val ≠ 0) (hdiag : (s.cmUnit unit.val).diag = 3) :
    ∃ t, exec (.diagLate unit) s = .next t ∧ Dropped s t unit.val 3 := by
  obtain ⟨hdropped, -, -⟩ := drop_dropped (s := s) (cause := 3) unit.isLt (by decide) (by decide) (by decide)
  exact ⟨_, congrArg Host.Outcome.next (if_pos ⟨hclaim, hdiag⟩), hdropped⟩

/-- The detector that a hardware drop shows. -/
def detectorShown (s : State) (u cause : Nat) : State :=
  if cause = 1 then s.wr (pgCM u) F.CM_HEALTH_CLK_OK 0 else if cause = 0 then s.wr (pgCM u) F.CM_HEALTH_SRAM_OK 0 else s

theorem detectorShown_regs (s : State) (u cause : Nat) : RegsOnly s (detectorShown s u cause) := by
  rw [detectorShown]
  split
  · exact (regsOnly_refl s).wr ..
  · split
    · exact (regsOnly_refl s).wr ..
    · exact regsOnly_refl s

theorem cmHwDrop_drops (cause : Fin 3) (hclaim : s.claim unit.val ≠ 0) :
    ∃ t, exec (.cmHwDrop unit cause) s = .next t ∧ Dropped s t unit.val (5 + cause.val) := by
  have hregs := detectorShown_regs s unit.val cause.val
  have hexec : exec (.cmHwDrop unit cause) s = .next ((detectorShown s unit.val cause.val).drop unit.val (5 + cause.val)) :=
    congrArg Host.Outcome.next (if_neg hclaim)
  generalize detectorShown s unit.val cause.val = t at *
  obtain ⟨hdropped, -, -⟩ := drop_dropped (s := t) (cause := 5 + cause.val) unit.isLt (by omega) (by omega) (by omega)
  exact ⟨_, hexec, hdropped.of (by rw [State.ctr, hregs]; rfl) (by rw [State.recentDrops, hregs]; rfl)⟩

/-! ## A unit has reloaded (R388, R456) -/

/-- The page of a unit that has reloaded well. -/
def syncShown (s : State) (u : Nat) : State :=
  (((s.wr (pgCM u) F.CM_ROLE roleSync).wr (pgCM u) F.CM_HEALTH_BIST_OK 1).wr (pgCM u) F.CM_HEALTH_CLK_OK 1).wr (pgCM u) F.CM_HEALTH_GOOD_COPIES 0

theorem syncShown_spec (s : State) (u : Nat) : (syncShown s u).role u = roleSync ∧ (syncShown s u).rd (pgCM u) F.CM_HEALTH_BIST_OK = 1 ∧
    (syncShown s u).rd (pgCM u) F.CM_HEALTH_CLK_OK = 1 := by
  refine ⟨?_, ?_, ?_⟩
  · rw [State.role, syncShown, State.rd, State.rdi_wri_ne _ _ (fkey_ne_on_page _ (by decide)), State.rdi_wri_ne _ _ (fkey_ne_on_page _ (by decide)),
      State.rdi_wri_ne _ _ (fkey_ne_on_page _ (by decide)), State.rdi_wri_self]
    rfl
  · rw [syncShown, State.rd, State.rdi_wri_ne _ _ (fkey_ne_on_page _ (by decide)), State.rdi_wri_ne _ _ (fkey_ne_on_page _ (by decide)), State.rdi_wri_self]
    rfl
  · rw [syncShown, State.rd, State.rdi_wri_ne _ _ (fkey_ne_on_page _ (by decide)), State.rdi_wri_self]
    rfl

theorem cmReloadDone_syncs (hrole : s.role unit.val = roleSelftest) :
    ∃ t, exec (.cmReloadDone unit true) s = .next t ∧ t = { s with regs := t.regs } ∧ t.role unit.val = roleSync ∧
      t.rd (pgCM unit.val) F.CM_HEALTH_BIST_OK = 1 ∧ t.rd (pgCM unit.val) F.CM_HEALTH_CLK_OK = 1 ∧
      t.rd (pgCM unit.val) F.CM_HEALTH_GOOD_COPIES = 0 := by
  have hexec : exec (.cmReloadDone unit true) s = .next (syncShown s unit.val) := by
    change execCmReloadDone unit true s = _
    rw [execCmReloadDone, if_neg (not_not.mpr hrole), if_pos rfl]
    rfl
  obtain ⟨hsync, hbist, hclk⟩ := syncShown_spec s unit.val
  exact ⟨_, hexec, rfl, hsync, hbist, hclk, State.rdi_wri_self ..⟩

theorem cmReloadDone_retires (hrole : s.role unit.val = roleSelftest) (hact : s.cmActivation = none) :
    ∃ t, exec (.cmReloadDone unit false) s = .next t ∧ t.role unit.val = roleRetired ∧ t.isRetired (pgCM unit.val) = true ∧
      Raised t (pgCM unit.val) 8 := by
  have hexec : exec (.cmReloadDone unit false) s = .next (s.cmRetire unit.val) := by
    change execCmReloadDone unit false s = _
    rw [execCmReloadDone, if_neg (not_not.mpr hrole), hact]
    rfl
  obtain ⟨hretired, hflag⟩ := cmRetire_retired (s := s) unit.isLt
  exact ⟨_, hexec, hretired.role, hflag, hretired.told⟩

/-! ## The self-test of the standby (R392) -/

section
variable (hrole : s.role unit.val = roleSync ∨ s.role unit.val = roleReady)
include hrole

theorem cmSelftestSlice_starts (hslice : (s.cmUnit unit.val).slice = none) (hdeferred : (s.cmUnit unit.val).deferred = false)
    (hrestart : (s.cmUnit unit.val).restart = none) :
    ∃ t, exec (.cmSelftestSlice unit none) s = .next t ∧ t = { s with cm := t.cm, ctrs := t.ctrs } ∧
      (200 * clkUs ≤ s.toMark → t.cmUnit unit.val = { s.cmUnit unit.val with slice := some s.now } ∧
        t.ctr (pgCM unit.val) 0x070 = s.ctr (pgCM unit.val) 0x070 + 1) ∧
      (s.toMark < 200 * clkUs → t.cmUnit unit.val = { s.cmUnit unit.val with deferred := true } ∧ t.ctrs = s.ctrs) := by
  have hexec : exec (.cmSelftestSlice unit none) s = .next (if s.toMark < 200 * clkUs then
      s.modUnit unit.val fun x => { x with deferred := true } else (s.modUnit unit.val fun x => { x with slice := some s.now }).count (pgCM unit.val) 0x070 1) := by
    have hfree : ((s.cmUnit unit.val).deferred || (s.cmUnit unit.val).restart.isSome) = false := by rw [hdeferred, hrestart]; rfl
    refine congrArg Host.Outcome.next ?_
    unfold State.cmSlice
    extract_lets x
    rw [if_neg (by rcases hrole with h | h <;> simp [h])]
    split
    · rw [if_neg (by rw [hfree]; decide)]
      rfl
    · rename_i hnone _
      cases hnone
    · rename_i hnot _
      exact absurd hslice (hnot rfl)
  by_cases hlate : s.toMark < 200 * clkUs
  · rw [if_pos hlate] at hexec
    exact ⟨_, hexec, rfl, fun h => absurd hlate (Nat.not_lt.mpr h), fun _ => ⟨cmUnit_modUnit_self .., rfl⟩⟩
  · rw [if_neg hlate] at hexec
    exact ⟨_, hexec, rfl, fun _ => ⟨cmUnit_modUnit_self s unit.val fun x => { x with slice := some s.now }, State.ctr_count_self ..⟩, fun h => absurd h hlate⟩

/-- The slice in progress has ended. -/
def sliceOver (s : State) (u : Nat) (ok : Bool) : State :=
  (s.modUnit u fun x => { x with slice := none }).wr (pgCM u) F.CM_HEALTH_BIST_OK (boolNat ok)

theorem exec_cmSelftestSlice_ended (hslice : (s.cmUnit unit.val).slice.isSome = true) (ok : Bool) :
    exec (.cmSelftestSlice unit (some ok)) s = .next (if ok then (sliceOver s unit.val ok).checkReady unit.val else (sliceOver s unit.val ok).drop unit.val 1) := by
  obtain ⟨c, hc⟩ := Option.isSome_iff_exists.mp hslice
  refine congrArg Host.Outcome.next ?_
  unfold State.cmSlice
  extract_lets x
  rw [if_neg (by rcases hrole with h | h <;> simp [h])]
  split
  · rename_i hnone _
    cases hnone
  · rename_i hsome _
    cases hsome
    rfl
  · rename_i hnot
    exact absurd hc (hnot ok c rfl)

omit hrole in
theorem checkReady_eq (s : State) (u : Nat) : s.checkReady u = s ∨ s.checkReady u = (s.wr (pgCM u) F.CM_ROLE roleReady).raise (pgCM u) 7 := by
  rw [State.checkReady]
  split
  · exact .inr rfl
  · exact .inl rfl

omit hrole in
theorem cm_checkReady (s : State) (u : Nat) : (s.checkReady u).cm = s.cm := by
  rcases checkReady_eq s u with h | h
  · rw [h]
  · rw [h, State.raise_cm]
    rfl

omit hrole in
/-- What the page shows of a unit besides its role. -/
theorem rd_checkReady (s : State) (u : Nat) {F0 : Field} (hF : 0x100 ≤ F0.off ∧ F0.lo < 32 ∧ (F0.off ≠ 0x104 ∨ F0.lo ≠ 0)) :
    (s.checkReady u).rd (pgCM u) F0 = s.rd (pgCM u) F0 := by
  rcases checkReady_eq s u with h | h
  · rw [h]
  · rw [h]
    refine (State.rdi_raise_ne _ ?_).trans (wrRole_field _ hF)
    simp only [fkey, F.EVT_RAW]
    omega

theorem cmSelftestSlice_passes (hslice : (s.cmUnit unit.val).slice.isSome = true) :
    ∃ t, exec (.cmSelftestSlice unit (some true)) s = .next t ∧ (t.cmUnit unit.val).slice = none ∧ t.rd (pgCM unit.val) F.CM_HEALTH_BIST_OK = 1 := by
  have hexec := exec_cmSelftestSlice_ended hrole hslice true
  rw [if_pos rfl] at hexec
  refine ⟨_, hexec, ?_, (rd_checkReady _ _ (by decide)).trans (State.rdi_wri_self ..)⟩
  have hunit : ((sliceOver s unit.val true).checkReady unit.val).cmUnit unit.val = (s.modUnit unit.val fun x => { x with slice := none }).cmUnit unit.val :=
    cmUnit_congr (cm_checkReady ..) _
  rw [hunit, cmUnit_modUnit_self]

theorem cmSelftestSlice_fails (hslice : (s.cmUnit unit.val).slice.isSome = true) :
    ∃ t, exec (.cmSelftestSlice unit (some false)) s = .next t ∧ Dropped s t unit.val 1 := by
  have hexec := exec_cmSelftestSlice_ended hrole hslice false
  rw [if_neg (by decide)] at hexec
  have hctr : (sliceOver s unit.val false).ctr (pgCM unit.val) 0x060 = s.ctr (pgCM unit.val) 0x060 := rfl
  have hdrops : (sliceOver s unit.val false).recentDrops unit.val = s.recentDrops unit.val := by
    have hunit : (sliceOver s unit.val false).cmUnit unit.val = (s.modUnit unit.val fun x => { x with slice := none }).cmUnit unit.val := cmUnit_congr rfl _
    rw [State.recentDrops, hunit, cmUnit_modUnit_self]
    rfl
  generalize sliceOver s unit.val false = t at *
  obtain ⟨hdropped, -, -⟩ := drop_dropped (s := t) (cause := 1) unit.isLt (by decide) (by decide) (by decide)
  exact ⟨_, hexec, hdropped.of hctr hdrops⟩

end

theorem standbyCoreRestart_ends {c : Nat} (hrestart : (s.cmUnit unit.val).restart = some c) (hold : c + 150 * clkUs ≤ s.now) :
    ∃ t, exec (.standbyCoreRestart unit) s = .next t ∧ t = { s with cm := t.cm } ∧
      t.cmUnit unit.val = { s.cmUnit unit.val with restart := none } := by
  have hexec : exec (.standbyCoreRestart unit) s = .next (s.modUnit unit.val fun x => { x with restart := none }) := by
    change execStandbyCoreRestart unit s = _
    rw [execStandbyCoreRestart, hrestart]
    exact congrArg Host.Outcome.next (if_pos hold)
  exact ⟨_, hexec, rfl, cmUnit_modUnit_self ..⟩

end

end Sys2Proof
end

section
/-! PROOF. O42: the copy, takeover and yield (R385, R386, R389, R393). -/

namespace Sys2Proof

set_option Elab.async false

open Machine

/-! ## The copy reaches the standby (R385, R386) -/

/-- The copy is no longer on its way, and a deferred slice may start. -/
def copyHere (s : State) (u : Nat) : State := { s with cm := { s.cm with copy := none } }.modUnit u fun x => { x with deferred := false }

/-- A valid copy counts for the standby. -/
def copyCounted (s : State) (u pidx : Nat) : State :=
  (((copyHere s u).count (pgCM u) 0x054 1).wr (pgCM u) F.CM_HEALTH_GOOD_COPIES (min 255 ((copyHere s u).rd (pgCM u) F.CM_HEALTH_GOOD_COPIES + 1))).wr (pgCM u)
    F.CM_COPY_PIDX pidx

/-- A bad copy undoes the copies and the readiness. -/
def copyUndone (s : State) (u : Nat) : State :=
  ((((copyHere s u).raise (pgCM u) 6).count (pgCM u) 0x058 1).wr (pgCM u) F.CM_HEALTH_GOOD_COPIES 0).wr (pgCM u) F.CM_ROLE roleSync

/-- The standby's own diagnostic pass after the copy has passed. -/
def passShown (s : State) (u : Nat) (same : Bool) : State :=
  (((s.count (pgCM u) 0x05C 1).wr (pgCM u) F.CM_HEALTH_DIAG_OK (boolNat true)).wr (pgCM u) F.CM_HEALTH_SRAM_OK (boolNat true)).wr (pgCM u)
    F.CM_HEALTH_FW_MATCH (boolNat same)

section
variable {s : State}

theorem exec_copyReceive {valid : Bool} {pidx act : Nat} (hcopy : s.cm.copy = some (pidx, false)) (hhigh : s.higher = some act)
    (hrole : s.role (1 - act) = roleSync ∨ s.role (1 - act) = roleReady) :
    exec (.copyReceive valid true) s = .next ((passShown (if valid then copyCounted s (1 - act) pidx else copyUndone s (1 - act)) (1 - act)
      (s.cm.a.fw == s.cm.b.fw)).checkReady (1 - act)) := by
  change execCopyReceive valid true s = _
  rw [execCopyReceive, hcopy, hhigh]
  exact congrArg Host.Outcome.next (if_neg (by rcases hrole with h | h <;> simp [h]))

/-- A field on a page of the pair that a write of another field of its unit leaves. -/
theorem rd_wr_cm {w u v : Nat} {F0 F1 : Field} (h : w ≠ u ∨ F0.off ≠ F1.off ∨ F0.lo ≠ F1.lo)
    (hF : F0.off < 0x1000 ∧ F0.lo < 32 ∧ F1.off < 0x1000 ∧ F1.lo < 32 := by decide) : (s.wr (pgCM u) F1 v).rd (pgCM w) F0 = s.rd (pgCM w) F0 := by
  refine State.rdi_wri_ne _ _ ?_
  simp only [fkey, pgCM]
  omega

theorem rd_raise_cm {w pg bit : Nat} {F0 : Field} (hF : 0x100 ≤ F0.off ∧ F0.off < 0x1000 ∧ F0.lo < 32) :
    (s.raise pg bit).rd (pgCM w) F0 = s.rd (pgCM w) F0 := by
  refine State.rdi_raise_ne _ ?_
  simp only [fkey, F.EVT_RAW]
  omega

theorem rd_copyHere (u pg : Nat) (F0 : Field) : (copyHere s u).rd pg F0 = s.rd pg F0 := rfl

theorem cm_copyHere (u : Nat) : (copyHere s u).cm.copy = none := by
  rcases eq_or_ne u 0 with h | h <;> simp [copyHere, State.modUnit, State.setUnit, h]

/-- What a copy leaves: it is gone, and the other unit keeps its claim. -/
structure CopyGone (s t : State) (act : Nat) : Prop where
  copy : t.cm.copy = none
  claim : t.claim act = s.claim act
  bist : t.rd (pgCM (1 - act)) F.CM_HEALTH_BIST_OK = s.rd (pgCM (1 - act)) F.CM_HEALTH_BIST_OK
  passes : t.ctr (pgCM (1 - act)) 0x05C = s.ctr (pgCM (1 - act)) 0x05C

section
variable {act pidx : Nat} (hact : act < 2)
include hact

theorem copyCounted_gone : CopyGone s (copyCounted s (1 - act) pidx) act where
  copy := cm_copyHere ..
  claim := (rd_wr_cm (w := act) (u := 1 - act) (.inl (by omega))).trans ((rd_wr_cm (w := act) (u := 1 - act) (.inl (by omega))).trans (State.rdi_count ..))
  bist := (rd_wr_cm (w := 1 - act) (u := 1 - act) (.inr (by decide))).trans ((rd_wr_cm (w := 1 - act) (u := 1 - act) (.inr (by decide))).trans (State.rdi_count ..))
  passes := by
    rw [copyCounted, State.ctr_wri, State.ctr_wri, State.ctr_count_ne _ _ (by omega)]
    rfl

theorem copyUndone_gone : CopyGone s (copyUndone s (1 - act)) act where
  copy := by
    rw [copyUndone, State.wri_cm, State.wri_cm, State.count_cm, State.raise_cm, cm_copyHere]
  claim := (rd_wr_cm (w := act) (u := 1 - act) (.inl (by omega))).trans ((rd_wr_cm (w := act) (u := 1 - act) (.inl (by omega))).trans ((State.rdi_count ..).trans (rd_raise_cm (by decide))))
  bist := (rd_wr_cm (w := 1 - act) (u := 1 - act) (.inr (by decide))).trans ((rd_wr_cm (w := 1 - act) (u := 1 - act) (.inr (by decide))).trans ((State.rdi_count ..).trans (rd_raise_cm (by decide))))
  passes := by
    rw [copyUndone, State.ctr_wri, State.ctr_wri, State.ctr_count_ne _ _ (by omega), ctr_raise _ _ _ (msgCtr_ne_cm (by omega) (by decide))]
    rfl

end

theorem copyCounted_shown (u pidx : Nat) : (copyCounted s u pidx).ctr (pgCM u) 0x054 = s.ctr (pgCM u) 0x054 + 1 ∧
    (copyCounted s u pidx).rd (pgCM u) F.CM_COPY_PIDX = pidx % 2 ^ 24 ∧
    (copyCounted s u pidx).rd (pgCM u) F.CM_HEALTH_GOOD_COPIES = min 255 (s.rd (pgCM u) F.CM_HEALTH_GOOD_COPIES + 1) ∧
    (copyCounted s u pidx).role u = s.role u := by
  refine ⟨?_, State.rdi_wri_self .., ?_, ?_⟩
  · rw [copyCounted, State.ctr_wri, State.ctr_wri, State.ctr_count_self]
    rfl
  · refine (rd_wr_cm (.inr (by decide))).trans ((State.rdi_wri_self ..).trans (Nat.mod_eq_of_lt ?_))
    exact lt_of_le_of_lt (min_le_left ..) (by decide)
  · exact (rd_wr_cm (.inr (by decide))).trans ((rd_wr_cm (.inr (by decide))).trans (State.rdi_count ..))

theorem copyUndone_shown {u : Nat} (hu : u < 2) : (copyUndone s u).ctr (pgCM u) 0x058 = s.ctr (pgCM u) 0x058 + 1 ∧ Raised (copyUndone s u) (pgCM u) 6 ∧
    (copyUndone s u).rd (pgCM u) F.CM_HEALTH_GOOD_COPIES = 0 ∧ (copyUndone s u).role u = roleSync := by
  have hraised : Raised (((copyHere s u).raise (pgCM u) 6).count (pgCM u) 0x058 1) (pgCM u) 6 :=
    raised_congr (s := (copyHere s u).raise (pgCM u) 6) rfl (raised_raise _ _ _ (by decide))
  refine ⟨?_, ?_, (rd_wr_cm (.inr (by decide))).trans (State.rdi_wri_self ..), State.rdi_wri_self ..⟩
  · rw [copyUndone, State.ctr_wri, State.ctr_wri, State.ctr_count_self, ctr_raise _ _ _ (msgCtr_ne_cm hu (by decide))]
    rfl
  · exact raised_wri (fkey_ne_on_page _ (by decide)) (raised_wri (fkey_ne_on_page _ (by decide)) hraised)

/-- The diagnostic pass shows in its own fields and its own counter alone. -/
theorem passShown_spec (s : State) (u : Nat) (same : Bool) : (passShown s u same).cm = s.cm ∧ (passShown s u same).rd (pgCM u) F.CM_HEALTH_DIAG_OK = 1 ∧
    (passShown s u same).ctr (pgCM u) 0x05C = s.ctr (pgCM u) 0x05C + 1 ∧
    (∀ off, off ≠ 0x05C → (passShown s u same).ctr (pgCM u) off = s.ctr (pgCM u) off) ∧
    (∀ w F0, w ≠ u ∨ F0.off ≠ 0x108 ∨ F0.lo = 0 ∨ F0.lo = 8 → F0.off < 0x1000 ∧ F0.lo < 32 → (passShown s u same).rd (pgCM w) F0 = s.rd (pgCM w) F0) := by
  refine ⟨rfl, ?_, ?_, fun off hoff => ?_, fun w F0 h hF => ?_⟩
  · exact (rd_wr_cm (.inr (by decide))).trans ((rd_wr_cm (.inr (by decide))).trans (State.rdi_wri_self ..))
  · rw [passShown, State.ctr_wri, State.ctr_wri, State.ctr_wri, State.ctr_count_self]
  · rw [passShown, State.ctr_wri, State.ctr_wri, State.ctr_wri, State.ctr_count_ne _ _ (by omega)]
  · refine (rd_wr_cm ?_ ⟨hF.1, hF.2, by decide⟩).trans ((rd_wr_cm ?_ ⟨hF.1, hF.2, by decide⟩).trans ((rd_wr_cm ?_ ⟨hF.1, hF.2, by decide⟩).trans (State.rdi_count ..)))
    · simp only [F.CM_HEALTH_FW_MATCH]
      omega
    · simp only [F.CM_HEALTH_SRAM_OK]
      omega
    · simp only [F.CM_HEALTH_DIAG_OK]
      omega

/-- READY shows in the role alone, and is told. -/
theorem checkReady_spec (s : State) {u : Nat} (hu : u < 2) : (s.checkReady u).cm = s.cm ∧
    (∀ w F0, w ≠ u ∨ F0.off ≠ 0x104 ∨ F0.lo ≠ 0 → 0x100 ≤ F0.off ∧ F0.off < 0x1000 ∧ F0.lo < 32 → (s.checkReady u).rd (pgCM w) F0 = s.rd (pgCM w) F0) ∧
    (∀ off, off < 0x1000 → (s.checkReady u).ctr (pgCM u) off = s.ctr (pgCM u) off) ∧
    (∀ bit, bit < 32 → Raised s (pgCM u) bit → Raised (s.checkReady u) (pgCM u) bit) := by
  refine ⟨cm_checkReady s u, fun w F0 h hF => ?_, fun off hoff => ?_, (Onward.refl (pgCM u) s).checkReady.events⟩
  · rcases checkReady_eq s u with hs | hs
    · rw [hs]
    · rw [hs]
      refine (rd_raise_cm hF).trans (rd_wr_cm ?_ ⟨hF.2.1, hF.2.2, by decide⟩)
      simpa only [F.CM_ROLE] using h
  · rcases checkReady_eq s u with hs | hs
    · rw [hs]
    · rw [hs]
      exact ctr_raise (s.wr (pgCM u) F.CM_ROLE roleReady) _ _ (msgCtr_ne_cm hu hoff)

theorem checkReady_becomes {u : Nat} (hrole : s.role u = roleSync) (hcopies : 2 ≤ s.rd (pgCM u) F.CM_HEALTH_GOOD_COPIES)
    (hdiag : s.rd (pgCM u) F.CM_HEALTH_DIAG_OK = 1) (hbist : s.on (pgCM u) F.CM_HEALTH_BIST_OK = true) :
    (s.checkReady u).role u = roleReady ∧ Raised (s.checkReady u) (pgCM u) 7 := by
  have hon : s.on (pgCM u) F.CM_HEALTH_DIAG_OK = true := by
    have h1 : (s.rd (pgCM u) F.CM_HEALTH_DIAG_OK != 0) = true := by rw [hdiag]; rfl
    exact h1
  rw [State.checkReady, if_pos ⟨hrole, hcopies, hon, hbist⟩]
  exact ⟨(rd_raise_cm (by decide)).trans (State.rdi_wri_self ..), raised_raise _ _ _ (by decide)⟩

theorem checkReady_waits {u : Nat} (hcopies : s.rd (pgCM u) F.CM_HEALTH_GOOD_COPIES = 0) : s.checkReady u = s := by
  rw [State.checkReady, if_neg (by simp [hcopies])]

theorem copyReceive_takes {valid : Bool} {pidx act : Nat} (hcopy : s.cm.copy = some (pidx, false)) (hhigh : s.higher = some act) (hact : act < 2)
    (hrole : s.role (1 - act) = roleSync ∨ s.role (1 - act) = roleReady) :
    ∃ t, exec (.copyReceive valid true) s = .next t ∧ t.cm.copy = none ∧ t.claim act = s.claim act ∧
      t.ctr (pgCM (1 - act)) 0x05C = s.ctr (pgCM (1 - act)) 0x05C + 1 ∧ t.rd (pgCM (1 - act)) F.CM_HEALTH_DIAG_OK = 1 ∧
      (valid = true → t.ctr (pgCM (1 - act)) 0x054 = s.ctr (pgCM (1 - act)) 0x054 + 1 ∧ t.rd (pgCM (1 - act)) F.CM_COPY_PIDX = pidx % 2 ^ 24 ∧
        t.rd (pgCM (1 - act)) F.CM_HEALTH_GOOD_COPIES = min 255 (s.rd (pgCM (1 - act)) F.CM_HEALTH_GOOD_COPIES + 1) ∧
        (s.role (1 - act) = roleSync → 1 ≤ s.rd (pgCM (1 - act)) F.CM_HEALTH_GOOD_COPIES →
          s.on (pgCM (1 - act)) F.CM_HEALTH_BIST_OK = true → t.role (1 - act) = roleReady ∧ Raised t (pgCM (1 - act)) 7)) ∧
      (valid = false → t.ctr (pgCM (1 - act)) 0x058 = s.ctr (pgCM (1 - act)) 0x058 + 1 ∧ Raised t (pgCM (1 - act)) 6 ∧
        t.rd (pgCM (1 - act)) F.CM_HEALTH_GOOD_COPIES = 0 ∧ t.role (1 - act) = roleSync) := by
  have hexec := exec_copyReceive (valid := valid) hcopy hhigh hrole
  have hgone : CopyGone s (if valid then copyCounted s (1 - act) pidx else copyUndone s (1 - act)) act := by
    split
    · exact copyCounted_gone hact
    · exact copyUndone_gone hact
  have hu : 1 - act < 2 := by omega
  have hcounted := copyCounted_shown (s := s) (1 - act) pidx
  have hundone := copyUndone_shown (s := s) hu
  have hw1 : valid = true → (if valid then copyCounted s (1 - act) pidx else copyUndone s (1 - act)) = copyCounted s (1 - act) pidx := fun h => by rw [if_pos h]
  have hw0 : valid = false → (if valid then copyCounted s (1 - act) pidx else copyUndone s (1 - act)) = copyUndone s (1 - act) := fun h => by rw [h]; rfl
  generalize (if valid then copyCounted s (1 - act) pidx else copyUndone s (1 - act)) = w at *
  obtain ⟨pcm, pdiag, ppass, pctr, prd⟩ := passShown_spec w (1 - act) (s.cm.a.fw == s.cm.b.fw)
  have pev (bit : Nat) (hr : Raised w (pgCM (1 - act)) bit) : Raised (passShown w (1 - act) (s.cm.a.fw == s.cm.b.fw)) (pgCM (1 - act)) bit :=
    raised_wri (fkey_ne_on_page _ (by decide)) (raised_wri (fkey_ne_on_page _ (by decide)) (raised_wri (fkey_ne_on_page _ (by decide))
      (raised_congr (s := w) rfl hr)))
  generalize passShown w (1 - act) (s.cm.a.fw == s.cm.b.fw) = p at *
  obtain ⟨ccm, crd, cctr, cev⟩ := checkReady_spec p hu
  refine ⟨_, hexec, ?_, ?_, ?_, ?_, fun hv => ?_, fun hv => ?_⟩
  · rw [ccm, pcm, hgone.copy]
  · exact (crd act _ (.inl (by omega)) (by decide)).trans ((prd act _ (.inl (by omega)) (by decide)).trans hgone.claim)
  · rw [cctr _ (by decide), ppass, hgone.passes]
  · exact (crd _ _ (.inr (by decide)) (by decide)).trans pdiag
  · obtain ⟨hctr, hpidx, hgood, hsame⟩ := hcounted
    rw [← hw1 hv] at hctr hpidx hgood hsame
    have hgood' := (prd (1 - act) F.CM_HEALTH_GOOD_COPIES (.inr (by decide)) (by decide)).trans hgood
    refine ⟨?_, ?_, ?_, fun hsync hone hbist => checkReady_becomes ?_ ?_ pdiag ?_⟩
    · rw [cctr _ (by decide), pctr _ (by decide), hctr]
    · exact (crd _ _ (.inr (by decide)) (by decide)).trans ((prd _ _ (.inr (by decide)) (by decide)).trans hpidx)
    · exact (crd _ _ (.inr (by decide)) (by decide)).trans hgood'
    · exact (prd _ _ (.inr (by decide)) (by decide)).trans (hsame.trans hsync)
    · rw [hgood']
      omega
    · exact (on_eq_of_rd ((prd _ _ (.inr (by decide)) (by decide)).trans hgone.bist)).trans hbist
  · obtain ⟨hctr, hraised, hgood, hsync⟩ := hundone
    rw [← hw0 hv] at hctr hraised hgood hsync
    have hgood' := (prd (1 - act) F.CM_HEALTH_GOOD_COPIES (.inr (by decide)) (by decide)).trans hgood
    rw [checkReady_waits hgood']
    exact ⟨(pctr _ (by decide)).trans hctr, pev 6 hraised, hgood', (prd _ _ (.inr (by decide)) (by decide)).trans hsync⟩

end

end Sys2Proof
end

section
/-! PROOF. O42: takeover and yield (R389, R393). -/

namespace Sys2Proof

set_option Elab.async false

open Machine

section
variable {s : State}

/-! ## Takeover (R389) -/

theorem nextClaim_lt (x : Nat) : nextClaim x < 256 := by
  rw [nextClaim]
  split
  · decide
  · exact Nat.mod_lt _ (by decide)

theorem claimShown_shown (s : State) (u : Nat) {c : Nat} (hc : c < 256) : (claimShown s u c).claim u = c ∧ (claimShown s u c).role u = roleActive := by
  refine ⟨?_, State.rdi_wri_self ..⟩
  exact (rd_wr_cm (w := u) (u := u) (.inr (by decide))).trans ((rd_wr_cm (w := u) (u := 1) (.inr (by decide))).trans
    ((rd_wr_cm (w := u) (u := 0) (.inr (by decide))).trans ((State.rdi_wri_self ..).trans (Nat.mod_eq_of_lt hc))))

theorem takeClaim_takes (s : State) (u : Nat) : (s.takeClaim u).claim u = nextClaim (s.rd (pgCM 0) F.CM_CLAIM_LAST) ∧ (s.takeClaim u).role u = roleActive ∧
    (s.takeClaim u).cm.dropClk = none ∧ (s.takeClaim u).gate = s.gate ∧ (s.takeClaim u).ctrs = s.ctrs := by
  obtain ⟨hclaim, hrole⟩ := claimShown_shown s u (nextClaim_lt (s.rd (pgCM 0) F.CM_CLAIM_LAST))
  have heq : s.takeClaim u = { claimShown s u (nextClaim (s.rd (pgCM 0) F.CM_CLAIM_LAST)) with cm := (s.takeClaim u).cm } := by
    unfold State.takeClaim State.modUnit State.setUnit claimShown
    dsimp only
  have hregs := claimShown_regs s u (nextClaim (s.rd (pgCM 0) F.CM_CLAIM_LAST))
  have hdrop : (s.takeClaim u).cm.dropClk = none := rfl
  generalize claimShown s u (nextClaim (s.rd (pgCM 0) F.CM_CLAIM_LAST)) = v at *
  generalize (s.takeClaim u).cm = cm at *
  rw [heq]
  exact ⟨hclaim, hrole, hdrop, by rw [hregs], hregs.ctrs⟩

theorem standby_lt {u : Nat} (h : s.standby = some u) : u < 2 := by
  have hmem := List.mem_of_find?_eq_some h
  simp only [List.mem_cons, List.not_mem_nil, or_false] at hmem
  omega

theorem takeoverTimeout_takes (plan : List GroupPlan) {c u : Nat} (hdrop : s.cm.dropClk = some c) (hstandby : s.standby = some u)
    (hold : c + 2 * s.periodClk ≤ s.now) (hmark : s.tb.lastMark ≤ c) :
    ∃ t, exec (.takeoverTimeout plan) s = .next t ∧ t.claim u = nextClaim (s.rd (pgCM 0) F.CM_CLAIM_LAST) ∧ t.role u = roleActive ∧
      t.cm.dropClk = none ∧ Raised t (pgCM u) 1 ∧ t.ctr (pgCM u) 0x064 = s.ctr (pgCM u) 0x064 + 1 ∧
      t.gate = { s.gate with plan := plan.filter fun (g : GroupPlan) => decide (s.rd pgTBASE F.TBASE_SLOT < g.start), trimmed := [] } := by
  have hexec : exec (.takeoverTimeout plan) s = .next { s.takeover u with
      gate := { (s.takeover u).gate with plan := plan.filter fun (g : GroupPlan) => decide (s.rd pgTBASE F.TBASE_SLOT < g.start), trimmed := [] } } := by
    change execTakeoverTimeout plan s = _
    rw [execTakeoverTimeout, hdrop, hstandby]
    exact congrArg Host.Outcome.next (if_neg (by omega))
  obtain ⟨hclaim, hrole, hclk, hgate, hctrs⟩ := takeClaim_takes s u
  have hu := standby_lt hstandby
  rw [State.takeover] at hexec
  generalize s.takeClaim u = t at *
  have hctr : ((t.raise (pgCM u) 1).count (pgCM u) 0x064 1).ctr (pgCM u) 0x064 = s.ctr (pgCM u) 0x064 + 1 := by
    rw [State.ctr_count_self, ctr_raise _ _ _ (msgCtr_ne_cm hu (by decide)), State.ctr, hctrs]
    rfl
  have hgate' : ((t.raise (pgCM u) 1).count (pgCM u) 0x064 1).gate = s.gate := by rw [State.count_gate, State.raise_gate, hgate]
  have hclk' : ((t.raise (pgCM u) 1).count (pgCM u) 0x064 1).cm.dropClk = none := by rw [State.count_cm, State.raise_cm, hclk]
  have hrd (F0 : Field) (hF : 0x100 ≤ F0.off ∧ F0.off < 0x1000 ∧ F0.lo < 32) : ((t.raise (pgCM u) 1).count (pgCM u) 0x064 1).rd (pgCM u) F0 = t.rd (pgCM u) F0 :=
    (State.rdi_count ..).trans (rd_raise_cm hF)
  have hraised : Raised ((t.raise (pgCM u) 1).count (pgCM u) 0x064 1) (pgCM u) 1 :=
    raised_congr (s := t.raise (pgCM u) 1) rfl (raised_raise _ _ _ (by decide))
  generalize (t.raise (pgCM u) 1).count (pgCM u) 0x064 1 = v at *
  refine ⟨_, hexec, (hrd _ (by decide)).trans hclaim, (hrd _ (by decide)).trans hrole, hclk', raised_congr (s := v) rfl hraised, hctr, ?_⟩
  rw [← hgate']

/-! ## Yield (R393) -/

section
variable {fn : Fin 32} {unit : Fin 2} (hmay : s.mayWriteBlock (pgCM unit.val) fn.val = true)
include hmay

theorem cmYield_keeps (hrole : s.role unit.val = roleActive) (hother : s.role (1 - unit.val) = roleReady) (hreq : s.cm.yieldReq = false)
    (hann : s.cm.announced = false) : exec (.cmYield fn unit) s = .next { s with cm := { s.cm with yieldReq := true } } := by
  change execCmYield fn unit s = _
  rw [execCmYield]
  dsimp only
  rw [blockAction_allowed _ _ hmay, if_pos ⟨hrole, hother, hreq, hann⟩]

theorem cmYield_refuses (hrole : s.role unit.val ≠ roleActive ∨ s.role (1 - unit.val) ≠ roleReady) :
    ∃ t, exec (.cmYield fn unit) s = .next t ∧ Raised t (pgCM unit.val) 9 ∧ t.cm = s.cm := by
  have hexec : exec (.cmYield fn unit) s = .next (s.raise (pgCM unit.val) 9) := by
    change execCmYield fn unit s = _
    rw [execCmYield]
    dsimp only
    rw [blockAction_allowed _ _ hmay, if_neg]
    rintro ⟨hactive, hready, -, -⟩
    exact hrole.elim (absurd hactive) (absurd hready)
  exact ⟨_, hexec, raised_raise _ _ _ (by decide), State.raise_cm ..⟩

end

end

/-- Settles O42: each clause is the lemma of its transition. -/
theorem cellarmasterPair : Obligations.CellarmasterPair := by
  unfold Obligations.CellarmasterPair
  refine ⟨?unit, ?copy, ?slice, ?restart, ?takeover, ?yield⟩
  case unit =>
    intro unit s
    exact ⟨stageCommand_accepted, stageCommand_discarded, claimOutvote_drops, cmHeartbeat_beats, hbMiss_drops, diagPass_judges, diagLate_drops,
      cmHwDrop_drops, fun hrole => ⟨cmReloadDone_syncs hrole, cmReloadDone_retires hrole⟩⟩
  case copy =>
    intro valid s pidx act hcopy hhigh hact hrole
    exact copyReceive_takes hcopy hhigh hact hrole
  case slice =>
    intro unit s hrole
    exact ⟨cmSelftestSlice_starts hrole, fun hslice => ⟨cmSelftestSlice_passes hrole hslice, cmSelftestSlice_fails hrole hslice⟩⟩
  case restart =>
    intro unit s c hrestart hold
    exact standbyCoreRestart_ends hrestart hold
  case takeover =>
    intro plan s c u hdrop hstandby hold hmark
    exact takeoverTimeout_takes plan hdrop hstandby hold hmark
  case yield =>
    intro fn unit s hmay
    exact ⟨cmYield_keeps hmay, cmYield_refuses hmay⟩

end Sys2Proof
end

section
/-! SUPPORT. What is kept of a codec stream (R349–R369) while its records are written and its entries are taken. -/

namespace Sys2Proof

set_option Elab.async false

open Machine

/-! ## The hub's reads leave the codec alone -/

/-- The codec's streams and engines are the same. -/
structure CodecSame (s t : State) : Prop where
  codec : t.codec = s.codec

section
variable {z s t : State}

theorem CodecSame.refl (s : State) : CodecSame s s := ⟨rfl⟩
theorem CodecSame.trans (h : CodecSame z s) (k : CodecSame s t) : CodecSame z t := ⟨k.codec.trans h.codec⟩
theorem CodecSame.of (h : CodecSame z s) (e : t.codec = s.codec := by rfl) : CodecSame z t := ⟨e.trans h.codec⟩
theorem CodecSame.hub (h : CodecSame z s) (k : HubWork s t) : CodecSame z t := h.of (by rw [k.rest])

theorem CodecSame.ite {c : Prop} [Decidable c] (h : CodecSame z s) (k : CodecSame z t) : CodecSame z (if c then s else t) := by
  split
  · exact h
  · exact k

theorem CodecSame.foldl {α : Type} {g : State → α → State} (hg : ∀ t x, CodecSame z t → CodecSame z (g t x)) (l : List α) (h : CodecSame z s) :
    CodecSame z (l.foldl g s) := List.foldlRecOn (motive := CodecSame z) l g h fun t ht x _ => hg t x ht

theorem CodecSame.askRebuild (h : CodecSame z s) (f : Nat) (step : Option Nat) : CodecSame z (s.askRebuild f step) := by
  unfold State.askRebuild
  extract_lets ps mine
  split
  · exact h
  · exact .ite h.of h.of

theorem CodecSame.ctxStQ (h : CodecSame z s) (c bit st q : Nat) : CodecSame z (s.ctxStQ c bit st q) := h.hub (((HubWork.refl s).free _).ctxEvent ..)

theorem CodecSame.recover (h : CodecSame z s) (f va : Nat) : CodecSame z (s.recover f va none) := by
  unfold State.recover
  split
  · exact h
  · next x _ =>
    refine .ite ?_ (.ite h (.ite ?_ (.foldl (fun _ _ ht => ht.ctxStQ ..) _ h)))
    · extract_lets lp0 s1 s2
      have h1 : CodecSame z s1 := by
        simp only [s1]
        split
        · exact h.of
        · exact h.of
      exact .ite (h1.askRebuild ..) h1
    · split
      · exact h.of
      · exact h.of

theorem CodecSame.ctxRead (h : CodecSame z s) (n c va : Nat) (host : Bool) (o : LineOut) : CodecSame z (s.ctxRead n c va host o none).1 := by
  have ha : CodecSame z (s.access n c va false host 1).1 := h.hub ((HubWork.refl s).access ..)
  unfold State.ctxRead
  split
  · next s1 code heq => rw [heq] at ha; exact ha
  · next s1 pa heq =>
    rw [heq] at ha
    have hline (key : Nat) : CodecSame z (s1.lineRead (pa / 64) key o).1 := CodecSame.hub ha ((HubWork.refl s1).lineRead ..)
    exact .ite (hline _) ((hline _).recover ..)

end

theorem codec_hubRead (s : State) (c va n : Nat) : (s.hubRead c va n).1.codec = s.codec := by
  unfold State.hubRead
  exact List.foldlRecOn (motive := fun a : State × Option (List Nat) => a.1.codec = s.codec) _ _ rfl fun a ha i _ =>
    ((CodecSame.refl a.1).ctxRead ..).codec.trans ha

theorem codec_hubBytes (s : State) (c va n : Nat) : (s.hubBytes c va n).1.codec = s.codec := codec_hubRead ..

theorem codec_hubWrite (s : State) (c va : Nat) (bs : List Nat) : (s.hubWrite c va bs).codec = s.codec := by rw [((HubWork.refl s).hubWrite c va bs).rest]

theorem codec_hubPost (s : State) (c v n : Nat) : (s.hubPost c v n).codec = s.codec := by rw [((HubWork.refl s).hubPost c v n).rest]

theorem codec_foldl {α : Type} {g : State → α → State} (hg : ∀ t x, (g t x).codec = t.codec) (l : List α) (s : State) : (l.foldl g s).codec = s.codec :=
  List.foldlRecOn (motive := fun t => t.codec = s.codec) l g rfl fun t ht x _ => (hg t x).trans ht

theorem codec_wake (s : State) (done : WaitOn → Bool) (st : Nat) : (s.wake done st).codec = s.codec := by rw [wake_rest]

/-! ## Streams -/

/-- What polls, commands and engines alone change of a stream is the same. -/
structure Steady (x y : Stream) : Prop where
  subProd : y.subProd = x.subProd
  outCons : y.outCons = x.outCons
  relProd : y.relProd = x.relProd
  pollClk : y.pollClk = x.pollClk
  faulted : y.faulted = x.faulted
  closing : y.closing = x.closing
  pic : y.pic = x.pic

theorem Steady.refl (x : Stream) : Steady x x := ⟨rfl, rfl, rfl, rfl, rfl, rfl, rfl⟩

theorem Steady.trans {x y w : Stream} (h : Steady x y) (k : Steady y w) : Steady x w :=
  ⟨k.subProd.trans h.subProd, k.outCons.trans h.outCons, k.relProd.trans h.relProd, k.pollClk.trans h.pollClk, k.faulted.trans h.faulted,
    k.closing.trans h.closing, k.pic.trans h.pic⟩

/-- Stream `n` is open or not as before, and steady. -/
structure StreamKept (n : Nat) (s t : State) : Prop where
  opened : ∀ x, s.stream n = some x → ∃ y, t.stream n = some y ∧ Steady x y
  shut : s.stream n = none → t.stream n = none

theorem stream_congr {s t : State} (h : t.codec = s.codec) (n : Nat) : t.stream n = s.stream n := by rw [State.stream, State.stream, h]

section
variable {n : Nat} {z s t : State}

theorem StreamKept.of_eq (h : t.stream n = s.stream n) : StreamKept n s t :=
  ⟨fun x hx => ⟨x, h.trans hx, .refl x⟩, fun hx => h.trans hx⟩

theorem StreamKept.refl (n : Nat) (s : State) : StreamKept n s s := .of_eq rfl

theorem StreamKept.trans (h : StreamKept n z s) (k : StreamKept n s t) : StreamKept n z t := by
  refine ⟨fun x hx => ?_, fun hx => k.shut (h.shut hx)⟩
  obtain ⟨y, hy, hxy⟩ := h.opened x hx
  obtain ⟨w, hw, hyw⟩ := k.opened y hy
  exact ⟨w, hw, hxy.trans hyw⟩

theorem StreamKept.codec (h : StreamKept n z s) (k : t.codec = s.codec) : StreamKept n z t := h.trans (.of_eq (stream_congr k n))

theorem StreamKept.ite {c : Prop} [Decidable c] (h : StreamKept n z s) (k : StreamKept n z t) : StreamKept n z (if c then s else t) := by
  split
  · exact h
  · exact k

theorem StreamKept.foldl {α : Type} {g : State → α → State} (hg : ∀ t x, StreamKept n t (g t x)) (l : List α) (s : State) : StreamKept n s (l.foldl g s) :=
  List.foldlRecOn (motive := fun t => StreamKept n s t) l g (.refl n s) fun t ht x _ => ht.trans (hg t x)

theorem StreamKept.setStream {x y : Stream} (hx : s.stream n = some x) (h : Steady x y) : StreamKept n s (s.setStream n y) := by
  refine ⟨fun w hw => ⟨y, stream_setStream_self .., ?_⟩, fun hnone => absurd (hnone.symm.trans hx) (by simp)⟩
  rw [← Option.some.inj (hx.symm.trans hw)]
  exact h

/-- A stream, this one or another, changed in what is not steady. -/
theorem StreamKept.modStream (s : State) (m : Nat) {f : Stream → Stream} (hf : ∀ x, Steady x (f x)) : StreamKept n s (s.modStream m f) := by
  by_cases hm : n = m
  · subst hm
    have hmod : (s.modStream n f).stream n = (s.stream n).map f := mget_mmod_self ..
    refine ⟨fun x hx => ⟨f x, ?_, hf x⟩, fun hx => ?_⟩
    · rw [hmod, hx]
      rfl
    · rw [hmod, hx]
      rfl
  · exact .of_eq (mget_mmod_ne _ _ hm)

/-- What the scheduler's page keeps of a stream. -/
def schedSeen (s : State) (x : Stream) : Stream :=
  { x with
    readyClk := if x.ready then some (x.readyClk.getD s.now) else none
    poolWait := x.wants && !x.poolOk }

theorem steady_schedSeen (s : State) (x : Stream) : Steady x (schedSeen s x) := ⟨rfl, rfl, rfl, rfl, rfl, rfl, rfl⟩

theorem stream_showSched (s : State) (n : Nat) : s.showSched.stream n = (s.stream n).map (schedSeen s) :=
  (mget_map (g := fun e => (e.1, schedSeen s e.2)) (fun _ => rfl) s.codec.streams n)

theorem StreamKept.showSched (h : StreamKept n z s) : StreamKept n z s.showSched := by
  have hmap := stream_showSched s n
  refine h.trans ⟨fun x hx => ⟨schedSeen s x, ?_, steady_schedSeen s x⟩, fun hx => ?_⟩
  · rw [hmap, hx]
    rfl
  · rw [hmap, hx]
    rfl

/-! ## The chain of a stream's pictures (R338) -/

theorem StreamKept.dropChainHold (s : State) (j : MillJob) : StreamKept n s (s.dropChainHold j) := by
  rw [State.dropChainHold]
  split
  · exact .refl n s
  · exact .modStream s _ fun x => ⟨rfl, rfl, rfl, rfl, rfl, rfl, rfl⟩

theorem codec_showMill (s : State) : s.showMill.codec = s.codec := by rw [showMill_regs s]

theorem StreamKept.endJob (s : State) (i st : Nat) : StreamKept n s (s.endJob i st) := by
  unfold State.endJob
  split
  · exact .refl n s
  · next j _ =>
    extract_lets c word s1 s2 s3 s4
    have h1 : s1.codec = s.codec := codec_foldl (fun t _ => codec_hubWrite ..) _ s
    have h2 : s2.codec = s.codec := (codec_hubPost ..).trans h1
    have h3 : s3.codec = s.codec := by
      simp only [s3]
      split
      · exact h2
      · exact h2
    have h4 : StreamKept n s s4 := (StreamKept.of_eq (stream_congr h3 n)).trans (.dropChainHold s3 j)
    clear_value s4
    exact h4.codec (codec_showMill _)

theorem StreamKept.chainPicture (s : State) (m va pitch pic : Nat) (b : Bool) : StreamKept n s (s.chainPicture m va pitch pic b) := by
  unfold State.chainPicture
  split
  · exact .refl n s
  · next l _ =>
    extract_lets codec1 s1 j
    have h1 : StreamKept n s s1 :=
      .modStream s m (f := fun x => { x with bufs := x.bufs.modify pic fun b => { b with chain := b.chain + 1 } }) fun x =>
        ⟨rfl, rfl, rfl, rfl, rfl, rfl, rfl⟩
    clear_value s1
    split
    · next e _ =>
      have h2 : StreamKept n s (s1.dropChainHold e.2) := h1.trans (.dropChainHold s1 e.2)
      refine h2.codec ((codec_showMill _).trans ?_)
      rw [State.count_codec, State.raise_codec, State.setJob]
    · rw [State.queueJob]
      have hadd : StreamKept n s (s1.addJob j) := h1.codec (codec_showMill _)
      exact .ite (hadd.trans (.endJob ..)) hadd

/-! ## Records (R353, R354) -/

theorem StreamKept.writeRecord {x y : Stream} (hx : s.stream n = some x) (h : Steady x y) (r : List Nat) : StreamKept n s (s.writeRecord n y r) := by
  unfold State.writeRecord
  extract_lets s1 buf x1 s2
  clear_value buf
  have h1 : s1.codec = s.codec := (codec_hubWrite ..).trans (codec_hubWrite ..)
  have hx1 : Steady x x1 := h.trans ⟨rfl, rfl, rfl, rfl, rfl, rfl, rfl⟩
  have h2 : StreamKept n s (s1.setStream n x1) :=
    (StreamKept.of_eq (stream_congr h1 n)).trans (.setStream ((stream_congr h1 n).trans hx) hx1)
  have h3 : StreamKept n s s2 := h2.codec (codec_hubPost ..)
  clear_value s2
  exact .ite h3 (h3.trans (.chainPicture ..))

theorem StreamKept.drainRecs (s : State) (fuel : Nat) : StreamKept n s (s.drainRecs n fuel) := by
  induction fuel generalizing s with
  | zero => exact .refl n s
  | succ fuel ih =>
    rw [State.drainRecs]
    split
    · exact .refl n s
    · next x hx =>
      split
      · exact .refl n s
      · next r rs _ =>
        have hx' : Steady x { x with recs := rs } := ⟨rfl, rfl, rfl, rfl, rfl, rfl, rfl⟩
        exact .ite (.refl n s) ((StreamKept.writeRecord hx hx' r).trans (ih _))

theorem StreamKept.pushRecord (s : State) (r : List Nat) : StreamKept n s (s.pushRecord n r) := by
  have hmod : StreamKept n s (s.modStream n fun x => { x with recs := x.recs ++ [r] }) := .modStream s n fun x => ⟨rfl, rfl, rfl, rfl, rfl, rfl, rfl⟩
  exact hmod.trans (.drainRecs ..)

/-! ## Entries (R353, R362) -/

theorem StreamKept.takeEntry {x : Stream} (hx : s.stream n = some x) : StreamKept n s (s.takeEntry n x).1 := by
  have hread := codec_hubBytes s x.ctx (x.subVa x.subCons) 64
  unfold State.takeEntry
  split
  next s1 e heq =>
  rw [heq] at hread
  have hw : (s1.hubWrite x.ctx (x.ringVa + 4) (lowBytes 4 ((x.subCons + 1) % 2 ^ 32))).codec = s.codec := (codec_hubWrite ..).trans hread
  exact (StreamKept.of_eq (stream_congr hw n)).trans (.setStream ((stream_congr hw n).trans hx) ⟨rfl, rfl, rfl, rfl, rfl, rfl, rfl⟩)

theorem StreamKept.failEntries (s : State) (st cause fuel : Nat) : StreamKept n s (s.failEntries n st cause fuel) := by
  induction fuel generalizing s with
  | zero => exact .refl n s
  | succ fuel ih =>
    rw [State.failEntries]
    split
    · exact .refl n s
    · next x hx =>
      exact .ite (.refl n s) (((StreamKept.takeEntry hx).trans (.pushRecord ..)).trans (ih _))

theorem StreamKept.takeReleases (s : State) (fuel : Nat) : StreamKept n s (s.takeReleases n fuel) := by
  induction fuel generalizing s with
  | zero => exact .refl n s
  | succ fuel ih =>
    rw [State.takeReleases]
    split
    · exact .refl n s
    · next x hx =>
      have hread := codec_hubBytes s x.ctx (x.relVa x.relCons) 4
      refine .ite (.refl n s) ?_
      split
      next s1 e heq =>
      rw [heq] at hread
      extract_lets i held x1 s2
      have hx1 : Steady x x1 := ⟨rfl, rfl, rfl, rfl, rfl, rfl, rfl⟩
      have hset : StreamKept n s (s1.setStream n x1) :=
        (StreamKept.of_eq (stream_congr hread n)).trans (.setStream ((stream_congr hread n).trans hx) hx1)
      have h2 : StreamKept n s s2 := hset.codec (codec_hubWrite ..)
      clear_value s2
      have h3 : StreamKept n s (if held then s2 else s2.count pgSCHED 0x068 1) := .ite h2 (h2.codec rfl)
      exact h3.trans (ih _)

end

end Sys2Proof
end

section
/-! SUPPORT. Polls of a codec stream, what follows them, and the streams without a picture (R350–R353, R362, R369). -/

namespace Sys2Proof

set_option Elab.async false

open Machine

section
variable {n : Nat} {z s t : State}

/-! ## What a poll lets happen (R352, R353) -/

theorem stream_dropStream (s : State) (n : Nat) : (s.dropStream n).stream n = none := by
  unfold State.dropStream
  extract_lets codec1 mill1 s1
  have h1 : s1.stream n = none := mget_mdel_self ..
  clear_value s1
  rw [stream_showSched, stream_congr (codec_showMill _), stream_congr (codec_wake ..)]
  exact (congrArg _ h1).trans rfl

/-- A flush that has all its entries has ended: the records held, and FLUSH_DONE. -/
theorem StreamKept.flushed (s : State) (held : List Nat) (pend : Nat → List Nat) (r : List Nat) (done : WaitOn → Bool) (st : Nat) :
    StreamKept n s (((((held.foldl (fun t i => t.pushRecord n (pend i)) s).modStream n fun y => { y with
      flushTo := none, fresh := true, bufs := y.bufs.map fun b => { b with subst := false, pend := [] } }).pushRecord n r).wake done st).showSched) := by
  have h1 : StreamKept n s (held.foldl (fun t i => t.pushRecord n (pend i)) s) := .foldl (fun t i => .pushRecord t _) _ s
  have h2 := h1.trans (.modStream _ n (f := fun y => { y with
    flushTo := none, fresh := true, bufs := y.bufs.map fun b => { b with subst := false, pend := [] } }) fun x => ⟨rfl, rfl, rfl, rfl, rfl, rfl, rfl⟩)
  exact ((h2.trans (.pushRecord _ r)).codec (codec_wake ..)).showSched

theorem StreamKept.settleStream (h : ∀ x, s.stream n = some x → x.pic = none → x.closing = false) : StreamKept n s (s.settleStream n) := by
  unfold State.settleStream
  split
  · exact .refl n s
  · next x hx =>
    have hshow : StreamKept n s s.showSched := (StreamKept.refl n s).showSched
    split
    · exact hshow
    · next hpic =>
      rw [if_neg (by rw [h x hx (by simpa using hpic)]; decide)]
      split
      · exact hshow
      · exact .ite hshow (.flushed ..)

theorem StreamKept.afterPoll (h : ∀ x, s.stream n = some x → x.closing = false) : StreamKept n s (s.afterPoll n) := by
  unfold State.afterPoll
  extract_lets s1
  have h1 : StreamKept n s s1 := .ite (.refl n s) (.failEntries ..)
  clear_value s1
  refine h1.trans (.settleStream fun y hy _ => ?_)
  rcases hs : s.stream n with _ | x
  · rw [h1.shut hs] at hy
    cases hy
  · obtain ⟨w, hw, hxw⟩ := h1.opened x hs
    rw [Option.some.inj (hy.symm.trans hw), hxw.closing]
    exact h x hs

/-! ## Reading the indexes (R353) -/

/-- The indexes that the host wrote are in order. -/
def indexesOk (x : Stream) (b : List Nat) : Bool :=
  idxAhead (le32At b 0) x.subCons ≤ x.subN && idxAhead x.subProd x.subCons ≤ idxAhead (le32At b 0) x.subCons &&
    idxAhead x.outProd (le32At b 12) ≤ idxAhead x.outProd x.outCons &&
    idxAhead (le32At b 16) x.relCons ≤ x.outN && idxAhead x.relProd x.relCons ≤ idxAhead (le32At b 16) x.relCons

/-- The stream with the indexes that a poll has read. -/
def polled (s : State) (x : Stream) (b : List Nat) : Stream :=
  { x with subProd := le32At b 0, outCons := le32At b 12, relProd := le32At b 16, pollClk := s.now }

section
variable {s1 : State} {x : Stream} {b : List Nat} (hx : s.stream n = some x) (hread : (s.count pgSCHED 0x058 1).hubBytes x.ctx x.ringVa 24 = (s1, some b))
  (hlive : x.faulted = false)
include hx hread hlive

theorem readIndexes_eq : s.readIndexes n =
    if indexesOk x b then ((s1.setStream n (polled s x b)).drainRecs n x.recs.length).takeReleases n (idxAhead (le32At b 16) x.relCons)
    else (s1.setStream n { x with faulted := true, pollClk := s.now }).failEntries n stFAULT 0x07 (idxAhead x.subProd x.subCons) := by
  rw [State.readIndexes, hx]
  dsimp only
  rw [hread]
  dsimp only
  exact if_neg (by rw [hlive]; decide)

theorem readIndexes_takes (hok : indexesOk x b = true) : ∃ y, (s.readIndexes n).stream n = some y ∧ Steady (polled s x b) y := by
  rw [readIndexes_eq hx hread hlive, if_pos hok]
  exact ((StreamKept.drainRecs (s1.setStream n (polled s x b)) x.recs.length).trans (.takeReleases ..)).opened _ (stream_setStream_self ..)

theorem readIndexes_faults (hbad : indexesOk x b = false) :
    ∃ y, (s.readIndexes n).stream n = some y ∧ Steady { x with faulted := true, pollClk := s.now } y := by
  rw [readIndexes_eq hx hread hlive, if_neg (by rw [hbad]; decide)]
  exact (StreamKept.failEntries ..).opened _ (stream_setStream_self ..)

end

/-! ## A stream without a picture in progress -/

/-- Stream `n` has no picture in progress. -/
def PicFree (n : Nat) (s : State) : Prop := ∀ y, s.stream n = some y → y.pic = none

theorem PicFree.kept (h : PicFree n s) (k : StreamKept n s t) : PicFree n t := by
  intro y hy
  rcases hs : s.stream n with _ | x
  · rw [k.shut hs] at hy
    cases hy
  · obtain ⟨w, hw, hxw⟩ := k.opened x hs
    rw [Option.some.inj (hy.symm.trans hw), hxw.pic]
    exact h x hs

theorem PicFree.ite {c : Prop} [Decidable c] (h : PicFree n s) (k : PicFree n t) : PicFree n (if c then s else t) := by
  split
  · exact h
  · exact k

theorem PicFree.setStream (s : State) {x : Stream} (h : x.pic = none) : PicFree n (s.setStream n x) := by
  intro y hy
  rw [← Option.some.inj ((stream_setStream_self s n x).symm.trans hy)]
  exact h

theorem PicFree.codec (h : PicFree n s) (k : t.codec = s.codec) : PicFree n t := h.kept (.of_eq (stream_congr k n))

theorem PicFree.readIndexes (h : PicFree n s) : PicFree n (s.readIndexes n) := by
  unfold State.readIndexes
  split
  · exact h
  · next x hx =>
    have hread := codec_hubBytes (s.count pgSCHED 0x058 1) x.ctx x.ringVa 24
    have hpic := h x hx
    split
    · next s1 heq =>
      rw [heq] at hread
      exact h.codec hread
    · next s1 b heq =>
      rw [heq] at hread
      extract_lets sub out rel ok s2
      have h2 : PicFree n s2 := .setStream s1 hpic
      clear_value s2
      refine .ite (h.codec hread) (.ite ?_ ?_)
      · exact (h2.kept (.drainRecs ..)).kept (.takeReleases ..)
      · have hset : PicFree n (s1.setStream n { x with faulted := true, pollClk := s.now }) := .setStream s1 hpic
        exact hset.kept (.failEntries ..)

theorem PicFree.settleStream (h : PicFree n s) : PicFree n (s.settleStream n) := by
  rcases hs : s.stream n with _ | x
  · rw [State.settleStream, hs]
    exact h
  cases hclosing : x.closing with
  | false => exact h.kept (.settleStream fun y hy _ => by rw [← Option.some.inj (hs.symm.trans hy)]; exact hclosing)
  | true =>
    rw [State.settleStream, hs]
    dsimp only
    rw [if_neg (by rw [h x hs]; decide), if_pos hclosing]
    have hfail : PicFree n (s.failEntries n stCANCELLED 0x08 (idxAhead x.subProd x.subCons)) := h.kept (.failEntries ..)
    refine .ite (fun y hy => ?_) hfail
    rw [stream_dropStream] at hy
    cases hy

theorem PicFree.afterPoll (h : PicFree n s) : PicFree n (s.afterPoll n) :=
  PicFree.settleStream (.ite h (h.kept (.failEntries ..)))

/-! ## No engine becomes busy -/

theorem Winds.hubBytes (h : Winds z s) (c va m : Nat) : Winds z (s.hubBytes c va m).1 := h.hubRead ..

theorem Winds.takeReleases (h : Winds z s) (n fuel : Nat) : Winds z (s.takeReleases n fuel) := by
  induction fuel generalizing s with
  | zero => exact h
  | succ fuel ih =>
    rw [State.takeReleases]
    split
    · exact h
    · next x _ =>
      have hread := h.hubBytes x.ctx (x.relVa x.relCons) 4
      refine .ite h ?_
      split
      next s1 e heq =>
      rw [heq] at hread
      extract_lets i held x1 s2
      have h2 : Winds z s2 := Winds.hubWrite (Winds.of hread) ..
      clear_value s2
      exact ih (.ite h2 (h2.count ..))

theorem Winds.readIndexes (h : Winds z s) (n : Nat) : Winds z (s.readIndexes n) := by
  unfold State.readIndexes
  split
  · exact h
  · next x _ =>
    have hread := (h.count (pg := pgSCHED) (off := 0x058) 1).hubBytes x.ctx x.ringVa 24
    split
    · next s1 heq =>
      rw [heq] at hread
      exact hread
    · next s1 b heq =>
      rw [heq] at hread
      extract_lets sub out rel ok s2
      have h2 : Winds z s2 := Winds.of hread
      exact .ite hread (.ite ((h2.drainRecs ..).takeReleases ..) (Winds.failEntries (Winds.of hread) ..))

theorem Winds.settleStream (h : Winds z s) (n : Nat) : Winds z (s.settleStream n) := by
  unfold State.settleStream
  split
  · exact h
  · next x _ =>
    refine .ite h.showSched (.ite ?_ ?_)
    · exact .ite ((h.failEntries ..).dropStream n) (h.failEntries ..)
    · split
      · exact h.showSched
      · refine .ite h.showSched ?_
        extract_lets held s1 s2
        have h1 : Winds z s1 := .foldl (fun _ _ ht => ht.pushRecord ..) _ h
        have h2 : Winds z s2 := Winds.pushRecord (Winds.of h1) ..
        exact (h2.wake ..).showSched

theorem Winds.afterPoll (h : Winds z s) (n : Nat) : Winds z (s.afterPoll n) := Winds.settleStream (.ite h (h.failEntries ..)) n

end

end Sys2Proof
end

section
/-! PROOF. O41: the commands and polls of codec streams (R350–R353, R362, R375, R376). -/

namespace Sys2Proof

set_option Elab.async false

open Machine

/-! ## CODEC_OPEN (R350, R351) -/

theorem showSched_host (s : State) : s.showSched.host = s.host := by
  unfold State.showSched
  extract_lets long upd waits streams oldest codec1 s1
  have h1 : s1.host = s.host := rfl
  clear_value s1 waits streams oldest
  rw [State.wr, State.wr, State.wr, State.wr, State.wri_host, State.wri_host, State.wri_host, State.wri_host, State.count_host, h1]

theorem showSched_mill (s : State) : s.showSched.mill = s.mill := by
  unfold State.showSched
  extract_lets long upd waits streams oldest codec1 s1
  have h1 : s1.mill = s.mill := rfl
  clear_value s1 waits streams oldest
  rw [State.wr, State.wr, State.wr, State.wr, State.wri_mill, State.wri_mill, State.wri_mill, State.wri_mill, State.count_mill, h1]

theorem sameBytes_showSched (s : State) : SameBytes s s.showSched := by
  unfold State.showSched
  extract_lets long upd waits streams oldest codec1 s1
  have h1 : SameBytes s s1 := .of_eq
  clear_value s1 waits streams oldest
  have hwr (t : State) (pg v : Nat) (F : Field) : SameBytes t (t.wr pg F v) := .of_eq
  have hcount (t : State) (pg off n : Nat) : SameBytes t (t.count pg off n) := .of_eq
  exact ((((h1.trans (hcount ..)).trans (hwr ..)).trans (hwr ..)).trans (hwr ..)).trans (hwr ..)

theorem ctr_showSched (s : State) {off : Nat} (h : off ≠ 0x064) : s.showSched.ctr pgSCHED off = s.ctr pgSCHED off := by
  unfold State.showSched
  extract_lets long upd waits streams oldest codec1 s1
  have h1 : s1.ctrs = s.ctrs := rfl
  clear_value s1 waits streams oldest
  rw [State.ctr_wri, State.ctr_wri, State.ctr_wri, State.ctr_wri, State.ctr_count_ne _ _ (by omega), State.ctr, h1]
  rfl

section
variable {fn : Fin 32} {tag : Nat} {s : State}

/-- A stream that has been opened with a descriptor. -/
def opened (ctx clk : Nat) (b : List Nat) : Stream :=
  { ctx := ctx, sd := b, ten := nbit (b.getD 0 0) 7 && decide (3 ≤ b.getD 0 0 % 8), pollClk := clk }

theorem codecOpen_opens {ctx : Fin 1024} {desc n : Nat} {t1 : State} {b : List Nat} (hp : Performs s fn.val 0x48) (hup : s.codecUp = true)
    (hbound : s.boundTo fn.val ctx.val = true) (hfree : ((List.range 128).find? fun n => (s.stream n).isNone) = some n) (hdesc : desc % 64 = 0)
    (hread : (untake s fn.val tag 0x48).hubRead ctx.val desc 2 = (t1, some b)) (hok : sdOk b = true)
    (hpool : t1.rangeMapped ctx.val (opened ctx.val s.now b).poolVa ((opened ctx.val s.now b).poolN * (opened ctx.val s.now b).bufBytes) = true)
    (hring : t1.rangeMapped ctx.val (opened ctx.val s.now b).ringVa (64 + 64 * (opened ctx.val s.now b).subN + 36 * (opened ctx.val s.now b).outN) = true) :
    ∃ t y, exec (.codecOpen fn tag ctx desc) s = .next t ∧ t.host.resps = t1.host.resps ++ [{ fn := fn.val, tag := tag, status := 0, result := n }] ∧
      t.stream n = some y ∧ y.ctx = ctx.val ∧ y.sd = b ∧ y.ten = (opened ctx.val s.now b).ten ∧ y.bufs = List.replicate (opened ctx.val s.now b).poolN {} ∧
      y.closing = false ∧ y.faulted = false ∧ t.ctr pgSCHED 0x05C = t1.ctr pgSCHED 0x05C + 1 := by
  let x : Stream := { opened ctx.val s.now b with bufs := List.replicate (opened ctx.val s.now b).poolN {} }
  have hup' : (untake s fn.val tag 0x48).codecUp = true := hup
  have hbound' : (untake s fn.val tag 0x48).boundTo fn.val ctx.val = true := hbound
  have hfree' : ((List.range 128).find? fun n => ((untake s fn.val tag 0x48).stream n).isNone) = some n := hfree
  have hexec : exec (.codecOpen fn tag ctx desc) s =
      .next ((((t1.setStream n x).count pgSCHED 0x05C 1).showSched).respond fn.val tag stCOMPLETE n) := by
    change execCodecOpen fn tag ctx desc s = _
    rw [execCodecOpen, hp.command]
    dsimp only
    rw [hup', hbound', hfree', if_neg (by decide), if_neg (by decide)]
    dsimp only
    rw [if_neg (not_not.mpr hdesc), hread]
    dsimp only
    rw [hok, if_neg (by decide)]
    refine congrArg Host.Outcome.next (if_neg ?_)
    rw [Bool.or_eq_true, not_or, Bool.not_eq_true', Bool.not_eq_true', Bool.not_eq_false, Bool.not_eq_false]
    exact ⟨hpool, hring⟩
  have hstream : ((t1.setStream n x).count pgSCHED 0x05C 1).stream n = some x := stream_setStream_self ..
  have hctr : ((t1.setStream n x).count pgSCHED 0x05C 1).ctr pgSCHED 0x05C = t1.ctr pgSCHED 0x05C + 1 := State.ctr_count_self ..
  have hhost : ((t1.setStream n x).count pgSCHED 0x05C 1).host = t1.host := rfl
  generalize (t1.setStream n x).count pgSCHED 0x05C 1 = u at *
  have hshown := (stream_showSched u n).trans (congrArg _ hstream)
  have hhost' : u.showSched.host = t1.host := by rw [showSched_host, hhost]
  exact ⟨_, schedSeen u x, hexec, congrArg (fun h : HostSt => h.resps ++ _) hhost', hshown, rfl, rfl, rfl, rfl, rfl, rfl,
    (ctr_showSched u (by decide)).trans hctr⟩

/-! ## CODEC_CLOSE, CODEC_FLUSH (R352) -/

theorem settleStream_busy {n : Nat} {x : Stream} (hx : s.stream n = some x) (hpic : x.pic.isSome = true) : s.settleStream n = s.showSched := by
  rw [State.settleStream, hx]
  exact if_pos hpic

section
variable {n : Nat} {x : Stream} (hx : s.stream n = some x) (hpage : pagePresent s.variant (pgCODEC 0) = true) (hown : s.boundTo fn.val x.ctx = true)
include hx hpage hown

theorem codecClose_waits (hp : Performs s fn.val 0x49) (hpic : x.pic.isSome = true) :
    ∃ t y, exec (.codecClose fn tag n) s = .next t ∧ t.stream n = some y ∧ y.closing = true ∧ y.pic = x.pic ∧ t.host.resps = s.host.resps ∧
      t.host.waits = s.host.waits ++ [{ fn := fn.val, tag := tag, on := .drain 4 n 0, result := 0 }] ∧ SameBytes s t := by
  let u : State := (((untake s fn.val tag 0x49).setStream n { x with closing := true }).hold fn.val tag (.drain 4 n 0) 0)
  have hstream : u.stream n = some { x with closing := true } := stream_setStream_self ..
  have hexec : exec (.codecClose fn tag n) s = .next u.showSched := by
    change execCodecClose fn tag n s = _
    rw [execCodecClose, hp.streamCommand hpage hx hown (by simp)]
    exact congrArg Host.Outcome.next (settleStream_busy hstream hpic)
  have hresps : u.host.resps = s.host.resps := rfl
  have hwaits : u.host.waits = s.host.waits ++ [{ fn := fn.val, tag := tag, on := .drain 4 n 0, result := 0 }] := rfl
  have hbytes : SameBytes s u := .of_eq
  generalize u = v at *
  exact ⟨_, schedSeen v { x with closing := true }, hexec, (stream_showSched v n).trans (congrArg _ hstream), rfl, rfl, by rw [showSched_host]; exact hresps,
    by rw [showSched_host]; exact hwaits, hbytes.trans (sameBytes_showSched v)⟩

theorem codecFlush_waits (hp : Performs s fn.val 0x4A) (hfaulted : x.faulted = false) (hclosing : x.closing = false) (hpic : x.pic.isSome = true) :
    ∃ t y, exec (.codecFlush fn tag n) s = .next t ∧ t.stream n = some y ∧ y.flushTo = some x.subProd ∧ t.host.resps = s.host.resps ∧
      t.host.waits = s.host.waits ++ [{ fn := fn.val, tag := tag, on := .drain 5 n 0, result := 0 }] ∧ SameBytes s t := by
  let u : State := (((untake s fn.val tag 0x4A).setStream n { x with flushTo := some x.subProd }).hold fn.val tag (.drain 5 n 0) 0)
  have hstream : u.stream n = some { x with flushTo := some x.subProd } := stream_setStream_self ..
  have hexec : exec (.codecFlush fn tag n) s = .next u.showSched := by
    change execCodecFlush fn tag n s = _
    rw [execCodecFlush, hp.streamCommand hpage hx hown (by simp [hfaulted, hclosing])]
    exact congrArg Host.Outcome.next (settleStream_busy hstream hpic)
  have hresps : u.host.resps = s.host.resps := rfl
  have hwaits : u.host.waits = s.host.waits ++ [{ fn := fn.val, tag := tag, on := .drain 5 n 0, result := 0 }] := rfl
  have hbytes : SameBytes s u := .of_eq
  generalize u = v at *
  exact ⟨_, schedSeen v { x with flushTo := some x.subProd }, hexec, (stream_showSched v n).trans (congrArg _ hstream), rfl,
    by rw [showSched_host]; exact hresps, by rw [showSched_host]; exact hwaits, hbytes.trans (sameBytes_showSched v)⟩

/-- A wait that ends with stream `n`. -/
def waitsFor (n : Nat) (w : WaitOn) : Bool := match w with
  | .drain 4 k _ => k == n
  | .drain 5 k _ => k == n
  | _ => false

omit hx hpage hown in
/-- The stream's state is gone, and the commands that wait for it are answered. -/
theorem dropStream_spec (s : State) (n : Nat) : mget (s.dropStream n).mill.chains n = none ∧ (s.dropStream n).ctr pgSCHED 0x060 = s.ctr pgSCHED 0x060 + 1 ∧
    ∀ w, s.host.waits = [w] → waitsFor n w.on = true → (s.dropStream n).host.waits = [] ∧ Answered s (s.dropStream n) w.fn w.tag stCOMPLETE w.result := by
  unfold State.dropStream
  extract_lets codec1 mill1 s1
  have hchains : mget s1.mill.chains n = none := mget_mdel_self ..
  have hctr : (s1.count pgSCHED 0x060 1).ctr pgSCHED 0x060 = s.ctr pgSCHED 0x060 + 1 := State.ctr_count_self s1 ..
  have hhost : (s1.count pgSCHED 0x060 1).host = s.host := rfl
  have hmill : (s1.count pgSCHED 0x060 1).mill = s1.mill := rfl
  generalize s1.count pgSCHED 0x060 1 = u at *
  clear_value s1
  change mget (((u.wake (waitsFor n) stCOMPLETE).showMill).showSched).mill.chains n = none ∧
    (((u.wake (waitsFor n) stCOMPLETE).showMill).showSched).ctr pgSCHED 0x060 = _ ∧ ∀ w, s.host.waits = [w] → waitsFor n w.on = true →
      (((u.wake (waitsFor n) stCOMPLETE).showMill).showSched).host.waits = [] ∧
        Answered s (((u.wake (waitsFor n) stCOMPLETE).showMill).showSched) w.fn w.tag stCOMPLETE w.result
  have hend (t : State) : t.showMill.showSched.host = t.host ∧ t.showMill.showSched.mill = t.mill := by
    rw [showSched_host, showSched_mill]
    exact ⟨showMill_host t, showMill_mill t⟩
  obtain ⟨ehost, emill⟩ := hend (u.wake (waitsFor n) stCOMPLETE)
  refine ⟨?_, ?_, fun w hw hdone => ?_⟩
  · rw [emill, wake_rest, hmill]
    exact hchains
  · rw [ctr_showSched _ (by decide), showMill_ctr, wake_rest]
    exact hctr
  · obtain ⟨hwaits, hanswer⟩ := wake_one (s := u) stCOMPLETE ((congrArg HostSt.waits hhost).trans hw) hdone
    refine ⟨by rw [ehost, hwaits], ?_⟩
    rw [Answered, ehost, hanswer, hhost]

omit hx hpage hown in
theorem idxAhead_self (a : Nat) : idxAhead a a = 0 := by
  rw [idxAhead]
  omega

omit hx hpage hown in
theorem settleStream_closes {x : Stream} (hx : s.stream n = some x) (hpic : x.pic = none) (hclosing : x.closing = true) (hcons : x.subCons = x.subProd)
    (hrecs : x.recs = []) : s.settleStream n = s.dropStream n := by
  rw [State.settleStream, hx]
  dsimp only
  rw [if_neg (by rw [hpic]; decide), if_pos hclosing, hcons, idxAhead_self, State.failEntries, hx, Option.map_some, hrecs]
  exact if_pos rfl

theorem codecClose_closes (hp : Performs s fn.val 0x49) (hpic : x.pic = none) (hcons : x.subCons = x.subProd) (hrecs : x.recs = []) :
    ∃ t, exec (.codecClose fn tag n) s = .next t ∧ t.stream n = none ∧ mget t.mill.chains n = none ∧
      t.ctr pgSCHED 0x060 = s.ctr pgSCHED 0x060 + 1 ∧ (s.host.waits = [] → t.host.waits = [] ∧ Answered s t fn.val tag 0 0) := by
  let u : State := (((untake s fn.val tag 0x49).setStream n { x with closing := true }).hold fn.val tag (.drain 4 n 0) 0)
  have hstream : u.stream n = some { x with closing := true } := stream_setStream_self ..
  have hexec : exec (.codecClose fn tag n) s = .next (u.dropStream n) := by
    change execCodecClose fn tag n s = _
    rw [execCodecClose, hp.streamCommand hpage hx hown (by simp)]
    exact congrArg Host.Outcome.next (settleStream_closes hstream hpic rfl hcons hrecs)
  have hresps : u.host.resps = s.host.resps := rfl
  have hwaits : u.host.waits = s.host.waits ++ [{ fn := fn.val, tag := tag, on := .drain 4 n 0, result := 0 }] := rfl
  have hctrs : u.ctr pgSCHED 0x060 = s.ctr pgSCHED 0x060 := rfl
  generalize u = v at *
  obtain ⟨hchains, hctr, hwoken⟩ := dropStream_spec v n
  refine ⟨_, hexec, stream_dropStream v n, hchains, hctr.trans (congrArg (· + 1) hctrs), fun hnone => ?_⟩
  rw [hnone] at hwaits
  obtain ⟨hw, hanswer⟩ := hwoken { fn := fn.val, tag := tag, on := .drain 4 n 0, result := 0 } hwaits (beq_self_eq_true n)
  exact ⟨hw, hanswer.trans (by rw [hresps])⟩

/-! ## CODEC_KEYREQ, CODEC_RC_SET (R375, R376) -/

theorem codecKeyreq_refuses (hp : Performs s fn.val 0x4B) (hfaulted : x.faulted = false) (hclosing : x.closing = false) (henc : x.enc = false) :
    ∃ t, exec (.codecKeyreq fn tag n) s = .next t ∧ SameBytes s t ∧ Answered s t fn.val tag stFAULT 0 ∧ t.codec = s.codec := by
  refine ⟨(untake s fn.val tag 0x4B).respond fn.val tag stFAULT 0, ?_, .of_eq, answered_respond rfl .., rfl⟩
  change execCodecKeyreq fn tag n s = _
  rw [execCodecKeyreq, hp.streamCommand hpage hx hown (by rw [hfaulted, hclosing]; rfl), henc, if_neg Bool.false_ne_true]

theorem codecRcSet_sets {desc : Nat} {t1 : State} {b sd : List Nat} (hp : Performs s fn.val 0x4C) (hfaulted : x.faulted = false) (hclosing : x.closing = false)
    (henc : x.enc = true) (hdesc : desc % 64 = 0) (hread : (untake s fn.val tag 0x4C).hubRead x.ctx desc 2 = (t1, some b))
    (hsd : sd = x.sd.take 28 ++ ((b.drop 28).take 30) ++ x.sd.drop 58) (hok : rcOk sd = true) :
    ∃ t, exec (.codecRcSet fn tag n desc) s = .next t ∧ t.stream n = some { x with rc := some sd } ∧
      t.host.resps = t1.host.resps ++ [{ fn := fn.val, tag := tag, status := 0, result := 0 }] := by
  refine ⟨(t1.setStream n { x with rc := some sd }).respond fn.val tag stCOMPLETE 0, ?_, stream_setStream_self .., rfl⟩
  change execCodecRcSet fn tag n desc s = _
  rw [execCodecRcSet, hp.streamCommand hpage hx hown (by rw [hfaulted, hclosing]; rfl), if_neg (by simp [henc, hdesc]), hread]
  dsimp only
  rw [← hsd, if_pos hok]

end

end

/-! ## CODEC_RING_POLL (R353, R362) -/

section
variable {n : Nat} {s s1 : State} {x : Stream} {b : List Nat} (hx : s.stream n = some x) (hdue : x.pollClk + s.rd pgSCHED F.SCH_POLL_US * clkUs ≤ s.now)
  (hlive : x.faulted = false) (hopen : x.closing = false) (hread : (s.count pgSCHED 0x058 1).hubBytes x.ctx x.ringVa 24 = (s1, some b))
include hx hdue hlive hopen hread

omit hlive hopen hread in
theorem exec_codecRingPoll : exec (.codecRingPoll n) s = .next ((s.readIndexes n).afterPoll n) := by
  change execCodecRingPoll n s = _
  rw [execCodecRingPoll, hx]
  exact congrArg Host.Outcome.next (if_neg (Nat.not_lt.mpr hdue))

omit hx hdue hlive hopen hread in
/-- What follows a poll keeps the stream, unless it is closing. -/
theorem afterPoll_steady {t : State} {w y : Stream} (hy : t.stream n = some y) (hwy : Steady w y) (hopen : w.closing = false) :
    ∃ v, (t.afterPoll n).stream n = some v ∧ Steady w v := by
  have hkept : StreamKept n t (t.afterPoll n) := .afterPoll fun v hv => by
    rw [← Option.some.inj (hy.symm.trans hv), hwy.closing, hopen]
  obtain ⟨v, hv, hyv⟩ := hkept.opened y hy
  exact ⟨v, hv, hwy.trans hyv⟩

theorem codecRingPoll_takes (h1 : idxAhead (le32At b 0) x.subCons ≤ x.subN) (h2 : idxAhead x.subProd x.subCons ≤ idxAhead (le32At b 0) x.subCons)
    (h3 : idxAhead x.outProd (le32At b 12) ≤ idxAhead x.outProd x.outCons) (h4 : idxAhead (le32At b 16) x.relCons ≤ x.outN)
    (h5 : idxAhead x.relProd x.relCons ≤ idxAhead (le32At b 16) x.relCons) :
    ∃ t y, exec (.codecRingPoll n) s = .next t ∧ t.stream n = some y ∧ y.subProd = le32At b 0 ∧ y.outCons = le32At b 12 ∧
      y.relProd = le32At b 16 ∧ y.pollClk = s.now ∧ y.faulted = false := by
  have hok : indexesOk x b = true := by simp [indexesOk, h1, h2, h3, h4, h5]
  obtain ⟨y, hy, hpolled⟩ := readIndexes_takes hx hread hlive hok
  obtain ⟨v, hv, hsteady⟩ := afterPoll_steady hy hpolled hopen
  exact ⟨_, v, exec_codecRingPoll hx hdue, hv, hsteady.subProd, hsteady.outCons, hsteady.relProd, hsteady.pollClk, hsteady.faulted.trans hlive⟩

theorem codecRingPoll_faults (hfar : x.subN < idxAhead (le32At b 0) x.subCons) :
    ∃ t y, exec (.codecRingPoll n) s = .next t ∧ t.stream n = some y ∧ y.faulted = true ∧ y.pollClk = s.now := by
  have hbad : indexesOk x b = false := by simp [indexesOk, hfar]
  obtain ⟨y, hy, hfault⟩ := readIndexes_faults hx hread hlive hbad
  obtain ⟨v, hv, hsteady⟩ := afterPoll_steady hy hfault hopen
  exact ⟨_, v, exec_codecRingPoll hx hdue, hv, hsteady.faulted, hsteady.pollClk⟩

end

end Sys2Proof
end

section
/-! PROOF. O41: the pictures of codec streams and the overload mode (R348, R356, R359, R368). -/

namespace Sys2Proof

set_option Elab.async false

open Machine

/-! ## ENG.BUSY -/

theorem rd_busy_wr_ne {s : State} {k v : Nat} {F0 : Field} (hF : F0.off < 0x1000 ∧ F0.lo < 32 ∧ (F0.off ≠ 0x100 ∨ F0.lo ≠ 31) := by decide) :
    (s.wr (pgCODEC k) F0 v).rd (pgCODEC k) F.ENG_BUSY = s.rd (pgCODEC k) F.ENG_BUSY := by
  refine State.rdi_wri_ne _ _ ?_
  simp only [fkey, F.ENG_BUSY]
  omega

theorem rd_busy_wr_self (s : State) (k v : Nat) : (s.wr (pgCODEC k) F.ENG_BUSY v).rd (pgCODEC k) F.ENG_BUSY = v % 2 := State.rdi_wri_self ..

theorem rd_count_eq (s : State) (pg off m p : Nat) (F0 : Field) : (s.count pg off m).rd p F0 = s.rd p F0 := rfl

theorem rd_busy_showSched {s : State} {k : Nat} : s.showSched.rd (pgCODEC k) F.ENG_BUSY = s.rd (pgCODEC k) F.ENG_BUSY := by
  have hwr (t : State) (F0 : Field) (v : Nat) (hF : F0.off < 0x1000 ∧ F0.lo < 32) :
      (t.wr pgSCHED F0 v).rd (pgCODEC k) F.ENG_BUSY = t.rd (pgCODEC k) F.ENG_BUSY := by
    refine State.rdi_wri_ne _ _ ?_
    simp only [fkey, F.ENG_BUSY, pgSCHED, pgCODEC]
    omega
  unfold State.showSched
  extract_lets long upd waits streams oldest codec1 s1
  have h1 : s1.rd (pgCODEC k) F.ENG_BUSY = s.rd (pgCODEC k) F.ENG_BUSY := rfl
  clear_value s1 waits streams oldest
  rw [hwr _ _ _ (by decide), hwr _ _ _ (by decide), hwr _ _ _ (by decide), hwr _ _ _ (by decide), rd_count_eq, h1]

/-! ## An engine takes a picture (R348, R349, R356) -/

/-- Stream `n` has picture `p` in progress, and engine `k` is busy. -/
structure Takes (k n : Nat) (p : CPic) (t : State) : Prop where
  stream : ∃ z, t.stream n = some z ∧ z.pic = some p
  busy : t.rd (pgCODEC k) F.ENG_BUSY = 1

theorem rd_busy_engTakes (s : State) (k n luma : Nat) (x : Stream) : (s.engTakes k n x luma).1.rd (pgCODEC k) F.ENG_BUSY = 1 := by
  have hite (c : Prop) [Decidable c] (t : State) (pg off m : Nat) (h : t.rd (pgCODEC k) F.ENG_BUSY = 1) :
      (if c then t.count pg off m else t).rd (pgCODEC k) F.ENG_BUSY = 1 := by
    split
    · exact h
    · exact h
  unfold State.engTakes
  extract_lets pg sw charge s1 s2
  have h1 : s1.rd (pgCODEC k) F.ENG_BUSY = 1 :=
    (rd_count_eq ..).trans ((rd_busy_wr_ne (F0 := F.ENG_CHARGE_CLK)).trans ((rd_busy_wr_ne (F0 := F.ENG_STREAM)).trans
      ((rd_busy_wr_ne (F0 := F.ENG_MODE)).trans (rd_busy_wr_self s k 1))))
  have h2 : s2.rd (pgCODEC k) F.ENG_BUSY = 1 := by
    simp only [s2]
    split
    · exact h1
    · exact h1
  clear_value s2
  exact hite _ s2 _ _ _ h2

theorem Takes.settled {s : State} {k n : Nat} {p : CPic} (h : Takes k n p s) : Takes k n p (s.settleStream n) := by
  obtain ⟨⟨z, hz, hpic⟩, hbusy⟩ := h
  rw [settleStream_busy hz (by rw [hpic]; rfl)]
  exact ⟨⟨schedSeen s z, (stream_showSched s n).trans (congrArg _ hz), hpic⟩, rd_busy_showSched.trans hbusy⟩

section
variable {s : State} {k n i idx : Nat} {x : Stream} {e : List Nat}

theorem startEncode_takes (hfree : x.freeBuf = some i) :
    ∃ p, Takes k n p (s.startEncode k n x e idx) ∧ p.eng = some k ∧ p.buf = i ∧ p.entry = e ∧ p.idx = idx := by
  unfold State.startEncode
  extract_lets x1 interval due key ltr
  have hfree1 : x1.freeBuf = some i := hfree
  have hbusy := rd_busy_engTakes s k n x1.encLuma x1
  clear_value x1 key ltr
  rw [hfree1]
  dsimp only
  generalize s.engTakes k n x1 x1.encLuma = a at *
  exact ⟨_, ⟨⟨_, stream_setStream_self .., rfl⟩, hbusy⟩, rfl, rfl, rfl, rfl⟩

theorem startDecode_takes {syn : PicSyntax} {s1 : State} {x1 : Stream} (hseq : s.seqCheck n x syn.header = (s1, x1)) (hcause : x1.seqCause = 0)
    (hrasl : (syn.rasl && x1.skipRasl && !syn.key) = false) (hfree : x1.freeBuf = some i) :
    ∃ p, Takes k n p (s.startDecode k n x e idx syn) ∧ p.eng = some k ∧ p.buf = i ∧ p.entry = e ∧ p.key = syn.key ∧ p.idx = idx := by
  have hbusy := rd_busy_engTakes s1 k n (syn.w * syn.h) x1
  unfold State.startDecode
  rw [hseq]
  dsimp only
  rw [if_neg (not_not.mpr hcause), hrasl, if_neg Bool.false_ne_true, hfree]
  dsimp only
  generalize s1.engTakes k n x1 (syn.w * syn.h) = a at *
  exact ⟨_, ⟨⟨_, stream_setStream_self .., rfl⟩, hbusy⟩, rfl, rfl, rfl, rfl, rfl⟩

end

section
variable {eng : Fin 4} {syn : PicSyntax} {s s1 s2 : State} {n i : Nat} {x y x1 : Stream} {b : List Nat} (hunit : s.hasUnit (pgCODEC eng.val) = true)
  (hidle : s.on (pgCODEC eng.val) F.ENG_BUSY = false) (hrun : s.codecStopped = false) (htest : s.testing (.codec eng) = false)
  (hnone : (s.codec.streams.find? fun e => e.2.pic.any fun p => p.eng.isNone) = none) (hnext : s.nextStream = some (n, y)) (hs1 : s1 = s.readIndexes n)
  (hx : s1.stream n = some x) (hwants : x.wants = true) (hentry : s1.takeEntry n x = (s2, x1, some b))
include hunit hidle hrun htest hnone hnext hs1 hx hwants hentry

theorem exec_pictureStart : exec (.pictureStart eng syn) s =
    .next ((if x1.enc then s2.startEncode eng.val n x1 b x.subCons else s2.startDecode eng.val n x1 b x.subCons syn).settleStream n) := by
  change execPictureStart eng syn s = _
  rw [execPictureStart]
  dsimp only
  rw [hunit, hidle, hrun, htest, if_neg (by decide), hnone, hnext]
  dsimp only
  rw [← hs1, hx]
  dsimp only
  rw [hwants, if_neg (by decide), hentry]

theorem pictureStart_encodes (henc : x1.enc = true) (hfree : x1.freeBuf = some i) :
    ∃ t z p, exec (.pictureStart eng syn) s = .next t ∧ t.stream n = some z ∧ z.pic = some p ∧ p.eng = some eng.val ∧ p.buf = i ∧ p.entry = b ∧
      p.idx = x.subCons ∧ t.rd (pgCODEC eng.val) F.ENG_BUSY = 1 := by
  have hexec := exec_pictureStart (syn := syn) hunit hidle hrun htest hnone hnext hs1 hx hwants hentry
  rw [henc, if_pos rfl] at hexec
  obtain ⟨p, htakes, heng, hbuf, hent, hidx⟩ := startEncode_takes (s := s2) (k := eng.val) (n := n) (e := b) (idx := x.subCons) hfree
  obtain ⟨⟨z, hz, hpic⟩, hbusy⟩ := htakes.settled
  exact ⟨_, z, p, hexec, hz, hpic, heng, hbuf, hent, hidx, hbusy⟩

theorem pictureStart_decodes {s3 : State} {x2 : Stream} (henc : x1.enc = false) (hseq : s2.seqCheck n x1 syn.header = (s3, x2)) (hcause : x2.seqCause = 0)
    (hrasl : (syn.rasl && x2.skipRasl && !syn.key) = false) (hfree : x2.freeBuf = some i) :
    ∃ t z p, exec (.pictureStart eng syn) s = .next t ∧ t.stream n = some z ∧ z.pic = some p ∧ p.eng = some eng.val ∧ p.buf = i ∧ p.entry = b ∧
      p.key = syn.key ∧ p.idx = x.subCons ∧ t.rd (pgCODEC eng.val) F.ENG_BUSY = 1 := by
  have hexec := exec_pictureStart (syn := syn) hunit hidle hrun htest hnone hnext hs1 hx hwants hentry
  rw [henc, if_neg Bool.false_ne_true] at hexec
  obtain ⟨p, htakes, heng, hbuf, hent, hkey, hidx⟩ := startDecode_takes (k := eng.val) (e := b) (idx := x.subCons) hseq hcause hrasl hfree
  obtain ⟨⟨z, hz, hpic⟩, hbusy⟩ := htakes.settled
  exact ⟨_, z, p, hexec, hz, hpic, heng, hbuf, hent, hkey, hidx, hbusy⟩

end

end Sys2Proof
end

section
/-! PROOF. O41: the end of a codec engine's picture, and the overload mode (R356, R359, R368); O41 settled. -/

namespace Sys2Proof

set_option Elab.async false

open Machine

/-! .setStream The engine becomes idle (R354) -/

/-- Engine `k` is idle, and stream `n` has no picture in progress. -/
structure Ended (k n : Nat) (s : State) : Prop where
  idle : s.rd (pgCODEC k) F.ENG_BUSY = 0
  free : PicFree n s

theorem codec_ctxNoteQ (s : State) (c bit q : Nat) : (s.ctxNoteQ c bit q).codec = s.codec :=
  ((CodecSame.refl s).hub (((HubWork.refl s).free _).ctxEvent ..)).codec

theorem idle_engIdle (s : State) (k n : Nat) (p : CPic) : (s.engIdle k n p).rd (pgCODEC k) F.ENG_BUSY = 0 :=
  (rd_count_eq ..).trans ((rd_busy_wr_ne (F0 := F.ENG_LAST_STREAM)).trans (rd_busy_wr_self _ k 0))

section
variable {s t : State} {k n : Nat} (hk : k < 4)
include hk

theorem Winds.idle_engine (h : Winds s t) (hi : s.rd (pgCODEC k) F.ENG_BUSY = 0) : t.rd (pgCODEC k) F.ENG_BUSY = 0 := by
  refine h.idle _ (decide_eq_true ?_) hi
  simp only [fkey, F.ENG_BUSY, pgCODEC]
  omega

theorem Ended.of (h : Ended k n s) (w : Winds s t) (f : StreamKept n s t) : Ended k n t := ⟨w.idle_engine hk h.idle, h.free.kept f⟩

omit hk in
theorem Ended.setStream (hi : s.rd (pgCODEC k) F.ENG_BUSY = 0) {x : Stream} (hx : x.pic = none) : Ended k n (s.setStream n x) :=
  ⟨hi, .setStream s hx⟩

omit hk in
theorem Ended.count (h : Ended k n s) (pg off m : Nat) : Ended k n (s.count pg off m) := ⟨h.idle, h.free.codec rfl⟩

omit hk in
theorem Ended.count1024 (h : Ended k n s) (pg off m : Nat) : Ended k n (s.count1024 pg off m) := ⟨h.idle, h.free.kept (.of_eq rfl)⟩

theorem Ended.streamCount (h : Ended k n s) (c : Nat) (fd : Field) (d : Nat) : Ended k n (s.streamCount c n fd d) :=
  h.of hk ((Winds.refl s).wri _ _ _ (by simp only [pgCNT]; omega)) (.of_eq rfl)

theorem Ended.ctxNoteQ (h : Ended k n s) (c bit q : Nat) : Ended k n (s.ctxNoteQ c bit q) :=
  h.of hk ((Winds.refl s).ctxNoteQ ..) (.of_eq (stream_congr (codec_ctxNoteQ ..) n))

theorem Ended.pushRecord (h : Ended k n s) (r : List Nat) : Ended k n (s.pushRecord n r) := h.of hk ((Winds.refl s).pushRecord ..) (.pushRecord ..)

theorem Ended.keyRequest (h : Ended k n s) (x : Stream) (idx : Nat) : Ended k n (s.keyRequest n x idx) := by
  rw [State.keyRequest]
  split
  · exact (h.pushRecord hk _).ctxNoteQ hk ..
  · exact h

omit hk in
theorem Ended.ite {c : Prop} [Decidable c] (h : Ended k n s) (h' : Ended k n t) : Ended k n (if c then s else t) := by
  split
  · exact h
  · exact h'

omit hk in
theorem Ended.foldl {α : Type} {g : State → α → State} (hg : ∀ t x, Ended k n t → Ended k n (g t x)) (l : List α) (h : Ended k n s) : Ended k n (l.foldl g s) :=
  List.foldlRecOn (motive := Ended k n) l g h fun t ht x _ => hg t x ht

theorem Ended.polled (h : Ended k n s) : Ended k n ((s.readIndexes n).afterPoll n) :=
  ⟨(((Winds.refl s).readIndexes n).afterPoll n).idle_engine hk h.idle, h.free.readIndexes.afterPoll⟩

/-- The records of pictures that are output in order. -/
theorem Ended.outs (h : Ended k n s) (l : List Nat) :
    Ended k n (l.foldl (fun t i => match t.stream n with
      | some y =>
        let b := y.bufs.getD i {}
        if b.output && !b.pend.isEmpty then (t.setStream n { y with bufs := y.bufs.modify i fun z => { z with pend := [] } }).pushRecord n b.pend else t
      | none => t) s) := by
  refine .foldl (fun t i ht => ?_) l h
  split
  · next y hy =>
    have hset : Ended k n (t.setStream n { y with bufs := y.bufs.modify i fun z => { z with pend := [] } }) := .setStream ht.idle (ht.free y hy)
    exact .ite (hset.pushRecord hk _) ht
  · exact ht

theorem ended_doneDecode (s : State) (x : Stream) (p : CPic) (o : PicOut) (f : Bool) : Ended k n (s.doneDecode k n x p o f) := by
  unfold State.doneDecode
  extract_lets c auVa auLen refBad status mark now
  split
  next s1 bad heq =>
  extract_lets s2 syntaxErr starts ep concealed flags cause r s3 bufs count x1 s4 s5 s6 s7
  have hset : PicFree n (s3.setStream n x1) := .setStream s3 rfl
  clear_value s3 x1 now ep concealed
  have h4 : Ended k n s4 :=
    ((Ended.count ⟨idle_engIdle (s3.setStream n x1) k n p, hset.kept (.of_eq rfl)⟩ ..).count1024 ..)
  have h5 : Ended k n s5 := (Ended.ite (h4.ctxNoteQ hk ..) h4).streamCount hk ..
  have h6 : Ended k n s6 := .ite (h5.streamCount hk ..) h5
  have h7 : Ended k n s7 := .ite (h6.keyRequest hk ..) h6
  exact h7.outs hk now

theorem ended_doneEncode (s : State) (x : Stream) (p : CPic) (o : PicOut) (f : Bool) : Ended k n (s.doneEncode k n x p o f) := by
  unfold State.doneEncode
  extract_lets c pitch dst tooLong ts x1 bits left mk key
  split
  next s1 bad heq =>
  extract_lets unmapped cause
  split
  next s2 r hfresh =>
  extract_lets s3 qps sum avg prev x2 s4 s5 acc codec1 s6
  have h3 : s3.rd (pgCODEC k) F.ENG_BUSY = 0 := idle_engIdle s2 k n p
  have hx1 : x1.pic = none := rfl
  have hx2 : x2.pic = none := rfl
  clear_value s3 x1 x2 key acc
  refine .ite ((Ended.setStream h3 hx1).pushRecord hk _) ?_
  have hw := ((Winds.refl s3).hubWrite c dst (o.data.map fun b => b.toNat)).idle_engine hk h3
  have h4 : Ended k n s4 := (Ended.setStream hw hx2).count ..
  have h5 : Ended k n s5 := ((h4.count1024 ..).streamCount hk ..).count ..
  clear_value s5
  have h6 : Ended k n s6 := Ended.streamCount hk (s := { s5 with codec := { s5.codec with rest := nput s5.codec.rest key (acc % 1024) } })
    ⟨h5.idle, h5.free.kept (.of_eq rfl)⟩ ..
  exact h6.pushRecord hk _

end

/-! .setStream PICTURE_DONE (R359, R368) -/

theorem setStream_regs (s : State) (n : Nat) (x : Stream) : (s.setStream n x).regs = s.regs := rfl

theorem sameBytes_setStream (s : State) (n : Nat) (x : Stream) : SameBytes s (s.setStream n x) := .of_eq

/-- A first detection at the end of a picture, and the rerun, told on the engine's page. -/
def rerunTold (s : State) (pg : Nat) : State := (((s.raise pg 0).raise pg 1).count pg 0x064 1).count pg 0x068 1

theorem quiet_rerunTold (s : State) (pg : Nat) : Quiet s (rerunTold s pg) :=
  ((((quiet_refl s).raise pg 0).raise pg 1).count pg 0x064 1).count pg 0x068 1

theorem raised_rerunTold (s : State) (pg : Nat) : Raised (rerunTold s pg) pg 0 ∧ Raised (rerunTold s pg) pg 1 := by
  have h0 : Raised ((s.raise pg 0).raise pg 1) pg 0 := raised_mono pg 1 (by decide) (raised_raise s pg 0 (by decide))
  have h1 : Raised ((s.raise pg 0).raise pg 1) pg 1 := raised_raise (s.raise pg 0) pg 1 (by decide)
  rw [rerunTold]
  generalize (s.raise pg 0).raise pg 1 = u at *
  exact ⟨raised_congr rfl h0, raised_congr rfl h1⟩

section
variable {eng : Fin 4} {out : PicOut} {s : State} {n : Nat} {x : Stream} {p : CPic}
  (hfind : (s.codec.streams.find? fun e => e.2.pic.any fun p => p.eng == some eng.val) = some (n, x)) (hpic : x.pic = some p)
include hfind hpic

theorem pictureDone_reruns (hdet : out.detect = true) (hfirst : p.dets = 0) :
    ∃ t, exec (.pictureDone eng out) s = .next t ∧ Raised t (pgCODEC eng.val) 0 ∧ Raised t (pgCODEC eng.val) 1 ∧
      t.stream n = some { x with pic := some { p with dets := 1, recomputed := true } } ∧ SameBytes s t := by
  have hexec : exec (.pictureDone eng out) s =
      .next ((((rerunTold s (pgCODEC eng.val)).noteDetected x.ctx).count (pgCNT x.ctx) F.CNT_RECOMP 1).setStream n
        { x with pic := some { p with dets := 1, recomputed := true } }) := by
    change execPictureDone eng out s = _
    rw [execPictureDone]
    dsimp only
    rw [hfind]
    dsimp only
    rw [hpic]
    dsimp only
    rw [hdet, hfirst, if_pos (by decide), rerunTold]
  obtain ⟨h0, h1⟩ := raised_rerunTold s (pgCODEC eng.val)
  have hquiet := quiet_rerunTold s (pgCODEC eng.val)
  have hshown : SameBytes s (rerunTold s (pgCODEC eng.val)) := hquiet.sameBytes
  generalize rerunTold s (pgCODEC eng.val) = u at *
  have hon : Onward (pgCODEC eng.val) u (u.noteDetected x.ctx) := (Onward.ctxNote (.refl ..)).count
  have hbytes : SameBytes s (u.noteDetected x.ctx) := hshown.trans (sameBytes_noteDetected u x.ctx)
  generalize u.noteDetected x.ctx = v at *
  have hregs : (v.count (pgCNT x.ctx) F.CNT_RECOMP 1).regs = v.regs := State.count_regs ..
  have hcount : SameBytes v (v.count (pgCNT x.ctx) F.CNT_RECOMP 1) := ((quiet_refl v).count (pgCNT x.ctx) F.CNT_RECOMP 1).sameBytes
  generalize v.count (pgCNT x.ctx) F.CNT_RECOMP 1 = w at *
  have hon' (bit : Nat) (hb : bit < 32) (hr : Raised u (pgCODEC eng.val) bit) (y : Stream) : Raised (w.setStream n y) (pgCODEC eng.val) bit :=
    raised_congr ((setStream_regs w n y).trans hregs) (hon.events bit hb hr)
  exact ⟨_, hexec, hon' 0 (by decide) h0 _, hon' 1 (by decide) h1 _, stream_setStream_self .., (hbytes.trans hcount).trans (sameBytes_setStream ..)⟩

theorem pictureDone_ends (hlast : out.detect = false ∨ p.dets ≠ 0) :
    ∃ t, exec (.pictureDone eng out) s = .next t ∧ t.rd (pgCODEC eng.val) F.ENG_BUSY = 0 ∧ ∀ y, t.stream n = some y → y.pic = none := by
  let u : State := if out.detect then (((s.raise (pgCODEC eng.val) 0).raise (pgCODEC eng.val) 2).count (pgCODEC eng.val) 0x064 1).noteDetected x.ctx else s
  let v : State := if x.enc then u.doneEncode eng.val n x p out out.detect else u.doneDecode eng.val n x p out out.detect
  have hexec : exec (.pictureDone eng out) s = .next ((v.readIndexes n).afterPoll n) := by
    change execPictureDone eng out s = _
    rw [execPictureDone]
    dsimp only
    rw [hfind]
    dsimp only
    rw [hpic]
    exact congrArg Host.Outcome.next (if_neg (by
      rw [Bool.and_eq_true, decide_eq_true_eq]
      rintro ⟨hdet, hfirst⟩
      rcases hlast with h | h
      · rw [h] at hdet
        cases hdet
      · exact h hfirst))
  have hv : Ended eng.val n v := .ite (ended_doneEncode eng.isLt ..) (ended_doneDecode eng.isLt ..)
  clear_value v
  obtain ⟨hidle, hfree⟩ := hv.polled eng.isLt
  exact ⟨_, hexec, hidle, hfree⟩

end

/-! .setStream Overload (R356) -/

theorem rd_schMode_wr_self (s : State) (v : Nat) : (s.wr pgSCHED F.SCH_MODE v).rd pgSCHED F.SCH_MODE = v % 2 := State.rdi_wri_self ..

theorem rd_schMode_raise (s : State) (bit : Nat) : (s.raise pgSCHED bit).rd pgSCHED F.SCH_MODE = s.rd pgSCHED F.SCH_MODE := State.rdi_raise_ne _ (by decide)

theorem rd_schMode_showSched (s : State) : s.showSched.rd pgSCHED F.SCH_MODE = s.rd pgSCHED F.SCH_MODE := by
  have hwr (t : State) (F0 : Field) (v : Nat) (hF : fkey pgSCHED F.SCH_MODE 0 ≠ fkey pgSCHED F0 0) :
      (t.wr pgSCHED F0 v).rd pgSCHED F.SCH_MODE = t.rd pgSCHED F.SCH_MODE := State.rdi_wri_ne _ _ hF
  unfold State.showSched
  extract_lets long upd waits streams oldest codec1 s1
  have h1 : s1.rd pgSCHED F.SCH_MODE = s.rd pgSCHED F.SCH_MODE := rfl
  clear_value s1 waits streams oldest
  rw [hwr _ _ _ (by decide), hwr _ _ _ (by decide), hwr _ _ _ (by decide), hwr _ _ _ (by decide), rd_count_eq, h1]

theorem overloadEnter_enters {s : State} (hoff : s.on pgSCHED F.SCH_MODE = false)
    (hlate : ∃ e ∈ s.codec.streams, ∃ c, e.2.readyClk = some c ∧ e.2.live = true ∧ c + s.rd pgSCHED F.SCH_OVL_ENTER_US * clkUs ≤ s.now) :
    ∃ t, exec .overloadEnter s = .next t ∧ t.rd pgSCHED F.SCH_MODE = 1 ∧ Raised t pgSCHED 0 ∧ t.ctr pgSCHED 0x04C = s.ctr pgSCHED 0x04C + 1 ∧
      t.codec = { s.codec with longClk := s.now } ∧ SameBytes s t := by
  let u : State := ((s.wr pgSCHED F.SCH_MODE 1).raise pgSCHED 0).count pgSCHED 0x04C 1
  have hexec : exec .overloadEnter s = .next { u with codec := { u.codec with longClk := u.now } } := by
    have hany : (s.codec.streams.any fun e => e.2.readyClk.any fun c => (e.2.live && decide (c + s.rd pgSCHED F.SCH_OVL_ENTER_US * clkUs ≤ s.now)) ||
        decide (c + 2 * (s.rd pgSCHED F.SCH_OVL_ENTER_US * clkUs) ≤ s.now)) = true := by
      obtain ⟨e, he, c, hclk, hlive, hdue⟩ := hlate
      refine List.any_eq_true.mpr ⟨e, he, ?_⟩
      rw [hclk, Option.any_some, hlive, decide_eq_true hdue]
      rfl
    change execOverloadEnter s = _
    rw [execOverloadEnter]
    dsimp only
    rw [hany, hoff, if_neg (by decide)]
  have hmode : u.rd pgSCHED F.SCH_MODE = 1 := (rd_count_eq ..).trans ((rd_schMode_raise _ 0).trans (rd_schMode_wr_self s 1))
  have hraised : Raised u pgSCHED 0 := raised_congr rfl (raised_raise (s.wr pgSCHED F.SCH_MODE 1) pgSCHED 0 (by decide))
  have hctr : u.ctr pgSCHED 0x04C = s.ctr pgSCHED 0x04C + 1 := by
    refine (State.ctr_count_self ((s.wr pgSCHED F.SCH_MODE 1).raise pgSCHED 0) pgSCHED 0x04C 1).trans (congrArg (· + 1) ?_)
    rw [ctr_raise _ _ _ (by decide), State.ctr_wri]
  have hbytes : SameBytes s u := (((quiet_refl s).wri ..).raise ..).count .. |>.sameBytes
  have hcodec : u.codec = s.codec := by rw [State.count_codec, State.raise_codec, State.wri_codec]
  have hnow : u.now = s.now := by rw [State.count_now, State.raise_now, State.wri_now]
  clear_value u
  refine ⟨_, hexec, hmode, raised_congr rfl hraised, hctr, ?_, hbytes.trans .of_eq⟩
  rw [← hcodec, ← hnow]

theorem overloadExit_exits {s : State} (hon : s.on pgSCHED F.SCH_MODE = true) (hquiet : (s.codec.streams.any fun e => s.longWait e.2) = false)
    (hdue : s.codec.longClk + s.rd pgSCHED F.SCH_OVL_EXIT_MS * clkMs ≤ s.now) :
    ∃ t, exec .overloadExit s = .next t ∧ t.rd pgSCHED F.SCH_MODE = 0 ∧ Raised t pgSCHED 1 ∧ SameBytes s t := by
  let u : State := (s.wr pgSCHED F.SCH_MODE 0).raise pgSCHED 1
  have hexec : exec .overloadExit s = .next u.showSched := by
    change execOverloadExit s = _
    rw [execOverloadExit]
    dsimp only
    rw [hquiet, hon, decide_eq_false (Nat.not_lt.mpr hdue), if_neg (by decide)]
  have hmode : u.rd pgSCHED F.SCH_MODE = 0 := (rd_schMode_raise _ 1).trans (rd_schMode_wr_self s 0)
  have hraised : Raised u pgSCHED 1 := raised_raise _ _ _ (by decide)
  have hbytes : SameBytes s u := ((quiet_refl s).wri ..).raise .. |>.sameBytes
  clear_value u
  exact ⟨_, hexec, (rd_schMode_showSched u).trans hmode, (Onward.showSched (.refl ..)).events 1 (by decide) hraised, hbytes.trans (sameBytes_showSched u)⟩

/-! .setStream The obligation -/

/-- Settles O41: each clause is one command, poll or engine event of a stream. -/
theorem codecWork : Obligations.CodecWork := by
  refine ⟨⟨?_, fun fn tag n s x hx hpage hown => ⟨codecClose_waits hx hpage hown, codecClose_closes hx hpage hown, codecFlush_waits hx hpage hown,
      codecKeyreq_refuses hx hpage hown, fun desc t1 b sd => codecRcSet_sets hx hpage hown⟩,
    fun n s s1 x b hx hdue hlive hopen hread => ⟨codecRingPoll_takes hx hdue hlive hopen hread, codecRingPoll_faults hx hdue hlive hopen hread⟩⟩, ?_,
    fun eng out s n x p hfind hpic => ⟨pictureDone_reruns hfind hpic, pictureDone_ends hfind hpic⟩, fun s => overloadEnter_enters, fun s => overloadExit_exits⟩
  · intro fn tag ctx desc s t1 n b x hp hup hbound hfree hdesc hread hok hxd hpool hring
    subst hxd
    exact codecOpen_opens hp hup hbound hfree hdesc hread hok hpool hring
  · intro eng syn s s1 s2 n i x y x1 b hunit hidle hrun htest hnone hnext hs1 hx hwants hentry
    exact ⟨pictureStart_encodes hunit hidle hrun htest hnone hnext hs1 hx hwants hentry,
      fun s3 x2 => pictureStart_decodes hunit hidle hrun htest hnone hnext hs1 hx hwants hentry⟩

end Sys2Proof
end
